-- ==== Sys2Proof/Word.lean ====
section
/-! DEFINITION. The word types and their plainest arithmetic.

R14: integer arithmetic inside an expression is exact, and narrowing happens only through the named functions
`trunc` (keep the low bits) and `sat` (clamp to the range). The model follows it: register contents, counts and
fields of records are exact natural numbers that are narrowed by these functions where they are stored; only what
is a string of bytes on a wire or in a store is a list of bit vectors. -/

namespace Sys2Proof

/-- One byte (R9: byte 0 lies at the lowest address). -/
abbrev Byte := BitVec 8

/-- `trunc` of R14: keep the low `w` bits. -/
def trunc (w x : Nat) : Nat := x % 2 ^ w

/-- `sat` of R14 for an unsigned value of `w` bits. -/
def satU (w x : Nat) : Nat := min x (2 ^ w - 1)

/-- Bits [hi:lo] of a value (R8: bit 0 is the least significant bit). -/
def bits (x hi lo : Nat) : Nat := (x >>> lo) % 2 ^ (hi + 1 - lo)

/-- Bit i of a value. -/
def bit (x i : Nat) : Bool := x.testBit i

/-- x with bits [hi:lo] replaced by the low bits of v. -/
def setBits (x hi lo v : Nat) : Nat :=
  (x >>> (hi + 1)) <<< (hi + 1) + ((v % 2 ^ (hi + 1 - lo)) <<< lo) + x % 2 ^ lo

/-- A Bool as a one-bit value. -/
def b2n (b : Bool) : Nat := if b then 1 else 0

/-- A two's-complement value of `w` bits read as an integer (sN of R14). -/
def toSigned (w x : Nat) : Int :=
  if x % 2 ^ w < 2 ^ (w - 1) then ((x % 2 ^ w : Nat) : Int) else ((x % 2 ^ w : Nat) : Int) - (2 ^ w : Nat)

/-- An integer as a two's-complement value of `w` bits. -/
def ofSigned (w : Nat) (x : Int) : Nat := (x % ((2 ^ w : Nat) : Int)).toNat

/-- ceil(a / b) of the manual's cycle formulas. -/
def ceilDiv (a b : Nat) : Nat := (a + b - 1) / b

end Sys2Proof
end

