-- ==== Sys2Proof/Syntax.lean ====
section
/-! DEFINITION. The commands of the A9 module: one constructor for each row of the table of operations and events,
with the row's operands. A row is a step of the module, whole and indivisible; its operands are what the outside
world or the flow of time decides (an address, a value, bytes on a wire, a sensor reading, an elapsed count), and
which core, queue, port or engine the step happens at. The table gives no row any bits. -/

namespace Sys2Proof

/-- The commands. `core` is a logical core ID, `ring` an engine (0 F, 1 M, 2 V, 3 S; R123), `pos` a core-position
index 64 × die + position, `q` a host queue, `x` an entry number, `writer` 0 for the host and 1 + position for the
control core of a position, of every access of the register space (R124, R425), `offset` a register-space offset (R424). An operand
with a default may be left out: a `writer` then is the host, and a time or a count is 0. -/
inductive Instr where
  /-- R428: the input has stood at `mv` millivolts for `heldMs`, with PRES# low or not. -/
  | powerInputApplied (mv heldMs : Nat) (presLow : Bool)
  /-- R431: the rail of power-up step `railStep` is not good within its bound. -/
  | railFault (railStep : Nat)
  /-- R428: the input has stood at `mv` millivolts for `heldUs`. -/
  | inputOutOfRange (mv heldUs : Nat)
  /-- R429: PRES# goes high. -/
  | presDeassert
  /-- R370, R435: PERST# goes low on J9 (0) or J10 (1). -/
  | perstAssert (pin : Nat)
  /-- R369: t0; whether the PERST# pins of J9 and J10 are released at this moment; the positions that fail BIST
  (R380). -/
  | moduleReset (releaseJ9 releaseJ10 : Bool) (bistFail : List Nat)
  /-- R376: the slots are read and checked; whether the flash controller reports a read error on slot A, B. -/
  | slotVerify (readErrA readErrB : Bool)
  /-- R399: the security self-test `test` (SEC_STATUS.ERROR code of its failure) ends. -/
  | securitySelfTest (test : Nat) (pass : Bool)
  /-- R379: the function of ready-map bit `fn` ends its self-test. -/
  | selfTestComplete (fn : Nat) (pass : Bool)
  /-- R197: controller FC`ctrl` ends its training. -/
  | farStoreTrainingDone (ctrl : Nat) (pass : Bool)
  /-- R197: set `set` has written zero to all its lines. -/
  | farStoreZeroFillDone (set : Nat)
  /-- R391. -/
  | rollbackAdvance
  /-- R320. -/
  | hotReset
  /-- R320. -/
  | functionLevelReset
  /-- R320. -/
  | cxlLinkDown
  /-- R297, R298: the link trains; `cxl` false when negotiation leaves it PCIe-only. -/
  | cxlLinkUp (cxl : Bool) (lanes speed : Nat)
  /-- R378: a configuration request. -/
  | configRequest (isWrite : Bool) (offset value : Nat)
  /-- R301: a BAR0 access of `size` bytes at `offset`. -/
  | bar0AccessInvalid (isWrite : Bool) (offset size : Nat)
  /-- R303. -/
  | bar2Read (offset len : Nat)
  /-- R303. -/
  | bar2Write (offset : Nat) (data : List Byte) (poison : Bool)
  /-- R302: an HDM read of the 64-byte cache line at offset. -/
  | cxlMemRead (offset : Nat)
  /-- R302: an HDM write of a cache line. -/
  | cxlMemWrite (offset : Nat) (data : List Byte) (poison : Bool)
  /-- R299. -/
  | h2dSnoop (address : Nat)
  /-- R319. -/
  | ideIntegrityFailure
  /-- R10: a write of `size` bytes to the register space. -/
  | registerWrite (writer offset size value : Nat)
  /-- R10: a read of `size` bytes of the register space. -/
  | rcRegisterRead (offset size : Nat) (writer : Nat := 0)
  /-- R321. -/
  | hstQDoorbell (q wr : Nat) (writer : Nat := 0)
  /-- R305: the 128 bytes that RdCurr returns from host memory. -/
  | jobEntryFetch (q : Nat) (entry : List Byte) (poison : Bool)
  /-- R306. -/
  | markerComplete (q x : Nat)
  /-- R308: `waitUs` is the time from the fetch, which ADMIT_WAIT reports (R312). -/
  | jobAdmission (q x waitUs : Nat)
  /-- R308: the job's cores have been free, and a bit that it needs clear, for `waitMs`. -/
  | admissionTimeout (q x : Nat) (waitMs : Nat := 0)
  /-- R310. -/
  | ecallExit (core a0 a1 : Nat)
  /-- R310: `runMs` is the time from admission, which RUN_TIME reports (R312). -/
  | jobComplete (q x runMs : Nat)
  /-- R311: `runMs` milliseconds have passed since admission. -/
  | jobRunTimeout (q x runMs : Nat)
  /-- R314. -/
  | hstQAbort (q index : Nat) (writer : Nat := 0)
  /-- R321. -/
  | hstQReset (q value : Nat) (writer : Nat := 0)
  /-- R316. -/
  | interruptHoldoffExpiry (q : Nat)
  /-- R317: `input` is the mailbox input payload, here and below. -/
  | getEventRecords (input : List Byte)
  | clearEventRecords (input : List Byte)
  | getEventInterruptPolicy (input : List Byte)
  | setEventInterruptPolicy (input : List Byte)
  | getFwInfo (input : List Byte)
  | getSupportedLogs (input : List Byte)
  | getLog (input : List Byte)
  | getReady (input : List Byte)
  | getSettings (input : List Byte)
  | readLog (input : List Byte)
  | getHealth (input : List Byte)
  /-- R401, R404: by mailbox or by MCTP. -/
  | zeroise (viaMctp : Bool) (input : List Byte)
  /-- R317. -/
  | mailboxUnsupported (opcode : Nat)
  /-- R401: the zeroisation input has been low for `heldUs`. -/
  | zeroisePinLow (heldUs : Nat)
  /-- R403: the zeroisation input has been low for `heldMs`. -/
  | permanentZeroisation (heldMs : Nat)
  /-- R393. -/
  | getCertificate (viaMctp : Bool) (slot : Nat)
  /-- R393. -/
  | challenge (viaMctp : Bool) (slot nonce : Nat)
  /-- R394: `index` 1 to 13 names a block. -/
  | getMeasurements (viaMctp : Bool) (index : Nat)
  /-- R389: the SHA-384 hash of the root certificate of the operator's chain. -/
  | keyExchange (viaMctp : Bool) (rootHash : List Byte)
  /-- R393. -/
  | signPq (session : Nat)
  /-- R395: `stream` 0 is the CXL.io selective stream and 1 the CXL.cachemem link stream (R319). -/
  | keyProg (session stream : Nat) (key : List Byte)
  | kSetGo (session stream : Nat)
  | kSetStop (session stream : Nat)
  /-- R396. -/
  | installCak (session port : Nat) (cak ckn : List Byte)
  /-- R396: an MKA message on `port`: its ICV verifies; the SAK it distributes if the peer is key server. -/
  | mkpduReceived (port : Nat) (icvOk : Bool) (peerPriority : Nat) (sak : List Byte)
  /-- R398: the health tests of one TRNG sample. -/
  | trngSample (pass : Bool)
  /-- R398. -/
  | drbgReseed
  /-- R385. -/
  | mgtFlashErase (writer : Nat := 0)
  | mgtFlashProgram (len : Nat) (writer : Nat := 0)
  | mgtFlashCheck (writer : Nat := 0)
  /-- R385: the running flash command ends; `deviceOk` false for an erase, program or read failure of the flash. -/
  | flashCommandDone (deviceOk : Bool)
  /-- R384. -/
  | healthRecordAppend (kind : Nat) (payload : List Byte)
  /-- R124: word +0, +8 or +16 (word 0, 1, 2). -/
  | ringPushWord (writer core ring word value : Nat)
  /-- R124: word +24. -/
  | ringPushCommit (writer core ring value : Nat)
  | ringPushResume (writer core ring : Nat)
  /-- R315: the push has been held for `heldUs`. -/
  | hostPushTimeout (core ring : Nat) (heldUs : Nat := 0)
  /-- R123, R126: a write of CORE_RING_CTL with RUN = 1. -/
  | coreRingCtlRun (core ring : Nat) (writer : Nat := 0)
  /-- R127. -/
  | coreRingReset (core ring : Nat) (writer : Nat := 0)
  /-- R136, scope 0. -/
  | abortRecord (core ring index : Nat) (writer : Nat := 0)
  /-- R136, scope 1. -/
  | abortRecordAndLater (core ring index : Nat) (writer : Nat := 0)
  /-- R137, scope 2. -/
  | abortJob (core ring : Nat) (writer : Nat := 0)
  /-- R131. -/
  | corePassThrow (core pass n : Nat) (writer : Nat := 0)
  /-- R181. -/
  | corePlaySync (core mask : Nat) (writer : Nat := 0)
  /-- R128, R147. -/
  | catchGrant (core ring : Nat)
  /-- R138. -/
  | decodeFailure (core ring : Nat)
  /-- R125: `extra` counts the island cycles beyond the formulas of Table 06-5 (freezes, off-slice waits). -/
  | macroOpRetire (core ring extra : Nat)
  /-- R150: the common macro-ops run on any ring. -/
  | nop (core ring : Nat)
  | throwOp (core ring : Nat)
  | catchOp (core ring : Nat)
  | stepSet (core ring : Nat)
  | phaseMark (core ring : Nat)
  | stateSave (core ring : Nat)
  | stateLoad (core ring : Nat)
  /-- F ring (R153, R154). -/
  | loadTile (core : Nat)
  | expand (core : Nat)
  | gather (core : Nat)
  | fPlay (core : Nat)
  /-- M ring (R155 to R159). -/
  | mma (core : Nat)
  | mmaBlock (core : Nat)
  | mmaA7 (core : Nat)
  | mmaFp64 (core : Nat)
  | drain (core : Nat)
  /-- V ring (R160 to R165). -/
  | cast (core : Nat)
  | epilogue (core : Nat)
  | ewise (core : Nat)
  | reduceExact (core : Nat)
  | reduceFast (core : Nat)
  | norm (core : Nat)
  | rngFill (core : Nat)
  | vPlay (core : Nat)
  /-- S ring (R166 to R168). -/
  | storeTile (core : Nat)
  | fill (core : Nat)
  | scatterAddExact (core : Nat)
  /-- R92: `order` is the order in which the rows arrive at the update unit. -/
  | scatterAddFast (core : Nat) (order : List Nat)
  | collective (core : Nat)
  | update (core : Nat)
  | snapshot (core : Nat)
  | sPlay (core : Nat)
  /-- R79. -/
  | slotDrainWaitEnd (core : Nat)
  /-- R68: of slot 0 (A) or 1 (B). -/
  | windowResolve (core slot : Nat)
  /-- R346. -/
  | checksumFreeze (pos : Nat)
  /-- R185. -/
  | hazardWatchFreeze (pos ring : Nat)
  /-- R349: the copy of the lines that the oldest copying macro-op of the core reads. -/
  | captureCopyDone (core : Nat)
  /-- R349: the shadow result of slot `slot` of the core agrees with the original or not. -/
  | shadowComparison (core slot : Nat) (agree : Bool)
  /-- R351: `trigger` 0 product, 1 drain, 2 shadow; the bit patterns of candidates O, P or S, and D. -/
  | decisionComplete (core slot trigger o other d : Nat)
  /-- R119. -/
  | substitutionStopped (core : Nat)
  /-- R119. -/
  | substitutionStopTimeout (core : Nat)
  /-- R121: `ranCycles` since the running core was switched in. -/
  | doublingSwitch (pos ranCycles : Nat)
  /-- R358: position idle for `idleUs`. -/
  | practiceEntry (pos idleUs : Nat)
  /-- R359: `kernel` is a row of Table 14-2; the digest matched or not; work has arrived or not; the set is whole. -/
  | practiceKernelDone (pos kernel : Nat) (pass work last : Bool)
  /-- R323, R330: what the islands report of the window beside the units that the engines and update units charged: energy units
  (island, class, count); activity (island, what, count), `what` 16 beats, 17 NoC flits, 18 far-store bursts, 19 SerDes lanes; and
  each island's °C. -/
  | governorWindow (units activity : List (Nat × Nat × Nat)) (temps : List Nat)
  /-- R334, R337: `pMeas` from PMBus in watts, or a failed read. -/
  | governorEvaluation (readOk : Bool) (pMeas : Nat)
  /-- R335. -/
  | positionOff (pos idleMs : Nat)
  /-- R335. -/
  | positionWakeDone (pos : Nat)
  /-- R340: the step the margin asks for: −1, 0 or +1 steps of 5 mV. -/
  | voltageTrim (island : Nat) (up down : Bool)
  /-- R339. -/
  | droopDetect (island fallMv : Nat)
  /-- R339. -/
  | droopRecovery (island cycles : Nat)
  /-- R341: readings of the 36 junction sensors in 1/16 °C. -/
  | thermalSample (readings : List Int)
  /-- R341: `belowMs` with all readings below the exit threshold. -/
  | throttleExit (belowMs : Nat)
  | hardLimitExit (belowMs : Nat)
  /-- R207: `store` 0 near (unit is a slice number), 1 far (unit is a set). -/
  | scrubLine (store unit : Nat)
  /-- R199: rate that mode register 4 requests. -/
  | refresh (ctrl rate : Nat)
  | zqCalibration (ctrl : Nat)
  /-- R213. -/
  | memInjectCorrectable (addr : Nat) (writer : Nat := 0)
  | memInjectUncorrectable (addr : Nat) (writer : Nat := 0)
  | memInjectPoison (addr : Nat) (writer : Nat := 0)
  /-- R189: the control core of `core` accesses `addr` with `size` bytes (0: an unmapped fetch). -/
  | controlCoreFault (core addr size : Nat)
  /-- R232. -/
  | verdictRelease (core : Nat)
  /-- R234: `waitedMs` since issue. -/
  | verdictTimeout (core waitedMs : Nat)
  /-- R328: the next block or run of elements of the released UPDATE of the core. -/
  | updateUnitBlock (core : Nat)
  /-- R228. -/
  | updateUnitsDone (core : Nat)
  /-- R234. -/
  | updVgroupWrite (entry value : Nat) (writer : Nat := 0)
  /-- R247: frame length from destination address through FCS, its FCS, tag, kind and content: kind 0 a Mirzu packet with a
  good UDP checksum, 1 a Neighbor Solicitation, 2 an ARP request, 3 an echo request that names the port's own address,
  4 a UDP datagram to the Mirzu port with a bad checksum, 5 a frame that fails MACsec's integrity check, any other kind another frame;
  `uncorr` uncorrectable FEC codewords since the last frame, `an` and `pn` the association and packet numbers of MACsec. -/
  | frameReceived (port len : Nat) (fcsOk tagged : Bool) (vid kind : Nat) (ce : Bool) (payload : List Byte) (uncorr an pn : Nat := 0)
  /-- R247. -/
  | portLinkUp (port : Nat)
  /-- R267: by a local fault (1), a remote fault (2), or otherwise (0). -/
  | portLinkDown (port : Nat) (fault : Nat := 0)
  /-- R436. -/
  | portOffAssert
  | portOffDeassert
  /-- R433: connector 1 to 8; kind 0 presence change, 1 interrupt. -/
  | cableEvent (connector kind : Nat) (present : Bool)
  /-- R260: a DATA packet (its Mirzu header of 32 bytes, then its payload), on `port`, marked CE or not. -/
  | data (port : Nat) (ce : Bool) (packet : List Byte)
  /-- R263: `now` is the transport-island counter, here and below. -/
  | ack (port now : Nat) (packet : List Byte)
  /-- R265. -/
  | msgStatus (port : Nat) (packet : List Byte)
  /-- R259. -/
  | openPacket (port : Nat) (packet : List Byte)
  /-- R258. -/
  | openAck (port : Nat) (packet : List Byte)
  /-- R258. -/
  | resetPacket (port : Nat) (packet : List Byte)
  /-- R268. -/
  | probe (port : Nat) (packet : List Byte)
  /-- R267. -/
  | probeReply (port now : Nat) (packet : List Byte)
  /-- R258: a message of a class with a TAG, its data in lines of 32 bytes. -/
  | messagePost (peer cls tag : Nat) (payload : List Byte)
  /-- R267: the next new packet to a peer, at counter `now`. -/
  | packetSend (peer now : Nat)
  /-- R258: `sinceUs` since the previous OPEN. -/
  | openResend (peer sinceUs : Nat)
  /-- R258: `sinceMs` without progress. -/
  | rallyGiveup (peer sinceMs : Nat)
  /-- R262: 2 µs since the first unacknowledged sequenced packet. -/
  | ackDelayExpiry (peer : Nat)
  /-- R263: the packet with `psn` at counter `now`. -/
  | retransmitTimeout (peer psn now : Nat)
  /-- R267. -/
  | suspectProbe (peer path : Nat)
  /-- R268. -/
  | idlePathProbe (peer path idleUs : Nat)
  /-- R268. -/
  | rateAdjust (peer path : Nat) (now : Nat := 0)
  /-- R269. -/
  | contextMissDone (peer : Nat)
  /-- R271: the 32 bits written to TRN_TAKEOVER. -/
  | trnTakeover (value : Nat) (writer : Nat := 0)
  /-- R271: the n-th advertisement (0, 1 or 2). -/
  | takeoverAdvertise (n : Nat)
  /-- R282: the next queued collective of engine `eng`. -/
  | collectiveStart (eng : Nat)
  /-- R275. -/
  | groupRecordFetchDone (eng group : Nat)
  /-- R289: a control message (line 0, 32 bytes) from node `src` for engine `eng`, group `group`. -/
  | agree (eng group src : Nat) (line0 : List Byte)
  | go (eng group src : Nat) (line0 : List Byte)
  | nogo (eng group src : Nat) (line0 : List Byte)
  /-- R290. -/
  | abortMessage (eng group src : Nat) (line0 : List Byte)
  /-- R285. -/
  | credit (eng group src : Nat) (line0 : List Byte)
  /-- R285: chunk `g` on `leg` (0 reduce, 1 broadcast) of collective `seq` of `group`. -/
  | chunkSend (eng group seq leg g : Nat)
  /-- R285: a whole chunk message from node `src`: its header line and its encoded bytes, and which of its lines
  arrived poisoned. -/
  | reduceChunkReceived (eng group src : Nat) (line0 body : List Byte) (poisoned : List Nat)
  | broadcastChunkReceived (eng group src : Nat) (line0 body : List Byte) (poisoned : List Nat)
  /-- R293. -/
  | collectiveComplete (eng group seq : Nat)
  /-- R290, R168: `idleMs` without progress of a collective at its engine, or, where it is named, of the remote SNAPSHOT of a core by
  its record number. -/
  | collectiveProgressTimeout (eng group seq idleMs : Nat) (snapshot : Option (Nat × Nat) := none)
  /-- R283: the 64 bits written to RLY_CQ_DOORBELL. -/
  | rlyCqDoorbell (value : Nat) (writer : Nat := 0)
  /-- R274. -/
  | rlyGcacheFlush (value : Nat) (writer : Nat := 0)
  /-- R366: step S. -/
  | parityRefresh (stepS : Nat) (writer : Nat := 0)
  /-- R367. -/
  | parityRebuildSurvivor (stepS lost : Nat) (writer : Nat := 0)
  | parityRebuildSpare (stepS lost : Nat) (writer : Nat := 0)
  /-- R362: the oldest record of the on-chip buffer is written to the ring. -/
  | errorLogRecord (kind island logical : Nat) (payload : List Byte)
  /-- R408: `owner` 0 core position, 1 port controller, 2 Relay engine; `index` names it; the select written. -/
  | counterSelectWrite (owner index counter value : Nat) (writer : Nat := 0)
  /-- R409. -/
  | counterWrite (owner index counter value : Nat) (writer : Nat := 0)
  /-- R415: the value written to CNT_SCD_CTL. -/
  | cntScdEnable (value : Nat) (writer : Nat := 0)
  /-- R414. -/
  | scorecardTick
  /-- R413: bytes received and sent in the window by controller `n`. -/
  | bandwidthWindowEnd (n tx rx : Nat)
  /-- R413. -/
  | cntBwReadLatch (n : Nat) (writer : Nat := 0)
  /-- R437: the regulator readings that the commands report. -/
  | readVin (reading : Nat)
  | readIin (reading : Nat)
  | readPin
  | readTemperature1
  | statusWord
  /-- R437: command code; a write or a read. -/
  | pmbusNack (code : Nat) (isWrite : Bool)
  /-- R438. -/
  | idcode
  | bypass
  | samplePreload (capture : Nat)
  | extest
  | clamp
  | highz
  /-- R389. -/
  | sessionEnd (session : Nat)
  /-- R335. -/
  | operatingPointReached (pos : Nat)
  /-- R360: position `pos` now has the age `ageS` seconds. -/
  | practiceLag (pos ageS : Nat)
  /-- R434. -/
  | tapReset
  deriving DecidableEq, Repr

end Sys2Proof
end

