-- ==== Sys2Proof/Decode.lean ====
section
/-! DEFINITION. The module has no instruction decoder: its commands come from outside, and the table of operations and
events gives no row any bits. So no word spells a command. (The macro-op records that an engine decodes at its
arbitration point, R147, are data of the near store: Machine/Engine.lean decodes them.) -/

namespace Sys2Proof

/-- The command that a word of `nbits` bits spells by the table's bits: the table gives no row any, so none. -/
def decodeTableWord (_nbits _w : Nat) : Option Instr := none

end Sys2Proof
end

