-- ==== Sys2Proof/Machine/Flags.lean ====
section
/-! DEFINITION. The seven exception flags of a completion and of an exception record (Table 03-9), and their bit
order. Each rounding and each operation answers the flags it sets; they are joined by OR (R76, R77). -/

namespace Sys2Proof.Machine

/-- The flags of Table 03-9, bits [5:0], and whether a first invalid term is recorded, bit [6]. -/
structure Flags where
  nanIn : Bool := false
  invalid : Bool := false
  infIn : Bool := false
  overflow : Bool := false
  underflow : Bool := false
  inexact : Bool := false
  invValid : Bool := false
  deriving DecidableEq, Repr

/-- No flag. -/
def Flags.none : Flags := {}

/-- The OR of two sets of flags. -/
def Flags.join (a b : Flags) : Flags where
  nanIn := a.nanIn || b.nanIn
  invalid := a.invalid || b.invalid
  infIn := a.infIn || b.infIn
  overflow := a.overflow || b.overflow
  underflow := a.underflow || b.underflow
  inexact := a.inexact || b.inexact
  invValid := a.invValid || b.invValid

/-- The flag field of Table 06-4: bits [6:0] in the order of Table 03-9. -/
def Flags.toNat (f : Flags) : Nat :=
  b2n f.nanIn + 2 * b2n f.invalid + 4 * b2n f.infIn + 8 * b2n f.overflow + 16 * b2n f.underflow
    + 32 * b2n f.inexact + 64 * b2n f.invValid

/-- The flags that a field in the bit order of Table 03-9 holds. -/
def Flags.ofNat (n : Nat) : Flags where
  nanIn := bit n 0
  invalid := bit n 1
  infIn := bit n 2
  overflow := bit n 3
  underflow := bit n 4
  inexact := bit n 5
  invValid := bit n 6

/-- NaN-in alone (R32, R33). -/
def Flags.ofNan : Flags := { nanIn := true }
/-- Invalid alone. -/
def Flags.ofInvalid : Flags := { invalid := true }
/-- Inexact alone. -/
def Flags.ofInexact : Flags := { inexact := true }
/-- Overflow-out alone. -/
def Flags.ofOverflow : Flags := { overflow := true }

/-- The OR over a list. -/
def Flags.joinAll (l : List Flags) : Flags := l.foldl Flags.join Flags.none

end Sys2Proof.Machine
end

