-- ==== Sys2Proof/Machine/Formats.lean ====
section
/-! DEFINITION. Number formats (chapter 02): format codes, decoding to exact values, the one rounding, casts, MX
blocks and operand expansion. -/

namespace Sys2Proof.Machine

/-- The value of an operand or a term. `fin s m q` is (−1)^s × m × 2^q (m = 0: a zero with sign s). `invalid` is a
term that expansion made invalid (R42). -/
inductive Val where
  | nan
  | invalid
  | inf (s : Bool)
  | fin (s : Bool) (m : Nat) (q : Int)
  deriving DecidableEq, Repr

/-- +0. -/
def Val.zero : Val := .fin false 0 0

/-- A floating-point layout (Table 02-2): exponent bits, fraction bits, bias, code of the largest finite value, and
whether the format has infinities and a NaN code (Table 02-3). -/
structure Fp where
  eBits : Nat
  mBits : Nat
  bias : Nat
  maxCode : Nat
  hasInf : Bool
  hasNan : Bool
  nanCode : Nat
  deriving DecidableEq, Repr

/-- Table 02-2 and Table 02-3, for the floating-point format codes of Table 02-1. The `nanCode` of a format without
a NaN is the code of R33. -/
def Fp.ofCode : Nat → Option Fp
  | 0x00 => some ⟨11, 52, 1023, 0x7FEFFFFFFFFFFFFF, true, true, 0x7FF8000000000000⟩
  | 0x01 => some ⟨8, 23, 127, 0x7F7FFFFF, true, true, 0x7FC00000⟩
  | 0x02 => some ⟨8, 7, 127, 0x7F7F, true, true, 0x7FC0⟩
  | 0x03 => some ⟨5, 10, 15, 0x7BFF, true, true, 0x7E00⟩
  | 0x04 => some ⟨5, 2, 15, 0x7B, true, true, 0x7E⟩
  | 0x05 => some ⟨4, 3, 7, 0x7E, false, true, 0x7F⟩
  | 0x06 => some ⟨4, 3, 7, 0x7F, false, false, 0x7F⟩
  | 0x07 => some ⟨3, 2, 3, 0x1F, false, false, 0x1F⟩
  | 0x08 => some ⟨2, 3, 1, 0x1F, false, false, 0x1F⟩
  | 0x09 => some ⟨2, 1, 1, 0x7, false, false, 0x7⟩
  | _ => none

/-- Bits of a format's code. -/
def Fp.width (f : Fp) : Nat := 1 + f.eBits + f.mBits
/-- p of R46: significand bits with the leading one. -/
def Fp.p (f : Fp) : Nat := f.mBits + 1
/-- emin of R46: exponent of the smallest normal. -/
def Fp.emin (f : Fp) : Int := 1 - (f.bias : Int)

/-- The format of FP32. -/
def Fp.fp32 : Fp := ⟨8, 23, 127, 0x7F7FFFFF, true, true, 0x7FC00000⟩
/-- The format of FP64. -/
def Fp.fp64 : Fp := ⟨11, 52, 1023, 0x7FEFFFFFFFFFFFFF, true, true, 0x7FF8000000000000⟩

/-- The finite value of a code (R29). -/
def Fp.finite (f : Fp) (code : Nat) : Bool × Nat × Int :=
  let s := bit code (f.eBits + f.mBits)
  let e := bits code (f.eBits + f.mBits - 1) f.mBits
  let fr := code % 2 ^ f.mBits
  if e = 0 then (s, fr, f.emin - f.mBits)
  else (s, 2 ^ f.mBits + fr, (e : Int) - f.bias - f.mBits)

/-- Decode a code of a floating-point format (R29, R31, R32). -/
def Fp.decode (f : Fp) (code : Nat) : Val :=
  let c := code % 2 ^ f.width
  let s := bit c (f.eBits + f.mBits)
  let mag := c % 2 ^ (f.eBits + f.mBits)
  if f.hasInf && mag == f.maxCode + 1 then .inf s
  else if f.hasNan && mag > f.maxCode then .nan
  else
    let (s, m, q) := f.finite c
    .fin s m q

/-- Rounding modes (Table 02-5). -/
inductive RMode where
  | rne | rtz | rup | rdn | sr
  deriving DecidableEq, Repr

/-- Table 02-5; a reserved value has none. -/
def RMode.ofCode : Nat → Option RMode
  | 0 => some .rne
  | 1 => some .rtz
  | 2 => some .rup
  | 3 => some .rdn
  | 4 => some .sr
  | _ => none

/-- The rounding decision of R46 on the discarded part `rem` of `d` bits below a kept part `k`. -/
def roundUp (mode : RMode) (s : Bool) (k rem d r : Nat) : Bool :=
  match mode with
  | .rne => let half := 2 ^ (d - 1); decide (rem > half) || (rem == half && k % 2 == 1)
  | .rtz => false
  | .rup => rem != 0 && !s
  | .rdn => rem != 0 && s
  | .sr =>
    let g := if d ≥ 32 then rem >>> (d - 32) else rem <<< (32 - d)
    decide (trunc 32 g + trunc 32 r ≥ 2 ^ 32)

/-- Is m × 2^q greater than m' × 2^q'? -/
def dyadicGt (m : Nat) (q : Int) (m' : Nat) (q' : Int) : Bool :=
  if q ≥ q' then decide (m <<< (q - q').toNat > m') else decide (m > m' <<< (q' - q).toNat)

/-- The code with the sign bit put in. -/
def Fp.withSign (f : Fp) (s : Bool) (mag : Nat) : Nat := b2n s <<< (f.eBits + f.mBits) + mag

/-- The value of an overflowed result (Table 06 of chapter 02, R48). -/
def Fp.overflowCode (f : Fp) (s : Bool) (mode : RMode) : Nat :=
  let toInf := f.hasInf && (match mode with
    | .rne => true
    | .rtz => false
    | .rup => !s
    | .rdn => s
    | .sr => true)
  f.withSign s (if toInf then f.maxCode + 1 else f.maxCode)

/-- `encode` of R46: k × 2^t is exactly representable. -/
def Fp.encode (f : Fp) (s : Bool) (k : Nat) (t : Int) : Nat :=
  if k ≥ 2 ^ f.mBits then
    f.withSign s (((t + f.mBits + f.bias).toNat) <<< f.mBits + (k - 2 ^ f.mBits))
  else f.withSign s k

/-- `round` of R46, for m > 0: the code and the flags. -/
def Fp.round (f : Fp) (s : Bool) (m : Nat) (q : Int) (mode : RMode) (r : Nat) : Nat × Flags :=
  let l : Int := (Nat.log2 m : Int) + q
  let t : Int := max l f.emin - (f.p - 1 : Nat)
  let (_, mm, mq) := f.finite f.maxCode
  if t ≤ q then
    if dyadicGt m q mm mq then (f.overflowCode s mode, { overflow := true, inexact := true })
    else (f.encode s (m <<< (q - t).toNat) t, {})
  else
    let d := (t - q).toNat
    let k := m >>> d
    let rem := m - k <<< d
    let k := if roundUp mode s k rem d r then k + 1 else k
    let (k, t) := if k = 2 ^ f.p then (k / 2, t + 1) else (k, t)
    let inexact := rem != 0
    let under := decide (l < f.emin) && inexact
    if dyadicGt k t mm mq then (f.overflowCode s mode, { overflow := true, inexact := true })
    else (f.encode s k t, { inexact := inexact, underflow := under })

/-- `round_int` of R46: to an integer of `w` bits, two's complement, saturated. -/
def roundInt (w : Nat) (s : Bool) (m : Nat) (q : Int) (mode : RMode) (r : Nat) : Nat × Flags :=
  let (k, inexact) :=
    if q ≥ 0 then (m <<< q.toNat, false)
    else
      let d := (-q).toNat
      let k := m >>> d
      let rem := m - k <<< d
      (if roundUp mode s k rem d r then k + 1 else k, rem != 0)
  let lim := if s then 2 ^ (w - 1) else 2 ^ (w - 1) - 1
  if k > lim then (ofSigned w (if s then -(lim : Int) else lim), { overflow := true, inexact := true })
  else (ofSigned w (if s then -(k : Int) else k), { inexact := inexact })

/-- Width of an integer output format: INT8, INT4, INT32 (R35). -/
def intWidth : Nat → Option Nat
  | 0x0A => some 8
  | 0x0B => some 4
  | 0x0F => some 32
  | _ => none

/-- The cast of a value to format code `fmt` (R50, Table 02-9; the codes of R31 and R33). An invalid term is written
as a NaN with invalid set (Table 03-8, row 1). -/
def castVal (fmt : Nat) (v : Val) (mode : RMode) (r : Nat) : Nat × Flags :=
  match Fp.ofCode fmt with
  | some f =>
    match v with
    | .nan => (f.nanCode, Flags.ofNan)
    | .invalid => (f.nanCode, { invalid := true, nanIn := !f.hasNan })
    | .inf s => if f.hasInf then (f.withSign s (f.maxCode + 1), {})
                else (f.withSign s f.maxCode, Flags.ofOverflow)
    | .fin s m q => if m = 0 then (f.withSign s 0, {}) else f.round s m q mode r
  | none =>
    let w := (intWidth fmt).getD 8
    match v with
    | .nan => (2 ^ (w - 1) - 1, Flags.ofNan)
    | .invalid => (2 ^ (w - 1) - 1, { invalid := true, nanIn := true })
    | .inf s => (if s then 2 ^ (w - 1) else 2 ^ (w - 1) - 1, Flags.ofOverflow)
    | .fin s m q => if m = 0 then (0, {}) else roundInt w s m q mode r

/-- The integer value of a code of an integer format: INT8, INT4, INT32, UINT8, UINT4 (R35). -/
def intValue (fmt code : Nat) : Int :=
  match fmt with
  | 0x0C => (code % 256 : Nat)
  | 0x0D => (code % 16 : Nat)
  | 0x0A => toSigned 8 code
  | 0x0B => toSigned 4 code
  | _ => toSigned 32 code

/-- An integer as a value. -/
def Val.ofInt (i : Int) : Val := .fin (decide (i < 0)) i.natAbs 0

/-- i × 2^q as a value; zero is +0. -/
def Val.ofDyadic (i : Int) (q : Int) : Val := .fin (decide (i < 0)) i.natAbs q

/-- The signed integer that, times 2^q, is a finite value. -/
def signedMant (s : Bool) (m : Nat) : Int := if s then -(m : Int) else m

/-- Decode an element code of a format that is not an MX, LUT4 or SZP format (Table 02-1). -/
def decodeElem (fmt code : Nat) : Val :=
  match Fp.ofCode fmt with
  | some f => f.decode code
  | none => Val.ofInt (intValue fmt code)

/-- A value times 2^e. -/
def Val.scale (v : Val) (e : Int) : Val :=
  match v with
  | .fin s m q => .fin s m (q + e)
  | v => v

/-- MX formats (Table 02-1): the format code of the elements; MXINT8 elements are INT8. -/
def mxElem : Nat → Option Nat
  | 0x10 => some 0x04
  | 0x11 => some 0x05
  | 0x12 => some 0x07
  | 0x13 => some 0x08
  | 0x14 => some 0x09
  | 0x15 => some 0x0A
  | _ => none

/-- Is the format an MX format? -/
def isMx (fmt : Nat) : Bool := (mxElem fmt).isSome

/-- emax of R39. -/
def mxEmax : Nat → Int
  | 0x11 => 8
  | 0x10 => 15
  | 0x12 => 4
  | 0x13 => 2
  | 0x14 => 2
  | _ => 0

/-- Decode one element of an MX block with scale code X (R37). -/
def decodeMx (fmt code scale : Nat) : Val :=
  if scale % 256 = 0xFF then .nan
  else
    let e := (mxElem fmt).getD 0x0A
    let v := (decodeElem e code).scale ((scale % 256 : Nat) - 127)
    if fmt = 0x15 then v.scale (-6) else v

/-- floor(log2 |v|) of a finite non-zero value. -/
def Val.exponent : Val → Int
  | .fin _ m q => (Nat.log2 m : Int) + q
  | _ => 0

/-- The larger of two magnitudes, as finite values. -/
def Val.maxMag (a b : Val) : Val :=
  match a, b with
  | .fin _ m q, .fin _ m' q' => if dyadicGt m' q' m q then b else a
  | _, _ => a

/-- One element of a block, saturated (R39, step 5). -/
def encodeMxElem (fmt : Nat) (v : Val) (x : Int) (mode : RMode) (r : Nat) : Nat × Flags :=
  match v with
  | .fin s m q =>
    if fmt = 0x15 then
      if m = 0 then (0, {}) else
      let (c, fl) := roundInt 32 s m (q - x + 6) mode r
      let i := toSigned 32 c
      if i.natAbs > 127 then (ofSigned 8 (if s then -127 else 127), { overflow := true, inexact := true })
      else (ofSigned 8 i, fl)
    else
      let e := (mxElem fmt).getD 0x04
      match Fp.ofCode e with
      | none => (0, {})
      | some f =>
        if m = 0 then (f.withSign s 0, {})
        else
          let (c, fl) := f.round s m (q - x) mode r
          if fl.overflow then (f.withSign s f.maxCode, fl) else (c, fl)
  | _ => (0, {})

/-- The block encoder of R39: the scale code, the element codes and the flags. `rs` holds the elements'
stochastic-rounding words. DESIGN CHOICE (log 42): a NaN that an invalid operation made sets NaN-in here, as step 1 of R39 says
of every NaN of a block; R161 alone would give it for a NaN input only. -/
def encodeMxBlock (fmt : Nat) (vs : List Val) (mode : RMode) (rs : List Nat) : Nat × List Nat × Flags :=
  if vs.any (fun v => match v with | .nan => true | .invalid => true | _ => false) then
    (0xFF, vs.map fun _ => 0,
      { nanIn := true, invalid := vs.any (fun v => v == .invalid) })
  else if vs.any (fun v => match v with | .inf _ => true | _ => false) then
    (0xFF, vs.map fun _ => 0, Flags.ofOverflow)
  else
    let a := vs.foldl Val.maxMag Val.zero
    match a with
    | .fin _ 0 _ => (0x7F, vs.map fun _ => 0, {})
    | _ =>
      let x := max (-127) (min 127 (a.exponent - mxEmax fmt))
      let es := (vs.zip (rs ++ List.replicate vs.length 0)).map fun (v, r) => encodeMxElem fmt v x mode r
      ((x + 127).toNat, es.map Prod.fst, Flags.joinAll (es.map Prod.snd))

/-- SZP expansion of one weight (R41, R42): q − z and the scale. -/
def expandSzp (qz : Int) (s : Val) : Val :=
  match s with
  | .nan => .nan
  | .invalid => .invalid
  | .inf ss => if qz = 0 then .invalid else .inf (ss != decide (qz < 0))
  | .fin ss m q =>
    if m = 0 || qz = 0 then .fin ss 0 0
    else .fin (ss != decide (qz < 0)) (m * qz.natAbs) q

/-- Product classes (Table 02-1), in the order of R28. -/
inductive PClass where
  | s | w | l
  deriving DecidableEq, Repr

/-- The wider of two classes (R28). -/
def PClass.max : PClass → PClass → PClass
  | .l, _ => .l
  | _, .l => .l
  | .w, _ => .w
  | _, .w => .w
  | .s, .s => .s

/-- Bits of an element code of a format; LUT4 codes have 4, SZP codes the width of SZP_Q (R143). -/
def elemBits (fmt szpq : Nat) : Nat :=
  match fmt with
  | 0x00 => 64
  | 0x01 => 32
  | 0x02 => 16
  | 0x03 => 16
  | 0x04 => 8
  | 0x05 => 8
  | 0x06 => 8
  | 0x07 => 6
  | 0x08 => 6
  | 0x09 => 4
  | 0x0A => 8
  | 0x0B => 4
  | 0x0C => 8
  | 0x0D => 4
  | 0x0E => 8
  | 0x0F => 32
  | 0x10 => 8
  | 0x11 => 8
  | 0x12 => 6
  | 0x13 => 6
  | 0x14 => 4
  | 0x15 => 8
  | 0x18 => 4
  | 0x19 => if szpq ≥ 2 then 8 else 4
  | _ => 8

/-- Is the format code one of Table 02-1? -/
def fmtKnown (fmt : Nat) : Bool := decide (fmt ≤ 0x15) || fmt == 0x18 || fmt == 0x19

/-- May the format be the output of a drain or cast (Table 02-1; E8M0 only inside the MX encoder)? -/
def fmtOutput (fmt : Nat) : Bool := decide (fmt ≤ 0x0B) || fmt == 0x0F || (decide (0x10 ≤ fmt) && decide (fmt ≤ 0x15))

/-- Is the format a floating-point format without MX scales? -/
def fmtFloat (fmt : Nat) : Bool := decide (fmt ≤ 0x09)

/-- Product class of a matrix operand (Table 02-1); `aux` is the entry format of LUT4. An MX format is W outer. -/
def fmtClass (fmt aux : Nat) : PClass :=
  match fmt with
  | 0x00 => .l
  | 0x01 => .w
  | 0x02 => .w
  | 0x03 => .w
  | 0x19 => .w
  | 0x18 => if aux ≤ 3 then .w else .s
  | f => if isMx f then .w else .s

/-- May the format be a matrix operand (Table 02-1)? LUT4 and SZP only as the B operand (R144). -/
def fmtMatrix (fmt : Nat) (isB : Bool) : Bool :=
  decide (fmt ≤ 0x0B) || isMx fmt || (isB && (fmt == 0x18 || fmt == 0x19))

/-- Entry formats of LUT4 (R40). -/
def lutEntryOk (fmt : Nat) : Bool := fmt == 1 || fmt == 2 || fmt == 3 || fmt == 4 || fmt == 5

/-- Weight-code formats of SZP_Q (Table 06-2). -/
def szpCodeFmt : Nat → Nat
  | 0 => 0x0B
  | 1 => 0x0D
  | 2 => 0x0A
  | _ => 0x0C

end Sys2Proof.Machine
end

