-- ==== Sys2Proof/Machine/Arith.lean ====
section
/-! DEFINITION. Arithmetic on values: exact sums and products with the IEEE 754 special cases, the one-rounding
operations add32, sub32, mul32, div32, sqrt32, min32 (R90, R161, R222), and the correctly rounded elementary
functions exp32, tanh32, rcp32 and rsqrt32 (R162). -/

namespace Sys2Proof.Machine

/-- The exact product of two values: a NaN operand makes a NaN, as in IEEE 754, then 0 × inf is invalid; otherwise exact.
A product has one value; where it is a term of a tile slot, `Val.terms` gives all that Table 03-7 makes of it. -/
def Val.mul (a b : Val) : Val :=
  match a, b with
  | .nan, _ => .nan
  | _, .nan => .nan
  | .invalid, _ => .invalid
  | _, .invalid => .invalid
  | .inf s, .inf s' => .inf (s != s')
  | .inf s, .fin s' m _ => if m = 0 then .invalid else .inf (s != s')
  | .fin s m _, .inf s' => if m = 0 then .invalid else .inf (s != s')
  | .fin s m q, .fin s' m' q' => .fin (s != s') (m * m') (q + q')

/-- The terms that a product contributes (R69): a NaN operand times a weight that expansion made invalid is both a NaN and an
invalid term of Table 03-7, so it is two; every other product is one. -/
def Val.terms (a b : Val) : List Val :=
  match a, b with
  | .nan, .invalid => [.nan, .invalid]
  | .invalid, .nan => [.nan, .invalid]
  | a, b => [a.mul b]

/-- Negation; a NaN stays a NaN. -/
def Val.neg : Val → Val
  | .inf s => .inf (!s)
  | .fin s m q => .fin (!s) m q
  | v => v

/-- The exact sum of two values; `rdn` gives an exact zero of unlike signs the sign of round-down (IEEE 754). -/
def Val.add (rdn : Bool) (a b : Val) : Val :=
  match a, b with
  | .nan, _ => .nan
  | _, .nan => .nan
  | .invalid, _ => .invalid
  | _, .invalid => .invalid
  | .inf s, .inf s' => if s = s' then .inf s else .invalid
  | .inf s, .fin _ _ _ => .inf s
  | .fin _ _ _, .inf s => .inf s
  | .fin s m q, .fin s' m' q' =>
    let q0 := min q q'
    let x := signedMant s (m <<< (q - q0).toNat) + signedMant s' (m' <<< (q' - q0).toNat)
    if x = 0 then .fin (if s = s' then s else rdn) 0 q0
    else .ofDyadic x q0

/-- Signed mantissas of two finite values at the exponent they share. -/
def alignPair (s : Bool) (m : Nat) (q : Int) (s' : Bool) (m' : Nat) (q' : Int) : Int × Int :=
  let q0 := min q q'
  (signedMant s (m <<< (q - q0).toNat), signedMant s' (m' <<< (q' - q0).toNat))

/-- Is a < b? (false when either is a NaN or invalid) -/
def Val.lt (a b : Val) : Bool :=
  match a, b with
  | .inf s, .inf s' => s && !s'
  | .inf s, .fin _ _ _ => s
  | .fin _ _ _, .inf s => !s
  | .fin s m q, .fin s' m' q' => let (x, y) := alignPair s m q s' m' q'; decide (x < y)
  | _, _ => false

/-- Is the value a NaN (or an invalid term)? -/
def Val.isNan : Val → Bool
  | .nan => true
  | .invalid => true
  | _ => false

/-- Is the value a zero? -/
def Val.isZero : Val → Bool
  | .fin _ m _ => m == 0
  | _ => false

/-- The sign of a value. -/
def Val.sign : Val → Bool
  | .inf s => s
  | .fin s _ _ => s
  | _ => false

/-- |v|. -/
def Val.abs : Val → Val
  | .inf _ => .inf false
  | .fin _ m q => .fin false m q
  | v => v

/-- The larger (`mx`) or smaller of two values: a NaN if either is a NaN, +0 for the pair −0, +0 (R161). -/
def Val.maxMin (mx : Bool) (a b : Val) : Val :=
  if a.isNan || b.isNan then .nan
  else if a.isZero && b.isZero then .fin (a.sign && b.sign) 0 0
  else if mx then (if a.lt b then b else a) else (if b.lt a then b else a)

/-- Round the result of an operation to `fmt`; NaN-in only when `nanIn`, an invalid operation sets INVALID (R161). -/
def finishOp (fmt : Nat) (v : Val) (mode : RMode) (r : Nat) : Nat × Flags := castVal fmt v mode r

/-- The FP32 value of a code. -/
def f32 (code : Nat) : Val := Fp.fp32.decode code

/-- Round a value once to FP32 by RNE. -/
def rnd32 (v : Val) : Nat × Flags := castVal 0x01 v .rne 0

/-- Round a value once to FP64 by RNE. -/
def rnd64 (v : Val) : Nat × Flags := castVal 0x00 v .rne 0

/-- Drop NaN-in from the flags of an operation on NaN operands that IEEE 754 only propagates. -/
def Flags.noNan (f : Flags) : Flags := { f with nanIn := false }

/-- add32, on codes. -/
def add32 (a b : Nat) : Nat × Flags := rnd32 ((f32 a).add false (f32 b))
/-- sub32, on codes. -/
def sub32 (a b : Nat) : Nat × Flags := rnd32 ((f32 a).add false (f32 b).neg)
/-- mul32, on codes. -/
def mul32 (a b : Nat) : Nat × Flags := rnd32 ((f32 a).mul (f32 b))
/-- min32 (R222), on codes. -/
def min32 (a b : Nat) : Nat × Flags := rnd32 ((f32 a).maxMin false (f32 b))

/-- The integer square root, one bit of the result at a time from bit `n` down. -/
def isqrtAux (x : Nat) : Nat → Nat → Nat
  | 0, acc => acc
  | n + 1, acc =>
    let t := acc + 2 ^ n
    isqrtAux x n (if t * t ≤ x then t else acc)

/-- floor(√x). -/
def isqrt (x : Nat) : Nat := isqrtAux x (Nat.log2 x / 2 + 1) 0

/-- A positive rational num / den as a dyadic with a sticky last bit: enough bits that RNE to at most 64 bits of
significand, subnormal or not, gives the correctly rounded result. -/
def ratDyadic (num den : Nat) : Nat × Int :=
  let k := 1200 + Nat.log2 den
  let n := num <<< k
  (2 * (n / den) + (if n % den = 0 then 0 else 1), -(k : Int) - 1)

/-- √(num / den) as a dyadic with a sticky last bit. -/
def sqrtDyadic (num den : Nat) : Nat × Int :=
  let k := 1200 + Nat.log2 den
  let n := num <<< (2 * k)
  let t := n / den
  let r := isqrt t
  (2 * r + (if r * r = t && n % den = 0 then 0 else 1), -(k : Int) - 1)

/-- m × 2^q as a fraction. -/
def dyadicFrac (m : Nat) (q : Int) : Nat × Nat :=
  if q ≥ 0 then (m <<< q.toNat, 1) else (m, 2 ^ (-q).toNat)

/-- The exact quotient of two values as a value with sticky bit, IEEE 754 special cases. -/
def Val.div (a b : Val) : Val :=
  match a, b with
  | .nan, _ => .nan
  | _, .nan => .nan
  | .invalid, _ => .invalid
  | _, .invalid => .invalid
  | .inf _, .inf _ => .invalid
  | .inf s, .fin s' _ _ => .inf (s != s')
  | .fin s _ _, .inf s' => .fin (s != s') 0 0
  | .fin s m q, .fin s' m' q' =>
    if m' = 0 then (if m = 0 then .invalid else .inf (s != s'))
    else if m = 0 then .fin (s != s') 0 0
    else
      let (x, e) := ratDyadic m m'
      .fin (s != s') x (e + q - q')

/-- The square root of a value with sticky bit, IEEE 754 special cases. -/
def Val.sqrt (a : Val) : Val :=
  match a with
  | .nan => .nan
  | .invalid => .invalid
  | .inf s => if s then .invalid else .inf false
  | .fin s m q =>
    if m = 0 then .fin s 0 0
    else if s then .invalid
    else
      let (m, q) := if q % 2 = 0 then (m, q) else (2 * m, q - 1)
      let (x, e) := sqrtDyadic m 1
      .fin false x (e + q / 2)

/-- div32 (R222), on codes. -/
def div32 (a b : Nat) : Nat × Flags := rnd32 ((f32 a).div (f32 b))
/-- sqrt32 (R222), on codes. -/
def sqrt32 (a : Nat) : Nat × Flags := rnd32 (f32 a).sqrt
/-- rcp32 (R162): the correctly rounded 1/v. -/
def rcp32 (a : Nat) : Nat × Flags := div32 0x3F800000 a

/-- rsqrt32 (R162): the correctly rounded 1/√v. -/
def rsqrtVal (a : Val) : Val :=
  match a with
  | .nan => .nan
  | .invalid => .invalid
  | .inf s => if s then .invalid else .fin false 0 0
  | .fin s m q =>
    if m = 0 then .inf s
    else if s then .invalid
    else
      let (m, q) := if q % 2 = 0 then (m, q) else (2 * m, q - 1)
      let (x, e) := sqrtDyadic 1 m
      .fin false x (e - q / 2)

/-- rsqrt32, on codes. -/
def rsqrt32 (a : Nat) : Nat × Flags := rnd32 (rsqrtVal (f32 a))

/-- Fraction bits of the fixed-point intervals in which e^v is enclosed. -/
def expPrec : Nat := 320

/-- Lower and upper sums of the series of e^y, 0 ≤ y < 2^−8, at `expPrec` fraction bits: terms y^i / i!. -/
def expSeries (lo hi : Nat) : Nat → Nat → Nat → Nat → Nat → Nat → Nat × Nat
  | 0, _, _, _, sl, sh => (sl, sh + 1)
  | n + 1, i, tl, th, sl, sh =>
    let tl' := (tl * lo) >>> expPrec / i
    let th' := (th * hi) >>> expPrec / i + 1
    expSeries lo hi n (i + 1) tl' th' (sl + tl') (sh + th')

/-- Square an interval n times. -/
def sqTimes : Nat → Nat × Nat → Nat × Nat
  | 0, p => p
  | n + 1, (l, h) => sqTimes n ((l * l) >>> expPrec, (h * h) >>> expPrec + 1)

/-- An interval for e^y at `expPrec` fraction bits, y = m × 2^q ≥ 0 below 256: the argument is divided by 2^16, the
series summed to 40 terms, and the result squared 16 times. -/
def expInterval (m : Nat) (q : Int) : Nat × Nat :=
  let sh : Int := q + expPrec - 16
  let lo := if sh ≥ 0 then m <<< sh.toNat else m >>> (-sh).toNat
  let hi := if sh ≥ 0 then lo else lo + 1
  let one := 2 ^ expPrec
  let (sl, sh) := expSeries lo hi 40 1 one one one one
  sqTimes 16 (sl, sh)

/-- 1 / x of an interval. -/
def recipInterval (p : Nat × Nat) : Nat × Nat :=
  (2 ^ (2 * expPrec) / p.2, 2 ^ (2 * expPrec) / p.1 + 1)

/-- An interval (numerators over 2^expPrec) for a function value that is no dyadic number: the value with a sticky
bit below the interval's lower bound. The interval is far narrower than any FP32 rounding boundary it could
straddle. -/
def stickyLow (p : Nat × Nat) : Nat × Int := (2 * p.1 + 1, -(expPrec : Int) - 1)

/-- e^v, correctly rounded to FP32 by RNE when rounded once (R162). -/
def expVal (a : Val) : Val :=
  match a with
  | .nan => .nan
  | .invalid => .invalid
  | .inf s => if s then .fin false 0 0 else .inf false
  | .fin s m q =>
    if m = 0 then .fin false 1 0
    else if dyadicGt m q 1 7 then
      (if s then .fin false 1 (-400) else .fin false 1 400)
    else
      let p := expInterval m q
      let (x, e) := stickyLow (if s then recipInterval p else p)
      .fin false x e

/-- tanh v, correctly rounded to FP32 by RNE when rounded once (R162): (e^2v − 1) / (e^2v + 1). -/
def tanhVal (a : Val) : Val :=
  match a with
  | .nan => .nan
  | .invalid => .invalid
  | .inf s => .fin s 1 0
  | .fin s m q =>
    if m = 0 then .fin s 0 0
    else if dyadicGt m q 1 5 then .fin s (2 ^ 60 - 1) (-60)
    else
      let (l, _) := expInterval m (q + 1)
      let one := 2 ^ expPrec
      let lo := ((l - one) <<< expPrec) / (l + one)
      let (x, e) := stickyLow (lo, lo)
      .fin s x e

/-- exp32, on codes. -/
def exp32 (a : Nat) : Nat × Flags := rnd32 (expVal (f32 a))
/-- tanh32, on codes. -/
def tanh32 (a : Nat) : Nat × Flags := rnd32 (tanhVal (f32 a))

/-- Compose a step that answers a code and flags with one that follows it. -/
def andThenF (p : Nat × Flags) (k : Nat → Nat × Flags) : Nat × Flags :=
  let (c, fl) := k p.1
  (c, p.2.join fl)

/-- sig(v) of Table 06-14. -/
def sig32 (v : Nat) : Nat × Flags :=
  andThenF (exp32 (v ^^^ 0x80000000)) fun e => andThenF (add32 0x3F800000 e) rcp32

/-- The activations of Table 06-14 on FP32 codes; `func` 0 leaves the code. -/
def act32 (func v : Nat) : Nat × Flags :=
  match func with
  | 1 =>
    match f32 v with
    | .nan => (0x7FC00000, Flags.ofNan)
    | x => if Val.zero.lt x then (v, {}) else (0, {})
  | 2 =>
    andThenF (mul32 v v) fun v2 => andThenF (mul32 v v2) fun v3 => andThenF (mul32 0x3D372713 v3) fun c =>
    andThenF (add32 v c) fun w => andThenF (mul32 0x3F4C422A w) fun w => andThenF (tanh32 w) fun t =>
    andThenF (add32 0x3F800000 t) fun u => andThenF (mul32 0x3F000000 v) fun h => mul32 h u
  | 3 => andThenF (sig32 v) fun s => mul32 v s
  | 4 => sig32 v
  | 5 => tanh32 v
  | 6 => exp32 v
  | _ => (v, {})

/-- Elementary calls per element (s of Table 06-14). -/
def actCalls : Nat → Nat
  | 2 => 1
  | 3 => 2
  | 4 => 2
  | 5 => 1
  | 6 => 1
  | _ => 0

end Sys2Proof.Machine
end

