-- ==== Sys2Proof/Config.lean ====
section
/-! DEFINITION. What the manual leaves open: constants without a body, so that no proof can see what they are. -/

namespace Sys2Proof

/-- The n-th free value the machine draws: an output byte that the manual calls undefined (R66, R88, R136), and the
like. `M.free` counts the draws (log 3). -/
opaque Config.freeValue : Nat → Nat

/-- Cycles by which the counter of island `i` advances in the n-th idle step (R417; log 4). -/
opaque Config.tickCycles : Nat → Nat → Nat

/-- The fixed seed of the Practice controller (R96), 256 bits, from which shadow selection draws (R347; log 5). -/
opaque Config.practiceSeed : Nat

/-- Cycles per µs of the image-set clock of island `i` (R413, R417; log 20): the manual gives no figure for the transport and
the port controllers. -/
opaque Config.cyclesPerUs : Nat → Nat

/-- The stream from which a custom play draws on a record of opcode `op` that names none (R95, R174; log 50). -/
opaque Config.streamOf : Nat → Nat

/-- The count that a reserved COUNT code of a control word names (Table 07-2; log 47). -/
opaque Config.playCount : Nat → Nat

/-- What a datapath operation `op` of engine `e` makes of a half for which the manual states no value: the result format, the
source's format tag (0x20: none) and its bits (R174, R445; log 45). -/
opaque Config.castCode : Nat → Nat → Nat → Nat → Nat → Nat

/-- The node ID of a logical rank of the system, as the SYSTEM section of the image gives it (R365, R373; log 22): the manual
does not give the layout of that section. -/
opaque Config.nodeOfRank : Nat → Nat

/-- A dword of the configuration space as its ROM, the fuses and HST_STATUS give it, and the bits of it that a write reaches
(R378; log 24): what the manual does not give of it. -/
opaque Config.cfgRom : Nat → Nat → Nat
opaque Config.cfgMask : Nat → Nat

/-- Where the CXL DVSEC, the Register Locator DVSEC, the MSI-X and the Table Access DOE capability lie in the configuration space, and
the HDM Decoder capability in BAR0 (R301, R302; log 98). -/
opaque Config.dvsec : Nat
opaque Config.locator : Nat
opaque Config.msixCap : Nat
opaque Config.doeCap : Nat
opaque Config.hdmCap : Nat

/-- A dword of the component and device registers as the module gives it, and the bits of it that a write reaches (R301; log 98). -/
opaque Config.cxlRom : Nat → Nat
opaque Config.cxlMask : Nat → Nat

/-- The lines of a switch or capture area, or of the Practice far region, that the n-th draw writes: (line within the area, its 32 bytes as
a number) (R117, R348, R358; log 67). The manual does not give the layout inside these areas. -/
opaque Config.areaImage : Nat → List (Nat × Nat)

/-- What the SYSTEM section says (R375): node ID, logical rank, redundancy class, spare role, ranks of the system, and the
group records (group ID, the 32 bytes of the record, its member list's address, the member list's bytes). -/
structure SystemSec where
  node : Nat := 0
  rank : Nat := 0
  cls : Nat := 0
  spare : Bool := false
  ranks : Nat := 0
  groups : List (Nat × List Byte × Nat × List Byte) := []
  deriving DecidableEq, Repr, Inhabited

/-- What the POWER section says (R323, R324, R333): PJ_c by class; the weights w_k in pJ, of the energy units by class and then of
beats, NoC flits, far-store bursts and SerDes lanes (16 to 19); eta in thousandths; the leakage table (island, operating point, °C, pJ
in a window); and the points of the islands from 128 on. -/
structure PowerSec where
  pj : List Nat := []
  weights : List Nat := []
  eta : Nat := 906
  leak : List (Nat × Nat × Nat × Nat) := []
  points : List Nat := []
  deriving DecidableEq, Repr, Inhabited

/-- The SYSTEM and POWER sections as they are read (log 25): the manual does not give their layouts. -/
opaque Config.systemOf : List Byte → SystemSec
opaque Config.powerOf : List Byte → PowerSec

/-- The two signature checks of a slot, of the signed part and its signature (R376, R390; log 26): the keys in ROM and the
arithmetic of the two schemes are outside the manual. -/
opaque Config.rsaOk : List Byte → List Byte → Bool
opaque Config.slhOk : List Byte → List Byte → Bool

/-- Secrets and fixed contents of the security island (R392 to R394, R396; log 27): the unique device secret, the security ROM,
the certificate chains of slots 0 and 1, the RSA DeviceID certificate; the private keys that follow from a CDI; KEK and ICK
from a CAK and its CKN. -/
opaque Config.uds : List Byte
opaque Config.secRom : List Byte
opaque Config.certChain : Nat → List Byte
opaque Config.deviceIdCert : List Byte
opaque Config.keyPairs : List Byte → List Byte
opaque Config.mkaKek : List Byte → List Byte → List Byte
opaque Config.mkaIck : List Byte → List Byte → List Byte

end Sys2Proof
end

