-- ==== Sys2Proof/Machine/Rng.lean ====
section
/-! DEFINITION. The counter-based generator (R94, R95): the ChaCha20 block function of RFC 8439 on the input state of
Table 04-2; and the hash functions the manual uses, SHA-256, SHA-384 (FIPS 180-4) and CRC-32C (R384). -/

namespace Sys2Proof.Machine

/-- Rotate a 32-bit word left. -/
def rotl32 (x n : Nat) : Nat := (x <<< n) % 2 ^ 32 ||| x >>> (32 - n)
/-- Sum of 32-bit words. -/
def add32w (a b : Nat) : Nat := (a + b) % 2 ^ 32

/-- One quarter round on four of the sixteen words. -/
def quarter (st : List Nat) (a b c d : Nat) : List Nat :=
  let xa := st.getD a 0
  let xb := st.getD b 0
  let xc := st.getD c 0
  let xd := st.getD d 0
  let xa := add32w xa xb
  let xd := rotl32 (xd ^^^ xa) 16
  let xc := add32w xc xd
  let xb := rotl32 (xb ^^^ xc) 12
  let xa := add32w xa xb
  let xd := rotl32 (xd ^^^ xa) 8
  let xc := add32w xc xd
  let xb := rotl32 (xb ^^^ xc) 7
  (((st.set a xa).set b xb).set c xc).set d xd

/-- A column round and a diagonal round. -/
def doubleRound (st : List Nat) : List Nat :=
  [(0, 4, 8, 12), (1, 5, 9, 13), (2, 6, 10, 14), (3, 7, 11, 15),
   (0, 5, 10, 15), (1, 6, 11, 12), (2, 7, 8, 13), (3, 4, 9, 14)].foldl
    (fun s (a, b, c, d) => quarter s a b c d) st

/-- n double rounds. -/
def doubleRounds : Nat → List Nat → List Nat
  | 0, st => st
  | n + 1, st => doubleRounds n (doubleRound st)

/-- The input state of Table 04-2: seed as a 256-bit number (byte 0 lowest), block index, step, stream. -/
def rngInput (seed block stp stream : Nat) : List Nat :=
  [0x61707865, 0x3320646E, 0x79622D32, 0x6B206574,
   seed % 2 ^ 32, seed >>> 32 % 2 ^ 32, seed >>> 64 % 2 ^ 32, seed >>> 96 % 2 ^ 32,
   seed >>> 128 % 2 ^ 32, seed >>> 160 % 2 ^ 32, seed >>> 192 % 2 ^ 32, seed >>> 224 % 2 ^ 32,
   block % 2 ^ 32, block >>> 32 % 2 ^ 32, stp % 2 ^ 32,
   (stream % 2 ^ 24) * 256 + (stp >>> 32) % 256]

/-- The 16 output words of a block. -/
def rngBlock (seed block stp stream : Nat) : List Nat :=
  let i := rngInput seed block stp stream
  List.zipWith add32w i (doubleRounds 10 i)

/-- The word of element index e (R95): word e & 15 of block e >> 4. -/
def rngWord (seed stp stream e : Nat) : Nat := (rngBlock seed (trunc 64 e >>> 4) stp stream).getD (e % 16) 0

/-- Big-endian number of a list of bytes. -/
def beNat (l : List Byte) : Nat := l.foldl (fun a b => a * 256 + b.toNat) 0

/-- Little-endian number of a list of bytes (R9). -/
def leNat : List Byte → Nat
  | [] => 0
  | b :: l => b.toNat + 256 * leNat l

/-- The low n bytes of a number, little-endian (R9). -/
def leBytes : Nat → Nat → List Byte
  | 0, _ => []
  | n + 1, x => BitVec.ofNat 8 x :: leBytes n (x / 256)

/-- The low n bytes of a number, big-endian. -/
def beBytes (n x : Nat) : List Byte := (leBytes n x).reverse

/-- Words of w bytes, big-endian, from a list of bytes; n words. -/
def beWords (w : Nat) : Nat → List Byte → List Nat
  | 0, _ => []
  | n + 1, l => beNat (l.take w) :: beWords w n (l.drop w)

/-! ## SHA-256 and SHA-384 (R288, R392): one construction, at words of 32 or 64 bits -/

/-- The integer k-th root of x, below 2^n above r. -/
def rootBits (k x : Nat) : Nat → Nat → Nat
  | 0, r => r
  | n + 1, r => rootBits k x n (if (r + 2 ^ n) ^ k ≤ x then r + 2 ^ n else r)

/-- The first 80 primes. -/
def shaPrimes : List Nat :=
  (List.range' 2 408).filter fun n => [2, 3, 5, 7, 11, 13, 17, 19].all fun d => n == d || n % d != 0

/-- The first 64 bits of the fraction of the k-th root of a prime: what the constants of both functions are made of. -/
def rootFraction (k p : Nat) : Nat := rootBits k (p * 2 ^ (64 * k)) 69 0 % 2 ^ 64

/-- What tells the two functions apart: the width of a word, the number of rounds, and the amounts of their four mixing
functions, the last of each schedule triple a shift. -/
structure Sha where
  w : Nat
  rounds : Nat
  sched0 : Nat × Nat × Nat
  sched1 : Nat × Nat × Nat
  mixA : Nat × Nat × Nat
  mixE : Nat × Nat × Nat

/-- SHA-256. -/
def Sha.s256 : Sha := ⟨32, 64, (7, 18, 3), (17, 19, 10), (2, 13, 22), (6, 11, 25)⟩

/-- SHA-384, which is SHA-512 cut short. -/
def Sha.s512 : Sha := ⟨64, 80, (1, 8, 7), (19, 61, 6), (28, 34, 39), (14, 18, 41)⟩

/-- A word turned right by n. -/
def Sha.turn (k : Sha) (x n : Nat) : Nat := x >>> n ||| trunc k.w (x <<< (k.w - n))

/-- Two turns and a shift. -/
def Sha.spread (k : Sha) (r : Nat × Nat × Nat) (x : Nat) : Nat := k.turn x r.1 ^^^ k.turn x r.2.1 ^^^ x >>> r.2.2

/-- Three turns. -/
def Sha.mix (k : Sha) (r : Nat × Nat × Nat) (x : Nat) : Nat := k.turn x r.1 ^^^ k.turn x r.2.1 ^^^ k.turn x r.2.2

/-- n rounds: the eight registers, the sixteen words of the schedule that come next, and the round constants left. -/
def Sha.run (k : Sha) : Nat → List Nat → List Nat → List Nat → List Nat
  | 0, h, _, _ => h
  | n + 1, h, ws, ks =>
    let at' := fun i => h.getD i 0
    let word := fun i => ws.getD i 0
    let pick := (at' 4 &&& at' 5) ^^^ ((2 ^ k.w - 1 - at' 4) &&& at' 6)
    let most := (at' 0 &&& (at' 1 ||| at' 2)) ||| (at' 1 &&& at' 2)
    let x := at' 7 + k.mix k.mixE (at' 4) + pick + ks.headD 0 + word 0
    let fresh := word 0 + k.spread k.sched0 (word 1) + word 9 + k.spread k.sched1 (word 14)
    let h' := trunc k.w (x + k.mix k.mixA (at' 0) + most) :: at' 0 :: at' 1 :: at' 2 :: trunc k.w (at' 3 + x) :: (h.drop 4).take 3
    Sha.run k n h' (ws.drop 1 ++ [trunc k.w fresh]) (ks.drop 1)

/-- The first w bits of root fractions, for primes of the list. -/
def Sha.fractions (k : Sha) (root : Nat) (ps : List Nat) : List Nat := ps.map fun p => rootFraction root p >>> (64 - k.w)

/-- The blocks of a padded message, n of them, one after the other. -/
def Sha.blocks (k : Sha) (ks : List Nat) : Nat → List Nat → List Byte → List Nat
  | 0, h, _ => h
  | n + 1, h, m =>
    let h' := List.zipWith (fun a b => trunc k.w (a + b)) h (k.run k.rounds h (beWords (k.w / 8) 16 m) ks)
    Sha.blocks k ks n h' (m.drop (2 * k.w))

/-- The hash of a message from the registers' first values: the message, a one bit, zeros, and its length in bits in the last
two words of a block. -/
def Sha.hash (k : Sha) (start : List Nat) (m : List Byte) : List Byte :=
  let size := 2 * k.w
  let zeros := (2 * size - 1 - k.w / 4 - m.length % size) % size
  let whole := m ++ 0x80#8 :: List.replicate zeros 0#8 ++ beBytes (k.w / 4) (8 * m.length)
  (k.blocks (k.fractions 3 (shaPrimes.take k.rounds)) (whole.length / size) start whole).flatMap (beBytes (k.w / 8))

/-- SHA-256 of a message, 32 bytes: the registers begin with square roots of the first eight primes. -/
def sha256 (m : List Byte) : List Byte := Sha.s256.hash (Sha.s256.fractions 2 (shaPrimes.take 8)) m

/-- SHA-384 of a message, 48 bytes: the registers begin with square roots of the next eight. -/
def sha384 (m : List Byte) : List Byte := (Sha.s512.hash (Sha.s512.fractions 2 ((shaPrimes.drop 8).take 8)) m).take 48

/-- One bit of CRC-32C (reflected polynomial 0x82F63B78), n bits. -/
def crcBits : Nat → Nat → Nat
  | 0, c => c
  | n + 1, c => crcBits n (if c % 2 = 1 then c / 2 ^^^ 0x82F63B78 else c / 2)

/-- CRC-32C of a list of bytes (R384). -/
def crc32c (l : List Byte) : Nat :=
  (l.foldl (fun c b => crcBits 8 (c ^^^ b.toNat)) 0xFFFFFFFF) ^^^ 0xFFFFFFFF

end Sys2Proof.Machine
end

