-- ==== Sys2Proof/Machine/Code.lean ====
section
/-! DEFINITION. The 288/256 Reed–Solomon code (R200, R201) and its field GF(2^8). -/

namespace Sys2Proof.Machine

/-- Multiply by α = 0x02 modulo the field polynomial 0x11D. -/
def gfMulAlpha (x : Nat) : Nat := if x ≥ 128 then (2 * x) ^^^ 0x11D else 2 * x

/-- Multiply in GF(2^8), n bits of `b` from the least significant. -/
def gfMulAux : Nat → Nat → Nat → Nat
  | 0, _, _ => 0
  | n + 1, a, b => (if b % 2 = 1 then a else 0) ^^^ gfMulAux n (gfMulAlpha a) (b / 2)

/-- gf_mul of R201. -/
def gfMul (a b : Nat) : Nat := gfMulAux 8 (a % 256) (b % 256)

/-- α^n. -/
def gfPow : Nat → Nat
  | 0 => 1
  | n + 1 => gfMulAlpha (gfPow n)

/-- α^(n mod 255). -/
def gfAlpha (n : Nat) : Nat := gfPow (n % 255)

/-- gf_log of a non-zero element: the least i from `i` on with α^i = x, within n tries. -/
def gfLogAux (x : Nat) : Nat → Nat → Nat → Nat
  | 0, i, _ => i
  | n + 1, i, a => if a = x then i else gfLogAux x n (i + 1) (gfMulAlpha a)

/-- gf_log of R201: 0 to 254. -/
def gfLog (x : Nat) : Nat := gfLogAux x 255 0 1

/-- The inverse of a non-zero element. -/
def gfInv (x : Nat) : Nat := gfAlpha (255 - gfLog x)

/-- gf_div of R201. -/
def gfDiv (a b : Nat) : Nat := if a = 0 then 0 else gfMul a (gfInv b)

/-- One step of the division by g(x) = x^4 + 0x0F x^3 + 0x36 x^2 + 0x78 x + 0x40: shift in one symbol of m(x) × x^4.
The remainder is held with the coefficient of x^3 first. -/
def rsStep (r : Nat × Nat × Nat × Nat) (d : Nat) : Nat × Nat × Nat × Nat :=
  let (a, b, c, e) := r
  let f := a ^^^ d
  (b ^^^ gfMul f 0x0F, c ^^^ gfMul f 0x36, e ^^^ gfMul f 0x78, gfMul f 0x40)

/-- The four check symbols c0 to c3 of 32 data bytes (R200). -/
def rsCheck (data : List Nat) : List Nat :=
  let (a, b, c, d) := data.foldl rsStep (0, 0, 0, 0)
  [a, b, c, d]

/-- The remainder of x^254 modulo g(x), XORed into the check symbols of a poisoned line (R200): the check symbols of
the word with one symbol 0x01 at x^254. -/
def poisonMask : List Nat := rsCheck (1 :: List.replicate 250 0)

/-- The check symbols of a poisoned line. -/
def rsPoison (data : List Nat) : List Nat := List.zipWith (· ^^^ ·) (rsCheck data) poisonMask

/-- What a codeword decodes as (R201): a corrected symbol has its index (35 − p) and the data with it put right. -/
inductive LineState where
  | ok
  | poisoned
  | corrected (symbol : Nat) (err : Nat)
  | uncorrectable
  deriving DecidableEq, Repr

/-- Horner's rule at α^j over the 36 symbols: syndrome s[j] of R201. -/
def syndrome (cw : List Nat) (j : Nat) : Nat := cw.foldl (fun a c => gfMul a (gfAlpha j) ^^^ c) 0

/-- The four syndromes. -/
def syndromes (cw : List Nat) : List Nat := [syndrome cw 0, syndrome cw 1, syndrome cw 2, syndrome cw 3]

/-- The decoder of R201. -/
def rsDecode (cw : List Nat) : LineState :=
  match syndromes cw with
  | [s0, s1, s2, s3] =>
    if s0 = 0 ∧ s1 = 0 ∧ s2 = 0 ∧ s3 = 0 then .ok
    else if s0 = 0x01 ∧ s1 = 0x8E ∧ s2 = 0x47 ∧ s3 = 0xAD then .poisoned
    else if s0 ≠ 0 ∧ s1 ≠ 0 ∧ gfMul s1 s1 = gfMul s0 s2 ∧ gfMul s2 s2 = gfMul s1 s3 then
      let p := gfLog (gfDiv s1 s0)
      if p ≤ 35 then .corrected (35 - p) s0 else .uncorrectable
    else .uncorrectable
  | _ => .uncorrectable

/-- The codeword with the correction applied. -/
def rsRepair (cw : List Nat) : LineState → List Nat
  | .corrected i e => cw.set i (cw.getD i 0 ^^^ e)
  | _ => cw

end Sys2Proof.Machine
end

