-- ==== Sys2Proof/Machine/Regs.lean ====
section
/-! DEFINITION. The registers: their register-space offsets (R424), access codes (R10), writable bits (R12), and the
value an unwritten register holds. A register's key in `M.regs` is its register-space offset. The counters and the
trace registers of a core position follow the position and not the logical core (R410): their keys lie above the
register space, at 0x1000_0000 + 0x1_0000 × position + the offset in the per-core block. -/

namespace Sys2Proof.Machine

/-- Access codes of Table 00-4. -/
inductive Acc where
  | ro | rw | wo | w1c | rc | il
  deriving DecidableEq, Repr

/-- A register family: base + s1 × i + s2 × j, with i < n1 and j < n2; its size in bytes, access code, writable bits,
and value at reset. -/
structure RegRow where
  base : Nat
  s1 : Nat
  n1 : Nat
  s2 : Nat
  n2 : Nat
  size : Nat
  acc : Acc
  mask : Nat
  dflt : Nat
  deriving DecidableEq, Repr

/-- Does the row hold the byte offset? Answers the offset of the register. -/
def RegRow.find (r : RegRow) (off : Nat) : Option Nat :=
  if off < r.base then none
  else
    let d := off - r.base
    let i := d / r.s1
    let j := d % r.s1 / r.s2
    if i < r.n1 ∧ j < r.n2 ∧ d % r.s1 % r.s2 < r.size then some (r.base + r.s1 * i + r.s2 * j) else none

/-! ## Management registers -/

/-- MGT_READY_MAP (R386). -/
def Reg.mgtReadyMap : Nat := 0
/-- MGT_SELFTEST_FAIL (R386). -/
def Reg.mgtSelftestFail : Nat := 0x10
/-- MGT_BOOT_STATUS (R386). -/
def Reg.mgtBootStatus : Nat := 0x20
/-- MGT_IMAGE_SEQ (R386). -/
def Reg.mgtImageSeq : Nat := 0x24
/-- MGT_GRADE (R386). -/
def Reg.mgtGrade : Nat := 0x28
/-- MGT_EVAL_CORES (R386). -/
def Reg.mgtEvalCores : Nat := 0x30
/-- MGT_FLASH_CMD (R385). -/
def Reg.mgtFlashCmd : Nat := 0x40
/-- MGT_FLASH_SRC (R386). -/
def Reg.mgtFlashSrc : Nat := 0x48
/-- MGT_FLASH_STATUS (R386). -/
def Reg.mgtFlashStatus : Nat := 0x50
/-- MGT_READY_STAMP_n (R386). -/
def Reg.mgtReadyStamp (i : Nat) : Nat := 0x800 + 8 * i
/-- MGT_CORE_MAP_n (R115). -/
def Reg.mgtCoreMap (i : Nat) : Nat := 0x10000 + 4 * i
/-- MGT_SLICE_MAP_s (R115). -/
def Reg.mgtSliceMap (i : Nat) : Nat := 0x10400 + 4 * i
/-- MGT_POS_STATE_i (R116). -/
def Reg.mgtPosState (i : Nat) : Nat := 0x10600 + 4 * i
/-- MGT_MAP_GEN (R115). -/
def Reg.mgtMapGen : Nat := 0x10800
/-- MGT_BENCH_COUNT (R115). -/
def Reg.mgtBenchCount : Nat := 0x10808
/-- MGT_DOUBLE_CTL (R115). -/
def Reg.mgtDoubleCtl : Nat := 0x10810

/-- The rows of the management registers. -/
def Reg.mgtRows : List RegRow :=
  [⟨0, 0x100000000, 1, 0x100000000, 1, 16, .ro, 0, 0⟩,
   ⟨0x10, 0x100000000, 1, 0x100000000, 1, 16, .ro, 0, 0⟩,
   ⟨0x20, 0x100000000, 1, 0x100000000, 1, 4, .ro, 0, 0⟩,
   ⟨0x24, 0x100000000, 1, 0x100000000, 1, 4, .ro, 0, 0⟩,
   ⟨0x28, 0x100000000, 1, 0x100000000, 1, 4, .ro, 0, 0⟩,
   ⟨0x30, 0x100000000, 1, 0x100000000, 1, 16, .ro, 0, 0⟩,
   ⟨0x40, 0x100000000, 1, 0x100000000, 1, 8, .wo, 0, 0⟩,
   ⟨0x48, 0x100000000, 1, 0x100000000, 1, 8, .rw, 0x3ffffffffff, 0⟩,
   ⟨0x50, 0x100000000, 1, 0x100000000, 1, 4, .ro, 0, 0⟩,
   ⟨0x800, 8, 128, 0x100000000, 1, 8, .ro, 0, 0⟩] ++
  [⟨0x10000, 4, 256, 0x100000000, 1, 4, .ro, 0, 0⟩,
   ⟨0x10400, 4, 128, 0x100000000, 1, 4, .ro, 0, 0⟩,
   ⟨0x10600, 4, 128, 0x100000000, 1, 4, .ro, 0, 0⟩,
   ⟨0x10800, 0x100000000, 1, 0x100000000, 1, 4, .ro, 0, 0⟩,
   ⟨0x10808, 0x100000000, 1, 0x100000000, 1, 4, .ro, 0, 0x404⟩,
   ⟨0x10810, 0x100000000, 1, 0x100000000, 1, 4, .il, 0xffff01, 0x4001⟩]

/-! ## Host registers -/

/-- HST_CTL (R321). -/
def Reg.hstCtl : Nat := 0x100000
/-- HST_STATUS (R321). -/
def Reg.hstStatus : Nat := 0x100004
/-- HST_IL_REJECTS (R318). -/
def Reg.hstIlRejects : Nat := 0x100008
/-- HST_PUSH_DROPS (R315). -/
def Reg.hstPushDrops : Nat := 0x100010
/-- HST_EARLY_ACCESS (R321). -/
def Reg.hstEarlyAccess : Nat := 0x100018
/-- HST_CMPL_HELD (R321). -/
def Reg.hstCmplHeld : Nat := 0x100020
/-- HST_Q_BASE_q (R321). -/
def Reg.hstQBase (i : Nat) : Nat := 0x101000 + 0x40 * i
/-- HST_Q_CMPL_q (R321). -/
def Reg.hstQCmpl (i : Nat) : Nat := 0x101008 + 0x40 * i
/-- HST_Q_CTL_q (R321). -/
def Reg.hstQCtl (i : Nat) : Nat := 0x101010 + 0x40 * i
/-- HST_Q_DOORBELL_q (R321). -/
def Reg.hstQDoorbell (i : Nat) : Nat := 0x101014 + 0x40 * i
/-- HST_Q_WR_q (R321). -/
def Reg.hstQWr (i : Nat) : Nat := 0x101018 + 0x40 * i
/-- HST_Q_FETCHED_q (R321). -/
def Reg.hstQFetched (i : Nat) : Nat := 0x10101c + 0x40 * i
/-- HST_Q_DONE_q (R321). -/
def Reg.hstQDone (i : Nat) : Nat := 0x101020 + 0x40 * i
/-- HST_Q_STATE_q (R321). -/
def Reg.hstQState (i : Nat) : Nat := 0x101024 + 0x40 * i
/-- HST_Q_ABORT_q (R321). -/
def Reg.hstQAbort (i : Nat) : Nat := 0x101028 + 0x40 * i
/-- HST_Q_ABORTRESULT_q (R321). -/
def Reg.hstQAbortResult (i : Nat) : Nat := 0x10102c + 0x40 * i
/-- HST_Q_RESET_q (R321). -/
def Reg.hstQReset (i : Nat) : Nat := 0x101030 + 0x40 * i

/-- The rows of the host registers. -/
def Reg.hstRows : List RegRow :=
  [⟨0x100000, 0x100000000, 1, 0x100000000, 1, 4, .il, 0xffffffff, 0x3e807d0⟩,
   ⟨0x100004, 0x100000000, 1, 0x100000000, 1, 4, .ro, 0, 0⟩,
   ⟨0x100008, 0x100000000, 1, 0x100000000, 1, 8, .rc, 0, 0⟩,
   ⟨0x100010, 0x100000000, 1, 0x100000000, 1, 8, .rc, 0, 0⟩,
   ⟨0x100018, 0x100000000, 1, 0x100000000, 1, 8, .rc, 0, 0⟩,
   ⟨0x100020, 0x100000000, 1, 0x100000000, 1, 4, .ro, 0, 0⟩,
   ⟨0x101000, 0x40, 64, 0x100000000, 1, 8, .rw, 0xfffffffffffff000, 0⟩,
   ⟨0x101008, 0x40, 64, 0x100000000, 1, 8, .rw, 0xfffffffffffff000, 0⟩,
   ⟨0x101010, 0x40, 64, 0x100000000, 1, 4, .rw, 0xe01fffff, 0⟩,
   ⟨0x101014, 0x40, 64, 0x100000000, 1, 4, .wo, 0, 0⟩] ++
  [⟨0x101018, 0x40, 64, 0x100000000, 1, 4, .ro, 0, 0⟩,
   ⟨0x10101c, 0x40, 64, 0x100000000, 1, 4, .ro, 0, 0⟩,
   ⟨0x101020, 0x40, 64, 0x100000000, 1, 4, .ro, 0, 0⟩,
   ⟨0x101024, 0x40, 64, 0x100000000, 1, 4, .ro, 0, 0⟩,
   ⟨0x101028, 0x40, 64, 0x100000000, 1, 4, .wo, 0, 0⟩,
   ⟨0x10102c, 0x40, 64, 0x100000000, 1, 4, .ro, 0, 0⟩,
   ⟨0x101030, 0x40, 64, 0x100000000, 1, 4, .wo, 0, 0⟩]

/-! ## Security registers -/

/-- SEC_STATUS (R406). -/
def Reg.secStatus : Nat := 0x200000
/-- SEC_POLICY (R406). -/
def Reg.secPolicy : Nat := 0x200004
/-- SEC_ROLLBACK (R406). -/
def Reg.secRollback : Nat := 0x200008
/-- SEC_SESSIONS (R406). -/
def Reg.secSessions : Nat := 0x20000c
/-- SEC_TRNG_ALARMS (R406). -/
def Reg.secTrngAlarms : Nat := 0x200010
/-- SEC_ZEROISE_COUNT (R406). -/
def Reg.secZeroiseCount : Nat := 0x200018
/-- SEC_DEVICEID_HASH (R406). -/
def Reg.secDeviceidHash : Nat := 0x200040

/-- The rows of the security registers. -/
def Reg.secRows : List RegRow :=
  [⟨0x200000, 0x100000000, 1, 0x100000000, 1, 4, .ro, 0, 0⟩,
   ⟨0x200004, 0x100000000, 1, 0x100000000, 1, 4, .ro, 0, 0⟩,
   ⟨0x200008, 0x100000000, 1, 0x100000000, 1, 4, .ro, 0, 0⟩,
   ⟨0x20000c, 0x100000000, 1, 0x100000000, 1, 4, .ro, 0, 0⟩,
   ⟨0x200010, 0x100000000, 1, 0x100000000, 1, 8, .rc, 0, 0⟩,
   ⟨0x200018, 0x100000000, 1, 0x100000000, 1, 4, .ro, 0, 0⟩,
   ⟨0x200040, 0x100000000, 1, 0x100000000, 1, 48, .ro, 0, 0⟩]

/-! ## Power registers -/

/-- PWR_CTL (R342). -/
def Reg.pwrCtl : Nat := 0x210000
/-- PWR_CAP_W (R342). -/
def Reg.pwrCapW : Nat := 0x210004
/-- PWR_STATUS (R342). -/
def Reg.pwrStatus : Nat := 0x210008
/-- PWR_POWER (R342). -/
def Reg.pwrPower : Nat := 0x21000c
/-- PWR_GAIN (R342). -/
def Reg.pwrGain : Nat := 0x210010
/-- PWR_TEMP (R342). -/
def Reg.pwrTemp : Nat := 0x210014
/-- PWR_HEADROOM (R342). -/
def Reg.pwrHeadroom : Nat := 0x210018
/-- PWR_THROTTLE_MS (R342). -/
def Reg.pwrThrottleMs : Nat := 0x210020
/-- PWR_MISMATCH_MS (R342). -/
def Reg.pwrMismatchMs : Nat := 0x210028
/-- PWR_PHASE_OP_p (R342). -/
def Reg.pwrPhaseOp (i : Nat) : Nat := 0x210100 + 4 * i
/-- PWR_POS_OP_i (R342). -/
def Reg.pwrPosOp (i : Nat) : Nat := 0x210200 + 4 * i
/-- PWR_BALANCE_c (R342). -/
def Reg.pwrBalance (i : Nat) : Nat := 0x210400 + 8 * i
/-- PWR_CLASS_PJ_k (R342). -/
def Reg.pwrClassPj (i : Nat) : Nat := 0x210900 + 4 * i
/-- PWR_TRIM_i (R342). -/
def Reg.pwrTrim (i : Nat) : Nat := 0x210a00 + 4 * i

/-- The rows of the power registers. -/
def Reg.pwrRows : List RegRow :=
  [⟨0x210000, 0x100000000, 1, 0x100000000, 1, 4, .il, 0xff01, 0x5a01⟩,
   ⟨0x210004, 0x100000000, 1, 0x100000000, 1, 4, .il, 0x7ff, 0x640⟩,
   ⟨0x210008, 0x100000000, 1, 0x100000000, 1, 4, .ro, 0, 0⟩,
   ⟨0x21000c, 0x100000000, 1, 0x100000000, 1, 4, .ro, 0, 0⟩,
   ⟨0x210010, 0x100000000, 1, 0x100000000, 1, 4, .ro, 0, 0x1000⟩,
   ⟨0x210014, 0x100000000, 1, 0x100000000, 1, 4, .ro, 0, 0⟩,
   ⟨0x210018, 0x100000000, 1, 0x100000000, 1, 4, .ro, 0, 0⟩,
   ⟨0x210020, 0x100000000, 1, 0x100000000, 1, 8, .rc, 0, 0⟩,
   ⟨0x210028, 0x100000000, 1, 0x100000000, 1, 8, .rc, 0, 0⟩,
   ⟨0x210100, 4, 8, 0x100000000, 1, 4, .il, 7, 1⟩] ++
  [⟨0x210200, 4, 128, 0x100000000, 1, 4, .ro, 0, 0x11⟩,
   ⟨0x210400, 8, 152, 0x100000000, 1, 8, .ro, 0, 0⟩,
   ⟨0x210900, 4, 16, 0x100000000, 1, 4, .ro, 0, 0⟩,
   ⟨0x210a00, 4, 179, 0x100000000, 1, 4, .ro, 0, 0⟩]

/-! ## Checking registers -/

/-- CHK_CTL (R368). -/
def Reg.chkCtl : Nat := 0x220000
/-- CHK_SHADOW (R368). -/
def Reg.chkShadow : Nat := 0x220004
/-- CHK_PRACTICE (R368). -/
def Reg.chkPractice : Nat := 0x220008
/-- CHK_REDUNDANCY (R368). -/
def Reg.chkRedundancy : Nat := 0x22000c
/-- CHK_STATUS (R368). -/
def Reg.chkStatus : Nat := 0x220010
/-- CHK_OPENS (R368). -/
def Reg.chkOpens : Nat := 0x220018
/-- CHK_SELECTED (R368). -/
def Reg.chkSelected : Nat := 0x220020
/-- CHK_MISSED (R368). -/
def Reg.chkMissed : Nat := 0x220028
/-- CHK_DECISIONS (R368). -/
def Reg.chkDecisions : Nat := 0x220030
/-- CHK_SDC (R368). -/
def Reg.chkSdc : Nat := 0x220038
/-- CHK_LOG_BASE (R368). -/
def Reg.chkLogBase : Nat := 0x220040
/-- CHK_LOG_WR (R362). -/
def Reg.chkLogWr : Nat := 0x220048
/-- CHK_LOG_LOST (R362). -/
def Reg.chkLogLost : Nat := 0x22004c
/-- CHK_NOTICE_BASE (R368). -/
def Reg.chkNoticeBase : Nat := 0x220050
/-- CHK_NOTICES_IN (R353). -/
def Reg.chkNoticesIn : Nat := 0x220058
/-- CHK_SAVE_BASE (R368). -/
def Reg.chkSaveBase : Nat := 0x220060
/-- CHK_SAVE_LEN (R368). -/
def Reg.chkSaveLen : Nat := 0x220068
/-- CHK_PARITY_BASE (R368). -/
def Reg.chkParityBase : Nat := 0x220070
/-- CHK_PARITY_GO (R366). -/
def Reg.chkParityGo : Nat := 0x220078
/-- CHK_PARITY_STATE (R366). -/
def Reg.chkParityState : Nat := 0x220080
/-- CHK_PRACTICE_BASE (R368). -/
def Reg.chkPracticeBase : Nat := 0x220088
/-- CHK_POS_i (R368). -/
def Reg.chkPos (i : Nat) : Nat := 0x220100 + 4 * i

/-- The rows of the checking registers. -/
def Reg.chkRows : List RegRow :=
  [⟨0x220000, 0x100000000, 1, 0x100000000, 1, 4, .il, 0xffff0003, 1⟩,
   ⟨0x220004, 0x100000000, 1, 0x100000000, 1, 4, .il, 7, 2⟩,
   ⟨0x220008, 0x100000000, 1, 0x100000000, 1, 4, .il, 0x80ffffff, 0x80000f32⟩,
   ⟨0x22000c, 0x100000000, 1, 0x100000000, 1, 4, .il, 7, 1⟩,
   ⟨0x220010, 0x100000000, 1, 0x100000000, 1, 4, .ro, 0, 0⟩,
   ⟨0x220018, 0x100000000, 1, 0x100000000, 1, 8, .rc, 0, 0⟩,
   ⟨0x220020, 0x100000000, 1, 0x100000000, 1, 8, .rc, 0, 0⟩,
   ⟨0x220028, 0x100000000, 1, 0x100000000, 1, 8, .rc, 0, 0⟩,
   ⟨0x220030, 0x100000000, 1, 0x100000000, 1, 8, .rc, 0, 0⟩,
   ⟨0x220038, 0x100000000, 1, 0x100000000, 1, 8, .rc, 0, 0⟩] ++
  [⟨0x220040, 0x100000000, 1, 0x100000000, 1, 8, .il, 0x3ffffffffff, 0⟩,
   ⟨0x220048, 0x100000000, 1, 0x100000000, 1, 4, .ro, 0, 0⟩,
   ⟨0x22004c, 0x100000000, 1, 0x100000000, 1, 4, .rc, 0, 0⟩,
   ⟨0x220050, 0x100000000, 1, 0x100000000, 1, 8, .il, 0x3ffffffffff, 0⟩,
   ⟨0x220058, 0x100000000, 1, 0x100000000, 1, 8, .rc, 0, 0⟩,
   ⟨0x220060, 0x100000000, 1, 0x100000000, 1, 8, .il, 0x3ffffffffff, 0⟩,
   ⟨0x220068, 0x100000000, 1, 0x100000000, 1, 8, .il, 0xffffffffff, 0⟩,
   ⟨0x220070, 0x100000000, 1, 0x100000000, 1, 8, .il, 0x3ffffffffff, 0⟩,
   ⟨0x220078, 0x100000000, 1, 0x100000000, 1, 8, .wo, 0, 0⟩,
   ⟨0x220080, 0x100000000, 1, 0x100000000, 1, 8, .ro, 0, 0⟩] ++
  [⟨0x220088, 0x100000000, 1, 0x100000000, 1, 8, .il, 0x3ffffffffff, 0⟩,
   ⟨0x220100, 4, 128, 0x100000000, 1, 4, .ro, 0, 0⟩]

/-! ## Memory registers -/

/-- MEM_CTL (R212). -/
def Reg.memCtl : Nat := 0x230000
/-- MEM_SCRUB_PERIOD (R212). -/
def Reg.memScrubPeriod : Nat := 0x230004
/-- MEM_CeCount (R212). -/
def Reg.memCeCount : Nat := 0x230010
/-- MEM_UeCount (R212). -/
def Reg.memUeCount : Nat := 0x230018
/-- MEM_PoisonReads (R212). -/
def Reg.memPoisonReads : Nat := 0x230020
/-- MEM_SCRUB_PASSES (R212). -/
def Reg.memScrubPasses : Nat := 0x230028
/-- MEM_LAST_ERR (R212). -/
def Reg.memLastErr : Nat := 0x230030
/-- MEM_INJECT (R213). -/
def Reg.memInject : Nat := 0x230040
/-- MEM_SET_STATE_s (R212). -/
def Reg.memSetState (i : Nat) : Nat := 0x230100 + 4 * i

/-- The rows of the memory registers. -/
def Reg.memRows : List RegRow :=
  [⟨0x230000, 0x100000000, 1, 0x100000000, 1, 4, .il, 7, 2⟩,
   ⟨0x230004, 0x100000000, 1, 0x100000000, 1, 4, .il, 0xffffffff, 0x18003c⟩,
   ⟨0x230010, 0x100000000, 1, 0x100000000, 1, 8, .rc, 0, 0⟩,
   ⟨0x230018, 0x100000000, 1, 0x100000000, 1, 8, .rc, 0, 0⟩,
   ⟨0x230020, 0x100000000, 1, 0x100000000, 1, 8, .rc, 0, 0⟩,
   ⟨0x230028, 0x100000000, 1, 0x100000000, 1, 8, .ro, 0, 0⟩,
   ⟨0x230030, 0x100000000, 1, 0x100000000, 1, 16, .ro, 0, 0⟩,
   ⟨0x230040, 0x100000000, 1, 0x100000000, 1, 8, .wo, 0, 0⟩,
   ⟨0x230100, 4, 8, 0x100000000, 1, 4, .ro, 0, 0⟩]

/-! ## Update registers -/

/-- UPD_CTL (R244). -/
def Reg.updCtl : Nat := 0x240000
/-- UPD_Nonfinite (R244). -/
def Reg.updNonfinite : Nat := 0x240008
/-- UPD_Failed (R244). -/
def Reg.updFailed : Nat := 0x240010
/-- UPD_PoisonElems (R244). -/
def Reg.updPoisonElems : Nat := 0x240018
/-- UPD_VGROUP_n (R244). -/
def Reg.updVgroup (i : Nat) : Nat := 0x240100 + 4 * i
/-- UPD_VERDICT_n (R244). -/
def Reg.updVerdict (i : Nat) : Nat := 0x240200 + 8 * i

/-- The rows of the update registers. -/
def Reg.updRows : List RegRow :=
  [⟨0x240000, 0x100000000, 1, 0x100000000, 1, 4, .il, 0xffff, 0x7d0⟩,
   ⟨0x240008, 0x100000000, 1, 0x100000000, 1, 8, .rc, 0, 0⟩,
   ⟨0x240010, 0x100000000, 1, 0x100000000, 1, 8, .rc, 0, 0⟩,
   ⟨0x240018, 0x100000000, 1, 0x100000000, 1, 8, .rc, 0, 0⟩,
   ⟨0x240100, 4, 64, 0x100000000, 1, 4, .il, 0x8000ffff, 0⟩,
   ⟨0x240200, 8, 64, 0x100000000, 1, 8, .ro, 0, 0⟩]

/-! ## Transport registers -/

/-- TRN_CTL (R273). -/
def Reg.trnCtl : Nat := 0x250000
/-- TRN_NODE (R273). -/
def Reg.trnNode : Nat := 0x250004
/-- TRN_EPOCH (R257). -/
def Reg.trnEpoch : Nat := 0x250008
/-- TRN_IID (R273). -/
def Reg.trnIid : Nat := 0x25000c
/-- TRN_PATH_MASK (R273). -/
def Reg.trnPathMask : Nat := 0x250010
/-- TRN_SPILL_BASE (R273). -/
def Reg.trnSpillBase : Nat := 0x250018
/-- TRN_TIMING (R273). -/
def Reg.trnTiming : Nat := 0x250020
/-- TRN_RATE (R273). -/
def Reg.trnRate : Nat := 0x250024
/-- TRN_TAKEOVER (R271). -/
def Reg.trnTakeover : Nat := 0x250030
/-- TRN_TAKEOVER_STATE (R271). -/
def Reg.trnTakeoverState : Nat := 0x250034
/-- TRN_CTX_STATE (R273). -/
def Reg.trnCtxState : Nat := 0x250040
/-- TRN_CtxMisses (R273). -/
def Reg.trnCtxMisses : Nat := 0x250048
/-- TRN_CtxStalls (R273). -/
def Reg.trnCtxStalls : Nat := 0x250050
/-- TRN_Retx (R273). -/
def Reg.trnRetx : Nat := 0x250058
/-- TRN_Drops (R273). -/
def Reg.trnDrops : Nat := 0x250060
/-- TRN_RWIN_r (R273). -/
def Reg.trnRwin (i : Nat) : Nat := 0x250100 + 8 * i

/-- The rows of the transport registers. -/
def Reg.trnRows : List RegRow :=
  [⟨0x250000, 0x100000000, 1, 0x100000000, 1, 4, .il, 0xfffff, 0x8b9a9⟩,
   ⟨0x250004, 0x100000000, 1, 0x100000000, 1, 4, .ro, 0, 0⟩,
   ⟨0x250008, 0x100000000, 1, 0x100000000, 1, 4, .ro, 0, 1⟩,
   ⟨0x25000c, 0x100000000, 1, 0x100000000, 1, 4, .il, 0xffffffff, 0⟩,
   ⟨0x250010, 0x100000000, 1, 0x100000000, 1, 8, .il, 0xffffffffffffffff, 0xffff⟩,
   ⟨0x250018, 0x100000000, 1, 0x100000000, 1, 8, .il, 0x3ffffffffff, 0⟩,
   ⟨0x250020, 0x100000000, 1, 0x100000000, 1, 4, .il, 0xffffffff, 0x7d03204⟩,
   ⟨0x250024, 0x100000000, 1, 0x100000000, 1, 4, .il, 0xfffff, 0x807d0⟩,
   ⟨0x250030, 0x100000000, 1, 0x100000000, 1, 4, .wo, 0, 0⟩,
   ⟨0x250034, 0x100000000, 1, 0x100000000, 1, 4, .ro, 0, 0⟩] ++
  [⟨0x250040, 0x100000000, 1, 0x100000000, 1, 4, .ro, 0, 0⟩,
   ⟨0x250048, 0x100000000, 1, 0x100000000, 1, 8, .rc, 0, 0⟩,
   ⟨0x250050, 0x100000000, 1, 0x100000000, 1, 8, .rc, 0, 0⟩,
   ⟨0x250058, 0x100000000, 1, 0x100000000, 1, 8, .rc, 0, 0⟩,
   ⟨0x250060, 0x100000000, 1, 0x100000000, 1, 8, .rc, 0, 0⟩,
   ⟨0x250100, 8, 8, 0x100000000, 1, 8, .il, 0xfffffffffffff000, 0⟩]

/-! ## Relay registers -/

/-- RLY_CTL (R296). -/
def Reg.rlyCtl : Nat := 0x260000
/-- RLY_GROUP_BASE (R296). -/
def Reg.rlyGroupBase : Nat := 0x260008
/-- RLY_CQ_DOORBELL (R283). -/
def Reg.rlyCqDoorbellReg : Nat := 0x260010
/-- RLY_GCACHE_FLUSH (R274). -/
def Reg.rlyGcacheFlushReg : Nat := 0x260018
/-- RLY_Mismatch (R296). -/
def Reg.rlyMismatch : Nat := 0x260020
/-- RLY_Timeout (R296). -/
def Reg.rlyTimeout : Nat := 0x260028
/-- RLY_Aborts (R296). -/
def Reg.rlyAborts : Nat := 0x260030
/-- RLY_CapDrops (R296). -/
def Reg.rlyCapDrops : Nat := 0x260038
/-- RLY_LAST_MISMATCH (R296). -/
def Reg.rlyLastMismatch : Nat := 0x260040
/-- RLY_STAGE_BASE_e (R296). -/
def Reg.rlyStageBase (i : Nat) : Nat := 0x260100 + 0x40 * i
/-- RLY_STAGE_SIZE_e (R296). -/
def Reg.rlyStageSize (i : Nat) : Nat := 0x260108 + 0x40 * i
/-- RLY_ENG_STATE_e (R296). -/
def Reg.rlyEngState (i : Nat) : Nat := 0x26010c + 0x40 * i
/-- RLY_GCACHE_MISS_e (R296). -/
def Reg.rlyGcacheMiss (i : Nat) : Nat := 0x260110 + 0x40 * i
/-- RLY_VACC_n (R292). -/
def Reg.rlyVacc (i : Nat) : Nat := 0x260400 + 8 * i

/-- The rows of the relay registers. -/
def Reg.rlyRows : List RegRow :=
  [⟨0x260000, 0x100000000, 1, 0x100000000, 1, 4, .il, 0xffff, 0x7d0⟩,
   ⟨0x260008, 0x100000000, 1, 0x100000000, 1, 8, .il, 0x3ffffffffff, 0⟩,
   ⟨0x260010, 0x100000000, 1, 0x100000000, 1, 8, .wo, 0, 0⟩,
   ⟨0x260018, 0x100000000, 1, 0x100000000, 1, 4, .wo, 0, 0⟩,
   ⟨0x260020, 0x100000000, 1, 0x100000000, 1, 8, .rc, 0, 0⟩,
   ⟨0x260028, 0x100000000, 1, 0x100000000, 1, 8, .rc, 0, 0⟩,
   ⟨0x260030, 0x100000000, 1, 0x100000000, 1, 8, .rc, 0, 0⟩,
   ⟨0x260038, 0x100000000, 1, 0x100000000, 1, 8, .rc, 0, 0⟩,
   ⟨0x260040, 0x100000000, 1, 0x100000000, 1, 16, .ro, 0, 0⟩,
   ⟨0x260100, 0x40, 4, 0x100000000, 1, 8, .il, 0x3ffffffffff, 0⟩] ++
  [⟨0x260108, 0x40, 4, 0x100000000, 1, 4, .il, 0xffffffff, 0x40⟩,
   ⟨0x26010c, 0x40, 4, 0x100000000, 1, 4, .ro, 0, 0⟩,
   ⟨0x260110, 0x40, 4, 0x100000000, 1, 8, .rc, 0, 0⟩,
   ⟨0x260400, 8, 64, 0x100000000, 1, 8, .ro, 0, 0⟩]

/-! ## Ethernet registers -/

/-- ETH_MODE (R273). -/
def Reg.ethMode : Nat := 0x280000
/-- ETH_PortCtl_n (R273). -/
def Reg.ethPortCtl (i : Nat) : Nat := 0x281000 + 0x40 * i
/-- ETH_PortStatus_n (R273). -/
def Reg.ethPortStatus (i : Nat) : Nat := 0x281004 + 0x40 * i
/-- ETH_PortPrefix_n (R273). -/
def Reg.ethPortPrefix (i : Nat) : Nat := 0x281008 + 0x40 * i
/-- ETH_PortNexthop_n (R273). -/
def Reg.ethPortNexthop (i : Nat) : Nat := 0x281010 + 0x40 * i
/-- ETH_FecUncorr_n (R273). -/
def Reg.ethFecUncorr (i : Nat) : Nat := 0x281018 + 0x40 * i
/-- ETH_RxDrop_n (R273). -/
def Reg.ethRxDrop (i : Nat) : Nat := 0x281020 + 0x40 * i

/-- The rows of the ethernet registers. -/
def Reg.ethRows : List RegRow :=
  [⟨0x280000, 0x100000000, 1, 0x100000000, 1, 4, .il, 0xffffff07, 0⟩,
   ⟨0x281000, 0x40, 64, 0x100000000, 1, 4, .il, 0xfffffc00, 0x90017800⟩,
   ⟨0x281004, 0x40, 64, 0x100000000, 1, 4, .ro, 0, 0⟩,
   ⟨0x281008, 0x40, 64, 0x100000000, 1, 8, .il, 0xffffffffffffffff, 0⟩,
   ⟨0x281010, 0x40, 64, 0x100000000, 1, 8, .il, 0xffffffffffff, 0⟩,
   ⟨0x281018, 0x40, 64, 0x100000000, 1, 8, .rc, 0, 0⟩,
   ⟨0x281020, 0x40, 64, 0x100000000, 1, 8, .rc, 0, 0⟩]

/-! ## Counter registers -/

/-- CNT_SCD_CTL (R415). -/
def Reg.cntScdCtl : Nat := 0x300000
/-- CNT_SCD_PERIOD (R419). -/
def Reg.cntScdPeriod : Nat := 0x300004
/-- CNT_SCD_BASE (R419). -/
def Reg.cntScdBase : Nat := 0x300008
/-- CNT_SCD_MASK_POS (R419). -/
def Reg.cntScdMaskPos : Nat := 0x300010
/-- CNT_SCD_MASK_IO (R419). -/
def Reg.cntScdMaskIo : Nat := 0x300020
/-- CNT_SCD_DONE (R416). -/
def Reg.cntScdDone : Nat := 0x300024
/-- CNT_SCD_MISSED (R414). -/
def Reg.cntScdMissed : Nat := 0x300028
/-- CNT_E_n_c (R419). -/
def Reg.cntE (i j : Nat) : Nat := 0x310000 + 0x1000 * i + 8 * j
/-- CNT_E_SEL_n_c (R419). -/
def Reg.cntESel (i j : Nat) : Nat := 0x310200 + 0x1000 * i + 4 * j
/-- CNT_E_OVF_n (R419). -/
def Reg.cntEOvf (i : Nat) : Nat := 0x310300 + 0x1000 * i
/-- CNT_BW_CTL_n (R413). -/
def Reg.cntBwCtl (i : Nat) : Nat := 0x310310 + 0x1000 * i
/-- CNT_BW_n (R413). -/
def Reg.cntBw (i : Nat) : Nat := 0x310320 + 0x1000 * i
/-- CNT_R_e_c (R419). -/
def Reg.cntR (i j : Nat) : Nat := 0x320000 + 0x1000 * i + 8 * j
/-- CNT_R_SEL_e_c (R419). -/
def Reg.cntRSel (i j : Nat) : Nat := 0x320200 + 0x1000 * i + 4 * j
/-- CNT_R_OVF_e (R419). -/
def Reg.cntROvf (i : Nat) : Nat := 0x320300 + 0x1000 * i

/-- The rows of the counter registers. -/
def Reg.cntRows : List RegRow :=
  [⟨0x300000, 0x100000000, 1, 0x100000000, 1, 4, .rw, 0x8000001f, 0⟩,
   ⟨0x300004, 0x100000000, 1, 0x100000000, 1, 4, .rw, 0xfffff, 0x3e8⟩,
   ⟨0x300008, 0x100000000, 1, 0x100000000, 1, 8, .rw, 0x3ffffffffff, 0⟩,
   ⟨0x300010, 0x100000000, 1, 0x100000000, 1, 16, .rw, 0xffffffffffffffffffffffffffffffff, 0⟩,
   ⟨0x300020, 0x100000000, 1, 0x100000000, 1, 4, .rw, 0xfffff, 0⟩,
   ⟨0x300024, 0x100000000, 1, 0x100000000, 1, 4, .ro, 0, 0xffffffff⟩,
   ⟨0x300028, 0x100000000, 1, 0x100000000, 1, 8, .rc, 0, 0⟩,
   ⟨0x310000, 0x1000, 16, 8, 64, 8, .rw, 0xffffffffffffffff, 0⟩,
   ⟨0x310200, 0x1000, 16, 4, 64, 4, .rw, 0xdc0003ff, 0⟩,
   ⟨0x310300, 0x1000, 16, 0x100000000, 1, 8, .w1c, 0xffffffffffffffff, 0⟩] ++
  [⟨0x310310, 0x1000, 16, 0x100000000, 1, 4, .rw, 0xc00fffff, 0x3e8⟩,
   ⟨0x310320, 0x1000, 16, 0x100000000, 1, 16, .ro, 0, 0⟩,
   ⟨0x320000, 0x1000, 4, 8, 64, 8, .rw, 0xffffffffffffffff, 0⟩,
   ⟨0x320200, 0x1000, 4, 4, 64, 4, .rw, 0xc00003ff, 0⟩,
   ⟨0x320300, 0x1000, 4, 0x100000000, 1, 8, .w1c, 0xffffffffffffffff, 0⟩]

/-! ## Per-core registers -/

/-- CORE_ID (R126), computed from the core map. -/
def Reg.coreId (i : Nat) : Nat := 0x1000000 + 0x10000 * i
/-- CORE_STEP (R98). -/
def Reg.coreStep (i : Nat) : Nat := 0x1000008 + 0x10000 * i
/-- CORE_PHASE (R134). -/
def Reg.corePhase (i : Nat) : Nat := 0x1000010 + 0x10000 * i
/-- CORE_STATUS (R126). -/
def Reg.coreStatus (i : Nat) : Nat := 0x1000018 + 0x10000 * i
/-- CORE_RING_BASE (R126). -/
def Reg.coreRingBase (i j : Nat) : Nat := 0x1000100 + 0x10000 * i + 0x80 * j
/-- CORE_RING_SIZE (R126). -/
def Reg.coreRingSize (i j : Nat) : Nat := 0x1000108 + 0x10000 * i + 0x80 * j
/-- CORE_RING_CTL (R126). -/
def Reg.coreRingCtl (i j : Nat) : Nat := 0x100010c + 0x10000 * i + 0x80 * j
/-- CORE_RING_WR (R126). -/
def Reg.coreRingWr (i j : Nat) : Nat := 0x1000110 + 0x10000 * i + 0x80 * j
/-- CORE_RING_RD (R126). -/
def Reg.coreRingRd (i j : Nat) : Nat := 0x1000114 + 0x10000 * i + 0x80 * j
/-- CORE_RING_RET (R126). -/
def Reg.coreRingRet (i j : Nat) : Nat := 0x1000118 + 0x10000 * i + 0x80 * j
/-- CORE_RING_STATE (R126). -/
def Reg.coreRingState (i j : Nat) : Nat := 0x100011c + 0x10000 * i + 0x80 * j
/-- CORE_RING_PUSH (R126). -/
def Reg.coreRingPush (i j : Nat) : Nat := 0x1000120 + 0x10000 * i + 0x80 * j
/-- CORE_RING_RESET (R126). -/
def Reg.coreRingReset (i j : Nat) : Nat := 0x1000140 + 0x10000 * i + 0x80 * j
/-- CORE_RING_ABORT (R126). -/
def Reg.coreRingAbort (i j : Nat) : Nat := 0x1000148 + 0x10000 * i + 0x80 * j
/-- CORE_RING_ABORTRESULT (R126). -/
def Reg.coreRingAbortResult (i j : Nat) : Nat := 0x1000150 + 0x10000 * i + 0x80 * j
/-- CORE_RING_HALTINDEX (R126). -/
def Reg.coreRingHaltIndex (i j : Nat) : Nat := 0x1000154 + 0x10000 * i + 0x80 * j
/-- CORE_PASS_COUNT_i (R128). -/
def Reg.corePassCount (i j : Nat) : Nat := 0x1001000 + 0x10000 * i + 4 * j
/-- CORE_PASS_THROW (R131). -/
def Reg.corePassThrow (i : Nat) : Nat := 0x1001400 + 0x10000 * i
/-- CORE_PLAY_SYNC (R181). -/
def Reg.corePlaySyncReg (i : Nat) : Nat := 0x1002000 + 0x10000 * i
/-- CORE_PLAY_LIB (R183). -/
def Reg.corePlayLib (i : Nat) : Nat := 0x1002008 + 0x10000 * i
/-- CORE_PLAY_STATE_e (R183). -/
def Reg.corePlayState (i j : Nat) : Nat := 0x1002010 + 0x10000 * i + 4 * j
/-- CORE_HAZARD_COUNT_e (R186). -/
def Reg.coreHazardCount (i j : Nat) : Nat := 0x1002100 + 0x10000 * i + 0x40 * j
/-- CORE_HAZARD_FIRST_e (R186). -/
def Reg.coreHazardFirst (i j : Nat) : Nat := 0x1002110 + 0x10000 * i + 0x40 * j
/-- CORE_JOB_LOSS_SCALE (R245). -/
def Reg.coreJobLossScale (i : Nat) : Nat := 0x1003000 + 0x10000 * i
/-- CORE_JOB_FINITE_RUN (R245). -/
def Reg.coreJobFiniteRun (i : Nat) : Nat := 0x1003004 + 0x10000 * i
/-- CORE_JOB_SKIP_COUNT (R245). -/
def Reg.coreJobSkipCount (i : Nat) : Nat := 0x1003008 + 0x10000 * i
/-- CORE_JOB_BIAS_CORR (R245). -/
def Reg.coreJobBiasCorr (i : Nat) : Nat := 0x100300c + 0x10000 * i

/-- The rows of the per-core registers. -/
def Reg.coreRows : List RegRow :=
  [⟨0x1000000, 0x10000, 256, 0x100000000, 1, 4, .ro, 0, 0⟩,
   ⟨0x1000008, 0x10000, 256, 0x100000000, 1, 8, .ro, 0, 0⟩,
   ⟨0x1000010, 0x10000, 256, 0x100000000, 1, 4, .ro, 0, 0⟩,
   ⟨0x1000018, 0x10000, 256, 0x100000000, 1, 4, .w1c, 3, 0⟩,
   ⟨0x1000100, 0x10000, 256, 0x80, 4, 8, .rw, 0xffffffffffffffff, 0⟩,
   ⟨0x1000108, 0x10000, 256, 0x80, 4, 4, .rw, 0xffffffff, 0x400⟩,
   ⟨0x100010c, 0x10000, 256, 0x80, 4, 4, .rw, 1, 0⟩,
   ⟨0x1000110, 0x10000, 256, 0x80, 4, 4, .ro, 0, 0⟩,
   ⟨0x1000114, 0x10000, 256, 0x80, 4, 4, .ro, 0, 0⟩,
   ⟨0x1000118, 0x10000, 256, 0x80, 4, 4, .ro, 0, 0⟩] ++
  [⟨0x100011c, 0x10000, 256, 0x80, 4, 4, .w1c, 0x8000000, 0⟩,
   ⟨0x1000120, 0x10000, 256, 0x80, 4, 32, .wo, 0, 0⟩,
   ⟨0x1000140, 0x10000, 256, 0x80, 4, 4, .wo, 0, 0⟩,
   ⟨0x1000148, 0x10000, 256, 0x80, 4, 8, .wo, 0, 0⟩,
   ⟨0x1000150, 0x10000, 256, 0x80, 4, 4, .ro, 0, 0⟩,
   ⟨0x1000154, 0x10000, 256, 0x80, 4, 4, .ro, 0, 0⟩,
   ⟨0x1001000, 0x10000, 256, 4, 256, 4, .rw, 0xffff, 0⟩,
   ⟨0x1001400, 0x10000, 256, 0x100000000, 1, 4, .wo, 0, 0⟩,
   ⟨0x1002000, 0x10000, 256, 0x100000000, 1, 4, .wo, 0, 0⟩,
   ⟨0x1002008, 0x10000, 256, 0x100000000, 1, 4, .ro, 0, 0⟩] ++
  [⟨0x1002010, 0x10000, 256, 4, 4, 4, .ro, 0, 0⟩,
   ⟨0x1002100, 0x10000, 256, 0x40, 4, 4, .rc, 0, 0⟩,
   ⟨0x1002110, 0x10000, 256, 0x40, 4, 16, .ro, 0, 0⟩,
   ⟨0x1003000, 0x10000, 256, 0x100000000, 1, 4, .ro, 0, 0x47800000⟩,
   ⟨0x1003004, 0x10000, 256, 0x100000000, 1, 4, .ro, 0, 0⟩,
   ⟨0x1003008, 0x10000, 256, 0x100000000, 1, 4, .ro, 0, 0⟩,
   ⟨0x100300c, 0x10000, 256, 0x100000000, 1, 4, .ro, 0, 0⟩]

/-! ## Position-owned registers -/

/-- CORE_CNT_c, kept by position (R410). -/
def Reg.posCnt (i j : Nat) : Nat := 0x10004000 + 0x10000 * i + 8 * j
/-- CORE_CNT_SEL_c, kept by position (R410). -/
def Reg.posCntSel (i j : Nat) : Nat := 0x10004200 + 0x10000 * i + 4 * j
/-- CORE_CNT_OVF, kept by position (R410). -/
def Reg.posCntOvf (i : Nat) : Nat := 0x10004300 + 0x10000 * i
/-- CORE_CNT_CTL, kept by position (R410). -/
def Reg.posCntCtl (i : Nat) : Nat := 0x10004308 + 0x10000 * i
/-- CORE_TRACE_CTL, kept by position (R418). -/
def Reg.posTraceCtl (i : Nat) : Nat := 0x10004310 + 0x10000 * i
/-- CORE_TRACE_WR, kept by position (R418). -/
def Reg.posTraceWr (i : Nat) : Nat := 0x10004314 + 0x10000 * i
/-- Words of the trace buffer (R418). -/
def Reg.posTraceBuf (i j : Nat) : Nat := 0x10008000 + 0x10000 * i + 8 * j
/-- Retirements of engine e since tracing was enabled (R418); shown nowhere. -/
def Reg.posTraceN (i j : Nat) : Nat := 0x10005200 + 0x10000 * i + 4 * j
/-- Last multiple of N that the traced counter has crossed (R418); shown nowhere. -/
def Reg.posTraceLast (i : Nat) : Nat := 0x10005210 + 0x10000 * i
/-- Logical core whose block wrote the select of counter c (R410); shown nowhere. -/
def Reg.posCntOwner (i j : Nat) : Nat := 0x10005000 + 0x10000 * i + 4 * j
/-- SEL_GEN of the position (Table 17-4), and in bit 32 the RESET flag; shown in scorecards. -/
def Reg.posSelGen (i : Nat) : Nat := 0x10005100 + 0x10000 * i

/-- The rows of the position-owned registers. -/
def Reg.posRows : List RegRow :=
  [⟨0x10004000, 0x10000, 128, 8, 40, 8, .rw, 0xffffffffffffffff, 0⟩,
   ⟨0x10004200, 0x10000, 128, 4, 40, 4, .rw, 0xe00003ff, 0⟩,
   ⟨0x10004300, 0x10000, 128, 0x100000000, 1, 8, .w1c, 0xffffffffff, 0⟩,
   ⟨0x10004308, 0x10000, 128, 0x100000000, 1, 4, .rw, 1, 0⟩,
   ⟨0x10004310, 0x10000, 128, 0x100000000, 1, 4, .rw, 0xffffffff, 0⟩,
   ⟨0x10004314, 0x10000, 128, 0x100000000, 1, 4, .ro, 0, 0⟩,
   ⟨0x10008000, 0x10000, 128, 8, 2048, 8, .ro, 0, 0⟩,
   ⟨0x10005200, 0x10000, 128, 4, 4, 4, .ro, 0, 0⟩,
   ⟨0x10005210, 0x10000, 128, 0x100000000, 1, 8, .ro, 0, 0⟩,
   ⟨0x10005000, 0x10000, 128, 4, 40, 4, .ro, 0, 0⟩] ++
  [⟨0x10005100, 0x10000, 128, 0x100000000, 1, 4, .ro, 0, 0⟩]

/-- All rows of a block, by the block's place in Table 18-3; reserved offsets have none. -/
def Reg.rowsAt (off : Nat) : List RegRow :=
  if off < 0x100000 then Reg.mgtRows
  else if off < 0x200000 then Reg.hstRows
  else if off < 0x210000 then Reg.secRows
  else if off < 0x220000 then Reg.pwrRows
  else if off < 0x230000 then Reg.chkRows
  else if off < 0x240000 then Reg.memRows
  else if off < 0x250000 then Reg.updRows
  else if off < 0x260000 then Reg.trnRows
  else if off < 0x270000 then Reg.rlyRows
  else if off < 0x280000 then []
  else if off < 0x290000 then Reg.ethRows
  else if off < 0x300000 then []
  else if off < 0x1000000 then Reg.cntRows
  else if off < 0x2000000 then Reg.coreRows
  else if off < 0x10000000 then []
  else Reg.posRows

/-- First row of a list that holds the offset, with the register's own offset. -/
def Reg.findIn (off : Nat) : List RegRow → Option (RegRow × Nat)
  | [] => none
  | r :: rs =>
    match r.find off with
    | some b => some (r, b)
    | none => Reg.findIn off rs

/-- The register at a byte offset, and its row. -/
def Reg.find (off : Nat) : Option (RegRow × Nat) := Reg.findIn off (Reg.rowsAt off)

/-- MGT_CORE_MAP_n of a full-grade part with no faulty position (R113): VALID, no partner, die and position. -/
def Reg.coreMapDflt (n : Nat) : Nat :=
  if n < 120 then 0x80FF0000 + 64 * (n / 60) + n % 60 else 0x00FF0000

/-- MGT_SLICE_MAP_s of such a part: home slices of the logical cores, then the remaining positions in rising order. -/
def Reg.sliceMapDflt (s : Nat) : Nat :=
  if s < 120 then 64 * (s / 60) + s % 60 else 64 * ((s - 120) / 4) + 60 + (s - 120) % 4

/-- MGT_POS_STATE_i of such a part: 60 ACTIVE positions a die, and 4 BENCH. -/
def Reg.posStateDflt (i : Nat) : Nat :=
  if i % 64 < 60 then 60 * (i / 64) + i % 64 else 0x1FF

/-- PWR_CLASS_PJ_k of Table 13-2; class 15 is charged at another class's figure and reads 0 (R324). -/
def Reg.classPjDflt (k : Nat) : Nat :=
  [20, 450, 1600, 3330, 3450, 3100, 2500, 2700, 1300, 900, 350, 520, 480, 600, 20].getD k 0

/-- SEL_GEN of a port controller or Relay engine, by island index (Table 17-4); shown in scorecards only, so its key
lies above the register space. -/
def Reg.ioSelGen (island : Nat) : Nat := 0x12000000 + 4 * island

/-- Bytes 8 to 15 of CNT_BW_n as a read of bytes 0 to 7 latched them, and bit 64 once it has (R413); and the number of the
next scorecard (R415). No register shows either. -/
def Reg.cntBwLatch (n : Nat) : Nat := 0x12001000 + 16 * n
def Reg.cntScdSeq : Nat := 0x12002000

/-- What a register that nothing has written holds. -/
def Reg.dflt (off : Nat) : Nat :=
  if 0x10000 ≤ off ∧ off < 0x10400 then Reg.coreMapDflt ((off - 0x10000) / 4)
  else if 0x10400 ≤ off ∧ off < 0x10600 then Reg.sliceMapDflt ((off - 0x10400) / 4)
  else if 0x10600 ≤ off ∧ off < 0x10800 then Reg.posStateDflt ((off - 0x10600) / 4)
  else if 0x210900 ≤ off ∧ off < 0x210940 then Reg.classPjDflt ((off - 0x210900) / 4)
  else
    match Reg.find off with
    | some (r, _) => r.dflt
    | none => 0

end Sys2Proof.Machine
end

