-- ==== Sys2Proof/Machine/Tab.lean ====
section
/-! DEFINITION. A sparse table from natural numbers: the canonical form in which memory, registers and every other
numbered store of the machine are held. Keys rise strictly, and no entry equals what an unlisted key reads as, so equal
tables are equal lists. -/

namespace Sys2Proof.Machine

/-- Entries (key, value), in rising key order. -/
abbrev Tab (α : Type) := List (Nat × α)

/-- The value at a key; `d k` where nothing is listed. -/
def Tab.read {α : Type} (d : Nat → α) : Tab α → Nat → α
  | [], k => d k
  | (j, v) :: t, k => if k = j then v else Tab.read d t k

/-- Write a value at a key. Writing what an unlisted key reads as removes the entry. -/
def Tab.put {α : Type} [DecidableEq α] (d : Nat → α) : Tab α → Nat → α → Tab α
  | [], k, v => if v = d k then [] else [(k, v)]
  | (j, u) :: t, k, v =>
    if k < j then (if v = d k then (j, u) :: t else (k, v) :: (j, u) :: t)
    else if k = j then (if v = d k then t else (k, v) :: t)
    else (j, u) :: Tab.put d t k v

/-- The canonical form, all keys being at least `lo`. -/
def Tab.wfFrom {α : Type} [DecidableEq α] (d : Nat → α) : Nat → Tab α → Bool
  | _, [] => true
  | lo, (j, v) :: t => decide (lo ≤ j) && decide (v ≠ d j) && Tab.wfFrom d (j + 1) t

/-- The canonical form. -/
def Tab.wf {α : Type} [DecidableEq α] (d : Nat → α) (t : Tab α) : Bool := Tab.wfFrom d 0 t

/-- Keys of the entries. -/
def Tab.keys {α : Type} (t : Tab α) : List Nat := t.map Prod.fst

end Sys2Proof.Machine
end

