-- ==== Sys2Proof/Machine/State.lean ====
section
/-! DEFINITION. The state of the A9 module, as plain data; the reasons a step can stop; and the state after reset. -/

namespace Sys2Proof.Machine

/-! ## Logical cores: slots, rings, plays -/

/-- Class of a tile slot: the classes of R56, and A7 (R106). -/
inductive SlotClass where
  | s | w | l | a7
  deriving DecidableEq, Repr

/-- The side state of Table 03-7. -/
structure Side where
  nan : Bool := false
  invalid : Bool := false
  pinf : Bool := false
  ninf : Bool := false
  negzero : Bool := false
  anyterm : Bool := false
  deriving DecidableEq, Repr

/-- One element of a slot: the window as one signed value (R68), additions since the last resolve, the touched bit
(R65), side state (R69), first invalid term (R70), running residue ρ (R345); for an A7 slot the FP32 register, and
the flags it has gathered (R107, R108). `far` is the model's own: what its band contributions add up to, by which a record
that software has overwritten is known, so that its drained value is free (R66; log 54). -/
structure Elem where
  win : Int := 0
  adds : Nat := 0
  touched : Bool := false
  far : Int := 0
  side : Side := {}
  firstInv : Option (Nat × Nat × Nat) := none
  rho : Nat := 0
  a7 : Option Nat := none
  flags : Nat := 0
  deriving DecidableEq, Repr

/-- States of a slot (R79). -/
inductive SlotState where
  | empty | opened | draining
  deriving DecidableEq, Repr

/-- A tile slot (R79): class, window, far band store base, extent, placement in the output tensor (R155), the mark of
R81, the elements in row order, the position its shadow runs on, and the bytes captured for it (R349, R350). -/
structure Slot where
  state : SlotState := .empty
  cls : SlotClass := .s
  w : Nat := 0
  fbs : Nat := 0
  m : Nat := 0
  n : Nat := 0
  row0 : Nat := 0
  col0 : Nat := 0
  poisoned : Bool := false
  elems : List Elem := []
  shadow : Option Nat := none
  captured : Nat := 0
  deriving DecidableEq, Repr

/-- What an UPDATE latches and how far it has come (R223, R229, R232): LOSS_SCALE and t; whether it waits for its
verdict, and whether its layers are released; the verdict (1 finite, 2 non-finite); the pass, layer and element that its
units take next; and its affected elements (R238). -/
structure Upd where
  ls : Nat := 0
  t : Nat := 0
  waiting : Bool := false
  released : Bool := false
  verdict : Nat := 0
  pass : Nat := 0
  layer : Nat := 0
  elem : Nat := 0
  affected : Nat := 0
  deriving DecidableEq, Repr

/-- A macro-op that has passed its arbitration point and has not retired (R125). -/
structure InFlight where
  /-- record number -/
  x : Nat
  /-- the four words of the record (R141) -/
  w0 : Nat
  w1 : Nat
  w2 : Nat
  w3 : Nat
  /-- the copies of what decode read (R147), as numbers: the tensor descriptors, the accumulation, update or collective
  descriptor, the layer entries, and the tensor descriptors that a collective descriptor names -/
  descs : List Nat := []
  od : Nat := 0
  ls : List Nat := []
  aux : List Nat := []
  /-- ready bits that it needs (R381) -/
  needs : List Nat := []
  /-- step latched (R98); the step register at its issue, which its shadow draws with (R96) -/
  step : Nat := 0
  now : Nat := 0
  /-- its work has begun, and is done -/
  started : Bool := false
  done : Bool := false
  /-- an abort reached it (R136) -/
  aborted : Bool := false
  /-- a strict hazard stopped it (R170) -/
  hazard : Bool := false
  /-- a poisoned line was read, or a write was discarded (R205, R206) -/
  poison : Bool := false
  /-- status of its own at retirement (R422) -/
  own : Nat := 0
  /-- flags of its completion (Table 06-4) -/
  flags : Nat := 0
  result : Nat := 0
  spill : Nat := 0
  /-- island cycles from issue by the formulas of Table 06-5 -/
  cycles : Nat := 0
  /-- island cycles of the spill stall among them (R67) -/
  stall : Nat := 0
  /-- island cycles for which hazard watch or the checksum froze its sequencer, beside them (R185, R346) -/
  frozen : Nat := 0
  /-- of a matrix macro-op: C_base, and the band contributions of each array row so far (R67) -/
  base : Nat := 0
  rows : List Nat := []
  /-- its throw (R130): 0 not yet thrown, 1 held by a substitution, 2 taken, 3 refused for overflow -/
  thrown : Nat := 0
  /-- energy class and units (R151) -/
  cls : Nat := 0
  units : Nat := 0
  /-- slot it opened, filled or drained -/
  slot : Option Nat := none
  /-- named output range: (first address, bytes) -/
  outs : List (Nat × Nat) := []
  /-- of an UPDATE -/
  upd : Upd := {}
  /-- the timeout in ms that it latched at its arbitration point (R318) -/
  limit : Nat := 0
  /-- of a matrix macro-op under the product check: the residues predicted and observed, rows then columns (R344) -/
  pred : List Nat := []
  obs : List Nat := []
  /-- waits for a capture copy (R349) or a decision (R351) before it can retire -/
  held : Bool := false
  deriving DecidableEq, Repr

/-- The assembly of a record by one writer (R124): words accepted so far, and the word on which the writer stalls: its number
(0 for +0, 3 for +24) and its value. -/
structure PushAsm where
  words : List Nat := []
  stalled : Option (Nat × Nat) := none
  deriving DecidableEq, Repr

/-- One engine ring beside its registers: records in flight, oldest first; assemblies by writer; record numbers that an
abort has marked (Table 05-10, last row but one); whether the record at RD waits for credits, the window grants it has
waited, and whether its engine is reserved (R327). -/
structure Ring where
  infl : List InFlight := []
  asm : Tab PushAsm := []
  marks : List Nat := []
  credit : Bool := false
  waited : Nat := 0
  reserved : Bool := false
  /-- the record at RD as its decode left it, while it waits for its slot or for credits (R147) -/
  dec : Option InFlight := none
  /-- record that an abort result waits for (Table 05-9) -/
  watch : Option Nat := none
  /-- play store (R181): loaded entries (entry number, control words) -/
  plays : List (Nat × List Nat) := []
  deriving DecidableEq, Repr

/-- An assembly without words. -/
def PushAsm.init : PushAsm := {}

/-- The control core's registers (R118, R122): x1 to x31, the program counter, and its mode; whether its program runs; the
machine-mode interrupts that its firmware has been raised and not handled, oldest first: 0 ring halt, 1 substitution, 2 doubling
switch. -/
structure CtlCore where
  x : List Nat := List.replicate 31 0
  pc : Nat := 0
  machine : Bool := true
  running : Bool := false
  irq : List Nat := []
  deriving DecidableEq, Repr

/-- A drained slot whose shadow has not been compared (R349), or is under decision after a disagreement (R351): the slot; the
original's and the shadow's position; the DRAIN's record number and step; ROW0, COL0, m and n; the base of its output. -/
structure Shadow where
  slot : Nat
  orig : Nat
  pos : Nat
  drain : Nat
  step : Nat
  row0 : Nat
  col0 : Nat
  m : Nat
  n : Nat
  base : Nat
  split : Bool := false
  deriving DecidableEq, Repr

/-- A logical core beside its registers. -/
structure Core where
  ringF : Ring := {}
  ringM : Ring := {}
  ringV : Ring := {}
  ringS : Ring := {}
  slotA : Slot := {}
  slotB : Slot := {}
  /-- job state record, the fields that no register shows (R102, R237) -/
  seed : Nat := 0
  growthInterval : Nat := 2000
  growthLog2 : Nat := 1
  /-- the job that holds the core: queue and entry (R308) -/
  job : Option (Nat × Nat) := none
  /-- the exit report of its control core: a0 and a1 (R310) -/
  exited : Option (Nat × Nat) := none
  ctl : CtlCore := {}
  /-- passes held during a substitution (R119), in arrival order: throwing core, ring, pass, amount -/
  heldPasses : List (Nat × Nat × Nat × Nat) := []
  /-- slot opens since admission (R347) -/
  opens : Nat := 0
  /-- shadows that are not settled -/
  shadows : List Shadow := []
  /-- where it goes, while MODE is 3: to a bench position (true), or as guest to a host's (false) (R119, R120) -/
  target : Option (Bool × Nat) := none
  deriving DecidableEq, Repr

/-! ## Core positions -/

/-- A core position beside its registers. -/
structure PosX where
  /-- logical core switched in on a doubled position (R121); 0xFF: the one that MGT_POS_STATE names -/
  running : Nat := 0xFF
  /-- Practice runs here (R358); a kernel has failed once (R359) -/
  practice : Bool := false
  retry : Bool := false
  /-- checksum kernels passed in a row (R356) -/
  csumRun : Nat := 0
  /-- the checksum unit is off until the next reset (R356) -/
  csumOff : Bool := false
  /-- step of the last shadow comparison that passed (R354) -/
  since : Nat := 0
  /-- the operating point whose clock runs (R335) -/
  clk : Nat := 1
  deriving DecidableEq, Repr

/-- A position that nothing has changed. -/
def PosX.init (_ : Nat) : PosX := {}

/-! ## What the module sends out -/

/-- What every frame carries (R248, R249, R251): MAC addresses, the 802.1Q tag (PCP, VID), and under MACsec the association number
and the packet number. -/
structure Eth where
  dmac : Nat
  smac : Nat
  tag : Option (Nat × Nat)
  sec : Option (Nat × Nat)
  deriving DecidableEq, Repr

/-- A Mirzu packet on an Ethernet port (R248, R249, R252): the frame, IP version and addresses, ECN codepoint, UDP ports and
checksum, and the packet. -/
structure Frame where
  eth : Eth
  ip4 : Bool
  sip : Nat
  dip : Nat
  ecn : Nat
  sport : Nat
  dport : Nat
  sum : Nat
  packet : List Byte
  deriving DecidableEq, Repr

/-- What leaves the module, in the order it happens. -/
inductive Output where
  /-- data returned by a register read of the host, or to the control core of a position -/
  | regData (value : Nat)
  | coreData (pos value : Nat)
  /-- completion of another host read: 0 successful, 1 Unsupported Request, 4 Completer Abort; EP; the data -/
  | cpl (status : Nat) (poison : Bool) (data : List Byte)
  /-- data of a CXL.mem read, with its poison indication -/
  | memData (poison : Bool) (data : List Byte)
  /-- a configuration read's data -/
  | cfgData (value : Nat)
  /-- RspIHitI, the answer to an H2D snoop -/
  | rspIHitI (address : Nat)
  /-- RdCurr: a read of host memory -/
  | hostRead (addr len : Nat)
  /-- MSI-X vector -/
  | msix (vector : Nat)
  /-- a write to host memory: ItoMWr, or a posted write -/
  | hostWrite (itom : Bool) (addr : Nat) (data : List Byte)
  /-- mailbox return code and output payload -/
  | mailbox (code : Nat) (payload : List Byte)
  /-- an SPDM response, by MCTP or DOE -/
  | spdm (viaMctp : Bool) (kind : Nat) (payload : List Byte)
  /-- a frame with a Mirzu packet -/
  | mirzu (port : Nat) (f : Frame)
  /-- the answer to a request (R250): 1 Neighbor Advertisement, 2 ARP reply, 3 echo reply, with the request's payload -/
  | answer (port kind : Nat) (eth : Eth) (payload : List Byte)
  /-- an unsolicited advertisement of the port's addresses (R271), in network byte order: a Neighbor Advertisement with its override
  flag, or a gratuitous ARP -/
  | advert (port : Nat) (eth : Eth) (arp override : Bool) (ip mac : List Byte)
  /-- an MKA message on a port (R396) -/
  | mka (port : Nat) (eth : Eth) (sak : Bool)
  /-- PMBus reply, or a NACK -/
  | pmbus (reply : Option Nat)
  /-- TDO: the register that the TAP shifts out -/
  | tap (register : Nat)
  /-- PLDM report of a cable -/
  | pldm (connector kind : Nat) (present : Bool)
  deriving DecidableEq, Repr

/-! ## The error log -/

/-- A record of the error log (Table 14-4); `payload` is bytes 28 to 63. -/
structure LogRec where
  index : Nat
  kind : Nat
  island : Nat
  counter : Nat
  step : Nat
  logical : Nat
  queue : Nat
  entry : Nat
  payload : List Byte
  deriving DecidableEq, Repr

/-! ## The board (chapter 19) -/

/-- Pins, regulators and test port. -/
structure Board where
  /-- the rails are up and power is good (R431); PG_OUT -/
  powered : Bool := true
  /-- PRES# is low -/
  presLow : Bool := true
  /-- the PERST# pins of J9 and J10 are low (R435) -/
  perst9 : Bool := false
  perst10 : Bool := false
  /-- out of reset: t0 has passed and PERST# has stayed high since (R369, R370) -/
  live : Bool := true
  /-- the input must be removed before the module starts again (R341, R431); THERMTRIP# is low -/
  tripped : Bool := false
  /-- PORT_OFF# is low (R436) -/
  portOff : Bool := false
  /-- cables seated, by connector 1 to 8 -/
  cables : List Nat := []
  /-- TAP instruction in force (R438): 0 IDCODE, 1 BYPASS, 2 SAMPLE/PRELOAD, 3 EXTEST, 4 CLAMP, 5 HIGHZ; the boundary
  register -/
  tap : Nat := 0
  boundary : Nat := 0
  /-- a module stop (R357) -/
  stopped : Bool := false
  deriving DecidableEq, Repr

/-! ## The CXL island (chapter 12) -/

/-- An HDM decoder (R302): base and size in host physical address space, and its control dword. -/
structure Hdm where
  base : Nat := 0
  size : Nat := 0
  ctl : Nat := 0
  deriving DecidableEq, Repr

/-- The link and the host's settings beside the registers. -/
structure Cxl where
  /-- configuration dwords that the host has changed, by offset -/
  cfg : List (Nat × Nat) := []
  /-- what is to go to the host and waits while the link is down, oldest first (Table 12-7) -/
  held : List Output := []
  /-- accesses of the host that wait behind its held push, oldest first (R315) -/
  waiting : List Instr := []
  /-- CXL event records that have not been cleared, oldest first: the event log, and what raised it (R316, R317): 0 power mismatch,
  1 telemetry loss, 2 trim limit, 3 thermal state, 4 function absent, 5 substitution -/
  events : List (Nat × Nat) := []
  /-- the HDM decoders, and whether decoding is enabled (R302); the other dwords of the component and device registers that the host
  has written, by offset from BAR0 (R301) -/
  hdm0 : Hdm := {}
  hdm1 : Hdm := {}
  hdmOn : Bool := false
  comp : List (Nat × Nat) := []
  /-- the Data Object Exchange mailbox: dwords written since the last object, and dwords of the response to be read (R302) -/
  doeIn : List Nat := []
  doeOut : List Nat := []
  /-- an IDE integrity failure has ended both streams, and they have not been established again (R319) -/
  ideLost : Bool := false
  /-- the CXL event interrupt policy, as it was last set -/
  policy : List Byte := List.replicate 4 0#8
  deriving DecidableEq, Repr

/-- A fetched entry of a host job queue that has not completed (R306 to R308): its number, its 128 bytes as a number, its admission
limit in ms, whether the job has been admitted, and the µs that it waited for that. -/
structure Job where
  x : Nat
  entry : Nat
  limit : Nat := 2000
  running : Bool := false
  wait : Nat := 0
  deriving DecidableEq, Repr

/-- A host job queue beside its registers: fetched entries in order, numbers completed ahead of DONE (R305), entries that an
abort has marked before their fetch, those whose completion waits for the link, the entry that an abort result waits for (Table 12-4), and whether an interrupt
hold-off runs and owes a signal (R316). -/
structure HostQ where
  jobs : List Job := []
  written : List Nat := []
  marks : List Nat := []
  late : List Nat := []
  watch : Option Nat := none
  holding : Bool := false
  owed : Bool := false
  deriving DecidableEq, Repr

/-- A queue that nothing has changed. -/
def HostQ.init (_ : Nat) : HostQ := {}

/-! ## The Parette image and the flash (chapter 15) -/

/-- What bring-up leaves beside the registers: bytes of the configuration flash (unlisted: 0xFF, erased), slots that a
command left partly written, the command that runs (OP, LEN), the security self-tests that have passed, and of the accepted image its SVN, its measurement digests,
the registers that it marks host-adjustable, those that a write has changed since, and the group records that SYSTEM lists
with their member lists, which wait for the far store (R375); and its POWER section. -/
structure Boot where
  flash : Tab Byte := []
  torn : List Nat := []
  cmd : Nat := 0
  cmdLen : Nat := 0
  tests : List Nat := []
  svn : Nat := 0
  power : PowerSec := {}
  digests : List (List Byte) := []
  adj : List Nat := []
  changed : List Nat := []
  groups : List (Nat × List Byte × Nat × List Byte) := []
  groupsDone : Bool := false
  deriving DecidableEq, Repr

/-- Fuses: the grade, positions fused off, the anti-rollback thermometer, and the UDS-kill fuse. -/
structure Fuses where
  standard : Bool := false
  disabled : List Nat := []
  rollback : Nat := 0
  killed : Bool := false
  deriving DecidableEq, Repr

/-! ## The security controller (chapter 16) -/

/-- An open Secured SPDM session (R389): its number, whether its role is Crypto Officer (else User), whether it runs over
MCTP. -/
structure Session where
  id : Nat
  co : Bool
  mctp : Bool
  deriving DecidableEq, Repr

/-- A SAK in the MACsec engine of a port (R251): its association number, the key, the next packet number to send, and the lowest
acceptable to receive. -/
structure Sak where
  an : Nat
  key : List Byte
  next : Nat := 1
  low : Nat := 1
  deriving DecidableEq, Repr

/-- Keys of a port (R396): CAK and CKN, the KEK and ICK that follow from them, and the SAKs in use in its MACsec engine, newest
first, two at most (R251). -/
structure PortKeys where
  port : Nat
  cak : List Byte
  ckn : List Byte
  kek : List Byte
  ick : List Byte
  saks : List Sak := []
  deriving DecidableEq, Repr

/-- A key in the IDE engine (R395): its stream, and whether it is in use. -/
structure IdeKey where
  stream : Nat
  key : List Byte
  going : Bool := false
  deriving DecidableEq, Repr

/-- The security controller beside its registers: whether the last TRNG sample failed; requests to the DRBG since its seed
(R398); sessions; port keys; IDE keys; the Alias private keys (R392); the SECURITY section in force (R405); and the
measurement blocks 2 to 13, fixed at acceptance (R394). -/
structure Sec where
  alarm : Bool := false
  draws : Nat := 0
  sessions : List Session := []
  ports : List PortKeys := []
  ide : List IdeKey := []
  aliasKeys : List Byte := []
  policy : List Byte := []
  measured : List (List Byte) := []
  deriving DecidableEq, Repr

/-! ## The power governor (chapter 13) -/

/-- The governor beside its registers: counts of this window, by 32 × island + class (R323); h in µJ, run and
p_gov of the last window (R330); sums of p_est and p_gov over the windows since the last evaluation, and their number;
disagreeing, agreeing and failed readings in a row (R337, R338); watts by which heat lowers cap_eff, and ms since it last
let them rise (R341); the cap and the phase points in force (R342); the average of p_gov over the last 1 ms (R334); the
islands whose clock a droop stretches (R339); whether the hard limit halves the clock of every fixed island (R341). -/
structure Gov where
  act : Tab Nat := []
  h : Nat := 0
  run : Nat := 0
  pgov : Nat := 0
  est : Nat := 0
  gov : Nat := 0
  wins : Nat := 0
  dis : Nat := 0
  agree : Nat := 0
  fails : Nat := 0
  capLow : Nat := 0
  cool : Nat := 0
  cap : Nat := 1600
  phase : List Nat := List.replicate 8 1
  avg : Nat := 0
  stretched : List Nat := []
  halved : Bool := false
  deriving DecidableEq, Repr

/-! ## Mirzu transport (chapter 10) -/

/-- Who posted a message, and hears of its end. -/
inductive Owner where
  | none
  /-- a chunk of a collective, on a leg (0 reduce, 1 broadcast), by its global index -/
  | chunk (eng group seq leg g : Nat)
  /-- a control message of a collective -/
  | control (eng group seq : Nat)
  /-- the SNAPSHOT in flight on a core's S ring -/
  | snapshot (core x : Nat)
  /-- a chunk of a parity refresh or rebuild (R366, R367) for a node -/
  | parity (node : Nat)
  deriving DecidableEq, Repr

/-- A sequenced packet sent and not acknowledged (R260, R263). -/
structure Pkt where
  psn : Nat
  /-- MSG_STATUS, else DATA -/
  status : Bool
  cls : Nat
  tag : Nat
  mseq : Nat
  off : Nat
  eom : Bool
  code : Nat
  body : List Byte
  path : Nat
  sentAt : Nat
  retxAt : Option Nat := none
  deriving DecidableEq, Repr

/-- An outbound message (R261): its lines (offset, codeword of 36 bytes) in order, how many have been sent, its MSG_SEQ once
it is open, and whether its owner has aborted it (R266). -/
structure OutMsg where
  cls : Nat
  tag : Nat
  owner : Owner := .none
  lines : List (Nat × List Byte) := []
  mseq : Option Nat := none
  sent : Nat := 0
  stopped : Bool := false
  deriving DecidableEq, Repr

/-- An inbound message: the runs of lines that have arrived (offset, count), of class 1 the lines (offset, poisoned, data),
PSN and last offset of its EOM packet, and whether it is rejected, poisoned, or aborted by its receiver. -/
structure InMsg where
  mseq : Nat
  cls : Nat
  tag : Nat
  runs : List (Nat × Nat) := []
  lines : List (Nat × Bool × List Byte) := []
  last : Option (Nat × Nat) := none
  rejected : Bool := false
  poisoned : Bool := false
  aborted : Bool := false
  deriving DecidableEq, Repr

/-- A path of a Rally (R263, R267, R268), times in cycles of the transport island: srtt, rttvar, samples (time, sample),
the rate in Mb/s once it has been adjusted, when that was, RECV and CE since the last adjustment, what the token bucket lacks, in bytes,
and when that was so, timeouts in a row, and whether it is suspect. -/
structure PathSt where
  srtt : Nat := 0
  rttvar : Nat := 0
  samples : List (Nat × Nat) := []
  rate : Option Nat := none
  adjusted : Option Nat := none
  recv : Nat := 0
  ce : Nat := 0
  used : Nat := 0
  usedAt : Nat := 0
  touts : Nat := 0
  suspect : Bool := false
  deriving DecidableEq, Repr

/-- A path that nothing has changed. -/
def PathSt.init (_ : Nat) : PathSt := {}

/-- A Rally with one peer (R257 to R262, R269, R272). -/
structure Rally where
  /-- outbound state (Table 10-7): 0 FREE, 1 OPENING, 2 OPEN, 3 FAILED; OPEN_SEQ; sends of the OPEN; its TAKEOVER bit -/
  out : Nat := 0
  openSeq : Nat := 0
  openSends : Nat := 0
  takeover : Bool := false
  /-- next PSN; ACK_PSN as acknowledged; packets not acknowledged, oldest first; messages posted, oldest first; next MSG_SEQ;
  MSG_STATUS packets to send (MSG_SEQ, CLASS, TAG, code); next path -/
  psn : Nat := 0
  acked : Nat := 0xFFFFFFFF
  unacked : List Pkt := []
  msgs : List OutMsg := []
  mseq : Nat := 0
  stats : List (Nat × Nat × Nat × Nat) := []
  rr : Nat := 0
  paths : Tab PathSt := []
  /-- inbound direction: open; the peer's epoch and OPEN_SEQ; ACK_PSN; bit i: PSN ACK_PSN + 1 + i has arrived; sequenced
  packets since the last ACK; RECV and CE by path; the path and TS of the packet that an ACK names; messages -/
  inOpen : Bool := false
  inEpoch : Nat := 0
  inOpenSeq : Nat := 0
  inAck : Nat := 0xFFFFFFFF
  sack : Nat := 0
  since : Nat := 0
  recv : Tab Nat := []
  ce : Tab Nat := []
  trig : Nat × Nat := (0, 0)
  ins : List InMsg := []
  /-- the fenced epoch -/
  fenced : Option Nat := none
  /-- context: on chip; in the spill region; a load is under way; when last used; packets that wait for it (port, CE, bytes) -/
  onChip : Bool := false
  spilled : Bool := false
  loading : Bool := false
  used : Nat := 0
  missQ : List (Nat × Bool × List Byte) := []
  deriving DecidableEq, Repr

/-- A Rally that nothing has changed. -/
def Rally.init (_ : Nat) : Rally := {}

/-- The transport island: Rallies by peer node, the clock of uses, whether this reset's takeover has been used, and the
peers whose answer it still awaits (R271); by port, 1 + the peer that it served last (R268). -/
structure Transport where
  rallies : Tab Rally := []
  clock : Nat := 0
  tkUsed : Bool := false
  tkPeers : List Nat := []
  turn : Tab Nat := []
  deriving DecidableEq, Repr

/-! ## The Relay engines (chapter 11) -/

/-- An exact accumulator: its integer A of R56, and its side state. -/
structure ExAcc where
  sum : Int := 0
  side : Side := {}
  deriving DecidableEq, Repr

/-- A reduce-leg chunk gathered at a member: the children (ranks) whose part has arrived, and their sums, element by element;
none is a poisoned element (R291). -/
structure Gather where
  g : Nat
  kids : List Nat
  sums : List (Option ExAcc)
  deriving DecidableEq, Repr

/-- A chunk that waits to be sent (R285): its global index, leg, receiving rank, line 0 fields (ORIGIN, FLAGS, ELEMS, AUX), its
encoded bytes, and the lines of them that are poisoned. -/
structure Ready where
  g : Nat
  leg : Nat
  rank : Nat
  origin : Nat := 0
  flags : Nat := 0
  elems : Nat := 0
  aux : Nat := 0
  body : List Byte := []
  bad : List Nat := []
  deriving DecidableEq, Repr

/-- What an AGREE brought up (R289): the child's rank, its NONFINITE and POISON bits, its own node and digest if the digest
differs, and the disagreement that it passes up (node, digest). -/
structure Agreed where
  rank : Nat
  bits : Nat
  bad : Option (Nat × Nat)
  dis : Option (Nat × Nat)
  deriving DecidableEq, Repr

/-- A collective at this member, queued or active (R281 to R293). -/
structure Coll where
  group : Nat
  seq : Nat
  /-- the macro-op that issued it (core, record number), or the entry of the communication queue -/
  ring : Option (Nat × Nat) := none
  entry : Nat := 0
  /-- the descriptor; the tensor descriptors of SRC, DST and COUNTS; the core whose seed it uses; the latched step -/
  od : Nat
  src : Nat := 0
  dst : Nat := 0
  counts : Nat := 0
  core : Nat := 0
  step : Nat := 0
  /-- the timeout in ms that it latched (R318) -/
  limit : Nat := 2000
  /-- once started: the group record, and the members' node IDs; its digest; LEN of OP 4 -/
  started : Bool := false
  grp : Nat := 0
  members : List Nat := []
  digest : Nat := 0
  len : Nat := 0
  /-- the agreement round: what the children sent, whether this member's AGREE is sent, whether GO has come -/
  agreed : List Agreed := []
  agreeSent : Bool := false
  go : Bool := false
  /-- the OR that GO carries -/
  verdict : Nat := 0
  /-- credit held (rank, leg, highest g); grants given, and chunks sent (rank, leg, chunks) -/
  held : List (Nat × Nat × Nat) := []
  given : List (Nat × Nat × Nat) := []
  sent : List (Nat × Nat × Nat) := []
  /-- chunks gathered on the reduce leg; chunks ready to send; chunks sent and not acknowledged (leg, rank, g) -/
  gather : List Gather := []
  ready : List Ready := []
  flying : List (Nat × Nat × Nat) := []
  /-- chunks that this member has summed or sent on the reduce leg (2 × g), or written to DST (2 × g + 1) -/
  done : List Nat := []
  /-- own chunks taken up on the reduce leg, or by the root of a broadcast -/
  own : List Nat := []
  /-- the runs of its engine's staging pool that it holds, in KiB (start, length) (R282) -/
  units : List (Nat × Nat) := []
  /-- chunks that came before GO: leg, rank, line 0, body, poisoned lines (R285) -/
  early : List (Nat × Nat × List Byte × List Byte × List Nat) := []
  /-- at the root, an MX DST: sums of chunks, which a block may share (R39) -/
  sums : List (Nat × List (Option ExAcc)) := []
  /-- rounding flags; a poisoned element; OP 4: elements by contributor (rank, elements, drops) -/
  flags : Nat := 0
  poison : Bool := false
  blocks : List (Nat × Nat × Nat) := []
  deriving DecidableEq, Repr

/-- A communication queue (R283): its group, RD and WR. -/
structure CommQ where
  group : Nat
  rd : Nat := 0
  wr : Nat := 0
  deriving DecidableEq, Repr

/-- A Relay engine: collectives in order of arrival; LAST by group (R281); cached group records (group, record, members);
accumulators of verdict entries (entry, step, bits: NONFINITE 1, POISON 2). -/
structure RelayEng where
  colls : List Coll := []
  last : List (Nat × Nat) := []
  cache : List (Nat × Nat × List Nat) := []
  vacc : List (Nat × Nat × Nat) := []
  deriving DecidableEq, Repr

/-- Progress of a parity refresh or rebuild (R366, R367): MODE, step, places lost; chunks to send, in order (receiver's node,
source address, slot address); nodes whose MSG_STATUS is awaited; chunks taken in, by sender or slot; and, at a spare, the
blocks of rows that have arrived (row, chunk, block: data index, or G − r + parity index; bytes, poisoned lines). -/
structure Parity where
  mode : Nat := 0
  step : Nat := 0
  lost : Nat := 0
  todo : List (Nat × Nat × Nat) := []
  flying : List Nat := []
  taken : Tab Nat := []
  pieces : List (Nat × Nat × Nat × List Byte × List Nat) := []
  deriving DecidableEq, Repr

/-- The four Relay engines, the communication queues, and parity. -/
structure Relay where
  eng0 : RelayEng := {}
  eng1 : RelayEng := {}
  eng2 : RelayEng := {}
  eng3 : RelayEng := {}
  queues : List CommQ := []
  parity : Parity := {}
  deriving DecidableEq, Repr

/-! ## The machine -/

/-- Everything the spec gives the module. -/
structure M where
  /-- registers, by register-space offset; unlisted: `Reg.dflt` -/
  regs : Tab Nat := []
  /-- near store and far store data, by device address; unlisted: 0 -/
  mem : List Host.Cell := []
  /-- check symbols: symbol k of the line at address a has key 4 × (a / 32) + k; unlisted: 0. Of a far-store line this is the one valid
  copy, which the check cache or the check line of its group holds (R194, R195) -/
  chk : Tab Nat := []
  /-- island counters, by island index (Table 13-1, R417) -/
  isl : Tab Nat := []
  /-- the error-log buffer, oldest first (R362) -/
  logBuf : List LogRec := []
  /-- logical cores, by logical ID -/
  cores : Tab Core := []
  /-- core positions, by 64 × die + position -/
  pos : Tab PosX := []
  /-- the ring on which a writer's push stalls (R124, R315): 1 + 4 × core + ring, by writer; unlisted: 0 -/
  heldBy : Tab Nat := []
  /-- board and CXL island -/
  board : Board := {}
  cxl : Cxl := {}
  /-- host job queues -/
  hostQ : Tab HostQ := []
  /-- flash, image and fuses -/
  boot : Boot := {}
  fuses : Fuses := {}
  /-- security controller and power governor -/
  sec : Sec := {}
  gov : Gov := {}
  /-- Mirzu transport and Relay engines -/
  trn : Transport := {}
  rly : Relay := {}
  /-- next line of each scrubber and its passes, by 128 × store + unit (R207) -/
  scrubAt : Tab Nat := []
  scrubbed : Tab Nat := []
  /-- controllers of the far store that have trained -/
  trained : List Nat := []
  /-- what has been sent out, newest first -/
  outs : List Output := []
  /-- free values drawn (the model's own) -/
  free : Nat := 0
  /-- idle steps (the model's own) -/
  ticks : Nat := 0
  deriving DecidableEq, Repr

/-- The state: the module, and the queue of the commands that wait, first in, first out. -/
structure State where
  m : M := {}
  pending : List Instr := []
  deriving DecidableEq, Repr

/-- Reasons for which a step stops the machine. There is none: an error of the module is a status, a register field,
a record or a signal, which is part of the next state (R420). -/
inductive Fault where
  deriving DecidableEq, Repr

/-- Reasons for which a command has no meaning. -/
inductive Refusal where
  /-- the model gives this command no meaning yet; raised by the arms of `exec` alone; safe, no state follows -/
  | notModelled (mnemonic : String)
  deriving DecidableEq, Repr

/-- The module right after reset. -/
def State.reset : State := {}

end Sys2Proof.Machine
end

