-- ==== Sys2Proof/Machine/Ops.lean ====
section
/-! DEFINITION. The named operations over the machine: registers, the core map, cores, rings and slots, what is sent
out, free values, event counters, the error log, and the two stores with their code. -/

namespace Sys2Proof.Machine

/-- An action on the machine: what a command does, step by step. -/
abbrev Act := StateM M

/-- The outcome type of a command. -/
abbrev Out := Host.Outcome State Fault Refusal

/-- A command's effect on everything but the queue, on a module that is out of reset. While PERST# is low or a rail is
down every island is held (R370): nothing happens. -/
def State.doing (s : State) (a : Act Unit) : Out := .next (if s.m.board.live then { s with m := (a s.m).2 } else s)

/-- The effect of an event at the input controller, the pins or the test port, which act in reset too. -/
def State.always (s : State) (a : Act Unit) : Out := .next { s with m := (a s.m).2 }

/-- Do an action for every element of a list, in order. -/
def forA {α : Type} : List α → (α → Act Unit) → Act Unit
  | [], _ => pure ()
  | x :: l, f => do f x; forA l f

/-- Do an action for every element of a list, in order, and gather the answers. -/
def mapA {α β : Type} : List α → (α → Act β) → Act (List β)
  | [], _ => pure []
  | x :: l, f => do
    let y ← f x
    let ys ← mapA l f
    pure (y :: ys)

/-- Do an action if a condition holds. -/
def whenA (c : Bool) (a : Act Unit) : Act Unit := if c then a else pure ()

/-! ## Registers -/

/-- The value a register holds. -/
def M.reg (s : M) (off : Nat) : Nat := Tab.read Reg.dflt s.regs off

/-- Set a register. -/
def M.setReg (s : M) (off v : Nat) : M := { s with regs := Tab.put Reg.dflt s.regs off v }

/-- Read a register. -/
def rd (off : Nat) : Act Nat := do return (← get).reg off

/-- Set a register. -/
def wr (off v : Nat) : Act Unit := modify fun s => s.setReg off v

/-- Change a register. -/
def upd (off : Nat) (f : Nat → Nat) : Act Unit := modify fun s => s.setReg off (f (s.reg off))

/-- Add to a counter of w bits, modulo 2^w. -/
def addReg (w off n : Nat) : Act Unit := upd off fun v => trunc w (v + n)

/-- Add 1 to a u64 counter of access RC. -/
def inc64 (off : Nat) : Act Unit := addReg 64 off 1

/-- Set bits [hi:lo] of a register. -/
def setField (off hi lo v : Nat) : Act Unit := upd off fun x => setBits x hi lo v

/-- A write of an IL register whose row has these writable bits (R10, R318): it takes effect if the image marks the
setting host-adjustable, else it is counted. Answers whether it took effect. -/
def ilWrite (off mask v : Nat) : Act Bool := do
  let s ← get
  if s.boot.adj.contains off then do
    wr off (s.reg off - (s.reg off &&& mask) + (v &&& mask))
    modify fun s => { s with boot := { s.boot with changed := if s.boot.changed.contains off then s.boot.changed
                                                              else s.boot.changed ++ [off] } }
    pure true
  else do
    inc64 Reg.hstIlRejects
    pure false

/-! ## Grade and core map -/

/-- Logical cores of the grade (Table 00-1): 96 on the standard grade, else 120. -/
def M.nCores (s : M) : Nat := if bit (s.reg Reg.mgtGrade) 0 then 96 else 120

/-- Is the module of the standard grade AE9-S1024? -/
def M.standard (s : M) : Bool := bit (s.reg Reg.mgtGrade) 0

/-- The position index that a logical core is bound to: bits [6:0] of MGT_CORE_MAP_n, 64 × DIE + POSITION. -/
def M.posOf (s : M) (n : Nat) : Nat := bits (s.reg (Reg.mgtCoreMap n)) 6 0

/-- MODE of a logical core (Table 05-3). -/
def M.coreMode (s : M) (n : Nat) : Nat := bits (s.reg (Reg.mgtCoreMap n)) 30 28

/-- The state code of a position (Table 05-1). -/
def M.posState (s : M) (i : Nat) : Nat := bits (s.reg (Reg.mgtPosState i)) 10 8

/-- The logical core bound to a position, or 0xFF. -/
def M.logicalAt (s : M) (i : Nat) : Nat := bits (s.reg (Reg.mgtPosState i)) 7 0

/-- First address of a slice number, and of a logical core's home slice (R112). -/
def sliceBase (n : Nat) : Nat := n * 0x8000000

/-- Bytes of a slice. -/
def sliceSize : Nat := 0x8000000

/-! ## Logical cores, rings and slots -/

/-- A logical core that nothing has changed. -/
def Core.init (_ : Nat) : Core := {}

/-- The logical core n beside its registers. -/
def M.core (s : M) (n : Nat) : Core := Tab.read Core.init s.cores n

/-- Set logical core n. -/
def M.setCore (s : M) (n : Nat) (c : Core) : M := { s with cores := Tab.put Core.init s.cores n c }

/-- Read a logical core. -/
def getCore (n : Nat) : Act Core := do return (← get).core n

/-- Change a logical core. -/
def updCore (n : Nat) (f : Core → Core) : Act Unit := modify fun s => s.setCore n (f (s.core n))

/-- The ring of engine e (0 F, 1 M, 2 V, 3 S; R123). -/
def Core.ring (c : Core) (e : Nat) : Ring :=
  match e with
  | 0 => c.ringF
  | 1 => c.ringM
  | 2 => c.ringV
  | _ => c.ringS

/-- Set the ring of engine e. -/
def Core.setRing (c : Core) (e : Nat) (r : Ring) : Core :=
  match e with
  | 0 => { c with ringF := r }
  | 1 => { c with ringM := r }
  | 2 => { c with ringV := r }
  | _ => { c with ringS := r }

/-- The ring of engine e of a logical core. -/
def M.ring (s : M) (n e : Nat) : Ring := (s.core n).ring e

/-- Change a ring. -/
def updRing (n e : Nat) (f : Ring → Ring) : Act Unit := updCore n fun c => c.setRing e (f (c.ring e))

/-- Slot A (0) or B (1). -/
def Core.slot (c : Core) (k : Nat) : Slot := if k = 0 then c.slotA else c.slotB

/-- Set slot A or B. -/
def Core.setSlot (c : Core) (k : Nat) (s : Slot) : Core :=
  if k = 0 then { c with slotA := s } else { c with slotB := s }

/-- Change a slot. -/
def updSlot (n k : Nat) (f : Slot → Slot) : Act Unit := updCore n fun c => c.setSlot k (f (c.slot k))

/-- A core position beside its registers. -/
def M.posX (s : M) (i : Nat) : PosX := Tab.read PosX.init s.pos i

/-- Change a core position. -/
def updPos (i : Nat) (f : PosX → PosX) : Act Unit :=
  modify fun s => { s with pos := Tab.put PosX.init s.pos i (f (s.posX i)) }

/-- Is a logical core switched in: not the waiting partner on a doubled position (R121)? -/
def M.switchedIn (s : M) (n : Nat) : Bool :=
  let p := s.posOf n
  let r := (s.posX p).running
  (s.coreMode n != 1 && s.coreMode n != 2) || (if r = 0xFF then s.logicalAt p else r) == n

/-! ## What is sent out, and free values -/

/-- Send something out. -/
def emit (o : Output) : Act Unit := modify fun s => { s with outs := o :: s.outs }

/-- Send something to the host: it waits while the link is down (Table 12-7). -/
def hostEmit (o : Output) : Act Unit := modify fun s =>
  if bits (s.reg Reg.hstStatus) 31 30 = 0 then { s with cxl := { s.cxl with held := s.cxl.held ++ [o] } }
  else { s with outs := o :: s.outs }

/-- Draw a free value of w bits: a value that the manual leaves open (log 3). -/
def freeVal (w : Nat) : Act Nat :=
  modifyGet fun s => (trunc w (Config.freeValue s.free), { s with free := s.free + 1 })

/-- The counter of an island (R417). -/
def M.island (s : M) (i : Nat) : Nat := Tab.read (fun _ => 0) s.isl i

/-! ## Who may access: the host's window, IDE, held pushes (R124, R315, R319, R378) -/

/-- Is the writer's push stalled on some ring? -/
def M.stalled (s : M) (writer : Nat) : Bool := Tab.read (fun _ => 0) s.heldBy writer != 0

/-- Do the host's accesses wait behind its held push (R315)? -/
def M.hostWaits (s : M) : Bool := s.stalled 0

/-- Are the accesses of the host not refused for want of IDE: no policy requires it and no integrity failure has ended it, or both
streams are established (R319)? -/
def M.ideOk (s : M) : Bool :=
  (!bit (s.reg Reg.secPolicy) 1 && !s.cxl.ideLost) || (bit (s.reg Reg.hstStatus) 22 && bit (s.reg Reg.hstStatus) 21)

/-- Count a refused access. -/
def earlyAccess : Act Unit := inc64 Reg.hstEarlyAccess

/-- Does a write of the host outside the management block reach its register: bit 126 is set (R378), and IDE does not refuse it? -/
def M.hostOpen (s : M) : Bool := bit (s.reg Reg.mgtReadyMap) 126 && s.ideOk

/-- A refused write of the host is counted if IDE is what refuses it. -/
def refused : Act Unit := do
  let s ← get
  whenA (!s.ideOk) earlyAccess

/-- The logical core that runs at a position: on a doubled one, that which is switched in (R121). -/
def M.runningAt (s : M) (pos : Nat) : Nat :=
  let r := (s.posX pos).running
  if r = 0xFF then s.logicalAt pos else r

/-! ## Event counters (R407 to R412) -/

/-- Count n occurrences at one counter: `cnt` its offset, `ovf` the overflow register and `c` its bit there. Edge mode
adds n; level mode adds 1 for an n above 0. -/
def countAt (cnt sel ovf c code n : Nat) (s : M) : M :=
  let x := s.reg sel
  if bit x 31 && bits x 9 0 == code && n != 0 then
    let v := s.reg cnt + (if bit x 30 then 1 else n)
    let s := s.setReg cnt (trunc 64 v)
    if v < 2 ^ 64 then s else s.setReg ovf (setBits (s.reg ovf) c c 1)
  else s

/-- n occurrences of event `code` at the counters `from` to `from + k − 1` of a position, unless frozen (R409), and
for a counter with OWN only if the logical core `who` wrote its select (R410). -/
def posCount (pos frm k code n who : Nat) : Act Unit :=
  modify fun s =>
    if bit (s.reg (Reg.posCntCtl pos)) 0 then s
    else (List.range' frm k).foldl (fun s c =>
      if bit (s.reg (Reg.posCntSel pos c)) 29 && s.reg (Reg.posCntOwner pos c) != who then s
      else countAt (Reg.posCnt pos c) (Reg.posCntSel pos c) (Reg.posCntOvf pos) c code n s) s

/-- n occurrences of event k of Table 17-2 at engine e of a logical core. -/
def engEvent (core e k n : Nat) : Act Unit := do
  let s ← get
  posCount (s.posOf core) (8 * e) 8 (0x40 * e + k) n core

/-- n occurrences of an engine-specific event (Table 17-3) at engine e of a logical core. -/
def engEventX (core e code n : Nat) : Act Unit := do
  let s ← get
  posCount (s.posOf core) (8 * e) 8 code n core

/-- n occurrences of a core-position event (0x120 to 0x138) of Table 17-3. -/
def posEvent (pos code n : Nat) : Act Unit := do
  let s ← get
  posCount pos 0 40 code n (s.runningAt pos)

/-- n occurrences of an event at the counters of a port controller; `sub` is the port or lane that it happened at
(R412). -/
def portEvent (ctrl sub code n : Nat) : Act Unit :=
  modify fun s => (List.range 64).foldl (fun s c =>
    if bits (s.reg (Reg.cntESel ctrl c)) 28 26 == sub then
      countAt (Reg.cntE ctrl c) (Reg.cntESel ctrl c) (Reg.cntEOvf ctrl) c code n s
    else s) s

/-- n occurrences of an event at the counters of a Relay engine. -/
def relayEvent (eng code n : Nat) : Act Unit :=
  modify fun s => (List.range 64).foldl (fun s c =>
    countAt (Reg.cntR eng c) (Reg.cntRSel eng c) (Reg.cntROvf eng) c code n s) s

/-! ## Accesses of the register space -/

/-- An access of the host, or of a control core, which a held push of its own keeps waiting: the host's later accesses wait in order
(R315); a stalled control core makes none (R124). -/
def unlessHeld (writer : Nat) (i : Instr) (a : Act Unit) : Act Unit := do
  let s ← get
  if s.stalled writer then
    whenA (writer == 0) (modify fun s => { s with cxl := { s.cxl with waiting := s.cxl.waiting ++ [i] } })
  else a

/-- A control core's access of the register space is counted (Table 17-3). -/
def ctlAccess (writer : Nat) : Act Unit := do
  let s ← get
  whenA (writer != 0) (posCount (writer - 1) 32 8 0x10A 1 (s.runningAt (writer - 1)))

/-- A write that performs an action, by the host (writer 0) or the control core of position writer − 1 (R10, R425); `mgmt`: its
register lies in the management block. `i` is the command that it came by. -/
def regAction (writer : Nat) (mgmt : Bool) (i : Instr) (a : Act Unit) : Act Unit := unlessHeld writer i do
  let s ← get
  if writer = 0 ∧ !s.ideOk then earlyAccess
  else if writer = 0 ∧ !mgmt ∧ !bit (s.reg Reg.mgtReadyMap) 126 then pure ()
  else do
    ctlAccess writer
    a

/-- A register read by the host or a control core: the host's is refused for want of IDE (R319), and answers 0 before bit 126 is set
outside the management block (R378); the answer goes to who read. -/
def regRead (writer : Nat) (mgmt : Bool) (i : Instr) (a : Act Nat) : Act Unit := unlessHeld writer i do
  let s ← get
  if writer = 0 ∧ !s.ideOk then do
    earlyAccess
    emit (.cpl 1 false [])
  else if writer = 0 ∧ !mgmt ∧ !bit (s.reg Reg.mgtReadyMap) 126 then emit (.regData 0)
  else do
    ctlAccess writer
    let v ← a
    emit (if writer = 0 then .regData v else .coreData (writer - 1) v)

/-- The same as regAction for a register of logical core `core`; there is none outside the grade (R12). -/
def coreAction (writer core : Nat) (i : Instr) (a : Act Unit) : Act Unit := regAction writer false i do
  let s ← get
  whenA (decide (core < s.nCores)) a

/-! ## The error log (R362, R363) -/

/-- A payload of 36 bytes from (offset, size, value) fields. -/
def payload (fields : List (Nat × Nat × Nat)) : List Byte :=
  leBytes 36 (fields.foldl (fun a (o, n, v) => a + trunc (8 * n) v <<< (8 * o)) 0)

/-- The record takes the next log index in the 64-entry buffer; a full buffer drops its oldest unwritten record and
counts the drop. Every new record signals vector 65. -/
def logAdd (kind island step logical queue entry : Nat) (pl : List Byte) : Act Unit := do
  let s ← get
  let x := s.reg Reg.chkLogWr
  let r : LogRec := ⟨x, kind, island, if island = 0xFFFF then 0 else s.island island, step, logical, queue, entry, pl⟩
  wr Reg.chkLogWr (trunc 32 (x + 1))
  whenA (decide (s.logBuf.length ≥ 64)) (addReg 32 Reg.chkLogLost 1)
  modify fun s => { s with logBuf := (if s.logBuf.length ≥ 64 then s.logBuf.drop 1 else s.logBuf) ++ [r] }
  hostEmit (.msix 65)

/-- An event is raised: a CXL event record, in a log that the manual leaves open, and vector 65 (R316, R317; log 99). -/
def raiseEvent (cause : Nat) : Act Unit := do
  let log ← freeVal 2
  modify fun s => { s with cxl := { s.cxl with events := s.cxl.events ++ [(log, cause)] } }
  hostEmit (.msix 65)

/-! ## Energy units (R323) -/

/-- What an island counts in this window: energy units of a class below 16, beats (16), NoC flits (17), far-store bursts (18) or SerDes
lanes (19) (R323). -/
def chargeUnits (island cls n : Nat) : Act Unit := modify fun s =>
  let k := 32 * island + cls
  { s with gov := { s.gov with act := Tab.put (fun _ => 0) s.gov.act k (Tab.read (fun _ => 0) s.gov.act k + n) } }

/-! ## Memory: the two stores (R188 to R206) -/

/-- Near-store addresses. -/
def inNear (a : Nat) : Bool := decide (a < 0x400000000)
/-- Far-store addresses. -/
def inFar (a : Nat) : Bool := decide (0x10000000000 ≤ a) && decide (a < 0x20000000000)
/-- Does the range of n bytes at a lie wholly within one data region (R145)? -/
def inRegion (a n : Nat) : Bool :=
  decide (a + n ≤ 0x400000000) || (decide (0x10000000000 ≤ a) && decide (a + n ≤ 0x20000000000))

/-- What a byte of either store that nothing has written reads as: zero (R197, R198). -/
def memZero (_ : Nat) : Byte := 0#8
/-- Check symbols of a line of zeros are zero. -/
def chkZero (_ : Nat) : Nat := 0

/-- The stored data byte at a device address. -/
def M.byte (s : M) (a : Nat) : Byte := Tab.read memZero s.mem a

/-- Store one data byte. -/
def M.setByte (s : M) (a : Nat) (b : Byte) : M := { s with mem := Tab.put memZero s.mem a b }

/-- Store one check symbol of line l. -/
def M.setChk (s : M) (l k v : Nat) : M := { s with chk := Tab.put chkZero s.chk (4 * l + k) v }

/-- n stored bytes from an address. -/
def M.bytes (s : M) (a n : Nat) : List Byte := (List.range n).map fun i => s.byte (a + i)

/-- n stored bytes from an address as a little-endian number (R9). -/
def M.num (s : M) (a n : Nat) : Nat := leNat (s.bytes a n)

/-- The four stored check symbols of line l. -/
def M.checks (s : M) (l : Nat) : List Nat := (List.range 4).map fun k => Tab.read chkZero s.chk (4 * l + k)

/-- The stored codeword of line l (the line at address 32 × l). -/
def M.codeword (s : M) (l : Nat) : List Nat := (s.bytes (32 * l) 32).map (·.toNat) ++ s.checks l

/-- Store bytes from an address on. -/
def M.setBytes (s : M) (a : Nat) : List Byte → M
  | [] => s
  | b :: bs => (s.setByte a b).setBytes (a + 1) bs

/-- Store check symbols k, k + 1, … of line l. -/
def M.setChks (s : M) (l k : Nat) : List Nat → M
  | [] => s
  | v :: vs => (s.setChk l k v).setChks l (k + 1) vs

/-- Store a line's data with the check symbols of a new codeword (R200), poisoned or not. -/
def M.putLine (s : M) (l : Nat) (data : List Byte) (poison : Bool) : M :=
  let d := data.map (·.toNat)
  (s.setBytes (32 * l) data).setChks l 0 (if poison then rsPoison d else rsCheck d)

/-- MEM_LAST_ERR (Table 08-9). -/
def lastErr (source kind addr synd symbol : Nat) : Nat :=
  source <<< 112 + kind <<< 110 + addr <<< 64 + synd <<< 32 + symbol

/-- The syndrome field: s[3] in the high byte. -/
def syndNum (cw : List Nat) : Nat := ((syndromes cw).zip [0, 8, 16, 24]).foldl (fun a (v, k) => a + v <<< k) 0

/-- SOURCE of MEM_LAST_ERR for a store: 0 near, 1 far. -/
def storeSource (l : Nat) : Nat := if inNear (32 * l) then 0 else 1

/-- Count an event at the position over whose slice a near-store line lies. -/
def sliceEvent (l code : Nat) : Act Unit := do
  let s ← get
  if inNear (32 * l) then posEvent (bits (s.reg (Reg.mgtSliceMap (32 * l / sliceSize))) 6 0) code 1 else pure ()

/-- The set of a far-store address (Table 08-4). -/
def M.farSet (s : M) (a : Nat) : Nat :=
  let o := a - 0x10000000000
  if bit (s.reg Reg.memCtl) 0 then 4 * bits o 39 39 + bits o 13 12 else bits o 14 12

/-- The set-local line of a far-store address (Table 08-4). -/
def M.farLine (s : M) (a : Nat) : Nat :=
  let o := a - 0x10000000000
  (if bit (s.reg Reg.memCtl) 0 then bits o 38 14 else bits o 39 15) * 128 + bits o 11 5

/-- Member and member line address of the raw line that holds a data line (Table 08-3). -/
def dataPlace (line : Nat) : Nat × Nat := (line % 8 % 3, 3 * (line / 8) + line % 8 / 3)

/-- Member, member line address and first byte of a data line's four check symbols (Table 08-3, R194). -/
def checkPlace (line : Nat) : Nat × Nat × Nat := (2, 3 * (line / 8) + 2, 4 * (line % 8))

/-- The island of the controller that holds a far-store line: the data member of its set (R194, Table 13-1). -/
def M.farIsland (s : M) (a : Nat) : Nat :=
  128 + 3 * s.farSet a + (dataPlace (s.farLine a)).1

/-- The island of the store of a line: the position beneath its slice, or the controller of its package. -/
def M.storeIsland (s : M) (l : Nat) : Nat :=
  if inNear (32 * l) then bits (s.reg (Reg.mgtSliceMap (32 * l / sliceSize))) 6 0 else s.farIsland (32 * l)

/-- One read of a line by its store (R201 to R204): it is decoded; a corrected line is written back and counted; an
uncorrectable line is poisoned, counted and logged; a read of a poisoned line is counted. Answers whether the consumer
receives the line as poisoned. -/
def readLine (l : Nat) : Act Bool := do
  let s ← get
  let cw := s.codeword l
  match rsDecode cw with
  | .ok => pure false
  | .poisoned =>
    inc64 Reg.memPoisonReads
    wr Reg.memLastErr (lastErr (storeSource l) 3 (32 * l) (syndNum cw) 63)
    sliceEvent l 0x12A
    pure true
  | .corrected i e =>
    let cw' := rsRepair cw (.corrected i e)
    modify fun s => (s.setBytes (32 * l) ((cw'.take 32).map (BitVec.ofNat 8))).setChks l 0 (cw'.drop 32)
    inc64 Reg.memCeCount
    wr Reg.memLastErr (lastErr (storeSource l) 1 (32 * l) (syndNum cw) i)
    sliceEvent l 0x129
    pure false
  | .uncorrectable =>
    modify fun s => s.setChks l 0 (rsPoison ((s.bytes (32 * l) 32).map (·.toNat)))
    inc64 Reg.memUeCount
    wr Reg.memLastErr (lastErr (storeSource l) 2 (32 * l) (syndNum cw) 63)
    logAdd 0x01 (s.storeIsland l) 0 0xFF 0xFF 0 (payload [(0, 8, 32 * l), (8, 1, storeSource l), (12, 4, syndNum cw)])
    pure true

/-- Read each of the lines once; answers those that are poisoned. -/
def readLines (ls : List Nat) : Act (List Nat) := do
  let ps ← mapA ls fun l => do
    let p ← readLine l
    pure (l, p)
  pure ((ps.filter Prod.snd).map Prod.fst)

/-- The lines that n bytes from address a touch, in rising order. -/
def linesOf (a n : Nat) : List Nat := if n = 0 then [] else List.range' (a / 32) ((a + n - 1) / 32 - a / 32 + 1)

/-- Read n bytes: whether any of their lines is poisoned, and the bytes. -/
def readBytes (a n : Nat) : Act (Bool × List Byte) := do
  let ps ← readLines (linesOf a n)
  let s ← get
  pure (!ps.isEmpty, s.bytes a n)

/-- Write part of one line, `off` bytes into it (R205): all 32 bytes form a new codeword and clear poison; fewer are
merged into the line, and discarded if the line is poisoned. Answers whether the write was discarded. -/
def writeInLine (l off : Nat) (data : List Byte) : Act Bool := do
  if off = 0 ∧ data.length = 32 then
    modify fun s => s.putLine l data false
    pure false
  else
    let p ← readLine l
    if p then pure true
    else
      modify fun s =>
        let old := s.bytes (32 * l) 32
        s.putLine l (old.take off ++ data ++ old.drop (off + data.length)) false
      pure false

/-- Write bytes from address a on, line by line, `fuel` lines at most. Answers whether any write was discarded. -/
def writeBytesAux : Nat → Nat → List Byte → Act Bool
  | 0, _, _ => pure false
  | fuel + 1, a, data =>
    if data.isEmpty then pure false
    else do
      let k := min data.length (32 - a % 32)
      let p ← writeInLine (a / 32) (a % 32) (data.take k)
      let q ← writeBytesAux fuel (a + k) (data.drop k)
      pure (p || q)

/-- Write bytes from address a on. Answers whether any write was discarded for poison (R205). -/
def writeBytes (a : Nat) (data : List Byte) : Act Bool := writeBytesAux (data.length / 32 + 2) a data

/-- Write a line in poisoned form, its stored bytes as they are (R204). -/
def poisonLine (l : Nat) : Act Unit := modify fun s => s.putLine l (s.bytes (32 * l) 32) true

/-- Overwrite n bytes from a with free values: an output range that the manual calls undefined (R66, R88, R136). The
lines are left with valid check symbols. -/
def scramble (a n : Nat) : Act Unit := do
  let bs ← mapA (List.range n) fun _ => freeVal 8
  let _ ← writeBytes a (bs.map (BitVec.ofNat 8))
  pure ()

/-- The module's own writes into an area whose layout the manual leaves open: `n` lines from address `a` on (R117, R348, R358; log 67). -/
def M.overlay (s : M) (a n : Nat) : M :=
  let t := (Config.areaImage s.free).foldl (fun (t : M) (l, v) => t.putLine (a / 32 + l % n) (leBytes 32 v) false) s
  { s with mem := t.mem, chk := t.chk, free := s.free + 1 }

/-- Save the state of a logical core in the switch area of its home slice (R117, R119 to R121, R352), if there are switch areas. What is
restored from there is what was saved. -/
def saveSwitch (core : Nat) : Act Unit := do
  let s ← get
  whenA (bit (s.reg Reg.mgtDoubleCtl) 0) (modify fun s => s.overlay (sliceBase core + 0x7E00000) 0x10000)

/-! ## Passes (R128 to R131) -/

/-- Throw n to pass p of a logical core: answers false, and changes nothing, if the count would exceed 65,535. -/
def throwPass (core p n : Nat) : Act Bool := do
  let c ← rd (Reg.corePassCount core p)
  if c + n > 65535 then pure false
  else do
    wr (Reg.corePassCount core p) (c + n)
    pure true

end Sys2Proof.Machine
end

