-- ==== Sys2Proof/Machine/Operands.lean ====
section
/-! DEFINITION. Operands: tensor descriptors (R143 to R145), element addressing (R36, R144), element values with block
scales and expansion (R37 to R42), exact accumulators and exact records (R69 to R73, R146, R441), and the writing of
views with their packing, their block encoding (R39) and their poison (R206). -/

namespace Sys2Proof.Machine

/-! ## Tensor descriptors -/

/-- A tensor descriptor (Table 06-2). -/
structure TD where
  base : Nat
  fmt : Nat
  exact : Bool
  rows : Nat
  cols : Nat
  trans : Bool
  stride : Nat
  group : Nat
  szpq : Nat
  auxFmt : Nat
  auxBase : Nat
  zpBase : Nat
  tcols : Nat
  tcol0 : Nat
  trow0 : Nat
  deriving DecidableEq, Repr

/-- Word i of a number of 64-bit words. -/
def word64 (x i : Nat) : Nat := trunc 64 (x >>> (64 * i))

/-- Read a descriptor from its 64 bytes. A view whose TCOLS is 0 is a whole tensor (R143). -/
def TD.parse (x : Nat) : TD :=
  let w := word64 x
  let tc := bits (w 5) 31 0
  let cols := bits (w 1) 63 32
  { base := bits (w 0) 41 0, fmt := bits (w 0) 46 42, exact := bit (w 0) 47
    rows := bits (w 1) 31 0, cols := cols
    trans := bit (w 2) 40, stride := bits (w 2) 39 0
    group := bits (w 3) 52 50, szpq := bits (w 3) 49 48, auxFmt := bits (w 3) 46 42, auxBase := bits (w 3) 41 0
    zpBase := bits (w 4) 41 0
    tcols := if tc = 0 then cols else tc
    tcol0 := if tc = 0 then 0 else bits (w 6) 63 32
    trow0 := if tc = 0 then 0 else bits (w 6) 31 0 }

/-- Is the class of an exact tensor L (R146)? -/
def TD.exactL (t : TD) : Bool := t.fmt == 0

/-- Bits of one element. -/
def TD.ebits (t : TD) : Nat := if t.exact then (if t.exactL then 4608 else 768) else elemBits t.fmt t.szpq

/-- Extent of the contiguous dimension, and of the other. -/
def TD.inner (t : TD) : Nat := if t.trans then t.rows else t.cols
/-- Extent of the dimension that STRIDE steps. -/
def TD.outer (t : TD) : Nat := if t.trans then t.cols else t.rows

/-- Does the contiguous dimension run along the block dimension (`kRows`: blocks run along ROWS)? -/
def TD.alongK (t : TD) (kRows : Bool) : Bool := t.trans == kRows

/-- Element slots of one contiguous run: whole bytes for 4-bit, whole groups of four for 6-bit elements (R36), whole
blocks for MX elements stored along their blocks (R38). -/
def TD.slots (t : TD) (kRows : Bool) : Nat :=
  if isMx t.fmt && !t.exact && t.alongK kRows then 32 * ceilDiv t.inner 32
  else if t.ebits = 4 then 2 * ceilDiv t.inner 2
  else if t.ebits = 6 then 4 * ceilDiv t.inner 4
  else t.inner

/-- Bytes of one contiguous run. -/
def TD.runBytes (t : TD) (kRows : Bool) : Nat := ceilDiv (t.slots kRows * t.ebits) 8

/-- Bit address of element (i, j) (R144). -/
def TD.bitAddr (t : TD) (i j : Nat) : Nat :=
  if t.trans then 8 * (t.base + j * t.stride) + i * t.ebits else 8 * (t.base + i * t.stride) + j * t.ebits

/-- Tensor index of element (i, j) (R144). -/
def TD.index (t : TD) (i j : Nat) : Nat := trunc 64 ((t.trow0 + i) * t.tcols + t.tcol0 + j)

/-- Extent along the reduction dimension, and along the other. -/
def TD.kExt (t : TD) (kRows : Bool) : Nat := if kRows then t.rows else t.cols
/-- Extent across the reduction dimension. -/
def TD.oExt (t : TD) (kRows : Bool) : Nat := if kRows then t.cols else t.rows

/-- Address of the scale byte of element (i, j) of an MX view (R144). -/
def TD.scaleAddr (t : TD) (kRows : Bool) (i j : Nat) : Nat :=
  let (k, o) := if kRows then (i, j) else (j, i)
  t.auxBase + o * ceilDiv (t.kExt kRows) 32 + k / 32

/-- Group size G of a LUT4 or SZP view (R40, R41). -/
def TD.groupSize (t : TD) : Nat :=
  match t.group with
  | 1 => 32
  | 2 => 64
  | 3 => 128
  | 4 => 256
  | 5 => t.rows
  | _ => if t.fmt = 0x19 then 128 else t.rows

/-- Ordinal of the table, scale and zero point of element (i, j) (R144). -/
def TD.ordinal (t : TD) (i j : Nat) : Nat := j * ceilDiv t.rows t.groupSize + i / t.groupSize

/-- Bytes of a LUT4 entry. -/
def TD.lutBytes (t : TD) : Nat := elemBits t.auxFmt 0 / 8

/-- Is the element wider than a byte aligned? Narrower elements are aligned to a byte. -/
def TD.aligned (t : TD) : Bool :=
  if t.exact then t.base % 32 == 0 else t.base % (max 1 (elemBits t.fmt t.szpq / 8)) == 0

/-- The auxiliary arrays of a view: (first address, bytes). -/
def TD.auxArrays (t : TD) (kRows : Bool) : List (Nat × Nat) :=
  if t.exact then []
  else if isMx t.fmt then [(t.auxBase, t.oExt kRows * ceilDiv (t.kExt kRows) 32)]
  else if t.fmt = 0x18 then [(t.auxBase, t.cols * ceilDiv t.rows t.groupSize * 16 * t.lutBytes)]
  else if t.fmt = 0x19 then
    let n := t.cols * ceilDiv t.rows t.groupSize
    [(t.auxBase, 2 * n), (t.zpBase, ceilDiv (n * elemBits t.fmt t.szpq) 8)]
  else []

/-- Runs that the element array keeps in memory: where the blocks of an MX view run across STRIDE, the last block keeps its
full footprint (R38, R145). Its padding runs are bounds-checked, and neither read nor written (DESIGN CHOICE, log 59). -/
def TD.runs (t : TD) (kRows : Bool) : Nat :=
  if isMx t.fmt && !t.exact && !t.alongK kRows then 32 * ceilDiv t.outer 32 else t.outer

/-- Bytes of the element array from its first to the end of its footprint. -/
def TD.extent (t : TD) (kRows : Bool) : Nat := (t.runs kRows - 1) * t.stride + t.runBytes kRows

/-- The checks of R145. -/
def TD.ok (t : TD) (kRows : Bool) : Bool :=
  fmtKnown t.fmt && t.aligned && t.stride % 32 == 0 && t.rows != 0 && t.cols != 0 && decide (t.group ≤ 5)
    && (!t.exact || decide (t.fmt ≤ 3))
    && (t.exact || t.fmt != 0x18 || (lutEntryOk t.auxFmt && t.auxBase % 64 == 0))
    && (t.exact || t.fmt != 0x19 || ((t.auxFmt == 2 || t.auxFmt == 3) && t.auxBase % 2 == 0))
    && inRegion t.base (t.extent kRows)
    && (t.auxArrays kRows).all (fun (a, n) => inRegion a n)

/-- Does the view, with its auxiliary arrays, lie in the home slice of a logical core? -/
def TD.inSlice (t : TD) (kRows : Bool) (core : Nat) : Bool :=
  ((t.base, t.extent kRows) :: t.auxArrays kRows).all fun (a, n) =>
    decide (sliceBase core ≤ a) && decide (a + n ≤ sliceBase core + sliceSize)

/-- Is any part of the view in the far store? -/
def TD.far (t : TD) (kRows : Bool) : Bool := ((t.base, 0) :: t.auxArrays kRows).any fun (a, _) => inFar a

/-- The lines of a view and of its auxiliary arrays, without repeats, in rising order within each run. -/
def TD.lines (t : TD) (kRows : Bool) : List Nat :=
  let runs := (List.range t.outer).flatMap fun o => linesOf (t.base + o * t.stride) (t.runBytes kRows)
  (runs ++ (t.auxArrays kRows).flatMap fun (a, n) => linesOf a n).eraseDups

/-! ## Element values -/

/-- The w bits at a bit address. -/
def M.bitsAt (s : M) (a w : Nat) : Nat :=
  trunc w (s.num (a / 8) (ceilDiv (a % 8 + w) 8) >>> (a % 8))

/-- The code of element (i, j). -/
def M.code (s : M) (t : TD) (i j : Nat) : Nat := s.bitsAt (t.bitAddr i j) t.ebits

/-- The value that code c has as element (i, j) of a view, expanded and scaled (R37, R40 to R42). -/
def M.elemOf (s : M) (t : TD) (kRows : Bool) (i j c : Nat) : Val :=
  if isMx t.fmt then decodeMx t.fmt c (s.byte (t.scaleAddr kRows i j)).toNat
  else if t.fmt = 0x18 then
    decodeElem t.auxFmt (s.num (t.auxBase + (16 * t.ordinal i j + c) * t.lutBytes) t.lutBytes)
  else if t.fmt = 0x19 then
    let f := szpCodeFmt t.szpq
    let w := elemBits t.fmt t.szpq
    let z := s.bitsAt (8 * t.zpBase + w * t.ordinal i j) w
    expandSzp (intValue f c - intValue f z) (decodeElem t.auxFmt (s.num (t.auxBase + 2 * t.ordinal i j) 2))
  else decodeElem t.fmt c

/-- The value of element (i, j) of a view. -/
def M.elem (s : M) (t : TD) (kRows : Bool) (i j : Nat) : Val := s.elemOf t kRows i j (s.code t i j)

/-- The lines that hold element (i, j) and what its value depends on. -/
def TD.elemLines (t : TD) (kRows : Bool) (i j : Nat) : List Nat :=
  let a := t.bitAddr i j
  linesOf (a / 8) (ceilDiv (a % 8 + t.ebits) 8) ++
    (if t.exact then []
     else if isMx t.fmt then [t.scaleAddr kRows i j / 32]
     else if t.fmt = 0x18 then linesOf (t.auxBase + 16 * t.ordinal i j * t.lutBytes) (16 * t.lutBytes)
     else if t.fmt = 0x19 then
       [(t.auxBase + 2 * t.ordinal i j) / 32, (t.zpBase + t.ordinal i j * elemBits t.fmt t.szpq / 8) / 32]
     else [])

/-- The lines that hold the code of element (i, j). -/
def TD.codeLines (t : TD) (i j : Nat) : List Nat :=
  let a := t.bitAddr i j
  linesOf (a / 8) (ceilDiv (a % 8 + t.ebits) 8)

/-- All positions of a view, in row order. -/
def TD.cells (t : TD) : List (Nat × Nat) := (List.range t.rows).flatMap fun i => (List.range t.cols).map fun j => (i, j)

/-- Does element (i, j) depend on one of the poisoned lines? -/
def TD.elemBad (t : TD) (kRows : Bool) (bad : List Nat) (i j : Nat) : Bool :=
  !bad.isEmpty && (t.elemLines kRows i j).any fun l => bad.contains l

/-! ## Exact accumulators (R56, R69 to R73, R441) -/

/-- The class offset of Table 03-2. -/
def SlotClass.off : SlotClass → Nat
  | .s => 32
  | .w => 298
  | .l => 2148
  | .a7 => 0

/-- The slot class of a product class. -/
def PClass.slot : PClass → SlotClass
  | .s => .s
  | .w => .w
  | .l => .l

/-- Is the term −0? -/
def Val.isNegZero : Val → Bool
  | .fin s m _ => s && m == 0
  | _ => false

/-- The integer, at offset `off`, that a term adds to the bands: 0 for every special term (R69). -/
def Val.atOff (v : Val) (off : Nat) : Int :=
  match v with
  | .fin s m q => signedMant s (if q + off ≥ 0 then m <<< (q + off).toNat else m >>> (-(q + off)).toNat)
  | _ => 0

/-- The side state after one more term (Table 03-7). -/
def Side.add (d : Side) (v : Val) : Side where
  nan := d.nan || v == .nan
  invalid := d.invalid || v == .invalid
  pinf := d.pinf || v == .inf false
  ninf := d.ninf || v == .inf true
  negzero := if d.anyterm then d.negzero && v.isNegZero else v.isNegZero
  anyterm := true

/-- One more term. -/
def ExAcc.add (a : ExAcc) (off : Nat) (v : Val) : ExAcc := ⟨a.sum + v.atOff off, a.side.add v⟩

/-- Is a record −0 as a part of R441? -/
def Side.merge (a b : Side) : Side where
  nan := a.nan || b.nan
  invalid := a.invalid || b.invalid
  pinf := a.pinf || b.pinf
  ninf := a.ninf || b.ninf
  negzero := (a.anyterm || b.anyterm) && (!a.anyterm || a.negzero) && (!b.anyterm || b.negzero)
  anyterm := a.anyterm || b.anyterm

/-- Two exact records of one class added (R441). -/
def ExAcc.merge (a b : ExAcc) : ExAcc := ⟨a.sum + b.sum, a.side.merge b.side⟩

/-- The sum of the terms of a list. -/
def ExAcc.ofTerms (off : Nat) (vs : List Val) : ExAcc := vs.foldl (fun a v => a.add off v) {}

/-- The value of an accumulator for a rounding: what Table 03-8 makes of it. -/
def ExAcc.val (a : ExAcc) (off : Nat) (mode : RMode) : Val :=
  if a.side.nan || a.side.invalid then .nan
  else if a.side.pinf && a.side.ninf then .nan
  else if a.side.pinf then .inf false
  else if a.side.ninf then .inf true
  else if a.sum = 0 then .fin (a.side.negzero || (mode == .rdn && a.side.anyterm)) 0 0
  else .ofDyadic a.sum (-(off : Int))

/-- The flags that side state sets at drain (R71, Table 03-9); `noNan`: the output format has no NaN code (R33), and a NaN
is written. INVALID is set by invalid and by infinities of both signs, whichever row of Table 03-8 settles the result (log 42). -/
def Side.drainFlags (d : Side) (noNan : Bool) : Flags :=
  let both := d.pinf && d.ninf
  let nan := d.nan || d.invalid || both
  { nanIn := d.nan || (nan && noNan), invalid := d.invalid || both, infIn := d.pinf || d.ninf }

/-- Has the format a NaN code? -/
def fmtHasNan (fmt : Nat) : Bool :=
  match Fp.ofCode fmt with
  | some f => f.hasNan
  | none => isMx fmt

/-- Round an accumulator once to a format that is no MX format (R71 to R73). -/
def ExAcc.round (a : ExAcc) (off fmt : Nat) (mode : RMode) (r : Nat) : Nat × Flags :=
  let (c, fl) := castVal fmt (a.val off mode) mode r
  let d := a.side
  if d.nan || d.invalid || (d.pinf && d.ninf) then (c, d.drainFlags (!fmtHasNan fmt))
  else (c, fl.join (d.drainFlags false))

/-- Bands of an exact class: 10 for W, 68 for L. -/
def exBands (isL : Bool) : Nat := if isL then 68 else 10
/-- Offset of an exact class. -/
def exOff (isL : Bool) : Nat := if isL then 2148 else 298
/-- Bytes of an exact record (R146). -/
def exBytes (isL : Bool) : Nat := if isL then 576 else 96

/-- The side-state byte of R146. -/
def Side.toNat (d : Side) : Nat :=
  b2n d.nan + 2 * b2n d.invalid + 4 * b2n d.pinf + 8 * b2n d.ninf + 16 * b2n d.negzero + 32 * b2n d.anyterm

/-- The side state that a byte of R146 holds. -/
def Side.ofNat (n : Nat) : Side := ⟨bit n 0, bit n 1, bit n 2, bit n 3, bit n 4, bit n 5⟩

/-- The exact record as a number of its bytes. -/
def ExAcc.encode (a : ExAcc) (isL : Bool) : Nat :=
  let w := 64 * exBands isL
  ofSigned w a.sum + a.side.toNat <<< w

/-- The exact record that a number of its bytes holds. -/
def ExAcc.decode (isL : Bool) (x : Nat) : ExAcc :=
  let w := 64 * exBands isL
  ⟨toSigned w x, Side.ofNat (x >>> w % 256)⟩

/-- The exact record at element (i, j) of an exact tensor. -/
def M.exact (s : M) (t : TD) (i j : Nat) : ExAcc := ExAcc.decode t.exactL (s.code t i j)

/-- An accumulator of value equal to a value, for writing into an exact tensor (R167). -/
def ExAcc.ofVal (off : Nat) (v : Val) : ExAcc := ({} : ExAcc).add off v

/-- Move an accumulator from offset `a` to offset `b` ≥ a. -/
def ExAcc.widen (x : ExAcc) (a b : Nat) : ExAcc := ⟨x.sum <<< (b - a), x.side⟩

/-! ## Writing views -/

/-- Write `len` bits of `v` at a bit address, line by line: a line that `bad` names is written poisoned, a whole line
forms a new codeword, part of a line, poisoned or not, is merged into a line that is read for it and is not poisoned (R205).
Answers whether a write was discarded. -/
def writeRunAux : Nat → Nat → Nat → Nat → List Nat → Act Bool
  | 0, _, _, _, _ => pure false
  | fuel + 1, a, len, v, bad =>
    if len = 0 then pure false
    else do
      let l := a / 256
      let lo := a % 256
      let k := min len (256 - lo)
      let put (p : Bool) : Act Unit := modify fun s =>
        s.putLine l (leBytes 32 (setBits (s.num (32 * l) 32) (lo + k - 1) lo v)) p
      let d ← if k = 256 then do put (bad.contains l); pure false
              else do
                let p ← readLine l
                if p then pure true else do put (bad.contains l); pure false
      let d' ← writeRunAux fuel (a + k) (len - k) (v >>> k) bad
      pure (d || d')

/-- Write `len` bits at a bit address. -/
def writeRun (a len v : Nat) (bad : List Nat) : Act Bool := writeRunAux (len / 256 + 2) a len v bad

/-- The bits of a list of codes of w bits, the first lowest. -/
def packCodes (w : Nat) : List Nat → Nat
  | [] => 0
  | c :: cs => trunc w c + packCodes w cs <<< w

/-- Is the whole run written, slots beyond the extent as zero (R36)? So it is where the view reaches the end of its
row; the slots beyond a view inside a wider tensor are that tensor's. DESIGN CHOICE (log 59): with TRANS = 1 the descriptor gives
no row count of the whole tensor, and a view is taken to reach the end of its run. -/
def TD.padRun (t : TD) : Bool := t.trans || decide (t.tcol0 + t.cols ≥ t.tcols)

/-- Write the codes of a view; lines in `bad` are written poisoned. Answers whether a write was discarded. -/
def writeCodes (t : TD) (kRows : Bool) (code : Nat → Nat → Nat) (bad : List Nat) : Act Bool := do
  let n := if t.padRun then t.slots kRows else t.inner
  let ds ← mapA (List.range t.outer) fun o =>
    let cs := (List.range t.inner).map fun x => if t.trans then code x o else code o x
    writeRun (8 * (t.base + o * t.stride)) (n * t.ebits) (packCodes t.ebits cs) bad
  pure (ds.any id)

/-- The lines of the elements of a view for which a condition holds. -/
def TD.linesWhere (t : TD) (kRows : Bool) (p : Nat → Nat → Bool) : List Nat :=
  ((List.range t.rows).flatMap fun i => (List.range t.cols).flatMap fun j =>
    if p i j then t.elemLines kRows i j else []).eraseDups

/-- Positions (i, j) of block b at index o. -/
def blockIdx (kRows : Bool) (o b x : Nat) : Nat × Nat := if kRows then (32 * b + x, o) else (o, 32 * b + x)

/-- Round a view of values once each and write it (R50, R39). `sr` gives the stochastic word of an element by its
tensor index; `depends` says whether an element depends on a poisoned line. Answers the flags, and whether a line was
written poisoned or a write discarded. -/
def writeVals (t : TD) (kRows : Bool) (vals : Nat → Nat → Val) (mode : RMode) (sr : Nat → Nat)
    (depends : Nat → Nat → Bool) : Act (Flags × Bool) := do
  let word := fun i j => if mode = .sr then sr (t.index i j) else 0
  if isMx t.fmt then
    let nb := ceilDiv (t.kExt kRows) 32
    let enc := (List.range (t.oExt kRows)).map fun o => (List.range nb).map fun b =>
      let ps := ((List.range 32).map (blockIdx kRows o b)).filter fun (i, j) => decide (i < t.rows) && decide (j < t.cols)
      let vs := ps.map fun (i, j) => vals i j
      encodeMxBlock t.fmt (vs ++ List.replicate (32 - vs.length) Val.zero) mode (ps.map fun (i, j) => word i j)
    let at' := fun o b => (enc.getD o []).getD b (0, [], Flags.none)
    let blockBad := fun o b => (List.range 32).any fun x =>
      let (i, j) := blockIdx kRows o b x
      decide (i < t.rows) && decide (j < t.cols) && depends i j
    let ob := fun i j => if kRows then (j, i / 32) else (i, j / 32)
    let bad := t.linesWhere kRows fun i j => blockBad (ob i j).1 (ob i j).2
    let code := fun i j =>
      let (o, b) := ob i j
      (at' o b).2.1.getD ((if kRows then i else j) % 32) 0
    let d ← writeCodes t kRows code bad
    let d' ← writeRun (8 * t.auxBase) (8 * nb * t.oExt kRows) (packCodes 8 ((enc.flatMap id).map Prod.fst)) bad
    pure (Flags.joinAll ((enc.flatMap id).map fun e => e.2.2), !bad.isEmpty || d || d')
  else
    let bad := t.linesWhere kRows depends
    let enc := (List.range t.rows).map fun i => (List.range t.cols).map fun j =>
      castVal t.fmt (vals i j) mode (word i j)
    let code := fun i j => ((enc.getD i []).getD j (0, Flags.none)).1
    let d ← writeCodes t kRows code bad
    pure (Flags.joinAll ((enc.flatMap id).map Prod.snd), !bad.isEmpty || d)

/-- Write exact records to a view. -/
def writeExact (t : TD) (acc : Nat → Nat → ExAcc) (depends : Nat → Nat → Bool) : Act Bool := do
  let bad := t.linesWhere false depends
  let d ← writeCodes t false (fun i j => (acc i j).encode t.exactL) bad
  pure (!bad.isEmpty || d)

/-- Output range of a view: its element array and its auxiliary arrays. -/
def TD.range (t : TD) (kRows : Bool) : List (Nat × Nat) :=
  ((List.range t.outer).map fun o => (t.base + o * t.stride, t.runBytes kRows)) ++
    (if isMx t.fmt && !t.exact then t.auxArrays kRows else [])

end Sys2Proof.Machine
end

