-- ==== Sys2Proof/Machine/Play.lean ====
section
/-! DEFINITION. Plays (chapter 07): the control word, the sequencer, address generators, working entries, the datapath
operations with their latencies, suppression, and hazard watch. A play is run cycle by cycle. -/

namespace Sys2Proof.Machine

/-! ## The control word (Table 07-2) and its sequencer -/

/-- SEQ of a control word. -/
def cwSeq (w : Nat) : Nat := bits w 127 124

/-- The count that a control word names (Table 07-2). A reserved code is refused by no check (R173): its count is open, a free
value (log 47). -/
def cwCount (pr : List Nat) (w : Nat) : Nat :=
  let c := bits w 123 112
  if c < 0xF00 then c + 1 else if c < 0xF10 then pr.getD (c - 0xF00) 0 else trunc 32 (Config.playCount c)

/-- Play cycles to END: the open loops' sums so far, innermost first, each with its count; a LOOP and a LOOP_END take
one cycle in each iteration, a count of 0 takes one cycle (Table 07-3). An END before the last word ends the play there, unless
a loop of count 0 skips it. -/
def playCyclesAux (pr : List Nat) : List Nat → List (Nat × Nat) → Nat
  | [], (n, _) :: _ => n
  | [], [] => 0
  | w :: ws, (n, c) :: st =>
    match cwSeq w with
    | 0 => playCyclesAux pr ws ((n + 1, c) :: st)
    | 1 => playCyclesAux pr ws ((n + max 1 (cwCount pr w), c) :: st)
    | 2 => playCyclesAux pr ws ((1, cwCount pr w) :: (n, c) :: st)
    | 3 =>
      match st with
      | (m, d) :: st' => playCyclesAux pr ws ((m + (if c = 0 then 1 else c * (n + 1)), d) :: st')
      | [] => n
    | _ => if c = 0 ∨ st.any (fun x => x.2 == 0) then playCyclesAux pr ws ((n + 1, c) :: st) else n + 1 + (st.map Prod.fst).sum
  | _ :: _, [] => 0

/-- Play cycles from 0 through the one in which END executes. -/
def playCycles (pr body : List Nat) : Nat := playCyclesAux pr body [(0, 1)]

/-- The word after the LOOP_END that matches the LOOP before the list; `d` loops are open, `i` is the index of the
first word of the list. -/
def afterLoopEnd : List Nat → Nat → Nat → Nat
  | [], _, i => i
  | w :: ws, d, i =>
    if cwSeq w = 2 then afterLoopEnd ws (d + 1) (i + 1)
    else if cwSeq w = 3 then (if d = 0 then i + 1 else afterLoopEnd ws (d - 1) (i + 1))
    else afterLoopEnd ws d (i + 1)

/-- Structure of a body (ERROR 3): the last word is END, loops match and nest at most four deep, SEQ is defined. -/
def playShapeOk : List Nat → Nat → Bool
  | [], _ => false
  | [w], d => cwSeq w == 4 && d == 0
  | w :: ws, d =>
    match cwSeq w with
    | 0 => playShapeOk ws d
    | 1 => playShapeOk ws d
    | 2 => decide (d < 4) && playShapeOk ws (d + 1)
    | 3 => decide (0 < d) && playShapeOk ws (d - 1)
    | 4 => playShapeOk ws d
    | _ => false

/-- Does a defined field of the word hold a code that Table 07-5 reserves for engine e, or R445 excludes (ERROR 5; R173)? A
reserved SEQ is ERROR 3 already (`playShapeOk`); COUNT's reserved codes are those of Table 07-2, which raise no error. -/
def cwReserved (e w : Nat) : Bool :=
  let dp := bits w 63 0
  let op := bits dp 63 58
  let fmtBad := !fmtKnown (bits dp 45 41)
  match e with
  | 0 => decide (op > 4) || (op != 0 && fmtBad)
  | 1 => bits dp 63 62 == 3
  | 2 => decide (op > 13) || (op != 0 && (decide (bits dp 39 35 > 3) || decide (bits dp 34 32 > 4)))
           || (decide (7 ≤ op) && decide (op ≤ 10) && bits dp 39 35 != 1)
  | _ => decide (op > 5) || (op != 0 && fmtBad)

/-- Does the body draw random words by itself: a word of the V engine that rounds stochastically (R174)? -/
def playDraws (e : Nat) (body : List Nat) : Bool :=
  e == 2 && body.any fun w =>
    let op := bits w 63 58
    decide (1 ≤ op) && decide (op ≤ 10) && bits w 34 32 == 4

/-! ## The state of a running play -/

/-- One half of a working entry: its 256 bytes as a number, its format tag (R445), the mask of its lines that depend on
a poisoned line, and what hazard watch knows of it (R184): written by the macro-op, not read since, by a word with DEAD;
`src`: the descriptor and address that an address generator read it from. -/
structure Half where
  val : Nat := 0
  tag : Option Nat := none
  taint : Nat := 0
  written : Bool := false
  unread : Bool := false
  dead : Bool := false
  src : Option (Nat × Nat) := none
  deriving DecidableEq, Repr

/-- A write to a half that is not yet visible. -/
structure Pend where
  issued : Nat
  vis : Nat
  lat : Nat
  prio : Nat
  tgt : Nat
  half : Half
  idle : Bool
  deriving DecidableEq, Repr

/-- A write to a line that is not yet visible. -/
structure LinePend where
  issued : Nat
  vis : Nat
  prio : Nat
  line : Nat
  val : Nat
  taint : Bool
  dead : Bool
  deriving DecidableEq, Repr

/-- A hazard: kind, whether its target is a line, the target, the play cycle (Table 07-10). -/
structure Hazard where
  kind : Nat
  line : Bool
  target : Nat
  cycle : Nat
  deriving DecidableEq, Repr

/-- What a play has: the sequencer, the address generators, the halves by entry × 2 + half, writes in flight, what hazard
watch knows of the lines that the play wrote (0: nothing or read; 1: unread; 2: unread, and DEAD), the halves and lines that
the word of this cycle reads, and what it has found. -/
structure PlaySt where
  cyc : Nat := 0
  pc : Nat := 0
  rep : Nat := 0
  /-- open loops, innermost first: index of the LOOP word, iterations left after this one, marks -/
  loops : List (Nat × Nat × List Nat) := []
  ag : List Nat
  halves : Tab Half := []
  pend : List Pend := []
  lpend : List LinePend := []
  lineUnread : Tab Nat := []
  took : List Nat := []
  tookL : List Nat := []
  flags : Flags := {}
  poison : Bool := false
  hazards : List Hazard := []
  ended : Option Nat := none
  lastVis : Nat := 0
  suppressed : Nat := 0
  beatsRead : Nat := 0
  beatsWritten : Nat := 0

/-- A half that the macro-op has not written. -/
def Half.init (_ : Nat) : Half := {}

/-- What is fixed while a play runs: core, engine, body, parameter registers, descriptors, hazard setting, the record's rounding
mode, and for stochastic rounding the AG writes to come: (cycle, half, descriptor, first byte address). -/
structure PlayEnv where
  core : Nat
  eng : Nat
  body : List Nat
  pr : List Nat
  tds : List (Option TD)
  haz : Nat
  mode : RMode
  seed : Nat
  step : Nat
  stream : Nat
  writes : List (Nat × Nat × Nat × Nat)

/-- Does line l hold an element of a view that the record names (R178)? -/
def TD.holdsLine (t : TD) (l : Nat) : Bool :=
  let lo := 32 * l
  let n := t.runBytes false
  if n = 0 ∨ lo + 32 ≤ t.base then false
  else if t.stride = 0 then decide (lo < t.base + n)
  else
    let d := lo + 31 - t.base
    let o := min (d / t.stride) (t.outer - 1)
    (decide (lo < t.base + o * t.stride + n) && decide (t.base + o * t.stride < lo + 32)) ||
      (decide (0 < o) && decide (lo < t.base + (o - 1) * t.stride + n))

/-- Is a line suppressed: does no view of the record hold it? -/
def PlayEnv.suppress (v : PlayEnv) (l : Nat) : Bool :=
  !(v.tds.any fun t => match t with | some t => t.holdsLine l | none => false)

/-- Strides S1 and S2 of address generator n (R172). -/
def PlayEnv.stride (v : PlayEnv) (n k : Nat) : Nat :=
  match k with
  | 1 => 256
  | 2 => match v.tds.getD n none with | some t => t.stride | none => 0
  | 3 => 256 * v.pr.getD (7 + n) 0
  | _ => 0

/-! ## Lanes -/

/-- Lane i of w bits of a half. -/
def lane (v w i : Nat) : Nat := trunc w (v >>> (w * i))

/-- Lines (as a mask of 8) of a result half of db-bit lanes that depend on the lines in `m` of a source half of
sb-bit lanes. -/
def spreadTaint (m sb db : Nat) : Nat :=
  if m = 0 then 0
  else
    let n := min (2048 / sb) (2048 / db)
    (List.range 8).foldl (fun a d =>
      let lo := 256 * d / db
      let hi := min n (ceilDiv (256 * (d + 1)) db)
      let hit := (List.range 8).any fun s => bit m s && decide (sb * lo < 256 * (s + 1)) && decide (256 * s < sb * hi)
      if hit && decide (lo < hi) then a + 2 ^ d else a) 0

/-- A lane-by-lane operation from lanes of sb bits to lanes of db bits. -/
def mapLanes (sb db : Nat) (f : Nat → Nat × Flags) : Nat × Flags :=
  let rs := (List.range (min (2048 / sb) (2048 / db))).map f
  (packCodes db (rs.map Prod.fst), Flags.joinAll (rs.map Prod.snd))

/-- The stochastic word of a lane: that of the output element which the lane writes at its next address-generator write
(R174). -/
def PlayEnv.srWord (v : PlayEnv) (cyc half byteOff : Nat) : Nat :=
  match v.writes.find? (fun (c, h, _, _) => decide (cyc ≤ c) && h == half) with
  | none => 0
  | some (_, _, d, a) =>
    match v.tds.getD d none with
    | none => 0
    | some t =>
      let off := a + byteOff - t.base
      let o := if t.stride = 0 then 0 else off / t.stride
      let x := (off - o * t.stride) * 8 / max 1 t.ebits
      rngWord v.seed v.step v.stream (if t.trans then t.index x o else t.index o x)

/-- One V arithmetic operation on decoded values (add, sub, mul, max, min, exp, tanh, rcp, rsqrt). -/
def vArith (op : Nat) (mode : RMode) (a b : Val) : Val :=
  match op with
  | 1 => a.add (mode == .rdn) b
  | 2 => a.add (mode == .rdn) b.neg
  | 3 => a.mul b
  | 4 => a.maxMin true b
  | 5 => a.maxMin false b
  | 7 => expVal a
  | 8 => tanhVal a
  | 9 => (Val.fin false 1 0).div a
  | 10 => rsqrtVal a
  | _ => a

/-- One V half-operation other than a cast: the result half's bits, flags and taint. -/
def vHalf (v : PlayEnv) (cyc half op fmt rm : Nat) (a b : Half) : Nat × Flags × Nat :=
  let mode := (RMode.ofCode rm).getD .rne
  let w := elemBits fmt 0
  let sr := fun i => if mode = .sr then v.srWord cyc half (w / 8 * i) else 0
  if op = 13 then (0, {}, 0)
  else if op = 12 then
    let p := v.pr.getD 6 0
    let c := if fmt = 0 then (rnd64 (f32 p)).1 else trunc w p
    (packCodes w (List.replicate (2048 / w) c), {}, 0)
  else
    let (x, fl) := mapLanes w w fun i =>
      castVal fmt (vArith op mode (decodeElem fmt (lane a.val w i)) (decodeElem fmt (lane b.val w i))) mode (sr i)
    (x, fl, a.taint ||| (if op ≤ 5 then b.taint else 0))

/-- Number of half sources of a V operation: 0 for broadcast and zero, 1 or 2. -/
def vSources (op : Nat) : Nat := if op = 12 ∨ op = 13 then 0 else if 1 ≤ op ∧ op ≤ 5 then 2 else 1

/-- Latency of a V operation (Table 07-6). -/
def vLatency (op fmt : Nat) : Nat := if 7 ≤ op ∧ op ≤ 10 then 12 else if fmt = 0 then 6 else 4

/-! ## One play cycle -/

/-- Half h as it stands. -/
def PlaySt.half (p : PlaySt) (h : Nat) : Half := Tab.read Half.init p.halves h

/-- Report a hazard. -/
def PlaySt.hazard (p : PlaySt) (kind : Nat) (line : Bool) (target : Nat) : PlaySt :=
  { p with hazards := p.hazards ++ [⟨kind, line, target, p.cyc⟩] }

/-- Is a write to half h, issued before this cycle by a half-operation that was not idle, still to become visible? -/
def PlaySt.pendingHalf (p : PlaySt) (h : Nat) : Bool :=
  p.pend.any fun q => q.tgt == h && !q.idle && decide (q.issued < p.cyc)

/-- Has the macro-op neither written half h, nor a write to it pending (UNWRITTEN of Table 07-10)? -/
def PlaySt.unwritten (p : PlaySt) (h : Nat) : Bool := !(p.half h).written && !p.pendingHalf h

/-- Take a read of half h: a pending write makes it READ_EARLY, unless the half holds a visible value that no read has taken
(log 43); an unwritten half is UNWRITTEN, except for an idle half-operation. -/
def PlaySt.readHalf (p : PlaySt) (h : Nat) (idle : Bool) : PlaySt :=
  let x := p.half h
  let p := if p.pendingHalf h && !(x.written && x.unread) then p.hazard 1 false h else p
  let p := if p.unwritten h && !idle then p.hazard 3 false h else p
  { p with took := h :: p.took }

/-- Land writes of one cycle, the winner of each half last (R177): a value written over unread, and a write lost, are hazards
unless DEAD; an idle half-operation leaves its half as if unwritten (R184). -/
def landList : List Pend → PlaySt → PlaySt
  | [], p => p
  | q :: rest, p =>
    let x := p.half q.tgt
    if rest.any fun r => r.tgt == q.tgt then
      landList rest (if !q.idle && !q.half.dead then p.hazard 2 false q.tgt else p)
    else
      let p := if !q.idle && x.unread && !x.dead then p.hazard 2 false q.tgt else p
      let y := if q.idle then { q.half with written := false, unread := false } else q.half
      landList rest { p with halves := Tab.put Half.init p.halves q.tgt y }

/-- The writes to halves that become visible in this cycle take effect, the one of lower latency, then of higher
precedence, last (R177). -/
def PlaySt.landHalves (p : PlaySt) : PlaySt :=
  let now := (p.pend.filter fun q => q.vis == p.cyc).mergeSort fun a b =>
    decide (a.lat > b.lat) || (a.lat == b.lat && decide (a.prio ≤ b.prio))
  landList now { p with pend := p.pend.filter fun q => q.vis != p.cyc }

/-- What hazard watch knows of a line that the play wrote. -/
def PlaySt.lineState (p : PlaySt) (l : Nat) : Nat := Tab.read (fun _ => 0) p.lineUnread l

/-- Home-slice line index of a line, for hazard targets. -/
def homeLine (core l : Nat) : Nat := l - sliceBase core / 32

/-- Does a line lie in the core's home slice? Hazard watch sees no other line (R184). -/
def inHomeLine (core l : Nat) : Bool := decide (sliceBase core ≤ 32 * l) && decide (32 * l < sliceBase core + sliceSize)

/-- Note writes of lines that become visible, the winner of each line last, as `landList` does for halves. -/
def noteLines (core : Nat) : List LinePend → PlaySt → PlaySt
  | [], p => p
  | q :: rest, p =>
    let lost := rest.any fun r => r.line == q.line
    let bad := if lost then !q.dead else p.lineState q.line == 1
    let p := if bad && inHomeLine core q.line then p.hazard 2 true (homeLine core q.line) else p
    if lost then noteLines core rest p
    else noteLines core rest { p with lineUnread := Tab.put (fun _ => 0) p.lineUnread q.line (if q.dead then 2 else 1) }

/-- The writes to lines that become visible in this cycle take effect in memory. -/
def landLines (core : Nat) (p : PlaySt) : Act PlaySt := do
  let now := (p.lpend.filter fun q => q.vis == p.cyc).mergeSort fun a b => decide (a.prio ≤ b.prio)
  forA now fun q => modify fun s => s.putLine q.line (leBytes 32 q.val) q.taint
  pure (noteLines core now { p with lpend := p.lpend.filter fun q => q.vis != p.cyc })

/-- The address generator's beat of this cycle (R172, R173, R178, R447): n its number, c its 12 control bits. -/
def agAccess (v : PlayEnv) (dead : Bool) (n c : Nat) (p : PlaySt) : Act PlaySt := do
  if !bit c 11 then pure p
  else
    let a := if bit c 7 then (match p.loops with | (_, _, m) :: _ => m.getD n 0 | [] => p.ag.getD n 0) else p.ag.getD n 0
    let h := 2 * bits c 5 0 + b2n (bit c 6)
    let ls := List.range' (a / 32) 8
    let sup := ls.map v.suppress
    let p := { p with ag := p.ag.set n (trunc 42 (a + v.stride n (bits c 9 8))) }
    let p := if sup.any id then { p with suppressed := p.suppressed + 1 } else p
    let p := if sup.all id then p.hazard 4 false h else p
    let home := inHomeLine v.core
    if bit c 10 then
      let p := p.readHalf h false
      let x := p.half h
      let lp := (List.range 8).filterMap fun k =>
        if sup.getD k true then none
        else
          let l := a / 32 + k
          some ({ issued := p.cyc, vis := p.cyc + (if home l then 3 else 1), prio := n, line := l,
                  val := lane x.val 256 k, taint := bit x.taint k, dead := dead } : LinePend)
      let p := { p with beatsWritten := p.beatsWritten + 1, lpend := p.lpend ++ lp }
      pure { p with poison := p.poison || lp.any (·.taint),
                    lastVis := max p.lastVis (lp.foldl (fun m q => max m q.vis) 0) }
    else
      let live := (List.range 8).filter fun k => !(sup.getD k true)
      let bad ← readLines (live.map fun k => a / 32 + k)
      let s ← get
      let val := live.foldl (fun acc k => acc + s.num (32 * (a / 32 + k)) 32 <<< (256 * k)) 0
      let taint := live.foldl (fun m k => if bad.contains (a / 32 + k) then m + 2 ^ k else m) 0
      let p := live.foldl (fun p k =>
        let l := a / 32 + k
        let early := p.lpend.any fun q => q.line == l && decide (q.issued < p.cyc) && decide (q.vis > p.cyc)
        let p := if early && home l && p.lineState l == 0 then p.hazard 1 true (homeLine v.core l) else p
        { p with tookL := l :: p.tookL }) p
      let tag := match v.tds.getD n none with | some t => some t.fmt | none => none
      let q : Pend := { issued := p.cyc, vis := p.cyc + 5, lat := 5, prio := n + 1, tgt := h,
                        half := { val := val, tag := tag, taint := taint, written := true, unread := true, dead := dead,
                                  src := some (n, 32 * (a / 32)) }, idle := false }
      pure { p with beatsRead := p.beatsRead + 1, pend := p.pend ++ [q], poison := p.poison || taint != 0,
                    lastVis := max p.lastVis q.vis }

/-- Does a code of the format have a value of its own: no table, zero point or block scale? -/
def plainFmt (f : Nat) : Bool := !isMx f && f != 0x18 && f != 0x19

/-- The value of lane i of a half, by its tag (R445). A code that needs a table, a scale and zero point or a block scale takes
that of its element, whose place follows from the descriptor and the address that the half was read from. -/
def M.laneVal (s : M) (t : TD) (addr : Nat) (a : Half) (i : Nat) : Val :=
  let off := addr + i * t.ebits / 8 - t.base
  let o := if t.stride = 0 then 0 else off / t.stride
  let k := ((addr - t.base - o * t.stride) * 8 + i * t.ebits) / t.ebits
  s.elemOf t false (if t.trans then k else o) (if t.trans then o else k) (lane a.val t.ebits i)

/-- The lanes of a half cast to `fmt`: bits, flags, taint. None where the spec states no value: a result format that a cast
does not have, or codes whose table or scale nothing places (log 45). -/
def castHalf (s : M) (v : PlayEnv) (fmt : Nat) (mode : RMode) (sr : Nat → Nat) (a : Half) : Option (Nat × Flags × Nat) :=
  match a.tag with
  | none => some (0, {}, 0)
  | some t =>
    let w := elemBits fmt 0
    if !(fmtOutput fmt && plainFmt fmt) then none
    else if plainFmt t then
      let sb := elemBits t 0
      let (x, fl) := mapLanes sb w fun i => castVal fmt (decodeElem t (lane a.val sb i)) mode (sr i)
      some (x, fl, spreadTaint a.taint sb w)
    else
      match a.src with
      | none => none
      | some (d, addr) =>
        match v.tds.getD d none with
        | none => none
        | some t =>
          let (x, fl) := mapLanes t.ebits w fun i => castVal fmt (s.laneVal t addr a i) mode (sr i)
          some (x, fl, spreadTaint a.taint t.ebits w)

/-- A result that a half-operation leaves in its destination: bits, flags, taint, tag, where it was read from, latency. -/
abbrev DpRes := Nat × Flags × Nat × Option Nat × Option (Nat × Nat) × Nat

/-- The result of a cast or expansion of half `a` to `fmt`; where the spec states no value (`castHalf` is none) the bits are a
free value, one function of the operation, the formats and the source bits, so that equal inputs give equal bits (R87). -/
def castRes (eng op fmt lat : Nat) (a : Half) : Option (Nat × Flags × Nat) → DpRes
  | some (x, fl, t) => (x, fl, t, some fmt, none, lat)
  | none => (trunc 2048 (Config.castCode eng op fmt (a.tag.getD 0x20) a.val), {}, a.taint, some fmt, none, lat)

/-- The result of a move: bits, tag and origin of the source. -/
def movedRes (lat : Nat) (a : Half) : DpRes := (a.val, {}, a.taint, a.tag, a.src, lat)

/-- What the half-operation of a DP field makes of its sources a and b (R174, R445). F and S operations round under the
record's RMODE, V operations under their own. -/
def dpRes (s : M) (v : PlayEnv) (dp hf cyc : Nat) (a b : Half) : DpRes :=
  let op := bits dp 63 58
  let sr := fun (mode : RMode) fmt i => if mode = .sr then v.srWord cyc hf (elemBits fmt 0 / 8 * i) else 0
  if v.eng = 2 then
    let f := bits dp 39 35
    let rm := bits dp 34 32
    let mode := (RMode.ofCode rm).getD .rne
    if op = 11 then movedRes (vLatency op f) a
    else if op = 6 then castRes 2 op f (vLatency op f) a (castHalf s v f mode (sr mode f) a)
    else
      let (x, fl, t) := vHalf v cyc hf op f rm a b
      (x, fl, t, some f, none, vLatency op f)
  else
    let lat := if v.eng = 0 then 2 else 3
    if op = 1 then movedRes lat a
    else
      let fmt := bits dp 45 41
      let known := v.eng = 3 ∨ a.tag = none ∨ (op = 2 ∧ a.tag = some 0x18) ∨ (op = 3 ∧ a.tag = some 0x19)
      castRes v.eng op fmt lat a (if known ∧ op ≠ 4 then castHalf s v fmt v.mode (sr v.mode fmt) a else none)

/-- The half-operations of the word's datapath field (R174, R445): they read their sources at the start of the cycle and
write the same half of the destination. The S engine's issues (OP 3 to 5) read their source; the requests themselves are the
macro-op's, whatever the play does (R174). -/
def dpHalf (v : PlayEnv) (dead : Bool) (dp hf : Nat) (p : PlaySt) : Act PlaySt := do
  let op := bits dp 63 58
  if v.eng = 1 ∨ op = 0 then pure p
  else
    let dst := 2 * bits dp 57 52 + hf
    let sa := 2 * bits dp 51 46 + hf
    let sb := 2 * bits dp 45 40 + hf
    let srcs := if v.eng = 2 then [sa, sb].take (vSources op) else [sa]
    let idle := !srcs.isEmpty && srcs.all p.unwritten
    let a := p.half sa
    let b := p.half sb
    let p := srcs.foldl (fun p h => p.readHalf h idle) p
    if v.eng = 3 ∧ op > 2 then pure p
    else
      let s ← get
      let (val, fl, taint, tag, src, lat) := dpRes s v dp hf p.cyc a b
      let q : Pend := { issued := p.cyc, vis := p.cyc + lat, lat := lat, prio := 4, tgt := dst,
                        half := { val := val, tag := tag, taint := taint, written := true, unread := true, dead := dead, src := src },
                        idle := idle }
      pure { p with pend := p.pend ++ [q], flags := p.flags.join fl, lastVis := max p.lastVis q.vis }

/-- A FEED of the M engine moves one beat of each entry that it names: it reads the halves that the play has written, or
writes; of an entry that the play has not written at all, the first half, which is UNWRITTEN (R184; log 43). -/
def feedHalves (v : PlayEnv) (dp : Nat) (p : PlaySt) : PlaySt :=
  if v.eng ≠ 1 then p
  else
    let es := match bits dp 63 62 with
      | 1 => [bits dp 61 56, bits dp 55 50]
      | 2 => [bits dp 61 56]
      | _ => []
    let fed := fun k => if p.unwritten (2 * k) && p.unwritten (2 * k + 1) then [2 * k]
      else [2 * k, 2 * k + 1].filter fun h => !p.unwritten h
    (es.flatMap fed).foldl (fun p h => p.readHalf h false) p

/-- The values that this cycle's word read count as read. -/
def PlaySt.taken (p : PlaySt) : PlaySt :=
  let hs := p.took.foldl (fun t h => Tab.put Half.init t h { Tab.read Half.init t h with unread := false }) p.halves
  let ls := p.tookL.foldl (fun t l => Tab.put (fun _ => 0) t l 0) p.lineUnread
  { p with halves := hs, lineUnread := ls, took := [], tookL := [] }

/-- Apply the fields of a control word: every read takes the value at the start of the cycle. -/
def applyWord (v : PlayEnv) (w : Nat) (p : PlaySt) : Act PlaySt := do
  let dead := bit w 109
  let dp := bits w 63 0
  let p ← dpHalf v dead dp 0 p
  let p ← dpHalf v dead dp 1 p
  let p := feedHalves v dp p
  let p ← agAccess v dead 0 (bits w 83 72) p
  let p ← agAccess v dead 1 (bits w 95 84) p
  let p ← agAccess v dead 2 (bits w 107 96) p
  pure p.taken

/-- What the sequencer does in this cycle: the word to apply if any, and the sequencer afterwards (Table 07-3). -/
def seqStep (v : PlayEnv) (p : PlaySt) : Option Nat × PlaySt :=
  let w := v.body.getD p.pc (4 <<< 124)
  match cwSeq w with
  | 1 =>
    let c := cwCount v.pr w
    if c = 0 then (none, { p with pc := p.pc + 1 })
    else if p.rep + 1 < c then (some w, { p with rep := p.rep + 1 })
    else (some w, { p with rep := 0, pc := p.pc + 1 })
  | 2 =>
    match p.loops with
    | (i, n, m) :: st =>
      if i = p.pc then (some w, { p with loops := (i, n, m) :: st, pc := p.pc + 1 })
      else
        let c := cwCount v.pr w
        if c = 0 then (none, { p with pc := afterLoopEnd (v.body.drop (p.pc + 1)) 0 (p.pc + 1) })
        else (some w, { p with loops := (p.pc, c - 1, p.ag) :: p.loops, pc := p.pc + 1 })
    | [] =>
      let c := cwCount v.pr w
      if c = 0 then (none, { p with pc := afterLoopEnd (v.body.drop (p.pc + 1)) 0 (p.pc + 1) })
      else (some w, { p with loops := [(p.pc, c - 1, p.ag)], pc := p.pc + 1 })
  | 3 => (some w, p)
  | 4 => (some w, { p with ended := some p.cyc })
  | _ => (some w, { p with pc := p.pc + 1 })

/-- A LOOP_END, after its fields are applied: another iteration, or out of the loop. -/
def seqAfter (w : Nat) (p : PlaySt) : PlaySt :=
  if cwSeq w = 3 then
    match p.loops with
    | (i, n, m) :: st =>
      if n > 0 then { p with loops := (i, n - 1, m) :: st, pc := i } else { p with loops := st, pc := p.pc + 1 }
    | [] => { p with pc := p.pc + 1 }
  else p

/-- One play cycle: what is due becomes visible, then the word of the cycle acts. -/
def playCycle (v : PlayEnv) (p : PlaySt) : Act PlaySt := do
  let p := p.landHalves
  let p ← landLines v.core p
  if p.ended.isSome then pure { p with cyc := p.cyc + 1 }
  else
    let (w, q) := seqStep v p
    match w with
    | none => pure { q with cyc := q.cyc + 1 }
    | some w => do
      let q ← applyWord v w q
      let q := seqAfter w q
      pure { q with cyc := q.cyc + 1 }

/-- Run n play cycles; under strict watch (2) the cycles after the first hazard issue nothing (R187). -/
def playRun (v : PlayEnv) : Nat → PlaySt → Act PlaySt
  | 0, p => pure p
  | n + 1, p => do
    let p ← playCycle v p
    let p := if v.haz = 2 ∧ !p.hazards.isEmpty ∧ p.ended.isNone then { p with ended := some (p.cyc - 1) } else p
    playRun v n p

/-- The sequencer and the address generators alone: the AG writes to come, for stochastic rounding. -/
def agTrace (v : PlayEnv) : Nat → PlaySt → List (Nat × Nat × Nat × Nat)
  | 0, _ => []
  | n + 1, p =>
    if p.ended.isSome then []
    else
      let (w, q) := seqStep v p
      match w with
      | none => agTrace v n { q with cyc := q.cyc + 1 }
      | some w =>
        let cs := [(0, bits w 83 72), (1, bits w 95 84), (2, bits w 107 96)].filter fun (_, c) => bit c 11
        let addr := fun k c => if bit c 7 then (match q.loops with | (_, _, m) :: _ => m.getD k 0 | [] => q.ag.getD k 0)
                               else q.ag.getD k 0
        let ws := (cs.filter fun (_, c) => bit c 10).map fun (k, c) => (q.cyc, b2n (bit c 6), k, 32 * (addr k c / 32))
        let ag := cs.foldl (fun ag (k, c) => ag.set k (trunc 42 (addr k c + v.stride k (bits c 9 8)))) q.ag
        let q := seqAfter w { q with ag := ag }
        ws ++ agTrace v n { q with cyc := q.cyc + 1 }

/-- Hazards in the rank of R184: by play cycle, then by kind, then halves before lines, then by target; one of a kind for a
target in a cycle. -/
def hazardSort (l : List Hazard) : List Hazard :=
  l.dedup.mergeSort fun a b =>
    decide (a.cycle < b.cycle) || (a.cycle == b.cycle &&
      (decide (a.kind < b.kind) || (a.kind == b.kind &&
        ((!a.line && b.line) || (a.line == b.line && decide (a.target ≤ b.target))))))

/-- What a play leaves: play cycles to its retirement (R179, R443), flags, poison, hazards. -/
structure PlayRes where
  cycles : Nat
  flags : Flags
  poison : Bool
  hazards : List Hazard
  suppressed : Nat
  beatsRead : Nat
  beatsWritten : Nat

/-- Parameter registers of Table 07-1. -/
def playRegs (tds : List (Option TD)) (imm : Nat) : List Nat :=
  let g := fun n => tds.getD n none
  let rc := fun n => match g n with | some t => [t.rows, t.cols] | none => [0, 0]
  let beats := fun n => match g n with | some t => trunc 32 (ceilDiv (t.inner * t.ebits) 2048) | none => 0
  rc 0 ++ rc 1 ++ rc 2 ++ [imm, beats 0, beats 1, beats 2, 0, 0, 0, 0, 0, 0]

/-- The cycle 10 after the last FEED that a matrix play issues by cycle `lim`, or 0: the word cycles are those of the sequencer
(R443); after a strict stop none is issued (R187). -/
def lastFeed (v : PlayEnv) (lim : Nat) : Nat → PlaySt → Nat → Nat
  | 0, _, f => f
  | n + 1, p, f =>
    if p.ended.isSome ∨ p.cyc > lim then f
    else
      let (w, q) := seqStep v p
      match w with
      | none => lastFeed v lim n { q with cyc := q.cyc + 1 } f
      | some w => lastFeed v lim n (seqAfter w { q with cyc := q.cyc + 1 }) (if bits w 63 62 != 0 then p.cyc + 10 else f)

/-- Run a play: `n` play cycles to END and at most 12 more for its writes to become visible (Table 07-6). -/
def runPlay (core eng haz : Nat) (mode : RMode) (tds : List (Option TD)) (imm seed step stream : Nat) (body : List Nat) :
    Act PlayRes := do
  let pr := playRegs tds imm
  let ag := [0, 1, 2].map fun n => match tds.getD n none with | some t => t.base | none => 0
  let v0 : PlayEnv := ⟨core, eng, body, pr, tds, haz, mode, seed, step, stream, []⟩
  let p0 : PlaySt := { ag := ag }
  let n := playCycles pr body
  let v := { v0 with writes := agTrace v0 n p0 }
  let p ← playRun v (n + 13) p0
  let fin := p.ended.getD 0
  let last := max (max (fin + 1) p.lastVis) (if eng = 1 then lastFeed v fin n p0 0 else 0)
  pure ⟨last, p.flags, p.poison, (if haz = 2 then (hazardSort p.hazards).take 1 else hazardSort p.hazards), p.suppressed, p.beatsRead, p.beatsWritten⟩

end Sys2Proof.Machine
end

