-- ==== Sys2Proof/Machine/Macro.lean ====
section
/-! DEFINITION. Macro-op records (chapter 06): the header, the fields of each macro-op, the descriptors it names, what
decode checks (R145, R147, R157, R159, R163 to R168, R219, R279, R446), the cycles of Table 06-5 and the energy class
and units of Table 06-6. -/

namespace Sys2Proof.Machine

/-! ## Records -/

/-- The four words of a record (R141). -/
structure Rec where
  w0 : Nat
  w1 : Nat
  w2 : Nat
  w3 : Nat
  deriving DecidableEq, Repr

/-- OPCODE (Table 06-1). -/
def Rec.op (r : Rec) : Nat := bits r.w0 7 0
/-- CATCH_PASS. -/
def Rec.catchPass (r : Rec) : Nat := bits r.w0 15 8
/-- CATCH_N. -/
def Rec.catchN (r : Rec) : Nat := bits r.w0 23 16
/-- THROW_PASS. -/
def Rec.throwPass (r : Rec) : Nat := bits r.w0 31 24
/-- THROW_N. -/
def Rec.throwN (r : Rec) : Nat := bits r.w0 39 32
/-- THROW_CORE; 0xFF is the issuing core. -/
def Rec.throwCore (r : Rec) : Nat := bits r.w0 47 40
/-- COMPLETE. -/
def Rec.complete (r : Rec) : Bool := bit r.w0 48
/-- PLAY. -/
def Rec.play (r : Rec) : Nat := bits r.w0 63 56

/-- The record of 32 bytes as a number. -/
def Rec.ofNat (x : Nat) : Rec := ⟨word64 x 0, word64 x 1, word64 x 2, word64 x 3⟩

/-- The record of an in-flight macro-op. -/
def InFlight.rcd (f : InFlight) : Rec := ⟨f.w0, f.w1, f.w2, f.w3⟩

/-- Address of record number x of a ring (R123). -/
def M.recAddr (s : M) (core e x : Nat) : Nat :=
  s.reg (Reg.coreRingBase core e) + 32 * (x % max 1 (s.reg (Reg.coreRingSize core e)))

/-- Is the opcode one of Table 06-5? -/
def opKnown (op : Nat) : Bool :=
  decide (op ≤ 6) || [0x10, 0x11, 0x12, 0x1F, 0x30, 0x31, 0x32, 0x33, 0x34, 0x50, 0x51, 0x52, 0x53, 0x54, 0x55, 0x56, 0x5F,
    0x80, 0x81, 0x82, 0x83, 0x88, 0x89, 0x8A, 0x9F].contains op

/-- Does the opcode belong to engine e or to the common set? -/
def opOnRing (e op : Nat) : Bool :=
  decide (op ≤ 6) ||
    (match e with
     | 0 => decide (0x10 ≤ op) && decide (op ≤ 0x1F)
     | 1 => decide (0x30 ≤ op) && decide (op ≤ 0x34)
     | 2 => decide (0x50 ≤ op) && decide (op ≤ 0x5F)
     | _ => decide (0x80 ≤ op))

/-- Is the opcode a matrix macro-op? -/
def opMatrix (op : Nat) : Bool := decide (0x30 ≤ op) && decide (op ≤ 0x33)

/-- Is the opcode a play opcode? -/
def opPlay (op : Nat) : Bool := op == 0x1F || op == 0x5F || op == 0x9F

/-! ## Fields of the operations -/

/-- The low descriptor pointer of word 1, and the high one. -/
def Rec.p0 (r : Rec) : Nat := bits r.w1 21 0
/-- Bits [43:22] of word 1. -/
def Rec.p1 (r : Rec) : Nat := bits r.w1 43 22
/-- Bits [21:0] of word 2. -/
def Rec.p2 (r : Rec) : Nat := bits r.w2 21 0

/-- SLOT of a matrix macro-op or a DRAIN. -/
def Rec.slotOf (r : Rec) : Nat := if r.op = 0x34 then bits r.w1 44 44 else bits r.w2 45 45

/-- The pointers to the tensor descriptors that the record names, in the order of its field table (R172). -/
def Rec.tdPtrs (r : Rec) : List Nat :=
  let op := r.op
  if op ≤ 6 then []
  else if op = 0x10 ∨ op = 0x11 then [r.p1, r.p0]
  else if op = 0x12 then [r.p1, r.p0, r.p2]
  else if opPlay op then [r.p0, r.p1, r.p2]
  else if opMatrix op then [r.p0, r.p1] ++ (if bit r.w2 22 then [r.p2] else [])
  else if op = 0x34 then [r.p0]
  else if op = 0x50 then [r.p0, r.p2]
  else if op = 0x51 then (if bit r.w1 44 then [r.p1] else []) ++ [r.p0, r.p2]
  else if op = 0x52 then [r.p1, r.p0, r.p2]
  else if op = 0x53 then [r.p1, r.p0]
  else if op = 0x54 then (if bits r.w1 61 60 = 2 then [] else [r.p1]) ++ [r.p0] ++ (if bits r.w1 61 60 = 0 then [] else [r.p2])
  else if op = 0x55 then [r.p1, r.p0] ++ (if bit r.w1 48 then [bits r.w2 43 22, r.p2] else [])
    ++ (if bit r.w1 49 then [bits r.w3 21 0] else [])
  else if op = 0x56 then [r.p0]
  else if op = 0x80 then [r.p1, r.p0]
  else if op = 0x81 then [r.p0]
  else if op = 0x82 ∨ op = 0x83 then [r.p1, r.p0, r.p2]
  else if op = 0x8A then [r.p1, r.p0]
  else []

/-- Pointer to the accumulation, update or collective descriptor, if the record names one. -/
def Rec.opPtr (r : Rec) : Option Nat :=
  if opMatrix r.op then some (bits r.w2 44 23)
  else if r.op = 0x88 then some (bits r.w1 37 16)
  else if r.op = 0x89 then some (bits r.w1 21 0)
  else none

/-- Address of line index i of a home slice (R142). -/
def homeAddr (core i : Nat) : Nat := sliceBase core + 32 * i

/-- Read 64 bytes of descriptor: poison, and the bytes as a number. DESIGN CHOICE (log 95): one at the last line index of the slice
is read on across the slice's end; the manual is silent. -/
def readDesc (core i : Nat) : Act (Bool × Nat) := do
  let (p, bs) ← readBytes (homeAddr core i) 64
  pure (p, leNat bs)

/-! ## Rounding and stream fields -/

/-- RMODE and STREAM of a record that has them: both must be valid (R45, R96). -/
def rmodeOk (rm : Nat) : Bool := decide (rm ≤ 4)
/-- Is the stream not reserved? -/
def streamOk (st : Nat) : Bool := decide (st < 0xFF0000)

/-- RMODE of the macro-op. -/
def Rec.rmode (r : Rec) : Nat :=
  match r.op with
  | 0x11 => bits r.w1 46 44
  | 0x34 => bits r.w1 47 45
  | 0x50 => bits r.w1 47 45
  | 0x51 => bits r.w1 47 45
  | 0x52 => bits r.w1 47 45
  | 0x53 => bits r.w1 48 46
  | 0x55 => bits r.w1 46 44
  | 0x80 => bits r.w1 46 44
  | _ => 0

/-- STREAM of the macro-op. A record without such a field draws only under a custom play; from which stream is open, a free value
(log 50). -/
def Rec.stream (r : Rec) : Nat :=
  match r.op with
  | 0x11 => bits r.w2 23 0
  | 0x34 => bits r.w3 45 22
  | 0x50 => bits r.w2 45 22
  | 0x51 => bits r.w2 45 22
  | 0x52 => bits r.w2 45 22
  | 0x53 => bits r.w2 23 0
  | 0x56 => bits r.w1 45 22
  | 0x80 => bits r.w2 23 0
  | op => trunc 24 (Config.streamOf op)

/-! ## Decode checks -/

/-- May the format stand where a macro-op only moves elements, or reads them as vector inputs? LUT4 and SZP apply only to
a B operand or to the input of EXPAND (R144). -/
def fmtMove (t : TD) : Bool := t.exact || decide (t.fmt ≤ 0x15)
/-- A vector input: no scale format, no MX format, no weight code. -/
def fmtVecIn (t : TD) : Bool := !t.exact && (decide (t.fmt ≤ 0x0B) || t.fmt == 0x0F)
/-- An output of a cast or drain, EXACT left out. -/
def fmtOut (t : TD) : Bool := !t.exact && fmtOutput t.fmt

/-- Same extents. -/
def sameShape (a b : TD) : Bool := a.rows == b.rows && a.cols == b.cols

/-- An MX output must begin on a block of the tensor. -/
def mxOutOk (t : TD) : Bool := !isMx t.fmt || t.exact || t.tcol0 % 32 == 0

/-- A vector of n INT32 indices. -/
def idxOk (t : TD) (n : Nat) : Bool :=
  !t.exact && t.fmt == 0x0F && ((t.rows == 1 && t.cols == n) || (t.cols == 1 && t.rows == n))

/-- Element (row x) of an index vector. -/
def TD.idxAt (t : TD) (x : Nat) : Nat × Nat := if t.rows = 1 then (0, x) else (x, 0)

/-- KDIM of LOAD_TILE and STORE_TILE. -/
def Rec.kdim (r : Rec) : Bool := bit r.w3 0

/-- Class of a C operand must not be wider than the slot's. -/
def classLe : PClass → PClass → Bool
  | .s, _ => true
  | .w, .s => false
  | .w, _ => true
  | .l, .l => true
  | .l, _ => false

/-- Product class of a matrix macro-op. -/
def mmaClass (op : Nat) (a b : TD) : SlotClass :=
  if op = 0x32 then .a7
  else if op = 0x31 then .w
  else ((fmtClass a.fmt a.auxFmt).max (fmtClass b.fmt b.auxFmt)).slot

/-- The class of a slot as a product class. -/
def SlotClass.pclass : SlotClass → PClass
  | .s => .s
  | .w => .w
  | .l => .l
  | .a7 => .w

/-- Do the formats suit the opcode (R157)? -/
def mmaFmtOk (op : Nat) (a b : TD) : Bool :=
  let fp := fun t : TD => t.fmt == 1 || t.fmt == 2 || t.fmt == 3
  fmtMatrix a.fmt false && fmtMatrix b.fmt true &&
    (match op with
     | 0x30 => !isMx a.fmt && !isMx b.fmt && a.fmt != 0 && b.fmt != 0
     | 0x31 => isMx a.fmt && isMx b.fmt
     | 0x32 => fp a && fp b
     | _ => (a.fmt == 0 || b.fmt == 0) && !isMx a.fmt && !isMx b.fmt)

/-- Twice the issue factor c of Table 06-11. -/
def mmaFactor2 (op : Nat) (a b : TD) : Nat :=
  let four := fun t : TD => t.fmt == 9 || t.fmt == 0x0B || t.fmt == 0x14
  if op = 0x32 then (if a.fmt = 1 ∨ b.fmt = 1 then 256 else 32)
  else if op = 0x33 then 128
  else if op = 0x31 then (if four a && four b then 1 else 2)
  else
    match mmaClass op a b with
    | .l => 128
    | .w => if a.fmt = 1 ∨ b.fmt = 1 ∨ (b.fmt = 0x18 ∧ b.auxFmt = 1) then 32 else 4
    | _ => if four a && four b then 1 else 2

/-- C_base of R157. -/
def cBase (op : Nat) (a b : TD) : Nat := ceilDiv (mmaFactor2 op a b * a.cols) 2

/-- Energy class of a matrix macro-op (Table 06-6). -/
def mmaEnergy (op : Nat) (a b : TD) : Nat :=
  match mmaFactor2 op a b with
  | 1 => 4
  | 2 => 3
  | 4 => 5
  | f => if op = 0x32 then 8 else if f = 128 then 7 else 6

/-- An accumulation descriptor (Table 06-9). -/
structure AD where
  fbs : Nat
  col0 : Nat
  row0 : Nat
  histBase : Int
  k0 : Nat
  histSrc : Nat

/-- Read an accumulation descriptor from its 64 bytes. -/
def AD.parse (x : Nat) : AD :=
  { fbs := bits (word64 x 0) 41 0, col0 := bits (word64 x 1) 63 32, row0 := bits (word64 x 1) 31 0
    histBase := toSigned 16 (bits (word64 x 2) 47 32), k0 := bits (word64 x 2) 31 0, histSrc := bits (word64 x 3) 41 0 }

/-- WINDOW of a matrix record. -/
def Rec.window (r : Rec) : Nat := bits r.w2 53 46

/-- Highest window of a class. -/
def SlotClass.wmax : SlotClass → Nat
  | .w => 8
  | .l => 66
  | _ => 0

/-- Stride of the element records of the far band store (Table 03-5). -/
def SlotClass.fbsStride : SlotClass → Nat
  | .w => 96
  | .l => 544
  | _ => 0

/-- A range lies in the home slice of a core. -/
def inHome (core a n : Nat) : Bool := decide (sliceBase core ≤ a) && decide (a + n ≤ sliceBase core + sliceSize)

/-- The checks that decode makes of a matrix macro-op (R61, R157); those of its slot follow at issue (`mmaSlotOk`). HIST_SRC is
checked for every opcode under window 0xFE, MMA_A7 included (R61; log 62). -/
def mmaOk (core : Nat) (r : Rec) (a b : TD) (c : Option TD) (ad : AD) : Bool :=
  let op := r.op
  let cls := mmaClass op a b
  a.ok false && b.ok true && !a.exact && !b.exact && mmaFmtOk op a b
    && b.rows == a.cols && decide (a.rows ≤ 128) && decide (b.cols ≤ 128)
    && a.inSlice false core && b.inSlice true core
    && (match c with
        | none => true
        | some c => c.ok false && !c.exact && c.rows == a.rows && c.cols == b.cols && c.inSlice false core
            && !isMx c.fmt && c.fmt != 0x18 && c.fmt != 0x19
            && (if op = 0x32 then c.fmt == 1 || c.fmt == 2 || c.fmt == 3
                else fmtMatrix c.fmt false && classLe (fmtClass c.fmt 0) cls.pclass))
    && (r.window != 0xFE || (ad.histSrc % 32 == 0 && decide (ad.histSrc + 256 ≤ 0x400000000)))
    && (op != 0x31 || ad.k0 % 32 == 0)
    && (op != 0x32 || (decide (1 ≤ bits r.w2 57 54) && decide (bits r.w2 57 54 ≤ 7)))

/-- The checks of a matrix macro-op against its slot, at issue (R79): where it opens the slot, window and far band store (R60,
R64); where the slot is open, class and tile extent. -/
def mmaSlotOk (core : Nat) (r : Rec) (a b : TD) (ad : AD) (sl : Slot) : Bool :=
  let cls := mmaClass r.op a b
  if sl.state = .opened then sl.cls == cls && sl.m == a.rows && sl.n == b.cols
  else
    match cls with
    | .s => true
    | .a7 => true
    | _ => (decide (r.window ≤ cls.wmax) || decide (r.window ≥ 0xFE)) && ad.fbs % 32 == 0
             && inHome core ad.fbs (a.rows * b.cols * cls.fbsStride)

/-- Touched elements of a slot. -/
def Slot.touched (s : Slot) : Nat := (s.elems.filter (·.touched)).length

/-- t_drain of R75: 4 B is the element size in quarter bytes. -/
def tDrain (m n ebits : Nat) (cls : SlotClass) (u : Nat) : Nat :=
  24 + max m (ceilDiv (m * n * ebits) (768 * 8)) + (match cls with | .w => ceilDiv u 8 | .l => u | _ => 0)

/-- The checks that decode makes of a DRAIN (R159); those of its slot follow at issue (`drainSlotOk`). -/
def drainOk (core : Nat) (r : Rec) (o : TD) : Bool :=
  o.ok false && o.inSlice false core && rmodeOk r.rmode && streamOk r.stream
    && (o.exact || fmtOutput o.fmt) && mxOutOk o
    && bits r.w2 41 0 % 32 == 0 && decide (bits r.w2 41 0 + 256 ≤ 0x400000000)

/-- The checks of a DRAIN against an open slot, at issue (R79, R110, R159). -/
def drainSlotOk (o : TD) (sl : Slot) : Bool :=
  sl.state != .opened ||
    (o.rows == sl.m && o.cols == sl.n
      && (if o.exact then sl.cls != .a7 && (o.exactL || sl.cls != .l)
          else sl.cls != .a7 || o.fmt == 1 || o.fmt == 2 || o.fmt == 3))

/-- Data bytes of a view (B of Table 06-5). -/
def TD.dataBytes (t : TD) : Nat := ceilDiv (t.rows * t.cols * t.ebits) 8

/-- Cycles of a move of n bytes (LOAD_TILE, FILL). -/
def moveCycles (home : Bool) (n : Nat) : Nat := 16 + ceilDiv n (if home then 256 else 64)

/-- An operation's checks, its cycles, energy class and units, the ready bits that it needs, and its named output
ranges. `status` is 0 where decode passes. -/
structure Plan where
  status : Nat := 0
  cycles : Nat := 1
  cls : Nat := 0
  units : Nat := 1
  needs : List Nat := []
  outs : List (Nat × Nat) := []
  slot : Option Nat := none

/-- Decode fails with STATUS_BAD_FIELD. -/
def Plan.bad : Plan := { status := 1 }

/-- A plan if the checks pass. -/
def Plan.when (ok : Bool) (p : Plan) : Plan := if ok then p else Plan.bad

/-- The stores that n bytes at an address lie in, as functions of Table 15-6: 121 the far store, 256 + n slice n. -/
def storesOf (a n : Nat) : List Nat :=
  if inFar a then [121]
  else (List.range' (a / sliceSize) (min 128 ((a + n - 1) / sliceSize - a / sliceSize + 1))).map (256 + ·)

/-- The stores that the views lie in. -/
def viewNeeds (l : List (TD × Bool)) : List Nat :=
  (l.flatMap fun (t, k) => ((t.base, t.extent k) :: t.auxArrays k).flatMap fun (a, n) => storesOf a n).eraseDups

/-- All the views lie in the home slice. -/
def allHome (core : Nat) (l : List (TD × Bool)) : Bool := l.all fun (t, k) => t.inSlice k core

/-- L of Table 06-5 for a V macro-op: 64 when an operand or the output is FP64, else 128. -/
def vLanes (l : List TD) : Nat := if l.any (·.fmt == 0) then 64 else 128

/-- LOAD_TILE (R154). -/
def planLoadTile (core : Nat) (r : Rec) (d s : TD) : Plan :=
  let k := r.kdim && isMx d.fmt && !d.exact
  let home := allHome core [(d, k), (s, k)]
  let n := moveCycles home d.dataBytes
  let off := if k then bits r.w2 31 0 else bits r.w2 63 32
  Plan.when (d.ok k && s.ok k && fmtMove d && d.fmt == s.fmt && d.exact == s.exact && d.inSlice k core
      && (!isMx d.fmt || d.exact || off % 32 == 0))
    { cycles := n, units := n, cls := if s.far k then 2 else 1, needs := viewNeeds [(s, k)], outs := d.range k }

/-- EXPAND. DESIGN CHOICE (log 94): a view that differs in extent from its source fails decode; the manual is silent. -/
def planExpand (core : Nat) (r : Rec) (d s : TD) : Plan :=
  let n := 16 + ceilDiv (d.rows * d.cols) 256
  Plan.when (d.ok false && s.ok true && !s.exact && (s.fmt == 0x18 || s.fmt == 0x19) && !d.exact
      && decide (1 ≤ d.fmt) && decide (d.fmt ≤ 5) && sameShape d s && d.inSlice false core && rmodeOk r.rmode
      && streamOk r.stream)
    { cycles := n, units := n, cls := 1, needs := viewNeeds [(s, true)], outs := d.range false }

/-- GATHER. DESIGN CHOICE (log 94): a destination whose COLS are not the source's fails decode; the manual is silent. -/
def planGather (core : Nat) (d s i : TD) : Plan :=
  let home := allHome core [(d, false), (s, false), (i, false)]
  let n := moveCycles home d.dataBytes + ceilDiv d.rows 8
  Plan.when (d.ok false && s.ok false && i.ok false && idxOk i d.rows && fmtMove d && d.fmt == s.fmt
      && d.exact == s.exact && d.cols == s.cols && d.inSlice false core)
    { cycles := n, units := n, cls := if s.far false || i.far false then 2 else 1
      needs := viewNeeds [(s, false), (i, false)], outs := d.range false }

/-- Does a body write through address generator n (Table 07-4)? -/
def playWrites (body : List Nat) (n : Nat) : Bool :=
  body.any fun w => bit (w >>> (72 + 12 * n)) 11 && bit (w >>> (72 + 12 * n)) 10

/-- The ranges of the descriptors that a body writes through: its named output (R170, log 46). -/
def playOuts (tds : List TD) (body : List Nat) : List (Nat × Nat) :=
  (tds.zipIdx.filter fun (_, n) => playWrites body n).flatMap fun (t, _) => t.range false

/-- A custom play, which the record must name (R154): the descriptors must be sound, its units are the play's cycles. -/
def planPlay (r : Rec) (tds : List TD) (body : List Nat) : Plan :=
  let n := playCycles (playRegs (tds.map some) (bits r.w3 31 0)) body
  Plan.when (r.play != 0 && tds.all fun t => t.ok false) { cycles := n, units := n, cls := 15, needs := viewNeeds (tds.map fun t => (t, false)), outs := playOuts tds body }

/-- A matrix macro-op; a slot that it opens under window 0xFE adds its cycles at issue. -/
def planMma (std : Bool) (core : Nat) (r : Rec) (a b : TD) (c : Option TD) (ad : AD) : Plan :=
  if std && (a.fmt == 0 || b.fmt == 0 || (match c with | some c => c.fmt == 0 | none => false)) then { status := 2 }
  else
    let n := cBase r.op a b
    Plan.when (mmaOk core r a b c ad)
      { cycles := n + 9, units := n, cls := mmaEnergy r.op a b, slot := some r.slotOf }

/-- DRAIN; its cycles and units follow from the slot at issue. -/
def planDrain (core : Nat) (r : Rec) (o : TD) : Plan :=
  Plan.when (drainOk core r o)
    { cls := 9, slot := some r.slotOf
      outs := o.range false ++ [(bits r.w2 41 0, 256), (homeAddr core (bits r.w3 21 0), 32)] }

/-- CAST (R161, R446). -/
def planCast (r : Rec) (x o : TD) : Plan :=
  let n := 32 + ceilDiv (x.rows * x.cols) (vLanes [x, o])
  Plan.when (x.ok false && o.ok false && (x.exact || fmtVecIn x) && (o.exact || fmtOut o) && mxOutOk o && sameShape x o
      && (!o.exact || o.exactL || (x.fmt != 0)) && rmodeOk r.rmode && streamOk r.stream)
    { cycles := n, units := n, cls := 10, needs := viewNeeds [(x, false), (o, false)], outs := o.range false }

/-- FUNC of EPILOGUE and EWISE. -/
def Rec.func (r : Rec) : Nat := bits r.w1 51 48

/-- EPILOGUE. -/
def planEpilogue (r : Rec) (x : TD) (y : Option TD) (o : TD) : Plan :=
  let all := [x, o] ++ y.toList
  let f := r.func
  let n := x.rows * x.cols
  let cyc := 32 + ceilDiv n (vLanes all) + actCalls f * ceilDiv n 32
  Plan.when (x.ok false && o.ok false && fmtVecIn x && fmtOut o && mxOutOk o && sameShape x o && decide (f ≤ 6)
      && (f == 0 || !all.any (·.fmt == 0))
      && (match y with | none => true | some y => y.ok false && fmtVecIn y && y.rows == 1 && y.cols == x.cols)
      && rmodeOk r.rmode && streamOk r.stream)
    { cycles := cyc, units := cyc, cls := if actCalls f = 0 then 10 else 11
      needs := viewNeeds (all.map fun t => (t, false)), outs := o.range false }

/-- EWISE. -/
def planEwise (r : Rec) (x y o : TD) : Plan :=
  let n := 32 + ceilDiv (x.rows * x.cols) (vLanes [x, y, o])
  Plan.when (x.ok false && y.ok false && o.ok false && fmtVecIn x && fmtVecIn y && fmtOut o && mxOutOk o && sameShape x y
      && sameShape x o && decide (r.func ≤ 4) && bit r.w1 44 && rmodeOk r.rmode && streamOk r.stream)
    { cycles := n, units := n, cls := 10, needs := viewNeeds [(x, false), (y, false), (o, false)], outs := o.range false }

/-- AXIS of REDUCE_EXACT: whole view? -/
def Rec.reduceAll (r : Rec) : Bool := bits r.w1 45 44 == 1

/-- Is the class of the accumulator of REDUCE_EXACT, or of a collective element, L? -/
def TD.classL (t : TD) : Bool := t.fmt == 0

/-- REDUCE_EXACT. DESIGN CHOICE (log 94): a W-class EXACT output of an L-class input fails decode, as R159 states for DRAIN; so in
CAST and STORE_TILE. -/
def planReduceExact (r : Rec) (o x : TD) : Plan :=
  let sq := bit r.w1 49
  let nOut := if r.reduceAll then 1 else x.rows
  let l := if x.exact then 8 else if x.fmt = 0 then 64 else if x.fmt = 1 then 128 else 256
  let n := 32 + (if sq then 2 else 1) * ceilDiv (x.rows * x.cols) l + ceilDiv nOut 16
  Plan.when (x.ok false && o.ok false && (x.exact || fmtFloat x.fmt) && (o.exact || (fmtOut o && !isMx o.fmt))
      && decide (bits r.w1 45 44 ≤ 1) && o.rows == nOut && o.cols == 1 && !(sq && x.exact)
      && (!o.exact || o.exactL || !x.classL) && rmodeOk r.rmode && streamOk r.stream)
    { cycles := n, units := n, cls := 10, needs := viewNeeds [(x, false), (o, false)], outs := o.range false }

/-- MODE, SHARE and P of REDUCE_FAST. -/
def Rec.rfMode (r : Rec) : Nat := bits r.w1 61 60
/-- SHARE. -/
def Rec.rfShare (r : Rec) : Nat := bits r.w1 59 52
/-- P. -/
def Rec.rfP (r : Rec) : Nat := bits r.w1 51 44

/-- An FP32 view of given extents. -/
def fp32View (t : TD) (rows cols : Nat) : Bool := !t.exact && t.fmt == 1 && t.rows == rows && t.cols == cols

/-- Length of share j of n elements over p shares (R90). -/
def shareLen (n p j : Nat) : Nat := let h := ceilDiv n p; min ((j + 1) * h) n - min (j * h) n

/-- REDUCE_FAST: `part` is none under MODE 2, `o` under MODE 0, where the record does not use it. -/
def planReduceFast (r : Rec) (part : Option TD) (x : TD) (o : Option TD) : Plan :=
  let p := r.rfP
  let n := x.rows * x.cols
  let cyc := match r.rfMode with
    | 0 => 32 + 4 * shareLen n p r.rfShare
    | 1 => 32 + 8 * p
    | _ => 32 + 4 * n + 8
  Plan.when (x.ok false && !x.exact && x.fmt == 1 && o.all (fun o => o.ok false && fp32View o 1 2) && decide (r.rfMode ≤ 2)
      && decide (1 ≤ p) && decide (p ≤ 120) && decide (r.rfShare < p) && (r.rfMode != 2 || p == 1)
      && (match part with | none => true | some t => t.ok false && fp32View t p 2))
    { cycles := cyc, units := cyc, cls := 10
      needs := viewNeeds ((x :: (o.toList ++ part.toList)).map fun t => (t, false))
      outs := match part, o with
        | some t, none => [0, 1].map fun j => (t.bitAddr r.rfShare j / 8, 4)
        | _, some o => o.range false
        | _, _ => [] }

/-- NORM. -/
def planNorm (r : Rec) (o x : TD) (rest : List TD) : Plan :=
  let aff := bit r.w1 48
  let stats := bit r.w1 49
  let n := 48 + 3 * ceilDiv (x.rows * x.cols) 128 + 2 * x.rows
  let g := rest.take (if aff then 2 else 0)
  let st := rest.drop (if aff then 2 else 0)
  Plan.when (x.ok false && o.ok false && !x.exact && decide (1 ≤ x.fmt) && decide (x.fmt ≤ 3) && fmtOut o && !isMx o.fmt
      && sameShape x o && decide (r.rmode ≤ 3) && g.all (fun t => t.ok false && fp32View t 1 x.cols)
      && (!stats || st.all fun t => t.ok false && fp32View t x.rows 2))
    { cycles := n, units := n, cls := 11, needs := viewNeeds (([x, o] ++ rest).map fun t => (t, false))
      outs := o.range false ++ (st.map fun t => t.range false).flatten }

/-- RNG_FILL. -/
def planRngFill (r : Rec) (o : TD) : Plan :=
  let n := 16 + ceilDiv (o.rows * o.cols) 64
  let dist := bits r.w1 47 46
  Plan.when (o.ok false && fmtOut o && !isMx o.fmt && streamOk r.stream
      && (if dist = 0 then o.fmt == 0x0F else decide (dist ≤ 2) && fmtFloat o.fmt))
    { cycles := n, units := n, cls := 12, needs := viewNeeds [(o, false)], outs := o.range false }

/-- STORE_TILE. -/
def planStoreTile (core : Nat) (r : Rec) (d s : TD) : Plan :=
  let kd := r.kdim && isMx d.fmt && !d.exact
  let ks := r.kdim && isMx s.fmt && !s.exact
  let n := moveCycles (allHome core [(d, kd), (s, ks)]) d.dataBytes
  let same := d.fmt == s.fmt && d.exact == s.exact
  Plan.when (d.ok kd && s.ok ks && fmtMove d && fmtMove s && sameShape d s && s.inSlice ks core
      && (same || ((s.exact || fmtVecIn s || isMx s.fmt) && (if d.exact then d.exactL || s.fmt != 0 else fmtOutput d.fmt)))
      && rmodeOk r.rmode && streamOk r.stream)
    { cycles := n, units := n, cls := if d.far kd then 2 else 1, needs := viewNeeds [(d, kd)], outs := d.range kd }

/-- FILL. -/
def planFill (core : Nat) (d : TD) : Plan :=
  let n := moveCycles (allHome core [(d, false)]) d.dataBytes
  Plan.when (d.ok false && fmtMove d)
    { cycles := n, units := n, cls := if d.far false then 2 else 1, needs := viewNeeds [(d, false)], outs := d.range false }

/-- The scatters. -/
def planScatter (r : Rec) (i v t : TD) : Plan :=
  let n := 16 + ceilDiv v.dataBytes 128
  Plan.when (i.ok false && v.ok false && t.ok false && idxOk i v.rows && v.cols == t.cols
      && (if r.op = 0x82 then t.exact && (v.exact || fmtVecIn v || isMx v.fmt) && (t.exactL || !v.classL)
          else !v.exact && !t.exact && v.fmt == 1 && t.fmt == 1))
    { cycles := n, units := n, cls := 13, needs := viewNeeds [(i, false), (v, false), (t, false)], outs := t.range false }

/-- SNAPSHOT: NODE 0xFFFF is local. -/
def planSnapshot (core : Nat) (r : Rec) (d s : TD) : Plan :=
  let loc := bits r.w2 15 0 == 0xFFFF
  let n := moveCycles (allHome core [(d, false), (s, false)]) d.dataBytes
  Plan.when (d.ok false && s.ok false && fmtMove s && fmtMove d
      && (if loc then d.fmt == s.fmt && d.exact == s.exact && sameShape d s else d.base % 1024 == 0))
    (if loc then { cycles := n, units := n, cls := if d.far false || s.far false then 2 else 1
                   needs := viewNeeds [(d, false), (s, false)], outs := d.range false }
     else { cycles := 1, units := 1, cls := 14, needs := viewNeeds [(s, false)] ++ [123, 124] })

/-- STATE_SAVE and STATE_LOAD. -/
def planState (core : Nat) (r : Rec) : Plan :=
  let a := bits r.w1 41 0
  Plan.when (a % 32 == 0 && inRegion a 64)
    { cycles := if inHome core a 64 then 8 else 16, needs := storesOf a 64
      outs := if r.op = 5 then [(a, 64)] else [] }

/-! ## UPDATE: its descriptor and layer entries (R214 to R219) -/

/-- A layer entry (Table 09-2). -/
structure Layer where
  alg : Nat
  blocked : Bool
  nesterov : Bool
  master64 : Bool
  gexact : Bool
  gfmt : Nat
  workEn : Bool
  wfmt : Nat
  wrmode : Nat
  escale : Int
  statsEn : Bool
  stream : Nat
  blockE : Nat
  elems : Nat
  master : Nat
  mBase : Nat
  vBase : Nat
  gBase : Nat
  wBase : Nat
  stats : Nat
  wd : Nat
  lr : Nat
  beta2 : Nat
  beta1 : Nat
  mu : Nat
  eps : Nat
  gscale : Nat
  trustMax : Nat
  tidx0 : Nat
  deriving DecidableEq, Repr

/-- Read a layer entry from its 128 bytes. -/
def Layer.parse (x : Nat) : Layer :=
  let w := word64 x
  { alg := bits (w 0) 63 62, blocked := bit (w 0) 61, nesterov := bit (w 0) 60, master64 := bit (w 0) 59
    gexact := bit (w 0) 58, gfmt := bits (w 0) 57 53, workEn := bit (w 0) 52, wfmt := bits (w 0) 51 47
    wrmode := bits (w 0) 46 44, escale := toSigned 8 (bits (w 0) 43 36), statsEn := bit (w 0) 35
    stream := bits (w 0) 34 11, blockE := bits (w 1) 63 48, elems := bits (w 1) 39 0
    master := bits (w 2) 41 0, mBase := bits (w 3) 41 0, vBase := bits (w 4) 41 0, gBase := bits (w 5) 41 0
    wBase := bits (w 6) 41 0, stats := bits (w 7) 41 0, wd := bits (w 8) 63 32, lr := bits (w 8) 31 0
    beta2 := bits (w 9) 63 32, beta1 := bits (w 9) 31 0, mu := bits (w 10) 63 32, eps := bits (w 10) 31 0
    gscale := bits (w 11) 63 32, trustMax := bits (w 11) 31 0, tidx0 := bits (w 12) 39 0 }

/-- Sizes of the used arrays in the order of Table 09-3: master, M, V, G, W; 0 where not used. -/
def Layer.sizes (l : Layer) : List Nat :=
  [if l.master64 then 8 else 4, 4, if l.alg = 1 ∨ l.alg = 2 then 4 else 0,
   if l.gexact then 96 else if l.gfmt = 1 then 4 else 2,
   if l.workEn then (if l.wfmt = 2 then 2 else 1) else 0]

/-- Address of element i of used array a (R217). -/
def Layer.addr (l : Layer) (a i : Nat) : Nat :=
  let sz := l.sizes.getD a 0
  if l.blocked then
    l.master + 4096 * (i / max 1 l.blockE) + l.blockE * (l.sizes.take a).sum + (i % max 1 l.blockE) * sz
  else [l.master, l.mBase, l.vBase, l.gBase, l.wBase].getD a 0 + i * sz

/-- Non-negative and finite, as an FP32 code. -/
def nonneg32 (c : Nat) : Bool :=
  match f32 c with
  | .fin s m _ => !s || m == 0
  | _ => false

/-- In [0, 1), as an FP32 code. -/
def beta32 (c : Nat) : Bool := nonneg32 c && (f32 c).lt (.fin false 1 0)

/-- Is v × 2^e a normal FP32 value, for a code v? -/
def scaledNormal (c : Nat) (e : Int) : Bool :=
  match f32 c with
  | .fin _ m q => m != 0 && decide ((Nat.log2 m : Int) + q + e ≥ -126) && decide ((Nat.log2 m : Int) + q + e ≤ 127)
  | _ => false

/-- Is the code a zero of either sign? -/
def zero32 (c : Nat) : Bool := (f32 c).isZero

/-- R217 and the field checks of R219 for one entry. -/
def Layer.ok (l : Layer) : Bool :=
  let sz := l.sizes
  let used := (List.range 5).filter fun a => sz.getD a 0 != 0
  let total := sz.sum
  l.elems != 0
    && (l.gexact || l.gfmt == 1 || l.gfmt == 2)
    && (!l.workEn || ((l.wfmt == 2 || l.wfmt == 4 || l.wfmt == 5 || l.wfmt == 6) && decide (l.wrmode ≤ 4)))
    && (if l.blocked then
          l.master % 4096 == 0 && l.blockE % 32 == 0 && decide (32 ≤ l.blockE) && decide (l.blockE * total ≤ 4096)
            && inRegion l.master (4096 * (ceilDiv l.elems (max 1 l.blockE) - 1) + l.blockE * total)
        else used.all (fun a => l.addr a 0 % 32 == 0 && inNear (l.addr a 0)
               && l.addr a 0 / sliceSize == l.master / sliceSize
               && (l.addr a (l.elems - 1) + sz.getD a 0 - 1) / sliceSize == l.master / sliceSize))
    && (!l.nesterov || l.alg == 0)
    && decide (-64 ≤ l.escale) && decide (l.escale ≤ 63)
    && (zero32 l.lr || scaledNormal l.lr l.escale)
    && [l.wd, l.eps, l.mu, l.gscale, l.trustMax].all nonneg32 && beta32 l.beta1 && beta32 l.beta2
    && (l.alg != 2 || l.statsEn)
    && (!l.statsEn || (l.stats % 32 == 0 && inNear l.stats && inNear (l.stats + 319)))
    && (!l.workEn || streamOk l.stream)

/-- COUNT, PHASE, FINAL and LAYERS of an update descriptor (Table 09-1). -/
def updCount (d : Nat) : Nat := bits (word64 d 0) 34 22
/-- PHASE. -/
def updPhase (d : Nat) : Nat := bits (word64 d 0) 62 61
/-- FINAL. -/
def updFinal (d : Nat) : Bool := bit (word64 d 0) 63
/-- LAYERS. -/
def updLayers (d : Nat) : Nat := bits (word64 d 0) 21 0

/-- The verdict entry bound to a group (R231). -/
def M.verdictEntry (s : M) (group : Nat) : Option Nat :=
  (List.range 64).find? fun n => s.reg (Reg.updVgroup n) == 0x80000000 + group

/-- UPDATE (R219). -/
def planUpdate (s : M) (r : Rec) (d : Nat) (ls : List Layer) : Plan :=
  let ph := updPhase d
  let pairs := ls.filter (·.statsEn)
  Plan.when ((updCount d != 0 || updFinal d) && decide (updCount d ≤ 4096) && decide (ph ≤ 2)
      && (ph == 0 || ls.all (·.alg == 2)) && !(ph == 1 && updFinal d) && ls.all Layer.ok
      && pairs.all (fun a => pairs.all fun b => a.stats != b.stats ||
           (a.alg == b.alg && a.escale == b.escale && a.trustMax == b.trustMax))
      && (s.verdictEntry (bits r.w1 37 22)).isSome)
    { cycles := 8 + 4 * updCount d, units := 1, cls := 13
      needs := (ls.flatMap fun l => storesOf l.master 1).eraseDups
      outs := ls.flatMap fun l => [0, 1, 2, 4].filterMap fun a =>
        if l.sizes.getD a 0 = 0 ∨ l.blocked then none else some (l.addr a 0, l.elems * l.sizes.getD a 0) }

/-! ## COLLECTIVE: its descriptor and checks (R277 to R282) -/

/-- A collective descriptor (Table 11-2). -/
structure CD where
  seq : Nat
  op : Nat
  wire : Nat
  verdict : Bool
  close : Bool
  rmode : Nat
  src : Nat
  chunk : Nat
  inflight : Nat
  root : Nat
  dst : Nat
  stream : Nat
  count : Nat
  shards : Nat
  lenAddr : Nat
  countsTd : Nat
  pad : Nat
  deriving DecidableEq, Repr

/-- Read a collective descriptor from its 64 bytes; SHARDS 0 is read as 1. -/
def CD.parse (x : Nat) : CD :=
  let w := word64 x
  { seq := bits (w 0) 63 32, op := bits (w 0) 31 29, wire := bits (w 0) 28 27, verdict := bit (w 0) 26
    close := bit (w 0) 25, rmode := bits (w 0) 24 22, src := bits (w 0) 21 0
    chunk := bits (w 1) 47 45, inflight := bits (w 1) 44 40, root := bits (w 1) 39 28, dst := bits (w 1) 21 0
    stream := bits (w 2) 63 40, count := bits (w 2) 39 0, shards := max 1 (bits (w 3) 12 0)
    lenAddr := bits (w 4) 41 0, countsTd := bits (w 5) 21 0, pad := w 6 }

/-- A group record (Table 11-1). -/
structure GroupRec where
  p : Nat
  rank : Nat
  fanin : Nat
  cqEn : Bool
  cqLog2 : Nat
  members : Nat
  cqBase : Nat
  deriving DecidableEq, Repr

/-- Read a group record from its 32 bytes. -/
def GroupRec.parse (x : Nat) : GroupRec :=
  { p := bits x 15 0, rank := bits x 31 16, fanin := bits x 39 32, cqEn := bit x 40, cqLog2 := bits x 63 48
    members := bits x 105 64, cqBase := bits x 169 128 }

/-- The group record of a group, as it stands in the group table. -/
def M.groupRec (s : M) (g : Nat) : GroupRec := GroupRec.parse (s.num (s.reg Reg.rlyGroupBase + 32 * g) 32)

/-- Chunk size in KiB. -/
def CD.chunkKib (c : CD) : Nat := if c.chunk = 0 then 256 else 64 * 2 ^ (c.chunk - 1)
/-- INFLIGHT with its default. -/
def CD.inflightN (c : CD) : Nat := if c.inflight = 0 then 8 else c.inflight

/-- Is the member the root of some shard (R276)? -/
def CD.isRoot (c : CD) (g : GroupRec) : Bool :=
  (List.range c.shards).any fun j => (c.root + j) % max 1 g.p == g.rank

/-- Does the member read its DST (R280)? -/
def CD.readsDst (c : CD) (g : GroupRec) : Bool := !(c.op == 1 || c.op == 3) || c.isRoot g

/-- A floating-point or EXACT element. -/
def floatOrExact (t : TD) : Bool := t.exact || fmtFloat t.fmt

/-- Staging need in KiB (R282). -/
def CD.staging (c : CD) (g : GroupRec) : Nat := c.inflightN * (g.fanin + 2) * c.chunkKib

/-- The checks of R279 and R280; `dst` is none where it is not needed. -/
def collOk (s : M) (c : CD) (group : Nat) (g : GroupRec) (src : TD) (dst counts : Option TD) : Bool :=
  let eng := (group + c.seq) % 4
  let n := src.rows * src.cols
  let isL := src.classL || (match dst with | some d => d.classL | none => false)
  decide (c.op ≤ 4) && decide (c.wire ≤ 2)
    && (if c.op = 0 ∨ c.op = 4 then c.wire == 0 else c.wire != 0)
    && g.p != 0 && decide (g.p ≤ 4096) && g.rank != 0xFFFF && decide (2 ≤ g.fanin) && decide (g.fanin ≤ 16)
    && decide (c.root < g.p) && decide (c.shards ≤ g.p) && (decide (c.shards ≤ 1) || c.op == 2 || c.op == 3)
    && (c.count != 0 || c.close)
    && (decide (c.inflight = 0) || (decide (4 ≤ c.inflight) && decide (c.inflight ≤ 16))) && decide (c.chunk ≤ 5)
    && (!(c.verdict || c.close) || (s.verdictEntry group).isSome)
    && (!c.close || (c.op == 2 && c.shards == 1 && !c.verdict))
    && !(c.verdict && (c.op == 0 || c.op == 4))
    && (c.count == 0 || (src.ok false &&
        (match dst with
         | none => true
         | some d => d.ok false && (if c.op = 0 ∨ c.op = 4 then d.fmt == src.fmt && d.exact == src.exact
                                    else d.exact || (fmtOut d))) &&
        (if c.op = 0 ∨ c.op = 4 then fmtMove src else floatOrExact src && (c.wire != 2 || !isL)) &&
        (if c.op = 4 then decide (n ≥ c.count) && inRegion c.lenAddr 4 &&
            (match dst with | some d => d.rows * d.cols == g.p * c.count | none => true) &&
            (match counts with | some t => t.ok false && !t.exact && t.fmt == 0x0F && t.rows * t.cols == g.p
                               | none => false)
         else n == c.count && (match dst with | some d => d.rows * d.cols == c.count | none => true))))
    && rmodeOk c.rmode && streamOk c.stream
    && decide (c.staging g ≤ 1024 * s.reg (Reg.rlyStageSize eng))

/-- COLLECTIVE. Before bit 124 there is no group table to check it against: the record retires with STATUS_NOT_READY (R381), which
the need of a bit that MGT_READY_MAP has not says. -/
def planCollective (s : M) (r : Rec) (c : CD) (src : TD) (dst counts : Option TD) : Plan :=
  let group := bits r.w1 15 0
  let g := s.groupRec group
  let ready := bit (s.reg Reg.mgtReadyMap) 124
  Plan.when (!ready || collOk s c group g src dst counts)
    { cycles := 1, units := 1, cls := 14, needs := if ready then [124] else [128]
      outs := match dst with | some d => d.range false | none => [] }

/-- A common macro-op, or what a record plans with the descriptors it read: `ds` its tensor descriptors, `od` the 64
bytes of its operation descriptor, `ls` its layer entries, `aux` the tensor descriptors that a collective descriptor
names. -/
def Rec.plan (s : M) (core : Nat) (r : Rec) (body : List Nat) (ds : List TD) (od : Nat) (ls : List Layer)
    (aux : List TD) : Plan :=
  match r.op, ds with
  | 0x05, _ => planState core r
  | 0x06, _ => planState core r
  | 0x10, [d, x] => planLoadTile core r d x
  | 0x11, [d, x] => planExpand core r d x
  | 0x12, [d, x, i] => planGather core d x i
  | 0x1F, [a, b, c] => planPlay r [a, b, c] body
  | 0x30, a :: b :: c => planMma s.standard core r a b c.head? (AD.parse od)
  | 0x31, a :: b :: c => planMma s.standard core r a b c.head? (AD.parse od)
  | 0x32, a :: b :: c => planMma s.standard core r a b c.head? (AD.parse od)
  | 0x33, a :: b :: c => planMma s.standard core r a b c.head? (AD.parse od)
  | 0x34, [o] => planDrain core r o
  | 0x50, [x, o] => planCast r x o
  | 0x51, [x, o] => planEpilogue r x none o
  | 0x51, [y, x, o] => planEpilogue r x (some y) o
  | 0x52, [y, x, o] => planEwise r x y o
  | 0x53, [o, x] => planReduceExact r o x
  | 0x54, [a, b] => if r.rfMode = 2 then planReduceFast r none a (some b) else planReduceFast r (some a) b none
  | 0x54, [p, x, o] => planReduceFast r (some p) x (some o)
  | 0x55, o :: x :: rest => planNorm r o x rest
  | 0x56, [o] => planRngFill r o
  | 0x5F, [a, b, c] => planPlay r [a, b, c] body
  | 0x80, [d, x] => planStoreTile core r d x
  | 0x81, [d] => planFill core d
  | 0x82, [i, v, t] => planScatter r i v t
  | 0x83, [i, v, t] => planScatter r i v t
  | 0x88, _ => planCollective s r (CD.parse od) (aux.getD 0 (TD.parse 0)) aux[1]? aux[2]?
  | 0x89, _ => planUpdate s r od ls
  | 0x8A, [d, x] => planSnapshot core r d x
  | 0x9F, [a, b, c] => planPlay r [a, b, c] body
  | _, _ => {}

end Sys2Proof.Machine
end

