-- ==== Sys2Proof/Machine/Engine.lean ====
section
/-! DEFINITION. Engine rings (R123 to R139): the arbitration point, decode (R147), credits (R326), issue, the work of an
issued macro-op, halts and retirement (R125, R149, R422), with the engine's counters and trace samples. -/

namespace Sys2Proof.Machine

/-! ## Rings -/

/-- RUN of a ring. -/
def M.ringRun (s : M) (core e : Nat) : Bool := bit (s.reg (Reg.coreRingCtl core e)) 0

/-- Are all four rings of a logical core halted (R127)? -/
def M.allHalted (s : M) (core : Nat) : Bool := (List.range 4).all fun e => !s.ringRun core e

/-- Does the ring hold no unissued record? -/
def M.ringEmpty (s : M) (core e : Nat) : Bool := s.reg (Reg.coreRingWr core e) == s.reg (Reg.coreRingRd core e)

/-- Is the ring full (R123)? -/
def M.ringFull (s : M) (core e : Nat) : Bool :=
  trunc 32 (s.reg (Reg.coreRingWr core e) + 2 ^ 32 - s.reg (Reg.coreRingRd core e)) == s.reg (Reg.coreRingSize core e)

/-- May the engine act on its ring now: RUN is set, the core is neither switching nor switched out, its position is ACTIVE
and not OFF, and Practice does not hold it (R114, R119, R121, R335, R358)? -/
def M.canArbitrate (s : M) (core e : Nat) : Bool :=
  let p := s.posOf core
  s.ringRun core e && s.coreMode core != 3 && s.switchedIn core && s.posState p == 0 && !(s.posX p).practice
    && bits (s.reg (Reg.pwrPosOp p)) 2 0 != 7

/-- A machine-mode interrupt is raised in the control core of a logical core, and counted (R122): 0 ring halt, 1 substitution, 2
doubling switch. -/
def ctlInterrupt (core cause : Nat) : Act Unit := do
  let s ← get
  updCore core fun c => { c with ctl := { c.ctl with irq := c.ctl.irq ++ [cause] } }
  posCount (s.posOf core) 32 8 0x109 1 core

/-- Halt a ring (R138): RUN is cleared, the record number and status are shown, and a ring-halt event and a machine-mode
interrupt of the control core (R122) are raised. -/
def haltRing (core e x status : Nat) : Act Unit := do
  upd (Reg.coreRingCtl core e) fun v => setBits v 0 0 0
  wr (Reg.coreRingHaltIndex core e) x
  setField (Reg.coreRingState core e) 15 0 status
  setField (Reg.coreRingState core e) 28 28 1
  engEvent core e 0x09 1
  ctlInterrupt core 0

/-- Count a record retired or halted with a status of Table 17-2. -/
def statusEvent (core e status : Nat) : Act Unit := whenA (decide (status ≤ 12)) (engEvent core e (0x30 + status) 1)

/-- The record at a record number as the ring's line holds it, corrected; none if the line is poisoned. -/
def M.peekRec (s : M) (core e x : Nat) : Option Rec :=
  let l := s.recAddr core e x / 32
  match rsDecode (s.codeword l) with
  | .poisoned => none
  | .uncorrectable => none
  | st => some (Rec.ofNat (leNat (((rsRepair (s.codeword l) st).take 32).map (BitVec.ofNat 8))))

/-! ## Records that an abort reaches at the arbitration point (R136) -/

/-- A record that retires with STATUS_ABORTED without having been issued. -/
def InFlight.abortedAt (x : Nat) (r : Rec) : InFlight :=
  { x := x, w0 := r.w0, w1 := r.w1, w2 := r.w2, w3 := r.w3, started := true, done := true, aborted := true }

/-- The records at RD that an abort has marked pass the arbitration point, to retire as aborted; n at most. -/
def settleMarks (core e : Nat) : Nat → Act Unit
  | 0 => pure ()
  | n + 1 => do
    let s ← get
    let x := s.reg (Reg.coreRingRd core e)
    if (s.ring core e).marks.contains x && s.ringRun core e && !s.ringEmpty core e then do
      let r := (s.peekRec core e x).getD ⟨0, 0, 0, 0⟩
      updRing core e fun g =>
        { g with infl := g.infl ++ [InFlight.abortedAt x r], marks := g.marks.filter (· != x), credit := false, waited := 0
                 reserved := false, dec := none }
      wr (Reg.coreRingRd core e) (trunc 32 (x + 1))
      settleMarks core e n
    else pure ()

/-- All the marked records at RD. -/
def settle (core e : Nat) : Act Unit := do
  let s ← get
  settleMarks core e (s.ring core e).marks.length

/-! ## Decode (R147) -/

/-- What decode finds: its status (0 where it passes), the record, and what it read. -/
structure Decoded where
  status : Nat
  rcd : Rec
  plan : Plan
  ds : List Nat
  od : Nat
  ls : List Nat
  aux : List Nat

/-- A failed decode. -/
def Decoded.fail (status : Nat) (r : Rec) : Decoded := ⟨status, r, {}, [], 0, [], []⟩

/-- The control words of a loaded play. -/
def M.playBody (s : M) (core e entry : Nat) : Option (List Nat) :=
  (s.ring core e).plays.findSome? fun (n, ws) => if n = entry then some ws else none

/-- Is the header valid: THROW_CORE in the grade, and a PLAY that is not 0 loaded (R147)? -/
def M.headerOk (s : M) (core e : Nat) (r : Rec) : Bool :=
  (r.throwCore == 0xFF || decide (r.throwCore < s.nCores))
    && (r.play == 0 || (s.playBody core e r.play).isSome)

/-- Read n entries of 128 bytes from line index i of the home slice. -/
def readEntries (core i n : Nat) : Act (List (Bool × Nat)) :=
  mapA (List.range n) fun k => do
    let (p, bs) ← readBytes (homeAddr core i + 128 * k) 128
    pure (p, leNat bs)

/-- The tensor descriptors that a collective descriptor names and that this member reads (R280). -/
def CD.tdPtrs (c : CD) (g : GroupRec) : List Nat :=
  [c.src] ++ (if c.readsDst g then [c.dst] else []) ++ (if c.op = 4 then [c.countsTd] else [])

/-- The line of a group's record is read (R201); whether it is poisoned. -/
def readGroup (group : Nat) : Act Bool := do
  let s ← get
  readLine ((s.reg Reg.rlyGroupBase + 32 * group) / 32)

/-- Decode the record at record number x. -/
def decode (core e x : Nat) : Act Decoded := do
  let s ← get
  let (p, bs) ← readBytes (s.recAddr core e x) 32
  let r := Rec.ofNat (leNat bs)
  if p then pure (Decoded.fail 3 ⟨0, 0, 0, 0⟩)
  else if !opKnown r.op || !opOnRing e r.op then pure (Decoded.fail 1 r)
  else if r.op == 0x33 && s.standard then pure (Decoded.fail 2 r)
  else if !s.headerOk core e r then pure (Decoded.fail 1 r)
  else do
    let ds ← mapA r.tdPtrs (readDesc core)
    let od ← match r.opPtr with
      | some i => readDesc core i
      | none => pure (false, 0)
    let ls ← if r.op == 0x89 && !od.1 && decide (updCount od.2 ≤ 4096)
      then readEntries core (updLayers od.2) (updCount od.2) else pure []
    let gp ← if r.op == 0x88 then readGroup (bits r.w1 15 0) else pure false
    let s ← get
    let aux ← if r.op == 0x88 && !od.1
      then mapA ((CD.parse od.2).tdPtrs (s.groupRec (bits r.w1 15 0))) (readDesc core) else pure []
    if od.1 || gp || ds.any Prod.fst || ls.any Prod.fst || aux.any Prod.fst then pure (Decoded.fail 3 r)
    else
      let n := fun l : List (Bool × Nat) => l.map Prod.snd
      let s ← get
      let plan := r.plan s core ((s.playBody core e r.play).getD []) ((n ds).map TD.parse) od.2 ((n ls).map Layer.parse)
        ((n aux).map TD.parse)
      pure ⟨plan.status, r, plan, n ds, od.2, n ls, n aux⟩

/-! ## Credits (R324 to R327) -/

/-- f(op) of Table 13-3. -/
def opFactor (op : Nat) : Nat := [1192, 1024, 869, 726, 596, 536].getD op 1024

/-- PJ_c of a class on engine e; class 15 is charged at the figure that Table 13-2 names. -/
def M.classPj (s : M) (e cls : Nat) : Nat :=
  s.reg (Reg.pwrClassPj (if cls = 15 then [2, 4, 11, 13].getD e 13 else cls))

/-- E of R324 for a macro-op of engine e at a position. -/
def M.energy (s : M) (pos e cls units : Nat) : Nat :=
  ceilDiv (units * s.classPj e cls * opFactor (s.posX pos).clk) 1024

/-- CREDIT_CAP in pJ. -/
def creditCap : Nat := 32000000

/-- The balance of a credit island. -/
def M.balance (s : M) (i : Nat) : Int := toSigned 64 (s.reg (Reg.pwrBalance i))

/-- Add to the balance of a credit island. -/
def addBalance (i : Nat) (x : Int) : Act Unit :=
  modify fun s => s.setReg (Reg.pwrBalance i) (ofSigned 64 (s.balance i + x))

/-- Is another engine of the position reserved (R327)? -/
def M.otherReserved (s : M) (core e : Nat) : Bool :=
  (List.range s.nCores).any fun n => s.posOf n == s.posOf core &&
    (List.range 4).any fun k => !(n == core && k == e) && (s.ring n k).reserved

/-! ## Issue -/

/-- Does the macro-op draw random bits, or take the step with it (R98, R242): stochastic rounding of its record or of the words of
its custom play, RNG_FILL, a collective, an update, a snapshot? -/
def Rec.latches (r : Rec) (e : Nat) (body : List Nat) : Bool :=
  r.rmode == 4 || r.op == 0x56 || r.op == 0x88 || r.op == 0x89 || r.op == 0x8A || playDraws e body

/-- An operation that goes on after the next record has issued: a collective, an update, a snapshot to another node. -/
def Rec.async (r : Rec) : Bool := r.op == 0x88 || r.op == 0x89 || (r.op == 0x8A && bits r.w2 15 0 != 0xFFFF)

/-- Is an operation of the engine in the way of the record: its data operation is not done (R125, R148)? A drain begins
after the matrix macro-ops into its slot; a slot that drains lets neither kind begin (R79). -/
def M.engineBusy (s : M) (core e : Nat) (r : Rec) : Bool :=
  let live := (s.ring core e).infl.filter fun f => !f.done && !f.rcd.async && decide (f.rcd.op > 6)
  if r.op ≤ 6 then false
  else if opMatrix r.op then
    live.any (fun f => opMatrix f.rcd.op) || ((s.core core).slot r.slotOf).state == .draining
  else if r.op = 0x34 then
    live.any (fun f => f.rcd.op == 0x34 || f.rcd.slotOf == r.slotOf) || ((s.core core).slot r.slotOf).state == .draining
  else !live.isEmpty

/-- Do all the functions that a plan needs have their bits in MGT_READY_MAP (R381)? The home slice of a logical core is ready with
the core, every other slice with bit 120 (Table 15-6). -/
def M.readyFor (s : M) (needs : List Nat) : Bool :=
  needs.all fun b => bit (s.reg Reg.mgtReadyMap) (if b < 256 then b else if b - 256 < s.nCores then b - 256 else 120)

/-- The entry of a decoded record: what decode read of it, once (R147). -/
def Decoded.entry (d : Decoded) (x : Nat) : InFlight :=
  { x := x, w0 := d.rcd.w0, w1 := d.rcd.w1, w2 := d.rcd.w2, w3 := d.rcd.w3
    descs := d.ds, od := d.od, ls := d.ls, aux := d.aux, needs := d.plan.needs
    cycles := d.plan.cycles, cls := d.plan.cls, units := d.plan.units, slot := d.plan.slot, outs := d.plan.outs }

/-- The descriptors of an entry. -/
def InFlight.tds (f : InFlight) : List TD := f.descs.map TD.parse

/-- Descriptor k of an entry. -/
def InFlight.td (f : InFlight) (k : Nat) : TD := f.tds.getD k (TD.parse 0)

/-- The entry against the slot that its record names, as it stands at issue (R79): none where Table 03-10 fails it, else with the
cycles and units that follow from the slot (R61, R75, R157). -/
def M.atSlot (s : M) (core : Nat) (f : InFlight) : Option InFlight :=
  let r := f.rcd
  let sl := (s.core core).slot r.slotOf
  if opMatrix r.op then
    let cls := mmaClass r.op (f.td 0) (f.td 1)
    let opens := sl.state != .opened && (cls == .w || cls == .l) && r.window == 0xFE
    if mmaSlotOk core r (f.td 0) (f.td 1) (AD.parse f.od) sl then
      some { f with cycles := f.cycles + (if opens then 4 else 0) }
    else none
  else if r.op = 0x34 then
    let o := f.td 0
    let n := tDrain o.rows o.cols o.ebits sl.cls sl.touched
    if drainSlotOk o sl then
      some { f with cycles := n, units := n, slot := if sl.state = .opened then f.slot else none }
    else none
  else some f

/-- The entry as it passes the arbitration point: what it latches there (R96, R98, R223, R318), and STATUS_NOT_READY if a ready bit that
it needs is clear (R381). -/
def M.atIssue (s : M) (core e : Nat) (f : InFlight) : InFlight :=
  let step := s.reg (Reg.coreStep core)
  let f := { f with
    now := step
    limit := if f.rcd.op = 0x89 then max 1 (bits (s.reg Reg.updCtl) 15 0)
      else if f.rcd.op = 0x88 ∨ f.rcd.op = 0x8A then max 1 (bits (s.reg Reg.rlyCtl) 15 0) else 0
    step := if f.rcd.latches e ((s.playBody core e f.rcd.play).getD []) then step else 0
    upd := if f.rcd.op = 0x89 then
        { f.upd with ls := s.reg (Reg.coreJobLossScale core), t := satU 32 (s.reg (Reg.coreJobBiasCorr core) + 1) }
      else f.upd }
  if s.readyFor (core :: f.needs) then f else { f with started := true, done := true, own := 8, cycles := 1 }

/-- The decode of a record fails: the ring halts, the catch is not subtracted (R138). -/
def decodeFails (core e x status : Nat) : Act Unit := do
  updRing core e fun g => { g with credit := false, waited := 0, reserved := false, dec := none }
  statusEvent core e status
  whenA (status == 2) (raiseEvent 4)
  haltRing core e x status

/-- The record at RD as far as it can be seen: as its decode left it, else as its line holds it. -/
def M.headRec (s : M) (core e : Nat) : Option Rec :=
  match (s.ring core e).dec with
  | some f => some f.rcd
  | none => s.peekRec core e (s.reg (Reg.coreRingRd core e))

/-- Is the catch of the record at RD satisfied (R128)? A record whose line cannot be read catches nothing. -/
def M.caught (s : M) (core e : Nat) : Bool :=
  match s.headRec core e with
  | none => true
  | some r => decide (r.catchN ≤ s.reg (Reg.corePassCount core r.catchPass))

/-- Does the engine take up the record at RD: it may act, there is one, and its catch is satisfied? -/
def M.takesUp (s : M) (core e : Nat) : Bool := s.canArbitrate core e && !s.ringEmpty core e && s.caught core e

/-- The record at RD is decoded, unless it has been (R147): its entry, or the status of the failure. -/
def decodeOnce (core e : Nat) : Act (Nat ⊕ InFlight) := do
  let s ← get
  match (s.ring core e).dec with
  | some f => pure (.inr f)
  | none => do
    let x := s.reg (Reg.coreRingRd core e)
    let d ← decode core e x
    if d.status ≠ 0 then pure (.inl d.status)
    else do
      updRing core e fun g => { g with dec := some (d.entry x) }
      pure (.inr (d.entry x))

/-- min(E, CREDIT_CAP) of an entry (R326). -/
def M.requirement (s : M) (core e : Nat) (f : InFlight) : Nat := min (s.energy (s.posOf core) e f.cls f.units) creditCap

/-- The credits that the entry needs are not there, or another engine's reservation keeps it (R326, R327). -/
def M.starved (s : M) (core e : Nat) (f : InFlight) : Bool :=
  decide (s.balance (s.posOf core) < s.requirement core e f) ||
    (s.otherReserved core e && !(s.ring core e).reserved && f.cls != 0 && f.cls != 14)

/-- Is the record of engine k, which waits for credits, ready to issue before that of engine e: the smaller requirement first, then
the order F, M, V, S (R327)? -/
def M.goesFirst (s : M) (core k e need : Nat) : Bool :=
  match (s.ring core k).dec with
  | none => false
  | some f =>
    (s.ring core k).credit && s.takesUp core k && !s.engineBusy core k f.rcd &&
      match s.atSlot core f with
      | none => false
      | some f => !s.starved core k f && (decide (s.requirement core k f < need) || (s.requirement core k f == need && decide (k < e)))

/-- Does another engine of the core go first with credits (R327)? -/
def M.outranked (s : M) (core e : Nat) (f : InFlight) : Bool :=
  (List.range 4).any fun k => k != e && s.goesFirst core k e (s.requirement core e f)

/-- An entry passes the arbitration point: its catch is subtracted and its energy charged (R128, R326); the slot of a DRAIN is
draining from here on (R79). -/
def passPoint (core e : Nat) (f : InFlight) : Act Unit := do
  let s ← get
  let p := s.posOf core
  upd (Reg.corePassCount core f.rcd.catchPass) fun c => c - f.rcd.catchN
  addBalance p (-(s.energy p e f.cls f.units : Int))
  chargeUnits p f.cls f.units
  updRing core e fun g =>
    { g with infl := g.infl ++ [s.atIssue core e f], credit := false, waited := 0, reserved := false, dec := none }
  wr (Reg.coreRingRd core e) (trunc 32 (f.x + 1))
  match f.slot with
  | some k => whenA (f.rcd.op == 0x34) (updSlot core k fun sl => { sl with state := .draining })
  | none => pure ()
  engEvent core e 0x00 1
  engEvent core e 0x0D f.rcd.catchN
  engEvent core e (0x10 + f.cls) 1
  engEvent core e (0x20 + f.cls) f.units

/-- The record at RD passes the arbitration point, if its catch is satisfied, it decodes, nothing of its engine is in its
way, its slot takes it and the island holds its credits (R79, R128, R135, R147, R326). `want` names the opcode that is to issue.
Answers whether it issued; a record that fails halts its ring. -/
def issue (core e : Nat) (want : Option Nat) : Act Bool := do
  settle core e
  let s ← get
  let wanted := match want, s.headRec core e with
    | none, _ => true
    | some op, some r => r.op == op
    | some _, none => false
  if !s.takesUp core e || !wanted then pure false
  else do
    let d ← decodeOnce core e
    let s ← get
    match d with
    | .inl status => do
      decodeFails core e (s.reg (Reg.coreRingRd core e)) status
      pure false
    | .inr f =>
      if s.engineBusy core e f.rcd then pure false
      else
        match s.atSlot core f with
        | none => do
          decodeFails core e f.x 1
          pure false
        | some f =>
          if s.starved core e f || s.outranked core e f then do
            updRing core e fun g => { g with credit := true }
            pure false
          else do
            passPoint core e f
            settle core e
            pure true

/-! ## The work of an issued macro-op -/

/-- The flags, result and so on that a piece of work leaves in its entry. -/
abbrev Work := InFlight → Act InFlight

/-- Put entry i of a ring's in-flight list. -/
def putInFlight (core e i : Nat) (f : InFlight) : Act Unit :=
  updRing core e fun g => { g with infl := g.infl.set i f }

/-- Run the macro-op with opcode `op` of ring e: the one that has passed the arbitration point and not begun, or the record
at RD, which then issues. -/
def runOp (core e op : Nat) (work : Work) : Act Unit := do
  let begun := fun f : InFlight => f.started || f.rcd.op != op
  let s ← get
  let pending := (s.ring core e).infl.any fun f => !begun f
  let ok ← if pending then pure true else issue core e (some op)
  let s ← get
  let l := (s.ring core e).infl
  match l.findIdx? (fun f => !begun f), ok with
  | some i, true =>
    match l[i]? with
    | none => pure ()
    | some f => do
      let f' ← work { f with started := true }
      putInFlight core e i f'
  | _, _ => pure ()

/-- A done entry with flags and poison added. -/
def InFlight.finish (f : InFlight) (fl : Flags) (poison : Bool) : InFlight :=
  { f with done := true, flags := ((Flags.ofNat f.flags).join fl).toNat, poison := f.poison || poison }

/-- The job seed of a core. -/
def M.seed (s : M) (core : Nat) : Nat := (s.core core).seed

/-- The word of a tensor index for an entry's step and stream (R95). -/
def M.srWord (s : M) (core : Nat) (f : InFlight) (idx : Nat) : Nat := rngWord (s.seed core) f.step f.rcd.stream idx

/-- Overwrite the named output ranges of a macro-op with free values (R66, R88, R170). -/
def scrambleOuts (outs : List (Nat × Nat)) : Act Unit := forA outs fun (a, n) => scramble a n

/-- The HAZARD setting in effect on an engine (Table 07-9). -/
def M.hazardSetting (s : M) (core e : Nat) : Nat := bits (s.reg (Reg.corePlayState core e)) 25 24

/-- The report of one hazard in CORE_HAZARD_FIRST. -/
def hazardFirst (h : Hazard) (x play : Nat) : Nat :=
  h.kind <<< 96 + b2n h.line <<< 95 + trunc 22 h.target <<< 64 + x <<< 32 + satU 24 h.cycle <<< 8 + play

/-- Hazard watch's report of a play's hazards (R186, R187): counts, the first hazard, the event and the log record. -/
def reportHazards (core e : Nat) (f : InFlight) (hs : List Hazard) : Act Unit := do
  let s ← get
  let haz := s.hazardSetting core e
  let hs := if haz = 2 then hs.take 1 else if haz = 1 then hs else []
  match hs with
  | [] => pure ()
  | h :: _ => do
    whenA (s.reg (Reg.coreHazardCount core e) == 0) (wr (Reg.coreHazardFirst core e) (hazardFirst h f.x f.rcd.play))
    upd (Reg.coreHazardCount core e) fun c => satU 32 (c + hs.length)
    engEvent core e 0x0B hs.length
    let c := s.core core
    let first := hazardFirst h f.x f.rcd.play
    logAdd 0x02 (s.posOf core) f.step core ((c.job.map Prod.fst).getD 0xFF) ((c.job.map Prod.snd).getD 0)
      (payload [(0, 4, f.x), (4, 1, f.rcd.play), (5, 1, h.kind), (8, 4, bits first 85 64), (12, 4, h.cycle),
                (16, 4, hs.length)])

/-- The rounding mode of an entry. -/
def InFlight.mode (f : InFlight) : RMode := (RMode.ofCode f.rcd.rmode).getD .rne

/-- The custom play that a record names runs on its descriptors (R169, R179): its beats are counted (Table 17-2), and its hazards
reported (R186). -/
def playOf (core e imm : Nat) (f : InFlight) : Act PlayRes := do
  let s ← get
  let body := (s.playBody core e f.rcd.play).getD []
  let r ← runPlay core e (s.hazardSetting core e) f.mode (f.tds.map some) imm (s.seed core) f.step f.rcd.stream body
  engEvent core e 0x0A r.suppressed
  engEvent core e 0x0E r.beatsRead
  engEvent core e 0x0F r.beatsWritten
  reportHazards core e f r.hazards
  pure r

/-- Did strict watch stop the play (R187)? -/
def M.strictStop (s : M) (core e : Nat) (r : PlayRes) : Bool := s.hazardSetting core e == 2 && !r.hazards.isEmpty

/-- Run the custom play of an entry as its work. -/
def runCustom (core e imm : Nat) (f : InFlight) : Act InFlight := do
  let r ← playOf core e imm f
  let s ← get
  let strict := s.strictStop core e r
  whenA strict (scrambleOuts f.outs)
  pure { f.finish r.flags r.poison with cycles := r.cycles, hazard := strict }

/-- The work of an operation of F, V or S: the standard play, or the custom play that the record names. -/
def orPlay (core e : Nat) (std : Work) : Work := fun f =>
  if f.rcd.play = 0 then std f else runCustom core e 0 f

/-- The work of an operation whose requests update units or Relay engines carry out, whatever a custom play does (R174): the
requests, and the play that the record names, which is not what ends the operation. -/
def withPlay (core e : Nat) (std : Work) : Work := fun f => do
  let g ← std f
  if f.rcd.play = 0 then pure g
  else do
    let r ← runCustom core e 0 g
    pure { r with done := g.done || r.hazard }

/-- The work of F_PLAY, V_PLAY and S_PLAY: TD0, TD1, TD2 and IMM (R169). -/
def playWork (core e : Nat) : Work := fun f => runCustom core e (bits f.rcd.w3 31 0) f

/-- The work of a macro-op that only catches and throws. -/
def noWork : Work := fun f => pure { f with done := true }

/-! ## Retirement (R125, R129 to R131, R149, R418, R422) -/

/-- Status of a retiring entry, its overflow aside (R422). -/
def InFlight.status (f : InFlight) (ovf : Bool) : Nat :=
  if f.hazard then 6 else if f.aborted then 4 else if ovf then 5 else if f.poison then 3 else f.own

/-- Did a STATE_LOAD find a record out of range (R237), or a STEP_SET an exhausted step register (R98)? Such a status keeps its
effects beside one that is reported before it (R422). -/
def InFlight.fails (f : InFlight) : Bool := (f.rcd.op == 0x06 && f.own == 1) || (f.rcd.op == 0x03 && f.own == 7)

/-- Does the entry halt its ring at retirement, overflow aside: a strict hazard, or a STATE_LOAD that failed or found poison (R170,
R237)? An exhausted STEP_SET has halted it at the arbitration point (Table 05-11). -/
def InFlight.halts (f : InFlight) : Bool := f.hazard || (f.rcd.op == 0x06 && (f.own == 1 || f.poison))

/-- Does the entry throw its pass? Not after a strict hazard, nor after such a failure. -/
def InFlight.throws (f : InFlight) : Bool := f.rcd.throwN != 0 && !f.hazard && !f.fails

/-- The completion record of Table 06-4. -/
def InFlight.record (f : InFlight) (status extra : Nat) : List Byte :=
  leBytes 32 (status + f.rcd.op <<< 16 + trunc 7 f.flags <<< 32 + f.x <<< 64 + satU 32 f.result <<< 96
    + trunc 40 f.step <<< 128 + satU 32 (f.cycles + f.frozen + extra) <<< 192 + satU 32 f.spill <<< 224)

/-- Is a retirement of engine e sampled, and the trace state afterwards (R418)? -/
def traceSample (pos e : Nat) : Act Bool := do
  let s ← get
  let c := s.reg (Reg.posTraceCtl pos)
  let n := max 1 (bits c 15 0)
  if !bit c 31 || !bit c (24 + e) then pure false
  else if bits c 29 28 = 0 then do
    let k := s.reg (Reg.posTraceN pos e) + 1
    wr (Reg.posTraceN pos e) (k % n)
    pure (k % n == 0)
  else if bits c 23 16 / 8 = e then do
    let q := s.reg (Reg.posCnt pos (bits c 23 16)) / n
    let last := s.reg (Reg.posTraceLast pos)
    wr (Reg.posTraceLast pos) q
    pure (decide (q > last))
  else pure false

/-- Write one trace record (Table 17-5). -/
def traceRecord (core e : Nat) (f : InFlight) (status : Nat) : Act Unit := do
  let s ← get
  let pos := s.posOf core
  let c := s.reg (Reg.posTraceCtl pos)
  let x := s.reg (Reg.posTraceWr pos)
  let lat ← freeVal 32
  let r := f.w0 + f.w1 <<< 64 + f.w2 <<< 128 + f.w3 <<< 192 + s.recAddr core e f.x <<< 256 + e <<< 304
    + trunc 7 f.flags <<< 312 + f.x <<< 320 + satU 32 (f.cycles - f.stall) <<< 352 + lat <<< 384 + status <<< 416
    + core <<< 432 + trunc 48 (s.island pos) <<< 464
  forA (List.range 8) fun k => wr (Reg.posTraceBuf pos (8 * (x % 256) + k)) (word64 r k)
  wr (Reg.posTraceWr pos) (trunc 32 (x + 1))
  whenA (decide (x + 1 ≥ 256) && !bit c 30) (wr (Reg.posTraceCtl pos) (setBits c 31 31 0))

/-- The throw of a retiring record: 2 taken, 3 refused for overflow, 1 held while the target is moved or
Practice runs in its position (R119, R130, R131, R358). -/
def throwOf (core e : Nat) (r : Rec) : Act Nat := do
  let s ← get
  let t := if r.throwCore = 0xFF then core else r.throwCore
  if t ≠ core ∧ (s.coreMode t = 3 ∨ (s.posX (s.posOf t)).practice) then do
    updCore t fun c => { c with heldPasses := c.heldPasses ++ [(core, e, r.throwPass, r.throwN)] }
    pure 1
  else do
    let ok ← throwPass t r.throwPass r.throwN
    whenA ok (engEvent core e 0x0C r.throwN)
    pure (if ok then 2 else 3)

/-- The job state changes that a FINAL UPDATE's retirement makes (R236); LOSS_SCALE is a power of two. -/
def finalStep (core : Nat) (finite : Bool) : Act Unit := do
  let s ← get
  let c := s.core core
  let e := s.reg (Reg.coreJobLossScale core) / 2 ^ 23
  if finite then do
    upd (Reg.coreJobBiasCorr core) fun v => satU 32 (v + 1)
    let run := satU 32 (s.reg (Reg.coreJobFiniteRun core) + 1)
    if c.growthInterval ≠ 0 ∧ run ≥ c.growthInterval then do
      wr (Reg.coreJobLossScale core) (min (e + c.growthLog2) 159 * 2 ^ 23)
      wr (Reg.coreJobFiniteRun core) 0
    else wr (Reg.coreJobFiniteRun core) run
  else do
    upd (Reg.coreJobSkipCount core) fun v => satU 32 (v + 1)
    wr (Reg.coreJobLossScale core) (max (e - 1) 127 * 2 ^ 23)
    wr (Reg.coreJobFiniteRun core) 0

/-- The oldest in-flight entry of a ring retires, its throw settled. -/
def retireNow (core e extra : Nat) (f : InFlight) : Act Unit := do
  let s ← get
  let ovf := f.thrown == 3
  let status := f.status ovf
  whenA f.rcd.complete do
    let _ ← writeBytes (s.recAddr core e f.x) (f.record status extra)
    pure ()
  updRing core e fun g => { g with infl := g.infl.drop 1, watch := if g.watch = some f.x then none else g.watch }
  whenA ((s.ring core e).watch == some f.x)
    (wr (Reg.coreRingAbortResult core e) (2 <<< 30 + (if f.aborted then 4 else 0xD)))
  upd (Reg.coreRingRet core e) fun v => trunc 32 (v + 1)
  match f.slot with
  | none => pure ()
  | some k => whenA (f.rcd.op == 0x34 && ((s.core core).slot k).state == .draining) (updSlot core k fun _ => {})
  whenA (f.rcd.op == 0x89 && updFinal f.od && !f.aborted && f.upd.verdict != 0) (finalStep core (f.upd.verdict == 1))
  engEvent core e 0x01 1
  statusEvent core e status
  let t ← traceSample (s.posOf core) e
  whenA t (traceRecord core e f status)
  whenA (f.halts || ovf) (haltRing core e f.x status)

/-- MACRO_OP_RETIRE: the oldest in-flight entry, if its work is done, its product check has passed (R344), and nothing holds it, throws
and retires. -/
def retire (core e extra : Nat) : Act Unit := do
  let s ← get
  match (s.ring core e).infl with
  | [] => pure ()
  | f :: _ =>
    if !f.done || f.held || f.thrown == 1 || f.pred != f.obs then pure ()
    else if f.thrown == 0 && f.throws then do
      let t ← throwOf core e f.rcd
      if t = 1 then putInFlight core e 0 { f with thrown := 1 }
      else retireNow core e extra { f with thrown := t }
    else retireNow core e extra f

end Sys2Proof.Machine
end

