-- ==== Sys2Proof/Machine/FEngine.lean ====
section
/-! DEFINITION. The common macro-ops (R98, R102, R128, R134, R237) and the macro-ops of the F engine (R154, R169). -/

namespace Sys2Proof.Machine

/-! ## Common macro-ops -/

/-- The job state record of a logical core, as a number of its 64 bytes (Table 04-3). -/
def M.jobRecord (s : M) (core : Nat) : Nat :=
  let c := s.core core
  trunc 256 c.seed + trunc 40 (s.reg (Reg.coreStep core)) <<< 256 + s.reg (Reg.coreJobSkipCount core) <<< 320
    + s.reg (Reg.coreJobLossScale core) <<< 352 + s.reg (Reg.coreJobFiniteRun core) <<< 384
    + trunc 32 c.growthInterval <<< 416 + trunc 8 c.growthLog2 <<< 448 + s.reg (Reg.coreJobBiasCorr core) <<< 480

/-- LOSS_SCALE is a power of two from 2^0 to 2^32, GROWTH_LOG2 lies from 0 to 8 (R237). -/
def jobRecordOk (x : Nat) : Bool :=
  let ls := bits x 383 352
  ls % 2 ^ 23 == 0 && decide (127 ≤ ls / 2 ^ 23) && decide (ls / 2 ^ 23 ≤ 159) && decide (bits x 455 448 ≤ 8)

/-- Load a job state record into a logical core. -/
def loadJobRecord (core x : Nat) : Act Unit := do
  updCore core fun c => { c with seed := bits x 255 0, growthInterval := bits x 447 416, growthLog2 := bits x 455 448 }
  wr (Reg.coreStep core) (bits x 295 256)
  wr (Reg.coreJobSkipCount core) (bits x 351 320)
  wr (Reg.coreJobLossScale core) (bits x 383 352)
  wr (Reg.coreJobFiniteRun core) (bits x 415 384)
  wr (Reg.coreJobBiasCorr core) (bits x 511 480)

/-- STEP_SET (R98): absolute, or an increment; an increment of an exhausted register leaves it, fails and halts the ring at the
arbitration point (Table 05-11; log 44). -/
def stepSetWork (core e : Nat) : Work := fun f => do
  let v ← rd (Reg.coreStep core)
  if bit f.w1 63 ∧ v ≥ 2 ^ 40 - 1 then do
    haltRing core e f.x 7
    pure { f with done := true, own := 7 }
  else do
    wr (Reg.coreStep core) (if bit f.w1 63 then v + 1 else bits f.w1 39 0)
    pure { f with done := true }

/-- cap_eff (R330, R341): the cap in force, as heat lowers it, but not below 500 W. -/
def M.capEff (s : M) : Nat := max 500 (s.gov.cap - s.gov.capLow)

/-- The limit that binds a position (LIMIT of Table 13-6; R334): hard limit, estimator fault, throttling, sprint denied, none. -/
def M.limitCode (s : M) : Nat :=
  let st := s.reg Reg.pwrStatus
  let pct := min 100 (bits (s.reg Reg.pwrCtl) 15 8)
  if bits st 1 0 = 2 then 3
  else if bit st 3 then 4
  else if bits st 1 0 = 1 then 2
  else if s.gov.avg * 100 ≤ pct * s.capEff then 0
  else 1

/-- The governor sets a position to the slowest of the preferred point and what the limit allows (R334). A slower clock runs at
once, a faster one when its voltage is reached (R335). An OFF position stays OFF. -/
def setPoint (pos pref : Nat) : Act Unit := do
  let s ← get
  let v := s.reg (Reg.pwrPosOp pos)
  let lim := s.limitCode
  let op := max pref (match lim with | 0 => 0 | 1 => 1 | 2 => 2 | 3 => 5 | _ => 3)
  if bits v 2 0 = 7 then wr (Reg.pwrPosOp pos) (lim <<< 8 + pref <<< 4 + 7)
  else do
    whenA (bits v 2 0 != op) (posEvent pos 0x132 1)
    wr (Reg.pwrPosOp pos) (lim <<< 8 + pref <<< 4 + op)
    updPos pos fun x => { x with clk := max x.clk op }

/-- The preferred point in force of a logical core's phase. -/
def M.phasePoint (s : M) (core : Nat) : Nat := s.gov.phase.getD (s.reg (Reg.corePhase core)) 1

/-- PHASE_MARK (R134). -/
def phaseMarkWork (core : Nat) : Work := fun f => do
  let ph := bits f.w1 2 0
  wr (Reg.corePhase core) ph
  let s ← get
  whenA (s.switchedIn core) (setPoint (s.posOf core) (s.phasePoint core))
  pure { f with done := true }

/-- STATE_SAVE (R102). -/
def stateSaveWork (core : Nat) : Work := fun f => do
  let s ← get
  let _ ← writeBytes (bits f.w1 41 0) (leBytes 64 (s.jobRecord core))
  pure { f with done := true }

/-- STATE_LOAD (R102, R237): a poisoned line, or a record out of range, loads nothing. -/
def stateLoadWork (core : Nat) : Work := fun f => do
  let (p, bs) ← readBytes (bits f.w1 41 0) 64
  let x := leNat bs
  if p then pure { f with done := true, poison := true }
  else if !jobRecordOk x then pure { f with done := true, own := 1 }
  else do
    loadJobRecord core x
    pure { f with done := true }

/-- R150: NOP. NOP catches and throws only. -/
def execNop (core ring : Nat) (s : State) : Out := s.doing (runOp core ring 0x00 noWork)
/-- R150: THROW. THROW throws by its header. -/
def execThrowOp (core ring : Nat) (s : State) : Out := s.doing (runOp core ring 0x01 noWork)
/-- R150: CATCH. CATCH catches by its header. -/
def execCatchOp (core ring : Nat) (s : State) : Out := s.doing (runOp core ring 0x02 noWork)
/-- R98: STEP_SET. STEP_SET sets the step register absolutely or by increment, or fails with STATUS_STEP_EXHAUSTED. -/
def execStepSet (core ring : Nat) (s : State) : Out := s.doing (runOp core ring 0x03 (stepSetWork core ring))
/-- R134: PHASE_MARK. PHASE_MARK sets the logical core's phase, and the governor re-evaluates the operating point. -/
def execPhaseMark (core ring : Nat) (s : State) : Out := s.doing (runOp core ring 0x04 (phaseMarkWork core))
/-- R102: STATE_SAVE. STATE_SAVE writes the 64-byte job state record. -/
def execStateSave (core ring : Nat) (s : State) : Out := s.doing (runOp core ring 0x05 (stateSaveWork core))
/-- R237: STATE_LOAD. STATE_LOAD restores the job state record, or loads nothing and halts on a bad or poisoned record. -/
def execStateLoad (core ring : Nat) (s : State) : Out := s.doing (runOp core ring 0x06 (stateLoadWork core))

/-! ## Copies of views -/

/-- An MX view that is not exact has a scale array. -/
def TD.hasScales (t : TD) : Bool := isMx t.fmt && !t.exact

/-- The element that heads block b at index o. -/
def blockHead (k : Bool) (o b : Nat) : Nat × Nat := if k then (32 * b, o) else (o, 32 * b)

/-- Copy a view element by element, formats being equal: `src` names the source element of each destination element,
none for one that is written as +0 (an empty record), and `lost` the destination elements that are written poisoned.
Scales are copied with their blocks; the block of a missing element takes the scale of a block of zeros (R39). Answers
whether anything was poisoned. -/
def copyView (d s : TD) (kd ks : Bool) (src : Nat → Nat → Option (Nat × Nat)) (lost : Nat → Nat → Bool) : Act Bool := do
  let nb := ceilDiv (d.kExt kd) 32
  let blocks := if d.hasScales then (List.range (d.oExt kd)).map fun o => (List.range nb).map fun b =>
      (let (i, j) := blockHead kd o b; (src i j).map fun (x, y) => s.scaleAddr ks x y) else []
  let codeLs := d.cells.flatMap fun (i, j) => match src i j with | some (x, y) => s.codeLines x y | none => []
  let scaleLs := (blocks.flatMap id).filterMap fun a => a.map (· / 32)
  let bad ← readLines (codeLs ++ scaleLs).eraseDups
  let st ← get
  let code := fun i j => match src i j with | some (x, y) => st.code s x y | none => 0
  let dep := fun i j => lost i j || match src i j with
    | some (x, y) => (s.codeLines x y).any bad.contains
    | none => false
  let badD := (d.cells.flatMap fun (i, j) => if dep i j then d.codeLines i j else []).eraseDups
  let w ← writeCodes d kd code badD
  let ws ← mapA (List.range blocks.length) fun o => do
    let row := blocks.getD o []
    let bytes := row.map fun a => match a with | some a => (st.byte a).toNat | none => 0x7F
    let badS := (List.range row.length).filterMap fun b =>
      match row.getD b none with
      | some a => if bad.contains (a / 32) then some ((d.auxBase + o * nb + b) / 32) else none
      | none => none
    let w ← writeRun (8 * (d.auxBase + o * nb)) (8 * nb) (packCodes 8 bytes) badS
    pure (w || !badS.isEmpty)
  pure (w || !badD.isEmpty || ws.any id)

/-- Count beats of 256 bytes moved from or to the far store. -/
def farBeats (core e code : Nat) (far : Bool) (n : Nat) : Act Unit := whenA far (engEventX core e code (ceilDiv n 256))

/-! ## F engine -/

/-- LOAD_TILE. -/
def loadTileWork (core : Nat) : Work := fun f => do
  let d := f.td 0
  let x := f.td 1
  let k := f.rcd.kdim && d.hasScales
  let r0 := bits f.w2 31 0
  let c0 := bits f.w2 63 32
  let p ← copyView d x k k
    (fun i j => if r0 + i < x.rows ∧ c0 + j < x.cols then some (r0 + i, c0 + j) else none) (fun _ _ => false)
  farBeats core 0 0x1A2 (x.far k) d.dataBytes
  pure (f.finish {} p)

/-- EXPAND: each weight rounded once (R40 to R43). -/
def expandWork (core : Nat) : Work := fun f => do
  let d := f.td 0
  let x := f.td 1
  let bad ← readLines (x.lines true)
  let s ← get
  let (fl, p) ← writeVals d false (fun i j => s.elem x true i j) ((RMode.ofCode f.rcd.rmode).getD .rne)
    (s.srWord core f) (fun i j => x.elemBad true bad i j)
  engEventX core 0 (if x.fmt = 0x18 then 0x1A0 else 0x1A1) (d.rows * d.cols)
  pure (f.finish fl p)

/-- The index vector of GATHER or a scatter: for each of n entries, none where it lies on a poisoned line. -/
def readIndices (t : TD) (n : Nat) : Act (List (Option Int)) := do
  let at' := fun x => let (i, j) := t.idxAt x; t.codeLines i j
  let bad ← readLines ((List.range n).flatMap at').eraseDups
  let s ← get
  pure ((List.range n).map fun x =>
    if (at' x).any bad.contains then none
    else let (i, j) := t.idxAt x; some (toSigned 32 (s.code t i j)))

/-- Is an index out of range? -/
def idxOut (rows : Nat) : Option Int → Bool
  | some v => decide (v < 0) || decide (v ≥ rows)
  | none => false

/-- GATHER. -/
def gatherWork (core : Nat) : Work := fun f => do
  let d := f.td 0
  let x := f.td 1
  let ix ← readIndices (f.td 2) d.rows
  let p ← copyView d x false false
    (fun i j => match ix.getD i none with | some v => if idxOut x.rows (some v) then none else some (v.toNat, j) | none => none)
    (fun i _ => (ix.getD i none).isNone)
  let out := (ix.filter (idxOut x.rows)).length
  engEventX core 0 0x1A3 out
  farBeats core 0 0x1A2 (x.far false) d.dataBytes
  pure { f.finish {} p with result := out }

/-- R154: LOAD_TILE. LOAD_TILE copies a view into the home slice. -/
def execLoadTile (core : Nat) (s : State) : Out := s.doing (runOp core 0 0x10 (orPlay core 0 (loadTileWork core)))
/-- R154: EXPAND. EXPAND writes LUT4 or SZP weights, each rounded once. -/
def execExpand (core : Nat) (s : State) : Out := s.doing (runOp core 0 0x11 (orPlay core 0 (expandWork core)))
/-- R154: GATHER. GATHER copies rows selected by an index vector. -/
def execGather (core : Nat) (s : State) : Out := s.doing (runOp core 0 0x12 (orPlay core 0 (gatherWork core)))
/-- R169: F_PLAY. F_PLAY runs a custom play on the F engine. -/
def execFPlay (core : Nat) (s : State) : Out := s.doing (runOp core 0 0x1F (playWork core 0))

end Sys2Proof.Machine
end

