-- ==== Sys2Proof/Machine/VEngine.lean ====
section
/-! DEFINITION. The V engine (R160 to R165, R446): CAST, EPILOGUE, EWISE, REDUCE_EXACT, REDUCE_FAST, NORM, RNG_FILL and
V_PLAY. -/

namespace Sys2Proof.Machine

/-! ## Shared pieces -/

/-- The value of an exact accumulator for an output that may be an MX format: an invalid state without a NaN stays an
invalid term, so that its flags are those of R33 and R71. -/
def ExAcc.valI (a : ExAcc) (off : Nat) (mode : RMode) : Val :=
  if a.side.nan then .nan
  else if a.side.invalid || (a.side.pinf && a.side.ninf) then .invalid
  else a.val off mode

/-- Count what a V macro-op wrote: elements, and SR words. -/
def vEvents (core : Nat) (f : InFlight) (n : Nat) : Act Unit := do
  engEventX core 2 0x190 n
  whenA (decide (f.mode = .sr)) (engEventX core 2 0x194 n)

/-- Count the elements of a result that were rounded inexactly. -/
def inexactEvents (core : Nat) (t : TD) (vals : Nat → Nat → Val) (mode : RMode) (word : Nat → Nat) : Act Unit :=
  engEventX core 2 0x195 (t.cells.filter fun (i, j) =>
    !isMx t.fmt && !t.exact && (castVal t.fmt (vals i j) mode (word (t.index i j))).2.inexact).length

/-- Write the values of a V macro-op to its output view. -/
def vWrite (core : Nat) (f : InFlight) (o : TD) (vals : Nat → Nat → Val) (dep : Nat → Nat → Bool) : Act (Flags × Bool) := do
  let s ← get
  let word := fun k => if f.mode = .sr then s.srWord core f k else 0
  let r ← writeVals o false vals f.mode word dep
  vEvents core f (o.rows * o.cols)
  inexactEvents core o vals f.mode word
  pure r

/-! ## CAST (R161, R446) -/

/-- The exact record of equal value of element (i, j) (R167), at the offset of the destination's class. -/
def M.exactOf (s : M) (x o : TD) (kx : Bool) (i j : Nat) : ExAcc :=
  let off := exOff o.exactL
  if x.exact then (s.exact x i j).widen (exOff x.exactL) off else ExAcc.ofVal off (s.elem x kx i j)

/-- Is a NaN among the elements of a view of an ordinary format (R32)? -/
def M.nanCells (s : M) (x : TD) (kx : Bool) : Bool := !x.exact && x.cells.any fun (i, j) => (s.elem x kx i j).isNan

/-- A cast of view x to view o, element by element. -/
def castView (core : Nat) (f : InFlight) (x o : TD) (kx : Bool) : Act (Flags × Bool) := do
  let bad ← readLines (x.lines kx)
  let s ← get
  let dep := x.elemBad kx bad
  if o.exact then do
    let p ← writeExact o (s.exactOf x o kx) dep
    pure ({ nanIn := s.nanCells x kx }, p)
  else
    let val := fun i j => if x.exact then (s.exact x i j).valI (exOff x.exactL) f.mode else s.elem x kx i j
    let side := if x.exact then Flags.joinAll (x.cells.map fun (i, j) => (s.exact x i j).side.drainFlags false) else {}
    let (fl, p) ← vWrite core f o val dep
    pure (fl.join side, p)

/-- CAST. -/
def castWork (core : Nat) : Work := fun f => do
  let (fl, p) ← castView core f (f.td 0) (f.td 1) false
  pure (f.finish fl p)

/-! ## EPILOGUE and EWISE (R161, R162) -/

/-- One rounding by RNE in the lane format. -/
def rndLane (fp64 : Bool) (v : Val) : Val × Flags :=
  if fp64 then let (c, fl) := rnd64 v; (Fp.fp64.decode c, fl) else let (c, fl) := rnd32 v; (f32 c, fl)

/-- epilogue of R161 up to its final cast: the value, and the flags of the operations before it. A NaN that arises without a
NaN input is an invalid term. -/
def epilogueVal (fp64 : Bool) (func : Nat) (x : Val) (y : Option Val) : Val × Flags :=
  let nan := x.isNan || (match y with | some y => y.isNan | none => false)
  let (v, fl) := match y with
    | none => (x, Flags.none)
    | some y => rndLane fp64 (x.add false y)
  let (v, fl) := if func = 0 then (v, fl)
    else
      let (c, f1) := rnd32 v
      let (a, f2) := act32 func c
      (f32 a, (fl.join f1).join f2)
  (if v.isNan && !nan then .invalid else v, { fl with nanIn := nan })

/-- EPILOGUE. -/
def epilogueWork (core : Nat) : Work := fun f => do
  let yEn := bit f.w1 44
  let x := f.td (if yEn then 1 else 0)
  let y := f.td 0
  let o := f.td (if yEn then 2 else 1)
  let bad ← readLines (x.lines false ++ (if yEn then y.lines false else [])).eraseDups
  let s ← get
  let fp64 := x.fmt == 0 || o.fmt == 0 || (yEn && y.fmt == 0)
  let res := (List.range x.rows).map fun i => (List.range x.cols).map fun j =>
    epilogueVal fp64 f.rcd.func (s.elem x false i j) (if yEn then some (s.elem y false 0 j) else none)
  let at' := fun i j => (res.getD i []).getD j (Val.zero, Flags.none)
  let dep := fun i j => x.elemBad false bad i j || (yEn && y.elemBad false bad 0 j)
  let (fl, p) ← vWrite core f o (fun i j => (at' i j).1) dep
  engEventX core 2 0x191 (actCalls f.rcd.func * x.rows * x.cols)
  pure (f.finish (fl.join (Flags.joinAll ((res.flatMap id).map Prod.snd))) p)

/-- The exact result of an EWISE operation. -/
def ewiseVal (func : Nat) (mode : RMode) (x y : Val) : Val :=
  match func with
  | 0 => x.add (mode == .rdn) y
  | 1 => x.add (mode == .rdn) y.neg
  | 2 => x.mul y
  | 3 => x.maxMin true y
  | _ => x.maxMin false y

/-- EWISE. -/
def ewiseWork (core : Nat) : Work := fun f => do
  let y := f.td 0
  let x := f.td 1
  let o := f.td 2
  let bad ← readLines (x.lines false ++ y.lines false).eraseDups
  let s ← get
  let dep := fun i j => x.elemBad false bad i j || y.elemBad false bad i j
  let (fl, p) ← vWrite core f o (fun i j => ewiseVal f.rcd.func f.mode (s.elem x false i j) (s.elem y false i j)) dep
  whenA (x.fmt == 0 || y.fmt == 0 || o.fmt == 0) (engEventX core 2 0x192 (x.rows * x.cols))
  pure (f.finish fl p)

/-! ## REDUCE_EXACT (R163) -/

/-- The exact sum over a list of cells. -/
def M.exactSum (s : M) (x : TD) (sq : Bool) (cells : List (Nat × Nat)) : ExAcc :=
  if x.exact then cells.foldl (fun a (i, j) => a.merge (s.exact x i j)) {}
  else cells.foldl (fun a (i, j) =>
    let v := s.elem x false i j
    a.add (exOff x.classL) (if sq then v.mul v else v)) {}

/-- REDUCE_EXACT. -/
def reduceExactWork (core : Nat) : Work := fun f => do
  let o := f.td 0
  let x := f.td 1
  let bad ← readLines (x.lines false)
  let s ← get
  let rows := if f.rcd.reduceAll then [x.cells] else (List.range x.rows).map fun i => (List.range x.cols).map fun j => (i, j)
  let sums := rows.map (s.exactSum x (bit f.w1 49))
  let lost := rows.map fun cs => cs.any fun (i, j) => x.elemBad false bad i j
  let dep := fun i (_ : Nat) => lost.getD i false
  let off := exOff x.classL
  if o.exact then do
    let p ← writeExact o (fun i _ => (sums.getD i {}).widen off (exOff o.exactL)) dep
    pure (f.finish { nanIn := s.nanCells x false } p)
  else do
    let side := Flags.joinAll (sums.map fun a => a.side.drainFlags false)
    let (fl, p) ← vWrite core f o (fun i _ => (sums.getD i {}).valI off f.mode) dep
    pure (f.finish (fl.join side) p)

/-! ## REDUCE_FAST (R90) -/

/-- |a| ≥ |b|, false with a NaN. -/
def magGe32 (a b : Nat) : Bool := !(f32 a).isNan && !(f32 b).isNan && decide (bits a 30 0 ≥ bits b 30 0)

/-- One step of neumaier. -/
def neumaierStep (st : Nat × Nat × Flags) (x : Nat) : Nat × Nat × Flags :=
  let (s, c, fl) := st
  let (t, f1) := add32 s x
  let (c, f2) := if magGe32 s x
    then andThenF (sub32 s t) fun d => andThenF (add32 d x) fun e => add32 c e
    else andThenF (sub32 x t) fun d => andThenF (add32 d s) fun e => add32 c e
  (t, c, (fl.join f1).join f2)

/-- neumaier of R90: (s, c) and the flags of its operations. -/
def neumaier (xs : List Nat) : Nat × Nat × Flags := xs.foldl neumaierStep (0, 0, {})

/-- The combination of partials in share order: value and err. -/
def combineFast (ps : List (Nat × Nat)) : Nat × Nat × Flags :=
  let (s, c, fl) := neumaier (ps.map Prod.fst)
  let (c, fl) := ps.foldl (fun (c, fl) (_, cj) => let (d, g) := add32 c cj; (d, fl.join g)) (c, fl)
  let (v, f1) := add32 s c
  let (e, f2) := andThenF (sub32 s v) fun d => add32 d c
  (v, e, (fl.join f1).join f2)

/-- Write FP32 codes to elements (i, 0), (i, 1), … of a view; their lines are poisoned if `lost`. -/
def writeRow32 (t : TD) (i : Nat) (cs : List Nat) (lost : Bool) : Act Bool := do
  let bad := if lost then (List.range cs.length).flatMap fun j => t.codeLines i j else []
  let ds ← mapA (List.range cs.length) fun j => writeRun (t.bitAddr i j) 32 (cs.getD j 0) bad
  pure (lost || ds.any id)

/-- REDUCE_FAST. -/
def reduceFastWork (_core : Nat) : Work := fun f => do
  let m := f.rcd.rfMode
  let p := f.rcd.rfP
  let part := f.td 0
  let x := f.td (if m = 2 then 0 else 1)
  let o := f.td (if m = 2 then 1 else 2)
  let n := x.rows * x.cols
  let h := ceilDiv n p
  let lo := min (f.rcd.rfShare * h) n
  let idx := (List.range (shareLen n p f.rcd.rfShare)).map fun k => ((lo + k) / x.cols, (lo + k) % x.cols)
  if m = 1 then do
    let cells := (List.range p).flatMap fun j => [(j, 0), (j, 1)]
    let bad ← readLines (cells.flatMap fun (i, j) => part.codeLines i j).eraseDups
    let s ← get
    let ps := (List.range p).map fun j => (s.code part j 0, s.code part j 1)
    let (v, e, fl) := combineFast ps
    let nan := ps.any fun (a, b) => (f32 a).isNan || (f32 b).isNan
    let w ← writeRow32 o 0 [v, e] !bad.isEmpty
    pure (f.finish { fl with nanIn := nan } w)
  else do
    let bad ← readLines (idx.flatMap fun (i, j) => x.codeLines i j).eraseDups
    let s ← get
    let xs := idx.map fun (i, j) => s.code x i j
    let (a, c, fl) := neumaier xs
    let nan := xs.any fun y => (f32 y).isNan
    if m = 0 then do
      let w ← writeRow32 part f.rcd.rfShare [a, c] !bad.isEmpty
      pure (f.finish { fl with nanIn := nan } w)
    else do
      let (v, e, g) := combineFast [(a, c)]
      let w ← writeRow32 o 0 [v, e] !bad.isEmpty
      pure (f.finish { fl.join g with nanIn := nan } w)

/-! ## NORM (R164) -/

/-- num / den as a value, den > 0. -/
def ratVal (num : Int) (den : Nat) : Val :=
  if num = 0 then Val.zero else let (m, q) := ratDyadic num.natAbs den; .fin (decide (num < 0)) m q

/-- What NORM makes of a row: the value of each element before its cast, μ, r, and the flags so far. A NaN that arises without a
NaN among ε, γ and β is an invalid term. -/
def normRow (xs : List Val) (gamma beta : Option (List Nat)) (eps : Nat) (rms : Bool) : List Val × Nat × Nat × Flags :=
  let n := xs.length
  let s1 := ExAcc.ofTerms 298 xs
  let s2 := ExAcc.ofTerms 298 (xs.map fun v => v.mul v)
  let side := if rms then s2.side
    else { s1.side with nan := s1.side.nan || s2.side.nan, invalid := s1.side.invalid || s2.side.invalid }
  if side.nan || side.invalid || side.pinf || side.ninf then
    let v := (ExAcc.mk 0 side).valI 298 .rne
    let (c, _) := castVal 1 v .rne 0
    (xs.map fun _ => v, c, c, side.drainFlags false)
  else
    let d := 2 ^ 298
    let (mu, f1) := if rms then (0, Flags.none) else rnd32 (ratVal s1.sum (n * d))
    let (v, f2) := if rms then rnd32 (ratVal s2.sum (n * d))
      else rnd32 (ratVal ((n : Int) * s2.sum * d - s1.sum * s1.sum) (n * n * (d * d)))
    let (r, f3) := andThenF (add32 v eps) rsqrt32
    let ys := (xs.zip (List.range n)).map fun (x, i) =>
      let y := andThenF (sub32 (rnd32 x).1 mu) fun t => mul32 t r
      match gamma, beta with
      | some g, some b =>
        ((f32 eps).isNan || (f32 (g.getD i 0)).isNan || (f32 (b.getD i 0)).isNan,
          andThenF y fun t => andThenF (mul32 t (g.getD i 0)) fun u => add32 u (b.getD i 0))
      | _, _ => ((f32 eps).isNan, y)
    (ys.map fun (nan, y) => if (f32 y.1).isNan && !nan then .invalid else f32 y.1, mu, r,
      { Flags.joinAll ([f1, f2, f3] ++ ys.map (·.2.2)) with nanIn := ys.any Prod.fst })

/-- NORM. -/
def normWork (core : Nat) : Work := fun f => do
  let o := f.td 0
  let x := f.td 1
  let aff := bit f.w1 48
  let beta := f.td 2
  let gamma := f.td 3
  let stats := f.td (if aff then 4 else 2)
  let bad ← readLines (x.lines false ++ (if aff then beta.lines false ++ gamma.lines false else [])).eraseDups
  let s ← get
  let codes := fun t : TD => (List.range x.cols).map fun j => s.code t 0 j
  let rows := (List.range x.rows).map fun i =>
    normRow ((List.range x.cols).map fun j => s.elem x false i j) (if aff then some (codes gamma) else none)
      (if aff then some (codes beta) else none) (bits f.w3 63 32) (bit f.w1 47)
  let lost := (List.range x.rows).map fun i => (List.range x.cols).any fun j => x.elemBad false bad i j
  let dep := fun i j => lost.getD i false || (aff && (beta.elemBad false bad 0 j || gamma.elemBad false bad 0 j))
  let (fl, p) ← vWrite core f o (fun i j => ((rows.getD i ([], 0, 0, {})).1).getD j Val.zero) dep
  let ps ← if bit f.w1 49 then
      mapA (List.range x.rows) fun i =>
        let (_, mu, r, _) := rows.getD i ([], 0, 0, {})
        writeRow32 stats i [mu, r] (lost.getD i false)
    else pure []
  engEventX core 2 0x191 x.rows
  pure (f.finish (fl.join (Flags.joinAll (rows.map fun (_, _, _, g) => g))) (p || ps.any id))

/-! ## RNG_FILL (R165) -/

/-- RNG_FILL. -/
def rngFillWork (core : Nat) : Work := fun f => do
  let o := f.td 0
  let s ← get
  let word := fun i j => s.srWord core f (o.index i j)
  engEventX core 2 0x193 ((o.cells.map fun (i, j) => o.index i j / 16).eraseDups).length
  if bits f.w1 47 46 = 0 then do
    let d ← writeCodes o false word []
    vEvents core f (o.rows * o.cols)
    pure (f.finish {} d)
  else do
    let kept := f32 (bits f.w2 63 32)
    let val := fun i j => if bits f.w1 47 46 = 1 then Val.fin false (word i j / 256) (-24)
      else if word i j < bits f.w2 31 0 then kept else Val.zero
    let (fl, p) ← vWrite core f o val fun _ _ => false
    pure (f.finish fl p)

/-- R161: CAST. CAST rounds each element of a view once to the output format. -/
def execCast (core : Nat) (s : State) : Out := s.doing (runOp core 2 0x50 (orPlay core 2 (castWork core)))
/-- R161: EPILOGUE. EPILOGUE applies bias, activation and cast to each element. -/
def execEpilogue (core : Nat) (s : State) : Out := s.doing (runOp core 2 0x51 (orPlay core 2 (epilogueWork core)))
/-- R161: EWISE. EWISE applies an elementwise binary operation with one rounding. -/
def execEwise (core : Nat) (s : State) : Out := s.doing (runOp core 2 0x52 (orPlay core 2 (ewiseWork core)))
/-- R163: REDUCE_EXACT. REDUCE_EXACT forms an exact sum or sum of squares per row or per view. -/
def execReduceExact (core : Nat) (s : State) : Out := s.doing (runOp core 2 0x53 (orPlay core 2 (reduceExactWork core)))
/-- R90: REDUCE_FAST. REDUCE_FAST forms a compensated FP32 share, combine, or share-then-combine. -/
def execReduceFast (core : Nat) (s : State) : Out := s.doing (runOp core 2 0x54 (orPlay core 2 (reduceFastWork core)))
/-- R164: NORM. NORM performs layer or RMS normalisation per row. -/
def execNorm (core : Nat) (s : State) : Out := s.doing (runOp core 2 0x55 (orPlay core 2 (normWork core)))
/-- R165: RNG_FILL. RNG_FILL writes generator words, uniform values or Bernoulli values. -/
def execRngFill (core : Nat) (s : State) : Out := s.doing (runOp core 2 0x56 (orPlay core 2 (rngFillWork core)))
/-- R169: V_PLAY. V_PLAY runs a custom play on the V engine. -/
def execVPlay (core : Nat) (s : State) : Out := s.doing (runOp core 2 0x5F (playWork core 2))

end Sys2Proof.Machine
end

