-- ==== Sys2Proof/Machine/SEngine.lean ====
section
/-! DEFINITION. The data macro-ops of the S engine (R92, R167): STORE_TILE, FILL, the two scatters, and S_PLAY. -/

namespace Sys2Proof.Machine

/-- STORE_TILE: a copy where formats are equal, else one rounding each. -/
def storeTileWork (core : Nat) : Work := fun f => do
  let d := f.td 0
  let x := f.td 1
  let kd := f.rcd.kdim && d.hasScales
  let ks := f.rcd.kdim && x.hasScales
  farBeats core 3 0x1B0 (d.far kd) d.dataBytes
  if d.exact then do
    let bad ← readLines (x.lines ks)
    let s ← get
    let p ← writeExact d (s.exactOf x d ks) (x.elemBad ks bad)
    pure (f.finish { nanIn := s.nanCells x ks } p)
  else if d.fmt = x.fmt ∧ !x.exact then do
    let p ← copyView d x kd ks (fun i j => some (i, j)) fun _ _ => false
    pure (f.finish {} p)
  else do
    let bad ← readLines (x.lines ks)
    let s ← get
    let val := fun i j => if x.exact then (s.exact x i j).valI (exOff x.exactL) f.mode else s.elem x ks i j
    let side := if x.exact then Flags.joinAll (x.cells.map fun (i, j) => (s.exact x i j).side.drainFlags false) else {}
    let (fl, p) ← writeVals d kd val f.mode (s.srWord core f) (x.elemBad ks bad)
    pure (f.finish (fl.join side) p)

/-- FILL: the pattern's code in every element; empty records in an exact tensor. -/
def fillWork (core : Nat) : Work := fun f => do
  let d := f.td 0
  farBeats core 3 0x1B0 (d.far false) d.dataBytes
  let p ← writeCodes d false (fun _ _ => if d.exact then 0 else trunc d.ebits (bits f.w2 63 0)) []
  pure (f.finish {} p)

/-- Outcome counts of a scatter's index vector: skipped rows, and whether an index lay on a poisoned line. -/
def scatterCounts (rows : Nat) (ix : List (Option Int)) : Nat × Bool :=
  ((ix.filter (idxOut rows)).length, ix.any Option.isNone)

/-- The target row of row i of VAL, if it is not skipped. -/
def scatterRow (rows : Nat) (ix : List (Option Int)) (i : Nat) : Option Nat :=
  match ix.getD i none with
  | some v => if idxOut rows (some v) then none else some v.toNat
  | none => none

/-- Add one VAL element into a target record, as one read-modify-write of its update unit (R167, R205, R206): a poisoned
value poisons the record's lines, a poisoned record discards the addition. Answers whether there was poison. -/
def scatterExactOne (v t : TD) (badV : List Nat) (i j row : Nat) : Act Bool := do
  let ls := t.codeLines row j
  let bad ← readLines ls
  if !bad.isEmpty then pure true
  else if v.elemBad false badV i j then do
    forA ls poisonLine
    pure true
  else do
    let s ← get
    let old := s.exact t row j
    let off := exOff t.exactL
    let new := if v.exact then old.merge ((s.exact v i j).widen (exOff v.exactL) off)
      else old.add off (s.elem v false i j)
    let _ ← writeRun (t.bitAddr row j) t.ebits (new.encode t.exactL) []
    sliceEvent (t.bitAddr row j / 256) 0x12B
    pure false

/-- SCATTER_ADD_EXACT. -/
def scatterExactWork (core : Nat) : Work := fun f => do
  let v := f.td 1
  let t := f.td 2
  let ix ← readIndices (f.td 0) v.rows
  let badV ← readLines (v.lines false)
  let (skipped, lost) := scatterCounts t.rows ix
  let ps ← mapA v.cells fun (i, j) =>
    match scatterRow t.rows ix i with
    | none => pure false
    | some row => scatterExactOne v t badV i j row
  engEventX core 3 0x1B1 ((ps.length) - skipped * v.cols)
  engEventX core 3 0x1B2 skipped
  let s ← get
  pure { f.finish { nanIn := s.nanCells v false } (lost || ps.any id) with result := skipped }

/-- One FP32 read, add32 and write at a target element (R92), under poison as for an exact record. -/
def scatterFastOne (v t : TD) (badV : List Nat) (i j row : Nat) : Act (Flags × Bool) := do
  let a := t.bitAddr row j
  let bad ← readLines (t.codeLines row j)
  if !bad.isEmpty then pure ({}, true)
  else if v.elemBad false badV i j then do
    forA (t.codeLines row j) poisonLine
    pure ({}, true)
  else do
    let s ← get
    let (c, fl) := add32 (s.code t row j) (s.code v i j)
    let _ ← writeRun a 32 c []
    sliceEvent (a / 256) 0x12B
    pure (fl, false)

/-- The order of arrival: the rows that the sequence names, then any other row in rising order. DESIGN CHOICE (log 96): the order is
one of whole rows of VAL, and the updates of one macro-op are not interleaved with those of another; the spec orders updates element
by element, and leaves their order open. -/
def arrivalOrder (rows : Nat) (order : List Nat) : List Nat :=
  let o := (order.filter (decide <| · < rows)).eraseDups
  o ++ (List.range rows).filter (!o.contains ·)

/-- SCATTER_ADD_FAST. -/
def scatterFastWork (core : Nat) (order : List Nat) : Work := fun f => do
  let v := f.td 1
  let t := f.td 2
  let ix ← readIndices (f.td 0) v.rows
  let badV ← readLines (v.lines false)
  let (skipped, lost) := scatterCounts t.rows ix
  let cells := (arrivalOrder v.rows order).flatMap fun i => (List.range v.cols).map fun j => (i, j)
  let ps ← mapA cells fun (i, j) =>
    match scatterRow t.rows ix i with
    | none => pure (({} : Flags), false)
    | some row => scatterFastOne v t badV i j row
  engEventX core 3 0x1B1 ((ps.length) - skipped * v.cols)
  engEventX core 3 0x1B2 skipped
  pure { f.finish (Flags.joinAll (ps.map Prod.fst)) (lost || ps.any Prod.snd) with result := skipped }

/-- R167: STORE_TILE. STORE_TILE copies a home-slice view anywhere, casting if formats differ. -/
def execStoreTile (core : Nat) (s : State) : Out := s.doing (runOp core 3 0x80 (orPlay core 3 (storeTileWork core)))
/-- R167: FILL. FILL writes one element code to every element of a view. -/
def execFill (core : Nat) (s : State) : Out := s.doing (runOp core 3 0x81 (orPlay core 3 (fillWork core)))
/-- R167: SCATTER_ADD_EXACT. SCATTER_ADD_EXACT adds rows exactly and atomically into an exact tensor. -/
def execScatterAddExact (core : Nat) (s : State) : Out :=
  s.doing (runOp core 3 0x82 (withPlay core 3 (scatterExactWork core)))
/-- R92: SCATTER_ADD_FAST. SCATTER_ADD_FAST performs FP32 read-add-write scatter updates in arrival order. -/
def execScatterAddFast (core : Nat) (order : List Nat) (s : State) : Out :=
  s.doing (runOp core 3 0x83 (withPlay core 3 (scatterFastWork core order)))
/-- R169: S_PLAY. S_PLAY runs a custom play on the S engine. -/
def execSPlay (core : Nat) (s : State) : Out := s.doing (runOp core 3 0x9F (playWork core 3))

end Sys2Proof.Machine
end

