-- ==== Sys2Proof/Machine/Transport.lean ====
section
/-! DEFINITION. Mirzu transport, the sending side (chapter 10): ports and addresses, frames, headers, Rally contexts, paths
with their rates, the posting and sending of messages, retransmission and OPEN. -/

namespace Sys2Proof.Machine

/-! ## Ports and addresses (R246 to R249) -/

/-- Ports of the mode (Table 10-1). -/
def M.nPorts (s : M) : Nat := [16, 8, 32, 64].getD (bits (s.reg Reg.ethMode) 1 0) 16

/-- Rate of a port, in Mb/s. -/
def M.lineRate (s : M) : Nat := [800000, 1600000, 400000, 200000].getD (bits (s.reg Reg.ethMode) 1 0) 800000

/-- The controller a port runs in, and its place there (Table 10-1, R412). -/
def M.portPlace (s : M) (p : Nat) : Nat × Nat :=
  match bits (s.reg Reg.ethMode) 1 0 with
  | 0 => (p, 0)
  | 1 => (2 * p, 0)
  | 2 => (p / 2, p % 2)
  | _ => (p / 4, p % 4)

/-- n occurrences of an event at a port. -/
def portCount (p code n : Nat) : Act Unit := do
  let s ← get
  portEvent (s.portPlace p).1 (s.portPlace p).2 code n

/-- Is a port's link up? -/
def M.linkUp (s : M) (p : Nat) : Bool := bits (s.reg (Reg.ethPortStatus p)) 31 30 == 2

/-- Is MACsec on at a port; may frames pass: it is off, or its SAK is installed (R251)? -/
def M.macsec (s : M) (p : Nat) : Bool := bit (s.reg (Reg.ethPortCtl p)) 30
/-- May frames pass MACsec? -/
def M.macsecOk (s : M) (p : Nat) : Bool := !s.macsec p || bit (s.reg (Reg.ethPortStatus p)) 26

/-- Does a port of the mode send and receive: the port controllers are ready (R22, R379), it is enabled, and its link is up? -/
def M.portUp (s : M) (p : Nat) : Bool :=
  bit (s.reg Reg.mgtReadyMap) 122 && decide (p < s.nPorts) && bit (s.reg (Reg.ethPortCtl p)) 31 && s.linkUp p

/-- LINK of an enabled port whose link is not up: training, which AN_EN selects, else down (R247; log 104). -/
def M.trains (s : M) (port : Nat) : Nat := b2n (bit (s.reg (Reg.ethPortCtl port)) 28)

/-- The port controllers are ready: each enabled port brings its link up (R247, R379). -/
def trainLinks : Act Unit := do
  let s ← get
  forA (List.range s.nPorts) fun p =>
    whenA (bit (s.reg (Reg.ethPortCtl p)) 31 && !s.linkUp p) (setField (Reg.ethPortStatus p) 31 30 (s.trains p))

/-- Is the transport engine ready (R22, R379)? -/
def M.trnReady (s : M) : Bool := bit (s.reg Reg.mgtReadyMap) 123

/-- MAC address of node n on port p (Table 10-2). -/
def M.macOf (s : M) (n p : Nat) : Nat := bits (s.reg Reg.ethMode) 31 8 <<< 24 + trunc 12 n <<< 6 + trunc 6 p

/-- IP version of the module: IPv4? -/
def M.ip4 (s : M) : Bool := bit (s.reg Reg.ethMode) 2

/-- IP address of node n on port p (Table 10-2). -/
def M.ipOf (s : M) (n p : Nat) : Nat :=
  let pre := s.reg (Reg.ethPortPrefix p)
  if s.ip4 then bits pre 31 12 <<< 12 + trunc 12 n
  else pre <<< 64 + s.reg Reg.trnIid <<< 32 + trunc 16 n <<< 16 + trunc 16 p

/-- The module's node ID, rank and epoch. -/
def M.node (s : M) : Nat := bits (s.reg Reg.trnNode) 11 0
/-- Logical rank. -/
def M.rank (s : M) : Nat := bits (s.reg Reg.trnNode) 27 16
/-- Epoch. -/
def M.epoch (s : M) : Nat := bits (s.reg Reg.trnEpoch) 15 0

/-- The transport-island counter. -/
def M.now (s : M) : Nat := s.island 172

/-- The transport-island counter has reached a value. -/
def setNow (now : Nat) : Act Unit :=
  modify fun s => { s with isl := Tab.put (fun _ => 0) s.isl 172 (trunc 64 (max now s.now)) }

/-! ## Frames (R248, R249, R251, R252) -/

/-- Bytes of a frame, from destination address through FCS. -/
def Frame.len (f : Frame) : Nat :=
  14 + (if f.eth.tag.isSome then 4 else 0) + (if f.ip4 then 20 else 40) + 8 + f.packet.length + 4
    + (if f.eth.sec.isSome then 32 else 0)

/-- The SAKs in use at a port, newest first (R251). -/
def M.saks (s : M) (p : Nat) : List Sak := ((s.sec.ports.find? (·.port = p)).map (·.saks)).getD []

/-- What a frame of a port carries (R248, R249, R251); `ctrl` says whether it takes PCP_CTRL. Under MACsec it goes out in the newest
SAK (log 100). -/
def M.eth (s : M) (p : Nat) (ctrl : Bool) : Eth :=
  let c := s.reg (Reg.ethPortCtl p)
  { dmac := s.reg (Reg.ethPortNexthop p), smac := s.macOf s.node p
    tag := if bit c 29 then some (if ctrl then bits c 12 10 else bits c 15 13, bits c 27 16) else none
    sec := if s.macsec p then (s.saks p).head?.map fun k => (k.an, k.next) else none }

/-- A frame has taken the next packet number of its port's newest SAK (R251). -/
def usePn (p : Nat) : Act Unit := modify fun s => { s with sec := { s.sec with ports := s.sec.ports.map fun k =>
  if k.port = p then { k with saks := k.saks.modify 0 fun a => { a with next := trunc 64 (a.next + 1) } } else k } }

/-- The UDP checksum over the pseudo-header, the UDP header and the packet (R252; log 101). A sum of 16-bit words in one's complement
is the number that they spell modulo 65,535. -/
def udpSum (sip dip sport dport : Nat) (packet : List Byte) : Nat :=
  0xFFFF - (sip + dip + 17 + 2 * (8 + packet.length) + sport + dport
    + beNat (packet ++ List.replicate (packet.length % 2) 0#8)) % 65535

/-- The frame of a packet on a port; `ctrl` says whether it takes PCP_CTRL. -/
def M.frame (s : M) (p dst psn : Nat) (ctrl : Bool) (packet : List Byte) : Frame :=
  let t := s.reg Reg.trnCtl
  let sport := 0xC000 + psn % 2 ^ bits t 19 16
  { eth := s.eth p ctrl, ip4 := s.ip4, sip := s.ipOf s.node p, dip := s.ipOf dst p, ecn := 2, sport := sport
    dport := bits t 15 0, sum := udpSum (s.ipOf s.node p) (s.ipOf dst p) sport (bits t 15 0) packet, packet := packet }

/-- A frame leaves by a port, unless PORT_OFF# holds every transmitter idle (R436). -/
def emitFrame (p : Nat) (o : Output) : Act Unit := do
  let s ← get
  whenA (!s.board.portOff) do
    emit o
    whenA (s.macsec p) (usePn p)
    portCount p 0x200 1

/-- A packet leaves by a port, if the port may send. -/
def sendFrame (p dst psn : Nat) (ctrl : Bool) (packet : List Byte) : Act Unit := do
  let s ← get
  whenA (s.portUp p && s.macsecOk p) do
    let f := s.frame p dst psn ctrl packet
    emitFrame p (.mirzu p f)
    whenA (!s.board.portOff) (portCount p 0x202 f.len)

/-- A Mirzu header (Table 10-3): type, flag bits, receiver, the three type-specific words, PAYLOAD_LEN, path, class, tag. -/
def M.header (s : M) (typ flags dst b8 b12 b16 plen path cls tag : Nat) : List Byte :=
  leBytes 32 (trunc 4 typ + 2 <<< 4 + trunc 4 flags <<< 8 + s.node <<< 16 + trunc 16 dst <<< 32 + s.epoch <<< 48
    + trunc 32 b8 <<< 64 + trunc 32 b12 <<< 96 + trunc 32 b16 <<< 128 + trunc 16 plen <<< 160 + trunc 4 cls <<< 176
    + trunc 4 path <<< 180 + trunc 32 tag <<< 192 + trunc 32 s.now <<< 224)

/-! ## Rallies and paths -/

/-- The Rally with a peer. -/
def M.rally (s : M) (n : Nat) : Rally := Tab.read Rally.init s.trn.rallies n

/-- Change a Rally. -/
def updRally (n : Nat) (f : Rally → Rally) : Act Unit :=
  modify fun s => { s with trn := { s.trn with rallies := Tab.put Rally.init s.trn.rallies n (f (s.rally n)) } }

/-- Peers with which some Rally state is kept. -/
def M.peers (s : M) : List Nat := s.trn.rallies.keys

/-- The ports that are paths, in path order (R267). -/
def M.pathPorts (s : M) : List Nat := (List.range 64).filter (bit (s.reg Reg.trnPathMask))

/-- The port of path k. -/
def M.pathPort (s : M) (k : Nat) : Option Nat := s.pathPorts[k]?

/-- State of path k of a Rally. -/
def Rally.path (r : Rally) (k : Nat) : PathSt := Tab.read PathSt.init r.paths k

/-- Change path k of a Rally. -/
def Rally.setPath (r : Rally) (k : Nat) (f : PathSt → PathSt) : Rally :=
  { r with paths := Tab.put PathSt.init r.paths k (f (r.path k)) }

/-- Rate of path k in Mb/s: the line rate until it has been adjusted (R268). -/
def M.pathRate (s : M) (r : Rally) (k : Nat) : Nat := (r.path k).rate.getD s.lineRate

/-- What the token bucket of path k lacks now, in bytes: it refills at the path's rate (R268). -/
def M.pathUsed (s : M) (r : Rally) (k : Nat) : Nat :=
  let p := r.path k
  p.used - s.pathRate r k * (s.now - p.usedAt) / (8 * max 1 (Config.cyclesPerUs 172))

/-- May path k carry a packet of n bytes: its link is up, it is not suspect, and its bucket of 64 KiB holds n (R267, R268)? -/
def M.pathOk (s : M) (r : Rally) (n k : Nat) : Bool :=
  match s.pathPort k with
  | none => false
  | some p => s.portUp p && !(r.path k).suspect && decide (s.pathUsed r k + n ≤ 65536)

/-- The next usable path from path k on, in path order, for a packet of n bytes. -/
def M.nextPath (s : M) (r : Rally) (n k : Nat) : Option Nat :=
  let c := s.pathPorts.length
  ((List.range c).map fun i => (k + i) % c).find? (s.pathOk r n)

/-- Take n bytes from the bucket of path k. -/
def takeRate (peer k n : Nat) : Act Unit := do
  let s ← get
  let u := s.pathUsed (s.rally peer) k
  updRally peer fun r => r.setPath k fun p => { p with used := u + n, usedAt := s.now }

/-- An unsequenced packet on path k. -/
def sendControl (peer k typ flags b12 b16 : Nat) (payload : List Byte) (b8 : Nat) : Act Unit := do
  let s ← get
  match s.pathPort k with
  | none => pure ()
  | some p => sendFrame p peer 0 true (s.header typ flags peer b8 b12 b16 payload.length k 0 0 ++ payload)

/-- Send the OPEN of a Rally, on its next usable path. -/
def sendOpen (peer : Nat) : Act Unit := do
  let s ← get
  let r := s.rally peer
  updRally peer fun r => { r with openSends := r.openSends + 1 }
  match s.nextPath r 32 r.rr with
  | none => pure ()
  | some k => do
    updRally peer fun r => { r with rr := k + 1 }
    sendControl peer k 3 (if r.takeover then 8 else 0) r.openSeq 0 [] 0

/-- The outbound direction starts to open (Table 10-7): OPEN_SEQ rises, OPEN is sent. -/
def startOpen (peer : Nat) : Act Unit := do
  updRally peer fun r =>
    { r with out := 1, openSeq := trunc 32 (r.openSeq + 1), openSends := 0 }
  sendOpen peer

/-! ## Contexts (R269) -/

/-- Rallies whose context is on chip. -/
def M.onChip (s : M) : List Nat := s.peers.filter fun n => (s.rally n).onChip

/-- Is the context of a Rally evictable? -/
def Rally.evictable (r : Rally) : Bool := r.onChip && !r.loading && r.unacked.isEmpty && r.ins.isEmpty

/-- The evictable context least recently used. -/
def M.evictee (s : M) : Option Nat :=
  (s.onChip.filter fun n => (s.rally n).evictable).foldl (fun b n =>
    match b with
    | none => some n
    | some m => if (s.rally n).used < (s.rally m).used then some n else some m) none

/-- Note a use of a context. -/
def touchCtx (peer : Nat) : Act Unit := do
  let s ← get
  modify fun s => { s with trn := { s.trn with clock := s.trn.clock + 1 } }
  updRally peer fun r => { r with used := s.trn.clock }

/-- Is the context of a peer on chip? A peer without a context takes a free place; else the miss starts if some context can
be evicted. Answers whether the context is there, and whether a miss is under way. -/
def needCtx (peer : Nat) : Act (Bool × Bool) := do
  let s ← get
  let r := s.rally peer
  if r.onChip then do
    touchCtx peer
    pure (true, false)
  else if r.loading then pure (false, true)
  else if !r.spilled && decide (s.onChip.length < 1024) then do
    updRally peer fun r => { r with onChip := true }
    touchCtx peer
    pure (true, false)
  else if decide (s.onChip.length < 1024) || s.evictee.isSome then do
    updRally peer fun r => { r with loading := true }
    inc64 Reg.trnCtxMisses
    pure (false, true)
  else pure (false, false)

/-! ## Posting and sending -/

/-- An owner posts a message (R258): a Rally that is FREE or FAILED opens, once its context is on chip; before the transport is ready
(R22) the message waits. A stopped module posts none (R357). -/
def postMessage (peer : Nat) (m : OutMsg) : Act Unit := do
  let s ← get
  whenA (!s.board.stopped) do
    updRally peer fun r => { r with msgs := r.msgs ++ [m] }
    whenA s.trnReady do
      let (here, _) ← needCtx peer
      let s ← get
      let r := s.rally peer
      whenA (here && (r.out == 0 || r.out == 3)) (startOpen peer)

/-- A MSG_STATUS is to go to a peer (MSG_SEQ, CLASS, TAG, code); it needs an outbound direction. -/
def queueStatus (peer : Nat) (st : Nat × Nat × Nat × Nat) : Act Unit := do
  updRally peer fun r => { r with stats := r.stats ++ [st] }
  let s ← get
  whenA ((s.rally peer).onChip && ((s.rally peer).out == 0 || (s.rally peer).out == 3)) (startOpen peer)

/-- The codeword of a line (R255). -/
def codewordOf (data : List Byte) (poison : Bool) : List Byte :=
  let d := data.map (·.toNat)
  data ++ (if poison then rsPoison d else rsCheck d).map (BitVec.ofNat 8)

/-- Cut bytes into lines of 32, the last padded with zeros; n lines at most. -/
def toLines : Nat → List Byte → List (List Byte)
  | 0, _ => []
  | n + 1, bs =>
    if bs.isEmpty then []
    else (bs.take 32 ++ List.replicate (32 - (bs.take 32).length) 0#8) :: toLines n (bs.drop 32)

/-- The lines of a byte string as message lines from an offset on; `bad` names poisoned lines. -/
def messageLines (off : Nat) (bs : List Byte) (bad : List Nat) : List (Nat × List Byte) :=
  ((toLines (bs.length / 32 + 1) bs).zipIdx).map fun (l, i) => (off + i, codewordOf l (bad.contains i))

/-- The lines of the next packet: up to 227 at consecutive offsets. -/
def takeRun : Nat → List (Nat × List Byte) → List (Nat × List Byte)
  | 0, _ => []
  | _, [] => []
  | n + 1, (o, l) :: rest =>
    match rest with
    | [] => [(o, l)]
    | (o', _) :: _ => if o' = o + 1 then (o, l) :: takeRun n rest else [(o, l)]

/-- May message m send its next packet: it has lines left, is not stopped, and is open or may become open (R261)? -/
def Rally.canSend (r : Rally) (m : OutMsg) : Bool :=
  !m.stopped && decide (m.sent < m.lines.length)
    && (m.mseq.isSome || decide ((r.msgs.filter (·.mseq.isSome)).length < 32))

/-- Is a PSN inside the window (R260)? -/
def Rally.windowOpen (r : Rally) : Bool := decide (trunc 32 (r.psn + 2 ^ 32 - r.acked - 1) < 2048)

/-- Is three quarters of the window in use (R262)? -/
def Rally.crowded (r : Rally) : Bool := decide (trunc 32 (r.psn + 2 ^ 32 - r.acked - 1) ≥ 1536)

/-- The next packet of a Rally: a MSG_STATUS that waits, else the next lines of the oldest message that may send, with the
messages and statuses afterwards. -/
def Rally.nextPkt (r : Rally) : Option (Pkt × Rally) :=
  match r.stats with
  | (q, cls, tag, code) :: rest =>
    some ({ psn := r.psn, status := true, cls := cls, tag := tag, mseq := q, off := 0, eom := false, code := code
            body := [], path := 0, sentAt := 0 }, { r with stats := rest })
  | [] =>
    match r.msgs.findIdx? r.canSend with
    | none => none
    | some i =>
      match r.msgs[i]? with
      | none => none
      | some m =>
        let q := m.mseq.getD r.mseq
        let run := takeRun 227 (m.lines.drop m.sent)
        let n := m.sent + run.length
        some ({ psn := r.psn, status := false, cls := m.cls, tag := m.tag, mseq := q
                off := (run.head?.map Prod.fst).getD 0, eom := n == m.lines.length, code := 0
                body := run.flatMap Prod.snd, path := 0, sentAt := 0 },
              { r with msgs := r.msgs.set i { m with mseq := some q, sent := n }
                       mseq := if m.mseq.isSome then r.mseq else trunc 32 (r.mseq + 1) })

/-- The bytes of a sequenced packet. -/
def M.pktBytes (s : M) (peer : Nat) (p : Pkt) (retx ackNow : Bool) : List Byte :=
  s.header (if p.status then 2 else 0) (4 * b2n retx + 2 * b2n ackNow + b2n p.eom) peer p.psn p.mseq
    (if p.status then p.code else p.off) p.body.length p.path p.cls p.tag ++ p.body

/-- Send a sequenced packet on path k. -/
def sendPkt (peer : Nat) (p : Pkt) (k : Nat) (retx : Bool) : Act Unit := do
  let s ← get
  let p := { p with path := k }
  takeRate peer k (32 + p.body.length)
  match s.pathPort k with
  | none => pure ()
  | some port => do
    sendFrame port peer p.psn false
      (s.pktBytes peer p retx (p.eom || p.status || (s.rally peer).crowded))
    whenA (!p.status && !retx) do
      portCount port 0x280 1
      portCount port 0x282 p.body.length

/-- The next new packet to a peer, the Rally once it is taken, and the next usable path with rate, which it takes (R267). -/
def M.nextSend (s : M) (peer : Nat) : Option (Pkt × Rally × Nat) :=
  let r := s.rally peer
  if r.out ≠ 2 ∨ !r.windowOpen ∨ !r.onChip then none
  else match r.nextPkt with
    | none => none
    | some (p, r') => (s.nextPath r (32 + p.body.length) r.rr).map fun k => (p, r', k)

/-- Is it a Rally's turn on path k: of the Rallies that could send there, it is the first in rising node ID after the one that the
port served last (R268; log 102)? -/
def M.turnOf (s : M) (peer k : Nat) : Bool :=
  let last := Tab.read (fun _ => 0) s.trn.turn ((s.pathPort k).getD 0)
  let place := fun n => (n + 4096 - last) % 4096
  s.peers.all fun n => decide (place peer ≤ place n) || ((s.nextSend n).map fun x => x.2.2) != some k

/-- Send the next new packet to a peer, if it is its turn. Answers whether one was sent. -/
def sendNext (peer : Nat) : Act Bool := do
  let s ← get
  match s.nextSend peer with
  | none => pure false
  | some (p, r', k) =>
    if !s.turnOf peer k then pure false
    else do
      let p := { p with path := k, sentAt := s.now }
      updRally peer fun r =>
        { r' with psn := trunc 32 (r.psn + 1), rr := (k + 1) % max 1 s.pathPorts.length, unacked := r'.unacked ++ [p] }
      modify fun s => { s with trn := { s.trn with
        turn := Tab.put (fun _ => 0) s.trn.turn ((s.pathPort k).getD 0) (peer + 1) } }
      touchCtx peer
      sendPkt peer p k false
      pure true

/-- Retransmit an unacknowledged packet on the next usable path after its last (R263, R267). -/
def retransmit (peer : Nat) (p : Pkt) : Act Unit := do
  let s ← get
  match s.nextPath (s.rally peer) (32 + p.body.length) (p.path + 1) with
  | none => pure ()
  | some k => do
    updRally peer fun r =>
      { r with unacked := r.unacked.map fun q =>
          if q.psn = p.psn then { q with path := k, sentAt := s.now, retxAt := some s.now } else q }
    inc64 Reg.trnRetx
    match s.pathPort k with
    | none => pure ()
    | some port => portCount port 0x284 1
    sendPkt peer p k true

/-- srtt, rttvar and base_rtt take a sample (R263, R268): base_rtt is the least sample of the last second. -/
def PathSt.sample (p : PathSt) (now x second : Nat) : PathSt :=
  let d := if x ≥ p.srtt then x - p.srtt else p.srtt - x
  let step := fun (old new : Nat) (k : Nat) => ((old : Int) + ((new : Int) - old) / k).toNat
  { p with srtt := step p.srtt x 8, rttvar := step p.rttvar d 4
           samples := (p.samples.filter fun (t, _) => decide (t + second ≥ now)) ++ [(now, x)] }

/-- base_rtt: the least sample since `frm` (R268). -/
def PathSt.base (p : PathSt) (frm : Nat) : Nat :=
  ((p.samples.filter fun (t, _) => decide (frm ≤ t)).map Prod.snd).foldl min (2 ^ 32)

/-- RTO of a path, in cycles (R263). -/
def M.rto (s : M) (p : PathSt) : Nat :=
  let us := Config.cyclesPerUs 172
  min (10000 * us) (max (bits (s.reg Reg.trnTiming) 15 8 * us) (p.srtt + 4 * p.rttvar))

/-- adjust(p) of R268. -/
def M.adjustRate (s : M) (p : PathSt) : PathSt :=
  let line := s.lineRate
  let rate := p.rate.getD line
  let gain := bits (s.reg Reg.trnRate) 19 16
  let slack := bits (s.reg Reg.trnTiming) 7 0 * Config.cyclesPerUs 172
  let new := if p.ce > 0 then max (line / 64) (rate - rate * p.ce * gain / (16 * p.recv))
    else if p.srtt > p.base (s.now - 1000000 * Config.cyclesPerUs 172) + slack then max (line / 64) (rate - rate / 16)
    else min line (rate + bits (s.reg Reg.trnRate) 15 0)
  { p with rate := some new, adjusted := some s.now, ce := 0, recv := 0 }

/-- R258: an owner posts a message. -/
def execMessagePost (peer cls tag : Nat) (payload : List Byte) (s : State) : Out :=
  s.doing (postMessage peer { cls := cls, tag := tag, lines := messageLines 0 payload [] })

/-- Has a Rally something for which it opens: a message, a status, or a takeover's OPEN? -/
def Rally.wantsOpen (r : Rally) : Bool := !r.msgs.isEmpty || !r.stats.isEmpty || (r.takeover && r.out == 0)

/-- A message, or the OPEN of a takeover, that waits for its peer's context asks for it again (R269, R271); the Rally opens if it
must. -/
def resumePosted (peer : Nat) : Act Unit := do
  let s ← get
  let r := s.rally peer
  whenA (s.trnReady && !r.onChip && !r.loading && r.wantsOpen) do
    let (here, _) ← needCtx peer
    whenA (here && (r.out == 0 || r.out == 3)) (startOpen peer)

/-- R267: a new sequenced packet is sent. -/
def execPacketSend (peer now : Nat) (s : State) : Out := s.doing do
  setNow now
  resumePosted peer
  let _ ← sendNext peer
  pure ()

/-- R258: an OPEN is sent again, RTO_MIN × 2^r after its r-th send, at most 10 ms. -/
def execOpenResend (peer sinceUs : Nat) (s : State) : Out := s.doing do
  let m ← get
  let r := m.rally peer
  whenA (r.out == 1 && decide (sinceUs ≥ min 10000 (bits (m.reg Reg.trnTiming) 15 8 * 2 ^ r.openSends))) (sendOpen peer)

/-- R263: the RTO of a packet's last path passes; two timeouts in a row make the path suspect (R267). -/
def execRetransmitTimeout (peer psn now : Nat) (s : State) : Out := s.doing do
  setNow now
  let m ← get
  let r := m.rally peer
  match r.unacked.find? (·.psn = psn) with
  | none => pure ()
  | some p =>
    whenA (r.out == 2 && decide (m.now ≥ p.sentAt + m.rto (r.path p.path))) do
      let port := (m.pathPort p.path).getD 0
      portCount port 0x286 1
      let n := (r.path p.path).touts + 1
      whenA (n == 2 && !(r.path p.path).suspect) (portCount port 0x290 1)
      updRally peer fun r => r.setPath p.path fun q => { q with touts := n, suspect := q.suspect || decide (n ≥ 2) }
      retransmit peer p

/-- A PROBE on a path. -/
def sendProbe (peer k : Nat) : Act Unit := do
  let s ← get
  match s.pathPort k with
  | none => pure ()
  | some p => do
    whenA (s.portUp p) (portCount p 0x28A 1)
    sendControl peer k 6 0 0 0 [] 0

/-- R267: a suspect path carries a PROBE. -/
def execSuspectProbe (peer path : Nat) (s : State) : Out := s.doing do
  let m ← get
  whenA ((m.rally peer).out == 2 && ((m.rally peer).path path).suspect) (sendProbe peer path)

/-- R268: a path that has carried no ACK for 100 µs carries a PROBE. -/
def execIdlePathProbe (peer path idleUs : Nat) (s : State) : Out := s.doing do
  let m ← get
  whenA ((m.rally peer).out == 2 && !((m.rally peer).path path).suspect && decide (idleUs ≥ 100)) (sendProbe peer path)

/-- May the rate of a path be adjusted: not within srtt of the last time (R268)? -/
def PathSt.adjustable (p : PathSt) (now : Nat) : Bool :=
  match p.adjusted with
  | none => true
  | some t => decide (t + p.srtt ≤ now)

/-- R268: the rate of a path is adjusted. -/
def execRateAdjust (peer path : Nat) (s : State) (now : Nat := 0) : Out := s.doing do
  setNow now
  let m ← get
  let r := m.rally peer
  whenA (r.out == 2 && (m.pathPort path).isSome && (r.path path).adjustable m.now) do
    let p := m.adjustRate (r.path path)
    whenA (decide (p.rate.getD 0 < m.pathRate r path)) (portCount ((m.pathPort path).getD 0) 0x28D 1)
    updRally peer fun r => r.setPath path fun _ => p

end Sys2Proof.Machine
end

