-- ==== Sys2Proof/Machine/MEngine.lean ====
section
/-! DEFINITION. The M engine (chapters 03, 04 and 06): tile slots, windows, the far band store and spill, side state, MMA,
MMA_BLOCK, MMA_FP64, MMA_A7 and DRAIN, with the tile checksum (R343 to R346) and the selection of slots for shadow
execution (R347 to R350). -/

namespace Sys2Proof.Machine

/-! ## Terms, windows and spill (R57 to R69) -/

/-- The modulus of the checksum (R343). -/
def csumP : Int := 2 ^ 61 - 1

/-- The non-negative remainder modulo p. -/
def residue (x : Int) : Nat := (x % csumP).toNat

/-- The operand residue μ of R343; an infinity or a NaN enters as 0. -/
def Val.opResidue (off : Nat) : Val → Nat
  | .fin s m q => residue (signedMant s (m * 2 ^ ((q + (off / 2 : Nat)) % 61).toNat))
  | _ => 0

/-- An element while a macro-op accumulates into it: the element, the sum of its band contributions, their number, the
products that spilled, and the resolves of its window. -/
structure Accum where
  elem : Elem := {}
  far : Int := 0
  n : Nat := 0
  spilled : Nat := 0
  resolves : Nat := 0

/-- The element that an accumulation leaves in its slot. -/
def Accum.left (a : Accum) : Elem := { a.elem with far := a.elem.far + a.far }

/-- Band contributions of an out-of-window part (R63): bands b and b + 1 each, b the band of its lowest non-zero bit. -/
def contribCount (part : Nat) : Nat :=
  if part = 0 then 0
  else
    let lo := Nat.log2 (part ^^^ (part - 1)) / 64
    1 + (Nat.log2 part + 1 - (64 * lo + 1)) / 127

/-- Resolve a window (R68): the part that leaves the 128-bit range is one contribution at band w + 2. The two bands of an S-class
sum hold it whole (R57). -/
def Accum.resolve (cls : SlotClass) (w : Nat) (a : Accum) : Accum :=
  let v := a.elem.win
  let v' := toSigned 128 (ofSigned 128 v)
  let e := { a.elem with win := v', adds := 0 }
  let a := { a with resolves := a.resolves + 1 }
  if cls = .s then { a with elem := { a.elem with adds := 0 } }
  else if v = v' then { a with elem := e }
  else { a with elem := { e with touched := true }, far := a.far + (v - v') * 2 ^ (64 * w), n := a.n + 1 }

/-- Add the in-window part of a term. A window that has had 256 additions is resolved first (R68). -/
def Accum.addWindow (cls : SlotClass) (w : Nat) (t : Int) (a : Accum) : Accum :=
  if t = 0 then a
  else
    let a := if a.elem.adds ≥ 256 then a.resolve cls w else a
    { a with elem := { a.elem with win := a.elem.win + t, adds := a.elem.adds + 1 } }

/-- Add the aligned integer of a term: its in-window part, and its band contributions (R59, R63). -/
def Accum.place (cls : SlotClass) (w : Nat) (t : Int) (a : Accum) : Accum :=
  if cls = .s then a.addWindow cls w t
  else
    let m := t.natAbs
    let sgn : Int := if t < 0 then -1 else 1
    let below := m % 2 ^ (64 * w)
    let above := m >>> (64 * w + 128) <<< (64 * w + 128)
    let k := contribCount below + contribCount above
    let a := a.addWindow cls w (sgn * bits m (64 * w + 127) (64 * w))
    if k = 0 then a
    else { a with elem := { a.elem with touched := true }, far := a.far + sgn * (below + above : Nat), n := a.n + k
                  spilled := a.spilled + 1 }

/-- The lexicographically smaller of two coordinates. -/
def coordMin (a b : Nat × Nat × Nat) : Nat × Nat × Nat :=
  let (r, c, k) := a
  let (r', c', k') := b
  if r < r' ∨ (r = r' ∧ (c < c' ∨ (c = c' ∧ k ≤ k'))) then a else b

/-- The smaller of two recorded coordinates, if any. -/
def coordMin? (a b : Option (Nat × Nat × Nat)) : Option (Nat × Nat × Nat) :=
  match a, b with
  | some x, some y => some (coordMin x y)
  | none, y => y
  | x, none => x

/-- One more term of an element: side state (R69), first invalid term (R70), residue (R345), bands. `at'` gives the
coordinates of a product. -/
def Accum.term (sl : Slot) (a : Accum) (v : Val) (at' : Option (Nat × Nat × Nat)) : Accum :=
  let t := v.atOff sl.cls.off
  let e := a.elem
  let e := { e with
    side := e.side.add v
    firstInv := if v = .invalid then coordMin? e.firstInv at' else e.firstInv
    rho := residue ((e.rho : Int) + t) }
  { a with elem := e }.place sl.cls sl.w t

/-- The products of element (r, c) of an exact matrix macro-op: the terms of each (R69), with its k. -/
def mmaTerms (as : List Val) (bs : List Val) (k0 : Nat) : List (List Val × Nat) :=
  ((as.zip bs).zip (List.range as.length)).map fun ((a, b), k) => (a.terms b, k0 + k)

/-- The exact sum of the finite products of a block as one term; −0 only if all 32 products are −0 (R57, R72). -/
def blockTerm (vs : List Val) : Val :=
  let fin := vs.filterMap fun v => match v with | .fin s m q => some (s, m, q) | _ => none
  let q0 : Int := (fin.map fun (_, _, q) => q).foldl min 0
  let sum : Int := (fin.map fun (s, m, q) => signedMant s (m <<< (q - q0).toNat)).foldl (· + ·) 0
  if sum = 0 then .fin (decide (fin.length = 32) && fin.all fun (s, m, _) => s && m == 0) 0 0 else .ofDyadic sum q0

/-- Is the value finite? -/
def Val.isFin : Val → Bool
  | .fin _ _ _ => true
  | _ => false

/-- The terms of products taken one by one. -/
def plainTerms (ts : List (List Val × Nat)) : List (Val × Option Nat) := ts.flatMap fun (vs, k) => vs.map fun v => (v, some k)

/-- The terms of an MMA_BLOCK element: the special products of each block with their k, and the block's sum (R37, R57). -/
def blockTerms (ts : List (List Val × Nat)) : Nat → List (Val × Option Nat)
  | 0 => []
  | n + 1 =>
    let blk := plainTerms (ts.take 32)
    let finite := (blk.map Prod.fst).filter Val.isFin
    (blk.filter fun (v, _) => !v.isFin) ++ (if finite.isEmpty then [] else [(blockTerm finite, none)])
      ++ blockTerms (ts.drop 32) n

/-! ## The far band store (R64 to R66) -/

/-- Bands of a slot class. -/
def SlotClass.bands : SlotClass → Nat
  | .w => 10
  | .l => 68
  | _ => 2

/-- Address of the element record of element x of a slot. -/
def Slot.record (sl : Slot) (x : Nat) : Nat := sl.fbs + x * sl.cls.fbsStride

/-- The integer that an element record holds, at the class offset. -/
def M.farBands (s : M) (sl : Slot) (x : Nat) : Int :=
  toSigned (64 * sl.cls.bands) (s.num (sl.record x) (8 * sl.cls.bands))

/-- The spill unit adds contributions into an element record: an untouched record is taken as zero and written whole; a
touched one is read, and the lines that change are written, but for a poisoned line, which stays (R65, R205). Answers
whether a poisoned line was read. -/
def spillAdd (sl : Slot) (x : Nat) (touched : Bool) (c : Int) : Act Bool := do
  let a := sl.record x
  let n := sl.cls.fbsStride
  let w := 64 * sl.cls.bands
  if !touched then do
    let _ ← writeBytes a (leBytes n (ofSigned w c))
    pure false
  else do
    let bad ← readLines (linesOf a n)
    let s ← get
    let new := ofSigned w (s.farBands sl x + c)
    let old := s.num a (w / 8)
    forA (List.range (n / 32)) fun k => do
      let l := a / 32 + k
      whenA (lane old 256 k != lane new 256 k && !bad.contains l)
        (modify fun s => s.putLine l (leBytes 32 (lane new 256 k)) false)
    pure !bad.isEmpty

/-- Cut a list into pieces of n, the last one as it is; fuel pieces at most. -/
def chunksOf {α : Type} (n : Nat) : Nat → List α → List (List α)
  | 0, _ => []
  | fuel + 1, l => if l.isEmpty then [] else l.take n :: chunksOf n fuel (l.drop n)

/-- Sum two lists position by position, the longer one's rest as it is. -/
def addRows : List Nat → List Nat → List Nat
  | a :: as, b :: bs => (a + b) :: addRows as bs
  | [], bs => bs
  | as, [] => as

/-- Far-band updates that carry the contributions of array rows: of one row each, eight contributions at most (R67). -/
def farUpdates (rows : List Nat) : Nat := (rows.map fun n => ceilDiv n 8).sum

/-- Band contributions of each row of a tile of n columns. -/
def rowCounts (n : Nat) (acc : List Accum) : List Nat := (chunksOf (max 1 n) acc.length acc).map fun row => (row.map (·.n)).sum

/-- The spill unit takes the contributions of a slot's elements (R65). Answers whether a poisoned record was read. -/
def spillAll (sl : Slot) (acc : List Accum) : Act Bool := do
  let ds ← mapA ((acc.zip (List.range acc.length)).filter fun (a, _) => a.n != 0) fun (a, x) =>
    spillAdd sl x (sl.elems.getD x {}).touched a.far
  pure (ds.any id)

/-- A matrix macro-op's band contributions: their counts, the far-band updates and the stall that they make, beside what the
macro-op has had already (R67). -/
def creditSpill (core : Nat) (new : List Nat) (f : InFlight) : Act InFlight := do
  let rows := addRows f.rows new
  let stall := ceilDiv (rows.foldl max 0) 8 - f.base
  let s ← get
  engEventX core 1 0x182 new.sum
  posEvent (s.posOf core) 0x12E (farUpdates rows - farUpdates f.rows)
  engEventX core 1 0x183 (stall - f.stall)
  pure { f with rows := rows, spill := f.spill + new.sum, stall := max stall f.stall, cycles := f.cycles + (stall - f.stall) }

/-- The carry-resolve stage resolves the windows of a slot that have had 256 additions (R68): the contributions are those of the
macro-op that last accumulated into the slot, if it has not retired. -/
def resolvePending (core k : Nat) : Act Unit := do
  let s ← get
  let sl := (s.core core).slot k
  let due := sl.elems.filter fun e => decide (e.adds ≥ 256)
  whenA (!due.isEmpty) (do
    let acc := sl.elems.map fun e => if e.adds ≥ 256 then ({ elem := e } : Accum).resolve sl.cls sl.w else { elem := e }
    let bad ← spillAll sl acc
    engEventX core 1 0x184 due.length
    updSlot core k fun sl => { sl with elems := acc.map (·.left), poisoned := sl.poisoned || bad }
    let l := (s.ring core 1).infl
    match (l.zipIdx.filter fun (f, _) => f.started && opMatrix f.rcd.op && f.slot == some k).getLast? with
    | none => pure ()
    | some (f, i) => do
      let g ← creditSpill core (rowCounts sl.n acc) f
      putInFlight core 1 i { g with poison := g.poison || bad })

/-! ## Opening a slot (R60, R61, R79, R347) -/

/-- The default window of a class. -/
def SlotClass.wdef : SlotClass → Nat
  | .w => 3
  | .l => 32
  | _ => 0

/-- The window that a histogram with base b places (R61). -/
def placeWindow (cls : SlotClass) (bins : List Nat) (b : Int) : Nat :=
  match (List.range' 2 60).reverse.find? fun n => bins.getD n 0 != 0 with
  | none => cls.wdef
  | some n =>
    let x : Int := b + n - 2 + cls.off + 16
    (min (cls.wmax : Int) (max 0 (x / 64 - 1))).toNat

/-- The shadow fraction of CHK_SHADOW as the bound of a 32-bit word (R347). -/
def shadowBound (code : Nat) : Nat := [0, 2 ^ 24, 2 ^ 26, 2 ^ 28, 2 ^ 30, 2 ^ 32].getD code 0

/-- Positions in state BENCH, in rising order. -/
def M.benches (s : M) : List Nat := (List.range 128).filter fun i => s.posState i == 1

/-- Is the position a shadow position, or the target of a substitution? -/
def M.shadowBusy (s : M) (i : Nat) : Bool :=
  (List.range s.nCores).any fun n => (s.core n).slotA.shadow == some i || (s.core n).slotB.shadow == some i
    || (s.core n).shadows.any (fun h => h.pos == i) || (s.core n).target == some (true, i)

/-- A free BENCH position: on the die of `pos` first, then on the other. -/
def M.freeBench (s : M) (pos : Nat) (except' : List Nat) : Option Nat :=
  let free := s.benches.filter fun i => !s.shadowBusy i && !except'.contains i
  match free.find? fun i => i / 64 == pos / 64 with
  | some i => some i
  | none => free.head?

/-- A slot open is considered for shadow execution (R347 to R350): the shadow position, if one is bound. -/
def selectShadow (core : Nat) : Act (Option Nat) := do
  let s ← get
  let n := (s.core core).opens
  let pos := s.posOf core
  updCore core fun c => { c with opens := trunc 32 (c.opens + 1) }
  inc64 Reg.chkOpens
  let code := bits (s.reg Reg.chkShadow) 2 0
  let bound := if (s.posX pos).csumOff then max (shadowBound code) (2 ^ 28) else shadowBound code
  if bound = 0 ∨ s.benches.length < 2 then pure none
  else if bound < 2 ^ 32 ∧ rngWord Config.practiceSeed 0 0xFFFFFE (16 * (core * 2 ^ 32) + n) ≥ bound then pure none
  else do
    inc64 Reg.chkSelected
    engEventX core 1 0x18E 1
    match s.freeBench pos [] with
    | some b => pure (some b)
    | none => do
      inc64 Reg.chkMissed
      pure none

/-- The selection of a slot is missed (R350), while it is open or its DRAIN is in flight. -/
def missShadow (core k : Nat) : Act Unit := do
  let s ← get
  let drains := (((s.core core).ringM.infl).filter fun f => f.rcd.op == 0x34).map (·.x)
  let lost := (s.core core).shadows.filter fun h => h.slot == k && drains.contains h.drain
  addReg 64 Reg.chkMissed (lost.length + b2n ((s.core core).slot k).shadow.isSome)
  updCore core fun c => { c with shadows := c.shadows.filter fun h => !(h.slot == k && drains.contains h.drain) }
  updSlot core k fun sl => { sl with shadow := none }

/-- Open the slot that a matrix macro-op names, if it is empty: class, window, far band store, extent, placement; bands,
side state and touched bits clear (R79). Answers whether reading the histogram found poison. -/
def openSlot (core : Nat) (f : InFlight) : Act Bool := do
  let r := f.rcd
  let a := f.td 0
  let b := f.td 1
  let ad := AD.parse f.od
  let cls := mmaClass r.op a b
  let s ← get
  if ((s.core core).slot r.slotOf).state = .opened then pure false
  else do
    let hist := (cls == .w || cls == .l) && r.window == 0xFE
    let (p, bs) ← if hist then readBytes ad.histSrc 256 else pure (false, [])
    let bins := (List.range 64).map fun i => leNat ((bs.drop (4 * i)).take 4)
    let w := match cls with
      | .s => 0
      | .a7 => 0
      | _ => if hist then (if p then cls.wdef else placeWindow cls bins ad.histBase)
             else if r.window = 0xFF then cls.wdef else r.window
    let sh ← selectShadow core
    engEventX core 1 0x185 1
    whenA hist (engEventX core 1 0x186 1)
    updSlot core r.slotOf fun _ =>
      { state := .opened, cls := cls, w := w, fbs := ad.fbs, m := a.rows, n := b.cols, row0 := ad.row0, col0 := ad.col0
        elems := List.replicate (a.rows * b.cols) {}, shadow := sh }
    pure p

/-! ## A7 arithmetic (R107 to R109) -/

/-- The value of an A7 operand: a subnormal is a zero of its sign. -/
def a7In (fmt c : Nat) : Val :=
  match Fp.ofCode fmt with
  | none => .nan
  | some f =>
    match f.decode c with
    | .fin s m q => if bits c (f.eBits + f.mBits - 1) f.mBits = 0 then .fin s 0 0 else .fin s m q
    | v => v

/-- The canonical NaN of FP32. -/
def nan32 : Nat := 0x7FC00000

/-- Round to FP32 by RNE; a subnormal or zero result of a non-zero value is flushed to a zero of its sign, and it alone underflows:
the test is on the rounded result (R107). -/
def a7Round (s : Bool) (m : Nat) (q : Int) : Nat × Flags :=
  let (c, fl) := Fp.fp32.round s m q .rne 0
  if bits c 30 23 = 0 then (Fp.fp32.withSign s 0, { underflow := true, inexact := true }) else (c, { fl with underflow := false })

/-- One product (R107). -/
def a7Mul (fa ca fb cb : Nat) : Nat × Flags :=
  match a7In fa ca, a7In fb cb with
  | .fin s m q, .fin s' m' q' =>
    if m * m' = 0 then (Fp.fp32.withSign (s != s') 0, {}) else a7Round (s != s') (m * m') (q + q')
  | .inf s, .fin s' m' _ => if m' = 0 then (nan32, Flags.ofInvalid) else (Fp.fp32.withSign (s != s') 0x7F800000, { infIn := true })
  | .fin s m _, .inf s' => if m = 0 then (nan32, Flags.ofInvalid) else (Fp.fp32.withSign (s != s') 0x7F800000, { infIn := true })
  | .inf s, .inf s' => (Fp.fp32.withSign (s != s') 0x7F800000, { infIn := true })
  | _, _ => (nan32, Flags.ofNan)

/-- One addition (R108). -/
def a7Add (x y : Nat) : Nat × Flags :=
  match Fp.fp32.decode x, Fp.fp32.decode y with
  | .fin s m q, .fin s' m' q' =>
    let q0 := min q q'
    let t := signedMant s (m <<< (q - q0).toNat) + signedMant s' (m' <<< (q' - q0).toNat)
    if t = 0 then (Fp.fp32.withSign (m == 0 && m' == 0 && s && s') 0, {})
    else a7Round (decide (t < 0)) t.natAbs q0
  | .inf s, .inf s' => if s = s' then (x, {}) else (nan32, Flags.ofInvalid)
  | .inf _, .fin _ _ _ => (x, {})
  | .fin _ _ _, .inf _ => (y, {})
  | _, _ => (nan32, {})

/-- g and C of Table 04-4. -/
def a7Shape : Nat → Nat × Nat
  | 1 => (8, 16)
  | 2 => (8, 8)
  | 3 => (4, 16)
  | 4 => (4, 8)
  | 5 => (2, 16)
  | 6 => (2, 8)
  | _ => (1, 1)

/-- Add neighbours: one level of the balanced tree. -/
def a7Pairs : List Nat → List Nat × Flags
  | x :: y :: l =>
    let (z, f) := a7Add x y
    let (zs, g) := a7Pairs l
    (z :: zs, f.join g)
  | l => (l, {})

/-- The tree sum of a group, n levels. -/
def a7Tree : Nat → List Nat → Nat × Flags
  | 0, l => (l.getD 0 0, {})
  | n + 1, l =>
    let (l', f) := a7Pairs l
    let (x, g) := a7Tree n l'
    (x, f.join g)

/-- Sum a list in order: the first is taken as it is. -/
def a7Sum : List Nat → Nat × Flags
  | [] => (0, {})
  | x :: l => l.foldl (fun (a, f) y => let (z, g) := a7Add a y; (z, f.join g)) (x, {})

/-- The chunk sums of the products of one element (R109). -/
def a7Chunks (shape : Nat) (ps : List Nat) : List Nat × Flags :=
  let (g, c) := a7Shape shape
  let pad := ps ++ List.replicate ((g - ps.length % g) % g) 0
  let trees := (chunksOf g pad.length pad).map (a7Tree (Nat.log2 g))
  let sums := (chunksOf c trees.length (trees.map Prod.fst)).map a7Sum
  (sums.map Prod.fst, (Flags.joinAll (trees.map Prod.snd)).join (Flags.joinAll (sums.map Prod.snd)))

/-- An A7 element after one more macro-op: input tile element first, then its chunk sums in k order. -/
def a7Elem (e : Elem) (shape : Nat) (prods : List (Nat × Flags)) (cin : Option (Nat × Flags))
    (coord : Nat → Nat × Nat × Nat) : Elem :=
  let (sums, fl) := a7Chunks shape (prods.map Prod.fst)
  let all := (match cin with | some (c, _) => [c] | none => []) ++ sums
  let cf : Flags := match cin with | some (_, f) => f | none => {}
  let (r, fs) := a7Sum ((match e.a7 with | some r => [r] | none => []) ++ all)
  let inv := ((prods.zip (List.range prods.length)).find? fun ((_, f), _) => f.invalid).map fun (_, k) => coord k
  { e with
    a7 := some r
    firstInv := coordMin? e.firstInv inv
    flags := (Flags.joinAll ([Flags.ofNat e.flags, fl, cf, fs] ++ prods.map Prod.snd)).toNat }

/-- An input tile element of MMA_A7: widened exactly, a NaN or an infinity setting its flag (R108, R109). -/
def a7Input (fmt c : Nat) : Nat × Flags :=
  let v := a7In fmt c
  let (x, _) := castVal 1 v .rne 0
  (x, match v with | .nan => Flags.ofNan | .inf _ => { infIn := true } | _ => {})

/-! ## Matrix macro-ops (R155 to R157, R67, R81, R82) -/

/-- The lines that a matrix macro-op reads. -/
def mmaLines (f : InFlight) : List Nat :=
  let l := (f.td 0).lines false ++ (f.td 1).lines true
  (l ++ (if bit f.w2 22 then (f.td 2).lines false else [])).eraseDups

/-- The elements of a slot after an exact matrix macro-op. -/
def M.mmaElems (s : M) (f : InFlight) (sl : Slot) : List Accum :=
  let a := f.td 0
  let b := f.td 1
  let c := if bit f.w2 22 then some (f.td 2) else none
  let k0 := (AD.parse f.od).k0
  let rows := (List.range a.rows).map fun r => (List.range a.cols).map fun k => s.elem a false r k
  let cols := (List.range b.cols).map fun j => (List.range a.cols).map fun k => s.elem b true k j
  (List.range (sl.m * sl.n)).map fun x =>
    let (r, j) := (x / sl.n, x % sl.n)
    let ts := mmaTerms (rows.getD r []) (cols.getD j []) k0
    let ts := if f.rcd.op = 0x31 then blockTerms ts (ceilDiv ts.length 32) else plainTerms ts
    let ts := ts ++ (match c with | some c => [(s.elem c false r j, none)] | none => [])
    ts.foldl (fun acc (v, k) => acc.term sl v (k.map fun k => (sl.row0 + r, sl.col0 + j, k)))
      { elem := sl.elems.getD x {} }

/-- The residue of a dot product of residues. -/
def dotResidue (x y : List Nat) : Nat := residue ((List.zipWith (· * ·) x y).sum : Nat)

/-- Sum lists of n numbers position by position. -/
def colSums (n : Nat) (ls : List (List Nat)) : List Nat := (List.range n).map fun k => (ls.map fun l => l.getD k 0).sum

/-- The prediction of the product check (R344): the row residues, then the column residues, from the operand residues. -/
def M.prediction (s : M) (f : InFlight) (sl : Slot) : List Nat :=
  let a := f.td 0
  let b := f.td 1
  let off := sl.cls.off
  let ks := List.range a.cols
  let rows := (List.range a.rows).map fun r => ks.map fun k => (s.elem a false r k).opResidue off
  let cols := (List.range b.cols).map fun j => ks.map fun k => (s.elem b true k j).opResidue off
  let c := fun r j => if bit f.w2 22 then residue ((s.elem (f.td 2) false r j).atOff off) else 0
  (rows.zipIdx.map fun (x, r) => residue ((dotResidue x (colSums a.cols cols) + ((List.range b.cols).map (c r)).sum : Nat) : Int))
    ++ cols.zipIdx.map fun (y, j) =>
      residue ((dotResidue (colSums a.cols rows) y + ((List.range a.rows).map fun r => c r j).sum : Nat) : Int)

/-- The observation of the product check (R344): the same residues, of the terms as they entered stage 4: what each window took in,
and the band contributions sent to the spill unit. -/
def observation (sl : Slot) (acc : List Accum) : List Nat :=
  let x := acc.zipIdx.map fun (a, i) => residue ((a.elem.win - (sl.elems.getD i {}).win) * 2 ^ (64 * sl.w) + a.far)
  let rows := chunksOf (max 1 sl.n) x.length x
  rows.map (fun r => residue (r.sum : Nat)) ++ (colSums sl.n rows).map fun c => residue (c : Nat)

/-- Does the checksum unit of the core's position check products and drains (R344, R356)? -/
def M.checksums (s : M) (core : Nat) : Bool := bit (s.reg Reg.chkCtl) 0 && !(s.posX (s.posOf core)).csumOff

/-- Is a NaN among the operands and the input tile of a matrix macro-op (R32)? -/
def M.mmaNan (s : M) (f : InFlight) : Bool :=
  let nan := fun (t : TD) k => t.cells.any fun (i, j) => s.elem t k i j == .nan
  nan (f.td 0) false || nan (f.td 1) true || (bit f.w2 22 && nan (f.td 2) false)

/-- The elements of an A7 slot after an MMA_A7. -/
def M.a7Elems (s : M) (f : InFlight) (sl : Slot) : List Elem :=
  let a := f.td 0
  let b := f.td 1
  let c := if bit f.w2 22 then some (f.td 2) else none
  let k0 := (AD.parse f.od).k0
  (List.range (sl.m * sl.n)).map fun x =>
    let (r, j) := (x / sl.n, x % sl.n)
    let ps := (List.range a.cols).map fun k => a7Mul a.fmt (s.code a r k) b.fmt (s.code b k j)
    a7Elem (sl.elems.getD x {}) (bits f.w2 57 54) ps (c.map fun c => a7Input c.fmt (s.code c r j))
      (fun k => (sl.row0 + r, sl.col0 + j, k0 + k))

/-- Capture for a shadow (R349, R350): the macro-op's retirement is held for the copy; beyond 32 MiB the selection is
missed. -/
def capture (core k : Nat) (lines : Nat) : Act Bool := do
  let s ← get
  let sl := (s.core core).slot k
  match sl.shadow with
  | none => pure false
  | some _ =>
    let n := sl.captured + 32 * lines
    if n + sl.m * sl.n * sl.cls.fbsStride + 8 * sl.m * sl.n > 32 * 2 ^ 20 then do
      missShadow core k
      pure false
    else do
      updSlot core k fun sl => { sl with captured := n }
      pure true

/-- A matrix macro-op accumulates into its slot, opening it if it is empty. -/
def mmaStd (core : Nat) : Work := fun f => do
  let k := f.rcd.slotOf
  resolvePending core k
  let hp ← openSlot core f
  let lines := mmaLines f
  let bad ← readLines lines
  let s ← get
  let sl := (s.core core).slot k
  let prods := sl.m * sl.n * (f.td 0).cols
  engEventX core 1 0x180 prods
  let poison := hp || !bad.isEmpty
  let f := { f.finish { nanIn := s.mmaNan f } poison with base := cBase f.rcd.op (f.td 0) (f.td 1) }
  if sl.cls = .a7 then do
    updSlot core k fun sl => { sl with elems := s.a7Elems f sl, poisoned := sl.poisoned || poison }
    let held ← capture core k lines.length
    pure { f with held := held }
  else do
    let acc := s.mmaElems f sl
    let lost ← spillAll sl acc
    engEventX core 1 0x181 (acc.map (·.spilled)).sum
    let g ← creditSpill core (rowCounts sl.n acc) f
    engEventX core 1 0x184 (acc.map (·.resolves)).sum
    updSlot core k fun sl => { sl with elems := acc.map (·.left), poisoned := sl.poisoned || poison || lost }
    let held ← capture core k lines.length
    let check := s.checksums core
    pure { g with poison := g.poison || lost, held := held, pred := if check then s.prediction f sl else []
                  obs := if check then observation sl acc else [] }

/-- The custom play that a record of the M engine names, with what hazard watch finds in it (R186, R443). -/
def matrixPlay (core : Nat) (f : InFlight) : Act (Option PlayRes) :=
  if f.rcd.play = 0 then pure none else do
    let r ← playOf core 1 0 f
    pure (some r)

/-- Did strict watch stop the play, if there is one (R187)? -/
def strictStop (s : M) (core : Nat) (p : Option PlayRes) : Bool := (p.map (s.strictStop core 1)).getD false

/-- The sums of a slot whose matrix macro-op was stopped partway are open: free values (log 43). -/
def scrambleSlot (core k : Nat) : Act Unit := do
  let s ← get
  let es ← mapA ((s.core core).slot k).elems fun e => do
    let x ← freeVal 128
    pure { e with win := toSigned 128 x }
  updSlot core k fun sl => { sl with elems := es }

/-- A matrix macro-op, under a custom play retiring by that play's cycles (R443). -/
def mmaWork (core : Nat) : Work := fun f => do
  let g ← mmaStd core f
  let p ← matrixPlay core f
  let s ← get
  let strict := strictStop s core p
  whenA strict (scrambleSlot core f.rcd.slotOf)
  match p with
  | none => pure g
  | some r => pure { g with cycles := r.cycles + g.stall, hazard := strict }

/-- R157: MMA. MMA multiplies A by B exactly into a tile slot, opening the slot if it is empty. -/
def execMma (core : Nat) (s : State) : Out := s.doing (runOp core 1 0x30 (mmaWork core))
/-- R157: MMA_BLOCK. MMA_BLOCK performs an MX block-scaled multiply into a slot. -/
def execMmaBlock (core : Nat) (s : State) : Out := s.doing (runOp core 1 0x31 (mmaWork core))
/-- R109: MMA_A7. MMA_A7 accumulates in FP32 in the order set by an A7 shape code. -/
def execMmaA7 (core : Nat) (s : State) : Out := s.doing (runOp core 1 0x32 (mmaWork core))
/-- R157: MMA_FP64. MMA_FP64 performs an L-class multiply into a slot. -/
def execMmaFp64 (core : Nat) (s : State) : Out := s.doing (runOp core 1 0x33 (mmaWork core))

/-- The windows of a slot are resolved as it drains (R68): the counts of band contributions by row. A record that the spill unit
finds poisoned stays so, and the drain reads it (R81). -/
def resolveDrain (core k : Nat) : Act (List Nat) := do
  let s ← get
  let sl := (s.core core).slot k
  if sl.cls = .a7 then pure []
  else do
    let acc := sl.elems.map fun e => ({ elem := e } : Accum).resolve sl.cls sl.w
    let _ ← spillAll sl acc
    engEventX core 1 0x184 acc.length
    updSlot core k fun sl => { sl with elems := acc.map (·.left) }
    pure (rowCounts sl.n acc)

/-- R68: WINDOW_RESOLVE. After 256 additions the carry-resolve stage propagates window carries and sends any overflow as a
band contribution. -/
def execWindowResolve (core slot : Nat) (s : State) : Out := s.doing (do
  let x ← get
  whenA (((x.core core).slot slot).state == .opened) (resolvePending core slot))

/-! ## DRAIN (R71 to R78, R81, R110, R159, R345) -/

/-- Bin of a result (Table 02-10): its value, whether it is a NaN result, whether a finite code is subnormal. -/
def histBin (b : Int) (nan sub : Bool) (v : Val) : Nat :=
  if nan then 63
  else
    match v with
    | .inf _ => 62
    | .fin _ m q =>
      if m = 0 then 0
      else if sub then 1
      else 2 + (min 59 (max 0 ((Nat.log2 m : Int) + q - b))).toNat
    | _ => 63

/-- Is a code a subnormal of its format? -/
def codeSubnormal (fmt c : Nat) : Bool :=
  match Fp.ofCode fmt with
  | some f => bits c (f.eBits + f.mBits - 1) f.mBits == 0
  | none => false

/-- Bin counts of a list of bins. -/
def binCounts (l : List Nat) : List Nat := (List.range 64).map fun i => (l.filter (· == i)).length

/-- Write or add a histogram (R52, R53); answers whether an addition was discarded for poison. -/
def writeHist (a : Nat) (add : Bool) (counts : List Nat) : Act Bool := do
  let ds ← mapA (List.range 8) fun k => do
    let part := (counts.drop (8 * k)).take 8
    let l := a / 32 + k
    if !add then do
      modify fun s => s.putLine l (part.flatMap fun n => leBytes 4 (satU 32 n)) false
      pure false
    else do
      let p ← readLine l
      if p then pure true
      else do
        let s ← get
        let old := (List.range 8).map fun i => s.num (32 * l + 4 * i) 4
        modify fun s => s.putLine l ((old.zip part).flatMap fun (x, n) => leBytes 4 (satU 32 (x + n))) false
        pure false
  whenA add (sliceEvent (a / 32) 0x12B)
  pure (ds.any id)

/-- The exception record of Table 03-9. -/
def exceptionRecord (fl : Flags) (inv : Option (Nat × Nat × Nat)) : List Byte :=
  match inv with
  | none => leBytes 32 { fl with invValid := false }.toNat
  | some (r, c, k) => leBytes 32 ({ fl with invValid := true }.toNat + trunc 32 r <<< 32 + trunc 32 c <<< 64 + trunc 32 k <<< 96)

/-- What a drain writes: codes with the scales of an MX output, or exact records; bins; flags; the coordinates; how many
elements are inexact. -/
structure Drained where
  code : Nat → Nat → Nat
  scale : Nat → Nat → Nat
  bins : List Nat
  flags : Flags
  inv : Option (Nat × Nat × Nat)
  inexact : Nat

/-- Does the record of a touched element hold something else than its contributions, because software wrote there (R66)? -/
def M.overwritten (s : M) (sl : Slot) (x : Nat) : Bool :=
  s.num (sl.record x) (8 * sl.cls.bands) != ofSigned (64 * sl.cls.bands) (sl.elems.getD x {}).far

/-- The exact accumulator of element x of a slot at the drain: the resolved window, and the far bands of a touched element
(R73), which are those in `fr` where software has overwritten them. -/
def M.slotAcc (s : M) (sl : Slot) (fr : List (Nat × Nat)) (x : Nat) : ExAcc :=
  let e := sl.elems.getD x {}
  let far := match fr.find? fun p => p.1 == x with
    | some p => toSigned (64 * sl.cls.bands) p.2
    | none => s.farBands sl x
  ⟨e.win * 2 ^ (64 * sl.w) + (if e.touched then far else 0), e.side⟩

/-- The result of an empty or poisoned slot: +0 everywhere, every element in bin 0, an empty record. -/
def Drained.zero (n : Nat) : Drained := ⟨fun _ _ => 0, fun _ _ => 0x7F, List.replicate n 0, {}, none, 0⟩

/-- The first invalid term of a slot. -/
def Slot.inv (sl : Slot) : Option (Nat × Nat × Nat) := sl.elems.foldl (fun a e => coordMin? a e.firstInv) none

/-- The drain of an A7 slot (R110). -/
def a7Drain (sl : Slot) (o : TD) (mode : RMode) (word : Nat → Nat → Nat) (b : Int) : Drained :=
  let res := (List.range (sl.m * sl.n)).map fun x =>
    let v := Fp.fp32.decode ((sl.elems.getD x {}).a7.getD 0)
    let (c, fl) := castVal o.fmt v mode (word (x / sl.n) (x % sl.n))
    let nan := match v with | .nan => true | _ => false
    (c, if nan then ({} : Flags) else fl, histBin b nan (codeSubnormal o.fmt c) (decodeElem o.fmt c))
  ⟨fun i j => (res.getD (i * sl.n + j) (0, {}, 0)).1, fun _ _ => 0, res.map (·.2.2),
   Flags.joinAll (res.map (·.2.1) ++ sl.elems.map fun e => Flags.ofNat e.flags), sl.inv,
   (res.filter (·.2.1.inexact)).length⟩

/-- The drain of an exact slot into a format that is no MX format. -/
def plainDrain (sl : Slot) (acc : List ExAcc) (badE : List Nat) (o : TD) (mode : RMode) (word : Nat → Nat → Nat) (b : Int) :
    Drained :=
  let res := (acc.zip (List.range acc.length)).map fun (a, x) =>
    if badE.contains x then (0, a.side.drainFlags false, none)
    else
      let (c, fl) := a.round sl.cls.off o.fmt mode (word (x / sl.n) (x % sl.n))
      let d := a.side
      let nan := d.nan || d.invalid || (d.pinf && d.ninf)
      (c, fl, some (histBin b nan (codeSubnormal o.fmt c) (decodeElem o.fmt c)))
  ⟨fun i j => (res.getD (i * sl.n + j) (0, {}, none)).1, fun _ _ => 0, res.filterMap (·.2.2),
   Flags.joinAll (res.map (·.2.1)), sl.inv, (res.filter (·.2.1.inexact)).length⟩

/-- The drain of an exact slot into an MX format (R74, R81). -/
def mxDrain (sl : Slot) (acc : List ExAcc) (badE : List Nat) (o : TD) (mode : RMode) (word : Nat → Nat → Nat) (b : Int) :
    Drained :=
  let nb := ceilDiv sl.n 32
  let val := fun x => if badE.contains x then Val.zero else (acc.getD x {}).val sl.cls.off mode
  let enc := (List.range sl.m).map fun i => (List.range nb).map fun k =>
    let js := (List.range' (32 * k) 32).filter (· < sl.n)
    let vs := js.map fun j => val (i * sl.n + j)
    encodeMxBlock o.fmt (vs ++ List.replicate (32 - vs.length) Val.zero) mode (js.map fun j => word i j)
  let at' := fun i k => (enc.getD i []).getD k (0x7F, [], Flags.none)
  let code := fun i j => (at' i (j / 32)).2.1.getD (j % 32) 0
  let bins := (List.range (sl.m * sl.n)).filterMap fun x =>
    let (i, j) := (x / sl.n, x % sl.n)
    let sc := (at' i (j / 32)).1
    if badE.contains x then none
    else some (histBin b (sc == 0xFF) false (decodeMx o.fmt (code i j) sc))
  let side := acc.map fun a => a.side.drainFlags false
  let off := (List.range (sl.m * sl.n)).filter fun x =>
    let v := decodeMx o.fmt (code (x / sl.n) (x % sl.n)) (at' (x / sl.n) (x % sl.n / 32)).1
    !badE.contains x && (v.lt (val x) || (val x).lt v)
  ⟨code, fun i k => (at' i k).1, bins, Flags.joinAll ((enc.flatMap id).map (·.2.2) ++ side), sl.inv, off.length⟩

/-- Elements of a slot that the drain check finds in disagreement with their residue (R345): the far band store of a
touched element does not hold what was spilled. Off for an A7 slot, with CHECKSUM_EN clear, or with a faulty unit. -/
def M.drainCheck (s : M) (core : Nat) (sl : Slot) (acc : List ExAcc) : List Nat :=
  if sl.cls = .a7 ∨ !s.checksums core then []
  else ((acc.zip (List.range acc.length)).filter fun (a, x) =>
    residue a.sum != (sl.elems.getD x {}).rho).map Prod.snd

/-- Write the codes of a drain, element lines in `bad` poisoned, and the scales of an MX output. -/
def writeDrained (o : TD) (d : Drained) (bad badScale : List Nat) : Act Bool := do
  let w ← writeCodes o false d.code bad
  if isMx o.fmt then do
    let nb := ceilDiv o.cols 32
    let ws ← mapA (List.range o.rows) fun i =>
      writeRun (8 * (o.auxBase + i * nb)) (8 * nb) (packCodes 8 ((List.range nb).map fun k => d.scale i k)) badScale
    pure (w || ws.any id)
  else pure w

/-- Count the elements of a drain that its events name. -/
def drainEvents (core : Nat) (d : Drained) : Act Unit := do
  engEventX core 1 0x187 1
  whenA d.flags.invalid (engEventX core 1 0x188 1)
  engEventX core 1 0x189 d.inexact
  engEventX core 1 0x18A (d.bins.filter fun b => b == 62 || b == 63).length

/-- The windows of a slot that held sums at the drain's issue are resolved: those that were due for the macro-op that filled them,
then all for the drain. Answers what spilled for the drain. -/
def drainOpen (core k : Nat) (live : Bool) : Act Nat := do
  if live then do
    resolvePending core k
    let rows ← resolveDrain core k
    let s ← get
    engEventX core 1 0x182 rows.sum
    posEvent (s.posOf core) 0x12E (farUpdates rows)
    pure rows.sum
  else pure 0

/-- Elements of a slot that have contributions in the far band store. -/
def Slot.spilledElems (sl : Slot) : List Nat :=
  if sl.cls = .w ∨ sl.cls = .l then (List.range sl.elems.length).filter fun x => (sl.elems.getD x {}).touched else []

/-- A drain under way: the slot, whether it held sums, whether they can be used, the elements with contributions in the far
band store, those among them whose record is poisoned, the sums, and the elements that the drain check finds wrong. -/
structure Draining where
  sl : Slot
  live : Bool
  usable : Bool
  touched : List Nat
  badE : List Nat
  acc : List ExAcc
  wrong : List Nat

/-- What a drain finds, once the far band store has been read and lines `badL` were poisoned; `fr` are the free values of the
records that software has overwritten. -/
def M.draining (s : M) (core : Nat) (sl : Slot) (live : Bool) (touched badL : List Nat) (fr : List (Nat × Nat)) : Draining :=
  let usable := live && !sl.poisoned
  let badE := if usable then touched.filter fun x => (linesOf (sl.record x) sl.cls.fbsStride).any badL.contains else []
  let acc := if usable then (List.range (sl.m * sl.n)).map fun x => s.slotAcc sl fr x else []
  let wrong := if usable then (s.drainCheck core sl acc).filter (!badE.contains ·) else []
  ⟨sl, live, usable, touched, badE, acc, wrong⟩

/-- The slot is poisoned: all that the drain writes is. -/
def Draining.lost (g : Draining) : Bool := g.live && g.sl.poisoned

/-- Is element (i, j) of the output poisoned? -/
def Draining.dep (g : Draining) (i j : Nat) : Bool :=
  g.lost || g.badE.contains (i * g.sl.n + j) || g.wrong.contains (i * g.sl.n + j)

/-- The results of a drain. -/
def Draining.result (g : Draining) (s : M) (core : Nat) (f : InFlight) : Drained :=
  let o := f.td 0
  let mode := (RMode.ofCode f.rcd.rmode).getD .rne
  let hb := toSigned 16 (bits f.w2 57 42)
  let word := fun i j => if mode = .sr then s.srWord core f (o.index i j) else 0
  if !g.usable then Drained.zero (o.rows * o.cols)
  else if g.sl.cls = .a7 then a7Drain g.sl o mode word hb
  else if o.exact then
    ⟨fun _ _ => 0, fun _ _ => 0, [], Flags.joinAll (g.acc.map fun a => a.side.drainFlags false), g.sl.inv, 0⟩
  else if isMx o.fmt then mxDrain g.sl g.acc g.badE o mode word hb
  else plainDrain g.sl g.acc g.badE o mode word hb

/-- The output of a drain is written. Answers whether a write was discarded. -/
def drainWrite (o : TD) (g : Draining) (d : Drained) : Act Bool := do
  let bad := o.linesWhere false g.dep
  let badCode := if g.lost then bad else (o.cells.flatMap fun (i, j) => if g.dep i j then o.codeLines i j else []).eraseDups
  if o.exact then
    writeExact o (fun i j => if g.usable then (g.acc.getD (i * g.sl.n + j) {}).widen 0 (exOff o.exactL - g.sl.cls.off) else {})
      g.dep
  else writeDrained o d badCode (if g.lost then bad else [])

/-- A drained slot with a shadow goes to its comparison (R349). -/
def drainShadow (core : Nat) (f : InFlight) (g : Draining) : Act Unit :=
  match (if g.live then g.sl.shadow else none) with
  | none => pure ()
  | some b => do
    let s ← get
    updSlot core f.rcd.slotOf fun sl => { sl with shadow := none }
    updCore core fun c => { c with shadows := c.shadows ++ [{
      slot := f.rcd.slotOf, orig := s.posOf core, pos := b, drain := f.x, step := f.now, row0 := g.sl.row0
      col0 := g.sl.col0, m := g.sl.m, n := g.sl.n, base := (f.td 0).base }] }

/-- After a drain the far band store of its slot holds undefined contents (R66): free values. -/
def farAfter (sl : Slot) (live : Bool) : Act Unit :=
  whenA (live && (sl.cls == .w || sl.cls == .l)) (scramble sl.fbs (sl.m * sl.n * sl.cls.fbsStride))

/-- DRAIN: the slot is empty when the drain has written its last line. -/
def drainWork (core : Nat) : Work := fun f => do
  let k := f.rcd.slotOf
  let o := f.td 0
  let p ← matrixPlay core f
  let live := f.slot.isSome
  let extra ← drainOpen core k live
  let s1 ← get
  let sl := (s1.core core).slot k
  let touched := if live then sl.spilledElems else []
  let badL ← readLines (touched.flatMap fun x => linesOf (sl.record x) sl.cls.fbsStride).eraseDups
  let s ← get
  let fr ← mapA (touched.filter fun x => s.overwritten sl x) fun x => do
    let v ← freeVal (64 * sl.cls.bands)
    pure (x, v)
  let g := s.draining core sl live touched badL fr
  engEventX core 1 0x18D g.wrong.length
  let d := g.result s core f
  let w ← drainWrite o g d
  let h ← if o.exact then pure false else writeHist (bits f.w2 41 0) (bit f.w1 48) (binCounts d.bins)
  let _ ← writeBytes (homeAddr core (bits f.w3 21 0)) (exceptionRecord d.flags d.inv)
  drainEvents core d
  whenA (!g.wrong.isEmpty) (setField (Reg.chkPos (s.posOf core)) 30 30 1)
  drainShadow core f g
  farAfter sl live
  let s ← get
  let strict := strictStop s core p
  whenA strict (scrambleOuts f.outs)
  pure { f.finish (if d.inv.isSome then { d.flags with invValid := true } else d.flags)
      (g.lost || !g.badE.isEmpty || !g.wrong.isEmpty || w || h) with
    cycles := (p.map (·.cycles)).getD (tDrain o.rows o.cols o.ebits sl.cls touched.length), spill := extra, hazard := strict }

/-- R73: DRAIN. DRAIN rounds each element of a slot once, and writes the outputs, the histogram and the exception record.
-/
def execDrain (core : Nat) (s : State) : Out := s.doing (runOp core 1 0x34 (drainWork core))

/-- SLOT_DRAIN_WAIT_END (R79): a drain has written its last line; its slot is empty, and the matrix macro-op that waits for
it at the arbitration point proceeds. -/
def execSlotDrainWaitEnd (core : Nat) (s : State) : Out := s.doing (do
  let x ← get
  match x.headRec core 1 with
  | none => pure ()
  | some r =>
    let k := r.slotOf
    let drained := (x.ring core 1).infl.any fun f => f.rcd.op == 0x34 && f.slot == some k && f.done
    whenA (opMatrix r.op && !x.ringEmpty core 1 && ((x.core core).slot k).state == .draining && drained) (do
      updSlot core k fun _ => {}
      updRing core 1 fun g => { g with infl := g.infl.map fun f => if f.rcd.op = 0x34 ∧ f.slot = some k ∧ f.done then
                                                                  { f with slot := none } else f }
      let _ ← issue core 1 none
      pure ()))

/-- A sequencer stands still for one island cycle: the first entry in flight for which `p` holds takes the longer. -/
def freeze (core e : Nat) (p : InFlight → Bool) : Act Unit :=
  updRing core e fun g =>
    match g.infl.findIdx? p with
    | none => g
    | some i => { g with infl := g.infl.modify i fun f => { f with frozen := f.frozen + 1 } }

/-- CHECKSUM_FREEZE (R346): while checksums are on and a matrix macro-op is in flight at a position, its sequencer stands
still for one cycle, which lengthens CYCLES alone. -/
def execChecksumFreeze (pos : Nat) (s : State) : Out := s.doing (do
  let x ← get
  let n := x.runningAt pos
  let p := fun f : InFlight => opMatrix f.rcd.op && f.rcd.op != 0x32
  whenA (bit (x.reg Reg.chkCtl) 0 && decide (n < x.nCores) && (x.ring n 1).infl.any p) (do
    posCount pos 8 8 0x18B 1 n
    freeze n 1 p))

/-- HAZARD_WATCH_FREEZE (R185): an engine under hazard watch with a macro-op in flight stands still for one cycle: each of its
sequencers, of which the M engine has two (R171). -/
def execHazardWatchFreeze (pos ring : Nat) (s : State) : Out := s.doing (do
  let x ← get
  let n := x.runningAt pos
  whenA (decide (n < x.nCores) && x.hazardSetting n ring != 0 && !(x.ring n ring).infl.isEmpty) (do
    engEvent n ring 0x07 1
    freeze n ring fun f => f.rcd.op != 0x34
    freeze n ring fun f => f.rcd.op == 0x34))

end Sys2Proof.Machine
end

