-- ==== Sys2Proof/Machine/Rings.lean ====
section
/-! DEFINITION. Commands on engine rings: pushes (R124, R315), run control and reset (R123, R127), pass throws by
register (R131), play synchronisation (R181, R444), and the arbitration point's own steps (R128, R138, R125). -/

namespace Sys2Proof.Machine

/-! ## Pushes -/

/-- Note, or clear (0), the ring on which a writer stalls. -/
def setHeld (writer v : Nat) : Act Unit := modify fun s => { s with heldBy := Tab.put (fun _ => 0) s.heldBy writer v }

/-- The code of a ring in `heldBy`. -/
def ringKey (core e : Nat) : Nat := 1 + 4 * core + e

/-- A writer's assembly on a ring. -/
def M.asm (s : M) (core e writer : Nat) : PushAsm := Tab.read (fun _ => PushAsm.init) (s.ring core e).asm writer

/-- Set a writer's assembly on a ring. -/
def setAsm (core e writer : Nat) (a : PushAsm) : Act Unit :=
  updRing core e fun g => { g with asm := Tab.put (fun _ => PushAsm.init) g.asm writer a }

/-- A push word is discarded: PUSH_ORDER; a control core counts it. -/
def pushOrder (writer core e : Nat) : Act Unit := do
  setField (Reg.coreRingState core e) 27 27 1
  let s ← get
  whenA (writer != 0) (posCount (writer - 1) 32 8 0x108 1 (s.logicalAt (writer - 1)))

/-- The four words of a record enter the ring at WR (R123, R124); a ring whose base lies outside the data regions has no
memory to take them. -/
def commitRecord (core e : Nat) (ws : List Nat) : Act Unit := do
  let s ← get
  let x := s.reg (Reg.coreRingWr core e)
  let a := s.recAddr core e x
  whenA (inRegion a 32) do
    let _ ← writeBytes a (leBytes 32 (packCodes 64 ws))
    pure ()
  wr (Reg.coreRingWr core e) (trunc 32 (x + 1))

/-- The writer stalls with word k on a full ring. -/
def stallPush (core e writer k value : Nat) : Act Unit := do
  let s ← get
  setAsm core e writer { s.asm core e writer with stalled := some (k, value) }
  setHeld writer (ringKey core e)

/-- Word +0, +8 or +16 of a record (R124): +0 begins an assembly, and stalls on a full ring; another word must follow the
preceding word of the same writer. -/
def pushWord (writer core e word value : Nat) : Act Unit := do
  let s ← get
  let a := s.asm core e writer
  if word = 0 then
    if s.ringFull core e then stallPush core e writer 0 value
    else setAsm core e writer { words := [value] }
  else if a.words.length = word then setAsm core e writer { words := a.words ++ [value] }
  else pushOrder writer core e

/-- Word +24 (R124): it commits the writer's record, or stalls on a full ring. -/
def pushCommit (writer core e value : Nat) : Act Unit := do
  let s ← get
  let a := s.asm core e writer
  if a.words.length ≠ 3 then pushOrder writer core e
  else if s.ringFull core e then stallPush core e writer 3 value
  else do
    commitRecord core e (a.words ++ [value])
    setAsm core e writer {}

/-- A word that stalled is accepted once the ring is no longer full (R124): a +0 word begins an assembly, a +24 word commits the
one that waits. -/
def pushResume (writer core e : Nat) : Act Unit := do
  let s ← get
  let a := s.asm core e writer
  match a.stalled with
  | none => pure ()
  | some (k, v) => whenA (!s.ringFull core e) do
    setHeld writer 0
    if k = 0 then setAsm core e writer { words := [v] }
    else do
      commitRecord core e (a.words ++ [v])
      setAsm core e writer {}

/-- A host push held on a full ring for the limit is discarded and counted (R315): a +24 word with the host's assembled record. -/
def pushTimeout (core e : Nat) : Act Unit := do
  let s ← get
  whenA ((s.asm core e 0).stalled.isSome && s.ringFull core e) do
    setAsm core e 0 {}
    setHeld 0 0
    inc64 Reg.hstPushDrops

/-- R124: word +0, +8 or +16 of a record. -/
def execRingPushWord (writer core ring word value : Nat) (s : State) : Out :=
  s.doing (coreAction writer core (.ringPushWord writer core ring word value) (pushWord writer core ring word value))

/-- R124: word +24 of a record. -/
def execRingPushCommit (writer core ring value : Nat) (s : State) : Out :=
  s.doing (coreAction writer core (.ringPushCommit writer core ring value) (pushCommit writer core ring value))

/-! ## Run control and reset -/

/-- Are base and size of a ring accepted (R123)? -/
def M.ringShapeOk (s : M) (core e : Nat) : Bool :=
  let b := s.reg (Reg.coreRingBase core e)
  let n := s.reg (Reg.coreRingSize core e)
  b % 32 == 0 && [64, 128, 256, 512, 1024, 2048, 4096].contains n && inHome core b (32 * n)

/-- RUN is written 1 (R123, R139): a ring that an error has halted needs its reset first; a bad base or size halts the ring
with STATUS_BAD_FIELD. -/
def ringRun (core e : Nat) : Act Unit := do
  let s ← get
  if s.ringRun core e || bit (s.reg (Reg.coreRingState core e)) 28 then pure ()
  else if s.ringShapeOk core e then do
    wr (Reg.coreRingCtl core e) 1
    settle core e
  else haltRing core e (s.reg (Reg.coreRingRd core e)) 1

/-- A ring without records: none in flight, marked, decoded, or waited for. -/
def Ring.emptied (g : Ring) : Ring :=
  { g with infl := [], marks := [], credit := false, waited := 0, reserved := false, dec := none, watch := none }

/-- RUN is written 0: the ring halts, by no record's failure. -/
def ringStop (core e : Nat) : Act Unit := wr (Reg.coreRingCtl core e) 0

/-- R123: RUN is set. -/
def execCoreRingCtlRun (core ring : Nat) (s : State) (writer : Nat := 0) : Out :=
  s.doing (coreAction writer core (.coreRingCtlRun core ring writer) (ringRun core ring))

/-- CORE_RING_RESET on a halted ring (R127): RD and RET equal WR, so that no record is in flight or marked, and a slot whose DRAIN
was in flight is empty. DESIGN CHOICE (log 97): an abort that waits for a discarded record leaves its result pending. -/
def ringReset (core e : Nat) : Act Unit := do
  let s ← get
  whenA (!s.ringRun core e) do
    let w := s.reg (Reg.coreRingWr core e)
    wr (Reg.coreRingRd core e) w
    wr (Reg.coreRingRet core e) w
    setField (Reg.coreRingState core e) 15 0 0
    setField (Reg.coreRingState core e) 28 28 0
    updRing core e Ring.emptied
    whenA (e == 1) (forA [0, 1] fun k => updSlot core k fun sl => if sl.state = .draining then {} else sl)

/-- R127: CORE_RING_RESET. -/
def execCoreRingReset (core ring : Nat) (s : State) (writer : Nat := 0) : Out :=
  s.doing (coreAction writer core (.coreRingReset core ring writer) (ringReset core ring))

/-! ## Passes by register -/

/-- A write of CORE_PASS_THROW (R131). -/
def passThrow (core p n : Nat) : Act Unit := do
  let ok ← throwPass core p n
  whenA (!ok) (setField (Reg.coreStatus core) 0 0 1)

/-- R131: CORE_PASS_THROW. -/
def execCorePassThrow (core pass n : Nat) (s : State) (writer : Nat := 0) : Out :=
  s.doing (coreAction writer core (.corePassThrow core pass n writer) (passThrow core pass n))

/-! ## Play synchronisation -/

/-- First address of the play directory of engine e (R180). -/
def playDir (core e : Nat) : Nat := sliceBase core + 0x7DFE000 + 0x800 * e

/-- Do the n bytes at offset o of a home slice meet the k bytes at offset a? -/
def meets (o n a k : Nat) : Bool := decide (o < a + k) && decide (a < o + n)

/-- Is the body of a directory entry placed as it must be (ERROR 1)? -/
def M.bodyPlaced (s : M) (entry : Nat) : Bool :=
  let o := 32 * bits entry 21 0
  let n := 16 * bits entry 60 48
  decide (o + n ≤ sliceSize) && !meets o n 0x7DFE000 0x2000
    && !(bit (s.reg Reg.mgtDoubleCtl) 0 && meets o n 0x7E00000 0x200000)

/-- Control words of a body of n words. -/
def bodyWords (bytes : List Byte) (n : Nat) : List Nat :=
  let x := leNat bytes
  (List.range n).map fun i => trunc 128 (x >>> (128 * i))

/-- Check and read the valid entries (number, entry) of a directory, `total` words so far: the bodies, or the error and its
entry (R444). -/
def loadPlays (core e : Nat) : List (Nat × Nat) → Nat → Act (List (Nat × List Nat) ⊕ (Nat × Nat))
  | [], _ => pure (.inl [])
  | (k, entry) :: rest, total => do
    let s ← get
    let n := bits entry 60 48
    if !s.bodyPlaced entry then pure (.inr (1, k))
    else if total + n > 4096 then pure (.inr (2, k))
    else do
      let (p, bs) ← readBytes (homeAddr core (bits entry 21 0)) (16 * n)
      let ws := bodyWords bs n
      if p then pure (.inr (4, k))
      else if !playShapeOk ws 0 then pure (.inr (3, k))
      else if ws.any (cwReserved e) then pure (.inr (5, k))
      else do
        match ← loadPlays core e rest (total + n) with
        | .inr err => pure (.inr err)
        | .inl l => pure (.inl ((k, ws) :: l))

/-- Synchronise one engine (R181, R444): the result is in CORE_PLAY_STATE; a failure leaves no custom entry and hazard
watch off. -/
def syncEngine (core e : Nat) : Act Unit := do
  let dir := playDir core e
  let bad ← readLines (linesOf dir 0x800)
  let s ← get
  let entry := fun k => s.num (dir + 8 * k) 8
  let fail := fun err k => do
    updRing core e fun g => { g with plays := [] }
    wr (Reg.corePlayState core e) (3 <<< 30 + err <<< 27 + k <<< 8)
  match bad with
  | l :: _ => fail 4 ((32 * l - dir) / 8)
  | [] =>
    if bits (entry 0) 1 0 = 3 then fail 5 0
    else do
      let valid := ((List.range 256).drop 1).filterMap fun k => if bit (entry k) 63 then some (k, entry k) else none
      match ← loadPlays core e valid 0 with
      | .inr (err, k) => fail err k
      | .inl l => do
        updRing core e fun g => { g with plays := l }
        wr (Reg.corePlayState core e) (2 <<< 30 + bits (entry 0) 1 0 <<< 24 + l.length)

/-- A write of CORE_PLAY_SYNC (R181): each engine of the mask whose ring is halted, in the order F, M, V, S. -/
def playSync (core mask : Nat) : Act Unit :=
  forA (List.range 4) fun e => do
    let s ← get
    whenA (bit mask e && !s.ringRun core e) (syncEngine core e)

/-- R181: CORE_PLAY_SYNC. -/
def execCorePlaySync (core mask : Nat) (s : State) (writer : Nat := 0) : Out :=
  s.doing (coreAction writer core (.corePlaySync core mask writer) (playSync core mask))

/-! ## The arbitration point -/

/-- The work of STEP_SET, PHASE_MARK, STATE_SAVE and STATE_LOAD, whose effect is at the arbitration point (R98, R102,
R135). -/
def commonWork (core e op : Nat) : Work :=
  match op with
  | 0x03 => stepSetWork core e
  | 0x04 => phaseMarkWork core
  | 0x05 => stateSaveWork core
  | 0x06 => stateLoadWork core
  | _ => fun f => pure f

/-- R128: the record at RD passes the arbitration point; what takes effect there does. -/
def execCatchGrant (core ring : Nat) (s : State) : Out := s.doing do
  let ok ← issue core ring none
  whenA ok do
    let m ← get
    let l := (m.ring core ring).infl
    match l.findIdx? (fun f => !f.started && decide (3 ≤ f.rcd.op) && decide (f.rcd.op ≤ 6)) with
    | none => pure ()
    | some i =>
      match l[i]? with
      | none => pure ()
      | some f => do
        let f' ← commonWork core ring f.rcd.op { f with started := true }
        putInFlight core ring i f'

/-- R138, R147: the record at RD, its catch satisfied, fails decode, or once it could issue fails its slot (Table 03-10); one that
fails neither is left as it is. -/
def execDecodeFailure (core ring : Nat) (s : State) : Out := s.doing do
  settle core ring
  let m ← get
  whenA (m.takesUp core ring) do
    let d ← decodeOnce core ring
    let m' ← get
    match d with
    | .inl status => decodeFails core ring (m'.reg (Reg.coreRingRd core ring)) status
    | .inr f =>
      if !m'.engineBusy core ring f.rcd && (m'.atSlot core f).isNone then decodeFails core ring f.x 1
      else set m

/-- The oldest macro-op in flight retires; the windows that a matrix macro-op left due are resolved first, and count in its
completion (R68). -/
def retireOp (core ring extra : Nat) : Act Unit := do
  let s ← get
  match (s.ring core ring).infl.head? with
  | none => pure ()
  | some f => do
    whenA (ring == 1 && f.done && opMatrix f.rcd.op) (resolvePending core f.rcd.slotOf)
    retire core ring extra

/-- R125: the oldest macro-op in flight retires. -/
def execMacroOpRetire (core ring extra : Nat) (s : State) : Out := s.doing (retireOp core ring extra)

end Sys2Proof.Machine
end

