-- ==== Sys2Proof/Machine/Memory.lean ====
section
/-! DEFINITION. The stores and the host's windows on them: far-store start-up (R197), scrubbing (R207), refresh (R199),
injection (R213), BAR2, CXL.mem and snoops (R299 to R303, R319). -/

namespace Sys2Proof.Machine

/-! ## Far store: sets, start-up, background work -/

/-- The device address of set-local address l of a set (Table 08-4 read backwards). -/
def M.farAddr (s : M) (set l : Nat) : Nat :=
  0x10000000000 +
    (if bit (s.reg Reg.memCtl) 0 then bits l 11 0 + bits set 1 0 <<< 12 + bits l 36 12 <<< 14 + bits set 2 2 <<< 39
     else bits l 11 0 + set <<< 12 + bits l 36 12 <<< 15)

/-- STATE of a far-store set. -/
def M.setState (s : M) (set : Nat) : Nat := bits (s.reg (Reg.memSetState set)) 31 30

/-- A controller ends its training (R197): a set with a member that has failed stays in STATE 1. -/
def trainingDone (ctrl : Nat) (pass : Bool) : Act Unit := do
  let s ← get
  let set := ctrl / 3
  whenA (decide (s.setState set ≤ 1)) do
    setField (Reg.memSetState set) 31 30 1
    if pass then do
      modify fun s => { s with trained := if s.trained.contains ctrl then s.trained else s.trained ++ [ctrl] }
      let s ← get
      whenA (bits (s.reg (Reg.memSetState set)) 29 27 == 0 && (List.range 3).all fun k => s.trained.contains (3 * set + k))
        (setField (Reg.memSetState set) 31 30 2)
    else setField (Reg.memSetState set) (27 + ctrl % 3) (27 + ctrl % 3) 1

/-- R197: the end of a controller's training. -/
def execFarStoreTrainingDone (ctrl : Nat) (pass : Bool) (s : State) : Out := s.doing (trainingDone ctrl pass)

/-- Write zero and valid check symbols to every line for which a condition on its address holds (R197, R198). -/
def zeroLines (p : Nat → Bool) : Act Unit :=
  modify fun s => { s with mem := s.mem.filter fun (a, _) => !p a, chk := s.chk.filter fun (k, _) => !p (32 * (k / 4)) }

/-- R197: a set has been zeroed. -/
def execFarStoreZeroFillDone (set : Nat) (s : State) : Out := s.doing do
  let m ← get
  whenA (m.setState set == 2) do
    zeroLines fun a => inFar a && m.farSet a == set
    setField (Reg.memSetState set) 31 30 3

/-- The next line of a scrubber: store 0, slice number; store 1, set. -/
def M.scrubTarget (s : M) (store unit at' : Nat) : Nat :=
  if store = 0 then sliceBase unit / 32 + at' else s.farAddr unit (32 * at') / 32

/-- Lines of a scrubber's store. -/
def scrubLines (store : Nat) : Nat := if store = 0 then sliceSize / 32 else 2 ^ 32

/-- Passes that all scrubbers of a store have completed, saturating. -/
def M.scrubPassesAll (s : M) (store : Nat) : Nat :=
  let n := if store = 0 then 128 else 8
  satU 32 ((List.range n).foldl (fun m u => min m (Tab.read (fun _ => 0) s.scrubbed (128 * store + u))) (2 ^ 32))

/-- R207: a scrubber reads its next line; the end of a pass counts when all of its store have ended it. -/
def execScrubLine (store unit : Nat) (s : State) : Out := s.doing do
  let m ← get
  whenA (bit (m.reg Reg.memCtl) 1 && (store == 0 || (decide (unit < 8) && m.setState unit == 3))) do
    let k := 128 * store + unit
    let x := Tab.read (fun _ => 0) m.scrubAt k
    let _ ← readLine (m.scrubTarget store unit x)
    let last := decide (x + 1 ≥ scrubLines store)
    modify fun m => { m with scrubAt := Tab.put (fun _ => 0) m.scrubAt k (if last then 0 else x + 1) }
    whenA last do
      modify fun m => { m with scrubbed := Tab.put (fun _ => 0) m.scrubbed k (Tab.read (fun _ => 0) m.scrubbed k + 1) }
      let m ← get
      wr Reg.memScrubPasses (m.scrubPassesAll 0 + m.scrubPassesAll 1 <<< 32)

/-- R199: per-bank refresh at the rate that mode register 4 requests, which MEM_SET_STATE shows; nothing else of the
module's state changes. -/
def execRefresh (ctrl rate : Nat) (s : State) : Out := s.doing do
  let m ← get
  whenA (m.setState (ctrl / 3) == 3) (setField (Reg.memSetState (ctrl / 3)) 18 16 rate)

/-- R199: calibration and tracking change times only. -/
def execZqCalibration (_ctrl : Nat) (s : State) : Out := s.doing (pure ())

/-! ## Error injection -/

/-- Is a write of MEM_INJECT accepted (R213)? -/
def M.injectOk (s : M) (a : Nat) : Bool := bit (s.reg Reg.memCtl) 2 && a % 32 == 0 && (inNear a || inFar a)

/-- XOR 0x01 into the first n data bytes of the line at a, its check symbols as they are. -/
def flipBytes (a : Nat) : Nat → Act Unit
  | 0 => pure ()
  | n + 1 => do
    flipBytes a n
    modify fun s => s.setByte (a + n) (s.byte (a + n) ^^^ 1#8)

/-- An accepted write of MEM_INJECT has its effect. -/
def inject (addr : Nat) (a : Act Unit) : Act Unit := do
  let s ← get
  whenA (s.injectOk addr) a

/-- R213, KIND 0. -/
def execMemInjectCorrectable (addr : Nat) (s : State) (writer : Nat := 0) : Out :=
  s.doing (regAction writer false (.memInjectCorrectable addr writer) (inject addr (flipBytes addr 1)))

/-- R213, KIND 1. -/
def execMemInjectUncorrectable (addr : Nat) (s : State) (writer : Nat := 0) : Out :=
  s.doing (regAction writer false (.memInjectUncorrectable addr writer) (inject addr (flipBytes addr 3)))

/-- R213, KIND 2. -/
def execMemInjectPoison (addr : Nat) (s : State) (writer : Nat := 0) : Out :=
  s.doing (regAction writer false (.memInjectPoison addr writer) (inject addr (poisonLine (addr / 32))))

/-! ## The host's windows -/

/-- Is the slice that holds a near-store address ready (Table 15-6)? -/
def M.sliceReady (s : M) (a : Nat) : Bool :=
  bit (s.reg Reg.mgtReadyMap) (if a / sliceSize < s.nCores then a / sliceSize else 120)

/-- Are the slices of n bytes at a ready? -/
def M.slicesReady (s : M) (a n : Nat) : Bool := (linesOf a n).all fun l => s.sliceReady (32 * l)

/-- Write bytes that arrived with poison: the lines that they touch are written poisoned (R204); part of a line that is poisoned already
is discarded (R205). -/
def writePoisonedAux : Nat → Nat → List Byte → Act Unit
  | 0, _, _ => pure ()
  | fuel + 1, a, data =>
    if data.isEmpty then pure ()
    else do
      let k := min data.length (32 - a % 32)
      let p ← if k = 32 then pure false else readLine (a / 32)
      whenA (!p) (modify fun s =>
        let old := s.bytes (32 * (a / 32)) 32
        s.putLine (a / 32) (old.take (a % 32) ++ data.take k ++ old.drop (a % 32 + k)) true)
      writePoisonedAux fuel (a + k) (data.drop k)

/-- Write bytes that arrived with poison. -/
def writePoisoned (a : Nat) (data : List Byte) : Act Unit := writePoisonedAux (data.length / 32 + 2) a data

/-- Write inbound bytes, poisoned or not. -/
def writeInbound (a : Nat) (data : List Byte) (poison : Bool) : Act Unit :=
  if poison then writePoisoned a data
  else do
    let _ ← writeBytes a data
    pure ()

/-- R303: a read through BAR2. -/
def execBar2Read (offset len : Nat) (s : State) : Out := s.doing (unlessHeld 0 (.bar2Read offset len) do
  let m ← get
  if !inRegion offset len then pure ()
  else if !m.ideOk then do
    earlyAccess
    emit (.cpl 1 false [])
  else if !m.slicesReady offset len then do
    earlyAccess
    emit (.cpl 4 false [])
  else do
    let (p, bs) ← readBytes offset len
    emit (.cpl 0 p bs))

/-- R303: a write through BAR2. -/
def execBar2Write (offset : Nat) (data : List Byte) (poison : Bool) (s : State) : Out :=
  s.doing (unlessHeld 0 (.bar2Write offset data poison) do
    let m ← get
    if !inRegion offset data.length then pure ()
    else if !m.ideOk || !m.slicesReady offset data.length then earlyAccess
    else writeInbound offset data poison)

/-! ## HDM decoders (R298, R302) -/

/-- Bytes of a decoder's window. -/
def hdmSize : Nat := 2 ^ 39

/-- The decoder of a far-store offset. -/
def Cxl.hdm (c : Cxl) (offset : Nat) : Hdm := if offset < hdmSize then c.hdm0 else c.hdm1

/-- Change decoder d. -/
def updHdm (d : Nat) (f : Hdm → Hdm) : Act Unit := modify fun s =>
  { s with cxl := if d = 0 then { s.cxl with hdm0 := f s.cxl.hdm0 } else { s.cxl with hdm1 := f s.cxl.hdm1 } }

/-- Is a decoder committed? -/
def Hdm.committed (h : Hdm) : Bool := bit h.ctl 10

/-- A write of a decoder's control dword (R302; layout of CXL 2.0, log 98): interleave granularity and ways, lock, commit and type. A
commit succeeds for an interleave of one way; bits 10 and 11 say whether it did. A locked decoder keeps its settings. -/
def Hdm.control (h : Hdm) (v : Nat) : Hdm :=
  if h.committed && bit h.ctl 8 then h
  else
    let ok := bits v 7 4 == 0
    { h with ctl := (v &&& 0x13FF) + (if bit v 9 then (if ok then 1 <<< 10 else 1 <<< 11) else 0) }

/-- A write of one half of a decoder's base or size; a committed decoder keeps them. A base has no bits below 256 MiB. -/
def Hdm.place (h : Hdm) (isSize high : Bool) (v : Nat) : Hdm :=
  let put := fun (x : Nat) => if high then setBits x 63 32 (trunc 32 v) else setBits x 31 28 (bits v 31 28)
  if h.committed then h else if isSize then { h with size := put h.size } else { h with base := put h.base }

/-- Is the HDM window absent: the link is PCIe-only (R298)? -/
def M.noHdm (s : M) : Bool := bits (s.reg Reg.hstStatus) 31 30 == 1

/-- Does a CXL.mem access of a far-store offset reach the module: the window is there, and its decoder is committed and enabled? -/
def M.hdmOpen (s : M) (offset : Nat) : Bool := !s.noHdm && s.cxl.hdmOn && (s.cxl.hdm offset).committed

/-- Memory_Active (R302). -/
def M.memActive (s : M) : Bool := bit (s.reg Reg.hstStatus) 20

/-- R302: a CXL.mem read of one 64-byte cache line. -/
def execCxlMemRead (offset : Nat) (s : State) : Out := s.doing do
  let m ← get
  let a := 0x10000000000 + offset / 64 * 64
  if !m.hdmOpen offset then pure ()
  else if !m.ideOk || !m.memActive then do
    earlyAccess
    let bs ← mapA (List.range 64) fun _ => freeVal 8
    emit (.memData true (bs.map (BitVec.ofNat 8)))
  else do
    let (p, bs) ← readBytes a 64
    emit (.memData p bs)

/-- R302: a CXL.mem write of one 64-byte cache line. -/
def execCxlMemWrite (offset : Nat) (data : List Byte) (poison : Bool) (s : State) : Out := s.doing do
  let m ← get
  let a := 0x10000000000 + offset / 64 * 64
  if !m.hdmOpen offset then pure ()
  else if !m.ideOk || !m.memActive then earlyAccess
  else writeInbound a data poison

/-- R299: every snoop is answered RspIHitI. -/
def execH2dSnoop (address : Nat) (s : State) : Out := s.doing (emit (.rspIHitI address))

/-- R301: a BAR0 access that is not 4 or 8 bytes and naturally aligned: a read completes with Unsupported Request, a write
is discarded; so is every access while IDE is required and absent (R319). -/
def execBar0AccessInvalid (isWrite : Bool) (offset size : Nat) (s : State) : Out :=
  s.doing (unlessHeld 0 (.bar0AccessInvalid isWrite offset size) do
    let m ← get
    whenA (!((size == 4 || size == 8) && offset % size == 0)) do
      whenA (!m.ideOk) earlyAccess
      whenA (!isWrite) (emit (.cpl 1 false [])))

end Sys2Proof.Machine
end

