-- ==== Sys2Proof/Machine/Update.lean ====
section
/-! DEFINITION. Fused optimizer updates and the step verdict (chapter 09): verdict entries, the wait and release of an
UPDATE, the arithmetic of the update units, statistics records, and poison. -/

namespace Sys2Proof.Machine

/-! ## Verdict entries (R231 to R234) -/

/-- STATE of verdict entry n: 0 EMPTY, 1 PENDING, 2 FINITE, 3 NON-FINITE, 4 FAILED. -/
def M.verdictState (s : M) (n : Nat) : Nat := bits (s.reg (Reg.updVerdict n)) 63 61
/-- STEP of verdict entry n. -/
def M.verdictStep (s : M) (n : Nat) : Nat := bits (s.reg (Reg.updVerdict n)) 39 0
/-- FAIL_STATUS of verdict entry n. -/
def M.verdictFail (s : M) (n : Nat) : Nat := bits (s.reg (Reg.updVerdict n)) 55 40

/-- Write verdict entry n, and count what it becomes (R244). -/
def setVerdict (n state fail step : Nat) : Act Unit := do
  wr (Reg.updVerdict n) (state <<< 61 + trunc 16 fail <<< 40 + trunc 40 step)
  whenA (state == 3) (inc64 Reg.updNonfinite)
  whenA (state == 4) (inc64 Reg.updFailed)

/-- VERDICT_GROUP of an UPDATE record. -/
def Rec.verdictGroup (r : Rec) : Nat := bits r.w1 37 22

/-- An UPDATE that waits ends with a status, no element written. -/
def InFlight.endUpdate (f : InFlight) (status : Nat) : InFlight :=
  { f with own := status, done := true, upd := { f.upd with waiting := false } }

/-! ## Arithmetic of the units (R222 to R225) -/

/-- A computation that gathers flags. -/
abbrev FlagM := StateM Flags

/-- Take an operation's code and its flags; NaN-in is set from operands alone. -/
def FlagM.of (p : Nat × Flags) : FlagM Nat := fun fl => (p.1, fl.join p.2.noNan)

/-- The layer entries of an UPDATE in flight. -/
def InFlight.layers (f : InFlight) : List Layer := f.ls.map Layer.parse

/-- 1 − β^t, exact and rounded once. -/
def biasCorr (beta t : Nat) : FlagM Nat :=
  let p : Val := match f32 beta with
    | .fin s m q => if m = 0 then .fin false (if t = 0 then 1 else 0) 0 else .fin s (m ^ t) (q * t)
    | v => v
  FlagM.of (rnd32 ((Val.fin false 1 0).add false p.neg))

/-- The code of 1.0. -/
def one32 : Nat := 0x3F800000

/-- sgn of R224 on an FP32 code. -/
def sgn32 (c : Nat) : Nat :=
  let v := f32 c
  if v.isNan then nan32 else if v.isZero then 0 else if v.sign then 0xBF800000 else 0x3F800000

/-- Values of one element before the step: master, first and second moment codes, and the gradient. -/
structure ElemIn where
  master : Nat
  m : Nat
  v : Nat
  gin : Val

/-- What a step makes of one element: master, moments, the working value's master as a value, u, w and d. -/
structure ElemOut where
  master : Nat
  m : Nat
  v : Nat
  u : Nat
  w : Nat
  d : Nat

/-- The master as a value. -/
def Layer.masterVal (l : Layer) (c : Nat) : Val := decodeElem (if l.master64 then 0 else 1) c

/-- d of AdamW and LAMB, with the moments that it leaves (R224). -/
def adamDir (l : Layer) (t w m v g : Nat) : FlagM (Nat × Nat × Nat) := do
  let bc1 ← biasCorr l.beta1 t
  let bc2 ← biasCorr l.beta2 t
  let c1 ← FlagM.of (sub32 one32 l.beta1)
  let c2 ← FlagM.of (sub32 one32 l.beta2)
  let m1 ← FlagM.of (mul32 l.beta1 m)
  let m2 ← FlagM.of (mul32 c1 g)
  let m' ← FlagM.of (add32 m1 m2)
  let gg ← FlagM.of (mul32 g g)
  let v1 ← FlagM.of (mul32 l.beta2 v)
  let v2 ← FlagM.of (mul32 c2 gg)
  let v' ← FlagM.of (add32 v1 v2)
  let num ← FlagM.of (div32 m' bc1)
  let vh ← FlagM.of (div32 v' bc2)
  let sq ← FlagM.of (sqrt32 vh)
  let den ← FlagM.of (add32 sq l.eps)
  let d ← FlagM.of (div32 num den)
  let dec ← FlagM.of (mul32 l.wd w)
  let d ← FlagM.of (add32 d dec)
  pure (d, m', v')

/-- d of SGD with momentum; a weight decay of −0 acts as zero (R219). -/
def sgdDir (l : Layer) (w m g : Nat) : FlagM (Nat × Nat) := do
  let g ← if zero32 l.wd then pure g
          else do
            let x ← FlagM.of (mul32 l.wd w)
            FlagM.of (add32 g x)
  let mm ← FlagM.of (mul32 l.mu m)
  let m' ← FlagM.of (add32 mm g)
  if l.nesterov then do
    let x ← FlagM.of (mul32 l.mu m')
    let d ← FlagM.of (add32 g x)
    pure (d, m')
  else pure (m', m')

/-- d of Lion. -/
def lionDir (l : Layer) (w m g : Nat) : FlagM (Nat × Nat) := do
  let c1 ← FlagM.of (sub32 one32 l.beta1)
  let c2 ← FlagM.of (sub32 one32 l.beta2)
  let a ← FlagM.of (mul32 l.beta1 m)
  let b ← FlagM.of (mul32 c1 g)
  let c ← FlagM.of (add32 a b)
  let dec ← FlagM.of (mul32 l.wd w)
  let d ← FlagM.of (add32 (sgn32 c) dec)
  let a' ← FlagM.of (mul32 l.beta2 m)
  let b' ← FlagM.of (mul32 c2 g)
  let m' ← FlagM.of (add32 a' b')
  pure (d, m')

/-- The prologue's g and w (R223): one rounding of gin × gscale / ls. -/
def prologue (l : Layer) (ls : Nat) (x : ElemIn) : FlagM (Nat × Nat) := do
  let g ← FlagM.of (rnd32 ((x.gin.mul (f32 l.gscale)).scale (127 - (ls / 2 ^ 23 : Nat))))
  let w ← FlagM.of (rnd32 (l.masterVal x.master))
  pure (g, w)

/-- The direction of an element, its moments afterwards, and w: d before LAMB's trust ratio. -/
def direction (l : Layer) (ls t : Nat) (x : ElemIn) : FlagM (Nat × Nat × Nat × Nat) := do
  let (g, w) ← prologue l ls x
  match l.alg with
  | 0 => do
    let (d, m) ← sgdDir l w x.m g
    pure (d, m, x.v, w)
  | 3 => do
    let (d, m) ← lionDir l w x.m g
    pure (d, m, x.v, w)
  | _ => do
    let (d, m, v) ← adamDir l t w x.m x.v g
    pure (d, m, v, w)

/-- One element's step: R224 with LAMB's trust ratio `tr`, and R225. -/
def elemStep (l : Layer) (ls t tr : Nat) (x : ElemIn) : FlagM ElemOut := do
  let (d0, m, v, w) ← direction l ls t x
  let d ← if l.alg = 2 then FlagM.of (mul32 tr d0) else pure d0
  let lrs := (rnd32 ((f32 l.lr).scale l.escale)).1
  let u ← FlagM.of (mul32 lrs d)
  let diff := (l.masterVal x.master).add false ((f32 u).scale (-l.escale)).neg
  let master ← FlagM.of (if l.master64 then rnd64 diff else rnd32 diff)
  pure { master := master, m := m, v := v, u := u, w := w, d := d0 }

/-! ## Statistics records (R227, R228) -/

/-- Address of U2 (0), W2 (1) and R2 (2) of a record. -/
def statField (stats k : Nat) : Nat := stats + 96 * k

/-- Add an exact partial sum into a field of a statistics record; a poisoned line discards it. Answers that. -/
def statAdd (a : Nat) (x : ExAcc) : Act Bool := do
  let (p, bs) ← readBytes a 96
  if p then pure true
  else writeBytes a (leBytes 96 ((ExAcc.merge (ExAcc.decode false (leNat bs)) x).encode false))

/-- The exact sum that a field of a record holds. -/
def M.stat (s : M) (stats k : Nat) : ExAcc := ExAcc.decode false (s.num (statField stats k) 96)

/-- The tail line of a record: STEP, FLAGS, MAXEXP_U, RATIO, TRUST, ELEMENTS. -/
structure StatTail where
  step : Nat
  flags : Nat
  maxexp : Int
  ratio : Nat
  trust : Nat
  elements : Nat

/-- Read the tail of a record. -/
def StatTail.parse (x : Nat) : StatTail :=
  ⟨bits x 39 0, bits x 47 40, toSigned 16 (bits x 63 48), bits x 95 64, bits x 127 96, bits x 191 128⟩

/-- The tail's bytes. -/
def StatTail.bytes (t : StatTail) : List Byte :=
  leBytes 32 (trunc 40 t.step + trunc 8 t.flags <<< 40 + ofSigned 16 t.maxexp <<< 48 + t.ratio <<< 64 + t.trust <<< 96
    + trunc 64 t.elements <<< 128)

/-- Change the tail of a record; a poisoned line discards it. Answers that. -/
def statTail (stats : Nat) (f : StatTail → StatTail) : Act Bool := do
  let (p, bs) ← readBytes (stats + 288) 32
  if p then pure true
  else writeBytes (stats + 288) (f (StatTail.parse (leNat bs))).bytes

/-- An empty exact record's bytes. -/
def emptyExact : List Byte := List.replicate 96 0#8

/-- Does an accumulator carry a special value? -/
def ExAcc.special (a : ExAcc) : Bool := a.side.nan || a.side.invalid || a.side.pinf || a.side.ninf

/-- √(a / b) × 2^e as a value, for positive sums. -/
def sqrtRatio (a b e : Int) : Val :=
  if a < 0 ∨ b < 0 then .nan
  else
    let (m, q) := sqrtDyadic a.toNat b.toNat
    (Val.fin false m q).scale e

/-- RATIO (R228), and its flags. -/
def updateRatio (u2 w2 : ExAcc) (e : Int) : Nat × Flags :=
  if u2.special || w2.special then (nan32, {})
  else if w2.sum = 0 then (if u2.sum = 0 then 0 else 0x7F800000, {})
  else if u2.sum = 0 then (0, {})
  else rnd32 (sqrtRatio u2.sum w2.sum (-e))

/-- The trust ratio (R228), and its flags. -/
def trustRatio (w2 r2 : ExAcc) (trustMax : Nat) : Nat × Flags :=
  let (tr, fl) := if w2.special || r2.special then (nan32, {})
    else if w2.sum = 0 ∨ r2.sum = 0 then (one32, {})
    else rnd32 (sqrtRatio w2.sum r2.sum 0)
  if zero32 trustMax then (tr, fl) else let (x, fx) := min32 tr trustMax; (x, fl.join fx)

/-- The records that a list of entries names, each once, with an entry of it. -/
def statRecords (ls : List Layer) : List Layer :=
  (ls.filter (·.statsEn)).foldl (fun acc l => if acc.any fun k => k.stats == l.stats then acc else acc ++ [l]) []

/-- After a finite verdict the S engine clears what the phase accumulates (R228, R229). Answers whether a write was
discarded. -/
def clearStats (phase : Nat) (l : Layer) : Act Bool := do
  let fields := if phase = 1 then [1, 2] else if phase = 2 then [0] else [0, 1, 2]
  let ds ← mapA fields fun k => writeBytes (statField l.stats k) emptyExact
  let d ← statTail l.stats fun old =>
    if phase = 1 then { old with flags := 0 }
    else { old with flags := if phase = 2 then old.flags / 2 % 2 * 2 else 0, maxexp := -32768, elements := 0 }
  pure (ds.any id || d)

/-! ## The cursor over an UPDATE's work -/

/-- Elements of the run or block that begins at element i: a block, or 256 elements of a flat entry (R328). -/
def Layer.runAt (l : Layer) (i : Nat) : Nat := min (l.elems - i) (if l.blocked then max 1 l.blockE else 256)

/-- Does pass p (0: LAMB norms, 1: the step) treat the entry? -/
def Layer.inPass (l : Layer) (p : Nat) : Bool := if p = 0 then l.alg == 2 else true

/-- Passes of a phase (Table 09-5). -/
def phasePasses (phase : Nat) : List Nat := if phase = 1 then [0] else if phase = 2 then [1] else [0, 1]

/-- First entry from number k on that the pass treats and that has element i left; later entries start at 0. -/
def nextLayer (p : Nat) : List Layer → Nat → Nat → Option (Nat × Nat)
  | [], _, _ => none
  | l :: ls, k, i => if l.inPass p && decide (i < l.elems) then some (k, i) else nextLayer p ls (k + 1) 0

/-- The next run of an UPDATE: pass, entry number, first element. -/
def InFlight.nextRun (f : InFlight) : Option (Nat × Nat × Nat) :=
  let ls := f.layers
  let here := nextLayer f.upd.pass (ls.drop f.upd.layer) f.upd.layer f.upd.elem
  match here with
  | some (k, i) => if (phasePasses (updPhase f.od)).contains f.upd.pass then some (f.upd.pass, k, i) else
      (nextLayer 1 ls 0 0).map fun (k, i) => (1, k, i)
  | none =>
    if f.upd.pass = 0 && (phasePasses (updPhase f.od)).contains 1 then (nextLayer 1 ls 0 0).map fun (k, i) => (1, k, i)
    else none

/-! ## UPDATE, its verdict and its release -/

/-- Put an UPDATE on its way: what it latches it has latched at issue (R223). An entry that already holds a later step ends it
(R233). -/
def updateWork : Work := fun f => do
  let s ← get
  let f := { f with upd := { f.upd with waiting := true } }
  match s.verdictEntry f.rcd.verdictGroup with
  | some n => pure (if s.verdictState n ≠ 0 ∧ s.verdictStep n > f.step then f.endUpdate 9 else f)
  | none => pure (f.endUpdate 9)

/-- R232: UPDATE waits for the verdict of its group's entry. -/
def execUpdate (core : Nat) (s : State) : Out := s.doing (runOp core 3 0x89 (withPlay core 3 updateWork))

/-- May an UPDATE that waits go on, and how: its entry holds its step and is final, or holds a later step (R233). -/
def M.verdictFor (s : M) (f : InFlight) : Option Nat :=
  match s.verdictEntry f.rcd.verdictGroup with
  | none => none
  | some n =>
    if s.verdictState n ≠ 0 ∧ s.verdictStep n > f.step then some 5
    else if s.verdictStep n = f.step ∧ s.verdictState n ≥ 2 then some (s.verdictState n)
    else none

/-- A finite verdict releases the layers: the statistics records are cleared. -/
def releaseUpdate (f : InFlight) : Act InFlight := do
  let ds ← mapA (statRecords f.layers) (clearStats (updPhase f.od))
  pure { f with poison := f.poison || ds.any id
                upd := { f.upd with waiting := false, released := true, verdict := 1, pass := (phasePasses (updPhase f.od)).headD 1 } }

/-- The first entry of the S ring for which a condition holds, with its place. -/
def M.sEntry (s : M) (core : Nat) (p : InFlight → Bool) : Option (Nat × InFlight) :=
  let l := (s.ring core 3).infl
  match l.findIdx? p with
  | none => none
  | some i => (l[i]?).map fun f => (i, f)

/-- R232: the oldest waiting UPDATE whose verdict stands is released, or ends. -/
def execVerdictRelease (core : Nat) (s : State) : Out := s.doing do
  let m ← get
  match m.sEntry core (fun f => f.upd.waiting && !f.done && (m.verdictFor f).isSome) with
  | none => pure ()
  | some (i, f) => do
    let f' ← match m.verdictFor f with
      | some 2 => releaseUpdate f
      | some 3 => pure { f.endUpdate 0xC with flags := 0, upd := { f.upd with waiting := false, verdict := 2 } }
      | some 4 => pure (f.endUpdate (((m.verdictEntry f.rcd.verdictGroup).map m.verdictFail).getD 9))
      | _ => pure (f.endUpdate 9)
    putInFlight core 3 i f'

/-- R234: no verdict has come within the VERDICT_TIMEOUT_MS that the UPDATE latched (R318). -/
def execVerdictTimeout (core waitedMs : Nat) (s : State) : Out := s.doing do
  let m ← get
  match m.sEntry core (fun f => f.upd.waiting && !f.done && (m.verdictFor f).isNone && decide (f.limit ≤ waitedMs)) with
  | none => pure ()
  | some (i, f) => putInFlight core 3 i (f.endUpdate 0xA)

/-! ## The update units -/

/-- The credit island of the unit that updates element i of an entry (R218): the position of its slice, or the controller
of its block's member. -/
def M.unitIsland (s : M) (l : Layer) (i : Nat) : Nat :=
  let a := l.addr 0 i
  if inNear a then bits (s.reg (Reg.mgtSliceMap (a / sliceSize))) 6 0
  else
    let o := a - 0x10000000000
    let loc := if bit (s.reg Reg.memCtl) 0 then bits o 38 14 else bits o 39 15
    128 + 3 * s.farSet a + loc % 3

/-- Energy of n units of class 13 at a credit island (R324, R328); a controller runs at a fixed point. -/
def M.unitEnergy (s : M) (island n : Nat) : Nat :=
  if island < 128 then s.energy island 3 13 n else n * s.classPj 3 13

/-- Bytes that a unit reads and writes for n elements in a pass. -/
def Layer.passBytes (l : Layer) (p n : Nat) : Nat :=
  let z := l.sizes
  let rd := z.getD 0 0 + z.getD 1 0 + z.getD 2 0 + z.getD 3 0
  let wt := z.getD 0 0 + z.getD 1 0 + z.getD 2 0 + z.getD 4 0
  n * (if p = 0 then rd else rd + wt)

/-- Lines of element i of used array a. -/
def Layer.elemLines (l : Layer) (a i : Nat) : List Nat := linesOf (l.addr a i) (l.sizes.getD a 0)

/-- The stored values of element i. -/
def M.elemIn (s : M) (l : Layer) (i : Nat) : ElemIn :=
  let z := l.sizes
  let num := fun a => s.num (l.addr a i) (z.getD a 0)
  { master := num 0, m := num 1, v := num 2
    gin := if l.gexact then (ExAcc.decode false (num 3)).val 298 .rne else decodeElem l.gfmt (num 3) }

/-- Is an input of the element a NaN? -/
def Layer.nanInput (l : Layer) (x : ElemIn) : Bool :=
  (l.masterVal x.master).isNan || (f32 x.m).isNan || (l.alg != 0 && l.alg != 3 && (f32 x.v).isNan) || x.gin.isNan

/-- Run a unit's arithmetic: the result, and the flags with NaN-in from the inputs. -/
def Layer.calc {α : Type} (l : Layer) (x : ElemIn) (k : FlagM α) : α × Flags :=
  let (a, fl) := k {}
  (a, if l.nanInput x then { fl with nanIn := true } else fl)

/-- floor(log2 |u|) of a finite non-zero value. -/
def uExp (u : Nat) : Option Int :=
  match f32 u with
  | .fin _ m q => if m = 0 then none else some ((Nat.log2 m : Int) + q)
  | _ => none

/-- Is the code an infinity or a NaN? -/
def nonfinite32 (c : Nat) : Bool := bits c 30 23 == 255

/-- Pass 1 of LAMB over n elements: d × d into R2, w × w into W2 (R229). -/
def normsRun (f : InFlight) (l : Layer) (is : List Nat) : Act (Flags × Bool) := do
  let s ← get
  let outs := is.map fun i =>
    let x := s.elemIn l i
    l.calc x (direction l f.upd.ls f.upd.t x)
  let sq := fun c => (f32 c).mul (f32 c)
  let d1 ← statAdd (statField l.stats 2) (ExAcc.ofTerms 298 (outs.map fun o => sq o.1.1))
  let d2 ← statAdd (statField l.stats 1) (ExAcc.ofTerms 298 (outs.map fun o => sq o.1.2.2.2))
  pure (Flags.joinAll (outs.map Prod.snd), d1 || d2)

/-- Write one array's codes of a run of n elements from i0, affected elements' lines poisoned. -/
def writeArray (l : Layer) (a i0 n : Nat) (code : Nat → Nat) (bad : List Nat) : Act Bool :=
  let z := l.sizes.getD a 0
  if z = 0 then pure false
  else writeRun (8 * l.addr a i0) (8 * z * n) (packCodes (8 * z) ((List.range n).map fun k => code (i0 + k)))
    (bad.flatMap (l.elemLines a)).eraseDups

/-- The step of a run of n elements from i0; `bad` are the affected ones (R225, R238). -/
def stepRun (core : Nat) (f : InFlight) (l : Layer) (i0 n tr : Nat) (bad : List Nat) : Act (Flags × Bool) := do
  let s ← get
  let ok := (List.range' i0 n).filter fun i => !bad.contains i
  let mode := (RMode.ofCode l.wrmode).getD .rne
  let res := ok.map fun i =>
    let x := s.elemIn l i
    let (o, fl) := l.calc x (elemStep l f.upd.ls f.upd.t tr x)
    let r := if mode = RMode.sr then rngWord (s.seed core) f.step l.stream (l.tidx0 + i) else 0
    let (c, fw) := if l.workEn then castVal l.wfmt (l.masterVal o.master) mode r else (0, Flags.none)
    (i, o, c, fl.join fw)
  let get' := fun (g : ElemOut × Nat → Nat) (a i : Nat) =>
    match res.find? fun r => r.1 == i with
    | some (_, o, c, _) => g (o, c)
    | none => s.num (l.addr a i) (l.sizes.getD a 0)
  let w0 ← writeArray l 0 i0 n (get' (fun p => p.1.master) 0) bad
  let w1 ← writeArray l 1 i0 n (get' (fun p => p.1.m) 1) bad
  let w2 ← writeArray l 2 i0 n (get' (fun p => p.1.v) 2) bad
  let w4 ← writeArray l 4 i0 n (get' (fun p => p.2) 4) bad
  let sq := fun c => (f32 c).mul (f32 c)
  let d ← if !l.statsEn then pure false
    else do
      let d1 ← statAdd (statField l.stats 0) (ExAcc.ofTerms 298 (res.map fun r => sq r.2.1.u))
      let d2 ← if l.alg = 2 then pure false
               else statAdd (statField l.stats 1) (ExAcc.ofTerms 298 (res.map fun r => sq r.2.1.w))
      let wild ← if res.any fun r => nonfinite32 r.2.1.u then do
          let x ← freeVal 16
          pure (some (toSigned 16 x))
        else pure none
      let top := (res.filterMap fun r => uExp r.2.1.u).foldl max (-32768)
      let d3 ← statTail l.stats fun t =>
        { t with maxexp := wild.getD (max t.maxexp top), elements := t.elements + ok.length
                 flags := if bad.isEmpty then t.flags else setBits t.flags 0 0 1 }
      pure (d1 || d2 || d3)
  pure (Flags.joinAll (res.map fun r => r.2.2.2), w0 || w1 || w2 || w4 || d)

/-- R328: the unit of the next run of the released UPDATE, if its island holds the credits, updates it in place. -/
def execUpdateUnitBlock (core : Nat) (s : State) : Out := s.doing do
  let m ← get
  match m.sEntry core (fun f => f.upd.released && !f.done && f.nextRun.isSome) with
  | none => pure ()
  | some (i, f) =>
    match f.nextRun with
    | none => pure ()
    | some (p, k, i0) => do
      let l := f.layers.getD k (Layer.parse 0)
      let n := l.runAt i0
      let isl := m.unitIsland l i0
      let en := m.unitEnergy isl (ceilDiv (l.passBytes p n) 768)
      if m.balance isl < (min en creditCap : Nat) then pure ()
      else do
        addBalance isl (-(en : Int))
        chargeUnits isl 13 (ceilDiv (l.passBytes p n) 768)
        let inputs := (List.range' i0 n).flatMap fun i => (List.range 4).flatMap fun a => l.elemLines a i
        let trLines := if p = 1 ∧ l.alg = 2 then linesOf (statField l.stats 1) 192 else []
        let badL ← readLines (inputs ++ trLines).eraseDups
        let lost := trLines.any badL.contains
        let bad := (List.range' i0 n).filter fun i => lost || (List.range 4).any fun a => (l.elemLines a i).any badL.contains
        let m ← get
        let (tr, ftr) := if p = 1 ∧ l.alg = 2 then trustRatio (m.stat l.stats 1) (m.stat l.stats 2) l.trustMax else (one32, {})
        let (fl, d) ← if p = 0 then normsRun f l ((List.range' i0 n).filter fun i => !bad.contains i)
                      else stepRun core f l i0 n tr bad
        let dp ← if p = 0 ∧ !bad.isEmpty then statTail l.stats fun t => { t with flags := setBits t.flags 0 0 1 }
                 else pure false
        let counts := p = 1 ∨ updPhase f.od = 1
        let na := if counts then bad.length else 0
        addReg 64 Reg.updPoisonElems na
        let f := f.finish (fl.join ftr) (!bad.isEmpty || d || dp)
        let u := { f.upd with pass := p, layer := k, elem := i0 + n, affected := f.upd.affected + na }
        putInFlight core 3 i { f with done := false, result := satU 32 u.affected, upd := u }

/-- The S engine writes STEP, RATIO and TRUST of a record, or NORMS after PHASE 1: flags, and whether there was poison. It reads the
sums that it needs (R201); from a poisoned one the tail line that depends on it is written poisoned (Table 08-6). -/
def closeStats (f : InFlight) (l : Layer) : Act (Flags × Bool) := do
  if updPhase f.od = 1 then do
    let d ← statTail l.stats fun t => { t with step := f.step, flags := setBits t.flags 1 1 1 }
    pure ({}, d)
  else do
    let bad ← readLines (linesOf l.stats 288)
    let s ← get
    let (tr, ft) := if l.alg = 2 then trustRatio (s.stat l.stats 1) (s.stat l.stats 2) l.trustMax else (0, {})
    let (ratio, fr) := updateRatio (s.stat l.stats 0) (s.stat l.stats 1) l.escale
    let d ← statTail l.stats fun t => { t with step := f.step, ratio := ratio, trust := tr }
    whenA (!bad.isEmpty && !d) (poisonLine ((l.stats + 288) / 32))
    pure (ft.join fr, d || !bad.isEmpty)

/-- R228: every unit has finished; the UPDATE is ready to retire. -/
def execUpdateUnitsDone (core : Nat) (s : State) : Out := s.doing do
  let m ← get
  match m.sEntry core (fun f => f.upd.released && !f.done && f.nextRun.isNone) with
  | none => pure ()
  | some (i, f) => do
    let ds ← mapA (statRecords f.layers) (closeStats f)
    putInFlight core 3 i (f.finish (Flags.joinAll (ds.map Prod.fst)) (ds.any Prod.snd))

/-! ## Binding a verdict entry -/

/-- End every UPDATE that waits on a verdict entry, with a status. -/
def endWaiters (n status : Nat) : Act Unit := do
  let s ← get
  forA (List.range s.nCores) fun core =>
    updRing core 3 fun g =>
      { g with infl := g.infl.map fun f =>
          if f.upd.waiting && !f.done && s.verdictEntry f.rcd.verdictGroup == some n then f.endUpdate status else f }

/-- A write of UPD_VGROUP_n (R231, R234, R318). -/
def vgroupWrite (n value : Nat) : Act Unit := do
  let s ← get
  let taken := bit value 31 && (List.range 64).any fun k => k != n && s.reg (Reg.updVgroup k) == 0x80000000 + bits value 15 0
  if taken then inc64 Reg.hstIlRejects
  else if !s.boot.adj.contains (Reg.updVgroup n) then inc64 Reg.hstIlRejects
  else do
    endWaiters n 9
    let _ ← ilWrite (Reg.updVgroup n) 0x8000FFFF value
    setVerdict n 0 0 0

/-- R234: UPD_VGROUP_n. -/
def execUpdVgroupWrite (entry value : Nat) (s : State) (writer : Nat := 0) : Out :=
  s.doing (regAction writer false (.updVgroupWrite entry value writer) (vgroupWrite entry value))

/-- What an abort leaves of an UPDATE that was released: its arrays and statistics records are undefined (R239). -/
def scrambleUpdate (f : InFlight) : Act Unit := do
  forA f.layers fun l =>
    forA [0, 1, 2, 4] fun a =>
      let z := l.sizes.getD a 0
      if z = 0 then pure ()
      else if l.blocked then
        forA (List.range (ceilDiv l.elems (max 1 l.blockE))) fun b =>
          let i := b * max 1 l.blockE
          scramble (l.addr a i) (z * l.runAt i)
      else scramble (l.addr a 0) (z * l.elems)
  forA (statRecords f.layers) fun l => scramble l.stats 320

end Sys2Proof.Machine
end

