-- ==== Sys2Proof/Machine/Relay.lean ====
section
/-! DEFINITION. Collectives on the Relay engines (chapter 11): groups and trees, chunks, wire formats, agreement, credits,
the processing of chunks, failures, the verdict's carriage, communication queues; and SNAPSHOT (R168). -/

namespace Sys2Proof.Machine

/-! ## Engines and collectives -/

/-- Relay engine e. -/
def M.eng (s : M) (e : Nat) : RelayEng :=
  match e with
  | 0 => s.rly.eng0
  | 1 => s.rly.eng1
  | 2 => s.rly.eng2
  | _ => s.rly.eng3

/-- Change Relay engine e. -/
def updEng (e : Nat) (f : RelayEng → RelayEng) : Act Unit :=
  modify fun s =>
    { s with rly := match e with
        | 0 => { s.rly with eng0 := f s.rly.eng0 }
        | 1 => { s.rly with eng1 := f s.rly.eng1 }
        | 2 => { s.rly with eng2 := f s.rly.eng2 }
        | _ => { s.rly with eng3 := f s.rly.eng3 } }

/-- The engine of a collective (R281). -/
def engOf (group seq : Nat) : Nat := (group + seq) % 4

/-- The active collective of a group and SEQ at an engine. -/
def M.coll (s : M) (e group seq : Nat) : Option Coll :=
  (s.eng e).colls.find? fun c => c.started && c.group == group && c.seq == seq

/-- LAST of a group at an engine: the highest SEQ that it has started (R281). -/
def M.last (s : M) (e group : Nat) : Option Nat := ((s.eng e).last.find? (·.1 = group)).map Prod.snd

/-- Is a SEQ behind at an engine (R281)? -/
def M.behind (s : M) (e group seq : Nat) : Bool :=
  match s.last e group with
  | none => false
  | some l => let d := trunc 32 (l + 2 ^ 32 - seq); d != 0 && decide (d < 2 ^ 30)

/-- Change the collective of a group and SEQ. -/
def updColl (e group seq : Nat) (f : Coll → Coll) : Act Unit :=
  updEng e fun g => { g with colls := g.colls.map fun c => if c.started && c.group == group && c.seq == seq then f c else c }

/-- Its descriptor. -/
def Coll.cd (c : Coll) : CD := CD.parse c.od
/-- Its group record. -/
def Coll.gr (c : Coll) : GroupRec := GroupRec.parse c.grp
/-- Its source view. -/
def Coll.srcTd (c : Coll) : TD := TD.parse c.src
/-- Its destination view. -/
def Coll.dstTd (c : Coll) : TD := TD.parse c.dst

/-! ## Trees (R276) -/

/-- Position of rank k in the tree of root r. -/
def treePos (p r k : Nat) : Nat := (k + p - r % p) % p
/-- Rank at position i. -/
def treeRank (p r i : Nat) : Nat := (i + r) % p

/-- The parent's rank. -/
def treeParent (p f r k : Nat) : Option Nat :=
  let i := treePos p r k
  if i = 0 then none else some (treeRank p r ((i - 1) / f))

/-- The children's ranks, in position order. -/
def treeKids (p f r k : Nat) : List Nat :=
  let i := treePos p r k
  ((List.range' (f * i + 1) f).filter (decide <| · < p)).map (treeRank p r)

/-- Does rank k lie in the subtree of rank `top`; n steps up at most? -/
def treeUnder (p f r top : Nat) : Nat → Nat → Bool
  | 0, k => k == top
  | n + 1, k => k == top || (match treeParent p f r k with
    | none => false
    | some q => treeUnder p f r top n q)

/-- Root of the tree of shard j. -/
def Coll.rootOf (c : Coll) (j : Nat) : Nat := (c.cd.root + j) % max 1 c.gr.p
/-- The parent of rank k in the tree of shard j. -/
def Coll.parent (c : Coll) (j k : Nat) : Option Nat := treeParent (max 1 c.gr.p) c.gr.fanin (c.rootOf j) k
/-- The children of rank k in the tree of shard j. -/
def Coll.kids (c : Coll) (j k : Nat) : List Nat := treeKids (max 1 c.gr.p) c.gr.fanin (c.rootOf j) k
/-- This member's rank. -/
def Coll.me (c : Coll) : Nat := c.gr.rank
/-- Rank of a node, if it is a member. -/
def Coll.rankOf (c : Coll) (node : Nat) : Option Nat := c.members.findIdx? (· = node)
/-- Node of a rank. -/
def Coll.nodeOf (c : Coll) (rank : Nat) : Nat := c.members.getD rank 0

/-! ## Chunks (R284) -/

/-- Is it a reduction? -/
def CD.reduces (c : CD) : Bool := decide (1 ≤ c.op) && decide (c.op ≤ 3)

/-- Does this member read a DST (R280)? -/
def Coll.hasDst (c : Coll) : Bool := c.cd.count != 0 && c.cd.readsDst c.gr

/-- Do all members read their DST (R280): not where some member is the root of no shard? -/
def Coll.allDst (c : Coll) : Bool := !(c.cd.op == 1 || c.cd.op == 3) || decide (c.gr.p ≤ c.cd.shards)

/-- Is the element class L (R280)? DST counts where every member reads it, so that the class, like E_c (R284), follows from what enters
the digest (DEDUCED, log 71). -/
def Coll.isL (c : Coll) : Bool := c.srcTd.classL || (c.hasDst && c.allDst && c.dstTd.classL)

/-- E_c of R284. -/
def Coll.chunkElems (c : Coll) : Nat :=
  let bytes := 1024 * c.cd.chunkKib
  if c.cd.reduces then bytes / (if c.isL then 1024 else 128)
  else max 32 (8 * bytes / max 1 c.srcTd.ebits / 32 * 32)

/-- A chunk: global index, shard (of OP 4: 0), contributor (of OP 4), first element, elements. -/
structure Chunk where
  g : Nat
  shard : Nat
  origin : Nat
  first : Nat
  n : Nat
  deriving DecidableEq, Repr

/-- The chunks of a collective in rising g (R284, R286). Under OP 4 the blocks follow one another, one for each
contributor. -/
def Coll.chunks (c : Coll) : List Chunk :=
  let d := c.cd
  let e := c.chunkElems
  if d.op = 4 then
    let k := ceilDiv d.count e
    (List.range c.gr.p).flatMap fun o => (List.range k).map fun i => ⟨o * k + i, 0, o, i * e, min e (d.count - i * e)⟩
  else
    let h := ceilDiv d.count d.shards
    (List.range (ceilDiv h e)).flatMap fun i => (List.range d.shards).filterMap fun j =>
      let first := j * h + i * e
      let last := min ((j + 1) * h) d.count
      if first < last then some ⟨i * d.shards + j, j, 0, first, min e (last - first)⟩ else none

/-- The chunk with a global index. -/
def Coll.chunk (c : Coll) (g : Nat) : Option Chunk := c.chunks.find? (·.g = g)

/-- The global indices of the chunks that `child` and its parent `parent` exchange on a leg, in order (R285). -/
def Coll.exchanged (c : Coll) (leg parent child : Nat) : List Nat :=
  let d := c.cd
  (c.chunks.filter fun k =>
    c.parent k.shard child == some parent &&
    (if leg = 0 then d.reduces || (d.op == 4 && treeUnder (max 1 c.gr.p) c.gr.fanin (c.rootOf 0) child c.gr.p k.origin)
     else d.op == 0 || d.op == 2 || d.op == 4)).map (·.g)

/-- The chunks that this member sends to a rank on a leg. -/
def Coll.toRank (c : Coll) (leg rank : Nat) : List Nat :=
  if leg = 0 then c.exchanged 0 rank c.me else c.exchanged 1 c.me rank

/-- The chunks that this member receives from a rank on a leg. -/
def Coll.fromRank (c : Coll) (leg rank : Nat) : List Nat :=
  if leg = 0 then c.exchanged 0 c.me rank else c.exchanged 1 rank c.me

/-- A number kept for a rank and leg. -/
def assoc (l : List (Nat × Nat × Nat)) (rank leg : Nat) : Option Nat :=
  (l.find? fun (r, g, _) => r == rank && g == leg).map fun (_, _, v) => v

/-- Set a number kept for a rank and leg. -/
def assocSet (l : List (Nat × Nat × Nat)) (rank leg v : Nat) : List (Nat × Nat × Nat) :=
  (l.filter fun (r, g, _) => !(r == rank && g == leg)) ++ [(rank, leg, v)]

/-- Does the member hold credit for chunk g to a rank on a leg? After GO the first INFLIGHT chunks are granted. -/
def Coll.creditFor (c : Coll) (rank leg g : Nat) : Bool :=
  match assoc c.held rank leg with
  | some top => decide (g ≤ top)
  | none => ((c.toRank leg rank).take c.cd.inflightN).contains g

/-- Is chunk g the next that the member sends to a rank on a leg? -/
def Coll.nextFor (c : Coll) (rank leg g : Nat) : Bool :=
  (c.toRank leg rank)[(assoc c.sent rank leg).getD 0]? == some g

/-! ## The digest (R288) -/

/-- log2 of a power of two. -/
def log2n (n : Nat) : Nat := Nat.log2 n

/-- The 32-byte block of Table 11-8. DST counts where every member reads it (DEDUCED, log 71). -/
def Coll.digestBlock (c : Coll) : List Byte :=
  let d := c.cd
  let g := c.gr
  let fmt := fun t : TD => t.fmt + 32 * b2n t.exact
  leBytes 32 (trunc 16 c.group + trunc 32 c.seq <<< 16
    + (d.op + 8 * d.wire + 32 * b2n d.verdict + 64 * b2n d.close) <<< 48
    + fmt c.srcTd <<< 56 + (if c.allDst then fmt c.dstTd else 0) <<< 64
    + d.rmode <<< 72 + trunc 16 d.root <<< 80 + trunc 40 d.count <<< 96 + log2n d.chunkKib <<< 136
    + d.inflightN <<< 144 + g.fanin <<< 152 + trunc 16 d.shards <<< 160 + trunc 16 g.p <<< 176
    + trunc 40 c.step <<< 192 + trunc 24 d.stream <<< 232)

/-- The digest. -/
def Coll.digestNow (c : Coll) : Nat := leNat ((sha256 c.digestBlock).take 8)

/-! ## Wire formats (R287) -/

/-- Offset of the class of a collective. -/
def collOff (isL : Bool) : Nat := if isL then 2148 else 298
/-- 32-bit bands of the class. -/
def collBands (isL : Bool) : Nat := if isL then 136 else 20

/-- A special contribution adds nothing to the value. -/
def ExAcc.wire (a : ExAcc) : ExAcc := if a.special then { a with sum := 0 } else a

/-- Lowest 32-bit band that is not zero, n bands at most. -/
def lowBand (x : Int) : Nat → Nat → Nat
  | 0, k => k
  | n + 1, k => if x % 2 ^ 32 = 0 then lowBand (x / 2 ^ 32) n (k + 1) else k

/-- Smallest count of bands that hold the two's-complement value, from k on. -/
def bandCount (x : Int) : Nat → Nat → Nat
  | 0, k => k
  | n + 1, k => if -(2 ^ (32 * k - 1) : Int) ≤ x ∧ x < 2 ^ (32 * k - 1) then k else bandCount x n (k + 1)

/-- The exact-carry record of an element; none is a poisoned element. -/
def encodeCarry (isL : Bool) : Option ExAcc → List Byte
  | none => [0xFD#8]
  | some a =>
    if a.special then
      [0xFB#8, BitVec.ofNat 8 (b2n a.side.nan + 2 * b2n a.side.invalid + 4 * b2n a.side.pinf + 8 * b2n a.side.ninf)]
    else if a.sum = 0 then
      [if !a.side.anyterm then 0xF8#8 else if a.side.negzero then 0xFA#8 else 0xF9#8]
    else
      let low := lowBand a.sum (collBands isL) 0
      let v := a.sum / 2 ^ (32 * low)
      let n := bandCount v (collBands isL) 1
      let body := leBytes (4 * n) (ofSigned (32 * n) v)
      if !isL && decide (n ≤ 8) then BitVec.ofNat 8 (8 * low + n - 1) :: body
      else 0xFC#8 :: BitVec.ofNat 8 low :: BitVec.ofNat 8 (n - 1) :: body

/-- An accumulator with a value and anyterm. -/
def ExAcc.ofBands (low n : Nat) (bs : List Byte) : ExAcc :=
  ⟨toSigned (32 * n) (leNat (bs.take (4 * n))) * 2 ^ (32 * low), { anyterm := true }⟩

/-- Read one exact-carry record: the element and the bytes the record takes; none if it is malformed. -/
def decodeCarry (isL : Bool) (bs : List Byte) : Option (Option ExAcc × Nat) :=
  match bs with
  | [] => none
  | h :: rest =>
    let h := h.toNat
    let bands := fun low n k (rest : List Byte) =>
      if low + n ≤ collBands isL ∧ 4 * n ≤ rest.length then some (some (ExAcc.ofBands low n rest), k + 4 * n) else none
    if h < 0xA0 then (if h / 8 + h % 8 + 1 ≤ 20 then bands (h / 8) (h % 8 + 1) 1 rest else none)
    else if h = 0xF8 then some (some {}, 1)
    else if h = 0xF9 then some (some ⟨0, { anyterm := true }⟩, 1)
    else if h = 0xFA then some (some ⟨0, { anyterm := true, negzero := true }⟩, 1)
    else if h = 0xFB then
      match rest with
      | b :: _ =>
        if b.toNat < 16 then
          some (some ⟨0, { nan := bit b.toNat 0, invalid := bit b.toNat 1, pinf := bit b.toNat 2, ninf := bit b.toNat 3
                           anyterm := true }⟩, 2)
        else none
      | [] => none
    else if h = 0xFC then
      match rest with
      | l :: m :: rest' => bands l.toNat (m.toNat + 1) 3 rest'
      | _ => none
    else if h = 0xFD then some (none, 1)
    else none

/-- Bytes of an exact-carry record that say how long it is. -/
def carryHead (bs : List Byte) : Nat :=
  match bs.head? with
  | some h => if h = 0xFC#8 then 3 else if h = 0xFB#8 then 2 else 1
  | none => 1

/-- Read n exact-carry records from byte `at'` on; the records from the first that begins in or crosses a poisoned line to
the end are poisoned (R291). The bytes must be used up. -/
def decodeCarries (isL : Bool) (bad : List Nat) : Nat → Nat → List Byte → Option (List (Option ExAcc))
  | 0, _, bs => if bs.isEmpty then some [] else none
  | n + 1, at', bs =>
    if (linesOf at' (carryHead bs)).any bad.contains then some (List.replicate (n + 1) none)
    else
      match decodeCarry isL bs with
      | none => none
      | some (a, k) =>
        if (linesOf at' k).any bad.contains then some (List.replicate (n + 1) none)
        else (decodeCarries isL bad n (at' + k) (bs.drop k)).map (a :: ·)

/-- The sum of two elements; a poisoned one poisons it. -/
def mergeCarry : Option ExAcc → Option ExAcc → Option ExAcc
  | some a, some b => some (a.wire.merge b.wire)
  | _, _ => none

/-! ## Elements of views -/

/-- Position of element x of a view (R277). -/
def TD.at (t : TD) (x : Nat) : Nat × Nat := (x / max 1 t.cols, x % max 1 t.cols)

/-- The exact contribution of element x of SRC, in the class of the collective (R287). -/
def M.contribution (s : M) (t : TD) (isL : Bool) (x : Nat) : ExAcc :=
  let (i, j) := t.at x
  if t.exact then ((s.exact t i j).widen (exOff t.exactL) (collOff isL)).wire
  else (({} : ExAcc).add (collOff isL) (s.elem t false i j)).wire

/-- The lines that element x of a view depends on. -/
def TD.linesAt (t : TD) (x : Nat) : List Nat := t.elemLines false (t.at x).1 (t.at x).2

/-- The contributions of n elements from x on; a poisoned line poisons the elements that depend on it (R291). -/
def readContribs (t : TD) (isL : Bool) (x n : Nat) : Act (List (Option ExAcc)) := do
  let xs := List.range' x n
  let bad ← readLines (xs.flatMap t.linesAt).eraseDups
  let s ← get
  pure (xs.map fun x => if (t.linesAt x).any bad.contains then none else some (s.contribution t isL x))

/-- Scale bytes of the blocks that n elements from x on touch, in rising order: what an MX chunk in plain form carries after
its codes (log 21). -/
def TD.scalesFor (t : TD) (x n : Nat) : List Nat :=
  if t.exact || !isMx t.fmt then []
  else ((List.range' x n).map fun x => t.scaleAddr false (t.at x).1 (t.at x).2).eraseDups

/-- Plain form (R287): codes packed as a tensor of one row. -/
def plainBytes (t : TD) (codes scales : List Nat) : List Byte :=
  let w := t.ebits
  let slots := if w = 4 then 2 * ceilDiv codes.length 2 else if w = 6 then 4 * ceilDiv codes.length 4 else codes.length
  leBytes (ceilDiv (slots * w) 8) (packCodes w codes) ++ scales.map (BitVec.ofNat 8)

/-- Bytes of the codes of n elements in plain form. -/
def TD.plainLen (t : TD) (n : Nat) : Nat :=
  let w := t.ebits
  ceilDiv ((if w = 4 then 2 * ceilDiv n 2 else if w = 6 then 4 * ceilDiv n 4 else n) * w) 8

/-- The lines of a plain body that hold element i. -/
def plainLines (w i : Nat) : List Nat := linesOf (i * w / 8) (ceilDiv (i * w % 8 + w) 8)

/-- n elements of a view in plain form: the bytes, and the body lines that hold a poisoned element. -/
def readPlain (t : TD) (x n : Nat) : Act (List Byte × List Nat) := do
  let xs := List.range' x n
  let bad ← readLines (xs.flatMap t.linesAt).eraseDups
  let s ← get
  let codes := xs.map fun x => s.code t (t.at x).1 (t.at x).2
  let scales := (t.scalesFor x n).map fun a => (s.byte a).toNat
  let lost := (xs.zipIdx).filter fun (x, _) => (t.linesAt x).any bad.contains
  pure (plainBytes t codes scales, (lost.flatMap fun (_, i) => plainLines t.ebits i).eraseDups)

/-- The code of element i in plain form. -/
def plainCode (w : Nat) (x : Nat) (i : Nat) : Nat := trunc w (x >>> (w * i))

/-- Is element i of a plain body in one of the poisoned lines? -/
def plainLost (w : Nat) (bad : List Nat) (i : Nat) : Bool := (plainLines w i).any bad.contains

/-- Elements x, … of a view that stand in one contiguous run, at most n of them. -/
def TD.runFrom (t : TD) (x n : Nat) : Nat := if t.trans then min 1 n else min n (max 1 t.cols - x % max 1 t.cols)

/-- Zero slots that follow a run of k elements from x on: those beyond the extent of its row, if the run ends the row (R36). -/
def TD.padAfter (t : TD) (x k : Nat) : Nat :=
  let (i, j) := t.at x
  if t.padRun && (if t.trans then i + k == t.rows else j + k == t.cols) then t.slots false - t.inner else 0

/-- Write codes to the elements of a view from x on, and zero to the slots beyond the extent of each row that they end; lines in `bad`
are written poisoned. Answers whether a write was discarded. -/
def writeElems (t : TD) (bad : List Nat) : Nat → Nat → List Nat → Act Bool
  | 0, _, _ => pure false
  | fuel + 1, x, codes =>
    if codes.isEmpty then pure false
    else do
      let k := t.runFrom x codes.length
      let p ← writeRun (t.bitAddr (t.at x).1 (t.at x).2) ((k + t.padAfter x k) * t.ebits) (packCodes t.ebits (codes.take k)) bad
      let q ← writeElems t bad fuel (x + k) (codes.drop k)
      pure (p || q)

/-- Write a chunk of plain codes to a view, its MX scales with it; the lines of the elements that are lost are written
poisoned (R291). Answers whether there was poison. -/
def writePlain (t : TD) (x : Nat) (codes : List Nat) (lost : List Bool) (scales : List Nat) : Act Bool := do
  let bad := ((lost.zipIdx).flatMap fun (l, i) => if l then t.codeLines (t.at (x + i)).1 (t.at (x + i)).2 else []).eraseDups
  let p ← writeElems t bad (codes.length + 1) x codes
  let ps ← mapA ((t.scalesFor x codes.length).zip scales) fun (a, v) => writeRun (8 * a) 8 v []
  pure (!bad.isEmpty || p || ps.any id)

/-! ## Rounding at the root (R285 step 6, R292) -/

/-- The elements of the shard of a chunk whose MX blocks the chunk shares, from the first on to the last (R39): with another shard
no block is shared (DESIGN CHOICE, log 103). -/
def Coll.blockSpan (c : Coll) (k : Chunk) : Nat × Nat :=
  let cols := max 1 c.dstTd.cols
  let h := ceilDiv c.cd.count c.cd.shards
  let last := k.first + k.n - 1
  (max (k.shard * h) (k.first / cols * cols + k.first % cols / 32 * 32),
   min (min ((k.shard + 1) * h) c.cd.count) (last / cols * cols + min cols (last % cols / 32 * 32 + 32)))

/-- The sum of element x among those kept of an MX DST, none if its chunk is not summed. -/
def Coll.sumAt (c : Coll) (x : Nat) : Option (Option ExAcc) :=
  c.sums.findSome? fun (g, l) =>
    match c.chunk g with
    | none => none
    | some k => if k.first ≤ x then l[x - k.first]? else none

/-- Are the sums of every element that shares a block with a chunk there? -/
def Coll.blocksReady (c : Coll) (k : Chunk) : Bool :=
  let (a, b) := c.blockSpan k
  (List.range' a (b - a)).all fun x => (c.sumAt x).isSome

/-- Round the sums of a chunk to DST, `sum` by element, none a poisoned one: the codes, the scales of an MX DST, the flags, and whether
an element is non-finite or overflows. -/
def Coll.roundChunk (c : Coll) (s : M) (k : Chunk) (sum : Nat → Option ExAcc) : List Nat × List Nat × Flags × Bool :=
  let t := c.dstTd
  let mode := (RMode.ofCode c.cd.rmode).getD .rne
  let off := collOff c.isL
  let word := fun x => if mode = RMode.sr
    then rngWord (s.core c.core).seed c.step c.cd.stream (t.index (t.at x).1 (t.at x).2) else 0
  let xs := List.range' k.first k.n
  let nonfin := xs.any fun x => match sum x with | some a => a.special | none => false
  if isMx t.fmt then
    let (a, b) := c.blockSpan k
    let scale := fun x => t.scaleAddr false (t.at x).1 (t.at x).2
    let all := List.range' a (b - a)
    let enc := (all.map scale).eraseDups.map fun q =>
      let l := all.filter fun x => scale x == q
      let e := encodeMxBlock t.fmt ((l.map fun x => ((sum x).getD {}).val off mode) ++ List.replicate (32 - l.length) Val.zero)
        mode (l.map word)
      (q, l.zip e.2.1, e.1, e.2.2)
    let mine := enc.filter fun e => xs.any fun x => scale x == e.1
    let fl := Flags.joinAll (mine.map fun e => e.2.2.2)
    let codes := (mine.flatMap fun e => e.2.1).filterMap fun (x, v) => if xs.contains x then some v else none
    (codes, mine.map fun e => e.2.2.1, fl, nonfin || fl.overflow)
  else
    let enc := xs.map fun x => ((sum x).getD {}).round off t.fmt mode (word x)
    let fl := Flags.joinAll (enc.map Prod.snd)
    (enc.map Prod.fst, [], fl, nonfin || fl.overflow)

/-- An exact sum as a record of DST's class: a sum that a W-class record cannot hold leaves its value free. -/
def storeExact (isL dstL : Bool) (a : ExAcc) : Act Nat :=
  if isL && !dstL then do
    let d := collOff true - collOff false
    let v := a.sum / 2 ^ d
    if v * 2 ^ d = a.sum ∧ -(2 ^ 639 : Int) ≤ v ∧ v < 2 ^ 639 then pure ((⟨v, a.side⟩ : ExAcc).encode false)
    else do
      let f ← freeVal 640
      pure ((⟨toSigned 640 f, a.side⟩ : ExAcc).encode false)
  else if !isL && dstL then
    pure ((⟨a.sum * 2 ^ (collOff true - collOff false), a.side⟩ : ExAcc).encode true)
  else pure (a.encode dstL)

/-- Set bits of the accumulator of a verdict entry for a step, an accumulator of another step being cleared first (R292). -/
def accumulate (e entry step bits : Nat) : Act Unit :=
  updEng e fun g =>
    let old := (g.vacc.find? fun (n, _, _) => n == entry).getD (entry, step, 0)
    let b := (if old.2.1 = step then old.2.2 else 0) ||| bits
    { g with vacc := (g.vacc.filter fun (n, _, _) => n != entry) ++ [(entry, step, b)] }

/-- The OR over the engines of the accumulators of an entry that hold a step (R293). -/
def M.accumulated (s : M) (entry step : Nat) : Nat :=
  (List.range 4).foldl (fun b e => b ||| (((s.eng e).vacc.find? fun (n, t, _) => n == entry && t == step).map
    fun (_, _, v) => v).getD 0) 0

/-! ## Messages (R284, R287) -/

/-- The TAG of a class 1 message. -/
def collTag (group kind e : Nat) : Nat := trunc 16 group <<< 16 + kind <<< 14 + e <<< 12

/-- Line 0 (Table 11-5): INDEX, ORIGIN, CODE, FLAGS, ELEMS, BYTES and AUX after SEQ and DIGEST. -/
def Coll.line0 (c : Coll) (index origin code flags elems bytes aux : Nat) : List Byte :=
  leBytes 32 (trunc 32 c.seq + c.digest <<< 32 + trunc 32 index <<< 96 + trunc 16 origin <<< 128 + trunc 8 code <<< 144
    + trunc 8 flags <<< 152 + trunc 32 elems <<< 160 + trunc 32 bytes <<< 192 + trunc 32 aux <<< 224)

/-- Send a control message of a collective to a rank. -/
def sendControlMsg (e : Nat) (c : Coll) (rank code index origin flags elems bytes aux : Nat) : Act Unit := do
  relayEvent e 0x30F 1
  postMessage (c.nodeOf rank)
    { cls := 1, tag := collTag c.group 2 e, owner := .control e c.group c.seq
      lines := messageLines 0 (c.line0 index origin code flags elems bytes aux) [] }

/-! ## Staging (R282, R285) -/

/-- Runs (start, length), without what a run takes of them. -/
def cutRun (free : List (Nat × Nat)) (u : Nat × Nat) : List (Nat × Nat) :=
  free.flatMap fun (a, k) =>
    if u.1 + u.2 ≤ a ∨ a + k ≤ u.1 then [(a, k)]
    else (if a < u.1 then [(a, u.1 - a)] else []) ++ (if u.1 + u.2 < a + k then [(u.1 + u.2, a + k - (u.1 + u.2))] else [])

/-- The first n of the runs. -/
def takeRuns : Nat → List (Nat × Nat) → List (Nat × Nat)
  | _, [] => []
  | n, (a, k) :: l => if n = 0 then [] else if n ≤ k then [(a, n)] else (a, k) :: takeRuns (n - k) l

/-- Unit i of the runs. -/
def runAt : List (Nat × Nat) → Nat → Nat
  | [], _ => 0
  | (a, k) :: l, i => if i < k then a + i else runAt l (i - k)

/-- The KiB of the staging pool of an engine that a collective takes when it starts: the lowest that are free (log 70). -/
def M.stagingRuns (s : M) (e need : Nat) : List (Nat × Nat) :=
  takeRuns need (((s.eng e).colls.flatMap (·.units)).foldl cutRun [(0, 1024 * s.reg (Reg.rlyStageSize e))])

/-- The buffer of a chunk (log 70): place n mod INFLIGHT of a slot, which is a child's place in the tree of the shard, F for the parent,
and F + 1 for a chunk that this member sends. -/
def Coll.buffer (c : Coll) (slot n : Nat) : Nat := slot * c.cd.inflightN + n % c.cd.inflightN

/-- The lines of a chunk are written to a buffer (Table 11-4, steps 1 and 2); those beyond CHUNK bytes go in no buffer. -/
def stage (e : Nat) (c : Coll) (buf : Nat) (body : List Byte) (bad : List Nat) : Act Unit :=
  forA ((toLines (32 * c.cd.chunkKib) body).zipIdx) fun (data, i) => modify fun s =>
    let a := s.reg (Reg.rlyStageBase e) + 1024 * runAt c.units (buf * c.cd.chunkKib + i / 32) + 32 * (i % 32)
    if inNear a then s.putLine (a / 32) data (bad.contains i) else s

/-- A chunk from a rank is written to its receive buffer. -/
def stageIn (e : Nat) (c : Coll) (leg rank : Nat) (k : Chunk) (body : List Byte) (bad : List Nat) : Act Unit :=
  let slot := if leg = 1 then c.gr.fanin else (c.kids k.shard c.me).idxOf rank
  stage e c (c.buffer slot ((c.fromRank leg rank).idxOf k.g)) body bad

/-- A chunk that is to be sent to a rank is written to its send buffer. -/
def stageOut (e : Nat) (c : Coll) (leg rank : Nat) (k : Chunk) (body : List Byte) (bad : List Nat) : Act Unit :=
  stage e c (c.buffer (c.gr.fanin + 1) ((c.toRank leg rank).idxOf k.g)) body bad

/-- The result of a chunk that goes down from its root is written to its send buffer. -/
def stageDown (e : Nat) (c : Coll) (k : Chunk) (body : List Byte) (bad : List Nat) : Act Unit :=
  match (c.kids k.shard c.me).head? with
  | none => pure ()
  | some q => stageOut e c 1 q k body bad

/-- Send a chunk that is ready: its message is posted, its credit used. -/
def sendChunk (e : Nat) (c : Coll) (r : Ready) : Act Unit := do
  let n := (assoc c.sent r.rank r.leg).getD 0
  updColl e c.group c.seq fun c =>
    { c with ready := c.ready.filter fun q => !(q.g == r.g && q.leg == r.leg && q.rank == r.rank)
             sent := assocSet c.sent r.rank r.leg (n + 1), flying := c.flying ++ [(r.leg, r.rank, r.g)] }
  relayEvent e 0x306 1
  relayEvent e 0x309 r.body.length
  postMessage (c.nodeOf r.rank)
    { cls := 1, tag := collTag c.group r.leg e, owner := .chunk e c.group c.seq r.leg r.g
      lines := messageLines 0 (c.line0 r.g r.origin 0 r.flags r.elems r.body.length r.aux) []
        ++ messageLines 1 r.body r.bad }

/-- Grant a rank one more chunk on a leg (R285). -/
def grant (e : Nat) (group seq rank leg : Nat) : Act Unit := do
  let s ← get
  match s.coll e group seq with
  | none => pure ()
  | some c =>
    let l := c.fromRank leg rank
    let n := (assoc c.given rank leg).getD c.cd.inflightN
    whenA (decide (n < l.length)) do
      updColl e group seq fun c => { c with given := assocSet c.given rank leg (n + 1) }
      sendControlMsg e c rank 4 (l.getD n 0) 0 (4 * leg) 0 0 0

/-- Grant the children whose buffers the sending of chunk g on the reduce leg releases. -/
def releaseKids (e : Nat) (c : Coll) (k : Chunk) : Act Unit :=
  if c.cd.op = 4 then
    forA ((c.kids 0 c.me).filter fun q => treeUnder (max 1 c.gr.p) c.gr.fanin (c.rootOf 0) q c.gr.p k.origin) fun q =>
      grant e c.group c.seq q 0
  else forA (c.kids k.shard c.me) fun q => grant e c.group c.seq q 0

/-- Send every ready chunk that is next in its order and has credit, n at most. -/
def sendReady (e group seq : Nat) : Nat → Act Unit
  | 0 => pure ()
  | n + 1 => do
    let s ← get
    match s.coll e group seq with
    | none => pure ()
    | some c =>
      match c.ready.find? fun r => c.nextFor r.rank r.leg r.g && c.creditFor r.rank r.leg r.g with
      | none => pure ()
      | some r => do
        sendChunk e c r
        if r.leg = 0 then
          match c.chunk r.g with
          | none => pure ()
          | some k => whenA (c.cd.reduces || k.origin != c.me) (releaseKids e c k)
        else pure ()
        sendReady e group seq n

/-- Add chunks to the ready list and send what may go. -/
def makeReady (e : Nat) (c : Coll) (rs : List Ready) : Act Unit := do
  updColl e c.group c.seq fun c => { c with ready := c.ready ++ rs }
  sendReady e c.group c.seq (c.ready.length + rs.length)

/-! ## Completion (R290, R293) -/

/-- The entry of a collective macro-op on its ring ends its work with a status of its own. -/
def endRingOp (core x status flags result : Nat) : Act Unit :=
  updRing core 3 fun g => { g with infl := g.infl.map fun f =>
    if f.x = x ∧ !f.done then { f with done := true, own := status, flags := f.flags ||| flags, result := result } else f }

/-- Count the end of a collective. -/
def countEnd (e status : Nat) : Act Unit :=
  match status with
  | 0 => relayEvent e 0x301 1
  | 9 => do
    relayEvent e 0x302 1
    inc64 Reg.rlyMismatch
  | 0xA => do
    relayEvent e 0x303 1
    inc64 Reg.rlyTimeout
  | 4 => do
    relayEvent e 0x304 1
    inc64 Reg.rlyAborts
  | 0xB => relayEvent e 0x305 1
  | _ => pure ()

/-- The fields of line 0 (Table 11-5). -/
structure Line0 where
  seq : Nat
  digest : Nat
  index : Nat
  origin : Nat
  code : Nat
  flags : Nat
  elems : Nat
  bytes : Nat
  aux : Nat

/-- Read line 0. -/
def Line0.parse (l : List Byte) : Line0 :=
  let x := leNat l
  { seq := bits x 31 0, digest := bits x 95 32, index := bits x 127 96, origin := bits x 143 128, code := bits x 151 144
    flags := bits x 159 152, elems := bits x 191 160, bytes := bits x 223 192, aux := bits x 255 224 }

/-- Stop the messages of an owner for which a condition holds (R266): what has not been sent is not sent; MSG_STATUS with
STATUS_ABORTED follows for an open message. -/
def stopMessages (p : Owner → Bool) : Act Unit := do
  let s ← get
  forA s.peers fun n => updRally n fun r =>
    let hit := r.msgs.filter fun m => p m.owner && m.mseq.isSome && !m.stopped
    { r with msgs := (r.msgs.filter fun m => !(p m.owner && m.mseq.isNone)).map fun m =>
               if p m.owner then { m with stopped := true } else m
             stats := r.stats ++ hit.map fun m => (m.mseq.getD 0, m.cls, m.tag, 4) }

/-- The line 0 of an inbound class 1 message, once it is there. -/
def InMsg.line0 (m : InMsg) : Option Line0 :=
  if m.cls = 1 then (m.lines.find? fun (o, _, _) => o == 0).map fun (_, _, bs) => Line0.parse bs else none

/-- The inbound messages of a collective are aborted by their owner (R266): what they hold and what still comes is discarded, and
MSG_STATUS with STATUS_ABORTED goes out. -/
def abortInbound (e group seq : Nat) : Act Unit := do
  let s ← get
  let hit := fun (m : InMsg) => !m.aborted && bits m.tag 13 12 == e && bits m.tag 31 16 == group && m.line0.map (·.seq) == some seq
  forA s.peers fun n => whenA ((s.rally n).ins.any hit) do
    let l := (s.rally n).ins.filter hit
    updRally n fun r => { r with ins := r.ins.map fun m => if hit m then { m with aborted := true, lines := [] } else m }
    forA l fun m => queueStatus n (m.mseq, 1, m.tag, 4)

/-- Is the message of a collective? -/
def Owner.ofColl (o : Owner) (e group seq : Nat) : Bool :=
  match o with
  | .chunk e' g' s' _ _ => e' == e && g' == group && s' == seq
  | _ => false

/-- Base of the entry x of a communication queue (R283). -/
def queueEntry (g : GroupRec) (x : Nat) : Nat := g.cqBase + 32 + 128 * (x % 2 ^ g.cqLog2)

/-- The completion record of a queue entry, and RD (R283). -/
def endQueueOp (g : GroupRec) (group x status flags result : Nat) : Act Unit := do
  let cyc ← freeVal 32
  let _ ← writeBytes (queueEntry g x + 64)
    (leBytes 32 (status + 0x88 <<< 16 + trunc 7 flags <<< 32 + x <<< 64 + satU 32 result <<< 96 + cyc <<< 192))
  let _ ← writeBytes g.cqBase (leBytes 4 (trunc 32 (x + 1)))
  modify fun s => { s with rly := { s.rly with queues := s.rly.queues.map fun q =>
    if q.group = group then { q with rd := trunc 32 (x + 1) } else q } }

/-- May the AGREE of a member go up: all children have answered, and for CLOSE every VERDICT collective of the group and step
with a lower SEQ has completed here (R289, R293)? -/
def M.agreeReady (s : M) (c : Coll) : Bool :=
  c.started && !c.agreeSent && (c.kids 0 c.me).all (fun k => c.agreed.any (·.rank = k)) &&
    (!c.cd.close || (List.range 4).all fun e => (s.eng e).colls.all fun d =>
      !(d.group == c.group && d.cd.verdict && d.step == c.step && decide (trunc 32 (c.seq + 2 ^ 32 - d.seq) < 2 ^ 31)))

/-- The disagreement that a member passes up (R289): its first disagreeing child by rank, else the first passed up. -/
def Coll.dispute (c : Coll) : Option (Nat × Nat) :=
  let l := (List.range c.gr.p).filterMap fun k => c.agreed.find? (·.rank = k)
  match l.findSome? (·.bad) with
  | some d => some d
  | none => l.findSome? (·.dis)

/-- A verdict-entry write of a CLOSE collective that ends with a status and, if it forms one, its verdict bits (R293). -/
def closeVerdict (c : Coll) (failed : Bool) (status : Nat) : Act Unit := do
  let s ← get
  match s.verdictEntry c.group with
  | none => pure ()
  | some n =>
    if failed then setVerdict n 4 status c.step
    else if bit c.verdict 0 then setVerdict n 3 0 c.step
    else if bit c.verdict 1 then setVerdict n 4 3 c.step
    else setVerdict n 2 0 c.step

/-- Elements dropped by all members under OP 4. -/
def Coll.drops (c : Coll) : Nat := ((c.blocks.map fun (_, _, d) => d)).foldl (· + ·) 0

/-- The status of a collective that ends without failure (R286, R291). -/
def Coll.okStatus (c : Coll) : Nat := if c.poison then 3 else if c.drops > 0 then 0xB else 0

/-- COUNTS_TD of OP 4: min(LEN_k, COUNT) of every member. -/
def writeCounts (c : Coll) : Act Bool := do
  let t := TD.parse c.counts
  let n := fun k => ((c.blocks.find? fun (r, _, _) => r == k).map fun (_, m, _) => m).getD 0
  writeElems t [] (c.gr.p + 1) 0 ((List.range c.gr.p).map n)

/-- A collective leaves its engine, its staging freed; its verdict and its completion are written. -/
def endColl (e : Nat) (c : Coll) (failed : Bool) (status : Nat) : Act Unit := do
  updEng e fun g => { g with colls := g.colls.filter fun d => !(d.started == c.started && d.group == c.group && d.seq == c.seq
                                                                && d.ring == c.ring && d.entry == c.entry) }
  let p ← if c.cd.op = 4 ∧ !failed then writeCounts c else pure false
  let status := if p then 3 else status
  countEnd e status
  whenA c.cd.close (closeVerdict c failed status)
  whenA (failed && c.go && c.hasDst) do
    scrambleOuts (c.dstTd.range false)
  whenA failed do
    stopMessages fun o => o.ofColl e c.group c.seq
    abortInbound e c.group c.seq
  match c.ring with
  | some (core, x) => endRingOp core x status c.flags (if c.cd.op = 4 then min c.drops (2 ^ 32 - 1) else 0)
  | none => endQueueOp c.gr c.group c.entry status c.flags (if c.cd.op = 4 then min c.drops (2 ^ 32 - 1) else 0)

/-! ## Communication queues (R283) -/

/-- Put a collective at the end of its engine's queue, or end it at once if it is behind or repeats an active SEQ (R281). -/
def enqueue (c : Coll) : Act Unit := do
  let s ← get
  let e := engOf c.group c.seq
  updEng e fun g => { g with colls := g.colls ++ [c] }
  whenA (s.behind e c.group c.seq || (s.coll e c.group c.seq).isSome) (endColl e c true 9)

/-- First address of the slice that holds an address. -/
def sliceOf (a : Nat) : Nat := a / sliceSize * sliceSize

/-- Read the 64 bytes of a descriptor at a line index of a slice. -/
def readDescAt (base i : Nat) : Act (Bool × Nat) := do
  let (p, bs) ← readBytes (base + 32 * i) 64
  pure (p, leNat bs)

/-- Take the entries of a communication queue in order until one has to run, n at most. -/
def takeQueue (group : Nat) : Nat → Act Unit
  | 0 => pure ()
  | n + 1 => do
    let s ← get
    let raw := s.num (s.reg Reg.rlyGroupBase + 32 * group) 32
    let g := GroupRec.parse raw
    match s.rly.queues.find? (·.group = group) with
    | none => pure ()
    | some q =>
      let busy := (List.range 4).any fun e => (s.eng e).colls.any fun c => c.group == group && c.ring.isNone
      if q.rd = q.wr ∨ busy then pure ()
      else do
        let gp ← readGroup group
        let (p, bs) ← readBytes (queueEntry g q.rd) 64
        let cd := CD.parse (leNat bs)
        relayEvent (engOf group cd.seq) 0x310 1
        let base := sliceOf g.cqBase
        let ds ← mapA (cd.tdPtrs g) (readDescAt base)
        let s ← get
        let td := fun k => (ds.map Prod.snd)[k]?
        let dst := if cd.readsDst g then td 1 else none
        if gp ∨ p ∨ ds.any Prod.fst then do
          endQueueOp g group q.rd 3 0 0
          takeQueue group n
        else if cd.verdict || cd.close || cd.rmode == 4 ||
            !collOk s cd group g (TD.parse ((td 0).getD 0)) ((td 1).map TD.parse) ((td 2).map TD.parse) then do
          endQueueOp g group q.rd 1 0 0
          takeQueue group n
        else do
          enqueue { group := group, seq := cd.seq, entry := q.rd, od := leNat bs, grp := raw, src := (td 0).getD 0
                    dst := dst.getD 0, counts := (td 2).getD 0, limit := max 1 (bits (s.reg Reg.rlyCtl) 15 0) }
          takeQueue group n

/-- What follows the end of a collective: an AGREE that waited for it goes, and the group's queue goes on. -/
def afterEnd (group : Nat) (agree : Nat → Coll → Act Unit) : Act Unit := do
  let s ← get
  forA (List.range 4) fun e => forA ((s.eng e).colls.filter fun d => d.group == group && d.cd.close) fun d => agree e d
  takeQueue group 4096

/-! ## Agreement (R289) -/

/-- All ranks with which a collective exchanges messages here. -/
def Coll.neighbours (c : Coll) : List Nat :=
  let shards := if c.cd.reduces then List.range c.cd.shards else [0]
  ((shards.flatMap fun j => (c.parent j c.me).toList ++ c.kids j c.me)).eraseDups

/-- A disagreement is logged, in the register and in the error log. -/
def logMismatch (e : Nat) (c : Coll) (node digest : Nat) : Act Unit := do
  wr Reg.rlyLastMismatch (trunc 16 c.group <<< 112 + trunc 12 node <<< 88 + trunc 64 digest)
  let s ← get
  let (core, job) := match c.ring with
    | some (k, _) => (k, (s.core k).job)
    | none => (0xFF, none)
  logAdd 0x03 (168 + e) c.step core ((job.map Prod.fst).getD 0xFF) ((job.map Prod.snd).getD 0)
    (payload [(0, 2, c.group), (4, 4, c.seq), (8, 2, node), (12, 8, digest)])

/-- NOGO at a member: it completes with STATUS_COLLECTIVE_MISMATCH, no destination touched, and passes NOGO on. -/
def noGo (e : Nat) (c : Coll) (node digest : Nat) : Act Unit := do
  forA (c.kids 0 c.me) fun k => sendControlMsg e c k 2 0 node 0 9 (trunc 32 digest) (digest >>> 32)
  logMismatch e c node digest
  endColl e { c with go := false } true 9

/-- GO at a member: it is passed on; a CLOSE collective without elements completes (R293). Answers whether it ended. -/
def goOn (e : Nat) (c : Coll) (v : Nat) : Act Bool := do
  updColl e c.group c.seq fun c => { c with go := true, agreeSent := true, verdict := v }
  forA (c.kids 0 c.me) fun k => sendControlMsg e c k 1 0 0 v 0 0 0
  if c.cd.close && c.cd.count == 0 then do
    endColl e { c with go := true, verdict := v } false 0
    pure true
  else pure false

/-- Send AGREE up when it may go; the root sends GO or NOGO. Answers whether the collective ended. -/
def agreeUp (e : Nat) (c : Coll) : Act Bool := do
  let s ← get
  if !s.agreeReady c then pure false
  else do
    let own := if c.cd.close then ((s.verdictEntry c.group).map fun n => s.accumulated n c.step).getD 0 else 0
    let v := c.agreed.foldl (fun a k => a ||| k.bits) own
    match c.parent 0 c.me with
    | some p => do
      updColl e c.group c.seq fun c => { c with agreeSent := true }
      match c.dispute with
      | none => sendControlMsg e c p 0 0 0 v 0 0 0
      | some (node, d) => sendControlMsg e c p 0 0 node (v + 8) 0 (trunc 32 d) (d >>> 32)
      pure false
    | none =>
      match c.dispute with
      | some (node, d) => do
        noGo e c node d
        pure true
      | none => goOn e c v

/-- agreeUp, and again for what its end lets go. -/
def agree : Nat → Nat → Coll → Act Unit
  | 0, _, _ => pure ()
  | n + 1, e, c => do
    let ended ← agreeUp e c
    whenA ended (afterEnd c.group (agree n))

/-- The collective ends, and what follows. -/
def finishColl (e : Nat) (c : Coll) (failed : Bool) (status : Nat) : Act Unit := do
  endColl e c failed status
  afterEnd c.group (agree 64)

/-- A member fails other than by NOGO (R290): ABORT to every neighbour but the one it learned of the failure from. ORIGIN names the
bad node: the one that `bad` says, else this module's own (log 71). -/
def failColl (e : Nat) (c : Coll) (status : Nat) (heard bad : Option Nat) : Act Unit := do
  let s ← get
  whenA c.started
    (forA (c.neighbours.filter fun k => some k != heard) fun k =>
      sendControlMsg e c k 3 0 (bad.getD s.node) 0 status 0 0)
  finishColl e c true status

/-! ## Start (R275, R281, R282, R286, R293) -/

/-- Chunk buffers, in KiB, that the active collectives of an engine hold. -/
def M.staged (s : M) (e : Nat) : Nat :=
  ((s.eng e).colls.filter (·.started)).foldl (fun a c => a + c.cd.staging c.gr) 0

/-- The highest SEQ that an engine has started in a group rises. -/
def noteLast (e group seq : Nat) : Act Unit := do
  let s ← get
  let newer := match s.last e group with
    | none => true
    | some l => decide (trunc 32 (seq + 2 ^ 32 - l) < 2 ^ 31)
  whenA newer (updEng e fun g => { g with last := (g.last.filter (·.1 ≠ group)) ++ [(group, seq)] })

/-- The queued collectives of a group that a start has left behind, or that repeat an active SEQ, end at once (R281). -/
def sweepQueued (e group : Nat) : Act Unit := do
  let s ← get
  let l := (s.eng e).colls.filter fun c =>
    !c.started && c.group == group && (s.behind e group c.seq || (s.coll e group c.seq).isSome)
  forA l fun c => finishColl e c true 9

/-- The next queued collective of an engine starts, if its record is cached, an active place is free and its staging fits. -/
def startNext (e : Nat) : Act Unit := do
  let s ← get
  match (s.eng e).colls.findIdx? (fun c => !c.started) with
  | none => pure ()
  | some i =>
    match (s.eng e).colls[i]? with
    | none => pure ()
    | some c =>
      match (s.eng e).cache.find? (·.1 = c.group) with
      | none => pure ()
      | some (_, rec, members) =>
        let g := GroupRec.parse rec
        let active := ((s.eng e).colls.filter (·.started)).length
        if active ≥ 64 ∨ s.staged e + c.cd.staging g > 1024 * s.reg (Reg.rlyStageSize e) then pure ()
        else do
          let (p, bs) ← if c.cd.op = 4 then readBytes c.cd.lenAddr 4 else pure (false, [])
          let len := leNat bs
          let drop := len - c.cd.count
          let c := { c with started := true, grp := rec, members := members, len := len, poison := p
                            units := s.stagingRuns e (c.cd.staging g) }
          let c := { c with digest := c.digestNow
                            blocks := if c.cd.op = 4 ∧ (c.parent 0 c.me).isNone then [(g.rank, min len c.cd.count, drop)] else [] }
          updEng e fun g => { g with colls := g.colls.set i c }
          noteLast e c.group c.seq
          relayEvent e 0x300 1
          whenA (c.cd.op == 4) (addReg 64 Reg.rlyCapDrops drop)
          whenA c.cd.close do
            let s ← get
            match s.verdictEntry c.group with
            | none => pure ()
            | some n => setVerdict n 1 0 c.step
          sweepQueued e c.group
          agree 64 e c

/-- A group record and its member list come into the cache of an engine, 256 records at most (R275); if a line of them is poisoned, the
collectives that wait for them end with STATUS_MEM_POISON (log 71). -/
def fetchGroup (e group : Nat) : Act Unit := do
  let s ← get
  whenA (((s.eng e).colls.any fun c => c.group == group) && !((s.eng e).cache.any (·.1 = group))) do
    let (p, bs) ← readBytes (s.reg Reg.rlyGroupBase + 32 * group) 32
    let g := GroupRec.parse (leNat bs)
    let (q, ms) ← readBytes g.members (2 * min g.p 4096)
    let nodes := (List.range (min g.p 4096)).map fun i => bits (leNat ((ms.drop (2 * i)).take 2)) 11 0
    inc64 (Reg.rlyGcacheMiss e)
    relayEvent e 0x30C 1
    if p || q then forA ((s.eng e).colls.filter fun c => c.group == group && !c.started) fun c => finishColl e c true 3
    else updEng e fun r =>
      { r with cache := (if r.cache.length ≥ 256 then r.cache.drop 1 else r.cache) ++ [(group, leNat bs, nodes)] }

/-! ## Chunks at a member (R285, R286) -/

/-- The chunk is summed or sent on the reduce leg (leg 0), or written to DST (leg 1), at this member; `done` holds
2 × g + leg. -/
def chunkDone (e : Nat) (c : Coll) (legs : List Nat) (g flags : Nat) (poison : Bool) : Act Unit :=
  updColl e c.group c.seq fun c =>
    { c with done := c.done ++ legs.map (2 * g + ·), flags := c.flags ||| flags, poison := c.poison || poison
             gather := c.gather.filter (·.g ≠ g) }

/-- The broadcast of a chunk to this member's children. -/
def Coll.down (c : Coll) (k : Chunk) (flags elems aux : Nat) (body : List Byte) (bad : List Nat) : List Ready :=
  (c.kids k.shard c.me).map fun q =>
    { g := k.g, leg := 1, rank := q, origin := k.origin, flags := flags, elems := elems, aux := aux, body := body, bad := bad }

/-- Steps 6 and 7 at the root of a reduction: round, write, set the accumulator, and send the result of OP 2 down; `sum` by element,
none a poisoned one. -/
def roundOut (e : Nat) (c : Coll) (k : Chunk) (sum : Nat → Option ExAcc) : Act Unit := do
  let s ← get
  let t := c.dstTd
  let sums := (List.range' k.first k.n).map sum
  let lost := sums.map Option.isNone
  let special := sums.any fun a => match a with | some a => a.special | none => false
  let mark := fun nonfin => whenA c.cd.verdict do
    let s ← get
    match s.verdictEntry c.group with
    | none => pure ()
    | some n => accumulate e n c.step (b2n nonfin + 2 * b2n (lost.any id))
  if t.exact then do
    mark special
    whenA special (relayEvent e 0x30E 1)
    let codes ← mapA sums fun a => storeExact c.isL t.exactL (a.getD {})
    let p ← writePlain t k.first codes lost []
    chunkDone e c [0, 1] k.g 0 (p || lost.any id)
    let body := sums.flatMap (encodeCarry c.isL)
    whenA (c.cd.op == 2) do
      stageDown e c k body []
      makeReady e c (c.down k 0 k.n 0 body [])
  else do
    let (codes, scales, fl, nonfin) := c.roundChunk s k sum
    mark nonfin
    whenA nonfin (relayEvent e 0x30E 1)
    let p ← writePlain t k.first codes lost scales
    chunkDone e c [0, 1] k.g fl.toNat (p || lost.any id)
    let bad := ((lost.zipIdx).flatMap fun (l, i) => if l then plainLines t.ebits i else []).eraseDups
    whenA (c.cd.op == 2) do
      stageDown e c k (plainBytes t codes scales) bad
      makeReady e c (c.down k fl.toNat k.n 0 (plainBytes t codes scales) bad)

/-- The sums of a chunk are complete at the root. A chunk of an MX DST is rounded once those of every chunk that shares a block with it
are there (R39). -/
def rootChunk (e : Nat) (c : Coll) (k : Chunk) (sums : List (Option ExAcc)) : Act Unit := do
  relayEvent e 0x308 k.n
  relayEvent e 0x30D (sums.filter Option.isNone).length
  if isMx c.dstTd.fmt && !c.dstTd.exact then do
    let c := { c with sums := c.sums ++ [(k.g, sums)], gather := c.gather.filter (·.g ≠ k.g) }
    updColl e c.group c.seq fun d => { d with sums := c.sums, gather := c.gather }
    forA (c.chunks.filter fun q => q.shard == k.shard && !c.done.contains (2 * q.g) && c.blocksReady q) fun q =>
      roundOut e c q fun x => (c.sumAt x).getD none
  else roundOut e c k fun x => (sums[x - k.first]?).getD none

/-- The sums of a chunk are complete at this member: the root rounds and writes, another member sends them up. -/
def summed (e : Nat) (c : Coll) (k : Chunk) (sums : List (Option ExAcc)) : Act Unit := do
  match c.parent k.shard c.me with
  | none => do
    rootChunk e c k sums
    releaseKids e c k
  | some p => do
    relayEvent e 0x308 k.n
    chunkDone e c [0] k.g 0 (sums.any Option.isNone)
    let body := sums.flatMap (encodeCarry c.isL)
    stageOut e c 0 p k body []
    makeReady e c [{ g := k.g, leg := 0, rank := p, elems := k.n, body := body }]

/-- A member's own contributions rounded to FP32 (R93): their codes, in plain form, with its poisoned lines. -/
def ownRounded (isL : Bool) (sums : List (Option ExAcc)) : List Byte × List Nat :=
  let codes := sums.map fun a => ((a.getD {}).round (collOff isL) 1 .rne 0).1
  let bad := ((sums.zipIdx).flatMap fun (a, i) => if a.isNone then [4 * i / 32] else []).eraseDups
  (leBytes (4 * codes.length) (packCodes 32 codes), bad)

/-- n FP32 values of a body, each as one exact term (Table 11-6). -/
def roundedTerms (isL : Bool) (n : Nat) (body : List Byte) (lost : Nat → Bool) : List (Option ExAcc) :=
  let x := leNat body
  (List.range n).map fun i =>
    if lost i then none else some ((({} : ExAcc).add (collOff isL) (decodeElem 1 (plainCode 32 x i))).wire)

/-- This member's own contribution to a chunk of a reduction: under WIRE 2 every member rounds it once to FP32 (R93; DEDUCED, log 71). -/
def ownContribs (c : Coll) (k : Chunk) : Act (List (Option ExAcc)) := do
  let sums ← readContribs c.srcTd c.isL k.first k.n
  pure (if c.cd.wire = 2 then roundedTerms c.isL k.n (ownRounded c.isL sums).1 fun i => (sums[i]?).getD none |>.isNone else sums)

/-- The root of OP 4 has a chunk of a contributor's block, n elements of it in plain form: it writes them, the slots beyond as the PAD
code, and sends the chunk down (R286). The scales of MX blocks beyond the block's length stay as they are (log 21). -/
def rootBlock (e : Nat) (c : Coll) (k : Chunk) (n drop : Nat) (body : List Byte) (bad : List Nat) : Act Unit := do
  let w := c.srcTd.ebits
  let x := leNat (body.take (c.srcTd.plainLen n))
  let codes := (List.range n).map (plainCode w x) ++ List.replicate (k.n - n) (trunc w c.cd.pad)
  let scales := (body.drop (c.srcTd.plainLen n)).map (·.toNat)
  let p ← writePlain c.dstTd (k.origin * c.cd.count + k.first) codes ((List.range n).map (plainLost w bad)) scales
  let down := plainBytes c.srcTd codes scales
  chunkDone e c [1] k.g 0 (p || !bad.isEmpty)
  stageDown e c k down bad
  makeReady e c (c.down k 0 n drop down bad)

/-- This member takes up its own part of a chunk that no child's part completes: a leaf's contribution, a lone root's, or
the root's of a broadcast; under OP 4 its own block. -/
def ownChunk (e : Nat) (c : Coll) (leg : Nat) (k : Chunk) : Act Unit := do
  let d := c.cd
  updColl e c.group c.seq fun c => { c with own := c.own ++ [k.g] }
  if d.reduces then do
    let sums ← ownContribs c k
    whenA (sums.any Option.isNone) (relayEvent e 0x30D (sums.filter Option.isNone).length)
    match d.wire, c.parent k.shard c.me with
    | 2, some p => do
      let (body, bad) := ownRounded c.isL sums
      chunkDone e c [0] k.g 0 (sums.any Option.isNone)
      stageOut e c 0 p k body bad
      makeReady e c [{ g := k.g, leg := 0, rank := p, elems := k.n, body := body, bad := bad }]
    | _, _ => summed e c k sums
  else if d.op = 0 then do
    let (body, bad) ← readPlain c.srcTd k.first k.n
    let x := leNat body
    let w := c.srcTd.ebits
    let p ← writePlain c.dstTd k.first ((List.range k.n).map (plainCode w x)) ((List.range k.n).map (plainLost w bad))
      ((body.drop (c.srcTd.plainLen k.n)).map (·.toNat))
    chunkDone e c [1] k.g 0 (p || !bad.isEmpty)
    stageDown e c k body bad
    makeReady e c (c.down k 0 k.n 0 body bad)
  else
    let n := min k.n (min c.len d.count - k.first)
    let drop := c.len - d.count
    let (body, bad) ← readPlain c.srcTd k.first n
    match leg, c.parent 0 c.me with
    | 0, some p => do
      stageOut e c 0 p k body bad
      makeReady e c [{ g := k.g, leg := 0, rank := p, origin := c.me, elems := n, aux := drop, body := body, bad := bad }]
    | _, _ => rootBlock e c k n drop body bad

/-- Is a chunk this member's to take up on a leg, no child's part being awaited? -/
def Coll.ownable (c : Coll) (leg : Nat) (k : Chunk) : Bool :=
  let d := c.cd
  !c.own.contains k.g &&
    (if d.reduces then leg == 0 && (c.kids k.shard c.me).isEmpty
     else if d.op = 0 then leg == 1 && (c.parent 0 c.me).isNone
     else k.origin == c.me && (leg == 0 || (c.parent 0 c.me).isNone))

/-- CHUNK_SEND: the member takes up its part of the chunk, and sends what is ready and has credit. -/
def chunkSend (e group seq leg g : Nat) : Act Unit := do
  let s ← get
  match s.coll e group seq with
  | none => pure ()
  | some c =>
    match c.chunk g, c.go with
    | some k, true => do
      whenA (c.ownable leg k) (ownChunk e c leg k)
      sendReady e group seq (c.ready.length + 64)
    | _, _ => pure ()

/-! ## Received chunks -/

/-- Does a chunk header match the collective (step 3 of Table 11-4), coming from this rank on this leg? -/
def Coll.headerOk (c : Coll) (leg rank : Nat) (h : Line0) : Bool :=
  h.digest == c.digest && h.code == 0 && (c.fromRank leg rank).contains h.index &&
    (match c.chunk h.index with
     | none => false
     | some k => h.origin == k.origin && (if c.cd.op = 4 then decide (h.elems ≤ k.n) else h.elems == k.n))

/-- A malformed chunk, or a header that fails its check (Table 11-9). -/
def malformed (e : Nat) (c : Coll) (rank digest : Nat) : Act Unit := do
  logMismatch e c (c.nodeOf rank) digest
  failColl e c 9 none (some (c.nodeOf rank))

/-- The elements of a reduce-leg body, none if it is malformed. -/
def Coll.readReduce (c : Coll) (k : Chunk) (rank : Nat) (body : List Byte) (bad : List Nat) : Option (List (Option ExAcc)) :=
  if c.cd.wire = 2 ∧ (c.kids k.shard rank).isEmpty then
    if body.length ≠ 4 * k.n then none
    else some (roundedTerms c.isL k.n body fun i => bad.contains (4 * i / 32))
  else decodeCarries c.isL bad k.n 0 body

/-- OP 4: a member's share of a contributor's block is noted. -/
def noteBlock (e : Nat) (c : Coll) (h : Line0) (drop : Nat) : Act Unit :=
  updColl e c.group c.seq fun c =>
    let old := (c.blocks.find? fun (r, _, _) => r == h.origin).getD (h.origin, 0, drop)
    { c with blocks := (c.blocks.filter fun (r, _, _) => r != h.origin) ++ [(h.origin, old.2.1 + h.elems, drop)] }

/-- A whole reduce-leg chunk from a rank. -/
def reduceChunk (e : Nat) (c : Coll) (rank : Nat) (h : Line0) (body : List Byte) (bad : List Nat) : Act Unit := do
  relayEvent e 0x307 1
  let body := body.take h.bytes
  if !c.headerOk 0 rank h ∨ body.length < h.bytes then malformed e c rank h.digest
  else
    match c.chunk h.index with
    | none => pure ()
    | some k =>
      if c.cd.op = 4 then
        if body.length < c.srcTd.plainLen h.elems ∨ (body.length ≠ c.srcTd.plainLen h.elems ∧ !isMx c.srcTd.fmt) then
          malformed e c rank h.digest
        else do
          stageIn e c 0 rank k body bad
          match c.parent 0 c.me with
          | some p => do
            stageOut e c 0 p k body bad
            makeReady e c [{ g := k.g, leg := 0, rank := p, origin := h.origin, elems := h.elems, aux := h.aux
                             body := body, bad := bad }]
          | none => do
            noteBlock e c h h.aux
            rootBlock e c k h.elems h.aux body bad
            releaseKids e c k
      else
        match c.readReduce k rank body bad with
        | none => malformed e c rank h.digest
        | some l =>
          let old := c.gather.find? (·.g = k.g)
          if (old.map (·.kids.contains rank)).getD false then pure ()
          else do
            stageIn e c 0 rank k body bad
            let sums := match old with
              | none => l
              | some o => List.zipWith mergeCarry o.sums l
            let kids := ((old.map (·.kids)).getD []) ++ [rank]
            updColl e c.group c.seq fun c =>
              { c with gather := (c.gather.filter (·.g ≠ k.g)) ++ [⟨k.g, kids, sums⟩] }
            whenA ((c.kids k.shard c.me).all kids.contains) do
              let own ← ownContribs c k
              let s ← get
              match s.coll e c.group c.seq with
              | none => pure ()
              | some c => summed e c k (List.zipWith mergeCarry sums own)

/-- A whole broadcast-leg chunk from the parent: it is written to DST and passed on (step 8). -/
def broadcastChunk (e : Nat) (c : Coll) (rank : Nat) (h : Line0) (body : List Byte) (bad : List Nat) : Act Unit := do
  relayEvent e 0x307 1
  let body := body.take h.bytes
  let t := c.dstTd
  if !c.headerOk 1 rank h ∨ body.length < h.bytes then malformed e c rank h.digest
  else
    match c.chunk h.index with
    | none => pure ()
    | some k =>
      if c.done.contains (2 * k.g + 1) then pure ()
      else
        let fwd := c.down k h.flags h.elems h.aux body bad
        let finish := fun (p : Bool) => do
          chunkDone e c [1] k.g (trunc 7 h.flags) (p || !bad.isEmpty)
          makeReady e c fwd
          whenA fwd.isEmpty (grant e c.group c.seq rank 1)
        if c.cd.op = 2 ∧ t.exact then
          match decodeCarries c.isL bad k.n 0 body with
          | none => malformed e c rank h.digest
          | some l => do
            stageIn e c 1 rank k body bad
            let codes ← mapA l fun a => storeExact c.isL t.exactL (a.getD {})
            let p ← writePlain t k.first codes (l.map Option.isNone) []
            finish (p || l.any Option.isNone)
        else if body.length < t.plainLen k.n then malformed e c rank h.digest
        else do
          stageIn e c 1 rank k body bad
          whenA (c.cd.op == 4) (noteBlock e c h h.aux)
          let x := leNat body
          let w := t.ebits
          let first := if c.cd.op = 4 then k.origin * c.cd.count + k.first else k.first
          let p ← writePlain t first ((List.range k.n).map (plainCode w x)) ((List.range k.n).map (plainLost w bad))
            ((body.drop (t.plainLen k.n)).map (·.toNat))
          finish p

/-- Has a collective done all its work at this member: every chunk it takes part in is written or passed on, and every
message it sent is acknowledged? -/
def Coll.workDone (c : Coll) : Bool :=
  c.go && c.ready.isEmpty && c.flying.isEmpty &&
    c.chunks.all fun k =>
      (!c.cd.reduces || c.done.contains (2 * k.g)) &&
      ((c.cd.reduces && c.cd.op != 2) || c.done.contains (2 * k.g + 1)) &&
      (c.cd.op != 4 || k.origin != c.me || c.own.contains k.g)

/-! ## The commands -/

/-- A message of an active collective, from one of its members. -/
def withColl (e group src : Nat) (line0 : List Byte) (f : Coll → Nat → Line0 → Act Unit) : Act Unit := do
  let s ← get
  let h := Line0.parse line0
  match s.coll e group h.seq with
  | none => pure ()
  | some c =>
    match c.rankOf src with
    | none => pure ()
    | some r => f c r h

/-- COLLECTIVE (R281): the descriptor goes to its engine. -/
def collectiveWork (core : Nat) : Work := fun f => do
  let cd := CD.parse f.od
  let s ← get
  let group := bits f.w1 15 0
  let g := s.groupRec group
  engEventX core 3 0x1B3 1
  let aux := f.aux
  let c : Coll :=
    { group := group, seq := cd.seq, ring := some (core, f.x), od := f.od, src := aux.getD 0 0
      dst := if cd.readsDst g then aux.getD 1 0 else 0
      counts := if cd.op = 4 then aux.getD 2 0 else 0, core := core, step := f.step, limit := f.limit }
  putInFlight core 3 (((s.ring core 3).infl.findIdx? (·.x = f.x)).getD 0) f
  enqueue c
  let s ← get
  pure (((s.ring core 3).infl.find? (·.x = f.x)).getD f)

/-- R281: COLLECTIVE. -/
def execCollective (core : Nat) (s : State) : Out := s.doing (runOp core 3 0x88 (withPlay core 3 (collectiveWork core)))

/-- R282: a queued collective starts. -/
def execCollectiveStart (eng : Nat) (s : State) : Out := s.doing (startNext eng)

/-- R275: a group record is cached. -/
def execGroupRecordFetchDone (eng group : Nat) (s : State) : Out := s.doing (fetchGroup eng group)

/-- AGREE from a child (R289). -/
def hearAgree (eng group src : Nat) (line0 : List Byte) : Act Unit :=
  withColl eng group src line0 fun c r h =>
    whenA (h.code == 0 && (c.kids 0 c.me).contains r && !c.agreeSent && !(c.agreed.any (·.rank = r))) do
      let a : Agreed :=
        { rank := r, bits := trunc 2 h.flags, bad := if h.digest = c.digest then none else some (src, h.digest)
          dis := if bit h.flags 3 then some (trunc 12 h.origin, h.bytes + h.aux <<< 32) else none }
      updColl eng c.group c.seq fun c => { c with agreed := c.agreed ++ [a] }
      agree 64 eng { c with agreed := c.agreed ++ [a] }

/-- A chunk is complete at this member (R264, R285). One that comes before this member's own GO waits for it in its buffer. -/
def takeChunk (eng leg : Nat) (c : Coll) (rank : Nat) (line0 body : List Byte) (bad : List Nat) : Act Unit :=
  let h := Line0.parse line0
  if !c.go then updColl eng c.group c.seq fun c => { c with early := c.early ++ [(leg, rank, line0, body, bad)] }
  else if leg = 0 then reduceChunk eng c rank h body bad
  else broadcastChunk eng c rank h body bad

/-- After GO, the chunks that came before it are taken up in the order in which they came. -/
def takeEarly (e group seq : Nat) : Act Unit := do
  let s ← get
  match s.coll e group seq with
  | none => pure ()
  | some c => do
    updColl e group seq fun c => { c with early := [] }
    forA c.early fun (leg, rank, line0, body, bad) => do
      let s ← get
      match s.coll e group seq with
      | none => pure ()
      | some c => takeChunk e leg c rank line0 body bad

/-- GO from the parent (R289). -/
def hearGo (eng group src : Nat) (line0 : List Byte) : Act Unit :=
  withColl eng group src line0 fun c r h =>
    whenA (h.code == 1 && c.parent 0 c.me == some r && c.agreeSent && !c.go) do
      let ended ← goOn eng c (trunc 2 h.flags)
      if ended then afterEnd c.group (agree 64) else takeEarly eng c.group c.seq

/-- NOGO from the parent (R289). -/
def hearNogo (eng group src : Nat) (line0 : List Byte) : Act Unit :=
  withColl eng group src line0 fun c r h =>
    whenA (h.code == 2 && c.parent 0 c.me == some r && !c.go) do
      noGo eng c (trunc 12 h.origin) (h.bytes + h.aux <<< 32)
      afterEnd c.group (agree 64)

/-- ABORT from a neighbour (R290). -/
def hearAbort (eng group src : Nat) (line0 : List Byte) : Act Unit :=
  withColl eng group src line0 fun c r h =>
    whenA (h.code == 3 && c.neighbours.contains r) (failColl eng c (trunc 16 h.elems) (some r) (some (trunc 12 h.origin)))

/-- CREDIT from a neighbour (R285). -/
def hearCredit (eng group src : Nat) (line0 : List Byte) : Act Unit :=
  withColl eng group src line0 fun c r h =>
    whenA (h.code == 4) do
      let leg := bits h.flags 2 2
      updColl eng c.group c.seq fun c =>
        { c with held := assocSet c.held r leg (max h.index ((assoc c.held r leg).getD 0)) }
      sendReady eng c.group c.seq (c.ready.length)

/-- A chunk message from a member (R285). -/
def hearChunk (eng group src leg : Nat) (line0 body : List Byte) (bad : List Nat) : Act Unit :=
  withColl eng group src line0 fun c r _ => takeChunk eng leg c r line0 body bad

/-- A class 1 message is complete: the transport hands it to the engine that its TAG names (R264, R287). A message whose line 0 is
poisoned cannot be attributed, and is discarded (log 70). -/
def relayMessage (src tag : Nat) (lines : List (Nat × Bool × List Byte)) : Act Unit :=
  let eng := bits tag 13 12
  let group := bits tag 31 16
  let line := fun i => (lines.find? fun (o, _, _) => o == i).map Prod.snd
  let n := (lines.map Prod.fst).foldl max 0
  match line 0 with
  | some (false, line0) =>
    let body := (List.range' 1 n).flatMap fun i => ((line i).map Prod.snd).getD (List.replicate 32 0#8)
    let bad := (List.range' 1 n).filterMap fun i => if ((line i).map Prod.fst).getD false then some (i - 1) else none
    match bits tag 15 14 with
    | 0 => hearChunk eng group src 0 line0 body bad
    | 1 => hearChunk eng group src 1 line0 body bad
    | 2 =>
      match (Line0.parse line0).code with
      | 0 => hearAgree eng group src line0
      | 1 => hearGo eng group src line0
      | 2 => hearNogo eng group src line0
      | 3 => hearAbort eng group src line0
      | 4 => hearCredit eng group src line0
      | _ => pure ()
    | _ => pure ()
  | _ => pure ()

/-- Does an engine take a class 1 message of a node, by its line 0 (R264, R290)? It refuses one for a SEQ that it has not started and
that is not behind, and a chunk for which it has granted no buffer. -/
def M.relayAccepts (s : M) (src tag : Nat) (h : Line0) : Bool :=
  let e := bits tag 13 12
  let group := bits tag 31 16
  let leg := bits tag 15 14
  match s.coll e group h.seq with
  | some c =>
    match c.rankOf src with
    | none => true
    | some r =>
      let l := c.fromRank leg r
      decide (2 ≤ leg) || !l.contains h.index || decide (l.idxOf h.index < (assoc c.given r leg).getD c.cd.inflightN)
  | none => s.last e group == some h.seq || s.behind e group h.seq

/-- R289: AGREE from a child. -/
def execAgree (eng group src : Nat) (line0 : List Byte) (s : State) : Out := s.doing (hearAgree eng group src line0)

/-- R289: GO from the parent. -/
def execGo (eng group src : Nat) (line0 : List Byte) (s : State) : Out := s.doing (hearGo eng group src line0)

/-- R289: NOGO from the parent. -/
def execNogo (eng group src : Nat) (line0 : List Byte) (s : State) : Out := s.doing (hearNogo eng group src line0)

/-- R290: ABORT from a neighbour. -/
def execAbortMessage (eng group src : Nat) (line0 : List Byte) (s : State) : Out := s.doing (hearAbort eng group src line0)

/-- R285: CREDIT from a neighbour. -/
def execCredit (eng group src : Nat) (line0 : List Byte) (s : State) : Out := s.doing (hearCredit eng group src line0)

/-- R285: a chunk is encoded and sent. -/
def execChunkSend (eng group seq leg g : Nat) (s : State) : Out := s.doing (chunkSend eng group seq leg g)

/-- R285: a reduce-leg chunk is complete at this member. -/
def execReduceChunkReceived (eng group src : Nat) (line0 body : List Byte) (poisoned : List Nat) (s : State) : Out :=
  s.doing (hearChunk eng group src 0 line0 body poisoned)

/-- R285: a broadcast-leg chunk is complete at this member. -/
def execBroadcastChunkReceived (eng group src : Nat) (line0 body : List Byte) (poisoned : List Nat) (s : State) : Out :=
  s.doing (hearChunk eng group src 1 line0 body poisoned)

/-- R293: a collective that has done its work here completes. -/
def execCollectiveComplete (eng group seq : Nat) (s : State) : Out := s.doing do
  let m ← get
  match m.coll eng group seq with
  | none => pure ()
  | some c => whenA c.workDone (finishColl eng c false c.okStatus)

/-- Is a macro-op the remote SNAPSHOT x, with its work under way (R168)? -/
def InFlight.shipping (f : InFlight) (x : Nat) : Bool := f.x == x && f.rcd.op == 0x8A && f.rcd.async && f.started && !f.done

/-- R290, R168: the TIMEOUT_MS that a collective, or a remote SNAPSHOT, has latched (R318) pass without progress. -/
def execCollectiveProgressTimeout (eng group seq idleMs : Nat) (s : State) (snapshot : Option (Nat × Nat) := none) : Out :=
  s.doing do
  let m ← get
  match snapshot with
  | none =>
    match m.coll eng group seq with
    | none => pure ()
    | some c => whenA (decide (c.limit ≤ idleMs)) (failColl eng c 0xA none none)
  | some (core, x) =>
    match (m.ring core 3).infl.find? (·.shipping x) with
    | none => pure ()
    | some f => whenA (decide (f.limit ≤ idleMs)) do
      stopMessages fun o => o == .snapshot core x
      endRingOp core x 0xA 0 0

/-- A write of RLY_CQ_DOORBELL (R283, R296). -/
def cqDoorbell (value : Nat) : Act Unit := do
  let s ← get
  let group := bits value 15 0
  let w := bits value 63 32
  let g := s.groupRec group
  let q := (s.rly.queues.find? (·.group = group)).getD { group := group }
  whenA (bit (s.reg Reg.mgtReadyMap) 124 && g.cqEn && decide (trunc 32 (w + 2 ^ 32 - q.rd) ≤ 2 ^ g.cqLog2)) do
    modify fun s => { s with rly := { s.rly with queues :=
      (s.rly.queues.filter (·.group ≠ group)) ++ [{ q with wr := w }] } }
    takeQueue group 4096

/-- R283: RLY_CQ_DOORBELL. -/
def execRlyCqDoorbell (value : Nat) (s : State) (writer : Nat := 0) : Out :=
  s.doing (regAction writer false (.rlyCqDoorbell value writer) (cqDoorbell value))

/-- A write of RLY_GCACHE_FLUSH (R296): the record is dropped while no collective of the group is active or queued. -/
def gcacheFlush (value : Nat) : Act Unit := do
  let s ← get
  let group := bits value 15 0
  whenA ((List.range 4).all fun e => (s.eng e).colls.all fun c => c.group != group)
    (forA (List.range 4) fun e => updEng e fun g => { g with cache := g.cache.filter (·.1 ≠ group) })

/-- R274: RLY_GCACHE_FLUSH. -/
def execRlyGcacheFlush (value : Nat) (s : State) (writer : Nat := 0) : Out :=
  s.doing (regAction writer false (.rlyGcacheFlush value writer) (gcacheFlush value))

/-! ## SNAPSHOT (R168, R265) -/

/-- The lines of the footprint of DST, relative to its base, filled from SRC: what a remote SNAPSHOT sends. Bytes of a line
that the view does not cover are free values; a line with a poisoned element travels poisoned. -/
def snapshotLines (d x : TD) (kd ks : Bool) : Act (List (Nat × List Byte)) := do
  let bad ← readLines (x.lines ks)
  let s ← get
  let runs ← mapA (List.range d.outer) fun o => do
    let codes := (List.range d.inner).map fun i => let (r, c) := if d.trans then (i, o) else (o, i); s.code x r c
    let n := d.runBytes kd
    let tail ← mapA (List.range ((32 - n % 32) % 32)) fun _ => freeVal 8
    let bs := leBytes n (packCodes d.ebits codes) ++ tail.map (BitVec.ofNat 8)
    let lost := (List.range d.inner).filter fun i =>
      let (r, c) := if d.trans then (i, o) else (o, i); x.elemBad ks bad r c
    pure (messageLines (o * d.stride / 32) bs (lost.flatMap (plainLines d.ebits)))
  pure (runs.flatMap id)

/-- SNAPSHOT: a local copy, or a class 2 message to another module. -/
def snapshotWork (core : Nat) : Work := fun f => do
  let d := f.td 0
  let x := f.td 1
  let node := bits f.w2 15 0
  let kd := f.rcd.kdim && d.hasScales
  let ks := f.rcd.kdim && x.hasScales
  if node = 0xFFFF then do
    farBeats core 3 0x1B0 (d.far kd) d.dataBytes
    let p ← copyView d x kd ks (fun i j => some (i, j)) fun _ _ => false
    pure (f.finish {} p)
  else do
    let lines ← snapshotLines d x kd ks
    let scales ← if d.hasScales then do
        let n := x.oExt ks * ceilDiv (x.kExt ks) 32
        let bad ← readLines (linesOf x.auxBase n)
        let s ← get
        pure (messageLines ((d.auxBase - d.base) / 32) (s.bytes x.auxBase n) (bad.map (· - x.auxBase / 32)))
      else pure []
    postMessage (trunc 12 node)
      { cls := 2, tag := d.base / 1024, owner := .snapshot core f.x
        lines := (lines ++ scales).mergeSort fun a b => decide (a.1 ≤ b.1) }
    pure f

/-- R168: SNAPSHOT. -/
def execSnapshot (core : Nat) (s : State) : Out := s.doing (runOp core 3 0x8A (withPlay core 3 (snapshotWork core)))

end Sys2Proof.Machine
end

