-- ==== Sys2Proof/Machine/Jobs.lean ====
section
/-! DEFINITION. Ends of work: aborts of records (R135, R136) and of whole jobs (R137), the completion of a host job entry
(R305, R310, R312, R313, R316), and the ends that firmware brings about (R189, R206). -/

namespace Sys2Proof.Machine

/-! ## Aborts of records (R136) -/

/-- x is at or after y in a free-running count of 32 bits. -/
def atOrAfter (x y : Nat) : Bool := decide (trunc 32 (x + 2 ^ 32 - y) < 2 ^ 31)

/-- The active or queued collective that a record of a core's S ring issued, with its engine. -/
def M.collOf (s : M) (core x : Nat) : Option (Nat × Coll) :=
  (List.range 4).findSome? fun e => ((s.eng e).colls.find? fun c => c.ring == some (core, x)).map fun c => (e, c)

/-- Has a COLLECTIVE's completion been latched before an abort (Table 11-9)? -/
def InFlight.latched (f : InFlight) : Bool := f.rcd.op == 0x88 && f.done && !f.aborted && f.own != 8

/-- An abort reaches record x in flight (third row of Table 05-10; R80, R239, R266, R290): it has nothing left to do, its
outputs are undefined and its slot is empty. -/
def abortRecord (core e x : Nat) : Act Unit := do
  let s ← get
  match (s.ring core e).infl.find? (·.x = x) with
  | none => pure ()
  | some f =>
    if f.aborted || f.latched then pure ()
    else do
      updRing core e fun g => { g with infl := g.infl.map fun f =>
        if f.x = x then { f with started := true, done := true, aborted := true, held := false, pred := [], obs := [] }
        else f }
      match f.slot with
      | none => pure ()
      | some k => do
        missShadow core k
        updSlot core k fun _ => {}
      if f.rcd.op = 0x88 then
        match s.collOf core x with
        | none => pure ()
        | some (n, c) => failColl n c 4 none none
      else if f.rcd.op = 0x89 then whenA f.upd.released (scrambleUpdate f)
      else do
        whenA (f.rcd.op == 0x8A) (stopMessages fun o => o == .snapshot core x)
        scrambleOuts f.outs

/-- The record numbers that are committed and have not passed the arbitration point. -/
def M.unissued (s : M) (core e : Nat) : List Nat :=
  let r := s.reg (Reg.coreRingRd core e)
  (List.range (trunc 32 (s.reg (Reg.coreRingWr core e) + 2 ^ 32 - r))).map fun i => trunc 32 (r + i)

/-- An abort of scope 0, or 1 (`later`), is taken at the arbitration point (R136): outcomes by Table 05-10, the result in
CORE_RING_ABORT_RESULT once the record named has retired. -/
def abortRecords (core e index : Nat) (later : Bool) : Act Unit := do
  let s ← get
  let w := s.reg (Reg.coreRingWr core e)
  if atOrAfter index w then wr (Reg.coreRingAbortResult core e) 0
  else do
    let hit := fun x => x == index || (later && atOrAfter x index)
    let flight := ((s.ring core e).infl.filter fun f => hit f.x).map (·.x)
    let waits := (s.unissued core e).filter hit
    let gone := !((s.ring core e).infl.any fun f => f.x == index && !f.latched) && !waits.contains index
    updRing core e fun g => { g with watch := if gone then none else some index }
    wr (Reg.coreRingAbortResult core e) (if gone then 2 <<< 30 + 0xD else 1 <<< 30)
    forA flight (abortRecord core e)
    updRing core e fun g => { g with marks := g.marks ++ waits.filter fun x => !g.marks.contains x }
    settle core e

/-- R136, scope 0. -/
def execAbortRecord (core ring index : Nat) (s : State) (writer : Nat := 0) : Out :=
  s.doing (coreAction writer core (.abortRecord core ring index writer) (abortRecords core ring index false))

/-- R136, scope 1. -/
def execAbortRecordAndLater (core ring index : Nat) (s : State) (writer : Nat := 0) : Out :=
  s.doing (coreAction writer core (.abortRecordAndLater core ring index writer) (abortRecords core ring index true))

/-! ## Host job queues: entries and completions -/

/-- A host job queue beside its registers. -/
def M.queue (s : M) (q : Nat) : HostQ := Tab.read HostQ.init s.hostQ q

/-- Change a host job queue. -/
def updQueue (q : Nat) (f : HostQ → HostQ) : Act Unit :=
  modify fun s => { s with hostQ := Tab.put HostQ.init s.hostQ q (f (s.queue q)) }

/-- LOG2_SIZE of a queue, as it is read. -/
def M.qLog2 (s : M) (q : Nat) : Nat := max 4 (min 16 (bits (s.reg (Reg.hstQCtl q)) 20 16))

/-- Fields of a job entry (Table 12-2). -/
def Job.kind (j : Job) : Nat := bits j.entry 7 0
/-- STATE_EN of the entry (Table 12-2). -/
def Job.stateEn (j : Job) : Bool := bit j.entry 10
/-- EVAL. -/
def Job.eval (j : Job) : Bool := bit j.entry 9
/-- SERIAL. -/
def Job.serial (j : Job) : Bool := bit j.entry 8
/-- TAG. -/
def Job.tag (j : Job) : Nat := bits j.entry 63 32
/-- CORES: bit n names logical core n. -/
def Job.coreBits (j : Job) : Nat := bits j.entry 191 64
/-- The ready bits that the entry requires. -/
def Job.requires (j : Job) : Nat := bits j.entry 319 192
/-- ENTRY: where the control program starts. -/
def Job.pc (j : Job) : Nat := bits j.entry 361 320
/-- ARG. -/
def Job.arg (j : Job) : Nat := bits j.entry 447 384
/-- STATE_ADDR. -/
def Job.stateAddr (j : Job) : Nat := bits j.entry 489 448
/-- The seed of the entry. -/
def Job.seed (j : Job) : Nat := bits j.entry 767 512
/-- ADMIT_MS. -/
def Job.admitMs (j : Job) : Nat := bits j.entry 783 768
/-- RUN_MS. -/
def Job.runMs (j : Job) : Nat := bits j.entry 831 800

/-- The logical cores that an entry names, in rising ID. -/
def Job.cores (j : Job) : List Nat := (List.range 128).filter (bit j.coreBits)

/-- The host completion record of Table 12-3. -/
def Job.record (j : Job) (log2 status core result step runMs : Nat) : List Byte :=
  leBytes 64 (trunc 16 status + j.kind <<< 16 + j.tag <<< 32 + j.x <<< 64 + core <<< 96 + trunc 64 result <<< 128
    + trunc 40 step <<< 192 + satU 32 j.wait <<< 256 + satU 32 runMs <<< 288
    + (1 - (j.x >>> log2) % 2) <<< 511)

/-- Signal vector q for a completion (R316). -/
def signalQueue (q : Nat) : Act Unit := do
  let s ← get
  let c := s.reg (Reg.hstQCtl q)
  whenA (bit c 29) do
    if (s.queue q).holding then updQueue q fun h => { h with owed := true }
    else do
      hostEmit (.msix q)
      updQueue q fun h => { h with holding := bits c 15 0 != 0 }

/-- DONE moves over every contiguous written completion (R305), `fuel` of them at most. -/
def advanceDone (q : Nat) : Nat → Act Unit
  | 0 => pure ()
  | fuel + 1 => do
    let s ← get
    let d := s.reg (Reg.hstQDone q)
    whenA ((s.queue q).written.contains d) do
      updQueue q fun h => { h with written := h.written.filter (· != d) }
      wr (Reg.hstQDone q) (trunc 32 (d + 1))
      advanceDone q fuel

/-- The writes of a completion (R312): one ItoMWr of the line where the queue asks for it and the link is not PCIe-only (R298), or
two posted writes, the last word second. -/
def completionWrites (itom : Bool) (a : Nat) (r : List Byte) : List Output :=
  if itom then [.hostWrite true a r] else [.hostWrite false a (r.take 60), .hostWrite false (a + 60) (r.drop 60)]

/-- The completion of an entry is taken at the queue's arbitration point (R312 to R314), and written. While the link is down it
waits as one write of the line, is counted, and moves DONE only when it is written (R305, Table 12-7). -/
def complete (q : Nat) (j : Job) (status core result step runMs : Nat) : Act Unit := do
  let s ← get
  let log2 := s.qLog2 q
  let a := s.reg (Reg.hstQCmpl q) + 64 * (j.x % 2 ^ log2)
  let r := j.record log2 status core result step runMs
  let link := bits (s.reg Reg.hstStatus) 31 30
  let itom := bit (s.reg (Reg.hstQCtl q)) 30
  whenA (link == 0) (addReg 32 Reg.hstCmplHeld 1)
  forA (if link = 0 then [.hostWrite itom a r] else completionWrites (itom && link != 1) a r) hostEmit
  updQueue q fun h => { h with jobs := h.jobs.filter (·.x != j.x), marks := h.marks.filter (· != j.x)
                               written := if link = 0 then h.written else h.written ++ [j.x]
                               late := if link = 0 then h.late ++ [j.x] else h.late
                               watch := if h.watch = some j.x then none else h.watch }
  whenA ((s.queue q).watch == some j.x) (wr (Reg.hstQAbortResult q) (2 <<< 30 + trunc 16 status))
  advanceDone q ((s.queue q).written.length + 1)
  signalQueue q

/-- The step register of the lowest core that an entry names. -/
def M.jobStep (s : M) (j : Job) : Nat := s.reg (Reg.coreStep (j.cores.headD 0))

/-! ## The end of a job (R137) -/

/-- The oldest in-flight record retires without throwing its pass, and so on, n of them. -/
def retireAll (core e : Nat) : Nat → Act Unit
  | 0 => pure ()
  | n + 1 => do
    let s ← get
    match (s.ring core e).infl with
    | [] => pure ()
    | f :: _ => do
      retireNow core e 0 f
      retireAll core e n

/-- Scope 2 on one ring: what is in flight is aborted, every committed record retires with STATUS_ABORTED and no pass is
thrown; RD and RET equal WR, RUN is cleared. -/
def endRing (core e : Nat) : Act Unit := do
  let s ← get
  forA ((s.ring core e).infl.map (·.x)) (abortRecord core e)
  let behind := (s.unissued core e).map fun x => InFlight.abortedAt x ((s.peekRec core e x).getD ⟨0, 0, 0, 0⟩)
  updRing core e fun g => { g.emptied with infl := g.infl ++ behind, watch := g.watch }
  let s ← get
  retireAll core e (s.ring core e).infl.length
  let w := s.reg (Reg.coreRingWr core e)
  wr (Reg.coreRingRd core e) w
  wr (Reg.coreRingRet core e) w
  wr (Reg.coreRingCtl core e) 0

/-- Scope 2 on one logical core: its rings end, its pass counts are 0, what it still threw is withdrawn, its control core
stops, and no job holds it. -/
def endCore (core : Nat) : Act Unit := do
  forA (List.range 4) (endRing core)
  forA (List.range 256) fun p => wr (Reg.corePassCount core p) 0
  let s ← get
  forA (List.range s.nCores) fun n =>
    updCore n fun c => { c with heldPasses := c.heldPasses.filter fun (k, _, _, _) => k != core }
  updCore core fun c => { c with job := none, exited := none, ctl := { c.ctl with running := false } }

/-- The running job of an entry. -/
def M.runningJob (s : M) (q x : Nat) : Option Job := (s.queue q).jobs.find? fun j => j.x == x && j.running

/-- A running job ends as a scope-2 abort, and completes with a status. -/
def endJob (q x status core runMs : Nat) : Act Unit := do
  let s ← get
  match s.runningJob q x with
  | none => pure ()
  | some j => do
    let step := s.jobStep j
    forA (j.cores.filter (· < s.nCores)) endCore
    complete q j status core 0 step runMs

/-- R137: an abort of scope 2. The completion's RUN_TIME is left open. -/
def abortJob (core e : Nat) : Act Unit := do
  let s ← get
  match (s.core core).job with
  | none => wr (Reg.coreRingAbortResult core e) 0
  | some (q, x) => do
    let t ← freeVal 32
    endJob q x 4 0xFF t
    wr (Reg.coreRingAbortResult core e) (2 <<< 30 + 4)

/-- R137: scope 2. -/
def execAbortJob (core ring : Nat) (s : State) (writer : Nat := 0) : Out :=
  s.doing (coreAction writer core (.abortJob core ring writer) (abortJob core ring))

/-- The jobs on one logical core end with a status, their completion naming the core (R117, R189, R357). -/
def endJobsOn (core status : Nat) : Act Unit := do
  let s ← get
  match (s.core core).job with
  | none => pure ()
  | some (q, x) => do
    let t ← freeVal 32
    endJob q x status core t

/-! ## Control cores -/

/-- Is an access of a control core of `size` bytes (0: a fetch) one that raises an access fault (R189, R425)? -/
def accessFault (addr size : Nat) : Bool :=
  let register := decide (0x20000000000 ≤ addr) && decide (addr < 0x20010000000)
  if register then size == 0 || !((size == 4 || size == 8) && addr % size == 0)
  else !inRegion addr (max 1 size)

/-- R189, R206: a control core meets an unmapped address, or a poisoned line; the firmware ends the jobs on its core. -/
def execControlCoreFault (core addr size : Nat) (s : State) : Out := s.doing do
  let m ← get
  whenA (m.core core).ctl.running do
    if accessFault addr size then endJobsOn core 1
    else if inRegion addr (max 1 size) then do
      let (p, _) ← readBytes addr (max 1 size)
      if p then endJobsOn core 3 else set m
    else pure ()

end Sys2Proof.Machine
end

