-- ==== Sys2Proof/Machine/Host.lean ====
section
/-! DEFINITION. The host interface (chapter 12): doorbells, fetch, admission and completion of jobs, aborts and resets of
queues, interrupts, link events, configuration space, IDE loss, and the mailbox. -/

namespace Sys2Proof.Machine

/-! ## Job queues -/

/-- An action on queue q by a register of it that the host, or a control core, has written (R315, R319, R321, R425). -/
def queueAction (writer q : Nat) (i : Instr) (a : Act Unit) : Act Unit := regAction writer false i (whenA (decide (q < 64)) a)

/-- Fields of HST_CTL, of which 0 is read as 1 (R321): the push limit in µs, and the admission limit in ms of an entry that names
none. -/
def M.pushLimit (s : M) : Nat := max 1 (bits (s.reg Reg.hstCtl) 31 16)
/-- ADMIT_DEFAULT_MS. -/
def M.admitDefault (s : M) : Nat := max 1 (bits (s.reg Reg.hstCtl) 15 0)

/-- A doorbell (R321): accepted if it lies between the old WR and DONE + 2^LOG2_SIZE. -/
def doorbell (q w : Nat) : Act Unit := do
  let s ← get
  let d := s.reg (Reg.hstQDone q)
  let from' := fun x => trunc 32 (x + 2 ^ 32 - d)
  whenA (decide (from' (s.reg (Reg.hstQWr q)) ≤ from' w) && decide (from' w ≤ 2 ^ s.qLog2 q))
    (wr (Reg.hstQWr q) (trunc 32 w))

/-- R321: HST_Q_DOORBELL. -/
def execHstQDoorbell (q w : Nat) (s : State) (writer : Nat := 0) : Out :=
  s.doing (queueAction writer q (.hstQDoorbell q w writer) (doorbell q w))

/-- Does an address lie in a region of Table 08-1? -/
def mapped (a : Nat) : Bool := inRegion a 1 || (decide (0x20000000000 ≤ a) && decide (a < 0x20010000000))

/-- Does a fetched entry keep the rules of R307 that need no memory? A MARKER has none. -/
def Job.ok (j : Job) (s : M) : Bool :=
  let ev := s.reg Reg.mgtEvalCores
  j.kind == 1 || (j.kind == 0 && !j.cores.isEmpty && j.cores.all (· < s.nCores)
    && j.cores.all (fun n => bit ev n == j.eval) && mapped j.pc && j.pc % 2 == 0
    && (!j.stateEn || (j.stateAddr % 32 == 0 && inRegion j.stateAddr 64)))

/-- The fetch of entry FETCHED at the queue's arbitration point (R305, R307, R314), where the job latches its admission limit (R306,
R318). -/
def fetchEntry (q : Nat) (bytes : List Byte) (poison : Bool) : Act Unit := do
  let s ← get
  let x := s.reg (Reg.hstQFetched q)
  whenA (bit (s.reg (Reg.hstQCtl q)) 31 && x != s.reg (Reg.hstQWr q) && bits (s.reg Reg.hstStatus) 31 30 != 0) do
    emit (.hostRead (s.reg (Reg.hstQBase q) + 128 * (x % 2 ^ s.qLog2 q)) 128)
    wr (Reg.hstQFetched q) (trunc 32 (x + 1))
    let j : Job := { x := x, entry := leNat bytes }
    let j := { j with limit := if j.admitMs = 0 then s.admitDefault else j.admitMs }
    updQueue q fun h => { h with jobs := h.jobs ++ [j] }
    if (s.queue q).marks.contains x then complete q j 4 0xFF 0 0 0
    else if poison then complete q j 3 0xFF 0 0 0
    else if !j.ok s then complete q j 1 0xFF 0 0 0
    else pure ()

/-- R305: JOB_ENTRY_FETCH. -/
def execJobEntryFetch (q : Nat) (entry : List Byte) (poison : Bool) (s : State) : Out := s.doing (fetchEntry q entry poison)

/-- Has every entry before x completed? -/
def M.earlierDone (s : M) (q x : Nat) : Bool := s.reg (Reg.hstQDone q) == x

/-- R306: a MARKER completes once every earlier entry has. -/
def execMarkerComplete (q x : Nat) (s : State) : Out := s.doing do
  let m ← get
  match (m.queue q).jobs.find? (fun j => j.x == x && j.kind == 1) with
  | none => pure ()
  | some j => whenA (m.earlierDone q x) (complete q j 0 0xFF 0 0 0)

/-- A RUN job fetched and not admitted. -/
def M.waitingJob (s : M) (q x : Nat) : Option Job := (s.queue q).jobs.find? fun j => j.x == x && !j.running && j.kind == 0

/-- Is every core that a job names free? -/
def M.coresFree (s : M) (j : Job) : Bool := j.cores.all fun n => (s.core n).job.isNone

/-- Are the job's required bits set: those of REQUIRES and of its cores (R308)? -/
def M.requiredSet (s : M) (j : Job) : Bool :=
  (j.requires ||| j.coreBits) &&& s.reg Reg.mgtReadyMap == (j.requires ||| j.coreBits)

/-- Can a job of queue q be admitted (R308)? -/
def M.admissible (s : M) (q : Nat) (j : Job) : Bool :=
  !j.running && j.kind == 0 && s.coresFree j && s.requiredSet j && (!j.serial || s.earlierDone q j.x) && !s.board.stopped

/-- The job that is admitted next (R308): that of the lower queue number, and within one queue of the lower entry number. DEDUCED
(log 105): admission does not wait, so the jobs that are admissible at one step became so in one cycle. -/
def M.nextAdmitted (s : M) : Option (Nat × Nat) :=
  (List.range 64).findSome? fun q => ((s.queue q).jobs.find? (s.admissible q)).map fun j => (q, j.x)

/-- Prepare a named core, the k-th (R309): its job state is loaded by the caller. -/
def prepareCore (q : Nat) (j : Job) (core k : Nat) : Act Unit := do
  forA (List.range 256) fun p => wr (Reg.corePassCount core p) 0
  forA (List.range 4) fun e => do
    let s ← get
    let w := s.reg (Reg.coreRingWr core e)
    wr (Reg.coreRingRd core e) w
    wr (Reg.coreRingRet core e) w
    wr (Reg.coreRingCtl core e) 0
    updRing core e Ring.emptied
  updCore core fun c =>
    { c with job := some (q, j.x), exited := none, opens := 0
             ctl := { x := ((c.ctl.x.set 9 j.arg).set 10 k).set 11 j.tag, pc := j.pc, machine := false, running := true } }

/-- The job state of R309: the record at STATE_ADDR, or SEED with the defaults of R237 and a step of 0. -/
def seedRecord (seed : Nat) : Nat := seed + 0x47800000 <<< 352 + 2000 <<< 416 + 1 <<< 448

/-- Admission (R308, R309): all the named cores in one action. A poisoned or bad state record completes the job (R307). -/
def admitJob (q x waitUs : Nat) : Act Unit := do
  let s ← get
  match s.waitingJob q x with
  | none => pure ()
  | some j =>
    if s.nextAdmitted != some (q, x) then pure ()
    else do
      let (p, bs) ← if j.stateEn then readBytes j.stateAddr 64 else pure (false, leBytes 64 (seedRecord j.seed))
      let j := { j with wait := satU 32 waitUs }
      if p then complete q j 3 0xFF 0 0 0
      else if !jobRecordOk (leNat bs) then complete q j 1 0xFF 0 0 0
      else do
        forA j.cores.zipIdx fun (n, k) => do
          loadJobRecord n (leNat bs)
          prepareCore q j n k
        updQueue q fun h => { h with jobs := h.jobs.map fun k => if k.x = x then { j with running := true } else k }

/-- R308: JOB_ADMISSION. -/
def execJobAdmission (q x waitUs : Nat) (s : State) : Out := s.doing (admitJob q x waitUs)

/-- R308: the admission timer, which runs while the cores are free and a required bit is clear, reaches the job's limit. -/
def execAdmissionTimeout (q x : Nat) (s : State) (waitMs : Nat := 0) : Out := s.doing do
  let m ← get
  match m.waitingJob q x with
  | none => pure ()
  | some j => whenA (m.coresFree j && !m.requiredSet j && decide (waitMs ≥ j.limit)) (complete q j 8 0xFF 0 0 0)

/-- R310: the exit call of a control core. -/
def execEcallExit (core a0 a1 : Nat) (s : State) : Out := s.doing do
  let m ← get
  let c := m.core core
  whenA (c.job.isSome && c.ctl.running) do
    posCount (m.posOf core) 32 8 0x10B 1 core
    (updCore core fun c => { c with exited := some (a0, a1), ctl := { c.ctl with running := false } })

/-- The status that an exit call reports (R421). -/
def exitStatus (a0 : Nat) : Nat := if a0 = 0 then 0 else if trunc 16 a0 = 0 then 1 else trunc 16 a0

/-- Has a core made its exit call, and are its rings drained (R310)? -/
def M.coreDone (s : M) (n : Nat) : Bool :=
  (s.core n).exited.isSome
    && (List.range 4).all fun e => s.reg (Reg.coreRingRet n e) == s.reg (Reg.coreRingWr n e)

/-- R310: JOB_COMPLETE. -/
def execJobComplete (q x runMs : Nat) (s : State) : Out := s.doing do
  let m ← get
  match m.runningJob q x with
  | none => pure ()
  | some j => whenA (j.cores.all m.coreDone) do
    let exits := j.cores.map fun n => (n, (m.core n).exited.getD (0, 0))
    let (status, core, result) := match exits.find? fun (_, a0, _) => a0 != 0 with
      | some (n, a0, a1) => (exitStatus a0, n, a1)
      | none => (0, 0xFF, ((exits.map fun (_, _, a1) => a1).headD 0))
    forA j.cores fun n => updCore n fun c => { c with job := none, exited := none }
    complete q j status core result (m.jobStep j) runMs

/-- R311: RUN_MS expires. -/
def execJobRunTimeout (q x runMs : Nat) (s : State) : Out := s.doing do
  let m ← get
  match m.runningJob q x with
  | none => pure ()
  | some j => whenA (j.runMs != 0 && decide (runMs ≥ j.runMs)) (endJob q x 0xE 0xFF runMs)

/-- An abort request for an entry (Table 12-4). -/
def abortEntry (q x : Nat) : Act Unit := do
  let s ← get
  let done := fun st => wr (Reg.hstQAbortResult q) (2 <<< 30 + st)
  updQueue q fun h => { h with watch := none }
  if atOrAfter x (s.reg (Reg.hstQWr q)) then wr (Reg.hstQAbortResult q) 0
  else if atOrAfter x (s.reg (Reg.hstQFetched q)) then do
    updQueue q fun h => { h with marks := if h.marks.contains x then h.marks else h.marks ++ [x], watch := some x }
    wr (Reg.hstQAbortResult q) (1 <<< 30)
  else
    match (s.queue q).jobs.find? (·.x = x) with
    | none => done 0xD
    | some j => do
      if j.running then do
        let t ← freeVal 32
        endJob q x 4 0xFF t
      else complete q j 4 0xFF 0 0 0
      done 4

/-- R314: HST_Q_ABORT. -/
def execHstQAbort (q index : Nat) (s : State) (writer : Nat := 0) : Out :=
  s.doing (queueAction writer q (.hstQAbort q index writer) (abortEntry q index))

/-- Admitted jobs, and fetched jobs not yet admitted, of a queue (HST_Q_STATE). -/
def M.qRunning (s : M) (q : Nat) : Nat := ((s.queue q).jobs.filter (·.running)).length
def M.qWaiting (s : M) (q : Nat) : Nat := ((s.queue q).jobs.filter fun j => !j.running && j.kind == 0).length

/-- Is the queue disabled and idle, so that its registers can be set (R321)? -/
def M.qIdle (s : M) (q : Nat) : Bool :=
  !bit (s.reg (Reg.hstQCtl q)) 31 && s.qRunning q == 0 && s.qWaiting q == 0

/-- GO of HST_Q_RESET: unfetched entries, and markers that wait, are discarded. -/
def queueReset (q value : Nat) : Act Unit := do
  let s ← get
  whenA (bit value 0 && s.qIdle q) do
    let w := s.reg (Reg.hstQWr q)
    wr (Reg.hstQFetched q) w
    wr (Reg.hstQDone q) w
    updQueue q fun h => { h with jobs := [], written := [], marks := [], watch := none }

/-- R321: HST_Q_RESET. -/
def execHstQReset (q value : Nat) (s : State) (writer : Nat := 0) : Out :=
  s.doing (queueAction writer q (.hstQReset q value writer) (queueReset q value))

/-- R316: a hold-off ends; a completion written during it is signalled once more, and holds off the next. -/
def execInterruptHoldoffExpiry (q : Nat) (s : State) : Out := s.doing do
  let m ← get
  whenA (m.queue q).holding do
    if (m.queue q).owed then do
      hostEmit (.msix q)
      updQueue q fun h => { h with owed := false }
    else updQueue q fun h => { h with holding := false }

/-! ## Resets and link events (R297, R298, R319, R320) -/

/-- Does a configuration dword hold BAR or MSI-X settings (Table 12-1, R316)? -/
def cfgCleared (o : Nat) : Bool := (decide (0x10 ≤ o) && decide (o < 0x28)) || o == Config.msixCap

/-- Hot reset or Function Level Reset (Table 12-7): running jobs end without a completion, every queue is disabled and its
registers reset, MSI-X and BAR settings are cleared. -/
def functionReset : Act Unit := do
  let s ← get
  forA (List.range s.nCores) fun n => do
    let s ← get
    whenA (s.core n).job.isSome (endCore n)
  forA (List.range 64) fun q => do
    updQueue q fun _ => {}
    forA [Reg.hstQBase q, Reg.hstQCmpl q, Reg.hstQCtl q, Reg.hstQWr q, Reg.hstQFetched q, Reg.hstQDone q, Reg.hstQState q,
          Reg.hstQAbortResult q] fun r => wr r (Reg.dflt r)
  modify fun s => { s with cxl := { s.cxl with cfg := s.cxl.cfg.filter fun (o, _) => !cfgCleared o } }

/-- R320: hot reset. -/
def execHotReset (s : State) : Out := s.doing functionReset

/-- R320: Function Level Reset. -/
def execFunctionLevelReset (s : State) : Out := s.doing functionReset

/-- R320: the link goes down without a reset. -/
def execCxlLinkDown (s : State) : Out := s.doing (setField Reg.hstStatus 31 23 0)

/-- Code of a speed in GT/s (Table 12-9). -/
def speedCode (gts : Nat) : Nat := if gts = 8 then 1 else if gts = 16 then 2 else if gts = 32 then 3 else 0

/-- What was held is sent in order, and completions are written as the link now allows (R298, R313, Table 12-7). -/
def sendHeld (cxl : Bool) (o : Output) : Act Unit :=
  match o with
  | .hostWrite itom a r => forA (completionWrites (itom && cxl) a r) emit
  | o => emit o

/-- The completions of a queue that waited for the link are written. -/
def writeLate (q : Nat) : Act Unit := do
  let s ← get
  whenA (!(s.queue q).late.isEmpty) do
    updQueue q fun h => { h with written := h.written ++ h.late, late := [] }
    advanceDone q ((s.queue q).written.length + (s.queue q).late.length)

/-- R297, R298: the link trains; what was held is sent in order. -/
def execCxlLinkUp (cxl : Bool) (lanes speed : Nat) (s : State) : Out := s.doing do
  let m ← get
  whenA (bits (m.reg Reg.hstStatus) 31 30 == 0 && [4, 8, 16].contains lanes && speedCode speed != 0) do
    setField Reg.hstStatus 31 30 (if cxl then 2 else 1)
    setField Reg.hstStatus 29 25 lanes
    setField Reg.hstStatus 24 23 (speedCode speed)
    forA m.cxl.held (sendHeld cxl)
    modify fun s => { s with cxl := { s.cxl with held := [] } }
    wr Reg.hstCmplHeld 0
    forA (List.range 64) writeLate

/-! ## Configuration space (R300 to R302, R378) -/

/-- A BAR dword (Table 12-1): its fixed bits, and the bits that a write reaches. BAR0 is 64-bit and not prefetchable, of 256 MiB; BAR2
is 64-bit and prefetchable, of 16 GiB; there is no other. -/
def barShape (o : Nat) : Option (Nat × Nat) :=
  match o with
  | 0x10 => some (0x4, 0xF0000000)
  | 0x14 => some (0, 0xFFFFFFFF)
  | 0x18 => some (0xC, 0)
  | 0x1C => some (0, 0xFFFFFFFC)
  | 0x20 => some (0, 0)
  | 0x24 => some (0, 0)
  | _ => none

/-- Fields of a dword of the CXL DVSEC that the manual fixes: (high bit, low bit, value), at offset d in it (R297, R298, R302, Table 12-7).
The places of the fields are those of CXL 2.0 (PRESUMED, log 98). -/
def M.dvsecFields (s : M) (d : Nat) : List (Nat × Nat × Nat) :=
  let range := [(0, 0, 1), (1, 1, bits (s.reg Reg.hstStatus) 20 20), (15, 13, 1), (31, 28, 0)]
  if d = 0x08 then [(16, 16, 1), (17, 17, 1), (18, 18, 1), (21, 20, 2), (23, 23, 0)]
  else if d = 0x0C then if s.noHdm then [(0, 0, 0), (2, 2, 0)] else []
  else if d = 0x18 ∨ d = 0x28 then [(31, 0, 0x80)]
  else if d = 0x1C ∨ d = 0x2C then range
  else []

/-- Fields of a configuration dword that the manual fixes: the CXL DVSEC's, the Register Locator's two entries, the number of MSI-X
vectors (R301, R316), in the layouts of PCIe and CXL 2.0 (PRESUMED, log 98). -/
def M.cfgFields (s : M) (o : Nat) : List (Nat × Nat × Nat) :=
  if o = Config.msixCap then [(26, 16, 71)]
  else if o = Config.locator + 0x0C then [(31, 0, 0x00110100)]
  else if o = Config.locator + 0x14 then [(31, 0, 0x00120300)]
  else if o = Config.locator + 0x10 ∨ o = Config.locator + 0x18 then [(31, 0, 0)]
  else if Config.dvsec ≤ o then s.dvsecFields (o - Config.dvsec)
  else []

/-- A dword that a write reaches in part: its fixed bits, the mask of the others, and what was last written, if anything was. -/
def masked (rom mask : Nat) (v : Option Nat) : Nat :=
  match v with
  | none => rom
  | some v => (rom &&& (0xFFFFFFFF - (mask &&& 0xFFFFFFFF))) ||| (v &&& mask)

/-- The Data Object Exchange mailbox of Table Access (R302), by the PCIe layout of the capability (PRESUMED, log 98): Data Object Ready,
and the read mailbox. -/
def M.doeDword (s : M) (d : Nat) : Option Nat :=
  if d = 0x0C then some (b2n (!s.cxl.doeOut.isEmpty) <<< 31)
  else if d = 0x14 then some (s.cxl.doeOut.headD 0)
  else none

/-- A dword of the configuration space. -/
def M.cfgDword (s : M) (offset : Nat) : Nat :=
  let o := offset / 4 * 4
  let written := (s.cxl.cfg.find? (·.1 = o)).map (·.2)
  match barShape o with
  | some (fixed, mask) => masked fixed mask written
  | none =>
    match if Config.doeCap ≤ o then s.doeDword (o - Config.doeCap) else none with
    | some v => v
    | none => (s.cfgFields o).foldl (fun v (hi, lo, x) => setBits v hi lo x)
        (masked (Config.cfgRom o (s.reg Reg.hstStatus)) (Config.cfgMask o) written)

/-- An entry of the CDAT (layout of the CDAT specification, PRESUMED, log 98): a DSMAS of 24 bytes for decoder range k, or a DSLBIS of 24
bytes with a data type (1 read latency, 4 read bandwidth, 5 write bandwidth), its unit in ps or MB/s, and its value (R302). -/
def dsmas (k : Nat) : List Byte := leBytes 24 (24 <<< 16 + k <<< 32 + (k * 2 ^ 39) <<< 64 + 2 ^ 39 <<< 128)
/-- A DSLBIS entry of range k. -/
def dslbis (k type value : Nat) : List Byte := leBytes 24 (1 + 24 <<< 16 + k <<< 32 + type <<< 48 + 1000 <<< 64 + value <<< 128)

/-- The entries of the CDAT, after its header. -/
def cdatEntries : List (List Byte) :=
  [0, 1].flatMap fun k => [dsmas k, dslbis k 4 1820, dslbis k 5 1820, dslbis k 1 160]

/-- The header of the CDAT: its length, revision 1, and the checksum that makes all its bytes add up to 0. -/
def cdatHeader : List Byte :=
  let sum := fun (bs : List Byte) => bs.foldl (fun a b => a + b.toNat) 0
  let h := leBytes 16 (16 + 24 * cdatEntries.length + 1 <<< 32)
  let c := (256 - (sum h + sum (cdatEntries.flatMap id)) % 256) % 256
  h.set 5 (BitVec.ofNat 8 c)

/-- The answer to a request of Table Access: the entry with a handle, and the handle of the next, 0xFFFF after the last. -/
def tableAccess (request : List Nat) : List Nat :=
  match request with
  | [0x00021E98, 3, q] =>
    let all := cdatHeader :: cdatEntries
    match all[bits q 31 16]? with
    | none => []
    | some e =>
      let next := if bits q 31 16 + 1 < all.length then bits q 31 16 + 1 else 0xFFFF
      [0x00021E98, 3 + e.length / 4, next <<< 16] ++ (List.range (e.length / 4)).map fun i => leNat ((e.drop (4 * i)).take 4)
  | _ => []

/-- A write of the Data Object Exchange mailbox: Abort and Go of its control, the write mailbox, and the read mailbox, which moves to the
next dword. -/
def doeWrite (d v : Nat) : Act Unit := modify fun s =>
  let c := s.cxl
  { s with cxl :=
      if d = 0x08 then
        if bit v 0 then { c with doeIn := [], doeOut := [] }
        else if bit v 31 then { c with doeIn := [], doeOut := tableAccess c.doeIn }
        else c
      else if d = 0x10 then { c with doeIn := c.doeIn ++ [v] }
      else if d = 0x14 then { c with doeOut := c.doeOut.drop 1 }
      else c }

/-- R378: a configuration request, answered from ROM and fuses. -/
def execConfigRequest (isWrite : Bool) (offset value : Nat) (s : State) : Out := s.doing do
  let m ← get
  let o := offset / 4 * 4
  if isWrite then do
    whenA (decide (Config.doeCap ≤ o)) (doeWrite (o - Config.doeCap) (trunc 32 value))
    modify fun s => { s with cxl := { s.cxl with cfg := (s.cxl.cfg.filter (·.1 ≠ o)) ++ [(o, trunc 32 value)] } }
  else emit (.cfgData (trunc 32 (m.cfgDword offset)))

/-! ## The component and device registers in BAR0 (R301, R302) -/

/-- A dword of decoder d's registers (layout of CXL 2.0, log 98). -/
def Hdm.dword (h : Hdm) (k : Nat) : Nat :=
  match k with
  | 0 => bits h.base 31 0
  | 1 => bits h.base 63 32
  | 2 => bits h.size 31 0
  | 3 => bits h.size 63 32
  | 4 => h.ctl
  | _ => 0

/-- A dword of the component and device registers: the HDM Decoder capability has a decoder count of 2, no interleaving, and the two
decoders; of the others the manual gives no value. -/
def M.compDword (s : M) (o : Nat) : Nat :=
  let rest := masked (Config.cxlRom o) (Config.cxlMask o) ((s.cxl.comp.find? (·.1 = o)).map (·.2))
  let d := o - Config.hdmCap
  if o < Config.hdmCap then rest
  else if d = 0 then setBits (setBits rest 3 0 1) 9 8 0
  else if d = 4 then setBits rest 1 1 (b2n s.cxl.hdmOn)
  else if 0x10 ≤ d ∧ d < 0x30 then s.cxl.hdm0.dword ((d - 0x10) / 4)
  else if 0x30 ≤ d ∧ d < 0x50 then s.cxl.hdm1.dword ((d - 0x30) / 4)
  else rest

/-- A write of a dword of the component and device registers. -/
def compWrite (o v : Nat) : Act Unit := do
  modify fun s => { s with cxl := { s.cxl with comp := (s.cxl.comp.filter (·.1 ≠ o)) ++ [(o, trunc 32 v)] } }
  let d := o - Config.hdmCap
  whenA (decide (Config.hdmCap ≤ o)) (
    if d = 4 then modify fun s => { s with cxl := { s.cxl with hdmOn := bit v 1 } }
    else whenA (decide (0x10 ≤ d) && decide (d < 0x50)) (
      match (d - 0x10) % 0x20 / 4 with
      | 4 => updHdm ((d - 0x10) / 0x20) fun h => h.control v
      | k => whenA (decide (k < 4)) (updHdm ((d - 0x10) / 0x20) fun h => h.place (decide (2 ≤ k)) (k % 2 == 1) v)))

/-- R319: both IDE streams end, and accesses are refused until they are established again. -/
def execIdeIntegrityFailure (s : State) : Out := s.doing do
  setField Reg.hstStatus 22 21 0
  modify fun s => { s with sec := { s.sec with ide := [] }, cxl := { s.cxl with ideLost := true } }

/-! ## Mailbox (R317) -/

/-- Does a command of the host reach the mailbox: the link is up, and the window is open? -/
def M.mailboxOpen (s : M) : Bool := s.hostOpen && bits (s.reg Reg.hstStatus) 31 30 != 0

/-- Run a mailbox command, which waits behind a held push as every write of the host does: its return code (0 Success, 2 Invalid Input,
3 Unsupported), its payload, and vector 64. -/
def mailbox (i : Instr) (f : Act (Nat × List Byte)) : Act Unit := unlessHeld 0 i do
  let s ← get
  whenA s.mailboxOpen do
    let (code, out) ← f
    hostEmit (.mailbox code out)
    hostEmit (.msix 64)

/-- The answer to an input of the wrong form. -/
def invalidInput : Act (Nat × List Byte) := pure (2, [])

/-- n bytes that the manual leaves open. -/
def freeBytes (n : Nat) : Act (List Byte) := do
  let bs ← mapA (List.range n) fun _ => freeVal 8
  pure (bs.map (BitVec.ofNat 8))

/-- The event records of a log that are not cleared. -/
def M.eventLog (s : M) (log : Nat) : List (Nat × Nat) := s.cxl.events.filter fun (l, _) => l == log

/-- R317: Get Event Records (event log 0 to 3): the records, 31 at most in the 4 KiB of a payload, whose bytes the manual leaves open. The
layout is that of CXL 2.0 (PRESUMED, log 99). -/
def execGetEventRecords (input : List Byte) (s : State) : Out := s.doing (mailbox (.getEventRecords input) do
  let m ← get
  let log := leNat input
  if input.length ≠ 1 ∨ 4 ≤ log then invalidInput
  else do
    let n := (m.eventLog log).length
    let recs ← freeBytes (128 * min n 31)
    pure (0, leBytes 32 (b2n (decide (31 < n)) <<< 1 + (min n 31) <<< 160) ++ recs))

/-- R317: Clear Event Records (event log, flags, count n, three bytes, n handles): the n oldest records of the log are cleared, or all of
them if bit 0 of the flags is set (layout and order of CXL 2.0, PRESUMED, log 99). -/
def execClearEventRecords (input : List Byte) (s : State) : Out := s.doing (mailbox (.clearEventRecords input) do
  let m ← get
  let log := leNat (input.take 1)
  let n := leNat ((input.drop 2).take 1)
  if input.length ≠ 6 + 2 * n ∨ 4 ≤ log then invalidInput
  else do
    let keep := if bit (leNat ((input.drop 1).take 1)) 0 then [] else (m.eventLog log).drop n
    modify fun s => { s with cxl := { s.cxl with events := (s.cxl.events.filter fun (l, _) => l != log) ++ keep } }
    pure (0, []))

/-- R317: Get Event Interrupt Policy. -/
def execGetEventInterruptPolicy (input : List Byte) (s : State) : Out := s.doing (mailbox (.getEventInterruptPolicy input) do
  let m ← get
  if input.isEmpty then pure (0, m.cxl.policy) else invalidInput)

/-- R317: Set Event Interrupt Policy. -/
def execSetEventInterruptPolicy (input : List Byte) (s : State) : Out := s.doing (mailbox (.setEventInterruptPolicy input) (
  if input.length = 4 then do
    modify fun s => { s with cxl := { s.cxl with policy := input } }
    pure (0, [])
  else invalidInput))

/-- R317: Get FW Info: its 80 bytes are left open. -/
def execGetFwInfo (input : List Byte) (s : State) : Out := s.doing (mailbox (.getFwInfo input) (
  if input.isEmpty then do
    let bs ← freeBytes 80
    pure (0, bs)
  else invalidInput))

/-- R317: Get Supported Logs: one log, whose identifier and size are left open. -/
def execGetSupportedLogs (input : List Byte) (s : State) : Out := s.doing (mailbox (.getSupportedLogs input) (
  if input.isEmpty then do
    let bs ← freeBytes 20
    pure (0, leBytes 8 1 ++ bs)
  else invalidInput))

/-- R317: Get Log (identifier, offset, length): the log's bytes are left open. -/
def execGetLog (input : List Byte) (s : State) : Out := s.doing (mailbox (.getLog input) (
  if input.length = 24 then do
    let bs ← freeBytes (min 4096 (leNat (input.drop 20)))
    pure (0, bs)
  else invalidInput))

/-- R317: GET_READY. -/
def execGetReady (input : List Byte) (s : State) : Out := s.doing (mailbox (.getReady input) do
  let m ← get
  let map := m.reg Reg.mgtReadyMap
  let stamps := ((List.range 128).filter (bit map)).flatMap fun i => leBytes 8 (m.reg (Reg.mgtReadyStamp i))
  if input.isEmpty then pure (0, leBytes 16 map ++ stamps) else invalidInput)

/-- Offsets of every IL register, rising. -/
def ilRegisters : List Nat :=
  let rows := Reg.mgtRows ++ Reg.hstRows ++ Reg.secRows ++ Reg.pwrRows ++ Reg.chkRows ++ Reg.memRows ++ Reg.updRows
    ++ Reg.trnRows ++ Reg.rlyRows ++ Reg.ethRows ++ Reg.cntRows
  (rows.filter (·.acc == .il)).flatMap fun r => (List.range r.n1).flatMap fun i => (List.range r.n2).map fun j =>
    r.base + r.s1 * i + r.s2 * j

/-- R317: GET_SETTINGS. -/
def execGetSettings (input : List Byte) (s : State) : Out := s.doing (mailbox (.getSettings input) do
  let m ← get
  let entry := fun o => leBytes 4 o ++ leBytes 4 (b2n (m.boot.adj.contains o) + 2 * b2n (m.boot.changed.contains o))
  if input.length = 4 then pure (0, ((ilRegisters.drop (leNat input)).take 512).flatMap entry) else invalidInput)

/-- R317: GET_HEALTH. -/
def execGetHealth (input : List Byte) (s : State) : Out := s.doing (mailbox (.getHealth input) do
  let m ← get
  if input.isEmpty then
    pure (0, ((List.range 128).flatMap fun i => leBytes 4 (m.reg (Reg.mgtPosState i))) ++ leBytes 4 (m.reg Reg.mgtBenchCount))
  else invalidInput)

/-- The opcodes that the mailbox accepts. -/
def mailboxOpcodes : List Nat :=
  [0x0100, 0x0101, 0x0102, 0x0103, 0x0200, 0x0400, 0x0401, 0xC000, 0xC001, 0xC002, 0xC003, 0xC004]

/-- R317: any other opcode. -/
def execMailboxUnsupported (opcode : Nat) (s : State) : Out :=
  s.doing (whenA (!mailboxOpcodes.contains opcode) (mailbox (.mailboxUnsupported opcode) (pure (3, []))))

end Sys2Proof.Machine
end

