-- ==== Sys2Proof/Machine/Flash.lean ====
section
/-! DEFINITION. The configuration flash (R371) and the health record that it keeps (R384). -/

namespace Sys2Proof.Machine

/-- What a flash byte that nothing has written reads as: an erased byte (log 28). -/
def flashErased (_ : Nat) : Byte := 0xFF#8

/-- n bytes of the flash. -/
def M.flashBytes (s : M) (a n : Nat) : List Byte := (List.range n).map fun i => Tab.read flashErased s.boot.flash (a + i)

/-- n bytes of the flash as a little-endian number. -/
def M.flashNum (s : M) (a n : Nat) : Nat := leNat (s.flashBytes a n)

/-- A flash with bytes written from offset a on. -/
def writeFlashTab (t : Tab Byte) (a : Nat) : List Byte → Tab Byte
  | [] => t
  | b :: bs => writeFlashTab (Tab.put flashErased t a b) (a + 1) bs

/-- Write bytes into the flash. -/
def writeFlash (a : Nat) (data : List Byte) : Act Unit :=
  modify fun s => { s with boot := { s.boot with flash := writeFlashTab s.boot.flash a data } }

/-- Erase n bytes of the flash. -/
def eraseFlash (a n : Nat) : Act Unit :=
  modify fun s => { s with boot := { s.boot with flash := s.boot.flash.filter fun (k, _) => !(decide (a ≤ k) && decide (k < a + n)) } }

/-- Flash offset and size of slot A (0) and B (1) (Table 15-1). -/
def slotBase (slot : Nat) : Nat := 0x3C00000 * slot
def slotSize : Nat := 0x3C00000

/-- Flash offset of a copy of the health record, and its size. -/
def healthBase (copy : Nat) : Nat := 0x7800000 + 0x200000 * copy
def healthSize : Nat := 0x200000

/-- An entry of the health record: sequence number, kind, payload of 54 bytes. -/
structure Health where
  seq : Nat
  kind : Nat
  payload : List Byte
  deriving DecidableEq, Repr

/-- The places of a copy that are not wholly erased. -/
def M.healthPlaces (s : M) (copy : Nat) : List Nat :=
  ((s.boot.flash.keys.filter fun k => decide (healthBase copy ≤ k) && decide (k < healthBase copy + healthSize)).map
    fun k => (k - healthBase copy) / 64).eraseDups

/-- The valid entries of a copy: those whose CRC-32C holds. A wholly erased place has no valid CRC. -/
def M.healthOf (s : M) (copy : Nat) : List Health :=
  (s.healthPlaces copy).filterMap fun i =>
    let bs := s.flashBytes (healthBase copy + 64 * i) 64
    if crc32c (bs.take 60) = leNat (bs.drop 60) then
      some ⟨leNat (bs.take 4), leNat ((bs.drop 4).take 2), (bs.drop 6).take 54⟩
    else none

/-- The valid entries of both copies. -/
def M.health (s : M) : List Health := s.healthOf 0 ++ s.healthOf 1

/-- The highest sequence number, and the copy that holds it. -/
def M.healthTop (s : M) : Option (Nat × Nat) :=
  let top := fun c => (s.healthOf c).foldl (fun m h => match m with | none => some h.seq | some x => some (max x h.seq)) none
  match top 0, top 1 with
  | none, none => none
  | some a, none => some (a, 0)
  | none, some b => some (b, 1)
  | some a, some b => if b > a then some (b, 1) else some (a, 0)

/-- What an entry is about: its kind, and the first byte of its payload, or the island of a power record (Table 14-5). -/
def Health.about (h : Health) : Nat × Nat :=
  (h.kind, (h.payload.getD (if 0x20 ≤ h.kind ∧ h.kind ≤ 0x23 then 8 else 0) 0#8).toNat)

/-- The facts in force: of each fact the entry with the highest sequence number. -/
def M.facts (s : M) : List Health :=
  let l := s.health
  l.filter fun h => l.all fun k => k.about != h.about || decide (k.seq ≤ h.seq)

/-- The 64 bytes of an entry. -/
def healthEntry (seq kind : Nat) (payload : List Byte) : List Byte :=
  let b := leBytes 4 seq ++ leBytes 2 kind ++ (payload ++ List.replicate 54 0#8).take 54
  b ++ leBytes 4 (crc32c b)

/-- Write entries one after the other into a copy, from a place and a sequence number on. -/
def writeHealth (copy : Nat) : List (Nat × List Byte) → Nat → Nat → Act Unit
  | [], _, _ => pure ()
  | (kind, pl) :: rest, place, seq => do
    writeFlash (healthBase copy + 64 * place) (healthEntry seq kind pl)
    writeHealth copy rest (place + 1) (seq + 1)

/-- The management controller appends an entry (R384): to the copy with the highest sequence number; when that is full, the
facts still in force go into the other copy, erased first, and the entry after them. -/
def healthAppend (kind : Nat) (payload : List Byte) : Act Unit := do
  let s ← get
  let (seq, copy) := match s.healthTop with
    | none => (0, 0)
    | some (x, c) => (x + 1, c)
  let place := (s.healthPlaces copy).foldl (fun m i => max m (i + 1)) 0
  if place < healthSize / 64 then writeHealth copy [(kind, payload)] place seq
  else do
    eraseFlash (healthBase (1 - copy)) healthSize
    writeHealth (1 - copy) ((s.facts.map fun h => (h.kind, h.payload)) ++ [(kind, payload)]) 0 seq

/-- The fact about a subject of a kind: the payload of the entry in force. -/
def M.fact (s : M) (kind subject : Nat) : Option (List Byte) :=
  (s.facts.find? fun h => h.about == (kind, subject)).map (·.payload)

/-- R384: an entry is appended to the health record. -/
def execHealthRecordAppend (kind : Nat) (payload : List Byte) (s : State) : Out := s.doing (healthAppend kind payload)

end Sys2Proof.Machine
end

