-- ==== Sys2Proof/Machine/Image.lean ====
section
/-! DEFINITION. The Parette image: its layout (R372 to R375), the slot checks of Table 15-5 (R376, R390, R391, R405, R442),
and applying an accepted image. -/

namespace Sys2Proof.Machine

/-! ## Layout -/

/-- An entry of the section table (Table 15-3). -/
structure Section where
  typ : Nat
  off : Nat
  len : Nat
  digest : List Byte
  deriving DecidableEq, Repr

/-- Number of sections that a slot's header names. -/
def M.sectionCount (s : M) (slot : Nat) : Nat := s.flashNum (slotBase slot + 6) 2

/-- The section table of a slot. -/
def M.sections (s : M) (slot : Nat) : List Section :=
  (List.range (min 32 (s.sectionCount slot))).map fun i =>
    let a := slotBase slot + 64 + 64 * i
    ⟨s.flashNum a 2, s.flashNum (a + 4) 4, s.flashNum (a + 8) 4, s.flashBytes (a + 16) 48⟩

/-- Bytes of the signed part of a slot. -/
def M.signedLen (s : M) (slot : Nat) : Nat := 64 + 64 * s.sectionCount slot

/-- The signed part of a slot. -/
def M.signedPart (s : M) (slot : Nat) : List Byte := s.flashBytes (slotBase slot) (s.signedLen slot)

/-- Bytes of a section. -/
def M.sectionBytes (s : M) (slot : Nat) (x : Section) : List Byte := s.flashBytes (slotBase slot + x.off) x.len

/-- The bytes of the section of a type. -/
def M.sectionOf (s : M) (slot typ : Nat) : List Byte :=
  match (s.sections slot).find? (·.typ = typ) with
  | some x => s.sectionBytes slot x
  | none => []

/-- SEQUENCE, SVN, TOTAL_LEN, GRADES, LIB_ID of a slot. -/
def M.slotSeq (s : M) (slot : Nat) : Nat := s.flashNum (slotBase slot + 8) 4
/-- SVN. -/
def M.slotSvn (s : M) (slot : Nat) : Nat := s.flashNum (slotBase slot + 12) 4
/-- Length of the image. -/
def M.slotLen (s : M) (slot : Nat) : Nat := s.flashNum (slotBase slot + 16) 4
/-- The grades that the image suits. -/
def M.slotGrades (s : M) (slot : Nat) : Nat := s.flashNum (slotBase slot + 20) 1
/-- Version of the play library. -/
def M.slotLib (s : M) (slot : Nat) : Nat := s.flashNum (slotBase slot + 24) 4

/-- Does the header hold MAGIC and FORMAT 1? -/
def M.headerOf (s : M) (slot : Nat) : Bool :=
  s.flashNum (slotBase slot) 4 == 0x41545250 && s.flashNum (slotBase slot + 4) 2 == 1

/-- A SETTINGS entry (R374): register offset, flags, value. -/
structure Setting where
  off : Nat
  flags : Nat
  value : Nat
  deriving DecidableEq, Repr

/-- The entries of a SETTINGS section. -/
def settingsOf (bs : List Byte) : List Setting :=
  (List.range (bs.length / 16)).map fun i =>
    let e := (bs.drop (16 * i)).take 16
    ⟨leNat (e.take 4), leNat ((e.drop 4).take 1), leNat (e.drop 8)⟩

/-! ## Content (code 7) -/

/-- The row of an IL register that an image may name: CHK_REDUNDANCY is not among them (R374). -/
def settingRow (off : Nat) : Option RegRow :=
  match Reg.find off with
  | some (r, b) => if r.acc = .il ∧ b = off ∧ off ≠ Reg.chkRedundancy then some r else none
  | none => none

/-- Offsets in the "Yes" row of Table 12-6. -/
def mayAdjust (off : Nat) : Bool :=
  [Reg.pwrCapW, Reg.chkPractice, Reg.chkShadow, Reg.memScrubPeriod, Reg.rlyCtl, Reg.updCtl, Reg.mgtDoubleCtl, Reg.trnTiming,
   Reg.trnRate, Reg.hstCtl].contains off
    || (List.range 8).any (fun p => off == Reg.pwrPhaseOp p || off == Reg.trnRwin p)
    || (List.range 64).any fun n => off == Reg.updVgroup n

/-- The value that an entry gives its register, its reserved bits aside. -/
def Setting.val (e : Setting) : Nat := e.value &&& ((settingRow e.off).map (·.mask)).getD 0

/-- The value of a register under a list of settings: the named value, else its default. -/
def settingVal (l : List Setting) (off : Nat) : Nat :=
  match l.find? (·.off = off) with
  | some e => e.val
  | none => Reg.dflt off

/-- Does the list name a register? -/
def named (l : List Setting) (off : Nat) : Bool := l.any (·.off = off)

/-- A 4 KiB-aligned far-store address. -/
def farPage (v : Nat) : Bool := inFar v && v % 4096 == 0

/-- Blocks G − r of a redundancy class (Table 14-6). -/
def classBlocks (cls : Nat) : Nat := [1, 7, 10, 9].getD cls 1

/-- Ports of a mode (Table 10-1). -/
def modePorts (mode : Nat) : Nat := [16, 8, 32, 64].getD (bits mode 1 0) 16

/-- Bits set in a value. -/
def popcount (w v : Nat) : Nat := ((List.range w).filter (bit v)).length

/-- Does a value keep the rules of its field table, beside the other settings and the redundancy class? -/
def settingOk (l : List Setting) (cls : Nat) (e : Setting) : Bool :=
  let v := e.val
  let mode := settingVal l Reg.ethMode
  if e.off = Reg.chkShadow then decide (v ≤ 5)
  else if (List.range 8).any (fun p => e.off == Reg.pwrPhaseOp p) then decide (v ≤ 5)
  else if e.off = Reg.trnCtl then decide (bits v 19 16 ≤ 14)
  else if e.off = Reg.trnPathMask then decide (popcount 64 v ≤ 16) && decide (v < 2 ^ modePorts mode)
  else if [Reg.trnSpillBase, Reg.rlyGroupBase, Reg.chkLogBase, Reg.chkSaveBase, Reg.chkParityBase].contains e.off then farPage v
  else if e.off = Reg.chkPracticeBase then inFar v && v % 0x8000 == 0 && decide (v - 0x10000000000 < 0x8000000000)
  else if e.off = Reg.chkNoticeBase then v % 32 == 0 && inRegion v 0x20000
  else if e.off = Reg.chkSaveLen then v % (classBlocks cls * 0x40000) == 0
  else if (List.range 4).any (fun k => e.off == Reg.rlyStageBase k) then
    inNear v && v % 32 == 0 && decide (v + settingVal l (e.off + 8) * 2 ^ 20 ≤ 0x400000000)
  else if (List.range 64).any (fun n => e.off == Reg.ethPortPrefix n) then
    !bit mode 2 || v &&& 0xFFFFF000 == v
  else true

/-- Are the registers named that Table 15-9 requires (R442)? -/
def requiredNamed (l : List Setting) (cls : Nat) : Bool :=
  let notice := bit (settingVal l Reg.chkCtl) 1
  ([Reg.ethMode, Reg.trnSpillBase, Reg.rlyGroupBase, Reg.chkLogBase, Reg.chkPracticeBase]
      ++ (List.range 4).map Reg.rlyStageBase).all (named l)
    && (List.range (modePorts (settingVal l Reg.ethMode))).all (fun n =>
      !bit (settingVal l (Reg.ethPortCtl n)) 31 || (named l (Reg.ethPortPrefix n) && named l (Reg.ethPortNexthop n)))
    && (cls == 0 || [Reg.chkSaveBase, Reg.chkSaveLen, Reg.chkParityBase].all (named l))
    && (!notice || (named l Reg.chkCtl && named l Reg.chkNoticeBase))

/-- Do two bound verdict entries name one group (R231)? -/
def groupsClash (l : List Setting) : Bool :=
  let g := (List.range 64).filterMap fun n =>
    let v := settingVal l (Reg.updVgroup n)
    if bit v 31 then some (bits v 15 0) else none
  g.eraseDups.length != g.length

/-- Do the redundancy rules hold (R364, R423): node ID, ranks a multiple of G, the class limit, group sizes? -/
def systemOk (y : SystemSec) : Bool :=
  let g := [1, 8, 12, 12].getD y.cls 1
  decide (y.node < 4096) && decide (y.cls ≤ 3) && y.ranks % g == 0
    && decide (y.ranks ≤ [4096, 512, 2048, 4096].getD y.cls 0)
    && y.groups.all fun (_, rec, _, ms) =>
      decide (bits (leNat rec) 15 0 ≤ 4096) && (List.range (ms.length / 2)).all fun i =>
        decide (leNat ((ms.drop (2 * i)).take 2) < 4096)

/-- The SECURITY section's own rules (R405). -/
def securityOk (bs : List Byte) : Bool :=
  bs.length == 128 && leNat (bs.take 4) &&& 0xFFFFFF81 == 0 && ((bs.drop 5).take 11).all (· == 0#8)
    && (bs.drop 112).all (· == 0#8)

/-- Check 7. -/
def M.contentOk (s : M) (slot : Nat) : Bool :=
  let l := settingsOf (s.sectionOf slot 4)
  let y := Config.systemOf (s.sectionOf slot 5)
  l.all (fun e => (settingRow e.off).isSome) && (l.map (·.off)).eraseDups.length == l.length
    && l.all (fun e => !bit e.flags 0 || mayAdjust e.off)
    && l.all (settingOk l y.cls) && requiredNamed l y.cls && !groupsClash l && systemOk y
    && decide (leNat (s.sectionOf slot 9) < 2 ^ s.nCores) && (s.sectionOf slot 9).length == 16 && securityOk (s.sectionOf slot 8)

/-! ## The checks in order -/

/-- Check 1 (R372, R373). -/
def M.structureOk (s : M) (slot : Nat) : Bool :=
  let n := s.sectionCount slot
  let l := s.sections slot
  let total := s.slotLen slot
  s.headerOf slot && decide (1 ≤ n) && decide (n ≤ 32) && decide (total ≤ slotSize)
    && l.length == 9 && (List.range' 1 9).all (fun t => (l.filter (·.typ = t)).length == 1)
    && l.all (fun x => x.off % 4096 == 0 && decide (s.signedLen slot + 16608 ≤ x.off) && decide (x.off + x.len ≤ total))
    && l.all fun x => l.all fun y => x.typ == y.typ || decide (x.off + x.len ≤ y.off) || decide (y.off + y.len ≤ x.off)

/-- A signature block (R372): the RSA part and the SLH-DSA part. -/
def rsaPart (bs : List Byte) : List Byte := bs.take 384
def slhPart (bs : List Byte) : List Byte := (bs.drop 384).take 16224

/-- The signed texts of a slot with their signature blocks (R390): the signed part, MGMT_FW and CORE_FW. -/
def M.signedTexts (s : M) (slot : Nat) : List (List Byte × List Byte) :=
  let fw := fun t => let b := s.sectionOf slot t; (b.drop 16608, b.take 16608)
  [(s.signedPart slot, s.flashBytes (slotBase slot + s.signedLen slot) 16608), fw 1, fw 2]

/-- The code at which a slot would be refused, 0 if none (Table 15-5). -/
def M.slotCode (s : M) (slot : Nat) (readErr : Bool) : Nat :=
  let svn := s.slotSvn slot
  if !s.structureOk slot then 1
  else if (s.sections slot).any fun x => sha384 (s.sectionBytes slot x) != x.digest then 2
  else if (s.signedTexts slot).any fun (t, g) => !Config.rsaOk t (rsaPart g) then 3
  else if (s.signedTexts slot).any fun (t, g) => !Config.slhOk t (slhPart g) then 4
  else if svn < s.fuses.rollback ∨ svn > 64 then 5
  else if !bit (s.slotGrades slot) (b2n s.fuses.standard) then 6
  else if !s.contentOk slot then 7
  else if readErr then 8
  else 0

/-- The check of a slot; one that a command left partly written fails at a code that the manual leaves open (R385). -/
def checkSlot (slot : Nat) (readErr : Bool) : Act Nat := do
  let s ← get
  if s.boot.torn.contains slot then do
    let x ← freeVal 3
    pure (1 + x)
  else pure (s.slotCode slot readErr)

/-- The slot that is tried first (R376). -/
def M.firstSlot (s : M) : Nat :=
  if s.headerOf 1 && (!s.headerOf 0 || decide (s.slotSeq 1 > s.slotSeq 0)) then 1 else 0

/-! ## Applying an image (R374, R375, R392) -/

/-- Settings apply in list order; PWR_CAP_W is clamped (R330). -/
def applySettings : List Setting → Act Unit
  | [] => pure ()
  | e :: l => do
    wr e.off (if e.off = Reg.pwrCapW then max 500 (min 1600 e.val) else e.val)
    applySettings l

/-- HMAC-SHA-384. -/
def hmac384 (key msg : List Byte) : List Byte :=
  let k := (if key.length > 128 then sha384 key else key)
  let k := (k ++ List.replicate 128 0#8).take 128
  sha384 (k.map (· ^^^ 0x5C#8) ++ sha384 (k.map (· ^^^ 0x36#8) ++ msg))

/-- CDI0 and CDI1 (R392). -/
def cdi0 : List Byte := hmac384 Config.uds (sha384 Config.secRom)
def cdi1 (signedPart : List Byte) : List Byte := hmac384 cdi0 (sha384 signedPart)

/-- An accepted image takes effect. -/
def applyImage (slot : Nat) : Act Unit := do
  let s ← get
  let l := settingsOf (s.sectionOf slot 4)
  let y := Config.systemOf (s.sectionOf slot 5)
  let p := Config.powerOf (s.sectionOf slot 6)
  let sec := s.sectionOf slot 8
  applySettings l
  setField Reg.trnNode 11 0 y.node
  setField Reg.trnNode 27 16 y.rank
  wr Reg.chkRedundancy (4 * b2n y.spare + y.cls)
  forA (List.range 15) fun k => wr (Reg.pwrClassPj k) (trunc 16 (p.pj.getD k 0))
  wr Reg.mgtEvalCores (leNat (s.sectionOf slot 9))
  forA (List.range s.nCores) fun n => wr (Reg.corePlayLib n) (s.slotLib slot)
  wr Reg.secPolicy (leNat (sec.take 4))
  wr Reg.mgtImageSeq (s.slotSeq slot)
  modify fun s =>
    { s with
      boot := { s.boot with svn := s.slotSvn slot, power := p, digests := (List.range' 1 9).map fun t =>
                  (((s.sections slot).find? (·.typ = t)).map (·.digest)).getD []
                            adj := (l.filter fun e => bit e.flags 0).map (·.off), changed := [], groups := y.groups
                            groupsDone := false }
      sec := { s.sec with policy := sec, aliasKeys := Config.keyPairs (cdi1 (s.signedPart slot)) } }

end Sys2Proof.Machine
end

