-- ==== Sys2Proof/Machine/Security.lean ====
section
/-! DEFINITION. The security controller (chapter 16): self-tests and the error state, zeroisation, anti-rollback, SPDM
sessions and services, IDE and MACsec keys, random numbers. -/

namespace Sys2Proof.Machine

/-! ## State of the controller -/

/-- Does the controller offer services (R388)? -/
def M.approved (s : M) : Bool := bit (s.reg Reg.secStatus) 31

/-- Is it in the error or the zeroised state? -/
def M.secDown (s : M) : Bool := bits (s.reg Reg.secStatus) 23 16 != 0 || bit (s.reg Reg.secStatus) 30

/-- Every volatile CSP is overwritten (R402): MACsec ports hold no SAK, IDE streams end, sessions close. -/
def clearSecrets : Act Unit := do
  modify fun s => { s with sec := { s.sec with draws := 0, sessions := [], ports := [], ide := [], aliasKeys := [] } }
  wr Reg.secSessions 0
  setField Reg.hstStatus 22 21 0
  forA (List.range 64) fun n => setField (Reg.ethPortStatus n) 26 26 0

/-- The error state (R400). -/
def securityError (code : Nat) : Act Unit := do
  clearSecrets
  wr Reg.secStatus (code <<< 16)

/-- Volatile zeroisation and the zeroised state (R402, R404), unless the error state, which has overwritten every secret and
ends only at a reset (R400). -/
def zeroiseNow : Act Unit := do
  let s ← get
  whenA (!s.secDown) do
    clearSecrets
    wr Reg.secStatus (1 <<< 30)
    upd Reg.secZeroiseCount fun c => satU 32 (c + 1)

/-- A list with x in it. -/
def insertNew (l : List Nat) (x : Nat) : List Nat := if l.contains x then l else l ++ [x]

/-- A function fails its self-test (R379): its bit of MGT_SELFTEST_FAIL, and a record, whose kind is left open. -/
def selfTestFails (fn : Nat) : Act Unit := do
  setField Reg.mgtSelftestFail fn fn 1
  let kind ← freeVal 16
  logAdd kind 0xFFFF 0 0xFF 0xFF 0 (List.replicate 36 0#8)

/-- R399: a security self-test ends: 1 ROM integrity, 2 CAST, 3 TRNG, 4 pairwise consistency. -/
def execSecuritySelfTest (test : Nat) (pass : Bool) (s : State) : Out := s.doing do
  let m ← get
  whenA (decide (1 ≤ test) && decide (test ≤ 4) && !m.secDown) do
    if pass then do
      modify fun s => { s with boot := { s.boot with tests := insertNew s.boot.tests test } }
      let m ← get
      whenA (m.boot.tests.contains 1 && m.boot.tests.contains 2) (setField Reg.secStatus 31 31 1)
    else do
      securityError test
      whenA (!bit (m.reg Reg.mgtReadyMap) 126) (selfTestFails 126)

/-! ## Random numbers (R398) -/

/-- n bytes from the DRBG. -/
def drbg (n : Nat) : Act (List Byte) := do
  modify fun s => { s with sec := { s.sec with draws := s.sec.draws + 1 } }
  freeBytes n

/-- R398: the health tests of a sample; a second failure in a row is an error. -/
def execTrngSample (pass : Bool) (s : State) : Out := s.doing do
  let m ← get
  if pass then modify fun s => { s with sec := { s.sec with alarm := false } }
  else do
    upd Reg.secTrngAlarms fun c => satU 64 (c + 1)
    modify fun s => { s with sec := { s.sec with alarm := true } }
    whenA (m.sec.alarm && !m.secDown) (securityError 3)

/-- R398: the DRBG is reseeded after 2^20 requests. -/
def execDrbgReseed (s : State) : Out := s.doing (modify fun s =>
  if s.sec.draws ≥ 2 ^ 20 then { s with sec := { s.sec with draws := 0 } } else s)

/-! ## Zeroisation and anti-rollback -/

/-- The confirmation of ZEROISE. -/
def zeroiseInput (input : List Byte) : Bool := input == leBytes 4 0x5A45524F

/-- A ZEROISE command and its return code (R401, R404). In the error state the service is stopped, and its answer left
open. -/
def zeroiseCommand (input : List Byte) : Act Nat := do
  let s ← get
  if !zeroiseInput input then pure 2
  else if bits (s.reg Reg.secStatus) 23 16 ≠ 0 then freeVal 16
  else do
    zeroiseNow
    pure 0

/-- R401: ZEROISE, by mailbox or over MCTP. -/
def execZeroise (viaMctp : Bool) (input : List Byte) (s : State) : Out := s.doing (
  if viaMctp then do
    let c ← zeroiseCommand input
    emit (.spdm true 9 (leBytes 2 c))
  else mailbox (.zeroise false input) do
    let c ← zeroiseCommand input
    pure (c, []))

/-- R401: the zeroisation input, sampled low for 1 ms. -/
def execZeroisePinLow (heldUs : Nat) (s : State) : Out := s.doing do
  let m ← get
  whenA (decide (heldUs ≥ 1000) && bit (m.reg Reg.secPolicy) 4) zeroiseNow

/-- R403: the zeroisation input held low for 5 s; a service that the error state stops (R400). -/
def execPermanentZeroisation (heldMs : Nat) (s : State) : Out := s.doing do
  let m ← get
  whenA (decide (heldMs ≥ 5000) && bit (m.reg Reg.secPolicy) 6 && bits (m.reg Reg.secStatus) 23 16 == 0) do
    zeroiseNow
    modify fun s => { s with fuses := { s.fuses with killed := true } }
    setField Reg.secRollback 8 8 1

/-- R391: fuses are blown until the counter equals the image's SVN. -/
def execRollbackAdvance (s : State) : Out := s.doing do
  let m ← get
  whenA (bit (m.reg Reg.secPolicy) 3 && decide (m.boot.svn > m.fuses.rollback) && bit (m.reg Reg.mgtReadyMap) 127) do
    modify fun s => { s with fuses := { s.fuses with rollback := m.boot.svn } }
    setField Reg.secRollback 7 0 m.boot.svn

/-! ## SPDM (R389, R393, R394) -/

/-- Does the responder hear a request on this transport? -/
def M.spdmOpen (s : M) (viaMctp : Bool) : Bool := s.approved && (!viaMctp || bit (s.reg Reg.secPolicy) 5)

/-- ERROR, with its SPDM code: 1 InvalidRequest, 3 Busy, 5 Unspecified. -/
def spdmError (viaMctp : Bool) (code : Nat) : Act Unit := emit (.spdm viaMctp 0 (leBytes 1 code))

/-- R393: GET_CERTIFICATE. -/
def execGetCertificate (viaMctp : Bool) (slot : Nat) (s : State) : Out := s.doing do
  let m ← get
  whenA (m.spdmOpen viaMctp) (
    if slot ≤ 1 then emit (.spdm viaMctp 1 (Config.certChain slot)) else spdmError viaMctp 1)

/-- R393: CHALLENGE: the hash of the chain, a nonce from the DRBG, and the signature, which is left open. -/
def execChallenge (viaMctp : Bool) (slot _nonce : Nat) (s : State) : Out := s.doing do
  let m ← get
  whenA (m.spdmOpen viaMctp) (
    if slot = 0 then do
      let n ← drbg 32
      let g ← freeBytes 384
      emit (.spdm viaMctp 2 (sha384 (Config.certChain 0) ++ n ++ g))
    else spdmError viaMctp 1)

/-- The content of a measurement block (Table 16-3). -/
def M.measurement (s : M) (index : Nat) : List Byte :=
  if index = 1 then sha384 Config.secRom else s.sec.measured.getD (index - 2) []

/-- R394: GET_MEASUREMENTS: the number of blocks for index 0, else the block; then the signature, which is left open. -/
def execGetMeasurements (viaMctp : Bool) (index : Nat) (s : State) : Out := s.doing do
  let m ← get
  whenA (m.spdmOpen viaMctp) do
    let g ← freeBytes 384
    emit (.spdm viaMctp 3 ((if index = 0 then [13#8] else m.measurement index) ++ g))

/-- CO_ROOT and USER_ROOT of the SECURITY section. -/
def Sec.coRoot (s : Sec) : List Byte := (s.policy.drop 16).take 48
def Sec.userRoot (s : Sec) : List Byte := (s.policy.drop 64).take 48

/-- Show the number of open sessions. -/
def showSessions : Act Unit := do
  let s ← get
  wr Reg.secSessions s.sec.sessions.length

/-- R389: KEY_EXCHANGE: a session in the role of the operator's root, Busy beyond four, an error for a root that has no
role. -/
def execKeyExchange (viaMctp : Bool) (rootHash : List Byte) (s : State) : Out := s.doing do
  let m ← get
  let zero := rootHash.all (· == 0#8)
  let co := !zero && rootHash == m.sec.coRoot
  whenA (m.spdmOpen viaMctp) (
    if m.sec.sessions.length ≥ 4 then spdmError viaMctp 3
    else if !co && (zero || rootHash != m.sec.userRoot) then spdmError viaMctp 5
    else
      match (List.range 4).find? fun i => !m.sec.sessions.any fun x => x.id == i with
      | none => spdmError viaMctp 3
      | some i => do
        let k ← drbg 96
        modify fun s => { s with sec := { s.sec with sessions := s.sec.sessions ++ [⟨i, co, viaMctp⟩] } }
        showSessions
        emit (.spdm viaMctp 4 (leBytes 1 i ++ k)))

/-- An open session. -/
def M.session (s : M) (i : Nat) : Option Session := if s.approved then s.sec.sessions.find? (·.id = i) else none

/-- R389: a session ends. -/
def execSessionEnd (session : Nat) (s : State) : Out := s.doing do
  modify fun s => { s with sec := { s.sec with sessions := s.sec.sessions.filter (·.id != session) } }
  showSessions

/-- R393: SIGN_PQ: the signature is left open. -/
def execSignPq (session : Nat) (s : State) : Out := s.doing do
  let m ← get
  match m.session session with
  | none => pure ()
  | some x => do
    let g ← freeBytes 16224
    emit (.spdm x.mctp 5 g)

/-! ## IDE keys (R395) -/

/-- A session in which the CO may program IDE keys: over DOE. -/
def M.ideSession (s : M) (i : Nat) : Option Session := (s.session i).filter fun x => x.co && !x.mctp

/-- Do something in a session, which a refusal answers with ERROR (Unspecified); a session that is not open is silent. -/
def inSession (i : Nat) (ok : Session → Bool) (kind : Nat) (a : Act Unit) : Act Unit := do
  let s ← get
  match s.session i with
  | none => pure ()
  | some x =>
    if ok x then do
      a
      emit (.spdm x.mctp kind [])
    else spdmError x.mctp 5

/-- The bit of HST_STATUS that shows a stream established. -/
def ideBit (stream : Nat) : Nat := if stream = 0 then 22 else 21

/-- R395: KEY_PROG. -/
def execKeyProg (session stream : Nat) (key : List Byte) (s : State) : Out := s.doing (
  inSession session (fun x => x.co && !x.mctp && key.length == 32) 6 (modify fun s =>
    { s with sec := { s.sec with ide := (s.sec.ide.filter (·.stream != stream)) ++ [⟨stream, key, false⟩] } }))

/-- Both streams are established again after an integrity failure (R319). -/
def ideBack : Act Unit := modify fun s =>
  if bits (s.reg Reg.hstStatus) 22 21 = 3 then { s with cxl := { s.cxl with ideLost := false } } else s

/-- R395: K_SET_GO. -/
def execKSetGo (session stream : Nat) (s : State) : Out := s.doing do
  let m ← get
  inSession session (fun x => x.co && !x.mctp && m.sec.ide.any (·.stream == stream)) 7 do
    modify fun s => { s with sec := { s.sec with ide := s.sec.ide.map fun k =>
      if k.stream = stream then { k with going := true } else k } }
    setField Reg.hstStatus (ideBit stream) (ideBit stream) 1
    ideBack

/-- R395: K_SET_STOP. -/
def execKSetStop (session stream : Nat) (s : State) : Out := s.doing (
  inSession session (fun x => x.co && !x.mctp) 7 do
    modify fun s => { s with sec := { s.sec with ide := s.sec.ide.filter (·.stream != stream) } }
    setField Reg.hstStatus (ideBit stream) (ideBit stream) 0)

/-! ## MACsec keys (R396) -/

/-- The controller of a port. -/
def M.ctrlOf (s : M) (port : Nat) : Nat := (s.portPlace port).1

/-- MACSEC_READY follows the SAKs that the controllers hold. -/
def showSaks : Act Unit := do
  let s ← get
  let held := (s.sec.ports.filter fun p => !p.saks.isEmpty).map (·.port)
  setField Reg.secStatus 15 0 ((List.range 16).foldl (fun a c => a + if held.any fun p => s.ctrlOf p == c then 2 ^ c else 0) 0)

/-- Install a SAK in the MACsec engine of a port, beside the one in use till then (R251, R396): under the next association number, with
packet numbers from 1 (log 100). -/
def installSak (port : Nat) (sak : List Byte) : Act Unit := do
  modify fun s => { s with sec := { s.sec with ports := s.sec.ports.map fun p =>
    if p.port = port then
      { p with saks := ({ an := (p.saks.head?.elim 0 fun k => (k.an + 1) % 4), key := sak } :: p.saks).take 2 }
    else p } }
  setField (Reg.ethPortStatus port) 26 26 1
  showSaks

/-- An MKA message leaves by a port, unprotected (log 100). -/
def sendMka (port : Nat) (sak : Bool) : Act Unit := do
  let s ← get
  whenA (s.portUp port && !s.board.portOff) do
    emit (.mka port { s.eth port true with sec := none } sak)
    portCount port 0x200 1

/-- R396: INSTALL_CAK. -/
def execInstallCak (session port : Nat) (cak ckn : List Byte) (s : State) : Out := s.doing do
  let m ← get
  let ok := cak.length == 32 && decide (1 ≤ ckn.length) && decide (ckn.length ≤ 32) && decide (port < m.nPorts)
    && bit (m.reg (Reg.ethPortCtl port)) 31
  inSession session (fun x => x.co && ok) 8 do
    modify fun s => { s with sec := { s.sec with ports := (s.sec.ports.filter (·.port != port)) ++
      [{ port := port, cak := cak, ckn := ckn, kek := Config.mkaKek cak ckn, ick := Config.mkaIck cak ckn }] } }
    setField (Reg.ethPortStatus port) 26 26 0
    showSaks
    sendMka port false

/-- R396: an MKA message: the key server of lower priority draws and distributes a SAK, or the peer's is installed; equal
priorities leave the server open. -/
def execMkpduReceived (port : Nat) (icvOk : Bool) (peerPriority : Nat) (sak : List Byte) (s : State) : Out := s.doing do
  let m ← get
  match m.sec.ports.find? (·.port = port) with
  | none => pure ()
  | some p => whenA (icvOk && m.approved) do
    let own := ((m.sec.policy.drop 4).headD 0#8).toNat
    let tie ← if own = peerPriority then freeVal 1 else pure (b2n (decide (own < peerPriority)))
    if bit (m.reg Reg.secPolicy) 2 && tie == 1 then whenA p.saks.isEmpty do
      let k ← drbg 32
      installSak port k
      sendMka port true
    else whenA (sak.length == 32 && !p.saks.any (·.key == sak)) (installSak port sak)

end Sys2Proof.Machine
end

