-- ==== Sys2Proof/Machine/Boot.lean ====
section
/-! DEFINITION. Bring-up (chapter 15): reset and the core map (R113, R369, R370, R380), slot verification (R376, R377), the
ready map (R379, R382), and the flash commands (R385). -/

namespace Sys2Proof.Machine

/-! ## The core map at reset (R113, R120, R380) -/

/-- Where the logical cores go: those bound to a position, guests with their hosts, and those without either. -/
structure Placing where
  bound : List (Nat × Nat) := []
  guests : List (Nat × Nat) := []
  lost : List Nat := []
  deriving DecidableEq, Repr

/-- State code of a position from fuses and the facts of the health record. -/
def posCode (fuses : Fuses) (facts : List Health) (i : Nat) : Nat :=
  if fuses.disabled.contains i then 3
  else match facts.find? fun h => h.about == (0x80, i) with
    | some h => if h.payload.getD 1 0#8 = 2#8 then 2 else 0
    | none => 0

/-- Bind the cores of each die to its healthy positions in rising order. -/
def placeHome (per : Nat) (healthy : List Nat) : List (Nat × Nat) :=
  [0, 1].flatMap fun d => (List.range' (per * d) per).zip (healthy.filter fun i => i / 64 == d)

/-- Place one core that its die has no position for: a bench position of the other die, else a host: the lowest logical ID of
its die, else of the other, that is bound and not doubled. -/
def placeLeft (per : Nat) (healthy : List Nat) (p : Placing) (n : Nat) : Placing :=
  match healthy.find? fun i => !p.bound.any fun (_, j) => j == i with
  | some i => { p with bound := p.bound ++ [(n, i)] }
  | none =>
    let ok := fun h => (p.bound.any fun (k, _) => k == h) && !(p.guests.any fun (_, k) => k == h)
    let mine := (List.range (2 * per)).filter fun h => ok h && h / per == n / per
    let other := (List.range (2 * per)).filter fun h => ok h && h / per != n / per
    match mine ++ other with
    | h :: _ => { p with guests := p.guests ++ [(n, h)] }
    | [] => { p with lost := p.lost ++ [n] }

/-- The placing of 2 × per logical cores on the healthy positions. -/
def placing (per : Nat) (healthy : List Nat) : Placing :=
  let home := placeHome per healthy
  ((List.range (2 * per)).filter fun n => !home.any fun (k, _) => k == n).foldl (placeLeft per healthy) { bound := home }

/-- Look a key up. -/
def lookup (l : List (Nat × Nat)) (k : Nat) : Option Nat := (l.find? fun (j, _) => j == k).map (·.2)

/-- The core map of a placing is written into the registers of Tables 05-2 to 05-5. -/
def writeMap (per : Nat) (code : Nat → Nat) (p : Placing) : Act Unit := do
  forA (List.range 256) fun n => do
    let v ← if n ≥ 2 * per then pure 0xFF0000
      else match lookup p.bound n, lookup p.guests n with
        | some i, _ => match p.guests.find? fun (_, h) => h == n with
          | some (g, _) => pure (0x90000000 + g <<< 16 + i)
          | none => pure (0x80FF0000 + i)
        | none, some h => pure (0xA0000000 + h <<< 16 + (lookup p.bound h).getD 0)
        | none, none => do
          let x ← freeVal 7
          pure (0x80FF0000 + x)
    wr (Reg.mgtCoreMap n) v
  let rest := (List.range 128).filter fun s => (lookup p.bound s).isNone
  let places := (List.range 128).filter fun i => !p.bound.any fun (_, j) => j == i
  let slices := p.bound ++ rest.zip places
  forA (List.range 128) fun s => wr (Reg.mgtSliceMap s) ((lookup slices s).getD 0)
  forA (List.range 128) fun i => wr (Reg.mgtPosState i) (
    match p.bound.find? fun (_, j) => j == i with
    | some (n, _) => n
    | none => if code i = 0 then 0x1FF else code i <<< 8 + 0xFF)
  let bench := fun d => ((List.range' (64 * d) 64).filter fun i => code i == 0 && !p.bound.any fun (_, j) => j == i).length
  wr Reg.mgtBenchCount (bench 1 <<< 8 + bench 0)

/-! ## Reset (R369, R370) -/

/-- The controller's running command leaves its slot partly written (R385). -/
def tearSlot : Act Unit := modify fun s =>
  let t := bits (s.reg Reg.mgtFlashStatus) 25 24
  if bits (s.reg Reg.mgtFlashStatus) 31 30 = 1 ∧ s.boot.cmd ≠ 3 then
    { s with boot := { s.boot with torn := insertNew s.boot.torn t } }
  else s

/-- The module as it stands at t0, before bring-up acts: every island, both stores and every register at its reset value; the
flash, the fuses and the board stay. -/
def M.atReset (s : M) : M :=
  { board := { s.board with live := true, stopped := false }
    boot := { flash := s.boot.flash, torn := s.boot.torn }
    fuses := s.fuses
    outs := s.outs
    free := s.free
    ticks := s.ticks }

/-- Bring-up acts at t0: BIST results, the core map, what fuses and health record show, the training of the far store, the epoch
(R113, R197, R257, R380). -/
def bringUp (bistFail : List Nat) : Act Unit := do
  forA bistFail fun i => healthAppend 0x80 [BitVec.ofNat 8 i, 2#8]
  let s ← get
  let facts := s.facts
  let code := posCode s.fuses facts
  let per := if s.fuses.standard then 48 else 60
  let p := placing per ((List.range 128).filter fun i => code i == 0)
  writeMap per code p
  wr Reg.mgtGrade (b2n s.fuses.standard)
  wr Reg.secRollback (b2n s.fuses.killed <<< 8 + s.fuses.rollback)
  forA (List.range 128) fun i =>
    whenA (facts.any fun h => h.about == (0x12, i) && h.payload.getD 1 0#8 == 0#8) do
      wr (Reg.chkPos i) (1 <<< 31)
      updPos i fun x => { x with csumOff := true }
  forA (List.range 179) fun i =>
    match facts.find? fun h => h.about == (0x23, i) with
    | none => pure ()
    | some h => wr (Reg.pwrTrim i) (leNat ((h.payload.drop 12).take 2) <<< 16 + (h.payload.getD 10 0#8).toNat)
  forA (List.range 8) fun k => wr (Reg.memSetState k) (1 <<< 30)
  let e ← freeVal 16
  wr Reg.trnEpoch (1 + e % 65535)
  modify fun s => { s with sec := { s.sec with draws := 1 } }
  forA p.lost fun n => logAdd 0x3E 177 0 n 0xFF 0 (payload [(0, 1, 2)])

/-- PERST# is deasserted, power is good, and the module is not yet out of reset. -/
def M.atT0 (s : M) : Bool :=
  s.board.powered && !s.board.tripped && !s.board.live && !s.board.perst9 && !s.board.perst10

/-- R369: pins are released; at t0 the module comes out of reset. -/
def execModuleReset (releaseJ9 releaseJ10 : Bool) (bistFail : List Nat) (s : State) : Out := s.always do
  modify fun s => { s with board := { s.board with perst9 := s.board.perst9 && !releaseJ9
                                                   perst10 := s.board.perst10 && !releaseJ10 } }
  let m ← get
  whenA m.atT0 do
    modify M.atReset
    bringUp bistFail

/-- R370, R435: PERST# is asserted on J9 or J10: running work is abandoned, and every island is held in reset. -/
def execPerstAssert (pin : Nat) (s : State) : Out := s.always do
  tearSlot
  modify fun s => { s with board := { s.board with perst9 := s.board.perst9 || pin == 0, perst10 := s.board.perst10 || pin == 1
                                                   live := false } }

/-! ## The ready map (R379, R382) -/

/-- Bits that exist in the grade, bit 127 aside. -/
def M.readyBits (s : M) : Nat := if s.standard then 2 ^ 127 - 2 ^ 120 + 2 ^ 96 - 1 else 2 ^ 127 - 1

/-- Set one ready bit: its stamp, and vector 67. -/
def setReady (fn : Nat) : Act Unit := do
  let s ← get
  whenA (!bit (s.reg Reg.mgtReadyMap) fn) do
    wr (Reg.mgtReadyStamp fn) (popcount 128 (s.reg Reg.mgtReadyMap) <<< 48 + trunc 48 (s.island 177))
    setField Reg.mgtReadyMap fn fn 1
    hostEmit (.msix 67)

/-- Bit 127 follows once every other bit of the grade is set. -/
def setModuleReady : Act Unit := do
  let s ← get
  whenA (s.reg Reg.mgtReadyMap &&& s.readyBits == s.readyBits) (setReady 127)

/-- The group records and member lists of SYSTEM go into the group table, once an image is applied and the far store is
ready (R375). -/
def writeGroups : Act Unit := do
  let s ← get
  whenA (bit (s.reg Reg.mgtReadyMap) 121 && bit (s.reg Reg.mgtReadyMap) 126) do
    forA s.boot.groups fun (id, rec, at', ms) => do
      let _ ← writeBytes (s.reg Reg.rlyGroupBase + 32 * id) ((rec ++ List.replicate 32 0#8).take 32)
      let _ ← writeBytes at' ms
      pure ()
    modify fun s => { s with boot := { s.boot with groupsDone := true } }

/-- Does the ready condition of a function hold (Table 15-6)? Bits 126 and 127 have no test of their own here. The far store
does not wait for the image (R379); in the recovery state no bit is set (R377). -/
def M.readyCond (s : M) (fn : Nat) : Bool :=
  let map := s.reg Reg.mgtReadyMap
  let image := bit map 126
  if fn < 120 then image && decide (fn < s.nCores) && s.coreMode fn != 2 && s.posState (s.posOf fn) == 0
    && s.logicalAt (s.posOf fn) == fn
  else if fn = 121 then bits (s.reg Reg.mgtBootStatus) 31 30 != 2 && (List.range 8).all fun k => s.setState k == 3
  else if fn = 124 then image && bit map 121 && s.boot.groupsDone
  else if fn = 125 then image && bit map 121
  else image && decide (fn < 126)

/-- R379: a function ends its self-test. A guest's bit is set with its host's (R380). -/
def execSelfTestComplete (fn : Nat) (pass : Bool) (s : State) : Out := s.doing do
  let m ← get
  whenA (decide (fn < 126) && !bit (m.reg Reg.mgtReadyMap) fn && !bit (m.reg Reg.mgtSelftestFail) fn) (
    if !pass then selfTestFails fn
    else whenA (m.readyCond fn) do
      setReady fn
      whenA (decide (fn < 120) && m.coreMode fn == 1) (setReady (bits (m.reg (Reg.mgtCoreMap fn)) 23 16))
      whenA (fn == 122) trainLinks
      whenA (fn == 121) do
        setField Reg.hstStatus 20 20 1
        writeGroups
      setModuleReady)

/-! ## Slot verification (R376, R377) -/

/-- The word of MGT_BOOT_STATUS. -/
def bootStatus (state slot errA errB : Nat) : Nat := state <<< 30 + slot <<< 29 + errA <<< 25 + errB <<< 21

/-- A slot is accepted: its image is applied, measurements are fixed (R394), bit 126 is set. -/
def acceptSlot (slot errA errB : Nat) : Act Unit := do
  applyImage slot
  wr Reg.mgtBootStatus (bootStatus 1 slot errA errB)
  modify fun s => { s with sec := { s.sec with measured := s.boot.digests ++
    [leBytes 4 s.boot.svn ++ leBytes 1 s.fuses.rollback, leBytes 4 (s.reg Reg.mgtGrade) ++ leBytes 4 (s.reg Reg.mgtBootStatus),
     leBytes 4 (s.reg Reg.secPolicy)] } }
  setReady 126
  writeGroups
  wr Reg.secDeviceidHash (leNat (sha384 Config.deviceIdCert))
  setModuleReady

/-- R376: the slots are checked in order; the first that passes every check is accepted. A blown kill fuse leaves the module
in recovery (R403). -/
def execSlotVerify (readErrA readErrB : Bool) (s : State) : Out := s.doing do
  let m ← get
  let err := fun k => if k = 0 then readErrA else readErrB
  let code := fun k a b => if k = 0 then (a, b) else (b, a)
  whenA (bits (m.reg Reg.mgtBootStatus) 31 30 == 0 && m.approved) (
    if m.fuses.killed then wr Reg.mgtBootStatus (bootStatus 2 0 15 15)
    else do
      let first := m.firstSlot
      let c1 ← checkSlot first (err first)
      if c1 = 0 then
        let (a, b) := code first 0 15
        acceptSlot first a b
      else do
        let c2 ← checkSlot (1 - first) (err (1 - first))
        let (a, b) := code first c1 c2
        if c2 = 0 then acceptSlot (1 - first) a b
        else wr Reg.mgtBootStatus (bootStatus 2 0 a b))

/-! ## Flash commands (R385) -/

/-- The target slot; none before bring-up has chosen. In recovery, a slot without MAGIC goes first. -/
def M.targetSlot (s : M) : Option Nat :=
  let b := s.reg Reg.mgtBootStatus
  let magic := fun k => s.flashNum (slotBase k) 4 == 0x41545250
  if bits b 31 30 = 1 then some (1 - bits b 29 29)
  else if bits b 31 30 = 2 then
    some (if !magic 0 then 0 else if !magic 1 then 1 else if s.slotSeq 1 < s.slotSeq 0 then 1 else 0)
  else none

/-- The word of MGT_FLASH_STATUS. -/
def flashStatus (state err target kib : Nat) : Nat := state <<< 30 + err <<< 26 + target <<< 24 + trunc 24 kib

/-- A flash command is accepted while none runs; a LEN that breaks its rule ends PROGRAM at once with ERROR 10. -/
def flashCommand (op len : Nat) : Act Unit := do
  let s ← get
  match s.targetSlot with
  | none => pure ()
  | some t =>
    whenA (bits (s.reg Reg.mgtFlashStatus) 31 30 != 1 && decide (1 ≤ op) && decide (op ≤ 3)) (
      if op = 2 ∧ (len % 256 ≠ 0 ∨ len > slotSize) then wr Reg.mgtFlashStatus (flashStatus 3 10 t 0)
      else do
        modify fun s => { s with boot := { s.boot with cmd := op, cmdLen := len } }
        wr Reg.mgtFlashStatus (flashStatus 1 0 t 0))

/-- R385: ERASE. -/
def execMgtFlashErase (s : State) (writer : Nat := 0) : Out :=
  s.doing (regAction writer true (.mgtFlashErase writer) (flashCommand 1 0))

/-- R385: PROGRAM. -/
def execMgtFlashProgram (len : Nat) (s : State) (writer : Nat := 0) : Out :=
  s.doing (regAction writer true (.mgtFlashProgram len writer) (flashCommand 2 len))

/-- R385: CHECK. -/
def execMgtFlashCheck (s : State) (writer : Nat := 0) : Out :=
  s.doing (regAction writer true (.mgtFlashCheck writer) (flashCommand 3 0))

/-- A command that fails leaves its slot partly written. -/
def flashFails (t err : Nat) : Act Unit := do
  let x ← freeVal 24
  modify fun s => { s with boot := { s.boot with torn := insertNew s.boot.torn t } }
  wr Reg.mgtFlashStatus (flashStatus 3 err t x)

/-- R385: the running command ends. -/
def execFlashCommandDone (deviceOk : Bool) (s : State) : Out := s.doing do
  let m ← get
  let t := bits (m.reg Reg.mgtFlashStatus) 25 24
  let len := m.boot.cmdLen
  let src := m.reg Reg.mgtFlashSrc
  whenA (bits (m.reg Reg.mgtFlashStatus) 31 30 == 1) (
    if m.boot.cmd = 3 then do
      let c ← if m.secDown then pure 8 else checkSlot t (!deviceOk)
      let x ← freeVal 24
      wr Reg.mgtFlashStatus (flashStatus (if c = 0 then 2 else 3) c t (if c = 0 then ceilDiv (m.slotLen t) 1024 else x))
    else if !deviceOk then flashFails t 9
    else if m.boot.cmd = 1 then do
      eraseFlash (slotBase t) slotSize
      modify fun s => { s with boot := { s.boot with torn := s.boot.torn.filter (· != t) } }
      wr Reg.mgtFlashStatus (flashStatus 2 0 t (slotSize / 1024))
    else if !inRegion src len then flashFails t 8
    else do
      let (p, bs) ← readBytes src len
      if p then flashFails t 8
      else do
        writeFlash (slotBase t) bs
        wr Reg.mgtFlashStatus (flashStatus 2 0 t (len / 1024)))

end Sys2Proof.Machine
end

