-- ==== Sys2Proof/Machine/Parity.lean ====
section
/-! DEFINITION. Module parity (R364 to R367): the refresh of the parity blocks of a save, the folding of chunks that arrive,
and the rebuild of a lost member's blocks on a spare. -/

namespace Sys2Proof.Machine

/-- G and r of the redundancy class (Table 14-6); none for class 0. -/
def M.parityShape (s : M) : Option (Nat × Nat) :=
  match bits (s.reg Reg.chkRedundancy) 1 0 with
  | 1 => some (8, 1)
  | 2 => some (12, 2)
  | 3 => some (12, 3)
  | _ => none

/-- Bytes of a chunk. -/
def parityChunk : Nat := 0x40000

/-- B: bytes of a block. -/
def M.parityB (s : M) (g r : Nat) : Nat := s.reg Reg.chkSaveLen / (g - r)
/-- Chunks of a block. -/
def M.parityN (s : M) (g r : Nat) : Nat := s.parityB g r / parityChunk
/-- Address of save block d. -/
def M.saveBlock (s : M) (g r d : Nat) : Nat := s.reg Reg.chkSaveBase + d * s.parityB g r
/-- Address of parity block k. -/
def M.parityBlock (s : M) (g r k : Nat) : Nat := s.reg Reg.chkParityBase + 0x1000 + k * s.parityB g r
/-- Address of staging slot n. -/
def M.paritySlot (s : M) (g r n : Nat) : Nat := s.reg Reg.chkParityBase + 0x1000 + r * s.parityB g r + parityChunk * n
/-- The module's place in its group, and the node at a place. -/
def M.place (s : M) (g : Nat) : Nat := s.rank % g
/-- The node at a place of the group. -/
def M.nodeAtPlace (s : M) (g q : Nat) : Nat := trunc 12 (Config.nodeOfRank (s.rank / g * g + q))
/-- STEP of the parity header, as it stands. -/
def M.parityStep (s : M) : Nat := s.num (s.reg Reg.chkParityBase) 5

/-- The parity header is read (R201): whether its line is poisoned, and its STEP. -/
def parityStep : Act (Bool × Nat) := do
  let s ← get
  let (p, _) ← readBytes (s.reg Reg.chkParityBase) 5
  let s ← get
  pure (p, s.parityStep)

/-- Change the parity state. -/
def updParity (f : Parity → Parity) : Act Unit := modify fun s => { s with rly := { s.rly with parity := f s.rly.parity } }

/-- The run ends: STATE 2 or 3, with the status, and a log record. A header that cannot be written for poison ends it with
STATUS_MEM_POISON (R205). -/
def parityEnd (state err : Nat) : Act Unit := do
  let s ← get
  let st := s.rly.parity.step
  let d ← if state = 2 then writeBytes (s.reg Reg.chkParityBase) (leBytes 5 st) else pure false
  let state := if d then 3 else state
  let err := if d then 3 else err
  let (_, hdr) ← parityStep
  wr Reg.chkParityState (state <<< 62 + trunc 16 err <<< 40 + hdr)
  updParity fun _ => {}
  logAdd 0x31 0xFFFF st 0xFF 0xFF 0 (payload [(0, 2, s.node), (2, 1, state), (3, 1, err)])

/-- Chunks that are to be taken in: by slot number in a refresh, by the survivors' order in a rebuild. -/
def M.parityWant (s : M) (g r : Nat) (p : Parity) : List (Nat × Nat) :=
  if p.mode = 1 then (List.range (r * (g - r))).map fun n => (n, s.parityN g r) else []

/-- Members whose blocks of row i survive, ranked by data index and then by parity index, the first G − r of them: (place,
block), a block being a data index or G − r + a parity index (R367). -/
def rowSources (g r lost i : Nat) : List (Nat × Nat) :=
  (((List.range (g - r)).map fun d => ((i + r + d) % g, d)) ++ ((List.range r).map fun k => ((i + k) % g, g - r + k))
    |>.filter fun (q, _) => !bit lost q).take (g - r)

/-- What place q sends in a rebuild, in order: (row, block, chunk). -/
def M.rebuildSends (s : M) (g r lost q : Nat) : List (Nat × Nat × Nat) :=
  (List.range g).flatMap fun i =>
    match (rowSources g r lost i).find? fun (p, _) => p == q with
    | none => []
    | some (_, b) => (List.range (s.parityN g r)).map fun c => (i, b, c)

/-- Has the run done all its work? -/
def M.parityDone (s : M) (g r : Nat) : Bool :=
  let p := s.rly.parity
  p.todo.isEmpty && p.flying.isEmpty &&
    (if p.mode = 1 then (s.parityWant g r p).all fun (n, k) => Tab.read (fun _ => 0) p.taken n == k
     else if p.mode = 3 then (List.range g).all fun q =>
       bit p.lost q || Tab.read (fun _ => 0) p.taken q == (s.rebuildSends g r p.lost q).length
     else true)

/-- Post the next chunk for every node that none is on its way to, n at most. -/
def paritySend : Nat → Act Unit
  | 0 => pure ()
  | n + 1 => do
    let s ← get
    let p := s.rly.parity
    match p.todo.findIdx? fun (node, _, _) => !p.flying.contains node with
    | none => pure ()
    | some i =>
      match p.todo[i]? with
      | none => pure ()
      | some (node, src, slot) => do
        updParity fun p => { p with todo := p.todo.eraseIdx i, flying := p.flying ++ [node] }
        let bad ← readLines (linesOf src parityChunk)
        let s ← get
        postMessage node { cls := 2, tag := slot / 1024, owner := .parity node
                           lines := messageLines 0 (s.bytes src parityChunk) (bad.map (· - src / 32)) }
        paritySend n

/-- End the run if its work is done. -/
def parityCheck : Act Unit := do
  let s ← get
  match s.parityShape with
  | none => pure ()
  | some (g, r) => whenA (s.rly.parity.mode != 0 && s.parityDone g r) (parityEnd 2 0)

/-- A MSG_STATUS answers the chunk on its way to a node (R366). -/
def parityAnswered (node status : Nat) : Act Unit := do
  let s ← get
  if s.rly.parity.mode = 0 ∨ !s.rly.parity.flying.contains node then pure ()
  else if status ≠ 0 then parityEnd 3 status
  else do
    updParity fun p => { p with flying := p.flying.filter (· ≠ node) }
    paritySend 1
    parityCheck

/-- A run starts: STATE 1. -/
def parityStart (mode step lost : Nat) (todo : List (Nat × Nat × Nat)) : Act Unit := do
  let (_, hdr) ← parityStep
  wr Reg.chkParityState (1 <<< 62 + hdr)
  updParity fun _ => { mode := mode, step := step, lost := lost, todo := todo }
  paritySend 16
  parityCheck

/-- R366: a refresh starts: the parity blocks are zeroed, and every block goes to its row's holders. -/
def parityRefresh (step : Nat) : Act Unit := do
  let s ← get
  match s.parityShape with
  | none => pure ()
  | some (g, r) =>
    whenA (s.rly.parity.mode == 0) do
      let q := s.place g
      let a := s.parityBlock g r 0
      zeroLines fun x => decide (a ≤ x) && decide (x < a + r * s.parityB g r)
      let todo := (List.range (g - r)).flatMap fun d => (List.range r).flatMap fun k =>
        let i := (q + 2 * g - d - r) % g
        (List.range (s.parityN g r)).map fun c =>
          (s.nodeAtPlace g ((i + k) % g), s.saveBlock g r d + c * parityChunk, s.paritySlot g r (k * (g - r) + d))
      parityStart 1 step 0 todo

/-- Address of block b of this member. -/
def M.ownBlock (s : M) (g r b : Nat) : Nat := if b < g - r then s.saveBlock g r b else s.parityBlock g r (b - (g - r))

/-- R367: a survivor sends its blocks to the spares; a header of another step ends the run. The slot that a survivor uses is
its place among the survivors (log 23). -/
def rebuildSurvivor (step lost : Nat) : Act Unit := do
  let s ← get
  match s.parityShape with
  | none => pure ()
  | some (g, r) =>
    if s.rly.parity.mode ≠ 0 then pure ()
    else do
      let (p, hdr) ← parityStep
      if p ∨ hdr ≠ step then do
        let err ← freeVal 16
        updParity fun p => { p with step := step }
        parityEnd 3 (if p then 3 else err)
      else do
        let q := s.place g
        let slot := ((List.range q).filter fun p => !bit lost p).length
        let spares := (List.range g).filter (bit lost)
        let todo := (s.rebuildSends g r lost q).flatMap fun (_, b, c) => spares.map fun p =>
          (s.nodeAtPlace g p, s.ownBlock g r b + c * parityChunk, s.paritySlot g r slot)
        parityStart 2 step lost todo

/-- R367: a spare waits for the survivors' blocks. -/
def rebuildSpare (step lost : Nat) : Act Unit := do
  let s ← get
  whenA (s.parityShape.isSome && s.rly.parity.mode == 0) (parityStart 3 step lost [])

/-! ## Arriving chunks -/

/-- XOR a chunk, multiplied by a coefficient, into parity bytes. -/
def foldBytes (coef : Nat) (old new : List Byte) : List Byte :=
  List.zipWith (fun a b => BitVec.ofNat 8 (a.toNat ^^^ gfMul coef b.toNat)) old new

/-- A chunk is read: its bytes, and the places of its poisoned lines. -/
def readChunk (a : Nat) : Act (List Byte × List Nat) := do
  let bad ← readLines (linesOf a parityChunk)
  let s ← get
  pure (s.bytes a parityChunk, bad.map (· - a / 32))

/-- A chunk is written; the lines at some places depend on poisoned lines and are written poisoned (Table 08-6). -/
def writeChunk (a : Nat) (data : List Byte) (bad : List Nat) : Act Unit := do
  let _ ← writeBytes a data
  forA bad fun l => poisonLine (a / 32 + l)

/-- Fold the next chunk of staging slot n (R366 step 4). -/
def foldSlot (g r n : Nat) : Act Unit := do
  let s ← get
  let c := Tab.read (fun _ => 0) s.rly.parity.taken n
  let k := n / (g - r)
  let d := n % (g - r)
  whenA (decide (c < s.parityN g r)) do
    let a := s.parityBlock g r k + c * parityChunk
    let (new, bad) ← readChunk (s.paritySlot g r n)
    let (old, badOld) ← readChunk a
    writeChunk a (foldBytes (gfAlpha (k * d)) old new) (bad ++ badOld).eraseDups
    updParity fun p => { p with taken := Tab.put (fun _ => 0) p.taken n (c + 1) }
    parityCheck

/-- One row of the elimination: subtract a multiple of `p` that clears column k of `v`. -/
def gfReduceRow (k : Nat) (p v : List Nat) : List Nat :=
  let f := v.getD k 0
  List.zipWith (fun x y => x ^^^ gfMul f y) v p

/-- Gauss–Jordan elimination over GF(2^8) of rows (coefficients, then right-hand sides), from column k on, n columns. -/
def gfSolve : Nat → Nat → List (List Nat) → List (List Nat)
  | 0, _, rows => rows
  | n + 1, k, rows =>
    match (rows.drop k).findIdx? fun v => v.getD k 0 ≠ 0 with
    | none => rows
    | some i =>
      let piv := (rows.getD (k + i) []).map fun x => gfMul x (gfInv ((rows.getD (k + i) []).getD k 0))
      let others := rows.eraseIdx (k + i)
      let cleared := others.map (gfReduceRow k piv)
      gfSolve n (k + 1) (cleared.take k ++ [piv] ++ cleared.drop k)

/-- The data bytes of a row at one byte position from the blocks that are known: (block, byte). -/
def rowData (g r : Nat) (known : List (Nat × Nat)) : List Nat :=
  let m := g - r
  let eqs := known.map fun (b, v) =>
    ((List.range m).map fun d => if b < m then b2n (b == d) else gfAlpha ((b - m) * d)) ++ [v]
  (gfSolve m 0 eqs).map fun row => row.getD m 0

/-- The bytes of block b of a row from known blocks. -/
def rowBlock (g r b : Nat) (known : List (Nat × List Byte)) : List Byte :=
  (List.range parityChunk).map fun i =>
    let data := rowData g r (known.map fun (k, bs) => (k, (bs.getD i 0#8).toNat))
    BitVec.ofNat 8 (if b < g - r then data.getD b 0
      else (data.zipIdx).foldl (fun a (v, d) => a ^^^ gfMul (gfAlpha ((b - (g - r)) * d)) v) 0)

/-- A chunk from the survivor at place q arrives at a spare: when the row's blocks are all there, the row is solved and the
spare's own block of it written (R367). -/
def rebuildChunk (g r q slot : Nat) : Act Unit := do
  let s ← get
  let p := s.rly.parity
  let n := Tab.read (fun _ => 0) p.taken q
  match (s.rebuildSends g r p.lost q)[n]? with
  | none => pure ()
  | some (i, b, c) => do
    let (bs, bad) ← readChunk (s.paritySlot g r slot)
    updParity fun p => { p with taken := Tab.put (fun _ => 0) p.taken q (n + 1), pieces := p.pieces ++ [(i, c, b, bs, bad)] }
    let s ← get
    let have' := s.rly.parity.pieces.filter fun (i', c', _) => i' == i && c' == c
    whenA (have'.length == g - r) do
      let known := have'.map fun (_, _, b, bs, _) => (b, bs)
      let k := (s.place g + g - i) % g
      let own := if k < r then g - r + k else k - r
      writeChunk (s.ownBlock g r own + c * parityChunk) (rowBlock g r own known)
        (have'.flatMap fun (_, _, _, _, bad) => bad).eraseDups
      updParity fun p => { p with pieces := p.pieces.filter fun (i', c', _) => !(i' == i && c' == c) }
    parityCheck

/-- A class 2 message has been written at an address, from a node: it may be a parity chunk. -/
def parityArrived (node addr : Nat) : Act Unit := do
  let s ← get
  match s.parityShape with
  | none => pure ()
  | some (g, r) =>
    match (List.range (r * (g - r))).find? fun n => s.paritySlot g r n == addr with
    | none => pure ()
    | some n =>
      if s.rly.parity.mode = 1 then foldSlot g r n
      else if s.rly.parity.mode = 3 then
        match (List.range g).find? fun q => s.nodeAtPlace g q == node with
        | none => pure ()
        | some q => rebuildChunk g r q n
      else pure ()

/-- R366: CHK_PARITY_GO with MODE 1. -/
def execParityRefresh (stepS : Nat) (s : State) (writer : Nat := 0) : Out :=
  s.doing (regAction writer false (.parityRefresh stepS writer) (parityRefresh stepS))

/-- R367: CHK_PARITY_GO with MODE 2. -/
def execParityRebuildSurvivor (stepS lost : Nat) (s : State) (writer : Nat := 0) : Out :=
  s.doing (regAction writer false (.parityRebuildSurvivor stepS lost writer) (rebuildSurvivor stepS lost))

/-- R367: CHK_PARITY_GO with MODE 3. -/
def execParityRebuildSpare (stepS lost : Nat) (s : State) (writer : Nat := 0) : Out :=
  s.doing (regAction writer false (.parityRebuildSpare stepS lost writer) (rebuildSpare stepS lost))

end Sys2Proof.Machine
end

