-- ==== Sys2Proof/Machine/Wire.lean ====
section
/-! DEFINITION. Mirzu transport, the receiving side (chapter 10): frames, packets by type, acknowledgement, lost peers,
context misses, links, and the takeover of an address (R271, R272). -/

namespace Sys2Proof.Machine

/-! ## Headers -/

/-- A packet's header fields (Table 10-3), and its payload. -/
structure Hdr where
  ver : Nat
  typ : Nat
  flags : Nat
  src : Nat
  dst : Nat
  epoch : Nat
  b8 : Nat
  b12 : Nat
  b16 : Nat
  plen : Nat
  path : Nat
  cls : Nat
  tag : Nat
  ts : Nat
  body : List Byte

/-- Read a packet. -/
def Hdr.parse (p : List Byte) : Hdr :=
  let x := leNat (p.take 32)
  { ver := bits x 7 4, typ := bits x 3 0, flags := bits x 11 8, src := bits x 31 16, dst := bits x 47 32
    epoch := bits x 63 48, b8 := bits x 95 64, b12 := bits x 127 96, b16 := bits x 159 128, plen := bits x 175 160
    cls := bits x 179 176, path := bits x 183 180, tag := bits x 223 192, ts := bits x 255 224, body := p.drop 32 }

/-- Does PAYLOAD_LEN suit the type (Table 10-4, R255)? -/
def Hdr.lenOk (h : Hdr) : Bool :=
  h.body.length == h.plen &&
    (if h.typ = 0 then h.plen % 36 == 0 && decide (36 ≤ h.plen) && decide (h.plen ≤ 8172)
     else if h.typ = 1 then h.plen == 320 else h.plen == 0)

/-- Is the packet one that R256 drops: version, type, class, receiver, length, fence? -/
def M.badPacket (s : M) (packet : List Byte) (h : Hdr) : Bool :=
  decide (packet.length < 32) || h.ver != 2 || decide (h.typ ≥ 8)
    || ((h.typ == 0 || h.typ == 2) && h.cls != 1 && h.cls != 2) || h.dst != s.node || decide (h.src ≥ 4096) || !h.lenOk
    || (s.rally h.src).fenced == some h.epoch

/-- A packet is dropped and counted. -/
def dropPacket (port : Nat) : Act Unit := do
  inc64 Reg.trnDrops
  portCount port 0x28C 1

/-! ## Lost peers (R258) -/

/-- A collective loses a peer (Table 11-9). -/
def collLost (peer e group seq : Nat) : Act Unit := do
  let s ← get
  match s.coll e group seq with
  | none => pure ()
  | some c => failColl e c 0xA none (some peer)

/-- The owner of a message hears that its peer is lost. -/
def ownerLost (peer : Nat) (o : Owner) : Act Unit :=
  match o with
  | .none => pure ()
  | .chunk e g q _ _ => collLost peer e g q
  | .control e g q => collLost peer e g q
  | .snapshot core x => endRingOp core x 0xA 0 0
  | .parity _ => do
    let s ← get
    whenA (s.rly.parity.mode != 0) (parityEnd 3 0xA)

/-- The collective of an inbound class 1 message whose line 0 is here loses its peer. -/
def inLost (peer : Nat) (m : InMsg) : Act Unit :=
  match m.line0 with
  | some h => collLost peer (bits m.tag 13 12) (bits m.tag 31 16) h.seq
  | none => pure ()

/-- X's inbound messages complete as peer lost. -/
def loseInbound (peer : Nat) : Act Unit := do
  let s ← get
  let l := (s.rally peer).ins
  updRally peer fun r => { r with ins := [] }
  forA l (inLost peer)

/-- Every open message with a peer, in both directions, completes as peer lost; a message is open once its first packet has
been sent (R261), and one that is only posted stays. -/
def loseOpen (peer : Nat) : Act Unit := do
  let s ← get
  let l := (s.rally peer).msgs
  updRally peer fun r => { r with msgs := l.filter (·.mseq.isNone), unacked := [], stats := [] }
  loseInbound peer
  forA (l.filter (·.mseq.isSome)) fun m => ownerLost peer m.owner

/-- Every message with a peer, open or posted, completes as peer lost. -/
def loseAll (peer : Nat) : Act Unit := do
  loseOpen peer
  let s ← get
  let l := (s.rally peer).msgs
  updRally peer fun r => { r with msgs := [] }
  forA l fun m => ownerLost peer m.owner

/-! ## Acknowledgement (R262) -/

/-- Send an ACK that names a packet by path and TS (Table 10-5). -/
def sendAck (peer path ts : Nat) : Act Unit := do
  let s ← get
  let r := s.rally peer
  let counts := (List.range 16).flatMap fun k =>
    leBytes 2 (Tab.read (fun _ => 0) r.recv k) ++ leBytes 2 (Tab.read (fun _ => 0) r.ce k)
  updRally peer fun r => { r with since := 0, recv := [], ce := [] }
  portCount ((s.pathPort path).getD 0) 0x287 1
  sendControl peer path 1 0 ts 0 (leBytes 256 r.sack ++ counts) r.inAck

/-- Shift the bitmap over every set bit at its bottom, advancing ACK_PSN; n at most. -/
def Rally.advance (r : Rally) : Nat → Rally
  | 0 => r
  | n + 1 => if bit r.sack 0 then Rally.advance { r with sack := r.sack / 2, inAck := trunc 32 (r.inAck + 1) } n else r

/-- Does a packet at distance d create a hole, or fill one? -/
def Rally.holeAt (r : Rally) (d : Nat) : Bool :=
  if r.sack = 0 then d != 0 else decide (d > Nat.log2 r.sack + 1) || decide (d < Nat.log2 r.sack)

/-- A sequenced packet is taken: its bit is set, and the receiver acknowledges where R262 says so at once. -/
def takeSeq (peer d : Nat) (h : Hdr) : Act Unit := do
  let s ← get
  let r := s.rally peer
  let hole := r.holeAt d
  updRally peer fun r =>
    { r with sack := r.sack ||| 2 ^ d, since := r.since + 1, trig := if r.since = 0 then (h.path, h.ts) else r.trig }
  updRally peer fun r => r.advance 2048
  whenA (hole || bit h.flags 1 || decide (r.since + 1 ≥ 8)) (sendAck peer h.path h.ts)

/-! ## DATA (R260 to R265) -/

/-- A line of a payload as the receiver decodes it (R255): poisoned or not, its data; what it records in MEM_LAST_ERR. -/
def decodeLine (cw : List Byte) : Bool × List Byte × Option (Nat × Nat × Nat) :=
  let w := cw.map (·.toNat)
  match rsDecode w with
  | .ok => (false, cw.take 32, none)
  | .poisoned => (true, cw.take 32, none)
  | .corrected i e => (false, ((rsRepair w (.corrected i e)).take 32).map (BitVec.ofNat 8), some (1, syndNum w, i))
  | .uncorrectable => (true, cw.take 32, some (2, syndNum w, 63))

/-- The codewords of a payload. -/
def codewordsOf (body : List Byte) : List (List Byte) :=
  (List.range (body.length / 36)).map fun i => (body.drop (36 * i)).take 36

/-- Decode the lines of a payload; `addr i` is the device address of line i where it has one. A correction is counted, an
uncorrectable line is counted and logged (R203, R204). -/
def decodeLines (body : List Byte) (addr : Nat → Option Nat) : Act (List (Bool × List Byte)) :=
  mapA ((codewordsOf body).zipIdx) fun (cw, i) => do
    let (p, data, err) := decodeLine cw
    match err with
    | none => pure ()
    | some (kind, synd, sym) => do
      let a ← match addr i with
        | some a => pure a
        | none => freeVal 42
      wr Reg.memLastErr (lastErr 5 kind a synd sym)
      if kind = 1 then inc64 Reg.memCeCount
      else do
        inc64 Reg.memUeCount
        logAdd 0x01 172 0 0xFF 0xFF 0 (payload [(0, 8, a), (8, 1, 5), (12, 4, synd)])
    pure (p, data)

/-- Does a range lie inside one enabled remote-write window (R265)? -/
def M.inWindow (s : M) (a n : Nat) : Bool :=
  (List.range 8).any fun r =>
    let w := s.reg (Reg.trnRwin r)
    let base := bits w 41 12 * 4096
    bit w 63 && bits w 62 42 != 0 && decide (base ≤ a) && decide (a + n ≤ base + bits w 62 42 * 4096)

/-- Is a message's every line from 0 to `last` in the runs? -/
def covered (runs : List (Nat × Nat)) : Nat → Nat → Bool
  | 0, _ => true
  | n + 1, o => runs.any (fun (a, k) => decide (a ≤ o) && decide (o < a + k)) && covered runs n (o + 1)

/-- Is an inbound message complete (R264), or complete apart from lines that it omits (R265): its EOM packet and every packet
before it have arrived? An aborted one is over once every packet up to its last, or its MSG_STATUS, has arrived (R266). -/
def Rally.msgComplete (r : Rally) (m : InMsg) : Bool :=
  match m.last with
  | none => false
  | some (psn, off) => (!m.aborted && covered m.runs (off + 1) 0) || decide (trunc 32 (r.inAck + 2 ^ 32 - psn) < 2 ^ 31)

/-- Does a message lie inside the notice region (R353)? -/
def M.isNotice (s : M) (m : InMsg) : Bool :=
  let b := s.reg Reg.chkNoticeBase
  !m.runs.isEmpty && m.runs.all fun (o, k) =>
    decide (b ≤ m.tag * 1024 + 32 * o) && decide (m.tag * 1024 + 32 * (o + k) ≤ b + 131072)

/-- A complete inbound message is reported to its owner (R264): a class 1 message to its Relay engine, a class 2 message with the answer
of its status. -/
def messageComplete (peer : Nat) (m : InMsg) : Act Unit := do
  updRally peer fun r => { r with ins := r.ins.filter (·.mseq ≠ m.mseq) }
  if m.cls = 1 then relayMessage peer m.tag m.lines
  else do
    whenA (!m.rejected) (parityArrived peer (m.tag * 1024))
    let s ← get
    whenA (!m.rejected && s.isNotice m) do
      inc64 Reg.chkNoticesIn
      hostEmit (.msix 66)
    queueStatus peer (m.mseq, 2, m.tag, if m.rejected then 1 else if m.poisoned then 3 else 0)

/-- Complete what is complete. -/
def completeIn (peer : Nat) : Act Unit := do
  let s ← get
  let r := s.rally peer
  forA (r.ins.filter r.msgComplete) fun m => if m.aborted then updRally peer fun r =>
    { r with ins := r.ins.filter (·.mseq ≠ m.mseq) } else messageComplete peer m

/-- May the Relay engine take a class 1 packet (R264, R290)? That is known once line 0 of the message is, and is not poisoned. -/
def M.relayTakes (s : M) (m : InMsg) (h : Hdr) : Bool :=
  let first := if h.b16 = 0 then ((codewordsOf h.body).head?).bind fun cw => let (p, data, _) := decodeLine cw; if p then none else some (Line0.parse data)
    else m.line0
  match first with
  | none => true
  | some l => s.relayAccepts h.src m.tag l

/-- Place a new DATA packet in its message. -/
def placeData (peer d : Nat) (m : InMsg) (h : Hdr) : Act Unit := do
  let s ← get
  let n := h.plen / 36
  let base := h.tag * 1024 + 32 * h.b16
  let ok := m.cls == 1 || (s.inWindow base (32 * n) && inRegion base (32 * n))
  let ls ← if ok && !m.aborted then decodeLines h.body (fun i => if m.cls = 2 then some (base + 32 * i) else none) else pure []
  whenA (ok && m.cls == 2)
    (forA ls.zipIdx fun ((p, data), i) => modify fun s => s.putLine (base / 32 + i) data p)
  let m' : InMsg :=
    { m with runs := m.runs ++ [(h.b16, n)]
             lines := if m.cls = 1 ∧ !m.aborted then m.lines ++ (ls.zipIdx).map fun ((p, data), i) => (h.b16 + i, p, data) else []
             last := if bit h.flags 0 then some (h.b8, h.b16 + n - 1) else m.last
             rejected := m.rejected || !ok, poisoned := m.poisoned || ls.any Prod.fst }
  updRally peer fun r => { r with ins := r.ins.filter (·.mseq ≠ m.mseq) ++ [m'] }
  takeSeq peer d h
  completeIn peer

/-- An outbound message ends; its owner hears the status of a MSG_STATUS, or that every packet is acknowledged. -/
def outDone (peer : Nat) (m : OutMsg) (status : Nat) : Act Unit := do
  updRally peer fun r => { r with msgs := r.msgs.filter (·.mseq ≠ m.mseq) }
  match m.owner with
  | .none => pure ()
  | .control _ _ _ => pure ()
  | .snapshot core x => endRingOp core x status 0 0
  | .parity node => parityAnswered node status
  | .chunk e g q leg idx => do
    let s ← get
    match s.coll e g q with
    | none => pure ()
    | some c =>
      match c.rankOf peer with
      | none => pure ()
      | some rank => do
        let fl := c.flying.filter fun (l, k, i) => !(l == leg && k == rank && i == idx)
        updColl e g q fun c => { c with flying := fl }
        let rest := fl.any (fun (l, _, i) => l == 1 && i == idx) || c.ready.any fun r => r.leg == 1 && r.g == idx
        match c.chunk idx with
        | none => pure ()
        | some k =>
          match c.parent k.shard c.me with
          | none => pure ()
          | some p => whenA (leg == 1 && !rest) (grant e g q p 1)

/-- MSG_STATUS (R265, R266): it ends our message of that MSG_SEQ, class and tag, or as aborted the peer's: packets of that message
that are still on their way are discarded. -/
def takeStatus (peer : Nat) (h : Hdr) : Act Unit := do
  let s ← get
  match (s.rally peer).msgs.find? fun m => m.mseq == some h.b12 && m.cls == h.cls && m.tag == h.tag with
  | some m => outDone peer m (bits h.b16 15 0)
  | none => whenA (bits h.b16 15 0 == 4) (updRally peer fun r => { r with ins := r.ins.filter (·.mseq ≠ h.b12) ++
      [{ mseq := h.b12, cls := h.cls, tag := h.tag, aborted := true, last := some (h.b8, 0) }] })

/-- A sequenced packet (R256, R260, R261). -/
def recvSeq (port : Nat) (ce : Bool) (h : Hdr) : Act Unit := do
  let s ← get
  let peer := h.src
  let r := s.rally peer
  if !r.inOpen ∨ r.inEpoch ≠ h.epoch then do
    dropPacket port
    portCount port 0x28B 1
    sendControl peer h.path 5 0 0 h.epoch [] 0
  else do
    whenA (h.typ == 0) do
      portCount port 0x281 1
      portCount port 0x283 h.plen
      let one := fun (t : Tab Nat) => Tab.put (fun _ => 0) t h.path (satU 16 (Tab.read (fun _ => 0) t h.path + 1))
      updRally peer fun r => { r with recv := one r.recv, ce := if ce then one r.ce else r.ce }
    let d := trunc 32 (h.b8 + 2 ^ 33 - r.inAck - 1)
    if d < 2048 ∧ !bit r.sack d then
      if h.typ = 2 then do
        takeSeq peer d h
        takeStatus peer h
        completeIn peer
      else
        let m := (r.ins.find? (·.mseq = h.b12)).getD { mseq := h.b12, cls := h.cls, tag := h.tag }
        if !(r.ins.any (·.mseq = h.b12)) ∧ r.ins.length ≥ 32 then dropPacket port
        else if m.cls = 1 ∧ !m.aborted ∧ !s.relayTakes m h then dropPacket port
        else placeData peer d m h
    else if d < 2048 ∨ d ≥ 2 ^ 31 then do
      portCount port 0x289 1
      sendAck peer h.path h.ts
    else dropPacket port

/-! ## ACK (R263) -/

/-- Is a PSN acknowledged by ACK_PSN a and bitmap? -/
def ackedBy (a sack psn : Nat) : Bool :=
  decide (trunc 32 (a + 2 ^ 32 - psn) < 2 ^ 31) ||
    (let i := trunc 32 (psn + 2 ^ 33 - a - 1); decide (i < 2048) && bit sack i)

/-- Acknowledged packets with higher PSNs that an ACK shows. -/
def higherAcked (a sack psn : Nat) : Nat :=
  let i := trunc 32 (psn + 2 ^ 33 - a - 1)
  if i < 2048 then ((List.range 2048).filter fun j => decide (i < j) && bit sack j).length else 0

/-- An ACK: it acknowledges packets, gives a sample and the congestion counts, retransmits what it shows lost, and completes
class 1 messages. -/
def recvAck (port : Nat) (h : Hdr) : Act Unit := do
  let s ← get
  let peer := h.src
  let r := s.rally peer
  portCount port 0x288 1
  whenA (r.out == 2) do
    let body := leNat h.body
    let sack := trunc 2048 body
    let us := Config.cyclesPerUs 172
    let x := trunc 32 (s.now + 2 ^ 32 - h.b12)
    let newer := decide (trunc 32 (h.b8 + 2 ^ 32 - r.acked) < 2 ^ 31)
    updRally peer fun r =>
      { r with acked := if newer then h.b8 else r.acked
               unacked := r.unacked.filter fun p => !ackedBy h.b8 sack p.psn
               paths := r.paths }
    updRally peer fun r => r.setPath h.path fun p => { p.sample s.now x (1000000 * us) with touts := 0 }
    forA (List.range 16) fun k =>
      whenA (bits body (2048 + 32 * k + 15) (2048 + 32 * k) != 0)
        (updRally peer fun r => r.setPath k fun p =>
          { p with recv := p.recv + bits body (2048 + 32 * k + 15) (2048 + 32 * k)
                   ce := p.ce + bits body (2048 + 32 * k + 31) (2048 + 32 * k + 16) })
    let s ← get
    let r := s.rally peer
    let slack := bits (s.reg Reg.trnTiming) 7 0 * us
    let lost := r.unacked.filter fun p =>
      decide (higherAcked h.b8 sack p.psn ≥ 3) && decide (s.now ≥ p.sentAt + slack)
        && (match p.retxAt with | none => true | some t => decide (s.now ≥ t + (r.path p.path).srtt))
    forA lost fun p => do
      portCount ((s.pathPort p.path).getD 0) 0x285 1
      retransmit peer p
    let s ← get
    let r := s.rally peer
    forA (r.msgs.filter fun m => m.mseq.isSome && (m.cls == 1 || m.stopped)
        && (m.stopped || m.sent == m.lines.length)
        && !(r.unacked.any fun p => !p.status && some p.mseq == m.mseq)) fun m => outDone peer m 0

/-! ## Other types (R258, R259, R268, R272) -/

/-- Answer an OPEN. -/
def sendOpenAck (peer path : Nat) (h : Hdr) : Act Unit := sendControl peer path 4 0 h.b12 h.epoch [] 0

/-- The inbound direction opens (R259); a takeover fences the epoch that the peer held before (R272). -/
def acceptOpen (peer : Nat) (h : Hdr) : Act Unit := do
  updRally peer fun r =>
    { r with inOpen := true, inEpoch := h.epoch, inOpenSeq := h.b12, inAck := 0xFFFFFFFF, sack := 0, since := 0
             recv := [], ce := [], ins := []
             fenced := if bit h.flags 3 && r.inEpoch != 0 && r.inEpoch != h.epoch then some r.inEpoch else r.fenced }
  sendOpenAck peer h.path h

/-- OPEN. -/
def recvOpen (h : Hdr) : Act Unit := do
  let s ← get
  let peer := h.src
  let r := s.rally peer
  if !r.inOpen then acceptOpen peer h
  else if r.inEpoch = h.epoch then
    if r.inOpenSeq = h.b12 then sendOpenAck peer h.path h
    else do
      loseInbound peer
      acceptOpen peer h
  else do
    loseOpen peer
    acceptOpen peer h
    whenA (r.out == 2) (startOpen peer)

/-- Takeover progress: a peer has answered, or given up; STATE becomes 2 when none is left (Table 10-8). -/
def takeoverHeard (peer : Nat) (answered : Bool) : Act Unit := do
  let s ← get
  whenA (s.trn.tkPeers.contains peer) do
    modify fun s => { s with trn := { s.trn with tkPeers := s.trn.tkPeers.filter (· ≠ peer) } }
    whenA answered (upd Reg.trnTakeoverState fun v => setBits v 11 0 (bits v 11 0 + 1))
    let s ← get
    whenA s.trn.tkPeers.isEmpty do
      setField Reg.trnTakeoverState 31 30 2
      logAdd 0x30 172 0 0xFF 0xFF 0 (payload [(0, 2, s.node), (2, 1, 2)])

/-- OPEN_ACK. -/
def recvOpenAck (h : Hdr) : Act Unit := do
  let s ← get
  let peer := h.src
  let r := s.rally peer
  whenA (r.out == 1 && h.b12 == r.openSeq && bits h.b16 15 0 == s.epoch) do
    updRally peer fun r =>
      { r with out := 2, psn := 0, acked := 0xFFFFFFFF, unacked := [], mseq := 0, openSends := 0, takeover := false
               msgs := r.msgs.map fun m => { m with mseq := none, sent := 0 } }
    takeoverHeard peer true

/-- RESET. -/
def recvReset (h : Hdr) : Act Unit := do
  let s ← get
  whenA ((s.rally h.src).out == 2 && bits h.b16 15 0 == s.epoch) do
    loseOpen h.src
    startOpen h.src

/-- PROBE: answered on the same path. -/
def recvProbe (h : Hdr) : Act Unit := sendControl h.src h.path 7 0 h.ts 0 [] 0

/-- PROBE_REPLY: a sample, and a suspect path is restored. -/
def recvProbeReply (h : Hdr) : Act Unit := do
  let s ← get
  let x := trunc 32 (s.now + 2 ^ 32 - h.b12)
  updRally h.src fun r => r.setPath h.path fun p =>
    { p.sample s.now x (1000000 * Config.cyclesPerUs 172) with suspect := false, touts := 0 }

/-- A packet whose context is on chip, by its type. -/
def recvTyped (port : Nat) (ce : Bool) (h : Hdr) : Act Unit :=
  match h.typ with
  | 0 => recvSeq port ce h
  | 1 => recvAck port h
  | 2 => recvSeq port ce h
  | 3 => recvOpen h
  | 4 => recvOpenAck h
  | 5 => recvReset h
  | 6 => recvProbe h
  | _ => recvProbeReply h

/-- A packet from the wire (R256, R269): dropped, or taken, or queued while its context loads. -/
def recvPacket (port : Nat) (ce : Bool) (packet : List Byte) : Act Unit := do
  let s ← get
  let h := Hdr.parse packet
  if s.badPacket packet h then dropPacket port
  else do
    let (here, miss) ← needCtx h.src
    if here then recvTyped port ce h
    else if miss then do
      portCount port 0x28F 1
      if (s.rally h.src).missQ.length < 64 then
        updRally h.src fun r => { r with missQ := r.missQ ++ [(port, ce, packet)] }
      else dropPacket port
    else inc64 Reg.trnCtxStalls

/-- A packet of the row's type arrives at a port that receives. -/
def recvRow (typ port : Nat) (ce : Bool) (packet : List Byte) : Act Unit := do
  let s ← get
  whenA (s.trnReady && s.portUp port && s.macsecOk port && (Hdr.parse packet).typ == typ) (recvPacket port ce packet)

/-- R260: DATA. -/
def execData (port : Nat) (ce : Bool) (packet : List Byte) (s : State) : Out := s.doing (recvRow 0 port ce packet)

/-- R263: ACK. -/
def execAck (port now : Nat) (packet : List Byte) (s : State) : Out := s.doing do
  setNow now
  recvRow 1 port false packet

/-- R265: MSG_STATUS. -/
def execMsgStatus (port : Nat) (packet : List Byte) (s : State) : Out := s.doing (recvRow 2 port false packet)

/-- R259: OPEN. -/
def execOpenPacket (port : Nat) (packet : List Byte) (s : State) : Out := s.doing (recvRow 3 port false packet)

/-- R258: OPEN_ACK. -/
def execOpenAck (port : Nat) (packet : List Byte) (s : State) : Out := s.doing (recvRow 4 port false packet)

/-- R258: RESET. -/
def execResetPacket (port : Nat) (packet : List Byte) (s : State) : Out := s.doing (recvRow 5 port false packet)

/-- R268: PROBE. -/
def execProbe (port : Nat) (packet : List Byte) (s : State) : Out := s.doing (recvRow 6 port false packet)

/-- R267: PROBE_REPLY. -/
def execProbeReply (port now : Nat) (packet : List Byte) (s : State) : Out := s.doing do
  setNow now
  recvRow 7 port false packet

/-- R262: 2 µs have passed since the first packet that is not acknowledged. -/
def execAckDelayExpiry (peer : Nat) (s : State) : Out := s.doing do
  let m ← get
  let r := m.rally peer
  whenA (r.inOpen && r.since != 0) (sendAck peer r.trig.1 r.trig.2)

/-- The outbound direction fails, and with it the context: in OPENING every posted message is lost, in OPEN every open one
(R258). -/
def failRally (peer : Nat) : Act Unit := do
  let s ← get
  if (s.rally peer).out = 1 then loseAll peer else loseOpen peer
  updRally peer fun r => { r with out := 3, inOpen := false, takeover := false }
  takeoverHeard peer false

/-- R258: RALLY_GIVEUP_MS pass without progress. -/
def execRallyGiveup (peer sinceMs : Nat) (s : State) : Out := s.doing do
  let m ← get
  let r := m.rally peer
  whenA (decide (sinceMs ≥ bits (m.reg Reg.trnTiming) 31 16) && (r.out == 1 || (r.out == 2 && !r.unacked.isEmpty)))
    (failRally peer)

/-- R269: the context of a peer is loaded, another's spilled, and the packets that waited proceed. -/
def execContextMissDone (peer : Nat) (s : State) : Out := s.doing do
  let m ← get
  whenA (m.rally peer).loading do
    let room := decide (m.onChip.length < 1024)
    whenA (room || m.evictee.isSome) do
      whenA (!room) do
        match m.evictee with
        | none => pure ()
        | some n => do
          updRally n fun r => { r with onChip := false, spilled := true }
          whenA (inFar (m.reg Reg.trnSpillBase)) (scramble (m.reg Reg.trnSpillBase + 2048 * n) 2048)
      let (bad, _) ← if (m.rally peer).spilled && inFar (m.reg Reg.trnSpillBase)
        then readBytes (m.reg Reg.trnSpillBase + 2048 * peer) 2048 else pure (false, [])
      let q := (m.rally peer).missQ
      updRally peer fun r =>
        { r with onChip := true, spilled := false, loading := false, missQ := []
                 out := if bad then 0 else r.out, inOpen := r.inOpen && !bad }
      touchCtx peer
      forA q fun (port, ce, packet) => recvPacket port ce packet
      let m ← get
      let r := m.rally peer
      whenA (r.wantsOpen && (r.out == 0 || r.out == 3)) (startOpen peer)

/-! ## Frames and links (R247, R248, R250, R251, R267) -/

/-- A frame is dropped and counted. -/
def dropFrame (port code : Nat) : Act Unit := do
  inc64 (Reg.ethRxDrop port)
  portCount port code 1

/-- The SAK of an association number at a port (R251). -/
def M.sakOf (s : M) (p an : Nat) : Option Sak := (s.saks p).find? (·.an = an)

/-- A frame of an association number is accepted: with a replay window of 0, the next must have a higher packet number (R251). -/
def takePn (p an pn : Nat) : Act Unit := modify fun s => { s with sec := { s.sec with ports := s.sec.ports.map fun k =>
  if k.port = p then { k with saks := k.saks.map fun a => if a.an = an then { a with low := pn + 1 } else a } else k } }

/-- Does a frame pass MACsec (R251)? One that fails its check, repeats a packet number, or has no SAK is dropped and counted. -/
def macsecPass (p kind an pn : Nat) : Act Bool := do
  let s ← get
  if !s.macsec p then pure true
  else match s.sakOf p an with
    | none => do
      portCount p 0x212 1
      pure false
    | some k =>
      if kind = 5 then do
        portCount p 0x210 1
        pure false
      else if pn < k.low then do
        portCount p 0x211 1
        pure false
      else do
        takePn p an pn
        pure true

/-- What a port does with a frame that MACsec lets pass (R248, R250, R252). -/
def passFrame (port : Nat) (tagged : Bool) (vid kind : Nat) (pl : List Byte) : Act Unit := do
  let s ← get
  if tagged && vid != bits (s.reg (Reg.ethPortCtl port)) 27 16 then dropFrame port 0x206
  else if kind = 0 then whenA (decide ((Hdr.parse pl).typ ≥ 8)) (dropPacket port)
  else if kind ≤ 3 then do
    portCount port 0x208 1
    emitFrame port (.answer port kind (s.eth port true) pl)
  else if kind = 4 then dropPacket port
  else dropFrame port 0x207

/-- R247: a frame arrives. -/
def execFrameReceived (port len : Nat) (fcsOk tagged : Bool) (vid kind : Nat) (ce : Bool) (pl : List Byte) (s : State)
    (uncorr an pn : Nat := 0) : Out := s.doing do
  let m ← get
  whenA (m.portUp port) do
    addReg 64 (Reg.ethFecUncorr port) uncorr
    portCount port 0x20A uncorr
    portCount port 0x201 1
    portCount port 0x203 len
    whenA tagged (portCount port 0x213 1)
    whenA ce (portCount port 0x20F 1)
    if len > 9216 then dropFrame port 0x205
    else if !fcsOk then dropFrame port 0x204
    else if !m.macsecOk port then portCount port 0x212 1
    else do
      let ok ← macsecPass port kind an pn
      whenA ok (passFrame port tagged vid kind pl)

/-- R247: a link comes up. -/
def execPortLinkUp (port : Nat) (s : State) : Out := s.doing do
  let m ← get
  whenA (bit (m.reg Reg.mgtReadyMap) 122 && decide (port < m.nPorts) && bit (m.reg (Reg.ethPortCtl port)) 31
      && !m.board.portOff) (setField (Reg.ethPortStatus port) 31 27 0x14)

/-- A link goes down: the packets of its paths go at once on other paths (R267). -/
def linkDown (port link : Nat) : Act Unit := do
  let s ← get
  whenA (s.linkUp port) do
    setField (Reg.ethPortStatus port) 31 30 link
    setField (Reg.ethPortStatus port) 29 29 0
    match s.pathPorts.findIdx? (· = port) with
    | none => pure ()
    | some k =>
      forA s.peers fun n => whenA ((s.rally n).out == 2) (forA ((s.rally n).unacked.filter (·.path = k)) fun p =>
        retransmit n p)

/-- R267: a link goes down, its port trains again, and a local or a remote fault shows until it is up. -/
def execPortLinkDown (port : Nat) (s : State) (fault : Nat := 0) : Out := s.doing do
  let m ← get
  whenA (m.linkUp port) (setField (Reg.ethPortStatus port) 28 27 (if fault = 1 then 2 else if fault = 2 then 1 else 0))
  linkDown port (m.trains port)

/-! ## Takeover (R271) -/

/-- Node IDs in the groups of the image, the module's own left out. -/
def M.imagePeers (s : M) (own : Nat) : List Nat :=
  ((s.boot.groups.flatMap fun (_, _, _, ms) =>
    (List.range (ms.length / 2)).map fun i => bits (leNat ((ms.drop (2 * i)).take 2)) 11 0).eraseDups).filter (· ≠ own)

/-- The fences that the module holds, without the rest of their Rallies (R272). -/
def M.fences (s : M) : Tab Rally :=
  s.trn.rallies.filterMap fun (n, r) => r.fenced.map fun e => (n, { fenced := some e })

/-- A write of TRN_TAKEOVER (R271, Table 10-8): steps 2 and 4. Every context is freed; the fences stay (R272). -/
def takeover (value : Nat) : Act Unit := do
  let s ← get
  let node := bits value 11 0
  if !bit (s.reg Reg.chkRedundancy) 2 ∨ s.trn.tkUsed ∨ !bit value 31 then setField Reg.trnTakeoverState 31 30 3
  else do
    forA s.peers loseAll
    let e ← freeVal 16
    let peers := s.imagePeers node
    modify fun s => { s with trn :=
      { rallies := s.fences, tkUsed := true, tkPeers := peers } }
    wr Reg.trnNode (bits value 27 16 <<< 16 + node)
    wr Reg.trnEpoch (1 + e % 65535)
    wr Reg.trnTakeoverState (1 <<< 30)
    logAdd 0x30 172 0 0xFF 0xFF 0 (payload [(0, 2, node), (2, 1, 1)])
    forA peers fun n => do
      updRally n fun r => { r with takeover := true }
      let (here, _) ← needCtx n
      whenA here (startOpen n)
    whenA peers.isEmpty (setField Reg.trnTakeoverState 31 30 2)

/-- R271: TRN_TAKEOVER. -/
def execTrnTakeover (value : Nat) (s : State) (writer : Nat := 0) : Out :=
  s.doing (regAction writer false (.trnTakeover value writer) (takeover value))

/-- R271, step 3: on every enabled port an unsolicited advertisement of the new address, the n-th of three. -/
def execTakeoverAdvertise (n : Nat) (s : State) : Out := s.doing do
  let m ← get
  whenA (decide (n < 3) && m.trn.tkUsed) do
    forA (List.range m.nPorts) fun p =>
      whenA (m.portUp p && m.macsecOk p) do
        emitFrame p (.advert p (m.eth p true) m.ip4 (!m.ip4) (beBytes (if m.ip4 then 4 else 16) (m.ipOf m.node p))
          (beBytes 6 (m.macOf m.node p)))

end Sys2Proof.Machine
end

