-- ==== Sys2Proof/Machine/Checking.lean ====
section
/-! DEFINITION. Silent-error checking (chapter 14) and what moves a logical core (R115 to R121): quarantine, substitution,
doubling, shadow comparisons, decisions, module stop, Practice, and the error log's ring. -/

namespace Sys2Proof.Machine

/-! ## The core map -/

/-- A change of the core map is counted (R115), and MGT_BENCH_COUNT follows. -/
def mapChanged : Act Unit := do
  let s ← get
  let n := fun d => (s.benches.filter fun i => i / 64 == d).length
  wr Reg.mgtBenchCount (n 1 <<< 8 + n 0)
  addReg 32 Reg.mgtMapGen 1

/-- MGT_CORE_MAP_n of a logical core. -/
def setMap (n mode partner pos : Nat) : Act Unit :=
  wr (Reg.mgtCoreMap n) (1 <<< 31 + mode <<< 28 + partner <<< 16 + pos)

/-- The logical cores bound to a position, in rising ID. -/
def M.coresAt (s : M) (pos : Nat) : List Nat :=
  (List.range s.nCores).filter fun n => s.posOf n == pos && (s.logicalAt pos == n || s.coreMode n == 2 || s.coreMode n == 3)

/-- The slice number of the slice under a position. -/
def M.sliceAt (s : M) (pos : Nat) : Option Nat := (List.range 128).find? fun k => bits (s.reg (Reg.mgtSliceMap k)) 6 0 == pos

/-- What the module writes into the capture area of a position's slice (R348): the copies of a shadow, or Practice data. -/
def writeCapture (pos : Nat) : Act Unit := modify fun s =>
  match s.sliceAt pos with
  | none => s
  | some k => s.overlay (sliceBase k + 0x5E00000) 0x100000

/-- A log record about a logical core and the job that holds it. -/
def coreLog (kind core step : Nat) (pl : List Byte) : Act Unit := do
  let s ← get
  let j := (s.core core).job
  logAdd kind 177 step core ((j.map Prod.fst).getD 0xFF) ((j.map Prod.snd).getD 0) pl

/-- Core fatal (R357): the jobs on one logical core end, and a record says why. DESIGN CHOICE (log 85): the core's MODE stays 3, and
passes held for it stay held, since no rule says what becomes of them. -/
def coreFatal (core cause : Nat) : Act Unit := do
  updCore core fun c => { c with target := none }
  coreLog 0x3E core 0 (payload [(0, 1, cause)])
  endJobsOn core 0xF

/-- The selections whose shadow runs on a position are missed (R350). -/
def missAt (pos : Nat) : Act Unit := do
  let s ← get
  forA (List.range s.nCores) fun n => do
    let c ← getCore n
    let lost := (c.shadows.filter fun h => h.pos == pos && !h.split).length
    addReg 64 Reg.chkMissed (lost + b2n (c.slotA.shadow == some pos) + b2n (c.slotB.shadow == some pos))
    updCore n fun c => { c with
      shadows := c.shadows.filter fun h => !(h.pos == pos && !h.split)
      slotA := if c.slotA.shadow = some pos then { c.slotA with shadow := none } else c.slotA
      slotB := if c.slotB.shadow = some pos then { c.slotB with shadow := none } else c.slotB }

/-- The bench position for a substitution from a position (R119): the lowest on its die, else on the other, that no other
substitution takes. -/
def M.benchFor (s : M) (pos : Nat) : Option Nat :=
  let free := s.benches.filter fun i => !(List.range s.nCores).any fun n => (s.core n).target == some (true, i)
  match free.find? fun i => i / 64 == pos / 64 with
  | some i => some i
  | none => free.head?

/-- The host for a logical core (R120). -/
def M.hostFor (s : M) (g : Nat) : Option Nat :=
  let ok := (List.range s.nCores).filter fun h =>
    h != g && s.coreMode h == 0 && s.posState (s.posOf h) == 0 && s.logicalAt (s.posOf h) == h
  match ok.find? fun h => s.posOf h / 64 == s.posOf g / 64 with
  | some h => some h
  | none => ok.head?

/-- Step 1 of Table 05-6 for a logical core: MODE is 3, and its passes are held; with no switch area it is fatal (R117). -/
def beginMove (doubled : Bool) (n : Nat) : Act Unit := do
  let s ← get
  if !bit (s.reg Reg.mgtDoubleCtl) 0 then coreFatal n 0
  else do
    let t := if doubled then none else s.benchFor (s.posOf n)
    setMap n 3 0xFF (s.posOf n)
    updCore n fun c => { c with target := some (t.isSome, t.getD 0) }
    match t with
    | some b => missAt b
    | none => pure ()

/-- Quarantine of a position (R355): cause 0 a decision, 1 Practice. -/
def quarantine (pos cause : Nat) : Act Unit := do
  let s ← get
  whenA (s.posState pos == 0 || s.posState pos == 1) do
    let cores := s.coresAt pos
    setField (Reg.mgtPosState pos) 10 8 2
    healthAppend 0x80 [BitVec.ofNat 8 pos, 2#8]
    logAdd 0x13 177 0 (s.logicalAt pos) 0xFF 0 (payload [(0, 1, pos), (1, 1, cause)])
    missAt pos
    updPos pos fun x => { x with practice := false, retry := false, running := 0xFF }
    setField (Reg.chkPos pos) 30 30 0
    forA cores (beginMove (decide (cores.length > 1)))
    mapChanged

/-! ## Substitution and doubling -/

/-- Has every engine of a core finished what it had in flight (step 2 of Table 05-6; R240)? An UPDATE that waits or has released its
layers counts as finished, and so does one that has ended but must retire after such a one. -/
def M.coreStill (s : M) (n : Nat) : Bool :=
  (List.range 4).all fun e => (s.ring n e).infl.zipIdx.all fun (f, i) =>
    f.rcd.op == 0x89 && (f.upd.waiting || f.upd.released || (f.done && i != 0))

/-- The passes held for a core are applied in arrival order (step 6), and their throwers hear of it. -/
def applyHeld (n : Nat) : Act Unit := do
  let c ← getCore n
  updCore n fun c => { c with heldPasses := [] }
  forA c.heldPasses fun (k, e, p, amount) => do
    let ok ← throwPass n p amount
    whenA ok (engEvent k e 0x0C amount)
    updRing k e fun g => match g.infl.findIdx? (·.thrown = 1) with
      | none => g
      | some i => { g with infl := g.infl.modify i fun f => { f with thrown := if ok then 2 else 3 } }

/-- A core resumes at a position: a substitution (cause 1) or switch (2) event and interrupt, its plays synchronised anew (R182), its hazard
registers zero (R183), and its phase's operating point (R134). -/
def resumeAt (n pos cause : Nat) : Act Unit := do
  posEvent pos 0x136 1
  ctlInterrupt n cause
  forA (List.range 4) fun e => do
    syncEngine n e
    wr (Reg.coreHazardCount n e) 0
    wr (Reg.coreHazardFirst n e) 0
  let s ← get
  setPoint pos (s.phasePoint n)

/-- The counters, selects, overflow bits and trace registers of a position take their reset values, which its next scorecard
record says (R410, Table 17-4). -/
def clearCounters (pos : Nat) : Act Unit := modify fun s =>
  let a := Reg.posCnt pos 0
  let s := { s with regs := s.regs.filter fun (k, _) =>
    !((decide (a ≤ k) && decide (k < a + 0x1000)) || (decide (a + 0x1200 ≤ k) && decide (k < a + 0xC000))) }
  s.setReg (Reg.posSelGen pos) (setBits (s.reg (Reg.posSelGen pos)) 32 32 1)

/-- Steps 3 to 6 of Table 05-6 to a bench position: the slice numbers swap, and the core is bound to it. -/
def moveToBench (n b : Nat) : Act Unit := do
  saveSwitch n
  let s ← get
  let old := s.posOf n
  match s.sliceAt b with
  | none => pure ()
  | some k => wr (Reg.mgtSliceMap k) old
  wr (Reg.mgtSliceMap n) b
  missAt b
  wr (Reg.mgtPosState b) n
  setField (Reg.mgtPosState old) 7 0 0xFF
  updPos b fun x => { x with practice := false, running := 0xFF }
  setMap n 0 0xFF b
  clearCounters b
  setField (Reg.coreStatus n) 1 1 1
  mapChanged
  coreLog 0x14 n 0 (payload [(0, 1, n), (1, 1, old), (2, 1, b), (3, 1, 0)])
  raiseEvent 5
  resumeAt n b 1

/-- R120: the core becomes the guest of a host; its home slice stays. -/
def moveToHost (n h : Nat) : Act Unit := do
  saveSwitch n
  let s ← get
  let old := s.posOf n
  let p := s.posOf h
  whenA (s.logicalAt old == n) (setField (Reg.mgtPosState old) 7 0 0xFF)
  setMap h 1 n p
  setMap n 2 h p
  updPos p fun x => { x with running := h }
  setField (Reg.coreStatus n) 1 1 1
  mapChanged
  coreLog 0x14 n 0 (payload [(0, 1, n), (1, 1, old), (2, 1, p), (3, 1, 2)])
  raiseEvent 5
  posEvent p 0x136 1
  ctlInterrupt n 1

/-- R119, R120: the old position has stopped; the core moves to its bench position, or to a host, and what was held for it is
applied. -/
def substitute (n : Nat) : Act Unit := do
  let s ← get
  let first := !(List.range n).any fun k => s.posOf k == s.posOf n && (s.core k).target.isSome
  match (s.core n).target with
  | none => pure ()
  | some (bench, t) => whenA (s.coreStill n && first) do
    updCore n fun c => { c with target := none }
    let b := if !bench then none else if s.posState t = 1 then some t else s.benchFor (s.posOf n)
    match b, s.hostFor n with
    | some b, _ => do
      moveToBench n b
      applyHeld n
    | none, some h => do
      moveToHost n h
      applyHeld n
    | none, none => coreFatal n 2

/-- R119, R120: the old position of a core that moves has stopped. -/
def execSubstitutionStopped (core : Nat) (s : State) : Out := s.doing (substitute core)

/-- R119, R357: the old position has not stopped within 10 ms. -/
def execSubstitutionStopTimeout (core : Nat) (s : State) : Out := s.doing do
  let m ← get
  whenA ((m.core core).target.isSome && !m.coreStill core) (coreFatal core 1)

/-- Does an engine of the core have a record that could issue, its catch satisfied? -/
def M.hasWork (s : M) (n e : Nat) : Bool :=
  s.ringRun n e && !s.ringEmpty n e && match s.peekRec n e (s.reg (Reg.coreRingRd n e)) with
    | none => true
    | some r => decide (r.catchN ≤ s.reg (Reg.corePassCount n r.catchPass))

/-- Is every engine of the core empty or waiting in a catch? -/
def M.coreIdle (s : M) (n : Nat) : Bool := s.coreStill n && (List.range 4).all fun e => !s.hasWork n e

/-- R121: at a macro-op boundary a doubled position switches to the other core. -/
def execDoublingSwitch (pos ranCycles : Nat) (s : State) : Out := s.doing do
  let m ← get
  let h := m.logicalAt pos
  let g := bits (m.reg (Reg.mgtCoreMap h)) 23 16
  let r := if (m.posX pos).running = g then g else h
  let o := if r = h then g else h
  let quantum := max 1 (bits (m.reg Reg.mgtDoubleCtl) 23 8) * 1024
  whenA (m.coreMode h == 1 && m.posState pos == 0 && !(m.posX pos).practice && m.coreStill r
      && (List.range 4).any (m.hasWork o) && (decide (ranCycles ≥ quantum) || m.coreIdle r)) do
    saveSwitch r
    updPos pos fun x => { x with running := o }
    resumeAt o pos 2

/-! ## Shadow execution (R349, R350) -/

/-- R349: the copy of the oldest matrix macro-op that waits for it is in the capture area of its slot's shadow, and the macro-op may
retire. -/
def captureDone (core : Nat) : Act Unit := do
  let s ← get
  match (s.ring core 1).infl.find? fun f => f.held && opMatrix f.rcd.op with
  | none => pure ()
  | some f => do
    match ((s.core core).slot f.rcd.slotOf).shadow with
    | none => pure ()
    | some b => writeCapture b
    updRing core 1 fun g => { g with infl := g.infl.map fun k => if k.x = f.x then { k with held := false } else k }

/-- R349: CAPTURE_COPY_DONE. -/
def execCaptureCopyDone (core : Nat) (s : State) : Out := s.doing (captureDone core)

/-- The oldest shadow of a slot that waits for its comparison (`split` false) or its decision. -/
def M.shadowOf (s : M) (core slot : Nat) (split : Bool) : Option Shadow :=
  (s.core core).shadows.find? fun h => h.slot == slot && h.split == split
    && !(s.ring core 1).infl.any fun f => f.rcd.op == 0x34 && f.x == h.drain

/-- Change one shadow, or drop it. -/
def updShadow (core : Nat) (h : Shadow) (f : Option Shadow) : Act Unit := updCore core fun c =>
  { c with shadows := c.shadows.flatMap fun k => if k = h then f.toList else [k] }

/-- R349, R354: a shadow's comparison. -/
def execShadowComparison (core slot : Nat) (agree : Bool) (s : State) : Out := s.doing do
  let m ← get
  match m.shadowOf core slot false with
  | none => pure ()
  | some h => do
    posEvent h.pos 0x138 1
    if agree then do
      updPos h.orig fun x => { x with since := h.step }
      updShadow core h none
    else updShadow core h (some { h with split := true })

/-! ## Decisions (R351 to R357) -/

/-- The position of a decision execution (R352). -/
def M.decider (s : M) (o sh : Nat) : Nat :=
  match s.freeBench o [o, sh] with
  | some b => b
  | none =>
    match (List.range s.nCores).find? fun n =>
      let p := s.posOf n
      s.logicalAt p == n && s.posState p == 0 && p / 64 == o / 64 && p != o && p != sh with
    | some n => s.posOf n
    | none => 0xFF

/-- Module stop (R357). -/
def moduleStop (trigger o sh d : Nat) : Act Unit := do
  let pl := payload [(0, 1, trigger), (1, 1, o), (2, 1, sh), (3, 1, d)]
  logAdd 0x3F 177 0 0xFF 0xFF 0 pl
  healthAppend 0x3F pl
  let s ← get
  forA (List.range 64) fun q => do
    let h := (← get).queue q
    forA h.jobs fun j => do
      if j.running then do
        let t ← freeVal 32
        endJob q j.x 0x10 0xFF t
      else whenA (j.kind == 0) (complete q j 0x10 0xFF 0 0 0)
  forA (List.range 4) fun e => forA ((s.eng e).colls.filter (·.started)) fun c => do
    let now ← get
    whenA ((now.coll e c.group c.seq).isSome) (failColl e c 4 none none)
  hostEmit (.msix 66)
  setField Reg.chkStatus 3 3 1
  modify fun s => { s with board := { s.board with stopped := true } }

/-- A decision is counted and logged: `row` is its row of Table 14-1, counted from 0 within its trigger. A decision execution on an
ACTIVE position saves the logical core that it displaces (R352). -/
def decided (core step trigger row o sh d x : Nat) : Act Unit := do
  inc64 Reg.chkDecisions
  let s ← get
  whenA (d != 0xFF && s.posState d == 0) (saveSwitch (s.runningAt d))
  whenA (d != 0xFF) (posEvent d 0x137 1)
  coreLog 0x11 core step (payload [(0, 1, trigger), (1, 1, row), (2, 1, o), (3, 1, sh), (4, 1, d), (8, 4, x)])

/-- A checksum unit is judged faulty (R356). -/
def csumFault (pos : Nat) : Act Unit := do
  setField (Reg.chkPos pos) 31 31 1
  updPos pos fun x => { x with csumOff := true, csumRun := 0 }
  healthAppend 0x12 [BitVec.ofNat 8 pos, 0#8]
  logAdd 0x12 177 0 0xFF 0xFF 0 (payload [(0, 1, pos)])

/-- A decision has ended for a macro-op of the M ring: its product check holds its retirement no longer (R351). -/
def productSettled (core x : Nat) (poison : Bool) : Act Unit := updRing core 1 fun g => { g with infl := g.infl.map fun k =>
  if k.x = x then { k with poison := k.poison || poison, pred := k.obs } else k }

/-- Product check: O, P and D. -/
def decideProduct (core slot o p d : Nat) : Act Unit := do
  let s ← get
  let pos := s.posOf core
  match (s.ring core 1).infl.find? fun f => f.started && opMatrix f.rcd.op && f.rcd.op != 0x32 && f.rcd.slotOf == slot with
  | none => pure ()
  | some f => whenA (o != p && s.checksums core) do
    let dpos := s.decider pos pos
    engEventX core 1 0x18C 1
    if d = o then do
      decided core f.step 0 0 pos 0xFF dpos f.x
      productSettled core f.x false
      csumFault pos
    else if d = p then do
      decided core f.step 0 1 pos 0xFF dpos f.x
      updSlot core slot fun sl => { sl with poisoned := true }
      productSettled core f.x true
      quarantine pos 0
    else do
      decided core f.step 0 2 pos 0xFF dpos f.x
      moduleStop 0 pos 0xFF dpos

/-- Drain check: the two reads of an element and ρ. -/
def decideDrain (core slot read1 read2 rho : Nat) : Act Unit := do
  let s ← get
  let pos := s.posOf core
  match (s.ring core 1).infl.find? fun f => f.started && f.rcd.op == 0x34 && f.rcd.slotOf == slot with
  | none => pure ()
  | some f => whenA (read1 != rho && s.checksums core) do
    engEventX core 1 0x18D 1
    if read2 = rho then decided core f.step 1 0 pos 0xFF 0xFF f.x
    else if read1 = read2 then do
      decided core f.step 1 1 pos 0xFF 0xFF f.x
      let ls := f.outs.flatMap fun (a, n) => linesOf a n
      let i ← freeVal 32
      match ls[i % max 1 ls.length]? with
      | none => pure ()
      | some l => poisonLine l
      updRing core 1 fun g => { g with infl := g.infl.map fun k => if k.x = f.x then { k with poison := true } else k }
      setField (Reg.chkPos pos) 30 30 1
    else do
      decided core f.step 1 2 pos 0xFF 0xFF f.x
      moduleStop 1 pos 0xFF 0xFF

/-- The notice region's line of this module at a receiver, and the notice (R353). -/
def sendNotices (core : Nat) (h : Shadow) (count : Nat) : Act Unit := do
  let s ← get
  let node := s.node
  let group := bits (s.reg Reg.chkCtl) 31 16
  let g := s.groupRec group
  let (_, ms) ← readBytes g.members (2 * min g.p 4096)
  let line := leBytes 32 (trunc 16 node + count <<< 32 + trunc 40 h.step <<< 64 + core <<< 104 + group <<< 112
    + h.drain <<< 128 + trunc 32 h.row0 <<< 160 + trunc 32 h.col0 <<< 192)
  let a := s.reg Reg.chkNoticeBase + 32 * node
  forA (List.range (min g.p 4096)) fun i => do
    let peer := bits (leNat ((ms.drop (2 * i)).take 2)) 11 0
    whenA (peer != node)
      (postMessage peer { cls := 2, tag := a / 1024, lines := messageLines (a % 1024 / 32) line [] })

/-- Shadow comparison: O, S and D. -/
def decideShadow (core slot o sh d : Nat) : Act Unit := do
  let s ← get
  match s.shadowOf core slot true with
  | none => pure ()
  | some h => whenA (o != sh) do
    let dpos := s.decider h.orig h.pos
    updShadow core h none
    if d = o then do
      decided core h.step 2 0 h.orig h.pos dpos h.drain
      quarantine h.pos 0
    else if d = sh then do
      decided core h.step 2 1 h.orig h.pos dpos h.drain
      coreLog 0x10 core h.step (payload [(0, 4, h.drain), (4, 4, h.row0), (8, 4, h.col0), (12, 1, h.m), (13, 1, h.n),
        (14, 1, h.orig), (15, 1, h.pos), (16, 1, dpos), (17, 5, (s.posX h.orig).since), (24, 8, h.base)])
      inc64 Reg.chkSdc
      hostEmit (.msix 66)
      whenA (bit (s.reg Reg.chkCtl) 1) (sendNotices core h (s.reg Reg.chkSdc + 1))
      quarantine h.orig 0
    else do
      decided core h.step 2 2 h.orig h.pos dpos h.drain
      moduleStop 2 h.orig h.pos dpos

/-- R351: a decision ends; the candidates' bit patterns decide. -/
def execDecisionComplete (core slot trigger o other d : Nat) (s : State) : Out := s.doing (
  match trigger with
  | 0 => decideProduct core slot o other d
  | 1 => decideDrain core slot o other d
  | _ => decideShadow core slot o other d)

/-! ## Practice (R358 to R360) -/

/-- PRACTICE_LAG shows whether a position in service is older than PERIOD_MIN (R360). -/
def showLag : Act Unit := do
  let s ← get
  let limit := 60 * max 1 (bits (s.reg Reg.chkPractice) 23 8)
  let late := (List.range 128).any fun i => decide (s.posState i < 2) && decide (bits (s.reg (Reg.chkPos i)) 23 0 > limit)
  setField Reg.chkStatus 1 1 (b2n late)

/-- R358: Practice enters an idle position. -/
def execPracticeEntry (pos idleUs : Nat) (s : State) : Out := s.doing do
  let m ← get
  let c := m.reg Reg.chkPractice
  let cores := m.coresAt pos
  let ok := match m.posState pos with
    | 0 => bit (m.reg Reg.mgtDoubleCtl) 0 && decide (idleUs ≥ max 50 (bits c 7 0)) && cores.all m.coreIdle
    | 1 => !m.shadowBusy pos || bit (m.reg (Reg.chkPos pos)) 30
    | _ => false
  whenA (bit c 31 && ok) do
    updPos pos fun x => { x with practice := true, retry := false }
    whenA (m.posState pos == 0) (saveSwitch (m.runningAt pos))

/-- A kernel has passed: a checksum kernel that has passed ten times in a row clears CSUM_FAULT (R356). -/
def kernelPass (pos kernel : Nat) : Act Unit := do
  let s ← get
  let x := s.posX pos
  posEvent pos 0x134 1
  whenA x.retry (logAdd 0x15 177 0 (s.logicalAt pos) 0xFF 0 (payload [(0, 1, pos), (1, 1, kernel)]))
  let run := if kernel = 2 then x.csumRun + 1 else x.csumRun
  updPos pos fun x => { x with retry := false, csumRun := min run 10 }
  whenA (kernel == 2 && decide (run ≥ 10) && bit (s.reg (Reg.chkPos pos)) 31) do
    setField (Reg.chkPos pos) 31 31 0
    healthAppend 0x12 [BitVec.ofNat 8 pos, 1#8]

/-- A kernel has failed for good (R359). The far-store unit that a kernel of row 8 names is left open. -/
def kernelFail (pos kernel : Nat) : Act Unit := do
  let s ← get
  let far ← freeVal 32
  let unit := if kernel = 8 then 128 + far % 24 else pos
  logAdd 0x16 177 0 (s.logicalAt pos) 0xFF 0 (payload [(0, 1, unit), (1, 1, kernel)])
  updPos pos fun x => { x with retry := false }
  if kernel = 2 then csumFault pos
  else if kernel ≥ 7 then do
    setField Reg.chkStatus 2 2 1
    logAdd 0x17 177 0 0xFF 0xFF 0 (payload [(0, 1, unit)])
    hostEmit (.msix 66)
  else quarantine pos 1

/-- Where a Practice kernel works (R358): the last 256 KiB of the switch area of the slice under its position, or the capture area on a
BENCH position; and for the far-store kernel the Practice far region. -/
def practiceData (pos kernel : Nat) : Act Unit := do
  let s ← get
  match s.sliceAt pos with
  | none => pure ()
  | some k =>
    if s.posState pos = 1 then writeCapture pos
    else whenA (bit (s.reg Reg.mgtDoubleCtl) 0) (modify fun s => s.overlay (sliceBase k + 0x7FC0000) 0x2000)
  let b := s.reg Reg.chkPracticeBase
  whenA (kernel == 8 && inFar b && inRegion b 0x8000800000) do
    modify fun s => s.overlay b 0x40000
    modify fun s => s.overlay (b + 0x8000000000) 0x40000

/-- R359: a Practice kernel ends. -/
def execPracticeKernelDone (pos kernel : Nat) (pass work last : Bool) (s : State) : Out := s.doing do
  let m ← get
  let x := m.posX pos
  whenA x.practice do
    practiceData pos kernel
    if pass then kernelPass pos kernel
    else if x.retry || (bit (m.reg (Reg.chkPos pos)) 30 && kernel != 2 && decide (kernel < 7)) then kernelFail pos kernel
    else updPos pos fun x => { x with retry := true }
    whenA (!pass && kernel == 2) (updPos pos fun x => { x with csumRun := 0 })
    whenA (pass && last) do
      upd (Reg.chkPos pos) fun v => setBits v 30 30 0 - bits v 23 0
      showLag
    let m ← get
    whenA ((m.posX pos).practice && work) do
      updPos pos fun x => { x with practice := false, retry := false }
      forA (m.coresAt pos) applyHeld

/-- R360: the age of a position's last full pass. -/
def execPracticeLag (pos ageS : Nat) (s : State) : Out := s.doing do
  setField (Reg.chkPos pos) 23 0 (satU 24 ageS)
  showLag

/-! ## The error log's ring (R362, R363) -/

/-- The 64 bytes of a record (Table 14-4). -/
def LogRec.bytes (r : LogRec) : List Byte :=
  leBytes 28 (trunc 32 r.index + trunc 16 r.kind <<< 32 + trunc 16 r.island <<< 48 + trunc 64 r.counter <<< 64
    + trunc 40 r.step <<< 128 + trunc 8 r.logical <<< 168 + trunc 8 r.queue <<< 176 + trunc 32 r.entry <<< 192)
    ++ (r.payload ++ List.replicate 36 0#8).take 36

/-- Does CHK_LOG_BASE name a ring in a ready far store? -/
def M.logRing (s : M) : Bool :=
  let b := s.reg Reg.chkLogBase
  bit (s.reg Reg.mgtReadyMap) 121 && inFar b && inRegion b 0x40000

/-- Write every buffered record to the ring, in index order. -/
def flushLog : Act Unit := do
  let s ← get
  whenA s.logRing do
    forA s.logBuf fun r => do
      let _ ← writeBytes (s.reg Reg.chkLogBase + 64 * (r.index % 4096)) r.bytes
      pure ()
    modify fun s => { s with logBuf := [] }

/-- R362: a record forms, and what the buffer holds is written to the ring. -/
def execErrorLogRecord (kind island logical : Nat) (payload : List Byte) (s : State) : Out := s.doing do
  logAdd kind island 0 logical 0xFF 0 payload
  flushLog

/-- Record x, from the buffer or the ring; none if the log does not hold it, since it was lost or a later one has taken its place. -/
def logRead (x : Nat) : Act (List Byte) := do
  let s ← get
  match s.logBuf.find? (·.index = x) with
  | some r => pure r.bytes
  | none =>
    if s.logRing then do
      let (_, bs) ← readBytes (s.reg Reg.chkLogBase + 64 * (x % 4096)) 64
      pure (if leNat (bs.take 4) = x then bs else [])
    else pure []

/-- R317: READ_LOG (first index, count): the records that the log holds, 64 at most. An index that names no record is Invalid Input. -/
def execReadLog (input : List Byte) (s : State) : Out := s.doing (mailbox (.readLog input) do
  let m ← get
  let x := leNat (input.take 4)
  let n := leNat (input.drop 4)
  let top := m.reg Reg.chkLogWr
  if input.length ≠ 6 ∨ top ≤ x then invalidInput
  else do
    let first ← logRead x
    let bs ← mapA (List.range' (x + 1) (min (min n 64) (top - x) - 1)) logRead
    if first.isEmpty then invalidInput
    else pure (0, if n = 0 then [] else first ++ bs.flatMap id))

end Sys2Proof.Machine
end

