-- ==== Sys2Proof/Machine/Power.lean ====
section
/-! DEFINITION. The power governor (chapter 13): windows, credits and grants, the 1 ms evaluation, operating points, measured
power, droop, trims and temperature. -/

namespace Sys2Proof.Machine

/-- Bit 126 of the ready map is set: the full rules of R330 hold. -/
def M.imageReady (s : M) : Bool := bit (s.reg Reg.mgtReadyMap) 126

/-- Change the governor's own state. -/
def updGov (f : Gov → Gov) : Act Unit := modify fun s => { s with gov := f s.gov }

/-! ## The window (R323, R330, R331) -/

/-- The operating point of an island: that whose clock runs in a core position, or the point that the image fixes (R323, R333). -/
def M.pointOf (s : M) (i : Nat) : Nat := if i < 128 then (s.posX i).clk else s.boot.power.points.getD (i - 128) 1

/-- Weighted activity of an island, times 1,024: counts by class, by weight and by f(op), which is 1,024 outside the core positions. -/
def M.activity (s : M) (i : Nat) : Nat :=
  let f := if i < 128 then opFactor (s.posX i).clk else 1024
  ((List.range 20).map fun k => s.boot.power.weights.getD k 0 * Tab.read (fun _ => 0) s.gov.act (32 * i + k)).sum * f

/-- Weighted activity to pJ, with the gain g (R323). -/
def M.toPj (s : M) (x : Nat) : Nat := x * s.reg Reg.pwrGain / (4096 * 1024)

/-- e of R323 over some islands, in pJ. -/
def M.dynamic (s : M) (islands : List Nat) : Nat := s.toPj (islands.map s.activity).sum

/-- The leakage of an island at its point in a window, in pJ: the table's entry for the highest temperature that is not above the island's
(log 83). -/
def M.leak (s : M) (i temp : Nat) : Nat :=
  let l := s.boot.power.leak.filter fun (j, op, t, _) => j == i && op == s.pointOf i && decide (t ≤ temp)
  (l.foldl (fun (best : Nat × Nat) (_, _, t, e) => if best.1 ≤ t then (t, e) else best) (0, 0)).2

/-- The leakage of every island. -/
def M.leakage (s : M) (temps : List Nat) : Nat := ((List.range 179).map fun i => s.leak i (temps.getD i 0)).sum

/-- p_est in watts, from the window's counts and leakage. -/
def M.estimate (s : M) (temps : List Nat) : Nat :=
  (s.dynamic (List.range 179) + s.leakage temps) / (2000 * s.boot.power.eta)

/-- e_floor (R330). -/
def M.floorPj (s : M) : Nat := s.dynamic (List.range' 152 21)

/-- e_fixed (R330): the fixed islands beyond the floor, and the units that credit islands report of work that no credit gates (R328;
log 83). -/
def M.fixedPj (s : M) (counts : List (Nat × Nat × Nat)) : Nat :=
  let ungated := counts.filter fun (i, k, _) => decide (i < 152) && decide (k < 16)
  s.dynamic (List.range' 173 6) + s.toPj (ungated.map fun (i, k, n) =>
    s.boot.power.weights.getD k 0 * n * (if i < 128 then opFactor (s.posX i).clk else 1024)).sum

/-- First elements of the runs of an entry from element i on. -/
def Layer.runsFrom (l : Layer) (i : Nat) : List Nat :=
  let n := if l.blocked then max 1 l.blockE else 256
  (List.range (ceilDiv (l.elems - i) n)).map fun k => i + n * k

/-- Credit islands whose update unit still holds work of a released UPDATE. -/
def M.unitIslands (s : M) (f : InFlight) : List Nat :=
  match f.nextRun with
  | none => []
  | some (p, k, i) =>
    let part := fun (q k0 i0 : Nat) => (f.layers.zipIdx).flatMap fun (l, j) =>
      if j < k0 || !l.inPass q then [] else (l.runsFrom (if j = k0 then i0 else 0)).map (s.unitIsland l)
    (part p k i ++ (if p = 0 && (phasePasses (updPhase f.od)).contains 1 then part 1 0 0 else [])).eraseDups

/-- The busy credit islands, rising: a non-empty ring, or an update unit that holds work. -/
def M.busyIslands (s : M) : List Nat :=
  let cores := List.range s.nCores
  let units := cores.flatMap fun n => (s.ring n 3).infl.flatMap fun f =>
    if f.upd.released && !f.done then s.unitIslands f else []
  let rings := cores.flatMap fun n => if (List.range 4).any fun e => !s.ringEmpty n e then [s.posOf n] else []
  (List.range 152).filter fun i => units.contains i || rings.contains i

/-- The grants of a window by equal shares (R331): of (island, want, granted so far), out of b pJ. A round either fills an
island or leaves less than a share. -/
def fillShares : Nat → Nat → List (Nat × Nat × Nat) → List (Nat × Nat × Nat)
  | 0, _, l => l
  | fuel + 1, b, l =>
    let d := (l.filter fun (_, w, _) => w != 0).length
    let share := if d = 0 then 0 else b / d
    if share = 0 then l
    else
      let l' := l.map fun (i, w, g) => (i, w - min share w, g + min share w)
      fillShares fuel (b - (l.map fun (_, w, _) => min share w).sum) l'

/-- A window has granted the island of a waiting engine: the eighth in a row makes it reserved, if no other of the island is (R327, R332;
log 83). -/
def grantWaits (n e : Nat) : Act Unit := do
  let s ← get
  whenA (s.ring n e).credit (updRing n e fun g =>
    { g with waited := g.waited + 1, reserved := g.reserved || (decide (g.waited + 1 ≥ 8) && !s.otherReserved n e) })

/-- A granted island: its balance, its event, and the engines that still wait there (R327). -/
def grantIsland (i x : Nat) : Act Unit := do
  addBalance i (x : Int)
  let s ← get
  whenA (decide (i < 128) && x != 0) do
    posEvent i 0x131 (x / 1024)
    forA ((List.range s.nCores).filter fun n => s.posOf n == i) fun n => forA (List.range 4) (grantWaits n)

/-- A window ends with the islands' counts and temperatures, and the next begins: the estimate, the budget, and the grants. -/
def window (counts : List (Nat × Nat × Nat)) (temps : List Nat) : Act Unit := do
  let cap ← rd Reg.pwrCapW
  updGov fun g => { g with cap := cap }
  forA counts fun (i, k, n) => whenA (decide (i < 179) && decide (k < 20)) (chargeUnits i k n)
  let s ← get
  let est := s.estimate temps
  let st := s.reg Reg.pwrStatus
  let pgov := if bit st 2 && !bit st 4 then max est (bits (s.reg Reg.pwrPower) 31 16) else est
  let eff := s.capEff
  let full := s.imageReady
  let h := if full then min 4000000 (s.gov.h + 2 * eff - 2 * pgov) else 0
  let run := if full && decide (pgov > eff) then satU 16 (s.gov.run + 1) else 0
  let limit := if !full then 500 else if h > 0 ∧ run < 5000 then min 2000 (eff + 400) else eff
  let b := limit * 2000000 - (max 120000000 s.floorPj + s.fixedPj counts + s.leakage temps)
  updGov fun g => { g with act := [], h := h, run := run, pgov := pgov, est := g.est + est, gov := g.gov + pgov, wins := g.wins + 1 }
  wr Reg.pwrHeadroom (h / 1000)
  setField Reg.pwrStatus 26 16 eff
  let want := s.busyIslands.map fun i => (i, ((creditCap : Int) - s.balance i).toNat, 0)
  forA (fillShares 160 b want) fun (i, _, x) => grantIsland i x

/-- R330: a 2 µs window. -/
def execGovernorWindow (units activity : List (Nat × Nat × Nat)) (temps : List Nat) (s : State) : Out :=
  s.doing (window (units ++ activity) temps)

/-! ## The evaluation of every 1 ms (R334, R337, R338, R341) -/

/-- The payload of a power record (Table 14-5). -/
def M.powerPayload (s : M) (est meas island trim : Nat) : List Byte :=
  payload [(0, 2, est), (2, 2, meas), (4, 4, s.reg Reg.pwrGain), (8, 1, island), (9, 1, bits (s.reg Reg.pwrStatus) 1 0),
    (10, 1, trim)]

/-- Does a reading disagree with the estimate (R337)? -/
def disagrees (meas est : Nat) : Bool := decide (100 * (max meas est - min meas est) > 15 * max meas est)

/-- The correction step of R337, in 1/4,096 and rounded down; none if it leaves 0.75 to 1.25 (R338). -/
def gainStep (g meas est : Nat) : Option Nat :=
  if est = 0 then none
  else
    let g' := ((g : Int) * (64 * est + meas - est)) / (64 * est)
    if 3072 ≤ g' ∧ g' ≤ 5120 then some g'.toNat else none

/-- A successful reading is compared with the average estimate. -/
def compareReading (meas est : Nat) : Act Unit := do
  let s ← get
  let bad := disagrees meas est
  updGov fun g => { g with fails := 0, dis := if bad then min 3 (g.dis + 1) else 0, agree := if bad then 0 else min 3 (g.agree + 1) }
  setField Reg.pwrStatus 4 4 0
  let t ← get
  if bit (s.reg Reg.pwrStatus) 2 then
    if bad then
      match gainStep (s.reg Reg.pwrGain) meas est with
      | some g => wr Reg.pwrGain g
      | none => whenA (!bit (s.reg Reg.pwrStatus) 3) do
        setField Reg.pwrStatus 3 3 1
        logAdd 0x21 177 0 0xFF 0xFF 0 (s.powerPayload est meas 0xFF 0)
    else whenA (decide (t.gov.agree ≥ 3)) (setField Reg.pwrStatus 2 2 0)
  else whenA (decide (t.gov.dis ≥ 3)) do
    setField Reg.pwrStatus 2 2 1
    raiseEvent 0
    logAdd 0x20 177 0 0xFF 0xFF 0 (s.powerPayload est meas 0xFF 0)

/-- A failed reading: the third in a row is TELEM_LOSS, and raises an event (R338). -/
def failedReading : Act Unit := do
  updGov fun g => { g with fails := min 3 (g.fails + 1) }
  let s ← get
  whenA (decide (s.gov.fails ≥ 3) && !bit (s.reg Reg.pwrStatus) 4) do
    setField Reg.pwrStatus 4 4 1
    raiseEvent 1

/-- The hottest reading in 1/16 °C. -/
def M.hottest (s : M) : Int := toSigned 16 (bits (s.reg Reg.pwrTemp) 15 0)

/-- Heat lowers cap_eff, and lets it rise again once throttling has ended (Table 13-4). -/
def heatStep : Act Unit := do
  let s ← get
  let st := bits (s.reg Reg.pwrStatus) 1 0
  whenA (st != 0) (inc64 Reg.pwrThrottleMs)
  if st ≠ 0 then whenA (decide (s.hottest ≥ 98 * 16)) (updGov fun g => { g with capLow := min (g.capLow + 25) (g.cap - 500) })
  else if s.gov.cool ≥ 9 then updGov fun g => { g with cool := 0, capLow := g.capLow - 25 }
  else updGov fun g => { g with cool := g.cool + 1 }

/-- The preferred point of a position: its running core's phase; of a BENCH position at work OP1. -/
def M.preferred (s : M) (pos : Nat) : Nat :=
  if s.posState pos ≠ 0 then 1
  else
    let r := (s.posX pos).running
    s.phasePoint (if r = 0xFF then s.logicalAt pos else r)

/-- Does a position run a decision execution (R352): of a shadow that disagreed, or of a product check that failed? -/
def M.deciding (s : M) (pos : Nat) : Bool :=
  (List.range s.nCores).any fun n => ((s.core n).shadows.any fun h => h.split && s.decider h.orig h.pos == pos)
    || ((s.ring n 1).infl.any fun f => f.pred != f.obs && s.decider (s.posOf n) (s.posOf n) == pos)

/-- Does a BENCH position run a shadow execution, a three-way decision or Practice? -/
def M.benchWorks (s : M) (pos : Nat) : Bool :=
  s.posState pos == 1 && (s.shadowBusy pos || s.deciding pos || (s.posX pos).practice)

/-- The 1 ms evaluation. -/
def evaluate (readOk : Bool) (pMeas : Nat) : Act Unit := do
  let s ← get
  let est := s.gov.est / max 1 s.gov.wins
  whenA (bit (s.reg Reg.pwrStatus) 2) (inc64 Reg.pwrMismatchMs)
  if readOk then do
    compareReading pMeas est
    wr Reg.pwrPower (satU 16 pMeas <<< 16 + satU 16 est)
  else do
    failedReading
    setField Reg.pwrPower 15 0 (satU 16 est)
  heatStep
  updGov fun g => { g with est := 0, gov := 0, wins := 0, avg := s.gov.gov / max 1 s.gov.wins
                           phase := (List.range 8).map fun p => s.reg (Reg.pwrPhaseOp p) }
  let s ← get
  setField Reg.pwrStatus 26 16 s.capEff
  forA ((List.range 128).filter fun i => s.posState i == 0 || s.benchWorks i) fun i => setPoint i (s.preferred i)

/-- R334, R337: the 1 ms evaluation. -/
def execGovernorEvaluation (readOk : Bool) (pMeas : Nat) (s : State) : Out := s.doing (evaluate readOk pMeas)

/-! ## OFF and wake (R335) -/

/-- Has a position no work: as its state demands? -/
def M.posUnused (s : M) (pos : Nat) : Bool :=
  !(s.posX pos).practice && !s.deciding pos && match s.posState pos with
    | 0 => (s.coresAt pos).all fun n => (s.core n).job.isNone && s.coreIdle n
    | 1 => !s.shadowBusy pos
    | _ => (s.coresAt pos).all s.coreStill

/-- R335: a position without work for 1 ms is set OFF; what stays powered there runs at OP1. -/
def execPositionOff (pos idleMs : Nat) (s : State) : Out := s.doing do
  let m ← get
  whenA (bit (m.reg Reg.pwrCtl) 0 && decide (idleMs ≥ 1) && m.posUnused pos && bits (m.reg (Reg.pwrPosOp pos)) 2 0 != 7) do
    setField (Reg.pwrPosOp pos) 2 0 7
    updPos pos fun x => { x with clk := 1 }

/-- R335: an OFF position that work needs, or that may no longer be OFF, is back at its chosen point. -/
def execPositionWakeDone (pos : Nat) (s : State) : Out := s.doing do
  let m ← get
  whenA (bits (m.reg (Reg.pwrPosOp pos)) 2 0 == 7 && (!m.posUnused pos || !bit (m.reg Reg.pwrCtl) 0)) do
    setField (Reg.pwrPosOp pos) 2 0 5
    updPos pos fun x => { x with clk := 0 }
    setPoint pos (m.preferred pos)

/-- R335: the voltage of a raised point is reached, and the clock changes. -/
def execOperatingPointReached (pos : Nat) (s : State) : Out := s.doing do
  let m ← get
  let op := bits (m.reg (Reg.pwrPosOp pos)) 2 0
  whenA (op != 7) (updPos pos fun x => { x with clk := op })

/-! ## Droop and ageing (R339, R340) -/

/-- R340: a trim of one step of 5 mV, at most 25 mV from nominal; a step beyond raises an event. -/
def execVoltageTrim (island : Nat) (up down : Bool) (s : State) : Out := s.doing do
  let m ← get
  let v := m.reg (Reg.pwrTrim island)
  let t := toSigned 8 (bits v 7 0)
  let t' := if up && !down then t + 5 else if down && !up then t - 5 else t
  whenA (t' != t) (if t' < -25 ∨ 25 < t' then raiseEvent 2 else do
    let n := satU 16 (bits v 31 16 + 1)
    wr (Reg.pwrTrim island) (n <<< 16 + ofSigned 8 t')
    let pl := m.powerPayload (bits (m.reg Reg.pwrPower) 15 0) (bits (m.reg Reg.pwrPower) 31 16) island (ofSigned 8 t')
    healthAppend 0x23 (pl.take 12 ++ leBytes 2 n ++ pl.drop 14)
    logAdd 0x23 island 0 0xFF 0xFF 0 pl)

/-- R339: a supply more than 40 mV below its set voltage stretches the island's clock. -/
def execDroopDetect (island fallMv : Nat) (s : State) : Out := s.doing (whenA (decide (fallMv > 40)) do
  whenA (decide (island < 128)) (posEvent island 0x12F 1)
  updGov fun g => { g with stretched := insertNew g.stretched island })

/-- R339: the supply has recovered for 64 cycles. -/
def execDroopRecovery (island cycles : Nat) (s : State) : Out := s.doing (
  whenA (decide (cycles ≥ 64)) (updGov fun g => { g with stretched := g.stretched.filter (· != island) }))

/-! ## Temperature (R341) -/

/-- The hottest of the readings, and the first sensor that shows it. -/
def hottestOf (readings : List Int) : Int × Nat :=
  match readings with
  | [] => (0, 0)
  | r :: rest => (rest.zipIdx).foldl (fun (h, i) (x, k) => if x > h then (x, k + 1) else (h, i)) (r, 0)

/-- A thermal state is entered, with its event and its record. -/
def enterThermal (st : Nat) : Act Unit := do
  setField Reg.pwrStatus 1 0 st
  raiseEvent 3
  let s ← get
  logAdd 0x22 177 0 0xFF 0xFF 0 (s.powerPayload (bits (s.reg Reg.pwrPower) 15 0) (bits (s.reg Reg.pwrPower) 31 16) 0xFF 0)

/-- Shutdown: a record into the health record, and every regulator off. -/
def thermalShutdown : Act Unit := do
  tearSlot
  setField Reg.pwrStatus 1 0 3
  let s ← get
  healthAppend 0x22 (s.powerPayload (bits (s.reg Reg.pwrPower) 15 0) (bits (s.reg Reg.pwrPower) 31 16) 0xFF 0)
  modify fun s => { s with board := { s.board with powered := false, live := false, tripped := true } }

/-- R341: the junction sensors are read. -/
def execThermalSample (readings : List Int) (s : State) : Out := s.doing do
  let (hot, sensor) := hottestOf readings
  wr Reg.pwrTemp (sensor <<< 16 + ofSigned 16 hot)
  let m ← get
  let st := bits (m.reg Reg.pwrStatus) 1 0
  if hot ≥ 115 * 16 then thermalShutdown
  else if hot ≥ 105 * 16 then whenA (st != 2) do
    enterThermal 2
    updGov fun g => { g with halved := true }
    forA (List.range 128) fun i => setPoint i (m.preferred i)
  else whenA (decide (hot ≥ 98 * 16) && st == 0) (enterThermal 1)

/-- R341: throttling ends. -/
def execThrottleExit (belowMs : Nat) (s : State) : Out := s.doing do
  let m ← get
  whenA (bits (m.reg Reg.pwrStatus) 1 0 == 1 && decide (belowMs ≥ 10) && decide (m.hottest < 95 * 16)) do
    setField Reg.pwrStatus 1 0 0
    updGov fun g => { g with cool := 0 }

/-- R341: the hard limit ends in throttling. -/
def execHardLimitExit (belowMs : Nat) (s : State) : Out := s.doing do
  let m ← get
  whenA (bits (m.reg Reg.pwrStatus) 1 0 == 2 && decide (belowMs ≥ 10) && decide (m.hottest < 100 * 16)) do
    setField Reg.pwrStatus 1 0 1
    updGov fun g => { g with halved := false }

end Sys2Proof.Machine
end

