-- ==== Sys2Proof/Machine/Counters.lean ====
section
/-! DEFINITION. Event counters' selects and values, bandwidth windows and scorecards (chapter 17). -/

namespace Sys2Proof.Machine

/-! ## Selects and values (R408 to R412) -/

/-- May counter c of a core position select a code (Tables 17-1 to 17-3)? -/
def posCodeOk (c code : Nat) : Bool :=
  let within := fun lo hi => decide (lo ≤ code) && decide (code ≤ hi)
  within 0x120 0x138 ||
    if c ≥ 32 then within 0x100 0x10B
    else within (0x40 * (c / 8)) (0x40 * (c / 8) + 0x3C) ||
      (match c / 8 with
       | 0 => within 0x1A0 0x1A3
       | 1 => within 0x180 0x18E
       | 2 => within 0x190 0x195
       | _ => within 0x1B0 0x1B5)

/-- May a port controller's counter select a code? -/
def portCodeOk (code : Nat) : Bool :=
  (decide (0x200 ≤ code) && decide (code ≤ 0x213)) || (decide (0x220 ≤ code) && decide (code ≤ 0x223))
    || (decide (0x280 ≤ code) && decide (code ≤ 0x290))

/-- May a Relay engine's counter select a code? -/
def relayCodeOk (code : Nat) : Bool := decide (0x300 ≤ code) && decide (code ≤ 0x310)

/-- A write of a select of a core position, through the block of a logical core. -/
def posSelWrite (pos c who value : Nat) : Act Unit := whenA (posCodeOk c (bits value 9 0)) do
  wr (Reg.posCntSel pos c) (value &&& 0xE00003FF)
  wr (Reg.posCntOwner pos c) who
  upd (Reg.posSelGen pos) fun v => setBits v 31 0 (bits v 31 0 + 1)

/-- A write of a select of a port controller. -/
def portSelWrite (n c value : Nat) : Act Unit := whenA (portCodeOk (bits value 9 0)) do
  wr (Reg.cntESel n c) (value &&& 0xDC0003FF)
  addReg 32 (Reg.ioSelGen (152 + n)) 1

/-- A write of a select of a Relay engine. -/
def relaySelWrite (e c value : Nat) : Act Unit := whenA (relayCodeOk (bits value 9 0)) do
  wr (Reg.cntRSel e c) (value &&& 0xC00003FF)
  addReg 32 (Reg.ioSelGen (168 + e)) 1

/-- A write of a select: of a core position, through the block of the logical core that runs there, of a port controller, or of a Relay
engine. -/
def selWrite (owner index counter value : Nat) : Act Unit := do
  let s ← get
  match owner with
  | 0 => whenA (decide (counter < 40)) (posSelWrite index counter (s.runningAt index) value)
  | 1 => whenA (decide (index < 16)) (portSelWrite index counter value)
  | _ => whenA (decide (index < 4)) (relaySelWrite index counter value)

/-- R408: a select is written. -/
def execCounterSelectWrite (owner index counter value : Nat) (s : State) (writer : Nat := 0) : Out :=
  s.doing (regAction writer false (.counterSelectWrite owner index counter value writer) (selWrite owner index counter value))

/-- A write of a counter (R409). -/
def counterSet (owner index counter value : Nat) : Act Unit :=
  match owner with
  | 0 => whenA (decide (counter < 40)) (wr (Reg.posCnt index counter) (trunc 64 value))
  | 1 => whenA (decide (index < 16)) (wr (Reg.cntE index counter) (trunc 64 value))
  | _ => whenA (decide (index < 4)) (wr (Reg.cntR index counter) (trunc 64 value))

/-- R409: a counter is written. -/
def execCounterWrite (owner index counter value : Nat) (s : State) (writer : Nat := 0) : Out :=
  s.doing (regAction writer false (.counterWrite owner index counter value writer) (counterSet owner index counter value))

/-! ## Bandwidth (R413) -/

/-- R413: a bandwidth window ends. -/
def execBandwidthWindowEnd (n tx rx : Nat) (s : State) : Out := s.doing (
  upd (Reg.cntBw n) fun v => trunc 32 (bits v 127 96 + 1) <<< 96 + trunc 48 rx <<< 48 + trunc 48 tx)

/-- A read of bytes 0 to 7 of CNT_BW_n latches bytes 8 to 15. -/
def bwLatch (n : Nat) : Act Unit := do
  let v ← rd (Reg.cntBw n)
  wr (Reg.cntBwLatch n) (1 <<< 64 + word64 v 1)

/-- R413: CNT_BW_READ_LATCH. -/
def execCntBwReadLatch (n : Nat) (s : State) (writer : Nat := 0) : Out := s.doing (regRead writer false (.cntBwReadLatch n writer) do
  bwLatch n
  let v ← rd (Reg.cntBw n)
  pure (word64 v 0))

/-! ## Scorecards (R414 to R416) -/

/-- The island indices of the enabled groups, rising. -/
def M.scdGroups (s : M) : List Nat :=
  let io := s.reg Reg.cntScdMaskIo
  (List.range 128).filter (bit (s.reg Reg.cntScdMaskPos)) ++
    ((List.range 20).filter (bit io)).map (152 + ·)

/-- Does the ring of 2^frames frames lie inside the far store? -/
def M.scdFits (s : M) (frames : Nat) : Bool :=
  let b := s.reg Reg.cntScdBase
  inFar b && inRegion b (576 * s.scdGroups.length * 2 ^ min 16 frames)

/-- A write of CNT_SCD_CTL (R415, R419). -/
def scdCtl (value : Nat) : Act Unit := do
  let s ← get
  let en := bit (s.reg Reg.cntScdCtl) 31
  let frames := if en then bits (s.reg Reg.cntScdCtl) 4 0 else bits value 4 0
  if !bit value 31 then wr Reg.cntScdCtl frames
  else if en then pure ()
  else whenA (bit (s.reg Reg.mgtReadyMap) 121 && s.scdFits frames) do
    wr Reg.cntScdCtl (1 <<< 31 + frames)
    wr Reg.cntScdSeq 0
    wr Reg.cntScdDone 0xFFFFFFFF

/-- R415: CNT_SCD_CTL is written. -/
def execCntScdEnable (value : Nat) (s : State) (writer : Nat := 0) : Out :=
  s.doing (regAction writer false (.cntScdEnable value writer) (scdCtl value))

/-- The record of a group (Table 17-4). -/
def M.scdRecord (s : M) (seq i : Nat) : List Byte :=
  let kind := if i < 128 then 0 else if i < 168 then 1 else 2
  let running := (s.posX i).running
  let logical := if kind = 0 then (if running = 0xFF then s.logicalAt i else running) else 0
  let gen := if kind = 0 then s.reg (Reg.posSelGen i) else s.reg (Reg.ioSelGen i)
  let ovf := match kind with
    | 0 => s.reg (Reg.posCntOvf i)
    | 1 => s.reg (Reg.cntEOvf (i - 152))
    | _ => s.reg (Reg.cntROvf (i - 168))
  let bw := if kind = 1 then s.reg (Reg.cntBw (i - 152)) else 0
  let cnt := fun c => match kind with
    | 0 => if c < 40 then s.reg (Reg.posCnt i c) else 0
    | 1 => s.reg (Reg.cntE (i - 152) c)
    | _ => s.reg (Reg.cntR (i - 168) c)
  leBytes 4 seq ++ leBytes 2 kind ++ leBytes 2 i ++ leBytes 8 (s.island i) ++ leBytes 1 logical
    ++ leBytes 3 (b2n (kind == 0 && bit gen 32)) ++ leBytes 4 (bits gen 31 0) ++ leBytes 8 ovf
    ++ leBytes 4 (bits bw 127 96) ++ leBytes 6 (bits bw 47 0) ++ leBytes 6 (bits bw 95 48) ++ List.replicate 16 0#8
    ++ (List.range 64).flatMap fun c => leBytes 8 (cnt c)

/-- R414: the tick of a scorecard: every enabled group writes its record. -/
def execScorecardTick (s : State) : Out := s.doing do
  let m ← get
  let ctl := m.reg Reg.cntScdCtl
  whenA (bit ctl 31) do
    let seq := m.reg Reg.cntScdSeq
    let gs := m.scdGroups
    forA gs.zipIdx fun (i, j) => do
      let _ ← writeBytes (m.reg Reg.cntScdBase + 576 * (gs.length * (seq % 2 ^ min 16 (bits ctl 4 0)) + j)) (m.scdRecord seq i)
      whenA (decide (i < 128)) (setField (Reg.posSelGen i) 32 32 0)
    wr Reg.cntScdDone seq
    wr Reg.cntScdSeq (trunc 32 (seq + 1))

end Sys2Proof.Machine
end

