-- ==== Sys2Proof/Machine/Hardware.lean ====
section
/-! DEFINITION. Module hardware (chapter 19): the input controller and the rails, PORT_OFF#, cables, the PMBus target and the
test port. -/

namespace Sys2Proof.Machine

/-! ## Input and rails (R428, R429, R431) -/

/-- Every regulator is off: the islands hold nothing, and a running flash command is broken off (R385). -/
def railsOff : Act Unit := do
  tearSlot
  modify fun s => { s with board := { s.board with powered := false, live := false } }

/-- R428, R431: the input has held for 100 ms with PRES# low: the rails come up to power good. -/
def execPowerInputApplied (mv heldMs : Nat) (presLow : Bool) (s : State) : Out := s.always do
  modify fun s => { s with board := { s.board with presLow := presLow } }
  let m ← get
  whenA (decide (48000 ≤ mv) && decide (mv ≤ 56000) && decide (heldMs ≥ 100) && presLow && !m.board.tripped && !m.board.powered)
    (modify fun s => { s with board := { s.board with powered := true } })

/-- R431: during power-up a rail is not good within its bound; the input must be removed. -/
def execRailFault (railStep : Nat) (s : State) : Out := s.always do
  let m ← get
  whenA (decide (2 ≤ railStep) && decide (railStep ≤ 5) && m.board.powered && !m.board.live) do
    railsOff
    modify fun s => { s with board := { s.board with tripped := true } }

/-- R428: the input leaves 46 V to 58 V for more than 100 µs. Below, it counts as removed. -/
def execInputOutOfRange (mv heldUs : Nat) (s : State) : Out := s.always do
  whenA ((decide (mv < 46000) || decide (mv > 58000)) && decide (heldUs > 100)) railsOff
  whenA (decide (mv < 46000) && decide (heldUs > 100))
    (modify fun s => { s with board := { s.board with tripped := false } })

/-- R428, R429: PRES# goes high. -/
def execPresDeassert (s : State) : Out := s.always do
  railsOff
  modify fun s => { s with board := { s.board with presLow := false } }

/-! ## PORT_OFF# and cables (R433, R436) -/

/-- R436: PORT_OFF# goes low. -/
def execPortOffAssert (s : State) : Out := s.always (modify fun s => { s with board := { s.board with portOff := true } })

/-- R436: PORT_OFF# returns high: links that were up train again. -/
def execPortOffDeassert (s : State) : Out := s.always do
  let m ← get
  modify fun s => { s with board := { s.board with portOff := false } }
  whenA (m.board.live && m.board.portOff) (forA (List.range m.nPorts) fun p => linkDown p (m.trains p))

/-- R433: a cable's presence changes, and its EEPROM is reported by PLDM; or its interrupt is recorded. The manual gives that
record no kind. -/
def execCableEvent (connector kind : Nat) (present : Bool) (s : State) : Out := s.doing (
  if kind = 0 then do
    modify fun s => { s with board := { s.board with
      cables := if present then insertNew s.board.cables connector else s.board.cables.filter (· != connector) } }
    emit (.pldm connector kind present)
  else do
    let k ← freeVal 16
    let pl ← freeBytes 36
    logAdd k 177 0 0xFF 0xFF 0 pl)

/-! ## The PMBus target (R437) -/

/-- A command of the target: a reply from bit 126 on, else a NACK. -/
def pmbus (f : Act Nat) : Act Unit := do
  let s ← get
  if s.imageReady then do
    let v ← f
    emit (.pmbus (some v))
  else emit (.pmbus none)

/-- R437: READ_VIN. -/
def execReadVin (reading : Nat) (s : State) : Out := s.doing (pmbus (pure reading))
/-- R437: READ_IIN. -/
def execReadIin (reading : Nat) (s : State) : Out := s.doing (pmbus (pure reading))
/-- R437: READ_PIN reports p_meas. -/
def execReadPin (s : State) : Out := s.doing (pmbus do
  let v ← rd Reg.pwrPower
  pure (bits v 31 16))
/-- R437: READ_TEMPERATURE_1 reports the hottest junction. -/
def execReadTemperature1 (s : State) : Out := s.doing (pmbus do
  let v ← rd Reg.pwrTemp
  pure (bits v 15 0))
/-- R437: STATUS_WORD; the manual does not lay its bits out. -/
def execStatusWord (s : State) : Out := s.doing (pmbus (freeVal 16))

/-- Command codes that the target answers. -/
def pmbusCodes : List Nat := [0x79, 0x88, 0x89, 0x8D, 0x97]

/-- R437: every write and every other command, and everything before bit 126, is a NACK. -/
def execPmbusNack (code : Nat) (isWrite : Bool) (s : State) : Out := s.doing do
  let m ← get
  whenA (isWrite || !pmbusCodes.contains code || !m.imageReady) (emit (.pmbus none))

/-! ## The test port (R434, R438) -/

/-- PERST# is asserted: either pin is low (R435). -/
def M.perst (s : M) : Bool := s.board.perst9 || s.board.perst10

/-- An instruction of the TAP, once its rail is up (step 3 of Table 19-2), and what it shifts out. -/
def tapDo (tap out : Nat) : Act Unit := do
  let s ← get
  whenA s.board.powered do
    modify fun s => { s with board := { s.board with tap := tap } }
    emit (.tap out)

/-- R438: IDCODE. -/
def execIdcode (s : State) : Out := s.always (tapDo 0 0x1A9017AB)
/-- R438: BYPASS. -/
def execBypass (s : State) : Out := s.always (tapDo 1 0)
/-- R438: SAMPLE/PRELOAD. -/
def execSamplePreload (capture : Nat) (s : State) : Out := s.always do
  let m ← get
  whenA m.board.powered (modify fun s => { s with board := { s.board with boundary := capture } })
  tapDo 2 capture
/-- R438: EXTEST drives the pins from the boundary register while PERST# is asserted; else BYPASS. -/
def execExtest (s : State) : Out := s.always do
  let m ← get
  if m.perst then tapDo 3 m.board.boundary else tapDo 1 0
/-- R438: CLAMP while PERST# is asserted; else BYPASS. -/
def execClamp (s : State) : Out := s.always do
  let m ← get
  if m.perst then tapDo 4 0 else tapDo 1 0
/-- R438: HIGHZ while PERST# is asserted; else BYPASS. -/
def execHighz (s : State) : Out := s.always do
  let m ← get
  if m.perst then tapDo 5 0 else tapDo 1 0
/-- R434: TRST#: the TAP is reset, with IDCODE in force. -/
def execTapReset (s : State) : Out := s.always (modify fun s => { s with board := { s.board with tap := 0 } })

end Sys2Proof.Machine
end

