-- ==== Sys2Proof/Machine/RegAccess.lean ====
section
/-! DEFINITION. Accesses of the register space by the host through BAR0 and by control cores (R10 to R12, R301, R424, R425):
where an offset leads, what a write and what a read of each register does. -/

namespace Sys2Proof.Machine

/-! ## Where an offset leads -/

/-- Does a per-core offset lie in the event counters and the trace, which follow the position (R410)? -/
def posOwned (o : Nat) : Bool := (decide (0x4000 ≤ o) && decide (o < 0x5000)) || (decide (0x8000 ≤ o) && decide (o < 0xC000))

/-- The register at an offset of the register space: its row, its key, and the byte of it that the offset names (R424).
None: reserved (R12), as are the blocks of cores outside the grade and of ports that the lane mode has not. -/
def M.resolve (s : M) (off : Nat) : Option (RegRow × Nat × Nat) :=
  let at' := fun o => (Reg.find o).map fun (r, key) => (r, key, o - key)
  if off < 0x1000000 then
    if 0x281000 ≤ off ∧ off < 0x282000 ∧ s.nPorts ≤ (off - 0x281000) / 0x40 then none else at' off
  else if off < 0x2000000 then
    let n := (off - 0x1000000) / 0x10000
    let o := off % 0x10000
    if s.nCores ≤ n then none
    else if o < 0x4000 then at' off
    else if posOwned o then at' (0x10000000 + 0x10000 * s.posOf n + o)
    else none
  else none

/-- The CXL component and device registers in the host block (R301). -/
def cxlBlock (off : Nat) : Bool := decide (0x110000 ≤ off) && decide (off < 0x130000)

/-- The accesses of 4 or 8 bytes that an access splits into: two if the register at its offset is no wider than 4 bytes
(log 40). -/
def M.parts (s : M) (off size : Nat) : List (Nat × Nat) :=
  let narrow := match s.resolve off with
    | some (r, _) => decide (r.size < 8)
    | none => true
  if size = 8 ∧ narrow = true then [(off, 4), (off + 4, 4)] else [(off, size)]

/-! ## Writes -/

/-- The bits of a register that an access of `size` bytes at byte d of it covers. -/
def cover (size d : Nat) : Nat := (2 ^ (8 * size) - 1) <<< (8 * d)

/-- A write by the access code (Table 00-4): RW takes the writable bits, W1C clears those written 1, IL as R318 says; a write
of RO or RC is ignored, and so is a WO register's whose width the write does not have. -/
def plainWrite (r : RegRow) (key d size value : Nat) : Act Unit := do
  let m := r.mask &&& cover size d
  let v := trunc (8 * size) value <<< (8 * d)
  match r.acc with
  | .rw => upd key fun old => old - (old &&& m) + (v &&& m)
  | .w1c => upd key fun old => old - (old &&& v &&& m)
  | .il => do
    let _ ← ilWrite key m v
    pure ()
  | _ => pure ()

/-- MEM_INJECT (R208). -/
def memInject (value : Nat) : Act Unit := do
  let s ← get
  let a := bits value 41 0
  whenA (s.injectOk a) (
    match bits value 63 62 with
    | 0 => flipBytes a 1
    | 1 => flipBytes a 3
    | 2 => poisonLine (a / 32)
    | _ => pure ())

/-- CHK_PARITY_GO (R366). -/
def parityGo (value : Nat) : Act Unit :=
  match bits value 63 62 with
  | 1 => parityRefresh (bits value 39 0)
  | 2 => rebuildSurvivor (bits value 39 0) (bits value 51 40)
  | 3 => rebuildSpare (bits value 39 0) (bits value 51 40)
  | _ => pure ()

/-- A register of a host job queue (R321): BASE, CMPL and LOG2_SIZE are set only while the queue is disabled and idle. -/
def queueWrite (r : RegRow) (key d size value : Nat) : Act Unit := do
  let s ← get
  let q := (key - 0x101000) / 0x40
  match (key - 0x101000) % 0x40 with
  | 0x00 => whenA (s.qIdle q) (plainWrite r key d size value)
  | 0x08 => whenA (s.qIdle q) (plainWrite r key d size value)
  | 0x10 => plainWrite { r with mask := if s.qIdle q then r.mask else r.mask - (r.mask &&& 0x1F0000) } key d size value
  | 0x14 => doorbell q value
  | 0x28 => abortEntry q value
  | 0x30 => queueReset q value
  | _ => pure ()

/-- An IL register with values that are reserved: a write of one is ignored, and counted as ignored. -/
def ilUnless (bad : Bool) (r : RegRow) (key d size value : Nat) : Act Unit :=
  if bad then inc64 Reg.hstIlRejects else plainWrite r key d size value

/-- A register of the scorecards (R414, R415, R419): only CNT_SCD_CTL is written while EN is 1. -/
def scdWrite (r : RegRow) (key d size value : Nat) : Act Unit := do
  let s ← get
  if key = Reg.cntScdCtl then scdCtl value
  else whenA (!bit (s.reg Reg.cntScdCtl) 31) (
    if key = Reg.cntScdPeriod then wr key (max 10 (min 1000000 (bits value 19 0)))
    else plainWrite r key d size value)

/-- A write below the per-core blocks. -/
def blockWrite (r : RegRow) (key d size value : Nat) : Act Unit :=
  if key = Reg.mgtFlashCmd then whenA (decide (size = 8)) (flashCommand (bits value 63 62) (bits value 31 0))
  else if 0x101000 ≤ key ∧ key < 0x102000 then queueWrite r key d size value
  else if key = Reg.pwrCapW then plainWrite r key d size (max 500 (min 1600 (bits value 10 0)))
  else if 0x210100 ≤ key ∧ key < 0x210120 then ilUnless (decide (bits value 2 0 ≥ 6)) r key d size value
  else if key = Reg.chkShadow then ilUnless (decide (bits value 2 0 ≥ 6)) r key d size value
  else if key = Reg.chkParityGo then whenA (decide (size = 8)) (parityGo value)
  else if key = Reg.memInject then whenA (decide (size = 8)) (memInject value)
  else if 0x240100 ≤ key ∧ key < 0x240200 then vgroupWrite ((key - 0x240100) / 4) value
  else if key = Reg.trnTakeover then takeover value
  else if key = Reg.rlyCqDoorbellReg then whenA (decide (size = 8)) (cqDoorbell value)
  else if key = Reg.rlyGcacheFlushReg then gcacheFlush value
  else if 0x300000 ≤ key ∧ key < 0x310000 then scdWrite r key d size value
  else if 0x310000 ≤ key ∧ key < 0x320000 ∧ 0x200 ≤ key % 0x1000 ∧ key % 0x1000 < 0x300 then
    portSelWrite ((key - 0x310000) / 0x1000) ((key % 0x1000 - 0x200) / 4) value
  else if 0x320000 ≤ key ∧ key < 0x330000 ∧ 0x200 ≤ key % 0x1000 ∧ key % 0x1000 < 0x300 then
    relaySelWrite ((key - 0x320000) / 0x1000) ((key % 0x1000 - 0x200) / 4) value
  else plainWrite r key d size value

/-- A write of CORE_TRACE_CTL (R418): a write with MODE 2 or 3 is ignored; setting EN starts the records afresh; EN does not
stay set over a full buffer with WRAP = 0. -/
def traceCtlWrite (pos value : Nat) : Act Unit := do
  let s ← get
  let old := s.reg (Reg.posTraceCtl pos)
  whenA (decide (bits value 29 28 < 2)) do
    wr (Reg.posTraceCtl pos) (trunc 32 value)
    if bit old 31 then
      whenA (!bit value 30 && decide (256 ≤ s.reg (Reg.posTraceWr pos))) (setField (Reg.posTraceCtl pos) 31 31 0)
    else whenA (bit value 31) do
      wr (Reg.posTraceWr pos) 0
      forA (List.range 4) fun e => wr (Reg.posTraceN pos e) 0
      wr (Reg.posTraceLast pos) (s.reg (Reg.posCnt pos (bits value 23 16)) / max 1 (bits value 15 0))

/-- A write to what a position owns, through the block of logical core n (R408 to R410, R418). -/
def posWrite (n : Nat) (r : RegRow) (key d size value : Nat) : Act Unit :=
  let pos := (key - 0x10000000) / 0x10000
  let o := key % 0x10000
  if 0x4200 ≤ o ∧ o < 0x4300 then posSelWrite pos ((o - 0x4200) / 4) n value
  else if o = 0x4310 then traceCtlWrite pos value
  else plainWrite r key d size value

/-- CORE_RING_ABORT (R135, R137). -/
def ringAbort (n e value : Nat) : Act Unit :=
  match bits value 1 0 with
  | 0 => abortRecords n e (bits value 63 32) false
  | 1 => abortRecords n e (bits value 63 32) true
  | 2 => abortJob n e
  | _ => pure ()

/-- A register of ring e of logical core n; f its offset in the ring's registers (R123, R124, R127, R137). -/
def ringWrite (writer n e f : Nat) (r : RegRow) (key d size value : Nat) : Act Unit := do
  let s ← get
  match f with
  | 0x00 => whenA (s.allHalted n) (plainWrite r key d size value)
  | 0x08 => whenA (s.allHalted n) (plainWrite r key d size value)
  | 0x0C => if bit value 0 then ringRun n e else ringStop n e
  | 0x20 =>
    if size ≠ 8 then pushOrder writer n e
    else if d = 24 then pushCommit writer n e value
    else pushWord writer n e (d / 8) value
  | 0x40 => ringReset n e
  | 0x48 => whenA (decide (size = 8)) (ringAbort n e value)
  | _ => plainWrite r key d size value

/-- A write in the block of a logical core, to what the core owns. -/
def coreWrite (writer : Nat) (r : RegRow) (key d size value : Nat) : Act Unit := do
  let s ← get
  let n := (key - 0x1000000) / 0x10000
  let o := key % 0x10000
  if 0x100 ≤ o ∧ o < 0x300 then ringWrite writer n ((o - 0x100) / 0x80) ((o - 0x100) % 0x80) r key d size value
  else if 0x1000 ≤ o ∧ o < 0x1400 then whenA (s.allHalted n) (plainWrite r key d size value)
  else if o = 0x1400 then passThrow n (bits value 23 16) (bits value 15 0)
  else if o = 0x2000 then playSync n (bits value 3 0)
  else plainWrite r key d size value

/-- One write that has been accepted. -/
def writeReg (writer off size value : Nat) : Act Unit := do
  let s ← get
  match s.resolve off with
  | none => whenA (cxlBlock off) (compWrite (off / 4 * 4) value)
  | some (r, key, d) =>
    if 0x10000000 ≤ key then posWrite ((off - 0x1000000) / 0x10000) r key d size value
    else if 0x1000000 ≤ key then coreWrite writer r key d size value
    else blockWrite r key d size value

/-- Is an access of 4 or 8 bytes, and naturally aligned (R301, R425)? -/
def accessOk (off size : Nat) : Bool := (size == 4 || size == 8) && off % size == 0

/-- A write and its parts. -/
def writeParts (writer off size value : Nat) : Act Unit := do
  let s ← get
  forA (s.parts off size) fun (o, n) => writeReg writer o n (trunc (8 * n) (value >>> (8 * (o - off))))

/-- R10 to R12, R301, R319, R378, R425: a write of the register space, by the host (writer 0) or the control core of a position
(1 + position). A write of the wrong size or alignment is discarded, or faults the control core. -/
def execRegisterWrite (writer offset size value : Nat) (s : State) : Out :=
  s.doing (regAction writer (decide (offset < 0x100000)) (.registerWrite writer offset size value) do
    let m ← get
    if accessOk offset size then writeParts writer offset size value
    else whenA (writer != 0) (endJobsOn (m.runningAt (writer - 1)) 1))

/-! ## Reads -/

/-- STATE of CORE_RING_STATE (Table 05-9). -/
def M.ringStateCode (s : M) (n e : Nat) : Nat :=
  if !s.ringRun n e then 0
  else if !s.switchedIn n then 5
  else if s.ringEmpty n e then 1
  else if (s.ring n e).credit then 3
  else if !s.caught n e then 2
  else 4

/-- CORE_ID (Table 05-9). -/
def M.coreIdValue (s : M) (n : Nat) : Nat :=
  let c := s.reg (Reg.mgtCoreMap n)
  let mode := if s.coreMode n = 1 ∨ s.coreMode n = 2 then s.coreMode n else 0
  bits c 23 16 <<< 24 + n <<< 16 + mode <<< 8 + s.posOf n

/-- RLY_VACC_n: the highest step of which an engine holds an accumulator of the entry, and the bits at that step. -/
def M.vaccValue (s : M) (n : Nat) : Nat :=
  let l := (List.range 4).filterMap fun e => (s.eng e).vacc.find? fun (k, _, _) => k == n
  let t := (l.map fun (_, t, _) => t).foldl max 0
  (l.foldl (fun b (_, u, c) => if u = t then b ||| c else b) 0) <<< 40 + t

/-- RLY_ENG_STATE_e. -/
def M.engStateValue (s : M) (e : Nat) : Nat :=
  let active := ((s.eng e).colls.filter (·.started)).length
  let queued := (s.eng e).colls.length - active
  min 255 queued <<< 16 + active <<< 9 + min 511 ((1024 * s.reg (Reg.rlyStageSize e) - s.staged e) / 1024)

/-- TRN_CTX_STATE: contexts on the chip, and open outbound directions. -/
def M.ctxStateValue (s : M) : Nat :=
  (s.trn.rallies.filter fun (_, r) => r.onChip).length <<< 16 + (s.trn.rallies.filter fun (_, r) => r.out != 0).length

/-- What a register below the per-core blocks shows. A field that the manual reads as another value where it is out of range shows what it
holds (DEDUCED, log 106). -/
def M.blockValue (s : M) (key : Nat) : Nat :=
  if key = Reg.chkStatus then setBits (s.reg key) 0 0 (b2n (decide (s.benches.length < 2)))
  else if key = Reg.trnCtxState then s.ctxStateValue
  else if 0x101000 ≤ key ∧ key < 0x102000 ∧ key % 0x40 = 0x24 then
    let q := (key - 0x101000) / 0x40
    s.qRunning q <<< 16 + s.qWaiting q
  else if 0x260100 ≤ key ∧ key < 0x260200 ∧ key % 0x40 = 0x0C then s.engStateValue ((key - 0x260100) / 0x40)
  else if 0x260400 ≤ key ∧ key < 0x260600 then s.vaccValue ((key - 0x260400) / 8)
  else s.reg key

/-- What a register of a logical core shows. -/
def M.coreValue (s : M) (key : Nat) : Nat :=
  let n := (key - 0x1000000) / 0x10000
  let o := key % 0x10000
  if o = 0 then s.coreIdValue n
  else if 0x100 ≤ o ∧ o < 0x300 ∧ o % 0x80 = 0x1C then setBits (s.reg key) 31 29 (s.ringStateCode n ((o - 0x100) / 0x80))
  else s.reg key

/-- What a register shows; CHECK_MISS of a ready set is a free value, since the check cache is not modelled (log 41). -/
def regValue (key d : Nat) : Act Nat := do
  let s ← get
  if 0x230100 ≤ key ∧ key < 0x230120 then
    if bits (s.reg key) 31 30 = 3 then do
      let miss ← freeVal 16
      pure (setBits (s.reg key) 15 0 miss)
    else pure (s.reg key)
  else if 0x310000 ≤ key ∧ key < 0x320000 ∧ key % 0x1000 = 0x320 then do
    let i := (key - 0x310000) / 0x1000
    whenA (decide (d < 8)) (bwLatch i)
    let latched ← rd (Reg.cntBwLatch i)
    pure (if bit latched 64 then setBits (s.reg key) 127 64 (trunc 64 latched) else s.reg key)
  else if 0x1000000 ≤ key ∧ key < 0x2000000 then pure (s.coreValue key)
  else if key < 0x1000000 then pure (s.blockValue key)
  else pure (s.reg key)

/-- One read (Table 00-4): the value; zero of a reserved offset or a WO register; a read of RC clears what it covers. -/
def readReg (off size : Nat) : Act Nat := do
  let s ← get
  match s.resolve off with
  | none => pure (if cxlBlock off then s.compDword (off / 4 * 4) else 0)
  | some (r, key, d) =>
    if r.acc = .wo then pure 0
    else do
      let v ← regValue key d
      whenA (decide (r.acc = .rc)) (upd key fun old => old - (old &&& cover size d))
      pure (trunc (8 * size) (v >>> (8 * d)))

/-- A read and its parts. -/
def readParts (off size : Nat) : Act Nat := do
  let s ← get
  let l ← mapA (s.parts off size) fun (o, n) => do
    let v ← readReg o n
    pure (v <<< (8 * (o - off)))
  pure (l.foldl (· + ·) 0)

/-- R10 to R12, R301, R319, R378, R425: a read of the register space, by the host (writer 0) or the control core of a position
(1 + position). One of the wrong size or alignment completes with Unsupported Request, or faults the control core. -/
def execRcRegisterRead (offset size : Nat) (s : State) (writer : Nat := 0) : Out :=
  s.doing (
    if accessOk offset size then
      regRead writer (decide (offset < 0x100000)) (.rcRegisterRead offset size writer) (readParts offset size)
    else unlessHeld writer (.rcRegisterRead offset size writer) do
      let m ← get
      if writer = 0 then do
        refused
        emit (.cpl 1 false [])
      else do
        ctlAccess writer
        endJobsOn (m.runningAt (writer - 1)) 1)

end Sys2Proof.Machine
end

