-- ==== Sys2Proof/Machine/Posted.lean ====
section
/-! DEFINITION. The end of a held push (R124, R315): the word is taken or discarded, and what waited behind it for the host proceeds in
order. -/

namespace Sys2Proof.Machine

/-- One of the host's accesses that can wait behind its held push, taken up again. -/
def redo (i : Instr) (s : State) : Out :=
  match i with
  | .registerWrite w o n v => execRegisterWrite w o n v s
  | .rcRegisterRead o n w => execRcRegisterRead o n s w
  | .bar0AccessInvalid w o n => execBar0AccessInvalid w o n s
  | .bar2Read o n => execBar2Read o n s
  | .bar2Write o d p => execBar2Write o d p s
  | .hstQDoorbell q v w => execHstQDoorbell q v s w
  | .hstQAbort q x w => execHstQAbort q x s w
  | .hstQReset q v w => execHstQReset q v s w
  | .getEventRecords x => execGetEventRecords x s
  | .clearEventRecords x => execClearEventRecords x s
  | .getEventInterruptPolicy x => execGetEventInterruptPolicy x s
  | .setEventInterruptPolicy x => execSetEventInterruptPolicy x s
  | .getFwInfo x => execGetFwInfo x s
  | .getSupportedLogs x => execGetSupportedLogs x s
  | .getLog x => execGetLog x s
  | .getReady x => execGetReady x s
  | .getSettings x => execGetSettings x s
  | .readLog x => execReadLog x s
  | .getHealth x => execGetHealth x s
  | .zeroise v x => execZeroise v x s
  | .mailboxUnsupported x => execMailboxUnsupported x s
  | .mgtFlashErase w => execMgtFlashErase s w
  | .mgtFlashProgram n w => execMgtFlashProgram n s w
  | .mgtFlashCheck w => execMgtFlashCheck s w
  | .ringPushWord w c e k v => execRingPushWord w c e k v s
  | .ringPushCommit w c e v => execRingPushCommit w c e v s
  | .coreRingCtlRun c e w => execCoreRingCtlRun c e s w
  | .coreRingReset c e w => execCoreRingReset c e s w
  | .abortRecord c e x w => execAbortRecord c e x s w
  | .abortRecordAndLater c e x w => execAbortRecordAndLater c e x s w
  | .abortJob c e w => execAbortJob c e s w
  | .corePassThrow c p n w => execCorePassThrow c p n s w
  | .corePlaySync c m w => execCorePlaySync c m s w
  | .memInjectCorrectable a w => execMemInjectCorrectable a s w
  | .memInjectUncorrectable a w => execMemInjectUncorrectable a s w
  | .memInjectPoison a w => execMemInjectPoison a s w
  | .updVgroupWrite n v w => execUpdVgroupWrite n v s w
  | .trnTakeover v w => execTrnTakeover v s w
  | .rlyCqDoorbell v w => execRlyCqDoorbell v s w
  | .rlyGcacheFlush v w => execRlyGcacheFlush v s w
  | .parityRefresh n w => execParityRefresh n s w
  | .parityRebuildSurvivor n l w => execParityRebuildSurvivor n l s w
  | .parityRebuildSpare n l w => execParityRebuildSpare n l s w
  | .counterSelectWrite o i c v w => execCounterSelectWrite o i c v s w
  | .counterWrite o i c v w => execCounterWrite o i c v s w
  | .cntScdEnable v w => execCntScdEnable v s w
  | .cntBwReadLatch n w => execCntBwReadLatch n s w
  | _ => .next s

/-- One outcome, and then a command. -/
def andThen (o : Out) (f : State → Out) : Out :=
  match o with
  | .next s => f s
  | o => o

/-- The accesses that waited, one after the other. One that stalls again holds those behind it. -/
def redoAll : List Instr → State → Out
  | [], s => .next s
  | i :: is, s => andThen (redo i s) (redoAll is)

/-- What waited behind the host's held push proceeds once none is held. -/
def release (s : State) : Out :=
  if s.m.hostWaits then .next s
  else redoAll s.m.cxl.waiting { s with m := { s.m with cxl := { s.m.cxl with waiting := [] } } }

/-- R124: a word that stalled on a full ring is accepted once the ring is no longer full. -/
def execRingPushResume (writer core ring : Nat) (s : State) : Out := andThen (s.doing (pushResume writer core ring)) release

/-- R315: a host push that has been held for PUSH_LIMIT_US is discarded. -/
def execHostPushTimeout (core ring : Nat) (s : State) (heldUs : Nat := 0) : Out :=
  andThen (s.doing do
    let m ← get
    whenA (decide (heldUs ≥ m.pushLimit)) (pushTimeout core ring)) release

end Sys2Proof.Machine
end

