-- ==== Sys2Proof/Machine/Dispatch.lean ====
section
/-! DEFINITION. The effect of each command, one arm per constructor of `Instr`. -/

namespace Sys2Proof.Machine

def exec (i : Instr) (s : State) : Host.Outcome State Fault Refusal :=
  match i with
  | .powerInputApplied mv heldMs presLow => Sys2Proof.Machine.execPowerInputApplied mv heldMs presLow s
  | .railFault railStep => Sys2Proof.Machine.execRailFault railStep s
  | .inputOutOfRange mv heldUs => Sys2Proof.Machine.execInputOutOfRange mv heldUs s
  | .presDeassert => Sys2Proof.Machine.execPresDeassert s
  | .perstAssert pin => Sys2Proof.Machine.execPerstAssert pin s
  | .moduleReset releaseJ9 releaseJ10 bistFail => Sys2Proof.Machine.execModuleReset releaseJ9 releaseJ10 bistFail s
  | .slotVerify readErrA readErrB => Sys2Proof.Machine.execSlotVerify readErrA readErrB s
  | .securitySelfTest test pass => Sys2Proof.Machine.execSecuritySelfTest test pass s
  | .selfTestComplete fn pass => Sys2Proof.Machine.execSelfTestComplete fn pass s
  | .farStoreTrainingDone ctrl pass => Sys2Proof.Machine.execFarStoreTrainingDone ctrl pass s
  | .farStoreZeroFillDone set => Sys2Proof.Machine.execFarStoreZeroFillDone set s
  | .rollbackAdvance => Sys2Proof.Machine.execRollbackAdvance s
  | .hotReset => Sys2Proof.Machine.execHotReset s
  | .functionLevelReset => Sys2Proof.Machine.execFunctionLevelReset s
  | .cxlLinkDown => Sys2Proof.Machine.execCxlLinkDown s
  | .cxlLinkUp cxl lanes speed => Sys2Proof.Machine.execCxlLinkUp cxl lanes speed s
  | .configRequest isWrite offset value => Sys2Proof.Machine.execConfigRequest isWrite offset value s
  | .bar0AccessInvalid isWrite offset size => Sys2Proof.Machine.execBar0AccessInvalid isWrite offset size s
  | .bar2Read offset len => Sys2Proof.Machine.execBar2Read offset len s
  | .bar2Write offset data poison => Sys2Proof.Machine.execBar2Write offset data poison s
  | .cxlMemRead offset => Sys2Proof.Machine.execCxlMemRead offset s
  | .cxlMemWrite offset data poison => Sys2Proof.Machine.execCxlMemWrite offset data poison s
  | .h2dSnoop address => Sys2Proof.Machine.execH2dSnoop address s
  | .ideIntegrityFailure => Sys2Proof.Machine.execIdeIntegrityFailure s
  | .registerWrite writer offset size value => Sys2Proof.Machine.execRegisterWrite writer offset size value s
  | .rcRegisterRead offset size writer => Sys2Proof.Machine.execRcRegisterRead offset size s writer
  | .hstQDoorbell q wr writer => Sys2Proof.Machine.execHstQDoorbell q wr s writer
  | .jobEntryFetch q entry poison => Sys2Proof.Machine.execJobEntryFetch q entry poison s
  | .markerComplete q x => Sys2Proof.Machine.execMarkerComplete q x s
  | .jobAdmission q x waitUs => Sys2Proof.Machine.execJobAdmission q x waitUs s
  | .admissionTimeout q x waitMs => Sys2Proof.Machine.execAdmissionTimeout q x s waitMs
  | .ecallExit core a0 a1 => Sys2Proof.Machine.execEcallExit core a0 a1 s
  | .jobComplete q x runMs => Sys2Proof.Machine.execJobComplete q x runMs s
  | .jobRunTimeout q x runMs => Sys2Proof.Machine.execJobRunTimeout q x runMs s
  | .hstQAbort q index writer => Sys2Proof.Machine.execHstQAbort q index s writer
  | .hstQReset q value writer => Sys2Proof.Machine.execHstQReset q value s writer
  | .interruptHoldoffExpiry q => Sys2Proof.Machine.execInterruptHoldoffExpiry q s
  | .getEventRecords input => Sys2Proof.Machine.execGetEventRecords input s
  | .clearEventRecords input => Sys2Proof.Machine.execClearEventRecords input s
  | .getEventInterruptPolicy input => Sys2Proof.Machine.execGetEventInterruptPolicy input s
  | .setEventInterruptPolicy input => Sys2Proof.Machine.execSetEventInterruptPolicy input s
  | .getFwInfo input => Sys2Proof.Machine.execGetFwInfo input s
  | .getSupportedLogs input => Sys2Proof.Machine.execGetSupportedLogs input s
  | .getLog input => Sys2Proof.Machine.execGetLog input s
  | .getReady input => Sys2Proof.Machine.execGetReady input s
  | .getSettings input => Sys2Proof.Machine.execGetSettings input s
  | .readLog input => Sys2Proof.Machine.execReadLog input s
  | .getHealth input => Sys2Proof.Machine.execGetHealth input s
  | .zeroise viaMctp input => Sys2Proof.Machine.execZeroise viaMctp input s
  | .mailboxUnsupported opcode => Sys2Proof.Machine.execMailboxUnsupported opcode s
  | .zeroisePinLow heldUs => Sys2Proof.Machine.execZeroisePinLow heldUs s
  | .permanentZeroisation heldMs => Sys2Proof.Machine.execPermanentZeroisation heldMs s
  | .getCertificate viaMctp slot => Sys2Proof.Machine.execGetCertificate viaMctp slot s
  | .challenge viaMctp slot nonce => Sys2Proof.Machine.execChallenge viaMctp slot nonce s
  | .getMeasurements viaMctp index => Sys2Proof.Machine.execGetMeasurements viaMctp index s
  | .keyExchange viaMctp rootHash => Sys2Proof.Machine.execKeyExchange viaMctp rootHash s
  | .signPq session => Sys2Proof.Machine.execSignPq session s
  | .keyProg session stream key => Sys2Proof.Machine.execKeyProg session stream key s
  | .kSetGo session stream => Sys2Proof.Machine.execKSetGo session stream s
  | .kSetStop session stream => Sys2Proof.Machine.execKSetStop session stream s
  | .installCak session port cak ckn => Sys2Proof.Machine.execInstallCak session port cak ckn s
  | .mkpduReceived port icvOk peerPriority sak => Sys2Proof.Machine.execMkpduReceived port icvOk peerPriority sak s
  | .trngSample pass => Sys2Proof.Machine.execTrngSample pass s
  | .drbgReseed => Sys2Proof.Machine.execDrbgReseed s
  | .mgtFlashErase writer => Sys2Proof.Machine.execMgtFlashErase s writer
  | .mgtFlashProgram len writer => Sys2Proof.Machine.execMgtFlashProgram len s writer
  | .mgtFlashCheck writer => Sys2Proof.Machine.execMgtFlashCheck s writer
  | .flashCommandDone deviceOk => Sys2Proof.Machine.execFlashCommandDone deviceOk s
  | .healthRecordAppend kind payload => Sys2Proof.Machine.execHealthRecordAppend kind payload s
  | .ringPushWord writer core ring word value => Sys2Proof.Machine.execRingPushWord writer core ring word value s
  | .ringPushCommit writer core ring value => Sys2Proof.Machine.execRingPushCommit writer core ring value s
  | .ringPushResume writer core ring => Sys2Proof.Machine.execRingPushResume writer core ring s
  | .hostPushTimeout core ring heldUs => Sys2Proof.Machine.execHostPushTimeout core ring s heldUs
  | .coreRingCtlRun core ring writer => Sys2Proof.Machine.execCoreRingCtlRun core ring s writer
  | .coreRingReset core ring writer => Sys2Proof.Machine.execCoreRingReset core ring s writer
  | .abortRecord core ring index writer => Sys2Proof.Machine.execAbortRecord core ring index s writer
  | .abortRecordAndLater core ring index writer => Sys2Proof.Machine.execAbortRecordAndLater core ring index s writer
  | .abortJob core ring writer => Sys2Proof.Machine.execAbortJob core ring s writer
  | .corePassThrow core pass n writer => Sys2Proof.Machine.execCorePassThrow core pass n s writer
  | .corePlaySync core mask writer => Sys2Proof.Machine.execCorePlaySync core mask s writer
  | .catchGrant core ring => Sys2Proof.Machine.execCatchGrant core ring s
  | .decodeFailure core ring => Sys2Proof.Machine.execDecodeFailure core ring s
  | .macroOpRetire core ring extra => Sys2Proof.Machine.execMacroOpRetire core ring extra s
  | .nop core ring => Sys2Proof.Machine.execNop core ring s
  | .throwOp core ring => Sys2Proof.Machine.execThrowOp core ring s
  | .catchOp core ring => Sys2Proof.Machine.execCatchOp core ring s
  | .stepSet core ring => Sys2Proof.Machine.execStepSet core ring s
  | .phaseMark core ring => Sys2Proof.Machine.execPhaseMark core ring s
  | .stateSave core ring => Sys2Proof.Machine.execStateSave core ring s
  | .stateLoad core ring => Sys2Proof.Machine.execStateLoad core ring s
  | .loadTile core => Sys2Proof.Machine.execLoadTile core s
  | .expand core => Sys2Proof.Machine.execExpand core s
  | .gather core => Sys2Proof.Machine.execGather core s
  | .fPlay core => Sys2Proof.Machine.execFPlay core s
  | .mma core => Sys2Proof.Machine.execMma core s
  | .mmaBlock core => Sys2Proof.Machine.execMmaBlock core s
  | .mmaA7 core => Sys2Proof.Machine.execMmaA7 core s
  | .mmaFp64 core => Sys2Proof.Machine.execMmaFp64 core s
  | .drain core => Sys2Proof.Machine.execDrain core s
  | .cast core => Sys2Proof.Machine.execCast core s
  | .epilogue core => Sys2Proof.Machine.execEpilogue core s
  | .ewise core => Sys2Proof.Machine.execEwise core s
  | .reduceExact core => Sys2Proof.Machine.execReduceExact core s
  | .reduceFast core => Sys2Proof.Machine.execReduceFast core s
  | .norm core => Sys2Proof.Machine.execNorm core s
  | .rngFill core => Sys2Proof.Machine.execRngFill core s
  | .vPlay core => Sys2Proof.Machine.execVPlay core s
  | .storeTile core => Sys2Proof.Machine.execStoreTile core s
  | .fill core => Sys2Proof.Machine.execFill core s
  | .scatterAddExact core => Sys2Proof.Machine.execScatterAddExact core s
  | .scatterAddFast core order => Sys2Proof.Machine.execScatterAddFast core order s
  | .collective core => Sys2Proof.Machine.execCollective core s
  | .update core => Sys2Proof.Machine.execUpdate core s
  | .snapshot core => Sys2Proof.Machine.execSnapshot core s
  | .sPlay core => Sys2Proof.Machine.execSPlay core s
  | .slotDrainWaitEnd core => Sys2Proof.Machine.execSlotDrainWaitEnd core s
  | .windowResolve core slot => Sys2Proof.Machine.execWindowResolve core slot s
  | .checksumFreeze pos => Sys2Proof.Machine.execChecksumFreeze pos s
  | .hazardWatchFreeze pos ring => Sys2Proof.Machine.execHazardWatchFreeze pos ring s
  | .captureCopyDone core => Sys2Proof.Machine.execCaptureCopyDone core s
  | .shadowComparison core slot agree => Sys2Proof.Machine.execShadowComparison core slot agree s
  | .decisionComplete core slot trigger o other d => Sys2Proof.Machine.execDecisionComplete core slot trigger o other d s
  | .substitutionStopped core => Sys2Proof.Machine.execSubstitutionStopped core s
  | .substitutionStopTimeout core => Sys2Proof.Machine.execSubstitutionStopTimeout core s
  | .doublingSwitch pos ranCycles => Sys2Proof.Machine.execDoublingSwitch pos ranCycles s
  | .practiceEntry pos idleUs => Sys2Proof.Machine.execPracticeEntry pos idleUs s
  | .practiceKernelDone pos kernel pass work last => Sys2Proof.Machine.execPracticeKernelDone pos kernel pass work last s
  | .governorWindow units activity temps => Sys2Proof.Machine.execGovernorWindow units activity temps s
  | .governorEvaluation readOk pMeas => Sys2Proof.Machine.execGovernorEvaluation readOk pMeas s
  | .positionOff pos idleMs => Sys2Proof.Machine.execPositionOff pos idleMs s
  | .positionWakeDone pos => Sys2Proof.Machine.execPositionWakeDone pos s
  | .voltageTrim island up down => Sys2Proof.Machine.execVoltageTrim island up down s
  | .droopDetect island fallMv => Sys2Proof.Machine.execDroopDetect island fallMv s
  | .droopRecovery island cycles => Sys2Proof.Machine.execDroopRecovery island cycles s
  | .thermalSample readings => Sys2Proof.Machine.execThermalSample readings s
  | .throttleExit belowMs => Sys2Proof.Machine.execThrottleExit belowMs s
  | .hardLimitExit belowMs => Sys2Proof.Machine.execHardLimitExit belowMs s
  | .scrubLine store unit => Sys2Proof.Machine.execScrubLine store unit s
  | .refresh ctrl rate => Sys2Proof.Machine.execRefresh ctrl rate s
  | .zqCalibration ctrl => Sys2Proof.Machine.execZqCalibration ctrl s
  | .memInjectCorrectable addr writer => Sys2Proof.Machine.execMemInjectCorrectable addr s writer
  | .memInjectUncorrectable addr writer => Sys2Proof.Machine.execMemInjectUncorrectable addr s writer
  | .memInjectPoison addr writer => Sys2Proof.Machine.execMemInjectPoison addr s writer
  | .controlCoreFault core addr size => Sys2Proof.Machine.execControlCoreFault core addr size s
  | .verdictRelease core => Sys2Proof.Machine.execVerdictRelease core s
  | .verdictTimeout core waitedMs => Sys2Proof.Machine.execVerdictTimeout core waitedMs s
  | .updateUnitBlock core => Sys2Proof.Machine.execUpdateUnitBlock core s
  | .updateUnitsDone core => Sys2Proof.Machine.execUpdateUnitsDone core s
  | .updVgroupWrite entry value writer => Sys2Proof.Machine.execUpdVgroupWrite entry value s writer
  | .frameReceived port len fcsOk tagged vid kind ce payload uncorr an pn => Sys2Proof.Machine.execFrameReceived port len fcsOk tagged vid kind ce payload s uncorr an pn
  | .portLinkUp port => Sys2Proof.Machine.execPortLinkUp port s
  | .portLinkDown port fault => Sys2Proof.Machine.execPortLinkDown port s fault
  | .portOffAssert => Sys2Proof.Machine.execPortOffAssert s
  | .portOffDeassert => Sys2Proof.Machine.execPortOffDeassert s
  | .cableEvent connector kind present => Sys2Proof.Machine.execCableEvent connector kind present s
  | .data port ce packet => Sys2Proof.Machine.execData port ce packet s
  | .ack port now packet => Sys2Proof.Machine.execAck port now packet s
  | .msgStatus port packet => Sys2Proof.Machine.execMsgStatus port packet s
  | .openPacket port packet => Sys2Proof.Machine.execOpenPacket port packet s
  | .openAck port packet => Sys2Proof.Machine.execOpenAck port packet s
  | .resetPacket port packet => Sys2Proof.Machine.execResetPacket port packet s
  | .probe port packet => Sys2Proof.Machine.execProbe port packet s
  | .probeReply port now packet => Sys2Proof.Machine.execProbeReply port now packet s
  | .messagePost peer cls tag payload => Sys2Proof.Machine.execMessagePost peer cls tag payload s
  | .packetSend peer now => Sys2Proof.Machine.execPacketSend peer now s
  | .openResend peer sinceUs => Sys2Proof.Machine.execOpenResend peer sinceUs s
  | .rallyGiveup peer sinceMs => Sys2Proof.Machine.execRallyGiveup peer sinceMs s
  | .ackDelayExpiry peer => Sys2Proof.Machine.execAckDelayExpiry peer s
  | .retransmitTimeout peer psn now => Sys2Proof.Machine.execRetransmitTimeout peer psn now s
  | .suspectProbe peer path => Sys2Proof.Machine.execSuspectProbe peer path s
  | .idlePathProbe peer path idleUs => Sys2Proof.Machine.execIdlePathProbe peer path idleUs s
  | .rateAdjust peer path now => Sys2Proof.Machine.execRateAdjust peer path s now
  | .contextMissDone peer => Sys2Proof.Machine.execContextMissDone peer s
  | .trnTakeover value writer => Sys2Proof.Machine.execTrnTakeover value s writer
  | .takeoverAdvertise n => Sys2Proof.Machine.execTakeoverAdvertise n s
  | .collectiveStart eng => Sys2Proof.Machine.execCollectiveStart eng s
  | .groupRecordFetchDone eng group => Sys2Proof.Machine.execGroupRecordFetchDone eng group s
  | .agree eng group src line0 => Sys2Proof.Machine.execAgree eng group src line0 s
  | .go eng group src line0 => Sys2Proof.Machine.execGo eng group src line0 s
  | .nogo eng group src line0 => Sys2Proof.Machine.execNogo eng group src line0 s
  | .abortMessage eng group src line0 => Sys2Proof.Machine.execAbortMessage eng group src line0 s
  | .credit eng group src line0 => Sys2Proof.Machine.execCredit eng group src line0 s
  | .chunkSend eng group seq leg g => Sys2Proof.Machine.execChunkSend eng group seq leg g s
  | .reduceChunkReceived eng group src line0 body poisoned => Sys2Proof.Machine.execReduceChunkReceived eng group src line0 body poisoned s
  | .broadcastChunkReceived eng group src line0 body poisoned => Sys2Proof.Machine.execBroadcastChunkReceived eng group src line0 body poisoned s
  | .collectiveComplete eng group seq => Sys2Proof.Machine.execCollectiveComplete eng group seq s
  | .collectiveProgressTimeout eng group seq idleMs snapshot => Sys2Proof.Machine.execCollectiveProgressTimeout eng group seq idleMs s snapshot
  | .rlyCqDoorbell value writer => Sys2Proof.Machine.execRlyCqDoorbell value s writer
  | .rlyGcacheFlush value writer => Sys2Proof.Machine.execRlyGcacheFlush value s writer
  | .parityRefresh stepS writer => Sys2Proof.Machine.execParityRefresh stepS s writer
  | .parityRebuildSurvivor stepS lost writer => Sys2Proof.Machine.execParityRebuildSurvivor stepS lost s writer
  | .parityRebuildSpare stepS lost writer => Sys2Proof.Machine.execParityRebuildSpare stepS lost s writer
  | .errorLogRecord kind island logical payload => Sys2Proof.Machine.execErrorLogRecord kind island logical payload s
  | .counterSelectWrite owner index counter value writer => Sys2Proof.Machine.execCounterSelectWrite owner index counter value s writer
  | .counterWrite owner index counter value writer => Sys2Proof.Machine.execCounterWrite owner index counter value s writer
  | .cntScdEnable value writer => Sys2Proof.Machine.execCntScdEnable value s writer
  | .scorecardTick => Sys2Proof.Machine.execScorecardTick s
  | .bandwidthWindowEnd n tx rx => Sys2Proof.Machine.execBandwidthWindowEnd n tx rx s
  | .cntBwReadLatch n writer => Sys2Proof.Machine.execCntBwReadLatch n s writer
  | .readVin reading => Sys2Proof.Machine.execReadVin reading s
  | .readIin reading => Sys2Proof.Machine.execReadIin reading s
  | .readPin => Sys2Proof.Machine.execReadPin s
  | .readTemperature1 => Sys2Proof.Machine.execReadTemperature1 s
  | .statusWord => Sys2Proof.Machine.execStatusWord s
  | .pmbusNack code isWrite => Sys2Proof.Machine.execPmbusNack code isWrite s
  | .idcode => Sys2Proof.Machine.execIdcode s
  | .bypass => Sys2Proof.Machine.execBypass s
  | .samplePreload capture => Sys2Proof.Machine.execSamplePreload capture s
  | .extest => Sys2Proof.Machine.execExtest s
  | .clamp => Sys2Proof.Machine.execClamp s
  | .highz => Sys2Proof.Machine.execHighz s
  | .sessionEnd session => Sys2Proof.Machine.execSessionEnd session s
  | .operatingPointReached pos => Sys2Proof.Machine.execOperatingPointReached pos s
  | .practiceLag pos ageS => Sys2Proof.Machine.execPracticeLag pos ageS s
  | .tapReset => Sys2Proof.Machine.execTapReset s

end Sys2Proof.Machine
end

