-- ==== Sys2Proof/Machine/Step.lean ====
section
/-! DEFINITION. One step: the command at the front of the queue takes effect; with an empty queue the block idles. -/

namespace Sys2Proof.Machine

/-- The block idles: every island counter advances by an amount that the manual does not fix (R417; log 4). -/
def M.idle (s : M) : M :=
  { s with
    isl := (List.range 179).foldl
      (fun t i => Tab.put (fun _ => 0) t i (trunc 64 (Tab.read (fun _ => 0) t i + Config.tickCycles s.ticks i))) s.isl
    ticks := s.ticks + 1 }

/-- Take the command at the front of the queue and answer what it does with the queue's rest. -/
def step (s : State) : Host.Outcome State Fault Refusal :=
  match s.pending with
  | [] => .next { s with m := s.m.idle }
  | c :: rest => exec c { s with pending := rest }

/-- s with the command that a word spells put at the front of its queue; s itself where the word spells none. -/
def State.withFetchWord (s : State) (nbits w : Nat) : State :=
  match decodeTableWord nbits w with
  | some c => { s with pending := c :: s.pending }
  | none => s

end Sys2Proof.Machine
end

