-- ==== Sys2Proof/WellFormed.lean ====
section
/-! DEFINITION. Which commands are well formed: every operand is inside the range that its row's rule gives it (a
logical core ID of 8 bits, one of four rings, one of 128 positions, 64 host queues, 64 lanes, 4 Relay engines, a node
ID of 12 bits, an offset inside the register space, a line of 32 bytes, a job entry of 128 bytes, …). -/

namespace Sys2Proof

/-- The operands of the command are in range. -/
def Instr.wf (i : Instr) : Bool :=
  match i with
  | .powerInputApplied _ _ _ => true
  | .railFault railStep => decide (railStep < 7)
  | .inputOutOfRange _ _ => true
  | .presDeassert => true
  | .perstAssert pin => decide (pin < 2)
  | .moduleReset _ _ bistFail => bistFail.all fun i => decide (i < 128)
  | .slotVerify _ _ => true
  | .securitySelfTest test _ => decide (test < 256)
  | .selfTestComplete fn _ => decide (fn < 128)
  | .farStoreTrainingDone ctrl _ => decide (ctrl < 24)
  | .farStoreZeroFillDone set => decide (set < 8)
  | .rollbackAdvance => true
  | .hotReset => true
  | .functionLevelReset => true
  | .cxlLinkDown => true
  | .cxlLinkUp _ _ _ => true
  | .configRequest _ offset value => decide (offset < 4096) && decide (value < 2 ^ 32)
  | .bar0AccessInvalid _ offset _ => decide (offset < 2 ^ 28)
  | .bar2Read offset _ => decide (offset < 2 ^ 34)
  | .bar2Write offset _ _ => decide (offset < 2 ^ 34)
  | .cxlMemRead offset => decide (offset < 2 ^ 40)
  | .cxlMemWrite offset bytes _ => decide (offset < 2 ^ 40) && bytes.length == 64
  | .h2dSnoop address => decide (address < 2 ^ 64)
  | .ideIntegrityFailure => true
  | .registerWrite writer offset size value =>
      decide (writer < 129) && decide (offset < 2 ^ 28) && decide (size < 9) && decide (value < 2 ^ 64)
  | .rcRegisterRead offset _ writer => decide (writer < 129) && decide (offset < 2 ^ 28)
  | .hstQDoorbell q wr writer => decide (writer < 129) && decide (q < 64) && decide (wr < 2 ^ 32)
  | .jobEntryFetch q entry _ => decide (q < 64) && entry.length == 128
  | .markerComplete q x => decide (q < 64) && decide (x < 2 ^ 32)
  | .jobAdmission q x _ => decide (q < 64) && decide (x < 2 ^ 32)
  | .admissionTimeout q x _ => decide (q < 64) && decide (x < 2 ^ 32)
  | .ecallExit core a0 a1 => decide (core < 256) && decide (a0 < 2 ^ 64) && decide (a1 < 2 ^ 64)
  | .jobComplete q x _ => decide (q < 64) && decide (x < 2 ^ 32)
  | .jobRunTimeout q x _ => decide (q < 64) && decide (x < 2 ^ 32)
  | .hstQAbort q index writer => decide (writer < 129) && decide (q < 64) && decide (index < 2 ^ 32)
  | .hstQReset q value writer => decide (writer < 129) && decide (q < 64) && decide (value < 2 ^ 32)
  | .interruptHoldoffExpiry q => decide (q < 64)
  | .getEventRecords _ => true
  | .clearEventRecords _ => true
  | .getEventInterruptPolicy _ => true
  | .setEventInterruptPolicy _ => true
  | .getFwInfo _ => true
  | .getSupportedLogs _ => true
  | .getLog _ => true
  | .getReady _ => true
  | .getSettings _ => true
  | .readLog _ => true
  | .getHealth _ => true
  | .zeroise _ _ => true
  | .mailboxUnsupported opcode => decide (opcode < 2 ^ 16)
  | .zeroisePinLow _ => true
  | .permanentZeroisation _ => true
  | .getCertificate _ slot => decide (slot < 8)
  | .challenge _ slot nonce => decide (slot < 8) && decide (nonce < 2 ^ 256)
  | .getMeasurements _ index => decide (index < 14)
  | .keyExchange _ _ => true
  | .signPq session => decide (session < 4)
  | .keyProg session stream _ => decide (session < 4) && decide (stream < 2)
  | .kSetGo session stream => decide (session < 4) && decide (stream < 2)
  | .kSetStop session stream => decide (session < 4) && decide (stream < 2)
  | .installCak session port _ _ => decide (session < 4) && decide (port < 64)
  | .mkpduReceived port _ _ _ => decide (port < 64)
  | .trngSample _ => true
  | .drbgReseed => true
  | .mgtFlashErase writer => decide (writer < 129)
  | .mgtFlashProgram len writer => decide (writer < 129) && decide (len < 2 ^ 32)
  | .mgtFlashCheck writer => decide (writer < 129)
  | .flashCommandDone _ => true
  | .healthRecordAppend kind _ => decide (kind < 256)
  | .ringPushWord writer core ring word value =>
      decide (writer < 129) && decide (core < 256) && decide (ring < 4) && decide (word < 3) && decide (value < 2 ^ 64)
  | .ringPushCommit writer core ring value =>
      decide (writer < 129) && decide (core < 256) && decide (ring < 4) && decide (value < 2 ^ 64)
  | .ringPushResume writer core ring => decide (writer < 129) && decide (core < 256) && decide (ring < 4)
  | .hostPushTimeout core ring _ => decide (core < 256) && decide (ring < 4)
  | .coreRingCtlRun core ring writer => decide (writer < 129) && decide (core < 256) && decide (ring < 4)
  | .coreRingReset core ring writer => decide (writer < 129) && decide (core < 256) && decide (ring < 4)
  | .abortRecord core ring index writer => decide (writer < 129) && decide (core < 256) && decide (ring < 4) && decide (index < 2 ^ 32)
  | .abortRecordAndLater core ring index writer => decide (writer < 129) && decide (core < 256) && decide (ring < 4) && decide (index < 2 ^ 32)
  | .abortJob core ring writer => decide (writer < 129) && decide (core < 256) && decide (ring < 4)
  | .corePassThrow core pass n writer => decide (writer < 129) && decide (core < 256) && decide (pass < 256) && decide (n < 2 ^ 16)
  | .corePlaySync core mask writer => decide (writer < 129) && decide (core < 256) && decide (mask < 16)
  | .catchGrant core ring => decide (core < 256) && decide (ring < 4)
  | .decodeFailure core ring => decide (core < 256) && decide (ring < 4)
  | .macroOpRetire core ring _ => decide (core < 256) && decide (ring < 4)
  | .nop core ring => decide (core < 256) && decide (ring < 4)
  | .throwOp core ring => decide (core < 256) && decide (ring < 4)
  | .catchOp core ring => decide (core < 256) && decide (ring < 4)
  | .stepSet core ring => decide (core < 256) && decide (ring < 4)
  | .phaseMark core ring => decide (core < 256) && decide (ring < 4)
  | .stateSave core ring => decide (core < 256) && decide (ring < 4)
  | .stateLoad core ring => decide (core < 256) && decide (ring < 4)
  | .loadTile core => decide (core < 256)
  | .expand core => decide (core < 256)
  | .gather core => decide (core < 256)
  | .fPlay core => decide (core < 256)
  | .mma core => decide (core < 256)
  | .mmaBlock core => decide (core < 256)
  | .mmaA7 core => decide (core < 256)
  | .mmaFp64 core => decide (core < 256)
  | .drain core => decide (core < 256)
  | .cast core => decide (core < 256)
  | .epilogue core => decide (core < 256)
  | .ewise core => decide (core < 256)
  | .reduceExact core => decide (core < 256)
  | .reduceFast core => decide (core < 256)
  | .norm core => decide (core < 256)
  | .rngFill core => decide (core < 256)
  | .vPlay core => decide (core < 256)
  | .storeTile core => decide (core < 256)
  | .fill core => decide (core < 256)
  | .scatterAddExact core => decide (core < 256)
  | .scatterAddFast core _ => decide (core < 256)
  | .collective core => decide (core < 256)
  | .update core => decide (core < 256)
  | .snapshot core => decide (core < 256)
  | .sPlay core => decide (core < 256)
  | .slotDrainWaitEnd core => decide (core < 256)
  | .windowResolve core slot => decide (core < 256) && decide (slot < 2)
  | .checksumFreeze pos => decide (pos < 128)
  | .hazardWatchFreeze pos ring => decide (pos < 128) && decide (ring < 4)
  | .captureCopyDone core => decide (core < 256)
  | .shadowComparison core slot _ => decide (core < 256) && decide (slot < 2)
  | .decisionComplete core slot trigger _ _ _ => decide (core < 256) && decide (slot < 2) && decide (trigger < 3)
  | .substitutionStopped core => decide (core < 256)
  | .substitutionStopTimeout core => decide (core < 256)
  | .doublingSwitch pos _ => decide (pos < 128)
  | .practiceEntry pos _ => decide (pos < 128)
  | .practiceKernelDone pos kernel _ _ _ => decide (pos < 128) && decide (kernel < 9)
  | .governorWindow units activity _ => (units.all fun (i, k, _) => decide (i < 179) && decide (k < 16)) &&
    activity.all fun (i, k, _) => decide (i < 179) && decide (16 ≤ k) && decide (k < 20)
  | .governorEvaluation _ _ => true
  | .positionOff pos _ => decide (pos < 128)
  | .positionWakeDone pos => decide (pos < 128)
  | .voltageTrim island _ _ => decide (island < 179)
  | .droopDetect island _ => decide (island < 179)
  | .droopRecovery island _ => decide (island < 179)
  | .thermalSample readings => readings.length == 36
  | .throttleExit _ => true
  | .hardLimitExit _ => true
  | .scrubLine store unit => decide (store < 2) && decide (unit < 128)
  | .refresh ctrl rate => decide (ctrl < 24) && decide (rate < 4)
  | .zqCalibration ctrl => decide (ctrl < 24)
  | .memInjectCorrectable addr writer => decide (writer < 129) && decide (addr < 2 ^ 42)
  | .memInjectUncorrectable addr writer => decide (writer < 129) && decide (addr < 2 ^ 42)
  | .memInjectPoison addr writer => decide (writer < 129) && decide (addr < 2 ^ 42)
  | .controlCoreFault core addr _ => decide (core < 256) && decide (addr < 2 ^ 64)
  | .verdictRelease core => decide (core < 256)
  | .verdictTimeout core _ => decide (core < 256)
  | .updateUnitBlock core => decide (core < 256)
  | .updateUnitsDone core => decide (core < 256)
  | .updVgroupWrite entry value writer => decide (writer < 129) && decide (entry < 64) && decide (value < 2 ^ 32)
  | .frameReceived port _ _ _ vid _ _ _ _ an pn =>
      decide (port < 64) && decide (vid < 4096) && decide (an < 4) && decide (pn < 2 ^ 64)
  | .portLinkUp port => decide (port < 64)
  | .portLinkDown port fault => decide (port < 64) && decide (fault < 3)
  | .portOffAssert => true
  | .portOffDeassert => true
  | .cableEvent connector kind _ => decide (1 ≤ connector) && decide (connector < 9) && decide (kind < 2)
  | .data port _ _ => decide (port < 64)
  | .ack port _ _ => decide (port < 64)
  | .msgStatus port _ => decide (port < 64)
  | .openPacket port _ => decide (port < 64)
  | .openAck port _ => decide (port < 64)
  | .resetPacket port _ => decide (port < 64)
  | .probe port _ => decide (port < 64)
  | .probeReply port _ _ => decide (port < 64)
  | .messagePost peer cls tag _ =>
      decide (peer < 4096) && decide (1 ≤ cls) && decide (cls ≤ 2) && decide (tag < 2 ^ 32)
  | .packetSend peer _ => decide (peer < 4096)
  | .openResend peer _ => decide (peer < 4096)
  | .rallyGiveup peer _ => decide (peer < 4096)
  | .ackDelayExpiry peer => decide (peer < 4096)
  | .retransmitTimeout peer psn _ => decide (peer < 4096) && decide (psn < 2 ^ 32)
  | .suspectProbe peer path => decide (peer < 4096) && decide (path < 64)
  | .idlePathProbe peer path _ => decide (peer < 4096) && decide (path < 64)
  | .rateAdjust peer path _ => decide (peer < 4096) && decide (path < 64)
  | .contextMissDone peer => decide (peer < 4096)
  | .trnTakeover value writer => decide (writer < 129) && decide (value < 2 ^ 32)
  | .takeoverAdvertise n => decide (n < 3)
  | .collectiveStart eng => decide (eng < 4)
  | .groupRecordFetchDone eng group => decide (eng < 4) && decide (group < 2 ^ 16)
  | .agree eng group src line0 =>
      decide (eng < 4) && decide (group < 2 ^ 16) && decide (src < 4096) && line0.length == 32
  | .go eng group src line0 =>
      decide (eng < 4) && decide (group < 2 ^ 16) && decide (src < 4096) && line0.length == 32
  | .nogo eng group src line0 =>
      decide (eng < 4) && decide (group < 2 ^ 16) && decide (src < 4096) && line0.length == 32
  | .abortMessage eng group src line0 =>
      decide (eng < 4) && decide (group < 2 ^ 16) && decide (src < 4096) && line0.length == 32
  | .credit eng group src line0 =>
      decide (eng < 4) && decide (group < 2 ^ 16) && decide (src < 4096) && line0.length == 32
  | .chunkSend eng group seq leg g =>
      decide (eng < 4) && decide (group < 2 ^ 16) && decide (seq < 2 ^ 32) && decide (leg < 2) && decide (g < 2 ^ 32)
  | .reduceChunkReceived eng group src line0 _ _ =>
      decide (eng < 4) && decide (group < 2 ^ 16) && decide (src < 4096) && line0.length == 32
  | .broadcastChunkReceived eng group src line0 _ _ =>
      decide (eng < 4) && decide (group < 2 ^ 16) && decide (src < 4096) && line0.length == 32
  | .collectiveComplete eng group seq => decide (eng < 4) && decide (group < 2 ^ 16) && decide (seq < 2 ^ 32)
  | .collectiveProgressTimeout eng group seq _ snap => decide (eng < 4) && decide (group < 2 ^ 16) && decide (seq < 2 ^ 32) &&
    snap.all fun (core, x) => decide (core < 256) && decide (x < 2 ^ 32)
  | .rlyCqDoorbell value writer => decide (writer < 129) && decide (value < 2 ^ 64)
  | .rlyGcacheFlush value writer => decide (writer < 129) && decide (value < 2 ^ 32)
  | .parityRefresh stepS writer => decide (writer < 129) && decide (stepS < 2 ^ 40)
  | .parityRebuildSurvivor stepS lost writer => decide (writer < 129) && decide (stepS < 2 ^ 40) && decide (lost < 4096)
  | .parityRebuildSpare stepS lost writer => decide (writer < 129) && decide (stepS < 2 ^ 40) && decide (lost < 4096)
  | .errorLogRecord kind _ _ _ => decide (kind < 2 ^ 16)
  | .counterSelectWrite owner index counter value writer =>
      decide (writer < 129) && decide (owner < 3) && decide (index < 128) && decide (counter < 64) && decide (value < 2 ^ 32)
  | .counterWrite owner index counter value writer =>
      decide (writer < 129) && decide (owner < 3) && decide (index < 128) && decide (counter < 64) && decide (value < 2 ^ 64)
  | .cntScdEnable value writer => decide (writer < 129) && decide (value < 2 ^ 32)
  | .scorecardTick => true
  | .bandwidthWindowEnd n _ _ => decide (n < 16)
  | .cntBwReadLatch n writer => decide (writer < 129) && decide (n < 16)
  | .readVin _ => true
  | .readIin _ => true
  | .readPin => true
  | .readTemperature1 => true
  | .statusWord => true
  | .pmbusNack code _ => decide (code < 256)
  | .idcode => true
  | .bypass => true
  | .samplePreload _ => true
  | .extest => true
  | .clamp => true
  | .highz => true
  | .sessionEnd session => decide (session < 4)
  | .operatingPointReached pos => decide (pos < 128)
  | .practiceLag pos _ => decide (pos < 128)
  | .tapReset => true

end Sys2Proof
end

