-- ==== Sys2Proof/Safety.lean ====
section
/-! DEFINITION. What a healthy state of the model is, and the terms in which the statements about its commands speak. -/

namespace Sys2Proof.Machine

/-- Data memory is in canonical form: addresses rise strictly, and no entry equals what an unlisted one reads as. -/
def Memory.wf (m : List Host.Cell) : Bool := Tab.wf memZero m

/-- Every numbered store is in canonical form: memory and its check symbols, registers, cores, core positions, host job
queues, Rallies, island counters, held pushes and scrubbers. -/
def M.wf (s : M) : Bool :=
  Memory.wf s.mem && Tab.wf chkZero s.chk && Tab.wf Reg.dflt s.regs && Tab.wf Core.init s.cores && Tab.wf PosX.init s.pos
    && Tab.wf HostQ.init s.hostQ && Tab.wf Rally.init s.trn.rallies && Tab.wf (fun _ => 0) s.isl
    && Tab.wf (fun _ => 0) s.heldBy && Tab.wf (fun _ => 0) s.scrubAt && Tab.wf (fun _ => 0) s.scrubbed

/-! ## Terms of the statements -/

/-- The module with something sent to the host, or held for it while the link is down (Table 12-7). -/
def M.toHost (s : M) (o : Output) : M :=
  if bits (s.reg Reg.hstStatus) 31 30 = 0 then { s with cxl := { s.cxl with held := s.cxl.held ++ [o] } }
  else { s with outs := o :: s.outs }

/-- The module with something sent out. -/
def M.out (s : M) (o : Output) : M := { s with outs := o :: s.outs }

/-- The module with a mailbox command answered: the return code, the payload, and vector 64 (R317). -/
def M.mailboxReply (s : M) (code : Nat) (payload : List Byte) : M := (s.out (.mailbox code payload)).out (.msix 64)

/-- A writer's access of the register space goes on: no held push of its own keeps it waiting, and one of the host is refused neither
for want of IDE nor, outside the management block, before bit 126 (R124, R315, R319, R378). -/
def M.admits (s : M) (writer : Nat) (mgmt : Bool) : Prop :=
  s.stalled writer = false ∧ (writer = 0 → s.ideOk = true ∧ (mgmt = true ∨ bit (s.reg Reg.mgtReadyMap) 126 = true))

/-- The module with a control core's access of the register space counted (Table 17-3). -/
def M.accessed (s : M) (writer : Nat) : M := (ctlAccess writer s).2

/-- The module after one refused access of the host (R319). -/
def M.refusedOnce (s : M) : M := s.setReg Reg.hstEarlyAccess (trunc 64 (s.reg Reg.hstEarlyAccess + 1))

/-- The module with one of the host's accesses waiting behind its held push (R315). -/
def M.hostHeld (s : M) (c : Instr) : M := { s with cxl := { s.cxl with waiting := s.cxl.waiting ++ [c] } }

/-- One event more has been raised, of this cause; the log that holds it is left open (R316, R317). -/
def M.raises (s t : M) (cause : Nat) : Prop := ∃ log, t.cxl.events = s.cxl.events ++ [(log, cause)]

/-- The module at the end of a window: the cap as it is set, and what each island has counted, of the 20 kinds of R323. -/
def M.counted (s : M) (counts : List (Nat × Nat × Nat)) : M :=
  (counts.filter fun (i, k, _) => decide (i < 179) && decide (k < 20)).foldl (fun t (i, k, n) => (chargeUnits i k n t).2)
    { s with gov := { s.gov with cap := s.reg Reg.pwrCapW } }

/-- The commands that write a register of the register space, with who writes, and whether the register lies in the management block. -/
def writesReg : Instr → Option (Nat × Bool)
  | .registerWrite w o n _ => if accessOk o n then some (w, decide (o < 0x100000)) else none
  | .mgtFlashErase w | .mgtFlashProgram _ w | .mgtFlashCheck w => some (w, true)
  | .hstQDoorbell _ _ w | .hstQAbort _ _ w | .hstQReset _ _ w | .ringPushWord w .. | .ringPushCommit w .. | .coreRingCtlRun _ _ w
  | .coreRingReset _ _ w | .abortRecord _ _ _ w | .abortRecordAndLater _ _ _ w | .abortJob _ _ w | .corePassThrow _ _ _ w | .corePlaySync _ _ w
  | .memInjectCorrectable _ w | .memInjectUncorrectable _ w | .memInjectPoison _ w | .updVgroupWrite _ _ w | .trnTakeover _ w
  | .rlyCqDoorbell _ w | .rlyGcacheFlush _ w | .parityRefresh _ w | .parityRebuildSurvivor _ _ w | .parityRebuildSpare _ _ w
  | .counterSelectWrite _ _ _ _ w | .counterWrite _ _ _ _ w | .cntScdEnable _ w => some (w, false)
  | _ => none

/-- The commands that read one. -/
def readsReg : Instr → Option (Nat × Bool)
  | .rcRegisterRead o n w => if accessOk o n then some (w, decide (o < 0x100000)) else none
  | .cntBwReadLatch _ w => some (w, false)
  | _ => none

/-- The accesses that wait behind a held push of the host (R315). -/
def mayWait (c : Instr) : Bool :=
  (writesReg c).isSome || (readsReg c).isSome || match c with
    | .registerWrite .. | .rcRegisterRead .. | .bar0AccessInvalid .. | .bar2Read .. | .bar2Write .. => true
    | _ => false

/-- The commands of the mailbox (R317). -/
def toMailbox : Instr → Bool
  | .getEventRecords _ | .clearEventRecords _ | .getEventInterruptPolicy _ | .setEventInterruptPolicy _ | .getFwInfo _
  | .getSupportedLogs _ | .getLog _ | .getReady _ | .getSettings _ | .readLog _ | .getHealth _ | .zeroise false _ => true
  | .mailboxUnsupported op => !mailboxOpcodes.contains op
  | _ => false

/-- The volatile secrets are gone: sessions, keys of ports and streams, key pairs, draws (R402). -/
def M.secretsCleared (s : M) : Prop :=
  s.sec.sessions = [] ∧ s.sec.ports = [] ∧ s.sec.ide = [] ∧ s.sec.aliasKeys = [] ∧ s.sec.draws = 0 ∧ s.reg Reg.secSessions = 0

/-- Registers below the per-core blocks whose writes a rule of their own governs: flash commands, job queues, the cap, the
preferred points, shadows, parity, injection, verdict groups, takeover, the Relay's doorbells, scorecards, and the selects
of counters. -/
def ownRule (key : Nat) : Bool :=
  [Reg.mgtFlashCmd, Reg.pwrCapW, Reg.chkShadow, Reg.chkParityGo, Reg.memInject, Reg.trnTakeover, Reg.rlyCqDoorbellReg,
    Reg.rlyGcacheFlushReg].contains key || (decide (0x101000 ≤ key) && decide (key < 0x102000))
    || (decide (0x210100 ≤ key) && decide (key < 0x210120)) || (decide (0x240100 ≤ key) && decide (key < 0x240200))
    || (decide (0x300000 ≤ key) && decide (key < 0x310000))
    || (decide (0x310000 ≤ key) && decide (key < 0x330000) && decide (0x200 ≤ key % 0x1000) && decide (key % 0x1000 < 0x300))

/-- The module with what ring e of core n holds beside its registers changed. -/
def M.withRing (s : M) (n e : Nat) (f : Ring → Ring) : M := s.setCore n ((s.core n).setRing e (f (s.ring n e)))

/-- The module with a writer's assembly on ring e of core n set. -/
def M.withAsm (s : M) (n e writer : Nat) (a : PushAsm) : M :=
  s.withRing n e fun g => { g with asm := Tab.put (fun _ => PushAsm.init) g.asm writer a }

/-- Ring e of core n is halted in error at record x (R138): RUN is 0, and status and record are shown. -/
def M.haltedAt (s : M) (n e x status : Nat) : Prop :=
  s.ringRun n e = false ∧ s.reg (Reg.coreRingHaltIndex n e) = x ∧ bits (s.reg (Reg.coreRingState n e)) 15 0 = status % 2 ^ 16 ∧
  bit (s.reg (Reg.coreRingState n e)) 28 = true

/-- A core with a machine-mode interrupt raised in its control core (R122): 0 ring halt, 1 substitution, 2 doubling switch. -/
def Core.interrupted (c : Core) (cause : Nat) : Core := { c with ctl := { c.ctl with irq := c.ctl.irq ++ [cause] } }

/-- The record that an opcode's row runs on ring e of core n: the first in flight that has not begun, with its place. -/
def M.waits (s : M) (n e op : Nat) : Option (Nat × InFlight) :=
  let l := (s.ring n e).infl
  match l.findIdx? (fun f => !f.started && f.rcd.op == op) with
  | none => none
  | some i => (l[i]?).map fun f => (i, f)

/-- The module with entry i in flight on ring e of core n replaced. -/
def M.withEntry (s : M) (n e i : Nat) (f : InFlight) : M := s.withRing n e fun g => { g with infl := g.infl.set i f }

/-- The terms that an exact matrix macro-op adds to element x of its slot (R57, R155): the products, or the sums of their
blocks and what is special among them, and the input tile. -/
def M.slotTerms (s : M) (f : InFlight) (sl : Slot) (x : Nat) : List Val :=
  let (a, b, r, j) := (f.td 0, f.td 1, x / sl.n, x % sl.n)
  let ts := mmaTerms ((List.range a.cols).map fun k => s.elem a false r k) ((List.range a.cols).map fun k => s.elem b true k j) 0
  (if f.rcd.op = 0x31 then blockTerms ts (ceilDiv ts.length 32) else plainTerms ts).map (·.1)
    ++ (if bit f.w2 22 then [s.elem (f.td 2) false r j] else [])

/-- The exact sum that element x of a slot holds at the class offset: its window, and its far bands if it has any (R63). -/
def M.slotSum (s : M) (sl : Slot) (x : Nat) : Int :=
  let e := sl.elems.getD x {}
  e.win * 2 ^ (64 * sl.w) + (if e.touched then s.farBands sl x else 0)

/-- The sum that an accumulation has reached (R63, R68). -/
def Accum.value (w : Nat) (a : Accum) : Int := a.elem.win * 2 ^ (64 * w) + a.far

/-- The commands that may blow a fuse (R391, R403). -/
def blowsFuses : Instr → Bool
  | .permanentZeroisation .. | .rollbackAdvance => true
  | _ => false

/-- The commands that may change the configuration flash: the end of a flash command, what appends to the health record, and
bring-up (R384, R385). -/
def writesFlash : Instr → Bool
  | .flashCommandDone .. | .healthRecordAppend .. | .decisionComplete .. | .practiceKernelDone .. | .thermalSample ..
  | .voltageTrim .. | .moduleReset .. => true
  | _ => false

/-- The security controller without the packet numbers of its SAKs, which every protected frame moves (R251). -/
def Sec.still (s : Sec) : Sec :=
  { s with ports := s.ports.map fun p => { p with saks := p.saks.map fun k => { k with next := 1, low := 1 } } }

/-- The commands that may change the security controller, packet numbers aside: bring-up, its services, its random source, zeroisation,
and the end of a held push, behind which a ZEROISE may wait. -/
def reachesSecrets : Instr → Bool
  | .moduleReset .. | .slotVerify .. | .securitySelfTest .. | .trngSample .. | .drbgReseed | .challenge .. | .keyExchange ..
  | .sessionEnd .. | .keyProg .. | .kSetGo .. | .kSetStop .. | .ideIntegrityFailure | .installCak .. | .mkpduReceived ..
  | .zeroise .. | .zeroisePinLow .. | .permanentZeroisation .. | .ringPushResume .. | .hostPushTimeout .. => true
  | _ => false

/-- Every one of the lines decodes without error. -/
def M.clean (s : M) (ls : List Nat) : Prop := ∀ l ∈ ls, rsDecode (s.codeword l) = .ok

/-- The slots that are partly written once the flash command under way is broken off (R385). -/
def M.tornBy (s : M) : List Nat :=
  if bits (s.reg Reg.mgtFlashStatus) 31 30 = 1 ∧ s.boot.cmd ≠ 3 then
    insertNew s.boot.torn (bits (s.reg Reg.mgtFlashStatus) 25 24)
  else s.boot.torn

/-- The module with every regulator off. -/
def M.cut (s : M) : M :=
  { s with board := { s.board with powered := false, live := false }, boot := { s.boot with torn := s.tornBy } }

/-- The command is carried out: it answers a next state with the same queue, whose module has the property P. -/
def State.ends (s : State) (o : Out) (P : M → Prop) : Prop := ∃ m, o = .next { s with m := m } ∧ P m

/-- The outcome in which the module becomes m and the queue stays. -/
abbrev State.becomes (s : State) (m : M) : Out := .next { s with m := m }

/-- The error log has one new record, of this kind and from this island, and CHK_LOG_WR has gone up by one (R362). -/
def M.logs (s t : M) (kind island : Nat) : Prop :=
  t.reg Reg.chkLogWr = trunc 32 (s.reg Reg.chkLogWr + 1) ∧
  ∃ r, t.logBuf.getLast? = some r ∧ r.kind = kind ∧ r.island = island ∧ r.index = s.reg Reg.chkLogWr

/-- The two machines differ in registers alone, and of these in none outside the list. -/
def M.sameBut (s t : M) (offs : List Nat) : Prop :=
  { t with regs := s.regs } = s ∧ ∀ o, o ∉ offs → t.reg o = s.reg o

/-- Both stores are the same, with their check symbols: every byte reads as before. -/
def M.sameStores (s t : M) : Prop := t.mem = s.mem ∧ t.chk = s.chk

end Sys2Proof.Machine
end

