-- ==== Sys2Proof/Certificates/Slice0/Obligations.lean ====
section
/-! DEFINITION. The statements for the provers. A statement about a command says what the state holds after it, and that
nothing else changes: where the next state is given as an update of the old one, every field that the update does not
name is as before, the queue of waiting commands among them. -/

open Sys2Proof Sys2Proof.Machine

/-! ## The machine as a whole -/

/-- A step takes the command at the front of the queue and answers what it does with the queue's rest; and no command touches
the queue, while every command answers a next state. -/
def Obligations.StepRunsFrontCommand : Prop :=
  (∀ (c : Instr) (s : State),
     step { s with pending := c :: s.pending } = exec c s) ∧
  (∀ (c : Instr) (s : State),
     ∃ m, exec c s = .next { s with m := m })

/-- The reset state holds its stores and registers in canonical form. -/
def Obligations.ResetCanonical : Prop := State.reset.m.wf = true

/-- Every step keeps the stores and the registers in canonical form. -/
def Obligations.StepKeepsCanonicalForm : Prop := ∀ s t : State, s.m.wf = true → step s = .next t → t.m.wf = true

/-- R391, R401, R403, R384, R385: no other command blows a fuse, changes the configuration flash, or reaches the keys, the
sessions and the random source of the security controller; the packet numbers of MACsec, which every protected frame moves (R251), are
left out of what is compared. -/
def Obligations.SecretsFusesAndFlashAreIsolated : Prop := ∀ (c : Instr) (s t : State), exec c s = .next t →
  (t.m.fuses ≠ s.m.fuses → blowsFuses c = true) ∧ (t.m.boot.flash ≠ s.m.boot.flash → writesFlash c = true) ∧
  (t.m.sec.still ≠ s.m.sec.still → reachesSecrets c = true)

/-! ## Module hardware (chapter 19) -/

/-- R428, R429, R431: what the input controller and the rails do. R370, R435: PERST# on either connector holds every island in
reset. -/
def Obligations.RailsAndReset : Prop :=
  (∀ s : State,
     (∀ mv held, 48000 ≤ mv → mv ≤ 56000 → 100 ≤ held → s.m.board.tripped = false →
       exec (.powerInputApplied mv held true) s
         = .next { s with m := { s.m with board := { s.m.board with presLow := true, powered := true } } }) ∧
     (∀ k, 2 ≤ k → k ≤ 5 → s.m.board.powered = true → s.m.board.live = false →
       exec (.railFault k) s = .next { s with m := { s.m.cut with board := { s.m.cut.board with tripped := true } } }) ∧
     (∀ mv held, 58000 < mv → 100 < held → exec (.inputOutOfRange mv held) s = .next { s with m := s.m.cut }) ∧
     (∀ mv held, mv < 46000 → 100 < held → exec (.inputOutOfRange mv held) s
         = .next { s with m := { s.m.cut with board := { s.m.cut.board with tripped := false } } }) ∧
     (∀ mv held, (46000 ≤ mv ∧ mv ≤ 58000) ∨ held ≤ 100 → exec (.inputOutOfRange mv held) s = .next s) ∧
     exec .presDeassert s = .next { s with m := { s.m.cut with board := { s.m.cut.board with presLow := false } } }) ∧
  (∀ s : State,
     exec (.perstAssert 0) s = .next { s with m := { s.m with
       board := { s.m.board with perst9 := true, live := false }, boot := { s.m.boot with torn := s.m.tornBy } } } ∧
     exec (.perstAssert 1) s = .next { s with m := { s.m with
       board := { s.m.board with perst10 := true, live := false }, boot := { s.m.boot with torn := s.m.tornBy } } })

/-- R434, R438: the instructions of the test port, and what each shifts out. R437: the replies of the PMBus target from ready-map
bit 126 on, and its NACKs; READ_PIN reports the power measured, in PWR_POWER [31:16], and READ_TEMPERATURE_1 the hottest
junction, in PWR_TEMP [15:0]; the bits of STATUS_WORD are left open. R433, R436: PORT_OFF# going low is noted and a cable's
presence is kept and reported; when PORT_OFF# returns high, every port whose link was up trains again, which AN_EN selects (log 104). A cable's interrupt is
recorded, under a kind and with a payload that the manual leaves open. -/
def Obligations.SidebandPinsAndPorts : Prop :=
  (∀ s : State, s.m.board.powered = true →
     let tap := fun (k v : Nat) => Host.Outcome.next (φ := Fault) (ρ := Refusal)
       { s with m := ({ s.m with board := { s.m.board with tap := k } } : M).out (.tap v) }
     exec .idcode s = tap 0 0x1A9017AB ∧
     exec .bypass s = tap 1 0 ∧
     (∀ v, exec (.samplePreload v) s = .next { s with m :=
       ({ s.m with board := { s.m.board with tap := 2, boundary := v } } : M).out (.tap v) }) ∧
     (s.m.board.perst9 = true ∨ s.m.board.perst10 = true →
       exec .extest s = tap 3 s.m.board.boundary ∧ exec .clamp s = tap 4 0 ∧ exec .highz s = tap 5 0) ∧
     (s.m.board.perst9 = false → s.m.board.perst10 = false →
       exec .extest s = tap 1 0 ∧ exec .clamp s = tap 1 0 ∧ exec .highz s = tap 1 0) ∧
     exec .tapReset s = .next { s with m := { s.m with board := { s.m.board with tap := 0 } } }) ∧
  (∀ s : State, s.m.board.live = true →
     let reply := fun (v : Option Nat) => Host.Outcome.next (φ := Fault) (ρ := Refusal) { s with m := s.m.out (.pmbus v) }
     (s.m.imageReady = true →
       (∀ v, exec (.readVin v) s = reply (some v) ∧ exec (.readIin v) s = reply (some v)) ∧
       exec .readPin s = reply (some (bits (s.m.reg Reg.pwrPower) 31 16)) ∧
       exec .readTemperature1 s = reply (some (bits (s.m.reg Reg.pwrTemp) 15 0)) ∧
       ∃ v, v < 2 ^ 16 ∧ exec .statusWord s
         = .next { s with m := ({ s.m with free := s.m.free + 1 } : M).out (.pmbus (some v)) }) ∧
     (s.m.imageReady = false → (∀ v, exec (.readVin v) s = reply none ∧ exec (.readIin v) s = reply none) ∧
       exec .readPin s = reply none ∧ exec .readTemperature1 s = reply none ∧ exec .statusWord s = reply none) ∧
     (∀ code, exec (.pmbusNack code true) s = reply none) ∧
     (∀ code w, code ∉ [0x79, 0x88, 0x89, 0x8D, 0x97] → exec (.pmbusNack code w) s = reply none)) ∧
  (∀ s : State,
     exec .portOffAssert s = .next { s with m := { s.m with board := { s.m.board with portOff := true } } } ∧
     (∃ t, exec .portOffDeassert s = .next t ∧ t.pending = s.pending ∧ t.m.board = { s.m.board with portOff := false } ∧
       s.m.sameStores t.m ∧ t.m.cores = s.m.cores ∧ t.m.boot = s.m.boot ∧
       (s.m.board.live = true → s.m.board.portOff = true → s.m.wf = true → ∀ p, p < s.m.nPorts →
         s.m.linkUp p = true → bits (t.m.reg (Reg.ethPortStatus p)) 31 30 = s.m.trains p)) ∧
     (∀ c, s.m.board.live = true → exec (.cableEvent c 0 true) s = .next { s with m :=
       ({ s.m with board := { s.m.board with cables := insertNew s.m.board.cables c } } : M).out (.pldm c 0 true) }) ∧
     (∀ c, s.m.board.live = true → exec (.cableEvent c 0 false) s = .next { s with m :=
       ({ s.m with board := { s.m.board with cables := s.m.board.cables.filter (· != c) } } : M).out (.pldm c 0 false) }) ∧
     (∀ c p, s.m.board.live = true → s.m.wf = true → ∃ t, exec (.cableEvent c 1 p) s = .next t ∧ t.pending = s.pending ∧
       t.m.reg Reg.chkLogWr = trunc 32 (s.m.reg Reg.chkLogWr + 1) ∧ t.m.board = s.m.board ∧ s.m.sameStores t.m ∧
       ∃ r, t.m.logBuf.getLast? = some r ∧ r.index = s.m.reg Reg.chkLogWr))

/-! ## Power and clocks (chapter 13) -/

/-- R331, R332: filling equal shares gives every island what it wants or leaves less than a share; a grant never exceeds the
want, and all grants together never exceed the budget. -/
def Obligations.EqualSharesStayWithinBudget : Prop := ∀ (fuel b : Nat) (l : List (Nat × Nat × Nat)),
  let r := fillShares fuel b l
  r.map (fun x => (x.1, x.2.1 + x.2.2)) = l.map (fun x => (x.1, x.2.1 + x.2.2)) ∧
  (r.map (·.2.2)).sum ≤ (l.map (·.2.2)).sum + b ∧
  (l.length ≤ fuel → (∀ x ∈ r, x.2.1 = 0) ∨
    (l.map (·.2.2)).sum + b < (r.map (·.2.2)).sum + (r.filter (·.2.1 != 0)).length)

/-- R323, R330, R331: a window adds what its islands have counted, estimates the power from that and from the leakage at their
temperatures (the reading of the leakage table is the model's choice, log 83), and grants to the busy islands what equal shares of the
budget give; no other balance changes, nor does a store. Before ready-map bit 126 the budget is that of 500 W. -/
def Obligations.GovernorWindowGrants : Prop := ∀ (s : State) (units activity : List (Nat × Nat × Nat)) (temps : List Nat),
  s.m.board.live = true → s.m.wf = true →
  let counts := units ++ activity
  let b := s.m.counted counts
  let st := s.m.reg Reg.pwrStatus
  let est := b.estimate temps
  let pgov := if bit st 2 && !bit st 4 then max est (bits (s.m.reg Reg.pwrPower) 31 16) else est
  let h := if s.m.imageReady then min 4000000 (s.m.gov.h + 2 * b.capEff - 2 * pgov) else 0
  let run := if s.m.imageReady && decide (pgov > b.capEff) then satU 16 (s.m.gov.run + 1) else 0
  let limit := if !s.m.imageReady then 500 else if h > 0 ∧ run < 5000 then min 2000 (b.capEff + 400) else b.capEff
  let want := b.busyIslands.map fun i => (i, ((creditCap : Int) - s.m.balance i).toNat, 0)
  let granted := fillShares 160 (limit * 2000000 - (max 120000000 b.floorPj + b.fixedPj counts + b.leakage temps)) want
  s.ends (exec (.governorWindow units activity temps) s) fun m =>
    m.gov.h = h ∧ m.gov.run = run ∧ m.gov.pgov = pgov ∧ m.gov.act = [] ∧ m.gov.wins = s.m.gov.wins + 1 ∧
    m.reg Reg.pwrHeadroom = h / 1000 ∧ bits (m.reg Reg.pwrStatus) 26 16 = b.capEff % 2 ^ 11 ∧
    (∀ x ∈ granted, m.balance x.1 = s.m.balance x.1 + x.2.2) ∧
    (∀ i, i < 152 → i ∉ b.busyIslands → m.balance i = s.m.balance i) ∧ s.m.sameStores m

/-- R334, R337, R338: the evaluation of every millisecond. A successful reading is stored and compared; in the mismatch state
a reading that disagrees corrects the gain, or is a fault where the correction would leave its range; the third reading in a
row that disagrees begins that state, and the third failed one is TELEM_LOSS, each with its event. Every ACTIVE position is set to the slower of
its preferred point and the point of the limit that binds it, unless it is OFF. -/
def Obligations.GovernorEvaluationRules : Prop := ∀ (s : State) (readOk : Bool) (pMeas : Nat),
  s.m.board.live = true → s.m.wf = true →
  let est := s.m.gov.est / max 1 s.m.gov.wins
  let st := s.m.reg Reg.pwrStatus
  s.ends (exec (.governorEvaluation readOk pMeas) s) fun m =>
    s.m.sameStores m ∧ m.gov.est = 0 ∧ m.gov.wins = 0 ∧ m.gov.phase = (List.range 8).map (fun p => s.m.reg (Reg.pwrPhaseOp p)) ∧
    (readOk = true → m.reg Reg.pwrPower = satU 16 pMeas <<< 16 + satU 16 est ∧ bit (m.reg Reg.pwrStatus) 4 = false ∧
      (bit st 2 = true → disagrees pMeas est = true →
        (∀ g, gainStep (s.m.reg Reg.pwrGain) pMeas est = some g → m.reg Reg.pwrGain = g) ∧
        (gainStep (s.m.reg Reg.pwrGain) pMeas est = none →
          m.reg Reg.pwrGain = s.m.reg Reg.pwrGain ∧ bit (m.reg Reg.pwrStatus) 3 = true)) ∧
      (bit st 2 = false → disagrees pMeas est = true → s.m.gov.dis ≥ 2 →
        bit (m.reg Reg.pwrStatus) 2 = true ∧ s.m.logs m 0x20 177 ∧ s.m.raises m 0)) ∧
    (readOk = false → m.reg Reg.pwrGain = s.m.reg Reg.pwrGain ∧ m.gov.fails = min 3 (s.m.gov.fails + 1) ∧
      (s.m.gov.fails ≥ 2 → bit (m.reg Reg.pwrStatus) 4 = true ∧ (bit st 4 = false → s.m.raises m 1))) ∧
    ∀ i, i < 128 → s.m.posState i = 0 → m.reg (Reg.pwrPosOp i) = m.limitCode <<< 8 + m.preferred i <<< 4 +
      (if bits (s.m.reg (Reg.pwrPosOp i)) 2 0 = 7 then 7 else max (m.preferred i) ([0, 1, 2, 5, 3].getD m.limitCode 3))

/-- R335: a position without work goes OFF after 1 ms where PWR_CTL allows it, what stays powered there at OP1; it is back at its chosen point when work needs
it, and takes over the clock of a raised point when the voltage is reached. -/
def Obligations.PositionsSleepAndWake : Prop := ∀ (s : State) (pos : Nat), s.m.board.live = true →
  let op := bits (s.m.reg (Reg.pwrPosOp pos)) 2 0
  (∀ idleMs, bit (s.m.reg Reg.pwrCtl) 0 = true → 1 ≤ idleMs → s.m.posUnused pos = true → op ≠ 7 →
    exec (.positionOff pos idleMs) s = s.becomes
      { s.m.setReg (Reg.pwrPosOp pos) (setBits (s.m.reg (Reg.pwrPosOp pos)) 2 0 7) with
        pos := Tab.put PosX.init s.m.pos pos { s.m.posX pos with clk := 1 } }) ∧
  (∀ idleMs, (bit (s.m.reg Reg.pwrCtl) 0 = false ∨ idleMs = 0 ∨ s.m.posUnused pos = false ∨ op = 7) →
    exec (.positionOff pos idleMs) s = .next s) ∧
  (s.m.wf = true → pos < 128 → op = 7 →
    (s.m.posUnused pos = false ∨ bit (s.m.reg Reg.pwrCtl) 0 = false) →
    s.ends (exec (.positionWakeDone pos) s) fun m =>
      let point := max (s.m.preferred pos) ([0, 1, 2, 5, 3].getD s.m.limitCode 3)
      m.reg (Reg.pwrPosOp pos) = s.m.limitCode <<< 8 + s.m.preferred pos <<< 4 + point ∧ (m.posX pos).clk = point ∧
      s.m.sameStores m ∧ m.cores = s.m.cores) ∧
  (op ≠ 7 → exec (.positionWakeDone pos) s = .next s) ∧
  (op ≠ 7 → exec (.operatingPointReached pos) s = s.becomes
    { s.m with pos := Tab.put PosX.init s.m.pos pos { s.m.posX pos with clk := op } }) ∧
  (op = 7 → exec (.operatingPointReached pos) s = .next s)

/-- R339, R340: a supply 40 mV low stretches its island's clock until it has recovered for 64 cycles; a trim is one step of
5 mV, is recorded, and never leaves 25 mV of the nominal voltage: one that would raises an event instead. -/
def Obligations.DroopAndTrim : Prop := ∀ (s : State) (island : Nat), s.m.board.live = true →
  (∀ mv, 40 < mv → s.ends (exec (.droopDetect island mv) s) fun m =>
    m.gov = { s.m.gov with stretched := insertNew s.m.gov.stretched island } ∧ s.m.sameStores m ∧ m.cores = s.m.cores ∧
    m.pos = s.m.pos ∧ m.isl = s.m.isl ∧ (128 ≤ island → m.regs = s.m.regs)) ∧
  (∀ mv, mv ≤ 40 → exec (.droopDetect island mv) s = .next s) ∧
  (∀ n, 64 ≤ n → exec (.droopRecovery island n) s = s.becomes
    { s.m with gov := { s.m.gov with stretched := s.m.gov.stretched.filter (· != island) } }) ∧
  (∀ n, n < 64 → exec (.droopRecovery island n) s = .next s) ∧
  (∀ up : Bool, let t' := toSigned 8 (bits (s.m.reg (Reg.pwrTrim island)) 7 0) + (if up then 5 else -5)
    (s.m.wf = true → island < 179 → -25 ≤ t' → t' ≤ 25 → s.ends (exec (.voltageTrim island up (!up)) s) fun m =>
      toSigned 8 (bits (m.reg (Reg.pwrTrim island)) 7 0) = t' ∧
      bits (m.reg (Reg.pwrTrim island)) 31 16 = satU 16 (bits (s.m.reg (Reg.pwrTrim island)) 31 16 + 1) ∧
      s.m.logs m 0x23 island ∧ s.m.sameStores m) ∧
    (t' < -25 ∨ 25 < t' → s.ends (exec (.voltageTrim island up (!up)) s) fun m =>
      s.m.raises m 2 ∧ m.regs = s.m.regs ∧ s.m.sameStores m ∧ m.cores = s.m.cores ∧ m.boot = s.m.boot)) ∧
  (∀ b, exec (.voltageTrim island b b) s = .next s)

/-- R341 and Table 13-4: the hottest junction reading governs; 98 °C throttles, 105 °C is the hard limit and 115 °C cuts the
power; entering one of the first two raises an event, and the hard limit puts every position at OP5 and halves the clock of the
other islands; the two states end 10 ms below 95 °C and below 100 °C. -/
def Obligations.HeatThresholds : Prop := ∀ s : State, s.m.board.live = true →
  (∀ readings, readings ≠ [] → readings.getD (hottestOf readings).2 0 = (hottestOf readings).1 ∧
    ∀ x ∈ readings, x ≤ (hottestOf readings).1) ∧
  (s.m.wf = true → ∀ readings, let hot := (hottestOf readings).1
    let st := bits (s.m.reg Reg.pwrStatus) 1 0
    s.ends (exec (.thermalSample readings) s) fun m =>
      m.reg Reg.pwrTemp = (hottestOf readings).2 <<< 16 + ofSigned 16 hot ∧ s.m.sameStores m ∧ m.cores = s.m.cores ∧
      (115 * 16 ≤ hot → m.board = { s.m.board with powered := false, live := false, tripped := true } ∧
        bits (m.reg Reg.pwrStatus) 1 0 = 3) ∧
      (105 * 16 ≤ hot → hot < 115 * 16 → bits (m.reg Reg.pwrStatus) 1 0 = 2 ∧ (st ≠ 2 → s.m.logs m 0x22 177 ∧
        s.m.raises m 3 ∧ m.gov.halved = true ∧ ∀ i, i < 128 → m.reg (Reg.pwrPosOp i) = 3 <<< 8 + s.m.preferred i <<< 4 +
          (if bits (s.m.reg (Reg.pwrPosOp i)) 2 0 = 7 then 7 else max (s.m.preferred i) 5))) ∧
      (98 * 16 ≤ hot → hot < 105 * 16 → st = 0 → bits (m.reg Reg.pwrStatus) 1 0 = 1 ∧ s.m.logs m 0x22 177 ∧ s.m.raises m 3) ∧
      (hot < 105 * 16 → (hot < 98 * 16 ∨ st ≠ 0) → s.m.sameBut m [Reg.pwrTemp])) ∧
  (∀ ms, let st := bits (s.m.reg Reg.pwrStatus) 1 0
    (10 ≤ ms → st = 1 → s.m.hottest < 95 * 16 → exec (.throttleExit ms) s = s.becomes
      { s.m.setReg Reg.pwrStatus (setBits (s.m.reg Reg.pwrStatus) 1 0 0) with gov := { s.m.gov with cool := 0 } }) ∧
    (10 ≤ ms → st = 2 → s.m.hottest < 100 * 16 → exec (.hardLimitExit ms) s = s.becomes
      { s.m.setReg Reg.pwrStatus (setBits (s.m.reg Reg.pwrStatus) 1 0 1) with gov := { s.m.gov with halved := false } }) ∧
    (ms < 10 ∨ st ≠ 1 ∨ 95 * 16 ≤ s.m.hottest → exec (.throttleExit ms) s = .next s) ∧
    (ms < 10 ∨ st ≠ 2 ∨ 100 * 16 ≤ s.m.hottest → exec (.hardLimitExit ms) s = .next s))

/-! ## Bring-up, image and flash (chapter 15) -/

/-- R113, R120, R380: the core map at reset. The cores of each die go to its healthy positions in rising order; a core whose
die has no position left takes a bench position of the other die, else a host that it doubles; none is placed twice. -/
def Obligations.CoreMapAtReset : Prop := ∀ (per : Nat) (healthy : List Nat), healthy.Nodup → (∀ i ∈ healthy, i < 128) →
  let p := placing per healthy
  (∀ d k i, d < 2 → k < per → (healthy.filter fun i => i / 64 == d)[k]? = some i → (per * d + k, i) ∈ p.bound) ∧
  (p.bound.map Prod.fst ++ p.guests.map Prod.fst ++ p.lost).Perm (List.range (2 * per)) ∧
  (p.bound.map Prod.snd).Nodup ∧ (∀ x ∈ p.bound, x.2 ∈ healthy) ∧
  (p.guests.map Prod.snd).Nodup ∧ (∀ x ∈ p.guests, ∃ i, (x.2, i) ∈ p.bound) ∧
  (p.guests ≠ [] → ∀ i ∈ healthy, ∃ n, (n, i) ∈ p.bound) ∧ (p.lost ≠ [] → p.guests.length = p.bound.length)

/-- R369, R370, R113, R197, R257: at t0 every register, store and island takes its reset value, while the flash, the fuses and
the board stay; bring-up writes the core map, the grade and the rollback counter, starts the training of the far store, and draws an
epoch. Before t0 only the pins change. The command always completes. -/
def Obligations.ModuleResetBringsUp : Prop := ∀ (s : State) (a b : Bool) (fails : List Nat),
  let board := { s.m.board with perst9 := s.m.board.perst9 && !a, perst10 := s.m.board.perst10 && !b }
  let t0 := s.m.board.powered && !s.m.board.tripped && !s.m.board.live && !board.perst9 && !board.perst10
  (t0 = false → exec (.moduleReset a b fails) s = s.becomes { s.m with board := board }) ∧
  (t0 = true → ∃ m, exec (.moduleReset a b fails) s = .next { s with m := m } ∧
    m.board = { board with live := true, stopped := false } ∧ m.fuses = s.m.fuses ∧ m.boot.torn = s.m.boot.torn ∧
    m.mem = [] ∧ m.chk = [] ∧ m.cores = [] ∧ m.hostQ = [] ∧ m.rly = {} ∧ m.gov = {} ∧ m.isl = [] ∧
    (∀ k, k < 8 → m.setState k = 1) ∧ m.reg Reg.mgtReadyMap = 0 ∧ m.reg Reg.mgtBootStatus = Reg.dflt Reg.mgtBootStatus ∧ m.standard = s.m.fuses.standard ∧
    m.reg Reg.secRollback = b2n s.m.fuses.killed <<< 8 + s.m.fuses.rollback ∧
    1 ≤ m.reg Reg.trnEpoch ∧ m.reg Reg.trnEpoch < 2 ^ 16 ∧
    (fails = [] → m.boot.flash = s.m.boot.flash ∧
      ∀ x ∈ (placing (if s.m.fuses.standard then 48 else 60)
          ((List.range 128).filter fun i => posCode s.m.fuses s.m.facts i == 0)).bound,
        m.posOf x.1 = x.2 ∧ m.posState x.2 = 0 ∧ m.logicalAt x.2 = x.1))

/-- R379, R380, R399, R400: a function that passes its self-test under its ready condition sets its bit of the ready map with
its stamp, and the last one sets bit 127; one that fails sets its bit of MGT_SELFTEST_FAIL. The security controller offers
services once its first two tests have passed, and enters the error state when a test fails. -/
def Obligations.SelfTestsSetReadyBits : Prop := ∀ s : State, s.m.board.live = true → s.m.wf = true →
  (∀ fn, fn < 126 → bit (s.m.reg Reg.mgtReadyMap) fn = false → bit (s.m.reg Reg.mgtSelftestFail) fn = false →
    (s.m.readyCond fn = true → s.ends (exec (.selfTestComplete fn true) s) fun m =>
      bit (m.reg Reg.mgtReadyMap) fn = true ∧
      m.reg (Reg.mgtReadyStamp fn) = popcount 128 (s.m.reg Reg.mgtReadyMap) <<< 48 + trunc 48 (s.m.island 177) ∧
      (m.reg Reg.mgtReadyMap &&& s.m.readyBits = s.m.readyBits → bit (m.reg Reg.mgtReadyMap) 127 = true) ∧
      (fn = 121 → bit (m.reg Reg.hstStatus) 20 = true) ∧ m.cores = s.m.cores ∧ (fn ≠ 121 → s.m.sameStores m)) ∧
    (s.m.readyCond fn = false → exec (.selfTestComplete fn true) s = .next s) ∧
    s.ends (exec (.selfTestComplete fn false) s) fun m => bit (m.reg Reg.mgtSelftestFail) fn = true ∧
      m.reg Reg.mgtReadyMap = s.m.reg Reg.mgtReadyMap ∧ s.m.sameStores m ∧ m.cores = s.m.cores) ∧
  (∀ t, 1 ≤ t → t ≤ 4 → s.m.secDown = false →
    (s.ends (exec (.securitySelfTest t true) s) fun m => t ∈ m.boot.tests ∧ (∀ x ∈ s.m.boot.tests, x ∈ m.boot.tests) ∧
      (1 ∈ m.boot.tests → 2 ∈ m.boot.tests → m.approved = true) ∧ s.m.sameStores m ∧ m.sec = s.m.sec) ∧
    s.ends (exec (.securitySelfTest t false) s) fun m => m.reg Reg.secStatus = t <<< 16 ∧ m.secretsCleared ∧
      (bit (s.m.reg Reg.mgtReadyMap) 126 = false → bit (m.reg Reg.mgtSelftestFail) 126 = true) ∧ s.m.sameStores m) ∧
  (∀ t p, s.m.secDown = true → exec (.securitySelfTest t p) s = .next s)

/-- R197: a set of the far store has trained when its three controllers have and none has failed, is then zeroed, and after that is in service; every
byte of it reads zero with valid check symbols, and no other byte changes. -/
def Obligations.FarStoreStartUp : Prop := ∀ s : State, s.m.board.live = true → s.m.wf = true →
  (∀ ctrl, s.m.setState (ctrl / 3) ≤ 1 →
    (s.ends (exec (.farStoreTrainingDone ctrl true) s) fun m => ctrl ∈ m.trained ∧ (∀ c ∈ s.m.trained, c ∈ m.trained) ∧
      m.setState (ctrl / 3) = (if bits (s.m.reg (Reg.memSetState (ctrl / 3))) 29 27 = 0 ∧
        (List.range 3).all (fun k => m.trained.contains (3 * (ctrl / 3) + k)) = true then 2 else 1) ∧
      s.m.sameStores m ∧ m.cores = s.m.cores) ∧
    s.ends (exec (.farStoreTrainingDone ctrl false) s) fun m => m.setState (ctrl / 3) = 1 ∧
      bit (m.reg (Reg.memSetState (ctrl / 3))) (27 + ctrl % 3) = true ∧ s.m.sameBut m [Reg.memSetState (ctrl / 3)]) ∧
  (∀ ctrl p, 2 ≤ s.m.setState (ctrl / 3) → exec (.farStoreTrainingDone ctrl p) s = .next s) ∧
  (∀ set, s.m.setState set ≠ 2 → exec (.farStoreZeroFillDone set) s = .next s) ∧
  ∀ set, s.m.setState set = 2 → s.ends (exec (.farStoreZeroFillDone set) s) fun m => m.setState set = 3 ∧
    (∀ a, inFar a = true → s.m.farSet a = set → m.byte a = 0#8) ∧
    (∀ l, inFar (32 * l) = true → s.m.farSet (32 * l) = set → m.checks l = [0, 0, 0, 0]) ∧
    (∀ a, ¬ (inFar a = true ∧ s.m.farSet a = set) → m.byte a = s.m.byte a) ∧
    (∀ l, ¬ (inFar (32 * l) = true ∧ s.m.farSet (32 * l) = set) → m.checks l = s.m.checks l) ∧ m.cores = s.m.cores

/-- R376, R377, R391, R403: the slots are checked in order, and the first without a fault is accepted and applied; with none,
or with the kill fuse blown, the module is in recovery, where MGT_BOOT_STATUS names the codes of both. The rollback fuses are
blown up to the image's SVN when the policy and the ready map allow it. -/
def Obligations.SlotVerification : Prop := ∀ s : State, s.m.board.live = true → s.m.wf = true →
  (∀ ea eb, bits (s.m.reg Reg.mgtBootStatus) 31 30 ≠ 0 ∨ s.m.approved = false →
    exec (.slotVerify ea eb) s = .next s) ∧
  (∀ ea eb, bits (s.m.reg Reg.mgtBootStatus) 31 30 = 0 → s.m.approved = true → s.m.fuses.killed = true →
    exec (.slotVerify ea eb) s = s.becomes (s.m.setReg Reg.mgtBootStatus (bootStatus 2 0 15 15))) ∧
  (∀ ea eb, bits (s.m.reg Reg.mgtBootStatus) 31 30 = 0 → s.m.approved = true → s.m.fuses.killed = false →
    s.m.boot.torn = [] →
    let err := fun k => if k = 0 then ea else eb
    let f := s.m.firstSlot
    let c1 := s.m.slotCode f (err f)
    let c2 := s.m.slotCode (1 - f) (err (1 - f))
    let codes := fun x y => if f = 0 then (x, y) else (y, x)
    let accepted := fun (slot : Nat) (e : Nat × Nat) => s.ends (exec (.slotVerify ea eb) s) fun m =>
      m.reg Reg.mgtBootStatus = bootStatus 1 slot e.1 e.2 ∧ bit (m.reg Reg.mgtReadyMap) 126 = true ∧
      m.boot.svn = s.m.slotSvn slot ∧ m.sec.policy = s.m.sectionOf slot 8 ∧ m.boot.flash = s.m.boot.flash ∧
      (∀ n, n < s.m.nCores → m.reg (Reg.corePlayLib n) = s.m.slotLib slot) ∧ m.fuses = s.m.fuses ∧
      (bit (s.m.reg Reg.mgtReadyMap) 121 = false → s.m.sameStores m)
    (c1 = 0 → accepted f (codes 0 15)) ∧ (c1 ≠ 0 → c2 = 0 → accepted (1 - f) (codes c1 0)) ∧
    (c1 ≠ 0 → c2 ≠ 0 → exec (.slotVerify ea eb) s
      = s.becomes (s.m.setReg Reg.mgtBootStatus (bootStatus 2 0 (codes c1 c2).1 (codes c1 c2).2)))) ∧
  let may := bit (s.m.reg Reg.secPolicy) 3 && decide (s.m.boot.svn > s.m.fuses.rollback) && bit (s.m.reg Reg.mgtReadyMap) 127
  (may = true → exec .rollbackAdvance s = s.becomes
    { s.m.setReg Reg.secRollback (setBits (s.m.reg Reg.secRollback) 7 0 s.m.boot.svn) with
      fuses := { s.m.fuses with rollback := s.m.boot.svn } }) ∧
  (may = false → exec .rollbackAdvance s = .next s)

/-- R385: a flash command is accepted while none runs and bring-up has named a target; PROGRAM with a length that breaks its
rule ends at once with ERROR 10. The running one ends: ERASE leaves 0xFF in its slot and nothing else changed; PROGRAM writes
the bytes that it read; CHECK answers the code of the slot; a failure of the flash device leaves the slot partly written, with
ERROR 9. -/
def Obligations.FlashCommands : Prop :=
  (∀ (s : State) (w : Nat), s.m.board.live = true → s.m.admits w true →
     let m0 := s.m.accessed w
     let st := s.m.reg Reg.mgtFlashStatus
     let start := fun (t op len : Nat) => Host.Outcome.next (φ := Fault) (ρ := Refusal) { s with m :=
       { m0.setReg Reg.mgtFlashStatus (flashStatus 1 0 t 0) with boot := { s.m.boot with cmd := op, cmdLen := len } } }
     (∀ t, s.m.targetSlot = some t → bits st 31 30 ≠ 1 →
       exec (.mgtFlashErase w) s = start t 1 0 ∧ exec (.mgtFlashCheck w) s = start t 3 0 ∧
       (∀ len, len % 256 = 0 → len ≤ slotSize → exec (.mgtFlashProgram len w) s = start t 2 len) ∧
       (∀ len, len % 256 ≠ 0 ∨ slotSize < len →
         exec (.mgtFlashProgram len w) s = s.becomes (m0.setReg Reg.mgtFlashStatus (flashStatus 3 10 t 0)))) ∧
     (s.m.targetSlot = none ∨ bits st 31 30 = 1 →
       exec (.mgtFlashErase w) s = s.becomes m0 ∧ exec (.mgtFlashCheck w) s = s.becomes m0 ∧
         ∀ len, exec (.mgtFlashProgram len w) s = s.becomes m0)) ∧
  (∀ s : State, s.m.board.live = true → s.m.wf = true →
     let t := bits (s.m.reg Reg.mgtFlashStatus) 25 24
     let running := bits (s.m.reg Reg.mgtFlashStatus) 31 30
     (running ≠ 1 → ∀ ok, exec (.flashCommandDone ok) s = .next s) ∧
     (running = 1 → s.m.boot.cmd = 1 → s.ends (exec (.flashCommandDone true) s) fun m =>
       (∀ a, m.flashBytes a 1 = if slotBase t ≤ a ∧ a < slotBase t + slotSize then [0xFF#8] else s.m.flashBytes a 1) ∧
       t ∉ m.boot.torn ∧ m.reg Reg.mgtFlashStatus = flashStatus 2 0 t 0xF000 ∧ s.m.sameStores m ∧ m.cores = s.m.cores) ∧
     (running = 1 → s.m.boot.cmd = 2 → inRegion (s.m.reg Reg.mgtFlashSrc) s.m.boot.cmdLen = true →
       let r := (readBytes (s.m.reg Reg.mgtFlashSrc) s.m.boot.cmdLen s.m)
       (r.1.1 = false → exec (.flashCommandDone true) s = s.becomes
         (let m := { r.2 with boot := { r.2.boot with flash := writeFlashTab r.2.boot.flash (slotBase t) r.1.2 } }
          m.setReg Reg.mgtFlashStatus (flashStatus 2 0 t (s.m.boot.cmdLen / 1024)))) ∧
       (r.1.1 = true → s.ends (exec (.flashCommandDone true) s) fun m =>
         bits (m.reg Reg.mgtFlashStatus) 31 30 = 3 ∧ bits (m.reg Reg.mgtFlashStatus) 29 26 = 8 ∧ t ∈ m.boot.torn)) ∧
     (running = 1 → s.m.boot.cmd ≠ 3 → s.ends (exec (.flashCommandDone false) s) fun m =>
       bits (m.reg Reg.mgtFlashStatus) 31 30 = 3 ∧ bits (m.reg Reg.mgtFlashStatus) 29 26 = 9 ∧ t ∈ m.boot.torn ∧
       m.boot.flash = s.m.boot.flash ∧ s.m.sameStores m) ∧
     (running = 1 → s.m.boot.cmd = 3 → s.m.secDown = false → t ∉ s.m.boot.torn → ∀ ok,
       s.ends (exec (.flashCommandDone ok) s) fun m =>
         bits (m.reg Reg.mgtFlashStatus) 31 30 = (if s.m.slotCode t (!ok) = 0 then 2 else 3) ∧
         bits (m.reg Reg.mgtFlashStatus) 29 26 = s.m.slotCode t (!ok) ∧ m.boot = s.m.boot ∧ s.m.sameStores m))

/-- R384: an entry of the health record takes the next sequence number, goes to the next place of the copy in use, and is
valid there; every byte of the flash outside its 64 is unchanged. -/
def Obligations.HealthRecordAppends : Prop := ∀ (s : State) (kind : Nat) (pl : List Byte), s.m.board.live = true →
  Tab.wf flashErased s.m.boot.flash = true → kind < 2 ^ 16 → pl.length ≤ 54 →
  let seq := match s.m.healthTop with | none => 0 | some (x, _) => x + 1
  let copy := match s.m.healthTop with | none => 0 | some (_, c) => c
  let place := (s.m.healthPlaces copy).foldl (fun m i => max m (i + 1)) 0
  place < 0x8000 → seq < 2 ^ 32 - 1 → s.ends (exec (.healthRecordAppend kind pl) s) fun m =>
    ⟨seq, kind, pl ++ List.replicate (54 - pl.length) 0#8⟩ ∈ m.health ∧ (∀ h ∈ s.m.health, h ∈ m.health) ∧
    (∀ a, a < healthBase copy + 64 * place ∨ healthBase copy + 64 * place + 64 ≤ a →
      m.flashBytes a 1 = s.m.flashBytes a 1) ∧
    m = { s.m with boot := { s.m.boot with flash := m.boot.flash } }

/-! ## Security (chapter 16) -/

/-- R401 to R404, R398: each way to zeroise clears every volatile secret, reports the zeroised state, and leaves fuses, stores
and cores as they are, but for the kill fuse of permanent zeroisation; a second failure of the random source in a row is the
error state, and a reseed restarts the count of draws. -/
def Obligations.ZeroisationAndRandomness : Prop := ∀ s : State, s.m.board.live = true → s.m.wf = true →
  let gone := fun m : M => m.secretsCleared ∧ m.reg Reg.secStatus = 1 <<< 30 ∧
    m.reg Reg.secZeroiseCount = satU 32 (s.m.reg Reg.secZeroiseCount + 1) ∧ s.m.sameStores m ∧ m.cores = s.m.cores
  let phrase := leBytes 4 0x5A45524F
  (s.m.secDown = false →
    (s.ends (exec (.zeroise true phrase) s) fun m =>
      gone m ∧ m.fuses = s.m.fuses ∧ m.outs = .spdm true 9 [0#8, 0#8] :: s.m.outs) ∧
    (s.m.mailboxOpen = true → s.m.hostWaits = false → s.ends (exec (.zeroise false phrase) s) fun m =>
      gone m ∧ m.fuses = s.m.fuses ∧ m.outs = .msix 64 :: .mailbox 0 [] :: s.m.outs) ∧
    (∀ us, 1000 ≤ us → bit (s.m.reg Reg.secPolicy) 4 = true →
      s.ends (exec (.zeroisePinLow us) s) fun m => gone m ∧ m.fuses = s.m.fuses) ∧
    (∀ ms, 5000 ≤ ms → bit (s.m.reg Reg.secPolicy) 6 = true → s.ends (exec (.permanentZeroisation ms) s) fun m =>
      gone m ∧ m.fuses = { s.m.fuses with killed := true } ∧ bit (m.reg Reg.secRollback) 8 = true)) ∧
  (∀ input, input ≠ phrase → exec (.zeroise true input) s = s.becomes (s.m.out (.spdm true 9 [2#8, 0#8])) ∧
    (s.m.mailboxOpen = true → s.m.hostWaits = false → exec (.zeroise false input) s = s.becomes (s.m.mailboxReply 2 []))) ∧
  (∀ us, us < 1000 ∨ bit (s.m.reg Reg.secPolicy) 4 = false → exec (.zeroisePinLow us) s = .next s) ∧
  (∀ ms, ms < 5000 ∨ bit (s.m.reg Reg.secPolicy) 6 = false → exec (.permanentZeroisation ms) s = .next s) ∧
  exec (.trngSample true) s = s.becomes { s.m with sec := { s.m.sec with alarm := false } } ∧
  (s.ends (exec (.trngSample false) s) fun m =>
    m.reg Reg.secTrngAlarms = satU 64 (s.m.reg Reg.secTrngAlarms + 1) ∧ m.sec.alarm = true ∧ s.m.sameStores m ∧
    (s.m.sec.alarm = true → s.m.secDown = false → m.secretsCleared ∧ m.reg Reg.secStatus = 3 <<< 16) ∧
    (s.m.sec.alarm = false → s.m.sameBut { m with sec := s.m.sec } [Reg.secTrngAlarms])) ∧
  exec .drbgReseed s = s.becomes
    { s.m with sec := { s.m.sec with draws := if 2 ^ 20 ≤ s.m.sec.draws then 0 else s.m.sec.draws } }

/-- R404: triggers that arrive together perform one zeroisation, and every request among them completes with Success once it
is done (where IDE is required, no mailbox command follows one: R319 closes the mailbox with the IDE streams; behind a held push of the
host its accesses wait, R315). A ZEROISE in the zeroised state completes with Success and changes nothing. ZEROISE with an input of the wrong length
or value returns Invalid Input and zeroises nothing. -/
def Obligations.TriggersTogetherZeroiseOnce : Prop := ∀ s : State, s.m.board.live = true → s.m.wf = true →
  s.m.mailboxOpen = true → s.m.hostWaits = false →
  let phrase := leBytes 4 0x5A45524F
  let requests : List (Instr × List Output) := [(.zeroise true phrase, [.spdm true 9 [0#8, 0#8]]),
    (.zeroise false phrase, [.msix 64, .mailbox 0 []])]
  let triggers := requests ++ (if bit (s.m.reg Reg.secPolicy) 4 then [(.zeroisePinLow 1000, [])] else [])
  (s.m.secDown = false → ∀ a ∈ triggers, ∀ b ∈ triggers,
    ((bit (s.m.reg Reg.secPolicy) 1 = false ∧ s.m.cxl.ideLost = false) ∨ b.1 ≠ .zeroise false phrase) → ∃ m1 m2, exec a.1 s = s.becomes m1 ∧
    exec b.1 { s with m := m1 } = s.becomes m2 ∧ m2.secretsCleared ∧ m2.reg Reg.secStatus = 1 <<< 30 ∧
    m2.reg Reg.secZeroiseCount = satU 32 (s.m.reg Reg.secZeroiseCount + 1) ∧ m2.outs = b.2 ++ a.2 ++ s.m.outs) ∧
  (s.m.reg Reg.secStatus = 1 <<< 30 → ∀ a ∈ requests,
    exec a.1 s = s.becomes { s.m with outs := a.2 ++ s.m.outs }) ∧
  ∀ input, input ≠ phrase → exec (.zeroise true input) s = s.becomes (s.m.out (.spdm true 9 [2#8, 0#8])) ∧
    exec (.zeroise false input) s = s.becomes (s.m.mailboxReply 2 [])

/-- R389, R393, R394: the SPDM services. A certificate chain, a challenge, the measurements and a session are answered on an
open transport, with what the manual leaves open (signatures, nonces, keys) free; no answer comes on one that is not open. -/
def Obligations.SpdmServices : Prop := ∀ (s : State) (mctp : Bool), s.m.board.live = true →
  let replies := fun (o : Out) (n kind : Nat) (sec : Sec) (body : List Byte → List Byte) => ∃ x : List Byte, x.length = n ∧
    o = s.becomes (({ s.m with sec := sec, free := s.m.free + n } : M).out (.spdm mctp kind (body x)))
  let error := fun c : Nat => s.becomes (s.m.out (.spdm mctp 0 (leBytes 1 c)))
  (s.m.spdmOpen mctp = true →
    (∀ k, k ≤ 1 → exec (.getCertificate mctp k) s = s.becomes (s.m.out (.spdm mctp 1 (Config.certChain k)))) ∧
    (∀ k, 2 ≤ k → exec (.getCertificate mctp k) s = error 1) ∧
    (∀ n, replies (exec (.challenge mctp 0 n) s) 416 2 { s.m.sec with draws := s.m.sec.draws + 1 }
      fun x => sha384 (Config.certChain 0) ++ x) ∧
    (∀ k n, k ≠ 0 → exec (.challenge mctp k n) s = error 1) ∧
    (∀ i, replies (exec (.getMeasurements mctp i) s) 384 3 s.m.sec
      fun x => (if i = 0 then [13#8] else s.m.measurement i) ++ x) ∧
    ∀ root, let zero := root.all (· == 0#8)
      let co := !zero && root == s.m.sec.coRoot
      (4 ≤ s.m.sec.sessions.length → exec (.keyExchange mctp root) s = error 3) ∧
      (s.m.sec.sessions.length < 4 → co = false → (zero = true ∨ root ≠ s.m.sec.userRoot) →
        exec (.keyExchange mctp root) s = error 5) ∧
      (s.m.sec.sessions.length < 4 → (co = true ∨ (zero = false ∧ root = s.m.sec.userRoot)) →
        ∃ i x, i < 4 ∧ x.length = 96 ∧ (∀ y ∈ s.m.sec.sessions, y.id ≠ i) ∧
          exec (.keyExchange mctp root) s = s.becomes
            (({ s.m.setReg Reg.secSessions (s.m.sec.sessions.length + 1) with free := s.m.free + 96, sec := { s.m.sec with
                draws := s.m.sec.draws + 1, sessions := s.m.sec.sessions ++ [⟨i, co, mctp⟩] } } : M).out
              (.spdm mctp 4 (leBytes 1 i ++ x))))) ∧
  (s.m.spdmOpen mctp = false → (∀ k, exec (.getCertificate mctp k) s = .next s) ∧
    (∀ k n, exec (.challenge mctp k n) s = .next s) ∧ (∀ i, exec (.getMeasurements mctp i) s = .next s) ∧
    ∀ root, exec (.keyExchange mctp root) s = .next s) ∧
  (∀ i x, s.m.session i = some x → x.mctp = mctp → replies (exec (.signPq i) s) 16224 5 s.m.sec id) ∧
  (∀ i, s.m.session i = none → exec (.signPq i) s = .next s) ∧
  ∀ i, let left := s.m.sec.sessions.filter (·.id != i)
    exec (.sessionEnd i) s = s.becomes
      { s.m.setReg Reg.secSessions left.length with sec := { s.m.sec with sessions := left } }

/-- R395: the CO programs, starts and stops the keys of an IDE stream in a session over DOE; another session is answered with
an error, and one that is not open not at all. Both streams started end what an integrity failure began (R319). -/
def Obligations.IdeKeysProgrammedByCo : Prop := ∀ (s : State) (i stream : Nat) (key : List Byte), s.m.board.live = true →
  let hst := fun v => setBits (s.m.reg Reg.hstStatus) (ideBit stream) (ideBit stream) v
  let others := s.m.sec.ide.filter (·.stream != stream)
  (s.m.session i = none → exec (.keyProg i stream key) s = .next s ∧ exec (.kSetGo i stream) s = .next s ∧
    exec (.kSetStop i stream) s = .next s) ∧
  ∀ x, s.m.session i = some x →
    (x.co = true → x.mctp = false → key.length = 32 → exec (.keyProg i stream key) s = s.becomes
      (({ s.m with sec := { s.m.sec with ide := others ++ [⟨stream, key, false⟩] } } : M).out (.spdm false 6 []))) ∧
    (x.co = true → x.mctp = false → (∃ k ∈ s.m.sec.ide, k.stream = stream) → exec (.kSetGo i stream) s = s.becomes
      (let m := s.m.setReg Reg.hstStatus (hst 1)
       ({ m with
          sec := { s.m.sec with ide := s.m.sec.ide.map fun k => if k.stream = stream then { k with going := true } else k }
          cxl := { s.m.cxl with ideLost := s.m.cxl.ideLost && bits (m.reg Reg.hstStatus) 22 21 != 3 } } : M).out (.spdm false 7 []))) ∧
    (x.co = true → x.mctp = false → exec (.kSetStop i stream) s = s.becomes
      (({ s.m.setReg Reg.hstStatus (hst 0) with sec := { s.m.sec with ide := others } } : M).out (.spdm false 7 []))) ∧
    (x.co = false ∨ x.mctp = true → ∀ c ∈ [Instr.keyProg i stream key, .kSetGo i stream, .kSetStop i stream],
      exec c s = s.becomes (s.m.out (.spdm x.mctp 0 (leBytes 1 5))))

/-- R396: the CO installs the CAK of an enabled port, which then holds no SAK and sends an MKA message; an MKA message that verifies gives
the port a SAK beside the one in use till then, drawn where this end is the key server and has distributed none, else the one that it
distributes (R251; association and packet numbers: log 100). -/
def Obligations.MacsecKeys : Prop := ∀ (s : State) (port : Nat), s.m.board.live = true → s.m.wf = true → port < 64 →
  (∀ i x cak ckn, s.m.session i = some x →
    let ok := cak.length = 32 ∧ 1 ≤ ckn.length ∧ ckn.length ≤ 32 ∧ port < s.m.nPorts ∧ bit (s.m.reg (Reg.ethPortCtl port)) 31 = true
    (x.co = true → ok → s.ends (exec (.installCak i port cak ckn) s) fun m =>
      (∃ p ∈ m.sec.ports, p.port = port ∧ p.cak = cak ∧ p.ckn = ckn ∧ p.kek = Config.mkaKek cak ckn ∧
        p.ick = Config.mkaIck cak ckn ∧ p.saks = []) ∧ (∀ p ∈ s.m.sec.ports, p.port ≠ port → p ∈ m.sec.ports) ∧
      m.outs = .spdm x.mctp 8 [] :: (if s.m.portUp port = true ∧ s.m.board.portOff = false then
        .mka port { s.m.eth port true with sec := none } false :: s.m.outs else s.m.outs) ∧
      bit (m.reg (Reg.ethPortStatus port)) 26 = false ∧ m.sec.sessions = s.m.sec.sessions ∧ s.m.sameStores m) ∧
    (x.co = false ∨ ¬ ok →
      exec (.installCak i port cak ckn) s = s.becomes (s.m.out (.spdm x.mctp 0 (leBytes 1 5))))) ∧
  (∀ i cak ckn, s.m.session i = none → exec (.installCak i port cak ckn) s = .next s) ∧
  (∀ prio sak, exec (.mkpduReceived port false prio sak) s = .next s) ∧
  ∀ prio sak, s.m.approved = true → (∃ p ∈ s.m.sec.ports, p.port = port) →
    let own := ((s.m.sec.policy.drop 4).headD 0#8).toNat
    let peer := prio < own ∨ (own ≠ prio ∧ bit (s.m.reg Reg.secPolicy) 2 = false)
    let mine := s.m.sec.ports.filter (·.port == port)
    let has := fun (m : M) (k : List Byte) => m.sec.ports = (s.m.sec.ports.map fun p => if p.port = port then
        { p with saks := ({ an := p.saks.head?.elim 0 fun x => (x.an + 1) % 4, key := k : Sak } :: p.saks).take 2 } else p) ∧
      bit (m.reg (Reg.ethPortStatus port)) 26 = true ∧ m.sec.sessions = s.m.sec.sessions ∧ s.m.sameStores m
    (own < prio → bit (s.m.reg Reg.secPolicy) 2 = true → (∀ p ∈ mine, p.saks = []) →
      s.ends (exec (.mkpduReceived port true prio sak) s) fun m => ∃ k : List Byte, k.length = 32 ∧ has m k) ∧
    (own < prio → bit (s.m.reg Reg.secPolicy) 2 = true → (∀ p ∈ mine, p.saks ≠ []) →
      exec (.mkpduReceived port true prio sak) s = .next s) ∧
    (peer → sak.length = 32 → (∀ p ∈ mine, ∀ k ∈ p.saks, k.key ≠ sak) →
      s.ends (exec (.mkpduReceived port true prio sak) s) fun m => has m sak) ∧
    (peer → sak.length ≠ 32 ∨ (∀ p ∈ mine, ∃ k ∈ p.saks, k.key = sak) →
      exec (.mkpduReceived port true prio sak) s = .next s)

/-! ## The host's side (chapters 8 and 12) -/

/-- R317 and Table 12-5: while the mailbox is open, each command answers its return code and payload with vector 64; an input
of the wrong form is answered with Invalid Input, and an opcode of no command with Unsupported. What the manual leaves open
in a payload is free; the layouts of the event records and of their clearing are those of CXL 2.0 (log 99). -/
def Obligations.MailboxCommands : Prop := ∀ (s : State) (input : List Byte), s.m.board.live = true → s.m.mailboxOpen = true →
  s.m.hostWaits = false →
  let reply := fun (code : Nat) (out : List Byte) => s.becomes (s.m.mailboxReply code out)
  let free := fun (o : Out) (n : Nat) (pre : List Byte) => ∃ x : List Byte, x.length = n ∧
    o = s.becomes (({ s.m with free := s.m.free + n } : M).mailboxReply 0 (pre ++ x))
  let map := s.m.reg Reg.mgtReadyMap
  let log := s.m.reg Reg.chkLogWr
  let first := leNat (input.take 4)
  let count := leNat ((input.drop 2).take 1)
  let cleared := leNat (input.take 1)
  (input.length = 1 → leNat input < 4 → let n := (s.m.eventLog (leNat input)).length
    free (exec (.getEventRecords input) s) (128 * min n 31)
      (leBytes 32 ((if 31 < n then 2 else 0) + (min n 31) * 2 ^ 160))) ∧
  (input.length = 6 + 2 * count → cleared < 4 → exec (.clearEventRecords input) s = s.becomes
    (({ s.m with cxl := { s.m.cxl with events := (s.m.cxl.events.filter fun (l, _) => l != cleared) ++
        (if bit (leNat ((input.drop 1).take 1)) 0 then [] else (s.m.eventLog cleared).drop count) } } : M).mailboxReply 0 [])) ∧
  (input.length = 4 → exec (.setEventInterruptPolicy input) s
    = s.becomes (({ s.m with cxl := { s.m.cxl with policy := input } } : M).mailboxReply 0 [])) ∧
  (input.length = 24 → free (exec (.getLog input) s) (min 4096 (leNat (input.drop 20))) []) ∧
  (input.length = 4 → exec (.getSettings input) s = reply 0 (((ilRegisters.drop (leNat input)).take 512).flatMap fun o =>
    leBytes 4 o ++ leBytes 4 (b2n (s.m.boot.adj.contains o) + 2 * b2n (s.m.boot.changed.contains o)))) ∧
  (input.length = 6 → first < log → (∀ x, first ≤ x → x < log → ∃ r ∈ s.m.logBuf, r.index = x) →
    exec (.readLog input) s = reply 0 ((List.range' first (min (min (leNat (input.drop 4)) 64) (log - first))).flatMap fun x =>
        ((s.m.logBuf.find? (·.index = x)).map LogRec.bytes).getD [])) ∧
  (input = [] → exec (.getEventInterruptPolicy input) s = reply 0 s.m.cxl.policy ∧
    free (exec (.getFwInfo input) s) 80 [] ∧ free (exec (.getSupportedLogs input) s) 20 (leBytes 8 1) ∧
    exec (.getReady input) s = reply 0 (leBytes 16 map ++ ((List.range 128).filter (bit map)).flatMap fun i =>
      leBytes 8 (s.m.reg (Reg.mgtReadyStamp i))) ∧
    exec (.getHealth input) s = reply 0 (((List.range 128).flatMap fun i => leBytes 4 (s.m.reg (Reg.mgtPosState i)))
      ++ leBytes 4 (s.m.reg Reg.mgtBenchCount))) ∧
  (input.length ≠ 1 ∨ 4 ≤ leNat input → exec (.getEventRecords input) s = reply 2 []) ∧
  (input.length ≠ 6 + 2 * count ∨ 4 ≤ cleared → exec (.clearEventRecords input) s = reply 2 []) ∧
  (input.length ≠ 4 → exec (.setEventInterruptPolicy input) s = reply 2 [] ∧ exec (.getSettings input) s = reply 2 []) ∧
  (input.length ≠ 24 → exec (.getLog input) s = reply 2 []) ∧
  (input.length ≠ 6 ∨ log ≤ first ∨ (s.m.logRing = false ∧ ∀ r ∈ s.m.logBuf, r.index ≠ first) →
    exec (.readLog input) s = reply 2 []) ∧
  (input ≠ [] → ∀ c ∈ [Instr.getEventInterruptPolicy input, .getFwInfo input, .getSupportedLogs input, .getReady input,
    .getHealth input], exec c s = reply 2 []) ∧
  (∀ op, op ∉ mailboxOpcodes → exec (.mailboxUnsupported op) s = reply 3 []) ∧
  (∀ op, op ∈ mailboxOpcodes → exec (.mailboxUnsupported op) s = .next s)

/-- R299 to R303, R315, R319: the host's windows on the stores. A read answers the bytes with their poison, or is refused; a
write is done, or is refused; an access waits behind a held push, in its place. A refused access is counted. CXL.mem reaches the far
store where its decoder is committed and enabled. -/
def Obligations.HostWindows : Prop := ∀ s : State, s.m.board.live = true →
  let early := s.m.refusedOnce
  let line := fun o : Nat => 0x10000000000 + o / 64 * 64
  (∀ a, exec (.h2dSnoop a) s = s.becomes (s.m.out (.rspIHitI a))) ∧
  (s.m.hostWaits = false →
    (∀ a n, inRegion a n = true → s.m.ideOk = true → s.m.slicesReady a n = true →
      let r := readBytes a n s.m
      exec (.bar2Read a n) s = s.becomes (r.2.out (.cpl 0 r.1.1 r.1.2))) ∧
    (∀ a n, inRegion a n = true → s.m.ideOk = false → exec (.bar2Read a n) s = s.becomes (early.out (.cpl 1 false []))) ∧
    (∀ a n, inRegion a n = true → s.m.ideOk = true → s.m.slicesReady a n = false →
      exec (.bar2Read a n) s = s.becomes (early.out (.cpl 4 false []))) ∧
    (∀ a d p, inRegion a d.length = true → s.m.ideOk = true → s.m.slicesReady a d.length = true →
      exec (.bar2Write a d p) s = s.becomes (writeInbound a d p s.m).2) ∧
    (∀ a d p, inRegion a d.length = true → s.m.ideOk = false ∨ s.m.slicesReady a d.length = false →
      exec (.bar2Write a d p) s = s.becomes early) ∧
    (∀ a n, inRegion a n = false → exec (.bar2Read a n) s = .next s) ∧
    (∀ a d p, inRegion a d.length = false → exec (.bar2Write a d p) s = .next s) ∧
    (∀ o n, ¬ ((n = 4 ∨ n = 8) ∧ o % n = 0) → s.m.ideOk = true →
      exec (.bar0AccessInvalid false o n) s = s.becomes (s.m.out (.cpl 1 false [])) ∧
      exec (.bar0AccessInvalid true o n) s = .next s) ∧
    (∀ o n, ¬ ((n = 4 ∨ n = 8) ∧ o % n = 0) → s.m.ideOk = false →
      exec (.bar0AccessInvalid false o n) s = s.becomes (early.out (.cpl 1 false [])) ∧
      exec (.bar0AccessInvalid true o n) s = s.becomes early)) ∧
  (s.m.hostWaits = true → (∀ a n, exec (.bar2Read a n) s = s.becomes (s.m.hostHeld (.bar2Read a n))) ∧
    (∀ a d p, exec (.bar2Write a d p) s = s.becomes (s.m.hostHeld (.bar2Write a d p))) ∧
    ∀ w o n, exec (.bar0AccessInvalid w o n) s = s.becomes (s.m.hostHeld (.bar0AccessInvalid w o n))) ∧
  ∀ o d p,
    (s.m.hdmOpen o = true → s.m.ideOk = true → s.m.memActive = true → let r := readBytes (line o) 64 s.m
      exec (.cxlMemRead o) s = s.becomes (r.2.out (.memData r.1.1 r.1.2)) ∧
      exec (.cxlMemWrite o d p) s = s.becomes (writeInbound (line o) d p s.m).2) ∧
    (s.m.hdmOpen o = true → s.m.ideOk = false ∨ s.m.memActive = false →
      (∃ x : List Byte, x.length = 64 ∧
        exec (.cxlMemRead o) s = s.becomes (({ early with free := s.m.free + 64 } : M).out (.memData true x))) ∧
      exec (.cxlMemWrite o d p) s = s.becomes early) ∧
    (s.m.hdmOpen o = false → exec (.cxlMemRead o) s = .next s ∧ exec (.cxlMemWrite o d p) s = .next s)

/-! ## Memory protection (chapter 8) -/

/-- R201: the line code corrects any one symbol in error and detects any two or three. The check symbols of a line decode; one
symbol in error is corrected, and the repair gives the codeword back; two or three are uncorrectable; and a poisoned line
decodes as poisoned, or as uncorrectable with one more symbol in error. -/
def Obligations.LineCodeCorrectsOneDetectsThree : Prop := ∀ data : List Nat, data.length = 32 → (∀ x ∈ data, x < 256) →
  let err := fun (cw : List Nat) (p : Nat × Nat) => cw.set p.1 (cw.getD p.1 0 ^^^ p.2)
  let isErr := fun p : Nat × Nat => p.1 < 36 ∧ 0 < p.2 ∧ p.2 < 256
  let cw := data ++ rsCheck data
  let poisoned := data ++ rsPoison data
  rsDecode cw = .ok ∧ rsDecode poisoned = .poisoned ∧
  ∀ a, isErr a → rsDecode (err cw a) = .corrected a.1 a.2 ∧ rsRepair (err cw a) (.corrected a.1 a.2) = cw ∧
    rsDecode (err poisoned a) = .uncorrectable ∧
    ∀ b, isErr b → a.1 ≠ b.1 → rsDecode (err (err cw a) b) = .uncorrectable ∧
      ∀ c, isErr c → a.1 ≠ c.1 → b.1 ≠ c.1 → rsDecode (err (err (err cw a) b) c) = .uncorrectable

/-- R204, R205: a full line written is a valid codeword and reads back clean and unchanged; its poisoned form reads as poisoned
and leaves the stores as they are; every other line is untouched. R199, R207, R213: an accepted injection changes the first
one or three bytes of its line, or poisons it, and nothing else; a scrubber reads its next line; refresh shows its rate;
calibration changes no state. -/
def Obligations.LinesInjectionAndBackgroundWork : Prop :=
  (∀ (m : M) (l : Nat) (data : List Byte) (poison : Bool), m.wf = true →
     data.length = 32 → let n := m.putLine l data poison
       n.bytes (32 * l) 32 = data ∧ (readLine l n).1 = poison ∧ n.sameStores (readLine l n).2 ∧
       (poison = false → (readLine l n).2 = n) ∧
       (poison = true → (readLine l n).2.reg Reg.memPoisonReads = trunc 64 (n.reg Reg.memPoisonReads + 1)) ∧
       (∀ a, a / 32 ≠ l → n.byte a = m.byte a) ∧ ∀ k, k ≠ l → n.checks k = m.checks k) ∧
  (∀ s : State, s.m.board.live = true → s.m.wf = true →
     (∀ w a, s.m.admits w false → s.m.injectOk a = true → let m0 := s.m.accessed w
       exec (.memInjectCorrectable a w) s = s.becomes (m0.setByte a (s.m.byte a ^^^ 1#8)) ∧
       (s.ends (exec (.memInjectUncorrectable a w) s) fun m => (∀ k, k < 3 → m.byte (a + k) = s.m.byte (a + k) ^^^ 1#8) ∧
         (∀ x, x < a ∨ a + 3 ≤ x → m.byte x = s.m.byte x) ∧ m = { m0 with mem := m.mem }) ∧
       exec (.memInjectPoison a w) s = s.becomes (m0.putLine (a / 32) (s.m.bytes a 32) true)) ∧
     (∀ w a, s.m.admits w false → s.m.injectOk a = false →
       ∀ c ∈ [Instr.memInjectCorrectable a w, .memInjectUncorrectable a w, .memInjectPoison a w],
         exec c s = s.becomes (s.m.accessed w)) ∧
     (∀ store unit, let k := 128 * store + unit
       let at' := Tab.read (fun _ => 0) s.m.scrubAt k
       let on := bit (s.m.reg Reg.memCtl) 1 && (store == 0 || (decide (unit < 8) && s.m.setState unit == 3))
       (on = true → at' + 1 < scrubLines store → exec (.scrubLine store unit) s = s.becomes
         (let m := (readLine (s.m.scrubTarget store unit at') s.m).2
          { m with scrubAt := Tab.put (fun _ => 0) m.scrubAt k (at' + 1) })) ∧
       (on = false → exec (.scrubLine store unit) s = .next s)) ∧
     (∀ ctrl rate, s.m.setState (ctrl / 3) = 3 → exec (.refresh ctrl rate) s = s.becomes
       (s.m.setReg (Reg.memSetState (ctrl / 3)) (setBits (s.m.reg (Reg.memSetState (ctrl / 3))) 18 16 rate))) ∧
     (∀ ctrl rate, s.m.setState (ctrl / 3) ≠ 3 → exec (.refresh ctrl rate) s = .next s) ∧
     ∀ ctrl, exec (.zqCalibration ctrl) s = .next s)

/-! ## Registers (chapters 0 and 12) -/

/-- R10, R12, R318, R425: a write that reaches a register acts by its access code: RW takes the writable bits, W1C clears those
written 1, IL takes them where the image marks the setting host-adjustable and is counted where not, and every other is ignored. A write
to a reserved offset is ignored. One of the wrong size or alignment is discarded, or ends the jobs of the control core that made it.
R124, R315, R319, R378: and so does every command that is an access of the register space or of the mailbox. While a push of its writer
is held, the host's wait in order and a control core makes none; the host's is refused and counted for want of IDE, and reaches only the
management block before bit 126. -/
def Obligations.RegisterWritesFollowAccessCode : Prop :=
  (∀ (s : State) (writer off size value : Nat), s.m.board.live = true →
     let write := exec (.registerWrite writer off size value) s
     let m0 := s.m.accessed writer
     let ok := (size = 4 ∨ size = 8) ∧ off % size = 0
     let reaches := s.m.admits writer (decide (off < 0x100000)) ∧ ok
     (reaches → ∀ r : RegRow, off < 0x1000000 → ownRule off = false → s.m.resolve off = some (r, off, 0) → size ≤ r.size →
       let old := s.m.reg off
       let m := r.mask &&& (2 ^ (8 * size) - 1)
       let v := trunc (8 * size) value
       let taken := m0.setReg off (old - (old &&& m) + (v &&& m))
       (r.acc = .rw → write = s.becomes taken) ∧
       (r.acc = .w1c → write = s.becomes (m0.setReg off (old - (old &&& v &&& m)))) ∧
       (r.acc = .il → off ∈ s.m.boot.adj → write = s.becomes { taken with boot := { s.m.boot with
         changed := if off ∈ s.m.boot.changed then s.m.boot.changed else s.m.boot.changed ++ [off] } }) ∧
       (r.acc = .il → off ∉ s.m.boot.adj →
         write = s.becomes (m0.setReg Reg.hstIlRejects (trunc 64 (s.m.reg Reg.hstIlRejects + 1)))) ∧
       (r.acc ≠ .rw → r.acc ≠ .w1c → r.acc ≠ .il → write = s.becomes m0)) ∧
     (reaches → size = 4 → s.m.resolve off = none →
       write = s.becomes (if cxlBlock off then (compWrite (off / 4 * 4) (trunc 32 value) m0).2 else m0)) ∧
     (s.m.admits writer (decide (off < 0x100000)) → ¬ ok →
       write = s.becomes (if writer = 0 then m0 else (endJobsOn (s.m.runningAt (writer - 1)) 1 m0).2)) ∧
     (s.m.stalled writer = true → write = s.becomes (if writer = 0 then s.m.hostHeld (.registerWrite writer off size value) else s.m)) ∧
     (writer = 0 → s.m.hostWaits = false → s.m.ideOk = false → write = s.becomes s.m.refusedOnce)) ∧
  ∀ (s : State) (c : Instr) (w : Nat) (mgmt : Bool), s.m.board.live = true →
    (writesReg c = some (w, mgmt) ∨ readsReg c = some (w, mgmt) → s.m.stalled w = true →
      exec c s = s.becomes (if w = 0 then s.m.hostHeld c else s.m)) ∧
    (writesReg c = some (0, mgmt) → s.m.hostWaits = false → s.m.ideOk = false → exec c s = s.becomes s.m.refusedOnce) ∧
    (writesReg c = some (0, false) → s.m.hostWaits = false → s.m.ideOk = true → bit (s.m.reg Reg.mgtReadyMap) 126 = false →
      exec c s = .next s) ∧
    (readsReg c = some (0, mgmt) → s.m.hostWaits = false → s.m.ideOk = false →
      exec c s = s.becomes (s.m.refusedOnce.out (.cpl 1 false []))) ∧
    (readsReg c = some (0, false) → s.m.hostWaits = false → s.m.ideOk = true → bit (s.m.reg Reg.mgtReadyMap) 126 = false →
      exec c s = s.becomes (s.m.out (.regData 0))) ∧
    (toMailbox c = true → s.m.hostWaits = true → exec c s = s.becomes (s.m.hostHeld c)) ∧
    (toMailbox c = true → s.m.hostWaits = false → s.m.mailboxOpen = false → exec c s = .next s)

/-- R10 to R12, R301, R319, R378, R425: a read answers, to the host or the control core that made it, what the register shows, and clears
it if its access is RC; zero where the offset is reserved, the register write-only or the window not open; Unsupported Request where the
host's is refused. A control core's of the wrong size or alignment faults it. -/
def Obligations.RegisterReadsFollowAccessCode : Prop := ∀ (s : State) (w off size : Nat), s.m.board.live = true →
  let read := exec (.rcRegisterRead off size w) s
  let m0 := s.m.accessed w
  let ok := (size = 4 ∨ size = 8) ∧ off % size = 0
  let answer := fun (m : M) (v : Nat) => s.becomes (m.out (if w = 0 then .regData v else .coreData (w - 1) v))
  let opened := s.m.admits w (decide (off < 0x100000)) ∧ ok
  (opened → ∀ r : RegRow, off < 0x1000000 → s.m.resolve off = some (r, off, 0) → size ≤ r.size →
    ¬ (0x230100 ≤ off ∧ off < 0x230120) → ¬ (0x310000 ≤ off ∧ off < 0x320000) →
    (r.acc = .wo → read = answer m0 0) ∧
    (r.acc = .rc → read = answer (m0.setReg off (s.m.reg off - (s.m.reg off &&& (2 ^ (8 * size) - 1))))
      (trunc (8 * size) (s.m.blockValue off))) ∧
    (r.acc ≠ .wo → r.acc ≠ .rc → read = answer m0 (trunc (8 * size) (s.m.blockValue off)))) ∧
  (opened → size = 4 → s.m.resolve off = none → read = answer m0 (if cxlBlock off then s.m.compDword (off / 4 * 4) else 0)) ∧
  (w = 0 → s.m.hostWaits = false → ok → s.m.ideOk = true → bit (s.m.reg Reg.mgtReadyMap) 126 = false → 0x100000 ≤ off →
    read = answer s.m 0) ∧
  (w = 0 → s.m.hostWaits = false → ¬ ok ∨ s.m.ideOk = false → read = s.becomes ((refused s.m).2.out (.cpl 1 false []))) ∧
  (w ≠ 0 → s.m.stalled w = false → ¬ ok → read = s.becomes (endJobsOn (s.m.runningAt (w - 1)) 1 m0).2) ∧
  (s.m.stalled w = true → read = s.becomes (if w = 0 then s.m.hostHeld (.rcRegisterRead off size w) else s.m))

/-! ## Host jobs (chapter 12) -/

/-- R321, R316: a doorbell moves WR if it lies in the window; a reset of a disabled, idle queue discards what it holds; when a
hold-off ends, a completion written during it is signalled once. R305 to R308, R314: an entry is fetched while its queue is
enabled and the link up: it waits if it is sound, else it completes at once with the status of its fault; a MARKER completes
once all before it have, and a job whose required bits stay clear at the time limit that it latched, its own or the default, completes
with status 8. -/
def Obligations.JobQueuesAndEntries : Prop :=
  (∀ (s : State) (q : Nat), s.m.board.live = true → s.m.wf = true →
     (∀ by' w, s.m.admits by' false → q < 64 →
       let d := s.m.reg (Reg.hstQDone q)
       let from' := fun x => trunc 32 (x + 2 ^ 32 - d)
       let ok := from' (s.m.reg (Reg.hstQWr q)) ≤ from' w ∧ from' w ≤ 2 ^ s.m.qLog2 q
       (ok → exec (.hstQDoorbell q w by') s = s.becomes ((s.m.accessed by').setReg (Reg.hstQWr q) (trunc 32 w))) ∧
       (¬ ok → exec (.hstQDoorbell q w by') s = s.becomes (s.m.accessed by'))) ∧
     (∀ by' v, s.m.admits by' false → q < 64 →
       (bit v 0 = true ∧ s.m.qIdle q = true → s.ends (exec (.hstQReset q v by') s) fun m =>
         m.reg (Reg.hstQFetched q) = s.m.reg (Reg.hstQWr q) ∧ m.reg (Reg.hstQDone q) = s.m.reg (Reg.hstQWr q) ∧
         m.reg (Reg.hstQWr q) = s.m.reg (Reg.hstQWr q) ∧
         m.queue q = { s.m.queue q with jobs := [], written := [], marks := [], watch := none } ∧
         (∀ k, k ≠ q → m.queue k = s.m.queue k) ∧ m.cores = s.m.cores ∧ s.m.sameStores m) ∧
       (bit v 0 = false ∨ s.m.qIdle q = false → exec (.hstQReset q v by') s = s.becomes (s.m.accessed by'))) ∧
     (∀ by' v, s.m.admits by' false → 64 ≤ q → ∀ c ∈ [Instr.hstQDoorbell q v by', .hstQReset q v by', .hstQAbort q v by'],
       exec c s = s.becomes (s.m.accessed by')) ∧
     ((s.m.queue q).holding = true → (s.m.queue q).owed = true → exec (.interruptHoldoffExpiry q) s = s.becomes
       { s.m.toHost (.msix q) with hostQ := Tab.put HostQ.init s.m.hostQ q { s.m.queue q with owed := false } }) ∧
     ((s.m.queue q).holding = true → (s.m.queue q).owed = false → exec (.interruptHoldoffExpiry q) s = s.becomes
       { s.m with hostQ := Tab.put HostQ.init s.m.hostQ q { s.m.queue q with holding := false } }) ∧
     ((s.m.queue q).holding = false → exec (.interruptHoldoffExpiry q) s = .next s)) ∧
  (∀ (s : State) (q : Nat), s.m.board.live = true →
     (∀ bytes poison, let x := s.m.reg (Reg.hstQFetched q)
       let entry : Job := { x := x, entry := leNat bytes }
       let j := { entry with limit := if entry.admitMs = 0 then s.m.admitDefault else entry.admitMs }
       let go := bit (s.m.reg (Reg.hstQCtl q)) 31 = true ∧ x ≠ s.m.reg (Reg.hstQWr q) ∧ bits (s.m.reg Reg.hstStatus) 31 30 ≠ 0
       let fetched : M := { (s.m.setReg (Reg.hstQFetched q) (trunc 32 (x + 1))).out
           (.hostRead (s.m.reg (Reg.hstQBase q) + 128 * (x % 2 ^ s.m.qLog2 q)) 128) with
         hostQ := Tab.put HostQ.init s.m.hostQ q { s.m.queue q with jobs := (s.m.queue q).jobs ++ [j] } }
       let marked := x ∈ (s.m.queue q).marks
       let ends := fun status : Nat => s.becomes (complete q j status 0xFF 0 0 0 fetched).2
       (go → ¬ marked → poison = false → j.ok s.m = true → exec (.jobEntryFetch q bytes poison) s = s.becomes fetched) ∧
       (go → marked → exec (.jobEntryFetch q bytes poison) s = ends 4) ∧
       (go → ¬ marked → poison = true → exec (.jobEntryFetch q bytes poison) s = ends 3) ∧
       (go → ¬ marked → poison = false → j.ok s.m = false → exec (.jobEntryFetch q bytes poison) s = ends 1) ∧
       (¬ go → exec (.jobEntryFetch q bytes poison) s = .next s)) ∧
     (∀ x j, (s.m.queue q).jobs.find? (fun j => j.x == x && j.kind == 1) = some j →
       (s.m.reg (Reg.hstQDone q) = x → exec (.markerComplete q x) s = s.becomes (complete q j 0 0xFF 0 0 0 s.m).2) ∧
       (s.m.reg (Reg.hstQDone q) ≠ x → exec (.markerComplete q x) s = .next s)) ∧
     (∀ x ms j, s.m.waitingJob q x = some j →
       (s.m.coresFree j = true → s.m.requiredSet j = false → j.limit ≤ ms →
         exec (.admissionTimeout q x ms) s = s.becomes (complete q j 8 0xFF 0 0 0 s.m).2) ∧
       (s.m.coresFree j = false ∨ s.m.requiredSet j = true ∨ ms < j.limit → exec (.admissionTimeout q x ms) s = .next s)))

/-- R305, R312 to R316: a completion: its record of 64 bytes is written to the host at the entry's place, in one write where
the queue has ItoM and the link is CXL, else in two; the entry leaves the queue; DONE passes every completion that is now
contiguous; and vector q is signalled, or owed while a hold-off runs. While the link is down the completion waits, is counted, and does
not move DONE. -/
def Obligations.CompletionsReported : Prop := ∀ (m : M) (q : Nat) (j : Job) (status core result step runMs : Nat),
  m.wf = true → q < 64 →
  let link := bits (m.reg Reg.hstStatus) 31 30
  let log2 := m.qLog2 q
  let a := m.reg (Reg.hstQCmpl q) + 64 * (j.x % 2 ^ log2)
  let r := j.record log2 status core result step runMs
  let ctl := m.reg (Reg.hstQCtl q)
  let n := (complete q j status core result step runMs m).2
  r.length = 64 ∧ leNat (r.take 2) = trunc 16 status ∧
  (link ≠ 0 → bit ctl 30 = true ∧ link ≠ 1 → Output.hostWrite true a r ∈ n.outs) ∧
  (link ≠ 0 → bit ctl 30 = false ∨ link = 1 →
    Output.hostWrite false a (r.take 60) ∈ n.outs ∧ Output.hostWrite false (a + 60) (r.drop 60) ∈ n.outs) ∧
  (n.queue q).jobs = (m.queue q).jobs.filter (·.x != j.x) ∧ (n.queue q).marks = (m.queue q).marks.filter (· != j.x) ∧
  n.reg (Reg.hstQDone q) ∉ (n.queue q).written ∧
  (link ≠ 0 → (m.queue q).written = [] → m.reg (Reg.hstQDone q) = j.x → n.reg (Reg.hstQDone q) = trunc 32 (j.x + 1)) ∧
  ((m.queue q).watch = some j.x → n.reg (Reg.hstQAbortResult q) = 2 <<< 30 + trunc 16 status) ∧
  (link = 0 → n.outs = m.outs ∧ (n.queue q).late = (m.queue q).late ++ [j.x] ∧
    n.cxl.held = m.cxl.held ++ .hostWrite (bit ctl 30) a r ::
      (if bit ctl 29 = true ∧ (m.queue q).holding = false then [.msix q] else []) ∧
    n.reg Reg.hstCmplHeld = trunc 32 (m.reg Reg.hstCmplHeld + 1) ∧
    (m.reg (Reg.hstQDone q) ∉ (m.queue q).written → n.reg (Reg.hstQDone q) = m.reg (Reg.hstQDone q))) ∧
  (link ≠ 0 → bit ctl 29 = true → (m.queue q).holding = false →
    n.outs.head? = some (.msix q) ∧ (n.queue q).holding = (bits ctl 15 0 != 0)) ∧
  (bit ctl 29 = true → (m.queue q).holding = true → (n.queue q).owed = true) ∧
  m.sameStores n ∧ n.cores = m.cores ∧ ∀ k, k ≠ q → n.queue k = m.queue k

/-- R308, R309, R310: admission takes every core that a job names in one action: each is prepared with its job state, its
argument, its place and its tag, its rings and passes empty; a job whose cores are busy, whose required bits are clear, or
which is serial and not next, waits, and of several that do not, that of the lowest queue and entry goes first (that they are those of
one cycle is the model's reading, log 105). The exit call stops a control core, and the job completes once all its cores have
called and drained, with the first non-zero exit as status. -/
def Obligations.JobsAdmittedAndCompleted : Prop := ∀ (s : State) (q x : Nat), s.m.board.live = true → s.m.wf = true →
  let ready := fun (q : Nat) (j : Job) => j.running = false ∧ j.kind = 0 ∧ s.m.coresFree j = true ∧ s.m.requiredSet j = true ∧
    (j.serial = true → s.m.reg (Reg.hstQDone q) = j.x) ∧ s.m.board.stopped = false
  (s.m.nextAdmitted = some (q, x) → q < 64 ∧ (∀ p, p < q → ∀ k ∈ (s.m.queue p).jobs, ¬ ready p k) ∧
    ∃ l j r, (s.m.queue q).jobs = l ++ j :: r ∧ j.x = x ∧ ready q j ∧ ∀ k ∈ l, ¬ ready q k) ∧
  (s.m.nextAdmitted = none → ∀ p, p < 64 → ∀ k ∈ (s.m.queue p).jobs, ¬ ready p k) ∧
  (∀ j us, s.m.waitingJob q x = some j →
    let free := s.m.nextAdmitted = some (q, x)
    (free → j.stateEn = false → s.ends (exec (.jobAdmission q x us) s) fun m =>
      (∃ y, m.runningJob q x = some y ∧ y.entry = j.entry ∧ y.wait = satU 32 us) ∧
      (∀ k n, j.cores[k]? = some n → let c := m.core n
        c.job = some (q, x) ∧ c.exited = none ∧ c.ctl.pc = j.pc ∧ c.ctl.running = true ∧ c.ctl.machine = false ∧
        c.ctl.x = (((s.m.core n).ctl.x.set 9 j.arg).set 10 k).set 11 j.tag ∧ m.jobRecord n = seedRecord j.seed ∧
        (∀ p, p < 256 → m.reg (Reg.corePassCount n p) = 0) ∧
        (∀ e, e < 4 → m.reg (Reg.coreRingCtl n e) = 0 ∧ (m.ring n e).infl = [] ∧
          m.reg (Reg.coreRingRd n e) = m.reg (Reg.coreRingWr n e) ∧ m.reg (Reg.coreRingRet n e) = m.reg (Reg.coreRingWr n e))) ∧
      (∀ n, n ∉ j.cores → m.core n = s.m.core n) ∧ s.m.sameStores m) ∧
    (¬ free → exec (.jobAdmission q x us) s = .next s)) ∧
  (∀ core a0 a1, (s.m.core core).job.isSome = true → (s.m.core core).ctl.running = true →
    s.ends (exec (.ecallExit core a0 a1) s) fun m => m.core core = { s.m.core core with
      exited := some (a0, a1), ctl := { (s.m.core core).ctl with running := false } } ∧
      (∀ n, n ≠ core → m.core n = s.m.core n) ∧ s.m.sameStores m) ∧
  (∀ core a0 a1, (s.m.core core).job.isSome = false ∨ (s.m.core core).ctl.running = false →
    exec (.ecallExit core a0 a1) s = .next s) ∧
  ∀ j ms, s.m.runningJob q x = some j →
    (j.cores.all s.m.coreDone = false → exec (.jobComplete q x ms) s = .next s) ∧
    (j.cores.all s.m.coreDone = true → ∃ m1 : M, (∀ n ∈ j.cores, m1.core n = { s.m.core n with job := none, exited := none }) ∧
      (∀ n, n ∉ j.cores → m1.core n = s.m.core n) ∧ { m1 with cores := s.m.cores } = s.m ∧
      ((∀ n ∈ j.cores, ∃ a1, (s.m.core n).exited = some (0, a1)) → exec (.jobComplete q x ms) s = s.becomes
        (complete q j 0 0xFF ((j.cores.map fun n => ((s.m.core n).exited.getD (0, 0)).2).headD 0) (s.m.jobStep j) ms m1).2) ∧
      (∀ n a0 a1, n ∈ j.cores → (s.m.core n).exited = some (a0, a1) → a0 ≠ 0 →
        (∀ k ∈ j.cores, k < n → ∃ b, (s.m.core k).exited = some (0, b)) →
        exec (.jobComplete q x ms) s = s.becomes (complete q j (exitStatus a0) n a1 (s.m.jobStep j) ms m1).2))

/-- R137, R311, R314: a job that outruns its limit, or is aborted, ends on all its cores: they hold no job, run nothing and
have nothing in their rings, and its entry leaves the queue; an abort before the fetch marks the entry, one beyond WR has no
effect, and one of an entry that is gone answers 0xD. -/
def Obligations.JobsEndedEarly : Prop := ∀ (s : State) (q x : Nat), s.m.board.live = true → s.m.wf = true → q < 64 →
  let ended := fun (j : Job) (m : M) => m.runningJob q x = none ∧ ∀ n ∈ j.cores, n < s.m.nCores →
    (m.core n).job = none ∧ (m.core n).ctl.running = false ∧ ∀ e, e < 4 → m.reg (Reg.coreRingCtl n e) = 0 ∧
      m.reg (Reg.coreRingRd n e) = m.reg (Reg.coreRingWr n e) ∧ m.reg (Reg.coreRingRet n e) = m.reg (Reg.coreRingWr n e)
  (∀ j ms, s.m.runningJob q x = some j →
    (j.runMs ≠ 0 → j.runMs ≤ ms → s.ends (exec (.jobRunTimeout q x ms) s) (ended j)) ∧
    (j.runMs = 0 ∨ ms < j.runMs → exec (.jobRunTimeout q x ms) s = .next s)) ∧
  ∀ by', s.m.admits by' false →
  let wr := s.m.reg (Reg.hstQWr q)
  let fetched := s.m.reg (Reg.hstQFetched q)
  (atOrAfter x wr = true → exec (.hstQAbort q x by') s = s.becomes { (s.m.accessed by').setReg (Reg.hstQAbortResult q) 0 with
      hostQ := Tab.put HostQ.init s.m.hostQ q { s.m.queue q with watch := none } }) ∧
  (atOrAfter x wr = false → atOrAfter x fetched = true → s.ends (exec (.hstQAbort q x by') s) fun m =>
    m.reg (Reg.hstQAbortResult q) = 1 <<< 30 ∧ x ∈ (m.queue q).marks ∧ (m.queue q).watch = some x ∧
    (m.queue q).jobs = (s.m.queue q).jobs ∧ m.cores = s.m.cores ∧ s.m.sameStores m) ∧
  (atOrAfter x wr = false → atOrAfter x fetched = false → ((∀ j ∈ (s.m.queue q).jobs, j.x ≠ x) →
    s.ends (exec (.hstQAbort q x by') s) fun m => m.reg (Reg.hstQAbortResult q) = 2 <<< 30 + 0xD ∧
      m.queue q = { s.m.queue q with watch := none } ∧ m.cores = s.m.cores) ∧
    ∀ j, (s.m.queue q).jobs.find? (·.x = x) = some j → s.ends (exec (.hstQAbort q x by') s) fun m =>
      m.reg (Reg.hstQAbortResult q) = 2 <<< 30 + 4 ∧
      (∀ k ∈ (m.queue q).jobs, k.x ≠ x) ∧ (j.running = true → ended j m))

/-- R297, R298, R300, R319, R320, R378: what the link and its resets do. Going down clears the link's bits; coming up shows mode,
lanes and speed, sends what was held in order, and counts what was held as completed; a hot reset and a Function Level Reset free every
core, reset every queue, and clear MSI-X and BAR settings and no others; a configuration write is kept and a read answered, and the BARs
read back with their sizes; a loss of IDE integrity ends both streams, and the host's accesses are refused. -/
def Obligations.LinkEventsAndResets : Prop := ∀ s : State, s.m.board.live = true → s.m.wf = true →
  exec .cxlLinkDown s = s.becomes (s.m.setReg Reg.hstStatus (setBits (s.m.reg Reg.hstStatus) 31 23 0)) ∧
  (∀ (cxl : Bool) lanes speed, let ok := bits (s.m.reg Reg.hstStatus) 31 30 = 0 ∧ lanes ∈ [4, 8, 16] ∧ speed ∈ [8, 16, 32]
    let sent := s.m.cxl.held.flatMap fun o => match o with
      | .hostWrite itom a r => completionWrites (itom && cxl) a r
      | o => [o]
    (ok → s.ends (exec (.cxlLinkUp cxl lanes speed) s) fun m => bits (m.reg Reg.hstStatus) 31 30 = (if cxl then 2 else 1) ∧
      bits (m.reg Reg.hstStatus) 29 25 = lanes ∧ bits (m.reg Reg.hstStatus) 24 23 = speedCode speed ∧
      m.outs = sent.reverse ++ s.m.outs ∧ m.cxl = { s.m.cxl with held := [] } ∧ m.reg Reg.hstCmplHeld = 0 ∧
      (∀ q, q < 64 → (m.queue q).late = [] ∧ (m.queue q).jobs = (s.m.queue q).jobs ∧
        ((s.m.queue q).late ≠ [] → m.reg (Reg.hstQDone q) ∉ (m.queue q).written)) ∧
      m.cores = s.m.cores ∧ s.m.sameStores m) ∧
    (¬ ok → exec (.cxlLinkUp cxl lanes speed) s = .next s)) ∧
  (∀ c ∈ [Instr.hotReset, .functionLevelReset], s.ends (exec c s) fun m =>
    (∀ n, n < s.m.nCores → (m.core n).job = none) ∧
    m.cxl.cfg = s.m.cxl.cfg.filter (fun x => !cfgCleared x.1) ∧
    (∀ q, q < 64 → m.queue q = {} ∧ ∀ r ∈ [Reg.hstQBase q, Reg.hstQCmpl q, Reg.hstQCtl q, Reg.hstQWr q, Reg.hstQFetched q,
      Reg.hstQDone q, Reg.hstQAbortResult q], m.reg r = Reg.dflt r) ∧
    m.fuses = s.m.fuses ∧ m.sec.still = s.m.sec.still ∧ m.boot.flash = s.m.boot.flash) ∧
  (∀ o v, let at' := o / 4 * 4
    let m1 := if Config.doeCap ≤ at' then (doeWrite (at' - Config.doeCap) (trunc 32 v) s.m).2 else s.m
    exec (.configRequest true o v) s = s.becomes { m1 with cxl := { m1.cxl with
      cfg := (s.m.cxl.cfg.filter (·.1 ≠ at')) ++ [(at', trunc 32 v)] } }) ∧
  (∀ o v, exec (.configRequest false o v) s = s.becomes (s.m.out (.cfgData (trunc 32 (s.m.cfgDword o))))) ∧
  (∀ x ∈ [(0x10, 0xF0000004), (0x14, 0xFFFFFFFF), (0x18, 0xC), (0x1C, 0xFFFFFFFC), (0x20, 0), (0x24, 0)],
    s.m.cxl.cfg.find? (·.1 = x.1) = some (x.1, 0xFFFFFFFF) →
    ∀ v, exec (.configRequest false x.1 v) s = s.becomes (s.m.out (.cfgData x.2))) ∧
  s.ends (exec .ideIntegrityFailure s) fun m => m.ideOk = false ∧
    m = { s.m.setReg Reg.hstStatus (setBits (s.m.reg Reg.hstStatus) 22 21 0) with
      sec := { s.m.sec with ide := [] }, cxl := { s.m.cxl with ideLost := true } }

/-! ## Engine rings (chapter 5) -/

/-- R123, R124, R315: the words of a record assemble in order per writer; the fourth enters the record at WR and WR moves by
one; a word out of order is discarded with PUSH_ORDER; on a full ring the writer stalls with its word until there is room, or until a
host push has been held for its limit and is discarded. Then the accesses that waited behind it for the host are done in order, unless
one of them stalls again. -/
def Obligations.RecordsPushed : Prop :=
  (∀ (s : State) (w n e : Nat), s.m.board.live = true → s.m.wf = true → n < s.m.nCores → e < 4 →
     let m0 := s.m.accessed w
     let a := s.m.asm n e w
     let x := s.m.reg (Reg.coreRingWr n e)
     let addr := s.m.recAddr n e x
     let stall := fun (k v : Nat) => { m0.withAsm n e w { a with stalled := some (k, v) } with
       heldBy := Tab.put (fun _ => 0) s.m.heldBy w (1 + 4 * n + e) }
     let committed := fun (ws : List Nat) (m : M) => m.reg (Reg.coreRingWr n e) = trunc 32 (x + 1) ∧
       (m.ring n e).asm = Tab.put (fun _ => PushAsm.init) (s.m.ring n e).asm w {} ∧ (∀ k, k ≠ n → m.core k = s.m.core k) ∧
       (m.ring n e).infl = (s.m.ring n e).infl ∧
       (inRegion addr 32 = true → addr % 32 = 0 → m.bytes addr 32 = leBytes 32 (packCodes 64 ws)) ∧
       ∀ b, b < addr ∨ addr + 32 ≤ b → addr % 32 = 0 → m.byte b = s.m.byte b
     let disorder := fun m : M => bit (m.reg (Reg.coreRingState n e)) 27 = true ∧ m.cores = s.m.cores ∧
       m.heldBy = s.m.heldBy ∧ s.m.sameStores m ∧ m.reg (Reg.coreRingWr n e) = x
     (s.m.admits w false → ∀ v, (s.m.ringFull n e = false →
         exec (.ringPushWord w n e 0 v) s = s.becomes (m0.withAsm n e w { words := [v] })) ∧
       (s.m.ringFull n e = true → exec (.ringPushWord w n e 0 v) s = s.becomes (stall 0 v)) ∧
       (∀ k, 1 ≤ k → k ≤ 2 → (a.words.length = k →
           exec (.ringPushWord w n e k v) s = s.becomes (m0.withAsm n e w { words := a.words ++ [v] })) ∧
         (a.words.length ≠ k → s.ends (exec (.ringPushWord w n e k v) s) disorder)) ∧
       (a.words.length = 3 → s.m.ringFull n e = false →
         s.ends (exec (.ringPushCommit w n e v) s) (committed (a.words ++ [v]))) ∧
       (a.words.length = 3 → s.m.ringFull n e = true → exec (.ringPushCommit w n e v) s = s.becomes (stall 3 v)) ∧
       (a.words.length ≠ 3 → s.ends (exec (.ringPushCommit w n e v) s) disorder)) ∧
     (∀ k v, ∀ c ∈ [Instr.ringPushWord w n e k v, .ringPushCommit w n e v],
       (s.m.stalled w = true → exec c s = s.becomes (if w = 0 then s.m.hostHeld c else s.m)) ∧
       (s.m.stalled w = false → w = 0 → s.m.ideOk = false → exec c s = s.becomes s.m.refusedOnce)) ∧
     (a.stalled = none ∨ s.m.ringFull n e = true → exec (.ringPushResume w n e) s = release s) ∧
     (∀ v, a.stalled = some (0, v) → s.m.ringFull n e = false → exec (.ringPushResume w n e) s = release (
       { s with m := { s.m.withAsm n e w { words := [v] } with heldBy := Tab.put (fun _ => 0) s.m.heldBy w 0 } })) ∧
     (∀ v, a.stalled = some (3, v) → a.words.length = 3 → s.m.ringFull n e = false →
       (∃ m, exec (.ringPushResume w n e) s = release { s with m := m } ∧ committed (a.words ++ [v]) m ∧ m.stalled w = false) ∧
       (s.m.cxl.waiting = [] → s.ends (exec (.ringPushResume w n e) s) (committed (a.words ++ [v])))) ∧
     (∀ us, s.m.pushLimit ≤ us → (s.m.asm n e 0).stalled.isSome = true → s.m.ringFull n e = true →
       let dropped := { (s.m.withAsm n e 0 {}).setReg Reg.hstPushDrops (trunc 64 (s.m.reg Reg.hstPushDrops + 1)) with
         heldBy := Tab.put (fun _ => 0) s.m.heldBy 0 0 }
       exec (.hostPushTimeout n e us) s = release { s with m := dropped } ∧
       (s.m.cxl.waiting = [] → exec (.hostPushTimeout n e us) s = s.becomes dropped)) ∧
     (∀ us, us < s.m.pushLimit ∨ (s.m.asm n e 0).stalled = none ∨ s.m.ringFull n e = false →
       exec (.hostPushTimeout n e us) s = release s)) ∧
  (∀ s : State, (s.m.hostWaits = true ∨ s.m.cxl.waiting = [] → release s = .next s) ∧
     ∀ c l, s.m.hostWaits = false → s.m.cxl.waiting = c :: l →
       release s = andThen (redo c { s with m := { s.m with cxl := { s.m.cxl with waiting := [] } } }) (redoAll l)) ∧
  (∀ (s t : State) (c : Instr) (l : List Instr), redoAll [] s = .next s ∧
     (redo c s = .next t → redoAll (c :: l) s = redoAll l t)) ∧
  ∀ (s : State) (c : Instr), mayWait c = true ∨ toMailbox c = true → redo c s = exec c s

/-- R123, R127, R131, R139: RUN starts a ring of sound shape, and halts one of unsound shape with STATUS_BAD_FIELD; a reset
makes RD and RET equal WR and forgets what was in flight; a write of CORE_PASS_THROW adds to the pass, or sets its error bit
where the count would exceed 65,535. There is no core outside the grade (R12). -/
def Obligations.RingRunResetAndThrow : Prop := ∀ (s : State) (w n e : Nat), s.m.board.live = true → s.m.wf = true →
  s.m.admits w false → e < 4 →
  let m0 := s.m.accessed w
  let wr := s.m.reg (Reg.coreRingWr n e)
  let stopped := s.m.ringRun n e = false ∧ bit (s.m.reg (Reg.coreRingState n e)) 28 = false
  (n < s.m.nCores →
    (stopped → s.m.ringShapeOk n e = true → s.ends (exec (.coreRingCtlRun n e w) s) fun m => m.ringRun n e = true ∧
      ((s.m.ring n e).marks = [] → m = m0.setReg (Reg.coreRingCtl n e) 1)) ∧
    (stopped → s.m.ringShapeOk n e = false → s.ends (exec (.coreRingCtlRun n e w) s) fun m =>
      m.haltedAt n e (s.m.reg (Reg.coreRingRd n e)) 1 ∧ m.core n = (s.m.core n).interrupted 0 ∧
      (∀ k, k ≠ n → m.core k = s.m.core k) ∧ s.m.sameStores m) ∧
    (s.m.ringRun n e = true ∨ bit (s.m.reg (Reg.coreRingState n e)) 28 = true →
      exec (.coreRingCtlRun n e w) s = s.becomes m0) ∧
    (s.m.ringRun n e = false → s.ends (exec (.coreRingReset n e w) s) fun m =>
      m.reg (Reg.coreRingRd n e) = wr ∧ m.reg (Reg.coreRingRet n e) = wr ∧ m.reg (Reg.coreRingWr n e) = wr ∧
      bits (m.reg (Reg.coreRingState n e)) 15 0 = 0 ∧ bit (m.reg (Reg.coreRingState n e)) 28 = false ∧
      m.ring n e = { s.m.ring n e with infl := [], marks := [], credit := false, waited := 0, reserved := false, dec := none,
                                       watch := none } ∧
      (∀ k, k < 2 → (m.core n).slot k =
        if e = 1 ∧ ((s.m.core n).slot k).state = .draining then {} else (s.m.core n).slot k) ∧
      (∀ k, k ≠ n → m.core k = s.m.core k) ∧ s.m.sameStores m) ∧
    (s.m.ringRun n e = true → exec (.coreRingReset n e w) s = s.becomes m0) ∧
    ∀ p k, let c := s.m.reg (Reg.corePassCount n p)
      (c + k ≤ 65535 → exec (.corePassThrow n p k w) s = s.becomes (m0.setReg (Reg.corePassCount n p) (c + k))) ∧
      (65535 < c + k → exec (.corePassThrow n p k w) s
        = s.becomes (m0.setReg (Reg.coreStatus n) (setBits (s.m.reg (Reg.coreStatus n)) 0 0 1)))) ∧
  (s.m.nCores ≤ n → ∀ x v, ∀ c ∈ [Instr.ringPushWord w n e x v, .ringPushCommit w n e v, .coreRingCtlRun n e w, .coreRingReset n e w,
      .abortRecord n e x w, .abortRecordAndLater n e x w, .abortJob n e w, .corePassThrow n x v w, .corePlaySync n v w],
    exec c s = s.becomes m0)

/-- R136, R137: an abort of a record not yet issued marks it, or passes it on as aborted at once if it is next; one in flight is aborted
where it stands; one that has retired answers 0xD and one beyond WR does nothing; an abort of later records reaches them all;
an abort of the job ends it on all its cores. -/
def Obligations.AbortsReachRecords : Prop := ∀ (s : State) (w n e x : Nat), s.m.board.live = true → s.m.wf = true →
  s.m.admits w false → n < s.m.nCores → e < 4 →
  let m0 := s.m.accessed w
  let wr := s.m.reg (Reg.coreRingWr n e)
  let result := fun m : M => m.reg (Reg.coreRingAbortResult n e)
  let reached := fun (m : M) (y : Nat) => y ∈ (m.ring n e).marks ∨ ∃ f ∈ (m.ring n e).infl, f.x = y ∧ f.aborted = true
  let inFlight := ∃ f ∈ (s.m.ring n e).infl, f.x = x ∧ f.latched = false
  (atOrAfter x wr = true →
    exec (.abortRecord n e x w) s = .next { s with m := m0.setReg (Reg.coreRingAbortResult n e) 0 } ∧
    exec (.abortRecordAndLater n e x w) s = .next { s with m := m0.setReg (Reg.coreRingAbortResult n e) 0 }) ∧
  (atOrAfter x wr = false → (inFlight ∨ x ∈ s.m.unissued n e) →
    (∃ m, exec (.abortRecord n e x w) s = .next { s with m := m } ∧
      result m = 1 <<< 30 ∧ (x ∈ s.m.unissued n e → reached m x) ∧ (m.ring n e).watch = some x) ∧
    ∃ m, exec (.abortRecordAndLater n e x w) s = .next { s with m := m } ∧
      result m = 1 <<< 30 ∧ (x ∈ s.m.unissued n e → reached m x) ∧ (m.ring n e).watch = some x ∧
      ∀ y ∈ s.m.unissued n e, atOrAfter y x = true → reached m y) ∧
  (atOrAfter x wr = false → ¬ inFlight → x ∉ s.m.unissued n e →
    (∃ m, exec (.abortRecord n e x w) s = .next { s with m := m } ∧ result m = 2 <<< 30 + 0xD ∧ (m.ring n e).watch = none) ∧
    ∃ m, exec (.abortRecordAndLater n e x w) s = .next { s with m := m } ∧ result m = 2 <<< 30 + 0xD ∧
      (m.ring n e).watch = none ∧ ∀ y ∈ s.m.unissued n e, atOrAfter y x = true → reached m y) ∧
  ((s.m.core n).job = none →
    exec (.abortJob n e w) s = .next { s with m := m0.setReg (Reg.coreRingAbortResult n e) 0 }) ∧
  (∀ q y j, (s.m.core n).job = some (q, y) → s.m.runningJob q y = some j → n ∈ j.cores →
    ∃ m, exec (.abortJob n e w) s = .next { s with m := m } ∧ result m = 2 <<< 30 + 4 ∧ (m.core n).job = none ∧
      (m.core n).ctl.running = false ∧ m.runningJob q y = none ∧ ∀ k, k < 4 → m.ringRun n k = false)

/-- R79, R128, R135, R138, R147, R326, R327: the record at RD is decoded once; it passes the arbitration point when its catch is
satisfied, nothing of its engine is in its way, its slot takes it, and its island holds the credits, with no other engine of the core
going first: the catch and the energy are subtracted, RD moves by one, and the record is in flight with what it latches there. A
STEP_SET, a PHASE_MARK, a STATE_SAVE or a STATE_LOAD has its effect there. It waits else. One that fails decode, or that its slot fails,
halts the ring with its status, and nothing is subtracted. -/
def Obligations.RecordsIssueAtTheArbitrationPoint : Prop := ∀ (s : State) (n e : Nat),
  s.m.board.live = true → s.m.wf = true → n < 120 → e < 4 → (s.m.ring n e).marks = [] →
  (∀ f ∈ (s.m.ring n e).infl, 3 ≤ f.rcd.op → f.rcd.op ≤ 6 → f.started = true) →
  let x := s.m.reg (Reg.coreRingRd n e)
  s.m.canArbitrate n e = true → s.m.ringEmpty n e = false →
  let found := (decodeOnce n e s.m).1
  let m1 := (decodeOnce n e s.m).2
  let p := s.m.posOf n
  let halts := fun (c : Instr) (y status : Nat) => ∃ m, exec c s = .next { s with m := m } ∧ m.haltedAt n e y status ∧
    m.reg (Reg.coreRingRd n e) = x ∧ (∀ q, q < 256 → m.reg (Reg.corePassCount n q) = s.m.reg (Reg.corePassCount n q)) ∧
    (m.ring n e).infl = (s.m.ring n e).infl
  (∀ r, s.m.headRec n e = some r → (s.m.caught n e = true ↔ r.catchN ≤ s.m.reg (Reg.corePassCount n r.catchPass))) ∧
  (∀ f, (s.m.ring n e).dec = some f → found = .inr f ∧ m1 = s.m) ∧
  ((s.m.ring n e).dec = none → let d := (decode n e x s.m).1
    let t := (decode n e x s.m).2
    (d.status = 0 → found = .inr (d.entry x) ∧ m1 = t.withRing n e fun g => { g with dec := some (d.entry x) }) ∧
    (d.status ≠ 0 → found = .inl d.status ∧ m1 = t)) ∧
  (s.m.caught n e = false → exec (.catchGrant n e) s = .next s ∧ exec (.decodeFailure n e) s = .next s) ∧
  (s.m.caught n e = true →
    (∀ status, found = .inl status → halts (.catchGrant n e) x status ∧ halts (.decodeFailure n e) x status) ∧
    ∀ f, found = .inr f →
      (m1.engineBusy n e f.rcd = true → exec (.catchGrant n e) s = .next { s with m := m1 }) ∧
      (m1.engineBusy n e f.rcd = false → m1.atSlot n f = none →
        halts (.catchGrant n e) f.x 1 ∧ halts (.decodeFailure n e) f.x 1) ∧
      (m1.engineBusy n e f.rcd = true ∨ m1.atSlot n f ≠ none → exec (.decodeFailure n e) s = .next s) ∧
      (m1.engineBusy n e f.rcd = false → ∀ g, m1.atSlot n f = some g →
        let need := min (m1.energy p e g.cls g.units) creditCap
        let starves := m1.balance p < (need : Int) ∨
          (m1.otherReserved n e = true ∧ (m1.ring n e).reserved = false ∧ g.cls ≠ 0 ∧ g.cls ≠ 14)
        let issued := m1.atIssue n e g
        (starves ∨ m1.outranked n e g = true →
          exec (.catchGrant n e) s = .next { s with m := m1.withRing n e fun r => { r with credit := true } }) ∧
        (¬ starves → m1.outranked n e g = false → (g.rcd.op < 3 ∨ 6 < g.rcd.op) →
          ∃ m, exec (.catchGrant n e) s = .next { s with m := m } ∧ m.reg (Reg.coreRingRd n e) = trunc 32 (g.x + 1) ∧
            m.reg (Reg.corePassCount n g.rcd.catchPass) = s.m.reg (Reg.corePassCount n g.rcd.catchPass) - g.rcd.catchN ∧
            (p < 128 → m.reg (Reg.pwrBalance p) = ofSigned 64 (m1.balance p - (m1.energy p e g.cls g.units : Int))) ∧
            (m.ring n e).infl = (s.m.ring n e).infl ++ [issued] ∧ (∀ k, k ≠ n → m.core k = s.m.core k) ∧
            m1.sameStores m) ∧
        (¬ starves → m1.outranked n e g = false → 3 ≤ g.rcd.op → g.rcd.op ≤ 6 → issued.started = false →
          let r := commonWork n e g.rcd.op { issued with started := true } (passPoint n e g m1).2
          exec (.catchGrant n e) s = .next { s with m := r.2.withEntry n e (s.m.ring n e).infl.length r.1 })))

/-- R68, R125, R129, R130, R131, R149, R344: the oldest macro-op in flight retires, the windows that it left due resolved, once its work
is done, its product check has passed and nothing holds it: RET moves
by one, its throw reaches its pass, and its completion record is written where the record asks for one. A throw that would
overflow the pass halts the ring with status 5 and throws nothing. -/
def Obligations.MacroOpsRetire : Prop := ∀ (s : State) (n e extra : Nat),
  s.m.board.live = true → s.m.wf = true → n < 120 → e < 4 →
  let m1 := match (s.m.ring n e).infl.head? with
    | some f => if e = 1 ∧ f.done = true ∧ opMatrix f.rcd.op = true then (resolvePending n f.rcd.slotOf s.m).2 else s.m
    | none => s.m
  (∀ (f : InFlight) (rest : List InFlight), (m1.ring n e).infl = f :: rest →
    let t := if f.rcd.throwCore = 0xFF then n else f.rcd.throwCore
    let count := m1.reg (Reg.corePassCount t f.rcd.throwPass)
    let addr := m1.recAddr n e f.x
    let gone := fun (m : M) (status : Nat) => (m.ring n e).infl = rest ∧
      m.reg (Reg.coreRingRet n e) = trunc 32 (m1.reg (Reg.coreRingRet n e) + 1) ∧
      (f.rcd.complete = true → addr % 32 = 0 → m.bytes addr 32 = f.record status extra) ∧
      (f.rcd.complete = false → m1.sameStores m)
    (f.done = false ∨ f.held = true ∨ f.thrown = 1 ∨ f.pred ≠ f.obs → exec (.macroOpRetire n e extra) s = s.becomes m1) ∧
    (f.done = true → f.held = false → f.thrown = 0 → f.pred = f.obs →
      (f.throws = false → s.ends (exec (.macroOpRetire n e extra) s) fun m => gone m (f.status false) ∧
        (f.halts = true → m.haltedAt n e f.x (f.status false)) ∧ (f.halts = false → m.ringRun n e = m1.ringRun n e)) ∧
      (f.throws = true → t < 120 → (t = n ∨ (m1.coreMode t ≠ 3 ∧ (m1.posX (m1.posOf t)).practice = false)) →
        (count + f.rcd.throwN ≤ 65535 → s.ends (exec (.macroOpRetire n e extra) s) fun m => gone m (f.status false) ∧
          m.reg (Reg.corePassCount t f.rcd.throwPass) = count + f.rcd.throwN ∧
          (f.halts = true → m.haltedAt n e f.x (f.status false))) ∧
        (65535 < count + f.rcd.throwN → s.ends (exec (.macroOpRetire n e extra) s) fun m => gone m (f.status true) ∧
          m.reg (Reg.corePassCount t f.rcd.throwPass) = count ∧ m.haltedAt n e f.x (f.status true))) ∧
      (f.throws = true → t ≠ n → (m1.coreMode t = 3 ∨ (m1.posX (m1.posOf t)).practice = true) →
        s.ends (exec (.macroOpRetire n e extra) s) fun m => (m.ring n e).infl = { f with thrown := 1 } :: rest ∧
          (m.core t).heldPasses = (m1.core t).heldPasses ++ [(n, e, f.rcd.throwPass, f.rcd.throwN)] ∧
          m.regs = m1.regs ∧ m1.sameStores m))) ∧
  ((s.m.ring n e).infl = [] → exec (.macroOpRetire n e extra) s = .next s)

/-! ## Macro-ops (chapter 6) -/

/-- R125, R128, R135, R150: each macro-op of the opcode table runs the oldest record of its opcode that has issued and not begun: the
record does the operation's work and keeps its number, and its entry keeps what the work leaves; all but a COLLECTIVE, an UPDATE and a
SNAPSHOT are then done. Where none has issued, the record at RD issues first if it is of the opcode and may; where it may not, nothing
happens but the attempt. -/
def Obligations.MacroOpsRunTheirRecord : Prop := ∀ (s : State) (n e : Nat) (order : List Nat), s.m.board.live = true →
  let rows : List (Instr × Nat × Nat × Work) :=
    [(.nop n e, e, 0x00, noWork), (.throwOp n e, e, 0x01, noWork), (.catchOp n e, e, 0x02, noWork),
     (.stepSet n e, e, 0x03, stepSetWork n e), (.phaseMark n e, e, 0x04, phaseMarkWork n),
     (.stateSave n e, e, 0x05, stateSaveWork n), (.stateLoad n e, e, 0x06, stateLoadWork n),
     (.loadTile n, 0, 0x10, orPlay n 0 (loadTileWork n)), (.expand n, 0, 0x11, orPlay n 0 (expandWork n)),
     (.gather n, 0, 0x12, orPlay n 0 (gatherWork n)), (.fPlay n, 0, 0x1F, playWork n 0),
     (.mma n, 1, 0x30, mmaWork n), (.mmaBlock n, 1, 0x31, mmaWork n), (.mmaA7 n, 1, 0x32, mmaWork n),
     (.mmaFp64 n, 1, 0x33, mmaWork n), (.drain n, 1, 0x34, drainWork n),
     (.cast n, 2, 0x50, orPlay n 2 (castWork n)), (.epilogue n, 2, 0x51, orPlay n 2 (epilogueWork n)),
     (.ewise n, 2, 0x52, orPlay n 2 (ewiseWork n)), (.reduceExact n, 2, 0x53, orPlay n 2 (reduceExactWork n)),
     (.reduceFast n, 2, 0x54, orPlay n 2 (reduceFastWork n)), (.norm n, 2, 0x55, orPlay n 2 (normWork n)),
     (.rngFill n, 2, 0x56, orPlay n 2 (rngFillWork n)), (.vPlay n, 2, 0x5F, playWork n 2),
     (.storeTile n, 3, 0x80, orPlay n 3 (storeTileWork n)), (.fill n, 3, 0x81, orPlay n 3 (fillWork n)),
     (.scatterAddExact n, 3, 0x82, withPlay n 3 (scatterExactWork n)),
     (.scatterAddFast n order, 3, 0x83, withPlay n 3 (scatterFastWork n order)),
     (.collective n, 3, 0x88, withPlay n 3 (collectiveWork n)), (.update n, 3, 0x89, withPlay n 3 updateWork),
     (.snapshot n, 3, 0x8A, withPlay n 3 (snapshotWork n)), (.sPlay n, 3, 0x9F, playWork n 3)]
  ∀ row ∈ rows, let (c, k, op, work) := row
    (∀ (f : InFlight) (t : M), let r := work { f with started := true } t
      r.1.x = f.x ∧ r.1.rcd = f.rcd ∧ (op ∉ [0x88, 0x89, 0x8A] → r.1.done = true)) ∧
    (∀ i f, s.m.waits n k op = some (i, f) → let r := work { f with started := true } s.m
      exec c s = .next { s with m := r.2.withEntry n k i r.1 }) ∧
    (s.m.waits n k op = none → let t := (issue n k (some op) s.m).2
      ((issue n k (some op) s.m).1 = false → exec c s = .next { s with m := t }) ∧
      ((issue n k (some op) s.m).1 = true → ∀ i f, t.waits n k op = some (i, f) →
        let r := work { f with started := true } t
        exec c s = .next { s with m := r.2.withEntry n k i r.1 }) ∧
      ((issue n k (some op) s.m).1 = true → t.waits n k op = none → exec c s = .next { s with m := t }))

/-- R98, R102, R134, R150, R237: the common macro-ops. NOP, THROW and CATCH do no work of their own; STEP_SET sets or
increments the step register, and fails with status 7 and halts its ring where an increment finds it exhausted; PHASE_MARK sets the phase, and
with it the operating point; STATE_SAVE writes the job state record and STATE_LOAD takes one over, unless it is poisoned or
out of range. -/
def Obligations.CommonMacroOps : Prop := ∀ (s : State) (n e i : Nat) (f : InFlight), s.m.board.live = true →
  s.m.wf = true → n < 120 →
  let g := { f with started := true }
  let finished := { g with done := true }
  let step := s.m.reg (Reg.coreStep n)
  let addr := bits f.w1 41 0
  (∀ c ∈ [(Instr.nop n e, 0), (.throwOp n e, 1), (.catchOp n e, 2)], s.m.waits n e c.2 = some (i, f) →
    exec c.1 s = .next { s with m := s.m.withEntry n e i finished }) ∧
  (s.m.waits n e 3 = some (i, f) →
    (bit f.w1 63 = false → exec (.stepSet n e) s = .next
      { s with m := (s.m.setReg (Reg.coreStep n) (bits f.w1 39 0)).withEntry n e i finished }) ∧
    (bit f.w1 63 = true → step < 2 ^ 40 - 1 → exec (.stepSet n e) s = .next
      { s with m := (s.m.setReg (Reg.coreStep n) (step + 1)).withEntry n e i finished }) ∧
    (bit f.w1 63 = true → 2 ^ 40 - 1 ≤ step → e < 4 → ∃ m, exec (.stepSet n e) s = .next { s with m := m } ∧
      m.haltedAt n e f.x 7 ∧ (m.ring n e).infl = (s.m.ring n e).infl.set i { finished with own := 7 } ∧
      m.reg (Reg.coreStep n) = step ∧ (∀ k, k ≠ n → m.core k = s.m.core k) ∧ s.m.sameStores m)) ∧
  (s.m.waits n e 4 = some (i, f) → ∃ m, exec (.phaseMark n e) s = .next { s with m := m } ∧
    m.reg (Reg.corePhase n) = bits f.w1 2 0 ∧ m.cores = (s.m.withEntry n e i finished).cores ∧ s.m.sameStores m ∧
    (s.m.switchedIn n = true → s.m.posOf n < 128 → let p := s.m.posOf n
      let point := s.m.gov.phase.getD (bits f.w1 2 0) 1
      m.reg (Reg.pwrPosOp p) = s.m.limitCode <<< 8 + point <<< 4 +
        (if bits (s.m.reg (Reg.pwrPosOp p)) 2 0 = 7 then 7 else max point ([0, 1, 2, 5, 3].getD s.m.limitCode 3)))) ∧
  (s.m.waits n e 5 = some (i, f) → addr % 32 = 0 → ∃ m, exec (.stateSave n e) s = .next { s with m := m } ∧
    m.bytes addr 64 = leBytes 64 (s.m.jobRecord n) ∧ (∀ b, b < addr ∨ addr + 64 ≤ b → m.byte b = s.m.byte b) ∧
    m.cores = (s.m.withEntry n e i finished).cores ∧ m.regs = s.m.regs) ∧
  (s.m.waits n e 6 = some (i, f) → s.m.clean (linesOf addr 64) →
    let x := leNat (s.m.bytes addr 64)
    (jobRecordOk x = true → ∃ m, exec (.stateLoad n e) s = .next { s with m := m } ∧
      m.reg (Reg.coreStep n) = bits x 295 256 ∧ m.reg (Reg.coreJobSkipCount n) = bits x 351 320 ∧
      m.reg (Reg.coreJobLossScale n) = bits x 383 352 ∧ m.reg (Reg.coreJobFiniteRun n) = bits x 415 384 ∧
      m.reg (Reg.coreJobBiasCorr n) = bits x 511 480 ∧ (m.core n).seed = bits x 255 0 ∧
      (m.core n).growthInterval = bits x 447 416 ∧ (m.core n).growthLog2 = bits x 455 448 ∧
      (m.ring n e).infl = (s.m.ring n e).infl.set i finished ∧ s.m.sameStores m) ∧
    (jobRecordOk x = false → exec (.stateLoad n e) s = .next { s with m := s.m.withEntry n e i { finished with own := 1 } }))

/-! ## Numbers (chapters 2 to 4) -/

/-- R29 to R33, R46, R50: a value that a floating-point format holds is unchanged by a cast to it, in every rounding mode and
without a flag. -/
def Obligations.FormatValuesRoundToThemselves : Prop := ∀ (fmt : Nat) (f : Fp) (code : Nat) (mode : RMode) (r : Nat),
  Fp.ofCode fmt = some f → (f.decode code).isNan = false →
  castVal fmt (f.decode code) mode r = (code % 2 ^ f.width, {})

/-- R46 and Table 02-5: `round` is correct rounding. Where it does not overflow, the result is the value of its code; in RNE
no finite value of the format is nearer; in RTZ, RUP and RDN the result lies on the named side, with no value of the format
between; INEXACT is set where the result differs. -/
def Obligations.RoundingIsCorrect : Prop := ∀ (fmt : Nat) (f : Fp) (s : Bool) (m : Nat) (q : Int) (mode : RMode) (r : Nat),
  Fp.ofCode fmt = some f → 0 < m → mode ≠ .sr →
  let val := fun (s : Bool) (m : Nat) (q : Int) => (signedMant s m : ℚ) * (2 : ℚ) ^ q
  let x := val s m q
  let out := f.round s m q mode r
  out.2.overflow = false → ∃ s1 m1 q1, f.decode out.1 = .fin s1 m1 q1 ∧
    let y := val s1 m1 q1
    (out.2.inexact = decide (y ≠ x)) ∧
    (mode = .rtz → |y| ≤ |x|) ∧ (mode = .rup → x ≤ y) ∧ (mode = .rdn → y ≤ x) ∧
    ∀ c s2 m2 q2, f.decode c = .fin s2 m2 q2 → let z := val s2 m2 q2
      (mode = .rne → |y - x| ≤ |z - x|) ∧ (mode = .rtz → |z| ≤ |x| → |z| ≤ |y|) ∧
      (mode = .rup → x ≤ z → y ≤ z) ∧ (mode = .rdn → z ≤ x → z ≤ y)

/-- R59, R63, R68, R69, R70, R345: the window and the bands together hold the exact sum of the terms, whatever their order:
neither it, nor the side state, the first invalid term or the residue depends on the order of accumulation. -/
def Obligations.ExactAccumulationIsOrderFree : Prop := ∀ (sl : Slot) (a : Accum) (ts us : List (Val × Option (Nat × Nat × Nat))),
  (sl.cls = .w ∨ sl.cls = .l ∨ (sl.cls = .s ∧ sl.w = 0)) → ts.Perm us →
  let run := fun l : List (Val × Option (Nat × Nat × Nat)) => l.foldl (fun acc x => acc.term sl x.1 x.2) a
  (run ts).value sl.w = a.value sl.w + (ts.map fun x => x.1.atOff sl.cls.off).sum ∧
  (run us).value sl.w = (run ts).value sl.w ∧ (run us).elem.side = (run ts).elem.side ∧
  (run us).elem.firstInv = (run ts).elem.firstInv ∧ (run us).elem.rho = (run ts).elem.rho

/-- R146, R441: an exact record holds its sum and side state, and adding records is associative and commutative. -/
def Obligations.ExactRecordsHoldSums : Prop :=
  (∀ (isL : Bool) (a : ExAcc), -(2 ^ (64 * exBands isL - 1) : Int) ≤ a.sum → a.sum < 2 ^ (64 * exBands isL - 1) →
    ExAcc.decode isL (a.encode isL) = a) ∧
  (∀ a b : ExAcc, a.merge b = b.merge a) ∧ (∀ a b c : ExAcc, (a.merge b).merge c = a.merge (b.merge c)) ∧
  ∀ (off : Nat) (ts us : List Val), (ExAcc.ofTerms off (ts ++ us)) = (ExAcc.ofTerms off ts).merge (ExAcc.ofTerms off us)

/-- R57, R63, R65, R155 to R157: a matrix macro-op of a wide class on an open slot, its operands and the slot's records
sound, adds to every element exactly the sum of its terms, in the bands that the class has; MMA_A7 leaves the elements that
its fixed order of additions gives (R109). -/
def Obligations.MatrixProductsAccumulateExactly : Prop := ∀ (s : State) (n i : Nat) (f : InFlight), s.m.board.live = true →
  s.m.wf = true → n < 120 →
  let k := f.rcd.slotOf
  let sl := (s.m.core n).slot k
  f.rcd.play = 0 → sl.state = .opened → sl.fbs % 32 = 0 → 0 < sl.n → sl.elems.length = sl.m * sl.n →
  (f.td 0).rows = sl.m → (f.td 1).cols = sl.n → s.m.clean (mmaLines f) →
  (∀ c ∈ [(Instr.mma n, 0x30), (.mmaBlock n, 0x31), (.mmaFp64 n, 0x33)], s.m.waits n 1 c.2 = some (i, f) →
    (sl.cls = .w ∨ sl.cls = .l) → (∀ x, x < sl.m * sl.n → s.m.clean (linesOf (sl.record x) sl.cls.fbsStride)) →
    s.ends (exec c.1 s) fun m => let sl' := (m.core n).slot k
      sl'.elems.length = sl.m * sl.n ∧ sl'.w = sl.w ∧ sl'.state = .opened ∧ sl'.poisoned = sl.poisoned ∧
      (∀ x, x < sl.m * sl.n → (m.slotSum sl' x - s.m.slotSum sl x - ((s.m.slotTerms f sl x).map (·.atOff sl.cls.off)).sum)
          % 2 ^ (64 * sl.cls.bands) = 0 ∧
        (sl'.elems.getD x {}).side = (s.m.slotTerms f sl x).foldl Side.add (sl.elems.getD x {}).side) ∧
      ∃ g, (m.ring n 1).infl[i]? = some g ∧ g.done = true ∧ g.started = true ∧ g.x = f.x) ∧
  (s.m.waits n 1 0x32 = some (i, f) → sl.cls = .a7 → (∀ x ∈ sl.elems, x.adds = 0) → s.ends (exec (.mmaA7 n) s) fun m =>
    ((m.core n).slot k).elems = s.m.a7Elems f sl ∧ s.m.sameStores m ∧
    ∃ g, (m.ring n 1).infl[i]? = some g ∧ g.done = true ∧ g.started = true ∧ g.x = f.x)

/-- R67, R68, R79, R185, R346: resolving a window moves what has left it to the bands, so that no sum changes; a drain that has
ended frees its slot; a freeze of one cycle, of each sequencer of the engine, lengthens the macro-op in flight there and changes nothing
else of it. -/
def Obligations.SlotEvents : Prop := ∀ (s : State) (n k : Nat), s.m.board.live = true → s.m.wf = true → n < 120 →
  let sl := (s.m.core n).slot k
  (sl.state ≠ .opened → exec (.windowResolve n k) s = .next s) ∧
  (sl.state = .opened → (sl.cls = .w ∨ sl.cls = .l) → sl.fbs % 32 = 0 →
    (∀ x, x < sl.elems.length → s.m.clean (linesOf (sl.record x) sl.cls.fbsStride)) →
    s.ends (exec (.windowResolve n k) s) fun m => let sl' := (m.core n).slot k
      sl'.elems.length = sl.elems.length ∧
      (∀ x, x < sl.elems.length → (m.slotSum sl' x - s.m.slotSum sl x) % 2 ^ (64 * sl.cls.bands) = 0 ∧
        (sl'.elems.getD x {}).adds < 256) ∧ (m.ring n 1).infl.map (·.x) = (s.m.ring n 1).infl.map (·.x)) ∧
  (sl.state = .opened → sl.cls = .s ∨ (sl.cls = .a7 ∧ ∀ x ∈ sl.elems, x.win = 0) → s.ends (exec (.windowResolve n k) s) fun m =>
    ((m.core n).slot k).elems = (sl.elems.map fun x => if 256 ≤ x.adds then { x with adds := 0 } else x) ∧ s.m.sameStores m) ∧
  (s.m.headRec n 1 = none → exec (.slotDrainWaitEnd n) s = .next s) ∧
  (∀ r, s.m.headRec n 1 = some r →
    let drained := fun f : InFlight => f.rcd.op = 0x34 ∧ f.slot = some r.slotOf ∧ f.done = true
    let go := opMatrix r.op = true ∧ s.m.ringEmpty n 1 = false ∧ ((s.m.core n).slot r.slotOf).state = .draining ∧
      ∃ f ∈ (s.m.ring n 1).infl, drained f
    (¬ go → exec (.slotDrainWaitEnd n) s = .next s) ∧
    (go → let m1 := (s.m.setCore n ((s.m.core n).setSlot r.slotOf {})).withRing n 1 fun g =>
        { g with infl := g.infl.map fun f => if drained f then { f with slot := none } else f }
      exec (.slotDrainWaitEnd n) s = s.becomes (issue n 1 none m1).2)) ∧
  (∀ pos i f, s.m.runningAt pos = n → n < s.m.nCores → bit (s.m.reg Reg.chkCtl) 0 = true →
    (s.m.ring n 1).infl.findIdx? (fun f => opMatrix f.rcd.op && f.rcd.op != 0x32) = some i →
    (s.m.ring n 1).infl[i]? = some f → s.ends (exec (.checksumFreeze pos) s) fun m =>
      m.cores = (s.m.withEntry n 1 i { f with frozen := f.frozen + 1 }).cores ∧ s.m.sameStores m) ∧
  ∀ pos e, s.m.runningAt pos = n → n < s.m.nCores → s.m.hazardSetting n e ≠ 0 → (s.m.ring n e).infl ≠ [] →
    let l := (s.m.ring n e).infl
    let drains := l.findIdx? fun f => f.rcd.op == 0x34
    let others := l.findIdx? fun f => f.rcd.op != 0x34
    s.ends (exec (.hazardWatchFreeze pos e) s) fun m => let l' := (m.ring n e).infl
      l'.length = l.length ∧ (∀ i f, l[i]? = some f →
        l'[i]? = some (if drains = some i ∨ others = some i then { f with frozen := f.frozen + 1 } else f)) ∧
      (∀ k, k ≠ n → m.core k = s.m.core k) ∧ s.m.sameStores m

/-! ## Core moves and silent-error checking (chapters 5 and 14) -/

/-- R117, R119, R120, R121, R181, R189: what moves a logical core, and what ends its job. Once the old position has stopped,
the core is bound to its bench position and slice numbers swap, or it becomes the guest of a host, or the move is fatal; a
stop that takes too long is fatal; a doubled position switches at a macro-op boundary; a play synchronisation leaves each
halted engine of its mask loaded or in error; an access fault, or a poisoned line, ends the job of the control core. -/
def Obligations.LogicalCoresMove : Prop := ∀ (s : State) (n : Nat), s.m.board.live = true → s.m.wf = true → n < s.m.nCores →
  let old := s.m.posOf n
  let still := s.m.coreStill n
  let first := ∀ k, k < n → s.m.posOf k = old → (s.m.core k).target = none
  let ends := fun (c : Instr) => ∀ q y j, (s.m.core n).job = some (q, y) → s.m.runningJob q y = some j → n ∈ j.cores →
    s.ends (exec c s) fun m => (m.core n).job = none ∧ m.runningJob q y = none ∧ (m.core n).ctl.running = false ∧
      ∀ e, e < 4 → m.ringRun n e = false
  let fatal := fun (c : Instr) => ends c ∧ ((s.m.core n).job = none → s.ends (exec c s) fun m =>
    (m.core n).target = none ∧ s.m.logs m 0x3E 177 ∧ s.m.sameStores m)
  ((s.m.core n).target = none ∨ still = false → exec (.substitutionStopped n) s = .next s) ∧
  (∀ t, (s.m.core n).target = some (true, t) → still = true → first → t < 128 → t ≠ old → s.m.posState t = 1 →
    s.ends (exec (.substitutionStopped n) s) fun m => m.posOf n = t ∧ m.coreMode n = 0 ∧ m.posState t = 0 ∧
      m.logicalAt t = n ∧ m.logicalAt old = 0xFF ∧ m.reg (Reg.mgtSliceMap n) = t ∧
      (∀ k, k < 128 → k ≠ n → (∀ i, i < k → bits (s.m.reg (Reg.mgtSliceMap i)) 6 0 ≠ t) →
        bits (s.m.reg (Reg.mgtSliceMap k)) 6 0 = t → m.reg (Reg.mgtSliceMap k) = old) ∧
      (m.core n).target = none ∧ (m.core n).heldPasses = [] ∧ bit (m.reg (Reg.coreStatus n)) 1 = true ∧
      m.reg Reg.mgtMapGen = trunc 32 (s.m.reg Reg.mgtMapGen + 1)) ∧
  (∀ t, (s.m.core n).target = some (false, t) → still = true → first →
    (∀ h, s.m.hostFor n = some h → s.ends (exec (.substitutionStopped n) s) fun m => m.coreMode n = 2 ∧ m.coreMode h = 1 ∧
      bits (m.reg (Reg.mgtCoreMap h)) 23 16 = n ∧ bits (m.reg (Reg.mgtCoreMap n)) 23 16 = h ∧
      m.posOf n = s.m.posOf h ∧ m.posOf h = s.m.posOf h ∧ (m.posX (s.m.posOf h)).running = h ∧
      (m.core n).target = none ∧ m.reg Reg.mgtMapGen = trunc 32 (s.m.reg Reg.mgtMapGen + 1)) ∧
    (s.m.hostFor n = none → fatal (.substitutionStopped n))) ∧
  ((s.m.core n).target ≠ none → still = false → fatal (.substitutionStopTimeout n)) ∧
  ((s.m.core n).target = none ∨ still = true → exec (.substitutionStopTimeout n) s = .next s) ∧
  (∀ pos ran, let h := s.m.logicalAt pos
    let g := bits (s.m.reg (Reg.mgtCoreMap h)) 23 16
    let r := if (s.m.posX pos).running = g then g else h
    let o := if r = h then g else h
    let go := s.m.coreMode h = 1 ∧ s.m.posState pos = 0 ∧ (s.m.posX pos).practice = false ∧ s.m.coreStill r = true ∧
      (∃ e, e < 4 ∧ s.m.hasWork o e = true) ∧
      (max 1 (bits (s.m.reg Reg.mgtDoubleCtl) 23 8) * 1024 ≤ ran ∨ s.m.coreIdle r = true)
    (go → pos < 128 → h < 120 → g < 120 → s.ends (exec (.doublingSwitch pos ran) s) fun m => (m.posX pos).running = o ∧ m.coreMode h = 1 ∧
      m.posState pos = 0 ∧ ∀ i, i ≠ pos → m.posX i = s.m.posX i) ∧
    (¬ go → exec (.doublingSwitch pos ran) s = .next s)) ∧
  (∀ w mask, s.m.admits w false → s.ends (exec (.corePlaySync n mask w) s) fun m => ∀ e, e < 4 →
    ((bit mask e = false ∨ s.m.ringRun n e = true) →
      m.ring n e = s.m.ring n e ∧ m.reg (Reg.corePlayState n e) = s.m.reg (Reg.corePlayState n e)) ∧
    (bit mask e = true → s.m.ringRun n e = false →
      let st := m.reg (Reg.corePlayState n e)
      (bits st 31 30 = 2 ∧ bits st 8 0 = (m.ring n e).plays.length ∧
        ∀ p ∈ (m.ring n e).plays, p.1 < 256 ∧ ∀ w ∈ p.2, cwReserved e w = false) ∨
      (bits st 31 30 = 3 ∧ (m.ring n e).plays = []))) ∧
  (∀ addr size, let touched := max 1 size
    ((s.m.core n).ctl.running = true → accessFault addr size = true → ends (.controlCoreFault n addr size)) ∧
    ((s.m.core n).ctl.running = true → accessFault addr size = false → inRegion addr touched = true →
      (∃ l ∈ linesOf addr touched, rsDecode (s.m.codeword l) = .poisoned) → ends (.controlCoreFault n addr size)) ∧
    ((s.m.core n).ctl.running = false ∨ (accessFault addr size = false ∧ s.m.clean (linesOf addr touched)) →
      exec (.controlCoreFault n addr size) s = .next s))

/-- R349 to R357: a capture copy, which writes the capture area of the shadow's position and nothing else of the stores, lets the oldest
matrix macro-op that waits for it retire; a shadow that agrees is settled
and one that does not goes to a decision; the decision sides with one candidate, and what the other stands for is at fault:
the checksum unit, the position, the shadow's position, or the line; with none, the module stops. A decision execution may save the core
that it displaces in its switch area. -/
def Obligations.ShadowsAndDecisions : Prop := ∀ (s : State) (n k : Nat), s.m.board.live = true → s.m.wf = true → n < 120 →
  k < 2 →
  let infl := (s.m.ring n 1).infl
  let held := fun f : InFlight => f.held && opMatrix f.rcd.op
  let pos := s.m.posOf n
  let counted := fun m : M => m.reg Reg.chkDecisions = trunc 64 (s.m.reg Reg.chkDecisions + 1)
  let stops := fun m : M => m.board = { s.m.board with stopped := true } ∧ bit (m.reg Reg.chkStatus) 3 = true
  let quarantined := fun (m : M) (p : Nat) => s.m.posState p < 2 → p < 128 → m.posState p = 2
  let checked := bit (s.m.reg Reg.chkCtl) 0 = true ∧ (s.m.posX pos).csumOff = false
  (∀ pre f post, infl = pre ++ f :: post → held f = true → (∀ g ∈ pre, held g = false) →
    let m1 := match ((s.m.core n).slot f.rcd.slotOf).shadow with
      | none => s.m
      | some b => (writeCapture b s.m).2
    exec (.captureCopyDone n) s = s.becomes (m1.withRing n 1 fun g =>
        { g with infl := g.infl.map fun k => if k.x = f.x then { k with held := false } else k }) ∧
      { m1 with mem := s.m.mem, chk := s.m.chk, free := s.m.free } = s.m ∧
      ∀ a, (∀ j, a < sliceBase j + 0x5E00000 ∨ sliceBase j + 0x7E00000 ≤ a) → m1.byte a = s.m.byte a) ∧
  ((∀ f ∈ infl, held f = false) → exec (.captureCopyDone n) s = .next s) ∧
  (∀ h, s.m.shadowOf n k false = some h →
    (s.ends (exec (.shadowComparison n k true) s) fun m => (m.posX h.orig).since = h.step ∧ h ∉ (m.core n).shadows ∧
      (∀ j, j ≠ n → m.core j = s.m.core j) ∧ s.m.sameStores m) ∧
    s.ends (exec (.shadowComparison n k false) s) fun m => { h with split := true } ∈ (m.core n).shadows ∧
      h ∉ (m.core n).shadows ∧ m.pos = s.m.pos ∧ (∀ j, j ≠ n → m.core j = s.m.core j) ∧ s.m.sameStores m) ∧
  (s.m.shadowOf n k false = none → ∀ a, exec (.shadowComparison n k a) s = .next s) ∧
  (∀ f o p d, infl.find? (fun f => f.started && opMatrix f.rcd.op && f.rcd.op != 0x32 && f.rcd.slotOf == k) = some f →
    checked → let c := Instr.decisionComplete n k 0 o p d
    let settled := fun m : M => ∀ g ∈ (m.ring n 1).infl, g.x = f.x → g.pred = g.obs
    (o = p → exec c s = .next s) ∧
    (o ≠ p → d = o → s.ends (exec c s) fun m => counted m ∧ bit (m.reg (Reg.chkPos pos)) 31 = true ∧
      (m.posX pos).csumOff = true ∧ m.posState pos = s.m.posState pos ∧ settled m ∧ (∀ j, j ≠ n → m.core j = s.m.core j) ∧
      ∀ a, (∀ j, a < sliceBase j + 0x7E00000 ∨ sliceBase j + 0x8000000 ≤ a) → m.byte a = s.m.byte a) ∧
    (o ≠ p → d = p → bit (s.m.reg Reg.mgtDoubleCtl) 0 = true → s.ends (exec c s) fun m => counted m ∧ quarantined m pos ∧
      ((m.core n).slot k).poisoned = true ∧ settled m ∧ ∀ g ∈ (m.ring n 1).infl, g.x = f.x → g.poison = true) ∧
    (o ≠ p → d ≠ o → d ≠ p → s.ends (exec c s) stops)) ∧
  (∀ f r1 r2 rho, infl.find? (fun f => f.started && f.rcd.op == 0x34 && f.rcd.slotOf == k) = some f → checked →
    let c := Instr.decisionComplete n k 1 r1 r2 rho
    (r1 = rho → exec c s = .next s) ∧
    (r1 ≠ rho → r2 = rho → s.ends (exec c s) fun m => counted m ∧ m.cores = s.m.cores ∧ s.m.sameStores m) ∧
    (r1 ≠ rho → r2 ≠ rho → r1 = r2 → s.ends (exec c s) fun m => counted m ∧ bit (m.reg (Reg.chkPos pos)) 30 = true ∧
      (∀ g ∈ (m.ring n 1).infl, g.x = f.x → g.poison = true) ∧ ∀ a, m.byte a = s.m.byte a) ∧
    (r1 ≠ rho → r2 ≠ rho → r1 ≠ r2 → s.ends (exec c s) stops)) ∧
  (∀ h o p d, s.m.shadowOf n k true = some h → let c := Instr.decisionComplete n k 2 o p d
    (o = p → exec c s = .next s) ∧
    (o ≠ p → d = o → s.ends (exec c s) fun m => counted m ∧ quarantined m h.pos ∧ h ∉ (m.core n).shadows) ∧
    (o ≠ p → d = p → s.ends (exec c s) fun m => counted m ∧ quarantined m h.orig ∧ h ∉ (m.core n).shadows ∧
      m.reg Reg.chkSdc = trunc 64 (s.m.reg Reg.chkSdc + 1)) ∧
    (o ≠ p → d ≠ o → d ≠ p → s.ends (exec c s) stops)) ∧
  (s.m.shadowOf n k true = none → ∀ o p d, exec (.decisionComplete n k 2 o p d) s = .next s)

/-- R356, R358 to R360: Practice enters a position on the bench or an idle one; a kernel that passes clears its retry and the
last one the position's age; one that fails once is run again, and once more puts the position out of service, the checksum
unit off, or marks the path that it tests; the age is kept, and a position in service that is too old is shown. What Practice
writes lies in the areas that it is given, and entering a position in service saves the core that runs there.
R362, R363: a record of the error log takes the next index, and what the buffer holds goes to the ring once that is ready. -/
def Obligations.PracticeAndErrorLog : Prop := ∀ (s : State) (pos : Nat), s.m.board.live = true → s.m.wf = true → pos < 128 →
  let x := s.m.posX pos
  let ctl := s.m.reg Reg.chkPractice
  let own := s.m.reg (Reg.chkPos pos)
  let limit := 60 * max 1 (bits ctl 23 8)
  (∀ us, let go := bit ctl 31 = true ∧
      ((s.m.posState pos = 1 ∧ (s.m.shadowBusy pos = false ∨ bit own 30 = true)) ∨
        (s.m.posState pos = 0 ∧ bit (s.m.reg Reg.mgtDoubleCtl) 0 = true ∧ max 50 (bits ctl 7 0) ≤ us ∧
          ∀ n ∈ s.m.coresAt pos, s.m.coreIdle n = true))
    (go → let m1 := { s.m with pos := Tab.put PosX.init s.m.pos pos { x with practice := true, retry := false } }
      exec (.practiceEntry pos us) s = s.becomes (
        if s.m.posState pos = 0 then (saveSwitch (s.m.runningAt pos) m1).2 else m1)) ∧
    (¬ go → exec (.practiceEntry pos us) s = .next s)) ∧
  (x.practice = false → ∀ k p w l, exec (.practiceKernelDone pos k p w l) s = .next s) ∧
  (∀ k, let m1 := (practiceData pos k s.m).2
    let far := s.m.reg Reg.chkPracticeBase
    { m1 with mem := s.m.mem, chk := s.m.chk, free := s.m.free } = s.m ∧
    (far % 32 = 0 → ∀ a, (∀ j, s.m.sliceAt pos = some j → a < sliceBase j + 0x5E00000 ∨ sliceBase j + 0x8000000 ≤ a) →
      (a < far ∨ far + 0x800000 ≤ a) → (a < far + 0x8000000000 ∨ far + 0x8000800000 ≤ a) → m1.byte a = s.m.byte a)) ∧
  (x.practice = true → ∀ k, let m1 := (practiceData pos k s.m).2
    let once := x.retry = false ∧ (bit own 30 = false ∨ k = 2 ∨ 7 ≤ k)
    (once → k ≠ 2 → exec (.practiceKernelDone pos k false false false) s = s.becomes
      { m1 with pos := Tab.put PosX.init s.m.pos pos { x with retry := true } }) ∧
    (once → k = 2 → s.ends (exec (.practiceKernelDone pos k false false false) s) fun m =>
      m.posX pos = { x with retry := true, csumRun := 0 } ∧ m = { m1 with pos := m.pos } ∧
      ∀ i, i ≠ pos → m.posX i = s.m.posX i) ∧
    (¬ once → ∀ w l, s.ends (exec (.practiceKernelDone pos k false w l) s) fun m =>
      (k = 2 → bit (m.reg (Reg.chkPos pos)) 31 = true ∧ (m.posX pos).csumOff = true ∧ m.posState pos = s.m.posState pos) ∧
      (7 ≤ k → bit (m.reg Reg.chkStatus) 2 = true ∧ m.posState pos = s.m.posState pos) ∧
      (k ≠ 2 → k < 7 → s.m.posState pos < 2 → m.posState pos = 2)) ∧
    (∀ w l, s.ends (exec (.practiceKernelDone pos k true w l) s) fun m =>
      (m.posX pos).practice = !w ∧ (m.posX pos).retry = false ∧ m.posState pos = s.m.posState pos ∧
      (k = 2 → (m.posX pos).csumRun = min (x.csumRun + 1) 10 ∧ (10 ≤ x.csumRun + 1 → bit (m.reg (Reg.chkPos pos)) 31 = false)) ∧
      (l = true → bits (m.reg (Reg.chkPos pos)) 23 0 = 0 ∧ bit (m.reg (Reg.chkPos pos)) 30 = false))) ∧
  (∀ age, s.ends (exec (.practiceLag pos age) s) fun m => s.m.sameBut m [Reg.chkPos pos, Reg.chkStatus] ∧
    bits (m.reg (Reg.chkPos pos)) 23 0 = satU 24 age ∧
    (bit (m.reg Reg.chkStatus) 1 = true ↔ ∃ i, i < 128 ∧ m.posState i < 2 ∧ limit < bits (m.reg (Reg.chkPos i)) 23 0)) ∧
  ∀ kind island logical pl, let i := s.m.reg Reg.chkLogWr
    let r : LogRec := ⟨i, kind, island, if island = 0xFFFF then 0 else s.m.island island, 0, logical, 0xFF, 0, pl⟩
    let base := s.m.reg Reg.chkLogBase
    let c := Instr.errorLogRecord kind island logical pl
    (s.m.logRing = false → s.ends (exec c s) fun m => m.reg Reg.chkLogWr = trunc 32 (i + 1) ∧
      m.logBuf = (if 64 ≤ s.m.logBuf.length then s.m.logBuf.drop 1 else s.m.logBuf) ++ [r] ∧
      (64 ≤ s.m.logBuf.length → m.reg Reg.chkLogLost = trunc 32 (s.m.reg Reg.chkLogLost + 1)) ∧
      (s.m.logBuf.length < 64 → m.reg Reg.chkLogLost = s.m.reg Reg.chkLogLost) ∧ s.m.sameStores m ∧ m.cores = s.m.cores) ∧
    (s.m.logRing = true → s.m.logBuf = [] → base % 32 = 0 → s.ends (exec c s) fun m =>
      m.reg Reg.chkLogWr = trunc 32 (i + 1) ∧ m.logBuf = [] ∧ m.bytes (base + 64 * (i % 4096)) 64 = r.bytes ∧
      (∀ a, a < base + 64 * (i % 4096) ∨ base + 64 * (i % 4096) + 64 ≤ a → m.byte a = s.m.byte a) ∧ m.cores = s.m.cores)

/-! ## The update units and verdicts (chapter 9) -/

/-- R231 to R234, R223 to R225, R228, R239: binding a verdict entry ends the UPDATEs that wait on it and empties it; a verdict
releases the layers of the oldest UPDATE that waits on it with their statistics cleared, or ends it with none of them written;
so does a timeout when no verdict has come. The units then update run after run, each for its energy: every element takes the master, the moments and
the working value of its step, and no other byte changes; when none is left, STEP, RATIO and TRUST are written. -/
def Obligations.UpdatesWaitAndRun : Prop := ∀ (s : State) (n : Nat), s.m.board.live = true → s.m.wf = true → n < 120 →
  let infl := (s.m.ring n 3).infl
  let entry := fun (i : Nat) (f : InFlight) => s.becomes (s.m.withEntry n 3 i f)
  let waits := fun f : InFlight => f.upd.waiting && !f.done
  let clean := fun (l : Layer) (i0 k : Nat) => ∀ a, a < 5 → ∀ i, i0 ≤ i → i < i0 + k → s.m.clean (l.elemLines a i)
  let apart := fun (l : Layer) (i0 k : Nat) => ∀ a b, a < 5 → b < 5 → a ≠ b →
    let z := fun c => k * l.sizes.getD c 0
    z a = 0 ∨ z b = 0 ∨ l.addr a i0 + z a ≤ l.addr b i0 ∨ l.addr b i0 + z b ≤ l.addr a i0
  (∀ w e v, e < 64 → s.m.admits w false → let m0 := s.m.accessed w
    let reg := Reg.updVgroup e
    let taken := bit v 31 = true ∧ ∃ k, k < 64 ∧ k ≠ e ∧ s.m.reg (Reg.updVgroup k) = 0x80000000 + bits v 15 0
    (taken ∨ reg ∉ s.m.boot.adj → exec (.updVgroupWrite e v w) s
      = s.becomes (m0.setReg Reg.hstIlRejects (trunc 64 (s.m.reg Reg.hstIlRejects + 1)))) ∧
    (¬ taken → reg ∈ s.m.boot.adj → s.ends (exec (.updVgroupWrite e v w) s) fun m =>
      m.reg reg = s.m.reg reg - (s.m.reg reg &&& 0x8000FFFF) + (v &&& 0x8000FFFF) ∧ m.reg (Reg.updVerdict e) = 0 ∧
      reg ∈ m.boot.changed ∧ s.m.sameStores m ∧ ∀ c, c < s.m.nCores → (m.ring c 3).infl = (s.m.ring c 3).infl.map fun f =>
        if waits f && s.m.verdictEntry f.rcd.verdictGroup == some e then f.endUpdate 9 else f)) ∧
  (∀ i f, s.m.sEntry n (fun f => waits f && (s.m.verdictFor f).isSome) = some (i, f) →
    (s.m.verdictFor f = some 3 → exec (.verdictRelease n) s = entry i
      { f with own := 0xC, done := true, flags := 0, upd := { f.upd with waiting := false, verdict := 2 } }) ∧
    (s.m.verdictFor f = some 4 → exec (.verdictRelease n) s
      = entry i (f.endUpdate (((s.m.verdictEntry f.rcd.verdictGroup).map s.m.verdictFail).getD 9))) ∧
    (s.m.verdictFor f = some 5 → exec (.verdictRelease n) s = entry i (f.endUpdate 9)) ∧
    (s.m.verdictFor f = some 2 →
      let released := { f with upd := { f.upd with
        waiting := false, released := true, verdict := 1, pass := (phasePasses (updPhase f.od)).headD 1 } }
      (statRecords f.layers = [] → exec (.verdictRelease n) s = entry i (released)) ∧
      (∀ l, statRecords f.layers = [l] → l.stats % 32 = 0 → s.ends (exec (.verdictRelease n) s) fun m =>
        (s.m.clean [l.stats / 32 + 9] → (m.ring n 3).infl = infl.set i (released)) ∧
        (∀ k ∈ (if updPhase f.od = 1 then [1, 2] else if updPhase f.od = 2 then [0] else [0, 1, 2]),
          m.bytes (statField l.stats k) 96 = emptyExact) ∧
        ∀ a, a < l.stats ∨ l.stats + 320 ≤ a → m.byte a = s.m.byte a))) ∧
  (s.m.sEntry n (fun f => waits f && (s.m.verdictFor f).isSome) = none → exec (.verdictRelease n) s = .next s) ∧
  (∀ ms, let late := s.m.sEntry n fun f => waits f && (s.m.verdictFor f).isNone && decide (f.limit ≤ ms)
    (∀ i f, late = some (i, f) → exec (.verdictTimeout n ms) s = entry i (f.endUpdate 0xA)) ∧
    (late = none → exec (.verdictTimeout n ms) s = .next s)) ∧
  (∀ i f p k i0, s.m.sEntry n (fun f => f.upd.released && !f.done && f.nextRun.isSome) = some (i, f) →
    f.nextRun = some (p, k, i0) →
    let l := f.layers.getD k (Layer.parse 0)
    let r := l.runAt i0
    let isl := s.m.unitIsland l i0
    let en := s.m.unitEnergy isl (ceilDiv (l.passBytes p r) 768)
    (s.m.balance isl < ((min en creditCap : Nat) : Int) → exec (.updateUnitBlock n) s = .next s) ∧
    (((min en creditCap : Nat) : Int) ≤ s.m.balance isl → isl < 179 → s.ends (exec (.updateUnitBlock n) s) fun m =>
      toSigned 64 (m.reg (Reg.pwrBalance isl)) = toSigned 64 (ofSigned 64 (s.m.balance isl - en)) ∧
      (∃ f', (m.ring n 3).infl = infl.set i f' ∧ f'.x = f.x ∧ f'.done = false ∧ f'.upd.pass = p ∧ f'.upd.layer = k ∧
        f'.upd.elem = i0 + r ∧ (clean l i0 r → l.statsEn = false → l.alg ≠ 2 → f'.upd.affected = f.upd.affected ∧ f'.poison = f.poison)) ∧
      (∀ j, j ≠ n → m.core j = s.m.core j) ∧
      (p = 1 → l.blocked = false → l.statsEn = false → l.alg ≠ 2 → clean l i0 r → apart l i0 r →
        (∀ x, i0 ≤ x → x < i0 + r → let o := (elemStep l f.upd.ls f.upd.t one32 (s.m.elemIn l x) {}).1
          m.num (l.addr 0 x) (l.sizes.getD 0 0) = trunc (8 * l.sizes.getD 0 0) o.master ∧
          m.num (l.addr 1 x) 4 = trunc 32 o.m ∧ (l.alg = 1 → m.num (l.addr 2 x) 4 = trunc 32 o.v) ∧
          (l.workEn = true → l.wrmode ≠ 4 → m.num (l.addr 4 x) (l.sizes.getD 4 0) = trunc (8 * l.sizes.getD 4 0)
            (castVal l.wfmt (l.masterVal o.master) ((RMode.ofCode l.wrmode).getD .rne) 0).1)) ∧
        ∀ b, (∀ a ∈ [0, 1, 2, 4], b < l.addr a i0 ∨ l.addr a i0 + r * l.sizes.getD a 0 ≤ b) → m.byte b = s.m.byte b))) ∧
  (s.m.sEntry n (fun f => f.upd.released && !f.done && f.nextRun.isSome) = none →
    exec (.updateUnitBlock n) s = .next s) ∧
  (∀ i f, s.m.sEntry n (fun f => f.upd.released && !f.done && f.nextRun.isNone) = some (i, f) →
    (statRecords f.layers = [] → exec (.updateUnitsDone n) s = entry i (f.finish (Flags.joinAll []) false)) ∧
    (∀ l, statRecords f.layers = [l] → l.stats % 32 = 0 → s.m.clean (linesOf l.stats 320) →
      let ratio := updateRatio (s.m.stat l.stats 0) (s.m.stat l.stats 1) l.escale
      let trust := if l.alg = 2 then trustRatio (s.m.stat l.stats 1) (s.m.stat l.stats 2) l.trustMax else (0, {})
      s.ends (exec (.updateUnitsDone n) s) fun m => let t := StatTail.parse (m.num (l.stats + 288) 32)
        t.step = trunc 40 f.step ∧
        (updPhase f.od = 1 → bit t.flags 1 = true ∧ (m.ring n 3).infl = infl.set i (f.finish (Flags.joinAll [{}]) false)) ∧
        (updPhase f.od ≠ 1 → t.ratio = ratio.1 ∧ t.trust = trust.1 ∧
          (m.ring n 3).infl = infl.set i (f.finish (Flags.joinAll [trust.2.join ratio.2]) false)) ∧
        ∀ a, a < l.stats + 288 ∨ l.stats + 320 ≤ a → m.byte a = s.m.byte a)) ∧
  (s.m.sEntry n (fun f => f.upd.released && !f.done && f.nextRun.isNone) = none →
    exec (.updateUnitsDone n) s = .next s)

/-! ## Module parity (chapter 14) -/

/-- R364 to R367: a refresh zeroes the parity blocks and sends every save block to its row's holders, a rebuild every chunk of
a survivor to the spares, one at a time to each node; a spare waits for them. A header of another step ends a rebuild in
error, with a code that the manual leaves open, and so does a poisoned one. Nothing starts while a run is under way, or without a redundancy class. -/
def Obligations.ParityRuns : Prop := ∀ (s : State) (step lost : Nat), s.m.board.live = true → s.m.wf = true →
  ∀ w, s.m.admits w false → let m0 := s.m.accessed w
  let commands := [Instr.parityRefresh step w, .parityRebuildSurvivor step lost w, .parityRebuildSpare step lost w]
  let header := linesOf (s.m.reg Reg.chkParityBase) 5
  let running := fun (m : M) (mode : Nat) (n : Nat) => bits (m.reg Reg.chkParityState) 63 62 = 1 ∧
    m.rly.parity.mode = mode ∧ m.rly.parity.step = step ∧ m.rly.parity.taken = [] ∧
    m.rly.parity.todo.length + m.rly.parity.flying.length = n ∧ m.rly.parity.flying.Nodup ∧ m.rly.parity.flying ≠ []
  (s.m.parityShape = none ∨ s.m.rly.parity.mode ≠ 0 → ∀ c ∈ commands, exec c s = s.becomes m0) ∧
  (∀ g r, s.m.parityShape = some (g, r) → s.m.rly.parity.mode = 0 →
    let n := s.m.parityN g r
    let a := s.m.parityBlock g r 0
    (0 < n → s.ends (exec (.parityRefresh step w) s) fun m => running m 1 ((g - r) * r * n) ∧
      (a % 32 = 0 → s.m.parityB g r % 32 = 0 → ∀ b, a ≤ b → b < a + r * s.m.parityB g r → m.byte b = 0#8)) ∧
    (s.m.clean header → s.m.parityStep ≠ step → s.ends (exec (.parityRebuildSurvivor step lost w) s) fun m =>
      bits (m.reg Reg.chkParityState) 63 62 = 3 ∧ m.rly = { s.m.rly with parity := {} } ∧ s.m.logs m 0x31 0xFFFF ∧
      s.m.sameStores m ∧ m.cores = s.m.cores) ∧
    ((∃ l ∈ header, rsDecode (s.m.codeword l) = .poisoned) → s.ends (exec (.parityRebuildSurvivor step lost w) s) fun m =>
      bits (m.reg Reg.chkParityState) 63 62 = 3 ∧ bits (m.reg Reg.chkParityState) 55 40 = 3 ∧
      m.rly = { s.m.rly with parity := {} } ∧ m.cores = s.m.cores) ∧
    (let count := (s.m.rebuildSends g r lost (s.m.place g)).length * ((List.range g).filter (bit lost)).length;
      s.m.clean header → s.m.parityStep = step → 0 < count → s.ends (exec (.parityRebuildSurvivor step lost w) s) fun m => running m 2 count) ∧
    ((∃ q, q < g ∧ bit lost q = false ∧ s.m.rebuildSends g r lost q ≠ []) → let m1 := (parityStep m0).2
      exec (.parityRebuildSpare step lost w) s = s.becomes { m1.setReg Reg.chkParityState (1 <<< 62 + m1.parityStep) with
        rly := { s.m.rly with parity := { mode := 3, step := step, lost := lost } } }))

/-! ## Mirzu transport (chapter 10) -/

/-- R252, R258, R260 to R263, R267 to R269: the header's fields stand where Table 10-3 puts them. A message that is posted
waits at its Rally, which opens if it was FREE or FAILED; a new packet takes the next PSN, stays unacknowledged and leaves on
the next usable path, if it is the Rally's turn there; an OPEN is repeated, a packet retransmitted and a path suspected when their times pass; suspect and
idle paths are probed; rates are adjusted; a delayed ACK goes out; a Rally without progress FAILS, keeping what it had not
opened; what waits for a context asks for it again before a send (log 49); and a context that has
been loaded is on chip. -/
def Obligations.MessagesSent : Prop := ∀ (s : State) (n : Nat), s.m.board.live = true → s.m.wf = true →
  let r := s.m.rally n
  let at' := fun now : Nat => ({ s.m with isl := Tab.put (fun _ => 0) s.m.isl 172 (trunc 64 (max now s.m.now)) } : M)
  let sends := fun (p : Nat) => s.m.portUp p = true ∧ s.m.macsecOk p = true ∧ s.m.board.portOff = false
  let quiet := fun (m : M) => s.m.sameStores m ∧ m.cores = s.m.cores ∧ ∀ k, k ≠ n → m.rally k = s.m.rally k
  let probed := fun (c : Instr) (path : Nat) => ∀ p, s.m.pathPort path = some p → s.ends (exec c s) fun m =>
    m.trn = s.m.trn ∧ s.m.sameStores m ∧ m.cores = s.m.cores ∧
    (sends p → Output.mirzu p (s.m.frame p n 0 true (s.m.header 6 0 n 0 0 0 0 path 0 0)) ∈ m.outs)
  (∀ t f d a b c l k cls tag body, let h := Hdr.parse (s.m.header t f d a b c l k cls tag ++ body)
    h.ver = 2 ∧ h.typ = trunc 4 t ∧ h.flags = trunc 4 f ∧ h.src = s.m.node ∧ h.dst = trunc 16 d ∧ h.epoch = s.m.epoch ∧
    h.b8 = trunc 32 a ∧ h.b12 = trunc 32 b ∧ h.b16 = trunc 32 c ∧ h.plen = trunc 16 l ∧ h.path = trunc 4 k ∧
    h.cls = trunc 4 cls ∧ h.tag = trunc 32 tag ∧ h.ts = trunc 32 s.m.now ∧ h.body = body) ∧
  (∀ cls tag pl, (s.m.board.stopped = true → exec (.messagePost n cls tag pl) s = .next s) ∧
    (s.m.board.stopped = false → s.ends (exec (.messagePost n cls tag pl) s) fun m => quiet m ∧
      (m.rally n).msgs = r.msgs ++ [{ cls := cls, tag := tag, lines := messageLines 0 pl [] }] ∧
      (s.m.trnReady = true → r.onChip = true → (r.out = 0 ∨ r.out = 3) →
        (m.rally n).out = 1 ∧ (m.rally n).openSeq = trunc 32 (r.openSeq + 1)) ∧
      (s.m.trnReady = false ∨ r.loading = true ∧ r.onChip = false ∨ r.onChip = true ∧ r.out ≠ 0 ∧ r.out ≠ 3 →
        (m.rally n).out = r.out ∧ m.outs = s.m.outs))) ∧
  (∀ now, let path := fun p : Pkt => (at' now).nextPath r (32 + p.body.length) r.rr
    ((r.out ≠ 2 ∨ r.windowOpen = false ∨ r.onChip = false ∨ r.nextPkt = none) ∨
      (∃ p r', r.nextPkt = some (p, r') ∧ (path p = none ∨ ∃ k, path p = some k ∧ (at' now).turnOf n k = false)) →
      s.m.trnReady = false ∨ r.onChip = true ∨ r.loading = true ∨ r.wantsOpen = false →
      exec (.packetSend n now) s = s.becomes (at' now)) ∧
    (s.m.trnReady = true → r.onChip = false → r.loading = false → r.wantsOpen = true → s.ends (exec (.packetSend n now) s) fun m => quiet m ∧
      (r.spilled = false → s.m.onChip.length < 1024 → (m.rally n).onChip = true) ∧
      (r.spilled = true → (s.m.onChip.length < 1024 ∨ s.m.evictee ≠ none) →
        m.rally n = { r with loading := true } ∧ m.reg Reg.trnCtxMisses = trunc 64 (s.m.reg Reg.trnCtxMisses + 1))) ∧
    (∀ p r' k port, r.out = 2 → r.windowOpen = true → r.onChip = true → r.nextPkt = some (p, r') →
      path p = some k → (at' now).turnOf n k = true → s.m.pathPort k = some port →
      s.ends (exec (.packetSend n now) s) fun m => quiet m ∧ (m.rally n).psn = trunc 32 (r.psn + 1) ∧
        (m.rally n).unacked = r.unacked ++ [{ p with path := k, sentAt := (at' now).now }] ∧
        (m.rally n).msgs = r'.msgs ∧ (m.rally n).stats = r'.stats ∧ (m.rally n).mseq = r'.mseq ∧
        (sends port → ∃ a, Output.mirzu port ((at' now).frame port n p.psn false
          ((at' now).pktBytes n { p with path := k, sentAt := (at' now).now } false a)) ∈ m.outs))) ∧
  (∀ us, let due := r.out = 1 ∧ min 10000 (bits (s.m.reg Reg.trnTiming) 15 8 * 2 ^ r.openSends) ≤ us
    (due → s.ends (exec (.openResend n us) s) fun m => quiet m ∧ (m.rally n).openSends = r.openSends + 1 ∧
      (m.rally n).out = 1 ∧ (m.rally n).openSeq = r.openSeq) ∧
    (¬ due → exec (.openResend n us) s = .next s)) ∧
  (∀ psn now, let due := fun p : Pkt => r.out = 2 ∧ p.sentAt + s.m.rto (r.path p.path) ≤ (at' now).now
    (r.unacked.find? (·.psn = psn) = none → exec (.retransmitTimeout n psn now) s = s.becomes (at' now)) ∧
    (∀ p, r.unacked.find? (·.psn = psn) = some p →
      (¬ due p → exec (.retransmitTimeout n psn now) s = s.becomes (at' now)) ∧
      (due p → Tab.wf PathSt.init r.paths = true → s.ends (exec (.retransmitTimeout n psn now) s) fun m => quiet m ∧
        ((m.rally n).path p.path).touts = (r.path p.path).touts + 1 ∧
        ((m.rally n).path p.path).suspect = ((r.path p.path).suspect || decide (1 ≤ (r.path p.path).touts)) ∧
        (m.rally n).unacked.map (·.psn) = r.unacked.map (·.psn) ∧ (m.rally n).msgs = r.msgs))) ∧
  (∀ path, (r.out = 2 → (r.path path).suspect = true → probed (.suspectProbe n path) path) ∧
    (r.out ≠ 2 ∨ (r.path path).suspect = false → exec (.suspectProbe n path) s = .next s) ∧
    (∀ us, 100 ≤ us → r.out = 2 → (r.path path).suspect = false → probed (.idlePathProbe n path us) path) ∧
    ∀ us, us < 100 ∨ r.out ≠ 2 ∨ (r.path path).suspect = true → exec (.idlePathProbe n path us) s = .next s) ∧
  (∀ path now, let c := Instr.rateAdjust n path now
    let p := r.path path
    let go := r.out = 2 ∧ s.m.pathPort path ≠ none ∧ p.adjustable (at' now).now = true
    (¬ go → exec c s = s.becomes (at' now)) ∧
    (go → Tab.wf PathSt.init r.paths = true → s.ends (exec c s) fun m => quiet m ∧
        let q := (m.rally n).path path
        let line := s.m.lineRate
        let rate := p.rate.getD line
        let slow := p.base ((at' now).now - 1000000 * Config.cyclesPerUs 172)
          + bits (s.m.reg Reg.trnTiming) 7 0 * Config.cyclesPerUs 172 < p.srtt
        q.ce = 0 ∧ q.recv = 0 ∧ q.srtt = p.srtt ∧ q.suspect = p.suspect ∧ q.adjusted = some (at' now).now ∧
        (0 < p.ce → q.rate = some (max (line / 64)
          (rate - rate * p.ce * bits (s.m.reg Reg.trnRate) 19 16 / (16 * p.recv)))) ∧
        (p.ce = 0 → slow → q.rate = some (max (line / 64) (rate - rate / 16))) ∧
        (p.ce = 0 → ¬ slow → q.rate = some (min line (rate + bits (s.m.reg Reg.trnRate) 15 0))))) ∧
  (r.inOpen = false ∨ r.since = 0 → exec (.ackDelayExpiry n) s = .next s) ∧
  (r.inOpen = true → r.since ≠ 0 → s.ends (exec (.ackDelayExpiry n) s) fun m => quiet m ∧
    m.rally n = { r with since := 0, recv := [], ce := [] } ∧ ∀ p, s.m.pathPort r.trig.1 = some p → sends p →
      ∃ f, Output.mirzu p f ∈ m.outs ∧ let h := Hdr.parse f.packet
        h.typ = 1 ∧ h.dst = trunc 16 n ∧ h.b8 = trunc 32 r.inAck ∧ h.b12 = trunc 32 r.trig.2 ∧
        leNat (h.body.take 256) = trunc 2048 r.sack) ∧
  (∀ ms, let due := bits (s.m.reg Reg.trnTiming) 31 16 ≤ ms ∧ (r.out = 1 ∨ (r.out = 2 ∧ r.unacked ≠ []))
    (¬ due → exec (.rallyGiveup n ms) s = .next s) ∧
    (due → s.ends (exec (.rallyGiveup n ms) s) fun m => (m.rally n).out = 3 ∧ (m.rally n).inOpen = false ∧
      ((∀ x ∈ r.msgs, x.owner = .none) → r.ins = [] → quiet m ∧
        (m.rally n).msgs = (if r.out = 1 then [] else r.msgs.filter (·.mseq.isNone)) ∧
        (m.rally n).unacked = [] ∧ (m.rally n).stats = []))) ∧
  (let room := decide (s.m.onChip.length < 1024)
   (r.loading = false ∨ (room = false ∧ s.m.evictee = none) → exec (.contextMissDone n) s = .next s) ∧
   (r.loading = true → r.missQ = [] → r.onChip = false → room = true ∨ s.m.evictee ≠ none →
    s.ends (exec (.contextMissDone n) s) fun m => (m.rally n).onChip = true ∧ (m.rally n).loading = false ∧
      (m.rally n).spilled = false ∧ (m.rally n).msgs = r.msgs ∧
      (r.spilled = false → r.wantsOpen = true → (r.out = 0 ∨ r.out = 3) → (m.rally n).out = 1) ∧
      (room = true → ∀ k, k ≠ n → m.rally k = s.m.rally k) ∧
      (room = false → ∀ k, s.m.evictee = some k → (m.rally k).onChip = false ∧ (m.rally k).spilled = true)))

/-- R256, R258 to R269, R272: what a packet does whose port receives. A bad one is dropped and counted, one whose context is
being loaded waits; DATA of an unknown epoch is answered by RESET; new DATA of class 2 is written where it names lines in a
window, and nowhere else; an ACK ends what it acknowledges; a MSG_STATUS ends its message; OPEN opens the inbound direction,
OPEN_ACK the outbound one; RESET opens it anew; a PROBE is answered, and its answer restores a suspect path. -/
def Obligations.PacketsReceived : Prop := ∀ (s : State) (port : Nat) (packet : List Byte),
  s.m.board.live = true → s.m.wf = true →
  let h := Hdr.parse packet
  let n := h.src
  let r := s.m.rally n
  let rows : List (Nat × Instr) := [(0, .data port false packet), (0, .data port true packet), (1, .ack port 0 packet),
    (2, .msgStatus port packet), (3, .openPacket port packet), (4, .openAck port packet), (5, .resetPacket port packet),
    (6, .probe port packet), (7, .probeReply port 0 packet)]
  let dropped := fun m : M => m.reg Reg.trnDrops = trunc 64 (s.m.reg Reg.trnDrops + 1) ∧ s.m.sameStores m ∧
    m.cores = s.m.cores ∧ m.boot = s.m.boot
  let receives := s.m.trnReady = true ∧ s.m.portUp port = true ∧ s.m.macsecOk port = true
  let taken := receives ∧ s.m.badPacket packet h = false ∧ r.onChip = true
  let touched := fun m : M => ∃ u, m.rally n = { r with used := u }
  let sends := fun (p : Nat) => s.m.portUp p = true ∧ s.m.macsecOk p = true ∧ s.m.board.portOff = false
  let answered := fun (m : M) (t b12 b16 : Nat) => ∀ p, s.m.pathPort h.path = some p → sends p →
    ∃ f, Output.mirzu p f ∈ m.outs ∧ let a := Hdr.parse f.packet
      a.typ = t ∧ a.dst = trunc 16 n ∧ a.b12 = trunc 32 b12 ∧ a.b16 = trunc 32 b16
  let d := trunc 32 (h.b8 + 2 ^ 33 - r.inAck - 1)
  let known := r.inOpen = true ∧ r.inEpoch = h.epoch
  let fresh := known ∧ d < 2048 ∧ bit r.sack d = false
  (∀ x ∈ rows, let c := x.2
    (¬ receives ∨ h.typ ≠ x.1 → s.ends (exec c s) fun m => m = { s.m with isl := m.isl }) ∧
    (receives → h.typ = x.1 → s.m.badPacket packet h = true → s.ends (exec c s) fun m => dropped m ∧ m.trn = s.m.trn) ∧
    (receives → h.typ = x.1 → s.m.badPacket packet h = false → r.onChip = false → r.loading = true →
      (r.missQ.length < 64 → s.ends (exec c s) fun m => s.m.sameStores m ∧ m.cores = s.m.cores ∧
        ∃ e, m.rally n = { r with missQ := r.missQ ++ [(port, e, packet)] }) ∧
      (64 ≤ r.missQ.length → s.ends (exec c s) fun m => dropped m ∧ m.trn = s.m.trn))) ∧
  (taken → h.typ = 0 → ∀ ce, let c := Instr.data port ce packet
    (¬ known → s.ends (exec c s) fun m => dropped m ∧ touched m ∧ answered m 5 0 h.epoch) ∧
    (known → ¬ fresh → d < 2048 ∨ 2 ^ 31 ≤ d → s.ends (exec c s) fun m => s.m.sameStores m ∧ m.cores = s.m.cores ∧
      (m.rally n).ins = r.ins ∧ (m.rally n).inAck = r.inAck ∧ (m.rally n).since = 0) ∧
    (known → 2048 ≤ d → d < 2 ^ 31 → s.ends (exec c s) fun m => dropped m ∧ (m.rally n).ins = r.ins) ∧
    (fresh → h.cls = 2 → r.ins.length < 32 → s.m.rly.parity.mode = 0 →
      (∀ i, i < h.plen / 36 → rsDecode (((codewordsOf h.body).getD i []).map (·.toNat)) = .ok) →
      (∀ x ∈ r.ins, (x.cls = 2 ∨ x.last = none) ∧
        (x.mseq = h.b12 → x.cls = 2 ∧ x.tag = h.tag ∧ x.aborted = false)) →
      let base := h.tag * 1024 + 32 * h.b16
      let len := 32 * (h.plen / 36)
      let ok := s.m.inWindow base len = true ∧ inRegion base len = true
      s.ends (exec c s) fun m => m.cores = s.m.cores ∧
        (ok → (∀ i, i < h.plen / 36 → m.bytes (base + 32 * i) 32 = ((codewordsOf h.body).getD i []).take 32) ∧
          ∀ a, a < base ∨ base + len ≤ a → m.byte a = s.m.byte a) ∧
        (¬ ok → s.m.sameStores m) ∧
        (d = 0 → r.sack = 0 → (m.rally n).inAck = trunc 32 (r.inAck + 1) ∧ (m.rally n).sack = 0))) ∧
  (taken → h.typ = 1 → ∀ now, s.ends (exec (.ack port now packet) s) fun m =>
    (r.out ≠ 2 → (m.rally n).unacked = r.unacked ∧ (m.rally n).acked = r.acked) ∧
    (r.out = 2 → (m.rally n).unacked.map (·.psn) = (r.unacked.filter fun p =>
        !ackedBy h.b8 (trunc 2048 (leNat h.body)) p.psn).map (·.psn) ∧
      (m.rally n).acked = if trunc 32 (h.b8 + 2 ^ 32 - r.acked) < 2 ^ 31 then h.b8 else r.acked)) ∧
  (taken → h.typ = 2 → fresh → s.ends (exec (.msgStatus port packet) s) fun m =>
    (∀ x, r.msgs.find? (fun x => x.mseq == some h.b12 && x.cls == h.cls && x.tag == h.tag) = some x →
      ∀ y ∈ (m.rally n).msgs, y.mseq ≠ some h.b12) ∧
    (d = 0 → r.sack = 0 → (m.rally n).inAck = trunc 32 (r.inAck + 1))) ∧
  (taken → h.typ = 3 → s.ends (exec (.openPacket port packet) s) fun m => (m.rally n).inOpen = true ∧
    (m.rally n).inEpoch = h.epoch ∧ (m.rally n).inOpenSeq = h.b12 ∧ answered m 4 h.b12 h.epoch ∧
    (known → r.inOpenSeq = h.b12 → touched m) ∧
    (¬ (known ∧ r.inOpenSeq = h.b12) → (m.rally n).inAck = 0xFFFFFFFF ∧ (m.rally n).sack = 0 ∧ (m.rally n).ins = [] ∧
      (bit h.flags 3 = true → r.inEpoch ≠ 0 → r.inEpoch ≠ h.epoch → (m.rally n).fenced = some r.inEpoch))) ∧
  (taken → h.typ = 4 → let mine := r.out = 1 ∧ h.b12 = r.openSeq ∧ bits h.b16 15 0 = s.m.epoch
    s.ends (exec (.openAck port packet) s) fun m => (¬ mine → touched m) ∧
      (mine → (m.rally n).out = 2 ∧ (m.rally n).psn = 0 ∧ (m.rally n).acked = 0xFFFFFFFF ∧ (m.rally n).unacked = [] ∧
        (m.rally n).msgs = r.msgs.map fun x => { x with mseq := none, sent := 0 })) ∧
  (taken → h.typ = 5 → let mine := r.out = 2 ∧ bits h.b16 15 0 = s.m.epoch
    s.ends (exec (.resetPacket port packet) s) fun m => (¬ mine → touched m) ∧
      (mine → (m.rally n).out = 1 ∧ (m.rally n).openSeq = trunc 32 (r.openSeq + 1) ∧ (m.rally n).unacked = [])) ∧
  (taken → h.typ = 6 → s.ends (exec (.probe port packet) s) fun m => touched m ∧ answered m 7 h.ts 0 ∧ s.m.sameStores m) ∧
  (taken → h.typ = 7 → Tab.wf PathSt.init r.paths = true → ∀ now, s.ends (exec (.probeReply port now packet) s) fun m =>
    ((m.rally n).path h.path).suspect = false ∧ ((m.rally n).path h.path).touts = 0 ∧ s.m.sameStores m)

/-- R247 to R251, R267, R271, R272: a frame is dropped and counted where its length, FCS, tag, kind or MACsec is wrong, and answered
where it asks; a link that comes up shows it, and one that goes down sends its packets elsewhere; a takeover takes the address of
the dead member under a new epoch, once for every reset, keeps the fences, tells every peer, and advertises itself on every port. -/
def Obligations.FramesLinksAndTakeover : Prop := ∀ (s : State) (port : Nat), s.m.board.live = true → s.m.wf = true →
  port < 64 →
  let st := s.m.reg (Reg.ethPortStatus port)
  let drops := fun (m : M) (one : Bool) => m.trn = s.m.trn ∧ s.m.sameStores m ∧ m.cores = s.m.cores ∧
    m.reg (Reg.ethRxDrop port) =
      if one then trunc 64 (s.m.reg (Reg.ethRxDrop port) + 1) else s.m.reg (Reg.ethRxDrop port)
  (∀ len fcs tagged vid kind ce uncorr an pn pl, let c := Instr.frameReceived port len fcs tagged vid kind ce pl uncorr an pn
    let vlan := tagged = true ∧ vid ≠ bits (s.m.reg (Reg.ethPortCtl port)) 27 16
    let fails := s.m.macsec port = true ∧ (s.m.sakOf port an = none ∨ kind = 5 ∨ ∃ k, s.m.sakOf port an = some k ∧ pn < k.low)
    (s.m.portUp port = false → exec c s = .next s) ∧
    (s.m.portUp port = true → s.ends (exec c s) fun m =>
      m.reg (Reg.ethFecUncorr port) = trunc 64 (s.m.reg (Reg.ethFecUncorr port) + uncorr)) ∧
    (s.m.portUp port = true → 9216 < len ∨ fcs = false → s.ends (exec c s) fun m => drops m true ∧ m.outs = s.m.outs) ∧
    (s.m.portUp port = true → len ≤ 9216 → fcs = true → s.m.macsecOk port = false ∨ fails → s.ends (exec c s) fun m =>
      drops m false ∧ m.outs = s.m.outs ∧ m.sec = s.m.sec) ∧
    (s.m.portUp port = true → len ≤ 9216 → fcs = true → s.m.macsecOk port = true → ¬ fails →
      (s.m.macsec port = true → s.ends (exec c s) fun m => (m.sakOf port an).map (·.low) = some (pn + 1)) ∧
      (vlan → s.ends (exec c s) fun m => drops m true ∧ m.outs = s.m.outs) ∧
      (¬ vlan → kind ∈ [1, 2, 3] → s.ends (exec c s) fun m => drops m false ∧
        m.outs = if s.m.board.portOff then s.m.outs else .answer port kind (s.m.eth port true) pl :: s.m.outs) ∧
      (¬ vlan → kind = 0 → (Hdr.parse pl).typ < 8 → s.ends (exec c s) fun m => drops m false ∧ m.outs = s.m.outs) ∧
      (¬ vlan → kind = 4 → s.ends (exec c s) fun m => drops m false ∧ m.outs = s.m.outs ∧
        m.reg Reg.trnDrops = trunc 64 (s.m.reg Reg.trnDrops + 1)) ∧
      (¬ vlan → 5 ≤ kind → s.ends (exec c s) fun m => drops m true ∧ m.outs = s.m.outs))) ∧
  (let may := bit (s.m.reg Reg.mgtReadyMap) 122 = true ∧ port < s.m.nPorts ∧ bit (s.m.reg (Reg.ethPortCtl port)) 31 = true ∧
      s.m.board.portOff = false
   (may → s.ends (exec (.portLinkUp port) s) fun m => s.m.sameBut m [Reg.ethPortStatus port] ∧ m.linkUp port = true ∧
      bit (m.reg (Reg.ethPortStatus port)) 29 = true ∧ bits (m.reg (Reg.ethPortStatus port)) 28 27 = 0 ∧
      bits (m.reg (Reg.ethPortStatus port)) 26 0 = bits st 26 0) ∧
   (¬ may → exec (.portLinkUp port) s = .next s)) ∧
  (∀ fault, (s.m.linkUp port = false → exec (.portLinkDown port fault) s = .next s) ∧
    (s.m.linkUp port = true → s.ends (exec (.portLinkDown port fault) s) fun m =>
      bits (m.reg (Reg.ethPortStatus port)) 31 30 = b2n (bit (s.m.reg (Reg.ethPortCtl port)) 28) ∧
      bit (m.reg (Reg.ethPortStatus port)) 29 = false ∧ (bit (m.reg (Reg.ethPortStatus port)) 28 = true ↔ fault = 1) ∧
      (bit (m.reg (Reg.ethPortStatus port)) 27 = true ↔ fault = 2) ∧ s.m.sameStores m ∧ m.cores = s.m.cores ∧
      ∀ n, (m.rally n).unacked.map (·.psn) = (s.m.rally n).unacked.map (·.psn) ∧ (m.rally n).msgs = (s.m.rally n).msgs)) ∧
  (∀ w v, s.m.admits w false → let m0 := s.m.accessed w
    let may := bit (s.m.reg Reg.chkRedundancy) 2 = true ∧ s.m.trn.tkUsed = false ∧ bit v 31 = true
    let node := bits v 11 0
    let peers := s.m.imagePeers node
    (¬ may → exec (.trnTakeover v w) s = s.becomes
      (m0.setReg Reg.trnTakeoverState (setBits (s.m.reg Reg.trnTakeoverState) 31 30 3))) ∧
    (may → s.ends (exec (.trnTakeover v w) s) fun m => m.node = node ∧ m.rank = bits v 27 16 ∧
      1 ≤ m.epoch ∧ m.epoch < 2 ^ 16 ∧ m.trn.tkUsed = true ∧ m.trn.tkPeers = peers ∧
      bits (m.reg Reg.trnTakeoverState) 31 30 = (if peers = [] then 2 else 1) ∧
      (∀ n ∈ peers, (m.rally n).takeover = true ∧ (m.rally n).msgs = [] ∧ (m.rally n).inOpen = false) ∧
      (peers.length ≤ 1024 → ∀ n ∈ peers, (m.rally n).out = 1) ∧ (∀ n, (m.rally n).fenced = (s.m.rally n).fenced) ∧
      ∀ n, n ∉ peers → m.rally n = { fenced := (s.m.rally n).fenced })) ∧
  ∀ k, (k < 3 → s.m.trn.tkUsed = true → s.ends (exec (.takeoverAdvertise k) s) fun m => m.trn = s.m.trn ∧
      s.m.sameStores m ∧ m.cores = s.m.cores ∧
      ∀ p, p < s.m.nPorts → s.m.portUp p = true → s.m.macsecOk p = true → s.m.board.portOff = false →
        Output.advert p (s.m.eth p true) s.m.ip4 (!s.m.ip4)
          (beBytes (if s.m.ip4 then 4 else 16) (s.m.ipOf s.m.node p)) (beBytes 6 (s.m.macOf s.m.node p)) ∈ m.outs) ∧
    (3 ≤ k ∨ s.m.trn.tkUsed = false → exec (.takeoverAdvertise k) s = .next s)

/-! ## Relay engines (chapter 11) -/

/-- R275, R281 to R283, R288 to R293, R296: a group record is cached; a collective starts once it is, with the digest of its
descriptor. AGREEs are gathered, and pass up; the root answers GO, or NOGO where a digest differs. GO lets a member begin, or
closes a verdict; NOGO, ABORT, a timeout and a finished collective end it with their status. A doorbell moves a communication
queue on, and a flush drops a record that nothing uses. -/
def Obligations.CollectivesAgreeAndEnd : Prop := ∀ (s : State) (e group src : Nat) (line0 : List Byte),
  s.m.board.live = true → s.m.wf = true → e < 4 →
  let h := Line0.parse line0
  let frame := fun m : M => s.m.sameStores m ∧ m.cores = s.m.cores ∧ m.boot = s.m.boot ∧
    { m.sec with ports := s.m.sec.ports } = s.m.sec
  (∀ q : Instr, q ∈ [.agree e group src line0, .go e group src line0, .nogo e group src line0,
      .abortMessage e group src line0, .credit e group src line0] →
    (∀ c, s.m.coll e group h.seq = some c → c.rankOf src = none) → exec q s = .next s) ∧
  (∀ c r, s.m.coll e group h.seq = some c → c.rankOf src = some r →
    let alone := (∀ k d, k < 4 → d ∈ (s.m.eng k).colls → d.group = group → k = e ∧ d = c) ∧
      s.m.rly.queues.find? (·.group = group) = none
    let posted := fun (m : M) (k index origin code flags elems bytes aux : Nat) => s.m.board.stopped = false →
      ∃ x ∈ (m.rally (c.nodeOf k)).msgs, x.cls = 1 ∧ x.tag = collTag group 2 e ∧ x.owner = .control e group h.seq ∧
        x.lines = messageLines 0 (c.line0 index origin code flags elems bytes aux) []
    let ended := fun (m : M) (status : Nat) => m.coll e group h.seq = none ∧ ∀ core x, c.ring = some (core, x) →
      (m.ring core 3).infl = (s.m.ring core 3).infl.map fun f => if f.x = x ∧ !f.done then { f with
        done := true, own := status, flags := f.flags ||| c.flags
        result := if c.cd.op = 4 then min c.drops (2 ^ 32 - 1) else 0 } else f
    let mismatch := fun (m : M) (node digest : Nat) => ended m 9 ∧
      m.reg Reg.rlyMismatch = trunc 64 (s.m.reg Reg.rlyMismatch + 1) ∧
      m.reg Reg.rlyLastMismatch = trunc 16 group <<< 112 + trunc 12 node <<< 88 + trunc 64 digest ∧
      ∀ k ∈ c.kids 0 c.me, posted m k 0 node 2 0 9 (trunc 32 digest) (digest >>> 32)
    let a : Agreed := { rank := r, bits := trunc 2 h.flags, bad := if h.digest = c.digest then none else some (src, h.digest)
                        dis := if bit h.flags 3 then some (trunc 12 h.origin, h.bytes + h.aux <<< 32) else none }
    let c1 := { c with agreed := c.agreed ++ [a] }
    let hears := h.code = 0 ∧ r ∈ c.kids 0 c.me ∧ c.agreeSent = false ∧ ∀ k ∈ c.agreed, k.rank ≠ r
    let own := if c.cd.close then ((s.m.verdictEntry group).map fun k => s.m.accumulated k c.step).getD 0 else 0
    let v := c1.agreed.foldl (fun b k => b ||| k.bits) own
    let fromParent := c.parent 0 c.me = some r
    (¬ hears → exec (.agree e group src line0) s = .next s) ∧
    (hears → s.m.agreeReady c1 = false → s.ends (exec (.agree e group src line0) s) fun m =>
      m = { s.m with rly := m.rly } ∧ m.coll e group h.seq = some c1) ∧
    (hears → s.m.agreeReady c1 = true → ∀ p, c.parent 0 c.me = some p →
      s.ends (exec (.agree e group src line0) s) fun m => frame m ∧
        m.coll e group h.seq = some { c1 with agreeSent := true } ∧ (c1.dispute = none → posted m p 0 0 0 v 0 0 0) ∧
        ∀ node d, c1.dispute = some (node, d) → posted m p 0 node 0 (v + 8) 0 (trunc 32 d) (d >>> 32)) ∧
    (hears → s.m.agreeReady c1 = true → c.parent 0 c.me = none → c1.dispute = none →
      ¬ (c.cd.close = true ∧ c.cd.count = 0) → s.ends (exec (.agree e group src line0) s) fun m => frame m ∧
        m.coll e group h.seq = some { c1 with go := true, agreeSent := true, verdict := v } ∧
        ∀ k ∈ c.kids 0 c.me, posted m k 0 0 1 v 0 0 0) ∧
    (hears → s.m.agreeReady c1 = true → c.parent 0 c.me = none → alone → ∀ node d, c1.dispute = some (node, d) →
      s.ends (exec (.agree e group src line0) s) fun m =>
        m.coll e group h.seq = none ∧ ∀ k ∈ c.kids 0 c.me, posted m k 0 node 2 0 9 (trunc 32 d) (d >>> 32)) ∧
    (let hearsGo := h.code = 1 ∧ fromParent ∧ c.agreeSent = true ∧ c.go = false
     let w := trunc 2 h.flags
     (¬ hearsGo → exec (.go e group src line0) s = .next s) ∧
     (hearsGo → ¬ (c.cd.close = true ∧ c.cd.count = 0) → c.early = [] → s.ends (exec (.go e group src line0) s) fun m => frame m ∧
        m.coll e group h.seq = some { c with go := true, agreeSent := true, verdict := w } ∧
        ∀ k ∈ c.kids 0 c.me, posted m k 0 0 1 w 0 0 0) ∧
     (hearsGo → c.cd.close = true → c.cd.count = 0 → c.cd.op ≠ 4 → alone → ∀ k, s.m.verdictEntry group = some k →
        s.ends (exec (.go e group src line0) s) fun m => ended m 0 ∧ m.verdictStep k = trunc 40 c.step ∧
          m.verdictState k = if bit w 0 then 3 else if bit w 1 then 4 else 2)) ∧
    (let hearsNo := h.code = 2 ∧ fromParent ∧ c.go = false
     (¬ hearsNo → exec (.nogo e group src line0) s = .next s) ∧
     (hearsNo → alone → s.ends (exec (.nogo e group src line0) s) fun m =>
        mismatch m (trunc 12 h.origin) (h.bytes + h.aux <<< 32))) ∧
    (let hearsAbort := h.code = 3 ∧ r ∈ c.neighbours
     (¬ hearsAbort → exec (.abortMessage e group src line0) s = .next s) ∧
     (hearsAbort → alone → s.ends (exec (.abortMessage e group src line0) s) fun m => ended m (trunc 16 h.elems) ∧
        ∀ k ∈ c.neighbours, k ≠ r → posted m k 0 (trunc 12 h.origin) 3 0 (trunc 16 h.elems) 0 0)) ∧
    (c.workDone = false → exec (.collectiveComplete e group h.seq) s = .next s) ∧
    (c.workDone = true → alone → s.ends (exec (.collectiveComplete e group h.seq) s) fun m =>
      ended m c.okStatus ∨ (c.cd.op = 4 ∧ ended m 3)) ∧
    (∀ ms, let q := Instr.collectiveProgressTimeout e group h.seq ms
      (ms < c.limit → exec q s = .next s) ∧
      (c.limit ≤ ms → alone → s.ends (exec q s) fun m => ended m 0xA ∧
        m.reg Reg.rlyTimeout = trunc 64 (s.m.reg Reg.rlyTimeout + 1) ∧
        ∀ k ∈ c.neighbours, posted m k 0 s.m.node 3 0 0xA 0 0))) ∧
  (∀ q, s.m.coll e group q = none → exec (.collectiveComplete e group q) s = .next s ∧
    ∀ ms, exec (.collectiveProgressTimeout e group q ms) s = .next s) ∧
  (∀ core x seq ms, let q := Instr.collectiveProgressTimeout e group seq ms (some (core, x))
    let remote := (s.m.ring core 3).infl.find? (·.shipping x)
    ((∀ f, remote = some f → ms < f.limit) → exec q s = .next s) ∧
    (∀ f, remote = some f → f.limit ≤ ms → s.ends (exec q s) fun m => s.m.sameStores m ∧
      (m.ring core 3).infl = (s.m.ring core 3).infl.map fun f => if f.x = x ∧ !f.done then { f with
        done := true, own := 0xA, result := 0 } else f)) ∧
  (let wanted := (∃ c ∈ (s.m.eng e).colls, c.group = group) ∧ ∀ x ∈ (s.m.eng e).cache, x.1 ≠ group
   let a := s.m.reg Reg.rlyGroupBase + 32 * group
   let g := GroupRec.parse (s.m.num a 32)
   let nodes := (List.range (min g.p 4096)).map fun i => bits (s.m.num (g.members + 2 * i) 2) 11 0
   let cache := (s.m.eng e).cache
   (¬ wanted → exec (.groupRecordFetchDone e group) s = .next s) ∧
   (wanted → s.m.clean (linesOf a 32) → s.m.clean (linesOf g.members (2 * min g.p 4096)) →
     s.ends (exec (.groupRecordFetchDone e group) s) fun m => frame m ∧
       (m.eng e).cache = (if 256 ≤ cache.length then cache.drop 1 else cache) ++ [(group, s.m.num a 32, nodes)] ∧
       (m.eng e).colls = (s.m.eng e).colls ∧
       m.reg (Reg.rlyGcacheMiss e) = trunc 64 (s.m.reg (Reg.rlyGcacheMiss e) + 1)) ∧
   (wanted → (∃ l ∈ linesOf a 32, rsDecode (s.m.codeword l) = .poisoned) →
     s.ends (exec (.groupRecordFetchDone e group) s) fun m => (m.eng e).cache = cache)) ∧
  ((∀ c ∈ (s.m.eng e).colls, c.started = true) → exec (.collectiveStart e) s = .next s) ∧
  (∀ i c, (s.m.eng e).colls.findIdx? (fun c => !c.started) = some i → (s.m.eng e).colls[i]? = some c →
    let cached := (s.m.eng e).cache.find? (·.1 = c.group)
    (cached = none → exec (.collectiveStart e) s = .next s) ∧
    (∀ x rec nodes, cached = some (x, rec, nodes) →
      let fits := ((s.m.eng e).colls.filter (·.started)).length < 64 ∧
        s.m.staged e + c.cd.staging (GroupRec.parse rec) ≤ 1024 * s.m.reg (Reg.rlyStageSize e)
      (¬ fits → exec (.collectiveStart e) s = .next s) ∧
      let newer := ∀ l, s.m.last e c.group = some l → trunc 32 (c.seq + 2 ^ 32 - l) < 2 ^ 31
      (fits → c.cd.op ≠ 4 → c.cd.close = false → c.agreed = [] → s.m.coll e c.group c.seq = none →
        (∀ j d, (s.m.eng e).colls[j]? = some d → d.started = false → d.group = c.group → j = i) →
        s.ends (exec (.collectiveStart e) s) fun m => frame m ∧ ∃ c', (m.eng e).colls = (s.m.eng e).colls.set i c' ∧
          c'.started = true ∧ c'.grp = rec ∧ c'.members = nodes ∧ c'.digest = c'.digestNow ∧ c'.od = c.od ∧
          (newer → m.last e c.group = some c.seq) ∧ (¬ newer → m.last e c.group = s.m.last e c.group) ∧
          (∀ k, k < 4 → k ≠ e → m.eng k = s.m.eng k) ∧
          (c'.kids 0 c'.me = [] → c.agreeSent = false → c'.agreeSent = true ∧
            (c'.parent 0 c'.me = none → c'.go = true))))) ∧
  (∀ w v, s.m.admits w false → let m0 := s.m.accessed w
    let g := bits v 15 0
    let q := (s.m.rly.queues.find? (·.group = g)).getD { group := g }
    let ok := bit (s.m.reg Reg.mgtReadyMap) 124 = true ∧ (s.m.groupRec g).cqEn = true ∧
      trunc 32 (bits v 63 32 + 2 ^ 32 - q.rd) ≤ 2 ^ (s.m.groupRec g).cqLog2
    (¬ ok → exec (.rlyCqDoorbell v w) s = s.becomes m0) ∧
    (ok → s.ends (exec (.rlyCqDoorbell v w) s) fun m => ∃ q' ∈ m.rly.queues, q'.group = g ∧ q'.wr = bits v 63 32 ∧
      (q.rd = bits v 63 32 → q'.rd = q.rd ∧ m = { m0 with rly := m.rly })) ∧
    let idle := ∀ k d, k < 4 → d ∈ (s.m.eng k).colls → d.group ≠ g
    (¬ idle → exec (.rlyGcacheFlush v w) s = s.becomes m0) ∧
    (idle → s.ends (exec (.rlyGcacheFlush v w) s) fun m => m = { m0 with rly := m.rly } ∧
      ∀ k, k < 4 → (m.eng k).cache = (s.m.eng k).cache.filter (·.1 ≠ g) ∧ (m.eng k).colls = (s.m.eng k).colls))

/-- R284 to R287, R289 to R291: CREDIT raises what a member may send, and lets a ready chunk go; a leaf sends its
contributions as exact records; a chunk from a child is added to what has been gathered, and the last one completes it; a
chunk from the parent is taken once; one that comes before GO waits for it; a header that does not match ends the collective with a
mismatch. A chunk goes through its buffer in the staging pool (log 70). -/
def Obligations.ChunksTravel : Prop := ∀ (s : State) (e group src : Nat) (line0 body : List Byte) (bad : List Nat),
  s.m.board.live = true → s.m.wf = true → e < 4 →
  let h := Line0.parse line0
  let reduce := Instr.reduceChunkReceived e group src line0 body bad
  let broadcast := Instr.broadcastChunkReceived e group src line0 body bad
  let staged := fun (c : Coll) (buf : Nat) (m : M) => ∀ a, (∀ i, i < 32 * c.cd.chunkKib →
    a / 32 ≠ (s.m.reg (Reg.rlyStageBase e) + 1024 * runAt c.units (buf * c.cd.chunkKib + i / 32) + 32 * (i % 32)) / 32) →
    m.byte a = s.m.byte a
  ((∀ c, s.m.coll e group h.seq = some c → c.rankOf src = none) → exec reduce s = .next s ∧ exec broadcast s = .next s) ∧
  (∀ c r, s.m.coll e group h.seq = some c → c.rankOf src = some r → c.go = false →
    ∀ x ∈ [(reduce, 0), (broadcast, 1)], s.ends (exec x.1 s) fun m => m = { s.m with rly := m.rly } ∧
      m.coll e group h.seq = some { c with early := c.early ++ [(x.2, r, line0, body, bad)] }) ∧
  (∀ q leg g, (∀ c, s.m.coll e group q = some c → c.go = false ∨ c.chunk g = none ∨
      (c.ready = [] ∧ ∀ k, c.chunk g = some k → c.ownable leg k = false)) →
    exec (.chunkSend e group q leg g) s = .next s) ∧
  (∀ q g c k p, s.m.coll e group q = some c → c.go = true → c.chunk g = some k → c.cd.reduces = true → c.cd.wire ≠ 2 →
    g ∉ c.own → c.kids k.shard c.me = [] → c.parent k.shard c.me = some p → c.ready = [] →
    c.nextFor p 0 g = true → c.creditFor p 0 g = true →
    (∀ x, k.first ≤ x → x < k.first + k.n → s.m.clean (c.srcTd.linesAt x)) →
    let sent := ((List.range' k.first k.n).map fun x => some (s.m.contribution c.srcTd c.isL x)).flatMap (encodeCarry c.isL)
    s.ends (exec (.chunkSend e group q 0 g) s) fun m => m.cores = s.m.cores ∧
      staged c (c.buffer (c.gr.fanin + 1) ((c.toRank 0 p).idxOf k.g)) m ∧
      (∃ c', m.coll e group q = some c' ∧ g ∈ c'.own ∧ 2 * k.g ∈ c'.done ∧ c'.ready = [] ∧ (0, p, k.g) ∈ c'.flying) ∧
      (s.m.board.stopped = false → ∃ x ∈ (m.rally (c.nodeOf p)).msgs, x.cls = 1 ∧ x.tag = collTag group 0 e ∧
        x.owner = .chunk e group q 0 k.g ∧
        x.lines = messageLines 0 (c.line0 k.g 0 0 0 k.n sent.length 0) [] ++ messageLines 1 sent [])) ∧
  (∀ c r, s.m.coll e group h.seq = some c → c.rankOf src = some r →
    let leg := bits h.flags 2 2
    let top := max h.index ((assoc c.held r leg).getD 0)
    (h.code ≠ 4 → exec (.credit e group src line0) s = .next s) ∧
    (h.code = 4 → s.ends (exec (.credit e group src line0) s) fun m => s.m.sameStores m ∧ m.cores = s.m.cores ∧
      ∃ c', m.coll e group h.seq = some c' ∧ c'.held = assocSet c.held r leg top ∧
        (c.ready = [] → c' = { c with held := assocSet c.held r leg top }) ∧
        ∀ x, c.ready = [x] → x.rank = r → x.leg = leg → x.g ≤ top → c.nextFor r leg x.g = true →
          c'.ready = [] ∧ (leg, r, x.g) ∈ c'.flying) ∧
    (c.go = true →
      let alone := (∀ k d, k < 4 → d ∈ (s.m.eng k).colls → d.group = group → k = e ∧ d = c) ∧
        s.m.rly.queues.find? (·.group = group) = none
      let fits := fun leg' => c.headerOk leg' r h = true ∧ h.bytes ≤ body.length
      let fails := fun q : Instr => s.ends (exec q s) fun m => m.coll e group h.seq = none ∧
        m.reg Reg.rlyMismatch = trunc 64 (s.m.reg Reg.rlyMismatch + 1) ∧
        m.reg Reg.rlyLastMismatch = trunc 16 group <<< 112 + trunc 12 (c.nodeOf r) <<< 88 + trunc 64 h.digest
      (¬ fits 0 → alone → fails reduce) ∧ (¬ fits 1 → alone → fails broadcast) ∧
      (∀ k, c.chunk h.index = some k → fits 0 → c.cd.op ≠ 4 →
        let old := c.gather.find? (·.g = k.g)
        let kids := ((old.map (·.kids)).getD []) ++ [r]
        let all := (c.kids k.shard c.me).all kids.contains
        (c.readReduce k r (body.take h.bytes) bad = none → alone → fails reduce) ∧
        ∀ l, c.readReduce k r (body.take h.bytes) bad = some l →
          ((∃ o, old = some o ∧ r ∈ o.kids) → s.ends (exec reduce s) fun m => m = { s.m with regs := m.regs }) ∧
          ((∀ o, old = some o → r ∉ o.kids) → all = false → s.ends (exec reduce s) fun m =>
            staged c (c.buffer ((c.kids k.shard c.me).idxOf r) ((c.fromRank 0 r).idxOf k.g)) m ∧ m.cores = s.m.cores ∧
            m.trn = s.m.trn ∧ ∃ c', m.coll e group h.seq = some c' ∧
              c' = { c with gather := (c.gather.filter (·.g ≠ k.g)) ++
                [⟨k.g, kids, match old with | none => l | some o => List.zipWith mergeCarry o.sums l⟩] }) ∧
          ((∀ o, old = some o → r ∉ o.kids) → all = true → s.ends (exec reduce s) fun m =>
            ∃ c', m.coll e group h.seq = some c' ∧ (∀ x ∈ c'.gather, x.g ≠ k.g) ∧
              (c.parent k.shard c.me ≠ none ∨ isMx c.dstTd.fmt = false ∨ c.dstTd.exact = true → 2 * k.g ∈ c'.done))) ∧
      (∀ k, c.chunk h.index = some k → fits 1 →
        (2 * k.g + 1 ∈ c.done → s.ends (exec broadcast s) fun m => m = { s.m with regs := m.regs }) ∧
        (2 * k.g + 1 ∉ c.done → ¬ (c.cd.op = 2 ∧ c.dstTd.exact = true) → c.dstTd.plainLen k.n ≤ h.bytes →
          s.ends (exec broadcast s) fun m => ∃ c', m.coll e group h.seq = some c' ∧ 2 * k.g + 1 ∈ c'.done ∧
            c'.flags = c.flags ||| trunc 7 h.flags ∧ (bad ≠ [] → c'.poison = true)))))

/-- R287: an exact-carry record holds its element. Decoding what a sum within its class is encoded as gives the sum back, with
the length of the record; a special element keeps its side state, an empty one stays empty and a poisoned one poisoned. -/
def Obligations.CarryRecordsHoldSums : Prop := ∀ (isL : Bool) (a : ExAcc) (rest : List Byte),
  -(2 ^ (32 * collBands isL - 1) : Int) ≤ a.sum → a.sum < 2 ^ (32 * collBands isL - 1) →
  let bs := encodeCarry isL (some a)
  let v : ExAcc := if a.special then ⟨0, { a.side with negzero := false, anyterm := true }⟩
    else if a.sum = 0 then ⟨0, { anyterm := a.side.anyterm, negzero := a.side.anyterm && a.side.negzero }⟩
    else ⟨a.sum, { anyterm := true }⟩
  decodeCarry isL (bs ++ rest) = some (some v, bs.length) ∧
  decodeCarry isL (encodeCarry isL none ++ rest) = some (none, 1)

/-! ## Event counters and scorecards (chapter 17) -/

/-- R407 to R417, R419: a counter counts the occurrences of the event that it selects, adding each or one for any, modulo 2^64,
and shows an overflow; a select takes effect if its code belongs to the counter; a value written is the counter's; a bandwidth
window ends with its byte counts, whose upper half a read of the lower latches; scorecards start at SEQ 0 with the far store
ready, and at each tick every enabled group writes its record in its place. What an idle step adds to the island counters is
the model's choice (log 4). -/
def Obligations.CountersAndScorecards : Prop := ∀ s : State, s.m.board.live = true → s.m.wf = true →
  (∀ pos c code n who, c < 40 → let sel := s.m.reg (Reg.posCntSel pos c)
    let m := (posCount pos c 1 code n who s.m).2
    let counts := bit (s.m.reg (Reg.posCntCtl pos)) 0 = false ∧ bit sel 31 = true ∧ bits sel 9 0 = code ∧ n ≠ 0 ∧
      (bit sel 29 = true → s.m.reg (Reg.posCntOwner pos c) = who)
    let v := s.m.reg (Reg.posCnt pos c) + if bit sel 30 then 1 else n
    (¬ counts → m = s.m) ∧ (counts → m.reg (Reg.posCnt pos c) = trunc 64 v ∧
      (v < 2 ^ 64 → s.m.sameBut m [Reg.posCnt pos c]) ∧
      (2 ^ 64 ≤ v → s.m.sameBut m [Reg.posCnt pos c, Reg.posCntOvf pos] ∧ bit (m.reg (Reg.posCntOvf pos)) c = true))) ∧
  (∀ i c v, i < 128 → c < 40 → ∀ w, s.m.admits w false → let m0 := s.m.accessed w
    (posCodeOk c (bits v 9 0) = true → s.ends (exec (.counterSelectWrite 0 i c v w) s) fun m =>
      m.reg (Reg.posCntSel i c) = v &&& 0xE00003FF ∧ m.reg (Reg.posCntOwner i c) = s.m.runningAt i ∧
      bits (m.reg (Reg.posSelGen i)) 31 0 = trunc 32 (bits (s.m.reg (Reg.posSelGen i)) 31 0 + 1) ∧
      m0.sameBut m [Reg.posCntSel i c, Reg.posCntOwner i c, Reg.posSelGen i]) ∧
    (posCodeOk c (bits v 9 0) = false → exec (.counterSelectWrite 0 i c v w) s = s.becomes m0) ∧
    exec (.counterWrite 0 i c v w) s = s.becomes (m0.setReg (Reg.posCnt i c) (trunc 64 v))) ∧
  (∀ i c v, i < 16 → c < 64 → ∀ w, s.m.admits w false → let m0 := s.m.accessed w
    (portCodeOk (bits v 9 0) = true → s.ends (exec (.counterSelectWrite 1 i c v w) s) fun m =>
      m.reg (Reg.cntESel i c) = v &&& 0xDC0003FF ∧
      m.reg (Reg.ioSelGen (152 + i)) = trunc 32 (s.m.reg (Reg.ioSelGen (152 + i)) + 1) ∧
      m0.sameBut m [Reg.cntESel i c, Reg.ioSelGen (152 + i)]) ∧
    (portCodeOk (bits v 9 0) = false → exec (.counterSelectWrite 1 i c v w) s = s.becomes m0) ∧
    exec (.counterWrite 1 i c v w) s = s.becomes (m0.setReg (Reg.cntE i c) (trunc 64 v))) ∧
  (∀ i c v, i < 4 → c < 64 → ∀ w, s.m.admits w false → let m0 := s.m.accessed w
    (relayCodeOk (bits v 9 0) = true → s.ends (exec (.counterSelectWrite 2 i c v w) s) fun m =>
      m.reg (Reg.cntRSel i c) = v &&& 0xC00003FF ∧
      m.reg (Reg.ioSelGen (168 + i)) = trunc 32 (s.m.reg (Reg.ioSelGen (168 + i)) + 1) ∧
      m0.sameBut m [Reg.cntRSel i c, Reg.ioSelGen (168 + i)]) ∧
    (relayCodeOk (bits v 9 0) = false → exec (.counterSelectWrite 2 i c v w) s = s.becomes m0) ∧
    exec (.counterWrite 2 i c v w) s = s.becomes (m0.setReg (Reg.cntR i c) (trunc 64 v))) ∧
  (∀ n tx rx, exec (.bandwidthWindowEnd n tx rx) s = s.becomes (s.m.setReg (Reg.cntBw n)
    (trunc 32 (bits (s.m.reg (Reg.cntBw n)) 127 96 + 1) <<< 96 + trunc 48 rx <<< 48 + trunc 48 tx))) ∧
  (∀ n w, n < 16 → s.m.admits w false → let v := s.m.reg (Reg.cntBw n)
    exec (.cntBwReadLatch n w) s = s.becomes (((s.m.accessed w).setReg (Reg.cntBwLatch n) (1 <<< 64 + word64 v 1)).out
      (if w = 0 then .regData (word64 v 0) else .coreData (w - 1) (word64 v 0)))) ∧
  (∀ w v, s.m.admits w false → let m0 := s.m.accessed w
    let ctl := s.m.reg Reg.cntScdCtl
    let may := bit (s.m.reg Reg.mgtReadyMap) 121 = true ∧ s.m.scdFits (bits v 4 0) = true
    (bit v 31 = false → exec (.cntScdEnable v w) s = s.becomes (m0.setReg Reg.cntScdCtl
      (if bit ctl 31 then bits ctl 4 0 else bits v 4 0))) ∧
    (bit v 31 = true → bit ctl 31 = true ∨ ¬ may → exec (.cntScdEnable v w) s = s.becomes m0) ∧
    (bit v 31 = true → bit ctl 31 = false → may → s.ends (exec (.cntScdEnable v w) s) fun m =>
      m.reg Reg.cntScdCtl = 1 <<< 31 + bits v 4 0 ∧ m.reg Reg.cntScdSeq = 0 ∧
      m0.sameBut m [Reg.cntScdCtl, Reg.cntScdSeq, Reg.cntScdDone])) ∧
  (let ctl := s.m.reg Reg.cntScdCtl
   let seq := s.m.reg Reg.cntScdSeq
   let groups := s.m.scdGroups
   let base := s.m.reg Reg.cntScdBase
   let frame := base + 576 * (groups.length * (seq % 2 ^ min 16 (bits ctl 4 0)))
   (bit ctl 31 = false → exec .scorecardTick s = .next s) ∧
   (bit ctl 31 = true → base % 32 = 0 → s.ends (exec .scorecardTick s) fun m =>
    (∀ j i, groups[j]? = some i → m.bytes (frame + 576 * j) 576 = s.m.scdRecord seq i) ∧
    (∀ a, a < frame ∨ frame + 576 * groups.length ≤ a → m.byte a = s.m.byte a) ∧
    m.reg Reg.cntScdDone = seq ∧ m.reg Reg.cntScdSeq = trunc 32 (seq + 1) ∧ m.cores = s.m.cores)) ∧
  (s.pending = [] → step s = s.becomes { s.m with isl := s.m.idle.isl, ticks := s.m.ticks + 1 } ∧
    ∀ i, i < 179 → s.m.idle.island i = trunc 64 (s.m.island i + Config.tickCycles s.m.ticks i))
end

