-- ==== Sys2Proof/Laws/State.lean ====
section
/-! SUPPORT. What each named update of the machine leaves of each field: one lemma per field and update. -/

namespace Sys2Proof.Machine

@[simp] theorem M.setReg_mem (s : M) (o v : Nat) : (s.setReg o v).mem = s.mem := rfl
@[simp] theorem M.setReg_chk (s : M) (o v : Nat) : (s.setReg o v).chk = s.chk := rfl
@[simp] theorem M.setReg_isl (s : M) (o v : Nat) : (s.setReg o v).isl = s.isl := rfl
@[simp] theorem M.setReg_logBuf (s : M) (o v : Nat) : (s.setReg o v).logBuf = s.logBuf := rfl
@[simp] theorem M.setReg_cores (s : M) (o v : Nat) : (s.setReg o v).cores = s.cores := rfl
@[simp] theorem M.setReg_pos (s : M) (o v : Nat) : (s.setReg o v).pos = s.pos := rfl
@[simp] theorem M.setReg_heldBy (s : M) (o v : Nat) : (s.setReg o v).heldBy = s.heldBy := rfl
@[simp] theorem M.setReg_board (s : M) (o v : Nat) : (s.setReg o v).board = s.board := rfl
@[simp] theorem M.setReg_cxl (s : M) (o v : Nat) : (s.setReg o v).cxl = s.cxl := rfl
@[simp] theorem M.setReg_hostQ (s : M) (o v : Nat) : (s.setReg o v).hostQ = s.hostQ := rfl
@[simp] theorem M.setReg_boot (s : M) (o v : Nat) : (s.setReg o v).boot = s.boot := rfl
@[simp] theorem M.setReg_fuses (s : M) (o v : Nat) : (s.setReg o v).fuses = s.fuses := rfl
@[simp] theorem M.setReg_sec (s : M) (o v : Nat) : (s.setReg o v).sec = s.sec := rfl
@[simp] theorem M.setReg_gov (s : M) (o v : Nat) : (s.setReg o v).gov = s.gov := rfl
@[simp] theorem M.setReg_trn (s : M) (o v : Nat) : (s.setReg o v).trn = s.trn := rfl
@[simp] theorem M.setReg_rly (s : M) (o v : Nat) : (s.setReg o v).rly = s.rly := rfl
@[simp] theorem M.setReg_scrubAt (s : M) (o v : Nat) : (s.setReg o v).scrubAt = s.scrubAt := rfl
@[simp] theorem M.setReg_scrubbed (s : M) (o v : Nat) : (s.setReg o v).scrubbed = s.scrubbed := rfl
@[simp] theorem M.setReg_trained (s : M) (o v : Nat) : (s.setReg o v).trained = s.trained := rfl
@[simp] theorem M.setReg_outs (s : M) (o v : Nat) : (s.setReg o v).outs = s.outs := rfl
@[simp] theorem M.setReg_free (s : M) (o v : Nat) : (s.setReg o v).free = s.free := rfl
@[simp] theorem M.setReg_ticks (s : M) (o v : Nat) : (s.setReg o v).ticks = s.ticks := rfl

@[simp] theorem M.setCore_regs (s : M) (n : Nat) (c : Core) : (s.setCore n c).regs = s.regs := rfl
@[simp] theorem M.setCore_mem (s : M) (n : Nat) (c : Core) : (s.setCore n c).mem = s.mem := rfl
@[simp] theorem M.setCore_chk (s : M) (n : Nat) (c : Core) : (s.setCore n c).chk = s.chk := rfl
@[simp] theorem M.setCore_isl (s : M) (n : Nat) (c : Core) : (s.setCore n c).isl = s.isl := rfl
@[simp] theorem M.setCore_logBuf (s : M) (n : Nat) (c : Core) : (s.setCore n c).logBuf = s.logBuf := rfl
@[simp] theorem M.setCore_pos (s : M) (n : Nat) (c : Core) : (s.setCore n c).pos = s.pos := rfl
@[simp] theorem M.setCore_heldBy (s : M) (n : Nat) (c : Core) : (s.setCore n c).heldBy = s.heldBy := rfl
@[simp] theorem M.setCore_board (s : M) (n : Nat) (c : Core) : (s.setCore n c).board = s.board := rfl
@[simp] theorem M.setCore_cxl (s : M) (n : Nat) (c : Core) : (s.setCore n c).cxl = s.cxl := rfl
@[simp] theorem M.setCore_hostQ (s : M) (n : Nat) (c : Core) : (s.setCore n c).hostQ = s.hostQ := rfl
@[simp] theorem M.setCore_boot (s : M) (n : Nat) (c : Core) : (s.setCore n c).boot = s.boot := rfl
@[simp] theorem M.setCore_fuses (s : M) (n : Nat) (c : Core) : (s.setCore n c).fuses = s.fuses := rfl
@[simp] theorem M.setCore_sec (s : M) (n : Nat) (c : Core) : (s.setCore n c).sec = s.sec := rfl
@[simp] theorem M.setCore_gov (s : M) (n : Nat) (c : Core) : (s.setCore n c).gov = s.gov := rfl
@[simp] theorem M.setCore_trn (s : M) (n : Nat) (c : Core) : (s.setCore n c).trn = s.trn := rfl
@[simp] theorem M.setCore_rly (s : M) (n : Nat) (c : Core) : (s.setCore n c).rly = s.rly := rfl
@[simp] theorem M.setCore_scrubAt (s : M) (n : Nat) (c : Core) : (s.setCore n c).scrubAt = s.scrubAt := rfl
@[simp] theorem M.setCore_scrubbed (s : M) (n : Nat) (c : Core) : (s.setCore n c).scrubbed = s.scrubbed := rfl
@[simp] theorem M.setCore_trained (s : M) (n : Nat) (c : Core) : (s.setCore n c).trained = s.trained := rfl
@[simp] theorem M.setCore_outs (s : M) (n : Nat) (c : Core) : (s.setCore n c).outs = s.outs := rfl
@[simp] theorem M.setCore_free (s : M) (n : Nat) (c : Core) : (s.setCore n c).free = s.free := rfl
@[simp] theorem M.setCore_ticks (s : M) (n : Nat) (c : Core) : (s.setCore n c).ticks = s.ticks := rfl

@[simp] theorem M.setByte_regs (s : M) (a : Nat) (b : Byte) : (s.setByte a b).regs = s.regs := rfl
@[simp] theorem M.setByte_chk (s : M) (a : Nat) (b : Byte) : (s.setByte a b).chk = s.chk := rfl
@[simp] theorem M.setByte_isl (s : M) (a : Nat) (b : Byte) : (s.setByte a b).isl = s.isl := rfl
@[simp] theorem M.setByte_logBuf (s : M) (a : Nat) (b : Byte) : (s.setByte a b).logBuf = s.logBuf := rfl
@[simp] theorem M.setByte_cores (s : M) (a : Nat) (b : Byte) : (s.setByte a b).cores = s.cores := rfl
@[simp] theorem M.setByte_pos (s : M) (a : Nat) (b : Byte) : (s.setByte a b).pos = s.pos := rfl
@[simp] theorem M.setByte_heldBy (s : M) (a : Nat) (b : Byte) : (s.setByte a b).heldBy = s.heldBy := rfl
@[simp] theorem M.setByte_board (s : M) (a : Nat) (b : Byte) : (s.setByte a b).board = s.board := rfl
@[simp] theorem M.setByte_cxl (s : M) (a : Nat) (b : Byte) : (s.setByte a b).cxl = s.cxl := rfl
@[simp] theorem M.setByte_hostQ (s : M) (a : Nat) (b : Byte) : (s.setByte a b).hostQ = s.hostQ := rfl
@[simp] theorem M.setByte_boot (s : M) (a : Nat) (b : Byte) : (s.setByte a b).boot = s.boot := rfl
@[simp] theorem M.setByte_fuses (s : M) (a : Nat) (b : Byte) : (s.setByte a b).fuses = s.fuses := rfl
@[simp] theorem M.setByte_sec (s : M) (a : Nat) (b : Byte) : (s.setByte a b).sec = s.sec := rfl
@[simp] theorem M.setByte_gov (s : M) (a : Nat) (b : Byte) : (s.setByte a b).gov = s.gov := rfl
@[simp] theorem M.setByte_trn (s : M) (a : Nat) (b : Byte) : (s.setByte a b).trn = s.trn := rfl
@[simp] theorem M.setByte_rly (s : M) (a : Nat) (b : Byte) : (s.setByte a b).rly = s.rly := rfl
@[simp] theorem M.setByte_scrubAt (s : M) (a : Nat) (b : Byte) : (s.setByte a b).scrubAt = s.scrubAt := rfl
@[simp] theorem M.setByte_scrubbed (s : M) (a : Nat) (b : Byte) : (s.setByte a b).scrubbed = s.scrubbed := rfl
@[simp] theorem M.setByte_trained (s : M) (a : Nat) (b : Byte) : (s.setByte a b).trained = s.trained := rfl
@[simp] theorem M.setByte_outs (s : M) (a : Nat) (b : Byte) : (s.setByte a b).outs = s.outs := rfl
@[simp] theorem M.setByte_free (s : M) (a : Nat) (b : Byte) : (s.setByte a b).free = s.free := rfl
@[simp] theorem M.setByte_ticks (s : M) (a : Nat) (b : Byte) : (s.setByte a b).ticks = s.ticks := rfl

@[simp] theorem M.setChk_regs (s : M) (l k v : Nat) : (s.setChk l k v).regs = s.regs := rfl
@[simp] theorem M.setChk_mem (s : M) (l k v : Nat) : (s.setChk l k v).mem = s.mem := rfl
@[simp] theorem M.setChk_isl (s : M) (l k v : Nat) : (s.setChk l k v).isl = s.isl := rfl
@[simp] theorem M.setChk_logBuf (s : M) (l k v : Nat) : (s.setChk l k v).logBuf = s.logBuf := rfl
@[simp] theorem M.setChk_cores (s : M) (l k v : Nat) : (s.setChk l k v).cores = s.cores := rfl
@[simp] theorem M.setChk_pos (s : M) (l k v : Nat) : (s.setChk l k v).pos = s.pos := rfl
@[simp] theorem M.setChk_heldBy (s : M) (l k v : Nat) : (s.setChk l k v).heldBy = s.heldBy := rfl
@[simp] theorem M.setChk_board (s : M) (l k v : Nat) : (s.setChk l k v).board = s.board := rfl
@[simp] theorem M.setChk_cxl (s : M) (l k v : Nat) : (s.setChk l k v).cxl = s.cxl := rfl
@[simp] theorem M.setChk_hostQ (s : M) (l k v : Nat) : (s.setChk l k v).hostQ = s.hostQ := rfl
@[simp] theorem M.setChk_boot (s : M) (l k v : Nat) : (s.setChk l k v).boot = s.boot := rfl
@[simp] theorem M.setChk_fuses (s : M) (l k v : Nat) : (s.setChk l k v).fuses = s.fuses := rfl
@[simp] theorem M.setChk_sec (s : M) (l k v : Nat) : (s.setChk l k v).sec = s.sec := rfl
@[simp] theorem M.setChk_gov (s : M) (l k v : Nat) : (s.setChk l k v).gov = s.gov := rfl
@[simp] theorem M.setChk_trn (s : M) (l k v : Nat) : (s.setChk l k v).trn = s.trn := rfl
@[simp] theorem M.setChk_rly (s : M) (l k v : Nat) : (s.setChk l k v).rly = s.rly := rfl
@[simp] theorem M.setChk_scrubAt (s : M) (l k v : Nat) : (s.setChk l k v).scrubAt = s.scrubAt := rfl
@[simp] theorem M.setChk_scrubbed (s : M) (l k v : Nat) : (s.setChk l k v).scrubbed = s.scrubbed := rfl
@[simp] theorem M.setChk_trained (s : M) (l k v : Nat) : (s.setChk l k v).trained = s.trained := rfl
@[simp] theorem M.setChk_outs (s : M) (l k v : Nat) : (s.setChk l k v).outs = s.outs := rfl
@[simp] theorem M.setChk_free (s : M) (l k v : Nat) : (s.setChk l k v).free = s.free := rfl
@[simp] theorem M.setChk_ticks (s : M) (l k v : Nat) : (s.setChk l k v).ticks = s.ticks := rfl

/-- `setBytes` changes the data memory alone. -/
theorem M.setBytes_eq (s : M) (a : Nat) (bs : List Byte) : ∃ m, s.setBytes a bs = { s with mem := m } := by
  induction bs generalizing s a with
  | nil => exact ⟨s.mem, rfl⟩
  | cons b bs ih => exact ih (s.setByte a b) (a + 1)

/-- `setChks` changes the check symbols alone. -/
theorem M.setChks_eq (s : M) (l k : Nat) (vs : List Nat) : ∃ c, s.setChks l k vs = { s with chk := c } := by
  induction vs generalizing s k with
  | nil => exact ⟨s.chk, rfl⟩
  | cons v vs ih => exact ih (s.setChk l k v) (k + 1)

/-- `putLine` changes the two stores alone. -/
theorem M.putLine_eq (s : M) (l : Nat) (d : List Byte) (p : Bool) :
    ∃ m c, s.putLine l d p = { s with mem := m, chk := c } := by
  obtain ⟨m, h⟩ := s.setBytes_eq (32 * l) d
  obtain ⟨c, h'⟩ := ({ s with mem := m } : M).setChks_eq l 0
    (if p then rsPoison (d.map (·.toNat)) else rsCheck (d.map (·.toNat)))
  exact ⟨m, c, by rw [M.putLine, h, h']⟩

@[simp] theorem M.setBytes_regs (s : M) (a : Nat) (bs : List Byte) : (s.setBytes a bs).regs = s.regs := by
  obtain ⟨m, h⟩ := s.setBytes_eq a bs; rw [h]
@[simp] theorem M.setChks_regs (s : M) (l k : Nat) (vs : List Nat) : (s.setChks l k vs).regs = s.regs := by
  obtain ⟨c, h⟩ := s.setChks_eq l k vs; rw [h]
@[simp] theorem M.putLine_regs (s : M) (l : Nat) (d : List Byte) (p : Bool) : (s.putLine l d p).regs = s.regs := by
  obtain ⟨m, c, h⟩ := s.putLine_eq l d p; rw [h]
@[simp] theorem M.setChks_mem (s : M) (l k : Nat) (vs : List Nat) : (s.setChks l k vs).mem = s.mem := by
  obtain ⟨c, h⟩ := s.setChks_eq l k vs; rw [h]
@[simp] theorem M.setBytes_chk (s : M) (a : Nat) (bs : List Byte) : (s.setBytes a bs).chk = s.chk := by
  obtain ⟨m, h⟩ := s.setBytes_eq a bs; rw [h]
@[simp] theorem M.setBytes_isl (s : M) (a : Nat) (bs : List Byte) : (s.setBytes a bs).isl = s.isl := by
  obtain ⟨m, h⟩ := s.setBytes_eq a bs; rw [h]
@[simp] theorem M.setChks_isl (s : M) (l k : Nat) (vs : List Nat) : (s.setChks l k vs).isl = s.isl := by
  obtain ⟨c, h⟩ := s.setChks_eq l k vs; rw [h]
@[simp] theorem M.putLine_isl (s : M) (l : Nat) (d : List Byte) (p : Bool) : (s.putLine l d p).isl = s.isl := by
  obtain ⟨m, c, h⟩ := s.putLine_eq l d p; rw [h]
@[simp] theorem M.setBytes_logBuf (s : M) (a : Nat) (bs : List Byte) : (s.setBytes a bs).logBuf = s.logBuf := by
  obtain ⟨m, h⟩ := s.setBytes_eq a bs; rw [h]
@[simp] theorem M.setChks_logBuf (s : M) (l k : Nat) (vs : List Nat) : (s.setChks l k vs).logBuf = s.logBuf := by
  obtain ⟨c, h⟩ := s.setChks_eq l k vs; rw [h]
@[simp] theorem M.putLine_logBuf (s : M) (l : Nat) (d : List Byte) (p : Bool) : (s.putLine l d p).logBuf = s.logBuf := by
  obtain ⟨m, c, h⟩ := s.putLine_eq l d p; rw [h]
@[simp] theorem M.setBytes_cores (s : M) (a : Nat) (bs : List Byte) : (s.setBytes a bs).cores = s.cores := by
  obtain ⟨m, h⟩ := s.setBytes_eq a bs; rw [h]
@[simp] theorem M.setChks_cores (s : M) (l k : Nat) (vs : List Nat) : (s.setChks l k vs).cores = s.cores := by
  obtain ⟨c, h⟩ := s.setChks_eq l k vs; rw [h]
@[simp] theorem M.putLine_cores (s : M) (l : Nat) (d : List Byte) (p : Bool) : (s.putLine l d p).cores = s.cores := by
  obtain ⟨m, c, h⟩ := s.putLine_eq l d p; rw [h]
@[simp] theorem M.setBytes_pos (s : M) (a : Nat) (bs : List Byte) : (s.setBytes a bs).pos = s.pos := by
  obtain ⟨m, h⟩ := s.setBytes_eq a bs; rw [h]
@[simp] theorem M.setChks_pos (s : M) (l k : Nat) (vs : List Nat) : (s.setChks l k vs).pos = s.pos := by
  obtain ⟨c, h⟩ := s.setChks_eq l k vs; rw [h]
@[simp] theorem M.putLine_pos (s : M) (l : Nat) (d : List Byte) (p : Bool) : (s.putLine l d p).pos = s.pos := by
  obtain ⟨m, c, h⟩ := s.putLine_eq l d p; rw [h]
@[simp] theorem M.setBytes_heldBy (s : M) (a : Nat) (bs : List Byte) : (s.setBytes a bs).heldBy = s.heldBy := by
  obtain ⟨m, h⟩ := s.setBytes_eq a bs; rw [h]
@[simp] theorem M.setChks_heldBy (s : M) (l k : Nat) (vs : List Nat) : (s.setChks l k vs).heldBy = s.heldBy := by
  obtain ⟨c, h⟩ := s.setChks_eq l k vs; rw [h]
@[simp] theorem M.putLine_heldBy (s : M) (l : Nat) (d : List Byte) (p : Bool) : (s.putLine l d p).heldBy = s.heldBy := by
  obtain ⟨m, c, h⟩ := s.putLine_eq l d p; rw [h]
@[simp] theorem M.setBytes_board (s : M) (a : Nat) (bs : List Byte) : (s.setBytes a bs).board = s.board := by
  obtain ⟨m, h⟩ := s.setBytes_eq a bs; rw [h]
@[simp] theorem M.setChks_board (s : M) (l k : Nat) (vs : List Nat) : (s.setChks l k vs).board = s.board := by
  obtain ⟨c, h⟩ := s.setChks_eq l k vs; rw [h]
@[simp] theorem M.putLine_board (s : M) (l : Nat) (d : List Byte) (p : Bool) : (s.putLine l d p).board = s.board := by
  obtain ⟨m, c, h⟩ := s.putLine_eq l d p; rw [h]
@[simp] theorem M.setBytes_cxl (s : M) (a : Nat) (bs : List Byte) : (s.setBytes a bs).cxl = s.cxl := by
  obtain ⟨m, h⟩ := s.setBytes_eq a bs; rw [h]
@[simp] theorem M.setChks_cxl (s : M) (l k : Nat) (vs : List Nat) : (s.setChks l k vs).cxl = s.cxl := by
  obtain ⟨c, h⟩ := s.setChks_eq l k vs; rw [h]
@[simp] theorem M.putLine_cxl (s : M) (l : Nat) (d : List Byte) (p : Bool) : (s.putLine l d p).cxl = s.cxl := by
  obtain ⟨m, c, h⟩ := s.putLine_eq l d p; rw [h]
@[simp] theorem M.setBytes_hostQ (s : M) (a : Nat) (bs : List Byte) : (s.setBytes a bs).hostQ = s.hostQ := by
  obtain ⟨m, h⟩ := s.setBytes_eq a bs; rw [h]
@[simp] theorem M.setChks_hostQ (s : M) (l k : Nat) (vs : List Nat) : (s.setChks l k vs).hostQ = s.hostQ := by
  obtain ⟨c, h⟩ := s.setChks_eq l k vs; rw [h]
@[simp] theorem M.putLine_hostQ (s : M) (l : Nat) (d : List Byte) (p : Bool) : (s.putLine l d p).hostQ = s.hostQ := by
  obtain ⟨m, c, h⟩ := s.putLine_eq l d p; rw [h]
@[simp] theorem M.setBytes_boot (s : M) (a : Nat) (bs : List Byte) : (s.setBytes a bs).boot = s.boot := by
  obtain ⟨m, h⟩ := s.setBytes_eq a bs; rw [h]
@[simp] theorem M.setChks_boot (s : M) (l k : Nat) (vs : List Nat) : (s.setChks l k vs).boot = s.boot := by
  obtain ⟨c, h⟩ := s.setChks_eq l k vs; rw [h]
@[simp] theorem M.putLine_boot (s : M) (l : Nat) (d : List Byte) (p : Bool) : (s.putLine l d p).boot = s.boot := by
  obtain ⟨m, c, h⟩ := s.putLine_eq l d p; rw [h]
@[simp] theorem M.setBytes_fuses (s : M) (a : Nat) (bs : List Byte) : (s.setBytes a bs).fuses = s.fuses := by
  obtain ⟨m, h⟩ := s.setBytes_eq a bs; rw [h]
@[simp] theorem M.setChks_fuses (s : M) (l k : Nat) (vs : List Nat) : (s.setChks l k vs).fuses = s.fuses := by
  obtain ⟨c, h⟩ := s.setChks_eq l k vs; rw [h]
@[simp] theorem M.putLine_fuses (s : M) (l : Nat) (d : List Byte) (p : Bool) : (s.putLine l d p).fuses = s.fuses := by
  obtain ⟨m, c, h⟩ := s.putLine_eq l d p; rw [h]
@[simp] theorem M.setBytes_sec (s : M) (a : Nat) (bs : List Byte) : (s.setBytes a bs).sec = s.sec := by
  obtain ⟨m, h⟩ := s.setBytes_eq a bs; rw [h]
@[simp] theorem M.setChks_sec (s : M) (l k : Nat) (vs : List Nat) : (s.setChks l k vs).sec = s.sec := by
  obtain ⟨c, h⟩ := s.setChks_eq l k vs; rw [h]
@[simp] theorem M.putLine_sec (s : M) (l : Nat) (d : List Byte) (p : Bool) : (s.putLine l d p).sec = s.sec := by
  obtain ⟨m, c, h⟩ := s.putLine_eq l d p; rw [h]
@[simp] theorem M.setBytes_gov (s : M) (a : Nat) (bs : List Byte) : (s.setBytes a bs).gov = s.gov := by
  obtain ⟨m, h⟩ := s.setBytes_eq a bs; rw [h]
@[simp] theorem M.setChks_gov (s : M) (l k : Nat) (vs : List Nat) : (s.setChks l k vs).gov = s.gov := by
  obtain ⟨c, h⟩ := s.setChks_eq l k vs; rw [h]
@[simp] theorem M.putLine_gov (s : M) (l : Nat) (d : List Byte) (p : Bool) : (s.putLine l d p).gov = s.gov := by
  obtain ⟨m, c, h⟩ := s.putLine_eq l d p; rw [h]
@[simp] theorem M.setBytes_trn (s : M) (a : Nat) (bs : List Byte) : (s.setBytes a bs).trn = s.trn := by
  obtain ⟨m, h⟩ := s.setBytes_eq a bs; rw [h]
@[simp] theorem M.setChks_trn (s : M) (l k : Nat) (vs : List Nat) : (s.setChks l k vs).trn = s.trn := by
  obtain ⟨c, h⟩ := s.setChks_eq l k vs; rw [h]
@[simp] theorem M.putLine_trn (s : M) (l : Nat) (d : List Byte) (p : Bool) : (s.putLine l d p).trn = s.trn := by
  obtain ⟨m, c, h⟩ := s.putLine_eq l d p; rw [h]
@[simp] theorem M.setBytes_rly (s : M) (a : Nat) (bs : List Byte) : (s.setBytes a bs).rly = s.rly := by
  obtain ⟨m, h⟩ := s.setBytes_eq a bs; rw [h]
@[simp] theorem M.setChks_rly (s : M) (l k : Nat) (vs : List Nat) : (s.setChks l k vs).rly = s.rly := by
  obtain ⟨c, h⟩ := s.setChks_eq l k vs; rw [h]
@[simp] theorem M.putLine_rly (s : M) (l : Nat) (d : List Byte) (p : Bool) : (s.putLine l d p).rly = s.rly := by
  obtain ⟨m, c, h⟩ := s.putLine_eq l d p; rw [h]
@[simp] theorem M.setBytes_scrubAt (s : M) (a : Nat) (bs : List Byte) : (s.setBytes a bs).scrubAt = s.scrubAt := by
  obtain ⟨m, h⟩ := s.setBytes_eq a bs; rw [h]
@[simp] theorem M.setChks_scrubAt (s : M) (l k : Nat) (vs : List Nat) : (s.setChks l k vs).scrubAt = s.scrubAt := by
  obtain ⟨c, h⟩ := s.setChks_eq l k vs; rw [h]
@[simp] theorem M.putLine_scrubAt (s : M) (l : Nat) (d : List Byte) (p : Bool) : (s.putLine l d p).scrubAt = s.scrubAt := by
  obtain ⟨m, c, h⟩ := s.putLine_eq l d p; rw [h]
@[simp] theorem M.setBytes_scrubbed (s : M) (a : Nat) (bs : List Byte) : (s.setBytes a bs).scrubbed = s.scrubbed := by
  obtain ⟨m, h⟩ := s.setBytes_eq a bs; rw [h]
@[simp] theorem M.setChks_scrubbed (s : M) (l k : Nat) (vs : List Nat) : (s.setChks l k vs).scrubbed = s.scrubbed := by
  obtain ⟨c, h⟩ := s.setChks_eq l k vs; rw [h]
@[simp] theorem M.putLine_scrubbed (s : M) (l : Nat) (d : List Byte) (p : Bool) : (s.putLine l d p).scrubbed = s.scrubbed := by
  obtain ⟨m, c, h⟩ := s.putLine_eq l d p; rw [h]
@[simp] theorem M.setBytes_trained (s : M) (a : Nat) (bs : List Byte) : (s.setBytes a bs).trained = s.trained := by
  obtain ⟨m, h⟩ := s.setBytes_eq a bs; rw [h]
@[simp] theorem M.setChks_trained (s : M) (l k : Nat) (vs : List Nat) : (s.setChks l k vs).trained = s.trained := by
  obtain ⟨c, h⟩ := s.setChks_eq l k vs; rw [h]
@[simp] theorem M.putLine_trained (s : M) (l : Nat) (d : List Byte) (p : Bool) : (s.putLine l d p).trained = s.trained := by
  obtain ⟨m, c, h⟩ := s.putLine_eq l d p; rw [h]
@[simp] theorem M.setBytes_outs (s : M) (a : Nat) (bs : List Byte) : (s.setBytes a bs).outs = s.outs := by
  obtain ⟨m, h⟩ := s.setBytes_eq a bs; rw [h]
@[simp] theorem M.setChks_outs (s : M) (l k : Nat) (vs : List Nat) : (s.setChks l k vs).outs = s.outs := by
  obtain ⟨c, h⟩ := s.setChks_eq l k vs; rw [h]
@[simp] theorem M.putLine_outs (s : M) (l : Nat) (d : List Byte) (p : Bool) : (s.putLine l d p).outs = s.outs := by
  obtain ⟨m, c, h⟩ := s.putLine_eq l d p; rw [h]
@[simp] theorem M.setBytes_free (s : M) (a : Nat) (bs : List Byte) : (s.setBytes a bs).free = s.free := by
  obtain ⟨m, h⟩ := s.setBytes_eq a bs; rw [h]
@[simp] theorem M.setChks_free (s : M) (l k : Nat) (vs : List Nat) : (s.setChks l k vs).free = s.free := by
  obtain ⟨c, h⟩ := s.setChks_eq l k vs; rw [h]
@[simp] theorem M.putLine_free (s : M) (l : Nat) (d : List Byte) (p : Bool) : (s.putLine l d p).free = s.free := by
  obtain ⟨m, c, h⟩ := s.putLine_eq l d p; rw [h]
@[simp] theorem M.setBytes_ticks (s : M) (a : Nat) (bs : List Byte) : (s.setBytes a bs).ticks = s.ticks := by
  obtain ⟨m, h⟩ := s.setBytes_eq a bs; rw [h]
@[simp] theorem M.setChks_ticks (s : M) (l k : Nat) (vs : List Nat) : (s.setChks l k vs).ticks = s.ticks := by
  obtain ⟨c, h⟩ := s.setChks_eq l k vs; rw [h]
@[simp] theorem M.putLine_ticks (s : M) (l : Nat) (d : List Byte) (p : Bool) : (s.putLine l d p).ticks = s.ticks := by
  obtain ⟨m, c, h⟩ := s.putLine_eq l d p; rw [h]

@[simp] theorem M.overlay_regs (s : M) (a n : Nat) : (s.overlay a n).regs = s.regs := rfl
@[simp] theorem M.overlay_isl (s : M) (a n : Nat) : (s.overlay a n).isl = s.isl := rfl
@[simp] theorem M.overlay_logBuf (s : M) (a n : Nat) : (s.overlay a n).logBuf = s.logBuf := rfl
@[simp] theorem M.overlay_cores (s : M) (a n : Nat) : (s.overlay a n).cores = s.cores := rfl
@[simp] theorem M.overlay_pos (s : M) (a n : Nat) : (s.overlay a n).pos = s.pos := rfl
@[simp] theorem M.overlay_heldBy (s : M) (a n : Nat) : (s.overlay a n).heldBy = s.heldBy := rfl
@[simp] theorem M.overlay_board (s : M) (a n : Nat) : (s.overlay a n).board = s.board := rfl
@[simp] theorem M.overlay_cxl (s : M) (a n : Nat) : (s.overlay a n).cxl = s.cxl := rfl
@[simp] theorem M.overlay_hostQ (s : M) (a n : Nat) : (s.overlay a n).hostQ = s.hostQ := rfl
@[simp] theorem M.overlay_boot (s : M) (a n : Nat) : (s.overlay a n).boot = s.boot := rfl
@[simp] theorem M.overlay_fuses (s : M) (a n : Nat) : (s.overlay a n).fuses = s.fuses := rfl
@[simp] theorem M.overlay_sec (s : M) (a n : Nat) : (s.overlay a n).sec = s.sec := rfl
@[simp] theorem M.overlay_gov (s : M) (a n : Nat) : (s.overlay a n).gov = s.gov := rfl
@[simp] theorem M.overlay_trn (s : M) (a n : Nat) : (s.overlay a n).trn = s.trn := rfl
@[simp] theorem M.overlay_rly (s : M) (a n : Nat) : (s.overlay a n).rly = s.rly := rfl
@[simp] theorem M.overlay_scrubAt (s : M) (a n : Nat) : (s.overlay a n).scrubAt = s.scrubAt := rfl
@[simp] theorem M.overlay_scrubbed (s : M) (a n : Nat) : (s.overlay a n).scrubbed = s.scrubbed := rfl
@[simp] theorem M.overlay_trained (s : M) (a n : Nat) : (s.overlay a n).trained = s.trained := rfl
@[simp] theorem M.overlay_outs (s : M) (a n : Nat) : (s.overlay a n).outs = s.outs := rfl
@[simp] theorem M.overlay_ticks (s : M) (a n : Nat) : (s.overlay a n).ticks = s.ticks := rfl

/-! ## Outcomes -/

/-- A command on a module out of reset. -/
theorem State.doing_live (s : State) (a : Act Unit) (h : s.m.board.live = true) :
    s.doing a = .next { s with m := (a s.m).2 } := by simp [State.doing, h]

/-- A command on a module in reset changes nothing. -/
theorem State.doing_dead (s : State) (a : Act Unit) (h : s.m.board.live = false) : s.doing a = .next s := by
  simp [State.doing, h]

end Sys2Proof.Machine
end

