-- ==== Sys2Proof/Laws/Tab.lean ====
section
/-! SUPPORT. The laws of the sparse table: read after write, frame, and the canonical form is kept. -/

namespace Sys2Proof.Machine

variable {α : Type}

/-- Reading below the first key of a table gives the default. -/
theorem Tab.read_of_lt [DecidableEq α] (d : Nat → α) (t : Tab α) (lo k : Nat)
    (h : Tab.wfFrom d lo t = true) (hk : k < lo) : Tab.read d t k = d k := by
  induction t generalizing lo with
  | nil => rfl
  | cons p t ih =>
    obtain ⟨j, v⟩ := p
    simp only [Tab.wfFrom, Bool.and_eq_true, decide_eq_true_eq] at h
    simp only [Tab.read]
    rw [if_neg (by omega)]
    exact ih (j + 1) h.2 (by omega)

/-- A read of the key written gives the value written. -/
theorem Tab.read_put_self [DecidableEq α] (d : Nat → α) (t : Tab α) (k : Nat) (v : α)
    (h : Tab.wf d t = true) : Tab.read d (Tab.put d t k v) k = v := by
  suffices H : ∀ (t : Tab α) lo, Tab.wfFrom d lo t = true → Tab.read d (Tab.put d t k v) k = v from H t 0 h
  intro t
  induction t with
  | nil => intro lo _; simp only [Tab.put]; split <;> simp_all [Tab.read]
  | cons p t ih =>
    intro lo h
    obtain ⟨j, u⟩ := p
    simp only [Tab.wfFrom, Bool.and_eq_true, decide_eq_true_eq] at h
    simp only [Tab.put]
    split
    · split
      · next hk hv =>
        subst hv
        simp only [Tab.read]
        rw [if_neg (by omega)]
        exact Tab.read_of_lt d t (j + 1) k h.2 (by omega)
      · simp [Tab.read]
    · split
      · split
        · next _ hk hv =>
          subst hv hk
          exact Tab.read_of_lt d t (k + 1) k h.2 (by omega)
        · simp [Tab.read]
      · simp only [Tab.read]
        rw [if_neg (by assumption)]
        exact ih (j + 1) h.2

/-- A write leaves every other key alone. -/
theorem Tab.read_put_other [DecidableEq α] (d : Nat → α) (t : Tab α) (k k' : Nat) (v : α) (hk : k' ≠ k) :
    Tab.read d (Tab.put d t k v) k' = Tab.read d t k' := by
  induction t with
  | nil => simp only [Tab.put]; split <;> simp [Tab.read, hk]
  | cons p t ih =>
    obtain ⟨j, u⟩ := p
    simp only [Tab.put]
    split
    · split <;> simp [Tab.read, hk]
    · split
      · next _ hj => subst hj; split <;> simp [Tab.read, hk]
      · simp only [Tab.read]; split <;> simp [ih]

/-- A write at or above `lo` keeps the canonical form from `lo`. -/
theorem Tab.wfFrom_put [DecidableEq α] (d : Nat → α) (t : Tab α) (lo k : Nat) (v : α)
    (h : Tab.wfFrom d lo t = true) (hk : lo ≤ k) : Tab.wfFrom d lo (Tab.put d t k v) = true := by
  induction t generalizing lo with
  | nil => simp only [Tab.put]; split <;> simp_all [Tab.wfFrom]
  | cons p t ih =>
    obtain ⟨j, u⟩ := p
    have h0 := h
    simp only [Tab.wfFrom, Bool.and_eq_true, decide_eq_true_eq] at h
    simp only [Tab.put]
    split
    · split
      · exact h0
      · simp only [Tab.wfFrom, Bool.and_eq_true, decide_eq_true_eq]
        exact ⟨⟨hk, by assumption⟩, ⟨by omega, h.1.2⟩, h.2⟩
    · split
      · next _ hj =>
        subst hj
        split
        · have hw := h.2
          clear ih h0
          cases t with
          | nil => rfl
          | cons q t =>
            obtain ⟨i, w⟩ := q
            simp only [Tab.wfFrom, Bool.and_eq_true, decide_eq_true_eq] at hw ⊢
            exact ⟨⟨by omega, hw.1.2⟩, hw.2⟩
        · simp only [Tab.wfFrom, Bool.and_eq_true, decide_eq_true_eq]
          exact ⟨⟨hk, by assumption⟩, h.2⟩
      · simp only [Tab.wfFrom, Bool.and_eq_true, decide_eq_true_eq]
        exact ⟨h.1, ih (j + 1) h.2 (by omega)⟩

/-- A write keeps the canonical form. -/
theorem Tab.wf_put [DecidableEq α] (d : Nat → α) (t : Tab α) (k : Nat) (v : α)
    (h : Tab.wf d t = true) : Tab.wf d (Tab.put d t k v) = true :=
  Tab.wfFrom_put d t 0 k v h (Nat.zero_le k)

/-- Raising the lower bound to a key that is still below the first entry changes nothing. -/
theorem Tab.wfFrom_mono [DecidableEq α] (d : Nat → α) (t : Tab α) {lo hi : Nat} (h : Tab.wfFrom d hi t = true)
    (hl : lo ≤ hi) : Tab.wfFrom d lo t = true := by
  cases t with
  | nil => rfl
  | cons p t =>
    simp only [Tab.wfFrom, Bool.and_eq_true, decide_eq_true_eq] at h ⊢
    exact ⟨⟨by omega, h.1.2⟩, h.2⟩

/-- Taking entries out keeps the canonical form. -/
theorem Tab.wf_filter [DecidableEq α] (d : Nat → α) (p : Nat × α → Bool) (t : Tab α) (h : Tab.wf d t = true) :
    Tab.wf d (t.filter p) = true := by
  suffices H : ∀ (t : Tab α) lo, Tab.wfFrom d lo t = true → Tab.wfFrom d lo (t.filter p) = true from H t 0 h
  intro t
  induction t with
  | nil => intro lo _; rfl
  | cons q t ih =>
    intro lo h
    simp only [Tab.wfFrom, Bool.and_eq_true, decide_eq_true_eq] at h
    have hr := ih (q.1 + 1) h.2
    simp only [List.filter_cons]
    split
    · simp only [Tab.wfFrom, Bool.and_eq_true, decide_eq_true_eq]
      exact ⟨h.1, hr⟩
    · exact Tab.wfFrom_mono d _ hr (by omega)

/-- Keeping some entries with new values, none of them the default, keeps the canonical form. -/
theorem Tab.wf_filterMap [DecidableEq α] (d : Nat → α) (f : α → Option α) (hf : ∀ k v w, f v = some w → w ≠ d k) (t : Tab α)
    (h : Tab.wf d t = true) : Tab.wf d (t.filterMap fun (k, v) => (f v).map fun w => (k, w)) = true := by
  suffices H : ∀ (t : Tab α) lo, Tab.wfFrom d lo t = true →
      Tab.wfFrom d lo (t.filterMap fun (k, v) => (f v).map fun w => (k, w)) = true from H t 0 h
  intro t
  induction t with
  | nil => intro lo _; rfl
  | cons q t ih =>
    intro lo h
    obtain ⟨k, v⟩ := q
    simp only [Tab.wfFrom, Bool.and_eq_true, decide_eq_true_eq] at h
    have hr := ih (k + 1) h.2
    cases e : f v with
    | none => simpa [List.filterMap_cons, e] using Tab.wfFrom_mono d _ hr (by omega)
    | some w => simpa [List.filterMap_cons, e, Tab.wfFrom, h.1.1, hf k v w e] using hr

/-- The empty table is canonical. -/
theorem Tab.wf_nil [DecidableEq α] (d : Nat → α) : Tab.wf d ([] : Tab α) = true := rfl

end Sys2Proof.Machine
end

