-- ==== Sys2Proof/Laws/Keeps.lean ====
section
/-! SUPPORT. Actions that keep the canonical form: what a sequence, a choice, a loop and each basic update do to it. -/

namespace Sys2Proof.Machine

/-- The action keeps every numbered store in canonical form. -/
def KeepsWf {α : Type} (a : Act α) : Prop := ∀ s : M, s.wf = true → (a s).2.wf = true

/-- The canonical form depends on these fields alone. -/
theorem M.wf_congr {s t : M} (h : t.regs = s.regs ∧ t.mem = s.mem ∧ t.chk = s.chk ∧ t.cores = s.cores ∧ t.pos = s.pos ∧
    t.hostQ = s.hostQ ∧ t.trn.rallies = s.trn.rallies ∧ t.isl = s.isl ∧ t.heldBy = s.heldBy ∧ t.scrubAt = s.scrubAt ∧
    t.scrubbed = s.scrubbed) : t.wf = s.wf := by
  simp [M.wf, h]

theorem M.wf_setReg {s : M} (o v : Nat) (h : s.wf = true) : (s.setReg o v).wf = true := by
  simp_all [M.wf, M.setReg, Tab.wf_put]

theorem M.wf_setByte {s : M} (a : Nat) (b : Byte) (h : s.wf = true) : (s.setByte a b).wf = true := by
  simp_all [M.wf, Memory.wf, M.setByte, Tab.wf_put]

theorem M.wf_setChk {s : M} (l k v : Nat) (h : s.wf = true) : (s.setChk l k v).wf = true := by
  simp_all [M.wf, M.setChk, Tab.wf_put]

theorem M.wf_setCore {s : M} (n : Nat) (c : Core) (h : s.wf = true) : (s.setCore n c).wf = true := by
  simp_all [M.wf, M.setCore, Tab.wf_put]

theorem M.wf_putPos {s : M} (i : Nat) (x : PosX) (h : s.wf = true) :
    ({ s with pos := Tab.put PosX.init s.pos i x } : M).wf = true := by simp_all [M.wf, Tab.wf_put]

theorem M.wf_putQueue {s : M} (q : Nat) (x : HostQ) (h : s.wf = true) :
    ({ s with hostQ := Tab.put HostQ.init s.hostQ q x } : M).wf = true := by simp_all [M.wf, Tab.wf_put]

theorem M.wf_putRally {s : M} (n : Nat) (r : Rally) (h : s.wf = true) :
    ({ s with trn := { s.trn with rallies := Tab.put Rally.init s.trn.rallies n r } } : M).wf = true := by
  simp_all [M.wf, Tab.wf_put]

theorem M.wf_fences {s : M} {x : Transport} (h : s.wf = true) (hx : x.rallies = s.fences) :
    ({ s with trn := x } : M).wf = true := by
  have e := Tab.wf_filterMap Rally.init (fun r => r.fenced.map fun e => { fenced := some e })
    (fun _ v w hw => by
      simp only [Option.map_eq_some_iff] at hw
      obtain ⟨a, _, rfl⟩ := hw
      simp [Rally.init]) s.trn.rallies (by simp_all [M.wf])
  have e' : Tab.wf Rally.init s.fences = true := by simpa [M.fences, Option.map_map, Function.comp_def] using e
  simp_all [M.wf]

theorem M.wf_putIsl {s : M} (i v : Nat) (h : s.wf = true) :
    ({ s with isl := Tab.put (fun _ => 0) s.isl i v } : M).wf = true := by simp_all [M.wf, Tab.wf_put]

theorem M.wf_putHeld {s : M} (w v : Nat) (h : s.wf = true) :
    ({ s with heldBy := Tab.put (fun _ => 0) s.heldBy w v } : M).wf = true := by simp_all [M.wf, Tab.wf_put]

theorem M.wf_putScrubAt {s : M} (k v : Nat) (h : s.wf = true) :
    ({ s with scrubAt := Tab.put (fun _ => 0) s.scrubAt k v } : M).wf = true := by simp_all [M.wf, Tab.wf_put]

theorem M.wf_putScrubbed {s : M} (k v : Nat) (h : s.wf = true) :
    ({ s with scrubbed := Tab.put (fun _ => 0) s.scrubbed k v } : M).wf = true := by simp_all [M.wf, Tab.wf_put]

theorem M.wf_setBytes {s : M} (a : Nat) (bs : List Byte) (h : s.wf = true) : (s.setBytes a bs).wf = true := by
  induction bs generalizing s a with
  | nil => exact h
  | cons b bs ih => exact ih (a + 1) (M.wf_setByte a b h)

theorem M.wf_setChks {s : M} (l k : Nat) (vs : List Nat) (h : s.wf = true) : (s.setChks l k vs).wf = true := by
  induction vs generalizing s k with
  | nil => exact h
  | cons v vs ih => exact ih (k + 1) (M.wf_setChk l k v h)

theorem M.wf_putLine {s : M} (l : Nat) (d : List Byte) (p : Bool) (h : s.wf = true) : (s.putLine l d p).wf = true :=
  M.wf_setChks l 0 _ (M.wf_setBytes _ _ h)

/-- Emptying parts of the two stores keeps the canonical form. -/
theorem M.wf_filter {s : M} (p : Nat × Byte → Bool) (q : Nat × Nat → Bool) (h : s.wf = true) :
    ({ s with mem := s.mem.filter p, chk := s.chk.filter q } : M).wf = true := by
  simp_all [M.wf, Memory.wf, Tab.wf_filter]

/-- Resetting some registers keeps the canonical form. -/
theorem M.wf_filterRegs {s : M} (p : Nat × Nat → Bool) (h : s.wf = true) :
    ({ s with regs := s.regs.filter p } : M).wf = true := by
  simp_all [M.wf, Tab.wf_filter]

/-- A fold of updates each of which keeps the canonical form keeps it. -/
theorem M.wf_foldl {α : Type} (f : M → α → M) (hf : ∀ s x, s.wf = true → (f s x).wf = true) (l : List α) {s : M}
    (h : s.wf = true) : (l.foldl f s).wf = true := by
  induction l generalizing s with
  | nil => exact h
  | cons x l ih => exact ih (hf s x h)

/-- What the module writes into an area of its own keeps the canonical form. -/
theorem M.wf_overlay {s : M} (a n : Nat) (h : s.wf = true) : (s.overlay a n).wf = true := by
  have e := M.wf_foldl (fun (t : M) (p : Nat × Nat) => t.putLine (a / 32 + p.1 % n) (leBytes 32 p.2) false)
    (fun s p hs => M.wf_putLine _ _ _ hs) (Config.areaImage s.free) h
  obtain ⟨t, ht⟩ : ∃ t, (Config.areaImage s.free).foldl
    (fun (t : M) (p : Nat × Nat) => t.putLine (a / 32 + p.1 % n) (leBytes 32 p.2) false) s = t := ⟨_, rfl⟩
  rw [ht] at e
  have : s.overlay a n = { s with mem := t.mem, chk := t.chk, free := s.free + 1 } := by rw [M.overlay, ← ht]
  rw [this]
  simp_all [M.wf]

theorem M.wf_countAt {s : M} (cnt sel ovf c code n : Nat) (h : s.wf = true) :
    (countAt cnt sel ovf c code n s).wf = true := by
  unfold countAt
  dsimp only
  repeat' first | (with_reducible first | assumption | apply M.wf_setReg) | split

theorem keepsWf_pure {α : Type} (x : α) : KeepsWf (pure x) := fun _ h => h

theorem keepsWf_bind {α β : Type} {a : Act α} {f : α → Act β} (ha : KeepsWf a) (hf : ∀ x, KeepsWf (f x)) :
    KeepsWf (a >>= f) := fun s h => hf (a s).1 (a s).2 (ha s h)

theorem keepsWf_get : KeepsWf (MonadState.get : Act M) := fun _ h => h

/-- After reading the state, the rest may use that it is canonical. -/
theorem keepsWf_getThen {β : Type} {f : M → Act β} (hf : ∀ x, x.wf = true → KeepsWf (f x)) :
    KeepsWf (MonadState.get >>= f) := fun s h => hf s h s h

theorem keepsWf_set {s : M} (h : s.wf = true) : KeepsWf (MonadStateOf.set s : Act PUnit) := fun _ _ => h

theorem keepsWf_modify {f : M → M} (hf : ∀ s, s.wf = true → (f s).wf = true) : KeepsWf (modify f : Act PUnit) :=
  fun s h => hf s h

theorem keepsWf_modifyGet {α : Type} {f : M → α × M} (hf : ∀ s, s.wf = true → (f s).2.wf = true) :
    KeepsWf (modifyGet f : Act α) := fun s h => hf s h

theorem keepsWf_ite {α : Type} {c : Prop} [Decidable c] {a b : Act α} (ha : KeepsWf a) (hb : KeepsWf b) :
    KeepsWf (if c then a else b) := by split <;> assumption

theorem keepsWf_forA {α : Type} {l : List α} {f : α → Act Unit} (hf : ∀ x, KeepsWf (f x)) : KeepsWf (forA l f) := by
  induction l with
  | nil => exact keepsWf_pure ()
  | cons x l ih => exact keepsWf_bind (hf x) fun _ => ih

theorem keepsWf_mapA {α β : Type} {l : List α} {f : α → Act β} (hf : ∀ x, KeepsWf (f x)) : KeepsWf (mapA l f) := by
  induction l with
  | nil => exact keepsWf_pure []
  | cons x l ih => exact keepsWf_bind (hf x) fun _ => keepsWf_bind ih fun _ => keepsWf_pure _

theorem keepsWf_whenA {c : Bool} {a : Act Unit} (ha : KeepsWf a) : KeepsWf (whenA c a) := by
  unfold whenA
  split
  · exact ha
  · exact keepsWf_pure ()

/-- A command whose action keeps the canonical form keeps it. -/
theorem wf_of_doing {s t : State} {a : Act Unit} (ha : KeepsWf a) (h : s.m.wf = true) (hs : s.doing a = .next t) :
    t.m.wf = true := by
  simp only [State.doing, Host.Outcome.next.injEq] at hs
  subst hs
  split
  · exact ha _ h
  · exact h

/-- A command after another keeps it if both do. -/
theorem wf_of_andThen {t : State} {o : Out} {f : State → Out} (ho : ∀ u, o = .next u → u.m.wf = true)
    (hf : ∀ u, u.m.wf = true → f u = .next t → t.m.wf = true) (hs : andThen o f = .next t) : t.m.wf = true := by
  unfold andThen at hs
  split at hs
  · exact hf _ (ho _ rfl) hs
  · exact ho _ hs

/-- So does a command that acts in reset too. -/
theorem wf_of_always {s t : State} {a : Act Unit} (ha : KeepsWf a) (h : s.m.wf = true) (hs : s.always a = .next t) :
    t.m.wf = true := by
  simp only [State.always, Host.Outcome.next.injEq] at hs
  subst hs
  exact ha _ h

end Sys2Proof.Machine
end

