-- ==== Sys2Proof/Laws/Run.lean ====
section
/-! SUPPORT. What an action makes of a machine: one equation for each way to put actions together, and for each basic
operation. With these as simp lemmas, a command whose effect is a short sequence is evaluated by `simp`. -/

namespace Sys2Proof.Machine

@[simp] theorem run_pure {α : Type} (x : α) (s : M) : (pure x : Act α) s = (x, s) := rfl
@[simp] theorem run_bind {α β : Type} (a : Act α) (f : α → Act β) (s : M) : (a >>= f) s = f (a s).1 (a s).2 := rfl
@[simp] theorem run_get (s : M) : (get : Act M) s = (s, s) := rfl
@[simp] theorem run_set (t s : M) : (set t : Act PUnit) s = ((), t) := rfl
@[simp] theorem run_modify (f : M → M) (s : M) : (modify f : Act PUnit) s = ((), f s) := rfl
@[simp] theorem run_modifyGet {α : Type} (f : M → α × M) (s : M) : (modifyGet f : Act α) s = f s := rfl
theorem run_ite {α : Type} (c : Prop) [Decidable c] (a b : Act α) (s : M) :
    (if c then a else b) s = if c then a s else b s := by split <;> rfl
@[simp] theorem run_whenA (c : Bool) (a : Act Unit) (s : M) : whenA c a s = ((), if c then (a s).2 else s) := by
  unfold whenA; split <;> rfl
@[simp] theorem run_whenA_true (a : Act Unit) (s : M) : whenA true a s = a s := rfl
@[simp] theorem run_whenA_false (a : Act Unit) (s : M) : whenA false a s = ((), s) := rfl
@[simp] theorem run_forA_nil {α : Type} (f : α → Act Unit) (s : M) : forA [] f s = ((), s) := rfl
@[simp] theorem run_forA_cons {α : Type} (x : α) (l : List α) (f : α → Act Unit) (s : M) :
    forA (x :: l) f s = forA l f (f x s).2 := rfl
@[simp] theorem run_mapA_nil {α β : Type} (f : α → Act β) (s : M) : mapA [] f s = ([], s) := rfl
@[simp] theorem run_mapA_cons {α β : Type} (x : α) (l : List α) (f : α → Act β) (s : M) :
    mapA (x :: l) f s = ((f x s).1 :: (mapA l f (f x s).2).1, (mapA l f (f x s).2).2) := rfl

/-- A loop whose every round keeps a property keeps it. -/
theorem forA_keeps {α : Type} (P : M → Prop) (l : List α) (f : α → Act Unit) (hf : ∀ x s, P s → P (f x s).2) (s : M)
    (h : P s) : P (forA l f s).2 := by
  induction l generalizing s with
  | nil => exact h
  | cons x l ih => exact ih (f x s).2 (hf x s h)

/-- A gathering loop whose every round keeps a property keeps it. -/
theorem mapA_keeps {α β : Type} (P : M → Prop) (l : List α) (f : α → Act β) (hf : ∀ x s, P s → P (f x s).2) (s : M)
    (h : P s) : P (mapA l f s).2 := by
  induction l generalizing s with
  | nil => exact h
  | cons x l ih => exact ih (f x s).2 (hf x s h)

/-! ## Registers -/

@[simp] theorem run_rd (o : Nat) (s : M) : rd o s = (s.reg o, s) := rfl
@[simp] theorem run_wr (o v : Nat) (s : M) : wr o v s = ((), s.setReg o v) := rfl
@[simp] theorem run_upd (o : Nat) (f : Nat → Nat) (s : M) : upd o f s = ((), s.setReg o (f (s.reg o))) := rfl
@[simp] theorem run_addReg (w o n : Nat) (s : M) : addReg w o n s = ((), s.setReg o (trunc w (s.reg o + n))) := rfl
@[simp] theorem run_inc64 (o : Nat) (s : M) : inc64 o s = ((), s.setReg o (trunc 64 (s.reg o + 1))) := rfl
@[simp] theorem run_setField (o hi lo v : Nat) (s : M) :
    setField o hi lo v s = ((), s.setReg o (setBits (s.reg o) hi lo v)) := rfl

/-- A register reads as it was last written. -/
theorem M.reg_setReg_self (s : M) (o v : Nat) (h : s.wf = true) : (s.setReg o v).reg o = v := by
  have e : Tab.wf Reg.dflt s.regs = true := by simp_all [M.wf]
  exact Tab.read_put_self _ _ _ _ e

/-- A write leaves every other register alone. -/
theorem M.reg_setReg_other (s : M) {o o' : Nat} (v : Nat) (h : o' ≠ o) : (s.setReg o v).reg o' = s.reg o' :=
  Tab.read_put_other _ _ _ _ _ h

@[simp] theorem M.reg_setCore (s : M) (n : Nat) (c : Core) (o : Nat) : (s.setCore n c).reg o = s.reg o := rfl
@[simp] theorem M.reg_setByte (s : M) (a : Nat) (b : Byte) (o : Nat) : (s.setByte a b).reg o = s.reg o := rfl
@[simp] theorem M.reg_putLine (s : M) (l : Nat) (d : List Byte) (p : Bool) (o : Nat) :
    (s.putLine l d p).reg o = s.reg o := by simp [M.reg]
@[simp] theorem M.core_setReg (s : M) (o v n : Nat) : (s.setReg o v).core n = s.core n := rfl
@[simp] theorem M.ring_setReg (s : M) (o v n e : Nat) : (s.setReg o v).ring n e = s.ring n e := rfl
@[simp] theorem M.posX_setReg (s : M) (o v i : Nat) : (s.setReg o v).posX i = s.posX i := rfl
@[simp] theorem M.byte_setReg (s : M) (o v a : Nat) : (s.setReg o v).byte a = s.byte a := rfl
@[simp] theorem M.island_setReg (s : M) (o v i : Nat) : (s.setReg o v).island i = s.island i := rfl

/-! ## What is sent out, and free values -/

@[simp] theorem run_emit (o : Output) (s : M) : emit o s = ((), s.out o) := rfl
@[simp] theorem run_hostEmit (o : Output) (s : M) : hostEmit o s = ((), s.toHost o) := rfl
@[simp] theorem run_freeVal (w : Nat) (s : M) :
    freeVal w s = (trunc w (Config.freeValue s.free), { s with free := s.free + 1 }) := rfl

/-! ## Cores, rings, slots, positions -/

@[simp] theorem run_getCore (n : Nat) (s : M) : getCore n s = (s.core n, s) := rfl
@[simp] theorem run_updCore (n : Nat) (f : Core → Core) (s : M) : updCore n f s = ((), s.setCore n (f (s.core n))) := rfl
@[simp] theorem run_updRing (n e : Nat) (f : Ring → Ring) (s : M) :
    updRing n e f s = ((), s.setCore n ((s.core n).setRing e (f ((s.core n).ring e)))) := rfl
@[simp] theorem run_updSlot (n k : Nat) (f : Slot → Slot) (s : M) :
    updSlot n k f s = ((), s.setCore n ((s.core n).setSlot k (f ((s.core n).slot k)))) := rfl

/-- A core reads as it was last set. -/
theorem M.core_setCore_self (s : M) (n : Nat) (c : Core) (h : s.wf = true) : (s.setCore n c).core n = c := by
  have e : Tab.wf Core.init s.cores = true := by simp_all [M.wf]
  exact Tab.read_put_self _ _ _ _ e

/-- Setting a core leaves every other core alone. -/
theorem M.core_setCore_other (s : M) {n k : Nat} (c : Core) (h : k ≠ n) : (s.setCore n c).core k = s.core k :=
  Tab.read_put_other _ _ _ _ _ h

/-! ## Stores -/

/-- A byte reads as it was last written. -/
theorem M.byte_setByte_self (s : M) (a : Nat) (b : Byte) (h : s.wf = true) : (s.setByte a b).byte a = b := by
  have e : Tab.wf memZero s.mem = true := by simp_all [M.wf, Memory.wf]
  exact Tab.read_put_self _ _ _ _ e

/-- A write leaves every other byte alone. -/
theorem M.byte_setByte_other (s : M) {a a' : Nat} (b : Byte) (h : a' ≠ a) : (s.setByte a b).byte a' = s.byte a' :=
  Tab.read_put_other _ _ _ _ _ h

/-- Writing bytes leaves every byte outside them alone. -/
theorem M.byte_setBytes_other (s : M) (a : Nat) (bs : List Byte) (x : Nat) (h : x < a ∨ a + bs.length ≤ x) :
    (s.setBytes a bs).byte x = s.byte x := by
  induction bs generalizing s a with
  | nil => rfl
  | cons b bs ih =>
    simp only [List.length_cons] at h
    rw [M.setBytes, ih (s.setByte a b) (a + 1) (by omega), M.byte_setByte_other _ _ (by omega)]

/-- A line that is put leaves every byte of every other line alone. -/
theorem M.byte_putLine_other (s : M) (l : Nat) (d : List Byte) (p : Bool) (x : Nat) (hd : d.length = 32)
    (h : x / 32 ≠ l) : (s.putLine l d p).byte x = s.byte x := by
  have e : ∀ (t : M) (c : List Nat), (t.setChks l 0 c).byte x = t.byte x := fun t c => by
    obtain ⟨k, hk⟩ := t.setChks_eq l 0 c
    rw [hk]; rfl
  rw [M.putLine, e, M.byte_setBytes_other]
  omega

end Sys2Proof.Machine
end

