-- ==== Sys2Proof/Laws/Shared.lean ====
section
/-! SUPPORT. What the shared operations can do, once each: counts and events, the error log, throws and halts, free bytes,
reads and writes of sound lines, and the running of a macro-op by its row. -/

namespace Sys2Proof.Machine

/-! ## Free values -/

/-- n free values of 8 bits are n numbers, and n fewer free values to come. -/
theorem run_mapA_freeVal {α : Type} (w : Nat) (l : List α) (s : M) :
    ∃ x : List Nat, x.length = l.length ∧ mapA l (fun _ => freeVal w) s = (x, { s with free := s.free + l.length }) := by
  induction l generalizing s with
  | nil => exact ⟨[], rfl, rfl⟩
  | cons a l ih =>
    obtain ⟨x, hx, h⟩ := ih { s with free := s.free + 1 }
    refine ⟨trunc w (Config.freeValue s.free) :: x, by simp [hx], ?_⟩
    simp [h, Nat.add_assoc, Nat.add_comm 1]

/-- n free bytes are n bytes, and nothing else changes. -/
theorem run_freeBytes (n : Nat) (s : M) :
    ∃ x : List Byte, x.length = n ∧ freeBytes n s = (x, { s with free := s.free + n }) := by
  obtain ⟨x, hx, h⟩ := run_mapA_freeVal 8 (List.range n) s
  refine ⟨x.map (BitVec.ofNat 8), by simpa using hx, ?_⟩
  simp [freeBytes, h]

/-! ## Actions that change registers alone -/

/-- Counting at one counter changes registers alone. -/
theorem countAt_regs (cnt sel ovf c code n : Nat) (s : M) : ∃ r, countAt cnt sel ovf c code n s = { s with regs := r } := by
  unfold countAt
  dsimp only
  split
  · split <;> split <;> exact ⟨_, rfl⟩
  · exact ⟨s.regs, rfl⟩

/-- A fold of updates each of which changes registers alone does so too. -/
theorem foldl_regs {α : Type} (f : M → α → M) (hf : ∀ s x, ∃ r, f s x = { s with regs := r }) (l : List α) (s : M) :
    ∃ r, l.foldl f s = { s with regs := r } := by
  induction l generalizing s with
  | nil => exact ⟨s.regs, rfl⟩
  | cons x l ih =>
    obtain ⟨r, h⟩ := hf s x
    obtain ⟨r', h'⟩ := ih (f s x)
    exact ⟨r', by rw [List.foldl_cons, h', h]⟩

/-- An event of a position changes registers alone. -/
theorem posCount_regs (pos frm k code n who : Nat) (s : M) : ∃ r, (posCount pos frm k code n who s).2 = { s with regs := r } := by
  unfold posCount
  simp only [run_modify]
  split
  · exact ⟨s.regs, rfl⟩
  · refine foldl_regs _ (fun s x => ?_) _ s
    split
    · exact ⟨s.regs, rfl⟩
    · exact countAt_regs _ _ _ _ _ _ s

/-- An engine's event changes registers alone. -/
theorem engEvent_regs (core e k n : Nat) (s : M) : ∃ r, (engEvent core e k n s).2 = { s with regs := r } := by
  simpa [engEvent] using posCount_regs (s.posOf core) (8 * e) 8 (0x40 * e + k) n core s

/-- An event at a port changes registers alone. -/
theorem portEvent_regs (ctrl sub code n : Nat) (s : M) : ∃ r, (portEvent ctrl sub code n s).2 = { s with regs := r } := by
  unfold portEvent
  simp only [run_modify]
  refine foldl_regs _ (fun s x => ?_) _ s
  split
  · exact countAt_regs _ _ _ _ _ _ s
  · exact ⟨s.regs, rfl⟩

/-- An event at a Relay engine changes registers alone. -/
theorem relayEvent_regs (eng code n : Nat) (s : M) : ∃ r, (relayEvent eng code n s).2 = { s with regs := r } := by
  unfold relayEvent
  simp only [run_modify]
  exact foldl_regs _ (fun s x => countAt_regs _ _ _ _ _ _ s) _ s

/-- The core with a machine-mode interrupt of its control core raised (R122). -/
def Core.raised (c : Core) (cause : Nat) : Core := { c with ctl := { c.ctl with irq := c.ctl.irq ++ [cause] } }

/-- An interrupt of a control core is noted there, and changes registers beside. -/
theorem ctlInterrupt_regs (core cause : Nat) (s : M) :
    ∃ r, (ctlInterrupt core cause s).2 = { s.setCore core ((s.core core).raised cause) with regs := r } := by
  have h : (ctlInterrupt core cause s).2 =
      (posCount (s.posOf core) 32 8 0x109 1 core (s.setCore core ((s.core core).raised cause))).2 := rfl
  rw [h]
  exact posCount_regs _ _ _ _ _ _ _

/-- Halting a ring raises an interrupt of the control core, and changes registers beside. -/
theorem haltRing_regs (core e x status : Nat) (s : M) :
    ∃ r, (haltRing core e x status s).2 = { s.setCore core ((s.core core).raised 0) with regs := r } := by
  unfold haltRing
  simp only [run_bind, run_upd, run_wr, run_setField]
  generalize ht : ((((s.setReg (Reg.coreRingCtl core e) _).setReg (Reg.coreRingHaltIndex core e) x).setReg
    (Reg.coreRingState core e) _).setReg (Reg.coreRingState core e) _) = t
  have hs : ∃ r, t = { s with regs := r } := ⟨t.regs, by rw [← ht]; rfl⟩
  obtain ⟨r, rfl⟩ := hs
  obtain ⟨r', h⟩ := engEvent_regs core e 0x09 1 ({ s with regs := r } : M)
  rw [h]
  exact ctlInterrupt_regs core 0 _

/-- A throw adds to its pass, or changes nothing where the count would exceed 65,535 (R131). -/
theorem run_throwPass (core p n : Nat) (s : M) : throwPass core p n s =
    if s.reg (Reg.corePassCount core p) + n > 65535 then (false, s)
    else (true, s.setReg (Reg.corePassCount core p) (s.reg (Reg.corePassCount core p) + n)) := by
  unfold throwPass
  rw [run_bind, run_rd, run_ite]
  rfl

/-! ## Sound lines -/

/-- A sound line that is read is clean, and the read changes nothing (R203). -/
theorem run_readLine_ok (l : Nat) (s : M) (h : rsDecode (s.codeword l) = .ok) : readLine l s = (false, s) := by
  simp [readLine, h]

/-- Sound lines that are read are clean, and the reads change nothing. -/
theorem run_readLines_ok (ls : List Nat) (s : M) (h : ∀ l ∈ ls, rsDecode (s.codeword l) = .ok) : readLines ls s = ([], s) := by
  have e : mapA ls (fun l => do
      let p ← readLine l
      pure (l, p)) s = (ls.map fun l => (l, false), s) := by
    induction ls with
    | nil => rfl
    | cons l ls ih =>
      have h1 := run_readLine_ok l s (h l (by simp))
      have h2 := ih fun x hx => h x (by simp [hx])
      rw [run_mapA_cons, run_bind, h1, run_pure, h2]
      rfl
  unfold readLines
  rw [run_bind, e, run_pure]
  have f : (ls.map fun l => (l, false)).filter Prod.snd = [] := by
    rw [List.filter_eq_nil_iff]
    intro x hx
    obtain ⟨l, -, rfl⟩ := List.mem_map.1 hx
    exact Bool.false_ne_true
  rw [f]
  rfl

/-- A read of bytes whose lines are sound answers the stored bytes and changes nothing. -/
theorem run_readBytes_ok (a n : Nat) (s : M) (h : ∀ l ∈ linesOf a n, rsDecode (s.codeword l) = .ok) :
    readBytes a n s = ((false, s.bytes a n), s) := by
  unfold readBytes
  rw [run_bind, run_readLines_ok _ s h, run_bind, run_get, run_pure]
  rfl

/-- A whole line that is written is put, and never discarded (R205). -/
theorem run_writeInLine_whole (l : Nat) (data : List Byte) (s : M) (h : data.length = 32) :
    writeInLine l 0 data s = (false, s.putLine l data false) := by
  simp [writeInLine, h]

/-! ## The rows of the macro-ops (R128, R135, R150) -/

/-- What running a row does: its oldest record that has issued and not begun, or the one that issues now, does its work. -/
theorem run_runOp (n e op : Nat) (work : Work) (m : M) : runOp n e op work m =
    (let begun := fun f : InFlight => f.started || f.rcd.op != op
     let p := if (m.ring n e).infl.any fun f => !begun f then (true, m) else issue n e (some op) m
     match (p.2.ring n e).infl.findIdx? (fun f => !begun f), p.1 with
     | some i, true =>
       match (p.2.ring n e).infl[i]? with
       | none => ((), p.2)
       | some f => ((), (work { f with started := true } p.2).2.withEntry n e i (work { f with started := true } p.2).1)
     | _, _ => ((), p.2)) := by
  unfold runOp
  rw [run_bind, run_get]
  dsimp only
  by_cases h : ((m.ring n e).infl.any fun f => !(f.started || f.rcd.op != op)) = true
  · rw [run_ite, if_pos h, if_pos h]
    simp only [run_bind, run_pure, run_get]
    split
    · split <;> simp_all [putInFlight, M.withEntry, M.withRing, M.ring]
    · simp_all
  · rw [run_ite, if_neg h, if_neg h]
    simp only [run_bind, run_get]
    split
    · split <;> simp_all [putInFlight, M.withEntry, M.withRing, M.ring]
    · simp_all

/-- The two ways to say that an entry is the row's and has not begun. -/
theorem notBegun_eq (op : Nat) :
    (fun f : InFlight => !(f.started || f.rcd.op != op)) = (fun f => !f.started && f.rcd.op == op) := by
  funext f; cases f.started <;> simp [bne]

/-- A row whose record waits runs it. -/
theorem run_runOp_waits (n e op : Nat) (work : Work) (m : M) (i : Nat) (f : InFlight) (h : m.waits n e op = some (i, f)) :
    (runOp n e op work m).2 = (let r := work { f with started := true } m; r.2.withEntry n e i r.1) := by
  unfold M.waits at h
  simp only at h
  split at h
  · simp at h
  · rename_i j hj
    have h2 : ∃ f', (m.ring n e).infl[j]? = some f' := by
      cases hh : (m.ring n e).infl[j]? <;> simp_all
    obtain ⟨f', hf⟩ := h2
    simp [hf] at h
    obtain ⟨rfl, rfl⟩ := h
    have ha : ((m.ring n e).infl.any fun f => !f.started && f.rcd.op == op) = true := by
      have := (List.findIdx?_eq_some_iff_getElem.1 hj)
      obtain ⟨h1, h2, _⟩ := this
      exact List.any_eq_true.2 ⟨_, List.getElem_mem h1, h2⟩
    rw [run_runOp]
    simp only [notBegun_eq, ha, if_true, hj, hf]

/-- A row with no record waiting issues one, and runs it if it is the row's. -/
theorem run_runOp_none (n e op : Nat) (work : Work) (m : M) (h : m.waits n e op = none) :
    runOp n e op work m = (let t := (issue n e (some op) m).2
      if (issue n e (some op) m).1 then
        match t.waits n e op with
        | none => ((), t)
        | some (i, f) => ((), (work { f with started := true } t).2.withEntry n e i (work { f with started := true } t).1)
      else ((), t)) := by
  have hj : (m.ring n e).infl.findIdx? (fun f => !f.started && f.rcd.op == op) = none := by
    unfold M.waits at h
    simp only at h
    split at h
    · assumption
    · rename_i j hj
      have := List.findIdx?_eq_some_iff_getElem.1 hj
      obtain ⟨h1, h2⟩ := this
      simp [List.getElem?_eq_getElem h1] at h
  have ha : ((m.ring n e).infl.any fun f => !f.started && f.rcd.op == op) = false := by
    rw [List.findIdx?_eq_none_iff] at hj
    rw [List.any_eq_false]; intro x hx; simp [hj x hx]
  rw [run_runOp]
  simp only [notBegun_eq, ha]
  simp only [M.waits]
  cases hi : (issue n e (some op) m).1
  · simp
    split <;> simp_all
  · simp
    cases hq : List.findIdx? (fun f => !f.started && f.rcd.op == op) ((issue n e (some op) m).2.ring n e).infl with
    | none => simp
    | some i => cases hr : ((issue n e (some op) m).2.ring n e).infl[i]? <;> simp [hi, hr]

end Sys2Proof.Machine
end

