-- ==== Sys2Proof/Laws/WfOps.lean ====
section
/-! SUPPORT. Every operation of Machine/Ops.lean keeps the canonical form. -/

namespace Sys2Proof.Machine

theorem keepsWf_rd (off : Nat) : KeepsWf (rd off) := by
  unfold rd
  repeat' (first
    | (with_reducible first | exact keepsWf_pure _ | (refine keepsWf_getThen fun s hs => ?_))
    | (with_reducible first | (refine keepsWf_bind ?_ fun _ => ?_))
    | split | dsimp only)

theorem keepsWf_wr (off v : Nat) : KeepsWf (wr off v) := by
  unfold wr
  repeat' (first
    | (with_reducible first | exact hs | exact keepsWf_pure _ | (refine keepsWf_modify fun s hs => ?_))
    | (with_reducible first | refine M.wf_setReg _ _ ?_)
    | split | dsimp only | exact (M.wf_congr ⟨rfl, rfl, rfl, rfl, rfl, rfl, rfl, rfl, rfl, rfl, rfl⟩).trans hs)

theorem keepsWf_upd (off : Nat) (f : Nat → Nat) : KeepsWf (upd off f) := by
  unfold upd
  repeat' (first
    | (with_reducible first | exact hs | exact keepsWf_pure _ | (refine keepsWf_modify fun s hs => ?_))
    | (with_reducible first | refine M.wf_setReg _ _ ?_)
    | split | dsimp only | exact (M.wf_congr ⟨rfl, rfl, rfl, rfl, rfl, rfl, rfl, rfl, rfl, rfl, rfl⟩).trans hs)

theorem keepsWf_addReg (w off n : Nat) : KeepsWf (addReg w off n) := by
  unfold addReg
  repeat' (first
    | (with_reducible first | exact keepsWf_pure _ | apply keepsWf_upd)
    | split | dsimp only)

theorem keepsWf_inc64 (off : Nat) : KeepsWf (inc64 off) := by
  unfold inc64
  repeat' (first
    | (with_reducible first | exact keepsWf_pure _ | apply keepsWf_addReg)
    | split | dsimp only)

theorem keepsWf_setField (off hi lo v : Nat) : KeepsWf (setField off hi lo v) := by
  unfold setField
  repeat' (first
    | (with_reducible first | exact keepsWf_pure _ | apply keepsWf_upd)
    | split | dsimp only)

theorem keepsWf_ilWrite (off mask v : Nat) : KeepsWf (ilWrite off mask v) := by
  unfold ilWrite
  repeat' (first
    | (with_reducible first | exact hs | exact keepsWf_pure _ | (refine keepsWf_getThen fun s hs => ?_))
    | (with_reducible first | (refine keepsWf_bind ?_ fun _ => ?_) | apply keepsWf_wr | apply keepsWf_inc64)
    | (with_reducible first | (refine keepsWf_modify fun s hs => ?_) | refine keepsWf_ite ?_ ?_)
    | split | dsimp only | exact (M.wf_congr ⟨rfl, rfl, rfl, rfl, rfl, rfl, rfl, rfl, rfl, rfl, rfl⟩).trans hs)

theorem keepsWf_getCore (n : Nat) : KeepsWf (getCore n) := by
  unfold getCore
  repeat' (first
    | (with_reducible first | exact keepsWf_pure _ | (refine keepsWf_getThen fun s hs => ?_))
    | (with_reducible first | (refine keepsWf_bind ?_ fun _ => ?_))
    | split | dsimp only)

theorem keepsWf_updCore (n : Nat) (f : Core → Core) : KeepsWf (updCore n f) := by
  unfold updCore
  repeat' (first
    | (with_reducible first | exact hs | exact keepsWf_pure _ | (refine keepsWf_modify fun s hs => ?_))
    | (with_reducible first | refine M.wf_setCore _ _ ?_)
    | split | dsimp only | exact (M.wf_congr ⟨rfl, rfl, rfl, rfl, rfl, rfl, rfl, rfl, rfl, rfl, rfl⟩).trans hs)

theorem keepsWf_updRing (n e : Nat) (f : Ring → Ring) : KeepsWf (updRing n e f) := by
  unfold updRing
  repeat' (first
    | (with_reducible first | exact keepsWf_pure _ | apply keepsWf_updCore)
    | split | dsimp only)

theorem keepsWf_updSlot (n k : Nat) (f : Slot → Slot) : KeepsWf (updSlot n k f) := by
  unfold updSlot
  repeat' (first
    | (with_reducible first | exact keepsWf_pure _ | apply keepsWf_updCore)
    | split | dsimp only)

theorem keepsWf_updPos (i : Nat) (f : PosX → PosX) : KeepsWf (updPos i f) := by
  unfold updPos
  repeat' (first
    | (with_reducible first | exact hs | exact keepsWf_pure _ | (refine keepsWf_modify fun s hs => ?_))
    | (with_reducible first | refine M.wf_putPos _ _ ?_)
    | split | dsimp only | exact (M.wf_congr ⟨rfl, rfl, rfl, rfl, rfl, rfl, rfl, rfl, rfl, rfl, rfl⟩).trans hs)

theorem keepsWf_emit (o : Output) : KeepsWf (emit o) := by
  unfold emit
  repeat' (first
    | (with_reducible first | exact hs | exact keepsWf_pure _ | (refine keepsWf_modify fun s hs => ?_))
    | split | dsimp only | exact (M.wf_congr ⟨rfl, rfl, rfl, rfl, rfl, rfl, rfl, rfl, rfl, rfl, rfl⟩).trans hs)

theorem keepsWf_hostEmit (o : Output) : KeepsWf (hostEmit o) := by
  unfold hostEmit
  repeat' (first
    | (with_reducible first | exact hs | exact keepsWf_pure _ | (refine keepsWf_modify fun s hs => ?_))
    | (with_reducible first | refine keepsWf_ite ?_ ?_)
    | split | dsimp only | exact (M.wf_congr ⟨rfl, rfl, rfl, rfl, rfl, rfl, rfl, rfl, rfl, rfl, rfl⟩).trans hs)

theorem keepsWf_freeVal (w : Nat) : KeepsWf (freeVal w) := by
  unfold freeVal
  repeat' (first
    | (with_reducible first | exact hs | exact keepsWf_pure _ | (refine keepsWf_modifyGet fun s hs => ?_))
    | split | dsimp only | exact (M.wf_congr ⟨rfl, rfl, rfl, rfl, rfl, rfl, rfl, rfl, rfl, rfl, rfl⟩).trans hs)

theorem keepsWf_earlyAccess : KeepsWf (earlyAccess) := by
  unfold earlyAccess
  repeat' (first
    | (with_reducible first | exact keepsWf_pure _ | apply keepsWf_inc64)
    | split | dsimp only)

theorem keepsWf_refused : KeepsWf (refused) := by
  unfold refused
  repeat' (first
    | (with_reducible first | exact keepsWf_pure _ | (refine keepsWf_getThen fun s hs => ?_))
    | (with_reducible first | (refine keepsWf_bind ?_ fun _ => ?_) | refine keepsWf_whenA ?_ | apply keepsWf_earlyAccess)
    | split | dsimp only)

theorem keepsWf_posCount (pos frm k code n who : Nat) : KeepsWf (posCount pos frm k code n who) := by
  unfold posCount
  repeat' (first
    | (with_reducible first | exact hs | exact keepsWf_pure _ | (refine keepsWf_modify fun s hs => ?_))
    | (with_reducible first | refine M.wf_countAt _ _ _ _ _ _ ?_ | (refine M.wf_foldl _ (fun s _ hs => ?_) _ ?_))
    | (with_reducible first | refine keepsWf_ite ?_ ?_)
    | split | dsimp only | exact (M.wf_congr ⟨rfl, rfl, rfl, rfl, rfl, rfl, rfl, rfl, rfl, rfl, rfl⟩).trans hs)

theorem keepsWf_engEvent (core e k n : Nat) : KeepsWf (engEvent core e k n) := by
  unfold engEvent
  repeat' (first
    | (with_reducible first | exact keepsWf_pure _ | (refine keepsWf_getThen fun s hs => ?_))
    | (with_reducible first | (refine keepsWf_bind ?_ fun _ => ?_) | apply keepsWf_posCount)
    | split | dsimp only)

theorem keepsWf_engEventX (core e code n : Nat) : KeepsWf (engEventX core e code n) := by
  unfold engEventX
  repeat' (first
    | (with_reducible first | exact keepsWf_pure _ | (refine keepsWf_getThen fun s hs => ?_))
    | (with_reducible first | (refine keepsWf_bind ?_ fun _ => ?_) | apply keepsWf_posCount)
    | split | dsimp only)

theorem keepsWf_posEvent (pos code n : Nat) : KeepsWf (posEvent pos code n) := by
  unfold posEvent
  repeat' (first
    | (with_reducible first | exact keepsWf_pure _ | (refine keepsWf_getThen fun s hs => ?_))
    | (with_reducible first | (refine keepsWf_bind ?_ fun _ => ?_) | apply keepsWf_posCount)
    | split | dsimp only)

theorem keepsWf_portEvent (ctrl sub code n : Nat) : KeepsWf (portEvent ctrl sub code n) := by
  unfold portEvent
  repeat' (first
    | (with_reducible first | exact hs | exact keepsWf_pure _ | (refine keepsWf_modify fun s hs => ?_))
    | (with_reducible first | refine M.wf_countAt _ _ _ _ _ _ ?_ | (refine M.wf_foldl _ (fun s _ hs => ?_) _ ?_))
    | (with_reducible first | refine keepsWf_ite ?_ ?_)
    | split | dsimp only | exact (M.wf_congr ⟨rfl, rfl, rfl, rfl, rfl, rfl, rfl, rfl, rfl, rfl, rfl⟩).trans hs)

theorem keepsWf_relayEvent (eng code n : Nat) : KeepsWf (relayEvent eng code n) := by
  unfold relayEvent
  repeat' (first
    | (with_reducible first | exact hs | exact keepsWf_pure _ | (refine keepsWf_modify fun s hs => ?_))
    | (with_reducible first | refine M.wf_countAt _ _ _ _ _ _ ?_ | (refine M.wf_foldl _ (fun s _ hs => ?_) _ ?_))
    | split | dsimp only | exact (M.wf_congr ⟨rfl, rfl, rfl, rfl, rfl, rfl, rfl, rfl, rfl, rfl, rfl⟩).trans hs)

theorem keepsWf_unlessHeld (writer : Nat) (i : Instr) (a : Act Unit) (hw0 : KeepsWf a) : KeepsWf (unlessHeld writer i a) := by
  unfold unlessHeld
  repeat' (first
    | (with_reducible first | exact hs | exact keepsWf_pure _ | (refine keepsWf_getThen fun s hs => ?_))
    | (with_reducible first | (refine keepsWf_bind ?_ fun _ => ?_) | refine keepsWf_whenA ?_ | apply hw0)
    | (with_reducible first | (refine keepsWf_modify fun s hs => ?_) | refine keepsWf_ite ?_ ?_ | intro _)
    | split | dsimp only | exact (M.wf_congr ⟨rfl, rfl, rfl, rfl, rfl, rfl, rfl, rfl, rfl, rfl, rfl⟩).trans hs)

theorem keepsWf_ctlAccess (writer : Nat) : KeepsWf (ctlAccess writer) := by
  unfold ctlAccess
  repeat' (first
    | (with_reducible first | exact keepsWf_pure _ | (refine keepsWf_getThen fun s hs => ?_))
    | (with_reducible first | (refine keepsWf_bind ?_ fun _ => ?_) | refine keepsWf_whenA ?_ | apply keepsWf_posCount)
    | split | dsimp only)

theorem keepsWf_regAction (writer : Nat) (mgmt : Bool) (i : Instr) (a : Act Unit) (hw0 : KeepsWf a) : KeepsWf (regAction writer mgmt i a) := by
  unfold regAction
  repeat' (first
    | (with_reducible first | exact keepsWf_pure _ | (refine keepsWf_getThen fun s hs => ?_))
    | (with_reducible first | (refine keepsWf_bind ?_ fun _ => ?_) | apply hw0 | apply keepsWf_earlyAccess)
    | (with_reducible first | apply keepsWf_unlessHeld | apply keepsWf_ctlAccess | refine keepsWf_ite ?_ ?_ | intro _)
    | split | dsimp only)

theorem keepsWf_regRead (writer : Nat) (mgmt : Bool) (i : Instr) (a : Act Nat) (hw0 : KeepsWf a) : KeepsWf (regRead writer mgmt i a) := by
  unfold regRead
  repeat' (first
    | (with_reducible first | exact keepsWf_pure _ | (refine keepsWf_getThen fun s hs => ?_))
    | (with_reducible first | (refine keepsWf_bind ?_ fun _ => ?_) | apply hw0 | apply keepsWf_emit)
    | (with_reducible first | apply keepsWf_earlyAccess | apply keepsWf_unlessHeld | apply keepsWf_ctlAccess)
    | (with_reducible first | refine keepsWf_ite ?_ ?_ | intro _)
    | split | dsimp only)

theorem keepsWf_coreAction (writer core : Nat) (i : Instr) (a : Act Unit) (hw0 : KeepsWf a) : KeepsWf (coreAction writer core i a) := by
  unfold coreAction
  repeat' (first
    | (with_reducible first | exact keepsWf_pure _ | (refine keepsWf_getThen fun s hs => ?_))
    | (with_reducible first | (refine keepsWf_bind ?_ fun _ => ?_) | refine keepsWf_whenA ?_ | apply hw0)
    | (with_reducible first | apply keepsWf_regAction | intro _)
    | split | dsimp only)

theorem keepsWf_logAdd (kind island step logical queue entry : Nat) (pl : List Byte) : KeepsWf (logAdd kind island step logical queue entry pl) := by
  unfold logAdd
  repeat' (first
    | (with_reducible first | exact hs | exact keepsWf_pure _ | (refine keepsWf_getThen fun s hs => ?_))
    | (with_reducible first | (refine keepsWf_bind ?_ fun _ => ?_) | refine keepsWf_whenA ?_ | apply keepsWf_wr)
    | (with_reducible first | apply keepsWf_addReg | apply keepsWf_hostEmit | (refine keepsWf_modify fun s hs => ?_))
    | (with_reducible first | refine keepsWf_ite ?_ ?_)
    | split | dsimp only | exact (M.wf_congr ⟨rfl, rfl, rfl, rfl, rfl, rfl, rfl, rfl, rfl, rfl, rfl⟩).trans hs)

theorem keepsWf_raiseEvent (cause : Nat) : KeepsWf (raiseEvent cause) := by
  unfold raiseEvent
  repeat' (first
    | (with_reducible first | exact hs | exact keepsWf_pure _ | (refine keepsWf_bind ?_ fun _ => ?_))
    | (with_reducible first | apply keepsWf_hostEmit | apply keepsWf_freeVal | (refine keepsWf_modify fun s hs => ?_))
    | split | dsimp only | exact (M.wf_congr ⟨rfl, rfl, rfl, rfl, rfl, rfl, rfl, rfl, rfl, rfl, rfl⟩).trans hs)

theorem keepsWf_chargeUnits (island cls n : Nat) : KeepsWf (chargeUnits island cls n) := by
  unfold chargeUnits
  repeat' (first
    | (with_reducible first | exact hs | exact keepsWf_pure _ | (refine keepsWf_modify fun s hs => ?_))
    | split | dsimp only | exact (M.wf_congr ⟨rfl, rfl, rfl, rfl, rfl, rfl, rfl, rfl, rfl, rfl, rfl⟩).trans hs)

theorem keepsWf_sliceEvent (l code : Nat) : KeepsWf (sliceEvent l code) := by
  unfold sliceEvent
  repeat' (first
    | (with_reducible first | exact keepsWf_pure _ | (refine keepsWf_getThen fun s hs => ?_))
    | (with_reducible first | (refine keepsWf_bind ?_ fun _ => ?_) | apply keepsWf_posEvent | refine keepsWf_ite ?_ ?_)
    | split | dsimp only)

theorem keepsWf_readLine (l : Nat) : KeepsWf (readLine l) := by
  unfold readLine
  repeat' (first
    | (with_reducible first | exact hs | exact keepsWf_pure _ | (refine keepsWf_getThen fun s hs => ?_))
    | (with_reducible first | (refine keepsWf_bind ?_ fun _ => ?_) | apply keepsWf_wr | apply keepsWf_inc64)
    | (with_reducible first | apply keepsWf_logAdd | apply keepsWf_sliceEvent | (refine keepsWf_modify fun s hs => ?_))
    | (with_reducible first | refine M.wf_setBytes _ _ ?_ | refine M.wf_setChks _ _ _ ?_)
    | split | dsimp only | exact (M.wf_congr ⟨rfl, rfl, rfl, rfl, rfl, rfl, rfl, rfl, rfl, rfl, rfl⟩).trans hs)

theorem keepsWf_readLines (ls : List Nat) : KeepsWf (readLines ls) := by
  unfold readLines
  repeat' (first
    | (with_reducible first | exact keepsWf_pure _ | (refine keepsWf_bind ?_ fun _ => ?_))
    | (with_reducible first | (refine keepsWf_mapA fun _ => ?_) | apply keepsWf_readLine)
    | split | dsimp only)

theorem keepsWf_readBytes (a n : Nat) : KeepsWf (readBytes a n) := by
  unfold readBytes
  repeat' (first
    | (with_reducible first | exact keepsWf_pure _ | (refine keepsWf_getThen fun s hs => ?_))
    | (with_reducible first | (refine keepsWf_bind ?_ fun _ => ?_) | apply keepsWf_readLines)
    | split | dsimp only)

theorem keepsWf_writeInLine (l off : Nat) (data : List Byte) : KeepsWf (writeInLine l off data) := by
  unfold writeInLine
  repeat' (first
    | (with_reducible first | exact hs | exact keepsWf_pure _ | (refine keepsWf_bind ?_ fun _ => ?_))
    | (with_reducible first | apply keepsWf_readLine | (refine keepsWf_modify fun s hs => ?_))
    | (with_reducible first | refine M.wf_putLine _ _ _ ?_ | refine keepsWf_ite ?_ ?_)
    | split | dsimp only | exact (M.wf_congr ⟨rfl, rfl, rfl, rfl, rfl, rfl, rfl, rfl, rfl, rfl, rfl⟩).trans hs)

theorem keepsWf_writeBytesAux (v0 : Nat) (v1 : Nat) (v2 : List Byte) : KeepsWf (writeBytesAux v0 v1 v2) := by
  induction v0 generalizing v1 v2 with
  | zero => exact keepsWf_pure _
  | succ v0 ih =>
  unfold writeBytesAux
  repeat' (first
    | (with_reducible first | exact keepsWf_pure _ | (refine keepsWf_bind ?_ fun _ => ?_) | apply ih)
    | (with_reducible first | apply keepsWf_writeInLine | refine keepsWf_ite ?_ ?_ | intro _)
    | split | dsimp only)

theorem keepsWf_writeBytes (a : Nat) (data : List Byte) : KeepsWf (writeBytes a data) := by
  unfold writeBytes
  repeat' (first
    | (with_reducible first | exact keepsWf_pure _ | apply keepsWf_writeBytesAux)
    | split | dsimp only)

theorem keepsWf_poisonLine (l : Nat) : KeepsWf (poisonLine l) := by
  unfold poisonLine
  repeat' (first
    | (with_reducible first | exact hs | exact keepsWf_pure _ | (refine keepsWf_modify fun s hs => ?_))
    | (with_reducible first | refine M.wf_putLine _ _ _ ?_)
    | split | dsimp only | exact (M.wf_congr ⟨rfl, rfl, rfl, rfl, rfl, rfl, rfl, rfl, rfl, rfl, rfl⟩).trans hs)

theorem keepsWf_scramble (a n : Nat) : KeepsWf (scramble a n) := by
  unfold scramble
  repeat' (first
    | (with_reducible first | exact keepsWf_pure _ | (refine keepsWf_bind ?_ fun _ => ?_))
    | (with_reducible first | (refine keepsWf_mapA fun _ => ?_) | apply keepsWf_freeVal | apply keepsWf_writeBytes)
    | split | dsimp only)

theorem keepsWf_saveSwitch (core : Nat) : KeepsWf (saveSwitch core) := by
  unfold saveSwitch
  repeat' (first
    | (with_reducible first | exact hs | exact keepsWf_pure _ | (refine keepsWf_getThen fun s hs => ?_))
    | (with_reducible first | (refine keepsWf_bind ?_ fun _ => ?_) | refine keepsWf_whenA ?_)
    | (with_reducible first | (refine keepsWf_modify fun s hs => ?_) | refine M.wf_overlay _ _ ?_)
    | split | dsimp only | exact (M.wf_congr ⟨rfl, rfl, rfl, rfl, rfl, rfl, rfl, rfl, rfl, rfl, rfl⟩).trans hs)

theorem keepsWf_throwPass (core p n : Nat) : KeepsWf (throwPass core p n) := by
  unfold throwPass
  repeat' (first
    | (with_reducible first | exact keepsWf_pure _ | (refine keepsWf_bind ?_ fun _ => ?_) | apply keepsWf_rd)
    | (with_reducible first | apply keepsWf_wr | refine keepsWf_ite ?_ ?_)
    | split | dsimp only)

end Sys2Proof.Machine
end

