-- ==== Sys2Proof/Laws/WfOperands.lean ====
section
/-! SUPPORT. Every operation of Machine/Operands.lean keeps the canonical form. -/

namespace Sys2Proof.Machine

theorem keepsWf_writeRunAux (v0 : Nat) (v1 : Nat) (v2 : Nat) (v3 : Nat) (v4 : List Nat) : KeepsWf (writeRunAux v0 v1 v2 v3 v4) := by
  induction v0 generalizing v1 v2 v3 v4 with
  | zero => exact keepsWf_pure _
  | succ v0 ih =>
  unfold writeRunAux
  repeat' (first
    | (with_reducible first | exact hs | exact keepsWf_pure _ | (refine keepsWf_bind ?_ fun _ => ?_) | apply ih)
    | (with_reducible first | apply keepsWf_readLine | (refine keepsWf_modify fun s hs => ?_))
    | (with_reducible first | refine M.wf_putLine _ _ _ ?_ | refine keepsWf_ite ?_ ?_ | intro _)
    | split | dsimp only | exact (M.wf_congr ⟨rfl, rfl, rfl, rfl, rfl, rfl, rfl, rfl, rfl, rfl, rfl⟩).trans hs)

theorem keepsWf_writeRun (a len v : Nat) (bad : List Nat) : KeepsWf (writeRun a len v bad) := by
  unfold writeRun
  repeat' (first
    | (with_reducible first | exact keepsWf_pure _ | apply keepsWf_writeRunAux)
    | split | dsimp only)

theorem keepsWf_writeCodes (t : TD) (kRows : Bool) (code : Nat → Nat → Nat) (bad : List Nat) : KeepsWf (writeCodes t kRows code bad) := by
  unfold writeCodes
  repeat' (first
    | (with_reducible first | exact keepsWf_pure _ | (refine keepsWf_bind ?_ fun _ => ?_))
    | (with_reducible first | (refine keepsWf_mapA fun _ => ?_) | apply keepsWf_writeRun | refine keepsWf_ite ?_ ?_)
    | split | dsimp only)

theorem keepsWf_writeVals (t : TD) (kRows : Bool) (vals : Nat → Nat → Val) (mode : RMode) (sr : Nat → Nat) (depends : Nat → Nat → Bool) : KeepsWf (writeVals t kRows vals mode sr depends) := by
  unfold writeVals
  repeat' (first
    | (with_reducible first | exact keepsWf_pure _ | (refine keepsWf_bind ?_ fun _ => ?_) | apply keepsWf_writeRun)
    | (with_reducible first | apply keepsWf_writeCodes | refine keepsWf_ite ?_ ?_)
    | split | dsimp only)

theorem keepsWf_writeExact (t : TD) (acc : Nat → Nat → ExAcc) (depends : Nat → Nat → Bool) : KeepsWf (writeExact t acc depends) := by
  unfold writeExact
  repeat' (first
    | (with_reducible first | exact keepsWf_pure _ | (refine keepsWf_bind ?_ fun _ => ?_) | apply keepsWf_writeCodes)
    | split | dsimp only)

end Sys2Proof.Machine
end

