-- ==== Sys2Proof/Laws/WfPlay.lean ====
section
/-! SUPPORT. Every operation of Machine/Play.lean keeps the canonical form. -/

namespace Sys2Proof.Machine

theorem keepsWf_landLines (core : Nat) (p : PlaySt) : KeepsWf (landLines core p) := by
  unfold landLines
  repeat' (first
    | (with_reducible first | exact hs | exact keepsWf_pure _ | (refine keepsWf_bind ?_ fun _ => ?_))
    | (with_reducible first | (refine keepsWf_forA fun _ => ?_) | (refine keepsWf_modify fun s hs => ?_))
    | (with_reducible first | refine M.wf_putLine _ _ _ ?_)
    | split | dsimp only | exact (M.wf_congr ⟨rfl, rfl, rfl, rfl, rfl, rfl, rfl, rfl, rfl, rfl, rfl⟩).trans hs)

theorem keepsWf_agAccess (v : PlayEnv) (dead : Bool) (n c : Nat) (p : PlaySt) : KeepsWf (agAccess v dead n c p) := by
  unfold agAccess
  repeat' (first
    | (with_reducible first | assumption | exact keepsWf_pure _ | (refine keepsWf_getThen fun s hs => ?_))
    | (with_reducible first | (refine keepsWf_bind ?_ fun _ => ?_) | apply keepsWf_readLines | refine keepsWf_set ?_)
    | (with_reducible first | (refine M.wf_foldl _ (fun s _ hs => ?_) _ ?_) | refine keepsWf_ite ?_ ?_)
    | split | dsimp only | exact (M.wf_congr ⟨rfl, rfl, rfl, rfl, rfl, rfl, rfl, rfl, rfl, rfl, rfl⟩).trans hs)

theorem keepsWf_dpHalf (v : PlayEnv) (dead : Bool) (dp hf : Nat) (p : PlaySt) : KeepsWf (dpHalf v dead dp hf p) := by
  unfold dpHalf
  repeat' (first
    | (with_reducible first | exact keepsWf_pure _ | (refine keepsWf_getThen fun s hs => ?_))
    | (with_reducible first | (refine keepsWf_bind ?_ fun _ => ?_) | (refine M.wf_foldl _ (fun s _ hs => ?_) _ ?_))
    | (with_reducible first | refine keepsWf_ite ?_ ?_)
    | split | dsimp only)

theorem keepsWf_applyWord (v : PlayEnv) (w : Nat) (p : PlaySt) : KeepsWf (applyWord v w p) := by
  unfold applyWord
  repeat' (first
    | (with_reducible first | exact keepsWf_pure _ | (refine keepsWf_bind ?_ fun _ => ?_) | apply keepsWf_agAccess)
    | (with_reducible first | apply keepsWf_dpHalf)
    | split | dsimp only)

theorem keepsWf_playCycle (v : PlayEnv) (p : PlaySt) : KeepsWf (playCycle v p) := by
  unfold playCycle
  repeat' (first
    | (with_reducible first | exact keepsWf_pure _ | (refine keepsWf_bind ?_ fun _ => ?_) | apply keepsWf_landLines)
    | (with_reducible first | apply keepsWf_applyWord | refine keepsWf_ite ?_ ?_)
    | split | dsimp only)

theorem keepsWf_playRun (v : PlayEnv) (v0 : Nat) (v1 : PlaySt) : KeepsWf (playRun v v0 v1) := by
  induction v0 generalizing v1 with
  | zero => exact keepsWf_pure _
  | succ v0 ih =>
  unfold playRun
  repeat' (first
    | (with_reducible first | exact keepsWf_pure _ | (refine keepsWf_bind ?_ fun _ => ?_) | apply ih)
    | (with_reducible first | apply keepsWf_playCycle | refine keepsWf_ite ?_ ?_ | intro _)
    | split | dsimp only)

theorem keepsWf_runPlay (core eng haz : Nat) (mode : RMode) (tds : List (Option TD)) (imm seed step stream : Nat) (body : List Nat) : KeepsWf (runPlay core eng haz mode tds imm seed step stream body) := by
  unfold runPlay
  repeat' (first
    | (with_reducible first | exact keepsWf_pure _ | (refine keepsWf_bind ?_ fun _ => ?_) | apply keepsWf_playRun)
    | (with_reducible first | refine keepsWf_ite ?_ ?_)
    | split | dsimp only)

end Sys2Proof.Machine
end

