-- ==== Sys2Proof/Laws/WfMacro.lean ====
section
/-! SUPPORT. Every operation of Machine/Macro.lean keeps the canonical form. -/

namespace Sys2Proof.Machine

theorem keepsWf_readDesc (core i : Nat) : KeepsWf (readDesc core i) := by
  unfold readDesc
  repeat' (first
    | (with_reducible first | exact keepsWf_pure _ | (refine keepsWf_bind ?_ fun _ => ?_) | apply keepsWf_readBytes)
    | split | dsimp only)

end Sys2Proof.Machine
end

