-- ==== Sys2Proof/Laws/WfEngine.lean ====
section
/-! SUPPORT. Every operation of Machine/Engine.lean keeps the canonical form. -/

namespace Sys2Proof.Machine

theorem keepsWf_ctlInterrupt (core cause : Nat) : KeepsWf (ctlInterrupt core cause) := by
  unfold ctlInterrupt
  repeat' (first
    | (with_reducible first | exact keepsWf_pure _ | (refine keepsWf_getThen fun s hs => ?_))
    | (with_reducible first | (refine keepsWf_bind ?_ fun _ => ?_) | apply keepsWf_updCore | apply keepsWf_posCount)
    | split | dsimp only)

theorem keepsWf_haltRing (core e x status : Nat) : KeepsWf (haltRing core e x status) := by
  unfold haltRing
  repeat' (first
    | (with_reducible first | exact keepsWf_pure _ | (refine keepsWf_bind ?_ fun _ => ?_) | apply keepsWf_wr)
    | (with_reducible first | apply keepsWf_upd | apply keepsWf_setField | apply keepsWf_engEvent)
    | (with_reducible first | apply keepsWf_ctlInterrupt)
    | split | dsimp only)

theorem keepsWf_statusEvent (core e status : Nat) : KeepsWf (statusEvent core e status) := by
  unfold statusEvent
  repeat' (first
    | (with_reducible first | exact keepsWf_pure _ | refine keepsWf_whenA ?_ | apply keepsWf_engEvent)
    | split | dsimp only)

theorem keepsWf_settleMarks (core e : Nat) (v0 : Nat) : KeepsWf (settleMarks core e v0) := by
  induction v0 with
  | zero => exact keepsWf_pure _
  | succ v0 ih =>
  unfold settleMarks
  repeat' (first
    | (with_reducible first | exact keepsWf_pure _ | (refine keepsWf_getThen fun s hs => ?_))
    | (with_reducible first | (refine keepsWf_bind ?_ fun _ => ?_) | apply ih | apply keepsWf_wr | apply keepsWf_updRing)
    | (with_reducible first | refine keepsWf_ite ?_ ?_ | intro _)
    | split | dsimp only)

theorem keepsWf_settle (core e : Nat) : KeepsWf (settle core e) := by
  unfold settle
  repeat' (first
    | (with_reducible first | exact keepsWf_pure _ | (refine keepsWf_getThen fun s hs => ?_))
    | (with_reducible first | (refine keepsWf_bind ?_ fun _ => ?_) | apply keepsWf_settleMarks)
    | split | dsimp only)

theorem keepsWf_readEntries (core i n : Nat) : KeepsWf (readEntries core i n) := by
  unfold readEntries
  repeat' (first
    | (with_reducible first | exact keepsWf_pure _ | (refine keepsWf_bind ?_ fun _ => ?_))
    | (with_reducible first | (refine keepsWf_mapA fun _ => ?_) | apply keepsWf_readBytes)
    | split | dsimp only)

theorem keepsWf_readGroup (group : Nat) : KeepsWf (readGroup group) := by
  unfold readGroup
  repeat' (first
    | (with_reducible first | exact keepsWf_pure _ | (refine keepsWf_getThen fun s hs => ?_))
    | (with_reducible first | (refine keepsWf_bind ?_ fun _ => ?_) | apply keepsWf_readLine)
    | split | dsimp only)

theorem keepsWf_decode (core e x : Nat) : KeepsWf (decode core e x) := by
  unfold decode
  repeat' (first
    | (with_reducible first | exact keepsWf_pure _ | (refine keepsWf_getThen fun s hs => ?_))
    | (with_reducible first | (refine keepsWf_bind ?_ fun _ => ?_) | (refine keepsWf_mapA fun _ => ?_))
    | (with_reducible first | apply keepsWf_readBytes | apply keepsWf_readDesc | apply keepsWf_readEntries)
    | (with_reducible first | apply keepsWf_readGroup | refine keepsWf_ite ?_ ?_)
    | split | dsimp only)

theorem keepsWf_addBalance (i : Nat) (x : Int) : KeepsWf (addBalance i x) := by
  unfold addBalance
  repeat' (first
    | (with_reducible first | exact hs | exact keepsWf_pure _ | (refine keepsWf_modify fun s hs => ?_))
    | (with_reducible first | refine M.wf_setReg _ _ ?_)
    | split | dsimp only | exact (M.wf_congr ⟨rfl, rfl, rfl, rfl, rfl, rfl, rfl, rfl, rfl, rfl, rfl⟩).trans hs)

theorem keepsWf_decodeFails (core e x status : Nat) : KeepsWf (decodeFails core e x status) := by
  unfold decodeFails
  repeat' (first
    | (with_reducible first | exact keepsWf_pure _ | (refine keepsWf_bind ?_ fun _ => ?_) | refine keepsWf_whenA ?_)
    | (with_reducible first | apply keepsWf_updRing | apply keepsWf_raiseEvent | apply keepsWf_haltRing)
    | (with_reducible first | apply keepsWf_statusEvent)
    | split | dsimp only)

theorem keepsWf_decodeOnce (core e : Nat) : KeepsWf (decodeOnce core e) := by
  unfold decodeOnce
  repeat' (first
    | (with_reducible first | exact keepsWf_pure _ | (refine keepsWf_getThen fun s hs => ?_))
    | (with_reducible first | (refine keepsWf_bind ?_ fun _ => ?_) | apply keepsWf_updRing | apply keepsWf_decode)
    | (with_reducible first | refine keepsWf_ite ?_ ?_)
    | split | dsimp only)

theorem keepsWf_passPoint (core e : Nat) (f : InFlight) : KeepsWf (passPoint core e f) := by
  unfold passPoint
  repeat' (first
    | (with_reducible first | exact keepsWf_pure _ | (refine keepsWf_getThen fun s hs => ?_))
    | (with_reducible first | (refine keepsWf_bind ?_ fun _ => ?_) | refine keepsWf_whenA ?_ | apply keepsWf_wr)
    | (with_reducible first | apply keepsWf_upd | apply keepsWf_updRing | apply keepsWf_updSlot | apply keepsWf_engEvent)
    | (with_reducible first | apply keepsWf_chargeUnits | apply keepsWf_addBalance)
    | split | dsimp only)

theorem keepsWf_issue (core e : Nat) (want : Option Nat) : KeepsWf (issue core e want) := by
  unfold issue
  repeat' (first
    | (with_reducible first | exact keepsWf_pure _ | (refine keepsWf_getThen fun s hs => ?_))
    | (with_reducible first | (refine keepsWf_bind ?_ fun _ => ?_) | apply keepsWf_updRing | apply keepsWf_settle)
    | (with_reducible first | apply keepsWf_decodeFails | apply keepsWf_decodeOnce | apply keepsWf_passPoint)
    | (with_reducible first | refine keepsWf_ite ?_ ?_)
    | split | dsimp only)

theorem keepsWf_putInFlight (core e i : Nat) (f : InFlight) : KeepsWf (putInFlight core e i f) := by
  unfold putInFlight
  repeat' (first
    | (with_reducible first | assumption | exact keepsWf_pure _ | apply keepsWf_updRing | refine keepsWf_set ?_)
    | split | dsimp only | exact (M.wf_congr ⟨rfl, rfl, rfl, rfl, rfl, rfl, rfl, rfl, rfl, rfl, rfl⟩).trans hs)

theorem keepsWf_runOp (core e op : Nat) (work : Work) (hw0 : ∀ g, KeepsWf (work g)) : KeepsWf (runOp core e op work) := by
  unfold runOp
  repeat' (first
    | (with_reducible first | exact keepsWf_pure _ | (refine keepsWf_getThen fun s hs => ?_))
    | (with_reducible first | (refine keepsWf_bind ?_ fun _ => ?_) | apply hw0 | apply keepsWf_issue)
    | (with_reducible first | apply keepsWf_putInFlight | refine keepsWf_ite ?_ ?_ | intro _)
    | split | dsimp only)

theorem keepsWf_scrambleOuts (outs : List (Nat × Nat)) : KeepsWf (scrambleOuts outs) := by
  unfold scrambleOuts
  repeat' (first
    | (with_reducible first | exact keepsWf_pure _ | (refine keepsWf_forA fun _ => ?_) | apply keepsWf_scramble)
    | split | dsimp only)

theorem keepsWf_reportHazards (core e : Nat) (f : InFlight) (hs : List Hazard) : KeepsWf (reportHazards core e f hs) := by
  unfold reportHazards
  repeat' (first
    | (with_reducible first | exact keepsWf_pure _ | (refine keepsWf_getThen fun s hs => ?_))
    | (with_reducible first | (refine keepsWf_bind ?_ fun _ => ?_) | refine keepsWf_whenA ?_ | apply keepsWf_wr)
    | (with_reducible first | apply keepsWf_upd | apply keepsWf_engEvent | apply keepsWf_logAdd)
    | (with_reducible first | refine keepsWf_ite ?_ ?_)
    | split | dsimp only)

theorem keepsWf_playOf (core e imm : Nat) (f : InFlight) : KeepsWf (playOf core e imm f) := by
  unfold playOf
  repeat' (first
    | (with_reducible first | exact keepsWf_pure _ | (refine keepsWf_getThen fun s hs => ?_))
    | (with_reducible first | (refine keepsWf_bind ?_ fun _ => ?_) | apply keepsWf_engEvent | apply keepsWf_runPlay)
    | (with_reducible first | apply keepsWf_reportHazards)
    | split | dsimp only)

theorem keepsWf_runCustom (core e imm : Nat) (f : InFlight) : KeepsWf (runCustom core e imm f) := by
  unfold runCustom
  repeat' (first
    | (with_reducible first | exact keepsWf_pure _ | (refine keepsWf_getThen fun s hs => ?_))
    | (with_reducible first | (refine keepsWf_bind ?_ fun _ => ?_) | refine keepsWf_whenA ?_)
    | (with_reducible first | apply keepsWf_scrambleOuts | apply keepsWf_playOf)
    | split | dsimp only)

theorem keepsWf_orPlay (core e : Nat) (std : Work) (hw0 : ∀ g, KeepsWf (std g)) (g0 : InFlight) : KeepsWf (orPlay core e std g0) := by
  unfold orPlay
  repeat' (first
    | (with_reducible first | exact keepsWf_pure _ | apply hw0 | apply keepsWf_runCustom | refine keepsWf_ite ?_ ?_)
    | (with_reducible first | intro _)
    | split | dsimp only)

theorem keepsWf_withPlay (core e : Nat) (std : Work) (hw0 : ∀ g, KeepsWf (std g)) (g0 : InFlight) : KeepsWf (withPlay core e std g0) := by
  unfold withPlay
  repeat' (first
    | (with_reducible first | exact keepsWf_pure _ | (refine keepsWf_bind ?_ fun _ => ?_) | apply hw0)
    | (with_reducible first | apply keepsWf_runCustom | refine keepsWf_ite ?_ ?_ | intro _)
    | split | dsimp only)

theorem keepsWf_playWork (core e : Nat) (g0 : InFlight) : KeepsWf (playWork core e g0) := by
  unfold playWork
  repeat' (first
    | (with_reducible first | exact keepsWf_pure _ | apply keepsWf_runCustom)
    | split | dsimp only)

theorem keepsWf_noWork (g0 : InFlight) : KeepsWf (noWork g0) := by
  unfold noWork
  repeat' (first
    | (with_reducible first | exact keepsWf_pure _)
    | split | dsimp only)

theorem keepsWf_traceSample (pos e : Nat) : KeepsWf (traceSample pos e) := by
  unfold traceSample
  repeat' (first
    | (with_reducible first | exact keepsWf_pure _ | (refine keepsWf_getThen fun s hs => ?_))
    | (with_reducible first | (refine keepsWf_bind ?_ fun _ => ?_) | apply keepsWf_wr | refine keepsWf_ite ?_ ?_)
    | split | dsimp only)

theorem keepsWf_traceRecord (core e : Nat) (f : InFlight) (status : Nat) : KeepsWf (traceRecord core e f status) := by
  unfold traceRecord
  repeat' (first
    | (with_reducible first | exact keepsWf_pure _ | (refine keepsWf_getThen fun s hs => ?_))
    | (with_reducible first | (refine keepsWf_bind ?_ fun _ => ?_) | refine keepsWf_whenA ?_)
    | (with_reducible first | (refine keepsWf_forA fun _ => ?_) | apply keepsWf_wr | apply keepsWf_freeVal)
    | split | dsimp only)

theorem keepsWf_throwOf (core e : Nat) (r : Rec) : KeepsWf (throwOf core e r) := by
  unfold throwOf
  repeat' (first
    | (with_reducible first | exact keepsWf_pure _ | (refine keepsWf_getThen fun s hs => ?_))
    | (with_reducible first | (refine keepsWf_bind ?_ fun _ => ?_) | refine keepsWf_whenA ?_ | apply keepsWf_updCore)
    | (with_reducible first | apply keepsWf_engEvent | apply keepsWf_throwPass | refine keepsWf_ite ?_ ?_)
    | split | dsimp only)

theorem keepsWf_finalStep (core : Nat) (finite : Bool) : KeepsWf (finalStep core finite) := by
  unfold finalStep
  repeat' (first
    | (with_reducible first | exact keepsWf_pure _ | (refine keepsWf_getThen fun s hs => ?_))
    | (with_reducible first | (refine keepsWf_bind ?_ fun _ => ?_) | apply keepsWf_wr | apply keepsWf_upd)
    | (with_reducible first | refine keepsWf_ite ?_ ?_)
    | split | dsimp only)

theorem keepsWf_retireNow (core e extra : Nat) (f : InFlight) : KeepsWf (retireNow core e extra f) := by
  unfold retireNow
  repeat' (first
    | (with_reducible first | exact keepsWf_pure _ | (refine keepsWf_getThen fun s hs => ?_))
    | (with_reducible first | (refine keepsWf_bind ?_ fun _ => ?_) | refine keepsWf_whenA ?_ | apply keepsWf_wr)
    | (with_reducible first | apply keepsWf_upd | apply keepsWf_updRing | apply keepsWf_updSlot | apply keepsWf_engEvent)
    | (with_reducible first | apply keepsWf_writeBytes | apply keepsWf_haltRing | apply keepsWf_statusEvent)
    | (with_reducible first | apply keepsWf_traceSample | apply keepsWf_traceRecord | apply keepsWf_finalStep)
    | (with_reducible first | refine keepsWf_ite ?_ ?_)
    | split | dsimp only)

theorem keepsWf_retire (core e extra : Nat) : KeepsWf (retire core e extra) := by
  unfold retire
  repeat' (first
    | (with_reducible first | exact keepsWf_pure _ | (refine keepsWf_getThen fun s hs => ?_))
    | (with_reducible first | (refine keepsWf_bind ?_ fun _ => ?_) | apply keepsWf_putInFlight | apply keepsWf_throwOf)
    | (with_reducible first | apply keepsWf_retireNow | refine keepsWf_ite ?_ ?_)
    | split | dsimp only)

end Sys2Proof.Machine
end

