-- ==== Sys2Proof/Laws/WfFEngine.lean ====
section
/-! SUPPORT. Every operation of Machine/FEngine.lean keeps the canonical form. -/

namespace Sys2Proof.Machine

theorem keepsWf_loadJobRecord (core x : Nat) : KeepsWf (loadJobRecord core x) := by
  unfold loadJobRecord
  repeat' (first
    | (with_reducible first | exact keepsWf_pure _ | (refine keepsWf_bind ?_ fun _ => ?_) | apply keepsWf_wr)
    | (with_reducible first | apply keepsWf_updCore)
    | split | dsimp only)

theorem keepsWf_stepSetWork (core e : Nat) (g0 : InFlight) : KeepsWf (stepSetWork core e g0) := by
  unfold stepSetWork
  repeat' (first
    | (with_reducible first | exact keepsWf_pure _ | (refine keepsWf_bind ?_ fun _ => ?_) | apply keepsWf_rd)
    | (with_reducible first | apply keepsWf_wr | apply keepsWf_haltRing | refine keepsWf_ite ?_ ?_)
    | split | dsimp only)

theorem keepsWf_setPoint (pos pref : Nat) : KeepsWf (setPoint pos pref) := by
  unfold setPoint
  repeat' (first
    | (with_reducible first | exact keepsWf_pure _ | (refine keepsWf_getThen fun s hs => ?_))
    | (with_reducible first | (refine keepsWf_bind ?_ fun _ => ?_) | refine keepsWf_whenA ?_ | apply keepsWf_wr)
    | (with_reducible first | apply keepsWf_updPos | apply keepsWf_posEvent | refine keepsWf_ite ?_ ?_)
    | split | dsimp only)

theorem keepsWf_phaseMarkWork (core : Nat) (g0 : InFlight) : KeepsWf (phaseMarkWork core g0) := by
  unfold phaseMarkWork
  repeat' (first
    | (with_reducible first | exact keepsWf_pure _ | (refine keepsWf_getThen fun s hs => ?_))
    | (with_reducible first | (refine keepsWf_bind ?_ fun _ => ?_) | refine keepsWf_whenA ?_ | apply keepsWf_wr)
    | (with_reducible first | apply keepsWf_setPoint)
    | split | dsimp only)

theorem keepsWf_stateSaveWork (core : Nat) (g0 : InFlight) : KeepsWf (stateSaveWork core g0) := by
  unfold stateSaveWork
  repeat' (first
    | (with_reducible first | exact keepsWf_pure _ | (refine keepsWf_getThen fun s hs => ?_))
    | (with_reducible first | (refine keepsWf_bind ?_ fun _ => ?_) | apply keepsWf_writeBytes)
    | split | dsimp only)

theorem keepsWf_stateLoadWork (core : Nat) (g0 : InFlight) : KeepsWf (stateLoadWork core g0) := by
  unfold stateLoadWork
  repeat' (first
    | (with_reducible first | exact keepsWf_pure _ | (refine keepsWf_bind ?_ fun _ => ?_) | apply keepsWf_readBytes)
    | (with_reducible first | apply keepsWf_loadJobRecord | refine keepsWf_ite ?_ ?_)
    | split | dsimp only)

theorem keepsWf_copyView (d s : TD) (kd ks : Bool) (src : Nat → Nat → Option (Nat × Nat)) (lost : Nat → Nat → Bool) : KeepsWf (copyView d s kd ks src lost) := by
  unfold copyView
  repeat' (first
    | (with_reducible first | exact keepsWf_pure _ | (refine keepsWf_getThen fun s hs => ?_))
    | (with_reducible first | (refine keepsWf_bind ?_ fun _ => ?_) | (refine keepsWf_mapA fun _ => ?_))
    | (with_reducible first | apply keepsWf_readLines | apply keepsWf_writeRun | apply keepsWf_writeCodes)
    | (with_reducible first | refine keepsWf_ite ?_ ?_)
    | split | dsimp only)

theorem keepsWf_farBeats (core e code : Nat) (far : Bool) (n : Nat) : KeepsWf (farBeats core e code far n) := by
  unfold farBeats
  repeat' (first
    | (with_reducible first | exact keepsWf_pure _ | refine keepsWf_whenA ?_ | apply keepsWf_engEventX)
    | split | dsimp only)

theorem keepsWf_loadTileWork (core : Nat) (g0 : InFlight) : KeepsWf (loadTileWork core g0) := by
  unfold loadTileWork
  repeat' (first
    | (with_reducible first | exact keepsWf_pure _ | (refine keepsWf_bind ?_ fun _ => ?_) | apply keepsWf_copyView)
    | (with_reducible first | apply keepsWf_farBeats | refine keepsWf_ite ?_ ?_)
    | split | dsimp only)

theorem keepsWf_expandWork (core : Nat) (g0 : InFlight) : KeepsWf (expandWork core g0) := by
  unfold expandWork
  repeat' (first
    | (with_reducible first | exact keepsWf_pure _ | (refine keepsWf_getThen fun s hs => ?_))
    | (with_reducible first | (refine keepsWf_bind ?_ fun _ => ?_) | apply keepsWf_engEventX | apply keepsWf_readLines)
    | (with_reducible first | apply keepsWf_writeVals | refine keepsWf_ite ?_ ?_)
    | split | dsimp only)

theorem keepsWf_readIndices (t : TD) (n : Nat) : KeepsWf (readIndices t n) := by
  unfold readIndices
  repeat' (first
    | (with_reducible first | exact keepsWf_pure _ | (refine keepsWf_getThen fun s hs => ?_))
    | (with_reducible first | (refine keepsWf_bind ?_ fun _ => ?_) | apply keepsWf_readLines | refine keepsWf_ite ?_ ?_)
    | split | dsimp only)

theorem keepsWf_gatherWork (core : Nat) (g0 : InFlight) : KeepsWf (gatherWork core g0) := by
  unfold gatherWork
  repeat' (first
    | (with_reducible first | exact keepsWf_pure _ | (refine keepsWf_bind ?_ fun _ => ?_) | apply keepsWf_engEventX)
    | (with_reducible first | apply keepsWf_copyView | apply keepsWf_farBeats | apply keepsWf_readIndices)
    | (with_reducible first | refine keepsWf_ite ?_ ?_)
    | split | dsimp only)

theorem wf_execNop (core ring : Nat) {s t : State} (h : s.m.wf = true)
    (hs : execNop core ring s = .next t) : t.m.wf = true := by
  unfold execNop at hs
  refine wf_of_doing ?_ h hs
  repeat' (first
    | (with_reducible first | exact keepsWf_pure _ | apply keepsWf_runOp | apply keepsWf_noWork)
    | split | dsimp only)

theorem wf_execThrowOp (core ring : Nat) {s t : State} (h : s.m.wf = true)
    (hs : execThrowOp core ring s = .next t) : t.m.wf = true := by
  unfold execThrowOp at hs
  refine wf_of_doing ?_ h hs
  repeat' (first
    | (with_reducible first | exact keepsWf_pure _ | apply keepsWf_runOp | apply keepsWf_noWork)
    | split | dsimp only)

theorem wf_execCatchOp (core ring : Nat) {s t : State} (h : s.m.wf = true)
    (hs : execCatchOp core ring s = .next t) : t.m.wf = true := by
  unfold execCatchOp at hs
  refine wf_of_doing ?_ h hs
  repeat' (first
    | (with_reducible first | exact keepsWf_pure _ | apply keepsWf_runOp | apply keepsWf_noWork)
    | split | dsimp only)

theorem wf_execStepSet (core ring : Nat) {s t : State} (h : s.m.wf = true)
    (hs : execStepSet core ring s = .next t) : t.m.wf = true := by
  unfold execStepSet at hs
  refine wf_of_doing ?_ h hs
  repeat' (first
    | (with_reducible first | exact keepsWf_pure _ | apply keepsWf_runOp | apply keepsWf_stepSetWork)
    | split | dsimp only)

theorem wf_execPhaseMark (core ring : Nat) {s t : State} (h : s.m.wf = true)
    (hs : execPhaseMark core ring s = .next t) : t.m.wf = true := by
  unfold execPhaseMark at hs
  refine wf_of_doing ?_ h hs
  repeat' (first
    | (with_reducible first | exact keepsWf_pure _ | apply keepsWf_runOp | apply keepsWf_phaseMarkWork)
    | split | dsimp only)

theorem wf_execStateSave (core ring : Nat) {s t : State} (h : s.m.wf = true)
    (hs : execStateSave core ring s = .next t) : t.m.wf = true := by
  unfold execStateSave at hs
  refine wf_of_doing ?_ h hs
  repeat' (first
    | (with_reducible first | exact keepsWf_pure _ | apply keepsWf_runOp | apply keepsWf_stateSaveWork)
    | split | dsimp only)

theorem wf_execStateLoad (core ring : Nat) {s t : State} (h : s.m.wf = true)
    (hs : execStateLoad core ring s = .next t) : t.m.wf = true := by
  unfold execStateLoad at hs
  refine wf_of_doing ?_ h hs
  repeat' (first
    | (with_reducible first | exact keepsWf_pure _ | apply keepsWf_runOp | apply keepsWf_stateLoadWork)
    | split | dsimp only)

theorem wf_execLoadTile (core : Nat) {s t : State} (h : s.m.wf = true)
    (hs : execLoadTile core s = .next t) : t.m.wf = true := by
  unfold execLoadTile at hs
  refine wf_of_doing ?_ h hs
  repeat' (first
    | (with_reducible first | exact keepsWf_pure _ | apply keepsWf_runOp | apply keepsWf_orPlay)
    | (with_reducible first | apply keepsWf_loadTileWork)
    | split | dsimp only)

theorem wf_execExpand (core : Nat) {s t : State} (h : s.m.wf = true)
    (hs : execExpand core s = .next t) : t.m.wf = true := by
  unfold execExpand at hs
  refine wf_of_doing ?_ h hs
  repeat' (first
    | (with_reducible first | exact keepsWf_pure _ | apply keepsWf_runOp | apply keepsWf_orPlay)
    | (with_reducible first | apply keepsWf_expandWork)
    | split | dsimp only)

theorem wf_execGather (core : Nat) {s t : State} (h : s.m.wf = true)
    (hs : execGather core s = .next t) : t.m.wf = true := by
  unfold execGather at hs
  refine wf_of_doing ?_ h hs
  repeat' (first
    | (with_reducible first | exact keepsWf_pure _ | apply keepsWf_runOp | apply keepsWf_orPlay)
    | (with_reducible first | apply keepsWf_gatherWork)
    | split | dsimp only)

theorem wf_execFPlay (core : Nat) {s t : State} (h : s.m.wf = true)
    (hs : execFPlay core s = .next t) : t.m.wf = true := by
  unfold execFPlay at hs
  refine wf_of_doing ?_ h hs
  repeat' (first
    | (with_reducible first | exact keepsWf_pure _ | apply keepsWf_runOp | apply keepsWf_playWork)
    | split | dsimp only)

end Sys2Proof.Machine
end

