-- ==== Sys2Proof/Laws/WfVEngine.lean ====
section
/-! SUPPORT. Every operation of Machine/VEngine.lean keeps the canonical form. -/

namespace Sys2Proof.Machine

theorem keepsWf_vEvents (core : Nat) (f : InFlight) (n : Nat) : KeepsWf (vEvents core f n) := by
  unfold vEvents
  repeat' (first
    | (with_reducible first | exact keepsWf_pure _ | (refine keepsWf_bind ?_ fun _ => ?_) | refine keepsWf_whenA ?_)
    | (with_reducible first | apply keepsWf_engEventX)
    | split | dsimp only)

theorem keepsWf_inexactEvents (core : Nat) (t : TD) (vals : Nat → Nat → Val) (mode : RMode) (word : Nat → Nat) : KeepsWf (inexactEvents core t vals mode word) := by
  unfold inexactEvents
  repeat' (first
    | (with_reducible first | exact keepsWf_pure _ | apply keepsWf_engEventX)
    | split | dsimp only)

theorem keepsWf_vWrite (core : Nat) (f : InFlight) (o : TD) (vals : Nat → Nat → Val) (dep : Nat → Nat → Bool) : KeepsWf (vWrite core f o vals dep) := by
  unfold vWrite
  repeat' (first
    | (with_reducible first | exact keepsWf_pure _ | (refine keepsWf_getThen fun s hs => ?_))
    | (with_reducible first | (refine keepsWf_bind ?_ fun _ => ?_) | apply keepsWf_writeVals | apply keepsWf_vEvents)
    | (with_reducible first | apply keepsWf_inexactEvents | refine keepsWf_ite ?_ ?_)
    | split | dsimp only)

theorem keepsWf_castView (core : Nat) (f : InFlight) (x o : TD) (kx : Bool) : KeepsWf (castView core f x o kx) := by
  unfold castView
  repeat' (first
    | (with_reducible first | exact keepsWf_pure _ | (refine keepsWf_getThen fun s hs => ?_))
    | (with_reducible first | (refine keepsWf_bind ?_ fun _ => ?_) | apply keepsWf_readLines | apply keepsWf_writeExact)
    | (with_reducible first | apply keepsWf_vWrite | refine keepsWf_ite ?_ ?_)
    | split | dsimp only)

theorem keepsWf_castWork (core : Nat) (g0 : InFlight) : KeepsWf (castWork core g0) := by
  unfold castWork
  repeat' (first
    | (with_reducible first | exact keepsWf_pure _ | (refine keepsWf_bind ?_ fun _ => ?_) | apply keepsWf_castView)
    | split | dsimp only)

theorem keepsWf_epilogueWork (core : Nat) (g0 : InFlight) : KeepsWf (epilogueWork core g0) := by
  unfold epilogueWork
  repeat' (first
    | (with_reducible first | exact keepsWf_pure _ | (refine keepsWf_getThen fun s hs => ?_))
    | (with_reducible first | (refine keepsWf_bind ?_ fun _ => ?_) | apply keepsWf_engEventX | apply keepsWf_readLines)
    | (with_reducible first | apply keepsWf_vWrite | refine keepsWf_ite ?_ ?_)
    | split | dsimp only)

theorem keepsWf_ewiseWork (core : Nat) (g0 : InFlight) : KeepsWf (ewiseWork core g0) := by
  unfold ewiseWork
  repeat' (first
    | (with_reducible first | exact keepsWf_pure _ | (refine keepsWf_getThen fun s hs => ?_))
    | (with_reducible first | (refine keepsWf_bind ?_ fun _ => ?_) | refine keepsWf_whenA ?_ | apply keepsWf_engEventX)
    | (with_reducible first | apply keepsWf_readLines | apply keepsWf_vWrite)
    | split | dsimp only)

theorem keepsWf_reduceExactWork (core : Nat) (g0 : InFlight) : KeepsWf (reduceExactWork core g0) := by
  unfold reduceExactWork
  repeat' (first
    | (with_reducible first | exact keepsWf_pure _ | (refine keepsWf_getThen fun s hs => ?_))
    | (with_reducible first | (refine keepsWf_bind ?_ fun _ => ?_) | apply keepsWf_readLines | apply keepsWf_writeExact)
    | (with_reducible first | apply keepsWf_vWrite | refine keepsWf_ite ?_ ?_)
    | split | dsimp only)

theorem keepsWf_writeRow32 (t : TD) (i : Nat) (cs : List Nat) (lost : Bool) : KeepsWf (writeRow32 t i cs lost) := by
  unfold writeRow32
  repeat' (first
    | (with_reducible first | exact keepsWf_pure _ | (refine keepsWf_bind ?_ fun _ => ?_))
    | (with_reducible first | (refine keepsWf_mapA fun _ => ?_) | apply keepsWf_writeRun | refine keepsWf_ite ?_ ?_)
    | split | dsimp only)

theorem keepsWf_reduceFastWork (_core : Nat) (g0 : InFlight) : KeepsWf (reduceFastWork _core g0) := by
  unfold reduceFastWork
  repeat' (first
    | (with_reducible first | exact keepsWf_pure _ | (refine keepsWf_getThen fun s hs => ?_))
    | (with_reducible first | (refine keepsWf_bind ?_ fun _ => ?_) | apply keepsWf_readLines | apply keepsWf_writeRow32)
    | (with_reducible first | refine keepsWf_ite ?_ ?_)
    | split | dsimp only)

theorem keepsWf_normWork (core : Nat) (g0 : InFlight) : KeepsWf (normWork core g0) := by
  unfold normWork
  repeat' (first
    | (with_reducible first | exact keepsWf_pure _ | (refine keepsWf_getThen fun s hs => ?_))
    | (with_reducible first | (refine keepsWf_bind ?_ fun _ => ?_) | (refine keepsWf_mapA fun _ => ?_))
    | (with_reducible first | apply keepsWf_engEventX | apply keepsWf_readLines | apply keepsWf_vWrite)
    | (with_reducible first | apply keepsWf_writeRow32 | refine keepsWf_ite ?_ ?_)
    | split | dsimp only)

theorem keepsWf_rngFillWork (core : Nat) (g0 : InFlight) : KeepsWf (rngFillWork core g0) := by
  unfold rngFillWork
  repeat' (first
    | (with_reducible first | exact keepsWf_pure _ | (refine keepsWf_getThen fun s hs => ?_))
    | (with_reducible first | (refine keepsWf_bind ?_ fun _ => ?_) | apply keepsWf_engEventX | apply keepsWf_writeCodes)
    | (with_reducible first | apply keepsWf_vEvents | apply keepsWf_vWrite | refine keepsWf_ite ?_ ?_)
    | split | dsimp only)

theorem wf_execCast (core : Nat) {s t : State} (h : s.m.wf = true)
    (hs : execCast core s = .next t) : t.m.wf = true := by
  unfold execCast at hs
  refine wf_of_doing ?_ h hs
  repeat' (first
    | (with_reducible first | exact keepsWf_pure _ | apply keepsWf_runOp | apply keepsWf_orPlay | apply keepsWf_castWork)
    | split | dsimp only)

theorem wf_execEpilogue (core : Nat) {s t : State} (h : s.m.wf = true)
    (hs : execEpilogue core s = .next t) : t.m.wf = true := by
  unfold execEpilogue at hs
  refine wf_of_doing ?_ h hs
  repeat' (first
    | (with_reducible first | exact keepsWf_pure _ | apply keepsWf_runOp | apply keepsWf_orPlay)
    | (with_reducible first | apply keepsWf_epilogueWork)
    | split | dsimp only)

theorem wf_execEwise (core : Nat) {s t : State} (h : s.m.wf = true)
    (hs : execEwise core s = .next t) : t.m.wf = true := by
  unfold execEwise at hs
  refine wf_of_doing ?_ h hs
  repeat' (first
    | (with_reducible first | exact keepsWf_pure _ | apply keepsWf_runOp | apply keepsWf_orPlay)
    | (with_reducible first | apply keepsWf_ewiseWork)
    | split | dsimp only)

theorem wf_execReduceExact (core : Nat) {s t : State} (h : s.m.wf = true)
    (hs : execReduceExact core s = .next t) : t.m.wf = true := by
  unfold execReduceExact at hs
  refine wf_of_doing ?_ h hs
  repeat' (first
    | (with_reducible first | exact keepsWf_pure _ | apply keepsWf_runOp | apply keepsWf_orPlay)
    | (with_reducible first | apply keepsWf_reduceExactWork)
    | split | dsimp only)

theorem wf_execReduceFast (core : Nat) {s t : State} (h : s.m.wf = true)
    (hs : execReduceFast core s = .next t) : t.m.wf = true := by
  unfold execReduceFast at hs
  refine wf_of_doing ?_ h hs
  repeat' (first
    | (with_reducible first | exact keepsWf_pure _ | apply keepsWf_runOp | apply keepsWf_orPlay)
    | (with_reducible first | apply keepsWf_reduceFastWork)
    | split | dsimp only)

theorem wf_execNorm (core : Nat) {s t : State} (h : s.m.wf = true)
    (hs : execNorm core s = .next t) : t.m.wf = true := by
  unfold execNorm at hs
  refine wf_of_doing ?_ h hs
  repeat' (first
    | (with_reducible first | exact keepsWf_pure _ | apply keepsWf_runOp | apply keepsWf_orPlay | apply keepsWf_normWork)
    | split | dsimp only)

theorem wf_execRngFill (core : Nat) {s t : State} (h : s.m.wf = true)
    (hs : execRngFill core s = .next t) : t.m.wf = true := by
  unfold execRngFill at hs
  refine wf_of_doing ?_ h hs
  repeat' (first
    | (with_reducible first | exact keepsWf_pure _ | apply keepsWf_runOp | apply keepsWf_orPlay)
    | (with_reducible first | apply keepsWf_rngFillWork)
    | split | dsimp only)

theorem wf_execVPlay (core : Nat) {s t : State} (h : s.m.wf = true)
    (hs : execVPlay core s = .next t) : t.m.wf = true := by
  unfold execVPlay at hs
  refine wf_of_doing ?_ h hs
  repeat' (first
    | (with_reducible first | exact keepsWf_pure _ | apply keepsWf_runOp | apply keepsWf_playWork)
    | split | dsimp only)

end Sys2Proof.Machine
end

