-- ==== Sys2Proof/Laws/WfSEngine.lean ====
section
/-! SUPPORT. Every operation of Machine/SEngine.lean keeps the canonical form. -/

namespace Sys2Proof.Machine

theorem keepsWf_storeTileWork (core : Nat) (g0 : InFlight) : KeepsWf (storeTileWork core g0) := by
  unfold storeTileWork
  repeat' (first
    | (with_reducible first | exact keepsWf_pure _ | (refine keepsWf_getThen fun s hs => ?_))
    | (with_reducible first | (refine keepsWf_bind ?_ fun _ => ?_) | apply keepsWf_readLines | apply keepsWf_writeVals)
    | (with_reducible first | apply keepsWf_writeExact | apply keepsWf_copyView | apply keepsWf_farBeats)
    | (with_reducible first | refine keepsWf_ite ?_ ?_)
    | split | dsimp only)

theorem keepsWf_fillWork (core : Nat) (g0 : InFlight) : KeepsWf (fillWork core g0) := by
  unfold fillWork
  repeat' (first
    | (with_reducible first | exact keepsWf_pure _ | (refine keepsWf_bind ?_ fun _ => ?_) | apply keepsWf_writeCodes)
    | (with_reducible first | apply keepsWf_farBeats | refine keepsWf_ite ?_ ?_)
    | split | dsimp only)

theorem keepsWf_scatterExactOne (v t : TD) (badV : List Nat) (i j row : Nat) : KeepsWf (scatterExactOne v t badV i j row) := by
  unfold scatterExactOne
  repeat' (first
    | (with_reducible first | exact keepsWf_pure _ | (refine keepsWf_getThen fun s hs => ?_))
    | (with_reducible first | (refine keepsWf_bind ?_ fun _ => ?_) | (refine keepsWf_forA fun _ => ?_))
    | (with_reducible first | apply keepsWf_sliceEvent | apply keepsWf_readLines | apply keepsWf_poisonLine)
    | (with_reducible first | apply keepsWf_writeRun | refine keepsWf_ite ?_ ?_)
    | split | dsimp only)

theorem keepsWf_scatterExactWork (core : Nat) (g0 : InFlight) : KeepsWf (scatterExactWork core g0) := by
  unfold scatterExactWork
  repeat' (first
    | (with_reducible first | exact keepsWf_pure _ | (refine keepsWf_getThen fun s hs => ?_))
    | (with_reducible first | (refine keepsWf_bind ?_ fun _ => ?_) | (refine keepsWf_mapA fun _ => ?_))
    | (with_reducible first | apply keepsWf_engEventX | apply keepsWf_readLines | apply keepsWf_readIndices)
    | (with_reducible first | apply keepsWf_scatterExactOne)
    | split | dsimp only)

theorem keepsWf_scatterFastOne (v t : TD) (badV : List Nat) (i j row : Nat) : KeepsWf (scatterFastOne v t badV i j row) := by
  unfold scatterFastOne
  repeat' (first
    | (with_reducible first | exact keepsWf_pure _ | (refine keepsWf_getThen fun s hs => ?_))
    | (with_reducible first | (refine keepsWf_bind ?_ fun _ => ?_) | (refine keepsWf_forA fun _ => ?_))
    | (with_reducible first | apply keepsWf_sliceEvent | apply keepsWf_readLines | apply keepsWf_poisonLine)
    | (with_reducible first | apply keepsWf_writeRun | refine keepsWf_ite ?_ ?_)
    | split | dsimp only)

theorem keepsWf_scatterFastWork (core : Nat) (order : List Nat) (g0 : InFlight) : KeepsWf (scatterFastWork core order g0) := by
  unfold scatterFastWork
  repeat' (first
    | (with_reducible first | exact keepsWf_pure _ | (refine keepsWf_bind ?_ fun _ => ?_))
    | (with_reducible first | (refine keepsWf_mapA fun _ => ?_) | apply keepsWf_engEventX | apply keepsWf_readLines)
    | (with_reducible first | apply keepsWf_readIndices | apply keepsWf_scatterFastOne)
    | split | dsimp only)

theorem wf_execStoreTile (core : Nat) {s t : State} (h : s.m.wf = true)
    (hs : execStoreTile core s = .next t) : t.m.wf = true := by
  unfold execStoreTile at hs
  refine wf_of_doing ?_ h hs
  repeat' (first
    | (with_reducible first | exact keepsWf_pure _ | apply keepsWf_runOp | apply keepsWf_orPlay)
    | (with_reducible first | apply keepsWf_storeTileWork)
    | split | dsimp only)

theorem wf_execFill (core : Nat) {s t : State} (h : s.m.wf = true)
    (hs : execFill core s = .next t) : t.m.wf = true := by
  unfold execFill at hs
  refine wf_of_doing ?_ h hs
  repeat' (first
    | (with_reducible first | exact keepsWf_pure _ | apply keepsWf_runOp | apply keepsWf_orPlay | apply keepsWf_fillWork)
    | split | dsimp only)

theorem wf_execScatterAddExact (core : Nat) {s t : State} (h : s.m.wf = true)
    (hs : execScatterAddExact core s = .next t) : t.m.wf = true := by
  unfold execScatterAddExact at hs
  refine wf_of_doing ?_ h hs
  repeat' (first
    | (with_reducible first | exact keepsWf_pure _ | apply keepsWf_runOp | apply keepsWf_withPlay)
    | (with_reducible first | apply keepsWf_scatterExactWork)
    | split | dsimp only)

theorem wf_execScatterAddFast (core : Nat) (order : List Nat) {s t : State} (h : s.m.wf = true)
    (hs : execScatterAddFast core order s = .next t) : t.m.wf = true := by
  unfold execScatterAddFast at hs
  refine wf_of_doing ?_ h hs
  repeat' (first
    | (with_reducible first | exact keepsWf_pure _ | apply keepsWf_runOp | apply keepsWf_withPlay)
    | (with_reducible first | apply keepsWf_scatterFastWork)
    | split | dsimp only)

theorem wf_execSPlay (core : Nat) {s t : State} (h : s.m.wf = true)
    (hs : execSPlay core s = .next t) : t.m.wf = true := by
  unfold execSPlay at hs
  refine wf_of_doing ?_ h hs
  repeat' (first
    | (with_reducible first | exact keepsWf_pure _ | apply keepsWf_runOp | apply keepsWf_playWork)
    | split | dsimp only)

end Sys2Proof.Machine
end

