-- ==== Sys2Proof/Laws/WfTransport.lean ====
section
/-! SUPPORT. Every operation of Machine/Transport.lean keeps the canonical form. -/

namespace Sys2Proof.Machine

theorem keepsWf_portCount (p code n : Nat) : KeepsWf (portCount p code n) := by
  unfold portCount
  repeat' (first
    | (with_reducible first | exact keepsWf_pure _ | (refine keepsWf_getThen fun s hs => ?_))
    | (with_reducible first | (refine keepsWf_bind ?_ fun _ => ?_) | apply keepsWf_portEvent)
    | split | dsimp only)

theorem keepsWf_trainLinks : KeepsWf (trainLinks) := by
  unfold trainLinks
  repeat' (first
    | (with_reducible first | exact keepsWf_pure _ | (refine keepsWf_getThen fun s hs => ?_))
    | (with_reducible first | (refine keepsWf_bind ?_ fun _ => ?_) | refine keepsWf_whenA ?_)
    | (with_reducible first | (refine keepsWf_forA fun _ => ?_) | apply keepsWf_setField)
    | split | dsimp only)

theorem keepsWf_setNow (now : Nat) : KeepsWf (setNow now) := by
  unfold setNow
  repeat' (first
    | (with_reducible first | exact hs | exact keepsWf_pure _ | (refine keepsWf_modify fun s hs => ?_))
    | (with_reducible first | refine M.wf_putIsl _ _ ?_)
    | split | dsimp only | exact (M.wf_congr ⟨rfl, rfl, rfl, rfl, rfl, rfl, rfl, rfl, rfl, rfl, rfl⟩).trans hs)

theorem keepsWf_usePn (p : Nat) : KeepsWf (usePn p) := by
  unfold usePn
  repeat' (first
    | (with_reducible first | exact hs | exact keepsWf_pure _ | (refine keepsWf_modify fun s hs => ?_))
    | (with_reducible first | refine keepsWf_ite ?_ ?_)
    | split | dsimp only | exact (M.wf_congr ⟨rfl, rfl, rfl, rfl, rfl, rfl, rfl, rfl, rfl, rfl, rfl⟩).trans hs)

theorem keepsWf_emitFrame (p : Nat) (o : Output) : KeepsWf (emitFrame p o) := by
  unfold emitFrame
  repeat' (first
    | (with_reducible first | exact keepsWf_pure _ | (refine keepsWf_getThen fun s hs => ?_))
    | (with_reducible first | (refine keepsWf_bind ?_ fun _ => ?_) | refine keepsWf_whenA ?_ | apply keepsWf_emit)
    | (with_reducible first | apply keepsWf_portCount | apply keepsWf_usePn)
    | split | dsimp only)

theorem keepsWf_sendFrame (p dst psn : Nat) (ctrl : Bool) (packet : List Byte) : KeepsWf (sendFrame p dst psn ctrl packet) := by
  unfold sendFrame
  repeat' (first
    | (with_reducible first | exact keepsWf_pure _ | (refine keepsWf_getThen fun s hs => ?_))
    | (with_reducible first | (refine keepsWf_bind ?_ fun _ => ?_) | refine keepsWf_whenA ?_ | apply keepsWf_portCount)
    | (with_reducible first | apply keepsWf_emitFrame)
    | split | dsimp only)

theorem keepsWf_updRally (n : Nat) (f : Rally → Rally) : KeepsWf (updRally n f) := by
  unfold updRally
  repeat' (first
    | (with_reducible first | exact hs | exact keepsWf_pure _ | (refine keepsWf_modify fun s hs => ?_))
    | (with_reducible first | refine M.wf_putRally _ _ ?_)
    | split | dsimp only | exact (M.wf_congr ⟨rfl, rfl, rfl, rfl, rfl, rfl, rfl, rfl, rfl, rfl, rfl⟩).trans hs)

theorem keepsWf_takeRate (peer k n : Nat) : KeepsWf (takeRate peer k n) := by
  unfold takeRate
  repeat' (first
    | (with_reducible first | exact keepsWf_pure _ | (refine keepsWf_getThen fun s hs => ?_))
    | (with_reducible first | (refine keepsWf_bind ?_ fun _ => ?_) | apply keepsWf_updRally)
    | split | dsimp only)

theorem keepsWf_sendControl (peer k typ flags b12 b16 : Nat) (payload : List Byte) (b8 : Nat) : KeepsWf (sendControl peer k typ flags b12 b16 payload b8) := by
  unfold sendControl
  repeat' (first
    | (with_reducible first | exact keepsWf_pure _ | (refine keepsWf_getThen fun s hs => ?_))
    | (with_reducible first | (refine keepsWf_bind ?_ fun _ => ?_) | apply keepsWf_sendFrame)
    | split | dsimp only)

theorem keepsWf_sendOpen (peer : Nat) : KeepsWf (sendOpen peer) := by
  unfold sendOpen
  repeat' (first
    | (with_reducible first | exact keepsWf_pure _ | (refine keepsWf_getThen fun s hs => ?_))
    | (with_reducible first | (refine keepsWf_bind ?_ fun _ => ?_) | apply keepsWf_updRally | apply keepsWf_sendControl)
    | (with_reducible first | refine keepsWf_ite ?_ ?_)
    | split | dsimp only)

theorem keepsWf_startOpen (peer : Nat) : KeepsWf (startOpen peer) := by
  unfold startOpen
  repeat' (first
    | (with_reducible first | exact keepsWf_pure _ | (refine keepsWf_bind ?_ fun _ => ?_) | apply keepsWf_updRally)
    | (with_reducible first | apply keepsWf_sendOpen)
    | split | dsimp only)

theorem keepsWf_touchCtx (peer : Nat) : KeepsWf (touchCtx peer) := by
  unfold touchCtx
  repeat' (first
    | (with_reducible first | exact hs | exact keepsWf_pure _ | (refine keepsWf_getThen fun s hs => ?_))
    | (with_reducible first | (refine keepsWf_bind ?_ fun _ => ?_) | apply keepsWf_updRally)
    | (with_reducible first | (refine keepsWf_modify fun s hs => ?_))
    | split | dsimp only | exact (M.wf_congr ⟨rfl, rfl, rfl, rfl, rfl, rfl, rfl, rfl, rfl, rfl, rfl⟩).trans hs)

theorem keepsWf_needCtx (peer : Nat) : KeepsWf (needCtx peer) := by
  unfold needCtx
  repeat' (first
    | (with_reducible first | exact keepsWf_pure _ | (refine keepsWf_getThen fun s hs => ?_))
    | (with_reducible first | (refine keepsWf_bind ?_ fun _ => ?_) | apply keepsWf_inc64 | apply keepsWf_updRally)
    | (with_reducible first | apply keepsWf_touchCtx | refine keepsWf_ite ?_ ?_)
    | split | dsimp only)

theorem keepsWf_postMessage (peer : Nat) (m : OutMsg) : KeepsWf (postMessage peer m) := by
  unfold postMessage
  repeat' (first
    | (with_reducible first | exact keepsWf_pure _ | (refine keepsWf_getThen fun s hs => ?_))
    | (with_reducible first | (refine keepsWf_bind ?_ fun _ => ?_) | refine keepsWf_whenA ?_ | apply keepsWf_updRally)
    | (with_reducible first | apply keepsWf_startOpen | apply keepsWf_needCtx)
    | split | dsimp only)

theorem keepsWf_queueStatus (peer : Nat) (st : Nat × Nat × Nat × Nat) : KeepsWf (queueStatus peer st) := by
  unfold queueStatus
  repeat' (first
    | (with_reducible first | exact keepsWf_pure _ | (refine keepsWf_getThen fun s hs => ?_))
    | (with_reducible first | (refine keepsWf_bind ?_ fun _ => ?_) | refine keepsWf_whenA ?_ | apply keepsWf_updRally)
    | (with_reducible first | apply keepsWf_startOpen)
    | split | dsimp only)

theorem keepsWf_sendPkt (peer : Nat) (p : Pkt) (k : Nat) (retx : Bool) : KeepsWf (sendPkt peer p k retx) := by
  unfold sendPkt
  repeat' (first
    | (with_reducible first | exact keepsWf_pure _ | (refine keepsWf_getThen fun s hs => ?_))
    | (with_reducible first | (refine keepsWf_bind ?_ fun _ => ?_) | refine keepsWf_whenA ?_ | apply keepsWf_portCount)
    | (with_reducible first | apply keepsWf_sendFrame | apply keepsWf_takeRate)
    | split | dsimp only)

theorem keepsWf_sendNext (peer : Nat) : KeepsWf (sendNext peer) := by
  unfold sendNext
  repeat' (first
    | (with_reducible first | exact hs | exact keepsWf_pure _ | (refine keepsWf_getThen fun s hs => ?_))
    | (with_reducible first | (refine keepsWf_bind ?_ fun _ => ?_) | apply keepsWf_updRally | apply keepsWf_touchCtx)
    | (with_reducible first | apply keepsWf_sendPkt | (refine keepsWf_modify fun s hs => ?_) | refine keepsWf_ite ?_ ?_)
    | split | dsimp only | exact (M.wf_congr ⟨rfl, rfl, rfl, rfl, rfl, rfl, rfl, rfl, rfl, rfl, rfl⟩).trans hs)

theorem keepsWf_retransmit (peer : Nat) (p : Pkt) : KeepsWf (retransmit peer p) := by
  unfold retransmit
  repeat' (first
    | (with_reducible first | exact keepsWf_pure _ | (refine keepsWf_getThen fun s hs => ?_))
    | (with_reducible first | (refine keepsWf_bind ?_ fun _ => ?_) | apply keepsWf_inc64 | apply keepsWf_portCount)
    | (with_reducible first | apply keepsWf_updRally | apply keepsWf_sendPkt | refine keepsWf_ite ?_ ?_)
    | split | dsimp only)

theorem keepsWf_resumePosted (peer : Nat) : KeepsWf (resumePosted peer) := by
  unfold resumePosted
  repeat' (first
    | (with_reducible first | exact keepsWf_pure _ | (refine keepsWf_getThen fun s hs => ?_))
    | (with_reducible first | (refine keepsWf_bind ?_ fun _ => ?_) | refine keepsWf_whenA ?_ | apply keepsWf_startOpen)
    | (with_reducible first | apply keepsWf_needCtx)
    | split | dsimp only)

theorem keepsWf_sendProbe (peer k : Nat) : KeepsWf (sendProbe peer k) := by
  unfold sendProbe
  repeat' (first
    | (with_reducible first | exact keepsWf_pure _ | (refine keepsWf_getThen fun s hs => ?_))
    | (with_reducible first | (refine keepsWf_bind ?_ fun _ => ?_) | refine keepsWf_whenA ?_ | apply keepsWf_portCount)
    | (with_reducible first | apply keepsWf_sendControl)
    | split | dsimp only)

theorem wf_execMessagePost (peer cls tag : Nat) (payload : List Byte) {s t : State} (h : s.m.wf = true)
    (hs : execMessagePost peer cls tag payload s = .next t) : t.m.wf = true := by
  unfold execMessagePost at hs
  refine wf_of_doing ?_ h hs
  repeat' (first
    | (with_reducible first | exact keepsWf_pure _ | apply keepsWf_postMessage)
    | split | dsimp only)

theorem wf_execPacketSend (peer now : Nat) {s t : State} (h : s.m.wf = true)
    (hs : execPacketSend peer now s = .next t) : t.m.wf = true := by
  unfold execPacketSend at hs
  refine wf_of_doing ?_ h hs
  repeat' (first
    | (with_reducible first | exact keepsWf_pure _ | (refine keepsWf_bind ?_ fun _ => ?_) | apply keepsWf_setNow)
    | (with_reducible first | apply keepsWf_sendNext | apply keepsWf_resumePosted)
    | split | dsimp only)

theorem wf_execOpenResend (peer sinceUs : Nat) {s t : State} (h : s.m.wf = true)
    (hs : execOpenResend peer sinceUs s = .next t) : t.m.wf = true := by
  unfold execOpenResend at hs
  refine wf_of_doing ?_ h hs
  repeat' (first
    | (with_reducible first | exact keepsWf_pure _ | (refine keepsWf_getThen fun s hs => ?_))
    | (with_reducible first | (refine keepsWf_bind ?_ fun _ => ?_) | refine keepsWf_whenA ?_ | apply keepsWf_sendOpen)
    | split | dsimp only)

theorem wf_execRetransmitTimeout (peer psn now : Nat) {s t : State} (h : s.m.wf = true)
    (hs : execRetransmitTimeout peer psn now s = .next t) : t.m.wf = true := by
  unfold execRetransmitTimeout at hs
  refine wf_of_doing ?_ h hs
  repeat' (first
    | (with_reducible first | exact keepsWf_pure _ | (refine keepsWf_getThen fun s hs => ?_))
    | (with_reducible first | (refine keepsWf_bind ?_ fun _ => ?_) | refine keepsWf_whenA ?_ | apply keepsWf_portCount)
    | (with_reducible first | apply keepsWf_setNow | apply keepsWf_updRally | apply keepsWf_retransmit)
    | split | dsimp only)

theorem wf_execSuspectProbe (peer path : Nat) {s t : State} (h : s.m.wf = true)
    (hs : execSuspectProbe peer path s = .next t) : t.m.wf = true := by
  unfold execSuspectProbe at hs
  refine wf_of_doing ?_ h hs
  repeat' (first
    | (with_reducible first | exact keepsWf_pure _ | (refine keepsWf_getThen fun s hs => ?_))
    | (with_reducible first | (refine keepsWf_bind ?_ fun _ => ?_) | refine keepsWf_whenA ?_ | apply keepsWf_sendProbe)
    | split | dsimp only)

theorem wf_execIdlePathProbe (peer path idleUs : Nat) {s t : State} (h : s.m.wf = true)
    (hs : execIdlePathProbe peer path idleUs s = .next t) : t.m.wf = true := by
  unfold execIdlePathProbe at hs
  refine wf_of_doing ?_ h hs
  repeat' (first
    | (with_reducible first | exact keepsWf_pure _ | (refine keepsWf_getThen fun s hs => ?_))
    | (with_reducible first | (refine keepsWf_bind ?_ fun _ => ?_) | refine keepsWf_whenA ?_ | apply keepsWf_sendProbe)
    | split | dsimp only)

theorem wf_execRateAdjust (peer path now : Nat) {s t : State} (h : s.m.wf = true)
    (hs : execRateAdjust peer path s now = .next t) : t.m.wf = true := by
  unfold execRateAdjust at hs
  refine wf_of_doing ?_ h hs
  repeat' (first
    | (with_reducible first | exact keepsWf_pure _ | (refine keepsWf_getThen fun s hs => ?_))
    | (with_reducible first | (refine keepsWf_bind ?_ fun _ => ?_) | refine keepsWf_whenA ?_ | apply keepsWf_portCount)
    | (with_reducible first | apply keepsWf_setNow | apply keepsWf_updRally)
    | split | dsimp only)

end Sys2Proof.Machine
end

