-- ==== Sys2Proof/Laws/WfMEngine.lean ====
section
/-! SUPPORT. Every operation of Machine/MEngine.lean keeps the canonical form. -/

namespace Sys2Proof.Machine

theorem keepsWf_spillAdd (sl : Slot) (x : Nat) (touched : Bool) (c : Int) : KeepsWf (spillAdd sl x touched c) := by
  unfold spillAdd
  repeat' (first
    | (with_reducible first | exact hs | exact keepsWf_pure _ | (refine keepsWf_getThen fun s hs => ?_))
    | (with_reducible first | (refine keepsWf_bind ?_ fun _ => ?_) | refine keepsWf_whenA ?_)
    | (with_reducible first | (refine keepsWf_forA fun _ => ?_) | apply keepsWf_readLines | apply keepsWf_writeBytes)
    | (with_reducible first | (refine keepsWf_modify fun s hs => ?_) | refine M.wf_putLine _ _ _ ?_)
    | (with_reducible first | refine keepsWf_ite ?_ ?_)
    | split | dsimp only | exact (M.wf_congr ⟨rfl, rfl, rfl, rfl, rfl, rfl, rfl, rfl, rfl, rfl, rfl⟩).trans hs)

theorem keepsWf_spillAll (sl : Slot) (acc : List Accum) : KeepsWf (spillAll sl acc) := by
  unfold spillAll
  repeat' (first
    | (with_reducible first | exact keepsWf_pure _ | (refine keepsWf_bind ?_ fun _ => ?_))
    | (with_reducible first | (refine keepsWf_mapA fun _ => ?_) | apply keepsWf_spillAdd)
    | split | dsimp only)

theorem keepsWf_creditSpill (core : Nat) (new : List Nat) (f : InFlight) : KeepsWf (creditSpill core new f) := by
  unfold creditSpill
  repeat' (first
    | (with_reducible first | exact keepsWf_pure _ | (refine keepsWf_getThen fun s hs => ?_))
    | (with_reducible first | (refine keepsWf_bind ?_ fun _ => ?_) | apply keepsWf_engEventX | apply keepsWf_posEvent)
    | (with_reducible first | (refine M.wf_foldl _ (fun s _ hs => ?_) _ ?_))
    | split | dsimp only)

theorem keepsWf_resolvePending (core k : Nat) : KeepsWf (resolvePending core k) := by
  unfold resolvePending
  repeat' (first
    | (with_reducible first | exact keepsWf_pure _ | (refine keepsWf_getThen fun s hs => ?_))
    | (with_reducible first | (refine keepsWf_bind ?_ fun _ => ?_) | refine keepsWf_whenA ?_ | apply keepsWf_updSlot)
    | (with_reducible first | apply keepsWf_engEventX | apply keepsWf_putInFlight | apply keepsWf_spillAll)
    | (with_reducible first | apply keepsWf_creditSpill | refine keepsWf_ite ?_ ?_)
    | split | dsimp only)

theorem keepsWf_selectShadow (core : Nat) : KeepsWf (selectShadow core) := by
  unfold selectShadow
  repeat' (first
    | (with_reducible first | exact keepsWf_pure _ | (refine keepsWf_getThen fun s hs => ?_))
    | (with_reducible first | (refine keepsWf_bind ?_ fun _ => ?_) | apply keepsWf_inc64 | apply keepsWf_updCore)
    | (with_reducible first | apply keepsWf_engEventX | refine keepsWf_ite ?_ ?_)
    | split | dsimp only)

theorem keepsWf_missShadow (core k : Nat) : KeepsWf (missShadow core k) := by
  unfold missShadow
  repeat' (first
    | (with_reducible first | exact keepsWf_pure _ | (refine keepsWf_getThen fun s hs => ?_))
    | (with_reducible first | (refine keepsWf_bind ?_ fun _ => ?_) | apply keepsWf_addReg | apply keepsWf_updCore)
    | (with_reducible first | apply keepsWf_updSlot)
    | split | dsimp only)

theorem keepsWf_openSlot (core : Nat) (f : InFlight) : KeepsWf (openSlot core f) := by
  unfold openSlot
  repeat' (first
    | (with_reducible first | exact keepsWf_pure _ | (refine keepsWf_getThen fun s hs => ?_))
    | (with_reducible first | (refine keepsWf_bind ?_ fun _ => ?_) | refine keepsWf_whenA ?_ | apply keepsWf_updSlot)
    | (with_reducible first | apply keepsWf_engEventX | apply keepsWf_readBytes | apply keepsWf_selectShadow)
    | (with_reducible first | refine keepsWf_ite ?_ ?_)
    | split | dsimp only)

theorem keepsWf_capture (core k : Nat) (lines : Nat) : KeepsWf (capture core k lines) := by
  unfold capture
  repeat' (first
    | (with_reducible first | exact keepsWf_pure _ | (refine keepsWf_getThen fun s hs => ?_))
    | (with_reducible first | (refine keepsWf_bind ?_ fun _ => ?_) | apply keepsWf_updSlot | apply keepsWf_missShadow)
    | (with_reducible first | refine keepsWf_ite ?_ ?_)
    | split | dsimp only)

theorem keepsWf_mmaStd (core : Nat) (g0 : InFlight) : KeepsWf (mmaStd core g0) := by
  unfold mmaStd
  repeat' (first
    | (with_reducible first | exact keepsWf_pure _ | (refine keepsWf_getThen fun s hs => ?_))
    | (with_reducible first | (refine keepsWf_bind ?_ fun _ => ?_) | apply keepsWf_updSlot | apply keepsWf_engEventX)
    | (with_reducible first | apply keepsWf_readLines | apply keepsWf_spillAll | apply keepsWf_creditSpill)
    | (with_reducible first | apply keepsWf_resolvePending | apply keepsWf_openSlot | apply keepsWf_capture)
    | (with_reducible first | refine keepsWf_ite ?_ ?_)
    | split | dsimp only)

theorem keepsWf_matrixPlay (core : Nat) (f : InFlight) : KeepsWf (matrixPlay core f) := by
  unfold matrixPlay
  repeat' (first
    | (with_reducible first | exact keepsWf_pure _ | (refine keepsWf_bind ?_ fun _ => ?_) | apply keepsWf_playOf)
    | (with_reducible first | refine keepsWf_ite ?_ ?_)
    | split | dsimp only)

theorem keepsWf_scrambleSlot (core k : Nat) : KeepsWf (scrambleSlot core k) := by
  unfold scrambleSlot
  repeat' (first
    | (with_reducible first | exact keepsWf_pure _ | (refine keepsWf_getThen fun s hs => ?_))
    | (with_reducible first | (refine keepsWf_bind ?_ fun _ => ?_) | (refine keepsWf_mapA fun _ => ?_))
    | (with_reducible first | apply keepsWf_updSlot | apply keepsWf_freeVal)
    | split | dsimp only)

theorem keepsWf_mmaWork (core : Nat) (g0 : InFlight) : KeepsWf (mmaWork core g0) := by
  unfold mmaWork
  repeat' (first
    | (with_reducible first | exact keepsWf_pure _ | (refine keepsWf_getThen fun s hs => ?_))
    | (with_reducible first | (refine keepsWf_bind ?_ fun _ => ?_) | refine keepsWf_whenA ?_ | apply keepsWf_mmaStd)
    | (with_reducible first | apply keepsWf_matrixPlay | apply keepsWf_scrambleSlot)
    | split | dsimp only)

theorem keepsWf_resolveDrain (core k : Nat) : KeepsWf (resolveDrain core k) := by
  unfold resolveDrain
  repeat' (first
    | (with_reducible first | exact keepsWf_pure _ | (refine keepsWf_getThen fun s hs => ?_))
    | (with_reducible first | (refine keepsWf_bind ?_ fun _ => ?_) | apply keepsWf_updSlot | apply keepsWf_engEventX)
    | (with_reducible first | apply keepsWf_spillAll | refine keepsWf_ite ?_ ?_)
    | split | dsimp only)

theorem keepsWf_writeHist (a : Nat) (add : Bool) (counts : List Nat) : KeepsWf (writeHist a add counts) := by
  unfold writeHist
  repeat' (first
    | (with_reducible first | exact hs | exact keepsWf_pure _ | (refine keepsWf_getThen fun s hs => ?_))
    | (with_reducible first | (refine keepsWf_bind ?_ fun _ => ?_) | refine keepsWf_whenA ?_)
    | (with_reducible first | (refine keepsWf_mapA fun _ => ?_) | apply keepsWf_sliceEvent | apply keepsWf_readLine)
    | (with_reducible first | (refine keepsWf_modify fun s hs => ?_) | refine M.wf_putLine _ _ _ ?_)
    | (with_reducible first | refine keepsWf_ite ?_ ?_)
    | split | dsimp only | exact (M.wf_congr ⟨rfl, rfl, rfl, rfl, rfl, rfl, rfl, rfl, rfl, rfl, rfl⟩).trans hs)

theorem keepsWf_writeDrained (o : TD) (d : Drained) (bad badScale : List Nat) : KeepsWf (writeDrained o d bad badScale) := by
  unfold writeDrained
  repeat' (first
    | (with_reducible first | exact keepsWf_pure _ | (refine keepsWf_bind ?_ fun _ => ?_))
    | (with_reducible first | (refine keepsWf_mapA fun _ => ?_) | apply keepsWf_writeRun | apply keepsWf_writeCodes)
    | (with_reducible first | refine keepsWf_ite ?_ ?_)
    | split | dsimp only)

theorem keepsWf_drainEvents (core : Nat) (d : Drained) : KeepsWf (drainEvents core d) := by
  unfold drainEvents
  repeat' (first
    | (with_reducible first | exact keepsWf_pure _ | (refine keepsWf_bind ?_ fun _ => ?_) | refine keepsWf_whenA ?_)
    | (with_reducible first | apply keepsWf_engEventX)
    | split | dsimp only)

theorem keepsWf_drainOpen (core k : Nat) (live : Bool) : KeepsWf (drainOpen core k live) := by
  unfold drainOpen
  repeat' (first
    | (with_reducible first | exact keepsWf_pure _ | (refine keepsWf_getThen fun s hs => ?_))
    | (with_reducible first | (refine keepsWf_bind ?_ fun _ => ?_) | apply keepsWf_engEventX | apply keepsWf_posEvent)
    | (with_reducible first | apply keepsWf_resolvePending | apply keepsWf_resolveDrain | refine keepsWf_ite ?_ ?_)
    | split | dsimp only)

theorem keepsWf_drainWrite (o : TD) (g : Draining) (d : Drained) : KeepsWf (drainWrite o g d) := by
  unfold drainWrite
  repeat' (first
    | (with_reducible first | exact keepsWf_pure _ | (refine keepsWf_bind ?_ fun _ => ?_) | apply keepsWf_writeExact)
    | (with_reducible first | apply keepsWf_writeDrained | refine keepsWf_ite ?_ ?_)
    | split | dsimp only)

theorem keepsWf_drainShadow (core : Nat) (f : InFlight) (g : Draining) : KeepsWf (drainShadow core f g) := by
  unfold drainShadow
  repeat' (first
    | (with_reducible first | exact keepsWf_pure _ | (refine keepsWf_getThen fun s hs => ?_))
    | (with_reducible first | (refine keepsWf_bind ?_ fun _ => ?_) | apply keepsWf_updCore | apply keepsWf_updSlot)
    | (with_reducible first | refine keepsWf_ite ?_ ?_)
    | split | dsimp only)

theorem keepsWf_farAfter (sl : Slot) (live : Bool) : KeepsWf (farAfter sl live) := by
  unfold farAfter
  repeat' (first
    | (with_reducible first | exact keepsWf_pure _ | refine keepsWf_whenA ?_ | apply keepsWf_scramble)
    | split | dsimp only)

theorem keepsWf_drainWork (core : Nat) (g0 : InFlight) : KeepsWf (drainWork core g0) := by
  unfold drainWork
  repeat' (first
    | (with_reducible first | exact keepsWf_pure _ | (refine keepsWf_getThen fun s hs => ?_))
    | (with_reducible first | (refine keepsWf_bind ?_ fun _ => ?_) | refine keepsWf_whenA ?_)
    | (with_reducible first | (refine keepsWf_mapA fun _ => ?_) | apply keepsWf_setField | apply keepsWf_freeVal)
    | (with_reducible first | apply keepsWf_engEventX | apply keepsWf_readLines | apply keepsWf_writeBytes)
    | (with_reducible first | apply keepsWf_scrambleOuts | apply keepsWf_matrixPlay | apply keepsWf_writeHist)
    | (with_reducible first | apply keepsWf_drainEvents | apply keepsWf_drainOpen | apply keepsWf_drainWrite)
    | (with_reducible first | apply keepsWf_drainShadow | apply keepsWf_farAfter | refine keepsWf_ite ?_ ?_)
    | split | dsimp only)

theorem keepsWf_freeze (core e : Nat) (p : InFlight → Bool) : KeepsWf (freeze core e p) := by
  unfold freeze
  repeat' (first
    | (with_reducible first | exact hs | exact keepsWf_pure _ | apply keepsWf_updRing)
    | (with_reducible first | (refine keepsWf_modify fun s hs => ?_))
    | split | dsimp only | exact (M.wf_congr ⟨rfl, rfl, rfl, rfl, rfl, rfl, rfl, rfl, rfl, rfl, rfl⟩).trans hs)

theorem wf_execMma (core : Nat) {s t : State} (h : s.m.wf = true)
    (hs : execMma core s = .next t) : t.m.wf = true := by
  unfold execMma at hs
  refine wf_of_doing ?_ h hs
  repeat' (first
    | (with_reducible first | exact keepsWf_pure _ | apply keepsWf_runOp | apply keepsWf_mmaWork)
    | split | dsimp only)

theorem wf_execMmaBlock (core : Nat) {s t : State} (h : s.m.wf = true)
    (hs : execMmaBlock core s = .next t) : t.m.wf = true := by
  unfold execMmaBlock at hs
  refine wf_of_doing ?_ h hs
  repeat' (first
    | (with_reducible first | exact keepsWf_pure _ | apply keepsWf_runOp | apply keepsWf_mmaWork)
    | split | dsimp only)

theorem wf_execMmaA7 (core : Nat) {s t : State} (h : s.m.wf = true)
    (hs : execMmaA7 core s = .next t) : t.m.wf = true := by
  unfold execMmaA7 at hs
  refine wf_of_doing ?_ h hs
  repeat' (first
    | (with_reducible first | exact keepsWf_pure _ | apply keepsWf_runOp | apply keepsWf_mmaWork)
    | split | dsimp only)

theorem wf_execMmaFp64 (core : Nat) {s t : State} (h : s.m.wf = true)
    (hs : execMmaFp64 core s = .next t) : t.m.wf = true := by
  unfold execMmaFp64 at hs
  refine wf_of_doing ?_ h hs
  repeat' (first
    | (with_reducible first | exact keepsWf_pure _ | apply keepsWf_runOp | apply keepsWf_mmaWork)
    | split | dsimp only)

theorem wf_execWindowResolve (core slot : Nat) {s t : State} (h : s.m.wf = true)
    (hs : execWindowResolve core slot s = .next t) : t.m.wf = true := by
  unfold execWindowResolve at hs
  refine wf_of_doing ?_ h hs
  repeat' (first
    | (with_reducible first | exact keepsWf_pure _ | (refine keepsWf_getThen fun s hs => ?_))
    | (with_reducible first | (refine keepsWf_bind ?_ fun _ => ?_) | refine keepsWf_whenA ?_)
    | (with_reducible first | apply keepsWf_resolvePending)
    | split | dsimp only)

theorem wf_execDrain (core : Nat) {s t : State} (h : s.m.wf = true)
    (hs : execDrain core s = .next t) : t.m.wf = true := by
  unfold execDrain at hs
  refine wf_of_doing ?_ h hs
  repeat' (first
    | (with_reducible first | exact keepsWf_pure _ | apply keepsWf_runOp | apply keepsWf_drainWork)
    | split | dsimp only)

theorem wf_execSlotDrainWaitEnd (core : Nat) {s t : State} (h : s.m.wf = true)
    (hs : execSlotDrainWaitEnd core s = .next t) : t.m.wf = true := by
  unfold execSlotDrainWaitEnd at hs
  refine wf_of_doing ?_ h hs
  repeat' (first
    | (with_reducible first | exact keepsWf_pure _ | (refine keepsWf_getThen fun s hs => ?_))
    | (with_reducible first | (refine keepsWf_bind ?_ fun _ => ?_) | refine keepsWf_whenA ?_ | apply keepsWf_updRing)
    | (with_reducible first | apply keepsWf_updSlot | apply keepsWf_issue | refine keepsWf_ite ?_ ?_)
    | split | dsimp only)

theorem wf_execChecksumFreeze (pos : Nat) {s t : State} (h : s.m.wf = true)
    (hs : execChecksumFreeze pos s = .next t) : t.m.wf = true := by
  unfold execChecksumFreeze at hs
  refine wf_of_doing ?_ h hs
  repeat' (first
    | (with_reducible first | exact keepsWf_pure _ | (refine keepsWf_getThen fun s hs => ?_))
    | (with_reducible first | (refine keepsWf_bind ?_ fun _ => ?_) | refine keepsWf_whenA ?_ | apply keepsWf_posCount)
    | (with_reducible first | apply keepsWf_freeze)
    | split | dsimp only)

theorem wf_execHazardWatchFreeze (pos ring : Nat) {s t : State} (h : s.m.wf = true)
    (hs : execHazardWatchFreeze pos ring s = .next t) : t.m.wf = true := by
  unfold execHazardWatchFreeze at hs
  refine wf_of_doing ?_ h hs
  repeat' (first
    | (with_reducible first | exact keepsWf_pure _ | (refine keepsWf_getThen fun s hs => ?_))
    | (with_reducible first | (refine keepsWf_bind ?_ fun _ => ?_) | refine keepsWf_whenA ?_ | apply keepsWf_engEvent)
    | (with_reducible first | apply keepsWf_freeze)
    | split | dsimp only)

end Sys2Proof.Machine
end

