-- ==== Sys2Proof/Laws/WfRings.lean ====
section
/-! SUPPORT. Every operation of Machine/Rings.lean keeps the canonical form. -/

namespace Sys2Proof.Machine

theorem keepsWf_setHeld (writer v : Nat) : KeepsWf (setHeld writer v) := by
  unfold setHeld
  repeat' (first
    | (with_reducible first | exact hs | exact keepsWf_pure _ | (refine keepsWf_modify fun s hs => ?_))
    | (with_reducible first | refine M.wf_putHeld _ _ ?_)
    | split | dsimp only | exact (M.wf_congr ⟨rfl, rfl, rfl, rfl, rfl, rfl, rfl, rfl, rfl, rfl, rfl⟩).trans hs)

theorem keepsWf_setAsm (core e writer : Nat) (a : PushAsm) : KeepsWf (setAsm core e writer a) := by
  unfold setAsm
  repeat' (first
    | (with_reducible first | exact keepsWf_pure _ | apply keepsWf_updRing)
    | split | dsimp only)

theorem keepsWf_pushOrder (writer core e : Nat) : KeepsWf (pushOrder writer core e) := by
  unfold pushOrder
  repeat' (first
    | (with_reducible first | exact keepsWf_pure _ | (refine keepsWf_getThen fun s hs => ?_))
    | (with_reducible first | (refine keepsWf_bind ?_ fun _ => ?_) | refine keepsWf_whenA ?_ | apply keepsWf_setField)
    | (with_reducible first | apply keepsWf_posCount)
    | split | dsimp only)

theorem keepsWf_commitRecord (core e : Nat) (ws : List Nat) : KeepsWf (commitRecord core e ws) := by
  unfold commitRecord
  repeat' (first
    | (with_reducible first | exact keepsWf_pure _ | (refine keepsWf_getThen fun s hs => ?_))
    | (with_reducible first | (refine keepsWf_bind ?_ fun _ => ?_) | refine keepsWf_whenA ?_ | apply keepsWf_wr)
    | (with_reducible first | apply keepsWf_writeBytes)
    | split | dsimp only)

theorem keepsWf_stallPush (core e writer k value : Nat) : KeepsWf (stallPush core e writer k value) := by
  unfold stallPush
  repeat' (first
    | (with_reducible first | exact keepsWf_pure _ | (refine keepsWf_getThen fun s hs => ?_))
    | (with_reducible first | (refine keepsWf_bind ?_ fun _ => ?_) | apply keepsWf_setHeld | apply keepsWf_setAsm)
    | split | dsimp only)

theorem keepsWf_pushWord (writer core e word value : Nat) : KeepsWf (pushWord writer core e word value) := by
  unfold pushWord
  repeat' (first
    | (with_reducible first | exact keepsWf_pure _ | (refine keepsWf_getThen fun s hs => ?_))
    | (with_reducible first | (refine keepsWf_bind ?_ fun _ => ?_) | apply keepsWf_setAsm | apply keepsWf_pushOrder)
    | (with_reducible first | apply keepsWf_stallPush | refine keepsWf_ite ?_ ?_)
    | split | dsimp only)

theorem keepsWf_pushCommit (writer core e value : Nat) : KeepsWf (pushCommit writer core e value) := by
  unfold pushCommit
  repeat' (first
    | (with_reducible first | exact keepsWf_pure _ | (refine keepsWf_getThen fun s hs => ?_))
    | (with_reducible first | (refine keepsWf_bind ?_ fun _ => ?_) | apply keepsWf_setAsm | apply keepsWf_pushOrder)
    | (with_reducible first | apply keepsWf_commitRecord | apply keepsWf_stallPush | refine keepsWf_ite ?_ ?_)
    | split | dsimp only)

theorem keepsWf_pushResume (writer core e : Nat) : KeepsWf (pushResume writer core e) := by
  unfold pushResume
  repeat' (first
    | (with_reducible first | exact keepsWf_pure _ | (refine keepsWf_getThen fun s hs => ?_))
    | (with_reducible first | (refine keepsWf_bind ?_ fun _ => ?_) | refine keepsWf_whenA ?_ | apply keepsWf_setHeld)
    | (with_reducible first | apply keepsWf_setAsm | apply keepsWf_commitRecord | refine keepsWf_ite ?_ ?_)
    | split | dsimp only)

theorem keepsWf_pushTimeout (core e : Nat) : KeepsWf (pushTimeout core e) := by
  unfold pushTimeout
  repeat' (first
    | (with_reducible first | exact keepsWf_pure _ | (refine keepsWf_getThen fun s hs => ?_))
    | (with_reducible first | (refine keepsWf_bind ?_ fun _ => ?_) | refine keepsWf_whenA ?_ | apply keepsWf_inc64)
    | (with_reducible first | apply keepsWf_setHeld | apply keepsWf_setAsm)
    | split | dsimp only)

theorem keepsWf_ringRun (core e : Nat) : KeepsWf (ringRun core e) := by
  unfold ringRun
  repeat' (first
    | (with_reducible first | exact keepsWf_pure _ | (refine keepsWf_getThen fun s hs => ?_))
    | (with_reducible first | (refine keepsWf_bind ?_ fun _ => ?_) | apply keepsWf_wr | apply keepsWf_haltRing)
    | (with_reducible first | apply keepsWf_settle | refine keepsWf_ite ?_ ?_)
    | split | dsimp only)

theorem keepsWf_ringStop (core e : Nat) : KeepsWf (ringStop core e) := by
  unfold ringStop
  repeat' (first
    | (with_reducible first | exact keepsWf_pure _ | apply keepsWf_wr)
    | split | dsimp only)

theorem keepsWf_ringReset (core e : Nat) : KeepsWf (ringReset core e) := by
  unfold ringReset
  repeat' (first
    | (with_reducible first | exact keepsWf_pure _ | (refine keepsWf_getThen fun s hs => ?_))
    | (with_reducible first | (refine keepsWf_bind ?_ fun _ => ?_) | refine keepsWf_whenA ?_)
    | (with_reducible first | (refine keepsWf_forA fun _ => ?_) | apply keepsWf_wr | apply keepsWf_setField)
    | (with_reducible first | apply keepsWf_updRing | apply keepsWf_updSlot | refine keepsWf_ite ?_ ?_)
    | split | dsimp only)

theorem keepsWf_passThrow (core p n : Nat) : KeepsWf (passThrow core p n) := by
  unfold passThrow
  repeat' (first
    | (with_reducible first | exact keepsWf_pure _ | (refine keepsWf_bind ?_ fun _ => ?_) | refine keepsWf_whenA ?_)
    | (with_reducible first | apply keepsWf_setField | apply keepsWf_throwPass)
    | split | dsimp only)

theorem keepsWf_loadPlays (core e : Nat) (v0 : List (Nat × Nat)) (v1 : Nat) : KeepsWf (loadPlays core e v0 v1) := by
  induction v0 generalizing v1 with
  | nil => exact keepsWf_pure _
  | cons x v0 ih =>
  unfold loadPlays
  repeat' (first
    | (with_reducible first | exact keepsWf_pure _ | (refine keepsWf_getThen fun s hs => ?_))
    | (with_reducible first | (refine keepsWf_bind ?_ fun _ => ?_) | apply ih | apply keepsWf_readBytes)
    | (with_reducible first | refine keepsWf_ite ?_ ?_ | intro _)
    | split | dsimp only)

theorem keepsWf_syncEngine (core e : Nat) : KeepsWf (syncEngine core e) := by
  unfold syncEngine
  repeat' (first
    | (with_reducible first | exact keepsWf_pure _ | (refine keepsWf_getThen fun s hs => ?_))
    | (with_reducible first | (refine keepsWf_bind ?_ fun _ => ?_) | apply keepsWf_wr | apply keepsWf_updRing)
    | (with_reducible first | apply keepsWf_readLines | apply keepsWf_loadPlays | refine keepsWf_ite ?_ ?_)
    | split | dsimp only)

theorem keepsWf_playSync (core mask : Nat) : KeepsWf (playSync core mask) := by
  unfold playSync
  repeat' (first
    | (with_reducible first | exact keepsWf_pure _ | (refine keepsWf_getThen fun s hs => ?_))
    | (with_reducible first | (refine keepsWf_bind ?_ fun _ => ?_) | refine keepsWf_whenA ?_)
    | (with_reducible first | (refine keepsWf_forA fun _ => ?_) | apply keepsWf_syncEngine)
    | split | dsimp only)

theorem keepsWf_commonWork (core e op : Nat) (g0 : InFlight) : KeepsWf (commonWork core e op g0) := by
  unfold commonWork
  repeat' (first
    | (with_reducible first | exact keepsWf_pure _ | apply keepsWf_stepSetWork | apply keepsWf_phaseMarkWork)
    | (with_reducible first | apply keepsWf_stateSaveWork | apply keepsWf_stateLoadWork)
    | split | dsimp only)

theorem keepsWf_retireOp (core ring extra : Nat) : KeepsWf (retireOp core ring extra) := by
  unfold retireOp
  repeat' (first
    | (with_reducible first | exact keepsWf_pure _ | (refine keepsWf_getThen fun s hs => ?_))
    | (with_reducible first | (refine keepsWf_bind ?_ fun _ => ?_) | refine keepsWf_whenA ?_ | apply keepsWf_retire)
    | (with_reducible first | apply keepsWf_resolvePending)
    | split | dsimp only)

theorem wf_execRingPushWord (writer core ring word value : Nat) {s t : State} (h : s.m.wf = true)
    (hs : execRingPushWord writer core ring word value s = .next t) : t.m.wf = true := by
  unfold execRingPushWord at hs
  refine wf_of_doing ?_ h hs
  repeat' (first
    | (with_reducible first | exact keepsWf_pure _ | apply keepsWf_coreAction | apply keepsWf_pushWord)
    | split | dsimp only)

theorem wf_execRingPushCommit (writer core ring value : Nat) {s t : State} (h : s.m.wf = true)
    (hs : execRingPushCommit writer core ring value s = .next t) : t.m.wf = true := by
  unfold execRingPushCommit at hs
  refine wf_of_doing ?_ h hs
  repeat' (first
    | (with_reducible first | exact keepsWf_pure _ | apply keepsWf_coreAction | apply keepsWf_pushCommit)
    | split | dsimp only)

theorem wf_execCoreRingCtlRun (writer core ring : Nat) {s t : State} (h : s.m.wf = true)
    (hs : execCoreRingCtlRun core ring s writer = .next t) : t.m.wf = true := by
  unfold execCoreRingCtlRun at hs
  refine wf_of_doing ?_ h hs
  repeat' (first
    | (with_reducible first | exact keepsWf_pure _ | apply keepsWf_coreAction | apply keepsWf_ringRun)
    | split | dsimp only)

theorem wf_execCoreRingReset (writer core ring : Nat) {s t : State} (h : s.m.wf = true)
    (hs : execCoreRingReset core ring s writer = .next t) : t.m.wf = true := by
  unfold execCoreRingReset at hs
  refine wf_of_doing ?_ h hs
  repeat' (first
    | (with_reducible first | exact keepsWf_pure _ | apply keepsWf_coreAction | apply keepsWf_ringReset)
    | split | dsimp only)

theorem wf_execCorePassThrow (writer core pass n : Nat) {s t : State} (h : s.m.wf = true)
    (hs : execCorePassThrow core pass n s writer = .next t) : t.m.wf = true := by
  unfold execCorePassThrow at hs
  refine wf_of_doing ?_ h hs
  repeat' (first
    | (with_reducible first | exact keepsWf_pure _ | apply keepsWf_coreAction | apply keepsWf_passThrow)
    | split | dsimp only)

theorem wf_execCorePlaySync (writer core mask : Nat) {s t : State} (h : s.m.wf = true)
    (hs : execCorePlaySync core mask s writer = .next t) : t.m.wf = true := by
  unfold execCorePlaySync at hs
  refine wf_of_doing ?_ h hs
  repeat' (first
    | (with_reducible first | exact keepsWf_pure _ | apply keepsWf_coreAction | apply keepsWf_playSync)
    | split | dsimp only)

theorem wf_execCatchGrant (core ring : Nat) {s t : State} (h : s.m.wf = true)
    (hs : execCatchGrant core ring s = .next t) : t.m.wf = true := by
  unfold execCatchGrant at hs
  refine wf_of_doing ?_ h hs
  repeat' (first
    | (with_reducible first | exact keepsWf_pure _ | (refine keepsWf_getThen fun s hs => ?_))
    | (with_reducible first | (refine keepsWf_bind ?_ fun _ => ?_) | refine keepsWf_whenA ?_ | apply keepsWf_issue)
    | (with_reducible first | apply keepsWf_putInFlight | apply keepsWf_commonWork)
    | split | dsimp only)

theorem wf_execDecodeFailure (core ring : Nat) {s t : State} (h : s.m.wf = true)
    (hs : execDecodeFailure core ring s = .next t) : t.m.wf = true := by
  unfold execDecodeFailure at hs
  refine wf_of_doing ?_ h hs
  repeat' (first
    | (with_reducible first | assumption | exact keepsWf_pure _ | (refine keepsWf_getThen fun s hs => ?_))
    | (with_reducible first | (refine keepsWf_bind ?_ fun _ => ?_) | refine keepsWf_whenA ?_ | apply keepsWf_settle)
    | (with_reducible first | apply keepsWf_decodeFails | apply keepsWf_decodeOnce | refine keepsWf_set ?_)
    | (with_reducible first | refine keepsWf_ite ?_ ?_)
    | split | dsimp only | exact (M.wf_congr ⟨rfl, rfl, rfl, rfl, rfl, rfl, rfl, rfl, rfl, rfl, rfl⟩).trans hs)

theorem wf_execMacroOpRetire (core ring extra : Nat) {s t : State} (h : s.m.wf = true)
    (hs : execMacroOpRetire core ring extra s = .next t) : t.m.wf = true := by
  unfold execMacroOpRetire at hs
  refine wf_of_doing ?_ h hs
  repeat' (first
    | (with_reducible first | exact keepsWf_pure _ | apply keepsWf_retireOp)
    | split | dsimp only)

end Sys2Proof.Machine
end

