-- ==== Sys2Proof/Laws/WfMemory.lean ====
section
/-! SUPPORT. Every operation of Machine/Memory.lean keeps the canonical form. -/

namespace Sys2Proof.Machine

theorem keepsWf_trainingDone (ctrl : Nat) (pass : Bool) : KeepsWf (trainingDone ctrl pass) := by
  unfold trainingDone
  repeat' (first
    | (with_reducible first | assumption | exact keepsWf_pure _ | (refine keepsWf_getThen fun s hs => ?_))
    | (with_reducible first | (refine keepsWf_bind ?_ fun _ => ?_) | refine keepsWf_whenA ?_ | apply keepsWf_setField)
    | (with_reducible first | (refine keepsWf_modify fun s hs => ?_) | refine keepsWf_set ?_ | refine keepsWf_ite ?_ ?_)
    | split | dsimp only | exact (M.wf_congr ⟨rfl, rfl, rfl, rfl, rfl, rfl, rfl, rfl, rfl, rfl, rfl⟩).trans hs)

theorem keepsWf_zeroLines (p : Nat → Bool) : KeepsWf (zeroLines p) := by
  unfold zeroLines
  repeat' (first
    | (with_reducible first | exact hs | exact keepsWf_pure _ | (refine keepsWf_modify fun s hs => ?_))
    | (with_reducible first | refine M.wf_filter _ _ ?_)
    | split | dsimp only | exact (M.wf_congr ⟨rfl, rfl, rfl, rfl, rfl, rfl, rfl, rfl, rfl, rfl, rfl⟩).trans hs)

theorem keepsWf_flipBytes (a : Nat) (v0 : Nat) : KeepsWf (flipBytes a v0) := by
  induction v0 with
  | zero => exact keepsWf_pure _
  | succ v0 ih =>
  unfold flipBytes
  repeat' (first
    | (with_reducible first | exact hs | exact keepsWf_pure _ | (refine keepsWf_bind ?_ fun _ => ?_) | apply ih)
    | (with_reducible first | (refine keepsWf_modify fun s hs => ?_) | refine M.wf_setByte _ _ ?_ | intro _)
    | split | dsimp only | exact (M.wf_congr ⟨rfl, rfl, rfl, rfl, rfl, rfl, rfl, rfl, rfl, rfl, rfl⟩).trans hs)

theorem keepsWf_inject (addr : Nat) (a : Act Unit) (hw0 : KeepsWf a) : KeepsWf (inject addr a) := by
  unfold inject
  repeat' (first
    | (with_reducible first | exact keepsWf_pure _ | (refine keepsWf_getThen fun s hs => ?_))
    | (with_reducible first | (refine keepsWf_bind ?_ fun _ => ?_) | refine keepsWf_whenA ?_ | apply hw0 | intro _)
    | split | dsimp only)

theorem keepsWf_writePoisonedAux (v0 : Nat) (v1 : Nat) (v2 : List Byte) : KeepsWf (writePoisonedAux v0 v1 v2) := by
  induction v0 generalizing v1 v2 with
  | zero => exact keepsWf_pure _
  | succ v0 ih =>
  unfold writePoisonedAux
  repeat' (first
    | (with_reducible first | exact hs | exact keepsWf_pure _ | (refine keepsWf_bind ?_ fun _ => ?_))
    | (with_reducible first | refine keepsWf_whenA ?_ | apply ih | apply keepsWf_readLine)
    | (with_reducible first | (refine keepsWf_modify fun s hs => ?_) | refine M.wf_putLine _ _ _ ?_)
    | (with_reducible first | refine keepsWf_ite ?_ ?_ | intro _)
    | split | dsimp only | exact (M.wf_congr ⟨rfl, rfl, rfl, rfl, rfl, rfl, rfl, rfl, rfl, rfl, rfl⟩).trans hs)

theorem keepsWf_writePoisoned (a : Nat) (data : List Byte) : KeepsWf (writePoisoned a data) := by
  unfold writePoisoned
  repeat' (first
    | (with_reducible first | exact keepsWf_pure _ | apply keepsWf_writePoisonedAux)
    | split | dsimp only)

theorem keepsWf_writeInbound (a : Nat) (data : List Byte) (poison : Bool) : KeepsWf (writeInbound a data poison) := by
  unfold writeInbound
  repeat' (first
    | (with_reducible first | exact keepsWf_pure _ | (refine keepsWf_bind ?_ fun _ => ?_) | apply keepsWf_writeBytes)
    | (with_reducible first | apply keepsWf_writePoisoned | refine keepsWf_ite ?_ ?_)
    | split | dsimp only)

theorem keepsWf_updHdm (d : Nat) (f : Hdm → Hdm) : KeepsWf (updHdm d f) := by
  unfold updHdm
  repeat' (first
    | (with_reducible first | exact hs | exact keepsWf_pure _ | (refine keepsWf_modify fun s hs => ?_))
    | (with_reducible first | refine keepsWf_ite ?_ ?_)
    | split | dsimp only | exact (M.wf_congr ⟨rfl, rfl, rfl, rfl, rfl, rfl, rfl, rfl, rfl, rfl, rfl⟩).trans hs)

theorem wf_execFarStoreTrainingDone (ctrl : Nat) (pass : Bool) {s t : State} (h : s.m.wf = true)
    (hs : execFarStoreTrainingDone ctrl pass s = .next t) : t.m.wf = true := by
  unfold execFarStoreTrainingDone at hs
  refine wf_of_doing ?_ h hs
  repeat' (first
    | (with_reducible first | exact keepsWf_pure _ | apply keepsWf_trainingDone)
    | split | dsimp only)

theorem wf_execFarStoreZeroFillDone (set : Nat) {s t : State} (h : s.m.wf = true)
    (hs : execFarStoreZeroFillDone set s = .next t) : t.m.wf = true := by
  unfold execFarStoreZeroFillDone at hs
  refine wf_of_doing ?_ h hs
  repeat' (first
    | (with_reducible first | assumption | exact keepsWf_pure _ | (refine keepsWf_getThen fun s hs => ?_))
    | (with_reducible first | (refine keepsWf_bind ?_ fun _ => ?_) | refine keepsWf_whenA ?_ | apply keepsWf_setField)
    | (with_reducible first | apply keepsWf_zeroLines | refine keepsWf_set ?_)
    | split | dsimp only | exact (M.wf_congr ⟨rfl, rfl, rfl, rfl, rfl, rfl, rfl, rfl, rfl, rfl, rfl⟩).trans hs)

theorem wf_execScrubLine (store unit : Nat) {s t : State} (h : s.m.wf = true)
    (hs : execScrubLine store unit s = .next t) : t.m.wf = true := by
  unfold execScrubLine at hs
  refine wf_of_doing ?_ h hs
  repeat' (first
    | (with_reducible first | exact hs | exact keepsWf_pure _ | (refine keepsWf_getThen fun s hs => ?_))
    | (with_reducible first | (refine keepsWf_bind ?_ fun _ => ?_) | refine keepsWf_whenA ?_ | apply keepsWf_wr)
    | (with_reducible first | apply keepsWf_readLine | (refine keepsWf_modify fun s hs => ?_))
    | (with_reducible first | refine M.wf_putScrubAt _ _ ?_ | refine M.wf_putScrubbed _ _ ?_ | refine keepsWf_ite ?_ ?_)
    | split | dsimp only | exact (M.wf_congr ⟨rfl, rfl, rfl, rfl, rfl, rfl, rfl, rfl, rfl, rfl, rfl⟩).trans hs)

theorem wf_execRefresh (ctrl rate : Nat) {s t : State} (h : s.m.wf = true)
    (hs : execRefresh ctrl rate s = .next t) : t.m.wf = true := by
  unfold execRefresh at hs
  refine wf_of_doing ?_ h hs
  repeat' (first
    | (with_reducible first | exact keepsWf_pure _ | (refine keepsWf_getThen fun s hs => ?_))
    | (with_reducible first | (refine keepsWf_bind ?_ fun _ => ?_) | refine keepsWf_whenA ?_ | apply keepsWf_setField)
    | split | dsimp only)

theorem wf_execZqCalibration (_ctrl : Nat) {s t : State} (h : s.m.wf = true)
    (hs : execZqCalibration _ctrl s = .next t) : t.m.wf = true := by
  unfold execZqCalibration at hs
  refine wf_of_doing ?_ h hs
  repeat' (first
    | (with_reducible first | exact keepsWf_pure _)
    | split | dsimp only)

theorem wf_execMemInjectCorrectable (writer addr : Nat) {s t : State} (h : s.m.wf = true)
    (hs : execMemInjectCorrectable addr s writer = .next t) : t.m.wf = true := by
  unfold execMemInjectCorrectable at hs
  refine wf_of_doing ?_ h hs
  repeat' (first
    | (with_reducible first | exact keepsWf_pure _ | apply keepsWf_regAction | apply keepsWf_flipBytes)
    | (with_reducible first | apply keepsWf_inject)
    | split | dsimp only)

theorem wf_execMemInjectUncorrectable (writer addr : Nat) {s t : State} (h : s.m.wf = true)
    (hs : execMemInjectUncorrectable addr s writer = .next t) : t.m.wf = true := by
  unfold execMemInjectUncorrectable at hs
  refine wf_of_doing ?_ h hs
  repeat' (first
    | (with_reducible first | exact keepsWf_pure _ | apply keepsWf_regAction | apply keepsWf_flipBytes)
    | (with_reducible first | apply keepsWf_inject)
    | split | dsimp only)

theorem wf_execMemInjectPoison (writer addr : Nat) {s t : State} (h : s.m.wf = true)
    (hs : execMemInjectPoison addr s writer = .next t) : t.m.wf = true := by
  unfold execMemInjectPoison at hs
  refine wf_of_doing ?_ h hs
  repeat' (first
    | (with_reducible first | exact keepsWf_pure _ | apply keepsWf_regAction | apply keepsWf_poisonLine)
    | (with_reducible first | apply keepsWf_inject)
    | split | dsimp only)

theorem wf_execBar2Read (offset len : Nat) {s t : State} (h : s.m.wf = true)
    (hs : execBar2Read offset len s = .next t) : t.m.wf = true := by
  unfold execBar2Read at hs
  refine wf_of_doing ?_ h hs
  repeat' (first
    | (with_reducible first | exact keepsWf_pure _ | (refine keepsWf_getThen fun s hs => ?_))
    | (with_reducible first | (refine keepsWf_bind ?_ fun _ => ?_) | apply keepsWf_emit | apply keepsWf_earlyAccess)
    | (with_reducible first | apply keepsWf_unlessHeld | apply keepsWf_readBytes | refine keepsWf_ite ?_ ?_)
    | split | dsimp only)

theorem wf_execBar2Write (offset : Nat) (data : List Byte) (poison : Bool) {s t : State} (h : s.m.wf = true)
    (hs : execBar2Write offset data poison s = .next t) : t.m.wf = true := by
  unfold execBar2Write at hs
  refine wf_of_doing ?_ h hs
  repeat' (first
    | (with_reducible first | exact keepsWf_pure _ | (refine keepsWf_getThen fun s hs => ?_))
    | (with_reducible first | (refine keepsWf_bind ?_ fun _ => ?_) | apply keepsWf_earlyAccess)
    | (with_reducible first | apply keepsWf_unlessHeld | apply keepsWf_writeInbound | refine keepsWf_ite ?_ ?_)
    | split | dsimp only)

theorem wf_execCxlMemRead (offset : Nat) {s t : State} (h : s.m.wf = true)
    (hs : execCxlMemRead offset s = .next t) : t.m.wf = true := by
  unfold execCxlMemRead at hs
  refine wf_of_doing ?_ h hs
  repeat' (first
    | (with_reducible first | exact keepsWf_pure _ | (refine keepsWf_getThen fun s hs => ?_))
    | (with_reducible first | (refine keepsWf_bind ?_ fun _ => ?_) | (refine keepsWf_mapA fun _ => ?_))
    | (with_reducible first | apply keepsWf_emit | apply keepsWf_freeVal | apply keepsWf_earlyAccess)
    | (with_reducible first | apply keepsWf_readBytes | refine keepsWf_ite ?_ ?_)
    | split | dsimp only)

theorem wf_execCxlMemWrite (offset : Nat) (data : List Byte) (poison : Bool) {s t : State} (h : s.m.wf = true)
    (hs : execCxlMemWrite offset data poison s = .next t) : t.m.wf = true := by
  unfold execCxlMemWrite at hs
  refine wf_of_doing ?_ h hs
  repeat' (first
    | (with_reducible first | exact keepsWf_pure _ | (refine keepsWf_getThen fun s hs => ?_))
    | (with_reducible first | (refine keepsWf_bind ?_ fun _ => ?_) | apply keepsWf_earlyAccess)
    | (with_reducible first | apply keepsWf_writeInbound | refine keepsWf_ite ?_ ?_)
    | split | dsimp only)

theorem wf_execH2dSnoop (address : Nat) {s t : State} (h : s.m.wf = true)
    (hs : execH2dSnoop address s = .next t) : t.m.wf = true := by
  unfold execH2dSnoop at hs
  refine wf_of_doing ?_ h hs
  repeat' (first
    | (with_reducible first | exact keepsWf_pure _ | apply keepsWf_emit)
    | split | dsimp only)

theorem wf_execBar0AccessInvalid (isWrite : Bool) (offset size : Nat) {s t : State} (h : s.m.wf = true)
    (hs : execBar0AccessInvalid isWrite offset size s = .next t) : t.m.wf = true := by
  unfold execBar0AccessInvalid at hs
  refine wf_of_doing ?_ h hs
  repeat' (first
    | (with_reducible first | exact keepsWf_pure _ | (refine keepsWf_getThen fun s hs => ?_))
    | (with_reducible first | (refine keepsWf_bind ?_ fun _ => ?_) | refine keepsWf_whenA ?_ | apply keepsWf_emit)
    | (with_reducible first | apply keepsWf_earlyAccess | apply keepsWf_unlessHeld)
    | split | dsimp only)

end Sys2Proof.Machine
end

