-- ==== Sys2Proof/Laws/WfUpdate.lean ====
section
/-! SUPPORT. Every operation of Machine/Update.lean keeps the canonical form. -/

namespace Sys2Proof.Machine

theorem keepsWf_setVerdict (n state fail step : Nat) : KeepsWf (setVerdict n state fail step) := by
  unfold setVerdict
  repeat' (first
    | (with_reducible first | exact keepsWf_pure _ | (refine keepsWf_bind ?_ fun _ => ?_) | refine keepsWf_whenA ?_)
    | (with_reducible first | apply keepsWf_wr | apply keepsWf_inc64)
    | split | dsimp only)

theorem keepsWf_statAdd (a : Nat) (x : ExAcc) : KeepsWf (statAdd a x) := by
  unfold statAdd
  repeat' (first
    | (with_reducible first | exact keepsWf_pure _ | (refine keepsWf_bind ?_ fun _ => ?_) | apply keepsWf_readBytes)
    | (with_reducible first | apply keepsWf_writeBytes | refine keepsWf_ite ?_ ?_)
    | split | dsimp only)

theorem keepsWf_statTail (stats : Nat) (f : StatTail → StatTail) : KeepsWf (statTail stats f) := by
  unfold statTail
  repeat' (first
    | (with_reducible first | exact keepsWf_pure _ | (refine keepsWf_bind ?_ fun _ => ?_) | apply keepsWf_readBytes)
    | (with_reducible first | apply keepsWf_writeBytes | refine keepsWf_ite ?_ ?_)
    | split | dsimp only)

theorem keepsWf_clearStats (phase : Nat) (l : Layer) : KeepsWf (clearStats phase l) := by
  unfold clearStats
  repeat' (first
    | (with_reducible first | exact keepsWf_pure _ | (refine keepsWf_bind ?_ fun _ => ?_))
    | (with_reducible first | (refine keepsWf_mapA fun _ => ?_) | apply keepsWf_writeBytes | apply keepsWf_statTail)
    | (with_reducible first | refine keepsWf_ite ?_ ?_)
    | split | dsimp only)

theorem keepsWf_updateWork (g0 : InFlight) : KeepsWf (updateWork g0) := by
  unfold updateWork
  repeat' (first
    | (with_reducible first | exact keepsWf_pure _ | (refine keepsWf_getThen fun s hs => ?_))
    | (with_reducible first | (refine keepsWf_bind ?_ fun _ => ?_) | apply keepsWf_upd | refine keepsWf_ite ?_ ?_)
    | split | dsimp only)

theorem keepsWf_releaseUpdate (f : InFlight) : KeepsWf (releaseUpdate f) := by
  unfold releaseUpdate
  repeat' (first
    | (with_reducible first | exact keepsWf_pure _ | (refine keepsWf_bind ?_ fun _ => ?_))
    | (with_reducible first | (refine keepsWf_mapA fun _ => ?_) | apply keepsWf_upd | apply keepsWf_clearStats)
    | split | dsimp only)

theorem keepsWf_normsRun (f : InFlight) (l : Layer) (is : List Nat) : KeepsWf (normsRun f l is) := by
  unfold normsRun
  repeat' (first
    | (with_reducible first | exact keepsWf_pure _ | (refine keepsWf_getThen fun s hs => ?_))
    | (with_reducible first | (refine keepsWf_bind ?_ fun _ => ?_) | apply keepsWf_statAdd)
    | split | dsimp only)

theorem keepsWf_writeArray (l : Layer) (a i0 n : Nat) (code : Nat → Nat) (bad : List Nat) : KeepsWf (writeArray l a i0 n code bad) := by
  unfold writeArray
  repeat' (first
    | (with_reducible first | exact keepsWf_pure _ | apply keepsWf_writeRun | refine keepsWf_ite ?_ ?_)
    | split | dsimp only)

theorem keepsWf_stepRun (core : Nat) (f : InFlight) (l : Layer) (i0 n tr : Nat) (bad : List Nat) : KeepsWf (stepRun core f l i0 n tr bad) := by
  unfold stepRun
  repeat' (first
    | (with_reducible first | exact keepsWf_pure _ | (refine keepsWf_getThen fun s hs => ?_))
    | (with_reducible first | (refine keepsWf_bind ?_ fun _ => ?_) | apply keepsWf_freeVal | apply keepsWf_statAdd)
    | (with_reducible first | apply keepsWf_statTail | apply keepsWf_writeArray)
    | (with_reducible first | (refine M.wf_foldl _ (fun s _ hs => ?_) _ ?_) | refine keepsWf_ite ?_ ?_)
    | split | dsimp only)

theorem keepsWf_closeStats (f : InFlight) (l : Layer) : KeepsWf (closeStats f l) := by
  unfold closeStats
  repeat' (first
    | (with_reducible first | exact keepsWf_pure _ | (refine keepsWf_getThen fun s hs => ?_))
    | (with_reducible first | (refine keepsWf_bind ?_ fun _ => ?_) | refine keepsWf_whenA ?_ | apply keepsWf_readLines)
    | (with_reducible first | apply keepsWf_poisonLine | apply keepsWf_statTail | refine keepsWf_ite ?_ ?_)
    | split | dsimp only)

theorem keepsWf_endWaiters (n status : Nat) : KeepsWf (endWaiters n status) := by
  unfold endWaiters
  repeat' (first
    | (with_reducible first | exact keepsWf_pure _ | (refine keepsWf_getThen fun s hs => ?_))
    | (with_reducible first | (refine keepsWf_bind ?_ fun _ => ?_) | (refine keepsWf_forA fun _ => ?_))
    | (with_reducible first | apply keepsWf_updRing | refine keepsWf_ite ?_ ?_)
    | split | dsimp only)

theorem keepsWf_vgroupWrite (n value : Nat) : KeepsWf (vgroupWrite n value) := by
  unfold vgroupWrite
  repeat' (first
    | (with_reducible first | exact keepsWf_pure _ | (refine keepsWf_getThen fun s hs => ?_))
    | (with_reducible first | (refine keepsWf_bind ?_ fun _ => ?_) | apply keepsWf_inc64 | apply keepsWf_ilWrite)
    | (with_reducible first | apply keepsWf_setVerdict | apply keepsWf_endWaiters | refine keepsWf_ite ?_ ?_)
    | split | dsimp only)

theorem keepsWf_scrambleUpdate (f : InFlight) : KeepsWf (scrambleUpdate f) := by
  unfold scrambleUpdate
  repeat' (first
    | (with_reducible first | exact keepsWf_pure _ | (refine keepsWf_bind ?_ fun _ => ?_))
    | (with_reducible first | (refine keepsWf_forA fun _ => ?_) | apply keepsWf_scramble | refine keepsWf_ite ?_ ?_)
    | split | dsimp only)

theorem wf_execUpdate (core : Nat) {s t : State} (h : s.m.wf = true)
    (hs : execUpdate core s = .next t) : t.m.wf = true := by
  unfold execUpdate at hs
  refine wf_of_doing ?_ h hs
  repeat' (first
    | (with_reducible first | exact keepsWf_pure _ | apply keepsWf_runOp | apply keepsWf_withPlay)
    | (with_reducible first | apply keepsWf_updateWork)
    | split | dsimp only)

theorem wf_execVerdictRelease (core : Nat) {s t : State} (h : s.m.wf = true)
    (hs : execVerdictRelease core s = .next t) : t.m.wf = true := by
  unfold execVerdictRelease at hs
  refine wf_of_doing ?_ h hs
  repeat' (first
    | (with_reducible first | exact keepsWf_pure _ | (refine keepsWf_getThen fun s hs => ?_))
    | (with_reducible first | (refine keepsWf_bind ?_ fun _ => ?_) | apply keepsWf_upd | apply keepsWf_putInFlight)
    | (with_reducible first | apply keepsWf_releaseUpdate)
    | split | dsimp only)

theorem wf_execVerdictTimeout (core waitedMs : Nat) {s t : State} (h : s.m.wf = true)
    (hs : execVerdictTimeout core waitedMs s = .next t) : t.m.wf = true := by
  unfold execVerdictTimeout at hs
  refine wf_of_doing ?_ h hs
  repeat' (first
    | (with_reducible first | exact keepsWf_pure _ | (refine keepsWf_getThen fun s hs => ?_))
    | (with_reducible first | (refine keepsWf_bind ?_ fun _ => ?_) | apply keepsWf_putInFlight)
    | split | dsimp only)

theorem wf_execUpdateUnitBlock (core : Nat) {s t : State} (h : s.m.wf = true)
    (hs : execUpdateUnitBlock core s = .next t) : t.m.wf = true := by
  unfold execUpdateUnitBlock at hs
  refine wf_of_doing ?_ h hs
  repeat' (first
    | (with_reducible first | exact keepsWf_pure _ | (refine keepsWf_getThen fun s hs => ?_))
    | (with_reducible first | (refine keepsWf_bind ?_ fun _ => ?_) | apply keepsWf_upd | apply keepsWf_addReg)
    | (with_reducible first | apply keepsWf_chargeUnits | apply keepsWf_readLines | apply keepsWf_addBalance)
    | (with_reducible first | apply keepsWf_putInFlight | apply keepsWf_statTail | apply keepsWf_normsRun)
    | (with_reducible first | apply keepsWf_stepRun | refine keepsWf_ite ?_ ?_)
    | split | dsimp only)

theorem wf_execUpdateUnitsDone (core : Nat) {s t : State} (h : s.m.wf = true)
    (hs : execUpdateUnitsDone core s = .next t) : t.m.wf = true := by
  unfold execUpdateUnitsDone at hs
  refine wf_of_doing ?_ h hs
  repeat' (first
    | (with_reducible first | exact keepsWf_pure _ | (refine keepsWf_getThen fun s hs => ?_))
    | (with_reducible first | (refine keepsWf_bind ?_ fun _ => ?_) | (refine keepsWf_mapA fun _ => ?_))
    | (with_reducible first | apply keepsWf_putInFlight | apply keepsWf_closeStats)
    | split | dsimp only)

theorem wf_execUpdVgroupWrite (writer entry value : Nat) {s t : State} (h : s.m.wf = true)
    (hs : execUpdVgroupWrite entry value s writer = .next t) : t.m.wf = true := by
  unfold execUpdVgroupWrite at hs
  refine wf_of_doing ?_ h hs
  repeat' (first
    | (with_reducible first | exact keepsWf_pure _ | apply keepsWf_regAction | apply keepsWf_vgroupWrite)
    | split | dsimp only)

end Sys2Proof.Machine
end

