-- ==== Sys2Proof/Laws/WfRelay.lean ====
section
/-! SUPPORT. Every operation of Machine/Relay.lean keeps the canonical form. -/

namespace Sys2Proof.Machine

theorem keepsWf_updEng (e : Nat) (f : RelayEng → RelayEng) : KeepsWf (updEng e f) := by
  unfold updEng
  repeat' (first
    | (with_reducible first | exact hs | exact keepsWf_pure _ | (refine keepsWf_modify fun s hs => ?_))
    | split | dsimp only | exact (M.wf_congr ⟨rfl, rfl, rfl, rfl, rfl, rfl, rfl, rfl, rfl, rfl, rfl⟩).trans hs)

theorem keepsWf_updColl (e group seq : Nat) (f : Coll → Coll) : KeepsWf (updColl e group seq f) := by
  unfold updColl
  repeat' (first
    | (with_reducible first | exact keepsWf_pure _ | apply keepsWf_updEng | refine keepsWf_ite ?_ ?_)
    | split | dsimp only)

theorem keepsWf_readContribs (t : TD) (isL : Bool) (x n : Nat) : KeepsWf (readContribs t isL x n) := by
  unfold readContribs
  repeat' (first
    | (with_reducible first | exact keepsWf_pure _ | (refine keepsWf_getThen fun s hs => ?_))
    | (with_reducible first | (refine keepsWf_bind ?_ fun _ => ?_) | apply keepsWf_readLines | refine keepsWf_ite ?_ ?_)
    | split | dsimp only)

theorem keepsWf_readPlain (t : TD) (x n : Nat) : KeepsWf (readPlain t x n) := by
  unfold readPlain
  repeat' (first
    | (with_reducible first | exact keepsWf_pure _ | (refine keepsWf_getThen fun s hs => ?_))
    | (with_reducible first | (refine keepsWf_bind ?_ fun _ => ?_) | apply keepsWf_readLines)
    | split | dsimp only)

theorem keepsWf_writeElems (t : TD) (bad : List Nat) (v0 : Nat) (v1 : Nat) (v2 : List Nat) : KeepsWf (writeElems t bad v0 v1 v2) := by
  induction v0 generalizing v1 v2 with
  | zero => exact keepsWf_pure _
  | succ v0 ih =>
  unfold writeElems
  repeat' (first
    | (with_reducible first | exact keepsWf_pure _ | (refine keepsWf_bind ?_ fun _ => ?_) | apply ih)
    | (with_reducible first | apply keepsWf_writeRun | refine keepsWf_ite ?_ ?_ | intro _)
    | split | dsimp only)

theorem keepsWf_writePlain (t : TD) (x : Nat) (codes : List Nat) (lost : List Bool) (scales : List Nat) : KeepsWf (writePlain t x codes lost scales) := by
  unfold writePlain
  repeat' (first
    | (with_reducible first | exact keepsWf_pure _ | (refine keepsWf_bind ?_ fun _ => ?_))
    | (with_reducible first | (refine keepsWf_mapA fun _ => ?_) | apply keepsWf_writeRun | apply keepsWf_writeElems)
    | (with_reducible first | refine keepsWf_ite ?_ ?_)
    | split | dsimp only)

theorem keepsWf_storeExact (isL dstL : Bool) (a : ExAcc) : KeepsWf (storeExact isL dstL a) := by
  unfold storeExact
  repeat' (first
    | (with_reducible first | exact keepsWf_pure _ | (refine keepsWf_bind ?_ fun _ => ?_) | apply keepsWf_freeVal)
    | (with_reducible first | refine keepsWf_ite ?_ ?_)
    | split | dsimp only)

theorem keepsWf_accumulate (e entry step bits : Nat) : KeepsWf (accumulate e entry step bits) := by
  unfold accumulate
  repeat' (first
    | (with_reducible first | exact keepsWf_pure _ | apply keepsWf_updEng | refine keepsWf_ite ?_ ?_)
    | split | dsimp only)

theorem keepsWf_sendControlMsg (e : Nat) (c : Coll) (rank code index origin flags elems bytes aux : Nat) : KeepsWf (sendControlMsg e c rank code index origin flags elems bytes aux) := by
  unfold sendControlMsg
  repeat' (first
    | (with_reducible first | exact keepsWf_pure _ | (refine keepsWf_bind ?_ fun _ => ?_) | apply keepsWf_relayEvent)
    | (with_reducible first | apply keepsWf_postMessage)
    | split | dsimp only)

theorem keepsWf_stage (e : Nat) (c : Coll) (buf : Nat) (body : List Byte) (bad : List Nat) : KeepsWf (stage e c buf body bad) := by
  unfold stage
  repeat' (first
    | (with_reducible first | exact hs | exact keepsWf_pure _ | (refine keepsWf_forA fun _ => ?_))
    | (with_reducible first | (refine keepsWf_modify fun s hs => ?_) | refine M.wf_putLine _ _ _ ?_)
    | (with_reducible first | refine keepsWf_ite ?_ ?_)
    | split | dsimp only | exact (M.wf_congr ⟨rfl, rfl, rfl, rfl, rfl, rfl, rfl, rfl, rfl, rfl, rfl⟩).trans hs)

theorem keepsWf_stageIn (e : Nat) (c : Coll) (leg rank : Nat) (k : Chunk) (body : List Byte) (bad : List Nat) : KeepsWf (stageIn e c leg rank k body bad) := by
  unfold stageIn
  repeat' (first
    | (with_reducible first | exact keepsWf_pure _ | apply keepsWf_stage | refine keepsWf_ite ?_ ?_)
    | split | dsimp only)

theorem keepsWf_stageOut (e : Nat) (c : Coll) (leg rank : Nat) (k : Chunk) (body : List Byte) (bad : List Nat) : KeepsWf (stageOut e c leg rank k body bad) := by
  unfold stageOut
  repeat' (first
    | (with_reducible first | exact keepsWf_pure _ | apply keepsWf_stage)
    | split | dsimp only)

theorem keepsWf_stageDown (e : Nat) (c : Coll) (k : Chunk) (body : List Byte) (bad : List Nat) : KeepsWf (stageDown e c k body bad) := by
  unfold stageDown
  repeat' (first
    | (with_reducible first | exact keepsWf_pure _ | apply keepsWf_stageOut)
    | split | dsimp only)

theorem keepsWf_sendChunk (e : Nat) (c : Coll) (r : Ready) : KeepsWf (sendChunk e c r) := by
  unfold sendChunk
  repeat' (first
    | (with_reducible first | exact keepsWf_pure _ | (refine keepsWf_bind ?_ fun _ => ?_) | apply keepsWf_relayEvent)
    | (with_reducible first | apply keepsWf_postMessage | apply keepsWf_updColl)
    | split | dsimp only)

theorem keepsWf_grant (e : Nat) (group seq rank leg : Nat) : KeepsWf (grant e group seq rank leg) := by
  unfold grant
  repeat' (first
    | (with_reducible first | exact keepsWf_pure _ | (refine keepsWf_getThen fun s hs => ?_))
    | (with_reducible first | (refine keepsWf_bind ?_ fun _ => ?_) | refine keepsWf_whenA ?_ | apply keepsWf_updColl)
    | (with_reducible first | apply keepsWf_sendControlMsg)
    | split | dsimp only)

theorem keepsWf_releaseKids (e : Nat) (c : Coll) (k : Chunk) : KeepsWf (releaseKids e c k) := by
  unfold releaseKids
  repeat' (first
    | (with_reducible first | exact keepsWf_pure _ | (refine keepsWf_forA fun _ => ?_) | apply keepsWf_grant)
    | (with_reducible first | refine keepsWf_ite ?_ ?_)
    | split | dsimp only)

theorem keepsWf_sendReady (e group seq : Nat) (v0 : Nat) : KeepsWf (sendReady e group seq v0) := by
  induction v0 with
  | zero => exact keepsWf_pure _
  | succ v0 ih =>
  unfold sendReady
  repeat' (first
    | (with_reducible first | exact keepsWf_pure _ | (refine keepsWf_getThen fun s hs => ?_))
    | (with_reducible first | (refine keepsWf_bind ?_ fun _ => ?_) | refine keepsWf_whenA ?_ | apply ih)
    | (with_reducible first | apply keepsWf_sendChunk | apply keepsWf_releaseKids | refine keepsWf_ite ?_ ?_ | intro _)
    | split | dsimp only)

theorem keepsWf_makeReady (e : Nat) (c : Coll) (rs : List Ready) : KeepsWf (makeReady e c rs) := by
  unfold makeReady
  repeat' (first
    | (with_reducible first | exact keepsWf_pure _ | (refine keepsWf_bind ?_ fun _ => ?_) | apply keepsWf_updColl)
    | (with_reducible first | apply keepsWf_sendReady)
    | split | dsimp only)

theorem keepsWf_endRingOp (core x status flags result : Nat) : KeepsWf (endRingOp core x status flags result) := by
  unfold endRingOp
  repeat' (first
    | (with_reducible first | exact keepsWf_pure _ | apply keepsWf_updRing | refine keepsWf_ite ?_ ?_)
    | split | dsimp only)

theorem keepsWf_countEnd (e status : Nat) : KeepsWf (countEnd e status) := by
  unfold countEnd
  repeat' (first
    | (with_reducible first | exact keepsWf_pure _ | (refine keepsWf_bind ?_ fun _ => ?_) | apply keepsWf_inc64)
    | (with_reducible first | apply keepsWf_relayEvent)
    | split | dsimp only)

theorem keepsWf_stopMessages (p : Owner → Bool) : KeepsWf (stopMessages p) := by
  unfold stopMessages
  repeat' (first
    | (with_reducible first | exact keepsWf_pure _ | (refine keepsWf_getThen fun s hs => ?_))
    | (with_reducible first | (refine keepsWf_bind ?_ fun _ => ?_) | (refine keepsWf_forA fun _ => ?_))
    | (with_reducible first | apply keepsWf_updRally | refine keepsWf_ite ?_ ?_)
    | split | dsimp only)

theorem keepsWf_abortInbound (e group seq : Nat) : KeepsWf (abortInbound e group seq) := by
  unfold abortInbound
  repeat' (first
    | (with_reducible first | exact keepsWf_pure _ | (refine keepsWf_getThen fun s hs => ?_))
    | (with_reducible first | (refine keepsWf_bind ?_ fun _ => ?_) | refine keepsWf_whenA ?_)
    | (with_reducible first | (refine keepsWf_forA fun _ => ?_) | apply keepsWf_updRally | apply keepsWf_queueStatus)
    | (with_reducible first | refine keepsWf_ite ?_ ?_)
    | split | dsimp only)

theorem keepsWf_endQueueOp (g : GroupRec) (group x status flags result : Nat) : KeepsWf (endQueueOp g group x status flags result) := by
  unfold endQueueOp
  repeat' (first
    | (with_reducible first | exact hs | exact keepsWf_pure _ | (refine keepsWf_bind ?_ fun _ => ?_) | apply keepsWf_rd)
    | (with_reducible first | apply keepsWf_freeVal | apply keepsWf_writeBytes | (refine keepsWf_modify fun s hs => ?_))
    | (with_reducible first | refine keepsWf_ite ?_ ?_)
    | split | dsimp only | exact (M.wf_congr ⟨rfl, rfl, rfl, rfl, rfl, rfl, rfl, rfl, rfl, rfl, rfl⟩).trans hs)

theorem keepsWf_closeVerdict (c : Coll) (failed : Bool) (status : Nat) : KeepsWf (closeVerdict c failed status) := by
  unfold closeVerdict
  repeat' (first
    | (with_reducible first | exact keepsWf_pure _ | (refine keepsWf_getThen fun s hs => ?_))
    | (with_reducible first | (refine keepsWf_bind ?_ fun _ => ?_) | apply keepsWf_setVerdict | refine keepsWf_ite ?_ ?_)
    | split | dsimp only)

theorem keepsWf_writeCounts (c : Coll) : KeepsWf (writeCounts c) := by
  unfold writeCounts
  repeat' (first
    | (with_reducible first | exact keepsWf_pure _ | (refine keepsWf_bind ?_ fun _ => ?_) | apply keepsWf_writeElems)
    | split | dsimp only)

theorem keepsWf_endColl (e : Nat) (c : Coll) (failed : Bool) (status : Nat) : KeepsWf (endColl e c failed status) := by
  unfold endColl
  repeat' (first
    | (with_reducible first | exact keepsWf_pure _ | (refine keepsWf_bind ?_ fun _ => ?_) | refine keepsWf_whenA ?_)
    | (with_reducible first | apply keepsWf_scrambleOuts | apply keepsWf_updEng | apply keepsWf_endRingOp)
    | (with_reducible first | apply keepsWf_countEnd | apply keepsWf_stopMessages | apply keepsWf_abortInbound)
    | (with_reducible first | apply keepsWf_endQueueOp | apply keepsWf_closeVerdict | apply keepsWf_writeCounts)
    | (with_reducible first | refine keepsWf_ite ?_ ?_)
    | split | dsimp only)

theorem keepsWf_enqueue (c : Coll) : KeepsWf (enqueue c) := by
  unfold enqueue
  repeat' (first
    | (with_reducible first | exact keepsWf_pure _ | (refine keepsWf_getThen fun s hs => ?_))
    | (with_reducible first | (refine keepsWf_bind ?_ fun _ => ?_) | refine keepsWf_whenA ?_ | apply keepsWf_updEng)
    | (with_reducible first | apply keepsWf_endColl)
    | split | dsimp only)

theorem keepsWf_readDescAt (base i : Nat) : KeepsWf (readDescAt base i) := by
  unfold readDescAt
  repeat' (first
    | (with_reducible first | exact keepsWf_pure _ | (refine keepsWf_bind ?_ fun _ => ?_) | apply keepsWf_readBytes)
    | split | dsimp only)

theorem keepsWf_takeQueue (group : Nat) (v0 : Nat) : KeepsWf (takeQueue group v0) := by
  induction v0 with
  | zero => exact keepsWf_pure _
  | succ v0 ih =>
  unfold takeQueue
  repeat' (first
    | (with_reducible first | exact keepsWf_pure _ | (refine keepsWf_getThen fun s hs => ?_))
    | (with_reducible first | (refine keepsWf_bind ?_ fun _ => ?_) | (refine keepsWf_mapA fun _ => ?_) | apply ih)
    | (with_reducible first | apply keepsWf_relayEvent | apply keepsWf_readBytes | apply keepsWf_readGroup)
    | (with_reducible first | apply keepsWf_endQueueOp | apply keepsWf_enqueue | apply keepsWf_readDescAt)
    | (with_reducible first | refine keepsWf_ite ?_ ?_ | intro _)
    | split | dsimp only)

theorem keepsWf_afterEnd (group : Nat) (agree : Nat → Coll → Act Unit) (hw0 : ∀ a b, KeepsWf (agree a b)) : KeepsWf (afterEnd group agree) := by
  unfold afterEnd
  repeat' (first
    | (with_reducible first | exact keepsWf_pure _ | (refine keepsWf_getThen fun s hs => ?_))
    | (with_reducible first | (refine keepsWf_bind ?_ fun _ => ?_) | (refine keepsWf_forA fun _ => ?_) | apply hw0)
    | (with_reducible first | apply keepsWf_takeQueue | intro _)
    | split | dsimp only)

theorem keepsWf_logMismatch (e : Nat) (c : Coll) (node digest : Nat) : KeepsWf (logMismatch e c node digest) := by
  unfold logMismatch
  repeat' (first
    | (with_reducible first | exact keepsWf_pure _ | (refine keepsWf_getThen fun s hs => ?_))
    | (with_reducible first | (refine keepsWf_bind ?_ fun _ => ?_) | apply keepsWf_wr | apply keepsWf_logAdd)
    | split | dsimp only)

theorem keepsWf_noGo (e : Nat) (c : Coll) (node digest : Nat) : KeepsWf (noGo e c node digest) := by
  unfold noGo
  repeat' (first
    | (with_reducible first | exact keepsWf_pure _ | (refine keepsWf_bind ?_ fun _ => ?_))
    | (with_reducible first | (refine keepsWf_forA fun _ => ?_) | apply keepsWf_sendControlMsg | apply keepsWf_endColl)
    | (with_reducible first | apply keepsWf_logMismatch)
    | split | dsimp only)

theorem keepsWf_goOn (e : Nat) (c : Coll) (v : Nat) : KeepsWf (goOn e c v) := by
  unfold goOn
  repeat' (first
    | (with_reducible first | exact keepsWf_pure _ | (refine keepsWf_bind ?_ fun _ => ?_))
    | (with_reducible first | (refine keepsWf_forA fun _ => ?_) | apply keepsWf_updColl | apply keepsWf_sendControlMsg)
    | (with_reducible first | apply keepsWf_endColl | refine keepsWf_ite ?_ ?_)
    | split | dsimp only)

theorem keepsWf_agreeUp (e : Nat) (c : Coll) : KeepsWf (agreeUp e c) := by
  unfold agreeUp
  repeat' (first
    | (with_reducible first | exact keepsWf_pure _ | (refine keepsWf_getThen fun s hs => ?_))
    | (with_reducible first | (refine keepsWf_bind ?_ fun _ => ?_) | apply keepsWf_updColl)
    | (with_reducible first | apply keepsWf_sendControlMsg | apply keepsWf_noGo | apply keepsWf_goOn)
    | (with_reducible first | (refine M.wf_foldl _ (fun s _ hs => ?_) _ ?_) | refine keepsWf_ite ?_ ?_)
    | split | dsimp only)

theorem keepsWf_agree (v0 : Nat) (v1 : Nat) (v2 : Coll) : KeepsWf (agree v0 v1 v2) := by
  induction v0 generalizing v1 v2 with
  | zero => exact keepsWf_pure _
  | succ v0 ih =>
  unfold agree
  repeat' (first
    | (with_reducible first | exact keepsWf_pure _ | (refine keepsWf_bind ?_ fun _ => ?_) | refine keepsWf_whenA ?_)
    | (with_reducible first | apply ih | apply keepsWf_afterEnd | apply keepsWf_agreeUp | intro _)
    | split | dsimp only)

theorem keepsWf_finishColl (e : Nat) (c : Coll) (failed : Bool) (status : Nat) : KeepsWf (finishColl e c failed status) := by
  unfold finishColl
  repeat' (first
    | (with_reducible first | exact keepsWf_pure _ | (refine keepsWf_bind ?_ fun _ => ?_) | apply keepsWf_endColl)
    | (with_reducible first | apply keepsWf_afterEnd | apply keepsWf_agree | intro _)
    | split | dsimp only)

theorem keepsWf_failColl (e : Nat) (c : Coll) (status : Nat) (heard bad : Option Nat) : KeepsWf (failColl e c status heard bad) := by
  unfold failColl
  repeat' (first
    | (with_reducible first | exact keepsWf_pure _ | (refine keepsWf_getThen fun s hs => ?_))
    | (with_reducible first | (refine keepsWf_bind ?_ fun _ => ?_) | refine keepsWf_whenA ?_)
    | (with_reducible first | (refine keepsWf_forA fun _ => ?_) | apply keepsWf_sendControlMsg)
    | (with_reducible first | apply keepsWf_finishColl)
    | split | dsimp only)

theorem keepsWf_noteLast (e group seq : Nat) : KeepsWf (noteLast e group seq) := by
  unfold noteLast
  repeat' (first
    | (with_reducible first | exact keepsWf_pure _ | (refine keepsWf_getThen fun s hs => ?_))
    | (with_reducible first | (refine keepsWf_bind ?_ fun _ => ?_) | refine keepsWf_whenA ?_ | apply keepsWf_updEng)
    | split | dsimp only)

theorem keepsWf_sweepQueued (e group : Nat) : KeepsWf (sweepQueued e group) := by
  unfold sweepQueued
  repeat' (first
    | (with_reducible first | exact keepsWf_pure _ | (refine keepsWf_getThen fun s hs => ?_))
    | (with_reducible first | (refine keepsWf_bind ?_ fun _ => ?_) | (refine keepsWf_forA fun _ => ?_))
    | (with_reducible first | apply keepsWf_finishColl)
    | split | dsimp only)

theorem keepsWf_startNext (e : Nat) : KeepsWf (startNext e) := by
  unfold startNext
  repeat' (first
    | (with_reducible first | assumption | exact keepsWf_pure _ | (refine keepsWf_getThen fun s hs => ?_))
    | (with_reducible first | (refine keepsWf_bind ?_ fun _ => ?_) | refine keepsWf_whenA ?_ | apply keepsWf_addReg)
    | (with_reducible first | apply keepsWf_relayEvent | apply keepsWf_readBytes | apply keepsWf_setVerdict)
    | (with_reducible first | apply keepsWf_updEng | apply keepsWf_agree | apply keepsWf_noteLast)
    | (with_reducible first | apply keepsWf_sweepQueued | refine keepsWf_set ?_ | refine keepsWf_ite ?_ ?_)
    | split | dsimp only | exact (M.wf_congr ⟨rfl, rfl, rfl, rfl, rfl, rfl, rfl, rfl, rfl, rfl, rfl⟩).trans hs)

theorem keepsWf_fetchGroup (e group : Nat) : KeepsWf (fetchGroup e group) := by
  unfold fetchGroup
  repeat' (first
    | (with_reducible first | exact keepsWf_pure _ | (refine keepsWf_getThen fun s hs => ?_))
    | (with_reducible first | (refine keepsWf_bind ?_ fun _ => ?_) | refine keepsWf_whenA ?_)
    | (with_reducible first | (refine keepsWf_forA fun _ => ?_) | apply keepsWf_inc64 | apply keepsWf_relayEvent)
    | (with_reducible first | apply keepsWf_readBytes | apply keepsWf_updEng | apply keepsWf_finishColl)
    | (with_reducible first | refine keepsWf_ite ?_ ?_)
    | split | dsimp only)

theorem keepsWf_chunkDone (e : Nat) (c : Coll) (legs : List Nat) (g flags : Nat) (poison : Bool) : KeepsWf (chunkDone e c legs g flags poison) := by
  unfold chunkDone
  repeat' (first
    | (with_reducible first | exact keepsWf_pure _ | apply keepsWf_updColl)
    | split | dsimp only)

theorem keepsWf_roundOut (e : Nat) (c : Coll) (k : Chunk) (sum : Nat → Option ExAcc) : KeepsWf (roundOut e c k sum) := by
  unfold roundOut
  repeat' (first
    | (with_reducible first | exact keepsWf_pure _ | (refine keepsWf_getThen fun s hs => ?_))
    | (with_reducible first | (refine keepsWf_bind ?_ fun _ => ?_) | refine keepsWf_whenA ?_)
    | (with_reducible first | (refine keepsWf_mapA fun _ => ?_) | apply keepsWf_relayEvent | apply keepsWf_writePlain)
    | (with_reducible first | apply keepsWf_storeExact | apply keepsWf_accumulate | apply keepsWf_stageDown)
    | (with_reducible first | apply keepsWf_makeReady | apply keepsWf_chunkDone | refine keepsWf_ite ?_ ?_)
    | split | dsimp only)

theorem keepsWf_rootChunk (e : Nat) (c : Coll) (k : Chunk) (sums : List (Option ExAcc)) : KeepsWf (rootChunk e c k sums) := by
  unfold rootChunk
  repeat' (first
    | (with_reducible first | exact keepsWf_pure _ | (refine keepsWf_bind ?_ fun _ => ?_))
    | (with_reducible first | (refine keepsWf_forA fun _ => ?_) | apply keepsWf_relayEvent | apply keepsWf_updColl)
    | (with_reducible first | apply keepsWf_roundOut | refine keepsWf_ite ?_ ?_)
    | split | dsimp only)

theorem keepsWf_summed (e : Nat) (c : Coll) (k : Chunk) (sums : List (Option ExAcc)) : KeepsWf (summed e c k sums) := by
  unfold summed
  repeat' (first
    | (with_reducible first | exact keepsWf_pure _ | (refine keepsWf_bind ?_ fun _ => ?_) | apply keepsWf_relayEvent)
    | (with_reducible first | apply keepsWf_stageOut | apply keepsWf_releaseKids | apply keepsWf_makeReady)
    | (with_reducible first | apply keepsWf_chunkDone | apply keepsWf_rootChunk)
    | split | dsimp only)

theorem keepsWf_ownContribs (c : Coll) (k : Chunk) : KeepsWf (ownContribs c k) := by
  unfold ownContribs
  repeat' (first
    | (with_reducible first | exact keepsWf_pure _ | (refine keepsWf_bind ?_ fun _ => ?_) | apply keepsWf_readContribs)
    | (with_reducible first | refine keepsWf_ite ?_ ?_)
    | split | dsimp only)

theorem keepsWf_rootBlock (e : Nat) (c : Coll) (k : Chunk) (n drop : Nat) (body : List Byte) (bad : List Nat) : KeepsWf (rootBlock e c k n drop body bad) := by
  unfold rootBlock
  repeat' (first
    | (with_reducible first | exact keepsWf_pure _ | (refine keepsWf_bind ?_ fun _ => ?_) | apply keepsWf_writePlain)
    | (with_reducible first | apply keepsWf_stageDown | apply keepsWf_makeReady | apply keepsWf_chunkDone)
    | split | dsimp only)

theorem keepsWf_ownChunk (e : Nat) (c : Coll) (leg : Nat) (k : Chunk) : KeepsWf (ownChunk e c leg k) := by
  unfold ownChunk
  repeat' (first
    | (with_reducible first | exact keepsWf_pure _ | (refine keepsWf_bind ?_ fun _ => ?_) | refine keepsWf_whenA ?_)
    | (with_reducible first | apply keepsWf_relayEvent | apply keepsWf_updColl | apply keepsWf_readPlain)
    | (with_reducible first | apply keepsWf_writePlain | apply keepsWf_stageOut | apply keepsWf_stageDown)
    | (with_reducible first | apply keepsWf_makeReady | apply keepsWf_chunkDone | apply keepsWf_summed)
    | (with_reducible first | apply keepsWf_ownContribs | apply keepsWf_rootBlock | refine keepsWf_ite ?_ ?_)
    | split | dsimp only)

theorem keepsWf_chunkSend (e group seq leg g : Nat) : KeepsWf (chunkSend e group seq leg g) := by
  unfold chunkSend
  repeat' (first
    | (with_reducible first | exact keepsWf_pure _ | (refine keepsWf_getThen fun s hs => ?_))
    | (with_reducible first | (refine keepsWf_bind ?_ fun _ => ?_) | refine keepsWf_whenA ?_ | apply keepsWf_sendReady)
    | (with_reducible first | apply keepsWf_ownChunk)
    | split | dsimp only)

theorem keepsWf_malformed (e : Nat) (c : Coll) (rank digest : Nat) : KeepsWf (malformed e c rank digest) := by
  unfold malformed
  repeat' (first
    | (with_reducible first | exact keepsWf_pure _ | (refine keepsWf_bind ?_ fun _ => ?_) | apply keepsWf_logMismatch)
    | (with_reducible first | apply keepsWf_failColl)
    | split | dsimp only)

theorem keepsWf_noteBlock (e : Nat) (c : Coll) (h : Line0) (drop : Nat) : KeepsWf (noteBlock e c h drop) := by
  unfold noteBlock
  repeat' (first
    | (with_reducible first | exact keepsWf_pure _ | apply keepsWf_updColl)
    | split | dsimp only)

theorem keepsWf_reduceChunk (e : Nat) (c : Coll) (rank : Nat) (h : Line0) (body : List Byte) (bad : List Nat) : KeepsWf (reduceChunk e c rank h body bad) := by
  unfold reduceChunk
  repeat' (first
    | (with_reducible first | exact keepsWf_pure _ | (refine keepsWf_getThen fun s hs => ?_))
    | (with_reducible first | (refine keepsWf_bind ?_ fun _ => ?_) | refine keepsWf_whenA ?_ | apply keepsWf_relayEvent)
    | (with_reducible first | apply keepsWf_updColl | apply keepsWf_stageIn | apply keepsWf_stageOut)
    | (with_reducible first | apply keepsWf_releaseKids | apply keepsWf_makeReady | apply keepsWf_summed)
    | (with_reducible first | apply keepsWf_ownContribs | apply keepsWf_rootBlock | apply keepsWf_malformed)
    | (with_reducible first | apply keepsWf_noteBlock | refine keepsWf_ite ?_ ?_)
    | split | dsimp only)

theorem keepsWf_broadcastChunk (e : Nat) (c : Coll) (rank : Nat) (h : Line0) (body : List Byte) (bad : List Nat) : KeepsWf (broadcastChunk e c rank h body bad) := by
  unfold broadcastChunk
  repeat' (first
    | (with_reducible first | exact keepsWf_pure _ | (refine keepsWf_bind ?_ fun _ => ?_) | refine keepsWf_whenA ?_)
    | (with_reducible first | (refine keepsWf_mapA fun _ => ?_) | apply keepsWf_relayEvent | apply keepsWf_writePlain)
    | (with_reducible first | apply keepsWf_storeExact | apply keepsWf_stageIn | apply keepsWf_grant)
    | (with_reducible first | apply keepsWf_makeReady | apply keepsWf_chunkDone | apply keepsWf_malformed)
    | (with_reducible first | apply keepsWf_noteBlock | refine keepsWf_ite ?_ ?_)
    | split | dsimp only)

theorem keepsWf_withColl (e group src : Nat) (line0 : List Byte) (f : Coll → Nat → Line0 → Act Unit) (hw0 : ∀ a b c, KeepsWf (f a b c)) : KeepsWf (withColl e group src line0 f) := by
  unfold withColl
  repeat' (first
    | (with_reducible first | exact keepsWf_pure _ | (refine keepsWf_getThen fun s hs => ?_))
    | (with_reducible first | (refine keepsWf_bind ?_ fun _ => ?_) | apply hw0 | intro _)
    | split | dsimp only)

theorem keepsWf_collectiveWork (core : Nat) (g0 : InFlight) : KeepsWf (collectiveWork core g0) := by
  unfold collectiveWork
  repeat' (first
    | (with_reducible first | exact keepsWf_pure _ | (refine keepsWf_getThen fun s hs => ?_))
    | (with_reducible first | (refine keepsWf_bind ?_ fun _ => ?_) | apply keepsWf_engEventX | apply keepsWf_putInFlight)
    | (with_reducible first | apply keepsWf_enqueue | refine keepsWf_ite ?_ ?_)
    | split | dsimp only)

theorem keepsWf_hearAgree (eng group src : Nat) (line0 : List Byte) : KeepsWf (hearAgree eng group src line0) := by
  unfold hearAgree
  repeat' (first
    | (with_reducible first | exact keepsWf_pure _ | (refine keepsWf_bind ?_ fun _ => ?_) | refine keepsWf_whenA ?_)
    | (with_reducible first | apply keepsWf_updColl | apply keepsWf_agree | apply keepsWf_withColl)
    | (with_reducible first | refine keepsWf_ite ?_ ?_ | intro _)
    | split | dsimp only)

theorem keepsWf_takeChunk (eng leg : Nat) (c : Coll) (rank : Nat) (line0 body : List Byte) (bad : List Nat) : KeepsWf (takeChunk eng leg c rank line0 body bad) := by
  unfold takeChunk
  repeat' (first
    | (with_reducible first | exact keepsWf_pure _ | apply keepsWf_updColl | apply keepsWf_reduceChunk)
    | (with_reducible first | apply keepsWf_broadcastChunk | refine keepsWf_ite ?_ ?_)
    | split | dsimp only)

theorem keepsWf_takeEarly (e group seq : Nat) : KeepsWf (takeEarly e group seq) := by
  unfold takeEarly
  repeat' (first
    | (with_reducible first | exact keepsWf_pure _ | (refine keepsWf_getThen fun s hs => ?_))
    | (with_reducible first | (refine keepsWf_bind ?_ fun _ => ?_) | (refine keepsWf_forA fun _ => ?_))
    | (with_reducible first | apply keepsWf_updColl | apply keepsWf_takeChunk)
    | split | dsimp only)

theorem keepsWf_hearGo (eng group src : Nat) (line0 : List Byte) : KeepsWf (hearGo eng group src line0) := by
  unfold hearGo
  repeat' (first
    | (with_reducible first | exact keepsWf_pure _ | (refine keepsWf_bind ?_ fun _ => ?_) | refine keepsWf_whenA ?_)
    | (with_reducible first | apply keepsWf_afterEnd | apply keepsWf_goOn | apply keepsWf_agree | apply keepsWf_withColl)
    | (with_reducible first | apply keepsWf_takeEarly | refine keepsWf_ite ?_ ?_ | intro _)
    | split | dsimp only)

theorem keepsWf_hearNogo (eng group src : Nat) (line0 : List Byte) : KeepsWf (hearNogo eng group src line0) := by
  unfold hearNogo
  repeat' (first
    | (with_reducible first | exact keepsWf_pure _ | (refine keepsWf_bind ?_ fun _ => ?_) | refine keepsWf_whenA ?_)
    | (with_reducible first | apply keepsWf_afterEnd | apply keepsWf_noGo | apply keepsWf_agree | apply keepsWf_withColl)
    | (with_reducible first | intro _)
    | split | dsimp only)

theorem keepsWf_hearAbort (eng group src : Nat) (line0 : List Byte) : KeepsWf (hearAbort eng group src line0) := by
  unfold hearAbort
  repeat' (first
    | (with_reducible first | exact keepsWf_pure _ | refine keepsWf_whenA ?_ | apply keepsWf_failColl)
    | (with_reducible first | apply keepsWf_withColl | intro _)
    | split | dsimp only)

theorem keepsWf_hearCredit (eng group src : Nat) (line0 : List Byte) : KeepsWf (hearCredit eng group src line0) := by
  unfold hearCredit
  repeat' (first
    | (with_reducible first | exact keepsWf_pure _ | (refine keepsWf_bind ?_ fun _ => ?_) | refine keepsWf_whenA ?_)
    | (with_reducible first | apply keepsWf_updColl | apply keepsWf_sendReady | apply keepsWf_withColl | intro _)
    | split | dsimp only)

theorem keepsWf_hearChunk (eng group src leg : Nat) (line0 body : List Byte) (bad : List Nat) : KeepsWf (hearChunk eng group src leg line0 body bad) := by
  unfold hearChunk
  repeat' (first
    | (with_reducible first | exact keepsWf_pure _ | apply keepsWf_withColl | apply keepsWf_takeChunk | intro _)
    | split | dsimp only)

theorem keepsWf_relayMessage (src tag : Nat) (lines : List (Nat × Bool × List Byte)) : KeepsWf (relayMessage src tag lines) := by
  unfold relayMessage
  repeat' (first
    | (with_reducible first | exact keepsWf_pure _ | apply keepsWf_hearAgree | apply keepsWf_hearGo)
    | (with_reducible first | apply keepsWf_hearNogo | apply keepsWf_hearAbort | apply keepsWf_hearCredit)
    | (with_reducible first | apply keepsWf_hearChunk | (refine M.wf_foldl _ (fun s _ hs => ?_) _ ?_))
    | (with_reducible first | refine keepsWf_ite ?_ ?_)
    | split | dsimp only)

theorem keepsWf_cqDoorbell (value : Nat) : KeepsWf (cqDoorbell value) := by
  unfold cqDoorbell
  repeat' (first
    | (with_reducible first | exact hs | exact keepsWf_pure _ | (refine keepsWf_getThen fun s hs => ?_))
    | (with_reducible first | (refine keepsWf_bind ?_ fun _ => ?_) | refine keepsWf_whenA ?_ | apply keepsWf_wr)
    | (with_reducible first | apply keepsWf_takeQueue | (refine keepsWf_modify fun s hs => ?_))
    | split | dsimp only | exact (M.wf_congr ⟨rfl, rfl, rfl, rfl, rfl, rfl, rfl, rfl, rfl, rfl, rfl⟩).trans hs)

theorem keepsWf_gcacheFlush (value : Nat) : KeepsWf (gcacheFlush value) := by
  unfold gcacheFlush
  repeat' (first
    | (with_reducible first | exact keepsWf_pure _ | (refine keepsWf_getThen fun s hs => ?_))
    | (with_reducible first | (refine keepsWf_bind ?_ fun _ => ?_) | refine keepsWf_whenA ?_)
    | (with_reducible first | (refine keepsWf_forA fun _ => ?_) | apply keepsWf_updEng)
    | split | dsimp only)

theorem keepsWf_snapshotLines (d x : TD) (kd ks : Bool) : KeepsWf (snapshotLines d x kd ks) := by
  unfold snapshotLines
  repeat' (first
    | (with_reducible first | exact keepsWf_pure _ | (refine keepsWf_getThen fun s hs => ?_))
    | (with_reducible first | (refine keepsWf_bind ?_ fun _ => ?_) | (refine keepsWf_mapA fun _ => ?_))
    | (with_reducible first | apply keepsWf_freeVal | apply keepsWf_readLines | refine keepsWf_ite ?_ ?_)
    | split | dsimp only)

theorem keepsWf_snapshotWork (core : Nat) (g0 : InFlight) : KeepsWf (snapshotWork core g0) := by
  unfold snapshotWork
  repeat' (first
    | (with_reducible first | exact keepsWf_pure _ | (refine keepsWf_getThen fun s hs => ?_))
    | (with_reducible first | (refine keepsWf_bind ?_ fun _ => ?_) | apply keepsWf_readLines | apply keepsWf_copyView)
    | (with_reducible first | apply keepsWf_farBeats | apply keepsWf_postMessage | apply keepsWf_snapshotLines)
    | (with_reducible first | refine keepsWf_ite ?_ ?_)
    | split | dsimp only)

theorem wf_execCollective (core : Nat) {s t : State} (h : s.m.wf = true)
    (hs : execCollective core s = .next t) : t.m.wf = true := by
  unfold execCollective at hs
  refine wf_of_doing ?_ h hs
  repeat' (first
    | (with_reducible first | exact keepsWf_pure _ | apply keepsWf_runOp | apply keepsWf_withPlay)
    | (with_reducible first | apply keepsWf_collectiveWork)
    | split | dsimp only)

theorem wf_execCollectiveStart (eng : Nat) {s t : State} (h : s.m.wf = true)
    (hs : execCollectiveStart eng s = .next t) : t.m.wf = true := by
  unfold execCollectiveStart at hs
  refine wf_of_doing ?_ h hs
  repeat' (first
    | (with_reducible first | exact keepsWf_pure _ | apply keepsWf_startNext)
    | split | dsimp only)

theorem wf_execGroupRecordFetchDone (eng group : Nat) {s t : State} (h : s.m.wf = true)
    (hs : execGroupRecordFetchDone eng group s = .next t) : t.m.wf = true := by
  unfold execGroupRecordFetchDone at hs
  refine wf_of_doing ?_ h hs
  repeat' (first
    | (with_reducible first | exact keepsWf_pure _ | apply keepsWf_fetchGroup)
    | split | dsimp only)

theorem wf_execAgree (eng group src : Nat) (line0 : List Byte) {s t : State} (h : s.m.wf = true)
    (hs : execAgree eng group src line0 s = .next t) : t.m.wf = true := by
  unfold execAgree at hs
  refine wf_of_doing ?_ h hs
  repeat' (first
    | (with_reducible first | exact keepsWf_pure _ | apply keepsWf_hearAgree)
    | split | dsimp only)

theorem wf_execGo (eng group src : Nat) (line0 : List Byte) {s t : State} (h : s.m.wf = true)
    (hs : execGo eng group src line0 s = .next t) : t.m.wf = true := by
  unfold execGo at hs
  refine wf_of_doing ?_ h hs
  repeat' (first
    | (with_reducible first | exact keepsWf_pure _ | apply keepsWf_hearGo)
    | split | dsimp only)

theorem wf_execNogo (eng group src : Nat) (line0 : List Byte) {s t : State} (h : s.m.wf = true)
    (hs : execNogo eng group src line0 s = .next t) : t.m.wf = true := by
  unfold execNogo at hs
  refine wf_of_doing ?_ h hs
  repeat' (first
    | (with_reducible first | exact keepsWf_pure _ | apply keepsWf_hearNogo)
    | split | dsimp only)

theorem wf_execAbortMessage (eng group src : Nat) (line0 : List Byte) {s t : State} (h : s.m.wf = true)
    (hs : execAbortMessage eng group src line0 s = .next t) : t.m.wf = true := by
  unfold execAbortMessage at hs
  refine wf_of_doing ?_ h hs
  repeat' (first
    | (with_reducible first | exact keepsWf_pure _ | apply keepsWf_hearAbort)
    | split | dsimp only)

theorem wf_execCredit (eng group src : Nat) (line0 : List Byte) {s t : State} (h : s.m.wf = true)
    (hs : execCredit eng group src line0 s = .next t) : t.m.wf = true := by
  unfold execCredit at hs
  refine wf_of_doing ?_ h hs
  repeat' (first
    | (with_reducible first | exact keepsWf_pure _ | apply keepsWf_hearCredit)
    | split | dsimp only)

theorem wf_execChunkSend (eng group seq leg g : Nat) {s t : State} (h : s.m.wf = true)
    (hs : execChunkSend eng group seq leg g s = .next t) : t.m.wf = true := by
  unfold execChunkSend at hs
  refine wf_of_doing ?_ h hs
  repeat' (first
    | (with_reducible first | exact keepsWf_pure _ | apply keepsWf_chunkSend)
    | split | dsimp only)

theorem wf_execReduceChunkReceived (eng group src : Nat) (line0 body : List Byte) (poisoned : List Nat) {s t : State} (h : s.m.wf = true)
    (hs : execReduceChunkReceived eng group src line0 body poisoned s = .next t) : t.m.wf = true := by
  unfold execReduceChunkReceived at hs
  refine wf_of_doing ?_ h hs
  repeat' (first
    | (with_reducible first | exact keepsWf_pure _ | apply keepsWf_hearChunk)
    | split | dsimp only)

theorem wf_execBroadcastChunkReceived (eng group src : Nat) (line0 body : List Byte) (poisoned : List Nat) {s t : State} (h : s.m.wf = true)
    (hs : execBroadcastChunkReceived eng group src line0 body poisoned s = .next t) : t.m.wf = true := by
  unfold execBroadcastChunkReceived at hs
  refine wf_of_doing ?_ h hs
  repeat' (first
    | (with_reducible first | exact keepsWf_pure _ | apply keepsWf_hearChunk)
    | split | dsimp only)

theorem wf_execCollectiveComplete (eng group seq : Nat) {s t : State} (h : s.m.wf = true)
    (hs : execCollectiveComplete eng group seq s = .next t) : t.m.wf = true := by
  unfold execCollectiveComplete at hs
  refine wf_of_doing ?_ h hs
  repeat' (first
    | (with_reducible first | exact keepsWf_pure _ | (refine keepsWf_getThen fun s hs => ?_))
    | (with_reducible first | (refine keepsWf_bind ?_ fun _ => ?_) | refine keepsWf_whenA ?_ | apply keepsWf_finishColl)
    | split | dsimp only)

theorem wf_execCollectiveProgressTimeout (eng group seq idleMs : Nat) (snapshot : Option (Nat × Nat)) {s t : State} (h : s.m.wf = true)
    (hs : execCollectiveProgressTimeout eng group seq idleMs s snapshot = .next t) : t.m.wf = true := by
  unfold execCollectiveProgressTimeout at hs
  refine wf_of_doing ?_ h hs
  repeat' (first
    | (with_reducible first | exact keepsWf_pure _ | (refine keepsWf_getThen fun s hs => ?_))
    | (with_reducible first | (refine keepsWf_bind ?_ fun _ => ?_) | refine keepsWf_whenA ?_ | apply keepsWf_endRingOp)
    | (with_reducible first | apply keepsWf_stopMessages | apply keepsWf_failColl)
    | split | dsimp only)

theorem wf_execRlyCqDoorbell (writer value : Nat) {s t : State} (h : s.m.wf = true)
    (hs : execRlyCqDoorbell value s writer = .next t) : t.m.wf = true := by
  unfold execRlyCqDoorbell at hs
  refine wf_of_doing ?_ h hs
  repeat' (first
    | (with_reducible first | exact keepsWf_pure _ | apply keepsWf_regAction | apply keepsWf_cqDoorbell)
    | split | dsimp only)

theorem wf_execRlyGcacheFlush (writer value : Nat) {s t : State} (h : s.m.wf = true)
    (hs : execRlyGcacheFlush value s writer = .next t) : t.m.wf = true := by
  unfold execRlyGcacheFlush at hs
  refine wf_of_doing ?_ h hs
  repeat' (first
    | (with_reducible first | exact keepsWf_pure _ | apply keepsWf_regAction | apply keepsWf_gcacheFlush)
    | split | dsimp only)

theorem wf_execSnapshot (core : Nat) {s t : State} (h : s.m.wf = true)
    (hs : execSnapshot core s = .next t) : t.m.wf = true := by
  unfold execSnapshot at hs
  refine wf_of_doing ?_ h hs
  repeat' (first
    | (with_reducible first | exact keepsWf_pure _ | apply keepsWf_runOp | apply keepsWf_withPlay)
    | (with_reducible first | apply keepsWf_snapshotWork)
    | split | dsimp only)

end Sys2Proof.Machine
end

