-- ==== Sys2Proof/Laws/WfJobs.lean ====
section
/-! SUPPORT. Every operation of Machine/Jobs.lean keeps the canonical form. -/

namespace Sys2Proof.Machine

theorem keepsWf_abortRecord (core e x : Nat) : KeepsWf (abortRecord core e x) := by
  unfold abortRecord
  repeat' (first
    | (with_reducible first | exact keepsWf_pure _ | (refine keepsWf_getThen fun s hs => ?_))
    | (with_reducible first | (refine keepsWf_bind ?_ fun _ => ?_) | refine keepsWf_whenA ?_ | apply keepsWf_updRing)
    | (with_reducible first | apply keepsWf_updSlot | apply keepsWf_scrambleOuts | apply keepsWf_missShadow)
    | (with_reducible first | apply keepsWf_scrambleUpdate | apply keepsWf_stopMessages | apply keepsWf_failColl)
    | (with_reducible first | refine keepsWf_ite ?_ ?_)
    | split | dsimp only)

theorem keepsWf_abortRecords (core e index : Nat) (later : Bool) : KeepsWf (abortRecords core e index later) := by
  unfold abortRecords
  repeat' (first
    | (with_reducible first | exact keepsWf_pure _ | (refine keepsWf_getThen fun s hs => ?_))
    | (with_reducible first | (refine keepsWf_bind ?_ fun _ => ?_) | (refine keepsWf_forA fun _ => ?_))
    | (with_reducible first | apply keepsWf_wr | apply keepsWf_updRing | apply keepsWf_settle)
    | (with_reducible first | apply keepsWf_abortRecord | refine keepsWf_ite ?_ ?_)
    | split | dsimp only)

theorem keepsWf_updQueue (q : Nat) (f : HostQ → HostQ) : KeepsWf (updQueue q f) := by
  unfold updQueue
  repeat' (first
    | (with_reducible first | exact hs | exact keepsWf_pure _ | (refine keepsWf_modify fun s hs => ?_))
    | (with_reducible first | refine M.wf_putQueue _ _ ?_)
    | split | dsimp only | exact (M.wf_congr ⟨rfl, rfl, rfl, rfl, rfl, rfl, rfl, rfl, rfl, rfl, rfl⟩).trans hs)

theorem keepsWf_signalQueue (q : Nat) : KeepsWf (signalQueue q) := by
  unfold signalQueue
  repeat' (first
    | (with_reducible first | exact keepsWf_pure _ | (refine keepsWf_getThen fun s hs => ?_))
    | (with_reducible first | (refine keepsWf_bind ?_ fun _ => ?_) | refine keepsWf_whenA ?_ | apply keepsWf_hostEmit)
    | (with_reducible first | apply keepsWf_updQueue | refine keepsWf_ite ?_ ?_)
    | split | dsimp only)

theorem keepsWf_advanceDone (q : Nat) (v0 : Nat) : KeepsWf (advanceDone q v0) := by
  induction v0 with
  | zero => exact keepsWf_pure _
  | succ v0 ih =>
  unfold advanceDone
  repeat' (first
    | (with_reducible first | exact keepsWf_pure _ | (refine keepsWf_getThen fun s hs => ?_))
    | (with_reducible first | (refine keepsWf_bind ?_ fun _ => ?_) | refine keepsWf_whenA ?_ | apply ih)
    | (with_reducible first | apply keepsWf_wr | apply keepsWf_updQueue | intro _)
    | split | dsimp only)

theorem keepsWf_complete (q : Nat) (j : Job) (status core result step runMs : Nat) : KeepsWf (complete q j status core result step runMs) := by
  unfold complete
  repeat' (first
    | (with_reducible first | exact keepsWf_pure _ | (refine keepsWf_getThen fun s hs => ?_))
    | (with_reducible first | (refine keepsWf_bind ?_ fun _ => ?_) | refine keepsWf_whenA ?_)
    | (with_reducible first | (refine keepsWf_forA fun _ => ?_) | apply keepsWf_wr | apply keepsWf_addReg)
    | (with_reducible first | apply keepsWf_hostEmit | apply keepsWf_updQueue | apply keepsWf_signalQueue)
    | (with_reducible first | apply keepsWf_advanceDone | refine keepsWf_ite ?_ ?_)
    | split | dsimp only)

theorem keepsWf_retireAll (core e : Nat) (v0 : Nat) : KeepsWf (retireAll core e v0) := by
  induction v0 with
  | zero => exact keepsWf_pure _
  | succ v0 ih =>
  unfold retireAll
  repeat' (first
    | (with_reducible first | exact keepsWf_pure _ | (refine keepsWf_getThen fun s hs => ?_))
    | (with_reducible first | (refine keepsWf_bind ?_ fun _ => ?_) | apply ih | apply keepsWf_retireNow | intro _)
    | split | dsimp only)

theorem keepsWf_endRing (core e : Nat) : KeepsWf (endRing core e) := by
  unfold endRing
  repeat' (first
    | (with_reducible first | exact keepsWf_pure _ | (refine keepsWf_getThen fun s hs => ?_))
    | (with_reducible first | (refine keepsWf_bind ?_ fun _ => ?_) | (refine keepsWf_forA fun _ => ?_))
    | (with_reducible first | apply keepsWf_wr | apply keepsWf_updRing | apply keepsWf_abortRecord)
    | (with_reducible first | apply keepsWf_retireAll)
    | split | dsimp only)

theorem keepsWf_endCore (core : Nat) : KeepsWf (endCore core) := by
  unfold endCore
  repeat' (first
    | (with_reducible first | exact keepsWf_pure _ | (refine keepsWf_getThen fun s hs => ?_))
    | (with_reducible first | (refine keepsWf_bind ?_ fun _ => ?_) | (refine keepsWf_forA fun _ => ?_))
    | (with_reducible first | apply keepsWf_wr | apply keepsWf_updCore | apply keepsWf_endRing)
    | split | dsimp only)

theorem keepsWf_endJob (q x status core runMs : Nat) : KeepsWf (endJob q x status core runMs) := by
  unfold endJob
  repeat' (first
    | (with_reducible first | exact keepsWf_pure _ | (refine keepsWf_getThen fun s hs => ?_))
    | (with_reducible first | (refine keepsWf_bind ?_ fun _ => ?_) | (refine keepsWf_forA fun _ => ?_))
    | (with_reducible first | apply keepsWf_complete | apply keepsWf_endCore)
    | split | dsimp only)

theorem keepsWf_abortJob (core e : Nat) : KeepsWf (abortJob core e) := by
  unfold abortJob
  repeat' (first
    | (with_reducible first | exact keepsWf_pure _ | (refine keepsWf_getThen fun s hs => ?_))
    | (with_reducible first | (refine keepsWf_bind ?_ fun _ => ?_) | apply keepsWf_wr | apply keepsWf_freeVal)
    | (with_reducible first | apply keepsWf_endJob)
    | split | dsimp only)

theorem keepsWf_endJobsOn (core status : Nat) : KeepsWf (endJobsOn core status) := by
  unfold endJobsOn
  repeat' (first
    | (with_reducible first | exact keepsWf_pure _ | (refine keepsWf_getThen fun s hs => ?_))
    | (with_reducible first | (refine keepsWf_bind ?_ fun _ => ?_) | apply keepsWf_freeVal | apply keepsWf_endJob)
    | split | dsimp only)

theorem wf_execAbortRecord (writer core ring index : Nat) {s t : State} (h : s.m.wf = true)
    (hs : execAbortRecord core ring index s writer = .next t) : t.m.wf = true := by
  unfold execAbortRecord at hs
  refine wf_of_doing ?_ h hs
  repeat' (first
    | (with_reducible first | exact keepsWf_pure _ | apply keepsWf_coreAction | apply keepsWf_abortRecord)
    | (with_reducible first | apply keepsWf_abortRecords)
    | split | dsimp only)

theorem wf_execAbortRecordAndLater (writer core ring index : Nat) {s t : State} (h : s.m.wf = true)
    (hs : execAbortRecordAndLater core ring index s writer = .next t) : t.m.wf = true := by
  unfold execAbortRecordAndLater at hs
  refine wf_of_doing ?_ h hs
  repeat' (first
    | (with_reducible first | exact keepsWf_pure _ | apply keepsWf_coreAction | apply keepsWf_abortRecords)
    | split | dsimp only)

theorem wf_execAbortJob (writer core ring : Nat) {s t : State} (h : s.m.wf = true)
    (hs : execAbortJob core ring s writer = .next t) : t.m.wf = true := by
  unfold execAbortJob at hs
  refine wf_of_doing ?_ h hs
  repeat' (first
    | (with_reducible first | exact keepsWf_pure _ | apply keepsWf_coreAction | apply keepsWf_abortJob)
    | split | dsimp only)

theorem wf_execControlCoreFault (core addr size : Nat) {s t : State} (h : s.m.wf = true)
    (hs : execControlCoreFault core addr size s = .next t) : t.m.wf = true := by
  unfold execControlCoreFault at hs
  refine wf_of_doing ?_ h hs
  repeat' (first
    | (with_reducible first | assumption | exact keepsWf_pure _ | (refine keepsWf_getThen fun s hs => ?_))
    | (with_reducible first | (refine keepsWf_bind ?_ fun _ => ?_) | refine keepsWf_whenA ?_ | apply keepsWf_readBytes)
    | (with_reducible first | apply keepsWf_endJobsOn | refine keepsWf_set ?_ | refine keepsWf_ite ?_ ?_)
    | split | dsimp only | exact (M.wf_congr ⟨rfl, rfl, rfl, rfl, rfl, rfl, rfl, rfl, rfl, rfl, rfl⟩).trans hs)

end Sys2Proof.Machine
end

