-- ==== Sys2Proof/Laws/WfHost.lean ====
section
/-! SUPPORT. Every operation of Machine/Host.lean keeps the canonical form. -/

namespace Sys2Proof.Machine

theorem keepsWf_queueAction (writer q : Nat) (i : Instr) (a : Act Unit) (hw0 : KeepsWf a) : KeepsWf (queueAction writer q i a) := by
  unfold queueAction
  repeat' (first
    | (with_reducible first | exact keepsWf_pure _ | refine keepsWf_whenA ?_ | apply hw0 | apply keepsWf_regAction)
    | (with_reducible first | intro _)
    | split | dsimp only)

theorem keepsWf_doorbell (q w : Nat) : KeepsWf (doorbell q w) := by
  unfold doorbell
  repeat' (first
    | (with_reducible first | exact keepsWf_pure _ | (refine keepsWf_getThen fun s hs => ?_))
    | (with_reducible first | (refine keepsWf_bind ?_ fun _ => ?_) | refine keepsWf_whenA ?_ | apply keepsWf_wr)
    | split | dsimp only)

theorem keepsWf_fetchEntry (q : Nat) (bytes : List Byte) (poison : Bool) : KeepsWf (fetchEntry q bytes poison) := by
  unfold fetchEntry
  repeat' (first
    | (with_reducible first | exact keepsWf_pure _ | (refine keepsWf_getThen fun s hs => ?_))
    | (with_reducible first | (refine keepsWf_bind ?_ fun _ => ?_) | refine keepsWf_whenA ?_ | apply keepsWf_wr)
    | (with_reducible first | apply keepsWf_emit | apply keepsWf_updQueue | apply keepsWf_complete)
    | (with_reducible first | refine keepsWf_ite ?_ ?_)
    | split | dsimp only)

theorem keepsWf_prepareCore (q : Nat) (j : Job) (core k : Nat) : KeepsWf (prepareCore q j core k) := by
  unfold prepareCore
  repeat' (first
    | (with_reducible first | assumption | exact keepsWf_pure _ | (refine keepsWf_getThen fun s hs => ?_))
    | (with_reducible first | (refine keepsWf_bind ?_ fun _ => ?_) | (refine keepsWf_forA fun _ => ?_))
    | (with_reducible first | apply keepsWf_wr | apply keepsWf_updCore | apply keepsWf_updRing | refine keepsWf_set ?_)
    | split | dsimp only | exact (M.wf_congr ⟨rfl, rfl, rfl, rfl, rfl, rfl, rfl, rfl, rfl, rfl, rfl⟩).trans hs)

theorem keepsWf_admitJob (q x waitUs : Nat) : KeepsWf (admitJob q x waitUs) := by
  unfold admitJob
  repeat' (first
    | (with_reducible first | exact keepsWf_pure _ | (refine keepsWf_getThen fun s hs => ?_))
    | (with_reducible first | (refine keepsWf_bind ?_ fun _ => ?_) | (refine keepsWf_forA fun _ => ?_))
    | (with_reducible first | apply keepsWf_readBytes | apply keepsWf_loadJobRecord | apply keepsWf_updQueue)
    | (with_reducible first | apply keepsWf_complete | apply keepsWf_prepareCore | refine keepsWf_ite ?_ ?_)
    | split | dsimp only)

theorem keepsWf_abortEntry (q x : Nat) : KeepsWf (abortEntry q x) := by
  unfold abortEntry
  repeat' (first
    | (with_reducible first | exact keepsWf_pure _ | (refine keepsWf_getThen fun s hs => ?_))
    | (with_reducible first | (refine keepsWf_bind ?_ fun _ => ?_) | apply keepsWf_wr | apply keepsWf_freeVal)
    | (with_reducible first | apply keepsWf_updQueue | apply keepsWf_complete | apply keepsWf_endJob)
    | (with_reducible first | refine keepsWf_ite ?_ ?_)
    | split | dsimp only)

theorem keepsWf_queueReset (q value : Nat) : KeepsWf (queueReset q value) := by
  unfold queueReset
  repeat' (first
    | (with_reducible first | exact keepsWf_pure _ | (refine keepsWf_getThen fun s hs => ?_))
    | (with_reducible first | (refine keepsWf_bind ?_ fun _ => ?_) | refine keepsWf_whenA ?_ | apply keepsWf_wr)
    | (with_reducible first | apply keepsWf_updQueue)
    | split | dsimp only)

theorem keepsWf_functionReset : KeepsWf (functionReset) := by
  unfold functionReset
  repeat' (first
    | (with_reducible first | exact hs | exact keepsWf_pure _ | (refine keepsWf_getThen fun s hs => ?_))
    | (with_reducible first | (refine keepsWf_bind ?_ fun _ => ?_) | refine keepsWf_whenA ?_)
    | (with_reducible first | (refine keepsWf_forA fun _ => ?_) | apply keepsWf_wr | apply keepsWf_updQueue)
    | (with_reducible first | apply keepsWf_endCore | (refine keepsWf_modify fun s hs => ?_))
    | split | dsimp only | exact (M.wf_congr ⟨rfl, rfl, rfl, rfl, rfl, rfl, rfl, rfl, rfl, rfl, rfl⟩).trans hs)

theorem keepsWf_sendHeld (cxl : Bool) (o : Output) : KeepsWf (sendHeld cxl o) := by
  unfold sendHeld
  repeat' (first
    | (with_reducible first | exact keepsWf_pure _ | (refine keepsWf_forA fun _ => ?_) | apply keepsWf_emit)
    | split | dsimp only)

theorem keepsWf_writeLate (q : Nat) : KeepsWf (writeLate q) := by
  unfold writeLate
  repeat' (first
    | (with_reducible first | exact keepsWf_pure _ | (refine keepsWf_getThen fun s hs => ?_))
    | (with_reducible first | (refine keepsWf_bind ?_ fun _ => ?_) | refine keepsWf_whenA ?_ | apply keepsWf_updQueue)
    | (with_reducible first | apply keepsWf_advanceDone)
    | split | dsimp only)

theorem keepsWf_doeWrite (d v : Nat) : KeepsWf (doeWrite d v) := by
  unfold doeWrite
  repeat' (first
    | (with_reducible first | exact hs | exact keepsWf_pure _ | (refine keepsWf_modify fun s hs => ?_))
    | (with_reducible first | refine keepsWf_ite ?_ ?_)
    | split | dsimp only | exact (M.wf_congr ⟨rfl, rfl, rfl, rfl, rfl, rfl, rfl, rfl, rfl, rfl, rfl⟩).trans hs)

theorem keepsWf_compWrite (o v : Nat) : KeepsWf (compWrite o v) := by
  unfold compWrite
  repeat' (first
    | (with_reducible first | exact hs | exact keepsWf_pure _ | (refine keepsWf_bind ?_ fun _ => ?_))
    | (with_reducible first | refine keepsWf_whenA ?_ | apply keepsWf_updHdm | (refine keepsWf_modify fun s hs => ?_))
    | (with_reducible first | refine keepsWf_ite ?_ ?_)
    | split | dsimp only | exact (M.wf_congr ⟨rfl, rfl, rfl, rfl, rfl, rfl, rfl, rfl, rfl, rfl, rfl⟩).trans hs)

theorem keepsWf_mailbox (i : Instr) (f : Act (Nat × List Byte)) (hw0 : KeepsWf f) : KeepsWf (mailbox i f) := by
  unfold mailbox
  repeat' (first
    | (with_reducible first | exact keepsWf_pure _ | (refine keepsWf_getThen fun s hs => ?_))
    | (with_reducible first | (refine keepsWf_bind ?_ fun _ => ?_) | refine keepsWf_whenA ?_ | apply hw0)
    | (with_reducible first | apply keepsWf_hostEmit | apply keepsWf_unlessHeld | intro _)
    | split | dsimp only)

theorem keepsWf_invalidInput : KeepsWf (invalidInput) := by
  unfold invalidInput
  repeat' (first
    | (with_reducible first | exact keepsWf_pure _)
    | split | dsimp only)

theorem keepsWf_freeBytes (n : Nat) : KeepsWf (freeBytes n) := by
  unfold freeBytes
  repeat' (first
    | (with_reducible first | exact keepsWf_pure _ | (refine keepsWf_bind ?_ fun _ => ?_))
    | (with_reducible first | (refine keepsWf_mapA fun _ => ?_) | apply keepsWf_freeVal)
    | split | dsimp only)

theorem wf_execHstQDoorbell (writer q w : Nat) {s t : State} (h : s.m.wf = true)
    (hs : execHstQDoorbell q w s writer = .next t) : t.m.wf = true := by
  unfold execHstQDoorbell at hs
  refine wf_of_doing ?_ h hs
  repeat' (first
    | (with_reducible first | exact keepsWf_pure _ | apply keepsWf_queueAction | apply keepsWf_doorbell)
    | split | dsimp only)

theorem wf_execJobEntryFetch (q : Nat) (entry : List Byte) (poison : Bool) {s t : State} (h : s.m.wf = true)
    (hs : execJobEntryFetch q entry poison s = .next t) : t.m.wf = true := by
  unfold execJobEntryFetch at hs
  refine wf_of_doing ?_ h hs
  repeat' (first
    | (with_reducible first | exact keepsWf_pure _ | apply keepsWf_fetchEntry)
    | split | dsimp only)

theorem wf_execMarkerComplete (q x : Nat) {s t : State} (h : s.m.wf = true)
    (hs : execMarkerComplete q x s = .next t) : t.m.wf = true := by
  unfold execMarkerComplete at hs
  refine wf_of_doing ?_ h hs
  repeat' (first
    | (with_reducible first | exact keepsWf_pure _ | (refine keepsWf_getThen fun s hs => ?_))
    | (with_reducible first | (refine keepsWf_bind ?_ fun _ => ?_) | refine keepsWf_whenA ?_ | apply keepsWf_complete)
    | split | dsimp only)

theorem wf_execJobAdmission (q x waitUs : Nat) {s t : State} (h : s.m.wf = true)
    (hs : execJobAdmission q x waitUs s = .next t) : t.m.wf = true := by
  unfold execJobAdmission at hs
  refine wf_of_doing ?_ h hs
  repeat' (first
    | (with_reducible first | exact keepsWf_pure _ | apply keepsWf_admitJob)
    | split | dsimp only)

theorem wf_execAdmissionTimeout (q x waitMs : Nat) {s t : State} (h : s.m.wf = true)
    (hs : execAdmissionTimeout q x s waitMs = .next t) : t.m.wf = true := by
  unfold execAdmissionTimeout at hs
  refine wf_of_doing ?_ h hs
  repeat' (first
    | (with_reducible first | exact keepsWf_pure _ | (refine keepsWf_getThen fun s hs => ?_))
    | (with_reducible first | (refine keepsWf_bind ?_ fun _ => ?_) | refine keepsWf_whenA ?_ | apply keepsWf_complete)
    | split | dsimp only)

theorem wf_execEcallExit (core a0 a1 : Nat) {s t : State} (h : s.m.wf = true)
    (hs : execEcallExit core a0 a1 s = .next t) : t.m.wf = true := by
  unfold execEcallExit at hs
  refine wf_of_doing ?_ h hs
  repeat' (first
    | (with_reducible first | exact keepsWf_pure _ | (refine keepsWf_getThen fun s hs => ?_))
    | (with_reducible first | (refine keepsWf_bind ?_ fun _ => ?_) | refine keepsWf_whenA ?_ | apply keepsWf_updCore)
    | (with_reducible first | apply keepsWf_posCount)
    | split | dsimp only)

theorem wf_execJobComplete (q x runMs : Nat) {s t : State} (h : s.m.wf = true)
    (hs : execJobComplete q x runMs s = .next t) : t.m.wf = true := by
  unfold execJobComplete at hs
  refine wf_of_doing ?_ h hs
  repeat' (first
    | (with_reducible first | exact keepsWf_pure _ | (refine keepsWf_getThen fun s hs => ?_))
    | (with_reducible first | (refine keepsWf_bind ?_ fun _ => ?_) | refine keepsWf_whenA ?_)
    | (with_reducible first | (refine keepsWf_forA fun _ => ?_) | apply keepsWf_updCore | apply keepsWf_complete)
    | split | dsimp only)

theorem wf_execJobRunTimeout (q x runMs : Nat) {s t : State} (h : s.m.wf = true)
    (hs : execJobRunTimeout q x runMs s = .next t) : t.m.wf = true := by
  unfold execJobRunTimeout at hs
  refine wf_of_doing ?_ h hs
  repeat' (first
    | (with_reducible first | exact keepsWf_pure _ | (refine keepsWf_getThen fun s hs => ?_))
    | (with_reducible first | (refine keepsWf_bind ?_ fun _ => ?_) | refine keepsWf_whenA ?_ | apply keepsWf_endJob)
    | split | dsimp only)

theorem wf_execHstQAbort (writer q index : Nat) {s t : State} (h : s.m.wf = true)
    (hs : execHstQAbort q index s writer = .next t) : t.m.wf = true := by
  unfold execHstQAbort at hs
  refine wf_of_doing ?_ h hs
  repeat' (first
    | (with_reducible first | exact keepsWf_pure _ | apply keepsWf_queueAction | apply keepsWf_abortEntry)
    | split | dsimp only)

theorem wf_execHstQReset (writer q value : Nat) {s t : State} (h : s.m.wf = true)
    (hs : execHstQReset q value s writer = .next t) : t.m.wf = true := by
  unfold execHstQReset at hs
  refine wf_of_doing ?_ h hs
  repeat' (first
    | (with_reducible first | exact keepsWf_pure _ | apply keepsWf_queueAction | apply keepsWf_queueReset)
    | split | dsimp only)

theorem wf_execInterruptHoldoffExpiry (q : Nat) {s t : State} (h : s.m.wf = true)
    (hs : execInterruptHoldoffExpiry q s = .next t) : t.m.wf = true := by
  unfold execInterruptHoldoffExpiry at hs
  refine wf_of_doing ?_ h hs
  repeat' (first
    | (with_reducible first | exact keepsWf_pure _ | (refine keepsWf_getThen fun s hs => ?_))
    | (with_reducible first | (refine keepsWf_bind ?_ fun _ => ?_) | refine keepsWf_whenA ?_ | apply keepsWf_hostEmit)
    | (with_reducible first | apply keepsWf_updQueue | refine keepsWf_ite ?_ ?_)
    | split | dsimp only)

theorem wf_execHotReset {s t : State} (h : s.m.wf = true)
    (hs : execHotReset s = .next t) : t.m.wf = true := by
  unfold execHotReset at hs
  refine wf_of_doing ?_ h hs
  repeat' (first
    | (with_reducible first | exact keepsWf_pure _ | (apply keepsWf_functionReset))
    | split | dsimp only)

theorem wf_execFunctionLevelReset {s t : State} (h : s.m.wf = true)
    (hs : execFunctionLevelReset s = .next t) : t.m.wf = true := by
  unfold execFunctionLevelReset at hs
  refine wf_of_doing ?_ h hs
  repeat' (first
    | (with_reducible first | exact keepsWf_pure _ | (apply keepsWf_functionReset))
    | split | dsimp only)

theorem wf_execCxlLinkDown {s t : State} (h : s.m.wf = true)
    (hs : execCxlLinkDown s = .next t) : t.m.wf = true := by
  unfold execCxlLinkDown at hs
  refine wf_of_doing ?_ h hs
  repeat' (first
    | (with_reducible first | exact keepsWf_pure _ | apply keepsWf_setField)
    | split | dsimp only)

theorem wf_execCxlLinkUp (cxl : Bool) (lanes speed : Nat) {s t : State} (h : s.m.wf = true)
    (hs : execCxlLinkUp cxl lanes speed s = .next t) : t.m.wf = true := by
  unfold execCxlLinkUp at hs
  refine wf_of_doing ?_ h hs
  repeat' (first
    | (with_reducible first | exact hs | exact keepsWf_pure _ | (refine keepsWf_getThen fun s hs => ?_))
    | (with_reducible first | (refine keepsWf_bind ?_ fun _ => ?_) | refine keepsWf_whenA ?_)
    | (with_reducible first | (refine keepsWf_forA fun _ => ?_) | apply keepsWf_wr | apply keepsWf_setField)
    | (with_reducible first | apply keepsWf_sendHeld | apply keepsWf_writeLate | (refine keepsWf_modify fun s hs => ?_))
    | (with_reducible first | refine keepsWf_ite ?_ ?_)
    | split | dsimp only | exact (M.wf_congr ⟨rfl, rfl, rfl, rfl, rfl, rfl, rfl, rfl, rfl, rfl, rfl⟩).trans hs)

theorem wf_execConfigRequest (isWrite : Bool) (offset value : Nat) {s t : State} (h : s.m.wf = true)
    (hs : execConfigRequest isWrite offset value s = .next t) : t.m.wf = true := by
  unfold execConfigRequest at hs
  refine wf_of_doing ?_ h hs
  repeat' (first
    | (with_reducible first | exact hs | exact keepsWf_pure _ | (refine keepsWf_getThen fun s hs => ?_))
    | (with_reducible first | (refine keepsWf_bind ?_ fun _ => ?_) | refine keepsWf_whenA ?_ | apply keepsWf_emit)
    | (with_reducible first | apply keepsWf_doeWrite | (refine keepsWf_modify fun s hs => ?_) | refine keepsWf_ite ?_ ?_)
    | split | dsimp only | exact (M.wf_congr ⟨rfl, rfl, rfl, rfl, rfl, rfl, rfl, rfl, rfl, rfl, rfl⟩).trans hs)

theorem wf_execIdeIntegrityFailure {s t : State} (h : s.m.wf = true)
    (hs : execIdeIntegrityFailure s = .next t) : t.m.wf = true := by
  unfold execIdeIntegrityFailure at hs
  refine wf_of_doing ?_ h hs
  repeat' (first
    | (with_reducible first | exact hs | exact keepsWf_pure _ | (refine keepsWf_bind ?_ fun _ => ?_))
    | (with_reducible first | apply keepsWf_setField | (refine keepsWf_modify fun s hs => ?_))
    | split | dsimp only | exact (M.wf_congr ⟨rfl, rfl, rfl, rfl, rfl, rfl, rfl, rfl, rfl, rfl, rfl⟩).trans hs)

theorem wf_execGetEventRecords (input : List Byte) {s t : State} (h : s.m.wf = true)
    (hs : execGetEventRecords input s = .next t) : t.m.wf = true := by
  unfold execGetEventRecords at hs
  refine wf_of_doing ?_ h hs
  repeat' (first
    | (with_reducible first | exact keepsWf_pure _ | (refine keepsWf_getThen fun s hs => ?_))
    | (with_reducible first | (refine keepsWf_bind ?_ fun _ => ?_) | apply keepsWf_mailbox | apply keepsWf_invalidInput)
    | (with_reducible first | apply keepsWf_freeBytes | refine keepsWf_ite ?_ ?_)
    | split | dsimp only)

theorem wf_execClearEventRecords (input : List Byte) {s t : State} (h : s.m.wf = true)
    (hs : execClearEventRecords input s = .next t) : t.m.wf = true := by
  unfold execClearEventRecords at hs
  refine wf_of_doing ?_ h hs
  repeat' (first
    | (with_reducible first | exact hs | exact keepsWf_pure _ | (refine keepsWf_getThen fun s hs => ?_))
    | (with_reducible first | (refine keepsWf_bind ?_ fun _ => ?_) | apply keepsWf_mailbox | apply keepsWf_invalidInput)
    | (with_reducible first | (refine keepsWf_modify fun s hs => ?_) | refine keepsWf_ite ?_ ?_)
    | split | dsimp only | exact (M.wf_congr ⟨rfl, rfl, rfl, rfl, rfl, rfl, rfl, rfl, rfl, rfl, rfl⟩).trans hs)

theorem wf_execGetEventInterruptPolicy (input : List Byte) {s t : State} (h : s.m.wf = true)
    (hs : execGetEventInterruptPolicy input s = .next t) : t.m.wf = true := by
  unfold execGetEventInterruptPolicy at hs
  refine wf_of_doing ?_ h hs
  repeat' (first
    | (with_reducible first | exact keepsWf_pure _ | (refine keepsWf_getThen fun s hs => ?_))
    | (with_reducible first | (refine keepsWf_bind ?_ fun _ => ?_) | apply keepsWf_mailbox | apply keepsWf_invalidInput)
    | (with_reducible first | refine keepsWf_ite ?_ ?_)
    | split | dsimp only)

theorem wf_execSetEventInterruptPolicy (input : List Byte) {s t : State} (h : s.m.wf = true)
    (hs : execSetEventInterruptPolicy input s = .next t) : t.m.wf = true := by
  unfold execSetEventInterruptPolicy at hs
  refine wf_of_doing ?_ h hs
  repeat' (first
    | (with_reducible first | exact hs | exact keepsWf_pure _ | (refine keepsWf_bind ?_ fun _ => ?_))
    | (with_reducible first | apply keepsWf_mailbox | apply keepsWf_invalidInput)
    | (with_reducible first | (refine keepsWf_modify fun s hs => ?_) | refine keepsWf_ite ?_ ?_)
    | split | dsimp only | exact (M.wf_congr ⟨rfl, rfl, rfl, rfl, rfl, rfl, rfl, rfl, rfl, rfl, rfl⟩).trans hs)

theorem wf_execGetFwInfo (input : List Byte) {s t : State} (h : s.m.wf = true)
    (hs : execGetFwInfo input s = .next t) : t.m.wf = true := by
  unfold execGetFwInfo at hs
  refine wf_of_doing ?_ h hs
  repeat' (first
    | (with_reducible first | exact keepsWf_pure _ | (refine keepsWf_bind ?_ fun _ => ?_) | apply keepsWf_mailbox)
    | (with_reducible first | apply keepsWf_invalidInput | apply keepsWf_freeBytes | refine keepsWf_ite ?_ ?_)
    | split | dsimp only)

theorem wf_execGetSupportedLogs (input : List Byte) {s t : State} (h : s.m.wf = true)
    (hs : execGetSupportedLogs input s = .next t) : t.m.wf = true := by
  unfold execGetSupportedLogs at hs
  refine wf_of_doing ?_ h hs
  repeat' (first
    | (with_reducible first | exact keepsWf_pure _ | (refine keepsWf_bind ?_ fun _ => ?_) | apply keepsWf_mailbox)
    | (with_reducible first | apply keepsWf_invalidInput | apply keepsWf_freeBytes | refine keepsWf_ite ?_ ?_)
    | split | dsimp only)

theorem wf_execGetLog (input : List Byte) {s t : State} (h : s.m.wf = true)
    (hs : execGetLog input s = .next t) : t.m.wf = true := by
  unfold execGetLog at hs
  refine wf_of_doing ?_ h hs
  repeat' (first
    | (with_reducible first | exact keepsWf_pure _ | (refine keepsWf_bind ?_ fun _ => ?_) | apply keepsWf_mailbox)
    | (with_reducible first | apply keepsWf_invalidInput | apply keepsWf_freeBytes | refine keepsWf_ite ?_ ?_)
    | split | dsimp only)

theorem wf_execGetReady (input : List Byte) {s t : State} (h : s.m.wf = true)
    (hs : execGetReady input s = .next t) : t.m.wf = true := by
  unfold execGetReady at hs
  refine wf_of_doing ?_ h hs
  repeat' (first
    | (with_reducible first | exact keepsWf_pure _ | (refine keepsWf_getThen fun s hs => ?_))
    | (with_reducible first | (refine keepsWf_bind ?_ fun _ => ?_) | apply keepsWf_mailbox | apply keepsWf_invalidInput)
    | (with_reducible first | refine keepsWf_ite ?_ ?_)
    | split | dsimp only)

theorem wf_execGetSettings (input : List Byte) {s t : State} (h : s.m.wf = true)
    (hs : execGetSettings input s = .next t) : t.m.wf = true := by
  unfold execGetSettings at hs
  refine wf_of_doing ?_ h hs
  repeat' (first
    | (with_reducible first | exact keepsWf_pure _ | (refine keepsWf_getThen fun s hs => ?_))
    | (with_reducible first | (refine keepsWf_bind ?_ fun _ => ?_) | apply keepsWf_mailbox | apply keepsWf_invalidInput)
    | (with_reducible first | refine keepsWf_ite ?_ ?_)
    | split | dsimp only)

theorem wf_execGetHealth (input : List Byte) {s t : State} (h : s.m.wf = true)
    (hs : execGetHealth input s = .next t) : t.m.wf = true := by
  unfold execGetHealth at hs
  refine wf_of_doing ?_ h hs
  repeat' (first
    | (with_reducible first | exact keepsWf_pure _ | (refine keepsWf_getThen fun s hs => ?_))
    | (with_reducible first | (refine keepsWf_bind ?_ fun _ => ?_) | apply keepsWf_mailbox | apply keepsWf_invalidInput)
    | (with_reducible first | refine keepsWf_ite ?_ ?_)
    | split | dsimp only)

theorem wf_execMailboxUnsupported (opcode : Nat) {s t : State} (h : s.m.wf = true)
    (hs : execMailboxUnsupported opcode s = .next t) : t.m.wf = true := by
  unfold execMailboxUnsupported at hs
  refine wf_of_doing ?_ h hs
  repeat' (first
    | (with_reducible first | exact keepsWf_pure _ | refine keepsWf_whenA ?_ | apply keepsWf_mailbox)
    | split | dsimp only)

end Sys2Proof.Machine
end

