-- ==== Sys2Proof/Laws/WfFlash.lean ====
section
/-! SUPPORT. Every operation of Machine/Flash.lean keeps the canonical form. -/

namespace Sys2Proof.Machine

theorem keepsWf_writeFlash (a : Nat) (data : List Byte) : KeepsWf (writeFlash a data) := by
  unfold writeFlash
  repeat' (first
    | (with_reducible first | exact hs | exact keepsWf_pure _ | (refine keepsWf_modify fun s hs => ?_))
    | split | dsimp only | exact (M.wf_congr ⟨rfl, rfl, rfl, rfl, rfl, rfl, rfl, rfl, rfl, rfl, rfl⟩).trans hs)

theorem keepsWf_eraseFlash (a n : Nat) : KeepsWf (eraseFlash a n) := by
  unfold eraseFlash
  repeat' (first
    | (with_reducible first | exact hs | exact keepsWf_pure _ | (refine keepsWf_modify fun s hs => ?_))
    | split | dsimp only | exact (M.wf_congr ⟨rfl, rfl, rfl, rfl, rfl, rfl, rfl, rfl, rfl, rfl, rfl⟩).trans hs)

theorem keepsWf_writeHealth (copy : Nat) (v0 : List (Nat × List Byte)) (v1 : Nat) (v2 : Nat) : KeepsWf (writeHealth copy v0 v1 v2) := by
  induction v0 generalizing v1 v2 with
  | nil => exact keepsWf_pure _
  | cons x v0 ih =>
  unfold writeHealth
  repeat' (first
    | (with_reducible first | exact keepsWf_pure _ | (refine keepsWf_bind ?_ fun _ => ?_) | apply ih)
    | (with_reducible first | apply keepsWf_writeFlash | intro _)
    | split | dsimp only)

theorem keepsWf_healthAppend (kind : Nat) (payload : List Byte) : KeepsWf (healthAppend kind payload) := by
  unfold healthAppend
  repeat' (first
    | (with_reducible first | exact keepsWf_pure _ | (refine keepsWf_getThen fun s hs => ?_))
    | (with_reducible first | (refine keepsWf_bind ?_ fun _ => ?_) | apply keepsWf_eraseFlash)
    | (with_reducible first | apply keepsWf_writeHealth | (refine M.wf_foldl _ (fun s _ hs => ?_) _ ?_))
    | (with_reducible first | refine keepsWf_ite ?_ ?_)
    | split | dsimp only)

theorem wf_execHealthRecordAppend (kind : Nat) (payload : List Byte) {s t : State} (h : s.m.wf = true)
    (hs : execHealthRecordAppend kind payload s = .next t) : t.m.wf = true := by
  unfold execHealthRecordAppend at hs
  refine wf_of_doing ?_ h hs
  repeat' (first
    | (with_reducible first | exact keepsWf_pure _ | apply keepsWf_healthAppend)
    | split | dsimp only)

end Sys2Proof.Machine
end

