-- ==== Sys2Proof/Laws/WfImage.lean ====
section
/-! SUPPORT. Every operation of Machine/Image.lean keeps the canonical form. -/

namespace Sys2Proof.Machine

theorem keepsWf_checkSlot (slot : Nat) (readErr : Bool) : KeepsWf (checkSlot slot readErr) := by
  unfold checkSlot
  repeat' (first
    | (with_reducible first | exact keepsWf_pure _ | (refine keepsWf_getThen fun s hs => ?_))
    | (with_reducible first | (refine keepsWf_bind ?_ fun _ => ?_) | apply keepsWf_freeVal | refine keepsWf_ite ?_ ?_)
    | split | dsimp only)

theorem keepsWf_applySettings (v0 : List Setting) : KeepsWf (applySettings v0) := by
  induction v0 with
  | nil => exact keepsWf_pure _
  | cons x v0 ih =>
  unfold applySettings
  repeat' (first
    | (with_reducible first | exact keepsWf_pure _ | (refine keepsWf_bind ?_ fun _ => ?_) | apply ih | apply keepsWf_wr)
    | (with_reducible first | refine keepsWf_ite ?_ ?_ | intro _)
    | split | dsimp only)

theorem keepsWf_applyImage (slot : Nat) : KeepsWf (applyImage slot) := by
  unfold applyImage
  repeat' (first
    | (with_reducible first | exact hs | exact keepsWf_pure _ | (refine keepsWf_getThen fun s hs => ?_))
    | (with_reducible first | (refine keepsWf_bind ?_ fun _ => ?_) | (refine keepsWf_forA fun _ => ?_))
    | (with_reducible first | apply keepsWf_wr | apply keepsWf_setField | apply keepsWf_applySettings)
    | (with_reducible first | (refine keepsWf_modify fun s hs => ?_))
    | split | dsimp only | exact (M.wf_congr ⟨rfl, rfl, rfl, rfl, rfl, rfl, rfl, rfl, rfl, rfl, rfl⟩).trans hs)

end Sys2Proof.Machine
end

