-- ==== Sys2Proof/Laws/WfSecurity.lean ====
section
/-! SUPPORT. Every operation of Machine/Security.lean keeps the canonical form. -/

namespace Sys2Proof.Machine

theorem keepsWf_clearSecrets : KeepsWf (clearSecrets) := by
  unfold clearSecrets
  repeat' (first
    | (with_reducible first | exact hs | exact keepsWf_pure _ | (refine keepsWf_bind ?_ fun _ => ?_))
    | (with_reducible first | (refine keepsWf_forA fun _ => ?_) | apply keepsWf_wr | apply keepsWf_setField)
    | (with_reducible first | (refine keepsWf_modify fun s hs => ?_))
    | split | dsimp only | exact (M.wf_congr ⟨rfl, rfl, rfl, rfl, rfl, rfl, rfl, rfl, rfl, rfl, rfl⟩).trans hs)

theorem keepsWf_securityError (code : Nat) : KeepsWf (securityError code) := by
  unfold securityError
  repeat' (first
    | (with_reducible first | exact keepsWf_pure _ | (refine keepsWf_bind ?_ fun _ => ?_) | apply keepsWf_wr)
    | (with_reducible first | apply keepsWf_clearSecrets)
    | split | dsimp only)

theorem keepsWf_zeroiseNow : KeepsWf (zeroiseNow) := by
  unfold zeroiseNow
  repeat' (first
    | (with_reducible first | exact keepsWf_pure _ | (refine keepsWf_getThen fun s hs => ?_))
    | (with_reducible first | (refine keepsWf_bind ?_ fun _ => ?_) | refine keepsWf_whenA ?_ | apply keepsWf_wr)
    | (with_reducible first | apply keepsWf_upd | apply keepsWf_clearSecrets)
    | split | dsimp only)

theorem keepsWf_selfTestFails (fn : Nat) : KeepsWf (selfTestFails fn) := by
  unfold selfTestFails
  repeat' (first
    | (with_reducible first | exact keepsWf_pure _ | (refine keepsWf_bind ?_ fun _ => ?_) | apply keepsWf_setField)
    | (with_reducible first | apply keepsWf_freeVal | apply keepsWf_logAdd)
    | split | dsimp only)

theorem keepsWf_drbg (n : Nat) : KeepsWf (drbg n) := by
  unfold drbg
  repeat' (first
    | (with_reducible first | exact hs | exact keepsWf_pure _ | (refine keepsWf_bind ?_ fun _ => ?_))
    | (with_reducible first | apply keepsWf_freeBytes | (refine keepsWf_modify fun s hs => ?_))
    | split | dsimp only | exact (M.wf_congr ⟨rfl, rfl, rfl, rfl, rfl, rfl, rfl, rfl, rfl, rfl, rfl⟩).trans hs)

theorem keepsWf_zeroiseCommand (input : List Byte) : KeepsWf (zeroiseCommand input) := by
  unfold zeroiseCommand
  repeat' (first
    | (with_reducible first | exact keepsWf_pure _ | (refine keepsWf_getThen fun s hs => ?_))
    | (with_reducible first | (refine keepsWf_bind ?_ fun _ => ?_) | apply keepsWf_freeVal | apply keepsWf_zeroiseNow)
    | (with_reducible first | refine keepsWf_ite ?_ ?_)
    | split | dsimp only)

theorem keepsWf_spdmError (viaMctp : Bool) (code : Nat) : KeepsWf (spdmError viaMctp code) := by
  unfold spdmError
  repeat' (first
    | (with_reducible first | exact keepsWf_pure _ | apply keepsWf_emit)
    | split | dsimp only)

theorem keepsWf_showSessions : KeepsWf (showSessions) := by
  unfold showSessions
  repeat' (first
    | (with_reducible first | exact keepsWf_pure _ | (refine keepsWf_getThen fun s hs => ?_))
    | (with_reducible first | (refine keepsWf_bind ?_ fun _ => ?_) | apply keepsWf_wr)
    | split | dsimp only)

theorem keepsWf_inSession (i : Nat) (ok : Session → Bool) (kind : Nat) (a : Act Unit) (hw0 : KeepsWf a) : KeepsWf (inSession i ok kind a) := by
  unfold inSession
  repeat' (first
    | (with_reducible first | exact keepsWf_pure _ | (refine keepsWf_getThen fun s hs => ?_))
    | (with_reducible first | (refine keepsWf_bind ?_ fun _ => ?_) | apply hw0 | apply keepsWf_emit)
    | (with_reducible first | apply keepsWf_spdmError | refine keepsWf_ite ?_ ?_ | intro _)
    | split | dsimp only)

theorem keepsWf_ideBack : KeepsWf (ideBack) := by
  unfold ideBack
  repeat' (first
    | (with_reducible first | exact hs | exact keepsWf_pure _ | (refine keepsWf_modify fun s hs => ?_))
    | (with_reducible first | refine keepsWf_ite ?_ ?_)
    | split | dsimp only | exact (M.wf_congr ⟨rfl, rfl, rfl, rfl, rfl, rfl, rfl, rfl, rfl, rfl, rfl⟩).trans hs)

theorem keepsWf_showSaks : KeepsWf (showSaks) := by
  unfold showSaks
  repeat' (first
    | (with_reducible first | exact keepsWf_pure _ | (refine keepsWf_getThen fun s hs => ?_))
    | (with_reducible first | (refine keepsWf_bind ?_ fun _ => ?_) | apply keepsWf_setField)
    | (with_reducible first | (refine M.wf_foldl _ (fun s _ hs => ?_) _ ?_) | refine keepsWf_ite ?_ ?_)
    | split | dsimp only)

theorem keepsWf_installSak (port : Nat) (sak : List Byte) : KeepsWf (installSak port sak) := by
  unfold installSak
  repeat' (first
    | (with_reducible first | exact hs | exact keepsWf_pure _ | (refine keepsWf_bind ?_ fun _ => ?_))
    | (with_reducible first | apply keepsWf_setField | apply keepsWf_showSaks | (refine keepsWf_modify fun s hs => ?_))
    | (with_reducible first | refine keepsWf_ite ?_ ?_)
    | split | dsimp only | exact (M.wf_congr ⟨rfl, rfl, rfl, rfl, rfl, rfl, rfl, rfl, rfl, rfl, rfl⟩).trans hs)

theorem keepsWf_sendMka (port : Nat) (sak : Bool) : KeepsWf (sendMka port sak) := by
  unfold sendMka
  repeat' (first
    | (with_reducible first | exact keepsWf_pure _ | (refine keepsWf_getThen fun s hs => ?_))
    | (with_reducible first | (refine keepsWf_bind ?_ fun _ => ?_) | refine keepsWf_whenA ?_ | apply keepsWf_emit)
    | (with_reducible first | apply keepsWf_portCount)
    | split | dsimp only)

theorem wf_execSecuritySelfTest (test : Nat) (pass : Bool) {s t : State} (h : s.m.wf = true)
    (hs : execSecuritySelfTest test pass s = .next t) : t.m.wf = true := by
  unfold execSecuritySelfTest at hs
  refine wf_of_doing ?_ h hs
  repeat' (first
    | (with_reducible first | exact hs | exact keepsWf_pure _ | (refine keepsWf_getThen fun s hs => ?_))
    | (with_reducible first | (refine keepsWf_bind ?_ fun _ => ?_) | refine keepsWf_whenA ?_ | apply keepsWf_setField)
    | (with_reducible first | apply keepsWf_securityError | apply keepsWf_selfTestFails)
    | (with_reducible first | (refine keepsWf_modify fun s hs => ?_) | refine keepsWf_ite ?_ ?_)
    | split | dsimp only | exact (M.wf_congr ⟨rfl, rfl, rfl, rfl, rfl, rfl, rfl, rfl, rfl, rfl, rfl⟩).trans hs)

theorem wf_execTrngSample (pass : Bool) {s t : State} (h : s.m.wf = true)
    (hs : execTrngSample pass s = .next t) : t.m.wf = true := by
  unfold execTrngSample at hs
  refine wf_of_doing ?_ h hs
  repeat' (first
    | (with_reducible first | exact hs | exact keepsWf_pure _ | (refine keepsWf_getThen fun s hs => ?_))
    | (with_reducible first | (refine keepsWf_bind ?_ fun _ => ?_) | refine keepsWf_whenA ?_ | apply keepsWf_upd)
    | (with_reducible first | apply keepsWf_securityError | (refine keepsWf_modify fun s hs => ?_))
    | (with_reducible first | refine keepsWf_ite ?_ ?_)
    | split | dsimp only | exact (M.wf_congr ⟨rfl, rfl, rfl, rfl, rfl, rfl, rfl, rfl, rfl, rfl, rfl⟩).trans hs)

theorem wf_execDrbgReseed {s t : State} (h : s.m.wf = true)
    (hs : execDrbgReseed s = .next t) : t.m.wf = true := by
  unfold execDrbgReseed at hs
  refine wf_of_doing ?_ h hs
  repeat' (first
    | (with_reducible first | exact hs | exact keepsWf_pure _ | (refine keepsWf_modify fun s hs => ?_))
    | (with_reducible first | refine keepsWf_ite ?_ ?_)
    | split | dsimp only | exact (M.wf_congr ⟨rfl, rfl, rfl, rfl, rfl, rfl, rfl, rfl, rfl, rfl, rfl⟩).trans hs)

theorem wf_execZeroise (viaMctp : Bool) (input : List Byte) {s t : State} (h : s.m.wf = true)
    (hs : execZeroise viaMctp input s = .next t) : t.m.wf = true := by
  unfold execZeroise at hs
  refine wf_of_doing ?_ h hs
  repeat' (first
    | (with_reducible first | exact keepsWf_pure _ | (refine keepsWf_bind ?_ fun _ => ?_) | apply keepsWf_emit)
    | (with_reducible first | apply keepsWf_mailbox | apply keepsWf_zeroiseCommand | refine keepsWf_ite ?_ ?_)
    | split | dsimp only)

theorem wf_execZeroisePinLow (heldUs : Nat) {s t : State} (h : s.m.wf = true)
    (hs : execZeroisePinLow heldUs s = .next t) : t.m.wf = true := by
  unfold execZeroisePinLow at hs
  refine wf_of_doing ?_ h hs
  repeat' (first
    | (with_reducible first | exact keepsWf_pure _ | (refine keepsWf_getThen fun s hs => ?_))
    | (with_reducible first | (refine keepsWf_bind ?_ fun _ => ?_) | refine keepsWf_whenA ?_ | apply keepsWf_zeroiseNow)
    | split | dsimp only)

theorem wf_execPermanentZeroisation (heldMs : Nat) {s t : State} (h : s.m.wf = true)
    (hs : execPermanentZeroisation heldMs s = .next t) : t.m.wf = true := by
  unfold execPermanentZeroisation at hs
  refine wf_of_doing ?_ h hs
  repeat' (first
    | (with_reducible first | exact hs | exact keepsWf_pure _ | (refine keepsWf_getThen fun s hs => ?_))
    | (with_reducible first | (refine keepsWf_bind ?_ fun _ => ?_) | refine keepsWf_whenA ?_ | apply keepsWf_setField)
    | (with_reducible first | apply keepsWf_zeroiseNow | (refine keepsWf_modify fun s hs => ?_))
    | split | dsimp only | exact (M.wf_congr ⟨rfl, rfl, rfl, rfl, rfl, rfl, rfl, rfl, rfl, rfl, rfl⟩).trans hs)

theorem wf_execRollbackAdvance {s t : State} (h : s.m.wf = true)
    (hs : execRollbackAdvance s = .next t) : t.m.wf = true := by
  unfold execRollbackAdvance at hs
  refine wf_of_doing ?_ h hs
  repeat' (first
    | (with_reducible first | exact hs | exact keepsWf_pure _ | (refine keepsWf_getThen fun s hs => ?_))
    | (with_reducible first | (refine keepsWf_bind ?_ fun _ => ?_) | refine keepsWf_whenA ?_ | apply keepsWf_setField)
    | (with_reducible first | (refine keepsWf_modify fun s hs => ?_))
    | split | dsimp only | exact (M.wf_congr ⟨rfl, rfl, rfl, rfl, rfl, rfl, rfl, rfl, rfl, rfl, rfl⟩).trans hs)

theorem wf_execGetCertificate (viaMctp : Bool) (slot : Nat) {s t : State} (h : s.m.wf = true)
    (hs : execGetCertificate viaMctp slot s = .next t) : t.m.wf = true := by
  unfold execGetCertificate at hs
  refine wf_of_doing ?_ h hs
  repeat' (first
    | (with_reducible first | exact keepsWf_pure _ | (refine keepsWf_getThen fun s hs => ?_))
    | (with_reducible first | (refine keepsWf_bind ?_ fun _ => ?_) | refine keepsWf_whenA ?_ | apply keepsWf_emit)
    | (with_reducible first | apply keepsWf_spdmError | refine keepsWf_ite ?_ ?_)
    | split | dsimp only)

theorem wf_execChallenge (viaMctp : Bool) (slot _nonce : Nat) {s t : State} (h : s.m.wf = true)
    (hs : execChallenge viaMctp slot _nonce s = .next t) : t.m.wf = true := by
  unfold execChallenge at hs
  refine wf_of_doing ?_ h hs
  repeat' (first
    | (with_reducible first | exact keepsWf_pure _ | (refine keepsWf_getThen fun s hs => ?_))
    | (with_reducible first | (refine keepsWf_bind ?_ fun _ => ?_) | refine keepsWf_whenA ?_ | apply keepsWf_emit)
    | (with_reducible first | apply keepsWf_freeBytes | apply keepsWf_drbg | apply keepsWf_spdmError)
    | (with_reducible first | refine keepsWf_ite ?_ ?_)
    | split | dsimp only)

theorem wf_execGetMeasurements (viaMctp : Bool) (index : Nat) {s t : State} (h : s.m.wf = true)
    (hs : execGetMeasurements viaMctp index s = .next t) : t.m.wf = true := by
  unfold execGetMeasurements at hs
  refine wf_of_doing ?_ h hs
  repeat' (first
    | (with_reducible first | exact keepsWf_pure _ | (refine keepsWf_getThen fun s hs => ?_))
    | (with_reducible first | (refine keepsWf_bind ?_ fun _ => ?_) | refine keepsWf_whenA ?_ | apply keepsWf_emit)
    | (with_reducible first | apply keepsWf_freeBytes | refine keepsWf_ite ?_ ?_)
    | split | dsimp only)

theorem wf_execKeyExchange (viaMctp : Bool) (rootHash : List Byte) {s t : State} (h : s.m.wf = true)
    (hs : execKeyExchange viaMctp rootHash s = .next t) : t.m.wf = true := by
  unfold execKeyExchange at hs
  refine wf_of_doing ?_ h hs
  repeat' (first
    | (with_reducible first | exact hs | exact keepsWf_pure _ | (refine keepsWf_getThen fun s hs => ?_))
    | (with_reducible first | (refine keepsWf_bind ?_ fun _ => ?_) | refine keepsWf_whenA ?_ | apply keepsWf_emit)
    | (with_reducible first | apply keepsWf_drbg | apply keepsWf_spdmError | apply keepsWf_showSessions)
    | (with_reducible first | (refine keepsWf_modify fun s hs => ?_) | refine keepsWf_ite ?_ ?_)
    | split | dsimp only | exact (M.wf_congr ⟨rfl, rfl, rfl, rfl, rfl, rfl, rfl, rfl, rfl, rfl, rfl⟩).trans hs)

theorem wf_execSessionEnd (session : Nat) {s t : State} (h : s.m.wf = true)
    (hs : execSessionEnd session s = .next t) : t.m.wf = true := by
  unfold execSessionEnd at hs
  refine wf_of_doing ?_ h hs
  repeat' (first
    | (with_reducible first | exact hs | exact keepsWf_pure _ | (refine keepsWf_bind ?_ fun _ => ?_))
    | (with_reducible first | apply keepsWf_showSessions | (refine keepsWf_modify fun s hs => ?_))
    | split | dsimp only | exact (M.wf_congr ⟨rfl, rfl, rfl, rfl, rfl, rfl, rfl, rfl, rfl, rfl, rfl⟩).trans hs)

theorem wf_execSignPq (session : Nat) {s t : State} (h : s.m.wf = true)
    (hs : execSignPq session s = .next t) : t.m.wf = true := by
  unfold execSignPq at hs
  refine wf_of_doing ?_ h hs
  repeat' (first
    | (with_reducible first | exact keepsWf_pure _ | (refine keepsWf_getThen fun s hs => ?_))
    | (with_reducible first | (refine keepsWf_bind ?_ fun _ => ?_) | apply keepsWf_emit | apply keepsWf_freeBytes)
    | split | dsimp only)

theorem wf_execKeyProg (session stream : Nat) (key : List Byte) {s t : State} (h : s.m.wf = true)
    (hs : execKeyProg session stream key s = .next t) : t.m.wf = true := by
  unfold execKeyProg at hs
  refine wf_of_doing ?_ h hs
  repeat' (first
    | (with_reducible first | exact hs | exact keepsWf_pure _ | apply keepsWf_inSession)
    | (with_reducible first | (refine keepsWf_modify fun s hs => ?_))
    | split | dsimp only | exact (M.wf_congr ⟨rfl, rfl, rfl, rfl, rfl, rfl, rfl, rfl, rfl, rfl, rfl⟩).trans hs)

theorem wf_execKSetGo (session stream : Nat) {s t : State} (h : s.m.wf = true)
    (hs : execKSetGo session stream s = .next t) : t.m.wf = true := by
  unfold execKSetGo at hs
  refine wf_of_doing ?_ h hs
  repeat' (first
    | (with_reducible first | exact hs | exact keepsWf_pure _ | (refine keepsWf_getThen fun s hs => ?_))
    | (with_reducible first | (refine keepsWf_bind ?_ fun _ => ?_) | apply keepsWf_setField | apply keepsWf_inSession)
    | (with_reducible first | apply keepsWf_ideBack | (refine keepsWf_modify fun s hs => ?_) | refine keepsWf_ite ?_ ?_)
    | split | dsimp only | exact (M.wf_congr ⟨rfl, rfl, rfl, rfl, rfl, rfl, rfl, rfl, rfl, rfl, rfl⟩).trans hs)

theorem wf_execKSetStop (session stream : Nat) {s t : State} (h : s.m.wf = true)
    (hs : execKSetStop session stream s = .next t) : t.m.wf = true := by
  unfold execKSetStop at hs
  refine wf_of_doing ?_ h hs
  repeat' (first
    | (with_reducible first | exact hs | exact keepsWf_pure _ | (refine keepsWf_bind ?_ fun _ => ?_))
    | (with_reducible first | apply keepsWf_setField | apply keepsWf_inSession | (refine keepsWf_modify fun s hs => ?_))
    | split | dsimp only | exact (M.wf_congr ⟨rfl, rfl, rfl, rfl, rfl, rfl, rfl, rfl, rfl, rfl, rfl⟩).trans hs)

theorem wf_execInstallCak (session port : Nat) (cak ckn : List Byte) {s t : State} (h : s.m.wf = true)
    (hs : execInstallCak session port cak ckn s = .next t) : t.m.wf = true := by
  unfold execInstallCak at hs
  refine wf_of_doing ?_ h hs
  repeat' (first
    | (with_reducible first | exact hs | exact keepsWf_pure _ | (refine keepsWf_getThen fun s hs => ?_))
    | (with_reducible first | (refine keepsWf_bind ?_ fun _ => ?_) | apply keepsWf_setField | apply keepsWf_inSession)
    | (with_reducible first | apply keepsWf_showSaks | apply keepsWf_sendMka | (refine keepsWf_modify fun s hs => ?_))
    | split | dsimp only | exact (M.wf_congr ⟨rfl, rfl, rfl, rfl, rfl, rfl, rfl, rfl, rfl, rfl, rfl⟩).trans hs)

theorem wf_execMkpduReceived (port : Nat) (icvOk : Bool) (peerPriority : Nat) (sak : List Byte) {s t : State} (h : s.m.wf = true)
    (hs : execMkpduReceived port icvOk peerPriority sak s = .next t) : t.m.wf = true := by
  unfold execMkpduReceived at hs
  refine wf_of_doing ?_ h hs
  repeat' (first
    | (with_reducible first | exact keepsWf_pure _ | (refine keepsWf_getThen fun s hs => ?_))
    | (with_reducible first | (refine keepsWf_bind ?_ fun _ => ?_) | refine keepsWf_whenA ?_ | apply keepsWf_freeVal)
    | (with_reducible first | apply keepsWf_drbg | apply keepsWf_installSak | apply keepsWf_sendMka)
    | (with_reducible first | refine keepsWf_ite ?_ ?_)
    | split | dsimp only)

end Sys2Proof.Machine
end

