-- ==== Sys2Proof/Laws/WfBoot.lean ====
section
/-! SUPPORT. Every operation of Machine/Boot.lean keeps the canonical form. -/

namespace Sys2Proof.Machine

theorem M.wf_atReset (s : M) : s.atReset.wf = true := rfl

theorem keepsWf_writeMap (per : Nat) (code : Nat → Nat) (p : Placing) : KeepsWf (writeMap per code p) := by
  unfold writeMap
  repeat' (first
    | (with_reducible first | exact keepsWf_pure _ | (refine keepsWf_bind ?_ fun _ => ?_))
    | (with_reducible first | (refine keepsWf_forA fun _ => ?_) | apply keepsWf_wr | apply keepsWf_freeVal)
    | (with_reducible first | refine keepsWf_ite ?_ ?_)
    | split | dsimp only)

theorem keepsWf_tearSlot : KeepsWf (tearSlot) := by
  unfold tearSlot
  repeat' (first
    | (with_reducible first | exact hs | exact keepsWf_pure _ | (refine keepsWf_modify fun s hs => ?_))
    | (with_reducible first | refine keepsWf_ite ?_ ?_)
    | split | dsimp only | exact (M.wf_congr ⟨rfl, rfl, rfl, rfl, rfl, rfl, rfl, rfl, rfl, rfl, rfl⟩).trans hs)

theorem keepsWf_bringUp (bistFail : List Nat) : KeepsWf (bringUp bistFail) := by
  unfold bringUp
  repeat' (first
    | (with_reducible first | exact hs | exact keepsWf_pure _ | (refine keepsWf_getThen fun s hs => ?_))
    | (with_reducible first | (refine keepsWf_bind ?_ fun _ => ?_) | refine keepsWf_whenA ?_)
    | (with_reducible first | (refine keepsWf_forA fun _ => ?_) | apply keepsWf_wr | apply keepsWf_updPos)
    | (with_reducible first | apply keepsWf_freeVal | apply keepsWf_logAdd | apply keepsWf_healthAppend)
    | (with_reducible first | apply keepsWf_writeMap | (refine keepsWf_modify fun s hs => ?_) | refine keepsWf_ite ?_ ?_)
    | split | dsimp only | exact (M.wf_congr ⟨rfl, rfl, rfl, rfl, rfl, rfl, rfl, rfl, rfl, rfl, rfl⟩).trans hs)

theorem keepsWf_setReady (fn : Nat) : KeepsWf (setReady fn) := by
  unfold setReady
  repeat' (first
    | (with_reducible first | exact keepsWf_pure _ | (refine keepsWf_getThen fun s hs => ?_))
    | (with_reducible first | (refine keepsWf_bind ?_ fun _ => ?_) | refine keepsWf_whenA ?_ | apply keepsWf_wr)
    | (with_reducible first | apply keepsWf_setField | apply keepsWf_hostEmit)
    | split | dsimp only)

theorem keepsWf_setModuleReady : KeepsWf (setModuleReady) := by
  unfold setModuleReady
  repeat' (first
    | (with_reducible first | exact keepsWf_pure _ | (refine keepsWf_getThen fun s hs => ?_))
    | (with_reducible first | (refine keepsWf_bind ?_ fun _ => ?_) | refine keepsWf_whenA ?_ | apply keepsWf_setReady)
    | split | dsimp only)

theorem keepsWf_writeGroups : KeepsWf (writeGroups) := by
  unfold writeGroups
  repeat' (first
    | (with_reducible first | exact hs | exact keepsWf_pure _ | (refine keepsWf_getThen fun s hs => ?_))
    | (with_reducible first | (refine keepsWf_bind ?_ fun _ => ?_) | refine keepsWf_whenA ?_)
    | (with_reducible first | (refine keepsWf_forA fun _ => ?_) | apply keepsWf_writeBytes)
    | (with_reducible first | (refine keepsWf_modify fun s hs => ?_))
    | split | dsimp only | exact (M.wf_congr ⟨rfl, rfl, rfl, rfl, rfl, rfl, rfl, rfl, rfl, rfl, rfl⟩).trans hs)

theorem keepsWf_acceptSlot (slot errA errB : Nat) : KeepsWf (acceptSlot slot errA errB) := by
  unfold acceptSlot
  repeat' (first
    | (with_reducible first | exact hs | exact keepsWf_pure _ | (refine keepsWf_bind ?_ fun _ => ?_) | apply keepsWf_wr)
    | (with_reducible first | apply keepsWf_applyImage | apply keepsWf_setReady | apply keepsWf_setModuleReady)
    | (with_reducible first | apply keepsWf_writeGroups | (refine keepsWf_modify fun s hs => ?_))
    | split | dsimp only | exact (M.wf_congr ⟨rfl, rfl, rfl, rfl, rfl, rfl, rfl, rfl, rfl, rfl, rfl⟩).trans hs)

theorem keepsWf_flashCommand (op len : Nat) : KeepsWf (flashCommand op len) := by
  unfold flashCommand
  repeat' (first
    | (with_reducible first | exact hs | exact keepsWf_pure _ | (refine keepsWf_getThen fun s hs => ?_))
    | (with_reducible first | (refine keepsWf_bind ?_ fun _ => ?_) | refine keepsWf_whenA ?_ | apply keepsWf_wr)
    | (with_reducible first | (refine keepsWf_modify fun s hs => ?_) | refine keepsWf_ite ?_ ?_)
    | split | dsimp only | exact (M.wf_congr ⟨rfl, rfl, rfl, rfl, rfl, rfl, rfl, rfl, rfl, rfl, rfl⟩).trans hs)

theorem keepsWf_flashFails (t err : Nat) : KeepsWf (flashFails t err) := by
  unfold flashFails
  repeat' (first
    | (with_reducible first | exact hs | exact keepsWf_pure _ | (refine keepsWf_bind ?_ fun _ => ?_) | apply keepsWf_wr)
    | (with_reducible first | apply keepsWf_freeVal | (refine keepsWf_modify fun s hs => ?_))
    | split | dsimp only | exact (M.wf_congr ⟨rfl, rfl, rfl, rfl, rfl, rfl, rfl, rfl, rfl, rfl, rfl⟩).trans hs)

theorem wf_execModuleReset (releaseJ9 releaseJ10 : Bool) (bistFail : List Nat) {s t : State} (h : s.m.wf = true)
    (hs : execModuleReset releaseJ9 releaseJ10 bistFail s = .next t) : t.m.wf = true := by
  unfold execModuleReset at hs
  refine wf_of_always ?_ h hs
  repeat' (first
    | (with_reducible first | exact hs | exact keepsWf_pure _ | (refine keepsWf_getThen fun s hs => ?_))
    | (with_reducible first | (refine keepsWf_bind ?_ fun _ => ?_) | refine keepsWf_whenA ?_ | apply keepsWf_bringUp)
    | (with_reducible first | (refine keepsWf_modify fun s hs => ?_))
    | split | dsimp only | exact M.wf_atReset _ | exact (M.wf_congr ⟨rfl, rfl, rfl, rfl, rfl, rfl, rfl, rfl, rfl, rfl, rfl⟩).trans hs)

theorem wf_execPerstAssert (pin : Nat) {s t : State} (h : s.m.wf = true)
    (hs : execPerstAssert pin s = .next t) : t.m.wf = true := by
  unfold execPerstAssert at hs
  refine wf_of_always ?_ h hs
  repeat' (first
    | (with_reducible first | exact hs | exact keepsWf_pure _ | (refine keepsWf_bind ?_ fun _ => ?_))
    | (with_reducible first | apply keepsWf_tearSlot | (refine keepsWf_modify fun s hs => ?_))
    | split | dsimp only | exact (M.wf_congr ⟨rfl, rfl, rfl, rfl, rfl, rfl, rfl, rfl, rfl, rfl, rfl⟩).trans hs)

theorem wf_execSelfTestComplete (fn : Nat) (pass : Bool) {s t : State} (h : s.m.wf = true)
    (hs : execSelfTestComplete fn pass s = .next t) : t.m.wf = true := by
  unfold execSelfTestComplete at hs
  refine wf_of_doing ?_ h hs
  repeat' (first
    | (with_reducible first | exact keepsWf_pure _ | (refine keepsWf_getThen fun s hs => ?_))
    | (with_reducible first | (refine keepsWf_bind ?_ fun _ => ?_) | refine keepsWf_whenA ?_ | apply keepsWf_setField)
    | (with_reducible first | apply keepsWf_trainLinks | apply keepsWf_selfTestFails | apply keepsWf_setReady)
    | (with_reducible first | apply keepsWf_setModuleReady | apply keepsWf_writeGroups | refine keepsWf_ite ?_ ?_)
    | split | dsimp only)

theorem wf_execSlotVerify (readErrA readErrB : Bool) {s t : State} (h : s.m.wf = true)
    (hs : execSlotVerify readErrA readErrB s = .next t) : t.m.wf = true := by
  unfold execSlotVerify at hs
  refine wf_of_doing ?_ h hs
  repeat' (first
    | (with_reducible first | exact keepsWf_pure _ | (refine keepsWf_getThen fun s hs => ?_))
    | (with_reducible first | (refine keepsWf_bind ?_ fun _ => ?_) | refine keepsWf_whenA ?_ | apply keepsWf_wr)
    | (with_reducible first | apply keepsWf_checkSlot | apply keepsWf_acceptSlot | refine keepsWf_ite ?_ ?_)
    | split | dsimp only)

theorem wf_execMgtFlashErase (writer : Nat) {s t : State} (h : s.m.wf = true)
    (hs : execMgtFlashErase s writer = .next t) : t.m.wf = true := by
  unfold execMgtFlashErase at hs
  refine wf_of_doing ?_ h hs
  repeat' (first
    | (with_reducible first | exact keepsWf_pure _ | apply keepsWf_regAction | apply keepsWf_flashCommand)
    | split | dsimp only)

theorem wf_execMgtFlashProgram (writer len : Nat) {s t : State} (h : s.m.wf = true)
    (hs : execMgtFlashProgram len s writer = .next t) : t.m.wf = true := by
  unfold execMgtFlashProgram at hs
  refine wf_of_doing ?_ h hs
  repeat' (first
    | (with_reducible first | exact keepsWf_pure _ | apply keepsWf_regAction | apply keepsWf_flashCommand)
    | split | dsimp only)

theorem wf_execMgtFlashCheck (writer : Nat) {s t : State} (h : s.m.wf = true)
    (hs : execMgtFlashCheck s writer = .next t) : t.m.wf = true := by
  unfold execMgtFlashCheck at hs
  refine wf_of_doing ?_ h hs
  repeat' (first
    | (with_reducible first | exact keepsWf_pure _ | apply keepsWf_regAction | apply keepsWf_flashCommand)
    | split | dsimp only)

theorem wf_execFlashCommandDone (deviceOk : Bool) {s t : State} (h : s.m.wf = true)
    (hs : execFlashCommandDone deviceOk s = .next t) : t.m.wf = true := by
  unfold execFlashCommandDone at hs
  refine wf_of_doing ?_ h hs
  repeat' (first
    | (with_reducible first | exact hs | exact keepsWf_pure _ | (refine keepsWf_getThen fun s hs => ?_))
    | (with_reducible first | (refine keepsWf_bind ?_ fun _ => ?_) | refine keepsWf_whenA ?_ | apply keepsWf_wr)
    | (with_reducible first | apply keepsWf_freeVal | apply keepsWf_readBytes | apply keepsWf_writeFlash)
    | (with_reducible first | apply keepsWf_eraseFlash | apply keepsWf_checkSlot | apply keepsWf_flashFails)
    | (with_reducible first | (refine keepsWf_modify fun s hs => ?_) | refine keepsWf_ite ?_ ?_)
    | split | dsimp only | exact (M.wf_congr ⟨rfl, rfl, rfl, rfl, rfl, rfl, rfl, rfl, rfl, rfl, rfl⟩).trans hs)

end Sys2Proof.Machine
end

