-- ==== Sys2Proof/Laws/WfParity.lean ====
section
/-! SUPPORT. Every operation of Machine/Parity.lean keeps the canonical form. -/

namespace Sys2Proof.Machine

theorem keepsWf_parityStep : KeepsWf (parityStep) := by
  unfold parityStep
  repeat' (first
    | (with_reducible first | exact keepsWf_pure _ | (refine keepsWf_getThen fun s hs => ?_))
    | (with_reducible first | (refine keepsWf_bind ?_ fun _ => ?_) | apply keepsWf_readBytes)
    | split | dsimp only)

theorem keepsWf_updParity (f : Parity → Parity) : KeepsWf (updParity f) := by
  unfold updParity
  repeat' (first
    | (with_reducible first | exact hs | exact keepsWf_pure _ | (refine keepsWf_modify fun s hs => ?_))
    | split | dsimp only | exact (M.wf_congr ⟨rfl, rfl, rfl, rfl, rfl, rfl, rfl, rfl, rfl, rfl, rfl⟩).trans hs)

theorem keepsWf_parityEnd (state err : Nat) : KeepsWf (parityEnd state err) := by
  unfold parityEnd
  repeat' (first
    | (with_reducible first | exact keepsWf_pure _ | (refine keepsWf_getThen fun s hs => ?_))
    | (with_reducible first | (refine keepsWf_bind ?_ fun _ => ?_) | apply keepsWf_wr | apply keepsWf_logAdd)
    | (with_reducible first | apply keepsWf_writeBytes | apply keepsWf_parityStep | apply keepsWf_updParity)
    | (with_reducible first | refine keepsWf_ite ?_ ?_)
    | split | dsimp only)

theorem keepsWf_paritySend (v0 : Nat) : KeepsWf (paritySend v0) := by
  induction v0 with
  | zero => exact keepsWf_pure _
  | succ v0 ih =>
  unfold paritySend
  repeat' (first
    | (with_reducible first | exact keepsWf_pure _ | (refine keepsWf_getThen fun s hs => ?_))
    | (with_reducible first | (refine keepsWf_bind ?_ fun _ => ?_) | apply ih | apply keepsWf_readLines)
    | (with_reducible first | apply keepsWf_postMessage | apply keepsWf_updParity | intro _)
    | split | dsimp only)

theorem keepsWf_parityCheck : KeepsWf (parityCheck) := by
  unfold parityCheck
  repeat' (first
    | (with_reducible first | exact keepsWf_pure _ | (refine keepsWf_getThen fun s hs => ?_))
    | (with_reducible first | (refine keepsWf_bind ?_ fun _ => ?_) | refine keepsWf_whenA ?_ | apply keepsWf_parityEnd)
    | split | dsimp only)

theorem keepsWf_parityAnswered (node status : Nat) : KeepsWf (parityAnswered node status) := by
  unfold parityAnswered
  repeat' (first
    | (with_reducible first | exact keepsWf_pure _ | (refine keepsWf_getThen fun s hs => ?_))
    | (with_reducible first | (refine keepsWf_bind ?_ fun _ => ?_) | apply keepsWf_updParity | apply keepsWf_parityEnd)
    | (with_reducible first | apply keepsWf_paritySend | apply keepsWf_parityCheck | refine keepsWf_ite ?_ ?_)
    | split | dsimp only)

theorem keepsWf_parityStart (mode step lost : Nat) (todo : List (Nat × Nat × Nat)) : KeepsWf (parityStart mode step lost todo) := by
  unfold parityStart
  repeat' (first
    | (with_reducible first | exact keepsWf_pure _ | (refine keepsWf_bind ?_ fun _ => ?_) | apply keepsWf_wr)
    | (with_reducible first | apply keepsWf_parityStep | apply keepsWf_updParity | apply keepsWf_paritySend)
    | (with_reducible first | apply keepsWf_parityCheck)
    | split | dsimp only)

theorem keepsWf_parityRefresh (step : Nat) : KeepsWf (parityRefresh step) := by
  unfold parityRefresh
  repeat' (first
    | (with_reducible first | exact keepsWf_pure _ | (refine keepsWf_getThen fun s hs => ?_))
    | (with_reducible first | (refine keepsWf_bind ?_ fun _ => ?_) | refine keepsWf_whenA ?_ | apply keepsWf_zeroLines)
    | (with_reducible first | apply keepsWf_parityStart)
    | split | dsimp only)

theorem keepsWf_rebuildSurvivor (step lost : Nat) : KeepsWf (rebuildSurvivor step lost) := by
  unfold rebuildSurvivor
  repeat' (first
    | (with_reducible first | exact keepsWf_pure _ | (refine keepsWf_getThen fun s hs => ?_))
    | (with_reducible first | (refine keepsWf_bind ?_ fun _ => ?_) | apply keepsWf_freeVal | apply keepsWf_parityStep)
    | (with_reducible first | apply keepsWf_updParity | apply keepsWf_parityEnd | apply keepsWf_parityStart)
    | (with_reducible first | refine keepsWf_ite ?_ ?_)
    | split | dsimp only)

theorem keepsWf_rebuildSpare (step lost : Nat) : KeepsWf (rebuildSpare step lost) := by
  unfold rebuildSpare
  repeat' (first
    | (with_reducible first | exact keepsWf_pure _ | (refine keepsWf_getThen fun s hs => ?_))
    | (with_reducible first | (refine keepsWf_bind ?_ fun _ => ?_) | refine keepsWf_whenA ?_ | apply keepsWf_parityStart)
    | split | dsimp only)

theorem keepsWf_readChunk (a : Nat) : KeepsWf (readChunk a) := by
  unfold readChunk
  repeat' (first
    | (with_reducible first | exact keepsWf_pure _ | (refine keepsWf_getThen fun s hs => ?_))
    | (with_reducible first | (refine keepsWf_bind ?_ fun _ => ?_) | apply keepsWf_readLines)
    | split | dsimp only)

theorem keepsWf_writeChunk (a : Nat) (data : List Byte) (bad : List Nat) : KeepsWf (writeChunk a data bad) := by
  unfold writeChunk
  repeat' (first
    | (with_reducible first | exact keepsWf_pure _ | (refine keepsWf_bind ?_ fun _ => ?_))
    | (with_reducible first | (refine keepsWf_forA fun _ => ?_) | apply keepsWf_writeBytes | apply keepsWf_poisonLine)
    | split | dsimp only)

theorem keepsWf_foldSlot (g r n : Nat) : KeepsWf (foldSlot g r n) := by
  unfold foldSlot
  repeat' (first
    | (with_reducible first | exact keepsWf_pure _ | (refine keepsWf_getThen fun s hs => ?_))
    | (with_reducible first | (refine keepsWf_bind ?_ fun _ => ?_) | refine keepsWf_whenA ?_ | apply keepsWf_updParity)
    | (with_reducible first | apply keepsWf_parityCheck | apply keepsWf_readChunk | apply keepsWf_writeChunk)
    | split | dsimp only)

theorem keepsWf_rebuildChunk (g r q slot : Nat) : KeepsWf (rebuildChunk g r q slot) := by
  unfold rebuildChunk
  repeat' (first
    | (with_reducible first | exact keepsWf_pure _ | (refine keepsWf_getThen fun s hs => ?_))
    | (with_reducible first | (refine keepsWf_bind ?_ fun _ => ?_) | refine keepsWf_whenA ?_ | apply keepsWf_updParity)
    | (with_reducible first | apply keepsWf_parityCheck | apply keepsWf_readChunk | apply keepsWf_writeChunk)
    | (with_reducible first | refine keepsWf_ite ?_ ?_)
    | split | dsimp only)

theorem keepsWf_parityArrived (node addr : Nat) : KeepsWf (parityArrived node addr) := by
  unfold parityArrived
  repeat' (first
    | (with_reducible first | exact keepsWf_pure _ | (refine keepsWf_getThen fun s hs => ?_))
    | (with_reducible first | (refine keepsWf_bind ?_ fun _ => ?_) | apply keepsWf_foldSlot | apply keepsWf_rebuildChunk)
    | (with_reducible first | refine keepsWf_ite ?_ ?_)
    | split | dsimp only)

theorem wf_execParityRefresh (writer stepS : Nat) {s t : State} (h : s.m.wf = true)
    (hs : execParityRefresh stepS s writer = .next t) : t.m.wf = true := by
  unfold execParityRefresh at hs
  refine wf_of_doing ?_ h hs
  repeat' (first
    | (with_reducible first | exact keepsWf_pure _ | apply keepsWf_regAction | apply keepsWf_parityRefresh)
    | split | dsimp only)

theorem wf_execParityRebuildSurvivor (writer stepS lost : Nat) {s t : State} (h : s.m.wf = true)
    (hs : execParityRebuildSurvivor stepS lost s writer = .next t) : t.m.wf = true := by
  unfold execParityRebuildSurvivor at hs
  refine wf_of_doing ?_ h hs
  repeat' (first
    | (with_reducible first | exact keepsWf_pure _ | apply keepsWf_regAction | apply keepsWf_rebuildSurvivor)
    | split | dsimp only)

theorem wf_execParityRebuildSpare (writer stepS lost : Nat) {s t : State} (h : s.m.wf = true)
    (hs : execParityRebuildSpare stepS lost s writer = .next t) : t.m.wf = true := by
  unfold execParityRebuildSpare at hs
  refine wf_of_doing ?_ h hs
  repeat' (first
    | (with_reducible first | exact keepsWf_pure _ | apply keepsWf_regAction | apply keepsWf_rebuildSpare)
    | split | dsimp only)

end Sys2Proof.Machine
end

