-- ==== Sys2Proof/Laws/WfWire.lean ====
section
/-! SUPPORT. Every operation of Machine/Wire.lean keeps the canonical form. -/

namespace Sys2Proof.Machine

theorem keepsWf_dropPacket (port : Nat) : KeepsWf (dropPacket port) := by
  unfold dropPacket
  repeat' (first
    | (with_reducible first | exact keepsWf_pure _ | (refine keepsWf_bind ?_ fun _ => ?_) | apply keepsWf_inc64)
    | (with_reducible first | apply keepsWf_portCount)
    | split | dsimp only)

theorem keepsWf_collLost (peer e group seq : Nat) : KeepsWf (collLost peer e group seq) := by
  unfold collLost
  repeat' (first
    | (with_reducible first | exact keepsWf_pure _ | (refine keepsWf_getThen fun s hs => ?_))
    | (with_reducible first | (refine keepsWf_bind ?_ fun _ => ?_) | apply keepsWf_failColl)
    | split | dsimp only)

theorem keepsWf_ownerLost (peer : Nat) (o : Owner) : KeepsWf (ownerLost peer o) := by
  unfold ownerLost
  repeat' (first
    | (with_reducible first | exact keepsWf_pure _ | (refine keepsWf_getThen fun s hs => ?_))
    | (with_reducible first | (refine keepsWf_bind ?_ fun _ => ?_) | refine keepsWf_whenA ?_ | apply keepsWf_endRingOp)
    | (with_reducible first | apply keepsWf_parityEnd | apply keepsWf_collLost)
    | split | dsimp only)

theorem keepsWf_inLost (peer : Nat) (m : InMsg) : KeepsWf (inLost peer m) := by
  unfold inLost
  repeat' (first
    | (with_reducible first | exact keepsWf_pure _ | apply keepsWf_collLost)
    | split | dsimp only)

theorem keepsWf_loseInbound (peer : Nat) : KeepsWf (loseInbound peer) := by
  unfold loseInbound
  repeat' (first
    | (with_reducible first | exact keepsWf_pure _ | (refine keepsWf_getThen fun s hs => ?_))
    | (with_reducible first | (refine keepsWf_bind ?_ fun _ => ?_) | (refine keepsWf_forA fun _ => ?_))
    | (with_reducible first | apply keepsWf_updRally | apply keepsWf_inLost)
    | split | dsimp only)

theorem keepsWf_loseOpen (peer : Nat) : KeepsWf (loseOpen peer) := by
  unfold loseOpen
  repeat' (first
    | (with_reducible first | exact keepsWf_pure _ | (refine keepsWf_getThen fun s hs => ?_))
    | (with_reducible first | (refine keepsWf_bind ?_ fun _ => ?_) | (refine keepsWf_forA fun _ => ?_))
    | (with_reducible first | apply keepsWf_updRally | apply keepsWf_ownerLost | apply keepsWf_loseInbound)
    | split | dsimp only)

theorem keepsWf_loseAll (peer : Nat) : KeepsWf (loseAll peer) := by
  unfold loseAll
  repeat' (first
    | (with_reducible first | exact keepsWf_pure _ | (refine keepsWf_getThen fun s hs => ?_))
    | (with_reducible first | (refine keepsWf_bind ?_ fun _ => ?_) | (refine keepsWf_forA fun _ => ?_))
    | (with_reducible first | apply keepsWf_updRally | apply keepsWf_ownerLost | apply keepsWf_loseOpen)
    | split | dsimp only)

theorem keepsWf_sendAck (peer path ts : Nat) : KeepsWf (sendAck peer path ts) := by
  unfold sendAck
  repeat' (first
    | (with_reducible first | exact keepsWf_pure _ | (refine keepsWf_getThen fun s hs => ?_))
    | (with_reducible first | (refine keepsWf_bind ?_ fun _ => ?_) | apply keepsWf_portCount | apply keepsWf_updRally)
    | (with_reducible first | apply keepsWf_sendControl)
    | split | dsimp only)

theorem keepsWf_takeSeq (peer d : Nat) (h : Hdr) : KeepsWf (takeSeq peer d h) := by
  unfold takeSeq
  repeat' (first
    | (with_reducible first | exact keepsWf_pure _ | (refine keepsWf_getThen fun s hs => ?_))
    | (with_reducible first | (refine keepsWf_bind ?_ fun _ => ?_) | refine keepsWf_whenA ?_ | apply keepsWf_updRally)
    | (with_reducible first | apply keepsWf_sendAck | refine keepsWf_ite ?_ ?_)
    | split | dsimp only)

theorem keepsWf_decodeLines (body : List Byte) (addr : Nat → Option Nat) : KeepsWf (decodeLines body addr) := by
  unfold decodeLines
  repeat' (first
    | (with_reducible first | exact keepsWf_pure _ | (refine keepsWf_bind ?_ fun _ => ?_))
    | (with_reducible first | (refine keepsWf_mapA fun _ => ?_) | apply keepsWf_wr | apply keepsWf_inc64)
    | (with_reducible first | apply keepsWf_freeVal | apply keepsWf_logAdd | refine keepsWf_ite ?_ ?_)
    | split | dsimp only)

theorem keepsWf_messageComplete (peer : Nat) (m : InMsg) : KeepsWf (messageComplete peer m) := by
  unfold messageComplete
  repeat' (first
    | (with_reducible first | exact keepsWf_pure _ | (refine keepsWf_getThen fun s hs => ?_))
    | (with_reducible first | (refine keepsWf_bind ?_ fun _ => ?_) | refine keepsWf_whenA ?_ | apply keepsWf_inc64)
    | (with_reducible first | apply keepsWf_hostEmit | apply keepsWf_updRally | apply keepsWf_queueStatus)
    | (with_reducible first | apply keepsWf_relayMessage | apply keepsWf_parityArrived | refine keepsWf_ite ?_ ?_)
    | split | dsimp only)

theorem keepsWf_completeIn (peer : Nat) : KeepsWf (completeIn peer) := by
  unfold completeIn
  repeat' (first
    | (with_reducible first | exact keepsWf_pure _ | (refine keepsWf_getThen fun s hs => ?_))
    | (with_reducible first | (refine keepsWf_bind ?_ fun _ => ?_) | (refine keepsWf_forA fun _ => ?_))
    | (with_reducible first | apply keepsWf_updRally | apply keepsWf_messageComplete | refine keepsWf_ite ?_ ?_)
    | split | dsimp only)

theorem keepsWf_placeData (peer d : Nat) (m : InMsg) (h : Hdr) : KeepsWf (placeData peer d m h) := by
  unfold placeData
  repeat' (first
    | (with_reducible first | exact hs | exact keepsWf_pure _ | (refine keepsWf_getThen fun s hs => ?_))
    | (with_reducible first | (refine keepsWf_bind ?_ fun _ => ?_) | refine keepsWf_whenA ?_)
    | (with_reducible first | (refine keepsWf_forA fun _ => ?_) | apply keepsWf_updRally | apply keepsWf_takeSeq)
    | (with_reducible first | apply keepsWf_decodeLines | apply keepsWf_completeIn)
    | (with_reducible first | (refine keepsWf_modify fun s hs => ?_) | refine M.wf_putLine _ _ _ ?_)
    | (with_reducible first | refine keepsWf_ite ?_ ?_)
    | split | dsimp only | exact (M.wf_congr ⟨rfl, rfl, rfl, rfl, rfl, rfl, rfl, rfl, rfl, rfl, rfl⟩).trans hs)

theorem keepsWf_outDone (peer : Nat) (m : OutMsg) (status : Nat) : KeepsWf (outDone peer m status) := by
  unfold outDone
  repeat' (first
    | (with_reducible first | exact keepsWf_pure _ | (refine keepsWf_getThen fun s hs => ?_))
    | (with_reducible first | (refine keepsWf_bind ?_ fun _ => ?_) | refine keepsWf_whenA ?_ | apply keepsWf_updRally)
    | (with_reducible first | apply keepsWf_updColl | apply keepsWf_grant | apply keepsWf_endRingOp)
    | (with_reducible first | apply keepsWf_parityAnswered)
    | split | dsimp only)

theorem keepsWf_takeStatus (peer : Nat) (h : Hdr) : KeepsWf (takeStatus peer h) := by
  unfold takeStatus
  repeat' (first
    | (with_reducible first | exact keepsWf_pure _ | (refine keepsWf_getThen fun s hs => ?_))
    | (with_reducible first | (refine keepsWf_bind ?_ fun _ => ?_) | refine keepsWf_whenA ?_ | apply keepsWf_updRally)
    | (with_reducible first | apply keepsWf_outDone)
    | split | dsimp only)

theorem keepsWf_recvSeq (port : Nat) (ce : Bool) (h : Hdr) : KeepsWf (recvSeq port ce h) := by
  unfold recvSeq
  repeat' (first
    | (with_reducible first | exact keepsWf_pure _ | (refine keepsWf_getThen fun s hs => ?_))
    | (with_reducible first | (refine keepsWf_bind ?_ fun _ => ?_) | refine keepsWf_whenA ?_ | apply keepsWf_portCount)
    | (with_reducible first | apply keepsWf_updRally | apply keepsWf_sendControl | apply keepsWf_dropPacket)
    | (with_reducible first | apply keepsWf_sendAck | apply keepsWf_takeSeq | apply keepsWf_completeIn)
    | (with_reducible first | apply keepsWf_placeData | apply keepsWf_takeStatus | refine keepsWf_ite ?_ ?_)
    | split | dsimp only)

theorem keepsWf_recvAck (port : Nat) (h : Hdr) : KeepsWf (recvAck port h) := by
  unfold recvAck
  repeat' (first
    | (with_reducible first | exact keepsWf_pure _ | (refine keepsWf_getThen fun s hs => ?_))
    | (with_reducible first | (refine keepsWf_bind ?_ fun _ => ?_) | refine keepsWf_whenA ?_)
    | (with_reducible first | (refine keepsWf_forA fun _ => ?_) | apply keepsWf_portCount | apply keepsWf_updRally)
    | (with_reducible first | apply keepsWf_retransmit | apply keepsWf_outDone | refine keepsWf_ite ?_ ?_)
    | split | dsimp only)

theorem keepsWf_sendOpenAck (peer path : Nat) (h : Hdr) : KeepsWf (sendOpenAck peer path h) := by
  unfold sendOpenAck
  repeat' (first
    | (with_reducible first | exact keepsWf_pure _ | apply keepsWf_sendControl)
    | split | dsimp only)

theorem keepsWf_acceptOpen (peer : Nat) (h : Hdr) : KeepsWf (acceptOpen peer h) := by
  unfold acceptOpen
  repeat' (first
    | (with_reducible first | exact keepsWf_pure _ | (refine keepsWf_bind ?_ fun _ => ?_) | apply keepsWf_updRally)
    | (with_reducible first | apply keepsWf_sendOpenAck | refine keepsWf_ite ?_ ?_)
    | split | dsimp only)

theorem keepsWf_recvOpen (h : Hdr) : KeepsWf (recvOpen h) := by
  unfold recvOpen
  repeat' (first
    | (with_reducible first | exact keepsWf_pure _ | (refine keepsWf_getThen fun s hs => ?_))
    | (with_reducible first | (refine keepsWf_bind ?_ fun _ => ?_) | refine keepsWf_whenA ?_ | apply keepsWf_startOpen)
    | (with_reducible first | apply keepsWf_loseInbound | apply keepsWf_loseOpen | apply keepsWf_sendOpenAck)
    | (with_reducible first | apply keepsWf_acceptOpen | refine keepsWf_ite ?_ ?_)
    | split | dsimp only)

theorem keepsWf_takeoverHeard (peer : Nat) (answered : Bool) : KeepsWf (takeoverHeard peer answered) := by
  unfold takeoverHeard
  repeat' (first
    | (with_reducible first | exact hs | exact keepsWf_pure _ | (refine keepsWf_getThen fun s hs => ?_))
    | (with_reducible first | (refine keepsWf_bind ?_ fun _ => ?_) | refine keepsWf_whenA ?_ | apply keepsWf_upd)
    | (with_reducible first | apply keepsWf_setField | apply keepsWf_logAdd | (refine keepsWf_modify fun s hs => ?_))
    | split | dsimp only | exact (M.wf_congr ⟨rfl, rfl, rfl, rfl, rfl, rfl, rfl, rfl, rfl, rfl, rfl⟩).trans hs)

theorem keepsWf_recvOpenAck (h : Hdr) : KeepsWf (recvOpenAck h) := by
  unfold recvOpenAck
  repeat' (first
    | (with_reducible first | exact keepsWf_pure _ | (refine keepsWf_getThen fun s hs => ?_))
    | (with_reducible first | (refine keepsWf_bind ?_ fun _ => ?_) | refine keepsWf_whenA ?_ | apply keepsWf_updRally)
    | (with_reducible first | apply keepsWf_takeoverHeard)
    | split | dsimp only)

theorem keepsWf_recvReset (h : Hdr) : KeepsWf (recvReset h) := by
  unfold recvReset
  repeat' (first
    | (with_reducible first | exact keepsWf_pure _ | (refine keepsWf_getThen fun s hs => ?_))
    | (with_reducible first | (refine keepsWf_bind ?_ fun _ => ?_) | refine keepsWf_whenA ?_ | apply keepsWf_startOpen)
    | (with_reducible first | apply keepsWf_loseOpen)
    | split | dsimp only)

theorem keepsWf_recvProbe (h : Hdr) : KeepsWf (recvProbe h) := by
  unfold recvProbe
  repeat' (first
    | (with_reducible first | exact keepsWf_pure _ | apply keepsWf_sendControl)
    | split | dsimp only)

theorem keepsWf_recvProbeReply (h : Hdr) : KeepsWf (recvProbeReply h) := by
  unfold recvProbeReply
  repeat' (first
    | (with_reducible first | exact keepsWf_pure _ | (refine keepsWf_getThen fun s hs => ?_))
    | (with_reducible first | (refine keepsWf_bind ?_ fun _ => ?_) | apply keepsWf_updRally)
    | split | dsimp only)

theorem keepsWf_recvTyped (port : Nat) (ce : Bool) (h : Hdr) : KeepsWf (recvTyped port ce h) := by
  unfold recvTyped
  repeat' (first
    | (with_reducible first | exact keepsWf_pure _ | apply keepsWf_recvSeq | apply keepsWf_recvAck)
    | (with_reducible first | apply keepsWf_recvOpen | apply keepsWf_recvOpenAck | apply keepsWf_recvReset)
    | (with_reducible first | apply keepsWf_recvProbe | apply keepsWf_recvProbeReply)
    | split | dsimp only)

theorem keepsWf_recvPacket (port : Nat) (ce : Bool) (packet : List Byte) : KeepsWf (recvPacket port ce packet) := by
  unfold recvPacket
  repeat' (first
    | (with_reducible first | exact keepsWf_pure _ | (refine keepsWf_getThen fun s hs => ?_))
    | (with_reducible first | (refine keepsWf_bind ?_ fun _ => ?_) | apply keepsWf_inc64 | apply keepsWf_portCount)
    | (with_reducible first | apply keepsWf_updRally | apply keepsWf_needCtx | apply keepsWf_dropPacket)
    | (with_reducible first | apply keepsWf_recvTyped | refine keepsWf_ite ?_ ?_)
    | split | dsimp only)

theorem keepsWf_recvRow (typ port : Nat) (ce : Bool) (packet : List Byte) : KeepsWf (recvRow typ port ce packet) := by
  unfold recvRow
  repeat' (first
    | (with_reducible first | exact keepsWf_pure _ | (refine keepsWf_getThen fun s hs => ?_))
    | (with_reducible first | (refine keepsWf_bind ?_ fun _ => ?_) | refine keepsWf_whenA ?_ | apply keepsWf_recvPacket)
    | split | dsimp only)

theorem keepsWf_failRally (peer : Nat) : KeepsWf (failRally peer) := by
  unfold failRally
  repeat' (first
    | (with_reducible first | exact keepsWf_pure _ | (refine keepsWf_getThen fun s hs => ?_))
    | (with_reducible first | (refine keepsWf_bind ?_ fun _ => ?_) | apply keepsWf_updRally | apply keepsWf_loseOpen)
    | (with_reducible first | apply keepsWf_loseAll | apply keepsWf_takeoverHeard | refine keepsWf_ite ?_ ?_)
    | split | dsimp only)

theorem keepsWf_dropFrame (port code : Nat) : KeepsWf (dropFrame port code) := by
  unfold dropFrame
  repeat' (first
    | (with_reducible first | exact keepsWf_pure _ | (refine keepsWf_bind ?_ fun _ => ?_) | apply keepsWf_inc64)
    | (with_reducible first | apply keepsWf_portCount)
    | split | dsimp only)

theorem keepsWf_takePn (p an pn : Nat) : KeepsWf (takePn p an pn) := by
  unfold takePn
  repeat' (first
    | (with_reducible first | exact hs | exact keepsWf_pure _ | (refine keepsWf_modify fun s hs => ?_))
    | (with_reducible first | refine keepsWf_ite ?_ ?_)
    | split | dsimp only | exact (M.wf_congr ⟨rfl, rfl, rfl, rfl, rfl, rfl, rfl, rfl, rfl, rfl, rfl⟩).trans hs)

theorem keepsWf_macsecPass (p kind an pn : Nat) : KeepsWf (macsecPass p kind an pn) := by
  unfold macsecPass
  repeat' (first
    | (with_reducible first | exact keepsWf_pure _ | (refine keepsWf_getThen fun s hs => ?_))
    | (with_reducible first | (refine keepsWf_bind ?_ fun _ => ?_) | apply keepsWf_portCount | apply keepsWf_takePn)
    | (with_reducible first | refine keepsWf_ite ?_ ?_)
    | split | dsimp only)

theorem keepsWf_passFrame (port : Nat) (tagged : Bool) (vid kind : Nat) (pl : List Byte) : KeepsWf (passFrame port tagged vid kind pl) := by
  unfold passFrame
  repeat' (first
    | (with_reducible first | exact keepsWf_pure _ | (refine keepsWf_getThen fun s hs => ?_))
    | (with_reducible first | (refine keepsWf_bind ?_ fun _ => ?_) | refine keepsWf_whenA ?_ | apply keepsWf_portCount)
    | (with_reducible first | apply keepsWf_emitFrame | apply keepsWf_dropPacket | apply keepsWf_dropFrame)
    | (with_reducible first | refine keepsWf_ite ?_ ?_)
    | split | dsimp only)

theorem keepsWf_linkDown (port link : Nat) : KeepsWf (linkDown port link) := by
  unfold linkDown
  repeat' (first
    | (with_reducible first | exact keepsWf_pure _ | (refine keepsWf_getThen fun s hs => ?_))
    | (with_reducible first | (refine keepsWf_bind ?_ fun _ => ?_) | refine keepsWf_whenA ?_)
    | (with_reducible first | (refine keepsWf_forA fun _ => ?_) | apply keepsWf_setField | apply keepsWf_retransmit)
    | split | dsimp only)

theorem keepsWf_takeover (value : Nat) : KeepsWf (takeover value) := by
  unfold takeover
  repeat' (first
    | (with_reducible first | exact hs | exact keepsWf_pure _ | (refine keepsWf_getThen fun s hs => ?_))
    | (with_reducible first | (refine keepsWf_bind ?_ fun _ => ?_) | refine keepsWf_whenA ?_)
    | (with_reducible first | (refine keepsWf_forA fun _ => ?_) | apply keepsWf_wr | apply keepsWf_setField)
    | (with_reducible first | apply keepsWf_freeVal | apply keepsWf_logAdd | apply keepsWf_updRally)
    | (with_reducible first | apply keepsWf_startOpen | apply keepsWf_needCtx | apply keepsWf_loseAll)
    | (with_reducible first | (refine keepsWf_modify fun s hs => ?_) | refine M.wf_fences ?_ rfl)
    | (with_reducible first | refine keepsWf_ite ?_ ?_)
    | split | dsimp only | exact (M.wf_congr ⟨rfl, rfl, rfl, rfl, rfl, rfl, rfl, rfl, rfl, rfl, rfl⟩).trans hs)

theorem wf_execData (port : Nat) (ce : Bool) (packet : List Byte) {s t : State} (h : s.m.wf = true)
    (hs : execData port ce packet s = .next t) : t.m.wf = true := by
  unfold execData at hs
  refine wf_of_doing ?_ h hs
  repeat' (first
    | (with_reducible first | exact keepsWf_pure _ | apply keepsWf_recvRow)
    | split | dsimp only)

theorem wf_execAck (port now : Nat) (packet : List Byte) {s t : State} (h : s.m.wf = true)
    (hs : execAck port now packet s = .next t) : t.m.wf = true := by
  unfold execAck at hs
  refine wf_of_doing ?_ h hs
  repeat' (first
    | (with_reducible first | exact keepsWf_pure _ | (refine keepsWf_bind ?_ fun _ => ?_) | apply keepsWf_setNow)
    | (with_reducible first | apply keepsWf_recvRow)
    | split | dsimp only)

theorem wf_execMsgStatus (port : Nat) (packet : List Byte) {s t : State} (h : s.m.wf = true)
    (hs : execMsgStatus port packet s = .next t) : t.m.wf = true := by
  unfold execMsgStatus at hs
  refine wf_of_doing ?_ h hs
  repeat' (first
    | (with_reducible first | exact keepsWf_pure _ | apply keepsWf_recvRow)
    | split | dsimp only)

theorem wf_execOpenPacket (port : Nat) (packet : List Byte) {s t : State} (h : s.m.wf = true)
    (hs : execOpenPacket port packet s = .next t) : t.m.wf = true := by
  unfold execOpenPacket at hs
  refine wf_of_doing ?_ h hs
  repeat' (first
    | (with_reducible first | exact keepsWf_pure _ | apply keepsWf_recvRow)
    | split | dsimp only)

theorem wf_execOpenAck (port : Nat) (packet : List Byte) {s t : State} (h : s.m.wf = true)
    (hs : execOpenAck port packet s = .next t) : t.m.wf = true := by
  unfold execOpenAck at hs
  refine wf_of_doing ?_ h hs
  repeat' (first
    | (with_reducible first | exact keepsWf_pure _ | apply keepsWf_recvRow)
    | split | dsimp only)

theorem wf_execResetPacket (port : Nat) (packet : List Byte) {s t : State} (h : s.m.wf = true)
    (hs : execResetPacket port packet s = .next t) : t.m.wf = true := by
  unfold execResetPacket at hs
  refine wf_of_doing ?_ h hs
  repeat' (first
    | (with_reducible first | exact keepsWf_pure _ | apply keepsWf_recvRow)
    | split | dsimp only)

theorem wf_execProbe (port : Nat) (packet : List Byte) {s t : State} (h : s.m.wf = true)
    (hs : execProbe port packet s = .next t) : t.m.wf = true := by
  unfold execProbe at hs
  refine wf_of_doing ?_ h hs
  repeat' (first
    | (with_reducible first | exact keepsWf_pure _ | apply keepsWf_recvRow)
    | split | dsimp only)

theorem wf_execProbeReply (port now : Nat) (packet : List Byte) {s t : State} (h : s.m.wf = true)
    (hs : execProbeReply port now packet s = .next t) : t.m.wf = true := by
  unfold execProbeReply at hs
  refine wf_of_doing ?_ h hs
  repeat' (first
    | (with_reducible first | exact keepsWf_pure _ | (refine keepsWf_bind ?_ fun _ => ?_) | apply keepsWf_setNow)
    | (with_reducible first | apply keepsWf_recvRow)
    | split | dsimp only)

theorem wf_execAckDelayExpiry (peer : Nat) {s t : State} (h : s.m.wf = true)
    (hs : execAckDelayExpiry peer s = .next t) : t.m.wf = true := by
  unfold execAckDelayExpiry at hs
  refine wf_of_doing ?_ h hs
  repeat' (first
    | (with_reducible first | exact keepsWf_pure _ | (refine keepsWf_getThen fun s hs => ?_))
    | (with_reducible first | (refine keepsWf_bind ?_ fun _ => ?_) | refine keepsWf_whenA ?_ | apply keepsWf_sendAck)
    | split | dsimp only)

theorem wf_execRallyGiveup (peer sinceMs : Nat) {s t : State} (h : s.m.wf = true)
    (hs : execRallyGiveup peer sinceMs s = .next t) : t.m.wf = true := by
  unfold execRallyGiveup at hs
  refine wf_of_doing ?_ h hs
  repeat' (first
    | (with_reducible first | exact keepsWf_pure _ | (refine keepsWf_getThen fun s hs => ?_))
    | (with_reducible first | (refine keepsWf_bind ?_ fun _ => ?_) | refine keepsWf_whenA ?_ | apply keepsWf_failRally)
    | split | dsimp only)

theorem wf_execContextMissDone (peer : Nat) {s t : State} (h : s.m.wf = true)
    (hs : execContextMissDone peer s = .next t) : t.m.wf = true := by
  unfold execContextMissDone at hs
  refine wf_of_doing ?_ h hs
  repeat' (first
    | (with_reducible first | exact keepsWf_pure _ | (refine keepsWf_getThen fun s hs => ?_))
    | (with_reducible first | (refine keepsWf_bind ?_ fun _ => ?_) | refine keepsWf_whenA ?_)
    | (with_reducible first | (refine keepsWf_forA fun _ => ?_) | apply keepsWf_readBytes | apply keepsWf_scramble)
    | (with_reducible first | apply keepsWf_updRally | apply keepsWf_startOpen | apply keepsWf_touchCtx)
    | (with_reducible first | apply keepsWf_recvPacket | refine keepsWf_ite ?_ ?_)
    | split | dsimp only)

theorem wf_execFrameReceived (port len : Nat) (fcsOk tagged : Bool) (vid kind : Nat) (ce : Bool) (uncorr an pn : Nat) (pl : List Byte) {s t : State} (h : s.m.wf = true)
    (hs : execFrameReceived port len fcsOk tagged vid kind ce pl s uncorr an pn = .next t) : t.m.wf = true := by
  unfold execFrameReceived at hs
  refine wf_of_doing ?_ h hs
  repeat' (first
    | (with_reducible first | exact keepsWf_pure _ | (refine keepsWf_getThen fun s hs => ?_))
    | (with_reducible first | (refine keepsWf_bind ?_ fun _ => ?_) | refine keepsWf_whenA ?_ | apply keepsWf_addReg)
    | (with_reducible first | apply keepsWf_portCount | apply keepsWf_dropFrame | apply keepsWf_macsecPass)
    | (with_reducible first | apply keepsWf_passFrame | refine keepsWf_ite ?_ ?_)
    | split | dsimp only)

theorem wf_execPortLinkUp (port : Nat) {s t : State} (h : s.m.wf = true)
    (hs : execPortLinkUp port s = .next t) : t.m.wf = true := by
  unfold execPortLinkUp at hs
  refine wf_of_doing ?_ h hs
  repeat' (first
    | (with_reducible first | exact keepsWf_pure _ | (refine keepsWf_getThen fun s hs => ?_))
    | (with_reducible first | (refine keepsWf_bind ?_ fun _ => ?_) | refine keepsWf_whenA ?_ | apply keepsWf_setField)
    | split | dsimp only)

theorem wf_execPortLinkDown (port fault : Nat) {s t : State} (h : s.m.wf = true)
    (hs : execPortLinkDown port s fault = .next t) : t.m.wf = true := by
  unfold execPortLinkDown at hs
  refine wf_of_doing ?_ h hs
  repeat' (first
    | (with_reducible first | exact keepsWf_pure _ | (refine keepsWf_getThen fun s hs => ?_))
    | (with_reducible first | (refine keepsWf_bind ?_ fun _ => ?_) | refine keepsWf_whenA ?_ | apply keepsWf_setField)
    | (with_reducible first | apply keepsWf_linkDown | refine keepsWf_ite ?_ ?_)
    | split | dsimp only)

theorem wf_execTrnTakeover (writer value : Nat) {s t : State} (h : s.m.wf = true)
    (hs : execTrnTakeover value s writer = .next t) : t.m.wf = true := by
  unfold execTrnTakeover at hs
  refine wf_of_doing ?_ h hs
  repeat' (first
    | (with_reducible first | exact keepsWf_pure _ | apply keepsWf_regAction | apply keepsWf_takeover)
    | split | dsimp only)

theorem wf_execTakeoverAdvertise (n : Nat) {s t : State} (h : s.m.wf = true)
    (hs : execTakeoverAdvertise n s = .next t) : t.m.wf = true := by
  unfold execTakeoverAdvertise at hs
  refine wf_of_doing ?_ h hs
  repeat' (first
    | (with_reducible first | exact keepsWf_pure _ | (refine keepsWf_getThen fun s hs => ?_))
    | (with_reducible first | (refine keepsWf_bind ?_ fun _ => ?_) | refine keepsWf_whenA ?_)
    | (with_reducible first | (refine keepsWf_forA fun _ => ?_) | apply keepsWf_emitFrame | refine keepsWf_ite ?_ ?_)
    | split | dsimp only)

end Sys2Proof.Machine
end

