-- ==== Sys2Proof/Laws/WfChecking.lean ====
section
/-! SUPPORT. Every operation of Machine/Checking.lean keeps the canonical form. -/

namespace Sys2Proof.Machine

theorem keepsWf_mapChanged : KeepsWf (mapChanged) := by
  unfold mapChanged
  repeat' (first
    | (with_reducible first | exact keepsWf_pure _ | (refine keepsWf_getThen fun s hs => ?_))
    | (with_reducible first | (refine keepsWf_bind ?_ fun _ => ?_) | apply keepsWf_wr | apply keepsWf_addReg)
    | split | dsimp only)

theorem keepsWf_setMap (n mode partner pos : Nat) : KeepsWf (setMap n mode partner pos) := by
  unfold setMap
  repeat' (first
    | (with_reducible first | exact keepsWf_pure _ | apply keepsWf_wr)
    | split | dsimp only)

theorem keepsWf_writeCapture (pos : Nat) : KeepsWf (writeCapture pos) := by
  unfold writeCapture
  repeat' (first
    | (with_reducible first | exact hs | exact keepsWf_pure _ | (refine keepsWf_modify fun s hs => ?_))
    | (with_reducible first | refine M.wf_overlay _ _ ?_)
    | split | dsimp only | exact (M.wf_congr ⟨rfl, rfl, rfl, rfl, rfl, rfl, rfl, rfl, rfl, rfl, rfl⟩).trans hs)

theorem keepsWf_coreLog (kind core step : Nat) (pl : List Byte) : KeepsWf (coreLog kind core step pl) := by
  unfold coreLog
  repeat' (first
    | (with_reducible first | exact keepsWf_pure _ | (refine keepsWf_getThen fun s hs => ?_))
    | (with_reducible first | (refine keepsWf_bind ?_ fun _ => ?_) | apply keepsWf_logAdd)
    | split | dsimp only)

theorem keepsWf_coreFatal (core cause : Nat) : KeepsWf (coreFatal core cause) := by
  unfold coreFatal
  repeat' (first
    | (with_reducible first | exact keepsWf_pure _ | (refine keepsWf_bind ?_ fun _ => ?_) | apply keepsWf_updCore)
    | (with_reducible first | apply keepsWf_endJobsOn | apply keepsWf_coreLog)
    | split | dsimp only)

theorem keepsWf_missAt (pos : Nat) : KeepsWf (missAt pos) := by
  unfold missAt
  repeat' (first
    | (with_reducible first | exact keepsWf_pure _ | (refine keepsWf_getThen fun s hs => ?_))
    | (with_reducible first | (refine keepsWf_bind ?_ fun _ => ?_) | (refine keepsWf_forA fun _ => ?_))
    | (with_reducible first | apply keepsWf_addReg | apply keepsWf_getCore | apply keepsWf_updCore)
    | (with_reducible first | refine keepsWf_ite ?_ ?_)
    | split | dsimp only)

theorem keepsWf_beginMove (doubled : Bool) (n : Nat) : KeepsWf (beginMove doubled n) := by
  unfold beginMove
  repeat' (first
    | (with_reducible first | exact keepsWf_pure _ | (refine keepsWf_getThen fun s hs => ?_))
    | (with_reducible first | (refine keepsWf_bind ?_ fun _ => ?_) | apply keepsWf_updCore | apply keepsWf_setMap)
    | (with_reducible first | apply keepsWf_coreFatal | apply keepsWf_missAt | refine keepsWf_ite ?_ ?_)
    | split | dsimp only)

theorem keepsWf_quarantine (pos cause : Nat) : KeepsWf (quarantine pos cause) := by
  unfold quarantine
  repeat' (first
    | (with_reducible first | exact keepsWf_pure _ | (refine keepsWf_getThen fun s hs => ?_))
    | (with_reducible first | (refine keepsWf_bind ?_ fun _ => ?_) | refine keepsWf_whenA ?_)
    | (with_reducible first | (refine keepsWf_forA fun _ => ?_) | apply keepsWf_setField | apply keepsWf_updPos)
    | (with_reducible first | apply keepsWf_logAdd | apply keepsWf_healthAppend | apply keepsWf_mapChanged)
    | (with_reducible first | apply keepsWf_missAt | apply keepsWf_beginMove)
    | split | dsimp only)

theorem keepsWf_applyHeld (n : Nat) : KeepsWf (applyHeld n) := by
  unfold applyHeld
  repeat' (first
    | (with_reducible first | exact hs | exact keepsWf_pure _ | (refine keepsWf_bind ?_ fun _ => ?_))
    | (with_reducible first | refine keepsWf_whenA ?_ | (refine keepsWf_forA fun _ => ?_) | apply keepsWf_getCore)
    | (with_reducible first | apply keepsWf_updCore | apply keepsWf_updRing | apply keepsWf_engEvent)
    | (with_reducible first | apply keepsWf_throwPass | (refine keepsWf_modify fun s hs => ?_))
    | (with_reducible first | refine keepsWf_ite ?_ ?_)
    | split | dsimp only | exact (M.wf_congr ⟨rfl, rfl, rfl, rfl, rfl, rfl, rfl, rfl, rfl, rfl, rfl⟩).trans hs)

theorem keepsWf_resumeAt (n pos cause : Nat) : KeepsWf (resumeAt n pos cause) := by
  unfold resumeAt
  repeat' (first
    | (with_reducible first | exact keepsWf_pure _ | (refine keepsWf_getThen fun s hs => ?_))
    | (with_reducible first | (refine keepsWf_bind ?_ fun _ => ?_) | (refine keepsWf_forA fun _ => ?_))
    | (with_reducible first | apply keepsWf_wr | apply keepsWf_posEvent | apply keepsWf_ctlInterrupt)
    | (with_reducible first | apply keepsWf_setPoint | apply keepsWf_syncEngine)
    | split | dsimp only)

theorem keepsWf_clearCounters (pos : Nat) : KeepsWf (clearCounters pos) := by
  unfold clearCounters
  repeat' (first
    | (with_reducible first | exact hs | exact keepsWf_pure _ | (refine keepsWf_modify fun s hs => ?_))
    | (with_reducible first | refine M.wf_setReg _ _ ?_ | refine M.wf_filterRegs _ ?_)
    | split | dsimp only | exact (M.wf_congr ⟨rfl, rfl, rfl, rfl, rfl, rfl, rfl, rfl, rfl, rfl, rfl⟩).trans hs)

theorem keepsWf_moveToBench (n b : Nat) : KeepsWf (moveToBench n b) := by
  unfold moveToBench
  repeat' (first
    | (with_reducible first | exact keepsWf_pure _ | (refine keepsWf_getThen fun s hs => ?_))
    | (with_reducible first | (refine keepsWf_bind ?_ fun _ => ?_) | apply keepsWf_wr | apply keepsWf_setField)
    | (with_reducible first | apply keepsWf_updPos | apply keepsWf_raiseEvent | apply keepsWf_saveSwitch)
    | (with_reducible first | apply keepsWf_mapChanged | apply keepsWf_setMap | apply keepsWf_coreLog)
    | (with_reducible first | apply keepsWf_missAt | apply keepsWf_resumeAt | apply keepsWf_clearCounters)
    | split | dsimp only)

theorem keepsWf_moveToHost (n h : Nat) : KeepsWf (moveToHost n h) := by
  unfold moveToHost
  repeat' (first
    | (with_reducible first | exact keepsWf_pure _ | (refine keepsWf_getThen fun s hs => ?_))
    | (with_reducible first | (refine keepsWf_bind ?_ fun _ => ?_) | refine keepsWf_whenA ?_ | apply keepsWf_setField)
    | (with_reducible first | apply keepsWf_updPos | apply keepsWf_posEvent | apply keepsWf_raiseEvent)
    | (with_reducible first | apply keepsWf_saveSwitch | apply keepsWf_ctlInterrupt | apply keepsWf_mapChanged)
    | (with_reducible first | apply keepsWf_setMap | apply keepsWf_coreLog)
    | split | dsimp only)

theorem keepsWf_substitute (n : Nat) : KeepsWf (substitute n) := by
  unfold substitute
  repeat' (first
    | (with_reducible first | exact keepsWf_pure _ | (refine keepsWf_getThen fun s hs => ?_))
    | (with_reducible first | (refine keepsWf_bind ?_ fun _ => ?_) | refine keepsWf_whenA ?_ | apply keepsWf_updCore)
    | (with_reducible first | apply keepsWf_coreFatal | apply keepsWf_applyHeld | apply keepsWf_moveToBench)
    | (with_reducible first | apply keepsWf_moveToHost | refine keepsWf_ite ?_ ?_)
    | split | dsimp only)

theorem keepsWf_captureDone (core : Nat) : KeepsWf (captureDone core) := by
  unfold captureDone
  repeat' (first
    | (with_reducible first | exact keepsWf_pure _ | (refine keepsWf_getThen fun s hs => ?_))
    | (with_reducible first | (refine keepsWf_bind ?_ fun _ => ?_) | apply keepsWf_updRing | apply keepsWf_writeCapture)
    | (with_reducible first | refine keepsWf_ite ?_ ?_)
    | split | dsimp only)

theorem keepsWf_updShadow (core : Nat) (h : Shadow) (f : Option Shadow) : KeepsWf (updShadow core h f) := by
  unfold updShadow
  repeat' (first
    | (with_reducible first | exact keepsWf_pure _ | apply keepsWf_updCore | refine keepsWf_ite ?_ ?_)
    | split | dsimp only)

theorem keepsWf_moduleStop (trigger o sh d : Nat) : KeepsWf (moduleStop trigger o sh d) := by
  unfold moduleStop
  repeat' (first
    | (with_reducible first | exact hs | exact keepsWf_pure _ | (refine keepsWf_getThen fun s hs => ?_))
    | (with_reducible first | (refine keepsWf_bind ?_ fun _ => ?_) | refine keepsWf_whenA ?_)
    | (with_reducible first | (refine keepsWf_forA fun _ => ?_) | apply keepsWf_setField | apply keepsWf_hostEmit)
    | (with_reducible first | apply keepsWf_freeVal | apply keepsWf_logAdd | apply keepsWf_failColl)
    | (with_reducible first | apply keepsWf_complete | apply keepsWf_endJob | apply keepsWf_healthAppend)
    | (with_reducible first | (refine keepsWf_modify fun s hs => ?_) | refine keepsWf_ite ?_ ?_)
    | split | dsimp only | exact (M.wf_congr ⟨rfl, rfl, rfl, rfl, rfl, rfl, rfl, rfl, rfl, rfl, rfl⟩).trans hs)

theorem keepsWf_decided (core step trigger row o sh d x : Nat) : KeepsWf (decided core step trigger row o sh d x) := by
  unfold decided
  repeat' (first
    | (with_reducible first | exact keepsWf_pure _ | (refine keepsWf_getThen fun s hs => ?_))
    | (with_reducible first | (refine keepsWf_bind ?_ fun _ => ?_) | refine keepsWf_whenA ?_ | apply keepsWf_inc64)
    | (with_reducible first | apply keepsWf_posEvent | apply keepsWf_saveSwitch | apply keepsWf_coreLog)
    | split | dsimp only)

theorem keepsWf_csumFault (pos : Nat) : KeepsWf (csumFault pos) := by
  unfold csumFault
  repeat' (first
    | (with_reducible first | exact keepsWf_pure _ | (refine keepsWf_bind ?_ fun _ => ?_) | apply keepsWf_setField)
    | (with_reducible first | apply keepsWf_updPos | apply keepsWf_logAdd | apply keepsWf_healthAppend)
    | split | dsimp only)

theorem keepsWf_productSettled (core x : Nat) (poison : Bool) : KeepsWf (productSettled core x poison) := by
  unfold productSettled
  repeat' (first
    | (with_reducible first | exact keepsWf_pure _ | apply keepsWf_updRing | refine keepsWf_ite ?_ ?_)
    | split | dsimp only)

theorem keepsWf_decideProduct (core slot o p d : Nat) : KeepsWf (decideProduct core slot o p d) := by
  unfold decideProduct
  repeat' (first
    | (with_reducible first | exact keepsWf_pure _ | (refine keepsWf_getThen fun s hs => ?_))
    | (with_reducible first | (refine keepsWf_bind ?_ fun _ => ?_) | refine keepsWf_whenA ?_ | apply keepsWf_updSlot)
    | (with_reducible first | apply keepsWf_engEventX | apply keepsWf_quarantine | apply keepsWf_moduleStop)
    | (with_reducible first | apply keepsWf_decided | apply keepsWf_csumFault | apply keepsWf_productSettled)
    | (with_reducible first | refine keepsWf_ite ?_ ?_)
    | split | dsimp only)

theorem keepsWf_decideDrain (core slot read1 read2 rho : Nat) : KeepsWf (decideDrain core slot read1 read2 rho) := by
  unfold decideDrain
  repeat' (first
    | (with_reducible first | exact keepsWf_pure _ | (refine keepsWf_getThen fun s hs => ?_))
    | (with_reducible first | (refine keepsWf_bind ?_ fun _ => ?_) | refine keepsWf_whenA ?_ | apply keepsWf_setField)
    | (with_reducible first | apply keepsWf_updRing | apply keepsWf_freeVal | apply keepsWf_engEventX)
    | (with_reducible first | apply keepsWf_poisonLine | apply keepsWf_moduleStop | apply keepsWf_decided)
    | (with_reducible first | refine keepsWf_ite ?_ ?_)
    | split | dsimp only)

theorem keepsWf_sendNotices (core : Nat) (h : Shadow) (count : Nat) : KeepsWf (sendNotices core h count) := by
  unfold sendNotices
  repeat' (first
    | (with_reducible first | exact keepsWf_pure _ | (refine keepsWf_getThen fun s hs => ?_))
    | (with_reducible first | (refine keepsWf_bind ?_ fun _ => ?_) | refine keepsWf_whenA ?_)
    | (with_reducible first | (refine keepsWf_forA fun _ => ?_) | apply keepsWf_readBytes | apply keepsWf_postMessage)
    | split | dsimp only)

theorem keepsWf_decideShadow (core slot o sh d : Nat) : KeepsWf (decideShadow core slot o sh d) := by
  unfold decideShadow
  repeat' (first
    | (with_reducible first | exact keepsWf_pure _ | (refine keepsWf_getThen fun s hs => ?_))
    | (with_reducible first | (refine keepsWf_bind ?_ fun _ => ?_) | refine keepsWf_whenA ?_ | apply keepsWf_inc64)
    | (with_reducible first | apply keepsWf_hostEmit | apply keepsWf_coreLog | apply keepsWf_quarantine)
    | (with_reducible first | apply keepsWf_updShadow | apply keepsWf_moduleStop | apply keepsWf_decided)
    | (with_reducible first | apply keepsWf_sendNotices | refine keepsWf_ite ?_ ?_)
    | split | dsimp only)

theorem keepsWf_showLag : KeepsWf (showLag) := by
  unfold showLag
  repeat' (first
    | (with_reducible first | exact keepsWf_pure _ | (refine keepsWf_getThen fun s hs => ?_))
    | (with_reducible first | (refine keepsWf_bind ?_ fun _ => ?_) | apply keepsWf_setField)
    | split | dsimp only)

theorem keepsWf_kernelPass (pos kernel : Nat) : KeepsWf (kernelPass pos kernel) := by
  unfold kernelPass
  repeat' (first
    | (with_reducible first | exact keepsWf_pure _ | (refine keepsWf_getThen fun s hs => ?_))
    | (with_reducible first | (refine keepsWf_bind ?_ fun _ => ?_) | refine keepsWf_whenA ?_ | apply keepsWf_setField)
    | (with_reducible first | apply keepsWf_updPos | apply keepsWf_posEvent | apply keepsWf_logAdd)
    | (with_reducible first | apply keepsWf_healthAppend | refine keepsWf_ite ?_ ?_)
    | split | dsimp only)

theorem keepsWf_kernelFail (pos kernel : Nat) : KeepsWf (kernelFail pos kernel) := by
  unfold kernelFail
  repeat' (first
    | (with_reducible first | exact keepsWf_pure _ | (refine keepsWf_getThen fun s hs => ?_))
    | (with_reducible first | (refine keepsWf_bind ?_ fun _ => ?_) | apply keepsWf_setField | apply keepsWf_updPos)
    | (with_reducible first | apply keepsWf_hostEmit | apply keepsWf_freeVal | apply keepsWf_logAdd)
    | (with_reducible first | apply keepsWf_quarantine | apply keepsWf_csumFault | refine keepsWf_ite ?_ ?_)
    | split | dsimp only)

theorem keepsWf_practiceData (pos kernel : Nat) : KeepsWf (practiceData pos kernel) := by
  unfold practiceData
  repeat' (first
    | (with_reducible first | exact hs | exact keepsWf_pure _ | (refine keepsWf_getThen fun s hs => ?_))
    | (with_reducible first | (refine keepsWf_bind ?_ fun _ => ?_) | refine keepsWf_whenA ?_)
    | (with_reducible first | apply keepsWf_writeCapture | (refine keepsWf_modify fun s hs => ?_))
    | (with_reducible first | refine M.wf_overlay _ _ ?_ | refine keepsWf_ite ?_ ?_)
    | split | dsimp only | exact (M.wf_congr ⟨rfl, rfl, rfl, rfl, rfl, rfl, rfl, rfl, rfl, rfl, rfl⟩).trans hs)

theorem keepsWf_flushLog : KeepsWf (flushLog) := by
  unfold flushLog
  repeat' (first
    | (with_reducible first | exact hs | exact keepsWf_pure _ | (refine keepsWf_getThen fun s hs => ?_))
    | (with_reducible first | (refine keepsWf_bind ?_ fun _ => ?_) | refine keepsWf_whenA ?_)
    | (with_reducible first | (refine keepsWf_forA fun _ => ?_) | apply keepsWf_writeBytes)
    | (with_reducible first | (refine keepsWf_modify fun s hs => ?_))
    | split | dsimp only | exact (M.wf_congr ⟨rfl, rfl, rfl, rfl, rfl, rfl, rfl, rfl, rfl, rfl, rfl⟩).trans hs)

theorem keepsWf_logRead (x : Nat) : KeepsWf (logRead x) := by
  unfold logRead
  repeat' (first
    | (with_reducible first | exact keepsWf_pure _ | (refine keepsWf_getThen fun s hs => ?_))
    | (with_reducible first | (refine keepsWf_bind ?_ fun _ => ?_) | apply keepsWf_readBytes | refine keepsWf_ite ?_ ?_)
    | split | dsimp only)

theorem wf_execSubstitutionStopped (core : Nat) {s t : State} (h : s.m.wf = true)
    (hs : execSubstitutionStopped core s = .next t) : t.m.wf = true := by
  unfold execSubstitutionStopped at hs
  refine wf_of_doing ?_ h hs
  repeat' (first
    | (with_reducible first | exact keepsWf_pure _ | apply keepsWf_substitute)
    | split | dsimp only)

theorem wf_execSubstitutionStopTimeout (core : Nat) {s t : State} (h : s.m.wf = true)
    (hs : execSubstitutionStopTimeout core s = .next t) : t.m.wf = true := by
  unfold execSubstitutionStopTimeout at hs
  refine wf_of_doing ?_ h hs
  repeat' (first
    | (with_reducible first | exact keepsWf_pure _ | (refine keepsWf_getThen fun s hs => ?_))
    | (with_reducible first | (refine keepsWf_bind ?_ fun _ => ?_) | refine keepsWf_whenA ?_ | apply keepsWf_coreFatal)
    | split | dsimp only)

theorem wf_execDoublingSwitch (pos ranCycles : Nat) {s t : State} (h : s.m.wf = true)
    (hs : execDoublingSwitch pos ranCycles s = .next t) : t.m.wf = true := by
  unfold execDoublingSwitch at hs
  refine wf_of_doing ?_ h hs
  repeat' (first
    | (with_reducible first | exact keepsWf_pure _ | (refine keepsWf_getThen fun s hs => ?_))
    | (with_reducible first | (refine keepsWf_bind ?_ fun _ => ?_) | refine keepsWf_whenA ?_ | apply keepsWf_updPos)
    | (with_reducible first | apply keepsWf_saveSwitch | apply keepsWf_resumeAt | refine keepsWf_ite ?_ ?_)
    | split | dsimp only)

theorem wf_execCaptureCopyDone (core : Nat) {s t : State} (h : s.m.wf = true)
    (hs : execCaptureCopyDone core s = .next t) : t.m.wf = true := by
  unfold execCaptureCopyDone at hs
  refine wf_of_doing ?_ h hs
  repeat' (first
    | (with_reducible first | exact keepsWf_pure _ | apply keepsWf_captureDone)
    | split | dsimp only)

theorem wf_execShadowComparison (core slot : Nat) (agree : Bool) {s t : State} (h : s.m.wf = true)
    (hs : execShadowComparison core slot agree s = .next t) : t.m.wf = true := by
  unfold execShadowComparison at hs
  refine wf_of_doing ?_ h hs
  repeat' (first
    | (with_reducible first | exact keepsWf_pure _ | (refine keepsWf_getThen fun s hs => ?_))
    | (with_reducible first | (refine keepsWf_bind ?_ fun _ => ?_) | apply keepsWf_updPos | apply keepsWf_posEvent)
    | (with_reducible first | apply keepsWf_agree | apply keepsWf_updShadow | refine keepsWf_ite ?_ ?_)
    | split | dsimp only)

theorem wf_execDecisionComplete (core slot trigger o other d : Nat) {s t : State} (h : s.m.wf = true)
    (hs : execDecisionComplete core slot trigger o other d s = .next t) : t.m.wf = true := by
  unfold execDecisionComplete at hs
  refine wf_of_doing ?_ h hs
  repeat' (first
    | (with_reducible first | exact keepsWf_pure _ | apply keepsWf_decideProduct | apply keepsWf_decideDrain)
    | (with_reducible first | apply keepsWf_decideShadow)
    | split | dsimp only)

theorem wf_execPracticeEntry (pos idleUs : Nat) {s t : State} (h : s.m.wf = true)
    (hs : execPracticeEntry pos idleUs s = .next t) : t.m.wf = true := by
  unfold execPracticeEntry at hs
  refine wf_of_doing ?_ h hs
  repeat' (first
    | (with_reducible first | exact keepsWf_pure _ | (refine keepsWf_getThen fun s hs => ?_))
    | (with_reducible first | (refine keepsWf_bind ?_ fun _ => ?_) | refine keepsWf_whenA ?_ | apply keepsWf_updPos)
    | (with_reducible first | apply keepsWf_saveSwitch)
    | split | dsimp only)

theorem wf_execPracticeKernelDone (pos kernel : Nat) (pass work last : Bool) {s t : State} (h : s.m.wf = true)
    (hs : execPracticeKernelDone pos kernel pass work last s = .next t) : t.m.wf = true := by
  unfold execPracticeKernelDone at hs
  refine wf_of_doing ?_ h hs
  repeat' (first
    | (with_reducible first | exact keepsWf_pure _ | (refine keepsWf_getThen fun s hs => ?_))
    | (with_reducible first | (refine keepsWf_bind ?_ fun _ => ?_) | refine keepsWf_whenA ?_)
    | (with_reducible first | (refine keepsWf_forA fun _ => ?_) | apply keepsWf_upd | apply keepsWf_updPos)
    | (with_reducible first | apply keepsWf_applyHeld | apply keepsWf_showLag | apply keepsWf_kernelPass)
    | (with_reducible first | apply keepsWf_kernelFail | apply keepsWf_practiceData | refine keepsWf_ite ?_ ?_)
    | split | dsimp only)

theorem wf_execPracticeLag (pos ageS : Nat) {s t : State} (h : s.m.wf = true)
    (hs : execPracticeLag pos ageS s = .next t) : t.m.wf = true := by
  unfold execPracticeLag at hs
  refine wf_of_doing ?_ h hs
  repeat' (first
    | (with_reducible first | exact keepsWf_pure _ | (refine keepsWf_bind ?_ fun _ => ?_) | apply keepsWf_setField)
    | (with_reducible first | apply keepsWf_showLag)
    | split | dsimp only)

theorem wf_execErrorLogRecord (kind island logical : Nat) (payload : List Byte) {s t : State} (h : s.m.wf = true)
    (hs : execErrorLogRecord kind island logical payload s = .next t) : t.m.wf = true := by
  unfold execErrorLogRecord at hs
  refine wf_of_doing ?_ h hs
  repeat' (first
    | (with_reducible first | exact keepsWf_pure _ | (refine keepsWf_bind ?_ fun _ => ?_) | apply keepsWf_logAdd)
    | (with_reducible first | apply keepsWf_flushLog)
    | split | dsimp only)

theorem wf_execReadLog (input : List Byte) {s t : State} (h : s.m.wf = true)
    (hs : execReadLog input s = .next t) : t.m.wf = true := by
  unfold execReadLog at hs
  refine wf_of_doing ?_ h hs
  repeat' (first
    | (with_reducible first | exact keepsWf_pure _ | (refine keepsWf_getThen fun s hs => ?_))
    | (with_reducible first | (refine keepsWf_bind ?_ fun _ => ?_) | (refine keepsWf_mapA fun _ => ?_))
    | (with_reducible first | apply keepsWf_mailbox | apply keepsWf_invalidInput | apply keepsWf_logRead)
    | (with_reducible first | refine keepsWf_ite ?_ ?_)
    | split | dsimp only)

end Sys2Proof.Machine
end

