-- ==== Sys2Proof/Laws/WfPower.lean ====
section
/-! SUPPORT. Every operation of Machine/Power.lean keeps the canonical form. -/

namespace Sys2Proof.Machine

theorem keepsWf_updGov (f : Gov → Gov) : KeepsWf (updGov f) := by
  unfold updGov
  repeat' (first
    | (with_reducible first | exact hs | exact keepsWf_pure _ | (refine keepsWf_modify fun s hs => ?_))
    | split | dsimp only | exact (M.wf_congr ⟨rfl, rfl, rfl, rfl, rfl, rfl, rfl, rfl, rfl, rfl, rfl⟩).trans hs)

theorem keepsWf_grantWaits (n e : Nat) : KeepsWf (grantWaits n e) := by
  unfold grantWaits
  repeat' (first
    | (with_reducible first | exact keepsWf_pure _ | (refine keepsWf_getThen fun s hs => ?_))
    | (with_reducible first | (refine keepsWf_bind ?_ fun _ => ?_) | refine keepsWf_whenA ?_ | apply keepsWf_updRing)
    | split | dsimp only)

theorem keepsWf_grantIsland (i x : Nat) : KeepsWf (grantIsland i x) := by
  unfold grantIsland
  repeat' (first
    | (with_reducible first | exact keepsWf_pure _ | (refine keepsWf_getThen fun s hs => ?_))
    | (with_reducible first | (refine keepsWf_bind ?_ fun _ => ?_) | refine keepsWf_whenA ?_)
    | (with_reducible first | (refine keepsWf_forA fun _ => ?_) | apply keepsWf_posEvent | apply keepsWf_addBalance)
    | (with_reducible first | apply keepsWf_grantWaits)
    | split | dsimp only)

theorem keepsWf_window (counts : List (Nat × Nat × Nat)) (temps : List Nat) : KeepsWf (window counts temps) := by
  unfold window
  repeat' (first
    | (with_reducible first | exact keepsWf_pure _ | (refine keepsWf_getThen fun s hs => ?_))
    | (with_reducible first | (refine keepsWf_bind ?_ fun _ => ?_) | refine keepsWf_whenA ?_)
    | (with_reducible first | (refine keepsWf_forA fun _ => ?_) | apply keepsWf_rd | apply keepsWf_wr)
    | (with_reducible first | apply keepsWf_setField | apply keepsWf_chargeUnits | apply keepsWf_updGov)
    | (with_reducible first | apply keepsWf_grantIsland | refine keepsWf_ite ?_ ?_)
    | split | dsimp only)

theorem keepsWf_compareReading (meas est : Nat) : KeepsWf (compareReading meas est) := by
  unfold compareReading
  repeat' (first
    | (with_reducible first | exact keepsWf_pure _ | (refine keepsWf_getThen fun s hs => ?_))
    | (with_reducible first | (refine keepsWf_bind ?_ fun _ => ?_) | refine keepsWf_whenA ?_ | apply keepsWf_wr)
    | (with_reducible first | apply keepsWf_setField | apply keepsWf_logAdd | apply keepsWf_raiseEvent)
    | (with_reducible first | apply keepsWf_agree | apply keepsWf_updGov | refine keepsWf_ite ?_ ?_)
    | split | dsimp only)

theorem keepsWf_failedReading : KeepsWf (failedReading) := by
  unfold failedReading
  repeat' (first
    | (with_reducible first | exact keepsWf_pure _ | (refine keepsWf_getThen fun s hs => ?_))
    | (with_reducible first | (refine keepsWf_bind ?_ fun _ => ?_) | refine keepsWf_whenA ?_ | apply keepsWf_setField)
    | (with_reducible first | apply keepsWf_raiseEvent | apply keepsWf_updGov)
    | split | dsimp only)

theorem keepsWf_heatStep : KeepsWf (heatStep) := by
  unfold heatStep
  repeat' (first
    | (with_reducible first | exact keepsWf_pure _ | (refine keepsWf_getThen fun s hs => ?_))
    | (with_reducible first | (refine keepsWf_bind ?_ fun _ => ?_) | refine keepsWf_whenA ?_ | apply keepsWf_inc64)
    | (with_reducible first | apply keepsWf_updGov | refine keepsWf_ite ?_ ?_)
    | split | dsimp only)

theorem keepsWf_evaluate (readOk : Bool) (pMeas : Nat) : KeepsWf (evaluate readOk pMeas) := by
  unfold evaluate
  repeat' (first
    | (with_reducible first | exact keepsWf_pure _ | (refine keepsWf_getThen fun s hs => ?_))
    | (with_reducible first | (refine keepsWf_bind ?_ fun _ => ?_) | refine keepsWf_whenA ?_)
    | (with_reducible first | (refine keepsWf_forA fun _ => ?_) | apply keepsWf_wr | apply keepsWf_inc64)
    | (with_reducible first | apply keepsWf_setField | apply keepsWf_setPoint | apply keepsWf_updGov)
    | (with_reducible first | apply keepsWf_compareReading | apply keepsWf_failedReading | apply keepsWf_heatStep)
    | (with_reducible first | refine keepsWf_ite ?_ ?_)
    | split | dsimp only)

theorem keepsWf_enterThermal (st : Nat) : KeepsWf (enterThermal st) := by
  unfold enterThermal
  repeat' (first
    | (with_reducible first | exact keepsWf_pure _ | (refine keepsWf_getThen fun s hs => ?_))
    | (with_reducible first | (refine keepsWf_bind ?_ fun _ => ?_) | apply keepsWf_setField | apply keepsWf_logAdd)
    | (with_reducible first | apply keepsWf_raiseEvent)
    | split | dsimp only)

theorem keepsWf_thermalShutdown : KeepsWf (thermalShutdown) := by
  unfold thermalShutdown
  repeat' (first
    | (with_reducible first | exact hs | exact keepsWf_pure _ | (refine keepsWf_getThen fun s hs => ?_))
    | (with_reducible first | (refine keepsWf_bind ?_ fun _ => ?_) | apply keepsWf_setField | apply keepsWf_healthAppend)
    | (with_reducible first | apply keepsWf_tearSlot | (refine keepsWf_modify fun s hs => ?_))
    | split | dsimp only | exact (M.wf_congr ⟨rfl, rfl, rfl, rfl, rfl, rfl, rfl, rfl, rfl, rfl, rfl⟩).trans hs)

theorem wf_execGovernorWindow (units activity : List (Nat × Nat × Nat)) (temps : List Nat) {s t : State} (h : s.m.wf = true)
    (hs : execGovernorWindow units activity temps s = .next t) : t.m.wf = true := by
  unfold execGovernorWindow at hs
  refine wf_of_doing ?_ h hs
  repeat' (first
    | (with_reducible first | exact keepsWf_pure _ | apply keepsWf_window)
    | split | dsimp only)

theorem wf_execGovernorEvaluation (readOk : Bool) (pMeas : Nat) {s t : State} (h : s.m.wf = true)
    (hs : execGovernorEvaluation readOk pMeas s = .next t) : t.m.wf = true := by
  unfold execGovernorEvaluation at hs
  refine wf_of_doing ?_ h hs
  repeat' (first
    | (with_reducible first | exact keepsWf_pure _ | apply keepsWf_evaluate)
    | split | dsimp only)

theorem wf_execPositionOff (pos idleMs : Nat) {s t : State} (h : s.m.wf = true)
    (hs : execPositionOff pos idleMs s = .next t) : t.m.wf = true := by
  unfold execPositionOff at hs
  refine wf_of_doing ?_ h hs
  repeat' (first
    | (with_reducible first | exact keepsWf_pure _ | (refine keepsWf_getThen fun s hs => ?_))
    | (with_reducible first | (refine keepsWf_bind ?_ fun _ => ?_) | refine keepsWf_whenA ?_ | apply keepsWf_setField)
    | (with_reducible first | apply keepsWf_updPos)
    | split | dsimp only)

theorem wf_execPositionWakeDone (pos : Nat) {s t : State} (h : s.m.wf = true)
    (hs : execPositionWakeDone pos s = .next t) : t.m.wf = true := by
  unfold execPositionWakeDone at hs
  refine wf_of_doing ?_ h hs
  repeat' (first
    | (with_reducible first | exact keepsWf_pure _ | (refine keepsWf_getThen fun s hs => ?_))
    | (with_reducible first | (refine keepsWf_bind ?_ fun _ => ?_) | refine keepsWf_whenA ?_ | apply keepsWf_setField)
    | (with_reducible first | apply keepsWf_updPos | apply keepsWf_setPoint)
    | split | dsimp only)

theorem wf_execOperatingPointReached (pos : Nat) {s t : State} (h : s.m.wf = true)
    (hs : execOperatingPointReached pos s = .next t) : t.m.wf = true := by
  unfold execOperatingPointReached at hs
  refine wf_of_doing ?_ h hs
  repeat' (first
    | (with_reducible first | exact keepsWf_pure _ | (refine keepsWf_getThen fun s hs => ?_))
    | (with_reducible first | (refine keepsWf_bind ?_ fun _ => ?_) | refine keepsWf_whenA ?_ | apply keepsWf_updPos)
    | split | dsimp only)

theorem wf_execVoltageTrim (island : Nat) (up down : Bool) {s t : State} (h : s.m.wf = true)
    (hs : execVoltageTrim island up down s = .next t) : t.m.wf = true := by
  unfold execVoltageTrim at hs
  refine wf_of_doing ?_ h hs
  repeat' (first
    | (with_reducible first | exact keepsWf_pure _ | (refine keepsWf_getThen fun s hs => ?_))
    | (with_reducible first | (refine keepsWf_bind ?_ fun _ => ?_) | refine keepsWf_whenA ?_ | apply keepsWf_wr)
    | (with_reducible first | apply keepsWf_logAdd | apply keepsWf_raiseEvent | apply keepsWf_healthAppend)
    | (with_reducible first | refine keepsWf_ite ?_ ?_)
    | split | dsimp only)

theorem wf_execDroopDetect (island fallMv : Nat) {s t : State} (h : s.m.wf = true)
    (hs : execDroopDetect island fallMv s = .next t) : t.m.wf = true := by
  unfold execDroopDetect at hs
  refine wf_of_doing ?_ h hs
  repeat' (first
    | (with_reducible first | exact keepsWf_pure _ | (refine keepsWf_bind ?_ fun _ => ?_) | refine keepsWf_whenA ?_)
    | (with_reducible first | apply keepsWf_posEvent | apply keepsWf_updGov)
    | split | dsimp only)

theorem wf_execDroopRecovery (island cycles : Nat) {s t : State} (h : s.m.wf = true)
    (hs : execDroopRecovery island cycles s = .next t) : t.m.wf = true := by
  unfold execDroopRecovery at hs
  refine wf_of_doing ?_ h hs
  repeat' (first
    | (with_reducible first | exact keepsWf_pure _ | refine keepsWf_whenA ?_ | apply keepsWf_updGov)
    | split | dsimp only)

theorem wf_execThermalSample (readings : List Int) {s t : State} (h : s.m.wf = true)
    (hs : execThermalSample readings s = .next t) : t.m.wf = true := by
  unfold execThermalSample at hs
  refine wf_of_doing ?_ h hs
  repeat' (first
    | (with_reducible first | exact keepsWf_pure _ | (refine keepsWf_getThen fun s hs => ?_))
    | (with_reducible first | (refine keepsWf_bind ?_ fun _ => ?_) | refine keepsWf_whenA ?_)
    | (with_reducible first | (refine keepsWf_forA fun _ => ?_) | apply keepsWf_wr | apply keepsWf_setPoint)
    | (with_reducible first | apply keepsWf_updGov | apply keepsWf_enterThermal | apply keepsWf_thermalShutdown)
    | (with_reducible first | refine keepsWf_ite ?_ ?_)
    | split | dsimp only)

theorem wf_execThrottleExit (belowMs : Nat) {s t : State} (h : s.m.wf = true)
    (hs : execThrottleExit belowMs s = .next t) : t.m.wf = true := by
  unfold execThrottleExit at hs
  refine wf_of_doing ?_ h hs
  repeat' (first
    | (with_reducible first | exact keepsWf_pure _ | (refine keepsWf_getThen fun s hs => ?_))
    | (with_reducible first | (refine keepsWf_bind ?_ fun _ => ?_) | refine keepsWf_whenA ?_ | apply keepsWf_setField)
    | (with_reducible first | apply keepsWf_updGov)
    | split | dsimp only)

theorem wf_execHardLimitExit (belowMs : Nat) {s t : State} (h : s.m.wf = true)
    (hs : execHardLimitExit belowMs s = .next t) : t.m.wf = true := by
  unfold execHardLimitExit at hs
  refine wf_of_doing ?_ h hs
  repeat' (first
    | (with_reducible first | exact keepsWf_pure _ | (refine keepsWf_getThen fun s hs => ?_))
    | (with_reducible first | (refine keepsWf_bind ?_ fun _ => ?_) | refine keepsWf_whenA ?_ | apply keepsWf_setField)
    | (with_reducible first | apply keepsWf_updGov)
    | split | dsimp only)

end Sys2Proof.Machine
end

