-- ==== Sys2Proof/Laws/WfCounters.lean ====
section
/-! SUPPORT. Every operation of Machine/Counters.lean keeps the canonical form. -/

namespace Sys2Proof.Machine

theorem keepsWf_posSelWrite (pos c who value : Nat) : KeepsWf (posSelWrite pos c who value) := by
  unfold posSelWrite
  repeat' (first
    | (with_reducible first | exact keepsWf_pure _ | (refine keepsWf_bind ?_ fun _ => ?_) | refine keepsWf_whenA ?_)
    | (with_reducible first | apply keepsWf_wr | apply keepsWf_upd)
    | split | dsimp only)

theorem keepsWf_portSelWrite (n c value : Nat) : KeepsWf (portSelWrite n c value) := by
  unfold portSelWrite
  repeat' (first
    | (with_reducible first | exact keepsWf_pure _ | (refine keepsWf_bind ?_ fun _ => ?_) | refine keepsWf_whenA ?_)
    | (with_reducible first | apply keepsWf_wr | apply keepsWf_addReg)
    | split | dsimp only)

theorem keepsWf_relaySelWrite (e c value : Nat) : KeepsWf (relaySelWrite e c value) := by
  unfold relaySelWrite
  repeat' (first
    | (with_reducible first | exact keepsWf_pure _ | (refine keepsWf_bind ?_ fun _ => ?_) | refine keepsWf_whenA ?_)
    | (with_reducible first | apply keepsWf_wr | apply keepsWf_addReg)
    | split | dsimp only)

theorem keepsWf_selWrite (owner index counter value : Nat) : KeepsWf (selWrite owner index counter value) := by
  unfold selWrite
  repeat' (first
    | (with_reducible first | exact keepsWf_pure _ | (refine keepsWf_getThen fun s hs => ?_))
    | (with_reducible first | (refine keepsWf_bind ?_ fun _ => ?_) | refine keepsWf_whenA ?_ | apply keepsWf_posSelWrite)
    | (with_reducible first | apply keepsWf_portSelWrite | apply keepsWf_relaySelWrite)
    | split | dsimp only)

theorem keepsWf_counterSet (owner index counter value : Nat) : KeepsWf (counterSet owner index counter value) := by
  unfold counterSet
  repeat' (first
    | (with_reducible first | exact keepsWf_pure _ | refine keepsWf_whenA ?_ | apply keepsWf_wr)
    | split | dsimp only)

theorem keepsWf_bwLatch (n : Nat) : KeepsWf (bwLatch n) := by
  unfold bwLatch
  repeat' (first
    | (with_reducible first | exact keepsWf_pure _ | (refine keepsWf_bind ?_ fun _ => ?_) | apply keepsWf_rd)
    | (with_reducible first | apply keepsWf_wr)
    | split | dsimp only)

theorem keepsWf_scdCtl (value : Nat) : KeepsWf (scdCtl value) := by
  unfold scdCtl
  repeat' (first
    | (with_reducible first | exact keepsWf_pure _ | (refine keepsWf_getThen fun s hs => ?_))
    | (with_reducible first | (refine keepsWf_bind ?_ fun _ => ?_) | refine keepsWf_whenA ?_ | apply keepsWf_wr)
    | (with_reducible first | refine keepsWf_ite ?_ ?_)
    | split | dsimp only)

theorem wf_execCounterSelectWrite (writer owner index counter value : Nat) {s t : State} (h : s.m.wf = true)
    (hs : execCounterSelectWrite owner index counter value s writer = .next t) : t.m.wf = true := by
  unfold execCounterSelectWrite at hs
  refine wf_of_doing ?_ h hs
  repeat' (first
    | (with_reducible first | exact keepsWf_pure _ | apply keepsWf_regAction | apply keepsWf_selWrite)
    | split | dsimp only)

theorem wf_execCounterWrite (writer owner index counter value : Nat) {s t : State} (h : s.m.wf = true)
    (hs : execCounterWrite owner index counter value s writer = .next t) : t.m.wf = true := by
  unfold execCounterWrite at hs
  refine wf_of_doing ?_ h hs
  repeat' (first
    | (with_reducible first | exact keepsWf_pure _ | apply keepsWf_regAction | apply keepsWf_counterSet)
    | split | dsimp only)

theorem wf_execBandwidthWindowEnd (n tx rx : Nat) {s t : State} (h : s.m.wf = true)
    (hs : execBandwidthWindowEnd n tx rx s = .next t) : t.m.wf = true := by
  unfold execBandwidthWindowEnd at hs
  refine wf_of_doing ?_ h hs
  repeat' (first
    | (with_reducible first | exact keepsWf_pure _ | apply keepsWf_upd)
    | split | dsimp only)

theorem wf_execCntBwReadLatch (writer n : Nat) {s t : State} (h : s.m.wf = true)
    (hs : execCntBwReadLatch n s writer = .next t) : t.m.wf = true := by
  unfold execCntBwReadLatch at hs
  refine wf_of_doing ?_ h hs
  repeat' (first
    | (with_reducible first | exact keepsWf_pure _ | (refine keepsWf_bind ?_ fun _ => ?_) | apply keepsWf_rd)
    | (with_reducible first | apply keepsWf_regRead | apply keepsWf_bwLatch)
    | split | dsimp only)

theorem wf_execCntScdEnable (writer value : Nat) {s t : State} (h : s.m.wf = true)
    (hs : execCntScdEnable value s writer = .next t) : t.m.wf = true := by
  unfold execCntScdEnable at hs
  refine wf_of_doing ?_ h hs
  repeat' (first
    | (with_reducible first | exact keepsWf_pure _ | apply keepsWf_regAction | apply keepsWf_scdCtl)
    | split | dsimp only)

theorem wf_execScorecardTick {s t : State} (h : s.m.wf = true)
    (hs : execScorecardTick s = .next t) : t.m.wf = true := by
  unfold execScorecardTick at hs
  refine wf_of_doing ?_ h hs
  repeat' (first
    | (with_reducible first | exact keepsWf_pure _ | (refine keepsWf_getThen fun s hs => ?_))
    | (with_reducible first | (refine keepsWf_bind ?_ fun _ => ?_) | refine keepsWf_whenA ?_)
    | (with_reducible first | (refine keepsWf_forA fun _ => ?_) | apply keepsWf_wr | apply keepsWf_setField)
    | (with_reducible first | apply keepsWf_writeBytes)
    | split | dsimp only)

end Sys2Proof.Machine
end

