-- ==== Sys2Proof/Laws/WfHardware.lean ====
section
/-! SUPPORT. Every operation of Machine/Hardware.lean keeps the canonical form. -/

namespace Sys2Proof.Machine

theorem keepsWf_railsOff : KeepsWf (railsOff) := by
  unfold railsOff
  repeat' (first
    | (with_reducible first | exact hs | exact keepsWf_pure _ | (refine keepsWf_bind ?_ fun _ => ?_))
    | (with_reducible first | apply keepsWf_tearSlot | (refine keepsWf_modify fun s hs => ?_))
    | split | dsimp only | exact (M.wf_congr ⟨rfl, rfl, rfl, rfl, rfl, rfl, rfl, rfl, rfl, rfl, rfl⟩).trans hs)

theorem keepsWf_pmbus (f : Act Nat) (hw0 : KeepsWf f) : KeepsWf (pmbus f) := by
  unfold pmbus
  repeat' (first
    | (with_reducible first | exact keepsWf_pure _ | (refine keepsWf_getThen fun s hs => ?_))
    | (with_reducible first | (refine keepsWf_bind ?_ fun _ => ?_) | apply hw0 | apply keepsWf_emit)
    | (with_reducible first | refine keepsWf_ite ?_ ?_ | intro _)
    | split | dsimp only)

theorem keepsWf_tapDo (tap out : Nat) : KeepsWf (tapDo tap out) := by
  unfold tapDo
  repeat' (first
    | (with_reducible first | exact hs | exact keepsWf_pure _ | (refine keepsWf_getThen fun s hs => ?_))
    | (with_reducible first | (refine keepsWf_bind ?_ fun _ => ?_) | refine keepsWf_whenA ?_ | apply keepsWf_emit)
    | (with_reducible first | (refine keepsWf_modify fun s hs => ?_))
    | split | dsimp only | exact (M.wf_congr ⟨rfl, rfl, rfl, rfl, rfl, rfl, rfl, rfl, rfl, rfl, rfl⟩).trans hs)

theorem wf_execPowerInputApplied (mv heldMs : Nat) (presLow : Bool) {s t : State} (h : s.m.wf = true)
    (hs : execPowerInputApplied mv heldMs presLow s = .next t) : t.m.wf = true := by
  unfold execPowerInputApplied at hs
  refine wf_of_always ?_ h hs
  repeat' (first
    | (with_reducible first | exact hs | exact keepsWf_pure _ | (refine keepsWf_getThen fun s hs => ?_))
    | (with_reducible first | (refine keepsWf_bind ?_ fun _ => ?_) | refine keepsWf_whenA ?_)
    | (with_reducible first | (refine keepsWf_modify fun s hs => ?_))
    | split | dsimp only | exact (M.wf_congr ⟨rfl, rfl, rfl, rfl, rfl, rfl, rfl, rfl, rfl, rfl, rfl⟩).trans hs)

theorem wf_execRailFault (railStep : Nat) {s t : State} (h : s.m.wf = true)
    (hs : execRailFault railStep s = .next t) : t.m.wf = true := by
  unfold execRailFault at hs
  refine wf_of_always ?_ h hs
  repeat' (first
    | (with_reducible first | exact hs | exact keepsWf_pure _ | (refine keepsWf_getThen fun s hs => ?_))
    | (with_reducible first | (refine keepsWf_bind ?_ fun _ => ?_) | refine keepsWf_whenA ?_ | apply keepsWf_railsOff)
    | (with_reducible first | (refine keepsWf_modify fun s hs => ?_))
    | split | dsimp only | exact (M.wf_congr ⟨rfl, rfl, rfl, rfl, rfl, rfl, rfl, rfl, rfl, rfl, rfl⟩).trans hs)

theorem wf_execInputOutOfRange (mv heldUs : Nat) {s t : State} (h : s.m.wf = true)
    (hs : execInputOutOfRange mv heldUs s = .next t) : t.m.wf = true := by
  unfold execInputOutOfRange at hs
  refine wf_of_always ?_ h hs
  repeat' (first
    | (with_reducible first | exact hs | exact keepsWf_pure _ | (refine keepsWf_bind ?_ fun _ => ?_))
    | (with_reducible first | refine keepsWf_whenA ?_ | apply keepsWf_railsOff | (refine keepsWf_modify fun s hs => ?_))
    | split | dsimp only | exact (M.wf_congr ⟨rfl, rfl, rfl, rfl, rfl, rfl, rfl, rfl, rfl, rfl, rfl⟩).trans hs)

theorem wf_execPresDeassert {s t : State} (h : s.m.wf = true)
    (hs : execPresDeassert s = .next t) : t.m.wf = true := by
  unfold execPresDeassert at hs
  refine wf_of_always ?_ h hs
  repeat' (first
    | (with_reducible first | exact hs | exact keepsWf_pure _ | (refine keepsWf_bind ?_ fun _ => ?_))
    | (with_reducible first | apply keepsWf_railsOff | (refine keepsWf_modify fun s hs => ?_))
    | split | dsimp only | exact (M.wf_congr ⟨rfl, rfl, rfl, rfl, rfl, rfl, rfl, rfl, rfl, rfl, rfl⟩).trans hs)

theorem wf_execPortOffAssert {s t : State} (h : s.m.wf = true)
    (hs : execPortOffAssert s = .next t) : t.m.wf = true := by
  unfold execPortOffAssert at hs
  refine wf_of_always ?_ h hs
  repeat' (first
    | (with_reducible first | exact hs | exact keepsWf_pure _ | (refine keepsWf_modify fun s hs => ?_))
    | split | dsimp only | exact (M.wf_congr ⟨rfl, rfl, rfl, rfl, rfl, rfl, rfl, rfl, rfl, rfl, rfl⟩).trans hs)

theorem wf_execPortOffDeassert {s t : State} (h : s.m.wf = true)
    (hs : execPortOffDeassert s = .next t) : t.m.wf = true := by
  unfold execPortOffDeassert at hs
  refine wf_of_always ?_ h hs
  repeat' (first
    | (with_reducible first | exact hs | exact keepsWf_pure _ | (refine keepsWf_getThen fun s hs => ?_))
    | (with_reducible first | (refine keepsWf_bind ?_ fun _ => ?_) | refine keepsWf_whenA ?_)
    | (with_reducible first | (refine keepsWf_forA fun _ => ?_) | apply keepsWf_linkDown)
    | (with_reducible first | (refine keepsWf_modify fun s hs => ?_))
    | split | dsimp only | exact (M.wf_congr ⟨rfl, rfl, rfl, rfl, rfl, rfl, rfl, rfl, rfl, rfl, rfl⟩).trans hs)

theorem wf_execCableEvent (connector kind : Nat) (present : Bool) {s t : State} (h : s.m.wf = true)
    (hs : execCableEvent connector kind present s = .next t) : t.m.wf = true := by
  unfold execCableEvent at hs
  refine wf_of_doing ?_ h hs
  repeat' (first
    | (with_reducible first | exact hs | exact keepsWf_pure _ | (refine keepsWf_bind ?_ fun _ => ?_))
    | (with_reducible first | apply keepsWf_emit | apply keepsWf_freeVal | apply keepsWf_logAdd)
    | (with_reducible first | apply keepsWf_freeBytes | (refine keepsWf_modify fun s hs => ?_))
    | (with_reducible first | refine keepsWf_ite ?_ ?_)
    | split | dsimp only | exact (M.wf_congr ⟨rfl, rfl, rfl, rfl, rfl, rfl, rfl, rfl, rfl, rfl, rfl⟩).trans hs)

theorem wf_execReadVin (reading : Nat) {s t : State} (h : s.m.wf = true)
    (hs : execReadVin reading s = .next t) : t.m.wf = true := by
  unfold execReadVin at hs
  refine wf_of_doing ?_ h hs
  repeat' (first
    | (with_reducible first | exact keepsWf_pure _ | apply keepsWf_pmbus)
    | split | dsimp only)

theorem wf_execReadIin (reading : Nat) {s t : State} (h : s.m.wf = true)
    (hs : execReadIin reading s = .next t) : t.m.wf = true := by
  unfold execReadIin at hs
  refine wf_of_doing ?_ h hs
  repeat' (first
    | (with_reducible first | exact keepsWf_pure _ | apply keepsWf_pmbus)
    | split | dsimp only)

theorem wf_execReadPin {s t : State} (h : s.m.wf = true)
    (hs : execReadPin s = .next t) : t.m.wf = true := by
  unfold execReadPin at hs
  refine wf_of_doing ?_ h hs
  repeat' (first
    | (with_reducible first | exact keepsWf_pure _ | (refine keepsWf_bind ?_ fun _ => ?_) | apply keepsWf_rd)
    | (with_reducible first | apply keepsWf_pmbus)
    | split | dsimp only)

theorem wf_execReadTemperature1 {s t : State} (h : s.m.wf = true)
    (hs : execReadTemperature1 s = .next t) : t.m.wf = true := by
  unfold execReadTemperature1 at hs
  refine wf_of_doing ?_ h hs
  repeat' (first
    | (with_reducible first | exact keepsWf_pure _ | (refine keepsWf_bind ?_ fun _ => ?_) | apply keepsWf_rd)
    | (with_reducible first | apply keepsWf_pmbus)
    | split | dsimp only)

theorem wf_execStatusWord {s t : State} (h : s.m.wf = true)
    (hs : execStatusWord s = .next t) : t.m.wf = true := by
  unfold execStatusWord at hs
  refine wf_of_doing ?_ h hs
  repeat' (first
    | (with_reducible first | exact keepsWf_pure _ | apply keepsWf_freeVal | apply keepsWf_pmbus)
    | split | dsimp only)

theorem wf_execPmbusNack (code : Nat) (isWrite : Bool) {s t : State} (h : s.m.wf = true)
    (hs : execPmbusNack code isWrite s = .next t) : t.m.wf = true := by
  unfold execPmbusNack at hs
  refine wf_of_doing ?_ h hs
  repeat' (first
    | (with_reducible first | exact keepsWf_pure _ | (refine keepsWf_getThen fun s hs => ?_))
    | (with_reducible first | (refine keepsWf_bind ?_ fun _ => ?_) | refine keepsWf_whenA ?_ | apply keepsWf_emit)
    | (with_reducible first | apply keepsWf_pmbus)
    | split | dsimp only)

theorem wf_execIdcode {s t : State} (h : s.m.wf = true)
    (hs : execIdcode s = .next t) : t.m.wf = true := by
  unfold execIdcode at hs
  refine wf_of_always ?_ h hs
  repeat' (first
    | (with_reducible first | exact keepsWf_pure _ | apply keepsWf_tapDo)
    | split | dsimp only)

theorem wf_execBypass {s t : State} (h : s.m.wf = true)
    (hs : execBypass s = .next t) : t.m.wf = true := by
  unfold execBypass at hs
  refine wf_of_always ?_ h hs
  repeat' (first
    | (with_reducible first | exact keepsWf_pure _ | apply keepsWf_tapDo)
    | split | dsimp only)

theorem wf_execSamplePreload (capture : Nat) {s t : State} (h : s.m.wf = true)
    (hs : execSamplePreload capture s = .next t) : t.m.wf = true := by
  unfold execSamplePreload at hs
  refine wf_of_always ?_ h hs
  repeat' (first
    | (with_reducible first | exact hs | exact keepsWf_pure _ | (refine keepsWf_getThen fun s hs => ?_))
    | (with_reducible first | (refine keepsWf_bind ?_ fun _ => ?_) | refine keepsWf_whenA ?_ | apply keepsWf_capture)
    | (with_reducible first | apply keepsWf_tapDo | (refine keepsWf_modify fun s hs => ?_))
    | split | dsimp only | exact (M.wf_congr ⟨rfl, rfl, rfl, rfl, rfl, rfl, rfl, rfl, rfl, rfl, rfl⟩).trans hs)

theorem wf_execExtest {s t : State} (h : s.m.wf = true)
    (hs : execExtest s = .next t) : t.m.wf = true := by
  unfold execExtest at hs
  refine wf_of_always ?_ h hs
  repeat' (first
    | (with_reducible first | exact keepsWf_pure _ | (refine keepsWf_getThen fun s hs => ?_))
    | (with_reducible first | (refine keepsWf_bind ?_ fun _ => ?_) | apply keepsWf_tapDo | refine keepsWf_ite ?_ ?_)
    | split | dsimp only)

theorem wf_execClamp {s t : State} (h : s.m.wf = true)
    (hs : execClamp s = .next t) : t.m.wf = true := by
  unfold execClamp at hs
  refine wf_of_always ?_ h hs
  repeat' (first
    | (with_reducible first | exact keepsWf_pure _ | (refine keepsWf_getThen fun s hs => ?_))
    | (with_reducible first | (refine keepsWf_bind ?_ fun _ => ?_) | apply keepsWf_tapDo | refine keepsWf_ite ?_ ?_)
    | split | dsimp only)

theorem wf_execHighz {s t : State} (h : s.m.wf = true)
    (hs : execHighz s = .next t) : t.m.wf = true := by
  unfold execHighz at hs
  refine wf_of_always ?_ h hs
  repeat' (first
    | (with_reducible first | exact keepsWf_pure _ | (refine keepsWf_getThen fun s hs => ?_))
    | (with_reducible first | (refine keepsWf_bind ?_ fun _ => ?_) | apply keepsWf_tapDo | refine keepsWf_ite ?_ ?_)
    | split | dsimp only)

theorem wf_execTapReset {s t : State} (h : s.m.wf = true)
    (hs : execTapReset s = .next t) : t.m.wf = true := by
  unfold execTapReset at hs
  refine wf_of_always ?_ h hs
  repeat' (first
    | (with_reducible first | exact hs | exact keepsWf_pure _ | (refine keepsWf_modify fun s hs => ?_))
    | split | dsimp only | exact (M.wf_congr ⟨rfl, rfl, rfl, rfl, rfl, rfl, rfl, rfl, rfl, rfl, rfl⟩).trans hs)

end Sys2Proof.Machine
end

