-- ==== Sys2Proof/Laws/WfRegAccess.lean ====
section
/-! SUPPORT. Every operation of Machine/RegAccess.lean keeps the canonical form. -/

namespace Sys2Proof.Machine

theorem keepsWf_plainWrite (r : RegRow) (key d size value : Nat) : KeepsWf (plainWrite r key d size value) := by
  unfold plainWrite
  repeat' (first
    | (with_reducible first | exact keepsWf_pure _ | (refine keepsWf_bind ?_ fun _ => ?_) | apply keepsWf_upd)
    | (with_reducible first | apply keepsWf_ilWrite)
    | split | dsimp only)

theorem keepsWf_memInject (value : Nat) : KeepsWf (memInject value) := by
  unfold memInject
  repeat' (first
    | (with_reducible first | exact keepsWf_pure _ | (refine keepsWf_getThen fun s hs => ?_))
    | (with_reducible first | (refine keepsWf_bind ?_ fun _ => ?_) | refine keepsWf_whenA ?_ | apply keepsWf_poisonLine)
    | (with_reducible first | apply keepsWf_flipBytes)
    | split | dsimp only)

theorem keepsWf_parityGo (value : Nat) : KeepsWf (parityGo value) := by
  unfold parityGo
  repeat' (first
    | (with_reducible first | exact keepsWf_pure _ | apply keepsWf_parityRefresh | apply keepsWf_rebuildSurvivor)
    | (with_reducible first | apply keepsWf_rebuildSpare)
    | split | dsimp only)

theorem keepsWf_queueWrite (r : RegRow) (key d size value : Nat) : KeepsWf (queueWrite r key d size value) := by
  unfold queueWrite
  repeat' (first
    | (with_reducible first | exact keepsWf_pure _ | (refine keepsWf_getThen fun s hs => ?_))
    | (with_reducible first | (refine keepsWf_bind ?_ fun _ => ?_) | refine keepsWf_whenA ?_ | apply keepsWf_doorbell)
    | (with_reducible first | apply keepsWf_abortEntry | apply keepsWf_queueReset | apply keepsWf_plainWrite)
    | (with_reducible first | refine keepsWf_ite ?_ ?_)
    | split | dsimp only)

theorem keepsWf_ilUnless (bad : Bool) (r : RegRow) (key d size value : Nat) : KeepsWf (ilUnless bad r key d size value) := by
  unfold ilUnless
  repeat' (first
    | (with_reducible first | exact keepsWf_pure _ | apply keepsWf_inc64 | apply keepsWf_plainWrite)
    | (with_reducible first | refine keepsWf_ite ?_ ?_)
    | split | dsimp only)

theorem keepsWf_scdWrite (r : RegRow) (key d size value : Nat) : KeepsWf (scdWrite r key d size value) := by
  unfold scdWrite
  repeat' (first
    | (with_reducible first | exact keepsWf_pure _ | (refine keepsWf_getThen fun s hs => ?_))
    | (with_reducible first | (refine keepsWf_bind ?_ fun _ => ?_) | refine keepsWf_whenA ?_ | apply keepsWf_wr)
    | (with_reducible first | apply keepsWf_scdCtl | apply keepsWf_plainWrite | refine keepsWf_ite ?_ ?_)
    | split | dsimp only)

theorem keepsWf_blockWrite (r : RegRow) (key d size value : Nat) : KeepsWf (blockWrite r key d size value) := by
  unfold blockWrite
  repeat' (first
    | (with_reducible first | exact keepsWf_pure _ | refine keepsWf_whenA ?_ | apply keepsWf_vgroupWrite)
    | (with_reducible first | apply keepsWf_cqDoorbell | apply keepsWf_gcacheFlush | apply keepsWf_takeover)
    | (with_reducible first | apply keepsWf_flashCommand | apply keepsWf_portSelWrite | apply keepsWf_relaySelWrite)
    | (with_reducible first | apply keepsWf_plainWrite | apply keepsWf_memInject | apply keepsWf_parityGo)
    | (with_reducible first | apply keepsWf_queueWrite | apply keepsWf_ilUnless | apply keepsWf_scdWrite)
    | (with_reducible first | refine keepsWf_ite ?_ ?_)
    | split | dsimp only)

theorem keepsWf_traceCtlWrite (pos value : Nat) : KeepsWf (traceCtlWrite pos value) := by
  unfold traceCtlWrite
  repeat' (first
    | (with_reducible first | exact keepsWf_pure _ | (refine keepsWf_getThen fun s hs => ?_))
    | (with_reducible first | (refine keepsWf_bind ?_ fun _ => ?_) | refine keepsWf_whenA ?_)
    | (with_reducible first | (refine keepsWf_forA fun _ => ?_) | apply keepsWf_wr | apply keepsWf_setField)
    | (with_reducible first | refine keepsWf_ite ?_ ?_)
    | split | dsimp only)

theorem keepsWf_posWrite (n : Nat) (r : RegRow) (key d size value : Nat) : KeepsWf (posWrite n r key d size value) := by
  unfold posWrite
  repeat' (first
    | (with_reducible first | exact keepsWf_pure _ | apply keepsWf_posSelWrite | apply keepsWf_plainWrite)
    | (with_reducible first | apply keepsWf_traceCtlWrite | refine keepsWf_ite ?_ ?_)
    | split | dsimp only)

theorem keepsWf_ringAbort (n e value : Nat) : KeepsWf (ringAbort n e value) := by
  unfold ringAbort
  repeat' (first
    | (with_reducible first | exact keepsWf_pure _ | apply keepsWf_abortRecords | apply keepsWf_abortJob)
    | split | dsimp only)

theorem keepsWf_ringWrite (writer n e f : Nat) (r : RegRow) (key d size value : Nat) : KeepsWf (ringWrite writer n e f r key d size value) := by
  unfold ringWrite
  repeat' (first
    | (with_reducible first | exact keepsWf_pure _ | (refine keepsWf_getThen fun s hs => ?_))
    | (with_reducible first | (refine keepsWf_bind ?_ fun _ => ?_) | refine keepsWf_whenA ?_ | apply keepsWf_pushOrder)
    | (with_reducible first | apply keepsWf_pushWord | apply keepsWf_pushCommit | apply keepsWf_ringRun)
    | (with_reducible first | apply keepsWf_ringStop | apply keepsWf_ringReset | apply keepsWf_plainWrite)
    | (with_reducible first | apply keepsWf_ringAbort | refine keepsWf_ite ?_ ?_)
    | split | dsimp only)

theorem keepsWf_coreWrite (writer : Nat) (r : RegRow) (key d size value : Nat) : KeepsWf (coreWrite writer r key d size value) := by
  unfold coreWrite
  repeat' (first
    | (with_reducible first | exact keepsWf_pure _ | (refine keepsWf_getThen fun s hs => ?_))
    | (with_reducible first | (refine keepsWf_bind ?_ fun _ => ?_) | refine keepsWf_whenA ?_ | apply keepsWf_passThrow)
    | (with_reducible first | apply keepsWf_playSync | apply keepsWf_plainWrite | apply keepsWf_ringWrite)
    | (with_reducible first | refine keepsWf_ite ?_ ?_)
    | split | dsimp only)

theorem keepsWf_writeReg (writer off size value : Nat) : KeepsWf (writeReg writer off size value) := by
  unfold writeReg
  repeat' (first
    | (with_reducible first | exact keepsWf_pure _ | (refine keepsWf_getThen fun s hs => ?_))
    | (with_reducible first | (refine keepsWf_bind ?_ fun _ => ?_) | refine keepsWf_whenA ?_ | apply keepsWf_compWrite)
    | (with_reducible first | apply keepsWf_blockWrite | apply keepsWf_posWrite | apply keepsWf_coreWrite)
    | (with_reducible first | refine keepsWf_ite ?_ ?_)
    | split | dsimp only)

theorem keepsWf_writeParts (writer off size value : Nat) : KeepsWf (writeParts writer off size value) := by
  unfold writeParts
  repeat' (first
    | (with_reducible first | exact keepsWf_pure _ | (refine keepsWf_getThen fun s hs => ?_))
    | (with_reducible first | (refine keepsWf_bind ?_ fun _ => ?_) | (refine keepsWf_forA fun _ => ?_))
    | (with_reducible first | apply keepsWf_writeReg)
    | split | dsimp only)

theorem keepsWf_regValue (key d : Nat) : KeepsWf (regValue key d) := by
  unfold regValue
  repeat' (first
    | (with_reducible first | exact keepsWf_pure _ | (refine keepsWf_getThen fun s hs => ?_))
    | (with_reducible first | (refine keepsWf_bind ?_ fun _ => ?_) | refine keepsWf_whenA ?_ | apply keepsWf_rd)
    | (with_reducible first | apply keepsWf_freeVal | apply keepsWf_bwLatch | refine keepsWf_ite ?_ ?_)
    | split | dsimp only)

theorem keepsWf_readReg (off size : Nat) : KeepsWf (readReg off size) := by
  unfold readReg
  repeat' (first
    | (with_reducible first | exact keepsWf_pure _ | (refine keepsWf_getThen fun s hs => ?_))
    | (with_reducible first | (refine keepsWf_bind ?_ fun _ => ?_) | refine keepsWf_whenA ?_ | apply keepsWf_upd)
    | (with_reducible first | apply keepsWf_regValue | refine keepsWf_ite ?_ ?_)
    | split | dsimp only)

theorem keepsWf_readParts (off size : Nat) : KeepsWf (readParts off size) := by
  unfold readParts
  repeat' (first
    | (with_reducible first | exact keepsWf_pure _ | (refine keepsWf_getThen fun s hs => ?_))
    | (with_reducible first | (refine keepsWf_bind ?_ fun _ => ?_) | (refine keepsWf_mapA fun _ => ?_))
    | (with_reducible first | apply keepsWf_readReg | (refine M.wf_foldl _ (fun s _ hs => ?_) _ ?_))
    | split | dsimp only)

theorem wf_execRegisterWrite (writer offset size value : Nat) {s t : State} (h : s.m.wf = true)
    (hs : execRegisterWrite writer offset size value s = .next t) : t.m.wf = true := by
  unfold execRegisterWrite at hs
  refine wf_of_doing ?_ h hs
  repeat' (first
    | (with_reducible first | exact keepsWf_pure _ | (refine keepsWf_getThen fun s hs => ?_))
    | (with_reducible first | (refine keepsWf_bind ?_ fun _ => ?_) | refine keepsWf_whenA ?_ | apply keepsWf_regAction)
    | (with_reducible first | apply keepsWf_endJobsOn | apply keepsWf_writeParts | refine keepsWf_ite ?_ ?_)
    | split | dsimp only)

theorem wf_execRcRegisterRead (writer offset size : Nat) {s t : State} (h : s.m.wf = true)
    (hs : execRcRegisterRead offset size s writer = .next t) : t.m.wf = true := by
  unfold execRcRegisterRead at hs
  refine wf_of_doing ?_ h hs
  repeat' (first
    | (with_reducible first | exact keepsWf_pure _ | (refine keepsWf_getThen fun s hs => ?_))
    | (with_reducible first | (refine keepsWf_bind ?_ fun _ => ?_) | apply keepsWf_emit | apply keepsWf_refused)
    | (with_reducible first | apply keepsWf_unlessHeld | apply keepsWf_ctlAccess | apply keepsWf_regRead)
    | (with_reducible first | apply keepsWf_endJobsOn | apply keepsWf_readParts | refine keepsWf_ite ?_ ?_)
    | split | dsimp only)

end Sys2Proof.Machine
end

