-- ==== Sys2Proof/Laws/WfPosted.lean ====
section
/-! SUPPORT. The end of a held push, and what waited behind it, keep the canonical form. -/

namespace Sys2Proof.Machine

theorem wf_redo (i : Instr) {s t : State} (h : s.m.wf = true) (hs : redo i s = .next t) : t.m.wf = true := by
  unfold redo at hs
  split at hs
  · exact wf_execRegisterWrite _ _ _ _ h hs
  · exact wf_execRcRegisterRead _ _ _ h hs
  · exact wf_execBar0AccessInvalid _ _ _ h hs
  · exact wf_execBar2Read _ _ h hs
  · exact wf_execBar2Write _ _ _ h hs
  · exact wf_execHstQDoorbell _ _ _ h hs
  · exact wf_execHstQAbort _ _ _ h hs
  · exact wf_execHstQReset _ _ _ h hs
  · exact wf_execGetEventRecords _ h hs
  · exact wf_execClearEventRecords _ h hs
  · exact wf_execGetEventInterruptPolicy _ h hs
  · exact wf_execSetEventInterruptPolicy _ h hs
  · exact wf_execGetFwInfo _ h hs
  · exact wf_execGetSupportedLogs _ h hs
  · exact wf_execGetLog _ h hs
  · exact wf_execGetReady _ h hs
  · exact wf_execGetSettings _ h hs
  · exact wf_execReadLog _ h hs
  · exact wf_execGetHealth _ h hs
  · exact wf_execZeroise _ _ h hs
  · exact wf_execMailboxUnsupported _ h hs
  · exact wf_execMgtFlashErase _ h hs
  · exact wf_execMgtFlashProgram _ _ h hs
  · exact wf_execMgtFlashCheck _ h hs
  · exact wf_execRingPushWord _ _ _ _ _ h hs
  · exact wf_execRingPushCommit _ _ _ _ h hs
  · exact wf_execCoreRingCtlRun _ _ _ h hs
  · exact wf_execCoreRingReset _ _ _ h hs
  · exact wf_execAbortRecord _ _ _ _ h hs
  · exact wf_execAbortRecordAndLater _ _ _ _ h hs
  · exact wf_execAbortJob _ _ _ h hs
  · exact wf_execCorePassThrow _ _ _ _ h hs
  · exact wf_execCorePlaySync _ _ _ h hs
  · exact wf_execMemInjectCorrectable _ _ h hs
  · exact wf_execMemInjectUncorrectable _ _ h hs
  · exact wf_execMemInjectPoison _ _ h hs
  · exact wf_execUpdVgroupWrite _ _ _ h hs
  · exact wf_execTrnTakeover _ _ h hs
  · exact wf_execRlyCqDoorbell _ _ h hs
  · exact wf_execRlyGcacheFlush _ _ h hs
  · exact wf_execParityRefresh _ _ h hs
  · exact wf_execParityRebuildSurvivor _ _ _ h hs
  · exact wf_execParityRebuildSpare _ _ _ h hs
  · exact wf_execCounterSelectWrite _ _ _ _ _ h hs
  · exact wf_execCounterWrite _ _ _ _ _ h hs
  · exact wf_execCntScdEnable _ _ h hs
  · exact wf_execCntBwReadLatch _ _ h hs
  · cases hs
    exact h

theorem wf_redoAll (is : List Instr) {s t : State} (h : s.m.wf = true) (hs : redoAll is s = .next t) : t.m.wf = true := by
  induction is generalizing s with
  | nil => cases hs; exact h
  | cons i is ih => exact wf_of_andThen (fun _ hu => wf_redo i h hu) (fun _ hu ht => ih hu ht) hs

theorem wf_release {s t : State} (h : s.m.wf = true) (hs : release s = .next t) : t.m.wf = true := by
  unfold release at hs
  split at hs
  · cases hs; exact h
  · refine wf_redoAll _ ?_ hs
    exact (M.wf_congr ⟨rfl, rfl, rfl, rfl, rfl, rfl, rfl, rfl, rfl, rfl, rfl⟩).trans h

theorem wf_execRingPushResume (writer core ring : Nat) {s t : State} (h : s.m.wf = true)
    (hs : execRingPushResume writer core ring s = .next t) : t.m.wf = true :=
  wf_of_andThen (fun _ hu => wf_of_doing (keepsWf_pushResume writer core ring) h hu) (fun _ hu ht => wf_release hu ht) hs

theorem wf_execHostPushTimeout (core ring heldUs : Nat) {s t : State} (h : s.m.wf = true)
    (hs : execHostPushTimeout core ring s heldUs = .next t) : t.m.wf = true :=
  wf_of_andThen (fun _ hu => wf_of_doing (keepsWf_getThen fun _ _ => keepsWf_whenA (keepsWf_pushTimeout core ring)) h hu)
    (fun _ hu ht => wf_release hu ht) hs

end Sys2Proof.Machine
end

