-- ==== Sys2Proof/Tests/Slice0.lean ====
section
/-! SUPPORT. Tests of the model, by evaluation: for every statement with premises, states and operands that meet them, by clause
and at the ends of ranges (`test_premises_<statement>`); the manual's worked examples; ill-formed commands; single steps. -/

namespace Sys2Proof.Machine

/-! ## The machine as a whole -/

/-- The module after a step. -/
def tAfter (o : Out) : M :=
  match o with
  | .next t => t.m
  | _ => {}

/-- StepKeepsCanonicalForm and SecretsFusesAndFlashAreIsolated: the reset state is canonical, and from it a step answers a next
state, a fuse is blown, and the flash changes. -/
theorem test_premises_StepKeepsCanonicalForm : State.reset.m.wf = true ∧
    (tAfter (step { State.reset with pending := [.h2dSnoop 64] })).outs = [.rspIHitI 64] ∧
    (let m := (State.reset.m.setReg Reg.secPolicy 8).setReg Reg.mgtReadyMap (2 ^ 127)
     (tAfter (exec .rollbackAdvance { State.reset with m := { m with boot := { m.boot with svn := 3 } } })).fuses.rollback = 3) ∧
    (tAfter (exec (.healthRecordAppend 1 []) State.reset)).boot.flash ≠ [] := by decide +kernel

/-- The reset machine with registers set. -/
def tRegs (l : List (Nat × Nat)) : M := l.foldl (fun m x => m.setReg x.1 x.2) State.reset.m

/-- Does an access of `w` reach the register space (R315, R319, R378)? -/
def tAdmits (m : M) (w : Nat) (mgmt : Bool) : Bool :=
  !m.stalled w && (w != 0 || (m.ideOk && (mgmt || bit (m.reg Reg.mgtReadyMap) 126)))

/-- It is what the statements ask. -/
theorem test_admits (m : M) (w : Nat) (mgmt : Bool) (h : tAdmits m w mgmt = true) : m.admits w mgmt := by
  unfold tAdmits at h
  unfold M.admits
  cases hs : m.stalled w <;> simp_all
  rcases h with h | h
  · exact fun hw => absurd hw h
  · exact fun _ => h

/-- The machine is out of reset, and its stores are in canonical form. -/
def tSound (m : M) : Bool := m.board.live && m.wf

/-- Every statement over live, canonical states speaks of the reset state. -/
theorem test_premises_reset_sound : tSound State.reset.m = true := by decide

/-! ## Chapter 19 -/

/-- RailsAndReset: the hypotheses of each clause, at the limits of the input voltage and of the hold time. -/
theorem test_premises_RailsAndReset :
    (48000 ≤ 48000 ∧ 56000 ≤ 56000 ∧ 100 ≤ 100 ∧ State.reset.m.board.tripped = false) ∧
    (let b : Board := { State.reset.m.board with live := false }; 2 ≤ 5 ∧ 5 ≤ 5 ∧ b.powered = true ∧ b.live = false) ∧
    (58000 < 58001 ∧ 100 < 101) ∧ (45999 < 46000 ∧ 100 < 101) ∧ ((46000 ≤ 46000 ∧ 46000 ≤ 58000) ∨ 101 ≤ 100) ∧
    ((46000 ≤ 45999 ∧ 45999 ≤ 58000) ∨ 100 ≤ 100) := by decide

/-- SidebandPinsAndPorts: PMBus before and after the image is ready, pins with and without PERST#, a port whose link is up. -/
theorem test_premises_SidebandPinsAndPorts :
    State.reset.m.board.powered = true ∧ State.reset.m.board.perst9 = false ∧ State.reset.m.imageReady = false ∧
    (tRegs [(Reg.mgtReadyMap, 2 ^ 126)]).imageReady = true ∧ (0x78 : Nat) ∉ [0x79, 0x88, 0x89, 0x8D, 0x97] ∧
    (let m := { tRegs [(Reg.ethPortStatus 15, 2 <<< 30)] with board := { State.reset.m.board with portOff := true } }
     tSound m = true ∧ m.linkUp 15 = true ∧ 15 < m.nPorts) := by decide

/-! ## Chapter 13 -/

/-- EqualSharesStayWithinBudget: two islands, one of which wants less than its share, and fuel for both. -/
theorem test_premises_EqualSharesStayWithinBudget : [(0, 3, 0), (7, 9, 0)].length ≤ 2 ∧
    fillShares 2 10 [(0, 3, 0), (7, 9, 0)] = [(0, 0, 3), (7, 2, 7)] := by decide

/-- GovernorEvaluationRules: a third reading that disagrees, a gain that can be corrected and one that cannot. -/
theorem test_premises_GovernorEvaluationRules :
    (let m := { State.reset.m with gov := { State.reset.m.gov with dis := 2, est := 500, wins := 1 } }
     tSound m = true ∧ bit (m.reg Reg.pwrStatus) 2 = false ∧ disagrees 1000 500 = true ∧ m.gov.dis ≥ 2) ∧
    (let m := tRegs [(Reg.pwrStatus, 4)]; tSound m = true ∧ bit (m.reg Reg.pwrStatus) 2 = true ∧
     gainStep (m.reg Reg.pwrGain) 600 500 = some 4108 ∧ disagrees 600 500 = true ∧ gainStep 5120 600 500 = none) ∧
    (let m := { State.reset.m with gov := { State.reset.m.gov with fails := 2 } }; tSound m = true ∧ m.gov.fails ≥ 2) ∧
    State.reset.m.posState 0 = 0 := by decide

/-- PositionsSleepAndWake: a position without work, one that must wake, and one that runs. -/
theorem test_premises_PositionsSleepAndWake :
    (bit (State.reset.m.reg Reg.pwrCtl) 0 = true ∧ State.reset.m.posUnused 127 = true ∧
      bits (State.reset.m.reg (Reg.pwrPosOp 127)) 2 0 ≠ 7) ∧
    (let m := tRegs [(Reg.pwrPosOp 127, 7), (Reg.pwrCtl, 0)]; tSound m = true ∧ 127 < 128 ∧
      bits (m.reg (Reg.pwrPosOp 127)) 2 0 = 7 ∧ (m.posUnused 127 = false ∨ bit (m.reg Reg.pwrCtl) 0 = false)) := by decide

/-- DroopAndTrim: the limits of the droop, of the recovery, and of the trim in both directions. -/
theorem test_premises_DroopAndTrim : 40 < 41 ∧ 40 ≤ 40 ∧ 64 ≤ 64 ∧ 63 < 64 ∧ 178 < 179 ∧
    (let m := tRegs [(Reg.pwrTrim 178, 20)]; tSound m = true ∧ toSigned 8 (bits (m.reg (Reg.pwrTrim 178)) 7 0) + 5 ≤ 25) ∧
    (let m := tRegs [(Reg.pwrTrim 178, 236)]; -25 ≤ toSigned 8 (bits (m.reg (Reg.pwrTrim 178)) 7 0) - 5) ∧
    (let m := tRegs [(Reg.pwrTrim 178, 21)]; 25 < toSigned 8 (bits (m.reg (Reg.pwrTrim 178)) 7 0) + 5) := by decide

/-- HeatThresholds: readings at each threshold, and states that end. -/
theorem test_premises_HeatThresholds :
    (hottestOf [1567, 1568, 3]) = (1568, 1) ∧ (hottestOf [1568]).1 = 98 * 16 ∧ (hottestOf [1680]).1 = 105 * 16 ∧
    (hottestOf [1840]).1 = 115 * 16 ∧ bits (State.reset.m.reg Reg.pwrStatus) 1 0 = 0 ∧
    (let m := tRegs [(Reg.pwrStatus, 1), (Reg.pwrTemp, 1519)]; bits (m.reg Reg.pwrStatus) 1 0 = 1 ∧ m.hottest < 95 * 16) ∧
    (let m := tRegs [(Reg.pwrStatus, 2), (Reg.pwrTemp, 1599)]; bits (m.reg Reg.pwrStatus) 1 0 = 2 ∧ m.hottest < 100 * 16) ∧
    (let m := tRegs [(Reg.pwrStatus, 2), (Reg.pwrTemp, 1600)]; 100 * 16 ≤ m.hottest) := by decide

/-! ## Chapters 5, 8 and 15 -/

/-- CoreMapAtReset: three healthy positions, one of them on the second die. -/
theorem test_premises_CoreMapAtReset : [0, 1, 64].Nodup ∧ (∀ i ∈ [0, 1, 64], i < 128) ∧
    (1, 1) ∈ (placing 60 [0, 1, 64]).bound ∧ (60, 64) ∈ (placing 60 [0, 1, 64]).bound ∧
    (placing 60 [0, 1, 64]).lost ≠ [] := by decide +kernel

/-- ModuleResetBringsUp: a module held in reset, which PERST# going high starts. -/
theorem test_premises_ModuleResetBringsUp :
    let b : Board := { State.reset.m.board with perst9 := true, live := false }
    (b.powered && !b.tripped && !b.live && !(b.perst9 && !true) && !(b.perst10 && !false)) = true ∧
    (b.powered && !b.tripped && !b.live && !(b.perst9 && !false) && !(b.perst10 && !false)) = false := by decide

/-- SelfTestsSetReadyBits: a function that is ready to be tested, one that is not, and the last one missing. -/
theorem test_premises_SelfTestsSetReadyBits :
    (let m := tRegs [(Reg.mgtReadyMap, 2 ^ 126)]; tSound m = true ∧ m.readyCond 0 = true ∧ m.readyCond 119 = true ∧
      m.readyCond 125 = false ∧ bit (m.reg Reg.mgtReadyMap) 0 = false ∧ bit (m.reg Reg.mgtSelftestFail) 0 = false) ∧
    (let m := tRegs [(Reg.mgtReadyMap, State.reset.m.readyBits - 2 ^ 5)]; m.readyCond 5 = true ∧
      bit (m.reg Reg.mgtReadyMap) 5 = false) ∧
    State.reset.m.readyCond 0 = false ∧ State.reset.m.secDown = false ∧ (tRegs [(Reg.secStatus, 1 <<< 16)]).secDown = true := by
  decide

/-- FarStoreStartUp: a set in training, one that is being zeroed, and an address of it. -/
theorem test_premises_FarStoreStartUp : State.reset.m.setState 0 ≤ 1 ∧ State.reset.m.setState 7 ≤ 1 ∧
    (let m := tRegs [(Reg.memSetState 7, 2 <<< 30)]; tSound m = true ∧ m.setState 7 = 2 ∧ 2 ≤ m.setState (23 / 3) ∧
      inFar 0x10000007000 = true ∧ m.farSet 0x10000007000 = 7 ∧ m.setState 6 ≠ 2) := by decide

/-- SlotVerification: a module that has not verified, with the flash erased and with the kill fuse blown; a fuse to blow. The
clauses of acceptance ask for signatures that verify, which the model leaves to Config. -/
theorem test_premises_SlotVerification :
    (let m := tRegs [(Reg.secStatus, 1 <<< 31)]; tSound m = true ∧ bits (m.reg Reg.mgtBootStatus) 31 30 = 0 ∧
      m.approved = true ∧ m.fuses.killed = false ∧ m.boot.torn = [] ∧ m.firstSlot = 0 ∧ m.slotCode 0 false = 1 ∧
      m.slotCode 1 false = 1) ∧
    (let m := { tRegs [(Reg.secPolicy, 8), (Reg.mgtReadyMap, 2 ^ 127)] with boot := { State.reset.m.boot with svn := 64 } }
     tSound m = true ∧ bit (m.reg Reg.secPolicy) 3 = true ∧ m.boot.svn > m.fuses.rollback ∧
      bit (m.reg Reg.mgtReadyMap) 127 = true) := by decide

/-- FlashCommands: a target slot with no command running, and each command running on slot 1. -/
theorem test_premises_FlashCommands :
    (let m := tRegs [(Reg.mgtBootStatus, 1 <<< 30)]; m.board.live = true ∧ tAdmits m 0 true = true ∧ tAdmits m 128 true = true ∧ m.targetSlot = some 1 ∧
      bits (m.reg Reg.mgtFlashStatus) 31 30 ≠ 1 ∧ slotSize % 256 = 0 ∧ slotSize ≤ slotSize ∧ slotSize < slotSize + 256 ∧
      255 % 256 ≠ 0) ∧
    State.reset.m.targetSlot = none ∧
    (let m := { tRegs [(Reg.mgtFlashStatus, flashStatus 1 0 1 0), (Reg.mgtFlashSrc, 0x3FFFFFF00)] with
       boot := { State.reset.m.boot with cmd := 2, cmdLen := 256 } }
     tSound m = true ∧ bits (m.reg Reg.mgtFlashStatus) 31 30 = 1 ∧ m.boot.cmd = 2 ∧
      bits (m.reg Reg.mgtFlashStatus) 25 24 = 1 ∧ inRegion (m.reg Reg.mgtFlashSrc) m.boot.cmdLen = true ∧
      (readBytes (m.reg Reg.mgtFlashSrc) 8 m).1.1 = false ∧
      (readBytes (m.reg Reg.mgtFlashSrc) 8 { m with chk := [(m.reg Reg.mgtFlashSrc / 32 * 4, 1), (m.reg Reg.mgtFlashSrc / 32 * 4 + 1, 1)] }).1.1 = true ∧
      m.secDown = false ∧ 1 ∉ m.boot.torn) := by decide +kernel

/-- HealthRecordAppends: the first entry of an empty record, with the longest payload. -/
theorem test_premises_HealthRecordAppends : Tab.wf flashErased State.reset.m.boot.flash = true ∧ 0xFFFF < 2 ^ 16 ∧
    (List.replicate 54 1#8).length ≤ 54 ∧
    (let flash := writeFlashTab [] (healthBase 0) (List.replicate 63 0#8)
     let m := { State.reset.m with boot := { State.reset.m.boot with flash := flash } }; Tab.wf flashErased m.boot.flash = true) := by decide

/-! ## Chapter 16 -/

/-- ZeroisationAndRandomness: the policy that allows both pins, at the limits of their times, with and without an alarm. -/
theorem test_premises_ZeroisationAndRandomness :
    let m := tRegs [(Reg.secPolicy, 0x50), (Reg.hstStatus, 1 <<< 30), (Reg.mgtReadyMap, 2 ^ 126)]
    tSound m = true ∧ m.secDown = false ∧ m.mailboxOpen = true ∧ m.hostWaits = false ∧ 1000 ≤ 1000 ∧ 999 < 1000 ∧ 5000 ≤ 5000 ∧
    bit (m.reg Reg.secPolicy) 4 = true ∧ bit (m.reg Reg.secPolicy) 6 = true ∧ ([] : List Byte) ≠ leBytes 4 0x5A45524F ∧
    { m.sec with alarm := true }.alarm = true ∧ m.sec.alarm = false := by decide

/-- TriggersTogetherZeroiseOnce: an open mailbox, two triggers, and the zeroised state. -/
theorem test_premises_TriggersTogetherZeroiseOnce :
    let l := [(Reg.secPolicy, 0x10), (Reg.hstStatus, 1 <<< 30), (Reg.mgtReadyMap, 2 ^ 126)]
    (tSound (tRegs l) = true ∧ (tRegs l).mailboxOpen = true ∧ (tRegs l).hostWaits = false ∧ (tRegs l).cxl.ideLost = false ∧ (tRegs l).secDown = false ∧
      bit ((tRegs l).reg Reg.secPolicy) 4 = true ∧ bit ((tRegs l).reg Reg.secPolicy) 1 = false) ∧
    (tRegs ((Reg.secStatus, 1 <<< 30) :: l)).mailboxOpen = true ∧
    (tRegs ((Reg.secStatus, 1 <<< 30) :: l)).reg Reg.secStatus = 1 <<< 30 ∧ [0#8] ≠ leBytes 4 0x5A45524F := by decide

/-- A machine with an approved security controller and sessions. -/
def tSessions (l : List Session) : M :=
  { tRegs [(Reg.secStatus, 1 <<< 31), (Reg.secPolicy, 0x24), (Reg.ethPortCtl 15, 1 <<< 31)] with
    sec := { State.reset.m.sec with
             sessions := l, policy := List.replicate 128 1#8,
             ide := [⟨1, List.replicate 32 3#8, false⟩],
             ports := [⟨15, List.replicate 32 2#8, [1#8], [], [], []⟩] } }

/-- SpdmServices: open transports, the CO's and the user's root, all four sessions in use, and a closed transport. -/
theorem test_premises_SpdmServices :
    (tSessions []).board.live = true ∧ (tSessions []).spdmOpen true = true ∧ (tSessions []).spdmOpen false = true ∧
    State.reset.m.spdmOpen false = false ∧ 4 ≤ (tSessions (List.replicate 4 ⟨0, true, true⟩)).sec.sessions.length ∧
    (tSessions []).sec.sessions.length < 4 ∧ ((tSessions []).sec.coRoot).all (· == 0#8) = false ∧
    (tSessions [⟨3, true, false⟩]).session 3 = some ⟨3, true, false⟩ ∧ (tSessions [⟨3, true, false⟩]).session 4 = none := by
  decide

/-- IdeKeysProgrammedByCo: a session of the CO over DOE, one of the user, one over MCTP, and a key to start. -/
theorem test_premises_IdeKeysProgrammedByCo :
    (tSessions [⟨0, true, false⟩]).session 0 = some ⟨0, true, false⟩ ∧ (List.replicate 32 0#8).length = 32 ∧
    (∃ k ∈ (tSessions [⟨0, true, false⟩]).sec.ide, k.stream = 1) ∧
    (tSessions [⟨0, false, false⟩]).session 0 = some ⟨0, false, false⟩ ∧
    (tSessions [⟨0, true, true⟩]).session 0 = some ⟨0, true, true⟩ ∧ (tSessions []).session 0 = none := by decide

/-- MacsecKeys: the last port enabled, names of 1 and of 32 bytes, an MKA message on either side of this end's
priority, and a port with a SAK, that which the message distributes and another. -/
theorem test_premises_MacsecKeys :
    let m := tSessions [⟨0, true, false⟩]
    tSound m = true ∧ 15 < 64 ∧ m.session 0 = some ⟨0, true, false⟩ ∧ (List.replicate 32 0#8).length = 32 ∧
    1 ≤ [7#8].length ∧ (List.replicate 32 7#8).length ≤ 32 ∧ 15 < m.nPorts ∧ bit (m.reg (Reg.ethPortCtl 15)) 31 = true ∧
    m.approved = true ∧ (∃ p ∈ m.sec.ports, p.port = 15) ∧ ((m.sec.policy.drop 4).headD 0#8).toNat = 1 ∧ 1 < 2 ∧ 0 < 1 ∧
    bit (m.reg Reg.secPolicy) 2 = true ∧ (∀ p ∈ m.sec.ports.filter (·.port == 15), p.saks = []) ∧
    (let q : M := { m with sec := { m.sec with ports := m.sec.ports.map fun (p : PortKeys) => { p with saks := [⟨3, List.replicate 32 9#8, 1, 1⟩] } } }
     (∃ p ∈ q.sec.ports, p.port = 15) ∧ (∀ p ∈ q.sec.ports.filter (·.port == 15), p.saks ≠ []) ∧
      (∀ p ∈ q.sec.ports.filter (·.port == 15), ∀ k ∈ p.saks, k.key ≠ List.replicate 32 8#8) ∧
      (∀ p ∈ q.sec.ports.filter (·.port == 15), ∃ k ∈ p.saks, k.key = List.replicate 32 9#8)) ∧ [9#8].length ≠ 32 := by decide

/-- MailboxCommands: an open mailbox, inputs of each length, a record that READ_LOG finds, an index beyond the last, one that is lost;
an event log to be read, one record and all of it to be cleared. -/
theorem test_premises_MailboxCommands :
    let m := { tRegs [(Reg.hstStatus, 1 <<< 30), (Reg.mgtReadyMap, 2 ^ 126), (Reg.chkLogWr, 1)] with
      logBuf := [⟨0, 1, 177, 0, 0, 0, 0, 0, []⟩] }
    let input := [0#8, 0#8, 0#8, 0#8, 1#8, 0#8]
    m.board.live = true ∧ m.mailboxOpen = true ∧ m.hostWaits = false ∧ input.length = 6 ∧ leNat (input.take 4) < m.reg Reg.chkLogWr ∧
    [3#8].length = 1 ∧ leNat [3#8] < 4 ∧ 4 ≤ leNat [4#8] ∧
    (let i := [3#8, 0#8, 1#8, 0#8, 0#8, 0#8, 0#8, 0#8]
     i.length = 6 + 2 * leNat ((i.drop 2).take 1) ∧ leNat (i.take 1) < 4 ∧ bit (leNat ((i.drop 1).take 1)) 0 = false) ∧
    (let i := [0#8, 1#8, 0#8, 0#8, 0#8, 0#8]
     i.length = 6 + 2 * leNat ((i.drop 2).take 1) ∧ leNat (i.take 1) < 4 ∧ bit (leNat ((i.drop 1).take 1)) 0 = true) ∧
    (let i := [4#8, 0#8, 1#8, 0#8, 0#8, 0#8]; i.length ≠ 6 + 2 * leNat ((i.drop 2).take 1) ∧ 4 ≤ leNat (i.take 1)) ∧
    m.logRing = false ∧ (∀ r ∈ ({ m with logBuf := [] } : M).logBuf, r.index ≠ 0) ∧
    (∀ x, leNat (input.take 4) ≤ x → x < 1 → ∃ r ∈ m.logBuf, r.index = x) ∧
    m.reg Reg.chkLogWr ≤ leNat ([1#8, 0#8, 0#8, 0#8, 1#8, 0#8].take 4) ∧ 0 ∉ mailboxOpcodes ∧ mailboxOpcodes ≠ [] := by
  refine ⟨by decide, by decide, by decide, by decide, by decide, by decide, by decide, by decide, by decide, by decide, by decide,
    by decide, by decide, ?_, by decide, by decide, by decide⟩
  intro x _ h
  obtain rfl : x = 0 := by omega
  exact ⟨⟨0, 1, 177, 0, 0, 0, 0, 0, []⟩, by decide, rfl⟩

/-! ## Chapters 8 and 12 -/

/-- HostWindows: a window with IDE neither required nor missing, a slice that is ready and one that is not, an access of
wrong form, a host that waits, and the states of the HDM window, its decoder committed and not. -/
theorem test_premises_HostWindows :
    (let m := tRegs [(Reg.mgtReadyMap, 2 ^ 119), (Reg.hstStatus, 2 <<< 30 + 1 <<< 20)]
     m.board.live = true ∧ m.hostWaits = false ∧ m.ideOk = true ∧ inRegion (119 * 2 ^ 27) 64 = true ∧
      m.slicesReady (119 * 2 ^ 27) 64 = true ∧ inRegion (118 * 2 ^ 27) 64 = true ∧ m.slicesReady (118 * 2 ^ 27) 64 = false ∧
      m.noHdm = false ∧ m.memActive = true ∧ m.hdmOpen 0 = false ∧
      (let c := { m with cxl := { m.cxl with hdmOn := true, hdm1 := { ctl := 1 <<< 10 } } }
       c.hdmOpen (2 ^ 40 - 64) = true ∧ c.hdmOpen 0 = false ∧ c.memActive = true ∧ c.ideOk = true ∧
        ({ c with cxl := { c.cxl with ideLost := true } } : M).ideOk = false)) ∧
    (let m := tRegs [(Reg.secPolicy, 2), (Reg.hstStatus, 1 <<< 30)]; m.ideOk = false ∧ m.noHdm = true) ∧
    (¬ ((8 = 4 ∨ 8 = 8) ∧ 4 % 8 = 0)) ∧ (¬ ((2 = 4 ∨ 2 = 8) ∧ 0 % 2 = 0)) ∧
    State.reset.m.memActive = false ∧ { State.reset.m with heldBy := [(0, 1)] }.hostWaits = true := by decide

/-- LineCodeCorrectsOneDetectsThree: a line, and three symbols in error, the last of them a check symbol. -/
theorem test_premises_LineCodeCorrectsOneDetectsThree : (List.range 32).length = 32 ∧ (∀ x ∈ List.range 32, x < 256) ∧
    (∀ p ∈ [(0, 1), (31, 255), (35, 128)], p.1 < 36 ∧ 0 < p.2 ∧ p.2 < 256) := by decide

/-- LinesInjectionAndBackgroundWork: the last lines of both stores, injection enabled, by the host and by a control core, scrubbing enabled and not, a set in
service and one that is not. -/
theorem test_premises_LinesInjectionAndBackgroundWork : (List.replicate 32 255#8).length = 32 ∧
    (let m := tRegs [(Reg.memCtl, 6), (Reg.memSetState 7, 3 <<< 30), (Reg.mgtReadyMap, 2 ^ 126)]
     tSound m = true ∧ tAdmits m 0 false = true ∧ tAdmits m 128 false = true ∧ m.injectOk 0x3FFFFFFE0 = true ∧ m.injectOk 0x1FFFFFFFFE0 = true ∧ m.injectOk 0x400000000 = false ∧
      bit (m.reg Reg.memCtl) 1 = true ∧ m.setState 7 = 3 ∧ 0 + 1 < scrubLines 0 ∧ m.setState (20 / 3) ≠ 3) ∧
    bit (tRegs [(Reg.memCtl, 0)] |>.reg Reg.memCtl) 1 = false := by decide

/-- RegisterWritesFollowAccessCode: the host's window open, a register of each access code that a write concerns, an
adjustable setting, a reserved offset, accesses of the wrong form, a writer that waits, the host before bit 126; other commands that
write, that read, and that go to the mailbox. -/
theorem test_premises_RegisterWritesFollowAccessCode :
    let plain := fun (m : M) (o : Nat) (a : Acc) => !ownRule o && decide (o < 0x1000000) && o % 4 == 0 &&
      match m.resolve o with | some (r, k, i) => k == o && i == 0 && r.acc == a && decide (4 ≤ r.size) | none => false
    let m := { tRegs [(Reg.mgtReadyMap, 2 ^ 126)] with boot := { State.reset.m.boot with adj := [Reg.hstCtl] } }
    m.board.live = true ∧ tAdmits m 0 false = true ∧ tAdmits m 5 false = true ∧ tAdmits State.reset.m 0 true = true ∧
    tAdmits State.reset.m 0 false = false ∧ (¬ ((8 = 4 ∨ 8 = 8) ∧ 4 % 8 = 0)) ∧ cxlBlock 0x110000 = true ∧ cxlBlock 0xFFFFFC = false ∧
    m.resolve 0x110000 = none ∧ writesReg (.rlyCqDoorbell 0 5) = some (5, false) ∧ writesReg (.mgtFlashErase 0) = some (0, true) ∧
    writesReg (.coreRingReset 0 0 0) = some (0, false) ∧ readsReg (.cntBwReadLatch 15 0) = some (0, false) ∧
    toMailbox (.zeroise false []) = true ∧ State.reset.m.mailboxOpen = false ∧ State.reset.m.hostWaits = false ∧
    { m with heldBy := [(0, 1)] }.hostWaits = true ∧
    plain m 0x48 .rw = true ∧ plain m 0x310300 .w1c = true ∧ plain m 0x320300 .w1c = true ∧ plain m Reg.hstCtl .il = true ∧
    plain m Reg.hstStatus .ro = true ∧ Reg.hstCtl ∈ m.boot.adj ∧ Reg.hstCtl ∉ State.reset.m.boot.adj ∧
    m.resolve 0xFFFFFC = none ∧ { m with heldBy := [(5, 1)] }.stalled 5 = true ∧
    (tRegs [(Reg.secPolicy, 2)]).ideOk = false ∧ bit (State.reset.m.reg Reg.mgtReadyMap) 126 = false := by decide

/-- RegisterReadsFollowAccessCode: the same of a read, with a register that it clears and one that is write-only; a control core that
reads, and one that waits. -/
theorem test_premises_RegisterReadsFollowAccessCode :
    let shows := fun (m : M) (o : Nat) (a : Acc) => decide (o < 0x1000000) && o % 8 == 0 &&
      match m.resolve o with | some (r, k, i) => k == o && i == 0 && r.acc == a && decide (8 ≤ r.size) | none => false
    let m := tRegs [(Reg.mgtReadyMap, 2 ^ 126)]
    m.board.live = true ∧ tAdmits m 0 false = true ∧ tAdmits m 128 false = true ∧ m.hostWaits = false ∧ m.ideOk = true ∧
    bit (State.reset.m.reg Reg.mgtReadyMap) 126 = false ∧ { m with heldBy := [(128, 1)] }.stalled 128 = true ∧
    (¬ ((2 = 4 ∨ 2 = 8) ∧ 0 % 2 = 0)) ∧ (tRegs [(Reg.secPolicy, 2)]).ideOk = false ∧ m.resolve 0x110000 = none ∧ shows m Reg.hstPushDrops .rc = true ∧ shows m Reg.mgtFlashCmd .wo = true ∧ shows m 0x48 .rw = true ∧
    m.resolve 0xFFFFFC = none ∧ cxlBlock 0xFFFFFC = false ∧ cxlBlock 0x110000 = true := by decide

/-- A machine with a queue of 16 entries, enabled, whose link is up; what queue 63 holds is given. -/
def tQueue (l : List (Nat × Nat)) (h : HostQ) : M :=
  { tRegs ([(Reg.hstStatus, 2 <<< 30), (Reg.mgtReadyMap, 2 ^ 126 + 1)] ++ l) with hostQ := Tab.put HostQ.init [] 63 h }

/-- JobQueuesAndEntries: doorbells at both ends of the window, an idle queue, a hold-off, and entries: sound, poisoned, marked
and malformed; a MARKER whose turn it is, and jobs that wait for a core and for a bit, with a limit of their own and without. -/
theorem test_premises_JobQueuesAndEntries :
    tSound (tQueue [] {}) = true ∧ tAdmits (tQueue [] {}) 0 false = true ∧ (tQueue [] {}).qIdle 63 = true ∧ (tQueue [(Reg.hstQCtl 63, 1 <<< 31)] {}).qIdle 63 = false ∧
    (tQueue [] {}).qLog2 63 = 4 ∧
    (let m := tQueue [] { holding := true, owed := true }; (m.queue 63).holding = true ∧ (m.queue 63).owed = true) ∧
    (let m := tQueue [(Reg.hstQCtl 63, 1 <<< 31), (Reg.hstQWr 63, 1)] { marks := [0] }
     bit (m.reg (Reg.hstQCtl 63)) 31 = true ∧ m.reg (Reg.hstQFetched 63) ≠ m.reg (Reg.hstQWr 63) ∧
      bits (m.reg Reg.hstStatus) 31 30 ≠ 0 ∧ 0 ∈ (m.queue 63).marks ∧
      Job.ok { x := 0, entry := 1 } m = true ∧ Job.ok { x := 0, entry := 1 <<< 64 } m = true ∧
      Job.ok { x := 0, entry := 2 } m = false) ∧
    (let m := tQueue [] { jobs := [{ x := 0, entry := 1 }] }
     (m.queue 63).jobs.find? (fun j => j.x == 0 && j.kind == 1) = some { x := 0, entry := 1 } ∧
      m.reg (Reg.hstQDone 63) = 0) ∧
    (let j : Job := { x := 0, entry := 1 <<< 64 }
     let m := tQueue [] { jobs := [j] }
     m.waitingJob 63 0 = some j ∧ m.coresFree j = true ∧ m.requiredSet j = true ∧
      (m.setReg Reg.mgtReadyMap 0).requiredSet j = false ∧ (m.setCore 0 { job := some (0, 0) }).coresFree j = false ∧
      j.admitMs = 0 ∧ State.reset.m.admitDefault = 2000 ∧ j.limit ≤ 2000 ∧ 1999 < j.limit ∧
      ({ j with entry := 1 <<< 64 + 7 <<< 768 } : Job).admitMs ≠ 0) := by decide

/-- CompletionsReported: the last queue with the link up in CXL and in PCIe mode and down, next in order, watched, with a hold-off. -/
theorem test_premises_CompletionsReported :
    let m := tQueue [(Reg.hstQCtl 63, 3 <<< 29)] { jobs := [{ x := 0, entry := 1 }], watch := some 0 }
    m.wf = true ∧ bits (m.reg Reg.hstStatus) 31 30 = 2 ∧ 63 < 64 ∧ bit (m.reg (Reg.hstQCtl 63)) 30 = true ∧
    bit (m.reg (Reg.hstQCtl 63)) 29 = true ∧ (m.queue 63).holding = false ∧ (m.queue 63).written = [] ∧
    m.reg (Reg.hstQDone 63) = 0 ∧ (m.queue 63).watch = some 0 ∧ bits (State.reset.m.reg Reg.hstStatus) 31 30 = 0 ∧
    bits ((tQueue [(Reg.hstStatus, 1 <<< 30)] {}).reg Reg.hstStatus) 31 30 = 1 ∧ m.reg (Reg.hstQDone 63) ∉ (m.queue 63).written ∧
    bit ((tQueue [] {}).reg (Reg.hstQCtl 63)) 30 = false ∧ ((tQueue [] { holding := true }).queue 63).holding = true := by decide

/-- JobsAdmittedAndCompleted: a job of two cores that is free to go, the exit call of a core that runs, and a running job
whose cores have called, without and with an error. -/
theorem test_premises_JobsAdmittedAndCompleted :
    let j : Job := { x := 0, entry := 3 <<< 64 }
    let core : Core := { job := some (63, 0), exited := some (0, 7) }
    (let m := tQueue [(Reg.mgtReadyMap, 2 ^ 126 + 3)] { jobs := [j] }
     tSound m = true ∧ m.waitingJob 63 0 = some j ∧ m.coresFree j = true ∧ m.requiredSet j = true ∧ j.serial = false ∧
      m.board.stopped = false ∧ j.stateEn = false ∧ m.nextAdmitted = some (63, 0) ∧
      (m.setCore 1 core).nextAdmitted = none ∧ (m.setReg Reg.mgtReadyMap (2 ^ 126 + 1)).nextAdmitted = none) ∧
    (let m := State.reset.m.setCore 119 { job := some (0, 0), ctl := { running := true } }
     tSound m = true ∧ (m.core 119).job.isSome = true ∧ (m.core 119).ctl.running = true) ∧
    (let m := ((tQueue [] { jobs := [{ j with running := true }] }).setCore 0 core).setCore 1 { core with exited := some (5, 9) }
     tSound m = true ∧ m.runningJob 63 0 = some { j with running := true } ∧ j.cores.all m.coreDone = true ∧
      (m.core 0).exited = some (0, 7) ∧ (m.core 1).exited = some (5, 9) ∧ 5 ≠ 0 ∧
      (∀ k ∈ j.cores, k < 1 → (m.core k).exited = some (0, 7))) ∧
    (let m := ((tQueue [] { jobs := [{ j with running := true }] }).setCore 0 core).setCore 1 core
     (∀ n ∈ j.cores, (m.core n).exited = some (0, 7)) ∧ j.cores.all (m.setCore 1 {}).coreDone = false) := by decide

/-! ## Chapters 12 and 5 -/

/-- A machine in which core 119 has a sound ring S of 64 records, running, with WR, RD and what the ring holds given. -/
def tRing (w r : Nat) (l : List (Nat × Nat)) (g : Ring) : M :=
  (tRegs ([(Reg.coreRingBase 119 3, 119 * 2 ^ 27), (Reg.coreRingSize 119 3, 64), (Reg.coreRingCtl 119 3, 1),
    (Reg.coreRingWr 119 3, w), (Reg.coreRingRd 119 3, r), (Reg.coreRingRet 119 3, r), (Reg.mgtReadyMap, 2 ^ 126 + 2 ^ 119)] ++ l)).withRing
    119 3 fun _ => g

/-- JobsEndedEarly: a running job with a limit, a record of each kind of place in the queue, and a waiting job. -/
theorem test_premises_JobsEndedEarly :
    let limit : Job := { x := 0, entry := 1 <<< 64 + 5 <<< 800, running := true }
    let m := tQueue [(Reg.hstQWr 63, 2), (Reg.hstQFetched 63, 1)] { jobs := [limit] }
    tSound m = true ∧ tAdmits m 0 false = true ∧ 63 < 64 ∧ m.runningJob 63 0 = some limit ∧ limit.runMs = 5 ∧ atOrAfter 2 (m.reg (Reg.hstQWr 63)) = true ∧
    atOrAfter 1 (m.reg (Reg.hstQWr 63)) = false ∧ atOrAfter 1 (m.reg (Reg.hstQFetched 63)) = true ∧
    atOrAfter 0 (m.reg (Reg.hstQFetched 63)) = false ∧ (m.queue 63).jobs.find? (·.x = 0) = some limit ∧
    (∀ k ∈ (m.queue 63).jobs, k.x ≠ 0xFFFFFFFF) ∧ atOrAfter 0xFFFFFFFF (m.reg (Reg.hstQFetched 63)) = false := by decide

/-- LinkEventsAndResets: a link that is down, widths and speeds that it may and may not have, with and without what has been held; BARs
that have been written. -/
theorem test_premises_LinkEventsAndResets : tSound State.reset.m = true ∧ bits (State.reset.m.reg Reg.hstStatus) 31 30 = 0 ∧
    16 ∈ [4, 8, 16] ∧ 32 ∈ [8, 16, 32] ∧ 2 ∉ [4, 8, 16] ∧ 64 ∉ [8, 16, 32] ∧ 119 < State.reset.m.nCores ∧
    ({ jobs := [], late := [3] } : HostQ).late ≠ [] ∧ (∀ x ∈ [0x10, 0x14, 0x18, 0x1C, 0x20, 0x24],
      ({ State.reset.m with cxl := { State.reset.m.cxl with cfg := [(x, 0xFFFFFFFF)] } } : M).cxl.cfg.find? (·.1 = x) =
        some (x, 0xFFFFFFFF)) := by decide

/-- RecordsPushed: a ring with room and a full one, assemblies of each length, a writer that waits with its first
and with its last word, and accesses of the host that wait behind it, held still and no longer. -/
theorem test_premises_RecordsPushed :
    let asm := fun k : Nat => ({ asm := [(0, { words := List.replicate k 7 })] } : Ring)
    (let m := tRing 63 0 [] (asm 3); tSound m = true ∧ 119 < 120 ∧ 3 < 4 ∧ tAdmits m 0 false = true ∧ 119 < m.nCores ∧ m.stalled 0 = false ∧
      m.ringFull 119 3 = false ∧ (m.asm 119 3 0).words.length = 3 ∧ m.recAddr 119 3 63 % 32 = 0 ∧
      inRegion (m.recAddr 119 3 63) 32 = true) ∧
    (tRing 64 0 [] (asm 3)).ringFull 119 3 = true ∧ ((tRing 0 0 [] (asm 1)).asm 119 3 0).words.length = 1 ∧
    ((tRing 0 0 [] (asm 2)).asm 119 3 0).words.length = 2 ∧
    (let m := { tRing 64 0 [] { asm := [(0, { words := [1, 2, 3], stalled := some (3, 4) })] } with heldBy := [(0, 480)] }
     m.stalled 0 = true ∧ (m.asm 119 3 0).stalled = some (3, 4) ∧ m.ringFull 119 3 = true ∧ m.cxl.waiting = [] ∧ m.pushLimit = 1000 ∧
      (m.asm 119 3 0).stalled.isSome = true ∧ 999 < m.pushLimit) ∧
    (let m := { tRing 63 0 [] { asm := [(0, { words := [1, 2, 3], stalled := some (3, 4) })] } with heldBy := [(0, 480)] }
     m.ringFull 119 3 = false ∧ (m.asm 119 3 0).stalled = some (3, 4) ∧ (m.asm 119 3 0).words.length = 3) ∧
    (let m := { tRing 63 0 [] { asm := [(0, { stalled := some (0, 4) })] } with heldBy := [(0, 480)] }
     m.ringFull 119 3 = false ∧ (m.asm 119 3 0).stalled = some (0, 4)) ∧ ((tRing 63 0 [] {}).asm 119 3 0).stalled = none ∧
    (let m := { State.reset.m with cxl := { State.reset.m.cxl with waiting := [Instr.hstQDoorbell 63 1 0] } }
     m.hostWaits = false ∧ m.cxl.waiting = [.hstQDoorbell 63 1 0] ∧ m.ideOk = true ∧ (tRegs [(Reg.secPolicy, 2)]).ideOk = false) ∧
    mayWait (.hstQDoorbell 63 1 0) = true ∧ toMailbox (.getReady []) = true := by decide

/-- RingRunResetAndThrow: a stopped ring of sound and of unsound shape, one that runs, and a count next to its limit. -/
theorem test_premises_RingRunResetAndThrow :
    (let m := tRing 5 5 [(Reg.coreRingCtl 119 3, 0)] {}; tSound m = true ∧ tAdmits m 0 false = true ∧ tAdmits m 1 false = true ∧
      120 ≤ 255 ∧ m.nCores = 120 ∧ m.ringRun 119 3 = false ∧
      bit (m.reg (Reg.coreRingState 119 3)) 28 = false ∧ m.ringShapeOk 119 3 = true ∧ (m.ring 119 3).marks = []) ∧
    (tRing 5 5 [(Reg.coreRingSize 119 3, 65)] {}).ringShapeOk 119 3 = false ∧ (tRing 5 5 [] {}).ringRun 119 3 = true ∧
    (tRegs [(Reg.corePassCount 119 255, 65534)]).reg (Reg.corePassCount 119 255) + 1 ≤ 65535 ∧
    65535 < (tRegs [(Reg.corePassCount 119 255, 65534)]).reg (Reg.corePassCount 119 255) + 2 := by decide

/-- AbortsReachRecords: a record in flight, one that waits at RD, one behind it, one that has retired, one beyond WR; and a
job on the core. -/
theorem test_premises_AbortsReachRecords :
    let m := tRing 3 1 [] { infl := [{ x := 0, w0 := 0x89, w1 := 0, w2 := 0, w3 := 0, started := true }] }
    tSound m = true ∧ tAdmits m 0 false = true ∧ atOrAfter 3 (m.reg (Reg.coreRingWr 119 3)) = true ∧ atOrAfter 2 (m.reg (Reg.coreRingWr 119 3)) = false ∧
    (∃ f ∈ (m.ring 119 3).infl, f.x = 0 ∧ f.latched = false) ∧ m.unissued 119 3 = [1, 2] ∧
    (¬ ∃ f ∈ (m.ring 119 3).infl, f.x = 0xFFFFFFFF ∧ f.latched = false) ∧
    atOrAfter 0xFFFFFFFF (m.reg (Reg.coreRingWr 119 3)) = false ∧ atOrAfter 2 1 = true ∧ (m.core 119).job = none ∧
    (let j : Job := { x := 0, entry := 1 <<< (64 + 119), running := true }
     let t := { m with hostQ := Tab.put HostQ.init [] 63 { jobs := [j] } }.setCore 119 { m.core 119 with job := some (63, 0) }
     (t.core 119).job = some (63, 0) ∧ t.runningJob 63 0 = some j ∧ 119 ∈ j.cores ∧ 119 < t.nCores) := by decide

/-- A record in a ring's line. -/
def tRecord (m : M) (x w0 w1 : Nat) : M :=
  m.putLine (m.recAddr 119 3 x / 32) (leBytes 32 (w0 + w1 <<< 64)) false

/-- RecordsIssueAtTheArbitrationPoint: a NOP that catches two of a pass, with and without them; one that fails decode; and a
record with and without the credits that it needs, and behind another engine's; a STEP_SET; an MMA that its slot fails, and one whose
slot is draining. -/
theorem test_premises_RecordsIssueAtTheArbitrationPoint :
    let m := fun count op credit : Nat => tRecord (tRing 6 5 [(Reg.corePassCount 119 9, count),
      (Reg.pwrBalance (State.reset.m.posOf 119), credit)] {}) 5 (op + 9 <<< 8 + 2 <<< 16) 0
    let f := (decode 119 3 5 (m 2 0 0)).1.entry 5
    tSound (m 2 0 0) = true ∧ ((m 2 0 0).ring 119 3).marks = [] ∧ ((m 2 0 0).ring 119 3).infl = [] ∧
    (m 2 0 0).canArbitrate 119 3 = true ∧ (m 2 0 0).ringEmpty 119 3 = false ∧
    (m 2 0 0).headRec 119 3 = some ⟨9 <<< 8 + 2 <<< 16, 0, 0, 0⟩ ∧ ((m 2 0 0).ring 119 3).dec = none ∧
    (m 1 0 0).caught 119 3 = false ∧ (m 2 0 0).caught 119 3 = true ∧
    (decode 119 3 5 (m 2 0x40 0)).1.status ≠ 0 ∧ (decode 119 3 5 (m 2 0 0)).1.status = 0 ∧ (m 2 0 0).posOf 119 < 128 ∧
    (let t := (m 2 0 0).withRing 119 3 fun g => { g with dec := some f }
     (t.ring 119 3).dec = some f ∧ t.caught 119 3 = true ∧ t.engineBusy 119 3 f.rcd = false ∧ t.atSlot 119 f = some f ∧
      t.outranked 119 3 f = false ∧ t.otherReserved 119 3 = false ∧ f.rcd.op < 3 ∧
      t.balance (t.posOf 119) < ((min (t.energy (t.posOf 119) 3 f.cls f.units) creditCap : Nat) : Int) ∧
      (t.atIssue 119 3 f).started = false) ∧
    (let t := m 2 3 1000000
     ((min (t.energy (t.posOf 119) 3 f.cls f.units) creditCap : Nat) : Int) ≤ t.balance (t.posOf 119) ∧
      (decode 119 3 5 t).1.rcd.op = 3 ∧ (decode 119 3 5 t).1.status = 0) ∧
    (let t := (m 2 0 1000000).withRing 119 3 fun g => { g with infl := [{ x := 4, w0 := 0x81, w1 := 0, w2 := 0, w3 := 0 }] }
     t.engineBusy 119 3 ⟨0x80, 0, 0, 0⟩ = true) ∧
    (let g : InFlight := { x := 0, w0 := 0x30, w1 := 0, w2 := 0, w3 := 0, descs := [0, 0] }
     let t := (m 2 0 0).setCore 119 { (m 2 0 0).core 119 with slotA := { state := .draining } }
     t.engineBusy 119 1 g.rcd = true ∧ ((m 2 0 0).setCore 119 { (m 2 0 0).core 119 with slotA :=
       { state := .opened, cls := .a7, m := 1, n := 1 } }).atSlot 119 g = none) := by decide +kernel

/-- MacroOpsRetire: a finished macro-op that throws to its own core, with room in the pass and without; to a core that moves;
one without a throw that halts; and one that has not finished. -/
theorem test_premises_MacroOpsRetire :
    let f : InFlight := { x := 0, w0 := 1 + 9 <<< 24 + 2 <<< 32 + 0xFF <<< 40 + 1 <<< 48, w1 := 0, w2 := 0, w3 := 0, done := true }
    let moved : InFlight := { f with w0 := 1 + 9 <<< 24 + 2 <<< 32 }
    (let m := tRing 1 1 [(Reg.coreRingRet 119 3, 0), (Reg.corePassCount 119 9, 65533)] { infl := [f] }
     tSound m = true ∧ (m.ring 119 3).infl = f :: [] ∧ f.done = true ∧ f.held = false ∧ f.thrown = 0 ∧ f.throws = true ∧
      f.rcd.throwCore = 0xFF ∧ m.reg (Reg.corePassCount 119 9) + f.rcd.throwN ≤ 65535 ∧ f.rcd.complete = true ∧
      m.recAddr 119 3 0 % 32 = 0 ∧ f.halts = false ∧ f.pred = f.obs ∧ { f with pred := [1], obs := [2] }.pred ≠ [2] ∧
      (m.ring 119 2).infl = []) ∧
    65535 < 65534 + f.rcd.throwN ∧
    (let m := tRing 1 1 [(Reg.mgtCoreMap 0, 3 <<< 28)] { infl := [moved] }
     moved.throws = true ∧ moved.rcd.throwCore = 0 ∧ 0 ≠ 119 ∧ m.coreMode 0 = 3) ∧
    (let m := { State.reset.m with pos := Tab.put PosX.init State.reset.m.pos (State.reset.m.posOf 0) { practice := true } }
     (m.posX (m.posOf 0)).practice = true) ∧
    (let h : InFlight := { x := 0, w0 := 6, w1 := 0, w2 := 0, w3 := 0, done := true, poison := true }
     h.throws = false ∧ h.halts = true ∧ h.rcd.complete = false) ∧
    { f with done := false }.done = false := by decide

/-! ## Chapters 6, 2 and 3 -/

/-- A record in flight that has not begun. -/
def tFlight (op w1 : Nat) : InFlight := { x := 0, w0 := op, w1 := w1, w2 := 0, w3 := 0 }

/-- A machine whose ring S holds a CATCH of nothing at RD, with the credits for it, on a core that is ready. -/
def tCatch : M := tRecord (tRing 6 5 [(Reg.pwrBalance (State.reset.m.posOf 119), 1000000)] {}) 5 2 0

/-- MacroOpsRunTheirRecord: a record in flight that has not begun, a record at RD that may not issue, and one that may. -/
theorem test_premises_MacroOpsRunTheirRecord :
    (tRing 1 1 [] { infl := [tFlight 2 0] }).waits 119 3 2 = some (0, tFlight 2 0) ∧
    (tRing 1 1 [] {}).waits 119 3 2 = none ∧ (issue 119 3 (some 2) (tRing 1 1 [] {})).1 = false ∧
    tCatch.waits 119 3 2 = none ∧ (issue 119 3 (some 2) tCatch).1 = true ∧
    (((issue 119 3 (some 2) tCatch).2.waits 119 3 2).map fun x => (x.1, x.2.x)) = some (0, 5) := by decide +kernel

/-- CommonMacroOps: each of the records in flight. -/
theorem test_premises_CommonMacroOps_waits : ((List.range 7).all fun op =>
    (tRing 1 1 [] { infl := [tFlight op 0] }).waits 119 3 op == some (0, tFlight op 0)) = true := by decide

/-- CommonMacroOps: a step register that can be incremented and one that cannot; a job state record that is sound and one that
is out of range. -/
theorem test_premises_CommonMacroOps : bit (tFlight 3 (1 <<< 63)).w1 63 = true ∧ bit (tFlight 3 7).w1 63 = false ∧
    (tRegs [(Reg.coreStep 119, 2 ^ 40 - 2)]).reg (Reg.coreStep 119) < 2 ^ 40 - 1 ∧
    2 ^ 40 - 1 ≤ (tRegs [(Reg.coreStep 119, 2 ^ 40 - 1)]).reg (Reg.coreStep 119) ∧
    State.reset.m.switchedIn 119 = true ∧ State.reset.m.posOf 119 < 128 ∧ bits (tFlight 5 64).w1 41 0 % 32 = 0 ∧
    (∀ l ∈ linesOf 64 64, rsDecode (State.reset.m.codeword l) = .ok) ∧
    jobRecordOk (seedRecord 9) = true ∧ jobRecordOk 0 = false := by decide +kernel

/-- FormatValuesRoundToThemselves: a value of FP8 E5M2. -/
theorem test_premises_FormatValuesRoundToThemselves :
    ∃ f, Fp.ofCode 4 = some f ∧ (f.decode 0x38).isNan = false := ⟨_, rfl, by decide⟩

/-- RoundingIsCorrect: a value between two of BF16, in a mode that does not overflow. -/
theorem test_premises_RoundingIsCorrect : ∃ f, Fp.ofCode 2 = some f ∧ 0 < 0x1FFFFF ∧ RMode.rup ≠ .sr ∧
    (f.round true 0x1FFFFF (-20) .rup 0).2.overflow = false ∧ (f.round true 0x1FFFFF (-20) .rup 0).2.inexact = true :=
  ⟨_, rfl, by decide⟩

/-- ExactAccumulationIsOrderFree: a slot of class W, and two terms in either order. -/
theorem test_premises_ExactAccumulationIsOrderFree : ({ cls := .w } : Slot).cls = .w ∧
    [(Val.fin false 3 0, none), (Val.fin true 1 (-9), some (0, 0, 1))].Perm
      [(Val.fin true 1 (-9), some (0, 0, 1)), (Val.fin false 3 0, none)] := ⟨rfl, List.Perm.swap _ _ _⟩

/-- ExactRecordsHoldSums: the largest sum of a W record, and a large one of an L record. -/
theorem test_premises_ExactRecordsHoldSums :
    ({ sum := 2 ^ (64 * exBands false - 1) - 1 } : ExAcc).sum < 2 ^ (64 * exBands false - 1) ∧
    ({ sum := 2 ^ 4350 } : ExAcc).sum < 2 ^ (64 * exBands true - 1) := by decide +kernel

/-- A machine whose core 119 has slot A open for one element of the given class, an MMA of 1 × 1 BF16 operands in flight on it,
and 3.0 and −2.0 as its operands. -/
def tMma (op : Nat) (cls : SlotClass) : M :=
  let td := fun a : Nat => a + 2 <<< 42 + 1 <<< 64 + 1 <<< 96 + 64 <<< 128
  let f : InFlight := { x := 0, w0 := op, w1 := 0, w2 := 0, w3 := 0, descs := [td 0, td 64], slot := some 0 }
  let m := (State.reset.m.putLine 0 (leBytes 32 0x4040) false).putLine 2 (leBytes 32 0xC000) false
  (m.withRing 119 1 fun g => { g with infl := [f] }).setCore 119
    { (m.withRing 119 1 fun g => { g with infl := [f] }).core 119 with
      slotA := { state := .opened, cls := cls, w := 4, fbs := 0x10000000000, m := 1, n := 1, elems := [{}] } }

/-- What an MMA of the test does to the element. -/
def tMmaElem (o : Out) : Option (Int × Option Nat) :=
  match o with
  | .next t => ((t.m.core 119).slotA.elems[0]?).map fun x => (x.win, x.a7)
  | _ => none

/-- MatrixProductsAccumulateExactly: MMA on a slot of class W, and MMA_A7 on one of class A7. -/
theorem test_premises_MatrixProductsAccumulateExactly :
    let m := tMma 0x30 .w
    ((m.waits 119 1 0x30).map fun x => x.1) = some 0 ∧ tSound m = true ∧
    ((tMma 0x32 .a7).waits 119 1 0x32).isSome = true ∧ ((tMma 0x32 .a7).core 119).slotA.cls = .a7 ∧
    (((m.waits 119 1 0x30).map fun x => x.2).all fun f =>
      let sl := (m.core 119).slot f.rcd.slotOf
      f.rcd.play == 0 && sl.state == .opened && sl.fbs % 32 == 0 && sl.elems.length == sl.m * sl.n && (f.td 0).rows == sl.m &&
      (f.td 1).cols == sl.n && sl.cls == .w && ((mmaLines f ++ linesOf (sl.record 0) sl.cls.fbsStride).all fun l =>
        rsDecode (m.codeword l) == .ok)) = true := by decide +kernel

/-- The product of 3.0 and −2.0 lies wholly in window 4, whose lowest bit is 2⁻⁴². -/
theorem test_mma_product : tMmaElem (exec (.mma 119) { State.reset with m := tMma 0x30 .w }) = some (-6 * 2 ^ 42, none) := by
  decide +kernel

/-- MMA_A7 leaves −6.0 in FP32. -/
theorem test_mma_a7 : (tMmaElem (exec (.mmaA7 119) { State.reset with m := tMma 0x32 .a7 })).map (·.2) = some (some 0xC0C00000) := by
  decide +kernel

/-- SlotEvents: an open slot of each class and an empty one, a DRAIN that has ended with a matrix macro-op that waits for its
slot, and a macro-op that a freeze lengthens. -/
theorem test_premises_SlotEvents :
    ((State.reset.m.core 119).slot 0).state ≠ .opened ∧ (((tMma 0x30 .w).core 119).slot 0).state = .opened ∧
    (let m := (tMma 0x30 .w).setReg Reg.chkCtl 1
     m.runningAt (m.posOf 119) = 119 ∧ 119 < m.nCores ∧ bit (m.reg Reg.chkCtl) 0 = true ∧
      (m.ring 119 1).infl.findIdx? (fun f => opMatrix f.rcd.op && f.rcd.op != 0x32) = some 0 ∧
      ((m.setReg (Reg.corePlayState 119 1) (1 <<< 24)).hazardSetting 119 1) ≠ 0 ∧ (m.ring 119 1).infl ≠ []) ∧
    (let d : InFlight := { x := 0, w0 := 0x34, w1 := 0, w2 := 0, w3 := 0, done := true, started := true, slot := some 0 }
     let t := (((tMma 0x30 .w).setReg (Reg.coreRingWr 119 1) 1).setReg (Reg.coreRingBase 119 1) 0x1000).putLine 0x80
       (leBytes 32 0x30) false
     let m := (t.setCore 119 ((t.core 119).setSlot 0 { state := .draining })).withRing 119 1 fun g => { g with infl := [d] }
     m.headRec 119 1 = some ⟨0x30, 0, 0, 0⟩ ∧ opMatrix 0x30 = true ∧ m.ringEmpty 119 1 = false ∧
      ((m.core 119).slot 0).state = .draining ∧ (m.ring 119 1).infl = [d] ∧ d.rcd.op = 0x34 ∧ d.slot = some 0 ∧ d.done = true ∧
      (m.putLine 0x80 (leBytes 32 0x30) true).headRec 119 1 = none) := by decide +kernel

/-! ## Chapters 5 and 14 -/

/-- LogicalCoresMove: a core that goes to the first bench position, still and not; one that is to be doubled, with a host and
without; a doubled position whose other core has work; and the accesses of a running control core. -/
theorem test_premises_LogicalCoresMove :
    (let m := State.reset.m.setCore 0 { target := some (true, 60) }
     tSound m = true ∧ 0 < m.nCores ∧ (m.core 0).target = some (true, 60) ∧ m.coreStill 0 = true ∧ 60 < 128 ∧ 60 ≠ m.posOf 0 ∧
      m.posState 60 = 1) ∧
    (let m := State.reset.m.setCore 0 { target := some (false, 0) }
     (m.core 0).target = some (false, 0) ∧ m.hostFor 0 = some 1) ∧
    ((tRing 1 1 [] { infl := [tFlight 1 0] }).coreStill 119 = false) ∧
    (let j : Job := { x := 0, entry := 1 <<< (64 + 119), running := true }
     let m := { State.reset.m.setCore 119 { job := some (63, 0), ctl := { running := true } } with
       hostQ := Tab.put HostQ.init [] 63 { jobs := [j] } }
     (m.core 119).job = some (63, 0) ∧ m.runningJob 63 0 = some j ∧ 119 ∈ j.cores ∧ (m.core 119).ctl.running = true) ∧
    accessFault 0x20000000002 4 = true ∧ accessFault 0x20000000004 4 = false ∧ accessFault 0x400000000 1 = true ∧
    (let m := State.reset.m.putLine 0 (List.replicate 32 0#8) true
     accessFault 31 1 = false ∧ inRegion 31 1 = true ∧ ∃ l ∈ linesOf 31 1, rsDecode (m.codeword l) = .poisoned) := by decide +kernel

/-- LogicalCoresMove: core 119 hosts core 118, runs, and is idle, and core 118 has work; a ring that is stopped, and one that
is not. -/
theorem test_premises_LogicalCoresMove_doubled :
    let p := State.reset.m.posOf 119
    let m := (tRegs [(Reg.mgtCoreMap 119, setBits (State.reset.m.reg (Reg.mgtCoreMap 119)) 31 16 0x1076),
      (Reg.mgtCoreMap 118, p + 119 <<< 16 + 2 <<< 28), (Reg.coreRingCtl 118 0, 1), (Reg.coreRingWr 118 0, 1)])
    m.logicalAt p = 119 ∧ bits (m.reg (Reg.mgtCoreMap 119)) 23 16 = 118 ∧ m.coreMode 119 = 1 ∧ m.posState p = 0 ∧
    (m.posX p).practice = false ∧ m.coreStill 119 = true ∧ m.hasWork 118 0 = true ∧ m.coreIdle 119 = true ∧ p < 128 ∧
    m.ringRun 118 0 = true ∧ m.ringRun 118 1 = false ∧ bit 3 0 = true ∧ tAdmits m 1 false = true := by decide +kernel

/-- A machine whose core 119 has a shadow on slot 0, compared or split. -/
def tShadow (split : Bool) : M :=
  (State.reset.m.setReg Reg.chkCtl 1).setCore 119 { shadows := [⟨0, State.reset.m.posOf 119, 60, 0, 0, 0, 0, 1, 1, 0, split⟩] }

/-- ShadowsAndDecisions: a matrix macro-op that is held, a shadow that waits and one that is split, and a matrix macro-op and a
DRAIN that have begun, with their checks on. -/
theorem test_premises_ShadowsAndDecisions :
    (let f : InFlight := { tFlight 0x30 0 with held := true }; f.held = true ∧ opMatrix f.rcd.op = true) ∧
    tSound (tShadow false) = true ∧ ((tShadow false).shadowOf 119 0 false).isSome = true ∧
    ((tShadow true).shadowOf 119 0 true).isSome = true ∧ (tShadow false).shadowOf 119 1 true = none ∧
    (let g : InFlight := { tFlight 0x30 0 with started := true }
     let d : InFlight := { tFlight 0x34 0 with started := true }
     let m := ((State.reset.m.setReg Reg.chkCtl 1).setReg Reg.mgtDoubleCtl 1).withRing 119 1 fun r => { r with infl := [g, d] }
     (m.ring 119 1).infl.find? (fun f => f.started && opMatrix f.rcd.op && f.rcd.op != 0x32 && f.rcd.slotOf == 0) = some g ∧
      (m.ring 119 1).infl.find? (fun f => f.started && f.rcd.op == 0x34 && f.rcd.slotOf == 0) = some d ∧
      bit (m.reg Reg.chkCtl) 0 = true ∧ (m.posX (m.posOf 119)).csumOff = false ∧ bit (m.reg Reg.mgtDoubleCtl) 0 = true ∧
      m.posState (m.posOf 119) < 2) := by decide

/-- PracticeAndErrorLog: a bench position and an active one that Practice may enter, one that it holds, before and after a
failure, and the log with and without its ring, with a full buffer. -/
theorem test_premises_PracticeAndErrorLog :
    (let m := tRegs [(Reg.chkPractice, 1 <<< 31), (Reg.mgtDoubleCtl, 1)]
     tSound m = true ∧ bit (m.reg Reg.chkPractice) 31 = true ∧ m.posState 127 = 1 ∧ m.shadowBusy 127 = false ∧
      m.posState 0 = 0 ∧ bit (m.reg Reg.mgtDoubleCtl) 0 = true ∧ (∀ n ∈ m.coresAt 0, m.coreIdle n = true)) ∧
    (let x : PosX := { practice := true, csumRun := 9 }
     x.practice = true ∧ x.retry = false ∧ 10 ≤ x.csumRun + 1 ∧ bit (State.reset.m.reg (Reg.chkPos 127)) 30 = false) ∧
    State.reset.m.logRing = false ∧ (List.replicate 64 (⟨0, 1, 0, 0, 0, 0, 0, 0, []⟩ : LogRec)).length = 64 ∧
    (let m := tRegs [(Reg.mgtReadyMap, 2 ^ 121), (Reg.chkLogBase, 0x1FFFFFC0000)]
     m.logRing = true ∧ m.logBuf = [] ∧ m.reg Reg.chkLogBase % 32 = 0 ∧ m.reg Reg.chkPracticeBase % 32 = 0) := by decide

/-! ## Chapters 9 and 14 -/

/-- A machine whose core 119 has one UPDATE in flight of verdict group 0, to which entry 63 is bound with a verdict. -/
def tUpdate (verdict : Nat) (u : Upd) (ls : List Nat) : M :=
  (tRegs [(Reg.updVgroup 63, 0x80000000), (Reg.updVerdict 63, verdict)]).withRing 119 3 fun g =>
    { g with infl := [{ x := 0, w0 := 0x89, w1 := 0, w2 := 0, w3 := 0, ls := ls, started := true, upd := u }] }

/-- A layer entry for two elements of FP32 in the near store: plain momentum, no statistics. -/
def tLayer : Nat := 2 <<< 64 + 0x1000 <<< 128 + 0x2000 <<< 192 + 0x4000 <<< 320 + 1 <<< 53

/-- UpdatesWaitAndRun: a write of a group, taken and not; an UPDATE that waits, with each of the verdicts and with none; one
with a run to come, with the credits and without; and one with none left. -/
theorem test_premises_UpdatesWaitAndRun :
    let reg := Reg.updVgroup 62
    tAdmits (tRegs [(Reg.mgtReadyMap, 2 ^ 126)]) 0 false = true ∧
    (bit 0x80000000 31 = true ∧ (tUpdate 0 {} []).reg (Reg.updVgroup 63) = 0x80000000 + bits 0x80000000 15 0) ∧
    (let m := { tUpdate 0 {} [] with boot := { State.reset.m.boot with adj := [reg] } }; reg ∈ m.boot.adj ∧
      ∀ k, k < 64 → m.reg (Reg.updVgroup k) ≠ 0x80000000 + bits 0x80000001 15 0) ∧ reg ∉ State.reset.m.boot.adj ∧
    (let waits := fun f : InFlight => f.upd.waiting && !f.done
     [2, 3, 4].all (fun v => ((tUpdate (v <<< 61) { waiting := true } []).sEntry 119 fun f => waits f &&
       (tUpdate (v <<< 61) { waiting := true } []).verdictFor f == some v).isSome) = true ∧
      ((tUpdate (2 <<< 61 + 1) { waiting := true } []).sEntry 119 fun f => waits f &&
        (tUpdate (2 <<< 61 + 1) { waiting := true } []).verdictFor f == some 5).isSome = true ∧
      (tUpdate 0 { waiting := true } []).sEntry 119 (fun f => waits f && ((tUpdate 0 { waiting := true } []).verdictFor f).isSome)
        = none ∧ ((tUpdate 0 { waiting := true } []).sEntry 119 waits).isSome = true ∧
      ((tUpdate 0 { waiting := true } []).sEntry 119 fun f => waits f && ((tUpdate 0 { waiting := true } []).verdictFor f).isNone &&
        decide (f.limit ≤ 0)).isSome = true ∧
      ((tUpdate (2 <<< 61) { waiting := true } []).sEntry 119 fun f => waits f &&
        ((tUpdate (2 <<< 61) { waiting := true } []).verdictFor f).isNone) = none) ∧
    (let m := tUpdate 0 { released := true, pass := 1 } [tLayer]
     let l := Layer.parse tLayer
     ((m.sEntry 119 fun f => f.upd.released && !f.done && f.nextRun == some (1, 0, 0)).isSome = true) ∧
      m.unitIsland l 0 < 179 ∧ l.blocked = false ∧ l.statsEn = false ∧ l.alg ≠ 2 ∧ l.runAt 0 = 2 ∧
      m.balance (m.unitIsland l 0) < ((min (m.unitEnergy (m.unitIsland l 0) 1) creditCap : Nat) : Int) ∧
      (((List.range 5).flatMap fun a => (List.range 2).flatMap fun i => l.elemLines a i).all fun x =>
        rsDecode (m.codeword x) == .ok) = true) ∧
    (let m := tUpdate 0 { released := true, pass := 1, elem := 2 } [tLayer]
     (m.sEntry 119 fun f => f.upd.released && !f.done && f.nextRun.isNone).isSome = true ∧ statRecords [Layer.parse tLayer] = [] ∧
      (∀ l ∈ linesOf 0x4000 320, rsDecode (m.codeword l) = .ok) ∧
      (let l := Layer.parse (tLayer + 1 <<< 35 + 0x4000 <<< 448); statRecords [l] = [l] ∧ l.stats = 0x4000)) := by decide +kernel

/-- ParityRuns: a module of class 1 with one chunk to a block, a step that its header has and one that it has not, and a
survivor with something to send; a header that is clean and one that is poisoned. -/
theorem test_premises_ParityRuns :
    let m := tRegs [(Reg.chkRedundancy, 1), (Reg.chkSaveLen, 7 * 0x40000), (Reg.chkSaveBase, 0x10000000000),
      (Reg.chkParityBase, 0x10010000000), (Reg.mgtReadyMap, 2 ^ 126)]
    tSound m = true ∧ tAdmits m 0 false = true ∧ (∀ l ∈ linesOf (m.reg Reg.chkParityBase) 5, rsDecode (m.codeword l) = .ok) ∧
    (let b := m.putLine (m.reg Reg.chkParityBase / 32) (List.replicate 32 0#8) true
     ∃ l ∈ linesOf (b.reg Reg.chkParityBase) 5, rsDecode (b.codeword l) = .poisoned) ∧ m.parityShape = some (8, 1) ∧ m.rly.parity.mode = 0 ∧ 0 < m.parityN 8 1 ∧ m.parityStep = 0 ∧
    m.parityStep ≠ 1 ∧ m.parityBlock 8 1 0 % 32 = 0 ∧ m.parityB 8 1 % 32 = 0 ∧ (tRegs [(Reg.chkRedundancy, 0)]).parityShape = none ∧
    0 < (m.rebuildSends 8 1 2 (m.place 8)).length * ((List.range 8).filter (bit 2)).length ∧ bit 2 0 = false ∧
    m.rebuildSends 8 1 2 0 ≠ [] := by decide +kernel

/-! ## Chapter 10 -/

/-- A machine whose port 15 is up and is path 0, and whose Rally with node 5 is given. -/
def tRally (l : List (Nat × Nat)) (r : Rally) : M :=
  let m := tRegs ([(Reg.ethPortCtl 15, 1 <<< 31), (Reg.ethPortStatus 15, 2 <<< 30), (Reg.trnPathMask, 2 ^ 15),
    (Reg.mgtReadyMap, 2 ^ 122 + 2 ^ 123 + 2 ^ 126)] ++ l)
  { m with trn := { m.trn with rallies := Tab.put Rally.init [] 5 r } }

/-- MessagesSent: Rallies in each outbound state, on chip and not, with and without room and something to send; a suspect and
an idle path; an acknowledgement that is due; a context that is being loaded. -/
theorem test_premises_MessagesSent :
    let msg : OutMsg := { cls := 2, tag := 9, lines := messageLines 0 (List.replicate 32 (0#8)) [], mseq := some 0 }
    (let m := tRally [] { out := 2, onChip := true, msgs := [msg], inOpen := true, since := 1 }
     let r := m.rally 5
     tSound m = true ∧ m.board.stopped = false ∧ m.portUp 15 = true ∧ m.macsecOk 15 = true ∧ m.board.portOff = false ∧
      m.pathPort 0 = some 15 ∧ m.pathPort 1 = none ∧ m.trnReady = true ∧ m.turnOf 5 0 = true ∧ r.out = 2 ∧ r.windowOpen = true ∧ r.onChip = true ∧
      r.nextPkt.isSome = true ∧ r.inOpen = true ∧ r.since ≠ 0 ∧ (r.path 0).suspect = false) ∧
    ({ psn := 2047, acked := 0xFFFFFFFF } : Rally).windowOpen = true ∧
    ({ psn := 2048, acked := 0xFFFFFFFF } : Rally).windowOpen = false ∧
    ({ onChip := true } : Rally).nextPkt.isNone = true ∧ ((tRally [] {}).rally 5).out = 0 ∧
    (let r := (tRally [] { out := 1, openSends := 1 }).rally 5
     r.out = 1 ∧ min 10000 (bits (State.reset.m.reg Reg.trnTiming) 15 8 * 2 ^ r.openSends) ≤ 10000) ∧
    ((({ out := 2, paths := [(0, { suspect := true })] } : Rally).path 0).suspect = true) ∧
    (let r : Rally := { out := 2, paths := [(0, { ce := 1, recv := 2 })] }
     0 < (r.path 0).ce ∧ (r.path 0).adjustable 0 = true ∧ Tab.wf PathSt.init r.paths = true) ∧
    ({ adjusted := some 5, srtt := 7 } : PathSt).adjustable 11 = false ∧ State.reset.m.trnReady = false ∧
    bits (State.reset.m.reg Reg.trnTiming) 31 16 ≤ 65535 ∧
    (let m := tRally [] { loading := true }
     (m.rally 5).loading = true ∧ (m.rally 5).missQ = [] ∧ (m.rally 5).onChip = false ∧ m.onChip.length < 1024) ∧
    (let m := tRally [] { msgs := [msg] }
     tSound m = true ∧ (m.rally 5).loading = false ∧ (m.rally 5).spilled = false ∧ (m.rally 5).msgs ≠ [] ∧
      (m.rally 5).wantsOpen = true ∧ (m.rally 5).onChip = false ∧ m.onChip.length < 1024) ∧
    (let m := tRally [] { msgs := [msg], spilled := true }; (m.rally 5).spilled = true ∧ (m.rally 5).onChip = false) := by
  decide +kernel

/-- MessagesSent: a packet whose retransmission time has come. -/
theorem test_premises_MessagesSent_due : (tRally [(Reg.trnTiming, 0)] {}).rto {} = 0 := by
  have h : bits ((tRally [(Reg.trnTiming, 0)] {}).reg Reg.trnTiming) 15 8 = 0 := by decide
  simp [M.rto, h]

/-- A packet from node 5 of epoch 7, by type, with its word at 8 and its body. -/
def tPacket (typ b8 b12 b16 cls tag plen : Nat) (body : List Byte) : List Byte :=
  leBytes 32 (typ + 2 <<< 4 + 5 <<< 16 + 7 <<< 48 + b8 <<< 64 + b12 <<< 96 + b16 <<< 128 + plen <<< 160 + cls <<< 176
    + tag <<< 192) ++ body

/-- A packet of a type other than DATA, with the length that it must have. -/
def tShort (t : Nat) : List Byte :=
  tPacket t 0 0 0 2 0 (if t = 1 then 320 else 0) (List.replicate (if t = 1 then 320 else 0) 0#8)

/-- PacketsReceived: a sound packet of each type, on a context that is on chip; one that is bad; one of a type that is not the
command's; contexts that are being loaded; new, repeated and distant DATA; OPEN, OPEN_ACK and RESET that concern this end. -/
theorem test_premises_PacketsReceived :
    let body := List.replicate 36 (0#8)
    let data := tPacket 0 0 0 0 2 4 36 body
    (let m := tRally [(Reg.trnRwin 7, 1 <<< 63 + 1 <<< 42)] { onChip := true, inOpen := true, inEpoch := 7 }
     let r := m.rally 5
     tSound m = true ∧ m.trnReady = true ∧ m.portUp 15 = true ∧ m.macsecOk 15 = true ∧ m.badPacket data (Hdr.parse data) = false ∧
      [1, 2, 3, 4, 5, 6, 7].all (fun t =>
        !m.badPacket (tShort t) (Hdr.parse (tShort t)) && (Hdr.parse (tShort t)).typ == t) = true ∧
      m.badPacket [] (Hdr.parse []) = true ∧ r.inOpen = true ∧ r.inEpoch = (Hdr.parse data).epoch ∧
      trunc 32 ((Hdr.parse data).b8 + 2 ^ 33 - r.inAck - 1) = 0 ∧ r.sack = 0 ∧ r.ins.length < 32 ∧ (∀ x ∈ r.ins, x.cls = 2) ∧
      m.rly.parity.mode = 0 ∧ rsDecode (((codewordsOf (Hdr.parse data).body).getD 0 []).map (·.toNat)) = .ok ∧
      (Hdr.parse data).plen / 36 = 1 ∧ m.inWindow (4 * 1024) 32 = false ∧ m.inWindow 0 32 = true ∧ inRegion 0 32 = true) ∧
    2048 ≤ trunc 32 ((Hdr.parse (tPacket 0 2048 0 0 2 0 36 body)).b8 + 2 ^ 33 - 0xFFFFFFFF - 1) ∧
    trunc 32 ((Hdr.parse (tPacket 0 2047 0 0 2 0 36 body)).b8 + 2 ^ 33 - 0xFFFFFFFF - 1) < 2048 ∧
    (let r := (tRally [] { loading := true }).rally 5; r.onChip = false ∧ r.loading = true ∧ r.missQ.length < 64) ∧
    (let m := tRally [] { out := 1, openSeq := 3, onChip := true }
     let h := Hdr.parse (tPacket 4 0 3 m.epoch 0 0 0 [])
     (m.rally 5).out = 1 ∧ h.b12 = (m.rally 5).openSeq ∧ bits h.b16 15 0 = m.epoch) ∧
    (({ msgs := [{ cls := 1, tag := 4, mseq := some 0 }] } : Rally).msgs.find? fun x =>
      x.mseq == some 0 && x.cls == 1 && x.tag == 4).isSome = true := by decide +kernel

/-- FramesLinksAndTakeover: ports up and down, with MACsec and without, a frame at the limit of its length and beyond it, and
a takeover that is allowed. -/
theorem test_premises_FramesLinksAndTakeover :
    (let m := tRally [] {}; tSound m = true ∧ 15 < 64 ∧ m.portUp 15 = true ∧ m.portUp 14 = false ∧ m.macsecOk 15 = true ∧
      m.macsec 15 = false ∧ m.linkUp 15 = true ∧ m.linkUp 63 = false ∧ 15 < m.nPorts ∧
      bit (m.reg (Reg.ethPortCtl 15)) 31 = true ∧ m.board.portOff = false ∧ bits (m.reg (Reg.ethPortCtl 15)) 27 16 = 0) ∧
    (let m := tRally [(Reg.ethPortCtl 15, 3 <<< 30)] {}; m.portUp 15 = true ∧ m.macsecOk 15 = false) ∧
    (let m := tRally [(Reg.ethPortCtl 15, 3 <<< 30), (Reg.ethPortStatus 15, 2 <<< 30 + 1 <<< 26)] {}
     let q : M := { m with sec := { m.sec with ports := [⟨15, [], [], [], [], [⟨3, [], 1, 7⟩]⟩] } }
     m.macsecOk 15 = true ∧ m.macsec 15 = true ∧ m.sakOf 15 3 = none ∧ q.sakOf 15 3 = some ⟨3, [], 1, 7⟩ ∧ 6 < 7 ∧ 7 ≤ 7 ∧
      q.macsecOk 15 = true) ∧ 9216 < 9217 ∧ (Hdr.parse (tPacket 7 0 0 0 0 0 0 [])).typ < 8 ∧
    (let m := tRegs [(Reg.chkRedundancy, 5), (Reg.mgtReadyMap, 2 ^ 126)]
     tAdmits m 0 false = true ∧ m.imagePeers 9 = [] ∧ ({ m with boot := { m.boot with groups := [(0, [], 0, [3#8, 0#8])] } } : M).imagePeers 9 = [3] ∧ bit (m.reg Reg.chkRedundancy) 2 = true ∧ m.trn.tkUsed = false ∧ bit (1 <<< 31 + 9) 31 = true) ∧
    ({ State.reset.m.trn with tkUsed := true }).tkUsed = true := by decide +kernel

/-! ## Chapter 11 -/

/-- A collective of group 3 and SEQ 7, of a chain of three nodes 0, 8 and 9, at the member of the given rank: a broadcast or a
reduction of two FP32 elements; `close` is CLOSE with no elements. -/
def tColl (rank op : Nat) (close : Bool) : Coll :=
  { group := 3, seq := 7, ring := some (119, 0), started := true
    od := op <<< 29 + b2n close <<< 25 + 7 <<< 32 + (if close then 0 else 2) <<< 128
    src := 1 <<< 42 + 1 <<< 64 + 2 <<< 96 + 64 <<< 128, dst := 1 <<< 42 + 1 <<< 64 + 2 <<< 96 + 64 <<< 128
    grp := 3 + rank <<< 16 + 1 <<< 32, members := [0, 8, 9], digest := 5 }

/-- A machine with these collectives on engine 3. -/
def tRelay (l : List Coll) : M := { State.reset.m with rly := { State.reset.m.rly with eng3 := { colls := l } } }

/-- Line 0 of a message of that collective. -/
def tLine (code index origin flags elems bytes : Nat) : List Byte :=
  leBytes 32 (7 + 5 <<< 32 + index <<< 96 + origin <<< 128 + code <<< 144 + flags <<< 152 + elems <<< 160 + bytes <<< 192)

/-- CollectivesAgreeAndEnd: an AGREE that the middle of the chain passes up, and one that completes the root's round, with its
digest and with another; a GO, a NOGO and an ABORT; a collective that is done. -/
theorem test_premises_CollectivesAgreeAndEnd :
    (let c := tColl 1 2 false
     let m := tRelay [c]
     tSound m = true ∧ 3 < 4 ∧ (Line0.parse (tLine 0 0 0 0 0 0)).seq = 7 ∧ m.coll 3 3 7 = some c ∧ c.rankOf 9 = some 2 ∧
      c.rankOf 5 = none ∧ c.kids 0 c.me = [2] ∧ c.parent 0 c.me = some 0 ∧ c.agreeSent = false ∧
      m.agreeReady { c with agreed := [⟨2, 0, none, none⟩] } = true ∧ (Line0.parse (tLine 0 0 0 0 0 0)).digest = c.digest ∧
      { c with agreed := [⟨2, 0, none, none⟩] }.dispute = none ∧
      { c with agreed := [⟨2, 0, some (9, 6), none⟩] }.dispute = some (9, 6) ∧ 2 ∈ c.neighbours ∧
      (∀ k d, k < 4 → d ∈ (m.eng k).colls → d.group = 3 → k = 3 ∧ d = c) ∧ m.rly.queues.find? (·.group = 3) = none) ∧
    (tColl 0 2 false).parent 0 (tColl 0 2 false).me = none ∧ (tColl 0 2 false).kids 0 (tColl 0 2 false).me = [1] ∧
    (let c := { tColl 1 1 true with agreeSent := true }; c.cd.close = true ∧ c.cd.count = 0 ∧ c.cd.op ≠ 4 ∧ c.go = false) ∧
    (tColl 1 2 false).early = [] ∧ (tColl 1 2 false).limit ≤ 60000 ∧
    { tColl 1 2 false with go := true }.workDone = false ∧ { tColl 1 1 true with go := true }.workDone = true ∧
    bits (State.reset.m.reg Reg.rlyCtl) 15 0 ≤ 65535 := by
  refine ⟨⟨by decide, by decide, by decide, by decide, by decide, by decide, by decide, by decide, by decide, by decide,
    by decide, by decide, by decide, by decide, ?_, by decide⟩, by decide, by decide, by decide, by decide, by decide, by decide,
    by decide, by decide⟩
  intro k d hk hd _
  have h : ∀ k, k < 4 → ((tRelay [tColl 1 2 false]).eng k).colls = if k = 3 then [tColl 1 2 false] else [] := by decide
  rw [h k hk] at hd
  split at hd <;> simp_all

/-- CollectivesAgreeAndEnd: a group record that is wanted, clean and poisoned, a collective that starts once it is cached, newer than the
last and not, a queue's doorbell at its limit, a SNAPSHOT that is being sent to another node, and times at its limit. -/
theorem test_premises_CollectivesAgreeAndEnd_starts :
    (let c := { tColl 2 2 false with started := false }
     let m := tRelay [c]
     c ∈ (m.eng 3).colls ∧ c.group = 3 ∧ (m.eng 3).cache = [] ∧ (m.eng 3).colls.findIdx? (fun c => !c.started) = some 0 ∧
      c.cd.op ≠ 4 ∧ c.cd.close = false ∧ c.agreed = [] ∧ m.coll 3 3 7 = none) ∧
    (let m := ((State.reset.m.setReg Reg.rlyGroupBase 0).putLine 3 (leBytes 32 (1 <<< 40 + 4 <<< 48)) false)
     (m.groupRec 3).cqEn = true ∧ trunc 32 (16 + 2 ^ 32 - 0) ≤ 2 ^ (m.groupRec 3).cqLog2 ∧
      (∀ l ∈ linesOf 96 32, rsDecode (m.codeword l) = .ok) ∧
      (∃ l ∈ linesOf 96 32, rsDecode ((m.putLine 3 (List.replicate 32 0#8) true).codeword l) = .poisoned)) ∧
    (let m := tRegs [(Reg.mgtReadyMap, 2 ^ 124 + 2 ^ 126)]; tAdmits m 0 false = true ∧ bit (m.reg Reg.mgtReadyMap) 124 = true) ∧
    (State.reset.m.last 3 3 = none ∧ trunc 32 (7 + 2 ^ 32 - 5) < 2 ^ 31 ∧ ¬ trunc 32 (5 + 2 ^ 32 - 7) < 2 ^ 31) ∧
    (let f : InFlight := { x := 9, w0 := 0x8A, w1 := 0, w2 := 5, w3 := 0, started := true, limit := 1000 }
     let m := tRing 1 1 [] { infl := [f] }
     tSound m = true ∧ (m.ring 119 3).infl.find? (·.shipping 9) = some f ∧ (m.ring 119 3).infl.find? (·.shipping 8) = none ∧
      f.limit ≤ 1000 ∧ 999 < f.limit) := by decide +kernel

/-- ChunksTravel: the leaf of the chain sends its chunk; a credit; chunks from the child and from the parent that match, and
one that does not; a collective that has not heard GO. -/
theorem test_premises_ChunksTravel :
    (let c := { tColl 2 2 false with go := true, digest := 5 }
     let k : Chunk := ⟨0, 0, 0, 0, 2⟩
     (c.chunk 0 = some k ∧ c.cd.reduces = true ∧ c.cd.wire ≠ 2 ∧ 0 ∉ c.own ∧ c.kids 0 c.me = [] ∧ c.parent 0 c.me = some 1 ∧
      c.ready = [] ∧ c.nextFor 1 0 0 = true ∧ c.creditFor 1 0 0 = true) ∧ c.ownable 0 k = true ∧
      ((List.range' k.first k.n).all fun x => (c.srcTd.linesAt x).all fun l => rsDecode (State.reset.m.codeword l) == .ok) = true) ∧
    (let c := tColl 1 2 false; c.go = false ∧ c.rankOf 9 = some 2 ∧ (tRelay [c]).coll 3 3 7 = some c) ∧
    (let c := { tColl 1 2 false with go := true }
     let k : Chunk := ⟨0, 0, 0, 0, 2⟩
     let body := [0xF8#8, 0xF8#8]
     c.chunk 0 = some k ∧ c.rankOf 9 = some 2 ∧ c.rankOf 0 = some 0 ∧
      (Line0.parse (tLine 4 9 0 4 0 0)).code = 4 ∧ c.headerOk 0 2 (Line0.parse (tLine 0 0 0 0 2 2)) = true ∧
      c.headerOk 0 2 (Line0.parse (tLine 0 1 0 0 2 2)) = false ∧ c.headerOk 1 0 (Line0.parse (tLine 0 0 0 0 2 8)) = true ∧
      (c.readReduce k 2 body []).isSome = true ∧ c.readReduce k 2 [] [] = none ∧ (c.kids 0 c.me).all [2].contains = true ∧
      c.dstTd.exact = false ∧ c.dstTd.plainLen 2 = 8) := by decide +kernel

/-- CarryRecordsHoldSums: the largest and the smallest sum of class W. -/
theorem test_premises_CarryRecordsHoldSums :
    (2 ^ (32 * collBands false - 1) - 1 : Int) < 2 ^ (32 * collBands false - 1) ∧
    (-(2 ^ (32 * collBands false - 1)) : Int) ≤ -(2 ^ (32 * collBands false - 1)) ∧
    (decodeCarry false (encodeCarry false (some { sum := -(2 ^ (32 * collBands false - 1)), side := { anyterm := true } }))).isSome
      = true := by decide +kernel

/-! ## Chapter 17 -/

/-- CountersAndScorecards: a counter that counts, next to its limit and alone, and one that does not; the codes that each kind of
counter may and may not select; scorecards that may start, and that run. -/
theorem test_premises_CountersAndScorecards :
    (let m := tRegs [(Reg.posCntSel 127 39, 7 <<< 29 + 1), (Reg.posCnt 127 39, 2 ^ 64 - 1), (Reg.posCntOwner 127 39, 5)]
     let sel := m.reg (Reg.posCntSel 127 39)
     tSound m = true ∧ 39 < 40 ∧ bit (m.reg (Reg.posCntCtl 127)) 0 = false ∧ bit sel 31 = true ∧ bits sel 9 0 = 1 ∧
      bit sel 29 = true ∧ m.reg (Reg.posCntOwner 127 39) = 5 ∧ 2 ^ 64 ≤ m.reg (Reg.posCnt 127 39) + 1) ∧
    bit (State.reset.m.reg (Reg.posCntSel 0 0)) 31 = false ∧
    ((List.range 1024).any (posCodeOk 39) && (List.range 1024).any fun c => !posCodeOk 39 c) = true ∧
    ((List.range 1024).any portCodeOk && (List.range 1024).any fun c => !portCodeOk c) = true ∧
    ((List.range 1024).any relayCodeOk && (List.range 1024).any fun c => !relayCodeOk c) = true ∧
    (let m := tRegs [(Reg.mgtReadyMap, 2 ^ 121 + 2 ^ 126), (Reg.cntScdBase, 0x10000000000)]
     tAdmits m 0 false = true ∧ tAdmits m 128 false = true ∧ bit (m.reg Reg.mgtReadyMap) 121 = true ∧ m.scdFits 0 = true ∧ bit (1 <<< 31) 31 = true ∧
      bit (m.reg Reg.cntScdCtl) 31 = false ∧ m.reg Reg.cntScdBase % 32 = 0) ∧
    bit ((tRegs [(Reg.cntScdCtl, 1 <<< 31)]).reg Reg.cntScdCtl) 31 = true ∧ State.reset.pending = [] := by decide +kernel

/-! ## Worked examples of the manual -/

/-- Table 02-8, BF16 and both FP8 formats, of 621 × 2⁻⁶, in RNE, RTZ, RUP, RDN and SR. -/
theorem test_rounding_table_02_8 :
    let row := fun (fmt : Nat) (s : Bool) => (Fp.ofCode fmt).map fun f =>
      [RMode.rne, .rtz, .rup, .rdn, .sr].map fun m => (f.round s 621 (-6) m 0x5A5F1C02).1
    row 2 false = some [0x411B, 0x411B, 0x411C, 0x411B, 0x411B] ∧ row 2 true = some [0xC11B, 0xC11B, 0xC11B, 0xC11C, 0xC11B] ∧
    row 5 false = some [0x52, 0x51, 0x52, 0x51, 0x52] ∧ row 5 true = some [0xD2, 0xD1, 0xD1, 0xD2, 0xD2] ∧
    row 4 false = some [0x49, 0x48, 0x49, 0x48, 0x49] ∧ row 4 true = some [0xC9, 0xC8, 0xC8, 0xC9, 0xC9] := by decide +kernel

/-- The check vector of chapter 4. -/
theorem test_rng_check_vector :
    let seed := leNat ((List.range 32).map (BitVec.ofNat 8))
    (rngBlock seed 0x0900000000000001 0x004A000000 0).take 4 = [0xE4E7F110, 0x15593BD1, 0x1FDD0F50, 0xC47120A3] ∧
    rngWord seed 0x004A000000 0 0x9000000000000010 = 0xE4E7F110 := by decide +kernel

/-- The line of chapter 8 whose last byte is 1: its check symbols, and its correction. -/
theorem test_line_code_example :
    let line := List.replicate 31 0 ++ [1]
    rsCheck line = [0x0F, 0x36, 0x78, 0x40] ∧ rsDecode (line ++ rsCheck line) = .ok ∧
    rsDecode (List.replicate 32 0 ++ rsCheck line) = .corrected 31 1 := by decide +kernel

/-- The cancellation beside a spill of chapter 3: 2^126 + 6 rounds to 2^126 in FP32, inexactly. -/
theorem test_round_after_cancellation :
    (Fp.ofCode 1).map (fun f => (f.round false (2 ^ 424 + 2 ^ 300 + 2 ^ 299) (-298) .rne 0)) =
      some (0x7E800000, { inexact := true }) := by decide +kernel

/-! ## Commands that are not well formed -/

/-- An ill-formed command of each kind is refused by the check: an operand beyond its range, and a list of the wrong length. -/
theorem test_ill_formed :
    [Instr.railFault 7, .perstAssert 2, .moduleReset false false [128], .selfTestComplete 128 true, .farStoreTrainingDone 24 true,
     .farStoreZeroFillDone 8, .configRequest true 4096 0, .bar0AccessInvalid false (2 ^ 28) 4, .bar2Read (2 ^ 34) 1,
     .cxlMemRead (2 ^ 40), .cxlMemWrite 0 [] false, .h2dSnoop (2 ^ 64), .registerWrite 129 0 4 0, .rcRegisterRead (2 ^ 28) 4 0,
     .rcRegisterRead 0 4 129,
     .hstQDoorbell 64 0 0, .hstQDoorbell 0 (2 ^ 32) 0, .hstQDoorbell 0 0 129, .jobEntryFetch 0 [] false, .ecallExit 256 0 0, .mailboxUnsupported (2 ^ 16),
     .getCertificate true 8, .challenge true 0 (2 ^ 256), .getMeasurements true 14, .signPq 4, .keyProg 0 2 [],
     .installCak 0 64 [] [], .mgtFlashProgram (2 ^ 32) 0, .healthRecordAppend 256 [], .ringPushWord 0 0 0 3 0, .nop 0 4, .nop 256 0,
     .corePassThrow 0 256 0 0, .corePassThrow 0 0 (2 ^ 16) 0, .corePlaySync 0 16 0, .windowResolve 0 2, .checksumFreeze 128,
     .decisionComplete 0 0 3 0 0 0, .practiceKernelDone 0 9 true false false, .voltageTrim 179 true false, .thermalSample [],
     .scrubLine 2 0, .refresh 0 4, .memInjectPoison (2 ^ 42) 0, .updVgroupWrite 64 0 0,
     .frameReceived 64 0 true false 0 0 false [] 0 0 0, .frameReceived 0 0 true false 0 0 false [] 0 4 0, .portLinkDown 0 3,
     .cableEvent 0 0 true, .cableEvent 9 0 true, .data 64 false [], .messagePost 4096 1 0 [], .messagePost 0 3 0 [],
     .retransmitTimeout 0 (2 ^ 32) 0, .suspectProbe 0 64, .takeoverAdvertise 3, .collectiveStart 4,
     .groupRecordFetchDone 0 (2 ^ 16), .agree 0 0 4096 (List.replicate 32 0), .agree 0 0 0 [], .chunkSend 0 0 0 2 0,
     .parityRefresh (2 ^ 40) 0, .parityRebuildSpare 0 4096 0, .errorLogRecord (2 ^ 16) 0 0 [], .counterWrite 3 0 0 0 0,
     .counterSelectWrite 0 128 0 0 0, .bandwidthWindowEnd 16 0 0, .pmbusNack 256 true].all (fun i => !i.wf) = true := by
  decide +kernel

/-- Commands at the ends of their ranges are well formed. -/
theorem test_well_formed :
    [Instr.railFault 6, .nop 255 3, .hstQDoorbell 63 (2 ^ 32 - 1) 128, .cxlMemWrite (2 ^ 40 - 1) (List.replicate 64 0) false,
     .thermalSample (List.replicate 36 0), .parityRebuildSpare (2 ^ 40 - 1) 4095 0, .scorecardTick].all Instr.wf = true := by
  decide +kernel

/-! ## Single steps -/

/-- A step takes the command at the front: a doorbell moves WR, and the next one waits. -/
theorem test_step_runs_front :
    let s : State := { State.reset with pending := [.hstQDoorbell 63 16 0, .hstQDoorbell 63 1 0], m := tRegs [(Reg.mgtReadyMap, 2 ^ 126)] }
    (tAfter (step s)).reg (Reg.hstQWr 63) = 16 ∧ (tAfter (step { s with pending := [] })).reg (Reg.hstQWr 63) = 0 := by
  decide +kernel

/-- A write of CORE_PASS_THROW that would take the count beyond 65,535 sets bit 0 of CORE_STATUS and throws nothing (R131). -/
theorem test_pass_throw_overflow :
    let s : State := { State.reset with m := tRegs [(Reg.corePassCount 0 9, 65535), (Reg.mgtReadyMap, 2 ^ 126)] }
    (tAfter (exec (.corePassThrow 0 9 1 0) s)).reg (Reg.corePassCount 0 9) = 65535 ∧
    (tAfter (exec (.corePassThrow 0 9 1 0) s)).reg (Reg.coreStatus 0) = 1 := by decide +kernel

end Sys2Proof.Machine
end

/-! # Accesses of the register space: who is let through, and what a write does (R10, R12, R124, R301, R315, R319, R378, R425)

First the gates, one lemma for each way in which an access is let through, refused or kept waiting; then what a control core's access
leaves as it was; then the writes, from an offset to the access code of its register. -/

namespace Sys2Proof.Machine

/-! ## The gates -/

/-- A writer whose push is held: the host's access waits in order, a control core's is not made (R124, R315). -/
theorem run_unlessHeld_held {w : Nat} {m : M} (h : m.stalled w = true) (i : Instr) (a : Act Unit) :
    (unlessHeld w i a m).2 = if w = 0 then m.hostHeld i else m := by
  simp [unlessHeld, h, M.hostHeld]

theorem run_unlessHeld_free {w : Nat} {m : M} (h : m.stalled w = false) (i : Instr) (a : Act Unit) :
    unlessHeld w i a m = a m := by
  simp [unlessHeld, h]

theorem run_regAction_held {w : Nat} {m : M} (h : m.stalled w = true) (mgmt : Bool) (i : Instr) (a : Act Unit) :
    (regAction w mgmt i a m).2 = if w = 0 then m.hostHeld i else m :=
  run_unlessHeld_held h i _

/-- The host's write is refused and counted for want of IDE (R319). -/
theorem run_regAction_noIde {m : M} (hw : m.hostWaits = false) (hi : m.ideOk = false) (mgmt : Bool) (i : Instr) (a : Act Unit) :
    (regAction 0 mgmt i a m).2 = m.refusedOnce := by
  rw [regAction, run_unlessHeld_free hw]
  simp [hi, earlyAccess, M.refusedOnce]

/-- Before bit 126 the host's write reaches the management block alone (R378). -/
theorem run_regAction_early {m : M} (hw : m.hostWaits = false) (hi : m.ideOk = true)
    (hr : bit (m.reg Reg.mgtReadyMap) 126 = false) (i : Instr) (a : Act Unit) : (regAction 0 false i a m).2 = m := by
  rw [regAction, run_unlessHeld_free hw]
  simp [hi, hr]

/-- A write that is let through is counted, if a control core made it, and acts. -/
theorem run_regAction_admitted {w : Nat} {mgmt : Bool} {m : M} (h : m.admits w mgmt) (i : Instr) (a : Act Unit) :
    (regAction w mgmt i a m).2 = (a (m.accessed w)).2 := by
  obtain ⟨hs, h0⟩ := h
  have hide : ¬ (w = 0 ∧ (!m.ideOk) = true) := fun ⟨hw, hi⟩ => by simp [(h0 hw).1] at hi
  have hopen : ¬ (w = 0 ∧ (!mgmt) = true ∧ (!bit (m.reg Reg.mgtReadyMap) 126) = true) := fun ⟨hw, hg, hr⟩ => by
    rcases (h0 hw).2 with h | h
    · simp [h] at hg
    · simp [h] at hr
  rw [regAction, run_unlessHeld_free hs, run_bind, run_get, run_ite, if_neg hide, run_ite, if_neg hopen]
  rfl

theorem run_regRead_held {w : Nat} {m : M} (h : m.stalled w = true) (mgmt : Bool) (i : Instr) (a : Act Nat) :
    (regRead w mgmt i a m).2 = if w = 0 then m.hostHeld i else m :=
  run_unlessHeld_held h i _

/-- The host's read is refused and counted for want of IDE, and completes with Unsupported Request (R319). -/
theorem run_regRead_noIde {m : M} (hw : m.hostWaits = false) (hi : m.ideOk = false) (mgmt : Bool) (i : Instr) (a : Act Nat) :
    (regRead 0 mgmt i a m).2 = m.refusedOnce.out (.cpl 1 false []) := by
  rw [regRead, run_unlessHeld_free hw]
  simp [hi, earlyAccess, M.refusedOnce]

/-- Before bit 126 the host reads zero outside the management block (R378). -/
theorem run_regRead_early {m : M} (hw : m.hostWaits = false) (hi : m.ideOk = true)
    (hr : bit (m.reg Reg.mgtReadyMap) 126 = false) (i : Instr) (a : Act Nat) :
    (regRead 0 false i a m).2 = m.out (.regData 0) := by
  rw [regRead, run_unlessHeld_free hw]
  simp [hi, hr]

theorem run_mailbox_held {m : M} (h : m.hostWaits = true) (i : Instr) (f : Act (Nat × List Byte)) :
    (mailbox i f m).2 = m.hostHeld i :=
  run_unlessHeld_held h i _

/-- A mailbox command is lost while the mailbox is not open (R317). -/
theorem run_mailbox_closed {m : M} (hw : m.hostWaits = false) (h : m.mailboxOpen = false) (i : Instr)
    (f : Act (Nat × List Byte)) : (mailbox i f m).2 = m := by
  rw [mailbox, run_unlessHeld_free hw]
  simp [h]

/-! ## Which commands pass a gate -/

/-- Every command that writes a register passes the gate of writes, as itself. -/
theorem exec_of_writesReg {c : Instr} {w : Nat} {mgmt : Bool} (h : writesReg c = some (w, mgmt)) (s : State) :
    ∃ a, exec c s = s.doing (regAction w mgmt c a) := by
  unfold writesReg at h
  split at h
  case h_1 w' o n v =>
    split at h
    · obtain ⟨rfl, rfl⟩ := Prod.mk.inj (Option.some.inj h)
      exact ⟨_, rfl⟩
    · cases h
  all_goals cases h
  all_goals exact ⟨_, rfl⟩

/-- Every command that reads a register passes the gate of reads, as itself. -/
theorem exec_of_readsReg {c : Instr} {w : Nat} {mgmt : Bool} (h : readsReg c = some (w, mgmt)) (s : State) :
    ∃ a, exec c s = s.doing (regRead w mgmt c a) := by
  unfold readsReg at h
  split at h
  case h_1 o n w' =>
    split at h
    next hok =>
      obtain ⟨rfl, rfl⟩ := Prod.mk.inj (Option.some.inj h)
      refine ⟨readParts o n, ?_⟩
      show execRcRegisterRead o n s w' = _
      rw [execRcRegisterRead, if_pos hok]
    · cases h
  case h_2 n w' =>
    cases h
    exact ⟨_, rfl⟩
  case h_3 => cases h

/-- Every command of the mailbox passes its gate, as itself. -/
theorem exec_of_toMailbox {c : Instr} (h : toMailbox c = true) (s : State) : ∃ f, exec c s = s.doing (mailbox c f) := by
  unfold toMailbox at h
  split at h
  case h_13 op =>
    refine ⟨pure (3, []), ?_⟩
    show execMailboxUnsupported op s = _
    rw [execMailboxUnsupported, h]
    rfl
  case h_14 => cases h
  all_goals exact ⟨_, rfl⟩

/-! ## What a counted access leaves as it was -/

/-- Counting at one counter changes no register but the counter and its overflow register. -/
theorem reg_countAt_other {cnt ovf o : Nat} (hc : o ≠ cnt) (ho : o ≠ ovf) (sel c code n : Nat) (s : M) :
    (countAt cnt sel ovf c code n s).reg o = s.reg o := by
  unfold countAt
  dsimp only
  split
  · generalize s.reg cnt + (if bit (s.reg sel) 30 then 1 else n) = v
    split
    · exact M.reg_setReg_other _ _ hc
    · rw [M.reg_setReg_other _ _ ho, M.reg_setReg_other _ _ hc]
  · rfl

/-- A fold of updates that each leave a register alone leaves it alone. -/
theorem reg_foldl_eq {α : Type} {o : Nat} (f : M → α → M) (hf : ∀ s x, (f s x).reg o = s.reg o) (l : List α) (s : M) :
    (l.foldl f s).reg o = s.reg o := by
  induction l generalizing s with
  | nil => rfl
  | cons x l ih => rw [List.foldl_cons, ih, hf]

/-- An event of a position changes none of the registers below those of the position. -/
theorem reg_posCount_below {o pos : Nat} (h : o < 0x10004000 + 0x10000 * pos) (frm k code n who : Nat) (s : M) :
    (posCount pos frm k code n who s).2.reg o = s.reg o := by
  rw [posCount, run_modify]
  split
  · rfl
  · refine reg_foldl_eq _ (fun s c => ?_) _ s
    split
    · rfl
    · exact reg_countAt_other (by simp only [Reg.posCnt]; omega) (by simp only [Reg.posCntOvf]; omega) _ _ _ _ s

/-- A counted access changes registers alone. -/
theorem M.accessed_eq (m : M) (w : Nat) : ∃ r, m.accessed w = { m with regs := r } := by
  rw [M.accessed, ctlAccess, run_bind, run_get, run_whenA]
  split
  · exact posCount_regs _ _ _ _ _ _ m
  · exact ⟨m.regs, rfl⟩

@[simp] theorem M.accessed_boot (m : M) (w : Nat) : (m.accessed w).boot = m.boot := by
  obtain ⟨r, h⟩ := m.accessed_eq w
  rw [h]

@[simp] theorem M.accessed_posX (m : M) (w i : Nat) : (m.accessed w).posX i = m.posX i := by
  obtain ⟨r, h⟩ := m.accessed_eq w
  rw [h]
  rfl

/-- A counted access changes none of the registers below those of the control core's position. -/
theorem M.reg_accessed {m : M} {w o : Nat} (h : o < 0x10004000 + 0x10000 * (w - 1)) : (m.accessed w).reg o = m.reg o := by
  rw [M.accessed, ctlAccess, run_bind, run_get, run_whenA]
  split
  · exact reg_posCount_below h _ _ _ _ _ m
  · rfl

/-- A counted access leaves it as it was where each offset of the register space leads. -/
@[simp] theorem M.resolve_accessed (m : M) (w off : Nat) : (m.accessed w).resolve off = m.resolve off := by
  have hports : (m.accessed w).nPorts = m.nPorts := by
    rw [M.nPorts, M.reg_accessed (by simp only [Reg.ethMode]; omega)]
    rfl
  have hcores : (m.accessed w).nCores = m.nCores := by
    rw [M.nCores, M.reg_accessed (by simp only [Reg.mgtGrade]; omega)]
    rfl
  have hpos : ∀ n, n < 120 → (m.accessed w).posOf n = m.posOf n := fun n hn => by
    rw [M.posOf, M.reg_accessed (by simp only [Reg.mgtCoreMap]; omega)]
    rfl
  have hle : m.nCores ≤ 120 := by
    unfold M.nCores
    split <;> omega
  unfold M.resolve
  simp only [hports, hcores]
  by_cases hn : m.nCores ≤ (off - 0x1000000) / 0x10000
  · simp only [hn, if_true]
  · rw [hpos _ (by omega)]

/-- A counted access leaves it as it was which logical core runs at the position that made it. -/
theorem M.runningAt_accessed (m : M) (w : Nat) : (m.accessed w).runningAt (w - 1) = m.runningAt (w - 1) := by
  simp only [M.runningAt, M.logicalAt, M.accessed_posX]
  rw [M.reg_accessed (by simp only [Reg.mgtPosState]; omega)]

/-! ## Writes by the access code -/

theorem accessOk_iff {off size : Nat} : accessOk off size = true ↔ (size = 4 ∨ size = 8) ∧ off % size = 0 := by
  simp [accessOk]

/-- An access that its register is wide enough for is one access. -/
theorem M.parts_of_fits {m : M} {off size key d : Nat} {r : RegRow} (h : m.resolve off = some (r, key, d))
    (hs : size ≤ r.size) : m.parts off size = [(off, size)] := by
  simp only [M.parts, h]
  rw [if_neg]
  rintro ⟨rfl, hr⟩
  simp only [decide_eq_true_eq] at hr
  omega

/-- An access of 4 bytes is one access. -/
theorem M.parts_four (m : M) (off : Nat) : m.parts off 4 = [(off, 4)] := by simp [M.parts]

/-- A write that is one access. -/
theorem run_writeParts_one {m : M} {off size : Nat} (h : m.parts off size = [(off, size)]) (w value : Nat) :
    (writeParts w off size value m).2 = (writeReg w off size (trunc (8 * size) value) m).2 := by
  rw [writeParts, run_bind, run_get, h, run_forA_cons, run_forA_nil]
  simp only [Nat.sub_self, Nat.mul_zero, Nat.shiftRight_zero]

/-- A write of a reserved offset reaches the CXL component and device registers alone (R12, R301). -/
theorem run_writeReg_reserved {m : M} {off : Nat} (h : m.resolve off = none) (w size value : Nat) :
    (writeReg w off size value m).2 = if cxlBlock off then (compWrite (off / 4 * 4) value m).2 else m := by
  rw [writeReg, run_bind, run_get, h]
  simp only [run_whenA]

/-- A write of a register that no rule of its own governs acts by the access code alone. -/
theorem blockWrite_of_not_ownRule {key : Nat} (h : ownRule key = false) (r : RegRow) (d size value : Nat) :
    blockWrite r key d size value = plainWrite r key d size value := by
  simp only [ownRule, List.contains_cons, List.contains_nil, Bool.or_false, Bool.or_eq_false_iff, beq_eq_false_iff_ne,
    Bool.and_eq_false_iff, decide_eq_false_iff_not] at h
  unfold blockWrite
  repeat' rw [if_neg (by omega)]

theorem run_writeReg_block {m : M} {off key d : Nat} {r : RegRow} (h : m.resolve off = some (r, key, d))
    (hk : key < 0x1000000) (ho : ownRule key = false) (w size value : Nat) :
    writeReg w off size value m = plainWrite r key d size value m := by
  rw [writeReg, run_bind, run_get, h]
  simp only [run_ite]
  rw [if_neg (by omega), if_neg (by omega), blockWrite_of_not_ownRule ho]

/-- The bits of a register that a write of this size at its first byte may change. -/
def RegRow.writable (r : RegRow) (size : Nat) : Nat := r.mask &&& (2 ^ (8 * size) - 1)

/-- What a write leaves in a register whose writable bits it takes. -/
def RegRow.taken (r : RegRow) (size old value : Nat) : Nat :=
  old - (old &&& r.writable size) + (trunc (8 * size) value &&& r.writable size)

theorem trunc_trunc (w x : Nat) : trunc w (trunc w x) = trunc w x := Nat.mod_mod _ _

theorem RegRow.taken_trunc (r : RegRow) (size old value : Nat) :
    r.taken size old (trunc (8 * size) value) = r.taken size old value := by
  rw [RegRow.taken, trunc_trunc, RegRow.taken]

theorem cover_zero (size : Nat) : cover size 0 = 2 ^ (8 * size) - 1 := by simp [cover]

section
variable {r : RegRow} {key size value : Nat} {m : M}

theorem run_plainWrite_rw (h : r.acc = .rw) :
    (plainWrite r key 0 size value m).2 = m.setReg key (r.taken size (m.reg key) value) := by
  simp [plainWrite, h, cover_zero, RegRow.taken, RegRow.writable]

theorem run_plainWrite_w1c (h : r.acc = .w1c) : (plainWrite r key 0 size value m).2 =
    m.setReg key (m.reg key - (m.reg key &&& trunc (8 * size) value &&& r.writable size)) := by
  simp [plainWrite, h, cover_zero, RegRow.writable]

/-- A host-adjustable setting takes the write, and stands among those that have been changed (R318). -/
theorem run_plainWrite_il_adjustable (h : r.acc = .il) (ha : key ∈ m.boot.adj) : (plainWrite r key 0 size value m).2 =
    { m.setReg key (r.taken size (m.reg key) value) with boot := { m.boot with
      changed := if key ∈ m.boot.changed then m.boot.changed else m.boot.changed ++ [key] } } := by
  by_cases hc : key ∈ m.boot.changed <;> simp [plainWrite, h, ilWrite, ha, hc, cover_zero, RegRow.taken, RegRow.writable]

/-- A write of a setting that is not host-adjustable is counted (R318). -/
theorem run_plainWrite_il_fixed (h : r.acc = .il) (ha : key ∉ m.boot.adj) : (plainWrite r key 0 size value m).2 =
    m.setReg Reg.hstIlRejects (trunc 64 (m.reg Reg.hstIlRejects + 1)) := by
  simp [plainWrite, h, ilWrite, ha]

theorem run_plainWrite_ignored (hrw : r.acc ≠ .rw) (hw1c : r.acc ≠ .w1c) (hil : r.acc ≠ .il) :
    (plainWrite r key 0 size value m).2 = m := by
  cases h : r.acc <;> simp_all [plainWrite]

end

/-! ## The write command -/

section
variable {s : State} {w off size : Nat}

/-- A write of the register space that is let through: one of 4 or 8 bytes, naturally aligned, reaches its register; another is
discarded, or ends the jobs of the control core that made it (R301, R425). -/
theorem exec_registerWrite_admitted (hl : s.m.board.live = true) (ha : s.m.admits w (decide (off < 0x100000))) (value : Nat) :
    exec (.registerWrite w off size value) s = s.becomes (if accessOk off size then (writeParts w off size value (s.m.accessed w)).2
      else if w = 0 then s.m.accessed w else (endJobsOn (s.m.runningAt (w - 1)) 1 (s.m.accessed w)).2) := by
  show execRegisterWrite w off size value s = _
  rw [execRegisterWrite, State.doing_live s _ hl, run_regAction_admitted ha, run_bind, run_get]
  by_cases hok : accessOk off size
  · simp [hok]
  · by_cases h0 : w = 0 <;> simp [hok, h0, M.runningAt_accessed]

/-- A write of the right form that its register takes whole acts by the access code. -/
theorem exec_registerWrite_plain (hl : s.m.board.live = true) (ha : s.m.admits w (decide (off < 0x100000)))
    (hok : accessOk off size = true) {r : RegRow} (hoff : off < 0x1000000) (ho : ownRule off = false)
    (hr : s.m.resolve off = some (r, off, 0)) (hs : size ≤ r.size) (value : Nat) :
    exec (.registerWrite w off size value) s =
      s.becomes (plainWrite r off 0 size (trunc (8 * size) value) (s.m.accessed w)).2 := by
  have hr' : (s.m.accessed w).resolve off = some (r, off, 0) := by rw [M.resolve_accessed, hr]
  rw [exec_registerWrite_admitted hl ha, if_pos hok, run_writeParts_one (M.parts_of_fits hr' hs),
    run_writeReg_block hr' hoff ho]

/-- A write of 4 bytes at a reserved offset. -/
theorem exec_registerWrite_reserved (hl : s.m.board.live = true) (ha : s.m.admits w (decide (off < 0x100000)))
    (hok : accessOk off 4 = true) (hr : s.m.resolve off = none) (value : Nat) :
    exec (.registerWrite w off 4 value) s = s.becomes (if cxlBlock off
      then (compWrite (off / 4 * 4) (trunc 32 value) (s.m.accessed w)).2 else s.m.accessed w) := by
  rw [exec_registerWrite_admitted hl ha, if_pos hok, run_writeParts_one (M.parts_four _ off),
    run_writeReg_reserved (by rw [M.resolve_accessed, hr])]

theorem exec_registerWrite_held (hl : s.m.board.live = true) (h : s.m.stalled w = true) (value : Nat) :
    exec (.registerWrite w off size value) s =
      s.becomes (if w = 0 then s.m.hostHeld (.registerWrite w off size value) else s.m) := by
  show execRegisterWrite w off size value s = _
  rw [execRegisterWrite, State.doing_live s _ hl, run_regAction_held h]

theorem exec_registerWrite_noIde (hl : s.m.board.live = true) (hw : s.m.hostWaits = false) (hi : s.m.ideOk = false)
    (value : Nat) : exec (.registerWrite 0 off size value) s = s.becomes s.m.refusedOnce := by
  show execRegisterWrite 0 off size value s = _
  rw [execRegisterWrite, State.doing_live s _ hl, run_regAction_noIde hw hi]

end

/-! ## The statement -/

/-- What a write of the right form, through the open window, does by each access code. -/
theorem registerWrite_by_acc {s : State} {w off size : Nat} (hl : s.m.board.live = true)
    (ha : s.m.admits w (decide (off < 0x100000))) (hok : accessOk off size = true) {r : RegRow} (hoff : off < 0x1000000)
    (ho : ownRule off = false) (hr : s.m.resolve off = some (r, off, 0)) (hs : size ≤ r.size) (value : Nat) :
    let write := exec (.registerWrite w off size value) s
    let m0 := s.m.accessed w
    let old := s.m.reg off
    let taken := m0.setReg off (r.taken size old value)
    (r.acc = .rw → write = s.becomes taken) ∧
    (r.acc = .w1c → write = s.becomes (m0.setReg off (old - (old &&& trunc (8 * size) value &&& r.writable size)))) ∧
    (r.acc = .il → off ∈ s.m.boot.adj → write = s.becomes { taken with boot := { s.m.boot with
      changed := if off ∈ s.m.boot.changed then s.m.boot.changed else s.m.boot.changed ++ [off] } }) ∧
    (r.acc = .il → off ∉ s.m.boot.adj →
      write = s.becomes (m0.setReg Reg.hstIlRejects (trunc 64 (s.m.reg Reg.hstIlRejects + 1)))) ∧
    (r.acc ≠ .rw → r.acc ≠ .w1c → r.acc ≠ .il → write = s.becomes m0) := by
  have hold : (s.m.accessed w).reg off = s.m.reg off := M.reg_accessed (by omega)
  have hrejects : (s.m.accessed w).reg Reg.hstIlRejects = s.m.reg Reg.hstIlRejects :=
    M.reg_accessed (by simp only [Reg.hstIlRejects]; omega)
  dsimp only
  rw [exec_registerWrite_plain hl ha hok hoff ho hr hs]
  refine ⟨fun h => ?_, fun h => ?_, fun h hadj => ?_, fun h hadj => ?_, fun h1 h2 h3 => ?_⟩
  · rw [run_plainWrite_rw h, hold, RegRow.taken_trunc]
  · rw [run_plainWrite_w1c h, hold, trunc_trunc]
  · rw [run_plainWrite_il_adjustable h (by rwa [M.accessed_boot]), hold, M.accessed_boot, RegRow.taken_trunc]
  · rw [run_plainWrite_il_fixed h (by rwa [M.accessed_boot]), hrejects]
  · rw [run_plainWrite_ignored h1 h2 h3]

/-- What the gates do with every command that is an access of the register space or of the mailbox. -/
theorem access_gates {s : State} (c : Instr) (w : Nat) (mgmt : Bool) (hl : s.m.board.live = true) :
    (writesReg c = some (w, mgmt) ∨ readsReg c = some (w, mgmt) → s.m.stalled w = true →
      exec c s = s.becomes (if w = 0 then s.m.hostHeld c else s.m)) ∧
    (writesReg c = some (0, mgmt) → s.m.hostWaits = false → s.m.ideOk = false → exec c s = s.becomes s.m.refusedOnce) ∧
    (writesReg c = some (0, false) → s.m.hostWaits = false → s.m.ideOk = true → bit (s.m.reg Reg.mgtReadyMap) 126 = false →
      exec c s = .next s) ∧
    (readsReg c = some (0, mgmt) → s.m.hostWaits = false → s.m.ideOk = false →
      exec c s = s.becomes (s.m.refusedOnce.out (.cpl 1 false []))) ∧
    (readsReg c = some (0, false) → s.m.hostWaits = false → s.m.ideOk = true → bit (s.m.reg Reg.mgtReadyMap) 126 = false →
      exec c s = s.becomes (s.m.out (.regData 0))) ∧
    (toMailbox c = true → s.m.hostWaits = true → exec c s = s.becomes (s.m.hostHeld c)) ∧
    (toMailbox c = true → s.m.hostWaits = false → s.m.mailboxOpen = false → exec c s = .next s) := by
  refine ⟨?_, fun hc hw hi => ?_, fun hc hw hi hr => ?_, fun hc hw hi => ?_, fun hc hw hi hr => ?_, fun hc hw => ?_,
    fun hc hw ho => ?_⟩
  · rintro (hc | hc) hst
    · obtain ⟨a, h⟩ := exec_of_writesReg hc s
      rw [h, State.doing_live s _ hl, run_regAction_held hst]
    · obtain ⟨a, h⟩ := exec_of_readsReg hc s
      rw [h, State.doing_live s _ hl, run_regRead_held hst]
  · obtain ⟨a, h⟩ := exec_of_writesReg hc s
    rw [h, State.doing_live s _ hl, run_regAction_noIde hw hi]
  · obtain ⟨a, h⟩ := exec_of_writesReg hc s
    rw [h, State.doing_live s _ hl, run_regAction_early hw hi hr]
  · obtain ⟨a, h⟩ := exec_of_readsReg hc s
    rw [h, State.doing_live s _ hl, run_regRead_noIde hw hi]
  · obtain ⟨a, h⟩ := exec_of_readsReg hc s
    rw [h, State.doing_live s _ hl, run_regRead_early hw hi hr]
  · obtain ⟨f, h⟩ := exec_of_toMailbox hc s
    rw [h, State.doing_live s _ hl, run_mailbox_held hw]
  · obtain ⟨f, h⟩ := exec_of_toMailbox hc s
    rw [h, State.doing_live s _ hl, run_mailbox_closed hw ho]

/-- Settles O29: every access passes one of three gates (of writes, of reads, of the mailbox), and a write that is let through
meets the access code of the register that its offset leads to, which the counting of the access leaves as it was. -/
theorem registerWritesFollowAccessCode : Obligations.RegisterWritesFollowAccessCode := by
  unfold Obligations.RegisterWritesFollowAccessCode
  refine ⟨fun s w off size value hl => ⟨?_, ?_, ?_, fun hst => exec_registerWrite_held hl hst value, ?_⟩,
    fun s c w mgmt hl => access_gates c w mgmt hl⟩
  · rintro ⟨ha, hok⟩ r hoff ho hr hs
    exact registerWrite_by_acc hl ha (accessOk_iff.2 hok) hoff ho hr hs value
  · rintro ⟨ha, hok⟩ rfl hr
    exact exec_registerWrite_reserved hl ha (accessOk_iff.2 hok) hr value
  · intro ha hbad
    rw [exec_registerWrite_admitted hl ha, if_neg (by rwa [accessOk_iff])]
  · rintro rfl hw hi
    exact exec_registerWrite_noIde hl hw hi value

end Sys2Proof.Machine

/-! # The far band store, the resolving of a slot's windows, the end of a drain, and freezes (R65 to R68, R79, R185, R346)

First bytes and numbers, then lines as they are put, then the spill unit's contributions to a record and to all records of a slot, then
the carry-resolve stage; last the end of a drain and the two freezes. -/

namespace Sys2Proof.Machine

/-! ## Numbers and their bytes (R9) -/

theorem leBytes_eq_map (n x : Nat) : leBytes n x = (List.range n).map fun i => BitVec.ofNat 8 (x >>> (8 * i)) := by
  induction n generalizing x with
  | zero => rfl
  | succ n ih =>
    rw [leBytes, ih, List.range_succ_eq_map, List.map_cons, List.map_map]
    refine congrArg _ (List.map_congr_left fun i _ => ?_)
    rw [Function.comp_apply, Nat.mul_succ, Nat.add_comm, Nat.shiftRight_add, Nat.shiftRight_eq_div_pow x 8]

@[simp] theorem length_leBytes (n x : Nat) : (leBytes n x).length = n := by simp [leBytes_eq_map]

/-- The low bytes of a number make the number again, as far as they go. -/
theorem leNat_leBytes (n x : Nat) : leNat (leBytes n x) = x % 2 ^ (8 * n) := by
  induction n generalizing x with
  | zero => rw [Nat.mul_zero, pow_zero, Nat.mod_one]; rfl
  | succ n ih =>
    rw [leBytes, leNat, ih, BitVec.toNat_ofNat, Nat.mul_succ, pow_add, Nat.mul_comm (2 ^ (8 * n)), Nat.mod_mul]
    norm_num

theorem leBytes_leNat (bs : List Byte) : leBytes bs.length (leNat bs) = bs := by
  induction bs with
  | nil => rfl
  | cons b bs ih =>
    have hb := b.isLt
    rw [List.length_cons, leBytes, leNat, Nat.add_mul_div_left _ _ (by decide), Nat.div_eq_of_lt hb, Nat.zero_add, ih]
    congr 1
    apply BitVec.eq_of_toNat_eq
    rw [BitVec.toNat_ofNat, Nat.add_mul_mod_self_left, Nat.mod_eq_of_lt hb]

/-- Byte j of line k of a number is byte 32 k + j of the number. -/
theorem byte_of_lane (v k : Nat) {j : Nat} (h : j < 32) :
    BitVec.ofNat 8 (lane v 256 k >>> (8 * j)) = BitVec.ofNat 8 (v >>> (8 * (32 * k + j))) := by
  apply BitVec.eq_of_getLsbD_eq
  intro i hi
  simp only [BitVec.getLsbD_ofNat, lane, trunc, Nat.testBit_shiftRight, Nat.testBit_mod_two_pow]
  have hlt : 8 * j + i < 256 := by omega
  have hadd : 256 * k + (8 * j + i) = 8 * (32 * k + j) + i := by omega
  rw [hadd]
  simp [hlt]

/-- The stored bytes that hold a number, read as one. -/
theorem M.num_of_bytes {s : M} {a n v : Nat} (h : ∀ i, i < n → s.byte (a + i) = BitVec.ofNat 8 (v >>> (8 * i))) :
    s.num a n = v % 2 ^ (8 * n) := by
  rw [← leNat_leBytes, leBytes_eq_map, M.num, M.bytes]
  exact congrArg _ (List.map_congr_left fun i hi => h i (List.mem_range.1 hi))

/-- The bytes of a stored number. -/
theorem M.byte_of_num (s : M) (a : Nat) {n i : Nat} (h : i < n) : s.byte (a + i) = BitVec.ofNat 8 (s.num a n >>> (8 * i)) := by
  have hb : leBytes n (s.num a n) = s.bytes a n := by
    have hlen : (s.bytes a n).length = n := by simp [M.bytes]
    have h := leBytes_leNat (s.bytes a n)
    rw [hlen] at h
    exact h
  rw [leBytes_eq_map, M.bytes, List.map_inj_left] at hb
  exact (hb i (List.mem_range.2 h)).symm

/-- A two's-complement number is the integer that it was made of, modulo its width. -/
theorem toSigned_modEq (w x : Nat) : toSigned w x ≡ x [ZMOD 2 ^ w] := by
  have hx : ((x % 2 ^ w : Nat) : Int) ≡ x [ZMOD 2 ^ w] := by
    rw [Int.natCast_mod, Nat.cast_pow, Nat.cast_ofNat]
    exact Int.mod_modEq _ _
  unfold toSigned
  split
  · exact hx
  · rw [Nat.cast_pow, Nat.cast_ofNat]
    exact (Int.modEq_sub_modulus_iff.2 hx.symm).symm

theorem ofSigned_modEq (w : Nat) (x : Int) : (ofSigned w x : Int) ≡ x [ZMOD 2 ^ w] := by
  rw [ofSigned, Int.toNat_of_nonneg (Int.emod_nonneg _ (by positivity)), Nat.cast_pow, Nat.cast_ofNat]
  exact Int.mod_modEq _ _

theorem ofSigned_lt (w : Nat) (x : Int) : ofSigned w x < 2 ^ w := by
  have h := Int.emod_lt_of_pos x (show (0 : Int) < ((2 ^ w : Nat) : Int) by positivity)
  have h0 := Int.emod_nonneg x (show ((2 ^ w : Nat) : Int) ≠ 0 by positivity)
  rw [ofSigned]
  omega

/-! ## Lines of the two stores -/

/-- The second machine is the first but for the two stores. -/
def M.storesOnly (s t : M) : Prop := t = { s with mem := t.mem, chk := t.chk }

theorem M.storesOnly.refl (s : M) : s.storesOnly s := rfl

theorem M.storesOnly.trans {s t u : M} (h : s.storesOnly t) (h' : t.storesOnly u) : s.storesOnly u := by
  unfold M.storesOnly at *
  rw [h']
  conv_lhs => rw [h]

theorem M.storesOnly_putLine (s : M) (l : Nat) (d : List Byte) (p : Bool) : s.storesOnly (s.putLine l d p) := by
  obtain ⟨m, c, h⟩ := s.putLine_eq l d p
  rw [h]
  rfl

/-- Bytes that are written read back. -/
theorem M.byte_setBytes_mem {s : M} (h : s.wf = true) (a : Nat) (bs : List Byte) {i : Nat} (hi : i < bs.length) :
    (s.setBytes a bs).byte (a + i) = bs[i] := by
  induction bs generalizing s a i with
  | nil => exact absurd hi (Nat.not_lt_zero i)
  | cons b bs ih =>
    rw [M.setBytes]
    cases i with
    | zero =>
      rw [M.byte_setBytes_other _ _ _ _ (.inl (by omega))]
      exact M.byte_setByte_self s a b h
    | succ i =>
      rw [← Nat.add_assoc, Nat.add_right_comm]
      exact ih (M.wf_setByte a b h) (a + 1) (Nat.lt_of_succ_lt_succ hi)

theorem M.byte_setChks (s : M) (l k : Nat) (vs : List Nat) (x : Nat) : (s.setChks l k vs).byte x = s.byte x := by
  rw [M.byte, M.setChks_mem, M.byte]

/-- A line that is put reads back. -/
theorem M.byte_putLine_self {s : M} (h : s.wf = true) (l : Nat) {d : List Byte} (p : Bool) {j : Nat} (hj : j < d.length) :
    (s.putLine l d p).byte (32 * l + j) = d[j] := by
  rw [M.putLine, M.byte_setChks, M.byte_setBytes_mem h]

/-- The check symbols of a line leave those of every other line alone. -/
theorem M.checks_setChks_other (s : M) {l l' : Nat} (h : l' ≠ l) (k : Nat) (vs : List Nat) (hk : k + vs.length ≤ 4) :
    (s.setChks l k vs).checks l' = s.checks l' := by
  induction vs generalizing s k with
  | nil => rfl
  | cons v vs ih =>
    rw [List.length_cons] at hk
    rw [M.setChks, ih _ _ (by omega)]
    refine List.map_congr_left fun i hi => ?_
    have hi4 := List.mem_range.1 hi
    exact Tab.read_put_other _ _ _ _ _ (by omega)

theorem length_rsCheck (d : List Nat) : (rsCheck d).length = 4 := rfl

/-- A line that is put leaves the codeword of every other line alone. -/
theorem M.codeword_putLine_other (s : M) {l l' : Nat} {d : List Byte} (hd : d.length = 32) (h : l' ≠ l) :
    (s.putLine l d false).codeword l' = s.codeword l' := by
  have hbytes : (s.putLine l d false).bytes (32 * l') 32 = s.bytes (32 * l') 32 :=
    List.map_congr_left fun i hi => by
      have hi32 := List.mem_range.1 hi
      exact M.byte_putLine_other s l d false _ hd (by omega)
  have hchecks : (s.putLine l d false).checks l' = s.checks l' := by
    rw [M.putLine, M.checks_setChks_other _ h _ _ (Nat.le_of_eq (by simp [length_rsCheck]))]
    simp only [M.checks, M.setBytes_chk]
  rw [M.codeword, hbytes, hchecks, M.codeword]

/-- Lines with the same codeword hold the same bytes. -/
theorem M.byte_of_codeword {s t : M} {x : Nat} (h : t.codeword (x / 32) = s.codeword (x / 32)) : t.byte x = s.byte x := by
  have hmap := (List.append_inj h (by simp [M.bytes])).1
  have hbytes := List.map_injective_iff.2 (fun _ _ => BitVec.eq_of_toNat_eq) hmap
  simp only [M.bytes, List.map_inj_left, List.mem_range] at hbytes
  have hx := hbytes (x % 32) (Nat.mod_lt _ (by decide))
  rwa [Nat.div_add_mod] at hx

/-- A number in lines that keep their codewords is the same. -/
theorem M.num_of_codewords {s t : M} {a n : Nat} (h : ∀ i, i < n → t.codeword ((a + i) / 32) = s.codeword ((a + i) / 32)) :
    t.num a n = s.num a n :=
  congrArg leNat (List.map_congr_left fun i hi => M.byte_of_codeword (h i (List.mem_range.1 hi)))

/-! ## Writes of whole lines -/

/-- The second machine is the first but for the stored lines that P tells. -/
structure M.onlyLines (s t : M) (P : Nat → Prop) : Prop where
  stores : s.storesOnly t
  others : ∀ l, ¬ P l → t.codeword l = s.codeword l

theorem M.onlyLines.refl (s : M) (P : Nat → Prop) : s.onlyLines s P := ⟨.refl s, fun _ _ => rfl⟩

theorem M.onlyLines.trans {s t u : M} {P : Nat → Prop} (h : s.onlyLines t P) (h' : t.onlyLines u P) : s.onlyLines u P :=
  ⟨h.stores.trans h'.stores, fun l hl => (h'.others l hl).trans (h.others l hl)⟩

theorem M.onlyLines.mono {s t : M} {P Q : Nat → Prop} (h : s.onlyLines t P) (hPQ : ∀ l, P l → Q l) : s.onlyLines t Q :=
  ⟨h.stores, fun l hl => h.others l fun hp => hl (hPQ l hp)⟩

theorem M.onlyLines_putLine (s : M) (l : Nat) {d : List Byte} (hd : d.length = 32) :
    s.onlyLines (s.putLine l d false) (· = l) :=
  ⟨s.storesOnly_putLine l d false, fun _ h => s.codeword_putLine_other hd h⟩

/-- Bytes that fill whole lines are put line by line, and none is discarded (R205). -/
theorem run_writeBytesAux_lines {s : M} (hw : s.wf = true) (q : Nat) {fuel l : Nat} {data : List Byte}
    (hlen : data.length = 32 * q) (hq : q < fuel) :
    ∃ t, writeBytesAux fuel (32 * l) data s = (false, t) ∧ s.onlyLines t (fun i => l ≤ i ∧ i < l + q) ∧
      ∀ i (hi : i < data.length), t.byte (32 * l + i) = data[i] := by
  induction q generalizing s fuel l data with
  | zero =>
    obtain rfl := List.length_eq_zero_iff.1 hlen
    cases fuel <;> exact ⟨s, rfl, .refl s _, fun i hi => absurd hi (Nat.not_lt_zero i)⟩
  | succ q ih =>
    obtain ⟨fuel, rfl⟩ := Nat.exists_eq_succ_of_ne_zero (Nat.ne_of_gt (Nat.zero_lt_of_lt hq))
    have htake : (data.take 32).length = 32 := by rw [List.length_take]; omega
    obtain ⟨t, hrun, honly, hbytes⟩ := ih (M.wf_putLine l (data.take 32) false hw) (fuel := fuel) (l := l + 1)
      (data := data.drop 32) (by rw [List.length_drop]; omega) (by omega)
    have hput := s.onlyLines_putLine l htake
    refine ⟨t, ?_, (hput.mono fun i hi => by omega).trans (honly.mono fun i hi => by omega), fun i hi => ?_⟩
    · have hne : data.isEmpty = false := by
        rw [List.isEmpty_eq_false_iff, ← List.length_pos_iff]; omega
      have hk : min data.length (32 - 32 * l % 32) = 32 := by omega
      rw [writeBytesAux, hne, hk, Nat.mul_mod_right, Nat.mul_div_cancel_left _ (by decide)]
      simp only [Bool.false_eq_true, if_false, run_bind, run_writeInLine_whole _ _ _ htake, run_pure]
      rw [show 32 * l + 32 = 32 * (l + 1) by omega, hrun]
      rfl
    · by_cases h32 : i < 32
      · have hl : (32 * l + i) / 32 = l := by omega
        rw [M.byte_of_codeword (s := s.putLine l (data.take 32) false) (by rw [hl]; exact honly.others l (by omega)),
          M.byte_putLine_self hw l false (by omega), List.getElem_take]
      · have hb := hbytes (i - 32) (by rw [List.length_drop]; omega)
        rw [List.getElem_drop, show 32 * (l + 1) + (i - 32) = 32 * l + i by omega] at hb
        rw [hb]
        congr 1
        omega

/-- A loop that puts some of a list of lines: each of them reads as it was put, or as before. -/
theorem run_forA_putLine {s : M} (hw : s.wf = true) (l : Nat) (c : Nat → Bool) (d : Nat → List Byte)
    (hd : ∀ k, (d k).length = 32) (ks : List Nat) (hks : ks.Nodup) :
    let t := (forA ks (fun k => whenA (c k) (modify fun s => s.putLine (l + k) (d k) false)) s).2
    s.onlyLines t (fun i => ∃ k ∈ ks, i = l + k) ∧ ∀ k ∈ ks, ∀ j (hj : j < 32),
      t.byte (32 * (l + k) + j) = if c k then (d k)[j]'(by rw [hd]; exact hj) else s.byte (32 * (l + k) + j) := by
  induction ks generalizing s with
  | nil => exact ⟨.refl s _, fun k hk => absurd hk List.not_mem_nil⟩
  | cons k ks ih =>
    obtain ⟨hk, hks⟩ := List.nodup_cons.1 hks
    rw [run_forA_cons, run_whenA, run_modify]
    obtain ⟨u, hu⟩ : ∃ u, u = if c k = true then s.putLine (l + k) (d k) false else s := ⟨_, rfl⟩
    have huw : u.wf = true := by
      rw [hu]; split
      · exact M.wf_putLine _ _ _ hw
      · exact hw
    have huo : s.onlyLines u (· = l + k) := by
      rw [hu]; split
      · exact s.onlyLines_putLine _ (hd k)
      · exact .refl s _
    obtain ⟨honly, hbytes⟩ := ih huw hks
    dsimp only at honly hbytes ⊢
    rw [← hu]
    refine ⟨(huo.mono fun i hi => ⟨k, List.mem_cons_self, hi⟩).trans
      (honly.mono fun i ⟨k', h, hi⟩ => ⟨k', List.mem_cons_of_mem _ h, hi⟩), fun k' hk' j hj => ?_⟩
    have hline : ∀ k'', (32 * (l + k'') + j) / 32 = l + k'' := fun k'' => by omega
    rcases List.mem_cons.1 hk' with rfl | hmem
    · rw [M.byte_of_codeword (s := u) (by
        rw [hline]
        refine honly.others _ ?_
        rintro ⟨k'', h, heq⟩
        exact hk (Nat.add_left_cancel heq ▸ h)), hu]
      split
      · exact M.byte_putLine_self hw _ _ (by rw [hd]; exact hj)
      · rfl
    · rw [hbytes k' hmem j hj, M.byte_of_codeword (s := s) (t := u) (by
        rw [hline]
        refine huo.others _ fun heq => hk ?_
        exact Nat.add_left_cancel heq ▸ hmem)]

/-! ## The records of the far band store (R64 to R67) -/

/-- The lines that whole lines at a line's start touch. -/
theorem mem_linesOf_aligned {a n l : Nat} (ha : a % 32 = 0) (hn : n % 32 = 0) :
    l ∈ linesOf a n ↔ a ≤ 32 * l ∧ 32 * l < a + n := by
  unfold linesOf
  split
  · simp only [List.not_mem_nil, false_iff]
    omega
  · rw [List.mem_range'_1]
    omega

section
variable {sl : Slot} (hc : sl.cls = .w ∨ sl.cls = .l) (hf : sl.fbs % 32 = 0)

/-- The lines of the record of element x. -/
abbrev Slot.recordLines (sl : Slot) (x : Nat) : List Nat := linesOf (sl.record x) sl.cls.fbsStride

include hc in
/-- The record of a wide class fills whole lines, and its bands lie within. -/
theorem SlotClass.stride_bounds : sl.cls.fbsStride % 32 = 0 ∧ 8 * sl.cls.bands ≤ sl.cls.fbsStride := by
  rcases hc with h | h <;> rw [h] <;> decide

include hc hf in
theorem Slot.record_aligned (x : Nat) : sl.record x % 32 = 0 := by
  unfold Slot.record
  have hs : 32 ∣ sl.cls.fbsStride := Nat.dvd_of_mod_eq_zero (SlotClass.stride_bounds hc).1
  exact Nat.mod_eq_zero_of_dvd ((Nat.dvd_add_right (Nat.dvd_of_mod_eq_zero hf)).2 (hs.mul_left x))

include hc hf in
theorem Slot.mem_recordLines {x l : Nat} :
    l ∈ sl.recordLines x ↔ sl.record x ≤ 32 * l ∧ 32 * l < sl.record x + sl.cls.fbsStride :=
  mem_linesOf_aligned (Slot.record_aligned hc hf x) (SlotClass.stride_bounds hc).1

include hc hf in
/-- The records of two elements share no line. -/
theorem Slot.recordLines_disjoint {x y l : Nat} (h : x ≠ y) (hx : l ∈ sl.recordLines x) : l ∉ sl.recordLines y := by
  have hlt : ∀ {a b : Nat}, a < b → sl.record a + sl.cls.fbsStride ≤ sl.record b := fun {a b} hab => by
    have := Nat.mul_le_mul_right sl.cls.fbsStride (Nat.succ_le_of_lt hab)
    rw [Nat.succ_mul] at this
    unfold Slot.record
    omega
  rw [Slot.mem_recordLines hc hf] at *
  rcases Nat.lt_or_gt_of_ne h with h | h
  · have := hlt h; omega
  · have := hlt h; omega

include hc hf in
/-- The bands of a record lie in its lines. -/
theorem Slot.band_mem_recordLines (x : Nat) {i : Nat} (hi : i < 8 * sl.cls.bands) : (sl.record x + i) / 32 ∈ sl.recordLines x := by
  have ha := Slot.record_aligned hc hf x
  obtain ⟨-, hb⟩ := SlotClass.stride_bounds hc
  rw [Slot.mem_recordLines hc hf]
  omega

include hc hf in
/-- A record whose lines keep their codewords holds what it held. -/
theorem M.farBands_of_codewords {s t : M} {x : Nat} (h : ∀ l ∈ sl.recordLines x, t.codeword l = s.codeword l) :
    t.farBands sl x = s.farBands sl x :=
  congrArg (toSigned _) (M.num_of_codewords fun _ hi => h _ (Slot.band_mem_recordLines hc hf x hi))

/-- A record that holds the bands of an integer holds that integer, modulo its bands. -/
theorem M.farBands_of_num {s : M} {x : Nat} {v : Int} (h : s.num (sl.record x) (8 * sl.cls.bands) = ofSigned (64 * sl.cls.bands) v) :
    s.farBands sl x ≡ v [ZMOD 2 ^ (64 * sl.cls.bands)] := by
  rw [M.farBands, h]
  exact (toSigned_modEq _ _).trans (ofSigned_modEq _ _)

/-- What the record of element x holds of its sum: nothing before the first spill (R65). -/
def M.farHeld (s : M) (sl : Slot) (x : Nat) : Int := if (sl.elems.getD x {}).touched then s.farBands sl x else 0

theorem M.slotSum_eq (s : M) (sl : Slot) (x : Nat) :
    s.slotSum sl x = (sl.elems.getD x {}).win * 2 ^ (64 * sl.w) + s.farHeld sl x := rfl

include hc hf in
theorem M.farHeld_of_codewords {s t : M} {x : Nat} (h : ∀ l ∈ sl.recordLines x, t.codeword l = s.codeword l) :
    t.farHeld sl x = s.farHeld sl x := by
  rw [M.farHeld, M.farHeld, M.farBands_of_codewords hc hf h]

/-! ## The spill unit (R65) -/

include hc hf in
/-- The first contributions of an element are written as its whole record. -/
theorem run_spillAdd_fresh {s : M} (hw : s.wf = true) (x : Nat) (c : Int) :
    ∃ t, spillAdd sl x false c s = (false, t) ∧ s.onlyLines t (· ∈ sl.recordLines x) ∧
      t.farBands sl x ≡ c [ZMOD 2 ^ (64 * sl.cls.bands)] := by
  have ha := Slot.record_aligned hc hf x
  obtain ⟨hs, hb⟩ := SlotClass.stride_bounds hc
  set v := ofSigned (64 * sl.cls.bands) c with hv
  have hlen : (leBytes sl.cls.fbsStride v).length = 32 * (sl.cls.fbsStride / 32) := by rw [length_leBytes]; omega
  obtain ⟨t, hrun, honly, hbytes⟩ := run_writeBytesAux_lines hw (sl.cls.fbsStride / 32) (l := sl.record x / 32)
    (fuel := (leBytes sl.cls.fbsStride v).length / 32 + 2) hlen (by omega)
  rw [show 32 * (sl.record x / 32) = sl.record x by omega] at hrun hbytes
  refine ⟨t, ?_, honly.mono fun l hl => (Slot.mem_recordLines hc hf).2 (by omega), M.farBands_of_num ?_⟩
  · simp only [spillAdd, Bool.not_false, if_true, run_bind, run_pure, writeBytes, hrun, ← hv]
  · rw [M.num_of_bytes (v := v) fun i hi => ?_, Nat.mod_eq_of_lt]
    · rw [hv, show 8 * (8 * sl.cls.bands) = 64 * sl.cls.bands by omega]
      exact ofSigned_lt _ _
    · rw [hbytes i (by rw [length_leBytes]; omega)]
      simp only [leBytes_eq_map, List.getElem_map, List.getElem_range]

include hc hf in
/-- Later contributions are added into the record, whose changed lines are written. -/
theorem run_spillAdd_touched {s : M} (hw : s.wf = true) (x : Nat) (hclean : s.clean (sl.recordLines x)) (c : Int) :
    ∃ t, spillAdd sl x true c s = (false, t) ∧ s.onlyLines t (· ∈ sl.recordLines x) ∧
      t.farBands sl x ≡ s.farBands sl x + c [ZMOD 2 ^ (64 * sl.cls.bands)] := by
  have ha := Slot.record_aligned hc hf x
  obtain ⟨hs, hb⟩ := SlotClass.stride_bounds hc
  set new := ofSigned (64 * sl.cls.bands) (s.farBands sl x + c) with hnew
  set old := s.num (sl.record x) (64 * sl.cls.bands / 8) with hold
  obtain ⟨honly, hbytes⟩ := run_forA_putLine hw (sl.record x / 32) (fun k => lane old 256 k != lane new 256 k)
    (fun k => leBytes 32 (lane new 256 k)) (fun k => length_leBytes _ _) (List.range (sl.cls.fbsStride / 32)) List.nodup_range
  refine ⟨_, ?_, honly.mono fun l ⟨k, hk, hl⟩ => ?_, M.farBands_of_num ?_⟩
  · simp only [spillAdd, Bool.not_true, Bool.false_eq_true, if_false, run_bind, run_readLines_ok _ _ hclean, run_get, run_pure,
      List.isEmpty_nil, List.contains_nil, Bool.not_false, Bool.and_true, ← hnew, ← hold]
  · have := List.mem_range.1 hk
    exact (Slot.mem_recordLines hc hf).2 (by omega)
  · rw [M.num_of_bytes (v := new) fun i hi => ?_, Nat.mod_eq_of_lt]
    · rw [hnew, show 8 * (8 * sl.cls.bands) = 64 * sl.cls.bands by omega]
      exact ofSigned_lt _ _
    · have hj : i % 32 < 32 := Nat.mod_lt _ (by decide)
      have hb := hbytes (i / 32) (List.mem_range.2 (by omega)) (i % 32) hj
      rw [show 32 * (sl.record x / 32 + i / 32) + i % 32 = sl.record x + i by omega] at hb
      have hbyte : ∀ v : Nat, BitVec.ofNat 8 (lane v 256 (i / 32) >>> (8 * (i % 32))) = BitVec.ofNat 8 (v >>> (8 * i)) := fun v => by
        rw [byte_of_lane v _ hj, Nat.div_add_mod]
      rw [hb]
      split
      · simp only [leBytes_eq_map, List.getElem_map, List.getElem_range, hbyte]
      · next hsame =>
        have hlane : lane old 256 (i / 32) = lane new 256 (i / 32) := by simpa using hsame
        rw [M.byte_of_num s _ (n := 64 * sl.cls.bands / 8) (by omega), ← hold, ← hbyte, hlane, hbyte]

include hc hf in
/-- The spill unit adds contributions to what the record of an element holds of its sum. -/
theorem run_spillAdd {s : M} (hw : s.wf = true) (x : Nat) (hclean : s.clean (sl.recordLines x)) (c : Int) :
    ∃ t, spillAdd sl x (sl.elems.getD x {}).touched c s = (false, t) ∧ s.onlyLines t (· ∈ sl.recordLines x) ∧
      t.farBands sl x ≡ s.farHeld sl x + c [ZMOD 2 ^ (64 * sl.cls.bands)] := by
  unfold M.farHeld
  cases (sl.elems.getD x {}).touched with
  | false => simpa using run_spillAdd_fresh hc hf hw x c
  | true => simpa using run_spillAdd_touched hc hf hw x hclean c

include hc hf in
/-- Contributions of distinct elements, spilled one element after another. -/
theorem run_mapA_spillAdd (ps : List (Accum × Nat)) (hps : (ps.map Prod.snd).Nodup) {s : M} (hw : s.wf = true)
    (hclean : ∀ p ∈ ps, s.clean (sl.recordLines p.2)) :
    let r := mapA ps (fun (a, x) => spillAdd sl x (sl.elems.getD x {}).touched a.far) s
    r.1.any id = false ∧ s.onlyLines r.2 (fun l => ∃ p ∈ ps, l ∈ sl.recordLines p.2) ∧
      ∀ p ∈ ps, r.2.farBands sl p.2 ≡ s.farHeld sl p.2 + p.1.far [ZMOD 2 ^ (64 * sl.cls.bands)] := by
  induction ps generalizing s with
  | nil => exact ⟨rfl, .refl s _, fun p hp => absurd hp List.not_mem_nil⟩
  | cons p ps ih =>
    obtain ⟨hp, hps⟩ := List.nodup_cons.1 hps
    have hne : ∀ {q}, q ∈ ps → q.2 ≠ p.2 := fun hq heq => hp (List.mem_map.2 ⟨_, hq, heq⟩)
    obtain ⟨t, hrun, honly, hfar⟩ := run_spillAdd hc hf hw p.2 (hclean p List.mem_cons_self) p.1.far
    have htw : t.wf = true := by
      have h := keepsWf_spillAdd sl p.2 (sl.elems.getD p.2 {}).touched p.1.far s hw
      rwa [hrun] at h
    have hsame : ∀ {q}, q ∈ ps → ∀ l ∈ sl.recordLines q.2, t.codeword l = s.codeword l := fun hq l hl =>
      honly.others l (Slot.recordLines_disjoint hc hf (hne hq) hl)
    obtain ⟨hbad, honly', hfar'⟩ := ih hps htw fun q hq l hl => by
      rw [hsame hq l hl]
      exact hclean q (List.mem_cons_of_mem _ hq) l hl
    dsimp only at hbad honly' hfar' ⊢
    rw [run_mapA_cons]
    dsimp only
    rw [hrun]
    refine ⟨hbad, (honly.mono fun l hl => ⟨p, List.mem_cons_self, hl⟩).trans
      (honly'.mono fun l ⟨q, hq, hl⟩ => ⟨q, List.mem_cons_of_mem _ hq, hl⟩), fun q hq => ?_⟩
    rcases List.mem_cons.1 hq with rfl | hq
    · rw [M.farBands_of_codewords hc hf fun l hl => honly'.others l ?_]
      · exact hfar
      · rintro ⟨q', hq', hl'⟩
        exact Slot.recordLines_disjoint hc hf (hne hq').symm hl hl'
    · have h := hfar' q hq
      rwa [M.farHeld_of_codewords hc hf (hsame hq)] at h

theorem mem_zip_range {α : Type} {l : List α} {p : α × Nat} : p ∈ l.zip (List.range l.length) ↔ l[p.2]? = some p.1 := by
  rw [List.range_eq_range', ← List.zipIdx_eq_zip_range', List.mem_zipIdx_iff_getElem?]

/-- A slot none of whose elements has contributions spills nothing. -/
theorem run_spillAll_none (sl : Slot) {acc : List Accum} (h : ∀ a ∈ acc, a.n = 0) (s : M) : spillAll sl acc s = (false, s) := by
  have hnil : ((acc.zip (List.range acc.length)).filter fun (a, _) => a.n != 0) = [] := by
    refine List.filter_eq_nil_iff.2 fun p hp => ?_
    simp [h p.1 (List.of_mem_zip hp).1]
  rw [spillAll, hnil]
  rfl

include hc hf in
/-- The spill unit takes the contributions of a slot: what the record of each element holds of its sum grows by them, and where there
are none the record stays (R65). -/
theorem run_spillAll {acc : List Accum} {s : M} (hw : s.wf = true) (hclean : ∀ x, x < acc.length → s.clean (sl.recordLines x)) :
    ∃ t, spillAll sl acc s = (false, t) ∧ s.storesOnly t ∧ ∀ x a, acc[x]? = some a →
      (a.n = 0 → t.farBands sl x = s.farBands sl x) ∧
      (a.n ≠ 0 → t.farBands sl x ≡ s.farHeld sl x + a.far [ZMOD 2 ^ (64 * sl.cls.bands)]) := by
  set ps := (acc.zip (List.range acc.length)).filter fun (a, _) => a.n != 0 with hps
  have hmem : ∀ {p}, p ∈ ps ↔ acc[p.2]? = some p.1 ∧ p.1.n ≠ 0 := fun {p} => by
    rw [hps, List.mem_filter, mem_zip_range]
    simp
  have hnodup : (ps.map Prod.snd).Nodup := by
    refine List.Nodup.sublist (List.filter_sublist.map _) ?_
    rw [List.map_snd_zip (by simp)]
    exact List.nodup_range
  obtain ⟨hbad, honly, hfar⟩ := run_mapA_spillAdd hc hf ps hnodup hw fun p hp =>
    hclean p.2 (List.getElem?_eq_some_iff.1 (hmem.1 hp).1).1
  refine ⟨_, Prod.ext ?_ rfl, honly.stores, fun x a hx => ⟨fun h0 => ?_, fun h0 => hfar (a, x) (hmem.2 ⟨hx, h0⟩)⟩⟩
  · exact hbad
  · refine M.farBands_of_codewords hc hf fun l hl => honly.others l ?_
    rintro ⟨p, hp, hl'⟩
    obtain ⟨hpx, hpn⟩ := hmem.1 hp
    have hxp : x ≠ p.2 := by
      rintro rfl
      rw [hpx] at hx
      exact hpn (Option.some.inj hx ▸ h0)
    exact Slot.recordLines_disjoint hc hf hxp hl hl'

end

/-! ## Cores, rings and slots -/

@[simp] theorem Core.slot_setSlot_self (c : Core) (k : Nat) (sl : Slot) : (c.setSlot k sl).slot k = sl := by
  unfold Core.slot Core.setSlot
  split <;> rfl

@[simp] theorem Core.ring_setSlot (c : Core) (k e : Nat) (sl : Slot) : (c.setSlot k sl).ring e = c.ring e := by
  unfold Core.setSlot
  split <;> rfl

@[simp] theorem Core.slot_setRing (c : Core) (e k : Nat) (r : Ring) : (c.setRing e r).slot k = c.slot k := by
  match e with
  | 0 | 1 | 2 | _ + 3 => rfl

@[simp] theorem Core.ring_setRing_self (c : Core) (e : Nat) (r : Ring) : (c.setRing e r).ring e = r := by
  match e with
  | 0 | 1 | 2 | _ + 3 => rfl

theorem M.wf_withRing {s : M} (h : s.wf = true) (n e : Nat) (f : Ring → Ring) : (s.withRing n e f).wf = true :=
  M.wf_setCore _ _ h

/-- A ring reads as it was last set. -/
theorem M.ring_withRing_self {s : M} (h : s.wf = true) (n e : Nat) (f : Ring → Ring) :
    (s.withRing n e f).ring n e = f (s.ring n e) := by
  rw [M.withRing, M.ring, M.core_setCore_self _ _ _ h, Core.ring_setRing_self]

/-! ## Events change registers alone -/

theorem engEventX_regs (core e code n : Nat) (s : M) : ∃ r, (engEventX core e code n s).2 = { s with regs := r } :=
  posCount_regs (s.posOf core) (8 * e) 8 code n core s

theorem posEvent_regs (pos code n : Nat) (s : M) : ∃ r, (posEvent pos code n s).2 = { s with regs := r } :=
  posCount_regs pos 0 40 code n (s.runningAt pos) s

/-- Counting a spill for an entry in flight changes registers alone, and of the entry not its record number (R67). -/
theorem creditSpill_regs (core : Nat) (new : List Nat) (f : InFlight) (s : M) :
    (∃ r, (creditSpill core new f s).2 = { s with regs := r }) ∧ (creditSpill core new f s).1.x = f.x := by
  refine ⟨?_, rfl⟩
  unfold creditSpill
  simp only [run_bind, run_get, run_pure]
  obtain ⟨r1, h1⟩ := engEventX_regs core 1 0x182 new.sum s
  rw [h1]
  obtain ⟨r2, h2⟩ := posEvent_regs (s.posOf core) 0x12E (farUpdates (addRows f.rows new) - farUpdates f.rows) { s with regs := r1 }
  rw [h2]
  obtain ⟨r3, h3⟩ := engEventX_regs core 1 0x183 (ceilDiv ((addRows f.rows new).foldl max 0) 8 - f.base - f.stall)
    { s with regs := r2 }
  exact ⟨r3, h3⟩

/-! ## The carry-resolve stage (R68) -/

/-- An element at the carry-resolve stage: its window is resolved if it has had 256 additions. -/
def Slot.resolveElem (sl : Slot) (e : Elem) : Accum :=
  if e.adds ≥ 256 then ({ elem := e } : Accum).resolve sl.cls sl.w else { elem := e }

/-- A slot at the carry-resolve stage: what each element becomes is `Accum.left`. -/
def Slot.resolved (sl : Slot) (bad : Bool) : Slot :=
  { sl with elems := (sl.elems.map sl.resolveElem).map (·.left), poisoned := sl.poisoned || bad }

theorem Accum.left_of_elem (e : Elem) : ({ elem := e } : Accum).left = e := by simp [Accum.left]

/-- In a wide class a resolve moves what has left the window to the bands: the two together stay the same (R68). -/
theorem Accum.resolve_wide {cls : SlotClass} (hc : cls ≠ .s) (w : Nat) (e : Elem) :
    let a := ({ elem := e } : Accum).resolve cls w
    a.left.win * 2 ^ (64 * w) + a.far = e.win * 2 ^ (64 * w) ∧ a.left.adds = 0 ∧
      (a.n = 0 → a.far = 0 ∧ a.left.touched = e.touched) ∧ (a.n ≠ 0 → a.left.touched = true) := by
  dsimp only
  by_cases hv : e.win = toSigned 128 (ofSigned 128 e.win)
  · simp [Accum.resolve, Accum.left, hc, ← hv]
  · simp [Accum.resolve, Accum.left, hc, hv]
    ring

theorem Slot.resolveElem_wide {sl : Slot} (hc : sl.cls ≠ .s) (e : Elem) :
    let a := sl.resolveElem e
    a.left.win * 2 ^ (64 * sl.w) + a.far = e.win * 2 ^ (64 * sl.w) ∧ a.left.adds < 256 ∧
      (a.n = 0 → a.far = 0 ∧ a.left.touched = e.touched) ∧ (a.n ≠ 0 → a.left.touched = true) := by
  unfold Slot.resolveElem
  split
  · obtain ⟨hsum, hadds, h0, h1⟩ := Accum.resolve_wide hc sl.w e
    exact ⟨hsum, by omega, h0, h1⟩
  · next h => exact ⟨by simp [Accum.left], by simpa [Accum.left] using h, fun _ => ⟨rfl, rfl⟩, fun h => absurd rfl h⟩

/-- Where the window holds the whole sum, a resolve starts its count of additions anew and spills nothing (R57, R68). -/
theorem Slot.resolveElem_narrow {sl : Slot} {e : Elem} (h : sl.cls = .s ∨ e.win = 0) :
    (sl.resolveElem e).n = 0 ∧ (sl.resolveElem e).left = if 256 ≤ e.adds then { e with adds := 0 } else e := by
  unfold Slot.resolveElem
  split
  · rcases h with h | h
    · simp [Accum.resolve, Accum.left, h]
    · have h0 : toSigned 128 (ofSigned 128 0) = 0 := by decide
      by_cases hc : sl.cls = .s <;> simp [Accum.resolve, Accum.left, hc, h, h0]
  · exact ⟨rfl, Accum.left_of_elem e⟩

/-- A slot none of whose windows is due stays as it is. -/
theorem Slot.resolveElem_eq_of_none_due {sl : Slot} (h : (sl.elems.filter fun e => decide (e.adds ≥ 256)) = []) :
    sl.elems.map sl.resolveElem = sl.elems.map fun e => { elem := e } := by
  refine List.map_congr_left fun e he => if_neg ?_
  simpa using List.filter_eq_nil_iff.1 h e he

theorem Slot.resolved_of_none_due {sl : Slot} (h : (sl.elems.filter fun e => decide (e.adds ≥ 256)) = []) :
    sl.resolved false = sl := by
  rw [Slot.resolved, Slot.resolveElem_eq_of_none_due h, List.map_map, Bool.or_false]
  have hid : ((fun a : Accum => a.left) ∘ fun e : Elem => ({ elem := e } : Accum)) = id := funext Accum.left_of_elem
  rw [hid, List.map_id]

/-- An entry put in the place of one of its record number leaves the record numbers in flight as they are. -/
theorem map_x_set {l : List InFlight} {i : Nat} {f g : InFlight} (hi : l[i]? = some f) (hx : g.x = f.x) :
    (l.set i g).map (·.x) = l.map (·.x) := by
  obtain ⟨hlt, rfl⟩ := List.getElem?_eq_some_iff.1 hi
  rw [List.map_set, hx]
  have h := List.set_getElem_self (as := l.map (·.x)) (i := i) (by simpa using hlt)
  rwa [List.getElem_map] at h

/-- An entry in flight that is given a slot's contributions keeps its record number; the slots and the stores stay (R67). -/
theorem creditInFlight_effect {u : M} (hw : u.wf = true) {n i : Nat} {f : InFlight} (hi : (u.ring n 1).infl[i]? = some f)
    (new : List Nat) (bad : Bool) :
    let m := ((creditSpill n new f >>= fun g => putInFlight n 1 i { g with poison := g.poison || bad }) u).2
    (m.mem = u.mem ∧ m.chk = u.chk) ∧ (∀ k, (m.core n).slot k = (u.core n).slot k) ∧
      (m.ring n 1).infl.map (·.x) = (u.ring n 1).infl.map (·.x) := by
  obtain ⟨⟨r, hr⟩, hx⟩ := creditSpill_regs n new f u
  have hvw : ({ u with regs := r } : M).wf = true := hr ▸ keepsWf_creditSpill n new f u hw
  dsimp only
  rw [run_bind, hr]
  generalize hg : ({ (creditSpill n new f u).1 with poison := (creditSpill n new f u).1.poison || bad } : InFlight) = g
  have hgx : g.x = f.x := by rw [← hg]; exact hx
  have hput : (putInFlight n 1 i g { u with regs := r }).2 = ({ u with regs := r } : M).withEntry n 1 i g := rfl
  rw [hput]
  refine ⟨⟨rfl, rfl⟩, fun k => ?_, ?_⟩
  · rw [M.withEntry, M.withRing, M.core_setCore_self _ _ _ hvw, Core.slot_setRing]
    rfl
  · rw [M.withEntry, M.ring_withRing_self hvw]
    exact map_x_set hi hgx

/-- The carry-resolve stage leaves the stores as the spill unit leaves them, the slot resolved, and each entry in flight with its record number. -/
theorem resolvePending_effect {s : M} (hw : s.wf = true) {n k : Nat} {bad : Bool} {t : M}
    (hspill : spillAll ((s.core n).slot k) (((s.core n).slot k).elems.map ((s.core n).slot k).resolveElem) s = (bad, t))
    (hst : s.storesOnly t) :
    let m := (resolvePending n k s).2
    (m.mem = t.mem ∧ m.chk = t.chk) ∧ (m.core n).slot k = ((s.core n).slot k).resolved bad ∧
      (m.ring n 1).infl.map (·.x) = (s.ring n 1).infl.map (·.x) := by
  set sl := (s.core n).slot k with hsl
  dsimp only
  unfold resolvePending
  simp only [run_bind, run_get, run_whenA, ← hsl]
  split
  case isFalse hdue =>
    have hnone : (sl.elems.filter fun e => decide (e.adds ≥ 256)) = [] := by simpa using hdue
    rw [Slot.resolveElem_eq_of_none_due hnone, run_spillAll_none _ (by simp)] at hspill
    obtain ⟨rfl, rfl⟩ := Prod.mk.inj hspill
    exact ⟨⟨rfl, rfl⟩, (Slot.resolved_of_none_due hnone).symm, rfl⟩
  case isTrue =>
    have htw : t.wf = true := by
      have h := keepsWf_spillAll sl (sl.elems.map sl.resolveElem) s hw
      rwa [hspill] at h
    have hacc : (sl.elems.map fun e => if e.adds ≥ 256 then ({ elem := e } : Accum).resolve sl.cls sl.w else { elem := e }) =
        sl.elems.map sl.resolveElem := rfl
    rw [hacc, hspill]
    obtain ⟨r, hr⟩ := engEventX_regs n 1 0x184 (sl.elems.filter fun e : Elem => decide (e.adds ≥ 256)).length t
    have hvw : ({ t with regs := r } : M).wf = true := hr ▸ keepsWf_engEventX _ _ _ _ t htw
    have hcore : ({ t with regs := r } : M).core n = s.core n := by
      have hcores : t.cores = s.cores := by rw [hst]
      rw [M.core, M.core, hcores]
    dsimp only
    rw [hr, run_updSlot, hcore, ← hsl]
    set u : M := ({ t with regs := r } : M).setCore n ((s.core n).setSlot k (sl.resolved bad)) with hu
    have huc : u.core n = (s.core n).setSlot k (sl.resolved bad) := M.core_setCore_self _ _ _ hvw
    have hring : u.ring n 1 = s.ring n 1 := by rw [M.ring, huc, Core.ring_setSlot, M.ring]
    have huk : (u.core n).slot k = sl.resolved bad := by rw [huc, Core.slot_setSlot_self]
    generalize hlast : List.getLast? _ = last
    match last, hlast with
    | none, _ => exact ⟨⟨rfl, rfl⟩, huk, congrArg (fun g : Ring => g.infl.map (·.x)) hring⟩
    | some (f, i), hlast =>
      have hi : (u.ring n 1).infl[i]? = some f := by
        rw [hring]
        exact List.mem_zipIdx_iff_getElem?.1 (List.mem_filter.1 (List.mem_of_getLast? hlast)).1
      obtain ⟨hmem, hslot, hinfl⟩ := creditInFlight_effect (M.wf_setCore _ _ hvw) hi
        (rowCounts sl.n (sl.elems.map sl.resolveElem)) bad
      exact ⟨hmem, (hslot k).trans huk, hinfl.trans (by rw [hring])⟩

/-! ## WINDOW_RESOLVE (R68) -/

/-- When the record of an element has taken what has left its window, window and record together keep the sum, but for whole turns of
the bands. -/
theorem slotSum_resolved {s m t : M} {sl : Slot} (hc : sl.cls = .w ∨ sl.cls = .l) {x : Nat} {e : Elem} (hx : sl.elems[x]? = some e)
    (hmem : m.mem = t.mem)
    (hkept : (sl.resolveElem e).n = 0 → t.farBands sl x = s.farBands sl x)
    (hfar : (sl.resolveElem e).n ≠ 0 →
      t.farBands sl x ≡ s.farHeld sl x + (sl.resolveElem e).far [ZMOD 2 ^ (64 * sl.cls.bands)]) :
    m.slotSum (sl.resolved false) x ≡ s.slotSum sl x [ZMOD 2 ^ (64 * sl.cls.bands)] := by
  have hns : sl.cls ≠ .s := by rcases hc with h | h <;> simp [h]
  obtain ⟨hsum, -, h0, h1⟩ := Slot.resolveElem_wide hns e
  have hold : sl.elems.getD x {} = e := by simp [List.getD_eq_getElem?_getD, hx]
  have hnew : (sl.resolved false).elems.getD x {} = (sl.resolveElem e).left := by
    simp [Slot.resolved, List.getD_eq_getElem?_getD, hx]
  have hbands : m.farBands (sl.resolved false) x = t.farBands sl x := by
    simp only [M.farBands, M.num, M.bytes, M.byte, hmem]
    rfl
  have hw : (sl.resolved false).w = sl.w := rfl
  rw [M.slotSum_eq, M.slotSum_eq, M.farHeld, hnew, hold, hbands, hw]
  by_cases hn : (sl.resolveElem e).n = 0
  · obtain ⟨hf, ht⟩ := h0 hn
    rw [hf, add_zero] at hsum
    rw [hsum, ht, hkept hn, M.farHeld, hold]
  · rw [if_pos (h1 hn), ← hsum]
    calc (sl.resolveElem e).left.win * 2 ^ (64 * sl.w) + t.farBands sl x
        ≡ (sl.resolveElem e).left.win * 2 ^ (64 * sl.w) + (s.farHeld sl x + (sl.resolveElem e).far)
          [ZMOD 2 ^ (64 * sl.cls.bands)] := (hfar hn).add_left _
      _ = (sl.resolveElem e).left.win * 2 ^ (64 * sl.w) + (sl.resolveElem e).far + s.farHeld sl x := by ring

section
variable {s : State} {n k : Nat} (hl : s.m.board.live = true)

include hl in
theorem exec_windowResolve : exec (.windowResolve n k) s =
    s.becomes (if ((s.m.core n).slot k).state = .opened then (resolvePending n k s.m).2 else s.m) := by
  show execWindowResolve n k s = _
  rw [execWindowResolve, State.doing_live s _ hl, run_bind, run_get, run_whenA]
  simp only [beq_iff_eq]

include hl in
/-- Resolving the windows of a wide slot changes no sum (R67, R68). -/
theorem windowResolve_wide (hw : s.m.wf = true) (ho : ((s.m.core n).slot k).state = .opened)
    (hc : ((s.m.core n).slot k).cls = .w ∨ ((s.m.core n).slot k).cls = .l) (hf : ((s.m.core n).slot k).fbs % 32 = 0)
    (hclean : ∀ x, x < ((s.m.core n).slot k).elems.length → s.m.clean (((s.m.core n).slot k).recordLines x)) :
    s.ends (exec (.windowResolve n k) s) fun m =>
      ((m.core n).slot k).elems.length = ((s.m.core n).slot k).elems.length ∧
      (∀ x, x < ((s.m.core n).slot k).elems.length →
        (m.slotSum ((m.core n).slot k) x - s.m.slotSum ((s.m.core n).slot k) x) % 2 ^ (64 * ((s.m.core n).slot k).cls.bands) = 0 ∧
        (((m.core n).slot k).elems.getD x {}).adds < 256) ∧
      (m.ring n 1).infl.map (·.x) = (s.m.ring n 1).infl.map (·.x) := by
  set sl := (s.m.core n).slot k with hsl
  have hns : sl.cls ≠ .s := by rcases hc with h | h <;> simp [h]
  obtain ⟨t, hspill, hst, hrec⟩ := run_spillAll hc hf (acc := sl.elems.map sl.resolveElem) hw fun x hx =>
    hclean x (by simpa using hx)
  obtain ⟨⟨hmem, -⟩, hslot, hinfl⟩ := resolvePending_effect hw (n := n) (k := k) hspill hst
  refine ⟨_, exec_windowResolve hl, ?_⟩
  rw [← hsl, if_pos ho]
  dsimp only
  rw [hslot, ← hsl]
  refine ⟨by simp [Slot.resolved], fun x hx => ⟨?_, ?_⟩, hinfl⟩
  · have hx' : sl.elems[x]? = some sl.elems[x] := List.getElem?_eq_getElem hx
    obtain ⟨hkept, hfar⟩ := hrec x (sl.resolveElem sl.elems[x]) (by rw [List.getElem?_map, hx']; rfl)
    exact Int.emod_eq_zero_of_dvd (slotSum_resolved hc hx' hmem hkept hfar).symm.dvd
  · have hleft : (sl.resolved false).elems.getD x {} = (sl.resolveElem sl.elems[x]).left := by
      simp [Slot.resolved, List.getD_eq_getElem?_getD, hx]
    rw [hleft]
    exact (Slot.resolveElem_wide hns _).2.1

include hl in
/-- Where the windows hold the whole sums, resolving starts their counts of additions anew (R57, R68). -/
theorem windowResolve_narrow (hw : s.m.wf = true) (ho : ((s.m.core n).slot k).state = .opened)
    (hc : ∀ e ∈ ((s.m.core n).slot k).elems, ((s.m.core n).slot k).cls = .s ∨ e.win = 0) :
    s.ends (exec (.windowResolve n k) s) fun m =>
      ((m.core n).slot k).elems = (((s.m.core n).slot k).elems.map fun e => if 256 ≤ e.adds then { e with adds := 0 } else e) ∧
      s.m.sameStores m := by
  set sl := (s.m.core n).slot k with hsl
  have hnone : ∀ a ∈ sl.elems.map sl.resolveElem, a.n = 0 := fun a ha => by
    obtain ⟨e, he, rfl⟩ := List.mem_map.1 ha
    exact (Slot.resolveElem_narrow (hc e he)).1
  obtain ⟨hstores, hslot, -⟩ := resolvePending_effect hw (n := n) (k := k) (run_spillAll_none sl hnone s.m) (.refl s.m)
  refine ⟨_, exec_windowResolve hl, ?_⟩
  rw [← hsl, if_pos ho]
  dsimp only
  rw [hslot, ← hsl]
  refine ⟨?_, hstores⟩
  rw [Slot.resolved, List.map_map]
  exact List.map_congr_left fun e he => (Slot.resolveElem_narrow (hc e he)).2

/-! ## SLOT_DRAIN_WAIT_END (R79) -/

include hl in
/-- While no record stands at RD, nothing waits for a slot. -/
theorem slotDrainWaitEnd_no_head (h : s.m.headRec n 1 = none) : exec (.slotDrainWaitEnd n) s = .next s := by
  show execSlotDrainWaitEnd n s = _
  rw [execSlotDrainWaitEnd, State.doing_live s _ hl, run_bind, run_get, h]
  rfl

/-- A drain of slot k that has written its last line. -/
def InFlight.drained (k : Nat) (f : InFlight) : Prop := f.rcd.op = 0x34 ∧ f.slot = some k ∧ f.done = true

/-- Does record r at RD wait for its slot to be drained, and has a drain of it ended (R79)? -/
def M.drainEnds (s : M) (n : Nat) (r : Rec) : Prop :=
  opMatrix r.op = true ∧ s.ringEmpty n 1 = false ∧ ((s.core n).slot r.slotOf).state = .draining ∧
    ∃ f ∈ (s.ring n 1).infl, f.drained r.slotOf

theorem M.drainEnds_iff (s : M) (n : Nat) (r : Rec) :
    (opMatrix r.op && !s.ringEmpty n 1 && ((s.core n).slot r.slotOf).state == .draining &&
      (s.ring n 1).infl.any fun f => f.rcd.op == 0x34 && f.slot == some r.slotOf && f.done) = true ↔ s.drainEnds n r := by
  simp only [Bool.and_eq_true, Bool.not_eq_true', beq_iff_eq, List.any_eq_true, M.drainEnds, InFlight.drained, and_assoc]

include hl in
theorem slotDrainWaitEnd_waits {r : Rec} (h : s.m.headRec n 1 = some r) (hgo : ¬ s.m.drainEnds n r) :
    exec (.slotDrainWaitEnd n) s = .next s := by
  show execSlotDrainWaitEnd n s = _
  rw [execSlotDrainWaitEnd, State.doing_live s _ hl, run_bind, run_get, h]
  simp only [run_whenA]
  rw [if_neg ((s.m.drainEnds_iff n r).not.2 hgo)]

include hl in
/-- The slot is free, and the record that waits for it goes to the arbitration point. -/
theorem slotDrainWaitEnd_ends {r : Rec} (h : s.m.headRec n 1 = some r) (hgo : s.m.drainEnds n r) :
    exec (.slotDrainWaitEnd n) s =
      s.becomes (issue n 1 none ((s.m.setCore n ((s.m.core n).setSlot r.slotOf {})).withRing n 1 fun g =>
        { g with infl := g.infl.map fun f => if f.rcd.op = 0x34 ∧ f.slot = some r.slotOf ∧ f.done = true
                                             then { f with slot := none } else f })).2 := by
  show execSlotDrainWaitEnd n s = _
  rw [execSlotDrainWaitEnd, State.doing_live s _ hl, run_bind, run_get, h]
  simp only [run_whenA]
  rw [if_pos ((s.m.drainEnds_iff n r).2 hgo)]
  rfl

end

/-! ## Freezes (R185, R346) -/

/-- The entries in flight after a freeze of one cycle: the first for which p holds takes the longer. -/
def freezeFirst (p : InFlight → Bool) (l : List InFlight) : List InFlight :=
  match l.findIdx? p with
  | none => l
  | some i => l.modify i fun f => { f with frozen := f.frozen + 1 }

theorem run_freeze (n e : Nat) (p : InFlight → Bool) (s : M) :
    (freeze n e p s).2 = s.withRing n e fun g => { g with infl := freezeFirst p g.infl } := by
  rw [freeze, run_updRing, M.withRing, M.ring, freezeFirst]
  cases ((s.core n).ring e).infl.findIdx? p <;> rfl

theorem getElem?_freezeFirst (p : InFlight → Bool) (l : List InFlight) (i : Nat) : (freezeFirst p l)[i]? =
    l[i]?.map fun f => if l.findIdx? p = some i then { f with frozen := f.frozen + 1 } else f := by
  unfold freezeFirst
  cases l.findIdx? p with
  | none => simp
  | some j =>
    rw [List.getElem?_modify]
    simp

theorem length_freezeFirst (p : InFlight → Bool) (l : List InFlight) : (freezeFirst p l).length = l.length := by
  unfold freezeFirst
  split
  · rfl
  · exact List.length_modify ..

/-- A freeze leaves the opcodes in flight as they are. -/
theorem map_op_freezeFirst (p : InFlight → Bool) (l : List InFlight) :
    (freezeFirst p l).map (·.rcd.op) = l.map (·.rcd.op) := by
  refine List.ext_getElem? fun i => ?_
  rw [List.getElem?_map, List.getElem?_map, getElem?_freezeFirst, Option.map_map]
  refine Option.map_congr fun f _ => ?_
  rw [Function.comp_apply]
  split <;> rfl

/-- A freeze leaves it as it was which entry another sequencer has first. -/
theorem findIdx?_freezeFirst (p : InFlight → Bool) (q : Nat → Bool) (l : List InFlight) :
    (freezeFirst p l).findIdx? (fun f => q f.rcd.op) = l.findIdx? fun f => q f.rcd.op := by
  have h : ∀ l : List InFlight, l.findIdx? (fun f => q f.rcd.op) = (l.map (·.rcd.op)).findIdx? q := fun l =>
    List.findIdx?_map.symm
  rw [h, h, map_op_freezeFirst]

/-- One entry is not the first of two kinds that exclude each other. -/
theorem findIdx?_ne_of_exclusive {α : Type} {p q : α → Bool} (hpq : ∀ a, p a = true → q a = false) {l : List α} {i : Nat}
    (hp : l.findIdx? p = some i) : l.findIdx? q ≠ some i := by
  intro hq
  obtain ⟨_, h, -⟩ := List.findIdx?_eq_some_iff_getElem.1 hp
  obtain ⟨_, h', -⟩ := List.findIdx?_eq_some_iff_getElem.1 hq
  rw [hpq _ h] at h'
  cases h'

section
variable {s : State} (hl : s.m.board.live = true)

include hl in
/-- The checksum freezes the matrix operation that is first in flight (R346). -/
theorem checksumFreeze_effect {pos n i : Nat} {f : InFlight} (hr : s.m.runningAt pos = n) (hn : n < s.m.nCores)
    (hk : bit (s.m.reg Reg.chkCtl) 0 = true)
    (hi : (s.m.ring n 1).infl.findIdx? (fun f => opMatrix f.rcd.op && f.rcd.op != 0x32) = some i)
    (hf : (s.m.ring n 1).infl[i]? = some f) : s.ends (exec (.checksumFreeze pos) s) fun m =>
      m.cores = (s.m.withEntry n 1 i { f with frozen := f.frozen + 1 }).cores ∧ s.m.sameStores m := by
  have hany : ((s.m.ring n 1).infl.any fun f => opMatrix f.rcd.op && f.rcd.op != 0x32) = true := by
    obtain ⟨hlt, hp, -⟩ := List.findIdx?_eq_some_iff_getElem.1 hi
    exact List.any_eq_true.2 ⟨_, List.getElem_mem hlt, hp⟩
  have hset : freezeFirst (fun f => opMatrix f.rcd.op && f.rcd.op != 0x32) (s.m.ring n 1).infl =
      (s.m.ring n 1).infl.set i { f with frozen := f.frozen + 1 } := by
    rw [freezeFirst, hi]
    dsimp only
    rw [List.modify_eq_set_getElem?, hf]
    rfl
  obtain ⟨r, hev⟩ := posCount_regs pos 8 8 0x18B 1 n s.m
  refine ⟨_, State.doing_live s _ hl, ?_⟩
  rw [run_bind, run_get]
  dsimp only
  rw [run_whenA, hr, hk, hany, decide_eq_true hn, Bool.and_self, Bool.and_self, if_pos rfl, run_bind, hev, run_freeze]
  refine ⟨?_, rfl, rfl⟩
  rw [M.withEntry, M.withRing, M.withRing, ← hset]
  rfl

include hl in
/-- Hazard watch freezes what is first in flight on each sequencer of the engine: DRAIN has its own (R171, R185). -/
theorem hazardWatchFreeze_effect (hw : s.m.wf = true) {pos n e : Nat} (hr : s.m.runningAt pos = n) (hn : n < s.m.nCores)
    (hz : s.m.hazardSetting n e ≠ 0) (hne : (s.m.ring n e).infl ≠ []) :
    s.ends (exec (.hazardWatchFreeze pos e) s) fun m =>
      (m.ring n e).infl =
        freezeFirst (fun f => f.rcd.op == 0x34) (freezeFirst (fun f => f.rcd.op != 0x34) (s.m.ring n e).infl) ∧
      (∀ k, k ≠ n → m.core k = s.m.core k) ∧ s.m.sameStores m := by
  obtain ⟨r, hev⟩ := engEvent_regs n e 0x07 1 s.m
  have huw : ({ s.m with regs := r } : M).wf = true := hev ▸ (keepsWf_engEvent n e 0x07 1 s.m hw)
  refine ⟨_, State.doing_live s _ hl, ?_⟩
  rw [run_bind, run_get]
  dsimp only
  rw [run_whenA, hr, decide_eq_true hn, bne_iff_ne.2 hz, List.isEmpty_eq_false_iff.2 hne]
  simp only [Bool.not_false, Bool.and_self, if_true, run_bind, hev, run_freeze]
  refine ⟨?_, fun k hk => ?_, rfl, rfl⟩
  · rw [M.ring_withRing_self (M.wf_withRing huw _ _ _), M.ring_withRing_self huw]
    rfl
  · rw [M.withRing, M.core_setCore_other _ _ hk, M.withRing, M.core_setCore_other _ _ hk]
    rfl

end

/-- What the freezes of both sequencers make of each entry in flight. -/
theorem getElem?_freeze_both {l : List InFlight} {i : Nat} {f : InFlight} (hf : l[i]? = some f) :
    (freezeFirst (fun f => f.rcd.op == 0x34) (freezeFirst (fun f => f.rcd.op != 0x34) l))[i]? =
      some (if l.findIdx? (fun f => f.rcd.op == 0x34) = some i ∨ l.findIdx? (fun f => f.rcd.op != 0x34) = some i
        then { f with frozen := f.frozen + 1 } else f) := by
  rw [getElem?_freezeFirst, findIdx?_freezeFirst _ (· == 0x34), getElem?_freezeFirst, hf]
  have hex : l.findIdx? (fun f => f.rcd.op == 0x34) = some i → l.findIdx? (fun f => f.rcd.op != 0x34) ≠ some i :=
    findIdx?_ne_of_exclusive fun f hd => by simpa using hd
  by_cases hd : l.findIdx? (fun f => f.rcd.op == 0x34) = some i
  · simp [hd, hex hd]
  · simp [hd]

/-! ## The statement -/

/-- Settles O48: the carry-resolve stage hands what has left a window to the spill unit, which adds it to the element's record, so
that window and record together keep the sum; the end of a drain and the freezes are each one change of the core's slot and ring. -/
theorem slotEvents : Obligations.SlotEvents := by
  unfold Obligations.SlotEvents
  intro s n k hl hw _
  refine ⟨fun ho => ?_, fun ho hc hf hclean => windowResolve_wide hl hw ho hc hf hclean, fun ho hc => ?_,
    slotDrainWaitEnd_no_head hl, fun r hr => ⟨slotDrainWaitEnd_waits hl hr, slotDrainWaitEnd_ends hl hr⟩,
    fun pos i f hr hn hk hi hf => checksumFreeze_effect hl hr hn hk hi hf, fun pos e hr hn hz hne => ?_⟩
  · rw [exec_windowResolve hl, if_neg ho]
  · exact windowResolve_narrow hl hw ho fun e he => hc.imp_right fun h => h.2 e he
  · obtain ⟨m, hm, hinfl, hcores, hstores⟩ := hazardWatchFreeze_effect hl hw hr hn hz hne
    refine ⟨m, hm, ?_⟩
    dsimp only
    rw [hinfl]
    exact ⟨by rw [length_freezeFirst, length_freezeFirst], fun i f hf => getElem?_freeze_both hf, hcores, hstores⟩

end Sys2Proof.Machine

/-! # The oldest entry in flight retires (R68, R125, R129 to R131, R149, R344)

First what leaves the registers of rings and passes alone: events, trace records, reads and writes of the stores. Then a retirement
in its three parts: the entry leaves its ring, what follows from its going, the halt. Last the throw that goes before it. -/

namespace Sys2Proof.Machine

/-! ## Fields that are set -/

/-- A number with a field set: what lies below the field, the field, and what lies above it. -/
theorem setBits_eq {hi lo : Nat} (h : lo ≤ hi) (x v : Nat) : setBits x hi lo v =
    x % 2 ^ lo + 2 ^ lo * (v % 2 ^ (hi + 1 - lo) + 2 ^ (hi + 1 - lo) * (x >>> (hi + 1))) := by
  have hp : (2 : Nat) ^ (hi + 1) = 2 ^ lo * 2 ^ (hi + 1 - lo) := by rw [← pow_add]; congr 1; omega
  rw [setBits, Nat.shiftLeft_eq, Nat.shiftLeft_eq, hp]
  ring

theorem bits_setBits_self {hi lo : Nat} (h : lo ≤ hi) (x v : Nat) : bits (setBits x hi lo v) hi lo = v % 2 ^ (hi + 1 - lo) := by
  have hlo : x % 2 ^ lo < 2 ^ lo := Nat.mod_lt _ (by positivity)
  rw [bits, setBits_eq h, Nat.shiftRight_eq_div_pow, Nat.add_mul_div_left _ _ (by positivity), Nat.div_eq_of_lt hlo, Nat.zero_add,
    Nat.add_mul_mod_self_left, Nat.mod_mod]

/-- Setting a field leaves the bits below it alone. -/
theorem testBit_setBits_below {hi lo i : Nat} (h : i < lo) (hl : lo ≤ hi) (x v : Nat) :
    (setBits x hi lo v).testBit i = x.testBit i := by
  have hmod : setBits x hi lo v % 2 ^ lo = x % 2 ^ lo := by rw [setBits_eq hl, Nat.add_mul_mod_self_left, Nat.mod_mod]
  have hbit := congrArg (Nat.testBit · i) hmod
  simpa [Nat.testBit_mod_two_pow, h] using hbit

/-- Setting a field leaves the fields below it alone. -/
theorem bits_setBits_below {hi lo hi' lo' : Nat} (h : hi' < lo) (hl : lo ≤ hi) (x v : Nat) :
    bits (setBits x hi lo v) hi' lo' = bits x hi' lo' := by
  refine Nat.eq_of_testBit_eq fun i => ?_
  simp only [bits, Nat.testBit_mod_two_pow, Nat.testBit_shiftRight]
  by_cases hi : i < hi' + 1 - lo'
  · rw [testBit_setBits_below (by omega) hl]
  · simp [hi]

/-- A set bit reads as it was set. -/
theorem bit_setBits_self (x i v : Nat) : bit (setBits x i i v) i = decide (v % 2 = 1) := by
  have h := bits_setBits_self (Nat.le_refl i) x v
  rw [bits, Nat.add_sub_cancel_left, pow_one, Nat.shiftRight_eq_div_pow] at h
  rw [bit, Nat.testBit_eq_decide_div_mod_eq, h]

/-! ## Properties that an action keeps -/

/-- The action keeps the property. -/
def Keeps {α : Type} (P : M → Prop) (a : Act α) : Prop := ∀ s, P s → P (a s).2

section
variable {P : M → Prop} {α β : Type}

theorem keeps_pure (x : α) : Keeps P (pure x) := fun _ h => h

theorem keeps_bind {a : Act α} {f : α → Act β} (ha : Keeps P a) (hf : ∀ x, Keeps P (f x)) : Keeps P (a >>= f) :=
  fun s h => hf _ _ (ha s h)

/-- What an action reads of the machine before it goes on changes nothing. -/
theorem keeps_getThen {f : M → Act β} (hf : ∀ x, Keeps P (f x)) : Keeps P (MonadState.get >>= f) := fun s h => hf s s h

theorem keeps_whenA {c : Bool} {a : Act Unit} (ha : Keeps P a) : Keeps P (whenA c a) := by
  cases c with
  | false => exact keeps_pure ()
  | true => exact ha

theorem keeps_ite {c : Prop} [Decidable c] {a b : Act α} (ha : Keeps P a) (hb : Keeps P b) : Keeps P (if c then a else b) := by
  split
  · exact ha
  · exact hb

end

/-! ## What leaves the registers of rings and passes alone -/

/-- The registers of the rings and the passes of the logical cores lie here, with their identity, step and phase. -/
def Reg.ofRings (o : Nat) : Prop := 0x1000000 ≤ o ∧ o < 0x10004000 ∧ o % 0x10000 < 0x2000

/-- A property that no write beside the registers of rings and passes undoes, and no draw of a free value. -/
structure AboutRings (P : M → Prop) : Prop where
  setReg : ∀ {s o} v, ¬ Reg.ofRings o → P s → P (s.setReg o v)
  draw : ∀ {s : M}, P s → P { s with free := s.free + 1 }

/-- The registers of a job's state (R236). -/
def Reg.jobs (n : Nat) : List Nat :=
  [Reg.coreJobLossScale n, Reg.coreJobFiniteRun n, Reg.coreJobSkipCount n, Reg.coreJobBiasCorr n]

theorem Reg.not_ofRings_jobs {n o : Nat} (h : o ∈ Reg.jobs n) : ¬ Reg.ofRings o := by
  simp only [Reg.jobs, Reg.coreJobLossScale, Reg.coreJobFiniteRun, Reg.coreJobSkipCount, Reg.coreJobBiasCorr, List.mem_cons,
    List.not_mem_nil, or_false] at h
  simp only [Reg.ofRings]
  omega

namespace AboutRings

variable {P : M → Prop} (hP : AboutRings P)
include hP

theorem keeps_wr {o : Nat} (ho : ¬ Reg.ofRings o) (v : Nat) : Keeps P (wr o v) := fun _ h => hP.setReg v ho h

theorem keeps_upd {o : Nat} (ho : ¬ Reg.ofRings o) (f : Nat → Nat) : Keeps P (upd o f) := fun s h => hP.setReg (f (s.reg o)) ho h

/-- The registers of a position lie above those of the cores. -/
theorem setPos {s : M} {o : Nat} (v : Nat) (ho : 0x10004000 ≤ o) (h : P s) : P (s.setReg o v) :=
  hP.setReg v (fun hr => absurd hr.2.1 (Nat.not_lt.2 ho)) h

theorem countAt {s : M} (pos c sel code n : Nat) (h : P s) :
    P (Machine.countAt (Reg.posCnt pos c) sel (Reg.posCntOvf pos) c code n s) := by
  have hcnt := fun v => hP.setPos (o := Reg.posCnt pos c) v (by simp only [Reg.posCnt]; omega) h
  unfold Machine.countAt
  dsimp only
  split
  · generalize s.reg (Reg.posCnt pos c) + (if bit (s.reg sel) 30 then 1 else n) = v
    split
    · exact hcnt _
    · exact hP.setPos _ (by simp only [Reg.posCntOvf]; omega) (hcnt _)
  · exact h

theorem keeps_posCount (pos frm k code n who : Nat) : Keeps P (posCount pos frm k code n who) := fun s h => by
  rw [posCount, run_modify]
  split
  · exact h
  · refine List.foldlRecOn _ _ h fun t ht c _ => ?_
    split
    · exact ht
    · exact hP.countAt _ _ _ _ _ ht

theorem keeps_engEvent (n e k c : Nat) : Keeps P (engEvent n e k c) := keeps_getThen fun _ => hP.keeps_posCount _ _ _ _ _ _

theorem keeps_statusEvent (n e status : Nat) : Keeps P (statusEvent n e status) := keeps_whenA (hP.keeps_engEvent _ _ _ _)

/-- Sampling a retirement for the trace writes registers of the position alone. -/
theorem keeps_traceSample (pos e : Nat) : Keeps P (traceSample pos e) := by
  have hn : ∀ v, Keeps P (wr (Reg.posTraceN pos e) v) := fun v s h => hP.setPos v (by simp only [Reg.posTraceN]; omega) h
  have hl : ∀ v, Keeps P (wr (Reg.posTraceLast pos) v) := fun v s h => hP.setPos v (by simp only [Reg.posTraceLast]; omega) h
  refine keeps_getThen fun s => keeps_ite (keeps_pure _) (keeps_ite ?_ (keeps_ite ?_ (keeps_pure _)))
  · exact keeps_bind (hn _) fun _ => keeps_pure _
  · exact keeps_bind (hl _) fun _ => keeps_pure _

/-- A trace record draws its latency and is written into registers of the position. -/
theorem keeps_traceRecord (n e : Nat) (f : InFlight) (status : Nat) : Keeps P (traceRecord n e f status) := by
  refine keeps_getThen fun s => keeps_bind (fun _ h => hP.draw h) fun lat => keeps_bind (forA_keeps P _ _ ?_) fun _ =>
    keeps_bind ?_ fun _ => keeps_whenA ?_
  · exact fun k t ht => hP.setPos _ (by simp only [Reg.posTraceBuf]; omega) ht
  · exact fun t ht => hP.setPos _ (by simp only [Reg.posTraceWr]; omega) ht
  · exact fun t ht => hP.setPos _ (by simp only [Reg.posTraceCtl]; omega) ht

/-- What a FINAL UPDATE changes of the job's state lies in registers of the job (R236). -/
theorem keeps_finalStep (n : Nat) (finite : Bool) : Keeps P (finalStep n finite) := by
  have hwr : ∀ {o} v, o ∈ Reg.jobs n → Keeps P (wr o v) := fun v ho => hP.keeps_wr (Reg.not_ofRings_jobs ho) v
  have hupd : ∀ {o} f, o ∈ Reg.jobs n → Keeps P (upd o f) := fun f ho => hP.keeps_upd (Reg.not_ofRings_jobs ho) f
  refine keeps_getThen fun s => keeps_ite (keeps_bind (hupd _ (by simp [Reg.jobs])) fun _ => keeps_getThen fun t => ?_)
    (keeps_bind (hupd _ (by simp [Reg.jobs])) fun _ => keeps_bind (hwr _ (by simp [Reg.jobs])) fun _ =>
      hwr _ (by simp [Reg.jobs]))
  exact keeps_ite (keeps_bind (hwr _ (by simp [Reg.jobs])) fun _ => hwr _ (by simp [Reg.jobs])) (hwr _ (by simp [Reg.jobs]))

end AboutRings

/-! ## Reads and writes of the stores -/

/-- The second machine has the logical cores of the first, and its registers of rings and passes. -/
structure M.sameRings (s t : M) : Prop where
  cores : t.cores = s.cores
  regs : ∀ o, Reg.ofRings o → t.reg o = s.reg o

/-- A write beside the registers of rings and passes leaves them alone. -/
theorem M.reg_setReg_beside (s : M) {o o' : Nat} (v : Nat) (ho : ¬ Reg.ofRings o) (ho' : Reg.ofRings o') :
    (s.setReg o v).reg o' = s.reg o' := M.reg_setReg_other s v fun h => ho (h ▸ ho')

theorem M.aboutRings_sameRings (s : M) : AboutRings s.sameRings where
  setReg v ho h := ⟨h.cores, fun o' ho' => (M.reg_setReg_beside _ v ho ho').trans (h.regs o' ho')⟩
  draw h := ⟨h.cores, h.regs⟩

section
variable (s : M)

/-- What changes neither cores nor registers leaves the rings the same. -/
theorem keepsRings_modify {f : M → M} (hf : ∀ t, (f t).cores = t.cores ∧ (f t).regs = t.regs) :
    Keeps s.sameRings (modify f : Act PUnit) := fun t ⟨hc, hr⟩ => by
  obtain ⟨hcf, hrf⟩ := hf t
  exact ⟨hcf.trans hc, fun o ho => (congrArg (Tab.read Reg.dflt · o) hrf).trans (hr o ho)⟩

theorem keepsRings_wr {o : Nat} (ho : o < 0x1000000) (v : Nat) : Keeps s.sameRings (wr o v) :=
  s.aboutRings_sameRings.keeps_wr (fun h => absurd h.1 (Nat.not_le.2 ho)) v

theorem keepsRings_upd {o : Nat} (ho : o < 0x1000000) (f : Nat → Nat) : Keeps s.sameRings (upd o f) :=
  s.aboutRings_sameRings.keeps_upd (fun h => absurd h.1 (Nat.not_le.2 ho)) f

theorem keepsRings_sliceEvent (l code : Nat) : Keeps s.sameRings (sliceEvent l code) :=
  keeps_getThen fun _ => keeps_ite (keeps_getThen fun _ => s.aboutRings_sameRings.keeps_posCount _ _ _ _ _ _) (keeps_pure _)

theorem M.toHost_rings (t : M) (o : Output) : (t.toHost o).cores = t.cores ∧ (t.toHost o).regs = t.regs := by
  unfold M.toHost
  split <;> exact ⟨rfl, rfl⟩

theorem keepsRings_logAdd (kind island step logical queue entry : Nat) (pl : List Byte) :
    Keeps s.sameRings (logAdd kind island step logical queue entry pl) :=
  keeps_getThen fun _ => keeps_bind (keepsRings_wr s (by decide) _) fun _ =>
    keeps_bind (keeps_whenA (keepsRings_upd s (by decide) _)) fun _ =>
    keeps_bind (keepsRings_modify s fun _ => ⟨rfl, rfl⟩) fun _ => keepsRings_modify s fun t => t.toHost_rings _

/-- Whatever a read of a line finds, it leaves the rings the same (R201 to R204). -/
theorem keepsRings_readLine (l : Nat) : Keeps s.sameRings (readLine l) := by
  refine keeps_getThen fun t => ?_
  dsimp only
  split
  case h_1 => exact keeps_pure _
  case h_2 =>
    exact keeps_bind (keepsRings_upd s (by decide) _) fun _ => keeps_bind (keepsRings_wr s (by decide) _) fun _ =>
      keeps_bind (keepsRings_sliceEvent s _ _) fun _ => keeps_pure _
  case h_3 =>
    exact keeps_bind (keepsRings_modify s fun t => by simp) fun _ => keeps_bind (keepsRings_upd s (by decide) _) fun _ =>
      keeps_bind (keepsRings_wr s (by decide) _) fun _ => keeps_bind (keepsRings_sliceEvent s _ _) fun _ => keeps_pure _
  case h_4 =>
    exact keeps_bind (keepsRings_modify s fun t => by simp) fun _ => keeps_bind (keepsRings_upd s (by decide) _) fun _ =>
      keeps_bind (keepsRings_wr s (by decide) _) fun _ => keeps_bind (keepsRings_logAdd s _ _ _ _ _ _ _) fun _ => keeps_pure _

theorem keepsRings_writeInLine (l off : Nat) (data : List Byte) : Keeps s.sameRings (writeInLine l off data) :=
  keeps_ite (keeps_bind (keepsRings_modify s fun _ => by simp) fun _ => keeps_pure _)
    (keeps_bind (keepsRings_readLine s l) fun _ => keeps_ite (keeps_pure _)
      (keeps_bind (keepsRings_modify s fun _ => by simp) fun _ => keeps_pure _))

theorem keepsRings_writeBytesAux (fuel a : Nat) (data : List Byte) : Keeps s.sameRings (writeBytesAux fuel a data) := by
  induction fuel generalizing a data with
  | zero => exact keeps_pure _
  | succ fuel ih =>
    exact keeps_ite (keeps_pure _) (keeps_bind (keepsRings_writeInLine s _ _ _) fun _ => keeps_bind (ih _ _) fun _ => keeps_pure _)

/-- A write of the stores leaves the rings the same. -/
theorem M.sameRings_writeBytes (a : Nat) (data : List Byte) : s.sameRings (writeBytes a data s).2 :=
  keepsRings_writeBytesAux s _ a data s ⟨rfl, fun _ _ => rfl⟩

end

/-- A whole line that is written reads back. -/
theorem M.bytes_writeBytes {s : M} (hw : s.wf = true) {a : Nat} (ha : a % 32 = 0) {data : List Byte} (hd : data.length = 32) :
    (writeBytes a data s).2.bytes a 32 = data := by
  obtain ⟨t, hrun, -, hbytes⟩ := run_writeBytesAux_lines hw 1 (l := a / 32) (fuel := data.length / 32 + 2) (data := data)
    (by omega) (by omega)
  rw [show 32 * (a / 32) = a by omega] at hrun hbytes
  rw [writeBytes, hrun]
  refine List.ext_getElem (by simp [M.bytes, hd]) fun i hi _ => ?_
  simp only [M.bytes, List.getElem_map, List.getElem_range]
  exact hbytes i _

/-! ## A ring halts (R138) -/

theorem Core.ring_raised (c : Core) (cause e : Nat) : (c.raised cause).ring e = c.ring e := by
  match e with
  | 0 | 1 | 2 | _ + 3 => rfl

/-- A halt leaves what the rings hold, and the stores. -/
theorem haltRing_frame {s : M} (hw : s.wf = true) (n e x status : Nat) :
    let t := (haltRing n e x status s).2
    t.ring n e = s.ring n e ∧ s.sameStores t := by
  obtain ⟨r, hr⟩ := haltRing_regs n e x status s
  dsimp only
  rw [hr]
  refine ⟨?_, rfl, rfl⟩
  show ((s.setCore n _).core n).ring e = _
  rw [M.core_setCore_self _ _ _ hw, Core.ring_raised, M.ring]

/-- The module with a ring stopped, and the record and status shown. -/
def M.halting (s : M) (n e x status : Nat) : M :=
  let t := (s.setReg (Reg.coreRingCtl n e) (setBits (s.reg (Reg.coreRingCtl n e)) 0 0 0)).setReg (Reg.coreRingHaltIndex n e) x
  let t := t.setReg (Reg.coreRingState n e) (setBits (t.reg (Reg.coreRingState n e)) 15 0 status)
  t.setReg (Reg.coreRingState n e) (setBits (t.reg (Reg.coreRingState n e)) 28 28 1)

/-- After the registers are set, a halt counts its event and raises the interrupt. -/
theorem haltRing_keeps {P : M → Prop} (hP : AboutRings P) (hcore : ∀ {t n c}, P t → P (t.setCore n c)) {s : M} {n e x status : Nat}
    (h : P (s.halting n e x status)) : P (haltRing n e x status s).2 :=
  have hirq : Keeps P (ctlInterrupt n 0) := keeps_getThen fun _ => keeps_bind (fun _ ht => hcore ht) fun _ =>
    hP.keeps_posCount _ _ _ _ _ _
  hirq _ (hP.keeps_engEvent n e 0x09 1 _ h)

/-- The registers of ring e of core n that a retirement reads and writes. -/
def Reg.ringRegs (n e : Nat) : List Nat :=
  [Reg.coreRingBase n e, Reg.coreRingSize n e, Reg.coreRingCtl n e, Reg.coreRingRet n e, Reg.coreRingState n e,
    Reg.coreRingHaltIndex n e, Reg.coreRingAbortResult n e]

theorem Reg.mem_ringRegs {n e o : Nat} : o ∈ Reg.ringRegs n e ↔ ∃ d ∈ [0x100, 0x108, 0x10c, 0x118, 0x11c, 0x154, 0x150],
    o = 0x1000000 + d + 0x10000 * n + 0x80 * e := by
  simp only [Reg.ringRegs, Reg.coreRingBase, Reg.coreRingSize, Reg.coreRingCtl, Reg.coreRingRet, Reg.coreRingState,
    Reg.coreRingHaltIndex, Reg.coreRingAbortResult, List.mem_cons, List.not_mem_nil, or_false, exists_eq_or_imp, exists_eq_left]

section
variable {n e : Nat} (hn : n < 120) (he : e < 4)
include hn he

theorem Reg.ofRings_ring {o : Nat} (h : o ∈ Reg.ringRegs n e) : Reg.ofRings o := by
  simp only [Reg.mem_ringRegs, List.mem_cons, List.not_mem_nil, or_false, exists_eq_or_imp, exists_eq_left] at h
  simp only [Reg.ofRings]
  omega

theorem haltRing_haltedAt {s : M} (hw : s.wf = true) (x status : Nat) : (haltRing n e x status s).2.haltedAt n e x status := by
  refine haltRing_keeps (P := fun t => t.haltedAt n e x status) ⟨fun {t _} v ho h => ?_, id⟩ id ?_
  · have hreg := fun {o'} h => t.reg_setReg_beside v ho (Reg.ofRings_ring hn he (o := o') h)
    unfold M.haltedAt M.ringRun at *
    rwa [hreg (by simp [Reg.ringRegs]), hreg (by simp [Reg.ringRegs]), hreg (by simp [Reg.ringRegs])]
  · have hw1 := M.wf_setReg (Reg.coreRingCtl n e) (setBits (s.reg (Reg.coreRingCtl n e)) 0 0 0) hw
    have hw2 := M.wf_setReg (Reg.coreRingHaltIndex n e) x hw1
    have hctl : Reg.coreRingCtl n e ≠ Reg.coreRingState n e ∧ Reg.coreRingCtl n e ≠ Reg.coreRingHaltIndex n e ∧
        Reg.coreRingHaltIndex n e ≠ Reg.coreRingState n e := by
      simp only [Reg.coreRingCtl, Reg.coreRingState, Reg.coreRingHaltIndex]
      omega
    obtain ⟨hcs, hci, his⟩ := hctl
    simp only [M.haltedAt, M.ringRun, M.halting]
    rw [M.reg_setReg_self _ _ _ (M.wf_setReg _ _ hw2), M.reg_setReg_self _ _ _ hw2,
      M.reg_setReg_other _ _ hcs, M.reg_setReg_other _ _ hcs, M.reg_setReg_other _ _ hci, M.reg_setReg_self _ _ _ hw,
      M.reg_setReg_other _ _ his, M.reg_setReg_other _ _ his, M.reg_setReg_self _ _ _ hw1]
    exact ⟨by rw [bit_setBits_self]; rfl, rfl, by rw [bits_setBits_below (by decide) (by decide), bits_setBits_self (by decide)],
      by rw [bit_setBits_self]; rfl⟩

end

/-- A halt writes no register of rings and passes but the run bit, the halt index and the state of its ring. -/
theorem haltRing_reg (s : M) (n e x status : Nat) {o : Nat} (ho : Reg.ofRings o)
    (hc : o ≠ Reg.coreRingCtl n e) (hi : o ≠ Reg.coreRingHaltIndex n e) (hs : o ≠ Reg.coreRingState n e) :
    (haltRing n e x status s).2.reg o = s.reg o := by
  refine haltRing_keeps (P := fun t => t.reg o = s.reg o)
    ⟨fun v ho' h => (M.reg_setReg_beside _ v ho' ho).trans h, id⟩ id ?_
  simp only [M.halting, M.reg_setReg_other _ _ hs, M.reg_setReg_other _ _ hi, M.reg_setReg_other _ _ hc]

/-! ## What follows when an entry has left its ring -/

/-- The second machine has ring e of core n as the first has it, its registers of rings and passes, and its stores; and it is in
canonical form. -/
structure M.ringKept (s : M) (n e : Nat) (t : M) : Prop where
  wf : t.wf = true
  ring : t.ring n e = s.ring n e
  stores : s.sameStores t
  regs : ∀ o, Reg.ofRings o → t.reg o = s.reg o

theorem M.aboutRings_ringKept (s : M) (n e : Nat) : AboutRings (s.ringKept n e) where
  setReg v ho h := ⟨M.wf_setReg _ v h.wf, h.ring, h.stores, fun o' ho' => (M.reg_setReg_beside _ v ho ho').trans (h.regs o' ho')⟩
  draw h := ⟨h.wf, h.ring, h.stores, h.regs⟩

theorem ringKept_updSlot (s : M) (n e k : Nat) (f : Slot → Slot) : Keeps (s.ringKept n e) (updSlot n k f) := fun t h => by
  rw [run_updSlot]
  refine ⟨M.wf_setCore _ _ h.wf, ?_, h.stores, h.regs⟩
  rw [M.ring, M.core_setCore_self _ _ _ h.wf, Core.ring_setSlot, ← h.ring, M.ring]

/-- The slot of a DRAIN that retires is empty, unless it has been taken since (R79). -/
def freeDrained (n : Nat) (f : InFlight) (s : M) : Act Unit :=
  match f.slot with
  | none => pure ()
  | some k => whenA (f.rcd.op == 0x34 && ((s.core n).slot k).state == .draining) (updSlot n k fun _ => {})

/-- What a retirement does when the entry has left its ring, before a halt: the slot, the job's state, events and trace. s is the
machine before. -/
def afterLeaving (n e : Nat) (f : InFlight) (status : Nat) (s : M) : Act Unit := do
  freeDrained n f s
  whenA (f.rcd.op == 0x89 && updFinal f.od && !f.aborted && f.upd.verdict != 0) (finalStep n (f.upd.verdict == 1))
  engEvent n e 0x01 1
  statusEvent n e status
  let t ← traceSample (s.posOf n) e
  whenA t (traceRecord n e f status)

theorem ringKept_afterLeaving (s t : M) (n e : Nat) (f : InFlight) (status : Nat) :
    Keeps (s.ringKept n e) (afterLeaving n e f status t) := by
  have hP := s.aboutRings_ringKept n e
  refine keeps_bind ?_ fun _ => keeps_bind (keeps_whenA (hP.keeps_finalStep _ _)) fun _ => keeps_bind (hP.keeps_engEvent _ _ _ _)
    fun _ => keeps_bind (hP.keeps_statusEvent _ _ _) fun _ => keeps_bind (hP.keeps_traceSample _ _) fun _ =>
    keeps_whenA (hP.keeps_traceRecord _ _ _ _)
  unfold freeDrained
  split
  · exact keeps_pure _
  · exact keeps_whenA (ringKept_updSlot s n e _ _)

/-! ## The entry leaves its ring (R125, R149) -/

/-- The ring without its oldest entry, of record number x. -/
def Ring.left (g : Ring) (x : Nat) : Ring := { g with infl := g.infl.drop 1, watch := if g.watch = some x then none else g.watch }

/-- The module with the completion record of an entry written, if it asks for one (R149). -/
def M.recorded (s : M) (n e extra : Nat) (f : InFlight) (status : Nat) : M :=
  if f.rcd.complete then (writeBytes (s.recAddr n e f.x) (f.record status extra) s).2 else s

/-- The module with an abort's wait for an entry answered: it was aborted, or it has retired (R136). -/
def M.answered (s : M) (n e : Nat) (f : InFlight) (waits : Bool) : M :=
  if waits then s.setReg (Reg.coreRingAbortResult n e) (2 <<< 30 + (if f.aborted then 4 else 0xD)) else s

/-- The module with the completion record written, the entry gone from its ring, an abort's wait for it answered, and RET moved. -/
def M.leaving (s : M) (n e extra : Nat) (f : InFlight) (status : Nat) : M :=
  let t := ((s.recorded n e extra f status).withRing n e (·.left f.x)).answered n e f ((s.ring n e).watch == some f.x)
  t.setReg (Reg.coreRingRet n e) (trunc 32 (t.reg (Reg.coreRingRet n e) + 1))

/-- A retirement is the entry's leaving, what follows, and the halt. -/
theorem run_retireNow (n e extra : Nat) (f : InFlight) (s : M) : (retireNow n e extra f s).2 =
    (let status := f.status (f.thrown == 3)
     let t := (afterLeaving n e f status s (s.leaving n e extra f status)).2
     if f.halts || f.thrown == 3 then (haltRing n e f.x status t).2 else t) := by
  unfold retireNow afterLeaving freeDrained M.leaving M.answered M.recorded
  cases f.slot <;> simp only [run_bind, run_get, run_whenA, run_updRing, run_wr, run_upd, run_pure] <;> rfl

/-! ## A retirement whose throw is settled (R125, R149) -/

/-- The entry before `rest` has left ring e of core n: RET has moved by one, and its completion record is written, if it asks for
one (R125, R149). -/
def M.retired (s : M) (n e extra : Nat) (f : InFlight) (rest : List InFlight) (status : Nat) (t : M) : Prop :=
  (t.ring n e).infl = rest ∧ t.reg (Reg.coreRingRet n e) = trunc 32 (s.reg (Reg.coreRingRet n e) + 1) ∧
    (f.rcd.complete = true → s.recAddr n e f.x % 32 = 0 → t.bytes (s.recAddr n e f.x) 32 = f.record status extra) ∧
    (f.rcd.complete = false → s.sameStores t)

theorem M.bytes_of_sameStores {s t : M} (h : s.sameStores t) (a k : Nat) : t.bytes a k = s.bytes a k := by
  simp only [M.bytes, M.byte, h.1]

/-- What leaves ring, RET and stores alone after a retirement leaves it a retirement. -/
theorem M.retired.after {s t u : M} {n e extra status : Nat} {f : InFlight} {rest : List InFlight}
    (h : s.retired n e extra f rest status t) (hring : u.ring n e = t.ring n e) (hst : t.sameStores u)
    (hret : u.reg (Reg.coreRingRet n e) = t.reg (Reg.coreRingRet n e)) : s.retired n e extra f rest status u := by
  obtain ⟨hinfl, hrt, hrec, hstores⟩ := h
  refine ⟨by rw [hring, hinfl], hret.trans hrt, fun hc ha => ?_, fun hc => ?_⟩
  · rw [M.bytes_of_sameStores hst, hrec hc ha]
  · exact ⟨hst.1.trans (hstores hc).1, hst.2.trans (hstores hc).2⟩

/-- What leaves the stores, RET and the ring's place alone before a retirement leaves it the same retirement. -/
theorem M.retired.before {s t u : M} {n e extra status : Nat} {f : InFlight} {rest : List InFlight}
    (h : t.retired n e extra f rest status u) (hst : s.sameStores t)
    (hregs : ∀ o ∈ [Reg.coreRingBase n e, Reg.coreRingSize n e, Reg.coreRingRet n e], t.reg o = s.reg o) :
    s.retired n e extra f rest status u := by
  have haddr : t.recAddr n e f.x = s.recAddr n e f.x := by
    rw [M.recAddr, M.recAddr, hregs _ (by simp), hregs _ (by simp)]
  obtain ⟨hinfl, hret, hrec, hstores⟩ := h
  rw [haddr] at hrec
  rw [hregs _ (by simp)] at hret
  exact ⟨hinfl, hret, hrec, fun hc => ⟨(hstores hc).1.trans hst.1, (hstores hc).2.trans hst.2⟩⟩

theorem Reg.ofRings_passCount {k p : Nat} (hk : k < 120) (hp : p < 256) : Reg.ofRings (Reg.corePassCount k p) := by
  simp only [Reg.ofRings, Reg.corePassCount]
  omega

/-- The counts of the passes lie apart from the registers of every ring. -/
theorem Reg.passCount_ne_ring {k p n e o : Nat} (hp : p < 256) (he : e < 4) (h : o ∈ Reg.ringRegs n e) :
    Reg.corePassCount k p ≠ o := by
  simp only [Reg.mem_ringRegs, List.mem_cons, List.not_mem_nil, or_false, exists_eq_or_imp, exists_eq_left] at h
  simp only [Reg.corePassCount]
  omega

theorem M.wf_recorded {s : M} (hw : s.wf = true) (n e extra : Nat) (f : InFlight) (status : Nat) :
    (s.recorded n e extra f status).wf = true := by
  unfold M.recorded
  split
  · exact keepsWf_writeBytes _ _ s hw
  · exact hw

theorem M.sameRings_recorded (s : M) (n e extra : Nat) (f : InFlight) (status : Nat) :
    s.sameRings (s.recorded n e extra f status) := by
  unfold M.recorded
  split
  · exact s.sameRings_writeBytes _ _
  · exact ⟨rfl, fun _ _ => rfl⟩

section
variable (s : M) (n e : Nat) (f : InFlight) (waits : Bool)

/-- Answering an abort writes one register, or none. -/
theorem M.answered_eq : ∃ r, s.answered n e f waits = { s with regs := r } := by
  unfold M.answered
  split
  · exact ⟨_, rfl⟩
  · exact ⟨s.regs, rfl⟩

theorem M.wf_answered {s : M} (hw : s.wf = true) : (s.answered n e f waits).wf = true := by
  unfold M.answered
  split
  · exact M.wf_setReg _ _ hw
  · exact hw

theorem M.reg_answered {o : Nat} (ho : o ≠ Reg.coreRingAbortResult n e) : (s.answered n e f waits).reg o = s.reg o := by
  unfold M.answered
  split
  · exact M.reg_setReg_other _ _ ho
  · rfl

end

section
variable {s : M} (hw : s.wf = true) {n e : Nat} (extra : Nat) (f : InFlight) (status : Nat)

include hw in
theorem M.wf_leaving : (s.leaving n e extra f status).wf = true :=
  M.wf_setReg _ _ (M.wf_answered _ _ _ _ (M.wf_withRing (s.wf_recorded hw n e extra f status) n e _))

/-- The entry's leaving writes no register of rings and passes but RET and the abort result. -/
theorem M.reg_leaving {o : Nat} (ho : Reg.ofRings o) (hr : o ≠ Reg.coreRingRet n e) (ha : o ≠ Reg.coreRingAbortResult n e) :
    (s.leaving n e extra f status).reg o = s.reg o := by
  rw [M.leaving, M.reg_setReg_other _ _ hr, M.reg_answered _ _ _ _ _ ha]
  exact (s.sameRings_recorded n e extra f status).regs o ho

include hw in
/-- The entry's leaving is its retirement. -/
theorem M.retired_leaving (hn : n < 120) (he : e < 4) {g : InFlight} {rest : List InFlight} (hinfl : (s.ring n e).infl = g :: rest) :
    s.retired n e extra f rest status (s.leaving n e extra f status) := by
  have hrw := s.wf_recorded hw n e extra f status
  obtain ⟨hcores, hregs⟩ := s.sameRings_recorded n e extra f status
  set t := s.recorded n e extra f status with ht
  obtain ⟨r, hr⟩ := (t.withRing n e (·.left f.x)).answered_eq n e f ((s.ring n e).watch == some f.x)
  have hst : t.sameStores (s.leaving n e extra f status) := by
    rw [M.leaving, ← ht, hr]
    exact ⟨rfl, rfl⟩
  refine ⟨?_, ?_, fun hc ha => ?_, fun hc => ?_⟩
  · rw [M.leaving, ← ht, hr]
    show ((t.withRing n e (·.left f.x)).ring n e).infl = rest
    have hring : t.ring n e = s.ring n e := by rw [M.ring, M.core, hcores, M.ring, M.core]
    rw [M.ring_withRing_self hrw, hring, Ring.left, hinfl, List.drop_one, List.tail_cons]
  · have hne : Reg.coreRingRet n e ≠ Reg.coreRingAbortResult n e := by
      simp only [Reg.coreRingRet, Reg.coreRingAbortResult]
      omega
    rw [M.leaving, ← ht, M.reg_setReg_self _ _ _ (M.wf_answered _ _ _ _ (M.wf_withRing hrw _ _ _)), M.reg_answered _ _ _ _ _ hne]
    exact congrArg (fun v => trunc 32 (v + 1)) (hregs _ (Reg.ofRings_ring hn he (by simp [Reg.ringRegs])))
  · rw [M.bytes_of_sameStores hst, ht, M.recorded, if_pos hc]
    exact M.bytes_writeBytes hw ha (length_leBytes _ _)
  · rwa [ht, M.recorded, if_neg (by simp [hc])] at hst

include hw in
/-- The entry retires with the status that its throw left it (R149), and its ring halts for its own sake or for an overflow (R130). -/
theorem retireNow_retires (hn : n < 120) (he : e < 4) {g : InFlight} {rest : List InFlight} (hinfl : (s.ring n e).infl = g :: rest) :
    let t := (retireNow n e extra f s).2
    s.retired n e extra f rest (f.status (f.thrown == 3)) t ∧
      (f.halts = true ∨ f.thrown = 3 → t.haltedAt n e f.x (f.status (f.thrown == 3))) ∧
      (f.halts = false → f.thrown ≠ 3 → t.ringRun n e = s.ringRun n e) ∧
      ∀ k p, k < 120 → p < 256 → t.reg (Reg.corePassCount k p) = s.reg (Reg.corePassCount k p) := by
  dsimp only
  rw [run_retireNow]
  dsimp only
  generalize hstatus : f.status (f.thrown == 3) = status
  have hret := M.retired_leaving hw extra f status hn he hinfl
  have hkept := ringKept_afterLeaving _ s n e f status (s.leaving n e extra f status)
    ⟨M.wf_leaving hw extra f status, rfl, ⟨rfl, rfl⟩, fun _ _ => rfl⟩
  generalize (afterLeaving n e f status s (s.leaving n e extra f status)).2 = t at *
  have hin := fun {o} => Reg.ofRings_ring hn he (o := o)
  have hret := hret.after hkept.ring hkept.stores (hkept.regs _ (hin (by simp [Reg.ringRegs])))
  have hne := fun {k p o} hp => Reg.passCount_ne_ring (k := k) (p := p) (n := n) (o := o) hp he
  have hcount : ∀ k p, k < 120 → p < 256 → t.reg (Reg.corePassCount k p) = s.reg (Reg.corePassCount k p) := fun k p hk hp => by
    have ho := Reg.ofRings_passCount hk hp
    rw [hkept.regs _ ho, M.reg_leaving _ _ _ ho (hne hp (by simp [Reg.ringRegs])) (hne hp (by simp [Reg.ringRegs]))]
  split
  case isTrue h =>
    obtain ⟨hring, hst⟩ := haltRing_frame hkept.wf n e f.x status
    refine ⟨hret.after hring hst (haltRing_reg t n e f.x status (hin (by simp [Reg.ringRegs])) ?_ ?_ ?_),
      fun _ => haltRing_haltedAt hn he hkept.wf f.x status, fun hh ht => ?_, fun k p hk hp => ?_⟩
    iterate 3 simp only [Reg.coreRingRet, Reg.coreRingCtl, Reg.coreRingHaltIndex, Reg.coreRingState]; omega
    · simp [hh, ht] at h
    · rw [haltRing_reg t n e f.x status (Reg.ofRings_passCount hk hp) (hne hp (by simp [Reg.ringRegs]))
        (hne hp (by simp [Reg.ringRegs])) (hne hp (by simp [Reg.ringRegs])), hcount k p hk hp]
  case isFalse h =>
    refine ⟨hret, fun hh => absurd ?_ h, fun _ _ => ?_, hcount⟩
    · simpa using hh
    · rw [M.ringRun, hkept.regs _ (hin (by simp [Reg.ringRegs])), M.reg_leaving _ _ _ (hin (by simp [Reg.ringRegs])), M.ringRun]
      all_goals simp only [Reg.coreRingCtl, Reg.coreRingRet, Reg.coreRingAbortResult]; omega

end

/-! ## The throw of a retiring record (R119, R130, R131, R358) -/

/-- The core that a record throws to. -/
def Rec.target (r : Rec) (n : Nat) : Nat := if r.throwCore = 0xFF then n else r.throwCore

/-- Does a throw of core n to core t wait: t is another core, and it moves or Practice runs in its position? -/
def M.holdsThrow (s : M) (n t : Nat) : Prop := t ≠ n ∧ (s.coreMode t = 3 ∨ (s.posX (s.posOf t)).practice = true)

theorem Rec.throwPass_lt (r : Rec) : r.throwPass < 256 := Nat.mod_lt _ (by decide)

section
variable {s : M} {n : Nat} (e : Nat) {r : Rec}

theorem run_throwOf_held (h : s.holdsThrow n (r.target n)) : throwOf n e r s = (1, s.setCore (r.target n)
    { s.core (r.target n) with heldPasses := (s.core (r.target n)).heldPasses ++ [(n, e, r.throwPass, r.throwN)] }) := by
  rw [throwOf, run_bind, run_get]
  dsimp only
  rw [run_ite]
  exact if_pos h

theorem run_throwOf_free (h : ¬ s.holdsThrow n (r.target n)) : throwOf n e r s =
    if 65535 < s.reg (Reg.corePassCount (r.target n) r.throwPass) + r.throwN then (3, s)
    else (2, (engEvent n e 0x0C r.throwN (s.setReg (Reg.corePassCount (r.target n) r.throwPass)
      (s.reg (Reg.corePassCount (r.target n) r.throwPass) + r.throwN))).2) := by
  rw [throwOf, run_bind, run_get]
  dsimp only
  rw [run_ite]
  refine (if_neg h).trans ?_
  show (throwPass (r.target n) r.throwPass r.throwN >>= fun ok => do
    whenA ok (engEvent n e 0x0C r.throwN)
    pure (if ok then 2 else 3)) s = _
  rw [run_bind, run_throwPass]
  split <;> rfl

end

/-! ## MACRO_OP_RETIRE -/

/-- Is the work of an entry done, nothing holds it, its product check has passed, and it has not thrown (R125, R130, R344)? -/
structure InFlight.ready (f : InFlight) : Prop where
  done : f.done = true
  held : f.held = false
  thrown : f.thrown = 0
  check : f.pred = f.obs

section
variable {s : M} {n e : Nat} (extra : Nat) {f : InFlight} {rest : List InFlight} (hinfl : (s.ring n e).infl = f :: rest)
include hinfl

theorem run_retire_waits (h : f.done = false ∨ f.held = true ∨ f.thrown = 1 ∨ f.pred ≠ f.obs) : (retire n e extra s).2 = s := by
  have hc : (!f.done || f.held || f.thrown == 1 || f.pred != f.obs) = true := by simpa [or_assoc] using h
  rw [retire, run_bind, run_get, hinfl]
  dsimp only
  rw [hc]
  rfl

theorem run_retire_ready (h : f.ready) : (retire n e extra s).2 =
    if f.throws then
      let r := throwOf n e f.rcd s
      if r.1 = 1 then (putInFlight n e 0 { f with thrown := 1 } r.2).2 else (retireNow n e extra { f with thrown := r.1 } r.2).2
    else (retireNow n e extra f s).2 := by
  have hgo : (!f.done || f.held || f.thrown == 1 || f.pred != f.obs) = false := by
    simp [h.done, h.held, h.thrown, h.check]
  have hthrows : (f.thrown == 0 && f.throws) = f.throws := by simp [h.thrown]
  rw [retire, run_bind, run_get, hinfl]
  dsimp only
  rw [hgo, hthrows, if_neg Bool.false_ne_true, run_ite]
  split
  · rw [run_bind, run_ite]
    split <;> rfl
  · rfl

end

/-- The module when the oldest entry of a ring retires: the windows that a finished matrix operation left due are resolved
(R68). -/
def M.resolvedFor (s : M) (n e : Nat) : M :=
  match (s.ring n e).infl.head? with
  | some f => if e = 1 ∧ f.done = true ∧ opMatrix f.rcd.op = true then (resolvePending n f.rcd.slotOf s).2 else s
  | none => s

theorem M.wf_resolvedFor {s : M} (hw : s.wf = true) (n e : Nat) : (s.resolvedFor n e).wf = true := by
  unfold M.resolvedFor
  split
  · split
    · exact keepsWf_resolvePending _ _ s hw
    · exact hw
  · exact hw

section
variable {s : State} (hl : s.m.board.live = true) (n e extra : Nat)
include hl

theorem exec_macroOpRetire_empty (h : (s.m.ring n e).infl = []) : exec (.macroOpRetire n e extra) s = .next s := by
  show execMacroOpRetire n e extra s = _
  rw [execMacroOpRetire, State.doing_live s _ hl, retireOp, run_bind, run_get, h]
  rfl

theorem exec_macroOpRetire (h : (s.m.ring n e).infl ≠ []) :
    exec (.macroOpRetire n e extra) s = s.becomes (retire n e extra (s.m.resolvedFor n e)).2 := by
  show execMacroOpRetire n e extra s = _
  obtain ⟨f, rest, hf⟩ := List.exists_cons_of_ne_nil h
  rw [execMacroOpRetire, State.doing_live s _ hl, retireOp, run_bind, run_get, M.resolvedFor, hf]
  simp only [List.head?_cons, run_bind, run_whenA, Bool.and_eq_true, beq_iff_eq, and_assoc]

end

section
variable {s : M} {n e : Nat} (extra : Nat) {f : InFlight} {rest : List InFlight}
  (hinfl : (s.ring n e).infl = f :: rest) (hf : f.ready)
include hinfl hf

/-- An entry without a throw retires. -/
theorem retire_plain (hw : s.wf = true) (hn : n < 120) (he : e < 4) (hthrows : f.throws = false) :
    let t := (retire n e extra s).2
    s.retired n e extra f rest (f.status false) t ∧ (f.halts = true → t.haltedAt n e f.x (f.status false)) ∧
      (f.halts = false → t.ringRun n e = s.ringRun n e) := by
  have h3 : f.thrown ≠ 3 := by simp [hf.thrown]
  obtain ⟨hret, hhalt, hrun, -⟩ := retireNow_retires hw extra f hn he hinfl
  rw [beq_eq_false_iff_ne.2 h3] at hret hhalt
  rw [run_retire_ready extra hinfl hf, hthrows, if_neg Bool.false_ne_true]
  exact ⟨hret, fun h => hhalt (.inl h), fun h => hrun h h3⟩

/-- The throw of an entry is taken, and the entry retires (R131). -/
theorem retire_throws (hw : s.wf = true) (hn : n < 120) (he : e < 4) (hthrows : f.throws = true)
    (hfree : ¬ s.holdsThrow n (f.rcd.target n)) (ht : f.rcd.target n < 120)
    (hfits : s.reg (Reg.corePassCount (f.rcd.target n) f.rcd.throwPass) + f.rcd.throwN ≤ 65535) :
    let t := (retire n e extra s).2
    s.retired n e extra f rest (f.status false) t ∧
      t.reg (Reg.corePassCount (f.rcd.target n) f.rcd.throwPass) =
        s.reg (Reg.corePassCount (f.rcd.target n) f.rcd.throwPass) + f.rcd.throwN ∧
      (f.halts = true → t.haltedAt n e f.x (f.status false)) := by
  dsimp only
  rw [run_retire_ready extra hinfl hf, hthrows, if_pos rfl, run_throwOf_free e hfree, if_neg (Nat.not_lt.2 hfits)]
  dsimp only
  rw [if_neg (by decide)]
  set p := Reg.corePassCount (f.rcd.target n) f.rcd.throwPass with hp
  have hpass := Reg.ofRings_passCount ht f.rcd.throwPass_lt
  set u := s.setReg p (s.reg p + f.rcd.throwN) with hu
  have hkept : u.ringKept n e (engEvent n e 0x0C f.rcd.throwN u).2 :=
    (u.aboutRings_ringKept n e).keeps_engEvent n e 0x0C f.rcd.throwN u ⟨M.wf_setReg _ _ hw, rfl, ⟨rfl, rfl⟩, fun _ _ => rfl⟩
  generalize (engEvent n e 0x0C f.rcd.throwN u).2 = v at *
  obtain ⟨hret, hhalt, -, hcount⟩ := retireNow_retires hkept.wf extra { f with thrown := 2 } hn he
    (hkept.ring.symm ▸ hinfl : (v.ring n e).infl = f :: rest)
  refine ⟨M.retired.before (t := v) hret hkept.stores fun o ho => ?_, ?_, fun h => hhalt (.inl h)⟩
  · have hring : o ∈ Reg.ringRegs n e := by
      simp only [List.mem_cons, List.not_mem_nil, or_false] at ho
      rcases ho with rfl | rfl | rfl <;> simp [Reg.ringRegs]
    rw [hkept.regs o (Reg.ofRings_ring hn he hring), hu,
      M.reg_setReg_other _ _ (Reg.passCount_ne_ring f.rcd.throwPass_lt he hring).symm]
  · rw [hcount _ _ ht f.rcd.throwPass_lt, hkept.regs _ hpass, hu, M.reg_setReg_self _ _ _ hw]

/-- A throw that would overflow its pass is refused: the entry retires with the overflow in its status, and its ring halts
(R130, R422). -/
theorem retire_overflows (hw : s.wf = true) (hn : n < 120) (he : e < 4) (hthrows : f.throws = true)
    (hfree : ¬ s.holdsThrow n (f.rcd.target n)) (ht : f.rcd.target n < 120)
    (hover : 65535 < s.reg (Reg.corePassCount (f.rcd.target n) f.rcd.throwPass) + f.rcd.throwN) :
    let t := (retire n e extra s).2
    s.retired n e extra f rest (f.status true) t ∧
      t.reg (Reg.corePassCount (f.rcd.target n) f.rcd.throwPass) =
        s.reg (Reg.corePassCount (f.rcd.target n) f.rcd.throwPass) ∧
      t.haltedAt n e f.x (f.status true) := by
  dsimp only
  rw [run_retire_ready extra hinfl hf, hthrows, if_pos rfl, run_throwOf_free e hfree, if_pos hover]
  dsimp only
  rw [if_neg (by decide)]
  obtain ⟨hret, hhalt, -, hcount⟩ := retireNow_retires hw extra { f with thrown := 3 } hn he hinfl
  exact ⟨hret, hcount _ _ ht f.rcd.throwPass_lt, hhalt (.inr rfl)⟩

/-- A throw to a core that moves waits there, and the entry with it (R119, R358). -/
theorem retire_held (hw : s.wf = true) (hthrows : f.throws = true) (hheld : s.holdsThrow n (f.rcd.target n)) :
    let t := (retire n e extra s).2
    (t.ring n e).infl = { f with thrown := 1 } :: rest ∧
      (t.core (f.rcd.target n)).heldPasses =
        (s.core (f.rcd.target n)).heldPasses ++ [(n, e, f.rcd.throwPass, f.rcd.throwN)] ∧
      t.regs = s.regs ∧ s.sameStores t := by
  dsimp only
  rw [run_retire_ready extra hinfl hf, hthrows, if_pos rfl, run_throwOf_held e hheld]
  dsimp only
  rw [if_pos rfl]
  generalize hc : ({ s.core (f.rcd.target n) with heldPasses := _ } : Core) = c
  generalize f.rcd.target n = k at *
  have hcw := M.wf_setCore k c hw
  have hne : n ≠ k := hheld.1.symm
  have hring : (s.setCore k c).ring n e = s.ring n e := by rw [M.ring, M.core_setCore_other _ _ hne, M.ring]
  show (((s.setCore k c).withEntry n e 0 { f with thrown := 1 }).ring n e).infl = _ ∧
    (((s.setCore k c).withEntry n e 0 { f with thrown := 1 }).core k).heldPasses = _ ∧ _ ∧ _
  refine ⟨?_, ?_, rfl, rfl, rfl⟩
  · rw [M.withEntry, M.ring_withRing_self hcw, hring, hinfl, List.set_cons_zero]
  · rw [M.withEntry, M.withRing, M.core_setCore_other _ _ hne.symm, M.core_setCore_self _ _ _ hw, ← hc]

end

/-! ## The statement -/

/-- Settles O40: the entry at the head of its ring waits, or throws and retires; a throw that is held keeps it, and one that
overflows halts its ring. -/
theorem macroOpsRetire : Obligations.MacroOpsRetire := by
  unfold Obligations.MacroOpsRetire
  intro s n e extra hl hw hn he
  refine ⟨fun f rest hinfl => ?_, exec_macroOpRetire_empty hl n e extra⟩
  have hm1w := M.wf_resolvedFor hw n e
  change ((s.m.resolvedFor n e).ring n e).infl = f :: rest at hinfl
  have hne : (s.m.ring n e).infl ≠ [] := fun h => by
    rw [M.resolvedFor, h, List.head?_nil, h] at hinfl
    cases hinfl
  have hexec := exec_macroOpRetire hl n e extra hne
  refine ⟨fun hwait => ?_, fun hdone hheld hthrown hcheck => ?_⟩
  · rw [run_retire_waits extra hinfl hwait] at hexec
    exact hexec
  · have hf : f.ready := ⟨hdone, hheld, hthrown, hcheck⟩
    have hfree : ∀ {t}, (t = n ∨ ((s.m.resolvedFor n e).coreMode t ≠ 3 ∧
        ((s.m.resolvedFor n e).posX ((s.m.resolvedFor n e).posOf t)).practice = false)) → ¬ (s.m.resolvedFor n e).holdsThrow n t := by
      rintro t (rfl | ⟨hmode, hprac⟩) ⟨htn, hheld⟩
      · exact htn rfl
      · simp [hmode, hprac] at hheld
    exact ⟨fun ht => ⟨_, hexec, retire_plain extra hinfl hf hm1w hn he ht⟩,
      fun ht hlt hgo => ⟨fun hfits => ⟨_, hexec, retire_throws extra hinfl hf hm1w hn he ht (hfree hgo) hlt hfits⟩,
        fun hover => ⟨_, hexec, retire_overflows extra hinfl hf hm1w hn he ht (hfree hgo) hlt hover⟩⟩,
      fun ht htn hgo => ⟨_, hexec, retire_held extra hinfl hf hm1w ht ⟨htn, hgo⟩⟩⟩

end Sys2Proof.Machine

/-! # A matrix macro-op whose operand lies where a window that is due spills (R65, R66, R68)

The model resolves a window that has had its 256 additions at the start of the next matrix macro-op on the slot (R68). What
leaves the window goes to the element's record in the far band store, and the operands are read after that. R66 forbids software
to write the region of an open slot, but not to read an operand from it; and where operand B lies in the record, the spill
overwrites it. The terms then are not those of the operands that stood there before the macro-op. -/

namespace Sys2Proof.Machine

/-- The MMA of the witness: operand A is one BF16 number at address 0, operand B one at address 64. -/
def spillEntry : InFlight :=
  { x := 0, w0 := 0x30, w1 := 0, w2 := 0, w3 := 0, slot := some 0
    descs := [2 <<< 42 + 1 <<< 64 + 1 <<< 96 + 64 <<< 128, 64 + 2 <<< 42 + 1 <<< 64 + 1 <<< 96 + 64 <<< 128] }

/-- Its slot: one element of class W, whose window has had 256 additions and has left its 128 bits. Its record begins at
address 64. -/
def spillSlot : Slot :=
  { state := .opened, cls := .w, w := 4, fbs := 64, m := 1, n := 1, elems := [{ win := 2 ^ 127, adds := 256 }] }

/-- Core 0 with that macro-op in flight on that slot, 3.0 as operand A and −2.0 as operand B. -/
def spillMma : M :=
  let m := (State.reset.m.putLine 0 (leBytes 32 0x4040) false).putLine 2 (leBytes 32 0xC000) false
  m.setCore 0 { m.core 0 with slotA := spillSlot, ringM := { (m.core 0).ringM with infl := [spillEntry] } }

/-- The module after the MMA. -/
def spillMmaAfter : M := tAfter (exec (.mma 0) { State.reset with m := spillMma })

/-- The slot after the MMA. -/
def spillSlotAfter : Slot := (spillMmaAfter.core 0).slot 0

theorem spillMma_sound : spillMma.board.live = true ∧ spillMma.wf = true := by decide +kernel

theorem spillMma_slot : (spillMma.core 0).slot spillEntry.rcd.slotOf = spillSlot := by decide +kernel

theorem spillMma_waits : spillMma.waits 0 1 0x30 = some (0, spillEntry) := by decide +kernel

theorem spillEntry_extent : spillEntry.rcd.play = 0 ∧ (spillEntry.td 0).rows = 1 ∧ (spillEntry.td 1).cols = 1 := by decide +kernel

/-- Every line that the macro-op reads and every line of the element's record decodes without error. -/
theorem spillMma_clean :
    spillMma.clean (mmaLines spillEntry) ∧ spillMma.clean (linesOf (spillSlot.record 0) SlotClass.w.fbsStride) := by
  unfold M.clean
  decide +kernel

/-- The one term of the statement is 3.0 × −2.0, from operand B as it stands before the macro-op. -/
theorem spillMma_terms :
    ((spillMma.slotTerms spillEntry spillSlot 0).map (·.atOff SlotClass.w.off)).sum = -6 * 2 ^ 298 := by decide +kernel

/-- Nothing is added to the element: the window resolves into the record, which leaves zeros where operand B stood. -/
theorem spillMma_sum_unchanged : spillMmaAfter.slotSum spillSlotAfter 0 = spillMma.slotSum spillSlot 0 := by decide +kernel

/-- Refutes O47: where operand B lies in the record of an element whose window is due, the window's resolve overwrites it before
it is read. -/
theorem not_matrixProductsAccumulateExactly : ¬ Obligations.MatrixProductsAccumulateExactly := by
  intro h
  obtain ⟨hlive, hwf⟩ := spillMma_sound
  obtain ⟨hplay, hrows, hcols⟩ := spillEntry_extent
  obtain ⟨hlines, hrecord⟩ := spillMma_clean
  have hmma := h { State.reset with m := spillMma } 0 0 spillEntry hlive hwf (by decide)
  dsimp only at hmma
  rw [spillMma_slot] at hmma
  obtain ⟨hexact, -⟩ := hmma hplay rfl rfl (by decide) rfl hrows hcols hlines
  obtain ⟨m, hm, -, -, -, -, hsum, -⟩ := hexact (.mma 0, 0x30) (by simp) spillMma_waits (Or.inl rfl) (by
    intro x hx
    obtain rfl : x = 0 := Nat.lt_one_iff.mp hx
    exact hrecord)
  have hafter : spillMmaAfter = m := by rw [spillMmaAfter, hm]; rfl
  obtain ⟨hadded, -⟩ := hsum 0 (by decide)
  rw [← hafter] at hadded
  change (spillMmaAfter.slotSum spillSlotAfter 0 - spillMma.slotSum spillSlot 0 -
    ((spillMma.slotTerms spillEntry spillSlot 0).map (·.atOff SlotClass.w.off)).sum) % 2 ^ (64 * 10) = 0 at hadded
  rw [spillMma_sum_unchanged, spillMma_terms, sub_self] at hadded
  exact absurd hadded (by decide +kernel)

end Sys2Proof.Machine

/-! # The line code corrects one symbol in error and detects two or three (R200, R201)

A byte is read in a field of characteristic 2 that holds a root α of the field polynomial: its bits are the coefficients of a
polynomial in α. A word of symbols is read as a polynomial in x, and its syndromes are the values at 1, α, α² and α³. Errors of
values e at places X add Σ e Xʲ to syndrome j, and the sums of two or three errors are never those of a single one. -/

namespace Sys2Proof.Machine

/-! ## Bytes in the field (R200) -/

section
variable {F : Type*} [Field F]

/-- The polynomial in `α` that the low `n` bits of `b` stand for; in characteristic 2 a number is its lowest bit. -/
def bitsAt (α : F) : Nat → Nat → F
  | 0, _ => 0
  | n + 1, b => b + α * bitsAt α n (b / 2)

/-- A byte as an element of the field. -/
def byteAt (α : F) (b : Nat) : F := bitsAt α 8 b

/-- `α` is a root of the field polynomial, whose signs are all the same in characteristic 2. -/
def IsAlpha (α : F) : Prop := α ^ 8 = α ^ 4 + α ^ 3 + α ^ 2 + 1

variable [CharP F 2]

theorem natCast_xor (a b : Nat) : ((a ^^^ b : Nat) : F) = a + b := by
  rw [← Nat.cast_add, CharP.natCast_eq_natCast F 2]
  exact Nat.xor_mod_two_eq

theorem natCast_mod_two_pow_succ (b n : Nat) : ((b % 2 ^ (n + 1) : Nat) : F) = b := by
  rw [CharP.natCast_eq_natCast F 2]
  exact (Nat.mod_modEq b _).of_dvd (dvd_pow_self 2 (Nat.succ_ne_zero n))

theorem natCast_mod_two (b : Nat) : ((b % 2 : Nat) : F) = b := natCast_mod_two_pow_succ b 0

variable (α : F)

theorem bitsAt_xor (n a b : Nat) : bitsAt α n (a ^^^ b) = bitsAt α n a + bitsAt α n b := by
  induction n generalizing a b with
  | zero => simp [bitsAt]
  | succ n ih => rw [bitsAt, bitsAt, bitsAt, natCast_xor, Nat.xor_div_two, ih]; ring

theorem bitsAt_two_mul (n b : Nat) : bitsAt α (n + 1) (2 * b) = α * bitsAt α n b := by
  have h : ((2 * b : Nat) : F) = 0 := (CharP.cast_eq_zero_iff F 2 _).2 (dvd_mul_right 2 b)
  rw [bitsAt, h, zero_add, Nat.mul_div_cancel_left b two_pos]

theorem bitsAt_mod (n b : Nat) : bitsAt α n (b % 2 ^ n) = bitsAt α n b := by
  induction n generalizing b with
  | zero => rfl
  | succ n ih =>
    rw [bitsAt, bitsAt, natCast_mod_two_pow_succ, pow_succ', Nat.mod_mul_right_div_self, ih]

omit [CharP F 2] in
theorem bitsAt_succ_top (n b : Nat) : bitsAt α (n + 1) b = bitsAt α n b + α ^ n * (b / 2 ^ n : Nat) := by
  induction n generalizing b with
  | zero => simp [bitsAt]
  | succ n ih => rw [bitsAt, ih, bitsAt, Nat.div_div_eq_div_mul, ← pow_succ']; ring

theorem bitsAt_eq_sum (n b : Nat) : bitsAt α n b = ∑ i ∈ Finset.range n, α ^ i * (b / 2 ^ i % 2 : Nat) := by
  induction n with
  | zero => rfl
  | succ n ih => rw [bitsAt_succ_top, ih, Finset.sum_range_succ, natCast_mod_two]

theorem byteAt_eq_sum (b : Nat) : byteAt α b = ∑ i ∈ Finset.range 8, α ^ i * (b / 2 ^ i % 2 : Nat) := bitsAt_eq_sum α 8 b

theorem byteAt_xor (a b : Nat) : byteAt α (a ^^^ b) = byteAt α a + byteAt α b := bitsAt_xor α 8 a b

omit [CharP F 2] in
@[simp] theorem byteAt_zero : byteAt α 0 = 0 := by simp [byteAt, bitsAt]

omit [CharP F 2] in
@[simp] theorem byteAt_one : byteAt α 1 = 1 := by simp [byteAt, bitsAt]

theorem byteAt_mod (b : Nat) : byteAt α (b % 256) = byteAt α b := bitsAt_mod α 8 b

end

theorem gfMulAlpha_lt : ∀ {x}, x < 256 → gfMulAlpha x < 256 := by decide +kernel

theorem gfMulAux_lt (n : Nat) {a : Nat} (b : Nat) (h : a < 256) : gfMulAux n a b < 256 := by
  induction n generalizing a b with
  | zero => exact Nat.zero_lt_succ 255
  | succ n ih =>
    refine Nat.xor_lt_two_pow (n := 8) ?_ (ih _ (gfMulAlpha_lt h))
    split
    · exact h
    · decide

theorem gfMul_lt (a b : Nat) : gfMul a b < 256 := gfMulAux_lt 8 _ (Nat.mod_lt a (by decide))

theorem gfDiv_lt (a b : Nat) : gfDiv a b < 256 := by
  rw [gfDiv]
  split
  · decide
  · exact gfMul_lt _ _

theorem gfPow_lt (n : Nat) : gfPow n < 256 := by
  induction n with
  | zero => decide
  | succ n ih => exact gfMulAlpha_lt ih

theorem gfLogAux_gfPow {p : Nat} (hp : ∀ k < p, gfPow k ≠ gfPow p) (n i : Nat) (hi : i ≤ p) (hn : p < i + n) :
    gfLogAux (gfPow p) n i (gfPow i) = p := by
  induction n generalizing i with
  | zero => omega
  | succ n ih =>
    rw [gfLogAux]
    split
    case isTrue h => exact le_antisymm hi (Nat.le_of_not_lt fun hlt => hp i hlt h)
    case isFalse h =>
      have hne : i ≠ p := fun hip => h (congrArg gfPow hip)
      exact ih (i + 1) (by omega) (by omega)

section
variable {F : Type*} [Field F] [CharP F 2] {α : F} (hα : IsAlpha α)
include hα

/-- The field polynomial reduces α⁸. -/
theorem byteAt_gfMulAlpha {x : Nat} (h : x < 256) : byteAt α (gfMulAlpha x) = α * byteAt α x := by
  have hpoly : byteAt α 0x11D = α ^ 8 := by
    rw [show α ^ 8 = α ^ 4 + α ^ 3 + α ^ 2 + 1 from hα]
    norm_num [byteAt_eq_sum, Finset.sum_range_succ]
    ring
  have hdouble : byteAt α (2 * x) = α * bitsAt α 7 x := bitsAt_two_mul α 7 x
  have htop : byteAt α x = bitsAt α 7 x + α ^ 7 * (x / 2 ^ 7 : Nat) := bitsAt_succ_top α 7 x
  rw [gfMulAlpha, htop]
  split
  case isTrue hx =>
    have hbit : x / 2 ^ 7 = 1 := by omega
    rw [byteAt_xor, hdouble, hpoly, hbit, Nat.cast_one]
    ring
  case isFalse hx =>
    have hbit : x / 2 ^ 7 = 0 := by omega
    rw [hdouble, hbit, Nat.cast_zero, mul_zero, add_zero]

theorem byteAt_gfMulAux (n : Nat) {a : Nat} (b : Nat) (h : a < 256) :
    byteAt α (gfMulAux n a b) = byteAt α a * bitsAt α n b := by
  induction n generalizing a b with
  | zero => simp [gfMulAux, bitsAt]
  | succ n ih =>
    have hbit : byteAt α (if b % 2 = 1 then a else 0) = byteAt α a * b := by
      rw [← natCast_mod_two]
      rcases Nat.mod_two_eq_zero_or_one b with hb | hb <;> simp [hb]
    rw [gfMulAux, byteAt_xor, hbit, ih _ (gfMulAlpha_lt h), byteAt_gfMulAlpha hα h, bitsAt]
    ring

/-- `gfMul` multiplies in the field. -/
theorem byteAt_gfMul (a b : Nat) : byteAt α (gfMul a b) = byteAt α a * byteAt α b := by
  rw [gfMul, byteAt_gfMulAux hα 8 _ (Nat.mod_lt a (by decide)), byteAt_mod]
  exact congrArg _ (byteAt_mod α b)

theorem byteAt_gfPow (n : Nat) : byteAt α (gfPow n) = α ^ n := by
  induction n with
  | zero => simp [gfPow]
  | succ n ih => rw [gfPow, byteAt_gfMulAlpha hα (gfPow_lt n), ih, pow_succ']

omit [CharP F 2] in
theorem alpha_ne_zero : α ≠ 0 := by
  rintro rfl
  simp [IsAlpha] at hα

theorem alpha_pow_255 : α ^ 255 = 1 := by
  have h : gfPow 255 = 1 := by decide +kernel
  rw [← byteAt_gfPow hα, h, byteAt_one]

/-- A power that differs from 1 by a power is not 1. -/
theorem alpha_pow_ne_one {n m : Nat} (h : gfPow n = 1 ^^^ gfPow m) : α ^ n ≠ 1 := by
  rw [← byteAt_gfPow hα, h, byteAt_xor, byteAt_one, byteAt_gfPow hα, Ne, add_eq_left]
  exact pow_ne_zero m (alpha_ne_zero hα)

theorem isPrimitiveRoot_alpha : IsPrimitiveRoot α 255 := by
  refine IsPrimitiveRoot.iff_orderOf.2 <| orderOf_eq_of_pow_and_pow_div_prime (by decide) (alpha_pow_255 hα) fun p hp hdvd => ?_
  have hfactors : p = 3 ∨ p = 5 ∨ p = 17 := by
    have hprod : p ∣ 3 * 5 * 17 := hdvd
    rwa [hp.dvd_mul, hp.dvd_mul, Nat.prime_dvd_prime_iff_eq hp (by norm_num), Nat.prime_dvd_prime_iff_eq hp (by norm_num),
      Nat.prime_dvd_prime_iff_eq hp (by norm_num), or_assoc] at hprod
  obtain rfl | rfl | rfl := hfactors
  · exact alpha_pow_ne_one hα (n := 85) (m := 170) (by decide +kernel)
  · exact alpha_pow_ne_one hα (n := 51) (m := 238) (by decide +kernel)
  · exact alpha_pow_ne_one hα (n := 15) (m := 33) (by decide +kernel)

theorem alpha_pow_inj {p q : Nat} (hp : p < 255) (hq : q < 255) : α ^ p = α ^ q ↔ p = q :=
  ⟨(isPrimitiveRoot_alpha hα).pow_inj hp hq, congrArg _⟩

theorem gfPow_inj {p q : Nat} (hp : p < 255) (hq : q < 255) : gfPow p = gfPow q ↔ p = q := by
  refine ⟨fun h => ?_, congrArg _⟩
  rw [← alpha_pow_inj hα hp hq, ← byteAt_gfPow hα, h, byteAt_gfPow hα]

theorem gfPow_ne_zero (n : Nat) : gfPow n ≠ 0 := by
  intro h
  have hpow := byteAt_gfPow hα n
  rw [h, byteAt_zero] at hpow
  exact pow_ne_zero n (alpha_ne_zero hα) hpow.symm

/-- Every byte but 0 is a power of α: there are 255 of each. -/
theorem exists_gfPow_eq {a : Nat} (h : a < 256) (h0 : a ≠ 0) : ∃ p < 255, gfPow p = a := by
  have hmaps : Set.MapsTo gfPow (Finset.range 255) (Finset.Ico 1 256) := fun n _ =>
    Finset.mem_coe.2 (Finset.mem_Ico.2 ⟨Nat.pos_of_ne_zero (gfPow_ne_zero hα n), gfPow_lt n⟩)
  have hinj : Set.InjOn gfPow (Finset.range 255) := fun p hp q hq =>
    (gfPow_inj hα (Finset.mem_range.1 hp) (Finset.mem_range.1 hq)).1
  obtain ⟨p, hp, rfl⟩ := Finset.surjOn_of_injOn_of_card_le gfPow hmaps hinj (by simp)
    (Finset.mem_coe.2 (Finset.mem_Ico.2 ⟨Nat.pos_of_ne_zero h0, h⟩))
  exact ⟨p, Finset.mem_range.1 hp, rfl⟩

theorem gfLog_gfPow {p : Nat} (hp : p < 255) : gfLog (gfPow p) = p :=
  gfLogAux_gfPow (fun k hk => mt (gfPow_inj hα (hk.trans hp) hp).1 hk.ne) 255 0 (Nat.zero_le p) (by omega)

theorem byteAt_gfAlpha (n : Nat) : byteAt α (gfAlpha n) = α ^ n := by
  rw [gfAlpha, byteAt_gfPow hα, ← pow_eq_pow_mod n (alpha_pow_255 hα)]

theorem byteAt_ne_zero {a : Nat} (h : a < 256) (h0 : a ≠ 0) : byteAt α a ≠ 0 := by
  obtain ⟨p, -, rfl⟩ := exists_gfPow_eq hα h h0
  exact byteAt_gfPow hα p ▸ pow_ne_zero p (alpha_ne_zero hα)

theorem byteAt_eq_zero {a : Nat} (h : a < 256) : byteAt α a = 0 ↔ a = 0 :=
  ⟨fun ha => by_contra fun h0 => byteAt_ne_zero hα h h0 ha, fun ha => by rw [ha, byteAt_zero]⟩

theorem byteAt_inj {a b : Nat} (ha : a < 256) (hb : b < 256) : byteAt α a = byteAt α b ↔ a = b := by
  rw [← Nat.xor_eq_zero_iff, ← byteAt_eq_zero hα (Nat.xor_lt_two_pow (n := 8) ha hb), byteAt_xor, CharTwo.add_eq_zero]

theorem gfMul_eq_gfMul (a b c d : Nat) :
    gfMul a b = gfMul c d ↔ byteAt α a * byteAt α b = byteAt α c * byteAt α d := by
  rw [← byteAt_inj hα (gfMul_lt a b) (gfMul_lt c d), byteAt_gfMul hα, byteAt_gfMul hα]

theorem byteAt_gfInv {b : Nat} (hb : b < 256) (h0 : b ≠ 0) : byteAt α (gfInv b) = (byteAt α b)⁻¹ := by
  obtain ⟨p, hp, rfl⟩ := exists_gfPow_eq hα hb h0
  rw [gfInv, gfLog_gfPow hα hp, byteAt_gfAlpha hα, byteAt_gfPow hα]
  refine eq_inv_of_mul_eq_one_left ?_
  rw [← pow_add, Nat.sub_add_cancel (by omega), alpha_pow_255 hα]

theorem byteAt_gfDiv (a : Nat) {b : Nat} (hb : b < 256) (h0 : b ≠ 0) :
    byteAt α (gfDiv a b) = byteAt α a / byteAt α b := by
  rw [gfDiv]
  split
  case isTrue ha => rw [ha, byteAt_zero, zero_div]
  case isFalse => rw [byteAt_gfMul hα, byteAt_gfInv hα hb h0, div_eq_mul_inv]

end

/-! ## Words of symbols (R200) -/

theorem length_rsPoison (data : List Nat) : (rsPoison data).length = 4 := by
  rw [rsPoison, List.length_zipWith, poisonMask, length_rsCheck, length_rsCheck, min_self]

section
variable {F : Type*} [Field F]

/-- A word of symbols as a polynomial in `x`, the first symbol the coefficient of the highest power. -/
def wordAt (α x : F) : List Nat → F
  | [] => 0
  | c :: l => byteAt α c * x ^ l.length + wordAt α x l

variable (α x : F)

theorem wordAt_append (u v : List Nat) : wordAt α x (u ++ v) = wordAt α x u * x ^ v.length + wordAt α x v := by
  induction u with
  | nil => simp [wordAt]
  | cons c u ih => rw [List.cons_append, wordAt, wordAt, ih, List.length_append, pow_add]; ring

theorem wordAt_replicate_zero (n : Nat) : wordAt α x (List.replicate n 0) = 0 := by
  induction n with
  | zero => rfl
  | succ n ih => rw [List.replicate_succ, wordAt, ih, byteAt_zero, zero_mul, zero_add]

variable [CharP F 2]

theorem wordAt_zipWith_xor (u v : List Nat) (h : u.length = v.length) :
    wordAt α x (List.zipWith (· ^^^ ·) u v) = wordAt α x u + wordAt α x v := by
  induction u generalizing v with
  | nil => obtain rfl := List.length_eq_zero_iff.1 h.symm; simp [wordAt]
  | cons a u ih =>
    match v with
    | b :: v =>
      have hlen : u.length = v.length := Nat.succ_inj.1 h
      rw [List.zipWith_cons_cons, wordAt, wordAt, wordAt, ih v hlen, byteAt_xor, List.length_zipWith, hlen, min_self]
      ring

/-- An error `e` at symbol `i` of a word adds `e` times the power of `x` of that symbol. -/
theorem wordAt_set_xor (l : List Nat) (i e : Nat) (h : i < l.length) :
    wordAt α x (l.set i (l.getD i 0 ^^^ e)) = wordAt α x l + byteAt α e * x ^ (l.length - 1 - i) := by
  induction l generalizing i with
  | nil => exact absurd h (Nat.not_lt_zero i)
  | cons c l ih =>
    cases i with
    | zero =>
      rw [List.set_cons_zero, List.getD_cons_zero, wordAt, wordAt, byteAt_xor, List.length_cons, Nat.sub_zero, Nat.add_sub_cancel]
      ring
    | succ i =>
      have hi : i < l.length := Nat.lt_of_succ_lt_succ h
      rw [List.set_cons_succ, List.getD_cons_succ, wordAt, wordAt, ih i hi, List.length_set, List.length_cons,
        show l.length + 1 - 1 - (i + 1) = l.length - 1 - i by omega]
      ring

/-! ## The check symbols and the syndromes (R200, R201) -/

/-- `x` is a root of the generator polynomial. -/
def GeneratorRoot : Prop :=
  x ^ 4 = byteAt α 0x0F * x ^ 3 + byteAt α 0x36 * x ^ 2 + byteAt α 0x78 * x + byteAt α 0x40

/-- The symbols of a remainder, the coefficient of x³ first. -/
def remSymbols (r : Nat × Nat × Nat × Nat) : List Nat := [r.1, r.2.1, r.2.2.1, r.2.2.2]

variable {α x} (hα : IsAlpha α)
include hα

/-- At a root of the generator the division leaves the value as it is. -/
theorem wordAt_foldl_rsStep (hx : GeneratorRoot α x) (data : List Nat) (r : Nat × Nat × Nat × Nat) :
    wordAt α x (remSymbols (data.foldl rsStep r)) =
      wordAt α x (remSymbols r) * x ^ data.length + wordAt α x data * x ^ 4 := by
  induction data generalizing r with
  | nil => simp [wordAt]
  | cons d data ih =>
    obtain ⟨a, b, c, e⟩ := r
    have hstep : wordAt α x (remSymbols (rsStep (a, b, c, e) d)) =
        wordAt α x (remSymbols (a, b, c, e)) * x + byteAt α d * x ^ 4 := by
      simp only [remSymbols, rsStep, wordAt, byteAt_xor, byteAt_gfMul hα, List.length_cons, List.length_nil]
      unfold GeneratorRoot at hx
      linear_combination (- byteAt α a - byteAt α d) * hx
    rw [List.foldl_cons, ih, hstep, List.length_cons, wordAt, pow_succ']
    ring

omit hα in
/-- The first four powers of α are the roots of the generator polynomial. -/
theorem generatorRoot_alpha_pow {j : Nat} (hj : j < 4) : GeneratorRoot α (α ^ j) := by
  have h0F : byteAt α 0x0F = 1 + α + α ^ 2 + α ^ 3 := by norm_num [byteAt_eq_sum, Finset.sum_range_succ]
  have h36 : byteAt α 0x36 = α + α ^ 2 + α ^ 4 + α ^ 5 := by norm_num [byteAt_eq_sum, Finset.sum_range_succ]
  have h78 : byteAt α 0x78 = α ^ 3 + α ^ 4 + α ^ 5 + α ^ 6 := by norm_num [byteAt_eq_sum, Finset.sum_range_succ]
  have h40 : byteAt α 0x40 = α ^ 6 := by norm_num [byteAt_eq_sum, Finset.sum_range_succ]
  have hprod : (α ^ j - 1) * (α ^ j - α) * (α ^ j - α ^ 2) * (α ^ j - α ^ 3) = 0 := by interval_cases j <;> simp
  have h2 : (2 : F) = 0 := CharTwo.two_eq_zero
  rw [GeneratorRoot, h0F, h36, h78, h40]
  linear_combination hprod - ((α + α ^ 2 + α ^ 3 + α ^ 4 + α ^ 5) * (α ^ j) ^ 2 + α ^ 6) * h2

theorem wordAt_rsCheck (data : List Nat) {j : Nat} (hj : j < 4) :
    wordAt α (α ^ j) (rsCheck data) = wordAt α (α ^ j) data * (α ^ j) ^ 4 := by
  have hzero : wordAt α (α ^ j) (remSymbols (0, 0, 0, 0)) = 0 := wordAt_replicate_zero α _ 4
  have h := wordAt_foldl_rsStep hα (generatorRoot_alpha_pow hj) data (0, 0, 0, 0)
  rwa [hzero, zero_mul, zero_add] at h

/-- The polynomial of a line with its check symbols is a multiple of the generator. -/
theorem wordAt_line (data : List Nat) {j : Nat} (hj : j < 4) : wordAt α (α ^ j) (data ++ rsCheck data) = 0 := by
  rw [wordAt_append, wordAt_rsCheck hα data hj, length_rsCheck, CharTwo.add_self_eq_zero]

theorem wordAt_poisonMask {j : Nat} (hj : j < 4) : wordAt α (α ^ j) poisonMask = (α ^ j) ^ 254 := by
  rw [poisonMask, wordAt_rsCheck hα _ hj, wordAt, wordAt_replicate_zero, List.length_replicate, byteAt_one, one_mul,
    add_zero, ← pow_add]

theorem wordAt_poisoned (data : List Nat) {j : Nat} (hj : j < 4) :
    wordAt α (α ^ j) (data ++ rsPoison data) = (α ^ j) ^ 254 := by
  have hlen : (rsCheck data).length = poisonMask.length := by rw [poisonMask, length_rsCheck, length_rsCheck]
  rw [wordAt_append, length_rsPoison, rsPoison, wordAt_zipWith_xor _ _ _ _ hlen, wordAt_rsCheck hα data hj,
    wordAt_poisonMask hα hj, ← add_assoc, CharTwo.add_self_eq_zero, zero_add]

/-- A syndrome is the value of the word at its power of α, by Horner's rule. -/
theorem byteAt_syndrome (w : List Nat) (j : Nat) : byteAt α (syndrome w j) = wordAt α (α ^ j) w := by
  have horner (a : Nat) : byteAt α (w.foldl (fun a c => gfMul a (gfAlpha j) ^^^ c) a) =
      byteAt α a * (α ^ j) ^ w.length + wordAt α (α ^ j) w := by
    induction w generalizing a with
    | nil => simp [wordAt]
    | cons c w ih =>
      rw [List.foldl_cons, ih, byteAt_xor, byteAt_gfMul hα, byteAt_gfAlpha hα, List.length_cons, wordAt]
      ring
  rw [syndrome, horner, byteAt_zero, zero_mul, zero_add]

end

/-! ## Symbols are bytes -/

theorem syndrome_lt {w : List Nat} (hw : ∀ c ∈ w, c < 256) (j : Nat) : syndrome w j < 256 := by
  have hfold (a : Nat) (ha : a < 256) : w.foldl (fun a c => gfMul a (gfAlpha j) ^^^ c) a < 256 := by
    induction w generalizing a with
    | nil => exact ha
    | cons c w ih =>
      rw [List.forall_mem_cons] at hw
      exact ih hw.2 _ (Nat.xor_lt_two_pow (n := 8) (gfMul_lt _ _) hw.1)
  exact hfold 0 (by decide)

theorem rsStep_lt {r : Nat × Nat × Nat × Nat} (hr : ∀ c ∈ remSymbols r, c < 256) (d : Nat) :
    ∀ c ∈ remSymbols (rsStep r d), c < 256 := by
  obtain ⟨a, b, c, e⟩ := r
  have hxor {u : Nat} (hu : u < 256) (f k : Nat) : u ^^^ gfMul f k < 256 := Nat.xor_lt_two_pow (n := 8) hu (gfMul_lt f k)
  simp only [remSymbols, List.forall_mem_cons] at hr
  obtain ⟨-, hb, hc, he, -⟩ := hr
  simp only [remSymbols, rsStep, List.forall_mem_cons]
  exact ⟨hxor hb _ _, hxor hc _ _, hxor he _ _, gfMul_lt _ _, List.forall_mem_nil _⟩

theorem rsCheck_lt (data : List Nat) : ∀ c ∈ rsCheck data, c < 256 := by
  have hfold (r : Nat × Nat × Nat × Nat) (hr : ∀ c ∈ remSymbols r, c < 256) :
      ∀ c ∈ remSymbols (data.foldl rsStep r), c < 256 := by
    induction data generalizing r with
    | nil => exact hr
    | cons d data ih => exact ih _ (rsStep_lt hr d)
  exact hfold (0, 0, 0, 0) (by decide)

theorem rsPoison_lt (data : List Nat) : ∀ c ∈ rsPoison data, c < 256 := by
  intro c hc
  rw [rsPoison, ← List.map_uncurry_zip_eq_zipWith, List.mem_map] at hc
  obtain ⟨⟨a, b⟩, hab, rfl⟩ := hc
  obtain ⟨ha, hb⟩ := List.of_mem_zip hab
  exact Nat.xor_lt_two_pow (n := 8) (rsCheck_lt data a ha) (rsCheck_lt _ b hb)

/-- The decoder by the four syndromes. -/
theorem rsDecode_eq (w : List Nat) : rsDecode w =
    if syndrome w 0 = 0 ∧ syndrome w 1 = 0 ∧ syndrome w 2 = 0 ∧ syndrome w 3 = 0 then .ok
    else if syndrome w 0 = 0x01 ∧ syndrome w 1 = 0x8E ∧ syndrome w 2 = 0x47 ∧ syndrome w 3 = 0xAD then .poisoned
    else if syndrome w 0 ≠ 0 ∧ syndrome w 1 ≠ 0 ∧ gfMul (syndrome w 1) (syndrome w 1) = gfMul (syndrome w 0) (syndrome w 2) ∧
        gfMul (syndrome w 2) (syndrome w 2) = gfMul (syndrome w 1) (syndrome w 3) then
      if gfLog (gfDiv (syndrome w 1) (syndrome w 0)) ≤ 35 then
        .corrected (35 - gfLog (gfDiv (syndrome w 1) (syndrome w 0))) (syndrome w 0)
      else .uncorrectable
    else .uncorrectable := rfl

/-- The syndromes of poison are the powers of α²⁵⁴. -/
theorem gfAlpha_254_mul :
    gfAlpha (254 * 0) = 0x01 ∧ gfAlpha (254 * 1) = 0x8E ∧ gfAlpha (254 * 2) = 0x47 ∧ gfAlpha (254 * 3) = 0xAD := by
  decide +kernel

theorem forall_lt_four (P : Nat → Prop) : (∀ j < 4, P j) ↔ P 0 ∧ P 1 ∧ P 2 ∧ P 3 := by
  simp only [Nat.forall_lt_succ_right, Nat.not_lt_zero, false_imp_iff, implies_true, true_and, and_assoc]

/-! ## Words with errors -/

/-- A word with symbol `p.1` in error by `p.2`. -/
def withErr (w : List Nat) (p : Nat × Nat) : List Nat := w.set p.1 (w.getD p.1 0 ^^^ p.2)

theorem getD_lt {w : List Nat} (hw : ∀ c ∈ w, c < 256) (i : Nat) : w.getD i 0 < 256 := by
  by_cases hi : i < w.length
  · exact List.getD_eq_getElem w 0 hi ▸ hw _ (List.getElem_mem hi)
  · rw [List.getD_eq_default w 0 (Nat.le_of_not_lt hi)]
    decide

theorem withErr_lt {w : List Nat} (hw : ∀ c ∈ w, c < 256) {p : Nat × Nat} (hp : p.2 < 256) :
    ∀ c ∈ withErr w p, c < 256 := by
  intro c hc
  obtain hc | rfl := List.mem_or_eq_of_mem_set hc
  · exact hw c hc
  · exact Nat.xor_lt_two_pow (n := 8) (getD_lt hw _) hp

/-- Putting the same error on a symbol again gives the word back. -/
theorem withErr_withErr {w : List Nat} {p : Nat × Nat} (h : p.1 < w.length) : withErr (withErr w p) p = w := by
  simp [withErr, h]

section
variable {F : Type*} [Field F]

/-- Syndrome `j` of errors, each given by the power of x it stands at and its value. -/
def errorSyndrome (α : F) (es : List (Nat × Nat)) (j : Nat) : F := (es.map fun p => byteAt α p.2 * (α ^ p.1) ^ j).sum

/-- A word of 36 symbols with the syndromes of these errors, each of a byte other than 0 at a power below 255. -/
structure HasErrors (α : F) (w : List Nat) (es : List (Nat × Nat)) : Prop where
  length_eq : w.length = 36
  symbols_lt : ∀ c ∈ w, c < 256
  errors_lt : ∀ p ∈ es, p.1 < 255 ∧ 0 < p.2 ∧ p.2 < 256
  syndrome_at : ∀ j < 4, wordAt α (α ^ j) w = errorSyndrome α es j

/-- Two or more errors at distinct places never have the syndromes of one: taking `Y` times each syndrome from the next
leaves a Vandermonde system, whose only solution has every error at `Y`. -/
theorem errors_not_single {n : Nat} (hn : 2 ≤ n) {X e : Fin n → F} (hX : X.Injective) (he : ∀ i, e i ≠ 0) (E Y : F) :
    ¬ ∀ j ≤ n, ∑ i, e i * X i ^ j = E * Y ^ j := by
  intro h
  have hsolve : (fun i => e i * (X i - Y)) = 0 := by
    refine Matrix.eq_zero_of_forall_pow_sum_mul_pow_eq_zero hX fun j => ?_
    calc ∑ i, e i * (X i - Y) * X i ^ (j : Nat)
        = ∑ i, e i * X i ^ (j + 1 : Nat) - Y * ∑ i, e i * X i ^ (j : Nat) := by
          rw [Finset.mul_sum, ← Finset.sum_sub_distrib]
          exact Finset.sum_congr rfl fun i _ => by ring
      _ = 0 := by rw [h (j + 1) j.isLt, h j j.isLt.le]; ring
  have hplace (i : Fin n) : X i = Y := sub_eq_zero.1 ((mul_eq_zero.1 (congrFun hsolve i)).resolve_left (he i))
  have h01 : (⟨0, by omega⟩ : Fin n) = ⟨1, hn⟩ := hX ((hplace _).trans (hplace _).symm)
  simp at h01

/-- The decoder's two tests of squares hold of the syndromes of one error alone. -/
theorem geometric_of_mul_self_eq {s0 s1 s2 s3 : F} (h0 : s0 ≠ 0) (h1 : s1 ≠ 0) (h02 : s1 * s1 = s0 * s2)
    (h13 : s2 * s2 = s1 * s3) : s1 = s0 * (s1 / s0) ∧ s2 = s0 * (s1 / s0) ^ 2 ∧ s3 = s0 * (s1 / s0) ^ 3 := by
  have h2 : s2 = s0 * (s1 / s0) ^ 2 := by
    field_simp
    linear_combination -h02
  refine ⟨(mul_div_cancel₀ s1 h0).symm, h2, mul_left_cancel₀ h1 ?_⟩
  rw [← h13, h2]
  field_simp

theorem errorSyndrome_singleton (α : F) (p e j : Nat) : errorSyndrome α [(p, e)] j = byteAt α e * (α ^ p) ^ j := by
  simp [errorSyndrome]

variable [CharP F 2] {α : F} (hα : IsAlpha α) {w : List Nat} {es : List (Nat × Nat)}
include hα

theorem hasErrors_line {data : List Nat} (hlen : data.length = 32) (hdata : ∀ c ∈ data, c < 256) :
    HasErrors α (data ++ rsCheck data) [] where
  length_eq := by rw [List.length_append, hlen, length_rsCheck]
  symbols_lt := List.forall_mem_append.2 ⟨hdata, rsCheck_lt data⟩
  errors_lt := List.forall_mem_nil _
  syndrome_at _ hj := wordAt_line hα data hj

/-- A poisoned line has an error at x²⁵⁴, which is no place of a line. -/
theorem hasErrors_poisoned {data : List Nat} (hlen : data.length = 32) (hdata : ∀ c ∈ data, c < 256) :
    HasErrors α (data ++ rsPoison data) [(254, 1)] where
  length_eq := by rw [List.length_append, hlen, length_rsPoison]
  symbols_lt := List.forall_mem_append.2 ⟨hdata, rsPoison_lt data⟩
  errors_lt := by simp
  syndrome_at j hj := by simp [wordAt_poisoned hα data hj, errorSyndrome, pow_right_comm]

omit hα in
theorem HasErrors.withErr (h : HasErrors α w es) {p : Nat × Nat} (hi : p.1 < 36) (he0 : 0 < p.2) (he : p.2 < 256) :
    HasErrors α (withErr w p) ((35 - p.1, p.2) :: es) where
  length_eq := by rw [Machine.withErr, List.length_set, h.length_eq]
  symbols_lt := withErr_lt h.symbols_lt he
  errors_lt := List.forall_mem_cons.2 ⟨⟨by omega, he0, he⟩, h.errors_lt⟩
  syndrome_at j hj := by
    rw [Machine.withErr, wordAt_set_xor _ _ _ _ _ (h.length_eq ▸ hi), h.syndrome_at j hj, h.length_eq, errorSyndrome,
      errorSyndrome, List.map_cons, List.sum_cons, pow_right_comm, add_comm]

theorem HasErrors.byteAt_syndrome (h : HasErrors α w es) {j : Nat} (hj : j < 4) :
    byteAt α (syndrome w j) = errorSyndrome α es j := by
  rw [Machine.byteAt_syndrome hα, h.syndrome_at j hj]

theorem HasErrors.syndrome_eq (h : HasErrors α w es) {j v : Nat} (hj : j < 4) (hv : v < 256)
    (hs : errorSyndrome α es j = byteAt α v) : syndrome w j = v := by
  rw [← byteAt_inj hα (syndrome_lt h.symbols_lt j) hv, h.byteAt_syndrome hα hj, hs]

/-! ## The decoder (R201) -/

theorem HasErrors.decode_ok (h : HasErrors α w []) : rsDecode w = .ok := by
  have hs (j : Nat) (hj : j < 4) : syndrome w j = 0 := h.syndrome_eq hα hj (by decide) (byteAt_zero α).symm
  rw [rsDecode_eq, if_pos ⟨hs 0 (by decide), hs 1 (by decide), hs 2 (by decide), hs 3 (by decide)⟩]

theorem HasErrors.decode_poisoned (h : HasErrors α w [(254, 1)]) : rsDecode w = .poisoned := by
  have hs (j : Nat) (hj : j < 4) : syndrome w j = gfAlpha (254 * j) :=
    h.syndrome_eq hα hj (gfPow_lt _) (by rw [errorSyndrome_singleton, byteAt_gfAlpha hα, byteAt_one, one_mul, pow_mul])
  obtain ⟨v0, v1, v2, v3⟩ := gfAlpha_254_mul
  rw [rsDecode_eq, hs 0 (by decide), hs 1 (by decide), hs 2 (by decide), hs 3 (by decide), v0, v1, v2, v3]
  rfl

theorem HasErrors.decode_corrected {p e : Nat} (h : HasErrors α w [(p, e)]) (hp : p ≤ 35) :
    rsDecode w = .corrected (35 - p) e := by
  obtain ⟨-, he0, he⟩ := h.errors_lt (p, e) (List.mem_singleton.2 rfl)
  have hs {j : Nat} (hj : j < 4) : byteAt α (syndrome w j) = byteAt α e * (α ^ p) ^ j := by
    rw [h.byteAt_syndrome hα hj, errorSyndrome_singleton]
  have hlt := syndrome_lt h.symbols_lt
  have he' : byteAt α e ≠ 0 := byteAt_ne_zero hα he he0.ne'
  have hs0 : syndrome w 0 = e := by rw [← byteAt_inj hα (hlt 0) he, hs (by decide), pow_zero, mul_one]
  have hs1 : byteAt α (syndrome w 1) = byteAt α e * α ^ p := by rw [hs (by decide), pow_one]
  have hs1' : syndrome w 1 ≠ 0 := by
    rw [Ne, ← byteAt_eq_zero hα (hlt 1), hs1]
    exact mul_ne_zero he' (pow_ne_zero p (alpha_ne_zero hα))
  have hpoison : ¬ (e = 0x01 ∧ syndrome w 1 = gfAlpha (254 * 1)) := by
    rintro ⟨rfl, h1⟩
    rw [h1, byteAt_gfAlpha hα, byteAt_one, one_mul, alpha_pow_inj hα (by decide) (by omega)] at hs1
    omega
  have hsq1 : gfMul (syndrome w 1) (syndrome w 1) = gfMul e (syndrome w 2) := by
    rw [gfMul_eq_gfMul hα, hs1, hs (by decide)]
    ring
  have hsq2 : gfMul (syndrome w 2) (syndrome w 2) = gfMul (syndrome w 1) (syndrome w 3) := by
    rw [gfMul_eq_gfMul hα, hs1, hs (by decide), hs (by decide)]
    ring
  have hdiv : gfDiv (syndrome w 1) e = gfPow p := by
    rw [← byteAt_inj hα (gfDiv_lt _ _) (gfPow_lt p), byteAt_gfDiv hα _ he (by omega), hs1, byteAt_gfPow hα,
      mul_div_cancel_left₀ _ he']
  rw [gfAlpha_254_mul.2.1] at hpoison
  rw [rsDecode_eq, hs0, if_neg (by omega), if_neg (by tauto), if_pos ⟨by omega, hs1', hsq1, hsq2⟩, hdiv,
    gfLog_gfPow hα (by omega), if_pos hp]

/-- A word that is not uncorrectable has the syndromes of at most one error. -/
theorem rsDecode_uncorrectable_or_single (hw : ∀ c ∈ w, c < 256) :
    rsDecode w = .uncorrectable ∨ ∃ E Y : F, ∀ j < 4, wordAt α (α ^ j) w = E * Y ^ j := by
  simp only [← byteAt_syndrome hα, forall_lt_four]
  rw [rsDecode_eq]
  split
  case isTrue hok =>
    obtain ⟨h0, h1, h2, h3⟩ := hok
    exact .inr ⟨0, 0, by simp [h0, h1, h2, h3]⟩
  case isFalse =>
  split
  case isTrue hpoisoned =>
    have hvalue (j : Nat) : byteAt α (gfAlpha (254 * j)) = 1 * (α ^ 254) ^ j := by rw [byteAt_gfAlpha hα, pow_mul, one_mul]
    obtain ⟨h0, h1, h2, h3⟩ := hpoisoned
    obtain ⟨v0, v1, v2, v3⟩ := gfAlpha_254_mul
    refine .inr ⟨1, α ^ 254, ?_⟩
    rw [h0, h1, h2, h3, ← v0, ← v1, ← v2, ← v3]
    exact ⟨hvalue 0, hvalue 1, hvalue 2, hvalue 3⟩
  case isFalse =>
  split
  case isTrue hsingle =>
    obtain ⟨h0, h1, h02, h13⟩ := hsingle
    obtain ⟨g1, g2, g3⟩ := geometric_of_mul_self_eq (byteAt_ne_zero hα (syndrome_lt hw 0) h0)
      (byteAt_ne_zero hα (syndrome_lt hw 1) h1) ((gfMul_eq_gfMul hα ..).1 h02) ((gfMul_eq_gfMul hα ..).1 h13)
    exact .inr ⟨_, _, by rw [pow_zero, mul_one], by rwa [pow_one], g2, g3⟩
  case isFalse => exact .inl rfl

theorem HasErrors.decode_uncorrectable (h : HasErrors α w es) (hplaces : (es.map (·.1)).Nodup) (htwo : 2 ≤ es.length)
    (hthree : es.length ≤ 3) : rsDecode w = .uncorrectable := by
  refine (rsDecode_uncorrectable_or_single hα h.symbols_lt).resolve_right fun ⟨E, Y, hsingle⟩ => ?_
  have hplace : (fun i : Fin es.length => α ^ es[i].1).Injective := fun i k hik => by
    have hi := List.getElem_mem i.isLt
    have hk := List.getElem_mem k.isLt
    have hpower := (alpha_pow_inj hα (h.errors_lt _ hi).1 (h.errors_lt _ hk).1).1 hik
    exact List.nodup_iff_injective_getElem.1 (.of_map _ hplaces) (List.inj_on_of_nodup_map hplaces hi hk hpower)
  have hvalue (i : Fin es.length) : byteAt α es[i].2 ≠ 0 := by
    obtain ⟨-, hpos, hlt⟩ := h.errors_lt es[i] (List.getElem_mem _)
    exact byteAt_ne_zero hα hlt hpos.ne'
  refine errors_not_single htwo hplace hvalue E Y fun j hj => ?_
  have hj4 : j < 4 := by omega
  rw [← hsingle j hj4, h.syndrome_at j hj4, errorSyndrome]
  exact Fin.sum_univ_fun_getElem es fun p => byteAt α p.2 * (α ^ p.1) ^ j

end

/-! ## The statement -/

/-- Such a field exists: the field polynomial has a root in the algebraic closure of GF(2). -/
theorem exists_alpha : ∃ α : AlgebraicClosure (ZMod 2), IsAlpha α := by
  have hdeg : (.X ^ 8 - (.X ^ 4 + .X ^ 3 + .X ^ 2 + 1) : Polynomial (AlgebraicClosure (ZMod 2))).degree = 8 := by compute_degree!
  obtain ⟨α, h⟩ := IsAlgClosed.exists_root _ (hdeg.trans_ne (by decide))
  exact ⟨α, by simpa [IsAlpha, sub_eq_zero] using h⟩

/-- Settles O27: in a field with a root of the field polynomial, errors add their powers to the syndromes, and the decoder answers
by how many there are, poison being one error at x²⁵⁴. -/
theorem lineCodeCorrectsOneDetectsThree : Obligations.LineCodeCorrectsOneDetectsThree := by
  intro data hlen hdata err isErr cw poisoned
  obtain ⟨α, hα⟩ := exists_alpha
  have hline : HasErrors α cw [] := hasErrors_line hα hlen hdata
  have hpoisoned : HasErrors α poisoned [(254, 1)] := hasErrors_poisoned hα hlen hdata
  refine ⟨hline.decode_ok hα, hpoisoned.decode_poisoned hα, fun a ⟨ha, ha0, ha'⟩ => ?_⟩
  have hone : HasErrors α (err cw a) [(35 - a.1, a.2)] := hline.withErr ha ha0 ha'
  have hbad : HasErrors α (err poisoned a) [(35 - a.1, a.2), (254, 1)] := hpoisoned.withErr ha ha0 ha'
  have ha254 : 35 - a.1 ≠ 254 := by omega
  refine ⟨?_, withErr_withErr (hline.length_eq ▸ ha), hbad.decode_uncorrectable hα (by simpa using ha254) le_rfl
    (Nat.le_succ 2), fun b ⟨hb, hb0, hb'⟩ hab => ?_⟩
  · rw [hone.decode_corrected hα (Nat.sub_le 35 a.1), Nat.sub_sub_self (by omega)]
  have htwo := hone.withErr hb hb0 hb'
  have hba' : 35 - b.1 ≠ 35 - a.1 := by omega
  refine ⟨htwo.decode_uncorrectable hα (by simpa using hba') le_rfl (Nat.le_succ 2), fun c ⟨hc, hc0, hc'⟩ hac hbc => ?_⟩
  have hthree := htwo.withErr hc hc0 hc'
  have hca' : 35 - c.1 ≠ 35 - a.1 := by omega
  have hcb' : 35 - c.1 ≠ 35 - b.1 := by omega
  exact hthree.decode_uncorrectable hα (by simp [hba', hca', hcb']) (Nat.le_succ 2) le_rfl

end Sys2Proof.Machine

/-! # Collectives start, agree and end; group records and communication queues (R275, R281 to R283, R288 to R293, R296)

First what the sending of messages and the use of the stores leave as they were, each operation once; then the Relay engines as tables of
collectives; then the end of a collective; last each command. -/

namespace Sys2Proof.Machine

/-! ## What the sending of messages leaves as it was -/

/-- The registers of the update units and of the Relay engines. -/
def Reg.ofRelay (o : Nat) : Prop := (0x240000 ≤ o ∧ o < 0x250000) ∨ (0x260000 ≤ o ∧ o < 0x270000)

theorem Reg.not_ofRelay_of_below {o : Nat} (h : o < 0x240000) : ¬ Reg.ofRelay o := by
  unfold Reg.ofRelay
  omega

theorem Reg.not_ofRelay_of_above {o : Nat} (h : 0x270000 ≤ o) : ¬ Reg.ofRelay o := by
  unfold Reg.ofRelay
  omega

theorem Reg.not_ofRelay_ctxMisses : ¬ Reg.ofRelay Reg.trnCtxMisses := by
  unfold Reg.ofRelay Reg.trnCtxMisses
  omega

/-- Is it a control message of a collective? -/
def OutMsg.isControl (x : OutMsg) : Prop := ∃ e group seq, x.owner = .control e group seq

/-- The messages keep those that are control messages of a collective. -/
def KeepsControl (l l' : List OutMsg) : Prop := ∀ x ∈ l, x.isControl → x ∈ l'

theorem KeepsControl.refl (l : List OutMsg) : KeepsControl l l := fun _ h _ => h

/-- A property that no message sent undoes: none of its counters, outputs and packet numbers, and no change of a Rally that keeps
the control messages of collectives. -/
structure AboutSends (P : M → Prop) : Prop where
  setReg : ∀ {t o} v, ¬ Reg.ofRelay o → P t → P (t.setReg o v)
  out : ∀ {t} o, P t → P (M.out t o)
  ports : ∀ {t : M} l, P t → P { t with sec := { t.sec with ports := l } }
  clock : ∀ {t : M} n, P t → P { t with trn := { t.trn with clock := n } }
  rally : ∀ {t : M} n r, KeepsControl (t.rally n).msgs r.msgs → P t →
    P { t with trn := { t.trn with rallies := Tab.put Rally.init t.trn.rallies n r } }

theorem keeps_modify {P : M → Prop} {f : M → M} (hf : ∀ s, P s → P (f s)) : Keeps P (modify f : Act PUnit) := hf

theorem keeps_forA {α : Type} {P : M → Prop} {l : List α} {f : α → Act Unit} (hf : ∀ x, Keeps P (f x)) : Keeps P (forA l f) :=
  forA_keeps P l f fun x s => hf x s

theorem keeps_mapA {α β : Type} {P : M → Prop} {l : List α} {f : α → Act β} (hf : ∀ x, Keeps P (f x)) : Keeps P (mapA l f) :=
  mapA_keeps P l f fun x s => hf x s

namespace AboutSends

variable {P : M → Prop} (hP : AboutSends P)
include hP

theorem keeps_wr {o : Nat} (ho : ¬ Reg.ofRelay o) (v : Nat) : Keeps P (wr o v) := fun _ h => hP.setReg v ho h

theorem keeps_upd {o : Nat} (ho : ¬ Reg.ofRelay o) (f : Nat → Nat) : Keeps P (upd o f) := fun _ h => hP.setReg _ ho h

/-- The event counters lie above the registers of the Relay engines. -/
theorem countAt {t : M} {cnt ovf : Nat} (hc : 0x270000 ≤ cnt) (ho : 0x270000 ≤ ovf) (sel c code n : Nat) (h : P t) :
    P (Machine.countAt cnt sel ovf c code n t) := by
  have hcnt := fun v => hP.setReg v (Reg.not_ofRelay_of_above hc) h
  unfold Machine.countAt
  dsimp only
  split
  · generalize t.reg cnt + (if bit (t.reg sel) 30 then 1 else n) = v
    split
    · exact hcnt _
    · exact hP.setReg _ (Reg.not_ofRelay_of_above ho) (hcnt _)
  · exact h

theorem keeps_relayEvent (e code n : Nat) : Keeps P (relayEvent e code n) := fun s h => by
  rw [relayEvent, run_modify]
  refine List.foldlRecOn _ _ h fun t ht c _ => hP.countAt ?_ ?_ _ _ _ _ ht
  · simp only [Reg.cntR]; omega
  · simp only [Reg.cntROvf]; omega

theorem keeps_posCount (pos frm k code n who : Nat) : Keeps P (posCount pos frm k code n who) := fun s h => by
  rw [posCount, run_modify]
  split
  · exact h
  · refine List.foldlRecOn _ _ h fun t ht c _ => ?_
    split
    · exact ht
    · refine hP.countAt ?_ ?_ _ _ _ _ ht
      · simp only [Reg.posCnt]; omega
      · simp only [Reg.posCntOvf]; omega

theorem keeps_portCount (p code n : Nat) : Keeps P (portCount p code n) := keeps_getThen fun s t h => by
  rw [portEvent, run_modify]
  refine List.foldlRecOn _ _ h fun t ht c _ => ?_
  split
  · refine hP.countAt ?_ ?_ _ _ _ _ ht
    · simp only [Reg.cntE]; omega
    · simp only [Reg.cntEOvf]; omega
  · exact ht

theorem keeps_updRally {n : Nat} {f : Rally → Rally} (hf : ∀ r, KeepsControl r.msgs (f r).msgs) : Keeps P (updRally n f) :=
  fun t h => hP.rally n (f (t.rally n)) (hf _) h

/-- A change of a Rally that leaves its messages alone. -/
theorem keeps_updRally_same {n : Nat} {f : Rally → Rally} (hf : ∀ r, (f r).msgs = r.msgs) : Keeps P (updRally n f) :=
  hP.keeps_updRally fun r _ hx _ => by rwa [hf]

theorem keeps_emitFrame (p : Nat) (o : Output) : Keeps P (emitFrame p o) :=
  keeps_getThen fun _ => keeps_whenA (keeps_bind (fun _ h => hP.out o h) fun _ =>
    keeps_bind (keeps_whenA fun _ h => hP.ports _ h) fun _ => hP.keeps_portCount _ _ _)

theorem keeps_sendFrame (p dst psn : Nat) (ctrl : Bool) (packet : List Byte) : Keeps P (sendFrame p dst psn ctrl packet) :=
  keeps_getThen fun _ => keeps_whenA (keeps_bind (hP.keeps_emitFrame _ _) fun _ => keeps_whenA (hP.keeps_portCount _ _ _))

theorem keeps_sendControl (peer k typ flags b12 b16 : Nat) (payload : List Byte) (b8 : Nat) :
    Keeps P (sendControl peer k typ flags b12 b16 payload b8) := keeps_getThen fun s => by
  split
  · exact keeps_pure _
  · exact hP.keeps_sendFrame _ _ _ _ _

theorem keeps_sendOpen (peer : Nat) : Keeps P (sendOpen peer) := by
  refine keeps_getThen fun s => keeps_bind (hP.keeps_updRally_same fun _ => rfl) fun _ => ?_
  split
  · exact keeps_pure _
  · exact keeps_bind (hP.keeps_updRally_same fun _ => rfl) fun _ => hP.keeps_sendControl _ _ _ _ _ _ _ _

theorem keeps_startOpen (peer : Nat) : Keeps P (startOpen peer) :=
  keeps_bind (hP.keeps_updRally_same fun _ => rfl) fun _ => hP.keeps_sendOpen peer

theorem keeps_touchCtx (peer : Nat) : Keeps P (touchCtx peer) :=
  keeps_getThen fun _ => keeps_bind (fun _ h => hP.clock _ h) fun _ => hP.keeps_updRally_same fun _ => rfl

theorem keeps_needCtx (peer : Nat) : Keeps P (needCtx peer) :=
  have htouch := hP.keeps_touchCtx peer
  have hupd := fun (f : Rally → Rally) (hf : ∀ r, (f r).msgs = r.msgs) => hP.keeps_updRally_same (n := peer) hf
  keeps_getThen fun _ => keeps_ite (keeps_bind htouch fun _ => keeps_pure _)
    (keeps_ite (keeps_pure _)
      (keeps_ite (keeps_bind (hupd _ fun _ => rfl) fun _ => keeps_bind htouch fun _ => keeps_pure _)
        (keeps_ite (keeps_bind (hupd _ fun _ => rfl) fun _ =>
          keeps_bind (hP.keeps_upd Reg.not_ofRelay_ctxMisses _) fun _ => keeps_pure _) (keeps_pure _))))

/-- What follows the posting of a message: the Rally's context is fetched, and it opens. -/
theorem keeps_postMessage (peer : Nat) (x : OutMsg) : Keeps P (postMessage peer x) :=
  keeps_getThen fun _ => keeps_whenA (keeps_bind
    (hP.keeps_updRally fun _ _ hy _ => List.mem_append_left _ hy) fun _ =>
      keeps_whenA (keeps_bind (hP.keeps_needCtx peer) fun _ => keeps_getThen fun _ => keeps_whenA (hP.keeps_startOpen peer)))

theorem keeps_sendControlMsg (e : Nat) (c : Coll) (rank code index origin flags elems bytes aux : Nat) :
    Keeps P (sendControlMsg e c rank code index origin flags elems bytes aux) :=
  keeps_bind (hP.keeps_relayEvent _ _ _) fun _ => hP.keeps_postMessage _ _

theorem keeps_queueStatus (peer : Nat) (st : Nat × Nat × Nat × Nat) : Keeps P (queueStatus peer st) :=
  keeps_bind (hP.keeps_updRally_same fun _ => rfl) fun _ => keeps_getThen fun _ => keeps_whenA (hP.keeps_startOpen peer)

/-- An owner that is no collective's control stops its messages, and the control messages stay. -/
theorem keeps_stopMessages {p : Owner → Bool} (hp : ∀ e group seq, p (.control e group seq) = false) :
    Keeps P (stopMessages p) :=
  keeps_getThen fun _ => keeps_forA fun _ => hP.keeps_updRally fun r x hx ⟨e, group, seq, hc⟩ => by
    have hpx : p x.owner = false := hc ▸ hp e group seq
    exact List.mem_map.2 ⟨x, List.mem_filter.2 ⟨hx, by simp [hpx]⟩, by simp [hpx]⟩

theorem keeps_abortInbound (e group seq : Nat) : Keeps P (abortInbound e group seq) :=
  keeps_getThen fun _ => keeps_forA fun _ => keeps_whenA (keeps_bind (hP.keeps_updRally_same fun _ => rfl) fun _ =>
    keeps_forA fun _ => hP.keeps_queueStatus _ _)

end AboutSends

/-! ## What the use of the stores leaves as it was -/

theorem length_rsRepair (w : List Nat) (x : LineState) : (rsRepair w x).length = w.length := by
  cases x with
  | corrected i e => exact List.length_set
  | ok | poisoned | uncorrectable => rfl

theorem M.length_codeword (s : M) (l : Nat) : (s.codeword l).length = 36 := by
  simp [M.codeword, M.bytes, M.checks]

/-- A property that no message sent undoes, and no error logged either. -/
structure AboutLogs (P : M → Prop) : Prop extends AboutSends P where
  log : ∀ {t : M} l, P t → P { t with logBuf := l }
  cxl : ∀ {t : M} x, P t → P { t with cxl := x }

namespace AboutLogs

variable {P : M → Prop} (hP : AboutLogs P)
include hP

theorem keeps_sliceEvent (l code : Nat) : Keeps P (sliceEvent l code) :=
  keeps_getThen fun _ => keeps_ite (keeps_getThen fun _ => hP.keeps_posCount _ _ _ _ _ _) (keeps_pure _)

theorem keeps_toHost (o : Output) : Keeps P (hostEmit o) := fun t h => by
  rw [run_hostEmit, M.toHost]
  split
  · exact hP.cxl _ h
  · exact hP.out o h

theorem keeps_logAdd (kind island step logical queue entry : Nat) (pl : List Byte) :
    Keeps P (logAdd kind island step logical queue entry pl) :=
  keeps_getThen fun _ => keeps_bind (hP.keeps_wr (Reg.not_ofRelay_of_below (by decide)) _) fun _ =>
    keeps_bind (keeps_whenA (hP.keeps_upd (Reg.not_ofRelay_of_below (by decide)) _)) fun _ =>
      keeps_bind (fun _ h => hP.log _ h) fun _ => hP.keeps_toHost _

/-- A read of a line changes that line alone: it is put right, or marked as poisoned. -/
theorem keeps_readLine {l : Nat}
    (hfix : ∀ {t : M} bs vs, bs.length = 32 → vs.length = 4 → P t → P ((t.setBytes (32 * l) bs).setChks l 0 vs))
    (hmark : ∀ {t : M} vs, vs.length = 4 → P t → P (t.setChks l 0 vs)) : Keeps P (readLine l) := by
  have hupd := fun (o : Nat) (ho : o < 0x240000) f => hP.keeps_upd (Reg.not_ofRelay_of_below ho) f
  have hwr := fun (o : Nat) (ho : o < 0x240000) v => hP.keeps_wr (Reg.not_ofRelay_of_below ho) v
  refine keeps_getThen fun t => ?_
  dsimp only
  split
  case h_1 => exact keeps_pure _
  case h_2 =>
    exact keeps_bind (hupd _ (by decide) _) fun _ => keeps_bind (hwr _ (by decide) _) fun _ =>
      keeps_bind (hP.keeps_sliceEvent _ _) fun _ => keeps_pure _
  case h_3 i e _ =>
    have hlen : (rsRepair (t.codeword l) (.corrected i e)).length = 36 := by
      rw [length_rsRepair, M.length_codeword]
    exact keeps_bind (keeps_modify fun _ h => hfix _ _ (by simp [hlen]) (by simp [hlen]) h) fun _ =>
      keeps_bind (hupd _ (by decide) _) fun _ => keeps_bind (hwr _ (by decide) _) fun _ =>
        keeps_bind (hP.keeps_sliceEvent _ _) fun _ => keeps_pure _
  case h_4 =>
    exact keeps_bind (keeps_modify fun _ h => hmark _ (length_rsPoison _) h) fun _ => keeps_bind (hupd _ (by decide) _) fun _ =>
      keeps_bind (hwr _ (by decide) _) fun _ => keeps_bind (hP.keeps_logAdd _ _ _ _ _ _ _) fun _ => keeps_pure _

end AboutLogs

/-- A property that no message sent undoes, no error logged, and no read or write of the stores. -/
structure AboutStores (P : M → Prop) : Prop extends AboutLogs P where
  byte : ∀ {t} a b, P t → P (M.setByte t a b)
  check : ∀ {t} l k v, P t → P (M.setChk t l k v)
  draw : ∀ {t : M}, P t → P { t with free := t.free + 1 }

namespace AboutStores

variable {P : M → Prop} (hP : AboutStores P)
include hP

theorem setBytes {t : M} (a : Nat) (bs : List Byte) (h : P t) : P (t.setBytes a bs) := by
  induction bs generalizing t a with
  | nil => exact h
  | cons b bs ih => exact ih (a + 1) (hP.byte a b h)

theorem setChks {t : M} (l k : Nat) (vs : List Nat) (h : P t) : P (t.setChks l k vs) := by
  induction vs generalizing t k with
  | nil => exact h
  | cons v vs ih => exact ih (k + 1) (hP.check l k v h)

theorem putLine {t : M} (l : Nat) (d : List Byte) (p : Bool) (h : P t) : P (t.putLine l d p) :=
  hP.setChks _ _ _ (hP.setBytes _ _ h)

theorem keeps_readLine (l : Nat) : Keeps P (readLine l) :=
  hP.toAboutLogs.keeps_readLine (fun _ _ _ _ h => hP.setChks _ _ _ (hP.setBytes _ _ h)) fun _ _ h => hP.setChks _ _ _ h

theorem keeps_readLines (ls : List Nat) : Keeps P (readLines ls) := by
  unfold readLines
  refine keeps_bind (keeps_mapA fun l => ?_) fun _ => keeps_pure _
  exact keeps_bind (hP.keeps_readLine l) fun _ => keeps_pure _

theorem keeps_readBytes (a n : Nat) : Keeps P (readBytes a n) := by
  unfold readBytes
  exact keeps_bind (hP.keeps_readLines _) fun _ => keeps_getThen fun _ => keeps_pure _

theorem keeps_writeInLine (l off : Nat) (data : List Byte) : Keeps P (writeInLine l off data) :=
  keeps_ite (keeps_bind (fun _ h => hP.putLine _ _ _ h) fun _ => keeps_pure _)
    (keeps_bind (hP.keeps_readLine l) fun _ => keeps_ite (keeps_pure _)
      (keeps_bind (fun _ h => hP.putLine _ _ _ h) fun _ => keeps_pure _))

theorem keeps_writeBytesAux (fuel a : Nat) (data : List Byte) : Keeps P (writeBytesAux fuel a data) := by
  induction fuel generalizing a data with
  | zero => exact keeps_pure _
  | succ fuel ih =>
    exact keeps_ite (keeps_pure _) (keeps_bind (hP.keeps_writeInLine _ _ _) fun _ => keeps_bind (ih _ _) fun _ => keeps_pure _)

theorem keeps_writeBytes (a : Nat) (data : List Byte) : Keeps P (writeBytes a data) := hP.keeps_writeBytesAux _ a data

theorem keeps_freeVal (w : Nat) : Keeps P (freeVal w) := fun _ h => hP.draw h

theorem keeps_scrambleOuts (outs : List (Nat × Nat)) : Keeps P (scrambleOuts outs) :=
  keeps_forA fun _ => keeps_bind (keeps_mapA fun _ => hP.keeps_freeVal 8) fun _ =>
    keeps_bind (hP.keeps_writeBytes _ _) fun _ => keeps_pure _

theorem keeps_writeRunAux (fuel a len v : Nat) (bad : List Nat) : Keeps P (writeRunAux fuel a len v bad) := by
  induction fuel generalizing a len v with
  | zero => exact keeps_pure _
  | succ fuel ih =>
    have hput : ∀ l (d : M → List Byte) p, Keeps P (modify fun s : M => s.putLine l (d s) p : Act Unit) :=
      fun l d p _ h => hP.putLine l _ p h
    have hrest := fun x a len v => keeps_bind (keeps_pure (P := P) x) fun d : Bool =>
      keeps_bind (ih a len v) fun d' => keeps_pure (d || d')
    exact keeps_ite (keeps_pure _) (keeps_ite (keeps_bind (hput _ _ _) fun _ => hrest _ _ _ _)
      (keeps_bind (hP.keeps_readLine _) fun _ => keeps_ite (hrest _ _ _ _) (keeps_bind (hput _ _ _) fun _ => hrest _ _ _ _)))

theorem keeps_writeElems (t : TD) (bad : List Nat) (fuel x : Nat) (codes : List Nat) : Keeps P (writeElems t bad fuel x codes) := by
  induction fuel generalizing x codes with
  | zero => exact keeps_pure _
  | succ fuel ih =>
    exact keeps_ite (keeps_pure _) (keeps_bind (hP.keeps_writeRunAux _ _ _ _ _) fun _ => keeps_bind (ih _ _) fun _ => keeps_pure _)

theorem keeps_writeCounts (c : Coll) : Keeps P (writeCounts c) := hP.keeps_writeElems _ _ _ _ _

end AboutStores

/-! ## What outlasts the end of a collective -/

/-- The second machine has the board of the first, its registers of the kind K, and every control message that waited in a Rally. -/
structure M.outlasts (K : Nat → Prop) (s t : M) : Prop where
  wf : t.wf = true
  board : t.board = s.board
  regs : ∀ o, K o → t.reg o = s.reg o
  msgs : ∀ n, KeepsControl (s.rally n).msgs (t.rally n).msgs

/-- A Rally reads as it was last set. -/
theorem M.rally_put_self {t : M} (h : t.wf = true) (n : Nat) (r : Rally) :
    ({ t with trn := { t.trn with rallies := Tab.put Rally.init t.trn.rallies n r } } : M).rally n = r := by
  have e : Tab.wf Rally.init t.trn.rallies = true := by simp_all [M.wf]
  exact Tab.read_put_self _ _ _ _ e

/-- Setting a Rally leaves every other one alone. -/
theorem M.rally_put_other (t : M) {n k : Nat} (r : Rally) (h : k ≠ n) :
    ({ t with trn := { t.trn with rallies := Tab.put Rally.init t.trn.rallies n r } } : M).rally k = t.rally k :=
  Tab.read_put_other _ _ _ _ _ h

theorem M.wf_draw {t : M} (h : t.wf = true) : ({ t with free := t.free + 1 } : M).wf = true :=
  (M.wf_congr ⟨rfl, rfl, rfl, rfl, rfl, rfl, rfl, rfl, rfl, rfl, rfl⟩).trans h

namespace M.outlasts

variable {K : Nat → Prop} {s t u : M}

theorem refl (h : s.wf = true) : s.outlasts K s := ⟨h, rfl, fun _ _ => rfl, fun _ => .refl _⟩

theorem trans (h : s.outlasts K t) (h' : t.outlasts K u) : s.outlasts K u :=
  ⟨h'.wf, h'.board.trans h.board, fun o ho => (h'.regs o ho).trans (h.regs o ho),
    fun n x hx hc => h'.msgs n x (h.msgs n x hx hc) hc⟩

theorem mono {K' : Nat → Prop} (h : s.outlasts K t) (hK : ∀ o, K' o → K o) : s.outlasts K' t :=
  ⟨h.wf, h.board, fun o ho => h.regs o (hK o ho), h.msgs⟩

/-- A change that leaves registers, Rallies and board alone. -/
theorem update (h : s.outlasts K t) (hw : u.wf = true) (hb : u.board = t.board) (hr : u.regs = t.regs) (ht : u.trn = t.trn) :
    s.outlasts K u :=
  ⟨hw, hb.trans h.board, fun o ho => (congrArg (Tab.read Reg.dflt · o) hr).trans (h.regs o ho), fun n => by
    rw [show u.rally n = t.rally n from congrArg (fun x : Transport => Tab.read Rally.init x.rallies n) ht]
    exact h.msgs n⟩

theorem setReg {o : Nat} (v : Nat) (ho : ¬ K o) (h : s.outlasts K t) : s.outlasts K (t.setReg o v) :=
  ⟨M.wf_setReg _ _ h.wf, h.board, fun o' ho' => (M.reg_setReg_other t v fun e : o' = o => ho (e ▸ ho')).trans (h.regs o' ho'), h.msgs⟩

theorem keeps_wr {o : Nat} (ho : ¬ K o) (v : Nat) : Keeps (s.outlasts K) (wr o v) := fun _ h => h.setReg v ho

theorem keeps_inc64 {o : Nat} (ho : ¬ K o) : Keeps (s.outlasts K) (inc64 o) := fun _ h => h.setReg _ ho

/-- What goes on in the Rallies and in the stores is outlasted. -/
theorem aboutStores (s : M) (hK : ∀ o, K o → Reg.ofRelay o) : AboutStores (s.outlasts K) where
  setReg v ho h := h.setReg v fun hk => ho (hK _ hk)
  out _ h := h.update ((M.wf_congr ⟨rfl, rfl, rfl, rfl, rfl, rfl, rfl, rfl, rfl, rfl, rfl⟩).trans h.wf) rfl rfl rfl
  ports _ h := h.update ((M.wf_congr ⟨rfl, rfl, rfl, rfl, rfl, rfl, rfl, rfl, rfl, rfl, rfl⟩).trans h.wf) rfl rfl rfl
  clock _ h := ⟨(M.wf_congr ⟨rfl, rfl, rfl, rfl, rfl, rfl, rfl, rfl, rfl, rfl, rfl⟩).trans h.wf, h.board, h.regs, h.msgs⟩
  rally n r hr h := ⟨M.wf_putRally n r h.wf, h.board, h.regs, fun k x hx hc => by
    by_cases hk : k = n
    · subst hk
      rw [M.rally_put_self h.wf]
      exact hr x (h.msgs k x hx hc) hc
    · rw [M.rally_put_other _ _ hk]
      exact h.msgs k x hx hc⟩
  byte a b h := h.update (M.wf_setByte a b h.wf) rfl rfl rfl
  check l k v h := h.update (M.wf_setChk l k v h.wf) rfl rfl rfl
  draw h := h.update (M.wf_draw h.wf) rfl rfl rfl
  log _ h := h.update ((M.wf_congr ⟨rfl, rfl, rfl, rfl, rfl, rfl, rfl, rfl, rfl, rfl, rfl⟩).trans h.wf) rfl rfl rfl
  cxl _ h := h.update ((M.wf_congr ⟨rfl, rfl, rfl, rfl, rfl, rfl, rfl, rfl, rfl, rfl, rfl⟩).trans h.wf) rfl rfl rfl

end M.outlasts

/-- A property of the Relay engines and their queues alone. -/
theorem aboutStores_of_rly {P : M → Prop} (h : ∀ {t u : M}, u.rly = t.rly → P t → P u) : AboutStores P where
  setReg _ _ := h rfl
  out _ := h rfl
  ports _ := h rfl
  clock _ := h rfl
  rally _ _ _ := h rfl
  byte _ _ := h rfl
  check _ _ _ := h rfl
  draw := h rfl
  log _ := h rfl
  cxl _ := h rfl

/-- A property of the logical cores alone. -/
theorem aboutStores_of_cores {P : M → Prop} (h : ∀ {t u : M}, u.cores = t.cores → P t → P u) : AboutStores P where
  setReg _ _ := h rfl
  out _ := h rfl
  ports _ := h rfl
  clock _ := h rfl
  rally _ _ _ := h rfl
  byte _ _ := h rfl
  check _ _ _ := h rfl
  draw := h rfl
  log _ := h rfl
  cxl _ := h rfl

theorem aboutStores_sameRly (r : Relay) : AboutStores (·.rly = r) := aboutStores_of_rly fun h e => h.trans e

theorem aboutStores_sameCores (c : Tab Core) : AboutStores (·.cores = c) := aboutStores_of_cores fun h e => h.trans e

/-- Stores, cores and image are the same, and of the security controller all but the packet numbers of the ports. -/
def M.framed (s t : M) : Prop :=
  s.sameStores t ∧ t.cores = s.cores ∧ t.boot = s.boot ∧ { t.sec with ports := s.sec.ports } = s.sec

theorem M.framed.refl (s : M) : s.framed s := ⟨⟨rfl, rfl⟩, rfl, rfl, rfl⟩

theorem M.framed.aboutSends (s : M) : AboutSends s.framed where
  setReg _ _ h := h
  out _ h := h
  ports _ h := h
  clock _ h := h
  rally _ _ _ h := h

/-! ## The Relay engines -/

/-- The Relay engines with engine e changed. -/
def Relay.withEng (r : Relay) (e : Nat) (f : RelayEng → RelayEng) : Relay :=
  match e with
  | 0 => { r with eng0 := f r.eng0 }
  | 1 => { r with eng1 := f r.eng1 }
  | 2 => { r with eng2 := f r.eng2 }
  | _ => { r with eng3 := f r.eng3 }

/-- The module with Relay engine e changed. -/
def M.withEng (s : M) (e : Nat) (f : RelayEng → RelayEng) : M := { s with rly := s.rly.withEng e f }

theorem Relay.queues_withEng (r : Relay) (e : Nat) (f : RelayEng → RelayEng) : (r.withEng e f).queues = r.queues := by
  match e with
  | 0 | 1 | 2 | _ + 3 => rfl

theorem M.eng_withEng_self (s : M) (e : Nat) (f : RelayEng → RelayEng) : (s.withEng e f).eng e = f (s.eng e) := by
  match e with
  | 0 | 1 | 2 | _ + 3 => rfl

theorem M.eng_withEng_other (s : M) {e k : Nat} (he : e < 4) (hk : k < 4) (h : k ≠ e) (f : RelayEng → RelayEng) :
    (s.withEng e f).eng k = s.eng k := by
  interval_cases e <;> interval_cases k <;> simp_all [M.eng, M.withEng, Relay.withEng]

/-- What a change of one engine leaves alone is as before at each of them. -/
theorem M.eng_withEng_field {α : Type} (s : M) (e : Nat) {f : RelayEng → RelayEng} (p : RelayEng → α) (hp : ∀ g, p (f g) = p g)
    (k : Nat) : p ((s.withEng e f).eng k) = p (s.eng k) := by
  unfold M.eng M.withEng Relay.withEng
  split <;> split <;> simp [hp]

theorem M.eng_congr {s t : M} (h : t.rly = s.rly) (k : Nat) : t.eng k = s.eng k := by
  unfold M.eng
  rw [h]

theorem M.coll_congr {s t : M} (h : t.rly = s.rly) (e group seq : Nat) : t.coll e group seq = s.coll e group seq := by
  unfold M.coll
  rw [M.eng_congr h]

theorem M.wf_withEng {s : M} (h : s.wf = true) (e : Nat) (f : RelayEng → RelayEng) : (s.withEng e f).wf = true :=
  keepsWf_updEng e f s h

/-- A change of an engine is outlasted. -/
theorem M.outlasts.withEng {K : Nat → Prop} {s t : M} (h : s.outlasts K t) (e : Nat) (f : RelayEng → RelayEng) :
    s.outlasts K (t.withEng e f) := h.update (M.wf_withEng h.wf e f) rfl rfl rfl

/-- An engine with the active collective of a group and SEQ changed. -/
def RelayEng.changed (g : RelayEng) (group seq : Nat) (f : Coll → Coll) : RelayEng :=
  { g with colls := g.colls.map fun c => if c.started && c.group == group && c.seq == seq then f c else c }

/-- The collectives with which one stands for the same record or queue entry. -/
def Coll.sameKey (d c : Coll) : Bool :=
  d.started == c.started && d.group == c.group && d.seq == c.seq && d.ring == c.ring && d.entry == c.entry

theorem Coll.sameKey_iff {d c : Coll} : d.sameKey c = true ↔
    d.started = c.started ∧ d.group = c.group ∧ d.seq = c.seq ∧ d.ring = c.ring ∧ d.entry = c.entry := by
  simp [Coll.sameKey, and_assoc]

theorem M.coll_some {s : M} {e group seq : Nat} {c : Coll} (h : s.coll e group seq = some c) :
    c ∈ (s.eng e).colls ∧ c.started = true ∧ c.group = group ∧ c.seq = seq := by
  have hp := List.find?_some h
  simp only [Bool.and_eq_true, beq_iff_eq, and_assoc] at hp
  exact ⟨List.mem_of_find?_eq_some h, hp⟩

/-- The change of a collective that stays active under its group and SEQ is what is found there. -/
theorem M.coll_changed {s : M} {e group seq : Nat} {c : Coll} (h : s.coll e group seq = some c) {f : Coll → Coll}
    (hf : ∀ d, (f d).sameKey d = true) : (s.withEng e (·.changed group seq f)).coll e group seq = some (f c) := by
  obtain ⟨-, hs, hg, hq⟩ := M.coll_some h
  have hkey : ∀ d : Coll, ((fun d : Coll => d.started && d.group == group && d.seq == seq) ∘
      fun d => if d.started && d.group == group && d.seq == seq then f d else d) d =
        (d.started && d.group == group && d.seq == seq) := fun d => by
    obtain ⟨h1, h2, h3, -⟩ := Coll.sameKey_iff.1 (hf d)
    simp only [Function.comp_apply]
    split
    · rw [h1, h2, h3]
    · rfl
  unfold M.coll at h ⊢
  rw [M.eng_withEng_self]
  show ((s.eng e).colls.map _).find? _ = _
  rw [List.find?_map, funext hkey, h]
  simp [hs, hg, hq]

/-- A collective of a changed engine stands for the same record as one that was there. -/
theorem RelayEng.mem_changed {g : RelayEng} {group seq : Nat} {f : Coll → Coll} (hf : ∀ d, (f d).sameKey d = true) {d : Coll}
    (h : d ∈ (g.changed group seq f).colls) : ∃ d' ∈ g.colls, d.sameKey d' = true := by
  obtain ⟨d', hd', rfl⟩ := List.mem_map.1 h
  refine ⟨d', hd', ?_⟩
  split
  · exact hf d'
  · exact Coll.sameKey_iff.2 ⟨rfl, rfl, rfl, rfl, rfl⟩

/-- Of a group nothing is left: no collective, and no communication queue. -/
def M.noGroup (s : M) (group : Nat) : Prop :=
  (∀ k d, k < 4 → d ∈ (s.eng k).colls → d.group ≠ group) ∧ s.rly.queues.find? (·.group = group) = none

/-- Of a group there is one collective, at engine e, and no communication queue. -/
def M.onlyColl (s : M) (e : Nat) (c : Coll) : Prop :=
  (∀ k d, k < 4 → d ∈ (s.eng k).colls → d.group = c.group → k = e ∧ d.sameKey c = true) ∧
  s.rly.queues.find? (·.group = c.group) = none

theorem M.noGroup_congr {s t : M} {group : Nat} (h : t.rly = s.rly) (hs : s.noGroup group) : t.noGroup group := by
  unfold M.noGroup at *
  simp only [M.eng_congr h, h]
  exact hs

theorem M.onlyColl_congr {s t : M} {e : Nat} {c : Coll} (h : t.rly = s.rly) (hs : s.onlyColl e c) : t.onlyColl e c := by
  unfold M.onlyColl at *
  simp only [M.eng_congr h, h]
  exact hs

theorem M.onlyColl.changed {s : M} {e : Nat} {c : Coll} (h : s.onlyColl e c) (he : e < 4) (group seq : Nat) {f : Coll → Coll}
    (hf : ∀ d, (f d).sameKey d = true) : (s.withEng e (·.changed group seq f)).onlyColl e c := by
  obtain ⟨hc, hq⟩ := h
  refine ⟨fun k d hk hd hg => ?_, by rwa [M.withEng, Relay.queues_withEng]⟩
  by_cases hke : k = e
  · subst hke
    rw [M.eng_withEng_self] at hd
    obtain ⟨d', hd', hkey⟩ := RelayEng.mem_changed hf hd
    obtain ⟨h1, h2, h3, h4, h5⟩ := Coll.sameKey_iff.1 hkey
    obtain ⟨-, hkey'⟩ := hc k d' hk hd' (h2 ▸ hg)
    obtain ⟨h1', h2', h3', h4', h5'⟩ := Coll.sameKey_iff.1 hkey'
    exact ⟨rfl, Coll.sameKey_iff.2 ⟨h1.trans h1', h2.trans h2', h3.trans h3', h4.trans h4', h5.trans h5'⟩⟩
  · rw [M.eng_withEng_other _ he hk hke] at hd
    exact hc k d hk hd hg

theorem M.noGroup.coll_none {s : M} {group : Nat} (h : s.noGroup group) {e : Nat} (he : e < 4) (seq : Nat) :
    s.coll e group seq = none := by
  refine List.find?_eq_none.2 fun d hd => ?_
  simp [h.1 e d he hd]

/-- A communication queue that is not there has no entries to take. -/
theorem run_takeQueue_none {s : M} {group : Nat} (h : s.rly.queues.find? (·.group = group) = none) (n : Nat) :
    takeQueue group n s = ((), s) := by
  cases n with
  | zero => rfl
  | succ n =>
    unfold takeQueue
    simp [h]

/-- The end of a group's last collective lets nothing go on. -/
theorem run_afterEnd_noGroup {s : M} {group : Nat} (h : s.noGroup group) (f : Nat → Coll → Act Unit) :
    afterEnd group f s = ((), s) := by
  have hnone : ∀ k ∈ List.range 4, (s.eng k).colls.filter (fun d => d.group == group && d.cd.close) = [] := fun k hk => by
    refine List.filter_eq_nil_iff.2 fun d hd => ?_
    simp [h.1 k d (List.mem_range.1 hk) hd]
  have hloop : ∀ ks : List Nat, (∀ k ∈ ks, (s.eng k).colls.filter (fun d => d.group == group && d.cd.close) = []) →
      forA ks (fun k => forA ((s.eng k).colls.filter fun d => d.group == group && d.cd.close) fun d => f k d) s = ((), s) := by
    intro ks hks
    induction ks with
    | nil => rfl
    | cons k ks ih =>
      rw [run_forA_cons, hks k List.mem_cons_self, run_forA_nil]
      exact ih fun k' hk' => hks k' (List.mem_cons_of_mem _ hk')
  rw [afterEnd, run_bind, run_get, run_bind, hloop _ hnone]
  exact run_takeQueue_none h.2 4096

/-! ## Control messages (R287, R289) -/

/-- A control message of a collective to a rank waits, or is on its way, in the Rally with that member. -/
def M.posted (t : M) (e : Nat) (c : Coll) (k code index origin flags elems bytes aux : Nat) : Prop :=
  ∃ x ∈ (t.rally (c.nodeOf k)).msgs, x.cls = 1 ∧ x.tag = collTag c.group 2 e ∧ x.owner = .control e c.group c.seq ∧
    x.lines = messageLines 0 (c.line0 index origin code flags elems bytes aux) []

section
variable {e : Nat} {c : Coll} {k code index origin flags elems bytes aux : Nat}

/-- A control message that is posted stays. -/
theorem M.posted.outlasts {K : Nat → Prop} {s t : M} (h : s.posted e c k code index origin flags elems bytes aux)
    (ho : s.outlasts K t) : t.posted e c k code index origin flags elems bytes aux := by
  obtain ⟨x, hx, hcls, htag, how, hlines⟩ := h
  exact ⟨x, ho.msgs _ x hx ⟨e, c.group, c.seq, how⟩, hcls, htag, how, hlines⟩

/-- A message that is posted is among those of its Rally. -/
theorem mem_postMessage {s : M} (hw : s.wf = true) (hs : s.board.stopped = false) (peer : Nat) (x : OutMsg) (hx : x.isControl) :
    x ∈ ((postMessage peer x s).2.rally peer).msgs := by
  let put : M := (updRally peer (fun r => { r with msgs := r.msgs ++ [x] }) s).2
  have hput : x ∈ (put.rally peer).msgs := by
    rw [show put.rally peer = { s.rally peer with msgs := (s.rally peer).msgs ++ [x] } from M.rally_put_self hw peer _]
    exact List.mem_append_right _ List.mem_cons_self
  have hputw : put.wf = true := keepsWf_updRally _ _ s hw
  have hP := M.outlasts.aboutStores put (K := fun _ => False) fun _ h => h.elim
  have hrest : Keeps (put.outlasts fun _ => False) (whenA s.trnReady do
      let (here, _) ← needCtx peer
      let s ← get
      let r := s.rally peer
      whenA (here && (r.out == 0 || r.out == 3)) (startOpen peer)) :=
    keeps_whenA (keeps_bind (hP.keeps_needCtx peer) fun _ => keeps_getThen fun _ => keeps_whenA (hP.keeps_startOpen peer))
  have hpost : postMessage peer x s = (whenA s.trnReady do
      let (here, _) ← needCtx peer
      let s ← get
      let r := s.rally peer
      whenA (here && (r.out == 0 || r.out == 3)) (startOpen peer)) put := by
    rw [postMessage, run_bind, run_get, hs]
    rfl
  rw [hpost]
  exact (hrest put (.refl hputw)).msgs peer x hput hx

/-- A control message that is sent is posted, unless the module has stopped (R357). -/
theorem posted_sendControlMsg {s : M} (hw : s.wf = true) (hs : s.board.stopped = false) :
    (sendControlMsg e c k code index origin flags elems bytes aux s).2.posted e c k code index origin flags elems bytes aux := by
  have hcount := (M.outlasts.aboutStores s (K := fun _ => False) fun _ h => h.elim).keeps_relayEvent e 0x30F 1 s (.refl hw)
  rw [sendControlMsg, run_bind]
  exact ⟨_, mem_postMessage hcount.wf (by rw [hcount.board]; exact hs) _ _ ⟨e, c.group, c.seq, rfl⟩, rfl, rfl, rfl, rfl⟩

/-- A control message goes to each of a list of ranks. -/
theorem posted_forA_sendControlMsg {s : M} (hw : s.wf = true) (hs : s.board.stopped = false) (ks : List Nat) :
    ∀ k ∈ ks, (forA ks (fun k => sendControlMsg e c k code index origin flags elems bytes aux) s).2.posted e c k code index origin
      flags elems bytes aux := by
  induction ks generalizing s with
  | nil => exact fun k hk => absurd hk List.not_mem_nil
  | cons k ks ih =>
    have hP := fun s : M => M.outlasts.aboutStores s (K := fun _ => False) fun _ h => h.elim
    have hsend := (hP s).keeps_sendControlMsg e c k code index origin flags elems bytes aux s (.refl hw)
    rw [run_forA_cons]
    intro k' hk'
    rcases List.mem_cons.1 hk' with rfl | hk'
    · exact (posted_sendControlMsg hw hs).outlasts
        (keeps_forA (fun _ => (hP _).keeps_sendControlMsg _ _ _ _ _ _ _ _ _ _) _ (.refl hsend.wf))
    · exact ih hsend.wf (by rw [hsend.board]; exact hs) k' hk'

end

/-! ## The end of a collective (R290, R293) -/

/-- An engine without a collective that has ended. -/
def RelayEng.without (g : RelayEng) (c : Coll) : RelayEng := { g with colls := g.colls.filter fun d => !d.sameKey c }

/-- What a collective does when its end is counted: its verdict, its destination if it fails, and its messages. -/
def wrapUp (e : Nat) (c : Coll) (failed : Bool) (status : Nat) : Act Unit := do
  whenA c.cd.close (closeVerdict c failed status)
  whenA (failed && c.go && c.hasDst) (scrambleOuts (c.dstTd.range false))
  whenA failed do
    stopMessages fun o => o.ofColl e c.group c.seq
    abortInbound e c.group c.seq

/-- OP_RESULT of a collective: the drops of OP 4 (R286). -/
def Coll.result (c : Coll) : Nat := if c.cd.op = 4 then min c.drops (2 ^ 32 - 1) else 0

/-- The completion of a collective on its ring, or in its communication queue. -/
def completeColl (c : Coll) (status : Nat) : Act Unit :=
  match c.ring with
  | some (core, x) => endRingOp core x status c.flags c.result
  | none => endQueueOp c.gr c.group c.entry status c.flags c.result

/-- What a collective that has left its engine does with its status. -/
def concludeColl (e : Nat) (c : Coll) (failed : Bool) (status : Nat) : Act Unit := do
  countEnd e status
  wrapUp e c failed status
  completeColl c status

/-- A collective that ends writes its counts, under OP 4, if it does not fail; a poisoned line there is its status. -/
theorem run_endColl (e : Nat) (c : Coll) (failed : Bool) (status : Nat) (s : M) : (endColl e c failed status s).2 =
    let p := (if c.cd.op = 4 ∧ !failed then writeCounts c else pure false) (s.withEng e (·.without c))
    (concludeColl e c failed (if p.1 then 3 else status) p.2).2 := by
  unfold endColl
  by_cases h : c.cd.op = 4 ∧ (!failed) = true
  · simp only [if_pos h]
    rfl
  · simp only [if_neg h]
    rfl

/-- The registers that the ends of collectives count in. -/
def Reg.endCounts : List Nat := [Reg.rlyMismatch, Reg.rlyTimeout, Reg.rlyAborts]

/-- The registers of the Relay engines alone. -/
def Reg.ofEngines (o : Nat) : Prop := 0x260000 ≤ o ∧ o < 0x270000

theorem Reg.ofRelay_of_ofEngines {o : Nat} (h : Reg.ofEngines o) : Reg.ofRelay o := .inr h

/-- The verdict entry of a group is one of 64. -/
theorem M.verdictEntry_lt {s : M} {group n : Nat} (h : s.verdictEntry group = some n) : n < 64 :=
  List.mem_range.1 (List.mem_of_find?_eq_some h)

theorem Reg.not_ofEngines_verdict {n : Nat} (h : n < 64) : ¬ Reg.ofEngines (Reg.updVerdict n) := by
  unfold Reg.ofEngines Reg.updVerdict
  omega

section
variable {P : M → Prop} (hP : AboutStores P)
include hP

theorem AboutStores.keeps_countEnd (hwr : ∀ o ∈ Reg.endCounts, Keeps P (inc64 o)) (e status : Nat) : Keeps P (countEnd e status) := by
  have hev := fun code => hP.keeps_relayEvent e code 1
  unfold countEnd
  split
  · exact hev _
  · exact keeps_bind (hev _) fun _ => hwr _ (by simp [Reg.endCounts])
  · exact keeps_bind (hev _) fun _ => hwr _ (by simp [Reg.endCounts])
  · exact keeps_bind (hev _) fun _ => hwr _ (by simp [Reg.endCounts])
  · exact hev _
  · exact keeps_pure _

omit hP in
/-- A verdict is written into one of the 64 entries, and counted (R244). -/
theorem keeps_closeVerdict (hwr : ∀ n, n < 64 → ∀ v, Keeps P (wr (Reg.updVerdict n) v)) (hnf : Keeps P (inc64 Reg.updNonfinite))
    (hfail : Keeps P (inc64 Reg.updFailed)) (c : Coll) (failed : Bool) (status : Nat) : Keeps P (closeVerdict c failed status) := by
  refine keeps_getThen fun s => ?_
  split
  · exact keeps_pure _
  · next n hn =>
    have hset := fun state fail step => keeps_bind (hwr n (M.verdictEntry_lt hn) (state <<< 61 + trunc 16 fail <<< 40 + trunc 40 step))
      fun _ => keeps_bind (keeps_whenA (c := state == 3) hnf) fun _ => keeps_whenA (c := state == 4) hfail
    exact keeps_ite (hset 4 status c.step) (keeps_ite (hset 3 0 c.step) (keeps_ite (hset 4 3 c.step) (hset 2 0 c.step)))

/-- The end of a collective beside its verdict. -/
theorem AboutStores.keeps_wrapUp (e : Nat) (c : Coll) (failed : Bool) (status : Nat) (hv : Keeps P (closeVerdict c failed status)) :
    Keeps P (wrapUp e c failed status) :=
  keeps_bind (keeps_whenA hv) fun _ => keeps_bind (keeps_whenA (hP.keeps_scrambleOuts _)) fun _ =>
    keeps_whenA (keeps_bind (hP.keeps_stopMessages fun _ _ _ => rfl) fun _ => hP.keeps_abortInbound _ _ _)

/-- The entry of a communication queue is completed in memory, and RD moves on (R283). -/
theorem AboutStores.keeps_endQueueOp {g : GroupRec} {group x status flags result : Nat}
    (hq : Keeps P (modify fun s : M => { s with rly := { s.rly with queues := s.rly.queues.map fun q =>
      if q.group = group then { q with rd := trunc 32 (x + 1) } else q } } : Act Unit)) :
    Keeps P (endQueueOp g group x status flags result) :=
  keeps_bind (hP.keeps_freeVal _) fun _ => keeps_bind (hP.keeps_writeBytes _ _) fun _ =>
    keeps_bind (hP.keeps_writeBytes _ _) fun _ => hq

theorem AboutStores.keeps_completeColl {c : Coll} {status : Nat}
    (hring : ∀ core x, c.ring = some (core, x) → Keeps P (endRingOp core x status c.flags c.result))
    (hqueue : c.ring = none → Keeps P (modify fun s : M => { s with rly := { s.rly with queues := s.rly.queues.map fun q =>
      if q.group = c.group then { q with rd := trunc 32 (c.entry + 1) } else q } } : Act Unit)) :
    Keeps P (completeColl c status) := by
  unfold completeColl
  split
  · next core x h => exact hring core x h
  · next h => exact hP.keeps_endQueueOp (hqueue h)

/-- The end of a collective keeps what each of its steps keeps. -/
theorem AboutStores.keeps_endColl {e : Nat} {c : Coll} {failed : Bool} {status : Nat}
    (heng : ∀ t, P t → P (t.withEng e (·.without c))) (hrest : ∀ st, Keeps P (concludeColl e c failed st)) :
    Keeps P (endColl e c failed status) := fun s h => by
  rw [run_endColl]
  exact hrest _ _ (keeps_ite (hP.keeps_writeCounts c) (keeps_pure false) _ (heng s h))

end

section
variable {e : Nat} {c : Coll} {failed : Bool} {status : Nat}

/-- The completion is outlasted by every register of the update units and the Relay engines. -/
theorem M.outlasts.keeps_completeColl (s : M) : Keeps (s.outlasts Reg.ofRelay) (completeColl c status) :=
  (M.outlasts.aboutStores s fun _ h => h).keeps_completeColl
    (fun _ _ _ _ h => h.update (keepsWf_endRingOp _ _ _ _ _ _ h.wf) rfl rfl rfl)
    (fun _ _ h => h.update ((M.wf_congr ⟨rfl, rfl, rfl, rfl, rfl, rfl, rfl, rfl, rfl, rfl, rfl⟩).trans h.wf) rfl rfl rfl)

/-- Verdict and messages are outlasted by every register of the Relay engines. -/
theorem M.outlasts.keeps_wrapUp (s : M) : Keeps (s.outlasts Reg.ofEngines) (wrapUp e c failed status) :=
  (M.outlasts.aboutStores s fun _ => Reg.ofRelay_of_ofEngines).keeps_wrapUp e c failed status
    (keeps_closeVerdict (fun _ hn v => M.outlasts.keeps_wr (Reg.not_ofEngines_verdict hn) v)
      (M.outlasts.keeps_inc64 (by unfold Reg.ofEngines Reg.updNonfinite; omega))
      (M.outlasts.keeps_inc64 (by unfold Reg.ofEngines Reg.updFailed; omega)) c failed status)

/-- The end of a collective is outlasted by the registers of the Relay engines that it is not counted in. -/
theorem M.outlasts.keeps_endColl (s : M) :
    Keeps (s.outlasts fun o => Reg.ofEngines o ∧ o ∉ Reg.endCounts) (endColl e c failed status) := by
  have hP := M.outlasts.aboutStores s (K := fun o => Reg.ofEngines o ∧ o ∉ Reg.endCounts) fun _ h => Reg.ofRelay_of_ofEngines h.1
  refine hP.keeps_endColl (fun _ h => h.withEng e _) fun st => keeps_bind
    (hP.keeps_countEnd (fun o ho => M.outlasts.keeps_inc64 fun h => h.2 ho) e st) fun _ => keeps_bind ?_ fun _ => ?_
  · exact fun t h => h.trans ((M.outlasts.keeps_wrapUp t t (.refl h.wf)).mono fun _ ho => ho.1)
  · exact fun t h => h.trans ((M.outlasts.keeps_completeColl t t (.refl h.wf)).mono fun _ ho => Reg.ofRelay_of_ofEngines ho.1)

/-- After the count of its end, a collective that has failed changes no register of the Relay engines. -/
theorem reg_endColl_failed {s : M} (hw : s.wf = true) {o : Nat} (ho : Reg.ofEngines o) :
    (endColl e c true status s).2.reg o = (countEnd e status (s.withEng e (·.without c))).2.reg o := by
  have hrun : (endColl e c true status s).2 = (concludeColl e c true status (s.withEng e (·.without c))).2 := by
    rw [run_endColl, if_neg (by simp)]
    rfl
  have h0 := keepsWf_countEnd e status _ (M.wf_withEng hw e (·.without c))
  have h1 := M.outlasts.keeps_wrapUp (e := e) (c := c) (failed := true) (status := status) _ _ (.refl h0)
  have h2 := M.outlasts.keeps_completeColl (c := c) (status := status) _ _ (.refl h1.wf)
  rw [hrun, ← h1.regs o ho, ← h2.regs o (Reg.ofRelay_of_ofEngines ho)]
  rfl

/-- A relay event counts in the event counters alone. -/
theorem reg_relayEvent {s : M} (hw : s.wf = true) {o : Nat} (ho : Reg.ofRelay o) (code n : Nat) :
    (relayEvent e code n s).2.reg o = s.reg o :=
  ((M.outlasts.aboutStores s fun _ h => h).keeps_relayEvent e code n s (.refl hw)).regs o ho

theorem reg_endColl_mismatch {s : M} (hw : s.wf = true) :
    (endColl e c true 9 s).2.reg Reg.rlyMismatch = trunc 64 (s.reg Reg.rlyMismatch + 1) := by
  have ho : Reg.ofEngines Reg.rlyMismatch := by unfold Reg.ofEngines Reg.rlyMismatch; omega
  have hw' := M.wf_withEng hw e (·.without c)
  rw [reg_endColl_failed hw ho, countEnd, run_bind, run_inc64, M.reg_setReg_self _ _ _ (keepsWf_relayEvent _ _ _ _ hw'),
    reg_relayEvent hw' (Reg.ofRelay_of_ofEngines ho)]
  rfl

theorem reg_endColl_timeout {s : M} (hw : s.wf = true) :
    (endColl e c true 0xA s).2.reg Reg.rlyTimeout = trunc 64 (s.reg Reg.rlyTimeout + 1) := by
  have ho : Reg.ofEngines Reg.rlyTimeout := by unfold Reg.ofEngines Reg.rlyTimeout; omega
  have hw' := M.wf_withEng hw e (·.without c)
  rw [reg_endColl_failed hw ho, countEnd, run_bind, run_inc64, M.reg_setReg_self _ _ _ (keepsWf_relayEvent _ _ _ _ hw'),
    reg_relayEvent hw' (Reg.ofRelay_of_ofEngines ho)]
  rfl

end

/-- An entry of a ring whose collective has ended with a status. -/
def Coll.endsEntry (c : Coll) (x status : Nat) (f : InFlight) : InFlight :=
  if f.x = x ∧ !f.done then { f with done := true, own := status, flags := f.flags ||| c.flags, result := c.result } else f

/-- From s to t a group's only collective ends with a status: nothing is left of the group, and the entry that issued the collective
is done. -/
structure M.endsColl (s t : M) (c : Coll) (status : Nat) : Prop where
  noGroup : t.noGroup c.group
  ring : ∀ core x, c.ring = some (core, x) → (t.ring core 3).infl = (s.ring core 3).infl.map (c.endsEntry x status)

/-- An engine without its only collective of a group. -/
theorem M.noGroup_without {s : M} {e : Nat} (he : e < 4) {c : Coll} (h : s.onlyColl e c) :
    (s.withEng e (·.without c)).noGroup c.group := by
  obtain ⟨hc, hq⟩ := h
  refine ⟨fun k d hk hd hg => ?_, by rwa [M.withEng, Relay.queues_withEng]⟩
  by_cases hke : k = e
  · subst hke
    rw [M.eng_withEng_self] at hd
    obtain ⟨hmem, hkey⟩ := List.mem_filter.1 hd
    simp [(hc k d hk hmem hg).2] at hkey
  · rw [M.eng_withEng_other _ he hk hke] at hd
    exact hke (hc k d hk hd hg).1

/-- RD of a queue moves on, and no queue comes to be. -/
theorem M.noGroup_queues {s : M} {group : Nat} (h : s.noGroup group) (f : CommQ → CommQ) (hf : ∀ q, (f q).group = q.group) :
    ({ s with rly := { s.rly with queues := s.rly.queues.map f } } : M).noGroup group := by
  obtain ⟨hc, hq⟩ := h
  refine ⟨hc, ?_⟩
  show (s.rly.queues.map f).find? _ = none
  rw [List.find?_map, show ((fun q : CommQ => decide (q.group = group)) ∘ f) = fun q => decide (q.group = group) from
    funext fun q => by simp [hf], hq, Option.map_none]

/-- The completion on a ring. -/
theorem ring_completeColl {s : M} (hw : s.wf = true) {c : Coll} {core x : Nat} (h : c.ring = some (core, x)) (status : Nat) :
    ((completeColl c status s).2.ring core 3).infl = (s.ring core 3).infl.map (c.endsEntry x status) := by
  have hrun : (completeColl c status s).2 =
      s.withRing core 3 fun g => { g with infl := g.infl.map (c.endsEntry x status) } := by
    rw [completeColl, h]
    rfl
  rw [hrun, M.ring_withRing_self hw]

/-- What goes before the completion keeps a property that no register is in. -/
theorem AboutStores.keeps_beforeCompletion {P : M → Prop} (hP : AboutStores P) (hreg : ∀ {t o} v, P t → P (M.setReg t o v))
    (e : Nat) (c : Coll) (failed : Bool) (status : Nat) :
    Keeps P (do countEnd e status; wrapUp e c failed status) := by
  have hwr : ∀ o v, Keeps P (wr o v) := fun _ _ _ h => hreg _ h
  have hinc : ∀ o, Keeps P (inc64 o) := fun _ _ h => hreg _ h
  exact keeps_bind (hP.keeps_countEnd (fun _ _ => hinc _) e status) fun _ =>
    hP.keeps_wrapUp e c failed status (keeps_closeVerdict (fun _ _ _ => hwr _ _) (hinc _) (hinc _) _ _ _)

theorem M.ring_congr {s t : M} (h : t.cores = s.cores) (n e : Nat) : t.ring n e = s.ring n e := by
  unfold M.ring M.core
  rw [h]

theorem aboutStores_noGroup (group : Nat) : AboutStores (M.noGroup · group) := aboutStores_of_rly fun h hs => M.noGroup_congr h hs

/-- The only collective of a group that has left its engine completes. -/
theorem concludeColl_ends {s : M} (hw : s.wf = true) {c : Coll} (h : s.noGroup c.group) (e : Nat) (failed : Bool) (status : Nat) :
    s.endsColl (concludeColl e c failed status s).2 c status := by
  set u := (wrapUp e c failed status (countEnd e status s).2).2 with hu
  have hrun : (concludeColl e c failed status s).2 = (completeColl c status u).2 := rfl
  have hgone : u.noGroup c.group := (aboutStores_noGroup c.group).keeps_beforeCompletion (fun _ h => h) e c failed status s h
  have hcores : u.cores = s.cores := (aboutStores_sameCores s.cores).keeps_beforeCompletion (fun _ h => h) e c failed status s rfl
  have hwf : u.wf = true := (M.outlasts.keeps_wrapUp _ _ (.refl (keepsWf_countEnd e status s hw))).wf
  rw [hrun]
  refine ⟨?_, fun core x hx => ?_⟩
  · exact (aboutStores_noGroup c.group).keeps_completeColl (fun _ _ _ _ h => h)
      (fun _ _ h => M.noGroup_queues h _ fun q => by split <;> rfl) _ hgone
  · rw [ring_completeColl hwf hx, M.ring_congr hcores]

/-- The only collective of a group ends: with its status, or under OP 4 with that of a poisoned line where its counts go. -/
theorem endColl_ends {s : M} (hw : s.wf = true) {e : Nat} (he : e < 4) {c : Coll} (ho : s.onlyColl e c) (failed : Bool)
    (status : Nat) : ∃ st, (st = status ∨ c.cd.op = 4 ∧ failed = false ∧ st = 3) ∧
      s.endsColl (endColl e c failed status s).2 c st := by
  have hw0 := M.wf_withEng hw e (·.without c)
  have hgone := M.noGroup_without he ho
  rw [run_endColl]
  by_cases h : c.cd.op = 4 ∧ (!failed) = true
  · rw [if_pos h]
    obtain ⟨h4, hf⟩ := h
    have hwc := keepsWf_writeCounts c _ hw0
    have hrly := (aboutStores_sameRly _).keeps_writeCounts c (s.withEng e (·.without c)) rfl
    have hcores := (aboutStores_sameCores s.cores).keeps_writeCounts c (s.withEng e (·.without c)) rfl
    generalize writeCounts c (s.withEng e (·.without c)) = p at *
    obtain ⟨hg, hr⟩ := concludeColl_ends hwc (M.noGroup_congr hrly hgone) e failed (if p.1 then 3 else status)
    refine ⟨if p.1 then 3 else status, ?_, hg, fun core x hx => ?_⟩
    · split
      · exact .inr ⟨h4, by simpa using hf, rfl⟩
      · exact .inl rfl
    · rw [hr core x hx, M.ring_congr hcores]
  · rw [if_neg h]
    obtain ⟨hg, hr⟩ := concludeColl_ends hw0 hgone e failed status
    exact ⟨status, .inl rfl, hg, hr⟩

/-! ## Agreement: what goes up, and what goes down (R289) -/

/-- From s to t control messages have gone out, and nothing else has happened at this member's collectives. -/
structure M.onlySent (s t : M) : Prop where
  framed : s.framed t
  rly : t.rly = s.rly
  out : s.outlasts Reg.ofRelay t

theorem M.onlySent_forA {s : M} (hw : s.wf = true) (ks : List Nat) (e : Nat) (c : Coll)
    (code index origin flags elems bytes aux : Nat) :
    s.onlySent (forA ks (fun k => sendControlMsg e c k code index origin flags elems bytes aux) s).2 where
  framed := keeps_forA (fun _ => (M.framed.aboutSends s).keeps_sendControlMsg _ _ _ _ _ _ _ _ _ _) s (.refl s)
  rly := keeps_forA (fun _ => (aboutStores_sameRly s.rly).keeps_sendControlMsg _ _ _ _ _ _ _ _ _ _) s rfl
  out := keeps_forA (fun _ => (M.outlasts.aboutStores s fun _ h => h).keeps_sendControlMsg _ _ _ _ _ _ _ _ _ _) s (.refl hw)

theorem M.onlySent_sendControlMsg {s : M} (hw : s.wf = true) (e : Nat) (c : Coll)
    (k code index origin flags elems bytes aux : Nat) :
    s.onlySent (sendControlMsg e c k code index origin flags elems bytes aux s).2 :=
  M.onlySent_forA hw [k] e c code index origin flags elems bytes aux

/-- A control message that is sent is posted, unless the module has stopped. -/
def M.postsIf (s t : M) (e : Nat) (c : Coll) (k code index origin flags elems bytes aux : Nat) : Prop :=
  s.board.stopped = false → t.posted e c k code index origin flags elems bytes aux

/-- What the AGREE of a member, or the root's GO, brings: the OR of what the children sent and, for CLOSE, of its own (R289, R293). -/
def M.verdictOf (s : M) (c : Coll) : Nat :=
  c.agreed.foldl (fun b k => b ||| k.bits)
    (if c.cd.close then ((s.verdictEntry c.group).map fun n => s.accumulated n c.step).getD 0 else 0)

/-- A collective whose AGREE is sent. -/
def Coll.sentUp (c : Coll) : Coll := { c with agreeSent := true }

/-- A collective that has heard GO with a verdict. -/
def Coll.gone (c : Coll) (v : Nat) : Coll := { c with go := true, agreeSent := true, verdict := v }

section
variable {s : M} {e : Nat} {c : Coll}

theorem run_agree_succ (n : Nat) : (agree (n + 1) e c s).2 =
    if (agreeUp e c s).1 then (afterEnd c.group (agree n) (agreeUp e c s).2).2 else (agreeUp e c s).2 := by
  rw [agree, run_bind, run_whenA]

theorem run_agreeUp_waits (h : s.agreeReady c = false) : agreeUp e c s = (false, s) := by
  rw [agreeUp, run_bind, run_get, h]
  rfl

/-- An AGREE that may go, and has a parent to go to, goes there with the disagreement that it knows of. -/
theorem run_agreeUp_parent (h : s.agreeReady c = true) {p : Nat} (hp : c.parent 0 c.me = some p) : agreeUp e c s =
    let t := s.withEng e (·.changed c.group c.seq Coll.sentUp)
    (false, match c.dispute with
      | none => (sendControlMsg e c p 0 0 0 (s.verdictOf c) 0 0 0 t).2
      | some (node, d) => (sendControlMsg e c p 0 0 node (s.verdictOf c + 8) 0 (trunc 32 d) (d >>> 32) t).2) := by
  rw [agreeUp, run_bind, run_get, h]
  dsimp only
  rw [Bool.not_true, if_neg Bool.false_ne_true, hp]
  cases c.dispute <;> rfl

theorem run_agreeUp_rootAgrees (h : s.agreeReady c = true) (hp : c.parent 0 c.me = none) (hd : c.dispute = none) :
    agreeUp e c s = goOn e c (s.verdictOf c) s := by
  rw [agreeUp, run_bind, run_get, h]
  dsimp only
  rw [Bool.not_true, if_neg Bool.false_ne_true, hp, hd]
  rfl

theorem run_agreeUp_rootDisputes (h : s.agreeReady c = true) (hp : c.parent 0 c.me = none) {node d : Nat}
    (hd : c.dispute = some (node, d)) : agreeUp e c s = (true, (noGo e c node d s).2) := by
  rw [agreeUp, run_bind, run_get, h]
  dsimp only
  rw [Bool.not_true, if_neg Bool.false_ne_true, hp, hd]
  rfl

/-- The machine in which a member has heard GO, and passed it on. -/
def M.gone (s : M) (e : Nat) (c : Coll) (v : Nat) : M :=
  (forA (c.kids 0 c.me) (fun k => sendControlMsg e c k 1 0 0 v 0 0 0)
    (s.withEng e (·.changed c.group c.seq (·.gone v)))).2

theorem run_goOn_open (h : ¬ (c.cd.close = true ∧ c.cd.count = 0)) (v : Nat) : goOn e c v s = (false, s.gone e c v) := by
  have hc : (c.cd.close && c.cd.count == 0) = false := by simpa using h
  rw [goOn, run_bind, run_bind, run_ite, hc, if_neg Bool.false_ne_true]
  rfl

/-- A CLOSE collective without elements ends as soon as GO is heard (R293). -/
theorem run_goOn_closes (hclose : c.cd.close = true) (hcount : c.cd.count = 0) (v : Nat) :
    goOn e c v s = (true, (endColl e { c with go := true, verdict := v } false 0 (s.gone e c v)).2) := by
  rw [goOn, run_bind, run_bind, run_ite, hclose, hcount]
  rfl

theorem M.gone_onlySent (hw : s.wf = true) (v : Nat) :
    (s.withEng e (·.changed c.group c.seq (·.gone v))).onlySent
      (s.gone e c v) := M.onlySent_forA (M.wf_withEng hw _ _) _ _ _ _ _ _ _ _ _ _

theorem M.gone_posts (hw : s.wf = true) (v : Nat) : ∀ k ∈ c.kids 0 c.me, s.postsIf (s.gone e c v) e c k 1 0 0 v 0 0 0 :=
  fun k hk hs => posted_forA_sendControlMsg (M.wf_withEng hw _ _) hs _ k hk

/-- The machine in which a disagreement has been passed on and logged. -/
def M.refused (s : M) (e : Nat) (c : Coll) (node digest : Nat) : M :=
  (logMismatch e c node digest
    (forA (c.kids 0 c.me) (fun k => sendControlMsg e c k 2 0 node 0 9 (trunc 32 digest) (digest >>> 32)) s).2).2

theorem run_noGo (node digest : Nat) :
    (noGo e c node digest s).2 = (endColl e { c with go := false } true 9 (s.refused e c node digest)).2 := by
  rw [noGo, run_bind, run_bind, M.refused]

/-- The registers of the Relay engines but the one that shows the last mismatch. -/
def Reg.notLastMismatch (o : Nat) : Prop := Reg.ofEngines o ∧ o ≠ Reg.rlyLastMismatch

/-- A mismatch is logged, and its register shows it. -/
theorem keeps_logMismatch {P : M → Prop} (hP : AboutStores P) (hwr : ∀ v, Keeps P (wr Reg.rlyLastMismatch v))
    (node digest : Nat) : Keeps P (logMismatch e c node digest) :=
  keeps_bind (hwr _) fun _ => keeps_getThen fun _ => hP.keeps_logAdd _ _ _ _ _ _ _

theorem reg_logMismatch (hw : s.wf = true) (node digest : Nat) : (logMismatch e c node digest s).2.reg Reg.rlyLastMismatch =
    trunc 16 c.group <<< 112 + trunc 12 node <<< 88 + trunc 64 digest := by
  rw [logMismatch, run_bind, run_wr]
  set v := trunc 16 c.group <<< 112 + trunc 12 node <<< 88 + trunc 64 digest with hv
  have hlog := fun core job queue => (M.outlasts.aboutStores (s.setReg Reg.rlyLastMismatch v) (K := Reg.ofRelay) fun _ h => h).keeps_logAdd
    0x03 (168 + e) c.step core job queue (payload [(0, 2, c.group), (4, 4, c.seq), (8, 2, node), (12, 8, digest)]) _
    (.refl (M.wf_setReg _ _ hw))
  rw [run_bind, run_get]
  dsimp only
  rw [(hlog _ _ _).regs _ (by unfold Reg.ofRelay Reg.rlyLastMismatch; omega), M.reg_setReg_self _ _ _ hw]

/-- A disagreement that has been passed on and logged: everything but the register that shows it is as it was. -/
theorem M.refused_outlasts (hw : s.wf = true) (node digest : Nat) :
    s.outlasts Reg.notLastMismatch (s.refused e c node digest) := by
  have hsent := (M.onlySent_forA hw (c.kids 0 c.me) e c 2 0 node 0 9 (trunc 32 digest) (digest >>> 32)).out
  exact keeps_logMismatch (M.outlasts.aboutStores s fun _ h => Reg.ofRelay_of_ofEngines h.1)
    (fun v => M.outlasts.keeps_wr (fun h => h.2 rfl) v) node digest _ (hsent.mono fun _ h => Reg.ofRelay_of_ofEngines h.1)

/-- What a property of the engines, or of the cores, is for the machine it is for the one with a disagreement passed on. -/
theorem M.refused_keeps {P : M → Prop} (hP : AboutStores P) (hreg : ∀ {t o} v, P t → P (M.setReg t o v)) (node digest : Nat)
    (h : P s) : P (s.refused e c node digest) :=
  keeps_logMismatch hP (fun _ _ h => hreg _ h) node digest _
    (keeps_forA (fun _ => hP.keeps_sendControlMsg _ _ _ _ _ _ _ _ _ _) s h)

/-- A member with its group's only collective passes a disagreement on, shows it, and ends with a mismatch. -/
theorem noGo_ends (hw : s.wf = true) (he : e < 4) (ho : s.onlyColl e c) (node digest : Nat) :
    let m := (noGo e c node digest s).2
    s.endsColl m c 9 ∧ m.reg Reg.rlyMismatch = trunc 64 (s.reg Reg.rlyMismatch + 1) ∧
      m.reg Reg.rlyLastMismatch = trunc 16 c.group <<< 112 + trunc 12 node <<< 88 + trunc 64 digest ∧
      ∀ k ∈ c.kids 0 c.me, s.postsIf m e c k 2 0 node 0 9 (trunc 32 digest) (digest >>> 32) := by
  dsimp only
  rw [run_noGo]
  have hout := M.refused_outlasts (e := e) (c := c) hw node digest
  have honly : (s.refused e c node digest).onlyColl e c :=
    M.onlyColl_congr (M.refused_keeps (aboutStores_sameRly s.rly) (fun _ h => h) node digest rfl) ho
  have hcores : (s.refused e c node digest).cores = s.cores :=
    M.refused_keeps (aboutStores_sameCores s.cores) (fun _ h => h) node digest rfl
  obtain ⟨st, hst, hg, hr⟩ := endColl_ends hout.wf he (c := { c with go := false }) honly true 9
  obtain rfl : st = 9 := hst.resolve_right fun h => Bool.noConfusion h.2.1
  have hend := M.outlasts.keeps_endColl (e := e) (c := { c with go := false }) (failed := true) (status := 9) _ _ (.refl hout.wf)
  have hmis : Reg.notLastMismatch Reg.rlyMismatch := by unfold Reg.notLastMismatch Reg.ofEngines Reg.rlyMismatch Reg.rlyLastMismatch; omega
  have hlast : Reg.ofEngines Reg.rlyLastMismatch := by unfold Reg.ofEngines Reg.rlyLastMismatch; omega
  refine ⟨⟨hg, fun core x hx => ?_⟩, ?_, ?_, fun k hk hs => ?_⟩
  · rw [hr core x hx, M.ring_congr hcores]
    rfl
  · rw [reg_endColl_mismatch hout.wf, hout.regs _ hmis]
  · rw [hend.regs _ ⟨hlast, by decide⟩, M.refused, reg_logMismatch]
    exact (M.onlySent_forA hw _ _ _ _ _ _ _ _ _ _).out.wf
  · have hsent := M.onlySent_forA hw (c.kids 0 c.me) e c 2 0 node 0 9 (trunc 32 digest) (digest >>> 32)
    have hlog := keeps_logMismatch (e := e) (c := c) (M.outlasts.aboutStores _ (K := Reg.notLastMismatch) fun _ h => Reg.ofRelay_of_ofEngines h.1)
      (fun v => M.outlasts.keeps_wr (fun h => h.2 rfl) v) node digest _ (.refl hsent.out.wf)
    exact ((posted_forA_sendControlMsg hw hs _ k hk).outlasts hlog).outlasts hend

end

/-! ## A collective that ends, and what follows (R290) -/

/-- In a group there is but this collective, which is active at engine e, and no communication queue. -/
def M.aloneIn (s : M) (e group : Nat) (c : Coll) : Prop :=
  (∀ k d, k < 4 → d ∈ (s.eng k).colls → d.group = group → k = e ∧ d = c) ∧ s.rly.queues.find? (·.group = group) = none

theorem M.aloneIn.onlyColl {s : M} {e : Nat} {c : Coll} (h : s.aloneIn e c.group c) : s.onlyColl e c :=
  ⟨fun k d hk hd hg => by
    obtain ⟨rfl, rfl⟩ := h.1 k d hk hd hg
    exact ⟨rfl, Coll.sameKey_iff.2 ⟨rfl, rfl, rfl, rfl, rfl⟩⟩, h.2⟩

section
variable {s : M} {e : Nat} {c : Coll}

/-- With a group's last collective nothing else goes on. -/
theorem run_finishColl {failed : Bool} {status : Nat} (h : (endColl e c failed status s).2.noGroup c.group) :
    (finishColl e c failed status s).2 = (endColl e c failed status s).2 := by
  rw [finishColl, run_bind, run_afterEnd_noGroup h]

/-- A collective fails: it ends with its status, and ABORT goes to every neighbour but the one that the failure was heard of from. -/
theorem failColl_ends (hw : s.wf = true) (he : e < 4) (hs : c.started = true) (ho : s.onlyColl e c) (status : Nat)
    (heard bad : Option Nat) :
    let m := (failColl e c status heard bad s).2
    s.endsColl m c status ∧ (status = 0xA → m.reg Reg.rlyTimeout = trunc 64 (s.reg Reg.rlyTimeout + 1)) ∧
      ∀ k ∈ c.neighbours, some k ≠ heard → s.postsIf m e c k 3 0 (bad.getD s.node) 0 status 0 0 := by
  set ks := c.neighbours.filter fun k => some k != heard with hks
  have hsent := M.onlySent_forA hw ks e c 3 0 (bad.getD s.node) 0 status 0 0
  set t := (forA ks (fun k => sendControlMsg e c k 3 0 (bad.getD s.node) 0 status 0 0) s).2 with ht
  have hrun : (failColl e c status heard bad s).2 = (finishColl e c true status t).2 := by
    rw [failColl, run_bind, run_get, hs, run_bind, run_whenA_true]
  obtain ⟨st, hst, hend⟩ := endColl_ends hsent.out.wf he (M.onlyColl_congr hsent.rly ho) true status
  obtain rfl : st = status := hst.resolve_right fun h => Bool.noConfusion h.2.1
  dsimp only
  rw [hrun, run_finishColl hend.noGroup]
  refine ⟨⟨hend.noGroup, fun core x hx => ?_⟩, ?_, fun k hk hne hstop => ?_⟩
  · rw [hend.ring core x hx, M.ring_congr hsent.framed.2.1]
  · rintro rfl
    rw [reg_endColl_timeout hsent.out.wf, hsent.out.regs _ (by unfold Reg.ofRelay Reg.rlyTimeout; omega)]
  · have hposted := posted_forA_sendControlMsg (e := e) (c := c) (code := 3) (index := 0) (origin := bad.getD s.node) (flags := 0)
      (elems := st) (bytes := 0) (aux := 0) hw hstop ks k (List.mem_filter.2 ⟨hk, by simpa using hne⟩)
    exact hposted.outlasts (M.outlasts.keeps_endColl _ _ (.refl hsent.out.wf))

/-- A collective that has done its work ends with its status, or with that of a poisoned line where its counts go. -/
theorem finishColl_ends (hw : s.wf = true) (he : e < 4) (ho : s.onlyColl e c) (status : Nat) :
    let m := (finishColl e c false status s).2
    s.endsColl m c status ∨ c.cd.op = 4 ∧ s.endsColl m c 3 := by
  obtain ⟨st, hst, hend⟩ := endColl_ends hw he ho false status
  dsimp only
  rw [run_finishColl hend.noGroup]
  rcases hst with rfl | ⟨h4, -, rfl⟩
  · exact .inl hend
  · exact .inr ⟨h4, hend⟩

end

/-! ## The verdict of a CLOSE collective (R293) -/

/-- STATE of the entry of a CLOSE collective that has ended without failure. -/
def finalState (verdict : Nat) : Nat := if bit verdict 0 then 3 else if bit verdict 1 then 4 else 2

theorem bits_verdict (state fail step : Nat) (h : state < 8) :
    bits (state <<< 61 + trunc 16 fail <<< 40 + trunc 40 step) 63 61 = state ∧
      bits (state <<< 61 + trunc 16 fail <<< 40 + trunc 40 step) 39 0 = trunc 40 step := by
  have hfail : trunc 16 fail < 2 ^ 16 := Nat.mod_lt _ (by decide)
  have hstep : trunc 40 step < 2 ^ 40 := Nat.mod_lt _ (by decide)
  generalize trunc 16 fail = a at *
  generalize trunc 40 step = b at *
  simp only [bits, Nat.shiftLeft_eq, Nat.shiftRight_eq_div_pow]
  omega

/-- A verdict entry that is written shows its state and step. -/
theorem setVerdict_shows {s : M} (hw : s.wf = true) (n : Nat) {state : Nat} (fail step : Nat) (h : state < 8) :
    let m := (setVerdict n state fail step s).2
    m.verdictState n = state ∧ m.verdictStep n = trunc 40 step := by
  set v := state <<< 61 + trunc 16 fail <<< 40 + trunc 40 step with hv
  have hreg : (setVerdict n state fail step s).2.reg (Reg.updVerdict n) = v := by
    have hkeep : ∀ o, o ≠ Reg.updVerdict n → Keeps (fun t : M => t.reg (Reg.updVerdict n) = v) (inc64 o) := fun o ho t h =>
      (M.reg_setReg_other t _ ho.symm).trans h
    have hrest : Keeps (fun t : M => t.reg (Reg.updVerdict n) = v) (do
        whenA (state == 3) (inc64 Reg.updNonfinite)
        whenA (state == 4) (inc64 Reg.updFailed)) :=
      keeps_bind (keeps_whenA (hkeep _ (by unfold Reg.updNonfinite Reg.updVerdict; omega))) fun _ =>
        keeps_whenA (hkeep _ (by unfold Reg.updFailed Reg.updVerdict; omega))
    exact hrest _ (M.reg_setReg_self s _ _ hw)
  dsimp only
  rw [M.verdictState, M.verdictStep, hreg]
  exact bits_verdict state fail step h

theorem closeVerdict_shows {s : M} (hw : s.wf = true) {c : Coll} {n : Nat} (hn : s.verdictEntry c.group = some n) (status : Nat) :
    let m := (closeVerdict c false status s).2
    m.verdictState n = finalState c.verdict ∧ m.verdictStep n = trunc 40 c.step := by
  have hrun : (closeVerdict c false status s).2 =
      (setVerdict n (finalState c.verdict) (if bit c.verdict 0 then 0 else if bit c.verdict 1 then 3 else 0) c.step s).2 := by
    rw [closeVerdict, run_bind, run_get, hn]
    unfold finalState
    cases bit c.verdict 0 <;> cases bit c.verdict 1 <;> rfl
  have hlt : finalState c.verdict < 8 := by
    unfold finalState
    split
    · decide
    · split <;> decide
  dsimp only
  rw [hrun]
  exact setVerdict_shows hw n _ c.step hlt

/-- A CLOSE collective that ends without failure leaves its verdict in the entry of its group. -/
theorem endColl_verdict {s : M} (hw : s.wf = true) {e : Nat} {c : Coll} (hclose : c.cd.close = true) (h4 : c.cd.op ≠ 4) {n : Nat}
    (hn : s.verdictEntry c.group = some n) :
    let m := (endColl e c false 0 s).2
    m.verdictStep n = trunc 40 c.step ∧ m.verdictState n = finalState c.verdict := by
  set t := (countEnd e 0 (s.withEng e (·.without c))).2 with ht
  have hw' := M.wf_withEng hw e (·.without c)
  have htw : t.wf = true := keepsWf_countEnd _ _ _ hw'
  have htn : t.verdictEntry c.group = some n := by
    have hreg : ∀ k ∈ List.range 64, t.reg (Reg.updVgroup k) = s.reg (Reg.updVgroup k) := fun k hk => by
      have hk64 := List.mem_range.1 hk
      exact reg_relayEvent hw' (by unfold Reg.ofRelay Reg.updVgroup; omega) 0x301 1
    rw [← hn]
    unfold M.verdictEntry
    exact List.find?_congr fun k hk => by rw [hreg k hk]
  have hrun : (endColl e c false 0 s).2 = (completeColl c 0 (closeVerdict c false 0 t).2).2 := by
    rw [run_endColl, if_neg fun h => h4 h.1]
    show (completeColl c 0 (wrapUp e c false 0 t).2).2 = _
    rw [wrapUp, hclose]
    rfl
  obtain ⟨hstate, hstep⟩ := closeVerdict_shows htw htn 0
  have hkept := (M.outlasts.keeps_completeColl (c := c) (status := 0) _ _ (.refl (keepsWf_closeVerdict c false 0 t htw))).regs
    (Reg.updVerdict n) (by have := M.verdictEntry_lt hn; unfold Reg.ofRelay Reg.updVerdict; omega)
  dsimp only
  rw [hrun]
  unfold M.verdictStep M.verdictState at *
  rw [hkept]
  exact ⟨hstep, hstate⟩

/-! ## Control messages as they are heard (R289, R290) -/

/-- May a collective's AGREE be taken from a rank: it is a child's first, and this member's has not gone up? -/
def Coll.hearsAgree (c : Coll) (r : Nat) (h : Line0) : Prop :=
  h.code = 0 ∧ r ∈ c.kids 0 c.me ∧ c.agreeSent = false ∧ ∀ k ∈ c.agreed, k.rank ≠ r

/-- What a child's AGREE brings up. -/
def Coll.agreedBy (c : Coll) (src r : Nat) (h : Line0) : Agreed :=
  { rank := r, bits := trunc 2 h.flags, bad := if h.digest = c.digest then none else some (src, h.digest)
    dis := if bit h.flags 3 then some (trunc 12 h.origin, h.bytes + h.aux <<< 32) else none }

/-- A collective with one AGREE more. -/
def Coll.withAgree (c : Coll) (a : Agreed) : Coll := { c with agreed := c.agreed ++ [a] }

/-- May GO be taken from a rank? -/
def Coll.hearsGo (c : Coll) (r : Nat) (h : Line0) : Prop :=
  h.code = 1 ∧ c.parent 0 c.me = some r ∧ c.agreeSent = true ∧ c.go = false

/-- May NOGO be taken from a rank? -/
def Coll.hearsNogo (c : Coll) (r : Nat) (h : Line0) : Prop := h.code = 2 ∧ c.parent 0 c.me = some r ∧ c.go = false

/-- A change of collectives that whether an AGREE may go does not depend on. -/
theorem M.agreeReady_changed (s : M) (e group seq : Nat) {f : Coll → Coll}
    (hf : ∀ d, (f d).group = d.group ∧ (f d).od = d.od ∧ (f d).step = d.step ∧ (f d).seq = d.seq) (c : Coll) :
    (s.withEng e (·.changed group seq f)).agreeReady c = s.agreeReady c := by
  have hall : ∀ k, ((s.withEng e (·.changed group seq f)).eng k).colls.all (fun d => !(d.group == c.group && d.cd.verdict &&
      d.step == c.step && decide (trunc 32 (c.seq + 2 ^ 32 - d.seq) < 2 ^ 31))) =
      (s.eng k).colls.all (fun d => !(d.group == c.group && d.cd.verdict && d.step == c.step &&
        decide (trunc 32 (c.seq + 2 ^ 32 - d.seq) < 2 ^ 31))) := by
    refine s.eng_withEng_field e (fun g => g.colls.all _) fun g => ?_
    rw [RelayEng.changed, List.all_map]
    congr 1
    funext d
    obtain ⟨h1, h2, h3, h4⟩ := hf d
    simp only [Function.comp_apply]
    split
    · simp only [Coll.cd, h1, h2, h3, h4]
    · rfl
  simp only [M.agreeReady, hall]

/-- A change of collectives leaves the accumulators of verdicts alone. -/
theorem M.verdictOf_changed (s : M) (e group seq : Nat) (f : Coll → Coll) (c : Coll) :
    (s.withEng e (·.changed group seq f)).verdictOf c = s.verdictOf c := by
  have hvacc : ∀ k, ((s.withEng e (·.changed group seq f)).eng k).vacc = (s.eng k).vacc :=
    s.eng_withEng_field e RelayEng.vacc fun _ => rfl
  have hacc : ∀ n step, (s.withEng e (·.changed group seq f)).accumulated n step = s.accumulated n step := fun n step => by
    unfold M.accumulated
    simp only [hvacc]
  have hentry : (s.withEng e (·.changed group seq f)).verdictEntry c.group = s.verdictEntry c.group := rfl
  simp only [M.verdictOf, hacc, hentry]

/-! ## The control messages of a collective -/

/-- A message for no collective, or from no member of it, is discarded. -/
theorem run_withColl_unknown {s : M} {e group src : Nat} {line0 : List Byte}
    (h : ∀ c, s.coll e group (Line0.parse line0).seq = some c → c.rankOf src = none) (f : Coll → Nat → Line0 → Act Unit) :
    withColl e group src line0 f s = ((), s) := by
  rw [withColl, run_bind, run_get]
  dsimp only
  cases hc : s.coll e group (Line0.parse line0).seq with
  | none => rfl
  | some c =>
    dsimp only
    rw [h c hc]
    rfl

theorem run_withColl {s : M} {e group src : Nat} {line0 : List Byte} {c : Coll} {r : Nat}
    (hc : s.coll e group (Line0.parse line0).seq = some c) (hr : c.rankOf src = some r) (f : Coll → Nat → Line0 → Act Unit) :
    withColl e group src line0 f s = f c r (Line0.parse line0) s := by
  rw [withColl, run_bind, run_get]
  dsimp only
  rw [hc]
  dsimp only
  rw [hr]

/-- A control message for no collective, or from no member of it, changes nothing. -/
theorem exec_control_unknown {s : State} (hl : s.m.board.live = true) {e group src : Nat} {line0 : List Byte} {q : Instr}
    (hq : q ∈ [.agree e group src line0, .go e group src line0, .nogo e group src line0, .abortMessage e group src line0,
      .credit e group src line0])
    (h : ∀ c, s.m.coll e group (Line0.parse line0).seq = some c → c.rankOf src = none) : exec q s = .next s := by
  have hdo : ∀ f, s.doing (withColl e group src line0 f) = .next s := fun f => by
    rw [State.doing_live s _ hl, run_withColl_unknown h]
  simp only [List.mem_cons, List.not_mem_nil, or_false] at hq
  rcases hq with rfl | rfl | rfl | rfl | rfl
  · exact hdo _
  · exact hdo _
  · exact hdo _
  · exact hdo _
  · exact hdo _

section
variable {s : State} (hl : s.m.board.live = true) {e group src : Nat} {line0 : List Byte} {c : Coll} {r : Nat}
  (hc : s.m.coll e group (Line0.parse line0).seq = some c) (hr : c.rankOf src = some r)

/-! ### AGREE -/

include hl hc hr in
theorem exec_agree_ignored (h : ¬ c.hearsAgree r (Line0.parse line0)) : exec (.agree e group src line0) s = .next s := by
  show s.doing (hearAgree e group src line0) = _
  rw [State.doing_live s _ hl, hearAgree, run_withColl hc hr, run_whenA, if_neg]
  unfold Coll.hearsAgree at h
  simpa [and_assoc] using h

/-- The machine in which a collective has taken a child's AGREE. -/
def M.agreed (s : M) (e : Nat) (c : Coll) (a : Agreed) : M := s.withEng e (·.changed c.group c.seq (·.withAgree a))

include hl hc hr in
theorem exec_agree_heard (h : c.hearsAgree r (Line0.parse line0)) : exec (.agree e group src line0) s =
    (let a := c.agreedBy src r (Line0.parse line0)
     s.becomes (agree 64 e (c.withAgree a) (s.m.agreed e c a)).2) := by
  show s.doing (hearAgree e group src line0) = _
  rw [State.doing_live s _ hl, hearAgree, run_withColl hc hr, run_whenA, if_pos]
  · rfl
  · obtain ⟨h1, h2, h3, h4⟩ := h
    simpa [h1, h2, h3] using h4

include hc in
theorem M.coll_agreed (a : Agreed) : (s.m.agreed e c a).coll e group (Line0.parse line0).seq = some (c.withAgree a) := by
  obtain ⟨-, -, rfl, hq⟩ := M.coll_some hc
  have h := M.coll_changed hc (f := (·.withAgree a)) fun d => Coll.sameKey_iff.2 ⟨rfl, rfl, rfl, rfl, rfl⟩
  rwa [M.agreed, hq]

theorem M.agreeReady_agreed (s : M) (e : Nat) (c : Coll) (a : Agreed) (d : Coll) : (s.agreed e c a).agreeReady d = s.agreeReady d :=
  s.agreeReady_changed e c.group c.seq (f := (·.withAgree a)) (fun _ => ⟨rfl, rfl, rfl, rfl⟩) d

/-- An AGREE that is not the last one waits for the others. -/
theorem agree_waits {s : M} {n : Nat} (h : s.agreeReady c = false) : (agree (n + 1) e c s).2 = s := by
  rw [run_agree_succ, run_agreeUp_waits h]
  rfl

include hl hc hr in
theorem exec_agree_waits (h : c.hearsAgree r (Line0.parse line0))
    (hready : s.m.agreeReady (c.withAgree (c.agreedBy src r (Line0.parse line0))) = false) :
    s.ends (exec (.agree e group src line0) s) fun m => m = { s.m with rly := m.rly } ∧
      m.coll e group (Line0.parse line0).seq = some (c.withAgree (c.agreedBy src r (Line0.parse line0))) := by
  refine ⟨_, exec_agree_heard hl hc hr h, ?_⟩
  rw [agree_waits (by rwa [M.agreeReady_agreed])]
  exact ⟨rfl, M.coll_agreed hc _⟩

/-- With every AGREE taken, this member's goes up. -/
theorem agree_goesUp {s : M} (hw : s.wf = true) (hc : s.coll e c.group c.seq = some c) {n p : Nat} (h : s.agreeReady c = true)
    (hp : c.parent 0 c.me = some p) :
    let m := (agree (n + 1) e c s).2
    s.framed m ∧ m.coll e c.group c.seq = some c.sentUp ∧
      (c.dispute = none → s.postsIf m e c p 0 0 0 (s.verdictOf c) 0 0 0) ∧
      ∀ node d, c.dispute = some (node, d) → s.postsIf m e c p 0 0 node (s.verdictOf c + 8) 0 (trunc 32 d) (d >>> 32) := by
  have ht := M.wf_withEng hw e (·.changed c.group c.seq Coll.sentUp)
  have hcoll := M.coll_changed hc (f := Coll.sentUp) fun d => Coll.sameKey_iff.2 ⟨rfl, rfl, rfl, rfl, rfl⟩
  dsimp only
  rw [run_agree_succ, run_agreeUp_parent h hp, if_neg Bool.false_ne_true]
  dsimp only
  cases c.dispute with
  | none =>
    have hsent := M.onlySent_sendControlMsg ht e c p 0 0 0 (s.verdictOf c) 0 0 0
    exact ⟨hsent.framed, (M.coll_congr hsent.rly _ _ _).trans hcoll, fun _ hs => posted_sendControlMsg ht hs,
      fun _ _ h => (Option.some_ne_none _ h.symm).elim⟩
  | some nd =>
    have hsent := M.onlySent_sendControlMsg ht e c p 0 0 nd.1 (s.verdictOf c + 8) 0 (trunc 32 nd.2) (nd.2 >>> 32)
    refine ⟨hsent.framed, (M.coll_congr hsent.rly _ _ _).trans hcoll, fun h => (Option.some_ne_none _ h).elim, fun node d h hs => ?_⟩
    obtain rfl : nd = (node, d) := Option.some.inj h
    exact posted_sendControlMsg ht hs

/-- A collective that hears GO, and does not end with it, passes it on. -/
theorem M.gone_goes {s : M} (hw : s.wf = true) (hc : s.coll e c.group c.seq = some c) (v : Nat) :
    s.framed (s.gone e c v) ∧ (s.gone e c v).coll e c.group c.seq = some (c.gone v) ∧
      ∀ k ∈ c.kids 0 c.me, s.postsIf (s.gone e c v) e c k 1 0 0 v 0 0 0 := by
  have hcoll := M.coll_changed hc (f := (·.gone v)) fun d => Coll.sameKey_iff.2 ⟨rfl, rfl, rfl, rfl, rfl⟩
  have hsent := M.gone_onlySent (e := e) (c := c) hw v
  exact ⟨hsent.framed, (M.coll_congr hsent.rly _ _ _).trans hcoll, M.gone_posts hw v⟩

/-- With every AGREE taken and no disagreement, the root says GO. -/
theorem agree_rootGoes {s : M} {n : Nat} (h : s.agreeReady c = true) (hp : c.parent 0 c.me = none) (hd : c.dispute = none)
    (hopen : ¬ (c.cd.close = true ∧ c.cd.count = 0)) : (agree (n + 1) e c s).2 = s.gone e c (s.verdictOf c) := by
  rw [run_agree_succ, run_agreeUp_rootAgrees h hp hd, run_goOn_open hopen, if_neg Bool.false_ne_true]

/-- With every AGREE taken and a disagreement among them, the root says NOGO, and ends. -/
theorem agree_rootRefuses {s : M} (hw : s.wf = true) (he : e < 4) (ho : s.onlyColl e c) {n : Nat} (h : s.agreeReady c = true)
    (hp : c.parent 0 c.me = none) {node d : Nat} (hd : c.dispute = some (node, d)) :
    let m := (agree (n + 1) e c s).2
    m.noGroup c.group ∧ ∀ k ∈ c.kids 0 c.me, s.postsIf m e c k 2 0 node 0 9 (trunc 32 d) (d >>> 32) := by
  obtain ⟨hend, -, -, hposts⟩ := noGo_ends hw he ho node d
  dsimp only
  rw [run_agree_succ, run_agreeUp_rootDisputes h hp hd, if_pos rfl, run_afterEnd_noGroup hend.noGroup]
  exact ⟨hend.noGroup, hposts⟩

/-! ### GO -/

include hl hc hr in
theorem exec_go_ignored (h : ¬ c.hearsGo r (Line0.parse line0)) : exec (.go e group src line0) s = .next s := by
  show s.doing (hearGo e group src line0) = _
  rw [State.doing_live s _ hl, hearGo, run_withColl hc hr, run_whenA, if_neg]
  unfold Coll.hearsGo at h
  simpa [and_assoc] using h

include hl hc hr in
theorem exec_go_heard (h : c.hearsGo r (Line0.parse line0)) : exec (.go e group src line0) s =
    (let g := goOn e c (trunc 2 (Line0.parse line0).flags) s.m
     s.becomes (if g.1 then (afterEnd c.group (agree 64) g.2).2 else (takeEarly e c.group c.seq g.2).2)) := by
  show s.doing (hearGo e group src line0) = _
  rw [State.doing_live s _ hl, hearGo, run_withColl hc hr, run_whenA, if_pos]
  · rw [run_bind, run_ite]
    obtain ⟨ended, t⟩ := goOn e c (trunc 2 (Line0.parse line0).flags) s.m
    cases ended <;> rfl
  · obtain ⟨h1, h2, h3, h4⟩ := h
    simp [h1, h2, h3, h4]

/-- With no chunk that came before GO, none is taken up. -/
theorem takeEarly_none {s : M} {seq : Nat} (hc : s.coll e group seq = some c) (hearly : c.early = []) :
    (takeEarly e group seq s).2 = s.withEng e (·.changed group seq fun c => { c with early := [] }) := by
  rw [takeEarly, run_bind, run_get, hc]
  dsimp only
  rw [run_bind, hearly]
  rfl

include hl hc hr in
/-- GO from the parent lets a member begin, and goes on to its children. -/
theorem exec_go_begins (hw : s.m.wf = true) (h : c.hearsGo r (Line0.parse line0)) (hopen : ¬ (c.cd.close = true ∧ c.cd.count = 0))
    (hearly : c.early = []) :
    let w := trunc 2 (Line0.parse line0).flags
    s.ends (exec (.go e group src line0) s) fun m => s.m.framed m ∧ m.coll e c.group c.seq = some (c.gone w) ∧
      ∀ k ∈ c.kids 0 c.me, s.m.postsIf m e c k 1 0 0 w 0 0 0 := by
  obtain ⟨-, -, rfl, hq⟩ := M.coll_some hc
  rw [← hq] at hc
  set w := trunc 2 (Line0.parse line0).flags with hwd
  obtain ⟨hframe, hcoll, hposts⟩ := M.gone_goes hw hc w
  refine ⟨_, exec_go_heard hl (hq ▸ hc) hr h, ?_⟩
  rw [run_goOn_open hopen]
  dsimp only
  rw [if_neg Bool.false_ne_true, takeEarly_none hcoll hearly]
  refine ⟨hframe, ?_, hposts⟩
  rw [M.coll_changed hcoll (f := fun c => { c with early := [] }) fun d => Coll.sameKey_iff.2 ⟨rfl, rfl, rfl, rfl, rfl⟩]
  exact congrArg some (by rw [Coll.gone, ← hearly])

/-- A change that goes on beside the collectives leaves it as it was which entry is bound to a group. -/
theorem M.outlasts.verdictEntry {s t : M} (h : s.outlasts Reg.ofRelay t) (group : Nat) : t.verdictEntry group = s.verdictEntry group := by
  unfold M.verdictEntry
  refine List.find?_congr fun k hk => ?_
  have hk64 := List.mem_range.1 hk
  rw [h.regs _ (by unfold Reg.ofRelay Reg.updVgroup; omega)]

include hl hc hr in
/-- GO from the parent closes the verdict of a collective without elements (R293). -/
theorem exec_go_closes (hw : s.m.wf = true) (he : e < 4) (h : c.hearsGo r (Line0.parse line0)) (hclose : c.cd.close = true)
    (hcount : c.cd.count = 0) (h4 : c.cd.op ≠ 4) (ho : s.m.onlyColl e c) {k : Nat} (hk : s.m.verdictEntry c.group = some k) :
    let w := trunc 2 (Line0.parse line0).flags
    s.ends (exec (.go e group src line0) s) fun m => s.m.endsColl m c 0 ∧ m.verdictStep k = trunc 40 c.step ∧
      m.verdictState k = finalState w := by
  set w := trunc 2 (Line0.parse line0).flags with hwd
  have hsent := M.gone_onlySent (e := e) (c := c) hw w
  have honly : (s.m.gone e c w).onlyColl e c :=
    M.onlyColl_congr hsent.rly (ho.changed he c.group c.seq fun d => Coll.sameKey_iff.2 ⟨rfl, rfl, rfl, rfl, rfl⟩)
  obtain ⟨st, hst, hend⟩ := endColl_ends hsent.out.wf he (c := { c with go := true, verdict := w }) honly false 0
  obtain rfl : st = 0 := hst.resolve_right fun h => h4 h.1
  refine ⟨_, exec_go_heard hl hc hr h, ?_⟩
  rw [run_goOn_closes hclose hcount, if_pos rfl, run_afterEnd_noGroup hend.noGroup]
  refine ⟨⟨hend.noGroup, fun core x hx => ?_⟩, ?_⟩
  · rw [hend.ring core x hx, M.ring_congr hsent.framed.2.1]
    rfl
  · exact endColl_verdict hsent.out.wf (c := { c with go := true, verdict := w }) hclose h4
      ((hsent.out.verdictEntry c.group).trans hk)

/-! ### NOGO, ABORT, the end of the work, and timeouts -/

include hl hc hr in
theorem exec_nogo_ignored (h : ¬ c.hearsNogo r (Line0.parse line0)) : exec (.nogo e group src line0) s = .next s := by
  show s.doing (hearNogo e group src line0) = _
  rw [State.doing_live s _ hl, hearNogo, run_withColl hc hr, run_whenA, if_neg]
  unfold Coll.hearsNogo at h
  simpa [and_assoc] using h

include hl hc hr in
theorem exec_nogo_heard (h : c.hearsNogo r (Line0.parse line0)) : exec (.nogo e group src line0) s =
    (let h := Line0.parse line0
     s.becomes (afterEnd c.group (agree 64) (noGo e c (trunc 12 h.origin) (h.bytes + h.aux <<< 32) s.m).2).2) := by
  show s.doing (hearNogo e group src line0) = _
  rw [State.doing_live s _ hl, hearNogo, run_withColl hc hr, run_whenA, if_pos, run_bind]
  obtain ⟨h1, h2, h3⟩ := h
  simp [h1, h2, h3]

include hl hc hr in
theorem exec_abortMessage_ignored (h : ¬ ((Line0.parse line0).code = 3 ∧ r ∈ c.neighbours)) :
    exec (.abortMessage e group src line0) s = .next s := by
  show s.doing (hearAbort e group src line0) = _
  rw [State.doing_live s _ hl, hearAbort, run_withColl hc hr, run_whenA, if_neg]
  simpa using h

include hl hc hr in
theorem exec_abortMessage_heard (h : (Line0.parse line0).code = 3 ∧ r ∈ c.neighbours) :
    exec (.abortMessage e group src line0) s = s.becomes
      (failColl e c (trunc 16 (Line0.parse line0).elems) (some r) (some (trunc 12 (Line0.parse line0).origin)) s.m).2 := by
  show s.doing (hearAbort e group src line0) = _
  rw [State.doing_live s _ hl, hearAbort, run_withColl hc hr, run_whenA, if_pos (by simpa using h)]

include hl in
theorem exec_collectiveComplete {seq : Nat} (hc : s.m.coll e group seq = some c) : exec (.collectiveComplete e group seq) s =
    if c.workDone then s.becomes (finishColl e c false c.okStatus s.m).2 else .next s := by
  show execCollectiveComplete e group seq s = _
  rw [execCollectiveComplete, State.doing_live s _ hl, run_bind, run_get, hc]
  dsimp only
  rw [run_whenA]
  split <;> rfl

include hl in
theorem exec_progressTimeout {seq : Nat} (hc : s.m.coll e group seq = some c) (ms : Nat) :
    exec (.collectiveProgressTimeout e group seq ms) s =
      if c.limit ≤ ms then s.becomes (failColl e c 0xA none none s.m).2 else .next s := by
  show execCollectiveProgressTimeout e group seq ms s none = _
  rw [execCollectiveProgressTimeout, State.doing_live s _ hl, run_bind, run_get]
  dsimp only
  rw [hc]
  dsimp only
  rw [run_whenA]
  by_cases h : c.limit ≤ ms
  · rw [if_pos h, if_pos (by simpa using h)]
  · rw [if_neg h, if_neg (by simpa using h)]

include hl in
/-- What is no collective neither completes nor times out. -/
theorem exec_end_unknown {seq : Nat} (hc : s.m.coll e group seq = none) :
    exec (.collectiveComplete e group seq) s = .next s ∧
      ∀ ms, exec (.collectiveProgressTimeout e group seq ms) s = .next s := by
  refine ⟨?_, fun ms => ?_⟩
  · show execCollectiveComplete e group seq s = _
    rw [execCollectiveComplete, State.doing_live s _ hl, run_bind, run_get, hc]
    rfl
  · show execCollectiveProgressTimeout e group seq ms s none = _
    rw [execCollectiveProgressTimeout, State.doing_live s _ hl, run_bind, run_get]
    dsimp only
    rw [hc]
    rfl

include hl in
/-- A remote SNAPSHOT that has not come to its limit goes on, and one that is not there does not time out. -/
theorem exec_snapshotTimeout_early {core x seq ms : Nat}
    (h : ∀ f, (s.m.ring core 3).infl.find? (·.shipping x) = some f → ms < f.limit) :
    exec (.collectiveProgressTimeout e group seq ms (some (core, x))) s = .next s := by
  show execCollectiveProgressTimeout e group seq ms s (some (core, x)) = _
  rw [execCollectiveProgressTimeout, State.doing_live s _ hl, run_bind, run_get]
  dsimp only
  cases hf : (s.m.ring core 3).infl.find? (·.shipping x) with
  | none => rfl
  | some f =>
    dsimp only
    rw [run_whenA, if_neg (by simpa using h f hf)]

include hl in
/-- A remote SNAPSHOT that comes to its limit ends with its status; its messages are stopped (R168, R290). -/
theorem exec_snapshotTimeout (hw : s.m.wf = true) {core x seq ms : Nat} {f : InFlight}
    (hf : (s.m.ring core 3).infl.find? (·.shipping x) = some f) (h : f.limit ≤ ms) :
    s.ends (exec (.collectiveProgressTimeout e group seq ms (some (core, x))) s) fun m => s.m.sameStores m ∧
      (m.ring core 3).infl = (s.m.ring core 3).infl.map fun f => if f.x = x ∧ !f.done then { f with
        done := true, own := 0xA, result := 0 } else f := by
  set t := (stopMessages (fun o => o == .snapshot core x) s.m).2 with ht
  have hstop : ∀ e group seq, ((Owner.control e group seq) == .snapshot core x) = false := fun _ _ _ => rfl
  obtain ⟨hstores, hcores, -⟩ : s.m.framed t := (M.framed.aboutSends s.m).keeps_stopMessages hstop _ (.refl _)
  have htw : t.wf = true := keepsWf_stopMessages _ _ hw
  refine ⟨(endRingOp core x 0xA 0 0 t).2, ?_, hstores, ?_⟩
  · show execCollectiveProgressTimeout e group seq ms s (some (core, x)) = _
    rw [execCollectiveProgressTimeout, State.doing_live s _ hl, run_bind, run_get]
    dsimp only
    rw [hf]
    dsimp only
    rw [run_whenA, if_pos (by simpa using h)]
    rfl
  · have hring : (endRingOp core x 0xA 0 0 t).2 = t.withRing core 3 fun g => { g with infl := g.infl.map fun f =>
        if f.x = x ∧ !f.done then { f with done := true, own := 0xA, flags := f.flags ||| 0, result := 0 } else f } := rfl
    rw [hring, M.ring_withRing_self htw, M.ring_congr hcores]
    simp only [Nat.or_zero]

end

/-! ## Poisoned lines stay poisoned (R201 to R203) -/

/-- A line with other data and check symbols leaves the codeword of every other line alone. -/
theorem M.codeword_setLine_other (s : M) {l l' : Nat} (h : l' ≠ l) {bs : List Byte} (hbs : bs.length = 32) {vs : List Nat}
    (hvs : vs.length = 4) : ((s.setBytes (32 * l) bs).setChks l 0 vs).codeword l' = s.codeword l' := by
  have hbytes : ((s.setBytes (32 * l) bs).setChks l 0 vs).bytes (32 * l') 32 = s.bytes (32 * l') 32 :=
    List.map_congr_left fun i hi => by
      have hi32 := List.mem_range.1 hi
      rw [M.byte_setChks, M.byte_setBytes_other _ _ _ _ (by omega)]
  have hchecks : ((s.setBytes (32 * l) bs).setChks l 0 vs).checks l' = s.checks l' := by
    rw [M.checks_setChks_other _ h _ _ (by omega)]
    simp only [M.checks, M.setBytes_chk]
  rw [M.codeword, hbytes, hchecks, M.codeword]

/-- Other check symbols leave the codeword of every other line alone. -/
theorem M.codeword_setChks_other (s : M) {l l' : Nat} (h : l' ≠ l) {vs : List Nat} (hvs : vs.length = 4) :
    (s.setChks l 0 vs).codeword l' = s.codeword l' := by
  have hbytes : (s.setChks l 0 vs).bytes (32 * l') 32 = s.bytes (32 * l') 32 :=
    List.map_congr_left fun i _ => M.byte_setChks _ _ _ _ _
  rw [M.codeword, hbytes, M.checks_setChks_other _ h _ _ (by omega), M.codeword]

theorem aboutLogs_codeword (l : Nat) (w : List Nat) : AboutLogs (fun t => t.codeword l = w) where
  setReg _ _ h := h
  out _ h := h
  ports _ h := h
  clock _ h := h
  rally _ _ _ h := h
  log _ h := h
  cxl _ h := h

/-- A line that is poisoned is read as poisoned, and its codeword stays (R203). -/
theorem readLine_poisoned {s : M} {l : Nat} (h : rsDecode (s.codeword l) = .poisoned) :
    (readLine l s).1 = true ∧ (readLine l s).2.codeword l = s.codeword l := by
  have hP := aboutLogs_codeword l (s.codeword l)
  have hrun : readLine l s = (do
      inc64 Reg.memPoisonReads
      wr Reg.memLastErr (lastErr (storeSource l) 3 (32 * l) (syndNum (s.codeword l)) 63)
      sliceEvent l 0x12A
      pure true : Act Bool) s := by
    rw [readLine, run_bind, run_get]
    dsimp only
    rw [h]
  rw [hrun]
  exact ⟨rfl, hP.keeps_sliceEvent l 0x12A _ rfl⟩

/-- A read of any line leaves a poisoned line poisoned. -/
theorem keeps_readLine_poisoned (l k : Nat) : Keeps (fun t => rsDecode (t.codeword l) = .poisoned) (readLine k) := fun s h => by
  have hcw : (readLine k s).2.codeword l = s.codeword l := by
    by_cases hk : l = k
    · subst hk
      exact (readLine_poisoned h).2
    · exact (aboutLogs_codeword l (s.codeword l)).keeps_readLine
        (fun _ _ hbs hvs ht => (M.codeword_setLine_other _ hk hbs hvs).trans ht)
        (fun _ hvs ht => (M.codeword_setChks_other _ hk hvs).trans ht) s rfl
  exact (congrArg rsDecode hcw).trans h

/-- A poisoned line is among those that a read answers as poisoned. -/
theorem mem_readLines_poisoned {s : M} {l : Nat} {ls : List Nat} (hl : l ∈ ls) (h : rsDecode (s.codeword l) = .poisoned) :
    l ∈ (readLines ls s).1 := by
  have hmap : (l, true) ∈ (mapA ls (fun l => do
      let p ← readLine l
      pure (l, p)) s).1 := by
    induction ls generalizing s with
    | nil => exact absurd hl List.not_mem_nil
    | cons k ls ih =>
      rw [run_mapA_cons, run_bind, run_pure]
      rcases List.mem_cons.1 hl with rfl | hl
      · rw [(readLine_poisoned h).1]
        exact List.mem_cons_self
      · exact List.mem_cons_of_mem _ (ih hl (keeps_readLine_poisoned l k s h))
  rw [readLines, run_bind, run_pure]
  exact List.mem_map.2 ⟨(l, true), List.mem_filter.2 ⟨hmap, rfl⟩, rfl⟩

/-- A read of bytes in a poisoned line answers so. -/
theorem readBytes_poisoned {s : M} {a n l : Nat} (hl : l ∈ linesOf a n) (h : rsDecode (s.codeword l) = .poisoned) :
    (readBytes a n s).1.1 = true := by
  have hne := List.ne_nil_of_mem (mem_readLines_poisoned hl h)
  rw [readBytes, run_bind]
  show (!((readLines (linesOf a n) s).1).isEmpty) = true
  simpa using hne

/-! ## What stays of caches and queues, whatever collectives do -/

/-- The cached group records are the same, and the queues with their WR. -/
def M.sameTables (s t : M) : Prop :=
  (∀ k, (t.eng k).cache = (s.eng k).cache) ∧
    t.rly.queues.map (fun q => (q.group, q.wr)) = s.rly.queues.map (fun q => (q.group, q.wr))

theorem M.sameTables.refl (s : M) : s.sameTables s := ⟨fun _ => rfl, rfl⟩

theorem M.sameTables.aboutStores (s : M) : AboutStores s.sameTables := aboutStores_of_rly fun h ⟨hc, hq⟩ =>
  ⟨fun k => (congrArg RelayEng.cache (M.eng_congr h k)).trans (hc k), (congrArg (fun r : Relay => r.queues.map _) h).trans hq⟩

theorem M.sameTables.keeps_wr (s : M) (o v : Nat) : Keeps s.sameTables (wr o v) := fun _ h => h

theorem M.sameTables.keeps_inc64 (s : M) (o : Nat) : Keeps s.sameTables (inc64 o) := fun _ h => h

/-- A change of an engine that leaves its cache alone. -/
theorem M.sameTables.withEng {s t : M} (h : s.sameTables t) (e : Nat) {f : RelayEng → RelayEng} (hf : ∀ g, (f g).cache = g.cache) :
    s.sameTables (t.withEng e f) :=
  ⟨fun k => (t.eng_withEng_field e RelayEng.cache hf k).trans (h.1 k), by rw [M.withEng, Relay.queues_withEng]; exact h.2⟩

/-- RD of a queue moves on. -/
theorem M.sameTables.setRd {s t : M} (h : s.sameTables t) (group rd : Nat) :
    s.sameTables { t with rly := { t.rly with queues := t.rly.queues.map fun q =>
      if q.group = group then { q with rd := rd } else q } } := by
  refine ⟨h.1, Eq.trans ?_ h.2⟩
  rw [List.map_map]
  refine List.map_congr_left fun q _ => ?_
  rw [Function.comp_apply]
  split
  · rfl
  · rfl

section
variable (s : M)

theorem keepsTables_updEng (e : Nat) {f : RelayEng → RelayEng} (hf : ∀ g, (f g).cache = g.cache) : Keeps s.sameTables (updEng e f) :=
  fun _ h => h.withEng e hf

theorem keepsTables_endQueueOp (g : GroupRec) (group x status flags result : Nat) :
    Keeps s.sameTables (endQueueOp g group x status flags result) :=
  (M.sameTables.aboutStores s).keeps_endQueueOp fun _ h => h.setRd group _

theorem keepsTables_endColl (e : Nat) (c : Coll) (failed : Bool) (status : Nat) : Keeps s.sameTables (endColl e c failed status) :=
  have hP := M.sameTables.aboutStores s
  hP.keeps_endColl (fun _ h => h.withEng e fun _ => rfl) fun st =>
    keeps_bind (hP.keeps_countEnd (fun o _ => M.sameTables.keeps_inc64 s o) e st) fun _ =>
      keeps_bind (hP.keeps_wrapUp e c failed st
        (keeps_closeVerdict (fun _ _ => M.sameTables.keeps_wr s _) (M.sameTables.keeps_inc64 s _) (M.sameTables.keeps_inc64 s _) c failed st))
        fun _ => hP.keeps_completeColl (fun _ _ _ _ h => h) fun _ _ h => h.setRd _ _

theorem keepsTables_enqueue (c : Coll) : Keeps s.sameTables (enqueue c) :=
  keeps_getThen fun _ => keeps_bind (keepsTables_updEng s _ fun _ => rfl) fun _ => keeps_whenA (keepsTables_endColl s _ c true 9)

theorem keepsTables_takeQueue (group n : Nat) : Keeps s.sameTables (takeQueue group n) := by
  have hP := M.sameTables.aboutStores s
  induction n with
  | zero => exact keeps_pure ()
  | succ n ih =>
    refine keeps_getThen fun t => ?_
    dsimp only
    split
    · exact keeps_pure ()
    · next q _ =>
      have hend := fun g status => keeps_bind (keepsTables_endQueueOp s g group q.rd status 0 0) fun _ => ih
      refine keeps_ite (keeps_pure ()) (keeps_bind (keeps_getThen fun _ => hP.keeps_readLine _) fun gp =>
        keeps_bind (hP.keeps_readBytes _ _) fun pb => ?_)
      refine keeps_bind (hP.keeps_relayEvent _ _ _) fun _ => keeps_bind (keeps_mapA fun _ =>
        keeps_bind (hP.keeps_readBytes _ _) fun _ => keeps_pure _) fun ds => keeps_getThen fun u => ?_
      exact keeps_ite (hend _ _) (keeps_ite (hend _ _) (keeps_bind (keepsTables_enqueue s _) fun _ => ih))

theorem keepsTables_afterEnd (group : Nat) {f : Nat → Coll → Act Unit} (hf : ∀ e c, Keeps s.sameTables (f e c)) :
    Keeps s.sameTables (afterEnd group f) :=
  keeps_getThen fun _ => keeps_bind (keeps_forA fun _ => keeps_forA fun _ => hf _ _) fun _ => keepsTables_takeQueue s group 4096

theorem keepsTables_updColl (e group seq : Nat) (f : Coll → Coll) : Keeps s.sameTables (updColl e group seq f) :=
  keepsTables_updEng s e fun _ => rfl

theorem keepsTables_noGo (e : Nat) (c : Coll) (node digest : Nat) : Keeps s.sameTables (noGo e c node digest) :=
  have hP := M.sameTables.aboutStores s
  keeps_bind (keeps_forA fun _ => hP.keeps_sendControlMsg _ _ _ _ _ _ _ _ _ _) fun _ =>
    keeps_bind (keeps_logMismatch hP (M.sameTables.keeps_wr s _) node digest) fun _ => keepsTables_endColl s _ _ _ _

theorem keepsTables_goOn (e : Nat) (c : Coll) (v : Nat) : Keeps s.sameTables (goOn e c v) :=
  keeps_bind (keepsTables_updColl s _ _ _ _) fun _ =>
    keeps_bind (keeps_forA fun _ => (M.sameTables.aboutStores s).keeps_sendControlMsg _ _ _ _ _ _ _ _ _ _) fun _ =>
      keeps_ite (keeps_bind (keepsTables_endColl s _ _ _ _) fun _ => keeps_pure _) (keeps_pure _)

theorem keepsTables_agreeUp (e : Nat) (c : Coll) : Keeps s.sameTables (agreeUp e c) := by
  have hsend := (M.sameTables.aboutStores s).keeps_sendControlMsg e c
  refine keeps_getThen fun t => keeps_ite (keeps_pure _) ?_
  dsimp only
  split
  · refine keeps_bind (keepsTables_updColl s _ _ _ _) fun _ => ?_
    split
    · exact keeps_bind (hsend _ _ _ _ _ _ _ _) fun _ => keeps_pure _
    · exact keeps_bind (hsend _ _ _ _ _ _ _ _) fun _ => keeps_pure _
  · split
    · exact keeps_bind (keepsTables_noGo s _ _ _ _) fun _ => keeps_pure _
    · exact keepsTables_goOn s _ _ _

theorem keepsTables_agree (n e : Nat) (c : Coll) : Keeps s.sameTables (agree n e c) := by
  induction n generalizing e c with
  | zero => exact keeps_pure ()
  | succ n ih => exact keeps_bind (keepsTables_agreeUp s e c) fun _ => keeps_whenA (keepsTables_afterEnd s _ ih)

theorem keepsTables_finishColl (e : Nat) (c : Coll) (failed : Bool) (status : Nat) :
    Keeps s.sameTables (finishColl e c failed status) :=
  keeps_bind (keepsTables_endColl s _ _ _ _) fun _ => keepsTables_afterEnd s _ (keepsTables_agree s 64)

end

/-! ## Group records (R275) -/

theorem M.take_drop_bytes (s : M) (a : Nat) {n k j : Nat} (h : k + j ≤ n) : ((s.bytes a n).drop k).take j = s.bytes (a + k) j := by
  refine List.ext_getElem (by simp [M.bytes]; omega) fun i hi hi' => ?_
  simp [M.bytes, Nat.add_assoc]

/-- Is a record wanted at an engine: does a collective wait for it, and is it not cached? -/
def M.wantsRecord (s : M) (e group : Nat) : Prop :=
  (∃ c ∈ (s.eng e).colls, c.group = group) ∧ ∀ x ∈ (s.eng e).cache, x.1 ≠ group

/-- What is done for a record that is wanted. -/
def fetchWanted (e group : Nat) (s : M) : Act Unit := do
  let (p, bs) ← readBytes (s.reg Reg.rlyGroupBase + 32 * group) 32
  let g := GroupRec.parse (leNat bs)
  let (q, ms) ← readBytes g.members (2 * min g.p 4096)
  let nodes := (List.range (min g.p 4096)).map fun i => bits (leNat ((ms.drop (2 * i)).take 2)) 11 0
  inc64 (Reg.rlyGcacheMiss e)
  relayEvent e 0x30C 1
  if p || q then forA ((s.eng e).colls.filter fun c => c.group == group && !c.started) fun c => finishColl e c true 3
  else updEng e fun r =>
    { r with cache := (if r.cache.length ≥ 256 then r.cache.drop 1 else r.cache) ++ [(group, leNat bs, nodes)] }

section
variable {s : State} (hl : s.m.board.live = true) {e group : Nat}
include hl

theorem exec_fetch_unwanted (h : ¬ s.m.wantsRecord e group) : exec (.groupRecordFetchDone e group) s = .next s := by
  show s.doing (fetchGroup e group) = _
  rw [State.doing_live s _ hl, fetchGroup, run_bind, run_get, run_whenA, if_neg]
  unfold M.wantsRecord at h
  simpa using h

theorem exec_fetch_wanted (h : s.m.wantsRecord e group) :
    exec (.groupRecordFetchDone e group) s = s.becomes (fetchWanted e group s.m s.m).2 := by
  show s.doing (fetchGroup e group) = _
  rw [State.doing_live s _ hl, fetchGroup, run_bind, run_get, run_whenA, if_pos]
  · rw [fetchWanted]
  · obtain ⟨hc, hx⟩ := h
    simpa using And.intro hc hx

end

/-! ## What a fetched group record brings -/

/-- The nodes of a group's members, from the list that its record points to. -/
def M.memberNodes (s : M) (g : GroupRec) : List Nat :=
  (List.range (min g.p 4096)).map fun i => bits (s.num (g.members + 2 * i) 2) 11 0

/-- A cache with one record more, of 256 at most (R275). -/
def cacheWith (cache : List (Nat × Nat × List Nat)) (x : Nat × Nat × List Nat) : List (Nat × Nat × List Nat) :=
  (if 256 ≤ cache.length then cache.drop 1 else cache) ++ [x]

section
variable {s : M} {e group : Nat}

/-- A record whose lines are sound is counted and cached. -/
theorem run_fetchWanted_clean (hr : s.clean (linesOf (s.reg Reg.rlyGroupBase + 32 * group) 32))
    (hm : s.clean (linesOf (s.groupRec group).members (2 * min (s.groupRec group).p 4096))) :
    (fetchWanted e group s s).2 =
      (relayEvent e 0x30C 1 (s.setReg (Reg.rlyGcacheMiss e) (trunc 64 (s.reg (Reg.rlyGcacheMiss e) + 1)))).2.withEng e fun r =>
        { r with cache := cacheWith r.cache
                  (group, s.num (s.reg Reg.rlyGroupBase + 32 * group) 32, s.memberNodes (s.groupRec group)) } := by
  have hnodes : ((List.range (min (s.groupRec group).p 4096)).map fun i =>
      bits (leNat (((s.bytes (s.groupRec group).members (2 * min (s.groupRec group).p 4096)).drop (2 * i)).take 2)) 11 0) =
      s.memberNodes (s.groupRec group) := List.map_congr_left fun i hi => by
    have hip := List.mem_range.1 hi
    rw [M.take_drop_bytes _ _ (by omega)]
    rfl
  rw [fetchWanted, run_bind, run_readBytes_ok _ _ _ hr]
  dsimp only
  rw [run_bind]
  rw [M.groupRec, M.num] at hm hnodes
  rw [run_readBytes_ok _ _ _ hm]
  dsimp only
  rw [hnodes]
  rfl

theorem fetchWanted_clean (hw : s.wf = true) (he : e < 4) (hr : s.clean (linesOf (s.reg Reg.rlyGroupBase + 32 * group) 32))
    (hm : s.clean (linesOf (s.groupRec group).members (2 * min (s.groupRec group).p 4096))) :
    let m := (fetchWanted e group s s).2
    s.framed m ∧ (m.eng e).cache = cacheWith (s.eng e).cache
        (group, s.num (s.reg Reg.rlyGroupBase + 32 * group) 32, s.memberNodes (s.groupRec group)) ∧
      (m.eng e).colls = (s.eng e).colls ∧ m.reg (Reg.rlyGcacheMiss e) = trunc 64 (s.reg (Reg.rlyGcacheMiss e) + 1) := by
  set t := s.setReg (Reg.rlyGcacheMiss e) (trunc 64 (s.reg (Reg.rlyGcacheMiss e) + 1)) with ht
  have hframe : s.framed (relayEvent e 0x30C 1 t).2 := (M.framed.aboutSends s).keeps_relayEvent e 0x30C 1 t (.refl s)
  have hrly : (relayEvent e 0x30C 1 t).2.rly = s.rly := (aboutStores_sameRly s.rly).keeps_relayEvent e 0x30C 1 t rfl
  dsimp only
  rw [run_fetchWanted_clean hr hm]
  refine ⟨hframe, ?_, ?_, ?_⟩
  · rw [M.eng_withEng_self, M.eng_congr hrly]
  · rw [M.eng_withEng_self, M.eng_congr hrly]
  · have ho : Reg.ofRelay (Reg.rlyGcacheMiss e) := by
      unfold Reg.ofRelay Reg.rlyGcacheMiss
      omega
    exact (reg_relayEvent (M.wf_setReg _ _ hw) ho 0x30C 1).trans (M.reg_setReg_self _ _ _ hw)

/-- A poisoned line of the record ends those that wait for it, and caches nothing. -/
theorem fetchWanted_poisoned {l : Nat} (hlm : l ∈ linesOf (s.reg Reg.rlyGroupBase + 32 * group) 32)
    (h : rsDecode (s.codeword l) = .poisoned) : s.sameTables (fetchWanted e group s s).2 := by
  have hP := M.sameTables.aboutStores s
  have hp := readBytes_poisoned hlm h
  have hread := hP.keeps_readBytes (s.reg Reg.rlyGroupBase + 32 * group) 32 s (.refl s)
  rw [fetchWanted, run_bind]
  generalize readBytes (s.reg Reg.rlyGroupBase + 32 * group) 32 s = r at *
  obtain ⟨⟨p, bs⟩, t⟩ := r
  obtain rfl : p = true := hp
  have hrest : Keeps s.sameTables (do
      let (q, ms) ← readBytes (GroupRec.parse (leNat bs)).members (2 * min (GroupRec.parse (leNat bs)).p 4096)
      let nodes := (List.range (min (GroupRec.parse (leNat bs)).p 4096)).map fun i => bits (leNat ((ms.drop (2 * i)).take 2)) 11 0
      inc64 (Reg.rlyGcacheMiss e)
      relayEvent e 0x30C 1
      if true || q then forA ((s.eng e).colls.filter fun c => c.group == group && !c.started) fun c => finishColl e c true 3
      else updEng e fun r =>
        { r with cache := (if r.cache.length ≥ 256 then r.cache.drop 1 else r.cache) ++ [(group, leNat bs, nodes)] }) :=
    keeps_bind (hP.keeps_readBytes _ _) fun _ => keeps_bind (M.sameTables.keeps_inc64 s _) fun _ =>
      keeps_bind (hP.keeps_relayEvent _ _ _) fun _ => keeps_forA fun c => keepsTables_finishColl s e c true 3
  exact hrest t hread

end

/-! ## The start of a collective (R275, R281, R282) -/

/-- A collective with its digest, and the blocks that have arrived. -/
def Coll.withDigest (c : Coll) (digest : Nat) (blocks : List (Nat × Nat × Nat)) : Coll := { c with digest := digest, blocks := blocks }

/-- A queued collective as it starts, with the record that is cached and LEN as it was read. -/
def Coll.startedWith (c : Coll) (rec : Nat) (members : List Nat) (units : List (Nat × Nat)) (poison : Bool) (len : Nat) : Coll :=
  let c := { c with started := true, grp := rec, members := members, len := len, poison := poison, units := units }
  c.withDigest c.digestNow (if c.cd.op = 4 ∧ (c.parent 0 c.me).isNone then
    [((GroupRec.parse rec).rank, min len c.cd.count, len - c.cd.count)] else [])

theorem Coll.digest_withDigest (c : Coll) (digest : Nat) (blocks : List (Nat × Nat × Nat)) :
    (c.withDigest digest blocks).digest = digest := rfl

/-- The digest does not cover itself. -/
theorem Coll.digestNow_withDigest (c : Coll) (digest : Nat) (blocks : List (Nat × Nat × Nat)) :
    (c.withDigest digest blocks).digestNow = c.digestNow := by
  have hblock : (c.withDigest digest blocks).digestBlock = c.digestBlock := rfl
  rw [Coll.digestNow, Coll.digestNow, hblock]

theorem Coll.startedWith_digest (c : Coll) (rec : Nat) (members : List Nat) (units : List (Nat × Nat)) (poison : Bool) (len : Nat) :
    (c.startedWith rec members units poison len).digest = (c.startedWith rec members units poison len).digestNow :=
  (Coll.digest_withDigest _ _ _).trans (Coll.digestNow_withDigest _ _ _).symm

/-- What a collective does as it starts: it takes its place, and agrees. -/
def beginColl (e i : Nat) (c : Coll) (drop : Nat) : Act Unit := do
  updEng e fun g => { g with colls := g.colls.set i c }
  noteLast e c.group c.seq
  relayEvent e 0x300 1
  whenA (c.cd.op == 4) (addReg 64 Reg.rlyCapDrops drop)
  whenA c.cd.close do
    let s ← get
    match s.verdictEntry c.group with
    | none => pure ()
    | some n => setVerdict n 1 0 c.step
  sweepQueued e c.group
  agree 64 e c

/-- The place in an engine's order of the collective that is to start next. -/
def M.nextAt (s : M) (e : Nat) : Option Nat := (s.eng e).colls.findIdx? fun c => !c.started

/-- May a collective start, with a record: is an active place free, and does its staging fit? -/
def M.fits (s : M) (e : Nat) (c : Coll) (rec : Nat) : Prop :=
  ((s.eng e).colls.filter (·.started)).length < 64 ∧
    s.staged e + c.cd.staging (GroupRec.parse rec) ≤ 1024 * s.reg (Reg.rlyStageSize e)

/-- Is a SEQ not below those that the engine has started in the group? -/
def M.newer (s : M) (e group seq : Nat) : Prop := ∀ l, s.last e group = some l → trunc 32 (seq + 2 ^ 32 - l) < 2 ^ 31

section
variable {s : State} (hl : s.m.board.live = true) {e : Nat}
include hl

theorem exec_start_none (h : ∀ c ∈ (s.m.eng e).colls, c.started = true) : exec (.collectiveStart e) s = .next s := by
  have hnone : (s.m.eng e).colls.findIdx? (fun c => !c.started) = none := List.findIdx?_eq_none_iff.2 fun c hc => by simp [h c hc]
  show s.doing (startNext e) = _
  rw [State.doing_live s _ hl, startNext, run_bind, run_get]
  dsimp only
  rw [hnone]
  rfl

variable {i : Nat} {c : Coll} (hi : s.m.nextAt e = some i) (hc : (s.m.eng e).colls[i]? = some c)
include hi hc

theorem exec_start_uncached (h : (s.m.eng e).cache.find? (·.1 = c.group) = none) : exec (.collectiveStart e) s = .next s := by
  unfold M.nextAt at hi
  show s.doing (startNext e) = _
  rw [State.doing_live s _ hl, startNext, run_bind, run_get]
  dsimp only
  rw [hi]
  dsimp only
  rw [hc]
  dsimp only
  rw [h]
  rfl

variable {x rec : Nat} {nodes : List Nat} (hx : (s.m.eng e).cache.find? (·.1 = c.group) = some (x, rec, nodes))
include hx

theorem exec_start_waits (h : ¬ s.m.fits e c rec) : exec (.collectiveStart e) s = .next s := by
  unfold M.nextAt at hi
  unfold M.fits at h
  show s.doing (startNext e) = _
  rw [State.doing_live s _ hl, startNext, run_bind, run_get]
  dsimp only
  rw [hi]
  dsimp only
  rw [hc]
  dsimp only
  rw [hx]
  dsimp only
  rw [if_pos (by omega)]
  rfl

theorem exec_start_fits (h : s.m.fits e c rec) (h4 : c.cd.op ≠ 4) : exec (.collectiveStart e) s =
    s.becomes (beginColl e i (c.startedWith rec nodes (s.m.stagingRuns e (c.cd.staging (GroupRec.parse rec))) false (leNat []))
      (leNat [] - c.cd.count) s.m).2 := by
  unfold M.nextAt at hi
  obtain ⟨hplace, hstage⟩ := h
  show s.doing (startNext e) = _
  rw [State.doing_live s _ hl, startNext, run_bind, run_get]
  dsimp only
  rw [hi]
  dsimp only
  rw [hc]
  dsimp only
  rw [hx]
  dsimp only
  rw [if_neg (by omega), if_neg h4]
  rfl

end

/-! ## What a collective that starts leaves behind -/

theorem M.framed.trans {s t u : M} (h : s.framed t) (h' : t.framed u) : s.framed u := by
  obtain ⟨hstores, hcores, hboot, hsec⟩ := h
  obtain ⟨hstores', hcores', hboot', hsec'⟩ := h'
  refine ⟨⟨hstores'.1.trans hstores.1, hstores'.2.trans hstores.2⟩, hcores'.trans hcores, hboot'.trans hboot, ?_⟩
  rw [← hsec'] at hsec
  exact hsec

/-- From s to t a collective has taken place i of engine e; LAST of its group has risen to its SEQ if that is newer. -/
structure M.startedAt (s t : M) (e i : Nat) (c : Coll) : Prop where
  wf : t.wf = true
  framed : s.framed t
  colls : (t.eng e).colls = (s.eng e).colls.set i c
  newer : s.newer e c.group c.seq → t.last e c.group = some c.seq
  older : ¬ s.newer e c.group c.seq → t.last e c.group = s.last e c.group
  others : ∀ k, k < 4 → k ≠ e → t.eng k = s.eng k

theorem M.last_congr {s t : M} {e : Nat} (h : (t.eng e).last = (s.eng e).last) (group : Nat) : t.last e group = s.last e group := by
  rw [M.last, M.last, h]

/-- What is noted of a SEQ is newer than what was, or nothing is noted. -/
theorem run_noteLast_newer {s : M} {e group seq : Nat} (h : s.newer e group seq) : (noteLast e group seq s).2 =
    s.withEng e fun g => { g with last := (g.last.filter (·.1 ≠ group)) ++ [(group, seq)] } := by
  rw [noteLast, run_bind, run_get]
  unfold M.newer at h
  dsimp only
  cases hl : s.last e group with
  | none => rfl
  | some l =>
    rw [run_whenA, if_pos (by simpa using h l hl)]
    rfl

theorem run_noteLast_older {s : M} {e group seq : Nat} (h : ¬ s.newer e group seq) : (noteLast e group seq s).2 = s := by
  rw [noteLast, run_bind, run_get]
  unfold M.newer at h
  dsimp only
  cases hl : s.last e group with
  | none => exact absurd (fun l hl' => absurd (hl ▸ hl') (by simp)) h
  | some l =>
    rw [run_whenA, if_neg]
    exact fun hlt => h fun l' hl' => by
      obtain rfl : l = l' := Option.some.inj (hl.symm.trans hl')
      simpa using hlt

theorem M.last_noted (s : M) (e group seq : Nat) :
    (s.withEng e fun g => { g with last := (g.last.filter (·.1 ≠ group)) ++ [(group, seq)] }).last e group = some seq := by
  have hnone : ((s.eng e).last.filter (·.1 ≠ group)).find? (·.1 = group) = none :=
    List.find?_eq_none.2 fun x hx => by simpa using (List.mem_filter.1 hx).2
  rw [M.last, M.eng_withEng_self, List.find?_append, hnone]
  simp

/-- The machine in which a collective has taken its place, and nothing has been said of it. -/
def M.starting (s : M) (e i : Nat) (c : Coll) : M :=
  (relayEvent e 0x300 1 (noteLast e c.group c.seq (s.withEng e fun g => { g with colls := g.colls.set i c })).2).2

section
variable {s t u : M} {e i : Nat} {c : Coll}

/-- What is sent of a collective leaves it where it is. -/
theorem M.startedAt.sent (h : s.startedAt t e i c) (hu : t.onlySent u) : s.startedAt u e i c where
  wf := hu.out.wf
  framed := h.framed.trans hu.framed
  colls := (congrArg RelayEng.colls (M.eng_congr hu.rly e)).trans h.colls
  newer hn := (M.last_congr (congrArg RelayEng.last (M.eng_congr hu.rly e)) _).trans (h.newer hn)
  older hn := (M.last_congr (congrArg RelayEng.last (M.eng_congr hu.rly e)) _).trans (h.older hn)
  others k hk hke := (M.eng_congr hu.rly k).trans (h.others k hk hke)

/-- A change of the collective under its group and SEQ changes it alone, if no other is active under them. -/
theorem M.startedAt.changed (h : s.startedAt t e i c) (he : e < 4) (hs : c.started = true) (hnone : s.coll e c.group c.seq = none)
    {f : Coll → Coll} (hf : ∀ d, (f d).sameKey d = true) :
    s.startedAt (t.withEng e (·.changed c.group c.seq f)) e i (f c) := by
  obtain ⟨-, hg, hq, -⟩ := Coll.sameKey_iff.1 (hf c)
  have hlast : (t.withEng e (·.changed c.group c.seq f)).last e c.group = t.last e c.group :=
    M.last_congr (by rw [M.eng_withEng_self]; rfl) _
  refine ⟨M.wf_withEng h.wf _ _, h.framed, ?_, ?_, ?_, fun k hk hke => ?_⟩
  · have hkeep : ((s.eng e).colls.map fun d => if d.started && d.group == c.group && d.seq == c.seq then f d else d) =
        (s.eng e).colls := by
      refine (List.map_congr_left fun d hd => if_neg ?_).trans (List.map_id' _)
      simpa using List.find?_eq_none.1 hnone d hd
    rw [M.eng_withEng_self]
    show (t.eng e).colls.map _ = _
    rw [h.colls, List.map_set, hkeep]
    simp [hs]
  · rw [hg, hq, hlast]
    exact h.newer
  · rw [hg, hq, hlast]
    exact h.older
  · rw [M.eng_withEng_other _ he hk hke]
    exact h.others k hk hke

theorem M.startedAt_starting (hw : s.wf = true) (he : e < 4) (i : Nat) (c : Coll) : s.startedAt (s.starting e i c) e i c := by
  set t := s.withEng e fun g => { g with colls := g.colls.set i c } with ht
  have hlast : t.last e c.group = s.last e c.group := M.last_congr (by rw [ht, M.eng_withEng_self]) _
  have hnewer : t.newer e c.group c.seq ↔ s.newer e c.group c.seq := by rw [M.newer, M.newer, hlast]
  have hcolls : (t.eng e).colls = (s.eng e).colls.set i c := by rw [ht, M.eng_withEng_self]
  have hnoted : s.startedAt (noteLast e c.group c.seq t).2 e i c := by
    by_cases hn : s.newer e c.group c.seq
    · rw [run_noteLast_newer (hnewer.2 hn)]
      refine ⟨M.wf_withEng (M.wf_withEng hw _ _) _ _, .refl s, ?_, fun _ => M.last_noted t e _ _, fun h => absurd hn h, fun k hk hke => ?_⟩
      · rw [M.eng_withEng_self, hcolls]
      · rw [M.eng_withEng_other _ he hk hke, ht, M.eng_withEng_other _ he hk hke]
    · rw [run_noteLast_older (mt hnewer.1 hn)]
      exact ⟨M.wf_withEng hw _ _, .refl s, hcolls, fun h => absurd h hn, fun _ => hlast,
        fun k hk hke => M.eng_withEng_other _ he hk hke _⟩
  refine hnoted.sent ⟨?_, ?_, ?_⟩
  · exact (M.framed.aboutSends _).keeps_relayEvent e 0x300 1 _ (.refl _)
  · exact (aboutStores_sameRly _).keeps_relayEvent e 0x300 1 _ rfl
  · exact (M.outlasts.aboutStores _ fun _ h => h).keeps_relayEvent e 0x300 1 _ (.refl hnoted.wf)

/-- With no other collective of its group queued, a start leaves none behind. -/
theorem run_sweepQueued_none {group : Nat}
    (h : ∀ d ∈ (t.eng e).colls, d.started = false → d.group ≠ group) : sweepQueued e group t = ((), t) := by
  have hnil : (t.eng e).colls.filter (fun c => !c.started && c.group == group &&
      (t.behind e group c.seq || (t.coll e group c.seq).isSome)) = [] := List.filter_eq_nil_iff.2 fun d hd => by
    cases hs : d.started with
    | true => simp
    | false => simp [h d hd hs]
  rw [sweepQueued, run_bind, run_get]
  dsimp only
  rw [hnil, run_forA_nil]

/-- A collective, or what it is once its AGREE has gone up, or GO down. -/
def Coll.begun (c c' : Coll) : Prop := c' = c ∨ c' = c.sentUp ∨ ∃ v, c' = c.gone v

/-- A collective that begins is the one that has started, in what its record and its digest depend on. -/
theorem Coll.begun.same {c c' : Coll} (h : c.begun c') : c'.group = c.group ∧ c'.seq = c.seq ∧ c'.started = c.started ∧
    c'.grp = c.grp ∧ c'.members = c.members ∧ c'.od = c.od ∧ c'.digest = c.digest ∧ c'.digestBlock = c.digestBlock := by
  rcases h with rfl | rfl | ⟨v, rfl⟩
  · exact ⟨rfl, rfl, rfl, rfl, rfl, rfl, rfl, rfl⟩
  · exact ⟨rfl, rfl, rfl, rfl, rfl, rfl, rfl, rfl⟩
  · exact ⟨rfl, rfl, rfl, rfl, rfl, rfl, rfl, rfl⟩

theorem Coll.dispute_none (h : c.agreed = []) : c.dispute = none := by
  simp [Coll.dispute, h]

/-- A member that starts says AGREE at once, or at the root GO, if it waits for no child. -/
theorem agree_begins (h : s.startedAt t e i c) (he : e < 4) (hs : c.started = true) (hnone : s.coll e c.group c.seq = none)
    (hclose : c.cd.close = false) (hagreed : c.agreed = []) (n : Nat) :
    ∃ c', s.startedAt (agree (n + 1) e c t).2 e i c' ∧ c.begun c' ∧
      (c.kids 0 c.me = [] → c.agreeSent = false → c'.agreeSent = true ∧ (c.parent 0 c.me = none → c'.go = true)) := by
  by_cases hready : t.agreeReady c = true
  · cases hp : c.parent 0 c.me with
    | some p =>
      have ht := h.changed he hs hnone (f := Coll.sentUp) fun d => Coll.sameKey_iff.2 ⟨rfl, rfl, rfl, rfl, rfl⟩
      refine ⟨c.sentUp, ?_, .inr (.inl rfl), fun _ _ => ⟨rfl, fun hp => (Option.some_ne_none _ hp).elim⟩⟩
      rw [run_agree_succ, run_agreeUp_parent hready hp, if_neg Bool.false_ne_true, Coll.dispute_none hagreed]
      exact ht.sent (M.onlySent_sendControlMsg ht.wf _ _ _ _ _ _ _ _ _ _)
    | none =>
      have ht := h.changed he hs hnone (f := (·.gone (t.verdictOf c))) fun d => Coll.sameKey_iff.2 ⟨rfl, rfl, rfl, rfl, rfl⟩
      refine ⟨c.gone (t.verdictOf c), ?_, .inr (.inr ⟨_, rfl⟩), fun _ _ => ⟨rfl, fun _ => rfl⟩⟩
      rw [agree_rootGoes hready hp (Coll.dispute_none hagreed) (by simp [hclose])]
      exact ht.sent (M.gone_onlySent h.wf _)
  · refine ⟨c, ?_, .inl rfl, fun hkids hsent => absurd ?_ hready⟩
    · rw [agree_waits (by simpa using hready)]
      exact h
    · simp [M.agreeReady, hs, hkids, hsent, hclose]

/-- A collective that takes its place begins. -/
theorem beginColl_begins (hw : s.wf = true) (he : e < 4) (hs : c.started = true) (h4 : c.cd.op ≠ 4) (hclose : c.cd.close = false)
    (hagreed : c.agreed = []) (hnone : s.coll e c.group c.seq = none)
    (halone : ∀ j d, (s.eng e).colls[j]? = some d → d.started = false → d.group = c.group → j = i) (drop : Nat) :
    ∃ c', s.startedAt (beginColl e i c drop s).2 e i c' ∧ c.begun c' ∧
      (c.kids 0 c.me = [] → c.agreeSent = false → c'.agreeSent = true ∧ (c.parent 0 c.me = none → c'.go = true)) := by
  have hstart := M.startedAt_starting hw he i c
  have hqueued : ∀ d ∈ ((s.starting e i c).eng e).colls, d.started = false → d.group ≠ c.group := fun d hd hds hg => by
    rw [hstart.colls] at hd
    obtain ⟨j, hj⟩ := List.mem_iff_getElem?.1 hd
    rw [List.getElem?_set] at hj
    split at hj
    · next hij =>
      split at hj
      · obtain rfl := Option.some.inj hj
        exact Bool.false_ne_true (hds.symm.trans hs)
      · exact Option.some_ne_none _ hj.symm
    · next hij => exact hij (halone j d hj hds hg).symm
  have h4' : (c.cd.op == 4) = false := by simpa using h4
  have hrun : (beginColl e i c drop s).2 = (agree 64 e c (sweepQueued e c.group (s.starting e i c)).2).2 := by
    rw [beginColl, h4', hclose]
    rfl
  rw [hrun, run_sweepQueued_none hqueued]
  exact agree_begins hstart he hs hnone hclose hagreed 63

end

/-! ## The doorbell of a communication queue, and the flush of a record (R274, R283) -/

section
variable {s : State} (hl : s.m.board.live = true) {w v : Nat} (ha : s.m.admits w false)
include hl ha

theorem exec_cqDoorbell : exec (.rlyCqDoorbell v w) s = s.becomes (cqDoorbell v (s.m.accessed w)).2 := by
  show s.doing (regAction w false (.rlyCqDoorbell v w) (cqDoorbell v)) = _
  rw [State.doing_live s _ hl, run_regAction_admitted ha]

theorem exec_gcacheFlush : exec (.rlyGcacheFlush v w) s = s.becomes (gcacheFlush v (s.m.accessed w)).2 := by
  show s.doing (regAction w false (.rlyGcacheFlush v w) (gcacheFlush v)) = _
  rw [State.doing_live s _ hl, run_regAction_admitted ha]

end

theorem M.accessed_rly (s : M) (w : Nat) : (s.accessed w).rly = s.rly := by
  obtain ⟨r, h⟩ := s.accessed_eq w
  rw [h]

/-- A counted access leaves group records alone. -/
theorem M.accessed_groupRec (s : M) (w g : Nat) : (s.accessed w).groupRec g = s.groupRec g := by
  have hbase : (s.accessed w).reg Reg.rlyGroupBase = s.reg Reg.rlyGroupBase :=
    M.reg_accessed (by simp only [Reg.rlyGroupBase]; omega)
  rw [M.groupRec, hbase]
  obtain ⟨r, h⟩ := s.accessed_eq w
  rw [h]
  rfl

/-- The communication queue of a group, as a doorbell finds it. -/
def M.commQ (s : M) (g : Nat) : CommQ := (s.rly.queues.find? (·.group = g)).getD { group := g }

/-- Is a doorbell heeded: Relay is ready, the queue is enabled, and its entries fit in its ring? -/
def M.doorbellOk (s : M) (g wr : Nat) : Prop :=
  bit (s.reg Reg.mgtReadyMap) 124 = true ∧ (s.groupRec g).cqEn = true ∧
    trunc 32 (wr + 2 ^ 32 - (s.commQ g).rd) ≤ 2 ^ (s.groupRec g).cqLog2

/-- The module in which a communication queue has moved on. -/
def M.withWr (s : M) (g wr : Nat) : M :=
  { s with rly := { s.rly with queues := (s.rly.queues.filter (·.group ≠ g)) ++ [{ s.commQ g with wr := wr }] } }

theorem M.commQ_group (s : M) (g : Nat) : (s.commQ g).group = g := by
  unfold M.commQ
  cases h : s.rly.queues.find? (·.group = g) with
  | none => rfl
  | some q => simpa using List.find?_some h

theorem M.commQ_accessed (s : M) (w g : Nat) : (s.accessed w).commQ g = s.commQ g := by
  rw [M.commQ, M.accessed_rly, M.commQ]

theorem M.doorbellOk_accessed (s : M) (w g wr : Nat) : (s.accessed w).doorbellOk g wr ↔ s.doorbellOk g wr := by
  have hready : (s.accessed w).reg Reg.mgtReadyMap = s.reg Reg.mgtReadyMap :=
    M.reg_accessed (by simp only [Reg.mgtReadyMap]; omega)
  rw [M.doorbellOk, hready, M.commQ_accessed, M.accessed_groupRec, M.doorbellOk]

section
variable {s : M} {v : Nat}

theorem run_cqDoorbell_ignored (h : ¬ s.doorbellOk (bits v 15 0) (bits v 63 32)) : (cqDoorbell v s).2 = s := by
  rw [cqDoorbell, run_bind, run_get, run_whenA, if_neg]
  unfold M.doorbellOk at h
  simpa [and_assoc, M.commQ] using h

theorem run_cqDoorbell_heeded (h : s.doorbellOk (bits v 15 0) (bits v 63 32)) :
    (cqDoorbell v s).2 = (takeQueue (bits v 15 0) 4096 (s.withWr (bits v 15 0) (bits v 63 32))).2 := by
  obtain ⟨hready, hen, hfits⟩ := h
  rw [cqDoorbell, run_bind, run_get, run_whenA, if_pos]
  · rfl
  · unfold M.commQ at hfits
    simpa [hready, hen] using hfits

/-- The queue is found as the doorbell has left it. -/
theorem M.find_withWr (g wr : Nat) :
    (s.withWr g wr).rly.queues.find? (·.group = g) = some { s.commQ g with wr := wr } := by
  have hnone : (s.rly.queues.filter (·.group ≠ g)).find? (·.group = g) = none :=
    List.find?_eq_none.2 fun x hx => by simpa using (List.mem_filter.1 hx).2
  rw [M.withWr, List.find?_append, hnone]
  simp [M.commQ_group]

/-- A queue without entries takes none. -/
theorem run_takeQueue_empty {g : Nat} {q : CommQ} (hq : s.rly.queues.find? (·.group = g) = some q) (h : q.rd = q.wr) (n : Nat) :
    takeQueue g n s = ((), s) := by
  cases n with
  | zero => rfl
  | succ n =>
    rw [takeQueue, run_bind, run_get]
    dsimp only
    rw [hq]
    dsimp only
    rw [if_pos (.inl h)]
    rfl

/-- After a doorbell that is heeded, the queue has its WR; with nothing to take, nothing else has happened. -/
theorem cqDoorbell_heeded (h : s.doorbellOk (bits v 15 0) (bits v 63 32)) :
    let m := (cqDoorbell v s).2
    ∃ q' ∈ m.rly.queues, q'.group = bits v 15 0 ∧ q'.wr = bits v 63 32 ∧
      ((s.commQ (bits v 15 0)).rd = bits v 63 32 → q'.rd = (s.commQ (bits v 15 0)).rd ∧ m = { s with rly := m.rly }) := by
  set t := s.withWr (bits v 15 0) (bits v 63 32) with ht
  have hfind := M.find_withWr (s := s) (bits v 15 0) (bits v 63 32)
  have hmem := List.mem_of_find?_eq_some hfind
  dsimp only
  rw [run_cqDoorbell_heeded h]
  by_cases hrd : (s.commQ (bits v 15 0)).rd = bits v 63 32
  · rw [run_takeQueue_empty hfind hrd]
    exact ⟨_, hmem, s.commQ_group _, rfl, fun _ => ⟨rfl, rfl⟩⟩
  · obtain ⟨-, htables⟩ := keepsTables_takeQueue t (bits v 15 0) 4096 t (.refl t)
    have hpair : (bits v 15 0, bits v 63 32) ∈ (takeQueue (bits v 15 0) 4096 t).2.rly.queues.map fun q => (q.group, q.wr) := by
      rw [htables]
      exact List.mem_map.2 ⟨_, hmem, Prod.ext (s.commQ_group _) rfl⟩
    obtain ⟨q', hq', heq⟩ := List.mem_map.1 hpair
    exact ⟨q', hq', congrArg Prod.fst heq, congrArg Prod.snd heq, fun h => absurd h hrd⟩

/-- Does no collective use a group? -/
def M.idleGroup (s : M) (g : Nat) : Prop := ∀ k d, k < 4 → d ∈ (s.eng k).colls → d.group ≠ g

theorem M.idleGroup_accessed (s : M) (w g : Nat) : (s.accessed w).idleGroup g ↔ s.idleGroup g := by
  simp only [M.idleGroup, M.eng_congr (s.accessed_rly w)]

theorem run_gcacheFlush_used (h : ¬ s.idleGroup (bits v 15 0)) : (gcacheFlush v s).2 = s := by
  rw [gcacheFlush, run_bind, run_get, run_whenA, if_neg]
  refine mt (fun hall k d hk hd => ?_) h
  have hd' := List.all_eq_true.1 (List.all_eq_true.1 hall k (List.mem_range.2 hk)) d hd
  simpa using hd'

/-- An engine without the cached record of a group. -/
def RelayEng.forget (g : RelayEng) (group : Nat) : RelayEng := { g with cache := g.cache.filter (·.1 ≠ group) }

theorem run_gcacheFlush_idle (h : s.idleGroup (bits v 15 0)) :
    (gcacheFlush v s).2 = (forA (List.range 4) (fun e => updEng e (·.forget (bits v 15 0))) s).2 := by
  rw [gcacheFlush, run_bind, run_get, run_whenA, if_pos]
  · rfl
  · refine List.all_eq_true.2 fun k hk => List.all_eq_true.2 fun d hd => ?_
    simpa using h k d (List.mem_range.1 hk) hd

theorem gcacheFlush_idle (h : s.idleGroup (bits v 15 0)) :
    let m := (gcacheFlush v s).2
    m = { s with rly := m.rly } ∧ ∀ k, k < 4 → m.eng k = (s.eng k).forget (bits v 15 0) := by
  dsimp only
  rw [run_gcacheFlush_idle h]
  refine ⟨rfl, fun k hk => ?_⟩
  interval_cases k
  · rfl
  · rfl
  · rfl
  · rfl

end

section
variable {s : State} (hl : s.m.board.live = true) {w v : Nat} (ha : s.m.admits w false)
include hl ha

theorem exec_cqDoorbell_ignored (h : ¬ s.m.doorbellOk (bits v 15 0) (bits v 63 32)) :
    exec (.rlyCqDoorbell v w) s = s.becomes (s.m.accessed w) := by
  rw [exec_cqDoorbell hl ha, run_cqDoorbell_ignored (mt (M.doorbellOk_accessed ..).1 h)]

theorem exec_cqDoorbell_heeded (h : s.m.doorbellOk (bits v 15 0) (bits v 63 32)) :
    s.ends (exec (.rlyCqDoorbell v w) s) fun m => ∃ q' ∈ m.rly.queues, q'.group = bits v 15 0 ∧ q'.wr = bits v 63 32 ∧
      ((s.m.commQ (bits v 15 0)).rd = bits v 63 32 →
        q'.rd = (s.m.commQ (bits v 15 0)).rd ∧ m = { s.m.accessed w with rly := m.rly }) := by
  have hheeded := cqDoorbell_heeded ((M.doorbellOk_accessed s.m w _ _).2 h)
  rw [M.commQ_accessed] at hheeded
  exact ⟨_, exec_cqDoorbell hl ha, hheeded⟩

theorem exec_gcacheFlush_used (h : ¬ s.m.idleGroup (bits v 15 0)) : exec (.rlyGcacheFlush v w) s = s.becomes (s.m.accessed w) := by
  rw [exec_gcacheFlush hl ha, run_gcacheFlush_used (mt (M.idleGroup_accessed ..).1 h)]

theorem exec_gcacheFlush_idle (h : s.m.idleGroup (bits v 15 0)) :
    s.ends (exec (.rlyGcacheFlush v w) s) fun m => m = { s.m.accessed w with rly := m.rly } ∧ ∀ k, k < 4 →
      (m.eng k).cache = (s.m.eng k).cache.filter (·.1 ≠ bits v 15 0) ∧ (m.eng k).colls = (s.m.eng k).colls := by
  obtain ⟨hrly, heng⟩ := gcacheFlush_idle ((M.idleGroup_accessed s.m w _).2 h)
  refine ⟨_, exec_gcacheFlush hl ha, hrly, fun k hk => ?_⟩
  rw [heng k hk, M.eng_congr (s.m.accessed_rly w)]
  exact ⟨rfl, rfl⟩

end

/-! ## The commands of a collective, from the message to what the machine shows -/

section
variable {s : State} (hl : s.m.board.live = true) (hw : s.m.wf = true) {e group src : Nat} (he : e < 4) {line0 : List Byte}
  {c : Coll} {r : Nat} (hc : s.m.coll e group (Line0.parse line0).seq = some c) (hr : c.rankOf src = some r)

theorem M.verdictOf_agreed (s : M) (e : Nat) (c : Coll) (a : Agreed) (d : Coll) : (s.agreed e c a).verdictOf d = s.verdictOf d :=
  s.verdictOf_changed e c.group c.seq (·.withAgree a) d

theorem M.wf_agreed {s : M} (hw : s.wf = true) (e : Nat) (c : Coll) (a : Agreed) : (s.agreed e c a).wf = true := M.wf_withEng hw e _

theorem M.onlyColl.agreed {s : M} (h : s.onlyColl e c) (he : e < 4) (a : Agreed) : (s.agreed e c a).onlyColl e (c.withAgree a) :=
  h.changed he c.group c.seq fun _ => Coll.sameKey_iff.2 ⟨rfl, rfl, rfl, rfl, rfl⟩

/-- A collective with the AGREE of a message. -/
def Coll.withHeard (c : Coll) (src r : Nat) (line0 : List Byte) : Coll := c.withAgree (c.agreedBy src r (Line0.parse line0))

include hc in
theorem M.coll_withHeard : (s.m.agreed e c (c.agreedBy src r (Line0.parse line0))).coll e (c.withHeard src r line0).group
    (c.withHeard src r line0).seq = some (c.withHeard src r line0) := by
  obtain ⟨-, -, hg, hq⟩ := M.coll_some hc
  have h := M.coll_agreed hc (c.agreedBy src r (Line0.parse line0))
  rw [← hg, ← hq] at h
  exact h

include hl hc hr

include hw in
/-- The last AGREE lets this member's go to its parent. -/
theorem exec_agree_up (h : c.hearsAgree r (Line0.parse line0)) (hready : s.m.agreeReady (c.withHeard src r line0) = true) {p : Nat}
    (hp : c.parent 0 c.me = some p) :
    let c1 := c.withHeard src r line0
    s.ends (exec (.agree e group src line0) s) fun m => s.m.framed m ∧ m.coll e c.group c.seq = some c1.sentUp ∧
      (c1.dispute = none → s.m.postsIf m e c p 0 0 0 (s.m.verdictOf c1) 0 0 0) ∧
      ∀ node d, c1.dispute = some (node, d) →
        s.m.postsIf m e c p 0 0 node (s.m.verdictOf c1 + 8) 0 (trunc 32 d) (d >>> 32) := by
  have hup := agree_goesUp (n := 63) (M.wf_agreed hw e c _) (M.coll_withHeard hc) ((M.agreeReady_agreed ..).trans hready) hp
  rw [M.verdictOf_agreed] at hup
  exact ⟨_, exec_agree_heard hl hc hr h, hup⟩

include hw in
/-- With the last AGREE the root says GO. -/
theorem exec_agree_go (h : c.hearsAgree r (Line0.parse line0)) (hready : s.m.agreeReady (c.withHeard src r line0) = true)
    (hp : c.parent 0 c.me = none) (hd : (c.withHeard src r line0).dispute = none) (hopen : ¬ (c.cd.close = true ∧ c.cd.count = 0)) :
    let c1 := c.withHeard src r line0
    s.ends (exec (.agree e group src line0) s) fun m => s.m.framed m ∧
      m.coll e c.group c.seq = some (c1.gone (s.m.verdictOf c1)) ∧
      ∀ k ∈ c.kids 0 c.me, s.m.postsIf m e c k 1 0 0 (s.m.verdictOf c1) 0 0 0 := by
  refine ⟨_, exec_agree_heard hl hc hr h, ?_⟩
  have hgo := agree_rootGoes (e := e) (n := 63)
    ((M.agreeReady_agreed s.m e c (c.agreedBy src r (Line0.parse line0)) _).trans hready) hp hd hopen
  rw [M.verdictOf_agreed] at hgo
  have hgone := M.gone_goes (M.wf_agreed hw e c _) (M.coll_withHeard (src := src) (r := r) hc) (s.m.verdictOf (c.withHeard src r line0))
  exact hgo ▸ hgone

include hw he in
/-- With the last AGREE, and a disagreement, the root says NOGO. -/
theorem exec_agree_nogo (h : c.hearsAgree r (Line0.parse line0)) (hready : s.m.agreeReady (c.withHeard src r line0) = true)
    (hp : c.parent 0 c.me = none) (ho : s.m.onlyColl e c) {node d : Nat}
    (hd : (c.withHeard src r line0).dispute = some (node, d)) :
    s.ends (exec (.agree e group src line0) s) fun m => m.noGroup c.group ∧
      ∀ k ∈ c.kids 0 c.me, s.m.postsIf m e c k 2 0 node 0 9 (trunc 32 d) (d >>> 32) :=
  ⟨_, exec_agree_heard hl hc hr h, agree_rootRefuses (n := 63) (M.wf_agreed hw e c _) he (ho.agreed he _)
    ((M.agreeReady_agreed ..).trans hready) hp hd⟩

include hw he in
/-- NOGO from the parent ends a collective with a mismatch. -/
theorem exec_nogo_ends (h : c.hearsNogo r (Line0.parse line0)) (ho : s.m.onlyColl e c) :
    let h := Line0.parse line0
    let d := h.bytes + h.aux <<< 32
    s.ends (exec (.nogo e group src line0) s) fun m => s.m.endsColl m c 9 ∧
      m.reg Reg.rlyMismatch = trunc 64 (s.m.reg Reg.rlyMismatch + 1) ∧
      m.reg Reg.rlyLastMismatch = trunc 16 c.group <<< 112 + trunc 12 (trunc 12 h.origin) <<< 88 + trunc 64 d ∧
      ∀ k ∈ c.kids 0 c.me, s.m.postsIf m e c k 2 0 (trunc 12 h.origin) 0 9 (trunc 32 d) (d >>> 32) := by
  have hend := noGo_ends hw he ho (trunc 12 (Line0.parse line0).origin) ((Line0.parse line0).bytes + (Line0.parse line0).aux <<< 32)
  refine ⟨_, exec_nogo_heard hl hc hr h, ?_⟩
  rw [run_afterEnd_noGroup hend.1.noGroup]
  exact hend

include hw he in
/-- ABORT from a neighbour ends a collective with its status, and goes on to the others. -/
theorem exec_abortMessage_ends (h : (Line0.parse line0).code = 3 ∧ r ∈ c.neighbours) (ho : s.m.onlyColl e c) :
    let h := Line0.parse line0
    s.ends (exec (.abortMessage e group src line0) s) fun m => s.m.endsColl m c (trunc 16 h.elems) ∧
      ∀ k ∈ c.neighbours, k ≠ r → s.m.postsIf m e c k 3 0 (trunc 12 h.origin) 0 (trunc 16 h.elems) 0 0 := by
  obtain ⟨-, hstarted, -⟩ := M.coll_some hc
  obtain ⟨hend, -, hposts⟩ := failColl_ends hw he hstarted ho (trunc 16 (Line0.parse line0).elems) (some r)
    (some (trunc 12 (Line0.parse line0).origin))
  exact ⟨_, exec_abortMessage_heard hl hc hr h, hend, fun k hk hkr => hposts k hk fun hk => hkr (Option.some.inj hk)⟩

end

section
variable {s : State} (hl : s.m.board.live = true) (hw : s.m.wf = true) {e group : Nat} (he : e < 4) {c : Coll} {seq : Nat}
  (hc : s.m.coll e group seq = some c)
include hl hw he hc

/-- A collective whose work is done ends with its status. -/
theorem exec_collectiveComplete_ends (h : c.workDone = true) (ho : s.m.onlyColl e c) :
    s.ends (exec (.collectiveComplete e group seq) s) fun m =>
      s.m.endsColl m c c.okStatus ∨ c.cd.op = 4 ∧ s.m.endsColl m c 3 :=
  ⟨_, (exec_collectiveComplete hl hc).trans (if_pos h), finishColl_ends hw he ho c.okStatus⟩

/-- A collective that comes to its limit fails, and tells its neighbours. -/
theorem exec_progressTimeout_ends {ms : Nat} (h : c.limit ≤ ms) (ho : s.m.onlyColl e c) :
    s.ends (exec (.collectiveProgressTimeout e group seq ms) s) fun m => s.m.endsColl m c 0xA ∧
      m.reg Reg.rlyTimeout = trunc 64 (s.m.reg Reg.rlyTimeout + 1) ∧
      ∀ k ∈ c.neighbours, s.m.postsIf m e c k 3 0 s.m.node 0 0xA 0 0 := by
  obtain ⟨-, hstarted, -⟩ := M.coll_some hc
  obtain ⟨hend, hcount, hposts⟩ := failColl_ends hw he hstarted ho 0xA none none
  exact ⟨_, (exec_progressTimeout hl hc ms).trans (if_pos h), hend, hcount rfl, fun k hk => hposts k hk (Option.some_ne_none k)⟩

end

section
variable {s : State} (hl : s.m.board.live = true) (hw : s.m.wf = true) {e : Nat} (he : e < 4) {i : Nat} {c : Coll}
  (hi : s.m.nextAt e = some i) (hc : (s.m.eng e).colls[i]? = some c)
  {x rec : Nat} {nodes : List Nat} (hx : (s.m.eng e).cache.find? (·.1 = c.group) = some (x, rec, nodes))
include hl hw he hi hc hx

/-- A collective that starts has its record and its digest, and begins to agree. -/
theorem exec_start_begins (hfits : s.m.fits e c rec) (h4 : c.cd.op ≠ 4) (hclose : c.cd.close = false) (hagreed : c.agreed = [])
    (hnone : s.m.coll e c.group c.seq = none)
    (halone : ∀ j d, (s.m.eng e).colls[j]? = some d → d.started = false → d.group = c.group → j = i) :
    s.ends (exec (.collectiveStart e) s) fun m => s.m.framed m ∧ ∃ c', (m.eng e).colls = (s.m.eng e).colls.set i c' ∧
      c'.started = true ∧ c'.grp = rec ∧ c'.members = nodes ∧ c'.digest = c'.digestNow ∧ c'.od = c.od ∧
      (s.m.newer e c.group c.seq → m.last e c.group = some c.seq) ∧
      (¬ s.m.newer e c.group c.seq → m.last e c.group = s.m.last e c.group) ∧
      (∀ k, k < 4 → k ≠ e → m.eng k = s.m.eng k) ∧
      (c'.kids 0 c'.me = [] → c.agreeSent = false → c'.agreeSent = true ∧ (c'.parent 0 c'.me = none → c'.go = true)) := by
  set c1 := c.startedWith rec nodes (s.m.stagingRuns e (c.cd.staging (GroupRec.parse rec))) false (leNat []) with hc1
  obtain ⟨c', ⟨-, hframe, hcolls, hnewer, holder, hothers⟩, hbegun, hkids⟩ :=
    beginColl_begins hw he (c := c1) rfl h4 hclose hagreed hnone halone (leNat [] - c.cd.count)
  obtain ⟨hgroup, hseq, hstarted, hgrp, hmembers, hod, hdigest, hblock⟩ := hbegun.same
  have htree : c'.kids 0 c'.me = c1.kids 0 c1.me ∧ c'.parent 0 c'.me = c1.parent 0 c1.me := by
    simp only [Coll.kids, Coll.parent, Coll.me, Coll.gr, Coll.rootOf, Coll.cd, hgrp, hod, and_self]
  have hnow : c'.digest = c'.digestNow := by
    rw [Coll.digestNow, hblock, hdigest]
    exact c.startedWith_digest _ _ _ _ _
  rw [hgroup, hseq] at hnewer holder
  rw [← htree.1, ← htree.2] at hkids
  exact ⟨_, exec_start_fits hl hi hc hx hfits h4, hframe, c', hcolls, hstarted, hgrp, hmembers, hnow, hod, hnewer, holder, hothers, hkids⟩

end

/-! ## The statement -/

/-- What is posted for a collective, in the words of the statement. -/
theorem M.postsIf.shown {s t : M} {e group seq : Nat} {c : Coll} {k code index origin flags elems bytes aux : Nat}
    (h : s.postsIf t e c k code index origin flags elems bytes aux) (hg : c.group = group) (hq : c.seq = seq) :
    s.board.stopped = false → ∃ x ∈ (t.rally (c.nodeOf k)).msgs, x.cls = 1 ∧ x.tag = collTag group 2 e ∧
      x.owner = .control e group seq ∧ x.lines = messageLines 0 (c.line0 index origin code flags elems bytes aux) [] := by
  subst hg hq
  exact h

/-- The end of a collective, in the words of the statement. -/
theorem M.endsColl.shown {s t : M} {e group : Nat} {c : Coll} {status : Nat} (h : s.endsColl t c status) (hg : c.group = group)
    (he : e < 4) (seq : Nat) : t.coll e group seq = none ∧ ∀ core x, c.ring = some (core, x) →
      (t.ring core 3).infl = (s.ring core 3).infl.map fun f => if f.x = x ∧ !f.done then { f with
        done := true, own := status, flags := f.flags ||| c.flags
        result := if c.cd.op = 4 then min c.drops (2 ^ 32 - 1) else 0 } else f := by
  subst hg
  exact ⟨h.noGroup.coll_none he seq, h.ring⟩

/-- Settles O57: each command's effect, and its converse where the message is not heard, from the lemmas above. -/
theorem collectivesAgreeAndEnd : Obligations.CollectivesAgreeAndEnd := by
  unfold Obligations.CollectivesAgreeAndEnd
  intro s e group src line0 hl hw he
  refine ⟨fun q hq h => exec_control_unknown hl hq h, fun c r hc hr => ?_, fun q hc => exec_end_unknown hl hc,
    fun core x seq ms => ⟨exec_snapshotTimeout_early hl, fun f hf h => exec_snapshotTimeout hl hw hf h⟩,
    ⟨exec_fetch_unwanted hl, fun h hr hm => ⟨_, exec_fetch_wanted hl h, fetchWanted_clean hw he hr hm⟩,
      fun h ⟨l, hlm, hp⟩ => ⟨_, exec_fetch_wanted hl h, (fetchWanted_poisoned hlm hp).1 e⟩⟩,
    exec_start_none hl, fun i c hi hc => ⟨exec_start_uncached hl hi hc, fun x rec nodes hx =>
      ⟨exec_start_waits hl hi hc hx, exec_start_begins hl hw he hi hc hx⟩⟩, fun w v ha => ⟨?_, ?_, ?_, ?_⟩⟩
  · obtain ⟨-, -, rfl, hq⟩ := M.coll_some hc
    have hposts := fun {t : M} {k code index origin flags elems bytes aux : Nat}
      (h : s.m.postsIf t e c k code index origin flags elems bytes aux) => h.shown rfl hq
    have hends := fun {t : M} {status : Nat} (h : s.m.endsColl t c status) => h.shown rfl he (Line0.parse line0).seq
    intro alone posted ended mismatch a c1 hears own v fromParent
    have hheard : c.withHeard src r line0 = c1 := rfl
    have hverdict : s.m.verdictOf c1 = v := rfl
    refine ⟨exec_agree_ignored hl hc hr, exec_agree_waits hl hc hr, fun h hready p hp => ?_, fun h hready hp hd hopen => ?_,
      fun h hready hp hal node d hd => ?_, ⟨exec_go_ignored hl hc hr, fun h hopen hearly => ?_, fun h hclose hcount h4 hal k hk => ?_⟩,
      ⟨exec_nogo_ignored hl hc hr, fun h hal => ?_⟩, ⟨exec_abortMessage_ignored hl hc hr, fun h hal => ?_⟩, fun h => ?_,
      fun h hal => ?_, fun ms => ⟨fun h => ?_, fun h hal => ?_⟩⟩
    · obtain ⟨m, hm, hframe, hcoll, hagrees, hdisputes⟩ := exec_agree_up hl hw hc hr h hready hp
      rw [hheard] at hcoll hagrees hdisputes
      rw [hverdict] at hagrees hdisputes
      rw [hq] at hcoll
      exact ⟨m, hm, hframe, hcoll, fun hd => hposts (hagrees hd), fun node d hd => hposts (hdisputes node d hd)⟩
    · obtain ⟨m, hm, hframe, hcoll, hgo⟩ := exec_agree_go hl hw hc hr h hready hp hd hopen
      rw [hheard, hverdict] at hcoll hgo
      rw [hq] at hcoll
      exact ⟨m, hm, hframe, hcoll, fun k hk => hposts (hgo k hk)⟩
    · obtain ⟨m, hm, hgone, hnogo⟩ := exec_agree_nogo hl hw he hc hr h hready hp (M.aloneIn.onlyColl hal) hd
      exact ⟨m, hm, hgone.coll_none he _, fun k hk => hposts (hnogo k hk)⟩
    · obtain ⟨m, hm, hframe, hcoll, hgo⟩ := exec_go_begins hl hc hr hw h hopen hearly
      rw [hq] at hcoll
      exact ⟨m, hm, hframe, hcoll, fun k hk => hposts (hgo k hk)⟩
    · obtain ⟨m, hm, hend, hshows⟩ := exec_go_closes hl hc hr hw he h hclose hcount h4 (M.aloneIn.onlyColl hal) hk
      exact ⟨m, hm, hends hend, hshows⟩
    · obtain ⟨m, hm, hend, hcount, hlast, hnogo⟩ := exec_nogo_ends hl hw he hc hr h (M.aloneIn.onlyColl hal)
      exact ⟨m, hm, hends hend, hcount, hlast, fun k hk => hposts (hnogo k hk)⟩
    · obtain ⟨m, hm, hend, habort⟩ := exec_abortMessage_ends hl hw he hc hr h (M.aloneIn.onlyColl hal)
      exact ⟨m, hm, hends hend, fun k hk hkr => hposts (habort k hk hkr)⟩
    · exact (exec_collectiveComplete hl hc).trans (if_neg (by simp [h]))
    · obtain ⟨m, hm, hend⟩ := exec_collectiveComplete_ends hl hw he hc h (M.aloneIn.onlyColl hal)
      exact ⟨m, hm, hend.imp hends (And.imp_right hends)⟩
    · exact (exec_progressTimeout hl hc ms).trans (if_neg (Nat.not_le.2 h))
    · obtain ⟨m, hm, hend, hcount, habort⟩ := exec_progressTimeout_ends hl hw he hc h (M.aloneIn.onlyColl hal)
      exact ⟨m, hm, hends hend, hcount, fun k hk => hposts (habort k hk)⟩
  · exact exec_cqDoorbell_ignored hl ha
  · exact exec_cqDoorbell_heeded hl ha
  · exact exec_gcacheFlush_used hl ha
  · exact exec_gcacheFlush_idle hl ha

end Sys2Proof.Machine

/-! # Jobs are admitted and complete (R307 to R310)

First the order in which jobs go. Then the preparation of one core, step by step: its job state, its passes, its rings, its control core;
each step touches that core and its registers alone, so that all cores of a job are prepared in one action. Last the exit call, and the
completion with what the exit calls have left. -/

namespace Sys2Proof.Machine

/-! ## Loops -/

/-- A loop whose rounds on the elements of its list keep a property keeps it. -/
theorem keeps_forA_mem {α : Type} {P : M → Prop} {l : List α} {f : α → Act Unit} (hf : ∀ y ∈ l, Keeps P (f y)) :
    Keeps P (forA l f) := by
  induction l with
  | nil => exact keeps_pure ()
  | cons y l ih => exact keeps_bind (hf y List.mem_cons_self) fun _ => ih fun z hz => hf z (List.mem_cons_of_mem y hz)

/-- What a loop's round on x brings about, and no round undoes, holds after a loop that comes past x. -/
theorem forA_settles {α : Type} {I P : M → Prop} {x : α} {l : List α} {f : α → Act Unit} (hI : ∀ y ∈ l, Keeps I (f y))
    (hP : ∀ y ∈ l, ∀ s, I s → P s ∨ x = y → P (f y s).2) {s : M} (h : I s) (hx : P s ∨ x ∈ l) : P (forA l f s).2 := by
  induction l generalizing s with
  | nil => exact hx.resolve_right List.not_mem_nil
  | cons y l ih =>
    refine ih (fun z hz => hI z (List.mem_cons_of_mem y hz)) (fun z hz => hP z (List.mem_cons_of_mem y hz))
      (hI y List.mem_cons_self s h) ?_
    rw [List.mem_cons, ← or_assoc] at hx
    exact hx.imp_left (hP y List.mem_cons_self s h)

/-! ## The next job -/

/-- A job of queue q can go (R308). -/
def M.ready (s : M) (q : Nat) (j : Job) : Prop :=
  j.running = false ∧ j.kind = 0 ∧ s.coresFree j = true ∧ s.requiredSet j = true ∧
    (j.serial = true → s.reg (Reg.hstQDone q) = j.x) ∧ s.board.stopped = false

theorem M.admissible_iff (s : M) (q : Nat) (j : Job) : s.admissible q j = true ↔ s.ready q j := by
  simp [M.admissible, M.ready, M.earlierDone, and_assoc, imp_iff_not_or]

theorem M.find_admissible_none {s : M} {q : Nat} (h : (s.queue q).jobs.find? (s.admissible q) = none) :
    ∀ k ∈ (s.queue q).jobs, ¬ s.ready q k := fun k hk hr => List.find?_eq_none.1 h k hk ((s.admissible_iff q k).2 hr)

/-- The job that goes next is the first that can go of the first queue that has one. -/
theorem M.nextAdmitted_some {s : M} {q x : Nat} (h : s.nextAdmitted = some (q, x)) :
    q < 64 ∧ (∀ p, p < q → ∀ k ∈ (s.queue p).jobs, ¬ s.ready p k) ∧
      ∃ l j r, (s.queue q).jobs = l ++ j :: r ∧ j.x = x ∧ s.ready q j ∧ ∀ k ∈ l, ¬ s.ready q k := by
  obtain ⟨before, p, after, hl, hp, hnone⟩ := List.findSome?_eq_some_iff.1 h
  obtain ⟨j, hj, hjx⟩ := Option.map_eq_some_iff.1 hp
  obtain ⟨rfl, rfl⟩ := Prod.mk.inj hjx
  have hmem : ∀ k, k < 64 ↔ k ∈ before ++ p :: after := fun k => by rw [← hl, List.mem_range]
  refine ⟨(hmem p).2 (by simp), fun k hk => M.find_admissible_none (Option.map_eq_none_iff.1 (hnone k ?_)), ?_⟩
  · have hsorted : (before ++ p :: after).Pairwise (· < ·) := hl ▸ List.pairwise_lt_range
    have hafter := (List.pairwise_cons.1 (List.pairwise_append.1 hsorted).2.1).1
    have hk64 : k ∈ before ++ p :: after := (hmem k).1 (hk.trans ((hmem p).2 (by simp)))
    rcases List.mem_append.1 hk64 with hb | ha
    · exact hb
    · rcases List.mem_cons.1 ha with rfl | ha
      · exact absurd hk (Nat.lt_irrefl k)
      · exact absurd hk (hafter k ha).not_gt
  · obtain ⟨hadm, l, r, hjobs, hl⟩ := List.find?_eq_some_iff_append.1 hj
    exact ⟨l, j, r, hjobs, rfl, (s.admissible_iff _ j).1 hadm, fun k hk hr => by
      simpa [(s.admissible_iff _ k).2 hr] using hl k hk⟩

theorem M.nextAdmitted_none {s : M} (h : s.nextAdmitted = none) : ∀ p, p < 64 → ∀ k ∈ (s.queue p).jobs, ¬ s.ready p k := fun p hp =>
  M.find_admissible_none (Option.map_eq_none_iff.1 (List.findSome?_eq_none_iff.1 h p (List.mem_range.2 hp)))

/-! ## The job state record (R237, R309, Table 04-3) -/

/-- The fields of a job state record, put together (Table 04-3). -/
def packRecord (seed step skip scale run interval log2 corr : Nat) : Nat :=
  trunc 256 seed + trunc 40 step <<< 256 + skip <<< 320 + scale <<< 352 + run <<< 384 + trunc 32 interval <<< 416
    + trunc 8 log2 <<< 448 + corr <<< 480

theorem M.jobRecord_eq (s : M) (n : Nat) : s.jobRecord n = packRecord (s.core n).seed (s.reg (Reg.coreStep n))
    (s.reg (Reg.coreJobSkipCount n)) (s.reg (Reg.coreJobLossScale n)) (s.reg (Reg.coreJobFiniteRun n)) (s.core n).growthInterval
    (s.core n).growthLog2 (s.reg (Reg.coreJobBiasCorr n)) := rfl

/-- What a core shows of a record that it has loaded: the record without what none of its fields holds. -/
def shownRecord (x : Nat) : Nat := packRecord (bits x 255 0) (bits x 295 256) (bits x 351 320) (bits x 383 352) (bits x 415 384)
  (bits x 447 416) (bits x 455 448) (bits x 511 480)

theorem Job.seed_lt (j : Job) : j.seed < 2 ^ 256 := Nat.mod_lt _ (by decide)

theorem seedRecord_eq_add (seed : Nat) : seedRecord seed = seed + seedRecord 0 := by
  simp only [seedRecord, Nat.zero_add, Nat.add_assoc]

/-- The defaults of a seed record lie above the seed. -/
theorem seedRecord_zero : seedRecord 0 = 2 ^ 256 * (seedRecord 0 / 2 ^ 256) := by decide +kernel

section
variable {seed : Nat} (h : seed < 2 ^ 256)
include h

theorem bits_seedRecord_seed : bits (seedRecord seed) 255 0 = seed := by
  rw [seedRecord_eq_add, seedRecord_zero, bits, Nat.shiftRight_zero, Nat.add_mul_mod_self_left, Nat.mod_eq_of_lt h]

/-- The fields above the seed are the same for every seed. -/
theorem bits_seedRecord_above {hi lo : Nat} (hlo : 256 ≤ lo) : bits (seedRecord seed) hi lo = bits (seedRecord 0) hi lo := by
  have hdiv : seedRecord seed / 2 ^ 256 = seedRecord 0 / 2 ^ 256 := by
    rw [seedRecord_eq_add, seedRecord_zero, Nat.add_mul_div_left _ _ (by positivity), Nat.div_eq_of_lt h, Nat.zero_add,
      ← seedRecord_zero]
  obtain ⟨k, rfl⟩ := Nat.exists_eq_add_of_le hlo
  simp only [bits, Nat.shiftRight_eq_div_pow, pow_add, ← Nat.div_div_eq_div_mul, hdiv]

theorem jobRecordOk_seedRecord : jobRecordOk (seedRecord seed) = true := by
  rw [jobRecordOk, bits_seedRecord_above h (by decide), bits_seedRecord_above h (by decide)]
  decide

theorem packRecord_seed (step skip scale run interval log2 corr : Nat) :
    packRecord seed step skip scale run interval log2 corr = seed + packRecord 0 step skip scale run interval log2 corr := by
  have htrunc : trunc 256 seed = seed := Nat.mod_eq_of_lt h
  unfold packRecord
  rw [htrunc, show trunc 256 0 = 0 from rfl]
  generalize trunc 40 step <<< 256 = a, skip <<< 320 = b, scale <<< 352 = c, run <<< 384 = d, trunc 32 interval <<< 416 = e,
    trunc 8 log2 <<< 448 = f, corr <<< 480 = g
  omega

theorem shownRecord_seedRecord : shownRecord (seedRecord seed) = seedRecord seed := by
  have hzero : shownRecord (seedRecord 0) = seedRecord 0 := by decide +kernel
  rw [shownRecord, bits_seedRecord_seed (by decide)] at hzero
  rw [shownRecord, bits_seedRecord_seed h, packRecord_seed h]
  iterate 7 rw [bits_seedRecord_above h (by decide)]
  rw [hzero, ← seedRecord_eq_add]

theorem leNat_seedRecord : leNat (leBytes 64 (seedRecord seed)) = seedRecord seed := by
  have hzero : seedRecord 0 < 2 ^ 511 := by decide +kernel
  rw [leNat_leBytes, seedRecord_eq_add, Nat.mod_eq_of_lt]
  calc seed + seedRecord 0 < 2 ^ 256 + 2 ^ 511 := Nat.add_lt_add h hzero
    _ < 2 ^ (8 * 64) := by decide +kernel

end

/-! ## Registers that are set one after another -/

/-- The registers of the list are set to its values. -/
def M.setRegs (s : M) (l : List (Nat × Nat)) : M := l.foldl (fun t p => t.setReg p.1 p.2) s

theorem M.core_setRegs (s : M) (l : List (Nat × Nat)) (n : Nat) : (s.setRegs l).core n = s.core n :=
  List.foldlRecOn l _ (motive := fun t : M => t.core n = s.core n) rfl fun _ ht _ _ => ht

theorem M.wf_setRegs {s : M} (h : s.wf = true) (l : List (Nat × Nat)) : (s.setRegs l).wf = true :=
  List.foldlRecOn l _ (motive := fun t : M => t.wf = true) h fun _ ht p _ => M.wf_setReg p.1 p.2 ht

theorem M.reg_setRegs_other (s : M) {l : List (Nat × Nat)} {o : Nat} (ho : o ∉ l.map Prod.fst) : (s.setRegs l).reg o = s.reg o :=
  List.foldlRecOn l _ (motive := fun t : M => t.reg o = s.reg o) rfl fun t ht p hp =>
    (M.reg_setReg_other t p.2 fun e : o = p.1 => ho (e ▸ List.mem_map_of_mem hp)).trans ht

/-- Registers that are set, each once, read as they were set. -/
theorem M.reg_setRegs {s : M} (hw : s.wf = true) {l : List (Nat × Nat)} (hl : (l.map Prod.fst).Nodup) :
    ∀ p ∈ l, (s.setRegs l).reg p.1 = p.2 := by
  induction l generalizing s with
  | nil => exact fun p hp => absurd hp List.not_mem_nil
  | cons p l ih =>
    obtain ⟨hp, hl⟩ := List.nodup_cons.1 hl
    have hother := M.reg_setRegs_other (s.setReg p.1 p.2) hp
    exact List.forall_mem_cons.2 ⟨hother.trans (M.reg_setReg_self s p.1 p.2 hw), ih (M.wf_setReg _ _ hw) hl⟩

/-! ## A core and its registers -/

/-- The registers of logical core n lie here. -/
def Reg.ofCore (n o : Nat) : Prop := o / 0x10000 = 0x100 + n

theorem Reg.ofCore_inj {n k o : Nat} (hn : Reg.ofCore n o) (hk : Reg.ofCore k o) : k = n := by
  unfold Reg.ofCore at *
  omega

/-- The registers that stand in a core's job state record (Table 04-3). -/
def Reg.recordRegs (n : Nat) : List Nat := Reg.coreStep n :: Reg.jobs n

theorem Reg.ofCore_recordRegs {n o : Nat} (h : o ∈ Reg.recordRegs n) : Reg.ofCore n o := by
  simp only [Reg.recordRegs, Reg.jobs, Reg.coreStep, Reg.coreJobLossScale, Reg.coreJobFiniteRun, Reg.coreJobSkipCount,
    Reg.coreJobBiasCorr, List.mem_cons, List.not_mem_nil, or_false] at h
  unfold Reg.ofCore
  omega

/-- A register of core n that stands in no job state record. -/
def Reg.besideRecord (n o : Nat) : Prop := Reg.ofCore n o ∧ o ∉ Reg.recordRegs n

/-- The registers of a core's rings and passes lie between those of its job state. -/
theorem Reg.besideRecord_between {n o : Nat} (hlo : 0x1000008 + 0x10000 * n < o) (hhi : o < 0x1003000 + 0x10000 * n) :
    Reg.besideRecord n o := by
  simp only [Reg.besideRecord, Reg.ofCore, Reg.recordRegs, Reg.jobs, Reg.coreStep, Reg.coreJobLossScale, Reg.coreJobFiniteRun,
    Reg.coreJobSkipCount, Reg.coreJobBiasCorr, List.mem_cons, List.not_mem_nil, or_false]
  omega

theorem Reg.besideRecord_passCount {n p : Nat} (hp : p < 256) : Reg.besideRecord n (Reg.corePassCount n p) :=
  Reg.besideRecord_between (by unfold Reg.corePassCount; omega) (by unfold Reg.corePassCount; omega)

/-- The second machine has core n and its registers as the first. -/
def M.sameCore (s : M) (n : Nat) (t : M) : Prop := t.core n = s.core n ∧ ∀ o, Reg.ofCore n o → t.reg o = s.reg o

theorem M.sameCore.trans {s t u : M} {n : Nat} (h : s.sameCore n t) (h' : t.sameCore n u) : s.sameCore n u :=
  ⟨h'.1.trans h.1, fun o ho => (h'.2 o ho).trans (h.2 o ho)⟩

/-- The second machine is sound, and has stores, queues and all cores as the first, but for those of the list. -/
structure M.onlyCores (s : M) (l : List Nat) (t : M) : Prop where
  wf : t.wf = true
  core : ∀ k, k ∉ l → s.sameCore k t
  stores : s.sameStores t
  queues : t.hostQ = s.hostQ

section
variable {s t : M} {n : Nat}

theorem M.onlyCores.refl (hw : s.wf = true) (l : List Nat) : s.onlyCores l s :=
  ⟨hw, fun _ _ => ⟨rfl, fun _ _ => rfl⟩, ⟨rfl, rfl⟩, rfl⟩

theorem M.onlyCores.trans {u : M} {l : List Nat} (h : s.onlyCores [n] t) (h' : t.onlyCores l u) : s.onlyCores (n :: l) u where
  wf := h'.wf
  core k hk := by
    obtain ⟨hn, hl⟩ := not_or.1 (List.mem_cons.not.1 hk)
    exact (h.core k (List.mem_singleton.not.2 hn)).trans (h'.core k hl)
  stores := ⟨h'.stores.1.trans h.stores.1, h'.stores.2.trans h.stores.2⟩
  queues := h'.queues.trans h.queues

theorem M.onlyCores.setReg {o : Nat} (h : s.onlyCores [n] t) (ho : Reg.ofCore n o) (v : Nat) : s.onlyCores [n] (t.setReg o v) where
  wf := M.wf_setReg _ _ h.wf
  core k hk := ⟨(h.core k hk).1, fun o' ho' => (M.reg_setReg_other t v fun e : o' = o =>
    hk (List.mem_singleton.2 (Reg.ofCore_inj ho (e ▸ ho')))).trans ((h.core k hk).2 o' ho')⟩
  stores := h.stores
  queues := h.queues

theorem M.onlyCores.setRegs {l : List (Nat × Nat)} (h : s.onlyCores [n] t) (hl : ∀ p ∈ l, Reg.ofCore n p.1) :
    s.onlyCores [n] (t.setRegs l) :=
  List.foldlRecOn l _ h fun _ ht p hp => ht.setReg (hl p hp) p.2

theorem M.onlyCores.setCore (h : s.onlyCores [n] t) (c : Core) : s.onlyCores [n] (t.setCore n c) where
  wf := M.wf_setCore _ _ h.wf
  core k hk := ⟨(M.core_setCore_other t c (List.mem_singleton.not.1 hk)).trans (h.core k hk).1, (h.core k hk).2⟩
  stores := h.stores
  queues := h.queues

end

/-! ## The job state of a core (R309, Table 04-3) -/

/-- The core with the fields of a job state record that lie beside the registers. -/
def Core.withRecord (c : Core) (x : Nat) : Core :=
  { c with seed := bits x 255 0, growthInterval := bits x 447 416, growthLog2 := bits x 455 448 }

theorem M.jobRecord_congr {s t : M} {n : Nat} (hs : (t.core n).seed = (s.core n).seed)
    (hi : (t.core n).growthInterval = (s.core n).growthInterval) (hl : (t.core n).growthLog2 = (s.core n).growthLog2)
    (hr : ∀ o ∈ Reg.recordRegs n, t.reg o = s.reg o) : t.jobRecord n = s.jobRecord n := by
  simp only [Reg.recordRegs, Reg.jobs, List.forall_mem_cons] at hr
  obtain ⟨hstep, hscale, hrun, hskip, hcorr, -⟩ := hr
  rw [M.jobRecord_eq, M.jobRecord_eq, hs, hi, hl, hstep, hscale, hrun, hskip, hcorr]

/-- Core n is being prepared: beside it nothing has changed, it holds this job state, and its x registers are as they were. -/
structure M.preparing (s : M) (n record : Nat) (t : M) : Prop where
  rest : s.onlyCores [n] t
  record : t.jobRecord n = record
  x : (t.core n).ctl.x = (s.core n).ctl.x

section
variable {s t : M} {n r : Nat}

theorem M.preparing.setReg {o : Nat} (h : s.preparing n r t) (ho : Reg.besideRecord n o) (v : Nat) : s.preparing n r (t.setReg o v) where
  rest := h.rest.setReg ho.1 v
  record := by
    rw [M.jobRecord_congr (s := t) (t := t.setReg _ v) rfl rfl rfl fun o' ho' => ?_, h.record]
    exact M.reg_setReg_other t v fun e => ho.2 (e ▸ ho')
  x := h.x

theorem M.preparing.setRegs {l : List (Nat × Nat)} (h : s.preparing n r t) (hl : ∀ p ∈ l, Reg.besideRecord n p.1) :
    s.preparing n r (t.setRegs l) :=
  List.foldlRecOn l _ h fun _ ht p hp => ht.setReg (hl p hp) p.2

theorem M.preparing.withRing (h : s.preparing n r t) (e : Nat) (f : Ring → Ring) : s.preparing n r (t.withRing n e f) := by
  have hset : ∀ (c : Core) (g : Ring), (c.setRing e g).seed = c.seed ∧ (c.setRing e g).growthInterval = c.growthInterval ∧
      (c.setRing e g).growthLog2 = c.growthLog2 ∧ (c.setRing e g).ctl = c.ctl := fun c g => by
    match e with
    | 0 | 1 | 2 | _ + 3 => exact ⟨rfl, rfl, rfl, rfl⟩
  obtain ⟨hs, hi, hl, hc⟩ := hset (t.core n) (f (t.ring n e))
  have hcore : (t.withRing n e f).core n = (t.core n).setRing e (f (t.ring n e)) := M.core_setCore_self _ _ _ h.rest.wf
  refine ⟨h.rest.setCore _, ?_, ?_⟩
  · rw [M.jobRecord_congr (s := t) (t := t.withRing n e f) (by rw [hcore, hs]) (by rw [hcore, hi]) (by rw [hcore, hl]) fun _ _ => rfl,
      h.record]
  · rw [hcore, hc, h.x]

end

/-- The registers that a job state record sets, and their values. -/
def recordValues (n x : Nat) : List (Nat × Nat) :=
  [(Reg.coreStep n, bits x 295 256), (Reg.coreJobSkipCount n, bits x 351 320), (Reg.coreJobLossScale n, bits x 383 352),
    (Reg.coreJobFiniteRun n, bits x 415 384), (Reg.coreJobBiasCorr n, bits x 511 480)]

theorem ofCore_recordValues {n x : Nat} : ∀ p ∈ recordValues n x, Reg.ofCore n p.1 := by
  simp only [recordValues, List.forall_mem_cons, Reg.ofCore, Reg.coreStep, Reg.coreJobLossScale, Reg.coreJobFiniteRun, Reg.coreJobSkipCount,
    Reg.coreJobBiasCorr]
  exact ⟨by omega, by omega, by omega, by omega, by omega, nofun⟩

theorem nodup_recordValues (n x : Nat) : ((recordValues n x).map Prod.fst).Nodup := by
  simp [recordValues, Reg.coreStep, Reg.coreJobLossScale, Reg.coreJobFiniteRun, Reg.coreJobSkipCount, Reg.coreJobBiasCorr]

/-- A core that loads a record shows it, and its control core stays as it was. -/
theorem loadJobRecord_prepares {s : M} (hw : s.wf = true) (n x : Nat) : s.preparing n (shownRecord x) (loadJobRecord n x s).2 := by
  have hload : (loadJobRecord n x s).2 = (s.setCore n ((s.core n).withRecord x)).setRegs (recordValues n x) := rfl
  have hwc : (s.setCore n ((s.core n).withRecord x)).wf = true := M.wf_setCore _ _ hw
  have hcore : (loadJobRecord n x s).2.core n = (s.core n).withRecord x := by
    rw [hload, M.core_setRegs, M.core_setCore_self _ _ _ hw]
  refine ⟨hload ▸ ((M.onlyCores.refl hw [n]).setCore _).setRegs ofCore_recordValues, ?_, congrArg (·.ctl.x) hcore⟩
  have hregs := M.reg_setRegs hwc (nodup_recordValues n x)
  rw [← hload] at hregs
  simp only [recordValues, List.forall_mem_cons] at hregs
  obtain ⟨hstep, hskip, hscale, hrun, hcorr, -⟩ := hregs
  rw [M.jobRecord_eq, hcore, hstep, hskip, hscale, hrun, hcorr]
  rfl

/-! ## The rings of a core (R309) -/

/-- A ring is emptied up to its WR, and halts. -/
def resetRing (n e : Nat) : Act Unit := do
  let s ← get
  let w := s.reg (Reg.coreRingWr n e)
  wr (Reg.coreRingRd n e) w
  wr (Reg.coreRingRet n e) w
  wr (Reg.coreRingCtl n e) 0
  updRing n e Ring.emptied

/-- The ring is empty and halted. -/
def M.ringReset (t : M) (n e : Nat) : Prop :=
  t.reg (Reg.coreRingCtl n e) = 0 ∧ (t.ring n e).infl = [] ∧
    t.reg (Reg.coreRingRd n e) = t.reg (Reg.coreRingWr n e) ∧ t.reg (Reg.coreRingRet n e) = t.reg (Reg.coreRingWr n e)

/-- The registers that a ring's reset sets, and their values. -/
def ringValues (n e w : Nat) : List (Nat × Nat) := [(Reg.coreRingRd n e, w), (Reg.coreRingRet n e, w), (Reg.coreRingCtl n e, 0)]

theorem run_resetRing (n e : Nat) (s : M) :
    (resetRing n e s).2 = (s.setRegs (ringValues n e (s.reg (Reg.coreRingWr n e)))).withRing n e Ring.emptied := rfl

theorem besideRecord_ringValues {n e w : Nat} (he : e < 4) : ∀ p ∈ ringValues n e w, Reg.besideRecord n p.1 := fun p hp => by
  have ho := List.mem_map_of_mem (f := Prod.fst) hp
  simp only [ringValues, List.map_cons, List.map_nil, Reg.coreRingRd, Reg.coreRingRet, Reg.coreRingCtl, List.mem_cons, List.not_mem_nil,
    or_false] at ho
  exact Reg.besideRecord_between (by omega) (by omega)

theorem M.ring_withRing_other {s : M} (h : s.wf = true) (n : Nat) {e k : Nat} (he : e < 4) (hk : k < 4) (hne : k ≠ e) (f : Ring → Ring) :
    (s.withRing n e f).ring n k = s.ring n k := by
  rw [M.withRing, M.ring, M.core_setCore_self _ _ _ h]
  match e, k with
  | 0, 0 | 1, 1 | 2, 2 | 3, 3 => exact absurd rfl hne
  | 0, 1 | 0, 2 | 0, 3 | 1, 0 | 1, 2 | 1, 3 | 2, 0 | 2, 1 | 2, 3 | 3, 0 | 3, 1 | 3, 2 => rfl

/-- The registers of a ring that say whether it is reset. -/
def ringPlaces (n e : Nat) : List Nat := [Reg.coreRingCtl n e, Reg.coreRingWr n e, Reg.coreRingRd n e, Reg.coreRingRet n e]

theorem M.ringReset_congr {s t : M} {n e : Nat} (hr : ∀ o ∈ ringPlaces n e, t.reg o = s.reg o) (hg : t.ring n e = s.ring n e)
    (h : s.ringReset n e) : t.ringReset n e := by
  simp only [ringPlaces, List.forall_mem_cons] at hr
  obtain ⟨hctl, hwr, hrd, hret, -⟩ := hr
  rwa [M.ringReset, hctl, hwr, hrd, hret, hg]

theorem keepsPreparing_resetRing {s : M} {n r e : Nat} (he : e < 4) : Keeps (s.preparing n r) (resetRing n e) := fun _ h =>
  (h.setRegs (besideRecord_ringValues he)).withRing e _

theorem ringReset_resetRing {s : M} (hw : s.wf = true) (n e : Nat) : (resetRing n e s).2.ringReset n e := by
  rw [run_resetRing]
  generalize hv : s.reg (Reg.coreRingWr n e) = w
  have hregs := M.reg_setRegs hw (l := ringValues n e w) (by simp [ringValues, Reg.coreRingRd, Reg.coreRingRet, Reg.coreRingCtl])
  simp only [ringValues, List.forall_mem_cons] at hregs
  obtain ⟨hrd, hret, hctl, -⟩ := hregs
  have hwr : (s.setRegs (ringValues n e w)).reg (Reg.coreRingWr n e) = w := by
    rw [M.reg_setRegs_other, hv]
    simp [ringValues, Reg.coreRingWr, Reg.coreRingRd, Reg.coreRingRet, Reg.coreRingCtl]
  have hwf : (s.setRegs (ringValues n e w)).wf = true := M.wf_setRegs hw _
  refine ⟨hctl, ?_, hrd.trans hwr.symm, hret.trans hwr.symm⟩
  rw [M.ring_withRing_self hwf]
  rfl

theorem ringReset_resetRing_other {s : M} (hw : s.wf = true) {n e k : Nat} (he : e < 4) (hk : k < 4) (hne : k ≠ e) (h : s.ringReset n k) :
    (resetRing n e s).2.ringReset n k := by
  rw [run_resetRing]
  refine M.ringReset_congr (s := s) (fun o ho => M.reg_setRegs_other s ?_) ?_ h
  swap
  · rw [M.ring_withRing_other (M.wf_setRegs hw _) n he hk hne, M.ring, M.core_setRegs, M.ring]
  simp only [ringPlaces, ringValues, Reg.coreRingCtl, Reg.coreRingWr, Reg.coreRingRd, Reg.coreRingRet, List.map_cons, List.map_nil,
    List.mem_cons, List.not_mem_nil, or_false] at ho ⊢
  omega

/-! ## The preparation of one core (R309) -/

/-- A core is told of its job, the k-th of those that the job names (R309). -/
def Core.started (c : Core) (q : Nat) (j : Job) (k : Nat) : Core :=
  { c with job := some (q, j.x), exited := none, opens := 0
           ctl := { x := ((c.ctl.x.set 9 j.arg).set 10 k).set 11 j.tag, pc := j.pc, machine := false, running := true } }

/-- Every pass count of a core is set to 0. -/
def clearPasses (n : Nat) : Act Unit := forA (List.range 256) fun p => wr (Reg.corePassCount n p) 0

/-- The four rings of a core are reset. -/
def resetRings (n : Nat) : Act Unit := forA (List.range 4) (resetRing n)

theorem prepareCore_eq (q : Nat) (j : Job) (n k : Nat) : prepareCore q j n k = (do
    clearPasses n
    resetRings n
    updCore n (·.started q j k)) := rfl

theorem run_prepareCore (q : Nat) (j : Job) (n k : Nat) (s : M) : (prepareCore q j n k s).2 =
    (resetRings n (clearPasses n s).2).2.setCore n (((resetRings n (clearPasses n s).2).2.core n).started q j k) := by
  rw [prepareCore_eq, run_bind, run_bind, run_updCore]

/-- The k-th core of the job is prepared for it (R309). -/
def M.prepared (s : M) (q x : Nat) (j : Job) (k n : Nat) (m : M) : Prop :=
  let c := m.core n
  c.job = some (q, x) ∧ c.exited = none ∧ c.ctl.pc = j.pc ∧ c.ctl.running = true ∧ c.ctl.machine = false ∧
    c.ctl.x = (((s.core n).ctl.x.set 9 j.arg).set 10 k).set 11 j.tag ∧ m.jobRecord n = seedRecord j.seed ∧
    (∀ p, p < 256 → m.reg (Reg.corePassCount n p) = 0) ∧ ∀ e, e < 4 → m.ringReset n e

section
variable {s t : M} {n r : Nat}

theorem clearPasses_prepares (h : s.preparing n r t) :
    s.preparing n r (clearPasses n t).2 ∧ ∀ p, p < 256 → (clearPasses n t).2.reg (Reg.corePassCount n p) = 0 := by
  have hI : ∀ p ∈ List.range 256, Keeps (s.preparing n r) (wr (Reg.corePassCount n p) 0) := fun p hp u hu =>
    hu.setReg (Reg.besideRecord_passCount (List.mem_range.1 hp)) 0
  refine ⟨keeps_forA_mem hI t h, fun p hp => forA_settles (P := fun u => u.reg (Reg.corePassCount n p) = 0) (x := p) hI
    (fun y _ u hu hor => ?_) h (.inr (List.mem_range.2 hp))⟩
  by_cases hpy : Reg.corePassCount n p = Reg.corePassCount n y
  · rw [hpy]
    exact M.reg_setReg_self u _ 0 hu.rest.wf
  · exact (M.reg_setReg_other u 0 hpy).trans (hor.resolve_right fun e => hpy (e ▸ rfl))

theorem resetRings_prepares (h : s.preparing n r t) :
    s.preparing n r (resetRings n t).2 ∧ ∀ e, e < 4 → (resetRings n t).2.ringReset n e := by
  have hI : ∀ e ∈ List.range 4, Keeps (s.preparing n r) (resetRing n e) := fun e he => keepsPreparing_resetRing (List.mem_range.1 he)
  refine ⟨keeps_forA_mem hI t h, fun e he => forA_settles (P := fun u => u.ringReset n e) (x := e) hI
    (fun y hy u hu hor => ?_) h (.inr (List.mem_range.2 he))⟩
  by_cases hey : e = y
  · exact hey ▸ ringReset_resetRing hu.rest.wf n e
  · exact ringReset_resetRing_other hu.rest.wf (List.mem_range.1 hy) he hey (hor.resolve_right hey)

/-- The reset of the rings leaves the passes alone. -/
theorem reg_resetRings_passCount {p : Nat} (hp : p < 256) : (resetRings n t).2.reg (Reg.corePassCount n p) =
    t.reg (Reg.corePassCount n p) := by
  refine keeps_forA_mem (P := fun u => u.reg (Reg.corePassCount n p) = t.reg (Reg.corePassCount n p)) (fun e he u hu => ?_) t rfl
  have he := List.mem_range.1 he
  show (resetRing n e u).2.reg _ = _
  rw [run_resetRing, M.withRing, M.reg_setCore, M.reg_setRegs_other, hu]
  simp only [ringValues, Reg.corePassCount, Reg.coreRingCtl, Reg.coreRingRd, Reg.coreRingRet, List.map_cons, List.map_nil,
    List.mem_cons, List.not_mem_nil, or_false]
  omega

end

/-- A core that is reset and holds its job state is prepared when it is told of its job. -/
theorem M.preparing.started {s u : M} {q k n : Nat} {j : Job} (h : s.preparing n (seedRecord j.seed) u)
    (hpass : ∀ p, p < 256 → u.reg (Reg.corePassCount n p) = 0) (hrings : ∀ e, e < 4 → u.ringReset n e) :
    s.onlyCores [n] (u.setCore n ((u.core n).started q j k)) ∧ s.prepared q j.x j k n (u.setCore n ((u.core n).started q j k)) := by
  have hcore := M.core_setCore_self u n ((u.core n).started q j k) h.rest.wf
  refine ⟨h.rest.setCore _, ?_⟩
  unfold M.prepared
  rw [hcore, ← h.x]
  refine ⟨rfl, rfl, rfl, rfl, rfl, rfl, ?_, hpass, fun e he => M.ringReset_congr (s := u) (fun _ _ => rfl) ?_ (hrings e he)⟩
  · rw [M.jobRecord_congr (s := u) (t := u.setCore n ((u.core n).started q j k)) (by rw [hcore]; rfl) (by rw [hcore]; rfl)
      (by rw [hcore]; rfl) fun _ _ => rfl, h.record]
  · rw [M.ring, hcore]
    match e with
    | 0 | 1 | 2 | _ + 3 => rfl

/-- The preparation of one core with a job state record, given with the core's place among those of the job. -/
def prepareNamed (q : Nat) (j : Job) (record : Nat) (p : Nat × Nat) : Act Unit := do
  loadJobRecord p.1 record
  prepareCore q j p.1 p.2

theorem run_prepareNamed (q : Nat) (j : Job) (record : Nat) (p : Nat × Nat) (s : M) :
    (prepareNamed q j record p s).2 = (prepareCore q j p.1 p.2 (loadJobRecord p.1 record s).2).2 := by
  rw [prepareNamed, run_bind]

/-- What the preparation of one core does (R309). -/
theorem prepareNamed_prepares {s : M} (hw : s.wf = true) (q : Nat) (j : Job) (p : Nat × Nat) :
    s.onlyCores [p.1] (prepareNamed q j (seedRecord j.seed) p s).2 ∧
      s.prepared q j.x j p.2 p.1 (prepareNamed q j (seedRecord j.seed) p s).2 := by
  have hload := loadJobRecord_prepares hw p.1 (seedRecord j.seed)
  rw [shownRecord_seedRecord j.seed_lt] at hload
  obtain ⟨hclear, hpass⟩ := clearPasses_prepares hload
  obtain ⟨hreset, hrings⟩ := resetRings_prepares hclear
  rw [run_prepareNamed, run_prepareCore]
  exact hreset.started (fun e he => (reg_resetRings_passCount he).trans (hpass e he)) hrings

/-- That a core is prepared says nothing but of the core and its registers. -/
theorem M.prepared_congr {s t u : M} {q x k n : Nat} {j : Job} (h : t.sameCore n u) (hp : s.prepared q x j k n t) :
    s.prepared q x j k n u := by
  obtain ⟨hjob, hexited, hpc, hrun, hmode, hx, hrec, hpass, hrings⟩ := hp
  obtain ⟨hc, hr⟩ := h
  unfold M.prepared
  rw [hc]
  refine ⟨hjob, hexited, hpc, hrun, hmode, hx, ?_, fun p hp => ?_, fun e he => ?_⟩
  · rw [M.jobRecord_congr (s := t) (t := u) (by rw [hc]) (by rw [hc]) (by rw [hc]) fun o ho => hr o (Reg.ofCore_recordRegs ho), hrec]
  · rw [hr _ (Reg.besideRecord_passCount hp).1, hpass p hp]
  · refine M.ringReset_congr (s := t) (fun o ho => hr o ?_) ?_ (hrings e he)
    · simp only [ringPlaces, Reg.coreRingCtl, Reg.coreRingWr, Reg.coreRingRd, Reg.coreRingRet, List.mem_cons, List.not_mem_nil,
        or_false] at ho
      unfold Reg.ofCore
      omega
    · rw [M.ring, hc, M.ring]

/-! ## Admission (R308, R309) -/

/-- Every core of the list is prepared, and nothing else changes. -/
theorem prepareNamed_all (q : Nat) (j : Job) {l : List (Nat × Nat)} (hl : (l.map Prod.fst).Nodup) {s : M} (hw : s.wf = true) :
    s.onlyCores (l.map Prod.fst) (forA l (prepareNamed q j (seedRecord j.seed)) s).2 ∧
      ∀ p ∈ l, s.prepared q j.x j p.2 p.1 (forA l (prepareNamed q j (seedRecord j.seed)) s).2 := by
  induction l generalizing s with
  | nil => exact ⟨.refl hw [], fun p hp => absurd hp List.not_mem_nil⟩
  | cons p l ih =>
    obtain ⟨hp, hl⟩ := List.nodup_cons.1 hl
    obtain ⟨hfirst, hprep⟩ := prepareNamed_prepares hw q j p
    obtain ⟨hrest, hall⟩ := ih hl hfirst.wf
    rw [run_forA_cons]
    refine ⟨hfirst.trans hrest, List.forall_mem_cons.2 ⟨M.prepared_congr (hrest.core p.1 hp) hprep, fun k hk => ?_⟩⟩
    have hk' : k.1 ∉ [p.1] := List.mem_singleton.not.2 fun e => hp (e ▸ List.mem_map_of_mem hk)
    obtain ⟨hjob, hexited, hpc, hrun, hmode, hx, hkept⟩ := hall k hk
    exact ⟨hjob, hexited, hpc, hrun, hmode, by rw [hx, (hfirst.core k.1 hk').1], hkept⟩

theorem Job.nodup_cores (j : Job) : j.cores.Nodup := List.nodup_range.filter _

/-- The entry of an admitted job takes the place of the one that waited. -/
def HostQ.enrol (h : HostQ) (x : Nat) (j : Job) : HostQ := { h with jobs := h.jobs.map fun k => if k.x = x then j else k }

theorem M.queue_put {s : M} (hw : s.wf = true) (q : Nat) (h : HostQ) :
    ({ s with hostQ := Tab.put HostQ.init s.hostQ q h } : M).queue q = h :=
  Tab.read_put_self _ _ _ _ (by simp_all [M.wf])

/-- A job that waits is in its queue, under its number. -/
theorem M.waitingJob_some {s : M} {q x : Nat} {j : Job} (h : s.waitingJob q x = some j) : j ∈ (s.queue q).jobs ∧ j.x = x := by
  have hp := List.find?_some h
  simp only [Bool.and_eq_true, beq_iff_eq] at hp
  exact ⟨List.mem_of_find?_eq_some h, hp.1.1⟩

/-- Where a job of number x stands, the admitted job is the first that runs under that number. -/
theorem HostQ.find_enrol {h : HostQ} {x : Nat} {j k : Job} (hk : k ∈ h.jobs) (hkx : k.x = x) (hj : j.x = x)
    (hr : j.running = true) :
    (h.enrol x j).jobs.find? (fun i => i.x == x && i.running) = some j := by
  have hcomp : ((fun i : Job => i.x == x && i.running) ∘ fun i => if i.x = x then j else i) = fun i => i.x == x := by
    funext i
    by_cases hi : i.x = x <;> simp [hi, hj, hr]
  rw [HostQ.enrol, List.find?_map, hcomp]
  obtain ⟨i, hi⟩ : ∃ i, h.jobs.find? (fun i => i.x == x) = some i :=
    Option.isSome_iff_exists.1 (List.find?_isSome.2 ⟨k, hk, by simp [hkx]⟩)
  have hix : i.x = x := by simpa using List.find?_some hi
  rw [hi, Option.map_some, if_pos hix]

/-- The admission of a job whose job state has been read (R307, R309). -/
def admitWith (q x : Nat) (j : Job) (poison : Bool) (record : Nat) : Act Unit :=
  if poison then complete q j 3 0xFF 0 0 0
  else if !jobRecordOk record then complete q j 1 0xFF 0 0 0
  else do
    forA j.cores.zipIdx (prepareNamed q j record)
    updQueue q (·.enrol x { j with running := true })

/-- The job state of an entry: whether it is poisoned, and its bytes (R309). -/
def jobState (j : Job) : Act (Bool × List Byte) :=
  if j.stateEn then readBytes j.stateAddr 64 else pure (false, leBytes 64 (seedRecord j.seed))

theorem run_jobState {j : Job} (h : j.stateEn = false) (s : M) : jobState j s = ((false, leBytes 64 (seedRecord j.seed)), s) := by
  rw [jobState, h, if_neg Bool.false_ne_true, run_pure]

/-- The job with the time that it waited for its admission. -/
def Job.waited (j : Job) (us : Nat) : Job := { j with wait := satU 32 us }

theorem admitJob_eq (q x us : Nat) : admitJob q x us = (do
    let s ← get
    match s.waitingJob q x with
    | none => pure ()
    | some j =>
      if s.nextAdmitted != some (q, x) then pure ()
      else do
        let r ← jobState j
        admitWith q x (j.waited us) r.1 (leNat r.2)) := by
  unfold admitJob
  refine congrArg (MonadState.get >>= ·) (funext fun s => ?_)
  cases s.waitingJob q x with
  | none => rfl
  | some j =>
    dsimp only
    split
    · rfl
    · unfold jobState
      generalize leBytes 64 (seedRecord j.seed) = bs
      cases j.stateEn with
      | true => rfl
      | false => rfl

/-- A sound job state is loaded into every core of the job, and its entry runs. -/
theorem run_admitWith_sound {record : Nat} (h : jobRecordOk record = true) (q x : Nat) (j : Job) (s : M) :
    (admitWith q x j false record s).2 =
      (updQueue q (·.enrol x { j with running := true }) (forA j.cores.zipIdx (prepareNamed q j record) s).2).2 := by
  simp only [admitWith, h, Bool.false_eq_true, if_false, Bool.not_true, run_bind]

section
variable {s : State} {q x us : Nat} {j : Job} (hl : s.m.board.live = true) (hj : s.m.waitingJob q x = some j)
include hl hj

/-- A job that is not next waits (R308). -/
theorem exec_jobAdmission_waits (h : s.m.nextAdmitted ≠ some (q, x)) : exec (.jobAdmission q x us) s = .next s := by
  show execJobAdmission q x us s = _
  rw [execJobAdmission, State.doing_live s _ hl, admitJob, run_bind, run_get]
  simp [hj, h]

omit hl in
/-- The action of an admission without a state record. -/
theorem run_admitJob_free (h : s.m.nextAdmitted = some (q, x)) (hstate : j.stateEn = false) : (admitJob q x us s.m).2 =
    (updQueue q (·.enrol x { j.waited us with running := true })
      (forA j.cores.zipIdx (prepareNamed q (j.waited us) (seedRecord j.seed)) s.m).2).2 := by
  rw [admitJob_eq, run_bind, run_get, hj]
  dsimp only
  rw [if_neg (by simp [h]), run_bind, run_jobState hstate, leNat_seedRecord j.seed_lt,
    run_admitWith_sound (jobRecordOk_seedRecord j.seed_lt)]
  rfl

/-- A job that is next is admitted (R308, R309). -/
theorem exec_jobAdmission_admits (hw : s.m.wf = true) (h : s.m.nextAdmitted = some (q, x)) (hstate : j.stateEn = false) :
    s.ends (exec (.jobAdmission q x us) s) fun m =>
      m.runningJob q x = some { j.waited us with running := true } ∧
      (∀ k n, j.cores[k]? = some n → s.m.prepared q x j k n m) ∧ (∀ n, n ∉ j.cores → m.core n = s.m.core n) ∧ s.m.sameStores m := by
  have hnodup : (j.cores.zipIdx.map Prod.fst).Nodup := by rw [List.zipIdx_map_fst]; exact j.nodup_cores
  obtain ⟨hmem, hjx⟩ := M.waitingJob_some hj
  have hall := prepareNamed_all q (j.waited us) hnodup hw
  rw [show (j.waited us).seed = j.seed from rfl, show (j.waited us).x = x from hjx, List.zipIdx_map_fst] at hall
  refine ⟨(admitJob q x us s.m).2, State.doing_live s _ hl, ?_⟩
  rw [run_admitJob_free hj h hstate]
  generalize (forA j.cores.zipIdx (prepareNamed q (j.waited us) (seedRecord j.seed)) s.m).2 = m at hall ⊢
  obtain ⟨honly, hprep⟩ := hall
  refine ⟨?_, fun k n hk => ?_, fun n hn => (honly.core n hn).1, honly.stores⟩
  · have hq : m.queue q = s.m.queue q := congrArg (Tab.read HostQ.init · q) honly.queues
    rw [updQueue, run_modify, M.runningJob, M.queue_put honly.wf, hq]
    exact HostQ.find_enrol hmem hjx hjx rfl
  · exact M.prepared_congr (t := m) (u := { m with hostQ := _ }) ⟨rfl, fun _ _ => rfl⟩
      (hprep (n, k) (List.mk_mem_zipIdx_iff_getElem?.2 hk))

end

/-! ## The exit call (R310) -/

section
variable {s : State} {n a0 a1 : Nat} (hl : s.m.board.live = true)
include hl

/-- The exit call is kept, and the control core stops (R310). -/
theorem exec_ecallExit_calls (hw : s.m.wf = true) (hjob : (s.m.core n).job.isSome = true) (hrun : (s.m.core n).ctl.running = true) :
    s.ends (exec (.ecallExit n a0 a1) s) fun m => m.core n = { s.m.core n with
      exited := some (a0, a1), ctl := { (s.m.core n).ctl with running := false } } ∧
      (∀ k, k ≠ n → m.core k = s.m.core k) ∧ s.m.sameStores m := by
  obtain ⟨r, hr⟩ := posCount_regs (s.m.posOf n) 32 8 0x10B 1 n s.m
  refine ⟨_, State.doing_live s _ hl, ?_⟩
  simp only [run_bind, run_get, hjob, hrun, Bool.and_self, run_whenA_true, run_updCore, hr]
  exact ⟨M.core_setCore_self s.m n _ hw, fun k hk => M.core_setCore_other s.m _ hk, rfl, rfl⟩

theorem exec_ecallExit_ignored (h : (s.m.core n).job.isSome = false ∨ (s.m.core n).ctl.running = false) :
    exec (.ecallExit n a0 a1) s = .next s := by
  show execEcallExit n a0 a1 s = _
  rw [execEcallExit, State.doing_live s _ hl, run_bind, run_get, Bool.and_eq_false_iff.2 h]
  rfl

end

/-! ## Completion (R310) -/

/-- The core is free of its job. -/
def Core.freed (c : Core) : Core := { c with job := none, exited := none }

/-- The cores of a job that completes. -/
def freeCores (l : List Nat) : Act Unit := forA l fun n => updCore n Core.freed

/-- Freeing cores changes nothing else. -/
theorem freeCores_frees (l : List Nat) {s : M} (hw : s.wf = true) :
    (∀ n ∈ l, (freeCores l s).2.core n = (s.core n).freed) ∧ (∀ n, n ∉ l → (freeCores l s).2.core n = s.core n) ∧
      { (freeCores l s).2 with cores := s.cores } = s := by
  unfold freeCores
  induction l generalizing s with
  | nil => exact ⟨fun n hn => absurd hn List.not_mem_nil, fun _ _ => rfl, rfl⟩
  | cons k l ih =>
    have hself : (s.setCore k (s.core k).freed).core k = (s.core k).freed := M.core_setCore_self _ _ _ hw
    obtain ⟨hin, hout, hrest⟩ := ih (M.wf_setCore k (s.core k).freed hw)
    rw [run_forA_cons, run_updCore]
    refine ⟨fun n hn => ?_, fun n hn => ?_, ?_⟩
    · by_cases hnk : n = k
      · subst hnk
        by_cases hnl : n ∈ l
        · rw [hin n hnl, hself]; rfl
        · rw [hout n hnl, hself]
      · rw [hin n ((List.mem_cons.1 hn).resolve_left hnk), M.core_setCore_other s _ hnk]
    · obtain ⟨hnk, hnl⟩ := not_or.1 (List.mem_cons.not.1 hn)
      rw [hout n hnl, M.core_setCore_other s _ hnk]
    · exact congrArg (fun t : M => { t with cores := s.cores }) hrest

/-- What core n has answered to its exit call. -/
def M.exitOf (s : M) (n : Nat) : Nat × Nat := (s.core n).exited.getD (0, 0)

/-- The cores of a job, each with what it has answered. -/
def M.exits (s : M) (j : Job) : List (Nat × Nat × Nat) := j.cores.map fun n => (n, s.exitOf n)

/-- Status, core and result that a job completes with (R310). -/
def M.jobResult (s : M) (j : Job) : Nat × Nat × Nat :=
  match (s.exits j).find? fun (_, a0, _) => a0 != 0 with
  | some (n, a0, a1) => (exitStatus a0, n, a1)
  | none => (0, 0xFF, ((s.exits j).map fun (_, _, a1) => a1).headD 0)

/-- Every core has called without an error. -/
theorem M.jobResult_ok {s : M} {j : Job} (h : ∀ n ∈ j.cores, ∃ a1, (s.core n).exited = some (0, a1)) :
    s.jobResult j = (0, 0xFF, (j.cores.map fun n => ((s.core n).exited.getD (0, 0)).2).headD 0) := by
  have hnone : (s.exits j).find? (fun (_, a0, _) => a0 != 0) = none := List.find?_eq_none.2 fun p hp => by
    obtain ⟨n, hn, rfl⟩ := List.mem_map.1 hp
    obtain ⟨a1, ha⟩ := h n hn
    simp [M.exitOf, ha]
  rw [M.jobResult, hnone, M.exits, List.map_map]
  rfl

/-- A core has called with an error, and none of a lower number. -/
theorem M.jobResult_error {s : M} {j : Job} {n a0 a1 : Nat} (hn : n ∈ j.cores) (hexit : (s.core n).exited = some (a0, a1)) (h0 : a0 ≠ 0)
    (hbefore : ∀ k ∈ j.cores, k < n → ∃ b, (s.core k).exited = some (0, b)) : s.jobResult j = (exitStatus a0, n, a1) := by
  obtain ⟨hn128, hbit⟩ := List.mem_filter.1 hn
  have hfirst : (j.cores.find? fun k => (s.exitOf k).1 != 0) = some n := by
    rw [Job.cores, List.find?_filter, List.find?_range_eq_some]
    refine ⟨by simp [hbit, M.exitOf, hexit, h0], hn128, fun k hk => ?_⟩
    by_cases hkb : bit j.coreBits k = true
    · obtain ⟨b, hb⟩ := hbefore k (List.mem_filter.2 ⟨List.mem_range.2 (hk.trans (List.mem_range.1 hn128)), hkb⟩) hk
      simp [M.exitOf, hb]
    · simp [hkb]
  have hsome : (s.exits j).find? (fun (_, a0, _) => a0 != 0) = some (n, s.exitOf n) := by
    rw [M.exits, List.find?_map]
    exact congrArg _ hfirst
  rw [M.jobResult, hsome, M.exitOf, hexit]
  rfl

section
variable {s : State} {q x ms : Nat} {j : Job} (hl : s.m.board.live = true) (hj : s.m.runningJob q x = some j)
include hl hj

/-- A job whose cores have all called and drained completes, on the machine in which they are free (R310). -/
theorem exec_jobComplete : exec (.jobComplete q x ms) s = s.becomes (if j.cores.all s.m.coreDone then
    (complete q j (s.m.jobResult j).1 (s.m.jobResult j).2.1 (s.m.jobResult j).2.2 (s.m.jobStep j) ms (freeCores j.cores s.m).2).2
    else s.m) := by
  show execJobComplete q x ms s = _
  rw [execJobComplete, State.doing_live s _ hl, run_bind, run_get]
  dsimp only
  rw [hj]
  dsimp only
  rw [run_whenA]
  cases j.cores.all s.m.coreDone with
  | false => rfl
  | true => rfl

end

/-! ## The statement -/

/-- Settles O33: the order of admission from how `nextAdmitted` searches, the admission from the preparation of each core, the completion
from what the exit calls have left. -/
theorem jobsAdmittedAndCompleted : Obligations.JobsAdmittedAndCompleted := by
  unfold Obligations.JobsAdmittedAndCompleted
  intro s q x hl hw ready
  refine ⟨M.nextAdmitted_some, M.nextAdmitted_none, fun j us hj => ⟨fun hfree hstate => ?_, exec_jobAdmission_waits hl hj⟩,
    fun _ _ _ => exec_ecallExit_calls hl hw, fun _ _ _ => exec_ecallExit_ignored hl, fun j ms hj => ⟨fun hdone => ?_, fun hdone => ?_⟩⟩
  · obtain ⟨m, hm, hrun, hprep, hrest, hstores⟩ := exec_jobAdmission_admits hl hj hw (us := us) hfree hstate
    exact ⟨m, hm, ⟨_, hrun, rfl, rfl⟩, hprep, hrest, hstores⟩
  · rw [exec_jobComplete hl hj, hdone]
    rfl
  · obtain ⟨hin, hout, hrest⟩ := freeCores_frees j.cores hw
    refine ⟨(freeCores j.cores s.m).2, hin, hout, hrest, fun h => ?_, fun n a0 a1 hn hexit h0 hbefore => ?_⟩
    · rw [exec_jobComplete hl hj, hdone, if_pos rfl, M.jobResult_ok h]
    · rw [exec_jobComplete hl hj, hdone, if_pos rfl, M.jobResult_error hn hexit h0 hbefore]

end Sys2Proof.Machine

/-! # Bring-up: the ready map, self-tests, slots and reset (R113, R197, R257, R369, R370, R376, R377, R379, R380, R391, R399, R400, R403)

First what noting an error and what a ready bit leave as they were; then the self-tests; then the check and acceptance of a slot; last
the core map and what bring-up writes at t0. -/

namespace Sys2Proof.Machine

/-! ## Single bits -/

/-- Setting a field leaves the bits above it alone. -/
theorem testBit_setBits_above {hi lo i : Nat} (h : hi < i) (hl : lo ≤ hi) (x v : Nat) :
    (setBits x hi lo v).testBit i = x.testBit i := by
  have hp : (2 : Nat) ^ (hi + 1) = 2 ^ lo * 2 ^ (hi + 1 - lo) := by rw [← pow_add]; congr 1; omega
  have hlo : x % 2 ^ lo < 2 ^ lo := Nat.mod_lt _ (by positivity)
  have hv : v % 2 ^ (hi + 1 - lo) < 2 ^ (hi + 1 - lo) := Nat.mod_lt _ (by positivity)
  have hshift : setBits x hi lo v >>> (hi + 1) = x >>> (hi + 1) := by
    rw [setBits_eq hl, Nat.shiftRight_eq_div_pow _ (hi + 1), hp, ← Nat.div_div_eq_div_mul,
      Nat.add_mul_div_left _ _ (by positivity), Nat.div_eq_of_lt hlo, Nat.zero_add, Nat.add_mul_div_left _ _ (by positivity),
      Nat.div_eq_of_lt hv, Nat.zero_add]
  have hbit := congrArg (Nat.testBit · (i - (hi + 1))) hshift
  simpa [Nat.testBit_shiftRight, show hi + 1 + (i - (hi + 1)) = i by omega] using hbit

/-- Setting one bit of a word. -/
theorem bit_setBits_one (x k i : Nat) : bit (setBits x k k 1) i = if i = k then true else bit x i := by
  rcases Nat.lt_trichotomy i k with h | rfl | h
  · rw [if_neg h.ne]
    exact testBit_setBits_below h le_rfl x 1
  · rw [if_pos rfl]
    exact bit_setBits_self x i 1
  · rw [if_neg h.ne']
    exact testBit_setBits_above h le_rfl x 1

/-! ## What noting errors and events leaves as it was -/

/-- The registers that count errors and events: the error log's, those of the stores, and those of core positions. -/
def Reg.ofNotes (o : Nat) : Prop := (0x220048 ≤ o ∧ o ≤ 0x22004c) ∨ (0x230010 ≤ o ∧ o ≤ 0x230030) ∨ 0x10004000 ≤ o

/-- The second machine is the first, but for errors and events that have been noted, and the stores; under the condition these too are
the same. -/
structure M.noted (still : Prop) (s t : M) : Prop where
  regs : ∀ o, ¬ Reg.ofNotes o → t.reg o = s.reg o
  rest : { t with regs := s.regs, mem := s.mem, chk := s.chk, logBuf := s.logBuf, cxl := s.cxl, outs := s.outs, free := s.free } = s
  stores : still → s.sameStores t

theorem M.noted.refl (still : Prop) (s : M) : s.noted still s := ⟨fun _ _ => rfl, rfl, fun _ => ⟨rfl, rfl⟩⟩

section
variable {still : Prop} {s : M}

theorem M.noted.setReg {t : M} (h : s.noted still t) {o : Nat} (ho : Reg.ofNotes o) (v : Nat) : s.noted still (t.setReg o v) :=
  ⟨fun o' ho' => (M.reg_setReg_other t v fun e : o' = o => ho' (e ▸ ho)).trans (h.regs o' ho'), h.rest, h.stores⟩

theorem M.noted.toHost {t : M} (h : s.noted still t) (o : Output) : s.noted still (t.toHost o) := by
  unfold M.toHost
  split <;> exact ⟨h.regs, h.rest, h.stores⟩

theorem keepsNoted_wr {o : Nat} (ho : Reg.ofNotes o) (v : Nat) : Keeps (s.noted still) (wr o v) := fun _ h => h.setReg ho v

theorem keepsNoted_upd {o : Nat} (ho : Reg.ofNotes o) (f : Nat → Nat) : Keeps (s.noted still) (upd o f) := fun _ h => h.setReg ho _

theorem keepsNoted_freeVal (w : Nat) : Keeps (s.noted still) (freeVal w) := fun _ h => ⟨h.regs, h.rest, h.stores⟩

theorem Reg.ofNotes_of_le {o : Nat} (h : 0x10004000 ≤ o) : Reg.ofNotes o := .inr (.inr h)

theorem keepsNoted_posCount (pos frm k code n who : Nat) : Keeps (s.noted still) (posCount pos frm k code n who) := fun t h => by
  rw [posCount, run_modify]
  split
  · exact h
  · refine List.foldlRecOn _ _ h fun u hu c _ => ?_
    split
    · exact hu
    · have hcnt := fun v => hu.setReg (o := Reg.posCnt pos c) (Reg.ofNotes_of_le (by simp only [Reg.posCnt]; omega)) v
      unfold countAt
      dsimp only
      split
      · generalize u.reg (Reg.posCnt pos c) + _ = v
        split
        · exact hcnt _
        · exact (hcnt _).setReg (Reg.ofNotes_of_le (by simp only [Reg.posCntOvf]; omega)) _
      · exact hu

theorem keepsNoted_sliceEvent (l code : Nat) : Keeps (s.noted still) (sliceEvent l code) :=
  keeps_getThen fun _ => keeps_ite (keeps_getThen fun _ => keepsNoted_posCount _ _ _ _ _ _) (keeps_pure _)

theorem keepsNoted_logAdd (kind island step logical queue entry : Nat) (pl : List Byte) :
    Keeps (s.noted still) (logAdd kind island step logical queue entry pl) :=
  keeps_getThen fun _ => keeps_bind (keepsNoted_wr (by simp [Reg.ofNotes, Reg.chkLogWr]) _) fun _ =>
    keeps_bind (keeps_whenA (keepsNoted_upd (by simp [Reg.ofNotes, Reg.chkLogLost]) _)) fun _ =>
      keeps_bind (fun _ h => ⟨h.regs, h.rest, h.stores⟩) fun _ _ h => h.toHost _

/-- Stored bytes and check symbols may change where the stores are not to stay. -/
theorem M.noted.store {t : M} (h : s.noted still t) (hs : ¬ still) (m : List Host.Cell) (c : Tab Nat) :
    s.noted still { t with mem := m, chk := c } := ⟨h.regs, h.rest, fun hstill => absurd hstill hs⟩

theorem M.noted.setBytes {t : M} (h : s.noted still t) (hs : ¬ still) (a : Nat) (bs : List Byte) : s.noted still (t.setBytes a bs) := by
  obtain ⟨m, hm⟩ := t.setBytes_eq a bs
  exact hm ▸ h.store hs m t.chk

theorem M.noted.setChks {t : M} (h : s.noted still t) (hs : ¬ still) (l k : Nat) (vs : List Nat) :
    s.noted still (t.setChks l k vs) := by
  obtain ⟨c, hc⟩ := t.setChks_eq l k vs
  exact hc ▸ h.store hs t.mem c

theorem keepsNoted_readLine (hs : ¬ still) (l : Nat) : Keeps (s.noted still) (readLine l) := by
  have hcount := fun (o : Nat) (ho : 0x230010 ≤ o ∧ o ≤ 0x230030) f =>
    keepsNoted_upd (still := still) (s := s) (o := o) (.inr (.inl ho)) f
  have herr := fun v => keepsNoted_wr (still := still) (s := s) (o := Reg.memLastErr) (.inr (.inl (by decide))) v
  refine keeps_getThen fun t => ?_
  dsimp only
  split
  case h_1 => exact keeps_pure _
  case h_2 =>
    exact keeps_bind (hcount _ (by decide) _) fun _ => keeps_bind (herr _) fun _ =>
      keeps_bind (keepsNoted_sliceEvent _ _) fun _ => keeps_pure _
  case h_3 =>
    exact keeps_bind (keeps_modify fun u h => (h.setBytes hs _ _).setChks hs _ _ _) fun _ => keeps_bind (hcount _ (by decide) _) fun _ =>
      keeps_bind (herr _) fun _ => keeps_bind (keepsNoted_sliceEvent _ _) fun _ => keeps_pure _
  case h_4 =>
    exact keeps_bind (keeps_modify fun u h => h.setChks hs _ _ _) fun _ => keeps_bind (hcount _ (by decide) _) fun _ =>
      keeps_bind (herr _) fun _ => keeps_bind (keepsNoted_logAdd _ _ _ _ _ _ _) fun _ => keeps_pure _

theorem keepsNoted_writeInLine (hs : ¬ still) (l off : Nat) (data : List Byte) : Keeps (s.noted still) (writeInLine l off data) := by
  have hput := fun (d : M → List Byte) => keeps_modify (P := s.noted still) (f := fun t => t.putLine l (d t) false) fun t h =>
    (h.setBytes hs _ _).setChks hs _ _ _
  exact keeps_ite (keeps_bind (hput _) fun _ => keeps_pure _)
    (keeps_bind (keepsNoted_readLine hs l) fun _ => keeps_ite (keeps_pure _) (keeps_bind (hput _) fun _ => keeps_pure _))

theorem keepsNoted_writeBytesAux (hs : ¬ still) (fuel a : Nat) (data : List Byte) :
    Keeps (s.noted still) (writeBytesAux fuel a data) := by
  induction fuel generalizing a data with
  | zero => exact keeps_pure _
  | succ fuel ih =>
    exact keeps_ite (keeps_pure _) (keeps_bind (keepsNoted_writeInLine hs _ _ _) fun _ => keeps_bind (ih _ _) fun _ => keeps_pure _)

theorem keepsNoted_writeBytes (hs : ¬ still) (a : Nat) (data : List Byte) : Keeps (s.noted still) (writeBytes a data) :=
  keepsNoted_writeBytesAux hs _ a data

end

/-! ## What the ready map's growth leaves as it was (R379, R382) -/

/-- The management registers below the stamps but for the ready map, and those of the logical cores. -/
def Reg.settled (o : Nat) : Prop := (0 < o ∧ o < 0x800) ∨ (0x1000000 ≤ o ∧ o < 0x2000000)

/-- The machine with what may change as the ready map grows taken from another: registers, stores, what is noted and sent out, and
whether the group records stand. -/
def M.asBefore (t s : M) : M :=
  { t with regs := s.regs, mem := s.mem, chk := s.chk, logBuf := s.logBuf, cxl := s.cxl, outs := s.outs, free := s.free
           boot := { t.boot with groupsDone := s.boot.groupsDone } }

/-- The second machine comes after the first in bring-up: no ready bit has fallen and no stamp of one has changed, and nothing else has
but links, what is noted and sent out, and the stores; under the condition these too are the same. -/
structure M.readier (still : Prop) (s t : M) : Prop where
  wf : t.wf = true
  map : ∀ i, bit (s.reg Reg.mgtReadyMap) i = true → bit (t.reg Reg.mgtReadyMap) i = true
  stamp : ∀ i, i < 256 → bit (s.reg Reg.mgtReadyMap) i = true → t.reg (Reg.mgtReadyStamp i) = s.reg (Reg.mgtReadyStamp i)
  far : bit (s.reg Reg.hstStatus) 20 = true → bit (t.reg Reg.hstStatus) 20 = true
  regs : ∀ o, Reg.settled o → t.reg o = s.reg o
  rest : t.asBefore s = s
  stores : still → s.sameStores t

theorem M.readier.refl (still : Prop) {s : M} (hw : s.wf = true) : s.readier still s :=
  ⟨hw, fun _ h => h, fun _ _ _ => rfl, fun h => h, fun _ _ => rfl, rfl, fun _ => ⟨rfl, rfl⟩⟩

section
variable {still : Prop} {s t : M}

/-- A write beside the ready map, the stamps, HST_STATUS and the settled registers. -/
theorem M.readier.setReg (h : s.readier still t) {o : Nat} (ho : 0x100004 < o ∧ o < 0x1000000) (v : Nat) :
    s.readier still (t.setReg o v) where
  wf := M.wf_setReg o v h.wf
  map i hi := by
    rw [M.reg_setReg_other t v (by simp only [Reg.mgtReadyMap]; omega)]
    exact h.map i hi
  stamp i hi hset := by
    rw [M.reg_setReg_other t v (by simp only [Reg.mgtReadyStamp]; omega)]
    exact h.stamp i hi hset
  far hset := by
    rw [M.reg_setReg_other t v (by simp only [Reg.hstStatus]; omega)]
    exact h.far hset
  regs o' ho' := (M.reg_setReg_other t v (by simp only [Reg.settled] at ho'; omega)).trans (h.regs o' ho')
  rest := h.rest
  stores := h.stores

/-- What is noted, and written into the stores, is no part of it. -/
theorem M.readier.noted {u : M} (h : s.readier still t) (hw : u.wf = true) (hn : t.noted still u) : s.readier still u where
  wf := hw
  map i hi := by
    rw [hn.regs _ (by simp only [Reg.ofNotes, Reg.mgtReadyMap]; omega)]
    exact h.map i hi
  stamp i hi hset := by
    rw [hn.regs _ (by simp only [Reg.ofNotes, Reg.mgtReadyStamp]; omega)]
    exact h.stamp i hi hset
  far hset := by
    rw [hn.regs _ (by simp only [Reg.ofNotes, Reg.hstStatus]; omega)]
    exact h.far hset
  regs o ho := (hn.regs o (by simp only [Reg.settled] at ho; simp only [Reg.ofNotes]; omega)).trans (h.regs o ho)
  rest := (congrArg (M.asBefore · s) hn.rest).trans h.rest
  stores hs := ⟨(hn.stores hs).1.trans (h.stores hs).1, (hn.stores hs).2.trans (h.stores hs).2⟩

/-- What a new ready bit of a function adds: its stamp, the bit, and vector 67 (R382). -/
theorem run_setReady (k : Nat) (t : M) : setReady k t = ((), if bit (t.reg Reg.mgtReadyMap) k then t else
    ((t.setReg (Reg.mgtReadyStamp k) (popcount 128 (t.reg Reg.mgtReadyMap) <<< 48 + trunc 48 (t.island 177))).setReg Reg.mgtReadyMap
      (setBits (t.reg Reg.mgtReadyMap) k k 1)).toHost (.msix 67)) := by
  have hmap : ∀ v, (t.setReg (Reg.mgtReadyStamp k) v).reg Reg.mgtReadyMap = t.reg Reg.mgtReadyMap := fun v =>
    M.reg_setReg_other t v (by simp only [Reg.mgtReadyMap, Reg.mgtReadyStamp]; omega)
  rw [setReady, run_bind, run_get, run_whenA]
  cases bit (t.reg Reg.mgtReadyMap) k with
  | true => rfl
  | false => simp only [Bool.not_false, run_bind, run_wr, run_setField, run_hostEmit, hmap, if_true, Bool.false_eq_true, if_false]

theorem M.reg_toHost (t : M) (o : Output) (r : Nat) : (t.toHost o).reg r = t.reg r :=
  congrArg (Tab.read Reg.dflt · r) (t.toHost_rings o).2

/-- The ready map, its stamps and all other registers once a bit that was clear is set (R382). -/
theorem setReady_clear {k : Nat} (hw : t.wf = true) (hk : bit (t.reg Reg.mgtReadyMap) k = false) :
    let u := (setReady k t).2
    u.reg Reg.mgtReadyMap = setBits (t.reg Reg.mgtReadyMap) k k 1 ∧
    u.reg (Reg.mgtReadyStamp k) = popcount 128 (t.reg Reg.mgtReadyMap) <<< 48 + trunc 48 (t.island 177) ∧
    (∀ o, o ≠ Reg.mgtReadyMap → o ≠ Reg.mgtReadyStamp k → u.reg o = t.reg o) ∧
    { u with regs := t.regs, cxl := t.cxl, outs := t.outs } = t := by
  have hne : Reg.mgtReadyStamp k ≠ Reg.mgtReadyMap := by simp only [Reg.mgtReadyMap, Reg.mgtReadyStamp]; omega
  intro u
  have hu : u = _ := congrArg Prod.snd (run_setReady k t)
  rw [hk, if_neg Bool.false_ne_true] at hu
  rw [hu]
  refine ⟨?_, ?_, fun o hmap hstamp => ?_, ?_⟩
  · rw [M.reg_toHost, M.reg_setReg_self _ _ _ (M.wf_setReg _ _ hw)]
  · rw [M.reg_toHost, M.reg_setReg_other _ _ hne, M.reg_setReg_self _ _ _ hw]
  · rw [M.reg_toHost, M.reg_setReg_other _ _ hmap, M.reg_setReg_other _ _ hstamp]
  · unfold M.toHost
    split <;> rfl

theorem keepsReadier_setReady {k : Nat} (hk : k < 256) : Keeps (s.readier still) (setReady k) := fun t h => by
  cases hset : bit (t.reg Reg.mgtReadyMap) k with
  | true =>
    rw [run_setReady, if_pos hset]
    exact h
  | false =>
    obtain ⟨hmap, -, hregs, hrest⟩ := setReady_clear h.wf hset
    have hother := fun o (ho : o ≠ Reg.mgtReadyMap ∧ o ≠ Reg.mgtReadyStamp k) => hregs o ho.1 ho.2
    refine ⟨keepsWf_setReady k t h.wf, fun i hi => ?_, fun i hi hs => ?_, fun hs => ?_, fun o ho => ?_, ?_, fun hs => ?_⟩
    · rw [hmap, bit_setBits_one, h.map i hi, ite_self]
    · have hik : i ≠ k := fun e => by simp [← e, h.map i hs] at hset
      rw [hother _ (by simp only [Reg.mgtReadyMap, Reg.mgtReadyStamp]; omega)]
      exact h.stamp i hi hs
    · rw [hother _ (by simp only [Reg.mgtReadyMap, Reg.mgtReadyStamp, Reg.hstStatus]; omega)]
      exact h.far hs
    · rw [hother _ (by simp only [Reg.settled] at ho; simp only [Reg.mgtReadyMap, Reg.mgtReadyStamp]; omega)]
      exact h.regs o ho
    · exact (congrArg (M.asBefore · s) hrest).trans h.rest
    · obtain ⟨hm, hc⟩ := h.stores hs
      exact ⟨(congrArg M.mem hrest).trans hm, (congrArg M.chk hrest).trans hc⟩

theorem keepsReadier_setModuleReady : Keeps (s.readier still) setModuleReady :=
  keeps_getThen fun _ => keeps_whenA (keepsReadier_setReady (by decide))

/-- A module has 64 ports at most (Table 10-1). -/
theorem M.nPorts_le (s : M) : s.nPorts ≤ 64 := by
  unfold M.nPorts
  match bits (s.reg Reg.ethMode) 1 0 with
  | 0 | 1 | 2 | 3 | _ + 4 => simp

theorem keepsReadier_trainLinks : Keeps (s.readier still) trainLinks :=
  keeps_getThen fun m => keeps_forA_mem fun p hp => keeps_whenA fun _ h => h.setReg (by
    have hports := m.nPorts_le
    have hport := List.mem_range.1 hp
    simp only [Reg.ethPortStatus]
    omega) _

/-- The bit that shows the far store ready (R321). -/
theorem keepsReadier_farStatus : Keeps (s.readier still) (setField Reg.hstStatus 20 20 1) := fun t h => by
  have hother := fun o (ho : o ≠ Reg.hstStatus) => M.reg_setReg_other t (setBits (t.reg Reg.hstStatus) 20 20 1) ho
  rw [run_setField]
  refine ⟨M.wf_setReg _ _ h.wf, fun i hi => ?_, fun i hi hs => ?_, fun _ => ?_, fun o ho => ?_, h.rest, h.stores⟩
  · rw [hother _ (by decide)]
    exact h.map i hi
  · rw [hother _ (by simp only [Reg.mgtReadyStamp, Reg.hstStatus]; omega)]
    exact h.stamp i hi hs
  · rw [M.reg_setReg_self _ _ _ h.wf, bit_setBits_one, if_pos rfl]
  · rw [hother _ (by simp only [Reg.settled] at ho; simp only [Reg.hstStatus]; omega)]
    exact h.regs o ho

theorem keepsReadier_writeBytes (hs : ¬ still) (a : Nat) (data : List Byte) : Keeps (s.readier still) (writeBytes a data) := fun t h =>
  h.noted (keepsWf_writeBytes a data t h.wf) (keepsNoted_writeBytes hs a data t (M.noted.refl still t))

/-- The group records go into the far store, and nowhere else (R375). -/
theorem keepsReadier_writeGroups (hs : ¬ still) : Keeps (s.readier still) writeGroups :=
  keeps_getThen fun _ => keeps_whenA (keeps_bind (keeps_forA fun _ => keeps_bind (keepsReadier_writeBytes hs _ _) fun _ =>
    keeps_bind (keepsReadier_writeBytes hs _ _) fun _ => keeps_pure _) fun _ =>
      keeps_modify fun _ h => ⟨h.wf, h.map, h.stamp, h.far, h.regs, h.rest, h.stores⟩)

/-- Before the far store is ready no group record is written (R375). -/
theorem run_writeGroups_farOff (h : bit (t.reg Reg.mgtReadyMap) 121 = false) : writeGroups t = ((), t) := by
  rw [writeGroups, run_bind, run_get, h]
  rfl

end

/-- Bit 127 stands once every other bit of the grade does (R379). -/
theorem setModuleReady_sets {t : M} (hw : t.wf = true) :
    let u := (setModuleReady t).2
    u.reg Reg.mgtReadyMap &&& t.readyBits = t.readyBits → bit (u.reg Reg.mgtReadyMap) 127 = true := by
  intro u hall
  have hu : u = if t.reg Reg.mgtReadyMap &&& t.readyBits == t.readyBits then (setReady 127 t).2 else t :=
    congrArg Prod.snd (run_whenA _ _ t)
  split at hu
  · rw [hu]
    cases hset : bit (t.reg Reg.mgtReadyMap) 127 with
    | true => rwa [run_setReady, if_pos hset]
    | false => rw [(setReady_clear hw hset).1, bit_setBits_one, if_pos rfl]
  next hnot =>
    rw [hu] at hall
    exact absurd (beq_iff_eq.2 hall) hnot

theorem M.readyBits_congr {s t : M} (h : t.reg Reg.mgtGrade = s.reg Reg.mgtGrade) : t.readyBits = s.readyBits := by
  rw [M.readyBits, M.standard, h]
  rfl

/-! ## A function ends its self-test (R379, R380) -/

/-- A failed self-test sets its bit, and is noted (R379). -/
theorem selfTestFails_notes (fn : Nat) (m : M) :
    (m.setReg Reg.mgtSelftestFail (setBits (m.reg Reg.mgtSelftestFail) fn fn 1)).noted True (selfTestFails fn m).2 :=
  keeps_bind (keepsNoted_freeVal 16) (fun _ => keepsNoted_logAdd _ _ _ _ _ _ _) _ (M.noted.refl True _)

/-- A failed self-test leaves of the registers that nothing is noted in all but MGT_SELFTEST_FAIL. -/
theorem reg_selfTestFails {fn o : Nat} {m : M} (ho : ¬ Reg.ofNotes o) (hne : o ≠ Reg.mgtSelftestFail) :
    (selfTestFails fn m).2.reg o = m.reg o :=
  ((selfTestFails_notes fn m).regs o ho).trans (M.reg_setReg_other m _ hne)

theorem bit_selfTestFails {m : M} (hw : m.wf = true) (fn : Nat) :
    bit ((selfTestFails fn m).2.reg Reg.mgtSelftestFail) fn = true := by
  rw [(selfTestFails_notes fn m).regs _ (by unfold Reg.ofNotes; decide), M.reg_setReg_self _ _ _ hw, bit_setBits_one, if_pos rfl]

/-- The far store is ready: the host sees it, and the group records go there (R321, R375). -/
def farReady : Act Unit := do
  setField Reg.hstStatus 20 20 1
  writeGroups

theorem keepsReadier_farReady {still : Prop} {s : M} (hs : ¬ still) : Keeps (s.readier still) farReady :=
  keeps_bind keepsReadier_farStatus fun _ => keepsReadier_writeGroups hs

theorem farReady_shows {m : M} (hw : m.wf = true) : bit ((farReady m).2.reg Reg.hstStatus) 20 = true :=
  (keepsReadier_writeGroups not_false _ (.refl False (M.wf_setReg _ _ hw))).far
    (by rw [M.reg_setReg_self _ _ _ hw, bit_setBits_one, if_pos rfl])

section
variable {s : State} {fn : Nat} (hl : s.m.board.live = true)
include hl

/-- The end of the self-test of a function that has neither passed one nor failed. -/
theorem exec_selfTestComplete (hfn : fn < 126) (hmap : bit (s.m.reg Reg.mgtReadyMap) fn = false)
    (hfail : bit (s.m.reg Reg.mgtSelftestFail) fn = false) (pass : Bool) :
    exec (.selfTestComplete fn pass) s = s.becomes ((if !pass then selfTestFails fn else whenA (s.m.readyCond fn) do
      setReady fn
      whenA (decide (fn < 120) && s.m.coreMode fn == 1) (setReady (bits (s.m.reg (Reg.mgtCoreMap fn)) 23 16))
      whenA (fn == 122) trainLinks
      whenA (fn == 121) farReady
      setModuleReady) s.m).2 := by
  show execSelfTestComplete fn pass s = _
  rw [execSelfTestComplete, State.doing_live s _ hl, run_bind, run_get, hmap, hfail, decide_eq_true hfn]
  rfl

theorem exec_selfTestComplete_fails (hw : s.m.wf = true) (hfn : fn < 126) (hmap : bit (s.m.reg Reg.mgtReadyMap) fn = false)
    (hfail : bit (s.m.reg Reg.mgtSelftestFail) fn = false) :
    s.ends (exec (.selfTestComplete fn false) s) fun m => bit (m.reg Reg.mgtSelftestFail) fn = true ∧
      m.reg Reg.mgtReadyMap = s.m.reg Reg.mgtReadyMap ∧ s.m.sameStores m ∧ m.cores = s.m.cores := by
  have hnotes := selfTestFails_notes fn s.m
  exact ⟨_, exec_selfTestComplete hl hfn hmap hfail false, bit_selfTestFails hw fn,
    reg_selfTestFails (by unfold Reg.ofNotes; decide) (by decide), hnotes.stores trivial, (congrArg M.cores hnotes.rest :)⟩

theorem exec_selfTestComplete_waits (hfn : fn < 126) (hmap : bit (s.m.reg Reg.mgtReadyMap) fn = false)
    (hfail : bit (s.m.reg Reg.mgtSelftestFail) fn = false) (hcond : s.m.readyCond fn = false) :
    exec (.selfTestComplete fn true) s = .next s := by
  rw [exec_selfTestComplete hl hfn hmap hfail, hcond]
  rfl

/-- What a passed self-test brings about, step by step: the bit and the stamp, then what follows from them. -/
theorem exec_selfTestComplete_passes (hw : s.m.wf = true) (hfn : fn < 126) (hmap : bit (s.m.reg Reg.mgtReadyMap) fn = false)
    (hfail : bit (s.m.reg Reg.mgtSelftestFail) fn = false) (hcond : s.m.readyCond fn = true) :
    s.ends (exec (.selfTestComplete fn true) s) fun m =>
      bit (m.reg Reg.mgtReadyMap) fn = true ∧
      m.reg (Reg.mgtReadyStamp fn) = popcount 128 (s.m.reg Reg.mgtReadyMap) <<< 48 + trunc 48 (s.m.island 177) ∧
      (m.reg Reg.mgtReadyMap &&& s.m.readyBits = s.m.readyBits → bit (m.reg Reg.mgtReadyMap) 127 = true) ∧
      (fn = 121 → bit (m.reg Reg.hstStatus) 20 = true) ∧ m.cores = s.m.cores ∧ (fn ≠ 121 → s.m.sameStores m) := by
  let set := (setReady fn s.m).2
  let guest := (whenA (decide (fn < 120) && s.m.coreMode fn == 1) (setReady (bits (s.m.reg (Reg.mgtCoreMap fn)) 23 16)) set).2
  let links := (whenA (fn == 122) trainLinks guest).2
  let far := (whenA (fn == 121) farReady links).2
  obtain ⟨hsetMap, hsetStamp, -, -⟩ := setReady_clear hw hmap
  have hset : s.m.readier (fn ≠ 121) set := keepsReadier_setReady (by omega) _ (.refl _ hw)
  have hbit : bit (set.reg Reg.mgtReadyMap) fn = true := by rw [hsetMap, bit_setBits_one, if_pos rfl]
  have hguest : ∀ {b : M}, b.readier (fn ≠ 121) set → b.readier (fn ≠ 121) guest :=
    keeps_whenA (keepsReadier_setReady (Nat.mod_lt _ (by decide))) _
  have hlinks : ∀ {b : M}, b.readier (fn ≠ 121) guest → b.readier (fn ≠ 121) links := keeps_whenA keepsReadier_trainLinks _
  have hfar : ∀ {b : M}, b.readier (fn ≠ 121) links → b.readier (fn ≠ 121) far := by
    by_cases h : fn = 121
    · exact keeps_whenA (keepsReadier_farReady (not_not.2 h)) _
    · have hsame : far = links := by simp only [far, beq_false_of_ne h, run_whenA_false]
      exact hsame ▸ id
  have hall : ∀ {b : M}, b.readier (fn ≠ 121) set → b.readier (fn ≠ 121) (setModuleReady far).2 :=
    fun h => keepsReadier_setModuleReady _ (hfar (hlinks (hguest h)))
  have hend := hall hset
  have hfrom := hall (.refl _ hset.wf)
  have hlinksEnd := hlinks (hguest hset)
  have hfarEnd := hfar hlinksEnd
  refine ⟨(setModuleReady far).2, ?_, hfrom.map fn hbit, (hfrom.stamp fn (by omega) hbit).trans hsetStamp, ?_, fun h => ?_,
    (congrArg M.cores hend.rest :), hend.stores⟩
  · rw [exec_selfTestComplete hl hfn hmap hfail, hcond]
    rfl
  · rw [← M.readyBits_congr (hfarEnd.regs Reg.mgtGrade (by unfold Reg.settled; decide))]
    exact setModuleReady_sets hfarEnd.wf
  · refine (keepsReadier_setModuleReady (still := False) far (.refl _ hfarEnd.wf)).far ?_
    have hrun : far = (farReady links).2 := by simp only [far, h, beq_self_eq_true, run_whenA_true]
    rw [hrun]
    exact farReady_shows hlinksEnd.wf

end

/-! ## The security controller's self-tests (R399, R400) -/

/-- The machine with every volatile secret overwritten (R402). -/
def M.secretless (s : M) : M :=
  { s with sec := { s.sec with draws := 0, sessions := [], ports := [], ide := [], aliasKeys := [] } }

/-- The secrets are gone, and else only registers beside the ready map have changed (R402). -/
structure M.cleared (s t : M) : Prop where
  wf : t.wf = true
  rest : { t with regs := s.regs } = s.secretless
  sessions : t.reg Reg.secSessions = 0
  map : t.reg Reg.mgtReadyMap = s.reg Reg.mgtReadyMap

section
variable {s t : M}

theorem M.cleared.setReg (h : s.cleared t) {o : Nat} (ho : 0x20000c ≠ o ∧ 0 ≠ o) (v : Nat) : s.cleared (t.setReg o v) :=
  ⟨M.wf_setReg o v h.wf, h.rest, (M.reg_setReg_other t v ho.1).trans h.sessions, (M.reg_setReg_other t v ho.2).trans h.map⟩

theorem M.cleared.secrets (h : s.cleared t) : t.secretsCleared := by
  have hsec : t.sec = s.secretless.sec := (congrArg M.sec h.rest :)
  rw [M.secretsCleared, hsec]
  exact ⟨rfl, rfl, rfl, rfl, rfl, h.sessions⟩

theorem M.cleared.sameStores (h : s.cleared t) : s.sameStores t := ⟨(congrArg M.mem h.rest :), (congrArg M.chk h.rest :)⟩

theorem clearSecrets_clears (hw : s.wf = true) : s.cleared (clearSecrets s).2 := by
  have hwf : s.secretless.wf = true := (M.wf_congr ⟨rfl, rfl, rfl, rfl, rfl, rfl, rfl, rfl, rfl, rfl, rfl⟩).trans hw
  have hsessions : s.cleared (s.secretless.setReg Reg.secSessions 0) :=
    ⟨M.wf_setReg _ _ hwf, rfl, M.reg_setReg_self _ _ _ hwf, M.reg_setReg_other _ _ (by decide)⟩
  refine keeps_forA (P := s.cleared) (fun n t h => h.setReg ?_ _) _ (hsessions.setReg (by decide) _)
  simp only [Reg.ethPortStatus]
  omega

/-- The error state: the code stands in SEC_STATUS, and the secrets are gone (R400). -/
theorem securityError_clears (hw : s.wf = true) (code : Nat) :
    s.cleared (securityError code s).2 ∧ (securityError code s).2.reg Reg.secStatus = code <<< 16 := by
  have h := clearSecrets_clears hw
  exact ⟨h.setReg (by decide) _, M.reg_setReg_self _ _ _ h.wf⟩

/-- The bit that says that services are open (R388). -/
theorem approved_setReg (hw : s.wf = true) : (s.setReg Reg.secStatus (setBits (s.reg Reg.secStatus) 31 31 1)).approved = true := by
  rw [M.approved, M.reg_setReg_self _ _ _ hw, bit_setBits_one, if_pos rfl]

theorem mem_insertNew {l : List Nat} {x y : Nat} : y ∈ insertNew l x ↔ y ∈ l ∨ y = x := by
  unfold insertNew
  split
  next h =>
    have hx : x ∈ l := List.contains_iff_mem.1 h
    exact ⟨.inl, fun h => h.elim id fun e => e ▸ hx⟩
  · simp

end

section
variable {s : State} {t : Nat} (hl : s.m.board.live = true)
include hl

theorem exec_securitySelfTest_down (hdown : s.m.secDown = true) (pass : Bool) : exec (.securitySelfTest t pass) s = .next s := by
  show execSecuritySelfTest t pass s = _
  rw [execSecuritySelfTest, State.doing_live s _ hl, run_bind, run_get, hdown, Bool.not_true, Bool.and_false]
  rfl

/-- A passed test is kept; the first two open the services (R388, R399). -/
theorem exec_securitySelfTest_passes (hw : s.m.wf = true) (h1 : 1 ≤ t) (h4 : t ≤ 4) (hup : s.m.secDown = false) :
    s.ends (exec (.securitySelfTest t true) s) fun m => t ∈ m.boot.tests ∧ (∀ x ∈ s.m.boot.tests, x ∈ m.boot.tests) ∧
      (1 ∈ m.boot.tests → 2 ∈ m.boot.tests → m.approved = true) ∧ s.m.sameStores m ∧ m.sec = s.m.sec := by
  let kept : M := { s.m with boot := { s.m.boot with tests := insertNew s.m.boot.tests t } }
  have hkept : kept.wf = true := (M.wf_congr ⟨rfl, rfl, rfl, rfl, rfl, rfl, rfl, rfl, rfl, rfl, rfl⟩).trans hw
  have hrun : exec (.securitySelfTest t true) s = s.becomes (if kept.boot.tests.contains 1 && kept.boot.tests.contains 2 then
      kept.setReg Reg.secStatus (setBits (kept.reg Reg.secStatus) 31 31 1) else kept) := by
    show execSecuritySelfTest t true s = _
    rw [execSecuritySelfTest, State.doing_live s _ hl, run_bind, run_get, hup, decide_eq_true h1, decide_eq_true h4]
    simp only [Bool.not_false, Bool.and_self, if_true, run_bind, run_modify, run_get, run_whenA, run_setField]
    rfl
  have htests : t ∈ kept.boot.tests ∧ ∀ x ∈ s.m.boot.tests, x ∈ kept.boot.tests :=
    ⟨mem_insertNew.2 (.inr rfl), fun x hx => mem_insertNew.2 (.inl hx)⟩
  refine ⟨_, hrun, ?_⟩
  split
  · exact ⟨htests.1, htests.2, fun _ _ => approved_setReg hkept, ⟨rfl, rfl⟩, rfl⟩
  next hnot =>
    exact ⟨htests.1, htests.2, fun h h' => absurd (by simp [h, h']) hnot, ⟨rfl, rfl⟩, rfl⟩

/-- A failed test is the error state, and before the image is applied a failed function (R379, R400). -/
theorem exec_securitySelfTest_fails (hw : s.m.wf = true) (h1 : 1 ≤ t) (h4 : t ≤ 4) (hup : s.m.secDown = false) :
    s.ends (exec (.securitySelfTest t false) s) fun m => m.reg Reg.secStatus = t <<< 16 ∧ m.secretsCleared ∧
      (bit (s.m.reg Reg.mgtReadyMap) 126 = false → bit (m.reg Reg.mgtSelftestFail) 126 = true) ∧ s.m.sameStores m := by
  obtain ⟨herr, hstatus⟩ := securityError_clears hw t
  have hrun : exec (.securitySelfTest t false) s = s.becomes (if !bit (s.m.reg Reg.mgtReadyMap) 126 then
      (selfTestFails 126 (securityError t s.m).2).2 else (securityError t s.m).2) := by
    show execSecuritySelfTest t false s = _
    rw [execSecuritySelfTest, State.doing_live s _ hl, run_bind, run_get, hup, decide_eq_true h1, decide_eq_true h4]
    simp only [Bool.not_false, Bool.and_self, if_true, Bool.false_eq_true, if_false, run_bind, run_whenA]
  refine ⟨_, hrun, ?_⟩
  generalize (securityError t s.m).2 = u at herr hstatus
  split
  · have hnotes := selfTestFails_notes 126 u
    have hcleared : s.m.cleared (u.setReg Reg.mgtSelftestFail (setBits (u.reg Reg.mgtSelftestFail) 126 126 1)) :=
      herr.setReg (by decide) _
    have hsec : (selfTestFails 126 u).2.sec = u.sec := (congrArg M.sec hnotes.rest :)
    obtain ⟨hmem, hchk⟩ := hnotes.stores trivial
    refine ⟨(reg_selfTestFails (by unfold Reg.ofNotes; decide) (by decide)).trans hstatus, ?_, fun _ => bit_selfTestFails herr.wf 126,
      hmem.trans herr.sameStores.1, hchk.trans herr.sameStores.2⟩
    rw [M.secretsCleared, hsec, reg_selfTestFails (by unfold Reg.ofNotes; decide) (by decide)]
    exact herr.secrets
  next hset =>
    exact ⟨hstatus, herr.secrets, fun h => absurd (by simp [h]) hset, herr.sameStores⟩

end

/-- Settles O15: the end of a self-test by its outcome and its ready condition, and the security controller's tests by their outcome. -/
theorem selfTestsSetReadyBits : Obligations.SelfTestsSetReadyBits := by
  unfold Obligations.SelfTestsSetReadyBits
  exact fun s hl hw => ⟨fun fn hfn hmap hfail => ⟨exec_selfTestComplete_passes hl hw hfn hmap hfail,
      exec_selfTestComplete_waits hl hfn hmap hfail, exec_selfTestComplete_fails hl hw hfn hmap hfail⟩,
    fun t h1 h4 hup => ⟨exec_securitySelfTest_passes hl hw h1 h4 hup, exec_securitySelfTest_fails hl hw h1 h4 hup⟩,
    fun t p hdown => exec_securitySelfTest_down hl hdown p⟩

/-! ## Actions one after the other -/

/-- What the first action brings about, and the second makes of it. -/
theorem ends_bind {α β : Type} {P Q R : M → Prop} {a : Act α} {f : α → Act β} (ha : ∀ s, P s → Q (a s).2)
    (hf : ∀ x s, Q s → R (f x s).2) : ∀ s, P s → R ((a >>= f) s).2 := fun s h => hf _ _ (ha s h)

/-! ## The check of a slot (R376) -/

/-- The code of a slot that no command has left partly written (Table 15-5). -/
theorem run_checkSlot_whole {s : M} (h : s.boot.torn = []) (slot : Nat) (readErr : Bool) :
    checkSlot slot readErr s = (s.slotCode slot readErr, s) := by
  rw [checkSlot, run_bind, run_get, h]
  rfl

/-- A slot without a fault has passed check 7. -/
theorem contentOk_of_slotCode {s : M} {slot : Nat} {readErr : Bool} (h : s.slotCode slot readErr = 0) : s.contentOk slot = true := by
  unfold M.slotCode at h
  dsimp only at h
  by_contra hno
  rw [Bool.not_eq_true] at hno
  simp only [hno, Bool.not_false, if_true] at h
  split_ifs at h

theorem settingRow_mgtReadyMap : settingRow Reg.mgtReadyMap = none := by decide

/-- No setting of a slot without a fault names the ready map, which is no IL register (R374). -/
theorem setting_off_ne {s : M} {slot : Nat} {readErr : Bool} (h : s.slotCode slot readErr = 0) :
    ∀ e ∈ settingsOf (s.sectionOf slot 4), e.off ≠ Reg.mgtReadyMap := fun e he hoff => by
  have hcontent := contentOk_of_slotCode h
  simp only [M.contentOk, Bool.and_eq_true] at hcontent
  obtain ⟨⟨⟨⟨⟨⟨⟨⟨⟨hnamed, -⟩, -⟩, -⟩, -⟩, -⟩, -⟩, -⟩, -⟩, -⟩ := hcontent
  have hsome := List.all_eq_true.1 hnamed e he
  rw [hoff, settingRow_mgtReadyMap] at hsome
  exact absurd hsome Bool.false_ne_true

/-! ## An image takes effect (R374, R375) -/

/-- Only registers have changed, and the ready map is not among them. -/
structure M.setUp (s t : M) : Prop where
  wf : t.wf = true
  rest : { t with regs := s.regs } = s
  map : t.reg Reg.mgtReadyMap = s.reg Reg.mgtReadyMap

theorem M.setUp.refl {s : M} (hw : s.wf = true) : s.setUp s := ⟨hw, rfl, rfl⟩

section
variable {s t : M} {slot : Nat}

theorem keepsSetUp_wr {o : Nat} (ho : o ≠ Reg.mgtReadyMap) (v : Nat) : Keeps s.setUp (wr o v) := fun t h =>
  ⟨M.wf_setReg o v h.wf, h.rest, (M.reg_setReg_other t v ho.symm).trans h.map⟩

theorem keepsSetUp_setField {o : Nat} (ho : o ≠ Reg.mgtReadyMap) (hi lo v : Nat) : Keeps s.setUp (setField o hi lo v) :=
  fun t h => keepsSetUp_wr ho _ t h

theorem keepsSetUp_applySettings {l : List Setting} (hl : ∀ e ∈ l, e.off ≠ Reg.mgtReadyMap) : Keeps s.setUp (applySettings l) := by
  induction l with
  | nil => exact keeps_pure ()
  | cons e l ih =>
    exact keeps_bind (keepsSetUp_wr (hl e List.mem_cons_self) _) fun _ => ih fun x hx => hl x (List.mem_cons_of_mem e hx)

/-- The module carries the image of a slot of the first machine: its SVN, its policy, and its play library in every core. -/
structure M.carries (slot : Nat) (s t : M) : Prop where
  wf : t.wf = true
  svn : t.boot.svn = s.slotSvn slot
  policy : t.sec.policy = s.sectionOf slot 8
  lib : ∀ n, n < s.nCores → t.reg (Reg.corePlayLib n) = s.slotLib slot
  flash : t.boot.flash = s.boot.flash
  fuses : t.fuses = s.fuses

theorem M.nCores_le (s : M) : s.nCores ≤ 120 := by
  unfold M.nCores
  split <;> omega

/-- What follows in bring-up leaves an image in effect. -/
theorem M.carries.readier {still : Prop} {u : M} (h : s.carries slot t) (hr : t.readier still u) : s.carries slot u where
  wf := hr.wf
  svn := (congrArg (·.boot.svn) hr.rest :).trans h.svn
  policy := (congrArg (·.sec.policy) hr.rest :).trans h.policy
  lib n hn := (hr.regs _ (by have := s.nCores_le; simp only [Reg.settled, Reg.corePlayLib]; omega)).trans (h.lib n hn)
  flash := (congrArg (·.boot.flash) hr.rest :).trans h.flash
  fuses := (congrArg (·.fuses) hr.rest :).trans h.fuses

theorem M.carries.setReg (h : s.carries slot t) {o : Nat} (ho : o < 0x1000000) (v : Nat) : s.carries slot (t.setReg o v) :=
  ⟨M.wf_setReg o v h.wf, h.svn, h.policy, fun n hn =>
    (M.reg_setReg_other t v (by simp only [Reg.corePlayLib]; omega)).trans (h.lib n hn), h.flash, h.fuses⟩

/-- The play library of every core, and with it only registers beside the ready map. -/
structure M.libSet (slot : Nat) (s t : M) : Prop extends M.setUp s t where
  lib : ∀ n, n < s.nCores → t.reg (Reg.corePlayLib n) = s.slotLib slot

theorem libSet_forA (h : s.setUp t) :
    s.libSet slot (forA (List.range s.nCores) (fun n => wr (Reg.corePlayLib n) (s.slotLib slot)) t).2 := by
  have hkeeps : ∀ n v, Keeps s.setUp (wr (Reg.corePlayLib n) v) := fun n v =>
    keepsSetUp_wr (by simp only [Reg.corePlayLib, Reg.mgtReadyMap]; omega) v
  refine ⟨keeps_forA (fun n => hkeeps n _) t h, fun n hn => ?_⟩
  refine forA_settles (I := s.setUp) (P := fun u => u.reg (Reg.corePlayLib n) = s.slotLib slot) (x := n) (fun k _ => hkeeps k _)
    (fun k _ u hu hor => ?_) h (.inr (List.mem_range.2 hn))
  by_cases hnk : n = k
  · subst hnk
    exact M.reg_setReg_self u _ _ hu.wf
  · exact (M.reg_setReg_other u _ (by simp only [Reg.corePlayLib]; omega)).trans (hor.resolve_right hnk)

theorem keepsLibSet_wr {o : Nat} (h0 : o ≠ Reg.mgtReadyMap) (ho : o < 0x1000000) (v : Nat) : Keeps (s.libSet slot) (wr o v) :=
  fun t h => ⟨keepsSetUp_wr h0 v t h.tosetUp, fun n hn =>
    (M.reg_setReg_other t v (by simp only [Reg.corePlayLib]; omega)).trans (h.lib n hn)⟩

/-- The image of the slot is in effect, and the ready map and the stores are those of the first machine. -/
structure M.applied (slot : Nat) (s t : M) : Prop extends M.carries slot s t where
  map : t.reg Reg.mgtReadyMap = s.reg Reg.mgtReadyMap
  stores : s.sameStores t

/-- An image whose settings do not name the ready map takes effect. -/
theorem applyImage_applies (hw : s.wf = true) (hoff : ∀ e ∈ settingsOf (s.sectionOf slot 4), e.off ≠ Reg.mgtReadyMap) :
    s.applied slot (applyImage slot s).2 := by
  rw [applyImage, run_bind, run_get]
  dsimp only
  refine ends_bind (P := s.setUp) (R := s.applied slot) (keepsSetUp_applySettings hoff) (fun _ => ?_) s (.refl hw)
  refine ends_bind (keepsSetUp_setField (by decide) _ _ _) fun _ => ends_bind (keepsSetUp_setField (by decide) _ _ _) fun _ =>
    ends_bind (keepsSetUp_wr (by decide) _) fun _ => ends_bind (keeps_forA fun k => keepsSetUp_wr ?_ _) fun _ =>
    ends_bind (keepsSetUp_wr (by decide) _) fun _ => ends_bind (fun t h => libSet_forA h) fun _ =>
    ends_bind (keepsLibSet_wr (by decide) (by decide) _) fun _ => ends_bind (keepsLibSet_wr (by decide) (by decide) _) fun _ t h => ?_
  · simp only [Reg.pwrClassPj, Reg.mgtReadyMap]
    omega
  · have hboot : t.boot = s.boot := (congrArg M.boot h.rest :)
    have hsvn : t.slotSvn slot = s.slotSvn slot := by simp only [M.slotSvn, M.flashNum, M.flashBytes, hboot]
    exact ⟨⟨(M.wf_congr ⟨rfl, rfl, rfl, rfl, rfl, rfl, rfl, rfl, rfl, rfl, rfl⟩).trans h.wf, hsvn, rfl, h.lib,
      (congrArg (·.flash) hboot :), (congrArg M.fuses h.rest :)⟩, h.map, (congrArg M.mem h.rest :), (congrArg M.chk h.rest :)⟩

/-! ## A slot is accepted (R376, R394) -/

/-- The machine with the measurement blocks fixed (R394). -/
def M.measured (s : M) : M :=
  { s with sec := { s.sec with measured := s.boot.digests ++
    [leBytes 4 s.boot.svn ++ leBytes 1 s.fuses.rollback, leBytes 4 (s.reg Reg.mgtGrade) ++ leBytes 4 (s.reg Reg.mgtBootStatus),
     leBytes 4 (s.reg Reg.secPolicy)] } }

/-- What follows once bit 126 is set: the group records, the certificate's hash, and bit 127. -/
def afterImage : Act Unit := do
  writeGroups
  wr Reg.secDeviceidHash (leNat (sha384 Config.deviceIdCert))
  setModuleReady

theorem run_acceptSlot (a b : Nat) (s : M) : acceptSlot slot a b s =
    afterImage (setReady 126 ((applyImage slot s).2.setReg Reg.mgtBootStatus (bootStatus 1 slot a b)).measured).2 := rfl

/-- Where the stores are to stay, the far store must not be ready (R375). -/
theorem afterImage_readier {still : Prop} (hfar : still → bit (t.reg Reg.mgtReadyMap) 121 = false) (h : s.readier still t) :
    s.readier still (afterImage t).2 := by
  have hgroups : s.readier still (writeGroups t).2 := by
    by_cases hstill : still
    · rwa [run_writeGroups_farOff (hfar hstill)]
    · exact keepsReadier_writeGroups hstill t h
  exact keepsReadier_setModuleReady _ (hgroups.setReg (by decide) _)

/-- Bit 126 is set, and no other bit with it. -/
theorem bit_setReady_image (hw : s.wf = true) (i : Nat) :
    bit ((setReady 126 s).2.reg Reg.mgtReadyMap) i = if i = 126 then true else bit (s.reg Reg.mgtReadyMap) i := by
  cases h : bit (s.reg Reg.mgtReadyMap) 126 with
  | true =>
    rw [run_setReady, if_pos h]
    split
    next hi => rw [hi, h]
    next => rfl
  | false => rw [(setReady_clear hw h).1, bit_setBits_one]

/-- Bit 126 stands once the image is ready, and no store changes unless the far store is ready. -/
theorem afterImage_sets (hw : s.wf = true) :
    let t := (afterImage (setReady 126 s).2).2
    s.readier (bit (s.reg Reg.mgtReadyMap) 121 = false) t ∧ bit (t.reg Reg.mgtReadyMap) 126 = true := by
  have hfar : bit (s.reg Reg.mgtReadyMap) 121 = false → bit ((setReady 126 s).2.reg Reg.mgtReadyMap) 121 = false :=
    (bit_setReady_image hw 121).trans
  have hset := keepsReadier_setReady (still := bit (s.reg Reg.mgtReadyMap) 121 = false) (k := 126) (by decide) s (.refl _ hw)
  exact ⟨afterImage_readier hfar hset, (afterImage_readier hfar (.refl _ hset.wf)).map 126 (bit_setReady_image hw 126)⟩

/-- What a module shows that has accepted a slot. -/
structure M.accepted (slot status : Nat) (s t : M) : Prop extends M.carries slot s t where
  status : t.reg Reg.mgtBootStatus = status
  ready : bit (t.reg Reg.mgtReadyMap) 126 = true
  stores : bit (s.reg Reg.mgtReadyMap) 121 = false → s.sameStores t

theorem acceptSlot_accepts (hw : s.wf = true) (hoff : ∀ e ∈ settingsOf (s.sectionOf slot 4), e.off ≠ Reg.mgtReadyMap) (a b : Nat) :
    s.accepted slot (bootStatus 1 slot a b) (acceptSlot slot a b s).2 := by
  have happlied := applyImage_applies hw hoff
  have hshown := happlied.tocarries.setReg (o := Reg.mgtBootStatus) (by decide) (bootStatus 1 slot a b)
  have hmap := (M.reg_setReg_other (applyImage slot s).2 (o := Reg.mgtBootStatus) (bootStatus 1 slot a b) (by decide)).trans happlied.map
  have hstatus := M.reg_setReg_self (applyImage slot s).2 Reg.mgtBootStatus (bootStatus 1 slot a b) happlied.wf
  have hstores : s.sameStores ((applyImage slot s).2.setReg Reg.mgtBootStatus (bootStatus 1 slot a b)) := happlied.stores
  rw [run_acceptSlot]
  generalize (applyImage slot s).2.setReg Reg.mgtBootStatus (bootStatus 1 slot a b) = shown at hshown hmap hstatus hstores
  have hwf : shown.measured.wf = true := (M.wf_congr ⟨rfl, rfl, rfl, rfl, rfl, rfl, rfl, rfl, rfl, rfl, rfl⟩).trans hshown.wf
  have hfixed : s.carries slot shown.measured := ⟨hwf, hshown.svn, hshown.policy, hshown.lib, hshown.flash, hshown.fuses⟩
  obtain ⟨hready, hbit⟩ := afterImage_sets hwf
  refine ⟨hfixed.readier hready, (hready.regs Reg.mgtBootStatus (by unfold Reg.settled; decide)).trans hstatus, hbit, fun hclosed => ?_⟩
  obtain ⟨hmem, hchk⟩ := hready.stores ((congrArg (bit · 121) hmap).trans hclosed)
  exact ⟨hmem.trans hstores.1, hchk.trans hstores.2⟩

end

/-! ## The command (R376, R377, R403) -/

/-- The codes of the two slots, in the order of the slots. -/
def bySlot (first x y : Nat) : Nat × Nat := if first = 0 then (x, y) else (y, x)

section
variable {s : State} {ea eb : Bool} (hl : s.m.board.live = true)
include hl

/-- Verification has ended, or the security controller has not opened its services: the command changes nothing. -/
theorem exec_slotVerify_ignored (h : bits (s.m.reg Reg.mgtBootStatus) 31 30 ≠ 0 ∨ s.m.approved = false) :
    exec (.slotVerify ea eb) s = .next s := by
  have hno : (bits (s.m.reg Reg.mgtBootStatus) 31 30 == 0 && s.m.approved) = false :=
    Bool.and_eq_false_iff.2 (h.imp_left beq_false_of_ne)
  show execSlotVerify ea eb s = _
  rw [execSlotVerify, State.doing_live s _ hl, run_bind, run_get]
  dsimp only
  rw [hno]
  rfl

variable (hstate : bits (s.m.reg Reg.mgtBootStatus) 31 30 = 0) (happ : s.m.approved = true)
include hstate happ

/-- With the kill fuse blown, the module goes into recovery (R403). -/
theorem exec_slotVerify_killed (hk : s.m.fuses.killed = true) :
    exec (.slotVerify ea eb) s = s.becomes (s.m.setReg Reg.mgtBootStatus (bootStatus 2 0 15 15)) := by
  show execSlotVerify ea eb s = _
  rw [execSlotVerify, State.doing_live s _ hl, run_bind, run_get, hstate, happ, hk]
  rfl

/-- The slots are checked in order, and the first without a fault is accepted (R376). -/
theorem exec_slotVerify (hk : s.m.fuses.killed = false) (htorn : s.m.boot.torn = []) {f c1 c2 : Nat} (hf : s.m.firstSlot = f)
    (h1 : s.m.slotCode f (if f = 0 then ea else eb) = c1) (h2 : s.m.slotCode (1 - f) (if 1 - f = 0 then ea else eb) = c2) :
    exec (.slotVerify ea eb) s = s.becomes (
      if c1 = 0 then (acceptSlot f (bySlot f 0 15).1 (bySlot f 0 15).2 s.m).2
      else if c2 = 0 then (acceptSlot (1 - f) (bySlot f c1 c2).1 (bySlot f c1 c2).2 s.m).2
      else s.m.setReg Reg.mgtBootStatus (bootStatus 2 0 (bySlot f c1 c2).1 (bySlot f c1 c2).2)) := by
  show execSlotVerify ea eb s = _
  rw [execSlotVerify, State.doing_live s _ hl, run_bind, run_get, hstate, happ, hk]
  simp only [hf, beq_self_eq_true, Bool.and_self, run_whenA_true, Bool.false_eq_true, if_false, run_bind, run_checkSlot_whole htorn,
    run_ite, run_wr, h1, h2, bySlot, apply_ite Prod.snd]

end

/-- Fuses are blown where the policy and the ready map allow it (R391). -/
theorem exec_rollbackAdvance {s : State} (hl : s.m.board.live = true) :
    exec .rollbackAdvance s = s.becomes (
      if bit (s.m.reg Reg.secPolicy) 3 && decide (s.m.boot.svn > s.m.fuses.rollback) && bit (s.m.reg Reg.mgtReadyMap) 127 then
        { s.m.setReg Reg.secRollback (setBits (s.m.reg Reg.secRollback) 7 0 s.m.boot.svn) with
          fuses := { s.m.fuses with rollback := s.m.boot.svn } }
      else s.m) := by
  show execRollbackAdvance s = _
  rw [execRollbackAdvance, State.doing_live s _ hl, run_bind, run_get, run_whenA]
  rfl

/-- Settles O17: the order of the checks from `exec_slotVerify`, and each acceptance from what an accepted slot shows. -/
theorem slotVerification : Obligations.SlotVerification := by
  unfold Obligations.SlotVerification
  intro s hl hw
  refine ⟨fun ea eb => exec_slotVerify_ignored hl, fun ea eb => exec_slotVerify_killed hl, fun ea eb hstate happ hk htorn => ?_,
    fun may => ?_, fun may => ?_⟩
  · intro err f c1 c2 codes accepted
    have hc1 : s.m.slotCode f (err f) = c1 := rfl
    have hc2 : s.m.slotCode (1 - f) (err (1 - f)) = c2 := rfl
    have hrun := exec_slotVerify hl hstate happ hk htorn rfl hc1 hc2
    clear_value c1 c2
    have haccepts : ∀ slot e p, s.m.slotCode slot e = 0 →
        exec (.slotVerify ea eb) s = s.becomes (acceptSlot slot p.1 p.2 s.m).2 → accepted slot p := fun slot e p h0 hexec => by
      have h := acceptSlot_accepts hw (setting_off_ne h0) p.1 p.2
      exact ⟨_, hexec, h.status, h.ready, h.svn, h.policy, h.flash, h.lib, h.fuses, h.stores⟩
    refine ⟨fun h1 => ?_, fun h1 h2 => ?_, fun h1 h2 => ?_⟩
    · exact haccepts f (err f) (bySlot f 0 15) (hc1.trans h1) (hrun.trans (congrArg s.becomes (if_pos h1)))
    · subst h2
      exact haccepts (1 - f) (err (1 - f)) (bySlot f c1 0) hc2 (hrun.trans (congrArg s.becomes ((if_neg h1).trans (if_pos rfl))))
    · exact hrun.trans (congrArg s.becomes ((if_neg h1).trans (if_neg h2)))
  · rw [exec_rollbackAdvance hl]
    exact congrArg s.becomes (if_pos may)
  · rw [exec_rollbackAdvance hl]
    exact congrArg s.becomes (if_neg (by rw [may]; decide))

/-! ## The placing of the logical cores (R113, R120, R380) -/

theorem map_fst_zip_sublist {α β : Type} (l : List α) (r : List β) : ((l.zip r).map Prod.fst).Sublist l := by
  induction l generalizing r with
  | nil => exact List.Sublist.refl []
  | cons x l ih =>
    cases r with
    | nil => exact List.nil_sublist _
    | cons y r => exact (ih r).cons_cons x

theorem map_snd_zip_sublist {α β : Type} (l : List α) (r : List β) : ((l.zip r).map Prod.snd).Sublist r := by
  induction l generalizing r with
  | nil => exact List.nil_sublist r
  | cons x l ih =>
    cases r with
    | nil => exact List.Sublist.refl []
    | cons y r => exact (ih r).cons_cons y

/-- Logical cores bound to positions: each core of the grade once at most, to a healthy position of its own. -/
structure BoundOnce (per : Nat) (healthy : List Nat) (b : List (Nat × Nat)) : Prop where
  cores : (b.map Prod.fst).Nodup
  places : (b.map Prod.snd).Nodup
  core_lt : ∀ x ∈ b, x.1 < 2 * per
  healthy : ∀ x ∈ b, x.2 ∈ healthy

section
variable {per : Nat} {healthy : List Nat}

/-- The cores of the two dies take their numbers in order, and their positions from the two halves of the healthy ones. -/
theorem boundOnce_placeHome (hh : healthy.Nodup) : BoundOnce per healthy (placeHome per healthy) := by
  have heq : placeHome per healthy = (List.range' 0 per).zip (healthy.filter fun i => i / 64 == 0) ++
      (List.range' per per).zip (healthy.filter fun i => i / 64 == 1) := by simp [placeHome]
  have hcores : ((placeHome per healthy).map Prod.fst).Sublist (List.range' 0 (per + per)) := by
    have happend := List.range'_append (s := 0) (m := per) (n := per) (step := 1)
    rw [Nat.zero_add, Nat.one_mul] at happend
    rw [heq, List.map_append, ← happend]
    exact (map_fst_zip_sublist _ _).append (map_fst_zip_sublist _ _)
  have hplaces : ((placeHome per healthy).map Prod.snd).Sublist
      ((healthy.filter fun i => i / 64 == 0) ++ healthy.filter fun i => i / 64 == 1) := by
    rw [heq, List.map_append]
    exact (map_snd_zip_sublist _ _).append (map_snd_zip_sublist _ _)
  refine ⟨hcores.nodup List.nodup_range', hplaces.nodup (List.nodup_append.2 ⟨hh.filter _, hh.filter _, fun i hi j hj => ?_⟩),
    fun x hx => ?_, fun x hx => ?_⟩
  · have hdie0 := beq_iff_eq.1 (List.mem_filter.1 hi).2
    have hdie1 := beq_iff_eq.1 (List.mem_filter.1 hj).2
    omega
  · have hlt := List.mem_range'_1.1 (hcores.subset (List.mem_map_of_mem hx))
    omega
  · have hmem := hplaces.subset (List.mem_map_of_mem hx)
    rcases List.mem_append.1 hmem with h | h <;> exact (List.mem_filter.1 h).1

/-- One core more takes a free healthy position, or none (R120). -/
theorem placeLeft_bound (p : Placing) (n : Nat) : (placeLeft per healthy p n).bound = p.bound ∨
    ∃ i ∈ healthy, i ∉ p.bound.map Prod.snd ∧ (placeLeft per healthy p n).bound = p.bound ++ [(n, i)] := by
  unfold placeLeft
  split
  next i hi =>
    have hfree : i ∉ p.bound.map Prod.snd := fun hmem => by
      obtain ⟨x, hx, rfl⟩ := List.mem_map.1 hmem
      have hnone := List.find?_some hi
      simp only [Bool.not_eq_true', List.any_eq_false] at hnone
      exact hnone x hx (beq_self_eq_true x.2)
    exact .inr ⟨i, List.mem_of_find?_eq_some hi, hfree, rfl⟩
  next =>
    dsimp only
    split <;> exact .inl rfl

theorem boundOnce_foldl {l : List Nat} (hl : l.Nodup) {p : Placing} (hp : BoundOnce per healthy p.bound)
    (hnew : ∀ n ∈ l, n < 2 * per ∧ n ∉ p.bound.map Prod.fst) : BoundOnce per healthy (l.foldl (placeLeft per healthy) p).bound := by
  induction l generalizing p with
  | nil => exact hp
  | cons n l ih =>
    obtain ⟨hn, hl⟩ := List.nodup_cons.1 hl
    obtain ⟨hlt, hfresh⟩ := hnew n List.mem_cons_self
    rw [List.foldl_cons]
    rcases placeLeft_bound p n with hsame | ⟨i, hi, hfree, hadd⟩
    · exact ih hl (by rwa [hsame]) fun k hk => by
        rw [hsame]
        exact hnew k (List.mem_cons_of_mem n hk)
    · refine ih hl ?_ fun k hk => ?_
      · rw [hadd]
        refine ⟨?_, ?_, ?_, ?_⟩
        · simpa [List.nodup_append] using ⟨hp.cores, fun a b hab e => hfresh (e ▸ List.mem_map_of_mem hab)⟩
        · simpa [List.nodup_append] using ⟨hp.places, fun b a hab e => hfree (e ▸ List.mem_map_of_mem hab)⟩
        · exact List.forall_mem_append.2 ⟨hp.core_lt, by simpa using hlt⟩
        · exact List.forall_mem_append.2 ⟨hp.healthy, by simpa using hi⟩
      · obtain ⟨hk2, hkfresh⟩ := hnew k (List.mem_cons_of_mem n hk)
        refine ⟨hk2, ?_⟩
        have hkn : k ≠ n := fun e => hn (e ▸ hk)
        rw [hadd, List.map_append]
        exact fun hmem => (List.mem_append.1 hmem).elim hkfresh fun h => hkn (List.mem_singleton.1 h)

/-- The core map at reset places no core twice, and none where another is (R113). -/
theorem boundOnce_placing (hh : healthy.Nodup) : BoundOnce per healthy (placing per healthy).bound := by
  refine boundOnce_foldl (List.nodup_range.filter _) (boundOnce_placeHome hh) fun n hn => ?_
  obtain ⟨hrange, hnot⟩ := List.mem_filter.1 hn
  refine ⟨List.mem_range.1 hrange, fun hmem => ?_⟩
  obtain ⟨x, hx, rfl⟩ := List.mem_map.1 hmem
  simp only [Bool.not_eq_true', List.any_eq_false] at hnot
  exact hnot x hx (beq_self_eq_true x.1)

end

/-- The element with a value of f is found where no two share one. -/
theorem find?_of_nodup_map {α β : Type} [DecidableEq β] {l : List α} {f : α → β} (h : (l.map f).Nodup) {x : α} (hx : x ∈ l) :
    l.find? (fun y => f y == f x) = some x := by
  induction l with
  | nil => exact absurd hx List.not_mem_nil
  | cons y l ih =>
    obtain ⟨hy, hl⟩ := List.nodup_cons.1 h
    rcases List.mem_cons.1 hx with rfl | hx
    · simp
    · have hne : f y ≠ f x := fun e => hy (e ▸ List.mem_map_of_mem hx)
      rw [List.find?_cons_of_neg (by simpa using hne), ih hl hx]

/-! ## What bring-up leaves as it was -/

/-- The machine with what may change after the BIST taken from another: registers, core positions, the error log, the security
controller, and what is sent out. -/
def M.asTested (t s : M) : M :=
  { t with regs := s.regs, pos := s.pos, logBuf := s.logBuf, cxl := s.cxl, sec := s.sec, outs := s.outs, free := s.free }

/-- The second machine comes after the first in bring-up, and of the registers only those of the kind C have changed. -/
structure M.bringsUp (C : Nat → Prop) (s t : M) : Prop where
  wf : t.wf = true
  rest : t.asTested s = s
  regs : ∀ o, ¬ C o → t.reg o = s.reg o

section
variable {C D : Nat → Prop} {s t u : M}

theorem M.bringsUp.refl (hw : s.wf = true) : s.bringsUp C s := ⟨hw, rfl, fun _ _ => rfl⟩

theorem M.bringsUp.mono (h : s.bringsUp C t) (hD : ∀ o, C o → D o) : s.bringsUp D t :=
  ⟨h.wf, h.rest, fun o ho => h.regs o fun hc => ho (hD o hc)⟩

theorem M.bringsUp.trans (h : s.bringsUp C t) (h' : t.bringsUp D u) (hD : ∀ o, D o → C o) : s.bringsUp C u where
  wf := h'.wf
  rest := (congrArg (M.asTested · s) h'.rest).trans h.rest
  regs o ho := (h'.regs o fun hd => ho (hD o hd)).trans (h.regs o ho)

theorem keepsUp_wr {o : Nat} (ho : C o) (v : Nat) : Keeps (s.bringsUp C) (wr o v) := fun t h =>
  ⟨M.wf_setReg o v h.wf, h.rest, fun o' ho' => (M.reg_setReg_other t v fun e : o' = o => ho' (e ▸ ho)).trans (h.regs o' ho')⟩

theorem keepsUp_freeVal (w : Nat) : Keeps (s.bringsUp C) (freeVal w) := fun t h => ⟨keepsWf_freeVal w t h.wf, h.rest, h.regs⟩

theorem keepsUp_updPos (i : Nat) (f : PosX → PosX) : Keeps (s.bringsUp C) (updPos i f) := fun t h =>
  ⟨keepsWf_updPos i f t h.wf, h.rest, h.regs⟩

/-- Noting an error while the stores stay is part of bring-up. -/
theorem M.noted.bringsUp (h : s.noted True t) (hw : t.wf = true) : s.bringsUp Reg.ofNotes t := by
  obtain ⟨hmem, hchk⟩ := h.stores trivial
  have hpos : t.pos = s.pos := (congrArg M.pos h.rest :)
  have hsec : t.sec = s.sec := (congrArg M.sec h.rest :)
  have hrest := h.rest
  rw [← hmem, ← hchk] at hrest
  refine ⟨hw, ?_, h.regs⟩
  rw [M.asTested, ← hpos, ← hsec]
  exact hrest

theorem keepsUp_logAdd (hC : ∀ o, Reg.ofNotes o → C o) (kind island step logical queue entry : Nat) (pl : List Byte) :
    Keeps (s.bringsUp C) (logAdd kind island step logical queue entry pl) := fun t h =>
  h.trans ((keepsNoted_logAdd kind island step logical queue entry pl t (.refl True t)).bringsUp
    (keepsWf_logAdd _ _ _ _ _ _ _ t h.wf)) hC

end

/-! ## The core map is written (Tables 05-2 to 05-5) -/

/-- Logical core n is entered in the map. -/
def mapCore (per : Nat) (p : Placing) (n : Nat) : Act Unit := do
  let v ← if n ≥ 2 * per then pure 0xFF0000
    else match lookup p.bound n, lookup p.guests n with
      | some i, _ => match p.guests.find? fun (_, h) => h == n with
        | some (g, _) => pure (0x90000000 + g <<< 16 + i)
        | none => pure (0x80FF0000 + i)
      | none, some h => pure (0xA0000000 + h <<< 16 + (lookup p.bound h).getD 0)
      | none, none => do
        let x ← freeVal 7
        pure (0x80FF0000 + x)
  wr (Reg.mgtCoreMap n) v

/-- The word of MGT_SLICE_MAP_s under a placing. -/
def sliceWord (p : Placing) (s : Nat) : Nat :=
  let rest := (List.range 128).filter fun s => (lookup p.bound s).isNone
  let places := (List.range 128).filter fun i => !p.bound.any fun (_, j) => j == i
  (lookup (p.bound ++ rest.zip places) s).getD 0

/-- The word of MGT_POS_STATE_i under a placing. -/
def stateWord (code : Nat → Nat) (p : Placing) (i : Nat) : Nat :=
  match p.bound.find? fun (_, j) => j == i with
  | some (n, _) => n
  | none => if code i = 0 then 0x1FF else code i <<< 8 + 0xFF

/-- The word of MGT_BENCH_COUNT under a placing. -/
def benchWord (code : Nat → Nat) (p : Placing) : Nat :=
  let bench := fun d => ((List.range' (64 * d) 64).filter fun i => code i == 0 && !p.bound.any fun (_, j) => j == i).length
  bench 1 <<< 8 + bench 0

theorem writeMap_eq (per : Nat) (code : Nat → Nat) (p : Placing) : writeMap per code p = (do
    forA (List.range 256) (mapCore per p)
    forA (List.range 128) fun s => wr (Reg.mgtSliceMap s) (sliceWord p s)
    forA (List.range 128) fun i => wr (Reg.mgtPosState i) (stateWord code p i)
    wr Reg.mgtBenchCount (benchWord code p)) := by
  unfold writeMap
  rfl

/-- Entering a core sets its register, and draws at most a free value. -/
theorem mapCore_sets (per : Nat) (p : Placing) (n : Nat) (s : M) :
    ∃ v k, (mapCore per p n s).2 = ({ s with free := k } : M).setReg (Reg.mgtCoreMap n) v := by
  unfold mapCore
  dsimp only
  rw [run_ite]
  split
  · exact ⟨_, s.free, rfl⟩
  · cases lookup p.bound n with
    | some i => cases p.guests.find? fun x => x.2 == n <;> exact ⟨_, s.free, rfl⟩
    | none =>
      cases lookup p.guests n with
      | some h => exact ⟨_, s.free, rfl⟩
      | none => exact ⟨_, s.free + 1, rfl⟩

/-- A word with a position in its low bits. -/
theorem bits_position {i : Nat} (hi : i < 128) (x : Nat) (hx : x % 128 = 0) : bits (x + i) 6 0 = i := by
  show (x + i) >>> 0 % 128 = i
  rw [Nat.shiftRight_zero]
  omega

/-- A core that is bound to a position is entered with it. -/
theorem mapCore_bound {per : Nat} {p : Placing} {n i : Nat} (hn : n < 2 * per) (hi : i < 128) (hb : lookup p.bound n = some i) (s : M) :
    ∃ v, (mapCore per p n s).2 = s.setReg (Reg.mgtCoreMap n) v ∧ bits v 6 0 = i := by
  unfold mapCore
  dsimp only
  rw [run_ite, if_neg (by omega), hb]
  dsimp only
  cases p.guests.find? fun x => x.2 == n with
  | some g => exact ⟨_, rfl, bits_position hi _ (by rw [Nat.shiftLeft_eq]; omega)⟩
  | none => exact ⟨_, rfl, bits_position hi _ (by decide)⟩

/-- The registers of the core map. -/
def Reg.ofMap (o : Nat) : Prop := 0x10000 ≤ o ∧ o < 0x10810

section
variable {s : M} {per : Nat} {code : Nat → Nat} {p : Placing}

theorem keepsUp_mapCore {n : Nat} (hn : n < 256) : Keeps (s.bringsUp Reg.ofMap) (mapCore per p n) := fun t h => by
  obtain ⟨v, k, hrun⟩ := mapCore_sets per p n t
  have hwf : ({ t with free := k } : M).wf = true := (M.wf_congr ⟨rfl, rfl, rfl, rfl, rfl, rfl, rfl, rfl, rfl, rfl, rfl⟩).trans h.wf
  rw [hrun]
  exact keepsUp_wr (by simp only [Reg.ofMap, Reg.mgtCoreMap]; omega) v { t with free := k } ⟨hwf, h.rest, h.regs⟩

/-- Writing the map changes no registers but those of the map. -/
theorem keepsUp_writeMap : Keeps (s.bringsUp Reg.ofMap) (writeMap per code p) := by
  rw [writeMap_eq]
  refine keeps_bind (keeps_forA_mem fun n hn => keepsUp_mapCore (List.mem_range.1 hn)) fun _ =>
    keeps_bind (keeps_forA_mem fun k hk => keepsUp_wr ?_ _) fun _ => keeps_bind (keeps_forA_mem fun i hi => keepsUp_wr ?_ _) fun _ =>
    keepsUp_wr (by unfold Reg.ofMap; decide) _
  · have hk128 := List.mem_range.1 hk
    simp only [Reg.ofMap, Reg.mgtSliceMap]
    omega
  · have hi128 := List.mem_range.1 hi
    simp only [Reg.ofMap, Reg.mgtPosState]
    omega

/-- A core and its position point at each other, and the position is active. -/
def M.hosts (s : M) (n i : Nat) : Prop := s.posOf n = i ∧ s.posState i = 0 ∧ s.logicalAt i = n

/-- A register of core n's entry shows position i. -/
def M.entered (s : M) (n i : Nat) : Prop := bits (s.reg (Reg.mgtCoreMap n)) 6 0 = i

theorem M.entered.setReg {t : M} {n i o : Nat} (h : t.entered n i) (ho : Reg.mgtCoreMap n ≠ o) (v : Nat) : (t.setReg o v).entered n i :=
  (congrArg (bits · 6 0) (M.reg_setReg_other t v ho)).trans h

theorem forA_mapCore_enters (hw : s.wf = true) {n i : Nat} (hper : per ≤ 60) (hn : n < 2 * per) (hi : i < 128)
    (hb : lookup p.bound n = some i) : (forA (List.range 256) (mapCore per p) s).2.entered n i := by
  refine forA_settles (I := s.bringsUp Reg.ofMap) (P := (·.entered n i)) (x := n) (fun k hk => keepsUp_mapCore (List.mem_range.1 hk))
    (fun k _ t ht hor => ?_) (.refl hw) (.inr (List.mem_range.2 (by omega)))
  by_cases hnk : n = k
  · subst hnk
    obtain ⟨v, hrun, hv⟩ := mapCore_bound (p := p) hn hi hb t
    rw [hrun]
    exact (congrArg (bits · 6 0) (M.reg_setReg_self t _ v ht.wf)).trans hv
  · obtain ⟨v, d, hrun⟩ := mapCore_sets per p k t
    rw [hrun]
    exact M.entered.setReg (t := { t with free := d }) (hor.resolve_right hnk) (by simp only [Reg.mgtCoreMap]; omega) v

theorem forA_stateWord_sets (hw : s.wf = true) {n i : Nat} (hi : i < 128) (hstate : stateWord code p i = n) :
    (forA (List.range 128) (fun j => wr (Reg.mgtPosState j) (stateWord code p j)) s).2.reg (Reg.mgtPosState i) = n := by
  refine forA_settles (I := (·.wf = true)) (P := fun t => t.reg (Reg.mgtPosState i) = n) (x := i) (fun j _ => keepsWf_wr _ _)
    (fun j _ t ht hor => ?_) hw (.inr (List.mem_range.2 hi))
  by_cases hij : i = j
  · subst hij
    exact (M.reg_setReg_self t _ _ ht).trans hstate
  · exact (M.reg_setReg_other t _ (by simp only [Reg.mgtPosState]; omega)).trans (hor.resolve_right hij)

/-- An entry of the map and the word of its position, read back. -/
theorem M.entered.hosts {n i : Nat} (h : s.entered n i) (hstate : s.reg (Reg.mgtPosState i) = n) (hn : n < 256) : s.hosts n i := by
  refine ⟨h, ?_, ?_⟩
  · rw [M.posState, hstate, bits, Nat.shiftRight_eq_div_pow]
    omega
  · rw [M.logicalAt, hstate, bits, Nat.shiftRight_eq_div_pow]
    omega

/-- Every core that is bound finds its position in the map, and the position its core (R113). -/
theorem writeMap_hosts (hw : s.wf = true) {healthy : List Nat} (hb : BoundOnce per healthy p.bound) (hper : per ≤ 60)
    (hlt : ∀ i ∈ healthy, i < 128) : ∀ x ∈ p.bound, (writeMap per code p s).2.hosts x.1 x.2 := by
  rintro ⟨n, i⟩ hx
  have hn : n < 2 * per := hb.core_lt _ hx
  have hi : i < 128 := hlt i (hb.healthy _ hx)
  have hlookup : lookup p.bound n = some i := congrArg (Option.map Prod.snd) (find?_of_nodup_map hb.cores hx)
  have hstate : stateWord code p i = n := by
    have hfind : p.bound.find? (fun (_, j) => j == i) = some (n, i) := find?_of_nodup_map hb.places hx
    rw [stateWord, hfind]
  let cores := (forA (List.range 256) (mapCore per p) s).2
  let slices := (forA (List.range 128) (fun k => wr (Reg.mgtSliceMap k) (sliceWord p k)) cores).2
  let states := (forA (List.range 128) (fun j => wr (Reg.mgtPosState j) (stateWord code p j)) slices).2
  have hcoresWf : cores.wf = true := (keeps_forA_mem (fun k hk => keepsUp_mapCore (List.mem_range.1 hk)) s (.refl hw)).wf
  have hslicesWf : slices.wf = true := keepsWf_forA (fun k => keepsWf_wr _ _) cores hcoresWf
  have hcores : cores.entered n i := forA_mapCore_enters hw hper hn hi hlookup
  have hslices : slices.entered n i := keeps_forA_mem (P := (·.entered n i)) (fun k hk t ht => ht.setReg (by
    have hk128 := List.mem_range.1 hk
    simp only [Reg.mgtCoreMap, Reg.mgtSliceMap]
    omega) _) cores hcores
  have hstates : states.entered n i := keeps_forA (P := (·.entered n i)) (fun k t ht => ht.setReg (by
    simp only [Reg.mgtCoreMap, Reg.mgtPosState]
    omega) _) slices hslices
  have hrun : (writeMap per code p s).2 = states.setReg Reg.mgtBenchCount (benchWord code p) := by
    rw [writeMap_eq, run_bind, run_bind, run_bind, run_wr]
  rw [hrun]
  refine (hstates.setReg (by simp only [Reg.mgtCoreMap, Reg.mgtBenchCount]; omega) _).hosts ?_ (by omega)
  exact (M.reg_setReg_other states _ (by simp only [Reg.mgtPosState, Reg.mgtBenchCount]; omega)).trans
    (forA_stateWord_sets hslicesWf hi hstate)

end

/-! ## The health record (R384) -/

/-- The machine with another flash. -/
def M.withFlash (s : M) (f : Tab Byte) : M := { s with boot := { s.boot with flash := f } }

/-- The action changes the flash alone. -/
def FlashOnly (a : Act Unit) : Prop := ∀ s, ∃ f, (a s).2 = s.withFlash f

theorem flashOnly_bind {a : Act Unit} {f : Unit → Act Unit} (ha : FlashOnly a) (hf : ∀ x, FlashOnly (f x)) : FlashOnly (a >>= f) :=
  fun s => by
    obtain ⟨g, hg⟩ := ha s
    obtain ⟨k, hk⟩ := hf () (s.withFlash g)
    exact ⟨k, by rw [run_bind, hg, hk]; rfl⟩

theorem flashOnly_forA {α : Type} {l : List α} {f : α → Act Unit} (hf : ∀ x, FlashOnly (f x)) : FlashOnly (forA l f) := by
  induction l with
  | nil => exact fun s => ⟨s.boot.flash, rfl⟩
  | cons x l ih => exact flashOnly_bind (hf x) fun _ => ih

theorem flashOnly_writeHealth (copy : Nat) (l : List (Nat × List Byte)) (place seq : Nat) :
    FlashOnly (writeHealth copy l place seq) := by
  induction l generalizing place seq with
  | nil => exact fun s => ⟨s.boot.flash, rfl⟩
  | cons x l ih => exact flashOnly_bind (fun s => ⟨_, rfl⟩) fun _ => ih _ _

theorem flashOnly_healthAppend (kind : Nat) (payload : List Byte) : FlashOnly (healthAppend kind payload) := fun s => by
  have happend : ∀ (c : Prop) [Decidable c] copy l place seq copy' l' seq', FlashOnly (if c then writeHealth copy l place seq else do
      eraseFlash (healthBase copy') healthSize
      writeHealth copy' l' 0 seq') := fun c _ copy l place seq copy' l' seq' => by
    split
    · exact flashOnly_writeHealth _ _ _ _
    · exact flashOnly_bind (fun s => ⟨_, rfl⟩) fun _ => flashOnly_writeHealth _ _ _ _
  unfold healthAppend
  rw [run_bind, run_get]
  cases s.healthTop with
  | none => exact happend _ _ _ _ _ _ _ _ s
  | some x => exact happend _ _ _ _ _ _ _ _ s

/-! ## Bring-up (R113, R197, R257, R369, R370, R380) -/

/-- The state of each position, by the fuses and the health record. -/
def M.codeAt (s : M) : Nat → Nat := posCode s.fuses s.facts

/-- Logical cores of a die. -/
def Fuses.per (f : Fuses) : Nat := if f.standard then 48 else 60

/-- The placing of the cores that bring-up finds. -/
def M.placingAt (s : M) : Placing := placing s.fuses.per ((List.range 128).filter fun i => s.codeAt i == 0)

/-- Positions whose checksums are off, and the trims, as the health record has them. -/
def showFacts (facts : List Health) : Act Unit := do
  forA (List.range 128) fun i =>
    whenA (facts.any fun h => h.about == (0x12, i) && h.payload.getD 1 0#8 == 0#8) do
      wr (Reg.chkPos i) (1 <<< 31)
      updPos i fun x => { x with csumOff := true }
  forA (List.range 179) fun i =>
    match facts.find? fun h => h.about == (0x23, i) with
    | none => pure ()
    | some h => wr (Reg.pwrTrim i) (leNat ((h.payload.drop 12).take 2) <<< 16 + (h.payload.getD 10 0#8).toNat)

/-- The training of the far store starts (R197). -/
def startTraining : Act Unit := forA (List.range 8) fun k => wr (Reg.memSetState k) (1 <<< 30)

/-- A new epoch is drawn (R257). -/
def drawEpoch : Act Unit := do
  let e ← freeVal 16
  wr Reg.trnEpoch (1 + e % 65535)

/-- The cores without a position are noted (R380). -/
def logLost (lost : List Nat) : Act Unit := do
  modify fun s => { s with sec := { s.sec with draws := 1 } }
  forA lost fun n => logAdd 0x3E 177 0 n 0xFF 0 (payload [(0, 1, 2)])

/-- What bring-up writes once the BIST results are in the health record. -/
def bringUpFrom (s : M) : Act Unit := do
  writeMap s.fuses.per s.codeAt s.placingAt
  wr Reg.mgtGrade (b2n s.fuses.standard)
  wr Reg.secRollback (b2n s.fuses.killed <<< 8 + s.fuses.rollback)
  showFacts s.facts
  startTraining
  drawEpoch
  logLost s.placingAt.lost

theorem bringUp_eq (bistFail : List Nat) : bringUp bistFail = (do
    forA bistFail fun i => healthAppend 0x80 [BitVec.ofNat 8 i, 2#8]
    let s ← get
    bringUpFrom s) := by
  unfold bringUp bringUpFrom showFacts startTraining drawEpoch logLost
  simp only [bind_assoc]
  rfl

/-! ## The steps of bring-up -/

/-- The registers from the power governor's on. -/
def Reg.fromPower (o : Nat) : Prop := 0x210000 ≤ o

/-- The registers of errors and events, and those from the transport's on. -/
def Reg.fromEpoch (o : Nat) : Prop := Reg.ofNotes o ∨ 0x250000 ≤ o

/-- The registers beside the management block, and the grade. -/
def Reg.afterMap (o : Nat) : Prop := o = Reg.mgtGrade ∨ 0x200000 ≤ o

/-- The registers from the grade on. -/
def Reg.fromGrade (o : Nat) : Prop := 0x28 ≤ o

theorem Reg.fromEpoch_fromPower {o : Nat} (h : Reg.fromEpoch o) : Reg.fromPower o := by
  simp only [Reg.fromEpoch, Reg.ofNotes, Reg.fromPower] at *
  omega

section
variable {s t : M}

theorem keepsUp_showFacts (facts : List Health) : Keeps (s.bringsUp Reg.fromPower) (showFacts facts) := by
  refine keeps_bind (keeps_forA fun i => keeps_whenA (keeps_bind (keepsUp_wr ?_ _) fun _ => keepsUp_updPos _ _)) fun _ =>
    keeps_forA fun i => ?_
  · simp only [Reg.fromPower, Reg.chkPos]
    omega
  · split
    · exact keeps_pure ()
    · exact keepsUp_wr (by simp only [Reg.fromPower, Reg.pwrTrim]; omega) _

theorem keepsUp_startTraining : Keeps (s.bringsUp Reg.fromPower) startTraining :=
  keeps_forA fun k => keepsUp_wr (by simp only [Reg.fromPower, Reg.memSetState]; omega) _

/-- Every set of the far store is in training (R197). -/
theorem startTraining_sets (hw : s.wf = true) (k : Nat) (hk : k < 8) :
    (startTraining s).2.reg (Reg.memSetState k) = 1 <<< 30 := by
  refine forA_settles (I := (·.wf = true)) (P := fun t => t.reg (Reg.memSetState k) = 1 <<< 30) (x := k) (fun j _ => keepsWf_wr _ _)
    (fun j _ t ht hor => ?_) hw (.inr (List.mem_range.2 hk))
  by_cases hkj : k = j
  · subst hkj
    exact M.reg_setReg_self t _ _ ht
  · exact (M.reg_setReg_other t _ (by simp only [Reg.memSetState]; omega)).trans (hor.resolve_right hkj)

theorem keepsUp_drawEpoch : Keeps (s.bringsUp Reg.fromEpoch) drawEpoch :=
  keeps_bind (keepsUp_freeVal 16) fun _ => keepsUp_wr (by simp [Reg.fromEpoch, Reg.trnEpoch]) _

/-- The epoch is 16 bits wide, and not 0 (R257). -/
theorem drawEpoch_range (hw : s.wf = true) : 1 ≤ (drawEpoch s).2.reg Reg.trnEpoch ∧ (drawEpoch s).2.reg Reg.trnEpoch < 2 ^ 16 := by
  have hepoch : (drawEpoch s).2.reg Reg.trnEpoch = 1 + trunc 16 (Config.freeValue s.free) % 65535 :=
    M.reg_setReg_self _ _ _ (keepsWf_freeVal 16 s hw)
  rw [hepoch]
  omega

theorem keepsUp_logLost (lost : List Nat) : Keeps (s.bringsUp Reg.ofNotes) (logLost lost) :=
  keeps_bind (fun _ h => ⟨(M.wf_congr ⟨rfl, rfl, rfl, rfl, rfl, rfl, rfl, rfl, rfl, rfl, rfl⟩).trans h.wf, h.rest, h.regs⟩) fun _ =>
    keeps_forA fun _ => keepsUp_logAdd (fun _ h => h) _ _ _ _ _ _ _

/-- What a module shows that has come up from the state s. -/
structure M.started (s m : M) : Prop extends M.bringsUp Reg.fromGrade s m where
  grade : m.reg Reg.mgtGrade = b2n s.fuses.standard
  rollback : m.reg Reg.secRollback = b2n s.fuses.killed <<< 8 + s.fuses.rollback
  training : ∀ k, k < 8 → m.reg (Reg.memSetState k) = 1 <<< 30
  epoch : 1 ≤ m.reg Reg.trnEpoch ∧ m.reg Reg.trnEpoch < 2 ^ 16
  map : (writeMap s.fuses.per s.codeAt s.placingAt s).2.bringsUp Reg.afterMap m

theorem bringUpFrom_starts (hw : s.wf = true) : s.started (bringUpFrom s s).2 := by
  let mapped := (writeMap s.fuses.per s.codeAt s.placingAt s).2
  let graded := mapped.setReg Reg.mgtGrade (b2n s.fuses.standard)
  let counted := graded.setReg Reg.secRollback (b2n s.fuses.killed <<< 8 + s.fuses.rollback)
  let shown := (showFacts s.facts counted).2
  let trained := (startTraining shown).2
  let drawn := (drawEpoch trained).2
  have hrun : (bringUpFrom s s).2 = (logLost s.placingAt.lost drawn).2 := by simp only [bringUpFrom, run_bind, run_wr]; rfl
  rw [hrun]
  have hmapped : s.bringsUp Reg.ofMap mapped := keepsUp_writeMap s (.refl hw)
  have hgraded : mapped.bringsUp Reg.afterMap graded := keepsUp_wr (.inl rfl) _ mapped (.refl hmapped.wf)
  have hcounted : graded.bringsUp (0x200000 ≤ ·) counted := keepsUp_wr (by decide) _ graded (.refl hgraded.wf)
  have hshown : counted.bringsUp Reg.fromPower shown := keepsUp_showFacts _ counted (.refl hcounted.wf)
  have htrained : shown.bringsUp Reg.fromPower trained := keepsUp_startTraining shown (.refl hshown.wf)
  have hdrawn : trained.bringsUp Reg.fromEpoch drawn := keepsUp_drawEpoch trained (.refl htrained.wf)
  have hlast : drawn.bringsUp Reg.ofNotes (logLost s.placingAt.lost drawn).2 := keepsUp_logLost _ drawn (.refl hdrawn.wf)
  have hfromTrained := hdrawn.trans hlast fun _ h => .inl h
  have hfromCounted := hshown.trans (htrained.trans hfromTrained fun _ => Reg.fromEpoch_fromPower) fun _ h => h
  have hfromGraded := hcounted.trans hfromCounted fun o (h : 0x210000 ≤ o) => show 0x200000 ≤ o by omega
  have hfromMapped := hgraded.trans hfromGraded fun _ h => .inr h
  have hmap : s.bringsUp Reg.fromGrade mapped := hmapped.mono fun o h => show 0x28 ≤ o by simp only [Reg.ofMap] at h; omega
  refine ⟨hmap.trans hfromMapped fun o h => ?_, ?_, ?_, fun k hk => ?_, ?_, hfromMapped⟩
  · simp only [Reg.afterMap, Reg.mgtGrade, Reg.fromGrade] at *
    omega
  · exact (hfromGraded.regs _ (by decide)).trans (M.reg_setReg_self _ _ _ hmapped.wf)
  · exact (hfromCounted.regs _ (by unfold Reg.fromPower; decide)).trans (M.reg_setReg_self _ _ _ hgraded.wf)
  · refine (hfromTrained.regs _ ?_).trans (startTraining_sets hshown.wf k hk)
    simp only [Reg.fromEpoch, Reg.ofNotes, Reg.memSetState]
    omega
  · rw [hlast.regs _ (by unfold Reg.ofNotes; decide)]
    exact drawEpoch_range htrained.wf

/-- What bring-up does beside the map leaves cores and positions where the map has them. -/
theorem M.hosts.afterMap {n i : Nat} (h : s.hosts n i) (hs : s.bringsUp Reg.afterMap t) (hn : n < 256) (hi : i < 128) :
    t.hosts n i := by
  have hcore : t.reg (Reg.mgtCoreMap n) = s.reg (Reg.mgtCoreMap n) :=
    hs.regs _ (by simp only [Reg.afterMap, Reg.mgtGrade, Reg.mgtCoreMap]; omega)
  have hpos : t.reg (Reg.mgtPosState i) = s.reg (Reg.mgtPosState i) :=
    hs.regs _ (by simp only [Reg.afterMap, Reg.mgtGrade, Reg.mgtPosState]; omega)
  unfold M.hosts M.posOf M.posState M.logicalAt at *
  rwa [hcore, hpos]

/-- Every core of the placing is at its position (R113). -/
theorem M.started.hosts (hw : s.wf = true) (h : s.started t) : ∀ x ∈ s.placingAt.bound, t.hosts x.1 x.2 := fun x hx => by
  have hper : s.fuses.per ≤ 60 := by
    unfold Fuses.per
    split <;> omega
  have hlt : ∀ i ∈ (List.range 128).filter fun i => s.codeAt i == 0, i < 128 := fun i hi =>
    List.mem_range.1 (List.mem_filter.1 hi).1
  have hbound := boundOnce_placing (per := s.fuses.per) ((List.nodup_range (n := 128)).filter fun i => s.codeAt i == 0)
  have hcore := hbound.core_lt x hx
  exact (writeMap_hosts hw hbound hper hlt x hx).afterMap h.map (by omega) (hlt _ (hbound.healthy x hx))

end

/-! ## The command (R369) -/

/-- The facts in force lie in the flash alone (R384). -/
theorem M.facts_eq (s : M) : s.facts = ({ boot := { flash := s.boot.flash } } : M).facts := rfl

theorem M.facts_congr {s t : M} (h : t.boot.flash = s.boot.flash) : t.facts = s.facts := by
  rw [M.facts_eq, h, ← M.facts_eq]

/-- Before t0 only the pins change; at t0 the module comes up from its reset state. -/
theorem exec_moduleReset (s : State) (a b : Bool) (fails : List Nat) :
    let board := { s.m.board with perst9 := s.m.board.perst9 && !a, perst10 := s.m.board.perst10 && !b }
    let pinned : M := { s.m with board := board }
    exec (.moduleReset a b fails) s = s.becomes (if pinned.atT0 then (bringUp fails pinned.atReset).2 else pinned) := by
  show execModuleReset a b fails s = _
  rw [execModuleReset, State.always, run_bind, run_modify, run_bind, run_get, run_whenA, run_bind, run_modify]

/-- Settles O14: bring-up runs on the reset state, with what the BIST appends in the flash; its steps write the named registers, and each
leaves what the later ones do not name. -/
theorem moduleResetBringsUp : Obligations.ModuleResetBringsUp := by
  unfold Obligations.ModuleResetBringsUp
  intro s a b fails board t0
  let pinned : M := { s.m with board := board }
  have hrun : exec (.moduleReset a b fails) s = s.becomes (if t0 then (bringUp fails pinned.atReset).2 else pinned) :=
    exec_moduleReset s a b fails
  refine ⟨fun h => by rw [hrun, h]; rfl, fun h => ⟨(bringUp fails pinned.atReset).2, by rw [hrun, h]; rfl, ?_⟩⟩
  obtain ⟨f, hf⟩ := flashOnly_forA (l := fails) (fun i => flashOnly_healthAppend 0x80 [BitVec.ofNat 8 i, 2#8]) pinned.atReset
  have hm : (pinned.atReset.withFlash f).started (bringUp fails pinned.atReset).2 := by
    rw [bringUp_eq, run_bind, run_bind, run_get, hf]
    exact bringUpFrom_starts rfl
  generalize (bringUp fails pinned.atReset).2 = m at hm
  have hboot : m.boot = (pinned.atReset.withFlash f).boot := (congrArg M.boot hm.rest :)
  refine ⟨(congrArg M.board hm.rest :), (congrArg M.fuses hm.rest :), (congrArg (·.torn) hboot :), (congrArg M.mem hm.rest :),
    (congrArg M.chk hm.rest :), (congrArg M.cores hm.rest :), (congrArg M.hostQ hm.rest :), (congrArg M.rly hm.rest :),
    (congrArg M.gov hm.rest :), (congrArg M.isl hm.rest :), fun k hk => ?_, ?_, ?_, ?_, hm.rollback, hm.epoch.1, hm.epoch.2,
    fun hfails => ?_⟩
  · rw [M.setState, hm.training k hk]
    decide
  · exact (hm.regs Reg.mgtReadyMap (by unfold Reg.fromGrade; decide)).trans (show Reg.dflt Reg.mgtReadyMap = 0 by decide)
  · exact hm.regs Reg.mgtBootStatus (by unfold Reg.fromGrade; decide)
  · rw [M.standard, hm.grade]
    show bit (b2n s.m.fuses.standard) 0 = _
    cases s.m.fuses.standard <;> rfl
  · subst hfails
    have hflash : f = s.m.boot.flash := (congrArg (·.boot.flash) hf :).symm
    have hfacts : (pinned.atReset.withFlash f).facts = s.m.facts := M.facts_congr hflash
    have hhosts := hm.hosts rfl
    rw [M.placingAt, M.codeAt, hfacts] at hhosts
    exact ⟨(congrArg (·.flash) hboot :).trans hflash, hhosts⟩

end Sys2Proof.Machine

/-! # Zeroisation and the random source (R398, R400 to R404)

First what clearing the secrets leaves of the registers, and the zeroised state that it leads to. Then each trigger of a zeroisation: where
it acts, it does `zeroiseNow` and sends its answer. Two triggers together are then one zeroisation, since the second finds the
controller down. -/

namespace Sys2Proof.Machine

/-! ## What clearing the secrets leaves as it was (R402) -/

/-- Setting a field leaves the fields above it alone. -/
theorem bits_setBits_above {hi lo hi' lo' : Nat} (h : hi < lo') (hl : lo ≤ hi) (x v : Nat) :
    bits (setBits x hi lo v) hi' lo' = bits x hi' lo' := by
  refine Nat.eq_of_testBit_eq fun i => ?_
  simp only [bits, Nat.testBit_mod_two_pow, Nat.testBit_shiftRight, testBit_setBits_above (show hi < lo' + i by omega) hl]

section
variable {s t : M}

/-- Beside the count of sessions, the IDE streams and the ports no register changes. -/
theorem reg_clearSecrets {o : Nat} (ho : o ≠ Reg.secSessions ∧ o ≠ Reg.hstStatus ∧ o < 0x281004) :
    (clearSecrets s).2.reg o = s.reg o := by
  obtain ⟨hsessions, hhost, hports⟩ := ho
  refine keeps_forA (P := fun t => t.reg o = s.reg o) (fun n t h => (M.reg_setReg_other t _ ?_).trans h) _
    ((M.reg_setReg_other _ _ hhost).trans (M.reg_setReg_other s.secretless _ hsessions))
  simp only [Reg.ethPortStatus]
  omega

/-- The host's link stays as it is, while its IDE streams end. -/
theorem link_clearSecrets (hw : s.wf = true) :
    bits ((clearSecrets s).2.reg Reg.hstStatus) 31 30 = bits (s.reg Reg.hstStatus) 31 30 := by
  let closed := s.secretless.setReg Reg.secSessions 0
  have hclosed : closed.wf = true :=
    M.wf_setReg _ _ ((M.wf_congr ⟨rfl, rfl, rfl, rfl, rfl, rfl, rfl, rfl, rfl, rfl, rfl⟩).trans hw)
  have hended : bits ((closed.setReg Reg.hstStatus (setBits (closed.reg Reg.hstStatus) 22 21 0)).reg Reg.hstStatus) 31 30 =
      bits (s.reg Reg.hstStatus) 31 30 := by
    rw [M.reg_setReg_self _ _ _ hclosed, bits_setBits_above (by decide) (by decide), M.reg_setReg_other _ _ (by decide)]
    rfl
  refine keeps_forA (P := fun t => bits (t.reg Reg.hstStatus) 31 30 = bits (s.reg Reg.hstStatus) 31 30)
    (fun n t h => ?_) _ hended
  show bits ((t.setReg (Reg.ethPortStatus n) _).reg Reg.hstStatus) 31 30 = _
  rw [M.reg_setReg_other _ _ (by simp only [Reg.ethPortStatus, Reg.hstStatus]; omega)]
  exact h

/-! ## The zeroised state (R402, R404) -/

/-- One zeroisation has been done: the secrets are gone, the zeroised state shows, and the count is one more; the link and the policy
stand. -/
structure M.zeroised (s t : M) : Prop where
  cleared : s.cleared t
  status : t.reg Reg.secStatus = 1 <<< 30
  count : t.reg Reg.secZeroiseCount = satU 32 (s.reg Reg.secZeroiseCount + 1)
  link : bits (t.reg Reg.hstStatus) 31 30 = bits (s.reg Reg.hstStatus) 31 30
  policy : t.reg Reg.secPolicy = s.reg Reg.secPolicy

theorem zeroiseNow_up (hw : s.wf = true) (hup : s.secDown = false) : s.zeroised (zeroiseNow s).2 := by
  have hrun : (zeroiseNow s).2 = ((clearSecrets s).2.setReg Reg.secStatus (1 <<< 30)).setReg Reg.secZeroiseCount
      (satU 32 ((clearSecrets s).2.reg Reg.secZeroiseCount + 1)) := by
    rw [zeroiseNow, run_bind, run_get, hup]
    simp only [Bool.not_false, run_whenA_true, run_bind, run_wr, run_upd]
    rw [M.reg_setReg_other _ _ (by decide)]
  have hcleared := clearSecrets_clears hw
  have hpolicy : (clearSecrets s).2.reg Reg.secPolicy = s.reg Reg.secPolicy := reg_clearSecrets (by decide)
  have hlink := link_clearSecrets hw
  rw [hrun, reg_clearSecrets (o := Reg.secZeroiseCount) (by decide)]
  generalize (clearSecrets s).2 = u at hcleared hpolicy hlink
  have hstatus := M.wf_setReg Reg.secStatus (1 <<< 30) hcleared.wf
  refine ⟨(hcleared.setReg (by decide) _).setReg (by decide) _, ?_, M.reg_setReg_self _ _ _ hstatus, ?_, ?_⟩
  · rw [M.reg_setReg_other _ _ (by decide), M.reg_setReg_self _ _ _ hcleared.wf]
  · rw [M.reg_setReg_other _ _ (by decide), M.reg_setReg_other _ _ (by decide), hlink]
  · rw [M.reg_setReg_other _ _ (by decide), M.reg_setReg_other _ _ (by decide), hpolicy]

/-- In the error state and the zeroised state there is nothing left to zeroise. -/
theorem zeroiseNow_down (h : s.secDown = true) : (zeroiseNow s).2 = s := by
  rw [zeroiseNow, run_bind, run_get, h]
  rfl

theorem M.secDown_of_status (h : s.reg Reg.secStatus = 1 <<< 30) : s.secDown = true := by
  rw [M.secDown, h]
  rfl

/-- A controller that is up reports no error. -/
theorem M.noError_of_up (h : s.secDown = false) : bits (s.reg Reg.secStatus) 23 16 = 0 := by
  obtain ⟨herror, -⟩ := Bool.or_eq_false_iff.1 h
  simpa using herror

theorem M.zeroised.rest (h : s.zeroised t) : { t with regs := s.regs } = s.secretless := h.cleared.rest

/-- What a zeroisation shows, and what it leaves as it was (R402). -/
def M.showsZeroised (s t : M) : Prop := t.secretsCleared ∧ t.reg Reg.secStatus = 1 <<< 30 ∧
  t.reg Reg.secZeroiseCount = satU 32 (s.reg Reg.secZeroiseCount + 1) ∧ s.sameStores t ∧ t.cores = s.cores

theorem M.zeroised.shows (h : s.zeroised t) : s.showsZeroised t :=
  ⟨h.cleared.secrets, h.status, h.count, h.cleared.sameStores, (congrArg M.cores h.rest :)⟩

theorem M.zeroised.outs (h : s.zeroised t) : t.outs = s.outs := (congrArg M.outs h.rest :)

theorem M.zeroised.fuses (h : s.zeroised t) : t.fuses = s.fuses := (congrArg M.fuses h.rest :)

theorem M.zeroised.board (h : s.zeroised t) : t.board = s.board := (congrArg M.board h.rest :)

theorem M.zeroised.hostWaits (h : s.zeroised t) : t.hostWaits = s.hostWaits :=
  congrArg (fun held => Tab.read (fun _ => 0) held 0 != 0) (congrArg M.heldBy h.rest :)

theorem M.zeroised.setReg (h : s.zeroised t) {o : Nat} (ho : o = Reg.secRollback) (v : Nat) : s.zeroised (t.setReg o v) := by
  have hother := fun o' (ho' : o' ≠ Reg.secRollback) => M.reg_setReg_other t v (ho ▸ ho' : o' ≠ o)
  refine ⟨h.cleared.setReg (by subst ho; decide) v, ?_, ?_, ?_, ?_⟩
  · rw [hother _ (by decide), h.status]
  · rw [hother _ (by decide), h.count]
  · rw [hother _ (by decide), h.link]
  · rw [hother _ (by decide), h.policy]

/-- Where IDE is not required, the mailbox stays open: only the want of IDE could close it (R317, R319). -/
theorem M.zeroised.mailboxOpen (h : s.zeroised t) (hpolicy : bit (s.reg Reg.secPolicy) 1 = false) (hide : s.cxl.ideLost = false)
    (ho : s.mailboxOpen = true) : t.mailboxOpen = true := by
  have hcxl : t.cxl = s.cxl := (congrArg M.cxl h.rest :)
  obtain ⟨hhost, hlink⟩ := Bool.and_eq_true_iff.1 ho
  obtain ⟨hready, -⟩ := Bool.and_eq_true_iff.1 hhost
  have hideOk : t.ideOk = true := by rw [M.ideOk, h.policy, hpolicy, hcxl, hide]; rfl
  rw [M.mailboxOpen, M.hostOpen, h.cleared.map, hready, hideOk, h.link, hlink]
  rfl

end

/-! ## The ZEROISE command (R401, R404) -/

/-- The phrase is taken, unless the error state has stopped the service. -/
theorem run_zeroiseCommand_phrase {s : M} (h : bits (s.reg Reg.secStatus) 23 16 = 0) :
    zeroiseCommand (leBytes 4 0x5A45524F) s = (0, (zeroiseNow s).2) := by
  have hphrase : zeroiseInput (leBytes 4 0x5A45524F) = true := beq_self_eq_true _
  rw [zeroiseCommand, run_bind, run_get, hphrase, h]
  rfl

theorem run_zeroiseCommand_invalid {input : List Byte} (h : input ≠ leBytes 4 0x5A45524F) (s : M) :
    zeroiseCommand input s = (2, s) := by
  have hphrase : zeroiseInput input = false := beq_false_of_ne h
  rw [zeroiseCommand, run_bind, run_get, hphrase]
  rfl

/-- A command that reaches the mailbox is answered, if it leaves the link up (R317). -/
theorem run_mailbox_open {m t : M} {code : Nat} {payload : List Byte} {f : Act (Nat × List Byte)} (hw : m.hostWaits = false)
    (ho : m.mailboxOpen = true) (hf : f m = ((code, payload), t))
    (hlink : bits (t.reg Reg.hstStatus) 31 30 = bits (m.reg Reg.hstStatus) 31 30) (i : Instr) :
    (mailbox i f m).2 = t.mailboxReply code payload := by
  obtain ⟨-, hup⟩ := Bool.and_eq_true_iff.1 ho
  have hout : ∀ (u : M) (o : Output), u.regs = t.regs → u.toHost o = u.out o := fun u o hu =>
    if_neg (by rw [M.reg, hu]; exact hlink ▸ bne_iff_ne.1 hup)
  rw [mailbox, run_unlessHeld_free hw, run_bind, run_get, ho, run_whenA_true, run_bind, hf]
  simp only [run_bind, run_hostEmit, hout t _ rfl, hout (t.out _) _ rfl]
  rfl

/-! ## Each trigger zeroises once and answers (R401, R404) -/

/-- A zeroisation leaves the host's link as it is. -/
theorem link_zeroiseNow {s : M} (hw : s.wf = true) :
    bits ((zeroiseNow s).2.reg Reg.hstStatus) 31 30 = bits (s.reg Reg.hstStatus) 31 30 := by
  cases h : s.secDown with
  | true => rw [zeroiseNow_down h]
  | false => exact (zeroiseNow_up hw h).link

/-- The command does one zeroisation, and sends these answers, the newest first. -/
def State.zeroises (s : State) (c : Instr) (answers : List Output) : Prop :=
  exec c s = s.becomes { (zeroiseNow s.m).2 with outs := answers ++ (zeroiseNow s.m).2.outs }

/-- ZEROISE over MCTP and by mailbox, each with its answer of Success. -/
def zeroiseRequests : List (Instr × List Output) :=
  [(.zeroise true (leBytes 4 0x5A45524F), [.spdm true 9 [0#8, 0#8]]),
    (.zeroise false (leBytes 4 0x5A45524F), [.msix 64, .mailbox 0 []])]

section
variable {s : State} (hl : s.m.board.live = true)
include hl

/-- ZEROISE over MCTP answers with the command's return code. -/
theorem exec_zeroise_mctp {input : List Byte} {code : Nat} {t : M} (h : zeroiseCommand input s.m = (code, t)) :
    exec (.zeroise true input) s = s.becomes (t.out (.spdm true 9 (leBytes 2 code))) := by
  show execZeroise true input s = _
  rw [execZeroise, State.doing_live s _ hl, if_pos rfl, run_bind, h]
  rfl

/-- ZEROISE by an open mailbox answers with the command's return code and vector 64. -/
theorem exec_zeroise_mailbox (ho : s.m.mailboxOpen = true) (hh : s.m.hostWaits = false) {input : List Byte} {code : Nat} {t : M}
    (h : zeroiseCommand input s.m = (code, t)) (hlink : bits (t.reg Reg.hstStatus) 31 30 = bits (s.m.reg Reg.hstStatus) 31 30) :
    exec (.zeroise false input) s = s.becomes (t.mailboxReply code []) := by
  show execZeroise false input s = _
  rw [execZeroise, State.doing_live s _ hl, if_neg Bool.false_ne_true,
    run_mailbox_open hh ho (by rw [run_bind, h]; rfl) hlink]

theorem mctp_zeroises (herror : bits (s.m.reg Reg.secStatus) 23 16 = 0) :
    s.zeroises (.zeroise true (leBytes 4 0x5A45524F)) [.spdm true 9 [0#8, 0#8]] := by
  have hcode : leBytes 2 0 = [0#8, 0#8] := by decide
  rw [State.zeroises, exec_zeroise_mctp hl (run_zeroiseCommand_phrase herror), hcode]
  rfl

theorem mailbox_zeroises (hw : s.m.wf = true) (herror : bits (s.m.reg Reg.secStatus) 23 16 = 0) (ho : s.m.mailboxOpen = true)
    (hh : s.m.hostWaits = false) : s.zeroises (.zeroise false (leBytes 4 0x5A45524F)) [.msix 64, .mailbox 0 []] := by
  rw [State.zeroises, exec_zeroise_mailbox hl ho hh (run_zeroiseCommand_phrase herror) (link_zeroiseNow hw)]
  rfl

theorem pin_zeroises {us : Nat} (hus : 1000 ≤ us) (hpolicy : bit (s.m.reg Reg.secPolicy) 4 = true) :
    s.zeroises (.zeroisePinLow us) [] := by
  show execZeroisePinLow us s = _
  rw [execZeroisePinLow, State.doing_live s _ hl, run_bind, run_get, hpolicy, decide_eq_true hus]
  rfl

theorem request_zeroises (hw : s.m.wf = true) (herror : bits (s.m.reg Reg.secStatus) 23 16 = 0) {a : Instr × List Output}
    (ha : a ∈ zeroiseRequests)
    (hopen : a.1 = .zeroise false (leBytes 4 0x5A45524F) → s.m.mailboxOpen = true ∧ s.m.hostWaits = false) :
    s.zeroises a.1 a.2 := by
  rcases List.mem_pair.1 ha with rfl | rfl
  · exact mctp_zeroises hl herror
  · obtain ⟨ho, hh⟩ := hopen rfl
    exact mailbox_zeroises hl hw herror ho hh

end

/-- A ZEROISE with a wrong phrase is answered with Invalid Input, and changes nothing (R404). -/
theorem mctp_refuses {s : State} (hl : s.m.board.live = true) {input : List Byte} (h : input ≠ leBytes 4 0x5A45524F) :
    exec (.zeroise true input) s = s.becomes (s.m.out (.spdm true 9 [2#8, 0#8])) := by
  have hcode : leBytes 2 2 = [2#8, 0#8] := by decide
  rw [exec_zeroise_mctp hl (run_zeroiseCommand_invalid h s.m), hcode]

theorem mailbox_refuses {s : State} (hl : s.m.board.live = true) (ho : s.m.mailboxOpen = true) (hh : s.m.hostWaits = false)
    {input : List Byte} (h : input ≠ leBytes 4 0x5A45524F) : exec (.zeroise false input) s = s.becomes (s.m.mailboxReply 2 []) :=
  exec_zeroise_mailbox hl ho hh (run_zeroiseCommand_invalid h s.m) rfl

/-! ## Triggers together (R404) -/

/-- The triggers that may arrive together: the two requests, and the pin where the policy allows it. -/
def M.zeroiseTriggers (m : M) : List (Instr × List Output) :=
  zeroiseRequests ++ if bit (m.reg Reg.secPolicy) 4 then [(.zeroisePinLow 1000, [])] else []

theorem trigger_zeroises {s : State} (hl : s.m.board.live = true) (hw : s.m.wf = true)
    (herror : bits (s.m.reg Reg.secStatus) 23 16 = 0) {a : Instr × List Output} (ha : a ∈ s.m.zeroiseTriggers)
    (hopen : a.1 = .zeroise false (leBytes 4 0x5A45524F) → s.m.mailboxOpen = true ∧ s.m.hostWaits = false) :
    s.zeroises a.1 a.2 := by
  rcases List.mem_append.1 ha with h | h
  · exact request_zeroises hl hw herror h hopen
  · obtain ⟨hpolicy, h⟩ := (List.mem_ite_nil_right ..).1 h
    rw [List.mem_singleton.1 h]
    exact pin_zeroises hl le_rfl hpolicy

/-- Once the zeroised state stands, a trigger adds its answers and nothing else. -/
theorem State.zeroises.down {s : State} {c : Instr} {answers : List Output} (h : s.zeroises c answers) (hdown : s.m.secDown = true) :
    exec c s = s.becomes { s.m with outs := answers ++ s.m.outs } := by
  rw [h, zeroiseNow_down hdown]

/-- Settles O21: every trigger does `zeroiseNow` and answers, and `zeroiseNow` does nothing in the zeroised state that the first leaves. -/
theorem triggersTogetherZeroiseOnce : Obligations.TriggersTogetherZeroiseOnce := by
  unfold Obligations.TriggersTogetherZeroiseOnce
  intro s hl hw ho hh phrase requests triggers
  refine ⟨fun hup a ha b hb hb' => ?_, fun hstatus a ha => ?_, fun input h => ⟨mctp_refuses hl h, mailbox_refuses hl ho hh h⟩⟩
  · have hfirst : s.zeroises a.1 a.2 := trigger_zeroises hl hw (M.noError_of_up hup) ha fun _ => ⟨ho, hh⟩
    have hz := zeroiseNow_up hw hup
    rw [State.zeroises] at hfirst
    generalize (zeroiseNow s.m).2 = z at hfirst hz
    let m1 : M := { z with outs := a.2 ++ z.outs }
    have hstatus : m1.reg Reg.secStatus = 1 <<< 30 := hz.status
    have hwf : m1.wf = true := (M.wf_congr ⟨rfl, rfl, rfl, rfl, rfl, rfl, rfl, rfl, rfl, rfl, rfl⟩).trans hz.cleared.wf
    have htrigger : b ∈ m1.zeroiseTriggers := by
      rw [M.zeroiseTriggers, show m1.reg Reg.secPolicy = s.m.reg Reg.secPolicy from hz.policy]
      exact hb
    have hopen : b.1 = .zeroise false (leBytes 4 0x5A45524F) → m1.mailboxOpen = true ∧ m1.hostWaits = false := fun he =>
      hb'.elim (fun ⟨hpolicy, hide⟩ => ⟨hz.mailboxOpen hpolicy hide ho, hz.hostWaits.trans hh⟩) fun hne => absurd he hne
    have hsecond : ({ s with m := m1 } : State).zeroises b.1 b.2 :=
      trigger_zeroises (s := { s with m := m1 }) (hz.board ▸ hl : z.board.live = true) hwf (by rw [hstatus]; rfl) htrigger hopen
    obtain ⟨hsecrets, -, hcount, -, -⟩ := hz.shows
    refine ⟨m1, _, hfirst, hsecond.down (M.secDown_of_status hstatus), hsecrets, hstatus, hcount, ?_⟩
    show b.2 ++ (a.2 ++ z.outs) = b.2 ++ a.2 ++ s.m.outs
    rw [hz.outs, List.append_assoc]
  · exact (request_zeroises hl hw (by rw [hstatus]; rfl) ha fun _ => ⟨ho, hh⟩).down (M.secDown_of_status hstatus)

/-! ## Each way to zeroise by itself (R401 to R403) -/

/-- A trigger at a controller that is up: the zeroised state, and the answers. -/
theorem State.zeroises.up {s : State} (hw : s.m.wf = true) (hup : s.m.secDown = false) {c : Instr} {answers : List Output}
    (h : s.zeroises c answers) : s.ends (exec c s) fun m =>
      s.m.showsZeroised m ∧ m.fuses = s.m.fuses ∧ m.outs = answers ++ s.m.outs := by
  have hz := zeroiseNow_up hw hup
  rw [State.zeroises] at h
  generalize (zeroiseNow s.m).2 = z at h hz
  refine ⟨_, h, hz.shows, hz.fuses, ?_⟩
  show answers ++ z.outs = _
  rw [hz.outs]

/-- A pin that is not held low long enough, or that the policy does not allow. -/
theorem pinLow_false {held least : Nat} {allowed : Bool} (h : held < least ∨ allowed = false) :
    (decide (held ≥ least) && allowed) = false :=
  Bool.and_eq_false_iff.2 (h.imp_left fun h => decide_eq_false (Nat.not_le.2 h))

section
variable {s : State} (hl : s.m.board.live = true)
include hl

/-- The pin held for too short a time, or against the policy, is no trigger (R401). -/
theorem exec_zeroisePinLow_ignored {us : Nat} (h : us < 1000 ∨ bit (s.m.reg Reg.secPolicy) 4 = false) :
    exec (.zeroisePinLow us) s = .next s := by
  show execZeroisePinLow us s = _
  rw [execZeroisePinLow, State.doing_live s _ hl, run_bind, run_get, pinLow_false h]
  rfl

theorem exec_permanentZeroisation_ignored {ms : Nat} (h : ms < 5000 ∨ bit (s.m.reg Reg.secPolicy) 6 = false) :
    exec (.permanentZeroisation ms) s = .next s := by
  show execPermanentZeroisation ms s = _
  rw [execPermanentZeroisation, State.doing_live s _ hl, run_bind, run_get, pinLow_false h]
  rfl

/-- Permanent zeroisation is a zeroisation that also blows the kill fuse, and shows it (R403). -/
theorem exec_permanentZeroisation_kills {ms : Nat} (hms : 5000 ≤ ms) (hpolicy : bit (s.m.reg Reg.secPolicy) 6 = true)
    (herror : bits (s.m.reg Reg.secStatus) 23 16 = 0) :
    exec (.permanentZeroisation ms) s = s.becomes (let z := (zeroiseNow s.m).2
      { z.setReg Reg.secRollback (setBits (z.reg Reg.secRollback) 8 8 1) with fuses := { z.fuses with killed := true } }) := by
  show execPermanentZeroisation ms s = _
  rw [execPermanentZeroisation, State.doing_live s _ hl, run_bind, run_get, hpolicy, decide_eq_true hms, herror]
  rfl

theorem permanentZeroisation_up (hw : s.m.wf = true) (hup : s.m.secDown = false) {ms : Nat} (hms : 5000 ≤ ms)
    (hpolicy : bit (s.m.reg Reg.secPolicy) 6 = true) : s.ends (exec (.permanentZeroisation ms) s) fun m =>
      s.m.showsZeroised m ∧ m.fuses = { s.m.fuses with killed := true } ∧ bit (m.reg Reg.secRollback) 8 = true := by
  have hz := zeroiseNow_up hw hup
  have hrun := exec_permanentZeroisation_kills hl hms hpolicy (M.noError_of_up hup)
  generalize (zeroiseNow s.m).2 = z at hrun hz
  refine ⟨_, hrun, (hz.setReg rfl (setBits (z.reg Reg.secRollback) 8 8 1)).shows, ?_, ?_⟩
  · exact congrArg (fun f : Fuses => { f with killed := true }) hz.fuses
  · show bit ((z.setReg Reg.secRollback _).reg Reg.secRollback) 8 = true
    rw [M.reg_setReg_self _ _ _ hz.cleared.wf, bit_setBits_one, if_pos rfl]

/-! ## The random source (R398) -/

/-- The machine with a failed sample counted and the alarm raised. -/
def M.alarmed (s : M) : M :=
  { s.setReg Reg.secTrngAlarms (satU 64 (s.reg Reg.secTrngAlarms + 1)) with sec := { s.sec with alarm := true } }

theorem exec_trngSample_passes :
    exec (.trngSample true) s = s.becomes { s.m with sec := { s.m.sec with alarm := false } } := by
  show execTrngSample true s = _
  rw [execTrngSample, State.doing_live s _ hl]
  rfl

/-- A failed sample that follows another is the error state. -/
theorem exec_trngSample_fails : exec (.trngSample false) s =
    s.becomes (if s.m.sec.alarm && !s.m.secDown then (securityError 3 s.m.alarmed).2 else s.m.alarmed) := by
  show execTrngSample false s = _
  rw [execTrngSample, State.doing_live s _ hl, run_bind, run_get, if_neg Bool.false_ne_true, run_bind, run_bind, run_whenA]
  rfl

theorem trngSample_fails (hw : s.m.wf = true) : s.ends (exec (.trngSample false) s) fun m =>
    m.reg Reg.secTrngAlarms = satU 64 (s.m.reg Reg.secTrngAlarms + 1) ∧ m.sec.alarm = true ∧ s.m.sameStores m ∧
    (s.m.sec.alarm = true → s.m.secDown = false → m.secretsCleared ∧ m.reg Reg.secStatus = 3 <<< 16) ∧
    (s.m.sec.alarm = false → s.m.sameBut { m with sec := s.m.sec } [Reg.secTrngAlarms]) := by
  have hcounted := M.wf_setReg Reg.secTrngAlarms (satU 64 (s.m.reg Reg.secTrngAlarms + 1)) hw
  have hwf : s.m.alarmed.wf = true := (M.wf_congr ⟨rfl, rfl, rfl, rfl, rfl, rfl, rfl, rfl, rfl, rfl, rfl⟩).trans hcounted
  have hcount : s.m.alarmed.reg Reg.secTrngAlarms = satU 64 (s.m.reg Reg.secTrngAlarms + 1) := M.reg_setReg_self _ _ _ hw
  refine ⟨_, exec_trngSample_fails hl, ?_⟩
  split
  next hagain =>
    obtain ⟨halarm, -⟩ := Bool.and_eq_true_iff.1 hagain
    obtain ⟨herr, hstatus⟩ := securityError_clears hwf 3
    have hkept : (securityError 3 s.m.alarmed).2.reg Reg.secTrngAlarms = s.m.alarmed.reg Reg.secTrngAlarms :=
      (M.reg_setReg_other _ _ (by decide)).trans (reg_clearSecrets (by decide))
    generalize (securityError 3 s.m.alarmed).2 = u at herr hstatus hkept
    have hsec : u.sec = s.m.alarmed.secretless.sec := (congrArg M.sec herr.rest :)
    exact ⟨hkept.trans hcount, congrArg Sec.alarm hsec, herr.sameStores, fun _ _ => ⟨herr.secrets, hstatus⟩,
      fun h => absurd (halarm.symm.trans h) (by decide)⟩
  next hfirst =>
    refine ⟨hcount, rfl, ⟨rfl, rfl⟩, fun h hup => absurd (by rw [h, hup]; rfl) hfirst, fun _ => ⟨rfl, fun o ho => ?_⟩⟩
    exact M.reg_setReg_other _ _ (List.ne_of_not_mem_cons ho)

/-- A reseed restarts the count of draws once 2^20 have been made. -/
theorem exec_drbgReseed : exec .drbgReseed s = s.becomes
    { s.m with sec := { s.m.sec with draws := if 2 ^ 20 ≤ s.m.sec.draws then 0 else s.m.sec.draws } } := by
  show execDrbgReseed s = _
  rw [execDrbgReseed, State.doing_live s _ hl, run_modify]
  split <;> rfl

end

/-- Settles O20: each trigger by the zeroised state that it leads to, each that is refused by what it leaves, and the random source by
the outcome of its sample. -/
theorem zeroisationAndRandomness : Obligations.ZeroisationAndRandomness := by
  unfold Obligations.ZeroisationAndRandomness
  intro s hl hw gone phrase
  refine ⟨fun hup => ⟨?_, fun ho hh => ?_, fun us hus hpolicy => ?_, fun ms hms hpolicy => ?_⟩,
    fun input h => ⟨mctp_refuses hl h, fun ho hh => mailbox_refuses hl ho hh h⟩,
    fun us h => exec_zeroisePinLow_ignored hl h, fun ms h => exec_permanentZeroisation_ignored hl h,
    exec_trngSample_passes hl, trngSample_fails hl hw, exec_drbgReseed hl⟩
  · exact (mctp_zeroises hl (M.noError_of_up hup)).up hw hup
  · exact (mailbox_zeroises hl hw (M.noError_of_up hup) ho hh).up hw hup
  · obtain ⟨m, hrun, hgone, hfuses, -⟩ := (pin_zeroises hl hus hpolicy).up hw hup
    exact ⟨m, hrun, hgone, hfuses⟩
  · exact permanentZeroisation_up hl hw hup hms hpolicy

end Sys2Proof.Machine

/-! # A step runs the front of the queue, and every command answers a next state -/

namespace Sys2Proof.Machine

/-- The outcome is a next state with the same queue. -/
def State.advances (s : State) (o : Out) : Prop := ∃ m, o = s.becomes m

theorem State.advances_doing (s : State) (a : Act Unit) : s.advances (s.doing a) := by
  unfold State.doing
  split
  · exact ⟨_, rfl⟩
  · exact ⟨s.m, rfl⟩

theorem State.advances_always (s : State) (a : Act Unit) : s.advances (s.always a) := ⟨_, rfl⟩

theorem State.advances_next (s : State) : s.advances (.next s) := ⟨s.m, rfl⟩

/-- A command after another advances if both do. -/
theorem State.advances_andThen {s : State} {o : Out} {f : State → Out} (ho : s.advances o) (hf : ∀ u : State, u.advances (f u)) :
    s.advances (andThen o f) := by
  obtain ⟨m, rfl⟩ := ho
  obtain ⟨m', h⟩ := hf { s with m := m }
  exact ⟨m', h⟩

/-- An access that waited is an action on the module out of reset, or none. -/
theorem redo_eq_doing (i : Instr) (s : State) : (∃ a, redo i s = s.doing a) ∨ redo i s = .next s := by
  unfold redo
  split
  case h_48 => exact .inr rfl
  all_goals exact .inl ⟨_, rfl⟩

theorem State.advances_redo (i : Instr) (s : State) : s.advances (redo i s) := by
  obtain ⟨a, h⟩ | h := redo_eq_doing i s
  · exact h ▸ s.advances_doing a
  · exact h ▸ s.advances_next

theorem State.advances_redoAll (is : List Instr) (s : State) : s.advances (redoAll is s) := by
  induction is generalizing s with
  | nil => exact s.advances_next
  | cons i is ih => exact State.advances_andThen (s.advances_redo i) ih

theorem State.advances_release (s : State) : s.advances (release s) := by
  unfold release
  split
  · exact s.advances_next
  · exact State.advances_redoAll s.m.cxl.waiting { s with m := { s.m with cxl := { s.m.cxl with waiting := [] } } }

/-- Every command answers a next state with the queue as it was: those of the pins and the test port in reset too, the end of a held
push with what waited behind it, and every other as an action on the module out of reset. -/
theorem State.advances_exec (c : Instr) (s : State) : s.advances (exec c s) := by
  cases c with
  | moduleReset | perstAssert | powerInputApplied | railFault | inputOutOfRange | presDeassert | portOffAssert | portOffDeassert | idcode
  | bypass | samplePreload | extest | clamp | highz | tapReset => exact s.advances_always _
  | ringPushResume | hostPushTimeout => exact State.advances_andThen (s.advances_doing _) State.advances_release
  | _ => exact s.advances_doing _

/-- Settles O1: the queue's front is what a step runs, and each command's meaning advances. -/
theorem stepRunsFrontCommand : Obligations.StepRunsFrontCommand := by
  unfold Obligations.StepRunsFrontCommand
  exact ⟨fun _ _ => rfl, fun c s => s.advances_exec c⟩

end Sys2Proof.Machine

/-! # Every step keeps the canonical form -/

namespace Sys2Proof.Machine

/-- Every command keeps the canonical form: each by the lemma about its own meaning. -/
theorem wf_exec (c : Instr) {s t : State} (h : s.m.wf = true) (hs : exec c s = .next t) : t.m.wf = true := by
  cases c with
  | powerInputApplied => exact wf_execPowerInputApplied _ _ _ h hs
  | railFault => exact wf_execRailFault _ h hs
  | inputOutOfRange => exact wf_execInputOutOfRange _ _ h hs
  | presDeassert => exact wf_execPresDeassert h hs
  | perstAssert => exact wf_execPerstAssert _ h hs
  | moduleReset => exact wf_execModuleReset _ _ _ h hs
  | slotVerify => exact wf_execSlotVerify _ _ h hs
  | securitySelfTest => exact wf_execSecuritySelfTest _ _ h hs
  | selfTestComplete => exact wf_execSelfTestComplete _ _ h hs
  | farStoreTrainingDone => exact wf_execFarStoreTrainingDone _ _ h hs
  | farStoreZeroFillDone => exact wf_execFarStoreZeroFillDone _ h hs
  | rollbackAdvance => exact wf_execRollbackAdvance h hs
  | hotReset => exact wf_execHotReset h hs
  | functionLevelReset => exact wf_execFunctionLevelReset h hs
  | cxlLinkDown => exact wf_execCxlLinkDown h hs
  | cxlLinkUp => exact wf_execCxlLinkUp _ _ _ h hs
  | configRequest => exact wf_execConfigRequest _ _ _ h hs
  | bar0AccessInvalid => exact wf_execBar0AccessInvalid _ _ _ h hs
  | bar2Read => exact wf_execBar2Read _ _ h hs
  | bar2Write => exact wf_execBar2Write _ _ _ h hs
  | cxlMemRead => exact wf_execCxlMemRead _ h hs
  | cxlMemWrite => exact wf_execCxlMemWrite _ _ _ h hs
  | h2dSnoop => exact wf_execH2dSnoop _ h hs
  | ideIntegrityFailure => exact wf_execIdeIntegrityFailure h hs
  | registerWrite => exact wf_execRegisterWrite _ _ _ _ h hs
  | rcRegisterRead => exact wf_execRcRegisterRead _ _ _ h hs
  | hstQDoorbell => exact wf_execHstQDoorbell _ _ _ h hs
  | jobEntryFetch => exact wf_execJobEntryFetch _ _ _ h hs
  | markerComplete => exact wf_execMarkerComplete _ _ h hs
  | jobAdmission => exact wf_execJobAdmission _ _ _ h hs
  | admissionTimeout => exact wf_execAdmissionTimeout _ _ _ h hs
  | ecallExit => exact wf_execEcallExit _ _ _ h hs
  | jobComplete => exact wf_execJobComplete _ _ _ h hs
  | jobRunTimeout => exact wf_execJobRunTimeout _ _ _ h hs
  | hstQAbort => exact wf_execHstQAbort _ _ _ h hs
  | hstQReset => exact wf_execHstQReset _ _ _ h hs
  | interruptHoldoffExpiry => exact wf_execInterruptHoldoffExpiry _ h hs
  | getEventRecords => exact wf_execGetEventRecords _ h hs
  | clearEventRecords => exact wf_execClearEventRecords _ h hs
  | getEventInterruptPolicy => exact wf_execGetEventInterruptPolicy _ h hs
  | setEventInterruptPolicy => exact wf_execSetEventInterruptPolicy _ h hs
  | getFwInfo => exact wf_execGetFwInfo _ h hs
  | getSupportedLogs => exact wf_execGetSupportedLogs _ h hs
  | getLog => exact wf_execGetLog _ h hs
  | getReady => exact wf_execGetReady _ h hs
  | getSettings => exact wf_execGetSettings _ h hs
  | readLog => exact wf_execReadLog _ h hs
  | getHealth => exact wf_execGetHealth _ h hs
  | zeroise => exact wf_execZeroise _ _ h hs
  | mailboxUnsupported => exact wf_execMailboxUnsupported _ h hs
  | zeroisePinLow => exact wf_execZeroisePinLow _ h hs
  | permanentZeroisation => exact wf_execPermanentZeroisation _ h hs
  | getCertificate => exact wf_execGetCertificate _ _ h hs
  | challenge _ _ nonce => exact wf_execChallenge _ _ nonce h hs
  | getMeasurements => exact wf_execGetMeasurements _ _ h hs
  | keyExchange => exact wf_execKeyExchange _ _ h hs
  | signPq => exact wf_execSignPq _ h hs
  | keyProg => exact wf_execKeyProg _ _ _ h hs
  | kSetGo => exact wf_execKSetGo _ _ h hs
  | kSetStop => exact wf_execKSetStop _ _ h hs
  | installCak => exact wf_execInstallCak _ _ _ _ h hs
  | mkpduReceived => exact wf_execMkpduReceived _ _ _ _ h hs
  | trngSample => exact wf_execTrngSample _ h hs
  | drbgReseed => exact wf_execDrbgReseed h hs
  | mgtFlashErase => exact wf_execMgtFlashErase _ h hs
  | mgtFlashProgram => exact wf_execMgtFlashProgram _ _ h hs
  | mgtFlashCheck => exact wf_execMgtFlashCheck _ h hs
  | flashCommandDone => exact wf_execFlashCommandDone _ h hs
  | healthRecordAppend => exact wf_execHealthRecordAppend _ _ h hs
  | ringPushWord => exact wf_execRingPushWord _ _ _ _ _ h hs
  | ringPushCommit => exact wf_execRingPushCommit _ _ _ _ h hs
  | ringPushResume => exact wf_execRingPushResume _ _ _ h hs
  | hostPushTimeout => exact wf_execHostPushTimeout _ _ _ h hs
  | coreRingCtlRun => exact wf_execCoreRingCtlRun _ _ _ h hs
  | coreRingReset => exact wf_execCoreRingReset _ _ _ h hs
  | abortRecord => exact wf_execAbortRecord _ _ _ _ h hs
  | abortRecordAndLater => exact wf_execAbortRecordAndLater _ _ _ _ h hs
  | abortJob => exact wf_execAbortJob _ _ _ h hs
  | corePassThrow => exact wf_execCorePassThrow _ _ _ _ h hs
  | corePlaySync => exact wf_execCorePlaySync _ _ _ h hs
  | catchGrant => exact wf_execCatchGrant _ _ h hs
  | decodeFailure => exact wf_execDecodeFailure _ _ h hs
  | macroOpRetire => exact wf_execMacroOpRetire _ _ _ h hs
  | nop => exact wf_execNop _ _ h hs
  | throwOp => exact wf_execThrowOp _ _ h hs
  | catchOp => exact wf_execCatchOp _ _ h hs
  | stepSet => exact wf_execStepSet _ _ h hs
  | phaseMark => exact wf_execPhaseMark _ _ h hs
  | stateSave => exact wf_execStateSave _ _ h hs
  | stateLoad => exact wf_execStateLoad _ _ h hs
  | loadTile => exact wf_execLoadTile _ h hs
  | expand => exact wf_execExpand _ h hs
  | gather => exact wf_execGather _ h hs
  | fPlay => exact wf_execFPlay _ h hs
  | mma => exact wf_execMma _ h hs
  | mmaBlock => exact wf_execMmaBlock _ h hs
  | mmaA7 => exact wf_execMmaA7 _ h hs
  | mmaFp64 => exact wf_execMmaFp64 _ h hs
  | drain => exact wf_execDrain _ h hs
  | cast => exact wf_execCast _ h hs
  | epilogue => exact wf_execEpilogue _ h hs
  | ewise => exact wf_execEwise _ h hs
  | reduceExact => exact wf_execReduceExact _ h hs
  | reduceFast => exact wf_execReduceFast _ h hs
  | norm => exact wf_execNorm _ h hs
  | rngFill => exact wf_execRngFill _ h hs
  | vPlay => exact wf_execVPlay _ h hs
  | storeTile => exact wf_execStoreTile _ h hs
  | fill => exact wf_execFill _ h hs
  | scatterAddExact => exact wf_execScatterAddExact _ h hs
  | scatterAddFast => exact wf_execScatterAddFast _ _ h hs
  | collective => exact wf_execCollective _ h hs
  | update => exact wf_execUpdate _ h hs
  | snapshot => exact wf_execSnapshot _ h hs
  | sPlay => exact wf_execSPlay _ h hs
  | slotDrainWaitEnd => exact wf_execSlotDrainWaitEnd _ h hs
  | windowResolve => exact wf_execWindowResolve _ _ h hs
  | checksumFreeze => exact wf_execChecksumFreeze _ h hs
  | hazardWatchFreeze => exact wf_execHazardWatchFreeze _ _ h hs
  | captureCopyDone => exact wf_execCaptureCopyDone _ h hs
  | shadowComparison => exact wf_execShadowComparison _ _ _ h hs
  | decisionComplete => exact wf_execDecisionComplete _ _ _ _ _ _ h hs
  | substitutionStopped => exact wf_execSubstitutionStopped _ h hs
  | substitutionStopTimeout => exact wf_execSubstitutionStopTimeout _ h hs
  | doublingSwitch => exact wf_execDoublingSwitch _ _ h hs
  | practiceEntry => exact wf_execPracticeEntry _ _ h hs
  | practiceKernelDone => exact wf_execPracticeKernelDone _ _ _ _ _ h hs
  | governorWindow => exact wf_execGovernorWindow _ _ _ h hs
  | governorEvaluation => exact wf_execGovernorEvaluation _ _ h hs
  | positionOff => exact wf_execPositionOff _ _ h hs
  | positionWakeDone => exact wf_execPositionWakeDone _ h hs
  | voltageTrim => exact wf_execVoltageTrim _ _ _ h hs
  | droopDetect => exact wf_execDroopDetect _ _ h hs
  | droopRecovery => exact wf_execDroopRecovery _ _ h hs
  | thermalSample => exact wf_execThermalSample _ h hs
  | throttleExit => exact wf_execThrottleExit _ h hs
  | hardLimitExit => exact wf_execHardLimitExit _ h hs
  | scrubLine => exact wf_execScrubLine _ _ h hs
  | refresh => exact wf_execRefresh _ _ h hs
  | zqCalibration ctrl => exact wf_execZqCalibration ctrl h hs
  | memInjectCorrectable => exact wf_execMemInjectCorrectable _ _ h hs
  | memInjectUncorrectable => exact wf_execMemInjectUncorrectable _ _ h hs
  | memInjectPoison => exact wf_execMemInjectPoison _ _ h hs
  | controlCoreFault => exact wf_execControlCoreFault _ _ _ h hs
  | verdictRelease => exact wf_execVerdictRelease _ h hs
  | verdictTimeout => exact wf_execVerdictTimeout _ _ h hs
  | updateUnitBlock => exact wf_execUpdateUnitBlock _ h hs
  | updateUnitsDone => exact wf_execUpdateUnitsDone _ h hs
  | updVgroupWrite => exact wf_execUpdVgroupWrite _ _ _ h hs
  | frameReceived => exact wf_execFrameReceived _ _ _ _ _ _ _ _ _ _ _ h hs
  | portLinkUp => exact wf_execPortLinkUp _ h hs
  | portLinkDown => exact wf_execPortLinkDown _ _ h hs
  | portOffAssert => exact wf_execPortOffAssert h hs
  | portOffDeassert => exact wf_execPortOffDeassert h hs
  | cableEvent => exact wf_execCableEvent _ _ _ h hs
  | data => exact wf_execData _ _ _ h hs
  | ack => exact wf_execAck _ _ _ h hs
  | msgStatus => exact wf_execMsgStatus _ _ h hs
  | openPacket => exact wf_execOpenPacket _ _ h hs
  | openAck => exact wf_execOpenAck _ _ h hs
  | resetPacket => exact wf_execResetPacket _ _ h hs
  | probe => exact wf_execProbe _ _ h hs
  | probeReply => exact wf_execProbeReply _ _ _ h hs
  | messagePost => exact wf_execMessagePost _ _ _ _ h hs
  | packetSend => exact wf_execPacketSend _ _ h hs
  | openResend => exact wf_execOpenResend _ _ h hs
  | rallyGiveup => exact wf_execRallyGiveup _ _ h hs
  | ackDelayExpiry => exact wf_execAckDelayExpiry _ h hs
  | retransmitTimeout => exact wf_execRetransmitTimeout _ _ _ h hs
  | suspectProbe => exact wf_execSuspectProbe _ _ h hs
  | idlePathProbe => exact wf_execIdlePathProbe _ _ _ h hs
  | rateAdjust => exact wf_execRateAdjust _ _ _ h hs
  | contextMissDone => exact wf_execContextMissDone _ h hs
  | trnTakeover => exact wf_execTrnTakeover _ _ h hs
  | takeoverAdvertise => exact wf_execTakeoverAdvertise _ h hs
  | collectiveStart => exact wf_execCollectiveStart _ h hs
  | groupRecordFetchDone => exact wf_execGroupRecordFetchDone _ _ h hs
  | agree => exact wf_execAgree _ _ _ _ h hs
  | go => exact wf_execGo _ _ _ _ h hs
  | nogo => exact wf_execNogo _ _ _ _ h hs
  | abortMessage => exact wf_execAbortMessage _ _ _ _ h hs
  | credit => exact wf_execCredit _ _ _ _ h hs
  | chunkSend => exact wf_execChunkSend _ _ _ _ _ h hs
  | reduceChunkReceived => exact wf_execReduceChunkReceived _ _ _ _ _ _ h hs
  | broadcastChunkReceived => exact wf_execBroadcastChunkReceived _ _ _ _ _ _ h hs
  | collectiveComplete => exact wf_execCollectiveComplete _ _ _ h hs
  | collectiveProgressTimeout => exact wf_execCollectiveProgressTimeout _ _ _ _ _ h hs
  | rlyCqDoorbell => exact wf_execRlyCqDoorbell _ _ h hs
  | rlyGcacheFlush => exact wf_execRlyGcacheFlush _ _ h hs
  | parityRefresh => exact wf_execParityRefresh _ _ h hs
  | parityRebuildSurvivor => exact wf_execParityRebuildSurvivor _ _ _ h hs
  | parityRebuildSpare => exact wf_execParityRebuildSpare _ _ _ h hs
  | errorLogRecord => exact wf_execErrorLogRecord _ _ _ _ h hs
  | counterSelectWrite => exact wf_execCounterSelectWrite _ _ _ _ _ h hs
  | counterWrite => exact wf_execCounterWrite _ _ _ _ _ h hs
  | cntScdEnable => exact wf_execCntScdEnable _ _ h hs
  | scorecardTick => exact wf_execScorecardTick h hs
  | bandwidthWindowEnd => exact wf_execBandwidthWindowEnd _ _ _ h hs
  | cntBwReadLatch => exact wf_execCntBwReadLatch _ _ h hs
  | readVin => exact wf_execReadVin _ h hs
  | readIin => exact wf_execReadIin _ h hs
  | readPin => exact wf_execReadPin h hs
  | readTemperature1 => exact wf_execReadTemperature1 h hs
  | statusWord => exact wf_execStatusWord h hs
  | pmbusNack => exact wf_execPmbusNack _ _ h hs
  | idcode => exact wf_execIdcode h hs
  | bypass => exact wf_execBypass h hs
  | samplePreload => exact wf_execSamplePreload _ h hs
  | extest => exact wf_execExtest h hs
  | clamp => exact wf_execClamp h hs
  | highz => exact wf_execHighz h hs
  | sessionEnd => exact wf_execSessionEnd _ h hs
  | operatingPointReached => exact wf_execOperatingPointReached _ h hs
  | practiceLag => exact wf_execPracticeLag _ _ h hs
  | tapReset => exact wf_execTapReset h hs

/-- An idle step keeps the canonical form: only island counters and the count of idle steps move. -/
theorem M.wf_idle {s : M} (h : s.wf = true) : s.idle.wf = true := by
  have hisl : Tab.wf (fun _ => 0) s.isl = true := by simp_all [M.wf]
  have hfold : ∀ (l : List Nat) (t : Tab Nat), Tab.wf (fun _ => 0) t = true → Tab.wf (fun _ => 0) (l.foldl
      (fun t i => Tab.put (fun _ => 0) t i (trunc 64 (Tab.read (fun _ => 0) t i + Config.tickCycles s.ticks i))) t) = true := by
    intro l
    induction l with
    | nil => exact fun _ ht => ht
    | cons i l ih => exact fun t ht => ih _ (Tab.wf_put _ _ _ _ ht)
  have hidle := hfold (List.range 179) s.isl hisl
  simp_all [M.wf, M.idle]

/-- Settles O3: a step is a command, or idles. -/
theorem stepKeepsCanonicalForm : Obligations.StepKeepsCanonicalForm := by
  unfold Obligations.StepKeepsCanonicalForm
  intro s t h hs
  obtain ⟨m, pending⟩ := s
  cases pending with
  | nil =>
    cases hs
    exact M.wf_idle h
  | cons c rest => exact wf_exec c (s := ⟨m, rest⟩) h hs

/-- Settles O2: nothing is listed at reset. -/
theorem resetCanonical : Obligations.ResetCanonical := by
  unfold Obligations.ResetCanonical
  decide

end Sys2Proof.Machine

/-! # Exact sums: their records, their carry records, and the order of accumulation (R59, R63, R68 to R70, R146, R287, R345, R441)

First a signed number and its two's complement, then the merging of side states, then what a record is read back as, last the
accumulation of one term after another. -/

namespace Sys2Proof.Machine

/-! ## Two's complement -/

/-- A number of w bits reads as the integer in range that it is congruent to. -/
theorem toSigned_eq {w n : Nat} {x : Int} (hw : 0 < w) (h : (n : Int) ≡ x [ZMOD 2 ^ w]) (hlo : -(2 ^ (w - 1) : Int) ≤ x)
    (hhi : x < 2 ^ (w - 1)) : toSigned w n = x := by
  obtain ⟨k, rfl⟩ : ∃ k, w = k + 1 := ⟨w - 1, by omega⟩
  have hmod : ((n % 2 ^ (k + 1) : Nat) : Int) = x % 2 ^ (k + 1) := by
    rw [Int.natCast_mod, Nat.cast_pow, Nat.cast_ofNat]
    exact h
  have hp : (2 : Int) ^ (k + 1) = 2 * 2 ^ k := by rw [pow_succ, mul_comm]
  have hcast : ((2 ^ k : Nat) : Int) = 2 ^ k := by norm_num
  rw [Nat.add_sub_cancel] at hlo hhi
  rw [hp] at hmod
  unfold toSigned
  rw [Nat.add_sub_cancel, Nat.cast_pow, Nat.cast_ofNat, hp]
  rcases le_or_gt 0 x with h0 | h0
  · rw [Int.emod_eq_of_lt h0 (by omega)] at hmod
    rw [if_pos (by omega), hmod]
  · have hneg : x % (2 * 2 ^ k) = x + 2 * 2 ^ k := by
      rw [← Int.add_emod_right, Int.emod_eq_of_lt (by omega) (by omega)]
    rw [hneg] at hmod
    rw [if_neg (by omega), hmod, add_sub_cancel_right]

/-- An integer in range is read back from its two's complement, whatever stands above it. -/
theorem toSigned_ofSigned_add {w : Nat} {x : Int} (hw : 0 < w) (hlo : -(2 ^ (w - 1) : Int) ≤ x) (hhi : x < 2 ^ (w - 1)) (k : Nat) :
    toSigned w (ofSigned w x + k <<< w) = x := by
  refine toSigned_eq hw ?_ hlo hhi
  rw [Nat.shiftLeft_eq, Nat.cast_add, Nat.cast_mul, Nat.cast_pow, Nat.cast_ofNat, mul_comm]
  exact Int.add_modulus_mul_modEq_iff.2 (ofSigned_modEq w x)

/-! ## Exact records (R146) and their addition (R441) -/

theorem exBands_pos (isL : Bool) : 0 < exBands isL := by cases isL <;> decide

theorem Side.toNat_lt (d : Side) : d.toNat < 256 := by
  obtain ⟨a, b, c, d, e, f⟩ := d
  revert a b c d e f
  decide

theorem Side.ofNat_toNat (d : Side) : Side.ofNat d.toNat = d := by
  obtain ⟨a, b, c, d, e, f⟩ := d
  revert a b c d e f
  decide

/-- A record whose sum lies within its bands is read back as what it was written from. -/
theorem ExAcc.decode_encode (isL : Bool) (a : ExAcc) (hlo : -(2 ^ (64 * exBands isL - 1) : Int) ≤ a.sum)
    (hhi : a.sum < 2 ^ (64 * exBands isL - 1)) : ExAcc.decode isL (a.encode isL) = a := by
  have hw : 0 < 64 * exBands isL := Nat.mul_pos (by decide) (exBands_pos isL)
  have hside : a.encode isL >>> (64 * exBands isL) % 256 = a.side.toNat := by
    rw [ExAcc.encode, Nat.shiftLeft_eq, Nat.shiftRight_eq_div_pow, Nat.add_mul_div_right _ _ (by positivity),
      Nat.div_eq_of_lt (ofSigned_lt _ _), Nat.zero_add, Nat.mod_eq_of_lt a.side.toNat_lt]
  have hsum : toSigned (64 * exBands isL) (a.encode isL) = a.sum := toSigned_ofSigned_add hw hlo hhi _
  rw [ExAcc.decode, hsum, hside, Side.ofNat_toNat]

theorem Side.merge_comm (a b : Side) : a.merge b = b.merge a := by
  simp only [Side.merge, Side.mk.injEq, Bool.or_comm, true_and, and_true]
  rw [Bool.or_comm, Bool.and_right_comm]

/-- The sign of a zero sum of three records: each has no term or is −0, and one has a term. -/
theorem Side.negzero_merge_assoc (a b c : Side) : ((a.merge b).merge c).negzero = (a.merge (b.merge c)).negzero := by
  simp only [Side.merge]
  cases a.anyterm <;> cases b.anyterm <;> cases c.anyterm <;> simp [Bool.and_assoc]

theorem Side.merge_assoc (a b c : Side) : (a.merge b).merge c = a.merge (b.merge c) := by
  have h := Side.negzero_merge_assoc a b c
  simp only [Side.merge, Side.mk.injEq, Bool.or_assoc, true_and, and_true] at h ⊢
  exact h

theorem ExAcc.merge_comm (a b : ExAcc) : a.merge b = b.merge a := by
  rw [ExAcc.merge, ExAcc.merge, Side.merge_comm, add_comm]

theorem ExAcc.merge_assoc (a b c : ExAcc) : (a.merge b).merge c = a.merge (b.merge c) := by
  simp only [ExAcc.merge, Side.merge_assoc, add_assoc]

/-- One more term comes to the same before a merge and after it. -/
theorem Side.merge_add (a b : Side) (v : Val) : a.merge (b.add v) = (a.merge b).add v := by
  obtain ⟨nan, inv, p, n, nz, any⟩ := a
  obtain ⟨nan', inv', p', n', nz', any'⟩ := b
  simp only [Side.merge, Side.add, Side.mk.injEq, Bool.or_assoc, Bool.or_true, true_and, and_true]
  cases any <;> cases any' <;> simp [Bool.and_assoc]

theorem ExAcc.merge_add (a b : ExAcc) (off : Nat) (v : Val) : a.merge (b.add off v) = (a.merge b).add off v := by
  simp only [ExAcc.merge, ExAcc.add, Side.merge_add, add_assoc]

theorem ExAcc.merge_foldl_add (a b : ExAcc) (off : Nat) (vs : List Val) :
    a.merge (vs.foldl (fun x v => x.add off v) b) = vs.foldl (fun x v => x.add off v) (a.merge b) := by
  induction vs generalizing b with
  | nil => rfl
  | cons v vs ih => rw [List.foldl_cons, ih, ExAcc.merge_add, List.foldl_cons]

/-- No mark of −0 without a term. -/
def Side.sound (d : Side) : Prop := d.anyterm = false → d.negzero = false

theorem Side.sound_add (d : Side) (v : Val) : (d.add v).sound := fun h => Bool.noConfusion h

theorem Side.merge_empty {d : Side} (h : d.sound) : d.merge {} = d := by
  obtain ⟨nan, inv, p, n, nz, any⟩ := d
  cases any
  · obtain rfl : nz = false := h rfl
    simp [Side.merge]
  · simp [Side.merge]

theorem ExAcc.sound_foldl_add (off : Nat) (vs : List Val) {a : ExAcc} (h : a.side.sound) :
    (vs.foldl (fun x v => x.add off v) a).side.sound := by
  induction vs generalizing a with
  | nil => exact h
  | cons v vs ih => exact ih (Side.sound_add a.side v)

/-- The sum of the terms of two lists is the sum of the two sums. -/
theorem ExAcc.ofTerms_append (off : Nat) (ts us : List Val) :
    ExAcc.ofTerms off (ts ++ us) = (ExAcc.ofTerms off ts).merge (ExAcc.ofTerms off us) := by
  have hsound : (ExAcc.ofTerms off ts).side.sound := ExAcc.sound_foldl_add off ts fun _ => rfl
  have hempty : (ExAcc.ofTerms off ts).merge {} = ExAcc.ofTerms off ts := by
    rw [ExAcc.merge, Side.merge_empty hsound, add_zero]
  conv_rhs => rw [ExAcc.ofTerms.eq_1 off us]
  rw [ExAcc.merge_foldl_add, hempty, ExAcc.ofTerms, List.foldl_append]
  rfl

/-- Settles O46: the record by its two's complement and its side-state byte, the addition part by part. -/
theorem exactRecordsHoldSums : Obligations.ExactRecordsHoldSums := by
  unfold Obligations.ExactRecordsHoldSums
  exact ⟨ExAcc.decode_encode, ExAcc.merge_comm, ExAcc.merge_assoc, ExAcc.ofTerms_append⟩

/-! ## Exact-carry records (R287) -/

theorem collBands_pos (isL : Bool) : 0 < collBands isL := by cases isL <;> decide

/-- The lowest band that is not zero: what lies below it is zero, and there it is not, if one of the n bands is not. -/
theorem lowBand_spec (x : Int) (n k : Nat) : ∃ j, lowBand x n k = k + j ∧ j ≤ n ∧ (2 ^ (32 * j) : Int) ∣ x := by
  induction n generalizing x k with
  | zero => exact ⟨0, rfl, Nat.le_refl 0, by simp⟩
  | succ n ih =>
    rw [lowBand]
    split
    · next h =>
      obtain ⟨j, hj, hn, d, hd⟩ := ih (x / 2 ^ 32) (k + 1)
      refine ⟨j + 1, by omega, by omega, d, ?_⟩
      rw [← Int.mul_ediv_cancel' (Int.dvd_of_emod_eq_zero h), hd]
      ring
    · exact ⟨0, rfl, by omega, by simp⟩

/-- A value lies in k 32-bit bands. -/
def inBands (x : Int) (k : Nat) : Prop := -(2 ^ (32 * k - 1) : Int) ≤ x ∧ x < 2 ^ (32 * k - 1)

/-- The count of bands is one that holds the value, and no more than any other from k on. -/
theorem bandCount_spec (x : Int) {n k j : Nat} (hk : k ≤ j) (hj : j < k + n) (h : inBands x j) :
    k ≤ bandCount x n k ∧ bandCount x n k ≤ j ∧ inBands x (bandCount x n k) := by
  induction n generalizing k with
  | zero => omega
  | succ n ih =>
    rw [bandCount]
    split
    · next hx => exact ⟨Nat.le_refl k, hk, hx⟩
    · next hx =>
      have hne : k ≠ j := fun e => hx (e ▸ h)
      obtain ⟨h1, h2, h3⟩ := ih (k := k + 1) (by omega) (by omega)
      exact ⟨by omega, h2, h3⟩

/-- What an exact-carry record writes of a sum: the lowest band, and the bands from there on. -/
structure CarryParts (isL : Bool) (x : Int) (low n : Nat) : Prop where
  some : 1 ≤ n
  fits : low + n ≤ collBands isL
  held : inBands (x / 2 ^ (32 * low)) n
  whole : x / 2 ^ (32 * low) * 2 ^ (32 * low) = x

theorem carryParts {isL : Bool} {x : Int} (h0 : x ≠ 0) (h : inBands x (collBands isL)) :
    let low := lowBand x (collBands isL) 0
    CarryParts isL x low (bandCount (x / 2 ^ (32 * low)) (collBands isL) 1) := by
  intro low
  obtain ⟨j, hj, hjn, d, hd⟩ := lowBand_spec x (collBands isL) 0
  obtain rfl : j = low := by omega
  generalize low = j at hjn hd
  have hpos : (0 : Int) < 2 ^ (32 * j) := by positivity
  have hv : x / 2 ^ (32 * j) = d := by rw [hd, Int.mul_ediv_cancel_left _ hpos.ne']
  obtain ⟨hlo, hhi⟩ := h
  have hlt : j < collBands isL := by
    refine lt_of_le_of_ne hjn fun e => h0 ?_
    subst e
    have hp : (2 : Int) ^ (32 * collBands isL - 1) < 2 ^ (32 * collBands isL) :=
      pow_lt_pow_right₀ (by norm_num) (by have := collBands_pos isL; omega)
    exact Int.eq_zero_of_abs_lt_dvd ⟨d, hd⟩ (abs_lt.2 ⟨by omega, by omega⟩)
  have hpow : (2 : Int) ^ (32 * collBands isL - 1) = 2 ^ (32 * j) * 2 ^ (32 * (collBands isL - j) - 1) := by
    rw [← pow_add]
    congr 1
    omega
  have hd' : inBands d (collBands isL - j) := by
    rw [hpow, hd] at hlo hhi
    exact ⟨le_of_mul_le_mul_left (by linarith) hpos, lt_of_mul_lt_mul_left hhi hpos.le⟩
  obtain ⟨h1, h2, h3⟩ := bandCount_spec d (n := collBands isL) (k := 1) (by omega) (by omega) hd'
  exact ⟨by rwa [hv], by rw [hv]; omega, by rwa [hv], by rw [hv, hd, mul_comm]⟩

/-- The bands of a record, read back. -/
theorem ofBands_leBytes {isL : Bool} {x : Int} {low n : Nat} (h : CarryParts isL x low n) (rest : List Byte) :
    ExAcc.ofBands low n (leBytes (4 * n) (ofSigned (32 * n) (x / 2 ^ (32 * low))) ++ rest) = ⟨x, { anyterm := true }⟩ := by
  have htake : (leBytes (4 * n) (ofSigned (32 * n) (x / 2 ^ (32 * low))) ++ rest).take (4 * n)
      = leBytes (4 * n) (ofSigned (32 * n) (x / 2 ^ (32 * low))) := by
    rw [List.take_append_of_le_length (by simp), List.take_of_length_le (by simp)]
  have hbits : 8 * (4 * n) = 32 * n := by omega
  have hnum := toSigned_ofSigned_add (by have := h.some; omega) h.held.1 h.held.2 0
  rw [Nat.zero_shiftLeft, Nat.add_zero] at hnum
  rw [ExAcc.ofBands, htake, leNat_leBytes, hbits, Nat.mod_eq_of_lt (ofSigned_lt _ _), hnum, h.whole]

/-- A special element: its record holds the side state (R287). -/
theorem decodeCarry_special {isL : Bool} {a : ExAcc} (h : a.special = true) (rest : List Byte) :
    decodeCarry isL (encodeCarry isL (some a) ++ rest)
      = some (some ⟨0, { a.side with negzero := false, anyterm := true }⟩, (encodeCarry isL (some a)).length) := by
  obtain ⟨sum, nan, inv, p, n, nz, any⟩ := a
  simp only [encodeCarry, h, if_true]
  cases nan <;> cases inv <;> cases p <;> cases n <;> rfl

/-- A sum of zero: whether there is a term, and whether it is −0. -/
theorem decodeCarry_zero {isL : Bool} {a : ExAcc} (h : a.special = false) (h0 : a.sum = 0) (rest : List Byte) :
    decodeCarry isL (encodeCarry isL (some a) ++ rest)
      = some (some ⟨0, { anyterm := a.side.anyterm, negzero := a.side.anyterm && a.side.negzero }⟩,
        (encodeCarry isL (some a)).length) := by
  obtain ⟨sum, nan, inv, p, n, nz, any⟩ := a
  obtain rfl : sum = 0 := h0
  simp only [encodeCarry, h, Bool.false_eq_true, if_false, if_true]
  cases any <;> cases nz <;> rfl

theorem collBands_le (isL : Bool) : collBands isL ≤ 136 := by cases isL <;> decide

/-- The short form: one byte says where the bands lie and how many they are. -/
theorem decodeCarry_short {x : Int} {low n : Nat} (h : CarryParts false x low n) (hn : n ≤ 8) (rest : List Byte) :
    decodeCarry false (BitVec.ofNat 8 (8 * low + n - 1) :: leBytes (4 * n) (ofSigned (32 * n) (x / 2 ^ (32 * low))) ++ rest)
      = some (some ⟨x, { anyterm := true }⟩, 1 + 4 * n) := by
  have h1 := h.some
  have hfits : low + n ≤ 20 := h.fits
  have hhead : (8 * low + n - 1) % 2 ^ 8 = 8 * low + n - 1 := Nat.mod_eq_of_lt (by omega)
  have hlow : (8 * low + n - 1) / 8 = low := by omega
  have hrem : (8 * low + n - 1) % 8 = n - 1 := by omega
  have hcount : n - 1 + 1 = n := by omega
  have hlt : 8 * low + n - 1 < 0xA0 := by omega
  have hsum : low + (n - 1) + 1 ≤ 20 := by omega
  simp only [decodeCarry, List.cons_append, BitVec.toNat_ofNat, hhead, if_pos hlt, hlow, hrem, if_pos hsum, hcount]
  rw [if_pos ⟨h.fits, by simp⟩, ofBands_leBytes h]

/-- The long form: a byte for the lowest band, and one for the count. -/
theorem decodeCarry_long {isL : Bool} {x : Int} {low n : Nat} (h : CarryParts isL x low n) (rest : List Byte) :
    decodeCarry isL (0xFC#8 :: BitVec.ofNat 8 low :: BitVec.ofNat 8 (n - 1) ::
        leBytes (4 * n) (ofSigned (32 * n) (x / 2 ^ (32 * low))) ++ rest)
      = some (some ⟨x, { anyterm := true }⟩, 3 + 4 * n) := by
  have h1 := h.some
  have hfits := h.fits.trans (collBands_le isL)
  have hlow : low % 2 ^ 8 = low := Nat.mod_eq_of_lt (by omega)
  have hcount : (n - 1) % 2 ^ 8 + 1 = n := by rw [Nat.mod_eq_of_lt (by omega)]; omega
  have hhead : (0xFC#8).toNat = 0xFC := rfl
  simp only [decodeCarry, List.cons_append, BitVec.toNat_ofNat, hhead, hlow, hcount, Nat.reduceLT, Nat.reduceEqDiff, if_false, if_true]
  rw [if_pos ⟨h.fits, by simp⟩, ofBands_leBytes h]

/-- A sum that is not zero and lies within its class is read back. -/
theorem decodeCarry_sum {isL : Bool} {a : ExAcc} (h : a.special = false) (h0 : a.sum ≠ 0) (hin : inBands a.sum (collBands isL))
    (rest : List Byte) : decodeCarry isL (encodeCarry isL (some a) ++ rest)
      = some (some ⟨a.sum, { anyterm := true }⟩, (encodeCarry isL (some a)).length) := by
  have hparts := carryParts h0 hin
  simp only [encodeCarry, h, h0, Bool.false_eq_true, if_false]
  split
  · next hshort =>
    obtain ⟨hL, hn⟩ : isL = false ∧ _ ≤ 8 := by simpa using hshort
    subst hL
    rw [decodeCarry_short hparts hn, List.length_cons, length_leBytes, Nat.add_comm]
  · rw [decodeCarry_long hparts, List.length_cons, List.length_cons, List.length_cons, length_leBytes, Nat.add_comm]

/-- Settles O59: a record by its kind, and one with bands by the parts that it writes. -/
theorem carryRecordsHoldSums : Obligations.CarryRecordsHoldSums := by
  unfold Obligations.CarryRecordsHoldSums
  intro isL a rest hlo hhi bs v
  refine ⟨?_, rfl⟩
  by_cases hs : a.special = true
  · simp only [v, if_pos hs]
    exact decodeCarry_special hs rest
  · have hs' : a.special = false := Bool.eq_false_of_not_eq_true hs
    simp only [v, if_neg hs]
    split
    · next h0 => exact decodeCarry_zero hs' h0 rest
    · next h0 => exact decodeCarry_sum hs' h0 ⟨hlo, hhi⟩ rest

end Sys2Proof.Machine

/-! # The exact accumulation of terms does not depend on their order (R59, R63, R68 to R70, R345) -/

namespace Sys2Proof.Machine

/-- The classes whose window and bands hold a sum whole: the wide ones, and the S class with its window at band 0 (R57). -/
def holdsWhole (cls : SlotClass) (w : Nat) : Prop := cls = .w ∨ cls = .l ∨ (cls = .s ∧ w = 0)

/-! ## The sum -/

/-- A resolve moves what leaves the window to the bands. -/
theorem Accum.value_resolve (cls : SlotClass) (w : Nat) (a : Accum) : (a.resolve cls w).value w = a.value w := by
  unfold Accum.resolve Accum.value
  dsimp only
  split
  · rfl
  · split
    · next h => rw [← h]
    · ring

theorem Accum.value_addWindow (cls : SlotClass) (w : Nat) (t : Int) (a : Accum) :
    (a.addWindow cls w t).value w = a.value w + t * 2 ^ (64 * w) := by
  have hadd : ∀ b : Accum, ({ b with elem := { b.elem with win := b.elem.win + t, adds := b.elem.adds + 1 } } : Accum).value w
      = b.value w + t * 2 ^ (64 * w) := fun b => by simp only [Accum.value]; ring
  unfold Accum.addWindow
  split
  · next h => rw [h, zero_mul, add_zero]
  · rw [hadd]
    split
    · rw [Accum.value_resolve]
    · rfl

/-- A magnitude is what lies below the window, in it, and above it. -/
theorem split_at_window (m w : Nat) :
    m % 2 ^ (64 * w) + bits m (64 * w + 127) (64 * w) * 2 ^ (64 * w) + m >>> (64 * w + 128) <<< (64 * w + 128) = m := by
  have hbits : bits m (64 * w + 127) (64 * w) = m / 2 ^ (64 * w) % 2 ^ 128 := by
    rw [bits, Nat.shiftRight_eq_div_pow]
    congr 2
    omega
  rw [hbits, Nat.shiftRight_eq_div_pow, Nat.shiftLeft_eq, pow_add, ← Nat.div_div_eq_div_mul]
  have h1 := Nat.mod_add_div (m / 2 ^ (64 * w)) (2 ^ 128)
  have h2 := Nat.mod_add_div m (2 ^ (64 * w))
  calc _ = m % 2 ^ (64 * w) + 2 ^ (64 * w) * (m / 2 ^ (64 * w) % 2 ^ 128 + 2 ^ 128 * (m / 2 ^ (64 * w) / 2 ^ 128)) := by ring
    _ = m := by rw [h1, h2]

theorem contribCount_eq_zero {x : Nat} (h : contribCount x = 0) : x = 0 := by
  unfold contribCount at h
  split at h
  · assumption
  · dsimp only at h
    omega

/-- A term's aligned integer goes to the window and the bands whole (R59, R63). -/
theorem Accum.value_place {cls : SlotClass} {w : Nat} (h : holdsWhole cls w) (t : Int) (a : Accum) :
    (a.place cls w t).value w = a.value w + t := by
  unfold Accum.place
  split
  · next hs =>
    obtain rfl : w = 0 := by simpa [holdsWhole, hs] using h
    rw [Accum.value_addWindow, Nat.mul_zero, pow_zero, mul_one]
  · dsimp only
    have hsplit := congrArg (Nat.cast : Nat → Int) (split_at_window t.natAbs w)
    have hsgn : (if t < 0 then -1 else 1 : Int) * (t.natAbs : Int) = t := by split <;> omega
    generalize t.natAbs = m at hsplit hsgn ⊢
    generalize m % 2 ^ (64 * w) = below at hsplit ⊢
    generalize m >>> (64 * w + 128) <<< (64 * w + 128) = above at hsplit ⊢
    generalize bits m (64 * w + 127) (64 * w) = inside at hsplit ⊢
    generalize (if t < 0 then -1 else 1 : Int) = sgn at hsgn ⊢
    have hwin := Accum.value_addWindow cls w (sgn * inside) a
    push_cast at hsplit
    split
    · next hk =>
      obtain rfl := contribCount_eq_zero (Nat.eq_zero_of_add_eq_zero_right hk)
      obtain rfl := contribCount_eq_zero (Nat.eq_zero_of_add_eq_zero_left hk)
      push_cast at hsplit
      linear_combination hwin + sgn * hsplit + hsgn
    · simp only [Accum.value] at hwin ⊢
      push_cast
      linear_combination hwin + sgn * hsplit + hsgn

/-! ## What a term does beside: side state, first invalid term, residue -/

/-- What an accumulation gathers beside the sum. -/
def Elem.marks (e : Elem) : Side × Option (Nat × Nat × Nat) × Nat := (e.side, e.firstInv, e.rho)

/-- What one more term makes of that (R69, R70, R345). -/
def addMarks (off : Nat) (p : Side × Option (Nat × Nat × Nat) × Nat) (x : Val × Option (Nat × Nat × Nat)) :
    Side × Option (Nat × Nat × Nat) × Nat :=
  (p.1.add x.1, if x.1 = .invalid then coordMin? p.2.1 x.2 else p.2.1, residue ((p.2.2 : Int) + x.1.atOff off))

theorem Accum.marks_resolve (cls : SlotClass) (w : Nat) (a : Accum) : (a.resolve cls w).elem.marks = a.elem.marks := by
  unfold Accum.resolve
  dsimp only
  split
  · rfl
  · split <;> rfl

theorem Accum.marks_addWindow (cls : SlotClass) (w : Nat) (t : Int) (a : Accum) :
    (a.addWindow cls w t).elem.marks = a.elem.marks := by
  unfold Accum.addWindow
  split
  · rfl
  · split
    · exact Accum.marks_resolve cls w a
    · rfl

theorem Accum.marks_place (cls : SlotClass) (w : Nat) (t : Int) (a : Accum) : (a.place cls w t).elem.marks = a.elem.marks := by
  unfold Accum.place
  split
  · exact Accum.marks_addWindow cls w t a
  · dsimp only
    split
    · exact Accum.marks_addWindow cls w _ a
    · exact Accum.marks_addWindow cls w _ a

theorem Accum.marks_term (sl : Slot) (a : Accum) (x : Val × Option (Nat × Nat × Nat)) :
    (a.term sl x.1 x.2).elem.marks = addMarks sl.cls.off a.elem.marks x := by
  rw [Accum.term, Accum.marks_place]
  rfl

/-- Two terms leave the same side state in either order. -/
theorem Side.add_right_comm (d : Side) (u v : Val) : (d.add u).add v = (d.add v).add u := by
  simp only [Side.add, Side.mk.injEq, Bool.or_right_comm, if_true, and_true, true_and]
  split
  · rw [Bool.and_right_comm]
  · rw [Bool.and_comm]

/-- Coordinates in lexicographic order. -/
def coordLex (a : Nat × Nat × Nat) : Nat ×ₗ Nat ×ₗ Nat := toLex (a.1, toLex a.2)

theorem coordLex_coordMin (a b : Nat × Nat × Nat) : coordLex (coordMin a b) = min (coordLex a) (coordLex b) := by
  obtain ⟨r, c, k⟩ := a
  obtain ⟨r', c', k'⟩ := b
  have hle : coordLex (r, c, k) ≤ coordLex (r', c', k') ↔ r < r' ∨ (r = r' ∧ (c < c' ∨ (c = c' ∧ k ≤ k'))) := by
    simp only [coordLex, Prod.Lex.toLex_le_toLex]
  rw [min_def]
  simp only [hle, coordMin]
  split <;> rfl

/-- The smallest of three coordinates is the same in either order. -/
theorem coordMin_right_comm (a b c : Nat × Nat × Nat) : coordMin (coordMin a b) c = coordMin (coordMin a c) b := by
  have h : coordLex (coordMin (coordMin a b) c) = coordLex (coordMin (coordMin a c) b) := by
    simp only [coordLex_coordMin, min_right_comm]
  exact h

theorem coordMin_comm (a b : Nat × Nat × Nat) : coordMin a b = coordMin b a := by
  have h : coordLex (coordMin a b) = coordLex (coordMin b a) := by rw [coordLex_coordMin, coordLex_coordMin, min_comm]
  exact h

theorem coordMin?_right_comm (a b c : Option (Nat × Nat × Nat)) : coordMin? (coordMin? a b) c = coordMin? (coordMin? a c) b := by
  cases a with
  | none =>
    cases b with
    | none => cases c <;> rfl
    | some y => cases c with
      | none => rfl
      | some z => exact congrArg some (coordMin_comm y z)
  | some x =>
    cases b with
    | none => cases c <;> rfl
    | some y => cases c with
      | none => rfl
      | some z => exact congrArg some (coordMin_right_comm x y z)

theorem residue_add (r t : Int) : residue ((residue r : Int) + t) = residue (r + t) := by
  have h : ((r % csumP).toNat : Int) = r % csumP := Int.toNat_of_nonneg (Int.emod_nonneg _ (by decide))
  rw [residue, residue, residue, h, Int.emod_add_emod]

/-- Two terms leave the same marks in either order. -/
theorem addMarks_right_comm (off : Nat) (p : Side × Option (Nat × Nat × Nat) × Nat) (x y : Val × Option (Nat × Nat × Nat)) :
    addMarks off (addMarks off p x) y = addMarks off (addMarks off p y) x := by
  have hrho : residue ((residue ((p.2.2 : Int) + x.1.atOff off) : Int) + y.1.atOff off)
      = residue ((residue ((p.2.2 : Int) + y.1.atOff off) : Int) + x.1.atOff off) := by
    rw [residue_add, residue_add, add_right_comm]
  simp only [addMarks, hrho, Side.add_right_comm p.1 x.1 y.1, Prod.mk.injEq, true_and, and_true]
  split
  · split
    · exact coordMin?_right_comm _ _ _
    · rfl
  · rfl

/-! ## A list of terms -/

/-- An accumulation after a list of terms. -/
def Accum.terms (sl : Slot) (a : Accum) (l : List (Val × Option (Nat × Nat × Nat))) : Accum :=
  l.foldl (fun acc x => acc.term sl x.1 x.2) a

theorem Accum.value_term {sl : Slot} (h : holdsWhole sl.cls sl.w) (a : Accum) (x : Val × Option (Nat × Nat × Nat)) :
    (a.term sl x.1 x.2).value sl.w = a.value sl.w + x.1.atOff sl.cls.off := by
  rw [Accum.term, Accum.value_place h]
  rfl

theorem Accum.value_terms {sl : Slot} (h : holdsWhole sl.cls sl.w) (a : Accum) (l : List (Val × Option (Nat × Nat × Nat))) :
    (a.terms sl l).value sl.w = a.value sl.w + (l.map fun x => x.1.atOff sl.cls.off).sum := by
  induction l generalizing a with
  | nil => simp [Accum.terms]
  | cons x l ih => rw [Accum.terms, List.foldl_cons, ← Accum.terms, ih, Accum.value_term h, List.map_cons, List.sum_cons, add_assoc]

theorem Accum.marks_terms (sl : Slot) (a : Accum) (l : List (Val × Option (Nat × Nat × Nat))) :
    (a.terms sl l).elem.marks = l.foldl (addMarks sl.cls.off) a.elem.marks := by
  induction l generalizing a with
  | nil => rfl
  | cons x l ih => rw [Accum.terms, List.foldl_cons, ← Accum.terms, ih, Accum.marks_term, List.foldl_cons]

/-- Settles O45: the sum is that of the terms, and two terms commute in what they mark. -/
theorem exactAccumulationIsOrderFree : Obligations.ExactAccumulationIsOrderFree := by
  unfold Obligations.ExactAccumulationIsOrderFree
  intro sl a ts us h hperm run
  have hmarks : (a.terms sl us).elem.marks = (a.terms sl ts).elem.marks := by
    rw [Accum.marks_terms, Accum.marks_terms]
    exact hperm.symm.foldl_eq' (fun x _ y _ p => addMarks_right_comm _ p x y) _
  have hvalue : (a.terms sl us).value sl.w = (a.terms sl ts).value sl.w := by
    rw [Accum.value_terms h, Accum.value_terms h, (hperm.map _).sum_eq]
  simp only [Elem.marks, Prod.mk.injEq] at hmarks
  exact ⟨Accum.value_terms h a ts, hvalue, hmarks⟩

end Sys2Proof.Machine

/-! # Rounding to a floating-point format (R29 to R33, R46, R50)

First the codes of a format in the order of their magnitudes, then the pairs of significand and exponent that a code stands for, then the
two neighbours of a magnitude in a format, last what the rounding makes of them by its mode. -/

namespace Sys2Proof.Machine

/-! ## Codes and their parts -/

/-- What Tables 02-2 and 02-3 give of every format: the largest finite code is a magnitude; a format without a NaN code has no code above
it; one with infinities has a NaN code, and codes above the infinity. -/
structure Fp.Sound (f : Fp) : Prop where
  bits : 0 < f.eBits
  max : f.maxCode < 2 ^ (f.eBits + f.mBits)
  noNan : f.hasNan = false → f.hasInf = false ∧ f.maxCode + 1 = 2 ^ (f.eBits + f.mBits)
  inf : f.hasInf = true → f.maxCode + 1 < 2 ^ (f.eBits + f.mBits)

theorem Fp.sound_ofCode {fmt : Nat} {f : Fp} (h : Fp.ofCode fmt = some f) : f.Sound := by
  unfold Fp.ofCode at h
  split at h <;> cases h <;> constructor <;> decide

section
variable {f : Fp}

/-- Significand and exponent of the least place of a magnitude (R29). -/
def Fp.parts (f : Fp) (mag : Nat) : Nat × Int :=
  if mag / 2 ^ f.mBits = 0 then (mag % 2 ^ f.mBits, f.emin - f.mBits)
  else (2 ^ f.mBits + mag % 2 ^ f.mBits, (mag / 2 ^ f.mBits : Nat) - (f.bias : Int) - f.mBits)

theorem Fp.two_pow_width (f : Fp) : 2 ^ f.width = 2 * 2 ^ (f.eBits + f.mBits) := by
  rw [Fp.width, Nat.add_assoc, pow_add, pow_one]

/-- A code is its sign and its magnitude. -/
theorem Fp.code_eq (f : Fp) (code : Nat) : ∃ s mag, mag < 2 ^ (f.eBits + f.mBits) ∧ code % 2 ^ f.width = f.withSign s mag := by
  refine ⟨decide (code % 2 ^ f.width / 2 ^ (f.eBits + f.mBits) = 1), code % 2 ^ f.width % 2 ^ (f.eBits + f.mBits),
    Nat.mod_lt _ (by positivity), ?_⟩
  have hlt : code % 2 ^ f.width < 2 * 2 ^ (f.eBits + f.mBits) := f.two_pow_width ▸ Nat.mod_lt _ (by positivity)
  have hdiv : code % 2 ^ f.width / 2 ^ (f.eBits + f.mBits) < 2 := Nat.div_lt_of_lt_mul (by rwa [Nat.mul_comm])
  have hmod := Nat.mod_add_div (code % 2 ^ f.width) (2 ^ (f.eBits + f.mBits))
  have hb : b2n (decide (code % 2 ^ f.width / 2 ^ (f.eBits + f.mBits) = 1)) = code % 2 ^ f.width / 2 ^ (f.eBits + f.mBits) := by
    generalize code % 2 ^ f.width / 2 ^ (f.eBits + f.mBits) = top at hdiv ⊢
    interval_cases top <;> rfl
  rw [Fp.withSign, hb, Nat.shiftLeft_eq]
  linarith

theorem Fp.withSign_lt {s : Bool} {mag : Nat} (h : mag < 2 ^ (f.eBits + f.mBits)) : f.withSign s mag < 2 ^ f.width := by
  rw [f.two_pow_width, Fp.withSign, Nat.shiftLeft_eq]
  cases s <;> simp [b2n] <;> omega

theorem Fp.withSign_eq (f : Fp) (s : Bool) (mag : Nat) : f.withSign s mag = mag + 2 ^ (f.eBits + f.mBits) * b2n s := by
  rw [Fp.withSign, Nat.shiftLeft_eq, Nat.add_comm, Nat.mul_comm]

theorem Fp.withSign_mod (s : Bool) {mag : Nat} (h : mag < 2 ^ (f.eBits + f.mBits)) :
    f.withSign s mag % 2 ^ (f.eBits + f.mBits) = mag := by
  rw [f.withSign_eq, Nat.add_mul_mod_self_left, Nat.mod_eq_of_lt h]

theorem Fp.bit_withSign (s : Bool) {mag : Nat} (h : mag < 2 ^ (f.eBits + f.mBits)) :
    bit (f.withSign s mag) (f.eBits + f.mBits) = s := by
  rw [bit, Nat.testBit_eq_decide_div_mod_eq, f.withSign_eq, Nat.add_mul_div_left _ _ (by positivity), Nat.div_eq_of_lt h]
  cases s <;> rfl

/-- The finite value of a code: its sign, and the parts of its magnitude. -/
theorem Fp.finite_withSign (hf : f.Sound) (s : Bool) {mag : Nat} (h : mag < 2 ^ (f.eBits + f.mBits)) :
    f.finite (f.withSign s mag) = (s, f.parts mag) := by
  have hexp : bits (f.withSign s mag) (f.eBits + f.mBits - 1) f.mBits = mag / 2 ^ f.mBits := by
    have hw : f.eBits + f.mBits - 1 + 1 - f.mBits = f.eBits := by have := hf.bits; omega
    have hlt : mag / 2 ^ f.mBits < 2 ^ f.eBits := Nat.div_lt_of_lt_mul (by rwa [← pow_add, Nat.add_comm])
    rw [bits, hw, f.withSign_eq, Nat.shiftRight_eq_div_pow, pow_add, Nat.mul_comm (2 ^ f.eBits), Nat.mul_assoc,
      Nat.add_mul_div_left _ _ (by positivity), Nat.add_mul_mod_self_left, Nat.mod_eq_of_lt hlt]
  have hfrac : f.withSign s mag % 2 ^ f.mBits = mag % 2 ^ f.mBits := by
    rw [← Fp.withSign_mod s h, Nat.mod_mod_of_dvd _ (pow_dvd_pow 2 (Nat.le_add_left _ _)), Fp.withSign_mod s h]
  unfold Fp.finite Fp.parts
  dsimp only
  rw [Fp.bit_withSign s h, hexp, hfrac]
  split <;> rfl

/-- What a code with its sign put in is decoded to: an infinity, a NaN, or a finite value by its parts. -/
theorem Fp.decode_withSign (hf : f.Sound) {s : Bool} {mag : Nat} (h : mag < 2 ^ (f.eBits + f.mBits)) :
    f.decode (f.withSign s mag) = if f.hasInf && mag == f.maxCode + 1 then .inf s
      else if f.hasNan && decide (mag > f.maxCode) then .nan
      else .fin s (f.parts mag).1 (f.parts mag).2 := by
  unfold Fp.decode
  dsimp only
  rw [Nat.mod_eq_of_lt (f.withSign_lt h), Fp.withSign_mod s h, Fp.bit_withSign s h, Fp.finite_withSign hf s h]

/-- The codes of finite values are those whose magnitude does not exceed the largest. -/
theorem Fp.decode_finite (hf : f.Sound) {s : Bool} {mag : Nat} (h : mag ≤ f.maxCode) :
    f.decode (f.withSign s mag) = .fin s (f.parts mag).1 (f.parts mag).2 := by
  rw [Fp.decode_withSign hf (lt_of_le_of_lt h hf.max), if_neg (by simp; omega), if_neg (by simp; omega)]

theorem Fp.decode_mod (f : Fp) (code : Nat) : f.decode (code % 2 ^ f.width) = f.decode code := by
  rw [Fp.decode, Fp.decode, Nat.mod_mod]

/-- A finite value is that of a magnitude. -/
theorem Fp.finite_of_decode (hf : f.Sound) {code : Nat} {s : Bool} {m : Nat} {q : Int} (h : f.decode code = .fin s m q) :
    ∃ mag ≤ f.maxCode, code % 2 ^ f.width = f.withSign s mag ∧ f.parts mag = (m, q) := by
  obtain ⟨s', mag, hlt, hc⟩ := f.code_eq code
  rw [← f.decode_mod, hc, Fp.decode_withSign hf hlt] at h
  split at h
  · exact Val.noConfusion h
  · split at h
    · exact Val.noConfusion h
    · next hnan =>
      simp only [Val.fin.injEq] at h
      obtain ⟨rfl, hm, hq⟩ := h
      refine ⟨mag, ?_, hc, Prod.ext hm hq⟩
      cases hn : f.hasNan with
      | true => simpa [hn] using hnan
      | false => have := (hf.noNan hn).2; omega

/-! ## Significand and exponent -/

/-- k × 2^t is written with the exponent that the format gives it: significands below the leading one stand at the least exponent. -/
structure Fp.Canon (f : Fp) (k : Nat) (t : Int) : Prop where
  lt : k < 2 * 2 ^ f.mBits
  least : f.emin - f.mBits ≤ t
  small : k < 2 ^ f.mBits → t = f.emin - f.mBits

theorem Fp.parts_add (f : Fp) (e : Nat) {r : Nat} (h : r < 2 ^ f.mBits) : f.parts (2 ^ f.mBits * e + r) =
    if e = 0 then (r, f.emin - f.mBits) else (2 ^ f.mBits + r, (e : Int) - f.bias - f.mBits) := by
  rw [Fp.parts, Nat.mul_add_div (by positivity), Nat.div_eq_of_lt h, Nat.add_zero, Nat.mul_add_mod, Nat.mod_eq_of_lt h]

/-- Every magnitude is a multiple of the leading one and what is left. -/
theorem Fp.mag_eq (f : Fp) (mag : Nat) : ∃ e r, r < 2 ^ f.mBits ∧ mag = 2 ^ f.mBits * e + r :=
  ⟨mag / 2 ^ f.mBits, mag % 2 ^ f.mBits, Nat.mod_lt _ (by positivity), (Nat.div_add_mod mag _).symm⟩

theorem Fp.canon_parts (f : Fp) (mag : Nat) : f.Canon (f.parts mag).1 (f.parts mag).2 := by
  obtain ⟨e, r, hr, rfl⟩ := f.mag_eq mag
  rw [f.parts_add e hr]
  split
  · exact ⟨by dsimp only; omega, Int.le_refl _, fun _ => rfl⟩
  · next he => exact ⟨by dsimp only; omega, by simp only [Fp.emin]; omega, fun h => by dsimp only at h; omega⟩

/-- `encode` writes the magnitude whose parts it is given. -/
theorem Fp.encode_parts (s : Bool) {k : Nat} {t : Int} (h : f.Canon k t) :
    ∃ mag, f.encode s k t = f.withSign s mag ∧ f.parts mag = (k, t) := by
  unfold Fp.encode
  split
  · next hk =>
    have ht := h.least
    have hlt := h.lt
    rw [Fp.emin] at ht
    have he : (t + f.mBits + f.bias).toNat ≠ 0 := by omega
    refine ⟨_, rfl, ?_⟩
    rw [Nat.shiftLeft_eq, Nat.mul_comm, f.parts_add _ (by omega), if_neg he]
    exact Prod.ext (by dsimp only; omega) (by dsimp only; omega)
  · next hk =>
    have hparts := f.parts_add 0 (Nat.lt_of_not_le hk)
    rw [Nat.mul_zero, Nat.zero_add, if_pos rfl] at hparts
    exact ⟨k, rfl, by rw [hparts, h.small (Nat.lt_of_not_le hk)]⟩

/-! ## Values -/

/-- k × 2^t. -/
def dyadic (k : Nat) (t : Int) : ℚ := (k : ℚ) * 2 ^ t

theorem dyadic_eq_shift (k : Nat) {t u : Int} (h : u ≤ t) : dyadic k t = dyadic (k <<< (t - u).toNat) u := by
  obtain ⟨n, rfl⟩ : ∃ n : Nat, t = u + n := ⟨(t - u).toNat, by omega⟩
  rw [dyadic, dyadic, add_sub_cancel_left, Int.toNat_natCast, Nat.shiftLeft_eq, zpow_add₀ (by norm_num), zpow_natCast]
  push_cast
  ring

theorem dyadic_lt (k j : Nat) (t : Int) : dyadic k t < dyadic j t ↔ k < j := by
  rw [dyadic, dyadic, mul_lt_mul_iff_left₀ (by positivity), Nat.cast_lt]

theorem dyadic_le (k j : Nat) (t : Int) : dyadic k t ≤ dyadic j t ↔ k ≤ j := by
  rw [dyadic, dyadic, mul_le_mul_iff_left₀ (by positivity), Nat.cast_le]

theorem dyadicGt_iff (m : Nat) (q : Int) (m' : Nat) (q' : Int) : dyadicGt m q m' q' = true ↔ dyadic m' q' < dyadic m q := by
  unfold dyadicGt
  split
  · next h => rw [decide_eq_true_iff, dyadic_eq_shift m h, dyadic_lt]
  · next h => rw [decide_eq_true_iff, dyadic_eq_shift m' (u := q) (by omega), dyadic_lt]

/-- The value of a magnitude. -/
def Fp.magVal (f : Fp) (mag : Nat) : ℚ := dyadic (f.parts mag).1 (f.parts mag).2

/-- A larger magnitude is a larger value. -/
theorem Fp.magVal_strictMono (f : Fp) : StrictMono f.magVal := by
  refine strictMono_nat_of_lt_succ fun mag => ?_
  obtain ⟨e, r, hr, rfl⟩ := f.mag_eq mag
  by_cases hlast : r + 1 < 2 ^ f.mBits
  · rw [Fp.magVal, Fp.magVal, Nat.add_assoc, f.parts_add e hr, f.parts_add e hlast]
    split <;> rw [dyadic_lt] <;> omega
  · have hnext : 2 ^ f.mBits * e + r + 1 = 2 ^ f.mBits * (e + 1) + 0 := by rw [Nat.mul_succ]; omega
    rw [hnext, Fp.magVal, Fp.magVal, f.parts_add e hr, f.parts_add (e + 1) (by positivity), if_neg (Nat.succ_ne_zero e)]
    split
    · next he =>
      have hexp : ((e + 1 : Nat) : Int) - f.bias - f.mBits = f.emin - f.mBits := by rw [he, Fp.emin]; omega
      rw [hexp, dyadic_lt]
      omega
    · have hle : (e : Int) - f.bias - f.mBits ≤ (e + 1 : Nat) - f.bias - f.mBits := by omega
      have hone : ((e + 1 : Nat) - (f.bias : Int) - f.mBits - ((e : Int) - f.bias - f.mBits)).toNat = 1 := by omega
      rw [dyadic_eq_shift _ hle, dyadic_lt, hone, Nat.shiftLeft_eq]
      omega

/-- A canonical pair that does not exceed the largest finite value is encoded as a finite value, and decoded to itself. -/
theorem Fp.decode_encode (hf : f.Sound) (s : Bool) {k : Nat} {t : Int} (h : f.Canon k t) (hle : dyadic k t ≤ f.magVal f.maxCode) :
    f.decode (f.encode s k t) = .fin s k t := by
  obtain ⟨mag, henc, hparts⟩ := f.encode_parts s h
  have hmag : f.magVal mag = dyadic k t := by rw [Fp.magVal, hparts]
  rw [henc, f.decode_finite hf (f.magVal_strictMono.le_iff_le.1 (hmag ▸ hle)), hparts]

/-! ## The two neighbours of a magnitude -/

/-- No value of the format lies between the two, and the magnitude lies there. -/
structure Fp.Neighbours (f : Fp) (x lo hi : ℚ) : Prop where
  lo_le : lo ≤ x
  le_hi : x ≤ hi
  below : ∀ k t, f.Canon k t → dyadic k t ≤ x → dyadic k t ≤ lo
  above : ∀ k t, f.Canon k t → x ≤ dyadic k t → hi ≤ dyadic k t

/-- A value of the format is its own neighbour. -/
theorem Fp.neighbours_self (f : Fp) (x : ℚ) : f.Neighbours x x x :=
  ⟨le_rfl, le_rfl, fun _ _ _ h => h, fun _ _ _ h => h⟩

/-- k × 2^t and (k + 1) × 2^t, with the exponent that the format gives k, are the neighbours of what lies strictly between. -/
theorem Fp.neighbours_floor {k : Nat} {t : Int} {x : ℚ} (h : f.Canon k t) (hlo : dyadic k t < x) (hhi : x < dyadic (k + 1) t) :
    f.Neighbours x (dyadic k t) (dyadic (k + 1) t) := by
  have hsplit : ∀ j u, f.Canon j u → dyadic j u ≤ dyadic k t ∨ dyadic (k + 1) t ≤ dyadic j u := fun j u hj => by
    rcases le_or_gt t u with htu | htu
    · rw [dyadic_eq_shift j htu, dyadic_le, dyadic_le]
      omega
    · have hleast := hj.least
      have hk : 2 ^ f.mBits ≤ k := Nat.le_of_not_lt fun hk => by have := h.small hk; omega
      have hlt := hj.lt
      obtain ⟨n, hn⟩ : ∃ n, (t - u).toNat = n + 1 := ⟨(t - u).toNat - 1, by omega⟩
      refine .inl ?_
      rw [dyadic_eq_shift k htu.le, dyadic_le, hn, Nat.shiftLeft_eq, pow_succ]
      have hone : 1 ≤ 2 ^ n := Nat.one_le_two_pow
      nlinarith
  refine ⟨hlo.le, hhi.le, fun j u hj hle => ?_, fun j u hj hle => ?_⟩
  · exact (hsplit j u hj).resolve_right fun h => absurd (h.trans hle) (not_le.2 hhi)
  · exact (hsplit j u hj).resolve_left fun h => absurd (hle.trans h) (not_le.2 hlo)

/-! ## The rounding (R46) -/

/-- Which of its two neighbours a magnitude is rounded to, by the mode and the sign (Table 02-5). -/
def RMode.picks (mode : RMode) (s : Bool) (x lo hi y : ℚ) : Prop :=
  match mode with
  | .rne => |y - x| ≤ x - lo ∧ |y - x| ≤ hi - x
  | .rtz => y = lo
  | .rup => y = if s then lo else hi
  | .rdn => y = if s then hi else lo
  | .sr => True

theorem RMode.picks_self (mode : RMode) (s : Bool) (x : ℚ) : mode.picks s x x x x := by
  cases mode <;> simp [RMode.picks]

/-- The rounding answers the code of k × 2^t, which is the neighbour of x that the mode picks. -/
structure Fp.Rounds (f : Fp) (s : Bool) (mode : RMode) (x : ℚ) (out : Nat × Flags) (k : Nat) (t : Int) : Prop where
  canon : f.Canon k t
  code : out.1 = f.encode s k t
  fits : dyadic k t ≤ f.magVal f.maxCode
  inexact : out.2.inexact = true ↔ dyadic k t ≠ x
  picked : ∃ lo hi, f.Neighbours x lo hi ∧ mode.picks s x lo hi (dyadic k t)

/-- Exponent of the least place of the format's values about m × 2^q. -/
def Fp.place (f : Fp) (m : Nat) (q : Int) : Int := max ((Nat.log2 m : Int) + q) f.emin - f.mBits

/-- What lies above the least place is a significand of the format. -/
theorem Fp.canon_floor {m : Nat} (hm : 0 < m) {q : Int} (h : q < f.place m q) :
    f.Canon (m >>> (f.place m q - q).toNat) (f.place m q) := by
  obtain ⟨d, hd⟩ : ∃ d : Nat, f.place m q = q + d := ⟨(f.place m q - q).toNat, by omega⟩
  have hlog : 2 ^ Nat.log2 m ≤ m := Nat.log2_self_le hm.ne'
  have hlog' : m < 2 ^ (Nat.log2 m + 1) := Nat.lt_log2_self
  rw [hd, add_sub_cancel_left, Int.toNat_natCast, Nat.shiftRight_eq_div_pow]
  have hplace : (Nat.log2 m : Int) ≤ f.mBits + d := by rw [Fp.place] at hd; omega
  refine ⟨Nat.div_lt_of_lt_mul ?_, by rw [← hd, Fp.place]; omega, fun hsmall => ?_⟩
  · calc m < 2 ^ (Nat.log2 m + 1) := hlog'
      _ ≤ 2 ^ (d + (f.mBits + 1)) := Nat.pow_le_pow_right (by decide) (by omega)
      _ = 2 ^ d * (2 * 2 ^ f.mBits) := by rw [pow_add, pow_succ']
  · by_contra hne
    have hexact : Nat.log2 m = f.mBits + d := by rw [Fp.place] at hd; omega
    rw [Nat.div_lt_iff_lt_mul (by positivity), ← pow_add, ← hexact] at hsmall
    omega

/-- A magnitude whose least place lies above that of the format is a value of the format. -/
theorem Fp.canon_shift {m : Nat} (hm : 0 < m) {q : Int} (h : f.place m q ≤ q) :
    f.Canon (m <<< (q - f.place m q).toNat) (f.place m q) := by
  obtain ⟨d, hd⟩ : ∃ d : Nat, q = f.place m q + d := ⟨(q - f.place m q).toNat, by omega⟩
  have hlog : 2 ^ Nat.log2 m ≤ m := Nat.log2_self_le hm.ne'
  have hlog' : m < 2 ^ (Nat.log2 m + 1) := Nat.lt_log2_self
  have hto : (q - f.place m q).toNat = d := by omega
  rw [hto, Nat.shiftLeft_eq]
  have hplace : Nat.log2 m + d ≤ f.mBits := by rw [Fp.place] at hd; omega
  refine ⟨?_, by rw [Fp.place]; omega, fun hsmall => ?_⟩
  · calc m * 2 ^ d < 2 ^ (Nat.log2 m + 1) * 2 ^ d := Nat.mul_lt_mul_of_pos_right hlog' (by positivity)
      _ = 2 ^ (Nat.log2 m + 1 + d) := (pow_add _ _ _).symm
      _ ≤ 2 ^ (f.mBits + 1) := Nat.pow_le_pow_right (by decide) (by omega)
      _ = 2 * 2 ^ f.mBits := pow_succ' _ _
  · by_contra hne
    have hexact : Nat.log2 m + d = f.mBits := by rw [Fp.place] at hd hne; omega
    have hbig : 2 ^ f.mBits ≤ m * 2 ^ d := by
      rw [← hexact, pow_add]
      exact Nat.mul_le_mul_right _ hlog
    omega

/-- What is cut off decides between the two neighbours as the mode says. -/
theorem roundUp_picks {mode : RMode} (hmode : mode ≠ .sr) (s : Bool) (k r : Nat) {rem d : Nat} {q : Int} (hd : 0 < d)
    (h0 : 0 < rem) (hlt : rem < 2 ^ d) :
    mode.picks s (dyadic (k * 2 ^ d + rem) q) (dyadic k (q + d)) (dyadic (k + 1) (q + d))
      (dyadic (if roundUp mode s k rem d r then k + 1 else k) (q + d)) := by
  have hne : (rem != 0) = true := bne_iff_ne.2 h0.ne'
  cases mode with
  | rne =>
    have hu : (0 : ℚ) < 2 ^ q := by positivity
    have hscale : ∀ j : Nat, dyadic j (q + d) = (j * 2 ^ d : ℚ) * 2 ^ q := fun j => by
      rw [dyadic, zpow_add₀ (by norm_num), zpow_natCast]; ring
    have hlt' : (rem : ℚ) < 2 ^ d := by exact_mod_cast hlt
    have hrem : (0 : ℚ) < rem := by exact_mod_cast h0
    have hhalf : 2 * 2 ^ (d - 1) = 2 ^ d := by rw [← pow_succ', Nat.sub_add_cancel hd]
    simp only [RMode.picks, hscale]
    simp only [dyadic]
    have hlo : ((k * 2 ^ d + rem : Nat) : ℚ) * 2 ^ q - k * 2 ^ d * 2 ^ q = rem * 2 ^ q := by push_cast; ring
    have hhi : ((k + 1 : Nat) : ℚ) * 2 ^ d * 2 ^ q - ((k * 2 ^ d + rem : Nat) : ℚ) * 2 ^ q = (2 ^ d - rem) * 2 ^ q := by
      push_cast; ring
    cases hup : roundUp .rne s k rem d r with
    | true =>
      have hge : 2 ^ d ≤ 2 * rem := by simp [roundUp] at hup; omega
      have hge' : (2 : ℚ) ^ d ≤ 2 * rem := by exact_mod_cast hge
      rw [if_pos rfl, hlo, hhi, abs_of_nonneg (mul_nonneg (by linarith) hu.le)]
      exact ⟨mul_le_mul_of_nonneg_right (by linarith) hu.le, le_rfl⟩
    | false =>
      have hle : 2 * rem ≤ 2 ^ d := by simp [roundUp] at hup; omega
      have hle' : 2 * (rem : ℚ) ≤ 2 ^ d := by exact_mod_cast hle
      rw [if_neg Bool.false_ne_true, abs_sub_comm, hlo, hhi, abs_of_nonneg (mul_nonneg hrem.le hu.le)]
      exact ⟨le_rfl, mul_le_mul_of_nonneg_right (by linarith) hu.le⟩
  | rtz => rfl
  | rup => cases s <;> simp [RMode.picks, roundUp, hne]
  | rdn => cases s <;> simp [RMode.picks, roundUp, hne]
  | sr => exact absurd rfl hmode

/-- A significand that rounding has carried to the next power of two is halved, with the next exponent. -/
def carried (f : Fp) (k : Nat) (t : Int) : Nat × Int := if k = 2 ^ f.p then (k / 2, t + 1) else (k, t)

theorem carried_value (f : Fp) (k : Nat) (t : Int) : dyadic (carried f k t).1 (carried f k t).2 = dyadic k t := by
  unfold carried
  split
  · next h =>
    have hhalf : k / 2 = 2 ^ f.mBits := by rw [h, Fp.p, pow_succ, Nat.mul_div_cancel _ (by decide)]
    have hle : t ≤ t + 1 := by omega
    rw [hhalf, dyadic_eq_shift _ hle, add_sub_cancel_left, Nat.shiftLeft_eq, h, Fp.p]
    rfl
  · rfl

theorem canon_carried {k k' : Nat} {t : Int} (h : f.Canon k t) (hk : k' = k ∨ k' = k + 1) :
    f.Canon (carried f k' t).1 (carried f k' t).2 := by
  have hlt := h.lt
  have hleast := h.least
  have hp : 2 ^ f.p = 2 * 2 ^ f.mBits := by rw [Fp.p, pow_succ']
  unfold carried
  split
  · next hfull => exact ⟨by dsimp only; omega, by dsimp only; omega, fun hs => by dsimp only at hs; omega⟩
  · next hfull => exact ⟨by dsimp only; omega, hleast, fun hs => h.small (by dsimp only at hs; omega)⟩

theorem Fp.finite_maxCode (hf : f.Sound) : f.finite f.maxCode = (false, f.parts f.maxCode) := by
  have h := Fp.finite_withSign hf false hf.max
  rwa [f.withSign_eq, b2n, if_neg Bool.false_ne_true, Nat.mul_zero, Nat.add_zero] at h

/-- The result with these flags, unless it exceeds the largest finite value (R46, R48). -/
def Fp.capped (f : Fp) (s : Bool) (mode : RMode) (k : Nat) (t : Int) (out : Nat × Flags) : Nat × Flags :=
  if dyadicGt k t (f.parts f.maxCode).1 (f.parts f.maxCode).2 then (f.overflowCode s mode, { overflow := true, inexact := true })
  else out

theorem Fp.capped_of_fits {s : Bool} {mode : RMode} {k : Nat} {t : Int} {out : Nat × Flags} (h : dyadic k t ≤ f.magVal f.maxCode) :
    f.capped s mode k t out = out := by
  rw [Fp.capped, if_neg]
  rwa [dyadicGt_iff, not_lt]

theorem Fp.fits_of_capped {s : Bool} {mode : RMode} {k : Nat} {t : Int} {out : Nat × Flags}
    (h : (f.capped s mode k t out).2.overflow = false) : dyadic k t ≤ f.magVal f.maxCode := by
  by_contra hgt
  rw [Fp.capped, if_pos (by rwa [dyadicGt_iff, ← not_le])] at h
  exact Bool.noConfusion h

/-- Rounding a value of the format. -/
theorem Fp.round_shift (hf : f.Sound) (s : Bool) {m : Nat} {q : Int} (mode : RMode) (r : Nat) (h : f.place m q ≤ q) :
    f.round s m q mode r = f.capped s mode m q (f.encode s (m <<< (q - f.place m q).toNat) (f.place m q), {}) := by
  unfold Fp.round
  rw [Fp.finite_maxCode hf]
  exact if_pos h

/-- Rounding what has d bits below the least place. -/
theorem Fp.round_cut (hf : f.Sound) (s : Bool) {m d : Nat} {q : Int} (mode : RMode) (r : Nat) (hd : 0 < d) (h : f.place m q = q + d) :
    f.round s m q mode r =
      (let c := carried f (if roundUp mode s (m / 2 ^ d) (m % 2 ^ d) d r then m / 2 ^ d + 1 else m / 2 ^ d) (q + d)
       f.capped s mode c.1 c.2 (f.encode s c.1 c.2,
         { inexact := m % 2 ^ d != 0, underflow := decide ((Nat.log2 m : Int) + q < f.emin) && m % 2 ^ d != 0 })) := by
  have hto : (f.place m q - q).toNat = d := by omega
  have hrem : m - m / 2 ^ d * 2 ^ d = m % 2 ^ d := by have := Nat.mod_add_div m (2 ^ d); rw [Nat.mul_comm] at this; omega
  unfold Fp.round
  rw [Fp.finite_maxCode hf]
  refine (if_neg (show ¬ f.place m q ≤ q by omega)).trans ?_
  change (let d := (f.place m q - q).toNat
    let k := m >>> d
    let rem := m - k <<< d
    let c := carried f (if roundUp mode s k rem d r then k + 1 else k) (f.place m q)
    f.capped s mode c.1 c.2 (f.encode s c.1 c.2,
      { inexact := rem != 0, underflow := decide ((Nat.log2 m : Int) + q < f.emin) && rem != 0 })) = _
  dsimp only
  rw [hto, h, Nat.shiftRight_eq_div_pow, Nat.shiftLeft_eq, hrem]

theorem roundUp_zero (mode : RMode) (hmode : mode ≠ .sr) (s : Bool) (k d r : Nat) : roundUp mode s k 0 d r = false := by
  cases mode with
  | sr => exact absurd rfl hmode
  | rne => simp [roundUp, (Nat.two_pow_pos (d - 1)).ne]
  | rtz | rup | rdn => rfl

/-- A number is what lies above its d low bits, and these. -/
theorem dyadic_split (m d : Nat) (q : Int) : dyadic m q = dyadic (m / 2 ^ d * 2 ^ d + m % 2 ^ d) q := by
  rw [Nat.mul_comm, Nat.div_add_mod]

theorem dyadic_mul_pow (k d : Nat) (q : Int) : dyadic (k * 2 ^ d) q = dyadic k (q + d) := by
  rw [dyadic, dyadic, zpow_add₀ (by norm_num), zpow_natCast]
  push_cast
  ring

/-- R46: a rounding that does not overflow answers the neighbour that its mode picks. -/
theorem Fp.round_rounds (hf : f.Sound) {s : Bool} {m : Nat} {q : Int} {mode : RMode} {r : Nat} (hm : 0 < m) (hmode : mode ≠ .sr)
    (hover : (f.round s m q mode r).2.overflow = false) : ∃ k t, f.Rounds s mode (dyadic m q) (f.round s m q mode r) k t := by
  rcases le_or_gt (f.place m q) q with hexact | hcut
  · rw [Fp.round_shift hf s mode r hexact] at hover ⊢
    have hfit := Fp.fits_of_capped hover
    have hx : dyadic (m <<< (q - f.place m q).toNat) (f.place m q) = dyadic m q := (dyadic_eq_shift m hexact).symm
    rw [Fp.capped_of_fits hfit]
    exact ⟨_, _, f.canon_shift hm hexact, rfl, hx ▸ hfit, by simp [hx], _, _, f.neighbours_self _, hx ▸ mode.picks_self s _⟩
  · obtain ⟨d, hd, hplace⟩ : ∃ d : Nat, 0 < d ∧ f.place m q = q + d := ⟨(f.place m q - q).toNat, by omega, by omega⟩
    rw [Fp.round_cut hf s mode r hd hplace] at hover ⊢
    dsimp only at hover ⊢
    have hfit := Fp.fits_of_capped hover
    rw [Fp.capped_of_fits hfit]
    rw [carried_value] at hfit
    have hfloor := f.canon_floor hm hcut
    rw [hplace, add_sub_cancel_left, Int.toNat_natCast, Nat.shiftRight_eq_div_pow] at hfloor
    have hrem : m % 2 ^ d < 2 ^ d := Nat.mod_lt _ (by positivity)
    have hx := dyadic_split m d q
    have hlo := dyadic_mul_pow (m / 2 ^ d) d q
    have hhi := dyadic_mul_pow (m / 2 ^ d + 1) d q
    generalize m / 2 ^ d = k at *
    generalize m % 2 ^ d = rem at *
    rw [Nat.add_mul, Nat.one_mul] at hhi
    have hpick : (if roundUp mode s k rem d r then k + 1 else k) = k ∨ (if roundUp mode s k rem d r then k + 1 else k) = k + 1 := by
      split <;> simp
    rcases Nat.eq_zero_or_pos rem with h0 | h0
    · subst h0
      rw [Nat.add_zero, hlo] at hx
      simp only [roundUp_zero mode hmode, Bool.false_eq_true, if_false] at hfit ⊢
      have hval := carried_value f k (q + d)
      exact ⟨_, _, canon_carried hfloor (.inl rfl), rfl, by rwa [carried_value], by simp [hval, hx], _, _, f.neighbours_self _,
        by rw [hval, hx]; exact mode.picks_self s _⟩
    · have hbelow : dyadic k (q + d) < dyadic m q := by rw [hx, ← hlo, dyadic_lt]; omega
      have habove : dyadic m q < dyadic (k + 1) (q + d) := by rw [hx, ← hhi, dyadic_lt]; omega
      have hval := carried_value f (if roundUp mode s k rem d r then k + 1 else k) (q + d)
      refine ⟨_, _, canon_carried hfloor hpick, rfl, by rwa [carried_value], ?_, _, _, Fp.neighbours_floor hfloor hbelow habove, ?_⟩
      · rw [hval]
        rcases hpick with hk | hk
        · rw [hk]; simp [h0.ne', hbelow.ne]
        · rw [hk]; simp [h0.ne', habove.ne']
      · rw [hval, hx]
        exact roundUp_picks hmode s k r hd h0 hrem

/-! ## Signed values -/

/-- A magnitude with its sign. -/
def withSignOf (s : Bool) (v : ℚ) : ℚ := if s then -v else v

theorem signedMant_mul (s : Bool) (m : Nat) (q : Int) : (signedMant s m : ℚ) * 2 ^ q = withSignOf s (dyadic m q) := by
  cases s <;> simp [signedMant, withSignOf, dyadic]

theorem abs_withSignOf (s : Bool) (v : ℚ) : |withSignOf s v| = |v| := by cases s <;> simp [withSignOf]

theorem dyadic_nonneg (k : Nat) (t : Int) : 0 ≤ dyadic k t := by unfold dyadic; positivity

theorem dyadic_pos {k : Nat} (h : 0 < k) (t : Int) : 0 < dyadic k t := by unfold dyadic; positivity

theorem abs_withSignOf_sub (s : Bool) (v w : ℚ) : |withSignOf s v - withSignOf s w| = |v - w| := by
  cases s
  · rfl
  · rw [abs_sub_comm v w]
    congr 1
    simp only [withSignOf, if_true]
    ring

/-- Two signed magnitudes are no nearer than the magnitudes. -/
theorem abs_sub_le_withSignOf (s s' : Bool) {v w : ℚ} (hv : 0 ≤ v) (hw : 0 ≤ w) : |v - w| ≤ |withSignOf s v - withSignOf s' w| := by
  have h := abs_abs_sub_abs_le_abs_sub (withSignOf s v) (withSignOf s' w)
  rwa [abs_withSignOf, abs_withSignOf, abs_of_nonneg hv, abs_of_nonneg hw] at h

/-- A magnitude that lies on neither side of the neighbours is at least as far from x as they are. -/
theorem Fp.Neighbours.nearest {x lo hi y z : ℚ} {k : Nat} {t : Int} (h : f.Neighbours x lo hi) (hz : f.Canon k t) (hzv : z = dyadic k t)
    (hlo : |y - x| ≤ x - lo) (hhi : |y - x| ≤ hi - x) : |y - x| ≤ |z - x| := by
  rcases le_total z x with hle | hle
  · have hbelow := h.below k t hz (hzv ▸ hle)
    rw [abs_of_nonpos (sub_nonpos.2 hle)]
    linarith
  · have habove := h.above k t hz (hzv ▸ hle)
    rw [abs_of_nonneg (sub_nonneg.2 hle)]
    linarith

/-- In a rounding mode that has a side, the neighbour picked lies on it, and no value of the format between. -/
theorem Fp.Neighbours.directed {x lo hi y : ℚ} {s : Bool} (h : f.Neighbours x lo hi) (hx : 0 < x) (hy : 0 ≤ y) :
    (RMode.rup.picks s x lo hi y → withSignOf s x ≤ withSignOf s y ∧
      ∀ s' k t, f.Canon k t → withSignOf s x ≤ withSignOf s' (dyadic k t) → withSignOf s y ≤ withSignOf s' (dyadic k t)) ∧
    (RMode.rdn.picks s x lo hi y → withSignOf s y ≤ withSignOf s x ∧
      ∀ s' k t, f.Canon k t → withSignOf s' (dyadic k t) ≤ withSignOf s x → withSignOf s' (dyadic k t) ≤ withSignOf s y) := by
  have hlo := h.lo_le
  have hhi := h.le_hi
  constructor
  · rintro rfl
    cases s with
    | false =>
      refine ⟨hhi, fun s' k t hk hle => ?_⟩
      cases s' with
      | false => exact h.above k t hk hle
      | true => exact absurd (hle.trans (neg_nonpos.2 (dyadic_nonneg k t))) (not_le.2 hx)
    | true =>
      refine ⟨neg_le_neg hlo, fun s' k t hk hle => ?_⟩
      cases s' with
      | false => exact (neg_nonpos.2 hy).trans (dyadic_nonneg k t)
      | true => exact neg_le_neg (h.below k t hk (neg_le_neg_iff.1 hle))
  · rintro rfl
    cases s with
    | false =>
      refine ⟨hlo, fun s' k t hk hle => ?_⟩
      cases s' with
      | false => exact h.below k t hk hle
      | true => exact (neg_nonpos.2 (dyadic_nonneg k t)).trans hy
    | true =>
      refine ⟨neg_le_neg hhi, fun s' k t hk hle => ?_⟩
      cases s' with
      | false => exact absurd ((dyadic_nonneg k t).trans hle) (not_le.2 (neg_neg_of_pos hx))
      | true => exact neg_le_neg (h.above k t hk (neg_le_neg_iff.1 hle))

/-! ## A value that the format holds (R50) -/

/-- The parts of a magnitude stand at the format's place. -/
theorem Fp.place_le {k : Nat} {t : Int} (hk : 0 < k) (h : f.Canon k t) : f.place k t ≤ t := by
  have hlog : k.log2 < f.mBits + 1 := (Nat.log2_lt hk.ne').2 (by have := h.lt; rwa [pow_succ'])
  have hleast := h.least
  rw [Fp.place]
  omega

theorem Fp.Canon.unique {k j : Nat} {t u : Int} (hk : f.Canon k t) (hj : f.Canon j u) (h : dyadic k t = dyadic j u) :
    k = j ∧ t = u := by
  obtain ⟨a, -, ha⟩ := f.encode_parts false hk
  obtain ⟨b, -, hb⟩ := f.encode_parts false hj
  have hab : a = b := f.magVal_strictMono.injective (by rw [Fp.magVal, Fp.magVal, ha, hb]; exact h)
  rw [hab, hb] at ha
  simp only [Prod.mk.injEq] at ha
  exact ⟨ha.1.symm, ha.2.symm⟩

theorem Fp.parts_injective (f : Fp) : Function.Injective f.parts := fun a b h =>
  f.magVal_strictMono.injective (by rw [Fp.magVal, Fp.magVal, h])

/-- A finite value of the format is rounded to its own code. -/
theorem Fp.round_parts (hf : f.Sound) (s : Bool) {mag : Nat} (mode : RMode) (r : Nat) (hle : mag ≤ f.maxCode)
    (hpos : 0 < (f.parts mag).1) :
    f.round s (f.parts mag).1 (f.parts mag).2 mode r = (f.withSign s mag, {}) := by
  have hcanon := f.canon_parts mag
  have hplace := f.place_le hpos hcanon
  have hfit : dyadic (f.parts mag).1 (f.parts mag).2 ≤ f.magVal f.maxCode := f.magVal_strictMono.monotone hle
  rw [Fp.round_shift hf s mode r hplace, Fp.capped_of_fits hfit]
  obtain ⟨hk, ht⟩ := (f.canon_shift hpos hplace).unique hcanon (dyadic_eq_shift _ hplace).symm
  obtain ⟨mag', henc, hparts⟩ := f.encode_parts s hcanon
  rw [hk, ht, henc, f.parts_injective hparts]

end

/-- Settles O43: the parts of a finite magnitude stand at the format's least place, so that nothing of them is cut off. -/
theorem formatValuesRoundToThemselves : Obligations.FormatValuesRoundToThemselves := by
  intro fmt f code mode r hfmt hnan
  have hf := Fp.sound_ofCode hfmt
  obtain ⟨s, mag, hlt, hc⟩ := f.code_eq code
  rw [← f.decode_mod, hc] at hnan ⊢
  rw [Fp.decode_withSign hf hlt] at hnan ⊢
  simp only [castVal, hfmt]
  split at hnan
  · next h =>
    obtain ⟨hinf, rfl⟩ : f.hasInf = true ∧ mag = f.maxCode + 1 := by simpa using h
    simp [hinf]
  · next hinf =>
    rw [if_neg hinf]
    split at hnan
    · exact Bool.noConfusion hnan
    · next hfin =>
      have hle : mag ≤ f.maxCode := by
        cases hn : f.hasNan with
        | true => simpa [hn] using hfin
        | false => have := (hf.noNan hn).2; omega
      rw [if_neg hfin]
      dsimp only
      split
      · next hz =>
        have h0 : f.magVal mag = f.magVal 0 := by
          have hzero : (f.parts 0).1 = 0 := by simp [Fp.parts]
          simp [Fp.magVal, hz, hzero, dyadic]
        rw [f.magVal_strictMono.injective h0]
      · next hz => exact Fp.round_parts hf s mode r hle (Nat.pos_of_ne_zero hz)

/-- Settles O44: the rounding answers the neighbour that its mode picks (`Fp.round_rounds`), and every finite value of the format is a
canonical pair with a sign. -/
theorem roundingIsCorrect : Obligations.RoundingIsCorrect := by
  intro fmt f s m q mode r hfmt hm hmode val x out hover
  have hf := Fp.sound_ofCode hfmt
  obtain ⟨k, t, hR⟩ := Fp.round_rounds hf hm hmode hover
  obtain ⟨lo, hi, hN, hpick⟩ := hR.picked
  have hx : x = withSignOf s (dyadic m q) := signedMant_mul s m q
  have hxpos := dyadic_pos hm q
  have hy : val s k t = withSignOf s (dyadic k t) := signedMant_mul s k t
  have hy0 := dyadic_nonneg k t
  obtain ⟨hrup, hrdn⟩ := hN.directed (s := s) hxpos hy0
  refine ⟨s, k, t, by rw [show out.1 = _ from hR.code]; exact Fp.decode_encode hf s hR.canon hR.fits, ?_⟩
  have hval : ∀ c s2 m2 q2, f.decode c = .fin s2 m2 q2 → f.Canon m2 q2 := fun c s2 m2 q2 hc => by
    obtain ⟨mag, -, -, hparts⟩ := Fp.finite_of_decode hf hc
    simpa [hparts] using f.canon_parts mag
  refine ⟨?_, ?_, ?_, ?_, fun c s2 m2 q2 hc => ?_⟩
  · have hne : val s k t ≠ x ↔ dyadic k t ≠ dyadic m q := by
      rw [hy, hx]
      cases s <;> simp [withSignOf]
    rw [Bool.eq_iff_iff, decide_eq_true_iff, hne]
    exact hR.inexact
  · rintro rfl
    rw [hy, hx, abs_withSignOf, abs_withSignOf, abs_of_nonneg hy0, abs_of_pos hxpos, show dyadic k t = lo from hpick]
    exact hN.lo_le
  · rintro rfl
    rw [hy, hx]
    exact (hrup hpick).1
  · rintro rfl
    rw [hy, hx]
    exact (hrdn hpick).1
  · have hz := hval c s2 m2 q2 hc
    have hz0 := dyadic_nonneg m2 q2
    have hzv : val s2 m2 q2 = withSignOf s2 (dyadic m2 q2) := signedMant_mul s2 m2 q2
    dsimp only
    rw [hzv, hy, hx]
    refine ⟨?_, ?_, ?_, ?_⟩
    · rintro rfl
      obtain ⟨hlo, hhi⟩ := hpick
      rw [abs_withSignOf_sub]
      exact (hN.nearest hz rfl hlo hhi).trans (abs_sub_le_withSignOf s2 s hz0 hxpos.le)
    · rintro rfl hle
      rw [abs_withSignOf, abs_withSignOf, abs_of_nonneg hz0, abs_of_pos hxpos] at hle
      rw [abs_withSignOf, abs_withSignOf, abs_of_nonneg hz0, abs_of_nonneg hy0, show dyadic k t = lo from hpick]
      exact hN.below m2 q2 hz hle
    · rintro rfl hle
      exact (hrup hpick).2 s2 m2 q2 hz hle
    · rintro rfl hle
      exact (hrdn hpick).2 s2 m2 q2 hz hle

end Sys2Proof.Machine

/-! # Equal shares (R331, R332) -/

namespace Sys2Proof.Machine

/-- How many of the islands still want something. -/
def unmet (l : List (Nat × Nat × Nat)) : Nat := (l.filter fun x => x.2.1 != 0).length

/-- What one round grants, a share each. -/
def roundSum (share : Nat) (l : List (Nat × Nat × Nat)) : Nat := (l.map fun x => min share x.2.1).sum

/-- The islands after a round. -/
def afterRound (share : Nat) (l : List (Nat × Nat × Nat)) : List (Nat × Nat × Nat) :=
  l.map fun x => (x.1, x.2.1 - min share x.2.1, x.2.2 + min share x.2.1)

/-- The filling ends where no island wants anything or the budget holds less than a share. -/
theorem fillShares_stop {fuel b : Nat} {l : List (Nat × Nat × Nat)} (h : unmet l = 0 ∨ b < unmet l) : fillShares fuel b l = l := by
  cases fuel with
  | zero => rfl
  | succ fuel =>
    refine if_pos ?_
    change (if unmet l = 0 then 0 else b / unmet l) = 0
    rcases h with h | h
    · exact if_pos h
    · rw [Nat.div_eq_of_lt h, ite_self]

theorem fillShares_round {fuel b : Nat} {l : List (Nat × Nat × Nat)} (h0 : unmet l ≠ 0) (hb : unmet l ≤ b) :
    fillShares (fuel + 1) b l
      = fillShares fuel (b - roundSum (b / unmet l) l) (afterRound (b / unmet l) l) := by
  have hshare : (if unmet l = 0 then 0 else b / unmet l) = b / unmet l := if_neg h0
  have hpos : ¬ b / unmet l = 0 := (Nat.div_pos hb (Nat.pos_of_ne_zero h0)).ne'
  rw [fillShares]
  change (if (if unmet l = 0 then 0 else b / unmet l) = 0 then l else _) = _
  rw [hshare, if_neg hpos]
  change fillShares fuel (b - roundSum (if unmet l = 0 then 0 else b / unmet l) l)
    (afterRound (if unmet l = 0 then 0 else b / unmet l) l) = _
  rw [hshare]

theorem unmet_cons (x : Nat × Nat × Nat) (l : List (Nat × Nat × Nat)) : unmet (x :: l) = (if x.2.1 = 0 then 0 else 1) + unmet l := by
  by_cases h : x.2.1 = 0 <;> simp [unmet, h, Nat.add_comm]

/-- A round grants a share at most to each island that wants something, and just that to each that it does not fill. -/
theorem round_grants (share : Nat) (l : List (Nat × Nat × Nat)) :
    roundSum share l ≤ unmet l * share ∧ unmet (afterRound share l) ≤ unmet l ∧
    (unmet (afterRound share l) = unmet l → roundSum share l = unmet l * share) := by
  induction l with
  | nil => simp [roundSum, unmet, afterRound]
  | cons x l ih =>
    obtain ⟨hsum, hle, heq⟩ := ih
    have hround : roundSum share (x :: l) = min share x.2.1 + roundSum share l := List.sum_cons
    have hafter : unmet (afterRound share (x :: l)) = (if x.2.1 - min share x.2.1 = 0 then 0 else 1) + unmet (afterRound share l) :=
      unmet_cons _ _
    rw [hround, hafter, unmet_cons, Nat.add_mul]
    by_cases hx : x.2.1 = 0
    · simpa [hx] using ⟨hsum, hle, heq⟩
    · rw [if_neg hx, Nat.one_mul]
      split <;> omega

theorem sum_afterRound (share : Nat) (l : List (Nat × Nat × Nat)) :
    ((afterRound share l).map (·.2.2)).sum = (l.map (·.2.2)).sum + roundSum share l := by
  rw [afterRound, List.map_map, roundSum, ← List.sum_map_add]
  rfl

theorem afterRound_wants (share : Nat) (l : List (Nat × Nat × Nat)) :
    (afterRound share l).map (fun x => (x.1, x.2.1 + x.2.2)) = l.map fun x => (x.1, x.2.1 + x.2.2) := by
  rw [afterRound, List.map_map]
  refine List.map_congr_left fun x _ => Prod.ext rfl ?_
  simp only [Function.comp_apply]
  omega

theorem all_met_of_unmet {l : List (Nat × Nat × Nat)} (h : unmet l = 0) : ∀ x ∈ l, x.2.1 = 0 := by
  simpa [unmet] using h

/-- As long as a round may be left for every island that wants something, or less than a share is left, the filling ends as R331 says. -/
theorem fillShares_ends (fuel b : Nat) (l : List (Nat × Nat × Nat)) (h : unmet l ≤ fuel ∨ b < unmet l) :
    (∀ x ∈ fillShares fuel b l, x.2.1 = 0) ∨
      (l.map (·.2.2)).sum + b < ((fillShares fuel b l).map (·.2.2)).sum + unmet (fillShares fuel b l) := by
  induction fuel generalizing b l with
  | zero =>
    rcases h with h | h
    · exact .inl (all_met_of_unmet (Nat.le_zero.1 h))
    · exact .inr (Nat.add_lt_add_left h _)
  | succ fuel ih =>
    by_cases h0 : unmet l = 0
    · rw [fillShares_stop (.inl h0)]
      exact .inl (all_met_of_unmet h0)
    · by_cases hb : b < unmet l
      · rw [fillShares_stop (.inr hb)]
        exact .inr (Nat.add_lt_add_left hb _)
      · rw [fillShares_round h0 (Nat.le_of_not_lt hb)]
        obtain ⟨hsum, hle, heq⟩ := round_grants (b / unmet l) l
        have hshare := Nat.mul_div_le b (unmet l)
        have hrest := Nat.lt_mul_div_succ b (Nat.pos_of_ne_zero h0)
        rw [Nat.mul_add, Nat.mul_one] at hrest
        have hnext := ih (b - roundSum (b / unmet l) l) (afterRound (b / unmet l) l) (by omega)
        rw [sum_afterRound] at hnext
        exact hnext.imp_right fun hlt => by omega

/-- Settles O7: a round keeps want plus grant of each island and what is granted plus what is left (`round_grants`), so every number of
rounds does. -/
theorem equalSharesStayWithinBudget : Obligations.EqualSharesStayWithinBudget := by
  intro fuel b l
  have hkeep : (fillShares fuel b l).map (fun x => (x.1, x.2.1 + x.2.2)) = l.map (fun x => (x.1, x.2.1 + x.2.2)) ∧
      ((fillShares fuel b l).map (·.2.2)).sum ≤ (l.map (·.2.2)).sum + b := by
    induction fuel generalizing b l with
    | zero => exact ⟨rfl, Nat.le_add_right _ _⟩
    | succ fuel ih =>
      by_cases hstop : unmet l = 0 ∨ b < unmet l
      · rw [fillShares_stop hstop]
        exact ⟨rfl, Nat.le_add_right _ _⟩
      · rw [not_or, Nat.not_lt] at hstop
        obtain ⟨h0, hb⟩ := hstop
        obtain ⟨hwants, hgrants⟩ := ih (b - roundSum (b / unmet l) l) (afterRound (b / unmet l) l)
        have hround := (round_grants (b / unmet l) l).1
        have hshare := Nat.mul_div_le b (unmet l)
        rw [sum_afterRound] at hgrants
        rw [fillShares_round h0 hb]
        exact ⟨hwants.trans (afterRound_wants _ l), by omega⟩
  refine ⟨hkeep.1, hkeep.2, fun hfuel => fillShares_ends fuel b l (.inl ?_)⟩
  exact (List.length_filter_le _ l).trans hfuel

end Sys2Proof.Machine

/-! # The core map at reset (R113, R120, R380)

`boundOnce_placing` says of the cores that have a position that none is placed twice; here the guests and those without either follow, by
one invariant of the placing of each core that is left. -/

namespace Sys2Proof.Machine

section
variable {per : Nat} {healthy : List Nat} {p : Placing} {n : Nat}

/-- Every core that a placing names, where it went. -/
def Placing.all (p : Placing) : List Nat := p.bound.map Prod.fst ++ p.guests.map Prod.fst ++ p.lost

/-- The hosts are bound, one guest each; there are guests only where no healthy position is free, and a core with neither only where every
bound core is a host. -/
structure Hosted (healthy : List Nat) (p : Placing) : Prop where
  once : (p.guests.map Prod.snd).Nodup
  bound : ∀ h ∈ p.guests.map Prod.snd, h ∈ p.bound.map Prod.fst
  full : p.guests ≠ [] ∨ p.lost ≠ [] → ∀ i ∈ healthy, i ∈ p.bound.map Prod.snd
  doubled : p.lost ≠ [] → ∀ h ∈ p.bound.map Prod.fst, h ∈ p.guests.map Prod.snd

/-- May core h be the host of a guest (R120)? -/
def Placing.canHost (p : Placing) (h : Nat) : Bool := (p.bound.any fun (k, _) => k == h) && !(p.guests.any fun (_, k) => k == h)

theorem any_fst_eq {l : List (Nat × Nat)} {h : Nat} : (l.any fun (k, _) => k == h) = true ↔ h ∈ l.map Prod.fst := by
  rw [List.any_eq_true, List.mem_map]
  exact exists_congr fun x => and_congr_right fun _ => beq_iff_eq

theorem any_snd_eq {l : List (Nat × Nat)} {h : Nat} : (l.any fun (_, k) => k == h) = true ↔ h ∈ l.map Prod.snd := by
  rw [List.any_eq_true, List.mem_map]
  exact exists_congr fun x => and_congr_right fun _ => beq_iff_eq

theorem Placing.canHost_iff {h : Nat} : p.canHost h = true ↔ h ∈ p.bound.map Prod.fst ∧ h ∉ p.guests.map Prod.snd := by
  rw [Placing.canHost, Bool.and_eq_true, any_fst_eq, Bool.not_eq_true', ← Bool.not_eq_true, any_snd_eq]

/-- Where one core more goes: to a free healthy position; to a host where there is none; nowhere where there is no host either. -/
theorem placeLeft_cases (per : Nat) (healthy : List Nat) (p : Placing) (n : Nat) :
    (∃ i ∈ healthy, i ∉ p.bound.map Prod.snd ∧ placeLeft per healthy p n = { p with bound := p.bound ++ [(n, i)] }) ∨
    (∀ i ∈ healthy, i ∈ p.bound.map Prod.snd) ∧
      ((∃ h, p.canHost h = true ∧ placeLeft per healthy p n = { p with guests := p.guests ++ [(n, h)] }) ∨
        (∀ h < 2 * per, p.canHost h = false) ∧ placeLeft per healthy p n = { p with lost := p.lost ++ [n] }) := by
  unfold placeLeft
  split
  next i hi =>
    have hfree := List.find?_some hi
    rw [Bool.not_eq_true', ← Bool.not_eq_true, any_snd_eq] at hfree
    exact .inl ⟨i, List.mem_of_find?_eq_some hi, hfree, rfl⟩
  next hnone =>
    refine .inr ⟨fun i hi => ?_, ?_⟩
    · have hany := List.find?_eq_none.1 hnone i hi
      rwa [Bool.not_eq_true', Bool.not_eq_false, any_snd_eq] at hany
    · dsimp only
      split
      next h l hl =>
        have hmem : h ∈ h :: l := List.mem_cons_self
        rw [← hl, List.mem_append, List.mem_filter, List.mem_filter] at hmem
        refine .inl ⟨h, ?_, rfl⟩
        rcases hmem with ⟨-, hok⟩ | ⟨-, hok⟩ <;> exact (Bool.and_eq_true _ _ ▸ hok).1
      next hl =>
        obtain ⟨hmine, hother⟩ := List.append_eq_nil_iff.1 hl
        refine .inr ⟨fun h hlt => Bool.eq_false_iff.2 fun hok => ?_, rfl⟩
        by_cases hdie : h / per = n / per
        · exact List.filter_eq_nil_iff.1 hmine h (List.mem_range.2 hlt) (Bool.and_eq_true _ _ ▸ ⟨hok, beq_iff_eq.2 hdie⟩)
        · exact List.filter_eq_nil_iff.1 hother h (List.mem_range.2 hlt) (Bool.and_eq_true _ _ ▸ ⟨hok, bne_iff_ne.2 hdie⟩)

/-- One core more is named once more, and the invariant holds. -/
theorem Hosted.placeLeft (h : Hosted healthy p) (hlt : ∀ x ∈ p.bound, x.1 < 2 * per) (n : Nat) :
    Hosted healthy (placeLeft per healthy p n) ∧ (placeLeft per healthy p n).all.Perm (p.all ++ [n]) := by
  rcases placeLeft_cases per healthy p n with ⟨i, hi, hfree, hadd⟩ | ⟨hfull, ⟨c, hok, hadd⟩ | ⟨hno, hadd⟩⟩
  · have hnone : ¬ (p.guests ≠ [] ∨ p.lost ≠ []) := fun hsome => hfree (h.full hsome i hi)
    obtain ⟨hguests, hlost⟩ : p.guests = [] ∧ p.lost = [] := by simpa [not_or] using hnone
    rw [hadd]
    exact ⟨⟨by simp [hguests], by simp [hguests], fun hsome => absurd hsome hnone, fun hsome => absurd hlost hsome⟩,
      by simp [Placing.all, hguests, hlost]⟩
  · obtain ⟨hbound, hnew⟩ := Placing.canHost_iff.1 hok
    have hlost : p.lost = [] := by
      by_contra hsome
      exact hnew (h.doubled hsome c hbound)
    rw [hadd]
    refine ⟨⟨?_, ?_, fun _ => hfull, fun hsome => absurd hlost hsome⟩, by simp [Placing.all, hlost]⟩
    · rw [List.map_append]
      exact h.once.append (List.nodup_singleton c) (by simpa using hnew)
    · rw [List.map_append]
      exact List.forall_mem_append.2 ⟨h.bound, by simpa using hbound⟩
  · rw [hadd]
    refine ⟨⟨h.once, h.bound, fun _ => hfull, fun _ c hc => ?_⟩, by simp [Placing.all]⟩
    obtain ⟨x, hx, rfl⟩ := List.mem_map.1 hc
    by_contra hnew
    exact absurd (hno x.1 (hlt x hx)) (Bool.not_eq_false _ ▸ Placing.canHost_iff.2 ⟨hc, hnew⟩)

theorem boundOnce_of_nodup_append {l : List Nat} (hb : BoundOnce per healthy p.bound) (h : (p.all ++ n :: l).Nodup) (hlt : n < 2 * per) :
    BoundOnce per healthy (placeLeft per healthy p n).bound := by
  refine boundOnce_foldl (l := [n]) (List.nodup_singleton n) hb fun k hk => ?_
  obtain rfl := List.mem_singleton.1 hk
  exact ⟨hlt, fun hmem => (List.disjoint_of_nodup_append h) (List.mem_append_left _ (List.mem_append_left _ hmem)) List.mem_cons_self⟩

/-- The placing of the cores that are left: each is named once, the bound ones stay, and the invariant holds. -/
theorem hosted_foldl (l : List Nat) (h : Hosted healthy p) (hb : BoundOnce per healthy p.bound)
    (hall : (p.all ++ l).Perm (List.range (2 * per))) :
    let q := l.foldl (placeLeft per healthy) p
    Hosted healthy q ∧ q.all.Perm (List.range (2 * per)) ∧ ∀ x ∈ p.bound, x ∈ q.bound := by
  induction l generalizing p with
  | nil => exact ⟨h, by simpa using hall, fun x hx => hx⟩
  | cons n l ih =>
    obtain ⟨hstep, hperm⟩ := h.placeLeft hb.core_lt n
    have hnodup : (p.all ++ n :: l).Nodup := hall.nodup_iff.2 List.nodup_range
    have hlt : n < 2 * per := List.mem_range.1 (hall.subset (List.mem_append_right _ List.mem_cons_self))
    have hall' : ((placeLeft per healthy p n).all ++ l).Perm (List.range (2 * per)) :=
      (hperm.append_right l).trans (by simpa using hall)
    obtain ⟨hend, hnamed, hkept⟩ := ih hstep (boundOnce_of_nodup_append hb hnodup hlt) hall'
    refine ⟨hend, hnamed, fun x hx => hkept x ?_⟩
    rcases placeLeft_bound (per := per) (healthy := healthy) p n with hsame | ⟨i, -, -, hadd⟩
    · rwa [hsame]
    · rw [hadd]
      exact List.mem_append_left _ hx

/-- Core k of a die is at the die's healthy position k, where it has as many. -/
theorem mem_placeHome {d k i : Nat} (hd : d < 2) (hk : k < per) (hi : (healthy.filter fun i => i / 64 == d)[k]? = some i) :
    (per * d + k, i) ∈ placeHome per healthy := by
  refine List.mem_flatMap.2 ⟨d, by interval_cases d <;> simp, List.mem_iff_getElem?.2 ⟨k, ?_⟩⟩
  rw [List.getElem?_zip_eq_some]
  exact ⟨by simp [hk], hi⟩

end

/-- Settles O13: the cores that are left take a position, a host or neither, in the order of their numbers, and each keeps `Hosted`. -/
theorem coreMapAtReset : Obligations.CoreMapAtReset := by
  intro per healthy hnodup _ p
  have hhome := boundOnce_placeHome (per := per) hnodup
  have hbound : BoundOnce per healthy p.bound := boundOnce_placing hnodup
  have hstart : Hosted healthy { bound := placeHome per healthy } :=
    ⟨List.nodup_nil, by simp, by simp, by simp⟩
  have hall : (({ bound := placeHome per healthy } : Placing).all ++
      (List.range (2 * per)).filter fun n => !(placeHome per healthy).any fun (k, _) => k == n).Perm (List.range (2 * per)) := by
    have hleft : ∀ n, n ∈ ((List.range (2 * per)).filter fun n => !(placeHome per healthy).any fun (k, _) => k == n) ↔
        n < 2 * per ∧ n ∉ (placeHome per healthy).map Prod.fst := fun n => by
      rw [List.mem_filter, List.mem_range, Bool.not_eq_true', ← Bool.not_eq_true, any_fst_eq]
    simp only [Placing.all, List.map_nil, List.append_nil]
    refine (List.perm_ext_iff_of_nodup (hhome.cores.append (List.nodup_range.filter _) fun n hn hn' => ((hleft n).1 hn').2 hn)
      List.nodup_range).2 fun n => ?_
    rw [List.mem_append, hleft, List.mem_range]
    constructor
    · rintro (hn | ⟨hn, -⟩)
      · obtain ⟨x, hx, rfl⟩ := List.mem_map.1 hn
        exact hhome.core_lt x hx
      · exact hn
    · exact fun hn => (Classical.em _).imp_right fun hnot => ⟨hn, hnot⟩
  obtain ⟨hosted, hperm, hkept⟩ := hosted_foldl _ hstart hhome hall
  refine ⟨fun d k i hd hk hi => hkept _ (mem_placeHome hd hk hi), hperm, hbound.places, hbound.healthy, hosted.once, fun x hx => ?_,
    fun hsome i hi => ?_, fun hsome => ?_⟩
  · obtain ⟨⟨n, i⟩, hmem, hn⟩ := List.mem_map.1 (hosted.bound _ (List.mem_map_of_mem hx))
    exact ⟨i, hn ▸ hmem⟩
  · obtain ⟨⟨n, j⟩, hmem, rfl⟩ := List.mem_map.1 (hosted.full (.inl hsome) i hi)
    exact ⟨n, hmem⟩
  · have hsame : (p.guests.map Prod.snd).Perm (p.bound.map Prod.fst) :=
      (List.perm_ext_iff_of_nodup hosted.once hbound.cores).2 fun h => ⟨hosted.bound h, hosted.doubled hsome h⟩
    simpa using hsame.length_eq

end Sys2Proof.Machine

/-! # Operating points (R334, R335) -/

namespace Sys2Proof.Machine

/-! ## What the limit allows -/

/-- The point that the limit allows (R334). -/
def limitPoint (lim : Nat) : Nat :=
  match lim with
  | 0 => 0
  | 1 => 1
  | 2 => 2
  | 3 => 5
  | _ => 3

theorem limitPoint_eq (lim : Nat) : limitPoint lim = [0, 1, 2, 5, 3].getD lim 3 := by
  match lim with
  | 0 | 1 | 2 | 3 | 4 => rfl
  | _ + 5 => rfl

/-- What PWR_POSn_OP shows of a position set to a preferred point (Table 13-6). -/
def M.pointWord (s : M) (pos pref : Nat) : Nat :=
  s.limitCode <<< 8 + pref <<< 4 + (if bits (s.reg (Reg.pwrPosOp pos)) 2 0 = 7 then 7 else max pref (limitPoint s.limitCode))

/-! ## Setting a position's point -/

section
variable {C : Nat → Prop} {s : M}

/-- What notes events, as a part of bring-up, changes nothing else. -/
theorem keepsUp_of_noted {α : Type} {a : Act α} (hC : ∀ o, Reg.ofNotes o → C o) (hn : ∀ t : M, Keeps (t.noted True) a)
    (hw : KeepsWf a) : Keeps (s.bringsUp C) a := fun t h => h.trans ((hn t t (.refl True t)).bringsUp (hw t h.wf)) hC

theorem keepsNoted_posEvent (still : Prop) (pos code n : Nat) : Keeps (s.noted still) (posEvent pos code n) :=
  keeps_getThen fun _ => keepsNoted_posCount _ _ _ _ _ _

theorem keepsUp_posEvent (hC : ∀ o, Reg.ofNotes o → C o) (pos code n : Nat) : Keeps (s.bringsUp C) (posEvent pos code n) :=
  keepsUp_of_noted hC (fun _ => keepsNoted_posEvent True pos code n) (keepsWf_posEvent pos code n)

/-- The registers that setting a position's point writes. -/
def Reg.ofPoint (pos o : Nat) : Prop := Reg.ofNotes o ∨ o = Reg.pwrPosOp pos

theorem keepsUp_setPoint {pos : Nat} (hC : ∀ o, Reg.ofPoint pos o → C o) (pref : Nat) : Keeps (s.bringsUp C) (setPoint pos pref) :=
  keeps_getThen fun _ => keeps_ite (keepsUp_wr (hC _ (.inr rfl)) _)
    (keeps_bind (keeps_whenA (keepsUp_posEvent (fun o ho => hC o (.inl ho)) _ _ _)) fun _ =>
      keeps_bind (keepsUp_wr (hC _ (.inr rfl)) _) fun _ => keepsUp_updPos _ _)

/-- The governor changes a position's registers, its clock and what counts events, and nothing else. -/
theorem setPoint_bringsUp (hw : s.wf = true) (pos pref : Nat) : s.bringsUp (Reg.ofPoint pos) (setPoint pos pref s).2 :=
  keepsUp_setPoint (fun _ h => h) pref s (.refl hw)

theorem run_setPoint (pos pref : Nat) (s : M) : setPoint pos pref s =
    if bits (s.reg (Reg.pwrPosOp pos)) 2 0 = 7 then wr (Reg.pwrPosOp pos) (s.pointWord pos pref) s
    else (do
      whenA (bits (s.reg (Reg.pwrPosOp pos)) 2 0 != max pref (limitPoint s.limitCode)) (posEvent pos 0x132 1)
      wr (Reg.pwrPosOp pos) (s.pointWord pos pref)
      updPos pos fun x => { x with clk := max x.clk (max pref (limitPoint s.limitCode)) } : Act Unit) s := by
  by_cases h : bits (s.reg (Reg.pwrPosOp pos)) 2 0 = 7
  · rw [M.pointWord, if_pos h, if_pos h]
    exact congrFun (if_pos h) s
  · rw [M.pointWord, if_neg h, if_neg h]
    exact congrFun (if_neg h) s

/-- What a position shows after its point is set. -/
theorem setPoint_shows (hw : s.wf = true) (pos pref : Nat) :
    (setPoint pos pref s).2.reg (Reg.pwrPosOp pos) = s.pointWord pos pref := by
  rw [run_setPoint]
  split
  · rw [run_wr, M.reg_setReg_self s _ _ hw]
  · simp only [run_bind, run_wr, updPos, run_modify]
    exact M.reg_setReg_self _ _ _ (keepsWf_whenA (keepsWf_posEvent _ _ _) s hw)

theorem posX_putPos (hw : s.wf = true) (i : Nat) (x : PosX) : ({ s with pos := Tab.put PosX.init s.pos i x } : M).posX i = x :=
  Tab.read_put_self _ _ _ _ (by simp_all [M.wf])

/-- The clock that runs in a position after its point is set: a slower one at once. -/
theorem setPoint_clk (hw : s.wf = true) (pos pref : Nat) (h : bits (s.reg (Reg.pwrPosOp pos)) 2 0 ≠ 7) :
    ((setPoint pos pref s).2.posX pos).clk = max (s.posX pos).clk (max pref (limitPoint s.limitCode)) := by
  rw [run_setPoint, if_neg h]
  simp only [run_bind, run_wr, updPos, run_modify]
  have hev : ∀ c, (whenA c (posEvent pos 0x132 1) s).2.posX pos = s.posX pos := fun c => by
    have hn := keeps_whenA (c := c) (keepsNoted_posEvent True pos 0x132 1) s (.refl True s)
    exact congrArg (Tab.read PosX.init · pos) (congrArg M.pos hn.rest :)
  rw [posX_putPos (M.wf_setReg _ _ (keepsWf_whenA (keepsWf_posEvent _ _ _) s hw))]
  simp only [M.posX_setReg, hev]

theorem M.limitCode_congr {t : M} (hg : t.gov = s.gov) (hst : t.reg Reg.pwrStatus = s.reg Reg.pwrStatus)
    (hctl : t.reg Reg.pwrCtl = s.reg Reg.pwrCtl) : t.limitCode = s.limitCode := by
  unfold M.limitCode M.capEff
  rw [hg, hst, hctl]

end

/-! ## OFF and wake -/

/-- The point at which the limit and the preference put a waking position. -/
theorem setPoint_wakes {s : M} (hw : s.wf = true) (pos pref : Nat) :
    let t := { s.setReg (Reg.pwrPosOp pos) (setBits (s.reg (Reg.pwrPosOp pos)) 2 0 5) with
      pos := Tab.put PosX.init s.pos pos { s.posX pos with clk := 0 } }
    let m := (setPoint pos pref t).2
    m.reg (Reg.pwrPosOp pos) = s.limitCode <<< 8 + pref <<< 4 + max pref (limitPoint s.limitCode) ∧
    (m.posX pos).clk = max pref (limitPoint s.limitCode) ∧ s.sameStores m ∧ m.cores = s.cores := by
  intro t m
  have hwr : (s.setReg (Reg.pwrPosOp pos) (setBits (s.reg (Reg.pwrPosOp pos)) 2 0 5)).wf = true := M.wf_setReg _ _ hw
  have hwt : t.wf = true := M.wf_putPos _ _ hwr
  have hself : t.reg (Reg.pwrPosOp pos) = setBits (s.reg (Reg.pwrPosOp pos)) 2 0 5 := M.reg_setReg_self s _ _ hw
  have hon : bits (t.reg (Reg.pwrPosOp pos)) 2 0 = 5 := by
    rw [hself, bits_setBits_self (by decide)]
    rfl
  have hlim : t.limitCode = s.limitCode := M.limitCode_congr rfl
    (M.reg_setReg_other s _ (by simp only [Reg.pwrStatus, Reg.pwrPosOp]; omega))
    (M.reg_setReg_other s _ (by simp only [Reg.pwrCtl, Reg.pwrPosOp]; omega))
  have hup : t.bringsUp (Reg.ofPoint pos) m := setPoint_bringsUp hwt pos pref
  have hshow : m.reg (Reg.pwrPosOp pos) = _ := setPoint_shows hwt pos pref
  have hclk : (m.posX pos).clk = _ := setPoint_clk hwt pos pref (by rw [hon]; decide)
  rw [M.pointWord, hon, hlim, if_neg (by decide)] at hshow
  rw [show t.posX pos = { s.posX pos with clk := 0 } from posX_putPos hwr pos _, hlim, Nat.zero_max] at hclk
  exact ⟨hshow, hclk, ⟨(congrArg M.mem hup.rest :), (congrArg M.chk hup.rest :)⟩, (congrArg M.cores hup.rest :)⟩

/-- Settles O10: each command by its guard; a position that wakes is set from OP5 with no clock, so that it takes the chosen point at
once (`setPoint_wakes`). -/
theorem positionsSleepAndWake : Obligations.PositionsSleepAndWake := by
  intro s pos hl op
  refine ⟨fun idleMs hctl hidle hun hop => ?_, fun idleMs h => ?_, fun hw _ hop h => ?_, fun hop => ?_, fun hop => ?_, fun hop => ?_⟩
  · rw [exec, execPositionOff, State.doing_live s _ hl]
    simp only [op] at hop
    simp [hctl, hidle, hun, hop, updPos, State.becomes]
  · have hguard : (bit (s.m.reg Reg.pwrCtl) 0 && decide (idleMs ≥ 1) && s.m.posUnused pos && op != 7) = false := by
      rcases h with h | h | h | h <;> simp [h]
    rw [exec, execPositionOff, State.doing_live s _ hl]
    simp only [run_bind, run_get]
    simp only [op] at hguard
    rw [hguard]
    rfl
  · have hguard : (op == 7 && (!s.m.posUnused pos || !bit (s.m.reg Reg.pwrCtl) 0)) = true := by
      rcases h with h | h <;> simp [hop, h]
    have hwake := setPoint_wakes hw pos (s.m.preferred pos)
    rw [limitPoint_eq] at hwake
    refine ⟨_, ?_, hwake⟩
    rw [exec, execPositionWakeDone, State.doing_live s _ hl]
    simp only [run_bind, run_get]
    simp only [op] at hguard
    rw [hguard]
    rfl
  · rw [exec, execPositionWakeDone, State.doing_live s _ hl]
    simp only [op] at hop
    simp [hop]
  · rw [exec, execOperatingPointReached, State.doing_live s _ hl]
    simp only [op] at hop
    simp [hop, op, updPos, State.becomes]
  · rw [exec, execOperatingPointReached, State.doing_live s _ hl]
    simp only [op] at hop
    simp [hop]

end Sys2Proof.Machine

/-! # What notes errors and events (R316, R317, R362) -/

namespace Sys2Proof.Machine

theorem M.toHost_regs (s : M) (o : Output) : (s.toHost o).regs = s.regs := by
  unfold M.toHost
  split <;> rfl

theorem M.toHost_logBuf (s : M) (o : Output) : (s.toHost o).logBuf = s.logBuf := by
  unfold M.toHost
  split <;> rfl

theorem M.toHost_events (s : M) (o : Output) : (s.toHost o).cxl.events = s.cxl.events := by
  unfold M.toHost
  split <;> rfl

section
variable {still : Prop} {s : M}

theorem keepsNoted_raiseEvent (cause : Nat) : Keeps (s.noted still) (raiseEvent cause) :=
  keeps_bind (keepsNoted_freeVal 2) fun _ => keeps_bind (fun _ h => ⟨h.regs, h.rest, h.stores⟩) fun _ _ h => h.toHost _

/-- A record has formed after `logAdd`. -/
theorem logAdd_logs (hw : s.wf = true) (kind island step logical queue entry : Nat) (pl : List Byte) :
    s.logs (logAdd kind island step logical queue entry pl s).2 kind island := by
  have hlost : ∀ (c : Bool) (t : M), (whenA c (addReg 32 Reg.chkLogLost 1) t).2.reg Reg.chkLogWr = t.reg Reg.chkLogWr := fun c t => by
    cases c with
    | false => rfl
    | true => exact M.reg_setReg_other t _ (by decide)
  unfold logAdd
  simp only [run_bind, run_get, run_wr, run_modify, run_hostEmit]
  refine ⟨?_, _, by rw [M.toHost_logBuf, List.getLast?_concat], rfl, rfl, rfl⟩
  rw [M.reg, M.toHost_regs]
  exact (hlost _ _).trans (M.reg_setReg_self s _ _ hw)

/-- A record raises no event. -/
theorem logAdd_events (kind island step logical queue entry : Nat) (pl : List Byte) :
    (logAdd kind island step logical queue entry pl s).2.cxl.events = s.cxl.events := by
  have hlost : ∀ (c : Bool) (t : M), (whenA c (addReg 32 Reg.chkLogLost 1) t).2.cxl.events = t.cxl.events := fun c t => by
    cases c <;> rfl
  unfold logAdd
  simp only [run_bind, run_get, run_wr, run_modify, run_hostEmit, M.toHost_events]
  exact hlost _ _

/-- A record stays the last of the log while nothing else is logged. -/
theorem M.logs.congr {t u : M} {kind island : Nat} (h : s.logs t kind island) (hbuf : u.logBuf = t.logBuf)
    (hreg : u.reg Reg.chkLogWr = t.reg Reg.chkLogWr) : s.logs u kind island := by
  unfold M.logs
  rw [hbuf, hreg]
  exact h

/-- The record counts from what the log held. -/
theorem M.logs.from {r t : M} {kind island : Nat} (h : s.logs t kind island) (hreg : s.reg Reg.chkLogWr = r.reg Reg.chkLogWr) :
    r.logs t kind island := by
  unfold M.logs
  rw [← hreg]
  exact h

theorem raiseEvent_raises (cause : Nat) : s.raises (raiseEvent cause s).2 cause := by
  unfold raiseEvent
  simp only [run_bind, run_freeVal, run_modify, run_hostEmit]
  exact ⟨_, M.toHost_events _ _⟩

/-- Raising an event changes no register. -/
theorem raiseEvent_regs (cause : Nat) : (raiseEvent cause s).2.regs = s.regs := by
  unfold raiseEvent
  simp only [run_bind, run_freeVal, run_modify, run_hostEmit, M.toHost_regs]

end

end Sys2Proof.Machine

/-! # Droop and trims (R339, R340) -/

namespace Sys2Proof.Machine

theorem toSigned_ofSigned_8 {x : Int} (hlo : -25 ≤ x) (hhi : x ≤ 25) : toSigned 8 (ofSigned 8 x) = x := by
  have h : ∀ k : Fin 51, toSigned 8 (ofSigned 8 (k.val - 25)) = k.val - 25 := by decide
  have hk := h ⟨(x + 25).toNat, by omega⟩
  rwa [show (((x + 25).toNat : Nat) : Int) - 25 = x by omega] at hk

/-- What a trim shows: the steps in the upper half, the offset in the lowest byte. -/
theorem trimWord_bits (n : Nat) {x : Nat} (hn : n < 2 ^ 16) (hx : x < 2 ^ 8) :
    bits (n <<< 16 + x) 31 16 = n ∧ bits (n <<< 16 + x) 7 0 = x := by
  rw [Nat.shiftLeft_eq, bits, bits, Nat.shiftRight_eq_div_pow, Nat.shiftRight_eq_div_pow]
  omega

/-- The count of steps after a trim. -/
def M.trimSteps (s : M) (island : Nat) : Nat := satU 16 (bits (s.reg (Reg.pwrTrim island)) 31 16 + 1)

/-- The payload of a trim's record (Table 14-5). -/
def M.trimPayload (s : M) (island : Nat) (t' : Int) : List Byte :=
  s.powerPayload (bits (s.reg Reg.pwrPower) 15 0) (bits (s.reg Reg.pwrPower) 31 16) island (ofSigned 8 t')

/-- One step of a trim (R340). -/
def trimStep (island : Nat) (t' : Int) (s : M) : Act Unit := do
  wr (Reg.pwrTrim island) (s.trimSteps island <<< 16 + ofSigned 8 t')
  healthAppend 0x23 ((s.trimPayload island t').take 12 ++ leBytes 2 (s.trimSteps island) ++ (s.trimPayload island t').drop 14)
  logAdd 0x23 island 0 0xFF 0xFF 0 (s.trimPayload island t')

/-- A register is written, an entry of the health record appended and a record of the error log formed. -/
theorem recorded_ends {s : M} (hw : s.wf = true) {o : Nat} (ho : ¬ Reg.ofNotes o) (v kind island : Nat) (entry pl : List Byte) :
    let m := (logAdd kind island 0 0xFF 0xFF 0 pl (healthAppend kind entry (s.setReg o v)).2).2
    m.reg o = v ∧ s.logs m kind island ∧ s.sameStores m := by
  intro m
  have hwf := keepsWf_healthAppend kind entry _ (M.wf_setReg o v hw)
  have hlog : M.logs _ m kind island := logAdd_logs hwf kind island 0 0xFF 0xFF 0 pl
  have hnoted : M.noted True _ m := keepsNoted_logAdd kind island 0 0xFF 0xFF 0 pl _ (.refl True _)
  obtain ⟨flash, hflash⟩ := flashOnly_healthAppend kind entry (s.setReg o v)
  rw [hflash] at hlog hnoted
  have hwr : o ≠ Reg.chkLogWr := fun e => ho (by rw [e]; simp [Reg.ofNotes, Reg.chkLogWr])
  exact ⟨(hnoted.regs o ho).trans (M.reg_setReg_self s _ _ hw), hlog.from (M.reg_setReg_other s _ hwr.symm), hnoted.stores trivial⟩

theorem trimStep_ends {s : M} (hw : s.wf = true) {island : Nat} (hi : island < 179) {t' : Int} (hlo : -25 ≤ t') (hhi : t' ≤ 25) :
    let m := (trimStep island t' s s).2
    toSigned 8 (bits (m.reg (Reg.pwrTrim island)) 7 0) = t' ∧
    bits (m.reg (Reg.pwrTrim island)) 31 16 = satU 16 (bits (s.reg (Reg.pwrTrim island)) 31 16 + 1) ∧
    s.logs m 0x23 island ∧ s.sameStores m := by
  have hn : s.trimSteps island < 2 ^ 16 := by rw [M.trimSteps, satU]; omega
  obtain ⟨htrim, hlogs, hstores⟩ := recorded_ends hw (o := Reg.pwrTrim island) (by simp only [Reg.ofNotes, Reg.pwrTrim]; omega)
    (s.trimSteps island <<< 16 + ofSigned 8 t') 0x23 island
    ((s.trimPayload island t').take 12 ++ leBytes 2 (s.trimSteps island) ++ (s.trimPayload island t').drop 14)
    (s.trimPayload island t')
  obtain ⟨hupper, hlower⟩ := trimWord_bits _ hn (ofSigned_lt 8 t')
  simp only [trimStep, run_bind, run_wr]
  rw [htrim, hlower, hupper]
  exact ⟨toSigned_ofSigned_8 hlo hhi, rfl, hlogs, hstores⟩

theorem exec_voltageTrim {s : State} (hl : s.m.board.live = true) (island : Nat) (up : Bool) :
    exec (.voltageTrim island up (!up)) s =
      (let t' := toSigned 8 (bits (s.m.reg (Reg.pwrTrim island)) 7 0) + (if up then 5 else -5)
       s.becomes ((if t' < -25 ∨ 25 < t' then raiseEvent 2 else trimStep island t' s.m) s.m).2) := by
  rw [exec, execVoltageTrim, State.doing_live s _ hl]
  cases up with
  | true =>
    have hne : (toSigned 8 (bits (s.m.reg (Reg.pwrTrim island)) 7 0) + 5 != toSigned 8 (bits (s.m.reg (Reg.pwrTrim island)) 7 0)) = true :=
      bne_iff_ne.2 (by omega)
    simp only [run_bind, run_get, Bool.not_true, Bool.not_false, Bool.and_true, if_true, hne, run_whenA]
    rfl
  | false =>
    have hne : (toSigned 8 (bits (s.m.reg (Reg.pwrTrim island)) 7 0) - 5 != toSigned 8 (bits (s.m.reg (Reg.pwrTrim island)) 7 0)) = true :=
      bne_iff_ne.2 (by omega)
    simp only [run_bind, run_get, Bool.not_false, Bool.and_true, Bool.false_and, Bool.false_eq_true, if_true, if_false, hne, run_whenA]
    rfl

/-- Settles O11: droop by what an event changes; a trim by its one step, or by the event that takes its place. -/
theorem droopAndTrim : Obligations.DroopAndTrim := by
  intro s island hl
  refine ⟨fun mv hmv => ?_, fun mv hmv => ?_, fun n hn => ?_, fun n hn => ?_, fun up => ⟨fun hw hi hlo hhi => ?_, fun hout => ?_⟩,
    fun b => ?_⟩
  · have hn := keeps_whenA (c := decide (island < 128)) (keepsNoted_posEvent True island 0x12F 1) s.m (.refl True s.m)
    have hgov : (whenA (decide (island < 128)) (posEvent island 0x12F 1) s.m).2.gov = s.m.gov := (congrArg M.gov hn.rest :)
    have hrun : exec (.droopDetect island mv) s = .next { s with m := { (whenA (decide (island < 128)) (posEvent island 0x12F 1) s.m).2 with
        gov := { s.m.gov with stretched := insertNew s.m.gov.stretched island } } } := by
      rw [exec, execDroopDetect, State.doing_live s _ hl, decide_eq_true (show mv > 40 from hmv), ← hgov]
      rfl
    refine ⟨_, hrun, rfl, hn.stores trivial, (congrArg M.cores hn.rest :), (congrArg M.pos hn.rest :), (congrArg M.isl hn.rest :),
      fun hbig => ?_⟩
    rw [decide_eq_false (Nat.not_lt.2 hbig)]
    rfl
  · rw [exec, execDroopDetect, State.doing_live s _ hl, decide_eq_false (by omega)]
    rfl
  · rw [exec, execDroopRecovery, State.doing_live s _ hl, decide_eq_true (by omega)]
    rfl
  · rw [exec, execDroopRecovery, State.doing_live s _ hl, decide_eq_false (by omega)]
    rfl
  · rw [exec_voltageTrim hl]
    dsimp only
    rw [if_neg (by omega)]
    exact ⟨_, rfl, trimStep_ends hw hi hlo hhi⟩
  · rw [exec_voltageTrim hl]
    dsimp only
    rw [if_pos hout]
    have hn := keepsNoted_raiseEvent (still := True) 2 s.m (.refl True s.m)
    exact ⟨_, rfl, raiseEvent_raises 2, raiseEvent_regs 2, hn.stores trivial, (congrArg M.cores hn.rest :), (congrArg M.boot hn.rest :)⟩
  · rw [exec, execVoltageTrim, State.doing_live s _ hl]
    cases b <;> simp

end Sys2Proof.Machine

/-! # The evaluation of every millisecond (R334, R337, R338) -/

namespace Sys2Proof.Machine

/-! ## What counts an event at a core position -/

/-- The registers of a position that its event counters write. -/
def Reg.ofPosCounts (o : Nat) : Prop := 0x10004000 ≤ o ∧ 0x4000 ≤ o % 0x10000

/-- Counting events keeps what a write of the counters' registers keeps. -/
theorem keeps_posCount_of {P : M → Prop} (hP : ∀ t o v, Reg.ofPosCounts o → P t → P (t.setReg o v)) (pos : Nat) {frm k : Nat}
    (hk : frm + k ≤ 64) (code n who : Nat) : Keeps P (posCount pos frm k code n who) := fun t h => by
  rw [posCount, run_modify]
  split
  · exact h
  · refine List.foldlRecOn _ _ h fun u hu c hc => ?_
    obtain ⟨-, hlt⟩ := List.mem_range'_1.1 hc
    split
    · exact hu
    · unfold countAt
      dsimp only
      split
      · generalize u.reg (Reg.posCnt pos c) + _ = v
        have hcnt := hP u (Reg.posCnt pos c) (trunc 64 v) (by simp only [Reg.ofPosCounts, Reg.posCnt]; omega) hu
        split
        · exact hcnt
        · exact hP _ _ _ (by simp only [Reg.ofPosCounts, Reg.posCntOvf]; omega) hcnt
      · exact hu

theorem keeps_posEvent_of {P : M → Prop} (hP : ∀ t o v, Reg.ofPosCounts o → P t → P (t.setReg o v)) (pos code n : Nat) :
    Keeps P (posEvent pos code n) := keeps_getThen fun _ => keeps_posCount_of hP pos (by decide) code n _

/-! ## The points of the positions -/

/-- Registers of the kind C and the clocks of core positions have changed, and nothing else. -/
structure M.steered (C : Nat → Prop) (s t : M) : Prop where
  wf : t.wf = true
  rest : { t with regs := s.regs, pos := s.pos } = s
  regs : ∀ o, ¬ C o → t.reg o = s.reg o
  running : ∀ i, (t.posX i).running = (s.posX i).running

section
variable {C : Nat → Prop} {s t : M}

theorem M.steered.refl (hw : s.wf = true) : s.steered C s := ⟨hw, rfl, fun _ _ => rfl, fun _ => rfl⟩

theorem M.steered.setReg (h : s.steered C t) {o : Nat} (ho : C o) (v : Nat) : s.steered C (t.setReg o v) :=
  ⟨M.wf_setReg o v h.wf, h.rest, fun o' ho' => (M.reg_setReg_other t v fun e : o' = o => ho' (e ▸ ho)).trans (h.regs o' ho'), h.running⟩

theorem keepsSteered_updPos (i : Nat) {f : PosX → PosX} (hf : ∀ x, (f x).running = x.running) : Keeps (s.steered C) (updPos i f) :=
  fun t h => by
    refine ⟨keepsWf_updPos i f t h.wf, h.rest, h.regs, fun j => ?_⟩
    rw [← h.running j]
    by_cases hj : j = i
    · rw [hj]
      exact (congrArg PosX.running (posX_putPos h.wf i (f (t.posX i)))).trans (hf _)
    · exact congrArg PosX.running (Tab.read_put_other PosX.init t.pos i j _ hj)

/-- The registers that setting the points of these positions writes. -/
def Reg.ofPoints (l : List Nat) (o : Nat) : Prop := Reg.ofPosCounts o ∨ ∃ i ∈ l, o = Reg.pwrPosOp i

theorem keepsSteered_setPoint {pos : Nat} (hev : ∀ o, Reg.ofPosCounts o → C o) (hop : C (Reg.pwrPosOp pos)) (pref : Nat) :
    Keeps (s.steered C) (setPoint pos pref) :=
  keeps_getThen fun _ => keeps_ite (fun _ h => h.setReg hop _)
    (keeps_bind (keeps_whenA (keeps_posEvent_of (fun _ _ v ho h => h.setReg (hev _ ho) v) _ _ _)) fun _ =>
      keeps_bind (fun _ h => h.setReg hop _) fun _ => keepsSteered_updPos _ fun _ => rfl)

theorem keepsSteered_points {l l' : List Nat} (hl : ∀ i ∈ l, i ∈ l') (f : Nat → Nat) :
    Keeps (s.steered (Reg.ofPoints l')) (forA l fun i => setPoint i (f i)) :=
  keeps_forA_mem fun i hi => keepsSteered_setPoint (fun _ h => .inl h) (.inr ⟨i, hl i hi, rfl⟩) _

theorem Reg.pwrPosOp_not_ofPoints {l : List Nat} {i : Nat} (hi : i < 128) (h : i ∉ l) : ¬ Reg.ofPoints l (Reg.pwrPosOp i) := by
  rintro (hev | ⟨j, hj, he⟩)
  · simp only [Reg.ofPosCounts, Reg.pwrPosOp] at hev
    omega
  · exact h ((show i = j by simp only [Reg.pwrPosOp] at he; omega) ▸ hj)

/-- The registers of the positions' points, and those of their counters, are not the governor's own. -/
theorem Reg.not_ofPoints {l : List Nat} (hl : ∀ i ∈ l, i < 128) {o : Nat} (ho : o < 0x210200 ∨ (0x210400 ≤ o ∧ o % 0x10000 < 0x4000)) :
    ¬ Reg.ofPoints l o := by
  rintro (⟨hev, hmod⟩ | ⟨i, hi, rfl⟩)
  · omega
  · have := hl i hi
    simp only [Reg.pwrPosOp] at ho
    omega

theorem M.steered.limitCode {l : List Nat} (hl : ∀ i ∈ l, i < 128) (h : s.steered (Reg.ofPoints l) t) : t.limitCode = s.limitCode :=
  M.limitCode_congr (congrArg M.gov h.rest :) (h.regs _ (Reg.not_ofPoints hl (.inl (by decide))))
    (h.regs _ (Reg.not_ofPoints hl (.inl (by decide))))

theorem M.preferred_congr {pos : Nat} (hgov : t.gov = s.gov) (hrun : (t.posX pos).running = (s.posX pos).running)
    (hstate : t.reg (Reg.mgtPosState pos) = s.reg (Reg.mgtPosState pos)) (hphase : ∀ n, t.reg (Reg.corePhase n) = s.reg (Reg.corePhase n)) :
    t.preferred pos = s.preferred pos := by
  unfold M.preferred M.phasePoint M.posState M.logicalAt
  simp only [hgov, hstate, hphase, hrun]

theorem M.steered.preferred {l : List Nat} (hl : ∀ i ∈ l, i < 128) (h : s.steered (Reg.ofPoints l) t) {pos : Nat} (hpos : pos < 128) :
    t.preferred pos = s.preferred pos :=
  M.preferred_congr (congrArg M.gov h.rest :) (h.running pos)
    (h.regs _ (Reg.not_ofPoints hl (.inl (by simp only [Reg.mgtPosState]; omega))))
    fun n => h.regs _ (Reg.not_ofPoints hl (.inr (by simp only [Reg.corePhase]; omega)))

end

theorem run_forA_append {α : Type} (l l' : List α) (f : α → Act Unit) (s : M) :
    (forA (l ++ l') f s).2 = (forA l' f (forA l f s).2).2 := by
  induction l generalizing s with
  | nil => rfl
  | cons x l ih => exact ih (f x s).2

/-- Every position of the list is set to its point, and the points of the others stay. -/
theorem points_show {s : M} (hw : s.wf = true) {l : List Nat} (hl : l.Nodup) (hlt : ∀ i ∈ l, i < 128) (f : Nat → Nat) {i : Nat}
    (hi : i ∈ l) : (forA l (fun i => setPoint i (f i)) s).2.reg (Reg.pwrPosOp i) = s.pointWord i (f i) := by
  obtain ⟨l1, l2, rfl⟩ := List.append_of_mem hi
  obtain ⟨-, hnodup, hdisj⟩ := List.nodup_append.1 hl
  have hnot1 : i ∉ l1 := fun h => hdisj i h i List.mem_cons_self rfl
  have hnot2 : i ∉ l2 := (List.nodup_cons.1 hnodup).1
  have hi128 := hlt i hi
  rw [run_forA_append]
  have h1 : s.steered (Reg.ofPoints l1) (forA l1 (fun i => setPoint i (f i)) s).2 :=
    keepsSteered_points (fun _ h => h) f s (.refl hw)
  have hwt := h1.wf
  have hlim := h1.limitCode fun j hj => hlt j (List.mem_append_left _ hj)
  have hop := h1.regs _ (Reg.pwrPosOp_not_ofPoints hi128 hnot1)
  generalize (forA l1 (fun i => setPoint i (f i)) s).2 = t at *
  have h2 : M.steered (Reg.ofPoints l2) (setPoint i (f i) t).2 (forA l2 (fun i => setPoint i (f i)) (setPoint i (f i) t).2).2 :=
    keepsSteered_points (fun _ h => h) f _ (.refl (keepsWf_setPoint i (f i) t hwt))
  refine (h2.regs _ (Reg.pwrPosOp_not_ofPoints hi128 hnot2)).trans ((setPoint_shows hwt i (f i)).trans ?_)
  rw [M.pointWord, M.pointWord, hlim, hop]

/-! ## What follows the reading -/

/-- The positions whose points an evaluation sets: the ACTIVE ones, and those of the bench that work. -/
def M.governed (s : M) : List Nat := (List.range 128).filter fun i => s.posState i == 0 || s.benchWorks i

/-- The positions take their points. -/
def setPoints : Act Unit := do
  let s ← get
  setField Reg.pwrStatus 26 16 s.capEff
  forA s.governed fun i => setPoint i (s.preferred i)

/-- The averages of an evaluation, from what the governor had gathered before it. -/
def Gov.averaged (g : Gov) (s : M) : Gov :=
  { g with est := 0, gov := 0, wins := 0, avg := s.gov.gov / max 1 s.gov.wins
           phase := (List.range 8).map fun p => s.reg (Reg.pwrPhaseOp p) }

/-- What an evaluation does after the reading: heat, the averages, and the points. -/
def afterReading (s : M) : Act Unit := do
  heatStep
  updGov fun g => g.averaged s
  setPoints

/-- What an evaluation does with the reading. -/
def reading (readOk : Bool) (pMeas est : Nat) : Act Unit :=
  if readOk then do
    compareReading pMeas est
    wr Reg.pwrPower (satU 16 pMeas <<< 16 + satU 16 est)
  else do
    failedReading
    setField Reg.pwrPower 15 0 (satU 16 est)

theorem evaluate_run (readOk : Bool) (pMeas : Nat) (s : M) : evaluate readOk pMeas s = (do
    whenA (bit (s.reg Reg.pwrStatus) 2) (inc64 Reg.pwrMismatchMs)
    reading readOk pMeas (s.gov.est / max 1 s.gov.wins)
    afterReading s : Act Unit) s := by
  cases readOk <;> rfl

/-- Heat changes the governor's own state, but not its count of failed readings, and the time spent throttled. -/
structure M.heated (s t : M) : Prop where
  wf : t.wf = true
  rest : { t with regs := s.regs, gov := s.gov } = s
  fails : t.gov.fails = s.gov.fails
  regs : ∀ o, o ≠ Reg.pwrThrottleMs → t.reg o = s.reg o

theorem heatStep_heated {s : M} (hw : s.wf = true) : s.heated (heatStep s).2 := by
  have hgov : ∀ {f : Gov → Gov}, (∀ g, (f g).fails = g.fails) → Keeps s.heated (updGov f) := fun hf t h =>
    ⟨h.wf, h.rest, (hf _).trans h.fails, h.regs⟩
  refine (keeps_getThen fun t => keeps_bind (keeps_whenA fun u h => ?_) fun _ => keeps_ite (keeps_whenA (hgov fun _ => rfl))
    (keeps_ite (hgov fun _ => rfl) (hgov fun _ => rfl)) : Keeps s.heated heatStep) s ⟨hw, rfl, rfl, fun _ _ => rfl⟩
  exact ⟨M.wf_setReg _ _ h.wf, h.rest, h.fails, fun o ho => (M.reg_setReg_other u _ ho).trans (h.regs o ho)⟩

theorem M.governed_nodup (s : M) : s.governed.Nodup := List.nodup_range.filter _

theorem M.governed_lt (s : M) : ∀ i ∈ s.governed, i < 128 := fun _ hi => List.mem_range.1 (List.mem_filter.1 hi).1

/-- The machine after the reading, and at the end. -/
structure M.settledFrom (s0 t m : M) : Prop where
  wf : m.wf = true
  rest : { m with regs := t.regs, pos := t.pos, gov := t.gov } = t
  est : m.gov.est = 0
  wins : m.gov.wins = 0
  phase : m.gov.phase = (List.range 8).map fun p => s0.reg (Reg.pwrPhaseOp p)
  fails : m.gov.fails = t.gov.fails
  status : ∃ v, m.reg Reg.pwrStatus = setBits (t.reg Reg.pwrStatus) 26 16 v
  regs : ∀ o, (o < 0x210200 ∨ (0x210400 ≤ o ∧ o % 0x10000 < 0x4000)) → o ≠ Reg.pwrStatus → o ≠ Reg.pwrThrottleMs → m.reg o = t.reg o
  points : ∀ i, i < 128 → t.posState i = 0 → m.reg (Reg.pwrPosOp i) = m.limitCode <<< 8 + m.preferred i <<< 4 +
    (if bits (t.reg (Reg.pwrPosOp i)) 2 0 = 7 then 7 else max (m.preferred i) (limitPoint m.limitCode))

/-- Setting the points changes the shown cap, the positions' points and clocks, and what counts that. -/
theorem setPoints_steered {u : M} (hw : u.wf = true) :
    M.steered (Reg.ofPoints u.governed) (u.setReg Reg.pwrStatus (setBits (u.reg Reg.pwrStatus) 26 16 u.capEff)) (setPoints u).2 :=
  keepsSteered_points (fun _ h => h) u.preferred _ (.refl (M.wf_setReg _ _ hw))

theorem setPoints_show {u : M} (hw : u.wf = true) {i : Nat} (hi : i ∈ u.governed) :
    let m := (setPoints u).2
    m.reg (Reg.pwrPosOp i) = m.limitCode <<< 8 + m.preferred i <<< 4 +
      (if bits (u.reg (Reg.pwrPosOp i)) 2 0 = 7 then 7 else max (m.preferred i) (limitPoint m.limitCode)) := by
  intro m
  have hst := setPoints_steered hw
  have hi128 := u.governed_lt i hi
  have hother : ∀ o, o ≠ Reg.pwrStatus → (u.setReg Reg.pwrStatus (setBits (u.reg Reg.pwrStatus) 26 16 u.capEff)).reg o = u.reg o :=
    fun o ho => M.reg_setReg_other u _ ho
  have hpref : m.preferred i = u.preferred i := (hst.preferred u.governed_lt hi128).trans
    (M.preferred_congr rfl rfl (hother _ (by simp only [Reg.mgtPosState, Reg.pwrStatus]; omega))
      fun n => hother _ (by simp only [Reg.corePhase, Reg.pwrStatus]; omega))
  rw [hpref, hst.limitCode u.governed_lt, ← hother _ (show Reg.pwrPosOp i ≠ Reg.pwrStatus by simp only [Reg.pwrPosOp, Reg.pwrStatus]; omega)]
  exact points_show (M.wf_setReg _ _ hw) u.governed_nodup u.governed_lt u.preferred hi

theorem afterReading_settles {t : M} (hw : t.wf = true) (s : M) : s.settledFrom t (afterReading s t).2 := by
  have hheat := heatStep_heated hw
  obtain ⟨u, hrun, hgov, hwu, hrest, hregs⟩ : ∃ u : M, (afterReading s t).2 = (setPoints u).2 ∧
      u.gov = (heatStep t).2.gov.averaged s ∧ u.wf = true ∧ { u with regs := t.regs, gov := t.gov } = t ∧
      ∀ o, o ≠ Reg.pwrThrottleMs → u.reg o = t.reg o :=
    ⟨{ (heatStep t).2 with gov := (heatStep t).2.gov.averaged s }, rfl, rfl, hheat.wf, hheat.rest, hheat.regs⟩
  have hfails := hheat.fails
  generalize (heatStep t).2.gov = g at *
  rw [hrun]
  have hst := setPoints_steered hwu
  have hgov' : (setPoints u).2.gov = g.averaged s := (congrArg M.gov hst.rest :).trans hgov
  refine ⟨hst.wf, ?_, congrArg Gov.est hgov', congrArg Gov.wins hgov', congrArg Gov.phase hgov', (congrArg Gov.fails hgov').trans hfails,
    ⟨u.capEff, ?_⟩, fun o ho hs hthr => ?_, fun i hi hact => ?_⟩
  · have hr := congrArg (fun m : M => ({ m with regs := t.regs, gov := t.gov } : M)) hst.rest
    have hpos : u.pos = t.pos := (congrArg M.pos hrest :)
    rw [← hpos]
    exact hr.trans hrest
  · rw [hst.regs _ (Reg.not_ofPoints u.governed_lt (.inl (by decide))), M.reg_setReg_self _ _ _ hwu, hregs _ (by decide)]
  · rw [hst.regs _ (Reg.not_ofPoints u.governed_lt ho), M.reg_setReg_other _ _ hs, hregs o hthr]
  · rw [← hregs _ (show Reg.pwrPosOp i ≠ Reg.pwrThrottleMs by simp only [Reg.pwrPosOp, Reg.pwrThrottleMs]; omega)]
    have hstate : u.posState i = t.posState i := by
      rw [M.posState, hregs _ (by simp only [Reg.mgtPosState, Reg.pwrThrottleMs]; omega), M.posState]
    exact setPoints_show hwu (List.mem_filter.2 ⟨List.mem_range.2 hi, by rw [hstate, hact]; rfl⟩)

/-! ## The reading -/

theorem bit_setBits_other {i lo hi : Nat} (h : i < lo ∨ hi < i) (hl : lo ≤ hi) (x v : Nat) : bit (setBits x hi lo v) i = bit x i :=
  h.elim (fun h => testBit_setBits_below h hl x v) fun h => testBit_setBits_above h hl x v

/-- The registers that a reading may change. -/
def Reg.ofReading (o : Nat) : Prop :=
  Reg.ofNotes o ∨ o = Reg.pwrStatus ∨ o = Reg.pwrPower ∨ o = Reg.pwrGain ∨ o = Reg.pwrMismatchMs

/-- A reading changes the governor's state, its registers, and what notes errors and events. -/
structure M.read (s t : M) : Prop where
  wf : t.wf = true
  rest : { t with regs := s.regs, gov := s.gov, logBuf := s.logBuf, cxl := s.cxl, outs := s.outs, free := s.free } = s
  regs : ∀ o, ¬ Reg.ofReading o → t.reg o = s.reg o

section
variable {s : M}

theorem M.read.refl (hw : s.wf = true) : s.read s := ⟨hw, rfl, fun _ _ => rfl⟩

theorem keepsRead_wr {o : Nat} (ho : Reg.ofReading o) (v : Nat) : Keeps s.read (wr o v) := fun t h =>
  ⟨M.wf_setReg o v h.wf, h.rest, fun o' ho' => (M.reg_setReg_other t v fun e : o' = o => ho' (e ▸ ho)).trans (h.regs o' ho')⟩

theorem keepsRead_setField {o : Nat} (ho : Reg.ofReading o) (hi lo v : Nat) : Keeps s.read (setField o hi lo v) := fun t h =>
  keepsRead_wr ho _ t h

theorem keepsRead_updGov (f : Gov → Gov) : Keeps s.read (updGov f) := fun _ h => ⟨h.wf, h.rest, h.regs⟩

theorem keepsRead_of_noted {α : Type} {a : Act α} (hn : ∀ t : M, Keeps (t.noted True) a) (hw : KeepsWf a) : Keeps s.read a := fun t h => by
  have h' := hn t t (.refl True t)
  obtain ⟨hmem, hchk⟩ := h'.stores trivial
  refine ⟨hw t h.wf, ?_, fun o ho => (h'.regs o fun hn => ho (.inl hn)).trans (h.regs o ho)⟩
  have hrest := congrArg (fun m : M => ({ m with regs := s.regs, gov := s.gov, logBuf := s.logBuf, cxl := s.cxl, outs := s.outs, free := s.free } : M)) h'.rest
  rw [hmem, hchk]
  exact hrest.trans h.rest

theorem keepsRead_raiseEvent (cause : Nat) : Keeps s.read (raiseEvent cause) :=
  keepsRead_of_noted (fun _ => keepsNoted_raiseEvent cause) (keepsWf_raiseEvent cause)

theorem keepsRead_logAdd (kind island step logical queue entry : Nat) (pl : List Byte) :
    Keeps s.read (logAdd kind island step logical queue entry pl) :=
  keepsRead_of_noted (fun _ => keepsNoted_logAdd _ _ _ _ _ _ _) (keepsWf_logAdd _ _ _ _ _ _ _)

theorem keepsRead_compareReading (meas est : Nat) : Keeps s.read (compareReading meas est) := by
  have hst : Reg.ofReading Reg.pwrStatus := .inr (.inl rfl)
  have hgain : Reg.ofReading Reg.pwrGain := .inr (.inr (.inr (.inl rfl)))
  refine keeps_getThen fun t => keeps_bind (keepsRead_updGov _) fun _ => keeps_bind (keepsRead_setField hst _ _ _) fun _ =>
    keeps_getThen fun u => keeps_ite (keeps_ite ?_ (keeps_whenA (keepsRead_setField hst _ _ _)))
      (keeps_whenA (keeps_bind (keepsRead_setField hst _ _ _) fun _ => keeps_bind (keepsRead_raiseEvent _) fun _ => keepsRead_logAdd _ _ _ _ _ _ _))
  split
  · exact keepsRead_wr hgain _
  · exact keeps_whenA (keeps_bind (keepsRead_setField hst _ _ _) fun _ => keepsRead_logAdd _ _ _ _ _ _ _)

theorem keepsRead_reading (readOk : Bool) (pMeas est : Nat) : Keeps s.read (reading readOk pMeas est) := by
  have hpower : Reg.ofReading Reg.pwrPower := .inr (.inr (.inl rfl))
  exact keeps_ite (keeps_bind (keepsRead_compareReading _ _) fun _ => keepsRead_wr hpower _)
    (keeps_bind (keeps_bind (keepsRead_updGov _) fun _ => keeps_getThen fun _ => keeps_whenA
      (keeps_bind (keepsRead_setField (.inr (.inl rfl)) _ _ _) fun _ => keepsRead_raiseEvent _)) fun _ => keepsRead_setField hpower _ _ _)

/-- What noting an error or event leaves of the governor's registers. -/
theorem Reg.pwr_not_ofNotes {o : Nat} (h : 0x210000 ≤ o ∧ o < 0x220000) : ¬ Reg.ofNotes o := by
  rintro (h' | h' | h') <;> omega

theorem M.gov_setReg (s : M) (o v : Nat) : (s.setReg o v).gov = s.gov := rfl

/-- The machine once a successful reading has been counted. -/
def M.counts (s : M) (bad : Bool) : M :=
  { s with gov := { s.gov with fails := 0, dis := if bad then min 3 (s.gov.dis + 1) else 0, agree := if bad then 0 else min 3 (s.gov.agree + 1) } }.setReg
    Reg.pwrStatus (setBits (s.reg Reg.pwrStatus) 4 4 0)

/-- A mismatch: the third reading in a row that disagrees (R337). -/
def M.mismatched (s : M) (meas est : Nat) : M :=
  let u := s.counts true
  (logAdd 0x20 177 0 0xFF 0xFF 0 (s.powerPayload est meas 0xFF 0)
    (raiseEvent 0 (u.setReg Reg.pwrStatus (setBits (u.reg Reg.pwrStatus) 2 2 1))).2).2

/-- A gain that would leave its range is a fault, recorded once (R338). -/
def M.gainFault (s : M) (meas est : Nat) : M :=
  let u := s.counts true
  if bit (s.reg Reg.pwrStatus) 3 then u
  else (logAdd 0x21 177 0 0xFF 0xFF 0 (s.powerPayload est meas 0xFF 0) (u.setReg Reg.pwrStatus (setBits (u.reg Reg.pwrStatus) 3 3 1))).2

theorem compareReading_corrects {meas est g : Nat} (hmode : bit (s.reg Reg.pwrStatus) 2 = true) (hbad : disagrees meas est = true)
    (hg : gainStep (s.reg Reg.pwrGain) meas est = some g) :
    (compareReading meas est s).2 = (s.counts true).setReg Reg.pwrGain g := by
  simp only [compareReading, run_bind, run_get, updGov, run_modify, run_setField, hmode, hbad, if_true, hg, run_wr]
  rfl

theorem compareReading_faults {meas est : Nat} (hmode : bit (s.reg Reg.pwrStatus) 2 = true) (hbad : disagrees meas est = true)
    (hg : gainStep (s.reg Reg.pwrGain) meas est = none) :
    (compareReading meas est s).2 = s.gainFault meas est := by
  simp only [compareReading, run_bind, run_get, updGov, run_modify, run_setField, hmode, hbad, if_true, hg, M.gainFault]
  cases bit (s.reg Reg.pwrStatus) 3 <;> rfl

theorem compareReading_mismatch {meas est : Nat} (hmode : bit (s.reg Reg.pwrStatus) 2 = false) (hbad : disagrees meas est = true)
    (hdis : s.gov.dis ≥ 2) : (compareReading meas est s).2 = s.mismatched meas est := by
  have hthree : min 3 (s.gov.dis + 1) ≥ 3 := by omega
  simp only [compareReading, run_bind, run_get, updGov, run_modify, run_setField, hmode, hbad, if_true, Bool.false_eq_true,
    if_false, M.gov_setReg, run_whenA]
  exact if_pos (decide_eq_true hthree)

/-! What a reading leaves in the governor's registers. -/

theorem M.wf_counts (hw : s.wf = true) (bad : Bool) : (s.counts bad).wf = true := M.wf_setReg (s := { s with gov := _ }) _ _ hw

theorem counts_status (hw : s.wf = true) (bad : Bool) : (s.counts bad).reg Reg.pwrStatus = setBits (s.reg Reg.pwrStatus) 4 4 0 :=
  M.reg_setReg_self { s with gov := _ } _ _ hw

theorem counts_other (bad : Bool) {o : Nat} (ho : o ≠ Reg.pwrStatus) : (s.counts bad).reg o = s.reg o :=
  M.reg_setReg_other { s with gov := _ } _ ho

/-- What a comparison does once it is counted. -/
def compared (s : M) (meas est : Nat) : Act Unit := do
  let t ← get
  if bit (s.reg Reg.pwrStatus) 2 then
    if disagrees meas est then
      match gainStep (s.reg Reg.pwrGain) meas est with
      | some g => wr Reg.pwrGain g
      | none => whenA (!bit (s.reg Reg.pwrStatus) 3) do
        setField Reg.pwrStatus 3 3 1
        logAdd 0x21 177 0 0xFF 0xFF 0 (s.powerPayload est meas 0xFF 0)
    else whenA (decide (t.gov.agree ≥ 3)) (setField Reg.pwrStatus 2 2 0)
  else whenA (decide (t.gov.dis ≥ 3)) do
    setField Reg.pwrStatus 2 2 1
    raiseEvent 0
    logAdd 0x20 177 0 0xFF 0xFF 0 (s.powerPayload est meas 0xFF 0)

theorem compareReading_run (meas est : Nat) (s : M) : compareReading meas est s = compared s meas est (s.counts (disagrees meas est)) := rfl

/-- Once it has ended, TELEM_LOSS stays away. -/
theorem keeps_compared {P : M → Prop} (hset : ∀ k v, k < 4 → Keeps P (setField Reg.pwrStatus k k v)) (hgain : ∀ v, Keeps P (wr Reg.pwrGain v))
    (hraise : Keeps P (raiseEvent 0)) (hlog : ∀ kind pl, Keeps P (logAdd kind 177 0 0xFF 0xFF 0 pl)) (s : M) (meas est : Nat) :
    Keeps P (compared s meas est) := by
  refine keeps_getThen fun u => keeps_ite (keeps_ite ?_ (keeps_whenA (hset 2 0 (by decide)))) (keeps_whenA
    (keeps_bind (hset 2 1 (by decide)) fun _ => keeps_bind hraise fun _ => hlog _ _))
  split
  · exact hgain _
  · exact keeps_whenA (keeps_bind (hset 3 1 (by decide)) fun _ => hlog _ _)

/-- TELEM_LOSS is not shown. -/
def M.telemeters (t : M) : Prop := t.wf = true ∧ bit (t.reg Reg.pwrStatus) 4 = false

theorem keepsTelemeters_of_noted {a : Act Unit} (hn : ∀ t : M, Keeps (t.noted True) a) (hw : KeepsWf a) : Keeps M.telemeters a :=
  fun t ⟨ht, h4⟩ => ⟨hw t ht, by rw [(hn t t (.refl True t)).regs _ (Reg.pwr_not_ofNotes (by decide)), h4]⟩

/-- A reading that succeeds ends TELEM_LOSS. -/
theorem compareReading_telem (hw : s.wf = true) (meas est : Nat) : bit ((compareReading meas est s).2.reg Reg.pwrStatus) 4 = false := by
  have hstart : (s.counts (disagrees meas est)).telemeters := by
    refine ⟨M.wf_counts hw _, ?_⟩
    rw [counts_status hw, bit_setBits_self]
    rfl
  rw [compareReading_run]
  refine (keeps_compared (fun k v hk t ⟨ht, h4⟩ => ⟨M.wf_setReg _ _ ht, ?_⟩) (fun v t ⟨ht, h4⟩ => ⟨M.wf_setReg _ _ ht, ?_⟩)
    (keepsTelemeters_of_noted (fun _ => keepsNoted_raiseEvent 0) (keepsWf_raiseEvent 0))
    (fun kind pl => keepsTelemeters_of_noted (fun _ => keepsNoted_logAdd _ _ _ _ _ _ _) (keepsWf_logAdd _ _ _ _ _ _ _)) s meas est
    (s.counts (disagrees meas est)) hstart).2
  · rw [run_setField, M.reg_setReg_self _ _ _ ht, bit_setBits_other (.inr hk) le_rfl, h4]
  · exact (congrArg (bit · 4) (M.reg_setReg_other t v (by decide))).trans h4

/-- The machine once a failed reading has been counted. -/
def M.failedOnce (s : M) : M := { s with gov := { s.gov with fails := min 3 (s.gov.fails + 1) } }

/-- A failed reading: the third in a row is TELEM_LOSS. -/
theorem failedReading_run (s : M) : (failedReading s).2 =
    if decide (min 3 (s.gov.fails + 1) ≥ 3) && !bit (s.reg Reg.pwrStatus) 4 then
      (raiseEvent 1 (s.failedOnce.setReg Reg.pwrStatus (setBits (s.reg Reg.pwrStatus) 4 4 1))).2
    else s.failedOnce := by
  simp only [failedReading, run_bind, run_get, updGov, run_modify, run_whenA]
  rfl

/-- What a failed reading leaves: the count, and TELEM_LOSS with its event at the third (R338). -/
theorem failedReading_ends (hw : s.wf = true) :
    let m := (failedReading s).2
    m.reg Reg.pwrGain = s.reg Reg.pwrGain ∧ m.gov.fails = min 3 (s.gov.fails + 1) ∧
    (s.gov.fails ≥ 2 → bit (m.reg Reg.pwrStatus) 4 = true ∧ (bit (s.reg Reg.pwrStatus) 4 = false → s.raises m 1)) := by
  have hw' : s.failedOnce.wf = true := hw
  rw [failedReading_run]
  split
  · have hn := keepsNoted_raiseEvent (still := True) 1 _ (.refl True
      (s.failedOnce.setReg Reg.pwrStatus (setBits (s.reg Reg.pwrStatus) 4 4 1)))
    refine ⟨?_, (congrArg (fun t : M => t.gov.fails) hn.rest :), fun _ => ⟨?_, fun _ => raiseEvent_raises 1⟩⟩
    · exact (hn.regs _ (Reg.pwr_not_ofNotes (by decide))).trans (M.reg_setReg_other s.failedOnce _ (by decide))
    · rw [hn.regs _ (Reg.pwr_not_ofNotes (by decide)), M.reg_setReg_self _ _ _ hw', bit_setBits_self]
      rfl
  · next hno =>
    refine ⟨rfl, rfl, fun h2 => ?_⟩
    have hthree : min 3 (s.gov.fails + 1) ≥ 3 := by omega
    rw [decide_eq_true hthree, Bool.true_and, Bool.not_eq_true', Bool.not_eq_false] at hno
    exact ⟨hno, fun h => absurd (hno.symm.trans h) (by decide)⟩

theorem mismatched_ends (hw : s.wf = true) (meas est : Nat) :
    bit ((s.mismatched meas est).reg Reg.pwrStatus) 2 = true ∧ s.logs (s.mismatched meas est) 0x20 177 ∧
      s.raises (s.mismatched meas est) 0 := by
  have hwu := M.wf_setReg Reg.pwrStatus (setBits ((s.counts true).reg Reg.pwrStatus) 2 2 1) (M.wf_counts hw true)
  have hchk : ((s.counts true).setReg Reg.pwrStatus (setBits ((s.counts true).reg Reg.pwrStatus) 2 2 1)).reg Reg.chkLogWr = s.reg Reg.chkLogWr :=
    (M.reg_setReg_other _ _ (by decide)).trans (counts_other true (by decide))
  have hbit : bit (((s.counts true).setReg Reg.pwrStatus (setBits ((s.counts true).reg Reg.pwrStatus) 2 2 1)).reg Reg.pwrStatus) 2 = true := by
    rw [M.reg_setReg_self _ _ _ (M.wf_counts hw true), bit_setBits_self]
    rfl
  have hev : ((s.counts true).setReg Reg.pwrStatus (setBits ((s.counts true).reg Reg.pwrStatus) 2 2 1)).cxl = s.cxl := rfl
  unfold M.mismatched
  dsimp only
  generalize (s.counts true).setReg Reg.pwrStatus (setBits ((s.counts true).reg Reg.pwrStatus) 2 2 1) = u at *
  have hraise := raiseEvent_raises (s := u) 0
  have hregs := raiseEvent_regs (s := u) 0
  have hwr := keepsWf_raiseEvent 0 u hwu
  generalize (raiseEvent 0 u).2 = v at *
  have hlog := logAdd_logs hwr 0x20 177 0 0xFF 0xFF 0 (s.powerPayload est meas 0xFF 0)
  have hn := keepsNoted_logAdd (still := True) 0x20 177 0 0xFF 0xFF 0 (s.powerPayload est meas 0xFF 0) v (.refl True v)
  have hreg : ∀ o, v.reg o = u.reg o := fun o => congrArg (Tab.read Reg.dflt · o) hregs
  refine ⟨?_, hlog.from ((hreg _).trans hchk), ?_⟩
  · rw [hn.regs _ (Reg.pwr_not_ofNotes (by decide)), hreg, hbit]
  · obtain ⟨log, hlog⟩ := hraise
    refine ⟨log, ?_⟩
    rw [logAdd_events, ← hev, hlog]

theorem gainFault_ends (hw : s.wf = true) (meas est : Nat) :
    (s.gainFault meas est).reg Reg.pwrGain = s.reg Reg.pwrGain ∧ bit ((s.gainFault meas est).reg Reg.pwrStatus) 3 = true := by
  unfold M.gainFault
  dsimp only
  split
  · next h3 =>
    refine ⟨counts_other true (by decide), ?_⟩
    rw [counts_status hw, bit_setBits_other (by decide) le_rfl, h3]
  · have hn := keepsNoted_logAdd (still := True) 0x21 177 0 0xFF 0xFF 0 (s.powerPayload est meas 0xFF 0) _ (.refl True
      ((s.counts true).setReg Reg.pwrStatus (setBits ((s.counts true).reg Reg.pwrStatus) 3 3 1)))
    refine ⟨?_, ?_⟩
    · rw [hn.regs _ (Reg.pwr_not_ofNotes (by decide)), M.reg_setReg_other _ _ (by decide), counts_other true (by decide)]
    · rw [hn.regs _ (Reg.pwr_not_ofNotes (by decide)), M.reg_setReg_self _ _ _ (M.wf_counts hw true), bit_setBits_self]
      rfl

end

/-- What the statement asks of the machine after the reading. -/
structure M.readingEnds (s t : M) (readOk : Bool) (pMeas est : Nat) : Prop where
  success : readOk = true → t.reg Reg.pwrPower = satU 16 pMeas <<< 16 + satU 16 est ∧ bit (t.reg Reg.pwrStatus) 4 = false ∧
    (bit (s.reg Reg.pwrStatus) 2 = true → disagrees pMeas est = true →
      (∀ g, gainStep (s.reg Reg.pwrGain) pMeas est = some g → t.reg Reg.pwrGain = g) ∧
      (gainStep (s.reg Reg.pwrGain) pMeas est = none → t.reg Reg.pwrGain = s.reg Reg.pwrGain ∧ bit (t.reg Reg.pwrStatus) 3 = true)) ∧
    (bit (s.reg Reg.pwrStatus) 2 = false → disagrees pMeas est = true → s.gov.dis ≥ 2 →
      bit (t.reg Reg.pwrStatus) 2 = true ∧ s.logs t 0x20 177 ∧ s.raises t 0)
  failure : readOk = false → t.reg Reg.pwrGain = s.reg Reg.pwrGain ∧ t.gov.fails = min 3 (s.gov.fails + 1) ∧
    (s.gov.fails ≥ 2 → bit (t.reg Reg.pwrStatus) 4 = true ∧ (bit (s.reg Reg.pwrStatus) 4 = false → s.raises t 1))

theorem reading_ends {s : M} (hw : s.wf = true) (readOk : Bool) (pMeas est : Nat) :
    s.readingEnds (reading readOk pMeas est s).2 readOk pMeas est := by
  cases readOk with
  | true =>
    have hrun : (reading true pMeas est s).2 =
        (compareReading pMeas est s).2.setReg Reg.pwrPower (satU 16 pMeas <<< 16 + satU 16 est) := rfl
    have hwc := (keepsRead_compareReading pMeas est s (.refl hw)).wf
    rw [hrun]
    have hother : ∀ o, o ≠ Reg.pwrPower →
        ((compareReading pMeas est s).2.setReg Reg.pwrPower (satU 16 pMeas <<< 16 + satU 16 est)).reg o = (compareReading pMeas est s).2.reg o :=
      fun o ho => M.reg_setReg_other _ _ ho
    refine ⟨fun _ => ⟨M.reg_setReg_self _ _ _ hwc, ?_, fun hmode hbad => ⟨fun g hg => ?_, fun hg => ?_⟩, fun hmode hbad hdis => ?_⟩, fun h => Bool.noConfusion h⟩
    · rw [hother _ (by decide), compareReading_telem hw]
    · rw [hother _ (by decide), compareReading_corrects hmode hbad hg, M.reg_setReg_self _ _ _ (M.wf_counts hw true)]
    · rw [hother _ (by decide), hother _ (by decide), compareReading_faults hmode hbad hg]
      exact gainFault_ends hw pMeas est
    · obtain ⟨hbit, hlogs, hraises⟩ := mismatched_ends hw pMeas est
      rw [← compareReading_mismatch hmode hbad hdis] at hbit hlogs hraises
      exact ⟨by rw [hother _ (by decide), hbit], hlogs.congr rfl (hother _ (by decide)), hraises⟩
  | false =>
    have hrun : (reading false pMeas est s).2 = (failedReading s).2.setReg Reg.pwrPower
        (setBits ((failedReading s).2.reg Reg.pwrPower) 15 0 (satU 16 est)) := rfl
    obtain ⟨hgain, hfails, htelem⟩ := failedReading_ends hw
    rw [hrun]
    refine ⟨fun h => Bool.noConfusion h, fun _ => ⟨?_, hfails, fun h2 => ?_⟩⟩
    · rw [M.reg_setReg_other _ _ (by decide), hgain]
    · rw [M.reg_setReg_other _ _ (by decide)]
      exact htelem h2

/-- What the reading leaves still stands at the end. -/
theorem M.settledFrom.readingEnds {s0 s t m : M} {readOk : Bool} {pMeas est : Nat} (h : s0.settledFrom t m)
    (hr : s.readingEnds t readOk pMeas est) : s.readingEnds m readOk pMeas est := by
  have hpower : m.reg Reg.pwrPower = t.reg Reg.pwrPower := h.regs _ (.inl (by decide)) (by decide) (by decide)
  have hgain : m.reg Reg.pwrGain = t.reg Reg.pwrGain := h.regs _ (.inl (by decide)) (by decide) (by decide)
  have hwr : m.reg Reg.chkLogWr = t.reg Reg.chkLogWr := h.regs _ (.inr (by decide)) (by decide) (by decide)
  have hlogBuf : m.logBuf = t.logBuf := (congrArg M.logBuf h.rest :)
  have hcxl : m.cxl = t.cxl := (congrArg M.cxl h.rest :)
  obtain ⟨v, hstatus⟩ := h.status
  have hbit : ∀ k, k < 16 → bit (m.reg Reg.pwrStatus) k = bit (t.reg Reg.pwrStatus) k := fun k hk => by
    rw [hstatus, bit_setBits_other (.inl hk) (by decide)]
  have hraises : ∀ c, s.raises t c → s.raises m c := fun c hc => by
    rw [M.raises, hcxl]
    exact hc
  constructor
  · intro hok
    obtain ⟨hp, h4, hmode, hnot⟩ := hr.success hok
    rw [hpower, hgain, hbit 4 (by decide), hbit 3 (by decide), hbit 2 (by decide)]
    exact ⟨hp, h4, hmode, fun h2 hbad hdis => (hnot h2 hbad hdis).imp_right fun ⟨hl, hra⟩ => ⟨hl.congr hlogBuf hwr, hraises 0 hra⟩⟩
  · intro hno
    obtain ⟨hg, hf, htel⟩ := hr.failure hno
    rw [hgain, h.fails, hbit 4 (by decide)]
    exact ⟨hg, hf, fun h2 => (htel h2).imp_right fun hra h4 => hraises 1 (hra h4)⟩

/-- Counting in a register changes nothing else. -/
theorem whenA_inc64_regs {s : M} (hw : s.wf = true) (c : Bool) (o : Nat) :
    let u := (whenA c (inc64 o) s).2
    u.wf = true ∧ { u with regs := s.regs } = s ∧ ∀ o', o' ≠ o → u.reg o' = s.reg o' := by
  cases c with
  | false => exact ⟨hw, rfl, fun _ _ => rfl⟩
  | true => exact ⟨M.wf_setReg _ _ hw, rfl, fun o' ho => M.reg_setReg_other s _ ho⟩

/-- Settles O9: the evaluation is the reading, which `reading_ends` describes, and what follows it, which keeps that and sets every
governed position to its point. -/
theorem governorEvaluationRules : Obligations.GovernorEvaluationRules := by
  intro s readOk pMeas hl hw est st
  obtain ⟨u, hu, huw, hrest, hregs⟩ : ∃ u : M, (whenA (bit st 2) (inc64 Reg.pwrMismatchMs) s.m).2 = u ∧ u.wf = true ∧
      { u with regs := s.m.regs } = s.m ∧ ∀ o, o ≠ Reg.pwrMismatchMs → u.reg o = s.m.reg o := by
    exact ⟨_, rfl, whenA_inc64_regs hw _ _⟩
  have hread := keepsRead_reading readOk pMeas est u (.refl huw)
  have hends := reading_ends huw readOk pMeas est
  have hsettle := afterReading_settles hread.wf s.m
  refine ⟨(afterReading s.m (reading readOk pMeas est u).2).2, ?_, ?_⟩
  · rw [exec, execGovernorEvaluation, State.doing_live s _ hl, evaluate_run]
    simp only [run_bind]
    rw [hu]
  · generalize (reading readOk pMeas est u).2 = t at *
    generalize (afterReading s.m t).2 = m at *
    obtain ⟨hok, hno⟩ := hsettle.readingEnds hends
    have hgov : u.gov = s.m.gov := (congrArg M.gov hrest :)
    have hcxl : u.cxl = s.m.cxl := (congrArg M.cxl hrest :)
    have hstatus : u.reg Reg.pwrStatus = st := hregs _ (by decide)
    have hgain : u.reg Reg.pwrGain = s.m.reg Reg.pwrGain := hregs _ (by decide)
    have hlogWr : u.reg Reg.chkLogWr = s.m.reg Reg.chkLogWr := hregs _ (by decide)
    have hraises : ∀ c, u.raises m c → s.m.raises m c := fun c hc => by
      rwa [M.raises, hcxl] at hc
    have hlow : ∀ o, (0x10600 ≤ o ∧ o < 0x10800) ∨ (0x210200 ≤ o ∧ o < 0x210400) → t.reg o = s.m.reg o := fun o ho =>
      (hread.regs o (by
        simp only [Reg.ofReading, Reg.ofNotes, Reg.pwrStatus, Reg.pwrPower, Reg.pwrGain, Reg.pwrMismatchMs]
        omega)).trans (hregs o (by simp only [Reg.pwrMismatchMs]; omega))
    rw [hstatus, hgain, hgov] at hok hno
    refine ⟨?_, hsettle.est, hsettle.wins, hsettle.phase, fun h => ?_, fun h => ?_, fun i hi hact => ?_⟩
    · have hmem : m.mem = t.mem := (congrArg M.mem hsettle.rest :)
      have hmem' : t.mem = u.mem := (congrArg M.mem hread.rest :)
      have hmem'' : u.mem = s.m.mem := (congrArg M.mem hrest :)
      have hchk : m.chk = t.chk := (congrArg M.chk hsettle.rest :)
      have hchk' : t.chk = u.chk := (congrArg M.chk hread.rest :)
      have hchk'' : u.chk = s.m.chk := (congrArg M.chk hrest :)
      exact ⟨hmem.trans (hmem'.trans hmem''), hchk.trans (hchk'.trans hchk'')⟩
    · obtain ⟨hp, h4, hmode, hnot⟩ := hok h
      exact ⟨hp, h4, hmode, fun h2 hbad hdis => (hnot h2 hbad hdis).imp_right fun ⟨hl, hra⟩ => ⟨hl.from hlogWr, hraises 0 hra⟩⟩
    · obtain ⟨hg, hf, htel⟩ := hno h
      exact ⟨hg, hf, fun h2 => (htel h2).imp_right fun hra h4 => hraises 1 (hra h4)⟩
    · have hstate : t.posState i = 0 := by
        rw [M.posState, hlow _ (.inl (by simp only [Reg.mgtPosState]; omega))]
        exact hact
      rw [hsettle.points i hi hstate, limitPoint_eq, hlow _ (.inr (by simp only [Reg.pwrPosOp]; omega))]

end Sys2Proof.Machine

/-! # The governor's window (R323, R330, R331) -/

namespace Sys2Proof.Machine

/-! ## What the islands have counted -/

/-- The window's counts are added as the statement adds them. -/
theorem forA_counts (counts : List (Nat × Nat × Nat)) (s : M) :
    (forA counts (fun x => whenA (decide (x.1 < 179) && decide (x.2.1 < 20)) (chargeUnits x.1 x.2.1 x.2.2)) s).2 =
      (counts.filter fun x => decide (x.1 < 179) && decide (x.2.1 < 20)).foldl (fun t x => (chargeUnits x.1 x.2.1 x.2.2 t).2) s := by
  induction counts generalizing s with
  | nil => rfl
  | cons x l ih =>
    cases hx : decide (x.1 < 179) && decide (x.2.1 < 20) with
    | true =>
      rw [List.filter_cons_of_pos (by exact hx), List.foldl_cons, ← ih]
      change (forA l _ (whenA (decide (x.1 < 179) && decide (x.2.1 < 20)) (chargeUnits x.1 x.2.1 x.2.2) s).2).2 = _
      rw [hx]
      rfl
    | false =>
      rw [List.filter_cons_of_neg (by rw [hx]; exact Bool.false_ne_true), ← ih]
      change (forA l _ (whenA (decide (x.1 < 179) && decide (x.2.1 < 20)) (chargeUnits x.1 x.2.1 x.2.2) s).2).2 = _
      rw [hx]
      rfl

/-- Counting changes the window's counts and takes the cap over, and nothing else. -/
theorem M.counted_eq (s : M) (counts : List (Nat × Nat × Nat)) :
    ∃ act, s.counted counts = { s with gov := { s.gov with cap := s.reg Reg.pwrCapW, act := act } } := by
  refine List.foldlRecOn (motive := fun t : M => ∃ act, t = { s with gov := { s.gov with cap := s.reg Reg.pwrCapW, act := act } }) _ _ ⟨s.gov.act, rfl⟩ ?_
  rintro t ⟨act, rfl⟩ ⟨i, k, n⟩ -
  exact ⟨_, rfl⟩

/-! ## The grants -/

/-- Registers of the kind C and what the rings of cores hold beside their registers have changed, and nothing else. -/
structure M.granting (C : Nat → Prop) (s t : M) : Prop where
  wf : t.wf = true
  rest : { t with regs := s.regs, cores := s.cores } = s
  regs : ∀ o, ¬ C o → t.reg o = s.reg o

section
variable {C : Nat → Prop} {s t : M}

theorem M.granting.refl (hw : s.wf = true) : s.granting C s := ⟨hw, rfl, fun _ _ => rfl⟩

theorem M.granting.setReg (h : s.granting C t) {o : Nat} (ho : C o) (v : Nat) : s.granting C (t.setReg o v) :=
  ⟨M.wf_setReg o v h.wf, h.rest, fun o' ho' => (M.reg_setReg_other t v fun e : o' = o => ho' (e ▸ ho)).trans (h.regs o' ho')⟩

theorem keepsGranting_grantWaits (n e : Nat) : Keeps (s.granting C) (grantWaits n e) :=
  keeps_getThen fun _ => keeps_whenA fun t h => ⟨keepsWf_updRing n e _ t h.wf, h.rest, h.regs⟩

theorem toSigned_64_range (v : Nat) : -2 ^ 63 ≤ toSigned 64 v ∧ toSigned 64 v < 2 ^ 63 := by
  have hlt : v % 2 ^ 64 < 2 ^ 64 := Nat.mod_lt _ (by decide)
  unfold toSigned
  split <;> omega

theorem toSigned_ofSigned_64 {y : Int} (hlo : -2 ^ 63 ≤ y) (hhi : y < 2 ^ 63) : toSigned 64 (ofSigned 64 y) = y := by
  obtain ⟨hlo', hhi'⟩ := toSigned_64_range (ofSigned 64 y)
  obtain ⟨k, hk⟩ := ((toSigned_modEq 64 _).trans (ofSigned_modEq 64 y)).symm.dvd
  omega

/-- What a grant notes: the event, and the engines that wait on. -/
def noteGrant (i x : Nat) : Act Unit := do
  let t ← get
  whenA (decide (i < 128) && x != 0) do
    posEvent i 0x131 (x / 1024)
    forA ((List.range t.nCores).filter fun n => t.posOf n == i) fun n => forA (List.range 4) (grantWaits n)

theorem keepsGranting_noteGrant (hev : ∀ o, Reg.ofPosCounts o → C o) (i x : Nat) : Keeps (s.granting C) (noteGrant i x) :=
  keeps_getThen fun _ => keeps_whenA (keeps_bind (keeps_posEvent_of (fun _ _ v ho h => h.setReg (hev _ ho) v) _ _ _) fun _ =>
    keeps_forA fun n => keeps_forA fun e => keepsGranting_grantWaits n e)

theorem run_grantIsland (i x : Nat) (s : M) :
    (grantIsland i x s).2 = (noteGrant i x (s.setReg (Reg.pwrBalance i) (ofSigned 64 (s.balance i + x)))).2 := rfl

theorem keepsGranting_grantIsland {i : Nat} (hev : ∀ o, Reg.ofPosCounts o → C o) (hbal : C (Reg.pwrBalance i)) (x : Nat) :
    Keeps (s.granting C) (grantIsland i x) := fun t h => by
  rw [run_grantIsland]
  exact keepsGranting_noteGrant hev i x _ (h.setReg hbal _)

/-- The registers that granting these islands writes. -/
def Reg.ofGrants (l : List Nat) (o : Nat) : Prop := Reg.ofPosCounts o ∨ ∃ i ∈ l, o = Reg.pwrBalance i

theorem keepsGranting_grants {l : List (Nat × Nat × Nat)} {l' : List Nat} (hl : ∀ x ∈ l, x.1 ∈ l') :
    Keeps (s.granting (Reg.ofGrants l')) (forA l fun x => grantIsland x.1 x.2.2) :=
  keeps_forA_mem fun x hx => keepsGranting_grantIsland (fun _ h => .inl h) (.inr ⟨x.1, hl x hx, rfl⟩) _

theorem Reg.pwrBalance_not_ofPosCounts {i : Nat} (hi : i < 152) : ¬ Reg.ofPosCounts (Reg.pwrBalance i) := fun ⟨h, _⟩ => by
  simp only [Reg.pwrBalance] at h
  omega

/-- Granting other islands keeps a balance. -/
theorem M.granting.balance {l : List Nat} (h : s.granting (Reg.ofGrants l) t) {i : Nat} (hi : i < 152) (hnot : i ∉ l) :
    t.balance i = s.balance i := by
  refine congrArg (toSigned 64) (h.regs _ ?_)
  rintro (hev | ⟨j, hj, he⟩)
  · exact Reg.pwrBalance_not_ofPosCounts hi hev
  · exact hnot ((show i = j by simp only [Reg.pwrBalance] at he; omega) ▸ hj)

/-- Granting an island adds the grant to its balance. -/
theorem grantIsland_balance (hw : s.wf = true) {i x : Nat} (hi : i < 152) (hx : x ≤ ((creditCap : Int) - s.balance i).toNat) :
    (grantIsland i x s).2.balance i = s.balance i + x := by
  have hnote : M.granting Reg.ofPosCounts _ (grantIsland i x s).2 :=
    keepsGranting_noteGrant (fun _ h => h) i x _ (.refl (M.wf_setReg (Reg.pwrBalance i) (ofSigned 64 (s.balance i + x)) hw))
  obtain ⟨hlo, hhi⟩ := toSigned_64_range (s.reg (Reg.pwrBalance i))
  simp only [M.balance, creditCap] at hx
  rw [M.balance, hnote.regs _ (Reg.pwrBalance_not_ofPosCounts hi), M.reg_setReg_self _ _ _ hw, M.balance]
  exact toSigned_ofSigned_64 (by omega) (by omega)

/-- Each island of the list gets its grant, once. -/
theorem grants_balance (hw : s.wf = true) {l : List (Nat × Nat × Nat)} (hl : (l.map Prod.fst).Nodup) (hlt : ∀ x ∈ l, x.1 < 152)
    (hle : ∀ x ∈ l, x.2.2 ≤ ((creditCap : Int) - s.balance x.1).toNat) {x : Nat × Nat × Nat} (hx : x ∈ l) :
    (forA l (fun x => grantIsland x.1 x.2.2) s).2.balance x.1 = s.balance x.1 + x.2.2 := by
  obtain ⟨l1, l2, rfl⟩ := List.append_of_mem hx
  rw [List.map_append, List.map_cons] at hl
  obtain ⟨-, hnodup, hdisj⟩ := List.nodup_append.1 hl
  have hnot1 : x.1 ∉ l1.map Prod.fst := fun h => hdisj x.1 h x.1 List.mem_cons_self rfl
  have hnot2 : x.1 ∉ l2.map Prod.fst := (List.nodup_cons.1 hnodup).1
  have hi := hlt x hx
  have hmap : ∀ l : List (Nat × Nat × Nat), ∀ y ∈ l, y.1 ∈ l.map Prod.fst := fun l y hy => List.mem_map_of_mem hy
  rw [run_forA_append]
  have h1 : s.granting (Reg.ofGrants (l1.map Prod.fst)) (forA l1 (fun x => grantIsland x.1 x.2.2) s).2 :=
    keepsGranting_grants (hmap l1) s (.refl hw)
  have hbal := h1.balance hi hnot1
  have hwt := h1.wf
  have hx' := hle x hx
  generalize (forA l1 (fun x => grantIsland x.1 x.2.2) s).2 = t at *
  rw [← hbal] at hx' ⊢
  have h2 : M.granting (Reg.ofGrants (l2.map Prod.fst)) (grantIsland x.1 x.2.2 t).2
      (forA l2 (fun x => grantIsland x.1 x.2.2) (grantIsland x.1 x.2.2 t).2).2 :=
    keepsGranting_grants (hmap l2) _ (.refl (keepsWf_grantIsland x.1 x.2.2 t hwt))
  exact (h2.balance hi hnot2).trans (grantIsland_balance hwt hi hx')

end

/-! ## The window -/

/-- The power that a window is accounted with (R330): the estimate, or the measured power in the mismatch state. -/
def M.windowPower (b : M) (temps : List Nat) : Nat :=
  if bit (b.reg Reg.pwrStatus) 2 && !bit (b.reg Reg.pwrStatus) 4 then max (b.estimate temps) (bits (b.reg Reg.pwrPower) 31 16)
  else b.estimate temps

/-- The headroom after a window. -/
def M.windowHeadroom (b : M) (temps : List Nat) : Nat :=
  if b.imageReady then min 4000000 (b.gov.h + 2 * b.capEff - 2 * b.windowPower temps) else 0

/-- The windows in a row above the cap. -/
def M.windowRun (b : M) (temps : List Nat) : Nat :=
  if b.imageReady && decide (b.windowPower temps > b.capEff) then satU 16 (b.gov.run + 1) else 0

/-- The power that the next window may take, in watts. -/
def M.windowLimit (b : M) (temps : List Nat) : Nat :=
  if !b.imageReady then 500 else if b.windowHeadroom temps > 0 ∧ b.windowRun temps < 5000 then min 2000 (b.capEff + 400) else b.capEff

/-- The grants of a window. -/
def M.windowGrants (b : M) (counts : List (Nat × Nat × Nat)) (temps : List Nat) : List (Nat × Nat × Nat) :=
  fillShares 160 (b.windowLimit temps * 2000000 - (max 120000000 b.floorPj + b.fixedPj counts + b.leakage temps))
    (b.busyIslands.map fun i => (i, ((creditCap : Int) - b.balance i).toNat, 0))

/-- The governor's own state when the account of a window is closed. -/
def M.windowGov (b : M) (temps : List Nat) : Gov :=
  { b.gov with act := [], h := b.windowHeadroom temps, run := b.windowRun temps, pgov := b.windowPower temps,
               est := b.gov.est + b.estimate temps, gov := b.gov.gov + b.windowPower temps, wins := b.gov.wins + 1 }

/-- The machine when the account of a window is closed. -/
def M.windowClosed (b : M) (temps : List Nat) : M :=
  let v := ({ b with gov := b.windowGov temps } : M).setReg Reg.pwrHeadroom (b.windowHeadroom temps / 1000)
  v.setReg Reg.pwrStatus (setBits (v.reg Reg.pwrStatus) 26 16 b.capEff)

theorem run_window (counts : List (Nat × Nat × Nat)) (temps : List Nat) (s : M) :
    (window counts temps s).2 =
      (forA ((s.counted counts).windowGrants counts temps) (fun x => grantIsland x.1 x.2.2) ((s.counted counts).windowClosed temps)).2 := by
  rw [M.counted, ← forA_counts]
  rfl

theorem windowClosed_shows {b : M} (hw : b.wf = true) (temps : List Nat) :
    (b.windowClosed temps).wf = true ∧ (b.windowClosed temps).reg Reg.pwrHeadroom = b.windowHeadroom temps / 1000 ∧
    bits ((b.windowClosed temps).reg Reg.pwrStatus) 26 16 = b.capEff % 2 ^ 11 ∧
    ∀ i, i < 152 → (b.windowClosed temps).balance i = b.balance i := by
  have hw1 := M.wf_setReg (s := { b with gov := b.windowGov temps }) Reg.pwrHeadroom (b.windowHeadroom temps / 1000) hw
  refine ⟨M.wf_setReg _ _ hw1, ?_, ?_, fun i hi => ?_⟩
  · exact (M.reg_setReg_other _ _ (by decide)).trans (M.reg_setReg_self _ _ _ hw)
  · rw [M.windowClosed, M.reg_setReg_self _ _ _ hw1, bits_setBits_self (by decide)]
  · refine congrArg (toSigned 64) ((M.reg_setReg_other _ _ ?_).trans (M.reg_setReg_other _ _ ?_))
    · simp only [Reg.pwrBalance, Reg.pwrStatus]
      omega
    · simp only [Reg.pwrBalance, Reg.pwrHeadroom]
      omega

theorem M.busyIslands_nodup (s : M) : s.busyIslands.Nodup := List.nodup_range.filter _

theorem M.busyIslands_lt (s : M) : ∀ i ∈ s.busyIslands, i < 152 := fun _ hi => List.mem_range.1 (List.mem_filter.1 hi).1

/-- The grants name the busy islands, and none is more than its island wants. -/
theorem windowGrants_names (b : M) (counts : List (Nat × Nat × Nat)) (temps : List Nat) :
    (b.windowGrants counts temps).map Prod.fst = b.busyIslands ∧
    ∀ x ∈ b.windowGrants counts temps, x.2.2 ≤ ((creditCap : Int) - b.balance x.1).toNat := by
  have hkeep := (equalSharesStayWithinBudget 160 (b.windowLimit temps * 2000000 - (max 120000000 b.floorPj + b.fixedPj counts + b.leakage temps))
    (b.busyIslands.map fun i => (i, ((creditCap : Int) - b.balance i).toNat, 0))).1
  rw [List.map_map] at hkeep
  refine ⟨?_, fun x hx => ?_⟩
  · have hnames := congrArg (List.map Prod.fst) hkeep
    rw [List.map_map, List.map_map] at hnames
    exact hnames.trans (List.map_id' _)
  · have hmem := List.mem_map_of_mem (f := fun x : Nat × Nat × Nat => (x.1, x.2.1 + x.2.2)) hx
    rw [M.windowGrants, hkeep] at hmem
    obtain ⟨i, -, he⟩ := List.mem_map.1 hmem
    simp only [Function.comp_apply, Nat.add_zero, Prod.mk.injEq] at he
    obtain ⟨rfl, hwant⟩ := he
    omega

/-- Settles O8: the window's account by `run_window`, the grants by `grants_balance`. -/
theorem governorWindowGrants : Obligations.GovernorWindowGrants := by
  intro s units activity temps hl hw counts b st est pgov h run limit want granted
  have hrun : exec (.governorWindow units activity temps) s = .next { s with m :=
      (forA (b.windowGrants counts temps) (fun x => grantIsland x.1 x.2.2) (b.windowClosed temps)).2 } := by
    rw [exec, execGovernorWindow, State.doing_live s _ hl, run_window]
  obtain ⟨act, hb⟩ := s.m.counted_eq counts
  have hb' : b = { s.m with gov := { s.m.gov with cap := s.m.reg Reg.pwrCapW, act := act } } := hb
  have hwb : b.wf = true := by
    rw [hb']
    exact hw
  have hreg : ∀ o, b.reg o = s.m.reg o := fun o => by rw [hb']; rfl
  have hready : b.imageReady = s.m.imageReady := by rw [hb']; rfl
  have hh : b.gov.h = s.m.gov.h := by rw [hb']
  have hrunEq : b.gov.run = s.m.gov.run := by rw [hb']
  have hwins : b.gov.wins = s.m.gov.wins := by rw [hb']
  have hbal : ∀ i, b.balance i = s.m.balance i := fun i => by rw [hb']; rfl
  have epgov : b.windowPower temps = pgov := by
    rw [M.windowPower, hreg, hreg]
  have eh : b.windowHeadroom temps = h := by
    rw [M.windowHeadroom, hready, epgov, hh]
  have erun : b.windowRun temps = run := by
    rw [M.windowRun, hready, epgov, hrunEq]
  have elimit : b.windowLimit temps = limit := by
    rw [M.windowLimit, hready, eh, erun]
  have ewant : (b.busyIslands.map fun i => (i, ((creditCap : Int) - b.balance i).toNat, 0)) = want := by
    simp only [hbal]
    rfl
  have egranted : b.windowGrants counts temps = granted := by
    rw [M.windowGrants, elimit, ewant]
  obtain ⟨hwc, hhead, hstatus, hbalc⟩ := windowClosed_shows hwb temps
  obtain ⟨hnames, hle⟩ := windowGrants_names b counts temps
  rw [egranted] at hrun hnames hle
  have hlt : ∀ x ∈ granted, x.1 < 152 := fun x hx => b.busyIslands_lt _ (hnames ▸ List.mem_map_of_mem hx)
  have hgr : M.granting (Reg.ofGrants (granted.map Prod.fst)) (b.windowClosed temps)
      (forA granted (fun x => grantIsland x.1 x.2.2) (b.windowClosed temps)).2 :=
    keepsGranting_grants (fun x hx => List.mem_map_of_mem hx) _ (.refl hwc)
  have hgov : (forA granted (fun x => grantIsland x.1 x.2.2) (b.windowClosed temps)).2.gov = (b.windowClosed temps).gov :=
    (congrArg M.gov hgr.rest :)
  have hlow : ∀ o, o < 0x210400 → ¬ Reg.ofGrants (granted.map Prod.fst) o := by
    rintro o ho (⟨hev, -⟩ | ⟨i, -, rfl⟩)
    · omega
    · simp only [Reg.pwrBalance] at ho
      omega
  refine ⟨_, hrun, ?_⟩
  dsimp only
  rw [hgov]
  refine ⟨eh, erun, epgov, rfl, congrArg (· + 1) hwins, ?_, ?_, fun x hx => ?_, fun i hi hno => ?_, ?_⟩
  · rw [hgr.regs _ (hlow _ (by decide)), hhead, eh]
  · rw [hgr.regs _ (hlow _ (by decide)), hstatus]
  · rw [grants_balance hwc (hnames ▸ b.busyIslands_nodup) hlt (fun y hy => by rw [hbalc _ (hlt y hy)]; exact hle y hy) hx,
      hbalc _ (hlt x hx), hbal]
  · rw [hgr.balance hi (hnames ▸ hno), hbalc i hi, hbal]
  · have hmem : (forA granted (fun x => grantIsland x.1 x.2.2) (b.windowClosed temps)).2.mem = (b.windowClosed temps).mem :=
      (congrArg M.mem hgr.rest :)
    have hchk : (forA granted (fun x => grantIsland x.1 x.2.2) (b.windowClosed temps)).2.chk = (b.windowClosed temps).chk :=
      (congrArg M.chk hgr.rest :)
    have hstores : s.m.sameStores b := by rw [hb']; exact ⟨rfl, rfl⟩
    exact ⟨hmem.trans hstores.1, hchk.trans hstores.2⟩

end Sys2Proof.Machine

/-! # The input, the rails and PERST# (R428, R429, R431, R370, R435) -/

namespace Sys2Proof.Machine

/-- A flash command that is broken off leaves its slot partly written (R385). -/
theorem run_tearSlot (m : M) : (tearSlot m).2 = { m with boot := { m.boot with torn := m.tornBy } } := by
  unfold M.tornBy
  rw [tearSlot, run_modify]
  dsimp only
  split <;> rfl

theorem run_railsOff (m : M) : (railsOff m).2 = m.cut := by
  rw [railsOff, run_bind, run_tearSlot]
  rfl

theorem run_railsOff_then (m : M) (f : M → M) : ((do railsOff; modify f : Act Unit) m).2 = f m.cut := by
  rw [run_bind, run_modify, run_railsOff]

theorem exec_powerInputApplied {s : State} {mv held : Nat} (hlo : 48000 ≤ mv) (hhi : mv ≤ 56000) (hheld : 100 ≤ held)
    (htrip : s.m.board.tripped = false) : exec (.powerInputApplied mv held true) s =
      .next { s with m := { s.m with board := { s.m.board with presLow := true, powered := true } } } := by
  rw [exec, execPowerInputApplied, State.always]
  cases hp : s.m.board.powered <;> simp [hlo, hhi, hheld, htrip, hp]

theorem exec_inputOutOfRange (s : State) (mv held : Nat) : exec (.inputOutOfRange mv held) s =
    .next { s with m :=
      if (mv < 46000 ∨ 58000 < mv) ∧ 100 < held then
        if mv < 46000 then { s.m.cut with board := { s.m.cut.board with tripped := false } } else s.m.cut
      else s.m } := by
  rw [exec, execInputOutOfRange, State.always]
  congr 2
  by_cases hlow : mv < 46000
  · by_cases hheld : 100 < held <;> simp [hlow, hheld, run_railsOff]
  · by_cases hheld : 100 < held
    · by_cases hhigh : 58000 < mv <;> simp [hlow, hheld, hhigh, run_railsOff]
    · simp [hlow, hheld]

/-- Settles O5: each command by its guard, the rails by what they take with them (`run_railsOff`). -/
theorem railsAndReset : Obligations.RailsAndReset := by
  refine ⟨fun s => ⟨fun mv held hlo hhi hheld htrip => exec_powerInputApplied hlo hhi hheld htrip, fun k hlo hhi hp hl => ?_,
    fun mv held hmv hheld => ?_, fun mv held hmv hheld => ?_, fun mv held h => ?_, ?_⟩, fun s => ⟨?_, ?_⟩⟩
  · rw [exec, execRailFault, State.always]
    simp only [run_bind, run_get, decide_eq_true hlo, decide_eq_true hhi, hp, hl, Bool.not_false, Bool.and_self, run_whenA, if_true]
    rw [run_railsOff, run_modify]
  · rw [exec_inputOutOfRange, if_pos ⟨.inr hmv, hheld⟩, if_neg (by omega)]
  · rw [exec_inputOutOfRange, if_pos ⟨.inl hmv, hheld⟩, if_pos hmv]
  · rw [exec_inputOutOfRange, if_neg (by omega)]
  · rw [exec, execPresDeassert, State.always, run_railsOff_then]
  · rw [exec, execPerstAssert, State.always, run_bind, run_modify, run_tearSlot]
    simp
  · rw [exec, execPerstAssert, State.always, run_bind, run_modify, run_tearSlot]
    simp

end Sys2Proof.Machine

/-! # SPDM services and the keys of IDE streams (R389, R393 to R395) -/

namespace Sys2Proof.Machine

/-! ## Free bytes and random bytes -/

theorem run_drbg (n : Nat) (s : M) : ∃ x : List Byte, x.length = n ∧
    drbg n s = (x, { s with sec := { s.sec with draws := s.sec.draws + 1 }, free := s.free + n }) := by
  obtain ⟨x, hx, h⟩ := run_freeBytes n { s with sec := { s.sec with draws := s.sec.draws + 1 } }
  exact ⟨x, hx, by rw [drbg, run_bind, run_modify, h]⟩

/-! ## The SPDM services -/

section
variable {s : State} {mctp : Bool}

theorem exec_getCertificate (hl : s.m.board.live = true) (k : Nat) : exec (.getCertificate mctp k) s = s.becomes
    (if s.m.spdmOpen mctp then s.m.out (if k ≤ 1 then .spdm mctp 1 (Config.certChain k) else .spdm mctp 0 (leBytes 1 1)) else s.m) := by
  rw [exec, execGetCertificate, State.doing_live s _ hl]
  simp only [run_bind, run_get, run_whenA, run_ite, spdmError, run_emit]
  by_cases ho : s.m.spdmOpen mctp = true
  · by_cases hk : k ≤ 1 <;> simp [ho, hk]
  · rw [if_neg ho, if_neg ho]

/-- A challenge of slot 0 draws a nonce, and leaves the signature open. -/
theorem exec_challenge_zero (hl : s.m.board.live = true) (ho : s.m.spdmOpen mctp = true) (n : Nat) : ∃ x : List Byte, x.length = 416 ∧
    exec (.challenge mctp 0 n) s = s.becomes (({ s.m with sec := { s.m.sec with draws := s.m.sec.draws + 1 }, free := s.m.free + 416 } : M).out
      (.spdm mctp 2 (sha384 (Config.certChain 0) ++ x))) := by
  obtain ⟨x, hx, hrun⟩ := run_drbg 32 s.m
  obtain ⟨y, hy, hrun'⟩ := run_freeBytes 384 { s.m with sec := { s.m.sec with draws := s.m.sec.draws + 1 }, free := s.m.free + 32 }
  refine ⟨x ++ y, by rw [List.length_append, hx, hy], ?_⟩
  rw [exec, execChallenge, State.doing_live s _ hl]
  simp only [run_bind, run_get, ho, run_whenA, if_true, hrun, hrun', run_emit, List.append_assoc]

theorem exec_challenge_other (hl : s.m.board.live = true) (ho : s.m.spdmOpen mctp = true) {k : Nat} (hk : k ≠ 0) (n : Nat) :
    exec (.challenge mctp k n) s = s.becomes (s.m.out (.spdm mctp 0 (leBytes 1 1))) := by
  rw [exec, execChallenge, State.doing_live s _ hl]
  simp [ho, hk, spdmError]

theorem exec_getMeasurements (hl : s.m.board.live = true) (ho : s.m.spdmOpen mctp = true) (i : Nat) : ∃ x : List Byte, x.length = 384 ∧
    exec (.getMeasurements mctp i) s = s.becomes (({ s.m with free := s.m.free + 384 } : M).out
      (.spdm mctp 3 ((if i = 0 then [13#8] else s.m.measurement i) ++ x))) := by
  obtain ⟨x, hx, hrun⟩ := run_freeBytes 384 s.m
  refine ⟨x, hx, ?_⟩
  rw [exec, execGetMeasurements, State.doing_live s _ hl]
  simp only [run_bind, run_get, ho, run_whenA, if_true, hrun, run_emit]

/-- Is the root that of the CO, and may it open a session at all (R389)? -/
def M.coRole (s : M) (root : List Byte) : Bool := !root.all (· == 0#8) && root == s.sec.coRoot

/-- With four sessions open a further one is refused. -/
theorem exec_keyExchange_busy (hl : s.m.board.live = true) (ho : s.m.spdmOpen mctp = true) {root : List Byte}
    (h : 4 ≤ s.m.sec.sessions.length) : exec (.keyExchange mctp root) s = s.becomes (s.m.out (.spdm mctp 0 (leBytes 1 3))) := by
  rw [exec, execKeyExchange, State.doing_live s _ hl]
  simp [ho, h, spdmError]

theorem exec_keyExchange_stranger (hl : s.m.board.live = true) (ho : s.m.spdmOpen mctp = true) {root : List Byte}
    (h : s.m.sec.sessions.length < 4) (hco : s.m.coRole root = false) (huser : root.all (· == 0#8) = true ∨ root ≠ s.m.sec.userRoot) :
    exec (.keyExchange mctp root) s = s.becomes (s.m.out (.spdm mctp 0 (leBytes 1 5))) := by
  have hno : (!s.m.coRole root && (root.all (· == 0#8) || root != s.m.sec.userRoot)) = true := by
    rcases huser with h | h <;> simp [hco, h]
  rw [M.coRole] at hno
  rw [exec, execKeyExchange, State.doing_live s _ hl]
  simp only [run_bind, run_get, ho, run_whenA, if_true, if_neg (Nat.not_le.2 h), hno]
  rfl

/-- Fewer than four sessions leave a number below four free. -/
theorem exists_free_session {l : List Session} (h : l.length < 4) :
    ∃ i, (List.range 4).find? (fun i => !l.any fun x => x.id == i) = some i := by
  by_contra hnone
  rw [not_exists] at hnone
  have hall := List.find?_eq_none.1 (Option.eq_none_iff_forall_ne_some.2 hnone)
  have hsub : List.range 4 ⊆ l.map (·.id) := fun i hi => by
    have hany := hall i hi
    simpa [List.any_eq_true] using hany
  have hlen := (List.nodup_range.subperm hsub).length_le
  rw [List.length_range, List.length_map] at hlen
  omega

/-- A root that has a role opens a session under a number that is free. -/
theorem exec_keyExchange_opens (hl : s.m.board.live = true) (ho : s.m.spdmOpen mctp = true) {root : List Byte}
    (h : s.m.sec.sessions.length < 4) (hrole : s.m.coRole root = true ∨ (root.all (· == 0#8) = false ∧ root = s.m.sec.userRoot)) :
    ∃ i x, i < 4 ∧ x.length = 96 ∧ (∀ y ∈ s.m.sec.sessions, y.id ≠ i) ∧ exec (.keyExchange mctp root) s = s.becomes
      (({ s.m.setReg Reg.secSessions (s.m.sec.sessions.length + 1) with free := s.m.free + 96, sec := { s.m.sec with
          draws := s.m.sec.draws + 1, sessions := s.m.sec.sessions ++ [⟨i, s.m.coRole root, mctp⟩] } } : M).out
        (.spdm mctp 4 (leBytes 1 i ++ x))) := by
  obtain ⟨i, hfind⟩ := exists_free_session h
  obtain ⟨x, hx, hrun⟩ := run_drbg 96 s.m
  have hfree := List.find?_some hfind
  have hyes : (!s.m.coRole root && (root.all (· == 0#8) || root != s.m.sec.userRoot)) = false := by
    rcases hrole with h | ⟨h, h'⟩
    · simp [h]
    · rw [h, h', bne_self_eq_false, Bool.or_false, Bool.and_false]
  refine ⟨i, x, List.mem_range.1 (List.mem_of_find?_eq_some hfind), hx, ?_, ?_⟩
  · simpa [List.any_eq_false] using hfree
  · rw [M.coRole] at hyes
    rw [exec, execKeyExchange, State.doing_live s _ hl]
    simp only [run_bind, run_get, ho, run_whenA, if_true, if_neg (Nat.not_le.2 h), hyes, Bool.false_eq_true, if_false, hfind, hrun, run_modify,
      showSessions, run_wr, run_emit, List.length_append, List.length_singleton]
    rfl

/-- A signature of n bytes in a session (R393). -/
def signIn (i n : Nat) : Act Unit := do
  let m ← get
  match m.session i with
  | none => pure ()
  | some x => do
    let g ← freeBytes n
    emit (.spdm x.mctp 5 g)

theorem run_signIn (i n : Nat) (m : M) : (m.session i = none → (signIn i n m).2 = m) ∧
    ∀ x, m.session i = some x → ∃ y : List Byte, y.length = n ∧
      (signIn i n m).2 = (({ m with free := m.free + n } : M).out (.spdm x.mctp 5 y)) := by
  obtain ⟨y, hy, hrun⟩ := run_freeBytes n m
  constructor
  · intro h
    simp only [signIn, run_bind, run_get, h]
    rfl
  · intro x h
    refine ⟨y, hy, ?_⟩
    simp only [signIn, run_bind, run_get, h, hrun, run_emit]

theorem exec_signPq (hl : s.m.board.live = true) (i : Nat) : exec (.signPq i) s = s.becomes (signIn i 16224 s.m).2 :=
  State.doing_live s (signIn i 16224) hl

end

/-- Settles O22: each service by what it answers on an open transport, and by its silence on one that is not. -/
theorem spdmServices : Obligations.SpdmServices := by
  intro s mctp hl replies error
  refine ⟨fun ho => ⟨fun k hk => ?_, fun k hk => ?_, fun n => exec_challenge_zero hl ho n, fun k n hk => exec_challenge_other hl ho hk n,
    fun i => exec_getMeasurements hl ho i, fun root => ⟨fun h => exec_keyExchange_busy hl ho h,
      fun h hco hu => exec_keyExchange_stranger hl ho h hco hu, fun h hrole => exec_keyExchange_opens hl ho h hrole⟩⟩,
    fun hc => ⟨fun k => ?_, fun k n => ?_, fun i => ?_, fun root => ?_⟩, fun i x hx hm => ?_, fun i h => ?_, fun i => ?_⟩
  · rw [exec_getCertificate hl, if_pos ho, if_pos hk]
  · rw [exec_getCertificate hl, if_pos ho, if_neg (by omega)]
  · rw [exec_getCertificate hl, hc]
    rfl
  · rw [exec, execChallenge, State.doing_live s _ hl, run_bind, run_get, hc]
    rfl
  · rw [exec, execGetMeasurements, State.doing_live s _ hl, run_bind, run_get, hc]
    rfl
  · rw [exec, execKeyExchange, State.doing_live s _ hl, run_bind, run_get, hc]
    rfl
  · subst hm
    obtain ⟨y, hy, hrun⟩ := (run_signIn i 16224 s.m).2 x hx
    exact ⟨y, hy, by rw [exec_signPq hl, hrun]; rfl⟩
  · rw [exec_signPq hl, (run_signIn i 16224 s.m).1 h]
  · rw [exec, execSessionEnd, State.doing_live s _ hl]
    rfl

/-! ## IDE keys -/

section
variable {s : State} {i : Nat}

/-- What happens in a session: the service if the session may, an error else, and nothing if it is not open. -/
theorem run_inSession (ok : Session → Bool) (kind : Nat) (a : Act Unit) (m : M) :
    (m.session i = none → (inSession i ok kind a m).2 = m) ∧
    ∀ x, m.session i = some x →
      (ok x = true → (inSession i ok kind a m).2 = (a m).2.out (.spdm x.mctp kind [])) ∧
      (ok x = false → (inSession i ok kind a m).2 = m.out (.spdm x.mctp 0 (leBytes 1 5))) := by
  refine ⟨fun h => ?_, fun x h => ⟨fun hok => ?_, fun hok => ?_⟩⟩
  · simp only [inSession, run_bind, run_get, h]
    rfl
  · simp only [inSession, run_bind, run_get, h, hok, if_true, run_emit]
  · simp only [inSession, run_bind, run_get, h, hok, Bool.false_eq_true, if_false]
    rfl

end

/-- Settles O23: each command by what happens in its session (`run_inSession`). -/
theorem ideKeysProgrammedByCo : Obligations.IdeKeysProgrammedByCo := by
  intro s i stream key hl hst others
  have hprog : exec (.keyProg i stream key) s = s.becomes (inSession i (fun x => x.co && !x.mctp && key.length == 32) 6 (modify fun s =>
      { s with sec := { s.sec with ide := (s.sec.ide.filter (·.stream != stream)) ++ [⟨stream, key, false⟩] } }) s.m).2 := by
    rw [exec, execKeyProg, State.doing_live s _ hl]
  have hgo : exec (.kSetGo i stream) s = s.becomes (inSession i (fun x => x.co && !x.mctp && s.m.sec.ide.any (·.stream == stream)) 7 (do
      modify fun s => { s with sec := { s.sec with ide := s.sec.ide.map fun k => if k.stream = stream then { k with going := true } else k } }
      setField Reg.hstStatus (ideBit stream) (ideBit stream) 1
      ideBack) s.m).2 := by
    rw [exec, execKSetGo, State.doing_live s _ hl]
    rfl
  have hstop : exec (.kSetStop i stream) s = s.becomes (inSession i (fun x => x.co && !x.mctp) 7 (do
      modify fun s => { s with sec := { s.sec with ide := s.sec.ide.filter (·.stream != stream) } }
      setField Reg.hstStatus (ideBit stream) (ideBit stream) 0) s.m).2 := by
    rw [exec, execKSetStop, State.doing_live s _ hl]
  rw [hprog, hgo, hstop]
  refine ⟨fun h => ?_, fun x hx => ⟨fun hco hm hk => ?_, fun hco hm ⟨k, hk, hks⟩ => ?_, fun hco hm => ?_, fun hno c hc => ?_⟩⟩
  · rw [(run_inSession _ _ _ s.m).1 h, (run_inSession _ _ _ s.m).1 h, (run_inSession _ _ _ s.m).1 h]
    exact ⟨rfl, rfl, rfl⟩
  · rw [((run_inSession _ _ _ s.m).2 x hx).1 (by simp [hco, hm, hk]), hm]
    rfl
  · have hany : s.m.sec.ide.any (·.stream == stream) = true := List.any_eq_true.2 ⟨k, hk, beq_iff_eq.2 hks⟩
    rw [((run_inSession _ _ _ s.m).2 x hx).1 (by simp [hco, hm, hany]), hm]
    simp only [run_bind, run_modify, run_setField, ideBack]
    cases hboth : bits ((s.m.setReg Reg.hstStatus (hst 1)).reg Reg.hstStatus) 22 21 != 3 with
    | true =>
      rw [Bool.and_true]
      exact congrArg (fun m : M => s.becomes (m.out (.spdm false 7 []))) (if_neg (bne_iff_ne.1 hboth))
    | false =>
      rw [Bool.and_false]
      exact congrArg (fun m : M => s.becomes (m.out (.spdm false 7 []))) (if_pos (bne_eq_false_iff_eq.1 hboth))
  · rw [((run_inSession _ _ _ s.m).2 x hx).1 (by simp [hco, hm]), hm]
    rfl
  · have hbad : (x.co && !x.mctp) = false := by rcases hno with h | h <;> simp [h]
    simp only [List.mem_cons, List.not_mem_nil, or_false] at hc
    rcases hc with rfl | rfl | rfl
    · rw [hprog, ((run_inSession _ _ _ s.m).2 x hx).2 (by rw [hbad]; rfl)]
    · rw [hgo, ((run_inSession _ _ _ s.m).2 x hx).2 (by rw [hbad]; rfl)]
    · rw [hstop, ((run_inSession _ _ _ s.m).2 x hx).2 hbad]

end Sys2Proof.Machine

/-! # The CAK and the SAKs of a port (R396, R251) -/

namespace Sys2Proof.Machine

/-! ## What counts an event at a port -/

/-- Counting events at a port keeps what a write of its counters' registers keeps. -/
theorem keeps_portEvent_of {P : M → Prop} (hP : ∀ t o v, 0x310000 ≤ o → P t → P (t.setReg o v)) (ctrl sub code n : Nat) :
    Keeps P (portEvent ctrl sub code n) := fun t h => by
  rw [portEvent, run_modify]
  refine List.foldlRecOn _ _ h fun u hu c _ => ?_
  split
  · unfold countAt
    dsimp only
    split
    · generalize u.reg (Reg.cntE ctrl c) + _ = v
      have hcnt := hP u (Reg.cntE ctrl c) (trunc 64 v) (by simp only [Reg.cntE]; omega) hu
      split
      · exact hcnt
      · exact hP _ _ _ (by simp only [Reg.cntEOvf]; omega) hcnt
    · exact hu
  · exact hu

theorem keeps_portCount_of {P : M → Prop} (hP : ∀ t o v, 0x310000 ≤ o → P t → P (t.setReg o v)) (p code n : Nat) :
    Keeps P (portCount p code n) := keeps_getThen fun _ => keeps_portEvent_of hP _ _ _ _

/-! ## Showing a SAK, and the MKA message -/

/-- The machine with MACsec shown at a port, and the ready mask of the SAKs (R251). -/
structure M.showsSak (port v : Nat) (s t : M) : Prop where
  wf : t.wf = true
  rest : { t with regs := s.regs } = s
  regs : ∀ o, o ≠ Reg.secStatus → o ≠ Reg.ethPortStatus port → t.reg o = s.reg o
  status : t.reg (Reg.ethPortStatus port) = setBits (s.reg (Reg.ethPortStatus port)) 26 26 v

theorem showSaks_run (s : M) : ∃ v, (showSaks s).2 = s.setReg Reg.secStatus v := ⟨_, rfl⟩

/-- MACsec is shown at a port, and the ready mask follows. -/
def M.shownAt (s : M) (port v : Nat) : M :=
  (showSaks (s.setReg (Reg.ethPortStatus port) (setBits (s.reg (Reg.ethPortStatus port)) 26 26 v))).2

theorem shows_sak {s : M} (hw : s.wf = true) (port v : Nat) :
    s.showsSak port v (s.shownAt port v) := by
  obtain ⟨x, hx⟩ := showSaks_run (s.setReg (Reg.ethPortStatus port) (setBits (s.reg (Reg.ethPortStatus port)) 26 26 v))
  have hne : Reg.ethPortStatus port ≠ Reg.secStatus := by simp only [Reg.ethPortStatus, Reg.secStatus]; omega
  rw [M.shownAt, hx]
  refine ⟨M.wf_setReg _ _ (M.wf_setReg _ _ hw), rfl, fun o ho ho' => ?_, ?_⟩
  · rw [M.reg_setReg_other _ _ ho, M.reg_setReg_other _ _ ho']
  · rw [M.reg_setReg_other _ _ hne, M.reg_setReg_self _ _ _ hw]

section
variable {s t : M} {port v : Nat}

theorem M.showsSak.bit (h : s.showsSak port v t) : bit (t.reg (Reg.ethPortStatus port)) 26 = decide (v % 2 = 1) := by
  rw [h.status, bit_setBits_self]

theorem M.showsSak.portUp (h : s.showsSak port v t) : t.portUp port = s.portUp port := by
  have hready : t.reg Reg.mgtReadyMap = s.reg Reg.mgtReadyMap :=
    h.regs _ (by decide) (by simp only [Reg.ethPortStatus, Reg.mgtReadyMap]; omega)
  have hmode : t.reg Reg.ethMode = s.reg Reg.ethMode := h.regs _ (by decide) (by simp only [Reg.ethPortStatus, Reg.ethMode]; omega)
  have hctl : t.reg (Reg.ethPortCtl port) = s.reg (Reg.ethPortCtl port) := h.regs _
    (by simp only [Reg.ethPortCtl, Reg.secStatus]; omega) (by simp only [Reg.ethPortStatus, Reg.ethPortCtl]; omega)
  have hlink : t.linkUp port = s.linkUp port := by
    rw [M.linkUp, h.status, bits_setBits_above (by decide) (by decide), M.linkUp]
  rw [M.portUp, hready, hctl, hlink, M.nPorts, hmode, M.portUp, M.nPorts]

/-- What an unprotected frame of a port is headed with. -/
theorem M.showsSak.eth (h : s.showsSak port v t) : { t.eth port true with sec := none } = { s.eth port true with sec := none } := by
  have hmode : t.reg Reg.ethMode = s.reg Reg.ethMode := h.regs _ (by decide) (by simp only [Reg.ethPortStatus, Reg.ethMode]; omega)
  have hnode : t.reg Reg.trnNode = s.reg Reg.trnNode := h.regs _ (by decide) (by simp only [Reg.ethPortStatus, Reg.trnNode]; omega)
  have hctl : t.reg (Reg.ethPortCtl port) = s.reg (Reg.ethPortCtl port) := h.regs _
    (by simp only [Reg.ethPortCtl, Reg.secStatus]; omega) (by simp only [Reg.ethPortStatus, Reg.ethPortCtl]; omega)
  have hhop : t.reg (Reg.ethPortNexthop port) = s.reg (Reg.ethPortNexthop port) := h.regs _
    (by simp only [Reg.ethPortNexthop, Reg.secStatus]; omega) (by simp only [Reg.ethPortStatus, Reg.ethPortNexthop]; omega)
  simp only [M.eth, M.macOf, M.node, hmode, hnode, hctl, hhop]

/-- What is sent out with an MKA message, which leaves where the port may send, unprotected (log 100). -/
def M.mkaOuts (s : M) (port : Nat) (sak : Bool) : List Output :=
  if s.portUp port = true ∧ s.board.portOff = false then .mka port { s.eth port true with sec := none } sak :: s.outs else s.outs

theorem M.showsSak.mkaOuts (h : s.showsSak port v t) (sak : Bool) : t.mkaOuts port sak = s.mkaOuts port sak := by
  have hboard : t.board = s.board := (congrArg M.board h.rest :)
  have houts : t.outs = s.outs := (congrArg M.outs h.rest :)
  rw [M.mkaOuts, h.portUp, h.eth, hboard, houts, M.mkaOuts]

/-- An MKA message counts at its port, and changes nothing else. -/
structure M.sendsMka (port : Nat) (sak : Bool) (s t : M) : Prop where
  rest : { t with regs := s.regs, outs := s.outs } = s
  regs : ∀ o, o < 0x310000 → t.reg o = s.reg o
  outs : t.outs = s.mkaOuts port sak

theorem sendMka_sends (s : M) (port : Nat) (sak : Bool) : s.sendsMka port sak (sendMka port sak s).2 := by
  have hrun : (sendMka port sak s).2 = if s.portUp port = true ∧ s.board.portOff = false then
      (portCount port 0x200 1 (s.out (.mka port { s.eth port true with sec := none } sak))).2 else s := by
    simp only [sendMka, run_bind, run_get, run_whenA, run_emit]
    cases s.portUp port <;> cases s.board.portOff <;> rfl
  rw [hrun]
  split
  · next h =>
    have hcount := keeps_portCount_of (P := fun u => { u with regs := s.regs } =
        s.out (.mka port { s.eth port true with sec := none } sak) ∧ ∀ o, o < 0x310000 → u.reg o = s.reg o)
      (fun u o v ho ⟨hu, hr⟩ => ⟨hu, fun o' ho' => (M.reg_setReg_other u v (by omega)).trans (hr o' ho')⟩) port 0x200 1
      (s.out (.mka port { s.eth port true with sec := none } sak)) ⟨rfl, fun _ _ => rfl⟩
    obtain ⟨hrest, hregs⟩ := hcount
    refine ⟨?_, hregs, ?_⟩
    · exact congrArg (fun u : M => ({ u with outs := s.outs } : M)) hrest
    · rw [M.mkaOuts, if_pos h]
      exact (congrArg M.outs hrest :)
  · next h => exact ⟨rfl, fun _ _ => rfl, by rw [M.mkaOuts, if_neg h]⟩

/-- A port's keys are set, MACsec is shown there, and an MKA message leaves. -/
theorem announced_ends {m : M} (hw : m.wf = true) (port v : Nat) (x : Sec) (sak : Bool) :
    let t := ((do
      modify fun s => { s with sec := x }
      setField (Reg.ethPortStatus port) 26 26 v
      showSaks
      sendMka port sak : Act Unit) m).2
    t.sec = x ∧ t.outs = m.mkaOuts port sak ∧ (port < 64 → bit (t.reg (Reg.ethPortStatus port)) 26 = decide (v % 2 = 1)) ∧ m.sameStores t := by
  have hshow := shows_sak (s := { m with sec := x }) hw port v
  have hsend := sendMka_sends (M.shownAt { m with sec := x } port v) port sak
  refine ⟨?_, hsend.outs.trans (hshow.mkaOuts sak), fun hp => ?_, ?_⟩
  · exact (congrArg M.sec hsend.rest :).trans (congrArg M.sec hshow.rest :)
  · exact (congrArg (fun x => Nat.testBit x 26) (hsend.regs _ (by simp only [Reg.ethPortStatus]; omega))).trans hshow.bit
  · exact ⟨(congrArg M.mem hsend.rest :).trans (congrArg M.mem hshow.rest :), (congrArg M.chk hsend.rest :).trans (congrArg M.chk hshow.rest :)⟩

end

/-! ## The CAK -/

/-- The ports once the CAK of one is installed. -/
def Sec.withCak (x : Sec) (port : Nat) (cak ckn : List Byte) : Sec :=
  { x with ports := (x.ports.filter (·.port != port)) ++
      [{ port := port, cak := cak, ckn := ckn, kek := Config.mkaKek cak ckn, ick := Config.mkaIck cak ckn }] }

/-- May the CAK be installed (R396)? -/
def M.cakOk (s : M) (port : Nat) (cak ckn : List Byte) : Prop :=
  cak.length = 32 ∧ 1 ≤ ckn.length ∧ ckn.length ≤ 32 ∧ port < s.nPorts ∧ bit (s.reg (Reg.ethPortCtl port)) 31 = true

theorem exec_installCak {s : State} (hl : s.m.board.live = true) (i port : Nat) (cak ckn : List Byte) :
    exec (.installCak i port cak ckn) s = s.becomes (inSession i (fun x => x.co && (cak.length == 32 && decide (1 ≤ ckn.length) &&
        decide (ckn.length ≤ 32) && decide (port < s.m.nPorts) && bit (s.m.reg (Reg.ethPortCtl port)) 31)) 8 (do
      modify fun s => { s with sec := s.sec.withCak port cak ckn }
      setField (Reg.ethPortStatus port) 26 26 0
      showSaks
      sendMka port false) s.m).2 := by
  rw [exec, execInstallCak, State.doing_live s _ hl]
  rfl

theorem M.cakOk_iff (s : M) (port : Nat) (cak ckn : List Byte) : s.cakOk port cak ckn ↔
    (cak.length == 32 && decide (1 ≤ ckn.length) && decide (ckn.length ≤ 32) && decide (port < s.nPorts)
      && bit (s.reg (Reg.ethPortCtl port)) 31) = true := by
  simp [M.cakOk, and_assoc]

/-! ## The SAKs -/

/-- The ports once one has a SAK beside the one in use till then. -/
def Sec.withSak (x : Sec) (port : Nat) (sak : List Byte) : Sec :=
  { x with ports := x.ports.map fun p => if p.port = port then
      { p with saks := ({ an := (p.saks.head?.elim 0 fun k => (k.an + 1) % 4), key := sak } :: p.saks).take 2 } else p }

theorem run_installSak (port : Nat) (sak : List Byte) (m : M) : (installSak port sak m).2 = ((do
    modify fun s => { s with sec := m.sec.withSak port sak }
    setField (Reg.ethPortStatus port) 26 26 1
    showSaks : Act Unit) m).2 := rfl

theorem installSak_ends {m : M} (hw : m.wf = true) {port : Nat} (sak : List Byte) :
    let t := (installSak port sak m).2
    t.sec = m.sec.withSak port sak ∧ bit (t.reg (Reg.ethPortStatus port)) 26 = true ∧ m.sameStores t := by
  have hshow := shows_sak (s := { m with sec := m.sec.withSak port sak }) hw port 1
  exact ⟨(congrArg M.sec hshow.rest :), hshow.bit, (congrArg M.mem hshow.rest :), (congrArg M.chk hshow.rest :)⟩

/-- A SAK is drawn, installed and announced. -/
def drawSak (port : Nat) : Act Unit := do
  let k ← drbg 32
  installSak port k
  sendMka port true

/-- A SAK that is drawn is installed and announced. -/
theorem drawnSak_ends {m : M} (hw : m.wf = true) {port : Nat} (hp : port < 64) :
    ∃ k : List Byte, k.length = 32 ∧
      let t := (drawSak port m).2
      t.sec = { m.sec.withSak port k with draws := m.sec.draws + 1 } ∧ bit (t.reg (Reg.ethPortStatus port)) 26 = true ∧ m.sameStores t := by
  obtain ⟨k, hk, hdraw⟩ := run_drbg 32 m
  have hrun : (drawSak port m).2 = (sendMka port true (installSak port k
      { m with sec := { m.sec with draws := m.sec.draws + 1 }, free := m.free + 32 }).2).2 := by
    rw [drawSak, run_bind, hdraw, run_bind]
  obtain ⟨hsec, hbit, hstores⟩ := installSak_ends (port := port)
    (m := { m with sec := { m.sec with draws := m.sec.draws + 1 }, free := m.free + 32 }) hw k
  have hsend := sendMka_sends (installSak port k { m with sec := { m.sec with draws := m.sec.draws + 1 }, free := m.free + 32 }).2 port true
  refine ⟨k, hk, ?_⟩
  rw [hrun]
  refine ⟨(congrArg M.sec hsend.rest :).trans hsec, ?_, ?_⟩
  · rw [hsend.regs _ (by simp only [Reg.ethPortStatus]; omega), hbit]
  · exact ⟨(congrArg M.mem hsend.rest :).trans hstores.1, (congrArg M.chk hsend.rest :).trans hstores.2⟩

/-- The priority of this end as key server (R396). -/
def Sec.priority (x : Sec) : Nat := ((x.policy.drop 4).headD 0#8).toNat

/-- With priorities that differ, the lower one serves the keys where the policy lets it (R396). -/
theorem exec_mkpduReceived {s : State} (hl : s.m.board.live = true) {port prio : Nat} (sak : List Byte) {p : PortKeys}
    (hp : s.m.sec.ports.find? (·.port = port) = some p) (ha : s.m.approved = true) (hne : s.m.sec.priority ≠ prio) :
    exec (.mkpduReceived port true prio sak) s = s.becomes (
      if bit (s.m.reg Reg.secPolicy) 2 && decide (s.m.sec.priority < prio) then (whenA p.saks.isEmpty (drawSak port) s.m).2
      else (whenA (sak.length == 32 && !p.saks.any (·.key == sak)) (installSak port sak) s.m).2) := by
  have htie : (b2n (decide (s.m.sec.priority < prio)) == 1) = decide (s.m.sec.priority < prio) := by
    cases decide (s.m.sec.priority < prio) <;> rfl
  have hon : ∀ a : Act Unit, whenA true a = a := fun _ => rfl
  rw [exec, execMkpduReceived, State.doing_live s _ hl, run_bind, run_get]
  simp only [hp, ha, Bool.and_self]
  rw [Sec.priority] at *
  simp only [hon, if_neg hne, run_bind, run_pure, htie]
  by_cases hserves : (bit (s.m.reg Reg.secPolicy) 2 && decide (((s.m.sec.policy.drop 4).headD 0#8).toNat < prio)) = true
  · rw [if_pos hserves, if_pos hserves]
    rfl
  · rw [if_neg hserves, if_neg hserves]

/-- The server draws a SAK where it has distributed none. -/
theorem exec_mkpduReceived_server {s : State} (hl : s.m.board.live = true) {port prio : Nat} (sak : List Byte) {p : PortKeys}
    (hp : s.m.sec.ports.find? (·.port = port) = some p) (ha : s.m.approved = true) (hlt : s.m.sec.priority < prio)
    (hpol : bit (s.m.reg Reg.secPolicy) 2 = true) : exec (.mkpduReceived port true prio sak) s =
      s.becomes (if p.saks = [] then (drawSak port s.m).2 else s.m) := by
  rw [exec_mkpduReceived hl sak hp ha hlt.ne, if_pos (by rw [hpol, decide_eq_true hlt]; rfl), run_whenA]
  simp only [List.isEmpty_iff]

/-- The SAK that the server distributes is installed, unless the port holds it. -/
theorem exec_mkpduReceived_peer {s : State} (hl : s.m.board.live = true) {port prio : Nat} (sak : List Byte) {p : PortKeys}
    (hp : s.m.sec.ports.find? (·.port = port) = some p) (ha : s.m.approved = true)
    (hpeer : prio < s.m.sec.priority ∨ (s.m.sec.priority ≠ prio ∧ bit (s.m.reg Reg.secPolicy) 2 = false)) :
    exec (.mkpduReceived port true prio sak) s =
      s.becomes (if sak.length = 32 ∧ ∀ k ∈ p.saks, k.key ≠ sak then (installSak port sak s.m).2 else s.m) := by
  have hno : ¬ (bit (s.m.reg Reg.secPolicy) 2 && decide (s.m.sec.priority < prio)) = true := by
    rcases hpeer with h | ⟨-, h⟩
    · simp [Nat.not_lt.2 h.le]
    · simp [h]
  have hcond : (sak.length == 32 && !p.saks.any (·.key == sak)) = true ↔ sak.length = 32 ∧ ∀ k ∈ p.saks, k.key ≠ sak := by
    simp
  rw [exec_mkpduReceived hl sak hp ha (by rcases hpeer with h | ⟨h, -⟩ <;> omega), if_neg hno, run_whenA]
  simp only [hcond]

/-- Settles O24: the CAK by what happens in a session and by what is announced (`announced_ends`), a SAK by who serves the keys. -/
theorem macsecKeys : Obligations.MacsecKeys := by
  intro s port hl hw hport
  refine ⟨fun i x cak ckn hx => ?_, fun i cak ckn h => ?_, fun prio sak => ?_, fun prio sak ha ⟨p0, hp0, hpp⟩ => ?_⟩
  · intro ok
    have hok : ok ↔ _ := s.m.cakOk_iff port cak ckn
    rw [exec_installCak hl]
    refine ⟨fun hco h => ?_, fun hno => ?_⟩
    · rw [((run_inSession _ _ _ s.m).2 x hx).1 (by rw [hco, Bool.true_and]; exact hok.1 h)]
      obtain ⟨hsec, houts, hbit, hstores⟩ := announced_ends hw port 0 (s.m.sec.withCak port cak ckn) false
      refine ⟨_, rfl, ⟨⟨port, cak, ckn, Config.mkaKek cak ckn, Config.mkaIck cak ckn, []⟩, ?_, rfl, rfl, rfl, rfl, rfl, rfl⟩, fun p hp hne => ?_, ?_, hbit hport, ?_, hstores⟩
      · exact hsec ▸ List.mem_append_right _ (List.mem_singleton_self _)
      · exact hsec ▸ List.mem_append_left _ (List.mem_filter.2 ⟨hp, bne_iff_ne.2 hne⟩)
      · exact congrArg (Output.spdm x.mctp 8 [] :: ·) houts
      · exact (congrArg Sec.sessions hsec :)
    · rw [((run_inSession _ _ _ s.m).2 x hx).2 (by
        rcases hno with h | h
        · rw [h, Bool.false_and]
        · rw [Bool.eq_false_iff.2 (fun h' => h (hok.2 h')), Bool.and_false])]
  · rw [exec_installCak hl, (run_inSession _ _ _ s.m).1 h]
  · rw [exec, execMkpduReceived, State.doing_live s _ hl, run_bind, run_get]
    cases s.m.sec.ports.find? (·.port = port) <;> rfl
  · intro own peer mine has
    obtain ⟨p, hfind⟩ : ∃ p, s.m.sec.ports.find? (·.port = port) = some p :=
      Option.isSome_iff_exists.1 (List.find?_isSome.2 ⟨p0, hp0, by simpa using hpp⟩)
    have hmine : p ∈ mine := List.mem_filter.2 ⟨List.mem_of_find?_eq_some hfind, by simpa using List.find?_some hfind⟩
    have hown : s.m.sec.priority = own := rfl
    have hhas : ∀ k m, m.sec.ports = (s.m.sec.withSak port k).ports → bit (m.reg (Reg.ethPortStatus port)) 26 = true →
        m.sec.sessions = s.m.sec.sessions → s.m.sameStores m → has m k := fun k m h1 h2 h3 h4 => ⟨h1, h2, h3, h4⟩
    refine ⟨fun hlt hpol hall => ?_, fun hlt hpol hall => ?_, fun hpeer hlen hall => ?_, fun hpeer hbad => ?_⟩
    · rw [exec_mkpduReceived_server hl sak hfind ha hlt hpol, if_pos (hall p hmine)]
      obtain ⟨k, hk, hsec, hbit, hstores⟩ := drawnSak_ends hw hport
      exact ⟨_, rfl, k, hk, hhas k _ (congrArg Sec.ports hsec :) hbit (congrArg Sec.sessions hsec :) hstores⟩
    · rw [exec_mkpduReceived_server hl sak hfind ha hlt hpol, if_neg (hall p hmine)]
    · rw [exec_mkpduReceived_peer hl sak hfind ha hpeer, if_pos ⟨hlen, hall p hmine⟩]
      obtain ⟨hsec, hbit, hstores⟩ := installSak_ends (port := port) hw sak
      exact ⟨_, rfl, hhas sak _ (congrArg Sec.ports hsec :) hbit (congrArg Sec.sessions hsec :) hstores⟩
    · have hstale : ¬ (sak.length = 32 ∧ ∀ k ∈ p.saks, k.key ≠ sak) := fun ⟨hlen, hnew⟩ => by
        rcases hbad with h | h
        · exact h hlen
        · obtain ⟨k, hk, he⟩ := h p hmine
          exact hnew k hk he
      rw [exec_mkpduReceived_peer hl sak hfind ha hpeer, if_neg hstale]

end Sys2Proof.Machine

/-! # The commands of the mailbox (R317, Table 12-5) -/

namespace Sys2Proof.Machine

section
variable {s : State} (hl : s.m.board.live = true) (ho : s.m.mailboxOpen = true) (hh : s.m.hostWaits = false)
include hl ho hh

/-- A command of an open mailbox that leaves the link alone answers what it computes. -/
theorem doing_mailbox {i : Instr} {f : Act (Nat × List Byte)} {code : Nat} {payload : List Byte} {t : M} (hf : f s.m = ((code, payload), t))
    (hlink : t.reg Reg.hstStatus = s.m.reg Reg.hstStatus) : s.doing (mailbox i f) = s.becomes (t.mailboxReply code payload) := by
  rw [State.doing_live s _ hl, run_mailbox_open hh ho hf (by rw [hlink])]

/-- A command that only reads. -/
theorem doing_mailbox_pure {i : Instr} {f : Act (Nat × List Byte)} {code : Nat} {payload : List Byte} (hf : f s.m = ((code, payload), s.m)) :
    s.doing (mailbox i f) = s.becomes (s.m.mailboxReply code payload) :=
  doing_mailbox hl ho hh hf rfl

/-- A command that answers bytes that the manual leaves open, after what it lays down. -/
theorem doing_mailbox_free {i : Instr} {f : Act (Nat × List Byte)} {n : Nat} {pre : List Byte}
    (hf : f s.m = (do let x ← freeBytes n; pure (0, pre ++ x) : Act (Nat × List Byte)) s.m) : ∃ x : List Byte, x.length = n ∧
    s.doing (mailbox i f) = s.becomes (({ s.m with free := s.m.free + n } : M).mailboxReply 0 (pre ++ x)) := by
  obtain ⟨x, hx, hrun⟩ := run_freeBytes n s.m
  refine ⟨x, hx, doing_mailbox hl ho hh ?_ rfl⟩
  rw [hf, run_bind, hrun]
  rfl

variable {input : List Byte}

/-! ## Events -/

theorem exec_getEventRecords (h1 : input.length = 1) (h4 : leNat input < 4) : ∃ x : List Byte,
    x.length = 128 * min (s.m.eventLog (leNat input)).length 31 ∧ exec (.getEventRecords input) s =
      s.becomes (({ s.m with free := s.m.free + 128 * min (s.m.eventLog (leNat input)).length 31 } : M).mailboxReply 0
        (leBytes 32 ((if 31 < (s.m.eventLog (leNat input)).length then 2 else 0) + min (s.m.eventLog (leNat input)).length 31 * 2 ^ 160) ++ x)) := by
  refine doing_mailbox_free hl ho hh ?_
  have hmore : ∀ n : Nat, b2n (decide (31 < n)) <<< 1 = if 31 < n then 2 else 0 := fun n => by
    by_cases h : 31 < n <;> simp [h, b2n]
  rw [run_bind, run_get, if_neg (by omega), Nat.shiftLeft_eq _ 160, hmore]

theorem exec_getEventRecords_bad (h : input.length ≠ 1 ∨ 4 ≤ leNat input) :
    exec (.getEventRecords input) s = s.becomes (s.m.mailboxReply 2 []) := by
  refine doing_mailbox_pure hl ho hh ?_
  rw [run_bind, run_get, if_pos h]
  rfl

theorem exec_clearEventRecords (h1 : input.length = 6 + 2 * leNat ((input.drop 2).take 1)) (h4 : leNat (input.take 1) < 4) :
    exec (.clearEventRecords input) s = s.becomes
    (({ s.m with cxl := { s.m.cxl with events := (s.m.cxl.events.filter fun (l, _) => l != leNat (input.take 1)) ++
        (if bit (leNat ((input.drop 1).take 1)) 0 then [] else (s.m.eventLog (leNat (input.take 1))).drop (leNat ((input.drop 2).take 1))) } } : M).mailboxReply
          0 []) := by
  refine doing_mailbox hl ho hh ?_ rfl
  rw [run_bind, run_get, if_neg (by omega)]
  rfl

theorem exec_clearEventRecords_bad (h : input.length ≠ 6 + 2 * leNat ((input.drop 2).take 1) ∨ 4 ≤ leNat (input.take 1)) :
    exec (.clearEventRecords input) s = s.becomes (s.m.mailboxReply 2 []) := by
  refine doing_mailbox_pure hl ho hh ?_
  rw [run_bind, run_get, if_pos h]
  rfl

theorem exec_setEventInterruptPolicy : exec (.setEventInterruptPolicy input) s = s.becomes
    (if input.length = 4 then ({ s.m with cxl := { s.m.cxl with policy := input } } : M).mailboxReply 0 [] else s.m.mailboxReply 2 []) := by
  rw [exec, execSetEventInterruptPolicy]
  split
  · exact doing_mailbox hl ho hh rfl rfl
  · exact doing_mailbox_pure hl ho hh rfl

/-! ## Settings and free payloads -/

theorem exec_getSettings : exec (.getSettings input) s = s.becomes (if input.length = 4 then
    s.m.mailboxReply 0 (((ilRegisters.drop (leNat input)).take 512).flatMap fun o =>
      leBytes 4 o ++ leBytes 4 (b2n (s.m.boot.adj.contains o) + 2 * b2n (s.m.boot.changed.contains o))) else s.m.mailboxReply 2 []) := by
  rw [exec, execGetSettings]
  split
  next h =>
    exact doing_mailbox_pure hl ho hh rfl
  next h =>
    exact doing_mailbox_pure hl ho hh rfl

theorem exec_getLog (h : input.length = 24) : ∃ x : List Byte, x.length = min 4096 (leNat (input.drop 20)) ∧
    exec (.getLog input) s =
      s.becomes (({ s.m with free := s.m.free + min 4096 (leNat (input.drop 20)) } : M).mailboxReply 0 ([] ++ x)) := by
  refine doing_mailbox_free hl ho hh ?_
  rw [if_pos h]
  rfl

theorem exec_getLog_bad (h : input.length ≠ 24) : exec (.getLog input) s = s.becomes (s.m.mailboxReply 2 []) := by
  refine doing_mailbox_pure hl ho hh ?_
  rw [if_neg h]
  rfl

end

/-! ## The error log -/

/-- A record in the buffer is answered from there. -/
theorem logRead_buffered {m : M} {x : Nat} (h : ∃ r ∈ m.logBuf, r.index = x) :
    logRead x m = (((m.logBuf.find? (·.index = x)).map LogRec.bytes).getD [], m) := by
  obtain ⟨r, hr, hx⟩ := h
  obtain ⟨r', hfind⟩ := Option.isSome_iff_exists.1
    (List.find?_isSome (p := fun r : LogRec => decide (r.index = x)).2 ⟨r, hr, decide_eq_true hx⟩)
  rw [logRead, run_bind, run_get]
  simp only [hfind]
  rfl

/-- Without a ring a record that is not in the buffer is gone. -/
theorem logRead_unringed {m : M} (hring : m.logRing = false) (x : Nat) :
    logRead x m = (((m.logBuf.find? (·.index = x)).map LogRec.bytes).getD [], m) := by
  rw [logRead, run_bind, run_get]
  cases hfind : m.logBuf.find? (·.index = x) with
  | some r => rfl
  | none =>
    simp only [hring]
    rfl

theorem mapA_eq_map {α β : Type} {l : List α} {f : α → Act β} {g : α → β} {m : M} (h : ∀ x ∈ l, f x m = (g x, m)) :
    mapA l f m = (l.map g, m) := by
  induction l with
  | nil => rfl
  | cons x l ih =>
    rw [mapA, run_bind, h x List.mem_cons_self, run_bind, ih fun y hy => h y (List.mem_cons_of_mem x hy)]
    rfl

theorem LogRec.bytes_ne_nil (r : LogRec) : r.bytes ≠ [] := fun h => by
  have hlen := congrArg List.length h
  simp [LogRec.bytes, length_leBytes] at hlen

/-- What the mailbox answers for a record. -/
def M.logBytes (s : M) (x : Nat) : List Byte := ((s.logBuf.find? (·.index = x)).map LogRec.bytes).getD []

theorem M.logBytes_ne_nil {s : M} {x : Nat} (h : ∃ r ∈ s.logBuf, r.index = x) : s.logBytes x ≠ [] := by
  obtain ⟨r, hr, hx⟩ := h
  obtain ⟨r', hfind⟩ := Option.isSome_iff_exists.1
    (List.find?_isSome (p := fun r : LogRec => decide (r.index = x)).2 ⟨r, hr, decide_eq_true hx⟩)
  rw [M.logBytes, hfind]
  exact r'.bytes_ne_nil

/-- READ_LOG where every record asked for can be read without a change (R317). -/
theorem run_readLog {m : M} {first count top : Nat} (h : ∀ x, first ≤ x → x < max (first + 1) top → logRead x m = (m.logBytes x, m)) :
    (do let bs0 ← logRead first
        let bs ← mapA (List.range' (first + 1) (min (min count 64) (top - first) - 1)) logRead
        if bs0.isEmpty then invalidInput
        else pure (0, if count = 0 then [] else bs0 ++ bs.flatMap id) : Act (Nat × List Byte)) m =
      ((if m.logBytes first = [] then (2, [])
        else (0, if count = 0 then [] else m.logBytes first ++ (List.range' (first + 1) (min (min count 64) (top - first) - 1)).flatMap m.logBytes)), m) := by
  have hrest := mapA_eq_map (l := List.range' (first + 1) (min (min count 64) (top - first) - 1)) (f := logRead) (g := m.logBytes) (m := m)
    fun x hx => h x (by have := List.mem_range'_1.1 hx; omega) (by have := List.mem_range'_1.1 hx; omega)
  rw [run_bind, h first le_rfl (by omega), run_bind, hrest]
  by_cases hnone : m.logBytes first = []
  · rw [if_pos hnone, hnone]
    rfl
  · rw [if_neg hnone, if_neg (by rwa [List.isEmpty_iff]), List.flatMap_id, ← List.flatMap_def]
    rfl

section
variable {s : State} (hl : s.m.board.live = true) (ho : s.m.mailboxOpen = true) (hh : s.m.hostWaits = false)
include hl ho hh

variable {input : List Byte}

theorem exec_readLog (h6 : input.length = 6) (hfirst : leNat (input.take 4) < s.m.reg Reg.chkLogWr)
    (hall : ∀ x, leNat (input.take 4) ≤ x → x < s.m.reg Reg.chkLogWr → ∃ r ∈ s.m.logBuf, r.index = x) :
    exec (.readLog input) s = s.becomes (s.m.mailboxReply 0 ((List.range' (leNat (input.take 4))
      (min (min (leNat (input.drop 4)) 64) (s.m.reg Reg.chkLogWr - leNat (input.take 4)))).flatMap s.m.logBytes)) := by
  refine doing_mailbox_pure hl ho hh ?_
  have hform : ¬ (input.length ≠ 6 ∨ s.m.reg Reg.chkLogWr ≤ leNat (input.take 4)) := by omega
  have hrun := run_readLog (m := s.m) (first := leNat (input.take 4)) (count := leNat (input.drop 4)) (top := s.m.reg Reg.chkLogWr)
    fun x h1 h2 => logRead_buffered (hall x h1 (by omega))
  rw [if_neg (M.logBytes_ne_nil (hall _ le_rfl hfirst))] at hrun
  rw [run_bind, run_get, if_neg hform]
  refine hrun.trans ?_
  generalize leNat (input.drop 4) = n
  generalize leNat (input.take 4) = x at *
  cases n with
  | zero => simp
  | succ n =>
    obtain ⟨k, hk⟩ : ∃ k, min (min (n + 1) 64) (s.m.reg Reg.chkLogWr - x) = k + 1 :=
      ⟨min (min (n + 1) 64) (s.m.reg Reg.chkLogWr - x) - 1, by omega⟩
    rw [hk, if_neg (Nat.succ_ne_zero n), List.range'_succ, List.flatMap_cons]
    rfl

theorem exec_readLog_bad (h : input.length ≠ 6 ∨ s.m.reg Reg.chkLogWr ≤ leNat (input.take 4) ∨
    (s.m.logRing = false ∧ ∀ r ∈ s.m.logBuf, r.index ≠ leNat (input.take 4))) :
    exec (.readLog input) s = s.becomes (s.m.mailboxReply 2 []) := by
  refine doing_mailbox_pure hl ho hh ?_
  by_cases hform : input.length ≠ 6 ∨ s.m.reg Reg.chkLogWr ≤ leNat (input.take 4)
  · rw [run_bind, run_get, if_pos hform]
    rfl
  · obtain ⟨hring, hnone⟩ : s.m.logRing = false ∧ ∀ r ∈ s.m.logBuf, r.index ≠ leNat (input.take 4) := by
      rcases h with h | h | h
      · exact absurd (.inl h) hform
      · exact absurd (.inr h) hform
      · exact h
    have hfind : s.m.logBytes (leNat (input.take 4)) = [] := by
      rw [M.logBytes, List.find?_eq_none.2 fun r hr => by simpa using hnone r hr]
      rfl
    have hrun := run_readLog (m := s.m) (first := leNat (input.take 4)) (count := leNat (input.drop 4)) (top := s.m.reg Reg.chkLogWr)
      fun x _ _ => logRead_unringed hring x
    rw [if_pos hfind] at hrun
    rw [run_bind, run_get, if_neg hform]
    exact hrun

/-- A command whose input is to be empty. -/
theorem exec_nonempty_bad (h : input ≠ []) : ∀ c ∈ [Instr.getEventInterruptPolicy input, .getFwInfo input, .getSupportedLogs input,
    .getReady input, .getHealth input], exec c s = s.becomes (s.m.mailboxReply 2 []) := by
  have hne : ¬ input.isEmpty = true := by rwa [List.isEmpty_iff]
  intro c hc
  simp only [List.mem_cons, List.not_mem_nil, or_false] at hc
  rcases hc with rfl | rfl | rfl | rfl | rfl
  · exact doing_mailbox_pure hl ho hh (by rw [run_bind, run_get, if_neg hne]; rfl)
  · exact doing_mailbox_pure hl ho hh (by rw [if_neg hne]; rfl)
  · exact doing_mailbox_pure hl ho hh (by rw [if_neg hne]; rfl)
  · exact doing_mailbox_pure hl ho hh (by rw [run_bind, run_get, if_neg hne]; rfl)
  · exact doing_mailbox_pure hl ho hh (by rw [run_bind, run_get, if_neg hne]; rfl)

end

/-- Settles O25: each command by what it computes in an open mailbox (`doing_mailbox`). -/
theorem mailboxCommands : Obligations.MailboxCommands := by
  intro s input hl ho hh reply free map log first count cleared
  refine ⟨fun h1 h4 => exec_getEventRecords hl ho hh h1 h4, fun h1 h4 => exec_clearEventRecords hl ho hh h1 h4, fun h => ?_,
    fun h => exec_getLog hl ho hh h, fun h => ?_, fun h6 hf hall => exec_readLog hl ho hh h6 hf hall, fun h => ?_,
    fun h => exec_getEventRecords_bad hl ho hh h, fun h => exec_clearEventRecords_bad hl ho hh h, fun h => ⟨?_, ?_⟩,
    fun h => exec_getLog_bad hl ho hh h, fun h => exec_readLog_bad hl ho hh h, fun h => exec_nonempty_bad hl ho hh h, fun op h => ?_,
    fun op h => ?_⟩
  · rw [exec_setEventInterruptPolicy hl ho hh, if_pos h]
  · rw [exec_getSettings hl ho hh, if_pos h]
  · subst h
    exact ⟨doing_mailbox_pure hl ho hh rfl, doing_mailbox_free hl ho hh rfl, doing_mailbox_free hl ho hh rfl,
      doing_mailbox_pure hl ho hh rfl, doing_mailbox_pure hl ho hh rfl⟩
  · rw [exec_setEventInterruptPolicy hl ho hh, if_neg h]
  · rw [exec_getSettings hl ho hh, if_neg h]
  · have hno : mailboxOpcodes.contains op = false := by simpa using h
    rw [exec, execMailboxUnsupported, hno]
    exact doing_mailbox_pure hl ho hh rfl
  · have hyes : mailboxOpcodes.contains op = true := by simpa using h
    rw [exec, execMailboxUnsupported, hyes, State.doing_live s _ hl]
    rfl

end Sys2Proof.Machine

/-! # The host's windows on the stores (R299 to R303, R315, R319)

An access of BAR2 passes the gate of a held push and is then refused for want of IDE, refused for a slice that is not ready, or done; one
of CXL.mem asks for the window of its decoder instead. One lemma for each of the four actions says what it does where, and the statement
reads the cases off. -/

namespace Sys2Proof.Machine

section
variable {s : State} (hl : s.m.board.live = true)
include hl

/-- A read through BAR2 that no held push keeps waiting. -/
theorem exec_bar2Read_free (hw : s.m.hostWaits = false) (a n : Nat) : exec (.bar2Read a n) s = s.becomes (
    if !inRegion a n then s.m
    else if !s.m.ideOk then s.m.refusedOnce.out (.cpl 1 false [])
    else if !s.m.slicesReady a n then s.m.refusedOnce.out (.cpl 4 false [])
    else (readBytes a n s.m).2.out (.cpl 0 (readBytes a n s.m).1.1 (readBytes a n s.m).1.2)) := by
  rw [exec, execBar2Read, State.doing_live s _ hl, run_unlessHeld_free hw, run_bind, run_get]
  congr 2
  by_cases hr : (!inRegion a n) = true
  · rw [if_pos hr, if_pos hr]
    rfl
  · rw [if_neg hr, if_neg hr]
    by_cases hi : (!s.m.ideOk) = true
    · rw [if_pos hi, if_pos hi]
      rfl
    · rw [if_neg hi, if_neg hi]
      by_cases hs : (!s.m.slicesReady a n) = true
      · rw [if_pos hs, if_pos hs]
        rfl
      · rw [if_neg hs, if_neg hs]
        rfl

/-- A write through BAR2 that no held push keeps waiting. -/
theorem exec_bar2Write_free (hw : s.m.hostWaits = false) (a : Nat) (d : List Byte) (p : Bool) :
    exec (.bar2Write a d p) s = s.becomes (
      if !inRegion a d.length then s.m
      else if !s.m.ideOk || !s.m.slicesReady a d.length then s.m.refusedOnce
      else (writeInbound a d p s.m).2) := by
  rw [exec, execBar2Write, State.doing_live s _ hl, run_unlessHeld_free hw, run_bind, run_get]
  congr 2
  by_cases hr : (!inRegion a d.length) = true
  · rw [if_pos hr, if_pos hr]
    rfl
  · rw [if_neg hr, if_neg hr]
    by_cases hi : (!s.m.ideOk || !s.m.slicesReady a d.length) = true
    · rw [if_pos hi, if_pos hi]
      rfl
    · rw [if_neg hi, if_neg hi]

/-- An access of BAR0 of the wrong form (R301), which IDE may refuse as well. -/
theorem exec_bar0AccessInvalid_free (hw : s.m.hostWaits = false) (w : Bool) {o n : Nat} (hform : ¬ ((n = 4 ∨ n = 8) ∧ o % n = 0)) :
    exec (.bar0AccessInvalid w o n) s = s.becomes (
      let m := if s.m.ideOk then s.m else s.m.refusedOnce
      if w then m else m.out (.cpl 1 false [])) := by
  have hbad : ((n == 4 || n == 8) && o % n == 0) = false := by
    simpa [accessOk] using fun h => hform (accessOk_iff.1 h)
  rw [exec, execBar0AccessInvalid, State.doing_live s _ hl, run_unlessHeld_free hw, run_bind, run_get, hbad]
  cases hi : s.m.ideOk <;> cases w <;> simp [earlyAccess, M.refusedOnce]

/-- A CXL.mem read (R302). -/
theorem exec_cxlMemRead {o : Nat} (ho : s.m.hdmOpen o = true) (hi : s.m.ideOk = true) (ha : s.m.memActive = true) :
    exec (.cxlMemRead o) s = s.becomes ((readBytes (0x10000000000 + o / 64 * 64) 64 s.m).2.out
      (.memData (readBytes (0x10000000000 + o / 64 * 64) 64 s.m).1.1 (readBytes (0x10000000000 + o / 64 * 64) 64 s.m).1.2)) := by
  have hok : ¬ (!s.m.ideOk || !s.m.memActive) = true := by simp [hi, ha]
  rw [exec, execCxlMemRead, State.doing_live s _ hl, run_bind, run_get, if_neg (by simp [ho]), if_neg hok]
  rfl

/-- One that is refused answers bytes that the manual leaves open. -/
theorem exec_cxlMemRead_refused {o : Nat} (ho : s.m.hdmOpen o = true) (h : s.m.ideOk = false ∨ s.m.memActive = false) :
    ∃ x : List Byte, x.length = 64 ∧
      exec (.cxlMemRead o) s = s.becomes (({ s.m.refusedOnce with free := s.m.free + 64 } : M).out (.memData true x)) := by
  have hbad : (!s.m.ideOk || !s.m.memActive) = true := by rcases h with h | h <;> simp [h]
  obtain ⟨x, hx, hrun⟩ := run_mapA_freeVal 8 (List.range 64) s.m.refusedOnce
  refine ⟨x.map (BitVec.ofNat 8), by rw [List.length_map, hx, List.length_range], ?_⟩
  have hearly : earlyAccess s.m = ((), s.m.refusedOnce) := rfl
  rw [exec, execCxlMemRead, State.doing_live s _ hl, run_bind, run_get, if_neg (by simp [ho]), if_pos hbad, run_bind, hearly, run_bind, hrun]
  rfl

/-- A CXL.mem write (R302). -/
theorem exec_cxlMemWrite {o : Nat} (ho : s.m.hdmOpen o = true) (d : List Byte) (p : Bool) : exec (.cxlMemWrite o d p) s = s.becomes (
    if !s.m.ideOk || !s.m.memActive then s.m.refusedOnce else (writeInbound (0x10000000000 + o / 64 * 64) d p s.m).2) := by
  rw [exec, execCxlMemWrite, State.doing_live s _ hl, run_bind, run_get, if_neg (by simp [ho])]
  congr 2
  by_cases h : (!s.m.ideOk || !s.m.memActive) = true
  · rw [if_pos h, if_pos h]
    rfl
  · rw [if_neg h, if_neg h]

/-- Where no decoder opens the window, nothing happens. -/
theorem exec_cxlMem_closed {o : Nat} (ho : s.m.hdmOpen o = false) (d : List Byte) (p : Bool) :
    exec (.cxlMemRead o) s = .next s ∧ exec (.cxlMemWrite o d p) s = .next s := by
  constructor
  · rw [exec, execCxlMemRead, State.doing_live s _ hl, run_bind, run_get, if_pos (by simp [ho])]
    rfl
  · rw [exec, execCxlMemWrite, State.doing_live s _ hl, run_bind, run_get, if_pos (by simp [ho])]
    rfl

/-- An access that waits behind the host's held push (R315). -/
theorem exec_window_held (hw : s.m.hostWaits = true) : (∀ a n, exec (.bar2Read a n) s = s.becomes (s.m.hostHeld (.bar2Read a n))) ∧
    (∀ a d p, exec (.bar2Write a d p) s = s.becomes (s.m.hostHeld (.bar2Write a d p))) ∧
    ∀ w o n, exec (.bar0AccessInvalid w o n) s = s.becomes (s.m.hostHeld (.bar0AccessInvalid w o n)) := by
  refine ⟨fun a n => ?_, fun a d p => ?_, fun w o n => ?_⟩
  · rw [exec, execBar2Read, State.doing_live s _ hl, run_unlessHeld_held hw, if_pos rfl]
  · rw [exec, execBar2Write, State.doing_live s _ hl, run_unlessHeld_held hw, if_pos rfl]
  · rw [exec, execBar0AccessInvalid, State.doing_live s _ hl, run_unlessHeld_held hw, if_pos rfl]

end

/-- Settles O26: each access by what its action does once the gate of held pushes lets it through. -/
theorem hostWindows : Obligations.HostWindows := by
  intro s hl early line
  refine ⟨fun a => by rw [exec, execH2dSnoop, State.doing_live s _ hl]; rfl, fun hw => ⟨?_, ?_, ?_, ?_, ?_, ?_, ?_, ?_, ?_⟩,
    fun hw => exec_window_held hl hw, fun o d p => ⟨fun ho hi ha => ⟨exec_cxlMemRead hl ho hi ha, ?_⟩,
      fun ho h => ⟨exec_cxlMemRead_refused hl ho h, ?_⟩, fun ho => exec_cxlMem_closed hl ho d p⟩⟩
  · intro a n hr hi hs
    simp [exec_bar2Read_free hl hw, hr, hi, hs]
  · intro a n hr hi
    simp [exec_bar2Read_free hl hw, hr, hi, early]
  · intro a n hr hi hs
    simp [exec_bar2Read_free hl hw, hr, hi, hs, early]
  · intro a d p hr hi hs
    simp [exec_bar2Write_free hl hw, hr, hi, hs]
  · intro a d p hr h
    rcases h with h | h <;> simp [exec_bar2Write_free hl hw, hr, h, early]
  · intro a n hr
    simp [exec_bar2Read_free hl hw, hr]
  · intro a d p hr
    simp [exec_bar2Write_free hl hw, hr]
  · intro o n hform hi
    simp [exec_bar0AccessInvalid_free hl hw _ hform, hi]
  · intro o n hform hi
    simp [exec_bar0AccessInvalid_free hl hw _ hform, hi, early]
  · simp [exec_cxlMemWrite hl ho, hi, ha, line]
  · rcases h with h | h <;> simp [exec_cxlMemWrite hl ho, h, early]

end Sys2Proof.Machine

/-! # Reads of the register space (R10 to R12, R301, R319, R378, R425)

A read of the right form passes the gate of reads, and then its one part shows the register. Below the per-core blocks what a register
shows is `M.blockValue`, on which the counting of the access has no effect. -/

namespace Sys2Proof.Machine

/-- Who reads is told the value: the host by a completion, a control core by its load. -/
def M.readBack (m : M) (w v : Nat) : M := m.out (if w = 0 then .regData v else .coreData (w - 1) v)

/-- A read that is let through answers what its action reads, once the access of a control core has been counted. -/
theorem run_regRead_admitted {w : Nat} {mgmt : Bool} {m : M} (h : m.admits w mgmt) (i : Instr) (a : Act Nat) :
    (regRead w mgmt i a m).2 = (a (m.accessed w)).2.readBack w (a (m.accessed w)).1 := by
  obtain ⟨hs, h0⟩ := h
  have hide : ¬ (w = 0 ∧ (!m.ideOk) = true) := fun ⟨hw, hi⟩ => by simp [(h0 hw).1] at hi
  have hopen : ¬ (w = 0 ∧ (!mgmt) = true ∧ (!bit (m.reg Reg.mgtReadyMap) 126) = true) := fun ⟨hw, hg, hr⟩ => by
    rcases (h0 hw).2 with h | h
    · simp [h] at hg
    · simp [h] at hr
  rw [regRead, run_unlessHeld_free hs, run_bind, run_get, run_ite, if_neg hide, run_ite, if_neg hopen]
  rfl

/-! ## What a register below the per-core blocks shows -/

/-- What such a register shows does not depend on the registers of the positions. -/
theorem M.blockValue_regs {m : M} {r : List (Nat × Nat)} (h : ∀ o, o < 0x1000000 → ({ m with regs := r } : M).reg o = m.reg o)
    {key : Nat} (hk : key < 0x1000000) : ({ m with regs := r } : M).blockValue key = m.blockValue key := by
  have hbench : ({ m with regs := r } : M).benches = m.benches := List.filter_congr fun i hi => by
    have := List.mem_range.1 hi
    rw [M.posState, M.posState, h _ (by simp only [Reg.mgtPosState]; omega)]
  have hstage : ∀ e, e < 4 → ({ m with regs := r } : M).engStateValue e = m.engStateValue e := fun e he => by
    unfold M.engStateValue
    rw [h (Reg.rlyStageSize e) (by simp only [Reg.rlyStageSize]; omega)]
    rfl
  unfold M.blockValue
  rw [h key hk, hbench]
  by_cases heng : 0x260100 ≤ key ∧ key < 0x260200 ∧ key % 0x40 = 0x0C
  · rw [hstage _ (by omega)]
    rfl
  · rw [if_neg heng, if_neg heng]
    rfl

theorem M.blockValue_accessed (m : M) (w : Nat) {key : Nat} (hk : key < 0x1000000) : (m.accessed w).blockValue key = m.blockValue key := by
  obtain ⟨r, hr⟩ := m.accessed_eq w
  rw [hr]
  exact M.blockValue_regs (fun o ho => by rw [← hr, M.reg_accessed (by omega)]) hk

theorem M.compDword_accessed (m : M) (w o : Nat) : (m.accessed w).compDword o = m.compDword o := by
  obtain ⟨r, hr⟩ := m.accessed_eq w
  rw [hr]
  rfl

/-- Apart from the registers of the check cache and of the ports' counters, nothing but its value is shown. -/
theorem run_regValue_block {key d : Nat} (hk : key < 0x1000000) (hset : ¬ (0x230100 ≤ key ∧ key < 0x230120))
    (hport : ¬ (0x310000 ≤ key ∧ key < 0x320000)) (m : M) : regValue key d m = (m.blockValue key, m) := by
  rw [regValue, run_bind, run_get, run_ite, if_neg hset, run_ite, if_neg fun h => hport ⟨h.1, h.2.1⟩, run_ite,
    if_neg (by omega), run_ite, if_pos hk]
  rfl

/-! ## The read of one part -/

section
variable {m : M} {off size : Nat} {r : RegRow}

theorem run_readReg_reserved (h : m.resolve off = none) :
    readReg off size m = ((if cxlBlock off then m.compDword (off / 4 * 4) else 0), m) := by
  rw [readReg, run_bind, run_get, h]
  rfl

theorem run_readReg_wo (h : m.resolve off = some (r, off, 0)) (ha : r.acc = .wo) : readReg off size m = (0, m) := by
  rw [readReg, run_bind, run_get, h]
  simp only [ha, if_pos]
  rfl

variable (hk : off < 0x1000000) (hset : ¬ (0x230100 ≤ off ∧ off < 0x230120)) (hport : ¬ (0x310000 ≤ off ∧ off < 0x320000))
include hk hset hport

theorem run_readReg_block (h : m.resolve off = some (r, off, 0)) (ha : r.acc ≠ .wo) : readReg off size m =
    (trunc (8 * size) (m.blockValue off),
      if r.acc = .rc then m.setReg off (m.reg off - (m.reg off &&& (2 ^ (8 * size) - 1))) else m) := by
  rw [readReg, run_bind, run_get, h]
  simp only [if_neg ha, run_bind, run_regValue_block hk hset hport, run_whenA, decide_eq_true_eq, cover_zero, Nat.mul_zero,
    Nat.shiftRight_zero]
  rfl

end

/-- A read that is one access. -/
theorem run_readParts_one {m : M} {off size : Nat} (h : m.parts off size = [(off, size)]) : readParts off size m = readReg off size m := by
  rw [readParts, run_bind, run_get, h, run_bind]
  simp only [run_mapA_cons, run_mapA_nil, run_bind, run_pure, List.foldl_cons, List.foldl_nil, Nat.sub_self, Nat.mul_zero,
    Nat.shiftLeft_zero, Nat.zero_add]
  rfl

/-! ## The read command -/

section
variable {s : State} (hl : s.m.board.live = true) {w off size : Nat}
include hl

/-- A read that is let through. -/
theorem exec_read_admitted (ha : s.m.admits w (decide (off < 0x100000))) (hok : accessOk off size = true) :
    exec (.rcRegisterRead off size w) s =
      s.becomes ((readParts off size (s.m.accessed w)).2.readBack w (readParts off size (s.m.accessed w)).1) := by
  rw [exec, execRcRegisterRead, if_pos hok, State.doing_live s _ hl, run_regRead_admitted ha]

/-- A read that its register takes whole. -/
theorem exec_read_whole (ha : s.m.admits w (decide (off < 0x100000))) (hok : accessOk off size = true) {r : RegRow} {key d : Nat}
    (hr : s.m.resolve off = some (r, key, d)) (hs : size ≤ r.size) : exec (.rcRegisterRead off size w) s =
      s.becomes ((readReg off size (s.m.accessed w)).2.readBack w (readReg off size (s.m.accessed w)).1) := by
  rw [exec_read_admitted hl ha hok, run_readParts_one (M.parts_of_fits (by rw [M.resolve_accessed, hr]) hs)]

/-- A read of 4 bytes at a reserved offset (R12, R301). -/
theorem exec_read_reserved (ha : s.m.admits w (decide (off < 0x100000))) (hok : accessOk off 4 = true) (hr : s.m.resolve off = none) :
    exec (.rcRegisterRead off 4 w) s =
      s.becomes ((s.m.accessed w).readBack w (if cxlBlock off then s.m.compDword (off / 4 * 4) else 0)) := by
  rw [exec_read_admitted hl ha hok, run_readParts_one (M.parts_four _ off), run_readReg_reserved (by rw [M.resolve_accessed, hr]),
    M.compDword_accessed]

/-- The host's read of the wrong form, or without IDE (R301, R319). -/
theorem exec_read_refused (hw : s.m.hostWaits = false) (h : accessOk off size = false ∨ s.m.ideOk = false) :
    exec (.rcRegisterRead off size 0) s = s.becomes ((refused s.m).2.out (.cpl 1 false [])) := by
  rw [exec, execRcRegisterRead, State.doing_live s _ hl]
  by_cases hok : accessOk off size = true
  · have hi : s.m.ideOk = false := h.resolve_left (by simp [hok])
    rw [if_pos hok, run_regRead_noIde hw hi]
    simp [refused, hi, earlyAccess, M.refusedOnce]
  · rw [if_neg hok, run_unlessHeld_free hw]
    rfl

/-- A control core's read of the wrong form ends its jobs (R425). -/
theorem exec_read_fault (hw : w ≠ 0) (hst : s.m.stalled w = false) (hbad : accessOk off size = false) :
    exec (.rcRegisterRead off size w) s = s.becomes (endJobsOn (s.m.runningAt (w - 1)) 1 (s.m.accessed w)).2 := by
  rw [exec, execRcRegisterRead, State.doing_live s _ hl, if_neg (by simp [hbad]), run_unlessHeld_free hst, run_bind, run_get, run_ite,
    if_neg hw]
  rfl

theorem exec_read_held (hst : s.m.stalled w = true) : exec (.rcRegisterRead off size w) s =
    s.becomes (if w = 0 then s.m.hostHeld (.rcRegisterRead off size w) else s.m) := by
  rw [exec, execRcRegisterRead, State.doing_live s _ hl]
  by_cases hok : accessOk off size = true
  · rw [if_pos hok, run_regRead_held hst]
  · rw [if_neg hok, run_unlessHeld_held hst]

/-- Before bit 126 the host reads zero outside the management block (R378). -/
theorem exec_read_early (hw : s.m.hostWaits = false) (hok : accessOk off size = true) (hi : s.m.ideOk = true)
    (hr : bit (s.m.reg Reg.mgtReadyMap) 126 = false) (ho : 0x100000 ≤ off) :
    exec (.rcRegisterRead off size 0) s = s.becomes (s.m.readBack 0 0) := by
  rw [exec, execRcRegisterRead, if_pos hok, State.doing_live s _ hl, decide_eq_false (by omega), run_regRead_early hw hi hr]
  rfl

end

/-- Settles O30: a read that is let through by its one part (`run_readReg_block`), whose value the counting of the access leaves as it
was; the others by the gate of reads. -/
theorem registerReadsFollowAccessCode : Obligations.RegisterReadsFollowAccessCode := by
  intro s w off size hl read m0 ok answer opened
  have hok : ok ↔ accessOk off size = true := accessOk_iff.symm
  refine ⟨?_, ?_, ?_, ?_, fun hw hst hbad => ?_, fun hst => exec_read_held hl hst⟩
  · rintro ⟨ha, hform⟩ r hoff hr hs hset hport
    have hr' : m0.resolve off = some (r, off, 0) := by rw [M.resolve_accessed, hr]
    have hread : read = s.becomes ((readReg off size m0).2.readBack w (readReg off size m0).1) :=
      exec_read_whole hl ha (hok.1 hform) hr hs
    have hvalue : m0.blockValue off = s.m.blockValue off := M.blockValue_accessed s.m w hoff
    have hreg : m0.reg off = s.m.reg off := M.reg_accessed (by omega)
    refine ⟨fun hacc => ?_, fun hacc => ?_, fun hwo hrc => ?_⟩
    · rw [hread, run_readReg_wo hr' hacc]
      rfl
    · rw [hread, run_readReg_block hoff hset hport hr' (by simp [hacc]), if_pos hacc, hvalue, hreg]
      rfl
    · rw [hread, run_readReg_block hoff hset hport hr' hwo, if_neg hrc, hvalue]
      rfl
  · rintro ⟨ha, hform⟩ rfl hr
    exact exec_read_reserved hl ha (hok.1 hform) hr
  · rintro rfl hw hform hi hr ho
    exact exec_read_early hl hw (hok.1 hform) hi hr ho
  · rintro rfl hw h
    exact exec_read_refused hl hw (h.imp_left fun h => by simpa [hok] using h)
  · exact exec_read_fault hl hw hst (by simpa [hok] using hbad)

end Sys2Proof.Machine

/-! # Start-up of the far store (R197) -/

namespace Sys2Proof.Machine

/-- Taking keys out of a table makes them read as what nothing has written. -/
theorem Tab.read_filter_key {α : Type} (d : Nat → α) (p : Nat → Bool) (t : Tab α) (k : Nat) :
    Tab.read d (t.filter fun x => !p x.1) k = if p k then d k else Tab.read d t k := by
  induction t with
  | nil => simp [Tab.read]
  | cons x t ih =>
    obtain ⟨j, v⟩ := x
    rw [List.filter_cons]
    by_cases hkj : k = j
    · subst hkj
      by_cases hp : p k = true
      · simpa [hp] using ih
      · simp [hp, Tab.read]
    · by_cases hp : p j = true
      · simpa [hp, Tab.read, hkj] using ih
      · simpa [hp, Tab.read, hkj] using ih

/-! ## Training -/

section
variable {s : M} (hw : s.wf = true) {ctrl : Nat} (hstate : s.setState (ctrl / 3) ≤ 1)
include hw hstate

/-- The set's register with STATE 1. -/
def M.training (s : M) (set : Nat) : M := s.setReg (Reg.memSetState set) (setBits (s.reg (Reg.memSetState set)) 31 30 1)

omit hstate in
theorem M.training_wf (set : Nat) : (s.training set).wf = true := M.wf_setReg _ _ hw

omit hstate in
theorem M.training_reg (set : Nat) : (s.training set).reg (Reg.memSetState set) = setBits (s.reg (Reg.memSetState set)) 31 30 1 :=
  M.reg_setReg_self s _ _ hw

/-- A controller that has failed shows its bit, and the set stays in STATE 1. -/
theorem trainingDone_failed : ∃ m, (trainingDone ctrl false s).2 = m ∧ m.setState (ctrl / 3) = 1 ∧
    bit (m.reg (Reg.memSetState (ctrl / 3))) (27 + ctrl % 3) = true ∧ s.sameBut m [Reg.memSetState (ctrl / 3)] := by
  have hrun : (trainingDone ctrl false s).2 = (s.training (ctrl / 3)).setReg (Reg.memSetState (ctrl / 3))
      (setBits ((s.training (ctrl / 3)).reg (Reg.memSetState (ctrl / 3))) (27 + ctrl % 3) (27 + ctrl % 3) 1) := by
    rw [trainingDone, run_bind, run_get, run_whenA, if_pos (by simpa using hstate)]
    rfl
  have hreg := M.reg_setReg_self (s.training (ctrl / 3)) (Reg.memSetState (ctrl / 3))
    (setBits ((s.training (ctrl / 3)).reg (Reg.memSetState (ctrl / 3))) (27 + ctrl % 3) (27 + ctrl % 3) 1) (M.training_wf hw _)
  refine ⟨_, hrun, ?_, ?_, rfl, fun o ho => ?_⟩
  · rw [M.setState, hreg, bits_setBits_above (by omega) le_rfl, M.training_reg hw, bits_setBits_self (by omega)]
    rfl
  · rw [hreg, bit_setBits_one, if_pos rfl]
  · have hne : o ≠ Reg.memSetState (ctrl / 3) := by simpa using ho
    rw [M.reg_setReg_other _ _ hne, M.training, M.reg_setReg_other _ _ hne]

/-- The module with one more controller trained. -/
def M.withTrained (s : M) (ctrl : Nat) : M :=
  { s with trained := if s.trained.contains ctrl then s.trained else s.trained ++ [ctrl] }

omit hw hstate in
theorem M.mem_withTrained (c : Nat) : c ∈ (s.withTrained ctrl).trained ↔ c = ctrl ∨ c ∈ s.trained := by
  rw [M.withTrained]
  by_cases h : s.trained.contains ctrl = true
  · rw [if_pos h]
    exact ⟨.inr, fun hc => hc.elim (fun e => e ▸ List.contains_iff_mem.1 h) id⟩
  · rw [if_neg h, List.mem_append, List.mem_singleton, or_comm]

/-- A set has trained when its three controllers have and none has failed. -/
theorem trainingDone_passed : ∃ m, (trainingDone ctrl true s).2 = m ∧ ctrl ∈ m.trained ∧ (∀ c ∈ s.trained, c ∈ m.trained) ∧
    m.setState (ctrl / 3) = (if bits (s.reg (Reg.memSetState (ctrl / 3))) 29 27 = 0 ∧
      (List.range 3).all (fun k => m.trained.contains (3 * (ctrl / 3) + k)) = true then 2 else 1) ∧
    s.sameStores m ∧ m.cores = s.cores := by
  let t := (s.training (ctrl / 3)).withTrained ctrl
  have hrun : (trainingDone ctrl true s).2 = if (bits (t.reg (Reg.memSetState (ctrl / 3))) 29 27 == 0 &&
      (List.range 3).all fun k => t.trained.contains (3 * (ctrl / 3) + k)) = true
      then t.setReg (Reg.memSetState (ctrl / 3)) (setBits (t.reg (Reg.memSetState (ctrl / 3))) 31 30 2) else t := by
    rw [trainingDone, run_bind, run_get, run_whenA, if_pos (by simpa using hstate), run_bind, run_ite, if_pos rfl]
    simp only [run_bind, run_whenA]
    rfl
  have hreg : t.reg (Reg.memSetState (ctrl / 3)) = setBits (s.reg (Reg.memSetState (ctrl / 3))) 31 30 1 := M.training_reg hw _
  have hwf : t.wf = true := (M.wf_congr ⟨rfl, rfl, rfl, rfl, rfl, rfl, rfl, rfl, rfl, rfl, rfl⟩).trans (M.training_wf hw (ctrl / 3))
  have hcond : (bits (t.reg (Reg.memSetState (ctrl / 3))) 29 27 == 0 &&
      (List.range 3).all fun k => t.trained.contains (3 * (ctrl / 3) + k)) = true ↔ bits (s.reg (Reg.memSetState (ctrl / 3))) 29 27 = 0 ∧
      (List.range 3).all (fun k => t.trained.contains (3 * (ctrl / 3) + k)) = true := by
    rw [hreg, bits_setBits_below (by omega) (by omega), Bool.and_eq_true, beq_iff_eq]
  have hmem : ctrl ∈ t.trained ∧ ∀ c ∈ s.trained, c ∈ t.trained :=
    ⟨(M.mem_withTrained ctrl).2 (.inl rfl), fun c hc => (M.mem_withTrained c).2 (.inr hc)⟩
  refine ⟨_, rfl, ?_⟩
  rw [hrun]
  by_cases hall : bits (s.reg (Reg.memSetState (ctrl / 3))) 29 27 = 0 ∧
      (List.range 3).all (fun k => t.trained.contains (3 * (ctrl / 3) + k)) = true
  · rw [if_pos (hcond.2 hall)]
    refine ⟨hmem.1, hmem.2, ?_, ⟨rfl, rfl⟩, rfl⟩
    rw [M.setState, M.reg_setReg_self t _ _ hwf, bits_setBits_self (by omega)]
    exact (if_pos hall).symm
  · rw [if_neg (mt hcond.1 hall)]
    refine ⟨hmem.1, hmem.2, ?_, ⟨rfl, rfl⟩, rfl⟩
    rw [M.setState, hreg, bits_setBits_self (by omega)]
    exact (if_neg hall).symm

end

/-! ## The zero fill -/

/-- The module with zero and valid check symbols in every line whose addresses meet a condition. -/
def M.zeroed (s : M) (p : Nat → Bool) : M :=
  { s with mem := s.mem.filter fun x => !p x.1, chk := s.chk.filter fun x => !p (32 * (x.1 / 4)) }

theorem M.byte_zeroed (s : M) (p : Nat → Bool) (a : Nat) : (s.zeroed p).byte a = if p a then 0#8 else s.byte a :=
  Tab.read_filter_key memZero p s.mem a

theorem M.checks_zeroed (s : M) (p : Nat → Bool) (l : Nat) : (s.zeroed p).checks l = if p (32 * l) then [0, 0, 0, 0] else s.checks l := by
  have hread : ∀ k, k < 4 → Tab.read chkZero (s.zeroed p).chk (4 * l + k) = if p (32 * l) then 0 else Tab.read chkZero s.chk (4 * l + k) :=
    fun k hk => by
      have hline : (4 * l + k) / 4 = l := by omega
      have h := Tab.read_filter_key chkZero (fun k => p (32 * (k / 4))) s.chk (4 * l + k)
      rwa [hline] at h
  have hrange : List.range 4 = [0, 1, 2, 3] := rfl
  rw [M.checks, hrange]
  simp only [List.map_cons, List.map_nil, hread 0 (by omega), hread 1 (by omega), hread 2 (by omega), hread 3 (by omega)]
  by_cases hp : p (32 * l) = true
  · simp only [if_pos hp]
  · simp only [if_neg hp]
    rfl

/-- Settles O16: training by the two ends of a controller's training, and the zero fill by what taking lines out of the stores leaves. -/
theorem farStoreStartUp : Obligations.FarStoreStartUp := by
  intro s hl hw
  refine ⟨fun ctrl hstate => ⟨?_, ?_⟩, fun ctrl p hstate => ?_, fun set hstate => ?_, fun set hstate => ?_⟩
  · obtain ⟨m, hrun, h⟩ := trainingDone_passed hw hstate
    exact ⟨m, by rw [exec, execFarStoreTrainingDone, State.doing_live s _ hl, hrun], h⟩
  · obtain ⟨m, hrun, h⟩ := trainingDone_failed hw hstate
    exact ⟨m, by rw [exec, execFarStoreTrainingDone, State.doing_live s _ hl, hrun], h⟩
  · have hno : ¬ decide (s.m.setState (ctrl / 3) ≤ 1) = true := by rw [decide_eq_true_eq]; omega
    rw [exec, execFarStoreTrainingDone, State.doing_live s _ hl, trainingDone, run_bind, run_get, run_whenA, if_neg hno]
  · rw [exec, execFarStoreZeroFillDone, State.doing_live s _ hl, run_bind, run_get, run_whenA, if_neg (by simpa using hstate)]
  · let p := fun a => inFar a && s.m.farSet a == set
    have hp : ∀ a, p a = true ↔ inFar a = true ∧ s.m.farSet a = set := fun a => by simp [p]
    let t := s.m.zeroed p
    have hwf : t.wf = true := keepsWf_zeroLines p s.m hw
    have hrun : exec (.farStoreZeroFillDone set) s =
        s.becomes (t.setReg (Reg.memSetState set) (setBits (t.reg (Reg.memSetState set)) 31 30 3)) := by
      rw [exec, execFarStoreZeroFillDone, State.doing_live s _ hl, run_bind, run_get, run_whenA, if_pos (by simpa using hstate)]
      rfl
    refine ⟨_, hrun, ?_, fun a hfar hset => ?_, fun l hfar hset => ?_, fun a ha => ?_, fun l hl' => ?_, rfl⟩
    · rw [M.setState, M.reg_setReg_self t _ _ hwf, bits_setBits_self (by omega)]
      rfl
    · exact (s.m.byte_zeroed p a).trans (if_pos ((hp a).2 ⟨hfar, hset⟩))
    · exact (s.m.checks_zeroed p l).trans (if_pos ((hp _).2 ⟨hfar, hset⟩))
    · exact (s.m.byte_zeroed p a).trans (if_neg (mt (hp a).1 ha))
    · exact (s.m.checks_zeroed p l).trans (if_neg (mt (hp _).1 hl'))

end Sys2Proof.Machine

/-! # The health record (R384)

A place of a copy is in use where one of its 64 bytes is not erased. Writing the next place leaves every other place as it was, and what is
written there is a valid entry, which is not wholly erased since its sequence number is not all ones. -/

namespace Sys2Proof.Machine

/-! ## The bytes of the flash -/

/-- The keys of a table in canonical form are those that do not read as the default. -/
theorem Tab.mem_keys_iff {α : Type} [DecidableEq α] {d : Nat → α} {t : Tab α} (h : Tab.wf d t = true) (k : Nat) :
    k ∈ Tab.keys t ↔ Tab.read d t k ≠ d k := by
  suffices H : ∀ (t : Tab α) lo, Tab.wfFrom d lo t = true → (k ∈ Tab.keys t ↔ Tab.read d t k ≠ d k) from H t 0 h
  intro t
  induction t with
  | nil => intro lo _; simp [Tab.keys, Tab.read]
  | cons x t ih =>
    obtain ⟨j, v⟩ := x
    intro lo hwf
    simp only [Tab.wfFrom, Bool.and_eq_true, decide_eq_true_eq] at hwf
    obtain ⟨⟨_, hv⟩, ht⟩ := hwf
    have hkeys : k ∈ Tab.keys ((j, v) :: t) ↔ k = j ∨ k ∈ Tab.keys t := List.mem_cons
    rw [hkeys, Tab.read, ih (j + 1) ht]
    by_cases hkj : k = j
    · subst hkj
      simp [hv]
    · simp [hkj]

/-- One byte of the flash. -/
def M.flashAt (s : M) (a : Nat) : Byte := Tab.read flashErased s.boot.flash a

theorem M.flashBytes_eq_map (s : M) (a n : Nat) : s.flashBytes a n = (List.range n).map fun i => s.flashAt (a + i) := rfl

theorem M.flashBytes_one (s : M) (a : Nat) : s.flashBytes a 1 = [s.flashAt a] := rfl

@[simp] theorem M.length_flashBytes (s : M) (a n : Nat) : (s.flashBytes a n).length = n := by simp [M.flashBytes_eq_map]

theorem M.flashBytes_congr {s t : M} {a n : Nat} (h : ∀ x, a ≤ x → x < a + n → t.flashAt x = s.flashAt x) :
    t.flashBytes a n = s.flashBytes a n :=
  List.map_congr_left fun i hi => h (a + i) (by omega) (by have := List.mem_range.1 hi; omega)

theorem wf_writeFlashTab {t : Tab Byte} (h : Tab.wf flashErased t = true) (a : Nat) (bs : List Byte) :
    Tab.wf flashErased (writeFlashTab t a bs) = true := by
  induction bs generalizing t a with
  | nil => exact h
  | cons b bs ih => exact ih (Tab.wf_put _ _ _ _ h) _

/-- Writing bytes leaves every byte outside them alone. -/
theorem read_writeFlashTab_other (t : Tab Byte) (a : Nat) (bs : List Byte) {x : Nat} (hx : x < a ∨ a + bs.length ≤ x) :
    Tab.read flashErased (writeFlashTab t a bs) x = Tab.read flashErased t x := by
  induction bs generalizing t a with
  | nil => rfl
  | cons b bs ih =>
    simp only [List.length_cons] at hx
    rw [writeFlashTab, ih _ _ (by omega), Tab.read_put_other _ _ _ _ _ (by omega)]

/-- The bytes written are those that are read back. -/
theorem read_writeFlashTab_self {t : Tab Byte} (h : Tab.wf flashErased t = true) (a : Nat) (bs : List Byte) :
    (List.range bs.length).map (fun i => Tab.read flashErased (writeFlashTab t a bs) (a + i)) = bs := by
  induction bs generalizing t a with
  | nil => rfl
  | cons b bs ih =>
    have hput := Tab.wf_put flashErased t a b h
    have hfirst : Tab.read flashErased (writeFlashTab (Tab.put flashErased t a b) (a + 1) bs) (a + 0) = b := by
      rw [read_writeFlashTab_other _ _ _ (.inl (by omega)), Nat.add_zero, Tab.read_put_self _ _ _ _ h]
    rw [List.length_cons, List.range_succ_eq_map, List.map_cons, List.map_map, writeFlashTab, hfirst]
    refine congrArg (b :: ·) (Eq.trans (List.map_congr_left fun i _ => ?_) (ih hput (a + 1)))
    rw [Function.comp_apply, Nat.succ_eq_add_one, Nat.add_right_comm, Nat.add_assoc]

/-! ## Places and entries -/

/-- The entry that 64 bytes hold, if their CRC holds. -/
def Health.ofBytes (bs : List Byte) : Option Health :=
  if crc32c (bs.take 60) = leNat (bs.drop 60) then some ⟨leNat (bs.take 4), leNat ((bs.drop 4).take 2), (bs.drop 6).take 54⟩ else none

theorem M.mem_healthOf {s : M} {c : Nat} {h : Health} :
    h ∈ s.healthOf c ↔ ∃ i ∈ s.healthPlaces c, Health.ofBytes (s.flashBytes (healthBase c + 64 * i) 64) = some h :=
  List.mem_filterMap

/-- A place is in use where one of its bytes is not erased. -/
theorem M.mem_healthPlaces {s : M} (hw : Tab.wf flashErased s.boot.flash = true) {c i : Nat} :
    i ∈ s.healthPlaces c ↔ i < 0x8000 ∧ ∃ x, healthBase c + 64 * i ≤ x ∧ x < healthBase c + 64 * i + 64 ∧ s.flashAt x ≠ 0xFF#8 := by
  rw [M.healthPlaces, List.mem_eraseDups, List.mem_map]
  simp only [List.mem_filter, Tab.mem_keys_iff hw, Bool.and_eq_true, decide_eq_true_eq]
  have hsize : healthSize = 0x200000 := rfl
  constructor
  · rintro ⟨x, ⟨hx, hlo, hhi⟩, rfl⟩
    exact ⟨by omega, x, by omega, by omega, hx⟩
  · rintro ⟨hi, x, hlo, hhi, hx⟩
    exact ⟨x, ⟨hx, by omega, by omega⟩, by omega⟩

theorem le_nextPlace (l : List Nat) (a : Nat) : a ≤ l.foldl (fun m i => max m (i + 1)) a := by
  induction l generalizing a with
  | nil => exact le_rfl
  | cons x l ih => exact (le_max_left a (x + 1)).trans (ih _)

/-- The next place lies after every place in use. -/
theorem lt_nextPlace {l : List Nat} {i : Nat} (h : i ∈ l) (a : Nat) : i < l.foldl (fun m i => max m (i + 1)) a := by
  induction l generalizing a with
  | nil => cases h
  | cons x l ih =>
    rcases List.mem_cons.1 h with rfl | h
    · exact (le_max_right a (i + 1)).trans (le_nextPlace l _)
    · exact ih h _

/-- An entry whose place reads as before is kept. -/
theorem M.mem_healthOf_of_same {s t : M} (hs : Tab.wf flashErased s.boot.flash = true) (ht : Tab.wf flashErased t.boot.flash = true)
    {c : Nat} (hsame : ∀ i ∈ s.healthPlaces c, ∀ x, healthBase c + 64 * i ≤ x → x < healthBase c + 64 * i + 64 → t.flashAt x = s.flashAt x)
    {h : Health} (hh : h ∈ s.healthOf c) : h ∈ t.healthOf c := by
  obtain ⟨i, hi, hof⟩ := M.mem_healthOf.1 hh
  obtain ⟨hlt, x, hlo, hhi, hx⟩ := (M.mem_healthPlaces hs).1 hi
  refine M.mem_healthOf.2 ⟨i, (M.mem_healthPlaces ht).2 ⟨hlt, x, hlo, hhi, ?_⟩, ?_⟩
  · rwa [hsame i hi x hlo hhi]
  · rwa [M.flashBytes_congr (hsame i hi)]

/-- An entry that its place holds is in the record, unless the place reads as erased. -/
theorem M.mem_healthOf_of_bytes {s : M} (hs : Tab.wf flashErased s.boot.flash = true) {c i : Nat} (hi : i < 0x8000) {h : Health}
    (hof : Health.ofBytes (s.flashBytes (healthBase c + 64 * i) 64) = some h) (hseq : h.seq ≠ 2 ^ 32 - 1) : h ∈ s.healthOf c := by
  refine M.mem_healthOf.2 ⟨i, (M.mem_healthPlaces hs).2 ⟨hi, by_contra fun hnone => hseq ?_⟩, hof⟩
  have hbytes : s.flashBytes (healthBase c + 64 * i) 64 = List.replicate 64 0xFF#8 :=
    List.eq_replicate_iff.2 ⟨s.length_flashBytes _ _, fun b hb => by
      obtain ⟨k, hk, rfl⟩ := List.mem_map.1 hb
      exact by_contra fun hne => hnone ⟨_, Nat.le_add_right _ _, by have := List.mem_range.1 hk; omega, hne⟩⟩
  rw [hbytes] at hof
  have hall : leNat ((List.replicate 64 0xFF#8).take 4) = 2 ^ 32 - 1 := by decide
  rw [Health.ofBytes] at hof
  split at hof
  · rw [← Option.some.inj hof, hall]
  · cases hof

/-! ## An entry that is written -/

theorem crcBits_lt (n : Nat) {c : Nat} (h : c < 2 ^ 32) : crcBits n c < 2 ^ 32 := by
  induction n generalizing c with
  | zero => exact h
  | succ n ih =>
    rw [crcBits]
    split
    · exact ih (Nat.xor_lt_two_pow (by omega) (by decide))
    · exact ih (by omega)

theorem crc32c_lt (l : List Byte) : crc32c l < 2 ^ 32 := by
  have hfold : ∀ c, c < 2 ^ 32 → l.foldl (fun c b => crcBits 8 (c ^^^ b.toNat)) c < 2 ^ 32 := by
    induction l with
    | nil => exact fun c h => h
    | cons b l ih => exact fun c h => ih _ (crcBits_lt 8 (Nat.xor_lt_two_pow h (b.isLt.trans (by decide))))
  exact Nat.xor_lt_two_pow (hfold _ (by decide)) (by decide)

/-- The payload of an entry fills 54 bytes. -/
theorem take_padded {pl : List Byte} (h : pl.length ≤ 54) :
    (pl ++ List.replicate 54 0#8).take 54 = pl ++ List.replicate (54 - pl.length) 0#8 := by
  rw [List.take_append, List.take_of_length_le h, List.take_replicate, Nat.min_eq_left (by omega)]

/-- An entry decodes to what it was made of. -/
theorem ofBytes_healthEntry {seq kind : Nat} {pl : List Byte} (hseq : seq < 2 ^ 32) (hkind : kind < 2 ^ 16) (hpl : pl.length ≤ 54) :
    Health.ofBytes (healthEntry seq kind pl) = some ⟨seq, kind, pl ++ List.replicate (54 - pl.length) 0#8⟩ := by
  rw [healthEntry, take_padded hpl]
  have hp : (pl ++ List.replicate (54 - pl.length) 0#8).length = 54 := by simp; omega
  generalize pl ++ List.replicate (54 - pl.length) 0#8 = p at hp
  have hb : (leBytes 4 seq ++ leBytes 2 kind ++ p).length = 60 := by simp [hp]
  have hcrc : leNat (leBytes 4 (crc32c (leBytes 4 seq ++ leBytes 2 kind ++ p))) = crc32c (leBytes 4 seq ++ leBytes 2 kind ++ p) := by
    rw [leNat_leBytes, Nat.mod_eq_of_lt (crc32c_lt _)]
  rw [Health.ofBytes, List.take_left' hb, List.drop_left' hb, if_pos hcrc.symm]
  have hseqs : leNat (leBytes 4 seq) = seq := by rw [leNat_leBytes, Nat.mod_eq_of_lt hseq]
  have hkinds : leNat (leBytes 2 kind) = kind := by rw [leNat_leBytes, Nat.mod_eq_of_lt hkind]
  simp only [List.append_assoc]
  rw [List.take_left' (length_leBytes 4 seq), List.drop_left' (length_leBytes 4 seq), List.take_left' (length_leBytes 2 kind),
    ← List.append_assoc, List.drop_left' (by simp), List.take_left' hp, hseqs, hkinds]

theorem length_healthEntry (seq kind : Nat) (pl : List Byte) : (healthEntry seq kind pl).length = 64 := by
  simp [healthEntry]

/-- There are two copies. -/
theorem M.healthTop_copy {s : M} {x c : Nat} (h : s.healthTop = some (x, c)) : c ≤ 1 := by
  unfold M.healthTop at h
  dsimp only at h
  split at h
  · cases h
  · obtain ⟨rfl, rfl⟩ := Prod.mk.inj (Option.some.inj h)
    omega
  · obtain ⟨rfl, rfl⟩ := Prod.mk.inj (Option.some.inj h)
    omega
  · split at h <;> (obtain ⟨rfl, rfl⟩ := Prod.mk.inj (Option.some.inj h); omega)

/-- The next sequence number, and the copy in use. -/
def M.healthNext (s : M) : Nat × Nat :=
  match s.healthTop with
  | none => (0, 0)
  | some (x, c) => (x + 1, c)

theorem M.healthNext_copy (s : M) : s.healthNext.2 ≤ 1 := by
  unfold M.healthNext
  split
  · omega
  · next h => exact M.healthTop_copy h

/-- The next place of a copy. -/
def M.healthPlace (s : M) (c : Nat) : Nat := (s.healthPlaces c).foldl (fun m i => max m (i + 1)) 0

/-- While the copy has room, an entry goes to its next place (R384). -/
theorem run_healthAppend_room {s : M} (h : s.healthPlace s.healthNext.2 < 0x8000) (kind : Nat) (pl : List Byte) :
    (healthAppend kind pl s).2 = s.withFlash (writeFlashTab s.boot.flash (healthBase s.healthNext.2 + 64 * s.healthPlace s.healthNext.2)
      (healthEntry s.healthNext.1 kind pl)) := by
  rw [healthAppend, run_bind, run_get]
  revert h
  unfold M.healthNext
  cases htop : s.healthTop with
  | none =>
    intro h
    have hroom : (s.healthPlaces 0).foldl (fun m i => max m (i + 1)) 0 < healthSize / 64 := h
    dsimp only
    rw [if_pos hroom]
    rfl
  | some x =>
    intro h
    have hroom : (s.healthPlaces x.2).foldl (fun m i => max m (i + 1)) 0 < healthSize / 64 := h
    dsimp only
    rw [if_pos hroom]
    rfl

section
variable {s : M} (hw : Tab.wf flashErased s.boot.flash = true) {c place : Nat} (hc : c ≤ 1) (hplace : place < 0x8000) {seq kind : Nat} {pl : List Byte}
include hw hc hplace

/-- Writing an entry at a place after all that are in use adds it to the record, and keeps the others. -/
theorem M.health_withFlash (hnext : ∀ i ∈ s.healthPlaces c, i < place) (hseq : seq < 2 ^ 32 - 1) (hkind : kind < 2 ^ 16)
    (hpl : pl.length ≤ 54) :
    let m := s.withFlash (writeFlashTab s.boot.flash (healthBase c + 64 * place) (healthEntry seq kind pl))
    ⟨seq, kind, pl ++ List.replicate (54 - pl.length) 0#8⟩ ∈ m.health ∧ ∀ h ∈ s.health, h ∈ m.health := by
  intro m
  have hm : Tab.wf flashErased m.boot.flash = true := wf_writeFlashTab hw _ _
  have hother : ∀ x, x < healthBase c + 64 * place ∨ healthBase c + 64 * place + 64 ≤ x → m.flashAt x = s.flashAt x := fun x hx =>
    read_writeFlashTab_other _ _ _ (by rwa [length_healthEntry])
  have hbytes : m.flashBytes (healthBase c + 64 * place) 64 = healthEntry seq kind pl := by
    have hself := read_writeFlashTab_self hw (healthBase c + 64 * place) (healthEntry seq kind pl)
    rwa [length_healthEntry] at hself
  have hkeep : ∀ c', c' ≤ 1 → ∀ h ∈ s.healthOf c', h ∈ m.healthOf c' := fun c' hc' h =>
    M.mem_healthOf_of_same hw hm fun i hi x hlo hhi => hother x (by
      have hi' := ((M.mem_healthPlaces hw).1 hi).1
      by_cases hcc : c' = c
      · subst hcc
        have := hnext i hi
        omega
      · simp only [healthBase] at hlo hhi ⊢
        omega)
  have hnew : ⟨seq, kind, pl ++ List.replicate (54 - pl.length) 0#8⟩ ∈ m.healthOf c :=
    M.mem_healthOf_of_bytes hm hplace (by rw [hbytes, ofBytes_healthEntry (by omega) hkind hpl]) (Nat.ne_of_lt hseq)
  refine ⟨?_, fun h hh => ?_⟩
  · obtain rfl | rfl : c = 0 ∨ c = 1 := by omega
    · exact List.mem_append_left _ hnew
    · exact List.mem_append_right _ hnew
  · rcases List.mem_append.1 hh with h0 | h1
    · exact List.mem_append_left _ (hkeep 0 (by omega) h h0)
    · exact List.mem_append_right _ (hkeep 1 le_rfl h h1)

end

/-- Settles O19: the entry goes to the next place of the copy in use (`run_healthAppend_room`), where it is valid, and every other place
reads as before. -/
theorem healthRecordAppends : Obligations.HealthRecordAppends := by
  intro s kind pl hl hw hkind hpl seq copy place hplace hseq
  have hnext : s.m.healthNext = (seq, copy) := by
    simp only [M.healthNext, seq, copy]
    cases s.m.healthTop <;> rfl
  have hcopy : copy ≤ 1 := by
    have hle := s.m.healthNext_copy
    rwa [hnext] at hle
  have hrun := run_healthAppend_room (s := s.m) (by rw [hnext]; exact hplace) kind pl
  rw [hnext] at hrun
  obtain ⟨hnew, hold⟩ := M.health_withFlash hw hcopy hplace (fun i hi => lt_nextPlace hi 0) hseq hkind hpl
  refine ⟨s.m.withFlash (writeFlashTab s.m.boot.flash (healthBase copy + 64 * place) (healthEntry seq kind pl)), ?_, hnew, hold,
    fun a ha => ?_, rfl⟩
  · rw [exec, execHealthRecordAppend, State.doing_live s _ hl, hrun]
    rfl
  · rw [M.flashBytes_one, M.flashBytes_one]
    exact congrArg ([·]) (read_writeFlashTab_other _ _ _ (by rwa [length_healthEntry]))

end Sys2Proof.Machine

/-! # Flash commands (R385) -/

namespace Sys2Proof.Machine

/-! ## Acceptance -/

theorem M.targetSlot_accessed (m : M) (w : Nat) : (m.accessed w).targetSlot = m.targetSlot := by
  obtain ⟨r, hr⟩ := m.accessed_eq w
  have hreg : ({ m with regs := r } : M).reg Reg.mgtBootStatus = m.reg Reg.mgtBootStatus := by
    rw [← hr, M.reg_accessed (by simp only [Reg.mgtBootStatus]; omega)]
  rw [hr, M.targetSlot, hreg]
  rfl

theorem M.flashStatus_accessed (m : M) (w : Nat) : (m.accessed w).reg Reg.mgtFlashStatus = m.reg Reg.mgtFlashStatus :=
  M.reg_accessed (by simp only [Reg.mgtFlashStatus]; omega)

section
variable {s : M} {t op len : Nat}

/-- No command is accepted while none has a target or one runs. -/
theorem run_flashCommand_refused (h : s.targetSlot = none ∨ bits (s.reg Reg.mgtFlashStatus) 31 30 = 1) :
    (flashCommand op len s).2 = s := by
  rw [flashCommand, run_bind, run_get]
  dsimp only
  cases ht : s.targetSlot with
  | none => rfl
  | some t =>
    have hrun : bits (s.reg Reg.mgtFlashStatus) 31 30 = 1 := h.resolve_left (by simp [ht])
    dsimp only
    rw [run_whenA, if_neg (by simp [hrun])]

variable (ht : s.targetSlot = some t) (hrun : bits (s.reg Reg.mgtFlashStatus) 31 30 ≠ 1)
include ht hrun

/-- A command of a sound length is taken. -/
theorem run_flashCommand_taken (hop : 1 ≤ op ∧ op ≤ 3) (hlen : ¬ (op = 2 ∧ (len % 256 ≠ 0 ∨ len > slotSize))) :
    (flashCommand op len s).2 =
      { s.setReg Reg.mgtFlashStatus (flashStatus 1 0 t 0) with boot := { s.boot with cmd := op, cmdLen := len } } := by
  rw [flashCommand, run_bind, run_get]
  dsimp only
  rw [ht]
  dsimp only
  rw [run_whenA, if_pos (by simp [hrun, hop]), if_neg hlen]
  rfl

/-- PROGRAM with a length that breaks its rule ends at once. -/
theorem run_flashCommand_badLen (hlen : len % 256 ≠ 0 ∨ len > slotSize) :
    (flashCommand 2 len s).2 = s.setReg Reg.mgtFlashStatus (flashStatus 3 10 t 0) := by
  rw [flashCommand, run_bind, run_get]
  dsimp only
  rw [ht]
  dsimp only
  rw [run_whenA, if_pos (by simp [hrun]), if_pos ⟨rfl, hlen⟩]
  rfl

end

/-- What the gate of writes lets through for each command. -/
theorem exec_flashCommand {s : State} {w : Nat} (hl : s.m.board.live = true) (ha : s.m.admits w true) :
    exec (.mgtFlashErase w) s = s.becomes (flashCommand 1 0 (s.m.accessed w)).2 ∧
    exec (.mgtFlashCheck w) s = s.becomes (flashCommand 3 0 (s.m.accessed w)).2 ∧
    ∀ len, exec (.mgtFlashProgram len w) s = s.becomes (flashCommand 2 len (s.m.accessed w)).2 := by
  refine ⟨?_, ?_, fun len => ?_⟩
  · rw [exec, execMgtFlashErase, State.doing_live s _ hl, run_regAction_admitted ha]
  · rw [exec, execMgtFlashCheck, State.doing_live s _ hl, run_regAction_admitted ha]
  · rw [exec, execMgtFlashProgram, State.doing_live s _ hl, run_regAction_admitted ha]

/-! ## The end of the running command -/

/-- The fields of MGT_FLASH_STATUS are read back. -/
theorem bits_flashStatus {state err t : Nat} (hstate : state < 4) (herr : err < 16) (ht : t < 4) (kib : Nat) :
    bits (flashStatus state err t kib) 31 30 = state ∧ bits (flashStatus state err t kib) 29 26 = err := by
  have hk : trunc 24 kib < 2 ^ 24 := Nat.mod_lt _ (by decide)
  simp only [flashStatus, bits, Nat.shiftLeft_eq, Nat.shiftRight_eq_div_pow]
  omega

theorem M.flashTarget_lt (s : M) : bits (s.reg Reg.mgtFlashStatus) 25 24 < 4 := Nat.mod_lt _ (by decide)

/-- A command that fails shows its code and leaves its slot partly written. -/
theorem run_flashFails {s : M} (hw : s.wf = true) {t err : Nat} (ht : t < 4) (herr : err < 16) :
    let m := (flashFails t err s).2
    bits (m.reg Reg.mgtFlashStatus) 31 30 = 3 ∧ bits (m.reg Reg.mgtFlashStatus) 29 26 = err ∧ t ∈ m.boot.torn ∧
      m.boot.flash = s.boot.flash ∧ s.sameStores m := by
  intro m
  obtain ⟨u, x, hm, hu, hboot, hstores⟩ : ∃ (u : M) (x : Nat), m = u.setReg Reg.mgtFlashStatus (flashStatus 3 err t x) ∧ u.wf = true ∧
      u.boot = { s.boot with torn := insertNew s.boot.torn t } ∧ s.sameStores u :=
    ⟨{ s with free := s.free + 1, boot := { s.boot with torn := insertNew s.boot.torn t } }, _, rfl,
      (M.wf_congr ⟨rfl, rfl, rfl, rfl, rfl, rfl, rfl, rfl, rfl, rfl, rfl⟩).trans hw, rfl, rfl, rfl⟩
  obtain ⟨hstate, hcode⟩ := bits_flashStatus (state := 3) (by decide) herr ht x
  have hreg : m.reg Reg.mgtFlashStatus = flashStatus 3 err t x := by rw [hm, M.reg_setReg_self u _ _ hu]
  have hboot' : m.boot = { s.boot with torn := insertNew s.boot.torn t } := by rw [hm, M.setReg_boot, hboot]
  refine ⟨by rw [hreg, hstate], by rw [hreg, hcode], ?_, ?_, ?_⟩
  · rw [hboot']
    exact mem_insertNew.2 (.inr rfl)
  · rw [hboot']
  · rw [hm]
    exact hstores

/-- The code of a slot fits its field. -/
theorem M.slotCode_lt (s : M) (slot : Nat) (readErr : Bool) : s.slotCode slot readErr < 16 := by
  unfold M.slotCode
  dsimp only
  repeat' split
  all_goals decide

/-- A slot that no command has left partly written is checked as it stands. -/
theorem run_checkSlot_untorn {s : M} {slot : Nat} (h : slot ∉ s.boot.torn) (readErr : Bool) :
    checkSlot slot readErr s = (s.slotCode slot readErr, s) := by
  rw [checkSlot, run_bind, run_get, run_ite, if_neg (by simpa using h)]
  rfl

section
variable {s : State} (hl : s.m.board.live = true)
include hl

/-- Nothing ends while no command runs. -/
theorem exec_flashCommandDone_idle (h : bits (s.m.reg Reg.mgtFlashStatus) 31 30 ≠ 1) (ok : Bool) :
    exec (.flashCommandDone ok) s = .next s := by
  rw [exec, execFlashCommandDone, State.doing_live s _ hl, run_bind, run_get, run_whenA, if_neg (by simpa using h)]

variable (hrunning : bits (s.m.reg Reg.mgtFlashStatus) 31 30 = 1)
include hrunning

theorem exec_flashCommandDone_failed (hcmd : s.m.boot.cmd ≠ 3) :
    exec (.flashCommandDone false) s = s.becomes (flashFails (bits (s.m.reg Reg.mgtFlashStatus) 25 24) 9 s.m).2 := by
  rw [exec, execFlashCommandDone, State.doing_live s _ hl, run_bind, run_get, run_whenA, if_pos (by simpa using hrunning), if_neg hcmd,
    if_pos (by rfl)]

/-- The module with a slot erased. -/
def M.erased (s : M) (t : Nat) : M :=
  { s with boot := { s.boot with
      flash := s.boot.flash.filter fun x => !(decide (slotBase t ≤ x.1) && decide (x.1 < slotBase t + slotSize))
      torn := s.boot.torn.filter (· != t) } }

omit hl hrunning in
theorem M.flashAt_erased (m : M) (t a : Nat) :
    (m.erased t).flashAt a = if slotBase t ≤ a ∧ a < slotBase t + slotSize then 0xFF#8 else m.flashAt a := by
  have h := Tab.read_filter_key flashErased (fun k => decide (slotBase t ≤ k) && decide (k < slotBase t + slotSize)) m.boot.flash a
  simp only [Bool.and_eq_true, decide_eq_true_eq] at h
  exact h

theorem exec_flashErase_done (hcmd : s.m.boot.cmd = 1) : exec (.flashCommandDone true) s =
    s.becomes ((s.m.erased (bits (s.m.reg Reg.mgtFlashStatus) 25 24)).setReg Reg.mgtFlashStatus
      (flashStatus 2 0 (bits (s.m.reg Reg.mgtFlashStatus) 25 24) 0xF000)) := by
  have h3 : s.m.boot.cmd ≠ 3 := by omega
  rw [exec, execFlashCommandDone, State.doing_live s _ hl, run_bind, run_get, run_whenA, if_pos (by simpa using hrunning),
    if_neg h3, if_neg (by decide), if_pos hcmd]
  rfl

/-- PROGRAM reads its bytes and writes them, unless they are poisoned. -/
theorem exec_flashProgram_done (hcmd : s.m.boot.cmd = 2) (hreg : inRegion (s.m.reg Reg.mgtFlashSrc) s.m.boot.cmdLen = true) :
    exec (.flashCommandDone true) s = s.becomes (
      let t := bits (s.m.reg Reg.mgtFlashStatus) 25 24
      let r := readBytes (s.m.reg Reg.mgtFlashSrc) s.m.boot.cmdLen s.m
      if r.1.1 then (flashFails t 8 r.2).2
      else ({ r.2 with boot := { r.2.boot with flash := writeFlashTab r.2.boot.flash (slotBase t) r.1.2 } } : M).setReg
        Reg.mgtFlashStatus (flashStatus 2 0 t (s.m.boot.cmdLen / 1024))) := by
  have h3 : s.m.boot.cmd ≠ 3 := by omega
  have h1 : s.m.boot.cmd ≠ 1 := by omega
  rw [exec, execFlashCommandDone, State.doing_live s _ hl, run_bind, run_get, run_whenA, if_pos (by simpa using hrunning),
    if_neg h3, if_neg (by decide), if_neg h1, if_neg (by simp [hreg]), run_bind]
  generalize readBytes (s.m.reg Reg.mgtFlashSrc) s.m.boot.cmdLen s.m = r
  obtain ⟨⟨p, bs⟩, u⟩ := r
  cases p <;> rfl

/-- CHECK shows the code of the slot. -/
theorem exec_flashCheck_done (hcmd : s.m.boot.cmd = 3) (hsec : s.m.secDown = false)
    (htorn : bits (s.m.reg Reg.mgtFlashStatus) 25 24 ∉ s.m.boot.torn) (ok : Bool) :
    let t := bits (s.m.reg Reg.mgtFlashStatus) 25 24
    let c := s.m.slotCode t (!ok)
    ∃ kib, exec (.flashCommandDone ok) s = s.becomes (({ s.m with free := s.m.free + 1 } : M).setReg Reg.mgtFlashStatus
      (flashStatus (if c = 0 then 2 else 3) c t kib)) := by
  intro t c
  refine ⟨if c = 0 then ceilDiv (s.m.slotLen t) 1024 else trunc 24 (Config.freeValue s.m.free), ?_⟩
  rw [exec, execFlashCommandDone, State.doing_live s _ hl, run_bind, run_get, run_whenA, if_pos (by simpa using hrunning),
    if_pos hcmd, run_ite, if_neg (by simp [hsec]), run_bind, run_checkSlot_untorn htorn]
  rfl

end

/-- Settles O18: acceptance by what a command does behind the gate of writes, and its end by the outcome of each command. -/
theorem flashCommands : Obligations.FlashCommands := by
  refine ⟨?_, ?_⟩
  · intro s w hl ha m0 st start
    obtain ⟨herase, hcheck, hprogram⟩ := exec_flashCommand hl ha
    have htarget : m0.targetSlot = s.m.targetSlot := M.targetSlot_accessed s.m w
    have hst : m0.reg Reg.mgtFlashStatus = st := M.flashStatus_accessed s.m w
    have hboot : m0.boot = s.m.boot := M.accessed_boot s.m w
    refine ⟨fun t ht hrun => ?_, fun h => ?_⟩
    · have ht' := htarget.trans ht
      have hrun' : bits (m0.reg Reg.mgtFlashStatus) 31 30 ≠ 1 := by rwa [hst]
      refine ⟨?_, ?_, fun len h1 h2 => ?_, fun len hbad => ?_⟩
      · rw [herase, run_flashCommand_taken ht' hrun' (by omega) (by omega), hboot]
      · rw [hcheck, run_flashCommand_taken ht' hrun' (by omega) (by omega), hboot]
      · rw [hprogram, run_flashCommand_taken ht' hrun' (by omega) (by omega), hboot]
      · rw [hprogram, run_flashCommand_badLen ht' hrun' hbad]
    · have hno : m0.targetSlot = none ∨ bits (m0.reg Reg.mgtFlashStatus) 31 30 = 1 := by rwa [htarget, hst]
      refine ⟨?_, ?_, fun len => ?_⟩
      · rw [herase, run_flashCommand_refused hno]
      · rw [hcheck, run_flashCommand_refused hno]
      · rw [hprogram, run_flashCommand_refused hno]
  intro s hl hw t running
  refine ⟨fun h ok => exec_flashCommandDone_idle hl h ok, ?_, ?_, ?_, ?_⟩
  · intro hrun hcmd
    have hwf : (s.m.erased t).wf = true := (M.wf_congr ⟨rfl, rfl, rfl, rfl, rfl, rfl, rfl, rfl, rfl, rfl, rfl⟩).trans hw
    refine ⟨_, exec_flashErase_done hl hrun hcmd, fun a => ?_, ?_, M.reg_setReg_self _ _ _ hwf, ⟨rfl, rfl⟩, rfl⟩
    · rw [M.flashBytes_one, M.flashBytes_one]
      refine (congrArg ([·]) (M.flashAt_erased s.m t a)).trans ?_
      split <;> rfl
    · exact fun h => by simpa [t] using (List.mem_filter.1 h).2
  · intro hrun hcmd hreg r
    have hdone := exec_flashProgram_done hl hrun hcmd hreg
    refine ⟨fun hp => ?_, fun hp => ?_⟩
    · rw [hdone, if_neg (by rw [hp]; decide)]
    · have hr : r.2.wf = true := keepsWf_readBytes _ _ s.m hw
      obtain ⟨h1, h2, h3, _⟩ := run_flashFails hr (t := t) (err := 8) s.m.flashTarget_lt (by decide)
      exact ⟨_, by rw [hdone, if_pos hp], h1, h2, h3⟩
  · intro hrun hcmd
    exact ⟨_, exec_flashCommandDone_failed hl hrun hcmd, run_flashFails hw s.m.flashTarget_lt (by decide)⟩
  · intro hrun hcmd hsec htorn ok
    obtain ⟨kib, hdone⟩ := exec_flashCheck_done hl hrun hcmd hsec htorn ok
    have hwf : ({ s.m with free := s.m.free + 1 } : M).wf = true := (M.wf_congr ⟨rfl, rfl, rfl, rfl, rfl, rfl, rfl, rfl, rfl, rfl, rfl⟩).trans hw
    obtain ⟨hstate, hcode⟩ := bits_flashStatus (state := if s.m.slotCode t (!ok) = 0 then 2 else 3) (by split <;> decide)
      (s.m.slotCode_lt t (!ok)) s.m.flashTarget_lt kib
    refine ⟨_, hdone, ?_, ?_, rfl, rfl, rfl⟩
    · rw [M.reg_setReg_self _ _ _ hwf, hstate]
    · rw [M.reg_setReg_self _ _ _ hwf, hcode]

end Sys2Proof.Machine

/-! # What the use of the stores and the noting of errors leave as they were (R201 to R205, R362)

A property that the registers of errors and events, the stores, the error log and what goes to the host do not touch is kept by every read
and write of the stores. -/

namespace Sys2Proof.Machine

/-- A property that neither errors and events that are noted undo, nor the stores. -/
structure AboutNotes (P : M → Prop) : Prop where
  setReg : ∀ {t o} v, Reg.ofNotes o → P t → P (t.setReg o v)
  store : ∀ {t : M} m c, P t → P { t with mem := m, chk := c }
  log : ∀ {t : M} l, P t → P { t with logBuf := l }
  toHost : ∀ {t : M} o, P t → P (t.toHost o)

namespace AboutNotes

variable {P : M → Prop} (hP : AboutNotes P)
include hP

theorem keeps_wr {o : Nat} (ho : Reg.ofNotes o) (v : Nat) : Keeps P (wr o v) := fun _ h => hP.setReg v ho h

theorem keeps_upd {o : Nat} (ho : Reg.ofNotes o) (f : Nat → Nat) : Keeps P (upd o f) := fun _ h => hP.setReg _ ho h

theorem keeps_posCount (pos frm k code n who : Nat) : Keeps P (posCount pos frm k code n who) := fun t h => by
  have hcnt : ∀ {u : M} c v, P u → P (u.setReg (Reg.posCnt pos c) v) := fun c v hu =>
    hP.setReg v (Reg.ofNotes_of_le (by simp only [Reg.posCnt]; omega)) hu
  have hovf : ∀ {u : M} v, P u → P (u.setReg (Reg.posCntOvf pos) v) := fun v hu =>
    hP.setReg v (Reg.ofNotes_of_le (by simp only [Reg.posCntOvf]; omega)) hu
  rw [posCount, run_modify]
  split
  · exact h
  · refine List.foldlRecOn _ _ h fun u hu c _ => ?_
    split
    · exact hu
    · unfold countAt
      dsimp only
      split
      · generalize u.reg (Reg.posCnt pos c) + _ = v
        split
        · exact hcnt c _ hu
        · exact hovf _ (hcnt c _ hu)
      · exact hu

theorem keeps_sliceEvent (l code : Nat) : Keeps P (sliceEvent l code) :=
  keeps_getThen fun _ => keeps_ite (keeps_getThen fun _ => hP.keeps_posCount _ _ _ _ _ _) (keeps_pure _)

theorem keeps_logAdd (kind island step logical queue entry : Nat) (pl : List Byte) :
    Keeps P (logAdd kind island step logical queue entry pl) :=
  keeps_getThen fun _ => keeps_bind (hP.keeps_wr (by simp [Reg.ofNotes, Reg.chkLogWr]) _) fun _ =>
    keeps_bind (keeps_whenA (hP.keeps_upd (by simp [Reg.ofNotes, Reg.chkLogLost]) _)) fun _ =>
      keeps_bind (fun _ h => hP.log _ h) fun _ _ h => hP.toHost _ h

theorem setBytes {t : M} (a : Nat) (bs : List Byte) (h : P t) : P (t.setBytes a bs) := by
  obtain ⟨m, hm⟩ := t.setBytes_eq a bs
  exact hm ▸ hP.store m t.chk h

theorem setChks {t : M} (l k : Nat) (vs : List Nat) (h : P t) : P (t.setChks l k vs) := by
  obtain ⟨c, hc⟩ := t.setChks_eq l k vs
  exact hc ▸ hP.store t.mem c h

theorem putLine {t : M} (l : Nat) (d : List Byte) (p : Bool) (h : P t) : P (t.putLine l d p) :=
  hP.setChks _ _ _ (hP.setBytes _ _ h)

theorem keeps_readLine (l : Nat) : Keeps P (readLine l) := by
  have hcount := fun (o : Nat) (ho : 0x230010 ≤ o ∧ o ≤ 0x230030) f => hP.keeps_upd (o := o) (.inr (.inl ho)) f
  have herr := fun v => hP.keeps_wr (o := Reg.memLastErr) (.inr (.inl (by decide))) v
  refine keeps_getThen fun t => ?_
  dsimp only
  split
  case h_1 => exact keeps_pure _
  case h_2 =>
    exact keeps_bind (hcount _ (by decide) _) fun _ => keeps_bind (herr _) fun _ =>
      keeps_bind (hP.keeps_sliceEvent _ _) fun _ => keeps_pure _
  case h_3 =>
    exact keeps_bind (keeps_modify fun u h => hP.setChks _ _ _ (hP.setBytes _ _ h)) fun _ => keeps_bind (hcount _ (by decide) _) fun _ =>
      keeps_bind (herr _) fun _ => keeps_bind (hP.keeps_sliceEvent _ _) fun _ => keeps_pure _
  case h_4 =>
    exact keeps_bind (keeps_modify fun u h => hP.setChks _ _ _ h) fun _ => keeps_bind (hcount _ (by decide) _) fun _ =>
      keeps_bind (herr _) fun _ => keeps_bind (hP.keeps_logAdd _ _ _ _ _ _ _) fun _ => keeps_pure _

theorem keeps_readLines (ls : List Nat) : Keeps P (readLines ls) := by
  unfold readLines
  exact keeps_bind (keeps_mapA fun l => keeps_bind (hP.keeps_readLine l) fun _ => keeps_pure _) fun _ => keeps_pure _

theorem keeps_readBytes (a n : Nat) : Keeps P (readBytes a n) := by
  unfold readBytes
  exact keeps_bind (hP.keeps_readLines _) fun _ => keeps_getThen fun _ => keeps_pure _

theorem keeps_writeInLine (l off : Nat) (data : List Byte) : Keeps P (writeInLine l off data) :=
  keeps_ite (keeps_bind (fun _ h => hP.putLine _ _ _ h) fun _ => keeps_pure _)
    (keeps_bind (hP.keeps_readLine l) fun _ => keeps_ite (keeps_pure _)
      (keeps_bind (fun _ h => hP.putLine _ _ _ h) fun _ => keeps_pure _))

theorem keeps_writeBytesAux (fuel a : Nat) (data : List Byte) : Keeps P (writeBytesAux fuel a data) := by
  induction fuel generalizing a data with
  | zero => exact keeps_pure _
  | succ fuel ih =>
    exact keeps_ite (keeps_pure _) (keeps_bind (hP.keeps_writeInLine _ _ _) fun _ => keeps_bind (ih _ _) fun _ => keeps_pure _)

theorem keeps_writeBytes (a : Nat) (data : List Byte) : Keeps P (writeBytes a data) := hP.keeps_writeBytesAux _ a data

end AboutNotes

/-- The accesses of the host that wait, and the writers that are held, are left alone by the use of the stores. -/
theorem aboutNotes_held (w : List Instr) (h : Tab Nat) : AboutNotes fun t => t.cxl.waiting = w ∧ t.heldBy = h where
  setReg _ _ h := h
  store _ _ h := h
  log _ h := h
  toHost o h := by
    unfold M.toHost
    split <;> exact h

end Sys2Proof.Machine

/-! # Commands on the rings and passes of a logical core: the gate that they pass (R12, R124, R315, R319, R378) -/

namespace Sys2Proof.Machine

section
variable (m : M) (w : Nat)

@[simp] theorem M.accessed_cores : (m.accessed w).cores = m.cores := by
  obtain ⟨r, h⟩ := m.accessed_eq w
  rw [h]

@[simp] theorem M.accessed_heldBy : (m.accessed w).heldBy = m.heldBy := by
  obtain ⟨r, h⟩ := m.accessed_eq w
  rw [h]

@[simp] theorem M.accessed_hostQ : (m.accessed w).hostQ = m.hostQ := by
  obtain ⟨r, h⟩ := m.accessed_eq w
  rw [h]

theorem M.sameStores_accessed : m.sameStores (m.accessed w) := by
  obtain ⟨r, h⟩ := m.accessed_eq w
  rw [h]
  exact ⟨rfl, rfl⟩

theorem M.wf_accessed {m : M} (h : m.wf = true) (w : Nat) : (m.accessed w).wf = true := keepsWf_ctlAccess w m h

@[simp] theorem M.accessed_core (n : Nat) : (m.accessed w).core n = m.core n := by rw [M.core, M.accessed_cores, M.core]

@[simp] theorem M.accessed_ring (n e : Nat) : (m.accessed w).ring n e = m.ring n e := by rw [M.ring, M.accessed_core, M.ring]

@[simp] theorem M.accessed_asm (n e v : Nat) : (m.accessed w).asm n e v = m.asm n e v := by rw [M.asm, M.accessed_ring, M.asm]

/-- The registers of the module and of its logical cores are as they were. -/
theorem M.accessed_reg {o : Nat} (h : o < 0x10004000) : (m.accessed w).reg o = m.reg o := M.reg_accessed (by omega)

@[simp] theorem M.accessed_nCores : (m.accessed w).nCores = m.nCores := by
  rw [M.nCores, M.accessed_reg _ _ (by decide), M.nCores]

end

section
variable (m : M) (w : Nat) {n e : Nat} (hn : n < 120) (he : e < 4)
include hn he

theorem M.accessed_ringFull : (m.accessed w).ringFull n e = m.ringFull n e := by
  rw [M.ringFull, M.accessed_reg _ _ (by simp only [Reg.coreRingWr]; omega), M.accessed_reg _ _ (by simp only [Reg.coreRingRd]; omega),
    M.accessed_reg _ _ (by simp only [Reg.coreRingSize]; omega), M.ringFull]

theorem M.accessed_ringRun : (m.accessed w).ringRun n e = m.ringRun n e := by
  rw [M.ringRun, M.accessed_reg _ _ (by simp only [Reg.coreRingCtl]; omega), M.ringRun]

theorem M.accessed_recAddr (x : Nat) : (m.accessed w).recAddr n e x = m.recAddr n e x := by
  rw [M.recAddr, M.accessed_reg _ _ (by simp only [Reg.coreRingBase]; omega),
    M.accessed_reg _ _ (by simp only [Reg.coreRingSize]; omega), M.recAddr]

end

/-- A command on a core of the grade that is let through. -/
theorem run_coreAction_admitted {m : M} {w n : Nat} (ha : m.admits w false) (hn : n < m.nCores) (i : Instr) (a : Act Unit) :
    (coreAction w n i a m).2 = (a (m.accessed w)).2 := by
  rw [coreAction, run_regAction_admitted ha, run_bind, run_get, run_whenA, if_pos (by simpa using hn)]

/-- There is no core outside the grade (R12). -/
theorem run_coreAction_outside {m : M} {w n : Nat} (ha : m.admits w false) (hn : m.nCores ≤ n) (i : Instr) (a : Act Unit) :
    (coreAction w n i a m).2 = m.accessed w := by
  rw [coreAction, run_regAction_admitted ha, run_bind, run_get, run_whenA, if_neg (by simpa using hn)]

end Sys2Proof.Machine

/-! # RUN, ring reset and CORE_PASS_THROW: the last clause fails for passes that a core does not have

The statement takes any number as a pass. For the number whose register would lie where a position's event counter stands, the counting of
the control core's own access has moved that register before the throw adds to it, and the sum is one more than the statement says. -/

namespace Sys2Proof.Machine

/-- The pass whose register would be event counter 32 of position 0. -/
def strayPass : Nat := 0x3C00C40

theorem strayPass_reg : Reg.corePassCount 0 strayPass = Reg.posCnt 0 32 := by decide

/-- A module whose position 0 counts the accesses of its control core at counter 32. -/
def strayThrow : State := { State.reset with m := tRegs [(Reg.posCntSel 0 32, 1 <<< 31 + 0x10A)] }

theorem strayThrow_sound : strayThrow.m.board.live = true ∧ strayThrow.m.wf = true ∧ tAdmits strayThrow.m 1 false = true ∧
    0 < strayThrow.m.nCores ∧ strayThrow.m.reg (Reg.corePassCount 0 strayPass) = 0 := by decide +kernel

/-- The throw of nothing leaves 1 there, by the count of the access. -/
theorem strayThrow_counts : (tAfter (exec (.corePassThrow 0 strayPass 0 1) strayThrow)).reg (Reg.corePassCount 0 strayPass) = 1 ∧
    ((strayThrow.m.accessed 1).setReg (Reg.corePassCount 0 strayPass) (0 + 0)).reg (Reg.corePassCount 0 strayPass) = 0 := by
  decide +kernel

/-- Refutes O37: for a pass beyond the 256 of a core (`strayPass`), the throw adds to what the access itself has counted. -/
theorem not_ringRunResetAndThrow : ¬ Obligations.RingRunResetAndThrow := by
  intro h
  obtain ⟨hl, hw, ha, hn, hc⟩ := strayThrow_sound
  obtain ⟨hgot, hsaid⟩ := strayThrow_counts
  obtain ⟨-, -, -, -, -, hthrow⟩ := (h strayThrow 1 0 0 hl hw (test_admits _ _ _ ha) (by decide)).1 hn
  have hexec := (hthrow strayPass 0).1 (by rw [hc]; decide)
  rw [hc] at hexec
  rw [hexec] at hgot
  exact absurd (hgot.symm.trans hsaid) (by decide)

end Sys2Proof.Machine

/-! # The words of a record are pushed (R123, R124, R315) -/

namespace Sys2Proof.Machine

/-! ## The steps of a push -/

/-- The module whose writer stalls with word k on ring e of core n. -/
def M.stallAt (s : M) (w n e k v : Nat) : M :=
  { s.withAsm n e w { s.asm n e w with stalled := some (k, v) } with heldBy := Tab.put (fun _ => 0) s.heldBy w (1 + 4 * n + e) }

theorem run_setAsm (n e w : Nat) (a : PushAsm) (s : M) : (setAsm n e w a s).2 = s.withAsm n e w a := rfl

theorem run_stallPush (n e w k v : Nat) (s : M) : (stallPush n e w k v s).2 = s.stallAt w n e k v := rfl

/-- PUSH_ORDER shows in the ring's state, and nothing of the rings or the stores changes. -/
structure M.disordered (s t : M) (n e : Nat) : Prop where
  shown : bit (t.reg (Reg.coreRingState n e)) 27 = true
  cores : t.cores = s.cores
  held : t.heldBy = s.heldBy
  stores : s.sameStores t
  wr : t.reg (Reg.coreRingWr n e) = s.reg (Reg.coreRingWr n e)

theorem pushOrder_disorders {s : M} (hw : s.wf = true) (w : Nat) {n e : Nat} (hn : n < 120) (he : e < 4) :
    s.disordered (pushOrder w n e s).2 n e := by
  let u := s.setReg (Reg.coreRingState n e) (setBits (s.reg (Reg.coreRingState n e)) 27 27 1)
  have hu : s.disordered u n e :=
    ⟨by rw [M.reg_setReg_self _ _ _ hw, bit_setBits_self]; rfl, rfl, rfl, ⟨rfl, rfl⟩,
      M.reg_setReg_other _ _ (by simp only [Reg.coreRingState, Reg.coreRingWr]; omega)⟩
  have hrun : (pushOrder w n e s).2 = if (w != 0) = true then (posCount (w - 1) 32 8 0x108 1 (u.logicalAt (w - 1)) u).2 else u := by
    rw [pushOrder, run_bind, run_bind, run_whenA]
    rfl
  rw [hrun]
  split
  · have hreg : ∀ o, o < 0x10004000 → (posCount (w - 1) 32 8 0x108 1 (u.logicalAt (w - 1)) u).2.reg o = u.reg o := fun o ho =>
      reg_posCount_below (by omega) _ _ _ _ _ _
    obtain ⟨r, hr⟩ := posCount_regs (w - 1) 32 8 0x108 1 (u.logicalAt (w - 1)) u
    refine ⟨?_, by rw [hr]; exact hu.cores, by rw [hr]; exact hu.held, by rw [hr]; exact hu.stores, ?_⟩
    · rw [hreg _ (by simp only [Reg.coreRingState]; omega)]
      exact hu.shown
    · rw [hreg _ (by simp only [Reg.coreRingWr]; omega)]
      exact hu.wr
  · exact hu

/-! ## A record is committed -/

/-- The four words have entered the ring at WR, and the writer's assembly is empty. -/
structure M.committed (s t : M) (w n e : Nat) (ws : List Nat) : Prop where
  wr : t.reg (Reg.coreRingWr n e) = trunc 32 (s.reg (Reg.coreRingWr n e) + 1)
  asm : (t.ring n e).asm = Tab.put (fun _ => PushAsm.init) (s.ring n e).asm w {}
  cores : ∀ k, k ≠ n → t.core k = s.core k
  infl : (t.ring n e).infl = (s.ring n e).infl
  written : let a := s.recAddr n e (s.reg (Reg.coreRingWr n e))
    inRegion a 32 = true → a % 32 = 0 → t.bytes a 32 = leBytes 32 (packCodes 64 ws)
  others : let a := s.recAddr n e (s.reg (Reg.coreRingWr n e))
    ∀ b, b < a ∨ a + 32 ≤ b → a % 32 = 0 → t.byte b = s.byte b
  waiting : t.cxl.waiting = s.cxl.waiting
  held : t.heldBy = s.heldBy

/-- Writing one whole line leaves every byte outside it alone. -/
theorem byte_writeBytes_line {s : M} (hw : s.wf = true) {a : Nat} (ha : a % 32 = 0) {data : List Byte} (hd : data.length = 32) {b : Nat}
    (hb : b < a ∨ a + 32 ≤ b) : (writeBytes a data s).2.byte b = s.byte b := by
  obtain ⟨t, hrun, honly, -⟩ := run_writeBytesAux_lines hw 1 (l := a / 32) (fuel := data.length / 32 + 2) (data := data)
    (by omega) (by omega)
  rw [show 32 * (a / 32) = a by omega] at hrun
  rw [writeBytes, hrun]
  exact M.byte_of_codeword (honly.others _ (by omega))

theorem commitRecord_commits {s : M} (hw : s.wf = true) (w n e : Nat) (ws : List Nat) :
    s.committed ((do commitRecord n e ws; setAsm n e w {} : Act Unit) s).2 w n e ws := by
  let x := s.reg (Reg.coreRingWr n e)
  let a := s.recAddr n e x
  let u := (writeBytes a (leBytes 32 (packCodes 64 ws)) s).2
  let t := if inRegion a 32 then u else s
  have hrun : ((do commitRecord n e ws; setAsm n e w {} : Act Unit) s).2 =
      (t.setReg (Reg.coreRingWr n e) (trunc 32 (x + 1))).withAsm n e w {} := by
    simp only [commitRecord, run_bind, run_whenA]
    rfl
  have ht : t.wf = true ∧ t.cores = s.cores ∧ t.cxl.waiting = s.cxl.waiting ∧ t.heldBy = s.heldBy := by
    dsimp only [t]
    split
    · obtain ⟨hwait, hheld⟩ := (aboutNotes_held s.cxl.waiting s.heldBy).keeps_writeBytes a (leBytes 32 (packCodes 64 ws)) s ⟨rfl, rfl⟩
      exact ⟨keepsWf_writeBytes _ _ s hw, (s.sameRings_writeBytes a _).cores, hwait, hheld⟩
    · exact ⟨hw, rfl, rfl, rfl⟩
  obtain ⟨htw, hcores, hwait, hheld⟩ := ht
  have hsw : (t.setReg (Reg.coreRingWr n e) (trunc 32 (x + 1))).wf = true := M.wf_setReg _ _ htw
  have hring : t.ring n e = s.ring n e := M.ring_congr hcores n e
  have hput := M.ring_withRing_self hsw n e fun g => { g with asm := Tab.put (fun _ => PushAsm.init) g.asm w {} }
  rw [M.ring_setReg, hring] at hput
  have hinfl : (((t.setReg (Reg.coreRingWr n e) (trunc 32 (x + 1))).withAsm n e w {}).ring n e).infl = (s.ring n e).infl := by
    have h := congrArg Ring.infl hput
    exact h
  rw [hrun]
  refine ⟨M.reg_setReg_self t _ _ htw, congrArg Ring.asm hput, fun k hk => ?_, hinfl, fun hin ha => ?_,
    fun b hb ha => ?_, hwait, hheld⟩
  · refine (M.core_setCore_other _ _ hk).trans ?_
    rw [M.core, M.setReg_cores, hcores, M.core]
  · have h : t.bytes a 32 = leBytes 32 (packCodes 64 ws) := by
      dsimp only [t]
      rw [if_pos hin]
      exact M.bytes_writeBytes hw ha (length_leBytes _ _)
    exact h
  · have h : t.byte b = s.byte b := by
      dsimp only [t]
      split
      · exact byte_writeBytes_line hw ha (length_leBytes _ _) hb
      · rfl
    exact h

/-! ## The words -/

section
variable {s : M} {w n e : Nat}

/-- Word +0 begins an assembly, or stalls on a full ring. -/
theorem run_pushWord_first (v : Nat) : (pushWord w n e 0 v s).2 =
    if s.ringFull n e then s.stallAt w n e 0 v else s.withAsm n e w { words := [v] } := by
  rw [pushWord, run_bind, run_get, run_ite, if_pos rfl, run_ite]
  split <;> rfl

/-- A word that follows the preceding one of its writer joins the assembly. -/
theorem run_pushWord_next {k : Nat} (hk : 1 ≤ k) (h : (s.asm n e w).words.length = k) (v : Nat) :
    (pushWord w n e k v s).2 = s.withAsm n e w { words := (s.asm n e w).words ++ [v] } := by
  rw [pushWord, run_bind, run_get, run_ite, if_neg (by omega), run_ite, if_pos h]
  rfl

/-- Another is discarded. -/
theorem run_pushWord_disorder {k : Nat} (hk : 1 ≤ k) (h : (s.asm n e w).words.length ≠ k) (v : Nat) :
    (pushWord w n e k v s).2 = (pushOrder w n e s).2 := by
  rw [pushWord, run_bind, run_get, run_ite, if_neg (by omega), run_ite, if_neg h]

theorem run_pushCommit_disorder (h : (s.asm n e w).words.length ≠ 3) (v : Nat) :
    (pushCommit w n e v s).2 = (pushOrder w n e s).2 := by
  rw [pushCommit, run_bind, run_get, run_ite, if_pos h]

/-- Word +24 commits the record, or stalls on a full ring. -/
theorem run_pushCommit_last (h : (s.asm n e w).words.length = 3) (v : Nat) : (pushCommit w n e v s).2 =
    if s.ringFull n e then s.stallAt w n e 3 v
    else ((do commitRecord n e ((s.asm n e w).words ++ [v]); setAsm n e w {} : Act Unit) s).2 := by
  rw [pushCommit, run_bind, run_get, run_ite, if_neg (by simp [h]), run_ite]
  split <;> rfl

/-- A word that stalled waits on. -/
theorem run_pushResume_waits (h : (s.asm n e w).stalled = none ∨ s.ringFull n e = true) : (pushResume w n e s).2 = s := by
  rw [pushResume, run_bind, run_get]
  dsimp only
  cases hs : (s.asm n e w).stalled with
  | none => rfl
  | some kv =>
    have hfull := h.resolve_left (by simp [hs])
    obtain ⟨k, v⟩ := kv
    dsimp only
    rw [run_whenA, if_neg (by simp [hfull])]

/-- Or it is taken. -/
theorem run_pushResume_taken {k v : Nat} (h : (s.asm n e w).stalled = some (k, v)) (hroom : s.ringFull n e = false) :
    (pushResume w n e s).2 = ((do
      if k = 0 then setAsm n e w { words := [v] }
      else do
        commitRecord n e ((s.asm n e w).words ++ [v])
        setAsm n e w {} : Act Unit) { s with heldBy := Tab.put (fun _ => 0) s.heldBy w 0 }).2 := by
  rw [pushResume, run_bind, run_get]
  dsimp only
  rw [h]
  dsimp only
  rw [run_whenA, if_pos (by simp [hroom])]
  rfl

/-- The module with the host's held push on a ring discarded and counted (R315). -/
def M.pushDropped (s : M) (n e : Nat) : M :=
  { (s.withAsm n e 0 {}).setReg Reg.hstPushDrops (trunc 64 (s.reg Reg.hstPushDrops + 1)) with
    heldBy := Tab.put (fun _ => 0) s.heldBy 0 0 }

theorem run_pushTimeout (s : M) : (pushTimeout n e s).2 =
    if (s.asm n e 0).stalled.isSome && s.ringFull n e then s.pushDropped n e else s := by
  rw [pushTimeout, run_bind, run_get, run_whenA]
  rfl

end

/-! ## What waited is taken up -/

theorem M.stalled_put {s : M} (hw : s.wf = true) (w : Nat) : ({ s with heldBy := Tab.put (fun _ => 0) s.heldBy w 0 } : M).stalled w = false := by
  have h : Tab.wf (fun _ => 0) s.heldBy = true := by simp_all [M.wf]
  simp [M.stalled, Tab.read_put_self _ _ _ _ h]

theorem release_of_none {s : State} (h : s.m.hostWaits = true ∨ s.m.cxl.waiting = []) : release s = .next s := by
  rw [release]
  split
  · rfl
  · next hno =>
    have hnil := h.resolve_left hno
    rw [hnil, redoAll, ← hnil]

theorem release_cons {s : State} {c : Instr} {l : List Instr} (hw : s.m.hostWaits = false) (h : s.m.cxl.waiting = c :: l) :
    release s = andThen (redo c { s with m := { s.m with cxl := { s.m.cxl with waiting := [] } } }) (redoAll l) := by
  rw [release, if_neg (by simp [hw]), h, redoAll]

/-- Every command that writes a register is done as if it came now. -/
theorem redo_of_writesReg {c : Instr} {x : Nat × Bool} (h : writesReg c = some x) (s : State) : redo c s = exec c s := by
  unfold writesReg at h
  split at h
  case h_30 => cases h
  all_goals rfl

theorem redo_of_readsReg {c : Instr} {x : Nat × Bool} (h : readsReg c = some x) (s : State) : redo c s = exec c s := by
  unfold readsReg at h
  split at h
  case h_3 => cases h
  all_goals rfl

theorem redo_of_toMailbox {c : Instr} (h : toMailbox c = true) (s : State) : redo c s = exec c s := by
  unfold toMailbox at h
  split at h
  case h_14 => cases h
  all_goals rfl

/-- An access that waited is done as if it came now. -/
theorem redo_eq_exec (s : State) (c : Instr) (h : mayWait c = true ∨ toMailbox c = true) : redo c s = exec c s := by
  rcases h with h | h
  · unfold mayWait at h
    rw [Bool.or_eq_true, Bool.or_eq_true, Option.isSome_iff_exists, Option.isSome_iff_exists] at h
    rcases h with (⟨x, hx⟩ | ⟨x, hx⟩) | h
    · exact redo_of_writesReg hx s
    · exact redo_of_readsReg hx s
    · split at h
      case h_6 => cases h
      all_goals rfl
  · exact redo_of_toMailbox h s

/-! ## The commands -/

section
variable {s : State} {w n e : Nat} (hl : s.m.board.live = true)
include hl

theorem exec_ringPushWord (ha : s.m.admits w false) (hn : n < s.m.nCores) (k v : Nat) :
    exec (.ringPushWord w n e k v) s = s.becomes (pushWord w n e k v (s.m.accessed w)).2 := by
  rw [exec, execRingPushWord, State.doing_live s _ hl, run_coreAction_admitted ha hn]

theorem exec_ringPushCommit (ha : s.m.admits w false) (hn : n < s.m.nCores) (v : Nat) :
    exec (.ringPushCommit w n e v) s = s.becomes (pushCommit w n e v (s.m.accessed w)).2 := by
  rw [exec, execRingPushCommit, State.doing_live s _ hl, run_coreAction_admitted ha hn]

theorem exec_ringPushResume : exec (.ringPushResume w n e) s = release { s with m := (pushResume w n e s.m).2 } := by
  rw [exec, execRingPushResume, State.doing_live s _ hl]
  rfl

theorem exec_hostPushTimeout (us : Nat) : exec (.hostPushTimeout n e us) s =
    release { s with m := if s.m.pushLimit ≤ us then (pushTimeout n e s.m).2 else s.m } := by
  rw [exec, execHostPushTimeout, State.doing_live s _ hl, run_bind, run_get, run_whenA]
  simp only [ge_iff_le, decide_eq_true_eq]
  rfl

end

/-- A stalled push is the same whether or not the access of its writer has been counted. -/
theorem M.stallAt_eq (m : M) (w n e k v : Nat) : (m.accessed w).stallAt w n e k v =
    { (m.accessed w).withAsm n e w { m.asm n e w with stalled := some (k, v) } with
      heldBy := Tab.put (fun _ => 0) m.heldBy w (1 + 4 * n + e) } := by
  rw [M.stallAt, M.accessed_asm, M.accessed_heldBy]

/-- A disorder that follows the counting of the access. -/
theorem M.disordered.accessed {m t : M} {w n e : Nat} (hn : n < 120) (he : e < 4) (h : (m.accessed w).disordered t n e) : m.disordered t n e :=
  ⟨h.shown, h.cores.trans (m.accessed_cores w), h.held.trans (m.accessed_heldBy w),
    ⟨h.stores.1.trans (m.sameStores_accessed w).1, h.stores.2.trans (m.sameStores_accessed w).2⟩,
    h.wr.trans (m.accessed_reg w (by simp only [Reg.coreRingWr]; omega))⟩

/-- So does a commit. -/
theorem M.committed.accessed {m t : M} {w n e : Nat} {ws : List Nat} (hn : n < 120) (he : e < 4)
    (h : (m.accessed w).committed t w n e ws) : m.committed t w n e ws := by
  have hwr : (m.accessed w).reg (Reg.coreRingWr n e) = m.reg (Reg.coreRingWr n e) :=
    m.accessed_reg w (by simp only [Reg.coreRingWr]; omega)
  have haddr := m.accessed_recAddr w hn he (m.reg (Reg.coreRingWr n e))
  have hcxl : (m.accessed w).cxl = m.cxl := by
    obtain ⟨r, hr⟩ := m.accessed_eq w
    rw [hr]
  obtain ⟨h1, h2, h3, h4, h5, h6, h7, h8⟩ := h
  rw [hwr] at h1 h5 h6
  rw [haddr] at h5 h6
  rw [M.accessed_ring] at h2 h4
  exact ⟨h1, h2, fun k hk => (h3 k hk).trans (m.accessed_core w k), h4, h5,
    fun b hb ha => (h6 b hb ha).trans (congrArg (Tab.read memZero · b) (m.sameStores_accessed w).1), by rw [h7, hcxl],
    h8.trans (m.accessed_heldBy w)⟩

/-- Settles O36: each word by what its step does behind the gate, a resumed word by the same steps, and what waited by `release`. -/
theorem recordsPushed : Obligations.RecordsPushed := by
  refine ⟨?_, fun s => ⟨release_of_none, fun c l => release_cons⟩, fun s t c l => ⟨rfl, fun h => by rw [redoAll, h]; rfl⟩, redo_eq_exec⟩
  intro s w n e hl hw hn he m0 a x addr stall committed disorder
  have hn120 : n < 120 := lt_of_lt_of_le hn s.m.nCores_le
  have hw0 : m0.wf = true := M.wf_accessed hw w
  have hasm : m0.asm n e w = a := s.m.accessed_asm w n e w
  have hfull : m0.ringFull n e = s.m.ringFull n e := s.m.accessed_ringFull w hn120 he
  have hdis : disorder (pushOrder w n e m0).2 := by
    obtain ⟨h1, h2, h3, h4, h5⟩ := (pushOrder_disorders hw0 w hn120 he).accessed hn120 he
    exact ⟨h1, h2, h3, h4, h5⟩
  have hcom : ∀ {t ws}, s.m.committed t w n e ws → committed ws t := fun ⟨h1, h2, h3, h4, h5, h6, _, _⟩ => ⟨h1, h2, h3, h4, h5, h6⟩
  refine ⟨fun ha v => ⟨fun hf => ?_, fun hf => ?_, fun k hk1 hk2 => ⟨fun hk => ?_, fun hk => ?_⟩, fun h3 hf => ?_, fun h3 hf => ?_,
    fun h3 => ?_⟩, fun k v c hc => ⟨fun hst => ?_, ?_⟩, fun h => ?_, fun v hs hf => ?_, fun v hs h3 hf => ?_, fun us hus hs hf => ?_,
    fun us h => ?_⟩
  · rw [exec_ringPushWord hl ha hn, run_pushWord_first, hfull, if_neg (by simp [hf])]
  · rw [exec_ringPushWord hl ha hn, run_pushWord_first, hfull, if_pos hf, M.stallAt_eq]
  · rw [exec_ringPushWord hl ha hn, run_pushWord_next hk1 (by rw [hasm]; exact hk), hasm]
  · exact ⟨_, by rw [exec_ringPushWord hl ha hn, run_pushWord_disorder hk1 (by rw [hasm]; exact hk)], hdis⟩
  · have hrun := run_pushCommit_last (s := m0) (w := w) (n := n) (e := e) (by rw [hasm]; exact h3) v
    rw [hfull, if_neg (by simp [hf]), hasm] at hrun
    exact ⟨_, by rw [exec_ringPushCommit hl ha hn, hrun], hcom ((commitRecord_commits hw0 w n e _).accessed hn120 he)⟩
  · rw [exec_ringPushCommit hl ha hn, run_pushCommit_last (by rw [hasm]; exact h3), hfull, if_pos hf, M.stallAt_eq]
  · exact ⟨_, by rw [exec_ringPushCommit hl ha hn, run_pushCommit_disorder (by rw [hasm]; exact h3)], hdis⟩
  · have hwrites : writesReg c = some (w, false) := by
      simp only [List.mem_cons, List.not_mem_nil, or_false] at hc
      rcases hc with rfl | rfl <;> rfl
    exact (access_gates c w false hl).1 (.inl hwrites) hst
  · rintro hst rfl hi
    have hwrites : writesReg c = some (0, false) := by
      simp only [List.mem_cons, List.not_mem_nil, or_false] at hc
      rcases hc with rfl | rfl <;> rfl
    exact (access_gates c 0 false hl).2.1 hwrites hst hi
  · rw [exec_ringPushResume hl, run_pushResume_waits h]
  · rw [exec_ringPushResume hl, run_pushResume_taken hs hf]
    rfl
  · let u : M := { s.m with heldBy := Tab.put (fun _ => 0) s.m.heldBy w 0 }
    have huw : u.wf = true := keepsWf_setHeld w 0 s.m hw
    let t := ((do commitRecord n e (a.words ++ [v]); setAsm n e w {} : Act Unit) u).2
    have ht : u.committed t w n e (a.words ++ [v]) := commitRecord_commits huw w n e _
    have hrun : exec (.ringPushResume w n e) s = release { s with m := t } := by
      rw [exec_ringPushResume hl, run_pushResume_taken hs hf]
      rfl
    have hdone : committed (a.words ++ [v]) t := ⟨ht.wr, ht.asm, ht.cores, ht.infl, ht.written, ht.others⟩
    refine ⟨⟨t, hrun, hdone, ?_⟩, fun hnil => ⟨t, ?_, hdone⟩⟩
    · rw [M.stalled, ht.held]
      exact M.stalled_put hw w
    · rw [hrun, release_of_none (.inr (ht.waiting.trans hnil))]
  · have hrun := exec_hostPushTimeout (n := n) (e := e) hl us
    rw [if_pos hus, run_pushTimeout, if_pos (by simp [hs, hf])] at hrun
    exact ⟨hrun, fun hnil => hrun.trans (release_of_none (.inr hnil))⟩
  · rw [exec_hostPushTimeout hl, run_pushTimeout]
    by_cases hus : s.m.pushLimit ≤ us
    · rw [if_pos hus, if_neg]
      rcases h with h | h | h
      · omega
      · simp [h]
      · simp [h]
    · rw [if_neg hus]

end Sys2Proof.Machine

/-! # Doorbells, queue resets, hold-offs and the fetch of entries (R305 to R308, R314, R316, R321) -/

namespace Sys2Proof.Machine

/-! ## The registers of a queue -/

section
variable (m : M) (w : Nat)

@[simp] theorem M.accessed_queue (q : Nat) : (m.accessed w).queue q = m.queue q := by rw [M.queue, M.accessed_hostQ, M.queue]

variable {q : Nat} (hq : q < 64)
include hq

theorem M.accessed_qLog2 : (m.accessed w).qLog2 q = m.qLog2 q := by
  rw [M.qLog2, M.accessed_reg _ _ (by simp only [Reg.hstQCtl]; omega), M.qLog2]

theorem M.accessed_qIdle : (m.accessed w).qIdle q = m.qIdle q := by
  rw [M.qIdle, M.qRunning, M.qWaiting, M.accessed_queue, M.accessed_reg _ _ (by simp only [Reg.hstQCtl]; omega)]
  rfl

end

theorem M.queue_put_other (s : M) {q k : Nat} (hk : k ≠ q) (h : HostQ) :
    ({ s with hostQ := Tab.put HostQ.init s.hostQ q h } : M).queue k = s.queue k := Tab.read_put_other _ _ _ _ _ hk

/-- An action on a queue that the module has. -/
theorem run_queueAction {m : M} {w q : Nat} (ha : m.admits w false) (i : Instr) (a : Act Unit) :
    (queueAction w q i a m).2 = if q < 64 then (a (m.accessed w)).2 else m.accessed w := by
  rw [queueAction, run_regAction_admitted ha, run_whenA]
  simp only [decide_eq_true_eq]

/-! ## Doorbells and resets (R321) -/

/-- The new WR of a doorbell lies between the old WR and the end of the window. -/
def M.inDoorWindow (s : M) (q w : Nat) : Prop :=
  trunc 32 (s.reg (Reg.hstQWr q) + 2 ^ 32 - s.reg (Reg.hstQDone q)) ≤ trunc 32 (w + 2 ^ 32 - s.reg (Reg.hstQDone q)) ∧
    trunc 32 (w + 2 ^ 32 - s.reg (Reg.hstQDone q)) ≤ 2 ^ s.qLog2 q

theorem run_doorbell_in {s : M} {q w : Nat} (h : s.inDoorWindow q w) : (doorbell q w s).2 = s.setReg (Reg.hstQWr q) (trunc 32 w) := by
  obtain ⟨h1, h2⟩ := h
  rw [doorbell, run_bind, run_get, run_whenA, if_pos (by rw [Bool.and_eq_true, decide_eq_true_eq, decide_eq_true_eq]; exact ⟨h1, h2⟩)]
  rfl

theorem run_doorbell_out {s : M} {q w : Nat} (h : ¬ s.inDoorWindow q w) : (doorbell q w s).2 = s := by
  rw [doorbell, run_bind, run_get, run_whenA, if_neg (by rw [Bool.and_eq_true, decide_eq_true_eq, decide_eq_true_eq]; exact h)]

theorem M.accessed_inDoorWindow (m : M) (w : Nat) {q : Nat} (hq : q < 64) (v : Nat) :
    (m.accessed w).inDoorWindow q v ↔ m.inDoorWindow q v := by
  rw [M.inDoorWindow, M.accessed_reg _ _ (by simp only [Reg.hstQWr]; omega), M.accessed_reg _ _ (by simp only [Reg.hstQDone]; omega),
    M.accessed_qLog2 _ _ hq, M.inDoorWindow]

/-- A queue without entries. -/
def HostQ.discarded (h : HostQ) : HostQ := { h with jobs := [], written := [], marks := [], watch := none }

/-- A reset of an idle queue. -/
theorem queueReset_discards {s : M} (hw : s.wf = true) {q v : Nat} (hgo : bit v 0 = true ∧ s.qIdle q = true) :
    let m := (queueReset q v s).2
    m.reg (Reg.hstQFetched q) = s.reg (Reg.hstQWr q) ∧ m.reg (Reg.hstQDone q) = s.reg (Reg.hstQWr q) ∧
      m.reg (Reg.hstQWr q) = s.reg (Reg.hstQWr q) ∧ m.queue q = (s.queue q).discarded ∧ (∀ k, k ≠ q → m.queue k = s.queue k) ∧
      m.cores = s.cores ∧ s.sameStores m := by
  intro m
  let t := s.setReg (Reg.hstQFetched q) (s.reg (Reg.hstQWr q))
  let u := t.setReg (Reg.hstQDone q) (s.reg (Reg.hstQWr q))
  have ht : t.wf = true := M.wf_setReg _ _ hw
  have hu : u.wf = true := M.wf_setReg _ _ ht
  have hm : m = { u with hostQ := Tab.put HostQ.init u.hostQ q (u.queue q).discarded } := by
    dsimp only [m]
    rw [queueReset, run_bind, run_get, run_whenA, if_pos (by simp [hgo])]
    rfl
  have hreg : ∀ o, m.reg o = u.reg o := fun o => by rw [hm]; rfl
  refine ⟨?_, ?_, ?_, ?_, fun k hk => ?_, by rw [hm]; rfl, by rw [hm]; exact ⟨rfl, rfl⟩⟩
  · rw [hreg, M.reg_setReg_other _ _ (by simp only [Reg.hstQFetched, Reg.hstQDone]; omega), M.reg_setReg_self _ _ _ hw]
  · rw [hreg, M.reg_setReg_self _ _ _ ht]
  · rw [hreg, M.reg_setReg_other _ _ (by simp only [Reg.hstQWr, Reg.hstQDone]; omega),
      M.reg_setReg_other _ _ (by simp only [Reg.hstQWr, Reg.hstQFetched]; omega)]
  · rw [hm, M.queue_put hu]
    rfl
  · rw [hm, M.queue_put_other _ hk]
    rfl

theorem run_queueReset_ignored {s : M} {q v : Nat} (h : bit v 0 = false ∨ s.qIdle q = false) : (queueReset q v s).2 = s := by
  rw [queueReset, run_bind, run_get, run_whenA, if_neg (by rcases h with h | h <;> simp [h])]

section
variable {s : State} {q by' : Nat} (hl : s.m.board.live = true) (ha : s.m.admits by' false)
include hl ha

theorem exec_hstQDoorbell (hq : q < 64) (v : Nat) : exec (.hstQDoorbell q v by') s = s.becomes (doorbell q v (s.m.accessed by')).2 := by
  rw [exec, execHstQDoorbell, State.doing_live s _ hl, run_queueAction ha, if_pos hq]

theorem exec_hstQReset (hq : q < 64) (v : Nat) : exec (.hstQReset q v by') s = s.becomes (queueReset q v (s.m.accessed by')).2 := by
  rw [exec, execHstQReset, State.doing_live s _ hl, run_queueAction ha, if_pos hq]

theorem exec_hstQAbort (hq : q < 64) (v : Nat) : exec (.hstQAbort q v by') s = s.becomes (abortEntry q v (s.m.accessed by')).2 := by
  rw [exec, execHstQAbort, State.doing_live s _ hl, run_queueAction ha, if_pos hq]

/-- There is no queue 64. -/
theorem exec_queue_outside (hq : 64 ≤ q) (v : Nat) :
    ∀ c ∈ [Instr.hstQDoorbell q v by', .hstQReset q v by', .hstQAbort q v by'], exec c s = s.becomes (s.m.accessed by') := by
  have hno : ¬ q < 64 := by omega
  intro c hc
  simp only [List.mem_cons, List.not_mem_nil, or_false] at hc
  rcases hc with rfl | rfl | rfl
  · rw [exec, execHstQDoorbell, State.doing_live s _ hl, run_queueAction ha, if_neg hno]
  · rw [exec, execHstQReset, State.doing_live s _ hl, run_queueAction ha, if_neg hno]
  · rw [exec, execHstQAbort, State.doing_live s _ hl, run_queueAction ha, if_neg hno]

end

/-! ## The end of a hold-off (R316) -/

theorem M.toHost_hostQ (m : M) (o : Output) : (m.toHost o).hostQ = m.hostQ := by
  unfold M.toHost
  split <;> rfl

section
variable {s : State} {q : Nat} (hl : s.m.board.live = true)
include hl

theorem exec_interruptHoldoffExpiry_idle (h : (s.m.queue q).holding = false) : exec (.interruptHoldoffExpiry q) s = .next s := by
  rw [exec, execInterruptHoldoffExpiry, State.doing_live s _ hl, run_bind, run_get, run_whenA, if_neg (by simp [h])]

theorem exec_interruptHoldoffExpiry_owed (h : (s.m.queue q).holding = true) (ho : (s.m.queue q).owed = true) :
    exec (.interruptHoldoffExpiry q) s = s.becomes
      { s.m.toHost (.msix q) with hostQ := Tab.put HostQ.init s.m.hostQ q { s.m.queue q with owed := false } } := by
  rw [exec, execInterruptHoldoffExpiry, State.doing_live s _ hl, run_bind, run_get, run_whenA, if_pos h, run_ite, if_pos ho, run_bind,
    run_hostEmit, updQueue, run_modify, M.queue, M.toHost_hostQ, M.queue]

theorem exec_interruptHoldoffExpiry_ends (h : (s.m.queue q).holding = true) (ho : (s.m.queue q).owed = false) :
    exec (.interruptHoldoffExpiry q) s = s.becomes
      { s.m with hostQ := Tab.put HostQ.init s.m.hostQ q { s.m.queue q with holding := false } } := by
  rw [exec, execInterruptHoldoffExpiry, State.doing_live s _ hl, run_bind, run_get, run_whenA, if_pos h, run_ite, if_neg (by simp [ho])]
  rfl

end

/-! ## The fetch of an entry (R305, R307, R314) -/

/-- An entry may be fetched: the queue is enabled, one is there, and the link is up. -/
def M.fetches (s : M) (q : Nat) : Prop :=
  bit (s.reg (Reg.hstQCtl q)) 31 = true ∧ s.reg (Reg.hstQFetched q) ≠ s.reg (Reg.hstQWr q) ∧ bits (s.reg Reg.hstStatus) 31 30 ≠ 0

/-- The job of the entry that is fetched, with the admission limit that it latches. -/
def M.fetchedJob (s : M) (q : Nat) (bytes : List Byte) : Job :=
  let entry : Job := { x := s.reg (Reg.hstQFetched q), entry := leNat bytes }
  { entry with limit := if entry.admitMs = 0 then s.admitDefault else entry.admitMs }

/-- The module with the entry in its queue. -/
def M.withFetched (s : M) (q : Nat) (bytes : List Byte) : M :=
  let x := s.reg (Reg.hstQFetched q)
  { (s.setReg (Reg.hstQFetched q) (trunc 32 (x + 1))).out
      (.hostRead (s.reg (Reg.hstQBase q) + 128 * (x % 2 ^ s.qLog2 q)) 128) with
    hostQ := Tab.put HostQ.init s.hostQ q { s.queue q with jobs := (s.queue q).jobs ++ [s.fetchedJob q bytes] } }

/-- What becomes of an entry that has been fetched. -/
def afterFetch (s : M) (q : Nat) (bytes : List Byte) (poison : Bool) : Act Unit :=
  let j := s.fetchedJob q bytes
  if (s.queue q).marks.contains j.x then complete q j 4 0xFF 0 0 0
  else if poison then complete q j 3 0xFF 0 0 0
  else if !j.ok s then complete q j 1 0xFF 0 0 0
  else pure ()

theorem run_fetchEntry {s : M} {q : Nat} (h : s.fetches q) (bytes : List Byte) (poison : Bool) :
    (fetchEntry q bytes poison s).2 = (afterFetch s q bytes poison (s.withFetched q bytes)).2 := by
  obtain ⟨h1, h2, h3⟩ := h
  rw [fetchEntry, run_bind, run_get, run_whenA,
    if_pos (by rw [Bool.and_eq_true, Bool.and_eq_true, bne_iff_ne, bne_iff_ne]; exact ⟨⟨h1, h2⟩, h3⟩)]
  rfl

theorem run_fetchEntry_idle {s : M} {q : Nat} (h : ¬ s.fetches q) (bytes : List Byte) (poison : Bool) :
    (fetchEntry q bytes poison s).2 = s := by
  rw [fetchEntry, run_bind, run_get, run_whenA,
    if_neg (by rw [Bool.and_eq_true, Bool.and_eq_true, bne_iff_ne, bne_iff_ne, and_assoc]; exact h)]

section
variable {s : State} (hl : s.m.board.live = true)
include hl

/-- A MARKER completes once all before it have (R306). -/
theorem exec_markerComplete {q x : Nat} {j : Job} (hj : (s.m.queue q).jobs.find? (fun j => j.x == x && j.kind == 1) = some j) :
    exec (.markerComplete q x) s = s.becomes (if s.m.reg (Reg.hstQDone q) = x then (complete q j 0 0xFF 0 0 0 s.m).2 else s.m) := by
  rw [exec, execMarkerComplete, State.doing_live s _ hl, run_bind, run_get]
  dsimp only
  rw [hj]
  dsimp only
  rw [run_whenA]
  simp only [M.earlierDone, beq_iff_eq]

/-- The admission timer of a job that waits for a bit (R308). -/
theorem exec_admissionTimeout {q x ms : Nat} {j : Job} (hj : s.m.waitingJob q x = some j) :
    exec (.admissionTimeout q x ms) s = s.becomes (if s.m.coresFree j = true ∧ s.m.requiredSet j = false ∧ j.limit ≤ ms
      then (complete q j 8 0xFF 0 0 0 s.m).2 else s.m) := by
  rw [exec, execAdmissionTimeout, State.doing_live s _ hl, run_bind, run_get]
  dsimp only
  rw [hj]
  dsimp only
  rw [run_whenA]
  simp only [Bool.and_eq_true, Bool.not_eq_true', decide_eq_true_eq, ge_iff_le, and_assoc]

end

/-- Settles O31: doorbells, resets and hold-offs by what their actions do, a fetch by what becomes of its entry (`afterFetch`). -/
theorem jobQueuesAndEntries : Obligations.JobQueuesAndEntries := by
  refine ⟨fun s q hl hw => ⟨?_, ?_, fun by' v ha hq => exec_queue_outside hl ha hq v, exec_interruptHoldoffExpiry_owed hl,
    exec_interruptHoldoffExpiry_ends hl, exec_interruptHoldoffExpiry_idle hl⟩, fun s q hl => ⟨?_, ?_, ?_⟩⟩
  · intro by' w ha hq d from' ok
    have hok := s.m.accessed_inDoorWindow by' hq w
    exact ⟨fun h => by rw [exec_hstQDoorbell hl ha hq, run_doorbell_in (hok.2 h)],
      fun h => by rw [exec_hstQDoorbell hl ha hq, run_doorbell_out (mt hok.1 h)]⟩
  · intro by' v ha hq
    have hidle := s.m.accessed_qIdle by' hq
    have hwr : (s.m.accessed by').reg (Reg.hstQWr q) = s.m.reg (Reg.hstQWr q) := M.accessed_reg _ _ (by simp only [Reg.hstQWr]; omega)
    refine ⟨fun hgo => ?_, fun h => ?_⟩
    · obtain ⟨h1, h2, h3, h4, h5, h6, h7⟩ := queueReset_discards (M.wf_accessed hw by') (q := q) (v := v) (by rwa [hidle])
      rw [hwr] at h1 h2 h3
      rw [M.accessed_queue] at h4
      have hstores := s.m.sameStores_accessed by'
      exact ⟨_, exec_hstQReset hl ha hq v, h1, h2, h3, h4, fun k hk => (h5 k hk).trans (s.m.accessed_queue by' k),
        h6.trans (s.m.accessed_cores by'), h7.1.trans hstores.1, h7.2.trans hstores.2⟩
    · rw [exec_hstQReset hl ha hq, run_queueReset_ignored (by rwa [hidle])]
  · intro bytes poison x entry j go fetched marked ends
    have hexec : ∀ m, (fetchEntry q bytes poison s.m).2 = m → exec (.jobEntryFetch q bytes poison) s = s.becomes m := fun m hm => by
      rw [exec, execJobEntryFetch, State.doing_live s _ hl, hm]
    have hmark : (s.m.queue q).marks.contains (s.m.fetchedJob q bytes).x = true ↔ marked := List.contains_iff_mem
    refine ⟨fun hgo hm hp hok => hexec _ ?_, fun hgo hm => hexec _ ?_, fun hgo hm hp => hexec _ ?_, fun hgo hm hp hok => hexec _ ?_,
      fun hgo => hexec _ (run_fetchEntry_idle hgo bytes poison)⟩
    · rw [run_fetchEntry hgo, afterFetch, if_neg (mt hmark.1 hm), if_neg (by simp [hp]),
        if_neg (by rw [Bool.not_eq_true', Bool.not_eq_false]; exact hok)]
      rfl
    · rw [run_fetchEntry hgo, afterFetch, if_pos (hmark.2 hm)]
      rfl
    · rw [run_fetchEntry hgo, afterFetch, if_neg (mt hmark.1 hm), if_pos hp]
      rfl
    · rw [run_fetchEntry hgo, afterFetch, if_neg (mt hmark.1 hm), if_neg (by simp [hp]), if_pos (by rw [Bool.not_eq_true']; exact hok)]
      rfl
  · exact fun x j hj => ⟨fun h => by rw [exec_markerComplete hl hj, if_pos h], fun h => by rw [exec_markerComplete hl hj, if_neg h]⟩
  · refine fun x ms j hj => ⟨fun h1 h2 h3 => by rw [exec_admissionTimeout hl hj, if_pos ⟨h1, h2, h3⟩], fun h => ?_⟩
    rw [exec_admissionTimeout hl hj, if_neg]
    rintro ⟨h1, h2, h3⟩
    rcases h with h | h | h
    · simp [h] at h1
    · simp [h] at h2
    · omega

end Sys2Proof.Machine

/-! # Completions (R305, R312 to R316)

A completion writes its record to the host, takes its entry from the queue and tells a request that watches it (`M.told`); then DONE passes
what is contiguous, and the queue's vector is signalled. -/

namespace Sys2Proof.Machine

/-! ## DONE passes what is contiguous (R305) -/

/-- Nothing but DONE of queue q has moved, over completions that were written. -/
structure M.advanced (s : M) (q : Nat) (t : M) : Prop where
  wf : t.wf = true
  rest : { t with regs := s.regs, hostQ := s.hostQ } = s
  regs : ∀ o, o ≠ Reg.hstQDone q → t.reg o = s.reg o
  queue : { t.queue q with written := (s.queue q).written } = s.queue q
  others : ∀ k, k ≠ q → t.queue k = s.queue k

theorem M.advanced.refl {s : M} (hw : s.wf = true) (q : Nat) : s.advanced q s := ⟨hw, rfl, fun _ _ => rfl, rfl, fun _ _ => rfl⟩

/-- A queue without the written completion of entry d. -/
def HostQ.passing (h : HostQ) (d : Nat) : HostQ := { h with written := h.written.filter (· != d) }

/-- The module after DONE of queue q has passed one completion. -/
def M.passed (s : M) (q : Nat) : M :=
  ({ s with hostQ := Tab.put HostQ.init s.hostQ q ((s.queue q).passing (s.reg (Reg.hstQDone q))) } : M).setReg
    (Reg.hstQDone q) (trunc 32 (s.reg (Reg.hstQDone q) + 1))

theorem run_advanceDone_succ (q fuel : Nat) (s : M) : (advanceDone q (fuel + 1) s).2 =
    if (s.queue q).written.contains (s.reg (Reg.hstQDone q)) then (advanceDone q fuel (s.passed q)).2 else s := by
  rw [advanceDone, run_bind, run_get, run_whenA]
  split
  · rfl
  · rfl

section
variable {s : M} {q : Nat} (hw : s.wf = true)
include hw

theorem M.passed_wf : (s.passed q).wf = true := M.wf_setReg _ _ (M.wf_putQueue _ _ hw)

theorem M.passed_done : (s.passed q).reg (Reg.hstQDone q) = trunc 32 (s.reg (Reg.hstQDone q) + 1) :=
  M.reg_setReg_self _ _ _ (M.wf_putQueue _ _ hw)

theorem M.passed_queue : (s.passed q).queue q =
    (s.queue q).passing (s.reg (Reg.hstQDone q)) := M.queue_put hw q _

theorem M.advanced_passed {t : M} (h : (s.passed q).advanced q t) : s.advanced q t where
  wf := h.wf
  rest := (congrArg (fun u : M => { u with regs := s.regs, hostQ := s.hostQ }) h.rest :)
  regs o ho := (h.regs o ho).trans (M.reg_setReg_other _ _ ho)
  queue := by
    have hq := congrArg (fun x : HostQ => { x with written := (s.queue q).written }) h.queue
    rw [M.passed_queue hw] at hq
    exact hq
  others k hk := (h.others k hk).trans (M.queue_put_other s hk _)

theorem advanceDone_advances (fuel : Nat) : s.advanced q (advanceDone q fuel s).2 := by
  induction fuel generalizing s with
  | zero => exact .refl hw q
  | succ fuel ih =>
    rw [run_advanceDone_succ]
    split
    · exact M.advanced_passed hw (ih (M.passed_wf hw))
    · exact .refl hw q

/-- With a round for each completion, DONE stops at an entry that none of them is of. -/
theorem advanceDone_stops {fuel : Nat} (h : (s.queue q).written.length ≤ fuel) :
    (advanceDone q fuel s).2.reg (Reg.hstQDone q) ∉ ((advanceDone q fuel s).2.queue q).written := by
  induction fuel generalizing s with
  | zero =>
    have hnil := List.length_eq_zero_iff.1 (Nat.le_zero.1 h)
    have hrun : (advanceDone q 0 s).2 = s := rfl
    rw [hrun, hnil]
    exact List.not_mem_nil
  | succ fuel ih =>
    rw [run_advanceDone_succ]
    split
    · next hin =>
      have hlt : ((s.queue q).written.filter (· != s.reg (Reg.hstQDone q))).length < (s.queue q).written.length :=
        List.length_filter_lt_length_iff_exists.2 ⟨_, List.contains_iff_mem.1 hin, by simp⟩
      exact ih (M.passed_wf hw) (by rw [M.passed_queue hw]; exact Nat.le_of_lt_succ (hlt.trans_le h))
    · next hout => exact fun hmem => hout (List.contains_iff_mem.2 hmem)

end

/-! ## The queue's vector (R316) -/

/-- The vector is signalled, or owed while a hold-off runs. -/
def M.signalled (s : M) (q : Nat) : M :=
  if bit (s.reg (Reg.hstQCtl q)) 29 then
    if (s.queue q).holding then { s with hostQ := Tab.put HostQ.init s.hostQ q { s.queue q with owed := true } }
    else { s.toHost (.msix q) with
      hostQ := Tab.put HostQ.init s.hostQ q { s.queue q with holding := bits (s.reg (Reg.hstQCtl q)) 15 0 != 0 } }
  else s

theorem run_signalQueue (q : Nat) (s : M) : (signalQueue q s).2 = s.signalled q := by
  rw [signalQueue, run_bind, run_get, run_whenA, M.signalled]
  split
  · rw [run_ite]
    split
    · rfl
    · rw [run_bind, run_hostEmit, updQueue, run_modify, M.queue, M.toHost_hostQ, M.queue]
  · rfl

section
variable (s : M) (q : Nat)

theorem M.toHost_rest (o : Output) : { s.toHost o with outs := s.outs, cxl := s.cxl } = s := by
  unfold M.toHost
  split
  · rfl
  · rfl

theorem M.signalled_rest : { s.signalled q with outs := s.outs, cxl := s.cxl, hostQ := s.hostQ } = s := by
  unfold M.signalled
  split
  · split
    · rfl
    · exact (congrArg (fun u : M => { u with hostQ := s.hostQ }) (M.toHost_rest s (.msix q)) :)
  · rfl

theorem M.signalled_regs : (s.signalled q).regs = s.regs := (congrArg M.regs (M.signalled_rest s q) :)

theorem M.signalled_cores : (s.signalled q).cores = s.cores := (congrArg M.cores (M.signalled_rest s q) :)

theorem M.signalled_stores : s.sameStores (s.signalled q) :=
  ⟨(congrArg M.mem (M.signalled_rest s q) :), (congrArg M.chk (M.signalled_rest s q) :)⟩

theorem M.reg_signalled (o : Nat) : (s.signalled q).reg o = s.reg o := by rw [M.reg, M.signalled_regs, M.reg]

theorem M.signalled_others {k : Nat} (hk : k ≠ q) : (s.signalled q).queue k = s.queue k := by
  unfold M.signalled
  split
  · split
    · exact M.queue_put_other s hk _
    · rw [M.queue, Tab.read_put_other _ _ _ _ _ hk, M.queue]
  · rfl

/-- Signalling changes nothing of the queue but what it holds off and owes. -/
theorem M.signalled_queue {s : M} (hw : s.wf = true) : { (s.signalled q).queue q with holding := (s.queue q).holding, owed := (s.queue q).owed } =
    s.queue q := by
  unfold M.signalled
  split
  · split
    · rw [M.queue_put hw]
    · rw [M.queue, Tab.read_put_self _ _ _ _ (by simp_all [M.wf])]
  · rfl

/-- What signalling sends: to the host, or to what waits for the link. -/
theorem M.signalled_outs : (s.signalled q).outs =
    (if bits (s.reg Reg.hstStatus) 31 30 ≠ 0 ∧ bit (s.reg (Reg.hstQCtl q)) 29 = true ∧ (s.queue q).holding = false then [.msix q] else []) ++ s.outs ∧
    (s.signalled q).cxl.held = s.cxl.held ++
      (if bits (s.reg Reg.hstStatus) 31 30 = 0 ∧ bit (s.reg (Reg.hstQCtl q)) 29 = true ∧ (s.queue q).holding = false then [.msix q] else []) := by
  unfold M.signalled M.toHost
  by_cases hc : bit (s.reg (Reg.hstQCtl q)) 29 = true
  · by_cases hh : (s.queue q).holding = true
    · simp [hc, hh]
    · by_cases hlink : bits (s.reg Reg.hstStatus) 31 30 = 0
      · simp [hc, hh, hlink]
      · simp [hc, hh, hlink]
  · simp [hc]

theorem M.signalled_owes {s : M} (hw : s.wf = true) (hc : bit (s.reg (Reg.hstQCtl q)) 29 = true) (hh : (s.queue q).holding = true) :
    ((s.signalled q).queue q).owed = true := by
  rw [M.signalled, if_pos hc, if_pos hh, M.queue_put hw]

theorem M.signalled_holds {s : M} (hw : s.wf = true) (hc : bit (s.reg (Reg.hstQCtl q)) 29 = true) (hh : (s.queue q).holding = false) :
    ((s.signalled q).queue q).holding = (bits (s.reg (Reg.hstQCtl q)) 15 0 != 0) := by
  rw [M.signalled, if_pos hc, if_neg (by simp [hh]), M.queue, Tab.read_put_self _ _ _ _ (by simp_all [M.wf])]

end

/-! ## What a completion tells the host (R305, R312) -/

/-- The module with several things sent to the host, in order. -/
def M.sendsHost (s : M) (l : List Output) : M :=
  if bits (s.reg Reg.hstStatus) 31 30 = 0 then { s with cxl := { s.cxl with held := s.cxl.held ++ l } }
  else { s with outs := l.reverse ++ s.outs }

theorem run_forA_hostEmit (l : List Output) (s : M) : (forA l hostEmit s).2 = s.sendsHost l := by
  induction l generalizing s with
  | nil => simp [M.sendsHost]
  | cons o l ih =>
    rw [run_forA_cons, run_hostEmit, ih, M.sendsHost, M.sendsHost, M.toHost]
    by_cases h : bits (s.reg Reg.hstStatus) 31 30 = 0
    · have h' : bits (({ s with cxl := { s.cxl with held := s.cxl.held ++ [o] } } : M).reg Reg.hstStatus) 31 30 = 0 := h
      rw [if_pos h, if_pos h', if_pos h, List.append_assoc, List.singleton_append]
    · have h' : ¬ bits (({ s with outs := o :: s.outs } : M).reg Reg.hstStatus) 31 30 = 0 := h
      rw [if_neg h, if_neg h', if_neg h, List.reverse_cons, List.append_assoc, List.singleton_append]

theorem M.sendsHost_rest (s : M) (l : List Output) : { s.sendsHost l with outs := s.outs, cxl := s.cxl } = s := by
  unfold M.sendsHost
  split <;> rfl

/-- The module after the writes of a completion, counted while the link is down. -/
def M.reported (s : M) (q : Nat) (j : Job) (r : List Byte) : M :=
  let a := s.reg (Reg.hstQCmpl q) + 64 * (j.x % 2 ^ s.qLog2 q)
  let link := bits (s.reg Reg.hstStatus) 31 30
  let itom := bit (s.reg (Reg.hstQCtl q)) 30
  (if link = 0 then s.setReg Reg.hstCmplHeld (trunc 32 (s.reg Reg.hstCmplHeld + 1)) else s).sendsHost
    (if link = 0 then [.hostWrite itom a r] else completionWrites (itom && link != 1) a r)

/-- What a queue keeps of an entry that has completed. -/
def HostQ.took (h : HostQ) (up : Prop) [Decidable up] (x : Nat) : HostQ :=
  { h with jobs := h.jobs.filter (·.x != x), marks := h.marks.filter (· != x)
           written := if up then h.written ++ [x] else h.written
           late := if up then h.late else h.late ++ [x]
           watch := if h.watch = some x then none else h.watch }

section
variable {s : M} {q : Nat} (j : Job) (status : Nat) (r : List Byte)

theorem M.reported_down (h : bits (s.reg Reg.hstStatus) 31 30 = 0) : s.reported q j r =
    (s.setReg Reg.hstCmplHeld (trunc 32 (s.reg Reg.hstCmplHeld + 1))).sendsHost
      [.hostWrite (bit (s.reg (Reg.hstQCtl q)) 30) (s.reg (Reg.hstQCmpl q) + 64 * (j.x % 2 ^ s.qLog2 q)) r] := by
  rw [M.reported, if_pos h, if_pos h]

theorem M.reported_up (h : bits (s.reg Reg.hstStatus) 31 30 ≠ 0) : s.reported q j r =
    s.sendsHost (completionWrites (bit (s.reg (Reg.hstQCtl q)) 30 && bits (s.reg Reg.hstStatus) 31 30 != 1)
      (s.reg (Reg.hstQCmpl q) + 64 * (j.x % 2 ^ s.qLog2 q)) r) := by
  rw [M.reported, if_neg h, if_neg h]

theorem M.reported_rest : { s.reported q j r with outs := s.outs, cxl := s.cxl, regs := s.regs } = s := by
  by_cases h : bits (s.reg Reg.hstStatus) 31 30 = 0
  · rw [M.reported_down j r h]
    exact (congrArg (fun u : M => { u with regs := s.regs }) (M.sendsHost_rest _ _) :)
  · rw [M.reported_up j r h]
    exact (congrArg (fun u : M => { u with regs := s.regs }) (M.sendsHost_rest _ _) :)

theorem M.sendsHost_regs (s : M) (l : List Output) : (s.sendsHost l).regs = s.regs := (congrArg M.regs (M.sendsHost_rest s l) :)

theorem M.reported_reg {o : Nat} (ho : o ≠ Reg.hstCmplHeld) : (s.reported q j r).reg o = s.reg o := by
  by_cases h : bits (s.reg Reg.hstStatus) 31 30 = 0
  · rw [M.reported_down j r h, M.reg, M.sendsHost_regs]
    exact M.reg_setReg_other _ _ ho
  · rw [M.reported_up j r h, M.reg, M.sendsHost_regs, M.reg]

variable (hw : s.wf = true)
include hw

theorem M.wf_sendsHost (l : List Output) : (s.sendsHost l).wf = true :=
  (M.wf_congr (by unfold M.sendsHost; split <;> exact ⟨rfl, rfl, rfl, rfl, rfl, rfl, rfl, rfl, rfl, rfl, rfl⟩)).trans hw

theorem M.wf_reported : (s.reported q j r).wf = true := by
  by_cases h : bits (s.reg Reg.hstStatus) 31 30 = 0
  · rw [M.reported_down j r h]
    exact M.wf_sendsHost (M.wf_setReg _ _ hw) _
  · rw [M.reported_up j r h]
    exact M.wf_sendsHost hw _

end

/-- The module with what it keeps of queue q replaced. -/
def M.putQueue (s : M) (q : Nat) (h : HostQ) : M := { s with hostQ := Tab.put HostQ.init s.hostQ q h }

theorem run_updQueue (q : Nat) (f : HostQ → HostQ) (s : M) : updQueue q f s = ((), s.putQueue q (f (s.queue q))) := rfl

/-- The module after the entry of a completion has left the queue too. -/
def M.taken (s : M) (q : Nat) (j : Job) (r : List Byte) : M :=
  (s.reported q j r).putQueue q (((s.reported q j r).queue q).took (bits (s.reg Reg.hstStatus) 31 30 ≠ 0) j.x)

/-- The module after what watches the entry has been told as well. -/
def M.told (s : M) (q : Nat) (j : Job) (status : Nat) (r : List Byte) : M :=
  if (s.queue q).watch = some j.x then (s.taken q j r).setReg (Reg.hstQAbortResult q) (2 <<< 30 + trunc 16 status) else s.taken q j r

theorem run_complete (q : Nat) (j : Job) (status core result step runMs : Nat) (s : M) :
    (complete q j status core result step runMs s).2 =
      ((advanceDone q ((s.queue q).written.length + 1)
        (s.told q j status (j.record (s.qLog2 q) status core result step runMs))).2).signalled q := by
  have htook (t : M) : (updQueue q (fun h => { h with
      jobs := h.jobs.filter (·.x != j.x), marks := h.marks.filter (· != j.x)
      written := if bits (s.reg Reg.hstStatus) 31 30 = 0 then h.written else h.written ++ [j.x]
      late := if bits (s.reg Reg.hstStatus) 31 30 = 0 then h.late ++ [j.x] else h.late
      watch := if h.watch = some j.x then none else h.watch }) t).2 =
      t.putQueue q ((t.queue q).took (bits (s.reg Reg.hstStatus) 31 30 ≠ 0) j.x) := by
    rw [run_updQueue, HostQ.took, ite_not, ite_not]
  have hreported : (if bits (s.reg Reg.hstStatus) 31 30 == 0 then (addReg 32 Reg.hstCmplHeld 1 s).2 else s).sendsHost
      (if bits (s.reg Reg.hstStatus) 31 30 = 0 then [.hostWrite (bit (s.reg (Reg.hstQCtl q)) 30)
          (s.reg (Reg.hstQCmpl q) + 64 * (j.x % 2 ^ s.qLog2 q)) (j.record (s.qLog2 q) status core result step runMs)]
        else completionWrites (bit (s.reg (Reg.hstQCtl q)) 30 && bits (s.reg Reg.hstStatus) 31 30 != 1)
          (s.reg (Reg.hstQCmpl q) + 64 * (j.x % 2 ^ s.qLog2 q)) (j.record (s.qLog2 q) status core result step runMs)) =
      s.reported q j (j.record (s.qLog2 q) status core result step runMs) := by
    rw [M.reported]
    simp only [beq_iff_eq]
    rfl
  have htold : (if (s.queue q).watch == some j.x then
      (wr (Reg.hstQAbortResult q) (2 <<< 30 + trunc 16 status) (s.taken q j (j.record (s.qLog2 q) status core result step runMs))).2
      else s.taken q j (j.record (s.qLog2 q) status core result step runMs)) =
      s.told q j status (j.record (s.qLog2 q) status core result step runMs) := by
    rw [M.told]
    simp only [beq_iff_eq]
    rfl
  rw [complete, run_bind, run_get, run_bind, run_whenA, run_bind, run_forA_hostEmit]
  dsimp only
  rw [hreported, run_bind, htook, run_bind, run_whenA, run_bind, run_signalQueue]
  dsimp only
  rw [← M.taken, htold]

section
variable {s : M} {q : Nat} (j : Job) (status : Nat) (r : List Byte)

theorem M.taken_rest : { s.taken q j r with outs := s.outs, cxl := s.cxl, regs := s.regs, hostQ := s.hostQ } = s :=
  (congrArg (fun u : M => { u with hostQ := s.hostQ }) (M.reported_rest (s := s) (q := q) j r) :)

theorem M.told_rest : { s.told q j status r with outs := s.outs, cxl := s.cxl, regs := s.regs, hostQ := s.hostQ } = s := by
  unfold M.told
  split
  · exact M.taken_rest j r
  · exact M.taken_rest j r

theorem M.told_link : (s.told q j status r).outs = (s.reported q j r).outs ∧ (s.told q j status r).cxl = (s.reported q j r).cxl := by
  unfold M.told
  split
  · exact ⟨rfl, rfl⟩
  · exact ⟨rfl, rfl⟩

theorem M.told_hostQ : (s.told q j status r).hostQ = (s.taken q j r).hostQ := by
  unfold M.told
  split
  · rfl
  · rfl

theorem M.reported_queue (k : Nat) : (s.reported q j r).queue k = s.queue k := by
  rw [M.queue, (congrArg M.hostQ (M.reported_rest (s := s) (q := q) j r) :), M.queue]

theorem M.told_others {k : Nat} (hk : k ≠ q) : (s.told q j status r).queue k = s.queue k := by
  rw [M.queue, M.told_hostQ, ← M.reported_queue (q := q) j r]
  exact M.queue_put_other _ hk _

theorem M.told_reg {o : Nat} (ha : o ≠ Reg.hstQAbortResult q) : (s.told q j status r).reg o = (s.reported q j r).reg o := by
  unfold M.told
  split
  · exact M.reg_setReg_other _ _ ha
  · rfl

variable (hw : s.wf = true)
include hw

theorem M.wf_taken : (s.taken q j r).wf = true := M.wf_putQueue _ _ (M.wf_reported j r hw)

theorem M.wf_told : (s.told q j status r).wf = true := by
  unfold M.told
  split
  · exact M.wf_setReg _ _ (M.wf_taken j r hw)
  · exact M.wf_taken j r hw

theorem M.told_queue : (s.told q j status r).queue q = (s.queue q).took (bits (s.reg Reg.hstStatus) 31 30 ≠ 0) j.x := by
  rw [M.queue, M.told_hostQ, ← M.reported_queue (q := q) j r]
  exact M.queue_put (M.wf_reported j r hw) q _

theorem M.told_abort (h : (s.queue q).watch = some j.x) :
    (s.told q j status r).reg (Reg.hstQAbortResult q) = 2 <<< 30 + trunc 16 status := by
  rw [M.told, if_pos h, M.reg_setReg_self _ _ _ (M.wf_taken j r hw)]

end

/-! ## The record (Table 12-3) -/

theorem Job.length_record (j : Job) (log2 status core result step runMs : Nat) : (j.record log2 status core result step runMs).length = 64 :=
  length_leBytes _ _

theorem leBytes_take {k n : Nat} (h : k ≤ n) (x : Nat) : (leBytes n x).take k = leBytes k x := by
  rw [leBytes_eq_map, leBytes_eq_map, ← List.map_take, List.take_range, Nat.min_eq_left h]

/-- The first word of a record is its status. -/
theorem Job.record_status (j : Job) (log2 status core result step runMs : Nat) :
    leNat ((j.record log2 status core result step runMs).take 2) = trunc 16 status := by
  rw [Job.record, leBytes_take (by omega), leNat_leBytes]
  simp only [Nat.shiftLeft_eq, trunc]
  omega

/-! ## The whole completion -/

section
variable {s : M} {q : Nat} (j : Job) (r : List Byte)

theorem M.reported_outs (h : bits (s.reg Reg.hstStatus) 31 30 ≠ 0) : (s.reported q j r).outs =
    (completionWrites (bit (s.reg (Reg.hstQCtl q)) 30 && bits (s.reg Reg.hstStatus) 31 30 != 1)
      (s.reg (Reg.hstQCmpl q) + 64 * (j.x % 2 ^ s.qLog2 q)) r).reverse ++ s.outs := by
  rw [M.reported_up j r h, M.sendsHost, if_neg h]

variable (h : bits (s.reg Reg.hstStatus) 31 30 = 0)
include h

/-- While the link is down a completion is one write of the line, which waits, and is counted. -/
theorem M.reported_held : s.reported q j r = { s.setReg Reg.hstCmplHeld (trunc 32 (s.reg Reg.hstCmplHeld + 1)) with
    cxl := { s.cxl with held := s.cxl.held ++
      [.hostWrite (bit (s.reg (Reg.hstQCtl q)) 30) (s.reg (Reg.hstQCmpl q) + 64 * (j.x % 2 ^ s.qLog2 q)) r] } } := by
  rw [M.reported_down j r h, M.sendsHost, M.reg_setReg_other _ _ (by decide), if_pos h]
  rfl

end

section
variable {m : M} {q : Nat} {j : Job} {status : Nat} {r : List Byte} (hw : m.wf = true)
include hw

/-- Where DONE stands after a completion that comes next. -/
theorem M.told_passes (hlink : bits (m.reg Reg.hstStatus) 31 30 ≠ 0) (hnil : (m.queue q).written = [])
    (hdone : m.reg (Reg.hstQDone q) = j.x) (hq : q < 64) :
    (advanceDone q ((m.queue q).written.length + 1) (m.told q j status r)).2.reg (Reg.hstQDone q) = trunc 32 (j.x + 1) := by
  have hreg : (m.told q j status r).reg (Reg.hstQDone q) = j.x := by
    rw [M.told_reg _ _ _ (by simp only [Reg.hstQDone, Reg.hstQAbortResult]; omega),
      M.reported_reg _ _ (by simp only [Reg.hstQDone, Reg.hstCmplHeld]; omega), hdone]
  have hwritten : ((m.told q j status r).queue q).written = [j.x] := by
    rw [M.told_queue _ _ _ hw, HostQ.took]
    simp only [hnil]
    exact if_pos hlink
  rw [run_advanceDone_succ, if_pos (by simp [hreg, hwritten]), hnil]
  exact (M.passed_done (M.wf_told j status r hw)).trans (by rw [hreg])

/-- While the link is down DONE does not move for a completion. -/
theorem M.told_waits (hlink : bits (m.reg Reg.hstStatus) 31 30 = 0) (hout : m.reg (Reg.hstQDone q) ∉ (m.queue q).written) (hq : q < 64) :
    (advanceDone q ((m.queue q).written.length + 1) (m.told q j status r)).2.reg (Reg.hstQDone q) = m.reg (Reg.hstQDone q) := by
  have hreg : (m.told q j status r).reg (Reg.hstQDone q) = m.reg (Reg.hstQDone q) := by
    rw [M.told_reg _ _ _ (by simp only [Reg.hstQDone, Reg.hstQAbortResult]; omega),
      M.reported_reg _ _ (by simp only [Reg.hstQDone, Reg.hstCmplHeld]; omega)]
  have hwritten : ((m.told q j status r).queue q).written = (m.queue q).written := by
    rw [M.told_queue _ _ _ hw, HostQ.took]
    exact if_neg (not_not.2 hlink)
  rw [run_advanceDone_succ, if_neg (by simpa [hreg, hwritten] using hout), hreg]

end

theorem M.advanced.signalled_stores {m t d : M} {q : Nat} (h : t.advanced q d)
    (hts : { t with outs := m.outs, cxl := m.cxl, regs := m.regs, hostQ := m.hostQ } = m) : m.sameStores (d.signalled q) := by
  have hd : d.mem = t.mem ∧ d.chk = t.chk := ⟨(congrArg M.mem h.rest :), (congrArg M.chk h.rest :)⟩
  have ht : t.mem = m.mem ∧ t.chk = m.chk := ⟨(congrArg M.mem hts :), (congrArg M.chk hts :)⟩
  obtain ⟨hmem, hchk⟩ := d.signalled_stores q
  exact ⟨hmem.trans (hd.1.trans ht.1), hchk.trans (hd.2.trans ht.2)⟩

/-- What a completion sends: its writes, and the vector where none is held off. -/
theorem M.advanced.signalled_outs {m t d : M} {q : Nat} {j : Job} {status : Nat} {r : List Byte} (h : t.advanced q d)
    (ht : t = m.told q j status r) (hstatus : d.reg Reg.hstStatus = m.reg Reg.hstStatus) (hctl : d.reg (Reg.hstQCtl q) = m.reg (Reg.hstQCtl q))
    (hholding : (d.queue q).holding = (m.queue q).holding) :
    (d.signalled q).outs = (if bits (m.reg Reg.hstStatus) 31 30 ≠ 0 ∧ bit (m.reg (Reg.hstQCtl q)) 29 = true ∧ (m.queue q).holding = false
        then [.msix q] else []) ++ (m.reported q j r).outs ∧
      (d.signalled q).cxl.held = (m.reported q j r).cxl.held ++
        (if bits (m.reg Reg.hstStatus) 31 30 = 0 ∧ bit (m.reg (Reg.hstQCtl q)) 29 = true ∧ (m.queue q).holding = false then [.msix q] else []) := by
  obtain ⟨houts, hheld⟩ := d.signalled_outs q
  obtain ⟨htouts, htcxl⟩ := M.told_link (s := m) (q := q) j status r
  have hdouts : d.outs = t.outs := (congrArg M.outs h.rest :)
  have hdcxl : d.cxl = t.cxl := (congrArg M.cxl h.rest :)
  rw [hstatus, hctl, hholding, hdouts, ht, htouts] at houts
  rw [hstatus, hctl, hholding, hdcxl, ht, htcxl] at hheld
  exact ⟨houts, hheld⟩

/-- Settles O32: what a completion tells the host, its queue, DONE and the vector, one after another. -/
theorem completionsReported : Obligations.CompletionsReported := by
  unfold Obligations.CompletionsReported
  intro m q j status core result step runMs hw hq link log2 a r ctl n
  let t := m.told q j status r
  let d := (advanceDone q ((m.queue q).written.length + 1) t).2
  have hn : n = d.signalled q := run_complete q j status core result step runMs m
  have ht : t.wf = true := M.wf_told j status r hw
  have hd : t.advanced q d := advanceDone_advances ht _
  have htq : t.queue q = (m.queue q).took (link ≠ 0) j.x := M.told_queue j status r hw
  have hts : { t with outs := m.outs, cxl := m.cxl, regs := m.regs, hostQ := m.hostQ } = m := M.told_rest j status r
  have hdq := hd.queue
  rw [htq] at hdq
  have hdreg {o : Nat} (h1 : o ≠ Reg.hstQDone q) (h2 : o ≠ Reg.hstQAbortResult q) (h3 : o ≠ Reg.hstCmplHeld) : d.reg o = m.reg o :=
    (hd.regs o h1).trans ((M.told_reg j status r h2).trans (M.reported_reg j r h3))
  have hstatus : d.reg Reg.hstStatus = m.reg Reg.hstStatus := hdreg (by simp only [Reg.hstStatus, Reg.hstQDone]; omega)
    (by simp only [Reg.hstStatus, Reg.hstQAbortResult]; omega) (by decide)
  have hctl : d.reg (Reg.hstQCtl q) = m.reg (Reg.hstQCtl q) := hdreg (by simp only [Reg.hstQCtl, Reg.hstQDone]; omega)
    (by simp only [Reg.hstQCtl, Reg.hstQAbortResult]; omega) (by simp only [Reg.hstQCtl, Reg.hstCmplHeld]; omega)
  have hholding : (d.queue q).holding = (m.queue q).holding := (congrArg HostQ.holding hdq :)
  obtain ⟨houts, hheld⟩ := hd.signalled_outs rfl hstatus hctl hholding
  have hnq := M.signalled_queue q hd.wf
  rw [← hn] at hnq houts hheld
  refine ⟨Job.length_record .., Job.record_status .., fun hl hi => ?_, fun hl hi => ?_, ?_, ?_, ?_, fun hl hnil hdone => ?_, fun hwatch => ?_,
    fun hl => ⟨?_, ?_, ?_, ?_, fun hout => ?_⟩, fun hl hb hh => ⟨?_, ?_⟩, fun hb hh => ?_, ?_, ?_, fun k hk => ?_⟩
  · refine houts ▸ List.mem_append_right _ ?_
    rw [M.reported_outs j r hl, completionWrites, if_pos (by rw [hi.1, Bool.true_and]; exact bne_iff_ne.2 hi.2)]
    exact List.mem_append_left _ (List.mem_singleton.2 rfl)
  · have hwrites : ∀ o ∈ ([.hostWrite false a (r.take 60), .hostWrite false (a + 60) (r.drop 60)] : List Output), o ∈ n.outs := fun o ho => by
      refine houts ▸ List.mem_append_right _ ?_
      have hpair : ¬ (bit (m.reg (Reg.hstQCtl q)) 30 && bits (m.reg Reg.hstStatus) 31 30 != 1) = true := by
        rcases hi with h | h
        · simp [show bit (m.reg (Reg.hstQCtl q)) 30 = false from h]
        · simp [show bits (m.reg Reg.hstStatus) 31 30 = 1 from h]
      rw [M.reported_outs j r hl, completionWrites, if_neg hpair]
      exact List.mem_append_left _ (List.mem_reverse.2 ho)
    exact ⟨hwrites _ (by simp), hwrites _ (by simp)⟩
  · exact (congrArg HostQ.jobs hnq :).trans (congrArg HostQ.jobs hdq :)
  · exact (congrArg HostQ.marks hnq :).trans (congrArg HostQ.marks hdq :)
  · have hstop := advanceDone_stops ht (fuel := (m.queue q).written.length + 1) (q := q) (by
      rw [htq, HostQ.took]
      dsimp only
      split
      · rw [List.length_append, List.length_singleton]
      · omega)
    rw [hn, M.reg_signalled, (congrArg HostQ.written (hn ▸ hnq) :)]
    exact hstop
  · rw [hn, M.reg_signalled]
    exact M.told_passes hw hl hnil hdone hq
  · rw [hn, M.reg_signalled, hd.regs _ (by simp only [Reg.hstQAbortResult, Reg.hstQDone]; omega)]
    exact M.told_abort j status r hw hwatch
  · rw [houts, if_neg fun hup => hup.1 hl, M.reported_held j r hl]
    rfl
  · exact ((congrArg HostQ.late hnq :).trans (congrArg HostQ.late hdq :)).trans (if_neg (not_not.2 hl))
  · rw [hheld, M.reported_held j r hl]
    have hvector : (bits (m.reg Reg.hstStatus) 31 30 = 0 ∧ bit (m.reg (Reg.hstQCtl q)) 29 = true ∧ (m.queue q).holding = false) ↔
        (bit ctl 29 = true ∧ (m.queue q).holding = false) := and_iff_right hl
    simp only [hvector, List.append_assoc, List.singleton_append]
    rfl
  · rw [hn, M.reg_signalled, hd.regs _ (by simp only [Reg.hstCmplHeld, Reg.hstQDone]; omega),
      M.told_reg _ _ _ (by simp only [Reg.hstCmplHeld, Reg.hstQAbortResult]; omega), M.reported_held j r hl]
    exact M.reg_setReg_self _ _ _ hw
  · rw [hn, M.reg_signalled]
    exact M.told_waits hw hl hout hq
  · rw [houts, if_pos ⟨hl, hb, hh⟩]
    rfl
  · rw [hn, M.signalled_holds q hd.wf (by rw [hctl]; exact hb) (by rw [hholding]; exact hh), hctl]
  · rw [hn, M.signalled_owes q hd.wf (by rw [hctl]; exact hb) (by rw [hholding]; exact hh)]
  · exact hn ▸ hd.signalled_stores hts
  · rw [hn, M.signalled_cores]
    exact (congrArg M.cores hd.rest :).trans (congrArg M.cores hts :)
  · rw [hn, M.signalled_others _ _ hk, hd.others k hk, M.told_others _ _ _ hk]

end Sys2Proof.Machine

/-! # The work of a COLLECTIVE where a core is listed twice

The statement lets a record's work start from any machine, not from those in canonical form alone. Where a logical core is listed twice, the
first time as at reset, putting the core back as it was takes that listing away and uncovers the other. The work of a COLLECTIVE puts its
entry into the ring, and answers the entry of its number that it then finds there: another record. -/

namespace Sys2Proof.Machine

/-- A COLLECTIVE that has issued as record 0. -/
def firstEntry : InFlight := { x := 0, w0 := 0x88, w1 := 0, w2 := 0, w3 := 0 }

/-- Another record of that number. -/
def otherEntry : InFlight := { x := 0, w0 := 0x80, w1 := 0, w2 := 0, w3 := 0 }

/-- A machine that lists core 0 twice: as at reset, and with the other record in flight. -/
def twiceListed : M :=
  { State.reset.m with cores := [(0, Core.init 0), (0, { Core.init 0 with ringS := { infl := [otherEntry] } })] }

theorem twiceListed_answers : (withPlay 0 3 (collectiveWork 0) { firstEntry with started := true } twiceListed).1.rcd = otherEntry.rcd := by
  decide +kernel

/-- A live module. -/
def liveModule : State := { State.reset with m := { State.reset.m with board := { State.reset.m.board with live := true } } }

/-- Refutes O41: from `twiceListed` the work of a COLLECTIVE answers another record than the one it was given. -/
theorem not_macroOpsRunTheirRecord : ¬ Obligations.MacroOpsRunTheirRecord := by
  intro h
  obtain ⟨hkeeps, -⟩ := h liveModule 0 0 [] rfl (.collective 0, 3, 0x88, withPlay 0 3 (collectiveWork 0)) (by simp)
  obtain ⟨-, hrcd, -⟩ := hkeeps firstEntry twiceListed
  rw [twiceListed_answers] at hrcd
  exact absurd hrcd (by decide)

end Sys2Proof.Machine

/-! # Lines, injection and background work (R197, R199, R204, R205, R207, R213) -/

namespace Sys2Proof.Machine

/-! ## The check symbols of a line that is put -/

theorem M.chk_setChks_mem {s : M} (h : s.wf = true) (l k : Nat) (vs : List Nat) {i : Nat} (hi : i < vs.length) :
    Tab.read chkZero (s.setChks l k vs).chk (4 * l + (k + i)) = vs[i] := by
  have hbelow : ∀ (t : M) (k' : Nat) (us : List Nat) (j : Nat), j < 4 * l + k' →
      Tab.read chkZero (t.setChks l k' us).chk j = Tab.read chkZero t.chk j := fun t k' us j hj => by
    induction us generalizing t k' with
    | nil => rfl
    | cons u us ih =>
      rw [M.setChks, ih _ _ (by omega)]
      exact Tab.read_put_other _ _ _ _ _ (by omega)
  induction vs generalizing s k i with
  | nil => exact absurd hi (Nat.not_lt_zero i)
  | cons v vs ih =>
    cases i with
    | zero =>
      rw [M.setChks, hbelow _ _ _ _ (by omega)]
      exact Tab.read_put_self _ _ _ _ (by simp_all [M.wf])
    | succ i =>
      rw [M.setChks, show k + (i + 1) = (k + 1) + i by omega]
      exact ih (M.wf_setChk l k v h) (k + 1) (Nat.lt_of_succ_lt_succ hi)

/-- The check symbols of a line read back. -/
theorem M.checks_setChks_self {s : M} (h : s.wf = true) (l : Nat) {vs : List Nat} (hv : vs.length = 4) :
    (s.setChks l 0 vs).checks l = vs := by
  refine List.ext_getElem (by simp [M.checks, hv]) fun i hi hi' => ?_
  simp only [M.checks, List.getElem_map, List.getElem_range]
  simpa using M.chk_setChks_mem h l 0 vs hi'

/-- The check symbols that a line is stored with (R200, R204). -/
def lineChecks (data : List Byte) (poison : Bool) : List Nat :=
  if poison then rsPoison (data.map (·.toNat)) else rsCheck (data.map (·.toNat))

theorem length_lineChecks (data : List Byte) (poison : Bool) : (lineChecks data poison).length = 4 := by
  unfold lineChecks
  split
  · exact length_rsPoison _
  · exact length_rsCheck _

theorem M.putLine_eq_setChks (s : M) (l : Nat) (data : List Byte) (poison : Bool) :
    s.putLine l data poison = (s.setBytes (32 * l) data).setChks l 0 (lineChecks data poison) := rfl

section
variable {m : M} (hw : m.wf = true) (l : Nat) {data : List Byte} (hd : data.length = 32) (poison : Bool)

theorem M.checks_putLine_other {k : Nat} (hk : k ≠ l) : (m.putLine l data poison).checks k = m.checks k := by
  rw [M.putLine_eq_setChks, M.checks_setChks_other _ hk _ _ (by rw [length_lineChecks])]
  simp only [M.checks, M.setBytes_chk]

include hw hd

theorem M.bytes_putLine_self : (m.putLine l data poison).bytes (32 * l) 32 = data := by
  refine List.ext_getElem (by simp [M.bytes, hd]) fun i hi hi' => ?_
  simp only [M.bytes, List.getElem_map, List.getElem_range, M.byte_putLine_self hw l poison hi']

theorem M.codeword_putLine_self : (m.putLine l data poison).codeword l = data.map (·.toNat) ++ lineChecks data poison := by
  rw [M.codeword, M.bytes_putLine_self hw l hd, M.putLine_eq_setChks,
    M.checks_setChks_self (M.wf_setBytes _ _ hw) l (length_lineChecks data poison)]

/-- A line that is put decodes as clean, or as poisoned. -/
theorem M.rsDecode_putLine : rsDecode ((m.putLine l data poison).codeword l) = if poison then .poisoned else .ok := by
  obtain ⟨α, hα⟩ := exists_alpha
  have hlen : (data.map (·.toNat)).length = 32 := by rw [List.length_map, hd]
  have hlt : ∀ c ∈ data.map (·.toNat), c < 256 := fun c hc => by
    obtain ⟨b, -, rfl⟩ := List.mem_map.1 hc
    exact b.isLt
  rw [M.codeword_putLine_self hw l hd]
  cases poison with
  | false => exact (hasErrors_line hα hlen hlt).decode_ok hα
  | true => exact (hasErrors_poisoned hα hlen hlt).decode_poisoned hα

end

/-! ## Reads of poisoned lines (R204) -/

/-- An event of a slice leaves the stores, and the registers below those of the positions. -/
theorem sliceEvent_below (l code : Nat) (s : M) : s.sameStores (sliceEvent l code s).2 ∧
    ∀ o, o < 0x10004000 → (sliceEvent l code s).2.reg o = s.reg o := by
  rw [sliceEvent, run_bind, run_get, run_ite]
  split
  · refine ⟨?_, fun o ho => reg_posCount_below (by omega) _ _ _ _ _ _⟩
    obtain ⟨r, hr⟩ := posEvent_regs (bits (s.reg (Reg.mgtSliceMap (32 * l / sliceSize))) 6 0) code 1 s
    exact hr ▸ ⟨rfl, rfl⟩
  · exact ⟨⟨rfl, rfl⟩, fun _ _ => rfl⟩

/-- A read of a poisoned line is counted and changes nothing of the stores. -/
theorem run_readLine_poisoned {l : Nat} {s : M} (hw : s.wf = true) (h : rsDecode (s.codeword l) = .poisoned) :
    (readLine l s).1 = true ∧ s.sameStores (readLine l s).2 ∧
      (readLine l s).2.reg Reg.memPoisonReads = trunc 64 (s.reg Reg.memPoisonReads + 1) := by
  have hrun : readLine l s = (true, (sliceEvent l 0x12A ((s.setReg Reg.memPoisonReads (trunc 64 (s.reg Reg.memPoisonReads + 1))).setReg
      Reg.memLastErr (lastErr (storeSource l) 3 (32 * l) (syndNum (s.codeword l)) 63))).2) := by
    rw [readLine, run_bind, run_get]
    dsimp only
    rw [h]
    rfl
  obtain ⟨hst, hreg⟩ := sliceEvent_below l 0x12A ((s.setReg Reg.memPoisonReads (trunc 64 (s.reg Reg.memPoisonReads + 1))).setReg
      Reg.memLastErr (lastErr (storeSource l) 3 (32 * l) (syndNum (s.codeword l)) 63))
  rw [hrun]
  refine ⟨rfl, hst, ?_⟩
  rw [hreg _ (by decide), M.reg_setReg_other _ _ (by decide), M.reg_setReg_self _ _ _ hw]

/-! ## Injection (R213) -/

theorem M.accessed_injectOk (m : M) (w a : Nat) : (m.accessed w).injectOk a = m.injectOk a := by
  rw [M.injectOk, M.accessed_reg _ _ (by decide), M.injectOk]

theorem M.byte_accessed (m : M) (w a : Nat) : (m.accessed w).byte a = m.byte a := by
  rw [M.byte, (m.sameStores_accessed w).1, M.byte]

theorem M.bytes_accessed (m : M) (w a n : Nat) : (m.accessed w).bytes a n = m.bytes a n :=
  M.bytes_of_sameStores (m.sameStores_accessed w) a n

/-- What n flips at an address leave. -/
theorem flipBytes_flips {t : M} (hw : t.wf = true) (a n : Nat) :
    (flipBytes a n t).2.wf = true ∧ { (flipBytes a n t).2 with mem := t.mem } = t ∧
      (∀ k, k < n → (flipBytes a n t).2.byte (a + k) = t.byte (a + k) ^^^ 1#8) ∧
      ∀ x, x < a ∨ a + n ≤ x → (flipBytes a n t).2.byte x = t.byte x := by
  induction n with
  | zero => exact ⟨hw, rfl, fun k hk => absurd hk (Nat.not_lt_zero k), fun _ _ => rfl⟩
  | succ n ih =>
    obtain ⟨hwf, hrest, hflip, hother⟩ := ih
    refine ⟨M.wf_setByte _ _ hwf, hrest, fun k hk => ?_, fun x hx => ?_⟩
    · by_cases hkn : k = n
      · subst hkn
        exact (M.byte_setByte_self _ _ _ hwf).trans (by rw [hother _ (.inr le_rfl)])
      · exact (M.byte_setByte_other _ _ (by omega)).trans (hflip k (by omega))
    · exact (M.byte_setByte_other _ _ (by omega)).trans (hother x (by omega))

section
variable {s : State} {w a : Nat} (hl : s.m.board.live = true) (ha : s.m.admits w false)
include hl ha

/-- An accepted injection has its effect, and another none. -/
theorem doing_inject (i : Instr) (f : Act Unit) : s.doing (regAction w false i (inject a f)) =
    s.becomes (if s.m.injectOk a then (f (s.m.accessed w)).2 else s.m.accessed w) := by
  rw [State.doing_live s _ hl, run_regAction_admitted ha, inject, run_bind, run_get, run_whenA]
  dsimp only
  rw [M.accessed_injectOk]

theorem exec_inject_refused (h : s.m.injectOk a = false) :
    ∀ c ∈ [Instr.memInjectCorrectable a w, .memInjectUncorrectable a w, .memInjectPoison a w], exec c s = s.becomes (s.m.accessed w) := by
  have hrefused : ∀ i f, s.doing (regAction w false i (inject a f)) = s.becomes (s.m.accessed w) := fun i f => by
    rw [doing_inject hl ha, if_neg (by rw [h]; exact Bool.false_ne_true)]
  intro c hc
  simp only [List.mem_cons, List.not_mem_nil, or_false] at hc
  rcases hc with rfl | rfl | rfl
  · exact hrefused _ _
  · exact hrefused _ _
  · exact hrefused _ _

end

/-! ## Background work (R199, R207) -/

section
variable {s : State} (hl : s.m.board.live = true) {store unit : Nat}
include hl

/-- A scrubber that is on reads its next line, which is not the last of a pass. -/
theorem exec_scrubLine_reads
    (hon : (bit (s.m.reg Reg.memCtl) 1 && (store == 0 || (decide (unit < 8) && s.m.setState unit == 3))) = true)
    (hlast : Tab.read (fun _ => 0) s.m.scrubAt (128 * store + unit) + 1 < scrubLines store) :
    exec (.scrubLine store unit) s = s.becomes
      (let m := (readLine (s.m.scrubTarget store unit (Tab.read (fun _ => 0) s.m.scrubAt (128 * store + unit))) s.m).2
       { m with scrubAt :=
          Tab.put (fun _ => 0) m.scrubAt (128 * store + unit) (Tab.read (fun _ => 0) s.m.scrubAt (128 * store + unit) + 1) }) := by
  rw [exec, execScrubLine, State.doing_live s _ hl, run_bind, run_get, run_whenA, if_pos hon, run_bind, run_bind, run_modify, run_whenA]
  dsimp only
  rw [if_neg (by simpa using hlast), if_neg (by simpa using hlast)]

theorem exec_scrubLine_off
    (hoff : (bit (s.m.reg Reg.memCtl) 1 && (store == 0 || (decide (unit < 8) && s.m.setState unit == 3))) = false) :
    exec (.scrubLine store unit) s = .next s := by
  rw [exec, execScrubLine, State.doing_live s _ hl, run_bind, run_get, run_whenA, if_neg (by rw [hoff]; exact Bool.false_ne_true)]

theorem exec_refresh (ctrl rate : Nat) : exec (.refresh ctrl rate) s = s.becomes (if s.m.setState (ctrl / 3) = 3 then
    s.m.setReg (Reg.memSetState (ctrl / 3)) (setBits (s.m.reg (Reg.memSetState (ctrl / 3))) 18 16 rate) else s.m) := by
  rw [exec, execRefresh, State.doing_live s _ hl, run_bind, run_get, run_whenA]
  simp only [beq_iff_eq]
  rfl

end

/-- Settles O28: a line that is put decodes as what it was put as, and each injection and background task has its own effect. -/
theorem linesInjectionAndBackgroundWork : Obligations.LinesInjectionAndBackgroundWork := by
  unfold Obligations.LinesInjectionAndBackgroundWork
  refine ⟨?_, fun s hl hw => ⟨?_, ?_, ?_, ?_, ?_, fun ctrl => ?_⟩⟩
  · intro m l data poison hw hd n
    have hn : n.wf = true := M.wf_putLine l data poison hw
    have hdec := M.rsDecode_putLine hw l hd poison
    refine ⟨M.bytes_putLine_self hw l hd poison, ?_, ?_, ?_, ?_, fun a ha => M.byte_putLine_other m l data poison a hd ha,
      fun k hk => M.checks_putLine_other l poison hk⟩
    all_goals cases poison with
    | false => simp_all [run_readLine_ok l n hdec, M.sameStores]
    | true => simp_all [run_readLine_poisoned hn hdec]
  · intro w a ha hok m0
    have hgo := fun i f => doing_inject (a := a) hl ha i f
    simp only [hok, if_true] at hgo
    refine ⟨(hgo _ _).trans ?_, ⟨_, hgo _ _, ?_⟩, (hgo _ _).trans ?_⟩
    · exact congrArg (State.becomes s) (congrArg (m0.setByte a) (by rw [M.byte_accessed, Nat.add_zero]))
    · obtain ⟨-, hrest, hflip, hother⟩ := flipBytes_flips (M.wf_accessed hw w) a 3
      exact ⟨fun k hk => (hflip k hk).trans (by rw [M.byte_accessed]), fun x hx => (hother x hx).trans (s.m.byte_accessed w x),
        (congrArg (fun u : M => { u with mem := (flipBytes a 3 (s.m.accessed w)).2.mem }) hrest :)⟩
    · have haligned : 32 * (a / 32) = a := by
        have h32 : a % 32 = 0 := by
          simp only [M.injectOk, Bool.and_eq_true, beq_iff_eq] at hok
          exact hok.1.2
        omega
      rw [poisonLine, run_modify, haligned, M.bytes_accessed]
  · exact fun w a ha hno => exec_inject_refused hl ha hno
  · intro store unit k at' on
    exact ⟨fun hon hlast => exec_scrubLine_reads hl hon hlast, fun hoff => exec_scrubLine_off hl hoff⟩
  · exact fun ctrl rate h => (exec_refresh hl ctrl rate).trans (by rw [if_pos h])
  · exact fun ctrl rate h => (exec_refresh hl ctrl rate).trans (by rw [if_neg h])
  · rw [exec, execZqCalibration, State.doing_live s _ hl]
    rfl

end Sys2Proof.Machine

/-! # The common macro-ops (R98, R102, R134, R150, R237) -/

namespace Sys2Proof.Machine

/-! ## Writes of whole lines at an aligned address -/

/-- Bytes that fill whole lines at an aligned address read back, and nothing else changes. -/
theorem writeBytes_wholeLines {s : M} (hw : s.wf = true) {a : Nat} (ha : a % 32 = 0) {data : List Byte} (q : Nat) (hd : data.length = 32 * q) :
    (writeBytes a data s).2.bytes a data.length = data ∧ s.storesOnly (writeBytes a data s).2 ∧
      ∀ b, b < a ∨ a + data.length ≤ b → (writeBytes a data s).2.byte b = s.byte b := by
  obtain ⟨t, hrun, honly, hbytes⟩ := run_writeBytesAux_lines hw q (l := a / 32) (fuel := data.length / 32 + 2) hd (by omega)
  rw [show 32 * (a / 32) = a by omega] at hrun hbytes
  rw [writeBytes, hrun]
  refine ⟨List.ext_getElem (by simp [M.bytes]) fun i _ hi => ?_, honly.stores, fun b hb => M.byte_of_codeword (honly.others _ ?_)⟩
  · simp only [M.bytes, List.getElem_map, List.getElem_range]
    exact hbytes i hi
  · omega

/-! ## An entry that is replaced -/

theorem M.reg_withEntry (s : M) (n e i : Nat) (f : InFlight) (o : Nat) : (s.withEntry n e i f).reg o = s.reg o := rfl

theorem M.sameStores_withEntry (s : M) (n e i : Nat) (f : InFlight) : s.sameStores (s.withEntry n e i f) := ⟨rfl, rfl⟩

theorem M.ring_withEntry {s : M} (hw : s.wf = true) (n e i : Nat) (f : InFlight) :
    ((s.withEntry n e i f).ring n e).infl = (s.ring n e).infl.set i f := by
  rw [M.withEntry, M.ring_withRing_self hw]

theorem M.core_withEntry_other (s : M) {n k : Nat} (hk : k ≠ n) (e i : Nat) (f : InFlight) : (s.withEntry n e i f).core k = s.core k :=
  M.core_setCore_other _ _ hk

/-- Machines with the same cores have the same cores after an entry is replaced. -/
theorem M.cores_withEntry_congr {s t : M} (h : t.cores = s.cores) (n e i : Nat) (f : InFlight) :
    (t.withEntry n e i f).cores = (s.withEntry n e i f).cores := by
  unfold M.withEntry M.withRing M.setCore M.ring M.core
  rw [h]

theorem Core.record_setRing (c : Core) (e : Nat) (g : Ring) : (c.setRing e g).seed = c.seed ∧
    (c.setRing e g).growthInterval = c.growthInterval ∧ (c.setRing e g).growthLog2 = c.growthLog2 := by
  match e with
  | 0 | 1 | 2 | _ + 3 => exact ⟨rfl, rfl, rfl⟩

section
variable {s : State} {n e op i : Nat} {f : InFlight} (hl : s.m.board.live = true) (hwait : s.m.waits n e op = some (i, f))
include hl hwait

/-- The row of an opcode runs the record that waits for it. -/
theorem doing_runOp_waits (work : Work) : s.doing (runOp n e op work) =
    s.becomes ((work { f with started := true } s.m).2.withEntry n e i (work { f with started := true } s.m).1) := by
  rw [State.doing_live s _ hl, run_runOp_waits n e op work s.m i f hwait]

end

/-! ## STEP_SET (R98) -/

/-- An increment finds the step register exhausted. -/
def InFlight.exhausts (f : InFlight) (step : Nat) : Prop := bit f.w1 63 = true ∧ 2 ^ 40 - 1 ≤ step

section
variable (n e : Nat) (f : InFlight) (s : M)

theorem run_stepSetWork_exhausted (h : f.exhausts (s.reg (Reg.coreStep n))) :
    stepSetWork n e f s = ({ f with done := true, own := 7 }, (haltRing n e f.x 7 s).2) := by
  have hgo : bit f.w1 63 = true ∧ s.reg (Reg.coreStep n) ≥ 2 ^ 40 - 1 := h
  rw [stepSetWork, run_bind, run_rd, run_ite, if_pos hgo]
  rfl

theorem run_stepSetWork (h : ¬ f.exhausts (s.reg (Reg.coreStep n))) : stepSetWork n e f s = ({ f with done := true },
    s.setReg (Reg.coreStep n) (if bit f.w1 63 then s.reg (Reg.coreStep n) + 1 else bits f.w1 39 0)) := by
  have hno : ¬ (bit f.w1 63 = true ∧ s.reg (Reg.coreStep n) ≥ 2 ^ 40 - 1) := h
  rw [stepSetWork, run_bind, run_rd, run_ite, if_neg hno]
  rfl

end

/-- A halt leaves every other core as it was. -/
theorem haltRing_core_other (s : M) {n k : Nat} (hk : k ≠ n) (e x status : Nat) : (haltRing n e x status s).2.core k = s.core k := by
  obtain ⟨r, hr⟩ := haltRing_regs n e x status s
  rw [hr]
  exact M.core_setCore_other s ((s.core n).raised 0) hk

/-! ## STATE_LOAD (R237) -/

section
variable {s : M} (hw : s.wf = true) (n x : Nat)
include hw

/-- Each register of a job state record takes its value. -/
theorem loadJobRecord_regs : ∀ p ∈ recordValues n x, (loadJobRecord n x s).2.reg p.1 = p.2 := by
  have hload : (loadJobRecord n x s).2 = (s.setCore n ((s.core n).withRecord x)).setRegs (recordValues n x) := rfl
  rw [hload]
  exact M.reg_setRegs (M.wf_setCore _ _ hw) (nodup_recordValues n x)

theorem loadJobRecord_core : (loadJobRecord n x s).2.core n = (s.core n).withRecord x := by
  have hload : (loadJobRecord n x s).2 = (s.setCore n ((s.core n).withRecord x)).setRegs (recordValues n x) := rfl
  rw [hload, M.core_setRegs, M.core_setCore_self _ _ _ hw]

end

theorem run_stateLoadWork {n : Nat} {f : InFlight} {s : M} (hclean : s.clean (linesOf (bits f.w1 41 0) 64)) : stateLoadWork n f s =
    if jobRecordOk (leNat (s.bytes (bits f.w1 41 0) 64)) then
      ({ f with done := true }, (loadJobRecord n (leNat (s.bytes (bits f.w1 41 0) 64)) s).2)
    else ({ f with done := true, own := 1 }, s) := by
  rw [stateLoadWork, run_bind, run_readBytes_ok _ _ _ hclean]
  dsimp only
  rw [run_ite, if_neg Bool.false_ne_true, run_ite]
  cases jobRecordOk (leNat (s.bytes (bits f.w1 41 0) 64)) with
  | false => rfl
  | true => rfl

/-- What a core shows after a sound record has been loaded and its entry replaced. -/
structure M.loaded (s : M) (n x : Nat) (m : M) : Prop where
  step : m.reg (Reg.coreStep n) = bits x 295 256
  skip : m.reg (Reg.coreJobSkipCount n) = bits x 351 320
  scale : m.reg (Reg.coreJobLossScale n) = bits x 383 352
  run : m.reg (Reg.coreJobFiniteRun n) = bits x 415 384
  corr : m.reg (Reg.coreJobBiasCorr n) = bits x 511 480
  seed : (m.core n).seed = bits x 255 0
  interval : (m.core n).growthInterval = bits x 447 416
  log2 : (m.core n).growthLog2 = bits x 455 448
  stores : s.sameStores m

theorem loadJobRecord_loads {s : M} (hw : s.wf = true) (n x e i : Nat) (f : InFlight) :
    s.loaded n x ((loadJobRecord n x s).2.withEntry n e i f) := by
  have hregs := loadJobRecord_regs hw n x
  simp only [recordValues, List.forall_mem_cons] at hregs
  obtain ⟨hstep, hskip, hscale, hrun, hcorr, -⟩ := hregs
  have hcore : ((loadJobRecord n x s).2.withEntry n e i f).core n =
      ((s.core n).withRecord x).setRing e { (loadJobRecord n x s).2.ring n e with infl := ((loadJobRecord n x s).2.ring n e).infl.set i f } := by
    rw [M.withEntry, M.withRing, M.core_setCore_self _ _ _ (keepsWf_loadJobRecord n x s hw), loadJobRecord_core hw]
  obtain ⟨hseed, hinterval, hlog2⟩ := Core.record_setRing ((s.core n).withRecord x) e
    { (loadJobRecord n x s).2.ring n e with infl := ((loadJobRecord n x s).2.ring n e).infl.set i f }
  rw [← hcore] at hseed hinterval hlog2
  exact ⟨hstep, hskip, hscale, hrun, hcorr, hseed, hinterval, hlog2, ⟨rfl, rfl⟩⟩

theorem ring_loadJobRecord {s : M} (hw : s.wf = true) (n x e : Nat) : (loadJobRecord n x s).2.ring n e = s.ring n e := by
  rw [M.ring, loadJobRecord_core hw, M.ring]
  match e with
  | 0 | 1 | 2 | _ + 3 => rfl

/-! ## PHASE_MARK (R134) -/

/-- The module after a phase mark, before the governor looks at it. -/
def M.marked (s : M) (n : Nat) (f : InFlight) : M := s.setReg (Reg.corePhase n) (bits f.w1 2 0)

theorem run_phaseMarkWork (n : Nat) (f : InFlight) (s : M) : phaseMarkWork n f s = ({ f with done := true },
    if (s.marked n f).switchedIn n then (setPoint ((s.marked n f).posOf n) ((s.marked n f).phasePoint n) (s.marked n f)).2
    else s.marked n f) := by
  rw [phaseMarkWork, run_bind, run_wr, run_bind, run_get, run_bind, run_whenA, run_pure, M.marked]

section
variable {s : M} {n : Nat} (hn : n < 120) (f : InFlight)
include hn

theorem M.reg_marked {o : Nat} (ho : o < 0x1000000) : (s.marked n f).reg o = s.reg o :=
  M.reg_setReg_other _ _ (by simp only [Reg.corePhase]; omega)

theorem M.marked_posOf (k : Nat) (hk : k < 128) : (s.marked n f).posOf k = s.posOf k := by
  rw [M.posOf, M.reg_marked hn f (by simp only [Reg.mgtCoreMap]; omega), M.posOf]

theorem M.marked_switchedIn (hp : s.posOf n < 128) : (s.marked n f).switchedIn n = s.switchedIn n := by
  have hmap : (s.marked n f).reg (Reg.mgtCoreMap n) = s.reg (Reg.mgtCoreMap n) := M.reg_marked hn f (by simp only [Reg.mgtCoreMap]; omega)
  have hstate : (s.marked n f).reg (Reg.mgtPosState (s.posOf n)) = s.reg (Reg.mgtPosState (s.posOf n)) :=
    M.reg_marked hn f (by simp only [Reg.mgtPosState]; omega)
  unfold M.switchedIn M.coreMode M.logicalAt
  dsimp only
  rw [M.marked_posOf hn f n (by omega), hmap, hstate]
  rfl

end

/-- What a phase mark shows, and what it leaves. -/
theorem phaseMarkWork_marks {s : M} (hw : s.wf = true) {n : Nat} (hn : n < 120) (f : InFlight) :
    let m := (phaseMarkWork n f s).2
    m.reg (Reg.corePhase n) = bits f.w1 2 0 ∧ m.cores = s.cores ∧ s.sameStores m ∧ (s.switchedIn n = true → s.posOf n < 128 →
      m.reg (Reg.pwrPosOp (s.posOf n)) = s.pointWord (s.posOf n) (s.gov.phase.getD (bits f.w1 2 0) 1)) := by
  have hwt : (s.marked n f).wf = true := M.wf_setReg _ _ hw
  have hphase : (s.marked n f).reg (Reg.corePhase n) = bits f.w1 2 0 := M.reg_setReg_self _ _ _ hw
  have hlt : ∀ t : M, ∀ k, t.posOf k < 128 := fun t k => Nat.mod_lt _ (by decide)
  rw [run_phaseMarkWork, M.marked_switchedIn hn f (hlt s n), M.marked_posOf hn f n (by omega), M.phasePoint, hphase]
  dsimp only
  split
  · next hin =>
    have hup := setPoint_bringsUp hwt (s.posOf n) (s.gov.phase.getD (bits f.w1 2 0) 1)
    refine ⟨?_, (congrArg M.cores hup.rest :), ⟨(congrArg M.mem hup.rest :), (congrArg M.chk hup.rest :)⟩, fun _ hp => ?_⟩
    · have hp := hlt s n
      exact (hup.regs _ (by simp only [Reg.ofPoint, Reg.ofNotes, Reg.corePhase, Reg.pwrPosOp]; omega)).trans hphase
    · refine (setPoint_shows hwt _ _).trans ?_
      rw [M.pointWord, M.pointWord, M.limitCode_congr (s := s) (t := s.marked n f) rfl (M.reg_marked hn f (by decide)) (M.reg_marked hn f (by decide)),
        M.reg_marked hn f (by simp only [Reg.pwrPosOp]; omega)]
      rfl
  · next hout => exact ⟨hphase, rfl, ⟨rfl, rfl⟩, fun hin => absurd hin hout⟩

/-! ## The obligation -/

/-- Settles O42: each common macro-op runs as its work does, which is said once for each. -/
theorem commonMacroOps : Obligations.CommonMacroOps := by
  unfold Obligations.CommonMacroOps
  intro s n e i f hl hw hn g finished step addr
  refine ⟨fun c hc hwait => ?_, fun hwait => ⟨fun hset => ?_, fun hinc hroom => ?_, fun hinc hfull he => ?_⟩, fun hwait => ?_,
    fun hwait ha => ?_, fun hwait hclean => ?_⟩
  · simp only [List.mem_cons, List.not_mem_nil, or_false] at hc
    rcases hc with rfl | rfl | rfl
    · exact doing_runOp_waits hl hwait noWork
    · exact doing_runOp_waits hl hwait noWork
    · exact doing_runOp_waits hl hwait noWork
  · have hno : ¬ g.exhausts step := fun h => absurd h.1 (by rw [show bit g.w1 63 = false from hset]; exact Bool.false_ne_true)
    refine (doing_runOp_waits hl hwait (stepSetWork n e)).trans ?_
    rw [run_stepSetWork n e g s.m hno, if_neg (by rw [show bit g.w1 63 = false from hset]; exact Bool.false_ne_true)]
  · have hno : ¬ g.exhausts step := fun h => absurd hroom (Nat.not_lt.2 h.2)
    refine (doing_runOp_waits hl hwait (stepSetWork n e)).trans ?_
    rw [run_stepSetWork n e g s.m hno, if_pos hinc]
  · have hwork := run_stepSetWork_exhausted n e g s.m ⟨hinc, hfull⟩
    obtain ⟨hring, hst⟩ := haltRing_frame hw n e g.x 7
    have hwh := keepsWf_haltRing n e g.x 7 s.m hw
    refine ⟨(haltRing n e g.x 7 s.m).2.withEntry n e i { finished with own := 7 },
      (doing_runOp_waits hl hwait (stepSetWork n e)).trans (by rw [hwork]), ?_, ?_, ?_, fun k hk => ?_, hst⟩
    · exact haltRing_haltedAt hn he hw g.x 7
    · rw [M.ring_withEntry hwh, hring]
    · refine (M.reg_withEntry _ _ _ _ _ _).trans (haltRing_reg s.m n e g.x 7 ?_ ?_ ?_ ?_)
      all_goals simp only [Reg.ofRings, Reg.coreStep, Reg.coreRingCtl, Reg.coreRingHaltIndex, Reg.coreRingState]; omega
    · rw [M.core_withEntry_other _ hk, haltRing_core_other s.m hk]
  · obtain ⟨hphase, hcores, hst, hpoint⟩ := phaseMarkWork_marks hw hn g
    have hdone : (phaseMarkWork n g s.m).1 = finished := by rw [run_phaseMarkWork]
    refine ⟨(phaseMarkWork n g s.m).2.withEntry n e i finished, (doing_runOp_waits hl hwait (phaseMarkWork n)).trans (by rw [hdone]), hphase,
      M.cores_withEntry_congr hcores n e i finished, hst, fun hin hp => (hpoint hin hp).trans ?_⟩
    rw [M.pointWord, limitPoint_eq]
  · have hlen : (leBytes 64 (s.m.jobRecord n)).length = 32 * 2 := length_leBytes _ _
    obtain ⟨hbytes, honly, hother⟩ := writeBytes_wholeLines hw ha 2 hlen
    rw [length_leBytes] at hbytes hother
    refine ⟨_, doing_runOp_waits hl hwait (stateSaveWork n), hbytes, hother, M.cores_withEntry_congr ?_ n e i finished, ?_⟩
    · exact (congrArg M.cores honly :)
    · exact (congrArg M.regs honly :)
  · intro x
    have hwork := run_stateLoadWork (n := n) (f := g) hclean
    refine ⟨fun hok => ⟨(loadJobRecord n x s.m).2.withEntry n e i finished,
        (doing_runOp_waits hl hwait (stateLoadWork n)).trans (by rw [hwork, if_pos hok]), ?_⟩,
      fun hbad => (doing_runOp_waits hl hwait (stateLoadWork n)).trans
        (by rw [hwork, if_neg (by rw [hbad]; exact Bool.false_ne_true)])⟩
    obtain ⟨hstep, hskip, hscale, hrun, hcorr, hseed, hinterval, hlog2, hst⟩ := loadJobRecord_loads hw n x e i finished
    refine ⟨hstep, hskip, hscale, hrun, hcorr, hseed, hinterval, hlog2, ?_, hst⟩
    rw [M.ring_withEntry (keepsWf_loadJobRecord n x s.m hw), ring_loadJobRecord hw]

end Sys2Proof.Machine

/-! # Event counters, bandwidth windows and scorecards (R407 to R417, R419) -/

namespace Sys2Proof.Machine

theorem M.sameBut.refl (s : M) (l : List Nat) : s.sameBut s l := ⟨rfl, fun _ _ => rfl⟩

theorem M.sameBut.setReg {s t : M} {l : List Nat} (h : s.sameBut t l) {o : Nat} (ho : o ∈ l) (v : Nat) : s.sameBut (t.setReg o v) l :=
  ⟨h.1, fun o' ho' => (M.reg_setReg_other t v fun e : o' = o => ho' (e ▸ ho)).trans (h.2 o' ho')⟩

theorem bits_setBits_word (x v : Nat) : bits (setBits x 31 0 v) 31 0 = trunc 32 v := bits_setBits_self (by decide) x v

/-! ## What the counting of an access leaves alone -/

/-- The count of a control core's access writes its counters and their overflow register alone. -/
theorem M.accessed_reg_beside (m : M) {w : Nat} {o : Nat} (h : ∀ p, o ≠ Reg.posCntOvf p ∧ ∀ c, c < 40 → o ≠ Reg.posCnt p c) :
    (m.accessed w).reg o = m.reg o := by
  rw [M.accessed, ctlAccess, run_bind, run_get, run_whenA]
  split
  · rw [posCount, run_modify]
    split
    · rfl
    · refine List.foldlRecOn (motive := fun t => M.reg t o = m.reg o) _ _ rfl fun t ht c hc => ?_
      obtain ⟨-, hlt⟩ := List.mem_range'_1.1 hc
      split
      · exact ht
      · exact (reg_countAt_other ((h _).2 c (by omega)) (h _).1 _ _ _ _ t).trans ht
  · rfl

theorem M.accessed_posSelGen (m : M) (w i : Nat) : (m.accessed w).reg (Reg.posSelGen i) = m.reg (Reg.posSelGen i) :=
  m.accessed_reg_beside fun p => ⟨by simp only [Reg.posSelGen, Reg.posCntOvf]; omega, fun c hc => by
    simp only [Reg.posSelGen, Reg.posCnt]; omega⟩

/-- Which logical core runs at a position is not a matter of the counters. -/
theorem M.accessed_runningAt (m : M) (w : Nat) {i : Nat} (hi : i < 128) : (m.accessed w).runningAt i = m.runningAt i := by
  rw [M.runningAt, M.accessed_posX, M.logicalAt, M.accessed_reg m w (by simp only [Reg.mgtPosState]; omega), M.runningAt, M.logicalAt]

/-! ## One count -/

section
variable {m : M} {cnt sel ovf c code n : Nat}

theorem countAt_silent (h : ¬ (bit (m.reg sel) 31 = true ∧ bits (m.reg sel) 9 0 = code ∧ n ≠ 0)) : countAt cnt sel ovf c code n m = m := by
  rw [countAt]
  dsimp only
  rw [if_neg]
  simpa only [Bool.and_eq_true, beq_iff_eq, bne_iff_ne, and_assoc] using h

theorem countAt_counts (h : bit (m.reg sel) 31 = true ∧ bits (m.reg sel) 9 0 = code ∧ n ≠ 0) (hw : m.wf = true) (hne : cnt ≠ ovf) :
    (countAt cnt sel ovf c code n m).reg cnt = trunc 64 (m.reg cnt + if bit (m.reg sel) 30 then 1 else n) ∧
    (m.reg cnt + (if bit (m.reg sel) 30 then 1 else n) < 2 ^ 64 → m.sameBut (countAt cnt sel ovf c code n m) [cnt]) ∧
    (2 ^ 64 ≤ m.reg cnt + (if bit (m.reg sel) 30 then 1 else n) → m.sameBut (countAt cnt sel ovf c code n m) [cnt, ovf] ∧
      bit ((countAt cnt sel ovf c code n m).reg ovf) c = true) := by
  have hc : (bit (m.reg sel) 31 && bits (m.reg sel) 9 0 == code && n != 0) = true := by
    simpa only [Bool.and_eq_true, beq_iff_eq, bne_iff_ne, and_assoc] using h
  rw [countAt]
  dsimp only
  rw [if_pos hc]
  generalize m.reg cnt + (if bit (m.reg sel) 30 then 1 else n) = v
  by_cases hv : v < 2 ^ 64
  · rw [if_pos hv]
    exact ⟨M.reg_setReg_self _ _ _ hw, fun _ => (M.sameBut.refl m _).setReg (List.mem_singleton_self _) _, fun h => absurd hv (by omega)⟩
  · rw [if_neg hv]
    refine ⟨?_, fun h => absurd h hv, fun _ => ⟨((M.sameBut.refl m _).setReg (by simp) _).setReg (by simp) _, ?_⟩⟩
    · rw [M.reg_setReg_other _ _ hne, M.reg_setReg_self _ _ _ hw]
    · rw [M.reg_setReg_self _ _ _ (M.wf_setReg _ _ hw), bit_setBits_one, if_pos rfl]

end

/-- Does a counter of a position count an event, for the logical core that it happens to (R408 to R410)? -/
def M.posCounts (s : M) (pos c code n who : Nat) : Prop :=
  bit (s.reg (Reg.posCntCtl pos)) 0 = false ∧ bit (s.reg (Reg.posCntSel pos c)) 31 = true ∧ bits (s.reg (Reg.posCntSel pos c)) 9 0 = code ∧
    n ≠ 0 ∧ (bit (s.reg (Reg.posCntSel pos c)) 29 = true → s.reg (Reg.posCntOwner pos c) = who)

/-- An event at one counter of a position. -/
theorem run_posCount_one (m : M) (pos c code n who : Nat) : (posCount pos c 1 code n who m).2 =
    if bit (m.reg (Reg.posCntCtl pos)) 0 = true then m
    else if (bit (m.reg (Reg.posCntSel pos c)) 29 && m.reg (Reg.posCntOwner pos c) != who) = true then m
    else countAt (Reg.posCnt pos c) (Reg.posCntSel pos c) (Reg.posCntOvf pos) c code n m := rfl

theorem posCount_silent {m : M} {pos c code n who : Nat} (h : ¬ m.posCounts pos c code n who) : (posCount pos c 1 code n who m).2 = m := by
  rw [run_posCount_one]
  split
  · rfl
  next hctl =>
    split
    · rfl
    next hown =>
      refine countAt_silent fun ⟨hen, hcode, hn⟩ => h ⟨by simpa using hctl, hen, hcode, hn, fun h29 => ?_⟩
      simpa [h29] using hown

theorem run_posCount_counts {m : M} {pos c code n who : Nat} (h : m.posCounts pos c code n who) : (posCount pos c 1 code n who m).2 =
    countAt (Reg.posCnt pos c) (Reg.posCntSel pos c) (Reg.posCntOvf pos) c code n m := by
  obtain ⟨hctl, -, -, -, hown⟩ := h
  rw [run_posCount_one, if_neg (by simp [hctl]), if_neg]
  rw [Bool.and_eq_true, bne_iff_ne]
  exact fun ⟨h29, hne⟩ => hne (hown h29)

/-! ## Selects and values that are written -/

section
variable {s : State} (hl : s.m.board.live = true)
include hl

theorem exec_counterSelectWrite {w : Nat} (ha : s.m.admits w false) (o i c v : Nat) :
    exec (.counterSelectWrite o i c v w) s = s.becomes (selWrite o i c v (s.m.accessed w)).2 := by
  rw [exec, execCounterSelectWrite, State.doing_live s _ hl, run_regAction_admitted ha]

theorem exec_counterWrite {w : Nat} (ha : s.m.admits w false) (o i c v : Nat) :
    exec (.counterWrite o i c v w) s = s.becomes (counterSet o i c v (s.m.accessed w)).2 := by
  rw [exec, execCounterWrite, State.doing_live s _ hl, run_regAction_admitted ha]

theorem exec_cntScdEnable {w : Nat} (ha : s.m.admits w false) (v : Nat) :
    exec (.cntScdEnable v w) s = s.becomes (scdCtl v (s.m.accessed w)).2 := by
  rw [exec, execCntScdEnable, State.doing_live s _ hl, run_regAction_admitted ha]

end

theorem run_posSelWrite {i c who v : Nat} {m : M} (hw : m.wf = true) (hc : c < 40) (hok : posCodeOk c (bits v 9 0) = true) :
    let t := (posSelWrite i c who v m).2
    t.reg (Reg.posCntSel i c) = v &&& 0xE00003FF ∧ t.reg (Reg.posCntOwner i c) = who ∧
    bits (t.reg (Reg.posSelGen i)) 31 0 = trunc 32 (bits (m.reg (Reg.posSelGen i)) 31 0 + 1) ∧
    m.sameBut t [Reg.posCntSel i c, Reg.posCntOwner i c, Reg.posSelGen i] := by
  intro t
  have hso : Reg.posCntSel i c ≠ Reg.posCntOwner i c := by simp only [Reg.posCntSel, Reg.posCntOwner]; omega
  have hsg : Reg.posCntSel i c ≠ Reg.posSelGen i := by simp only [Reg.posCntSel, Reg.posSelGen]; omega
  have hog : Reg.posCntOwner i c ≠ Reg.posSelGen i := by simp only [Reg.posCntOwner, Reg.posSelGen]; omega
  have ht : t = ((m.setReg (Reg.posCntSel i c) (v &&& 0xE00003FF)).setReg (Reg.posCntOwner i c) who).setReg (Reg.posSelGen i)
      (setBits (m.reg (Reg.posSelGen i)) 31 0 (bits (m.reg (Reg.posSelGen i)) 31 0 + 1)) := by
    simp only [t, posSelWrite, hok, run_whenA_true, run_bind, run_wr, run_upd]
    rw [M.reg_setReg_other _ _ hog.symm, M.reg_setReg_other _ _ hsg.symm]
  have hw1 : (m.setReg (Reg.posCntSel i c) (v &&& 0xE00003FF)).wf = true := M.wf_setReg _ _ hw
  rw [ht]
  refine ⟨?_, ?_, ?_, (((M.sameBut.refl m _).setReg (by simp) _).setReg (by simp) _).setReg (by simp) _⟩
  · rw [M.reg_setReg_other _ _ hsg, M.reg_setReg_other _ _ hso, M.reg_setReg_self _ _ _ hw]
  · rw [M.reg_setReg_other _ _ hog, M.reg_setReg_self _ _ _ hw1]
  · rw [M.reg_setReg_self _ _ _ (M.wf_setReg _ _ hw1), bits_setBits_word]

/-- A select that is written, and the count of the controller's selects. -/
theorem sameBut_select {m : M} (hw : m.wf = true) {sel gen : Nat} (hne : sel ≠ gen) (x : Nat) :
    let t := (m.setReg sel x).setReg gen (trunc 32 ((m.setReg sel x).reg gen + 1))
    t.reg sel = x ∧ t.reg gen = trunc 32 (m.reg gen + 1) ∧ m.sameBut t [sel, gen] := by
  refine ⟨?_, ?_, ((M.sameBut.refl m _).setReg (by simp) _).setReg (by simp) _⟩
  · rw [M.reg_setReg_other _ _ hne, M.reg_setReg_self _ _ _ hw]
  · rw [M.reg_setReg_self _ _ _ (M.wf_setReg _ _ hw), M.reg_setReg_other _ _ hne.symm]

theorem M.accessed_ioSelGen (m : M) (w : Nat) {i : Nat} (hi : i < 1024) : (m.accessed w).reg (Reg.ioSelGen i) = m.reg (Reg.ioSelGen i) :=
  m.accessed_reg_beside fun p => ⟨by simp only [Reg.ioSelGen, Reg.posCntOvf]; omega, fun c hc => by
    simp only [Reg.ioSelGen, Reg.posCnt]; omega⟩

/-! ## Bandwidth and the control of scorecards -/

theorem exec_cntBwReadLatch {s : State} (hl : s.m.board.live = true) {n w : Nat} (hn : n < 16) (ha : s.m.admits w false) :
    exec (.cntBwReadLatch n w) s = s.becomes (((s.m.accessed w).setReg (Reg.cntBwLatch n) (1 <<< 64 + word64 (s.m.reg (Reg.cntBw n)) 1)).readBack w
      (word64 (s.m.reg (Reg.cntBw n)) 0)) := by
  have hbw : (s.m.accessed w).reg (Reg.cntBw n) = s.m.reg (Reg.cntBw n) := M.accessed_reg _ _ (by simp only [Reg.cntBw]; omega)
  have hlatch : ∀ v, ((s.m.accessed w).setReg (Reg.cntBwLatch n) v).reg (Reg.cntBw n) = s.m.reg (Reg.cntBw n) := fun v =>
    (M.reg_setReg_other _ v (by simp only [Reg.cntBw, Reg.cntBwLatch]; omega)).trans hbw
  rw [exec, execCntBwReadLatch, State.doing_live s _ hl, run_regRead_admitted ha]
  simp only [bwLatch, run_bind, run_rd, run_wr, run_pure, hbw, hlatch]

/-- What enables scorecards is not a matter of the counters. -/
theorem M.accessed_scdFits (m : M) (w k : Nat) : (m.accessed w).scdFits k = m.scdFits k := by
  have hg : (m.accessed w).scdGroups = m.scdGroups := by
    rw [M.scdGroups, M.accessed_reg m w (by decide), M.accessed_reg m w (by decide), M.scdGroups]
  rw [M.scdFits, hg, M.accessed_reg m w (by decide), M.scdFits]

section
variable {m : M} {v : Nat}

theorem run_scdCtl_disable (hv : bit v 31 = false) : (scdCtl v m).2 = m.setReg Reg.cntScdCtl
    (if bit (m.reg Reg.cntScdCtl) 31 = true then bits (m.reg Reg.cntScdCtl) 4 0 else bits v 4 0) := by
  simp [scdCtl, hv]
  rfl

theorem run_scdCtl_running (hv : bit v 31 = true) (h : bit (m.reg Reg.cntScdCtl) 31 = true) : (scdCtl v m).2 = m := by
  simp [scdCtl, hv, h]

theorem run_scdCtl_stopped (hv : bit v 31 = true) (h : bit (m.reg Reg.cntScdCtl) 31 = false) : (scdCtl v m).2 =
    if (bit (m.reg Reg.mgtReadyMap) 121 && m.scdFits (bits v 4 0)) = true then
      ((m.setReg Reg.cntScdCtl (1 <<< 31 + bits v 4 0)).setReg Reg.cntScdSeq 0).setReg Reg.cntScdDone 0xFFFFFFFF
    else m := by
  simp only [scdCtl, run_bind, run_get, hv, h]
  simp

end

/-! ## The tick of a scorecard -/

@[simp] theorem M.bytes_setReg (s : M) (o v a n : Nat) : (s.setReg o v).bytes a n = s.bytes a n := rfl

theorem length_flatMap_leBytes (f : Nat → Nat) (n : Nat) : ((List.range n).flatMap fun c => leBytes 8 (f c)).length = 8 * n := by
  rw [List.length_flatMap, List.map_congr_left fun c _ => length_leBytes 8 (f c)]
  simp [Nat.mul_comm]

theorem M.length_scdRecord (m : M) (seq i : Nat) : (m.scdRecord seq i).length = 576 := by
  simp only [M.scdRecord, List.length_append, length_leBytes, length_flatMap_leBytes, List.length_replicate]

/-- The write of the record of one enabled group, the j-th, whose bytes `rec` gives. -/
def scdRecordWrite (frame : Nat) (rec : Nat → List Byte) (x : Nat × Nat) : Act Unit := do
  let _ ← writeBytes (frame + 576 * x.2) (rec x.1)
  whenA (decide (x.1 < 128)) (setField (Reg.posSelGen x.1) 32 32 0)

theorem scdRecordWrite_writes {s : M} (hw : s.wf = true) {frame : Nat} (hf : frame % 32 = 0) {rec : Nat → List Byte} (hr : ∀ i, (rec i).length = 576)
    (i j : Nat) :
    let t := (scdRecordWrite frame rec (i, j) s).2
    t.wf = true ∧ t.bytes (frame + 576 * j) 576 = rec i ∧
      (∀ a, a < frame + 576 * j ∨ frame + 576 * (j + 1) ≤ a → t.byte a = s.byte a) ∧ t.cores = s.cores ∧
      ∀ o, o < 0x10000000 ∨ 0x12000000 ≤ o → t.reg o = s.reg o := by
  intro t
  obtain ⟨hbytes, honly, hothers⟩ := writeBytes_wholeLines hw (a := frame + 576 * j) (by omega) 18 (hr i)
  have hwf := keepsWf_writeBytes (frame + 576 * j) (rec i) s hw
  rw [hr] at hbytes hothers
  have ht : t = if i < 128 then (writeBytes (frame + 576 * j) (rec i) s).2.setReg (Reg.posSelGen i)
      (setBits ((writeBytes (frame + 576 * j) (rec i) s).2.reg (Reg.posSelGen i)) 32 32 0) else (writeBytes (frame + 576 * j) (rec i) s).2 := by
    simp only [t, scdRecordWrite, run_bind, run_whenA, run_setField, decide_eq_true_eq]
  generalize (writeBytes (frame + 576 * j) (rec i) s).2 = u at *
  have hout : ∀ a, a < frame + 576 * j ∨ frame + 576 * (j + 1) ≤ a → a < frame + 576 * j ∨ frame + 576 * j + 576 ≤ a := by
    clear * -
    omega
  have hcores : u.cores = s.cores := by rw [honly]
  have hreg : ∀ o, u.reg o = s.reg o := fun o => by rw [honly]; rfl
  rw [ht]
  split
  next hi =>
    refine ⟨M.wf_setReg _ _ hwf, (M.bytes_setReg u _ _ _ _).trans hbytes, fun a ha => hothers a (hout a ha), hcores, fun o ho => ?_⟩
    rw [M.reg_setReg_other _ _ (by simp only [Reg.posSelGen]; omega), hreg]
  · exact ⟨hwf, hbytes, fun a ha => hothers a (hout a ha), hcores, fun o _ => hreg o⟩

/-- The groups' records stand one after another. -/
theorem forA_scdRecordWrite_writes {frame : Nat} (hf : frame % 32 = 0) {rec : Nat → List Byte} (hr : ∀ i, (rec i).length = 576) (l : List Nat)
    (k : Nat) (s : M) (hw : s.wf = true) :
    let t := (forA (l.zipIdx k) (scdRecordWrite frame rec) s).2
    t.wf = true ∧ (∀ j i, l[j]? = some i → t.bytes (frame + 576 * (k + j)) 576 = rec i) ∧
      (∀ a, a < frame + 576 * k ∨ frame + 576 * (k + l.length) ≤ a → t.byte a = s.byte a) ∧ t.cores = s.cores ∧
      ∀ o, o < 0x10000000 ∨ 0x12000000 ≤ o → t.reg o = s.reg o := by
  induction l generalizing k s with
  | nil => exact ⟨hw, fun j i h => by simp at h, fun _ _ => rfl, rfl, fun _ _ => rfl⟩
  | cons x l ih =>
    obtain ⟨hwf, hbytes, hothers, hcores, hregs⟩ := scdRecordWrite_writes hw hf hr x k
    obtain ⟨hwf', hbytes', hothers', hcores', hregs'⟩ := ih (k + 1) _ hwf
    rw [List.zipIdx_cons, run_forA_cons]
    refine ⟨hwf', fun j i h => ?_, fun a ha => ?_, hcores'.trans hcores, fun o ho => (hregs' o ho).trans (hregs o ho)⟩
    · cases j with
      | zero =>
        obtain rfl : x = i := by simpa using h
        rw [← hbytes]
        refine List.map_congr_left fun b hb => hothers' _ (Or.inl ?_)
        have := List.mem_range.1 hb
        omega
      | succ j =>
        rw [List.getElem?_cons_succ] at h
        rw [show k + (j + 1) = k + 1 + j by omega]
        exact hbytes' j i h
    · rw [List.length_cons] at ha
      have hrest : a < frame + 576 * (k + 1) ∨ frame + 576 * (k + 1 + l.length) ≤ a := by omega
      have hhead : a < frame + 576 * k ∨ frame + 576 * (k + 1) ≤ a :=
        ha.imp_right (Nat.add_le_add_left (Nat.mul_le_mul_left 576 (by omega)) frame).trans
      exact (hothers' a hrest).trans (hothers a hhead)

/-- The tick of a scorecard (R414). -/
theorem exec_scorecardTick {s : State} (hl : s.m.board.live = true) (hctl : bit (s.m.reg Reg.cntScdCtl) 31 = true) :
    exec .scorecardTick s = s.becomes (((forA s.m.scdGroups.zipIdx (scdRecordWrite (s.m.reg Reg.cntScdBase + 576 *
      (s.m.scdGroups.length * (s.m.reg Reg.cntScdSeq % 2 ^ min 16 (bits (s.m.reg Reg.cntScdCtl) 4 0)))) (s.m.scdRecord (s.m.reg Reg.cntScdSeq))) s.m).2.setReg
        Reg.cntScdDone (s.m.reg Reg.cntScdSeq)).setReg Reg.cntScdSeq (trunc 32 (s.m.reg Reg.cntScdSeq + 1))) := by
  have hstep : (fun x : Nat × Nat => (do
      let _ ← writeBytes (s.m.reg Reg.cntScdBase + 576 *
        (s.m.scdGroups.length * (s.m.reg Reg.cntScdSeq % 2 ^ min 16 (bits (s.m.reg Reg.cntScdCtl) 4 0)) + x.2)) (s.m.scdRecord (s.m.reg Reg.cntScdSeq) x.1)
      whenA (decide (x.1 < 128)) (setField (Reg.posSelGen x.1) 32 32 0) : Act Unit)) =
      scdRecordWrite (s.m.reg Reg.cntScdBase + 576 *
        (s.m.scdGroups.length * (s.m.reg Reg.cntScdSeq % 2 ^ min 16 (bits (s.m.reg Reg.cntScdCtl) 4 0)))) (s.m.scdRecord (s.m.reg Reg.cntScdSeq)) :=
    funext fun x => by rw [scdRecordWrite, Nat.mul_add, ← Nat.add_assoc]
  rw [exec, execScorecardTick, State.doing_live s _ hl, run_bind, run_get]
  dsimp only
  rw [hctl, run_whenA_true, run_bind]
  show State.becomes s _ = _
  simp only [run_bind, run_wr]
  rw [← hstep]

/-! ## Island counters in an idle step -/

/-- A fold of additions in a table, one for each key. -/
theorem read_foldl_put {d : Nat → Nat} (g : Nat → Nat → Nat) (l : List Nat) (hn : l.Nodup) (t : Tab Nat) (hw : Tab.wf d t = true) (i : Nat) :
    Tab.read d (l.foldl (fun t k => Tab.put d t k (g k (Tab.read d t k))) t) i = if i ∈ l then g i (Tab.read d t i) else Tab.read d t i := by
  induction l generalizing t with
  | nil => simp
  | cons k l ih =>
    obtain ⟨hk, hl⟩ := List.nodup_cons.1 hn
    rw [List.foldl_cons, ih hl _ (Tab.wf_put _ _ _ _ hw)]
    by_cases hik : i = k
    · rw [hik, if_neg hk, Tab.read_put_self _ _ _ _ hw, if_pos List.mem_cons_self]
    · rw [Tab.read_put_other _ _ _ _ _ hik]
      simp [hik]

theorem M.idle_island {s : M} (hw : s.wf = true) {i : Nat} (hi : i < 179) :
    s.idle.island i = trunc 64 (s.island i + Config.tickCycles s.ticks i) := by
  have hisl : Tab.wf (fun _ => 0) s.isl = true := by simp_all [M.wf]
  have h := read_foldl_put (fun k x => trunc 64 (x + Config.tickCycles s.ticks k)) (List.range 179) List.nodup_range s.isl hisl i
  rw [if_pos (List.mem_range.2 hi)] at h
  simp only [M.island, M.idle]
  exact h

theorem M.idle_eq (s : M) : s.idle = { s with isl := s.idle.isl, ticks := s.ticks + 1 } := by
  unfold M.idle
  generalize List.foldl _ _ _ = t
  rfl

theorem step_nil {s : State} (h : s.pending = []) : step s = s.becomes s.m.idle := by
  obtain ⟨m, pending⟩ := s
  subst h
  rfl

/-- Settles O60: each command writes the registers of its counter, select, window or scorecard, and the counted access of a control core
touches none of them but the counters. -/
theorem countersAndScorecards : Obligations.CountersAndScorecards := by
  unfold Obligations.CountersAndScorecards
  intro s hl hw
  refine ⟨?_, ?_, ?_, ?_, ?_, ?_, ?_, ?_, ?_⟩
  · intro pos c code n who hc sel m counts v
    refine ⟨posCount_silent, fun h => ?_⟩
    have hm : m = _ := run_posCount_counts h
    obtain ⟨-, hen, hcode, hn, -⟩ := h
    rw [hm]
    exact countAt_counts ⟨hen, hcode, hn⟩ hw (by simp only [Reg.posCnt, Reg.posCntOvf]; omega)
  · intro i c v hi hc w ha m0
    rw [exec_counterSelectWrite hl ha, exec_counterWrite hl ha]
    have hsel : (selWrite 0 i c v m0).2 = (posSelWrite i c (s.m.runningAt i) v m0).2 := by
      rw [← s.m.accessed_runningAt w hi]
      simp [selWrite, hc, m0]
    refine ⟨fun hok => ⟨_, rfl, ?_⟩, fun hno => ?_, ?_⟩
    · have h := run_posSelWrite (i := i) (who := s.m.runningAt i) (M.wf_accessed hw w) hc hok
      rw [M.accessed_posSelGen] at h
      exact hsel ▸ h
    · show s.becomes (selWrite 0 i c v m0).2 = _
      rw [hsel, posSelWrite, hno]
      rfl
    · rw [counterSet, run_whenA, if_pos (by simpa using hc)]
      rfl
  · intro i c v hi hc w ha m0
    rw [exec_counterSelectWrite hl ha, exec_counterWrite hl ha]
    refine ⟨fun hok => ⟨_, rfl, ?_⟩, fun hno => ?_, ?_⟩
    · have h := sameBut_select (M.wf_accessed hw w) (sel := Reg.cntESel i c) (gen := Reg.ioSelGen (152 + i))
        (by simp only [Reg.cntESel, Reg.ioSelGen]; omega) (v &&& 0xDC0003FF)
      rw [M.accessed_ioSelGen _ _ (by omega)] at h
      simpa [selWrite, portSelWrite, hi, hok] using h
    · simp [selWrite, portSelWrite, hno, m0]
    · simp [counterSet, hi, m0]
  · intro i c v hi hc w ha m0
    rw [exec_counterSelectWrite hl ha, exec_counterWrite hl ha]
    refine ⟨fun hok => ⟨_, rfl, ?_⟩, fun hno => ?_, ?_⟩
    · have h := sameBut_select (M.wf_accessed hw w) (sel := Reg.cntRSel i c) (gen := Reg.ioSelGen (168 + i))
        (by simp only [Reg.cntRSel, Reg.ioSelGen]; omega) (v &&& 0xC00003FF)
      rw [M.accessed_ioSelGen _ _ (by omega)] at h
      simpa [selWrite, relaySelWrite, hi, hok] using h
    · simp [selWrite, relaySelWrite, hno, m0]
    · simp [counterSet, hi, m0]
  · intro n tx rx
    rw [exec, execBandwidthWindowEnd, State.doing_live s _ hl, run_upd]
  · intro n w hn ha v
    exact exec_cntBwReadLatch hl hn ha
  · intro w v ha m0 ctl may
    have hctl : m0.reg Reg.cntScdCtl = ctl := M.accessed_reg _ _ (by decide)
    have hmay : (bit (m0.reg Reg.mgtReadyMap) 121 && m0.scdFits (bits v 4 0)) = true ↔ may := by
      rw [M.accessed_reg _ _ (by decide), M.accessed_scdFits, Bool.and_eq_true]
    have hwm : m0.wf = true := M.wf_accessed hw w
    rw [exec_cntScdEnable hl ha]
    refine ⟨fun hv => ?_, fun hv h => ?_, fun hv hoff h => ?_⟩
    · rw [run_scdCtl_disable hv]
      show s.becomes (m0.setReg _ (if bit (m0.reg _) 31 = true then bits (m0.reg _) 4 0 else _)) = _
      rw [hctl]
    · by_cases hon : bit ctl 31 = true
      · rw [run_scdCtl_running hv (hctl.symm ▸ hon)]
      · rw [run_scdCtl_stopped hv (hctl.symm ▸ Bool.not_eq_true _ ▸ hon), if_neg (mt hmay.1 (h.resolve_left hon))]
    · rw [run_scdCtl_stopped hv (hctl.symm ▸ hoff), if_pos (hmay.2 h)]
      refine ⟨_, rfl, ?_, ?_, (((M.sameBut.refl m0 _).setReg (by simp) _).setReg (by simp) _).setReg (by simp) _⟩
      · rw [M.reg_setReg_other _ _ (by decide), M.reg_setReg_other _ _ (by decide), M.reg_setReg_self _ _ _ hwm]
      · rw [M.reg_setReg_other _ _ (by decide), M.reg_setReg_self _ _ _ (M.wf_setReg _ _ hwm)]
  · intro ctl seq groups base frame
    refine ⟨fun h => ?_, fun hon hbase => ?_⟩
    · rw [exec, execScorecardTick, State.doing_live s _ hl, run_bind, run_get]
      dsimp only
      rw [show bit (s.m.reg Reg.cntScdCtl) 31 = false from h, run_whenA_false]
    · rw [exec_scorecardTick hl hon]
      obtain ⟨hwf, hbytes, hothers, hcores, -⟩ :=
        forA_scdRecordWrite_writes (frame := frame) (by omega) (s.m.length_scdRecord seq) groups 0 s.m hw
      refine ⟨_, rfl, fun j i h => ?_, fun a ha => hothers a (by omega), ?_, M.reg_setReg_self _ _ _ (M.wf_setReg _ _ hwf), hcores⟩
      · rw [M.bytes_setReg, M.bytes_setReg, ← Nat.zero_add j]
        exact hbytes j i h
      · rw [M.reg_setReg_other _ _ (by decide), M.reg_setReg_self _ _ _ hwf]
  · intro hp
    refine ⟨?_, fun i hi => M.idle_island hw hi⟩
    rw [step_nil hp, ← M.idle_eq]

end Sys2Proof.Machine

/-! # What the sending of messages leaves as it was (R248 to R269)

A property that neither errors and events that are noted undo, nor the stores, nor the transport's own state, its frames and its counters, is
kept by every action of the sending end. -/

namespace Sys2Proof.Machine

/-- The counters of the ports, of the Relay engines and of the transport. -/
def Reg.ofTraffic (o : Nat) : Prop := (0x310000 ≤ o ∧ o < 0x3A0000) ∨ o ∈ [Reg.trnCtxMisses, Reg.trnCtxStalls, Reg.trnRetx, Reg.trnDrops]

/-- The keys of a port without the packet numbers of its SAKs, which frames move. -/
def PortKeys.still (k : PortKeys) : PortKeys := { k with saks := k.saks.map fun a => { a with next := 1, low := 1 } }

/-- A Rally with messages posted or stopped, packets sent again, statuses noted or the context used; it may open if it was FREE or FAILED. -/
structure Rally.eases (r r' : Rally) : Prop where
  rest : { r' with
    msgs := r.msgs, stats := r.stats, ins := r.ins, unacked := r.unacked, onChip := r.onChip, loading := r.loading, used := r.used,
    out := r.out, openSeq := r.openSeq, openSends := r.openSends, rr := r.rr, paths := r.paths } = r
  unacked : r'.unacked.map (·.psn) = r.unacked.map (·.psn)
  msgs : ∀ y ∈ r'.msgs, y.mseq = none ∨ ∃ x ∈ r.msgs, x.mseq = y.mseq
  opened : r.out = 1 ∨ r.out = 2 → r'.out = r.out ∧ r'.openSeq = r.openSeq
  onChip : r.onChip = true → r'.onChip = true

theorem Rally.eases.refl (r : Rally) : r.eases r := ⟨rfl, rfl, fun y hy => .inr ⟨y, hy, rfl⟩, fun _ => ⟨rfl, rfl⟩, id⟩

theorem Rally.eases.trans {r r' r'' : Rally} (h : r.eases r') (k : r'.eases r'') : r.eases r'' where
  rest := by
    have h2 := (congrArg (fun x : Rally => ({ x with
      msgs := r.msgs, stats := r.stats, ins := r.ins, unacked := r.unacked, onChip := r.onChip, loading := r.loading, used := r.used,
      out := r.out, openSeq := r.openSeq, openSends := r.openSends, rr := r.rr, paths := r.paths } : Rally)) k.rest :)
    exact h2.trans h.rest
  unacked := k.unacked.trans h.unacked
  msgs y hy := (k.msgs y hy).elim .inl fun ⟨x, hx, he⟩ => (h.msgs x hx).imp (he ▸ ·) fun ⟨z, hz, hze⟩ => ⟨z, hz, hze.trans he⟩
  opened ho := by
    obtain ⟨hout, hseq⟩ := h.opened ho
    obtain ⟨hout', hseq'⟩ := k.opened (by rwa [hout])
    exact ⟨hout'.trans hout, hseq'.trans hseq⟩
  onChip ho := k.onChip (h.onChip ho)

/-- A Rally as it starts to open. -/
theorem Rally.eases_opening {r : Rally} (h : r.out = 0 ∨ r.out = 3) (seq n : Nat) : r.eases { r with out := 1, openSeq := seq, openSends := n } :=
  ⟨rfl, rfl, fun y hy => .inr ⟨y, hy, rfl⟩, fun ho => by omega, id⟩

/-- The transport with Rallies that have been eased. -/
def Transport.eases (a b : Transport) : Prop := Tab.wf Rally.init a.rallies = true →
  Tab.wf Rally.init b.rallies = true ∧ (∀ n, (Tab.read Rally.init a.rallies n).eases (Tab.read Rally.init b.rallies n)) ∧
    b.tkUsed = a.tkUsed ∧ b.tkPeers = a.tkPeers

theorem Transport.eases_clock (a : Transport) (n : Nat) : a.eases { a with clock := n } :=
  fun hw => ⟨hw, fun _ => .refl _, rfl, rfl⟩

theorem Transport.eases_put {a : Transport} {n : Nat} {r : Rally} (h : (Tab.read Rally.init a.rallies n).eases r) :
    a.eases { a with rallies := Tab.put Rally.init a.rallies n r } := fun hw => by
  refine ⟨Tab.wf_put _ _ _ _ hw, fun k => ?_, rfl, rfl⟩
  by_cases hk : k = n
  · rw [hk, Tab.read_put_self _ _ _ _ hw]
    exact h
  · rw [Tab.read_put_other _ _ _ _ _ hk]
    exact .refl _

/-- A property that no frame sent undoes. -/
structure AboutSending (P : M → Prop) : Prop where
  count : ∀ {t o} v, Reg.ofTraffic o → P t → P (t.setReg o v)
  out : ∀ {t} o, P t → P (M.out t o)
  ports : ∀ {t : M} {l}, l.map PortKeys.still = t.sec.ports.map PortKeys.still → P t → P { t with sec := { t.sec with ports := l } }
  trn : ∀ {t : M} {x}, t.trn.eases x → P t → P { t with trn := x }
  isl : ∀ {t : M} x, P t → P { t with isl := x }

/-- A property that no message sent undoes, and no use of the stores. -/
structure AboutTraffic (P : M → Prop) : Prop extends AboutNotes P, AboutSending P where
  draw : ∀ {t : M}, P t → P { t with free := t.free + 1 }

theorem keeps_whenA_of {P : M → Prop} {c : Bool} {a : Act Unit} (ha : c = true → Keeps P a) : Keeps P (whenA c a) := by
  cases c with
  | false => exact keeps_pure ()
  | true => exact ha rfl

theorem M.port_lt {s : M} {p : Nat} (h : s.portUp p = true) : p < 64 := by
  simp only [M.portUp, Bool.and_eq_true, decide_eq_true_eq] at h
  exact h.1.1.2.trans_le s.nPorts_le

theorem M.pathPort_lt {s : M} {k p : Nat} (h : s.pathPort k = some p) : p < 64 :=
  List.mem_range.1 (List.mem_of_mem_filter (List.mem_of_getElem? h))

theorem M.pathPort_getD_lt (s : M) (k : Nat) : (s.pathPort k).getD 0 < 64 := by
  cases h : s.pathPort k with
  | none => decide
  | some p => exact M.pathPort_lt h

/-- A frame that takes the next packet number of its port's SAK leaves the keys as they were. -/
theorem PortKeys.still_usePn (p : Nat) (l : List PortKeys) :
    (l.map fun k => if k.port = p then { k with saks := k.saks.modify 0 fun a => { a with next := trunc 64 (a.next + 1) } } else k).map
      PortKeys.still = l.map PortKeys.still := by
  rw [List.map_map]
  refine List.map_congr_left fun k _ => ?_
  simp only [Function.comp]
  split
  · cases h : k.saks <;> simp [PortKeys.still, h]
  · rfl

namespace AboutSending

variable {P : M → Prop} (hP : AboutSending P)
include hP

theorem keeps_inc64 {o : Nat} (ho : Reg.ofTraffic o) : Keeps P (inc64 o) := fun _ h => hP.count _ ho h

theorem countAt {t : M} {cnt ovf : Nat} (hc : Reg.ofTraffic cnt) (ho : Reg.ofTraffic ovf) (sel c code n : Nat) (h : P t) :
    P (Machine.countAt cnt sel ovf c code n t) := by
  unfold Machine.countAt
  dsimp only
  split
  · generalize t.reg cnt + (if bit (t.reg sel) 30 then 1 else n) = v
    have hcnt := hP.count (trunc 64 v) hc h
    split
    · exact hcnt
    · exact hP.count _ ho hcnt
  · exact h

theorem keeps_relayEvent {e : Nat} (he : e < 4) (code n : Nat) : Keeps P (relayEvent e code n) := fun s h => by
  rw [relayEvent, run_modify]
  refine List.foldlRecOn _ _ h fun t ht c hc => hP.countAt ?_ ?_ _ _ _ _ ht
  · have := List.mem_range.1 hc
    exact .inl (by simp only [Reg.cntR]; omega)
  · exact .inl (by simp only [Reg.cntROvf]; omega)

theorem keeps_portCount {p : Nat} (hp : p < 64) (code n : Nat) : Keeps P (portCount p code n) := keeps_getThen fun s t h => by
  have hctrl : (s.portPlace p).1 < 128 := by
    unfold M.portPlace
    split <;> dsimp only <;> omega
  rw [portEvent, run_modify]
  refine List.foldlRecOn _ _ h fun u hu c hc => ?_
  have := List.mem_range.1 hc
  split
  · refine hP.countAt (.inl ?_) (.inl ?_) _ _ _ _ hu
    · simp only [Reg.cntE]; omega
    · simp only [Reg.cntEOvf]; omega
  · exact hu

/-- The Rally with a peer is eased. -/
theorem updRally {t : M} {n : Nat} {f : Rally → Rally} (hf : (t.rally n).eases (f (t.rally n))) (h : P t) : P (Machine.updRally n f t).2 :=
  hP.trn (Transport.eases_put hf) h

theorem keeps_updRally (n : Nat) {f : Rally → Rally} (hf : ∀ r : Rally, r.eases (f r)) : Keeps P (Machine.updRally n f) := fun _ h => hP.updRally (hf _) h

/-- A Rally whose context, path or count of OPENs changes. -/
theorem keeps_updContext (n : Nat) {f : Rally → Rally} (hf : ∀ r, ∃ c l u k x paths,
    f r = { r with onChip := r.onChip || c, loading := l, used := u, openSends := k, rr := x, paths := paths }) : Keeps P (Machine.updRally n f) :=
  hP.keeps_updRally n fun r => by
    obtain ⟨c, l, u, k, x, paths, h⟩ := hf r
    rw [h]
    exact ⟨rfl, rfl, fun y hy => .inr ⟨y, hy, rfl⟩, fun _ => ⟨rfl, rfl⟩, fun ho => by simp [ho]⟩

theorem keeps_setNow (now : Nat) : Keeps P (setNow now) := fun _ h => hP.isl _ h

theorem keeps_emitFrame {p : Nat} (hp : p < 64) (o : Output) : Keeps P (emitFrame p o) :=
  keeps_getThen fun _ => keeps_whenA (keeps_bind (fun _ h => hP.out o h) fun _ =>
    keeps_bind (keeps_whenA fun _ h => hP.ports (PortKeys.still_usePn _ _) h) fun _ => hP.keeps_portCount hp _ _)

theorem keeps_sendFrame (p dst psn : Nat) (ctrl : Bool) (packet : List Byte) : Keeps P (sendFrame p dst psn ctrl packet) :=
  keeps_getThen fun s => keeps_whenA_of fun hc => by
    have hp : p < 64 := M.port_lt (Bool.and_eq_true _ _ ▸ hc).1
    exact keeps_bind (hP.keeps_emitFrame hp _) fun _ => keeps_whenA (hP.keeps_portCount hp _ _)

theorem keeps_sendControl (peer k typ flags b12 b16 : Nat) (payload : List Byte) (b8 : Nat) :
    Keeps P (sendControl peer k typ flags b12 b16 payload b8) := keeps_getThen fun s => by
  split
  · exact keeps_pure _
  · exact hP.keeps_sendFrame _ _ _ _ _

theorem keeps_sendOpen (peer : Nat) : Keeps P (sendOpen peer) := by
  have hopens := hP.keeps_updContext peer (f := fun r => { r with openSends := r.openSends + 1 }) fun r =>
    ⟨false, r.loading, r.used, r.openSends + 1, r.rr, r.paths, by simp⟩
  refine keeps_getThen fun s => keeps_bind hopens fun _ => ?_
  split
  · exact keeps_pure _
  next k _ =>
    have hpath := hP.keeps_updContext peer (f := fun r => { r with rr := k + 1 }) fun r =>
      ⟨false, r.loading, r.used, r.openSends, k + 1, r.paths, by simp⟩
    exact keeps_bind hpath fun _ => hP.keeps_sendControl _ _ _ _ _ _ _ _

/-- A Rally that is FREE or FAILED opens. -/
theorem startOpen {t : M} {peer : Nat} (ho : (t.rally peer).out = 0 ∨ (t.rally peer).out = 3) (h : P t) : P (Machine.startOpen peer t).2 := by
  rw [Machine.startOpen, run_bind]
  exact hP.keeps_sendOpen peer _ (hP.updRally (f := fun r => { r with out := 1, openSeq := trunc 32 (r.openSeq + 1), openSends := 0 })
    (Rally.eases_opening ho _ _) h)

/-- A Rally that opens where it is FREE or FAILED. -/
theorem keeps_opens (peer : Nat) (c : M → Bool) : Keeps P (do
    let s ← get
    whenA (c s && ((s.rally peer).out == 0 || (s.rally peer).out == 3)) (Machine.startOpen peer)) := fun s h => by
  rw [run_bind, run_get, run_whenA]
  split
  next hc =>
    refine hP.startOpen ?_ h
    have ho := ((Bool.and_eq_true _ _).mp hc).2
    rwa [Bool.or_eq_true, beq_iff_eq, beq_iff_eq] at ho
  · exact h

theorem keeps_touchCtx (peer : Nat) : Keeps P (touchCtx peer) :=
  keeps_getThen fun s => keeps_bind (fun _ h => hP.trn (Transport.eases_clock _ _) h) fun _ => hP.keeps_updContext peer fun r =>
    ⟨false, r.loading, s.trn.clock, r.openSends, r.rr, r.paths, by simp⟩

theorem keeps_needCtx (peer : Nat) : Keeps P (needCtx peer) :=
  have htouch := hP.keeps_touchCtx peer
  have hchip := hP.keeps_updContext peer (f := fun r => { r with onChip := true }) fun r =>
    ⟨true, r.loading, r.used, r.openSends, r.rr, r.paths, by simp⟩
  have hload := hP.keeps_updContext peer (f := fun r => { r with loading := true }) fun r =>
    ⟨false, true, r.used, r.openSends, r.rr, r.paths, by simp⟩
  keeps_getThen fun _ => keeps_ite (keeps_bind htouch fun _ => keeps_pure _)
    (keeps_ite (keeps_pure _)
      (keeps_ite (keeps_bind hchip fun _ => keeps_bind htouch fun _ => keeps_pure _)
        (keeps_ite (keeps_bind hload fun _ => keeps_bind (hP.keeps_inc64 (.inr (by simp))) fun _ => keeps_pure _)
          (keeps_pure _))))

theorem keeps_postMessage (peer : Nat) (x : OutMsg) (hx : x.mseq = none := by rfl) : Keeps P (postMessage peer x) := by
  have hpost : ∀ r : Rally, r.eases { r with msgs := r.msgs ++ [x] } := fun r =>
    ⟨rfl, rfl, fun y hy => (List.mem_append.1 hy).elim (fun h => .inr ⟨y, h, rfl⟩) fun h => .inl (List.mem_singleton.1 h ▸ hx),
      fun _ => ⟨rfl, rfl⟩, id⟩
  exact keeps_getThen fun _ => keeps_whenA (keeps_bind (hP.keeps_updRally peer hpost) fun _ =>
    keeps_whenA (keeps_bind (hP.keeps_needCtx peer) fun c => hP.keeps_opens peer fun _ => c.1))

theorem keeps_queueStatus (peer : Nat) (st : Nat × Nat × Nat × Nat) : Keeps P (queueStatus peer st) :=
  have hstat : ∀ r : Rally, r.eases { r with stats := r.stats ++ [st] } := fun _ =>
    ⟨rfl, rfl, fun y hy => .inr ⟨y, hy, rfl⟩, fun _ => ⟨rfl, rfl⟩, id⟩
  keeps_bind (hP.keeps_updRally peer hstat) fun _ => hP.keeps_opens peer fun s => (s.rally peer).onChip

theorem keeps_takeRate (peer k n : Nat) : Keeps P (takeRate peer k n) := keeps_getThen fun _ => hP.keeps_updContext peer fun r =>
  ⟨false, r.loading, r.used, r.openSends, r.rr, _, by rw [Bool.or_false]; rfl⟩

theorem keeps_sendPkt (peer : Nat) (p : Pkt) (k : Nat) (retx : Bool) : Keeps P (sendPkt peer p k retx) :=
  keeps_getThen fun s => keeps_bind (hP.keeps_takeRate _ _ _) fun _ => by
    split
    · exact keeps_pure _
    next port h =>
      have hp := M.pathPort_lt h
      exact keeps_bind (hP.keeps_sendFrame _ _ _ _ _) fun _ =>
        keeps_whenA (keeps_bind (hP.keeps_portCount hp _ _) fun _ => hP.keeps_portCount hp _ _)

theorem keeps_retransmit (peer : Nat) (p : Pkt) : Keeps P (retransmit peer p) := keeps_getThen fun s => by
  split
  · exact keeps_pure _
  · refine keeps_bind (hP.keeps_updRally peer fun r => ⟨rfl, ?_, fun y hy => .inr ⟨y, hy, rfl⟩, fun _ => ⟨rfl, rfl⟩, id⟩) fun _ =>
      keeps_bind (hP.keeps_inc64 (.inr (by simp))) fun _ => ?_
    · rw [List.map_map]
      refine List.map_congr_left fun q _ => ?_
      simp only [Function.comp]
      split <;> rfl
    · split
      · exact hP.keeps_sendPkt _ _ _ _
      next port h => exact keeps_bind (hP.keeps_portCount (M.pathPort_lt h) _ _) fun _ => hP.keeps_sendPkt _ _ _ _

theorem keeps_sendProbe (peer k : Nat) : Keeps P (sendProbe peer k) := keeps_getThen fun s => by
  split
  · exact keeps_pure _
  next port h =>
    exact keeps_bind (keeps_whenA (hP.keeps_portCount (M.pathPort_lt h) _ _)) fun _ => hP.keeps_sendControl _ _ _ _ _ _ _ _

theorem keeps_stopMessages (p : Owner → Bool) : Keeps P (stopMessages p) := by
  refine keeps_getThen fun s => keeps_forA fun n => hP.keeps_updRally n fun r => ⟨rfl, rfl, fun y hy => ?_, fun _ => ⟨rfl, rfl⟩, id⟩
  obtain ⟨x, hx, rfl⟩ := List.mem_map.1 hy
  refine .inr ⟨x, List.mem_of_mem_filter hx, ?_⟩
  split <;> rfl

theorem keeps_abortInbound (e group seq : Nat) : Keeps P (abortInbound e group seq) :=
  keeps_getThen fun _ => keeps_forA fun n => keeps_whenA (keeps_bind
    (hP.keeps_updRally n fun _ => ⟨rfl, rfl, fun y hy => .inr ⟨y, hy, rfl⟩, fun _ => ⟨rfl, rfl⟩, id⟩) fun _ =>
      keeps_forA fun _ => hP.keeps_queueStatus _ _)

end AboutSending

namespace AboutTraffic

variable {P : M → Prop} (hP : AboutTraffic P)
include hP

theorem keeps_freeVal (w : Nat) : Keeps P (freeVal w) := fun _ h => hP.draw h

theorem keeps_scramble (a n : Nat) : Keeps P (scramble a n) :=
  keeps_bind (keeps_mapA fun _ => hP.keeps_freeVal 8) fun _ => keeps_bind (hP.keeps_writeBytes _ _) fun _ => keeps_pure _

theorem keeps_scrambleOuts (outs : List (Nat × Nat)) : Keeps P (scrambleOuts outs) := keeps_forA fun _ => hP.keeps_scramble _ _

theorem keeps_writeRunAux (fuel a len v : Nat) (bad : List Nat) : Keeps P (writeRunAux fuel a len v bad) := by
  induction fuel generalizing a len v with
  | zero => exact keeps_pure _
  | succ fuel ih =>
    have hput : ∀ l (d : M → List Byte) p, Keeps P (modify fun s : M => s.putLine l (d s) p : Act Unit) :=
      fun l d p _ h => hP.putLine l _ p h
    have hrest := fun x a len v => keeps_bind (keeps_pure (P := P) x) fun d : Bool =>
      keeps_bind (ih a len v) fun d' => keeps_pure (d || d')
    exact keeps_ite (keeps_pure _) (keeps_ite (keeps_bind (hput _ _ _) fun _ => hrest _ _ _ _)
      (keeps_bind (hP.keeps_readLine _) fun _ => keeps_ite (hrest _ _ _ _) (keeps_bind (hput _ _ _) fun _ => hrest _ _ _ _)))

theorem keeps_writeRun (a len v : Nat) (bad : List Nat) : Keeps P (writeRun a len v bad) := hP.keeps_writeRunAux _ _ _ _ _

theorem keeps_writeElems (t : TD) (bad : List Nat) (fuel x : Nat) (codes : List Nat) : Keeps P (writeElems t bad fuel x codes) := by
  induction fuel generalizing x codes with
  | zero => exact keeps_pure _
  | succ fuel ih =>
    exact keeps_ite (keeps_pure _) (keeps_bind (hP.keeps_writeRun _ _ _ _) fun _ => keeps_bind (ih _ _) fun _ => keeps_pure _)

theorem keeps_writePlain (t : TD) (x : Nat) (codes : List Nat) (lost : List Bool) (scales : List Nat) :
    Keeps P (writePlain t x codes lost scales) :=
  keeps_bind (hP.keeps_writeElems _ _ _ _ _) fun _ => keeps_bind (keeps_mapA fun _ => hP.keeps_writeRun _ _ _ _) fun _ => keeps_pure _

theorem keeps_scrambleUpdate (f : InFlight) : Keeps P (scrambleUpdate f) :=
  keeps_bind (keeps_forA fun _ => keeps_forA fun _ => keeps_ite (keeps_pure _)
    (keeps_ite (keeps_forA fun _ => hP.keeps_scramble _ _) (hP.keeps_scramble _ _))) fun _ => keeps_forA fun _ => hP.keeps_scramble _ _

end AboutTraffic

end Sys2Proof.Machine

/-! # What the abort of a record leaves as it was (R136, R239, R266, R290)

An abort takes a record's work from the Relay engines, the update units and the slots, and marks the record itself. A property that messages
do not undo, nor the Relay engines' state, nor a change of the slots and of what the records in flight have come to, is kept. -/

namespace Sys2Proof.Machine

/-- The ring holds the same records in flight, in the same order, and those that were aborted are; nothing else of it has changed. -/
structure Ring.eases (g g' : Ring) : Prop where
  rest : { g' with infl := g.infl } = g
  infl : ∃ h : InFlight → InFlight, g'.infl = g.infl.map h ∧ ∀ f, (h f).x = f.x ∧ (f.aborted = true → (h f).aborted = true)

theorem Ring.eases.refl (g : Ring) : g.eases g := ⟨rfl, id, by simp, fun _ => ⟨rfl, id⟩⟩

/-- The core has the same rings, but for what its records in flight have come to; nothing else of it has changed but its slots, and
the shadows that it has lost. -/
structure Core.eases (c c' : Core) : Prop where
  rest : { c' with ringF := c.ringF, ringM := c.ringM, ringV := c.ringV, ringS := c.ringS, slotA := c.slotA, slotB := c.slotB, shadows := c.shadows } = c
  ring : ∀ e, (c.ring e).eases (c'.ring e)
  shadows : ∀ h ∈ c'.shadows, h ∈ c.shadows

theorem Core.eases_setSlot (c : Core) (k : Nat) (sl : Slot) : c.eases (c.setSlot k sl) := by
  refine ⟨?_, fun e => by rw [Core.ring_setSlot]; exact .refl _, fun h hh => ?_⟩
  · unfold Core.setSlot
    split <;> rfl
  · unfold Core.setSlot at hh
    split at hh <;> exact hh

theorem Core.eases_shadows (c : Core) (p : Shadow → Bool) : c.eases { c with shadows := c.shadows.filter p } :=
  ⟨rfl, fun e => by match e with | 0 | 1 | 2 | _ + 3 => exact .refl _, fun _ hh => (List.mem_filter.1 hh).1⟩

theorem Core.eases_setRing {c : Core} {e : Nat} {g : Ring} (h : (c.ring e).eases g) : c.eases (c.setRing e g) := by
  refine ⟨by match e with | 0 | 1 | 2 | _ + 3 => rfl, fun k => ?_, fun x hx => ?_⟩
  case refine_2 => match e, hx with | 0, hx | 1, hx | 2, hx | _ + 3, hx => exact hx
  match e, k, h with
  | 0, 0, h | 1, 1, h | 2, 2, h | _ + 3, _ + 3, h => exact h
  | 0, 1, _ | 0, 2, _ | 0, _ + 3, _ | 1, 0, _ | 1, 2, _ | 1, _ + 3, _ | 2, 0, _ | 2, 1, _ | 2, _ + 3, _ | _ + 3, 0, _ | _ + 3, 1, _ |
    _ + 3, 2, _ => exact .refl _

/-- A record in flight as an abort of record x leaves it: done, and nothing awaited of it. -/
def InFlight.reached (x : Nat) (f : InFlight) : InFlight :=
  if f.x = x then { f with started := true, done := true, aborted := true, held := false, pred := [], obs := [] } else f

theorem InFlight.reached_eases (x : Nat) (f : InFlight) : (f.reached x).x = f.x ∧ (f.aborted = true → (f.reached x).aborted = true) := by
  unfold InFlight.reached
  split
  · exact ⟨rfl, fun _ => rfl⟩
  · exact ⟨rfl, id⟩

/-- The registers of the verdicts, of the collectives' ends, and of the missed shadows. -/
def Reg.ofAborts (o : Nat) : Prop := (0x240008 ≤ o ∧ o < 0x240018) ∨ (0x240200 ≤ o ∧ o < 0x240400) ∨ (0x260020 ≤ o ∧ o ≤ 0x260040) ∨
  o = Reg.chkMissed

/-- A property that no abort of a record undoes. -/
structure AboutAborts (P : M → Prop) : Prop extends AboutTraffic P where
  abort : ∀ {t o} v, Reg.ofAborts o → P t → P (t.setReg o v)
  rly : ∀ {t : M} x, P t → P { t with rly := x }
  core : ∀ {t : M} {n c}, (t.core n).eases c → P t → P (t.setCore n c)

namespace AboutAborts

variable {P : M → Prop} (hP : AboutAborts P)
include hP

theorem keeps_wr_abort {o : Nat} (ho : Reg.ofAborts o) (v : Nat) : Keeps P (wr o v) := fun _ h => hP.abort v ho h

theorem keeps_inc64_abort {o : Nat} (ho : Reg.ofAborts o) : Keeps P (inc64 o) := fun _ h => hP.abort _ ho h

theorem keeps_updEng (e : Nat) (f : RelayEng → RelayEng) : Keeps P (updEng e f) := fun _ h => hP.rly _ h

theorem keeps_updColl (e group seq : Nat) (f : Coll → Coll) : Keeps P (updColl e group seq f) := hP.keeps_updEng _ _

theorem keeps_updSlot (n k : Nat) (f : Slot → Slot) : Keeps P (updSlot n k f) := fun t h => hP.core ((t.core n).eases_setSlot k _) h

/-- Records in flight that come to something else. -/
theorem keeps_easeRing {n e : Nat} {f : InFlight → InFlight} (hf : ∀ x, (f x).x = x.x ∧ (x.aborted = true → (f x).aborted = true)) :
    Keeps P (updRing n e fun g => { g with infl := g.infl.map f }) := fun _ h => hP.core (Core.eases_setRing ⟨rfl, f, rfl, hf⟩) h

theorem keeps_endRingOp (n x status flags result : Nat) : Keeps P (endRingOp n x status flags result) :=
  hP.keeps_easeRing fun f => by split <;> exact ⟨rfl, id⟩

theorem keeps_endQueueOp (g : GroupRec) (group x status flags result : Nat) : Keeps P (endQueueOp g group x status flags result) :=
  keeps_bind (hP.keeps_freeVal _) fun _ => keeps_bind (hP.keeps_writeBytes _ _) fun _ => keeps_bind (hP.keeps_writeBytes _ _) fun _ =>
    fun _ h => hP.rly _ h

/-- The events of a Relay engine. -/
theorem events {e : Nat} (he : e < 4) (code k : Nat) : Keeps P (relayEvent e code k) := hP.keeps_relayEvent he code k

theorem keeps_countEnd {e : Nat} (he : ∀ code k, Keeps P (relayEvent e code k)) (status : Nat) : Keeps P (countEnd e status) := by
  have hev := fun code => he code 1
  have hinc := fun o (ho : 0x260020 ≤ o ∧ o ≤ 0x260040) => hP.keeps_inc64_abort (o := o) (.inr (.inr (.inl ho)))
  unfold countEnd
  split
  · exact hev _
  · exact keeps_bind (hev _) fun _ => hinc _ (by decide)
  · exact keeps_bind (hev _) fun _ => hinc _ (by decide)
  · exact keeps_bind (hev _) fun _ => hinc _ (by decide)
  · exact hev _
  · exact keeps_pure _

theorem keeps_setVerdict {n : Nat} (hn : n < 64) (state fail step : Nat) : Keeps P (setVerdict n state fail step) :=
  keeps_bind (hP.keeps_wr_abort (.inr (.inl (by simp only [Reg.updVerdict]; omega))) _) fun _ =>
    keeps_bind (keeps_whenA (hP.keeps_inc64_abort (.inl (by decide)))) fun _ => keeps_whenA (hP.keeps_inc64_abort (.inl (by decide)))

theorem keeps_closeVerdict (c : Coll) (failed : Bool) (status : Nat) : Keeps P (closeVerdict c failed status) :=
  Machine.keeps_closeVerdict (fun n hn v => hP.keeps_wr_abort (.inr (.inl (by simp only [Reg.updVerdict]; omega))) v)
    (hP.keeps_inc64_abort (.inl (by decide))) (hP.keeps_inc64_abort (.inl (by decide))) c failed status

theorem keeps_writeCounts (c : Coll) : Keeps P (writeCounts c) := hP.keeps_writeElems _ _ _ _ _

theorem keeps_wrapUp (e : Nat) (c : Coll) (failed : Bool) (status : Nat) : Keeps P (wrapUp e c failed status) :=
  keeps_bind (keeps_whenA (hP.keeps_closeVerdict _ _ _)) fun _ => keeps_bind (keeps_whenA (hP.keeps_scrambleOuts _)) fun _ =>
    keeps_whenA (keeps_bind (hP.keeps_stopMessages _) fun _ => hP.keeps_abortInbound _ _ _)

theorem keeps_completeColl (c : Coll) (status : Nat) : Keeps P (completeColl c status) := by
  unfold completeColl
  split
  · exact hP.keeps_endRingOp _ _ _ _ _
  · exact hP.keeps_endQueueOp _ _ _ _ _ _

theorem keeps_endColl {e : Nat} (he : ∀ code k, Keeps P (relayEvent e code k)) (c : Coll) (failed : Bool) (status : Nat) : Keeps P (endColl e c failed status) := fun s h => by
  rw [run_endColl]
  have hcounts := keeps_ite (hP.keeps_writeCounts c) (keeps_pure false) (c := c.cd.op = 4 ∧ (!failed) = true)
  exact keeps_bind (hP.keeps_countEnd he _) (fun _ => keeps_bind (hP.keeps_wrapUp e c failed _) fun _ => hP.keeps_completeColl c _) _
    (hcounts _ (hP.rly _ h))

omit hP in
theorem engOf_lt (group seq : Nat) : engOf group seq < 4 := Nat.mod_lt _ (by decide)

theorem keeps_enqueue (c : Coll) : Keeps P (enqueue c) := keeps_getThen fun _ => keeps_bind (hP.keeps_updEng _ _) fun _ =>
  keeps_whenA (hP.keeps_endColl (hP.events (engOf_lt _ _)) _ _ _)

theorem keeps_readGroup (group : Nat) : Keeps P (readGroup group) := keeps_getThen fun _ => hP.keeps_readLine _

theorem keeps_readDescAt (base i : Nat) : Keeps P (readDescAt base i) := keeps_bind (hP.keeps_readBytes _ _) fun _ => keeps_pure _

theorem keeps_takeQueue (group fuel : Nat) : Keeps P (takeQueue group fuel) := by
  induction fuel with
  | zero => exact keeps_pure _
  | succ fuel ih =>
    refine keeps_getThen fun s => ?_
    dsimp only
    split
    · exact keeps_pure _
    · refine keeps_ite (keeps_pure _) (keeps_bind (hP.keeps_readGroup _) fun _ => keeps_bind (hP.keeps_readBytes _ _) fun _ =>
        keeps_bind (hP.keeps_relayEvent (engOf_lt _ _) _ _) fun _ => keeps_bind (keeps_mapA fun _ => hP.keeps_readDescAt _ _) fun _ =>
          keeps_getThen fun _ => ?_)
      exact keeps_ite (keeps_bind (hP.keeps_endQueueOp _ _ _ _ _ _) fun _ => ih)
        (keeps_ite (keeps_bind (hP.keeps_endQueueOp _ _ _ _ _ _) fun _ => ih) (keeps_bind (hP.keeps_enqueue _) fun _ => ih))

theorem keeps_afterEnd {group : Nat} {agree : Nat → Coll → Act Unit} (ha : ∀ e c, e < 4 → Keeps P (agree e c)) :
    Keeps P (afterEnd group agree) :=
  keeps_getThen fun _ => keeps_bind (keeps_forA_mem fun e he => keeps_forA fun c => ha e c (List.mem_range.1 he)) fun _ =>
    hP.keeps_takeQueue _ _

theorem keeps_sendControlMsg {e : Nat} (he : ∀ code k, Keeps P (relayEvent e code k)) (c : Coll) (rank code index origin flags elems bytes aux : Nat) :
    Keeps P (sendControlMsg e c rank code index origin flags elems bytes aux) :=
  keeps_bind (he _ _) fun _ => hP.keeps_postMessage _ _

theorem keeps_logMismatch (e : Nat) (c : Coll) (node digest : Nat) : Keeps P (logMismatch e c node digest) := by
  refine keeps_bind (hP.keeps_wr_abort (.inr (.inr (.inl (by decide)))) _) fun _ => keeps_getThen fun _ => ?_
  split
  exact hP.keeps_logAdd _ _ _ _ _ _ _

theorem keeps_noGo {e : Nat} (he : ∀ code k, Keeps P (relayEvent e code k)) (c : Coll) (node digest : Nat) : Keeps P (noGo e c node digest) :=
  keeps_bind (keeps_forA fun _ => hP.keeps_sendControlMsg he _ _ _ _ _ _ _ _ _) fun _ =>
    keeps_bind (hP.keeps_logMismatch _ _ _ _) fun _ => hP.keeps_endColl he _ _ _

theorem keeps_goOn {e : Nat} (he : ∀ code k, Keeps P (relayEvent e code k)) (c : Coll) (v : Nat) : Keeps P (goOn e c v) :=
  keeps_bind (hP.keeps_updColl _ _ _ _) fun _ => keeps_bind (keeps_forA fun _ => hP.keeps_sendControlMsg he _ _ _ _ _ _ _ _ _) fun _ =>
    keeps_ite (keeps_bind (hP.keeps_endColl he _ _ _) fun _ => keeps_pure _) (keeps_pure _)

theorem keeps_agreeUp {e : Nat} (he : ∀ code k, Keeps P (relayEvent e code k)) (c : Coll) : Keeps P (agreeUp e c) := by
  have hmsg := fun rank code index origin flags elems bytes aux =>
    hP.keeps_sendControlMsg he c rank code index origin flags elems bytes aux
  refine keeps_getThen fun s => keeps_ite (keeps_pure _) ?_
  dsimp only
  split
  · refine keeps_bind (hP.keeps_updColl _ _ _ _) fun _ => ?_
    split
    · exact keeps_bind (hmsg _ _ _ _ _ _ _ _) fun _ => keeps_pure _
    · exact keeps_bind (hmsg _ _ _ _ _ _ _ _) fun _ => keeps_pure _
  · split
    · exact keeps_bind (hP.keeps_noGo he _ _ _) fun _ => keeps_pure _
    · exact hP.keeps_goOn he _ _

theorem keeps_agree (fuel : Nat) : ∀ e c, e < 4 → Keeps P (agree fuel e c) := by
  induction fuel with
  | zero => exact fun _ _ _ => keeps_pure _
  | succ fuel ih => exact fun e c he => keeps_bind (hP.keeps_agreeUp (hP.events he) c) fun _ => keeps_whenA (hP.keeps_afterEnd ih)

theorem keeps_finishColl {e : Nat} (he : ∀ code k, Keeps P (relayEvent e code k)) (c : Coll) (failed : Bool) (status : Nat) : Keeps P (finishColl e c failed status) :=
  keeps_bind (hP.keeps_endColl he _ _ _) fun _ => hP.keeps_afterEnd (hP.keeps_agree 64)

theorem keeps_failColl {e : Nat} (he : ∀ code k, Keeps P (relayEvent e code k)) (c : Coll) (status : Nat) (heard bad : Option Nat) :
    Keeps P (failColl e c status heard bad) :=
  keeps_getThen fun _ => keeps_bind (keeps_whenA (keeps_forA fun _ => hP.keeps_sendControlMsg he _ _ _ _ _ _ _ _ _)) fun _ =>
    hP.keeps_finishColl he _ _ _

theorem keeps_missShadow (n k : Nat) : Keeps P (missShadow n k) :=
  keeps_getThen fun _ => keeps_bind (fun _ h => hP.abort _ (.inr (.inr (.inr rfl))) h) fun _ =>
    keeps_bind (fun t h => hP.core ((t.core n).eases_shadows _) h) fun _ => hP.keeps_updSlot _ _ _

omit hP in
theorem M.collOf_lt {s : M} {core x e : Nat} {c : Coll} (h : s.collOf core x = some (e, c)) : e < 4 := by
  obtain ⟨k, hk, hc⟩ := List.exists_of_findSome?_eq_some h
  rw [Option.map_eq_some_iff] at hc
  obtain ⟨_, _, hc⟩ := hc
  rw [← (Prod.mk.inj hc).1]
  exact List.mem_range.1 hk

theorem keeps_abortRecord (n e x : Nat) : Keeps P (abortRecord n e x) := by
  have hmark : Keeps P (updRing n e fun g => { g with infl := g.infl.map (InFlight.reached x) }) :=
    hP.keeps_easeRing (InFlight.reached_eases x)
  refine keeps_getThen fun s => ?_
  split
  · exact keeps_pure _
  next f _ =>
    have hfree : ∀ (k : Nat) {a : Act Unit}, Keeps P a → Keeps P (do missShadow n k; updSlot n k fun _ => {}; a) := fun k a ha =>
      keeps_bind (hP.keeps_missShadow _ _) fun _ => keeps_bind (hP.keeps_updSlot _ _ _) fun _ => ha
    have hcoll : Keeps P (match s.collOf n x with | none => pure () | some (k, c) => failColl k c 4 none none) := by
      split
      · exact keeps_pure _
      next k c h => exact hP.keeps_failColl (hP.events (M.collOf_lt h)) _ _ _ _
    have hrest : Keeps P (if f.rcd.op = 0x89 then whenA f.upd.released (scrambleUpdate f)
        else do
          whenA (f.rcd.op == 0x8A) (stopMessages fun o => o == .snapshot n x)
          scrambleOuts f.outs) :=
      keeps_ite (keeps_whenA (hP.keeps_scrambleUpdate _))
        (keeps_bind (keeps_whenA (hP.keeps_stopMessages _)) fun _ => hP.keeps_scrambleOuts _)
    have hend := keeps_ite (c := f.rcd.op = 0x88) hcoll hrest
    refine keeps_ite (keeps_pure _) (keeps_bind hmark fun _ => ?_)
    cases f.slot with
    | none => exact hend
    | some k => exact hfree k hend

end AboutAborts

end Sys2Proof.Machine

/-! # The end of a job on its cores (R137, R311, R314)

What the end of one ring, and of one core, leaves of another, and what it leaves of its own. -/

namespace Sys2Proof.Machine

/-! ## The end of a ring -/

/-- The registers of ring e of core n that its end writes, and those of the core's job state. -/
def Reg.ended (n e : Nat) : List Nat :=
  [Reg.coreRingCtl n e, Reg.coreRingHaltIndex n e, Reg.coreRingState n e, Reg.coreRingAbortResult n e, Reg.coreRingRet n e, Reg.coreRingRd n e] ++
    Reg.jobs n

/-- A property that the end of ring e of core n does not undo. -/
structure AboutEnd (n e : Nat) (P : M → Prop) : Prop extends AboutAborts P where
  own : ∀ {t o} v, o ∈ Reg.ended n e → P t → P (t.setReg o v)
  ring : ∀ {t : M} g, P t → P (t.setCore n ((t.core n).setRing e g))
  irq : ∀ {t : M}, P t → P (t.setCore n ((t.core n).raised 0))

namespace AboutEnd

variable {n e : Nat} {P : M → Prop} (hP : AboutEnd n e P)
include hP

theorem keeps_wr_own {o : Nat} (ho : o ∈ Reg.ended n e) (v : Nat) : Keeps P (wr o v) := fun _ h => hP.own v ho h

theorem keeps_upd_own {o : Nat} (ho : o ∈ Reg.ended n e) (f : Nat → Nat) : Keeps P (upd o f) := fun _ h => hP.own _ ho h

theorem keeps_updRing (f : Ring → Ring) : Keeps P (updRing n e f) := fun _ h => hP.ring _ h

theorem keeps_engEvent (k c x : Nat) : Keeps P (engEvent n k c x) := keeps_getThen fun _ => hP.keeps_posCount _ _ _ _ _ _

theorem keeps_statusEvent (k status : Nat) : Keeps P (statusEvent n k status) := keeps_whenA (hP.keeps_engEvent _ _ _)

theorem keeps_ctlInterrupt : Keeps P (ctlInterrupt n 0) :=
  keeps_getThen fun _ => keeps_bind (fun _ h => hP.irq h) fun _ => hP.keeps_posCount _ _ _ _ _ _

theorem keeps_haltRing (x status : Nat) : Keeps P (haltRing n e x status) :=
  keeps_bind (hP.keeps_upd_own (by simp [Reg.ended]) _) fun _ => keeps_bind (hP.keeps_wr_own (by simp [Reg.ended]) _) fun _ =>
    keeps_bind (hP.keeps_upd_own (by simp [Reg.ended]) _) fun _ => keeps_bind (hP.keeps_upd_own (by simp [Reg.ended]) _) fun _ =>
      keeps_bind (hP.keeps_engEvent _ _ _) fun _ => hP.keeps_ctlInterrupt

theorem keeps_finalStep (finite : Bool) : Keeps P (finalStep n finite) := by
  have hjob : ∀ {o}, o ∈ Reg.jobs n → o ∈ Reg.ended n e := fun h => List.mem_append_right _ h
  have hwr : ∀ {o} v, o ∈ Reg.jobs n → Keeps P (wr o v) := fun v ho => hP.keeps_wr_own (hjob ho) v
  have hupd : ∀ {o} f, o ∈ Reg.jobs n → Keeps P (upd o f) := fun f ho => hP.keeps_upd_own (hjob ho) f
  refine keeps_getThen fun s => keeps_ite (keeps_bind (hupd _ (by simp [Reg.jobs])) fun _ => keeps_getThen fun t => ?_)
    (keeps_bind (hupd _ (by simp [Reg.jobs])) fun _ => keeps_bind (hwr _ (by simp [Reg.jobs])) fun _ =>
      hwr _ (by simp [Reg.jobs]))
  exact keeps_ite (keeps_bind (hwr _ (by simp [Reg.jobs])) fun _ => hwr _ (by simp [Reg.jobs])) (hwr _ (by simp [Reg.jobs]))

/-- A register above those of the cores. -/
theorem keeps_wr_pos {o : Nat} (ho : 0x10004000 ≤ o) (v : Nat) : Keeps P (wr o v) := hP.keeps_wr (Reg.ofNotes_of_le ho) v

theorem keeps_traceSample (pos k : Nat) : Keeps P (traceSample pos k) := by
  have hn := fun v => hP.keeps_wr_pos (o := Reg.posTraceN pos k) (by simp only [Reg.posTraceN]; omega) v
  have hl := fun v => hP.keeps_wr_pos (o := Reg.posTraceLast pos) (by simp only [Reg.posTraceLast]; omega) v
  refine keeps_getThen fun s => keeps_ite (keeps_pure _) (keeps_ite ?_ (keeps_ite ?_ (keeps_pure _)))
  · exact keeps_bind (hn _) fun _ => keeps_pure _
  · exact keeps_bind (hl _) fun _ => keeps_pure _

theorem keeps_traceRecord (m k : Nat) (f : InFlight) (status : Nat) : Keeps P (traceRecord m k f status) := by
  refine keeps_getThen fun s => keeps_bind (hP.keeps_freeVal 32) fun lat => keeps_bind (keeps_forA fun k => ?_) fun _ =>
    keeps_bind ?_ fun _ => keeps_whenA ?_
  · exact hP.keeps_wr_pos (by simp only [Reg.posTraceBuf]; omega) _
  · exact hP.keeps_wr_pos (by simp only [Reg.posTraceWr]; omega) _
  · exact hP.keeps_wr_pos (by simp only [Reg.posTraceCtl]; omega) _

theorem keeps_afterLeaving (f : InFlight) (status : Nat) (s : M) : Keeps P (afterLeaving n e f status s) := by
  refine keeps_bind ?_ fun _ => keeps_bind (keeps_whenA (hP.keeps_finalStep _)) fun _ => keeps_bind (hP.keeps_engEvent _ _ _) fun _ =>
    keeps_bind (hP.keeps_statusEvent _ _) fun _ => keeps_bind (hP.keeps_traceSample _ _) fun _ =>
      keeps_whenA (hP.keeps_traceRecord _ _ _ _)
  unfold freeDrained
  split
  · exact keeps_pure _
  · exact keeps_whenA (hP.keeps_updSlot _ _ _)

theorem leaving {s : M} (h : P s) (extra : Nat) (f : InFlight) (status : Nat) : P (s.leaving n e extra f status) := by
  have hrec : P (s.recorded n e extra f status) := by
    unfold M.recorded
    split
    · exact hP.keeps_writeBytes _ _ _ h
    · exact h
  refine hP.own _ (by simp [Reg.ended]) ?_
  unfold M.answered
  split
  · exact hP.own _ (by simp [Reg.ended]) (hP.ring _ hrec)
  · exact hP.ring _ hrec

theorem keeps_retireNow (extra : Nat) (f : InFlight) : Keeps P (retireNow n e extra f) := fun s h => by
  rw [run_retireNow]
  have hafter := hP.keeps_afterLeaving f (f.status (f.thrown == 3)) s _ (hP.leaving h extra f (f.status (f.thrown == 3)))
  dsimp only
  split
  · exact hP.keeps_haltRing _ _ _ hafter
  · exact hafter

theorem keeps_retireAll (k : Nat) : Keeps P (retireAll n e k) := by
  induction k with
  | zero => exact keeps_pure _
  | succ k ih =>
    refine keeps_getThen fun s => ?_
    split
    · exact keeps_pure _
    · exact keeps_bind (hP.keeps_retireNow _ _) fun _ => ih

theorem keeps_endRing : Keeps P (endRing n e) :=
  keeps_getThen fun _ => keeps_bind (keeps_forA fun _ => hP.keeps_abortRecord _ _ _) fun _ =>
    keeps_bind (hP.keeps_updRing _) fun _ => keeps_getThen fun _ => keeps_bind (hP.keeps_retireAll _) fun _ =>
      keeps_bind (hP.keeps_wr_own (by simp [Reg.ended]) _) fun _ => keeps_bind (hP.keeps_wr_own (by simp [Reg.ended]) _) fun _ =>
        hP.keeps_wr_own (by simp [Reg.ended]) _

end AboutEnd

/-- Nothing is left in ring e of core n, and it does not run. -/
def M.endedRing (t : M) (n e : Nat) : Prop := t.reg (Reg.coreRingCtl n e) = 0 ∧
  t.reg (Reg.coreRingRd n e) = t.reg (Reg.coreRingWr n e) ∧ t.reg (Reg.coreRingRet n e) = t.reg (Reg.coreRingWr n e)

/-- A property of registers alone, of those in K. -/
structure AboutRegs (K : Nat → Prop) (P : M → Prop) : Prop where
  congr : ∀ {t u : M}, (∀ o, K o → u.reg o = t.reg o) → P t → P u

/-- Aborts reach no register of the kind K. -/
structure Reg.besideAborts (K : Nat → Prop) : Prop where
  notes : ∀ o, K o → ¬ Reg.ofNotes o
  traffic : ∀ o, K o → ¬ Reg.ofTraffic o
  aborts : ∀ o, K o → ¬ Reg.ofAborts o

theorem AboutRegs.setReg {K : Nat → Prop} {P : M → Prop} (hP : AboutRegs K P) {t : M} {o : Nat} (v : Nat) (ho : ¬ K o) (h : P t) :
    P (t.setReg o v) := hP.congr (fun _ hk => M.reg_setReg_other t v fun e => ho (e ▸ hk)) h

theorem AboutRegs.same {K : Nat → Prop} {P : M → Prop} (hP : AboutRegs K P) {t u : M} (h : P t) (hr : u.regs = t.regs) : P u :=
  hP.congr (fun o _ => congrArg (Tab.read Reg.dflt · o) hr) h

theorem AboutRegs.aboutAborts {K : Nat → Prop} {P : M → Prop} (hP : AboutRegs K P) (hK : Reg.besideAborts K) : AboutAborts P where
  setReg v ho h := hP.setReg v (fun hk => hK.notes _ hk ho) h
  store _ _ h := hP.same h rfl
  log _ h := hP.same h rfl
  toHost o h := hP.congr (fun k _ => M.reg_toHost _ o k) h
  count v ho h := hP.setReg v (fun hk => hK.traffic _ hk ho) h
  out _ h := hP.same h rfl
  ports _ h := hP.same h rfl
  trn _ h := hP.same h rfl
  isl _ h := hP.same h rfl
  draw h := hP.same h rfl
  abort v ho h := hP.setReg v (fun hk => hK.aborts _ hk ho) h
  rly _ h := hP.same h rfl
  core _ h := hP.same h rfl

theorem AboutRegs.aboutEnd {K : Nat → Prop} {P : M → Prop} (hP : AboutRegs K P) (hK : Reg.besideAborts K) {n e : Nat}
    (hne : ∀ o, K o → o ∉ Reg.ended n e) : AboutEnd n e P where
  toAboutAborts := hP.aboutAborts hK
  own v ho h := hP.setReg v (fun hk => hne _ hk ho) h
  ring _ h := hP.same h rfl
  irq h := hP.same h rfl

/-- The registers of the rings, the passes and the job state of the cores lie apart from those of aborts. -/
theorem Reg.besideAborts_cores {K : Nat → Prop} (h : ∀ o, K o → 0x1000000 ≤ o ∧ o < 0x10004000) : Reg.besideAborts K where
  notes o hk ho := by
    have := h o hk
    simp only [Reg.ofNotes] at ho
    omega
  traffic o hk ho := by
    have := h o hk
    simp only [Reg.ofTraffic, Reg.trnCtxMisses, Reg.trnCtxStalls, Reg.trnRetx, Reg.trnDrops, List.mem_cons, List.not_mem_nil, or_false] at ho
    omega
  aborts o hk ho := by
    have := h o hk
    simp only [Reg.ofAborts, Reg.chkMissed] at ho
    omega

theorem Reg.mem_ended {n e o : Nat} : o ∈ Reg.ended n e ↔
    (∃ d ∈ [0x10c, 0x154, 0x11c, 0x150, 0x118, 0x114], o = 0x1000000 + d + 0x10000 * n + 0x80 * e) ∨
      ∃ d ∈ [0x3000, 0x3004, 0x3008, 0x300c], o = 0x1000000 + d + 0x10000 * n := by
  simp only [Reg.ended, Reg.jobs, Reg.coreRingCtl, Reg.coreRingHaltIndex, Reg.coreRingState, Reg.coreRingAbortResult, Reg.coreRingRet,
    Reg.coreRingRd, Reg.coreJobLossScale, Reg.coreJobFiniteRun, Reg.coreJobSkipCount, Reg.coreJobBiasCorr, List.mem_append, List.mem_cons,
    List.not_mem_nil, or_false, exists_eq_or_imp, exists_eq_left]

/-- The registers that show whether ring e of core n has ended. -/
def Reg.showsEnd (n e : Nat) : List Nat := [Reg.coreRingCtl n e, Reg.coreRingRd n e, Reg.coreRingWr n e, Reg.coreRingRet n e]

theorem Reg.mem_showsEnd {n e o : Nat} : o ∈ Reg.showsEnd n e ↔ ∃ d ∈ [0x10c, 0x114, 0x110, 0x118], o = 0x1000000 + d + 0x10000 * n + 0x80 * e := by
  simp only [Reg.showsEnd, Reg.coreRingCtl, Reg.coreRingRet, Reg.coreRingRd, Reg.coreRingWr, List.mem_cons, List.not_mem_nil, or_false,
    exists_eq_or_imp, exists_eq_left]

theorem aboutRegs_endedRing (n e : Nat) : AboutRegs (· ∈ Reg.showsEnd n e) (M.endedRing · n e) where
  congr hreg h := by
    unfold M.endedRing at *
    rwa [hreg _ (by simp [Reg.showsEnd]), hreg _ (by simp [Reg.showsEnd]), hreg _ (by simp [Reg.showsEnd]), hreg _ (by simp [Reg.showsEnd])]

section
variable {n e k j : Nat} (hn : n < 120) (he : e < 4) (hj : j < 4)
include hn he hj

omit hn in
theorem Reg.showsEnd_apart (h : ¬ (n = k ∧ e = j)) {o : Nat} (ho : o ∈ Reg.showsEnd n e) : o ∉ Reg.ended k j := by
  simp only [Reg.mem_showsEnd, Reg.mem_ended, List.mem_cons, List.not_mem_nil, or_false, exists_eq_or_imp, exists_eq_left] at ho ⊢
  omega

omit hj in
theorem Reg.showsEnd_cores {o : Nat} (ho : o ∈ Reg.showsEnd n e) : 0x1000000 ≤ o ∧ o < 0x10004000 := by
  simp only [Reg.mem_showsEnd, List.mem_cons, List.not_mem_nil, or_false, exists_eq_or_imp, exists_eq_left] at ho
  omega

/-- A ring that has ended stays so while another ends. -/
theorem aboutEnd_endedRing (h : ¬ (n = k ∧ e = j)) : AboutEnd k j (M.endedRing · n e) :=
  (aboutRegs_endedRing n e).aboutEnd (Reg.besideAborts_cores fun _ => Reg.showsEnd_cores hn he) fun _ =>
    Reg.showsEnd_apart he hj h

omit hn he hj in
/-- RD and RET are set to WR, and RUN is cleared. -/
theorem endedRing_closed {v : M} (hw : v.wf = true) (n e : Nat) :
    (((v.setReg (Reg.coreRingRd n e) (v.reg (Reg.coreRingWr n e))).setReg (Reg.coreRingRet n e) (v.reg (Reg.coreRingWr n e))).setReg
      (Reg.coreRingCtl n e) 0).endedRing n e := by
  have hapart : Reg.coreRingWr n e ≠ Reg.coreRingRd n e ∧ Reg.coreRingWr n e ≠ Reg.coreRingRet n e ∧ Reg.coreRingWr n e ≠ Reg.coreRingCtl n e ∧
      Reg.coreRingRd n e ≠ Reg.coreRingRet n e ∧ Reg.coreRingRd n e ≠ Reg.coreRingCtl n e ∧ Reg.coreRingRet n e ≠ Reg.coreRingCtl n e := by
    simp only [Reg.coreRingWr, Reg.coreRingRd, Reg.coreRingRet, Reg.coreRingCtl]
    omega
  obtain ⟨h1, h2, h3, h4, h5, h6⟩ := hapart
  have hw1 := M.wf_setReg (Reg.coreRingRd n e) (v.reg (Reg.coreRingWr n e)) hw
  rw [M.endedRing, M.reg_setReg_self _ _ _ (M.wf_setReg _ _ hw1), M.reg_setReg_other _ _ h5, M.reg_setReg_other _ _ h4,
    M.reg_setReg_self _ _ _ hw, M.reg_setReg_other _ _ h3, M.reg_setReg_other _ _ h2, M.reg_setReg_other _ _ h1,
    M.reg_setReg_other _ _ h6, M.reg_setReg_self _ _ _ hw1]
  exact ⟨rfl, rfl, rfl⟩

omit hj in
theorem aboutEnd_ringWr (w : Nat) : AboutEnd n e fun t => t.reg (Reg.coreRingWr n e) = w := by
  have hregs : AboutRegs (· = Reg.coreRingWr n e) fun t => t.reg (Reg.coreRingWr n e) = w := ⟨fun hreg h => (hreg _ rfl).trans h⟩
  refine hregs.aboutEnd (Reg.besideAborts_cores fun o ho => ?_) fun o ho => ?_
  · subst ho
    simp only [Reg.coreRingWr]
    omega
  · subst ho
    simp only [Reg.mem_ended, Reg.coreRingWr, List.mem_cons, List.not_mem_nil, or_false, exists_eq_or_imp, exists_eq_left]
    omega

omit hj in
/-- The end of a ring leaves nothing in it. -/
theorem endRing_ends {s : M} (hw : s.wf = true) : (endRing n e s).2.endedRing n e := by
  rw [endRing, run_bind, run_get]
  dsimp only
  rw [run_bind]
  have habort : (forA ((s.ring n e).infl.map (·.x)) (abortRecord n e) s).2.wf = true :=
    keeps_forA (P := fun t : M => t.wf = true) (fun x => keepsWf_abortRecord n e x) s hw
  generalize (forA ((s.ring n e).infl.map (·.x)) (abortRecord n e) s).2 = t at *
  rw [run_bind]
  have hring := keepsWf_updRing n e (fun g => { g.emptied with
    infl := g.infl ++ (s.unissued n e).map (fun x => InFlight.abortedAt x ((s.peekRec n e x).getD ⟨0, 0, 0, 0⟩)), watch := g.watch }) t habort
  generalize (updRing n e _ t).2 = u at *
  rw [run_bind, run_get]
  dsimp only
  rw [run_bind]
  have hwr := (aboutEnd_ringWr hn he (u.reg (Reg.coreRingWr n e))).keeps_retireAll (u.ring n e).infl.length u rfl
  have hret := keepsWf_retireAll n e (u.ring n e).infl.length u hring
  generalize (retireAll n e (u.ring n e).infl.length u).2 = v at *
  simp only [run_bind, run_wr]
  rw [← hwr]
  exact endedRing_closed hret n e

end

/-! ## The end of a core -/

/-- A core that no job holds, and whose program does not run. -/
def Core.released (c : Core) : Core := { c with job := none, exited := none, ctl := { c.ctl with running := false } }

/-- A property that the end of core k does not undo. -/
structure AboutCoreEnd (k : Nat) (P : M → Prop) : Prop where
  ends : ∀ e, e < 4 → AboutEnd k e P
  pass : ∀ {t p} v, p < 256 → P t → P (t.setReg (Reg.corePassCount k p) v)
  held : ∀ {t : M} n l, P t → P (t.setCore n { t.core n with heldPasses := l })
  free : ∀ {t : M}, P t → P (t.setCore k (t.core k).released)

theorem AboutCoreEnd.keeps_endCore {k : Nat} {P : M → Prop} (hP : AboutCoreEnd k P) : Keeps P (endCore k) :=
  keeps_bind (keeps_forA_mem fun e he => (hP.ends e (List.mem_range.1 he)).keeps_endRing) fun _ =>
    keeps_bind (keeps_forA_mem fun _ hp _ h => hP.pass _ (List.mem_range.1 hp) h) fun _ =>
      keeps_getThen fun _ => keeps_bind (keeps_forA fun n _ h => hP.held n _ h) fun _ _ h => hP.free h

/-- After its rings have ended, a core's passes are 0, and what it threw and was held is withdrawn. -/
def clearCore (k : Nat) : Act Unit := do
  forA (List.range 256) fun p => wr (Reg.corePassCount k p) 0
  let s ← get
  forA (List.range s.nCores) fun n =>
    updCore n fun c => { c with heldPasses := c.heldPasses.filter fun (j, _, _, _) => j != k }

theorem run_endCore (k : Nat) (s : M) :
    (endCore k s).2 = (updCore k Core.released (clearCore k (forA (List.range 4) (endRing k) s).2).2).2 := by
  rw [endCore, clearCore]
  simp only [run_bind, run_get]
  rfl

theorem keepsWf_clearCore (k : Nat) : KeepsWf (clearCore k) :=
  keeps_bind (P := fun t : M => t.wf = true) (keeps_forA fun _ _ h => M.wf_setReg _ _ h) fun _ => keeps_getThen fun _ =>
    keeps_forA fun _ _ h => M.wf_setCore _ _ h

/-- Registers apart from the passes of a core outlast what it does then. -/
theorem AboutRegs.keeps_clearCore {K : Nat → Prop} {P : M → Prop} (hP : AboutRegs K P) {k : Nat}
    (hK : ∀ p, p < 256 → ¬ K (Reg.corePassCount k p)) : Keeps P (clearCore k) :=
  keeps_bind (keeps_forA_mem fun _ hp _ h => hP.setReg _ (hK _ (List.mem_range.1 hp)) h) fun _ =>
    keeps_getThen fun _ => keeps_forA fun _ _ h => hP.same h rfl

/-- No job holds core n, and its program does not run. -/
def M.freed (t : M) (n : Nat) : Prop := Tab.wf Core.init t.cores = true ∧ (t.core n).job = none ∧ (t.core n).ctl.running = false

theorem M.wf_cores {t : M} (h : t.wf = true) : Tab.wf Core.init t.cores = true := by simp_all [M.wf]

/-- A core that is set reads as it was set; the others are as they were. -/
theorem M.core_setCore {t : M} (h : Tab.wf Core.init t.cores = true) (n k : Nat) (c : Core) :
    (t.setCore k c).core n = if n = k then c else t.core n := by
  by_cases hn : n = k
  · rw [if_pos hn, hn]
    exact Tab.read_put_self _ _ _ _ h
  · rw [if_neg hn]
    exact Tab.read_put_other _ _ _ _ _ hn

/-- A change of a core that leaves its job and its program alone leaves every core freed that was. -/
theorem M.freed.setCore {t : M} {n : Nat} (h : t.freed n) (k : Nat) {c : Core} (hj : (t.core k).job = none → c.job = none)
    (hr : (t.core k).ctl.running = false → c.ctl.running = false) : (t.setCore k c).freed n := by
  obtain ⟨hw, hjob, hrun⟩ := h
  refine ⟨Tab.wf_put _ _ _ _ hw, ?_⟩
  rw [M.core_setCore hw]
  split
  next hn => exact ⟨hj (hn ▸ hjob), hr (hn ▸ hrun)⟩
  · exact ⟨hjob, hrun⟩

theorem Core.job_setRing (c : Core) (e : Nat) (g : Ring) : (c.setRing e g).job = c.job ∧ (c.setRing e g).ctl = c.ctl := by
  match e with
  | 0 | 1 | 2 | _ + 3 => exact ⟨rfl, rfl⟩

theorem aboutCoreEnd_freed (n k : Nat) : AboutCoreEnd k (M.freed · n) where
  ends e _ := {
    setReg := fun _ _ h => h
    store := fun _ _ h => h
    log := fun _ h => h
    toHost := fun o h => by
      unfold M.toHost
      split
      · exact h
      · exact h
    count := fun _ _ h => h
    out := fun _ h => h
    ports := fun _ h => h
    trn := fun _ h => h
    isl := fun _ h => h
    draw := fun h => h
    abort := fun _ _ h => h
    rly := fun _ h => h
    core := fun he h => h.setCore _ ((congrArg Core.job he.rest).trans) ((congrArg (·.ctl.running) he.rest).trans)
    own := fun _ _ h => h
    ring := fun g h => h.setCore _ ((Core.job_setRing _ _ _).1.trans) (fun hr => by rw [(Core.job_setRing _ _ _).2]; exact hr)
    irq := fun h => h.setCore _ id id }
  pass _ _ h := h
  held _ _ h := h.setCore _ id id
  free h := h.setCore _ (fun _ => rfl) fun _ => rfl

/-- Core n has ended: no job, no running program, and nothing left in its rings. -/
def M.endedCore (t : M) (n : Nat) : Prop := t.freed n ∧ ∀ e, e < 4 → t.endedRing n e

theorem Reg.not_showsEnd_passCount {n e k p : Nat} (he : e < 4) (hp : p < 256) : Reg.corePassCount k p ∉ Reg.showsEnd n e := by
  simp only [Reg.mem_showsEnd, Reg.corePassCount, List.mem_cons, List.not_mem_nil, or_false, exists_eq_or_imp, exists_eq_left]
  omega

/-- Two properties that the end of a ring does not undo. -/
theorem AboutEnd.and {n e : Nat} {P Q : M → Prop} (hP : AboutEnd n e P) (hQ : AboutEnd n e Q) : AboutEnd n e fun t => P t ∧ Q t where
  setReg v ho h := ⟨hP.setReg v ho h.1, hQ.setReg v ho h.2⟩
  store m c h := ⟨hP.store m c h.1, hQ.store m c h.2⟩
  log l h := ⟨hP.log l h.1, hQ.log l h.2⟩
  toHost o h := ⟨hP.toHost o h.1, hQ.toHost o h.2⟩
  count v ho h := ⟨hP.count v ho h.1, hQ.count v ho h.2⟩
  out o h := ⟨hP.out o h.1, hQ.out o h.2⟩
  ports l h := ⟨hP.ports l h.1, hQ.ports l h.2⟩
  trn x h := ⟨hP.trn x h.1, hQ.trn x h.2⟩
  isl x h := ⟨hP.isl x h.1, hQ.isl x h.2⟩
  draw h := ⟨hP.draw h.1, hQ.draw h.2⟩
  abort v ho h := ⟨hP.abort v ho h.1, hQ.abort v ho h.2⟩
  rly x h := ⟨hP.rly x h.1, hQ.rly x h.2⟩
  core hc h := ⟨hP.core hc h.1, hQ.core hc h.2⟩
  own v ho h := ⟨hP.own v ho h.1, hQ.own v ho h.2⟩
  ring g h := ⟨hP.ring g h.1, hQ.ring g h.2⟩
  irq h := ⟨hP.irq h.1, hQ.irq h.2⟩

/-- The registers that show whether the rings of core n have ended. -/
def Reg.showsEnds (n o : Nat) : Prop := ∃ e, e < 4 ∧ o ∈ Reg.showsEnd n e

theorem aboutRegs_endedRings (n : Nat) : AboutRegs (Reg.showsEnds n) fun t => ∀ e, e < 4 → t.endedRing n e where
  congr hreg h e he := (aboutRegs_endedRing n e).congr (fun o ho => hreg o ⟨e, he, ho⟩) (h e he)

theorem aboutCoreEnd_endedRings {n k : Nat} (hn : n < 120) (hne : n ≠ k) : AboutCoreEnd k fun t => ∀ e, e < 4 → t.endedRing n e where
  ends _ hj := (aboutRegs_endedRings n).aboutEnd (Reg.besideAborts_cores fun _ ⟨_, he, ho⟩ => Reg.showsEnd_cores hn he ho)
    fun _ ⟨_, he, ho⟩ => Reg.showsEnd_apart he hj (fun h => hne h.1) ho
  pass v hp h := (aboutRegs_endedRings n).setReg v (fun ⟨_, he, ho⟩ => Reg.not_showsEnd_passCount he hp ho) h
  held _ _ h := (aboutRegs_endedRings n).same h rfl
  free h := (aboutRegs_endedRings n).same h rfl

/-- A core that has ended stays so while another ends. -/
theorem aboutCoreEnd_endedCore {n k : Nat} (hn : n < 120) (hne : n ≠ k) : AboutCoreEnd k (M.endedCore · n) :=
  have hf := aboutCoreEnd_freed n k
  have hr := aboutCoreEnd_endedRings hn hne
  { ends := fun j hj => (hf.ends j hj).and (hr.ends j hj)
    pass := fun v hp h => ⟨hf.pass v hp h.1, hr.pass v hp h.2⟩
    held := fun m l h => ⟨hf.held m l h.1, hr.held m l h.2⟩
    free := fun h => ⟨hf.free h.1, hr.free h.2⟩ }

/-- The end of a core ends it. -/
theorem endCore_ends {s : M} (hw : s.wf = true) {n : Nat} (hn : n < 120) : (endCore n s).2.endedCore n := by
  have hrings : ∀ e, e < 4 → (forA (List.range 4) (endRing n) s).2.endedRing n e := fun e he =>
    forA_settles (I := fun t : M => t.wf = true) (P := fun t => t.endedRing n e) (x := e) (fun y _ => keepsWf_endRing n y) (fun y hy t ht hor => by
      by_cases hey : e = y
      · exact hey ▸ endRing_ends hn he ht
      · exact (aboutEnd_endedRing hn he (List.mem_range.1 hy) fun h => hey h.2).keeps_endRing t (hor.resolve_right hey))
      hw (.inr (List.mem_range.2 he))
  have hwr : (forA (List.range 4) (endRing n) s).2.wf = true :=
    keeps_forA (P := fun t : M => t.wf = true) (fun e => keepsWf_endRing n e) s hw
  rw [run_endCore]
  generalize (forA (List.range 4) (endRing n) s).2 = t at *
  have hclear := M.wf_cores (keepsWf_clearCore n t hwr)
  have hkept := fun e (he : e < 4) => (aboutRegs_endedRing n e).keeps_clearCore (k := n) (fun p hp => Reg.not_showsEnd_passCount he hp) t
    (hrings e he)
  generalize (clearCore n t).2 = u at *
  refine ⟨⟨Tab.wf_put _ _ _ _ hclear, ?_⟩, fun e he => (aboutRegs_endedRing n e).same (hkept e he) rfl⟩
  rw [run_updCore, M.core_setCore hclear, if_pos rfl]
  exact ⟨rfl, rfl⟩

/-- Every core of a list ends. -/
theorem forA_endCore_ends {s : M} (hw : s.wf = true) {l : List Nat} (hl : ∀ n ∈ l, n < 120) :
    ∀ n ∈ l, (forA l endCore s).2.endedCore n := fun n hn =>
  forA_settles (I := fun t : M => t.wf = true) (P := fun t => t.endedCore n) (x := n) (fun y _ => keepsWf_endCore y) (fun y _ t ht hor => by
    by_cases hny : n = y
    · exact hny ▸ endCore_ends ht (hl n hn)
    · exact (aboutCoreEnd_endedCore (hl n hn) hny).keeps_endCore t (hor.resolve_right hny)) hw (.inr hn)

end Sys2Proof.Machine

/-! # Jobs that end early (R137, R311, R314) -/

namespace Sys2Proof.Machine

/-! ## What a completion leaves -/

section
variable {m : M} (hw : m.wf = true) (q : Nat) (j : Job) (status core result step runMs : Nat)
include hw

theorem complete_cores : (complete q j status core result step runMs m).2.cores = m.cores := by
  rw [run_complete, M.signalled_cores]
  exact (congrArg M.cores (advanceDone_advances (M.wf_told j status _ hw) _).rest :).trans (congrArg M.cores (M.told_rest j status _) :)

theorem complete_reg {o : Nat} (hd : o ≠ Reg.hstQDone q) (ha : o ≠ Reg.hstQAbortResult q) (hh : o ≠ Reg.hstCmplHeld) :
    (complete q j status core result step runMs m).2.reg o = m.reg o := by
  rw [run_complete, M.reg_signalled, (advanceDone_advances (M.wf_told j status _ hw) _).regs _ hd, M.told_reg _ _ _ ha, M.reported_reg _ _ hh]

theorem complete_jobs : ((complete q j status core result step runMs m).2.queue q).jobs = (m.queue q).jobs.filter (·.x != j.x) := by
  rw [run_complete]
  have ht : (m.told q j status (j.record (m.qLog2 q) status core result step runMs)).wf = true := M.wf_told j status _ hw
  have hd := advanceDone_advances (q := q) ht ((m.queue q).written.length + 1)
  have hq := (congrArg HostQ.jobs hd.queue :)
  rw [M.told_queue _ _ _ hw] at hq
  exact (congrArg HostQ.jobs (M.signalled_queue q hd.wf) :).trans hq

/-- The queue's registers lie apart from those of the rings. -/
theorem complete_endedCore {n : Nat} (h : m.endedCore n) : (complete q j status core result step runMs m).2.endedCore n := by
  have hcores := complete_cores hw q j status core result step runMs
  obtain ⟨⟨hwf, hjob, hrun⟩, hrings⟩ := h
  refine ⟨⟨by rw [hcores]; exact hwf, by rw [M.core, hcores]; exact hjob, by rw [M.core, hcores]; exact hrun⟩, fun e he =>
    (aboutRegs_endedRing n e).congr (fun o ho => complete_reg hw q j status core result step runMs ?_ ?_ ?_) (hrings e he)⟩
  all_goals
    simp only [Reg.mem_showsEnd, List.mem_cons, List.not_mem_nil, or_false, exists_eq_or_imp, exists_eq_left] at ho
    simp only [Reg.hstQDone, Reg.hstQAbortResult, Reg.hstCmplHeld]
    omega

end

/-! ## The end of a job -/

/-- Job j of entry x has ended: it has left its queue, and so have its cores ended. -/
def M.jobEnded (s m : M) (q x : Nat) (j : Job) : Prop :=
  (∀ k ∈ (m.queue q).jobs, k.x ≠ x) ∧ ∀ n ∈ j.cores, n < s.nCores → m.endedCore n

theorem runningJob_none {m : M} {q x : Nat} (h : ∀ k ∈ (m.queue q).jobs, k.x ≠ x) : m.runningJob q x = none := by
  rw [M.runningJob, List.find?_eq_none]
  exact fun k hk => by simp [h k hk]

theorem endJob_ends {m : M} (hw : m.wf = true) {q x : Nat} {j : Job} (hj : m.runningJob q x = some j) (status core runMs : Nat) :
    m.jobEnded (endJob q x status core runMs m).2 q x j := by
  have hx : j.x = x := by
    have := List.find?_some hj
    simp only [Bool.and_eq_true, beq_iff_eq] at this
    exact this.1
  have hends := forA_endCore_ends hw (l := j.cores.filter (· < m.nCores)) fun n hn => by
    have := (List.mem_filter.1 hn).2
    exact (of_decide_eq_true this).trans_le m.nCores_le
  have hwe : (forA (j.cores.filter (· < m.nCores)) endCore m).2.wf = true :=
    keeps_forA (P := fun t : M => t.wf = true) (fun n => keepsWf_endCore n) m hw
  rw [endJob, run_bind, run_get]
  dsimp only
  rw [hj]
  dsimp only
  rw [run_bind]
  generalize (forA (j.cores.filter (· < m.nCores)) endCore m).2 = t at *
  refine ⟨fun k hk => ?_, fun n hn hlt => complete_endedCore hwe _ _ _ _ _ _ _ (hends n (List.mem_filter.2 ⟨hn, by simpa using hlt⟩))⟩
  rw [complete_jobs hwe, List.mem_filter, hx] at hk
  simpa using hk.2

/-- What the statement asks of a job that has ended. -/
theorem M.jobEnded.shows {s m : M} {q x : Nat} {j : Job} (h : s.jobEnded m q x j) : m.runningJob q x = none ∧
    ∀ n ∈ j.cores, n < s.nCores → (m.core n).job = none ∧ (m.core n).ctl.running = false ∧ ∀ e, e < 4 →
      m.reg (Reg.coreRingCtl n e) = 0 ∧ m.reg (Reg.coreRingRd n e) = m.reg (Reg.coreRingWr n e) ∧
      m.reg (Reg.coreRingRet n e) = m.reg (Reg.coreRingWr n e) := by
  obtain ⟨hjobs, hcores⟩ := h
  refine ⟨runningJob_none hjobs, fun n hn hlt => ?_⟩
  obtain ⟨⟨-, hjob, hrun⟩, hrings⟩ := hcores n hn hlt
  exact ⟨hjob, hrun, hrings⟩

/-! ## Aborts of entries (R314) -/

/-- The queue no longer waits for an earlier abort. -/
def HostQ.unwatched (h : HostQ) : HostQ := { h with watch := none }

/-- The queue waits for entry x, which it has marked. -/
def HostQ.awaiting (h : HostQ) (x : Nat) : HostQ :=
  { h with marks := if h.marks.contains x then h.marks else h.marks ++ [x], watch := some x }

theorem HostQ.mem_marks_awaiting (h : HostQ) (x : Nat) : x ∈ (h.awaiting x).marks := by
  unfold HostQ.awaiting
  dsimp only
  split
  next hx => exact List.contains_iff_mem.1 hx
  · exact List.mem_append_right _ (List.mem_singleton_self x)

/-- An abort ends the entry that it finds: a job that runs, on all its cores. -/
def endFound (q x : Nat) (j : Job) : Act Unit :=
  if j.running then (freeVal 32 >>= endJob q x 4 0xFF) else complete q j 4 0xFF 0 0 0

section
variable {m : M} (q : Nat) {x : Nat}

theorem run_abortEntry_beyond (h : atOrAfter x (m.reg (Reg.hstQWr q)) = true) :
    (abortEntry q x m).2 = (m.putQueue q (m.queue q).unwatched).setReg (Reg.hstQAbortResult q) 0 := by
  rw [abortEntry, run_bind, run_get]
  dsimp only
  rw [run_bind, run_ite, if_pos h]
  rfl

theorem run_abortEntry_unfetched (hb : atOrAfter x (m.reg (Reg.hstQWr q)) = false) (h : atOrAfter x (m.reg (Reg.hstQFetched q)) = true) :
    (abortEntry q x m).2 = ((m.putQueue q (m.queue q).unwatched).putQueue q
      (((m.putQueue q (m.queue q).unwatched).queue q).awaiting x)).setReg (Reg.hstQAbortResult q) (1 <<< 30) := by
  rw [abortEntry, run_bind, run_get]
  dsimp only
  rw [run_bind, run_ite, if_neg (by simp [hb]), run_ite, if_pos h]
  rfl

theorem run_abortEntry_gone (hb : atOrAfter x (m.reg (Reg.hstQWr q)) = false) (hf : atOrAfter x (m.reg (Reg.hstQFetched q)) = false)
    (h : (m.queue q).jobs.find? (·.x = x) = none) :
    (abortEntry q x m).2 = (m.putQueue q (m.queue q).unwatched).setReg (Reg.hstQAbortResult q) (2 <<< 30 + 0xD) := by
  rw [abortEntry, run_bind, run_get]
  dsimp only
  rw [run_bind, run_ite, if_neg (by simp [hb]), run_ite, if_neg (by simp [hf]), h]
  rfl

theorem run_abortEntry_found (hb : atOrAfter x (m.reg (Reg.hstQWr q)) = false) (hf : atOrAfter x (m.reg (Reg.hstQFetched q)) = false)
    {j : Job} (h : (m.queue q).jobs.find? (·.x = x) = some j) :
    (abortEntry q x m).2 = (endFound q x j (m.putQueue q (m.queue q).unwatched)).2.setReg (Reg.hstQAbortResult q) (2 <<< 30 + 4) := by
  rw [abortEntry, run_bind, run_get]
  dsimp only
  rw [run_bind, run_ite, if_neg (by simp [hb]), run_ite, if_neg (by simp [hf]), h]
  dsimp only
  unfold endFound
  split
  · rfl
  · rfl

end

/-- A register of a queue is not one that shows the end of a ring. -/
theorem M.endedCore.setReg_abort {m : M} {n q : Nat} (h : m.endedCore n) (v : Nat) :
    (m.setReg (Reg.hstQAbortResult q) v).endedCore n := by
  refine ⟨h.1, fun e he => (aboutRegs_endedRing n e).setReg v (fun ho => ?_) (h.2 e he)⟩
  simp only [Reg.mem_showsEnd, Reg.hstQAbortResult, List.mem_cons, List.not_mem_nil, or_false, exists_eq_or_imp, exists_eq_left] at ho
  omega

/-- The entry that an abort finds is the one that runs, if it runs. -/
theorem runningJob_of_find {m : M} {q x : Nat} {j : Job} (h : (m.queue q).jobs.find? (·.x = x) = some j) (hr : j.running = true) :
    m.runningJob q x = some j := by
  obtain ⟨hx, l, r, hl, hbefore⟩ := List.find?_eq_some_iff_append.1 h
  refine List.find?_eq_some_iff_append.2 ⟨by simpa [hr] using hx, l, r, hl, fun k hk => ?_⟩
  have := hbefore k hk
  simp_all

theorem keepsWf_endFound (q x : Nat) (j : Job) : KeepsWf (endFound q x j) :=
  keeps_ite (P := fun t : M => t.wf = true) (keeps_bind (keepsWf_freeVal 32) fun _ => keepsWf_endJob _ _ _ _ _) (keepsWf_complete _ _ _ _ _ _ _)

theorem endFound_ends {m : M} (hw : m.wf = true) {q x : Nat} {j : Job} (h : (m.queue q).jobs.find? (·.x = x) = some j) :
    (∀ k ∈ ((endFound q x j m).2.queue q).jobs, k.x ≠ x) ∧ (j.running = true → m.jobEnded (endFound q x j m).2 q x j) := by
  have hx : j.x = x := by simpa using List.find?_some h
  unfold endFound
  cases hr : j.running with
  | true =>
    have hrun : m.jobEnded ((freeVal 32 >>= endJob q x 4 0xFF) m).2 q x j := by
      rw [run_bind]
      exact endJob_ends (m := (freeVal 32 m).2) (keepsWf_freeVal 32 m hw) (runningJob_of_find h hr) _ _ _
    exact ⟨hrun.1, fun _ => hrun⟩
  | false =>
    refine ⟨fun k hk => ?_, fun h => by simp at h⟩
    rw [if_neg (by simp), complete_jobs hw, List.mem_filter, hx] at hk
    simpa using hk.2

/-- A job's end outlasts the answer to its abort. -/
theorem M.jobEnded.setReg_abort {s m : M} {q x : Nat} {j : Job} (h : s.jobEnded m q x j) (v : Nat) :
    s.jobEnded (m.setReg (Reg.hstQAbortResult q) v) q x j := ⟨h.1, fun n hn hlt => (h.2 n hn hlt).setReg_abort v⟩

theorem exec_jobRunTimeout {s : State} (hl : s.m.board.live = true) {q x : Nat} {j : Job} (hj : s.m.runningJob q x = some j) (ms : Nat) :
    exec (.jobRunTimeout q x ms) s = if j.runMs ≠ 0 ∧ j.runMs ≤ ms then s.becomes (endJob q x 0xE 0xFF ms s.m).2 else .next s := by
  rw [exec, execJobRunTimeout, State.doing_live s _ hl, run_bind, run_get]
  dsimp only
  rw [hj]
  dsimp only
  rw [run_whenA]
  by_cases h : j.runMs ≠ 0 ∧ j.runMs ≤ ms
  · rw [if_pos h, if_pos (by simpa using h)]
  · rw [if_neg h, if_neg (by simpa using h)]

/-- Settles O34: the end of a job ends its cores one after another, and then completes it. -/
theorem jobsEndedEarly : Obligations.JobsEndedEarly := by
  unfold Obligations.JobsEndedEarly
  intro s q x hl hw hq ended
  refine ⟨fun j ms hj => ⟨fun h0 hle => ?_, fun h => ?_⟩, ?_⟩
  · refine ⟨(endJob q x 0xE 0xFF ms s.m).2, ?_, (endJob_ends hw hj _ _ _).shows⟩
    rw [exec_jobRunTimeout hl hj, if_pos ⟨h0, hle⟩]
  · rw [exec_jobRunTimeout hl hj, if_neg (by omega)]
  intro by' ha wr fetched
  have hwm : (s.m.accessed by').wf = true := M.wf_accessed hw by'
  have hwr : (s.m.accessed by').reg (Reg.hstQWr q) = wr := M.accessed_reg _ _ (by simp only [Reg.hstQWr]; omega)
  have hfe : (s.m.accessed by').reg (Reg.hstQFetched q) = fetched := M.accessed_reg _ _ (by simp only [Reg.hstQFetched]; omega)
  have hqueue : (s.m.accessed by').queue q = s.m.queue q := M.accessed_queue _ _ _
  have hunw : ((s.m.accessed by').putQueue q ((s.m.accessed by').queue q).unwatched).queue q = (s.m.queue q).unwatched :=
    (M.queue_put hwm q _).trans (by rw [hqueue])
  have hput : ((s.m.accessed by').putQueue q ((s.m.accessed by').queue q).unwatched).wf = true := M.wf_putQueue q _ hwm
  rw [exec_hstQAbort hl ha hq]
  refine ⟨fun hb => ?_, fun hb hf => ⟨_, rfl, ?_⟩, fun hb hf => ⟨fun hgone => ⟨_, rfl, ?_⟩, fun j hj => ⟨_, rfl, ?_⟩⟩⟩
  · rw [run_abortEntry_beyond q (hwr.symm ▸ hb), hqueue, M.putQueue, M.accessed_hostQ]
    rfl
  · rw [run_abortEntry_unfetched q (hwr.symm ▸ hb) (hfe.symm ▸ hf), hunw]
    have hq2 : ((((s.m.accessed by').putQueue q ((s.m.accessed by').queue q).unwatched).putQueue q
        ((s.m.queue q).unwatched.awaiting x)).setReg (Reg.hstQAbortResult q) (1 <<< 30)).queue q = (s.m.queue q).unwatched.awaiting x :=
      M.queue_put hput q _
    dsimp only
    rw [hq2]
    exact ⟨M.reg_setReg_self _ _ _ (M.wf_putQueue q _ hput), HostQ.mem_marks_awaiting _ x, rfl, rfl, s.m.accessed_cores by',
      s.m.sameStores_accessed by'⟩
  · have hnone : ((s.m.accessed by').queue q).jobs.find? (·.x = x) = none := by
      rw [hqueue, List.find?_eq_none]
      exact fun k hk => by simpa using hgone k hk
    rw [run_abortEntry_gone q (hwr.symm ▸ hb) (hfe.symm ▸ hf) hnone]
    exact ⟨M.reg_setReg_self _ _ _ hput, hunw, s.m.accessed_cores by'⟩
  · rw [run_abortEntry_found q (hwr.symm ▸ hb) (hfe.symm ▸ hf) (hqueue.symm ▸ hj)]
    obtain ⟨hjobs, hended⟩ := endFound_ends hput (q := q) (x := x) (j := j) (by rw [hunw]; exact hj)
    refine ⟨M.reg_setReg_self _ _ _ (keepsWf_endFound q x j _ hput), hjobs, fun hr => ?_⟩
    have h := ((hended hr).setReg_abort (2 <<< 30 + 4)).shows
    have hcores : ((s.m.accessed by').putQueue q ((s.m.accessed by').queue q).unwatched).nCores = s.m.nCores := s.m.accessed_nCores by'
    rw [hcores] at h
    exact h

end Sys2Proof.Machine

/-! # Aborts of records and of the job (R136, R137) -/

namespace Sys2Proof.Machine

/-! ## What an abort of records leaves of its ring -/

/-- Ring e of core n waits for record w, and the result of its abort is r. -/
structure M.awaits (n e : Nat) (w : Option Nat) (r : Nat) (t : M) : Prop where
  cores : Tab.wf Core.init t.cores = true
  watch : (t.ring n e).watch = w
  result : t.reg (Reg.coreRingAbortResult n e) = r

/-- Record y of ring e of core n is marked, or aborted in flight. -/
def M.reaches (t : M) (n e y : Nat) : Prop := y ∈ (t.ring n e).marks ∨ ∃ f ∈ (t.ring n e).infl, f.x = y ∧ f.aborted = true

section
variable {n e : Nat} {w : Option Nat} {r : Nat}

theorem M.ring_setCore {t : M} (h : Tab.wf Core.init t.cores = true) (n e k : Nat) (c : Core) :
    (t.setCore k c).ring n e = if n = k then c.ring e else t.ring n e := by
  rw [M.ring, M.core_setCore h]
  split
  · rfl
  · rfl

theorem M.awaits.setCore {t : M} (h : t.awaits n e w r) (k : Nat) {c : Core} (hc : ((t.core k).ring e).watch = (c.ring e).watch) :
    (t.setCore k c).awaits n e w r := by
  refine ⟨Tab.wf_put _ _ _ _ h.cores, ?_, h.result⟩
  rw [M.ring_setCore h.cores]
  split
  next hk => exact hc.symm.trans ((congrArg (fun i => ((t.core i).ring e).watch) hk.symm).trans h.watch)
  · exact h.watch

theorem M.awaits.setReg {t : M} (h : t.awaits n e w r) {o : Nat} (ho : o ≠ Reg.coreRingAbortResult n e) (v : Nat) : (t.setReg o v).awaits n e w r :=
  ⟨h.cores, h.watch, (M.reg_setReg_other t v ho.symm).trans h.result⟩

theorem aboutAborts_awaits (hn : n < 120) (he : e < 4) : AboutAborts (M.awaits n e w r) := by
  have hbeside := Reg.besideAborts_cores (K := (· = Reg.coreRingAbortResult n e)) fun o ho => by
    subst ho
    simp only [Reg.coreRingAbortResult]
    omega
  exact {
    setReg := fun v ho h => h.setReg (fun hk => hbeside.notes _ hk ho) v
    store := fun _ _ h => ⟨h.cores, h.watch, h.result⟩
    log := fun _ h => ⟨h.cores, h.watch, h.result⟩
    toHost := fun o h => by
      unfold M.toHost
      split
      · exact ⟨h.cores, h.watch, h.result⟩
      · exact ⟨h.cores, h.watch, h.result⟩
    count := fun v ho h => h.setReg (fun hk => hbeside.traffic _ hk ho) v
    out := fun _ h => ⟨h.cores, h.watch, h.result⟩
    ports := fun _ h => ⟨h.cores, h.watch, h.result⟩
    trn := fun _ h => ⟨h.cores, h.watch, h.result⟩
    isl := fun _ h => ⟨h.cores, h.watch, h.result⟩
    draw := fun h => ⟨h.cores, h.watch, h.result⟩
    abort := fun v ho h => h.setReg (fun hk => hbeside.aborts _ hk ho) v
    rly := fun _ h => ⟨h.cores, h.watch, h.result⟩
    core := fun hc h => h.setCore _ (congrArg Ring.watch (hc.ring e).rest).symm }

/-! ## The marked records at RD -/

/-- The module after the marked record at RD has passed the arbitration point. -/
def M.markPassed (s : M) (n e : Nat) : M :=
  let x := s.reg (Reg.coreRingRd n e)
  (s.withRing n e fun g => { g with
    infl := g.infl ++ [InFlight.abortedAt x ((s.peekRec n e x).getD ⟨0, 0, 0, 0⟩)], marks := g.marks.filter (· != x), credit := false
    waited := 0, reserved := false, dec := none }).setReg (Reg.coreRingRd n e) (trunc 32 (x + 1))

theorem run_settleMarks_succ (n e fuel : Nat) (s : M) : (settleMarks n e (fuel + 1) s).2 =
    if ((s.ring n e).marks.contains (s.reg (Reg.coreRingRd n e)) && s.ringRun n e && !s.ringEmpty n e) = true
    then (settleMarks n e fuel (s.markPassed n e)).2 else s := by
  rw [settleMarks, run_bind, run_get]
  dsimp only
  rw [run_ite]
  split
  · rfl
  · rfl

theorem M.awaits.markPassed {s : M} (h : s.awaits n e w r) : (s.markPassed n e).awaits n e w r :=
  (h.setCore n (by rw [Core.ring_setRing_self]; rfl)).setReg (by simp only [Reg.coreRingRd, Reg.coreRingAbortResult]; omega) _

theorem M.ring_markPassed {s : M} (h : Tab.wf Core.init s.cores = true) (n e : Nat) : ((s.markPassed n e).ring n e).marks =
      (s.ring n e).marks.filter (· != s.reg (Reg.coreRingRd n e)) ∧ ((s.markPassed n e).ring n e).infl = (s.ring n e).infl ++
      [InFlight.abortedAt (s.reg (Reg.coreRingRd n e)) ((s.peekRec n e (s.reg (Reg.coreRingRd n e))).getD ⟨0, 0, 0, 0⟩)] := by
  have hring : (s.markPassed n e).ring n e = _ := (M.ring_setCore h n e n _).trans (if_pos rfl)
  rw [hring, Core.ring_setRing_self]
  exact ⟨rfl, rfl⟩

/-- A record that is marked is then aborted in flight. -/
theorem M.reaches_markPassed {s : M} (h : Tab.wf Core.init s.cores = true) {y : Nat} (hy : s.reaches n e y) : (s.markPassed n e).reaches n e y := by
  obtain ⟨hmarks, hinfl⟩ := M.ring_markPassed h n e
  rw [M.reaches, hmarks, hinfl]
  rcases hy with hy | ⟨f, hf, hfy⟩
  · by_cases hx : y = s.reg (Reg.coreRingRd n e)
    · exact .inr ⟨_, List.mem_append_right _ (List.mem_singleton_self _), hx.symm, rfl⟩
    · exact .inl (List.mem_filter.2 ⟨hy, by simpa using hx⟩)
  · exact .inr ⟨f, List.mem_append_left _ hf, hfy⟩

theorem settleMarks_keeps (fuel : Nat) {s : M} (h : s.awaits n e w r) :
    (settleMarks n e fuel s).2.awaits n e w r ∧ ∀ y, s.reaches n e y → (settleMarks n e fuel s).2.reaches n e y := by
  induction fuel generalizing s with
  | zero => exact ⟨h, fun _ => id⟩
  | succ fuel ih =>
    rw [run_settleMarks_succ]
    split
    · obtain ⟨hawaits, hreaches⟩ := ih h.markPassed
      exact ⟨hawaits, fun y hy => hreaches y (M.reaches_markPassed h.cores hy)⟩
    · exact ⟨h, fun _ => id⟩

theorem settle_keeps {s : M} (h : s.awaits n e w r) :
    (settle n e s).2.awaits n e w r ∧ ∀ y, s.reaches n e y → (settle n e s).2.reaches n e y := settleMarks_keeps _ h

end

/-! ## Aborts of scope 0 and 1 -/

section
variable {m : M} {n e x : Nat} (later : Bool)

/-- Does an abort reach record y? -/
def abortHits (x : Nat) (later : Bool) (y : Nat) : Bool := y == x || (later && atOrAfter y x)

/-- Has the record that an abort names retired? -/
def M.abortGone (m : M) (n e x : Nat) (later : Bool) : Bool :=
  !((m.ring n e).infl.any fun f => f.x == x && !f.latched) && !((m.unissued n e).filter (abortHits x later)).contains x

theorem run_abortRecords_beyond (h : atOrAfter x (m.reg (Reg.coreRingWr n e)) = true) :
    (abortRecords n e x later m).2 = m.setReg (Reg.coreRingAbortResult n e) 0 := by
  rw [abortRecords, run_bind, run_get]
  dsimp only
  rw [run_ite, if_pos h]
  rfl

/-- What an abort of records sets before it reaches what is in flight. -/
def M.abortNoted (m : M) (n e x : Nat) (later : Bool) : M :=
  (m.withRing n e fun g => { g with watch := if m.abortGone n e x later then none else some x }).setReg (Reg.coreRingAbortResult n e)
    (if m.abortGone n e x later then 2 <<< 30 + 0xD else 1 <<< 30)

/-- A ring whose records that wait are marked too. -/
def Ring.marked (g : Ring) (waits : List Nat) : Ring := { g with marks := g.marks ++ waits.filter fun x => !g.marks.contains x }

theorem run_abortRecords (h : atOrAfter x (m.reg (Reg.coreRingWr n e)) = false) : (abortRecords n e x later m).2 =
    (settle n e ((forA (((m.ring n e).infl.filter fun f => abortHits x later f.x).map (·.x)) (abortRecord n e) (m.abortNoted n e x later)).2.withRing
      n e (·.marked ((m.unissued n e).filter (abortHits x later))))).2 := by
  rw [abortRecords, run_bind, run_get]
  dsimp only
  rw [run_ite, if_neg (by simp [h])]
  rfl

theorem Ring.mem_marks_marked {g : Ring} {waits : List Nat} {y : Nat} (h : y ∈ waits) : y ∈ (g.marked waits).marks := by
  unfold Ring.marked
  dsimp only
  by_cases hy : y ∈ g.marks
  · exact List.mem_append_left _ hy
  · exact List.mem_append_right _ (List.mem_filter.2 ⟨h, by simpa using hy⟩)

/-- Where the abort of a record leaves its ring. -/
theorem abortRecords_reaches (hw : m.wf = true) (hn : n < 120) (he : e < 4) (h : atOrAfter x (m.reg (Reg.coreRingWr n e)) = false) :
    (abortRecords n e x later m).2.awaits n e (if m.abortGone n e x later then none else some x)
        (if m.abortGone n e x later then 2 <<< 30 + 0xD else 1 <<< 30) ∧
      ∀ y ∈ m.unissued n e, abortHits x later y = true → (abortRecords n e x later m).2.reaches n e y := by
  have hnoted : (m.abortNoted n e x later).awaits n e (if m.abortGone n e x later then none else some x)
      (if m.abortGone n e x later then 2 <<< 30 + 0xD else 1 <<< 30) :=
    ⟨Tab.wf_put _ _ _ _ (M.wf_cores hw),
      congrArg Ring.watch (M.ring_withRing_self hw n e fun g => { g with watch := if m.abortGone n e x later then none else some x }),
      M.reg_setReg_self _ _ _ (M.wf_withRing hw n e _)⟩
  rw [run_abortRecords later h]
  have hflight := keeps_forA (fun k => (aboutAborts_awaits hn he).keeps_abortRecord n e k)
    (l := ((m.ring n e).infl.filter fun f => abortHits x later f.x).map (·.x)) _ hnoted
  generalize (forA _ (abortRecord n e) (m.abortNoted n e x later)).2 = t at *
  have hmarked := hflight.setCore n (c := (t.core n).setRing e ((t.ring n e).marked ((m.unissued n e).filter (abortHits x later))))
    (by rw [Core.ring_setRing_self]; rfl)
  obtain ⟨hawaits, hreaches⟩ := settle_keeps hmarked
  refine ⟨hawaits, fun y hy hhit => hreaches y (.inl ?_)⟩
  rw [M.ring_setCore hflight.cores, if_pos rfl, Core.ring_setRing_self]
  exact Ring.mem_marks_marked (List.mem_filter.2 ⟨hy, hhit⟩)

end

/-- Settles O38: an abort reaches what is in flight, then marks what waits; an abort of the job ends it on its cores. -/
theorem abortsReachRecords : Obligations.AbortsReachRecords := by
  unfold Obligations.AbortsReachRecords
  intro s w n e x hl hw ha hn he m0 wr result reached inFlight
  have hn' : n < 120 := hn.trans_le s.m.nCores_le
  have hwm : m0.wf = true := M.wf_accessed hw w
  have hwr : m0.reg (Reg.coreRingWr n e) = wr := M.accessed_reg _ _ (by simp only [Reg.coreRingWr]; omega)
  have hun : m0.unissued n e = s.m.unissued n e := by
    rw [M.unissued, M.accessed_reg _ _ (by simp only [Reg.coreRingRd]; omega), hwr, M.unissued]
  have hring : m0.ring n e = s.m.ring n e := M.accessed_ring _ _ _ _
  have hone : exec (.abortRecord n e x w) s = s.becomes (abortRecords n e x false m0).2 := by
    rw [exec, execAbortRecord, State.doing_live s _ hl, run_coreAction_admitted ha hn]
  have hall : exec (.abortRecordAndLater n e x w) s = s.becomes (abortRecords n e x true m0).2 := by
    rw [exec, execAbortRecordAndLater, State.doing_live s _ hl, run_coreAction_admitted ha hn]
  have hgone : ∀ later, m0.abortGone n e x later = true ↔ ¬ inFlight ∧ x ∉ s.m.unissued n e := fun later => by
    rw [M.abortGone, hring, hun]
    simp only [Bool.and_eq_true, Bool.not_eq_true', List.any_eq_false, List.contains_eq_mem, List.mem_filter, abortHits, beq_self_eq_true,
      Bool.true_or, and_true, decide_eq_false_iff_not]
    simp [inFlight]
  rw [hone, hall]
  refine ⟨fun hb => ?_, fun hb hthere => ?_, fun hb hfl hun' => ?_, fun hjob => ?_, fun q y j hjob hrun hmem => ?_⟩
  · rw [run_abortRecords_beyond false (hwr.symm ▸ hb), run_abortRecords_beyond true (hwr.symm ▸ hb)]
    exact ⟨rfl, rfl⟩
  · have hno : ∀ later, ¬ m0.abortGone n e x later = true := fun later h => by
      obtain ⟨h1, h2⟩ := (hgone later).1 h
      exact hthere.elim h1 h2
    obtain ⟨hawait, hreach⟩ := abortRecords_reaches false hwm hn' he (hwr.symm ▸ hb)
    obtain ⟨hawait', hreach'⟩ := abortRecords_reaches true hwm hn' he (hwr.symm ▸ hb)
    rw [if_neg (hno _), if_neg (hno _)] at hawait hawait'
    rw [hun] at hreach hreach'
    exact ⟨⟨_, rfl, hawait.result, fun hx => hreach x hx (by simp [abortHits]), hawait.watch⟩,
      ⟨_, rfl, hawait'.result, fun hx => hreach' x hx (by simp [abortHits]), hawait'.watch, fun y hy hxy => hreach' y hy (by simp [abortHits, hxy])⟩⟩
  · have hyes : ∀ later, m0.abortGone n e x later = true := fun later => (hgone later).2 ⟨hfl, hun'⟩
    obtain ⟨hawait, -⟩ := abortRecords_reaches false hwm hn' he (hwr.symm ▸ hb)
    obtain ⟨hawait', hreach'⟩ := abortRecords_reaches true hwm hn' he (hwr.symm ▸ hb)
    rw [if_pos (hyes _), if_pos (hyes _)] at hawait hawait'
    rw [hun] at hreach'
    exact ⟨⟨_, rfl, hawait.result, hawait.watch⟩,
      ⟨_, rfl, hawait'.result, hawait'.watch, fun y hy hxy => hreach' y hy (by simp [abortHits, hxy])⟩⟩
  · rw [exec, execAbortJob, State.doing_live s _ hl, run_coreAction_admitted ha hn, abortJob, run_bind, run_get]
    dsimp only
    rw [M.accessed_core, hjob]
    rfl
  · have hrun0 : m0.runningJob q y = some j := by rw [M.runningJob, M.accessed_queue, ← M.runningJob, hrun]
    have hfree : (freeVal 32 m0).2.wf = true := keepsWf_freeVal 32 m0 hwm
    obtain ⟨hjobs, hcores⟩ := endJob_ends (m := (freeVal 32 m0).2) hfree hrun0 4 0xFF (freeVal 32 m0).1
    have hended := hcores n hmem (by rw [show (freeVal 32 m0).2.nCores = m0.nCores from rfl, M.accessed_nCores]; exact hn)
    have hwe := keepsWf_endJob q y 4 0xFF (freeVal 32 m0).1 (freeVal 32 m0).2 hfree
    have hexec : exec (.abortJob n e w) s = s.becomes ((endJob q y 4 0xFF (freeVal 32 m0).1 (freeVal 32 m0).2).2.setReg
        (Reg.coreRingAbortResult n e) (2 <<< 30 + 4)) := by
      rw [exec, execAbortJob, State.doing_live s _ hl, run_coreAction_admitted ha hn, abortJob, run_bind, run_get]
      dsimp only
      rw [M.accessed_core, hjob]
      rfl
    generalize (endJob q y 4 0xFF (freeVal 32 m0).1 (freeVal 32 m0).2).2 = t at *
    refine ⟨_, hexec, M.reg_setReg_self _ _ _ hwe, hended.1.2.1, hended.1.2.2, runningJob_none (m := t.setReg _ _) hjobs, fun k hk => ?_⟩
    have hctl := (hended.2 k hk).1
    rw [M.ringRun, M.reg_setReg_other _ _ (by simp only [Reg.coreRingCtl, Reg.coreRingAbortResult]; omega), hctl]
    rfl

end Sys2Proof.Machine

/-! # The arbitration point (R79, R128, R135, R138, R147, R326, R327)

What decode leaves as it was, what a failed decode halts, and what an entry that passes sets. -/

namespace Sys2Proof.Machine

/-! ## Decode -/

theorem M.aboutNotes_noted (s : M) : AboutNotes (s.noted False) where
  setReg v ho h := h.setReg ho v
  store m c h := h.store id m c
  log _ h := ⟨h.regs, h.rest, fun h => h.elim⟩
  toHost o h := h.toHost o

namespace AboutNotes

variable {P : M → Prop} (hP : AboutNotes P)
include hP

theorem keeps_readDesc (n i : Nat) : Keeps P (readDesc n i) := keeps_bind (hP.keeps_readBytes _ _) fun _ => keeps_pure _

theorem keeps_readEntries (n i k : Nat) : Keeps P (readEntries n i k) :=
  keeps_mapA fun _ => keeps_bind (hP.keeps_readBytes _ _) fun _ => keeps_pure _

theorem keeps_groupLine (group : Nat) : Keeps P (readGroup group) := keeps_getThen fun _ => hP.keeps_readLine _

/-- Decode reads the record, its descriptors, its layers and its group's line, and changes nothing else. -/
theorem keeps_decode (n e x : Nat) : Keeps P (decode n e x) := by
  have hdesc := hP.keeps_readDesc n
  have hentries := hP.keeps_readEntries n
  refine keeps_getThen fun s => keeps_bind (hP.keeps_readBytes _ _) fun _ => keeps_ite (keeps_pure _) (keeps_ite (keeps_pure _)
    (keeps_ite (keeps_pure _) (keeps_ite (keeps_pure _) (keeps_bind (keeps_mapA fun _ => hdesc _) fun ds => ?_))))
  dsimp only
  split
  all_goals
    refine keeps_bind ?_ fun od => ?_
    · first
        | exact hdesc _
        | exact keeps_pure _
    refine keeps_ite (keeps_bind (hentries _ _) fun ls => ?_) (keeps_bind (keeps_pure _) fun ls => ?_)
    all_goals
      refine keeps_ite (keeps_bind (hP.keeps_groupLine _) fun gp => ?_) (keeps_bind (keeps_pure _) fun gp => ?_)
      all_goals
        refine keeps_getThen fun t => keeps_ite (keeps_bind (keeps_mapA fun _ => hdesc _) fun aux => ?_)
          (keeps_bind (keeps_pure _) fun aux => ?_)
        all_goals exact keeps_ite (keeps_pure _) (keeps_getThen fun _ => keeps_pure _)

end AboutNotes

theorem M.noted.cores {still : Prop} {s t : M} (h : s.noted still t) : t.cores = s.cores := (congrArg M.cores h.rest :)

section
variable {s : M} {n e : Nat}

theorem run_settle_of_marks (h : (s.ring n e).marks = []) : settle n e s = ((), s) := by
  rw [settle, run_bind, run_get]
  dsimp only
  rw [h]
  rfl

/-! ## Decoding once -/

theorem run_decodeOnce_some {f : InFlight} (h : (s.ring n e).dec = some f) : decodeOnce n e s = (.inr f, s) := by
  rw [decodeOnce, run_bind, run_get]
  dsimp only
  rw [h]
  rfl

theorem run_decodeOnce_ok (h : (s.ring n e).dec = none) (hd : (decode n e (s.reg (Reg.coreRingRd n e)) s).1.status = 0) :
    decodeOnce n e s = (.inr ((decode n e (s.reg (Reg.coreRingRd n e)) s).1.entry (s.reg (Reg.coreRingRd n e))),
      (decode n e (s.reg (Reg.coreRingRd n e)) s).2.withRing n e fun g =>
        { g with dec := some ((decode n e (s.reg (Reg.coreRingRd n e)) s).1.entry (s.reg (Reg.coreRingRd n e))) }) := by
  rw [decodeOnce, run_bind, run_get]
  dsimp only
  rw [h]
  dsimp only
  rw [run_bind, run_ite, if_neg (not_not.2 hd)]
  rfl

theorem run_decodeOnce_bad (h : (s.ring n e).dec = none) (hd : (decode n e (s.reg (Reg.coreRingRd n e)) s).1.status ≠ 0) :
    decodeOnce n e s = (.inl (decode n e (s.reg (Reg.coreRingRd n e)) s).1.status, (decode n e (s.reg (Reg.coreRingRd n e)) s).2) := by
  rw [decodeOnce, run_bind, run_get]
  dsimp only
  rw [h]
  dsimp only
  rw [run_bind, run_ite, if_pos hd]
  rfl

/-- What is left of ring e of core n, of the other cores, and of the registers, once the record at RD has been decoded. -/
structure M.decodedTo (s : M) (n e : Nat) (t : M) : Prop where
  wf : t.wf = true
  regs : ∀ o, ¬ Reg.ofNotes o → t.reg o = s.reg o
  marks : (t.ring n e).marks = (s.ring n e).marks
  infl : (t.ring n e).infl = (s.ring n e).infl
  cores : ∀ k, k ≠ n → t.core k = s.core k

theorem decodeOnce_decodes (hw : s.wf = true) : s.decodedTo n e (decodeOnce n e s).2 := by
  have hdec := s.aboutNotes_noted.keeps_decode n e (s.reg (Reg.coreRingRd n e)) s (.refl _ s)
  have hwd := keepsWf_decode n e (s.reg (Reg.coreRingRd n e)) s hw
  have hcore : ∀ k, (decode n e (s.reg (Reg.coreRingRd n e)) s).2.core k = s.core k := fun k =>
    congrArg (Tab.read Core.init · k) hdec.cores
  have hwf := keepsWf_decodeOnce n e s hw
  cases h : (s.ring n e).dec with
  | some f =>
    rw [run_decodeOnce_some h]
    exact ⟨hw, fun _ _ => rfl, rfl, rfl, fun _ _ => rfl⟩
  | none =>
    by_cases hd : (decode n e (s.reg (Reg.coreRingRd n e)) s).1.status = 0
    · rw [run_decodeOnce_ok h hd] at hwf ⊢
      refine ⟨hwf, hdec.regs, ?_, ?_, fun k hk => (M.core_setCore_other _ _ hk).trans (hcore k)⟩
      all_goals
        rw [M.ring_withRing_self hwd, M.ring, hcore]
        rfl
    · rw [run_decodeOnce_bad h hd]
      refine ⟨hwd, hdec.regs, ?_, ?_, fun k _ => hcore k⟩
      all_goals rw [M.ring, hcore, M.ring]

/-! ## A record that fails -/

/-- Halts ring e of core n at record x, with what its registers and entries were before. -/
structure M.failsAt (s : M) (n e x status : Nat) (t : M) : Prop where
  halted : t.haltedAt n e x status
  rd : t.reg (Reg.coreRingRd n e) = s.reg (Reg.coreRingRd n e)
  passes : ∀ q, q < 256 → t.reg (Reg.corePassCount n q) = s.reg (Reg.corePassCount n q)
  infl : (t.ring n e).infl = (s.ring n e).infl

theorem keepsRings_raiseEvent (s : M) (cause : Nat) : Keeps s.sameRings (raiseEvent cause) := fun t h =>
  ⟨((congrArg M.cores ((keepsNoted_raiseEvent cause) t (.refl True t)).rest :)).trans h.cores, fun o ho =>
    (congrArg (Tab.read Reg.dflt · o) (raiseEvent_regs cause)).trans (h.regs o ho)⟩

theorem Reg.ofRings_rd (hn : n < 120) (he : e < 4) : Reg.ofRings (Reg.coreRingRd n e) := by
  simp only [Reg.ofRings, Reg.coreRingRd]
  omega

theorem Reg.ofRings_pass (hn : n < 120) {q : Nat} (hq : q < 256) : Reg.ofRings (Reg.corePassCount n q) := by
  simp only [Reg.ofRings, Reg.corePassCount]
  omega

theorem decodeFails_fails (hw : s.wf = true) (hn : n < 120) (he : e < 4) (x status : Nat) :
    s.failsAt n e x status (decodeFails n e x status s).2 := by
  rw [decodeFails, run_bind, run_bind, run_bind]
  have hwr := keepsWf_updRing n e (fun g => { g with credit := false, waited := 0, reserved := false, dec := none }) s hw
  have hring : ((updRing n e (fun g => { g with credit := false, waited := 0, reserved := false, dec := none }) s).2.ring n e).infl =
      (s.ring n e).infl :=
    (congrArg Ring.infl (M.ring_withRing_self hw n e fun g => { g with credit := false, waited := 0, reserved := false, dec := none }) :)
  have hreg : ∀ o, (updRing n e (fun g => { g with credit := false, waited := 0, reserved := false, dec := none }) s).2.reg o = s.reg o :=
    fun _ => rfl
  generalize (updRing n e _ s).2 = t at *
  have hws := keepsWf_whenA (c := status == 2) (keepsWf_raiseEvent 4) _ (keepsWf_statusEvent n e status t hwr)
  have hkept := keeps_whenA (c := status == 2) (keepsRings_raiseEvent t 4) _
    (t.aboutRings_sameRings.keeps_statusEvent n e status t ⟨rfl, fun _ _ => rfl⟩)
  generalize (whenA (status == 2) (raiseEvent 4) _).2 = u at *
  have hrd : Reg.coreRingRd n e ≠ Reg.coreRingCtl n e ∧ Reg.coreRingRd n e ≠ Reg.coreRingHaltIndex n e ∧
      Reg.coreRingRd n e ≠ Reg.coreRingState n e := by
    simp only [Reg.coreRingRd, Reg.coreRingCtl, Reg.coreRingHaltIndex, Reg.coreRingState]
    omega
  have hpass : ∀ q, q < 256 → Reg.corePassCount n q ≠ Reg.coreRingCtl n e ∧ Reg.corePassCount n q ≠ Reg.coreRingHaltIndex n e ∧
      Reg.corePassCount n q ≠ Reg.coreRingState n e := fun q hq => by
    simp only [Reg.corePassCount, Reg.coreRingCtl, Reg.coreRingHaltIndex, Reg.coreRingState]
    omega
  refine ⟨haltRing_haltedAt hn he hws x status, ?_, fun q hq => ?_, ?_⟩
  · rw [haltRing_reg _ _ _ _ _ (Reg.ofRings_rd hn he) hrd.1 hrd.2.1 hrd.2.2, hkept.regs _ (Reg.ofRings_rd hn he), hreg]
  · rw [haltRing_reg _ _ _ _ _ (Reg.ofRings_pass hn hq) (hpass q hq).1 (hpass q hq).2.1 (hpass q hq).2.2,
      hkept.regs _ (Reg.ofRings_pass hn hq), hreg]
  · rw [(haltRing_frame hws n e x status).1, M.ring, M.core, hkept.cores]
    exact hring

/-! ## An entry that passes -/

/-- The registers that the passing of an entry sets: its catch, its island's balance, and RD. -/
def M.passing (s : M) (n e : Nat) (f : InFlight) : M :=
  let p := s.posOf n
  let t := s.setReg (Reg.corePassCount n f.rcd.catchPass) (s.reg (Reg.corePassCount n f.rcd.catchPass) - f.rcd.catchN)
  let t := t.setReg (Reg.pwrBalance p) (ofSigned 64 (t.balance p + -(s.energy p e f.cls f.units : Int)))
  let t := (chargeUnits p f.cls f.units t).2
  (t.withRing n e fun g =>
    { g with infl := g.infl ++ [s.atIssue n e f], credit := false, waited := 0, reserved := false, dec := none }).setReg
      (Reg.coreRingRd n e) (trunc 32 (f.x + 1))

/-- What follows: the slot of a DRAIN, and the events. -/
def afterPassing (n e : Nat) (f : InFlight) : Act Unit := do
  match f.slot with
  | some k => whenA (f.rcd.op == 0x34) (updSlot n k fun sl => { sl with state := .draining })
  | none => pure ()
  engEvent n e 0x00 1
  engEvent n e 0x0D f.rcd.catchN
  engEvent n e (0x10 + f.cls) 1
  engEvent n e (0x20 + f.cls) f.units

theorem run_passPoint (f : InFlight) : (passPoint n e f s).2 = (afterPassing n e f (s.passing n e f)).2 := by
  unfold passPoint afterPassing
  cases f.slot with
  | none => rfl
  | some k => rfl

/-- A property that no slot of core n undoes, and no event of an engine. -/
theorem keeps_afterPassing {P : M → Prop} (hevent : ∀ k c x, Keeps P (engEvent n k c x)) (hslot : ∀ k f, Keeps P (updSlot n k f)) (f : InFlight) :
    Keeps P (afterPassing n e f) := by
  have hevents := keeps_bind (hevent e 0x00 1) fun _ => keeps_bind (hevent e 0x0D f.rcd.catchN) fun _ =>
    keeps_bind (hevent e (0x10 + f.cls) 1) fun _ => hevent e (0x20 + f.cls) f.units
  unfold afterPassing
  cases f.slot with
  | none => exact hevents
  | some k => exact keeps_bind (keeps_whenA (hslot _ _)) fun _ => hevents

/-- What the passing of an entry leaves: its catch and its energy are taken, RD has moved, and it is in flight. -/
structure M.passedTo (s : M) (n e : Nat) (f : InFlight) (t : M) : Prop where
  cores : Tab.wf Core.init t.cores = true
  rd : t.reg (Reg.coreRingRd n e) = trunc 32 (f.x + 1)
  pass : t.reg (Reg.corePassCount n f.rcd.catchPass) = s.reg (Reg.corePassCount n f.rcd.catchPass) - f.rcd.catchN
  balance : t.reg (Reg.pwrBalance (s.posOf n)) = ofSigned 64 (s.balance (s.posOf n) - (s.energy (s.posOf n) e f.cls f.units : Int))
  infl : (t.ring n e).infl = (s.ring n e).infl ++ [s.atIssue n e f]
  marks : (t.ring n e).marks = (s.ring n e).marks

theorem M.posOf_lt (s : M) (n : Nat) : s.posOf n < 128 := Nat.mod_lt _ (by decide)

theorem Rec.catchPass_lt (r : Rec) : r.catchPass < 256 := Nat.mod_lt _ (by decide)

section
variable (hn : n < 120) (he : e < 4) (f : InFlight)
include hn he

theorem aboutNotes_passedTo : AboutNotes (s.passedTo n e f) where
  setReg v ho h := by
    have hp := M.posOf_lt s n
    have hq := f.rcd.catchPass_lt
    refine ⟨h.cores, (M.reg_setReg_other _ _ ?_).trans h.rd, (M.reg_setReg_other _ _ ?_).trans h.pass,
      (M.reg_setReg_other _ _ ?_).trans h.balance, h.infl, h.marks⟩
    all_goals
      simp only [Reg.ofNotes, Reg.coreRingRd, Reg.corePassCount, Reg.pwrBalance] at *
      omega
  store _ _ h := ⟨h.cores, h.rd, h.pass, h.balance, h.infl, h.marks⟩
  log _ h := ⟨h.cores, h.rd, h.pass, h.balance, h.infl, h.marks⟩
  toHost o h := by
    unfold M.toHost
    split <;> exact ⟨h.cores, h.rd, h.pass, h.balance, h.infl, h.marks⟩

omit hn in
theorem passing_passes (hw : s.wf = true) : s.passedTo n e f (s.passing n e f) := by
  have hp := M.posOf_lt s n
  have hq := f.rcd.catchPass_lt
  have hapart : Reg.corePassCount n f.rcd.catchPass ≠ Reg.coreRingRd n e ∧ Reg.corePassCount n f.rcd.catchPass ≠ Reg.pwrBalance (s.posOf n) ∧
      Reg.pwrBalance (s.posOf n) ≠ Reg.coreRingRd n e := by
    simp only [Reg.corePassCount, Reg.coreRingRd, Reg.pwrBalance]
    omega
  obtain ⟨hpr, hpb, hbr⟩ := hapart
  have hw1 := M.wf_setReg (Reg.corePassCount n f.rcd.catchPass) (s.reg (Reg.corePassCount n f.rcd.catchPass) - f.rcd.catchN) hw
  unfold M.passing
  dsimp only
  have hbal : (s.setReg (Reg.corePassCount n f.rcd.catchPass) (s.reg (Reg.corePassCount n f.rcd.catchPass) - f.rcd.catchN)).balance (s.posOf n) =
      s.balance (s.posOf n) := congrArg (toSigned 64) (M.reg_setReg_other _ _ hpb.symm)
  rw [hbal]
  have hw2 := M.wf_setReg (Reg.pwrBalance (s.posOf n)) (ofSigned 64 (s.balance (s.posOf n) + -(s.energy (s.posOf n) e f.cls f.units : Int))) hw1
  have hb : ((s.setReg (Reg.corePassCount n f.rcd.catchPass) (s.reg (Reg.corePassCount n f.rcd.catchPass) - f.rcd.catchN)).setReg
      (Reg.pwrBalance (s.posOf n)) (ofSigned 64 (s.balance (s.posOf n) + -(s.energy (s.posOf n) e f.cls f.units : Int)))).reg
        (Reg.pwrBalance (s.posOf n)) = _ := M.reg_setReg_self _ _ _ hw1
  have hc : ((s.setReg (Reg.corePassCount n f.rcd.catchPass) (s.reg (Reg.corePassCount n f.rcd.catchPass) - f.rcd.catchN)).setReg
      (Reg.pwrBalance (s.posOf n)) (ofSigned 64 (s.balance (s.posOf n) + -(s.energy (s.posOf n) e f.cls f.units : Int)))).reg
        (Reg.corePassCount n f.rcd.catchPass) = _ := (M.reg_setReg_other _ _ hpb).trans (M.reg_setReg_self _ _ _ hw)
  have hcores : ((s.setReg (Reg.corePassCount n f.rcd.catchPass) (s.reg (Reg.corePassCount n f.rcd.catchPass) - f.rcd.catchN)).setReg
      (Reg.pwrBalance (s.posOf n)) (ofSigned 64 (s.balance (s.posOf n) + -(s.energy (s.posOf n) e f.cls f.units : Int)))).cores = s.cores := rfl
  generalize (s.setReg (Reg.corePassCount n f.rcd.catchPass) _).setReg (Reg.pwrBalance (s.posOf n)) _ = t at *
  have hw3 := keepsWf_chargeUnits (s.posOf n) f.cls f.units t hw2
  have hreg : ∀ o, (chargeUnits (s.posOf n) f.cls f.units t).2.reg o = t.reg o := fun _ => rfl
  have hcores3 : (chargeUnits (s.posOf n) f.cls f.units t).2.cores = s.cores := hcores
  generalize (chargeUnits (s.posOf n) f.cls f.units t).2 = u at *
  have hring : u.ring n e = s.ring n e := by rw [M.ring, M.core, hcores3]; rfl
  refine ⟨Tab.wf_put _ _ _ _ (M.wf_cores hw3), M.reg_setReg_self _ _ _ (M.wf_withRing hw3 n e _), ?_, ?_, ?_, ?_⟩
  · rw [M.reg_setReg_other _ _ hpr]
    exact (hreg _).trans hc
  · rw [M.reg_setReg_other _ _ hbr, ← sub_eq_add_neg] at *
    exact (hreg _).trans hb
  · rw [M.ring_setReg, M.ring_withRing_self hw3, hring]
  · rw [M.ring_setReg, M.ring_withRing_self hw3, hring]

theorem passPoint_passes (hw : s.wf = true) : s.passedTo n e f (passPoint n e f s).2 := by
  have hP := aboutNotes_passedTo (s := s) hn he f
  rw [run_passPoint]
  refine keeps_afterPassing (fun k c x => keeps_getThen fun _ => hP.keeps_posCount _ _ _ _ _ _) (fun k g t h => ?_) f _
    (passing_passes he f hw)
  have hring : ((updSlot n k g t).2.ring n e) = t.ring n e := by
    show (M.core (t.setCore n _) n).ring e = _
    rw [M.core_setCore h.cores, if_pos rfl, Core.ring_setSlot]
    rfl
  exact ⟨Tab.wf_put _ _ _ _ h.cores, h.rd, h.pass, h.balance, hring ▸ h.infl, hring ▸ h.marks⟩

end

theorem passPoint_leaves (f : InFlight) : (∀ k, k ≠ n → (passPoint n e f s).2.core k = s.core k) ∧ s.sameStores (passPoint n e f s).2 := by
  rw [run_passPoint]
  refine keeps_afterPassing (P := fun t => (∀ k, k ≠ n → t.core k = s.core k) ∧ s.sameStores t) (fun k c x t h => ?_) (fun k g t h => ?_) f _
    ⟨fun k hk => M.core_setCore_other _ _ hk, rfl, rfl⟩
  · obtain ⟨r, hr⟩ := engEvent_regs n k c x t
    rw [hr]
    exact h
  · exact ⟨fun j hj => (M.core_setCore_other _ _ hj).trans (h.1 j hj), h.2⟩

/-! ## The point itself -/

section
variable {t : M} (hm : (s.ring n e).marks = []) (htake : s.takesUp n e = true)
include hm htake

theorem run_issue_fails {status : Nat} (hd : decodeOnce n e s = (.inl status, t)) :
    issue n e none s = (false, (decodeFails n e (t.reg (Reg.coreRingRd n e)) status t).2) := by
  rw [issue, run_bind, run_settle_of_marks hm, run_bind, run_get]
  dsimp only
  rw [run_ite, if_neg (by simp [htake]), run_bind, hd, run_bind, run_get]
  rfl

theorem run_issue_busy {f : InFlight} (hd : decodeOnce n e s = (.inr f, t)) (hb : t.engineBusy n e f.rcd = true) :
    issue n e none s = (false, t) := by
  rw [issue, run_bind, run_settle_of_marks hm, run_bind, run_get]
  dsimp only
  rw [run_ite, if_neg (by simp [htake]), run_bind, hd, run_bind, run_get]
  dsimp only
  rw [run_ite, if_pos hb]
  rfl

theorem run_issue_unslotted {f : InFlight} (hd : decodeOnce n e s = (.inr f, t)) (hb : t.engineBusy n e f.rcd = false)
    (hs : t.atSlot n f = none) : issue n e none s = (false, (decodeFails n e f.x 1 t).2) := by
  rw [issue, run_bind, run_settle_of_marks hm, run_bind, run_get]
  dsimp only
  rw [run_ite, if_neg (by simp [htake]), run_bind, hd, run_bind, run_get]
  dsimp only
  rw [run_ite, if_neg (by simp [hb]), hs]
  rfl

theorem run_issue_starved {f g : InFlight} (hd : decodeOnce n e s = (.inr f, t)) (hb : t.engineBusy n e f.rcd = false)
    (hs : t.atSlot n f = some g) (hc : (t.starved n e g || t.outranked n e g) = true) :
    issue n e none s = (false, t.withRing n e fun r => { r with credit := true }) := by
  rw [issue, run_bind, run_settle_of_marks hm, run_bind, run_get]
  dsimp only
  rw [run_ite, if_neg (by simp [htake]), run_bind, hd, run_bind, run_get]
  dsimp only
  rw [run_ite, if_neg (by simp [hb]), hs]
  dsimp only
  rw [run_ite, if_pos hc]
  rfl

theorem run_issue_passes {f g : InFlight} (hd : decodeOnce n e s = (.inr f, t)) (hb : t.engineBusy n e f.rcd = false)
    (hs : t.atSlot n f = some g) (hc : (t.starved n e g || t.outranked n e g) = false)
    (hmp : ((passPoint n e g t).2.ring n e).marks = []) : issue n e none s = (true, (passPoint n e g t).2) := by
  rw [issue, run_bind, run_settle_of_marks hm, run_bind, run_get]
  dsimp only
  rw [run_ite, if_neg (by simp [htake]), run_bind, hd, run_bind, run_get]
  dsimp only
  rw [run_ite, if_neg (by simp [hb]), hs]
  dsimp only
  rw [run_ite, if_neg (by simp [hc]), run_bind, run_bind, run_settle_of_marks hmp]
  rfl

end

theorem run_issue_uncaught (hm : (s.ring n e).marks = []) (htake : s.takesUp n e = false) : issue n e none s = (false, s) := by
  rw [issue, run_bind, run_settle_of_marks hm, run_bind, run_get]
  dsimp only
  rw [run_ite, if_pos (by simp [htake])]
  rfl

end

/-! ## The command -/

theorem M.atIssue_rcd (s : M) (n e : Nat) (f : InFlight) : (s.atIssue n e f).rcd = f.rcd := by
  unfold M.atIssue
  dsimp only
  split <;> rfl

theorem M.starved_iff (s : M) (n e : Nat) (f : InFlight) : s.starved n e f = true ↔
    s.balance (s.posOf n) < ((min (s.energy (s.posOf n) e f.cls f.units) creditCap : Nat) : Int) ∨
      (s.otherReserved n e = true ∧ (s.ring n e).reserved = false ∧ f.cls ≠ 0 ∧ f.cls ≠ 14) := by
  simp [M.starved, M.requirement, and_assoc]

/-- Has the record an effect at the arbitration point that it has not had yet (R135)? -/
def InFlight.dueAtPoint (f : InFlight) : Bool := !f.started && decide (3 ≤ f.rcd.op) && decide (f.rcd.op ≤ 6)

section
variable {s : State} {t : M} {n e : Nat} (hl : s.m.board.live = true)
include hl

theorem exec_catchGrant_unissued (h : issue n e none s.m = (false, t)) : exec (.catchGrant n e) s = s.becomes t := by
  rw [exec, execCatchGrant, State.doing_live s _ hl, run_bind, h]
  rfl

theorem exec_catchGrant_plain (h : issue n e none s.m = (true, t)) (hf : (t.ring n e).infl.findIdx? InFlight.dueAtPoint = none) :
    exec (.catchGrant n e) s = s.becomes t := by
  rw [exec, execCatchGrant, State.doing_live s _ hl, run_bind, h]
  dsimp only
  rw [run_whenA_true, run_bind, run_get]
  dsimp only
  rw [show ((t.ring n e).infl.findIdx? fun f => !f.started && decide (3 ≤ f.rcd.op) && decide (f.rcd.op ≤ 6)) = none from hf]
  rfl

theorem exec_catchGrant_works (h : issue n e none s.m = (true, t)) {i : Nat} {f : InFlight}
    (hf : (t.ring n e).infl.findIdx? InFlight.dueAtPoint = some i) (hi : (t.ring n e).infl[i]? = some f) :
    exec (.catchGrant n e) s = s.becomes ((commonWork n e f.rcd.op { f with started := true } t).2.withEntry n e i
      (commonWork n e f.rcd.op { f with started := true } t).1) := by
  rw [exec, execCatchGrant, State.doing_live s _ hl, run_bind, h]
  dsimp only
  rw [run_whenA_true, run_bind, run_get]
  dsimp only
  rw [show ((t.ring n e).infl.findIdx? fun f => !f.started && decide (3 ≤ f.rcd.op) && decide (f.rcd.op ≤ 6)) = some i from hf]
  dsimp only
  rw [hi]
  rfl

section
variable (hm : (s.m.ring n e).marks = [])
include hm

theorem exec_decodeFailure_uncaught (htake : s.m.takesUp n e = false) : exec (.decodeFailure n e) s = .next s := by
  rw [exec, execDecodeFailure, State.doing_live s _ hl, run_bind, run_settle_of_marks hm, run_bind, run_get]
  dsimp only
  rw [htake]
  rfl

variable (htake : s.m.takesUp n e = true)
include htake

theorem exec_decodeFailure_bad {status : Nat} (hd : decodeOnce n e s.m = (.inl status, t)) :
    exec (.decodeFailure n e) s = s.becomes (decodeFails n e (t.reg (Reg.coreRingRd n e)) status t).2 := by
  rw [exec, execDecodeFailure, State.doing_live s _ hl, run_bind, run_settle_of_marks hm, run_bind, run_get]
  dsimp only
  rw [htake, run_whenA_true, run_bind, hd, run_bind, run_get]

theorem exec_decodeFailure_unslotted {f : InFlight} (hd : decodeOnce n e s.m = (.inr f, t)) (hb : t.engineBusy n e f.rcd = false)
    (hs : t.atSlot n f = none) : exec (.decodeFailure n e) s = s.becomes (decodeFails n e f.x 1 t).2 := by
  rw [exec, execDecodeFailure, State.doing_live s _ hl, run_bind, run_settle_of_marks hm, run_bind, run_get]
  dsimp only
  rw [htake, run_whenA_true, run_bind, hd, run_bind, run_get]
  dsimp only
  rw [run_ite, if_pos (by simp [hb, hs])]

theorem exec_decodeFailure_sound {f : InFlight} (hd : decodeOnce n e s.m = (.inr f, t))
    (hs : t.engineBusy n e f.rcd = true ∨ t.atSlot n f ≠ none) : exec (.decodeFailure n e) s = .next s := by
  rw [exec, execDecodeFailure, State.doing_live s _ hl, run_bind, run_settle_of_marks hm, run_bind, run_get]
  dsimp only
  rw [htake, run_whenA_true, run_bind, hd, run_bind, run_get]
  dsimp only
  rw [run_ite, if_neg]
  · rfl
  · rcases hs with hb | hs
    · simp [hb]
    · simp [hs]

end

end

/-- Settles O39: the record at RD is decoded once; it then halts its ring, waits, or passes and has its effect. -/
theorem recordsIssueAtTheArbitrationPoint : Obligations.RecordsIssueAtTheArbitrationPoint := by
  unfold Obligations.RecordsIssueAtTheArbitrationPoint
  intro s n e hl hw hn he hm hstarted x hcan hempty found m1 p halts
  have hd : decodeOnce n e s.m = (found, m1) := rfl
  have hto : s.m.decodedTo n e m1 := decodeOnce_decodes hw
  have htakes : s.m.takesUp n e = s.m.caught n e := by simp [M.takesUp, hcan, hempty]
  have hpos : m1.posOf n = p := by
    rw [M.posOf, hto.regs _ (by simp only [Reg.ofNotes, Reg.mgtCoreMap]; omega)]
    rfl
  have hrd : m1.reg (Reg.coreRingRd n e) = x := hto.regs _ (by simp only [Reg.ofNotes, Reg.coreRingRd]; omega)
  have hpass : ∀ q, q < 256 → m1.reg (Reg.corePassCount n q) = s.m.reg (Reg.corePassCount n q) := fun q hq =>
    hto.regs _ (by simp only [Reg.ofNotes, Reg.corePassCount]; omega)
  have hhalts : ∀ c y status, exec c s = s.becomes (decodeFails n e y status m1).2 → halts c y status := fun c y status hc => by
    obtain ⟨hh, hr, hp, hi⟩ := decodeFails_fails hto.wf hn he y status
    exact ⟨_, hc, hh, hr.trans hrd, fun q hq => (hp q hq).trans (hpass q hq), hi.trans hto.infl⟩
  refine ⟨fun r hr => ?_, fun f hf => ?_, fun hnone => ?_, fun hcaught => ?_, fun hcaught => ⟨fun status hfound => ?_, fun f hfound => ?_⟩⟩
  · rw [M.caught, hr]
    exact decide_eq_true_iff
  · exact Prod.mk.inj (run_decodeOnce_some hf)
  · intro d t
    exact ⟨fun h0 => Prod.mk.inj (run_decodeOnce_ok hnone h0), fun h0 => Prod.mk.inj (run_decodeOnce_bad hnone h0)⟩
  · exact ⟨exec_catchGrant_unissued hl (run_issue_uncaught hm (htakes.trans hcaught)),
      exec_decodeFailure_uncaught hl hm (htakes.trans hcaught)⟩
  · have hd' : decodeOnce n e s.m = (.inl status, m1) := hfound ▸ hd
    refine ⟨hhalts _ _ _ ?_, hhalts _ _ _ ?_⟩
    · exact hrd ▸ exec_catchGrant_unissued hl (run_issue_fails hm (htakes.trans hcaught) hd')
    · exact hrd ▸ exec_decodeFailure_bad hl hm (htakes.trans hcaught) hd'
  · have hd' : decodeOnce n e s.m = (.inr f, m1) := hfound ▸ hd
    have htake := htakes.trans hcaught
    refine ⟨fun hb => exec_catchGrant_unissued hl (run_issue_busy hm htake hd' hb), fun hb hs => ?_,
      fun hs => exec_decodeFailure_sound hl hm htake hd' hs, fun hb g hg => ?_⟩
    · exact ⟨hhalts _ _ _ (exec_catchGrant_unissued hl (run_issue_unslotted hm htake hd' hb hs)),
        hhalts _ _ _ (exec_decodeFailure_unslotted hl hm htake hd' hb hs)⟩
    intro need starves issued
    have hstarves : m1.starved n e g = true ↔ starves := by rw [M.starved_iff, hpos]
    have hafter := passPoint_passes hn he g hto.wf
    obtain ⟨hcores, hstores⟩ := passPoint_leaves (s := m1) (n := n) (e := e) g
    have hissue : ¬ starves → m1.outranked n e g = false → issue n e none s.m = (true, (passPoint n e g m1).2) := fun hns ho =>
      run_issue_passes hm htake hd' hb hg (by simp [ho, mt hstarves.1 hns]) (by rw [hafter.marks, hto.marks, hm])
    have hold : (s.m.ring n e).infl.findIdx? InFlight.dueAtPoint = none := by
      rw [List.findIdx?_eq_none_iff]
      intro f' hf'
      by_cases hop : 3 ≤ f'.rcd.op ∧ f'.rcd.op ≤ 6
      · simp [InFlight.dueAtPoint, hstarted f' hf' hop.1 hop.2]
      · simp only [InFlight.dueAtPoint, Bool.and_eq_false_iff, decide_eq_false_iff_not]
        omega
    have hinfl : ((passPoint n e g m1).2.ring n e).infl = (s.m.ring n e).infl ++ [issued] := by rw [hafter.infl, hto.infl]
    have hissued : issued.rcd = g.rcd := m1.atIssue_rcd n e g
    refine ⟨fun hwait => ?_, fun hns ho hop => ?_, fun hns ho h3 h6 hun => ?_⟩
    · refine exec_catchGrant_unissued hl (run_issue_starved hm htake hd' hb hg ?_)
      rw [Bool.or_eq_true]
      exact hwait.imp_left hstarves.2
    · refine ⟨_, exec_catchGrant_plain hl (hissue hns ho) ?_, hafter.rd, ?_, fun _ => ?_, hinfl, fun k hk => (hcores k hk).trans (hto.cores k hk),
        hstores⟩
      · rw [hinfl, List.findIdx?_append, hold]
        have : issued.dueAtPoint = false := by
          simp only [InFlight.dueAtPoint, hissued, Bool.and_eq_false_iff, decide_eq_false_iff_not]
          omega
        simp [List.findIdx?_cons, this]
      · rw [hafter.pass, hpass _ g.rcd.catchPass_lt]
      · have := hafter.balance
        rwa [hpos] at this
    · intro r
      have hdue : issued.dueAtPoint = true := by
        simp [InFlight.dueAtPoint, hissued, hun, h3, h6]
      have hwork := exec_catchGrant_works hl (hissue hns ho) (i := (s.m.ring n e).infl.length) (f := issued)
        (by rw [hinfl, List.findIdx?_append, hold]; simp [List.findIdx?_cons, hdue]) (by rw [hinfl]; simp)
      rw [hwork, hissued]

end Sys2Proof.Machine

/-! # Link events and resets of the function (R297, R298, R300, R319, R320, R378) -/

namespace Sys2Proof.Machine

/-! ## What was held is sent (R298) -/

/-- What goes out for an output that was held, as the link now allows. -/
def sentHeld (cxl : Bool) (o : Output) : List Output :=
  match o with
  | .hostWrite itom a r => completionWrites (itom && cxl) a r
  | o => [o]

theorem run_forA_emit (l : List Output) (m : M) : (forA l emit m).2 = { m with outs := l.reverse ++ m.outs } := by
  induction l generalizing m with
  | nil => rfl
  | cons o l ih =>
    rw [run_forA_cons, run_emit, ih]
    simp [M.out]

theorem run_sendHeld (cxl : Bool) (o : Output) (m : M) : (sendHeld cxl o m).2 = { m with outs := (sentHeld cxl o).reverse ++ m.outs } := by
  unfold sendHeld sentHeld
  cases o with
  | hostWrite itom a r => exact run_forA_emit _ m
  | _ => rfl

theorem run_forA_sendHeld (cxl : Bool) (l : List Output) (m : M) :
    (forA l (sendHeld cxl) m).2 = { m with outs := (l.flatMap (sentHeld cxl)).reverse ++ m.outs } := by
  induction l generalizing m with
  | nil => rfl
  | cons o l ih =>
    rw [run_forA_cons, run_sendHeld, ih]
    simp

/-! ## The completions that waited are written (R305, R313) -/

/-- The completions of queue q that waited for the link are written, and DONE has moved over them. -/
structure M.linked (s : M) (q : Nat) (t : M) : Prop where
  late : (t.queue q).late = []
  jobs : (t.queue q).jobs = (s.queue q).jobs
  done : (s.queue q).late ≠ [] → t.reg (Reg.hstQDone q) ∉ (t.queue q).written

/-- Queue q, and where its DONE stands, are as they were. -/
def M.sameQueue (s : M) (q : Nat) (t : M) : Prop := t.queue q = s.queue q ∧ t.reg (Reg.hstQDone q) = s.reg (Reg.hstQDone q)

/-- What the writing of queue q's late completions leaves alone. -/
structure M.writesLate (s : M) (q : Nat) (t : M) : Prop where
  wf : t.wf = true
  rest : { t with regs := s.regs, hostQ := s.hostQ } = s
  regs : ∀ o, o ≠ Reg.hstQDone q → t.reg o = s.reg o
  others : ∀ k, k ≠ q → t.queue k = s.queue k
  linked : s.linked q t
  idle : (s.queue q).late = [] → t = s

theorem writeLate_writes {s : M} (hw : s.wf = true) (q : Nat) : s.writesLate q (writeLate q s).2 := by
  rw [writeLate, run_bind, run_get]
  dsimp only
  by_cases hnil : (s.queue q).late = []
  · rw [run_whenA, hnil]
    exact ⟨hw, rfl, fun _ _ => rfl, fun _ _ => rfl, ⟨hnil, rfl, fun h => absurd hnil h⟩, fun _ => rfl⟩
  · rw [run_whenA, if_pos (by simpa using hnil), run_bind, run_updQueue]
    dsimp only
    have hwu := M.wf_putQueue q { s.queue q with written := (s.queue q).written ++ (s.queue q).late, late := [] } hw
    have hqu := M.queue_put hw q { s.queue q with written := (s.queue q).written ++ (s.queue q).late, late := [] }
    have hou := fun k (hk : k ≠ q) => M.queue_put_other s hk { s.queue q with written := (s.queue q).written ++ (s.queue q).late, late := [] }
    have hru : ∀ o, (s.putQueue q { s.queue q with written := (s.queue q).written ++ (s.queue q).late, late := [] }).reg o = s.reg o := fun _ => rfl
    have hrest : { s.putQueue q { s.queue q with written := (s.queue q).written ++ (s.queue q).late, late := [] } with hostQ := s.hostQ } = s := rfl
    change (M.queue (s.putQueue q _) q) = _ at hqu
    change (M.wf (s.putQueue q _)) = _ at hwu
    change ∀ k, k ≠ q → (M.queue (s.putQueue q _) k) = _ at hou
    generalize s.putQueue q _ = u at *
    have hadv := advanceDone_advances (q := q) hwu ((s.queue q).written.length + (s.queue q).late.length)
    have hstop := advanceDone_stops (q := q) hwu (fuel := (s.queue q).written.length + (s.queue q).late.length) (by rw [hqu, List.length_append])
    generalize (advanceDone q _ u).2 = t at *
    have hq := hadv.queue
    rw [hqu] at hq
    refine ⟨hadv.wf, (congrArg (fun v : M => { v with regs := s.regs, hostQ := s.hostQ }) hadv.rest :).trans
      (congrArg (fun v : M => { v with regs := s.regs }) hrest :), fun o ho => (hadv.regs o ho).trans (hru o),
      fun k hk => (hadv.others k hk).trans (hou k hk), ⟨(congrArg HostQ.late hq :), (congrArg HostQ.jobs hq :), fun _ => hstop⟩, fun h => absurd h hnil⟩

/-- All the queues' late completions are written, and nothing beside the queues and their DONE has changed. -/
structure M.linksUp (s t : M) : Prop where
  wf : t.wf = true
  rest : { t with regs := s.regs, hostQ := s.hostQ } = s
  regs : ∀ o, (∀ q, o ≠ Reg.hstQDone q) → t.reg o = s.reg o
  queues : ∀ q, s.sameQueue q t ∨ s.linked q t

theorem M.linksUp.writeLate {s t : M} (h : s.linksUp t) (q : Nat) : s.linksUp (writeLate q t).2 ∧ s.linked q (writeLate q t).2 := by
  have hq := writeLate_writes h.wf q
  generalize (Machine.writeLate q t).2 = u at *
  have hdone : s.linked q u := by
    rcases h.queues q with ⟨hsame, -⟩ | hlinked
    · exact ⟨hq.linked.late, hq.linked.jobs.trans (congrArg HostQ.jobs hsame), fun hl => hq.linked.done (hsame ▸ hl)⟩
    · exact hq.idle hlinked.late ▸ hlinked
  refine ⟨⟨hq.wf, (congrArg (fun v : M => { v with regs := s.regs, hostQ := s.hostQ }) hq.rest :).trans h.rest,
    fun o ho => (hq.regs o (ho q)).trans (h.regs o ho), fun k => ?_⟩, hdone⟩
  by_cases hk : k = q
  · exact .inr (hk ▸ hdone)
  · have hreg := hq.regs (Reg.hstQDone k) (by simp only [Reg.hstQDone]; omega)
    have hqk := hq.others k hk
    exact (h.queues k).imp (fun ⟨ha, hb⟩ => ⟨hqk.trans ha, hreg.trans hb⟩)
      fun hlk => ⟨hqk ▸ hlk.late, hqk ▸ hlk.jobs, fun hl => by rw [hqk, hreg]; exact hlk.done hl⟩

/-- The link is up once every queue's late completions are written. -/
theorem forA_writeLate {s : M} (hw : s.wf = true) : s.linksUp (forA (List.range 64) writeLate s).2 ∧
    ∀ q, q < 64 → s.linked q (forA (List.range 64) writeLate s).2 := by
  have hrefl : s.linksUp s := ⟨hw, rfl, fun _ _ => rfl, fun _ => .inl ⟨rfl, rfl⟩⟩
  have hkeeps : ∀ y, Keeps s.linksUp (writeLate y) := fun y t h => (h.writeLate y).1
  refine ⟨keeps_forA (fun y => hkeeps y) s hrefl, fun q hq => ?_⟩
  refine forA_settles (I := s.linksUp) (P := s.linked q) (x := q) (fun y _ => hkeeps y) (fun y _ t ht hor => ?_) hrefl (.inr (List.mem_range.2 hq))
  by_cases hy : q = y
  · exact hy ▸ (ht.writeLate q).2
  · have hlk := hor.resolve_right hy
    have hwr := writeLate_writes ht.wf y
    have hreg := hwr.regs (Reg.hstQDone q) (by simp only [Reg.hstQDone]; omega)
    have hqk := hwr.others q hy
    exact ⟨hqk ▸ hlk.late, hqk ▸ hlk.jobs, fun hl => by rw [hqk, hreg]; exact hlk.done hl⟩

/-! ## The link comes up -/

/-- The link's mode, lanes and speed are shown. -/
def showLink (cxl : Bool) (lanes speed : Nat) : Act Unit := do
  setField Reg.hstStatus 31 30 (if cxl then 2 else 1)
  setField Reg.hstStatus 29 25 lanes
  setField Reg.hstStatus 24 23 (speedCode speed)

/-- What was held has been sent, and none is counted as held. -/
def M.heldSent (s : M) (cxl : Bool) : M :=
  ({ s with outs := (s.cxl.held.flatMap (sentHeld cxl)).reverse ++ s.outs, cxl := { s.cxl with held := [] } } : M).setReg Reg.hstCmplHeld 0

section
variable {s : M} (hw : s.wf = true) (cxl : Bool) (lanes speed : Nat)
include hw

theorem keepsWf_showLink : (showLink cxl lanes speed s).2.wf = true := M.wf_setReg _ _ (M.wf_setReg _ _ (M.wf_setReg _ _ hw))

theorem showLink_status : (showLink cxl lanes speed s).2.reg Reg.hstStatus =
    setBits (setBits (setBits (s.reg Reg.hstStatus) 31 30 (if cxl then 2 else 1)) 29 25 lanes) 24 23 (speedCode speed) := by
  have hw1 := M.wf_setReg Reg.hstStatus (setBits (s.reg Reg.hstStatus) 31 30 (if cxl then 2 else 1)) hw
  simp only [showLink, run_bind, run_setField]
  rw [M.reg_setReg_self _ _ _ (M.wf_setReg _ _ hw1), M.reg_setReg_self _ _ _ hw1, M.reg_setReg_self _ _ _ hw]

omit hw in
theorem showLink_reg {o : Nat} (ho : o ≠ Reg.hstStatus) : (showLink cxl lanes speed s).2.reg o = s.reg o := by
  simp only [showLink, run_bind, run_setField]
  rw [M.reg_setReg_other _ _ ho, M.reg_setReg_other _ _ ho, M.reg_setReg_other _ _ ho]

omit hw in
theorem showLink_rest : { (showLink cxl lanes speed s).2 with regs := s.regs } = s := rfl

theorem M.wf_heldSent : (s.heldSent cxl).wf = true :=
  M.wf_setReg _ _ ((M.wf_congr (s := s) ⟨rfl, rfl, rfl, rfl, rfl, rfl, rfl, rfl, rfl, rfl, rfl⟩).trans hw)

theorem M.heldSent_count : (s.heldSent cxl).reg Reg.hstCmplHeld = 0 :=
  M.reg_setReg_self _ _ _ ((M.wf_congr (s := s) ⟨rfl, rfl, rfl, rfl, rfl, rfl, rfl, rfl, rfl, rfl, rfl⟩).trans hw)

omit hw in
theorem M.heldSent_reg {o : Nat} (ho : o ≠ Reg.hstCmplHeld) : (s.heldSent cxl).reg o = s.reg o := M.reg_setReg_other _ _ ho

end

theorem speedCode_lt (speed : Nat) : speedCode speed < 4 := by
  unfold speedCode
  split
  · decide
  · split
    · decide
    · split <;> decide

theorem speedCode_ne_zero {speed : Nat} : speedCode speed ≠ 0 ↔ speed ∈ [8, 16, 32] := by
  unfold speedCode
  simp only [List.mem_cons, List.not_mem_nil, or_false]
  split
  · simp [*]
  · split
    · simp [*]
    · split
      · simp [*]
      · simp [*]

/-! ## Resets of the function (R320) -/

/-- What a reset of the function leaves of fuses, secrets, flash and configuration, and that no job holds the cores of S. -/
structure M.resetting (s : M) (S : Nat → Prop) (t : M) : Prop where
  cores : Tab.wf Core.init t.cores = true
  jobs : ∀ n, S n → (t.core n).job = none
  cfg : t.cxl.cfg = s.cxl.cfg
  fuses : t.fuses = s.fuses
  sec : t.sec.still = s.sec.still
  flash : t.boot.flash = s.boot.flash

theorem M.resetting.setCore {s t : M} {S : Nat → Prop} (h : s.resetting S t) {k : Nat} {c : Core} (hc : (t.core k).job = none → c.job = none) :
    s.resetting S (t.setCore k c) := by
  refine ⟨Tab.wf_put _ _ _ _ h.cores, fun n hn => ?_, h.cfg, h.fuses, h.sec, h.flash⟩
  rw [M.core_setCore h.cores]
  split
  next hk => exact hc (hk ▸ h.jobs n hn)
  · exact h.jobs n hn

theorem Sec.still_ports {x : Sec} {l : List PortKeys} (h : l.map PortKeys.still = x.ports.map PortKeys.still) :
    ({ x with ports := l } : Sec).still = x.still := (congrArg (fun p => { x with ports := p }) h :)

theorem aboutCoreEnd_resetting (s : M) (S : Nat → Prop) (k : Nat) : AboutCoreEnd k (s.resetting S) where
  ends e _ := {
    setReg := fun _ _ h => ⟨h.cores, h.jobs, h.cfg, h.fuses, h.sec, h.flash⟩
    store := fun _ _ h => ⟨h.cores, h.jobs, h.cfg, h.fuses, h.sec, h.flash⟩
    log := fun _ h => ⟨h.cores, h.jobs, h.cfg, h.fuses, h.sec, h.flash⟩
    toHost := fun o h => by
      unfold M.toHost
      split
      · exact ⟨h.cores, h.jobs, h.cfg, h.fuses, h.sec, h.flash⟩
      · exact ⟨h.cores, h.jobs, h.cfg, h.fuses, h.sec, h.flash⟩
    count := fun _ _ h => ⟨h.cores, h.jobs, h.cfg, h.fuses, h.sec, h.flash⟩
    out := fun _ h => ⟨h.cores, h.jobs, h.cfg, h.fuses, h.sec, h.flash⟩
    ports := fun hl h => ⟨h.cores, h.jobs, h.cfg, h.fuses, (Sec.still_ports hl).trans h.sec, h.flash⟩
    trn := fun _ h => ⟨h.cores, h.jobs, h.cfg, h.fuses, h.sec, h.flash⟩
    isl := fun _ h => ⟨h.cores, h.jobs, h.cfg, h.fuses, h.sec, h.flash⟩
    draw := fun h => ⟨h.cores, h.jobs, h.cfg, h.fuses, h.sec, h.flash⟩
    abort := fun _ _ h => ⟨h.cores, h.jobs, h.cfg, h.fuses, h.sec, h.flash⟩
    rly := fun _ h => ⟨h.cores, h.jobs, h.cfg, h.fuses, h.sec, h.flash⟩
    core := fun he h => h.setCore ((congrArg Core.job he.rest).trans)
    own := fun _ _ h => ⟨h.cores, h.jobs, h.cfg, h.fuses, h.sec, h.flash⟩
    ring := fun g h => h.setCore (Core.job_setRing _ _ _).1.trans
    irq := fun h => h.setCore id }
  pass _ _ h := ⟨h.cores, h.jobs, h.cfg, h.fuses, h.sec, h.flash⟩
  held _ _ h := h.setCore id
  free h := h.setCore fun _ => rfl

/-- Core n ends if a job holds it. -/
def endHeld (n : Nat) : Act Unit := do
  let s ← get
  whenA (s.core n).job.isSome (endCore n)

theorem endHeld_frees {s t : M} {S : Nat → Prop} (hw : t.wf = true) (h : s.resetting S t) {n : Nat} (hn : n < 120) :
    s.resetting (fun k => S k ∨ k = n) (endHeld n t).2 := by
  rw [endHeld, run_bind, run_get, run_whenA]
  dsimp only
  split
  · have hkept := (aboutCoreEnd_resetting s S n).keeps_endCore t h
    have hjob := (endCore_ends hw hn).1.2.1
    generalize (endCore n t).2 = u at *
    exact ⟨hkept.cores, fun k hk => hk.elim (hkept.jobs k) fun hk => hk ▸ hjob, hkept.cfg, hkept.fuses, hkept.sec, hkept.flash⟩
  next hnone =>
    exact ⟨h.cores, fun k hk => hk.elim (h.jobs k) fun hk => by simpa [hk] using hnone, h.cfg, h.fuses, h.sec, h.flash⟩

theorem keepsWf_endHeld (n : Nat) : KeepsWf (endHeld n) := by
  unfold endHeld
  exact keepsWf_getThen fun _ _ => keepsWf_whenA (keepsWf_endCore n)

theorem keeps_endHeld (s : M) (S : Nat → Prop) (n : Nat) : Keeps (s.resetting S) (endHeld n) :=
  keeps_getThen fun _ => keeps_whenA (aboutCoreEnd_resetting s S n).keeps_endCore

/-- After every core that a job held has ended, none is held. -/
theorem forA_endHeld {s : M} (hw : s.wf = true) (k : Nat) (hk : k ≤ 120) : s.resetting (· < k) (forA (List.range k) endHeld s).2 := by
  have hrefl : ∀ S : Nat → Prop, (∀ n, ¬ S n) → s.resetting S s := fun S hS => ⟨M.wf_cores hw, fun n h => absurd h (hS n), rfl, rfl, rfl, rfl⟩
  have hone : ∀ n, n < k → s.resetting (· = n) (forA (List.range k) endHeld s).2 := fun n hn =>
    forA_settles (I := fun t => t.wf = true ∧ s.resetting (fun _ => False) t) (P := s.resetting (· = n)) (x := n)
      (fun y _ t ht => ⟨keepsWf_endHeld y t ht.1, keeps_endHeld s _ y t ht.2⟩)
      (fun y hy t ht hor => by
        by_cases hny : n = y
        · have := endHeld_frees ht.1 ht.2 (Nat.lt_of_lt_of_le (List.mem_range.1 hy) hk)
          exact ⟨this.cores, fun k hk => this.jobs k (.inr (hk.trans hny)), this.cfg, this.fuses, this.sec, this.flash⟩
        · exact keeps_endHeld s _ y t (hor.resolve_right hny))
      ⟨hw, hrefl _ fun _ => id⟩ (.inr (List.mem_range.2 hn))
  have hall := keeps_forA (fun y => keeps_endHeld s (fun _ => False) y) (l := List.range k) s (hrefl _ fun _ => id)
  exact ⟨hall.cores, fun n hn => (hone n hn).jobs n rfl, hall.cfg, hall.fuses, hall.sec, hall.flash⟩

/-- The registers of queue q that a reset of the function gives their reset values. -/
def Reg.ofQueue (q : Nat) : List Nat := [Reg.hstQBase q, Reg.hstQCmpl q, Reg.hstQCtl q, Reg.hstQWr q, Reg.hstQFetched q, Reg.hstQDone q,
  Reg.hstQState q, Reg.hstQAbortResult q]

/-- Queue q is forgotten, and its registers take their reset values. -/
def forgetQueue (q : Nat) : Act Unit := do
  updQueue q fun _ => {}
  forA (Reg.ofQueue q) fun r => wr r (Reg.dflt r)

/-- Queue q is as at reset. -/
structure M.forgot (q : Nat) (t : M) : Prop where
  wf : t.wf = true
  queue : t.queue q = {}
  regs : ∀ r ∈ Reg.ofQueue q, t.reg r = Reg.dflt r

/-- A register that takes its reset value leaves every queue as at reset that was. -/
theorem M.forgot.setDflt {q : Nat} {t : M} (h : t.forgot q) (r : Nat) : (t.setReg r (Reg.dflt r)).forgot q := by
  refine ⟨M.wf_setReg _ _ h.wf, h.queue, fun o ho => ?_⟩
  by_cases hor : o = r
  · rw [hor, M.reg_setReg_self _ _ _ h.wf]
  · rw [M.reg_setReg_other _ _ hor, h.regs o ho]

theorem keepsWf_writeDflts (l : List Nat) : KeepsWf (forA l fun r => wr r (Reg.dflt r)) :=
  keeps_forA (P := fun t : M => t.wf = true) fun _ _ h => M.wf_setReg _ _ h

theorem keepsWf_forgetQueue (q : Nat) : KeepsWf (forgetQueue q) := fun _ h => keepsWf_writeDflts _ _ (M.wf_putQueue _ _ h)

/-- Every register of a list that takes its reset value has it. -/
theorem writeDflts_reg {l : List Nat} {u : M} (hw : u.wf = true) {r : Nat} (h : u.reg r = Reg.dflt r ∨ r ∈ l) :
    (forA l (fun r => wr r (Reg.dflt r)) u).2.reg r = Reg.dflt r := by
  induction l generalizing u with
  | nil => exact h.resolve_right List.not_mem_nil
  | cons o l ih =>
    rw [run_forA_cons, run_wr]
    refine ih (M.wf_setReg _ _ hw) ?_
    by_cases hro : r = o
    · exact .inl (by rw [hro, M.reg_setReg_self _ _ _ hw])
    · rw [M.reg_setReg_other _ _ hro]
      exact h.imp_right fun hm => (List.mem_cons.1 hm).resolve_left hro

theorem run_forgetQueue (q : Nat) (t : M) :
    (forgetQueue q t).2 = (forA (Reg.ofQueue q) (fun r => wr r (Reg.dflt r)) (t.putQueue q {})).2 := rfl

theorem forgetQueue_forgets {t : M} (hw : t.wf = true) (q : Nat) : (forgetQueue q t).2.forgot q := by
  have hwq : (t.putQueue q {}).wf = true := M.wf_putQueue q {} hw
  have hqueue : (t.putQueue q {}).queue q = {} := M.queue_put hw q _
  rw [run_forgetQueue]
  generalize t.putQueue q {} = u at *
  exact ⟨keepsWf_writeDflts _ u hwq, keeps_forA (P := fun u : M => u.queue q = {}) (fun _ _ h => h) u hqueue,
    fun r hr => writeDflts_reg hwq (.inr hr)⟩

theorem M.forgot.forgetQueue {q : Nat} {t : M} (h : t.forgot q) {k : Nat} (hk : q ≠ k) : (forgetQueue k t).2.forgot q := by
  have hput : M.forgot q (t.putQueue k {}) := ⟨M.wf_putQueue _ _ h.wf, (M.queue_put_other t hk _).trans h.queue, h.regs⟩
  exact keeps_forA (P := M.forgot q) (fun r _ hu => hu.setDflt r) _ hput

/-- All queues are forgotten. -/
theorem forA_forgetQueue {t : M} (hw : t.wf = true) {q : Nat} (hq : q < 64) : (forA (List.range 64) forgetQueue t).2.forgot q :=
  forA_settles (I := fun u : M => u.wf = true) (P := M.forgot q) (x := q) (fun y _ => keepsWf_forgetQueue y)
    (fun y _ u hu hor => by
      by_cases hy : q = y
      · exact hy ▸ forgetQueue_forgets hu q
      · exact (hor.resolve_right hy).forgetQueue hy)
    hw (.inr (List.mem_range.2 hq))

/-- What the queues leave alone. -/
theorem forA_forgetQueue_rest (t : M) : { (forA (List.range 64) forgetQueue t).2 with regs := t.regs, hostQ := t.hostQ } = t := by
  refine keeps_forA (P := fun u : M => { u with regs := t.regs, hostQ := t.hostQ } = t) (fun q u hu => ?_) t rfl
  exact keeps_forA (P := fun u : M => { u with regs := t.regs, hostQ := t.hostQ } = t) (fun r u hu => hu) _ hu

theorem functionReset_eq : functionReset = (do
    let s ← get
    forA (List.range s.nCores) endHeld
    forA (List.range 64) forgetQueue
    modify fun s => { s with cxl := { s.cxl with cfg := s.cxl.cfg.filter fun x => !cfgCleared x.1 } }) := by
  delta functionReset endHeld forgetQueue Reg.ofQueue
  with_reducible rfl

theorem run_functionReset (s : M) : (functionReset s).2 =
    let t := (forA (List.range 64) forgetQueue (forA (List.range s.nCores) endHeld s).2).2
    { t with cxl := { t.cxl with cfg := t.cxl.cfg.filter fun x => !cfgCleared x.1 } } := by
  rw [functionReset_eq, run_bind, run_get, run_bind, run_bind, run_modify]

section
variable {s : State} (hl : s.m.board.live = true) (hw : s.m.wf = true)
include hl

theorem exec_cxlLinkUp_bad (cxl : Bool) {lanes speed : Nat}
    (h : ¬ (bits (s.m.reg Reg.hstStatus) 31 30 = 0 ∧ lanes ∈ [4, 8, 16] ∧ speed ∈ [8, 16, 32])) : exec (.cxlLinkUp cxl lanes speed) s = .next s := by
  rw [exec, execCxlLinkUp, State.doing_live s _ hl, run_bind, run_get]
  dsimp only
  rw [run_whenA, if_neg]
  rw [← speedCode_ne_zero] at h
  simp only [Bool.and_eq_true, beq_iff_eq, bne_iff_ne, List.contains_iff_mem]
  tauto

theorem exec_cxlLinkUp_ok (cxl : Bool) {lanes speed : Nat}
    (h : bits (s.m.reg Reg.hstStatus) 31 30 = 0 ∧ lanes ∈ [4, 8, 16] ∧ speed ∈ [8, 16, 32]) : exec (.cxlLinkUp cxl lanes speed) s =
      s.becomes (forA (List.range 64) writeLate ((showLink cxl lanes speed s.m).2.heldSent cxl)).2 := by
  rw [exec, execCxlLinkUp, State.doing_live s _ hl, run_bind, run_get]
  dsimp only
  rw [← speedCode_ne_zero] at h
  rw [run_whenA, if_pos (by simp only [Bool.and_eq_true, beq_iff_eq, bne_iff_ne, List.contains_iff_mem]; tauto)]
  have hsend : ∀ t : M, t.cxl = s.m.cxl → ({ (forA s.m.cxl.held (sendHeld cxl) t).2 with
      cxl := { (forA s.m.cxl.held (sendHeld cxl) t).2.cxl with held := [] } } : M).setReg Reg.hstCmplHeld 0 = t.heldSent cxl := fun t ht => by
    rw [run_forA_sendHeld, M.heldSent, ht]
  simp only [run_bind, run_modify, run_wr]
  rw [show (setField Reg.hstStatus 24 23 (speedCode speed) (setField Reg.hstStatus 29 25 lanes
    (setField Reg.hstStatus 31 30 (if cxl then 2 else 1) s.m).2).2).2 = (showLink cxl lanes speed s.m).2 from rfl]
  exact congrArg (fun t => s.becomes (forA (List.range 64) writeLate t).2) (hsend (showLink cxl lanes speed s.m).2 rfl)

include hw

omit hl in
theorem linkUp_ends (cxl : Bool) {lanes speed : Nat} (hlanes : lanes ∈ [4, 8, 16]) :
    let m := (forA (List.range 64) writeLate ((showLink cxl lanes speed s.m).2.heldSent cxl)).2
    bits (m.reg Reg.hstStatus) 31 30 = (if cxl then 2 else 1) ∧ bits (m.reg Reg.hstStatus) 29 25 = lanes ∧
      bits (m.reg Reg.hstStatus) 24 23 = speedCode speed ∧ m.outs = (s.m.cxl.held.flatMap (sentHeld cxl)).reverse ++ s.m.outs ∧
      m.cxl = { s.m.cxl with held := [] } ∧ m.reg Reg.hstCmplHeld = 0 ∧
      (∀ q, q < 64 → (m.queue q).late = [] ∧ (m.queue q).jobs = (s.m.queue q).jobs ∧
        ((s.m.queue q).late ≠ [] → m.reg (Reg.hstQDone q) ∉ (m.queue q).written)) ∧ m.cores = s.m.cores ∧ s.m.sameStores m := by
  have hstatus := showLink_status hw cxl lanes speed
  have hshow := keepsWf_showLink hw cxl lanes speed
  have hrest := showLink_rest (s := s.m) cxl lanes speed
  generalize (showLink cxl lanes speed s.m).2 = t at *
  have hcount := M.heldSent_count hshow cxl
  have hreg := (t.heldSent_reg cxl (o := Reg.hstStatus) (by decide)).trans hstatus
  obtain ⟨hup, hlinked⟩ := forA_writeLate (M.wf_heldSent hshow cxl)
  have houts : (t.heldSent cxl).outs = (s.m.cxl.held.flatMap (sentHeld cxl)).reverse ++ s.m.outs := by
    rw [← hrest]
    rfl
  have hcxl : (t.heldSent cxl).cxl = { s.m.cxl with held := [] } := by
    rw [← hrest]
    rfl
  have hsame : (t.heldSent cxl).hostQ = s.m.hostQ ∧ (t.heldSent cxl).cores = s.m.cores ∧ s.m.sameStores (t.heldSent cxl) := by
    rw [← hrest]
    exact ⟨rfl, rfl, rfl, rfl⟩
  generalize t.heldSent cxl = u at *
  dsimp only
  generalize (forA (List.range 64) writeLate u).2 = m at *
  have hdone : ∀ q, Reg.hstStatus ≠ Reg.hstQDone q ∧ Reg.hstCmplHeld ≠ Reg.hstQDone q := fun q => by
    simp only [Reg.hstStatus, Reg.hstCmplHeld, Reg.hstQDone]
    omega
  have hmstatus : m.reg Reg.hstStatus = _ := (hup.regs _ fun q => (hdone q).1).trans hreg
  have hqueue : ∀ q, u.queue q = s.m.queue q := fun q => by rw [M.queue, hsame.1]; rfl
  have hl5 : lanes % 2 ^ (29 + 1 - 25) = lanes := by
    simp only [List.mem_cons, List.not_mem_nil, or_false] at hlanes
    rcases hlanes with h | h | h <;> simp [h]
  refine ⟨?_, ?_, ?_, (congrArg M.outs hup.rest :).trans houts, (congrArg M.cxl hup.rest :).trans hcxl,
    (hup.regs _ fun q => (hdone q).2).trans hcount, fun q hq => ?_, (congrArg M.cores hup.rest :).trans hsame.2.1,
    (congrArg M.mem hup.rest :).trans hsame.2.2.1, (congrArg M.chk hup.rest :).trans hsame.2.2.2⟩
  · rw [hmstatus, bits_setBits_above (by decide) (by decide), bits_setBits_above (by decide) (by decide), bits_setBits_self (by decide)]
    cases cxl <;> rfl
  · rw [hmstatus, bits_setBits_above (by decide) (by decide), bits_setBits_self (by decide), hl5]
  · rw [hmstatus, bits_setBits_self (by decide)]
    exact Nat.mod_eq_of_lt (speedCode_lt speed)
  · have hq' := hlinked q hq
    rw [← hqueue]
    exact ⟨hq'.late, hq'.jobs, hq'.done⟩

omit hl in
theorem functionReset_ends : let m := (functionReset s.m).2
    (∀ n, n < s.m.nCores → (m.core n).job = none) ∧ m.cxl.cfg = s.m.cxl.cfg.filter (fun x => !cfgCleared x.1) ∧
      (∀ q, q < 64 → m.queue q = {} ∧ ∀ r ∈ [Reg.hstQBase q, Reg.hstQCmpl q, Reg.hstQCtl q, Reg.hstQWr q, Reg.hstQFetched q,
        Reg.hstQDone q, Reg.hstQAbortResult q], m.reg r = Reg.dflt r) ∧
      m.fuses = s.m.fuses ∧ m.sec.still = s.m.sec.still ∧ m.boot.flash = s.m.boot.flash := by
  have hends := forA_endHeld hw s.m.nCores s.m.nCores_le
  have hwe : (forA (List.range s.m.nCores) endHeld s.m).2.wf = true :=
    keeps_forA (P := fun t : M => t.wf = true) (fun n => keepsWf_endHeld n) s.m hw
  rw [run_functionReset]
  generalize (forA (List.range s.m.nCores) endHeld s.m).2 = t at *
  have hforgot := fun q (hq : q < 64) => forA_forgetQueue hwe hq
  have hrest := forA_forgetQueue_rest t
  generalize (forA (List.range 64) forgetQueue t).2 = u at *
  have hcores : u.cores = t.cores := (congrArg M.cores hrest :)
  refine ⟨fun n hn => ?_, ?_, fun q hq => ⟨(hforgot q hq).queue, fun r hr => (hforgot q hq).regs r ?_⟩, ?_, ?_, ?_⟩
  · rw [M.core, hcores]
    exact hends.jobs n hn
  · have hcxl : u.cxl = t.cxl := (congrArg M.cxl hrest :)
    rw [← hends.cfg, ← hcxl]
  · simp only [List.mem_cons, List.not_mem_nil, or_false] at hr
    simp only [Reg.ofQueue, List.mem_cons, List.not_mem_nil, or_false]
    tauto
  · exact (congrArg M.fuses hrest :).trans hends.fuses
  · exact (congrArg (fun v : M => v.sec.still) hrest :).trans hends.sec
  · exact (congrArg (fun v : M => v.boot.flash) hrest :).trans hends.flash

end

/-- The Data Object Exchange mailbox leaves the configuration's dwords alone. -/
theorem doeWrite_cfg (d v : Nat) (m : M) : (doeWrite d v m).2.cxl.cfg = m.cxl.cfg := by
  rw [doeWrite, run_modify]
  dsimp only
  split
  · split
    · rfl
    · split <;> rfl
  · split
    · rfl
    · split <;> rfl

/-- Settles O35: the link's events and the resets of the function, configuration space, and the loss of IDE integrity. -/
theorem linkEventsAndResets : Obligations.LinkEventsAndResets := by
  unfold Obligations.LinkEventsAndResets
  intro s hl hw
  refine ⟨?_, ?_, ?_, ?_, ?_, ?_, ?_⟩
  · rw [exec, execCxlLinkDown, State.doing_live s _ hl, run_setField]
  · intro cxl lanes speed ok sent
    refine ⟨fun hok => ⟨_, exec_cxlLinkUp_ok hl cxl hok, ?_⟩, fun hok => exec_cxlLinkUp_bad hl cxl hok⟩
    have hsent : sent = s.m.cxl.held.flatMap (sentHeld cxl) := by
      refine congrArg (s.m.cxl.held.flatMap ·) (funext fun o => ?_)
      cases o <;> rfl
    rw [hsent]
    exact linkUp_ends hw cxl hok.2.1
  · intro c hc
    have hrun : exec c s = s.becomes (functionReset s.m).2 := by
      simp only [List.mem_cons, List.not_mem_nil, or_false] at hc
      rcases hc with rfl | rfl
      · rw [exec, execHotReset, State.doing_live s _ hl]
      · rw [exec, execFunctionLevelReset, State.doing_live s _ hl]
    exact ⟨_, hrun, functionReset_ends hw⟩
  · intro o v at' m1
    rw [exec, execConfigRequest, State.doing_live s _ hl, run_bind, run_get]
    dsimp only
    rw [run_ite, if_pos rfl, run_bind, run_whenA, run_modify]
    by_cases hc : Config.doeCap ≤ at'
    · rw [if_pos (decide_eq_true hc), show m1 = (doeWrite (at' - Config.doeCap) (trunc 32 v) s.m).2 from if_pos hc, doeWrite_cfg]
    · rw [if_neg (by simpa using hc), show m1 = s.m from if_neg hc]
  · intro o v
    rw [exec, execConfigRequest, State.doing_live s _ hl, run_bind, run_get]
    dsimp only
    rw [run_ite, if_neg (by decide), run_emit]
  · intro x hx hfind v
    rw [exec, execConfigRequest, State.doing_live s _ hl, run_bind, run_get]
    dsimp only
    rw [run_ite, if_neg (by decide), run_emit]
    have hdword : trunc 32 (s.m.cfgDword x.1) = x.2 := by
      simp only [List.mem_cons, List.not_mem_nil, or_false] at hx
      unfold M.cfgDword
      rcases hx with rfl | rfl | rfl | rfl | rfl | rfl
      all_goals
        dsimp only at hfind ⊢
        simp only [Nat.reduceDiv, Nat.reduceMul, hfind, barShape]
        rfl
    rw [hdword]
  · refine ⟨_, by rw [exec, execIdeIntegrityFailure, State.doing_live s _ hl], ?_, ?_⟩
    · simp only [run_bind, run_setField, run_modify]
      show (_ || (bit ((s.m.setReg Reg.hstStatus (setBits (s.m.reg Reg.hstStatus) 22 21 0)).reg Reg.hstStatus) 22 &&
        bit ((s.m.setReg Reg.hstStatus (setBits (s.m.reg Reg.hstStatus) 22 21 0)).reg Reg.hstStatus) 21)) = false
      have hbits : ∀ i, 21 ≤ i → i ≤ 22 → bit (setBits (s.m.reg Reg.hstStatus) 22 21 0) i = false := fun i h1 h2 => by
        have h := bits_setBits_self (hi := 22) (lo := 21) (by decide) (s.m.reg Reg.hstStatus) 0
        have ht := congrArg (fun v => v.testBit (i - 21)) h
        simp only [bits, Nat.testBit_mod_two_pow, Nat.testBit_shiftRight, Nat.zero_mod, Nat.zero_testBit] at ht
        rw [show 21 + (i - 21) = i by omega] at ht
        simpa [bit, show i - 21 < 22 + 1 - 21 by omega] using ht
      rw [M.reg_setReg_self _ _ _ hw, hbits 22 (by decide) (by decide)]
      simp
    · simp only [run_bind, run_setField, run_modify]
      rfl

end Sys2Proof.Machine

/-! # Links that go down (R247, R267) -/

namespace Sys2Proof.Machine

theorem AboutRegs.aboutSending {K : Nat → Prop} {P : M → Prop} (hP : AboutRegs K P) (hK : ∀ o, K o → ¬ Reg.ofTraffic o) : AboutSending P where
  count v ho h := hP.setReg v (fun hk => hK _ hk ho) h
  out _ h := hP.same h rfl
  ports _ h := hP.same h rfl
  trn _ h := hP.same h rfl
  isl _ h := hP.same h rfl

/-- The registers of port p that show its link. -/
theorem Reg.not_ofTraffic_status {p : Nat} (hp : p < 64) : ¬ Reg.ofTraffic (Reg.ethPortStatus p) := by
  simp only [Reg.ofTraffic, Reg.ethPortStatus, Reg.trnCtxMisses, Reg.trnCtxStalls, Reg.trnRetx, Reg.trnDrops, List.mem_cons, List.not_mem_nil,
    or_false]
  omega

/-- The packets of a path go at once on other paths. -/
def resendPath (k : Option Nat) (s : M) : Act Unit :=
  match k with
  | none => pure ()
  | some k => forA s.peers fun n => whenA ((s.rally n).out == 2) (forA ((s.rally n).unacked.filter (·.path = k)) fun p => retransmit n p)

theorem AboutSending.keeps_resendPath {P : M → Prop} (hP : AboutSending P) (k : Option Nat) (s : M) : Keeps P (resendPath k s) := by
  cases k with
  | none => exact keeps_pure _
  | some k => exact keeps_forA fun _ => keeps_whenA (keeps_forA fun _ => hP.keeps_retransmit _ _)

/-- The status of port p as its link goes down. -/
def M.shownDown (s : M) (p link : Nat) : M :=
  let t := s.setReg (Reg.ethPortStatus p) (setBits (s.reg (Reg.ethPortStatus p)) 31 30 link)
  t.setReg (Reg.ethPortStatus p) (setBits (t.reg (Reg.ethPortStatus p)) 29 29 0)

theorem linkDown_up {s : M} {p : Nat} (h : s.linkUp p = true) (link : Nat) :
    linkDown p link s = resendPath (s.pathPorts.findIdx? (· = p)) s (s.shownDown p link) := by
  rw [linkDown, run_bind, run_get]
  dsimp only
  rw [h, run_whenA_true, run_bind, run_bind]
  simp only [resendPath]
  cases s.pathPorts.findIdx? (· = p) <;> rfl

theorem linkDown_down {s : M} {p : Nat} (h : s.linkUp p = false) (link : Nat) : linkDown p link s = ((), s) := by
  rw [linkDown, run_bind, run_get]
  dsimp only
  rw [h]
  rfl

/-- A property that neither frames undo nor the status of port p outlasts its link. -/
theorem AboutSending.keeps_linkDown {P : M → Prop} (hP : AboutSending P) {p : Nat} (hst : ∀ {t} v, P t → P (t.setReg (Reg.ethPortStatus p) v))
    (link : Nat) : Keeps P (linkDown p link) := fun s h => by
  cases hup : s.linkUp p with
  | true =>
    rw [linkDown_up hup]
    exact hP.keeps_resendPath _ _ _ (hst _ (hst _ h))
  | false => rwa [linkDown_down hup]

section
variable {p : Nat} (hp : p < 64)
include hp

/-- What port p's status shows, while frames are sent. -/
theorem aboutSending_status (Q : Nat → Prop) : AboutSending fun t => Q (t.reg (Reg.ethPortStatus p)) :=
  AboutRegs.aboutSending (K := (· = Reg.ethPortStatus p)) ⟨fun hreg h => (hreg _ rfl).symm ▸ h⟩ fun _ h => h ▸ Reg.not_ofTraffic_status hp

theorem linkDown_status {s : M} (hw : s.wf = true) (h : s.linkUp p = true) (link : Nat) : (linkDown p link s).2.reg (Reg.ethPortStatus p) =
    setBits (setBits (s.reg (Reg.ethPortStatus p)) 31 30 link) 29 29 0 := by
  rw [linkDown_up h]
  refine (aboutSending_status hp (· = _)).keeps_resendPath _ _ _ ?_
  rw [M.shownDown, M.reg_setReg_self _ _ _ (M.wf_setReg _ _ hw), M.reg_setReg_self _ _ _ hw]

end

/-- LINK of a port shows what its training answers, once its link is down. -/
theorem linkDown_trains {s : M} (hw : s.wf = true) {p : Nat} (hp : p < 64) (h : s.linkUp p = true) {link : Nat} (hlink : link < 4) :
    bits ((linkDown p link s).2.reg (Reg.ethPortStatus p)) 31 30 = link := by
  rw [linkDown_status hp hw h, bits_setBits_above (by decide) (by decide), bits_setBits_self (by decide)]
  exact Nat.mod_eq_of_lt hlink

theorem M.trains_lt (s : M) (p : Nat) : s.trains p < 4 := by
  unfold M.trains
  cases bit (s.reg (Reg.ethPortCtl p)) 28 <;> decide

/-- Board, stores, cores and the state of bring-up, which links do not reach. -/
structure M.besideLinks (s t : M) : Prop where
  board : t.board = s.board
  stores : s.sameStores t
  cores : t.cores = s.cores
  boot : t.boot = s.boot

theorem aboutSending_besideLinks (s : M) : AboutSending s.besideLinks where
  count _ _ h := ⟨h.board, h.stores, h.cores, h.boot⟩
  out _ h := ⟨h.board, h.stores, h.cores, h.boot⟩
  ports _ h := ⟨h.board, h.stores, h.cores, h.boot⟩
  trn _ h := ⟨h.board, h.stores, h.cores, h.boot⟩
  isl _ h := ⟨h.board, h.stores, h.cores, h.boot⟩

/-- Every link that was up goes down, and shows what its port's training answers. -/
theorem linksDown_trains {s t : M} (hw : t.wf = true) {k q : Nat} (hk : k ≤ 64) (hq : q < k) (hup : t.linkUp q = true) :
    bits ((forA (List.range k) (fun p => linkDown p (s.trains p)) t).2.reg (Reg.ethPortStatus q)) 31 30 = s.trains q := by
  have hstatus := aboutSending_status (p := q) (hq.trans_le hk)
  have hother : ∀ p, q ≠ p → ∀ {t : M} v, (t.setReg (Reg.ethPortStatus p) v).reg (Reg.ethPortStatus q) = t.reg (Reg.ethPortStatus q) :=
    fun p hne t v => M.reg_setReg_other _ _ (by simp only [Reg.ethPortStatus]; omega)
  refine forA_settles (I := fun t => t.wf = true ∧ (t.linkUp q = true ∨ bits (t.reg (Reg.ethPortStatus q)) 31 30 = s.trains q))
    (P := fun t => bits (t.reg (Reg.ethPortStatus q)) 31 30 = s.trains q) (x := q) (fun p hp t ht => ?_) (fun p hp t ht hor => ?_)
    ⟨hw, .inl hup⟩ (.inr (List.mem_range.2 hq))
  · refine ⟨keepsWf_linkDown _ _ _ ht.1, ?_⟩
    by_cases hqp : q = p
    · subst hqp
      cases h : t.linkUp q with
      | true => exact .inr (linkDown_trains ht.1 (hq.trans_le hk) h (s.trains_lt q))
      | false =>
        rw [linkDown_down h]
        exact ht.2
    · exact (hstatus fun v => (bits v 31 30 == 2) = true ∨ bits v 31 30 = s.trains q).keeps_linkDown
        (fun v h => by rwa [hother p hqp]) _ t ht.2
  · by_cases hqp : q = p
    · subst hqp
      cases h : t.linkUp q with
      | true => exact linkDown_trains ht.1 (hq.trans_le hk) h (s.trains_lt q)
      | false =>
        rw [linkDown_down h]
        exact ht.2.resolve_left (by simp [h])
    · exact (hstatus fun v => bits v 31 30 = s.trains q).keeps_linkDown (fun v h => by rwa [hother p hqp]) _ t (hor.resolve_right hqp)

end Sys2Proof.Machine

/-! # The test port, the PMBus target, PORT_OFF# and cables (R433, R434, R436 to R438) -/

namespace Sys2Proof.Machine

/-! ## The test port -/

/-- An instruction of the test port, once its rail is up. -/
theorem run_tapDo {m : M} (hm : m.board.powered = true) (k v : Nat) :
    tapDo k v m = ((), ({ m with board := { m.board with tap := k } } : M).out (.tap v)) := by
  rw [tapDo, run_bind, run_get, run_whenA, if_pos hm]
  rfl

theorem run_testPort {s : State} (hp : s.m.board.powered = true) :
    let tap := fun (k v : Nat) => s.becomes (({ s.m with board := { s.m.board with tap := k } } : M).out (.tap v))
    exec .idcode s = tap 0 0x1A9017AB ∧ exec .bypass s = tap 1 0 ∧
      (∀ v, exec (.samplePreload v) s = s.becomes (({ s.m with board := { s.m.board with tap := 2, boundary := v } } : M).out (.tap v))) ∧
      (s.m.board.perst9 = true ∨ s.m.board.perst10 = true →
        exec .extest s = tap 3 s.m.board.boundary ∧ exec .clamp s = tap 4 0 ∧ exec .highz s = tap 5 0) ∧
      (s.m.board.perst9 = false → s.m.board.perst10 = false →
        exec .extest s = tap 1 0 ∧ exec .clamp s = tap 1 0 ∧ exec .highz s = tap 1 0) := by
  intro tap
  have htap : ∀ k v, s.always (tapDo k v) = tap k v := fun k v => by rw [State.always, run_tapDo hp]
  have hheld : ∀ (k : Nat) (v : M → Nat), s.always (do
      let m ← get
      if m.perst then tapDo k (v m) else tapDo 1 0) = if s.m.perst then tap k (v s.m) else tap 1 0 := fun k v => by
    rw [State.always, run_bind, run_get, run_ite]
    split
    · exact htap _ _
    · exact htap _ _
  have hext : exec .extest s = if s.m.perst then tap 3 s.m.board.boundary else tap 1 0 := hheld 3 fun m => m.board.boundary
  have hclamp : exec .clamp s = if s.m.perst then tap 4 0 else tap 1 0 := hheld 4 fun _ => 0
  have hhighz : exec .highz s = if s.m.perst then tap 5 0 else tap 1 0 := hheld 5 fun _ => 0
  rw [hext, hclamp, hhighz]
  refine ⟨htap 0 _, htap 1 0, fun v => ?_, fun h => ?_, fun h9 h10 => ?_⟩
  · have hv : ({ s.m with board := { s.m.board with boundary := v } } : M).board.powered = true := hp
    rw [exec, execSamplePreload, State.always, run_bind, run_get, run_bind, run_whenA, if_pos hp, run_modify]
    exact (congrArg (fun r => s.becomes r.2) (run_tapDo hv 2 v) :)
  · have : s.m.perst = true := by simpa [M.perst] using h
    simp only [this, if_true, and_self]
  · have : s.m.perst = false := by simp [M.perst, h9, h10]
    simp [this]

/-! ## The PMBus target -/

section
variable {s : State} (hl : s.m.board.live = true)
include hl

theorem run_pmbus_ready {f : Act Nat} (h : s.m.imageReady = true) :
    s.doing (pmbus f) = s.becomes ((f s.m).2.out (.pmbus (some (f s.m).1))) := by
  rw [State.doing_live s _ hl, pmbus, run_bind, run_get, run_ite, if_pos h]
  rfl

theorem run_pmbus_early {f : Act Nat} (h : s.m.imageReady = false) : s.doing (pmbus f) = s.becomes (s.m.out (.pmbus none)) := by
  rw [State.doing_live s _ hl, pmbus, run_bind, run_get, run_ite, if_neg (by simp [h])]
  rfl

theorem run_pmbusNack {code : Nat} {w : Bool} (h : (w || !pmbusCodes.contains code || !s.m.imageReady) = true) :
    exec (.pmbusNack code w) s = s.becomes (s.m.out (.pmbus none)) := by
  rw [exec, execPmbusNack, State.doing_live s _ hl, run_bind, run_get, run_whenA, if_pos h, run_emit]

theorem run_cableInterrupt (hw : s.m.wf = true) (c : Nat) (p : Bool) : ∃ t, exec (.cableEvent c 1 p) s = .next t ∧ t.pending = s.pending ∧
    t.m.reg Reg.chkLogWr = trunc 32 (s.m.reg Reg.chkLogWr + 1) ∧ t.m.board = s.m.board ∧ s.m.sameStores t.m ∧
    ∃ r, t.m.logBuf.getLast? = some r ∧ r.index = s.m.reg Reg.chkLogWr := by
  obtain ⟨pl, -, hpl⟩ := run_freeBytes 36 { s.m with free := s.m.free + 1 }
  have hrun : exec (.cableEvent c 1 p) s = s.becomes (logAdd (trunc 16 (Config.freeValue s.m.free)) 177 0 0xFF 0xFF 0 pl
      { s.m with free := s.m.free + 1 + 36 }).2 := by
    rw [exec, execCableEvent, State.doing_live s _ hl, run_ite, if_neg (by decide), run_bind, run_freeVal, run_bind, hpl]
  have hwf : M.wf { s.m with free := s.m.free + 1 + 36 } = true :=
    (M.wf_congr (s := s.m) ⟨rfl, rfl, rfl, rfl, rfl, rfl, rfl, rfl, rfl, rfl, rfl⟩).trans hw
  obtain ⟨hwr, r, hlast, -, -, hindex⟩ := logAdd_logs hwf (trunc 16 (Config.freeValue s.m.free)) 177 0 0xFF 0xFF 0 pl
  have hnoted := keepsNoted_logAdd (still := True) (trunc 16 (Config.freeValue s.m.free)) 177 0 0xFF 0xFF 0 pl _
    (.refl True { s.m with free := s.m.free + 1 + 36 })
  exact ⟨_, hrun, rfl, hwr, (congrArg M.board hnoted.rest :), hnoted.stores trivial, r, hlast, hindex⟩

end

/-! ## PORT_OFF# -/

/-- PORT_OFF# returns high. -/
def M.portsOn (s : M) : M := { s with board := { s.board with portOff := false } }

theorem run_portOffDeassert (s : State) : exec .portOffDeassert s = s.becomes
    (if s.m.board.live && s.m.board.portOff then (forA (List.range s.m.nPorts) (fun p => linkDown p (s.m.trains p)) s.m.portsOn).2
      else s.m.portsOn) := by
  rw [exec, execPortOffDeassert, State.always, run_bind, run_get, run_bind, run_modify, run_whenA]
  rfl

theorem portOffDeassert_leaves (s : State) : s.m.portsOn.besideLinks
    (if s.m.board.live && s.m.board.portOff then (forA (List.range s.m.nPorts) (fun p => linkDown p (s.m.trains p)) s.m.portsOn).2
      else s.m.portsOn) := by
  have hrefl : s.m.portsOn.besideLinks s.m.portsOn := ⟨rfl, ⟨rfl, rfl⟩, rfl, rfl⟩
  split
  · exact keeps_forA (fun p => (aboutSending_besideLinks _).keeps_linkDown (fun _ h => ⟨h.board, h.stores, h.cores, h.boot⟩) _) _ hrefl
  · exact hrefl

/-- Every link that was up trains again as PORT_OFF# returns high. -/
theorem portsOn_trains {s : State} (hw : s.m.wf = true) {p : Nat} (hp : p < s.m.nPorts) (hup : s.m.linkUp p = true) :
    bits ((forA (List.range s.m.nPorts) (fun p => linkDown p (s.m.trains p)) s.m.portsOn).2.reg (Reg.ethPortStatus p)) 31 30 = s.m.trains p := by
  have hon : s.m.portsOn.wf = true := (M.wf_congr ⟨rfl, rfl, rfl, rfl, rfl, rfl, rfl, rfl, rfl, rfl, rfl⟩).trans hw
  have hlinks : s.m.portsOn.linkUp p = true := hup
  generalize s.m.portsOn = t at hon hlinks ⊢
  exact linksDown_trains hon s.m.nPorts_le hp hlinks

theorem run_cable {s : State} (hl : s.m.board.live = true) (c : Nat) (present : Bool) : exec (.cableEvent c 0 present) s =
    s.becomes (({ s.m with board := { s.m.board with
      cables := if present then insertNew s.m.board.cables c else s.m.board.cables.filter (· != c) } } : M).out (.pldm c 0 present)) := by
  rw [exec, execCableEvent, State.doing_live s _ hl, run_ite, if_pos rfl, run_bind, run_modify]
  rfl

/-- Settles O6: the instructions of the test port, the target's replies, PORT_OFF# and the cables. -/
theorem sidebandPinsAndPorts : Obligations.SidebandPinsAndPorts := by
  unfold Obligations.SidebandPinsAndPorts
  refine ⟨?_, ?_, ?_⟩
  · intro s hp tap
    obtain ⟨hid, hby, hsample, hheld, hfree⟩ := run_testPort hp
    exact ⟨hid, hby, hsample, hheld, hfree, rfl⟩
  · intro s hl reply
    refine ⟨fun h => ⟨fun v => ⟨run_pmbus_ready hl h, run_pmbus_ready hl h⟩, run_pmbus_ready hl h, run_pmbus_ready hl h, ?_⟩,
      fun h => ⟨fun v => ⟨run_pmbus_early hl h, run_pmbus_early hl h⟩, run_pmbus_early hl h, run_pmbus_early hl h, run_pmbus_early hl h⟩,
      fun code => run_pmbusNack hl (by simp), fun code w hcode => run_pmbusNack hl ?_⟩
    · exact ⟨trunc 16 (Config.freeValue s.m.free), Nat.mod_lt _ (by decide), run_pmbus_ready hl h⟩
    · have : pmbusCodes.contains code = false := by simpa [pmbusCodes] using hcode
      rw [this]
      simp
  · intro s
    refine ⟨rfl, ⟨_, run_portOffDeassert s, rfl, ?_⟩, fun c hl => ?_, fun c hl => ?_, fun c p hl hw => run_cableInterrupt hl hw c p⟩
    · have hleft := portOffDeassert_leaves s
      refine ⟨hleft.board, hleft.stores, hleft.cores, hleft.boot, fun hl hoff hw p hp hup => ?_⟩
      have hgo : (s.m.board.live && s.m.board.portOff) = true := by simp [hl, hoff]
      rw [if_pos hgo]
      exact portsOn_trains hw hp hup
    · exact run_cable hl c true
    · exact run_cable hl c false

end Sys2Proof.Machine

/-! # Refreshes and rebuilds of parity (R364 to R367) -/

namespace Sys2Proof.Machine

/-! ## The shape of a group, and the registers that it is read from -/

/-- The registers that say what the blocks of a save are, and where. -/
def parityRegs : List Nat := [Reg.chkRedundancy, Reg.chkSaveLen, Reg.chkSaveBase, Reg.chkParityBase, Reg.trnNode]

/-- The blocks of a save are what they were. -/
def M.sameBlocks (s t : M) : Prop := ∀ o ∈ parityRegs, t.reg o = s.reg o

theorem M.sameBlocks_accessed (s : M) (w : Nat) : s.sameBlocks (s.accessed w) := fun o ho => by
  refine M.accessed_reg s w ?_
  revert o
  decide

section
variable {s t : M} (h : s.sameBlocks t)
include h

theorem M.sameBlocks.shape : t.parityShape = s.parityShape := by
  rw [M.parityShape, h Reg.chkRedundancy (by simp [parityRegs]), M.parityShape]

theorem M.sameBlocks.blockLen (g r : Nat) : t.parityB g r = s.parityB g r := by
  rw [M.parityB, h Reg.chkSaveLen (by simp [parityRegs]), M.parityB]

theorem M.sameBlocks.chunks (g r : Nat) : t.parityN g r = s.parityN g r := by
  rw [M.parityN, h.blockLen, M.parityN]

theorem M.sameBlocks.sends (g r lost q : Nat) : t.rebuildSends g r lost q = s.rebuildSends g r lost q := by
  simp only [M.rebuildSends, h.chunks]

theorem M.sameBlocks.place (g : Nat) : t.place g = s.place g := by
  rw [M.place, M.rank, h Reg.trnNode (by simp [parityRegs]), M.place, M.rank]

theorem M.sameBlocks.parityBlock (g r k : Nat) : t.parityBlock g r k = s.parityBlock g r k := by
  rw [M.parityBlock, h Reg.chkParityBase (by simp [parityRegs]), h.blockLen, M.parityBlock]

end

/-- A redundancy class has parity blocks and data blocks (Table 14-6). -/
theorem M.parityShape_pos {s : M} {g r : Nat} (h : s.parityShape = some (g, r)) : 0 < r ∧ 0 < g - r := by
  unfold M.parityShape at h
  split at h
  · obtain ⟨rfl, rfl⟩ := Prod.mk.inj (Option.some.inj h)
    decide
  · obtain ⟨rfl, rfl⟩ := Prod.mk.inj (Option.some.inj h)
    decide
  · obtain ⟨rfl, rfl⟩ := Prod.mk.inj (Option.some.inj h)
    decide
  · exact absurd h (by simp)

/-! ## The header -/

theorem leNat_lt (l : List Byte) : leNat l < 256 ^ l.length := by
  induction l with
  | nil => exact Nat.one_pos
  | cons b l ih =>
    have hb : b.toNat < 256 := b.isLt
    rw [leNat, List.length_cons, Nat.pow_succ]
    omega

theorem M.parityStep_lt (s : M) : s.parityStep < 2 ^ 40 := by
  simpa [M.parityStep, M.num, M.bytes] using leNat_lt (s.bytes (s.reg Reg.chkParityBase) 5)

/-- The machine with the header read. -/
def M.headerRead (s : M) : M := (readBytes (s.reg Reg.chkParityBase) 5 s).2

/-- Is the header poisoned? -/
def M.headerBad (s : M) : Bool := (readBytes (s.reg Reg.chkParityBase) 5 s).1.1

theorem run_parityStep (s : M) : parityStep s = ((s.headerBad, s.headerRead.parityStep), s.headerRead) := rfl

theorem M.headerRead_clean {s : M} (h : s.clean (linesOf (s.reg Reg.chkParityBase) 5)) : s.headerRead = s ∧ s.headerBad = false := by
  have hrun := run_readBytes_ok _ _ _ h
  exact ⟨(congrArg Prod.snd hrun :), (congrArg (fun r => r.1.1) hrun :)⟩

theorem AboutNotes.headerRead {P : M → Prop} (hP : AboutNotes P) {s : M} (h : P s) : P s.headerRead := hP.keeps_readBytes _ _ s h

theorem M.wf_headerRead {s : M} (hw : s.wf = true) : s.headerRead.wf = true := keepsWf_readBytes _ _ s hw

/-! ## What chunks sent leave as it was -/

/-- The state of the Relay engines and of parity, the cores and the registers named, which chunks sent leave alone. -/
def M.besideChunks (s : M) (K : List Nat) (t : M) : Prop := t.rly = s.rly ∧ t.cores = s.cores ∧ ∀ o ∈ K, t.reg o = s.reg o

theorem M.besideChunks.refl (s : M) (K : List Nat) : s.besideChunks K s := ⟨rfl, rfl, fun _ _ => rfl⟩

/-- Registers of errors, events and of the sending of messages. -/
def Reg.ofSending (o : Nat) : Prop := Reg.ofNotes o ∨ Reg.ofTraffic o

theorem aboutTraffic_besideChunks (s : M) {K : List Nat} (hK : ∀ o ∈ K, ¬ Reg.ofSending o) : AboutTraffic (s.besideChunks K) where
  setReg v ho := fun ⟨hr, hc, h⟩ => ⟨hr, hc, fun o hk => by
    rw [M.reg_setReg_other _ _ fun he : o = _ => hK o hk (.inl (he ▸ ho))]
    exact h o hk⟩
  store _ _ h := h
  log _ h := h
  toHost o h := by
    unfold M.toHost
    split <;> exact h
  count v ho := fun ⟨hr, hc, h⟩ => ⟨hr, hc, fun o hk => by
    rw [M.reg_setReg_other _ _ fun he : o = _ => hK o hk (.inr (he ▸ ho))]
    exact h o hk⟩
  out _ h := h
  ports _ h := h
  trn _ h := h
  isl _ h := h
  draw h := h

/-- The registers of parity that are told from those of messages. -/
theorem parityRegs_not_ofSending : ∀ o ∈ Reg.chkParityState :: parityRegs, ¬ Reg.ofSending o := by
  intro o ho
  fin_cases ho <;> simp [Reg.ofSending, Reg.ofNotes, Reg.ofTraffic, Reg.trnCtxMisses, Reg.trnCtxStalls, Reg.trnRetx, Reg.trnDrops,
    Reg.chkParityState, Reg.chkRedundancy, Reg.chkSaveLen, Reg.chkSaveBase, Reg.chkParityBase, Reg.trnNode]

theorem M.headerRead_beside (s : M) : s.besideChunks (Reg.chkParityState :: parityRegs) s.headerRead :=
  (aboutTraffic_besideChunks s parityRegs_not_ofSending).toAboutNotes.headerRead (.refl s _)

/-! ## Chunks sent -/

/-- A run of a mode and a STEP under way, with n chunks that are sent or to be sent, and one at most for each node. -/
structure Parity.running (p : Parity) (mode step n : Nat) : Prop where
  mode : p.mode = mode
  step : p.step = step
  taken : p.taken = []
  count : p.todo.length + p.flying.length = n
  nodup : p.flying.Nodup

/-- Chunk i of those to be sent goes on its way. -/
def Parity.sent (p : Parity) (i node : Nat) : Parity := { p with todo := p.todo.eraseIdx i, flying := p.flying ++ [node] }

theorem Parity.running.sent {p : Parity} {mode step n : Nat} (h : p.running mode step n) {i node : Nat} (hi : i < p.todo.length)
    (hn : node ∉ p.flying) : (p.sent i node).running mode step n where
  mode := h.mode
  step := h.step
  taken := h.taken
  count := by
    have hcount := h.count
    simp only [Parity.sent, List.length_eraseIdx_of_lt hi, List.length_append, List.length_singleton]
    omega
  nodup := List.nodup_append.2 ⟨h.nodup, List.nodup_singleton _, fun a ha b hb => by
    rw [List.mem_singleton.1 hb]
    exact fun he => hn (he ▸ ha)⟩

/-- Chunk i is posted for its node. -/
def sendParityChunk (i node src slot : Nat) : Act Unit := do
  updParity fun p => p.sent i node
  let bad ← readLines (linesOf src parityChunk)
  let s ← get
  postMessage node { cls := 2, tag := slot / 1024, owner := .parity node
                     lines := messageLines 0 (s.bytes src parityChunk) (bad.map (· - src / 32)) }

theorem run_thenLast {α : Type} (a : Act α) (f : α → M → Act Unit) (k : Act Unit) (m : M) :
    (do let x ← a; let s ← get; f x s; k : Act Unit) m = k ((do let x ← a; let s ← get; f x s : Act Unit) m).2 := rfl

/-- The next chunk goes out if there is one whose node has none on its way. -/
theorem paritySend_cases (s : M) (n : Nat) :
    ((∀ x ∈ s.rly.parity.todo, x.1 ∈ s.rly.parity.flying) ∧ paritySend (n + 1) s = ((), s)) ∨
      ∃ i node src slot, i < s.rly.parity.todo.length ∧ node ∉ s.rly.parity.flying ∧
        paritySend (n + 1) s = paritySend n (sendParityChunk i node src slot s).2 := by
  cases hfind : s.rly.parity.todo.findIdx? fun (node, _, _) => !s.rly.parity.flying.contains node with
  | none =>
    refine .inl ⟨fun x hx => ?_, ?_⟩
    · simpa using List.findIdx?_eq_none_iff.1 hfind x hx
    · rw [paritySend, run_bind, run_get]
      dsimp only
      rw [hfind]
      rfl
  | some i =>
    obtain ⟨hi, hfree, -⟩ := List.findIdx?_eq_some_iff_getElem.1 hfind
    rcases hx : s.rly.parity.todo[i] with ⟨node, src, slot⟩
    rw [hx] at hfree
    refine .inr ⟨i, node, src, slot, hi, by simpa using hfree, ?_⟩
    rw [paritySend, run_bind, run_get]
    dsimp only
    rw [hfind]
    dsimp only
    rw [List.getElem?_eq_getElem hi, hx]
    dsimp only
    rw [sendParityChunk, run_bind, run_bind (updParity _)]
    exact run_thenLast _ _ _ _

/-- A chunk that goes out leaves parity as it says. -/
theorem sendParityChunk_beside (s : M) (i node src slot : Nat) :
    ({ s with rly := { s.rly with parity := s.rly.parity.sent i node } } : M).besideChunks (Reg.chkParityState :: parityRegs)
      (sendParityChunk i node src slot s).2 := by
  have hP := aboutTraffic_besideChunks ({ s with rly := { s.rly with parity := s.rly.parity.sent i node } } : M) parityRegs_not_ofSending
  rw [sendParityChunk, run_bind]
  exact keeps_bind (hP.keeps_readLines _) (fun _ => keeps_getThen fun _ => hP.keeps_postMessage _ _) _ (M.besideChunks.refl _ _)

/-- A run under way whose STATE is shown. -/
def M.inRun (mode step n state : Nat) (t : M) : Prop := t.rly.parity.running mode step n ∧ t.reg Reg.chkParityState = state

section
variable {mode step n state : Nat}

theorem sendParityChunk_inRun {s : M} (h : s.inRun mode step n state) {i node : Nat} (hi : i < s.rly.parity.todo.length)
    (hn : node ∉ s.rly.parity.flying) (src slot : Nat) : (sendParityChunk i node src slot s).2.inRun mode step n state ∧
      (sendParityChunk i node src slot s).2.rly.parity.flying ≠ [] := by
  obtain ⟨hrly, -, hreg⟩ := sendParityChunk_beside s i node src slot
  refine ⟨⟨?_, (hreg _ List.mem_cons_self).trans h.2⟩, ?_⟩
  · rw [hrly]
    exact h.1.sent hi hn
  · rw [hrly]
    exact List.append_ne_nil_of_right_ne_nil _ (List.cons_ne_nil _ _)

theorem keeps_paritySend (k : Nat) : Keeps (fun t => t.inRun mode step n state ∧ t.rly.parity.flying ≠ []) (paritySend k) := by
  induction k with
  | zero => exact keeps_pure _
  | succ k ih =>
    intro s h
    rcases paritySend_cases s k with ⟨-, hrun⟩ | ⟨i, node, src, slot, hi, hn, hrun⟩
    · rwa [hrun]
    · rw [hrun]
      exact ih _ (sendParityChunk_inRun h.1 hi hn src slot)

/-- Chunks are on their way when some were to be sent. -/
theorem paritySend_flies {s : M} (h : s.inRun mode step n state) (htodo : s.rly.parity.todo ≠ []) (hfly : s.rly.parity.flying = []) (k : Nat) :
    (paritySend (k + 1) s).2.inRun mode step n state ∧ (paritySend (k + 1) s).2.rly.parity.flying ≠ [] := by
  rcases paritySend_cases s k with ⟨hall, -⟩ | ⟨i, node, src, slot, hi, hn, hrun⟩
  · obtain ⟨x, hx⟩ := List.exists_mem_of_ne_nil _ htodo
    exact absurd (hall x hx) (by simp [hfly])
  · rw [hrun]
    exact keeps_paritySend k _ (sendParityChunk_inRun h hi hn src slot)

end

/-- The run goes on while chunks are on their way. -/
theorem parityCheck_flying {s : M} (h : s.rly.parity.flying ≠ []) : parityCheck s = ((), s) := by
  have hdone : ∀ g r, s.parityDone g r = false := fun g r => by simp [M.parityDone, h]
  rw [parityCheck, run_bind, run_get]
  cases s.parityShape with
  | none => rfl
  | some x => simp only [hdone, Bool.and_false, run_whenA_false]

/-! ## The start of a run -/

/-- The machine, its header read, as a run starts, before its first chunk goes out. -/
def M.parityOpened (t : M) (mode step lost : Nat) (todo : List (Nat × Nat × Nat)) : M :=
  { t.setReg Reg.chkParityState (1 <<< 62 + t.parityStep) with
    rly := { t.rly with parity := { mode := mode, step := step, lost := lost, todo := todo } } }

theorem run_parityStart (s : M) (mode step lost : Nat) (todo : List (Nat × Nat × Nat)) : parityStart mode step lost todo s =
    parityCheck (paritySend 16 (s.headerRead.parityOpened mode step lost todo)).2 := rfl

theorem M.reg_parityOpened (t : M) (mode step lost : Nat) (todo : List (Nat × Nat × Nat)) {o : Nat} (h : o ≠ Reg.chkParityState) :
    (t.parityOpened mode step lost todo).reg o = t.reg o := M.reg_setReg_other t _ h

theorem M.state_shown (s : M) : bits (1 <<< 62 + s.parityStep) 63 62 = 1 := by
  have h := s.parityStep_lt
  simp only [bits, Nat.shiftRight_eq_div_pow]
  omega

theorem parityStart_runs {s : M} (hw : s.wf = true) (mode step lost : Nat) {todo : List (Nat × Nat × Nat)} (htodo : todo ≠ []) :
    (parityStart mode step lost todo s).2 = (paritySend 16 (s.headerRead.parityOpened mode step lost todo)).2 ∧
      (parityStart mode step lost todo s).2.inRun mode step todo.length (1 <<< 62 + s.headerRead.parityStep) ∧
      (parityStart mode step lost todo s).2.rly.parity.flying ≠ [] := by
  have hopen : (s.headerRead.parityOpened mode step lost todo).inRun mode step todo.length (1 <<< 62 + s.headerRead.parityStep) :=
    ⟨⟨rfl, rfl, rfl, rfl, List.nodup_nil⟩, M.reg_setReg_self _ _ _ (M.wf_headerRead hw)⟩
  have hsent := paritySend_flies hopen htodo rfl 15
  have hrun : (parityStart mode step lost todo s).2 = (paritySend 16 (s.headerRead.parityOpened mode step lost todo)).2 := by
    rw [run_parityStart, parityCheck_flying hsent.2]
  rw [hrun]
  exact ⟨rfl, hsent⟩

/-! ## Lines that are sound stay as they are -/

theorem M.codeword_accessed (s : M) (w l : Nat) : (s.accessed w).codeword l = s.codeword l := by
  obtain ⟨r, h⟩ := s.accessed_eq w
  rw [h]
  rfl

section
variable {l : Nat} {c : List Nat} (hok : rsDecode c = .ok)
include hok

theorem keeps_readLine_ok (k : Nat) : Keeps (fun t => t.codeword l = c) (readLine k) := fun s h => by
  by_cases hk : l = k
  · subst hk
    rwa [run_readLine_ok _ _ (h ▸ hok)]
  · exact (aboutLogs_codeword l c).keeps_readLine
      (fun _ _ hbs hvs ht => (M.codeword_setLine_other _ hk hbs hvs).trans ht)
      (fun _ hvs ht => (M.codeword_setChks_other _ hk hvs).trans ht) s h

theorem keeps_readLines_ok (ls : List Nat) : Keeps (fun t => t.codeword l = c) (readLines ls) :=
  keeps_bind (keeps_mapA fun k => keeps_bind (keeps_readLine_ok hok k) fun _ => keeps_pure _) fun _ => keeps_pure _

theorem keeps_sendParityChunk_ok (i node src slot : Nat) : Keeps (fun t => t.codeword l = c) (sendParityChunk i node src slot) :=
  keeps_bind (fun _ h => h) fun _ => keeps_bind (keeps_readLines_ok hok _) fun _ => keeps_getThen fun _ =>
    (aboutLogs_codeword l c).toAboutSends.keeps_postMessage _ _

theorem keeps_paritySend_ok (k : Nat) : Keeps (fun t => t.codeword l = c) (paritySend k) := by
  induction k with
  | zero => exact keeps_pure _
  | succ k ih =>
    intro s h
    rcases paritySend_cases s k with ⟨-, hrun⟩ | ⟨i, node, src, slot, -, -, hrun⟩
    · rwa [hrun]
    · rw [hrun]
      exact ih _ (keeps_sendParityChunk_ok hok i node src slot s h)

theorem parityOpened_ok {s : M} (h : s.codeword l = c) (mode step lost : Nat) (todo : List (Nat × Nat × Nat)) :
    (s.headerRead.parityOpened mode step lost todo).codeword l = c :=
  keeps_readLines_ok hok (linesOf (s.reg Reg.chkParityBase) 5) s h

end

/-! ## Refresh -/

/-- The chunks of a refresh: every block goes to its row's holders. -/
def M.refreshSends (s : M) (g r : Nat) : List (Nat × Nat × Nat) :=
  (List.range (g - r)).flatMap fun d => (List.range r).flatMap fun k =>
    (List.range (s.parityN g r)).map fun c =>
      (s.nodeAtPlace g (((s.place g + 2 * g - d - r) % g + k) % g), s.saveBlock g r d + c * parityChunk, s.paritySlot g r (k * (g - r) + d))

theorem M.length_refreshSends (s : M) (g r : Nat) : (s.refreshSends g r).length = (g - r) * r * s.parityN g r := by
  simp [M.refreshSends, List.length_flatMap, Nat.mul_assoc]

/-- The bytes of the parity blocks. -/
def M.inParity (s : M) (g r x : Nat) : Bool :=
  decide (s.parityBlock g r 0 ≤ x) && decide (x < s.parityBlock g r 0 + r * s.parityB g r)

theorem run_parityRefresh {s : M} {g r : Nat} (hshape : s.parityShape = some (g, r)) (hmode : s.rly.parity.mode = 0) (step : Nat) :
    parityRefresh step s = parityStart 1 step 0 (s.refreshSends g r) (s.zeroed (s.inParity g r)) := by
  rw [parityRefresh, run_bind, run_get]
  dsimp only
  rw [hshape]
  dsimp only
  rw [run_whenA, if_pos (by simpa using hmode)]
  rfl

theorem M.codeword_zeroed {s : M} {p : Nat → Bool} {l : Nat} (h : ∀ x, x / 32 = l → p x = true) :
    (s.zeroed p).codeword l = List.replicate 36 0 := by
  have hbytes : (s.zeroed p).bytes (32 * l) 32 = List.replicate 32 0#8 :=
    List.eq_replicate_iff.2 ⟨by simp [M.bytes], fun b hb => by
      obtain ⟨i, hi, rfl⟩ := List.mem_map.1 hb
      have hi32 := List.mem_range.1 hi
      rw [M.byte_zeroed, if_pos (h _ (by omega))]⟩
  rw [M.codeword, hbytes, M.checks_zeroed, if_pos (h _ (by omega))]
  rfl

theorem M.byte_of_zeroCodeword {s : M} {x : Nat} (h : s.codeword (x / 32) = List.replicate 36 0) : s.byte x = 0#8 := by
  have hz : ({ s with mem := [], chk := [] } : M).codeword (x / 32) = List.replicate 36 0 := rfl
  exact M.byte_of_codeword (s := { s with mem := [], chk := [] }) (h.trans hz.symm)

/-! ## The end of a run -/

/-- The machine whose run, its header read, is over in error. -/
def M.parityFailed (t : M) (err : Nat) : M :=
  { t.setReg Reg.chkParityState (3 <<< 62 + trunc 16 err <<< 40 + t.parityStep) with rly := { t.rly with parity := {} } }

theorem run_parityEnd_error (s : M) (err : Nat) : parityEnd 3 err s = logAdd 0x31 0xFFFF s.rly.parity.step 0xFF 0xFF 0
    (payload [(0, 2, s.node), (2, 1, 3), (3, 1, err)]) (s.headerRead.parityFailed err) := by
  rw [parityEnd, run_bind, run_get, run_ite, if_neg (by decide), run_bind, run_pure]
  dsimp only
  rw [run_bind, run_parityStep]
  dsimp only
  rw [run_bind, run_wr, run_bind, updParity, run_modify, M.parityFailed]
  simp only [Bool.false_eq_true, if_false, M.setReg]

theorem M.errorShown (s : M) (err : Nat) : bits (3 <<< 62 + trunc 16 err <<< 40 + s.parityStep) 63 62 = 3 ∧
    bits (3 <<< 62 + trunc 16 err <<< 40 + s.parityStep) 55 40 = trunc 16 err := by
  have h := s.parityStep_lt
  have he : trunc 16 err < 65536 := Nat.mod_lt _ (by decide)
  generalize trunc 16 err = e at he ⊢
  simp only [bits, Nat.shiftRight_eq_div_pow]
  omega

theorem M.wf_parityFailed {t : M} (hw : t.wf = true) (err : Nat) : (t.parityFailed err).wf = true := by
  have h := M.wf_setReg Reg.chkParityState (3 <<< 62 + trunc 16 err <<< 40 + t.parityStep) hw
  rw [M.parityFailed]
  generalize t.setReg Reg.chkParityState _ = u at h ⊢
  exact (M.wf_congr ⟨rfl, rfl, rfl, rfl, rfl, rfl, rfl, rfl, rfl, rfl, rfl⟩).trans h

theorem M.parityFailed_state {t : M} (hw : t.wf = true) (err : Nat) :
    (t.parityFailed err).reg Reg.chkParityState = 3 <<< 62 + trunc 16 err <<< 40 + t.parityStep := M.reg_setReg_self t _ _ hw

theorem M.parityFailed_logWr (t : M) (err : Nat) : (t.parityFailed err).reg Reg.chkLogWr = t.reg Reg.chkLogWr :=
  M.reg_setReg_other t _ (by decide)

/-- What a run that ends in error leaves. -/
theorem parityEnd_fails {s : M} (hw : s.wf = true) (err : Nat) : ∃ m, (parityEnd 3 err s).2 = m ∧
    bits (m.reg Reg.chkParityState) 63 62 = 3 ∧ bits (m.reg Reg.chkParityState) 55 40 = trunc 16 err ∧
    m.rly = { s.rly with parity := {} } ∧ m.cores = s.cores ∧ s.headerRead.logs m 0x31 0xFFFF ∧ s.headerRead.sameStores m := by
  obtain ⟨hrly, hcores, -⟩ := s.headerRead_beside
  have hwf := M.wf_headerRead hw
  rw [run_parityEnd_error]
  generalize payload [(0, 2, s.node), (2, 1, 3), (3, 1, err)] = pl
  generalize s.headerRead = h at *
  have hstate := M.parityFailed_state hwf err
  have hlogs := logAdd_logs (M.wf_parityFailed hwf err) 0x31 0xFFFF s.rly.parity.step 0xFF 0xFF 0 pl
  rw [M.logs, M.parityFailed_logWr] at hlogs
  have hfr : (h.parityFailed err).rly = { h.rly with parity := {} } := rfl
  have hfc : (h.parityFailed err).cores = h.cores := rfl
  have hfs : h.sameStores (h.parityFailed err) := ⟨rfl, rfl⟩
  obtain ⟨h63, h55⟩ := h.errorShown err
  generalize h.parityFailed err = t at *
  have hnoted := keepsNoted_logAdd (still := True) 0x31 0xFFFF s.rly.parity.step 0xFF 0xFF 0 pl t (.refl True t)
  generalize (logAdd 0x31 0xFFFF s.rly.parity.step 0xFF 0xFF 0 pl t).2 = u at hlogs hnoted
  have hsame : u.reg Reg.chkParityState = t.reg Reg.chkParityState := hnoted.regs _ (by simp [Reg.ofNotes, Reg.chkParityState])
  have hru : u.rly = t.rly := (congrArg M.rly hnoted.rest :)
  have hcu : u.cores = t.cores := (congrArg M.cores hnoted.rest :)
  obtain ⟨hmem, hchk⟩ := hnoted.stores trivial
  exact ⟨u, rfl, by rw [hsame, hstate, h63], by rw [hsame, hstate, h55], by rw [hru, hfr, hrly], by rw [hcu, hfc, hcores], hlogs,
    hmem.trans hfs.1, hchk.trans hfs.2⟩

/-! ## The rebuild of a survivor and of a spare -/

/-- The chunks that a survivor sends. -/
def M.survivorSends (s : M) (g r lost : Nat) : List (Nat × Nat × Nat) :=
  (s.rebuildSends g r lost (s.place g)).flatMap fun (_, b, c) => ((List.range g).filter (bit lost)).map fun p =>
    (s.nodeAtPlace g p, s.ownBlock g r b + c * parityChunk,
      s.paritySlot g r ((List.range (s.place g)).filter fun p => !bit lost p).length)

theorem M.length_survivorSends (s : M) (g r lost : Nat) : (s.survivorSends g r lost).length =
    (s.rebuildSends g r lost (s.place g)).length * ((List.range g).filter (bit lost)).length := by
  simp [M.survivorSends, List.length_flatMap]

section
variable {s : M} {g r : Nat} (hshape : s.parityShape = some (g, r)) (hmode : s.rly.parity.mode = 0)
include hshape hmode

/-- A survivor takes the STEP that it was told, as it cannot go on. -/
def M.stepTold (s : M) (step : Nat) : M := { s with rly := { s.rly with parity := { s.rly.parity with step := step } } }

theorem run_rebuildSurvivor (step lost : Nat) : rebuildSurvivor step lost s =
    if s.headerBad = true ∨ s.headerRead.parityStep ≠ step then
      parityEnd 3 (if s.headerBad then 3 else trunc 16 (Config.freeValue s.headerRead.free))
        (({ s.headerRead with free := s.headerRead.free + 1 } : M).stepTold step)
    else parityStart 2 step lost (s.survivorSends g r lost) s.headerRead := by
  rw [rebuildSurvivor, run_bind, run_get]
  dsimp only
  rw [hshape]
  dsimp only
  rw [run_ite, if_neg (by simp [hmode]), run_bind, run_parityStep]
  dsimp only
  generalize s.headerBad = bad, s.headerRead = t
  by_cases h : bad = true ∨ t.parityStep ≠ step
  · rw [if_pos h, if_pos h, run_bind, run_freeVal]
    rfl
  · rw [if_neg h, if_neg h, M.survivorSends]

theorem run_rebuildSpare (step lost : Nat) : (rebuildSpare step lost s).2 = (parityStart 3 step lost [] s).2 := by
  rw [rebuildSpare, run_bind, run_get, run_whenA, if_pos (by simp [hshape, hmode])]

end

/-! ## The obligation -/

/-- A run that has started, in the terms of the statement. -/
theorem M.inRun.started {t : M} {mode step n : Nat} {x : M} (h : t.inRun mode step n (1 <<< 62 + x.parityStep)) (hfly : t.rly.parity.flying ≠ []) :
    bits (t.reg Reg.chkParityState) 63 62 = 1 ∧ t.rly.parity.mode = mode ∧ t.rly.parity.step = step ∧ t.rly.parity.taken = [] ∧
      t.rly.parity.todo.length + t.rly.parity.flying.length = n ∧ t.rly.parity.flying.Nodup ∧ t.rly.parity.flying ≠ [] :=
  ⟨by rw [h.2]; exact x.state_shown, h.1.mode, h.1.step, h.1.taken, h.1.count, h.1.nodup, hfly⟩

/-- The parity blocks are zero once a refresh has started. -/
theorem refresh_zeroes {s : M} {g r : Nat} (hbase : s.parityBlock g r 0 % 32 = 0) (hlen : s.parityB g r % 32 = 0) {x : Nat}
    (hx : s.inParity g r x = true) (step lost k : Nat) (todo : List (Nat × Nat × Nat)) :
    (paritySend k ((s.zeroed (s.inParity g r)).headerRead.parityOpened 1 step lost todo)).2.byte x = 0#8 := by
  have hin : ∀ y, s.inParity g r y = true ↔ s.parityBlock g r 0 ≤ y ∧ y < s.parityBlock g r 0 + r * s.parityB g r := fun y => by
    simp [M.inParity]
  have hmul : r * s.parityB g r % 32 = 0 := by rw [Nat.mul_mod, hlen, Nat.mul_zero]
  have hline : ∀ y, y / 32 = x / 32 → s.inParity g r y = true := fun y hy => by
    obtain ⟨hlo, hhi⟩ := (hin x).1 hx
    generalize s.parityBlock g r 0 = a, r * s.parityB g r = b at *
    exact (hin y).2 ⟨by omega, by omega⟩
  have hok : rsDecode (List.replicate 36 0) = .ok := by decide +kernel
  exact M.byte_of_zeroCodeword (keeps_paritySend_ok hok k _ (parityOpened_ok hok (M.codeword_zeroed hline) _ _ _ _))

/-- Nothing is under way but what a spare waits for. -/
theorem paritySend_nothing {s : M} (h : s.rly.parity.todo = []) (k : Nat) : paritySend (k + 1) s = ((), s) := by
  rcases paritySend_cases s k with ⟨-, hrun⟩ | ⟨i, -, -, -, hi, -, -⟩
  · exact hrun
  · exact absurd hi (by simp [h])

/-- A spare that has chunks to wait for does not end. -/
theorem parityCheck_waits {s : M} {g r q : Nat} (hshape : s.parityShape = some (g, r)) (hmode : s.rly.parity.mode = 3) (hq : q < g)
    (hlost : bit s.rly.parity.lost q = false) (htaken : s.rly.parity.taken = [])
    (hsends : s.rebuildSends g r s.rly.parity.lost q ≠ []) : parityCheck s = ((), s) := by
  have hdone : s.parityDone g r = false := by
    have hq' : ¬ (bit s.rly.parity.lost q || Tab.read (fun _ => 0) s.rly.parity.taken q ==
        (s.rebuildSends g r s.rly.parity.lost q).length) = true := by
      have hlen := List.length_pos_iff.2 hsends
      have hread : Tab.read (fun _ => 0) s.rly.parity.taken q = 0 := by rw [htaken]; rfl
      rw [hlost, hread, Bool.false_or, beq_iff_eq]
      omega
    have hall : ((List.range g).all fun q => bit s.rly.parity.lost q || Tab.read (fun _ => 0) s.rly.parity.taken q ==
        (s.rebuildSends g r s.rly.parity.lost q).length) = false :=
      Bool.eq_false_iff.2 fun h => hq' (List.all_eq_true.1 h q (List.mem_range.2 hq))
    rw [M.parityDone]
    dsimp only
    rw [hmode, if_neg (by decide), if_pos rfl, hall, Bool.and_false]
  rw [parityCheck, run_bind, run_get]
  dsimp only
  rw [hshape]
  dsimp only
  rw [hdone, Bool.and_false, run_whenA_false]

section
variable {s : State} (hl : s.m.board.live = true) {w : Nat} (ha : s.m.admits w false) (step lost : Nat)
include hl ha

theorem run_parityCommands : exec (.parityRefresh step w) s = s.becomes (parityRefresh step (s.m.accessed w)).2 ∧
    exec (.parityRebuildSurvivor step lost w) s = s.becomes (rebuildSurvivor step lost (s.m.accessed w)).2 ∧
    exec (.parityRebuildSpare step lost w) s = s.becomes (rebuildSpare step lost (s.m.accessed w)).2 :=
  ⟨by rw [exec, execParityRefresh, State.doing_live s _ hl, run_regAction_admitted ha, State.becomes],
    by rw [exec, execParityRebuildSurvivor, State.doing_live s _ hl, run_regAction_admitted ha, State.becomes],
    by rw [exec, execParityRebuildSpare, State.doing_live s _ hl, run_regAction_admitted ha, State.becomes]⟩

end

/-- Without a redundancy class, or while a run is under way, nothing starts. -/
theorem parity_idle {s : M} (h : s.parityShape = none ∨ s.rly.parity.mode ≠ 0) (step lost : Nat) :
    (parityRefresh step s).2 = s ∧ (rebuildSurvivor step lost s).2 = s ∧ (rebuildSpare step lost s).2 = s := by
  refine ⟨?_, ?_, ?_⟩
  · rw [parityRefresh, run_bind, run_get]
    dsimp only
    cases hs : s.parityShape with
    | none => rfl
    | some x =>
      have hmode := h.resolve_left (by simp [hs])
      dsimp only
      rw [run_whenA, if_neg (by simpa using hmode)]
  · rw [rebuildSurvivor, run_bind, run_get]
    dsimp only
    cases hs : s.parityShape with
    | none => rfl
    | some x =>
      have hmode := h.resolve_left (by simp [hs])
      dsimp only
      rw [run_ite, if_pos hmode, run_pure]
  · have hno : ¬ (s.parityShape.isSome && s.rly.parity.mode == 0) = true := by
      rcases h with h | h
      · simp [h]
      · simp [h]
    rw [rebuildSpare, run_bind, run_get, run_whenA, if_neg hno]

section
variable {s : M} {g r : Nat} (hw : s.wf = true) (hshape : s.parityShape = some (g, r)) (hmode : s.rly.parity.mode = 0) (step lost : Nat)
include hw hshape hmode

theorem parityRefresh_runs (hn : 0 < s.parityN g r) : ∃ m, (parityRefresh step s).2 = m ∧
    (bits (m.reg Reg.chkParityState) 63 62 = 1 ∧ m.rly.parity.mode = 1 ∧ m.rly.parity.step = step ∧ m.rly.parity.taken = [] ∧
      m.rly.parity.todo.length + m.rly.parity.flying.length = (g - r) * r * s.parityN g r ∧ m.rly.parity.flying.Nodup ∧
      m.rly.parity.flying ≠ []) ∧
    (s.parityBlock g r 0 % 32 = 0 → s.parityB g r % 32 = 0 →
      ∀ x, s.parityBlock g r 0 ≤ x → x < s.parityBlock g r 0 + r * s.parityB g r → m.byte x = 0#8) := by
  obtain ⟨hr, hd⟩ := M.parityShape_pos hshape
  have htodo : s.refreshSends g r ≠ [] := List.ne_nil_of_length_pos (by
    rw [M.length_refreshSends]
    exact Nat.mul_pos (Nat.mul_pos hd hr) hn)
  have hwz : (s.zeroed (s.inParity g r)).wf = true := keepsWf_zeroLines (s.inParity g r) s hw
  obtain ⟨hrun, hin, hfly⟩ := parityStart_runs hwz 1 step 0 htodo
  rw [M.length_refreshSends] at hin
  refine ⟨_, rfl, ?_, fun hbase hlen x hlo hhi => ?_⟩
  · rw [run_parityRefresh hshape hmode]
    exact hin.started hfly
  · rw [run_parityRefresh hshape hmode, hrun]
    exact refresh_zeroes hbase hlen (by simp [M.inParity, hlo, hhi]) _ _ _ _

theorem rebuildSurvivor_refuses (hc : s.clean (linesOf (s.reg Reg.chkParityBase) 5)) (hstep : s.parityStep ≠ step) :
    ∃ m, (rebuildSurvivor step lost s).2 = m ∧ bits (m.reg Reg.chkParityState) 63 62 = 3 ∧ m.rly = { s.rly with parity := {} } ∧
      s.logs m 0x31 0xFFFF ∧ s.sameStores m ∧ m.cores = s.cores := by
  obtain ⟨hread, hbad⟩ := M.headerRead_clean hc
  rw [run_rebuildSurvivor hshape hmode, hread, hbad, if_pos (.inr hstep), if_neg (by decide)]
  let t := ({ s with free := s.free + 1 } : M).stepTold step
  have hwt : t.wf = true := (M.wf_congr ⟨rfl, rfl, rfl, rfl, rfl, rfl, rfl, rfl, rfl, rfl, rfl⟩).trans hw
  have hct : t.clean (linesOf (t.reg Reg.chkParityBase) 5) := hc
  obtain ⟨m, hm, h63, -, hrly, hcores, hlogs, hstores⟩ := parityEnd_fails hwt (trunc 16 (Config.freeValue s.free))
  rw [(M.headerRead_clean hct).1] at hlogs hstores
  exact ⟨m, hm, h63, hrly, hlogs, hstores, hcores⟩

theorem rebuildSurvivor_poisoned (hp : ∃ l ∈ linesOf (s.reg Reg.chkParityBase) 5, rsDecode (s.codeword l) = .poisoned) :
    ∃ m, (rebuildSurvivor step lost s).2 = m ∧ bits (m.reg Reg.chkParityState) 63 62 = 3 ∧ bits (m.reg Reg.chkParityState) 55 40 = 3 ∧
      m.rly = { s.rly with parity := {} } ∧ m.cores = s.cores := by
  obtain ⟨l, hmem, hpois⟩ := hp
  have hbad : s.headerBad = true := readBytes_poisoned hmem hpois
  obtain ⟨hr0, hc0, -⟩ := s.headerRead_beside
  have hwh := M.wf_headerRead hw
  rw [run_rebuildSurvivor hshape hmode, hbad, if_pos (.inl rfl), if_pos rfl]
  generalize s.headerRead = h at *
  have hwt : (({ h with free := h.free + 1 } : M).stepTold step).wf = true :=
    (M.wf_congr ⟨rfl, rfl, rfl, rfl, rfl, rfl, rfl, rfl, rfl, rfl, rfl⟩).trans hwh
  obtain ⟨m, hm, h63, h55, hrly, hcores, -, -⟩ := parityEnd_fails hwt 3
  refine ⟨m, hm, h63, h55, hrly.trans ?_, hcores.trans hc0⟩
  show ({ h.rly with parity := {} } : Relay) = _
  rw [hr0]

theorem rebuildSurvivor_runs (hc : s.clean (linesOf (s.reg Reg.chkParityBase) 5)) (hstep : s.parityStep = step)
    (hcount : 0 < (s.rebuildSends g r lost (s.place g)).length * ((List.range g).filter (bit lost)).length) :
    ∃ m, (rebuildSurvivor step lost s).2 = m ∧ bits (m.reg Reg.chkParityState) 63 62 = 1 ∧ m.rly.parity.mode = 2 ∧
      m.rly.parity.step = step ∧ m.rly.parity.taken = [] ∧ m.rly.parity.todo.length + m.rly.parity.flying.length =
        (s.rebuildSends g r lost (s.place g)).length * ((List.range g).filter (bit lost)).length ∧ m.rly.parity.flying.Nodup ∧
      m.rly.parity.flying ≠ [] := by
  obtain ⟨hread, hbad⟩ := M.headerRead_clean hc
  rw [← M.length_survivorSends] at hcount ⊢
  rw [run_rebuildSurvivor hshape hmode, hread, hbad, if_neg (by simp [hstep])]
  obtain ⟨-, hin, hfly⟩ := parityStart_runs hw 2 step lost (List.ne_nil_of_length_pos hcount)
  exact ⟨_, rfl, hin.started hfly⟩

omit hw in
theorem rebuildSpare_waits (hq : ∃ q, q < g ∧ bit lost q = false ∧ s.rebuildSends g r lost q ≠ []) :
    (rebuildSpare step lost s).2 = s.headerRead.parityOpened 3 step lost [] := by
  obtain ⟨q, hq, hlost, hsends⟩ := hq
  obtain ⟨-, -, hregs⟩ := s.headerRead_beside
  have hblocks : s.sameBlocks (s.headerRead.parityOpened 3 step lost []) := fun o ho => by
    have hne : o ≠ Reg.chkParityState := by
      rintro rfl
      exact absurd ho (by decide)
    exact (M.reg_parityOpened _ _ _ _ _ hne).trans (hregs o (List.mem_cons_of_mem _ ho))
  have hshape' := hblocks.shape.trans hshape
  have hsends' := hblocks.sends g r lost q ▸ hsends
  rw [run_rebuildSpare hshape hmode, run_parityStart, paritySend_nothing (k := 15) rfl, parityCheck_waits hshape' rfl hq hlost rfl hsends']

end

/-- Settles O53: each start of a run by the chunks that it sends, and each end in error by the header that it reads. -/
theorem parityRuns : Obligations.ParityRuns := by
  unfold Obligations.ParityRuns
  intro s step lost hl hw w ha m0 commands header running
  obtain ⟨hrefresh, hsurvivor, hspare⟩ := run_parityCommands hl ha step lost
  have hrly : (s.m.accessed w).rly = s.m.rly := M.accessed_rly _ _
  have hblocks := s.m.sameBlocks_accessed w
  have hbase : (s.m.accessed w).reg Reg.chkParityBase = s.m.reg Reg.chkParityBase := hblocks _ (by simp [parityRegs])
  have hwa := M.wf_accessed hw w
  refine ⟨fun h => ?_, fun g r hshape hmode => ?_⟩
  · obtain ⟨hr, hsv, hsp⟩ := parity_idle (s := s.m.accessed w) (by rwa [hblocks.shape, hrly]) step lost
    intro c hc
    rcases List.mem_cons.1 hc with rfl | hc
    · exact hrefresh.trans (congrArg s.becomes hr)
    rcases List.mem_cons.1 hc with rfl | hc
    · exact hsurvivor.trans (congrArg s.becomes hsv)
    · rw [List.mem_singleton.1 hc]
      exact hspare.trans (congrArg s.becomes hsp)
  · intro n a
    have hshape' := hblocks.shape.trans hshape
    have hmode' : (s.m.accessed w).rly.parity.mode = 0 := by rwa [hrly]
    have hcw : ∀ l, (s.m.accessed w).codeword l = s.m.codeword l := M.codeword_accessed _ _
    have hclean : s.m.clean header → (s.m.accessed w).clean (linesOf ((s.m.accessed w).reg Reg.chkParityBase) 5) := fun h l hmem => by
      rw [hcw]
      rw [hbase] at hmem
      exact h l hmem
    have hstep : (s.m.accessed w).parityStep = s.m.parityStep := by
      rw [M.parityStep, hbase]
      exact M.num_of_codewords fun _ _ => hcw _
    have hstores := s.m.sameStores_accessed w
    have hcores : (s.m.accessed w).cores = s.m.cores := M.accessed_cores _ _
    have hlogWr : (s.m.accessed w).reg Reg.chkLogWr = s.m.reg Reg.chkLogWr := M.accessed_reg _ _ (by decide)
    rw [hrefresh, hsurvivor, hspare]
    refine ⟨fun hn => ?_, fun hc hne => ?_, fun ⟨l, hmem, hpois⟩ => ?_, fun hc heq hcount => ?_, fun hq => ?_⟩
    · obtain ⟨m, hm, hrun, hzero⟩ := parityRefresh_runs hwa hshape' hmode' step (by rwa [hblocks.chunks])
      rw [hblocks.chunks] at hrun
      rw [hblocks.parityBlock, hblocks.blockLen] at hzero
      exact ⟨m, congrArg s.becomes hm, hrun, hzero⟩
    · obtain ⟨m, hm, h63, hr, ⟨hwr, hlast⟩, hst, hco⟩ := rebuildSurvivor_refuses hwa hshape' hmode' step lost (hclean hc) (by rwa [hstep])
      rw [hlogWr] at hwr hlast
      exact ⟨m, congrArg s.becomes hm, h63, by rw [hr, hrly], ⟨hwr, hlast⟩, ⟨hst.1.trans hstores.1, hst.2.trans hstores.2⟩, hco.trans hcores⟩
    · obtain ⟨m, hm, h63, h55, hr, hco⟩ := rebuildSurvivor_poisoned hwa hshape' hmode' step lost
        ⟨l, by rwa [hbase], by rwa [hcw]⟩
      exact ⟨m, congrArg s.becomes hm, h63, h55, by rw [hr, hrly], hco.trans hcores⟩
    · obtain ⟨m, hm, hrun⟩ := rebuildSurvivor_runs hwa hshape' hmode' step lost (hclean hc) (hstep.trans heq)
        (by rwa [hblocks.place, hblocks.sends])
      rw [hblocks.place, hblocks.sends] at hrun
      exact ⟨m, congrArg s.becomes hm, hrun⟩
    · have hwaits := rebuildSpare_waits hshape' hmode' step lost (by
        obtain ⟨q, hlt, hlost, hsends⟩ := hq
        exact ⟨q, hlt, hlost, by rwa [hblocks.sends]⟩)
      have hread : (s.m.accessed w).headerRead.rly = s.m.rly := (s.m.accessed w).headerRead_beside.1.trans hrly
      rw [hwaits, M.parityOpened, hread]
      rfl

end Sys2Proof.Machine

/-! # Frames that a port sends and receives (R247 to R252) -/

namespace Sys2Proof.Machine

/-! ## Counters alone -/

/-- The counters of the ports and of the Relay engines. -/
def Reg.ofCounters (o : Nat) : Prop := 0x310000 ≤ o ∧ o < 0x3A0000

/-- The second machine is the first with some events counted. -/
structure M.tallied (s t : M) : Prop where
  rest : { t with regs := s.regs } = s
  regs : ∀ o, ¬ Reg.ofCounters o → t.reg o = s.reg o
  wf : s.wf = true → t.wf = true

namespace M.tallied

theorem refl (s : M) : s.tallied s := ⟨rfl, fun _ _ => rfl, id⟩

theorem trans {s t u : M} (h : s.tallied t) (k : t.tallied u) : s.tallied u where
  rest := by
    have h2 : ({ ({ u with regs := t.regs } : M) with regs := s.regs } : M) = { t with regs := s.regs } :=
      (congrArg (fun x : M => { x with regs := s.regs }) k.rest :)
    exact h2.trans h.rest
  regs o ho := (k.regs o ho).trans (h.regs o ho)
  wf hw := k.wf (h.wf hw)

theorem setReg {s : M} {o : Nat} (ho : Reg.ofCounters o) (v : Nat) : s.tallied (s.setReg o v) where
  rest := rfl
  regs _ h := M.reg_setReg_other _ _ fun he => h (he ▸ ho)
  wf := M.wf_setReg o v

theorem countAt {s : M} {cnt ovf : Nat} (hc : Reg.ofCounters cnt) (ho : Reg.ofCounters ovf) (sel c code n : Nat) :
    s.tallied (Machine.countAt cnt sel ovf c code n s) := by
  unfold Machine.countAt
  dsimp only
  split
  · generalize s.reg cnt + (if bit (s.reg sel) 30 then 1 else n) = v
    split
    · exact setReg hc _
    · exact (setReg hc _).trans (setReg ho _)
  · exact refl s

theorem eq {s t : M} (h : s.tallied t) : ∃ r, t = { s with regs := r } :=
  ⟨t.regs, by rw [← h.rest]⟩

/-- What is said of all but the registers stays. -/
theorem outs {s t : M} (h : s.tallied t) : t.outs = s.outs := (congrArg M.outs h.rest :)

theorem trn {s t : M} (h : s.tallied t) : t.trn = s.trn := (congrArg M.trn h.rest :)

theorem sec {s t : M} (h : s.tallied t) : t.sec = s.sec := (congrArg M.sec h.rest :)

theorem board {s t : M} (h : s.tallied t) : t.board = s.board := (congrArg M.board h.rest :)

theorem cores {s t : M} (h : s.tallied t) : t.cores = s.cores := (congrArg M.cores h.rest :)

theorem stores {s t : M} (h : s.tallied t) : s.sameStores t := ⟨(congrArg M.mem h.rest :), (congrArg M.chk h.rest :)⟩

end M.tallied

theorem portCount_tallies {p : Nat} (hp : p < 64) (code n : Nat) (s : M) : s.tallied (portCount p code n s).2 := by
  have hctrl : (s.portPlace p).1 < 128 := by
    unfold M.portPlace
    split <;> dsimp only <;> omega
  rw [portCount, run_bind, run_get, portEvent, run_modify]
  refine List.foldlRecOn (motive := fun t => s.tallied t) _ _ (.refl s) fun t ht c hc => ?_
  have := List.mem_range.1 hc
  split
  · refine ht.trans (.countAt ?_ ?_ _ _ _ _)
    · simp only [Reg.ofCounters, Reg.cntE]; omega
    · simp only [Reg.ofCounters, Reg.cntEOvf]; omega
  · exact ht

/-! ## Frames sent -/

/-- The second machine is the first with some frames sent, and counted. -/
structure M.wired (s t : M) : Prop where
  rest : { t with regs := s.regs, outs := s.outs, sec := { t.sec with ports := s.sec.ports } } = s
  regs : ∀ o, ¬ Reg.ofTraffic o → t.reg o = s.reg o
  outs : s.outs <:+ t.outs
  ports : t.sec.ports.map PortKeys.still = s.sec.ports.map PortKeys.still
  wf : s.wf = true → t.wf = true

namespace M.wired

theorem refl (s : M) : s.wired s := ⟨rfl, fun _ _ => rfl, List.suffix_refl _, rfl, id⟩

theorem trans {s t u : M} (h : s.wired t) (k : t.wired u) : s.wired u where
  rest := by
    have h2 := (congrArg (fun x : M => ({ x with regs := s.regs, outs := s.outs, sec := { x.sec with ports := s.sec.ports } } : M)) k.rest :)
    exact h2.trans h.rest
  regs o ho := (k.regs o ho).trans (h.regs o ho)
  outs := h.outs.trans k.outs
  ports := k.ports.trans h.ports
  wf hw := k.wf (h.wf hw)

theorem trn {s t : M} (h : s.wired t) : t.trn = s.trn := (congrArg M.trn h.rest :)

theorem rally {s t : M} (h : s.wired t) (n : Nat) : t.rally n = s.rally n := by rw [M.rally, h.trn, M.rally]

theorem board {s t : M} (h : s.wired t) : t.board = s.board := (congrArg M.board h.rest :)

theorem cores {s t : M} (h : s.wired t) : t.cores = s.cores := (congrArg M.cores h.rest :)

theorem isl {s t : M} (h : s.wired t) : t.isl = s.isl := (congrArg M.isl h.rest :)

theorem rly {s t : M} (h : s.wired t) : t.rly = s.rly := (congrArg M.rly h.rest :)

theorem boot {s t : M} (h : s.wired t) : t.boot = s.boot := (congrArg M.boot h.rest :)

theorem stores {s t : M} (h : s.wired t) : s.sameStores t := ⟨(congrArg M.mem h.rest :), (congrArg M.chk h.rest :)⟩

theorem setReg {s : M} {o : Nat} (ho : Reg.ofTraffic o) (v : Nat) : s.wired (s.setReg o v) where
  rest := rfl
  regs _ h := M.reg_setReg_other _ _ fun he => h (he ▸ ho)
  outs := List.suffix_refl _
  ports := rfl
  wf := M.wf_setReg o v

theorem out (s : M) (o : Output) : s.wired (s.out o) :=
  ⟨rfl, fun _ _ => rfl, List.suffix_cons _ _, rfl, fun h => (M.wf_congr ⟨rfl, rfl, rfl, rfl, rfl, rfl, rfl, rfl, rfl, rfl, rfl⟩).trans h⟩

end M.wired

theorem M.tallied.wired {s t : M} (h : s.tallied t) : s.wired t := by
  obtain ⟨r, rfl⟩ := h.eq
  exact ⟨rfl, fun o ho => h.regs o fun hc => ho (.inl hc), List.suffix_refl _, rfl, h.wf⟩

theorem usePn_frames (p : Nat) (s : M) : s.wired (usePn p s).2 :=
  ⟨rfl, fun _ _ => rfl, List.suffix_refl _, PortKeys.still_usePn p s.sec.ports, keepsWf_usePn p s⟩

/-- The machine once a frame has gone out by a port that is on. -/
theorem emitFrame_cases {p : Nat} (hp : p < 64) (o : Output) (s : M) :
    (s.board.portOff = true → (emitFrame p o s).2 = s) ∧
      (s.board.portOff = false → (if s.macsec p then (usePn p (s.out o)).2 else s.out o).tallied (emitFrame p o s).2) := by
  rw [emitFrame, run_bind, run_get]
  dsimp only
  refine ⟨fun h => ?_, fun h => ?_⟩
  · rw [h]
    rfl
  · rw [h, Bool.not_false, run_whenA_true, run_bind, run_bind, run_whenA]
    exact portCount_tallies hp _ _ _

theorem emitFrame_frames {p : Nat} (hp : p < 64) (o : Output) (s : M) : s.wired (emitFrame p o s).2 := by
  obtain ⟨hoff, hon⟩ := emitFrame_cases hp o s
  cases h : s.board.portOff with
  | true =>
    rw [hoff h]
    exact .refl s
  | false =>
    refine M.wired.trans ?_ (hon h).wired
    split
    · exact (M.wired.out s o).trans (usePn_frames p _)
    · exact .out s o

/-- A frame that goes out is among what is sent. -/
theorem emitFrame_sends {p : Nat} (hp : p < 64) (o : Output) {s : M} (h : s.board.portOff = false) : o ∈ (emitFrame p o s).2.outs := by
  rw [((emitFrame_cases hp o s).2 h).outs]
  split <;> exact List.mem_cons_self

/-- A port that sends: it is up, MACsec lets frames pass, and PORT_OFF# does not hold it. -/
def M.transmits (s : M) (p : Nat) : Prop := s.portUp p = true ∧ s.macsecOk p = true ∧ s.board.portOff = false

theorem sendFrame_frames (p dst psn : Nat) (ctrl : Bool) (packet : List Byte) (s : M) : s.wired (sendFrame p dst psn ctrl packet s).2 := by
  rw [sendFrame, run_bind, run_get]
  dsimp only
  cases hc : s.portUp p && s.macsecOk p with
  | false => exact .refl s
  | true =>
    have hp : p < 64 := M.port_lt (Bool.and_eq_true _ _ ▸ hc).1
    rw [run_whenA_true, run_bind]
    refine (emitFrame_frames hp (.mirzu p (s.frame p dst psn ctrl packet)) s).trans ?_
    cases s.board.portOff with
    | true => exact .refl _
    | false => exact (portCount_tallies hp _ _ _).wired

theorem sendFrame_sends {p : Nat} {s : M} (h : s.transmits p) (dst psn : Nat) (ctrl : Bool) (packet : List Byte) :
    Output.mirzu p (s.frame p dst psn ctrl packet) ∈ (sendFrame p dst psn ctrl packet s).2.outs := by
  obtain ⟨hup, hok, hon⟩ := h
  have hp : p < 64 := M.port_lt hup
  have hsent := emitFrame_sends hp (.mirzu p (s.frame p dst psn ctrl packet)) hon
  rw [sendFrame, run_bind, run_get]
  dsimp only
  rw [hup, hok, hon, Bool.and_true, run_whenA_true, run_bind, Bool.not_false, run_whenA_true, (portCount_tallies hp _ _ _).outs]
  exact hsent

/-- A control packet that is sent, or not where its path has no port. -/
theorem sendControl_frames (peer k typ flags b12 b16 : Nat) (pl : List Byte) (b8 : Nat) (s : M) :
    s.wired (sendControl peer k typ flags b12 b16 pl b8 s).2 := by
  rw [sendControl, run_bind, run_get]
  dsimp only
  cases s.pathPort k with
  | none => exact .refl s
  | some p => exact sendFrame_frames _ _ _ _ _ s

theorem sendControl_sends {s : M} {k p : Nat} (hk : s.pathPort k = some p) (h : s.transmits p) (peer typ flags b12 b16 : Nat) (pl : List Byte) (b8 : Nat) :
    Output.mirzu p (s.frame p peer 0 true (s.header typ flags peer b8 b12 b16 pl.length k 0 0 ++ pl)) ∈
      (sendControl peer k typ flags b12 b16 pl b8 s).2.outs := by
  rw [sendControl, run_bind, run_get]
  dsimp only
  rw [hk]
  exact sendFrame_sends h _ _ _ _

/-! ## What ports and addresses are, once frames have been sent -/

section
variable {s t : M} (h : s.wired t)
include h

theorem M.wired.reg_eth {o : Nat} (ho : o < 0x250100) (ht : o ∉ [Reg.trnCtxMisses, Reg.trnCtxStalls, Reg.trnRetx, Reg.trnDrops]) :
    t.reg o = s.reg o := h.regs o fun hof => hof.elim (fun hc => by omega) ht

theorem M.wired.reg_port {o : Nat} (ho : 0x260000 ≤ o ∧ o < 0x310000) : t.reg o = s.reg o :=
  h.regs o fun hof => hof.elim (fun hc => by omega) fun hm => by
    simp only [Reg.trnCtxMisses, Reg.trnCtxStalls, Reg.trnRetx, Reg.trnDrops, List.mem_cons, List.not_mem_nil, or_false] at hm
    omega

theorem M.wired.nPorts : t.nPorts = s.nPorts := by
  rw [M.nPorts, h.reg_port (by decide), M.nPorts]

theorem M.wired.linkUp {p : Nat} (hp : p < 64) : t.linkUp p = s.linkUp p := by
  rw [M.linkUp, h.reg_port (by simp only [Reg.ethPortStatus]; omega), M.linkUp]

theorem M.wired.portUp (p : Nat) : t.portUp p = s.portUp p := by
  by_cases hp : p < 64
  · rw [M.portUp, h.nPorts, h.linkUp hp, h.reg_eth (o := Reg.mgtReadyMap) (by decide) (by decide),
      h.reg_port (o := Reg.ethPortCtl p) (by simp only [Reg.ethPortCtl]; omega), M.portUp]
  · have hno : ∀ u : M, u.portUp p = false := fun u => Bool.eq_false_iff.2 fun hup => hp (M.port_lt hup)
    rw [hno, hno]

theorem M.wired.macsec {p : Nat} (hp : p < 64) : t.macsec p = s.macsec p := by
  rw [M.macsec, h.reg_port (by simp only [Reg.ethPortCtl]; omega), M.macsec]

theorem M.wired.macsecOk {p : Nat} (hp : p < 64) : t.macsecOk p = s.macsecOk p := by
  rw [M.macsecOk, h.macsec hp, h.reg_port (by simp only [Reg.ethPortStatus]; omega), M.macsecOk]

theorem M.wired.transmits {p : Nat} : t.transmits p ↔ s.transmits p := by
  simp only [M.transmits, h.portUp, h.board]
  refine and_congr_right fun hup => ?_
  rw [h.macsecOk (M.port_lt hup)]

theorem M.wired.pathPorts : t.pathPorts = s.pathPorts := by
  rw [M.pathPorts, h.reg_eth (o := Reg.trnPathMask) (by decide) (by decide), M.pathPorts]

theorem M.wired.pathPort (k : Nat) : t.pathPort k = s.pathPort k := by rw [M.pathPort, h.pathPorts, M.pathPort]

end

end Sys2Proof.Machine

/-! # Frames received (R247, R248, R250, R251) -/

namespace Sys2Proof.Machine

/-! ## What a port does with a frame, once it has been counted -/

/-- The machine with the codewords counted that a frame's FEC could not correct. -/
def M.frameHeard (s : M) (port uncorr : Nat) : M :=
  s.setReg (Reg.ethFecUncorr port) (trunc 64 (s.reg (Reg.ethFecUncorr port) + uncorr))

/-- The machine with a frame dropped. -/
def M.frameDropped (s : M) (port : Nat) : M := s.setReg (Reg.ethRxDrop port) (trunc 64 (s.reg (Reg.ethRxDrop port) + 1))

/-- The machine with a packet dropped. -/
def M.packetDropped (s : M) : M := s.setReg Reg.trnDrops (trunc 64 (s.reg Reg.trnDrops + 1))

/-- The machine with a packet number accepted of an association at a port. -/
def M.tookPn (s : M) (p an pn : Nat) : M := (takePn p an pn s).2

/-- What a port does with a frame that it has counted. -/
def judgeFrame (m : M) (port len : Nat) (fcsOk tagged : Bool) (vid kind : Nat) (pl : List Byte) (an pn : Nat) : Act Unit :=
  if len > 9216 then dropFrame port 0x205
  else if !fcsOk then dropFrame port 0x204
  else if !m.macsecOk port then portCount port 0x212 1
  else do
    let ok ← macsecPass port kind an pn
    whenA ok (passFrame port tagged vid kind pl)

theorem M.tallied.both {s t : M} (h : s.tallied t) (hw : s.wf = true) (o v : Nat) : (s.setReg o v).tallied (t.setReg o v) where
  rest := (congrArg (fun x : M => x.setReg o v) h.rest :) ▸ rfl
  regs o' ho' := by
    by_cases he : o' = o
    · rw [he, M.reg_setReg_self t _ _ (h.wf hw), M.reg_setReg_self s _ _ hw]
    · rw [M.reg_setReg_other _ _ he, M.reg_setReg_other _ _ he, h.regs o' ho']
  wf _ := M.wf_setReg o v (h.wf hw)

section
variable {port : Nat} (hp : port < 64)
include hp

theorem tallied_whenA {s : M} (c : Bool) (code n : Nat) : s.tallied (whenA c (portCount port code n) s).2 := by
  cases c with
  | false => exact .refl s
  | true => exact portCount_tallies hp code n s

/-- A frame that arrives is counted, and then judged. -/
theorem run_frameReceived {s : State} (hl : s.m.board.live = true) (hup : s.m.portUp port = true) (len : Nat) (fcsOk tagged : Bool)
    (vid kind : Nat) (ce : Bool) (pl : List Byte) (uncorr an pn : Nat) :
    ∃ t, (s.m.frameHeard port uncorr).tallied t ∧ exec (.frameReceived port len fcsOk tagged vid kind ce pl uncorr an pn) s =
      s.becomes (judgeFrame s.m port len fcsOk tagged vid kind pl an pn t).2 := by
  refine ⟨(whenA ce (portCount port 0x20F 1) (whenA tagged (portCount port 0x213 1) (portCount port 0x203 len (portCount port 0x201 1
    (portCount port 0x20A uncorr (s.m.frameHeard port uncorr)).2).2).2).2).2, ?_, ?_⟩
  · exact ((((portCount_tallies hp _ _ _).trans (portCount_tallies hp _ _ _)).trans (portCount_tallies hp _ _ _)).trans
      (tallied_whenA hp _ _ _)).trans (tallied_whenA hp _ _ _)
  · rw [exec, execFrameReceived, State.doing_live s _ hl, run_bind, run_get]
    dsimp only
    rw [hup, run_whenA_true, run_bind, run_bind, run_bind, run_bind, run_bind, run_bind]
    rfl

theorem dropFrame_tallies (code : Nat) {s t : M} (h : s.tallied t) (hw : s.wf = true) :
    (s.frameDropped port).tallied (dropFrame port code t).2 := by
  have hreg : t.reg (Reg.ethRxDrop port) = s.reg (Reg.ethRxDrop port) := h.regs _ (by simp only [Reg.ofCounters, Reg.ethRxDrop]; omega)
  have hboth := h.both hw (Reg.ethRxDrop port) (trunc 64 (t.reg (Reg.ethRxDrop port) + 1))
  rw [dropFrame, run_bind, M.frameDropped, ← hreg]
  exact hboth.trans (portCount_tallies hp _ _ _)

theorem dropPacket_tallies {s t : M} (h : s.tallied t) (hw : s.wf = true) : s.packetDropped.tallied (dropPacket port t).2 := by
  have hreg : t.reg Reg.trnDrops = s.reg Reg.trnDrops := h.regs _ (by simp [Reg.ofCounters, Reg.trnDrops])
  have hboth := h.both hw Reg.trnDrops (trunc 64 (t.reg Reg.trnDrops + 1))
  rw [dropPacket, run_bind, M.packetDropped, ← hreg]
  exact hboth.trans (portCount_tallies hp _ _ _)

theorem M.tallied.macsec {s t : M} (h : s.tallied t) : t.macsec port = s.macsec port := h.wired.macsec hp

omit hp in
theorem M.tallied.sakOf {s t : M} (h : s.tallied t) (an : Nat) : t.sakOf port an = s.sakOf port an := by
  rw [M.sakOf, M.saks, h.sec, M.sakOf, M.saks]

/-- A frame that fails MACsec. -/
def M.failsMacsec (s : M) (port kind an pn : Nat) : Prop :=
  s.macsec port = true ∧ (s.sakOf port an = none ∨ kind = 5 ∨ ∃ k, s.sakOf port an = some k ∧ pn < k.low)

theorem macsecPass_fails {s t : M} (h : s.tallied t) {kind an pn : Nat} (hf : s.failsMacsec port kind an pn) :
    (macsecPass port kind an pn t).1 = false ∧ s.tallied (macsecPass port kind an pn t).2 := by
  obtain ⟨hon, hwhy⟩ := hf
  rw [macsecPass, run_bind, run_get]
  dsimp only
  rw [run_ite, if_neg (by simp [h.macsec hp, hon]), h.sakOf]
  cases hk : s.sakOf port an with
  | none => exact ⟨rfl, h.trans (portCount_tallies hp _ _ _)⟩
  | some k =>
    dsimp only
    rw [run_ite]
    split
    · exact ⟨rfl, h.trans (portCount_tallies hp _ _ _)⟩
    next h5 =>
      have hlow : pn < k.low := by
        rcases hwhy with hn | h' | ⟨k', hk', hlow⟩
        · rw [hk] at hn
          exact absurd hn (by simp)
        · exact absurd h' h5
        · rw [hk] at hk'
          exact Option.some.inj hk' ▸ hlow
      rw [run_ite, if_pos hlow]
      exact ⟨rfl, h.trans (portCount_tallies hp _ _ _)⟩

/-- The machine once a frame has passed MACsec. -/
def M.pastMacsec (s : M) (port an pn : Nat) : M := if s.macsec port then s.tookPn port an pn else s

theorem macsecPass_passes {s t : M} (h : s.tallied t) {kind an pn : Nat} (hf : ¬ s.failsMacsec port kind an pn) :
    (macsecPass port kind an pn t).1 = true ∧ (s.pastMacsec port an pn).tallied (macsecPass port kind an pn t).2 := by
  rw [macsecPass, run_bind, run_get]
  dsimp only
  rw [run_ite, h.macsec hp, M.pastMacsec]
  cases hon : s.macsec port with
  | false => exact ⟨rfl, h⟩
  | true =>
    rw [if_neg (by simp), h.sakOf]
    cases hk : s.sakOf port an with
    | none => exact absurd ⟨hon, .inl hk⟩ hf
    | some k =>
      have h5 : kind ≠ 5 := fun h5 => hf ⟨hon, .inr (.inl h5)⟩
      have hlow : ¬ pn < k.low := fun hlow => hf ⟨hon, .inr (.inr ⟨k, hk, hlow⟩)⟩
      dsimp only
      rw [run_ite, if_neg h5, run_ite, if_neg hlow]
      obtain ⟨r, rfl⟩ := h.eq
      exact ⟨rfl, rfl, h.regs, h.wf⟩

end

/-! ## The SAKs of a port -/

theorem List.find?_map_same {α : Type} {f : α → α} {q : α → Bool} (hf : ∀ a, q (f a) = q a) (l : List α) :
    (l.map f).find? q = (l.find? q).map f := by
  rw [List.find?_map]
  exact congrArg (fun g => (l.find? g).map f) (funext hf)

section
variable (s : M) (p an pn : Nat)

theorem M.saks_tookPn : (s.tookPn p an pn).saks p = (s.saks p).map fun a => if a.an = an then { a with low := pn + 1 } else a := by
  have hkey : ∀ k : PortKeys, decide ((if k.port = p then
      { k with saks := k.saks.map fun a => if a.an = an then { a with low := pn + 1 } else a } else k).port = p) = decide (k.port = p) :=
    fun k => by split <;> rfl
  rw [M.saks, M.saks, M.tookPn, takePn, run_modify]
  dsimp only
  rw [List.find?_map_same hkey, Option.map_map]
  cases hk : s.sec.ports.find? fun k => decide (k.port = p) with
  | none => rfl
  | some k =>
    have hport : k.port = p := by simpa using List.find?_some hk
    simp [Function.comp, hport]

theorem M.saks_usePn : (usePn p s).2.saks p = (s.saks p).modify 0 fun a => { a with next := trunc 64 (a.next + 1) } := by
  have hkey : ∀ k : PortKeys, decide ((if k.port = p then
      { k with saks := k.saks.modify 0 fun a => { a with next := trunc 64 (a.next + 1) } } else k).port = p) = decide (k.port = p) :=
    fun k => by split <;> rfl
  rw [M.saks, M.saks, usePn, run_modify]
  dsimp only
  rw [List.find?_map_same hkey, Option.map_map]
  cases hk : s.sec.ports.find? fun k => decide (k.port = p) with
  | none => rfl
  | some k =>
    have hport : k.port = p := by simpa using List.find?_some hk
    simp [Function.comp, hport]

/-- A frame accepted raises the packet number that its association takes next. -/
theorem M.sakOf_tookPn {k : Sak} (h : s.sakOf p an = some k) : ((s.tookPn p an pn).sakOf p an).map (·.low) = some (pn + 1) := by
  rw [M.sakOf] at h
  rw [M.sakOf, M.saks_tookPn, List.find?_map_same (fun a => by split <;> rfl), h]
  have han : k.an = an := by simpa using List.find?_some h
  simp [han]

/-- A frame sent leaves the lowest packet numbers alone. -/
theorem M.sakOf_usePn : ((usePn p s).2.sakOf p an).map (·.low) = (s.sakOf p an).map (·.low) := by
  rw [M.sakOf, M.saks_usePn, M.sakOf]
  cases s.saks p with
  | nil => rfl
  | cons a l =>
    rw [List.modify_zero_cons, List.find?_cons, List.find?_cons]
    dsimp only
    cases decide (a.an = an) with
    | true => rfl
    | false => rfl

/-- What a frame of a port carries does not depend on the packet numbers accepted. -/
theorem M.eth_tookPn (ctrl : Bool) : (s.tookPn p an pn).eth p ctrl = s.eth p ctrl := by
  have hsaks : ((s.tookPn p an pn).saks p).head?.map (fun k => (k.an, k.next)) = (s.saks p).head?.map fun k => (k.an, k.next) := by
    rw [M.saks_tookPn]
    cases s.saks p with
    | nil => rfl
    | cons a l =>
      simp only [List.map_cons, List.head?_cons, Option.map_some]
      split <;> rfl
  rw [M.eth, hsaks]
  rfl

end

/-! ## Frames that pass -/

section
variable {port : Nat} (hp : port < 64)
include hp

theorem M.tallied.eth {s t : M} (h : s.tallied t) (ctrl : Bool) : t.eth port ctrl = s.eth port ctrl := by
  have hreg : ∀ o, o < 0x310000 → t.reg o = s.reg o := fun o ho => h.regs o fun hc => by
    unfold Reg.ofCounters at hc
    omega
  rw [M.eth, M.eth, M.macOf, M.macOf, M.node, M.node, hreg (Reg.ethPortCtl port) (by simp only [Reg.ethPortCtl]; omega),
    hreg (Reg.ethPortNexthop port) (by simp only [Reg.ethPortNexthop]; omega), hreg Reg.ethMode (by decide),
    hreg Reg.trnNode (by decide), h.macsec hp, M.saks, M.saks, h.sec]

/-- The machine with an answer sent, unless PORT_OFF# holds the ports. -/
def M.replied (s : M) (port : Nat) (o : Output) : M :=
  if s.board.portOff then s else if s.macsec port then (usePn port (s.out o)).2 else s.out o

theorem emitFrame_tallies {s t : M} (h : s.tallied t) (o : Output) : (s.replied port o).tallied (emitFrame port o t).2 := by
  obtain ⟨hoff, hon⟩ := emitFrame_cases hp o t
  rw [M.replied, ← h.board, ← h.macsec hp]
  cases hb : t.board.portOff with
  | true =>
    rw [if_pos rfl, hoff hb]
    exact h
  | false =>
    rw [if_neg (by simp)]
    refine M.tallied.trans ?_ (hon hb)
    obtain ⟨r, rfl⟩ := h.eq
    have hw := fun hw => h.wf hw
    split
    · exact ⟨rfl, h.regs, fun hs => keepsWf_usePn port _ (keepsWf_emit o _ (hw ((M.wf_congr ⟨rfl, rfl, rfl, rfl, rfl, rfl, rfl, rfl, rfl, rfl, rfl⟩).symm.trans hs)))⟩
    · exact ⟨rfl, h.regs, fun hs => keepsWf_emit o _ (hw ((M.wf_congr ⟨rfl, rfl, rfl, rfl, rfl, rfl, rfl, rfl, rfl, rfl, rfl⟩).symm.trans hs))⟩

variable {s t : M} (h : s.tallied t) (hw : s.wf = true) (tagged : Bool) (vid kind : Nat) (pl : List Byte)
include h hw

/-- A frame of another VLAN than the port's. -/
def M.otherVlan (s : M) (port : Nat) (tagged : Bool) (vid : Nat) : Prop := tagged = true ∧ vid ≠ bits (s.reg (Reg.ethPortCtl port)) 27 16

omit hw in
theorem run_passFrame : passFrame port tagged vid kind pl t = (if tagged && vid != bits (s.reg (Reg.ethPortCtl port)) 27 16 then dropFrame port 0x206
    else if kind = 0 then whenA (decide ((Hdr.parse pl).typ ≥ 8)) (dropPacket port)
    else if kind ≤ 3 then do
      portCount port 0x208 1
      emitFrame port (.answer port kind (s.eth port true) pl)
    else if kind = 4 then dropPacket port
    else dropFrame port 0x207) t := by
  rw [passFrame, run_bind, run_get]
  dsimp only
  rw [h.eth hp, h.regs (Reg.ethPortCtl port) (by simp only [Reg.ofCounters, Reg.ethPortCtl]; omega)]

theorem passFrame_vlan (hv : s.otherVlan port tagged vid) : (s.frameDropped port).tallied (passFrame port tagged vid kind pl t).2 := by
  rw [run_passFrame hp h, if_pos (by simp [hv.1, hv.2])]
  exact dropFrame_tallies hp _ h hw

variable (hv : ¬ s.otherVlan port tagged vid)
include hv

omit hw in
theorem passFrame_answers (hk : kind ∈ [1, 2, 3]) :
    (s.replied port (.answer port kind (s.eth port true) pl)).tallied (passFrame port tagged vid kind pl t).2 := by
  have hk3 : kind ≠ 0 ∧ kind ≤ 3 := by
    simp only [List.mem_cons, List.not_mem_nil, or_false] at hk
    omega
  rw [run_passFrame hp h, if_neg (by simpa [M.otherVlan] using hv), if_neg hk3.1, if_pos hk3.2, run_bind]
  exact emitFrame_tallies hp (h.trans (portCount_tallies hp _ _ _)) _

omit hw in
theorem passFrame_mirzu (hk : kind = 0) (ht : (Hdr.parse pl).typ < 8) : s.tallied (passFrame port tagged vid kind pl t).2 := by
  rw [run_passFrame hp h, if_neg (by simpa [M.otherVlan] using hv), if_pos hk, run_whenA, if_neg (by simpa using ht)]
  exact h

theorem passFrame_badType (hk : kind = 0) (ht : 8 ≤ (Hdr.parse pl).typ) : s.packetDropped.tallied (passFrame port tagged vid kind pl t).2 := by
  rw [run_passFrame hp h, if_neg (by simpa [M.otherVlan] using hv), if_pos hk, decide_eq_true ht, run_whenA_true]
  exact dropPacket_tallies hp h hw

theorem passFrame_unknown (hk : kind = 4) : s.packetDropped.tallied (passFrame port tagged vid kind pl t).2 := by
  rw [run_passFrame hp h, if_neg (by simpa [M.otherVlan] using hv), if_neg (by omega), if_neg (by omega), if_pos hk]
  exact dropPacket_tallies hp h hw

theorem passFrame_other (hk : 5 ≤ kind) : (s.frameDropped port).tallied (passFrame port tagged vid kind pl t).2 := by
  rw [run_passFrame hp h, if_neg (by simpa [M.otherVlan] using hv), if_neg (by omega), if_neg (by omega), if_neg (by omega)]
  exact dropFrame_tallies hp _ h hw

end

/-! ## What a frame leaves -/

/-- A frame leaves the transport, the stores and the cores as they were, and shows whether it was dropped. -/
def M.rxLeaves (s : M) (port : Nat) (m : M) (one : Bool) : Prop := m.trn = s.trn ∧ s.sameStores m ∧ m.cores = s.cores ∧
  m.reg (Reg.ethRxDrop port) = if one then trunc 64 (s.reg (Reg.ethRxDrop port) + 1) else s.reg (Reg.ethRxDrop port)

section
variable {port : Nat} (hp : port < 64) {s : M} (hw : s.wf = true) (uncorr : Nat)
include hp

/-- A register of a port that is no counter. -/
theorem Reg.not_ofCounters_port : ¬ Reg.ofCounters (Reg.ethRxDrop port) ∧ ¬ Reg.ofCounters (Reg.ethFecUncorr port) ∧
    Reg.ethRxDrop port ≠ Reg.ethFecUncorr port ∧ Reg.ethRxDrop port ≠ Reg.trnDrops ∧ Reg.trnDrops ≠ Reg.ethFecUncorr port := by
  simp only [Reg.ofCounters, Reg.ethRxDrop, Reg.ethFecUncorr, Reg.trnDrops]
  omega

/-- The machine differs from one that has heard a frame in keys and outputs alone. -/
structure M.heard (s : M) (port uncorr : Nat) (x : M) : Prop where
  regs : ∀ o, x.reg o = (s.frameHeard port uncorr).reg o
  trn : x.trn = s.trn
  stores : s.sameStores x
  cores : x.cores = s.cores
  board : x.board = s.board
  wf : x.wf = true

omit hp in
theorem M.heard_frameHeard (port : Nat) {s : M} (hw : s.wf = true) (uncorr : Nat) : s.heard port uncorr (s.frameHeard port uncorr) :=
  ⟨fun _ => rfl, rfl, ⟨rfl, rfl⟩, rfl, rfl, M.wf_setReg _ _ hw⟩

namespace M.heard

variable {uncorr : Nat} {x m : M}

omit hp in
theorem past (h : s.heard port uncorr x) (an pn : Nat) : s.heard port uncorr (x.pastMacsec port an pn) := by
  unfold M.pastMacsec
  split
  · exact ⟨h.regs, h.trn, h.stores, h.cores, h.board, keepsWf_takePn port an pn x h.wf⟩
  · exact h

omit hp in
theorem replied (h : s.heard port uncorr x) (o : Output) : s.heard port uncorr (x.replied port o) := by
  unfold M.replied
  split
  · exact h
  · have hout : s.heard port uncorr (x.out o) := ⟨h.regs, h.trn, h.stores, h.cores, h.board, keepsWf_emit o x h.wf⟩
    split
    · exact ⟨hout.regs, hout.trn, hout.stores, hout.cores, hout.board, keepsWf_usePn port _ hout.wf⟩
    · exact hout

include hw in
theorem fec (h : s.heard port uncorr x) : x.reg (Reg.ethFecUncorr port) = trunc 64 (s.reg (Reg.ethFecUncorr port) + uncorr) ∧
    x.reg (Reg.ethRxDrop port) = s.reg (Reg.ethRxDrop port) ∧ x.reg Reg.trnDrops = s.reg Reg.trnDrops := by
  obtain ⟨-, -, hne, -, hne'⟩ := Reg.not_ofCounters_port hp
  exact ⟨(h.regs _).trans (M.reg_setReg_self s _ _ hw), (h.regs _).trans (M.reg_setReg_other s _ hne),
    (h.regs _).trans (M.reg_setReg_other s _ hne')⟩

include hw

/-- What the machine shows where nothing is dropped. -/
theorem leaves (h : s.heard port uncorr x) (hm : x.tallied m) : s.rxLeaves port m false ∧
    m.reg (Reg.ethFecUncorr port) = trunc 64 (s.reg (Reg.ethFecUncorr port) + uncorr) ∧ m.outs = x.outs ∧ m.sec = x.sec := by
  obtain ⟨hd, hf, -⟩ := Reg.not_ofCounters_port hp
  obtain ⟨hfec, hdrop, -⟩ := h.fec hp hw
  exact ⟨⟨hm.trn.trans h.trn, ⟨hm.stores.1.trans h.stores.1, hm.stores.2.trans h.stores.2⟩, hm.cores.trans h.cores,
    (hm.regs _ hd).trans hdrop⟩, (hm.regs _ hf).trans hfec, hm.outs, hm.sec⟩

theorem drops (h : s.heard port uncorr x) (hm : (x.frameDropped port).tallied m) : s.rxLeaves port m true ∧
    m.reg (Reg.ethFecUncorr port) = trunc 64 (s.reg (Reg.ethFecUncorr port) + uncorr) ∧ m.outs = x.outs ∧ m.sec = x.sec := by
  obtain ⟨hd, hf, hne, -⟩ := Reg.not_ofCounters_port hp
  obtain ⟨hfec, hdrop, -⟩ := h.fec hp hw
  refine ⟨⟨hm.trn.trans h.trn, ⟨hm.stores.1.trans h.stores.1, hm.stores.2.trans h.stores.2⟩, hm.cores.trans h.cores, ?_⟩, ?_, hm.outs, hm.sec⟩
  · rw [hm.regs _ hd, M.frameDropped, M.reg_setReg_self x _ _ h.wf, hdrop]
    rfl
  · rw [hm.regs _ hf, M.frameDropped, M.reg_setReg_other x _ hne.symm, hfec]

theorem dropsPacket (h : s.heard port uncorr x) (hm : x.packetDropped.tallied m) : s.rxLeaves port m false ∧
    m.reg (Reg.ethFecUncorr port) = trunc 64 (s.reg (Reg.ethFecUncorr port) + uncorr) ∧ m.outs = x.outs ∧ m.sec = x.sec ∧
    m.reg Reg.trnDrops = trunc 64 (s.reg Reg.trnDrops + 1) := by
  obtain ⟨hd, hf, -, hne, hne'⟩ := Reg.not_ofCounters_port hp
  obtain ⟨hfec, hdrop, hdrops⟩ := h.fec hp hw
  refine ⟨⟨hm.trn.trans h.trn, ⟨hm.stores.1.trans h.stores.1, hm.stores.2.trans h.stores.2⟩, hm.cores.trans h.cores, ?_⟩, ?_, hm.outs, hm.sec, ?_⟩
  · rw [hm.regs _ hd, M.packetDropped, M.reg_setReg_other x _ hne, hdrop]
    rfl
  · rw [hm.regs _ hf, M.packetDropped, M.reg_setReg_other x _ hne'.symm, hfec]
  · rw [hm.regs _ (by simp [Reg.ofCounters, Reg.trnDrops]), M.packetDropped, M.reg_setReg_self x _ _ h.wf, hdrops]

end M.heard

end

/-! ## A frame at a port that is up -/

section
variable {s : State} (hl : s.m.board.live = true) (hw : s.m.wf = true) {port : Nat} (hp : port < 64) (hup : s.m.portUp port = true)
  (len : Nat) (fcs tagged : Bool) (vid kind : Nat) (ce : Bool) (pl : List Byte) (uncorr an pn : Nat)
include hl hw hp hup

/-- A frame of the wrong length or FCS is dropped. -/
theorem frameReceived_malformed (hbad : 9216 < len ∨ fcs = false) : ∃ m,
    exec (.frameReceived port len fcs tagged vid kind ce pl uncorr an pn) s = s.becomes m ∧
      ((s.m.frameHeard port uncorr).frameDropped port).tallied m := by
  obtain ⟨t, ht, hrun⟩ := run_frameReceived hp hl hup len fcs tagged vid kind ce pl uncorr an pn
  refine ⟨_, hrun, ?_⟩
  rw [judgeFrame]
  split
  · exact dropFrame_tallies hp _ ht (M.wf_setReg _ _ hw)
  next hlen =>
    rw [if_pos (by simp [hbad.resolve_left hlen])]
    exact dropFrame_tallies hp _ ht (M.wf_setReg _ _ hw)

variable (hlen : len ≤ 9216) (hfcs : fcs = true)
include hlen hfcs

omit hl hw hp hup in
theorem judgeFrame_sound (t : M) : judgeFrame s.m port len fcs tagged vid kind pl an pn t =
    if s.m.macsecOk port then (do let ok ← macsecPass port kind an pn; whenA ok (passFrame port tagged vid kind pl) : Act Unit) t
    else portCount port 0x212 1 t := by
  rw [judgeFrame, if_neg (by omega), if_neg (by simp [hfcs])]
  cases s.m.macsecOk port <;> rfl

omit hw in
/-- A frame that MACsec does not let pass. -/
theorem frameReceived_refused (hbad : s.m.macsecOk port = false ∨ s.m.failsMacsec port kind an pn) : ∃ m,
    exec (.frameReceived port len fcs tagged vid kind ce pl uncorr an pn) s = s.becomes m ∧ (s.m.frameHeard port uncorr).tallied m := by
  obtain ⟨t, ht, hrun⟩ := run_frameReceived hp hl hup len fcs tagged vid kind ce pl uncorr an pn
  refine ⟨_, hrun, ?_⟩
  rw [judgeFrame_sound len fcs tagged vid kind pl an pn hlen hfcs]
  cases hok : s.m.macsecOk port with
  | false => exact ht.trans (portCount_tallies hp _ _ _)
  | true =>
    have hfails : (s.m.frameHeard port uncorr).failsMacsec port kind an pn := by
      have h := hbad.resolve_left (by simp [hok])
      have hon : (s.m.frameHeard port uncorr).macsec port = s.m.macsec port := by
        rw [M.macsec, M.frameHeard, M.reg_setReg_other _ _ (by simp only [Reg.ethPortCtl, Reg.ethFecUncorr]; omega), M.macsec]
      exact ⟨hon.trans h.1, h.2⟩
    obtain ⟨hno, hleft⟩ := macsecPass_fails hp ht hfails
    rw [if_pos rfl, run_bind, hno]
    exact hleft

omit hw in
/-- A frame that MACsec lets pass goes on as its kind says. -/
theorem frameReceived_passes (hok : s.m.macsecOk port = true) (hfails : ¬ s.m.failsMacsec port kind an pn) :
    ∃ t, ((s.m.frameHeard port uncorr).pastMacsec port an pn).tallied t ∧
      exec (.frameReceived port len fcs tagged vid kind ce pl uncorr an pn) s = s.becomes (passFrame port tagged vid kind pl t).2 := by
  obtain ⟨t, ht, hrun⟩ := run_frameReceived hp hl hup len fcs tagged vid kind ce pl uncorr an pn
  have hon : (s.m.frameHeard port uncorr).macsec port = s.m.macsec port := by
    rw [M.macsec, M.frameHeard, M.reg_setReg_other _ _ (by simp only [Reg.ethPortCtl, Reg.ethFecUncorr]; omega), M.macsec]
  have hno : ¬ (s.m.frameHeard port uncorr).failsMacsec port kind an pn := fun h => hfails ⟨hon ▸ h.1, h.2⟩
  obtain ⟨hpass, hleft⟩ := macsecPass_passes hp ht hno
  refine ⟨_, hleft, hrun.trans ?_⟩
  rw [judgeFrame_sound len fcs tagged vid kind pl an pn hlen hfcs, if_pos hok, run_bind, hpass]
  rfl

end

/-! ## Links that come up and go down (R247, R267) -/

theorem testBit_setBits_within {i lo hi : Nat} (hlo : lo ≤ i) (hhi : i ≤ hi) (x v : Nat) :
    (setBits x hi lo v).testBit i = v.testBit (i - lo) := by
  have h := congrArg (fun n => n.testBit (i - lo)) (bits_setBits_self (hlo.trans hhi) x v)
  have hin : i - lo < hi + 1 - lo := by omega
  simpa [bits, Nat.testBit_mod_two_pow, Nat.testBit_shiftRight, hin, Nat.add_sub_cancel' hlo] using h

/-- A field within the one that is set. -/
theorem bits_setBits_within {hi lo hi' lo' : Nat} (hlo : lo ≤ lo') (h : lo' ≤ hi') (hhi : hi' ≤ hi) (x v : Nat) :
    bits (setBits x hi lo v) hi' lo' = bits v (hi' - lo) (lo' - lo) := by
  refine Nat.eq_of_testBit_eq fun i => ?_
  simp only [bits, Nat.testBit_mod_two_pow, Nat.testBit_shiftRight]
  by_cases hi'' : i < hi' + 1 - lo'
  · rw [testBit_setBits_within (by omega) (by omega), show lo' + i - lo = lo' - lo + i by omega]
    congr 1
    simp only [decide_eq_decide]
    omega
  · simp only [hi'', decide_false, Bool.false_and, show ¬ i < hi' - lo + 1 - (lo' - lo) by omega]

section
variable {s : State} (hl : s.m.board.live = true) (port : Nat)
include hl

/-- May a port's link come up: the port controllers are ready, the mode has the port, it is enabled, and PORT_OFF# is high. -/
def M.mayLink (s : M) (port : Nat) : Prop := bit (s.reg Reg.mgtReadyMap) 122 = true ∧ port < s.nPorts ∧
  bit (s.reg (Reg.ethPortCtl port)) 31 = true ∧ s.board.portOff = false

theorem run_portLinkUp : exec (.portLinkUp port) s = s.becomes (whenA (bit (s.m.reg Reg.mgtReadyMap) 122 && decide (port < s.m.nPorts) &&
    bit (s.m.reg (Reg.ethPortCtl port)) 31 && !s.m.board.portOff) (setField (Reg.ethPortStatus port) 31 27 0x14) s.m).2 := by
  rw [exec, execPortLinkUp, State.doing_live s _ hl, run_bind, run_get, State.becomes]

theorem portLinkUp_shows (hw : s.m.wf = true) (h : s.m.mayLink port) : ∃ m, exec (.portLinkUp port) s = s.becomes m ∧
    s.m.sameBut m [Reg.ethPortStatus port] ∧ m.linkUp port = true ∧ bit (m.reg (Reg.ethPortStatus port)) 29 = true ∧
    bits (m.reg (Reg.ethPortStatus port)) 28 27 = 0 ∧
    bits (m.reg (Reg.ethPortStatus port)) 26 0 = bits (s.m.reg (Reg.ethPortStatus port)) 26 0 := by
  obtain ⟨hready, hport, hon, hoff⟩ := h
  have hreg : (s.m.setReg (Reg.ethPortStatus port) (setBits (s.m.reg (Reg.ethPortStatus port)) 31 27 0x14)).reg (Reg.ethPortStatus port) =
      setBits (s.m.reg (Reg.ethPortStatus port)) 31 27 0x14 := M.reg_setReg_self s.m _ _ hw
  refine ⟨_, ?_, (M.sameBut.refl s.m _).setReg List.mem_cons_self (setBits (s.m.reg (Reg.ethPortStatus port)) 31 27 0x14), ?_, ?_, ?_, ?_⟩
  · rw [run_portLinkUp hl, hready, hon, hoff, decide_eq_true hport]
    rfl
  · rw [M.linkUp, hreg, bits_setBits_within (by decide) (by decide) (by decide)]
    rfl
  · rw [hreg, bit, testBit_setBits_within (by decide) (by decide)]
    rfl
  · rw [hreg, bits_setBits_within (by decide) (by decide) (by decide)]
    rfl
  · rw [hreg, bits_setBits_below (by decide) (by decide)]

theorem portLinkUp_refused (h : ¬ s.m.mayLink port) : exec (.portLinkUp port) s = .next s := by
  have hno : ¬ (bit (s.m.reg Reg.mgtReadyMap) 122 && decide (port < s.m.nPorts) && bit (s.m.reg (Reg.ethPortCtl port)) 31 &&
      !s.m.board.portOff) = true := by simpa [M.mayLink, and_assoc] using h
  rw [run_portLinkUp hl, run_whenA, if_neg hno, State.becomes]

/-- What the local and the remote fault of a link that goes down show. -/
def M.faultShown (s : M) (port fault : Nat) : M :=
  s.setReg (Reg.ethPortStatus port) (setBits (s.reg (Reg.ethPortStatus port)) 28 27 (if fault = 1 then 2 else if fault = 2 then 1 else 0))

theorem run_portLinkDown (fault : Nat) : exec (.portLinkDown port fault) s = s.becomes
    (linkDown port (s.m.trains port) (if s.m.linkUp port then s.m.faultShown port fault else s.m)).2 := by
  rw [exec, execPortLinkDown, State.doing_live s _ hl, run_bind, run_get, run_bind, run_whenA]
  rfl

theorem portLinkDown_idle (fault : Nat) (h : s.m.linkUp port = false) : exec (.portLinkDown port fault) s = .next s := by
  rw [run_portLinkDown hl, if_neg (by simp [h]), linkDown_down h, State.becomes]

end

/-- The stores, the cores and what a Rally has to send, which packets sent again leave. -/
structure M.besideResends (s t : M) : Prop where
  stores : s.sameStores t
  cores : t.cores = s.cores
  rally : ∀ n, (t.rally n).unacked.map (·.psn) = (s.rally n).unacked.map (·.psn) ∧ (t.rally n).msgs = (s.rally n).msgs
  wf : t.wf = true

namespace M.besideResends

variable {s t : M} (h : s.besideResends t)
include h

theorem wired {u : M} (k : t.wired u) : s.besideResends u where
  stores := ⟨k.stores.1.trans h.stores.1, k.stores.2.trans h.stores.2⟩
  cores := k.cores.trans h.cores
  rally n := by
    rw [k.rally]
    exact h.rally n
  wf := k.wf h.wf

theorem updRally {n : Nat} {f : Rally → Rally} (hf : ∀ r, (f r).unacked.map (·.psn) = r.unacked.map (·.psn) ∧ (f r).msgs = r.msgs) :
    s.besideResends (Machine.updRally n f t).2 where
  stores := h.stores
  cores := h.cores
  rally k := by
    have hput : (Machine.updRally n f t).2.rally k = if k = n then f (t.rally n) else t.rally k := by
      by_cases hk : k = n
      · rw [if_pos hk, hk]
        exact M.rally_put_self h.wf n _
      · rw [if_neg hk]
        exact M.rally_put_other t _ hk
    rw [hput]
    split
    next hk => exact ⟨(hf _).1.trans (hk ▸ (h.rally _).1), (hf _).2.trans (hk ▸ (h.rally _).2)⟩
    · exact h.rally k
  wf := keepsWf_updRally n f t h.wf

end M.besideResends

theorem besideResends_sendPkt (s : M) (peer : Nat) (p : Pkt) (k : Nat) (retx : Bool) : Keeps s.besideResends (sendPkt peer p k retx) := by
  refine keeps_getThen fun t => keeps_bind (keeps_getThen fun _ _ h => h.updRally fun _ => ⟨rfl, rfl⟩) fun _ => ?_
  cases hport : t.pathPort k with
  | none => exact keeps_pure _
  | some port =>
    have hp := M.pathPort_lt hport
    exact keeps_bind (fun _ h => h.wired (sendFrame_frames _ _ _ _ _ _)) fun _ => keeps_whenA
      (keeps_bind (fun _ h => h.wired (portCount_tallies hp _ _ _).wired) fun _ _ h => h.wired (portCount_tallies hp _ _ _).wired)

theorem besideResends_retransmit (s : M) (peer : Nat) (p : Pkt) : Keeps s.besideResends (retransmit peer p) := by
  refine keeps_getThen fun t => ?_
  cases t.nextPath (t.rally peer) (32 + p.body.length) (p.path + 1) with
  | none => exact keeps_pure _
  | some k =>
    refine keeps_bind (fun _ h => h.updRally fun r => ⟨?_, rfl⟩) fun _ => keeps_bind (fun _ h => h.wired (.setReg (.inr (by simp)) _)) fun _ => ?_
    · rw [List.map_map]
      refine List.map_congr_left fun q _ => ?_
      simp only [Function.comp]
      split <;> rfl
    · cases hport : t.pathPort k with
      | none => exact besideResends_sendPkt s _ _ _ _
      | some port =>
        exact keeps_bind (fun _ h => h.wired (portCount_tallies (M.pathPort_lt hport) _ _ _).wired) fun _ => besideResends_sendPkt s _ _ _ _

theorem besideResends_resendPath (s : M) (k : Option Nat) (t : M) : Keeps s.besideResends (resendPath k t) := by
  cases k with
  | none => exact keeps_pure _
  | some k => exact keeps_forA fun _ => keeps_whenA (keeps_forA fun _ => besideResends_retransmit s _ _)

theorem testBit_fault (fault : Nat) : (Nat.testBit (if fault = 1 then 2 else if fault = 2 then 1 else 0) (28 - 27) = true ↔ fault = 1) ∧
    (Nat.testBit (if fault = 1 then 2 else if fault = 2 then 1 else 0) (27 - 27) = true ↔ fault = 2) := by
  split
  next h => exact ⟨iff_of_true rfl h, iff_of_false (by decide) (by omega)⟩
  next h1 =>
    split
    next h2 => exact ⟨iff_of_false (by decide) h1, iff_of_true rfl h2⟩
    next h2 => exact ⟨iff_of_false (by decide) h1, iff_of_false (by decide) h2⟩

/-- A link that goes down shows its fault, and its packets leave by other paths. -/
theorem portLinkDown_shows {s : State} (hl : s.m.board.live = true) (hw : s.m.wf = true) {port : Nat} (hp : port < 64) (fault : Nat)
    (hup : s.m.linkUp port = true) : ∃ m, exec (.portLinkDown port fault) s = s.becomes m ∧
      bits (m.reg (Reg.ethPortStatus port)) 31 30 = b2n (bit (s.m.reg (Reg.ethPortCtl port)) 28) ∧
      bit (m.reg (Reg.ethPortStatus port)) 29 = false ∧ (bit (m.reg (Reg.ethPortStatus port)) 28 = true ↔ fault = 1) ∧
      (bit (m.reg (Reg.ethPortStatus port)) 27 = true ↔ fault = 2) ∧ s.m.besideResends m := by
  have hfault : (s.m.faultShown port fault).reg (Reg.ethPortStatus port) = setBits (s.m.reg (Reg.ethPortStatus port)) 28 27
      (if fault = 1 then 2 else if fault = 2 then 1 else 0) := M.reg_setReg_self s.m _ _ hw
  have hwf : (s.m.faultShown port fault).wf = true := M.wf_setReg _ _ hw
  have hup' : (s.m.faultShown port fault).linkUp port = true := by
    rw [M.linkUp, hfault, bits_setBits_above (by decide) (by decide)]
    exact hup
  have hbeside : s.m.besideResends ((s.m.faultShown port fault).shownDown port (s.m.trains port)) :=
    ⟨⟨rfl, rfl⟩, rfl, fun _ => ⟨rfl, rfl⟩, M.wf_setReg _ _ (M.wf_setReg _ _ hwf)⟩
  have hstatus := linkDown_status hp hwf hup' (s.m.trains port)
  have htrains : s.m.trains port = b2n (bit (s.m.reg (Reg.ethPortCtl port)) 28) := rfl
  refine ⟨(linkDown port (s.m.trains port) (s.m.faultShown port fault)).2, ?_, ?_, ?_, ?_, ?_, ?_⟩
  · rw [run_portLinkDown hl, if_pos hup]
  · rw [hstatus, bits_setBits_above (by decide) (by decide), bits_setBits_self (by decide), ← htrains]
    exact Nat.mod_eq_of_lt (s.m.trains_lt port)
  · rw [hstatus, bit_setBits_self]
    rfl
  · rw [hstatus, bit_setBits_other (by omega) (by decide), bit_setBits_other (by omega) (by decide), hfault, bit,
      testBit_setBits_within (by decide) (by decide)]
    exact (testBit_fault fault).1
  · rw [hstatus, bit_setBits_other (by omega) (by decide), bit_setBits_other (by omega) (by decide), hfault, bit,
      testBit_setBits_within (by decide) (by decide)]
    exact (testBit_fault fault).2
  · rw [linkDown_up hup']
    exact besideResends_resendPath s.m _ _ _ hbeside

end Sys2Proof.Machine

/-! # What one Rally's sending does (R258, R260, R261, R269) -/

namespace Sys2Proof.Machine

/-- The second machine is the first with frames sent, the Rally with a peer changed, and contexts used. -/
structure M.served (s : M) (n : Nat) (r : Rally) (t : M) : Prop where
  rest : { t with regs := s.regs, outs := s.outs, sec := { t.sec with ports := s.sec.ports }, trn := s.trn } = s
  regs : ∀ o, ¬ Reg.ofTraffic o → t.reg o = s.reg o
  outs : s.outs <:+ t.outs
  ports : t.sec.ports.map PortKeys.still = s.sec.ports.map PortKeys.still
  wf : t.wf = true
  rally : t.rally n = r
  others : ∀ k, k ≠ n → t.rally k = s.rally k
  takeover : t.trn.tkUsed = s.trn.tkUsed ∧ t.trn.tkPeers = s.trn.tkPeers

namespace M.served

variable {s t u : M} {n : Nat} {r r' : Rally}

theorem refl (hw : s.wf = true) (n : Nat) : s.served n (s.rally n) s :=
  ⟨rfl, fun _ _ => rfl, List.suffix_refl _, rfl, hw, rfl, fun _ _ => rfl, rfl, rfl⟩

theorem trans (h : s.served n r t) (k : t.served n r' u) : s.served n r' u where
  rest := by
    have h2 := (congrArg (fun x : M => ({ x with regs := s.regs, outs := s.outs, sec := { x.sec with ports := s.sec.ports }, trn := s.trn } : M))
      k.rest :)
    exact h2.trans h.rest
  regs o ho := (k.regs o ho).trans (h.regs o ho)
  outs := h.outs.trans k.outs
  ports := k.ports.trans h.ports
  wf := k.wf
  rally := k.rally
  others j hj := (k.others j hj).trans (h.others j hj)
  takeover := ⟨k.takeover.1.trans h.takeover.1, k.takeover.2.trans h.takeover.2⟩

theorem stores (h : s.served n r t) : s.sameStores t := ⟨(congrArg M.mem h.rest :), (congrArg M.chk h.rest :)⟩

theorem cores (h : s.served n r t) : t.cores = s.cores := (congrArg M.cores h.rest :)

theorem board (h : s.served n r t) : t.board = s.board := (congrArg M.board h.rest :)

theorem isl (h : s.served n r t) : t.isl = s.isl := (congrArg M.isl h.rest :)

theorem boot (h : s.served n r t) : t.boot = s.boot := (congrArg M.boot h.rest :)

/-- Frames sent leave the Rallies alone. -/
theorem wired (h : s.served n r t) (k : t.wired u) : s.served n r u where
  rest := by
    have h2 := (congrArg (fun x : M => ({ x with regs := s.regs, outs := s.outs, sec := { x.sec with ports := s.sec.ports }, trn := s.trn } : M))
      k.rest :)
    exact h2.trans h.rest
  regs o ho := (k.regs o ho).trans (h.regs o ho)
  outs := h.outs.trans k.outs
  ports := k.ports.trans h.ports
  wf := k.wf h.wf
  rally := (k.rally n).trans h.rally
  others j hj := (k.rally j).trans (h.others j hj)
  takeover := by rw [k.trn]; exact h.takeover

theorem updRally (h : s.served n r t) (f : Rally → Rally) : s.served n (f r) (Machine.updRally n f t).2 where
  rest := h.rest
  regs := h.regs
  outs := h.outs
  ports := h.ports
  wf := keepsWf_updRally n f t h.wf
  rally := h.rally ▸ M.rally_put_self h.wf n _
  others k hk := (M.rally_put_other t _ hk).trans (h.others k hk)
  takeover := h.takeover

/-- A use of the context is noted. -/
theorem touchCtx (h : s.served n r t) : s.served n { r with used := t.trn.clock } (Machine.touchCtx n t).2 := by
  have htick : s.served n r { t with trn := { t.trn with clock := t.trn.clock + 1 } } :=
    ⟨h.rest, h.regs, h.outs, h.ports, (M.wf_congr ⟨rfl, rfl, rfl, rfl, rfl, rfl, rfl, rfl, rfl, rfl, rfl⟩).trans h.wf, h.rally, h.others, h.takeover⟩
  exact htick.updRally fun r => { r with used := t.trn.clock }

theorem transmits (h : s.served n r t) {p : Nat} : t.transmits p ↔ s.transmits p := by
  have hw : M.wired { s with trn := t.trn } t :=
    ⟨(congrArg (fun x : M => ({ x with trn := t.trn } : M)) h.rest :), h.regs, h.outs, h.ports, fun _ => h.wf⟩
  exact hw.transmits

theorem pathPort (h : s.served n r t) (k : Nat) : t.pathPort k = s.pathPort k := by
  have hw : M.wired { s with trn := t.trn } t :=
    ⟨(congrArg (fun x : M => ({ x with trn := t.trn } : M)) h.rest :), h.regs, h.outs, h.ports, fun _ => h.wf⟩
  exact hw.pathPort k

end M.served

/-! ## OPEN -/

section
variable {s : M} (hw : s.wf = true) (n : Nat)
include hw

/-- The OPEN that is sent is counted, and takes a path where there is one. -/
theorem sendOpen_serves : ∃ x, s.served n { s.rally n with openSends := (s.rally n).openSends + 1, rr := x } (sendOpen n s).2 := by
  have hcount := (M.served.refl hw n).updRally fun r => { r with openSends := r.openSends + 1 }
  rw [sendOpen, run_bind, run_get]
  dsimp only
  rw [run_bind]
  cases s.nextPath (s.rally n) 32 (s.rally n).rr with
  | none => exact ⟨_, hcount⟩
  | some k => exact ⟨k + 1, (hcount.updRally fun r => { r with rr := k + 1 }).wired (sendControl_frames _ _ _ _ _ _ _ _ _)⟩

/-- A Rally that starts to open. -/
theorem startOpen_serves : ∃ x, s.served n { s.rally n with
    out := 1, openSeq := trunc 32 ((s.rally n).openSeq + 1), openSends := 1, rr := x } (startOpen n s).2 := by
  have hopen := (M.served.refl hw n).updRally fun r => { r with out := 1, openSeq := trunc 32 (r.openSeq + 1), openSends := 0 }
  obtain ⟨x, hsent⟩ := sendOpen_serves hopen.wf n
  rw [hopen.rally] at hsent
  exact ⟨x, hopen.trans hsent⟩

/-! ## Contexts -/

/-- A context on chip is there. -/
theorem needCtx_here (h : (s.rally n).onChip = true) : (needCtx n s).1 = (true, false) ∧
    s.served n { s.rally n with used := s.trn.clock } (needCtx n s).2 := by
  rw [needCtx, run_bind, run_get]
  dsimp only
  rw [run_ite, if_pos h, run_bind]
  exact ⟨rfl, (M.served.refl hw n).touchCtx⟩

omit hw in
/-- A context that is being loaded is waited for. -/
theorem needCtx_loading (h : (s.rally n).onChip = false) (hl : (s.rally n).loading = true) : needCtx n s = ((false, true), s) := by
  rw [needCtx, run_bind, run_get]
  dsimp only
  rw [run_ite, if_neg (by simp [h]), run_ite, if_pos hl, run_pure]

/-- A peer without a context takes a free place. -/
theorem needCtx_free (h : (s.rally n).onChip = false) (hl : (s.rally n).loading = false) (hs : (s.rally n).spilled = false)
    (hroom : s.onChip.length < 1024) : (needCtx n s).1 = (true, false) ∧
      s.served n { s.rally n with onChip := true, used := s.trn.clock } (needCtx n s).2 := by
  rw [needCtx, run_bind, run_get]
  dsimp only
  rw [run_ite, if_neg (by simp [h]), run_ite, if_neg (by simp [hl]), run_ite, if_pos (by simp [hs, hroom]), run_bind, run_bind]
  exact ⟨rfl, ((M.served.refl hw n).updRally fun r => { r with onChip := true }).touchCtx⟩

/-- A context is asked for where one can be loaded. -/
theorem needCtx_misses (h : (s.rally n).onChip = false) (hl : (s.rally n).loading = false)
    (hno : ¬ ((s.rally n).spilled = false ∧ s.onChip.length < 1024)) (hgo : s.onChip.length < 1024 ∨ s.evictee ≠ none) :
    (needCtx n s).1 = (false, true) ∧ s.served n { s.rally n with loading := true } (needCtx n s).2 ∧
      (needCtx n s).2.reg Reg.trnCtxMisses = trunc 64 (s.reg Reg.trnCtxMisses + 1) := by
  have hgo' : (decide (s.onChip.length < 1024) || s.evictee.isSome) = true := by
    rcases hgo with h | h
    · simp [h]
    · simp [Option.isSome_iff_ne_none.2 h]
  have hload := (M.served.refl hw n).updRally fun r => { r with loading := true }
  rw [needCtx, run_bind, run_get]
  dsimp only
  rw [run_ite, if_neg (by simp [h]), run_ite, if_neg (by simp [hl]), run_ite, if_neg (by simpa using hno), run_ite, if_pos hgo', run_bind, run_bind]
  exact ⟨rfl, hload.wired (.setReg (.inr (by simp)) _), M.reg_setReg_self _ _ _ hload.wf⟩

omit hw in
theorem needCtx_full (h : (s.rally n).onChip = false) (hl : (s.rally n).loading = false) (hroom : ¬ s.onChip.length < 1024)
    (he : s.evictee = none) : needCtx n s = ((false, false), s) := by
  rw [needCtx, run_bind, run_get]
  dsimp only
  rw [run_ite, if_neg (by simp [h]), run_ite, if_neg (by simp [hl]), run_ite, if_neg (by simp [hroom]), run_ite, if_neg (by simp [hroom, he]),
    run_pure]

/-- Whatever comes of it, only the context's own state changes. -/
theorem needCtx_serves : ∃ r, s.served n r (needCtx n s).2 ∧ (∃ c l u, r = { s.rally n with onChip := c, loading := l, used := u }) ∧
    ((needCtx n s).1.1 = true → r.onChip = true) := by
  cases h : (s.rally n).onChip with
  | true =>
    obtain ⟨-, hserved⟩ := needCtx_here hw n h
    exact ⟨_, hserved, ⟨true, (s.rally n).loading, s.trn.clock, by rw [← h]⟩, fun _ => h⟩
  | false =>
    cases hl : (s.rally n).loading with
    | true =>
      rw [needCtx_loading n h hl]
      exact ⟨_, .refl hw n, ⟨_, _, _, rfl⟩, fun hc => absurd hc (by simp)⟩
    | false =>
      by_cases hfree : (s.rally n).spilled = false ∧ s.onChip.length < 1024
      · obtain ⟨-, hserved⟩ := needCtx_free hw n h hl hfree.1 hfree.2
        exact ⟨_, hserved, ⟨true, (s.rally n).loading, s.trn.clock, rfl⟩, fun _ => rfl⟩
      · by_cases hgo : s.onChip.length < 1024 ∨ s.evictee ≠ none
        · obtain ⟨hno, hserved, -⟩ := needCtx_misses hw n h hl hfree hgo
          exact ⟨_, hserved, ⟨(s.rally n).onChip, true, (s.rally n).used, rfl⟩, fun hc => absurd hc (by simp [hno])⟩
        · rw [not_or, not_not] at hgo
          rw [needCtx_full n h hl hgo.1 hgo.2]
          exact ⟨_, .refl hw n, ⟨_, _, _, rfl⟩, fun hc => absurd hc (by simp)⟩

end

end Sys2Proof.Machine

/-! # What the loss of a peer leaves as it was (R258, R271) -/

namespace Sys2Proof.Machine

/-- A Rally that has lost messages, packets, statuses, or what it had received. -/
structure Rally.loses (r r' : Rally) : Prop where
  rest : { r' with msgs := r.msgs, unacked := r.unacked, stats := r.stats, ins := r.ins } = r
  unacked : r'.unacked = [] ∨ r'.unacked = r.unacked
  msgs : ∀ y ∈ r'.msgs, y ∈ r.msgs

/-- A property that no message heard by a Relay engine undoes, and no parity run. -/
structure AboutRelays (P : M → Prop) : Prop extends AboutAborts P where
  event : ∀ e code k, Keeps P (relayEvent e code k)
  parity : ∀ {t : M} v, P t → P (t.setReg Reg.chkParityState v)

namespace AboutRelays

variable {P : M → Prop} (hP : AboutRelays P)
include hP

theorem keeps_parityStep : Keeps P parityStep :=
  keeps_getThen fun _ => keeps_bind (hP.keeps_readBytes _ _) fun _ => keeps_getThen fun _ => keeps_pure _

theorem keeps_parityEnd (state err : Nat) : Keeps P (parityEnd state err) := by
  refine keeps_getThen fun s => ?_
  have hrest : ∀ d : Bool, Keeps P (do
      let (_, hdr) ← parityStep
      wr Reg.chkParityState ((if d then 3 else state) <<< 62 + trunc 16 (if d then 3 else err) <<< 40 + hdr)
      updParity fun _ => {}
      logAdd 0x31 0xFFFF s.rly.parity.step 0xFF 0xFF 0
        (payload [(0, 2, s.node), (2, 1, if d then 3 else state), (3, 1, if d then 3 else err)])) := fun d =>
    keeps_bind hP.keeps_parityStep fun _ => keeps_bind (fun _ h => hP.parity _ h) fun _ => keeps_bind (fun _ h => hP.rly _ h) fun _ =>
      hP.keeps_logAdd _ _ _ _ _ _ _
  exact keeps_ite (keeps_bind (hP.keeps_writeBytes _ _) hrest) (keeps_bind (keeps_pure _) hrest)

end AboutRelays

/-- A property that no loss of a peer undoes, whichever engine its messages name. -/
structure AboutLosses (P : M → Prop) : Prop extends AboutRelays P where
  lose : ∀ {t : M} {n r}, (t.rally n).loses r → P t → P { t with trn := { t.trn with rallies := Tab.put Rally.init t.trn.rallies n r } }

namespace AboutLosses

variable {P : M → Prop} (hP : AboutLosses P)
include hP

theorem keeps_collLost (peer e group seq : Nat) : Keeps P (collLost peer e group seq) := keeps_getThen fun s => by
  cases s.coll e group seq with
  | none => exact keeps_pure _
  | some c => exact hP.keeps_failColl (hP.event e) _ _ _ _

theorem keeps_ownerLost (peer : Nat) (o : Owner) : Keeps P (ownerLost peer o) := by
  cases o with
  | none => exact keeps_pure _
  | chunk e g q leg k => exact hP.keeps_collLost _ _ _ _
  | control e g q => exact hP.keeps_collLost _ _ _ _
  | snapshot core x => exact hP.keeps_endRingOp _ _ _ _ _
  | parity n => exact keeps_getThen fun _ => keeps_whenA (hP.keeps_parityEnd _ _)

theorem keeps_inLost (peer : Nat) (m : InMsg) : Keeps P (inLost peer m) := by
  rw [inLost]
  cases m.line0 with
  | none => exact keeps_pure _
  | some h => exact hP.keeps_collLost _ _ _ _

theorem keeps_loseInbound (peer : Nat) : Keeps P (loseInbound peer) :=
  keeps_getThen fun _ => keeps_bind (fun _ h => hP.lose ⟨rfl, .inr rfl, fun _ hy => hy⟩ h) fun _ => keeps_forA fun _ => hP.keeps_inLost _ _

theorem keeps_loseOpen (peer : Nat) : Keeps P (loseOpen peer) := fun s h => by
  rw [loseOpen, run_bind, run_get]
  dsimp only
  rw [run_bind]
  refine keeps_bind (keeps_loseInbound hP peer) (fun _ => keeps_forA fun _ => hP.keeps_ownerLost _ _) _ ?_
  exact hP.lose ⟨rfl, .inl rfl, fun _ hy => List.mem_of_mem_filter hy⟩ h

theorem keeps_loseAll (peer : Nat) : Keeps P (loseAll peer) :=
  keeps_bind (hP.keeps_loseOpen peer) fun _ => keeps_getThen fun _ =>
    keeps_bind (fun _ h => hP.lose ⟨rfl, .inr rfl, fun _ hy => absurd hy List.not_mem_nil⟩ h) fun _ => keeps_forA fun _ => hP.keeps_ownerLost _ _

end AboutLosses

/-- The fences of every Rally are what they were. -/
def M.sameFences (s t : M) : Prop := Tab.wf Rally.init t.trn.rallies = true ∧ ∀ n, (t.rally n).fenced = (s.rally n).fenced

theorem keeps_relayEvent_of {P : M → Prop} (hP : ∀ {t : M} {o} v, 0x310000 ≤ o → P t → P (t.setReg o v)) (e code k : Nat) :
    Keeps P (relayEvent e code k) := fun s h => by
  rw [relayEvent, run_modify]
  refine List.foldlRecOn _ _ h fun t ht c _ => ?_
  have hcnt : ∀ {u : M} v, P u → P (u.setReg (Reg.cntR e c) v) := fun v hu => hP v (by simp only [Reg.cntR]; omega) hu
  have hovf : ∀ {u : M} v, P u → P (u.setReg (Reg.cntROvf e) v) := fun v hu => hP v (by simp only [Reg.cntROvf]; omega) hu
  unfold countAt
  dsimp only
  split
  · generalize t.reg (Reg.cntR e c) + _ = v
    split
    · exact hcnt _ ht
    · exact hovf _ (hcnt _ ht)
  · exact ht

/-- A property of the transport alone that easing does not undo. -/
theorem aboutRelays_rallies {Q : Transport → Prop} (hease : ∀ {a b : Transport}, a.eases b → Q a → Q b) : AboutRelays fun t => Q t.trn where
  setReg _ _ h := h
  store _ _ h := h
  log _ h := h
  toHost o h := by
    unfold M.toHost
    split <;> exact h
  count _ _ h := h
  out _ h := h
  ports _ h := h
  trn hx h := hease hx h
  isl _ h := h
  draw h := h
  abort _ _ h := h
  rly _ h := h
  core _ h := h
  event := keeps_relayEvent_of fun _ _ h => h
  parity _ h := h

/-- A property of the transport alone that neither easing nor loss undoes. -/
theorem aboutLosses_rallies {Q : Transport → Prop} (hease : ∀ {a b : Transport}, a.eases b → Q a → Q b)
    (hlose : ∀ {a : Transport} {n r}, (Tab.read Rally.init a.rallies n).loses r → Q a →
      Q { a with rallies := Tab.put Rally.init a.rallies n r }) : AboutLosses fun t => Q t.trn where
  toAboutRelays := aboutRelays_rallies hease
  lose hr h := hlose hr h

theorem aboutLosses_sameFences (s : M) : AboutLosses s.sameFences :=
  aboutLosses_rallies (Q := fun a => Tab.wf Rally.init a.rallies = true ∧ ∀ n, (Tab.read Rally.init a.rallies n).fenced = (s.rally n).fenced)
    (fun he ⟨hw, h⟩ => by
      obtain ⟨hw', hr, -⟩ := he hw
      exact ⟨hw', fun n => ((congrArg Rally.fenced (hr n).rest :) : _).trans (h n)⟩)
    fun {a n r} hl ⟨hw, h⟩ => ⟨Tab.wf_put _ _ _ _ hw, fun k => by
      by_cases hk : k = n
      · subst hk
        rw [Tab.read_put_self _ _ _ _ hw]
        exact ((congrArg Rally.fenced hl.rest :) : _).trans (h k)
      · rw [Tab.read_put_other _ _ _ _ _ hk]
        exact h k⟩

end Sys2Proof.Machine

/-! # The takeover of an address (R271, R272) -/

namespace Sys2Proof.Machine

/-! ## The fences -/

/-- The keys of a table in canonical form are distinct. -/
theorem Tab.nodup_keys {α : Type} [DecidableEq α] {d : Nat → α} {t : Tab α} (h : Tab.wf d t = true) : (Tab.keys t).Nodup := by
  suffices H : ∀ (t : Tab α) lo, Tab.wfFrom d lo t = true → (Tab.keys t).Nodup ∧ ∀ k ∈ Tab.keys t, lo ≤ k from (H t 0 h).1
  intro t
  induction t with
  | nil => exact fun _ _ => ⟨List.nodup_nil, fun _ hk => absurd hk List.not_mem_nil⟩
  | cons x t ih =>
    obtain ⟨j, v⟩ := x
    intro lo h
    simp only [Tab.wfFrom, Bool.and_eq_true, decide_eq_true_eq] at h
    obtain ⟨⟨hlo, -⟩, hrest⟩ := h
    obtain ⟨hnd, hge⟩ := ih (j + 1) hrest
    refine ⟨List.nodup_cons.2 ⟨fun hj => absurd (hge j hj) (by omega), hnd⟩, fun k hk => ?_⟩
    rcases List.mem_cons.1 hk with rfl | hk
    · exact hlo
    · have := hge k hk
      omega

theorem Tab.read_of_not_mem {α : Type} {d : Nat → α} {t : Tab α} {k : Nat} (h : k ∉ Tab.keys t) : Tab.read d t k = d k := by
  induction t with
  | nil => rfl
  | cons x t ih =>
    obtain ⟨i, v⟩ := x
    have hne : k ≠ i := fun he => h (he ▸ List.mem_cons_self)
    rw [Tab.read, if_neg hne]
    exact ih fun hm => h (List.mem_cons_of_mem _ hm)

/-- What a table mapped entry by entry reads as. -/
theorem Tab.read_filterMap {α : Type} {d : Nat → α} {f : α → Option α} (hf : ∀ k, f (d k) = none) {t : Tab α}
    (hnd : (Tab.keys t).Nodup) (k : Nat) :
    Tab.read d (t.filterMap fun x => (f x.2).map fun w => (x.1, w)) k = (f (Tab.read d t k)).getD (d k) := by
  induction t with
  | nil => simp [Tab.read, hf]
  | cons x t ih =>
    obtain ⟨j, v⟩ := x
    obtain ⟨hj, hnd⟩ := List.nodup_cons.1 hnd
    have hrest := ih hnd
    cases hv : f v with
    | none =>
      rw [List.filterMap_cons_none (by simp [hv]), hrest, Tab.read]
      split
      next he => rw [Tab.read_of_not_mem (he ▸ hj), hf, hv]
      · rfl
    | some w =>
      rw [List.filterMap_cons_some (b := (j, w)) (by simp [hv]), Tab.read, Tab.read]
      split
      · rw [hv, Option.getD_some]
      · exact hrest

/-- Every Rally keeps its fence and nothing else. -/
theorem M.rally_fences {s : M} (hw : Tab.wf Rally.init s.trn.rallies = true) (x : Transport) (hx : x.rallies = s.fences) (n : Nat) :
    ({ s with trn := x } : M).rally n = { fenced := (s.rally n).fenced } := by
  have hread := Tab.read_filterMap (d := Rally.init) (f := fun r : Rally => r.fenced.map fun e => { fenced := some e }) (fun _ => rfl)
    (Tab.nodup_keys hw) n
  have hfences : s.fences = s.trn.rallies.filterMap fun x => (x.2.fenced.map fun e => ({ fenced := some e } : Rally)).map fun w => (x.1, w) := by
    simp only [M.fences, Option.map_map]
    rfl
  rw [M.rally]
  dsimp only
  rw [hx, hfences, hread]
  change _ = ({ fenced := (Tab.read Rally.init s.trn.rallies n).fenced } : Rally)
  cases (Tab.read Rally.init s.trn.rallies n).fenced with
  | none => rfl
  | some e => rfl

/-! ## The peers are told -/

/-- A peer of the image is told of the takeover. -/
def tellPeer (n : Nat) : Act Unit := do
  updRally n fun r => { r with takeover := true }
  let (here, _) ← needCtx n
  whenA here (startOpen n)

/-- No more contexts are on chip than the peers that have taken them. -/
theorem M.onChip_length_le {s : M} (hw : s.wf = true) {l : List Nat} (h : ∀ n, (s.rally n).onChip = true → n ∈ l) :
    s.onChip.length ≤ l.length := by
  have hwr : Tab.wf Rally.init s.trn.rallies = true := by simp_all [M.wf]
  have hnd : s.onChip.Nodup := (Tab.nodup_keys hwr).filter _
  exact (List.subperm_of_subset hnd fun n hn => h n (List.mem_filter.1 hn).2).length_le

/-- The Rally with a peer that has been told. -/
structure Rally.told (r : Rally) (fence : Option Nat) : Prop where
  takeover : r.takeover = true
  msgs : r.msgs = []
  inOpen : r.inOpen = false
  fenced : r.fenced = fence

theorem tellPeer_tells {t : M} (hw : t.wf = true) {n : Nat} {fence : Option Nat} (hr : t.rally n = { fenced := fence }) {done : List Nat}
    (hchips : ∀ k, (t.rally k).onChip = true → k ∈ done) : ∃ r, t.served n r (tellPeer n t).2 ∧ r.told fence ∧ (done.length < 1024 → r.out = 1) := by
  have htake := (M.served.refl hw n).updRally fun r => { r with takeover := true }
  rw [hr] at htake
  have hrun : (tellPeer n t).2 = (whenA (needCtx n (updRally n (fun r => { r with takeover := true }) t).2).1.1 (startOpen n)
      (needCtx n (updRally n (fun r => { r with takeover := true }) t).2).2).2 := rfl
  rw [hrun]
  generalize (updRally n (fun r => { r with takeover := true }) t).2 = u at htake ⊢
  have hchipsU : ∀ k, (u.rally k).onChip = true → k ∈ done := fun k hk => by
    by_cases he : k = n
    · subst he
      rw [htake.rally] at hk
      exact absurd hk (by simp)
    · exact hchips k (htake.others k he ▸ hk)
  obtain ⟨r, hneed, ⟨c, l, x, hrx⟩, -⟩ := needCtx_serves htake.wf n
  rw [htake.rally] at hrx
  have htold : r.told fence := by
    rw [hrx]
    exact ⟨rfl, rfl, rfl, rfl⟩
  obtain ⟨y, hopen⟩ := startOpen_serves hneed.wf n
  rw [hneed.rally] at hopen
  cases hhere : (needCtx n u).1.1 with
  | true => exact ⟨_, htake.trans (hneed.trans hopen), ⟨htold.takeover, htold.msgs, htold.inOpen, htold.fenced⟩, fun _ => rfl⟩
  | false =>
    refine ⟨r, htake.trans hneed, htold, fun hroom => ?_⟩
    have hfew : u.onChip.length < 1024 := (M.onChip_length_le htake.wf hchipsU).trans_lt hroom
    have hgot := (needCtx_free htake.wf n (by rw [htake.rally]) (by rw [htake.rally]) (by rw [htake.rally]) hfew).1
    rw [hgot] at hhere
    exact absurd hhere (by simp)

/-- Some peers have been told; the Rallies of the others are fresh, but for their fences. -/
structure M.toldPeers (s : M) (fence : Nat → Option Nat) (done : List Nat) (t : M) : Prop where
  wf : t.wf = true
  regs : ∀ o, ¬ Reg.ofTraffic o → t.reg o = s.reg o
  taken : t.trn.tkUsed = s.trn.tkUsed ∧ t.trn.tkPeers = s.trn.tkPeers
  told : ∀ n ∈ done, (t.rally n).told (fence n)
  out : done.length ≤ 1024 → ∀ n ∈ done, (t.rally n).out = 1
  fresh : ∀ n, n ∉ done → t.rally n = { fenced := fence n }

theorem M.toldPeers.chips {s t : M} {fence : Nat → Option Nat} {done : List Nat} (h : s.toldPeers fence done t) (n : Nat) (hn : (t.rally n).onChip = true) :
    n ∈ done := by
  by_contra hno
  rw [h.fresh n hno] at hn
  exact absurd hn (by simp)

theorem M.toldPeers.tell {s t : M} {fence : Nat → Option Nat} {done : List Nat} (h : s.toldPeers fence done t) {n : Nat} (hn : n ∉ done) :
    s.toldPeers fence (done ++ [n]) (tellPeer n t).2 := by
  obtain ⟨r, hserved, htold, hout⟩ := tellPeer_tells h.wf (h.fresh n hn) h.chips
  have hne : ∀ k ∈ done, k ≠ n := fun k hk he => hn (he ▸ hk)
  refine ⟨hserved.wf, fun o ho => (hserved.regs o ho).trans (h.regs o ho), ⟨hserved.takeover.1.trans h.taken.1, hserved.takeover.2.trans h.taken.2⟩,
    fun k hk => ?_, fun hlen k hk => ?_, fun k hk => ?_⟩
  · rcases List.mem_append.1 hk with hk | hk
    · rw [hserved.others k (hne k hk)]
      exact h.told k hk
    · rw [List.mem_singleton.1 hk, hserved.rally]
      exact htold
  · rw [List.length_append, List.length_singleton] at hlen
    rcases List.mem_append.1 hk with hk | hk
    · rw [hserved.others k (hne k hk)]
      exact h.out (by omega) k hk
    · rw [List.mem_singleton.1 hk, hserved.rally]
      exact hout (by omega)
  · rw [List.mem_append, List.mem_singleton, not_or] at hk
    rw [hserved.others k hk.2]
    exact h.fresh k hk.1

theorem tellPeers_tell {s t : M} {fence : Nat → Option Nat} {l done : List Nat} (h : s.toldPeers fence done t) (hnd : (done ++ l).Nodup) :
    s.toldPeers fence (done ++ l) (forA l tellPeer t).2 := by
  induction l generalizing t done with
  | nil =>
    rw [List.append_nil]
    exact h
  | cons n l ih =>
    have hn : n ∉ done := fun hm => (List.nodup_append.1 hnd).2.2 n hm n List.mem_cons_self rfl
    have hassoc : done ++ n :: l = done ++ [n] ++ l := by simp
    rw [forA, run_bind, hassoc]
    exact ih (h.tell hn) (hassoc ▸ hnd)

/-! ## The takeover itself -/

/-- The machine under its new address and epoch, with the peers that it still has to hear from. -/
def M.readdressed (s : M) (v e : Nat) (peers : List Nat) : M :=
  ((({ s with trn := { rallies := s.fences, tkUsed := true, tkPeers := peers } } : M).setReg Reg.trnNode (bits v 27 16 <<< 16 + bits v 11 0)).setReg
    Reg.trnEpoch (1 + e % 65535)).setReg Reg.trnTakeoverState (1 <<< 30)

/-- May a takeover go on: the module is a spare that has taken over nothing yet, and GO is set. -/
def M.mayTakeOver (s : M) (v : Nat) : Prop := bit (s.reg Reg.chkRedundancy) 2 = true ∧ s.trn.tkUsed = false ∧ bit v 31 = true

theorem takeover_refused {s : M} {v : Nat} (h : ¬ s.mayTakeOver v) :
    (takeover v s).2 = s.setReg Reg.trnTakeoverState (setBits (s.reg Reg.trnTakeoverState) 31 30 3) := by
  have hno : (!bit (s.reg Reg.chkRedundancy) 2) = true ∨ s.trn.tkUsed = true ∨ (!bit v 31) = true := by
    by_contra hall
    simp only [not_or, Bool.not_eq_true', Bool.not_eq_false, Bool.not_eq_true] at hall
    exact h hall
  rw [takeover, run_bind, run_get, run_ite, if_pos hno]
  rfl

/-- The machine as the peers of a takeover are told. -/
theorem takeover_runs {s : M} (hw : s.wf = true) {v : Nat} (h : s.mayTakeOver v) : ∃ u e, u.wf = true ∧ s.sameFences u ∧
    (takeover v s).2 = (whenA (s.imagePeers (bits v 11 0)).isEmpty (setField Reg.trnTakeoverState 31 30 2)
      (forA (s.imagePeers (bits v 11 0)) tellPeer (logAdd 0x30 172 0 0xFF 0xFF 0 (payload [(0, 2, bits v 11 0), (2, 1, 1)])
        (u.readdressed v e (s.imagePeers (bits v 11 0)))).2).2).2 := by
  obtain ⟨hspare, hused, hgo⟩ := h
  have hno : ¬ ((!bit (s.reg Reg.chkRedundancy) 2) = true ∨ s.trn.tkUsed = true ∨ (!bit v 31) = true) := by
    simp [hspare, hused, hgo]
  have hwr : Tab.wf Rally.init s.trn.rallies = true := by simp_all [M.wf]
  have hlost : s.sameFences (forA s.peers loseAll s).2 :=
    keeps_forA (fun _ => (aboutLosses_sameFences s).keeps_loseAll _) s ⟨hwr, fun _ => rfl⟩
  have hwl : (forA s.peers loseAll s).2.wf = true := keepsWf_forA (fun _ => keepsWf_loseAll _) s hw
  refine ⟨{ (forA s.peers loseAll s).2 with free := (forA s.peers loseAll s).2.free + 1 },
    trunc 16 (Config.freeValue (forA s.peers loseAll s).2.free), M.wf_draw hwl, hlost, ?_⟩
  rw [takeover, run_bind, run_get, run_ite, if_neg hno, run_bind]
  generalize (forA s.peers loseAll s).2 = u
  rw [run_bind, run_freeVal, run_bind, run_modify, run_bind, run_wr, run_bind, run_wr, run_bind, run_wr, run_bind, run_bind]
  rfl

theorem nodeFields (a b : Nat) (ha : a < 4096) (hb : b < 4096) : bits (a <<< 16 + b) 11 0 = b ∧ bits (a <<< 16 + b) 27 16 = a := by
  simp only [bits, Nat.shiftRight_eq_div_pow, Nat.shiftLeft_eq]
  omega

section
variable {u : M} (hw : u.wf = true) (v e : Nat) (peers : List Nat)
include hw

theorem M.wf_readdressed : (u.readdressed v e peers).wf = true :=
  M.wf_setReg _ _ (M.wf_setReg _ _ (M.wf_setReg _ _ (M.wf_fences hw rfl)))

theorem M.rally_readdressed (n : Nat) : (u.readdressed v e peers).rally n = { fenced := (u.rally n).fenced } :=
  M.rally_fences (by simp_all [M.wf]) { rallies := u.fences, tkUsed := true, tkPeers := peers } rfl n

theorem M.regs_readdressed : (u.readdressed v e peers).reg Reg.trnNode = bits v 27 16 <<< 16 + bits v 11 0 ∧
    (u.readdressed v e peers).reg Reg.trnEpoch = 1 + e % 65535 ∧ (u.readdressed v e peers).reg Reg.trnTakeoverState = 1 <<< 30 := by
  have h0 : ({ u with trn := { rallies := u.fences, tkUsed := true, tkPeers := peers } } : M).wf = true := M.wf_fences hw rfl
  unfold M.readdressed
  generalize ({ u with trn := { rallies := u.fences, tkUsed := true, tkPeers := peers } } : M) = x at h0
  have h1 := M.wf_setReg Reg.trnNode (bits v 27 16 <<< 16 + bits v 11 0) h0
  have h2 := M.wf_setReg Reg.trnEpoch (1 + e % 65535) h1
  refine ⟨?_, ?_, M.reg_setReg_self _ _ _ h2⟩
  · rw [M.reg_setReg_other _ _ (by decide), M.reg_setReg_other _ _ (by decide), M.reg_setReg_self _ _ _ h0]
  · rw [M.reg_setReg_other _ _ (by decide), M.reg_setReg_self _ _ _ h1]

end

theorem nodup_eraseDups {α : Type} [BEq α] [LawfulBEq α] (l : List α) : l.eraseDups.Nodup := by
  induction h : l.length using Nat.strong_induction_on generalizing l with
  | _ n ih =>
    cases l with
    | nil => exact List.nodup_nil
    | cons a l =>
      rw [List.eraseDups_cons]
      have hlt : (l.filter fun b => !b == a).length < n := by
        rw [← h, List.length_cons]
        exact Nat.lt_succ_of_le (List.length_filter_le _ _)
      refine List.nodup_cons.2 ⟨fun ha => ?_, ih _ hlt _ rfl⟩
      have hne := (List.mem_filter.1 (List.mem_eraseDups.1 ha)).2
      simp at hne

theorem M.nodup_imagePeers (s : M) (own : Nat) : (s.imagePeers own).Nodup := (nodup_eraseDups _).filter _

/-- What a takeover leaves. -/
theorem takeover_takes {s : M} (hw : s.wf = true) {v : Nat} (h : s.mayTakeOver v) : ∃ m, (takeover v s).2 = m ∧
    m.node = bits v 11 0 ∧ m.rank = bits v 27 16 ∧ 1 ≤ m.epoch ∧ m.epoch < 2 ^ 16 ∧ m.trn.tkUsed = true ∧
    m.trn.tkPeers = s.imagePeers (bits v 11 0) ∧
    bits (m.reg Reg.trnTakeoverState) 31 30 = (if s.imagePeers (bits v 11 0) = [] then 2 else 1) ∧
    (∀ n ∈ s.imagePeers (bits v 11 0), (m.rally n).told (s.rally n).fenced) ∧
    ((s.imagePeers (bits v 11 0)).length ≤ 1024 → ∀ n ∈ s.imagePeers (bits v 11 0), (m.rally n).out = 1) ∧
    ∀ n, n ∉ s.imagePeers (bits v 11 0) → m.rally n = { fenced := (s.rally n).fenced } := by
  obtain ⟨u, e, hwu, ⟨-, hfences⟩, hrun⟩ := takeover_runs hw h
  have hnd := s.nodup_imagePeers (bits v 11 0)
  generalize s.imagePeers (bits v 11 0) = peers at hrun hnd ⊢
  have hwr := M.wf_readdressed hwu v e peers
  obtain ⟨hnode, hepoch, hstate⟩ := M.regs_readdressed hwu v e peers
  have hrally := M.rally_readdressed hwu v e peers
  have htk : (u.readdressed v e peers).trn.tkUsed = true ∧ (u.readdressed v e peers).trn.tkPeers = peers := ⟨rfl, rfl⟩
  generalize u.readdressed v e peers = r at *
  have hlogged := keepsNoted_logAdd (still := True) 0x30 172 0 0xFF 0xFF 0 (payload [(0, 2, bits v 11 0), (2, 1, 1)]) r (.refl True r)
  have hwl := keepsWf_logAdd 0x30 172 0 0xFF 0xFF 0 (payload [(0, 2, bits v 11 0), (2, 1, 1)]) r hwr
  generalize (logAdd 0x30 172 0 0xFF 0xFF 0 (payload [(0, 2, bits v 11 0), (2, 1, 1)]) r).2 = l at hlogged hwl hrun
  have htrn : l.trn = r.trn := (congrArg M.trn hlogged.rest :)
  have hstart : l.toldPeers (fun n => (s.rally n).fenced) [] l := by
    refine ⟨hwl, fun _ _ => rfl, ⟨rfl, rfl⟩, fun _ hn => absurd hn List.not_mem_nil, fun _ _ hn => absurd hn List.not_mem_nil, fun n _ => ?_⟩
    rw [M.rally, htrn]
    exact (hrally n).trans (by rw [hfences])
  have htold := tellPeers_tell hstart (l := peers) (by simpa using hnd)
  rw [List.nil_append] at htold
  generalize (forA peers tellPeer l).2 = t at htold hrun
  have hreg : ∀ o ∈ [Reg.trnNode, Reg.trnEpoch, Reg.trnTakeoverState], t.reg o = r.reg o := fun o ho => by
    have hof : ¬ Reg.ofTraffic o ∧ ¬ Reg.ofNotes o := by
      fin_cases ho <;> simp [Reg.ofNotes, Reg.ofTraffic, Reg.trnCtxMisses, Reg.trnCtxStalls, Reg.trnRetx, Reg.trnDrops, Reg.trnNode,
        Reg.trnEpoch, Reg.trnTakeoverState]
    exact (htold.regs o hof.1).trans (hlogged.regs o hof.2)
  have htn := (hreg Reg.trnNode (by simp)).trans hnode
  have hte := (hreg Reg.trnEpoch (by simp)).trans hepoch
  have hts := (hreg Reg.trnTakeoverState (by simp)).trans hstate
  have htkt : t.trn.tkUsed = true ∧ t.trn.tkPeers = peers := ⟨htold.taken.1.trans (htrn ▸ htk.1), htold.taken.2.trans (htrn ▸ htk.2)⟩
  obtain ⟨hn11, hn27⟩ := nodeFields (bits v 27 16) (bits v 11 0) (Nat.mod_lt _ (by decide)) (Nat.mod_lt _ (by decide))
  have hep : bits (1 + e % 65535) 15 0 = 1 + e % 65535 := by
    simp only [bits, Nat.shiftRight_zero]
    omega
  rw [hrun]
  by_cases hnone : peers = []
  · have hlast : (whenA peers.isEmpty (setField Reg.trnTakeoverState 31 30 2) t).2 =
        t.setReg Reg.trnTakeoverState (setBits (t.reg Reg.trnTakeoverState) 31 30 2) := by
      rw [hnone]
      rfl
    have ho : ∀ o, o ≠ Reg.trnTakeoverState → (t.setReg Reg.trnTakeoverState (setBits (t.reg Reg.trnTakeoverState) 31 30 2)).reg o = t.reg o :=
      fun o ho => M.reg_setReg_other _ _ ho
    rw [hlast]
    refine ⟨_, rfl, ?_, ?_, ?_, ?_, htkt.1, htkt.2, ?_, htold.told, fun hlen => htold.out hlen, htold.fresh⟩
    · rw [M.node, ho _ (by decide), htn, hn11]
    · rw [M.rank, ho _ (by decide), htn, hn27]
    · rw [M.epoch, ho _ (by decide), hte, hep]
      omega
    · rw [M.epoch, ho _ (by decide), hte, hep]
      omega
    · rw [M.reg_setReg_self t _ _ htold.wf, bits_setBits_self (by decide), if_pos hnone]
      rfl
  · have hlast : (whenA peers.isEmpty (setField Reg.trnTakeoverState 31 30 2) t).2 = t := by
      rw [List.isEmpty_eq_false_iff.2 hnone]
      rfl
    rw [hlast]
    refine ⟨_, rfl, ?_, ?_, ?_, ?_, htkt.1, htkt.2, ?_, htold.told, fun hlen => htold.out hlen, htold.fresh⟩
    · rw [M.node, htn, hn11]
    · rw [M.rank, htn, hn27]
    · rw [M.epoch, hte, hep]
      omega
    · rw [M.epoch, hte, hep]
      omega
    · rw [hts, if_neg hnone]
      rfl

/-! ## Advertisements -/

section
variable {s : State} (hl : s.m.board.live = true) (k : Nat)
include hl

/-- The advertisement of the new address on port p. -/
def M.advert (s : M) (p : Nat) : Output := .advert p (s.eth p true) s.ip4 (!s.ip4) (beBytes (if s.ip4 then 4 else 16) (s.ipOf s.node p))
  (beBytes 6 (s.macOf s.node p))

theorem run_takeoverAdvertise : exec (.takeoverAdvertise k) s = s.becomes (whenA (decide (k < 3) && s.m.trn.tkUsed)
    (forA (List.range s.m.nPorts) fun p => whenA (s.m.portUp p && s.m.macsecOk p) (emitFrame p (s.m.advert p))) s.m).2 := by
  rw [exec, execTakeoverAdvertise, State.doing_live s _ hl, run_bind, run_get, State.becomes]
  rfl

theorem takeoverAdvertise_idle (h : 3 ≤ k ∨ s.m.trn.tkUsed = false) : exec (.takeoverAdvertise k) s = .next s := by
  have hno : (decide (k < 3) && s.m.trn.tkUsed) = false := by
    rcases h with h | h
    · rw [decide_eq_false (by omega), Bool.false_and]
    · rw [h, Bool.and_false]
  rw [run_takeoverAdvertise hl, hno, run_whenA_false, State.becomes]

theorem takeoverAdvertise_sends (hk : k < 3) (hused : s.m.trn.tkUsed = true) : ∃ m, exec (.takeoverAdvertise k) s = s.becomes m ∧ s.m.wired m ∧
    ∀ p, p < s.m.nPorts → s.m.transmits p → s.m.advert p ∈ m.outs := by
  refine ⟨(forA (List.range s.m.nPorts) (fun p => whenA (s.m.portUp p && s.m.macsecOk p) (emitFrame p (s.m.advert p))) s.m).2, ?_, ?_, fun p hp hsend => ?_⟩
  · rw [run_takeoverAdvertise hl, decide_eq_true hk, hused, Bool.true_and, run_whenA_true]
  · exact keeps_forA (fun p => keeps_whenA_of fun hup t h =>
      M.wired.trans h (emitFrame_frames (M.port_lt ((Bool.and_eq_true _ _).mp hup).1) _ t)) s.m (.refl s.m)
  · obtain ⟨hup, hok, hon⟩ := hsend
    have hkeep : ∀ q (t : M), s.m.wired t ∧ s.m.advert p ∈ t.outs →
        s.m.wired (whenA (s.m.portUp q && s.m.macsecOk q) (emitFrame q (s.m.advert q)) t).2 ∧
          s.m.advert p ∈ (whenA (s.m.portUp q && s.m.macsecOk q) (emitFrame q (s.m.advert q)) t).2.outs := fun q t ⟨ht, hm⟩ => by
      cases hc : s.m.portUp q && s.m.macsecOk q with
      | false => exact ⟨ht, hm⟩
      | true =>
        have hsent := emitFrame_frames (M.port_lt ((Bool.and_eq_true _ _).mp hc).1) (s.m.advert q) t
        exact ⟨ht.trans hsent, hsent.outs.subset hm⟩
    refine forA_settles (I := s.m.wired) (P := fun t => s.m.advert p ∈ t.outs) (x := p) (fun q _ t ht => ?_) (fun q _ t ht hor => ?_)
      (M.wired.refl s.m) (.inr (List.mem_range.2 hp))
    · exact (keeps_whenA_of fun hc t h => M.wired.trans h (emitFrame_frames (M.port_lt ((Bool.and_eq_true _ _).mp hc).1) _ t)) t ht
    · by_cases hq : q = p
      · subst hq
        rw [hup, hok, Bool.and_true, run_whenA_true]
        exact emitFrame_sends (M.port_lt hup) _ (by rw [ht.board]; exact hon)
      · exact (hkeep q t ⟨ht, hor.resolve_right fun h => hq h.symm⟩).2

end

end Sys2Proof.Machine

/-! # Frames, links and takeover together (R247 to R251, R267, R271, R272) -/

namespace Sys2Proof.Machine

section
variable {s : M} {port : Nat}

/-- What passes MACsec at a port, and what the port's frames carry, does not depend on the frames heard. -/
theorem M.passed_port (hp : port < 64) (uncorr an pn : Nat) :
    (∀ tagged vid, ((s.frameHeard port uncorr).pastMacsec port an pn).otherVlan port tagged vid ↔ s.otherVlan port tagged vid) ∧
      ((s.frameHeard port uncorr).pastMacsec port an pn).eth port true = s.eth port true ∧
      ((s.frameHeard port uncorr).pastMacsec port an pn).outs = s.outs ∧
      ((s.frameHeard port uncorr).pastMacsec port an pn).board = s.board := by
  have hreg : ∀ o, o ≠ Reg.ethFecUncorr port → (s.frameHeard port uncorr).reg o = s.reg o := fun o ho => M.reg_setReg_other _ _ ho
  have hctl := hreg (Reg.ethPortCtl port) (by simp only [Reg.ethPortCtl, Reg.ethFecUncorr]; omega)
  have hhop := hreg (Reg.ethPortNexthop port) (by simp only [Reg.ethPortNexthop, Reg.ethFecUncorr]; omega)
  have hmode := hreg Reg.ethMode (by simp only [Reg.ethMode, Reg.ethFecUncorr]; omega)
  have hnode := hreg Reg.trnNode (by simp only [Reg.trnNode, Reg.ethFecUncorr]; omega)
  have heth : (s.frameHeard port uncorr).eth port true = s.eth port true := by
    rw [M.eth, M.eth, M.macOf, M.macOf, M.node, M.node, M.macsec, M.macsec, hctl, hhop, hmode, hnode]
    rfl
  rw [M.pastMacsec]
  split
  · refine ⟨fun tagged vid => ?_, (M.eth_tookPn _ _ _ _ _).trans heth, rfl, rfl⟩
    rw [M.otherVlan, M.otherVlan, ← hctl]
    rfl
  · refine ⟨fun tagged vid => ?_, heth, rfl, rfl⟩
    rw [M.otherVlan, M.otherVlan, ← hctl]

/-- A frame accepted raises the packet number that its association takes next. -/
theorem M.sakOf_pastMacsec (uncorr an pn : Nat) {kind : Nat} (hfails : ¬ s.failsMacsec port kind an pn) (hon : s.macsec port = true) :
    (((s.frameHeard port uncorr).pastMacsec port an pn).sakOf port an).map (·.low) = some (pn + 1) := by
  have hheard : (s.frameHeard port uncorr).macsec port = true := by
    rw [M.macsec, M.frameHeard, M.reg_setReg_other _ _ (by simp only [Reg.ethPortCtl, Reg.ethFecUncorr]; omega)]
    exact hon
  obtain ⟨k, hk⟩ : ∃ k, s.sakOf port an = some k := Option.ne_none_iff_exists'.1 fun hn => hfails ⟨hon, .inl hn⟩
  rw [M.pastMacsec, if_pos hheard]
  exact M.sakOf_tookPn _ _ _ _ hk

theorem M.sakOf_replied (an : Nat) (o : Output) : ((s.replied port o).sakOf port an).map (·.low) = (s.sakOf port an).map (·.low) := by
  rw [M.replied]
  split
  · rfl
  · split
    · exact M.sakOf_usePn (s.out o) port an
    · rfl

theorem M.outs_replied (o : Output) : (s.replied port o).outs = if s.board.portOff then s.outs else o :: s.outs := by
  rw [M.replied]
  split
  · rfl
  · split <;> rfl

/-- What a port does with a frame that has passed MACsec leaves the packet numbers that it accepts. -/
theorem keeps_passFrame_sak (hp : port < 64) (tagged : Bool) (vid kind : Nat) (pl : List Byte) (an : Nat) (l : Option Nat) :
    Keeps (fun t => (t.sakOf port an).map (·.low) = l) (passFrame port tagged vid kind pl) := by
  have hcount : ∀ code n, Keeps (fun t : M => (t.sakOf port an).map (·.low) = l) (portCount port code n) := fun code n t h =>
    (congrArg (Option.map (·.low)) ((portCount_tallies hp code n t).sakOf an)).trans h
  have hdrop : ∀ code, Keeps (fun t : M => (t.sakOf port an).map (·.low) = l) (dropFrame port code) := fun code =>
    keeps_bind (fun _ h => h) fun _ => hcount _ _
  have hpacket : Keeps (fun t : M => (t.sakOf port an).map (·.low) = l) (dropPacket port) := keeps_bind (fun _ h => h) fun _ => hcount _ _
  have hemit : ∀ o, Keeps (fun t : M => (t.sakOf port an).map (·.low) = l) (emitFrame port o) := fun o t h =>
    ((congrArg (Option.map (·.low)) ((emitFrame_tallies hp (.refl t) o).sakOf an)).trans (M.sakOf_replied an o)).trans h
  exact keeps_getThen fun _ => keeps_ite (hdrop _) (keeps_ite (keeps_whenA hpacket) (keeps_ite (keeps_bind (hcount _ _) fun _ => hemit _)
    (keeps_ite hpacket (hdrop _))))

end

section
variable {s : State} (hl : s.m.board.live = true) (hw : s.m.wf = true) {port : Nat} (hp : port < 64)
include hl hw hp

/-- A frame that MACsec lets pass, by its VLAN and kind. -/
theorem frameReceived_judged (hup : s.m.portUp port = true) {len : Nat} {fcs : Bool} (tagged : Bool) (vid kind : Nat) (ce : Bool)
    (pl : List Byte) (uncorr an pn : Nat) (hlen : len ≤ 9216) (hfcs : fcs = true) (hok : s.m.macsecOk port = true)
    (hfails : ¬ s.m.failsMacsec port kind an pn) :
    ∃ x m, s.m.heard port uncorr x ∧ exec (.frameReceived port len fcs tagged vid kind ce pl uncorr an pn) s = s.becomes m ∧
      (s.m.macsec port = true → (m.sakOf port an).map (·.low) = some (pn + 1)) ∧
      (s.m.otherVlan port tagged vid → (x.frameDropped port).tallied m ∧ x.outs = s.m.outs) ∧
      (¬ s.m.otherVlan port tagged vid → kind ∈ [1, 2, 3] → x.tallied m ∧
        x.outs = if s.m.board.portOff then s.m.outs else .answer port kind (s.m.eth port true) pl :: s.m.outs) ∧
      (¬ s.m.otherVlan port tagged vid → kind = 0 → (Hdr.parse pl).typ < 8 → x.tallied m ∧ x.outs = s.m.outs) ∧
      (¬ s.m.otherVlan port tagged vid → kind = 0 → 8 ≤ (Hdr.parse pl).typ → x.packetDropped.tallied m) ∧
      (¬ s.m.otherVlan port tagged vid → kind = 4 → x.packetDropped.tallied m ∧ x.outs = s.m.outs) ∧
      (¬ s.m.otherVlan port tagged vid → 5 ≤ kind → (x.frameDropped port).tallied m ∧ x.outs = s.m.outs) := by
  obtain ⟨t, ht, hrun⟩ := frameReceived_passes hl hp hup len fcs tagged vid kind ce pl uncorr an pn hlen hfcs hok hfails
  have hq := (M.heard_frameHeard port hw uncorr).past an pn
  obtain ⟨hvlan, heth, houts, hboard⟩ := M.passed_port (s := s.m) hp uncorr an pn
  have hsak : s.m.macsec port = true → ((passFrame port tagged vid kind pl t).2.sakOf port an).map (·.low) = some (pn + 1) := fun hon =>
    keeps_passFrame_sak hp tagged vid kind pl an _ t ((congrArg (Option.map (·.low)) (ht.sakOf an)).trans (M.sakOf_pastMacsec uncorr an pn hfails hon))
  generalize (s.m.frameHeard port uncorr).pastMacsec port an pn = q at *
  by_cases hreply : ¬ s.m.otherVlan port tagged vid ∧ kind ∈ [1, 2, 3]
  · obtain ⟨hv, hk⟩ := hreply
    have hm := passFrame_answers hp ht tagged vid kind pl (mt (hvlan tagged vid).1 hv) hk
    have hout := M.outs_replied (s := q) (port := port) (.answer port kind (q.eth port true) pl)
    rw [hboard, houts, heth] at hout
    rw [heth] at hm
    have hk3 : kind ≠ 0 ∧ kind ≤ 3 := by
      simp only [List.mem_cons, List.not_mem_nil, or_false] at hk
      omega
    exact ⟨_, _, hq.replied _, hrun, hsak, fun h => absurd h hv, fun _ _ => ⟨hm, hout⟩,
      fun _ h => absurd h hk3.1, fun _ h => absurd h hk3.1, fun _ h => absurd hk3.2 (by omega), fun _ h => absurd hk3.2 (by omega)⟩
  · exact ⟨q, _, hq, hrun, hsak, fun h => ⟨passFrame_vlan hp ht hq.wf tagged vid kind pl ((hvlan tagged vid).2 h), houts⟩,
      fun hv hk => absurd ⟨hv, hk⟩ hreply,
      fun hv hk hty => ⟨passFrame_mirzu hp ht tagged vid kind pl (mt (hvlan tagged vid).1 hv) hk hty, houts⟩,
      fun hv hk hty => passFrame_badType hp ht hq.wf tagged vid kind pl (mt (hvlan tagged vid).1 hv) hk hty,
      fun hv hk => ⟨passFrame_unknown hp ht hq.wf tagged vid kind pl (mt (hvlan tagged vid).1 hv) hk, houts⟩,
      fun hv hk => ⟨passFrame_other hp ht hq.wf tagged vid kind pl (mt (hvlan tagged vid).1 hv) hk, houts⟩⟩

/-- Whatever becomes of a frame, what its FEC could not correct is counted. -/
theorem frameReceived_counts (hup : s.m.portUp port = true) (len : Nat) (fcs tagged : Bool) (vid kind : Nat) (ce : Bool)
    (pl : List Byte) (uncorr an pn : Nat) : ∃ m, exec (.frameReceived port len fcs tagged vid kind ce pl uncorr an pn) s = s.becomes m ∧
      m.reg (Reg.ethFecUncorr port) = trunc 64 (s.m.reg (Reg.ethFecUncorr port) + uncorr) := by
  have h0 := M.heard_frameHeard port hw uncorr
  by_cases hbad : 9216 < len ∨ fcs = false
  · obtain ⟨m, hrun, hm⟩ := frameReceived_malformed hl hw hp hup len fcs tagged vid kind ce pl uncorr an pn hbad
    exact ⟨m, hrun, (h0.drops hp hw hm).2.1⟩
  · rw [not_or, Nat.not_lt, Bool.not_eq_false] at hbad
    by_cases href : s.m.macsecOk port = false ∨ s.m.failsMacsec port kind an pn
    · obtain ⟨m, hrun, hm⟩ := frameReceived_refused hl hp hup len fcs tagged vid kind ce pl uncorr an pn hbad.1 hbad.2 href
      exact ⟨m, hrun, (h0.leaves hp hw hm).2.1⟩
    · rw [not_or, Bool.not_eq_false] at href
      obtain ⟨x, m, hx, hrun, -, hvlan, hreply, hmirzu, hbadType, hunknown, hother⟩ :=
        frameReceived_judged hl hw hp hup tagged vid kind ce pl uncorr an pn hbad.1 hbad.2 href.1 href.2
      refine ⟨m, hrun, ?_⟩
      by_cases hv : s.m.otherVlan port tagged vid
      · exact (hx.drops hp hw (hvlan hv).1).2.1
      · by_cases h0 : kind = 0
        · by_cases hty : (Hdr.parse pl).typ < 8
          · exact (hx.leaves hp hw (hmirzu hv h0 hty).1).2.1
          · exact (hx.dropsPacket hp hw (hbadType hv h0 (Nat.le_of_not_lt hty))).2.1
        · by_cases h3 : kind ≤ 3
          · exact (hx.leaves hp hw (hreply hv (by simp only [List.mem_cons, List.not_mem_nil, or_false]; omega)).1).2.1
          · by_cases h4 : kind = 4
            · exact (hx.dropsPacket hp hw (hunknown hv h4).1).2.1
            · exact (hx.drops hp hw (hother hv (by omega)).1).2.1

end

/-- Settles O56: frames by what they are and what MACsec says of them, links by the status that they show, a takeover by the peers that it
tells one after the other. -/
theorem framesLinksAndTakeover : Obligations.FramesLinksAndTakeover := by
  unfold Obligations.FramesLinksAndTakeover
  intro s port hl hw hp st drops
  have h0 := fun uncorr => M.heard_frameHeard port hw uncorr
  refine ⟨fun len fcs tagged vid kind ce uncorr an pn pl => ?_, ⟨fun h => ?_, fun h => portLinkUp_refused hl port h⟩,
    fun fault => ⟨portLinkDown_idle hl port fault, fun hup => ?_⟩, fun w v ha => ?_, fun k => ⟨fun hk hused => ?_, takeoverAdvertise_idle hl k⟩⟩
  · intro c vlan fails
    refine ⟨fun hup => ?_, fun hup => frameReceived_counts hl hw hp hup len fcs tagged vid kind ce pl uncorr an pn, fun hup hbad => ?_,
      fun hup hlen hfcs href => ?_, fun hup hlen hfcs hok hpass => ?_⟩
    · show exec (.frameReceived port len fcs tagged vid kind ce pl uncorr an pn) s = _
      rw [exec, execFrameReceived, State.doing_live s _ hl, run_bind, run_get, run_whenA, if_neg (by simp [hup])]
    · obtain ⟨m, hrun, hm⟩ := frameReceived_malformed hl hw hp hup len fcs tagged vid kind ce pl uncorr an pn hbad
      obtain ⟨hdrop, -, hout, -⟩ := (h0 uncorr).drops hp hw hm
      exact ⟨m, hrun, hdrop, hout⟩
    · obtain ⟨m, hrun, hm⟩ := frameReceived_refused hl hp hup len fcs tagged vid kind ce pl uncorr an pn hlen hfcs href
      obtain ⟨hdrop, -, hout, hsec⟩ := (h0 uncorr).leaves hp hw hm
      exact ⟨m, hrun, hdrop, hout, hsec⟩
    · obtain ⟨x, m, hx, hrun, hsak, hvlan, hreply, hmirzu, -, hunknown, hother⟩ :=
        frameReceived_judged hl hw hp hup tagged vid kind ce pl uncorr an pn hlen hfcs hok hpass
      refine ⟨fun hon => ⟨m, hrun, hsak hon⟩, fun hv => ?_, fun hv hk => ?_, fun hv hk hty => ?_, fun hv hk => ?_, fun hv hk => ?_⟩
      · obtain ⟨hm, hout⟩ := hvlan hv
        obtain ⟨hdrop, -, hsame, -⟩ := hx.drops hp hw hm
        exact ⟨m, hrun, hdrop, hsame.trans hout⟩
      · obtain ⟨hm, hout⟩ := hreply hv hk
        obtain ⟨hdrop, -, hsame, -⟩ := hx.leaves hp hw hm
        exact ⟨m, hrun, hdrop, hsame.trans hout⟩
      · obtain ⟨hm, hout⟩ := hmirzu hv hk hty
        obtain ⟨hdrop, -, hsame, -⟩ := hx.leaves hp hw hm
        exact ⟨m, hrun, hdrop, hsame.trans hout⟩
      · obtain ⟨hm, hout⟩ := hunknown hv hk
        obtain ⟨hdrop, -, hsame, -, hcount⟩ := hx.dropsPacket hp hw hm
        exact ⟨m, hrun, hdrop, hsame.trans hout, hcount⟩
      · obtain ⟨hm, hout⟩ := hother hv hk
        obtain ⟨hdrop, -, hsame, -⟩ := hx.drops hp hw hm
        exact ⟨m, hrun, hdrop, hsame.trans hout⟩
  · exact portLinkUp_shows hl port hw h
  · obtain ⟨m, hrun, h31, h29, h28, h27, hbeside⟩ := portLinkDown_shows hl hw hp fault hup
    exact ⟨m, hrun, h31, h29, h28, h27, hbeside.stores, hbeside.cores, hbeside.rally⟩
  · intro m0 may node peers
    have hrun : exec (.trnTakeover v w) s = s.becomes (takeover v (s.m.accessed w)).2 := by
      rw [exec, execTrnTakeover, State.doing_live s _ hl, run_regAction_admitted ha, State.becomes]
    have hreg : ∀ {o}, o < 0x10004000 → (s.m.accessed w).reg o = s.m.reg o := M.accessed_reg s.m w
    have htrn : (s.m.accessed w).trn = s.m.trn := by
      obtain ⟨r, h⟩ := s.m.accessed_eq w
      rw [h]
    have hmay : (s.m.accessed w).mayTakeOver v ↔ may := by
      rw [M.mayTakeOver, hreg (by decide), htrn]
    refine ⟨fun h => ?_, fun h => ?_⟩
    · rw [hrun, takeover_refused (mt hmay.1 h), hreg (by decide)]
    · obtain ⟨m, hm, hnode, hrank, he1, he2, hused, htk, hstate, htold, hout, hfresh⟩ :=
        takeover_takes (M.wf_accessed hw w) (hmay.2 h)
      have hpeers : (s.m.accessed w).imagePeers (bits v 11 0) = peers := by
        rw [M.imagePeers, M.accessed_boot]
        rfl
      have hrally : ∀ n, (s.m.accessed w).rally n = s.m.rally n := fun n => by rw [M.rally, htrn, M.rally]
      simp only [hpeers, hrally] at htk hstate htold hout hfresh
      refine ⟨m, hrun.trans (congrArg s.becomes hm), hnode, hrank, he1, he2, hused, htk, hstate,
        fun n hn => ⟨(htold n hn).takeover, (htold n hn).msgs, (htold n hn).inOpen⟩, hout, fun n => ?_, hfresh⟩
      by_cases hn : n ∈ peers
      · exact (htold n hn).fenced
      · rw [hfresh n hn]
  · obtain ⟨m, hrun, hwired, hsent⟩ := takeoverAdvertise_sends hl k hk hused
    exact ⟨m, hrun, hwired.trn, hwired.stores, hwired.cores, fun p hlt hup hok hon => hsent p hlt ⟨hup, hok, hon⟩⟩

end Sys2Proof.Machine

/-! # The header of a packet (R252, Table 10-3) -/

namespace Sys2Proof.Machine

/-- The header as a number, field by field. -/
def headerNum (t f src d e a b c l cls k tag ts : Nat) : Nat :=
  t + 2 * 2 ^ 4 + f * 2 ^ 8 + src * 2 ^ 16 + d * 2 ^ 32 + e * 2 ^ 48 + a * 2 ^ 64 + b * 2 ^ 96 + c * 2 ^ 128 + l * 2 ^ 160 + cls * 2 ^ 176 + k * 2 ^ 180 +
    tag * 2 ^ 192 + ts * 2 ^ 224

section
variable {t f src d e a b c l cls k tag ts : Nat} (ht : t < 2 ^ 4) (hf : f < 2 ^ 4) (hsrc : src < 2 ^ 16) (hd : d < 2 ^ 16) (he : e < 2 ^ 16)
  (ha : a < 2 ^ 32) (hb : b < 2 ^ 32) (hc : c < 2 ^ 32) (hl : l < 2 ^ 16) (hcls : cls < 2 ^ 4) (hk : k < 2 ^ 4) (htag : tag < 2 ^ 32)
  (hts : ts < 2 ^ 32)
include ht hf hsrc hd he ha hb hc hl hcls hk htag hts

theorem headerNum_lt : headerNum t f src d e a b c l cls k tag ts < 2 ^ 256 := by
  unfold headerNum
  omega

theorem bits_headerNum : let x := headerNum t f src d e a b c l cls k tag ts
    bits x 7 4 = 2 ∧ bits x 3 0 = t ∧ bits x 11 8 = f ∧ bits x 31 16 = src ∧ bits x 47 32 = d ∧ bits x 63 48 = e ∧ bits x 95 64 = a ∧
      bits x 127 96 = b ∧ bits x 159 128 = c ∧ bits x 175 160 = l ∧ bits x 183 180 = k ∧ bits x 179 176 = cls ∧ bits x 223 192 = tag ∧
      bits x 255 224 = ts := by
  simp only [headerNum, bits, Nat.shiftRight_eq_div_pow]
  refine ⟨?_, ?_, ?_, ?_, ?_, ?_, ?_, ?_, ?_, ?_, ?_, ?_, ?_, ?_⟩ <;> omega

end

/-- A packet parsed is its header and its payload. -/
theorem M.parse_header (s : M) (t f d a b c l k cls tag : Nat) (body : List Byte) :
    Hdr.parse (s.header t f d a b c l k cls tag ++ body) =
      { ver := 2, typ := trunc 4 t, flags := trunc 4 f, src := s.node, dst := trunc 16 d, epoch := s.epoch, b8 := trunc 32 a,
        b12 := trunc 32 b, b16 := trunc 32 c, plen := trunc 16 l, path := trunc 4 k, cls := trunc 4 cls, tag := trunc 32 tag,
        ts := trunc 32 s.now, body := body } := by
  have htr : ∀ w x, trunc w x < 2 ^ w := fun w x => Nat.mod_lt _ (by positivity)
  have hnode : s.node < 2 ^ 16 := (show s.node < 2 ^ 12 from Nat.mod_lt _ (by decide)).trans (by decide)
  have hepoch : s.epoch < 2 ^ 16 := Nat.mod_lt _ (by decide)
  have hheader : s.header t f d a b c l k cls tag = leBytes 32 (headerNum (trunc 4 t) (trunc 4 f) s.node (trunc 16 d) s.epoch (trunc 32 a)
      (trunc 32 b) (trunc 32 c) (trunc 16 l) (trunc 4 cls) (trunc 4 k) (trunc 32 tag) (trunc 32 s.now)) := by
    simp only [M.header, headerNum, Nat.shiftLeft_eq]
  have hlt := headerNum_lt (htr 4 t) (htr 4 f) hnode (htr 16 d) hepoch (htr 32 a) (htr 32 b) (htr 32 c) (htr 16 l) (htr 4 cls) (htr 4 k)
    (htr 32 tag) (htr 32 s.now)
  have hbits := bits_headerNum (htr 4 t) (htr 4 f) hnode (htr 16 d) hepoch (htr 32 a) (htr 32 b) (htr 32 c) (htr 16 l) (htr 4 cls) (htr 4 k)
    (htr 32 tag) (htr 32 s.now)
  rw [hheader]
  generalize headerNum (trunc 4 t) (trunc 4 f) s.node (trunc 16 d) s.epoch (trunc 32 a) (trunc 32 b) (trunc 32 c) (trunc 16 l) (trunc 4 cls)
    (trunc 4 k) (trunc 32 tag) (trunc 32 s.now) = x at hlt hbits ⊢
  have hlen : (leBytes 32 x).length = 32 := length_leBytes 32 x
  have hx : leNat ((leBytes 32 x ++ body).take 32) = x := by
    rw [List.take_left' hlen, leNat_leBytes, Nat.mod_eq_of_lt hlt]
  have hbody : (leBytes 32 x ++ body).drop 32 = body := List.drop_left' hlen
  obtain ⟨h1, h2, h3, h4, h5, h6, h7, h8, h9, h10, h11, h12, h13, h14⟩ := hbits
  rw [Hdr.parse]
  simp only [hx, hbody, h1, h2, h3, h4, h5, h6, h7, h8, h9, h10, h11, h12, h13, h14]

/-! ## What frames hold, once events have been counted -/

section
variable {s t : M} (h : s.tallied t)
include h

theorem M.tallied.now : t.now = s.now := by
  have hisl : t.isl = s.isl := (congrArg M.isl h.rest :)
  rw [M.now, M.now, M.island, M.island, hisl]

theorem M.tallied.reg_low {o : Nat} (ho : o < 0x310000) : t.reg o = s.reg o := h.regs o fun hc => by
  unfold Reg.ofCounters at hc
  omega

theorem M.tallied.header (typ f d a b c l k cls tag : Nat) : t.header typ f d a b c l k cls tag = s.header typ f d a b c l k cls tag := by
  rw [M.header, M.header, h.now, M.node, M.node, M.epoch, M.epoch, h.reg_low (o := Reg.trnNode) (by decide),
    h.reg_low (o := Reg.trnEpoch) (by decide)]

theorem M.tallied.ipOf {p : Nat} (hp : p < 64) (n : Nat) : t.ipOf n p = s.ipOf n p := by
  rw [M.ipOf, M.ipOf, M.ip4, M.ip4, h.reg_low (o := Reg.ethPortPrefix p) (by simp only [Reg.ethPortPrefix]; omega),
    h.reg_low (o := Reg.ethMode) (by decide), h.reg_low (o := Reg.trnIid) (by decide)]

theorem M.tallied.frame {p : Nat} (hp : p < 64) (dst psn : Nat) (ctrl : Bool) (packet : List Byte) :
    t.frame p dst psn ctrl packet = s.frame p dst psn ctrl packet := by
  rw [M.frame, M.frame, h.eth hp, h.ipOf hp, h.ipOf hp, M.ip4, M.ip4, M.node, M.node, h.reg_low (o := Reg.trnNode) (by decide),
    h.reg_low (o := Reg.ethMode) (by decide), h.reg_low (o := Reg.trnCtl) (by decide)]

theorem M.tallied.pathPort (k : Nat) : t.pathPort k = s.pathPort k := h.wired.pathPort k

end

end Sys2Proof.Machine

/-! # Messages posted, and the packets that carry them (R258, R260 to R263, R267 to R269) -/

namespace Sys2Proof.Machine

/-- The machine once the transport-island counter has reached a value. -/
def M.atTime (s : M) (now : Nat) : M := { s with isl := Tab.put (fun _ => 0) s.isl 172 (trunc 64 (max now s.now)) }

theorem M.wf_atTime {s : M} (hw : s.wf = true) (now : Nat) : (s.atTime now).wf = true := M.wf_putIsl _ _ hw

theorem M.frame_sendable {s : M} {p : Nat} (h : s.transmits p) : p < 64 := M.port_lt h.1

/-! ## Posting -/

/-- A context that is asked for sends nothing. -/
theorem needCtx_outs (n : Nat) (s : M) : (needCtx n s).2.outs = s.outs := by
  have htouch : Keeps (fun t => t.outs = s.outs) (touchCtx n) := keeps_getThen fun _ => keeps_bind (fun _ h => h) fun _ _ h => h
  have hupd : ∀ f, Keeps (fun t => t.outs = s.outs) (updRally n f) := fun _ _ h => h
  exact keeps_getThen (fun _ => keeps_ite (keeps_bind htouch fun _ => keeps_pure _) (keeps_ite (keeps_pure _)
    (keeps_ite (keeps_bind (hupd _) fun _ => keeps_bind htouch fun _ => keeps_pure _)
      (keeps_ite (keeps_bind (hupd _) fun _ => keeps_bind (fun _ h => h) fun _ => keeps_pure _) (keeps_pure _))))) s rfl

/-- A Rally whose context is asked for, and which then opens where it is FREE or FAILED. -/
def askAndOpen (n : Nat) : Act Unit := do
  let (here, _) ← needCtx n
  let s ← get
  whenA (here && ((s.rally n).out == 0 || (s.rally n).out == 3)) (startOpen n)

section
variable {s : M} (hw : s.wf = true) (n : Nat)
include hw

theorem askAndOpen_serves : ∃ r, s.served n r (askAndOpen n s).2 ∧ r.msgs = (s.rally n).msgs ∧
    ((s.rally n).onChip = true → (s.rally n).out = 0 ∨ (s.rally n).out = 3 → r.out = 1 ∧ r.openSeq = trunc 32 ((s.rally n).openSeq + 1)) ∧
    ((s.rally n).loading = true ∧ (s.rally n).onChip = false ∨ (s.rally n).onChip = true ∧ (s.rally n).out ≠ 0 ∧ (s.rally n).out ≠ 3 →
      r.out = (s.rally n).out ∧ (askAndOpen n s).2.outs = s.outs) := by
  obtain ⟨r, hneed, ⟨c, l, u, hr⟩, -⟩ := needCtx_serves hw n
  have houts := needCtx_outs n s
  have hhere : (s.rally n).onChip = true → (needCtx n s).1.1 = true := fun h => by rw [(needCtx_here hw n h).1]
  have haway : (s.rally n).loading = true → (s.rally n).onChip = false → (needCtx n s).1.1 = false := fun hl h => by
    rw [needCtx_loading n h hl]
  have hrun : (askAndOpen n s).2 = (whenA ((needCtx n s).1.1 && (((needCtx n s).2.rally n).out == 0 || ((needCtx n s).2.rally n).out == 3))
      (startOpen n) (needCtx n s).2).2 := rfl
  rw [hrun]
  generalize (needCtx n s).1.1 = here at *
  generalize (needCtx n s).2 = t at *
  have hout : (t.rally n).out = (s.rally n).out := by rw [hneed.rally, hr]
  cases hgo : here && ((t.rally n).out == 0 || (t.rally n).out == 3) with
  | true =>
    obtain ⟨x, hopen⟩ := startOpen_serves hneed.wf n
    rw [hneed.rally] at hopen
    rw [run_whenA_true]
    have hgo' : here = true ∧ ((s.rally n).out = 0 ∨ (s.rally n).out = 3) := by simpa [hout] using hgo
    refine ⟨_, hneed.trans hopen, by rw [hr], fun _ _ => ⟨rfl, by rw [hr]⟩, fun h => ?_⟩
    rcases h with ⟨hl, ho⟩ | ⟨-, h0, h3⟩
    · exact absurd hgo'.1 (by simp [haway hl ho])
    · exact absurd hgo'.2 (by simp [h0, h3])
  | false =>
    rw [run_whenA_false]
    refine ⟨r, hneed, by rw [hr], fun hon ho => ?_, fun _ => ⟨by rw [hr], houts⟩⟩
    have : (here && ((t.rally n).out == 0 || (t.rally n).out == 3)) = true := by simp [hhere hon, hout, ho]
    exact absurd this (by simp [hgo])

theorem postMessage_posts (hrun : s.board.stopped = false) (x : OutMsg) : ∃ r, s.served n r (postMessage n x s).2 ∧
    r.msgs = (s.rally n).msgs ++ [x] ∧
    (s.trnReady = true → (s.rally n).onChip = true → (s.rally n).out = 0 ∨ (s.rally n).out = 3 →
      r.out = 1 ∧ r.openSeq = trunc 32 ((s.rally n).openSeq + 1)) ∧
    (s.trnReady = false ∨ (s.rally n).loading = true ∧ (s.rally n).onChip = false ∨
        (s.rally n).onChip = true ∧ (s.rally n).out ≠ 0 ∧ (s.rally n).out ≠ 3 →
      r.out = (s.rally n).out ∧ (postMessage n x s).2.outs = s.outs) := by
  have hpost := (M.served.refl hw n).updRally fun r => { r with msgs := r.msgs ++ [x] }
  have hact : (postMessage n x s).2 = (whenA s.trnReady (askAndOpen n) (updRally n (fun r => { r with msgs := r.msgs ++ [x] }) s).2).2 := by
    rw [postMessage, run_bind, run_get]
    dsimp only
    rw [hrun, Bool.not_false, run_whenA_true, run_bind]
    rfl
  have houts : (updRally n (fun r => { r with msgs := r.msgs ++ [x] }) s).2.outs = s.outs := rfl
  rw [hact]
  generalize (updRally n (fun r => { r with msgs := r.msgs ++ [x] }) s).2 = t at hpost houts ⊢
  cases hready : s.trnReady with
  | false => exact ⟨_, hpost, rfl, fun h => absurd h (by simp), fun _ => ⟨rfl, houts⟩⟩
  | true =>
    obtain ⟨r, hask, hmsgs, hopens, hstays⟩ := askAndOpen_serves hpost.wf n
    rw [hpost.rally] at hmsgs hopens hstays
    rw [run_whenA_true]
    refine ⟨r, hpost.trans hask, hmsgs, fun _ => hopens, fun h => ?_⟩
    obtain ⟨hout, ho⟩ := hstays (h.resolve_left (by simp))
    exact ⟨hout, ho.trans houts⟩

end

/-! ## The next packet -/

/-- What the next packet takes leaves the packets not acknowledged, and the context. -/
theorem Rally.nextPkt_rest {r r' : Rally} {p : Pkt} (h : r.nextPkt = some (p, r')) :
    r' = { r with msgs := r'.msgs, stats := r'.stats, mseq := r'.mseq } := by
  unfold Rally.nextPkt at h
  split at h
  · obtain ⟨-, rfl⟩ := Prod.mk.inj (Option.some.inj h)
    rfl
  · split at h
    · exact absurd h (by simp)
    · split at h
      · exact absurd h (by simp)
      · obtain ⟨-, rfl⟩ := Prod.mk.inj (Option.some.inj h)
        rfl

/-- Nothing is sent without a packet, a path and a turn. -/
theorem sendNext_idle {s : M} {n : Nat} (h : s.nextSend n = none ∨ ∃ p r' k, s.nextSend n = some (p, r', k) ∧ s.turnOf n k = false) :
    sendNext n s = (false, s) := by
  rw [sendNext, run_bind, run_get]
  dsimp only
  rcases h with h | ⟨p, r', k, h, hturn⟩
  · rw [h]
    rfl
  · rw [h]
    dsimp only
    rw [run_ite, if_pos (by simp [hturn]), run_pure]

theorem M.nextSend_closed {s : M} {n : Nat} (h : (s.rally n).out ≠ 2 ∨ (s.rally n).windowOpen = false ∨ (s.rally n).onChip = false ∨
    (s.rally n).nextPkt = none) : s.nextSend n = none := by
  rw [M.nextSend]
  by_cases hc : (s.rally n).out ≠ 2 ∨ (!(s.rally n).windowOpen) = true ∨ (!(s.rally n).onChip) = true
  · rw [if_pos hc]
  · have hnone : (s.rally n).nextPkt = none := by
      simp only [not_or, Bool.not_eq_true', Bool.not_eq_false] at hc
      rcases h with h | h | h | h
      · exact absurd h hc.1
      · exact absurd hc.2.1 (by simp [h])
      · exact absurd hc.2.2 (by simp [h])
      · exact h
    rw [if_neg hc, hnone]

theorem M.nextSend_open {s : M} {n : Nat} (hout : (s.rally n).out = 2) (hwin : (s.rally n).windowOpen = true) (hchip : (s.rally n).onChip = true)
    {p : Pkt} {r' : Rally} (hp : (s.rally n).nextPkt = some (p, r')) :
    s.nextSend n = (s.nextPath (s.rally n) (32 + p.body.length) (s.rally n).rr).map fun k => (p, r', k) := by
  rw [M.nextSend, if_neg (by simp [hout, hwin, hchip]), hp]

theorem Rally.setPath_path {r : Rally} (hwf : Tab.wf PathSt.init r.paths = true) (k : Nat) (f : PathSt → PathSt) (j : Nat) :
    (r.setPath k f).path j = if j = k then f (r.path k) else r.path j := by
  by_cases hj : j = k
  · rw [if_pos hj, hj]
    exact Tab.read_put_self _ _ _ _ hwf
  · rw [if_neg hj]
    exact Tab.read_put_other _ _ _ _ _ hj

/-- Two Rallies whose paths have as many timeouts, and of which the same are suspect. -/
def Rally.samePaths (r r' : Rally) : Prop := Tab.wf PathSt.init r.paths = true →
  Tab.wf PathSt.init r'.paths = true ∧ ∀ j, (r'.path j).touts = (r.path j).touts ∧ (r'.path j).suspect = (r.path j).suspect

theorem Rally.samePaths_setPath (r : Rally) (k : Nat) {f : PathSt → PathSt} (hf : ∀ q, (f q).touts = q.touts ∧ (f q).suspect = q.suspect) :
    r.samePaths (r.setPath k f) := fun hwf => ⟨Tab.wf_put _ _ _ _ hwf, fun j => by
  rw [Rally.setPath_path hwf]
  split
  next hj => exact hj ▸ hf _
  · exact ⟨rfl, rfl⟩⟩

/-- What is left to do when a packet goes out by a port. -/
def sendBy (port n : Nat) (p : Pkt) (retx : Bool) (bytes : List Byte) : Act Unit := do
  sendFrame port n p.psn false bytes
  whenA (!p.status && !retx) do
    portCount port 0x280 1
    portCount port 0x282 p.body.length

theorem sendBy_frames {s : M} {port : Nat} (hp : port < 64) (n : Nat) (p : Pkt) (retx : Bool) (bytes : List Byte) :
    s.wired (sendBy port n p retx bytes s).2 ∧
      (s.transmits port → Output.mirzu port (s.frame port n p.psn false bytes) ∈ (sendBy port n p retx bytes s).2.outs) := by
  have hrun : (sendBy port n p retx bytes s).2 = (whenA (!p.status && !retx) (do
      portCount port 0x280 1
      portCount port 0x282 p.body.length) (sendFrame port n p.psn false bytes s).2).2 := rfl
  have hcounts : (sendFrame port n p.psn false bytes s).2.wired (sendBy port n p retx bytes s).2 := by
    rw [hrun]
    exact keeps_whenA (keeps_bind (P := M.wired _) (fun _ h => h.trans (portCount_tallies hp _ _ _).wired)
      fun _ _ h => h.trans (portCount_tallies hp _ _ _).wired) _ (.refl _)
  exact ⟨(sendFrame_frames _ _ _ _ _ _).trans hcounts, fun h => hcounts.outs.subset (sendFrame_sends h _ _ _ _)⟩

/-- A packet on path k takes from the path's rate, and leaves by its port where that sends. -/
theorem sendPkt_serves {s : M} (hw : s.wf = true) (n : Nat) (p : Pkt) (k : Nat) (retx : Bool) : ∃ x,
    s.served n { s.rally n with paths := x } (sendPkt n p k retx s).2 ∧ (s.rally n).samePaths { s.rally n with paths := x } ∧
      ∀ port, s.pathPort k = some port → s.transmits port → ∃ a,
        Output.mirzu port (s.frame port n p.psn false (s.pktBytes n { p with path := k } retx a)) ∈ (sendPkt n p k retx s).2.outs := by
  have hrate : s.served n _ (takeRate n k (32 + p.body.length) s).2 := (M.served.refl hw n).updRally fun r => r.setPath k fun q =>
    { q with used := s.pathUsed (s.rally n) k + (32 + p.body.length), usedAt := s.now }
  have hsame := (s.rally n).samePaths_setPath k (f := fun q => { q with used := s.pathUsed (s.rally n) k + (32 + p.body.length), usedAt := s.now })
    fun _ => ⟨rfl, rfl⟩
  have hframe : ∀ port bytes, (takeRate n k (32 + p.body.length) s).2.frame port n p.psn false bytes = s.frame port n p.psn false bytes :=
    fun _ _ => rfl
  rw [sendPkt, run_bind, run_get]
  dsimp only
  rw [run_bind]
  generalize (takeRate n k (32 + p.body.length) s).2 = t at hrate hframe ⊢
  cases hport : s.pathPort k with
  | none => exact ⟨_, hrate, hsame, fun _ h => absurd h (by simp)⟩
  | some port =>
    obtain ⟨hwired, hsends⟩ := sendBy_frames (s := t) (M.pathPort_lt hport) n { p with path := k } retx
      (s.pktBytes n { p with path := k } retx (p.eom || p.status || (s.rally n).crowded))
    refine ⟨_, hrate.wired hwired, hsame, fun port' hport' hsend => ?_⟩
    obtain rfl := Option.some.inj hport'
    exact ⟨_, hframe _ _ ▸ hsends (hrate.transmits.2 hsend)⟩

/-- The next packet of a Rally, as it goes out on path k. -/
theorem sendNext_sends {s : M} (hw : s.wf = true) {n : Nat} {p : Pkt} {r' : Rally} {k : Nat} (h : s.nextSend n = some (p, r', k))
    (hpkt : (s.rally n).nextPkt = some (p, r')) (hturn : s.turnOf n k = true) : ∃ x rr u,
    s.served n { r' with
      psn := trunc 32 ((s.rally n).psn + 1), rr := rr, unacked := (s.rally n).unacked ++ [{ p with path := k, sentAt := s.now }]
      used := u, paths := x } (sendNext n s).2 ∧
    ∀ port, s.pathPort k = some port → s.transmits port → ∃ a, Output.mirzu port (s.frame port n p.psn false
      (s.pktBytes n { p with path := k, sentAt := s.now } false a)) ∈ (sendNext n s).2.outs := by
  have hrest := Rally.nextPkt_rest hpkt
  have hunacked : r'.unacked = (s.rally n).unacked := (congrArg Rally.unacked hrest :)
  let q : Pkt := { p with path := k, sentAt := s.now }
  let f : Rally → Rally := fun r =>
    { r' with psn := trunc 32 (r.psn + 1), rr := (k + 1) % max 1 s.pathPorts.length, unacked := r'.unacked ++ [q] }
  let x : Transport := { (updRally n f s).2.trn with turn := Tab.put (fun _ => 0) (updRally n f s).2.trn.turn ((s.pathPort k).getD 0) (n + 1) }
  have htake := (M.served.refl hw n).updRally f
  have hturned : s.served n (f (s.rally n)) { (updRally n f s).2 with trn := x } :=
    ⟨htake.rest, htake.regs, htake.outs, htake.ports, (M.wf_congr ⟨rfl, rfl, rfl, rfl, rfl, rfl, rfl, rfl, rfl, rfl, rfl⟩).trans htake.wf,
      htake.rally, htake.others, htake.takeover⟩
  have htouched := hturned.touchCtx
  have hact : (sendNext n s).2 = (sendPkt n q k false (touchCtx n { (updRally n f s).2 with trn := x }).2).2 := by
    rw [sendNext, run_bind, run_get]
    dsimp only
    rw [h]
    dsimp only
    rw [run_ite, if_neg (by simp [hturn])]
    rfl
  have hsame : ∀ port bytes, (touchCtx n { (updRally n f s).2 with trn := x }).2.frame port n p.psn false bytes = s.frame port n p.psn false bytes ∧
      ∀ a, (touchCtx n { (updRally n f s).2 with trn := x }).2.pktBytes n q false a = s.pktBytes n q false a := fun _ _ => ⟨rfl, fun _ => rfl⟩
  rw [hact]
  generalize (touchCtx n { (updRally n f s).2 with trn := x }).2 = t at htouched hsame ⊢
  obtain ⟨y, hsent, -, hout⟩ := sendPkt_serves htouched.wf n q k false
  rw [htouched.rally] at hsent
  refine ⟨y, (k + 1) % max 1 s.pathPorts.length, x.clock, hunacked ▸ htouched.trans hsent, fun port hport hsend => ?_⟩
  obtain ⟨a, ha⟩ := hout port ((htouched.pathPort k).trans hport) (htouched.transmits.2 hsend)
  obtain ⟨hf, hb⟩ := hsame port (s.pktBytes n q false a)
  refine ⟨a, ?_⟩
  rw [← hf, ← hb a]
  exact ha

theorem M.nextSend_some {s : M} {n : Nat} {p : Pkt} {r' : Rally} {k : Nat} (h : s.nextSend n = some (p, r', k)) :
    (s.rally n).onChip = true ∧ (s.rally n).nextPkt = some (p, r') := by
  rw [M.nextSend] at h
  split at h
  · exact absurd h (by simp)
  next hc =>
    rw [not_or, not_or, Bool.not_eq_true', Bool.not_eq_false] at hc
    obtain ⟨-, -, hchip⟩ := hc
    split at h
    · exact absurd h (by simp)
    next hp =>
      obtain ⟨j, -, hj⟩ := Option.map_eq_some_iff.1 h
      cases hj
      exact ⟨by simpa using hchip, hp⟩

/-- Whether a packet is sent or not, the context stays where it is. -/
theorem sendNext_serves {s : M} (hw : s.wf = true) (n : Nat) : ∃ r, s.served n r (sendNext n s).2 ∧ r.onChip = (s.rally n).onChip := by
  cases h : s.nextSend n with
  | none =>
    rw [sendNext_idle (.inl h)]
    exact ⟨_, .refl hw n, rfl⟩
  | some x =>
    obtain ⟨p, r', k⟩ := x
    cases hturn : s.turnOf n k with
    | false =>
      rw [sendNext_idle (.inr ⟨p, r', k, h, hturn⟩)]
      exact ⟨_, .refl hw n, rfl⟩
    | true =>
      obtain ⟨hchip, hp⟩ := M.nextSend_some h
      obtain ⟨x, rr, u, hserved, -⟩ := sendNext_sends hw h hp hturn
      have hrest := (congrArg Rally.onChip (Rally.nextPkt_rest hp) :)
      exact ⟨_, hserved, hrest⟩

/-! ## Messages that wait for their context -/

theorem resumePosted_idle {s : M} {n : Nat} (h : s.trnReady = false ∨ (s.rally n).onChip = true ∨ (s.rally n).loading = true ∨
    (s.rally n).wantsOpen = false) : resumePosted n s = ((), s) := by
  have hno : (s.trnReady && !(s.rally n).onChip && !(s.rally n).loading && (s.rally n).wantsOpen) = false := by
    rcases h with h | h | h | h <;> simp [h]
  rw [resumePosted, run_bind, run_get]
  dsimp only
  rw [hno, run_whenA_false]

/-- The context is asked for, and where it is there the Rally opens if it must. -/
theorem resumePosted_serves {s : M} (hw : s.wf = true) {n : Nat} (hready : s.trnReady = true) (hchip : (s.rally n).onChip = false)
    (hload : (s.rally n).loading = false) (hwants : (s.rally n).wantsOpen = true) : ∃ r, s.served n r (resumePosted n s).2 ∧
      ((s.rally n).spilled = false → s.onChip.length < 1024 → r.onChip = true) ∧
      ((s.rally n).spilled = true → s.onChip.length < 1024 ∨ s.evictee ≠ none →
        r = { s.rally n with loading := true } ∧ (resumePosted n s).2.reg Reg.trnCtxMisses = trunc 64 (s.reg Reg.trnCtxMisses + 1)) := by
  have hact : (resumePosted n s).2 = (whenA ((needCtx n s).1.1 && ((s.rally n).out == 0 || (s.rally n).out == 3)) (startOpen n)
      (needCtx n s).2).2 := by
    rw [resumePosted, run_bind, run_get]
    dsimp only
    rw [hready, hchip, hload, hwants, Bool.not_false, Bool.and_true, Bool.and_true, Bool.and_true, run_whenA_true, run_bind]
  obtain ⟨r, hneed, -, -⟩ := needCtx_serves hw n
  have hfree := fun hs hroom => needCtx_free hw n hchip hload hs hroom
  have hmiss := fun hs => needCtx_misses hw n hchip hload (s := s) hs
  rw [hact]
  generalize (needCtx n s).1 = x at *
  generalize (needCtx n s).2 = t at *
  obtain ⟨y, hopen⟩ := startOpen_serves hneed.wf n
  have hserved : ∃ r', s.served n r' (whenA (x.1 && ((s.rally n).out == 0 || (s.rally n).out == 3)) (startOpen n) t).2 ∧
      r'.onChip = r.onChip := by
    cases x.1 && ((s.rally n).out == 0 || (s.rally n).out == 3) with
    | false =>
      rw [run_whenA_false]
      exact ⟨r, hneed, rfl⟩
    | true =>
      rw [run_whenA_true]
      rw [hneed.rally] at hopen
      exact ⟨_, hneed.trans hopen, rfl⟩
  obtain ⟨r', hserved', hsame⟩ := hserved
  refine ⟨r', hserved', fun hs hroom => ?_, fun hs hgo => ?_⟩
  · obtain ⟨-, hfree'⟩ := hfree hs hroom
    rw [hsame, ← hneed.rally, hfree'.rally]
  · obtain ⟨hno, hloading, hcount⟩ := hmiss (by simp [hs]) hgo
    rw [hno, Bool.false_and, run_whenA_false] at hserved' ⊢
    exact ⟨hserved'.rally.symm.trans hloading.rally, hcount⟩

/-! ## The command -/

theorem exec_packetSend {s : State} (hl : s.m.board.live = true) (n now : Nat) :
    exec (.packetSend n now) s = s.becomes (sendNext n (resumePosted n (s.m.atTime now)).2).2 := by
  rw [exec, execPacketSend, State.doing_live s _ hl]
  rfl

end Sys2Proof.Machine

/-! # What passing time does to a Rally (R258, R262, R263, R267 to R269) -/

namespace Sys2Proof.Machine

/-! ## Retransmission -/

theorem Rally.samePaths.trans {a b c : Rally} (h : a.samePaths b) (k : b.samePaths c) : a.samePaths c := fun hwf => by
  obtain ⟨hb, hab⟩ := h hwf
  obtain ⟨hc, hbc⟩ := k hb
  exact ⟨hc, fun j => ⟨(hbc j).1.trans (hab j).1, (hbc j).2.trans (hab j).2⟩⟩

/-- The Rally r, but for packets sent again, on whichever paths. -/
def Rally.resent (r r' : Rally) : Prop := r' = { r with unacked := r'.unacked, paths := r'.paths } ∧ r.samePaths r' ∧
  r'.unacked.map (·.psn) = r.unacked.map (·.psn)

theorem Rally.resent.refl (r : Rally) : r.resent r := ⟨rfl, fun hwf => ⟨hwf, fun _ => ⟨rfl, rfl⟩⟩, rfl⟩

/-- The second machine is the first with the Rally's packets sent again. -/
def M.resent (s : M) (n : Nat) (r : Rally) (t : M) : Prop := s.served n (t.rally n) t ∧ r.resent (t.rally n)

section
variable (s : M) (n : Nat) (r : Rally)

theorem keepsResent_sendPkt (p : Pkt) (k : Nat) (retx : Bool) : Keeps (s.resent n r) (sendPkt n p k retx) := fun t ⟨ht, hr, hpaths, hnums⟩ => by
  obtain ⟨x, hsent, hsame, -⟩ := sendPkt_serves ht.wf n p k retx
  refine ⟨by rw [hsent.rally]; exact ht.trans hsent, ?_⟩
  rw [hsent.rally]
  exact ⟨by rw [hr], hpaths.trans hsame, hnums⟩

theorem keepsResent_tallied {a : Act Unit} (ha : ∀ t : M, t.wired (a t).2) : Keeps (s.resent n r) a := fun t ⟨ht, hr⟩ => by
  rw [M.resent, (ha t).rally]
  exact ⟨ht.wired (ha t), hr⟩

/-- A packet sent again keeps its number. -/
theorem keepsResent_retransmit (p : Pkt) : Keeps (s.resent n r) (retransmit n p) := by
  refine keeps_getThen fun t => ?_
  cases t.nextPath (t.rally n) (32 + p.body.length) (p.path + 1) with
  | none => exact keeps_pure _
  | some k =>
    refine keeps_bind (fun u ⟨hu, hr, hpaths, hnums⟩ => ?_) fun _ =>
      keeps_bind (keepsResent_tallied s n r fun _ => .setReg (.inr (by simp)) _) fun _ => ?_
    · have h := hu.updRally fun r => { r with unacked := r.unacked.map fun q =>
        if q.psn = p.psn then { q with path := k, sentAt := t.now, retxAt := some t.now } else q }
      refine ⟨by rw [h.rally]; exact h, ?_⟩
      rw [h.rally]
      refine ⟨by rw [hr], hpaths, Eq.trans ?_ hnums⟩
      rw [List.map_map]
      refine List.map_congr_left fun q _ => ?_
      simp only [Function.comp]
      split <;> rfl
    · cases hport : t.pathPort k with
      | none => exact keepsResent_sendPkt s n r _ _ _
      | some port =>
        exact keeps_bind (keepsResent_tallied s n r fun _ => (portCount_tallies (M.pathPort_lt hport) _ _ _).wired) fun _ =>
          keepsResent_sendPkt s n r _ _ _

end

/-- The time for an acknowledgement on a packet's path has passed, on a machine m. -/
def timeOut (m : M) (n : Nat) (p : Pkt) : Act Unit := do
  let r := m.rally n
  let port := (m.pathPort p.path).getD 0
  portCount port 0x286 1
  let k := (r.path p.path).touts + 1
  whenA (k == 2 && !(r.path p.path).suspect) (portCount port 0x290 1)
  updRally n fun r => r.setPath p.path fun q => { q with touts := k, suspect := q.suspect || decide (k ≥ 2) }
  retransmit n p

theorem timeOut_serves {s : M} (hw : s.wf = true) (n : Nat) (p : Pkt) (hpaths : Tab.wf PathSt.init (s.rally n).paths = true) :
    ∃ r, s.served n r (timeOut s n p s).2 ∧ (r.path p.path).touts = ((s.rally n).path p.path).touts + 1 ∧
      (r.path p.path).suspect = (((s.rally n).path p.path).suspect || decide (1 ≤ ((s.rally n).path p.path).touts)) ∧
      r.unacked.map (·.psn) = (s.rally n).unacked.map (·.psn) ∧ r.msgs = (s.rally n).msgs := by
  have hport := s.pathPort_getD_lt p.path
  let f : PathSt → PathSt := fun q => { q with
    touts := ((s.rally n).path p.path).touts + 1, suspect := q.suspect || decide (((s.rally n).path p.path).touts + 1 ≥ 2) }
  have hcounts : s.wired (whenA (((s.rally n).path p.path).touts + 1 == 2 && !((s.rally n).path p.path).suspect)
      (portCount ((s.pathPort p.path).getD 0) 0x290 1) (portCount ((s.pathPort p.path).getD 0) 0x286 1 s).2).2 :=
    keeps_whenA (P := s.wired) (fun _ h => h.trans (portCount_tallies hport _ _ _).wired) _ (portCount_tallies hport _ _ _).wired
  rw [timeOut, run_bind, run_bind, run_bind]
  generalize (whenA (((s.rally n).path p.path).touts + 1 == 2 && !((s.rally n).path p.path).suspect)
    (portCount ((s.pathPort p.path).getD 0) 0x290 1) (portCount ((s.pathPort p.path).getD 0) 0x286 1 s).2).2 = t at hcounts ⊢
  have hmarked := ((M.served.refl hw n).wired hcounts).updRally fun r => r.setPath p.path f
  obtain ⟨hserved, hr, hsame, hnums⟩ := keepsResent_retransmit s n ((s.rally n).setPath p.path f) p _
    ⟨by rw [hmarked.rally]; exact hmarked, by rw [hmarked.rally]; exact .refl _⟩
  have hwfp : Tab.wf PathSt.init ((s.rally n).setPath p.path f).paths = true := Tab.wf_put _ _ _ _ hpaths
  obtain ⟨htouts, hsuspect⟩ := (hsame hwfp).2 p.path
  rw [Rally.setPath_path hpaths, if_pos rfl] at htouts hsuspect
  refine ⟨_, hserved, htouts, hsuspect.trans ?_, hnums, (congrArg Rally.msgs hr :)⟩
  simp only [f, ge_iff_le, Nat.reduceLeDiff]

theorem exec_retransmitTimeout {s : State} (hl : s.m.board.live = true) (n psn now : Nat) : exec (.retransmitTimeout n psn now) s = s.becomes
    (match (s.m.rally n).unacked.find? (·.psn = psn) with
      | none => s.m.atTime now
      | some p => (whenA ((s.m.rally n).out == 2 && decide ((s.m.atTime now).now ≥ p.sentAt + s.m.rto ((s.m.rally n).path p.path)))
          (timeOut (s.m.atTime now) n p) (s.m.atTime now)).2) := by
  rw [exec, execRetransmitTimeout, State.doing_live s _ hl, run_bind, run_bind, run_get]
  show s.becomes ((match (s.m.rally n).unacked.find? (·.psn = psn) with | none => _ | some p => _ : Act Unit) _).2 = _
  cases (s.m.rally n).unacked.find? (·.psn = psn) <;> rfl

/-! ## Probes (R267, R268) -/

/-- A PROBE goes out on its path, and nothing else happens but a count. -/
theorem sendProbe_probes (s : M) (n : Nat) {k p : Nat} (hk : s.pathPort k = some p) : s.wired (sendProbe n k s).2 ∧
    (s.transmits p → Output.mirzu p (s.frame p n 0 true (s.header 6 0 n 0 0 0 0 k 0 0)) ∈ (sendProbe n k s).2.outs) := by
  have hp := M.pathPort_lt hk
  rw [sendProbe, run_bind, run_get]
  dsimp only
  rw [hk]
  dsimp only
  rw [run_bind]
  have hcount : s.tallied (whenA (s.portUp p) (portCount p 0x28A 1) s).2 :=
    keeps_whenA (P := s.tallied) (fun _ h => h.trans (portCount_tallies hp _ _ _)) _ (.refl s)
  generalize (whenA (s.portUp p) (portCount p 0x28A 1) s).2 = t at hcount ⊢
  refine ⟨hcount.wired.trans (sendControl_frames _ _ _ _ _ _ _ _ _), fun hsend => ?_⟩
  have hsent := sendControl_sends ((hcount.pathPort k).trans hk) (hcount.wired.transmits.2 hsend) n 6 0 0 0 [] 0
  rw [List.append_nil, List.length_nil, hcount.header, hcount.frame hp] at hsent
  exact hsent

/-! ## Rates (R268) -/

/-- The rate of a path is adjusted, on a machine m. -/
def adjustPath (m : M) (n k : Nat) : Act Unit := do
  let p := m.adjustRate ((m.rally n).path k)
  whenA (decide (p.rate.getD 0 < m.pathRate (m.rally n) k)) (portCount ((m.pathPort k).getD 0) 0x28D 1)
  updRally n fun r => r.setPath k fun _ => p

theorem adjustPath_serves {s : M} (hw : s.wf = true) (n k : Nat) (hpaths : Tab.wf PathSt.init (s.rally n).paths = true) :
    ∃ r, s.served n r (adjustPath s n k s).2 ∧ r.path k = s.adjustRate ((s.rally n).path k) := by
  rw [adjustPath, run_bind]
  have hcount : s.wired (whenA (decide ((s.adjustRate ((s.rally n).path k)).rate.getD 0 < s.pathRate (s.rally n) k))
      (portCount ((s.pathPort k).getD 0) 0x28D 1) s).2 :=
    keeps_whenA (P := s.wired) (fun _ h => h.trans (portCount_tallies (s.pathPort_getD_lt k) _ _ _).wired) _ (.refl s)
  refine ⟨_, ((M.served.refl hw n).wired hcount).updRally fun r => r.setPath k fun _ => s.adjustRate ((s.rally n).path k), ?_⟩
  rw [Rally.setPath_path hpaths, if_pos rfl]

theorem exec_rateAdjust {s : State} (hl : s.m.board.live = true) (n k now : Nat) : exec (.rateAdjust n k now) s = s.becomes
    (whenA ((s.m.rally n).out == 2 && (s.m.pathPort k).isSome && ((s.m.rally n).path k).adjustable (s.m.atTime now).now)
      (adjustPath (s.m.atTime now) n k) (s.m.atTime now)).2 := by
  rw [exec, execRateAdjust, State.doing_live s _ hl]
  rfl

/-! ## Acknowledgement (R262) -/

/-- The receiving state once an ACK has gone out. -/
theorem sendAck_serves {s : M} (hw : s.wf = true) (n k ts : Nat) :
    s.served n { s.rally n with since := 0, recv := [], ce := [] } (sendAck n k ts s).2 ∧
    ∀ p, s.pathPort k = some p → s.transmits p → ∃ f, Output.mirzu p f ∈ (sendAck n k ts s).2.outs ∧
      let h := Hdr.parse f.packet
      h.typ = 1 ∧ h.dst = trunc 16 n ∧ h.b8 = trunc 32 (s.rally n).inAck ∧ h.b12 = trunc 32 ts ∧
        leNat (h.body.take 256) = trunc 2048 (s.rally n).sack := by
  have hseen := (M.served.refl hw n).updRally fun r => { r with since := 0, recv := [], ce := [] }
  have hcount : s.served n { s.rally n with since := 0, recv := [], ce := [] }
      (portCount ((s.pathPort k).getD 0) 0x287 1 (updRally n (fun r => { r with since := 0, recv := [], ce := [] }) s).2).2 :=
    hseen.wired (portCount_tallies (s.pathPort_getD_lt k) _ _ _).wired
  rw [sendAck, run_bind, run_get]
  dsimp only
  rw [run_bind, run_bind]
  generalize ((List.range 16).flatMap fun j => leBytes 2 (Tab.read (fun _ => 0) (s.rally n).recv j) ++
    leBytes 2 (Tab.read (fun _ => 0) (s.rally n).ce j)) = counts
  generalize (portCount ((s.pathPort k).getD 0) 0x287 1 (updRally n (fun r => { r with since := 0, recv := [], ce := [] }) s).2).2 = t at hcount ⊢
  refine ⟨hcount.wired (sendControl_frames _ _ _ _ _ _ _ _ _), fun p hp hsend => ?_⟩
  refine ⟨_, sendControl_sends ((hcount.pathPort k).trans hp) (hcount.transmits.2 hsend) n 1 0 ts 0 _ (s.rally n).inAck, ?_⟩
  dsimp only [M.frame]
  rw [M.parse_header]
  refine ⟨rfl, rfl, rfl, rfl, ?_⟩
  dsimp only
  rw [List.take_left' (length_leBytes 256 _), leNat_leBytes]
  rw [trunc, show 8 * 256 = 2048 from rfl]

/-! ## Giving up (R258) -/

/-- No owner of these messages hears of a loss. -/
theorem ownersLost_idle (n : Nat) {l : List OutMsg} (h : ∀ x ∈ l, x.owner = .none) (s : M) : (forA l (fun m => ownerLost n m.owner) s).2 = s := by
  induction l with
  | nil => rfl
  | cons x l ih =>
    rw [run_forA_cons, h x List.mem_cons_self]
    exact ih fun y hy => h y (List.mem_cons_of_mem x hy)

section
variable {s : M} (hw : s.wf = true) {n : Nat} (howners : ∀ x ∈ (s.rally n).msgs, x.owner = .none) (hins : (s.rally n).ins = [])
include hw howners hins

/-- Messages without owners, and no inbound ones, are lost without a word. -/
theorem loseOpen_serves : s.served n { s.rally n with msgs := (s.rally n).msgs.filter (·.mseq.isNone), unacked := [], stats := [], ins := [] }
    (loseOpen n s).2 := by
  have hdrop := (M.served.refl hw n).updRally fun r => { r with msgs := (s.rally n).msgs.filter (·.mseq.isNone), unacked := [], stats := [] }
  rw [loseOpen, run_bind, run_get]
  dsimp only
  rw [run_bind, run_bind]
  generalize (updRally n (fun r => { r with msgs := (s.rally n).msgs.filter (·.mseq.isNone), unacked := [], stats := [] }) s).2 = t at hdrop ⊢
  have hin : (t.rally n).ins = [] := by rw [hdrop.rally]; exact hins
  have hquiet : (loseInbound n t).2 = (updRally n (fun r => { r with ins := [] }) t).2 := by
    rw [loseInbound, run_bind, run_get]
    dsimp only
    rw [hin]
    rfl
  rw [ownersLost_idle n fun x hx => howners x (List.mem_of_mem_filter hx), hquiet]
  exact hdrop.updRally fun r => { r with ins := [] }

theorem loseAll_serves : s.served n { s.rally n with msgs := [], unacked := [], stats := [], ins := [] } (loseAll n s).2 := by
  have hopen := loseOpen_serves hw howners hins
  rw [loseAll, run_bind]
  generalize (loseOpen n s).2 = t at hopen ⊢
  rw [run_bind, run_get]
  dsimp only
  rw [run_bind, ownersLost_idle n fun x hx => howners x (List.mem_of_mem_filter (by rw [hopen.rally] at hx; exact hx))]
  exact hopen.updRally fun r => { r with msgs := [] }

end

/-- What a takeover hears changes no Rally, and no store. -/
theorem takeoverHeard_quiet (n : Nat) (answered : Bool) (s : M) : Keeps (fun t => t.trn.rallies = s.trn.rallies ∧ s.sameStores t ∧ t.cores = s.cores)
    (takeoverHeard n answered) := by
  have hreg : ∀ o f, Keeps (fun t : M => t.trn.rallies = s.trn.rallies ∧ s.sameStores t ∧ t.cores = s.cores) (upd o f) := fun _ _ _ h => h
  refine keeps_getThen fun t => keeps_whenA (keeps_bind (fun _ h => h) fun _ => keeps_bind (keeps_whenA (hreg _ _)) fun _ =>
    keeps_getThen fun u => keeps_whenA (keeps_bind (hreg _ _) fun _ v ⟨htrn, hstores, hcores⟩ => ?_))
  have h := keepsNoted_logAdd (still := True) (s := v) 0x30 172 0 0xFF 0xFF 0 (payload [(0, 2, u.node), (2, 1, 2)]) v (.refl True v)
  obtain ⟨hmem, hchk⟩ := h.stores trivial
  have hrallies := (congrArg (fun x : M => x.trn.rallies) h.rest :)
  have hcore := (congrArg M.cores h.rest :)
  exact ⟨hrallies.trans htrn, ⟨hmem.trans hstores.1, hchk.trans hstores.2⟩, hcore.trans hcores⟩

theorem failRally_fails {s : M} (hw : s.wf = true) (n : Nat) : let m := (failRally n s).2
    (m.rally n).out = 3 ∧ (m.rally n).inOpen = false ∧
      ((∀ x ∈ (s.rally n).msgs, x.owner = .none) → (s.rally n).ins = [] → s.sameStores m ∧ m.cores = s.cores ∧ (∀ k, k ≠ n → m.rally k = s.rally k) ∧
        (m.rally n).msgs = (if (s.rally n).out = 1 then [] else (s.rally n).msgs.filter (·.mseq.isNone)) ∧
        (m.rally n).unacked = [] ∧ (m.rally n).stats = []) := by
  let f : Rally → Rally := fun r => { r with out := 3, inOpen := false, takeover := false }
  have hact : (failRally n s).2 = (takeoverHeard n false (updRally n f (if (s.rally n).out = 1 then loseAll n s else loseOpen n s).2).2).2 := by
    rw [failRally, run_bind, run_get]
    dsimp only
    split <;> rfl
  have hwl : (if (s.rally n).out = 1 then loseAll n s else loseOpen n s).2.wf = true := by
    split
    · exact keepsWf_loseAll n s hw
    · exact keepsWf_loseOpen n s hw
  have hlost : (∀ x ∈ (s.rally n).msgs, x.owner = .none) → (s.rally n).ins = [] → s.served n { s.rally n with
      msgs := if (s.rally n).out = 1 then [] else (s.rally n).msgs.filter (·.mseq.isNone), unacked := [], stats := [], ins := [] }
      (if (s.rally n).out = 1 then loseAll n s else loseOpen n s).2 := fun ho hi => by
    split
    · exact loseAll_serves hw ho hi
    · exact loseOpen_serves hw ho hi
  intro m
  have hm : m = (failRally n s).2 := rfl
  clear_value m
  rw [hact] at hm
  generalize (if (s.rally n).out = 1 then loseAll n s else loseOpen n s).2 = t at hwl hlost hm
  have hclosed := (M.served.refl hwl n).updRally f
  obtain ⟨hrallies, hstores, hcores⟩ := takeoverHeard_quiet n false (updRally n f t).2 _ ⟨rfl, ⟨rfl, rfl⟩, rfl⟩
  rw [← hm] at hrallies hstores hcores
  have hrally : ∀ k, m.rally k = (updRally n f t).2.rally k := fun k => by rw [M.rally, hrallies, M.rally]
  have hn : m.rally n = f (t.rally n) := (hrally n).trans hclosed.rally
  refine ⟨by rw [hn], by rw [hn], fun ho hi => ?_⟩
  have hserved := (hlost ho hi).updRally f
  rw [(hrally n).trans hserved.rally]
  exact ⟨⟨hstores.1.trans hserved.stores.1, hstores.2.trans hserved.stores.2⟩, hcores.trans hserved.cores,
    fun k hk => (hrally k).trans (hserved.others k hk), rfl, rfl, rfl⟩

/-! ## Contexts loaded (R269) -/

/-- The context that gives up its place is on chip. -/
theorem M.onChip_evictee {s : M} {k : Nat} (h : s.evictee = some k) : (s.rally k).onChip = true := by
  have hmem : ∀ b : Option Nat, (∀ j, b = some j → (s.rally j).onChip = true) →
      ∀ l : List Nat, (∀ j ∈ l, (s.rally j).onChip = true) → ∀ j, l.foldl (fun b n => match b with
        | none => some n
        | some m => if (s.rally n).used < (s.rally m).used then some n else some m) b = some j → (s.rally j).onChip = true := by
    intro b hb l
    induction l generalizing b with
    | nil => exact fun _ => hb
    | cons x l ih =>
      intro hl
      refine ih _ (fun j hj => ?_) fun j hj => hl j (List.mem_cons_of_mem x hj)
      cases b with
      | none => exact Option.some.inj hj ▸ hl x List.mem_cons_self
      | some m =>
        dsimp only at hj
        split at hj
        · exact Option.some.inj hj ▸ hl x List.mem_cons_self
        · exact Option.some.inj hj ▸ hb m rfl
  exact hmem none (fun _ h => absurd h (by simp)) _ (fun j hj => (List.mem_filter.1 (List.mem_of_mem_filter hj)).2) k h

/-- Another context is spilled, where one can be, on a machine m. -/
def spillOther (m : M) : Act Unit := match m.evictee with
  | none => pure ()
  | some k => do
    updRally k fun r => { r with onChip := false, spilled := true }
    whenA (inFar (m.reg Reg.trnSpillBase)) (scramble (m.reg Reg.trnSpillBase + 2048 * k) 2048)

/-- The spilled context is read back, on a machine m; answers whether it is lost. -/
def readContext (m : M) (n : Nat) : Act (Bool × List Byte) :=
  if (m.rally n).spilled && inFar (m.reg Reg.trnSpillBase) then readBytes (m.reg Reg.trnSpillBase + 2048 * n) 2048 else pure (false, [])

/-- The context is on chip, the packets that waited proceed, and the Rally opens if it must. -/
def useContext (n : Nat) (bad : Bool) (q : List (Nat × Bool × List Byte)) : Act Unit := do
  updRally n fun r => { r with onChip := true, spilled := false, loading := false, missQ := []
                               out := if bad then 0 else r.out, inOpen := r.inOpen && !bad }
  touchCtx n
  forA q fun (port, ce, packet) => recvPacket port ce packet
  let m ← get
  let r := m.rally n
  whenA (r.wantsOpen && (r.out == 0 || r.out == 3)) (startOpen n)

theorem keepsTrn_writeBytes (x : Transport) (a : Nat) (bs : List Byte) : Keeps (fun t => t.trn = x) (writeBytes a bs) := fun t h =>
  ((congrArg M.trn (t.aboutNotes_noted.keeps_writeBytes a bs t (.refl False t)).rest :) : _).trans h

theorem keepsTrn_readBytes (x : Transport) (a n : Nat) : Keeps (fun t => t.trn = x) (readBytes a n) := fun t h =>
  ((congrArg M.trn (t.aboutNotes_noted.keeps_readBytes a n t (.refl False t)).rest :) : _).trans h

theorem keepsTrn_scramble (x : Transport) (a n : Nat) : Keeps (fun t => t.trn = x) (scramble a n) :=
  keeps_bind (keeps_mapA fun _ _ h => h) fun _ => keeps_bind (keepsTrn_writeBytes x _ _) fun _ => keeps_pure _

theorem spillOther_spills {s : M} (hw : s.wf = true) {k : Nat} (hk : s.evictee = some k) : let t := (spillOther s s).2
    t.wf = true ∧ t.rally k = { s.rally k with onChip := false, spilled := true } ∧ ∀ j, j ≠ k → t.rally j = s.rally j := by
  let f : Rally → Rally := fun r => { r with onChip := false, spilled := true }
  have hspill := (M.served.refl hw k).updRally f
  have htrn : (spillOther s s).2.trn = (updRally k f s).2.trn := by
    rw [spillOther, hk]
    exact keeps_whenA (keepsTrn_scramble (updRally k f s).2.trn _ _) (updRally k f s).2 rfl
  have hrally : ∀ j, (spillOther s s).2.rally j = (updRally k f s).2.rally j := fun j => by rw [M.rally, htrn, M.rally]
  refine ⟨?_, (hrally k).trans hspill.rally, fun j hj => (hrally j).trans (hspill.others j hj)⟩
  rw [spillOther, hk]
  exact keepsWf_bind (keepsWf_updRally _ _) (fun _ => keepsWf_whenA (keepsWf_scramble _ _)) s hw

theorem readContext_reads {s : M} (m : M) (hw : s.wf = true) (n : Nat) : (readContext m n s).2.wf = true ∧ (readContext m n s).2.trn = s.trn ∧
    ((m.rally n).spilled = false → (readContext m n s).1.1 = false) := by
  rw [readContext]
  split
  next h =>
    exact ⟨keepsWf_readBytes _ _ s hw, keepsTrn_readBytes s.trn _ _ s rfl, fun hs => absurd h (by simp [hs])⟩
  · exact ⟨hw, rfl, fun _ => rfl⟩

theorem useContext_serves {s : M} (hw : s.wf = true) (n : Nat) (bad : Bool) : ∃ r, s.served n r (useContext n bad [] s).2 ∧
    r.onChip = true ∧ r.loading = false ∧ r.spilled = false ∧ r.msgs = (s.rally n).msgs ∧
    (bad = false → (s.rally n).wantsOpen = true → (s.rally n).out = 0 ∨ (s.rally n).out = 3 → r.out = 1) := by
  have hload := ((M.served.refl hw n).updRally fun r => { r with
    onChip := true, spilled := false, loading := false, missQ := [], out := if bad then 0 else r.out, inOpen := r.inOpen && !bad }).touchCtx
  rw [useContext, run_bind, run_bind]
  generalize (touchCtx n _).2 = t at hload ⊢
  rw [run_bind, run_forA_nil, run_bind, run_get]
  dsimp only
  cases hc : (t.rally n).wantsOpen && ((t.rally n).out == 0 || (t.rally n).out == 3) with
  | true =>
    rw [run_whenA_true]
    obtain ⟨x, hopen⟩ := startOpen_serves hload.wf n
    rw [hload.rally] at hopen
    exact ⟨_, hload.trans hopen, rfl, rfl, rfl, rfl, fun _ _ _ => rfl⟩
  | false =>
    rw [run_whenA_false]
    refine ⟨_, hload, rfl, rfl, rfl, rfl, fun hb hwants ho => ?_⟩
    subst hb
    rw [hload.rally] at hc
    have : ((s.rally n).wantsOpen && ((s.rally n).out == 0 || (s.rally n).out == 3)) = true := by simp [hwants, ho]
    exact absurd this (by rw [show ((s.rally n).wantsOpen && ((s.rally n).out == 0 || (s.rally n).out == 3)) = false from hc]; simp)

theorem exec_contextMissDone {s : State} (hl : s.m.board.live = true) (n : Nat) : exec (.contextMissDone n) s = s.becomes
    (whenA (s.m.rally n).loading (whenA (decide (s.m.onChip.length < 1024) || s.m.evictee.isSome) do
      whenA (!decide (s.m.onChip.length < 1024)) (spillOther s.m)
      let (bad, _) ← readContext s.m n
      useContext n bad (s.m.rally n).missQ) s.m).2 := by
  rw [exec, execContextMissDone, State.doing_live s _ hl, run_bind, run_get]
  dsimp only
  congr 2
  cases (s.m.rally n).loading with
  | false => rfl
  | true =>
    cases decide (s.m.onChip.length < 1024) || s.m.evictee.isSome with
    | false => rfl
    | true =>
      cases decide (s.m.onChip.length < 1024) <;>
        simp only [run_whenA_true, run_bind, readContext, spillOther] <;> split <;> rfl

end Sys2Proof.Machine

/-! # Messages sent: posting, packets, retransmission, paths and contexts (R252 to R269) -/

namespace Sys2Proof.Machine

/-- The stores, the cores and every Rally but the peer's are as they were. -/
def M.quiet (s : M) (n : Nat) (t : M) : Prop := s.sameStores t ∧ t.cores = s.cores ∧ ∀ k, k ≠ n → t.rally k = s.rally k

theorem M.served.quiet {s t : M} {n : Nat} {r : Rally} (h : s.served n r t) : s.quiet n t := ⟨h.stores, h.cores, h.others⟩

theorem M.quiet_of_atTime {s t : M} {n now : Nat} (h : (s.atTime now).quiet n t) : s.quiet n t := h

section
variable {s : State} (hl : s.m.board.live = true)
include hl

theorem exec_messagePost (n cls tag : Nat) (pl : List Byte) : exec (.messagePost n cls tag pl) s =
    s.becomes (postMessage n { cls := cls, tag := tag, lines := messageLines 0 pl [] } s.m).2 := by
  rw [exec, execMessagePost, State.doing_live s _ hl]

theorem exec_openResend (n us : Nat) : exec (.openResend n us) s = s.becomes (whenA ((s.m.rally n).out == 1 &&
    decide (us ≥ min 10000 (bits (s.m.reg Reg.trnTiming) 15 8 * 2 ^ (s.m.rally n).openSends))) (sendOpen n) s.m).2 := by
  rw [exec, execOpenResend, State.doing_live s _ hl]
  rfl

theorem exec_suspectProbe (n k : Nat) : exec (.suspectProbe n k) s = s.becomes (whenA ((s.m.rally n).out == 2 && ((s.m.rally n).path k).suspect)
    (sendProbe n k) s.m).2 := by
  rw [exec, execSuspectProbe, State.doing_live s _ hl]
  rfl

theorem exec_idlePathProbe (n k us : Nat) : exec (.idlePathProbe n k us) s = s.becomes (whenA ((s.m.rally n).out == 2 &&
    !((s.m.rally n).path k).suspect && decide (us ≥ 100)) (sendProbe n k) s.m).2 := by
  rw [exec, execIdlePathProbe, State.doing_live s _ hl]
  rfl

theorem exec_ackDelayExpiry (n : Nat) : exec (.ackDelayExpiry n) s = s.becomes (whenA ((s.m.rally n).inOpen && (s.m.rally n).since != 0)
    (sendAck n (s.m.rally n).trig.1 (s.m.rally n).trig.2) s.m).2 := by
  rw [exec, execAckDelayExpiry, State.doing_live s _ hl]
  rfl

theorem exec_rallyGiveup (n ms : Nat) : exec (.rallyGiveup n ms) s = s.becomes (whenA (decide (ms ≥ bits (s.m.reg Reg.trnTiming) 31 16) &&
    ((s.m.rally n).out == 1 || ((s.m.rally n).out == 2 && !(s.m.rally n).unacked.isEmpty))) (failRally n) s.m).2 := by
  rw [exec, execRallyGiveup, State.doing_live s _ hl]
  rfl

end

theorem State.stays_of {s : State} {o : Out} {c : Bool} {a : Act Unit} {t : M} (h : o = s.becomes (whenA c a t).2) (hc : c = false) :
    o = s.becomes t := by
  rw [h, hc]
  rfl

/-- A command of which the condition does not hold changes nothing. -/
theorem State.idle_of {s : State} {o : Out} {c : Bool} {a : Act Unit} (h : o = s.becomes (whenA c a s.m).2) (hc : c = false) : o = .next s :=
  State.stays_of h hc

theorem State.runs_of {s : State} {o : Out} {c : Bool} {a : Act Unit} {t : M} (h : o = s.becomes (whenA c a t).2) (hc : c = true) :
    o = s.becomes (a t).2 := by
  rw [h, hc, run_whenA_true]

/-- A context that is loaded, in the place of another where there is no room. -/
theorem contextMissDone_loads {s : State} (hl : s.m.board.live = true) (hw : s.m.wf = true) {n : Nat} (hload : (s.m.rally n).loading = true)
    (hmiss : (s.m.rally n).missQ = []) (hchip : (s.m.rally n).onChip = false)
    (hgo : decide (s.m.onChip.length < 1024) = true ∨ s.m.evictee ≠ none) : ∃ m, exec (.contextMissDone n) s = s.becomes m ∧
      (m.rally n).onChip = true ∧ (m.rally n).loading = false ∧ (m.rally n).spilled = false ∧ (m.rally n).msgs = (s.m.rally n).msgs ∧
      ((s.m.rally n).spilled = false → (s.m.rally n).wantsOpen = true → (s.m.rally n).out = 0 ∨ (s.m.rally n).out = 3 → (m.rally n).out = 1) ∧
      (decide (s.m.onChip.length < 1024) = true → ∀ k, k ≠ n → m.rally k = s.m.rally k) ∧
      (decide (s.m.onChip.length < 1024) = false → ∀ k, s.m.evictee = some k → (m.rally k).onChip = false ∧ (m.rally k).spilled = true) := by
  have hrun := exec_contextMissDone hl n
  have hgo' : (decide (s.m.onChip.length < 1024) || s.m.evictee.isSome) = true := by
    rcases hgo with h | h
    · simp [h]
    · simp [Option.isSome_iff_ne_none.2 h]
  rw [hload, run_whenA_true, hgo', run_whenA_true, run_bind, run_bind, hmiss] at hrun
  have hspill : ∃ t, (whenA (!decide (s.m.onChip.length < 1024)) (spillOther s.m) s.m).2 = t ∧ t.wf = true ∧ t.rally n = s.m.rally n ∧
      (decide (s.m.onChip.length < 1024) = true → ∀ k, t.rally k = s.m.rally k) ∧
      (decide (s.m.onChip.length < 1024) = false → ∀ k, s.m.evictee = some k → k ≠ n ∧ (t.rally k).onChip = false ∧ (t.rally k).spilled = true) := by
    cases hroom : decide (s.m.onChip.length < 1024) with
    | true => exact ⟨_, rfl, hw, rfl, fun _ _ => rfl, fun h => absurd h (by simp)⟩
    | false =>
      obtain ⟨k, hk⟩ := Option.ne_none_iff_exists'.1 (hgo.resolve_left (by simp [hroom]))
      obtain ⟨hwf, hself, hother⟩ := spillOther_spills hw hk
      have hne : k ≠ n := fun h => absurd (M.onChip_evictee hk) (by rw [h, hchip]; simp)
      refine ⟨_, rfl, hwf, hother n hne.symm, fun h => absurd h (by simp), fun _ j hj => ?_⟩
      obtain rfl : k = j := Option.some.inj (hk.symm.trans hj)
      exact ⟨hne, (congrArg Rally.onChip hself :), (congrArg Rally.spilled hself :)⟩
  obtain ⟨t, ht, hwf, hself, hroom, hnone⟩ := hspill
  rw [ht] at hrun
  obtain ⟨hwr, htrn, hgood⟩ := readContext_reads s.m hwf n
  have hrally : ∀ k, (readContext s.m n t).2.rally k = t.rally k := fun k => by rw [M.rally, htrn, M.rally]
  obtain ⟨r, hserved, hon, hloaded, hback, hmsgs, hopens⟩ := useContext_serves hwr n (readContext s.m n t).1.1
  rw [hrally, hself] at hmsgs hopens
  refine ⟨_, hrun, ?_⟩
  simp only [hserved.rally]
  refine ⟨hon, hloaded, hback, hmsgs, fun hs => hopens (hgood hs), fun h k hk => ?_, fun h k hk => ?_⟩
  · exact (hserved.others k hk).trans ((hrally k).trans (hroom h k))
  · obtain ⟨hne, hoff, hspilled⟩ := hnone h k hk
    rw [hserved.others k hne, hrally]
    exact ⟨hoff, hspilled⟩

/-- Settles O54: what one command does to a Rally, traced through contexts, frames and paths. -/
theorem messagesSent : Obligations.MessagesSent := by
  intro s n hl hw r at' sends quiet probed
  have hq : ∀ {m : M} {x : Rally}, s.m.served n x m → quiet m := fun h => h.quiet
  have hqt : ∀ {now : Nat} {m : M} {x : Rally}, (s.m.atTime now).served n x m → quiet m := fun h => h.quiet
  have hwt := M.wf_atTime hw
  have hprobed : ∀ {c : Instr} {k : Nat}, exec c s = s.becomes (sendProbe n k s.m).2 → probed c k := fun hrun p hp => by
    obtain ⟨hwired, hsent⟩ := sendProbe_probes s.m n hp
    exact ⟨_, hrun, hwired.trn, hwired.stores, hwired.cores, hsent⟩
  refine ⟨fun t f d a b c l k cls tag body => ?_, fun cls tag pl => ⟨fun hstop => ?_, fun hgo => ?_⟩, fun now => ?_, fun us => ?_, fun psn now => ?_,
    fun k => ⟨fun hout hsus => ?_, fun hno => ?_, fun us hus hout hsus => ?_, fun us hno => ?_⟩, fun k now => ?_, fun hno => ?_, fun hin hsince => ?_,
    fun ms => ?_, ?_⟩
  · rw [M.parse_header]
    exact ⟨rfl, rfl, rfl, rfl, rfl, rfl, rfl, rfl, rfl, rfl, rfl, rfl, rfl, rfl, rfl⟩
  · rw [exec_messagePost hl, postMessage, run_bind, run_get]
    dsimp only
    rw [hstop]
    rfl
  · obtain ⟨x, hserved, hmsgs, hopens, hstays⟩ := postMessage_posts hw n hgo { cls := cls, tag := tag, lines := messageLines 0 pl [] }
    refine ⟨_, exec_messagePost hl n cls tag pl, hq hserved, ?_⟩
    rw [hserved.rally]
    exact ⟨hmsgs, hopens, hstays⟩
  · intro path
    refine ⟨fun hidle hctx => ?_, fun hready hchip hload hwants => ?_, fun p r' k port hout hwin hchip hpkt hpath hturn hport => ?_⟩
    · rw [exec_packetSend hl, resumePosted_idle (s := s.m.atTime now) hctx, sendNext_idle]
      · rfl
      · rcases hidle with h | ⟨p, r', hp, h⟩
        · exact .inl (M.nextSend_closed h)
        · by_cases hc : r.out ≠ 2 ∨ r.windowOpen = false ∨ r.onChip = false
          · exact .inl (M.nextSend_closed (hc.imp_right (Or.imp_right .inl)))
          · simp only [not_or, ne_eq, not_not, Bool.not_eq_false] at hc
            have hnext := M.nextSend_open (s := s.m.atTime now) hc.1 hc.2.1 hc.2.2 hp
            rcases h with h | ⟨k, h, hturn⟩
            · exact .inl (hnext.trans (congrArg (Option.map _) h))
            · exact .inr ⟨p, r', k, hnext.trans (congrArg (Option.map _) h), hturn⟩
    · obtain ⟨x, hposted, hfree, hspilled⟩ := resumePosted_serves (hwt now) hready hchip hload hwants
      obtain ⟨y, hsent, hsame⟩ := sendNext_serves hposted.wf n
      refine ⟨_, exec_packetSend hl n now, hqt (hposted.trans hsent), fun hs hroom => ?_, fun hs hroom => ?_⟩
      · rw [hsent.rally, hsame, hposted.rally]
        exact hfree hs hroom
      · obtain ⟨hx, hcount⟩ := hspilled hs hroom
        have hstill : sendNext n (resumePosted n (s.m.atTime now)).2 = (false, (resumePosted n (s.m.atTime now)).2) := by
          refine sendNext_idle (.inl (M.nextSend_closed (.inr (.inr (.inl ?_)))))
          rw [hposted.rally, hx]
          exact hchip
        rw [hstill]
        exact ⟨hposted.rally.trans hx, hcount⟩
    · have hnext : (s.m.atTime now).nextSend n = some (p, r', k) :=
        (M.nextSend_open (s := s.m.atTime now) hout hwin hchip hpkt).trans (congrArg (Option.map _) hpath)
      obtain ⟨x, rr, u, hserved, hframe⟩ := sendNext_sends (hwt now) hnext hpkt hturn
      have hrun := exec_packetSend hl n now
      rw [resumePosted_idle (s := s.m.atTime now) (.inr (.inl hchip))] at hrun
      refine ⟨_, hrun, hqt hserved, ?_⟩
      rw [hserved.rally]
      exact ⟨rfl, rfl, rfl, rfl, rfl, fun hsend => hframe port hport hsend⟩
  · intro due
    refine ⟨fun hdue => ?_, fun hdue => ?_⟩
    · obtain ⟨x, hserved⟩ := sendOpen_serves hw n
      refine ⟨_, State.runs_of (exec_openResend hl n us) (by simpa [due] using hdue), hq hserved, ?_⟩
      rw [hserved.rally]
      exact ⟨rfl, hdue.1, rfl⟩
    · exact State.idle_of (exec_openResend hl n us) (Bool.eq_false_iff.2 fun hc => hdue (by simpa [due] using hc))
  · intro due
    refine ⟨fun hnone => ?_, fun p hp => ⟨fun hdue => ?_, fun hdue hpaths => ?_⟩⟩
    · rw [exec_retransmitTimeout hl, show (s.m.rally n).unacked.find? (·.psn = psn) = none from hnone]
      rfl
    · have hrun := exec_retransmitTimeout hl n psn now
      rw [show (s.m.rally n).unacked.find? (·.psn = psn) = some p from hp] at hrun
      refine State.stays_of hrun (Bool.eq_false_iff.2 fun hc => hdue ?_)
      obtain ⟨hout, htime⟩ := Bool.and_eq_true_iff.1 hc
      exact ⟨beq_iff_eq.1 hout, of_decide_eq_true htime⟩
    · obtain ⟨x, hserved, htouts, hsuspect, hnums, hmsgs⟩ := timeOut_serves (hwt now) n p hpaths
      have hrun := exec_retransmitTimeout hl n psn now
      rw [show (s.m.rally n).unacked.find? (·.psn = psn) = some p from hp] at hrun
      refine ⟨_, State.runs_of hrun (Bool.and_eq_true_iff.2 ⟨beq_iff_eq.2 hdue.1, decide_eq_true hdue.2⟩), hqt hserved, ?_⟩
      rw [hserved.rally]
      exact ⟨htouts, hsuspect, hnums, hmsgs⟩
  · exact hprobed (State.runs_of (exec_suspectProbe hl n k) (by simpa using ⟨hout, hsus⟩))
  · refine State.idle_of (exec_suspectProbe hl n k) (Bool.eq_false_iff.2 fun hc => ?_)
    obtain ⟨hout, hsus⟩ : r.out = 2 ∧ (r.path k).suspect = true := by simpa using hc
    rcases hno with h | h
    · exact h hout
    · exact absurd hsus (by simp [h])
  · exact hprobed (State.runs_of (exec_idlePathProbe hl n k us) (by simpa using ⟨⟨hout, hsus⟩, hus⟩))
  · refine State.idle_of (exec_idlePathProbe hl n k us) (Bool.eq_false_iff.2 fun hc => ?_)
    obtain ⟨⟨hout, hsus⟩, hus⟩ : (r.out = 2 ∧ (r.path k).suspect = false) ∧ 100 ≤ us := by simpa using hc
    rcases hno with h | h | h
    · omega
    · exact h hout
    · exact absurd hsus (by simp [h])
  · intro c p go
    refine ⟨fun hno => ?_, fun hgo hpaths => ?_⟩
    · refine State.stays_of (exec_rateAdjust hl n k now) (Bool.eq_false_iff.2 fun hc => hno ?_)
      obtain ⟨hc, hadj⟩ := Bool.and_eq_true_iff.1 hc
      obtain ⟨hout, hport⟩ := Bool.and_eq_true_iff.1 hc
      exact ⟨beq_iff_eq.1 hout, Option.isSome_iff_ne_none.1 hport, hadj⟩
    · obtain ⟨x, hserved, hx⟩ := adjustPath_serves (hwt now) n k hpaths
      obtain ⟨hout, hport, hadj⟩ := hgo
      refine ⟨_, State.runs_of (exec_rateAdjust hl n k now) (Bool.and_eq_true_iff.2 ⟨Bool.and_eq_true_iff.2 ⟨beq_iff_eq.2 hout,
        Option.isSome_iff_ne_none.2 hport⟩, hadj⟩), hqt hserved, ?_⟩
      rw [hserved.rally, hx]
      refine ⟨rfl, rfl, rfl, rfl, rfl, fun hce => ?_, fun hce hslow => ?_, fun hce hslow => ?_⟩
      · exact congrArg some (if_pos hce)
      · exact congrArg some ((if_neg hce.not_gt).trans (if_pos hslow))
      · exact congrArg some ((if_neg hce.not_gt).trans (if_neg hslow))
  · refine State.idle_of (exec_ackDelayExpiry hl n) (Bool.eq_false_iff.2 fun hc => ?_)
    obtain ⟨hin, hsince⟩ : r.inOpen = true ∧ ¬ r.since = 0 := by simpa using hc
    rcases hno with h | h
    · exact absurd hin (by simp [h])
    · exact hsince h
  · obtain ⟨hserved, hframe⟩ := sendAck_serves hw n (s.m.rally n).trig.1 (s.m.rally n).trig.2
    exact ⟨_, State.runs_of (exec_ackDelayExpiry hl n) (by simpa using ⟨hin, hsince⟩), hq hserved, hserved.rally, hframe⟩
  · intro due
    refine ⟨fun hdue => ?_, fun hdue => ?_⟩
    · exact State.idle_of (exec_rallyGiveup hl n ms) (Bool.eq_false_iff.2 fun hc => hdue (by simpa [due] using hc))
    · obtain ⟨hout, hclosed, hrest⟩ := failRally_fails hw n
      refine ⟨_, State.runs_of (exec_rallyGiveup hl n ms) (by simpa [due] using hdue), hout, hclosed, fun ho hi => ?_⟩
      obtain ⟨hstores, hcores, hothers, hmsgs, hunacked, hstats⟩ := hrest ho hi
      exact ⟨⟨hstores, hcores, hothers⟩, hmsgs, hunacked, hstats⟩
  · intro room
    refine ⟨fun hno => ?_, fun hload hmiss hchip hgo => ?_⟩
    · refine (exec_contextMissDone hl n).trans ?_
      rcases hno with h | ⟨hroom, he⟩
      · rw [show (s.m.rally n).loading = false from h]
        rfl
      · rw [show decide (s.m.onChip.length < 1024) = false from hroom, he]
        cases (s.m.rally n).loading <;> rfl
    · exact contextMissDone_loads hl hw hload hmiss hchip hgo

end Sys2Proof.Machine

/-! # What a Relay engine's chunks leave as they were (R284 to R293) -/

namespace Sys2Proof.Machine

namespace AboutAborts

variable {P : M → Prop} (hP : AboutAborts P) (hev : ∀ e code k, Keeps P (relayEvent e code k))
include hP

/-! ## Staging -/

theorem keeps_stage (e : Nat) (c : Coll) (buf : Nat) (body : List Byte) (bad : List Nat) : Keeps P (stage e c buf body bad) :=
  keeps_forA fun ⟨data, i⟩ s h => by
    dsimp only
    rw [run_modify]
    split
    · exact hP.putLine _ _ _ h
    · exact h

theorem keeps_stageIn (e : Nat) (c : Coll) (leg rank : Nat) (k : Chunk) (body : List Byte) (bad : List Nat) :
    Keeps P (stageIn e c leg rank k body bad) := hP.keeps_stage _ _ _ _ _

theorem keeps_stageOut (e : Nat) (c : Coll) (leg rank : Nat) (k : Chunk) (body : List Byte) (bad : List Nat) :
    Keeps P (stageOut e c leg rank k body bad) := hP.keeps_stage _ _ _ _ _

theorem keeps_stageDown (e : Nat) (c : Coll) (k : Chunk) (body : List Byte) (bad : List Nat) : Keeps P (stageDown e c k body bad) := by
  unfold stageDown
  split
  · exact keeps_pure _
  · exact hP.keeps_stageOut _ _ _ _ _ _ _

theorem keeps_accumulate (e entry step bits : Nat) : Keeps P (accumulate e entry step bits) := hP.keeps_updEng _ _

theorem keeps_chunkDone (e : Nat) (c : Coll) (legs : List Nat) (g flags : Nat) (poison : Bool) : Keeps P (chunkDone e c legs g flags poison) :=
  hP.keeps_updColl _ _ _ _

theorem keeps_noteBlock (e : Nat) (c : Coll) (h : Line0) (drop : Nat) : Keeps P (noteBlock e c h drop) := hP.keeps_updColl _ _ _ _

theorem keeps_storeExact (isL dstL : Bool) (a : ExAcc) : Keeps P (storeExact isL dstL a) :=
  keeps_ite (keeps_ite (keeps_pure _) (keeps_bind (hP.keeps_freeVal _) fun _ => keeps_pure _)) (keeps_ite (keeps_pure _) (keeps_pure _))

theorem keeps_readContribs (t : TD) (isL : Bool) (x n : Nat) : Keeps P (readContribs t isL x n) :=
  keeps_bind (hP.keeps_readLines _) fun _ => keeps_getThen fun _ => keeps_pure _

theorem keeps_ownContribs (c : Coll) (k : Chunk) : Keeps P (ownContribs c k) :=
  keeps_bind (hP.keeps_readContribs _ _ _ _) fun _ => keeps_pure _

/-! ## Credit and sending -/

include hev

theorem keeps_grant (e group seq rank leg : Nat) : Keeps P (grant e group seq rank leg) := keeps_getThen fun s => by
  cases s.coll e group seq with
  | none => exact keeps_pure _
  | some c => exact keeps_whenA (keeps_bind (hP.keeps_updColl _ _ _ _) fun _ => hP.keeps_sendControlMsg (hev e) _ _ _ _ _ _ _ _ _)

theorem keeps_releaseKids (e : Nat) (c : Coll) (k : Chunk) : Keeps P (releaseKids e c k) :=
  keeps_ite (keeps_forA fun _ => hP.keeps_grant hev _ _ _ _ _) (keeps_forA fun _ => hP.keeps_grant hev _ _ _ _ _)

theorem keeps_sendChunk (e : Nat) (c : Coll) (r : Ready) : Keeps P (sendChunk e c r) :=
  keeps_bind (hP.keeps_updColl _ _ _ _) fun _ => keeps_bind (hev _ _ _) fun _ => keeps_bind (hev _ _ _) fun _ => hP.keeps_postMessage _ _

theorem keeps_sendReady (e group seq n : Nat) : Keeps P (sendReady e group seq n) := by
  induction n with
  | zero => exact keeps_pure _
  | succ n ih =>
    rw [sendReady]
    refine keeps_getThen fun s => ?_
    cases s.coll e group seq with
    | none => exact keeps_pure _
    | some c =>
      dsimp only
      cases c.ready.find? fun r => c.nextFor r.rank r.leg r.g && c.creditFor r.rank r.leg r.g with
      | none => exact keeps_pure _
      | some r =>
        refine keeps_bind (hP.keeps_sendChunk hev e c r) fun _ => keeps_ite ?_ ih
        cases c.chunk r.g with
        | none => exact ih
        | some k => exact keeps_bind (keeps_whenA (hP.keeps_releaseKids hev _ _ _)) fun _ => ih

theorem keeps_makeReady (e : Nat) (c : Coll) (rs : List Ready) : Keeps P (makeReady e c rs) :=
  keeps_bind (hP.keeps_updColl _ _ _ _) fun _ => hP.keeps_sendReady hev _ _ _ _

/-! ## Chunks summed and written -/

theorem keeps_malformed (e : Nat) (c : Coll) (rank digest : Nat) : Keeps P (malformed e c rank digest) :=
  keeps_bind (hP.keeps_logMismatch _ _ _ _) fun _ => hP.keeps_failColl (hev e) _ _ _ _

theorem keeps_roundOut (e : Nat) (c : Coll) (k : Chunk) (sum : Nat → Option ExAcc) : Keeps P (roundOut e c k sum) := by
  have hmark : ∀ v : Nat, Keeps P (whenA c.cd.verdict do
      let s ← get
      match s.verdictEntry c.group with
      | none => pure ()
      | some n => accumulate e n c.step v) := fun v => keeps_whenA (keeps_getThen fun s => by
    cases s.verdictEntry c.group with
    | none => exact keeps_pure _
    | some n => exact hP.keeps_accumulate _ _ _ _)
  have hdown : ∀ b body bad rs, Keeps P (whenA b do stageDown e c k body bad; makeReady e c rs) := fun _ _ _ _ =>
    keeps_whenA (keeps_bind (hP.keeps_stageDown _ _ _ _ _) fun _ => hP.keeps_makeReady hev _ _ _)
  refine keeps_getThen fun s => keeps_ite ?_ ?_
  · exact keeps_bind (hmark _) fun _ => keeps_bind (keeps_whenA (hev _ _ _)) fun _ => keeps_bind (keeps_mapA fun _ => hP.keeps_storeExact _ _ _)
      fun _ => keeps_bind (hP.keeps_writePlain _ _ _ _ _) fun _ => keeps_bind (hP.keeps_chunkDone _ _ _ _ _ _) fun _ => hdown _ _ _ _
  · exact keeps_bind (hmark _) fun _ => keeps_bind (keeps_whenA (hev _ _ _)) fun _ => keeps_bind (hP.keeps_writePlain _ _ _ _ _)
      fun _ => keeps_bind (hP.keeps_chunkDone _ _ _ _ _ _) fun _ => hdown _ _ _ _

theorem keeps_rootChunk (e : Nat) (c : Coll) (k : Chunk) (sums : List (Option ExAcc)) : Keeps P (rootChunk e c k sums) :=
  keeps_bind (hev _ _ _) fun _ => keeps_bind (hev _ _ _) fun _ => keeps_ite
    (keeps_bind (hP.keeps_updColl _ _ _ _) fun _ => keeps_forA fun _ => hP.keeps_roundOut hev _ _ _ _) (hP.keeps_roundOut hev _ _ _ _)

theorem keeps_summed (e : Nat) (c : Coll) (k : Chunk) (sums : List (Option ExAcc)) : Keeps P (summed e c k sums) := by
  unfold summed
  cases c.parent k.shard c.me with
  | none => exact keeps_bind (hP.keeps_rootChunk hev _ _ _ _) fun _ => hP.keeps_releaseKids hev _ _ _
  | some p =>
    exact keeps_bind (hev _ _ _) fun _ => keeps_bind (hP.keeps_chunkDone _ _ _ _ _ _) fun _ =>
      keeps_bind (hP.keeps_stageOut _ _ _ _ _ _ _) fun _ => hP.keeps_makeReady hev _ _ _

theorem keeps_rootBlock (e : Nat) (c : Coll) (k : Chunk) (n drop : Nat) (body : List Byte) (bad : List Nat) : Keeps P (rootBlock e c k n drop body bad) :=
  keeps_bind (hP.keeps_writePlain _ _ _ _ _) fun _ => keeps_bind (hP.keeps_chunkDone _ _ _ _ _ _) fun _ =>
    keeps_bind (hP.keeps_stageDown _ _ _ _ _) fun _ => hP.keeps_makeReady hev _ _ _

/-! ## Chunks received -/

theorem keeps_reduceChunk (e : Nat) (c : Coll) (rank : Nat) (h : Line0) (body : List Byte) (bad : List Nat) :
    Keeps P (reduceChunk e c rank h body bad) := by
  refine keeps_bind (hev _ _ _) fun _ => keeps_ite (hP.keeps_malformed hev _ _ _ _) ?_
  cases c.chunk h.index with
  | none => exact keeps_pure _
  | some k =>
    refine keeps_ite (keeps_ite (hP.keeps_malformed hev _ _ _ _) (keeps_bind (hP.keeps_stageIn _ _ _ _ _ _ _) fun _ => ?_)) ?_
    · cases c.parent 0 c.me with
      | some p => exact keeps_bind (hP.keeps_stageOut _ _ _ _ _ _ _) fun _ => hP.keeps_makeReady hev _ _ _
      | none =>
        exact keeps_bind (hP.keeps_noteBlock _ _ _ _) fun _ => keeps_bind (hP.keeps_rootBlock hev _ _ _ _ _ _ _) fun _ =>
          hP.keeps_releaseKids hev _ _ _
    · dsimp only
      cases c.readReduce k rank (body.take h.bytes) bad with
      | none => exact hP.keeps_malformed hev _ _ _ _
      | some l =>
        refine keeps_ite (keeps_pure _) (keeps_bind (hP.keeps_stageIn _ _ _ _ _ _ _) fun _ => keeps_bind (hP.keeps_updColl _ _ _ _) fun _ =>
          keeps_whenA (keeps_bind (hP.keeps_ownContribs _ _) fun _ => keeps_getThen fun s => ?_))
        cases s.coll e c.group c.seq with
        | none => exact keeps_pure _
        | some c => exact hP.keeps_summed hev _ _ _ _

theorem keeps_broadcastChunk (e : Nat) (c : Coll) (rank : Nat) (h : Line0) (body : List Byte) (bad : List Nat) :
    Keeps P (broadcastChunk e c rank h body bad) := by
  refine keeps_bind (hev _ _ _) fun _ => keeps_ite (hP.keeps_malformed hev _ _ _ _) ?_
  cases c.chunk h.index with
  | none => exact keeps_pure _
  | some k =>
    have hfinish : ∀ p rs, Keeps P (do
        chunkDone e c [1] k.g (trunc 7 h.flags) p
        makeReady e c rs
        whenA rs.isEmpty (grant e c.group c.seq rank 1)) := fun p rs =>
      keeps_bind (hP.keeps_chunkDone _ _ _ _ _ _) fun _ => keeps_bind (hP.keeps_makeReady hev _ _ _) fun _ =>
        keeps_whenA (hP.keeps_grant hev _ _ _ _ _)
    refine keeps_ite (keeps_pure _) (keeps_ite ?_ (keeps_ite (hP.keeps_malformed hev _ _ _ _) ?_))
    · dsimp only
      cases decodeCarries c.isL bad k.n 0 (body.take h.bytes) with
      | none => exact hP.keeps_malformed hev _ _ _ _
      | some l =>
        exact keeps_bind (hP.keeps_stageIn _ _ _ _ _ _ _) fun _ => keeps_bind (keeps_mapA fun _ => hP.keeps_storeExact _ _ _) fun _ =>
          keeps_bind (hP.keeps_writePlain _ _ _ _ _) fun _ => hfinish _ _
    · exact keeps_bind (hP.keeps_stageIn _ _ _ _ _ _ _) fun _ => keeps_bind (keeps_whenA (hP.keeps_noteBlock _ _ _ _)) fun _ =>
        keeps_bind (hP.keeps_writePlain _ _ _ _ _) fun _ => hfinish _ _

theorem keeps_takeChunk (e leg : Nat) (c : Coll) (rank : Nat) (line0 body : List Byte) (bad : List Nat) :
    Keeps P (takeChunk e leg c rank line0 body bad) :=
  keeps_ite (hP.keeps_updColl _ _ _ _) (keeps_ite (hP.keeps_reduceChunk hev _ _ _ _ _ _) (hP.keeps_broadcastChunk hev _ _ _ _ _ _))

theorem keeps_takeEarly (e group seq : Nat) : Keeps P (takeEarly e group seq) := keeps_getThen fun s => by
  cases s.coll e group seq with
  | none => exact keeps_pure _
  | some c =>
    refine keeps_bind (hP.keeps_updColl _ _ _ _) fun _ => keeps_forA fun ⟨leg, rank, line0, body, bad⟩ => keeps_getThen fun t => ?_
    cases t.coll e group seq with
    | none => exact keeps_pure _
    | some c => exact hP.keeps_takeChunk hev _ _ _ _ _ _ _

/-! ## Messages heard -/

omit hP hev in
theorem keeps_withColl {e group src : Nat} {line0 : List Byte} {f : Coll → Nat → Line0 → Act Unit} (hf : ∀ c r h, Keeps P (f c r h)) :
    Keeps P (withColl e group src line0 f) := keeps_getThen fun s => by
  dsimp only
  cases s.coll e group (Line0.parse line0).seq with
  | none => exact keeps_pure _
  | some c =>
    dsimp only
    cases c.rankOf src with
    | none => exact keeps_pure _
    | some r => exact hf _ _ _

end AboutAborts

namespace AboutRelays

variable {P : M → Prop} (hP : AboutRelays P)
include hP

theorem keeps_afterEnd (group : Nat) : Keeps P (afterEnd group (agree 64)) := hP.toAboutAborts.keeps_afterEnd (hP.keeps_agree 64)

theorem keeps_relayMessage (src tag : Nat) (lines : List (Nat × Bool × List Byte)) : Keeps P (relayMessage src tag lines) := by
  have hev := hP.event
  have hchunk : ∀ leg line0 body bad, Keeps P (hearChunk (bits tag 13 12) (bits tag 31 16) src leg line0 body bad) := fun leg line0 body bad =>
    AboutAborts.keeps_withColl fun _ _ _ => hP.keeps_takeChunk hev _ _ _ _ _ _ _
  have hagree : ∀ line0, Keeps P (hearAgree (bits tag 13 12) (bits tag 31 16) src line0) := fun line0 =>
    AboutAborts.keeps_withColl fun _ _ _ => keeps_whenA (keeps_bind (hP.keeps_updColl _ _ _ _) fun _ =>
      hP.keeps_agree 64 _ _ (Nat.mod_lt _ (by decide)))
  have hgo : ∀ line0, Keeps P (hearGo (bits tag 13 12) (bits tag 31 16) src line0) := fun line0 =>
    AboutAborts.keeps_withColl fun _ _ _ => keeps_whenA (keeps_bind (hP.keeps_goOn (hev _) _ _) fun _ =>
      keeps_ite (hP.keeps_afterEnd _) (hP.keeps_takeEarly hev _ _ _))
  have hnogo : ∀ line0, Keeps P (hearNogo (bits tag 13 12) (bits tag 31 16) src line0) := fun line0 =>
    AboutAborts.keeps_withColl fun _ _ _ => keeps_whenA (keeps_bind (hP.keeps_noGo (hev _) _ _ _) fun _ => hP.keeps_afterEnd _)
  have habort : ∀ line0, Keeps P (hearAbort (bits tag 13 12) (bits tag 31 16) src line0) := fun line0 =>
    AboutAborts.keeps_withColl fun _ _ _ => keeps_whenA (hP.keeps_failColl (hev _) _ _ _ _)
  have hcredit : ∀ line0, Keeps P (hearCredit (bits tag 13 12) (bits tag 31 16) src line0) := fun line0 =>
    AboutAborts.keeps_withColl fun _ _ _ => keeps_whenA (keeps_bind (hP.keeps_updColl _ _ _ _) fun _ => hP.keeps_sendReady hev _ _ _ _)
  unfold relayMessage
  dsimp only
  split
  · split
    · exact hchunk _ _ _ _
    · exact hchunk _ _ _ _
    · split
      · exact hagree _
      · exact hgo _
      · exact hnogo _
      · exact habort _
      · exact hcredit _
      · exact keeps_pure _
    · exact keeps_pure _
  · exact keeps_pure _

/-! ## Parity chunks (R366, R367) -/

theorem keeps_updParity (f : Parity → Parity) : Keeps P (updParity f) := fun _ h => hP.rly _ h

theorem keeps_parityCheck : Keeps P parityCheck := keeps_getThen fun s => by
  cases s.parityShape with
  | none => exact keeps_pure _
  | some x => exact keeps_whenA (hP.keeps_parityEnd _ _)

theorem keeps_paritySend (n : Nat) : Keeps P (paritySend n) := by
  induction n with
  | zero => exact keeps_pure _
  | succ n ih =>
    rw [paritySend]
    refine keeps_getThen fun s => ?_
    dsimp only
    split
    · exact keeps_pure _
    · split
      · exact keeps_pure _
      · exact keeps_bind (hP.keeps_updParity _) fun _ => keeps_bind (hP.keeps_readLines _) fun _ => keeps_getThen fun _ =>
          keeps_bind (hP.keeps_postMessage _ _) fun _ => ih

theorem keeps_parityAnswered (node status : Nat) : Keeps P (parityAnswered node status) :=
  keeps_getThen fun _ => keeps_ite (keeps_pure _) (keeps_ite (hP.keeps_parityEnd _ _)
    (keeps_bind (hP.keeps_updParity _) fun _ => keeps_bind (hP.keeps_paritySend 1) fun _ => hP.keeps_parityCheck))

theorem keeps_readChunk (a : Nat) : Keeps P (readChunk a) := keeps_bind (hP.keeps_readLines _) fun _ => keeps_getThen fun _ => keeps_pure _

theorem keeps_writeChunk (a : Nat) (data : List Byte) (bad : List Nat) : Keeps P (writeChunk a data bad) :=
  keeps_bind (hP.keeps_writeBytes a data) fun _ => keeps_forA fun _ => keeps_modify fun _ h => hP.putLine _ _ _ h

theorem keeps_foldSlot (g r n : Nat) : Keeps P (foldSlot g r n) :=
  keeps_getThen fun _ => keeps_whenA (keeps_bind (hP.keeps_readChunk _) fun _ => keeps_bind (hP.keeps_readChunk _) fun _ =>
    keeps_bind (hP.keeps_writeChunk _ _ _) fun _ => keeps_bind (hP.keeps_updParity _) fun _ => hP.keeps_parityCheck)

theorem keeps_rebuildChunk (g r q slot : Nat) : Keeps P (rebuildChunk g r q slot) := keeps_getThen fun s => by
  dsimp only
  split
  · exact keeps_pure _
  · exact keeps_bind (hP.keeps_readChunk _) fun _ => keeps_bind (hP.keeps_updParity _) fun _ => keeps_getThen fun _ =>
      keeps_bind (keeps_whenA (keeps_bind (hP.keeps_writeChunk _ _ _) fun _ => hP.keeps_updParity _)) fun _ => hP.keeps_parityCheck

theorem keeps_parityArrived (node addr : Nat) : Keeps P (parityArrived node addr) := keeps_getThen fun s => by
  cases s.parityShape with
  | none => exact keeps_pure _
  | some x =>
    obtain ⟨g, r⟩ := x
    dsimp only
    split
    · exact keeps_pure _
    · refine keeps_ite (hP.keeps_foldSlot _ _ _) (keeps_ite ?_ (keeps_pure _))
      split
      · exact keeps_pure _
      · exact hP.keeps_rebuildChunk _ _ _ _

end AboutRelays

end Sys2Proof.Machine

/-! # Packets received: dropped, waiting or taken, and DATA (R256, R260 to R265, R269) -/

namespace Sys2Proof.Machine

/-! ## Whether a packet is heard -/

/-- A port that receives. -/
def M.receives (s : M) (port : Nat) : Prop := s.trnReady = true ∧ s.portUp port = true ∧ s.macsecOk port = true

theorem recvRow_idle {s : M} {typ port : Nat} {ce : Bool} {packet : List Byte} (h : ¬ s.receives port ∨ (Hdr.parse packet).typ ≠ typ) :
    recvRow typ port ce packet s = ((), s) := by
  have hno : (s.trnReady && s.portUp port && s.macsecOk port && (Hdr.parse packet).typ == typ) = false := by
    refine Bool.eq_false_iff.2 fun hc => ?_
    simp only [Bool.and_eq_true, beq_iff_eq] at hc
    exact h.elim (· ⟨hc.1.1.1, hc.1.1.2, hc.1.2⟩) (· hc.2)
  rw [recvRow, run_bind, run_get]
  dsimp only
  rw [hno, run_whenA_false]

theorem recvRow_hears {s : M} {typ port : Nat} {ce : Bool} {packet : List Byte} (h : s.receives port) (ht : (Hdr.parse packet).typ = typ) :
    recvRow typ port ce packet s = recvPacket port ce packet s := by
  obtain ⟨hready, hup, hok⟩ := h
  rw [recvRow, run_bind, run_get]
  dsimp only
  rw [hready, hup, hok, ht, Bool.and_true, Bool.and_true, beq_self_eq_true, Bool.and_true, run_whenA_true]

section
variable {s : M} (hw : s.wf = true) {port : Nat} (hp : port < 64) (ce : Bool) {packet : List Byte}
include hw hp

theorem recvPacket_bad (h : s.badPacket packet (Hdr.parse packet) = true) : s.packetDropped.tallied (recvPacket port ce packet s).2 := by
  rw [recvPacket, run_bind, run_get]
  dsimp only
  rw [run_ite, if_pos h]
  exact dropPacket_tallies hp (.refl s) hw

/-- A packet whose context is being loaded waits, or is dropped where too many wait. -/
theorem recvPacket_waits (h : s.badPacket packet (Hdr.parse packet) = false) (hchip : (s.rally (Hdr.parse packet).src).onChip = false)
    (hload : (s.rally (Hdr.parse packet).src).loading = true) :
    ((s.rally (Hdr.parse packet).src).missQ.length < 64 → s.served (Hdr.parse packet).src { s.rally (Hdr.parse packet).src with
      missQ := (s.rally (Hdr.parse packet).src).missQ ++ [(port, ce, packet)] } (recvPacket port ce packet s).2) ∧
    (64 ≤ (s.rally (Hdr.parse packet).src).missQ.length → s.packetDropped.tallied (recvPacket port ce packet s).2) := by
  have hcount := portCount_tallies hp 0x28F 1 s
  rw [recvPacket, run_bind, run_get]
  dsimp only
  rw [run_ite, if_neg (by simp [h]), run_bind, needCtx_loading _ hchip hload, run_ite, if_neg (by simp), run_ite, if_pos rfl, run_bind, run_ite]
  refine ⟨fun hroom => ?_, fun hfull => ?_⟩
  · rw [if_pos hroom]
    exact ((M.served.refl hw _).wired hcount.wired).updRally fun r => { r with missQ := r.missQ ++ [(port, ce, packet)] }
  · rw [if_neg (by omega)]
    exact dropPacket_tallies hp hcount hw

omit hw hp in
/-- A packet whose context is on chip is taken by its type. -/
theorem recvPacket_taken (h : s.badPacket packet (Hdr.parse packet) = false) (hchip : (s.rally (Hdr.parse packet).src).onChip = true) :
    (recvPacket port ce packet s).2 = (recvTyped port ce (Hdr.parse packet) (touchCtx (Hdr.parse packet).src s).2).2 := by
  have hneed : needCtx (Hdr.parse packet).src s = ((true, false), (touchCtx (Hdr.parse packet).src s).2) := by
    rw [needCtx, run_bind, run_get]
    dsimp only
    rw [run_ite, if_pos hchip]
    rfl
  rw [recvPacket, run_bind, run_get]
  dsimp only
  rw [run_ite, if_neg (by simp [h]), run_bind, hneed, run_ite, if_pos rfl]

end

/-- The registers stay when a context is used. -/
theorem touchCtx_reg (n : Nat) (s : M) (o : Nat) : (touchCtx n s).2.reg o = s.reg o := rfl

/-! ## Drops counted beside frames sent -/

/-- A frame that is sent moves no register but the counters. -/
theorem sendControl_reg {o v : Nat} (ho : ¬ Reg.ofCounters o) (peer k typ flags b12 b16 : Nat) (pl : List Byte) (b8 : Nat) :
    Keeps (fun t => t.reg o = v) (sendControl peer k typ flags b12 b16 pl b8) := keeps_getThen fun s => by
  have hcount : ∀ {p}, p < 64 → ∀ code n, Keeps (fun t => t.reg o = v) (portCount p code n) := fun hp code n t h =>
    ((portCount_tallies hp code n t).regs o ho).trans h
  split
  · exact keeps_pure _
  next p hport =>
    have hp := M.pathPort_lt hport
    exact keeps_getThen fun _ => keeps_whenA (keeps_bind (keeps_getThen fun _ => keeps_whenA (keeps_bind (fun _ h => h) fun _ =>
      keeps_bind (keeps_whenA fun _ h => h) fun _ => hcount hp _ _)) fun _ => keeps_whenA (hcount hp _ _))

/-- What a packet of the end that is not known does: it is dropped and counted, and answered by RESET. -/
def resetBack (port : Nat) (h : Hdr) : Act Unit := do
  dropPacket port
  portCount port 0x28B 1
  sendControl h.src h.path 5 0 0 h.epoch [] 0

/-- A reply goes out on a path where that sends. -/
def M.repliesTo (s t : M) (n k typ b12 b16 : Nat) : Prop := ∀ p, s.pathPort k = some p → s.transmits p →
  ∃ f, Output.mirzu p f ∈ t.outs ∧ let a := Hdr.parse f.packet
    a.typ = typ ∧ a.dst = trunc 16 n ∧ a.b12 = trunc 32 b12 ∧ a.b16 = trunc 32 b16

theorem sendControl_answers {s t : M} (h : s.wired t) (n k : Nat) {typ : Nat} (htyp : typ < 16) (b12 b16 : Nat) :
    s.repliesTo (sendControl n k typ 0 b12 b16 [] 0 t).2 n k typ b12 b16 := fun p hp hsend => by
  refine ⟨_, sendControl_sends ((h.pathPort k).trans hp) (h.transmits.2 hsend) n typ 0 b12 b16 [] 0, ?_⟩
  dsimp only [M.frame]
  rw [M.parse_header]
  exact ⟨Nat.mod_eq_of_lt htyp, rfl, rfl, rfl⟩

theorem resetBack_drops {s : M} (hw : s.wf = true) {port : Nat} (hp : port < 64) (h : Hdr) : let m := (resetBack port h s).2
    s.wired m ∧ m.reg Reg.trnDrops = trunc 64 (s.reg Reg.trnDrops + 1) ∧ s.repliesTo m h.src h.path 5 0 h.epoch := by
  have hno : ¬ Reg.ofCounters Reg.trnDrops := by simp [Reg.ofCounters, Reg.trnDrops]
  have hdrop := (dropPacket_tallies hp (.refl s) hw).trans (portCount_tallies hp 0x28B 1 _)
  have hnoted : s.wired s.packetDropped := M.wired.setReg (o := Reg.trnDrops) (.inr (by simp)) _
  have hwired := hnoted.trans hdrop.wired
  have hreg : (portCount port 0x28B 1 (dropPacket port s).2).2.reg Reg.trnDrops = trunc 64 (s.reg Reg.trnDrops + 1) :=
    (hdrop.regs _ hno).trans (M.reg_setReg_self s _ _ hw)
  have hsent := sendControl_answers hwired h.src h.path (typ := 5) (by decide) 0 h.epoch
  have hrun : (resetBack port h s).2 = (sendControl h.src h.path 5 0 0 h.epoch [] 0 (portCount port 0x28B 1 (dropPacket port s).2).2).2 := by
    rw [resetBack, run_bind, run_bind]
  intro m
  have hm : m = (resetBack port h s).2 := rfl
  clear_value m
  rw [hrun] at hm
  generalize (portCount port 0x28B 1 (dropPacket port s).2).2 = t at hwired hreg hsent hm
  subst hm
  exact ⟨hwired.trans (sendControl_frames h.src h.path 5 0 0 h.epoch [] 0 t), sendControl_reg hno h.src h.path 5 0 0 h.epoch [] 0 t hreg, hsent⟩

end Sys2Proof.Machine

/-! # Sequenced packets received (R260 to R265) -/

namespace Sys2Proof.Machine

/-! ## What a packet of a known peer comes to -/

/-- A Rally that has received a packet on a path, marked or not. -/
def Rally.counted (r : Rally) (path : Nat) (ce : Bool) : Rally :=
  let one := fun (t : Tab Nat) => Tab.put (fun _ => 0) t path (satU 16 (Tab.read (fun _ => 0) t path + 1))
  { r with recv := one r.recv, ce := if ce then one r.ce else r.ce }

theorem updRally_regs (n : Nat) (f : Rally → Rally) (s : M) : (updRally n f s).2.regs = s.regs := rfl

theorem Rally.counted_rest (r : Rally) (path : Nat) (ce : Bool) : ∃ x y, r.counted path ce = { r with recv := x, ce := y } := ⟨_, _, rfl⟩

/-- A DATA packet is counted, for its port and for the congestion counts of its path. -/
def noteData (port : Nat) (ce : Bool) (h : Hdr) : Act Unit := whenA (h.typ == 0) do
  portCount port 0x281 1
  portCount port 0x283 h.plen
  updRally h.src (·.counted h.path ce)

theorem noteData_notes {s : M} (hw : s.wf = true) {port : Nat} (hp : port < 64) (ce : Bool) (h : Hdr) :
    (∃ x y, s.served h.src { s.rally h.src with recv := x, ce := y } (noteData port ce h s).2) ∧
      (noteData port ce h s).2.reg Reg.trnDrops = s.reg Reg.trnDrops := by
  have hcount := (portCount_tallies hp 0x281 1 s).trans (portCount_tallies hp 0x283 h.plen _)
  have hreg := hcount.reg_low (o := Reg.trnDrops) (by decide)
  rw [noteData]
  cases h.typ == 0 with
  | false =>
    rw [run_whenA_false]
    exact ⟨⟨_, _, .refl hw _⟩, rfl⟩
  | true =>
    rw [run_whenA_true, run_bind, run_bind]
    generalize (portCount port 0x283 h.plen (portCount port 0x281 1 s).2).2 = t at hcount hreg ⊢
    have hnoted : s.served h.src ((s.rally h.src).counted h.path ce) (updRally h.src (·.counted h.path ce) t).2 :=
      ((M.served.refl hw h.src).wired hcount.wired).updRally (·.counted h.path ce)
    obtain ⟨x, y, hxy⟩ := (s.rally h.src).counted_rest h.path ce
    rw [hxy] at hnoted
    refine ⟨⟨x, y, hnoted⟩, ?_⟩
    rw [M.reg, updRally_regs]
    exact hreg

/-- How far a packet's number is ahead of the last in order, plus one. -/
def Hdr.ahead (h : Hdr) (r : Rally) : Nat := trunc 32 (h.b8 + 2 ^ 33 - r.inAck - 1)

/-- The inbound direction is open for the packet's epoch. -/
def Rally.knows (r : Rally) (h : Hdr) : Prop := r.inOpen = true ∧ r.inEpoch = h.epoch

section
variable {s : M} {port : Nat} {ce : Bool} {h : Hdr}

theorem recvSeq_unknown (hno : ¬ (s.rally h.src).knows h) : recvSeq port ce h s = resetBack port h s := by
  rw [recvSeq, run_bind, run_get]
  dsimp only
  rw [run_ite, if_pos]
  · rfl
  · by_contra hc
    simp only [not_or, Bool.not_eq_true', Bool.not_eq_false, ne_eq, not_not] at hc
    exact hno hc

/-- What a packet of a known peer, d ahead, comes to once it has been counted, on a machine m. -/
def recvKnown (m : M) (port d : Nat) (h : Hdr) : Act Unit :=
  let r := m.rally h.src
  if d < 2048 ∧ !bit r.sack d then
    if h.typ = 2 then do
      takeSeq h.src d h
      takeStatus h.src h
      completeIn h.src
    else
      let x := (r.ins.find? (·.mseq = h.b12)).getD { mseq := h.b12, cls := h.cls, tag := h.tag }
      if !(r.ins.any (·.mseq = h.b12)) ∧ r.ins.length ≥ 32 then dropPacket port
      else if x.cls = 1 ∧ !x.aborted ∧ !m.relayTakes x h then dropPacket port
      else placeData h.src d x h
  else if d < 2048 ∨ d ≥ 2 ^ 31 then do
    portCount port 0x289 1
    sendAck h.src h.path h.ts
  else dropPacket port

theorem recvSeq_known (hyes : (s.rally h.src).knows h) :
    recvSeq port ce h s = recvKnown s port (h.ahead (s.rally h.src)) h (noteData port ce h s).2 := by
  obtain ⟨hin, hep⟩ := hyes
  have hahead : trunc 32 (h.b8 + 2 ^ 33 - (s.rally h.src).inAck - 1) = h.ahead (s.rally h.src) := rfl
  rw [recvSeq, run_bind, run_get]
  dsimp only
  rw [run_ite, if_neg (by simp [hin, hep]), run_bind]
  simp only [hahead]
  generalize h.ahead (s.rally h.src) = d
  rfl

end

/-- A packet that has been taken before is acknowledged again. -/
theorem recvSeq_again {s : M} (hw : s.wf = true) {port : Nat} (hp : port < 64) (ce : Bool) (h : Hdr) (hyes : (s.rally h.src).knows h)
    (hold : ¬ (h.ahead (s.rally h.src) < 2048 ∧ bit (s.rally h.src).sack (h.ahead (s.rally h.src)) = false))
    (hnear : h.ahead (s.rally h.src) < 2048 ∨ 2 ^ 31 ≤ h.ahead (s.rally h.src)) :
    ∃ x y, s.served h.src { s.rally h.src with since := 0, recv := x, ce := y } (recvSeq port ce h s).2 := by
  obtain ⟨⟨x, y, hnoted⟩, -⟩ := noteData_notes hw hp ce h
  rw [recvSeq_known hyes, recvKnown, if_neg (by simpa using hold), if_pos hnear, run_bind]
  generalize (noteData port ce h s).2 = t at hnoted ⊢
  have hcount := hnoted.wired (portCount_tallies hp 0x289 1 t).wired
  obtain ⟨hack, -⟩ := sendAck_serves hcount.wf h.src h.path h.ts
  rw [hcount.rally] at hack
  exact ⟨[], [], hcount.trans hack⟩

/-- A packet outside the window is dropped. -/
theorem recvSeq_far {s : M} (hw : s.wf = true) {port : Nat} (hp : port < 64) (ce : Bool) (h : Hdr) (hyes : (s.rally h.src).knows h)
    (hfar : 2048 ≤ h.ahead (s.rally h.src) ∧ h.ahead (s.rally h.src) < 2 ^ 31) :
    (∃ x y, s.served h.src { s.rally h.src with recv := x, ce := y } (recvSeq port ce h s).2) ∧
      (recvSeq port ce h s).2.reg Reg.trnDrops = trunc 64 (s.reg Reg.trnDrops + 1) := by
  obtain ⟨⟨x, y, hnoted⟩, hreg⟩ := noteData_notes hw hp ce h
  rw [recvSeq_known hyes, recvKnown, if_neg (by omega), if_neg (by omega)]
  generalize (noteData port ce h s).2 = t at hnoted hreg ⊢
  have hdrop := dropPacket_tallies hp (.refl t) hnoted.wf
  have hwired : t.wired t.packetDropped := M.wired.setReg (o := Reg.trnDrops) (.inr (by simp)) _
  refine ⟨⟨x, y, hnoted.wired (hwired.trans hdrop.wired)⟩, ?_⟩
  rw [hdrop.regs _ (by simp [Reg.ofCounters, Reg.trnDrops]), M.packetDropped, M.reg_setReg_self _ _ _ hnoted.wf, hreg]

/-! ## A packet taken -/

theorem Rally.advance_in_order (r : Rally) : Rally.advance { r with sack := 1 } 2048 = { r with sack := 0, inAck := trunc 32 (r.inAck + 1) } := by
  rw [Rally.advance, if_pos (show bit 1 0 = true by decide), Rally.advance, if_neg (show ¬ bit (1 / 2) 0 = true by decide)]
  dsimp only

theorem Rally.advance_rest (n : Nat) (r : Rally) : ∃ x y, r.advance n = { r with sack := x, inAck := y } := by
  induction n generalizing r with
  | zero => exact ⟨_, _, rfl⟩
  | succ n ih =>
    rw [Rally.advance]
    split
    · obtain ⟨x, y, h⟩ := ih { r with sack := r.sack / 2, inAck := trunc 32 (r.inAck + 1) }
      exact ⟨x, y, h⟩
    · exact ⟨_, _, rfl⟩

/-- A packet's number is taken, and acknowledged where that is due. -/
theorem takeSeq_serves {s : M} (hw : s.wf = true) (n d : Nat) (h : Hdr) : ∃ r, s.served n r (takeSeq n d h s).2 ∧
    (∃ a b c e f g, r = { s.rally n with sack := a, inAck := b, since := c, recv := e, ce := f, trig := g }) ∧
    (d = 0 → (s.rally n).sack = 0 → r.inAck = trunc 32 ((s.rally n).inAck + 1) ∧ r.sack = 0) := by
  let f : Rally → Rally := fun r =>
    { r with sack := r.sack ||| 2 ^ d, since := r.since + 1, trig := if r.since = 0 then (h.path, h.ts) else r.trig }
  have htaken := ((M.served.refl hw n).updRally f).updRally fun r => r.advance 2048
  obtain ⟨x, y, hrest⟩ := Rally.advance_rest 2048 (f (s.rally n))
  have horder : d = 0 → (s.rally n).sack = 0 → y = trunc 32 ((s.rally n).inAck + 1) ∧ x = 0 := fun hd hsack => by
    have hone : f (s.rally n) = { ({ f (s.rally n) with sack := 0 } : Rally) with sack := 1 } := by
      simp only [f, hd, hsack, pow_zero, Nat.zero_or]
    have hadv := Rally.advance_in_order { f (s.rally n) with sack := 0 }
    rw [← hone, hrest] at hadv
    exact ⟨(congrArg Rally.inAck hadv :), (congrArg Rally.sack hadv :)⟩
  have hrun : (takeSeq n d h s).2 = (whenA ((s.rally n).holeAt d || bit h.flags 1 || decide ((s.rally n).since + 1 ≥ 8)) (sendAck n h.path h.ts)
      (updRally n (fun r => r.advance 2048) (updRally n f s).2).2).2 := rfl
  rw [hrun]
  rw [hrest] at htaken
  generalize (updRally n (fun r => r.advance 2048) (updRally n f s).2).2 = t at htaken ⊢
  cases (s.rally n).holeAt d || bit h.flags 1 || decide ((s.rally n).since + 1 ≥ 8) with
  | false =>
    rw [run_whenA_false]
    exact ⟨_, htaken, ⟨_, _, _, _, _, _, rfl⟩, horder⟩
  | true =>
    rw [run_whenA_true]
    obtain ⟨hack, -⟩ := sendAck_serves htaken.wf n h.path h.ts
    rw [htaken.rally] at hack
    exact ⟨_, htaken.trans hack, ⟨_, _, _, _, _, _, rfl⟩, horder⟩

end Sys2Proof.Machine

/-! # DATA of class 2: where its lines go (R255, R264, R265) -/

namespace Sys2Proof.Machine

/-! ## A message complete -/

/-- The stores, the cores and the collectives are as they were, and the Rally has acknowledged as much. -/
def M.heldAt (s : M) (n a b : Nat) (t : M) : Prop := s.sameStores t ∧ t.cores = s.cores ∧ t.rly = s.rly ∧
  Tab.wf Rally.init t.trn.rallies = true ∧ (t.rally n).inAck = a ∧ (t.rally n).sack = b

theorem aboutSending_heldAt (s : M) (n a b : Nat) : AboutSending (s.heldAt n a b) where
  count _ _ h := h
  out _ h := h
  ports _ h := h
  trn hx h := by
    obtain ⟨hstores, hcores, hrly, hw, hack, hsack⟩ := h
    obtain ⟨hw', hr, -⟩ := hx hw
    have hrest := (hr n).rest
    exact ⟨hstores, hcores, hrly, hw', ((congrArg Rally.inAck hrest :) : _).trans hack, ((congrArg Rally.sack hrest :) : _).trans hsack⟩
  isl _ h := h

/-- Parity chunks are not awaited. -/
theorem parityArrived_idle {s : M} (h : s.rly.parity.mode = 0) (n a : Nat) : parityArrived n a s = ((), s) := by
  rw [parityArrived, run_bind, run_get]
  dsimp only
  cases s.parityShape with
  | none => rfl
  | some x =>
    dsimp only
    cases (List.range (x.2 * (x.1 - x.2))).find? fun n => s.paritySlot x.1 x.2 n == a with
    | none => rfl
    | some k =>
      dsimp only
      rw [run_ite, if_neg (by omega), run_ite, if_neg (by omega), run_pure]

theorem M.wf_rallies {s : M} (hw : s.wf = true) : Tab.wf Rally.init s.trn.rallies = true := by simp_all [M.wf]

/-- A Rally with fewer inbound messages. -/
theorem Rally.eases_ins (r : Rally) (l : List InMsg) : r.eases { r with ins := l } :=
  ⟨rfl, rfl, fun y hy => .inr ⟨y, hy, rfl⟩, fun _ => ⟨rfl, rfl⟩, id⟩

section
variable {s : M} (hmode : s.rly.parity.mode = 0) (n a b : Nat)
include hmode

/-- A complete message of class 2 is reported, and no more. -/
theorem heldAt_messageComplete {m : InMsg} (hcls : m.cls = 2) : Keeps (s.heldAt n a b) (messageComplete n m) := by
  have hP := aboutSending_heldAt s n a b
  have hparity : Keeps (s.heldAt n a b) (parityArrived n (m.tag * 1024)) := fun t h => by
    rw [parityArrived_idle (h.2.2.1 ▸ hmode)]
    exact h
  have hemit : ∀ o, Keeps (s.heldAt n a b) (hostEmit o) := fun o t h => by
    rw [hostEmit, run_modify]
    split <;> exact h
  rw [messageComplete, if_neg (by omega)]
  exact keeps_bind (hP.keeps_updRally n fun r => r.eases_ins _) fun _ => keeps_bind (keeps_whenA hparity) fun _ => keeps_getThen fun _ =>
    keeps_bind (keeps_whenA (keeps_bind (fun _ h => h) fun _ => hemit _)) fun _ => hP.keeps_queueStatus _ _

/-- Messages of class 2 complete. -/
theorem heldAt_completeIn {t : M} (h : s.heldAt n a b t) (hins : ∀ x ∈ (t.rally n).ins, x.cls = 2 ∨ x.last = none) :
    s.heldAt n a b (completeIn n t).2 := by
  rw [completeIn, run_bind, run_get]
  dsimp only
  refine keeps_forA_mem (fun x hx => ?_) t h
  obtain ⟨hmem, hdone⟩ := List.mem_filter.1 hx
  have hcls : x.cls = 2 := (hins x hmem).resolve_right fun hlast => by
    rw [Rally.msgComplete, hlast] at hdone
    exact absurd hdone (by simp)
  exact keeps_ite ((aboutSending_heldAt s n a b).keeps_updRally n fun r => r.eases_ins _) (heldAt_messageComplete hmode n a b hcls)

end

/-! ## Lines written -/

theorem forA_map {α β : Type} (l : List α) (g : α → β) (f : β → Act Unit) (s : M) : forA (l.map g) f s = forA l (fun x => f (g x)) s := by
  induction l generalizing s with
  | nil => rfl
  | cons x l ih => rw [List.map_cons, run_forA_cons, run_forA_cons, ih]

/-- The data of line i of a payload. -/
def lineData (body : List Byte) (i : Nat) : List Byte := ((codewordsOf body).getD i (List.replicate 36 0#8)).take 32

theorem length_codewordsOf (body : List Byte) : (codewordsOf body).length = body.length / 36 := by simp [codewordsOf]

theorem length_lineData (body : List Byte) (i : Nat) : (lineData body i).length = 32 := by
  rw [lineData, List.length_take, List.getD_eq_getElem?_getD]
  by_cases hi : i < (codewordsOf body).length
  · have hline : (codewordsOf body)[i] = (body.drop (36 * i)).take 36 := by simp [codewordsOf]
    rw [List.getElem?_eq_getElem hi, Option.getD_some, hline, List.length_take, List.length_drop]
    rw [length_codewordsOf] at hi
    omega
  · rw [List.getElem?_eq_none (by omega), Option.getD_none, List.length_replicate]
    rfl

/-- Lines that decode without error are placed as they came. -/
theorem decodeLines_clean {body : List Byte} (hok : ∀ i, i < body.length / 36 → rsDecode (((codewordsOf body).getD i []).map (·.toNat)) = .ok)
    (addr : Nat → Option Nat) (s : M) :
    decodeLines body addr s = ((List.range (body.length / 36)).map fun i => (false, lineData body i), s) := by
  have hrun : decodeLines body addr s = (((codewordsOf body).zipIdx).map fun x => (false, x.1.take 32), s) := by
    refine mapA_eq_map fun x hx => ?_
    obtain ⟨cw, i⟩ := x
    obtain ⟨hi, hcw⟩ := List.mk_mem_zipIdx_iff_getElem?.1 hx |> List.getElem?_eq_some_iff.1
    have hclean := hok i (length_codewordsOf body ▸ hi)
    rw [List.getD_eq_getElem _ _ hi, hcw] at hclean
    have hline : decodeLine cw = (false, cw.take 32, none) := by
      unfold decodeLine
      dsimp only
      rw [hclean]
    dsimp only
    rw [hline]
    rfl
  rw [hrun]
  refine Prod.ext (List.ext_getElem (by simp [length_codewordsOf]) fun i h1 h2 => ?_) rfl
  have hi : i < (codewordsOf body).length := by simpa using h1
  simp only [List.getElem_map, List.getElem_zipIdx, List.getElem_range, lineData, List.getD_eq_getElem _ _ hi]

/-- Lines are put one after another. -/
theorem putLines_puts {s : M} (hw : s.wf = true) (l n : Nat) (d : Nat → List Byte) (hd : ∀ k, (d k).length = 32) :
    let t := (forA (((List.range n).map fun i => (false, d i)).zipIdx) (fun ((p, data), i) => modify fun s => s.putLine (l + i) data p) s).2
    s.onlyLines t (fun i => ∃ k ∈ List.range n, i = l + k) ∧ ∀ k < n, ∀ j (hj : j < 32),
      t.byte (32 * (l + k) + j) = (d k)[j]'(by rw [hd]; exact hj) := by
  have hzip : ((List.range n).map fun i => (false, d i)).zipIdx = (List.range n).map fun i => ((false, d i), i) := by
    refine List.ext_getElem (by simp) fun i h1 h2 => by simp
  obtain ⟨honly, hbytes⟩ := run_forA_putLine hw l (fun _ => true) d hd (List.range n) List.nodup_range
  rw [hzip, forA_map]
  exact ⟨honly, fun k hk j hj => hbytes k (List.mem_range.2 hk) j hj⟩

/-! ## A packet placed -/

/-- The lines of a packet go where they belong. -/
def placeLines (ok : Bool) (m : InMsg) (h : Hdr) : Act (List (Bool × List Byte)) := do
  let base := h.tag * 1024 + 32 * h.b16
  let ls ← if ok && !m.aborted then decodeLines h.body (fun i => if m.cls = 2 then some (base + 32 * i) else none) else pure []
  whenA (ok && m.cls == 2)
    (forA ls.zipIdx fun ((p, data), i) => modify fun s => s.putLine (base / 32 + i) data p)
  pure ls

/-- A message with a packet placed in it. -/
def InMsg.with (m : InMsg) (ok : Bool) (h : Hdr) (ls : List (Bool × List Byte)) : InMsg :=
  { m with runs := m.runs ++ [(h.b16, h.plen / 36)]
           lines := if m.cls = 1 ∧ !m.aborted then m.lines ++ (ls.zipIdx).map fun ((p, data), i) => (h.b16 + i, p, data) else []
           last := if bit h.flags 0 then some (h.b8, h.b16 + h.plen / 36 - 1) else m.last
           rejected := m.rejected || !ok, poisoned := m.poisoned || ls.any Prod.fst }

/-- The lines of a packet lie in a remote-write window. -/
def M.lands (s : M) (m : InMsg) (h : Hdr) : Bool := m.cls == 1 ||
  (s.inWindow (h.tag * 1024 + 32 * h.b16) (32 * (h.plen / 36)) && inRegion (h.tag * 1024 + 32 * h.b16) (32 * (h.plen / 36)))

theorem run_placeData (n d : Nat) (m : InMsg) (h : Hdr) (s : M) : (placeData n d m h s).2 =
    (completeIn n (takeSeq n d h (updRally n (fun r => { r with ins := r.ins.filter (·.mseq ≠ m.mseq) ++
      [m.with (s.lands m h) h (placeLines (s.lands m h) m h s).1] }) (placeLines (s.lands m h) m h s).2).2).2).2 := by
  rw [placeData, run_bind, run_get]
  dsimp only
  obtain ⟨ok, hok⟩ : ∃ ok, s.lands m h = ok := ⟨_, rfl⟩
  rw [hok]
  rw [M.lands] at hok
  simp only [hok, placeLines, InMsg.with]
  cases ok && !m.aborted <;> simp only [Bool.false_eq_true, if_true, if_false, run_bind, run_pure]

theorem placeLines_places {s : M} (hw : s.wf = true) {m : InMsg} (hcls : m.cls = 2) (hab : m.aborted = false) {h : Hdr}
    (hlen : h.body.length = h.plen) (hok : ∀ i, i < h.plen / 36 → rsDecode (((codewordsOf h.body).getD i []).map (·.toNat)) = .ok) :
    (placeLines (s.lands m h) m h s).2.wf = true ∧ (s.lands m h = false → (placeLines (s.lands m h) m h s).2 = s) ∧
    (s.lands m h = true → s.storesOnly (placeLines (s.lands m h) m h s).2 ∧
      (∀ i, i < h.plen / 36 → (placeLines (s.lands m h) m h s).2.bytes (h.tag * 1024 + 32 * h.b16 + 32 * i) 32 =
        ((codewordsOf h.body).getD i []).take 32) ∧
      ∀ a, a < h.tag * 1024 + 32 * h.b16 ∨ h.tag * 1024 + 32 * h.b16 + 32 * (h.plen / 36) ≤ a →
        (placeLines (s.lands m h) m h s).2.byte a = s.byte a) := by
  have hrun : s.lands m h = true → (placeLines (s.lands m h) m h s).2 = (forA (((List.range (h.plen / 36)).map fun i => (false, lineData h.body i)).zipIdx)
      (fun ((p, data), i) => modify fun s => s.putLine ((h.tag * 1024 + 32 * h.b16) / 32 + i) data p) s).2 := fun hyes => by
    rw [hyes, placeLines, hab, hcls]
    simp only [Bool.not_false, Bool.and_true, if_true, run_bind, run_pure, decodeLines_clean (by rw [hlen]; exact hok), hlen, beq_self_eq_true,
      run_whenA_true]
  have hstill : s.lands m h = false → (placeLines (s.lands m h) m h s).2 = s := fun hno => by
    rw [hno]
    rfl
  refine ⟨?_, hstill, fun hyes => ?_⟩
  · rcases Bool.eq_false_or_eq_true (s.lands m h) with hc | hc
    · rw [hrun hc]
      exact keepsWf_forA (fun ⟨⟨_, _⟩, _⟩ => keepsWf_modify fun _ h => M.wf_putLine _ _ _ h) s hw
    · exact (hstill hc).symm ▸ hw
  · obtain ⟨honly, hbytes⟩ := putLines_puts hw ((h.tag * 1024 + 32 * h.b16) / 32) (h.plen / 36) (lineData h.body) (length_lineData h.body)
    rw [hrun hyes]
    generalize (forA _ _ s).2 = t at honly hbytes ⊢
    refine ⟨honly.stores, fun i hi => ?_, fun a ha => M.byte_of_codeword (honly.others _ ?_)⟩
    · refine List.ext_getElem ?_ fun j h1 h2 => ?_
      · have := length_lineData h.body i
        rw [lineData, List.getD_eq_getElem _ _ (by rw [length_codewordsOf, hlen]; exact hi)] at this
        rw [List.getD_eq_getElem _ _ (by rw [length_codewordsOf, hlen]; exact hi), this]
        simp [M.bytes]
      · have hj : j < 32 := by simpa [M.bytes] using h1
        have hbyte := hbytes i hi j hj
        have haddr : 32 * ((h.tag * 1024 + 32 * h.b16) / 32 + i) + j = h.tag * 1024 + 32 * h.b16 + 32 * i + j := by omega
        rw [haddr] at hbyte
        simp only [M.bytes, List.getElem_map, List.getElem_range, hbyte, lineData,
          List.getD_eq_getElem _ _ (show i < (codewordsOf h.body).length by rw [length_codewordsOf, hlen]; exact hi)]
    · rintro ⟨k, hk, hline⟩
      have := List.mem_range.1 hk
      omega

/-- A packet of class 2 is placed where its lines belong, and nowhere else. -/
theorem placeData_places {s : M} (hw : s.wf = true) (hmode : s.rly.parity.mode = 0) (n d : Nat) {m : InMsg} (hcls : m.cls = 2)
    (hab : m.aborted = false) {h : Hdr} (hlen : h.body.length = h.plen)
    (hok : ∀ i, i < h.plen / 36 → rsDecode (((codewordsOf h.body).getD i []).map (·.toNat)) = .ok)
    (hins : ∀ x ∈ (s.rally n).ins, x.cls = 2 ∨ x.last = none) : let t := (placeData n d m h s).2
    t.cores = s.cores ∧ (s.lands m h = true → (∀ i, i < h.plen / 36 → t.bytes (h.tag * 1024 + 32 * h.b16 + 32 * i) 32 =
        ((codewordsOf h.body).getD i []).take 32) ∧
      ∀ a, a < h.tag * 1024 + 32 * h.b16 ∨ h.tag * 1024 + 32 * h.b16 + 32 * (h.plen / 36) ≤ a → t.byte a = s.byte a) ∧
    (s.lands m h = false → s.sameStores t) ∧
    (d = 0 → (s.rally n).sack = 0 → (t.rally n).inAck = trunc 32 ((s.rally n).inAck + 1) ∧ (t.rally n).sack = 0) := by
  obtain ⟨huw, hstill, hlands⟩ := placeLines_places hw hcls hab hlen hok
  have hsame : s.storesOnly (placeLines (s.lands m h) m h s).2 := by
    cases hc : s.lands m h with
    | false => exact hc ▸ (hstill hc).symm ▸ .refl s
    | true => exact hc ▸ (hlands hc).1
  intro t
  have ht : t = _ := run_placeData n d m h s
  clear_value t
  generalize (placeLines (s.lands m h) m h s).1 = ls at ht
  generalize (placeLines (s.lands m h) m h s).2 = u at huw hstill hlands hsame ht
  have hrally : u.rally n = s.rally n := by rw [hsame]; rfl
  have hput := (M.served.refl huw n).updRally fun r => { r with ins := r.ins.filter (·.mseq ≠ m.mseq) ++ [m.with (s.lands m h) h ls] }
  obtain ⟨r, hserved, ⟨_, _, _, _, _, _, hr⟩, horder⟩ := takeSeq_serves hput.wf n d h
  generalize (takeSeq n d h _).2 = w at ht hserved
  rw [hput.rally] at hr horder
  have hw' := hput.trans hserved
  have hrly : w.rly = s.rly := by rw [(congrArg M.rly hw'.rest :), hsame]
  have hheld : u.heldAt n r.inAck r.sack t := ht ▸ heldAt_completeIn (s := u) (by rw [hsame]; exact hmode) n r.inAck r.sack
    ⟨hw'.stores, hw'.cores, (congrArg M.rly hw'.rest :), M.wf_rallies hw'.wf, by rw [hw'.rally], by rw [hw'.rally]⟩ fun x hx => by
      rw [hw'.rally, hr] at hx
      rcases List.mem_append.1 hx with hx | hx
      · exact hins x (hrally ▸ List.mem_of_mem_filter hx)
      · rw [List.mem_singleton.1 hx]
        exact .inl hcls
  obtain ⟨hstores, hcores, -, -, hack, hsack⟩ := hheld
  refine ⟨hcores.trans (by rw [hsame]), fun hyes => ?_, fun hno => ?_, fun hd h0 => ?_⟩
  · obtain ⟨-, hin, hout⟩ := hlands hyes
    exact ⟨fun i hi => (M.bytes_of_sameStores hstores _ _).trans (hin i hi), fun a ha => by
      rw [M.byte, hstores.1]
      exact hout a ha⟩
  · rw [hstill hno] at hstores
    exact hstores
  · rw [hack, hsack]
    rw [hrally] at horder
    exact horder hd h0

end Sys2Proof.Machine

/-! # Acknowledgements, statuses, OPEN and RESET received (R258, R259, R262 to R266, R272) -/

namespace Sys2Proof.Machine

/-- The owner of an outbound message that has ended hears of it. -/
def tellOwner (peer : Nat) (m : OutMsg) (status : Nat) : Act Unit :=
  match m.owner with
  | .none => pure ()
  | .control _ _ _ => pure ()
  | .snapshot core x => endRingOp core x status 0 0
  | .parity node => parityAnswered node status
  | .chunk e g q leg idx => do
    let s ← get
    match s.coll e g q with
    | none => pure ()
    | some c =>
      match c.rankOf peer with
      | none => pure ()
      | some rank => do
        let fl := c.flying.filter fun (l, k, i) => !(l == leg && k == rank && i == idx)
        updColl e g q fun c => { c with flying := fl }
        let rest := fl.any (fun (l, _, i) => l == 1 && i == idx) || c.ready.any fun r => r.leg == 1 && r.g == idx
        match c.chunk idx with
        | none => pure ()
        | some k =>
          match c.parent k.shard c.me with
          | none => pure ()
          | some p => whenA (leg == 1 && !rest) (grant e g q p 1)

theorem run_outDone (peer : Nat) (m : OutMsg) (status : Nat) (s : M) : outDone peer m status s =
    tellOwner peer m status (updRally peer (fun r => { r with msgs := r.msgs.filter (·.mseq ≠ m.mseq) }) s).2 := by
  rw [outDone, run_bind]
  rfl

namespace AboutRelays

variable {P : M → Prop} (hP : AboutRelays P)
include hP

theorem keeps_tellOwner (peer : Nat) (m : OutMsg) (status : Nat) : Keeps P (tellOwner peer m status) := by
  unfold tellOwner
  cases m.owner with
  | none => exact keeps_pure _
  | control e g q => exact keeps_pure _
  | snapshot core x => exact hP.keeps_endRingOp _ _ _ _ _
  | parity node => exact hP.keeps_parityAnswered _ _
  | chunk e g q leg idx =>
    refine keeps_getThen fun s => ?_
    cases s.coll e g q with
    | none => exact keeps_pure _
    | some c =>
      dsimp only
      cases c.rankOf peer with
      | none => exact keeps_pure _
      | some rank =>
        refine keeps_bind (hP.keeps_updColl _ _ _ _) fun _ => ?_
        cases c.chunk idx with
        | none => exact keeps_pure _
        | some k =>
          dsimp only
          cases c.parent k.shard c.me with
          | none => exact keeps_pure _
          | some p => exact keeps_whenA (hP.keeps_grant hP.event _ _ _ _ _)

/-- An outbound message that ends. -/
theorem keeps_outDone (peer : Nat) (m : OutMsg) (status : Nat) : Keeps P (outDone peer m status) := fun s h => by
  have hdrop : Keeps P (updRally peer fun r => { r with msgs := r.msgs.filter (·.mseq ≠ m.mseq) }) :=
    hP.keeps_updRally peer fun r => ⟨rfl, rfl, fun y hy => .inr ⟨y, List.mem_of_mem_filter hy, rfl⟩, fun _ => ⟨rfl, rfl⟩, id⟩
  rw [run_outDone]
  exact hP.keeps_tellOwner peer m status _ (hdrop s h)

/-- Inbound messages that complete. -/
theorem keeps_completeIn (hn : ∀ {t : M} v, P t → P (t.setReg Reg.chkNoticesIn v)) (peer : Nat) : Keeps P (completeIn peer) := by
  have hdrop : ∀ q : Nat, Keeps P (updRally peer fun r => { r with ins := r.ins.filter (·.mseq ≠ q) }) := fun q =>
    hP.keeps_updRally peer fun r => r.eases_ins _
  have hcomplete : ∀ m, Keeps P (messageComplete peer m) := fun m =>
    keeps_bind (hdrop _) fun _ => keeps_ite (hP.keeps_relayMessage _ _ _) (keeps_bind (keeps_whenA (hP.keeps_parityArrived _ _)) fun _ =>
      keeps_getThen fun _ => keeps_bind (keeps_whenA (keeps_bind (fun _ h => hn _ h) fun _ => fun _ h => hP.toHost _ h)) fun _ => hP.keeps_queueStatus _ _)
  exact keeps_getThen fun _ => keeps_forA fun _ => keeps_ite (hdrop _) (hcomplete _)

end AboutRelays

/-! ## ACK (R263) -/

theorem Rally.eases_setPath (r : Rally) (k : Nat) (f : PathSt → PathSt) : r.eases (r.setPath k f) :=
  ⟨rfl, rfl, fun y hy => .inr ⟨y, hy, rfl⟩, fun _ => ⟨rfl, rfl⟩, id⟩

/-- The packets that wait for an acknowledgement have these numbers, and this one was acknowledged last. -/
def Transport.awaits (n : Nat) (nums : List Nat) (acked : Nat) (x : Transport) : Prop := Tab.wf Rally.init x.rallies = true ∧
  (Tab.read Rally.init x.rallies n).unacked.map (·.psn) = nums ∧ (Tab.read Rally.init x.rallies n).acked = acked

theorem aboutRelays_awaits (n : Nat) (nums : List Nat) (acked : Nat) : AboutRelays fun t => t.trn.awaits n nums acked :=
  aboutRelays_rallies fun he ⟨hw, hnums, hacked⟩ => by
    obtain ⟨hw', hr, -⟩ := he hw
    exact ⟨hw', (hr n).unacked.trans hnums, ((congrArg Rally.acked (hr n).rest :) : _).trans hacked⟩

/-- What an ACK does after it has acknowledged packets. -/
def afterAck (m : M) (h : Hdr) : Act Unit := do
  let body := leNat h.body
  let sack := trunc 2048 body
  let us := Config.cyclesPerUs 172
  let x := trunc 32 (m.now + 2 ^ 32 - h.b12)
  updRally h.src fun r => r.setPath h.path fun p => { p.sample m.now x (1000000 * us) with touts := 0 }
  forA (List.range 16) fun k =>
    whenA (bits body (2048 + 32 * k + 15) (2048 + 32 * k) != 0)
      (updRally h.src fun r => r.setPath k fun p =>
        { p with recv := p.recv + bits body (2048 + 32 * k + 15) (2048 + 32 * k)
                 ce := p.ce + bits body (2048 + 32 * k + 31) (2048 + 32 * k + 16) })
  let s ← get
  let r := s.rally h.src
  let slack := bits (s.reg Reg.trnTiming) 7 0 * us
  let lost := r.unacked.filter fun p =>
    decide (higherAcked h.b8 sack p.psn ≥ 3) && decide (s.now ≥ p.sentAt + slack)
      && (match p.retxAt with | none => true | some t => decide (s.now ≥ t + (r.path p.path).srtt))
  forA lost fun p => do
    portCount ((s.pathPort p.path).getD 0) 0x285 1
    retransmit h.src p
  let s ← get
  let r := s.rally h.src
  forA (r.msgs.filter fun m => m.mseq.isSome && (m.cls == 1 || m.stopped)
      && (m.stopped || m.sent == m.lines.length)
      && !(r.unacked.any fun p => !p.status && some p.mseq == m.mseq)) fun m => outDone h.src m 0

theorem keeps_afterAck {P : M → Prop} (hP : AboutRelays P) (m : M) (h : Hdr) : Keeps P (afterAck m h) :=
  keeps_bind (hP.keeps_updRally _ fun r => r.eases_setPath _ _) fun _ =>
    keeps_bind (keeps_forA fun _ => keeps_whenA (hP.keeps_updRally _ fun r => r.eases_setPath _ _)) fun _ =>
      keeps_getThen fun s => keeps_bind (keeps_forA fun p => keeps_bind (hP.keeps_portCount (s.pathPort_getD_lt p.path) _ _) fun _ => hP.keeps_retransmit _ _)
        fun _ => keeps_getThen fun _ => keeps_forA fun _ => hP.keeps_outDone _ _ _

/-- The Rally once an ACK has acknowledged packets. -/
def Rally.acknowledged (r : Rally) (h : Hdr) : Rally :=
  { r with acked := if decide (trunc 32 (h.b8 + 2 ^ 32 - r.acked) < 2 ^ 31) then h.b8 else r.acked
           unacked := r.unacked.filter fun p => !ackedBy h.b8 (trunc 2048 (leNat h.body)) p.psn }

theorem recvAck_acks {s : M} (hw : s.wf = true) {port : Nat} (hp : port < 64) (h : Hdr) : let t := (recvAck port h s).2
    ((s.rally h.src).out ≠ 2 → t.rally h.src = s.rally h.src) ∧
    ((s.rally h.src).out = 2 → t.trn.awaits h.src (((s.rally h.src).acknowledged h).unacked.map (·.psn)) ((s.rally h.src).acknowledged h).acked) := by
  have hcount := portCount_tallies hp 0x288 1 s
  rw [recvAck, run_bind, run_get]
  dsimp only
  rw [run_bind]
  generalize (portCount port 0x288 1 s).2 = u at hcount ⊢
  refine ⟨fun hout => ?_, fun hout => ?_⟩
  · rw [beq_false_of_ne hout, run_whenA_false]
    exact hcount.wired.rally _
  · rw [hout, beq_self_eq_true, run_whenA_true, run_bind]
    have hsame : u.rally h.src = s.rally h.src := hcount.wired.rally _
    let f : Rally → Rally := fun r =>
      { r with acked := if decide (trunc 32 (h.b8 + 2 ^ 32 - (s.rally h.src).acked) < 2 ^ 31) then h.b8 else r.acked
               unacked := r.unacked.filter fun p => !ackedBy h.b8 (trunc 2048 (leNat h.body)) p.psn, paths := r.paths }
    have hacked := (M.served.refl (hcount.wf hw) h.src).updRally f
    have hf : f (u.rally h.src) = (s.rally h.src).acknowledged h := by rw [hsame, Rally.acknowledged]
    rw [hf] at hacked
    refine keeps_afterAck (aboutRelays_awaits _ _ _) s h (updRally h.src f u).2 ⟨M.wf_rallies hacked.wf, ?_, ?_⟩
    · exact congrArg (fun r : Rally => r.unacked.map (·.psn)) hacked.rally
    · exact congrArg Rally.acked hacked.rally

end Sys2Proof.Machine

/-! # MSG_STATUS, OPEN, OPEN_ACK, RESET, PROBE and PROBE_REPLY received (R258, R259, R265, R267, R268, R272) -/

namespace Sys2Proof.Machine

/-! ## MSG_STATUS (R265) -/

/-- A Rally has acknowledged as much, and a message of this number is none of its own. -/
def Transport.without (n a q : Nat) (x : Transport) : Prop := Tab.wf Rally.init x.rallies = true ∧ (Tab.read Rally.init x.rallies n).inAck = a ∧
  ∀ y ∈ (Tab.read Rally.init x.rallies n).msgs, y.mseq ≠ some q

theorem aboutRelays_without (n a q : Nat) : AboutRelays fun t => t.trn.without n a q :=
  aboutRelays_rallies fun he ⟨hw, hack, hnone⟩ => by
    obtain ⟨hw', hr, -⟩ := he hw
    refine ⟨hw', ((congrArg Rally.inAck (hr n).rest :) : _).trans hack, fun y hy => ?_⟩
    rcases (hr n).msgs y hy with h | ⟨x, hx, h⟩
    · rw [h]
      exact fun hc => absurd hc (by simp)
    · exact h ▸ hnone x hx

/-- A Rally has acknowledged as much. -/
def Transport.atAck (n a : Nat) (x : Transport) : Prop := Tab.wf Rally.init x.rallies = true ∧ (Tab.read Rally.init x.rallies n).inAck = a

theorem aboutRelays_atAck (n a : Nat) : AboutRelays fun t => t.trn.atAck n a :=
  aboutRelays_rallies fun he ⟨hw, hack⟩ => by
    obtain ⟨hw', hr, -⟩ := he hw
    exact ⟨hw', ((congrArg Rally.inAck (hr n).rest :) : _).trans hack⟩

theorem takeStatus_ends {s : M} (hw : s.wf = true) (h : Hdr) :
    (takeStatus h.src h s).2.trn.atAck h.src (s.rally h.src).inAck ∧
      (∀ x, (s.rally h.src).msgs.find? (fun x => x.mseq == some h.b12 && x.cls == h.cls && x.tag == h.tag) = some x →
        (takeStatus h.src h s).2.trn.without h.src (s.rally h.src).inAck h.b12) := by
  rw [takeStatus, run_bind, run_get]
  dsimp only
  cases hfind : (s.rally h.src).msgs.find? fun x => x.mseq == some h.b12 && x.cls == h.cls && x.tag == h.tag with
  | none =>
    refine ⟨?_, fun x hx => absurd hx (by simp)⟩
    exact keeps_whenA ((aboutRelays_atAck _ _).keeps_updRally _ fun r => r.eases_ins _) s ⟨M.wf_rallies hw, rfl⟩
  | some x =>
    have hmseq : x.mseq = some h.b12 := by
      have := List.find?_some hfind
      simp only [Bool.and_eq_true, beq_iff_eq] at this
      exact this.1.1
    have hdropped := (M.served.refl hw h.src).updRally fun r => { r with msgs := r.msgs.filter (·.mseq ≠ x.mseq) }
    have hdone : (outDone h.src x (bits h.b16 15 0) s).2.trn.without h.src (s.rally h.src).inAck h.b12 := by
      rw [run_outDone]
      generalize (updRally h.src (fun r => { r with msgs := r.msgs.filter (·.mseq ≠ x.mseq) }) s).2 = t at hdropped ⊢
      refine (aboutRelays_without h.src (s.rally h.src).inAck h.b12).keeps_tellOwner h.src x (bits h.b16 15 0) t
        ⟨M.wf_rallies hdropped.wf, (congrArg Rally.inAck hdropped.rally :), fun y hy => ?_⟩
      rw [show Tab.read Rally.init t.trn.rallies h.src = _ from hdropped.rally, hmseq] at hy
      simpa using (List.mem_filter.1 hy).2
    exact ⟨⟨hdone.1, hdone.2.1⟩, fun _ _ => hdone⟩

/-- A new MSG_STATUS ends the message that it names. -/
theorem recvStatus_ends {s : M} (hw : s.wf = true) (port : Nat) (ce : Bool) {h : Hdr} (htyp : h.typ = 2) (hyes : (s.rally h.src).knows h)
    (hnew : h.ahead (s.rally h.src) < 2048 ∧ bit (s.rally h.src).sack (h.ahead (s.rally h.src)) = false) : let t := (recvSeq port ce h s).2
    (∀ x, (s.rally h.src).msgs.find? (fun x => x.mseq == some h.b12 && x.cls == h.cls && x.tag == h.tag) = some x →
      ∀ y ∈ (t.rally h.src).msgs, y.mseq ≠ some h.b12) ∧
    (h.ahead (s.rally h.src) = 0 → (s.rally h.src).sack = 0 → (t.rally h.src).inAck = trunc 32 ((s.rally h.src).inAck + 1)) := by
  have hnote : (noteData port ce h s).2 = s := by
    rw [noteData, htyp]
    rfl
  rw [recvSeq_known hyes, hnote, recvKnown, if_pos (by simpa using hnew), if_pos htyp, run_bind, run_bind]
  obtain ⟨r, hserved, ⟨_, _, _, _, _, _, hr⟩, horder⟩ := takeSeq_serves hw h.src (h.ahead (s.rally h.src)) h
  generalize (takeSeq h.src (h.ahead (s.rally h.src)) h s).2 = u at hserved ⊢
  obtain ⟨hack, hends⟩ := takeStatus_ends hserved.wf h
  have hmsgs : (u.rally h.src).msgs = (s.rally h.src).msgs := by rw [hserved.rally, hr]
  refine ⟨fun x hx => ?_, fun hd h0 => ?_⟩
  · exact ((aboutRelays_without _ _ _).keeps_completeIn (fun _ h => h) h.src _ (hends x (hmsgs ▸ hx))).2.2
  · refine ((aboutRelays_atAck _ _).keeps_completeIn (fun _ h => h) h.src _ hack).2.trans ?_
    rw [hserved.rally]
    exact (horder hd h0).1

/-! ## OPEN (R259, R272) -/

/-- The registers that say which ports send, and what the board holds. -/
def Reg.ofPorts (o : Nat) : Prop := o = Reg.mgtReadyMap ∨ o = Reg.trnPathMask ∨ (0x280000 ≤ o ∧ o < 0x310000)

/-- The ports are as they were. -/
def M.samePorts (s t : M) : Prop := t.board = s.board ∧ ∀ o, Reg.ofPorts o → t.reg o = s.reg o

theorem M.samePorts.setReg {s t : M} (h : s.samePorts t) {o : Nat} (ho : ¬ Reg.ofPorts o) (v : Nat) : s.samePorts (t.setReg o v) :=
  ⟨h.1, fun k hk => (M.reg_setReg_other t v fun e : k = o => ho (e ▸ hk)).trans (h.2 k hk)⟩

theorem aboutLosses_samePorts (s : M) : AboutLosses s.samePorts where
  setReg v ho h := h.setReg (fun hp => by
    simp only [Reg.ofPorts, Reg.ofNotes, Reg.mgtReadyMap, Reg.trnPathMask] at hp ho
    omega) v
  store _ _ h := h
  log _ h := h
  toHost o h := by
    unfold M.toHost
    split <;> exact h
  count v ho h := h.setReg (fun hp => by
    simp only [Reg.ofPorts, Reg.ofTraffic, Reg.mgtReadyMap, Reg.trnPathMask, Reg.trnCtxMisses, Reg.trnCtxStalls, Reg.trnRetx, Reg.trnDrops,
      List.mem_cons, List.not_mem_nil, or_false] at hp ho
    omega) v
  out _ h := h
  ports _ h := h
  trn _ h := h
  isl _ h := h
  draw h := h
  abort v ho h := h.setReg (fun hp => by
    simp only [Reg.ofPorts, Reg.ofAborts, Reg.mgtReadyMap, Reg.trnPathMask, Reg.chkMissed] at hp ho
    omega) v
  rly _ h := h
  core _ h := h
  event := keeps_relayEvent_of fun v ho h => h.setReg (fun hp => by
    simp only [Reg.ofPorts, Reg.mgtReadyMap, Reg.trnPathMask] at hp
    omega) v
  parity v h := h.setReg (fun hp => by
    simp only [Reg.ofPorts, Reg.mgtReadyMap, Reg.trnPathMask, Reg.chkParityState] at hp
    omega) v
  lose _ h := h

section
variable {s t : M} (h : s.samePorts t)
include h

theorem M.samePorts.pathPort (k : Nat) : t.pathPort k = s.pathPort k := by
  rw [M.pathPort, M.pathPorts, h.2 _ (.inr (.inl rfl)), M.pathPort, M.pathPorts]

theorem M.samePorts.portUp (p : Nat) : t.portUp p = s.portUp p := by
  by_cases hp : p < 64
  · have hmode : t.nPorts = s.nPorts := by rw [M.nPorts, h.2 _ (.inr (.inr (by decide))), M.nPorts]
    rw [M.portUp, M.linkUp, hmode, h.2 _ (.inl rfl), h.2 _ (.inr (.inr (by simp only [Reg.ethPortCtl]; omega))),
      h.2 _ (.inr (.inr (by simp only [Reg.ethPortStatus]; omega))), M.portUp, M.linkUp]
  · have hno : ∀ u : M, u.portUp p = false := fun u => Bool.eq_false_iff.2 fun hup => hp (M.port_lt hup)
    rw [hno, hno]

theorem M.samePorts.transmits {p : Nat} : t.transmits p ↔ s.transmits p := by
  simp only [M.transmits, h.portUp, h.1]
  refine and_congr_right fun hup => ?_
  have hp := M.port_lt hup
  rw [M.macsecOk, M.macsec, h.2 _ (.inr (.inr (by simp only [Reg.ethPortCtl]; omega))),
    h.2 _ (.inr (.inr (by simp only [Reg.ethPortStatus]; omega))), M.macsecOk, M.macsec]

/-- A reply goes out on the path's port. -/
theorem M.samePorts.answers (n k : Nat) {typ : Nat} (htyp : typ < 16) (b12 b16 : Nat) :
    s.repliesTo (sendControl n k typ 0 b12 b16 [] 0 t).2 n k typ b12 b16 := fun p hp hsend =>
  sendControl_answers (.refl t) n k htyp b12 b16 p ((h.pathPort k).trans hp) (h.transmits.2 hsend)

end

/-- The inbound direction is open as an OPEN asks, and the OPEN is answered. -/
structure M.opens (s : M) (h : Hdr) (t : M) : Prop where
  inOpen : (t.rally h.src).inOpen = true
  inEpoch : (t.rally h.src).inEpoch = h.epoch
  inOpenSeq : (t.rally h.src).inOpenSeq = h.b12
  reply : s.repliesTo t h.src h.path 4 h.b12 h.epoch

/-- The inbound direction is open anew, and a takeover's fence is there. -/
structure M.opensAnew (s : M) (h : Hdr) (t : M) : Prop extends s.opens h t where
  inAck : (t.rally h.src).inAck = 0xFFFFFFFF
  sack : (t.rally h.src).sack = 0
  ins : (t.rally h.src).ins = []
  fenced : bit h.flags 3 = true → (s.rally h.src).inEpoch ≠ 0 → (s.rally h.src).inEpoch ≠ h.epoch → (t.rally h.src).fenced = some (s.rally h.src).inEpoch

/-- A Rally whose inbound direction opens. -/
def Rally.accepted (r : Rally) (h : Hdr) : Rally :=
  { r with inOpen := true, inEpoch := h.epoch, inOpenSeq := h.b12, inAck := 0xFFFFFFFF, sack := 0, since := 0
           recv := [], ce := [], ins := []
           fenced := if bit h.flags 3 && r.inEpoch != 0 && r.inEpoch != h.epoch then some r.inEpoch else r.fenced }

theorem acceptOpen_opens {s u : M} (hw : u.wf = true) (hports : s.samePorts u) {h : Hdr}
    (hep : (u.rally h.src).inEpoch = (s.rally h.src).inEpoch) : s.opensAnew h (acceptOpen h.src h u).2 ∧ (acceptOpen h.src h u).2.wf = true := by
  have haccept := (M.served.refl hw h.src).updRally (·.accepted h)
  have hrun : (acceptOpen h.src h u).2 = (sendControl h.src h.path 4 0 h.b12 h.epoch [] 0 (updRally h.src (·.accepted h) u).2).2 := by
    rw [acceptOpen, run_bind]
    rfl
  have hports' : s.samePorts (updRally h.src (·.accepted h) u).2 := hports
  rw [hrun]
  generalize (updRally h.src (·.accepted h) u).2 = t at haccept hports' ⊢
  have hserved := haccept.wired (sendControl_frames h.src h.path 4 0 h.b12 h.epoch [] 0 t)
  have hreply := hports'.answers h.src h.path (typ := 4) (by decide) h.b12 h.epoch
  generalize (sendControl h.src h.path 4 0 h.b12 h.epoch [] 0 t).2 = v at hserved hreply ⊢
  refine ⟨⟨⟨?_, ?_, ?_, hreply⟩, ?_, ?_, ?_, fun hflag h0 hne => ?_⟩, hserved.wf⟩
  · rw [hserved.rally, Rally.accepted]
  · rw [hserved.rally, Rally.accepted]
  · rw [hserved.rally, Rally.accepted]
  · rw [hserved.rally, Rally.accepted]
  · rw [hserved.rally, Rally.accepted]
  · rw [hserved.rally, Rally.accepted]
  · rw [hserved.rally, Rally.accepted, hep]
    exact if_pos (by simp [hflag, h0, hne])

/-- The outbound direction may start to open as well. -/
theorem startOpen_opens {s u : M} {h : Hdr} (hu : s.opensAnew h u) (hw : u.wf = true) : s.opensAnew h (startOpen h.src u).2 := by
  obtain ⟨x, hserved⟩ := startOpen_serves hw h.src
  refine ⟨⟨?_, ?_, ?_, fun p hp hsend => ?_⟩, ?_, ?_, ?_, fun hflag h0 hne => ?_⟩
  · rw [hserved.rally]; exact hu.inOpen
  · rw [hserved.rally]; exact hu.inEpoch
  · rw [hserved.rally]; exact hu.inOpenSeq
  · obtain ⟨f, hf, hrest⟩ := hu.reply p hp hsend
    exact ⟨f, hserved.outs.subset hf, hrest⟩
  · rw [hserved.rally]; exact hu.inAck
  · rw [hserved.rally]; exact hu.sack
  · rw [hserved.rally]; exact hu.ins
  · rw [hserved.rally]; exact hu.fenced hflag h0 hne

/-- The inbound direction was last open for an epoch. -/
def Transport.ofEpoch (n e : Nat) (x : Transport) : Prop := Tab.wf Rally.init x.rallies = true ∧ (Tab.read Rally.init x.rallies n).inEpoch = e

theorem aboutLosses_ofEpoch (n e : Nat) : AboutLosses fun t => t.trn.ofEpoch n e :=
  aboutLosses_rallies (fun he ⟨hw, hep⟩ => by
    obtain ⟨hw', hr, -⟩ := he hw
    exact ⟨hw', ((congrArg Rally.inEpoch (hr n).rest :) : _).trans hep⟩) fun {a k r} hl ⟨hw, hep⟩ => by
      refine ⟨Tab.wf_put _ _ _ _ hw, ?_⟩
      dsimp only
      by_cases hk : n = k
      · subst hk
        rw [Tab.read_put_self _ _ _ _ hw]
        exact ((congrArg Rally.inEpoch hl.rest :) : _).trans hep
      · rw [Tab.read_put_other _ _ _ _ _ hk]
        exact hep

theorem recvOpen_opens {s : M} (hw : s.wf = true) (h : Hdr) : s.opens h (recvOpen h s).2 ∧
    ((s.rally h.src).knows h → (s.rally h.src).inOpenSeq = h.b12 → (recvOpen h s).2.rally h.src = s.rally h.src) ∧
    (¬ ((s.rally h.src).knows h ∧ (s.rally h.src).inOpenSeq = h.b12) → s.opensAnew h (recvOpen h s).2) := by
  have hsame : s.samePorts s := ⟨rfl, fun _ _ => rfl⟩
  have hep : s.trn.ofEpoch h.src (s.rally h.src).inEpoch := ⟨M.wf_rallies hw, rfl⟩
  have hanew : s.opensAnew h (recvOpen h s).2 → ¬ ((s.rally h.src).knows h ∧ (s.rally h.src).inOpenSeq = h.b12) → s.opens h (recvOpen h s).2 ∧
      ((s.rally h.src).knows h → (s.rally h.src).inOpenSeq = h.b12 → (recvOpen h s).2.rally h.src = s.rally h.src) ∧
      (¬ ((s.rally h.src).knows h ∧ (s.rally h.src).inOpenSeq = h.b12) → s.opensAnew h (recvOpen h s).2) := fun ha hno =>
    ⟨ha.toopens, fun hk hq => absurd ⟨hk, hq⟩ hno, fun _ => ha⟩
  have hrun : recvOpen h s = (if !(s.rally h.src).inOpen then acceptOpen h.src h
      else if (s.rally h.src).inEpoch = h.epoch then
        if (s.rally h.src).inOpenSeq = h.b12 then sendOpenAck h.src h.path h
        else do
          loseInbound h.src
          acceptOpen h.src h
      else do
        loseOpen h.src
        acceptOpen h.src h
        whenA ((s.rally h.src).out == 2) (startOpen h.src) : Act Unit) s := by
    rw [recvOpen, run_bind, run_get]
  cases hin : (s.rally h.src).inOpen with
  | false =>
    rw [hin] at hrun
    refine hanew ?_ fun hc => absurd hc.1.1 (by simp [hin])
    rw [hrun]
    exact (acceptOpen_opens hw hsame rfl).1
  | true =>
    rw [hin, Bool.not_true, if_neg (by simp)] at hrun
    by_cases hepoch : (s.rally h.src).inEpoch = h.epoch
    · rw [if_pos hepoch] at hrun
      by_cases hseq : (s.rally h.src).inOpenSeq = h.b12
      · rw [if_pos hseq, sendOpenAck] at hrun
        have hwired := sendControl_frames h.src h.path 4 0 h.b12 h.epoch [] 0 s
        have hreply := hsame.answers h.src h.path (typ := 4) (by decide) h.b12 h.epoch
        rw [hrun]
        generalize (sendControl h.src h.path 4 0 h.b12 h.epoch [] 0 s).2 = t at hwired hreply ⊢
        have hrally := hwired.rally h.src
        exact ⟨⟨by rw [hrally, hin], by rw [hrally, hepoch], by rw [hrally, hseq], hreply⟩, fun _ _ => hrally, fun hno => absurd ⟨⟨hin, hepoch⟩, hseq⟩ hno⟩
      · rw [if_neg hseq, run_bind] at hrun
        refine hanew ?_ fun hc => hseq hc.2
        rw [hrun]
        exact (acceptOpen_opens (keepsWf_loseInbound h.src s hw) ((aboutLosses_samePorts s).keeps_loseInbound h.src s hsame)
          ((aboutLosses_ofEpoch _ _).keeps_loseInbound h.src s hep).2).1
    · rw [if_neg hepoch, run_bind, run_bind] at hrun
      refine hanew ?_ fun hc => hepoch hc.1.2
      rw [hrun]
      obtain ⟨hopened, hwf⟩ := acceptOpen_opens (h := h) (keepsWf_loseOpen h.src s hw) ((aboutLosses_samePorts s).keeps_loseOpen h.src s hsame)
        ((aboutLosses_ofEpoch _ _).keeps_loseOpen h.src s hep).2
      cases (s.rally h.src).out == 2 with
      | false => exact hopened
      | true => exact startOpen_opens hopened hwf

end Sys2Proof.Machine

/-! # Packets received, by their kind (R256 to R269, R272) -/

namespace Sys2Proof.Machine

/-! ## OPEN_ACK and RESET (R258) -/

/-- The outbound direction is open once its OPEN_ACK has come. -/
theorem recvOpenAck_opens {s : M} (hw : s.wf = true) (h : Hdr) : let t := (recvOpenAck h s).2
    (¬ ((s.rally h.src).out = 1 ∧ h.b12 = (s.rally h.src).openSeq ∧ bits h.b16 15 0 = s.epoch) → t.rally h.src = s.rally h.src) ∧
    ((s.rally h.src).out = 1 ∧ h.b12 = (s.rally h.src).openSeq ∧ bits h.b16 15 0 = s.epoch → (t.rally h.src).out = 2 ∧ (t.rally h.src).psn = 0 ∧
      (t.rally h.src).acked = 0xFFFFFFFF ∧ (t.rally h.src).unacked = [] ∧
      (t.rally h.src).msgs = (s.rally h.src).msgs.map fun x => { x with mseq := none, sent := 0 }) := by
  let f : Rally → Rally := fun r =>
    { r with out := 2, psn := 0, acked := 0xFFFFFFFF, unacked := [], mseq := 0, openSends := 0, takeover := false
             msgs := r.msgs.map fun m => { m with mseq := none, sent := 0 } }
  rw [recvOpenAck, run_bind, run_get]
  dsimp only
  refine ⟨fun hno => ?_, fun ⟨hout, hseq, hep⟩ => ?_⟩
  · have hc : ((s.rally h.src).out == 1 && h.b12 == (s.rally h.src).openSeq && bits h.b16 15 0 == s.epoch) = false := by
      refine Bool.eq_false_iff.2 fun hc => hno ?_
      simpa [and_assoc] using hc
    rw [hc, run_whenA_false]
  · rw [hout, hseq, hep, beq_self_eq_true, beq_self_eq_true, beq_self_eq_true, Bool.and_true, Bool.and_true, run_whenA_true, run_bind]
    have hopen := (M.served.refl hw h.src).updRally f
    obtain ⟨hrallies, -, -⟩ := takeoverHeard_quiet h.src true (updRally h.src f s).2 _ ⟨rfl, ⟨rfl, rfl⟩, rfl⟩
    generalize (updRally h.src f s).2 = u at hopen hrallies ⊢
    have hrally : (takeoverHeard h.src true u).2.rally h.src = f (s.rally h.src) := by rw [M.rally, hrallies]; exact hopen.rally
    rw [hrally]
    exact ⟨rfl, rfl, rfl, rfl, rfl⟩

/-- A Rally is open in this sequence, and no packet waits for an acknowledgement. -/
def Transport.openIn (n seq : Nat) (x : Transport) : Prop := Tab.wf Rally.init x.rallies = true ∧ (Tab.read Rally.init x.rallies n).out = 2 ∧
  (Tab.read Rally.init x.rallies n).openSeq = seq ∧ (Tab.read Rally.init x.rallies n).unacked = []

theorem aboutLosses_openIn (n seq : Nat) : AboutLosses fun t => t.trn.openIn n seq :=
  aboutLosses_rallies (fun he ⟨hw, hout, hseq, hnone⟩ => by
    obtain ⟨hw', hr, -⟩ := he hw
    obtain ⟨hout', hseq'⟩ := (hr n).opened (.inr hout)
    have hnums := (hr n).unacked
    rw [hnone] at hnums
    exact ⟨hw', hout'.trans hout, hseq'.trans hseq, List.map_eq_nil_iff.1 hnums⟩) fun {a k r} hl ⟨hw, hout, hseq, hnone⟩ => by
      refine ⟨Tab.wf_put _ _ _ _ hw, ?_⟩
      dsimp only
      by_cases hk : n = k
      · subst hk
        rw [Tab.read_put_self _ _ _ _ hw]
        have hout' : r.out = _ := (congrArg Rally.out hl.rest :)
        have hseq' : r.openSeq = _ := (congrArg Rally.openSeq hl.rest :)
        exact ⟨hout'.trans hout, hseq'.trans hseq, hl.unacked.elim id fun h => h.trans hnone⟩
      · rw [Tab.read_put_other _ _ _ _ _ hk]
        exact ⟨hout, hseq, hnone⟩

/-- The open messages are lost, and then no packet waits. -/
theorem loseOpen_openIn {s : M} (hw : s.wf = true) {n : Nat} (hout : (s.rally n).out = 2) : (loseOpen n s).2.trn.openIn n (s.rally n).openSeq := by
  have hdrop := (M.served.refl hw n).updRally fun r => { r with msgs := (s.rally n).msgs.filter (·.mseq.isNone), unacked := [], stats := [] }
  rw [loseOpen, run_bind, run_get]
  dsimp only
  rw [run_bind]
  generalize (updRally n (fun r => { r with msgs := (s.rally n).msgs.filter (·.mseq.isNone), unacked := [], stats := [] }) s).2 = t at hdrop ⊢
  have hP := aboutLosses_openIn n (s.rally n).openSeq
  refine keeps_bind (hP.keeps_loseInbound n) (fun _ => keeps_forA fun _ => hP.keeps_ownerLost _ _) t ⟨M.wf_rallies hdrop.wf, ?_, ?_, ?_⟩
  · exact (congrArg Rally.out hdrop.rally).trans hout
  · exact (congrArg Rally.openSeq hdrop.rally :)
  · exact (congrArg Rally.unacked hdrop.rally :)

theorem recvReset_opens {s : M} (hw : s.wf = true) (h : Hdr) : let t := (recvReset h s).2
    (¬ ((s.rally h.src).out = 2 ∧ bits h.b16 15 0 = s.epoch) → t.rally h.src = s.rally h.src) ∧
    ((s.rally h.src).out = 2 ∧ bits h.b16 15 0 = s.epoch → (t.rally h.src).out = 1 ∧ (t.rally h.src).openSeq = trunc 32 ((s.rally h.src).openSeq + 1) ∧
      (t.rally h.src).unacked = []) := by
  rw [recvReset, run_bind, run_get]
  dsimp only
  refine ⟨fun hno => ?_, fun ⟨hout, hep⟩ => ?_⟩
  · have hc : ((s.rally h.src).out == 2 && bits h.b16 15 0 == s.epoch) = false :=
      Bool.eq_false_iff.2 fun hc => hno (by simpa using hc)
    rw [hc, run_whenA_false]
  · rw [hout, hep, beq_self_eq_true, beq_self_eq_true, Bool.and_true, run_whenA_true, run_bind]
    obtain ⟨-, -, hseq, hnone⟩ := loseOpen_openIn hw hout
    obtain ⟨x, hserved⟩ := startOpen_serves (keepsWf_loseOpen h.src s hw) h.src
    rw [hserved.rally]
    exact ⟨rfl, congrArg (fun q => trunc 32 (q + 1)) hseq, hnone⟩

/-! ## PROBE and PROBE_REPLY (R267, R268) -/

theorem recvProbe_replies {s t : M} (h : s.wired t) (x : Hdr) : t.wired (recvProbe x t).2 ∧ s.repliesTo (recvProbe x t).2 x.src x.path 7 x.ts 0 :=
  ⟨sendControl_frames _ _ _ _ _ _ _ _ _, sendControl_answers h _ _ (by decide) _ _⟩

theorem recvProbeReply_serves {s : M} (hw : s.wf = true) (h : Hdr) (hpaths : Tab.wf PathSt.init (s.rally h.src).paths = true) :
    ∃ r, s.served h.src r (recvProbeReply h s).2 ∧ (r.path h.path).suspect = false ∧ (r.path h.path).touts = 0 := by
  rw [recvProbeReply, run_bind, run_get]
  dsimp only
  refine ⟨_, (M.served.refl hw h.src).updRally _, ?_⟩
  rw [Rally.setPath_path hpaths, if_pos rfl]
  exact ⟨rfl, rfl⟩

/-! ## A row of the table of packets -/

/-- The rows of the table, for a packet at a port. -/
def packetRows (port : Nat) (packet : List Byte) : List (Nat × Instr) :=
  [(0, .data port false packet), (0, .data port true packet), (1, .ack port 0 packet), (2, .msgStatus port packet), (3, .openPacket port packet),
    (4, .openAck port packet), (5, .resetPacket port packet), (6, .probe port packet), (7, .probeReply port 0 packet)]

/-- Every row runs its kind of packet, at the time that it gives. -/
theorem exec_packetRow {s : State} (hl : s.m.board.live = true) (hw : s.m.wf = true) {port : Nat} {packet : List Byte} {x : Nat × Instr}
    (hx : x ∈ packetRows port packet) : ∃ ce i, ({ s.m with isl := i } : M).wf = true ∧
      exec x.2 s = s.becomes (recvRow x.1 port ce packet { s.m with isl := i }).2 := by
  have hnow : ∀ c k, exec c s = s.becomes (recvRow k port false packet (s.m.atTime 0)).2 → ∃ ce i, ({ s.m with isl := i } : M).wf = true ∧
      exec c s = s.becomes (recvRow k port ce packet { s.m with isl := i }).2 := fun _ _ h => ⟨false, (s.m.atTime 0).isl, M.wf_atTime hw 0, h⟩
  simp only [packetRows, List.mem_cons, List.not_mem_nil, or_false] at hx
  rcases hx with rfl | rfl | rfl | rfl | rfl | rfl | rfl | rfl | rfl
  · exact ⟨false, s.m.isl, hw, by rw [exec, execData, State.doing_live s _ hl]⟩
  · exact ⟨true, s.m.isl, hw, by rw [exec, execData, State.doing_live s _ hl]⟩
  · exact hnow _ _ (by rw [exec, execAck, State.doing_live s _ hl]; rfl)
  · exact ⟨false, s.m.isl, hw, by rw [exec, execMsgStatus, State.doing_live s _ hl]⟩
  · exact ⟨false, s.m.isl, hw, by rw [exec, execOpenPacket, State.doing_live s _ hl]⟩
  · exact ⟨false, s.m.isl, hw, by rw [exec, execOpenAck, State.doing_live s _ hl]⟩
  · exact ⟨false, s.m.isl, hw, by rw [exec, execResetPacket, State.doing_live s _ hl]⟩
  · exact ⟨false, s.m.isl, hw, by rw [exec, execProbe, State.doing_live s _ hl]⟩
  · exact hnow _ _ (by rw [exec, execProbeReply, State.doing_live s _ hl]; rfl)

/-- A dropped packet is counted, and nothing else has happened. -/
def M.drops (s m : M) : Prop := m.reg Reg.trnDrops = trunc 64 (s.reg Reg.trnDrops + 1) ∧ s.sameStores m ∧ m.cores = s.cores ∧ m.boot = s.boot

theorem M.drops_of_tallied {s m : M} {i : Tab Nat} (hw : ({ s with isl := i } : M).wf = true)
    (h : ({ s with isl := i } : M).packetDropped.tallied m) : s.drops m ∧ m.trn = s.trn :=
  ⟨⟨(h.reg_low (o := Reg.trnDrops) (by decide)).trans (M.reg_setReg_self _ _ _ hw), h.stores, h.cores, (congrArg M.boot h.rest :)⟩, h.trn⟩

/-- A packet that is not taken: it is no concern of the port's, is dropped, or waits for its context. -/
theorem packetRow_refuses {s : State} (hl : s.m.board.live = true) (hw : s.m.wf = true) {port : Nat} {packet : List Byte} {x : Nat × Instr}
    (hx : x ∈ packetRows port packet) : let h := Hdr.parse packet
    (¬ s.m.receives port ∨ h.typ ≠ x.1 → s.ends (exec x.2 s) fun m => m = { s.m with isl := m.isl }) ∧
    (s.m.receives port → h.typ = x.1 → s.m.badPacket packet h = true → s.ends (exec x.2 s) fun m => s.m.drops m ∧ m.trn = s.m.trn) ∧
    (s.m.receives port → h.typ = x.1 → s.m.badPacket packet h = false → (s.m.rally h.src).onChip = false → (s.m.rally h.src).loading = true →
      ((s.m.rally h.src).missQ.length < 64 → s.ends (exec x.2 s) fun m => s.m.sameStores m ∧ m.cores = s.m.cores ∧
        ∃ e, m.rally h.src = { s.m.rally h.src with missQ := (s.m.rally h.src).missQ ++ [(port, e, packet)] }) ∧
      (64 ≤ (s.m.rally h.src).missQ.length → s.ends (exec x.2 s) fun m => s.m.drops m ∧ m.trn = s.m.trn)) := by
  obtain ⟨ce, i, hwi, hrun⟩ := exec_packetRow hl hw hx
  intro h
  refine ⟨fun hno => ?_, fun hrec htyp hbad => ?_, fun hrec htyp hbad hchip hload => ?_⟩
  · refine ⟨_, hrun, ?_⟩
    rw [recvRow_idle (s := { s.m with isl := i }) hno]
  · rw [recvRow_hears (s := { s.m with isl := i }) hrec htyp] at hrun
    exact ⟨_, hrun, M.drops_of_tallied hwi (recvPacket_bad hwi (M.port_lt hrec.2.1) ce hbad)⟩
  · rw [recvRow_hears (s := { s.m with isl := i }) hrec htyp] at hrun
    obtain ⟨hwait, hfull⟩ := recvPacket_waits hwi (M.port_lt hrec.2.1) ce hbad hchip hload
    refine ⟨fun hroom => ?_, fun hmany => ⟨_, hrun, M.drops_of_tallied hwi (hfull hmany)⟩⟩
    have hserved := hwait hroom
    exact ⟨_, hrun, hserved.stores, hserved.cores, ce, hserved.rally⟩

/-- A packet that is taken, on a machine whose time may have moved, meets its kind's rule once its context has been used. -/
theorem recvRow_takes {s : M} {i : Tab Nat} {port typ : Nat} {packet : List Byte} (ce : Bool) (hrec : s.receives port)
    (htyp : (Hdr.parse packet).typ = typ) (hbad : s.badPacket packet (Hdr.parse packet) = false) (hchip : (s.rally (Hdr.parse packet).src).onChip = true) :
    (recvRow typ port ce packet { s with isl := i }).2 =
      (recvTyped port ce (Hdr.parse packet) (touchCtx (Hdr.parse packet).src { s with isl := i }).2).2 := by
  rw [recvRow_hears (s := { s with isl := i }) hrec htyp, recvPacket_taken (s := { s with isl := i }) ce hbad hchip]

end Sys2Proof.Machine

/-! # What each kind of packet does at the end that takes it -/

namespace Sys2Proof.Machine

theorem M.lenOk_of_good {s : M} {packet : List Byte} (h : s.badPacket packet (Hdr.parse packet) = false) :
    (Hdr.parse packet).body.length = (Hdr.parse packet).plen := by
  simp only [M.badPacket, Bool.or_eq_false_iff, Bool.not_eq_false'] at h
  have hlen := h.1.2
  rw [Hdr.lenOk, Bool.and_eq_true, beq_iff_eq] at hlen
  exact hlen.1

/-- A reply of a machine that has been served is one of the machine before. -/
theorem M.served.repliesTo {s t m : M} {k : Nat} {r : Rally} (h : s.served k r t) {n path typ b12 b16 : Nat} (hr : t.repliesTo m n path typ b12 b16) :
    s.repliesTo m n path typ b12 b16 := fun p hp hsend => hr p ((h.pathPort path).trans hp) (h.transmits.2 hsend)

theorem M.served.inWindow {s t : M} {k : Nat} {r : Rally} (h : s.served k r t) (a n : Nat) : t.inWindow a n = s.inWindow a n := by
  have hreg : ∀ i, i < 8 → t.reg (Reg.trnRwin i) = s.reg (Reg.trnRwin i) := fun i hi => h.regs _ fun hof => by
    simp only [Reg.ofTraffic, Reg.trnRwin, Reg.trnCtxMisses, Reg.trnCtxStalls, Reg.trnRetx, Reg.trnDrops, List.mem_cons, List.not_mem_nil,
      or_false] at hof
    omega
  unfold M.inWindow
  refine Bool.eq_iff_iff.2 ?_
  simp only [List.any_eq_true, List.mem_range]
  refine exists_congr fun i => and_congr_right fun hi => ?_
  rw [hreg i hi]

section
variable {s : State} (hl : s.m.board.live = true) (hw : s.m.wf = true) {port : Nat} {packet : List Byte} (hrec : s.m.receives port)
  (hbad : s.m.badPacket packet (Hdr.parse packet) = false) (hchip : (s.m.rally (Hdr.parse packet).src).onChip = true)
include hl hw hrec hbad hchip

/-- DATA runs on the machine whose context has been used. -/
theorem exec_data_taken (htyp : (Hdr.parse packet).typ = 0) (ce : Bool) : ∃ u t, s.m.served (Hdr.parse packet).src
    { s.m.rally (Hdr.parse packet).src with used := u } t ∧ t.regs = s.m.regs ∧
    exec (.data port ce packet) s = s.becomes (recvSeq port ce (Hdr.parse packet) t).2 := by
  refine ⟨_, _, (M.served.refl hw _).touchCtx, rfl, ?_⟩
  rw [exec, execData, State.doing_live s _ hl]
  have := recvRow_takes (i := s.m.isl) ce hrec htyp hbad hchip
  rw [recvTyped, htyp] at this
  exact congrArg s.becomes this

theorem data_unknown (htyp : (Hdr.parse packet).typ = 0) (ce : Bool) (hno : ¬ (s.m.rally (Hdr.parse packet).src).knows (Hdr.parse packet)) :
    s.ends (exec (.data port ce packet) s) fun m => s.m.drops m ∧ (∃ u, m.rally (Hdr.parse packet).src = { s.m.rally (Hdr.parse packet).src with used := u }) ∧
      s.m.repliesTo m (Hdr.parse packet).src (Hdr.parse packet).path 5 0 (Hdr.parse packet).epoch := by
  obtain ⟨u, t, hserved, hregs, hrun⟩ := exec_data_taken hl hw hrec hbad hchip htyp ce
  rw [recvSeq_unknown (by rw [hserved.rally]; exact hno)] at hrun
  obtain ⟨hwired, hcount, hreply⟩ := resetBack_drops hserved.wf (M.port_lt hrec.2.1) (Hdr.parse packet)
  have hall := hserved.wired hwired
  refine ⟨_, hrun, ⟨?_, hall.stores, hall.cores, hall.boot⟩, ⟨u, hall.rally⟩, hserved.repliesTo hreply⟩
  rw [hcount, M.reg, hregs, M.reg]

theorem data_again (htyp : (Hdr.parse packet).typ = 0) (ce : Bool) (hyes : (s.m.rally (Hdr.parse packet).src).knows (Hdr.parse packet))
    (hold : ¬ ((Hdr.parse packet).ahead (s.m.rally (Hdr.parse packet).src) < 2048 ∧
      bit (s.m.rally (Hdr.parse packet).src).sack ((Hdr.parse packet).ahead (s.m.rally (Hdr.parse packet).src)) = false))
    (hnear : (Hdr.parse packet).ahead (s.m.rally (Hdr.parse packet).src) < 2048 ∨ 2 ^ 31 ≤ (Hdr.parse packet).ahead (s.m.rally (Hdr.parse packet).src)) :
    s.ends (exec (.data port ce packet) s) fun m => s.m.sameStores m ∧ m.cores = s.m.cores ∧
      (m.rally (Hdr.parse packet).src).ins = (s.m.rally (Hdr.parse packet).src).ins ∧
      (m.rally (Hdr.parse packet).src).inAck = (s.m.rally (Hdr.parse packet).src).inAck ∧ (m.rally (Hdr.parse packet).src).since = 0 := by
  obtain ⟨u, t, hserved, -, hrun⟩ := exec_data_taken hl hw hrec hbad hchip htyp ce
  have hr := hserved.rally
  obtain ⟨x, y, hagain⟩ := recvSeq_again hserved.wf (M.port_lt hrec.2.1) ce (Hdr.parse packet) (by rw [hr]; exact hyes) (by rw [hr]; exact hold)
    (by rw [hr]; exact hnear)
  rw [hr] at hagain
  have hall := hserved.trans hagain
  refine ⟨_, hrun, hall.stores, hall.cores, ?_⟩
  rw [hall.rally]
  exact ⟨rfl, rfl, rfl⟩

theorem data_far (htyp : (Hdr.parse packet).typ = 0) (ce : Bool) (hyes : (s.m.rally (Hdr.parse packet).src).knows (Hdr.parse packet))
    (hfar : 2048 ≤ (Hdr.parse packet).ahead (s.m.rally (Hdr.parse packet).src) ∧ (Hdr.parse packet).ahead (s.m.rally (Hdr.parse packet).src) < 2 ^ 31) :
    s.ends (exec (.data port ce packet) s) fun m => s.m.drops m ∧
      (m.rally (Hdr.parse packet).src).ins = (s.m.rally (Hdr.parse packet).src).ins := by
  obtain ⟨u, t, hserved, hregs, hrun⟩ := exec_data_taken hl hw hrec hbad hchip htyp ce
  have hr := hserved.rally
  obtain ⟨⟨x, y, hdropped⟩, hcount⟩ := recvSeq_far hserved.wf (M.port_lt hrec.2.1) ce (Hdr.parse packet) (by rw [hr]; exact hyes) (by rw [hr]; exact hfar)
  rw [hr] at hdropped
  have hall := hserved.trans hdropped
  refine ⟨_, hrun, ⟨?_, hall.stores, hall.cores, hall.boot⟩, (congrArg Rally.ins hall.rally :)⟩
  rw [hcount, M.reg, hregs, M.reg]

/-- New DATA of class 2 lands where its lines belong. -/
theorem data_lands (htyp : (Hdr.parse packet).typ = 0) (ce : Bool) (hyes : (s.m.rally (Hdr.parse packet).src).knows (Hdr.parse packet))
    (hnew : (Hdr.parse packet).ahead (s.m.rally (Hdr.parse packet).src) < 2048 ∧
      bit (s.m.rally (Hdr.parse packet).src).sack ((Hdr.parse packet).ahead (s.m.rally (Hdr.parse packet).src)) = false)
    (hcls : (Hdr.parse packet).cls = 2) (hroom : (s.m.rally (Hdr.parse packet).src).ins.length < 32) (hmode : s.m.rly.parity.mode = 0)
    (hok : ∀ i, i < (Hdr.parse packet).plen / 36 → rsDecode (((codewordsOf (Hdr.parse packet).body).getD i []).map (·.toNat)) = .ok)
    (hins : ∀ x ∈ (s.m.rally (Hdr.parse packet).src).ins, (x.cls = 2 ∨ x.last = none) ∧
      (x.mseq = (Hdr.parse packet).b12 → x.cls = 2 ∧ x.tag = (Hdr.parse packet).tag ∧ x.aborted = false)) :
    let h := Hdr.parse packet
    let base := h.tag * 1024 + 32 * h.b16
    let len := 32 * (h.plen / 36)
    let ok := s.m.inWindow base len = true ∧ inRegion base len = true
    s.ends (exec (.data port ce packet) s) fun m => m.cores = s.m.cores ∧
      (ok → (∀ i, i < h.plen / 36 → m.bytes (base + 32 * i) 32 = ((codewordsOf h.body).getD i []).take 32) ∧
        ∀ a, a < base ∨ base + len ≤ a → m.byte a = s.m.byte a) ∧
      (¬ ok → s.m.sameStores m) ∧
      (h.ahead (s.m.rally h.src) = 0 → (s.m.rally h.src).sack = 0 → (m.rally h.src).inAck = trunc 32 ((s.m.rally h.src).inAck + 1) ∧
        (m.rally h.src).sack = 0) := by
  have hlen := M.lenOk_of_good hbad
  obtain ⟨u, t, hserved, -, hrun⟩ := exec_data_taken hl hw hrec hbad hchip htyp ce
  have hr := hserved.rally
  have hknows : (t.rally (Hdr.parse packet).src).knows (Hdr.parse packet) := by rw [hr]; exact hyes
  generalize Hdr.parse packet = h at *
  intro h'
  have hsame : h = h' := rfl
  clear_value h'
  subst hsame
  intro base len ok
  obtain ⟨⟨x, y, hnoted⟩, -⟩ := noteData_notes hserved.wf (M.port_lt hrec.2.1) ce h
  rw [hr] at hnoted
  have hall := hserved.trans hnoted
  let found : InMsg := ((s.m.rally h.src).ins.find? (·.mseq = h.b12)).getD { mseq := h.b12, cls := h.cls, tag := h.tag }
  have hfound : found.cls = 2 ∧ found.aborted = false := by
    cases hf : (s.m.rally h.src).ins.find? (·.mseq = h.b12) with
    | none => simp only [found, hf, Option.getD_none]; exact ⟨hcls, trivial⟩
    | some z =>
      obtain ⟨-, hz⟩ := hins z (List.mem_of_find?_eq_some hf)
      obtain ⟨hzc, -, hza⟩ := hz (by simpa using List.find?_some hf)
      simp only [found, hf, Option.getD_some]
      exact ⟨hzc, hza⟩
  have hplace : recvSeq port ce h t = placeData h.src (h.ahead (s.m.rally h.src)) found (h) (noteData port ce h t).2 := by
    have hahead : h.ahead (t.rally h.src) = h.ahead (s.m.rally h.src) := by rw [hr]; rfl
    rw [recvSeq_known hknows, hahead, recvKnown, hr, if_pos (by simpa using hnew), if_neg (by omega)]
    dsimp only
    rw [if_neg (by omega), if_neg (fun hc => by have := hc.1; rw [show ((s.m.rally h.src).ins.find? _).getD _ = found from rfl] at this; omega)]
  rw [hplace] at hrun
  generalize (noteData port ce h t).2 = v at hall hrun
  have hrly : v.rly = s.m.rly := (congrArg M.rly hall.rest :)
  obtain ⟨hcores, hin, hout, horder⟩ := placeData_places hall.wf (by rw [hrly]; exact hmode) h.src (h.ahead (s.m.rally h.src)) hfound.1 hfound.2 hlen hok
    (by rw [hall.rally]; exact fun z hz => (hins z hz).1)
  have hlands : v.lands found h = true ↔ ok := by
    rw [M.lands, hfound.1, hall.inWindow]
    simp only [ok, base, len, Nat.reduceBEq, Bool.false_or, Bool.and_eq_true]
  refine ⟨_, hrun, hcores.trans hall.cores, fun hyes => ?_, fun hno => ?_, fun hd h0 => ?_⟩
  · obtain ⟨hbytes, hothers⟩ := hin (hlands.2 hyes)
    refine ⟨hbytes, fun a ha => (hothers a ha).trans ?_⟩
    rw [M.byte, hall.stores.1, M.byte]
  · have hsame := hout (Bool.eq_false_iff.2 fun hc => hno (hlands.1 hc))
    exact ⟨hsame.1.trans hall.stores.1, hsame.2.trans hall.stores.2⟩
  · rw [hall.rally] at horder
    exact horder hd h0

omit hl in
/-- A packet of a row that has no time runs on the machine whose context has been used. -/
theorem exec_taken {typ : Nat} {c : Instr} (hrun : exec c s = s.becomes (recvRow typ port false packet s.m).2) (htyp : (Hdr.parse packet).typ = typ) :
    ∃ u t, s.m.served (Hdr.parse packet).src { s.m.rally (Hdr.parse packet).src with used := u } t ∧ t.regs = s.m.regs ∧
      exec c s = s.becomes (recvTyped port false (Hdr.parse packet) t).2 :=
  ⟨_, _, (M.served.refl hw _).touchCtx, rfl, hrun.trans (congrArg s.becomes (recvRow_takes (i := s.m.isl) false hrec htyp hbad hchip))⟩

omit hl in
/-- A packet of a row that has a time runs then on the machine whose context has been used. -/
theorem exec_taken_at {typ : Nat} {c : Instr} (now : Nat) (hrun : exec c s = s.becomes (recvRow typ port false packet (s.m.atTime now)).2)
    (htyp : (Hdr.parse packet).typ = typ) : ∃ u t, (s.m.atTime now).served (Hdr.parse packet).src { s.m.rally (Hdr.parse packet).src with used := u } t ∧
      exec c s = s.becomes (recvTyped port false (Hdr.parse packet) t).2 :=
  ⟨_, _, (M.served.refl (M.wf_atTime hw now) _).touchCtx,
    hrun.trans (congrArg s.becomes (recvRow_takes (i := (s.m.atTime now).isl) false hrec htyp hbad hchip))⟩

theorem ack_acks (htyp : (Hdr.parse packet).typ = 1) (now : Nat) : let h := Hdr.parse packet
    let r := s.m.rally h.src
    s.ends (exec (.ack port now packet) s) fun m =>
      (r.out ≠ 2 → (m.rally h.src).unacked = r.unacked ∧ (m.rally h.src).acked = r.acked) ∧
      (r.out = 2 → (m.rally h.src).unacked.map (·.psn) = (r.unacked.filter fun p => !ackedBy h.b8 (trunc 2048 (leNat h.body)) p.psn).map (·.psn) ∧
        (m.rally h.src).acked = if trunc 32 (h.b8 + 2 ^ 32 - r.acked) < 2 ^ 31 then h.b8 else r.acked) := by
  obtain ⟨u, t, hserved, hrun⟩ := exec_taken_at hw hrec hbad hchip (c := .ack port now packet) now
    (by rw [exec, execAck, State.doing_live s _ hl]; rfl) htyp
  rw [recvTyped, htyp] at hrun
  have hp := M.port_lt hrec.2.1
  generalize Hdr.parse packet = h at *
  intro h'
  have hsame : h = h' := rfl
  clear_value h'
  subst hsame
  intro r
  have hran : exec (.ack port now packet) s = s.becomes (recvAck port h t).2 := hrun
  obtain ⟨hclosed, hopen⟩ := recvAck_acks hserved.wf hp h
  rw [hserved.rally] at hclosed hopen
  refine ⟨_, hran, fun hout => ?_, fun hout => ?_⟩
  · rw [hclosed hout]
    exact ⟨rfl, rfl⟩
  · obtain ⟨-, hnums, hacked⟩ := hopen hout
    refine ⟨hnums, hacked.trans ?_⟩
    rw [Rally.acknowledged]
    dsimp only
    simp only [decide_eq_true_eq]
    rfl

theorem msgStatus_ends (htyp : (Hdr.parse packet).typ = 2) (hyes : (s.m.rally (Hdr.parse packet).src).knows (Hdr.parse packet))
    (hnew : (Hdr.parse packet).ahead (s.m.rally (Hdr.parse packet).src) < 2048 ∧
      bit (s.m.rally (Hdr.parse packet).src).sack ((Hdr.parse packet).ahead (s.m.rally (Hdr.parse packet).src)) = false) :
    let h := Hdr.parse packet
    let r := s.m.rally h.src
    s.ends (exec (.msgStatus port packet) s) fun m =>
      (∀ x, r.msgs.find? (fun x => x.mseq == some h.b12 && x.cls == h.cls && x.tag == h.tag) = some x → ∀ y ∈ (m.rally h.src).msgs, y.mseq ≠ some h.b12) ∧
      (h.ahead r = 0 → r.sack = 0 → (m.rally h.src).inAck = trunc 32 (r.inAck + 1)) := by
  obtain ⟨u, t, hserved, -, hrun⟩ := exec_taken hw hrec hbad hchip (c := .msgStatus port packet)
    (by rw [exec, execMsgStatus, State.doing_live s _ hl]) htyp
  rw [recvTyped, htyp] at hrun
  have hr := hserved.rally
  obtain ⟨hends, horder⟩ := recvStatus_ends hserved.wf port false htyp (by rw [hr]; exact hyes) (by rw [hr]; exact hnew)
  rw [hr] at hends horder
  exact ⟨_, hrun, hends, horder⟩

theorem openPacket_opens (htyp : (Hdr.parse packet).typ = 3) : let h := Hdr.parse packet
    let r := s.m.rally h.src
    s.ends (exec (.openPacket port packet) s) fun m => s.m.opens h m ∧
      (r.knows h → r.inOpenSeq = h.b12 → ∃ u, m.rally h.src = { r with used := u }) ∧
      (¬ (r.knows h ∧ r.inOpenSeq = h.b12) → s.m.opensAnew h m) := by
  obtain ⟨u, t, hserved, -, hrun⟩ := exec_taken hw hrec hbad hchip (c := .openPacket port packet)
    (by rw [exec, execOpenPacket, State.doing_live s _ hl]) htyp
  rw [recvTyped, htyp] at hrun
  have hr := hserved.rally
  obtain ⟨hopens, hsame, hanew⟩ := recvOpen_opens hserved.wf (Hdr.parse packet)
  rw [hr] at hsame hanew
  have hback : ∀ {m}, t.opens (Hdr.parse packet) m → s.m.opens (Hdr.parse packet) m := fun ho =>
    ⟨ho.inOpen, ho.inEpoch, ho.inOpenSeq, hserved.repliesTo ho.reply⟩
  refine ⟨_, hrun, hback hopens, fun hk hq => ⟨u, hsame hk hq⟩, fun hno => ?_⟩
  have ha := hanew hno
  have hfence := ha.fenced
  rw [hr] at hfence
  exact ⟨hback ha.toopens, ha.inAck, ha.sack, ha.ins, hfence⟩

theorem openAck_opens (htyp : (Hdr.parse packet).typ = 4) : let h := Hdr.parse packet
    let r := s.m.rally h.src
    let mine := r.out = 1 ∧ h.b12 = r.openSeq ∧ bits h.b16 15 0 = s.m.epoch
    s.ends (exec (.openAck port packet) s) fun m => (¬ mine → ∃ u, m.rally h.src = { r with used := u }) ∧
      (mine → (m.rally h.src).out = 2 ∧ (m.rally h.src).psn = 0 ∧ (m.rally h.src).acked = 0xFFFFFFFF ∧ (m.rally h.src).unacked = [] ∧
        (m.rally h.src).msgs = r.msgs.map fun x => { x with mseq := none, sent := 0 }) := by
  obtain ⟨u, t, hserved, hregs, hrun⟩ := exec_taken hw hrec hbad hchip (c := .openAck port packet)
    (by rw [exec, execOpenAck, State.doing_live s _ hl]) htyp
  rw [recvTyped, htyp] at hrun
  obtain ⟨hstays, hopens⟩ := recvOpenAck_opens hserved.wf (Hdr.parse packet)
  have hepoch : t.epoch = s.m.epoch := by rw [M.epoch, M.reg, hregs, M.epoch, M.reg]
  rw [hserved.rally, hepoch] at hstays hopens
  exact ⟨_, hrun, fun hno => ⟨u, hstays hno⟩, hopens⟩

theorem resetPacket_opens (htyp : (Hdr.parse packet).typ = 5) : let h := Hdr.parse packet
    let r := s.m.rally h.src
    let mine := r.out = 2 ∧ bits h.b16 15 0 = s.m.epoch
    s.ends (exec (.resetPacket port packet) s) fun m => (¬ mine → ∃ u, m.rally h.src = { r with used := u }) ∧
      (mine → (m.rally h.src).out = 1 ∧ (m.rally h.src).openSeq = trunc 32 (r.openSeq + 1) ∧ (m.rally h.src).unacked = []) := by
  obtain ⟨u, t, hserved, hregs, hrun⟩ := exec_taken hw hrec hbad hchip (c := .resetPacket port packet)
    (by rw [exec, execResetPacket, State.doing_live s _ hl]) htyp
  rw [recvTyped, htyp] at hrun
  obtain ⟨hstays, hopens⟩ := recvReset_opens hserved.wf (Hdr.parse packet)
  have hepoch : t.epoch = s.m.epoch := by rw [M.epoch, M.reg, hregs, M.epoch, M.reg]
  rw [hserved.rally, hepoch] at hstays hopens
  exact ⟨_, hrun, fun hno => ⟨u, hstays hno⟩, hopens⟩

theorem probe_replies (htyp : (Hdr.parse packet).typ = 6) : let h := Hdr.parse packet
    s.ends (exec (.probe port packet) s) fun m => (∃ u, m.rally h.src = { s.m.rally h.src with used := u }) ∧ s.m.repliesTo m h.src h.path 7 h.ts 0 ∧
      s.m.sameStores m := by
  obtain ⟨u, t, hserved, -, hrun⟩ := exec_taken hw hrec hbad hchip (c := .probe port packet)
    (by rw [exec, execProbe, State.doing_live s _ hl]) htyp
  rw [recvTyped, htyp] at hrun
  obtain ⟨hwired, hreply⟩ := recvProbe_replies (.refl t) (Hdr.parse packet)
  have hall := hserved.wired hwired
  exact ⟨_, hrun, ⟨u, hall.rally⟩, hserved.repliesTo hreply, hall.stores⟩

theorem probeReply_restores (htyp : (Hdr.parse packet).typ = 7) (hpaths : Tab.wf PathSt.init (s.m.rally (Hdr.parse packet).src).paths = true) (now : Nat) :
    let h := Hdr.parse packet
    s.ends (exec (.probeReply port now packet) s) fun m => ((m.rally h.src).path h.path).suspect = false ∧ ((m.rally h.src).path h.path).touts = 0 ∧
      s.m.sameStores m := by
  obtain ⟨u, t, hserved, hrun⟩ := exec_taken_at hw hrec hbad hchip (c := .probeReply port now packet) now
    (by rw [exec, execProbeReply, State.doing_live s _ hl]; rfl) htyp
  rw [recvTyped, htyp] at hrun
  have hran : exec (.probeReply port now packet) s = s.becomes (recvProbeReply (Hdr.parse packet) t).2 := hrun
  obtain ⟨r, hreplied, hsuspect, htouts⟩ := recvProbeReply_serves hserved.wf (Hdr.parse packet) (by rw [hserved.rally]; exact hpaths)
  have hall := hserved.trans hreplied
  refine ⟨_, hran, ?_, ?_, hall.stores⟩
  · rw [hall.rally]; exact hsuspect
  · rw [hall.rally]; exact htouts

end

/-- Settles O55: a packet is dropped, waits, or meets the rule of its kind on the machine whose context has been used. -/
theorem packetsReceived : Obligations.PacketsReceived := by
  intro s port packet hl hw h n r rows dropped receives taken touched sends answered d known fresh
  refine ⟨fun x hx => ?_, fun ⟨hrec, hbad, hchip⟩ htyp ce => ?_, fun ⟨hrec, hbad, hchip⟩ htyp now => ack_acks hl hw hrec hbad hchip htyp now,
    fun ⟨hrec, hbad, hchip⟩ htyp ⟨hyes, hnew⟩ => msgStatus_ends hl hw hrec hbad hchip htyp hyes hnew, fun ⟨hrec, hbad, hchip⟩ htyp => ?_,
    fun ⟨hrec, hbad, hchip⟩ htyp => openAck_opens hl hw hrec hbad hchip htyp, fun ⟨hrec, hbad, hchip⟩ htyp => resetPacket_opens hl hw hrec hbad hchip htyp,
    fun ⟨hrec, hbad, hchip⟩ htyp => probe_replies hl hw hrec hbad hchip htyp,
    fun ⟨hrec, hbad, hchip⟩ htyp hpaths now => probeReply_restores hl hw hrec hbad hchip htyp hpaths now⟩
  · exact packetRow_refuses hl hw hx
  · intro c
    refine ⟨fun hno => data_unknown hl hw hrec hbad hchip htyp ce hno, fun hyes hold hnear => ?_, fun hyes hlow hhigh =>
      data_far hl hw hrec hbad hchip htyp ce hyes ⟨hlow, hhigh⟩, fun ⟨hyes, hnew⟩ hcls hroom hmode hok hins =>
      data_lands hl hw hrec hbad hchip htyp ce hyes hnew hcls hroom hmode hok hins⟩
    exact data_again hl hw hrec hbad hchip htyp ce hyes (fun hc => hold ⟨hyes, hc⟩) hnear
  · obtain ⟨m, hrun, hopens, hsame, hanew⟩ := openPacket_opens hl hw hrec hbad hchip htyp
    refine ⟨m, hrun, hopens.inOpen, hopens.inEpoch, hopens.inOpenSeq, hopens.reply, fun hk hq => hsame hk hq, fun hno => ?_⟩
    have ha := hanew hno
    exact ⟨ha.inAck, ha.sack, ha.ins, ha.fenced⟩

end Sys2Proof.Machine

/-! # The areas that the module writes for itself (R117, R348, R358) -/

namespace Sys2Proof.Machine

/-- The second machine is the first but for its stores and the free values that were drawn. -/
def M.redrawn (s t : M) : Prop := { t with mem := s.mem, chk := s.chk, free := s.free } = s

theorem M.redrawn.refl (s : M) : s.redrawn s := rfl

theorem M.redrawn.overlay {s t : M} (h : s.redrawn t) (a n : Nat) : s.redrawn (t.overlay a n) := h

theorem M.redrawn.reg {s t : M} (h : s.redrawn t) (o : Nat) : t.reg o = s.reg o := (congrArg (M.reg · o) h :)

theorem M.redrawn.pos {s t : M} (h : s.redrawn t) : t.pos = s.pos := (congrArg M.pos h :)

theorem M.redrawn.cores {s t : M} (h : s.redrawn t) : t.cores = s.cores := (congrArg M.cores h :)

theorem M.redrawn.board {s t : M} (h : s.redrawn t) : t.board = s.board := (congrArg M.board h :)

theorem keepsRedrawn_saveSwitch (s : M) (n : Nat) : Keeps s.redrawn (saveSwitch n) :=
  keeps_getThen fun _ => keeps_whenA fun _ h => h.overlay _ _

theorem keepsRedrawn_writeCapture (s : M) (pos : Nat) : Keeps s.redrawn (writeCapture pos) := fun t h => by
  rw [writeCapture, run_modify]
  dsimp only
  split
  · exact h
  · exact h.overlay _ _

theorem keepsRedrawn_practiceData (s : M) (pos k : Nat) : Keeps s.redrawn (practiceData pos k) := by
  have hfar : ∀ b, Keeps s.redrawn (do
      modify fun s => s.overlay b 0x40000
      modify fun s => s.overlay (b + 0x8000000000) 0x40000) := fun b =>
    keeps_bind (keeps_modify fun _ h => h.overlay _ _) fun _ => keeps_modify fun _ h => h.overlay _ _
  refine keeps_getThen fun m => ?_
  cases m.sliceAt pos with
  | none => exact keeps_whenA (hfar _)
  | some j =>
    by_cases hb : m.posState pos = 1
    · simp only [hb, if_true]
      exact keeps_bind (keepsRedrawn_writeCapture s pos) fun _ => keeps_whenA (hfar _)
    · simp only [hb, if_false]
      exact keeps_bind (keeps_whenA (keeps_modify fun _ h => h.overlay _ _)) fun _ => keeps_whenA (hfar _)

/-! ## The bytes of an area -/

/-- Lines that are put leave the byte of another line alone. -/
theorem M.byte_foldl_putLine {a n x : Nat} (ha : a % 32 = 0) (hx : x < a ∨ a + 32 * n ≤ x) (hn : 0 < n) (l : List (Nat × Nat)) (s : M) :
    (l.foldl (fun (t : M) (p : Nat × Nat) => t.putLine (a / 32 + p.1 % n) (leBytes 32 p.2) false) s).byte x = s.byte x := by
  induction l generalizing s with
  | nil => rfl
  | cons p l ih =>
    have hp := Nat.mod_lt p.1 hn
    rw [List.foldl_cons, ih, M.byte_putLine_other _ _ _ _ _ (length_leBytes _ _) (by omega)]

/-- An area that is written leaves every byte outside its lines. -/
theorem M.byte_overlay (s : M) {a n x : Nat} (ha : a % 32 = 0) (hn : 0 < n) (hx : x < a ∨ a + 32 * n ≤ x) :
    (s.overlay a n).byte x = s.byte x :=
  M.byte_foldl_putLine ha hx hn (Config.areaImage s.free) s

/-- A part of a slice that is written leaves every byte outside it. -/
theorem M.byte_overlay_slice (s : M) (j : Nat) {c n x : Nat} {e : Nat} (hc : c % 32 = 0) (hn : 0 < n) (he : c + 32 * n = e)
    (hx : x < sliceBase j + c ∨ sliceBase j + e ≤ x) : (s.overlay (sliceBase j + c) n).byte x = s.byte x :=
  s.byte_overlay (by unfold sliceBase; omega) hn (by omega)

/-- The capture area lies in the slice that a position's slice number names. -/
theorem writeCapture_byte (s : M) (pos x : Nat)
    (hx : ∀ j, s.sliceAt pos = some j → x < sliceBase j + 0x5E00000 ∨ sliceBase j + 0x7E00000 ≤ x) : (writeCapture pos s).2.byte x = s.byte x := by
  rw [writeCapture, run_modify]
  dsimp only
  split
  · rfl
  next j hj => exact s.byte_overlay_slice j (by omega) (by omega) rfl (hx j hj)

theorem saveSwitch_byte (s : M) (n x : Nat) (hx : x < sliceBase n + 0x7E00000 ∨ sliceBase n + 0x8000000 ≤ x) :
    (saveSwitch n s).2.byte x = s.byte x := by
  rw [saveSwitch, run_bind, run_get]
  cases hc : bit (s.reg Reg.mgtDoubleCtl) 0 with
  | false => rw [run_whenA_false]
  | true =>
    rw [run_whenA_true, run_modify]
    exact s.byte_overlay_slice n (by omega) (by omega) rfl hx

end Sys2Proof.Machine

/-! # What the moves of cores and the ends of their jobs leave as it was (R117, R119, R350, R355, R357) -/

namespace Sys2Proof.Machine

/-! ## Passes that were held -/

/-- A property that the passes held for core n do not undo when they are applied. -/
structure AboutHeld (n : Nat) (P : M → Prop) : Prop extends AboutNotes P where
  pass : ∀ {t} p v, P t → P (t.setReg (Reg.corePassCount n p) v)
  rings : ∀ {t : M} k e g, P t → P (t.setCore k ((t.core k).setRing e g))
  unheld : ∀ {t : M}, P t → P (t.setCore n { t.core n with heldPasses := [] })

/-- One pass that was held for core n is applied, and its thrower hears of it. -/
def applyOne (n : Nat) : Nat × Nat × Nat × Nat → Act Unit := fun (k, e, p, amount) => do
  let ok ← throwPass n p amount
  whenA ok (engEvent k e 0x0C amount)
  updRing k e fun g => match g.infl.findIdx? (·.thrown = 1) with
    | none => g
    | some i => { g with infl := g.infl.modify i fun f => { f with thrown := if ok then 2 else 3 } }

theorem run_applyHeld (n : Nat) (s : M) : (applyHeld n s).2 =
    (forA (s.core n).heldPasses (applyOne n) (s.setCore n { s.core n with heldPasses := [] })).2 := rfl

namespace AboutHeld

variable {n : Nat} {P : M → Prop} (hP : AboutHeld n P)
include hP

theorem keeps_throwPass (p amount : Nat) : Keeps P (throwPass n p amount) :=
  keeps_bind (keeps_getThen fun _ => keeps_pure _) fun _ => keeps_ite (keeps_pure _) (keeps_bind (fun _ h => hP.pass p _ h) fun _ => keeps_pure _)

theorem keeps_applyOne (x : Nat × Nat × Nat × Nat) : Keeps P (applyOne n x) :=
  keeps_bind (hP.keeps_throwPass _ _) fun _ => keeps_bind (keeps_whenA (keeps_getThen fun _ => hP.keeps_posCount _ _ _ _ _ _)) fun _ _ h =>
    hP.rings _ _ _ h

theorem keeps_applyHeld : Keeps P (applyHeld n) := fun s h => by
  rw [run_applyHeld]
  exact keeps_forA (fun x => hP.keeps_applyOne x) _ (hP.unheld h)

end AboutHeld

/-! ## The end of the jobs on a core -/

/-- The registers that a completion writes. -/
def Reg.ofCompletion (o : Nat) : Prop := (∃ q, o = Reg.hstQDone q ∨ o = Reg.hstQAbortResult q) ∨ o = Reg.hstCmplHeld

/-- A property that no job's end undoes. -/
structure AboutJobs (P : M → Prop) : Prop where
  ends : ∀ k, k < 120 → AboutCoreEnd k P
  queues : ∀ {t : M} x, P t → P { t with hostQ := x }
  done : ∀ {t o} v, Reg.ofCompletion o → P t → P (t.setReg o v)

namespace AboutJobs

variable {P : M → Prop} (hP : AboutJobs P)
include hP

theorem aborts : AboutAborts P := ((hP.ends 0 (by decide)).ends 0 (by decide)).toAboutAborts

theorem keeps_updQueue (q : Nat) (f : HostQ → HostQ) : Keeps P (updQueue q f) := fun _ h => hP.queues _ h

theorem keeps_hostEmit (o : Output) : Keeps P (hostEmit o) := fun _ h => hP.aborts.toHost o h

theorem keeps_advanceDone (q fuel : Nat) : Keeps P (advanceDone q fuel) := by
  induction fuel with
  | zero => exact keeps_pure _
  | succ fuel ih =>
    exact keeps_getThen fun _ => keeps_whenA (keeps_bind (hP.keeps_updQueue _ _) fun _ =>
      keeps_bind (fun _ h => hP.done _ (.inl ⟨q, .inl rfl⟩) h) fun _ => ih)

theorem keeps_signalQueue (q : Nat) : Keeps P (signalQueue q) :=
  keeps_getThen fun _ => keeps_whenA (keeps_ite (hP.keeps_updQueue _ _) (keeps_bind (hP.keeps_hostEmit _) fun _ => hP.keeps_updQueue _ _))

theorem keeps_complete (q : Nat) (j : Job) (status core result step runMs : Nat) : Keeps P (complete q j status core result step runMs) :=
  keeps_getThen fun _ => keeps_bind (keeps_whenA fun _ h => hP.done _ (.inr rfl) h) fun _ =>
    keeps_bind (keeps_forA fun _ => hP.keeps_hostEmit _) fun _ => keeps_bind (hP.keeps_updQueue _ _) fun _ =>
      keeps_bind (keeps_whenA fun _ h => hP.done _ (.inl ⟨q, .inr rfl⟩) h) fun _ =>
        keeps_bind (hP.keeps_advanceDone _ _) fun _ => hP.keeps_signalQueue _

theorem keeps_endJob (q x status core runMs : Nat) : Keeps P (endJob q x status core runMs) := by
  refine keeps_getThen fun s => ?_
  split
  · exact keeps_pure _
  next j _ =>
    refine keeps_bind (keeps_forA_mem fun k hk => ?_) fun _ => hP.keeps_complete _ _ _ _ _ _ _
    exact (hP.ends k ((of_decide_eq_true (List.mem_filter.1 hk).2).trans_le s.nCores_le)).keeps_endCore

theorem keeps_endJobsOn (n status : Nat) : Keeps P (endJobsOn n status) := by
  refine keeps_getThen fun s => ?_
  split
  · exact keeps_pure _
  · exact keeps_bind (hP.aborts.keeps_freeVal 32) fun _ => hP.keeps_endJob _ _ _ _ _

end AboutJobs

theorem AboutNotes.keeps_coreLog {P : M → Prop} (hP : AboutNotes P) (kind core step : Nat) (pl : List Byte) : Keeps P (coreLog kind core step pl) :=
  keeps_getThen fun _ => hP.keeps_logAdd _ _ _ _ _ _ _

/-! ## The steps of a quarantine -/

/-- The registers of the core map, but for the positions' states and the slices. -/
def Reg.ofCoreMap (o : Nat) : Prop := (∃ n, n < 120 ∧ o = Reg.mgtCoreMap n) ∨ o = Reg.mgtMapGen ∨ o = Reg.mgtBenchCount

/-- A property that the first step of a substitution does not undo. -/
structure AboutShifts (P : M → Prop) : Prop extends AboutAborts P where
  map : ∀ {t o} v, Reg.ofCoreMap o → P t → P (t.setReg o v)
  target : ∀ {t : M} {n} x, P t → P (t.setCore n { t.core n with target := x })

/-- A core that has lost selected shadows. -/
def Core.missing (c : Core) (pos : Nat) : Core := { c with
  shadows := c.shadows.filter fun h => !(h.pos == pos && !h.split)
  slotA := if c.slotA.shadow = some pos then { c.slotA with shadow := none } else c.slotA
  slotB := if c.slotB.shadow = some pos then { c.slotB with shadow := none } else c.slotB }

theorem Core.eases_missing (c : Core) (pos : Nat) : c.eases (c.missing pos) :=
  ⟨rfl, fun e => by match e with | 0 | 1 | 2 | _ + 3 => exact .refl _, fun _ hh => (List.mem_filter.1 hh).1⟩

theorem AboutAborts.keeps_missAt {P : M → Prop} (hP : AboutAborts P) (pos : Nat) : Keeps P (missAt pos) :=
  keeps_getThen fun _ => keeps_forA fun n => keeps_bind (keeps_getThen fun _ => keeps_pure _) fun _ =>
    keeps_bind (fun _ h => hP.abort _ (.inr (.inr (.inr rfl))) h) fun _ t h => hP.core ((t.core n).eases_missing pos) h

theorem M.coresAt_lt {s : M} {pos n : Nat} (h : n ∈ s.coresAt pos) : n < 120 :=
  (List.mem_range.1 (List.mem_filter.1 h).1).trans_le s.nCores_le

namespace AboutShifts

variable {P : M → Prop} (hP : AboutShifts P)
include hP

theorem keeps_setMap {n : Nat} (hn : n < 120) (mode partner pos : Nat) : Keeps P (setMap n mode partner pos) :=
  fun _ h => hP.map _ (.inl ⟨n, hn, rfl⟩) h

theorem keeps_mapChanged : Keeps P mapChanged :=
  keeps_getThen fun _ => keeps_bind (fun _ h => hP.map _ (.inr (.inr rfl)) h) fun _ _ h => hP.map _ (.inr (.inl rfl)) h

/-- A core's move begins, or is fatal where there are no switch areas. -/
theorem keeps_beginMove {n : Nat} (hn : n < 120) (hf : ∀ t, P t → bit (t.reg Reg.mgtDoubleCtl) 0 = false → P (coreFatal n 0 t).2) (doubled : Bool) :
    Keeps P (beginMove doubled n) := fun t h => by
  rw [beginMove, run_bind, run_get]
  dsimp only
  split
  next hb => exact hf t h (by simpa using hb)
  · refine keeps_bind (hP.keeps_setMap hn _ _ _) (fun _ => keeps_bind (fun _ h => hP.target _ h) fun _ => ?_) t h
    split
    · exact hP.keeps_missAt _
    · exact keeps_pure _

end AboutShifts

/-- A property that the quarantine of position p does not undo, once its state is set. -/
structure AboutQuarantine (p : Nat) (P : M → Prop) : Prop extends AboutShifts P where
  pos : ∀ {t : M} x, P t → P { t with pos := x }
  flash : ∀ {t : M} f, P t → P (t.withFlash f)
  own : ∀ {t} v, P t → P (t.setReg (Reg.chkPos p) v)
  fatal : ∀ {t : M} n, n < 120 → P t → bit (t.reg Reg.mgtDoubleCtl) 0 = false → P (coreFatal n 0 t).2

/-- The quarantine of a position, once its state is set. -/
def leaveService (pos cause : Nat) (s : M) : Act Unit := do
  healthAppend 0x80 [BitVec.ofNat 8 pos, 2#8]
  logAdd 0x13 177 0 (s.logicalAt pos) 0xFF 0 (payload [(0, 1, pos), (1, 1, cause)])
  missAt pos
  updPos pos fun x => { x with practice := false, retry := false, running := 0xFF }
  setField (Reg.chkPos pos) 30 30 0
  forA (s.coresAt pos) (beginMove (decide ((s.coresAt pos).length > 1)))
  mapChanged

theorem run_quarantine (pos cause : Nat) (s : M) : (quarantine pos cause s).2 =
    if s.posState pos = 0 ∨ s.posState pos = 1 then
      (leaveService pos cause s (s.setReg (Reg.mgtPosState pos) (setBits (s.reg (Reg.mgtPosState pos)) 10 8 2))).2
    else s := by
  rw [quarantine, run_bind, run_get]
  dsimp only
  split
  next h => rw [show (s.posState pos == 0 || s.posState pos == 1) = true by simpa using h, run_whenA_true, run_bind]; rfl
  next h => rw [show (s.posState pos == 0 || s.posState pos == 1) = false by simpa using h, run_whenA_false]

namespace AboutQuarantine

variable {p : Nat} {P : M → Prop} (hP : AboutQuarantine p P)
include hP

theorem keeps_healthAppend (kind : Nat) (pl : List Byte) : Keeps P (healthAppend kind pl) := fun t h => by
  obtain ⟨f, hf⟩ := flashOnly_healthAppend kind pl t
  rw [hf]
  exact hP.flash f h

theorem keeps_leaveService (cause : Nat) (s : M) : Keeps P (leaveService p cause s) :=
  keeps_bind (hP.keeps_healthAppend _ _) fun _ => keeps_bind (hP.keeps_logAdd _ _ _ _ _ _ _) fun _ => keeps_bind (hP.keeps_missAt _) fun _ =>
    keeps_bind (fun _ h => hP.pos _ h) fun _ => keeps_bind (fun _ h => hP.own _ h) fun _ =>
      keeps_bind (keeps_forA_mem fun n hn => hP.keeps_beginMove (M.coresAt_lt hn) (fun _ => hP.fatal n (M.coresAt_lt hn)) _) fun _ =>
        hP.keeps_mapChanged

/-- What the state of the position does not touch is kept by the whole quarantine. -/
theorem keeps_quarantine (hstate : ∀ {t} v, P t → P (t.setReg (Reg.mgtPosState p) v)) (cause : Nat) : Keeps P (quarantine p cause) := fun t h => by
  rw [run_quarantine]
  split
  · exact hP.keeps_leaveService _ _ _ (hstate _ h)
  · exact h

end AboutQuarantine

/-- A property that neither a job's end nor the first step of a substitution undoes is not undone where the substitution is fatal. -/
theorem AboutShifts.fatal_of_jobs {P : M → Prop} (hP : AboutShifts P) (hJ : AboutJobs P) (n cause : Nat) : Keeps P (coreFatal n cause) :=
  keeps_bind (fun _ h => hP.target _ h) fun _ => keeps_bind (hP.keeps_coreLog _ _ _ _) fun _ => hJ.keeps_endJobsOn _ _

/-! ## Registers -/

/-- Neither the moves of cores nor the ends of jobs reach a register of the kind K. -/
structure Reg.besideMoves (K : Nat → Prop) : Prop extends beside : Reg.besideAborts K where
  low : ∀ o, K o → o < 0x1000000
  map : ∀ o, K o → ¬ Reg.ofCoreMap o
  queue : ∀ o, K o → ¬ Reg.ofCompletion o

namespace AboutRegs

variable {K : Nat → Prop} {P : M → Prop} (hP : AboutRegs K P) (hK : Reg.besideMoves K)
include hP hK

theorem aboutJobs : AboutJobs P where
  ends k _ := {
    ends := fun e _ => hP.aboutEnd hK.beside fun o ho hmem => by
      have := hK.low o ho
      simp only [Reg.mem_ended, List.mem_cons, List.not_mem_nil, or_false, exists_eq_or_imp, exists_eq_left] at hmem
      omega
    pass := fun v _ h => hP.setReg v (fun ho => by have := hK.low _ ho; simp only [Reg.corePassCount] at this; omega) h
    held := fun _ _ h => hP.same h rfl
    free := fun h => hP.same h rfl }
  queues _ h := hP.same h rfl
  done v ho h := hP.setReg v (fun hk => hK.queue _ hk ho) h

theorem aboutShifts : AboutShifts P where
  toAboutAborts := hP.aboutAborts hK.beside
  map v ho h := hP.setReg v (fun hk => hK.map _ hk ho) h
  target _ h := hP.same h rfl

theorem aboutQuarantine {p : Nat} (hp : ¬ K (Reg.chkPos p)) : AboutQuarantine p P where
  toAboutShifts := hP.aboutShifts hK
  pos _ h := hP.same h rfl
  flash _ h := hP.same h rfl
  own v h := hP.setReg v hp h
  fatal n _ h _ := (hP.aboutShifts hK).fatal_of_jobs (hP.aboutJobs hK) n 0 _ h

end AboutRegs

/-! ## The state of a quarantined position -/

theorem aboutRegs_reg (o v : Nat) : AboutRegs (· = o) fun t => t.reg o = v := ⟨fun hreg h => (hreg o rfl).trans h⟩

theorem Reg.besideMoves_posState {p : Nat} (hp : p < 128) : Reg.besideMoves (· = Reg.mgtPosState p) := by
  constructor
  case beside =>
    constructor <;>
    · rintro o rfl ho
      simp only [Reg.ofNotes, Reg.ofTraffic, Reg.ofAborts, Reg.mgtPosState, Reg.chkMissed, Reg.trnCtxMisses, Reg.trnCtxStalls, Reg.trnRetx,
        Reg.trnDrops, List.mem_cons, List.not_mem_nil, or_false] at ho
      omega
  all_goals rintro o rfl
  · simp only [Reg.mgtPosState]
    omega
  · rintro (⟨n, hn, ho⟩ | ho | ho) <;> simp only [Reg.mgtPosState, Reg.mgtCoreMap, Reg.mgtMapGen, Reg.mgtBenchCount] at ho <;> omega
  · rintro (⟨q, ho | ho⟩ | ho) <;> simp only [Reg.mgtPosState, Reg.hstQDone, Reg.hstQAbortResult, Reg.hstCmplHeld] at ho <;> omega

/-- A position in service is out of it after its quarantine. -/
theorem quarantine_state {s : M} (hw : s.wf = true) {p : Nat} (hp : p < 128) (hs : s.posState p < 2) (cause : Nat) :
    (quarantine p cause s).2.posState p = 2 := by
  have hP := (aboutRegs_reg (Reg.mgtPosState p) (setBits (s.reg (Reg.mgtPosState p)) 10 8 2)).aboutQuarantine (Reg.besideMoves_posState hp) (p := p)
    (by simp only [Reg.chkPos, Reg.mgtPosState]; omega)
  rw [run_quarantine, if_pos (by omega), M.posState, hP.keeps_leaveService cause s _ (M.reg_setReg_self s _ _ hw), bits_setBits_self (by decide)]
  rfl

end Sys2Proof.Machine

/-! # Practice (R356, R358 to R360) and the ring of the error log (R362, R363) -/

namespace Sys2Proof.Machine

/-! ## What Practice writes -/

/-- What Practice writes lies in the areas that it is given. -/
theorem practiceData_byte (s : M) (pos k x : Nat) (hfar : s.reg Reg.chkPracticeBase % 32 = 0)
    (hslice : ∀ j, s.sliceAt pos = some j → x < sliceBase j + 0x5E00000 ∨ sliceBase j + 0x8000000 ≤ x)
    (hlow : x < s.reg Reg.chkPracticeBase ∨ s.reg Reg.chkPracticeBase + 0x800000 ≤ x)
    (hhigh : x < s.reg Reg.chkPracticeBase + 0x8000000000 ∨ s.reg Reg.chkPracticeBase + 0x8000800000 ≤ x) :
    (practiceData pos k s).2.byte x = s.byte x := by
  have hregion : ∀ b e t, b % 32 = 0 → b + 32 * 0x40000 = e → (x < b ∨ e ≤ x) → M.byte t x = s.byte x →
      (t.overlay b 0x40000).byte x = s.byte x := fun b e t hb he hx ht => (t.byte_overlay hb (by omega) (he ▸ hx)).trans ht
  have hpractice : ∀ t c, M.byte t x = s.byte x → (whenA c (do
      modify fun t : M => t.overlay (s.reg Reg.chkPracticeBase) 0x40000
      modify fun t : M => t.overlay (s.reg Reg.chkPracticeBase + 0x8000000000) 0x40000) t).2.byte x = s.byte x := fun t c ht => by
    cases c with
    | false => exact ht
    | true =>
      generalize hb : s.reg Reg.chkPracticeBase = b at *
      exact hregion _ (b + 0x8000800000) _ (by omega) (Nat.add_assoc _ _ _) hhigh (hregion b (b + 0x800000) t hfar rfl hlow ht)
  rw [practiceData, run_bind, run_get]
  dsimp only
  cases hj : s.sliceAt pos with
  | none => exact hpractice _ _ rfl
  | some j =>
    have hx := hslice j hj
    by_cases hb : s.posState pos = 1
    · simp only [hb, if_true, run_bind]
      exact hpractice _ _ (writeCapture_byte s pos x fun i hi => by
        rw [← Option.some.inj (hj.symm.trans hi)]
        exact hx.imp id (Nat.le_trans (Nat.add_le_add_left (by decide) _)))
    · simp only [hb, if_false, run_bind]
      refine hpractice _ _ ?_
      cases bit (s.reg Reg.mgtDoubleCtl) 0 with
      | false => rfl
      | true => exact s.byte_overlay_slice j (by omega) (by omega) rfl (hx.imp (fun h => Nat.lt_of_lt_of_le h (Nat.add_le_add_left (by decide) _)) id)

/-! ## What stays while Practice ends -/

/-- The registers that show the service of a position. -/
def Reg.ofService (p o : Nat) : Prop := o = Reg.chkPos p ∨ o = Reg.chkStatus ∨ o = Reg.mgtPosState p

theorem Reg.ofService_cases {p o : Nat} (hp : p < 128) (h : Reg.ofService p o) : (0x10600 ≤ o ∧ o < 0x10800) ∨ o = 0x220010 ∨ (0x220100 ≤ o ∧ o < 0x220300) := by
  simp only [Reg.ofService, Reg.chkPos, Reg.chkStatus, Reg.mgtPosState] at h
  omega

/-- The registers that show the service of the position are the same, and so is what stands beside the registers of the positions. -/
structure M.serves (p : Nat) (s t : M) : Prop where
  regs : ∀ o, Reg.ofService p o → t.reg o = s.reg o
  pos : t.pos = s.pos

theorem M.serves.refl (p : Nat) (s : M) : M.serves p s s := ⟨fun _ _ => rfl, rfl⟩

section
variable {p : Nat} (hp : p < 128) {s : M}
include hp

omit hp in
theorem M.serves.setReg {t : M} (h : M.serves p s t) {o : Nat} (ho : ¬ Reg.ofService p o) (v : Nat) : M.serves p s (t.setReg o v) :=
  ⟨fun o' ho' => (M.reg_setReg_other t v fun e : o' = o => ho (e ▸ ho')).trans (h.regs o' ho'), h.pos⟩

theorem aboutHeld_serves (n : Nat) : AboutHeld n (M.serves p s) where
  setReg v ho h := h.setReg (fun hs => by have := Reg.ofService_cases hp hs; simp only [Reg.ofNotes] at ho; omega) v
  store _ _ h := ⟨h.regs, h.pos⟩
  log _ h := ⟨h.regs, h.pos⟩
  toHost o h := by
    unfold M.toHost
    split <;> exact ⟨h.regs, h.pos⟩
  pass i v h := h.setReg (fun hs => by have := Reg.ofService_cases hp hs; simp only [Reg.corePassCount] at this; omega) v
  rings _ _ _ h := ⟨h.regs, h.pos⟩
  unheld h := ⟨h.regs, h.pos⟩

omit hp in
theorem keepsServes_healthAppend (kind : Nat) (pl : List Byte) : Keeps (M.serves p s) (healthAppend kind pl) := fun t h => by
  obtain ⟨f, hf⟩ := flashOnly_healthAppend kind pl t
  rw [hf]
  exact ⟨h.regs, h.pos⟩

theorem keepsServes_logAdd (kind island step logical queue entry : Nat) (pl : List Byte) :
    Keeps (M.serves p s) (logAdd kind island step logical queue entry pl) := (aboutHeld_serves hp 0).keeps_logAdd _ _ _ _ _ _ _

theorem keepsServes_posEvent (pos code n : Nat) : Keeps (M.serves p s) (posEvent pos code n) :=
  keeps_getThen fun _ => (aboutHeld_serves hp 0).keeps_posCount _ _ _ _ _ _

omit hp in
theorem M.serves.state {t : M} (h : M.serves p s t) : t.posState p = s.posState p := by
  rw [M.posState, h.regs _ (.inr (.inr rfl)), ← M.posState]

omit hp in
theorem M.serves.posX {t : M} (h : M.serves p s t) (i : Nat) : t.posX i = s.posX i := congrArg (Tab.read PosX.init · i) h.pos

end

/-- A position's entry beside its registers is replaced. -/
def M.withPosX (s : M) (i : Nat) (x : PosX) : M := { s with pos := Tab.put PosX.init s.pos i x }

theorem run_updPos (i : Nat) (f : PosX → PosX) (s : M) : (updPos i f s).2 = s.withPosX i (f (s.posX i)) := rfl

theorem M.posX_withPosX {s : M} (hw : s.wf = true) (i : Nat) (x : PosX) : (s.withPosX i x).posX i = x := posX_putPos hw i x

theorem M.posX_withPosX_other (s : M) {i k : Nat} (hk : k ≠ i) (x : PosX) : (s.withPosX i x).posX k = s.posX k :=
  Tab.read_put_other _ _ _ _ _ hk

theorem M.reg_withPosX (s : M) (i : Nat) (x : PosX) (o : Nat) : (s.withPosX i x).reg o = s.reg o := rfl

theorem M.wf_withPosX {s : M} (hw : s.wf = true) (i : Nat) (x : PosX) : (s.withPosX i x).wf = true := M.wf_putPos i x hw

theorem M.posState_setReg_chkPos (s : M) (p v : Nat) (i : Nat) (hi : i < 128) : (s.setReg (Reg.chkPos p) v).posState i = s.posState i := by
  rw [M.posState, M.reg_setReg_other _ _ (by simp only [Reg.mgtPosState, Reg.chkPos]; omega), ← M.posState]

theorem M.reg_withFlash (s : M) (f : Tab Byte) (o : Nat) : (s.withFlash f).reg o = s.reg o := rfl

/-! ## The end of a kernel -/

/-- The position is left to work that waits for it. -/
def leavePractice (pos : Nat) (work : Bool) : Act Unit := do
  let m ← get
  whenA ((m.posX pos).practice && work) do
    updPos pos fun x => { x with practice := false, retry := false }
    forA (m.coresAt pos) applyHeld

/-- The last kernel has passed: the position's age starts anew (R360). -/
def renewAge (pos : Nat) : Act Unit := do
  upd (Reg.chkPos pos) fun v => setBits v 30 30 0 - bits v 23 0
  showLag

/-- A position's entry once work has taken it from Practice. -/
def PosX.left (x : PosX) (work : Bool) : PosX := if x.practice = true ∧ work = true then { x with practice := false, retry := false } else x

section
variable {s : M} (hw : s.wf = true) {p : Nat} (hp : p < 128)
include hw hp

theorem leavePractice_leaves (work : Bool) :
    (∀ o, Reg.ofService p o → (leavePractice p work s).2.reg o = s.reg o) ∧ (leavePractice p work s).2.posX p = (s.posX p).left work := by
  rw [leavePractice, run_bind, run_get]
  dsimp only
  rw [PosX.left]
  split
  next h =>
    rw [h.1, h.2, Bool.and_true, run_whenA_true, run_bind]
    have hheld : Keeps (M.serves p (updPos p (fun x => { x with practice := false, retry := false }) s).2) (forA (s.coresAt p) applyHeld) :=
      keeps_forA fun n => (aboutHeld_serves hp n).keeps_applyHeld
    have hserves := hheld _ (.refl p _)
    exact ⟨hserves.regs, (hserves.posX p).trans (M.posX_withPosX hw p _)⟩
  next h =>
    rw [show ((s.posX p).practice && work) = false by simpa using h, run_whenA_false]
    exact ⟨fun _ _ => rfl, rfl⟩

omit hw hp in
theorem showLag_shows : ∃ v, (showLag s).2 = s.setReg Reg.chkStatus (setBits (s.reg Reg.chkStatus) 1 1 v) ∧ (v % 2 = 1 ↔ ∃ i, i < 128 ∧ s.posState i < 2 ∧
    60 * max 1 (bits (s.reg Reg.chkPractice) 23 8) < bits (s.reg (Reg.chkPos i)) 23 0) := by
  refine ⟨_, rfl, ?_⟩
  rw [b2n]
  split
  next h =>
    simp only [List.any_eq_true, List.mem_range, Bool.and_eq_true, decide_eq_true_eq] at h
    simpa using h
  next h =>
    simp only [List.any_eq_true, List.mem_range, Bool.and_eq_true, decide_eq_true_eq] at h
    simpa using h

theorem renewAge_renews : (∀ i, (renewAge p s).2.posX i = s.posX i) ∧ (renewAge p s).2.posState p = s.posState p ∧
    (renewAge p s).2.reg (Reg.chkPos p) = setBits (s.reg (Reg.chkPos p)) 30 30 0 - bits (s.reg (Reg.chkPos p)) 23 0 := by
  obtain ⟨v, hv, -⟩ := showLag_shows (s := s.setReg (Reg.chkPos p) (setBits (s.reg (Reg.chkPos p)) 30 30 0 - bits (s.reg (Reg.chkPos p)) 23 0))
  rw [renewAge, run_bind, run_upd, hv]
  refine ⟨fun _ => rfl, ?_, ?_⟩
  · rw [M.posState, M.reg_setReg_other _ _ (by simp only [Reg.mgtPosState, Reg.chkStatus]; omega),
      M.reg_setReg_other _ _ (by simp only [Reg.mgtPosState, Reg.chkPos]; omega), ← M.posState]
  · rw [M.reg_setReg_other _ _ (by simp only [Reg.chkPos, Reg.chkStatus]; omega), M.reg_setReg_self s _ _ hw]

/-! ## Kernels that pass -/

theorem kernelPass_passes (k : Nat) : (kernelPass p k s).2.posX p = { s.posX p with
      retry := false, csumRun := min (if k = 2 then (s.posX p).csumRun + 1 else (s.posX p).csumRun) 10 } ∧
    (kernelPass p k s).2.posState p = s.posState p ∧
    (k = 2 → 10 ≤ (s.posX p).csumRun + 1 → bit ((kernelPass p k s).2.reg (Reg.chkPos p)) 31 = false) := by
  rw [kernelPass, run_bind, run_get]
  dsimp only
  simp only [run_bind]
  have hnoted : M.serves p s (whenA (s.posX p).retry (logAdd 0x15 177 0 (s.logicalAt p) 0xFF 0 (payload [(0, 1, p), (1, 1, k)]))
      (posEvent p 308 1 s).2).2 := keeps_whenA (keepsServes_logAdd hp _ _ _ _ _ _ _) _ (keepsServes_posEvent hp _ _ _ _ (.refl p s))
  have hwt := keepsWf_whenA (c := (s.posX p).retry) (keepsWf_logAdd 0x15 177 0 (s.logicalAt p) 0xFF 0 (payload [(0, 1, p), (1, 1, k)])) _
    (keepsWf_posEvent p 308 1 s hw)
  generalize (whenA (s.posX p).retry (logAdd 0x15 177 0 (s.logicalAt p) 0xFF 0 (payload [(0, 1, p), (1, 1, k)])) (posEvent p 308 1 s).2).2 = t at *
  generalize hrun : (if k = 2 then (s.posX p).csumRun + 1 else (s.posX p).csumRun) = run
  rw [run_updPos, hnoted.posX p]
  have hset := M.posX_withPosX hwt p { s.posX p with retry := false, csumRun := min run 10 }
  have hwu := M.wf_withPosX hwt p { s.posX p with retry := false, csumRun := min run 10 }
  have hstate : (t.withPosX p { s.posX p with retry := false, csumRun := min run 10 }).posState p = s.posState p := hnoted.state
  have hown : (t.withPosX p { s.posX p with retry := false, csumRun := min run 10 }).reg (Reg.chkPos p) = s.reg (Reg.chkPos p) :=
    hnoted.regs _ (.inl rfl)
  generalize t.withPosX p { s.posX p with retry := false, csumRun := min run 10 } = u at *
  cases hc : (k == 2 && decide (run ≥ 10) && bit (s.reg (Reg.chkPos p)) 31) with
  | false =>
    rw [run_whenA_false]
    refine ⟨hset, hstate, fun hk hten => ?_⟩
    rw [if_pos hk] at hrun
    rw [hown]
    simpa [hk, ← hrun, hten] using hc
  | true =>
    rw [run_whenA_true, run_bind, run_setField]
    obtain ⟨f, hf⟩ := flashOnly_healthAppend 0x12 [BitVec.ofNat 8 p, 1#8] (u.setReg (Reg.chkPos p) (setBits (u.reg (Reg.chkPos p)) 31 31 0))
    rw [hf]
    refine ⟨hset, (M.posState_setReg_chkPos u p _ p hp).trans hstate, fun _ _ => ?_⟩
    rw [M.reg_withFlash, M.reg_setReg_self u _ _ hwu, bit_setBits_self]
    rfl

/-! ## Kernels that fail -/

/-- A checksum unit that has been judged faulty, before that is noted. -/
def M.withCsumFault (s : M) (p : Nat) : M :=
  (s.setReg (Reg.chkPos p) (setBits (s.reg (Reg.chkPos p)) 31 31 1)).withPosX p { s.posX p with csumOff := true, csumRun := 0 }

omit hw in
theorem csumFault_serves : M.serves p (s.withCsumFault p) (csumFault p s).2 :=
  keepsServes_logAdd hp _ _ _ _ _ _ _ _ (keepsServes_healthAppend _ _ _ (.refl p _))

theorem csumFault_faults : bit ((csumFault p s).2.reg (Reg.chkPos p)) 31 = true ∧ ((csumFault p s).2.posX p).csumOff = true ∧
    (csumFault p s).2.posState p = s.posState p := by
  have h := csumFault_serves (s := s) hp
  have hwr := M.wf_setReg (Reg.chkPos p) (setBits (s.reg (Reg.chkPos p)) 31 31 1) hw
  rw [h.regs _ (.inl rfl), h.posX, h.state, M.withCsumFault, M.reg_withPosX, M.reg_setReg_self s _ _ hw, M.posX_withPosX hwr, bit_setBits_self]
  exact ⟨rfl, rfl, M.posState_setReg_chkPos s p _ p hp⟩

/-- What a kernel that fails for good leaves. -/
def M.failedFor (s m : M) (p k : Nat) : Prop :=
  (k = 2 → bit (m.reg (Reg.chkPos p)) 31 = true ∧ (m.posX p).csumOff = true ∧ m.posState p = s.posState p) ∧
  (7 ≤ k → bit (m.reg Reg.chkStatus) 2 = true ∧ m.posState p = s.posState p) ∧
  (k ≠ 2 → k < 7 → s.posState p < 2 → m.posState p = 2)

omit hw hp in
/-- It shows in the registers, and in the checksum unit that is off. -/
theorem M.failedFor.congr {m m' : M} {k : Nat} (h : s.failedFor m p k) (hreg : ∀ o, Reg.ofService p o → m'.reg o = m.reg o)
    (hoff : (m'.posX p).csumOff = (m.posX p).csumOff) : s.failedFor m' p k := by
  have hstate : m'.posState p = m.posState p := congrArg (bits · 10 8) (hreg _ (.inr (.inr rfl)))
  unfold M.failedFor
  rw [hreg _ (.inl rfl), hreg _ (.inr (.inl rfl)), hoff, hstate]
  exact h

/-- The path that a kernel tests is marked. -/
def markPath (unit : Nat) : Act Unit := do
  setField Reg.chkStatus 2 2 1
  logAdd 0x17 177 0 0xFF 0xFF 0 (payload [(0, 1, unit)])
  hostEmit (.msix 66)

theorem markPath_marks (unit : Nat) : bit ((markPath unit s).2.reg Reg.chkStatus) 2 = true ∧ (markPath unit s).2.posState p = s.posState p := by
  have h : M.serves p (s.setReg Reg.chkStatus (setBits (s.reg Reg.chkStatus) 2 2 1)) (markPath unit s).2 :=
    (aboutHeld_serves hp 0).toHost _ (keepsServes_logAdd hp _ _ _ _ _ _ _ _ (.refl p _))
  rw [h.regs _ (.inr (.inl rfl)), h.state, M.reg_setReg_self s _ _ hw, bit_setBits_self, M.posState,
    M.reg_setReg_other s _ (by simp only [Reg.mgtPosState, Reg.chkStatus]; omega)]
  exact ⟨rfl, rfl⟩

/-- A kernel's failure is noted, and its retry is over. -/
def M.withFailure (s : M) (p k unit : Nat) : M :=
  let t := (logAdd 0x16 177 0 (s.logicalAt p) 0xFF 0 (payload [(0, 1, unit), (1, 1, k)]) { s with free := s.free + 1 }).2
  t.withPosX p { s.posX p with retry := false }

omit hp in
theorem M.wf_withFailure (k unit : Nat) : (s.withFailure p k unit).wf = true :=
  M.wf_withPosX (keepsWf_logAdd _ _ _ _ _ _ _ _ (keepsWf_freeVal 32 s hw)) _ _

omit hw in
theorem M.posState_withFailure (k unit : Nat) : (s.withFailure p k unit).posState p = s.posState p :=
  (keepsServes_logAdd hp 0x16 177 0 (s.logicalAt p) 0xFF 0 (payload [(0, 1, unit), (1, 1, k)]) { s with free := s.free + 1 } ⟨fun _ _ => rfl, rfl⟩ : M.serves p s _).state

omit hw in
theorem run_kernelFail (k : Nat) : ∃ unit, (kernelFail p k s).2 = ((if k = 2 then csumFault p else if k ≥ 7 then markPath unit else quarantine p 1)
    (s.withFailure p k unit)).2 := by
  refine ⟨if k = 8 then 128 + (freeVal 32 s).1 % 24 else p, ?_⟩
  have hx := (keepsServes_logAdd hp 0x16 177 0 (s.logicalAt p) 0xFF 0 (payload [(0, 1, if k = 8 then 128 + (freeVal 32 s).1 % 24 else p), (1, 1, k)])
    { s with free := s.free + 1 } ⟨fun _ _ => rfl, rfl⟩ : M.serves p s _).posX p
  rw [M.withFailure]
  dsimp only
  rw [← hx]
  rfl

theorem kernelFail_fails (k : Nat) : s.failedFor (kernelFail p k s).2 p k := by
  obtain ⟨unit, hrun⟩ := run_kernelFail (s := s) hp k
  have hwf := M.wf_withFailure hw (p := p) k unit
  have hstate := M.posState_withFailure (s := s) hp k unit
  rw [hrun]
  generalize s.withFailure p k unit = t at *
  refine ⟨fun hk => ?_, fun hk => ?_, fun hk hlt hs => ?_⟩
  · rw [if_pos hk, ← hstate]
    exact csumFault_faults hwf hp
  · rw [if_neg (by omega), if_pos hk, ← hstate]
    exact markPath_marks hwf hp unit
  · rw [if_neg hk, if_neg (by omega)]
    exact quarantine_state hwf hp (by rw [hstate]; exact hs) 1

end

/-! ## The command -/

section
variable {s : State} (hl : s.m.board.live = true) (hw : s.m.wf = true) {p : Nat} (hp : p < 128)
include hl

theorem exec_practiceKernelDone_idle (h : (s.m.posX p).practice = false) (k : Nat) (pass w l : Bool) :
    exec (.practiceKernelDone p k pass w l) s = .next s := by
  rw [exec, execPracticeKernelDone, State.doing_live s _ hl, run_bind, run_get]
  dsimp only
  rw [h, run_whenA_false]

variable (hx : (s.m.posX p).practice = true)
include hx

/-- What a kernel does in a position in Practice: its data, its result, and the end of Practice where work waits. -/
theorem exec_practiceKernelDone (k : Nat) (pass w l : Bool) : exec (.practiceKernelDone p k pass w l) s = s.becomes
    (leavePractice p w (whenA (pass && l) (renewAge p) (whenA (!pass && k == 2) (updPos p fun x => { x with csumRun := 0 })
      ((if pass then kernelPass p k
        else if (s.m.posX p).retry || (bit (s.m.reg (Reg.chkPos p)) 30 && k != 2 && decide (k < 7)) then kernelFail p k
        else updPos p fun x => { x with retry := true }) (practiceData p k s.m).2).2).2).2).2 := by
  rw [exec, execPracticeKernelDone, State.doing_live s _ hl, run_bind, run_get]
  dsimp only
  rw [hx, run_whenA_true]
  cases pass with
  | true => rfl
  | false =>
    generalize ((s.m.posX p).retry || (bit (s.m.reg (Reg.chkPos p)) 30 && k != 2 && decide (k < 7))) = retried
    cases retried <;> simp only [Bool.false_eq_true, if_true, if_false, run_bind] <;> rfl

end

end Sys2Proof.Machine

/-! # The error log's ring (R362, R363) -/

namespace Sys2Proof.Machine

theorem M.toHost_cores (s : M) (o : Output) : (s.toHost o).cores = s.cores := by
  unfold M.toHost
  split <;> rfl

/-- The record that forms. -/
def M.formed (s : M) (kind island logical : Nat) (pl : List Byte) : LogRec :=
  ⟨s.reg Reg.chkLogWr, kind, island, if island = 0xFFFF then 0 else s.island island, 0, logical, 0xFF, 0, pl⟩

/-- What a record that forms leaves: the next index, the record in the buffer, and the oldest one lost from a full buffer. -/
theorem logAdd_forms {s : M} (hw : s.wf = true) (kind island logical : Nat) (pl : List Byte) :
    let m := (logAdd kind island 0 logical 0xFF 0 pl s).2
    m.reg Reg.chkLogWr = trunc 32 (s.reg Reg.chkLogWr + 1) ∧
    m.logBuf = (if 64 ≤ s.logBuf.length then s.logBuf.drop 1 else s.logBuf) ++ [s.formed kind island logical pl] ∧
    (64 ≤ s.logBuf.length → m.reg Reg.chkLogLost = trunc 32 (s.reg Reg.chkLogLost + 1)) ∧
    (s.logBuf.length < 64 → m.reg Reg.chkLogLost = s.reg Reg.chkLogLost) ∧ s.sameStores m ∧ m.cores = s.cores := by
  intro m
  have hnoted : s.noted True m := keepsNoted_logAdd kind island 0 logical 0xFF 0 pl s (.refl True s)
  obtain ⟨hwr, -⟩ := logAdd_logs hw kind island 0 logical 0xFF 0 pl
  have hother : Reg.chkLogLost ≠ Reg.chkLogWr := by decide
  have hrun : m = M.toHost { (whenA (decide (s.logBuf.length ≥ 64)) (addReg 32 Reg.chkLogLost 1) (s.setReg Reg.chkLogWr (trunc 32 (s.reg Reg.chkLogWr + 1)))).2 with
      logBuf := (if s.logBuf.length ≥ 64 then s.logBuf.drop 1 else s.logBuf) ++ [s.formed kind island logical pl] } (.msix 65) := by
    rw [show m = (logAdd kind island 0 logical 0xFF 0 pl s).2 from rfl, logAdd, run_bind, run_get]
    dsimp only
    simp only [run_bind, run_wr, run_modify, run_hostEmit]
    have hbuf : ∀ c, (whenA c (addReg 32 Reg.chkLogLost 1) (s.setReg Reg.chkLogWr (trunc 32 (s.reg Reg.chkLogWr + 1)))).2.logBuf = s.logBuf :=
      fun c => by cases c <;> rfl
    rw [hbuf]
    rfl
  refine ⟨hwr, by rw [hrun, M.toHost_logBuf], fun hfull => ?_, fun hroom => ?_, hnoted.stores trivial, (congrArg M.cores hnoted.rest :)⟩
  · rw [hrun, M.reg_toHost, decide_eq_true hfull, run_whenA_true]
    refine (M.reg_setReg_self _ _ _ (M.wf_setReg _ _ hw)).trans ?_
    rw [M.reg_setReg_other s _ hother]
  · rw [hrun, M.reg_toHost, decide_eq_false (by omega), run_whenA_false]
    exact M.reg_setReg_other s _ hother

theorem LogRec.length_bytes (r : LogRec) : r.bytes.length = 64 := by
  simp [LogRec.bytes, length_leBytes]

/-- A record is written to its place in the ring. -/
def writeRecord (base : Nat) (r : LogRec) : Act Unit := do
  let _ ← writeBytes (base + 64 * (r.index % 4096)) r.bytes
  pure ()

theorem flushLog_kept {s : M} (h : s.logRing = false) : (flushLog s).2 = s := by
  rw [flushLog, run_bind, run_get]
  dsimp only
  rw [h, run_whenA_false]

/-- One record in the buffer goes to its place in the ring. -/
theorem flushLog_one {s : M} (h : s.logRing = true) {r : LogRec} (hr : s.logBuf = [r]) : (flushLog s).2 =
    { (writeBytes (s.reg Reg.chkLogBase + 64 * (r.index % 4096)) r.bytes s).2 with logBuf := [] } := by
  rw [flushLog, run_bind, run_get]
  dsimp only
  rw [h, run_whenA_true, run_bind, hr]
  rfl

theorem M.logRing_congr {s t : M} (hb : t.reg Reg.chkLogBase = s.reg Reg.chkLogBase) (hm : t.reg Reg.mgtReadyMap = s.reg Reg.mgtReadyMap) :
    t.logRing = s.logRing := by
  rw [M.logRing, M.logRing, hb, hm]

section
variable {s : State} (hl : s.m.board.live = true) (hw : s.m.wf = true) (kind island logical : Nat) (pl : List Byte)
include hl hw

omit hl hw in
theorem noted_logRing : (logAdd kind island 0 logical 0xFF 0 pl s.m).2.logRing = s.m.logRing ∧
    (logAdd kind island 0 logical 0xFF 0 pl s.m).2.reg Reg.chkLogBase = s.m.reg Reg.chkLogBase := by
  have hnoted := keepsNoted_logAdd kind island 0 logical 0xFF 0 pl s.m (.refl True s.m)
  have hb := hnoted.regs Reg.chkLogBase (by simp [Reg.ofNotes, Reg.chkLogBase])
  exact ⟨M.logRing_congr hb (hnoted.regs Reg.mgtReadyMap (by simp [Reg.ofNotes, Reg.mgtReadyMap])), hb⟩

omit hw in
theorem exec_errorLogRecord : exec (.errorLogRecord kind island logical pl) s = s.becomes (flushLog (logAdd kind island 0 logical 0xFF 0 pl s.m).2).2 := by
  rw [exec, execErrorLogRecord, State.doing_live s _ hl, run_bind]

theorem errorLogRecord_buffered (h : s.m.logRing = false) : s.ends (exec (.errorLogRecord kind island logical pl) s) fun m =>
    m.reg Reg.chkLogWr = trunc 32 (s.m.reg Reg.chkLogWr + 1) ∧
    m.logBuf = (if 64 ≤ s.m.logBuf.length then s.m.logBuf.drop 1 else s.m.logBuf) ++ [s.m.formed kind island logical pl] ∧
    (64 ≤ s.m.logBuf.length → m.reg Reg.chkLogLost = trunc 32 (s.m.reg Reg.chkLogLost + 1)) ∧
    (s.m.logBuf.length < 64 → m.reg Reg.chkLogLost = s.m.reg Reg.chkLogLost) ∧ s.m.sameStores m ∧ m.cores = s.m.cores := by
  rw [exec_errorLogRecord hl, flushLog_kept ((noted_logRing kind island logical pl).1.trans h)]
  exact ⟨_, rfl, logAdd_forms hw kind island logical pl⟩

theorem errorLogRecord_flushed (h : s.m.logRing = true) (hempty : s.m.logBuf = []) (hb : s.m.reg Reg.chkLogBase % 32 = 0) :
    s.ends (exec (.errorLogRecord kind island logical pl) s) fun m =>
      let at' := s.m.reg Reg.chkLogBase + 64 * (s.m.reg Reg.chkLogWr % 4096)
      m.reg Reg.chkLogWr = trunc 32 (s.m.reg Reg.chkLogWr + 1) ∧ m.logBuf = [] ∧ m.bytes at' 64 = (s.m.formed kind island logical pl).bytes ∧
      (∀ a, a < at' ∨ at' + 64 ≤ a → m.byte a = s.m.byte a) ∧ m.cores = s.m.cores := by
  have hwt := keepsWf_logAdd kind island 0 logical 0xFF 0 pl s.m hw
  obtain ⟨hring, hbase⟩ := noted_logRing kind island logical pl
  obtain ⟨hwr, hbuf, -, -, hstores, hcores⟩ := logAdd_forms hw kind island logical pl
  rw [exec_errorLogRecord hl]
  generalize (logAdd kind island 0 logical 0xFF 0 pl s.m).2 = t at *
  rw [hempty] at hbuf
  have hlen := (s.m.formed kind island logical pl).length_bytes
  rw [flushLog_one (hring.trans h) hbuf, hbase]
  obtain ⟨hbytes, honly, hothers⟩ := writeBytes_wholeLines hwt (a := s.m.reg Reg.chkLogBase + 64 * (s.m.reg Reg.chkLogWr % 4096)) (by omega)
    (data := (s.m.formed kind island logical pl).bytes) 2 hlen
  rw [hlen] at hbytes hothers
  refine ⟨_, rfl, ?_, rfl, hbytes, fun a ha => (hothers a ha).trans ?_, ?_⟩
  · exact (congrArg (M.reg · Reg.chkLogWr) honly :).trans hwr
  · exact congrArg (Tab.read memZero · a) hstores.1
  · exact (congrArg M.cores honly :).trans hcores

end

end Sys2Proof.Machine

/-! # The commands of Practice (R356, R358 to R360) -/

namespace Sys2Proof.Machine

section
variable {s : State} (hl : s.m.board.live = true) {p : Nat}
include hl

/-- Practice may enter a position. -/
def M.practises (s : M) (pos us : Nat) : Prop := bit (s.reg Reg.chkPractice) 31 = true ∧
  ((s.posState pos = 1 ∧ (s.shadowBusy pos = false ∨ bit (s.reg (Reg.chkPos pos)) 30 = true)) ∨
    (s.posState pos = 0 ∧ bit (s.reg Reg.mgtDoubleCtl) 0 = true ∧ max 50 (bits (s.reg Reg.chkPractice) 7 0) ≤ us ∧
      ∀ n ∈ s.coresAt pos, s.coreIdle n = true))

/-- The position is in Practice. -/
def M.inPractice (s : M) (pos : Nat) : M :=
  { s with pos := Tab.put PosX.init s.pos pos { s.posX pos with practice := true, retry := false } }

theorem exec_practiceEntry_guard (us : Nat) : ∃ go, exec (.practiceEntry p us) s = s.becomes (whenA go (do
      updPos p fun x => { x with practice := true, retry := false }
      whenA (s.m.posState p == 0) (saveSwitch (s.m.runningAt p))) s.m).2 ∧ (s.m.practises p us ↔ go = true) := by
  rw [exec, execPracticeEntry, State.doing_live s _ hl, run_bind, run_get]
  refine ⟨_, rfl, ?_⟩
  rw [M.practises, Bool.and_eq_true]
  refine and_congr_right fun _ => ?_
  match s.m.posState p with
  | 0 => simp [and_assoc]
  | 1 => simp
  | _ + 2 => simp

theorem exec_practiceEntry (us : Nat) : (s.m.practises p us → exec (.practiceEntry p us) s = s.becomes
      (if s.m.posState p = 0 then (saveSwitch (s.m.runningAt p) (s.m.inPractice p)).2 else s.m.inPractice p)) ∧
    (¬ s.m.practises p us → exec (.practiceEntry p us) s = .next s) := by
  obtain ⟨go, hrun, hgo⟩ := exec_practiceEntry_guard hl (p := p) us
  rw [hrun, hgo]
  constructor
  · rintro rfl
    rw [run_whenA_true, run_bind]
    by_cases hs : s.m.posState p = 0
    · rw [if_pos hs, hs]
      rfl
    · rw [if_neg hs, show (s.m.posState p == 0) = false by simpa using hs]
      rfl
  · intro h
    rw [Bool.eq_false_iff.2 h, run_whenA_false]

variable (hw : s.m.wf = true) (hp : p < 128) (hx : (s.m.posX p).practice = true) (k : Nat)
include hw hp hx

omit hl hp hx in
theorem wf_practiced : (practiceData p k s.m).2.wf = true := keepsWf_practiceData p k s.m hw

omit hl hw hp hx in
theorem posX_practiced (i : Nat) : (practiceData p k s.m).2.posX i = s.m.posX i :=
  congrArg (Tab.read PosX.init · i) (keepsRedrawn_practiceData s.m p k s.m (.refl _)).pos

omit hl hw hp hx in
theorem posState_practiced (i : Nat) : (practiceData p k s.m).2.posState i = s.m.posState i :=
  congrArg (bits · 10 8) ((keepsRedrawn_practiceData s.m p k s.m (.refl _)).reg _)

omit hl hw hp hx in
theorem keepsWf_renewAge (p : Nat) : KeepsWf (renewAge p) := keepsWf_bind (keepsWf_upd _ _) fun _ => keepsWf_showLag

omit hl hw hp hx in
/-- A word without its age, and with its pass noted. -/
theorem bits_renewed (v : Nat) : bits (setBits v 30 30 0 - bits v 23 0) 23 0 = 0 ∧ bit (setBits v 30 30 0 - bits v 23 0) 30 = false ∧
    bit (setBits v 30 30 0 - bits v 23 0) 31 = bit v 31 := by
  have hlow : bits v 23 0 = setBits v 30 30 0 % 2 ^ 24 := by
    rw [← bits_setBits_below (lo := 30) (hi := 30) (by decide) (by decide) v 0, bits]
    simp
  have hbit : ∀ i, 24 ≤ i → bit (setBits v 30 30 0 - bits v 23 0) i = bit (setBits v 30 30 0) i := fun i hi => by
    rw [hlow]
    generalize setBits v 30 30 0 = w
    have hsub : w - w % 2 ^ 24 = 2 ^ 24 * (w / 2 ^ 24) := by omega
    rw [hsub, bit, bit, Nat.testBit_two_pow_mul, Nat.testBit_div_two_pow]
    simp [hi]
  refine ⟨?_, ?_, ?_⟩
  · rw [hlow, bits]
    generalize setBits v 30 30 0 = w
    simp only [Nat.shiftRight_zero]
    omega
  · rw [hbit 30 (by decide), bit_setBits_self]
    rfl
  · rw [hbit 31 (by decide), bit_setBits_other (.inr (by decide)) (by decide)]

/-- A kernel passes. -/
theorem practiceKernelDone_pass (w l : Bool) : s.ends (exec (.practiceKernelDone p k true w l) s) fun m =>
    (m.posX p).practice = !w ∧ (m.posX p).retry = false ∧ m.posState p = s.m.posState p ∧
    (k = 2 → (m.posX p).csumRun = min ((s.m.posX p).csumRun + 1) 10 ∧
      (10 ≤ (s.m.posX p).csumRun + 1 → bit (m.reg (Reg.chkPos p)) 31 = false)) ∧
    (l = true → bits (m.reg (Reg.chkPos p)) 23 0 = 0 ∧ bit (m.reg (Reg.chkPos p)) 30 = false) := by
  rw [exec_practiceKernelDone hl hx, if_pos rfl]
  obtain ⟨hpos, hstate, hclear⟩ := kernelPass_passes (wf_practiced hw k) hp k
  have hwt := keepsWf_kernelPass p k _ (wf_practiced hw (p := p) k)
  rw [posX_practiced] at hpos hclear
  rw [posState_practiced] at hstate
  generalize (kernelPass p k (practiceData p k s.m).2).2 = t at *
  have hage : ∃ u, (whenA l (renewAge p) t).2 = u ∧ u.wf = true ∧ u.posX p = t.posX p ∧ u.posState p = t.posState p ∧
      (bit (t.reg (Reg.chkPos p)) 31 = false → bit (u.reg (Reg.chkPos p)) 31 = false) ∧
      (l = true → bits (u.reg (Reg.chkPos p)) 23 0 = 0 ∧ bit (u.reg (Reg.chkPos p)) 30 = false) := by
    cases l with
    | false => exact ⟨t, rfl, hwt, rfl, rfl, id, fun h => absurd h (by decide)⟩
    | true =>
      obtain ⟨hpos', hstate', hown⟩ := renewAge_renews hwt hp
      obtain ⟨hlow, h30, h31⟩ := bits_renewed (t.reg (Reg.chkPos p))
      exact ⟨_, rfl, keepsWf_renewAge p t hwt, hpos' p, hstate', fun h => hown ▸ h31.trans h, fun _ => hown ▸ ⟨hlow, h30⟩⟩
  obtain ⟨u, hu, hwu, hposu, hstateu, hclearu, hageu⟩ := hage
  simp only [Bool.not_true, Bool.false_and, run_whenA_false, Bool.true_and, hu]
  obtain ⟨hregs, hleft⟩ := leavePractice_leaves hwu hp w
  refine ⟨_, rfl, ?_, ?_, ?_, fun hk => ⟨?_, fun hten => ?_⟩, fun hlast => ?_⟩
  · rw [hleft, hposu, hpos]
    cases w <;> simp [PosX.left, hx]
  · rw [hleft, hposu, hpos]
    cases w <;> simp [PosX.left, hx]
  · exact (congrArg (bits · 10 8) (hregs _ (.inr (.inr rfl))) : _ = u.posState p).trans (hstateu.trans hstate)
  · rw [hleft, hposu, hpos, hk]
    cases w <;> simp [PosX.left, hx]
  · rw [hregs _ (.inl rfl)]
    exact hclearu (hclear hk hten)
  · rw [hregs _ (.inl rfl)]
    exact hageu hlast

omit hw hp in
/-- A kernel's first failure is noted, and its data stands; it is run again. -/
theorem exec_practiceKernelDone_again (h : (s.m.posX p).retry = false ∧ (bit (s.m.reg (Reg.chkPos p)) 30 = false ∨ k = 2 ∨ 7 ≤ k)) :
    exec (.practiceKernelDone p k false false false) s = s.becomes
      (whenA (k == 2) (updPos p fun x => { x with csumRun := 0 }) ((practiceData p k s.m).2.withPosX p { s.m.posX p with retry := true })).2 := by
  obtain ⟨hr, hk⟩ := h
  have hno : ¬ ((s.m.posX p).retry || (bit (s.m.reg (Reg.chkPos p)) 30 && k != 2 && decide (k < 7))) = true := by
    rw [hr]
    rcases hk with hk | hk | hk
    · simp [hk]
    · simp [hk]
    · simp [Nat.not_lt.2 hk]
  rw [exec_practiceKernelDone hl hx, if_neg Bool.false_ne_true, if_neg hno, run_updPos, posX_practiced, leavePractice, run_bind, run_get]
  simp only [Bool.and_false, run_whenA_false, Bool.not_false, Bool.true_and]

omit hw hp in
theorem practiceKernelDone_again_other (h : (s.m.posX p).retry = false ∧ (bit (s.m.reg (Reg.chkPos p)) 30 = false ∨ k = 2 ∨ 7 ≤ k)) (hk : k ≠ 2) :
    exec (.practiceKernelDone p k false false false) s = s.becomes
      { (practiceData p k s.m).2 with pos := Tab.put PosX.init s.m.pos p { s.m.posX p with retry := true } } := by
  rw [exec_practiceKernelDone_again hl hx k h, show (k == 2) = false by simpa using hk, run_whenA_false, M.withPosX,
    (keepsRedrawn_practiceData s.m p k s.m (.refl _)).pos]

omit hp in
theorem practiceKernelDone_again_csum (h : (s.m.posX p).retry = false ∧ (bit (s.m.reg (Reg.chkPos p)) 30 = false ∨ k = 2 ∨ 7 ≤ k)) (hk : k = 2) :
    s.ends (exec (.practiceKernelDone p k false false false) s) fun m => m.posX p = { s.m.posX p with retry := true, csumRun := 0 } ∧
      m = { (practiceData p k s.m).2 with pos := m.pos } ∧ ∀ i, i ≠ p → m.posX i = s.m.posX i := by
  have hwt := wf_practiced hw (p := p) k
  have hpos := fun i => posX_practiced (s := s) (p := p) k i
  rw [exec_practiceKernelDone_again hl hx k h, show (k == 2) = true by simpa using hk, run_whenA_true, run_updPos, M.posX_withPosX hwt]
  generalize (practiceData p k s.m).2 = t at *
  refine ⟨_, rfl, M.posX_withPosX (M.wf_withPosX hwt _ _) p _, rfl, fun i hi => ?_⟩
  rw [M.posX_withPosX_other _ hi, M.posX_withPosX_other _ hi, hpos]

/-- A kernel that has failed before, or cannot be tried again, fails for good. -/
theorem practiceKernelDone_fails (h : ¬ ((s.m.posX p).retry = false ∧ (bit (s.m.reg (Reg.chkPos p)) 30 = false ∨ k = 2 ∨ 7 ≤ k))) (w l : Bool) :
    s.ends (exec (.practiceKernelDone p k false w l) s) fun m => s.m.failedFor m p k := by
  have hyes : ((s.m.posX p).retry || (bit (s.m.reg (Reg.chkPos p)) 30 && k != 2 && decide (k < 7))) = true := by
    cases hr : (s.m.posX p).retry with
    | true => rfl
    | false =>
      simp only [hr, true_and, not_or, Bool.not_eq_false] at h
      obtain ⟨hb, hk, h7⟩ := h
      simp [hb, hk, Nat.not_le.1 h7]
  rw [exec_practiceKernelDone hl hx, if_neg Bool.false_ne_true, if_pos hyes]
  have hfails := kernelFail_fails (wf_practiced hw (p := p) k) hp k
  have hwt := keepsWf_kernelFail p k _ (wf_practiced hw (p := p) k)
  have hstart : (practiceData p k s.m).2.posState p = s.m.posState p := posState_practiced k p
  generalize hd : (practiceData p k s.m).2 = d at *
  generalize (kernelFail p k d).2 = t at *
  have hrun : ∃ u, (whenA (!false && k == 2) (updPos p fun x => { x with csumRun := 0 }) t).2 = u ∧ u.wf = true ∧ u.regs = t.regs ∧
      (u.posX p).csumOff = (t.posX p).csumOff := by
    cases hk : (k == 2) with
    | false => exact ⟨t, rfl, hwt, rfl, rfl⟩
    | true => exact ⟨_, rfl, M.wf_withPosX hwt p _, rfl, (congrArg PosX.csumOff (M.posX_withPosX hwt p { t.posX p with csumRun := 0 }) :)⟩
  obtain ⟨u, hu, hwu, hregs, hoff⟩ := hrun
  simp only [Bool.false_and, run_whenA_false, hu]
  obtain ⟨hregs', hleft⟩ := leavePractice_leaves hwu hp w
  refine ⟨_, rfl, ?_⟩
  have hall : d.failedFor (leavePractice p w u).2 p k := hfails.congr
    (fun o ho => (hregs' o ho).trans (congrArg (Tab.read Reg.dflt · o) hregs)) ?_
  · unfold M.failedFor at *
    rwa [hstart] at hall
  · rw [hleft, ← hoff, PosX.left]
    split <;> rfl

omit hx in
/-- A position's age is kept, and PRACTICE_LAG with it (R360). -/
theorem practiceLag_shows (age : Nat) : s.ends (exec (.practiceLag p age) s) fun m => s.m.sameBut m [Reg.chkPos p, Reg.chkStatus] ∧
    bits (m.reg (Reg.chkPos p)) 23 0 = satU 24 age ∧
    (bit (m.reg Reg.chkStatus) 1 = true ↔ ∃ i, i < 128 ∧ m.posState i < 2 ∧
      60 * max 1 (bits (s.m.reg Reg.chkPractice) 23 8) < bits (m.reg (Reg.chkPos i)) 23 0) := by
  obtain ⟨v, hv, hlate⟩ := showLag_shows (s := s.m.setReg (Reg.chkPos p) (setBits (s.m.reg (Reg.chkPos p)) 23 0 (satU 24 age)))
  have hsame := ((M.sameBut.refl s.m [Reg.chkPos p, Reg.chkStatus]).setReg (by simp) (o := Reg.chkPos p)
    (setBits (s.m.reg (Reg.chkPos p)) 23 0 (satU 24 age)))
  have hwt := M.wf_setReg (Reg.chkPos p) (setBits (s.m.reg (Reg.chkPos p)) 23 0 (satU 24 age)) hw
  have hself : (s.m.setReg (Reg.chkPos p) (setBits (s.m.reg (Reg.chkPos p)) 23 0 (satU 24 age))).reg (Reg.chkPos p) = _ := M.reg_setReg_self s.m _ _ hw
  have hctl : (s.m.setReg (Reg.chkPos p) (setBits (s.m.reg (Reg.chkPos p)) 23 0 (satU 24 age))).reg Reg.chkPractice = s.m.reg Reg.chkPractice :=
    M.reg_setReg_other _ _ (by simp only [Reg.chkPos, Reg.chkPractice]; omega)
  rw [exec, execPracticeLag, State.doing_live s _ hl, run_bind, run_setField, hv]
  rw [hctl] at hlate
  generalize s.m.setReg (Reg.chkPos p) (setBits (s.m.reg (Reg.chkPos p)) 23 0 (satU 24 age)) = t at *
  have hother : ∀ o, o ≠ Reg.chkStatus → (t.setReg Reg.chkStatus (setBits (t.reg Reg.chkStatus) 1 1 v)).reg o = t.reg o :=
    fun o ho => M.reg_setReg_other t _ ho
  have hpos : ∀ i, Reg.chkPos i ≠ Reg.chkStatus := fun i => by simp only [Reg.chkPos, Reg.chkStatus]; omega
  have hstate : ∀ i, i < 128 → Reg.mgtPosState i ≠ Reg.chkStatus := fun i hi => by simp only [Reg.mgtPosState, Reg.chkStatus]; omega
  refine ⟨_, rfl, hsame.setReg (by simp) _, ?_, ?_⟩
  · rw [hother _ (hpos p), hself, bits_setBits_self (by decide)]
    exact Nat.mod_eq_of_lt (Nat.lt_of_le_of_lt (Nat.min_le_right _ _) (by decide))
  · rw [M.reg_setReg_self t _ _ hwt, bit_setBits_self, decide_eq_true_iff, hlate]
    refine exists_congr fun i => and_congr_right fun hi => ?_
    rw [hother _ (hpos i), M.posState, M.posState, hother _ (hstate i hi)]

end

/-- Settles O51: each command by its guard; a kernel's result is kept while its position is left to work (`leavePractice_leaves`). -/
theorem practiceAndErrorLog : Obligations.PracticeAndErrorLog := by
  intro s pos hl hw hp x ctl own limit
  refine ⟨fun us => exec_practiceEntry hl us, fun h k p w l => exec_practiceKernelDone_idle hl h k p w l, fun k => ?_, fun hx k => ?_,
    fun age => practiceLag_shows hl hw hp age, fun kind island logical pl => ⟨fun h => errorLogRecord_buffered hl hw kind island logical pl h,
      fun h hempty hb => errorLogRecord_flushed hl hw kind island logical pl h hempty hb⟩⟩
  · exact ⟨keepsRedrawn_practiceData s.m pos k s.m (.refl _), fun hfar a hslice hlow hhigh => practiceData_byte s.m pos k a hfar hslice hlow hhigh⟩
  · exact ⟨fun h hk => practiceKernelDone_again_other hl hx k h hk, fun h hk => practiceKernelDone_again_csum hl hw hx k h hk,
      fun h w l => practiceKernelDone_fails hl hw hp hx k h w l, fun w l => practiceKernelDone_pass hl hw hp hx k w l⟩

end Sys2Proof.Machine

/-! # Play synchronisation (R181, R444) -/

namespace Sys2Proof.Machine

/-! ## What a synchronisation leaves as it was -/

theorem AboutNotes.keeps_loadPlays {P : M → Prop} (hP : AboutNotes P) (n e : Nat) (l : List (Nat × Nat)) (total : Nat) : Keeps P (loadPlays n e l total) := by
  induction l generalizing total with
  | nil => exact keeps_pure _
  | cons x l ih =>
    obtain ⟨k, entry⟩ := x
    refine keeps_getThen fun s => keeps_ite (keeps_pure _) (keeps_ite (keeps_pure _) (keeps_bind (hP.keeps_readBytes _ _) fun ⟨p, bs⟩ => ?_))
    refine keeps_ite (keeps_pure _) (keeps_ite (keeps_pure _) (keeps_ite (keeps_pure _) (keeps_bind (ih _) fun r => ?_)))
    cases r <;> exact keeps_pure _

/-- A property that the synchronisation of engine e of core n does not undo. -/
structure AboutSync (n e : Nat) (P : M → Prop) : Prop extends AboutNotes P where
  state : ∀ {t} v, P t → P (t.setReg (Reg.corePlayState n e) v)
  plays : ∀ {t : M} g, P t → P (t.setCore n ((t.core n).setRing e g))

/-- A synchronisation that fails. -/
def failSync (n e err k : Nat) : Act Unit := do
  updRing n e fun g => { g with plays := [] }
  wr (Reg.corePlayState n e) (3 <<< 30 + err <<< 27 + k <<< 8)

/-- A synchronisation that succeeds, with the mark of the directory's first entry. -/
def takePlays (n e mark : Nat) (l : List (Nat × List Nat)) : Act Unit := do
  updRing n e fun g => { g with plays := l }
  wr (Reg.corePlayState n e) (2 <<< 30 + mark <<< 24 + l.length)

/-- The entries of a directory that are valid. -/
def M.validPlays (s : M) (dir : Nat) : List (Nat × Nat) :=
  ((List.range 256).drop 1).filterMap fun k => if bit (s.num (dir + 8 * k) 8) 63 then some (k, s.num (dir + 8 * k) 8) else none

/-- What follows the reading of the bodies. -/
def endSync (n e mark : Nat) : List (Nat × List Nat) ⊕ (Nat × Nat) → Act Unit
  | .inr (err, k) => failSync n e err k
  | .inl l => takePlays n e mark l

/-- A synchronisation, once the directory has been read. -/
def syncFrom (n e : Nat) (bad : List Nat) (s : M) : Act Unit :=
  match bad with
  | l :: _ => failSync n e 4 ((32 * l - playDir n e) / 8)
  | [] =>
    if bits (s.num (playDir n e + 8 * 0) 8) 1 0 = 3 then failSync n e 5 0
    else do
      let r ← loadPlays n e (s.validPlays (playDir n e)) 0
      endSync n e (bits (s.num (playDir n e + 8 * 0) 8) 1 0) r

theorem run_syncEngine (n e : Nat) (s : M) : syncEngine n e s =
    syncFrom n e (readLines (linesOf (playDir n e) 0x800) s).1 (readLines (linesOf (playDir n e) 0x800) s).2
      (readLines (linesOf (playDir n e) 0x800) s).2 := by
  rw [syncEngine, run_bind]
  generalize readLines (linesOf (playDir n e) 0x800) s = r
  obtain ⟨bad, t⟩ := r
  rw [run_bind, run_get]
  dsimp only
  cases bad with
  | cons => rfl
  | nil =>
    dsimp only
    rw [syncFrom]
    split
    · rfl
    · rw [run_bind, run_bind, M.validPlays]
      generalize loadPlays n e _ 0 t = q
      obtain ⟨r, u⟩ := q
      cases r <;> rfl

namespace AboutSync

variable {n e : Nat} {P : M → Prop} (hP : AboutSync n e P)
include hP

theorem keeps_failSync (err k : Nat) : Keeps P (failSync n e err k) := keeps_bind (fun _ h => hP.plays _ h) fun _ _ h => hP.state _ h

theorem keeps_endSync (mark : Nat) (r : List (Nat × List Nat) ⊕ (Nat × Nat)) : Keeps P (endSync n e mark r) := by
  match r with
  | .inr (err, k) => exact hP.keeps_failSync err k
  | .inl l => exact keeps_bind (fun _ h => hP.plays _ h) fun _ _ h => hP.state _ h

theorem keeps_syncFrom (bad : List Nat) (s : M) : Keeps P (syncFrom n e bad s) := by
  match bad with
  | l :: _ => exact hP.keeps_failSync _ _
  | [] =>
    rw [syncFrom]
    split
    · exact hP.keeps_failSync _ _
    · exact keeps_bind (hP.keeps_loadPlays _ _ _ _) fun _ => hP.keeps_endSync _ _

theorem keeps_syncEngine : Keeps P (syncEngine n e) := fun s h => by
  rw [run_syncEngine]
  exact hP.keeps_syncFrom _ _ _ (hP.keeps_readLines _ s h)

end AboutSync

/-! ## What a synchronisation settles -/

/-- What the bodies of a directory's entries answer: plays of these entries without reserved words, or the error of one. -/
def playsOf (e : Nat) (ps : List (Nat × Nat)) : List (Nat × List Nat) ⊕ (Nat × Nat) → Prop
  | .inl l => l.length ≤ ps.length ∧ ∀ p ∈ l, p.1 ∈ ps.map Prod.fst ∧ ∀ w ∈ p.2, cwReserved e w = false
  | .inr (err, k) => err ≤ 5 ∧ k ∈ ps.map Prod.fst

theorem loadPlays_plays (n e : Nat) (ps : List (Nat × Nat)) (total : Nat) (s : M) : playsOf e ps (loadPlays n e ps total s).1 := by
  induction ps generalizing total s with
  | nil => exact ⟨Nat.le_refl _, fun _ h => absurd h List.not_mem_nil⟩
  | cons x ps ih =>
    obtain ⟨k, entry⟩ := x
    have herr : ∀ err, err ≤ 5 → playsOf e ((k, entry) :: ps) (.inr (err, k)) := fun _ h => ⟨h, List.mem_cons_self⟩
    rw [loadPlays, run_bind, run_get]
    dsimp only
    split
    · exact herr 1 (by decide)
    split
    · exact herr 2 (by decide)
    rw [run_bind]
    generalize readBytes (homeAddr n (bits entry 21 0)) (16 * bits entry 60 48) s = r
    obtain ⟨⟨p, bs⟩, t⟩ := r
    dsimp only
    split
    · exact herr 4 (by decide)
    split
    · exact herr 3 (by decide)
    split
    · exact herr 5 (by decide)
    next hwords =>
      have hrest := ih (total + bits entry 60 48) t
      rw [run_bind]
      generalize loadPlays n e ps (total + bits entry 60 48) t = q at *
      obtain ⟨r, u⟩ := q
      match r, hrest with
      | .inr (err, j), ⟨he, hj⟩ => exact ⟨he, List.mem_cons_of_mem _ hj⟩
      | .inl l, ⟨hlen, hall⟩ =>
        refine ⟨Nat.succ_le_succ hlen, fun q hq => ?_⟩
        rcases List.mem_cons.1 hq with rfl | hq
        · refine ⟨List.mem_cons_self, fun w hw => ?_⟩
          simp only [List.any_eq_true, not_exists, not_and, Bool.not_eq_true] at hwords
          exact hwords w hw
        · exact ⟨List.mem_cons_of_mem _ (hall q hq).1, (hall q hq).2⟩

/-- The synchronisation of engine e has ended: its plays are loaded, or it is in error and has none. -/
def M.synced (t : M) (n e : Nat) : Prop :=
  (bits (t.reg (Reg.corePlayState n e)) 31 30 = 2 ∧ bits (t.reg (Reg.corePlayState n e)) 8 0 = (t.ring n e).plays.length ∧
    ∀ p ∈ (t.ring n e).plays, p.1 < 256 ∧ ∀ w ∈ p.2, cwReserved e w = false) ∨
  (bits (t.reg (Reg.corePlayState n e)) 31 30 = 3 ∧ (t.ring n e).plays = [])

section
variable {s : M} (hw : s.wf = true) (n e : Nat)
include hw

theorem failSync_synced {err k : Nat} (herr : err ≤ 5) (hk : k < 256) : (failSync n e err k s).2.synced n e := by
  rw [failSync, run_bind]
  have hwt := keepsWf_updRing n e (fun g => { g with plays := [] }) s hw
  refine .inr ⟨?_, ?_⟩
  · rw [run_wr, M.reg_setReg_self _ _ _ hwt, bits]
    simp only [Nat.shiftLeft_eq, Nat.shiftRight_eq_div_pow]
    omega
  · exact congrArg Ring.plays (M.ring_withRing_self hw n e fun g => { g with plays := [] } :)

theorem takePlays_synced {mark : Nat} (hmark : mark < 4) {l : List (Nat × List Nat)} (hlen : l.length < 256)
    (hl : ∀ p ∈ l, p.1 < 256 ∧ ∀ w ∈ p.2, cwReserved e w = false) : (takePlays n e mark l s).2.synced n e := by
  rw [takePlays, run_bind]
  have hwt := keepsWf_updRing n e (fun g => { g with plays := l }) s hw
  have hplays : ((updRing n e (fun g => { g with plays := l }) s).2.ring n e).plays = l :=
    congrArg Ring.plays (M.ring_withRing_self hw n e fun g => { g with plays := l } :)
  refine .inl ?_
  rw [run_wr, M.reg_setReg_self _ _ _ hwt, show ∀ v, ((M.setReg (updRing n e (fun g => { g with plays := l }) s).2 (Reg.corePlayState n e) v).ring n e).plays
    = l from fun _ => hplays]
  refine ⟨?_, ?_, hl⟩ <;>
  · rw [bits]
    simp only [Nat.shiftLeft_eq, Nat.shiftRight_eq_div_pow]
    omega

omit hw in
theorem M.validPlays_length (dir : Nat) : (s.validPlays dir).length < 256 :=
  Nat.lt_of_le_of_lt (List.length_filterMap_le _ _) (by simp)

omit hw in
theorem M.validPlays_lt {dir k : Nat} (h : k ∈ (s.validPlays dir).map Prod.fst) : k < 256 := by
  obtain ⟨p, hp, rfl⟩ := List.mem_map.1 h
  obtain ⟨i, hi, heq⟩ := List.mem_filterMap.1 hp
  have hlt := List.mem_range.1 (List.mem_of_mem_drop hi)
  split at heq
  · rw [← Option.some.inj heq]
    exact hlt
  · exact absurd heq (by simp)

theorem endSync_synced {mark : Nat} (hmark : mark < 4) {ps : List (Nat × Nat)} (hlen : ps.length < 256) (hlt : ∀ k ∈ ps.map Prod.fst, k < 256)
    {r : List (Nat × List Nat) ⊕ (Nat × Nat)} (hr : playsOf e ps r) : (endSync n e mark r s).2.synced n e := by
  match r, hr with
  | .inr (err, k), ⟨herr, hk⟩ => exact failSync_synced hw n e herr (hlt k hk)
  | .inl l, ⟨hl, hall⟩ => exact takePlays_synced hw n e hmark (Nat.lt_of_le_of_lt hl hlen) fun p hp => ⟨hlt _ (hall p hp).1, (hall p hp).2⟩

omit hw in
/-- The lines that a read finds poisoned are among those that it reads. -/
theorem readLines_subset (ls : List Nat) (s : M) : ∀ l ∈ (readLines ls s).1, l ∈ ls := by
  have hfst : ∀ t, ((mapA ls fun l => do let p ← readLine l; pure (l, p)) t).1.map Prod.fst = ls := fun t => by
    induction ls generalizing t with
    | nil => rfl
    | cons x ls ih => exact congrArg (x :: ·) (ih _)
  intro l hl
  obtain ⟨p, hp, rfl⟩ := List.mem_map.1 hl
  rw [← hfst s]
  exact List.mem_map_of_mem (List.mem_filter.1 hp).1

/-- A synchronisation ends so. -/
theorem syncEngine_syncs : (syncEngine n e s).2.synced n e := by
  rw [run_syncEngine]
  have hwt := keepsWf_readLines (linesOf (playDir n e) 0x800) s hw
  have hsub := readLines_subset (linesOf (playDir n e) 0x800) s
  generalize (readLines (linesOf (playDir n e) 0x800) s).1 = bad at *
  generalize (readLines (linesOf (playDir n e) 0x800) s).2 = t at *
  match bad, hsub with
  | l :: _, hsub =>
    have hl := hsub l List.mem_cons_self
    rw [linesOf, if_neg (by decide), List.mem_range'_1] at hl
    exact failSync_synced hwt n e (by decide) (by omega)
  | [], _ =>
    have hmark : bits (t.num (playDir n e + 8 * 0) 8) 1 0 < 4 := Nat.mod_lt _ (by decide)
    rw [syncFrom]
    split
    · exact failSync_synced hwt n e (by decide) (by decide)
    · rw [run_bind]
      exact endSync_synced (keepsWf_loadPlays n e _ 0 t hwt) n e hmark (M.validPlays_length _) (fun k => M.validPlays_lt)
        (loadPlays_plays n e (t.validPlays (playDir n e)) 0 t)

end

/-! ## CORE_PLAY_SYNC -/

section
variable {n : Nat}

theorem Reg.playState_apart {e k : Nat} (hne : e ≠ k) : Reg.corePlayState n e ≠ Reg.corePlayState n k := by
  simp only [Reg.corePlayState]
  omega

theorem Reg.playState_ctl {e k : Nat} (he : e < 4) : Reg.coreRingCtl n e ≠ Reg.corePlayState n k := by
  simp only [Reg.corePlayState, Reg.coreRingCtl]
  omega

theorem Reg.playState_notes {e o : Nat} (hn : n < 120) (he : e < 4) (ho : Reg.ofNotes o) : Reg.corePlayState n e ≠ o ∧ Reg.coreRingCtl n e ≠ o := by
  simp only [Reg.ofNotes, Reg.corePlayState, Reg.coreRingCtl] at *
  omega

/-- A ring that is set reads so; the other rings of the core, and those of other cores, are as they were. -/
theorem M.ring_setCore_other {t : M} (h : Tab.wf Core.init t.cores = true) {e k : Nat} (he : e < 4) (hk : k < 4) (hne : e ≠ k) (g : Ring) :
    (t.setCore n ((t.core n).setRing k g)).ring n e = t.ring n e := by
  rw [M.ring_setCore h, if_pos rfl]
  match e, k, he, hk with
  | 0, 0, _, _ | 1, 1, _, _ | 2, 2, _, _ | 3, 3, _, _ => exact absurd rfl hne
  | 0, 1, _, _ | 0, 2, _, _ | 0, 3, _, _ | 1, 0, _, _ | 1, 2, _, _ | 1, 3, _, _ | 2, 0, _, _ | 2, 1, _, _ | 2, 3, _, _ | 3, 0, _, _ | 3, 1, _, _ |
    3, 2, _, _ => rfl

/-- Engines that are not selected are as they were, and so are the rings' control registers. -/
structure M.syncsOnly (s : M) (n : Nat) (sel : Nat → Prop) (t : M) : Prop where
  wf : Tab.wf Core.init t.cores = true
  kept : ∀ e, e < 4 → ¬ sel e → t.ring n e = s.ring n e ∧ t.reg (Reg.corePlayState n e) = s.reg (Reg.corePlayState n e)
  ctl : ∀ e, e < 4 → t.reg (Reg.coreRingCtl n e) = s.reg (Reg.coreRingCtl n e)

theorem aboutSync_syncsOnly {s : M} (hn : n < 120) {sel : Nat → Prop} {k : Nat} (hk : k < 4) (hsel : sel k) : AboutSync n k (s.syncsOnly n sel) where
  setReg v ho h := ⟨h.wf, fun e he hs => ⟨(h.kept e he hs).1, (M.reg_setReg_other _ _ (Reg.playState_notes hn he ho).1).trans (h.kept e he hs).2⟩,
    fun e he => (M.reg_setReg_other _ _ (Reg.playState_notes hn he ho).2).trans (h.ctl e he)⟩
  store _ _ h := ⟨h.wf, h.kept, h.ctl⟩
  log _ h := ⟨h.wf, h.kept, h.ctl⟩
  toHost o h := by
    unfold M.toHost
    split <;> exact ⟨h.wf, h.kept, h.ctl⟩
  state v h := ⟨h.wf, fun e he hs => ⟨(h.kept e he hs).1, (M.reg_setReg_other _ _ (Reg.playState_apart (fun hek : e = k => hs (hek ▸ hsel)))).trans (h.kept e he hs).2⟩,
    fun e he => (M.reg_setReg_other _ _ (Reg.playState_ctl he)).trans (h.ctl e he)⟩
  plays g h := ⟨Tab.wf_put _ _ _ _ h.wf, fun e he hs => ⟨(M.ring_setCore_other h.wf he hk (fun hek : e = k => hs (hek ▸ hsel)) g).trans (h.kept e he hs).1, (h.kept e he hs).2⟩,
    h.ctl⟩

theorem aboutSync_synced (hn : n < 120) {e k : Nat} (he : e < 4) (hk : k < 4) (hne : e ≠ k) :
    AboutSync n k fun t => Tab.wf Core.init t.cores = true ∧ t.synced n e where
  setReg v ho h := ⟨h.1, by unfold M.synced; rw [M.reg_setReg_other _ _ (Reg.playState_notes hn he ho).1]; exact h.2⟩
  store _ _ h := h
  log _ h := h
  toHost o h := by
    unfold M.toHost
    split <;> exact h
  state v h := ⟨h.1, by unfold M.synced; rw [M.reg_setReg_other _ _ (Reg.playState_apart hne)]; exact h.2⟩
  plays g h := ⟨Tab.wf_put _ _ _ _ h.1, by unfold M.synced; rw [M.ring_setCore_other h.1 he hk hne]; exact h.2⟩

/-- An engine that a synchronisation names, and whose ring is halted. -/
def M.syncs (s : M) (n mask e : Nat) : Prop := bit mask e = true ∧ s.ringRun n e = false

/-- The part of CORE_PLAY_SYNC for one engine. -/
def syncOne (n mask e : Nat) : Act Unit := do
  let s ← get
  whenA (bit mask e && !s.ringRun n e) (syncEngine n e)

variable {s : M} (hn : n < 120) (mask : Nat)
include hn

omit hn in
theorem run_syncOne {t : M} {e : Nat} (he : e < 4) (ht : s.syncsOnly n (s.syncs n mask) t) :
    (s.syncs n mask e → (syncOne n mask e t).2 = (syncEngine n e t).2) ∧ (¬ s.syncs n mask e → (syncOne n mask e t).2 = t) := by
  have hguard : (bit mask e && !t.ringRun n e) = true ↔ s.syncs n mask e := by
    rw [M.syncs, M.ringRun, M.ringRun, ht.ctl e he]
    simp
  rw [syncOne, run_bind, run_get]
  dsimp only
  exact ⟨fun h => by rw [hguard.2 h, run_whenA_true], fun h => by rw [Bool.eq_false_iff.2 (mt hguard.1 h), run_whenA_false]⟩

theorem keeps_syncOne {e : Nat} (he : e < 4) : Keeps (s.syncsOnly n (s.syncs n mask)) (syncOne n mask e) := fun t h => by
  by_cases hs : s.syncs n mask e
  · rw [(run_syncOne mask he h).1 hs]
    exact (aboutSync_syncsOnly hn he hs).keeps_syncEngine t h
  · rw [(run_syncOne mask he h).2 hs]
    exact h

omit hn in
theorem keepsWf_syncOne (e : Nat) : KeepsWf (syncOne n mask e) := keeps_getThen (P := fun t : M => t.wf = true) fun _ => keeps_whenA (keepsWf_syncEngine n e)

/-- Each engine that is named and halted is loaded or in error; the others are as they were. -/
theorem playSync_syncs (hw : s.wf = true) {e : Nat} (he : e < 4) :
    (¬ s.syncs n mask e → (playSync n mask s).2.ring n e = s.ring n e ∧
      (playSync n mask s).2.reg (Reg.corePlayState n e) = s.reg (Reg.corePlayState n e)) ∧
    (s.syncs n mask e → (playSync n mask s).2.synced n e) := by
  have hstart : s.syncsOnly n (s.syncs n mask) s := ⟨M.wf_cores hw, fun _ _ _ => ⟨rfl, rfl⟩, fun _ _ => rfl⟩
  have hall : Keeps (s.syncsOnly n (s.syncs n mask)) (playSync n mask) := keeps_forA_mem fun y hy => keeps_syncOne hn mask (List.mem_range.1 hy)
  refine ⟨(hall s hstart).kept e he, fun hsel => ?_⟩
  refine (forA_settles (I := fun t => t.wf = true ∧ s.syncsOnly n (s.syncs n mask) t) (P := fun t => Tab.wf Core.init t.cores = true ∧ t.synced n e) (x := e)
    (l := List.range 4) (f := syncOne n mask)
    (fun y hy t ht => ⟨keepsWf_syncOne mask y t ht.1, keeps_syncOne hn mask (List.mem_range.1 hy) t ht.2⟩) (fun y hy t ht hor => ?_) ⟨hw, hstart⟩
    (.inr (List.mem_range.2 he))).2
  by_cases hey : e = y
  · subst hey
    rw [(run_syncOne mask he ht.2).1 hsel]
    exact ⟨M.wf_cores (keepsWf_syncEngine n e t ht.1), syncEngine_syncs ht.1 n e⟩
  · have hy := List.mem_range.1 hy
    by_cases hs : s.syncs n mask y
    · rw [(run_syncOne mask hy ht.2).1 hs]
      exact (aboutSync_synced hn he hy hey).keeps_syncEngine t (hor.resolve_right hey)
    · rw [(run_syncOne mask hy ht.2).2 hs]
      exact hor.resolve_right hey

end

/-- R181: CORE_PLAY_SYNC. -/
theorem corePlaySync_syncs {s : State} (hl : s.m.board.live = true) (hw : s.m.wf = true) {n : Nat} (hn : n < s.m.nCores) {w : Nat}
    (ha : s.m.admits w false) (mask : Nat) : s.ends (exec (.corePlaySync n mask w) s) fun m => ∀ e, e < 4 →
      ((bit mask e = false ∨ s.m.ringRun n e = true) →
        m.ring n e = s.m.ring n e ∧ m.reg (Reg.corePlayState n e) = s.m.reg (Reg.corePlayState n e)) ∧
      (bit mask e = true → s.m.ringRun n e = false → m.synced n e) := by
  have hn' := hn.trans_le s.m.nCores_le
  rw [exec, execCorePlaySync, State.doing_live s _ hl, run_coreAction_admitted ha hn]
  refine ⟨_, rfl, fun e he => ?_⟩
  obtain ⟨hkept, hsynced⟩ := playSync_syncs hn' mask (M.wf_accessed hw w) he
  rw [M.syncs, M.accessed_ringRun _ _ hn' he] at hkept hsynced
  rw [M.accessed_ring, M.accessed_reg _ _ (by simp only [Reg.corePlayState]; omega)] at hkept
  refine ⟨fun h => hkept ?_, fun hb hr => hsynced ⟨hb, hr⟩⟩
  rintro ⟨hb, hr⟩
  rcases h with h | h
  · exact absurd (hb.symm.trans h) (by decide)
  · exact absurd (hr.symm.trans h) (by decide)

end Sys2Proof.Machine

/-! # What moves a logical core, and what ends its job (R117, R119 to R121, R181, R189) -/

namespace Sys2Proof.Machine

/-! ## Resuming at a position -/

/-- A property that core n does not undo when it resumes at a position. -/
structure AboutResume (n pos : Nat) (P : M → Prop) : Prop extends AboutNotes P where
  irq : ∀ {t : M} c, P t → P (t.setCore n ((t.core n).raised c))
  sync : ∀ e, e < 4 → AboutSync n e P
  hazard : ∀ {t e} v, e < 4 → P t → P (t.setReg (Reg.coreHazardCount n e) v) ∧ P (t.setReg (Reg.coreHazardFirst n e) v)
  point : ∀ {t} v, P t → P (t.setReg (Reg.pwrPosOp pos) v)
  clock : ∀ {t : M} c, P t → P (t.withPosX pos { t.posX pos with clk := c })

namespace AboutResume

variable {n pos : Nat} {P : M → Prop} (hP : AboutResume n pos P)
include hP

theorem keeps_posEvent (p code k : Nat) : Keeps P (posEvent p code k) := keeps_getThen fun _ => hP.keeps_posCount _ _ _ _ _ _

theorem keeps_ctlInterrupt (cause : Nat) : Keeps P (ctlInterrupt n cause) :=
  keeps_getThen fun _ => keeps_bind (fun _ h => hP.irq cause h) fun _ => hP.keeps_posCount _ _ _ _ _ _

theorem keeps_setPoint (pref : Nat) : Keeps P (setPoint pos pref) := by
  have hset : ∀ v, Keeps P (wr (Reg.pwrPosOp pos) v) := fun v _ h => hP.point v h
  exact keeps_getThen fun s => keeps_ite (hset _) (keeps_bind (keeps_whenA (hP.keeps_posEvent _ _ _)) fun _ =>
    keeps_bind (hset _) fun _ _ h => hP.clock _ h)

theorem keeps_resumeAt (cause : Nat) : Keeps P (resumeAt n pos cause) :=
  keeps_bind (hP.keeps_posEvent _ _ _) fun _ => keeps_bind (hP.keeps_ctlInterrupt cause) fun _ =>
    keeps_bind (keeps_forA_mem fun e he => have he := List.mem_range.1 he
      keeps_bind (hP.sync e he).keeps_syncEngine fun _ => keeps_bind (fun _ h => (hP.hazard _ he h).1) fun _ _ h => (hP.hazard _ he h).2) fun _ =>
      keeps_getThen fun _ => hP.keeps_setPoint _

end AboutResume

/-! ## What the move of a core settles -/

/-- The registers that a move of core n settles: those of the core map, and the core's status. -/
def Reg.ofMove (n o : Nat) : Prop := (o < 0x100000 ∧ o ≠ Reg.mgtBenchCount) ∨ o = Reg.coreStatus n

/-- The second machine shows the same core map as the first, and the same logical cores at the positions, but for what runs beside position p;
core n moves in both or in none. -/
structure M.moved (s : M) (n p : Nat) (t : M) : Prop where
  tables : Tab.wf Reg.dflt t.regs = true ∧ Tab.wf Core.init t.cores = true ∧ Tab.wf PosX.init t.pos = true
  regs : ∀ o, Reg.ofMove n o → t.reg o = s.reg o
  target : (t.core n).target = (s.core n).target
  run : (t.posX p).running = (s.posX p).running
  pos : ∀ i, i ≠ p → t.posX i = s.posX i

theorem M.moved.refl {s : M} (hw : s.wf = true) (n p : Nat) : s.moved n p s :=
  ⟨by simp_all [M.wf], fun _ _ => rfl, rfl, rfl, fun _ _ => rfl⟩

section
variable {s : M} {n p : Nat} (hn : n < 120)
include hn

omit hn in
theorem Reg.ofMove_lt {o : Nat} (h : Reg.ofMove n o) : o < 0x1000000 ∨ o = 0x1000018 + 0x10000 * n := by
  simp only [Reg.ofMove, Reg.coreStatus] at h
  omega

omit hn in
/-- A register beside those that the move settles is written. -/
theorem M.moved.beside {t : M} (h : s.moved n p t) {o : Nat} (ho : ¬ Reg.ofMove n o) (v : Nat) : s.moved n p (t.setReg o v) where
  tables := ⟨Tab.wf_put _ _ _ _ h.tables.1, h.tables.2⟩
  regs k hk := (M.reg_setReg_other t v fun e : k = o => ho (e ▸ hk)).trans (h.regs k hk)
  target := h.target
  run := h.run
  pos := h.pos

omit hn in
/-- A core is changed, whose move is not. -/
theorem M.moved.setCore {t : M} (h : s.moved n p t) (k : Nat) {c : Core} (hc : c.target = (t.core k).target) : s.moved n p (t.setCore k c) where
  tables := ⟨h.tables.1, Tab.wf_put _ _ _ _ h.tables.2.1, h.tables.2.2⟩
  regs := h.regs
  target := by
    rw [M.core_setCore h.tables.2.1]
    split
    next e => rw [hc, ← e, h.target]
    · exact h.target
  run := h.run
  pos := h.pos

theorem aboutNotes_moved : AboutNotes (s.moved n p) where
  setReg v ho h := h.beside (fun hk => by have := Reg.ofMove_lt hk; simp only [Reg.ofMove, Reg.ofNotes, Reg.coreStatus] at *; omega) v
  store _ _ h := ⟨h.tables, h.regs, h.target, h.run, h.pos⟩
  log _ h := ⟨h.tables, h.regs, h.target, h.run, h.pos⟩
  toHost o h := by
    unfold M.toHost
    split <;> exact ⟨h.tables, h.regs, h.target, h.run, h.pos⟩

omit hn in
theorem Core.target_setRing (c : Core) (e : Nat) (g : Ring) : (c.setRing e g).target = c.target := by
  match e with
  | 0 | 1 | 2 | _ + 3 => rfl

omit hn in
/-- The registers of core n beside its status. -/
theorem Reg.not_ofMove {o : Nat} (ho : 0x1000000 ≤ o) (h : o ≠ 0x1000018 + 0x10000 * n) : ¬ Reg.ofMove n o := fun hk => by
  have := Reg.ofMove_lt hk
  omega

theorem aboutHeld_moved : AboutHeld n (s.moved n p) where
  toAboutNotes := aboutNotes_moved hn
  pass i v h := h.beside (Reg.not_ofMove (by simp only [Reg.corePassCount]; omega) (by simp only [Reg.corePassCount]; omega)) v
  rings k e g h := h.setCore k (Core.target_setRing _ _ _)
  unheld h := h.setCore n rfl

theorem aboutResume_moved (hp : p < 128) : AboutResume n p (s.moved n p) where
  toAboutNotes := aboutNotes_moved hn
  irq c h := h.setCore n rfl
  sync e he := {
    toAboutNotes := aboutNotes_moved hn
    state := fun v h => h.beside (Reg.not_ofMove (by simp only [Reg.corePlayState]; omega) (by simp only [Reg.corePlayState]; omega)) v
    plays := fun g h => h.setCore n (Core.target_setRing _ _ _) }
  hazard v he h := ⟨h.beside (Reg.not_ofMove (by simp only [Reg.coreHazardCount]; omega) (by simp only [Reg.coreHazardCount]; omega)) v,
    h.beside (Reg.not_ofMove (by simp only [Reg.coreHazardFirst]; omega) (by simp only [Reg.coreHazardFirst]; omega)) v⟩
  point v h := h.beside (fun hk => by have := Reg.ofMove_lt hk; simp only [Reg.ofMove, Reg.pwrPosOp, Reg.coreStatus] at *; omega) v
  clock c h := ⟨⟨h.tables.1, h.tables.2.1, Tab.wf_put _ _ _ _ h.tables.2.2⟩, h.regs, h.target,
    (congrArg PosX.running (Tab.read_put_self _ _ _ _ h.tables.2.2) :).trans h.run,
    fun i hi => (Tab.read_put_other _ _ _ _ _ hi).trans (h.pos i hi)⟩

omit hn in
theorem M.moved.redrawn {t u : M} (h : s.moved n p t) (hu : t.redrawn u) : s.moved n p u where
  tables := by rw [show u.regs = t.regs from (congrArg M.regs hu :), hu.cores, hu.pos]; exact h.tables
  regs o ho := (hu.reg o).trans (h.regs o ho)
  target := (congrArg (fun c => (Tab.read Core.init c n).target) hu.cores :).trans h.target
  run := (congrArg (fun c => (Tab.read PosX.init c p).running) hu.pos :).trans h.run
  pos i hi := (congrArg (Tab.read PosX.init · i) hu.pos :).trans (h.pos i hi)

omit hn in
theorem keepsMoved_saveSwitch (k : Nat) : Keeps (s.moved n p) (saveSwitch k) := fun t h => h.redrawn (keepsRedrawn_saveSwitch t k t (.refl t))

theorem keepsMoved_missAt (i : Nat) : Keeps (s.moved n p) (missAt i) :=
  keeps_getThen fun _ => keeps_forA fun k => keeps_bind (keeps_getThen fun _ => keeps_pure _) fun _ =>
    keeps_bind (fun _ h => h.beside (fun hk => by have := Reg.ofMove_lt hk; simp only [Reg.ofMove, Reg.chkMissed, Reg.coreStatus] at *; omega) _)
      fun _ _ h => h.setCore k rfl

theorem keepsMoved_raiseEvent (cause : Nat) : Keeps (s.moved n p) (raiseEvent cause) :=
  keeps_bind (fun _ h => ⟨h.tables, h.regs, h.target, h.run, h.pos⟩) fun _ =>
    keeps_bind (fun _ h => ⟨h.tables, h.regs, h.target, h.run, h.pos⟩) fun _ _ h => (aboutNotes_moved hn).toHost _ h

theorem keepsMoved_clearCounters (i : Nat) : Keeps (s.moved n p) (clearCounters i) := fun t h => by
  rw [clearCounters, run_modify]
  refine M.moved.beside (t := { t with regs := t.regs.filter _ }) ⟨⟨Tab.wf_filter _ _ _ h.tables.1, h.tables.2⟩, fun o ho => ?_, h.target, h.run, h.pos⟩
    (fun hk => by have := Reg.ofMove_lt hk; simp only [Reg.posSelGen] at this; omega) _
  have hlow : o < Reg.posCnt i 0 := by
    have := Reg.ofMove_lt ho
    simp only [Reg.posCnt]
    omega
  refine (Tab.read_filter_key Reg.dflt (fun k => (decide (Reg.posCnt i 0 ≤ k) && decide (k < Reg.posCnt i 0 + 0x1000)) ||
    (decide (Reg.posCnt i 0 + 0x1200 ≤ k) && decide (k < Reg.posCnt i 0 + 0xC000))) t.regs o).trans ((if_neg ?_).trans (h.regs o ho))
  simp only [Bool.or_eq_true, Bool.and_eq_true, decide_eq_true_eq]
  omega

/-! ## Moves, step by step -/

/-- On machines that show the same, the action leaves what the function makes of the first. -/
def MovesTo (n p : Nat) (a : Act Unit) (F : M → M) : Prop :=
  ∀ s t : M, s.wf = true → s.moved n p t → (F s).wf = true ∧ (F s).moved n p (a t).2

omit hn in
theorem MovesTo.then {a b : Act Unit} {F G : M → M} (ha : MovesTo n p a F) (hb : MovesTo n p b G) :
    MovesTo n p (a >>= fun _ => b) (fun s => G (F s)) := fun s t hw h => by
  obtain ⟨hw', h'⟩ := ha s t hw h
  exact hb _ _ hw' h'

omit hn in
/-- An action that changes nothing of what is shown. -/
theorem MovesTo.of_keeps {a : Act Unit} (ha : ∀ s : M, Keeps (s.moved n p) a) : MovesTo n p a id := fun s t hw h => ⟨hw, ha s t h⟩

omit hn in
theorem M.moved.setReg {t : M} (hw : s.wf = true) (h : s.moved n p t) (o v : Nat) : (s.setReg o v).moved n p (t.setReg o v) where
  tables := ⟨Tab.wf_put _ _ _ _ h.tables.1, h.tables.2⟩
  regs k hk := by
    by_cases e : k = o
    · rw [e, M.reg_setReg_self s _ _ hw]
      exact Tab.read_put_self _ _ _ _ h.tables.1
    · rw [M.reg_setReg_other _ _ e, M.reg_setReg_other _ _ e]
      exact h.regs k hk
  target := h.target
  run := h.run
  pos := h.pos

omit hn in
theorem movesTo_wr (o v : Nat) : MovesTo n p (wr o v) (·.setReg o v) := fun _ _ hw h => ⟨M.wf_setReg _ _ hw, h.setReg hw o v⟩

omit hn in
theorem movesTo_upd {o : Nat} (ho : Reg.ofMove n o) (f : Nat → Nat) : MovesTo n p (upd o f) (fun s => s.setReg o (f (s.reg o))) := fun s t hw h => by
  rw [run_upd, h.regs o ho]
  exact ⟨M.wf_setReg _ _ hw, h.setReg hw o _⟩

omit hn in
/-- What runs at the position is set. -/
theorem movesTo_updPos {f : PosX → PosX} {r : Nat} (hf : ∀ x, (f x).running = r) :
    MovesTo n p (updPos p f) (fun s => s.withPosX p { s.posX p with running := r }) := fun s _ hw h => by
  refine ⟨M.wf_withPosX hw _ _, ⟨⟨h.tables.1, h.tables.2.1, Tab.wf_put _ _ _ _ h.tables.2.2⟩, h.regs, h.target, ?_, fun i hi => ?_⟩⟩
  · rw [M.posX_withPosX hw]
    exact (congrArg PosX.running (Tab.read_put_self _ _ _ _ h.tables.2.2) :).trans (hf _)
  · rw [M.posX_withPosX_other s hi]
    exact (Tab.read_put_other _ _ _ _ _ hi).trans (h.pos i hi)

/-! ## The map is announced -/

/-- The core's status shows the move, and the change of the map is counted (R115). -/
def M.announced (s : M) (n : Nat) : M :=
  let t := s.setReg (Reg.coreStatus n) (setBits (s.reg (Reg.coreStatus n)) 1 1 1)
  t.setReg Reg.mgtMapGen (trunc 32 (t.reg Reg.mgtMapGen + 1))

theorem movesTo_mapChanged : MovesTo n p mapChanged (fun s => s.setReg Reg.mgtMapGen (trunc 32 (s.reg Reg.mgtMapGen + 1))) := fun s t hw h => by
  rw [mapChanged, run_bind, run_get]
  dsimp only
  rw [run_bind, run_wr]
  refine movesTo_upd (o := Reg.mgtMapGen) (.inl ⟨by decide, by decide⟩) (fun v => trunc 32 (v + 1)) s _ hw (h.beside (fun hk => ?_) _)
  have := Reg.ofMove_lt hk
  simp only [Reg.ofMove, Reg.coreStatus, Reg.mgtBenchCount] at hk
  omega

/-- The status is set and the change counted; what follows changes nothing of what is shown. -/
theorem movesTo_announce {a : Act Unit} (ha : ∀ s : M, Keeps (s.moved n p) a) : MovesTo n p (do
    setField (Reg.coreStatus n) 1 1 1
    mapChanged
    a) (·.announced n) := by
  have hstatus : MovesTo n p (setField (Reg.coreStatus n) 1 1 1) _ := movesTo_upd (.inr rfl) fun x => setBits x 1 1 1
  have hall := hstatus.then ((movesTo_mapChanged (p := p) hn).then (.of_keeps ha))
  exact hall

end

/-! ## The words of the map -/

theorem mapWord_bits {mode partner pos : Nat} (hm : mode < 8) (hp : partner < 256) (hpos : pos < 128) :
    bits (1 <<< 31 + mode <<< 28 + partner <<< 16 + pos) 6 0 = pos ∧ bits (1 <<< 31 + mode <<< 28 + partner <<< 16 + pos) 30 28 = mode ∧
    bits (1 <<< 31 + mode <<< 28 + partner <<< 16 + pos) 23 16 = partner := by
  simp only [bits, Nat.shiftLeft_eq, Nat.shiftRight_eq_div_pow]
  omega

/-! ## To a bench position -/

/-- The slice numbers have been swapped. -/
def M.sliced (s : M) (n b : Nat) : M :=
  (match s.sliceAt b with
    | none => s
    | some k => s.setReg (Reg.mgtSliceMap k) (s.posOf n)).setReg (Reg.mgtSliceMap n) b

/-- The core is bound to a bench position, and to none other. -/
def M.rebound (s : M) (n b old : Nat) : M :=
  let t := s.setReg (Reg.mgtPosState b) n
  let u := t.setReg (Reg.mgtPosState old) (setBits (t.reg (Reg.mgtPosState old)) 7 0 0xFF)
  (u.withPosX b { u.posX b with running := 0xFF }).setReg (Reg.mgtCoreMap n) (1 <<< 31 + 0 <<< 28 + 0xFF <<< 16 + b)

/-- The last steps of the move to a bench position. -/
def settleBench (n b old : Nat) : Act Unit := do
  coreLog 0x14 n 0 (payload [(0, 1, n), (1, 1, old), (2, 1, b), (3, 1, 0)])
  raiseEvent 5
  resumeAt n b 1

/-- The core is bound to its bench position. -/
def bindBench (n b old : Nat) : Act Unit := do
  wr (Reg.mgtPosState b) n
  setField (Reg.mgtPosState old) 7 0 0xFF
  updPos b fun x => { x with practice := false, running := 0xFF }
  setMap n 0 0xFF b
  clearCounters b
  setField (Reg.coreStatus n) 1 1 1
  mapChanged
  settleBench n b old

section
variable {n b : Nat} (hn : n < 120) (hb : b < 128)
include hn hb

theorem movesTo_bindBench {old : Nat} (hold : old < 128) : MovesTo n b (bindBench n b old) (fun s => (s.rebound n b old).announced n) := by
  have hsettle : ∀ s : M, Keeps (s.moved n b) (settleBench n b old) := fun s =>
    keeps_bind ((aboutNotes_moved hn).keeps_coreLog _ _ _ _) fun _ => keeps_bind (keepsMoved_raiseEvent hn 5) fun _ =>
      (aboutResume_moved hn hb).keeps_resumeAt 1
  have hclear : MovesTo n b (clearCounters b) id := .of_keeps fun s => keepsMoved_clearCounters (s := s) hn b
  have hmap : MovesTo n b (setMap n 0 0xFF b) _ := movesTo_wr (Reg.mgtCoreMap n) (1 <<< 31 + 0 <<< 28 + 0xFF <<< 16 + b)
  have hpos : MovesTo n b (updPos b fun x => { x with practice := false, running := 0xFF }) _ := movesTo_updPos (r := 0xFF) fun _ => rfl
  have hstate : MovesTo n b (setField (Reg.mgtPosState old) 7 0 0xFF) _ :=
    movesTo_upd (.inl (by simp only [Reg.mgtPosState, Reg.mgtBenchCount]; omega)) fun x => setBits x 7 0 0xFF
  have hall := (movesTo_wr (n := n) (p := b) (Reg.mgtPosState b) n).then (hstate.then (hpos.then (hmap.then (hclear.then
    (movesTo_announce hn hsettle)))))
  exact hall

omit hn hb in
theorem M.moved.posOf {s t : M} {p : Nat} (h : s.moved n p t) {k : Nat} (hk : k < 128) : t.posOf k = s.posOf k :=
  congrArg (bits · 6 0) (h.regs _ (.inl (by simp only [Reg.mgtCoreMap, Reg.mgtBenchCount]; omega)))

omit hn hb in
theorem M.moved.sliceAt {s t : M} {p : Nat} (h : s.moved n p t) (i : Nat) : t.sliceAt i = s.sliceAt i := by
  unfold M.sliceAt
  refine List.find?_congr fun k hk => ?_
  rw [h.regs _ (.inl (by have := List.mem_range.1 hk; simp only [Reg.mgtSliceMap, Reg.mgtBenchCount]; omega))]

theorem movesTo_moveToBench : MovesTo n b (moveToBench n b) (fun s => ((s.sliced n b).rebound n b (s.posOf n)).announced n) := fun s t hw h => by
  have hsaved : s.moved n b (saveSwitch n t).2 := keepsMoved_saveSwitch n t h
  have hbind : MovesTo n b (do
      wr (Reg.mgtSliceMap n) b
      missAt b
      bindBench n b (s.posOf n)) _ := (movesTo_wr _ _).then ((MovesTo.of_keeps fun s => keepsMoved_missAt (s := s) hn b).then
    (movesTo_bindBench hn hb (M.posOf_lt s n)))
  rw [moveToBench, run_bind]
  generalize (saveSwitch n t).2 = u at *
  rw [run_bind, run_get]
  dsimp only
  rw [hsaved.posOf (by omega), hsaved.sliceAt b]
  cases hk : s.sliceAt b with
  | none =>
    have hall := hbind s u hw hsaved
    rw [M.sliced, hk]
    exact hall
  | some k =>
    have hall := ((movesTo_wr (Reg.mgtSliceMap k) (s.posOf n)).then hbind) s u hw hsaved
    rw [M.sliced, hk]
    exact hall

end

/-! ## What the map shows then -/

section
variable {s : M} (hw : s.wf = true) {n : Nat}

theorem M.announced_reg {o : Nat} (h : o < 0x100000) (hg : o ≠ Reg.mgtMapGen) : (s.announced n).reg o = s.reg o :=
  (M.reg_setReg_other _ _ hg).trans (M.reg_setReg_other _ _ (by simp only [Reg.coreStatus]; omega))

include hw

theorem M.announced_status : bit ((s.announced n).reg (Reg.coreStatus n)) 1 = true := by
  rw [M.announced, M.reg_setReg_other _ _ (by simp only [Reg.coreStatus, Reg.mgtMapGen]; omega), M.reg_setReg_self s _ _ hw, bit_setBits_self]
  rfl

theorem M.announced_gen : (s.announced n).reg Reg.mgtMapGen = trunc 32 (s.reg Reg.mgtMapGen + 1) := by
  rw [M.announced, M.reg_setReg_self _ _ _ (M.wf_setReg _ _ hw), M.reg_setReg_other s _ (by simp only [Reg.coreStatus, Reg.mgtMapGen]; omega)]

end

section
variable {s : M} (hw : s.wf = true) {n b old : Nat} (hn : n < 120) (hb : b < 128) (hold : old < 128) (hne : b ≠ old)

theorem M.rebound_reg {o : Nat} (h1 : o ≠ Reg.mgtPosState b) (h2 : o ≠ Reg.mgtPosState old) (h3 : o ≠ Reg.mgtCoreMap n) :
    (s.rebound n b old).reg o = s.reg o := by
  rw [M.rebound, M.reg_setReg_other _ _ h3, M.reg_withPosX, M.reg_setReg_other _ _ h2, M.reg_setReg_other _ _ h1]

include hw in
theorem M.wf_rebound : (s.rebound n b old).wf = true := M.wf_setReg _ _ (M.wf_withPosX (M.wf_setReg _ _ (M.wf_setReg _ _ hw)) _ _)

include hw in
theorem M.rebound_map : (s.rebound n b old).reg (Reg.mgtCoreMap n) = 1 <<< 31 + 0 <<< 28 + 0xFF <<< 16 + b :=
  M.reg_setReg_self _ _ _ (M.wf_withPosX (M.wf_setReg _ _ (M.wf_setReg _ _ hw)) _ _)

include hw hn hne in
theorem M.rebound_new : (s.rebound n b old).reg (Reg.mgtPosState b) = n := by
  rw [M.rebound, M.reg_setReg_other _ _ (by simp only [Reg.mgtPosState, Reg.mgtCoreMap]; omega), M.reg_withPosX,
    M.reg_setReg_other _ _ (by simp only [Reg.mgtPosState]; omega), M.reg_setReg_self s _ _ hw]

include hw hn in
theorem M.rebound_old : bits ((s.rebound n b old).reg (Reg.mgtPosState old)) 7 0 = 0xFF := by
  rw [M.rebound, M.reg_setReg_other _ _ (by simp only [Reg.mgtPosState, Reg.mgtCoreMap]; omega), M.reg_withPosX,
    M.reg_setReg_self _ _ _ (M.wf_setReg _ _ hw), bits_setBits_self (by decide)]
  rfl

omit hne in
theorem M.sliced_reg {o : Nat} (h : ∀ k, k < 128 → o ≠ Reg.mgtSliceMap k) (hn : n < 120) : (s.sliced n b).reg o = s.reg o := by
  rw [M.sliced, M.reg_setReg_other _ _ (h n (by omega))]
  cases hk : s.sliceAt b with
  | none => rfl
  | some k => exact M.reg_setReg_other s _ (h k (List.mem_range.1 (List.mem_of_find?_eq_some hk)))

include hw in
theorem M.wf_sliced : (s.sliced n b).wf = true := by
  unfold M.sliced
  refine M.wf_setReg _ _ ?_
  split
  · exact hw
  · exact M.wf_setReg _ _ hw

include hw in
theorem M.sliced_own : (s.sliced n b).reg (Reg.mgtSliceMap n) = b := by
  rw [M.sliced]
  refine M.reg_setReg_self _ _ _ ?_
  split
  · exact hw
  · exact M.wf_setReg _ _ hw

include hw in
/-- The slice that lay under the bench position lies under the old one. -/
theorem M.sliced_other {k : Nat} (hk : k < 128) (hkn : k ≠ n) (hfirst : ∀ i, i < k → bits (s.reg (Reg.mgtSliceMap i)) 6 0 ≠ b)
    (h : bits (s.reg (Reg.mgtSliceMap k)) 6 0 = b) : (s.sliced n b).reg (Reg.mgtSliceMap k) = s.posOf n := by
  have hat : s.sliceAt b = some k := by
    rw [M.sliceAt, List.find?_range_eq_some]
    exact ⟨by simpa using h, List.mem_range.2 hk, fun i hi => by simpa using hfirst i hi⟩
  rw [M.sliced, hat, M.reg_setReg_other _ _ (by simp only [Reg.mgtSliceMap]; omega)]
  exact M.reg_setReg_self s _ _ hw

end

end Sys2Proof.Machine

/-! # Substitution, doubling and the faults of control cores (R117, R119 to R121, R189) -/

namespace Sys2Proof.Machine

/-! ## The end of the jobs on a core -/

/-- The job of core n is over, and so is its entry. -/
def M.jobOver (m : M) (n q y : Nat) : Prop := (m.core n).job = none ∧ m.runningJob q y = none ∧ (m.core n).ctl.running = false ∧
  ∀ e, e < 4 → m.ringRun n e = false

theorem endJobsOn_ends {t : M} (hw : t.wf = true) {n q y : Nat} {j : Job} (hjob : (t.core n).job = some (q, y)) (hj : t.runningJob q y = some j)
    (hmem : n ∈ j.cores) (hn : n < t.nCores) (status : Nat) : (endJobsOn n status t).2.jobOver n q y := by
  rw [endJobsOn, run_bind, run_get]
  dsimp only
  rw [hjob]
  have hend : M.jobEnded { t with free := t.free + 1 } (endJob q y status n (trunc 32 (Config.freeValue t.free)) { t with free := t.free + 1 }).2 q y j :=
    endJob_ends (keepsWf_freeVal 32 t hw) hj status n (trunc 32 (Config.freeValue t.free))
  obtain ⟨hnone, hcores⟩ := hend.shows
  obtain ⟨hfree, hrun, hrings⟩ := hcores n hmem hn
  refine ⟨hfree, hnone, hrun, fun e he => ?_⟩
  rw [M.ringRun]
  exact congrArg (bit · 0) (hrings e he).1

theorem endJobsOn_idle {t : M} {n : Nat} (h : (t.core n).job = none) (status : Nat) : (endJobsOn n status t).2 = t := by
  rw [endJobsOn, run_bind, run_get]
  dsimp only
  rw [h]
  rfl

/-- Core n moves no longer. -/
def M.untargeted (s : M) (n : Nat) : M := s.setCore n { s.core n with target := none }

theorem M.noted.beside {still : Prop} {s t : M} (h : s.noted still t) : t.cores = s.cores ∧ t.hostQ = s.hostQ ∧ t.nCores = s.nCores :=
  ⟨(congrArg M.cores h.rest :), (congrArg M.hostQ h.rest :),
    congrArg (fun v => if bit v 0 then 96 else 120) (h.regs Reg.mgtGrade (by simp [Reg.ofNotes, Reg.mgtGrade]))⟩

/-- A fatal failure, noted. -/
def M.failing (s : M) (n cause : Nat) : M := (coreLog 0x3E n 0 (payload [(0, 1, cause)]) (s.untargeted n)).2

theorem run_coreFatal (n cause : Nat) (s : M) : (coreFatal n cause s).2 = (endJobsOn n 0xF (s.failing n cause)).2 := rfl

section
variable {s : M} (hw : s.wf = true) {n : Nat}
include hw

theorem M.wf_untargeted : (s.untargeted n).wf = true := M.wf_setCore _ _ hw

theorem M.wf_failing (cause : Nat) : (s.failing n cause).wf = true := keepsWf_coreLog _ _ _ _ _ (M.wf_untargeted hw)

omit hw in
theorem M.failing_noted (cause : Nat) : (s.untargeted n).noted True (s.failing n cause) :=
  keeps_getThen (P := M.noted True (s.untargeted n)) (fun _ => keepsNoted_logAdd _ _ _ _ _ _ _) _ (.refl True _)

theorem M.core_untargeted : (s.untargeted n).core n = { s.core n with target := none } := M.core_setCore_self s n _ hw

theorem M.core_failing (cause : Nat) : (s.failing n cause).core n = { s.core n with target := none } := by
  rw [M.core, (M.failing_noted cause).beside.1]
  exact M.core_untargeted hw

theorem M.failing_logs (cause : Nat) : s.logs (s.failing n cause) 0x3E 177 := by
  have hlogs : (s.untargeted n).logs (s.failing n cause) 0x3E 177 := by
    unfold M.failing
    rw [coreLog, run_bind, run_get]
    exact logAdd_logs (M.wf_untargeted hw) _ _ _ _ _ _ _
  exact hlogs

/-- The job on the core ends with a fatal failure. -/
theorem coreFatal_ends {q y : Nat} {j : Job} (hjob : (s.core n).job = some (q, y)) (hj : s.runningJob q y = some j) (hmem : n ∈ j.cores)
    (hn : n < s.nCores) (cause : Nat) : (coreFatal n cause s).2.jobOver n q y := by
  rw [run_coreFatal]
  obtain ⟨-, hq, hg⟩ := (M.failing_noted (s := s) (n := n) cause).beside
  refine endJobsOn_ends (M.wf_failing hw cause) (j := j) ?_ ?_ hmem (Nat.lt_of_lt_of_eq hn hg.symm) 0xF
  · rw [M.core_failing hw]
    exact hjob
  · rw [M.runningJob, M.queue, hq]
    exact hj

/-- Without a job, the failure is noted, and the core moves no longer. -/
theorem coreFatal_idle (h : (s.core n).job = none) (cause : Nat) : ((coreFatal n cause s).2.core n).target = none ∧
    s.logs (coreFatal n cause s).2 0x3E 177 ∧ s.sameStores (coreFatal n cause s).2 := by
  have hidle : ((s.failing n cause).core n).job = none := by
    rw [M.core_failing hw]
    exact h
  rw [run_coreFatal, endJobsOn_idle hidle]
  exact ⟨by rw [M.core_failing hw], M.failing_logs hw cause, (M.failing_noted cause).stores trivial⟩

end

/-! ## To a host -/

/-- The position that the core leaves has no logical core. -/
def M.vacated (s : M) (n : Nat) : M :=
  if s.logicalAt (s.posOf n) = n then s.setReg (Reg.mgtPosState (s.posOf n)) (setBits (s.reg (Reg.mgtPosState (s.posOf n))) 7 0 0xFF) else s

/-- The core is the guest of a host, which runs first. -/
def M.hosted (s : M) (n h p : Nat) : M :=
  let t := (s.setReg (Reg.mgtCoreMap h) (1 <<< 31 + 1 <<< 28 + n <<< 16 + p)).setReg (Reg.mgtCoreMap n) (1 <<< 31 + 2 <<< 28 + h <<< 16 + p)
  t.withPosX p { t.posX p with running := h }

/-- The last steps of the move to a host. -/
def settleHost (n old p : Nat) : Act Unit := do
  coreLog 0x14 n 0 (payload [(0, 1, n), (1, 1, old), (2, 1, p), (3, 1, 2)])
  raiseEvent 5
  posEvent p 0x136 1
  ctlInterrupt n 1

section
variable {n h p : Nat} (hn : n < 120) (hp : p < 128)
include hn hp

theorem movesTo_settleHost (old : Nat) : ∀ s : M, Keeps (s.moved n p) (settleHost n old p) := fun _ =>
  keeps_bind ((aboutNotes_moved hn).keeps_coreLog _ _ _ _) fun _ => keeps_bind (keepsMoved_raiseEvent hn 5) fun _ =>
    keeps_bind ((aboutResume_moved hn hp).keeps_posEvent _ _ _) fun _ => (aboutResume_moved hn hp).keeps_ctlInterrupt 1

theorem movesTo_moveToHost {s t : M} (hw : s.wf = true) (hh : h < 128) (hsp : s.posOf h = p) (ht : s.moved n p t) :
    (((s.vacated n).hosted n h p).announced n).wf = true ∧ (((s.vacated n).hosted n h p).announced n).moved n p (moveToHost n h t).2 := by
  have hsaved : s.moved n p (saveSwitch n t).2 := keepsMoved_saveSwitch n t ht
  have hhost : MovesTo n p (setMap h 1 n p) _ := movesTo_wr (Reg.mgtCoreMap h) (1 <<< 31 + 1 <<< 28 + n <<< 16 + p)
  have hguest : MovesTo n p (setMap n 2 h p) _ := movesTo_wr (Reg.mgtCoreMap n) (1 <<< 31 + 2 <<< 28 + h <<< 16 + p)
  have hpos : MovesTo n p (updPos p fun x => { x with running := h }) _ := movesTo_updPos (r := h) fun _ => rfl
  have hbind := hhost.then (hguest.then (hpos.then (movesTo_announce hn (movesTo_settleHost hn hp (s.posOf n)))))
  rw [moveToHost, run_bind]
  generalize (saveSwitch n t).2 = u at *
  have hold := M.posOf_lt s n
  have hstate := hsaved.regs (Reg.mgtPosState (s.posOf n)) (.inl (by simp only [Reg.mgtPosState, Reg.mgtBenchCount]; omega))
  rw [run_bind, run_get]
  dsimp only
  rw [hsaved.posOf (by omega), hsaved.posOf hh, hsp, run_bind]
  by_cases hl : s.logicalAt (s.posOf n) = n
  · have hu : u.logicalAt (s.posOf n) = n := (congrArg (bits · 7 0) hstate).trans hl
    rw [M.vacated, if_pos hl, hu, beq_self_eq_true, run_whenA_true]
    have hvac : MovesTo n p (setField (Reg.mgtPosState (s.posOf n)) 7 0 0xFF) _ :=
      movesTo_upd (.inl (by simp only [Reg.mgtPosState, Reg.mgtBenchCount]; omega)) fun x => setBits x 7 0 0xFF
    have hall := (hvac.then hbind) s u hw hsaved
    exact hall
  · have hu : (u.logicalAt (s.posOf n) == n) = false := by
      rw [beq_eq_false_iff_ne]
      exact fun e => hl ((congrArg (bits · 7 0) hstate).symm.trans e)
    rw [M.vacated, if_neg hl, hu, run_whenA_false]
    have hall := hbind s u hw hsaved
    exact hall

end

section
variable {s : M} (hw : s.wf = true) {n h p : Nat}

include hw in
theorem M.wf_vacated : (s.vacated n).wf = true := by
  unfold M.vacated
  split
  · exact M.wf_setReg _ _ hw
  · exact hw

theorem M.vacated_reg {o : Nat} (ho : ∀ i, i < 128 → o ≠ Reg.mgtPosState i) : (s.vacated n).reg o = s.reg o := by
  unfold M.vacated
  split
  · exact M.reg_setReg_other s _ (ho _ (M.posOf_lt s n))
  · rfl

theorem M.hosted_reg {o : Nat} (h1 : o ≠ Reg.mgtCoreMap h) (h2 : o ≠ Reg.mgtCoreMap n) : (s.hosted n h p).reg o = s.reg o :=
  (M.reg_setReg_other _ _ h2).trans (M.reg_setReg_other _ _ h1)

include hw

theorem M.wf_hosted : (s.hosted n h p).wf = true := M.wf_withPosX (M.wf_setReg _ _ (M.wf_setReg _ _ hw)) _ _

theorem M.hosted_guest : (s.hosted n h p).reg (Reg.mgtCoreMap n) = 1 <<< 31 + 2 <<< 28 + h <<< 16 + p :=
  M.reg_setReg_self _ _ _ (M.wf_setReg _ _ hw)

theorem M.hosted_host (hne : h ≠ n) : (s.hosted n h p).reg (Reg.mgtCoreMap h) = 1 <<< 31 + 1 <<< 28 + n <<< 16 + p :=
  (M.reg_setReg_other _ _ (by simp only [Reg.mgtCoreMap]; omega)).trans (M.reg_setReg_self s _ _ hw)

theorem M.hosted_running : ((s.hosted n h p).posX p).running = h :=
  congrArg PosX.running (M.posX_withPosX (M.wf_setReg _ _ (M.wf_setReg _ _ hw)) p _)

end

end Sys2Proof.Machine

/-! # The commands that move a logical core, or end its job -/

namespace Sys2Proof.Machine

/-! ## The map after a move to a bench position -/

/-- Core n is bound to the bench position b, and the map shows it. -/
def M.boundTo (s : M) (n b : Nat) : M := ((s.sliced n b).rebound n b (s.posOf n)).announced n

section
variable {s : M} (hw : s.wf = true) {n b : Nat} (hn : n < 120) (hb : b < 128)

theorem M.boundTo_cores : (s.boundTo n b).cores = s.cores := by
  unfold M.boundTo M.announced M.rebound M.sliced
  split <;> rfl

include hn hb in
theorem M.boundTo_slice {k : Nat} (hk : k < 128) : (s.boundTo n b).reg (Reg.mgtSliceMap k) = (s.sliced n b).reg (Reg.mgtSliceMap k) := by
  have hold := M.posOf_lt s n
  rw [M.boundTo, M.announced_reg (by simp only [Reg.mgtSliceMap]; omega) (by simp only [Reg.mgtSliceMap, Reg.mgtMapGen]; omega),
    M.rebound_reg (by simp only [Reg.mgtSliceMap, Reg.mgtPosState]; omega) (by simp only [Reg.mgtSliceMap, Reg.mgtPosState]; omega)
      (by simp only [Reg.mgtSliceMap, Reg.mgtCoreMap]; omega)]

include hw hn in
theorem M.boundTo_map : (s.boundTo n b).reg (Reg.mgtCoreMap n) = 1 <<< 31 + 0 <<< 28 + 0xFF <<< 16 + b := by
  rw [M.boundTo, M.announced_reg (by simp only [Reg.mgtCoreMap]; omega) (by simp only [Reg.mgtCoreMap, Reg.mgtMapGen]; omega),
    M.rebound_map (M.wf_sliced hw)]

include hb in
theorem M.boundTo_state : (s.boundTo n b).reg (Reg.mgtPosState b) = ((s.sliced n b).rebound n b (s.posOf n)).reg (Reg.mgtPosState b) :=
  M.announced_reg (by simp only [Reg.mgtPosState]; omega) (by simp only [Reg.mgtPosState, Reg.mgtMapGen]; omega)

include hw hn in
theorem M.boundTo_old : bits ((s.boundTo n b).reg (Reg.mgtPosState (s.posOf n))) 7 0 = 0xFF := by
  have hold := M.posOf_lt s n
  rw [M.boundTo, M.announced_reg (by simp only [Reg.mgtPosState]; omega) (by simp only [Reg.mgtPosState, Reg.mgtMapGen]; omega),
    M.rebound_old (M.wf_sliced hw) hn]

include hw hn hb in
theorem M.boundTo_gen : (s.boundTo n b).reg Reg.mgtMapGen = trunc 32 (s.reg Reg.mgtMapGen + 1) := by
  have hold := M.posOf_lt s n
  rw [M.boundTo, M.announced_gen (M.wf_rebound (M.wf_sliced hw)),
    M.rebound_reg (by simp only [Reg.mgtMapGen, Reg.mgtPosState]; omega) (by simp only [Reg.mgtMapGen, Reg.mgtPosState]; omega)
      (by simp only [Reg.mgtMapGen, Reg.mgtCoreMap]; omega), M.sliced_reg (fun k hk => by simp only [Reg.mgtMapGen, Reg.mgtSliceMap]; omega) hn]

end

/-! ## Passes that were held -/

theorem Core.held_setRing (c : Core) (e : Nat) (g : Ring) : (c.setRing e g).heldPasses = c.heldPasses := by
  match e with
  | 0 | 1 | 2 | _ + 3 => rfl

/-- A core that holds no passes holds none after others have been applied. -/
theorem aboutHeld_none (n : Nat) : AboutHeld n fun t => Tab.wf Core.init t.cores = true ∧ (t.core n).heldPasses = [] where
  setReg _ _ h := h
  store _ _ h := h
  log _ h := h
  toHost o h := by
    unfold M.toHost
    split <;> exact h
  pass _ _ h := h
  rings k e g h := by
    refine ⟨Tab.wf_put _ _ _ _ h.1, ?_⟩
    rw [M.core_setCore h.1]
    split
    next hk => rw [Core.held_setRing, ← hk, h.2]
    · exact h.2
  unheld h := ⟨Tab.wf_put _ _ _ _ h.1, by rw [M.core_setCore h.1, if_pos rfl]⟩

/-- The passes that were held are applied, and none is left. -/
theorem applyHeld_moved {r t : M} {n p : Nat} (hn : n < 120) (h : r.moved n p t) :
    r.moved n p (applyHeld n t).2 ∧ ((applyHeld n t).2.core n).heldPasses = [] := by
  refine ⟨(aboutHeld_moved hn).keeps_applyHeld t h, ?_⟩
  rw [run_applyHeld]
  exact (keeps_forA (fun x => (aboutHeld_none n).keeps_applyOne x) _ (⟨Tab.wf_put _ _ _ _ h.tables.2.1, by rw [M.core_setCore h.tables.2.1, if_pos rfl]⟩)).2

/-! ## A substitution whose old position has stopped -/

section
variable {s : State} (hl : s.m.board.live = true) {n : Nat}
include hl

theorem substitutionStopped_idle (h : (s.m.core n).target = none ∨ s.m.coreStill n = false) : exec (.substitutionStopped n) s = .next s := by
  rw [exec, execSubstitutionStopped, State.doing_live s _ hl, substitute, run_bind, run_get]
  dsimp only
  cases ht : (s.m.core n).target with
  | none => rfl
  | some x =>
    obtain ⟨bench, t⟩ := x
    have hstill := h.resolve_left (by rw [ht]; simp)
    dsimp only
    rw [hstill, Bool.false_and, run_whenA_false]

variable (hstill : s.m.coreStill n = true) (hfirst : ∀ k, k < n → s.m.posOf k = s.m.posOf n → (s.m.core k).target = none)
include hstill hfirst

theorem exec_substitutionStopped {bench : Bool} {t : Nat} (ht : (s.m.core n).target = some (bench, t)) : exec (.substitutionStopped n) s = s.becomes
    ((match (if !bench then none else if s.m.posState t = 1 then some t else s.m.benchFor (s.m.posOf n)), s.m.hostFor n with
      | some b, _ => do
        moveToBench n b
        applyHeld n
      | none, some h => do
        moveToHost n h
        applyHeld n
      | none, none => coreFatal n 2) (s.m.untargeted n)).2 := by
  have hguard : (s.m.coreStill n && !(List.range n).any fun k => s.m.posOf k == s.m.posOf n && (s.m.core k).target.isSome) = true := by
    rw [hstill, Bool.true_and, Bool.not_eq_true', List.any_eq_false]
    intro k hk
    simp only [Bool.and_eq_true, beq_iff_eq, Option.isSome_iff_ne_none, ne_eq, not_and, not_not]
    exact hfirst k (List.mem_range.1 hk)
  rw [exec, execSubstitutionStopped, State.doing_live s _ hl, substitute, run_bind, run_get]
  dsimp only
  rw [ht]
  dsimp only
  rw [hguard, run_whenA_true, run_bind]
  rfl

variable (hw : s.m.wf = true) (hn : n < 120)
include hw hn

/-- The core is bound to its bench position. -/
theorem substitutionStopped_bench {t : Nat} (ht : (s.m.core n).target = some (true, t)) (hlt : t < 128) (hne : t ≠ s.m.posOf n)
    (hbench : s.m.posState t = 1) : s.ends (exec (.substitutionStopped n) s) fun m => m.posOf n = t ∧ m.coreMode n = 0 ∧ m.posState t = 0 ∧
      m.logicalAt t = n ∧ m.logicalAt (s.m.posOf n) = 0xFF ∧ m.reg (Reg.mgtSliceMap n) = t ∧
      (∀ k, k < 128 → k ≠ n → (∀ i, i < k → bits (s.m.reg (Reg.mgtSliceMap i)) 6 0 ≠ t) →
        bits (s.m.reg (Reg.mgtSliceMap k)) 6 0 = t → m.reg (Reg.mgtSliceMap k) = s.m.posOf n) ∧
      (m.core n).target = none ∧ (m.core n).heldPasses = [] ∧ bit (m.reg (Reg.coreStatus n)) 1 = true ∧
      m.reg Reg.mgtMapGen = trunc 32 (s.m.reg Reg.mgtMapGen + 1) := by
  have hwr := M.wf_untargeted hw (n := n)
  obtain ⟨hwf, hmoved⟩ := movesTo_moveToBench hn hlt _ _ hwr (.refl hwr n t)
  obtain ⟨happlied, hheld⟩ := applyHeld_moved hn hmoved
  rw [exec_substitutionStopped hl hstill hfirst ht]
  simp only [Bool.not_true, Bool.false_eq_true, if_false, hbench, if_true]
  rw [run_bind]
  generalize (applyHeld n (moveToBench n t (s.m.untargeted n)).2).2 = m at *
  replace happlied : ((s.m.untargeted n).boundTo n t).moved n t m := happlied
  have hold := M.posOf_lt s.m n
  have hlow : ∀ {o}, o < 0x100000 → o ≠ Reg.mgtBenchCount → m.reg o = ((s.m.untargeted n).boundTo n t).reg o := fun ho hc => happlied.regs _ (.inl ⟨ho, hc⟩)
  have hslice : ∀ {k}, k < 128 → m.reg (Reg.mgtSliceMap k) = ((s.m.untargeted n).sliced n t).reg (Reg.mgtSliceMap k) := fun hk =>
    (hlow (by simp only [Reg.mgtSliceMap]; omega) (by simp only [Reg.mgtSliceMap, Reg.mgtBenchCount]; omega)).trans (M.boundTo_slice hn hlt hk)
  have hmap := (hlow (o := Reg.mgtCoreMap n) (by simp only [Reg.mgtCoreMap]; omega) (by simp only [Reg.mgtCoreMap, Reg.mgtBenchCount]; omega)).trans
    (M.boundTo_map hwr hn)
  have hnew := (hlow (o := Reg.mgtPosState t) (by simp only [Reg.mgtPosState]; omega) (by simp only [Reg.mgtPosState, Reg.mgtBenchCount]; omega)).trans
    ((M.boundTo_state hlt).trans (M.rebound_new (M.wf_sliced hwr) hn hne))
  obtain ⟨hpos, hmode, -⟩ := mapWord_bits (mode := 0) (partner := 0xFF) (by decide) (by decide) hlt
  refine ⟨_, rfl, ?_, ?_, ?_, ?_, ?_, ?_, fun k hk hkn hno hyes => ?_, ?_, hheld, ?_, ?_⟩
  · rw [M.posOf, hmap, hpos]
  · rw [M.coreMode, hmap, hmode]
  · rw [M.posState, hnew, bits]
    omega
  · rw [M.logicalAt, hnew, bits]
    omega
  · rw [M.logicalAt, hlow (by simp only [Reg.mgtPosState]; omega) (by simp only [Reg.mgtPosState, Reg.mgtBenchCount]; omega)]
    exact M.boundTo_old hwr hn
  · exact (hslice (by omega)).trans (M.sliced_own hwr)
  · exact (hslice hk).trans (M.sliced_other hwr hk hkn hno hyes)
  · refine happlied.target.trans ?_
    rw [M.core, M.boundTo_cores]
    exact congrArg Core.target (M.core_untargeted hw)
  · rw [happlied.regs _ (.inr rfl)]
    exact M.announced_status (M.wf_rebound (M.wf_sliced hwr))
  · exact (hlow (by decide) (by decide)).trans (M.boundTo_gen hwr hn hlt)

omit hl hstill hfirst hw hn in
theorem M.hostFor_mem {s : M} {h : Nat} (hh : s.hostFor n = some h) : h < 120 ∧ h ≠ n := by
  have hmem : h ∈ (List.range s.nCores).filter fun h => h != n && s.coreMode h == 0 && s.posState (s.posOf h) == 0 && s.logicalAt (s.posOf h) == h := by
    unfold M.hostFor at hh
    dsimp only at hh
    split at hh
    next x hx => exact Option.some.inj hh ▸ List.mem_of_find?_eq_some hx
    next => exact List.mem_of_mem_head? hh
  obtain ⟨hlt, hok⟩ := List.mem_filter.1 hmem
  simp only [Bool.and_eq_true, bne_iff_ne, ne_eq] at hok
  exact ⟨(List.mem_range.1 hlt).trans_le s.nCores_le, hok.1.1.1⟩

/-- The core is the guest of a host. -/
theorem substitutionStopped_host {t h : Nat} (ht : (s.m.core n).target = some (false, t)) (hh : s.m.hostFor n = some h) :
    s.ends (exec (.substitutionStopped n) s) fun m => m.coreMode n = 2 ∧ m.coreMode h = 1 ∧
      bits (m.reg (Reg.mgtCoreMap h)) 23 16 = n ∧ bits (m.reg (Reg.mgtCoreMap n)) 23 16 = h ∧
      m.posOf n = s.m.posOf h ∧ m.posOf h = s.m.posOf h ∧ (m.posX (s.m.posOf h)).running = h ∧
      (m.core n).target = none ∧ m.reg Reg.mgtMapGen = trunc 32 (s.m.reg Reg.mgtMapGen + 1) := by
  obtain ⟨hlt, hne⟩ := M.hostFor_mem hh
  have hwr := M.wf_untargeted hw (n := n)
  have hp := M.posOf_lt s.m h
  obtain ⟨hwf, hmoved⟩ := movesTo_moveToHost hn hp hwr (h := h) (by omega) rfl (.refl hwr n (s.m.posOf h))
  obtain ⟨happlied, -⟩ := applyHeld_moved hn hmoved
  rw [exec_substitutionStopped hl hstill hfirst ht]
  simp only [Bool.not_false, if_true, hh]
  rw [run_bind]
  generalize (applyHeld n (moveToHost n h (s.m.untargeted n)).2).2 = m at *
  generalize s.m.posOf h = p at *
  have hwv := M.wf_vacated hwr (n := n)
  have hwh := M.wf_hosted hwv (n := n) (h := h) (p := p)
  have hlow : ∀ {o}, o < 0x100000 → o ≠ Reg.mgtBenchCount → o ≠ Reg.mgtMapGen → m.reg o = (((s.m.untargeted n).vacated n).hosted n h p).reg o :=
    fun ho hc hg => (happlied.regs _ (.inl ⟨ho, hc⟩)).trans (M.announced_reg ho hg)
  have hmap : ∀ {k}, k < 120 → m.reg (Reg.mgtCoreMap k) = (((s.m.untargeted n).vacated n).hosted n h p).reg (Reg.mgtCoreMap k) := fun hk =>
    hlow (by simp only [Reg.mgtCoreMap]; omega) (by simp only [Reg.mgtCoreMap, Reg.mgtBenchCount]; omega)
      (by simp only [Reg.mgtCoreMap, Reg.mgtMapGen]; omega)
  have hguest := (hmap hn).trans (M.hosted_guest hwv)
  have hhost := (hmap hlt).trans (M.hosted_host hwv hne)
  obtain ⟨hpos, hmode, hpartner⟩ := mapWord_bits (mode := 2) (partner := h) (by decide) (by omega) hp
  obtain ⟨hpos', hmode', hpartner'⟩ := mapWord_bits (mode := 1) (partner := n) (by decide) (by omega) hp
  refine ⟨_, rfl, ?_, ?_, ?_, ?_, ?_, ?_, ?_, ?_, ?_⟩
  · rw [M.coreMode, hguest, hmode]
  · rw [M.coreMode, hhost, hmode']
  · rw [hhost, hpartner']
  · rw [hguest, hpartner]
  · rw [M.posOf, hguest, hpos]
  · rw [M.posOf, hhost, hpos']
  · exact happlied.run.trans (M.hosted_running hwv)
  · refine happlied.target.trans ?_
    have hcores : ((((s.m.untargeted n).vacated n).hosted n h p).announced n).cores = (s.m.untargeted n).cores := by
      unfold M.announced M.hosted M.vacated
      split <;> rfl
    rw [M.core, hcores]
    exact congrArg Core.target (M.core_untargeted hw)
  · rw [happlied.regs _ (.inl ⟨by decide, by decide⟩), M.announced_gen hwh, M.hosted_reg (by simp only [Reg.mgtMapGen, Reg.mgtCoreMap]; omega)
      (by simp only [Reg.mgtMapGen, Reg.mgtCoreMap]; omega), M.vacated_reg (fun i hi => by simp only [Reg.mgtMapGen, Reg.mgtPosState]; omega)]
    rfl

omit hw hn in
/-- Without a host, the move is fatal. -/
theorem substitutionStopped_fatal {t : Nat} (ht : (s.m.core n).target = some (false, t)) (hh : s.m.hostFor n = none) :
    exec (.substitutionStopped n) s = s.becomes (coreFatal n 2 (s.m.untargeted n)).2 := by
  rw [exec_substitutionStopped hl hstill hfirst ht]
  simp only [Bool.not_false, if_true, hh]

end

/-! ## What ends the job of a core -/

section
variable {s : State} {c : Instr} {n : Nat}

/-- The machine has the job of core n, the queues, the registers and the stores of the first. -/
structure M.alike (s : M) (n : Nat) (r : M) : Prop where
  wf : r.wf = true
  job : (r.core n).job = (s.core n).job
  queues : r.hostQ = s.hostQ
  regs : r.regs = s.regs
  stores : s.sameStores r

theorem M.alike.refl {s : M} (hw : s.wf = true) (n : Nat) : s.alike n s := ⟨hw, rfl, rfl, rfl, rfl, rfl⟩

theorem M.alike_untargeted {s : M} (hw : s.wf = true) (n : Nat) : s.alike n (s.untargeted n) :=
  ⟨M.wf_untargeted hw, (congrArg Core.job (M.core_untargeted hw) :), rfl, rfl, rfl, rfl⟩

/-- A command that is fatal for the core ends its job, or is noted where there is none. -/
theorem fatal_ends (hn : n < s.m.nCores) {r : M} (hr : s.m.alike n r) {cause : Nat} (hrun : exec c s = s.becomes (coreFatal n cause r).2) :
    (∀ q y j, (s.m.core n).job = some (q, y) → s.m.runningJob q y = some j → n ∈ j.cores → s.ends (exec c s) (M.jobOver · n q y)) ∧
    ((s.m.core n).job = none → s.ends (exec c s) fun m => (m.core n).target = none ∧ s.m.logs m 0x3E 177 ∧ s.m.sameStores m) := by
  have hreg : ∀ o, r.reg o = s.m.reg o := fun o => congrArg (Tab.read Reg.dflt · o) hr.regs
  have hgrade : r.nCores = s.m.nCores := by rw [M.nCores, hreg, M.nCores]
  refine ⟨fun q y j hjob hj hmem => ⟨_, hrun, coreFatal_ends hr.wf (hr.job.trans hjob) ?_ hmem (Nat.lt_of_lt_of_eq hn hgrade.symm) cause⟩, fun hnone => ?_⟩
  · rw [M.runningJob, M.queue, hr.queues]
    exact hj
  · obtain ⟨htarget, hlogs, hstores⟩ := coreFatal_idle hr.wf (hr.job.trans hnone) cause
    exact ⟨_, hrun, htarget, hlogs.from (hreg _), hstores.1.trans hr.stores.1, hstores.2.trans hr.stores.2⟩

/-- A command that ends the jobs on a core. -/
theorem jobs_end (hn : n < s.m.nCores) {r : M} {still : Prop} (hr : s.m.noted still r) (hw : r.wf = true) {status : Nat}
    (hrun : exec c s = s.becomes (endJobsOn n status r).2) {q y : Nat} {j : Job} (hjob : (s.m.core n).job = some (q, y))
    (hj : s.m.runningJob q y = some j) (hmem : n ∈ j.cores) : s.ends (exec c s) (M.jobOver · n q y) := by
  obtain ⟨hcores, hq, hg⟩ := hr.beside
  refine ⟨_, hrun, endJobsOn_ends hw (j := j) ?_ ?_ hmem (Nat.lt_of_lt_of_eq hn hg.symm) status⟩
  · rw [M.core, hcores]
    exact hjob
  · rw [M.runningJob, M.queue, hq]
    exact hj

variable (hl : s.m.board.live = true)
include hl

/-- The old position has not stopped in time. -/
theorem exec_substitutionStopTimeout : ((s.m.core n).target ≠ none → s.m.coreStill n = false →
      exec (.substitutionStopTimeout n) s = s.becomes (coreFatal n 1 s.m).2) ∧
    ((s.m.core n).target = none ∨ s.m.coreStill n = true → exec (.substitutionStopTimeout n) s = .next s) := by
  rw [exec, execSubstitutionStopTimeout, State.doing_live s _ hl, run_bind, run_get]
  dsimp only
  refine ⟨fun ht hs => ?_, fun h => ?_⟩
  · rw [hs, Option.isSome_iff_ne_none.2 ht]
    rfl
  · have hno : ((s.m.core n).target.isSome && !s.m.coreStill n) = false := by
      rcases h with h | h <;> simp [h]
    rw [hno, run_whenA_false]

/-! ## Faults of a control core -/

theorem controlCoreFault_quiet {addr size : Nat} (h : (s.m.core n).ctl.running = false ∨
    (accessFault addr size = false ∧ s.m.clean (linesOf addr (max 1 size)))) : exec (.controlCoreFault n addr size) s = .next s := by
  rw [exec, execControlCoreFault, State.doing_live s _ hl, run_bind, run_get]
  dsimp only
  cases hr : (s.m.core n).ctl.running with
  | false => rw [run_whenA_false]
  | true =>
    obtain ⟨hf, hclean⟩ := h.resolve_left (by rw [hr]; decide)
    rw [run_whenA_true, if_neg (by rw [hf]; decide)]
    split
    · rw [run_bind, run_readBytes_ok addr (max 1 size) s.m hclean]
      rfl
    · rfl

theorem controlCoreFault_access {addr size : Nat} (hr : (s.m.core n).ctl.running = true) (hf : accessFault addr size = true) :
    exec (.controlCoreFault n addr size) s = s.becomes (endJobsOn n 1 s.m).2 := by
  rw [exec, execControlCoreFault, State.doing_live s _ hl, run_bind, run_get]
  dsimp only
  rw [hr, run_whenA_true, if_pos hf]

theorem controlCoreFault_poisoned {addr size l : Nat} (hr : (s.m.core n).ctl.running = true) (hf : accessFault addr size = false)
    (hin : inRegion addr (max 1 size) = true) (hmem : l ∈ linesOf addr (max 1 size)) (hl' : rsDecode (s.m.codeword l) = .poisoned) :
    exec (.controlCoreFault n addr size) s = s.becomes (endJobsOn n 3 (readBytes addr (max 1 size) s.m).2).2 := by
  have hp := readBytes_poisoned hmem hl'
  rw [exec, execControlCoreFault, State.doing_live s _ hl, run_bind, run_get]
  dsimp only
  rw [hr, run_whenA_true, if_neg (by rw [hf]; decide), if_pos hin, run_bind]
  generalize readBytes addr (max 1 size) s.m = r at *
  obtain ⟨⟨p, bs⟩, t⟩ := r
  cases hp
  rfl

end

/-! ## Doubled positions -/

section
variable {s : State} (hl : s.m.board.live = true) (pos ran : Nat)

/-- The core that waits at a doubled position where core r runs. -/
def M.partner (s : M) (pos r : Nat) : Nat :=
  if r = s.logicalAt pos then bits (s.reg (Reg.mgtCoreMap (s.logicalAt pos))) 23 16 else s.logicalAt pos

/-- The core that runs at a doubled position. -/
def M.doubledAt (s : M) (pos : Nat) : Nat :=
  if (s.posX pos).running = bits (s.reg (Reg.mgtCoreMap (s.logicalAt pos))) 23 16 then bits (s.reg (Reg.mgtCoreMap (s.logicalAt pos))) 23 16
  else s.logicalAt pos

/-- A doubled position switches to the other core. -/
def M.switches (s : M) (pos ran : Nat) : Prop :=
  s.coreMode (s.logicalAt pos) = 1 ∧ s.posState pos = 0 ∧ (s.posX pos).practice = false ∧ s.coreStill (s.doubledAt pos) = true ∧
    (∃ e, e < 4 ∧ s.hasWork (s.partner pos (s.doubledAt pos)) e = true) ∧
    (max 1 (bits (s.reg Reg.mgtDoubleCtl) 23 8) * 1024 ≤ ran ∨ s.coreIdle (s.doubledAt pos) = true)

include hl

theorem exec_doublingSwitch : (s.m.switches pos ran → exec (.doublingSwitch pos ran) s = s.becomes
      (resumeAt (s.m.partner pos (s.m.doubledAt pos)) pos 2 (updPos pos (fun x => { x with running := s.m.partner pos (s.m.doubledAt pos) })
        (saveSwitch (s.m.doubledAt pos) s.m).2).2).2) ∧
    (¬ s.m.switches pos ran → exec (.doublingSwitch pos ran) s = .next s) := by
  have hguard : s.m.switches pos ran ↔ (s.m.coreMode (s.m.logicalAt pos) == 1 && s.m.posState pos == 0 && !(s.m.posX pos).practice &&
      s.m.coreStill (s.m.doubledAt pos) && (List.range 4).any (s.m.hasWork (s.m.partner pos (s.m.doubledAt pos))) &&
      (decide (ran ≥ max 1 (bits (s.m.reg Reg.mgtDoubleCtl) 23 8) * 1024) || s.m.coreIdle (s.m.doubledAt pos))) = true := by
    simp only [M.switches, Bool.and_eq_true, Bool.or_eq_true, beq_iff_eq, Bool.not_eq_true', List.any_eq_true, List.mem_range, decide_eq_true_eq,
      and_assoc, ge_iff_le]
  have hrun : exec (.doublingSwitch pos ran) s = s.becomes (whenA (s.m.coreMode (s.m.logicalAt pos) == 1 && s.m.posState pos == 0 &&
      !(s.m.posX pos).practice && s.m.coreStill (s.m.doubledAt pos) && (List.range 4).any (s.m.hasWork (s.m.partner pos (s.m.doubledAt pos))) &&
      (decide (ran ≥ max 1 (bits (s.m.reg Reg.mgtDoubleCtl) 23 8) * 1024) || s.m.coreIdle (s.m.doubledAt pos))) (do
        saveSwitch (s.m.doubledAt pos)
        updPos pos fun x => { x with running := s.m.partner pos (s.m.doubledAt pos) }
        resumeAt (s.m.partner pos (s.m.doubledAt pos)) pos 2) s.m).2 := by
    rw [exec, execDoublingSwitch, State.doing_live s _ hl, run_bind, run_get]
    rfl
  rw [hrun]
  refine ⟨fun h => ?_, fun h => ?_⟩
  · rw [hguard.1 h, run_whenA_true, run_bind, run_bind]
  · rw [Bool.eq_false_iff.2 (mt hguard.2 h), run_whenA_false]

theorem doublingSwitch_switches (hw : s.m.wf = true) (hgo : s.m.switches pos ran) (hpos : pos < 128) (hh : s.m.logicalAt pos < 120)
    (hg : bits (s.m.reg (Reg.mgtCoreMap (s.m.logicalAt pos))) 23 16 < 120) : s.ends (exec (.doublingSwitch pos ran) s) fun m =>
      (m.posX pos).running = s.m.partner pos (s.m.doubledAt pos) ∧ m.coreMode (s.m.logicalAt pos) = 1 ∧ m.posState pos = 0 ∧
      ∀ i, i ≠ pos → m.posX i = s.m.posX i := by
  rw [(exec_doublingSwitch hl pos ran).1 hgo]
  obtain ⟨hmode, hstate, -⟩ := hgo
  have ho : s.m.partner pos (s.m.doubledAt pos) < 120 := by
    unfold M.partner
    split
    · exact hg
    · exact hh
  generalize s.m.partner pos (s.m.doubledAt pos) = o at *
  have hsaved : s.m.moved o pos (saveSwitch (s.m.doubledAt pos) s.m).2 := keepsMoved_saveSwitch _ s.m (.refl hw o pos)
  generalize (saveSwitch (s.m.doubledAt pos) s.m).2 = t at *
  have hset := (movesTo_updPos (n := o) (f := fun x => { x with running := o }) (r := o) (fun _ => rfl) s.m t hw hsaved).2
  generalize (updPos pos (fun x => { x with running := o }) t).2 = u at *
  have hmoved := (aboutResume_moved ho hpos).keeps_resumeAt 2 u hset
  generalize (resumeAt o pos 2 u).2 = m at *
  have hregs := fun r (hr : Reg.ofMove o r) => (hmoved.regs r hr).trans (M.reg_withPosX s.m pos { s.m.posX pos with running := o } r)
  have hrun := hmoved.run.trans (congrArg PosX.running (M.posX_withPosX hw pos { s.m.posX pos with running := o }))
  have hothers := hmoved.pos
  refine ⟨_, rfl, hrun, ?_, ?_, fun i hi => (hothers i hi).trans (M.posX_withPosX_other s.m hi _)⟩
  · rw [M.coreMode, hregs _ (.inl (by simp only [Reg.mgtCoreMap, Reg.mgtBenchCount]; omega))]
    exact hmode
  · rw [M.posState, hregs _ (.inl (by simp only [Reg.mgtPosState, Reg.mgtBenchCount]; omega))]
    exact hstate

end

/-- Settles O49: each command by its guard; the core map after a move is read off the writes that make it (`MovesTo`). -/
theorem logicalCoresMove : Obligations.LogicalCoresMove := by
  intro s n hl hw hn old still first ends fatal
  have hn' := hn.trans_le s.m.nCores_le
  refine ⟨fun h => substitutionStopped_idle hl h, fun t ht hstill hfirst hlt hne hb => substitutionStopped_bench hl hstill hfirst hw hn' ht hlt hne hb,
    fun t ht hstill hfirst => ⟨fun h hh => substitutionStopped_host hl hstill hfirst hw hn' ht hh, fun hh =>
      fatal_ends hn (M.alike_untargeted hw n) (substitutionStopped_fatal hl hstill hfirst ht hh)⟩,
    fun ht hstill => fatal_ends hn (.refl hw n) ((exec_substitutionStopTimeout hl).1 ht hstill), (exec_substitutionStopTimeout hl).2,
    fun pos ran => ⟨fun hgo hpos hh hg => doublingSwitch_switches hl pos ran hw hgo hpos hh hg, (exec_doublingSwitch hl pos ran).2⟩,
    fun w mask ha => corePlaySync_syncs hl hw hn ha mask, fun addr size => ⟨fun hr hf q y j hjob hj hmem => ?_, fun hr hf hin hp q y j hjob hj hmem => ?_,
      controlCoreFault_quiet hl⟩⟩
  · exact jobs_end hn (.refl True s.m) hw (controlCoreFault_access hl hr hf) hjob hj hmem
  · obtain ⟨l, hl', hdec⟩ := hp
    exact jobs_end hn ((M.aboutNotes_noted s.m).keeps_readBytes addr (max 1 size) s.m (.refl False s.m)) (keepsWf_readBytes addr (max 1 size) s.m hw)
      (controlCoreFault_poisoned hl hr hf hin hl' hdec) hjob hj hmem

end Sys2Proof.Machine

/-! # A shadow at no position

The statement lets a shadow name any number as its position. For the number whose state register would lie where the decisions are counted,
the quarantine that a decision asks for changes the count. -/

namespace Sys2Proof.Machine

/-- The position whose state would stand in CHK_DECISIONS. -/
def strayPosition : Nat := 0x83E8C

theorem strayPosition_reg : Reg.mgtPosState strayPosition = Reg.chkDecisions := by decide

/-- A shadow there, which waits for its decision. -/
def strayShadow : Shadow := { slot := 0, orig := 0, pos := strayPosition, drain := 0, step := 0, row0 := 0, col0 := 0, m := 0, n := 0, base := 0, split := true }

/-- A live module whose core 0 has that shadow. -/
def shadowed : State := { State.reset with m := { tRegs [] with cores := [(0, { shadows := [strayShadow] })] } }

theorem shadowed_sound : shadowed.m.board.live = true ∧ shadowed.m.wf = true ∧ shadowed.m.shadowOf 0 0 true = some strayShadow ∧
    shadowed.m.reg Reg.chkDecisions = 0 := by decide +kernel

/-- The decision for the original counts one, and the quarantine of the shadow's position then sets state 2 in the count. -/
theorem shadowed_counts : (tAfter (exec (.decisionComplete 0 0 2 0 1 0) shadowed)).reg Reg.chkDecisions = 0x201 := by
  decide +kernel

/-- Refutes O50: for a shadow at a position beyond the 128 (`strayShadow`), the quarantine after the decision changes the count of decisions. -/
theorem not_shadowsAndDecisions : ¬ Obligations.ShadowsAndDecisions := by
  intro h
  obtain ⟨hl, hw, hshadow, hc⟩ := shadowed_sound
  obtain ⟨-, -, -, -, -, -, hdecide, -⟩ := h shadowed 0 0 hl hw (by decide) (by decide)
  obtain ⟨m, hrun, hcount, -⟩ := (hdecide strayShadow 0 1 0 hshadow).2.1 (by decide) rfl
  have hgot := shadowed_counts
  rw [hrun] at hgot
  exact absurd (hgot.symm.trans (hcount.trans (by rw [hc]))) (by decide)

end Sys2Proof.Machine

/-! # A run across a block's end

In a blocked layout element i of an array stands in block i / BLOCK_E of 4,096 bytes. The update's state may say that the next run
begins inside a block: the run then ends in the next one, while its codes are written as one piece of consecutive bytes, which
enters a line that holds no byte of its elements. Where that line is poisoned the write is discarded and the record poisoned. -/

namespace Sys2Proof.Machine

/-- A blocked layer of three elements, two to a block: masters and moments in FP32, gradients as exact records. -/
def blockedLayer : Nat := 1 <<< 61 + 1 <<< 58 + 3 <<< 64 + 2 <<< 112 + 16 <<< 128

/-- An UPDATE released at element 1, the second of its block. -/
def midBlock : InFlight :=
  { x := 0, w0 := 0x89, w1 := 0, w2 := 0, w3 := 0, ls := [blockedLayer], started := true, upd := { released := true, pass := 1, elem := 1 } }

/-- A live module with that UPDATE in flight, credits for it, and a poisoned line 1, beside the bytes of element 1. -/
def midBlockState : State :=
  let m := (tRegs [(Reg.pwrBalance 0, creditCap)]).withRing 119 3 fun g => { g with infl := [midBlock] }
  { State.reset with m := m.putLine 1 (List.replicate 32 0#8) true }

theorem midBlockState_sound : midBlockState.m.board.live = true ∧ midBlockState.m.wf = true ∧
    (midBlockState.m.sEntry 119 fun f => f.upd.released && !f.done && f.nextRun.isSome) = some (0, midBlock) ∧
    midBlock.nextRun = some (1, 0, 1) ∧ midBlock.layers.getD 0 (Layer.parse 0) = Layer.parse blockedLayer := by
  decide +kernel

theorem blockedLayer_unit : let l := Layer.parse blockedLayer
    l.statsEn = false ∧ l.alg = 0 ∧ l.runAt 1 = 2 ∧ midBlockState.m.unitIsland l 1 = 0 ∧
    ∀ x, ((min x creditCap : Nat) : Int) ≤ midBlockState.m.balance 0 := by
  refine ⟨by decide, by decide, by decide, by decide +kernel, fun x => ?_⟩
  have hb : midBlockState.m.balance 0 = (creditCap : Int) := by decide +kernel
  rw [hb]
  exact_mod_cast min_le_right _ _

/-- The lines of the two elements are clean: line 1 is none of them. -/
theorem midBlock_clean : ∀ a, a < 5 → ∀ i, 1 ≤ i → i < 1 + 2 → midBlockState.m.clean ((Layer.parse blockedLayer).elemLines a i) := by
  have hall : ∀ a ∈ List.range 5, ∀ i ∈ List.range' 1 2, ∀ l ∈ (Layer.parse blockedLayer).elemLines a i,
      rsDecode (midBlockState.m.codeword l) = .ok := by decide +kernel
  exact fun a ha i h0 hi => hall a (List.mem_range.2 ha) i (List.mem_range'_1.2 ⟨h0, hi⟩)

/-- The write of the two moments ends in line 1 and is discarded. -/
theorem midBlock_poisons : ((tAfter (exec (.updateUnitBlock 119) midBlockState)).ring 119 3).infl.all (·.poison) = true := by
  decide +kernel

/-- Refutes O52: a run that begins inside a block (`midBlockState`) is poisoned though every line of its elements is clean. -/
theorem not_updatesWaitAndRun : ¬ Obligations.UpdatesWaitAndRun := by
  intro h
  obtain ⟨hl, hw, hentry, hnext, hlayer⟩ := midBlockState_sound
  obtain ⟨hstats, halg, hrun, hisl, hcap⟩ := blockedLayer_unit
  obtain ⟨-, -, -, -, hruns, -⟩ := h midBlockState 119 hl hw (by decide)
  have hunit := (hruns 0 midBlock 1 0 1 hentry hnext).2
  rw [hlayer, hisl, hrun] at hunit
  obtain ⟨m, hexec, -, ⟨f', hinfl, -, -, -, -, -, hkept⟩, -⟩ := hunit (hcap _) (by decide)
  have hbad := midBlock_poisons
  rw [hexec] at hbad
  have hclean := (hkept midBlock_clean hstats (by rw [halg]; decide)).2
  have hmem : f' ∈ (m.ring 119 3).infl := by
    rw [hinfl]
    exact List.mem_set (by decide +kernel) _
  exact absurd ((List.all_eq_true.1 hbad f' hmem).symm.trans hclean) (by decide)

end Sys2Proof.Machine
